-- ==== Sys2Proof/Word.lean ====
section
/-! DEFINITION. The words of the module: bytes, registers, CT words, move words, and the plainest
arithmetic on them. Multi-byte values are little-endian (R3). -/

namespace Sys2Proof

/-- One byte of a memory, a packet or an image. -/
abbrev Byte := BitVec 8
/-- A 32-bit value: FP32 bits, a knot, a SID, a step number. -/
abbrev W32 := BitVec 32
/-- A 64-bit value: a register, FP64 bits. -/
abbrev W64 := BitVec 64
/-- A CT word: turn [63:26], beat [25:16], fraction [15:0] (R5). -/
abbrev CtWord := BitVec 64
/-- A move of a play (R185). -/
abbrev MoveWord := BitVec 256

end Sys2Proof
end

