-- ==== Sys2Proof/Syntax.lean ====
section
/-! DEFINITION. The commands of the block: one constructor of Instr per row of spec/opcode_table.json. What the
module's surroundings decide (what a host writes, what a sensor reads, what a fault does) is an operand. -/

namespace Sys2Proof

/-- The PCIe port (0 or 1) and the view of a host access: BAR0 privileged, BAR2 job (R507). -/
structure HostAccess where
  port : Nat
  job : Bool
  deriving DecidableEq, Repr

/-- A command packet (R521) with the queue it came through: fields of the 64 B header, P[0..39], payload; `tag` is the arrival number
that the dispatcher gives a command with a step. -/
structure Packet where
  opc : Nat
  flags : BitVec 16
  len : Nat
  rsv : BitVec 16
  seq : W32
  tgt : W32
  fire : CtWord
  param : List Byte
  payload : List Byte
  queue : Nat
  origin : Nat
  tag : Nat := 0
  deriving DecidableEq, Repr

/-- A word of the data path as a consumer has read it at last (R460): 32 data bytes and their parity bits. -/
structure DataWord where
  data : List Byte
  par : BitVec 32
  deriving DecidableEq, Repr

/-- Where a word with a failing byte was read (R461): the store of a logical tile, a mesh hop with the physical tile downstream, a near-stack interface at a module address
that is read or written, a rim interface at a module address. -/
inductive ParityPlace where
  | store (tile : Nat)
  | hop (tile : Nat)
  | near (write : Bool) (addr : Nat)
  | rim (addr : Nat)
  deriving DecidableEq, Repr

/-- How a DRAM row or unit reads through on-die error correction (R284, R300, R338). -/
inductive ArrayRead where
  | ok | corrected | bad
  deriving DecidableEq, Repr

/-- A unit of the rim stack of a member of a parity group, in a row, as a pass reads it (R300, R338). -/
structure RimUnit where
  member : Nat
  unit : Nat
  row : Nat
  read : ArrayRead
  deriving DecidableEq, Repr

/-- A physical fault that a started move meets (R45, R241, R338, R461): none; a PCIe access that fails after its retry (port, host address); a word discarded at a
full crossing (source and destination domain); a word with a failing byte, as its last retry returns it; a unit of a rim stack, in a row, that on-die error correction
corrects or cannot; a result of a ply lane that fails its residue check, once or twice (R468). -/
inductive MoveFault where
  | none
  | hostFail (port : Nat) (addr : Nat)
  | overrun (src dst : Nat)
  | parity (p : ParityPlace) (w : DataWord)
  | rim (addr row : Nat) (r : ArrayRead)
  | lane (twice : Bool)
  deriving DecidableEq, Repr

/-- The engine a mesh packet comes from (R246, R252): a queue of a tile, or another engine by number. -/
inductive Source where
  | queue (tile code : Nat)
  | engine (n : Nat)
  deriving DecidableEq, Repr

/-- A gradient contribution (R312): entry, row, segment, step, source engine, BF16 elements. -/
structure Contribution where
  entry : Nat
  row : Nat
  seg : Nat
  step : W32
  src : Nat
  data : List (BitVec 16)
  deriving DecidableEq, Repr

/-- A gradient leaf (R398): slot, row, segment, step, sending member, BF16 elements. -/
structure Leaf where
  slot : Nat
  row : Nat
  seg : Nat
  step : W32
  member : Nat
  data : List (BitVec 16)
  deriving DecidableEq, Repr

/-- The body of a HELLO flit (R388). -/
structure Hello where
  serial : W64
  port : Nat
  ack : Bool
  coord : W32
  planId : W32
  echo : W64
  deriving DecidableEq, Repr

/-- A packet of the links (R390): the header's fields, and LEN units of 16 B of payload. -/
structure RoutedPacket where
  typ : Nat
  rts : Nat
  dest : Nat
  hops : Nat
  vc : Nat
  len : Nat
  step : W32
  src : Nat
  slot : Nat
  row : Nat
  seg : Nat
  payload : List Byte
  deriving DecidableEq, Repr

/-- What the header of every flit carries beside its type (R375, R378): the last DATA sequence received, and a credit return. -/
structure FlitHead where
  ack : Nat
  cvc : Nat
  cred : Nat
  deriving DecidableEq, Repr

/-- A codeword that a lane receives (R374, R375): the 640 B of its flit with the bit errors that were corrected; such a flit whose payload the full FIFO behind the
port discards (R45); or an uncorrectable one. -/
inductive Codeword where
  | flit (fixed : Nat) (data : List Byte)
  | overrun (data : List Byte)
  | bad
  deriving DecidableEq, Repr

/-- How a lane comes through the first half of its qualification (R384): bit errors before correction among so many bits received here, and whether the peer's receiver
passes its other direction. -/
structure LaneTest where
  errors : Nat
  bits : Nat
  peer : Bool
  deriving DecidableEq, Repr

/-- Why a lane is swapped (R382): bit errors before correction among so many bits of a window of 1 s; two uncorrectable codewords in such a window; or the peer's
LANE_SWAP flit, which names the logical lane and the DATA sequence. -/
inductive LaneCause where
  | ratio (errors bits : Nat)
  | words
  | peer (h : FlitHead) (seq : Nat)
  deriving DecidableEq, Repr

/-- A collective control packet (R404). -/
inductive Control where
  | ready (member : Nat) (step : W32)
  | vote (member : Nat) (step : W32) (commit : Bool)
  | outcome (member : Nat) (step : W32) (commit : Bool)
  | normP (member : Nat) (step : W32) (p : W64)
  | arrive (member : Nat) (ident : Nat)
  deriving DecidableEq, Repr

/-- The measurements a power-turn boundary acts on (R443, R447, R451, R450): average rail watts outside the fields, average
input watts of the turn that ended, hottest tile per field in two consecutive samples (R44) and its physical tile ID, hottest capstan in two samples, and the cycles of each
field's running droop stretch so far (R449). -/
structure PowerSense where
  nonField : Nat
  input : Nat
  temps : List Nat
  again : List Nat
  tiles : List Nat
  cap : Nat
  capAgain : Nat
  stretched : List Nat
  deriving DecidableEq, Repr

/-- What BIST and the stores read in stage 3 find (R486, R491): bad physical tiles, bad PLLs (domain * 2 + PLL, domain 8 the mesh), bad capstan
dice, faulty phases (field * 32 + phase), and whether a copy of the defect store can be read. -/
structure Inventory where
  storeIntact : Bool
  tiles : List Nat
  plls : List Nat
  dice : List Nat
  phases : List Nat
  deriving DecidableEq, Repr

/-- A COUNT packet of an exchange (R416): exchange, member, issuing tile, the DISPATCH items and the index rows scanned
(expert per token and rank, 0xFFFF for none). -/
structure XCount where
  xid : Nat
  member : Nat
  tile : Nat
  srcn : Nat
  rows : Nat
  capm : Bool
  ovf : Bool
  cap : Nat
  k : Nat
  rowl : Nat
  fmt : Nat
  counts : List (Nat × Nat)
  step : W32
  deriving DecidableEq, Repr

/-- A GRANT record (R416): exchange, expert, the source's tile, base row, rows admitted, and the overflow outcome: whether copies of the source are dropped, and whether
some are admitted to the second pass (R419). -/
structure XGrant where
  xid : Nat
  expert : Nat
  tile : Nat
  base : Nat
  admitted : Nat
  dropped : Bool
  spilled : Bool
  step : W32
  deriving DecidableEq, Repr

/-- A receive row (R416, R420): exchange, expert, receive row, elements, one scale byte per square (square-scaled) or four (MX). -/
structure XRow where
  xid : Nat
  expert : Nat
  row : Nat
  elems : List Nat
  scales : List Nat
  step : W32
  deriving DecidableEq, Repr

/-- A FETCH (R424): exchange, expert, receive row, where the line goes (member, tile). -/
structure XFetch where
  xid : Nat
  expert : Nat
  row : Nat
  member : Nat
  tile : Nat
  step : W32
  deriving DecidableEq, Repr

/-- A RESULT (R424): exchange, expert, receive row, the return line's elements in RFMT. -/
structure XResult where
  xid : Nat
  expert : Nat
  row : Nat
  tile : Nat
  elems : List Nat
  step : W32
  deriving DecidableEq, Repr

/-- An arithmetic fault that a tally comparison shows (R346, R348): the checksum column; the place of the wrong output among those that the column covers, or none for the
checksum output itself; what the array gave there; the failing tile row of the partition (R469). -/
structure TallyFault where
  col : Nat
  out : Option Nat
  value : W32
  row : Nat
  deriving DecidableEq, Repr

/-- Why a port goes down (R395). -/
inductive DownCause where
  | lostLock
  | noFlit
  | retries
  deriving DecidableEq, Repr

/-- What happens around a beat edge (R23, R28, R34): the module generates an edge of its own (HOLDOVER, SLEW, INTERNAL); the window of an expected edge of CAD±
passes without one; or an edge is received, so many picoseconds from its predicted time, when the fraction of the module's own CT stands at `frac`, with the
beat period measured over the last 1024 beats. `at38` and `at58` are the levels of CAD± at 3/8 and 5/8 of the predicted beat that ends there. -/
inductive BeatSignal where
  | own
  | missing (at38 at58 : Bool)
  | received (frac : BitVec 16) (offPs : Int) (periodPs : Nat) (at38 at58 : Bool)
  deriving DecidableEq, Repr

/-- What the way of a word or an event does with it (R45, R461): it passes; it is discarded at a full FIFO or a full pending counter between two domains; or a mesh
hop receives a word with a failing byte, as the last resending returns it, at a downstream physical tile. -/
inductive Transit where
  | ok
  | overrun (src dst : Nat)
  | hop (tile : Nat) (w : DataWord)
  deriving DecidableEq, Repr

/-- What an operation of a ply lane or a capstan lane meets: nothing; a residue check that fails once and passes when reissued, or fails twice (R468); or a word of
the tile's store with a failing byte, as the last retry returns it (R461). -/
inductive LaneFault where
  | none | once | twice
  | parity (w : DataWord)
  deriving DecidableEq, Repr

/-- The condition of a cadence loss (R28). -/
inductive LossCause where
  | edges
  | stamps
  | period
  deriving DecidableEq, Repr

/-- What the 52 V input stands at for longer than a limit allows (R552, R554): so many millivolts, below it or above it, or so many amperes. -/
inductive InputFault where
  | under (mv : Int)
  | over (mv : Int)
  | current (amps : Nat)
  deriving DecidableEq, Repr

/-- The commands. -/
inductive Instr where
  -- host access
  | registerWrite (h : HostAccess) (off : Nat) (wide : Bool) (v : W64)
  | sqDb (h : HostAccess) (q tail : Nat)
  | cqDb (h : HostAccess) (q head : Nat)
  | queueEnable (h : HostAccess) (q : Nat)
  | queueDisable (h : HostAccess) (q : Nat)
  | commandFetch (q : Nat) (data : Option (List Byte))
  | replyWrite (q : Nat) (t : Transit)
  | apertureRead (port off len : Nat) (f : MoveFault)
  | apertureWrite (port off : Nat) (data : List Byte) (f : MoveFault)
  | jobSeedWrite (h : HostAccess) (v : W64)
  | committedWrite (h : HostAccess) (v : W32)
  | privLockFreeze (h : HostAccess)
  | stallEnClear (h : HostAccess)
  | regionStage (h : HostAccess) (n : Nat) (v : W64)
  | regionWrite (h : HostAccess) (n : Nat) (v : W64)
  | cadSrc (h : HostAccess) (v : BitVec 2)
  | resync (h : HostAccess)
  | dbgHalt (h : HostAccess)
  | dbgResume (h : HostAccess)
  | dbgStep (h : HostAccess)
  | dbgDataRead (h : HostAccess)
  | dbgDataWrite (h : HostAccess) (v : W64)
  -- opcodes of R527
  | nop (p : Packet)
  | eventGet (p : Packet)
  | buOpen (p : Packet)
  | loan (p : Packet)
  | loanRevokeEffect (id : Nat)
  | hintPlace (p : Packet)
  | playFire (p : Packet)
  | playAbort (p : Packet)
  | part (p : Packet)
  | partComplete (org shape : Nat)
  | ledgerSet (p : Packet)
  | ledgerGet (p : Packet)
  | groupSet (p : Packet)
  | commitArm (p : Packet)
  | stateLoad (p : Packet)
  | planSet (p : Packet)
  | routeSet (p : Packet)
  | collSet (p : Packet)
  | collFire (p : Packet)
  | barrier (p : Packet)
  | portCtrl (p : Packet)
  | xmapSet (p : Packet)
  | xchSet (p : Packet)
  | xchGet (p : Packet)
  | prefSet (p : Packet)
  | telemSnap (p : Packet)
  | watchSet (p : Packet)
  | watchGet (p : Packet)
  | vecEval (p : Packet)
  | faultGet (p : Packet)
  | keyRevoke (p : Packet)
  | rollbackSet (p : Packet)
  | debugLock (p : Packet)
  -- DOE and management messages
  | getCert (port : Nat)
  | attest (port : Nat) (nonce : List Byte)
  | debugChallenge (port : Nat)
  | debugUnlock (port : Nat) (token : List Byte)
  | grant (seq : Byte) (turn : W64) (watts : W32)
  | offset (seq : Byte) (off : BitVec 16)
  | report (seq : Byte)
  | getSensorReading (sensor : Nat)
  -- plays and moves
  | playStart (org shape : Nat)
  | playEnd (org shape : Nat)
  | moveCompletion (tile queue pos : Nat)
  | endMove (tile : Nat)
  | moveNop (tile : Nat)
  | fireat (tile : Nat)
  | fireatRelease (tile : Nat)
  | tie (tile : Nat)
  | remoteTieArrival (src : Source) (node : Nat) (t : Transit)
  | wait (tile : Nat)
  | waitSatisfied (tile queue : Nat)
  | waitTimeout (tile queue : Nat)
  | kset (tile : Nat)
  | partMove (tile : Nat)
  | iframe (tile : Nat)
  | loadw (tile : Nat)
  | swapw (tile : Nat)
  | stream (tile : Nat) (f : MoveFault)
  | sxt (tile : Nat)
  | rampStartGrant (now : Nat)
  | passBeat (field : Nat)
  | elem (tile : Nat) (l : LaneFault)
  | reduce (tile : Nat) (l : LaneFault)
  | smxb (tile : Nat) (l : LaneFault)
  | nrmb (tile : Nat) (l : LaneFault)
  | reductionResult (tile : Nat)
  | groupTimeout (tile : Nat)
  | topk (tile : Nat) (l : LaneFault)
  | gather (tile : Nat)
  | scatter (tile : Nat)
  | scatterAdd (tile : Nat) (l : LaneFault)
  | pack (tile : Nat) (l : LaneFault)
  | amaxt (tile : Nat) (l : LaneFault)
  | move (tile : Nat) (f : MoveFault)
  | moveReplay (tile queue : Nat) (f : MoveFault)
  | inval (tile : Nat)
  | dispatch (tile : Nat)
  | combine (tile : Nat)
  -- exchange and collectives
  | xchCount (c : XCount) (t : Transit)
  | xchGrant (g : XGrant) (t : Transit)
  | xchRow (r : XRow) (t : Transit)
  | fetch (f : XFetch) (t : Transit)
  | result (r : XResult) (t : Transit)
  | leaf (l : Leaf) (t : Transit)
  | roundSum (slot row seg : Nat)
  | collectiveStart (slot : Nat)
  | collectiveComplete (slot : Nat)
  | barrierArrive (ident : Nat)
  | barrierRelease (ident : Nat)
  | barrierTimeout (ident : Nat)
  -- capstans and commit
  | contribution (c : Contribution) (t : Transit)
  | normPass
  | normReduction
  | applyPass (cap : Nat) (l : LaneFault) (rim : Option RimUnit)
  | capstanConfirm (cap : Nat) (rim : Option RimUnit)
  | readySend
  | commitVote
  | commit
  | commitRetract (member : Nat)
  | commitSplit
  | outcomeWindowClose
  | capstanFail (cap : Nat)
  | rebuildComplete (cap : Nat)
  | tallyComparison (field : Nat) (fault : Option TallyFault)
  | auditSample (field : Nat)
  -- cadence, schedule, crossings
  | beatEdge (b : BeatSignal) (stuck : List Nat)
  | turnStamp (at38 at58 : Bool)
  | cadenceLoss (cause : LossCause)
  | cadHoldover
  | scheduledEvent
  | crossingTimeout (src dst : Nat)
  -- power
  | powerTurnBoundary (m : PowerSense)
  | opTransitionStep (field : Nat)
  | droopStretch (field : Nat) (belowMv : Nat)
  | stretchEnd (field cycles : Nat)
  | grantStale
  -- near stacks
  | turnBoundary (slot : CtWord)
  | calibrationSlot (stack chan : Nat) (timing1 timing2 : Nat) (vref : Nat) (trained : Bool)
  | refresh (stack chan : Nat) (busy : Bool)
  | scrub (stack chan : Nat) (r : ArrayRead)
  | scrubStarved
  | rowRepair (stack chan bank row : Nat) (readable copier : Bool)
  | nsThermal (stack : Nat) (rim : Bool) (a b : List Int)
  | chMigrate (stack chan : Nat) (row : Option Nat)
  | migrationSwitch (stack chan : Nat) (spareFailed : Bool)
  | stackSplice (stack : Nat)
  | rimScrub (cap : Nat) (r : Option (Nat × ArrayRead))
  -- Hawser ports
  | flitData (port lane : Nat) (w : Codeword)
  | nak (port : Nat) (d : FlitHead)
  | laneSwap (port lane ahead : Nat) (c : LaneCause)
  | hello (port : Nat) (d : FlitHead) (h : Hello)
  | helloSend (port : Nat)
  | packetForward (p : RoutedPacket)
  | hawPortDown (port : Nat) (c : DownCause)
  | hawStall (port vc : Nat)
  | portTraining (port : Nat) (ms : Nat)
  | qualificationEnd (port : Nat) (lanes : List LaneTest)
  | discoveryTimeout (port : Nat)
  -- reliability
  | playRerun (org shape : Nat)
  | seqHang (tile : Nat)
  | selfTest (field row : Nat) (bad : List Nat)
  | tileSplice (field row col : Nat) (readable : Bool)
  | tileWear (tile count : Nat)
  | phaseFault (field phase : Nat)
  | pllSwitch (domain : Nat)
  | ccTakeover
  | ccStandbyLost
  -- bring-up
  | stageCcFw
  | stageInventory (v : Inventory)
  | stageStacks (failed : List (Nat × Nat)) (badStacks : List Nat)
  | stageFill (rows : List (Nat × Nat × Nat × Nat)) (failed : List (Nat × Nat))
  | stageCapstans (failed : List Nat)
  | stageSeqFw
  | broadcastRound (lacking : List (Nat × List Nat)) (silent mismatch : List Nat)
  | stageCadence
  | cadenceStageTimeout
  | stageLinks
  | stageReady
  | stageComplete (ms : Nat) (north south : Bool)
  -- power input, resets, pins
  | precharge (mv : Int)
  | pwrOkRise
  | shutdown (c : InputFault)
  | leak
  | modRstAssert
  | modRstRelease
  | perstAssert (port : Nat) (pin : Bool)
  | perstRelease (port : Nat) (refclk : Bool)
  -- later rows of the table
  | controlPacket (c : Control) (t : Transit)
  | idleFlit (port : Nat) (d : FlitHead)
  | trainingEnd (port : Nat) (ok : Bool)
  | earlySignal (port : Nat)
  | fwStageWrite (port off : Nat) (data : List Byte)
  | readLatch (h : HostAccess) (off : Nat) (wide : Bool)
  | doeDiscovery (port : Nat)
  | mctpControl (cmd : Byte)
  | resetStageStart
  deriving DecidableEq, Repr

end Sys2Proof
end

