-- ==== Sys2Proof/Config.lean ====
section
/-! DEFINITION. What the spec leaves to the board, to manufacture or to a published table that is not in
it: constants with no body, so that no proof can see a value (the assumption log names each), and
the two plain constants of the model's size. -/

namespace Sys2Proof.Config

/-- The free value number n: a value the spec calls undefined or does not state. State.freeCtr
numbers the draws (assumption 1). -/
opaque freeValue : Nat → BitVec 64

/-- Result bits of the approximated ply function with FN code fn for an FP32 input (R155: a fixed
function of the input; the PLY_FN vector set is not in the spec; assumption 2). -/
opaque plyFn : Nat → BitVec 32 → BitVec 32

/-- SHAKE256 with a 64-byte output (FIPS 202, R532), by reference (assumption 3). -/
opaque shake256Word : List (BitVec 8) → BitVec 512

/-- Those 64 bytes, the first at the lowest address. -/
def shake256 (b : List (BitVec 8)) : List (BitVec 8) := (List.range 64).map fun i => (shake256Word b).extractLsb' (8 * i) 8

/-- ML-DSA-65 verification: key, message, signature (FIPS 204, R532; assumption 3). -/
opaque mlDsaVerify : List (BitVec 8) → List (BitVec 8) → List (BitVec 8) → Bool

/-- The identity key's ML-DSA-65 signature of a message, 3309 B (R537; assumption 3). -/
opaque mlDsaSign : List (BitVec 8) → List (BitVec 8)

/-- The identity's certificates of R536 (manufacture; assumption 4): the leaf, its issuer, the root. -/
opaque certificate : Nat → List (BitVec 8)

/-- The three of them, leaf first. -/
def certificates : List (List (BitVec 8)) := [certificate 0, certificate 1, certificate 2]

/-- A byte of host memory that the module has not written: port, host address (R242; assumption 5). -/
opaque hostByte : Nat → Nat → BitVec 8

/-- An 8 B word of a debugged core's own memory that no debug write has set: kind, unit, address
(R547; assumption 6). -/
opaque coreWord : Nat → Nat → Nat → BitVec 64

/-- A byte of the telemetry snapshot block that is a sensor's reading (a voltage, a current, a ring-oscillator
count, a coolant temperature): snapshot number, block offset (R549 to R551; assumption 9). -/
opaque sensorByte : Nat → Nat → BitVec 8

/-- A byte of the snapshot block that no block changes: a count of a tile not yet read, of an unused stack or of a die without an index; the phases installed (R549,
R551; assumption 9). -/
opaque heldByte : Nat → BitVec 8

/-- Halanor's PCI-SIG vendor ID (R506; assumption 4). -/
opaque vendorId : BitVec 16

/-- Payload bytes of a link packet whose layout the spec does not give: packet type, the items that it carries (R390, R404, R416, R426; assumption 92). -/
opaque wireBytes : Nat → List Nat → List (BitVec 8)

/-- Soft and hard post-package repairs that a rim stack has (R300; JEDEC HBM4 is by reference; assumption 101). -/
opaque rimSoft : Nat
opaque rimHard : Nat

/-- The nominal period of the 60 Hz internal cadence in whole picoseconds, as CAD_PERIOD reports it (R546; 1/61440 s is no whole number and the spec does not
say how it is rounded; assumption 10). -/
opaque nominal60 : Nat

/-- PWR_STATUS.FLOOR_W where FLOOR_W needs more than its 16 bits: the spec does not say what it holds (R444, R454; assumption 123). -/
opaque wideFloor : Nat → BitVec 16

/-- Where this module's restart threshold lies above 45.0 V, in millivolts modulo 1001 (R552 gives the range 45.0 V to 46.0 V; assumption 50). -/
opaque restartOffset : Nat

/-- Where this module's shutdown thresholds lie above 43.5 V, 57.5 V and 600 A, in millivolts modulo 1001, millivolts modulo 2001 and amperes modulo 41 (R552 gives the
ranges; assumption 50). -/
opaque underOffset : Nat
opaque overOffset : Nat
opaque tripOffset : Nat

end Sys2Proof.Config
end

