-- ==== Sys2Proof/Machine/State.lean ====
section
/-! DEFINITION. The state of the module as plain data: everything the spec gives it, the commands that wait, and State.reset.
Sparse tables are lists of (key, value) pairs with rising keys; memory is such a list in canonical form. -/

namespace Sys2Proof.Machine

/-- A sparse table: pairs with strictly rising keys. -/
abbrev Table (β : Type) := List (Nat × β)

/-! ### Numbers -/

/-- An exact value: NaN, a signed infinity, or (-1)^neg * m * 2^e, with a signed zero (R119, R123). -/
inductive FVal where
  | nan
  | inf (neg : Bool)
  | fin (neg : Bool) (m : Nat) (e : Int)
  deriving DecidableEq, Repr

/-- An exact accumulator (R298): the sum m * 2^e and what non-finite values it has received. -/
structure Exact where
  m : Int := 0
  e : Int := 0
  nan : Bool := false
  pinf : Bool := false
  ninf : Bool := false
  deriving DecidableEq, Repr

/-! ### Cadence (R21 to R43) -/

/-- The receiver's states with their codes (R27). -/
inductive CadState where
  | unlocked | acquiring | locked | holdover | slew | internal
  deriving DecidableEq, Repr

/-- A symbol of CAD± (R23): a stamp bit 1 or 0, or idle. -/
inductive Symbol where
  | one | zero | idle
  deriving DecidableEq, Repr

/-- The stamp receiver (R24): idle symbols since the last other one, or the bits of a stamp received so far and whether one of its beats carried no bit. -/
inductive StampRx where
  | idle (n : Nat)
  | bits (l : List Bool) (broken : Bool)
  deriving DecidableEq, Repr

/-- CAD_OUT± (R26): held low, or the symbol that it repeats in the present beat. -/
inductive CadOut where
  | low
  | symbol (y : Symbol)
  deriving DecidableEq, Repr

structure Cad where
  state : CadState := .unlocked
  /-- the control complex's CT word (R34, R36), and what it was at the last beat edge that it is timed from -/
  ct : CtWord := 0
  edge : CtWord := 0
  /-- the stamp receiver; the present beat's symbol has been taken; a stamp has been judged in the present turn (R24, R28) -/
  rx : StampRx := .idle 0
  taken : Bool := false
  judged : Bool := false
  /-- CAD_OUT±, the symbols that it began at the last beat signal, the stamp that it repeats and that stamp's turn (R26) -/
  out : CadOut := .low
  outBeats : List Symbol := []
  outStamp : W64 := 0
  outTurn : Option Nat := none
  src : BitVec 2 := 0
  outEn : Bool := true
  edgeErr : Nat := 0
  stampErr : Nat := 0
  nom60 : Bool := false
  reject : Bool := false
  offset : Nat := 0
  /-- an accepted OFFSET waits for the next power-turn boundary (R37) -/
  nextOffset : Option Nat := none
  /-- measured beat period in picoseconds (CAD_PERIOD) -/
  periodPs : Nat := 0
  /-- whether a CT has been established since reset (R27, R32) -/
  established : Bool := false
  /-- acquisition: TURN of the last valid stamp and accepted edges since its beat 0 (R27) -/
  acqTurn : Option Nat := none
  acqEdges : Nat := 0
  /-- the second consecutive stamp has been decided: lock at the next received edge (R27) -/
  lockNext : Bool := false
  /-- the received CT once acquisition has ended (R30) -/
  rct : Option CtWord := none
  slewUp : Bool := false
  slewLeft : Nat := 0
  missing : Nat := 0
  badStamps : Nat := 0
  /-- own beats since CAD_HOLDOVER was last raised (R29) -/
  holdBeats : Nat := 0
  /-- HOLDOVER was entered from INTERNAL (R29, R32) -/
  fromInternal : Bool := false
  /-- CAD_REJECT stands: RESYNC can step (R30, R42) -/
  rejected : Bool := false
  deriving DecidableEq, Repr

/-- XING_STATUS (R47) and the crossings that refuse transfers after a timeout (R46). -/
structure Xing where
  count : Nat := 0
  dst : Nat := 15
  src : Nat := 15
  timeout : Bool := false
  overrun : Bool := false
  closed : List (Nat × Nat) := []
  /-- toggle crossings, the beat-edge toggle of a router by its logical tile and others as `toggleOf` numbers them: events that wait in the pending counter (R44),
  and the crossings that take no event in the present beat, so that a router there has not seen its beat edge (R36, R45) -/
  toggles : Table Nat := []
  lag : List Nat := []
  /-- interrupt pulses that wait for the crossing to PCIe (R44): port, vector, the oldest first -/
  irqs : List (Nat × Nat) := []
  deriving DecidableEq, Repr

/-! ### Fields and plays -/

/-- A bank of weight registers (R51, R53): the decoded K × N matrix, its format, KLEN and TALLY, and the tally column's
checksum squares (R80). -/
structure WBank where
  wfmt : Nat
  klen : Nat
  tally : Nat
  inPart : Bool
  trans : Bool
  rows : List (List FVal)
  tallyRows : List (List FVal)
  deriving DecidableEq, Repr

/-- A partition (R74 to R77). -/
structure Partition where
  org : Nat
  shape : Nat
  /-- the PART that made it has not completed (R77) -/
  busy : Bool := false
  /-- the number of that PART -/
  maker : Nat := 0
  active : Option WBank := none
  shadow : Option WBank := none
  /-- whether a run is open, the rows that it has admitted, and the CT from which its admission pattern runs, moved on by the cycles it has been held (R57, R58) -/
  runOpen : Bool := false
  runRows : Nat := 0
  runFrom : Nat := 0
  /-- the run holds for its ramp-start grant (R64) -/
  rampWait : Bool := false
  /-- the tally column's own accumulators: key ACC * 2^25 + row (R84) -/
  tallyAcc : Table (List W32) := []
  /-- the row mask of the first pass of an accumulator, by ACC (R69) -/
  accMask : Table (List Bool) := []
  deriving DecidableEq, Repr

/-- The index frame of a queue (R565). dn = 0 stands for the default of R566. -/
structure Frame where
  dtr : Bool := false
  row0 : Nat := 0
  col0 : Nat := 0
  dn : Nat := 0
  g : Nat := 1
  deriving DecidableEq, Repr

/-- The placement of a hint buffer (R235). -/
structure HintBuf where
  nlen : Nat := 0
  nreg : Nat := 0
  noff : Nat := 0
  hlen : Nat := 0
  hport : Nat := 0
  haddr : Nat := 0
  deriving DecidableEq, Repr

/-- A move in an engine queue (R177). `issued`: the ARR queue has issued it (R180); `started`: it runs; `left`: tiles a KIND 2 tie has still to reach. -/
structure QMove where
  word : MoveWord
  idx : Nat
  frame : Frame
  sxt : Option MoveWord := none
  fault : MoveFault := .none
  issued : Bool := false
  started : Bool := false
  left : Nat := 0
  /-- a WAIT: the beat number (turn * 1024 + beat) of its tile's copy of CT when it reached the head (R191) -/
  since : Nat := 0
  /-- a grouped ply move whose result has arrived (R157) -/
  ready : Bool := false
  /-- a MOVE that has been replayed once (R463) -/
  replayed : Bool := false
  /-- a STREAM: the next logical row, and the results of the present square's rows that an audit can take (R110, R210, R351) -/
  next : Nat := 0
  blk : List (Nat × List W32) := []
  /-- a STREAM: it is cut short by its play's failure (R210), and the rows of its packets that were lost on their way, which are never accepted (R45, R249) -/
  cut : Bool := false
  lost : List Nat := []
  /-- a grouped ply move that started while an earlier one with its GROUP was outstanding (R202) -/
  reused : Bool := false
  /-- a MOVE: units of its source that have been overwritten while it runs, by destination (R245); a port that it has written to has been reset since (R247) -/
  hit : List Nat := []
  unflushed : Option Nat := none
  /-- a MOVE: the hint placements that it latched (R238), and each unit that it read from its tier: source, destination, bytes (R228, R245, R256) -/
  place : Table HintBuf := []
  took : List (Nat × Nat × List Byte) := []
  deriving DecidableEq, Repr

structure TileQueue where
  tile : Nat
  code : Nat
  moves : List QMove := []
  frame : Frame := {}
  deriving DecidableEq, Repr

/-- A tile's sequencer in a play (R171, R178): the next move of its list, stopped by a failure, END retired. -/
structure Sequencer where
  tile : Nat
  list : Nat
  count : Nat
  next : Nat := 0
  stopped : Bool := false
  ended : Bool := false
  /-- an SXT issued directly before the next ARR move (R197) -/
  sxt : Option MoveWord := none
  deriving DecidableEq, Repr

inductive PlayState where
  | pending   -- scheduled for its FIRE time
  | due       -- FIRE reached; waits for its partition or the step gate
  | running
  deriving DecidableEq, Repr

/-- The first failure of a play (R211): status, MTAG, move index, tile. -/
structure Failure where
  status : BitVec 16
  mtag : Nat
  idx : Nat
  tile : Nat
  deriving DecidableEq, Repr

structure Play where
  image : Nat
  org : Nat
  shape : Nat
  id : W32
  step : W32
  fire : CtWord
  deadline : CtWord
  queue : Nat
  seq : W32
  origin : Nat
  notify : Bool
  rerun : Bool
  phase : Nat
  /-- dispatcher arrival order (R38) -/
  order : Nat
  late : Bool := false
  state : PlayState := .pending
  seed : W64 := 0
  /-- the latched working-copy bank: false A, true B (R16) -/
  bank : Bool := false
  /-- knots of the partition's tiles at the start of a RERUN play (R464) -/
  knots : Table W32 := []
  seqs : List Sequencer := []
  queues : List TileQueue := []
  reruns : Nat := 0
  fail : Option Failure := none
  /-- fault class of a faulted play (R464), and where it met the fault: MTAG, move index, tile (R211) -/
  faulted : Option Nat := none
  faultAt : Nat × Nat × Nat := (0, 0, 0)
  /-- it holds a move that R465 bars from a play with RERUN -/
  barred : Bool := false
  /-- tile rows of its partition that became degraded while it ran (R85) -/
  spared : List Nat := []
  /-- the reply is withheld: stopped by an abort or a retraction (R336) -/
  withheld : Bool := false
  /-- a PART move's region origin, region shape, new shape (R193) -/
  cut : Option (Nat × Nat × Nat) := none
  /-- destinations written so far, with the moves' extents: space (0 module, 1 and 2 the hosts), address, bytes, the tile whose mover wrote it (R210, R259) -/
  dests : List (Nat × Nat × Nat × Option Nat) := []
  /-- what R465 asks of a rerun: extents read so far, as space, address and bytes; knots waited on; knots of its tiles that engines outside the play have tied -/
  reads : List (Nat × Nat × Nat) := []
  waits : List Nat := []
  outer : List Nat := []
  deriving DecidableEq, Repr

/-- The comparisons of one drained row that wait for TALLY_COMPARISON (R84, R346): per checksum column ĉ, s and a. -/
structure TallyItem where
  order : Nat
  play : W32
  org : Nat
  shape : Nat
  idx : Nat
  row : Nat
  c : List W32
  s : List W32
  a : List W32
  step : W32
  /-- the outputs that each checksum column covers; the run of its play, counted from reruns, and the play's origin port -/
  outs : List (List W32) := []
  run : Nat := 0
  origin : Nat := 3
  deriving DecidableEq, Repr

/-- The square an audit tile recomputes (R351 to R353): the drain's FP32 results n and its own results w. -/
structure AuditItem where
  order : Nat
  play : W32
  idx : Nat
  block : Nat
  tile : Nat
  sid : W32
  step : W32
  n : List W32
  w : List W32
  origin : Nat := 3
  deriving DecidableEq, Repr

/-- A field: FLD_STATUS, FLD_TALLY, FLD_AUDIT, FLD_PWR, its audit tile, its clock. -/
structure Field where
  tallyRow : BitVec 16 := 0xFFFF
  degradedRow : BitVec 16 := 0
  mismatch : Nat := 0
  nonfin : Nat := 0
  fallback : Nat := 0
  sampled : Nat := 0
  skipped : Nat := 0
  overs : Nat := 0
  /-- comparisons not yet known -/
  tallies : List TallyItem := []
  /-- passes whose TALLY_MISMATCH has been raised (R348): play's arrival number, its run, move index -/
  mismatched : List (Nat × Nat × Nat) := []
  eligible : Nat := 0
  audit : Option AuditItem := none
  /-- both PLLs lost: the field is unavailable (R475) -/
  unavailable : Bool := false
  pllSpare : Bool := true
  stretch : Nat := 0
  stretchNow : Nat := 0
  stretching : Bool := false
  /-- cycles of the running stretch that an earlier power turn has counted (R449) -/
  stretchSeen : Nat := 0
  temp : Nat := 0
  pass : Nat := 0
  pref : Nat := 0
  op : Nat := 0
  /-- the operating point a change moves to (R434), present clock in MHz, rail in mV: it is off until bring-up starts it (R553) -/
  target : Nat := 0
  clockMHz : Nat := 500
  railMv : Nat := 0
  phasesShed : List Nat := []
  /-- a pass beat is in force (R63) -/
  passNow : Bool := false
  deriving DecidableEq, Repr

/-! ### Memory tiers -/

/-- A region-table entry (R272) and its staged upper half. -/
structure Region where
  chbase : BitVec 19 := 0
  len : BitVec 20 := 0
  valid : Bool := false
  spread : Bool := false
  field : BitVec 3 := 0
  typ : Bool := false
  base : BitVec 19 := 0
  staged : Option W64 := none
  deriving DecidableEq, Repr

/-- An active loan (R229 to R232). -/
structure LoanRec where
  id : Nat
  lendOrg : Nat
  lendShape : Nat
  borOrg : Nat
  borShape : Nat
  off : Nat
  len : Nat
  revoking : Bool := false
  /-- revokes that reply when the loan ends -/
  revokers : List Packet := []
  deriving DecidableEq, Repr

/-- A line-cache copy of a near-tier unit; the list of a tile runs from most to least recently used (R258). -/
structure CacheLine where
  unit : Nat
  data : List Byte
  deriving DecidableEq, Repr

inductive Thermal where
  | full | t75 | t50 | t25 | quiesced
  deriving DecidableEq, Repr

/-- A near stack (R278 to R296), by logical stack ID. -/
structure Stack where
  /-- the sensors' readings as the interface block holds them (R44), and the highest (R278) -/
  sensors : List Int := []
  temp : Int := 0
  thermal : Thermal := .full
  hot : Nat := 0
  cool : Nat := 0
  /-- refresh (R278, R281): time since reset in picoseconds, counted twice above 85 °C, up to a CT (none before CT runs); refreshes made, by channel -/
  refreshPs : Nat := 0
  refreshAt : Option CtWord := none
  refreshed : Table Nat := []
  /-- rows repaired since bring-up, as chan * 2^19 + channel row (R292) -/
  repaired : List Nat := []
  /-- the channel under migration and one that waits (R292) -/
  migrating : Option Nat := none
  waiting : List Nat := []
  /-- channel map: logical channel to physical (32, 33 are the spares) -/
  chanMap : Table Nat := []
  /-- the stack is served by its pair row's spare (R295) -/
  spliced : Bool := false
  splicing : Bool := false
  degraded : Bool := false
  corrected : Nat := 0
  /-- corrected reads of a row in the running scrub lap, by chan * 2^19 + channel row (R286) -/
  rowHits : Table Nat := []
  /-- the next row that scrub reads, by channel (R284) -/
  scrubAt : Table Nat := []
  /-- the last calibration slot's turn and channel, the next channel in turn, the margins by channel: two timing eyes in ps, the voltage eye in mV (R283) -/
  calLast : Option (Nat × Nat) := none
  calChan : Nat := 0
  margins : Table (Nat × Nat × Nat) := []
  deriving DecidableEq, Repr

/-- A retired row (R290). -/
structure Retired where
  stack : Nat
  chan : Nat
  bank : Nat
  row : Nat
  deriving DecidableEq, Repr

structure Near where
  units : Table Stack := []
  calNext : CtWord := 0
  /-- the slot announced for the present turn (R282) -/
  calSlot : CtWord := 0
  lap : W32 := 0
  /-- when the running scrub lap began, and whether it has raised SCRUB_STARVED (R284, R285) -/
  lapStart : Option CtWord := none
  lapStarved : Bool := false
  starved : Bool := false
  starvedForce : Bool := false
  bound : BitVec 16 := 360
  rplIndex : BitVec 14 := 0
  retired : List Retired := []
  /-- 128 B units (0 to 3 of a channel row) that carry inverted parity (R289) -/
  poisoned : List (Retired × Nat) := []
  deriving DecidableEq, Repr

/-! ### Capstans, commit, watch -/

/-- The dynamic part of a ledger entry (R311). -/
structure Dyn where
  gsq : Exact := {}
  wsq : Exact := {}
  usq : Exact := {}
  zero : Nat := 0
  zrows : Nat := 0
  nonfin : Nat := 0
  step : W32 := 0
  order : Bool := false
  overs : Bool := false
  range : Bool := false
  stale : Bool := false
  settled : Bool := false
  vetoed : Bool := false
  deriving DecidableEq, Repr

/-- A ledger entry (R306): static part, open dynamic part, snapshot, the snapshot before it (R331), contribution counts and the source per
segment (key row * 512 + segment), non-zero rows, stall run (R361). -/
structure Ledger where
  cap : Nat
  group : Nat
  flags : Byte
  wfmt : Nat
  expect : Nat
  sid : W32
  sbase : Nat
  rows : Nat
  cols : Nat
  row0 : Nat
  col0 : Nat
  dout : Nat
  din : Nat
  wbase : Nat
  wgrid : Nat
  tensor : W32
  dyn : Dyn := {}
  snap : Dyn := {}
  prev : Dyn := {}
  counts : Table Nat := []
  sources : Table Nat := []
  /-- segments final with all elements zero, by row (R313) -/
  zeroSegs : Table Nat := []
  applied : Bool := false
  /-- squares that the apply of the armed step has written, by their place in row-major order; it copied a frozen entry (R322 to R325) -/
  squares : List Nat := []
  copied : Bool := false
  stall : Nat := 0
  deriving DecidableEq, Repr

/-- A parameter group (R308). -/
structure Group where
  eta : W32 := 0
  lambda : W32 := 0
  beta : W32 := 0
  freeze : Bool := false
  nesterov : Bool := false
  m1 : Bool := false
  deriving DecidableEq, Repr

/-- The armed COMMIT_ARM (R326) with what the commit has gathered. -/
structure Armed where
  step : W32
  u : W32
  stepStart : CtWord
  tau : W32
  eps : W32
  gap : Nat
  members : Nat
  w : Nat
  rts : Nat
  clip : Bool
  veto : Bool
  cp : CtWord
  queue : Nat
  seq : W32
  origin : Nat
  notify : Bool
  tag : Nat := 0
  groups : Table Group := []
  /-- P of each member, T, c32 (R317, R318) -/
  p : Table W64 := []
  t : Option W64 := none
  g : W64 := 0
  c32 : W32 := 0x3F800000
  normDone : Bool := false
  vetoed : Bool := false
  confirmed : List Nat := []
  readySent : Bool := false
  ready : List Nat := []
  voted : Option Bool := none
  votes : List Nat := []
  abortVotes : List Nat := []
  deriving DecidableEq, Repr

/-- The outcome window of the last commit (R331 to R333). -/
structure Window where
  armed : Armed
  /-- this module committed or vetoed, and has not retracted -/
  committed : Bool
  /-- members whose outcome is known -/
  outcomes : List Nat := []
  prevNorm : W64 := 0
  prevClip : W64 := 0
  /-- members whose outcome is ABORT; COMMIT_SPLIT raised; aborts of the step so far -/
  aborts : List Nat := []
  split : Bool := false
  /-- the outcome could not be delivered to every other member (R332) -/
  undelivered : Bool := false
  replays : Nat := 0
  deriving DecidableEq, Repr

/-- A command logged for replay (R334). -/
structure Logged where
  step : W32
  packet : Packet
  order : Nat
  replied : Bool := false
  deriving DecidableEq, Repr

/-- A capstan die's role and health (R339, R341). -/
structure Capstan where
  die : Nat
  failed : Bool := false
  rebuilding : Bool := false
  /-- it lost the open step's sums with its die: no confirmation in this step (R339) -/
  lost : Bool := false
  /-- the rim stack's temperature readout and thermal state (R300, R301) -/
  rimSensors : List Int := []
  rimTemp : Int := 0
  rimThermal : Thermal := .full
  hot : Nat := 0
  cool : Nat := 0
  corrected : Nat := 0
  /-- corrected reads of a rim row in the running lap, and the next unit that scrub reads (R300, R476) -/
  rimHits : Table Nat := []
  scrubAt : Nat := 0
  deriving DecidableEq, Repr

/-- The update unit: CAP_COMMIT, CAP_SHIFT, ledger, groups, the commit. -/
structure Cap where
  committed : W32 := 0
  outcome : Nat := 3
  replays : Nat := 0
  /-- steps whose log overflowed (R334) -/
  unreplayable : List W32 := []
  cur : Bool := false
  shift : CtWord := 0
  ledger : Table Ledger := []
  groups : Table Group := []
  armed : Option Armed := none
  window : Option Window := none
  /-- a FAULTED open step (R466) -/
  stepFaulted : Bool := false
  /-- every abort's step and Δ: later-arriving commands of higher steps move by it (R335) -/
  shifts : List (W32 × CtWord) := []
  /-- the group tables latched for the open steps, for their replays (R309) -/
  latched : Table (Table Group) := []
  /-- control packets of steps and barriers not yet declared here -/
  early : List Control := []
  /-- STATE_LOADs that wait for running plays (R324), with COMMITTED at their dispatch (R311) -/
  loads : List (Packet × W32) := []
  /-- the last commit whose T is not yet known (R359) -/
  norm : Option Armed := none
  /-- contributions held at their capstan, with the STREAM that sent each (R315) -/
  held : List ((Nat × Nat) × Contribution) := []
  log : List Logged := []
  capstans : Table Capstan := []
  rimLap : W32 := 0
  rimLapStart : Option CtWord := none
  rimLapStarved : Bool := false
  rimStarved : Bool := false
  rimStarvedForce : Bool := false
  rimBound : BitVec 16 := 120
  deriving DecidableEq, Repr

/-- The five counts of a step (R145, R354). -/
structure Counts where
  conv : Nat := 0
  nonfinite : Nat := 0
  overflow : Nat := 0
  saturate : Nat := 0
  zeroFlush : Nat := 0
  deriving DecidableEq, Repr

/-- A watch slot (R354, R365): counts of the open step, of the step that awaits evaluation, totals; the values as they stood at the last
evaluation. -/
structure Slot where
  sid : W32 := 0
  sflags : Byte := 0
  satx : Byte := 0
  open_ : Counts := {}
  wait : Counts := {}
  totals : Counts := {}
  run : Nat := 0
  audN : Nat := 0
  audOver : Nat := 0
  audWorst : W32 := 0
  evalStep : W32 := 0
  evalCounts : Counts := {}
  evalTotals : Counts := {}
  evalRun : Nat := 0
  evalAudN : Nat := 0
  evalAudOver : Nat := 0
  evalAudWorst : W32 := 0
  deriving DecidableEq, Repr

structure Watch where
  uflow : Byte := 128
  stallN : BitVec 16 := 64
  everOff : Bool := false
  stallEn : Bool := true
  audAt : Byte := 4
  audPeriod : Byte := 6
  tolx : BitVec 4 := 7
  norm : W64 := 0
  clip : W64 := 0
  slots : Table Slot := []
  /-- VEC_EVALs that wait for a channel of their file (R279, R281) -/
  evals : List Packet := []
  deriving DecidableEq, Repr

/-! ### Links, collectives, exchange -/

inductive PortState where
  | off | training | qualifying | discovery | active | miscabled | planMismatch | failed | disabled
  deriving DecidableEq, Repr

structure HPort where
  state : PortState := .off
  peerCoord : W32 := 0
  earlySignal : Nat := 0
  laneFail : BitVec 9 := 0
  spareInUse : Bool := false
  width4 : Bool := false
  peerPort : Nat := 0
  disable : Bool := false
  /-- the physical lane of each logical lane (R376, R383); a swap to come: logical lane, its new physical lane, the DATA sequence from which it holds, and whether
  that is a received sequence (R382) -/
  lanes : List Nat := [0, 1, 2, 3, 4, 5, 6, 7]
  swap : Option (Nat × Nat × Nat × Bool) := none
  /-- uncorrectable codewords of the last second: CT and physical lane (R379, R382); bit errors corrected, uncorrectable and corrected codewords of each physical
  lane (R551) -/
  lost : List (CtWord × Nat) := []
  bitErrs : Table Nat := []
  badWords : Table Nat := []
  fixedWords : Table Nat := []
  /-- the next DATA sequence expected, a NAK outstanding, rejections in a row, the NAK's ACK (R378, R379) -/
  rxNext : Nat := 0
  nakSent : Bool := false
  rejects : Nat := 0
  nakAck : Nat := 0
  /-- the received part of a packet that goes on in the next body, and whole packets in the receive buffers (R377, R380) -/
  rxPart : List Byte := []
  rxBuf : List RoutedPacket := []
  /-- flits and packets discarded and counted (R375, R390, R426) -/
  formatErr : Nat := 0
  discarded : Nat := 0
  /-- DATA flits kept for resending: sequence, logical lane, body; the next to send (R376, R378) -/
  replay : List (Nat × Nat × List Byte) := []
  txNext : Nat := 0
  /-- packets that wait for credits, by channel; the channel of VC 0 and VC 1 whose turn it is, and the bytes left of that turn (R380) -/
  sendQ : Table (List RoutedPacket) := []
  turn : Nat × Nat := (0, 512)
  /-- the DATA flits of the slot sent last: logical lane, sequence, body; every other lane sent an IDLE flit in it (R376, R382) -/
  slot : List (Nat × Nat × List Byte) := []
  /-- outcomes of this module in flits that the peer has not acknowledged (R332): set, sender, step, sequence of the last flit -/
  outs : List (Nat × Nat × W32 × Nat) := []
  /-- lanes that had an uncorrectable codeword or a CRC failure while the port is QUALIFYING (R384) -/
  qualBad : List Nat := []
  /-- the header of the last IDLE flit sent that returned credits (R376, R380), and the last HELLO sent (R388) -/
  idle : Option FlitHead := none
  hello : Option Hello := none
  /-- NAKs sent, DATA flits resent (R551) -/
  naks : Nat := 0
  resent : Nat := 0
  /-- credits held for sending, per VC, in 16 B units (R380) -/
  credits : Table Nat := []
  /-- per VC, the CT of the last credit received, or at which its first packet began to wait (R381) -/
  creditAt : Table CtWord := []
  /-- beats since the last HELLO sent; a HELLO has been received in the present state; its SERIAL; beats in the present state (R386, R388) -/
  sinceHello : Nat := 0
  heardHello : Bool := false
  echo : W64 := 0
  beats : Nat := 0
  deriving DecidableEq, Repr

/-- A cabling-plan entry (R387). -/
structure PlanEntry where
  peerCoord : W32 := 0
  peerPort : Nat := 0
  expected : Bool := false
  serialCheck : Bool := false
  peerSerial : W64 := 0
  deriving DecidableEq, Repr

structure Plan where
  id : W32 := 0
  coord : W32 := 0
  entries : Table PlanEntry := []
  deriving DecidableEq, Repr

/-- A routing table set (R391) with its expert map (R409); entries as words. -/
structure RtSet where
  self : Nat := 0
  members : Nat := 1
  entries : Table W32 := []
  xmap : Table W64 := []
  deriving DecidableEq, Repr

/-- A collective slot (R396). -/
structure CollSlot where
  op : Nat
  engine : Nat
  rts : Nat
  members : Nat
  sid : W32
  ent : Nat := 0
  rpm : Nat := 0
  src : Nat := 0
  dst : Nat := 0
  nel : Nat := 0
  fmt : Nat := 0
  dfmt : Nat := 0
  cls : Nat := 0
  knot : Nat := 0
  ktile : Nat := 0
  spen : Bool := false
  spreg : Nat := 0
  spoff : Nat := 0
  stale : Bool := false
  /-- leaves held: the round, its place in the spill region where the SRAM had no room (R399), the leaf -/
  leaves : List (Nat × Option Nat × Leaf) := []
  /-- leaves received, key (step * 2^29 + row * 512 + seg) * 4096 + member; rounds delivered, key step * 2^29 + row * 512 + seg -/
  numbered : Table Nat := []
  delivered : Table Nat := []
  /-- COLL_FIREs that are due, and the one that runs -/
  due : List Packet := []
  running : Option Packet := none
  /-- this member's source, as the running collective read it -/
  own : List Byte := []
  /-- data packets of TYPE 0x02 that the engine holds: member, step, number (R392, R402); of an all-reduce: this member's converted chunk, once it has been sent -/
  got : List (Nat × W32 × Nat × List Byte) := []
  shared : Option (List Byte) := none
  /-- a leaf waits for SRAM and COLL_SPACE has been raised for it (R399) -/
  spaceWait : Bool := false
  deriving DecidableEq, Repr

/-- A barrier (R405). -/
structure BarrierRec where
  ident : Nat
  rts : Nat
  members : Nat
  tile : Nat
  knot : Nat
  target : W32
  relTile : Nat
  relKnot : Nat
  amount : W32
  timeout : Nat
  step : W32
  fire : CtWord
  queue : Nat
  seq : W32
  origin : Nat
  notify : Bool
  tag : Nat := 0
  sent : Bool := false
  arrived : List Nat := []
  /-- CT at which the release tie is due once every ARRIVE is held; the last came after the release point (R405) -/
  release : CtWord := 0
  late : Bool := false
  /-- the command's FIRE had passed at its dispatch (R41) -/
  fireLate : Bool := false
  deriving DecidableEq, Repr

/-- What a member's expert exchange unit knows of one expert it holds (R416 to R421). -/
structure XExpert where
  n : Nat := 0
  n1 : Nat := 0
  n2 : Nat := 0
  received : Table XRow := []
  done : Bool := false
  deriving DecidableEq, Repr

/-- A DISPATCH at an exchange unit: its word, its copies, the grants it has. -/
structure XMove where
  tile : Nat
  word : MoveWord
  copies : List (Nat × Nat × Nat)   -- expert, token row, rank, in the source's order
  grants : Table XGrant := []
  /-- one of its rows was lost on its way, so that it is never accepted (R45, R249) -/
  lost : Bool := false
  deriving DecidableEq, Repr

structure Exchange where
  xid : Nat
  step : W32
  rts : Nat
  srcn : Nat
  rmax : Nat
  ooff : Nat
  rfmt : Nat
  desc : Nat
  rknot : Nat
  xknot : Nat
  sid : W32
  cls : Nat
  rot : Bool
  reuse : Bool
  prior : Nat
  issued : Nat := 0
  counts : List XCount := []
  /-- the COUNTs in the order of placement, fixed by the grant phase or by PRIOR's (R417, R422) -/
  placed : List XCount := []
  granted : Bool := false
  clamp : Bool := false
  mismatch : Bool := false
  overflowRaised : Bool := false
  t : Nat := 0
  c : Nat := 0
  copies : Nat := 0
  spilled : Nat := 0
  dropped : Nat := 0
  maxn : Nat := 0
  experts : Table XExpert := []
  moves : List XMove := []
  /-- XKNOT values latched at XCH_SET, by field (R423) -/
  knots : Table W32 := []
  /-- FETCHes that wait for returns, and RESULT lines held for COMBINE (key (tile * 4096 + expert) * 2^20 + row) -/
  fetches : List XFetch := []
  results : Table (List Nat) := []
  /-- tiles whose COMBINE of this exchange runs -/
  combining : List Nat := []
  deriving DecidableEq, Repr

/-- A packet on the wafer mesh (R252); tag: the play's arrival number and the index of the STREAM that sent it. -/
inductive MeshItem where
  | tie (kind target knot : Nat) (amount : W32) (queueTile queueCode : Nat)
  | contrib (tag : Nat × Nat) (c : Contribution)
  | leaf (tag : Nat × Nat) (l : Leaf)
  | xcount (c : XCount)
  | xgrant (g : XGrant)
  | xrow (r : XRow)
  | xfetch (f : XFetch)
  | xresult (r : XResult)
  deriving DecidableEq, Repr

/-! ### Power, reliability, bring-up, host -/

structure GrantRec where
  turn : Nat
  watts : Nat
  deriving DecidableEq, Repr

/-- A plan (R443). -/
structure PowerPlan where
  op : List Nat
  pref : List Nat
  pass : List Nat
  floor : Bool
  limited : Bool
  deriving DecidableEq, Repr

structure Power where
  idle : BitVec 3 := 0
  exchange : BitVec 3 := 5
  apply : BitVec 3 := 5
  backward : BitVec 3 := 5
  forward : BitVec 3 := 5
  defaultGrant : BitVec 16 := 8000
  headroom : BitVec 16 := 500
  opMax : BitVec 3 := 7
  grantW : BitVec 16 := 0
  floorW : Nat := 0
  inputW : BitVec 16 := 0
  stale : Bool := false
  default : Bool := true
  floor : Bool := false
  limited : Bool := false
  /-- grants in order of receipt, latest first (R439) -/
  grants : List GrantRec := []
  sinceGrant : Nat := 0
  /-- the present power turn, the CT of its boundary (R37) -/
  turn : Nat := 0
  boundary : CtWord := 0
  /-- the CT of the next boundary, once there has been one (R37) -/
  next : Option CtWord := none
  /-- the carry of the last completed turn (R447) -/
  carry : Nat := 0
  lastTurn : Nat := 0
  demandW : Nat := 0
  plan : Option PowerPlan := none
  near : Nat := 0
  cap : Nat := 0
  hottest : Nat := 0
  deriving DecidableEq, Repr

/-- A record of the fault ledger (R481). -/
structure FaultRec where
  ct : CtWord
  seq : Nat
  cls : Nat
  action : Nat
  result : Nat
  unit : W32
  logical : W32
  step : W32
  play : W32
  detail : List Byte
  deriving DecidableEq, Repr

/-- A row repair of a near stack (R286 to R288): physical channel (physical stack * 64 + channel), bank, row; a hard element or a soft spare; the spare row has
failed itself. -/
structure RowRepair where
  chan : Nat
  bank : Nat
  row : Nat
  hard : Bool := false
  dead : Bool := false
  deriving DecidableEq, Repr

/-- A post-package repair of a rim row (R300). -/
structure RimRepair where
  die : Nat
  row : Nat
  hard : Bool := false
  deriving DecidableEq, Repr

/-- The defect store (R481, R491) and what else survives a reset: fuses (R534, R535) and identity (R546). -/
structure Store where
  ledger : List FaultRec := []
  seq : Nat := 0
  badTiles : List Nat := []
  badPlls : List Nat := []
  badDice : List Nat := []
  badStacks : List Nat := []
  badChannels : List (Nat × Nat) := []
  /-- faulty regulator phases, field * 32 + phase (R474, R491) -/
  badPhases : List Nat := []
  /-- failed lanes of Hawser ports (R382): port, physical lane -/
  badLanes : List (Nat × Nat) := []
  plan : Plan := {}
  /-- row repairs of the near stacks (R286, R287) and of the rim stacks (R300) -/
  repairs : List RowRepair := []
  rimRepairs : List RimRepair := []
  baseline : Table Nat := []
  serial : W64 := 0
  stepping : Byte := 0
  build : Byte := 0
  /-- key slots: digest of the programmed key, none unprogrammed; revoked slots -/
  slots : Table (List Byte) := []
  revoked : List Nat := []
  arb : Table Nat := []
  deriving DecidableEq, Repr

/-- A suspect unit (R469): a physical tile ID, or the UNIT of a capstan. -/
structure Suspect where
  unit : Nat
  turn : Nat
  /-- the fault class that made it suspect -/
  cls : Nat
  deriving DecidableEq, Repr

structure Rel where
  /-- consumed spare column per tile row: key field * 16 + row, value physical column (R79) -/
  splices : Table Nat := []
  suspects : List Suspect := []
  /-- retried parity faults of the turn that `retryTurn` names, by unit (R462) -/
  retries : Table Nat := []
  retryTurn : Nat := 0
  /-- tile rows that wait for self-test, key field * 16 + row; tiles -/
  selfTest : List Nat := []
  spliceReq : List Nat := []
  /-- those of the requests that wear alone makes (R473) -/
  wearReq : List Nat := []
  hangs : Table Nat := []
  /-- tiles that have raised TILE_WEAR (R473) -/
  worn : List Nat := []
  meshPllSpare : Bool := true
  meshStopped : Bool := false
  standby : Bool := false
  southActive : Bool := false
  /-- the active control complex has failed and the standby has not taken over (R478) -/
  ccFailed : Bool := false
  secondFault : Bool := false
  /-- heartbeats in a row that the standby has missed of the active, and the active of the standby (R477, R478, R480) -/
  missed : Nat := 0
  missedBack : Nat := 0
  /-- journal records that the active has written to the standby, and acknowledgements received (R477) -/
  journal : Nat := 0
  acked : Nat := 0
  /-- the standby's own cadence receiver (R477, R478) -/
  receiver : Cad := {}
  /-- packets of an undefined TYPE that came for another member (R390) -/
  discards : Nat := 0
  ringCounts : Table Nat := []
  deriving DecidableEq, Repr

inductive StageState where
  | wait | running | done | failed | fatal
  deriving DecidableEq, Repr

/-- How the work of a running stage will end. -/
structure StageEnd where
  state : StageState
  code : BitVec 16
  cause : Nat
  deriving DecidableEq, Repr

/-- A running image (R490). -/
structure Image where
  kind : Nat
  arb : Nat
  meas : List Byte
  deriving DecidableEq, Repr

structure BringUp where
  stage : Nat := 0
  state : StageState := .wait
  code : BitVec 16 := 0
  elapsed : Nat := 0
  cause : Nat := 0
  row : Bool := false
  tally : Bool := false
  field : Bool := false
  cap : Bool := false
  near : Bool := false
  port : Bool := false
  standby : Bool := false
  lane : Bool := false
  result : Option StageEnd := none
  window : Table Byte := []
  windowBusy : Bool := false
  images : Table Image := []
  /-- broadcast: round, chunks, tiles that lack chunks (R496) -/
  round : Nat := 0
  chunks : Nat := 0
  lacks : Table (List Nat) := []
  /-- what the running repair round sends: chunks by multicast, and chunks by unicast to each tile (R496) -/
  multicast : List Nat := []
  unicast : Table (List Nat) := []
  /-- stage 3 has ended, DONE or FATAL, with the store loaded: FLD_STATUS and FLT_STATUS have their values (R483, R492) -/
  loaded : Bool := false
  linkOpen : Bool := false
  deriving DecidableEq, Repr

structure Queue where
  vector : Byte := 0
  cqsize : BitVec 4 := 0
  sqsize : BitVec 4 := 0
  irqAll : Bool := false
  view : Bool := false
  port : Bool := false
  enable : Bool := false
  sqbase : W64 := 0
  cqbase : W64 := 0
  sqhead : Nat := 0
  cqtail : Nat := 0
  err : Nat := 0
  stopped : Bool := false
  tail : Nat := 0
  cqhead : Nat := 0
  /-- written entries that the host has not freed (R519) -/
  cqused : Nat := 0
  phase : Bool := true
  outstanding : Nat := 0
  deriving DecidableEq, Repr

/-- An announcement: queue, origin port, first slot after the announced ones (R514, R518). -/
structure Doorbell where
  queue : Nat
  port : Nat
  tail : Nat
  deriving DecidableEq, Repr

structure Reply where
  queue : Nat
  seq : W32
  status : BitVec 16
  detail : W64
  ct : CtWord
  opc : Nat
  origin : Nat
  notify : Bool
  deriving DecidableEq, Repr

structure Event where
  ct : CtWord
  seq : Nat
  code : Nat
  origin : Nat
  unit : W32
  play : W32
  step : W32
  detail : List Byte
  deriving DecidableEq, Repr

structure Aper where
  base : BitVec 20 := 0
  writeEn : Bool := false
  en : Bool := false
  /-- APERTURE_FAULT raised in this beat (R511) -/
  faulted : Bool := false
  deriving DecidableEq, Repr

/-- What the spec names of a function's configuration space (R506, R508): its identity, Max Payload Size and Max Read Request Size in bytes at the values that
PCI-SIG's specification resets them to (PRESUMED, assumption 126), and AER's record of an Unsupported Request. -/
structure PcieCfg where
  vendor : BitVec 16 := Config.vendorId
  device : BitVec 16 := 0x7B02
  classCode : BitVec 24 := 0x120000
  payload : Nat := 128
  readRequest : Nat := 512
  unsupported : Bool := false
  deriving DecidableEq, Repr

/-- A PCIe function (R487, R508, R559). -/
structure PciePort where
  perst : Bool := true
  trained : Bool := false
  refclk : Bool := false
  /-- MSI-X table bytes (R507); upper half of the last 128-bit register read (R542) -/
  msix : Table Byte := []
  latch : W64 := 0
  aper : Aper := {}
  /-- DOE: the last response -/
  doe : List Byte := []
  cfg : PcieCfg := {}
  deriving DecidableEq, Repr

structure HostIf where
  privOpen : Bool := true
  freeze : Bool := false
  jobOpen : Bool := true
  seed : W64 := 0
  ports : Table PciePort := []
  queues : Table Queue := []
  doorbells : List Doorbell := []
  replies : List Reply := []
  /-- MSI-X messages sent: port, vector, latest first -/
  msi : List (Nat × Nat) := []
  /-- MSI-X pending bits that are set (R507): port, vector -/
  pba : List (Nat × Nat) := []
  events : List Event := []
  evtNext : Nat := 0
  evtVector : Byte := 0
  evtPort : Bool := false
  evtEn : Bool := false
  evtSent : Bool := false
  /-- what the last host read returned, and whether poisoned (R512) -/
  readData : List Byte := []
  readPoison : Bool := false
  /-- the last host read completed as an Unsupported Request, with no data (R507) -/
  readUr : Bool := false
  /-- aperture writes that wait for their channel or rim stack, oldest first: port, module address, data (R263, R279, R339) -/
  aperWrites : List (Nat × Nat × List Byte) := []
  /-- host memory that the module has written, per port -/
  mem0 : Table Byte := []
  mem1 : Table Byte := []
  /-- the last MCTP response -/
  mctp : List Byte := []
  /-- writes held during a takeover (R479): access, offset, wide, value -/
  heldWrites : List (HostAccess × Nat × Bool × W64) := []
  deriving DecidableEq, Repr

structure Debug where
  opened : Bool := false
  ever : Bool := false
  scope : BitVec 4 := 0
  challenge : Option (List Byte) := none
  kind : Nat := 0
  unit : Nat := 0
  addr : W64 := 0
  /-- halted cores (kind * 4096 + unit) and instructions stepped -/
  halted : List Nat := []
  steps : Table Nat := []
  /-- words set by debug writes: key (kind * 4096 + unit) * 2^61 + addr / 8 -/
  words : Table W64 := []
  deriving DecidableEq, Repr

/-- The 52 V input and the pins (R552 to R557). -/
structure Pins where
  powered : Bool := true
  precharging : Bool := false
  pwrOk : Bool := true
  /-- 1 ms has passed since PWR_OK rose (R556) -/
  settled : Bool := true
  leakLatched : Bool := false
  /-- the input has fallen below 40 V since the last shutdown (R554) -/
  fell : Bool := false
  modRst : Bool := true
  deriving DecidableEq, Repr

/-- What the telemetry snapshot block holds of the module's state, as of the beat edge that built it (R549 to R551). -/
structure Snap where
  seq : Nat := 0
  ct : CtWord := 0
  inputW : BitVec 16 := 0
  near : Table Stack := []
  capstans : Table Capstan := []
  ports : Table HPort := []
  badTiles : List Nat := []
  splices : Table Nat := []
  rings : Table Nat := []
  /-- shed phases by field -/
  shed : Table (List Nat) := []
  deriving DecidableEq, Repr

/-- An event that waits for its FIRE time (R38, R41): class 0 power, 1 commit, 2 collective, 3 play, 4 telemetry; of a TELEM_SNAP whose FIRE time has passed, the
block that was in force at it (R549). -/
structure Sched where
  fire : CtWord
  cls : Nat
  order : Nat
  packet : Packet
  block : Option Snap := none
  deriving DecidableEq, Repr

/-- The state. -/
structure State where
  pending : List Instr := []
  cad : Cad := {}
  sched : List Sched := []
  /-- dispatcher arrival counter (R38) -/
  arrivals : Nat := 0
  xing : Xing := {}
  fields : Table Field := []
  parts : List Partition := []
  /-- partitions removed by a PART: origin, shape, arrival order of that PART (R78) -/
  removed : List (Nat × Nat × Nat) := []
  plays : List Play := []
  /-- PARTs that have not completed: region, number, and the command that asked (R77); the next number -/
  parting : List (Nat × Nat × Nat × Option Packet) := []
  partNext : Nat := 1
  /-- ramp-start requests in the order of their grants: CT, origin, shape (R64) -/
  rampQueue : List (Nat × Nat × Nat) := []
  rampLast : Option Nat := none
  knots : Table W32 := []
  mem : List Host.Cell := []
  regions : Table Region := []
  loans : List LoanRec := []
  loanNext : Nat := 0
  hints : Table HintBuf := []
  caches : Table (List CacheLine) := []
  near : Near := {}
  cap : Cap := {}
  watch : Watch := {}
  ports : Table HPort := []
  lqWindow : Byte := 10
  sets : Table RtSet := []
  colls : Table CollSlot := []
  barriers : List BarrierRec := []
  exchanges : Table Exchange := []
  mesh : List (Source × MeshItem) := []
  power : Power := {}
  rel : Rel := {}
  bu : BringUp := {}
  host : HostIf := {}
  dbgUnit : Debug := {}
  pins : Pins := {}
  store : Store := {}
  /-- telemetry: the readings of the block in force (R549) -/
  snap : Snap := {}
  /-- the model's own: draws of free values (assumption 1) -/
  freeCtr : Nat := 0
  deriving DecidableEq, Repr

/-- Stops of the machine. -/
inductive Fault where
  /-- Raised by PRECHARGE with an input below the absolute minimum of -0.5 V: the module can be damaged and the spec gives no behaviour
  from then on (R552). Safe: the model stops where the hardware may go on. -/
  | inputDamage
  deriving DecidableEq, Repr

/-- Commands without a meaning. -/
inductive Refusal where
  /-- Raised by exec's arm of a row that has no meaning yet. Safe: nothing is claimed of it. -/
  | notModelled (mnemonic : String)
  deriving DecidableEq, Repr

/-- The outcome of a command. -/
abbrev Out := Host.Outcome State Fault Refusal

/-- The module right after a reset with the rails on (R556): PWR_OK high, MOD_RST_N and both PERST_N still low, every volatile
register at its reset value, no memory byte listed, the defect store as manufactured (assumption 7). Partitions tile each field (R74); the spec does
not say which stand at reset: one of shape 0 per field (DESIGN CHOICE, assumption 81). -/
def State.reset : State := { parts := (List.range 8).map fun f => { org := 256 * f, shape := 0 } }

end Sys2Proof.Machine
end

