-- ==== Sys2Proof/Machine/Ops.lean ====
section
/-! DEFINITION. The named operations over tables, bit fields, memory, knots, events and replies that the meanings share, with the status codes (R528),
the event codes (R530) and the shape table (R74). -/

namespace Sys2Proof.Machine

/-! ### Tables -/

/-- The value at key k. -/
def lookup {β : Type} (k : Nat) : Table β → Option β
  | [] => none
  | (k', v) :: r => if k = k' then some v else lookup k r

/-- The value at key k, or d where the table does not list k. -/
def lookupD {β : Type} (d : β) (k : Nat) (t : Table β) : β := (lookup k t).getD d

/-- The table with key k set to v; keys stay rising. -/
def upsert {β : Type} (k : Nat) (v : β) : Table β → Table β
  | [] => [(k, v)]
  | (k', v') :: r =>
    if k < k' then (k, v) :: (k', v') :: r
    else if k = k' then (k, v) :: r
    else (k', v') :: upsert k v r

/-- The table without key k. -/
def delKey {β : Type} (k : Nat) : Table β → Table β
  | [] => []
  | (k', v) :: r => if k = k' then r else (k', v) :: delKey k r

/-- Change the value at key k (d where unlisted). -/
def adjust {β : Type} (d : β) (k : Nat) (f : β → β) (t : Table β) : Table β :=
  upsert k (f (lookupD d k t)) t

/-- Change every value. -/
def mapVals {β : Type} (f : β → β) : Table β → Table β
  | [] => []
  | (k, v) :: r => (k, f v) :: mapVals f r

/-! ### Bit fields and bytes -/

/-- Bits [lo + w - 1 : lo] of x (R3). -/
def fld (x lo w : Nat) : Nat := x / 2 ^ lo % 2 ^ w

/-- Bit i of x. -/
def bitAt (x i : Nat) : Bool := x / 2 ^ i % 2 == 1

/-- n bytes of x, little-endian (R3). -/
def toLE : Nat → Nat → List Byte
  | 0, _ => []
  | n + 1, x => BitVec.ofNat 8 x :: toLE n (x / 256)

/-- The little-endian value of bytes (R3). -/
def ofLE : List Byte → Nat
  | [] => 0
  | b :: r => b.toNat + 256 * ofLE r

/-- Bytes [at, at + n) of a list, zero beyond its end. -/
def sliceB (l : List Byte) (at_ n : Nat) : List Byte :=
  let r := (l.drop at_).take n
  r ++ List.replicate (n - r.length) 0

/-- The little-endian item of n bytes at a byte offset. -/
def item (l : List Byte) (at_ n : Nat) : Nat := ofLE (sliceB l at_ n)

/-- A saturating counter of w bits. -/
def satAdd (w x n : Nat) : Nat := min (x + n) (2 ^ w - 1)

def b2n (b : Bool) : Nat := if b then 1 else 0

/-- ceil(a / b). -/
def cdiv (a b : Nat) : Nat := (a + b - 1) / b

/-! ### Status codes (R528) -/

namespace Status
def ok : BitVec 16 := 0x0000
def fireLate : BitVec 16 := 0x0001
def stepVetoed : BitVec 16 := 0x0002
def vecDiff : BitVec 16 := 0x0003
def buDegraded : BitVec 16 := 0x0004
def opcode : BitVec 16 := 0x0101
def fireRange : BitVec 16 := 0x0102
def partShape : BitVec 16 := 0x0103
def rowCount : BitVec 16 := 0x0104
def mxAxis : BitVec 16 := 0x0105
def fmtMismatch : BitVec 16 := 0x0106
def fmtPair : BitVec 16 := 0x0107
def scaleInvalid : BitVec 16 := 0x0108
def rowSpan : BitVec 16 := 0x0109
def topkRange : BitVec 16 := 0x010A
def indexRange : BitVec 16 := 0x010B
def moveOpcode : BitVec 16 := 0x010C
def moveField : BitVec 16 := 0x010D
def addrRange : BitVec 16 := 0x010E
def loanId : BitVec 16 := 0x010F
def playFormat : BitVec 16 := 0x0110
def updValue : BitVec 16 := 0x0111
def ledgerValue : BitVec 16 := 0x0112
def watchValue : BitVec 16 := 0x0113
def vecFormat : BitVec 16 := 0x0114
def linkValue : BitVec 16 := 0x0115
def xmapMiss : BitVec 16 := 0x0116
def xchValue : BitVec 16 := 0x0117
def pwrValue : BitVec 16 := 0x0118
def header : BitVec 16 := 0x0119
def notReady : BitVec 16 := 0x0201
def noCadence : BitVec 16 := 0x0203
def commitPassed : BitVec 16 := 0x0204
def resyncBusy : BitVec 16 := 0x0205
def partBusy : BitVec 16 := 0x0206
def seedBusy : BitVec 16 := 0x0207
def partGone : BitVec 16 := 0x0208
def weightsInvalid : BitVec 16 := 0x0209
def noPartition : BitVec 16 := 0x020A
def waitTimeout : BitVec 16 := 0x020B
def aborted : BitVec 16 := 0x020C
def partLent : BitVec 16 := 0x020D
def hintUnplaced : BitVec 16 := 0x020E
def stepOrder : BitVec 16 := 0x020F
def capBusy : BitVec 16 := 0x0211
def linkBusy : BitVec 16 := 0x0212
def barrierTimeout : BitVec 16 := 0x0213
def xchBusy : BitVec 16 := 0x0214
def xchUnknown : BitVec 16 := 0x0215
def stageOrder : BitVec 16 := 0x0216
def scheduleFull : BitVec 16 := 0x0302
def rowDegraded : BitVec 16 := 0x0304
def accSpace : BitVec 16 := 0x0305
def loanFull : BitVec 16 := 0x0306
def ledgerFull : BitVec 16 := 0x0307
def xchFull : BitVec 16 := 0x0308
def parityFault : BitVec 16 := 0x0401
def arithFault : BitVec 16 := 0x0402
def seqHang : BitVec 16 := 0x0403
def clockStopped : BitVec 16 := 0x0407
def hostFault : BitVec 16 := 0x0408
def retiredPage : BitVec 16 := 0x0409
def stepLost : BitVec 16 := 0x040B
def stepStuck : BitVec 16 := 0x040C
def linkLost : BitVec 16 := 0x040D
def bringupFatal : BitVec 16 := 0x040E
def imageSignature : BitVec 16 := 0x0501
def imageRollback : BitVec 16 := 0x0502
def imageKind : BitVec 16 := 0x0503
def viewDenied : BitVec 16 := 0x0504
def tokenInvalid : BitVec 16 := 0x0506
def lastSlot : BitVec 16 := 0x0507
def fuseLimit : BitVec 16 := 0x0509
end Status

/-! ### Event codes (R530): consecutive from each base -/

namespace Ev
def lockViolation : Nat := 0x0000
def argReject : Nat := 0x0001
def stageOrder : Nat := 0x0002
def apertureEarly : Nat := 0x0003
def fwStageBusy : Nat := 0x0004
def doorbellStale : Nat := 0x0005
def apertureFault : Nat := 0x0006
def playFail : Nat := 0x0007
def replyDropped : Nat := 0x0008
def hostFault : Nat := 0x0009
def debugOpened : Nat := 0x000A
def keyRevoked : Nat := 0x000B
def watchOff : Nat := 0x000C
def cadHoldover : Nat := 0x0100
def cadReject : Nat := 0x0101
def xingFault : Nat := 0x0102
def slotOverrun : Nat := 0x0200
def tallyMismatch : Nat := 0x0201
def auditDrift : Nat := 0x0202
def nonfinite : Nat := 0x0300
def overflow : Nat := 0x0301
def saturation : Nat := 0x0302
def nonfinGrad : Nat := 0x0303
def stall : Nat := 0x0304
def contribOrder : Nat := 0x0305
def contribRange : Nat := 0x0306
def contribOver : Nat := 0x0307
def commitRetract : Nat := 0x0308
def commitSplit : Nat := 0x0309
def stepReplay : Nat := 0x030A
def capDegraded : Nat := 0x030B
def nsThermal : Nat := 0x0400
def scrubStarved : Nat := 0x0401
def rowRepaired : Nat := 0x0402
def pageRetired : Nat := 0x0403
def retiredAccess : Nat := 0x0404
def chMigrate : Nat := 0x0405
def stackSplice : Nat := 0x0406
def nsDegraded : Nat := 0x0407
def regionReject : Nat := 0x0408
def hawStall : Nat := 0x0500
def hawLaneSwap : Nat := 0x0501
def hawDegraded : Nat := 0x0502
def hawMiscable : Nat := 0x0503
def hawPlan : Nat := 0x0504
def hawUp : Nat := 0x0505
def hawUnreachable : Nat := 0x0506
def hawPortDown : Nat := 0x0507
def collSpace : Nat := 0x0508
def barrierLate : Nat := 0x0509
def xchClamp : Nat := 0x050A
def xchOverflow : Nat := 0x050B
def xchMismatch : Nat := 0x050C
def budgetFloor : Nat := 0x0600
def budgetLimit : Nat := 0x0601
def grantStale : Nat := 0x0602
def powerOver : Nat := 0x0603
def fieldHot : Nat := 0x0604
def parity : Nat := 0x0700
def laneResidue : Nat := 0x0701
def seqHang : Nat := 0x0702
def phaseFault : Nat := 0x0703
def railDegraded : Nat := 0x0704
def pllSwitch : Nat := 0x0705
def tileWear : Nat := 0x0706
def tileSplice : Nat := 0x0707
def ccTakeover : Nat := 0x0708
def ccStandbyLost : Nat := 0x0709
end Ev

/-! ### Bring-up gates -/

/-- Stage k is DONE (R485, R488). -/
def stageDone (s : State) (k : Nat) : Bool :=
  k < s.bu.stage || (s.bu.stage == k && s.bu.state == .done)

/-- The module is past its ready stage (R19). -/
def isReady (s : State) : Bool := stageDone s 10

/-! ### Cadence time (R5, R22) -/

def ctTurn (c : CtWord) : Nat := c.toNat / 2 ^ 26
def ctBeat (c : CtWord) : Nat := c.toNat / 2 ^ 16 % 1024
/-- turn:beat+0x0000. -/
def ctMk (turn beat : Nat) : CtWord := BitVec.ofNat 64 (turn * 2 ^ 26 + beat * 2 ^ 16)
/-- n whole beats in CT-word units. -/
def beats (n : Nat) : CtWord := BitVec.ofNat 64 (n * 65536)
/-- The CT of the beat edge n beats after the present beat began (R34). -/
def ctEdge (c : CtWord) (n : Nat) : CtWord := BitVec.ofNat 64 ((c.toNat / 65536 + n) * 65536)
/-- CT advances (R27). -/
def ctRuns (s : State) : Bool :=
  match s.cad.state with
  | .unlocked | .acquiring => false
  | _ => true

/-! ### Events (R529, R564) -/

/-- The items of DETAIL, each (width, value), one directly after the other (R564). -/
def det (l : List (Nat × Nat)) : List Byte := l.flatMap fun (w, v) => toLE w v

/-- The mask bit of a vector in a port's MSI-X table (PCI-SIG's, by reference; assumption 76). -/
def PciePort.masked (p : PciePort) (v : Nat) : Bool := (lookupD 0 (16 * v + 12) p.msix).getLsbD 0

/-- The number of a toggle crossing between two domains of R47 (R44); 0 to 2047 are the beat-edge toggles of the routers. -/
def toggleOf (src dst : Nat) : Nat := 2048 + 16 * src + dst

/-- A crossing that refuses transfers (R46). -/
def xingClosed (s : State) (a b : Nat) : Bool := s.xing.closed.contains (a, b) || s.xing.closed.contains (b, a)

/-- Add a record to the event log (R529): the last 65,536 are kept. The log exists from the end of stage 2 (R488). -/
def logEvent (code origin : Nat) (unit play step : W32) (d : List Byte) (s : State) : State :=
  if stageDone s 2 then
    let e : Event := { ct := s.cad.ct, seq := s.host.evtNext, code, origin, unit, play, step, detail := d }
    { s with host := { s.host with events := (e :: s.host.events).take 65536, evtNext := s.host.evtNext + 1 } }
  else s

/-- UNIT of a record: kind in [31:28], physical ID in [27:0] (R481). -/
def unitOf (kind ident : Nat) : W32 := BitVec.ofNat 32 (kind * 2 ^ 28 + ident % 2 ^ 28)

/-- The open step, COMMITTED + 1 (R354, R481). -/
def openStep (s : State) : W32 := s.cap.committed + 1

/-- Write a record to the fault ledger (R481): a ring of 262,144. -/
def ledgerRec (cls action result : Nat) (unit logical play : W32) (d : List Byte) (s : State) : State :=
  let r : FaultRec := { ct := s.cad.ct, seq := s.store.seq, cls, action, result, unit, logical, step := openStep s, play, detail := d }
  { s with store := { s.store with ledger := (r :: s.store.ledger).take 262144, seq := s.store.seq + 1 } }

/-- A journal record and its acknowledgement, before the active acts: accepts a command, writes a reply, executes an event, applies a plan, changes a map (R477).
What the journal holds is what State holds of it (DESIGN CHOICE, assumption 125). -/
def journalRecord (s : State) : State :=
  if s.rel.standby && stageDone s 2 then { s with rel := { s.rel with journal := s.rel.journal + 1, acked := s.rel.acked + 1 } } else s

/-- The event that R459 names for a fault class; none where it names no event. -/
def classEvent : Nat → Option Nat
  | 1 => some Ev.parity | 2 => some Ev.tallyMismatch | 3 => some Ev.laneResidue | 4 => some Ev.seqHang | 5 => some Ev.rowRepaired | 6 => some Ev.rowRepaired
  | 7 => some Ev.chMigrate | 8 => some Ev.stackSplice | 11 => some Ev.ccTakeover | 12 => some Ev.phaseFault | 13 => some Ev.hawLaneSwap
  | 14 => some Ev.hawPortDown | 15 => some Ev.pllSwitch | 17 => some Ev.cadHoldover | 18 => some Ev.tileWear
  | _ => none

/-- An overrun or a timeout of a crossing in XING_STATUS (R47) and in the fault ledger. -/
def xingNote (play : W32) (src dst : Nat) (timeout : Bool) (s : State) : State :=
  let x := s.xing
  let first := !x.timeout && !x.overrun
  let x := { x with
    count := satAdd 16 x.count 1
    dst := if first then dst else x.dst
    src := if first then src else x.src
    timeout := x.timeout || timeout
    overrun := x.overrun || !timeout }
  ledgerRec (if timeout then 15 else 16) 0 1 0xFFFFFFFF 0xFFFFFFFF play (det [(1, src), (1, dst)]) { s with xing := x }

/-- A message of MSI-X vector v on a port (R520, R531), if that port's function is not in reset (R508); a masked vector becomes pending. A closed crossing between the
control complex and PCIe refuses the pulse (R46); one that takes no event in this beat holds it in its 4-bit counter, and loses it past 15 (R44, R45). -/
def sendMsi (port : Nat) (v : Byte) (s : State) : State :=
  let p : PciePort := lookupD {} port s.host.ports
  if p.perst || xingClosed s 12 14 then s
  else if p.masked v.toNat then
    { s with host := { s.host with pba := (port, v.toNat) :: s.host.pba.filter fun x => x != (port, v.toNat) } }
  else if !s.xing.lag.contains (toggleOf 12 14) then { s with host := { s.host with msi := (port, v.toNat) :: s.host.msi } }
  else if s.xing.irqs.length < 15 then { s with xing := { s.xing with irqs := s.xing.irqs ++ [(port, v.toNat)] } }
  else logEvent Ev.xingFault 3 0xFFFFFFFF 0 0 [] (xingNote 0 12 14 false s)

/-- An event: its record, and EVT_CFG's vector at most once per beat (R529, R531). -/
def postFull (code origin : Nat) (unit play step : W32) (d : List Byte) (s : State) : State :=
  let s := logEvent code origin unit play step d s
  if stageDone s 2 && s.host.evtEn && !s.host.evtSent then
    sendMsi (b2n s.host.evtPort) s.host.evtVector { s with host := { s.host with evtSent := true } }
  else s

/-- A fault-ledger record and its entry in the event log (R481, R482). -/
def record (cls action result origin : Nat) (unit logical play step : W32) (d : List Byte) (s : State) : State :=
  let s := match classEvent cls with
    | some e => postFull e origin unit play step [] s
    | none => s
  ledgerRec cls action result unit logical play d s

/-- An event with no command, unit, play or step of its own. -/
def post (code : Nat) (d : List Byte) (s : State) : State := postFull code 3 0xFFFFFFFF 0 0 d s

/-! ### Replies (R524, R525) -/

/-- Queue the reply of a command; REPLY_WRITE writes it (R520). FIRE_LATE stands only for a success (R525). -/
def replyTo (queue : Nat) (seq : W32) (opc origin : Nat) (notify : Bool) (st : BitVec 16) (d : W64) (s : State) : State :=
  let r : Reply := { queue, seq, status := st, detail := d, ct := s.cad.ct, opc, origin, notify }
  { s with host := { s.host with replies := s.host.replies ++ [r] } }

/-- NOTIFY of a packet (R521). -/
def Packet.notify (p : Packet) : Bool := p.flags.getLsbD 4

/-- The late mark of R41: a packet of a class other than power and commit whose FIRE had passed at dispatch is marked in rsv by the
dispatcher; R525 says a failure status replaces it. -/
def okStatus (p : Packet) : BitVec 16 := if p.rsv = 1 then Status.fireLate else Status.ok

/-- Opcodes that carry a step, which the log can hold (R334). -/
def stepOpcode (opc : Nat) : Bool := opc == 0x0301 || opc == 0x0404 || opc == 0x0504 || opc == 0x0505 || opc == 0x0602

/-- Mark a logged command replied (R336), by its arrival number. -/
def markReplied (tag : Nat) (s : State) : State :=
  { s with cap := { s.cap with log := s.cap.log.map fun l => if l.order = tag then { l with replied := true } else l } }

/-- Whether a command has replied before (R336): its later outcome goes to the event log. The spec names no event code for it: PLAY_FAIL with the status (DESIGN
CHOICE, assumption 95). -/
def hasReplied (tag : Nat) (s : State) : Bool := s.cap.log.any fun l => l.order = tag && l.replied

/-- The reply of a command with a step: once, and its replay's outcome to the event log. -/
def stepReply (tag queue : Nat) (seq : W32) (opc origin : Nat) (notify : Bool) (play step : W32) (st : BitVec 16) (d : W64) (s : State) : State :=
  if hasReplied tag s then
    postFull Ev.playFail origin 0xFFFFFFFF play step (det [(2, st.toNat)]) s
  else replyTo queue seq opc origin notify st d (markReplied tag s)

/-- A packet's reply with a status and DETAIL. -/
def reply (p : Packet) (st : BitVec 16) (d : W64) (s : State) : State :=
  if stepOpcode p.opc then stepReply p.tag p.queue p.seq p.opc p.origin (Packet.notify p) 0 0 st d s
  else replyTo p.queue p.seq p.opc p.origin (Packet.notify p) st d s

/-- A refusal of a command: nothing else changes. -/
def refuse (p : Packet) (st : BitVec 16) (s : State) : State := reply p st 0 s

/-- A success. -/
def accept (p : Packet) (s : State) : State := reply p (okStatus p) 0 s

/-! ### The canonical form of memory (R494: an unlisted byte reads 0) -/

/-- The canonical form: addresses strictly rising, no listed zero. -/
def memWf : List Host.Cell → Bool
  | [] => true
  | [(_, v)] => v != 0
  | (a, v) :: (b, w) :: r => decide (a < b) && v != 0 && memWf ((b, w) :: r)

def readMem (m : List Host.Cell) (a : Nat) : Byte := lookupD 0 a m

def writeMem (a : Nat) (v : Byte) (m : List Host.Cell) : List Host.Cell :=
  if v = 0 then delKey a m else upsert a v m

/-- Host memory behind a port: what the module wrote, else what the host holds (R242). -/
def hostRead (s : State) (port a : Nat) : Byte :=
  lookupD (Config.hostByte port a) a (if port = 0 then s.host.mem0 else s.host.mem1)

def hostReadBytes (s : State) (port a : Nat) : Nat → List Byte
  | 0 => []
  | n + 1 => hostRead s port a :: hostReadBytes s port (a + 1) n

def hostWrite (port a : Nat) (l : List Byte) (s : State) : State :=
  match l with
  | [] => s
  | b :: r =>
    let s := if port = 0 then { s with host := { s.host with mem0 := upsert a b s.host.mem0 } }
      else { s with host := { s.host with mem1 := upsert a b s.host.mem1 } }
    hostWrite port (a + 1) r s

/-! ### The address map (R216) -/

def nearEnd : Nat := 2 ^ 43
def rimBase : Nat := 0x10 * 2 ^ 40
def rimParity : Nat := 0x11C * 2 ^ 36
def rimEnd : Nat := 0x12 * 2 ^ 40
def tileBase : Nat := 0x20 * 2 ^ 40
def tileEnd : Nat := tileBase + 2048 * 2 ^ 23
def hintBase : Nat := 0x38 * 2 ^ 40
def hintEnd : Nat := 0x40 * 2 ^ 40
def hostWin0 : Nat := 2 ^ 48
def hostWin1 : Nat := 2 * 2 ^ 48

inductive Space where
  | near | rim | parity | tile | hint | host0 | host1 | other
  deriving DecidableEq, Repr

/-- The row of R216 that holds an address. -/
def spaceOf (a : Nat) : Space :=
  if a < nearEnd then .near
  else if rimBase ≤ a && a < rimParity then .rim
  else if rimParity ≤ a && a < rimEnd then .parity
  else if tileBase ≤ a && a < tileEnd then .tile
  else if hintBase ≤ a && a < hintEnd then .hint
  else if hostWin0 ≤ a && a < hostWin1 then .host0
  else if hostWin1 ≤ a && a < 3 * 2 ^ 48 then .host1
  else .other

/-- The tile store of logical tile L (R12). -/
def tileAddr (L off : Nat) : Nat := tileBase + L * 2 ^ 23 + off

/-- First address, length and entry of a valid region-table entry (R272). -/
def Region.first (r : Region) : Nat := r.base.toNat * 2 ^ 24
def Region.bytes (r : Region) : Nat := r.len.toNat * 2 ^ 24

/-- The valid entry that holds a near-tier address (R217). -/
def regionOf (s : State) (a : Nat) : Option (Nat × Region) :=
  s.regions.find? fun (_, r) => r.valid && decide (r.first ≤ a) && decide (a < r.first + r.bytes)

/-- A range of n bytes lies inside one valid entry. -/
def inRegion (s : State) (a n : Nat) : Option Region :=
  match regionOf s a with
  | some (_, r) => if a + n ≤ r.first + r.bytes then some r else none
  | none => none

/-- The decode of a near-tier address to stack, channel, bank and row (R275). -/
def nearDecode (r : Region) (a : Nat) : Retired × Nat :=
  let o := a - r.first
  let g := o / 512
  let b := o % 512
  let (stack, chan, q) :=
    if r.spread then
      let q := g / 32768
      let c := (g % 32768) ^^^ (q % 32768)
      (c % 1024, c / 1024, q)
    else
      let q := g / 4096
      let c := (g % 4096) ^^^ (q % 4096)
      (r.field.toNat * 128 + c % 128, c / 128, q)
  let y := r.chbase.toNat * 512 + q * 512 + b
  let rw := y / 512
  ({ stack, chan, bank := (rw % 16) ^^^ (rw / 16 % 16), row := rw / 16 }, y)

/-- Where the byte of a module address is held: a near-tier address, in its channel (stack, channel and byte of the channel's space, as the region table
decodes it, so a table write moves no data, R274, R275), none where no valid entry maps it; any other address, at itself. -/
def memKey (s : State) (a : Nat) : Option Nat :=
  if a < nearEnd then
    (regionOf s a).map fun (_, r) =>
      let (d, y) := nearDecode r a
      (d.stack * 32 + d.chan) * 2 ^ 28 + y % 2 ^ 28
  else some a

def readByte (s : State) (a : Nat) : Byte :=
  match memKey s a with
  | some k => readMem s.mem k
  | none => 0

def readBytes (s : State) (a : Nat) : Nat → List Byte
  | 0 => []
  | n + 1 => readByte s a :: readBytes s (a + 1) n

def readN (s : State) (a n : Nat) : Nat := ofLE (readBytes s a n)

/-- A write to a near-tier address in no valid entry is discarded (R274). -/
def writeByte (a : Nat) (v : Byte) (s : State) : State :=
  match memKey s a with
  | some k => { s with mem := writeMem k v s.mem }
  | none => s

def writeBytes (a : Nat) : List Byte → State → State
  | [], s => s
  | b :: r, s => writeBytes (a + 1) r (writeByte a b s)

def writeN (a n x : Nat) (s : State) : State := writeBytes a (toLE n x) s

/-- The channel row of a mapped near-tier address. -/
def rowOf (s : State) (a : Nat) : Option Retired :=
  (regionOf s a).map fun (_, r) => (nearDecode r a).1

/-- The granule of a near-tier address is retired (R291). -/
def isRetired (s : State) (a : Nat) : Bool :=
  match rowOf s a with
  | some r => s.near.retired.contains r
  | none => false

/-- The unit of a near-tier address carries inverted parity (R289). -/
def isPoisoned (s : State) (a : Nat) : Bool :=
  match rowOf s a with
  | some r => s.near.poisoned.contains (r, a % 512 / 128)
  | none => false

/-- Whole units written over bytes [a, a + n) of one granule carry good parity again. -/
def unpoison (a n : Nat) (s : State) : State :=
  match rowOf s a with
  | some r => { s with near := { s.near with poisoned := s.near.poisoned.filter fun x =>
      !(x.1 == r && decide (a % 512 ≤ x.2 * 128) && decide ((x.2 + 1) * 128 ≤ a % 512 + n)) } }
  | none => s

/-- A near-tier write by an engine other than a mover, granule by granule, for a command of an origin port (3 for none, R514); a write to a retired granule is
discarded with RETIRED_ACCESS (R291). -/
def nearWriteFor (origin a : Nat) (l : List Byte) : Nat → State → State
  | 0, s => s
  | n + 1, s =>
    if l.isEmpty then s
    else
      let k := 512 - a % 512
      let piece := l.take k
      let s := if isRetired s a then postFull Ev.retiredAccess origin 0xFFFFFFFF 0 0 [] s else writeBytes a piece (unpoison a piece.length s)
      nearWriteFor origin (a + k) (l.drop k) n s

/-- The same outside any command. -/
def nearWrite (a : Nat) (l : List Byte) (n : Nat) (s : State) : State := nearWriteFor 3 a l n s

/-- A destination or source given as near tier or host window: 128 B aligned, inside one valid DATA entry (for a destination) or any
valid entry (for a source), or inside one host window (R527). -/
def destOk (s : State) (a n : Nat) (write : Bool) : Bool :=
  a % 128 == 0 &&
    match spaceOf a with
    | .near =>
      match inRegion s a n with
      | some r => !(write && r.typ)
      | none => false
    | .host0 => decide (a + n ≤ hostWin1)
    | .host1 => decide (a + n ≤ 3 * 2 ^ 48)
    | _ => false

/-- Write a command's bytes at a near-tier or host-window address. -/
def destWrite (origin a : Nat) (l : List Byte) (s : State) : State :=
  match spaceOf a with
  | .host0 => hostWrite 0 (a - hostWin0) l s
  | .host1 => hostWrite 1 (a - hostWin1) l s
  | _ => nearWriteFor origin a l l.length s

/-- Read bytes at a near-tier or host-window address. -/
def srcRead (s : State) (a n : Nat) : List Byte :=
  match spaceOf a with
  | .host0 => hostReadBytes s 0 (a - hostWin0) n
  | .host1 => hostReadBytes s 1 (a - hostWin1) n
  | _ => readBytes s a n

/-- What a read of near-tier bytes [a, a + n) by an engine other than a mover meets: a retired granule, a unit with inverted parity. -/
def readMeets (s : State) (f : State → Nat → Bool) (a n : Nat) : Bool :=
  decide (a < nearEnd) && (List.range ((a % 128 + n + 127) / 128)).any fun k => f s (a / 128 * 128 + 128 * k)

/-- The open step is FAULTED when work of a step above COMMITTED is lost on this module (R45, R466). -/
def faultStep (step : W32) (s : State) : State :=
  if s.cap.committed.toNat < step.toNat then { s with cap := { s.cap with stepFaulted := true } } else s

/-! ### Tiles, shapes, partitions (R10, R74) -/

def tileField (L : Nat) : Nat := L / 256 % 8
def tileRow (L : Nat) : Nat := L / 16 % 16
def tileCol (L : Nat) : Nat := L % 16
def mkTile (f r c : Nat) : Nat := f * 256 + r * 16 + c

/-- Tile rows and columns of a shape code (R74). -/
def shapeRows : Nat → Nat
  | 0 => 16 | 1 => 16 | 2 => 8 | 3 => 4 | 4 => 2 | _ => 1
def shapeCols : Nat → Nat
  | 0 => 16 | 1 => 8 | 2 => 8 | 3 => 4 | 4 => 2 | _ => 1
/-- The partitions that are ramped (R59, R74). -/
def shapeRamped (sh : Nat) : Bool := sh < 3
/-- The origin of a shape is aligned as R74 requires. -/
def aligned (org sh : Nat) : Bool :=
  decide (sh ≤ 5) && tileRow org % shapeRows sh == 0 && tileCol org % shapeCols sh == 0 && decide (org < 2048)

/-- The tiles of a partition in row-major order (R170). -/
def tilesOf (org sh : Nat) : List Nat :=
  (List.range (shapeRows sh)).flatMap fun a =>
    (List.range (shapeCols sh)).map fun b => mkTile (tileField org) (tileRow org + a) (tileCol org + b)

def findPart (s : State) (org sh : Nat) : Option Partition :=
  s.parts.find? fun p => p.org == org && p.shape == sh

def setPart (p : Partition) (s : State) : State :=
  { s with parts := s.parts.map fun q => if q.org = p.org && q.shape = p.shape then p else q }

/-- The running play of a partition (R75). -/
def runningOn (s : State) (org sh : Nat) : Option Play :=
  s.plays.find? fun p => p.org == org && p.shape == sh && p.state == .running

/-- The running play whose partition holds a tile. -/
def playOfTile (s : State) (L : Nat) : Option Play :=
  s.plays.find? fun p => p.state == .running && p.seqs.any fun q => q.tile == L

def setPlay (p : Play) (s : State) : State :=
  { s with plays := s.plays.map fun q => if q.order = p.order then p else q }

def dropPlay (order : Nat) (s : State) : State :=
  { s with plays := s.plays.filter fun q => q.order != order }

def getField (s : State) (f : Nat) : Field := lookupD {} f s.fields
def setField (f : Nat) (x : Field) (s : State) : State := { s with fields := upsert f x s.fields }
def adjField (f : Nat) (g : Field → Field) (s : State) : State := setField f (g (getField s f)) s

/-! ### Knots (R183, R184): key space of the knot window (R548) -/

def tileKnot (L k : Nat) : Nat := L * 128 + k
def capKnot (c k : Nat) : Nat := 0x40000 + c * 128 + k
def xuKnot (f k : Nat) : Nat := 0x41000 + f * 128 + k
def knot (s : State) (key : Nat) : W32 := lookupD 0 key s.knots
def setKnot (key : Nat) (v : W32) (s : State) : State := { s with knots := upsert key v s.knots }
/-- A tie adds its amount modulo 2^32 (R184). -/
def addKnot (key : Nat) (v : W32) (s : State) : State := setKnot key (knot s key + v) s
/-- A WAIT with target t is satisfied by k (R184). -/
def waitMet (k t : W32) : Bool := decide ((k - t).toNat < 2 ^ 31)

/-! ### Free values -/

/-- Draw the next free value (assumption 1). -/
def draw (s : State) : W64 × State :=
  (Config.freeValue s.freeCtr, { s with freeCtr := s.freeCtr + 1 })

/-- n bytes of free values at an address. -/
def freeBytes (a n : Nat) (s : State) : State :=
  writeBytes a ((List.range n).map fun k => (Config.freeValue (s.freeCtr + k)).setWidth 8) { s with freeCtr := s.freeCtr + n }

/-- n bytes of free values in host memory. -/
def freeHost (port a n : Nat) (s : State) : State :=
  hostWrite port a ((List.range n).map fun k => (Config.freeValue (s.freeCtr + k)).setWidth 8) { s with freeCtr := s.freeCtr + n }

/-! ### Fault bookkeeping shared by the chapters -/

/-- Picoseconds since a CT word: windows and bounds in seconds are measured in CT and the beat period (DESIGN CHOICE, assumption 98). -/
def sincePs (s : State) (t : CtWord) : Nat := (s.cad.ct - t).toNat * s.cad.periodPs / 65536

/-- CT is inside the announced calibration slot of its turn (R282). -/
def inSlot (s : State) : Bool :=
  s.near.calSlot != 0 && decide (s.near.calSlot.toNat ≤ s.cad.ct.toNat) && decide (s.cad.ct.toNat < s.near.calSlot.toNat + 65536)

/-- Burst slots of every 16 that a channel may use (R279). -/
def Thermal.slots : Thermal → Nat
  | .full => 16 | .t75 => 12 | .t50 => 8 | .t25 => 4 | .quiesced => 0

/-- The channel of a near-tier address serves no foreground burst: its stack is quiesced (R279), or the channel is in its calibration slot (R281). -/
def nearWaits (s : State) (a : Nat) : Bool :=
  match rowOf s a with
  | some r =>
    let x : Stack := lookupD {} r.stack s.near.units
    x.thermal.slots == 0 || (inSlot s && x.calLast == some (ctTurn s.cad.ct, r.chan))
  | none => false

/-- Some granule of near-tier bytes [a, a + n) waits. -/
def rangeWaits (s : State) (a n : Nat) : Bool :=
  decide (a < nearEnd) && (List.range ((a % 512 + n + 511) / 512)).any fun k => nearWaits s (a / 512 * 512 + 512 * k)

/-- A capstan's rim stack serves no access now: it is quiesced (R279, R301). -/
def rimQuiet (s : State) (k : Nat) : Bool := (lookup k s.cap.capstans).elim false fun c => c.rimThermal.slots == 0

/-- Record an overrun or a timeout in XING_STATUS (R45 to R47) and raise XING_FAULT for the play it met; the spec gives that event no DETAIL items (R564). -/
def xingRecordFor (origin : Nat) (play step : W32) (src dst : Nat) (timeout : Bool) (s : State) : State :=
  postFull Ev.xingFault origin 0xFFFFFFFF play step [] (xingNote play src dst timeout s)

/-- The record of an overrun or a timeout outside any play. -/
def xingRecord (src dst : Nat) (timeout : Bool) (s : State) : State := xingRecordFor 3 0 0 src dst timeout s

/-- A multi-bit value across a double-sample crossing (R44): the destination takes a value only when two consecutive samples agree. -/
def doubleSample {α : Type} [DecidableEq α] (held a b : α) : α := if a = b then a else held

/-- Physical column of a logical tile column in a row with a consumed spare (R79). -/
def physCol (s : State) (f r c : Nat) : Nat :=
  match lookup (f * 16 + r) s.rel.splices with
  | some p => if c < p then c else c + 1
  | none => c

/-- Physical tile ID of a logical tile (R10, R11). -/
def physTile (s : State) (L : Nat) : Nat :=
  tileField L * 512 + tileRow L * 32 + physCol s (tileField L) (tileRow L) (tileCol L)

/-- Drop line-cache lines of every tile that satisfy a test (R262). -/
def dropLines (f : Nat → Nat → Bool) (s : State) : State :=
  { s with caches := s.caches.map fun (L, ls) => (L, ls.filter fun l => !(f L l.unit)) }

end Sys2Proof.Machine
end

