-- ==== Sys2Proof/Machine/Cadence.lean ====
section
/-! DEFINITION. Cadence time: the receiver's states, stamps, beats, holdover, slew, internal cadence, RESYNC, and crossings (chapter 02). -/

namespace Sys2Proof.Machine

def setCad (c : Cad) (s : State) : State := { s with cad := c }

/-- The standby's receiver stands where the module's does: it has the same CAD±, and SRC and RESYNC hold for both (R477). -/
def followCad (s : State) : State := if s.rel.standby then { s with rel := { s.rel with receiver := s.cad } } else s

/-! ### The turn stamp (R24, R25) -/

/-- One bit into the CRC register, most significant end first: x^8 + x^2 + x + 1. -/
def crc8Bit (r : Byte) (b : Bool) : Byte :=
  let f := r.getLsbD 7 != b
  let r := r <<< 1
  if f then r ^^^ 0x07 else r

/-- The CRC over stamp bits 0 to 55 in transmission order. -/
def stampCrc (w : W64) : Byte := (List.range 56).foldl (fun r k => crc8Bit r (w.getLsbD k)) 0

def stampTurn (w : W64) : Nat := fld w.toNat 8 38
def stampNom (w : W64) : Nat := fld w.toNat 46 2
def stampSrc (w : W64) : Nat := fld w.toNat 48 2

/-- A valid stamp (R25). -/
def stampValid (w : W64) : Bool :=
  fld w.toNat 0 8 == 0xA7 && fld w.toNat 56 8 == (stampCrc w).toNat && (stampNom w == 1 || stampNom w == 2) && stampSrc w != 3 &&
    fld w.toNat 50 6 == 0

/-! ### Symbols and the stamp receiver (R23, R24) -/

/-- The symbol that the samples at 3/8 (in Q2) and 5/8 (in Q3) of a predicted beat decide; a beat whose edge is missing is sampled like any other. H at both is no
symbol of the table: it shows no transition at the middle of the beat and counts as idle (DEDUCED, assumption 78). -/
def symbolOf (at38 at58 : Bool) : Symbol :=
  match at38, at58 with
  | true, false => .zero
  | false, true => .one
  | _, _ => .idle

/-- The 64-bit value of stamp bits in their order of transmission, bit 0 first. -/
def stampWord (l : List Bool) : W64 := BitVec.ofNat 64 (l.foldr (fun b n => b2n b + 2 * n) 0)

/-- The stamp receiver takes a beat's symbol: a stamp begins with the first symbol that is not idle after at least 960 idle ones, and ends with its 64th beat.
The second value is a stamp that has ended: none inside where one of its beats carried no bit. -/
def takeSymbol (y : Symbol) : StampRx → StampRx × Option (Option W64)
  | .idle n =>
    match y with
    | .idle => (.idle (n + 1), none)
    | b => (if 960 ≤ n then .bits [b == .one] false else .idle 0, none)
  | .bits l broken =>
    let l := l ++ [y == .one]
    let broken := broken || y == .idle
    if l.length = 64 then (.idle 0, some (if broken then none else some (stampWord l))) else (.bits l broken, none)

/-! ### Acquisition, lock and stamps (R27, R28) -/

/-- A stamp in a state that acquires (R27): a second valid stamp with the next TURN and 1024 accepted edges between decides the lock. -/
def acquire (w : W64) (c : Cad) : Cad :=
  match c.acqTurn with
  | some t =>
    if stampTurn w = t + 1 ∧ c.acqEdges = 1024 then { c with acqTurn := some (t + 1), acqEdges := 0, lockNext := true }
    else { c with acqTurn := some (stampTurn w), acqEdges := 0, lockNext := false }
  | none => { c with acqTurn := some (stampTurn w), acqEdges := 0, lockNext := false }

/-- Acquisition begins anew. -/
def dropAcquired (c : Cad) : Cad := { c with acqTurn := none, acqEdges := 0, lockNext := false }

/-- STAMP_ERR and the run of bad stamps (R28, R43). -/
def badStamp (c : Cad) : Cad := dropAcquired { c with stampErr := satAdd 8 c.stampErr 1, badStamps := c.badStamps + 1 }

/-- A stamp is judged (R24, R25, R27, R28, R30); none is one that carried no bit in some beat. -/
def judgeStamp (w : Option W64) (c : Cad) : Cad :=
  let c := { c with judged := true }
  match w.filter stampValid with
  | none =>
    match c.state with
    | .internal => c
    | .holdover => { badStamp c with rct := none }
    | _ => badStamp c
  | some w =>
    let nom (c : Cad) : Cad := { c with nom60 := stampNom w == 2 }
    match c.state with
    | .internal => c
    | .unlocked => nom (acquire w { c with state := .acquiring })
    | .acquiring => nom (acquire w c)
    | .locked => if stampTurn w = ctTurn c.ct then nom { c with badStamps := 0 } else badStamp c
    | .slew => if some (stampTurn w) = c.rct.map ctTurn then nom { c with badStamps := 0 } else badStamp c
    | .holdover =>
      match c.rct with
      | some r =>
        if stampTurn w = ctTurn r then nom { c with badStamps := 0 } else nom (acquire w (dropAcquired { c with rct := none, rejected := false }))
      | none => nom (acquire w c)

/-- A beat's symbol reaches the receiver, and a stamp that it ends is judged. -/
def receive (y : Symbol) (c : Cad) : Cad :=
  let (rx, w) := takeSymbol y c.rx
  match w with
  | some w => judgeStamp w { c with rx }
  | none => { c with rx }

/-- The symbol of the beat that an edge ends, unless TURN_STAMP has taken it within the beat. -/
def receiveEnd (y : Symbol) (c : Cad) : Cad := if c.taken then { c with taken := false } else receive y c

/-- The receiver stands in beat 63 of a stamp. -/
def lastBit (c : Cad) : Bool :=
  !c.taken && match c.rx with
    | .bits l _ => l.length == 63
    | .idle _ => false

/-- TURN_STAMP: stamp bit 63 is decided from its samples within beat 63, and the stamp is judged (R24, R25, R27). INTERNAL ignores CAD± (R32). -/
def execTurnStamp (at38 at58 : Bool) (s : State) : Out :=
  if s.cad.state != .internal && lastBit s.cad then .next (followCad (setCad { receive (symbolOf at38 at58) s.cad with taken := true } s)) else .next s

/-- The turn's 64th beat edge: a turn in which no stamp was judged counts as one with an invalid stamp while a stamp is predicted (R28; DEDUCED from its
detection time, assumption 78). -/
def stampDue (c : Cad) : Cad :=
  let predicted := match c.state with
    | .locked => some c.ct
    | .slew | .holdover => c.rct
    | _ => none
  match predicted with
  | some t => if ctBeat t = 64 then { (if c.judged then c else badStamp c) with judged := false } else c
  | none => c

/-! ### CAD_OUT± (R26) -/

/-- A state in which CT runs. -/
def CadState.runs : CadState → Bool
  | .unlocked | .acquiring => false
  | _ => true

/-- SRC of the repeated stamp. -/
def outSrc (c : Cad) : Nat :=
  match c.state with
  | .internal => 2
  | .holdover | .slew => 1
  | _ => 0

/-- The stamp that CAD_OUT± repeats in the present turn: built at the turn's first edge, with its TURN, NOM and CRC of R24 and R25. -/
def makeStamp (c : Cad) : W64 :=
  let w := BitVec.ofNat 64 (0xA7 + ctTurn c.ct % 2 ^ 38 * 2 ^ 8 + (if c.nom60 then 2 else 1) * 2 ^ 46 + outSrc c * 2 ^ 48)
  BitVec.ofNat 64 (w.toNat + (stampCrc w).toNat * 2 ^ 56)

/-- CAD_OUT± in a beat: its symbol, or low. -/
def driveOut (c : Cad) : Cad :=
  if !c.outEn || !c.state.runs then { c with out := .low }
  else
    let c := if c.outTurn = some (ctTurn c.ct) then c else { c with outTurn := some (ctTurn c.ct), outStamp := makeStamp c }
    { c with out := .symbol (if ctBeat c.ct < 64 then (if c.outStamp.getLsbD (ctBeat c.ct) then .one else .zero) else .idle) }

/-- CAD_OUT± at a beat edge of the module: the symbol of the beat that begins. -/
def beginOut (c : Cad) : Cad :=
  let c := driveOut c
  match c.out with
  | .low => c
  | .symbol y => { c with outBeats := c.outBeats ++ [y] }

/-! ### Beats (R27, R30, R34) -/

def clearAper (p : PciePort) : PciePort := { p with aper := { p.aper with faulted := false } }

/-- What every beat edge of the module does beside CT, n beats after the one before: the once-per-beat marks clear, the snapshot block is rebuilt, CAD_OUT± repeats it
(R26, R511, R531, R549, R388), and a pass beat ends (R63). Without an active control complex the last block stays (R479). -/
def beatTick (n : Nat) (s : State) : State :=
  let s := { s with host := { s.host with evtSent := false, ports := mapVals clearAper s.host.ports } }
  let s := { s with fields := mapVals (fun f => { f with passNow := false }) s.fields }
  let s := { s with ports := mapVals (fun p => { p with beats := p.beats + n, sinceHello := p.sinceHello + n }) s.ports }
  let s := { s with cad := beginOut s.cad }
  if s.rel.ccFailed then s
  else { s with
    sched := s.sched.map fun e => if e.packet.opc == 0x0801 && e.block.isNone && decide (e.fire.toNat < s.cad.ct.toNat) then { e with block := some s.snap } else e
    snap := {
      seq := s.snap.seq + 1, ct := s.cad.ct, inputW := s.power.inputW, near := s.near.units, capstans := s.cap.capstans, ports := s.ports
      badTiles := s.store.badTiles, splices := s.rel.splices, rings := s.rel.ringCounts, shed := s.fields.map fun (k, f) => (k, f.phasesShed) } }

/-- The module's own beats go on up to CT t: a beat edge at each boundary between (R29, R30). -/
def ownBeats (t : CtWord) (s : State) : State :=
  let s := (List.range (t.toNat / 65536 - s.cad.ct.toNat / 65536)).foldl
    (fun s _ => beatTick 1 (setCad { s.cad with ct := ctEdge s.cad.ct 1 } s)) s
  setCad { s.cad with ct := t } s

/-- The signed difference of CT words in whole beats, rounded down (R30). -/
def beatDiff (r o : CtWord) : Int := ((r.toNat : Int) - (o.toNat : Int)) / 65536

/-- CT at a moment of the present beat: the fraction that the mesh clock has reached, which no event takes back (R31, R34). -/
def ctAt (frac : BitVec 16) (c : Cad) : CtWord :=
  let t := ctEdge c.ct 0 + frac.setWidth 64
  if c.ct.toNat ≤ t.toNat then t else c.ct

/-- The end of acquisition in HOLDOVER (R30), at received CT r and received period, when the own CT is W_o. -/
def realign (r wo : CtWord) (periodPs : Nat) (s : State) : State :=
  let c := dropAcquired { s.cad with rct := some r, missing := 0, badStamps := 0 }
  let d := beatDiff r wo
  if d.natAbs ≤ 1024 then
    let t := BitVec.ofInt 64 ((r.toNat : Int) - d * 65536)
    let s := ownBeats t (setCad c s)
    let c := { s.cad with edge := t, rejected := false, periodPs }
    setCad (if d = 0 then { c with state := .locked, rct := none } else { c with state := .slew, slewUp := decide (0 < d), slewLeft := 16 * d.natAbs }) s
  else post Ev.cadReject [] (setCad { c with ct := wo, reject := true, rejected := true } s)

/-- One received edge counts towards acquisition and moves the received CT, which counts the missing edges before it too. -/
def countEdge (c : Cad) : Cad :=
  { c with acqEdges := c.acqEdges + 1, rct := c.rct.map fun r => ctEdge r (c.missing + 1), missing := 0 }

/-- The period of R21, in picoseconds. -/
def periodOk (nom60 : Bool) (p : Nat) : Bool :=
  if nom60 then decide (15500000 ≤ p) && decide (p ≤ 17130000) else decide (18600000 ≤ p) && decide (p ≤ 20560000)

/-- A received edge lies within ±1/8 of the measured period of its predicted time (R28). -/
def inWindow (c : Cad) (offPs : Int) : Bool := decide (offPs.natAbs * 8 ≤ c.periodPs)

/-- Beats of CT at one received edge in SLEW, in units of 1/65,536: so many at 17/16 or 15/16, those after the two CTs have met at the received rate (R30). -/
def slewAdvance (c : Cad) : Nat :=
  let n := min (c.missing + 1) c.slewLeft
  n * (if c.slewUp then 0x11000 else 0xF000) + (c.missing + 1 - n) * 0x10000

/-- A received edge in HOLDOVER before acquisition has ended: it counts, and a received cadence whose period goes out of range is lost, a rejected one too (R21). -/
def holdEdge (periodPs : Nat) (c : Cad) : Cad :=
  let c := stampDue (countEdge c)
  if c.rct.isSome && !periodOk c.nom60 periodPs then dropAcquired { c with rct := none, rejected := false } else c

/-- A received edge that is accepted, at a fraction of the own CT. INTERNAL ignores CAD± (R32). -/
def acceptEdge (frac : BitVec 16) (periodPs : Nat) (y : Symbol) (s : State) : State :=
  let c := receiveEnd y s.cad
  match s.cad.state with
  | .internal => s
  | .unlocked => setCad { c with missing := 0 } s
  | .acquiring =>
    if !c.lockNext then setCad (countEdge c) s
    else if !periodOk c.nom60 periodPs then setCad (dropAcquired c) s
    else
      let t := ctMk (c.acqTurn.getD 0) 64
      let c := { c with state := .locked, ct := t, edge := t, established := true, edgeErr := 0, stampErr := 0 }
      beatTick 1 (setCad (dropAcquired { c with missing := 0, badStamps := 0, judged := false, periodPs := periodPs }) s)
  | .holdover =>
    if !c.lockNext then setCad (holdEdge periodPs c) s
    else if !periodOk c.nom60 periodPs then setCad (dropAcquired c) s
    else realign (ctMk (c.acqTurn.getD 0) 64) (ctAt frac c) periodPs (setCad { c with judged := false } s)
  | .locked =>
    let n := c.missing + 1
    let t := ctEdge c.edge n
    beatTick n (setCad (stampDue { c with ct := t, edge := t, missing := 0, periodPs := periodPs }) s)
  | .slew =>
    let n := c.missing + 1
    let left := c.slewLeft - n
    let t := c.edge + BitVec.ofNat 64 (slewAdvance c)
    let s := ownBeats t (setCad c s)
    let c := { s.cad with edge := t, slewLeft := left, rct := c.rct.map (fun r => ctEdge r n), missing := 0, periodPs := periodPs }
    setCad (if left = 0 then { stampDue c with state := .locked, rct := none } else stampDue c) s

/-- The last CT before the next beat edge: the fraction saturates at 0xFFFF. In SLEW it advances at 17/16 or 15/16 from a received edge, and the own beats have
edges of their own (R30, R34). -/
def lastCt (c : Cad) : Nat :=
  let own := c.ct.toNat / 65536 * 65536 + 0xFFFF
  if c.state == .slew then min own (c.edge.toNat + (if c.slewUp then 0x10FFF else 0xEFFF)) else own

/-- The fraction advances by one step, with the mesh clock (R34). -/
def tick (s : State) : State :=
  if ctRuns s && decide (s.cad.ct.toNat < lastCt s.cad) then setCad { s.cad with ct := s.cad.ct + 1 } s else s

/-- An edge missing from its window: EDGE_ERR counts it, the fraction saturates in LOCKED, an acquisition that it falls in begins anew, and after two in a row the
received CT is lost (R27, R28, R34). The beat that ends there has its symbol. -/
def missEdge (y : Symbol) (s : State) : State :=
  let c := receiveEnd y s.cad
  match s.cad.state with
  | .internal => s
  | .unlocked => setCad c s
  | .acquiring => setCad (dropAcquired { c with edgeErr := satAdd 8 c.edgeErr 1 }) s
  | .holdover =>
    let c := dropAcquired { c with edgeErr := satAdd 8 c.edgeErr 1, missing := c.missing + 1 }
    setCad (if 2 ≤ c.missing then { c with rct := none, rejected := false } else c) s
  | .locked | .slew => setCad { c with ct := BitVec.ofNat 64 (lastCt c), missing := c.missing + 1, edgeErr := satAdd 8 c.edgeErr 1 } s

/-- The module's own beat edge (R29, R30, R32). In SLEW it lies between received edges, where the rate brings CT to it before the next one. -/
def ownEdge (s : State) : State :=
  let t := ctEdge s.cad.ct 1
  match s.cad.state with
  | .holdover => beatTick 1 (setCad { s.cad with ct := t, edge := t, holdBeats := s.cad.holdBeats + 1 } s)
  | .internal => beatTick 1 (setCad { s.cad with ct := t, edge := t } s)
  | .slew =>
    if t.toNat ≤ s.cad.edge.toNat + (if s.cad.slewUp then 0x10FFF else 0xEFFF) then beatTick 1 (setCad { s.cad with ct := t } s) else s
  | _ => s

/-- The crossings that a beat edge sends a pulse over: those to the routers by their tiles, the watchdog kicks of the fields (at least one a beat, R459). -/
def beatPulse (k : Nat) : Bool := decide (k < 2048) || (List.range 8).any fun f => k == toggleOf f 12

/-- The domains of a toggle crossing. -/
def toggleEnds (k : Nat) : Nat × Nat := if k < 2048 then (12, 8) else (fld k 4 4, fld k 0 4)

/-- A beat edge's pulses (R36, R44, R45): a crossing that takes no event in the beat holds its pulse in the pending counter, or loses it past 15; a router there does
not see this edge. Every other copy of CT is right from the turn and beat numbers, and interrupts that waited are delivered. -/
def pulseRouters (stuck : List Nat) (s : State) : State :=
  let pulsed := stuck.filter beatPulse
  let full := pulsed.filter fun t => decide (15 ≤ lookupD 0 t s.xing.toggles)
  let s := full.foldl (fun s k => xingRecord (toggleEnds k).1 (toggleEnds k).2 false s) s
  let waiting := s.xing.irqs
  let keep := stuck.contains (toggleOf 12 14)
  let s := { s with xing := { s.xing with
    toggles := pulsed.foldl (fun t k => upsert k (min 15 (lookupD 0 k s.xing.toggles + 1)) t) [], lag := stuck, irqs := if keep then waiting else [] } }
  if keep then s else waiting.foldl (fun s x => sendMsi x.1 (BitVec.ofNat 8 x.2) s) s

/-- The crossings that a beat's pulses find stuck: those listed, and every router's where the crossing from the control complex to the mesh is closed (R46). -/
def stuckNow (s : State) (stuck : List Nat) : List Nat :=
  if xingClosed s 12 8 then List.range 2048 ++ stuck.filter (fun k => decide (2048 ≤ k)) else stuck

/-- The heartbeats of a beat edge (R477, R480): each control complex counts those that it misses in a row; of a halted standby none is awaited (R547). -/
def heartbeats (stuck : List Nat) (s : State) : State :=
  if !s.rel.standby || !stageDone s 2 then s
  else
    let lost (a b : Nat) : Bool := stuck.contains (toggleOf a b) || xingClosed s a b
    { s with rel := { s.rel with
        missed := if s.rel.ccFailed || lost 12 13 then s.rel.missed + 1 else 0
        missedBack := if lost 13 12 && !s.dbgUnit.halted.contains 1 then s.rel.missedBack + 1 else 0 } }

/-- A beat edge. -/
def beatEdge (b : BeatSignal) (stuck : List Nat) (s : State) : State :=
  let before := s.snap.seq
  let s := setCad { s.cad with outBeats := [] } s
  let s := match b with
    | .own => ownEdge s
    | .missing a38 a58 => missEdge (symbolOf a38 a58) s
    | .received frac off per a38 a58 =>
      if (s.cad.state == .locked || s.cad.state == .slew) && !inWindow s.cad off then s else acceptEdge frac per (symbolOf a38 a58) s
  if s.snap.seq = before then followCad s else followCad (heartbeats stuck (pulseRouters (stuckNow s stuck) s))

/-- The copy of CT that the router of a logical tile holds (R36): one that has not seen the present edge stands at the end of the beat before it. -/
def routerCt (s : State) (tile : Nat) : CtWord := if s.xing.lag.contains tile then ctEdge s.cad.ct 0 - 1 else s.cad.ct

/-- The number of a CT's beat, by which WAITs count beat edges (R191). -/
def beatNo (c : CtWord) : Nat := c.toNat / 65536

/-- Enter HOLDOVER and raise CAD_HOLDOVER (R29). -/
def enterHoldover (c : Cad) (s : State) : State :=
  post Ev.cadHoldover [] (setCad (dropAcquired { c with state := .holdover, holdBeats := 0, missing := 0, badStamps := 0, rct := none, rejected := false }) s)

/-- How far the module's own beats have gone when a loss is declared with so many edges missing: to the close of the last one's window (R28), n + 1/8 periods
after the last accepted edge, at the rate of SLEW there. -/
def lossCt (c : Cad) : CtWord :=
  if c.missing = 0 then c.ct
  else
    let rate := if c.state == .slew then (if c.slewUp then 0x11000 else 0xF000) else 0x10000
    let t := c.edge + BitVec.ofNat 64 (c.missing * rate + rate / 8)
    if t.toNat < c.ct.toNat then c.ct else t

/-- CADENCE_LOSS (R28): its condition holds in LOCKED or SLEW. The own beats go on from the last accepted edge. -/
def execCadenceLoss (cause : LossCause) (s : State) : Out :=
  let c := s.cad
  let here := c.state == .locked || c.state == .slew
  let lost := match cause with
    | .edges => decide (2 ≤ c.missing)
    | .stamps => decide (2 ≤ c.badStamps)
    | .period => !periodOk c.nom60 c.periodPs
  if here && lost then
    let s := ownBeats (lossCt c) s
    .next (followCad <| ledgerRec 17 0 0 0xFFFFFFFF 0xFFFFFFFF 0 [] (enterHoldover { s.cad with edge := ctEdge s.cad.ct 0, fromInternal := false } s))
  else .next s

/-- CAD_HOLDOVER: raised again after every 256 turns (R29). -/
def execCadHoldover (s : State) : Out :=
  if s.cad.state == .holdover && decide (262144 ≤ s.cad.holdBeats) then
    .next (post Ev.cadHoldover [] (setCad { s.cad with holdBeats := s.cad.holdBeats - 262144 } s))
  else .next s

/-! ### The power-turn boundary to come (R37) -/

/-- The last and the first CT of the form t:offset at or before and at or after a CT. -/
def alignDown (ct : CtWord) (off : Nat) : CtWord :=
  let t := ctTurn ct
  if (ctMk t off).toNat ≤ ct.toNat then ctMk t off else ctMk (t - 1) off
def alignUp (ct : CtWord) (off : Nat) : CtWord :=
  let t := ctTurn ct
  if ct.toNat ≤ (ctMk t off).toNat then ctMk t off else ctMk (t + 1) off

/-- The boundary still to come, or the first one. -/
def comingBoundary (s : State) : CtWord := s.power.next.getD (alignUp s.cad.ct s.cad.offset)

/-- The boundary that CT has reached: the next one, or the first one in its own beat. Where one step has taken CT past several, that is the first at which a power event
acts, else the last (R35, assumption 24). -/
def dueBoundary (s : State) : Option CtWord :=
  let a := alignDown s.cad.ct s.cad.offset
  let first := if (s.cad.ct - a).toNat < 65536 then some a else none
  match s.power.next with
  | none => first
  | some n =>
    if s.cad.ct.toNat < s.power.boundary.toNat then first
    else if s.cad.ct.toNat < n.toNat then none
    else if s.cad.nextOffset.isSome || decide (a.toNat ≤ n.toNat) then some n
    else
      let acts := (s.sched.filter fun e => e.cls == 0).map fun e => if e.fire.toNat ≤ n.toNat then n else alignUp e.fire s.cad.offset
      some (acts.foldl (fun b x => if x.toNat < b.toNat then x else b) a)

/-- The power event that every event at or after it waits for: the boundary that CT has reached but that has not been taken, or the coming one. -/
def powerAt (s : State) : CtWord := (dueBoundary s).getD (comingBoundary s)

/-! ### The order of events (R35, R38, R39) -/

/-- FIRE time, class and place in the order of dispatch: classes 0 power, 1 commit, 2 collective, 3 play, 4 telemetry, 5 calibration slots. -/
abbrev DueKey := Nat × Nat × Nat

def DueKey.before (a b : DueKey) : Bool :=
  decide (a.1 < b.1) || (a.1 == b.1 && (decide (a.2.1 < b.2.1) || (a.2.1 == b.2.1 && decide (a.2.2 < b.2.2))))

/-- Every member's ARRIVE is held. -/
def allArrived (b : BarrierRec) : Bool := (List.range b.members).all fun m => b.arrived.contains m

/-- The keys of all that waits for its FIRE time; a barrier whose ARRIVEs are not all held is not in the order (R405), and a power-class command acts at its
boundary. -/
def waitingKeys (s : State) : List DueKey :=
  ((powerAt s).toNat, 0, 0) ::
    ((match s.cap.armed with
      | some a => [(a.cp.toNat, 1, a.tag)]
      | none => []) ++
      (s.sched.filter fun e => e.cls != 0).map (fun e => (e.fire.toNat, e.cls, e.order)) ++
      (s.plays.filter fun p => p.state == .pending).map (fun p => (p.fire.toNat, 3, p.order)) ++
      (s.barriers.filter allArrived).map fun b => (b.release.toNat, 2, b.tag))

/-- Nothing that comes before a key in the order of R38 still waits. -/
def inTurn (k : DueKey) (s : State) : Bool := (waitingKeys s).all fun x => !x.before k

/-- CT reaches t in the present beat, by its fraction, or has reached it (R34, R36); none where the beat ends before. -/
def reachCt (t : CtWord) (s : State) : Option State :=
  if t.toNat ≤ s.cad.ct.toNat then some s
  else if ctRuns s && decide (t.toNat ≤ lastCt s.cad) then some (setCad { s.cad with ct := t } s)
  else none

/-- An event of a key is the next in order and CT reaches its time. -/
def comeTo (k : DueKey) (t : CtWord) (s : State) : Option State := if inTurn k s then reachCt t s else none

/-- CT is at or past t, or reaches it in the present beat before anything that waits. -/
def timeTo (t : CtWord) (s : State) : Option State :=
  if t.toNat ≤ s.cad.ct.toNat then some s else comeTo (t.toNat, 6, 0) t s

/-- No power event and no commit of the present CT or before still waits, so that events of later classes can begin (R39). -/
def settled (s : State) : Bool := (waitingKeys s).all fun k => decide (1 < k.2.1) || decide (s.cad.ct.toNat < k.1)

/-! ### CAD_CTRL (R31, R32, R42) -/

/-- The view of an access to a register that only the privileged view holds, and the gate of R488: nothing happens otherwise. -/
def privReg (h : HostAccess) (s : State) : Bool := !h.job && stageDone s 2

/-- ARG_REJECT of a register write: offset, and the status of a refusal (R543). -/
def argReject (off : Nat) (st : BitVec 16) (s : State) : State := post Ev.argReject (det [(4, off), (2, st.toNat)]) s
/-- LOCK_VIOLATION of a register write (R6), which names no item. -/
def lockViolation (s : State) : State := post Ev.lockViolation [] s

/-- The source's own period for CAD_PERIOD. -/
def nominalPs (v : BitVec 2) : Nat := if v = 1 then 19531250 else Config.nominal60

/-- A write of CAD_CTRL.SRC with the lock open. -/
def writeSrc (v : BitVec 2) (s : State) : State :=
  let c := s.cad
  if v = 3 then post Ev.argReject [] s
  else if v = 0 then
    if c.state == .internal then followCad (enterHoldover { c with src := 0, edge := ctEdge c.ct 0, fromInternal := true } s)
    else if c.established then setCad { c with src := 0 } s
    else followCad (setCad (driveOut (dropAcquired { c with src := 0, state := .unlocked })) s)
  else
    let c := { c with src := v, state := .internal, established := true, nom60 := v == 2, periodPs := nominalPs v, rct := none, edge := ctEdge c.ct 0
                      rx := .idle 0, taken := false, judged := false }
    followCad (setCad (driveOut (dropAcquired { c with missing := 0, badStamps := 0, rejected := false, slewLeft := 0 })) s)

/-- A register write, or what it does: during a takeover the ports hold up to 256 of them (R479). A closed crossing between the PCIe ports and the control complex
refuses it (R46). -/
def orHold (h : HostAccess) (off : Nat) (wide : Bool) (v : Nat) (act : State → Out) (s : State) : Out :=
  if xingClosed s 14 12 then .next s
  else if !s.rel.ccFailed then act s
  else if s.host.heldWrites.length < 256 then
    .next { s with host := { s.host with heldWrites := s.host.heldWrites ++ [(h, off, wide, BitVec.ofNat 64 v)] } }
  else .next s

/-- CAD_CTRL as it is read. -/
def cadCtrl (c : Cad) : Nat := b2n c.outEn * 4 + c.src.toNat

/-- CAD_SRC. -/
def execCadSrc (h : HostAccess) (v : BitVec 2) (s : State) : Out :=
  orHold h 0x100 false (b2n s.cad.outEn * 4 + v.toNat) (fun s =>
    if !privReg h s then .next s
    else if s.host.privOpen then .next (writeSrc v s)
    else .next (lockViolation s)) s

/-- Work that forbids a RESYNC (R31): plays, collectives (rounds of a reduce-scatter, COLL_FIREs and barriers among them) or commits pending or running. -/
def resyncBusy (s : State) : Bool :=
  !s.plays.isEmpty || s.cap.armed.isSome || s.colls.any (fun (_, c) => !c.leaves.isEmpty || !c.due.isEmpty || c.running.isSome) || !s.barriers.isEmpty ||
    s.sched.any fun e => e.cls == 2

/-- RESYNC steps CT now, where nothing forbids it (R30). -/
def canResync (s : State) : Bool := s.cad.state == .holdover && s.cad.rejected

/-- The RESYNC bit (R30, R31, R42). CAD_REJECT stands until the received cadence is lost or CT follows it: clearing CAD_STATUS.REJECT does not withdraw it (DESIGN CHOICE,
assumption 107). The spec names no state for the receiver once RESYNC has stepped CT: the model enters LOCKED at once, since its CT is then the
received CT (DESIGN CHOICE, assumption 79). -/
def doResync (s : State) : State :=
  if canResync s then
    if resyncBusy s then argReject 0x100 Status.resyncBusy s
    else match s.cad.rct with
      | some r => followCad <| setCad { s.cad with ct := r, edge := r, state := .locked, rct := none, rejected := false, missing := 0, badStamps := 0 } s
      | none => s
  else s

/-- RESYNC. -/
def execResync (h : HostAccess) (s : State) : Out :=
  orHold h 0x100 false (8 + cadCtrl s.cad) (fun s => if privReg h s then .next (doResync s) else .next s) s

/-! ### Crossings (R45 to R47) -/

/-- The control complex resets a domain's crossings (R46, R475). -/
def xingReset (d : Nat) (s : State) : State :=
  { s with xing := { s.xing with closed := s.xing.closed.filter fun p => p.1 != d && p.2 != d } }

/-- Writing ones to XING_STATUS (R47): COUNT clears when both bits are clear. The spec does not say what DST and SRC read from then on: they go back to their
reset value 0xF (DESIGN CHOICE, assumption 80). -/
def xingClear (timeout overrun : Bool) (s : State) : State :=
  let x := { s.xing with timeout := s.xing.timeout && !timeout, overrun := s.xing.overrun && !overrun }
  { s with xing := if x.timeout || x.overrun then x else { x with count := 0, dst := 15, src := 15 } }

end Sys2Proof.Machine
end

