-- ==== Sys2Proof/Machine/Operands.lean ====
section
/-! DEFINITION. Number formats, exact values, the one rounding, conversions with their scales, the dice, FP32 and FP64
arithmetic, the fixed tree, and squares in memory (chapters 04, 05, 06). -/

namespace Sys2Proof.Machine

/-! ### Element formats (R114) -/

/-- Special values of a format: none; IEEE infinities and NaNs; E4M3's single NaN. -/
inductive Specials where
  | none | ieee | e4m3
  deriving DecidableEq, Repr

/-- An element format: exponent bits, mantissa bits, bias, specials, whether overflow saturates (R128), the max as maxM * 2^maxE, canonical NaN
(R116), and whether it is the two's complement INT8. -/
structure Fmt where
  eb : Nat
  mb : Nat
  bias : Nat
  sp : Specials
  sat : Bool
  maxM : Nat
  maxE : Int
  cnan : Nat
  int : Bool := false
  deriving DecidableEq, Repr

def fp64 : Fmt := ⟨11, 52, 1023, .ieee, false, 2 ^ 53 - 1, 971, 0x7FF8000000000000, false⟩
def fp32 : Fmt := ⟨8, 23, 127, .ieee, false, 2 ^ 24 - 1, 104, 0x7FC00000, false⟩
def bf16 : Fmt := ⟨8, 7, 127, .ieee, false, 255, 120, 0x7FC0, false⟩
def fp16 : Fmt := ⟨5, 10, 15, .ieee, false, 2047, 5, 0x7E00, false⟩
def e4m3 : Fmt := ⟨4, 3, 7, .e4m3, true, 14, 5, 0x7F, false⟩
def e5m2 : Fmt := ⟨5, 2, 15, .ieee, true, 7, 13, 0x7E, false⟩
def e3m2 : Fmt := ⟨3, 2, 3, .none, true, 7, 2, 0, false⟩
def e2m3 : Fmt := ⟨2, 3, 1, .none, true, 15, -1, 0, false⟩
def e2m1 : Fmt := ⟨2, 1, 1, .none, true, 3, 1, 0, false⟩
def int8 : Fmt := ⟨0, 6, 0, .none, true, 127, -6, 0, true⟩

/-- Bits of an element. -/
def Fmt.bits (f : Fmt) : Nat := if f.int then 8 else 1 + f.eb + f.mb
/-- The exponent of the smallest grid step. -/
def Fmt.qmin (f : Fmt) : Int := if f.int then -6 else 1 - (f.bias : Int) - (f.mb : Int)

/-- The value of an element's bits (R114, R115, R117). -/
def Fmt.decode (f : Fmt) (x : Nat) : FVal :=
  if f.int then
    let q := x % 256
    if q < 128 then .fin false q (-6) else .fin true (256 - q) (-6)
  else
    let m := x % 2 ^ f.mb
    let e := x / 2 ^ f.mb % 2 ^ f.eb
    let neg := bitAt x (f.mb + f.eb)
    if f.sp = .ieee ∧ e = 2 ^ f.eb - 1 then (if m = 0 then .inf neg else .nan)
    else if f.sp = .e4m3 ∧ e = 15 ∧ m = 7 then .nan
    else if e = 0 then .fin neg m f.qmin
    else .fin neg (2 ^ f.mb + m) (f.qmin + (e : Int) - 1)

/-- How a conversion rounds (R136): to nearest even, or stochastically with the dice output r. -/
inductive Mode where
  | rne
  | sr (r : W32)
  deriving DecidableEq, Repr

/-- floor(log2(m * 2^e)) for m > 0. -/
def ilog2 (m : Nat) (e : Int) : Int := (Nat.log2 m : Int) + e

/-- The exponent of the grid step at m * 2^e (R138: above the max the grid goes on). -/
def Fmt.quantum (f : Fmt) (m : Nat) (e : Int) : Int :=
  if f.int || m = 0 then f.qmin else max (ilog2 m e - f.mb) f.qmin

/-- Shift m * 2^e to an exponent: (quotient, remainder, divisor). -/
def alignTo (m : Nat) (e q : Int) : Nat × Nat × Nat :=
  if q ≤ e then (m * 2 ^ (e - q).toNat, 0, 1)
  else
    let d := 2 ^ (q - e).toNat
    (m / d, m % d, d)

/-- Round the magnitude m * 2^e to the grid: k steps of 2^q (R138, R139). -/
def Fmt.roundMag (f : Fmt) (mode : Mode) (m : Nat) (e : Int) : Nat × Int :=
  let q := f.quantum m e
  let (k, r, d) := alignTo m e q
  let up := match mode with
    | .rne => decide (2 * r > d) || (2 * r == d && k % 2 == 1)
    | .sr t => decide (t.toNat < r * 2 ^ 32 / d)
  (if up then k + 1 else k, q)

/-- m * 2^e > n * 2^g. -/
def magGt (m : Nat) (e : Int) (n : Nat) (g : Int) : Bool :=
  let b := min e g
  decide (n * 2 ^ (g - b).toNat < m * 2 ^ (e - b).toNat)

def Fmt.signBit (f : Fmt) (neg : Bool) : Nat := if neg then 2 ^ (f.mb + f.eb) else 0

/-- The bits of k steps of 2^q, at most the max. -/
def Fmt.encodeMag (f : Fmt) (neg : Bool) (k : Nat) (q : Int) : Nat :=
  if f.int then (if neg then (256 - k) % 256 else k)
  else
    let (k, q) := if k = 2 ^ (f.mb + 1) then (2 ^ f.mb, q + 1) else (k, q)
    if k < 2 ^ f.mb then f.signBit neg + k
    else f.signBit neg + (q - f.qmin + 1).toNat * 2 ^ f.mb + (k - 2 ^ f.mb)

def Fmt.infBits (f : Fmt) (neg : Bool) : Nat := f.signBit neg + (2 ^ f.eb - 1) * 2 ^ f.mb
def Fmt.maxBits (f : Fmt) (neg : Bool) : Nat := f.encodeMag neg f.maxM f.maxE

/-- What a conversion counts (R145). -/
inductive Outcome where
  | plain | nonfinite | overflow | saturate | zeroFlush
  deriving DecidableEq, Repr

/-- Convert a wide value to an element under scale 2^s (R127 to R129; MX blocks with a NaN are handled by convLine). -/
def Fmt.convert (f : Fmt) (mode : Mode) (s : Int) (x : FVal) : Nat × Outcome :=
  match x with
  | .nan => (f.cnan, .nonfinite)
  | .inf neg => (if f.sp = .ieee then f.infBits neg else f.cnan, .nonfinite)
  | .fin neg m e =>
    let (k, q) := f.roundMag mode m (e - s)
    if magGt k q f.maxM f.maxE then
      if f.sat then (f.maxBits neg, .saturate) else (f.infBits neg, .overflow)
    else (f.encodeMag neg k q, if m ≠ 0 && k = 0 then .zeroFlush else .plain)

/-! ### FP32 and FP64 arithmetic, each result rounded once to nearest even (R136, R150) -/

def Fmt.round (f : Fmt) (x : FVal) : Nat := (f.convert .rne 0 x).1
def r32 (x : FVal) : W32 := BitVec.ofNat 32 (fp32.round x)
def r64 (x : FVal) : W64 := BitVec.ofNat 64 (fp64.round x)
def v32 (b : W32) : FVal := fp32.decode b.toNat
def v64 (b : W64) : FVal := fp64.decode b.toNat

def FVal.isNan : FVal → Bool | .nan => true | _ => false
def FVal.isInf : FVal → Bool | .inf _ => true | _ => false
def FVal.isFin : FVal → Bool | .fin .. => true | _ => false
def FVal.isZero : FVal → Bool | .fin _ m _ => m == 0 | _ => false
def FVal.sign : FVal → Bool | .nan => false | .inf n => n | .fin n _ _ => n
def FVal.neg : FVal → FVal | .nan => .nan | .inf n => .inf (!n) | .fin n m e => .fin (!n) m e
def FVal.abs : FVal → FVal | .nan => .nan | .inf _ => .inf false | .fin _ m e => .fin false m e

/-- A signed mantissa at exponent b. -/
def sm (neg : Bool) (m : Nat) (e b : Int) : Int :=
  let x : Int := (m * 2 ^ (e - b).toNat : Nat)
  if neg then -x else x

/-- The exact product (R123, R125): an infinity times a zero is NaN. -/
def FVal.mul : FVal → FVal → FVal
  | .nan, _ => .nan
  | _, .nan => .nan
  | .inf a, .inf b => .inf (a != b)
  | .inf a, .fin b m _ => if m = 0 then .nan else .inf (a != b)
  | .fin a m _, .inf b => if m = 0 then .nan else .inf (a != b)
  | .fin a m e, .fin b n g => .fin (a != b) (m * n) (e + g)

/-- The exact sum of terms with the rules of R125 and R126; the empty sum is +0. -/
def exactSum (l : List FVal) : FVal :=
  if l.any FVal.isNan then .nan
  else
    let p := l.any fun x => x.isInf && !x.sign
    let n := l.any fun x => x.isInf && x.sign
    if p && n then .nan
    else if p then .inf false
    else if n then .inf true
    else
      let b := l.foldl (fun b x => match x with | .fin _ _ e => min b e | _ => b) 0
      let t : Int := l.foldl (fun t x => match x with | .fin g m e => t + sm g m e b | _ => t) 0
      if t = 0 then .fin (l.all (fun x => x.isZero && x.sign) && !l.isEmpty) 0 0
      else .fin (decide (t < 0)) t.natAbs b

/-- Addition: the sign of a zero sum is + unless both addends are -0 (R156). -/
def FVal.add (a b : FVal) : FVal := exactSum [a, b]
def FVal.sub (a b : FVal) : FVal := a.add b.neg

/-- Quotient with 200 bits and a sticky bit: it rounds as the exact quotient does. -/
def FVal.div : FVal → FVal → FVal
  | .nan, _ => .nan
  | _, .nan => .nan
  | .inf _, .inf _ => .nan
  | .inf a, .fin b _ _ => .inf (a != b)
  | .fin a _ _, .inf b => .fin (a != b) 0 0
  | .fin a m e, .fin b n g =>
    if n = 0 then (if m = 0 then .nan else .inf (a != b))
    else
      let x := m * 2 ^ 200
      .fin (a != b) (2 * (x / n) + b2n (x % n != 0)) (e - g - 201)

/-- Bitwise integer square root: the bits below 2^b of floor(sqrt n), added to r. -/
def isqrt : Nat → Nat → Nat → Nat
  | 0, _, r => r
  | b + 1, n, r => if (r + 2 ^ b) * (r + 2 ^ b) ≤ n then isqrt b n (r + 2 ^ b) else isqrt b n r

/-- Square root with a sticky bit. -/
def FVal.sqrt : FVal → FVal
  | .nan => .nan
  | .inf n => if n then .nan else .inf false
  | .fin neg m e =>
    if m = 0 then .fin neg 0 0
    else if neg then .nan
    else
      let (m, e) := if e % 2 = 0 then (m, e) else (2 * m, e - 1)
      let x := m * 2 ^ 160
      let r := isqrt (Nat.log2 x / 2 + 1) x 0
      .fin false (2 * r + b2n (r * r != x)) (e / 2 - 81)

def add32 (a b : W32) : W32 := r32 ((v32 a).add (v32 b))
def sub32 (a b : W32) : W32 := r32 ((v32 a).sub (v32 b))
def mul32 (a b : W32) : W32 := r32 ((v32 a).mul (v32 b))
def div32 (a b : W32) : W32 := r32 ((v32 a).div (v32 b))
def sqrt32 (a : W32) : W32 := r32 (v32 a).sqrt
/-- a * b + c rounded once. -/
def fma32 (a b c : W32) : W32 := r32 (((v32 a).mul (v32 b)).add (v32 c))
def add64 (a b : W64) : W64 := r64 ((v64 a).add (v64 b))
def mul64 (a b : W64) : W64 := r64 ((v64 a).mul (v64 b))
def div64 (a b : W64) : W64 := r64 ((v64 a).div (v64 b))
def sqrt64 (a : W64) : W64 := r64 (v64 a).sqrt

def isNan32 (a : W32) : Bool := (v32 a).isNan
def isFin32 (a : W32) : Bool := (v32 a).isFin
def isFin64 (a : W64) : Bool := (v64 a).isFin
def cnan32 : W32 := 0x7FC00000
def inf32 : W32 := 0x7F800000

/-- The order of non-NaN values with -0 below +0 (R152), and without that distinction (`ltVal`). -/
def keyOf (x : W32) : Int := if x.getLsbD 31 then -((x.toNat % 2 ^ 31 : Nat) : Int) - 1 else (x.toNat : Int)
def ltTotal (a b : W32) : Bool := decide (keyOf a < keyOf b)
def ltVal (a b : W32) : Bool :=
  if a.toNat % 2 ^ 31 = 0 ∧ b.toNat % 2 ^ 31 = 0 then false else ltTotal a b
/-- The order of FP64 values that are not NaN. -/
def key64 (x : W64) : Int := if x.getLsbD 63 then -((x.toNat % 2 ^ 63 : Nat) : Int) else (x.toNat : Int)
def lt64 (a b : W64) : Bool := decide (key64 a < key64 b)

/-- MAX and MIN of R152. -/
def max32 (a b : W32) : W32 := if isNan32 a || isNan32 b then cnan32 else if ltTotal a b then b else a
def min32 (a b : W32) : W32 := if isNan32 a || isNan32 b then cnan32 else if ltTotal b a then b else a

/-- A positive integer as FP32. -/
def ofNat32 (n : Nat) : W32 := r32 (.fin false n 0)

/-! ### Approximated functions (R154, R155; assumption 2) -/

/-- FN codes of the approximated functions (R200). -/
inductive Approx where
  | rcp | rsqrt | exp2 | log2 | exp | log | tanh | sigmoid | erf | sin | cos
  deriving DecidableEq, Repr

def Approx.code : Approx → Nat
  | .rcp => 0 | .rsqrt => 1 | .exp2 => 2 | .log2 => 3 | .exp => 4 | .log => 5
  | .tanh => 6 | .sigmoid => 7 | .erf => 8 | .sin => 9 | .cos => 10

/-- The bound of R154 in units in the last place of the result. -/
def Approx.ulps : Approx → Nat
  | .rcp | .rsqrt | .exp2 | .log2 => 1
  | _ => 2

/-! Values in units of 2^-600: every finite FP32 value is exact, and the series below err by less than 2^-580. -/

def fixOne : Int := 2 ^ 600
def fixMul (a b : Int) : Int := a * b / fixOne
def fixDiv (a b : Int) : Int := a * fixOne / b
/-- A finite value in those units, and back. -/
def fixOf : FVal → Int
  | .fin neg m e => sm neg m e (-600)
  | _ => 0
def ofFix (x k : Int) : FVal := .fin (decide (x < 0)) x.natAbs (k - 600)

/-- The sum of terms t, t * r / d n, t * r^2 / (d n * d (n + 1)), … with fuel. -/
def fixSeries (r : Int) (d : Nat → Int) : Nat → Nat → Int → Int
  | 0, _, _ => 0
  | k + 1, n, t => t + fixSeries r d k (n + 1) (fixMul t r / d n)
/-- atanh and atan of 1/n as odd power series: p is the present power of 1/n. -/
def fixAtan (alt : Bool) (n : Int) : Nat → Nat → Int → Int
  | 0, _, _ => 0
  | k + 1, i, p => p / ((2 * i + 1 : Nat) : Int) + (if alt then -1 else 1) * fixAtan alt n k (i + 1) (p / (n * n))
/-- The odd power series of atanh at z. -/
def fixAtanh (z : Int) : Nat → Nat → Int → Int
  | 0, _, _ => 0
  | k + 1, i, p => p / ((2 * i + 1 : Nat) : Int) + fixAtanh z k (i + 1) (fixMul (fixMul p z) z)

def fixLn2 : Int := 2 * fixAtan false 3 200 0 (fixOne / 3)
def fixPi : Int := 16 * fixAtan true 5 140 0 (fixOne / 5) - 4 * fixAtan true 239 50 0 (fixOne / 239)
/-- e^r for 0 ≤ r < 1. -/
def fixExp0 (r : Int) : Int := fixSeries r (fun n => ((n + 1 : Nat) : Int)) 150 0 fixOne
/-- e^x as y * 2^(k - 600). -/
def fixExp (x : Int) : Int × Int :=
  let k := x / fixLn2
  (fixExp0 (x - k * fixLn2), k)
/-- e^x for x ≤ 0. -/
def fixExpNeg (x : Int) : Int :=
  let (y, k) := fixExp x
  y / 2 ^ (-k).toNat
/-- The natural logarithm of m * 2^e. -/
def fixLn (m : Nat) (e : Int) : Int :=
  let l := ilog2 m e
  let z := sm false m (e - l) (-600)
  let t := fixDiv (z - fixOne) (z + fixOne)
  l * fixLn2 + 2 * fixAtanh t 200 0 t
/-- erf by its alternating series. -/
def fixErf (x : Int) : Int :=
  let q := fixMul x x
  let terms := (List.range 700).foldl (fun (a : Int × Int) n => (a.1 + a.2 / ((2 * n + 1 : Nat) : Int), -(fixMul a.2 q) / ((n + 1 : Nat) : Int))) (0, x)
  let root : Int := (isqrt 620 (fixPi * fixOne).toNat 0 : Nat)
  fixDiv (2 * terms.1) root
/-- sin (or cos) after the reduction by 2 pi. -/
def fixSin (cos : Bool) (x : Int) : Int :=
  let r := x % (2 * fixPi)
  if cos then fixSeries (-(fixMul r r)) (fun n => (((2 * n + 1) * (2 * n + 2) : Nat) : Int)) 120 0 fixOne
  else fixSeries (-(fixMul r r)) (fun n => (((2 * n + 2) * (2 * n + 3) : Nat) : Int)) 120 0 r

/-- x held between -n and n. -/
def fixClamp (n x : Int) : Int := max (-(n * fixOne)) (min (n * fixOne) x)

/-- The value of an approximated function at a finite input of its domain, to far more bits than an FP32 result has. -/
def Approx.exact (f : Approx) (b : W32) : FVal :=
  let v := v32 b
  let x := fixOf v
  match f with
  | .rcp => FVal.div (.fin false 1 0) v
  | .rsqrt => FVal.div (.fin false 1 0) v.sqrt
  | .exp => let r := fixExp (fixClamp 300 x); ofFix r.1 r.2
  | .exp2 => let y := fixClamp 300 x; let k := y / fixOne; ofFix (fixExp0 (fixMul (y - k * fixOne) fixLn2)) k
  | .log => match v with | .fin _ m e => ofFix (fixLn m e) 0 | _ => v
  | .log2 => match v with | .fin _ m e => ofFix (fixDiv (fixLn m e) fixLn2) 0 | _ => v
  | .tanh =>
    let t := fixExpNeg (-2 * (fixClamp 100 x).natAbs)
    let y := fixDiv (fixOne - t) (fixOne + t)
    ofFix (if x < 0 then -y else y) 0
  | .sigmoid =>
    let t := fixExpNeg (-(fixClamp 300 x).natAbs)
    ofFix (if x < 0 then fixDiv t (fixOne + t) else fixDiv fixOne (fixOne + t)) 0
  | .erf => ofFix (fixErf (fixClamp 10 x)) 0
  | .sin => ofFix (fixSin false x) 0
  | .cos => ofFix (fixSin true x) 0

/-- The FP32 value number o in the order of values. -/
def ordBits (o : Int) : W32 := BitVec.ofNat 32 (if o < 0 then 2 ^ 31 + o.natAbs else o.natAbs)
/-- y lies within n units in the last place of x. -/
def withinUlps (n : Nat) (y : W32) (x : FVal) : Bool :=
  match (v32 y).sub x with
  | .fin _ m e => !magGt m e n (max (y.toNat / 2 ^ 23 % 256 : Nat) 1 - 150)
  | _ => false

/-- The FP32 results within n units in the last place of an exact value (R154); beyond the range of FP32, the infinity. -/
def ulpSet (n : Nat) (x : FVal) : List W32 :=
  match x with
  | .fin neg m e =>
    if m ≠ 0 && decide (128 ≤ ilog2 m e) then [r32 (.inf neg)]
    else
      let c : Int := (fp32.round x.abs : Nat)
      let c := if neg then -c else c
      let near := (List.range (2 * n + 3)).flatMap fun k =>
        let o := c + (k : Int) - ((n + 1 : Nat) : Int)
        if 0x7F800000 ≤ o.natAbs then [] else if o = 0 then [ordBits 0, 0x80000000] else [ordBits o]
      (near.filter fun y => withinUlps n y x) ++ (if isFin32 (r32 x) then [] else [r32 x])
  | _ => [r32 x]

/-- A function's fixed result for an input: some result within its bound (R155; assumption 2). -/
def approxPick (f : Approx) (b : W32) : W32 :=
  let x := f.exact b
  let l := ulpSet f.ulps x
  l.getD ((Config.plyFn f.code b).toNat % max l.length 1) (r32 x)

/-- The result of an approximated function: the special values of R154, else the fixed function. -/
def approx (f : Approx) (b : W32) : W32 :=
  let neg := b.getLsbD 31
  let zero := b.toNat % 2 ^ 31 == 0
  let inf := b.toNat % 2 ^ 31 == 0x7F800000
  let one : W32 := 0x3F800000
  let mone : W32 := 0xBF800000
  if isNan32 b then cnan32
  else match f with
    | .rcp => if zero then r32 (.inf neg) else if inf then r32 (.fin neg 0 0) else approxPick f b
    | .rsqrt => if zero then r32 (.inf neg) else if neg then cnan32 else if inf then 0 else approxPick f b
    | .exp2 | .exp => if inf then (if neg then 0 else inf32) else approxPick f b
    | .log2 | .log => if zero then 0xFF800000 else if neg then cnan32 else if inf then inf32 else approxPick f b
    | .tanh | .erf => if inf then (if neg then mone else one) else approxPick f b
    | .sigmoid => if inf then (if neg then 0 else one) else approxPick f b
    | .sin | .cos =>
      if inf then cnan32
      else if b.toNat % 2 ^ 31 ≤ 0x47800000 then approxPick f b
      else
        let y := Config.plyFn f.code b
        if isNan32 y then one else if ltVal y mone then mone else if ltVal one y then one else y

/-! ### The fixed tree (R156) -/

/-- One level of the tree: neighbours combined, a present child without a partner passed up. -/
def treeLevel {α : Type} (op : α → α → α) : List α → List α
  | a :: b :: r => op a b :: treeLevel op r
  | l => l

/-- Levels with fuel. -/
def treeFuel {α : Type} (op : α → α → α) : Nat → List α → List α
  | 0, l => l
  | n + 1, l => if l.length ≤ 1 then l else treeFuel op n (treeLevel op l)

/-- The root of the tree over a row; d for an empty row. -/
def tree {α : Type} (d : α) (op : α → α → α) (l : List α) : α := (treeFuel op (l.length) l).headD d

/-! ### The dice (R140) -/

def mix (z : W64) : W64 :=
  let z := (z ^^^ (z >>> 31)) * 0xD6E8FEB86659FD93#64
  let z := (z ^^^ (z >>> 29)) * 0xA0761D6478BD642F#64
  z ^^^ (z >>> 32)

/-- The 32-bit dice output: seed, step, SID, site, index (R140, R141). -/
def dice (seed : W64) (step sid : W32) (site idx : Nat) : W32 :=
  let h := mix (seed + 0x9E3779B97F4A7C15#64)
  let h := mix (h ^^^ step.setWidth 64)
  let h := mix (h ^^^ ((BitVec.ofNat 64 (site % 16) <<< 32) ||| sid.setWidth 64))
  let h := mix (h ^^^ BitVec.ofNat 64 (idx % 2 ^ 48))
  (h >>> 32).setWidth 32

/-! ### Format codes and squares (R90 to R98) -/

/-- The element format of a code. -/
def elemFmt : Nat → Fmt
  | 0 => fp32 | 1 => bf16 | 2 => fp16 | 3 => e4m3 | 4 => e5m2 | 5 => e4m3 | 6 => e5m2 | 7 => e4m3 | 8 => e5m2
  | 9 => e4m3 | 10 => e5m2 | 11 => e3m2 | 12 => e2m3 | 13 => e2m1 | _ => int8

def fmtValid (c : Nat) : Bool := decide (c < 15)
def fmtBits (c : Nat) : Nat := (elemFmt c).bits
def fmtHdr (c : Nat) : Nat := if c < 5 then 0 else if c < 9 then 128 else 640
def sqSize (c : Nat) : Nat := fmtHdr c + 2048 * fmtBits c
def fmtMx (c : Nat) : Bool := decide (9 ≤ c) && decide (c ≤ 14)
def fmtScaled (c : Nat) : Bool := decide (5 ≤ c) && decide (c ≤ 14)
def fmtTensor (c : Nat) : Bool := c == 5 || c == 6
def fmtSquare (c : Nat) : Bool := c == 7 || c == 8
/-- A format whose SCALE field counts: tensor- or square-scaled. -/
def fmtScaleField (c : Nat) : Bool := fmtTensor c || fmtSquare c
/-- FP32, BF16 and FP16 squares are wide. -/
def fmtWide (c : Nat) : Bool := decide (c < 3)
/-- e_elem (R130). -/
def eElem (c : Nat) : Int :=
  match c with
  | 3 | 5 | 7 | 9 => 8
  | 4 | 6 | 8 | 10 => 15
  | 11 => 4
  | 12 => 2
  | 13 => 2
  | _ => 0

/-- Rate r of a format (R121): cycles per admitted row. -/
def fmtRate (c : Nat) : Nat := if c = 0 then 8 else if c ≤ 2 then 2 else 1
/-- A legal format pair (R121). -/
def pairOk (a b : Nat) : Bool := fmtValid a && fmtValid b && ((a == 13) == (b == 13))

/-- Where element (i, j) of a square lies: byte offset and bit (R92). -/
def elemPos (c i j : Nat) : Nat × Nat :=
  let e := fmtBits c
  let bit := e * ((i + j) % 128)
  (fmtHdr c + i * 16 * e + bit / 8, bit % 8)

/-- Raw bits of element (i, j) of the square at base. -/
def sqBits (s : State) (base c i j : Nat) : Nat :=
  let (o, b) := elemPos c i j
  readN s (base + o) (if fmtBits c = 32 then 4 else 2) / 2 ^ b % 2 ^ fmtBits c

/-- Set the raw bits of element (i, j). -/
def sqSetBits (base c i j v : Nat) (s : State) : State :=
  let (o, b) := elemPos c i j
  let n := (b + fmtBits c + 7) / 8
  let w := readN s (base + o) n
  writeN (base + o) n (w - w / 2 ^ b % 2 ^ fmtBits c * 2 ^ b + v % 2 ^ fmtBits c * 2 ^ b) s

/-- Descriptor fields (R95). -/
def sqFmt (s : State) (base : Nat) : Nat := readN s base 1 % 16
def sqAxis (s : State) (base : Nat) : Nat := readN s base 1 / 16 % 2
def sqScale (s : State) (base : Nat) : W32 := BitVec.ofNat 32 (readN s (base + 4) 4)
def sqAmax (s : State) (base : Nat) : W32 := BitVec.ofNat 32 (readN s (base + 8) 4)

/-- A valid SCALE: a positive normal power of two (R120). -/
def scaleValid (x : W32) : Bool :=
  x.toNat % 2 ^ 23 == 0 && decide (1 ≤ x.toNat / 2 ^ 23) && decide (x.toNat / 2 ^ 23 ≤ 254)

/-- The scale byte's index of element (i, j) in an MX square (R96). -/
def mxIndex (axis i j : Nat) : Nat := if axis = 0 then 4 * i + j / 32 else 4 * j + i / 32

/-- Multiply by 2^s. -/
def FVal.scale (s : Int) : FVal → FVal
  | .fin n m e => .fin n m (e + s)
  | x => x

/-- The decoded value of element (i, j) (R118, R119). -/
def sqElem (s : State) (base c i j : Nat) : FVal :=
  let x := (elemFmt c).decode (sqBits s base c i j)
  if fmtScaleField c then x.scale ((((sqScale s base).toNat / 2 ^ 23 : Nat) : Int) - 127)
  else if fmtMx c then
    let b := (readByte s (base + 128 + mxIndex (sqAxis s base) i j)).toNat
    if b = 255 then .nan else x.scale ((b : Int) - 127)
  else x

/-- A line of a square: 128 elements of row i, or of column i under TRANS (R99). -/
def sqLine (s : State) (base c i : Nat) (trans : Bool) : List FVal :=
  (List.range 128).map fun j => if trans then sqElem s base c j i else sqElem s base c i j

/-- The decoded values of a line as FP32 (R149). -/
def sqLine32 (s : State) (base c i : Nat) (trans : Bool) : List W32 := (sqLine s base c i trans).map r32

/-- The checks of an operand square (R97, R120): the status of the first that fails, format before scale. -/
def sqCheck (s : State) (base c : Nat) : Option (BitVec 16) :=
  if fmtScaled c && sqFmt s base != c then some Status.fmtMismatch
  else if fmtScaleField c && !scaleValid (sqScale s base) then some Status.scaleInvalid
  else none

/-- A write to the near tier passes the retired granules; any other store is written as it is. -/
def busWrite (a : Nat) (l : List Byte) (s : State) : State := if a < nearEnd then nearWrite a l l.length s else writeBytes a l s

/-- Write the body line of raw elements, element j of row i in its slot (R92). -/
def sqWriteLine (base c i : Nat) (el : List Nat) (s : State) : State :=
  let e := fmtBits c
  let w := (List.range 128).foldl (fun w k => w + (el.getD ((k + 128 - i % 128) % 128) 0) % 2 ^ e * 2 ^ (e * k)) 0
  busWrite (base + fmtHdr c + i * 16 * e) (toLE (16 * e) w) s

/-- The elements of lines [i, 128) of a square are padding, written as +0 (R98). -/
def padBody (base c i : Nat) (s : State) : State :=
  busWrite (base + fmtHdr c + i * 16 * fmtBits c) (List.replicate ((128 - i) * 16 * fmtBits c) 0) s

/-- Padding lines with their scale bytes: in an MX square of AXIS 0 those become 127 (assumption 84). -/
def padLines (base c i : Nat) (s : State) : State :=
  let s := padBody base c i s
  if fmtMx c then busWrite (base + 128 + 4 * i) (List.replicate (4 * (128 - i)) 127) s else s

/-- Write a column of raw elements (a line under TRANS). -/
def sqWriteCol (base c j : Nat) (el : List Nat) (s : State) : State :=
  (List.range 128).foldl (fun s i => sqSetBits base c i j (el.getD i 0) s) s

/-- Write a descriptor line (R95). -/
def sqWriteDesc (base c axis : Nat) (scale amax : W32) (s : State) : State :=
  busWrite base (toLE 4 (c + axis * 16) ++ toLE 4 scale.toNat ++ toLE 4 amax.toNat ++ List.replicate 116 0) s

/-! ### Scales (R130, R131) -/

/-- The largest finite magnitude of a list, as (mantissa, exponent); (0, 0) when none is positive. -/
def amaxFin (l : List FVal) : Nat × Int :=
  l.foldl (fun (a : Nat × Int) x => match x with
    | .fin _ m e => if magGt m e a.1 a.2 then (m, e) else a
    | _ => a) (0, 0)

/-- The AMAX field of wide values (R133). -/
def amax32 (l : List FVal) : W32 :=
  if l.all FVal.isFin then r32 (.fin false (amaxFin l).1 (amaxFin l).2) else inf32

/-- The amax of wide values in a destination format (R133): +infinity too where an element that is written overflowed to an infinity. -/
def heldAmax (c : Nat) (el : List Nat) (xs : List FVal) : W32 :=
  if fmtWide c && el.any (fun v => !((elemFmt c).decode v).isFin) then inf32 else amax32 xs

/-- MAX of two AMAX values. -/
def amaxMax (a b : W32) : W32 := if a.toNat < b.toNat then b else a

/-- s of R131 for a destination code, from the amax m * 2^e and a margin, clamped. -/
def scaleExp (c : Nat) (m : Nat) (e : Int) (margin : Nat) (lo : Int) : Int :=
  if m = 0 then 0 else max lo (min 127 (ilog2 m e - eElem c + margin))

/-- 2^s as an FP32 SCALE. -/
def scale32 (s : Int) : W32 := BitVec.ofNat 32 ((s + 127).toNat * 2 ^ 23)

/-- The scale exponent from an AMAX field: a zero amax gives 1.0 (R131), and so does an infinite one, as R168 says of a tensor-scaled PACK; of a square-scaled
PACK the spec does not say it (DESIGN CHOICE, assumption 85). -/
def scaleOfAmax (c : Nat) (a : W32) (margin : Nat) : Int :=
  match v32 a with
  | .fin _ m e => scaleExp c m e margin (-126)
  | _ => 0

/-- Add an outcome to counts (R145): a conversion into FP32 counts only NONFINITE, and no conversion. -/
def Counts.add (k : Counts) (fp32Dst : Bool) (o : Outcome) : Counts :=
  let k := if fp32Dst then k else { k with conv := k.conv + 1 }
  match o with
  | .plain => k
  | .nonfinite => { k with nonfinite := k.nonfinite + 1 }
  | .overflow => if fp32Dst then k else { k with overflow := k.overflow + 1 }
  | .saturate => if fp32Dst then k else { k with saturate := k.saturate + 1 }
  | .zeroFlush => if fp32Dst then k else { k with zeroFlush := k.zeroFlush + 1 }

/-- The rounding mode of an element: FP32 destinations and RNE moves to nearest even, else the dice (R136, R137). -/
def modeOf (c : Nat) (sr : Bool) (r : W32) : Mode := if c = 0 || !sr then .rne else .sr r

/-- Convert elements under one scale 2^s, element j with dice r j. -/
def convRun (c : Nat) (sr : Bool) (r : Nat → W32) (s : Int) (start : Nat) (xs : List FVal) (k : Counts) : List Nat × Counts :=
  let l := xs.mapIdx fun j x => (elemFmt c).convert (modeOf c sr (r (start + j))) s x
  (l.map Prod.fst, l.foldl (fun k y => k.add (c == 0) y.2) k)

/-- An MX block: its scale byte, elements and counts (R118, R129, R131). -/
def convBlock (c margin : Nat) (sr : Bool) (r : Nat → W32) (start : Nat) (xs : List FVal) (k : Counts) : Nat × List Nat × Counts :=
  if xs.all FVal.isFin then
    let a := amaxFin xs
    let e := scaleExp c a.1 a.2 margin (-127)
    let (el, k) := convRun c sr r e start xs k
    ((e + 127).toNat, el, k)
  else
    (255, xs.map fun _ => 0, xs.foldl (fun k x => k.add false (if x.isFin then .plain else .nonfinite)) k)

/-- Convert a line of 128 values: raw elements, four scale bytes (MX only), counts. -/
def convLine (c margin : Nat) (sr : Bool) (r : Nat → W32) (s : Int) (xs : List FVal) (k : Counts) : List Nat × List Nat × Counts :=
  if fmtMx c then
    (List.range 4).foldl (fun (a : List Nat × List Nat × Counts) b =>
      let (sc, el, k) := convBlock c margin sr r (32 * b) ((xs.drop (32 * b)).take 32) a.2.2
      (a.1 ++ el, a.2.1 ++ [sc], k)) ([], [], k)
  else
    let (el, k) := convRun c sr r s 0 xs k
    (el, [], k)

/-! ### The index of an element (R143, R566) -/

/-- idx from tensor coordinates under a frame; dflt stands where DN is 0 (the default frame). -/
def frameIdx (f : Frame) (dflt r q : Nat) : Nat :=
  let dn := if f.dn = 0 then dflt else f.dn
  (if f.dtr then q * dn + r else r * dn + q) % 2 ^ 48

/-- Coordinates of element j of line k of a run of squares (ELEM, PACK). -/
def runCoord (f : Frame) (k j : Nat) : Nat × Nat :=
  let g := max f.g 1
  let sq := f.row0 / 128 * g + f.col0 / 128 + k / 128
  (128 * (sq / g) + k % 128, 128 * (sq % g) + j)

/-! ### Exact accumulators (R298) -/

/-- Add an exact value to an exact accumulator. -/
def Exact.add (a : Exact) (x : FVal) : Exact :=
  match x with
  | .nan => { a with nan := true }
  | .inf n => if n then { a with ninf := true } else { a with pinf := true }
  | .fin g m e =>
    let b := min a.e e
    { a with m := a.m * (2 ^ (a.e - b).toNat : Nat) + sm g m e b, e := b }

/-- What an accumulator holds. -/
def Exact.val (a : Exact) : FVal :=
  if a.nan || (a.pinf && a.ninf) then .nan
  else if a.pinf then .inf false
  else if a.ninf then .inf true
  else .fin (decide (a.m < 0)) a.m.natAbs a.e

/-- Its FP64 value. -/
def Exact.f64 (a : Exact) : W64 := r64 a.val

end Sys2Proof.Machine
end

