-- ==== Sys2Proof/Machine/Flags.lean ====
section
/-! DEFINITION. The numeric counters and alarms: watch slots, the evaluation of a step, the stall runs, the audit results (R145, R354 to R361). -/

namespace Sys2Proof.Machine

/-- The OTHER slot (R354). -/
def otherSlot : Slot := { sflags := 1 }

def getSlot (s : State) (n : Nat) : Slot := lookupD (if n = 1023 then otherSlot else {}) n s.watch.slots
def setSlot (n : Nat) (x : Slot) (s : State) : State := { s with watch := { s.watch with slots := upsert n x s.watch.slots } }
def Slot.valid (x : Slot) : Bool := x.sflags.getLsbD 0

/-- The slot that watches a SID: the valid one with that SID, else OTHER. -/
def slotOf (s : State) (sid : W32) : Nat :=
  match s.watch.slots.find? fun (n, x) => n != 1023 && x.valid && x.sid == sid with
  | some (n, _) => n
  | none => 1023

/-- Saturating addition of counts, w bits each (R354). -/
def Counts.plus (w : Nat) (a b : Counts) : Counts :=
  { conv := satAdd w a.conv b.conv, nonfinite := satAdd w a.nonfinite b.nonfinite, overflow := satAdd w a.overflow b.overflow,
    saturate := satAdd w a.saturate b.saturate, zeroFlush := satAdd w a.zeroFlush b.zeroFlush }

/-- Count conversions under a SID and a step (R355): at or below COMMITTED they go to the totals. -/
def countConv (sid step : W32) (k : Counts) (s : State) : State :=
  let n := slotOf s sid
  let x := getSlot s n
  let x := if step.toNat ≤ s.cap.committed.toNat then { x with totals := x.totals.plus 64 k }
    else { x with open_ := x.open_.plus 40 k }
  setSlot n x s

/-- Every slot, OTHER included. -/
def mapSlots (f : Slot → Slot) (s : State) : State :=
  { s with watch := { s.watch with slots := mapVals f s.watch.slots } }

/-- A step closes at a commit or veto: its counts await evaluation (R354, R356). -/
def closeCounts (s : State) : State := mapSlots (fun x => { x with wait := x.open_, open_ := {} }) s
/-- An aborted step's counts are discarded (R356). -/
def dropOpen (s : State) : State := mapSlots (fun x => { x with open_ := {} }) s
/-- A retraction discards the counts of both steps (R356). -/
def dropBoth (s : State) : State := mapSlots (fun x => { x with open_ := {}, wait := {} }) s

/-- Post an event of a step. -/
def postStep (code : Nat) (step : W32) (d : List Byte) (s : State) : State := postFull code 3 0xFFFFFFFF 0 step d s

/-- STALL when a run reaches STALL_N or a multiple (R361). -/
def stallDue (s : State) (run : Nat) : Bool :=
  s.watch.stallEn && decide (0 < run) && s.watch.stallN != 0 && run % s.watch.stallN.toNat == 0

/-- Evaluate one slot for a step (R356, R357, R360, R361). -/
def evalSlot (step : W32) (vetoed : Bool) (s : State) (n : Nat) : State :=
  let x := getSlot s n
  let k := x.wait
  let starved := n != 1023 && x.valid && x.sflags.getLsbD 1 && decide (s.watch.uflow.toNat * k.conv < k.zeroFlush * 256)
  let run := if vetoed || !x.valid then x.run else if starved then satAdd 16 x.run 1 else 0
  let x := { x with totals := x.totals.plus 64 k, wait := {}, run }
  let x := { x with evalStep := step, evalCounts := k, evalTotals := x.totals, evalRun := run }
  let x := { x with evalAudN := x.audN, evalAudOver := x.audOver, evalAudWorst := x.audWorst }
  let s := setSlot n x s
  if x.valid then
    let sid := x.sid.toNat
    let s := if 0 < k.nonfinite then postStep Ev.nonfinite step (det [(4, sid), (8, k.nonfinite)]) s else s
    let s := if 0 < k.overflow then postStep Ev.overflow step (det [(4, sid), (8, k.overflow)]) s else s
    let s := if x.satx != 0 && decide (x.satx.toNat * k.conv < k.saturate * 256) then
      postStep Ev.saturation step (det [(4, sid), (8, k.saturate), (8, k.conv)]) s else s
    if starved && !vetoed && stallDue s run then postStep Ev.stall step (det [(2, n), (4, sid), (2, run)]) s else s
  else s

/-- An entry is starved by a committed step (R360): its group does not carry FREEZE, EXPECT is not 0, every row is zero. -/
def entryStarved (groups : Table Group) (e : Ledger) : Bool :=
  e.flags.getLsbD 0 && !(lookupD {} e.group groups).freeze && e.expect != 0 && e.snap.zrows == e.rows

/-- Evaluate one ledger entry (R357, R361). -/
def evalEntry (step : W32) (vetoed : Bool) (groups : Table Group) (s : State) (n : Nat) : State :=
  match lookup n s.cap.ledger with
  | none => s
  | some e =>
    let s := if 0 < e.snap.nonfin then postStep Ev.nonfinGrad step (det [(2, n), (4, e.tensor.toNat), (4, e.snap.nonfin)]) s else s
    if vetoed then s
    else
      let starved := entryStarved groups e
      let run := if starved then satAdd 16 e.stall 1 else 0
      let s := { s with cap := { s.cap with ledger := upsert n { e with stall := run } s.cap.ledger } }
      if starved && stallDue s run then postStep Ev.stall step (det [(2, n), (4, e.tensor.toNat), (2, run)]) s else s

/-- The evaluation of a committed or vetoed step at the close of its outcome window; OTHER is always valid (R354). -/
def evaluate (step : W32) (vetoed : Bool) (groups : Table Group) (s : State) : State :=
  let slots := s.watch.slots.map Prod.fst
  let s := (if slots.contains 1023 then slots else slots ++ [1023]).foldl (evalSlot step vetoed) s
  (s.cap.ledger.map Prod.fst).foldl (evalEntry step vetoed groups) s

/-- Record an audit sample in its slot (R353); which of a NaN and a number is the larger is a free value. -/
def slotAudit (sid rho : W32) (isOver : Bool) (s : State) : State :=
  let n := slotOf s sid
  let x := getSlot s n
  let (f, s) := if isNan32 rho then draw s else (0, s)
  let worst := if isNan32 rho then f.setWidth 32 else if ltVal x.audWorst rho then rho else x.audWorst
  setSlot n { x with audN := satAdd 32 x.audN 1, audOver := if isOver then satAdd 32 x.audOver 1 else x.audOver, audWorst := worst } s

/-- ρ of R353 from the drain's results n and the audit tile's results w: the sums as R298 reads them, the root of their quotient rounded once
(DEDUCED, assumption 12). -/
def auditRho (n w : List W32) : W32 :=
  if !(n.all isFin32 && w.all isFin32) then cnan32
  else
    let p := n.zip w
    let esq := p.foldl (fun (a : Exact) (x : W32 × W32) =>
      let d := v64 (r64 ((v32 x.1).sub (v32 x.2)))
      a.add (d.mul d)) {}
    let wsq := w.foldl (fun (a : Exact) x => a.add ((v32 x).mul (v32 x))) {}
    if wsq.m = 0 then (if esq.m = 0 then 0 else inf32)
    else r32 ((v64 esq.f64).div (v64 wsq.f64)).sqrt

/-- The comparison of R347: none when both values are non-finite, else whether it fails. -/
def tallyFails (tolx : Nat) (c s a : W32) : Option Bool :=
  match isFin32 c, isFin32 s with
  | false, false => none
  | true, true =>
    let lhs := (sub32 c s).toNat % 2 ^ 31
    let rhs := mul32 (r32 (.fin false 1 (-(tolx : Int)))) (add32 a (BitVec.ofNat 32 (c.toNat % 2 ^ 31)))
    some (ltVal rhs (BitVec.ofNat 32 lhs))
  | _, _ => some true

end Sys2Proof.Machine
end

