-- ==== Sys2Proof/Machine/Repair.lean ====
section
/-! DEFINITION. Units that fail and what takes their place, for every engine that meets them: the rim's stripes and ledger entries, a capstan that fails, near channels
and their migration, restored granules, rim rows, parity with its retries, suspects (chapters 10, 11, 16). -/

namespace Sys2Proof.Machine

/-! ### The rim (R219, R302 to R304) -/

def stripe : Nat := 0xE00000000
def bankBytes : Nat := 0x700000000
def bankUnits : Nat := 7340032

/-- The alternate bank: true for B. -/
def altBank (s : State) : Bool := !s.cap.cur

/-- First byte of an entry in a bank. -/
def Ledger.base (e : Ledger) (bank : Bool) : Nat := rimBase + e.cap * stripe + (if bank then bankBytes else 0) + e.sbase * 4096
/-- Weight and moment of element (o, i). -/
def Ledger.wAddr (e : Ledger) (bank : Bool) (o i : Nat) : Nat := e.base bank + 4 * (o * e.cols + i)
def Ledger.mAddr (e : Ledger) (bank : Bool) (o i : Nat) : Nat := e.base bank + 4 * e.rows * e.cols + 4 * (o * e.cols + i)
/-- 4 KiB units of an entry in each bank. -/
def Ledger.units (e : Ledger) : Nat := cdiv (8 * e.rows * e.cols) 4096
def Ledger.valid (e : Ledger) : Bool := e.flags.getLsbD 0
def Ledger.vector (e : Ledger) : Bool := e.flags.getLsbD 1
def Ledger.segs (e : Ledger) : Nat := cdiv e.cols 128

/-- The parity byte that covers a data byte of the rim state (R304). -/
def parityOf (a : Nat) : Nat :=
  let k := (a - rimBase) / stripe
  let off := (a - rimBase) % stripe
  let n := off / 4096
  rimParity + (k / 8 * 8 + (k % 8 + 7 - n % 7) % 8) * 2 ^ 33 + n / 7 * 4096 + off % 4096

/-! ### Ledger entries (R306) -/

def blankLedger : Ledger :=
  { cap := 0, group := 0, flags := 0, wfmt := 0, expect := 0, sid := 0, sbase := 0, rows := 0, cols := 0, row0 := 0, col0 := 0, dout := 0, din := 0
    wbase := 0, wgrid := 0, tensor := 0 }

def getEntry (s : State) (n : Nat) : Ledger := lookupD blankLedger n s.cap.ledger
def setEntry (n : Nat) (e : Ledger) (s : State) : State := { s with cap := { s.cap with ledger := upsert n e s.cap.ledger } }

/-- Valid entries with their indices. -/
def validEntries (s : State) : Table Ledger := s.cap.ledger.filter fun (_, e) => e.valid
def entriesOf (s : State) (k : Nat) : Table Ledger := (validEntries s).filter fun (_, e) => e.cap == k

/-- Clear SETTLED of the entries that a test picks (R325). -/
def unsettle (f : Nat → Ledger → Bool) (s : State) : State :=
  { s with cap := { s.cap with ledger := s.cap.ledger.map fun (n, e) =>
      (n, if f n e then { e with snap := { e.snap with settled := false }, prev := { e.prev with settled := false } } else e) } }

/-- The outcome window after a commit holds contributions of the open step (R315, R333). -/
def windowHolds (s : State) : Bool := s.cap.window.elim false fun w => w.committed

/-- Squares of an entry in row-major order: columns of a square are rows of the entry (R306). -/
def Ledger.squareCols (e : Ledger) : Nat := if e.vector then 1 else cdiv e.rows 128
def Ledger.squareCount (e : Ledger) : Nat := cdiv e.cols 128 * e.squareCols

/-- Half the length of the WCOPY entry that holds a working copy. -/
def halfOf (s : State) (e : Ledger) : Nat := match regionOf s e.wbase with | some (_, r) => r.bytes / 2 | none => 0

/-- Number of square q in the working copy's grid. -/
def Ledger.gridNo (e : Ledger) (q : Nat) : Nat := (e.col0 / 128 + q / e.squareCols) * e.wgrid + e.row0 / 128 + q % e.squareCols

/-- Address and length of square q of a working copy in the half at an offset (R323). -/
def Ledger.squareAt (e : Ledger) (half q : Nat) : Nat × Nat :=
  if e.vector then (e.wbase + half + (e.col0 + 128 * q) * (fmtBits e.wfmt / 8), min 128 (e.cols - 128 * q) * (fmtBits e.wfmt / 8))
  else (e.wbase + half + e.gridNo q * sqSize e.wfmt, sqSize e.wfmt)

/-- The entry of the amax table for square q of a wide working copy, in the half at an offset (R323). -/
def Ledger.amaxAt (e : Ledger) (half q : Nat) : Nat := e.wbase + half + cdiv e.din 128 * e.wgrid * sqSize e.wfmt + 4 * e.gridNo q
/-- A working copy has an amax table. -/
def Ledger.hasAmax (e : Ledger) : Bool := fmtWide e.wfmt && !e.vector

/-! ### A capstan that fails (R299, R339 to R341) -/

def getCapstan (s : State) (k : Nat) : Capstan := lookupD { die := k } k s.cap.capstans
def setCapstan (k : Nat) (c : Capstan) (s : State) : State := { s with cap := { s.cap with capstans := upsert k c s.cap.capstans } }

/-- What a step has gathered in an entry is discarded. -/
def dropGathered (e : Ledger) : Ledger := { e with dyn := {}, counts := [], sources := [], zeroSegs := [], applied := false, squares := [], copied := false }

/-- Capstan dice that hold no logical capstan and are not bad. -/
def spareDice (s : State) : List Nat :=
  [32, 33].filter fun d => !s.store.badDice.contains d && !s.cap.capstans.any fun (_, c) => c.die == d

/-- Free values over an entry's units of a bank. -/
def freeBank (bank : Bool) (s : State) (e : Nat × Ledger) : State := freeBytes (e.2.base bank) (e.2.units * 4096) s

/-- The sums of a capstan are lost with its die. -/
def loseSums (k : Nat) (s : State) : State :=
  let s := (entriesOf s k).foldl (freeBank (altBank s)) s
  { s with cap := { s.cap with ledger := s.cap.ledger.map fun (n, e) => (n, if e.valid && e.cap == k then dropGathered e else e) } }

/-- Another member of the group is down, so that the units cannot be rebuilt. -/
def groupDown (s : State) (k : Nat) : Bool :=
  (List.range 8).any fun j => k / 8 * 8 + j != k && ((getCapstan s (k / 8 * 8 + j)).failed || (getCapstan s (k / 8 * 8 + j)).rebuilding)

/-- The knots of a capstan start again at 0. -/
def clearCapKnots (k : Nat) (s : State) : State := { s with knots := s.knots.filter fun (x, _) => !(decide (capKnot k 0 ≤ x) && decide (x < capKnot k 128)) }

/-- SETTLED of a capstan's entries is cleared, and the commit of the armed step does not set it for what the die had copied: its rebuild gives back one bank only
(R325). -/
def unsettleCap (k : Nat) (s : State) : State :=
  let s := unsettle (fun _ e => e.cap == k) s
  { s with cap := { s.cap with ledger := s.cap.ledger.map fun (n, e) => (n, if e.cap == k then { e with copied := false } else e) } }

/-- The open step still needs this capstan's confirmation: it has not confirmed, and the step before is not in its outcome window, where nothing of the open step
has been accepted and the alternate bank has valid parity (R333, R340). -/
def unconfirmed (s : State) (k : Nat) : Bool := !windowHolds s && !(s.cap.armed.elim false fun a => a.confirmed.contains k)

/-- A capstan is failed: a spare die takes its index and rebuilds the current bank, or its units are rebuilt on every read (R339 to R341). -/
def failCapstan (k : Nat) (s : State) : State :=
  let c := getCapstan s k
  let lost := c.lost || unconfirmed s k
  let s := { s with store := { s.store with badDice := c.die :: s.store.badDice } }
  let s := unsettleCap k (clearCapKnots k (if unconfirmed s k then loseSums k s else s))
  let s := if groupDown s k then
      ((entriesOf s k).foldl (freeBank s.cap.cur) { s with rel := { s.rel with secondFault := true } })
    else s
  let rec_ (res : Nat) (s : State) := ledgerRec 10 7 res (unitOf 3 c.die) (BitVec.ofNat 32 k) 0 [] s
  match spareDice s with
  | d :: _ => rec_ 1 (setCapstan k { die := d, rebuilding := true, lost } (journalRecord s))
  | [] =>
    rec_ 3 (post Ev.capDegraded [] (setCapstan k { c with failed := true, rebuilding := false, lost }
      { s with rel := { s.rel with secondFault := true } }))

/-- An entry of this capstan has lost data that the alternate bank alone held: it never confirms in this step (R338). -/
def loseCap (k : Nat) (s : State) : State := setCapstan k { getCapstan s k with lost := true } s

/-! ### Near stacks and channels (R269, R270, R292 to R296) -/

def getStack (s : State) (n : Nat) : Stack := lookupD {} n s.near.units
def setStack (n : Nat) (x : Stack) (s : State) : State := { s with near := { s.near with units := upsert n x s.near.units } }
def adjStack (n : Nat) (f : Stack → Stack) (s : State) : State := setStack n (f (getStack s n)) s

/-- Physical stack ID of a logical stack (R269, R270). -/
def physStack (s : State) (n : Nat) : Nat := n / 16 * 32 + (if (getStack s n).spliced then 16 else n % 16)
/-- The spare of a stack's pair row. -/
def spareStack (n : Nat) : Nat := n / 16 * 32 + 16
/-- Physical channel of a logical channel: 0 to 31, spares 32 and 33. -/
def physChan (x : Stack) (c : Nat) : Nat := lookupD c c x.chanMap
/-- UNIT of a channel (assumption 40). -/
def chanUnit (s : State) (n c : Nat) : W32 := unitOf 2 (physStack s n * 64 + physChan (getStack s n) c)
def chanUnitOf (phys pc : Nat) : W32 := unitOf 2 (phys * 64 + pc)
def chanLogical (n c : Nat) : W32 := BitVec.ofNat 32 (n * 32 + c)

/-- Spare channels of a stack that work and are not in use. -/
def freeSpares (s : State) (n : Nat) : List Nat :=
  [32, 33].filter fun p => !s.store.badChannels.contains (physStack s n, p) && !(getStack s n).chanMap.any fun (_, q) => q == p

/-- Number of a physical channel (R286): physical stack * 64 + channel. -/
def chanNo (s : State) (n c : Nat) : Nat := physStack s n * 64 + physChan (getStack s n) c

/-! ### Granules (R275, R289) -/

/-- The granule address that an entry maps to a row, if it maps it. -/
def rowIn (r : Region) (x : Retired) : Option Nat :=
  let rw := x.row * 16 + (x.bank ^^^ (x.row % 16))
  if rw < r.chbase.toNat then none
  else
    let q := rw - r.chbase.toNat
    let g? := if r.spread then some (q * 32768 + ((x.chan * 1024 + x.stack) ^^^ (q % 32768)))
      else if x.stack / 128 = r.field.toNat then some (q * 4096 + ((x.chan * 128 + x.stack % 128) ^^^ (q % 4096)))
      else none
    g?.bind fun g => if (g + 1) * 512 ≤ r.bytes then some (r.first + g * 512) else none

/-- The valid entry and the address of the granule held in a row. -/
def granuleOf (s : State) (x : Retired) : Option (Nat × Region) :=
  s.regions.findSome? fun (_, r) => if r.valid then (rowIn r x).map (·, r) else none

/-- The channel row as bank and row within the bank (R275). -/
def rowAt (n c rw : Nat) : Retired := { stack := n, chan := c, bank := (rw % 16) ^^^ (rw / 16 % 16), row := rw / 16 }

/-- A byte of a WCOPY entry belongs to a square that a valid ledger entry keeps there, or to the square's entry in the amax table, in bank A's half or bank B's. -/
def inCopy (s : State) (a : Nat) : Bool :=
  (validEntries s).any fun (_, e) => [0, halfOf s e].any fun h => (List.range e.squareCount).any fun q =>
    let x := e.squareAt h q
    (decide (x.1 ≤ a) && decide (a < x.1 + x.2)) || (e.hasAmax && decide (e.amaxAt h q ≤ a) && decide (a < e.amaxAt h q + 4))

/-- R289: what restores a granule whose contents could not be read back. In a WCOPY entry only capstans write, so that the rewrite from the master state gives the
bytes of its squares as they stood; other bytes there are lost. A DATA granule carries inverted parity, its bytes unstated. -/
def restoreGranule (x : Retired) (s : State) : State :=
  match granuleOf s x with
  | some (a, r) =>
    if r.typ then (List.range 512).foldl (fun t k => if inCopy s (a + k) then t else freeBytes (a + k) 1 t) s
    else
      let s := freeBytes a 512 s
      { s with near := { s.near with
          poisoned := (List.range 4).map (fun k => (x, k)) ++ s.near.poisoned.filter fun p => p.1 != x } }
  | none =>
    let k := (x.stack * 32 + x.chan) * 2 ^ 28 + (x.row * 16 + (x.bank ^^^ (x.row % 16))) * 512
    { s with mem := s.mem.filter fun c => !(decide (k ≤ c.1) && decide (c.1 < k + 512)) }

/-! ### Migration and splice (R270, R292 to R296, R493) -/

/-- The channel map of a physical stack with bad physical channels; none where the spares do not suffice. -/
def channelMap (bad : List Nat) : Option (Table Nat) :=
  let need := (List.range 32).filter bad.contains
  let have_ := [32, 33].filter fun p => !bad.contains p
  if need.length ≤ have_.length then some (need.zip have_) else none

def badChansOf (s : State) (phys : Nat) : List Nat := (s.store.badChannels.filter fun x => x.1 == phys).map (·.2)

/-- The channel map with which a physical stack can serve; none where it cannot. -/
def usable (s : State) (phys : Nat) : Option (Table Nat) :=
  if s.store.badStacks.contains phys then none else channelMap (badChansOf s phys)

/-- The pair row's spare works and is unused: its channel map. -/
def stackSpare (s : State) (n : Nat) : Option (Table Nat) :=
  if s.near.units.any fun (k, x) => k / 16 == n / 16 && (x.spliced || x.splicing) then none else usable s (spareStack n)

/-- A stack needs a splice: it starts, or the failing channel stays in service (R295, R296). -/
def needSplice (n : Nat) (chan : Byte) (cls : Nat) (s : State) : State :=
  let x := getStack s n
  let u := unitOf 1 (physStack s n)
  if x.splicing then s
  else if (stackSpare s n).isSome then
    let s := setStack n { x with splicing := true, migrating := none, waiting := [] } s
    ledgerRec cls 6 1 u (BitVec.ofNat 32 n) 0 [] (postFull Ev.stackSplice 3 u 0 0 [] s)
  else
    let s := setStack n { x with degraded := true } { s with rel := { s.rel with secondFault := true } }
    ledgerRec cls 6 3 u (BitVec.ofNat 32 n) 0 [] (post Ev.nsDegraded (det [(2, n), (1, chan.toNat)]) s)

def postMigrate (n c : Nat) (result : Nat) (s : State) : State :=
  let u := chanUnit s n c
  ledgerRec 7 6 result u (chanLogical n c) 0 [] (postFull Ev.chMigrate 3 u 0 0 [] s)

/-- Start the migration of a channel, or the splice where no spare channel works. -/
def startMigration (n c : Nat) (s : State) : State :=
  let x := getStack s n
  if !(freeSpares s n).isEmpty then postMigrate n c 1 (setStack n { x with migrating := some c } s)
  else needSplice n (BitVec.ofNat 8 c) 7 s

/-- A channel needs a migration (R292): one at a time per stack. -/
def needMigration (n c : Nat) (s : State) : State :=
  let x := getStack s n
  if x.splicing then s
  else match x.migrating with
    | some d => if d = c || x.waiting.contains c then s else setStack n { x with waiting := x.waiting ++ [c] } s
    | none => startMigration n c s

/-! ### Rim rows (R300, R338) -/

/-- 4 KiB units of a rim stack: the stripe's two banks, then the parity range. -/
def rimUnits : Nat := 2 ^ 24

/-- The bank that a unit of a rim stack belongs to; of a parity unit, the bank that its row covers (R304). -/
def unitBank (u : Nat) : Bool := if u < 2 * bankUnits then decide (bankUnits ≤ u) else decide (1048576 ≤ u - 2 * bankUnits)

/-- A failing rim row of a capstan (R300): soft post-package repair, or the capstan fails. -/
def repairRim (k row : Nat) (s : State) : State :=
  let c := getCapstan s k
  let u := unitOf 3 c.die
  if (s.store.rimRepairs.filter fun r => r.die == c.die && !r.hard).length < Config.rimSoft then
    let s := setCapstan k { c with rimHits := delKey row c.rimHits } s
    ledgerRec 9 7 0 u (BitVec.ofNat 32 k) 0 [] { s with store := { s.store with rimRepairs := s.store.rimRepairs ++ [{ die := c.die, row }] } }
  else failCapstan k (ledgerRec 9 7 3 u (BitVec.ofNat 32 k) 0 [] s)

/-- First byte of a unit of a rim stack. -/
def unitAddr (k u : Nat) : Nat :=
  if u < 2 * bankUnits then rimBase + k * stripe + u * 4096 else rimParity + k * 2 ^ 33 + (u - 2 * bankUnits) * 4096

/-- An uncorrectable unit: of the alternate bank before the confirmation, the capstan never confirms (R338); else it is rebuilt over the parity ring, and nothing is
visible, unless another member of its group is down too. -/
def rimBad (k unit : Nat) (s : State) : State :=
  if unitBank unit == altBank s && unconfirmed s k then loseCap k s
  else
    let s := record 9 7 0 3 (unitOf 3 (getCapstan s k).die) (BitVec.ofNat 32 k) 0 0 (toLE 8 (unitAddr k unit)) s
    if groupDown s k then freeBytes (unitAddr k unit) 4096 s else s

/-- What a read finds in a unit of a rim stack and the row that holds it, whoever reads it (R300, R338). -/
def rimFinds (k unit row : Nat) (r : ArrayRead) (s : State) : State :=
  match r with
  | .ok => s
  | .bad => repairRim k row (rimBad k unit s)
  | .corrected =>
    let c := getCapstan s k
    let hits := lookupD 0 row c.rimHits + 1
    let s := setCapstan k { c with corrected := satAdd 64 c.corrected 1, rimHits := upsert row hits c.rimHits } s
    let s := record 9 0 0 3 (unitOf 3 c.die) (BitVec.ofNat 32 k) 0 0 (toLE 8 (unitAddr k unit) ++ toLE 4 hits) s
    if 3 ≤ hits then repairRim k row s else s

/-- The same at a module address of the rim. -/
def rimAt (a row : Nat) (r : ArrayRead) (s : State) : State :=
  if rimBase ≤ a && a < rimParity then rimFinds ((a - rimBase) / stripe) ((a - rimBase) % stripe / 4096) row r s
  else if rimParity ≤ a && a < rimEnd then rimFinds ((a - rimParity) / 2 ^ 33) (2 * bankUnits + (a - rimParity) % 2 ^ 33 / 4096) row r s
  else s

/-! ### Suspects (R469) -/

/-- A row of physical tiles is under suspicion: its last fault is less than 4096 turns old. -/
def rowSuspected (s : State) (row : Nat) : Bool := s.rel.suspects.any fun x => x.unit / 32 == row && decide (ctTurn s.cad.ct < x.turn + 4096)

/-- A unit is under suspicion: a tile until its row's suspicion lapses. -/
def isSuspect (s : State) (u : Nat) : Bool := (s.rel.suspects.any fun x => x.unit == u) && rowSuspected s (u / 32)

/-- A physical unit becomes suspect: a tile that is suspect again within 4096 turns has its row ask for self-test. -/
def suspectTile (phys cls : Nat) (s : State) : State :=
  let t := ctTurn s.cad.ct
  let old := if rowSuspected s (phys / 32) then s.rel.suspects else s.rel.suspects.filter fun x => x.unit / 32 != phys / 32
  let again := (old.any fun x => x.unit == phys && decide (t < x.turn + 4096)) && decide (phys < 4096)
  let row := phys / 512 * 16 + phys % 512 / 32
  let r := { s.rel with suspects := { unit := phys, turn := t, cls } :: old.filter fun x => x.unit != phys }
  { s with rel := if again && !r.selfTest.contains row then { r with selfTest := row :: r.selfTest } else r }

/-! ### Parity (R460 to R462) -/

/-- The parity bit of a byte: it makes their ones odd together. -/
def parityBit (b : Byte) : Bool := (List.range 8).foldl (fun p k => p != b.getLsbD k) true

/-- Every byte of a word agrees with its parity bit. -/
def wordIntact (w : DataWord) : Bool := (List.range 32).all fun k => w.par.getLsbD k == parityBit (w.data.getD k 0)

/-- One more retried fault of a unit in the present turn, and whether there have been more than 16. -/
def countRetry (u : W32) (s : State) : Bool × State :=
  let t := ctTurn s.cad.ct
  let r := if s.rel.retryTurn = t then s.rel.retries else []
  let n := lookupD 0 u.toNat r + 1
  (decide (16 < n), { s with rel := { s.rel with retries := upsert u.toNat n r, retryTurn := t } })

/-- UNIT and logical ID of the place of a parity fault. -/
def placeUnit (s : State) : ParityPlace → W32 × W32
  | .store L => (unitOf 0 (physTile s L), BitVec.ofNat 32 L)
  | .hop u => (unitOf 0 u, 0xFFFFFFFF)
  | .near _ a => (rowOf s a).elim (0xFFFFFFFF, 0xFFFFFFFF) fun r => (chanUnit s r.stack r.chan, chanLogical r.stack r.chan)
  | .rim a => let k := (a - rimBase) / stripe; (unitOf 3 (getCapstan s k).die, BitVec.ofNat 32 k)

/-- A parity fault persists (R462): a suspect tile, a migration of the channel (R292), a failed capstan (R339). -/
def parityPersists (p : ParityPlace) (s : State) : State :=
  match p with
  | .store L => suspectTile (physTile s L) 1 s
  | .hop u => suspectTile u 1 s
  | .near _ a => (rowOf s a).elim s fun r => needMigration r.stack r.chan s
  | .rim a => let k := (a - rimBase) / stripe; failCapstan k (suspectTile (unitOf 3 (getCapstan s k).die).toNat 1 s)

/-- A word with a failing byte after its retries (R461): whether its reader is faulted, and what becomes of the unit. -/
def parityFails (p : ParityPlace) (s : State) : Bool × State :=
  match p with
  | .store _ => (true, s)
  | .hop _ => (true, s)
  | .near write a =>
    match rowOf s a with
    | some r => if write then (false, s) else ((granuleOf s r).elim false fun x => !x.2.typ, restoreGranule r s)
    | none => (false, s)
  | .rim a => (false, rimBad ((a - rimBase) / stripe) ((a - rimBase) % stripe / 4096) s)

/-- A consumer reads a word that had a failing byte (R461, R462): a retry that returns it intact ends the fault. Answers whether the word is lost. -/
def parityMeets (p : ParityPlace) (w : DataWord) (origin : Nat) (play step : W32) (s : State) : Bool × State :=
  let (u, lg) := placeUnit s p
  if wordIntact w then
    let (many, s) := countRetry u (record 1 1 0 origin u lg play step w.data s)
    (false, if many then parityPersists p s else s)
  else
    let (lost, s) := parityFails p (record 1 1 (b2n (match p with | .store _ | .hop _ => true | _ => false)) origin u lg play step w.data s)
    (lost, parityPersists p s)

/-- A reader meets a granule of inverted parity or a retired one, at a near-tier address (R289, R291): PARITY and its record. -/
def granuleFault (a origin : Nat) (play step : W32) (s : State) : State :=
  let (u, lg) := placeUnit s (.near false a)
  record 1 0 1 origin u lg play step (toLE 8 a) s

/-- What a read by an engine gives: its bytes, or the status that takes their place. -/
inductive EngineRead where
  | got (l : List Byte)
  | gone (st : BitVec 16)

/-- A read of a near-tier or host-window address by an engine other than a mover, of a domain: a closed crossing refuses it (R46); a retired granule raises
RETIRED_ACCESS and reads with inverted parity; such a word is a parity fault, recorded for its channel, and gives no data (R289, R291, R461). -/
def engineRead (dom origin a n : Nat) (s : State) : EngineRead × State :=
  if decide (a < nearEnd) && xingClosed s dom 9 then (.gone Status.clockStopped, s)
  else
    let gone := readMeets s isRetired a n
    if !gone && !readMeets s isPoisoned a n then (.got (srcRead s a n), s)
    else (.gone Status.parityFault, granuleFault a origin 0 0 (if gone then postFull Ev.retiredAccess origin 0xFFFFFFFF 0 0 [] s else s))

/-- LANE_RESIDUE of a unit (R459, R468): retried, and masked or not. -/
def laneResidue (unit logical : W32) (origin : Nat) (play step : W32) (masked : Bool) (s : State) : State :=
  record 3 1 (if masked then 0 else 1) origin unit logical play step [] s

end Sys2Proof.Machine
end

