-- ==== Sys2Proof/Machine/Fields.lean ====
section
/-! DEFINITION. Fields: stream timing, partitions and PART, loans, the cell sum, weight loads with their checksums, and streams through the array (chapters 03, 04). -/

namespace Sys2Proof.Machine

/-! ### Stream timing (R51, R54 to R61, R64, R68, R71, R77, R80, R122) -/

/-- fill(H, W) in field cycles. -/
def fillCycles (h w : Nat) : Nat := h / 16 + w / 16 + (h / 128 - 1) + (w / 128 - 1) + 10
/-- Occupancy of an unramped stream of u rows. -/
def occupancyFlat (h w u : Nat) : Nat := u + fillCycles h w - 1
/-- Smallest n ≥ w with n (n + 1) / 2 ≥ a, by fuel. -/
def windowsFor (a : Nat) : Nat → Nat → Nat
  | 0, w => w
  | k + 1, w => if w * (w + 1) / 2 < a then windowsFor a k (w + 1) else w
/-- span_short(u), 2 ≤ u < 42. -/
def spanShort (u : Nat) : Nat := 8 * (windowsFor ((u + 1) / 2) 48 1 + windowsFor (u / 2) 48 1)
/-- Admission span of a run of u rows on a ramped partition, without swaps and held cycles. -/
def rampSpan (u : Nat) : Nat := if u ≤ 1 then u else if u < 42 then spanShort u else u + 54
/-- Occupancy of a run on a ramped partition. -/
def occupancyRamp (h w u : Nat) : Nat := rampSpan u + fillCycles h w - 1
/-- LOADW cycles, with the checksum square when a tally is formed. -/
def loadCycles (w : Nat) (tally : Bool) : Nat := if tally then 128 + w / 128 + 2 else 128
/-- Least distance of first admissions on one accumulator. -/
def seedSpacing (h w : Nat) : Nat := fillCycles h w + h / 128 + 2
/-- The cycle of a run in which the pattern admits row u, counted from 0: the up-ramp windows of a ramped partition, then one a cycle (R58, R59). -/
def rowCycle (ramped : Bool) (u : Nat) : Nat :=
  if !ramped then u
  else if 21 ≤ u then u + 27
  else
    let w := windowsFor (u + 1) 6 1
    8 * (w - 1) + (u - w * (w - 1) / 2)
/-- Cycles by which ZERO_FILL of m masked rows lengthens a stream of the given span. -/
def zeroFillExtra (m span h w : Nat) : Nat := m - (span + fillCycles h w - 1)

/-! ### Partitions (R74 to R78) -/

/-- A region lies inside its field. -/
def inField (org sh : Nat) : Bool :=
  decide (org < 2048) && decide (sh ≤ 5) && decide (tileRow org + shapeRows sh ≤ 16) && decide (tileCol org + shapeCols sh ≤ 16)

/-- A tile lies in the region (org, sh). -/
def inRegionTile (org sh t : Nat) : Bool :=
  tileField t == tileField org && decide (tileRow org ≤ tileRow t) && decide (tileRow t < tileRow org + shapeRows sh) &&
    decide (tileCol org ≤ tileCol t) && decide (tileCol t < tileCol org + shapeCols sh)

/-- Two regions share a tile. -/
def overlaps (o1 s1 o2 s2 : Nat) : Bool := (tilesOf o1 s1).any (inRegionTile o2 s2)

/-- Origins of the new partitions of shape n in a region, row-major. -/
def cutOrigins (org sh n : Nat) : List Nat :=
  (List.range (shapeRows sh / shapeRows n)).flatMap fun a =>
    (List.range (shapeCols sh / shapeCols n)).map fun b =>
      mkTile (tileField org) (tileRow org + a * shapeRows n) (tileCol org + b * shapeCols n)

/-- A tile row of a field is degraded (R85), or the field has lost both PLLs (R475). -/
def rowBad (s : State) (f r : Nat) : Bool := (getField s f).degradedRow.getLsbD r || (getField s f).unavailable

/-- Some row of a region is bad. -/
def regionBad (s : State) (org sh : Nat) : Bool :=
  (List.range (shapeRows sh)).any fun a => rowBad s (tileField org) (tileRow org + a)

/-- A covered row is bad for a play (R85): one that became degraded while the play ran does not count, since the partition finishes its running play. -/
def playBad (s : State) (p : Play) (org sh : Nat) : Bool :=
  (getField s (tileField org)).unavailable ||
    (List.range (shapeRows sh)).any fun a => (getField s (tileField org)).degradedRow.getLsbD (tileRow org + a) && !p.spared.contains (tileRow org + a)

/-- Partitions that meet a region. -/
def partsIn (s : State) (org sh : Nat) : List Partition := s.parts.filter fun p => overlaps p.org p.shape org sh

/-- A loan names the partition as lender or borrower. -/
def inLoan (s : State) (org sh : Nat) : Bool :=
  s.loans.any fun l => (l.lendOrg == org && l.lendShape == sh) || (l.borOrg == org && l.borShape == sh)
def isLender (s : State) (org sh : Nat) : Bool := s.loans.any fun l => l.lendOrg == org && l.lendShape == sh

/-- The checks of R76 and R231 in order; `own` is the partition of a play that cuts at its END and counts as idle. -/
def partCheck (s : State) (org sh n : Nat) (own : Option (Nat × Nat)) : Option (BitVec 16) :=
  let olds := partsIn s org sh
  let tiles := shapeRows sh * shapeCols sh
  if !(decide (n ≤ 5) && inField org sh && shapeRows sh % shapeRows n == 0 && shapeCols sh % shapeCols n == 0 &&
      (cutOrigins org sh n).all fun o => aligned o n) then some Status.partShape
  else if !(olds.all (fun p => (tilesOf p.org p.shape).all (inRegionTile org sh)) &&
      (olds.map fun p => shapeRows p.shape * shapeCols p.shape).sum == tiles) then some Status.partShape
  else if regionBad s org sh then some Status.rowDegraded
  else if olds.any (fun p => (runningOn s p.org p.shape).isSome && some (p.org, p.shape) != own) then some Status.partBusy
  else if olds.any (fun p => inLoan s p.org p.shape) then some Status.partLent
  else none

/-- An accepted PART (R77): the new partitions exist and are busy; the old ones are remembered for R78. -/
def partMake (org sh n : Nat) (s : State) : State :=
  let olds := partsIn s org sh
  let news := (cutOrigins org sh n).map fun o => ({ org := o, shape := n, busy := true, maker := s.partNext } : Partition)
  let keep := s.parts.filter fun p => !overlaps p.org p.shape org sh
  { s with parts := keep ++ news, removed := olds.map (fun p => (p.org, p.shape, s.arrivals)) ++ s.removed, partNext := s.partNext + 1 }

/-- The PART of a region whose completion is pending, with its number and the command that asked. -/
def partPend (org sh : Nat) (c : Option Packet) (s : State) : State := { s with parting := s.parting ++ [(org, sh, s.partNext, c)] }

/-- Status of a play whose partition is missing (R78). -/
def missingStatus (s : State) (p : Play) : BitVec 16 :=
  if s.removed.any fun (o, h, at_) => o == p.org && h == p.shape && decide (p.order < at_) then Status.partGone else Status.noPartition

/-- The weight banks of the partitions that cover a tile row become invalid (R53, R472). -/
def invalidateRow (f r : Nat) (s : State) : State :=
  let clear (p : Partition) : Partition := if (tilesOf p.org p.shape).any (fun t => tileField t == f && tileRow t == r)
    then { p with active := none, shadow := none } else p
  { s with parts := s.parts.map clear }

/-! ### Loans (R231) -/

/-- A byte range of tile L's store touches a range lent to another partition than (org, sh). -/
def lentElsewhere (s : State) (org sh L off n : Nat) : Bool :=
  s.loans.any fun l => inRegionTile l.lendOrg l.lendShape L && !(l.borOrg == org && l.borShape == sh) &&
    decide (off < (l.off + l.len) * 65536) && decide (l.off * 65536 < off + n)

/-- An extent of tile L's store named by a move of a play: inside the store, and not lent to another partition. -/
def storeOk (s : State) (p : Play) (L off n : Nat) : Bool :=
  decide (off + n ≤ 2 ^ 23) && !lentElsewhere s p.org p.shape L off n

/-! ### How a move starts -/

/-- What starting a move does: it runs, it is done at once, it must wait, it ends its play with a status, or its play is faulted (class). -/
inductive Start where
  | run (m : QMove) (s : State)
  | done (s : State)
  | hold
  | fail (st : BitVec 16) (s : State)
  | fault (cls : Nat) (s : State)

/-- Bits [lo + w - 1 : lo] of a move word. -/
def MoveWord.f (m : MoveWord) (lo w : Nat) : Nat := fld m.toNat lo w
def MoveWord.b (m : MoveWord) (i : Nat) : Bool := m.getLsbD i
def wf (m : MoveWord) (lo w : Nat) : Nat := fld m.toNat lo w
def wb (m : MoveWord) (i : Nat) : Bool := m.getLsbD i

/-! ### The cell sum (R49, R104, R123 to R126) -/

/-- One cell: the exact products below KLEN plus the incoming partial sum, rounded once; a cell beyond KLEN forwards. -/
def cellSum (ps : W32) (prods : List FVal) : W32 := if prods.isEmpty then ps else r32 (exactSum (prods ++ [v32 ps]))

/-- Down a column: groups of g products each, in ascending K. -/
def columnChain (g : Nat) : Nat → W32 → List FVal → W32
  | 0, ps, _ => ps
  | n + 1, ps, l => if l.isEmpty then ps else columnChain g n (cellSum ps (l.take g)) (l.drop g)

/-- A result: streamed row x against column c of the stationary rows, first k indices, seed ps. -/
def dotChain (g k : Nat) (ps : W32) (x : List FVal) (rows : List (List FVal)) (c : Nat) : W32 :=
  let prods := ((x.zip rows).take k).map fun (a, r) => a.mul (r.getD c .nan)
  columnChain g (prods.length + 1) ps prods

/-! ### LOADW and SWAPW (R51 to R53, R80 to R83, R101, R103, R194, R567) -/

/-- The tally column is available to a partition (R82). -/
def tallyAvailable (s : State) (org sh : Nat) : Bool :=
  tileCol org + shapeCols sh == 16 &&
    (List.range (shapeRows sh)).all fun a => (getField s (tileField org)).tallyRow.getLsbD (tileRow org + a)

/-- FP32 sum in list order, then BF16 to nearest even (R80). -/
def checksum (l : List FVal) : FVal :=
  match l with
  | [] => .fin false 0 0
  | x :: r =>
    let t := r.foldl (fun t y => add32 t (r32 y)) (r32 x)
    bf16.decode (bf16.round (v32 t))

/-- Element k, c of the stationary operand in a tile: PLAIN stored (k, c), TRANS stored (c, k). -/
def statElem (s : State) (base fmt : Nat) (trans : Bool) (k c : Nat) : FVal :=
  if trans then sqElem s base fmt c k else sqElem s base fmt k c

/-- The logical stationary rows (K × W) that a LOADW reads. -/
def statRows (s : State) (p : Partition) (src src2 fmt : Nat) (trans : Bool) : List (List FVal) :=
  let cols := shapeCols p.shape
  (List.range (shapeRows p.shape)).flatMap fun t =>
    let sq (b : Nat) := (List.range 128).map fun k =>
      (List.range cols).flatMap fun u =>
        (List.range 128).map fun c =>
          statElem s (tileAddr (p.org + t * 16 + u) b) fmt trans k c
    if fmt = 13 then sq src ++ sq src2 else sq src

/-- The checksum columns of the tally column: column c is the sum over tile columns (R80). -/
def tallySquare (cols : Nat) (rows : List (List FVal)) : List (List FVal) :=
  rows.map fun r => (List.range 128).map fun c => checksum ((List.range cols).map fun u => r.getD (128 * u + c) .nan)

/-- The in-partition checksum columns (R81) in place of the last 16. -/
def inPartRows (w : Nat) (rows : List (List FVal)) : List (List FVal) :=
  rows.map fun r =>
    (r.take (w - 16)) ++ (List.range 16).map fun k =>
      checksum (((r.take (w - 16)).zipIdx.filter fun x => x.2 % 16 == k).map Prod.fst)

/-- Encoding checks of LOADW (R187, R194). -/
def encLoadw (w : MoveWord) (h : Nat) : Bool :=
  fmtValid (wf w 96 4) && wf w 101 2 != 3 && (wf w 96 4 == 13 || wf w 80 16 == 0) && wf w 116 140 == 0 &&
    decide (wf w 103 13 ≤ (if wf w 96 4 = 13 then 2 * h else h))

/-- The MX axis of a stationary operand (R101). -/
def statAxis (trans : Bool) : Nat := if trans then 0 else 1
def streamAxis (trans : Bool) : Nat := if trans then 1 else 0

/-- The header of a square at an offset lies inside a tile's store, whether or not its square does: the header checks come before those of the extents (R198, R567). A
square that begins past the store's end has none (assumption 82). -/
def headerIn (off : Nat) : Bool := decide (off + 128 ≤ 2 ^ 23)

/-- First failure of the header checks over squares: format, then axis, then SCALE (R567, R198). -/
def headerChecks (s : State) (fmt axis : Nat) (bases : List Nat) : Option (BitVec 16) :=
  if fmtScaled fmt && bases.any (fun b => sqFmt s b != fmt) then some Status.fmtMismatch
  else if fmtMx fmt && bases.any (fun b => sqAxis s b != axis) then some Status.mxAxis
  else if fmtScaleField fmt && bases.any (fun b => !scaleValid (sqScale s b)) then some Status.scaleInvalid
  else none

/-- LOADW at its start: checks, then the shadow bank with its checksums. -/
def startLoadw (p : Play) (m : QMove) (s : State) : Start :=
  let w := m.word
  match findPart s p.org p.shape with
  | none => .hold
  | some q =>
    let h := 128 * shapeRows q.shape
    let fmt := wf w 96 4
    let src := wf w 64 16 * 128
    let src2 := wf w 80 16 * 128
    let trans := wb w 100
    let tiles := tilesOf q.org q.shape
    let offs := if fmt = 13 then [src, src2] else [src]
    if !encLoadw w h then .fail Status.moveField s
    else match headerChecks s fmt (statAxis trans) (tiles.flatMap fun t => (offs.filter headerIn).map (tileAddr t)) with
    | some st => .fail st s
    | none =>
      if !(tiles.all fun t => offs.all fun o => storeOk s p t o (sqSize fmt)) then .fail Status.addrRange s
      else
        let tally := wf w 101 2
        let avail := tallyAvailable s q.org q.shape
        let inPart := tally == 2 && !avail
        let rows := statRows s q src src2 fmt trans
        let cols := shapeCols q.shape
        let bank : WBank := {
          wfmt := fmt, klen := wf w 103 13, tally, inPart, trans
          rows := if inPart then inPartRows (128 * cols) rows else rows
          tallyRows := if tally != 0 && avail then tallySquare cols rows else [] }
        .run { m with started := true } (setPart { q with shadow := some bank } s)

/-- Field cycles as steps of CT, at a field's clock and the measured beat period. -/
def cycleSteps (s : State) (fi n : Nat) : Nat := n * 65536000000 / ((getField s fi).clockMHz * s.cad.periodPs)

/-- The CT at which a partition's run would admit its next row (R57, R58). -/
def runDue (s : State) (q : Partition) : Nat := q.runFrom + cycleSteps s (tileField q.org) (rowCycle (shapeRamped q.shape) q.runRows)

/-- A partition's run goes on: no admission gap of 8 or more cycles has passed since its next row was due (R57, R62). -/
def runLive (s : State) (q : Partition) : Bool :=
  q.runOpen &&
    let gap := (s.cad.ct.toNat - runDue s q) * ((getField s (tileField q.org)).clockMHz * s.cad.periodPs)
    gap == 0 || decide (gap < 8 * 65536000000)

/-- A partition's run admits a row now, late by what has held it. -/
def runRow (s : State) (q : Partition) : Partition :=
  { q with runRows := q.runRows + 1, runFrom := q.runFrom + (s.cad.ct.toNat - runDue s q) }

/-- SWAPW: exchange the banks; it costs a run one cycle (R52, R57). -/
def startSwapw (p : Play) (m : QMove) (s : State) : Start :=
  match findPart s p.org p.shape with
  | none => .hold
  | some q =>
    if wf m.word 64 192 != 0 then .fail Status.moveField s
    else .run { m with started := true } (setPart { q with active := q.shadow, shadow := q.active, runFrom := q.runFrom + cycleSteps s (tileField q.org) 1 } s)

/-! ### STREAM (R55, R66 to R73, R83, R84, R195 to R198, R346, R350 to R352, R570) -/

/-- Encoding checks of STREAM (R187, R195). R187 wants a field that the operation does not use to be zero, and R195 does not say of every field when it is used: MASK
without MASK_EN must be zero; ACC_LINES in ONLY is ignored like ACC (DESIGN CHOICE, assumption 111). -/
def encStream (w : MoveWord) : Bool :=
  let dk := wf w 208 2
  let ring := wf w 210 7
  decide (wf w 89 3 ≤ 4) && wf w 109 2 != 3 && fmtValid (wf w 97 4) && fmtValid (wf w 101 4) && wf w 113 15 == 0 && wf w 244 12 == 0 &&
    (wb w 111 || wf w 176 16 == 0) &&
    (if dk = 0 then ring == 0 && wf w 217 27 == 0
     else decide (2 ≤ ring) && decide (ring ≤ 64) && (dk != 2 || wf w 229 4 == 0))

/-- Encoding checks of SXT (R197): SPREG and SPOFF without SPEN, and WSRC and WSTA before a STREAM without AUDIT, are ignored (DESIGN CHOICE, assumption 111). -/
def encSxt (w : MoveWord) : Bool := decide (wf w 96 4 ≤ 2) && decide (wf w 100 4 ≤ 2) && wf w 129 127 == 0

/-- Bit i of a row mask at MASK of the lead's store (R196); without MASK_EN every row is admitted. -/
def rowOpen (s : State) (lead : Nat) (w : MoveWord) (i : Nat) : Bool :=
  if wb w 111 then bitAt (readByte s (tileAddr lead (wf w 176 16 * 128) + i / 8)).toNat (i % 8) else true

/-- Elements of streamed row i of a feeder tile along its K indices (R99, R103). -/
def feedRow (s : State) (tile src fmt : Nat) (trans : Bool) (i : Nat) : List FVal :=
  let sz := sqSize fmt
  let line (b : Nat) := sqLine s (tileAddr tile b) fmt (i % 128) trans
  if fmt = 13 then line (src + 2 * (i / 128) * sz) ++ line (src + (2 * (i / 128) + 1) * sz)
  else line (src + i / 128 * sz)

/-- Streamed row i of a partition over the whole K extent. -/
def streamRow (s : State) (q : Partition) (src fmt : Nat) (trans : Bool) (i : Nat) : List FVal :=
  (List.range (shapeRows q.shape)).flatMap fun t => feedRow s (q.org + t * 16) src fmt trans i

/-- Where row i of the accumulator of drain column u lies: its tile store, or the spill region (R197). -/
def accAddr (s : State) (drain acc lines : Nat) (spill : Nat × Nat) (u nsq i : Nat) : Nat :=
  if (i / 128 + 1) * 512 ≤ lines then tileAddr drain (acc + i / 128 * 65536)
  else ((lookupD {} spill.1 s.regions).first) + (spill.2 + u * nsq + i / 128) * 65536

/-- A STREAM with what it needs at hand. -/
structure StreamCtx where
  p : Play
  q : Partition
  bank : WBank
  w : MoveWord
  frame : Frame
  sxt : Option MoveWord
  idx : Nat
  deriving DecidableEq, Repr

def StreamCtx.n (c : StreamCtx) : Nat := wf c.w 64 25
def StreamCtx.nsq (c : StreamCtx) : Nat := cdiv c.n 128
def StreamCtx.drain (c : StreamCtx) : Nat := wf c.w 95 2
def StreamCtx.dfmt (c : StreamCtx) : Nat := wf c.w 101 4
def StreamCtx.cols (c : StreamCtx) : Nat := shapeCols c.q.shape
def StreamCtx.h (c : StreamCtx) : Nat := 128 * shapeRows c.q.shape
def StreamCtx.dkind (c : StreamCtx) : Nat := wf c.w 208 2
def StreamCtx.dest (c : StreamCtx) : Nat := wf c.w 217 27
/-- The drain tile of partition tile column u. -/
def StreamCtx.drainTile (c : StreamCtx) (u : Nat) : Nat := c.q.org + (shapeRows c.q.shape - 1) * 16 + u
def StreamCtx.spill (c : StreamCtx) : Nat × Nat :=
  match c.sxt with
  | some x => (wf x 105 6, wf x 111 18)
  | none => (0, 0)
def StreamCtx.acc (c : StreamCtx) (s : State) (u i : Nat) : Nat :=
  accAddr s (c.drainTile u) (wf c.w 144 16 * 128) (wf c.w 160 16) c.spill u c.nsq i
/-- K indices that lie within the product (R104). -/
def StreamCtx.k (c : StreamCtx) : Nat :=
  let full := if c.bank.wfmt = 13 then 2 * c.h else c.h
  if c.bank.klen = 0 then full else min c.bank.klen full
def StreamCtx.group (c : StreamCtx) : Nat := if c.bank.wfmt = 13 then 32 else 16

/-- The region that a converted row is written to for LOCAL and TILE: tile and byte offset (R570). -/
def StreamCtx.outBase (c : StreamCtx) (u : Nat) : Nat :=
  if c.dkind = 3 then tileAddr (c.dest / 65536 + u) (c.dest % 65536 * 128)
  else tileAddr (c.drainTile u) (wf c.w 192 16 * 128)

/-- Bytes of a LOCAL destination with its amax table (R190). -/
def destBytes (fmt nsq : Nat) : Nat := nsq * sqSize fmt + (if fmtWide fmt then cdiv (4 * nsq) 128 * 128 else 0)

/-- Whether a drain square of the stream's accumulator lies in the spill region. -/
def StreamCtx.needsSpill (c : StreamCtx) : Bool := c.drain != 0 && decide (wf c.w 160 16 < c.nsq * 512)

/-- The wide operands that an AUDIT names in its SXT lie inside the stores (R188, R197). -/
def auditExtents (s : State) (p : Play) (q : Partition) (m : QMove) (sfmt wfmt nsq : Nat) : Bool :=
  match m.sxt, wb m.word 108 with
  | some x, true =>
    let two (f : Nat) := if f = 13 then 2 else 1
    ((List.range (shapeRows q.shape)).all fun t => storeOk s p (q.org + t * 16) (wf x 64 16 * 128) (two sfmt * nsq * sqSize (wf x 96 4))) &&
      (tilesOf q.org q.shape).all fun t => storeOk s p t (wf x 80 16 * 128) (two wfmt * sqSize (wf x 100 4))
  | _, _ => true

/-- The checks of R198 in order, after the encoding; none when all pass. -/
def streamCheck (s : State) (p : Play) (q : Partition) (m : QMove) : Option (BitVec 16) :=
  let w := m.word
  let n := wf w 64 25
  if !encStream w then some Status.moveField
  else if n = 0 || decide (2 ^ 24 < n) then some Status.rowCount
  else if wb w 112 != m.sxt.isSome then some Status.playFormat
  else match q.active with
  | none => some Status.weightsInvalid
  | some bank =>
    let c : StreamCtx := { p, q, bank, w, frame := m.frame, sxt := m.sxt, idx := m.idx }
    let sfmt := wf w 97 4
    let trans := wb w 105
    let nsq := c.nsq
    let feeders := (List.range (shapeRows q.shape)).map fun t => q.org + t * 16
    let drains := (List.range c.cols).map c.drainTile
    let nsrc := if sfmt = 13 then 2 * nsq else nsq
    let src := wf w 128 16 * 128
    let bases := feeders.flatMap fun t =>
      (((List.range nsrc).map fun k => src + k * sqSize sfmt).filter headerIn).map (tileAddr t)
    if playBad s p q.org q.shape then some Status.rowDegraded
    else match headerChecks s sfmt (streamAxis trans) bases with
    | some st => some st
    | none =>
      let dfmt := c.dfmt
      if !pairOk sfmt bank.wfmt || fmtScaleField dfmt || ((c.dkind = 1 || c.dkind = 2) && dfmt != 1) then some Status.fmtPair
      else if wf w 109 2 != bank.tally then some Status.moveField
      else
        let srcOk := feeders.all fun t => storeOk s p t src (nsrc * sqSize sfmt)
        let accOk := c.drain == 0 || drains.all fun t => storeOk s p t (wf w 144 16 * 128) (wf w 160 16 * 128)
        let maskOk := !wb w 111 || storeOk s p q.org (wf w 176 16 * 128) (cdiv n 8)
        let local_ := destBytes dfmt nsq
        let dstOk := drains.all fun t => storeOk s p t (wf w 192 16 * 128)
          (if c.dkind = 0 then local_ else wf w 210 7 * 32768)
        let t0 := c.dest / 65536
        let tileOk := c.dkind != 3 || (tileField t0 == tileField q.org && decide (tileCol t0 + c.cols ≤ 16) &&
          (List.range c.cols).all fun u => storeOk s p (t0 + u) (c.dest % 65536 * 128) local_)
        if !(srcOk && accOk && maskOk && dstOk && tileOk && auditExtents s p q m sfmt bank.wfmt nsq) then some Status.addrRange
        else if c.needsSpill then
          match m.sxt with
          | some x =>
            if !wb x 104 then some Status.accSpace
            else
              let r := lookupD {} (wf x 105 6) s.regions
              if !r.valid || r.typ || decide (r.bytes < (wf x 111 18 + c.cols * nsq) * 65536) then some Status.addrRange else none
          | none => some Status.accSpace
        else none

/-- The results of an admitted row: W FP32 values. -/
def StreamCtx.results (c : StreamCtx) (s : State) (i : Nat) : List W32 :=
  let x := streamRow s c.q (wf c.w 128 16 * 128) (wf c.w 97 4) (wb c.w 105) i
  (List.range (128 * c.cols)).map fun n =>
    let seed := if c.drain = 2 || c.drain = 3 then BitVec.ofNat 32 (sqBits s (c.acc s (n / 128) i) 0 (i % 128) (n % 128)) else 0
    dotChain c.group c.k seed x c.bank.rows n

/-- Key of the tally column's own accumulator row. -/
def tallyKey (acc i : Nat) : Nat := acc * 2 ^ 25 + i

/-- The checksum outputs of an admitted row in the tally column. Where the earlier passes on the accumulator formed no tally, the spec names no seed: the model
takes what the tally column last held for that accumulator row, else 0 (DESIGN CHOICE, assumption 83). -/
def StreamCtx.tallyOut (c : StreamCtx) (s : State) (i : Nat) : List W32 :=
  let x := streamRow s c.q (wf c.w 128 16 * 128) (wf c.w 97 4) (wb c.w 105) i
  let seeds := if c.drain = 2 || c.drain = 3 then lookupD [] (tallyKey (wf c.w 144 16) i) c.q.tallyAcc else []
  (List.range 128).map fun n => dotChain c.group c.k (seeds.getD n 0) x c.bank.tallyRows n

/-- The running sums s and a over the outputs that a checksum column covers (R84, R346). -/
def runSums (l : List W32) : W32 × W32 :=
  match l with
  | [] => (0, 0)
  | x :: r => r.foldl (fun (t : W32 × W32) y => (add32 t.1 y, add32 t.2 (BitVec.ofNat 32 (y.toNat % 2 ^ 31))))
      (x, BitVec.ofNat 32 (x.toNat % 2 ^ 31))

/-- The comparison of a row (R346): none when no tally covers the stream. -/
def StreamCtx.tallyItem (c : StreamCtx) (res : List W32) (chk : List W32) (i : Nat) : Option TallyItem :=
  let w := 128 * c.cols
  let cover : List (W32 × List W32) :=
    if c.bank.inPart then
      (List.range 16).map fun k => (res.getD (w - 16 + k) 0, ((res.take (w - 16)).zipIdx.filter fun x => x.2 % 16 == k).map Prod.fst)
    else if c.bank.tallyRows.isEmpty then []
    else (List.range 128).map fun n => (chk.getD n 0, (List.range c.cols).map fun u => res.getD (128 * u + n) 0)
  if cover.isEmpty then none
  else
    let sums := cover.map fun x => runSums x.2
    some { order := c.p.order, play := c.p.id, org := c.q.org, shape := c.q.shape, idx := c.idx, row := i, c := cover.map Prod.fst,
           s := sums.map Prod.fst, a := sums.map Prod.snd, step := c.p.step, outs := cover.map Prod.snd, run := c.p.reruns, origin := c.p.origin }

/-- Dice of element column n of row i (R566). -/
def StreamCtx.die (c : StreamCtx) (i n : Nat) : W32 :=
  dice c.p.seed c.p.step (BitVec.ofNat 32 (wf c.w 32 32)) 0
    (frameIdx c.frame (128 * c.cols) (c.frame.row0 + i) (c.frame.col0 + n))

def StreamCtx.sr (c : StreamCtx) : Bool := wb c.w 92 || wf c.w 89 3 == 2

/-- Write a converted row of drain column u (LOCAL, TILE): line, scale bytes, descriptor or amax entry (R73, R95, R133, R190). -/
def StreamCtx.writeOut (c : StreamCtx) (u i : Nat) (xs : List FVal) (s : State) : State :=
  let fmt := c.dfmt
  let base0 := c.outBase u
  let base := base0 + i / 128 * sqSize fmt
  let (el, sc, k) := convLine fmt (wf c.w 93 2) c.sr (fun j => c.die i (128 * u + j)) 0 xs {}
  let ring := tileAddr (c.drainTile u) (wf c.w 192 16 * 128) + i / 128 % max (wf c.w 210 7) 1 * 32768 + i % 128 * 256
  let s := if c.dkind = 3 then freeBytes ring 256 s else s
  let s := sqWriteLine base fmt (i % 128) el s
  let am := heldAmax fmt el xs
  let s :=
    if fmtMx fmt then
      let old := if sqFmt s base = fmt then sqAmax s base else 0
      sqWriteDesc base fmt 0 0x3F800000 (amaxMax old am) (writeBytes (base + 128 + 4 * (i % 128)) (sc.map (BitVec.ofNat 8)) s)
    else if fmtWide fmt then
      let a := base0 + c.nsq * sqSize fmt + 4 * (i / 128)
      writeN a 4 (amaxMax (BitVec.ofNat 32 (readN s a 4)) am).toNat s
    else s
  countConv (BitVec.ofNat 32 (wf c.w 32 32)) c.p.step k s

/-- The amax entries and descriptors of the destination squares start at 0 (LOCAL, TILE). -/
def StreamCtx.clearAmax (c : StreamCtx) (u : Nat) (s : State) : State :=
  let fmt := c.dfmt
  (List.range c.nsq).foldl (fun s q =>
    if fmtMx fmt then sqWriteDesc (c.outBase u + q * sqSize fmt) fmt 0 0x3F800000 0 s
    else if fmtWide fmt then writeN (c.outBase u + c.nsq * sqSize fmt + 4 * q) 4 0 s
    else s) s

/-- Send a BF16 row of drain column u as a contribution or a leaf, through the ring in its store (R108, R110, R312, R398). -/
def StreamCtx.sendOut (c : StreamCtx) (u i self : Nat) (el : List Nat) (s : State) : State :=
  let t := c.drainTile u
  let ring := wf c.w 192 16 * 128
  let s := sqWriteLine (tileAddr t (ring + i / 128 % wf c.w 210 7 * 32768)) 1 (i % 128) el s
  let data := el.map (BitVec.ofNat 16)
  let seg := c.dest / 65536 + u
  let item : MeshItem :=
    if c.dkind = 1 then .contrib (c.p.order, c.idx) { entry := c.dest % 65536, row := i, seg, step := c.p.step, src := t, data }
    else .leaf (c.p.order, c.idx) { slot := c.dest % 4096, row := i, seg, step := c.p.step, member := self, data }
  { s with mesh := s.mesh ++ [(.queue t 1, item)] }

/-- Convert and deliver a row of results (ONLY, LAST). -/
def StreamCtx.deliver (c : StreamCtx) (self i : Nat) (res : List W32) (s : State) : State :=
  (List.range c.cols).foldl (fun s u =>
    let xs := ((res.drop (128 * u)).take 128).map v32
    if c.dkind = 1 || c.dkind = 2 then
      if c.bank.inPart && u + 1 == c.cols then s
      else
        let (el, k) := convRun 1 c.sr (fun j => c.die i (128 * u + j)) 0 0 xs {}
        c.sendOut u i self el (countConv (BitVec.ofNat 32 (wf c.w 32 32)) c.p.step k s)
    else c.writeOut u i xs s) s

/-- Zero in a masked row's slot in the destination format (R68). The spec speaks of the elements only: in an MX square the row's four scale bytes become 127
(DESIGN CHOICE, assumption 84). -/
def StreamCtx.zeroSlot (c : StreamCtx) (self i : Nat) (s : State) : State :=
  (List.range c.cols).foldl (fun s u =>
    let zeros := List.replicate 128 0
    if c.dkind = 1 || c.dkind = 2 then (if c.bank.inPart && u + 1 == c.cols then s else c.sendOut u i self zeros s)
    else
      let base := c.outBase u + i / 128 * sqSize c.dfmt
      let s := sqWriteLine base c.dfmt (i % 128) zeros s
      if fmtMx c.dfmt then writeBytes (base + 128 + 4 * (i % 128)) (List.replicate 4 127) s else s) s

/-- Write a row of results into the accumulator (FIRST, ACC): in the spill region a line is one granule, whose write meets what a near-tier write meets (R291). -/
def StreamCtx.accumulate (c : StreamCtx) (i : Nat) (res : List W32) (s : State) : State :=
  (List.range c.cols).foldl (fun s u =>
    let a := c.acc s u i
    let el := ((res.drop (128 * u)).take 128).map BitVec.toNat
    if a < nearEnd then nearWriteFor c.p.origin (a + 512 * (i % 128)) (el.flatMap (toLE 4)) 1 s else sqWriteLine a 0 (i % 128) el s) s

/-- Row i's accumulator line lies in a channel that serves no access now (R279, R281). -/
def StreamCtx.spillWaits (c : StreamCtx) (s : State) (i : Nat) : Bool :=
  c.drain != 0 && (List.range c.cols).any fun u => rangeWaits s (c.acc s u i + 512 * (i % 128)) 512

/-- The padding lines behind the last row of a destination's last square are +0 (R98), their MX scale bytes 127 (assumption 84). -/
def StreamCtx.padOut (c : StreamCtx) (s : State) : State :=
  if c.dkind = 1 || c.dkind = 2 || c.n % 128 = 0 then s
  else
    (List.range c.cols).foldl (fun s u => padLines (c.outBase u + (c.nsq - 1) * sqSize c.dfmt) c.dfmt (c.n % 128) s) s

/-- Free values in place of a row's results: the masks of its passes differ (R69). -/
def freeRow (n : Nat) (s : State) : List W32 × State :=
  ((List.range n).map fun k => (Config.freeValue (s.freeCtr + k)).setWidth 32, { s with freeCtr := s.freeCtr + n })

/-- The wide or narrow operands an audit recomputes a result from (R352). -/
def StreamCtx.auditValue (c : StreamCtx) (s : State) (i n : Nat) : W32 :=
  match c.sxt, wb c.w 112 with
  | some x, true =>
    let row := streamRow s c.q (wf x 64 16 * 128) (wf x 96 4) (wb c.w 105) i
    let rows := statRows s c.q (wf x 80 16 * 128) 0 (wf x 100 4) c.bank.trans
    dotChain 16 c.k 0 row rows n
  | _, _ =>
    let row := streamRow s c.q (wf c.w 128 16 * 128) (wf c.w 97 4) (wb c.w 105) i
    dotChain 16 c.k 0 row c.bank.rows n

/-- Offer block b of drain column u to the field's audit tile (R351). R352 does not say where the second wide square of an MXFP4 tile row lies: its results
are free values (assumption 73). -/
def StreamCtx.offer (c : StreamCtx) (b u : Nat) (rows : List (Nat × List W32)) (s : State) : State :=
  let fi := tileField c.q.org
  let f := getField s fi
  let n := f.eligible + 1
  let f := { f with eligible := n }
  if n % 2 ^ s.watch.audPeriod.toNat != 0 then setField fi f s
  else if f.audit.isSome then setField fi { f with skipped := satAdd 24 f.skipped 1 } s
  else
    let blk := rows.filter fun r => r.1 / 128 == b
    let k := if c.bank.wfmt == 13 && c.sxt.isSome && wb c.w 112 then blk.length * 128 else 0
    let it : AuditItem := {
      order := c.p.order, play := c.p.id, idx := c.idx, block := b, tile := c.drainTile u, sid := BitVec.ofNat 32 (wf c.w 32 32), step := c.p.step
      n := blk.flatMap fun r => (r.2.drop (128 * u)).take 128, origin := c.p.origin
      w := if k = 0 then blk.flatMap fun r => (List.range 128).map fun j => c.auditValue s r.1 (128 * u + j)
        else (List.range k).map fun j => (Config.freeValue (s.freeCtr + j)).setWidth 32 }
    setField fi { f with audit := some it } { s with freeCtr := s.freeCtr + k }

/-- The mask of a row differs from that of the first pass on the stream's accumulator (R69). -/
def StreamCtx.differs (c : StreamCtx) (opened : Bool) (i : Nat) : Bool :=
  (c.drain == 2 || c.drain == 3) && match (lookupD [] (wf c.w 144 16) c.q.accMask)[i]? with
    | some b => b != opened
    | none => false

/-- A row's results where they belong: the accumulator or the destination. -/
def StreamCtx.drainRow (c : StreamCtx) (self i : Nat) (res : List W32) (s : State) : State :=
  if c.drain = 1 || c.drain = 2 then c.accumulate i res s else c.deliver self i res s

/-- What a partition remembers of a row: its mask bit in FIRST (R69), the tally column's own accumulator in FIRST and ACC (R84), the rows of the run. -/
def StreamCtx.keepRow (c : StreamCtx) (opened : Bool) (chk : List W32) (i : Nat) (s : State) : State :=
  match findPart s c.q.org c.q.shape with
  | none => s
  | some q =>
    let a := wf c.w 144 16
    let q := if c.drain = 1 then { q with accMask := upsert a (lookupD [] a q.accMask ++ [opened]) q.accMask } else q
    let q := if (c.drain = 1 || c.drain = 2) && !chk.isEmpty then { q with tallyAcc := upsert (tallyKey a i) chk q.tallyAcc } else q
    setPart (if opened then runRow s q else q) s

/-- One logical row of a STREAM: its results, free ones where the masks of its passes differ (R69), or a masked row's slot; its comparison (R84). R69 speaks of values
only: a row that is masked here and was open in the first pass is written or sent like an open one, with free values (DESIGN CHOICE, assumption 110). -/
def StreamCtx.row (c : StreamCtx) (self i : Nat) (s : State) : State × Option (List W32) :=
  let opened := rowOpen s c.q.org c.w i
  let differs := c.differs opened i
  if opened then
    let res := c.results s i
    let chk := if c.bank.tallyRows.isEmpty then [] else c.tallyOut s i
    let (res, s) := if differs then freeRow (128 * c.cols) s else (res, s)
    let s := c.keepRow true chk i (c.drainRow self i res s)
    let s := match c.tallyItem res chk i with
      | some t => adjField (tileField c.q.org) (fun f => { f with tallies := f.tallies ++ [t] }) s
      | none => s
    (s, some res)
  else if differs then
    let (res, s) := freeRow (128 * c.cols) s
    (c.drainRow self i res s, none)
  else
    let s := c.keepRow false [] i s
    (if wb c.w 107 && (c.drain = 0 || c.drain = 3) then c.zeroSlot self i s else s, none)

/-- A field's present member number is set RTS's SELF for a COLLECTIVE destination. -/
def leafSelf (s : State) (slot : Nat) : Nat :=
  match lookup slot s.colls with
  | some c => (lookupD {} c.rts s.sets).self
  | none => 0

/-- Rows of a STREAM's packets that are on their way: on the mesh, or held at a capstan (R247, R315). -/
def pendingRows (s : State) (tag : Nat × Nat) : List Nat :=
  (s.mesh.filterMap fun x => match x.2 with
    | .contrib t c => if t = tag then some c.row else none
    | .leaf t l => if t = tag then some l.row else none
    | _ => none) ++ s.cap.held.filterMap fun x => if x.1 = tag then some x.2.row else none

/-- Rows of a STREAM's packets that were lost on their way (R45). -/
def lostRows (s : State) (tag : Nat × Nat) : List Nat :=
  (s.plays.filter fun p => p.order == tag.1).flatMap fun p => p.queues.flatMap fun q =>
    if q.code = 1 then (q.moves.filter fun m => m.idx == tag.2).flatMap QMove.lost else []

/-- Rows of a STREAM's packets that no destination has accepted (R247, R249). -/
def unaccepted (s : State) (tag : Nat × Nat) : List Nat := pendingRows s tag ++ lostRows s tag

/-- Where row i has its place in the outbound ring that a STREAM names: an offset in its drains' stores (R110). -/
def ringPlace (w : MoveWord) (i : Nat) : Nat := wf w 192 16 * 128 + i / 128 % max (wf w 210 7) 1 * 32768 + i % 128 * 256

/-- The ring has space for row i (R110): of the row that had its place, of this STREAM or of an earlier one that is still in its queue, every packet is accepted. -/
def StreamCtx.ringRoom (c : StreamCtx) (s : State) (i : Nat) : Bool :=
  !((c.drain == 0 || c.drain == 3) && (c.dkind == 1 || c.dkind == 2)) ||
    ((unaccepted s (c.p.order, c.idx)).all fun r => decide (i < r + 128 * wf c.w 210 7)) &&
      c.p.queues.all fun x => x.tile != c.q.org || x.code != 1 || x.moves.all fun m =>
        m.idx == c.idx || wf m.word 208 2 == 0 || wf m.word 208 2 == 3 ||
          (unaccepted s (c.p.order, m.idx)).all fun r =>
            decide (ringPlace c.w i + 256 ≤ ringPlace m.word r) || decide (ringPlace m.word r + 256 ≤ ringPlace c.w i)

/-- Beat b of a power turn is a pass beat of field f with p pass beats (R446). -/
def isPassBeat (b f p : Nat) : Bool :=
  let x := (b + 128 * f) % 1024
  decide (x * p / 1024 < (x + 1) * p / 1024)

/-- The present beat is a pass beat of field f (R63, R446). -/
def passing (s : State) (f : Nat) : Bool :=
  (getField s f).passNow ||
    (s.power.next.isSome && isPassBeat ((s.cad.ct - s.power.boundary).toNat / 65536) f (getField s f).pass)

/-- A partition that may admit a row: no run opens on a ramped one without its ramp-start grant (R57, R59, R64). R61 admits a run of one row in one cycle and does not
say whether that is an up ramp: the model asks for its ramp start too (DESIGN CHOICE, assumption 109). -/
def rampOk (s : State) (q : Partition) : Bool := !shapeRamped q.shape || runLive s q

/-- Row i of the stream can be admitted now (R63, R64, R110, R279); a masked row takes no admission, but what it sends takes its place in a ring. -/
def StreamCtx.admits (c : StreamCtx) (s : State) (i : Nat) : Bool :=
  if rowOpen s c.q.org c.w i then !passing s (tileField c.q.org) && rampOk s c.q && c.ringRoom s i && !c.spillWaits s i
  else if c.differs false i then c.ringRoom s i && !c.spillWaits s i
  else !wb c.w 107 || c.ringRoom s i

/-- The stream at hand for a queued STREAM, while its partition has an active bank. -/
def streamCtx (p : Play) (m : QMove) (s : State) : Option StreamCtx :=
  (findPart s p.org p.shape).bind fun q => q.active.map fun bank => { p, q, bank, w := m.word, frame := m.frame, sxt := m.sxt, idx := m.idx }

/-- The audit offers of square b (R351), and after the last row the padding, FALLBACK (R350) and, without CHAIN, the end of the run (R57). -/
def StreamCtx.afterRow (c : StreamCtx) (i : Nat) (blk : List (Nat × List W32)) (s : State) : State :=
  let last := i + 1 == c.n
  let s := if wb c.w 108 && (c.drain = 0 || c.drain = 1) && (last || i % 128 == 127) then
      (List.range c.cols).foldl (fun s u => c.offer (i / 128) u blk s) s
    else s
  if !last then s
  else
    let s := if c.drain = 0 || c.drain = 3 then c.padOut s else s
    let s := if c.bank.inPart then adjField (tileField c.q.org) (fun f => { f with fallback := satAdd 16 f.fallback 1 }) s else s
    match findPart s c.q.org c.q.shape with
    | some q => setPart (if wb c.w 106 then q else { q with runOpen := false }) s
    | none => s

/-- Admit rows of a started STREAM for as long as nothing holds them (R70): a pass beat, a ramp start, a full ring. -/
def admitRows (p : Play) : Nat → QMove → State → QMove × State
  | 0, m, s => (m, s)
  | k + 1, m, s =>
    match streamCtx p m s with
    | none => (m, s)
    | some c =>
      if c.n ≤ m.next || !c.admits s m.next then (m, s)
      else
        let self := if c.dkind = 2 then leafSelf s (c.dest % 4096) else 0
        let (s, r) := c.row self m.next s
        let blk := (if m.next % 128 = 0 then [] else m.blk) ++ (match r with
          | some x => if wb c.w 108 then [(m.next, x)] else []
          | none => [])
        admitRows p k { m with next := m.next + 1, blk } (c.afterRow m.next blk s)

/-- Insert a ramp-start request: in the order of CT, then field, then origin (R64). -/
def rampInsert (x : Nat × Nat × Nat) : List (Nat × Nat × Nat) → List (Nat × Nat × Nat)
  | [] => [x]
  | y :: r => if decide (x.1 < y.1) || (x.1 == y.1 && decide (x.2.1 < y.2.1)) then x :: y :: r else y :: rampInsert x r

/-- A partition asks for a ramp start, once (R64): its run, if it had one, has ended (R62). Requests of one value of the CT word count as one mesh cycle's (DESIGN CHOICE, assumption 42); a logical ID
has its field in the high bits, so its order is that of the field and then of the origin. -/
def askRamp (q : Partition) (s : State) : State :=
  if s.rampQueue.any fun x => x.2 == (q.org, q.shape) then s
  else setPart { q with rampWait := true, runOpen := false } { s with rampQueue := rampInsert (s.cad.ct.toNat, q.org, q.shape) s.rampQueue }

/-- A started STREAM goes on; one that only its ramp start holds asks for it. -/
def streamGo (p : Play) (m : QMove) (s : State) : QMove × State :=
  let (m, s) := admitRows p (wf m.word 64 25) m s
  match streamCtx p m s with
  | none => (m, s)
  | some c =>
    if decide (m.next < c.n) && rowOpen s c.q.org c.w m.next && !passing s (tileField c.q.org) && !rampOk s c.q then (m, askRamp c.q s) else (m, s)

/-- Every row of a STREAM has been admitted or masked. -/
def admitted (m : QMove) : Bool := decide (wf m.word 64 25 ≤ m.next)

/-- The granules of a spilled accumulator that a pass of ACC or LAST reads back, by address. -/
def StreamCtx.spilled (c : StreamCtx) (s : State) : List Nat :=
  if c.drain == 2 || c.drain == 3 then
    (List.range c.cols).flatMap fun u => (List.range c.n).filterMap fun i =>
      let a := c.acc s u i
      if a < nearEnd then some (a + 512 * (i % 128)) else none
  else []

/-- A spilled accumulator cannot be read back: a granule is retired, or one of its units carries inverted parity (R289, R291). -/
def StreamCtx.spillBad (c : StreamCtx) (s : State) : Bool := (c.spilled s).any fun a => readMeets s isRetired a 512 || readMeets s isPoisoned a 512

/-- RETIRED_ACCESS for a play, when a read of its engine meets a retired granule (R291). -/
def retiredRead (p : Play) (gone : Bool) (s : State) : State := if gone then postFull Ev.retiredAccess p.origin 0xFFFFFFFF p.id p.step [] s else s

/-- A STREAM to a mesh destination, or with a spilled accumulator, meets a crossing that refuses transfers (R46). -/
def StreamCtx.closed (c : StreamCtx) (s : State) : Bool :=
  ((c.dkind != 0 || c.needsSpill) && xingClosed s (tileField c.q.org) 8) || (c.dkind == 1 && xingClosed s 10 8) || (c.needsSpill && xingClosed s 9 8)

/-- STREAM at its start: checks, then as many of its rows as can be admitted (assumption 11). -/
def startStream (p : Play) (m : QMove) (s : State) : Start :=
  match findPart s p.org p.shape with
  | none => .hold
  | some q =>
    match streamCheck s p q m with
    | some st => .fail st s
    | none =>
      match streamCtx p m s with
      | none => .hold
      | some c =>
        match m.fault with
        | .overrun a b => .fault 16 (xingRecordFor p.origin p.id p.step a b false s)
        | _ =>
          if c.closed s then .fault 15 s
          else if c.spillBad s then
            .fault 1 (granuleFault ((c.spilled s).find? (fun a => readMeets s isRetired a 512 || readMeets s isPoisoned a 512) |>.getD 0) p.origin p.id p.step
              (retiredRead p ((c.spilled s).any fun a => readMeets s isRetired a 512) s))
          else
            let s := if c.drain = 1 then setPart { q with accMask := upsert (wf c.w 144 16) [] q.accMask } s else s
            let s := if (c.drain = 0 || c.drain = 3) && (c.dkind = 0 || c.dkind = 3) then
                (List.range c.cols).foldl (fun s u => c.clearAmax u s) s else s
            let (m, s) := streamGo p { m with started := true, next := 0, blk := [] } s
            .run m s

end Sys2Proof.Machine
end

