-- ==== Sys2Proof/Machine/Ply.lean ====
section
/-! DEFINITION. The ply unit: what each ply move checks and computes (chapter 06, R199 to R206, R568). -/

namespace Sys2Proof.Machine

/-- The dice of a play's conversion under a SID (site 0). -/
def playDie (p : Play) (sid : W32) (idx : Nat) : W32 := dice p.seed p.step sid 0 idx
def sidOf (w : MoveWord) : W32 := BitVec.ofNat 32 (wf w 32 32)

/-! ### Runs of squares -/

/-- Squares that hold n lines. -/
def sqsOf (n : Nat) : Nat := cdiv n 128
/-- Line k of an operand run, in FP32 (R149, R200). -/
def runLine (s : State) (base fmt : Nat) (trans : Bool) (k : Nat) : List W32 := sqLine32 s (base + k / 128 * sqSize fmt) fmt (k % 128) trans

/-- The headers of operands (base, format, squares) that lie in the store; a square that begins past its end has none (assumption 82). -/
def operandHeads (ops : List (Nat × Nat × Nat)) : List (Nat × Nat) :=
  ops.flatMap fun (b, f, n) =>
    ((List.range n).filter fun k => headerIn ((b - tileBase) % 2 ^ 23 + k * sqSize f)).map fun k => (b + k * sqSize f, f)

/-- A header holds another format than its move names (R97). -/
def headMismatch (s : State) (ops : List (Nat × Nat × Nat)) : Bool := (operandHeads ops).any fun (b, f) => fmtScaled f && sqFmt s b != f

/-- First failure of the header checks of R568 over operands: format, then SCALE. -/
def operandCheck (s : State) (ops : List (Nat × Nat × Nat)) : Option (BitVec 16) :=
  let heads := operandHeads ops
  if headMismatch s ops then some Status.fmtMismatch
  else if heads.any (fun (b, f) => fmtScaleField f && !scaleValid (sqScale s b)) then some Status.scaleInvalid
  else none

/-- Converted destination lines (R150, R151): `die k j` is the dice of element j of line k, `valid k` how many elements of line k lie inside the
tensor (the rest is padding, R98). -/
structure DestRun where
  base : Nat
  fmt : Nat
  margin : Nat
  sr : Bool
  sid : W32
  step : W32

/-- Line k converted: elements, scale bytes, counts, and the amax of what it holds. -/
def DestRun.conv (d : DestRun) (die : Nat → Nat → W32) (k valid : Nat) (xs : List W32) : List Nat × List Nat × Counts × W32 :=
  let xs := (xs.take valid).map v32 ++ List.replicate (128 - valid) (.fin false 0 0)
  let (el, sc, c) := convLine d.fmt d.margin d.sr (die k) 0 xs {}
  (el, sc, { c with conv := c.conv - (128 - valid) }, heldAmax d.fmt el xs)

/-- Write line k of a destination run. -/
def DestRun.line (d : DestRun) (die : Nat → Nat → W32) (k valid : Nat) (xs : List W32) (s : State) : State :=
  let (el, sc, c, _) := d.conv die k valid xs
  let base := d.base + k / 128 * sqSize d.fmt
  let s := sqWriteLine base d.fmt (k % 128) el s
  let s := if fmtMx d.fmt then writeBytes (base + 128 + 4 * (k % 128)) (sc.map (BitVec.ofNat 8)) s else s
  countConv d.sid d.step c s

/-- The AMAX of each square, from the amax of its lines: descriptor lines (MX, AXIS 0) or the amax table (R95, R133, R190). -/
def DestRun.heads (d : DestRun) (amax : List W32) (s : State) : State :=
  let nsq := sqsOf amax.length
  (List.range nsq).foldl (fun s q =>
    let am := ((amax.drop (128 * q)).take 128).foldl amaxMax 0
    if fmtMx d.fmt then sqWriteDesc (d.base + q * sqSize d.fmt) d.fmt 0 0x3F800000 am s
    else if fmtWide d.fmt then writeN (d.base + nsq * sqSize d.fmt + 4 * q) 4 am.toNat s
    else s) s

/-- Write a whole run, with the padding behind its last line (R98). -/
def DestRun.write (d : DestRun) (die : Nat → Nat → W32) (valid : Nat → Nat) (lines : List (List W32)) (s : State) : State :=
  let n := lines.length
  let s := d.heads (lines.zipIdx.map fun (x, k) => (d.conv die k (valid k) x).2.2.2) (lines.zipIdx.foldl (fun s (x, k) => d.line die k (valid k) x s) s)
  if n % 128 = 0 then s else padLines (d.base + n / 128 * sqSize d.fmt) d.fmt (n % 128) s

/-- Two byte ranges share a byte. -/
def rangesMeet (a n b m : Nat) : Bool := decide (a < b + m) && decide (b < a + n)

/-! ### ELEM (R153, R199, R200) -/

def elemUsesB (fn : Nat) : Bool := decide (fn ≤ 5) || fn == 8 || fn == 9 || fn == 10 || fn == 0x18
def elemUsesC (fn : Nat) : Bool := fn == 3 || fn == 8

/-- Encoding checks of ELEM. -/
def encElem (w : MoveWord) : Bool :=
  let fn := wf w 64 6
  let bsc := wb w 89
  decide (fn ≤ 0x19) && wf w 160 24 != 0 && decide (wf w 93 3 ≤ 4) && fmtValid (wf w 70 4) && fmtValid (wf w 82 4) && wf w 184 72 == 0 &&
    (if elemUsesB fn then fmtValid (wf w 74 4) && (!bsc || (wf w 74 4 == 0 && !wb w 87))
     else wf w 74 4 == 0 && !wb w 87 && !bsc && wf w 112 16 == 0) &&
    (if elemUsesC fn then fmtValid (wf w 78 4) else wf w 78 4 == 0 && !wb w 88 && wf w 128 16 == 0) &&
    (fn != 0x0B || (wf w 82 4 == wf w 70 4 && wf w 90 6 == 0 && wf w 32 32 == 0))

/-- The result of an elementwise operation. -/
def elemOp (fn : Nat) (a b c : W32) : W32 :=
  match fn with
  | 0x00 => add32 a b
  | 0x01 => sub32 a b
  | 0x02 => mul32 a b
  | 0x03 => fma32 a b c
  | 0x04 => min32 a b
  | 0x05 => max32 a b
  | 0x06 => r32 (v32 a).abs
  | 0x07 => r32 (v32 a).neg
  | 0x08 => if (v32 c).isZero then r32 (v32 b) else r32 (v32 a)
  | 0x09 => if isNan32 a || isNan32 b then 0 else if ltVal a b then 0x3F800000 else 0
  | 0x0A => if isNan32 a || isNan32 b then 0 else if ltVal a b || ltVal b a then 0 else 0x3F800000
  | 0x0D => approx .rcp a
  | 0x0E => approx .rsqrt a
  | 0x0F => approx .exp2 a
  | 0x10 => approx .log2 a
  | 0x11 => approx .exp a
  | 0x12 => approx .log a
  | 0x13 => approx .tanh a
  | 0x14 => approx .sigmoid a
  | 0x15 => approx .erf a
  | 0x16 => approx .sin a
  | 0x17 => approx .cos a
  | 0x18 => div32 a b
  | 0x19 => sqrt32 a
  | _ => r32 (v32 a)

/-- COPY of a run: raw elements, header and scale block, or the amax table (R200), and the padding behind the last line (R98). -/
def copyRun (a d fmt n : Nat) (trans : Bool) (s : State) : State :=
  (fun s => if n % 128 = 0 then s else padBody (d + n / 128 * sqSize fmt) fmt (n % 128) s) <| (List.range n).foldl (fun s k =>
    let sb := a + k / 128 * sqSize fmt
    let db := d + k / 128 * sqSize fmt
    let el := (List.range 128).map fun j => if trans then sqBits s sb fmt j (k % 128) else sqBits s sb fmt (k % 128) j
    let vals := (List.range (min 128 (n - k))).flatMap fun i => (List.range 128).map fun j => if trans then sqElem s sb fmt j i else sqElem s sb fmt i j
    let s' := if k % 128 != 0 then s
      else if fmtMx fmt then
        let s := sqWriteDesc db fmt (if trans then 1 - sqAxis s sb else sqAxis s sb) (sqScale s sb) (sqAmax s sb) s
        writeBytes (db + 128) (readBytes s (sb + 128) 512) s
      else if fmtWide fmt then writeN (d + sqsOf n * sqSize fmt + 4 * (k / 128)) 4 (amax32 vals).toNat s
      else s
    sqWriteLine db fmt (k % 128) el s') s

/-- ELEM at its start. No field of ELEM, STREAM or PACK gives a tensor's column extent C, so that the padding of R98 is known by lines only: computed results stand in
columns beyond C too (DESIGN CHOICE, assumption 112). -/
def startElem (p : Play) (tile : Nat) (m : QMove) (s : State) : Start :=
  let w := m.word
  let fn := wf w 64 6
  let n := wf w 160 24
  let nsq := sqsOf n
  let af := wf w 70 4
  let bf := wf w 74 4
  let cf := wf w 78 4
  let df := wf w 82 4
  let at_ (lo : Nat) := wf w lo 16 * 128
  let bsc := wb w 89
  let useB := elemUsesB fn
  let useC := elemUsesC fn
  let base (o : Nat) := tileAddr tile o
  let ops := [(at_ 96, af)] ++ (if useB && !bsc then [(at_ 112, bf)] else []) ++ (if useC then [(at_ 128, cf)] else [])
  if !encElem w then .fail Status.moveField s
  else if fmtScaleField df then .fail Status.fmtPair s
  else match operandCheck s (ops.map fun (o, f) => (base o, f, nsq)) with
  | some st => .fail st s
  | none =>
    let dn := destBytes df nsq
    if !(ops.all (fun (o, f) => storeOk s p tile o (nsq * sqSize f)) && storeOk s p tile (at_ 144) dn &&
        (!(useB && bsc) || storeOk s p tile (at_ 112) 4)) then .fail Status.addrRange s
    else
      let d := at_ 144
      let extent (f : Nat) (tr : Bool) := if tr || n == 0 then nsq * sqSize f else (nsq - 1) * sqSize f + fmtHdr f + ((n - 1) % 128 + 1) * 16 * fmtBits f
      let dext := extent df false
      let meets (o sz : Nat) := rangesMeet o sz d dext || (decide (nsq * sqSize df < dn) && rangesMeet o sz (d + nsq * sqSize df) (dn - nsq * sqSize df))
      let bad (o f : Nat) (tr : Bool) := meets o (extent f tr) && !(o == d && sqSize f == sqSize df && !tr)
      let undef := bad (at_ 96) af (wb w 86) || (useB && !bsc && bad (at_ 112) bf (wb w 87)) || (useC && bad (at_ 128) cf (wb w 88)) ||
        (useB && bsc && meets (at_ 112) 4)
      let m := { m with started := true }
      if undef then .run m (freeBytes (base d) dn s)
      else if fn = 0x0B then .run m (copyRun (base (at_ 96)) (base d) af n (wb w 86) s)
      else
        let lines := (List.range n).map fun k =>
          let a := runLine s (base (at_ 96)) af (wb w 86) k
          let b := if useB then (if bsc then List.replicate 128 (BitVec.ofNat 32 (readN s (base (at_ 112)) 4)) else runLine s (base (at_ 112)) bf (wb w 87) k) else a
          let c := if useC then runLine s (base (at_ 128)) cf (wb w 88) k else a
          (a.zip (b.zip c)).map fun (x, y, z) => elemOp fn x y z
        let run : DestRun := { base := base d, fmt := df, margin := wf w 91 2, sr := wb w 90 || wf w 93 3 == 2, sid := sidOf w, step := p.step }
        let die (k j : Nat) := playDie p (sidOf w) (let c := runCoord m.frame k j; frameIdx m.frame 128 c.1 c.2)
        .run m (run.write die (fun _ => 128) lines s)

/-! ### Reduction groups: REDUCE, SMXB, NRMB, AMAXT (R156 to R162, R201, R202, R206) -/

/-- Encoding checks of REDUCE (0x21), SMXB (0x22), NRMB (0x23). -/
def encReduce (op : Nat) (w : MoveWord) : Bool :=
  let sub := wf w 64 2
  let nlen := wf w 149 25
  fmtValid (wf w 67 4) && fmtValid (wf w 71 4) && fmtValid (wf w 75 4) && decide (wf w 82 3 ≤ 4) && decide (1 ≤ nlen) && decide (nlen ≤ 2 ^ 24) &&
    wf w 191 17 != 0 && wf w 220 16 != 0 && wf w 236 20 == 0 &&
    (if op = 0x21 then sub != 3 && !wb w 66 && wf w 71 4 == 0 && wf w 101 16 == 0 && wf w 117 16 == 0 && wf w 75 4 == 0 && wf w 79 3 == 0
     else if op = 0x22 then sub == 0 && !wb w 66 && wf w 117 16 == 0
     else decide (sub ≤ 1))

/-- Encoding checks of AMAXT. -/
def encAmaxt (w : MoveWord) : Bool := wf w 175 81 == 0 && wf w 32 32 == 0

/-- Parts of the NRMB parameter block at P: r and the GACC accumulator. -/
def nrmR (w : MoveWord) : Nat := wf w 117 16 * 128 + 512 * wf w 191 17
def nrmAcc (w : MoveWord) : Nat := nrmR w + cdiv (4 * wf w 220 16) 128 * 128
def nrmEnd (w : MoveWord) : Nat := nrmAcc w + (if wb w 66 then 512 * wf w 191 17 else 0)

def opOf (w : MoveWord) : Nat := wf w 0 8
def groupOf (w : MoveWord) : Nat := if opOf w = 0x29 then wf w 156 12 else wf w 208 12
def isGroupOp (op : Nat) : Bool := op == 0x21 || op == 0x22 || op == 0x23 || op == 0x29

/-- An earlier move with a GROUP value, its result arrived, has not completed at some tile: a move that starts with the value reuses it (R202). -/
def groupReused (p : Play) (group : Nat) : Bool :=
  p.queues.any fun q => q.code == 2 && match q.moves with
    | m :: _ => m.started && m.ready && isGroupOp (opOf m.word) && groupOf m.word == group
    | [] => false

/-- The start of a grouped move: its own checks; then it waits for the group (R568). -/
def startGroup (p : Play) (tile op : Nat) (m : QMove) (s : State) : Start :=
  let w := m.word
  let m := { m with started := true, reused := groupReused p (groupOf w) }
  if op = 0x29 then
    if !encAmaxt w then .fail Status.moveField s
    else if !(storeOk s p tile (wf w 64 16 * 128) (4 * wf w 96 20) && storeOk s p tile (wf w 80 16 * 128) 4) then .fail Status.addrRange s
    else if wf w 116 20 % 128 != 0 then .fail Status.rowSpan s
    else .run m s
  else
    let af := wf w 67 4
    let bf := wf w 71 4
    let df := wf w 75 4
    let lines := wf w 220 16 * wf w 191 17
    let nsq := sqsOf lines
    let a := wf w 85 16 * 128
    let b := wf w 101 16 * 128
    let d := wf w 133 16 * 128
    let ops := (a, af) :: (if op = 0x21 then [] else [(b, bf)])
    if !encReduce op w then .fail Status.moveField s
    else if fmtScaleField df then .fail Status.fmtPair s
    else match operandCheck s (ops.map fun (o, f) => (tileAddr tile o, f, nsq)) with
    | some st => .fail st s
    | none =>
      if !(ops.all (fun (o, f) => storeOk s p tile o (nsq * sqSize f)) &&
          storeOk s p tile d (if op = 0x21 then 4 * wf w 220 16 else destBytes df nsq) &&
          (op != 0x23 || storeOk s p tile (wf w 117 16 * 128) (nrmEnd w - wf w 117 16 * 128))) then .fail Status.addrRange s
      else if op = 0x23 && decide (32 < wf w 191 17) then .fail Status.rowSpan s
      else .run m s

/-- A member of a group: its tile and move. -/
abbrev Member := Nat × QMove

/-- Row length, and the member's first element and length. -/
def memLen (w : MoveWord) : Nat := if opOf w = 0x29 then wf w 136 20 else wf w 149 25
def memOff (w : MoveWord) : Nat := if opOf w = 0x29 then wf w 116 20 else wf w 174 17 * 128
def memSize (w : MoveWord) : Nat := if opOf w = 0x29 then wf w 96 20 else wf w 191 17 * 128
/-- What the members must agree on (R158): opcode, SUB, NLEN, ROWS. -/
def memSig (w : MoveWord) : Nat × Nat × Nat × Nat :=
  if opOf w = 0x29 then (0x29, 0, memLen w, 1) else (opOf w, wf w 64 2, memLen w, wf w 220 16)

/-- The members of a tile's group in its play: heads of PLY queues that have started such a move and wait. -/
def members (p : Play) (group : Nat) : List Member :=
  p.queues.filterMap fun q =>
    match q.code == 2, q.moves with
    | true, m :: _ => if m.started && !m.ready && isGroupOp (opOf m.word) && groupOf m.word == group then some (q.tile, m) else none
    | _, _ => none

/-- Members by offset. -/
def insertMember (m : Member) : List Member → List Member
  | [] => [m]
  | x :: r => if memOff m.2.word ≤ memOff x.2.word then m :: x :: r else x :: insertMember m r
def sortMembers (l : List Member) : List Member := l.foldr insertMember []

/-- What the root finds (R158): all segments present once, some missing, or a fault. -/
inductive Span where
  | complete | missing | bad
  deriving DecidableEq, Repr

/-- Walk the sorted segments from element cur; `gap` says that elements before cur are missing. -/
def spanOf (n : Nat) : Nat → Bool → List Member → Span
  | cur, gap, [] => if n ≤ cur && !gap then .complete else .missing
  | cur, gap, m :: r =>
    let o := memOff m.2.word
    if n ≤ o || decide (o < cur) then .bad
    else spanOf n (o + memSize m.2.word) (gap || decide (cur < o)) r

def groupSpan (l : List Member) : Span :=
  match l with
  | [] => .missing
  | m :: _ => if l.any (fun x => memSig x.2.word != memSig m.2.word) then .bad else spanOf (memLen m.2.word) 0 false l

/-- Row i of a member's segment of an operand, cut to the row's n elements. -/
def segRow (s : State) (m : Member) (lo flo i : Nat) : List W32 :=
  let w := m.2.word
  let segl := wf w 191 17
  let l := (List.range segl).flatMap fun k => runLine s (tileAddr m.1 (wf w lo 16 * 128)) (wf w flo 4) false (i * segl + k)
  l.take (min (segl * 128) (memLen w - memOff w))

def rowOfGroup (s : State) (l : List Member) (lo flo i : Nat) : List W32 := l.flatMap fun m => segRow s m lo flo i

/-- A FP32 value of a parameter block. -/
def parF (s : State) (tile off : Nat) : W32 := BitVec.ofNat 32 (readN s (tileAddr tile off) 4)

/-- γ of a member, cut to its segment. -/
def segGamma (s : State) (m : Member) : List W32 :=
  let w := m.2.word
  (List.range (min (wf w 191 17 * 128) (memLen w - memOff w))).map fun j => parF s m.1 (wf w 117 16 * 128 + 4 * j)

/-- g, xh and q of a segment row of NRMB (R161). -/
def nrmTerms (s : State) (m : Member) (i : Nat) : List (W32 × W32 × W32 × W32) :=
  let r := parF s m.1 (nrmR m.2.word + 4 * i)
  let x := segRow s m 85 67 i
  let dy := segRow s m 101 71 i
  (x.zip (dy.zip (segGamma s m))).map fun (x, dy, ga) =>
    let g := mul32 dy ga
    let xh := mul32 x r
    (g, xh, mul32 g xh, dy)

/-- dx of a member's row (R160, R161). -/
def dxRow (s : State) (l : List Member) (m : Member) (i : Nat) : List W32 :=
  let w := m.2.word
  if opOf w = 0x22 then
    let y := rowOfGroup s l 85 67 i
    let dy := rowOfGroup s l 101 71 i
    let t := tree 0 add32 ((y.zip dy).map fun (a, b) => mul32 a b)
    ((segRow s m 85 67 i).zip (segRow s m 101 71 i)).map fun (y, dy) => mul32 y (sub32 dy t)
  else
    let all := l.flatMap fun k => nrmTerms s k i
    let c := div32 0x3F800000 (ofNat32 (memLen w))
    let a := mul32 (tree 0 add32 (all.map fun t => t.2.2.1)) c
    let b := mul32 (tree 0 add32 (all.map fun t => t.1)) c
    let r := parF s m.1 (nrmR w + 4 * i)
    (nrmTerms s m i).map fun (g, xh, _, _) =>
      if wf w 64 2 = 0 then mul32 r (sub32 g (mul32 xh a)) else mul32 r (sub32 (sub32 g b) (mul32 xh a))

/-- GACC: the member's rows, as the first read finds them in s0, added into its accumulator in ascending row (R161). -/
def gaccRun (m : Member) (s0 s : State) : State :=
  let w := m.2.word
  if opOf w = 0x23 && wb w 66 then
    (List.range (wf w 220 16)).foldl (fun s i =>
      (nrmTerms s0 m i).zipIdx.foldl (fun s (t, j) =>
        let a := nrmAcc w + 4 * j
        writeN (tileAddr m.1 a) 4 (add32 (parF s m.1 a) (mul32 t.2.2.2 t.2.1)).toNat s) s) s
  else s

/-- The fixed-tree result of row i of REDUCE (R156). -/
def reduceRow (s : State) (l : List Member) (sub i : Nat) : W32 :=
  let x := rowOfGroup s l 85 67 i
  match sub with
  | 0 => tree 0 add32 x
  | 1 => tree 0 max32 x
  | _ => tree 0 add32 (x.map fun v => mul32 v v)

/-- The amax of a tensor over the members' entries (R168). -/
def amaxtOf (s : State) (l : List Member) : W32 :=
  tree 0 max32 (l.flatMap fun m =>
    (List.range (min (memSize m.2.word) (memLen m.2.word - memOff m.2.word))).map fun k => parF s m.1 (wf m.2.word 64 16 * 128 + 4 * k))

/-- The results of a complete group at one member, all read from the state before any is written. -/
def groupWrite (p : Play) (s0 : State) (l : List Member) (m : Member) (s : State) : State :=
  let w := m.2.word
  let rows := wf w 220 16
  let op := opOf w
  if op = 0x29 then
    addKnot (tileKnot m.1 (wf w 168 7)) 1 (writeN (tileAddr m.1 (wf w 80 16 * 128)) 4 (amaxtOf s0 l).toNat s)
  else if op = 0x21 then
    (List.range rows).foldl (fun s i =>
      let r := reduceRow s0 l (wf w 64 2) i
      let k := if isFin32 r then {} else ({ nonfinite := 1 } : Counts)
      countConv (sidOf w) p.step k (writeN (tileAddr m.1 (wf w 133 16 * 128 + 4 * i)) 4 r.toNat s)) s
  else
    let segl := wf w 191 17
    let fmt := wf w 75 4
    let lines := (List.range rows).flatMap fun i =>
      let r := dxRow s0 l m i
      (List.range segl).map fun k => (r.drop (128 * k)).take 128
    let run : DestRun := { base := tileAddr m.1 (wf w 133 16 * 128), fmt, margin := wf w 80 2, sr := wb w 79 || wf w 82 3 == 2, sid := sidOf w, step := p.step }
    let f := m.2.frame
    let die (k j : Nat) := playDie p (sidOf w) (frameIdx f (memLen w) (f.row0 + k / segl) (f.col0 + 128 * (wf w 174 17 + k % segl) + j))
    let valid (k : Nat) := (lines.getD k []).length
    gaccRun m s0 (run.write die valid (lines.map fun l => l ++ List.replicate (128 - l.length) 0) s)

/-! ### TOPK (R163, R164, R203) -/

def encTopk (w : MoveWord) : Bool :=
  wf w 81 2 != 3 && fmtValid (wf w 83 4) && decide (wf w 88 3 ≤ 4) && wf w 140 20 != 0 && wf w 160 96 == 0

/-- The next expert: greatest logit, ties to the lower index; NaN never (R163). -/
def bestOf (l : List (Nat × W32)) : Option (Nat × W32) :=
  l.foldl (fun b x => match b with
    | none => if isNan32 x.2 then none else some x
    | some y => if !isNan32 x.2 && ltVal y.2 x.2 then some x else some y) none

/-- The k best in rank order. -/
def topk : Nat → List (Nat × W32) → List (Nat × W32)
  | 0, _ => []
  | n + 1, l => match bestOf l with
    | none => []
    | some x => x :: topk n (l.filter fun y => y.1 != x.1)

/-- An operation over values some of which are absent. -/
def optOp (op : W32 → W32 → W32) : Option W32 → Option W32 → Option W32
  | some a, some b => some (op a b)
  | some a, none => some a
  | none, b => b

/-- The weights of the selected experts. SOFTMAX_TOPK leaves NaN logits out of its trees; whether later leaves move down the spec does not say: they are absent
in their own places (DESIGN CHOICE, assumption 86). -/
def topkWeights (mode : Nat) (logits : List W32) (sel : List (Nat × W32)) : List W32 :=
  match mode with
  | 0 => sel.map Prod.snd
  | 1 =>
    let v0 := (sel.head?.map Prod.snd).getD 0
    let e := sel.map fun x => approx .exp (sub32 x.2 v0)
    let z := tree 0 add32 e
    e.map fun x => div32 x z
  | _ =>
    let opt := logits.map fun x => if isNan32 x then none else some x
    let mx := (tree none (optOp max32) opt).getD 0
    let z := (tree none (optOp add32) (opt.map fun x => x.map fun v => approx .exp (sub32 v mx))).getD 0
    sel.map fun x => div32 (approx .exp (sub32 x.2 mx)) z

/-- One row of TOPK. The +0 weight of an unfilled rank counts as no conversion: the spec does not say that it is one (DESIGN CHOICE, assumption 87). -/
def topkRow (p : Play) (tile : Nat) (m : QMove) (i : Nat) (s : State) : State :=
  let w := m.word
  let e := wf w 64 13
  let k := wf w 77 4
  let per := cdiv e 128
  let logits := ((List.range per).flatMap fun l => runLine s (tileAddr tile (wf w 92 16 * 128)) (wf w 83 4) false (i * per + l)).take e
  let sel := topk k (logits.zipIdx.map fun (x, j) => (j, x))
  let ws := topkWeights (wf w 81 2) logits sel
  let bf := wb w 87
  let nan := (logits.filter isNan32).length
  let s := countConv (sidOf w) p.step { nonfinite := nan } s
  (List.range k).foldl (fun s j =>
    let n := i * k + j
    let f := m.frame
    let idx := match sel[j]? with | some x => x.1 | none => 0xFFFF
    let s := writeN (tileAddr tile (wf w 108 16 * 128 + 2 * n)) 2 idx s
    match ws[j]? with
    | some v =>
      let c := if bf then 1 else 0
      let (b, o) := (elemFmt c).convert (modeOf c (wb w 91 || wf w 88 3 == 2) (playDie p (sidOf w) (frameIdx f k (f.row0 + i) (f.col0 + j)))) 0 (v32 v)
      countConv (sidOf w) p.step (({} : Counts).add (!bf) o) (writeN (tileAddr tile (wf w 124 16 * 128 + (if bf then 2 else 4) * n)) (if bf then 2 else 4) b s)
    | none => writeN (tileAddr tile (wf w 124 16 * 128 + (if bf then 2 else 4) * n)) (if bf then 2 else 4) 0 s) s

def startTopk (p : Play) (tile : Nat) (m : QMove) (s : State) : Start :=
  let w := m.word
  let e := wf w 64 13
  let k := wf w 77 4
  let rows := wf w 140 20
  let nsq := sqsOf (rows * cdiv e 128)
  let af := wf w 83 4
  if !encTopk w then .fail Status.moveField s
  else if e = 0 || decide (4096 < e) || k = 0 || decide (8 < k) then .fail Status.topkRange s
  else match operandCheck s [(tileAddr tile (wf w 92 16 * 128), af, nsq)] with
  | some st => .fail st s
  | none =>
    if !(storeOk s p tile (wf w 92 16 * 128) (nsq * sqSize af) && storeOk s p tile (wf w 108 16 * 128) (2 * k * rows) &&
        storeOk s p tile (wf w 124 16 * 128) ((if wb w 87 then 2 else 4) * k * rows)) then .fail Status.addrRange s
    else .run { m with started := true } ((List.range rows).foldl (fun s i => topkRow p tile m i s) s)

/-! ### GATHER, SCATTER, SCATTER_ADD (R165 to R167, R204) -/

/-- Encoding checks of GATHER, SCATTER and SCATTER_ADD. SCATTER_ADD's FP32 sums are no conversions: SID is 0 and nothing is counted; the spec does not say
(DESIGN CHOICE, assumption 88). -/
def encGather (op : Nat) (w : MoveWord) : Bool :=
  wf w 112 20 != 0 && wf w 152 12 != 0 && fmtValid (wf w 164 4) && wf w 168 88 == 0 && wf w 32 32 == 0 && (op != 0x27 || wf w 164 4 == 0)

/-- Rows for the indices in order; the first index at or beyond LIMIT stops (R167). The spec gives the rows no layout: row i is ROWL consecutive units of 128 B, of
whatever FMT (DESIGN CHOICE, assumption 89). -/
def gatherRows (tile op : Nat) (w : MoveWord) : List Nat → State → Bool × State
  | [], s => (true, s)
  | i :: r, s =>
    let n := wf w 152 12 * 128
    let ix := readN s (tileAddr tile (wf w 96 16 * 128 + 4 * i)) 4
    let src := tileAddr tile (wf w 64 16 * 128)
    let dst := tileAddr tile (wf w 80 16 * 128)
    if wf w 132 20 ≤ ix then (false, s)
    else
      let s := match op with
        | 0x25 => writeBytes (dst + i * n) (readBytes s (src + ix * n) n) s
        | 0x26 => writeBytes (dst + ix * n) (readBytes s (src + i * n) n) s
        | _ => (List.range (n / 4)).foldl (fun s k =>
            let d := dst + ix * n + 4 * k
            writeN d 4 (add32 (BitVec.ofNat 32 (readN s d 4)) (BitVec.ofNat 32 (readN s (src + i * n + 4 * k) 4))).toNat s) s
      gatherRows tile op w r s

/-- GATHER, SCATTER and SCATTER_ADD at their start (R568). The header of a scaled row format is the descriptor line at SRC (DESIGN CHOICE, assumption 89). -/
def startGather (p : Play) (tile op : Nat) (m : QMove) (s : State) : Start :=
  let w := m.word
  let n := wf w 152 12 * 128
  let cnt := wf w 112 20
  let lim := wf w 132 20
  if !encGather op w then .fail Status.moveField s
  else if fmtScaleField (wf w 164 4) then .fail Status.fmtPair s
  else match operandCheck s [(tileAddr tile (wf w 64 16 * 128), wf w 164 4, 1)] with
  | some st => .fail st s
  | none =>
  if !(storeOk s p tile (wf w 64 16 * 128) ((if op = 0x25 then lim else cnt) * n) &&
      storeOk s p tile (wf w 80 16 * 128) ((if op = 0x25 then cnt else lim) * n) && storeOk s p tile (wf w 96 16 * 128) (4 * cnt)) then
    .fail Status.addrRange s
  else
    let (ok, s) := gatherRows tile op w (List.range cnt) s
    if ok then .run { m with started := true } s else .fail Status.indexRange s

/-! ### PACK (R132, R135, R205) -/

def encPack (w : MoveWord) : Bool :=
  let df := wf w 100 4
  decide (wf w 108 3 ≤ 4) && wf w 111 16 != 0 && fmtValid (wf w 96 4) && fmtValid df && (!wb w 104 || fmtMx df) && wf w 182 74 == 0 &&
    (fmtTensor df || (wf w 127 7 == 0 && wf w 134 32 == 0 && wf w 166 16 == 0))

/-- One square of PACK. -/
def packSquare (p : Play) (tile : Nat) (m : QMove) (q : Nat) (s : State) : State :=
  let w := m.word
  let sf := wf w 96 4
  let df := wf w 100 4
  let src := tileAddr tile (wf w 64 16 * 128) + q * sqSize sf
  let dst := tileAddr tile (wf w 80 16 * 128) + q * sqSize df
  let sr := wb w 105 || wf w 108 3 == 2
  let margin := wf w 106 2
  let axis := wf w 104 1
  let vals := (List.range 128).map fun i => sqLine s src sf i false
  let die (i j : Nat) := playDie p (sidOf w) (let c := runCoord m.frame (128 * q + i) j; frameIdx m.frame 128 c.1 c.2)
  let sc := if fmtTensor df then scaleOfAmax df (parF s tile (wf w 166 16 * 128)) margin
    else if fmtSquare df then scaleOfAmax df (parF s tile (wf w 64 16 * 128 + wf w 111 16 * sqSize sf + 4 * q)) margin
    else 0
  let (s, k) :=
    if axis = 1 then
      (List.range 128).foldl (fun (a : State × Counts) j =>
        let (el, scs, k) := convLine df margin sr (fun i => die i j) 0 (vals.map fun r => r.getD j .nan) a.2
        (writeBytes (dst + 128 + 4 * j) (scs.map (BitVec.ofNat 8)) (sqWriteCol dst df j el a.1), k)) (s, {})
    else
      (List.range 128).foldl (fun (a : State × Counts) i =>
        let (el, scs, k) := convLine df margin sr (die i) sc (vals.getD i []) a.2
        let s := sqWriteLine dst df i el a.1
        (if fmtMx df then writeBytes (dst + 128 + 4 * i) (scs.map (BitVec.ofNat 8)) s else s, k)) (s, {})
  let s := if fmtScaled df then sqWriteDesc dst df axis (if fmtMx df then 0x3F800000 else scale32 sc) (amax32 vals.flatten) s else s
  countConv (sidOf w) p.step k s

def startPack (p : Play) (tile : Nat) (m : QMove) (s : State) : Start :=
  let w := m.word
  let sf := wf w 96 4
  let df := wf w 100 4
  let n := wf w 111 16
  if !encPack w then .fail Status.moveField s
  else if decide (2 < sf) || decide (df < 3) then .fail Status.fmtPair s
  else if !(storeOk s p tile (wf w 64 16 * 128) (n * sqSize sf + (if fmtSquare df then cdiv (4 * n) 128 * 128 else 0)) &&
      storeOk s p tile (wf w 80 16 * 128) (n * sqSize df) && (!fmtTensor df || storeOk s p tile (wf w 166 16 * 128) 4)) then .fail Status.addrRange s
  else if fmtTensor df && !waitMet (knot s (tileKnot tile (wf w 127 7))) (BitVec.ofNat 32 (wf w 134 32)) then .hold
  else .run { m with started := true } ((List.range n).foldl (fun s q => packSquare p tile m q s) s)

end Sys2Proof.Machine
end

