-- ==== Sys2Proof/Machine/Movers.lean ====
section
/-! DEFINITION. Mover and hint channels: hint buffers, the checks of a MOVE, the line cache, the copy of a unit, and INVAL (chapters 07, 08, 09; R207,
R208, R216 to R223, R231, R234 to R241, R258 to R262, R291, R463). -/

namespace Sys2Proof.Machine

/-! ### Hint buffers (R234 to R236) -/

/-- Bytes of one hint buffer's window. -/
def hintSpan : Nat := 2 ^ 37
def HintBuf.size (h : HintBuf) : Nat := h.nlen + h.hlen
def hintBuf (s : State) (n : Nat) : HintBuf := lookupD {} n s.hints

/-- Where byte a of the hint window lies: a near-tier address, a host port and address, or nowhere. -/
inductive Backing where
  | near (a : Nat)
  | host (port a : Nat)
  | none
  deriving DecidableEq, Repr

def hintResolve (s : State) (a : Nat) : Backing :=
  let h := hintBuf s ((a - hintBase) / hintSpan)
  let x := (a - hintBase) % hintSpan
  if x < h.nlen then .near ((lookupD {} h.nreg s.regions).first + h.noff + x)
  else if x < h.size then .host h.hport (h.haddr + x - h.nlen)
  else .none

/-- n bytes of the hint window, cut at buffer ends: buffer, offset, bytes. -/
def hintPieces (a n : Nat) : List (Nat × Nat × Nat) :=
  let h := (a - hintBase) / hintSpan
  let x := (a - hintBase) % hintSpan
  if x + n ≤ hintSpan then [(h, x, n)] else [(h, x, hintSpan - x), (h + 1, 0, x + n - hintSpan)]

/-- The near part of a piece lies inside its region-table entry, a DATA entry. -/
def hintNearOk (s : State) (h x n : Nat) : Bool :=
  let b := hintBuf s h
  if b.nlen ≤ x then true
  else
    let r := lookupD {} b.nreg s.regions
    r.valid && !r.typ && decide (b.noff + min (x + n) b.nlen ≤ r.bytes)

/-- The checks of R239 on one block. -/
def hintCheck (s : State) (a n : Nat) : Option (BitVec 16) :=
  let ps := hintPieces a n
  if ps.any fun (h, _, _) => (hintBuf s h).size == 0 then some Status.hintUnplaced
  else if ps.any fun (h, x, k) => decide ((hintBuf s h).size < x + k) || !hintNearOk s h x k then some Status.addrRange
  else none

/-! ### MOVE: fields and checks (R207, R216 to R218, R223, R231) -/

def encMove (w : MoveWord) : Bool := decide (wf w 164 3 ≤ 4) && wf w 168 24 != 0 && wf w 32 32 == 0
def encInval (w : MoveWord) : Bool := decide (wf w 138 3 ≤ 4) && wf w 32 32 == 0 && wf w 141 115 == 0

/-- First and byte count of block b on each side. -/
def movSrc (w : MoveWord) (b : Nat) : Nat := wf w 64 50 + b * wf w 208 24 * 128
def movDst (w : MoveWord) (b : Nat) : Nat := wf w 114 50 + b * wf w 232 24 * 128
def movLen (w : MoveWord) : Nat := wf w 168 24 * 128
def movReps (w : MoveWord) : Nat := wf w 192 16 + 1

/-- One side of a block is permitted on a channel. -/
def sideOk (s : State) (p : Play) (tile chan : Nat) (wr wbank : Bool) (a n : Nat) : Bool :=
  a % 128 == 0 && match spaceOf a with
    | .near =>
      decide (chan < 4) && match inRegion s a n with
        | some r => if wbank then r.typ && decide (a + n ≤ r.first + r.bytes / 2) else !(wr && r.typ)
        | none => false
    | .rim => decide (chan < 4) && !wr && !wbank && decide (a + n ≤ rimParity)
    | .tile => !wbank && storeOk s p ((a - tileBase) / 2 ^ 23) ((a - tileBase) % 2 ^ 23) n &&
        (decide (chan < 4) || tileField ((a - tileBase) / 2 ^ 23) == tileField tile)
    | .hint => chan == 4 && !wbank && decide (a + n ≤ hintEnd)
    | _ => false

/-- The checks of every block before the first byte is read. -/
def moveCheck (s : State) (p : Play) (tile : Nat) (w : MoveWord) : Option (BitVec 16) :=
  let chan := wf w 164 3
  let n := movLen w
  let bs := List.range (movReps w)
  let hint (a : Nat) := spaceOf a == .hint
  if !encMove w then some Status.moveField
  else if !(bs.all fun b => sideOk s p tile chan false (wb w 167) (movSrc w b) n && sideOk s p tile chan true false (movDst w b) n &&
      (chan != 4 || hint (movSrc w b) != hint (movDst w b))) then some Status.addrRange
  else if chan = 4 then
    bs.findSome? fun b => if hint (movSrc w b) then hintCheck s (movSrc w b) n else hintCheck s (movDst w b) n
  else none

/-! ### The line cache (R258 to R260) -/

def cacheUnits : Nat := 2048

/-- Move-list and mover reads of a near-tier unit: a hit is served and becomes the most recent, a miss fills the unit whole. -/
def cacheRead (s : State) (tile unit : Nat) : Option (List Byte × State) :=
  let ls := lookupD [] tile s.caches
  (ls.find? fun l => l.unit == unit).map fun l =>
    (l.data, { s with caches := upsert tile (l :: ls.filter fun x => x.unit != unit) s.caches })

def cacheFill (tile unit : Nat) (data : List Byte) (s : State) : State :=
  let ls := lookupD [] tile s.caches
  { s with caches := upsert tile (({ unit, data } :: ls).take cacheUnits) s.caches }

/-- A write by the tile's own mover channel replaces a copy it holds. -/
def cacheUpdate (tile unit : Nat) (data : List Byte) (s : State) : State :=
  let ls := lookupD [] tile s.caches
  if ls.any fun l => l.unit == unit then
    { s with caches := upsert tile (ls.map fun l => if l.unit = unit then { l with data } else l) s.caches }
  else s

/-- Drop a tile's lines of [a, a + n). -/
def cacheDrop (tile a n : Nat) (s : State) : State :=
  dropLines (fun L u => L == tile && decide (u * 128 < a + n) && decide (a < u * 128 + 128)) s

/-! ### One unit -/

/-- What reading or writing a unit meets: data or done, a status that ends the play, or parity that faults it. -/
inductive UnitRes (α : Type) where
  | ok (x : α) (s : State)
  | stop (st : BitVec 16) (s : State)
  | bad (s : State)

/-- The host access of a unit fails after its retry, or the port's link is down (R241). -/
def hostBad (s : State) (f : MoveFault) (port a : Nat) : Bool :=
  !(lookupD {} port s.host.ports).trained ||
    match f with
    | .hostFail q x => q == port && decide (a ≤ x) && decide (x < a + 128)
    | _ => false

/-- HOST_FAULT with port and host address. -/
def hostFault (p : Play) (port a : Nat) (s : State) : State :=
  postFull Ev.hostFault p.origin 0xFFFFFFFF p.id p.step (det [(1, port), (8, a)]) s

/-- The address a source unit is read at: the bank B half under WB when the play latched bank B (R223). -/
def bankAddr (s : State) (p : Play) (w : MoveWord) (a : Nat) : Nat :=
  if wb w 167 && p.bank then
    match regionOf s a with
    | some (_, r) => a + r.bytes / 2
    | none => a
  else a

/-- A near-tier unit as DRAM holds it: retired, of bad parity, or its bytes. -/
def nearUnit (p : Play) (s : State) (a : Nat) : UnitRes (List Byte) :=
  if isRetired s a then .stop Status.retiredPage s
  else if isPoisoned s a then .bad (granuleFault a p.origin p.id p.step s)
  else .ok (readBytes s a 128) s

/-- Read one unit of a MOVE: its bytes, and whether they came from its tier and not from the line cache. No copy of a retired granule is served (R291). -/
def unitRead (p : Play) (tile : Nat) (f : MoveFault) (a : Nat) (s : State) : UnitRes (List Byte × Bool) :=
  match spaceOf a with
  | .near =>
    if isRetired s a then .stop Status.retiredPage s
    else match cacheRead s tile (a / 128) with
    | some (d, s) => .ok (d, false) s
    | none =>
      match nearUnit p s a with
      | .ok d s => .ok (d, true) (cacheFill tile (a / 128) d s)
      | .stop st s => .stop st s
      | .bad s => .bad s
  | .rim =>
    match f with
    | .rim b row r =>
      let s := if b / 4096 = a / 4096 ∧ a % 4096 / 128 = b % 4096 / 128 then rimAt a row r s else s
      .ok (readBytes s a 128, true) s
    | _ => .ok (readBytes s a 128, true) s
  | .hint =>
    match hintResolve s a with
    | .near b => match nearUnit p s b with
      | .ok d s => .ok (d, true) s
      | .stop st s => .stop st s
      | .bad s => .bad s
    | .host port b => if hostBad s f port b then .stop Status.hostFault (hostFault p port b s) else .ok (hostReadBytes s port b 128, true) s
    | .none => .stop Status.addrRange s
  | _ => .ok (readBytes s a 128, true) s

/-- Write one unit of a MOVE. -/
def unitWrite (p : Play) (tile : Nat) (f : MoveFault) (a : Nat) (d : List Byte) (s : State) : UnitRes Unit :=
  match spaceOf a with
  | .near =>
    if isRetired s a then .stop Status.retiredPage s
    else .ok () (cacheUpdate tile (a / 128) d (writeBytes a d (unpoison a 128 s)))
  | .hint =>
    match hintResolve s a with
    | .near b => if isRetired s b then .stop Status.retiredPage s else .ok () (writeBytes b d (unpoison b 128 s))
    | .host port b => if hostBad s f port b then .stop Status.hostFault (hostFault p port b s) else .ok () (hostWrite port b d s)
    | .none => .stop Status.addrRange s
  | _ => .ok () (writeBytes a d s)

/-- Copy units in order; the source bytes are those of before the MOVE, wherever it does not overlap its destination (R221). -/
def copyUnits (p : Play) (tile : Nat) (m : QMove) : List (Nat × Nat) → List (Nat × Nat × List Byte) → State → UnitRes (List (Nat × Nat × List Byte))
  | [], t, s => .ok t s
  | (a, d) :: r, t, s =>
    let a := bankAddr s p m.word a
    match unitRead p tile m.fault a s with
    | .ok (x, fresh) s =>
      match unitWrite p tile m.fault d x s with
      | .ok _ s => copyUnits p tile m r (if fresh then (a, d, x) :: t else t) s
      | .stop st s => .stop st s
      | .bad s => .bad s
    | .stop st s => .stop st s
    | .bad s => .bad s

/-- The units of a MOVE in order. -/
def moveUnits (w : MoveWord) : List (Nat × Nat) :=
  (List.range (movReps w)).flatMap fun b => (List.range (wf w 168 24)).map fun k => (movSrc w b + 128 * k, movDst w b + 128 * k)

/-- The bytes of a unit where it lies. -/
def rawRead (s : State) (a : Nat) : List Byte :=
  match spaceOf a with
  | .hint => match hintResolve s a with
    | .near b => readBytes s b 128
    | .host port b => hostReadBytes s port b 128
    | .none => []
  | _ => readBytes s a 128

/-- Bytes put into a unit that a tile's mover wrote: the tile's own copy of it follows (R259). -/
def rawWrite (tile a : Nat) (d : List Byte) (s : State) : State :=
  match spaceOf a with
  | .hint => match hintResolve s a with
    | .near b => writeBytes b d s
    | .host port b => hostWrite port b d s
    | .none => s
  | .near => cacheUpdate tile (a / 128) d (writeBytes a d s)
  | _ => writeBytes a d s

/-- n free bytes, and the state after their draw. -/
def drawBytes (n : Nat) (s : State) : List Byte × State :=
  ((List.range n).map fun k => (Config.freeValue (s.freeCtr + k)).setWidth 8, { s with freeCtr := s.freeCtr + n })

/-- A unit that a tile's mover wrote holds an undefined value. -/
def freeUnit (tile a : Nat) (s : State) : State :=
  let (d, s) := drawBytes 128 s
  rawWrite tile a d s

/-- Units that are both source and destination, and units copied from those, hold undefined values (R221). -/
def freeOverlap (s0 : State) (p : Play) (tile : Nat) (w : MoveWord) (s : State) : State :=
  let us := (moveUnits w).map fun x => (bankAddr s0 p w x.1, x.2)
  us.foldl (fun s (x : Nat × Nat) => if us.any fun y => y.1 == x.2 || y.2 == x.1 then freeUnit tile x.2 s else s) s

/-- A unit of a spill: from a tile store to the hint window (R245). -/
def spillUnit (x : Nat × Nat × List Byte) : Bool := spaceOf x.1 == .tile && spaceOf x.2.1 == .hint

/-- One unit of a MOVE that completes. A unit that another engine wrote while the MOVE ran was read before or after that write (R228, R256): which, a free value
says; a line that the read filled holds what it read (R258). Of a spill, whose running source software must not overwrite, the host copy of a unit that was overwritten
holds an undefined value (R245; assumption 105). -/
def settleUnit (tile : Nat) (hit : List Nat) (x : Nat × Nat × List Byte) (s : State) : State :=
  let (a, d, old) := x
  let cur := rawRead s a
  if spillUnit x && (hit.contains d || cur != old) then freeUnit tile d s
  else if cur = old || rawRead s d ≠ old then s
  else
    let (v, s) := draw s
    if v.getLsbD 0 then rawWrite tile d cur (if spaceOf a = .near then cacheUpdate tile (a / 128) cur s else s) else s

/-- An act under the hint placements that a MOVE latched at its start (R238). -/
def underPlace (m : QMove) (f : State → State) (s : State) : State := { f { s with hints := m.place } with hints := s.hints }

/-- All units of a MOVE that completes. -/
def settleMove (tile : Nat) (m : QMove) (s : State) : State := underPlace m (fun s => m.took.foldl (fun s x => settleUnit tile m.hit x s) s) s

/-- A running spill notes the units of its source that are not as it read them: they have been overwritten, whatever is written there later (R245). -/
def noteHits (s : State) (m : QMove) : QMove :=
  if m.took.isEmpty then m
  else
    let s := { s with hints := m.place }
    { m with hit := m.took.filterMap (fun x => if spillUnit x && rawRead s x.1 != x.2.2 then some x.2.1 else none) ++ m.hit }

/-- The ports whose hosts a MOVE writes to: it is complete when each has answered a flushing read (R247). -/
def hostPorts (s : State) (w : MoveWord) : List Nat :=
  (moveUnits w).filterMap fun u => if spaceOf u.2 == .hint then (match hintResolve s u.2 with | .host port _ => some port | _ => none) else none

/-- Domains whose crossing a side of a MOVE uses, beside the wafer mesh (R44): the field of a tile store, the near-stack interface, the capstans, PCIe. -/
def sideDomain (s : State) (a : Nat) : Nat :=
  match spaceOf a with
  | .near => 9
  | .rim => 10
  | .tile => tileField ((a - tileBase) / 2 ^ 23)
  | .hint => match hintResolve s a with
    | .host _ _ => 14
    | _ => 9
  | _ => 8

/-- The MOVE needs a crossing that refuses transfers (R46). -/
def moveClosed (s : State) (tile : Nat) (w : MoveWord) : Bool :=
  xingClosed s (tileField tile) 8 || (moveUnits w).any fun u => xingClosed s (sideDomain s u.1) 8 || xingClosed s (sideDomain s u.2) 8

/-- Near-tier address of a unit's bytes, if it has one. -/
def nearOf (s : State) (a : Nat) : Option Nat :=
  match spaceOf a with
  | .near => some a
  | .hint => match hintResolve s a with
    | .near b => some b
    | _ => none
  | _ => none

/-- A rim source lies in the stripe of a capstan that is being rebuilt (R339) or whose stack is quiesced (R301): the read waits. -/
def rimWaits (s : State) (a : Nat) : Bool :=
  spaceOf a == .rim && (rimQuiet s ((a - rimBase) / 0xE00000000) ||
    (lookup ((a - rimBase) / 0xE00000000) s.cap.capstans).elim false fun c => c.rebuilding)

/-- Some access of a MOVE waits (R279, R339). -/
def moveWaits (s : State) (w : MoveWord) : Bool :=
  (moveUnits w).any fun u => rimWaits s u.1 || [u.1, u.2].any fun a => (nearOf s a).elim false (nearWaits s)

/-- A start's outcome with other hint placements in its state. -/
def Start.mapState (f : State → State) : Start → Start
  | .run m s => .run m (f s)
  | .done s => .done (f s)
  | .hold => .hold
  | .fail st s => .fail st (f s)
  | .fault c s => .fault c (f s)

/-- The copy of a MOVE that has passed its checks, with the placements that it latched. -/
def runMove (p : Play) (tile : Nat) (m : QMove) (s0 : State) : Start :=
  let s := { s0 with hints := m.place }
  Start.mapState (fun t => { t with hints := s0.hints }) <|
    if moveWaits s m.word then .hold
    else if moveClosed s tile m.word then .fault 15 s
    else match copyUnits p tile m (moveUnits m.word) [] s with
    | .ok took s' => .run { m with started := true, took } (freeOverlap s p tile m.word s')
    | .stop st s => .fail st s
    | .bad s => .fault 1 s

/-- What the sources of a MOVE hold at a start that loses a word. -/
def sources (p : Play) (m : QMove) (s : State) : List (Nat × Nat × List Byte) :=
  let s := { s with hints := m.place }
  (moveUnits m.word).map fun u => let a := bankAddr s p m.word u.1; (a, u.2, rawRead s a)

/-- PCIe retries the words that its own crossing discards (R45). -/
def pcieWord (a b : Nat) : Bool := a == 14 || b == 14

/-- A MOVE with its fault: it loses a word, which ends this run of it, or copies (R45, R461, R463). `lose` says what a lost word and a lost packet do. -/
def faultMove (p : Play) (tile : Nat) (m : QMove) (s : State) (lose : Nat → State → Start) : Start :=
  match m.fault with
  | .overrun a b =>
    let s := xingRecordFor p.origin p.id p.step a b false s
    if pcieWord a b then runMove p tile m s else lose 16 s
  | .parity pl w =>
    let (lost, s) := parityMeets pl w p.origin p.id p.step s
    if !lost then runMove p tile m s
    else match pl with
      | .hop _ => lose 1 s
      | _ => .fault 1 s
  | _ => runMove p tile m s

/-- MOVE at its start. A lost word leaves the move started with its fault, to be replayed once (R463). -/
def startMove (p : Play) (tile : Nat) (m : QMove) (s : State) : Start :=
  let m := { m with place := s.hints }
  match moveCheck s p tile m.word with
  | some st => .fail st s
  | none => faultMove p tile m s fun _ s => .run { m with started := true, took := sources p m s } s

/-- A lost word waits for its replay. -/
def lostWord (m : QMove) : Bool :=
  match m.fault with
  | .overrun a b => !pcieWord a b
  | .parity (.hop _) w => !wordIntact w
  | _ => false

/-- The fault class of a MOVE that lost a word (R459). -/
def lostClass (m : QMove) : Nat :=
  match m.fault with
  | .overrun _ _ => 16
  | _ => 1

/-- The second run of a MOVE with its own fault: when it loses a word too, the play is faulted (R463). -/
def replayMove (p : Play) (tile : Nat) (m : QMove) (f : MoveFault) (s : State) : Start :=
  match faultMove p tile { m with fault := f, replayed := true } s .fault with
  | .run r s => .run r (record (lostClass m) 3 0 p.origin (unitOf 0 (physTile s tile)) (BitVec.ofNat 32 tile) p.id p.step [] s)
  | x => x

/-- INVAL at its start (R208, R260). -/
def startInval (tile : Nat) (m : QMove) (s : State) : Start :=
  let w := m.word
  if !encInval w then .fail Status.moveField s
  else .run { m with started := true } (cacheDrop tile (wf w 64 50) (wf w 114 24 * 128) s)

end Sys2Proof.Machine
end

