-- ==== Sys2Proof/Machine/Queues.lean ====
section
/-! DEFINITION. The engine queues of a play, its failure and its faults, for every engine whose work can end it (chapter 07, R210, R211; chapter 16, R464, R465). -/

namespace Sys2Proof.Machine

/-! ### Queues (R177) -/

def getPlay (s : State) (order : Nat) : Option Play := s.plays.find? fun p => p.order == order

def getQueue (p : Play) (tile code : Nat) : Option TileQueue := p.queues.find? fun q => q.tile == tile && q.code == code

/-- Change one queue of a play. -/
def modQueue (order tile code : Nat) (f : TileQueue → TileQueue) (s : State) : State :=
  match getPlay s order with
  | none => s
  | some p => setPlay { p with queues := p.queues.map fun q => if q.tile = tile && q.code = code then f q else q } s

/-- Replace the move at a position of a queue. -/
def putMove (order tile code pos : Nat) (m : QMove) (s : State) : State :=
  modQueue order tile code (fun q => { q with moves := q.moves.set pos m }) s

def dropMove (order tile code pos : Nat) (s : State) : State :=
  modQueue order tile code (fun q => { q with moves := q.moves.eraseIdx pos }) s

def addDests (order : Nat) (l : List (Nat × Nat × Nat × Option Nat)) (s : State) : State :=
  match getPlay s order with
  | none => s
  | some p => setPlay { p with dests := p.dests ++ l } s

/-- The first move of a play's queues that a test picks, by tile and then by index: tile and move (R211). -/
def firstMove (p : Play) (f : Nat → QMove → Bool) : Option (Nat × QMove) :=
  p.queues.foldl (fun b q => q.moves.foldl (fun (b : Option (Nat × QMove)) m =>
    if !f q.tile m then b
    else match b with
      | some (t, x) => if q.tile < t ∨ (q.tile = t ∧ m.idx < x.idx) then some (q.tile, m) else b
      | none => some (q.tile, m)) b) none

/-- Every running spill notes what has been overwritten in its source so far (R245). -/
def noteAll (s : State) : State :=
  { s with plays := s.plays.map fun p => { p with queues := p.queues.map fun q =>
      if q.code = 7 then { q with moves := q.moves.map (noteHits s) } else q } }

/-- Aperture writes that waited go to memory, oldest first, once their channels serve again (R263, R279, R281). -/
def serveAper (s : State) : State :=
  if s.host.aperWrites.isEmpty then s
  else
    noteAll (s.host.aperWrites.foldl (fun t x =>
      if rangeWaits s x.2.1 x.2.2.length then t else nearWriteFor x.1 x.2.1 x.2.2 x.2.2.length t)
      { s with host := { s.host with aperWrites := s.host.aperWrites.filter fun x => rangeWaits s x.2.1 x.2.2.length } })

/-- A tie by an engine outside the plays; the play of the knot's tile has it noted (R184, R465). -/
def outerTie (key : Nat) (v : W32) (s : State) : State :=
  addKnot key v { s with plays := s.plays.map fun p =>
    if p.state == .running && decide (key < 0x40000) && p.seqs.any (fun q => q.tile == key / 128) then { p with outer := key :: p.outer } else p }

/-! ### Failure (R210, R211, R464) -/

/-- What a failure leaves of a queue: the started moves, but no WAIT (DEDUCED, assumption 91). A STREAM that still had rows to admit is cut short: it admits no more and
makes no tie, and ends when its admitted rows are written. -/
def keepStarted (q : TileQueue) : TileQueue :=
  { q with moves := (q.moves.filter fun m => m.started && opOf m.word != 0x04).map fun m =>
      if opOf m.word == 0x12 && !admitted m then { m with cut := true } else m }

/-- Dispatch stops on every tile and unstarted moves are discarded. -/
def stopPlay (p : Play) : Play :=
  { p with seqs := p.seqs.map fun q => { q with stopped := true, sxt := none }, queues := p.queues.map keepStarted }

/-- A later failure goes to the event log only. -/
def laterFailure (p : Play) (f : Failure) (s : State) : State :=
  postFull Ev.playFail p.origin 0xFFFFFFFF p.id p.step (det [(2, f.status.toNat), (2, f.mtag), (4, f.idx), (2, f.tile)]) s

/-- A move ends its play with a status. -/
def failPlay (order : Nat) (f : Failure) (s : State) : State :=
  match s.plays.find? fun p => p.order == order with
  | none => s
  | some p =>
    if p.fail.isSome || p.faulted.isSome || p.withheld then laterFailure p f (setPlay (stopPlay p) s)
    else setPlay { stopPlay p with fail := some f } s

/-- The status of a fault class (R464, R46). -/
def faultStatus (c : Nat) : BitVec 16 :=
  match c with
  | 1 => Status.parityFault
  | 2 => Status.arithFault
  | 3 => Status.arithFault
  | 4 => Status.seqHang
  | 15 => Status.clockStopped
  | _ => Status.parityFault

/-- A fault of a class in the play (R464), at a move: MTAG, index, tile. One after the first failure is recorded in the event log only (R211). -/
def faultPlay (order cls : Nat) (at_ : Nat × Nat × Nat) (s : State) : State :=
  match getPlay s order with
  | none => s
  | some p =>
    if p.faulted.isSome || p.fail.isSome || p.withheld then
      laterFailure p { status := faultStatus cls, mtag := at_.1, idx := at_.2.1, tile := at_.2.2 } (setPlay (stopPlay p) s)
    else setPlay { stopPlay p with faulted := some cls, faultAt := at_ } s

/-- Where a move meets a fault. -/
def faultOf (m : QMove) (tile : Nat) : Nat × Nat × Nat := (wf m.word 17 15, m.idx, tile)

/-- The failure record of a move. -/
def moveFailure (st : BitVec 16) (m : QMove) (tile : Nat) : Failure := { status := st, mtag := wf m.word 17 15, idx := m.idx, tile }

/-- The origin port, the play and the step that the events of a packet name (R173, R514): of a tile's queue, those of its running play. -/
def senderOf (s : State) (src : Source) (step : W32) : Nat × W32 × W32 :=
  match src with
  | .queue t _ => ((playOfTile s t).map fun p => (p.origin, p.id, p.step)).getD (3, 0, step)
  | .engine _ => (3, 0, step)

end Sys2Proof.Machine
end

