-- ==== Sys2Proof/Machine/Ports.lean ====
section
/-! DEFINITION. The links as the units that send over them use them: routing, packets and flits as bytes, virtual channels with credits, the byte stream of
packets, and receive buffers (chapter 13, R375 to R380, R390 to R393). -/

namespace Sys2Proof.Machine

def getPort (s : State) (n : Nat) : HPort := lookupD {} n s.ports
def setPort (n : Nat) (p : HPort) (s : State) : State := { s with ports := upsert n p s.ports }

/-! ### Routing (R391, R392) -/

def rtSet (s : State) (n : Nat) : RtSet := lookupD {} n s.sets

def portActive (s : State) (n : Nat) : Bool := (getPort s n).state == .active

/-- The port towards a member: LOCAL, a port, or unreachable. -/
inductive Route where
  | local_ | port (n : Nat) | unreachable
  deriving DecidableEq, Repr

def routeTo (s : State) (rts d : Nat) : Route :=
  let r := rtSet s rts
  let w := (lookupD 0 d r.entries).toNat
  if d = r.self then .local_
  else if !bitAt w 31 then .unreachable
  else if bitAt w 30 then .local_
  else if portActive s (fld w 25 5) then .port (fld w 25 5)
  else if portActive s (fld w 20 5) then .port (fld w 20 5)
  else .unreachable

def hawUnreachable (rts d : Nat) (s : State) : State := post Ev.hawUnreachable (det [(1, rts), (2, d)]) s

/-! ### Packets as bytes (R390) -/

/-- The 128 bits of a header. -/
def packetHead (k : RoutedPacket) : Nat :=
  k.typ % 256 + k.vc % 4 * 2 ^ 11 + k.rts % 16 * 2 ^ 13 + k.dest % 4096 * 2 ^ 17 + k.src % 4096 * 2 ^ 29 + k.hops % 16 * 2 ^ 41 + k.len % 64 * 2 ^ 45 +
    k.slot % 65536 * 2 ^ 51 + k.seg % 512 * 2 ^ 67 + k.row % 2 ^ 20 * 2 ^ 76 + k.step.toNat * 2 ^ 96

/-- A packet: its header of 16 B and LEN units of payload. -/
def packetBytes (k : RoutedPacket) : List Byte := toLE 16 (packetHead k) ++ sliceB k.payload 0 (16 * k.len)

/-- The packet that bytes hold. -/
def parsePacket (b : List Byte) : RoutedPacket :=
  let x := item b 0 16
  let len := fld x 45 6
  { typ := fld x 0 8, rts := fld x 13 4, dest := fld x 17 12, hops := fld x 41 4, vc := fld x 11 2, len, step := BitVec.ofNat 32 (fld x 96 32)
    src := fld x 29 12, slot := fld x 51 16, row := fld x 76 20, seg := fld x 67 9, payload := sliceB b 16 (16 * len) }

/-- Packet types that a receiver keeps (R390, R426). -/
def packetTypeOk (t : Nat) : Bool := (decide (1 ≤ t) && decide (t ≤ 3)) || (decide (0x10 ≤ t) && decide (t ≤ 0x14))

/-! ### Flits as bytes (R375) -/

/-- One byte into the CRC-32 of IEEE 802.3, least significant bit first (DEDUCED from "as in IEEE 802.3", assumption 106). -/
def crc32Byte (r : W32) (b : Byte) : W32 :=
  (List.range 8).foldl (fun r _ => if r.getLsbD 0 then (r >>> 1) ^^^ 0xEDB88320 else r >>> 1) (r ^^^ b.setWidth 32)

/-- The CRC-32 over bytes: initial value of ones, inverted at the end. -/
def crc32 (l : List Byte) : W32 := ~~~(l.foldl crc32Byte 0xFFFFFFFF)

/-- A flit of 640 B. -/
def flitBytes (ftype seq : Nat) (d : FlitHead) (body : List Byte) : List Byte :=
  let b := toLE 8 (ftype % 8 * 2 ^ 61 + seq % 2 ^ 20 * 2 ^ 41 + d.ack % 2 ^ 20 * 2 ^ 21 + d.cvc % 4 * 2 ^ 19 + d.cred % 8192 * 2 ^ 6) ++ sliceB body 0 628
  b ++ toLE 4 (crc32 b).toNat

def flitType (b : List Byte) : Nat := fld (item b 0 8) 61 3
def flitSeq (b : List Byte) : Nat := fld (item b 0 8) 41 20
def flitHead (b : List Byte) : FlitHead := { ack := fld (item b 0 8) 21 20, cvc := fld (item b 0 8) 19 2, cred := fld (item b 0 8) 6 13 }
def flitBody (b : List Byte) : List Byte := sliceB b 8 628
/-- The CRC of a received flit is right. -/
def flitOk (b : List Byte) : Bool := b.length == 640 && item b 636 4 == (crc32 (b.take 636)).toNat

/-! ### Sending: channels, credits, the byte stream (R376 to R380) -/

/-- Receive buffer of a virtual channel in 16 B units. -/
def vcBuffer : Nat → Nat
  | 0 => 8192 | 1 => 8192 | 2 => 1024 | _ => 0

/-- The first packet that waits on a channel can be sent: credits for its whole length are held. -/
def canSend (p : HPort) (vc : Nat) : Bool :=
  match lookupD [] vc p.sendQ with
  | k :: _ => decide (k.len + 1 ≤ lookupD 0 vc p.credits)
  | [] => false

/-- The channel that sends next: VC 2 before the others, VC 0 and VC 1 in turns of 512 B. -/
def nextVc (p : HPort) : Option Nat :=
  let v := p.turn.1
  if canSend p 2 then some 2
  else if canSend p v && decide (0 < p.turn.2) then some v
  else if canSend p (1 - v) then some (1 - v)
  else if canSend p v then some v
  else none

/-- The turn after n bytes on a channel. -/
def useTurn (vc n : Nat) (t : Nat × Nat) : Nat × Nat :=
  if vc = 2 then t else if vc = t.1 && t.2 != 0 then (vc, t.2 - n) else (vc, 512 - n)

/-- Packets leave their channels into the byte stream as long as one can be sent, in this order. -/
def drainVcs : Nat → HPort → List RoutedPacket × HPort
  | 0, p => ([], p)
  | n + 1, p =>
    match nextVc p with
    | none => ([], p)
    | some vc =>
      match lookupD [] vc p.sendQ with
      | [] => ([], p)
      | k :: r =>
        let (l, q) := drainVcs n { p with
          sendQ := upsert vc r p.sendQ, credits := adjust 0 vc (fun c => c - (k.len + 1)) p.credits, turn := useTurn vc (16 * (k.len + 1)) p.turn }
        (k :: l, q)

/-- Physical lane l carries a logical lane no more: the spare does. -/
def HPort.failLane (l : Nat) (p : HPort) : HPort := { p with laneFail := p.laneFail ||| ((1 : BitVec 9) <<< l) }

/-- A swap of lanes that holds from a DATA sequence on (R382): the logical lane runs on the spare, and its old lane has failed. -/
def applySwap (received : Bool) (seq : Nat) (p : HPort) : HPort :=
  match p.swap with
  | some (l, phys, at_, rx) =>
    if rx = received && decide ((seq + 2 ^ 20 - at_) % 2 ^ 20 < 2 ^ 19) then
      { p.failLane (p.lanes.getD l 8) with lanes := p.lanes.set l phys, swap := none, spareInUse := true }
    else p
  | none => p

/-- A DATA flit leaves on logical lane n mod the number of lanes; the last 512 are kept (R376, R378). -/
def sendFlit (p : HPort) (body : List Byte) : HPort :=
  let p := applySwap false p.txNext p
  let kept := p.replay ++ [(p.txNext, p.txNext % max 1 p.lanes.length, body)]
  { p with replay := kept.drop (kept.length - 512), txNext := (p.txNext + 1) % 2 ^ 20 }

/-- The slot that the last of n DATA flits of the replay buffer leave in: slots take a flit per logical lane, the last one what is left (R376). -/
def lastSlot (n : Nat) (p : HPort) : List (Nat × Nat × List Byte) :=
  let w := max 1 p.lanes.length
  let k := if n = 0 then 0 else (n - 1) % w + 1
  (p.replay.drop (p.replay.length - k)).map fun x => (x.2.1, x.1, x.2.2)

/-- The byte stream in bodies of 628 B; TYPE 0x00 fills the rest of the last one (R377). -/
def cutBodies : Nat → List Byte → List (List Byte)
  | 0, _ => []
  | n + 1, l => if l.isEmpty then [] else sliceB l 0 628 :: cutBodies n (l.drop 628)

/-- Number of an outcome among the kinds of control packets, in their ROW (DESIGN CHOICE, assumption 92). -/
def outcomeKind : Nat := 2

/-- The outcomes among packets that leave from a byte of the stream on, in flits from a sequence on: set, sender, step, and the sequence of the flit that ends each. -/
def outcomesIn (first : Nat) : Nat → List RoutedPacket → List (Nat × Nat × W32 × Nat)
  | _, [] => []
  | o, k :: r =>
    let e := o + 16 * (k.len + 1)
    let l := outcomesIn first e r
    if k.typ = 3 && k.row == outcomeKind then (k.rts, k.src, k.step, (first + (e - 1) / 628) % 2 ^ 20) :: l else l

/-- What a port can send of what waits goes out. -/
def pumpPort (p : HPort) : HPort :=
  if p.state != .active then p
  else
    let n := (p.sendQ.map fun x => x.2.length).sum
    let (l, q) := drainVcs n p
    let b := l.flatMap packetBytes
    let bodies := cutBodies (b.length / 628 + 1) b
    let q := bodies.foldl sendFlit q
    { q with slot := lastSlot bodies.length q, outs := q.outs ++ outcomesIn p.txNext 0 l }

/-- An event of a port; its unit is the port (R481). -/
def postPort (code n : Nat) (d : List Byte) (s : State) : State := postFull code 3 (unitOf 4 n) 0 0 d s

/-- A failed physical lane in the defect store, the fault ledger and the event log (R382, R481, R482). -/
def laneRecord (n l res : Nat) (s : State) : State :=
  record 13 8 res 3 (unitOf 5 (n * 9 + l)) 0xFFFFFFFF 0 0 [] { s with store := { s.store with badLanes := (n, l) :: s.store.badLanes } }

/-- A port's new value; a swap of lanes that has come to its sequence is recorded, which raises HAW_LANE_SWAP (R382, R459). -/
def putPort (n : Nat) (p : HPort) (s : State) : State :=
  let old := getPort s n
  let s := setPort n p s
  match old.swap, p.swap with
  | some (l, _, _, _), none => if p.lanes == old.lanes then s else laneRecord n (old.lanes.getD l 8) 0 s
  | _, _ => s

/-- A packet waits on its channel of a port. -/
def queuePacket (n : Nat) (k : RoutedPacket) (s : State) : State :=
  let p := getPort s n
  let first := (lookupD [] k.vc p.sendQ).isEmpty
  putPort n (pumpPort { p with
    sendQ := adjust [] k.vc (fun l => l ++ [k]) p.sendQ, creditAt := if first then upsert k.vc s.cad.ct p.creditAt else p.creditAt }) s

/-- A packet for another member leaves by its route; with none it is discarded (R392), and a mesh crossing that refuses transfers drops it (R46). -/
def sendPacket (k : RoutedPacket) (s : State) : State :=
  if xingClosed s 8 11 then s
  else match routeTo s k.rts k.dest with
    | .port n => queuePacket n k s
    | .unreachable => hawUnreachable k.rts k.dest s
    | .local_ => s

/-- A packet to a member can leave the module. -/
def reaches (s : State) (rts d : Nat) : Bool :=
  !xingClosed s 8 11 && match routeTo s rts d with
    | .unreachable => false
    | _ => true

/-- A packet of this module over a routing set, its payload filled up to whole units. -/
def ownPacket (s : State) (typ rts dest vc slot row seg : Nat) (step : W32) (payload : List Byte) : RoutedPacket :=
  { typ, rts, dest, hops := 0, vc, len := cdiv payload.length 16, step, src := (rtSet s rts).self, slot, row, seg, payload }

/-- Payload of at most 512 B per packet. -/
def chunks512 : Nat → List Byte → List (List Byte)
  | 0, _ => []
  | n + 1, l => l.take 512 :: (if (l.drop 512).isEmpty then [] else chunks512 n (l.drop 512))

/-! ### Receiving: packets out of the byte stream, buffers (R377, R380) -/

/-- What every flit's header does (R378, R380): its ACK releases flits, its credits count. -/
def afterAck (ack : Nat) (l : List (Nat × Nat × List Byte)) : List (Nat × Nat × List Byte) :=
  if l.any fun x => x.1 == ack then (l.dropWhile fun x => x.1 != ack).drop 1 else l

def takeHead (now : CtWord) (d : FlitHead) (p : HPort) : HPort :=
  if p.state != .active then p
  else
    let kept := afterAck d.ack p.replay
    let out (sq : Nat) : Bool := p.replay.any (fun x => x.1 == sq) && !kept.any fun x => x.1 == sq
    pumpPort { p with
    replay := kept, outs := p.outs.filter fun x => !out x.2.2.2
    credits := adjust 0 d.cvc (fun c => min (c + d.cred) (vcBuffer d.cvc)) p.credits
    creditAt := if d.cred = 0 then p.creditAt else upsert d.cvc now p.creditAt }

/-- The last DATA sequence received in order. -/
def lastGood (p : HPort) : Nat := (p.rxNext + 2 ^ 20 - 1) % 2 ^ 20

/-- Buffer space is free again: an IDLE flit returns the credits. -/
def giveCredits (vc n : Nat) (p : HPort) : HPort := { p with idle := some { ack := lastGood p, cvc := vc, cred := n } }

/-- The DATA flit that a physical lane sends in the present slot, if any. -/
def HPort.laneData (p : HPort) (phys : Nat) : Option (Nat × Nat × List Byte) := p.slot.find? fun x => p.lanes.getD x.1 9 == phys

/-- What a physical lane of a trained port sends in the present slot: a DATA flit, or an IDLE flit, so also on the spare while it is not in use; the first of these
carries the credits that are returned (R376, R380, R382). -/
def HPort.laneFlit (p : HPort) (phys : Nat) : List Byte :=
  match p.laneData phys with
  | some (_, sq, body) => flitBytes 0 sq { ack := lastGood p, cvc := 0, cred := 0 } body
  | none =>
    let first := (List.range phys).all fun q => (p.laneData q).isSome
    flitBytes 1 0 ((if first then p.idle else none).getD { ack := lastGood p, cvc := 0, cred := 0 }) []

/-- One body's bytes: whole packets go to the receive buffers, or are discarded and counted; the rest of one waits for the next body. -/
def takeBody : Nat → List Byte → HPort → HPort
  | 0, _, p => p
  | n + 1, l, p =>
    if l.isEmpty then p
    else if p.rxPart.isEmpty && item l 0 1 == 0 then p
    else
      let b := p.rxPart ++ l
      let need := if b.length < 16 then 16 else 16 + 16 * fld (item b 0 16) 45 6
      if b.length < need || b.length < 16 then { p with rxPart := b }
      else
        let k := parsePacket (b.take need)
        let p := { p with rxPart := [] }
        takeBody n (b.drop need)
          (if packetTypeOk k.typ then { p with rxBuf := p.rxBuf ++ [k] } else giveCredits k.vc (k.len + 1) { p with discarded := p.discarded + 1 })

/-- The engine of this module that a packet is for, by its TYPE and SLOT (R392): a collective engine, the control complex, the exchange units of one exchange; a packet
for another member goes to the ports, by its channel. -/
def destEngine (s : State) (k : RoutedPacket) : Nat :=
  if k.dest ≠ (rtSet s k.rts).self then 0x20000 + k.vc
  else if k.typ ≤ 2 then ((lookup k.slot s.colls).map CollSlot.engine).getD 8
  else if k.typ = 3 then 9
  else 0x10000 + k.slot

/-- Packets of one flow arrive in the order in which they were sent (R393). -/
def sameFlow (s : State) (a b : RoutedPacket) : Bool := a.rts == b.rts && a.src == b.src && a.dest == b.dest && destEngine s a == destEngine s b

/-- Take the first packet that satisfies a test and has no earlier one of its flow before it. -/
def takePacket (s : State) (f : RoutedPacket → Bool) : List RoutedPacket → List RoutedPacket → Option (RoutedPacket × List RoutedPacket)
  | _, [] => none
  | before, k :: r => if f k && !before.any (sameFlow s k) then some (k, before ++ r) else takePacket s f (before ++ [k]) r

/-- The first packet in turn that satisfies a test leaves its receive buffer, and its credits go back to the sender (R380, R393). -/
def takeRx (f : RoutedPacket → Bool) (s : State) : Option (RoutedPacket × State) :=
  (s.ports.findSome? fun (n, p) => (takePacket s f [] p.rxBuf).map fun x => (n, p, x)).map fun (n, p, k, r) =>
    (k, setPort n (giveCredits k.vc (k.len + 1) { p with rxBuf := r }) s)

/-- A received packet leaves its buffer, if a port holds one that satisfies a test; none while it stands behind an earlier one of its flow. -/
def freeRx (f : RoutedPacket → Bool) (s : State) : Option State :=
  match takeRx f s with
  | some (_, s) => some s
  | none => if s.ports.any fun (_, p) => p.rxBuf.any f then none else some s

end Sys2Proof.Machine
end

