-- ==== Sys2Proof/Machine/Exchange.lean ====
section
/-! DEFINITION. The exchange units: expert maps, exchanges, DISPATCH and COMBINE, their packets (chapter 14). -/

namespace Sys2Proof.Machine

/-! ### The expert map (R409, R410) -/

structure MapEntry where
  member : Nat
  origin : Nat
  shape : Nat
  hbuf : Nat
  roff : Nat
  deriving DecidableEq, Repr

def mapEntry (w : W64) : MapEntry :=
  { member := fld w.toNat 51 12, origin := fld w.toNat 40 11, shape := fld w.toNat 37 3, hbuf := fld w.toNat 31 6, roff := fld w.toNat 0 31 }

/-- The VALID entry of an expert. -/
def expertOf (s : State) (rts e : Nat) : Option MapEntry :=
  match lookup e (rtSet s rts).xmap with
  | some w => if w.getLsbD 63 && decide (e < 4096) then some (mapEntry w) else none
  | none => none
/-- All VALID entries, by expert. -/
def expertsOf (s : State) (rts : Nat) : List (Nat × MapEntry) :=
  (rtSet s rts).xmap.filterMap fun (e, _) => (expertOf s rts e).map fun m => (e, m)

def getX (s : State) (xid : Nat) : Option Exchange := lookup xid s.exchanges
def setX (x : Exchange) (s : State) : State := { s with exchanges := upsert x.xid x s.exchanges }
def selfOf (s : State) (x : Exchange) : Nat := (rtSet s x.rts).self
/-- Experts that this member holds. -/
def localExperts (s : State) (x : Exchange) : List (Nat × MapEntry) := (expertsOf s x.rts).filter fun m => m.2.member == selfOf s x
/-- An expert held on this member. -/
def localExpert (s : State) (x : Exchange) (e : Nat) : Option MapEntry :=
  match expertOf s x.rts e with
  | some m => if m.member = selfOf s x then some m else none
  | none => none

/-! ### The mesh (R45, R46, R252) -/

/-- The node of an exchange unit that holds an expert, as the exchange's map says. -/
def expertNode (s : State) (xid e : Nat) : Nat := 0x30000 + ((getX s xid).bind fun x => localExpert s x e).elim 8 fun m => tileField m.origin

/-- Destination node of a mesh packet: a tile, a capstan, a field's exchange unit, a collective engine. A COUNT goes to the member's exchange units together. -/
def nodeOf (s : State) : MeshItem → Nat
  | .tie kind target _ _ qt _ =>
    if kind = 3 then 0x20000 + target else if kind = 4 then 0x30000 + tileField qt else 0x10000 + target
  | .contrib _ c => 0x20000 + ((lookup c.entry s.cap.ledger).map Ledger.cap).getD 64
  | .leaf _ l => 0x40000 + ((lookup l.slot s.colls).map CollSlot.engine).getD 8
  | .xresult r => 0x10000 + r.tile
  | .xcount _ => 0x30100
  | .xgrant g => 0x30000 + tileField g.tile
  | .xrow r => expertNode s r.xid r.expert
  | .xfetch f => expertNode s f.xid f.expert

/-- The clock domain of a packet's destination, beyond the wafer mesh (R13). -/
def itemDomain : MeshItem → Nat
  | .contrib .. => 10
  | .tie kind target _ _ _ _ => if kind = 3 then 10 else if kind = 4 then 8 else tileField target
  | .xresult r => tileField r.tile
  | _ => 8

/-- A packet's content without the STREAM that sent it. -/
def MeshItem.bare : MeshItem → MeshItem
  | .contrib _ c => .contrib (0, 0) c
  | .leaf _ l => .leaf (0, 0) l
  | x => x

/-- Take the first packet with this content, if no earlier packet of its source goes to the same node; with the engine that sent it. -/
def meshTakeFrom (s : State) (x : MeshItem) :
    List (Source × MeshItem) → List (Source × MeshItem) → Option ((Source × MeshItem) × List (Source × MeshItem))
  | _, [] => none
  | before, (src, y) :: r =>
    if y.bare = x.bare then (if before.any fun b => b.1 == src && nodeOf s b.2 == nodeOf s y then none else some ((src, y), before ++ r))
    else meshTakeFrom s x (before ++ [(src, y)]) r

/-- Take a packet off the mesh: the packet itself and the state without it. -/
def meshTake (x : MeshItem) (s : State) : Option ((Source × MeshItem) × State) := (meshTakeFrom s x [] s.mesh).map fun m => (m.1, { s with mesh := m.2 })
def meshPut (src : Source) (x : MeshItem) (s : State) : State := { s with mesh := s.mesh ++ [(src, x)] }

/-! ### Packets that are lost (R45, R46, R249, R461) -/

/-- The step of a packet that carries one. -/
def itemStep : MeshItem → W32
  | .tie .. => 0
  | .contrib _ c => c.step
  | .leaf _ l => l.step
  | .xcount c => c.step
  | .xgrant g => g.step
  | .xrow r => r.step
  | .xfetch f => f.step
  | .xresult r => r.step

/-- The tile whose move a packet belongs to. -/
def itemTile : Source × MeshItem → Option Nat
  | (.queue t _, _) => some t
  | (_, .xgrant g) => some g.tile
  | (_, .xresult r) => some r.tile
  | _ => none

/-- Where in its play a packet's move stands: MTAG, index, tile (R211). -/
def itemAt (p : Play) (x : Source × MeshItem) (tile : Nat) : Nat × Nat × Nat :=
  let stream (i : Nat) := firstMove p fun _ m => opOf m.word == 0x12 && m.idx == i
  let m := match x with
    | (_, .contrib t _) => stream t.2
    | (_, .leaf t _) => stream t.2
    | (.queue t c, _) => ((getQueue p t c).bind fun q => q.moves.find? QMove.started).map fun m => (t, m)
    | _ => ((getQueue p tile 8).bind fun q => q.moves.find? QMove.started).map fun m => (tile, m)
  m.elim (0, 0, tile) fun y => faultOf y.2 y.1

/-- Remember a packet whose write is never accepted: its STREAM or DISPATCH does not complete (R249). -/
def noteLost (x : Source × MeshItem) (s : State) : State :=
  let row (t : Nat × Nat) (r : Nat) := match getPlay s t.1 with
    | some p => modQueue t.1 p.org 1 (fun q => { q with moves := q.moves.map fun m => if m.idx = t.2 then { m with lost := r :: m.lost } else m }) s
    | none => s
  match x with
  | (_, .contrib t c) => row t c.row
  | (_, .leaf t l) => row t l.row
  | (.queue tile 8, .xrow r) => match getX s r.xid with
    | some y => setX { y with moves := y.moves.map fun m => if m.tile = tile then { m with lost := true } else m } s
    | none => s
  | _ => s

/-- A packet is lost on its way, for a fault class: one that a mesh hop discards faults its play (R461); a lost tie faults a play with RERUN, and else marks its step
FAULTED (R45); whatever else is lost is never counted. -/
def losePacket (cls : Nat) (x : Source × MeshItem) (s : State) : State :=
  let s := noteLost x s
  let play := (itemTile x).bind fun t => (playOfTile s t).map fun p => (t, p)
  match x.2, play with
  | .tie .., some (t, p) => if cls = 1 || p.rerun then faultPlay p.order cls (itemAt p x t) s else faultStep p.step s
  | _, some (t, p) => if cls = 1 then faultPlay p.order 1 (itemAt p x t) s else s
  | y, none => if cls = 1 then faultStep (itemStep y) s else s

/-- How a packet's arrival ends: it is not there or not in turn; it is lost on its way; it has arrived. -/
inductive Arrival where
  | none
  | lost (s : State)
  | got (x : MeshItem) (s : State)

/-- A crossing on the way to a packet's place refuses transfers: into its destination's domain, and for a receive row into the near tier (R46). -/
def itemClosed (s : State) (x : MeshItem) : Bool :=
  (itemDomain x != 8 && xingClosed s (itemDomain x) 8) || match x with
    | .xrow _ => xingClosed s 9 8
    | _ => false

/-- The way's part in an arrival: a crossing that refuses transfers, an overrun, or a mesh hop discards the packet (R45, R46, R461). -/
def crossArrive (x : Source × MeshItem) (t : Transit) (s : State) : Arrival :=
  if itemClosed s x.2 then .lost (losePacket 15 x s)
  else
    let (o, play, step) := senderOf s x.1 (itemStep x.2)
    match t with
    | .ok => .got x.2 s
    | .overrun a b => .lost (losePacket 16 x (xingRecordFor o play step a b false s))
    | .hop tile w =>
      let (lost, s) := parityMeets (.hop tile) w o play step s
      if lost then .lost (losePacket 1 x s) else .got x.2 s

/-- A packet arrives from this module's mesh. -/
def meshArrive (x : MeshItem) (t : Transit) (s : State) : Arrival :=
  match meshTake x s with
  | none => .none
  | some (y, s) => crossArrive y t s

/-! ### Token rows (R414) -/

def pitch (fmt : Nat) : Nat := 16 * fmtBits fmt
def rowlOk (fmt rowl : Nat) : Bool := rowl * 128 % pitch fmt == 0
def rowSquares (fmt rowl : Nat) : Nat := rowl * 128 / pitch fmt
/-- Squares of a grid that holds n token rows. -/
def gridSquares (fmt rowl n : Nat) : Nat := sqsOf n * rowSquares fmt rowl
/-- Address of the square k of row i's grid row. -/
def gridSquare (base fmt rowl i k : Nat) : Nat := base + (i / 128 * rowSquares fmt rowl + k) * sqSize fmt

/-- Raw elements and scale bytes of token row i (R416). -/
def tokenRow (s : State) (base fmt rowl i : Nat) : List Nat × List Nat :=
  let sqs := (List.range (rowSquares fmt rowl)).map (gridSquare base fmt rowl i)
  (sqs.flatMap fun b => (List.range 128).map fun j => sqBits s b fmt (i % 128) j,
   if fmtSquare fmt then sqs.map fun b => (sqScale s b).toNat / 2 ^ 23 % 256
   else if fmtMx fmt then sqs.flatMap fun b => (readBytes s (b + 128 + 4 * (i % 128)) 4).map BitVec.toNat
   else [])

/-! ### Packets to other members (R390, R426) -/

/-- Elements of a format packed into bytes. -/
def packElems (fmt : Nat) (l : List Nat) : List Byte :=
  let b := fmtBits fmt
  toLE (cdiv (l.length * b) 8) (l.zipIdx.foldl (fun n (x, j) => n + x % 2 ^ b * 2 ^ (b * j)) 0)

/-! ### Placement in force (R417, R422) -/

/-- The values in force: those of the first COUNT in the order of placement. -/
def firstCount (x : Exchange) : Option XCount := x.placed.head?

/-- FMT and ROWL of an exchange's rows: under REUSE those of this member's own DISPATCH, once it has issued one (assumption 114). -/
def rowShape (x : Exchange) : Option (Nat × Nat) :=
  if x.reuse then x.moves.getLast?.map fun m => (wf m.word 140 4, wf m.word 128 12) else (firstCount x).map fun c => (c.fmt, c.rowl)

/-! ### Packets to other members (R390, R416, R426) -/

/-- Bytes of a row in its packets: its elements, then for a square-scaled format a byte per square with the exponent field of its SCALE; in an MX format each square's
line is followed by its four scale bytes. -/
def rowBytes (fmt : Nat) (elems scales : List Nat) : List Byte :=
  let g := cdiv elems.length 128
  if fmtMx fmt then (List.range g).flatMap fun k => packElems fmt ((elems.drop (128 * k)).take 128) ++ ((scales.drop (4 * k)).take 4).map (BitVec.ofNat 8)
  else packElems fmt elems ++ (if fmtSquare fmt then scales.map (BitVec.ofNat 8) else [])

/-- 128 B unit offset from the grid base at which byte o of a row's bytes has its place: an element in its line, a scale byte in its square's header or scale block
(the places of scale bytes: DESIGN CHOICE, assumption 114). -/
def rowPlace (fmt rowl row o : Nat) : Nat :=
  let g := rowSquares fmt rowl
  let sq (k : Nat) := (row / 128 * g + k) * sqSize fmt
  let n := pitch fmt + (if fmtMx fmt then 4 else 0)
  if fmtSquare fmt && decide (g * pitch fmt ≤ o) then sq (o - g * pitch fmt) / 128
  else if pitch fmt ≤ o % n then (sq (o / n) + 128 + 4 * (row % 128)) / 128
  else (sq (o / n) + fmtHdr fmt + row % 128 * pitch fmt + o % n) / 128

/-- Packets of a payload over a routing set, 512 B each at most; the place of the one that begins at a byte goes into ROW and SEG. -/
def itemPackets (s : State) (typ rts dest xid : Nat) (place : Nat → Nat) (step : W32) (l : List Byte) : List RoutedPacket :=
  (chunks512 (l.length / 512 + 1) l).zipIdx.map fun (b, k) => ownPacket s typ rts dest 1 xid (place (512 * k) / 512) (place (512 * k) % 512) step b

/-- Number of an overflow outcome in a GRANT (DESIGN CHOICE, assumption 114). -/
def grantOutcome (g : XGrant) : Nat := b2n g.dropped + 2 * b2n g.spilled

/-- The link packets of a packet to another member, with FMT and ROWL of its exchange's rows. What R390 and R426 do not lay out is free (assumption 92). -/
def linkPackets (s : State) (shape : Nat × Nat) (rts dest : Nat) (x : MeshItem) : List RoutedPacket :=
  match x with
  | .leaf _ l => [{ ownPacket s 0x01 rts dest 0 l.slot l.row l.seg l.step (sliceB (l.data.flatMap fun x => toLE 2 x.toNat) 0 256) with src := l.member }]
  | .xcount c =>
    let items := sliceB (Config.wireBytes 0x10 [c.tile, c.srcn, c.rows, b2n c.capm, b2n c.ovf, c.cap, c.k, c.rowl, c.fmt]) 0 32
    itemPackets s 0x10 rts dest c.xid (fun _ => 0) c.step (items ++ c.counts.flatMap fun (e, n) => toLE 2 e ++ toLE 2 n)
  | .xgrant g =>
    itemPackets s 0x11 rts dest g.xid (fun _ => 0) g.step (sliceB (Config.wireBytes 0x11 [g.expert, g.base, g.admitted, grantOutcome g, g.tile]) 0 12)
  | .xrow r => itemPackets s 0x12 rts dest r.xid (rowPlace shape.1 shape.2 r.row) r.step (rowBytes shape.1 r.elems r.scales)
  | .xfetch f => [ownPacket s 0x13 rts dest 1 f.xid f.row 0 f.step (sliceB (Config.wireBytes 0x13 [f.expert, f.tile]) 0 16)]
  | .xresult r =>
    let fmt := ((getX s r.xid).map Exchange.rfmt).getD 0
    itemPackets s 0x14 rts dest r.xid (fun o => ofLE (Config.wireBytes 0x14 [r.tile, r.expert, r.row]) + o / 128) r.step (packElems fmt r.elems)
  | _ => []

/-- A packet to a member: over the mesh to this one, over the links to another. -/
def sendItem (src : Source) (shape : Nat × Nat) (rts dest : Nat) (x : MeshItem) (s : State) : State :=
  if dest = (rtSet s rts).self then meshPut src x s else (linkPackets s shape rts dest x).foldl (fun s k => sendPacket k s) s

/-- The member that sent an item, where the item says it. -/
def itemMember : MeshItem → Option Nat
  | .leaf _ l => some l.member
  | .xcount c => some c.member
  | .xfetch f => some f.member
  | _ => none

/-- A received packet has the header of one of an item's; the place of a RESULT is the receiver's own affair. -/
def headLike (m : Option Nat) (k y : RoutedPacket) : Bool :=
  y.typ == k.typ && y.rts == k.rts && y.slot == k.slot && y.step == k.step && (k.typ == 0x14 || (y.row == k.row && y.seg == k.seg)) && m.elim true (· == y.src)

/-- The packets of an item leave the receive buffers where a port's flits brought them; none while one stands behind an earlier packet of its flow (R393). -/
def takeItem (s : State) (shape : Nat × Nat) (rts : Nat) (x : MeshItem) : Option State :=
  (linkPackets s shape rts (rtSet s rts).self x).foldl (fun (o : Option State) k => o.bind (freeRx (headLike (itemMember x) k))) (some s)

/-- A packet arrives, from this module's mesh or from another member: then out of the receive buffers, where a port's flits brought it; the command of an arrival
stands for the whole way of one that no flit of the run brought (DESIGN CHOICE, assumption 92). -/
def packetArrive (own : Bool) (shape : Nat × Nat) (rts : Nat) (x : MeshItem) (t : Transit) (s : State) : Arrival :=
  if own then meshArrive x t s
  else match takeItem s shape rts x with
    | some s => crossArrive (.engine 0, x) t s
    | none => .none

/-! ### Placement (R417 to R419, R422) -/

/-- Order of members from STEP mod MEMBERS with ROT. -/
def memberRank (x : Exchange) (members m : Nat) : Nat :=
  if x.rot then (m + members - x.step.toNat % members) % members else m

def countBefore (x : Exchange) (members : Nat) (a b : XCount) : Bool :=
  decide (memberRank x members a.member * 2048 + a.tile ≤ memberRank x members b.member * 2048 + b.tile)

def insertCount (x : Exchange) (n : Nat) (c : XCount) : List XCount → List XCount
  | [] => [c]
  | d :: r => if countBefore x n c d then c :: d :: r else d :: insertCount x n c r

/-- The COUNTs in the order of R417. -/
def orderedCounts (s : State) (x : Exchange) : List XCount := x.counts.foldr (insertCount x (rtSet s x.rts).members) []

def countFor (c : XCount) (e : Nat) : Nat := ((c.counts.filter fun p => p.1 == e).map Prod.snd).sum

/-- Base rows of each source for an expert, in order. -/
def basesFor (e : Nat) : Nat → List XCount → List (XCount × Nat)
  | _, [] => []
  | b, c :: r => (c, b) :: basesFor e (b + countFor c e) r

/-- COUNTs from SRCN sources of every member are held. -/
def countsComplete (s : State) (x : Exchange) : Bool :=
  (List.range (rtSet s x.rts).members).all fun m =>
    let l := x.counts.filter fun c => c.member == m
    match l with
    | [] => false
    | c :: _ => decide (c.srcn ≤ l.length)

/-- What all COUNTs must agree on (R422). -/
def countSig (c : XCount) : Bool × Bool × Nat × Nat × Nat × Nat := (c.capm, c.ovf, c.cap, c.k, c.rowl, c.fmt)

/-- Rows an expert admits beyond which copies drop. -/
def admitLimit (x : Exchange) (ovf : Bool) : Nat := if ovf then x.rmax else min x.c x.rmax

/-! ### Grids and descriptors (R420, R421) -/

/-- Near-tier address of n bytes at an offset of an expert's receive grid, where the hint buffer's near extent holds them (exchange units reach no host memory,
R214). -/
def gridNear (s : State) (m : MapEntry) (off n : Nat) : Option Nat :=
  let b := hintBuf s m.hbuf
  let x := m.roff * 128 + off
  if decide (x + n ≤ b.nlen) && hintNearOk s m.hbuf x n then some ((lookupD {} b.nreg s.regions).first + b.noff + x) else none

/-- Those bytes lie in a channel that serves nothing now (R279, R281). -/
def gridWaits (s : State) (m : MapEntry) (off n : Nat) : Bool := (gridNear s m off n).elim false fun a => rangeWaits s a n

/-- Write bytes of a tile's store, none beyond its end. -/
def storeWrite (tile off : Nat) (l : List Byte) (s : State) : State := writeBytes (tileAddr tile off) (l.take (2 ^ 23 - off)) s

/-- The bytes of a mask with bits [lo, hi) set, n bytes long. -/
def maskBytes (lo hi n : Nat) : List Byte := toLE n (2 ^ hi - 2 ^ lo)

/-- The descriptor, the masks and the tie of RKNOT. -/
def finishExpert (x : Exchange) (m : MapEntry) (e : XExpert) (s : State) : State :=
  let sz := cdiv x.rmax 1024 * 128
  let d := toLE 4 e.n1 ++ toLE 4 e.n2 ++ toLE 2 x.xid ++ toLE 2 0 ++ toLE 4 x.step.toNat ++ List.replicate 112 0
  let s := storeWrite m.origin (x.desc * 128) (d ++ maskBytes 0 e.n1 sz ++ maskBytes e.n1 (e.n1 + e.n2) sz) s
  outerTie (tileKnot m.origin x.rknot) 1 (noteAll s)

/-- An expert whose rows are all complete is finished once. -/
def tryFinish (x : Exchange) (e : Nat) (s : State) : State :=
  match getX s x.xid with
  | none => s
  | some y =>
    match localExpert s y e, lookup e y.experts with
    | some m, some k =>
      if !k.done && k.received.length == k.n1 + k.n2 then
        finishExpert y m k (setX { y with experts := upsert e { k with done := true } y.experts } s)
      else s
    | _, _ => s

/-- The scale exponent fields of one square's lines. -/
def lineScale (e : XExpert) (p k : Nat) : Nat := (lookup p e.received).elim 0 fun r => r.scales.getD k 0

/-- Complete square k of grid row gr. -/
def finishSquare (x : Exchange) (fmt rowl gr : Nat) (m : MapEntry) (e : XExpert) (s : State) (k : Nat) : State :=
  let g := rowSquares fmt rowl
  let lines := min 128 (e.n1 + e.n2 - gr * 128)
  match gridNear s m ((gr * g + k) * sqSize fmt) (sqSize fmt) with
  | none => s
  | some base =>
    let top := (List.range lines).foldl (fun t l => max t (lineScale e (gr * 128 + l) k)) 0
    let scale : W32 := if fmtSquare fmt then BitVec.ofNat 32 (top * 2 ^ 23) else 0x3F800000
    let s := (List.range (128 - lines)).foldl (fun s l =>
      let s := sqWriteLine base fmt (lines + l) (List.replicate 128 0) s
      if fmtMx fmt then busWrite (base + 128 + 4 * (lines + l)) (List.replicate 4 127) s else s) s
    let s := if fmtSquare fmt then
        (List.range lines).foldl (fun s l =>
          let p := gr * 128 + l
          let sc := lineScale e p k
          if sc = top then s
          else
            let xs := (List.range 128).map fun j => ((elemFmt fmt).decode (sqBits s base fmt l j)).scale ((sc : Int) - 127)
            let die (j : Nat) := dice s.host.seed x.step x.sid 2 (p * g * 128 + k * 128 + j)
            let (el, c) := convRun fmt (x.cls == 2) die ((top : Int) - 127) 0 xs {}
            countConv x.sid x.step c (sqWriteLine base fmt l el s)) s
      else s
    if fmtHdr fmt = 0 then
      if fmtWide fmt then
        let am := amax32 ((List.range lines).flatMap fun l => sqLine s base fmt l false)
        match gridNear s m (gridSquares fmt rowl x.rmax * sqSize fmt + 4 * (gr * g + k)) 4 with
        | some a => nearWrite a (toLE 4 am.toNat) 4 s
        | none => s
      else s
    else
      let s := sqWriteDesc base fmt 0 scale 0 s
      sqWriteDesc base fmt 0 scale (amax32 ((List.range 128).flatMap fun l => sqLine s base fmt l false)) s

/-- The near-tier extents of an expert's receive and return grids in an exchange, for rows of a shape (R411, R423). -/
def expertGrids (s : State) (x : Exchange) (shape : Nat × Nat) (m : MapEntry) : List (Nat × Nat) :=
  let n (fmt : Nat) := gridSquares shape.1 shape.2 x.rmax * sqSize fmt
  [(0, destBytes shape.1 (gridSquares shape.1 shape.2 x.rmax)), (x.ooff * 128, n x.rfmt)].filterMap fun (o, k) => (gridNear s m o 1).map (·, k)

/-- Grids of an expert overlap those of another expert that this member holds: they hold undefined values (R411). -/
def gridsMeet (s : State) (x : Exchange) (shape : Nat × Nat) (e : Nat) (m : MapEntry) : Bool :=
  (localExperts s x).any fun (k, n) => k != e && (expertGrids s x shape m).any fun a => (expertGrids s x shape n).any fun b => rangesMeet a.1 a.2 b.1 b.2

/-- Every admitted row of a grid row is present. -/
def gridRowFull (e : XExpert) (gr : Nat) : Bool :=
  (List.range (min 128 (e.n1 + e.n2 - gr * 128))).all fun l => (lookup (gr * 128 + l) e.received).isSome

/-- The write of one receive row, with the completion of its grid row and of the expert. -/
def acceptRow (x : Exchange) (shape : Nat × Nat) (m : MapEntry) (e : XExpert) (r : XRow) (s : State) : State :=
  let (fmt, rowl) := shape
  let g := rowSquares fmt rowl
  let s := (List.range g).foldl (fun s k =>
    match gridNear s m ((r.row / 128 * g + k) * sqSize fmt) (sqSize fmt) with
    | some base =>
      let s := sqWriteLine base fmt (r.row % 128) ((r.elems.drop (128 * k)).take 128) s
      if fmtMx fmt then busWrite (base + 128 + 4 * (r.row % 128)) (((r.scales.drop (4 * k)).take 4).map (BitVec.ofNat 8)) s else s
    | none => s) s
  let e := { e with received := upsert r.row r e.received }
  let s := setX { x with experts := upsert r.expert e x.experts } s
  let s := if gridRowFull e (r.row / 128) then (List.range g).foldl (finishSquare x fmt rowl (r.row / 128) m e) s else s
  let s := if gridsMeet s x shape r.expert m then
      (List.range g).foldl (fun s k => (gridNear s m ((r.row / 128 * g + k) * sqSize fmt) (sqSize fmt)).elim s fun b => freeBytes b (sqSize fmt) s) s
    else s
  tryFinish x r.expert s

/-! ### Sending rows -/

/-- Index of a source's copies of an expert: its copies in order. -/
def copiesOf (xm : XMove) (e : Nat) : List (Nat × Nat × Nat) := xm.copies.filter fun c => c.1 == e

/-- Send the admitted copies of an expert as receive rows to the member that holds it. -/
def sendRows (x : Exchange) (xm : XMove) (g : XGrant) (s : State) : State :=
  match expertOf s x.rts g.expert with
  | none => s
  | some m =>
    let w := xm.word
    let base := tileAddr xm.tile (wf w 64 16 * 128)
    ((copiesOf xm g.expert).take g.admitted).zipIdx.foldl (fun s (c, n) =>
      let (elems, scales) := tokenRow s base (wf w 140 4) (wf w 128 12) c.2.1
      sendItem (.queue xm.tile 8) (wf w 140 4, wf w 128 12) x.rts m.member (.xrow { xid := x.xid, expert := g.expert, row := g.base + n, elems, scales, step := x.step }) s) s

/-! ### The grant phase (R416 to R419) -/

def xflag (n : Nat) : W32 := BitVec.ofNat 32 n

/-- An event of an exchange's step. -/
def postX (code : Nat) (x : Exchange) (s : State) : State := postFull code 3 0xFFFFFFFF 0 x.step [] s

/-- C of R418 before the limit of RMAX. -/
def capacity (capm : Bool) (cap t k e : Nat) : Nat := if capm then cdiv (cap * t * k) (256 * max e 1) else cap

/-- The GRANT to a source whose copies of an expert begin at a base row (R416, R419). -/
def grantFor (x : Exchange) (lim e : Nat) (c : XCount) (b : Nat) : XGrant :=
  let n := countFor c e
  let a := min n (lim - b)
  { xid := x.xid, expert := e, tile := c.tile, base := b, admitted := a, dropped := decide (a < n), spilled := decide (x.c < b + a), step := x.step }

/-- Placement of every local expert, the counters, the events and the GRANTs to the sources. -/
def grantPhase (x : Exchange) (s : State) : State :=
  let cs := orderedCounts s x
  match cs with
  | [] => s
  | f :: _ =>
    let t := (x.counts.map XCount.rows).sum
    let c0 := capacity f.capm f.cap t f.k (expertsOf s x.rts).length
    let mism := x.counts.any fun c => countSig c != countSig f
    let x := { x with placed := cs, granted := true, t, c := min c0 x.rmax, clamp := decide (x.rmax < c0), mismatch := mism }
    let lim := admitLimit x f.ovf
    let loc := localExperts s x
    let ex := loc.map fun (e, _) =>
      let n := (cs.map fun c => countFor c e).sum
      let n1 := min n x.c
      (e, ({ n, n1, n2 := min n lim - n1 } : XExpert))
    let x : Exchange := { x with
      experts := ex, copies := (ex.map fun k => k.2.n).sum, spilled := (ex.map fun k => k.2.n2).sum
      dropped := x.dropped + (ex.map fun k => k.2.n - (k.2.n1 + k.2.n2)).sum, maxn := ex.foldl (fun a k => max a k.2.n) 0 }
    let over_ := decide (0 < x.spilled) || ex.any fun k => decide (k.2.n1 + k.2.n2 < k.2.n)
    let s := setX { x with overflowRaised := over_ } s
    let s := if mism then postX Ev.xchMismatch x s else s
    let s := if x.clamp then postX Ev.xchClamp x s else s
    let s := if over_ then postX Ev.xchOverflow x s else s
    let s := loc.foldl (fun s (e, m) =>
      (basesFor e 0 cs).foldl (fun s (c, b) =>
        sendItem (.engine (0x200 + tileField m.origin)) (f.fmt, f.rowl) x.rts c.member (.xgrant (grantFor x lim e c b)) s) s) s
    loc.foldl (fun s (e, _) => tryFinish x e s) s

/-- A packet of a step that is committed is discarded (R426). -/
def stalePacket (s : State) (step : W32) : Bool := decide (step.toNat ≤ s.cap.committed.toNat)

/-- The shape of an exchange's rows and its routing set, for its packets from other members. -/
def xShape (s : State) (xid : Nat) : Nat × Nat := ((getX s xid).bind rowShape).getD (0, 1)
def xRts (s : State) (xid : Nat) : Nat := ((getX s xid).map Exchange.rts).getD 0

/-- XCH_COUNT. One for an exchange that this member has not declared yet stays where it is until then (DESIGN CHOICE, assumption 92). -/
def execXchCount (c : XCount) (t : Transit) (s : State) : Out :=
  if (getX s c.xid).isNone && !stalePacket s c.step then .next s else
  let own := (getX s c.xid).elim true fun x => c.member == selfOf s x
  match packetArrive own (c.fmt, c.rowl) (xRts s c.xid) (.xcount c) t s with
  | .none => .next s
  | .lost s => .next s
  | .got _ s =>
    match getX s c.xid with
    | none => .next s
    | some x =>
      if stalePacket s c.step || x.granted then .next s
      else
        let x := { x with counts := x.counts ++ [c] }
        .next (if countsComplete s x then grantPhase x s else setX x s)

/-- XCH_GRANT. -/
def execXchGrant (g : XGrant) (t : Transit) (s : State) : Out :=
  let own := (getX s g.xid).elim true fun x => (localExpert s x g.expert).isSome
  match packetArrive own (xShape s g.xid) (xRts s g.xid) (.xgrant g) t s with
  | .none => .next s
  | .lost s => .next s
  | .got _ s =>
    match getX s g.xid with
    | none => .next s
    | some x =>
      if stalePacket s g.step then .next s
      else match x.moves.find? fun m => m.tile == g.tile with
        | none => .next s
        | some xm =>
          let xm := { xm with grants := upsert g.expert g xm.grants }
          let x := { x with moves := x.moves.map fun m => if m.tile = g.tile then xm else m }
          .next (sendRows x xm g (setX x s))

/-- The member whose copy takes a receive row. -/
def rowMember (x : Exchange) (e p : Nat) : Option Nat :=
  ((basesFor e 0 x.placed).find? fun (c, b) => decide (b ≤ p) && decide (p < b + countFor c e)).map fun z => z.1.member

/-- A receive row's squares lie in channels that serve nothing now (R279, R281), or its exchange's shape is not known yet: it waits. -/
def rowWaits (s : State) (xid e row : Nat) : Bool :=
  match getX s xid with
  | none => false
  | some x =>
    match localExpert s x e, rowShape x with
    | some m, some (fmt, rowl) =>
      let g := rowSquares fmt rowl
      (List.range g).any fun k => gridWaits s m ((row / 128 * g + k) * sqSize fmt) (sqSize fmt)
    | _, none => x.granted
    | none, _ => false

/-- XCH_ROW. -/
def execXchRow (r : XRow) (t : Transit) (s : State) : Out :=
  if rowWaits s r.xid r.expert r.row then .next s else
  let own := (getX s r.xid).elim true fun x => rowMember x r.expert r.row == some (selfOf s x)
  match packetArrive own (xShape s r.xid) (xRts s r.xid) (.xrow r) t s with
  | .none => .next s
  | .lost s => .next s
  | .got _ s =>
    match getX s r.xid with
    | none => .next s
    | some x =>
      match localExpert s x r.expert, lookup r.expert x.experts, rowShape x with
      | some m, some e, some shape =>
        if stalePacket s r.step || !x.granted || decide (e.n1 + e.n2 ≤ r.row) || (lookup r.row e.received).isSome then .next s
        else
          let g := rowSquares shape.1 shape.2
          if (List.range g).all fun k => (gridNear s m ((r.row / 128 * g + k) * sqSize shape.1) (sqSize shape.1)).isSome then .next (acceptRow x shape m e r s)
          else .next s
      | _, _, _ => .next s

/-! ### DISPATCH (R209, R415, R416, R422) -/

def encDispatch (w : MoveWord) : Bool :=
  wf w 32 32 == 0 && wf w 96 16 == 0 && wf w 112 16 != 0 && wf w 128 12 != 0 && fmtValid (wf w 140 4) && decide (1 ≤ wf w 144 4) &&
    decide (wf w 144 4 ≤ 8) && wf w 186 70 == 0 && rowlOk (wf w 140 4) (wf w 128 12)

/-- Formats that DISPATCH carries. -/
def dispatchFmt (f : Nat) : Bool := decide (f ≤ 4) || fmtSquare f || fmtMx f

/-- The indices of a move in order: expert, token row, rank; 0xFFFF sends nothing. -/
def copyList (s : State) (tile : Nat) (w : MoveWord) : List (Nat × Nat × Nat) :=
  let k := wf w 144 4
  ((List.range (wf w 112 16)).flatMap fun i => (List.range k).map fun j =>
    (readN s (tileAddr tile (wf w 80 16 * 128 + 2 * (i * k + j))) 2, i, j)).filter fun c => c.1 != 0xFFFF

/-- The shared checks of R415 after the format: extents, then the indices. -/
def indexCheck (s : State) (p : Play) (tile : Nat) (w : MoveWord) (rts bytes : Nat) (extra : Bool) : Option (BitVec 16) :=
  let n := wf w 112 16 * wf w 144 4
  if !(storeOk s p tile (wf w 64 16 * 128) bytes && storeOk s p tile (wf w 80 16 * 128) (2 * n) && extra) then some Status.addrRange
  else if (copyList s tile w).any fun c => (expertOf s rts c.1).isNone then some Status.xmapMiss
  else none

/-- The checks of DISPATCH. R415's table has no row for a header of another format (R97): the model makes that check after FMT's row, and after its test of AXIS (DESIGN
CHOICE, assumption 113). SCALE_INVALID is not among a DISPATCH's statuses (R120). -/
def dispatchCheck (s : State) (p : Play) (tile : Nat) (w : MoveWord) : Option (BitVec 16) :=
  let fmt := wf w 140 4
  if !encDispatch w then some Status.moveField
  else match getX s (wf w 170 16) with
  | none => some Status.xchUnknown
  | some x =>
    if wf w 148 4 != x.rts then some Status.xchValue
    else if !dispatchFmt fmt then some Status.fmtPair
    else
      let n := gridSquares fmt (wf w 128 12) (wf w 112 16)
      let base := tileAddr tile (wf w 64 16 * 128)
      let sq := (List.range n).map fun k => base + k * sqSize fmt
      if fmtMx fmt && sq.any (fun b => sqAxis s b != 0) then some Status.fmtPair
      else if headMismatch s [(base, fmt, n)] then some Status.fmtMismatch
      else match indexCheck s p tile w x.rts (n * sqSize fmt) true with
      | some st => some st
      | none => if x.srcn ≤ x.issued then some Status.xchValue else none

/-- The COUNT that a source sends to a member: the copies of each expert that the member holds. -/
def sourceCount (s : State) (x : Exchange) (tile : Nat) (w : MoveWord) (copies : List (Nat × Nat × Nat)) (m : Nat) : XCount :=
  { xid := x.xid, member := selfOf s x, tile, srcn := x.srcn, rows := wf w 112 16, capm := wb w 152, ovf := wb w 153, cap := wf w 154 16, k := wf w 144 4,
    rowl := wf w 128 12, fmt := wf w 140 4, step := x.step
    counts := ((expertsOf s x.rts).filter fun k => k.2.member == m).map fun (e, _) => (e, (copies.filter fun c => c.1 == e).length) }

/-- The COUNTs of a source go to every member of the set. -/
def sendCounts (x : Exchange) (tile : Nat) (w : MoveWord) (copies : List (Nat × Nat × Nat)) (s : State) : State :=
  (List.range (rtSet s x.rts).members).foldl (fun s m => sendItem (.queue tile 8) (wf w 140 4, wf w 128 12) x.rts m (.xcount (sourceCount s x tile w copies m)) s) s

/-- DISPATCH at its start. -/
def startDispatch (p : Play) (tile : Nat) (m : QMove) (s : State) : Start :=
  let w := m.word
  match dispatchCheck s p tile w with
  | some st => .fail st s
  | none =>
    match getX s (wf w 170 16) with
    | none => .fail Status.xchUnknown s
    | some x =>
      let copies := copyList s tile w
      let m := { m with started := true }
      if xingClosed s (tileField tile) 8 then .fault 15 s
      else if x.reuse then
        let grants := ((getX s x.prior).bind fun y => y.moves.find? fun k => k.tile == tile).elim [] XMove.grants
        let xm : XMove := { tile, word := w, copies, grants }
        let x := { x with issued := x.issued + 1, moves := xm :: x.moves.filter fun k => k.tile != tile }
        .run m (grants.foldl (fun s (_, g) => sendRows x xm { g with xid := x.xid, step := x.step } s) (setX x s))
      else
        let xm : XMove := { tile, word := w, copies }
        let x := { x with issued := x.issued + 1, moves := xm :: x.moves.filter fun k => k.tile != tile }
        .run m (sendCounts x tile w copies (setX x s))

/-- A DISPATCH has all its grants, none of its rows has been lost, and none is on the mesh or in a send buffer any more; that another member has accepted the rows it got only
MOVE_COMPLETION says (assumption 92). -/
def dispatchDone (s : State) (tile : Nat) (w : MoveWord) : Bool :=
  match getX s (wf w 170 16) with
  | none => false
  | some x =>
    match x.moves.find? fun k => k.tile == tile with
    | none => false
    | some xm =>
      !xm.lost && (x.reuse || xm.copies.all fun c => (lookup c.1 xm.grants).isSome) &&
        !(s.mesh.any fun i => match i with
          | (.queue t 8, .xrow r) => t == tile && r.xid == x.xid
          | _ => false) &&
        !(s.ports.any fun (_, p) => p.sendQ.any fun (_, l) => l.any fun k => k.typ == 0x12 && k.slot == x.xid)

/-! ### COMBINE (R423 to R425) -/

def encCombine (w : MoveWord) : Bool :=
  wf w 112 16 != 0 && wf w 128 12 != 0 && fmtValid (wf w 140 4) && decide (1 ≤ wf w 144 4) && decide (wf w 144 4 ≤ 8) && decide (wf w 152 3 ≤ 4) &&
    wf w 172 84 == 0 && rowlOk (wf w 140 4) (wf w 128 12)

def combineCheck (s : State) (p : Play) (tile : Nat) (w : MoveWord) : Option (BitVec 16) :=
  let fmt := wf w 140 4
  if !encCombine w then some Status.moveField
  else match getX s (wf w 156 16) with
  | none => some Status.xchUnknown
  | some x =>
    if wf w 148 4 != x.rts then some Status.xchValue
    else if !decide (fmt ≤ 2) then some Status.fmtPair
    else indexCheck s p tile w x.rts (destBytes fmt (gridSquares fmt (wf w 128 12) (wf w 112 16)))
      (storeOk s p tile (wf w 96 16 * 128) (4 * wf w 112 16 * wf w 144 4))

/-- Receive row of each admitted copy of a COMBINE: expert, token row, rank, receive row (R416, R424). -/
def admittedCopies (x : Exchange) (tile : Nat) (copies : List (Nat × Nat × Nat)) : List (Nat × Nat × Nat × Nat) :=
  match x.moves.find? fun k => k.tile == tile with
  | none => []
  | some xm =>
    copies.zipIdx.filterMap fun (c, pos) =>
      let n := ((copies.take pos).filter fun d => d.1 == c.1).length
      match lookup c.1 xm.grants with
      | some g => if n < g.admitted then some (c.1, c.2.1, c.2.2, g.base + n) else none
      | none => none

def resultKey (tile e row : Nat) : Nat := (tile * 4096 + e) * 2 ^ 20 + row

/-- Sort a row's terms by ascending expert. -/
def insertTerm (t : Nat × Nat × Nat × Nat) : List (Nat × Nat × Nat × Nat) → List (Nat × Nat × Nat × Nat)
  | [] => [t]
  | u :: r => if t.1 ≤ u.1 then t :: u :: r else u :: insertTerm t r

/-- One output row: weighted results summed in ascending expert (R424). -/
def combineRow (s : State) (x : Exchange) (tile : Nat) (w : MoveWord) (terms : List (Nat × Nat × Nat × Nat)) (i g : Nat) : List W32 :=
  (terms.filter fun t => t.2.1 == i).foldr insertTerm [] |>.foldl (fun acc t =>
    let wt := parF s tile (wf w 96 16 * 128 + 4 * (i * wf w 144 4 + t.2.2.1))
    let y := lookupD [] (resultKey tile t.1 t.2.2.2) x.results
    acc.zipIdx.map fun (a, c) => fma32 wt (r32 ((elemFmt x.rfmt).decode (y.getD c 0))) a) (List.replicate (128 * g) 0)

/-- All output rows, with the padding behind them (R98), their amax table and counts (R425); the dice take JOB_SEED as it stands (R142). -/
def combineWrite (p : Play) (tile : Nat) (m : QMove) (x : Exchange) (s : State) : State :=
  let w := m.word
  let fmt := wf w 140 4
  let g := rowSquares fmt (wf w 128 12)
  let rows := wf w 112 16
  let base := tileAddr tile (wf w 64 16 * 128)
  let terms := admittedCopies x tile (copyList s tile w)
  let out := (List.range rows).map fun i => combineRow s x tile w terms i g
  let sr := wb w 155 || wf w 152 3 == 2
  let die (i c : Nat) := dice s.host.seed p.step (sidOf w) 2 (i * g * 128 + c)
  let conv := out.zipIdx.map fun (row, i) => (List.range g).map fun k =>
    let xs := ((row.drop (128 * k)).take 128).map v32
    let (el, c) := convRun fmt sr (fun j => die i (128 * k + j)) 0 0 xs {}
    (el, c, heldAmax fmt el xs)
  let s := conv.zipIdx.foldl (fun s (sqs, i) => sqs.zipIdx.foldl (fun s (x, k) =>
    countConv (sidOf w) p.step x.2.1 (sqWriteLine (gridSquare base fmt (wf w 128 12) i k) fmt (i % 128) x.1 s)) s) s
  let s := if rows % 128 = 0 then s
    else (List.range g).foldl (fun s k => padLines (gridSquare base fmt (wf w 128 12) rows k) fmt (rows % 128) s) s
  let nsq := gridSquares fmt (wf w 128 12) rows
  let s := (List.range nsq).foldl (fun s q =>
    let am := ((conv.drop (q / g * 128)).take 128).foldl (fun a sqs => amaxMax a ((sqs[q % g]?).elim 0 fun x => x.2.2)) 0
    writeN (base + nsq * sqSize fmt + 4 * q) 4 am.toNat s) s
  let empty := ((List.range rows).filter fun i => !(terms.any fun t => t.2.1 == i)).length
  noteAll (setX { x with dropped := x.dropped + empty, combining := x.combining.filter (· != tile) } s)

/-- The results of a COMBINE are all held. -/
def combineReady (s : State) (x : Exchange) (tile : Nat) (w : MoveWord) : Bool :=
  (admittedCopies x tile (copyList s tile w)).all fun t => (lookup (resultKey tile t.1 t.2.2.2) x.results).isSome

/-- COMBINE at its start: lines that an earlier one received are dropped, and a FETCH goes for each admitted copy to the member that holds its expert. -/
def startCombine (p : Play) (tile : Nat) (m : QMove) (s : State) : Start :=
  let w := m.word
  match combineCheck s p tile w with
  | some st => .fail st s
  | none =>
    match getX s (wf w 156 16) with
    | none => .fail Status.xchUnknown s
    | some x =>
      if xingClosed s (tileField tile) 8 then .fault 15 s
      else
      let m := { m with started := true }
      let x := { x with results := x.results.filter (fun r => r.1 / 2 ^ 32 != tile), combining := tile :: x.combining }
      let s' := (admittedCopies x tile (copyList s tile w)).foldl (fun s t =>
        match expertOf s x.rts t.1 with
        | some k =>
          sendItem (.queue tile 8) (wf w 140 4, wf w 128 12) x.rts k.member
            (.xfetch { xid := x.xid, expert := t.1, row := t.2.2.2, member := selfOf s x, tile, step := x.step }) s
        | none => s) (setX x s)
      if combineReady s x tile w then .run { m with ready := true } (combineWrite p tile m x s')
      else .run m s'

/-- Returns of an exchange are served for an expert's field (R423). -/
def returnsOpen (s : State) (x : Exchange) (f : Nat) : Bool :=
  let n := ((localExperts s x).filter fun m => tileField m.2.origin == f).length
  waitMet (knot s (xuKnot f x.xknot)) (lookupD 0 f x.knots + BitVec.ofNat 32 n)

/-- The return line of a receive row (R423). -/
def returnLine (s : State) (x : Exchange) (m : MapEntry) (row : Nat) : Option (List Nat) :=
  (rowShape x).bind fun c =>
    let g := rowSquares c.1 c.2
    ((List.range g).foldr (fun k (acc : Option (List Nat)) =>
      match acc, gridNear s m (x.ooff * 128 + (row / 128 * g + k) * sqSize x.rfmt) (sqSize x.rfmt) with
      | some l, some base => some (((List.range 128).map fun j => sqBits s base x.rfmt (row % 128) j) ++ l)
      | _, _ => none) (some []))

/-- Squares of the returns that hold a receive row: offsets in the expert's grid. -/
def returnSquares (x : Exchange) (row : Nat) : List Nat :=
  (rowShape x).elim [] fun c =>
    let g := rowSquares c.1 c.2
    (List.range g).map fun k => x.ooff * 128 + (row / 128 * g + k) * sqSize x.rfmt

/-- What serving a FETCH meets first: a channel that serves nothing now, or a granule that cannot be read. -/
def returnsWait (s : State) (x : Exchange) (m : MapEntry) (row : Nat) : Bool := (returnSquares x row).any fun o => gridWaits s m o (sqSize x.rfmt)

/-- The reads of a return line's squares (R289, R291): whether they give data. -/
def readReturns (x : Exchange) (m : MapEntry) (row : Nat) (s : State) : Bool × State :=
  (returnSquares x row).foldl (fun (a : Bool × State) o =>
    match gridNear a.2 m o (sqSize x.rfmt) with
    | some b => match engineRead 8 3 b (sqSize x.rfmt) a.2 with
      | (.got _, s) => (a.1, s)
      | (.gone _, s) => (false, s)
    | none => a) (true, s)

/-- Free elements of a format. -/
def freeElems (fmt n : Nat) (s : State) : List Nat × State :=
  ((List.range n).map fun k => (Config.freeValue (s.freeCtr + k)).toNat % 2 ^ fmtBits fmt, { s with freeCtr := s.freeCtr + n })

/-- Serve one waiting FETCH if its field's returns are open. A line that cannot be read is lost, and its step is replayed (R466). -/
def serveFetch (xid : Nat) (s : State) (f : XFetch) : State :=
  match getX s xid with
  | none => s
  | some x =>
    match localExpert s x f.expert with
    | none => s
    | some m =>
      match returnsOpen s x (tileField m.origin) && !returnsWait s x m f.row, returnLine s x m f.row with
      | true, some elems =>
        let s := setX { x with fetches := x.fetches.filter fun y => y != f } s
        let (ok, s) := readReturns x m f.row s
        let (elems, s) := if gridsMeet s x ((rowShape x).getD (0, 1)) f.expert m then freeElems x.rfmt elems.length s else (elems, s)
        if !ok then faultStep f.step s
        else sendItem (.engine (0x200 + tileField m.origin)) ((rowShape x).getD (0, 1)) x.rts f.member
          (.xresult { xid, expert := f.expert, row := f.row, tile := f.tile, elems, step := f.step }) s
      | _, _ => s

/-- Serve every FETCH that can be served. -/
def serveFetches (s : State) : State :=
  s.exchanges.foldl (fun s (xid, x) => x.fetches.foldl (serveFetch xid) s) s

/-- FETCH. -/
def execFetch (f : XFetch) (t : Transit) (s : State) : Out :=
  let own := (getX s f.xid).elim true fun x => f.member == selfOf s x
  match packetArrive own (xShape s f.xid) (xRts s f.xid) (.xfetch f) t s with
  | .none => .next s
  | .lost s => .next s
  | .got _ s =>
    match getX s f.xid with
    | none => .next s
    | some x =>
      if stalePacket s f.step || (localExpert s x f.expert).isNone then .next s
      else .next (serveFetches (setX { x with fetches := x.fetches ++ [f] } s))

/-- The COMBINE that waits at the head of a tile's XCH queue. -/
def waitingCombine (s : State) (tile xid : Nat) : Option (Play × QMove) :=
  (playOfTile s tile).bind fun p =>
    (p.queues.find? fun q => q.tile == tile && q.code == 8).bind fun q =>
      match q.moves with
      | m :: _ => if m.started && !m.ready && opOf m.word == 0x41 && wf m.word 156 16 == xid then some (p, m) else none
      | [] => none

/-- Mark the head of a queue ready. -/
def markReady (p : Play) (tile code : Nat) (s : State) : State :=
  setPlay { p with queues := p.queues.map fun q =>
    if q.tile = tile && q.code = code then
      { q with moves := match q.moves with
                        | m :: r => { m with ready := true } :: r
                        | [] => [] }
    else q } s

/-- RESULT: the line is held; the last one lets the COMBINE write its rows. -/
def execResult (r : XResult) (t : Transit) (s : State) : Out :=
  let own := (getX s r.xid).elim true fun x => (localExpert s x r.expert).isSome
  match packetArrive own (xShape s r.xid) (xRts s r.xid) (.xresult r) t s with
  | .none => .next s
  | .lost s => .next s
  | .got _ s =>
    match getX s r.xid with
    | none => .next s
    | some x =>
      if stalePacket s r.step then .next s
      else match waitingCombine s r.tile r.xid with
        | none => .next s
        | some (p, m) =>
          let x := { x with results := upsert (resultKey r.tile r.expert r.row) r.elems x.results }
          let s := setX x s
          if combineReady s x r.tile m.word then .next (markReady p r.tile 8 (combineWrite p r.tile m x s)) else .next s

/-! ### Commands (R411 to R413, R430) -/

/-- n bytes of P from byte k. -/
def pN (p : Packet) (k n : Nat) : Nat := item p.param k n

/-- XMAP_SET. -/
def opXmapSet (p : Packet) (s : State) : State :=
  let n := pN p 0 1
  let first := pN p 2 2
  let cnt := pN p 4 2
  let src := pN p 8 8
  if decide (15 < n) || cnt = 0 || decide (4096 < first + cnt) || (src = 0 && decide (512 < cnt)) then refuse p Status.xchValue s
  else if s.exchanges.any fun (_, x) => x.rts == n then refuse p Status.xchBusy s
  else if src != 0 && !destOk s src (8 * cnt) false then refuse p Status.addrRange s
  else
    match (if src = 0 then (.got p.payload, s) else engineRead 12 p.origin src (8 * cnt) s) with
    | (.gone st, s) => refuse p st s
    | (.got data, s) =>
    let ws := (List.range cnt).map fun k => BitVec.ofNat 64 (item data (8 * k) 8)
    let r := rtSet s n
    if ws.any fun w => let m := mapEntry w; decide (r.members ≤ m.member) || decide (5 < m.shape) then refuse p Status.xchValue s
    else
      let xmap := ws.zipIdx.foldl (fun t (w, k) => upsert (first + k) w t) r.xmap
      accept p { s with sets := upsert n { r with xmap } s.sets }

/-- The items of R412 are in range. -/
def xchItems (p : Packet) : Bool :=
  decide (1 ≤ pN p 20 2) && decide (pN p 20 2 ≤ 4096) && decide (1 ≤ pN p 12 4) && decide (pN p 12 4 ≤ 2 ^ 20) && decide (pN p 24 1 ≤ 15) &&
    decide (pN p 25 1 ≤ 2) && decide (pN p 26 1 ≤ 127) && decide (pN p 27 1 ≤ 127) && (pN p 28 1 == 4 || pN p 28 1 == 2)

/-- The exchange an XCH_SET declares. -/
def newExchange (p : Packet) (s : State) : Exchange :=
  { xid := pN p 0 2, step := BitVec.ofNat 32 (pN p 4 4), rts := pN p 24 1, srcn := pN p 20 2, rmax := pN p 12 4, ooff := pN p 16 4, rfmt := pN p 25 1,
    desc := pN p 22 2, rknot := pN p 26 1, xknot := pN p 27 1, sid := BitVec.ofNat 32 (pN p 8 4), cls := pN p 28 1, rot := bitAt (pN p 29 1) 0,
    reuse := bitAt (pN p 29 1) 1, prior := pN p 2 2,
    knots := (List.range 8).map fun f => (f, knot s (xuKnot f (pN p 27 1))) }

/-- XCH_SET. -/
def opXchSet (p : Packet) (s : State) : State :=
  if !xchItems p then refuse p Status.xchValue s
  else
    let x := newExchange p s
    if (getX s x.xid).isSome then refuse p Status.xchBusy s
    else
      let y := (getX s x.prior).filter fun y => y.step == x.step && y.rts == x.rts && y.granted
      if x.reuse && y.isNone then refuse p Status.xchUnknown s
      else if 256 ≤ s.exchanges.length then refuse p Status.xchFull s
      else match x.reuse, y with
        | true, some y =>
          let ex := y.experts.map fun (e, k) => (e, { k with received := [], done := false })
          let x : Exchange := { x with granted := true, counts := y.counts, placed := y.placed, t := y.t, c := y.c, clamp := y.clamp, mismatch := y.mismatch, copies := y.copies }
          let x : Exchange := { x with spilled := y.spilled, maxn := y.maxn, experts := ex, dropped := (ex.map fun k => k.2.n - (k.2.n1 + k.2.n2)).sum }
          let over_ := decide (0 < x.spilled) || decide (0 < x.dropped)
          let s := setX { x with overflowRaised := over_ } s
          let s := if over_ then postX Ev.xchOverflow x s else s
          accept p (ex.foldl (fun s (e, _) => tryFinish x e s) s)
        | _, _ => accept p (setX x s)

/-- The record of a held exchange. -/
def xchRecord (x : Exchange) : List Byte :=
  toLE 2 x.xid ++ toLE 1 (1 + 2 * b2n x.granted + 4 * b2n x.clamp + 8 * b2n x.mismatch + 16 * b2n x.reuse) ++ toLE 1 0 ++ toLE 4 x.step.toNat ++
    toLE 8 x.t ++ toLE 4 x.c ++ toLE 8 x.copies ++ toLE 8 x.spilled ++ toLE 8 x.dropped ++ toLE 4 x.maxn ++ List.replicate 16 0

/-- XCH_GET. -/
def opXchGet (p : Packet) (s : State) : State :=
  let first := pN p 0 2
  let cnt := pN p 2 2
  let d := pN p 8 8
  if cnt = 0 || decide (256 < cnt) || decide (65536 < first + cnt) then refuse p Status.xchValue s
  else if !destOk s d (64 * cnt) true then refuse p Status.addrRange s
  else accept p (destWrite p.origin d ((List.range cnt).flatMap fun k => (getX s (first + k)).elim (List.replicate 64 0) xchRecord) s)

/-- An aborted step's exchanges, and those of later steps, are dropped (R429). -/
def dropExchanges (step : W32) (s : State) : State := { s with exchanges := s.exchanges.filter fun (_, x) => decide (x.step.toNat < step.toNat) }
/-- A step that commits or is vetoed lets its exchanges go (R413). -/
def endExchanges (step : W32) (s : State) : State := { s with exchanges := s.exchanges.filter fun (_, x) => x.step != step }

end Sys2Proof.Machine
end

