-- ==== Sys2Proof/Machine/Plays.lean ====
section
/-! DEFINITION. Plays: firing, start checks, move fetch and dispatch, engine queues, ties and waits, completion, failure, rerun, END (chapters 03, 07, 16). -/

namespace Sys2Proof.Machine

/-! ### Replies of a play (R176, R211, R336) -/

/-- The reply of a play. -/
def playReply (p : Play) (st : BitVec 16) (d : W64) (s : State) : State :=
  stepReply p.order p.queue p.seq 0x0301 p.origin p.notify p.id p.step st d s

/-- The success status: FIRE_LATE for a play whose FIRE had passed at dispatch (R41). -/
def Play.okStatus (p : Play) : BitVec 16 := if p.late then Status.fireLate else Status.ok

/-- End a play that never ran. It has no END CT, and the spec names a SLOT_OVERRUN only for an END: none is raised, whatever its deadline (DESIGN CHOICE,
assumption 90). -/
def endUnrun (p : Play) (st : BitVec 16) (s : State) : State := playReply p st 0 (dropPlay p.order s)

/-! ### Firing (R173, R436) -/

def tgtOrg (t : W32) : Nat := t.toNat % 2048
def tgtShape (t : W32) : Nat := t.toNat / 2048 % 8

/-- PLAY_FIRE at dispatch: a play that waits for its FIRE time, or is due at once. One with FIRE 0 has the CT of its dispatch as its FIRE time among the waiting plays: R41
says that it executes at dispatch, and R38 compares FIRE words (DESIGN CHOICE, assumption 119). -/
def opPlayFire (p : Packet) (order : Nat) (s : State) : State :=
  if 4 < p.flags.toNat % 8 then refuse p Status.pwrValue s
  else
    let future := p.fire ≠ 0 && decide (s.cad.ct.toNat ≤ p.fire.toNat)
    let y : Play := {
      image := pN p 0 8, org := tgtOrg p.tgt, shape := tgtShape p.tgt, id := BitVec.ofNat 32 (pN p 8 4), step := BitVec.ofNat 32 (pN p 12 4)
      fire := if p.fire = 0 then s.cad.ct else p.fire, deadline := BitVec.ofNat 64 (pN p 16 8), queue := p.queue, seq := p.seq, origin := p.origin
      notify := Packet.notify p, rerun := p.flags.getLsbD 3, phase := p.flags.toNat % 8, order, late := p.rsv == 1
      state := if future then .pending else .due }
    { s with plays := s.plays ++ [y] }

/-! ### Start (R16, R40, R78, R88, R174, R175, R231, R232, R321) -/

/-- The order of R38 among plays. -/
def playBefore (a b : Play) : Bool := decide (a.fire.toNat < b.fire.toNat) || (a.fire == b.fire && decide (a.order < b.order))

/-- The step gate holds a play (R321). -/
def gated (s : State) (p : Play) : Bool := decide (s.cap.committed.toNat + 1 < p.step.toNat)

/-- The first play of a partition that can start in the order of R38: due, or its FIRE time has come, and not held by the step gate. -/
def nextPlay (s : State) (org sh : Nat) : Option Play :=
  s.plays.foldl (fun b p =>
    if p.org == org && p.shape == sh && p.state != .running && (p.state == .due || decide (p.fire.toNat ≤ s.cad.ct.toNat)) && !gated s p then
      match b with
      | some q => if playBefore p q then some p else b
      | none => some p
    else b) none

/-- A revoke waits that names the partition (R232). -/
def revokeWaits (s : State) (org sh : Nat) : Bool :=
  s.loans.any fun l => l.revoking && ((l.lendOrg == org && l.lendShape == sh) || (l.borOrg == org && l.borShape == sh))

/-- NTILE of a shape (R169). -/
def shapeTiles (sh : Nat) : Nat := shapeRows sh * shapeCols sh

/-- Entry k of the tile table: LIST, COUNT and the reserved word (R170). -/
def tileEntry (s : State) (image k : Nat) : Nat × Nat × Nat :=
  (readN s (image + 128 + 16 * k) 8, readN s (image + 136 + 16 * k) 4, readN s (image + 140 + 16 * k) 4)

/-- Bytes of an image's header and tile table, which the command's shape sizes. -/
def imageBytes (p : Play) : Nat := 128 + 16 * shapeTiles p.shape

/-- The image checks of R174 after the partition's: none when all pass. R174 names no status for an image whose header or tile table lies in no valid region entry: it fails
the address check, before MAGIC and SHAPE (DESIGN CHOICE, assumption 117). -/
def imageCheck (s : State) (p : Play) : Option (BitVec 16) :=
  let a := p.image
  let sh := readN s (a + 6) 1
  if !(a % 128 == 0 && spaceOf a == .near && (inRegion s a (imageBytes p)).isSome) then some Status.addrRange
  else if !(readN s a 4 == 0x504C4159 && readN s (a + 4) 2 == 1 && readN s (a + 7) 1 == 0 && (readBytes s (a + 12) 116).all (· == 0) &&
      decide (sh ≤ 5) && readN s (a + 8) 4 == shapeTiles sh) then some Status.playFormat
  else if sh ≠ p.shape then some Status.partShape
  else if (List.range (shapeTiles sh)).any fun k =>
      let e := tileEntry s a k
      e.2.1 == 0 || decide (2 ^ 24 < e.2.1) || e.2.2 != 0 then some Status.playFormat
  else none

/-- The image's header or tile table cannot be read back: a granule is retired, or a unit carries inverted parity (R289, R291). -/
def imageGone (s : State) (p : Play) : Bool := readMeets s isRetired p.image (imageBytes p)
def imageBad (s : State) (p : Play) : Bool := imageGone s p || readMeets s isPoisoned p.image (imageBytes p)

/-- Engine queues of a tile: code 1 only on the lead (R177). -/
def newQueues (lead : Bool) (t : Nat) : List TileQueue :=
  ([0] ++ (if lead then [1] else []) ++ [2, 3, 4, 5, 6, 7, 8]).map fun c => { tile := t, code := c }

/-- The knots of a partition's tiles (R464). -/
def partKnots (s : State) (org sh : Nat) : Table W32 := s.knots.filter fun (k, _) => decide (k < 0x40000) && inRegionTile org sh (k / 128)

/-- Fresh sequencers and queues, and the lists' line-cache lines dropped (R175). -/
def playRun (p : Play) (s : State) : State :=
  let ts := tilesOf p.org p.shape
  let seqs := ts.zipIdx.map fun (t, k) =>
    let e := tileEntry s p.image k
    ({ tile := t, list := e.1, count := e.2.1 } : Sequencer)
  let p := { p with
    state := .running, seqs, queues := ts.flatMap fun t => newQueues (t == p.org) t, fail := none, faulted := none, cut := none
    dests := [], reads := [], waits := [], outer := [] }
  seqs.foldl (fun s q => cacheDrop q.tile (p.image + q.list * 128) (32 * q.count) s) (setPlay p s)

/-! ### Destinations (R210) -/

/-- Extents that a move writes: space (0 module, 1 and 2 the hosts), address, bytes, and the tile whose mover writes them to the near tier. -/
def streamDests (p : Play) (m : QMove) (s : State) : List (Nat × Nat × Nat × Option Nat) :=
  match streamCtx p m s with
  | none => []
  | some c =>
    (List.range c.cols).flatMap fun u =>
      if c.drain = 1 || c.drain = 2 then (List.range c.nsq).map fun b => (0, c.acc s u (128 * b), 65536, none)
      else
        (if c.dkind = 0 || c.dkind = 3 then [(0, c.outBase u, destBytes c.dfmt c.nsq, none)] else []) ++
          (if c.dkind = 0 then [] else [(0, tileAddr (c.drainTile u) (wf c.w 192 16 * 128), wf c.w 210 7 * 32768, none)])

/-- A destination unit of a tile's MOVE. -/
def moveDest (s : State) (tile a : Nat) : List (Nat × Nat × Nat × Option Nat) :=
  match spaceOf a with
  | .hint => match hintResolve s a with
    | .near b => [(0, b, 128, none)]
    | .host port b => [(1 + port, b, 128, none)]
    | .none => []
  | .near => [(0, a, 128, some tile)]
  | _ => [(0, a, 128, none)]

def destsOf (p : Play) (tile : Nat) (m : QMove) (s : State) : List (Nat × Nat × Nat × Option Nat) :=
  let w := m.word
  let at_ (lo n : Nat) : Nat × Nat × Nat × Option Nat := (0, tileAddr tile (wf w lo 16 * 128), n, none)
  match opOf w with
  | 0x12 => streamDests p m s
  | 0x20 => [at_ 144 (destBytes (wf w 82 4) (sqsOf (wf w 160 24)))]
  | 0x21 => [at_ 133 (4 * wf w 220 16)]
  | 0x22 => [at_ 133 (destBytes (wf w 75 4) (sqsOf (wf w 220 16 * wf w 191 17)))]
  | 0x23 => at_ 133 (destBytes (wf w 75 4) (sqsOf (wf w 220 16 * wf w 191 17))) ::
      (if wb w 66 then [(0, tileAddr tile (nrmAcc w), 512 * wf w 191 17, none)] else [])
  | 0x24 => [at_ 108 (2 * wf w 77 4 * wf w 140 20), at_ 124 ((if wb w 87 then 2 else 4) * wf w 77 4 * wf w 140 20)]
  | 0x25 => [at_ 80 (wf w 112 20 * wf w 152 12 * 128)]
  | 0x26 | 0x27 => (List.range (wf w 112 20)).map fun i =>
      let n := wf w 152 12 * 128
      (0, tileAddr tile (wf w 80 16 * 128 + readN s (tileAddr tile (wf w 96 16 * 128 + 4 * i)) 4 % wf w 132 20 * n), n, none)
  | 0x28 => [at_ 80 (wf w 111 16 * sqSize (wf w 100 4))]
  | 0x29 => [at_ 80 4]
  | 0x30 => if lostWord m then [] else (moveUnits w).flatMap fun u => moveDest { s with hints := m.place } tile u.2
  | 0x41 => [at_ 64 (destBytes (wf w 140 4) (gridSquares (wf w 140 4) (wf w 128 12) (wf w 112 16)))]
  | _ => []

/-- Free values over one destination; retired granules were never written, and the writing tile's line cache holds what the unit holds (R259). -/
def freeDest (d : Nat × Nat × Nat × Option Nat) (s : State) : State :=
  let (sp, a, n, t) := d
  if sp = 0 then
    if a < nearEnd then
      (List.range (cdiv n 128)).foldl (fun s k =>
        if isRetired s (a + 128 * k) then s
        else
          let (x, s) := drawBytes 128 s
          let s := writeBytes (a + 128 * k) x s
          t.elim s fun tile => cacheUpdate tile ((a + 128 * k) / 128) x s) s
    else freeBytes a n s
  else freeHost (sp - 1) a n s

/-- The destinations of a play that did not end with status 0x0000 hold undefined values. -/
def freeDests (p : Play) (s : State) : State := p.dests.foldl (fun s d => freeDest d s) s

/-- The tie of a completed move (R184, R185). -/
def makeTie (p : Play) (tile : Nat) (w : MoveWord) (s : State) : State :=
  if !wb w 8 then s
  else if wb w 16 then (tilesOf p.org p.shape).foldl (fun s t => addKnot (tileKnot t (wf w 9 7)) 1 s) s
  else addKnot (tileKnot tile (wf w 9 7)) 1 s

/-! ### Encodings of the sequencer and knot moves (R185, R187, R191 to R193, R565) -/

/-- Opcodes that can convert, so that SID may be non-zero. -/
def opConverts (op : Nat) : Bool :=
  op == 0x12 || op == 0x20 || op == 0x21 || op == 0x22 || op == 0x23 || op == 0x24 || op == 0x28 || op == 0x41

/-- The fields common to every move: without TIE no knot is named; SID is zero where nothing is converted. -/
def encCommon (w : MoveWord) : Bool := (wb w 8 || wf w 9 8 == 0) && (opConverts (opOf w) || wf w 32 32 == 0)

def opLegal (op : Nat) : Bool :=
  decide (op ≤ 0x07) || (decide (0x10 ≤ op) && decide (op ≤ 0x13)) || (decide (0x20 ≤ op) && decide (op ≤ 0x29)) || op == 0x30 || op == 0x31 || op == 0x40 ||
    op == 0x41

def leadOnly (op : Nat) : Bool := op == 0x06 || (decide (0x10 ≤ op) && decide (op ≤ 0x13))

/-- The queue that a move enters, where its field is legal. -/
def queueOf (w : MoveWord) : Option Nat :=
  match opOf w with
  | 0x00 | 0x01 | 0x02 | 0x06 => some 0
  | 0x03 | 0x04 | 0x05 => if wf w 64 4 ≤ 8 then some (wf w 64 4) else none
  | 0x07 => if wf w 64 4 = 1 || wf w 64 4 = 2 then some (wf w 64 4) else none
  | 0x10 | 0x11 | 0x12 | 0x13 => some 1
  | 0x30 => if wf w 164 3 ≤ 4 then some (3 + wf w 164 3) else none
  | 0x31 => if wf w 138 3 ≤ 4 then some (3 + wf w 138 3) else none
  | 0x40 | 0x41 => some 8
  | _ => some 2

def queueDepth (code : Nat) : Nat := if code = 0 then 1 else if 7 ≤ code then 8 else 16

def encTie (w : MoveWord) : Bool :=
  let kind := wf w 68 3
  decide (kind ≤ 4) && wf w 89 32 != 0 && wf w 121 135 == 0 && (kind == 1 || (kind == 3 && decide (wf w 78 11 ≤ 31)) || wf w 78 11 == 0)
def encWait (w : MoveWord) : Bool := wf w 123 133 == 0
def encKset (w : MoveWord) : Bool := wf w 107 149 == 0
def encIframe (w : MoveWord) : Bool := wf w 169 87 == 0
def encFireat (w : MoveWord) : Bool := wf w 128 128 == 0
def encPart (w : MoveWord) : Bool := wf w 81 175 == 0
def encEmpty (w : MoveWord) : Bool := wf w 64 192 == 0

/-- The R187 encoding checks of any move, as its list's tile makes them before anything else. -/
def encMoveWord (h : Nat) (w : MoveWord) : Bool :=
  encCommon w && match opOf w with
    | 0x00 | 0x01 | 0x11 => encEmpty w
    | 0x02 => encFireat w
    | 0x03 => encTie w
    | 0x04 => encWait w
    | 0x05 => encKset w
    | 0x06 => encPart w
    | 0x07 => encIframe w
    | 0x10 => encLoadw w h
    | 0x12 => encStream w
    | 0x13 => encSxt w
    | 0x20 => encElem w
    | 0x21 | 0x22 | 0x23 => encReduce (opOf w) w
    | 0x24 => encTopk w
    | 0x25 | 0x26 | 0x27 => encGather (opOf w) w
    | 0x28 => encPack w
    | 0x29 => encAmaxt w
    | 0x30 => encMove w
    | 0x31 => encInval w
    | 0x40 => encDispatch w
    | 0x41 => encCombine w
    | _ => true

/-! ### Starting moves -/

/-- TIE at its start: a local knot at once, a remote one as packets (R191). -/
def startTie (p : Play) (tile code : Nat) (m : QMove) (s : State) : Start :=
  let w := m.word
  let kind := wf w 68 3
  let k := wf w 71 7
  let amount := BitVec.ofNat 32 (wf w 89 32)
  let send (target : Nat) (s : State) := meshPut (.queue tile code) (.tie kind target k amount tile code) s
  if !encTie w then .fail Status.moveField s
  else if kind != 0 && (xingClosed s (tileField tile) 8 || (kind == 3 && xingClosed s 10 8)) then .fault 15 s
  else if kind = 0 then .done (addKnot (tileKnot tile k) amount s)
  else if kind = 2 then
    let ts := tilesOf p.org p.shape
    .run { m with started := true, left := ts.length } (ts.foldl (fun s t => send t s) s)
  else .run { m with started := true, left := 1 } (send (wf w 78 11) s)

def waitKnot (tile : Nat) (w : MoveWord) : Nat := tileKnot tile (wf w 68 7)
def waitOk (s : State) (tile : Nat) (w : MoveWord) : Bool := waitMet (knot s (waitKnot tile w)) (BitVec.ofNat 32 (wf w 75 32))

/-- WAIT at the head of its queue, where its beats begin to count (R184, R191). -/
def startWait (tile : Nat) (m : QMove) (s : State) : Start :=
  if !encWait m.word then .fail Status.moveField s
  else if waitOk s tile m.word then .done s
  else .run { m with started := true, since := beatNo (routerCt s tile) } s

/-- KSET (R184). -/
def startKset (tile : Nat) (m : QMove) (s : State) : Start :=
  if !encKset m.word then .fail Status.moveField s
  else .done (setKnot (waitKnot tile m.word) (BitVec.ofNat 32 (wf m.word 75 32)) s)

/-- The frame an IFRAME sets (R565). -/
def frameOf (w : MoveWord) : Frame := { dtr := wb w 68, row0 := wf w 69 32, col0 := wf w 101 24, dn := wf w 125 24, g := max (wf w 149 20) 1 }

/-- IFRAME. -/
def startIframe (p : Play) (tile code : Nat) (m : QMove) (s : State) : Start :=
  if !encIframe m.word then .fail Status.moveField s
  else .done (modQueue p.order tile code (fun q => { q with frame := frameOf m.word }) s)

/-- Ply moves that compute in the ply lanes (R468). -/
def laneOp (op : Nat) : Bool := (decide (0x20 ≤ op) && decide (op ≤ 0x24)) || op == 0x27 || op == 0x28 || op == 0x29

/-- The residue check of a ply move's operations: a first failure is reissued in the same lane; a second one writes nothing, faults the play and makes the tile
suspect (R468). -/
def laneStart (p : Play) (tile : Nat) (m : QMove) (s0 : State) (r : Start) : Start :=
  let u := unitOf 0 (physTile s0 tile)
  let log (masked : Bool) (s : State) := laneResidue u (BitVec.ofNat 32 tile) p.origin p.id p.step masked s
  match laneOp (opOf m.word), m.fault, r with
  | true, .lane false, .run m' s => .run m' (log true s)
  | true, .lane false, .done s => .done (log true s)
  | true, .lane true, .run _ _ => .fault 3 (suspectTile (physTile s0 tile) 3 (log false s0))
  | true, .lane true, .done _ => .fault 3 (suspectTile (physTile s0 tile) 3 (log false s0))
  | _, _, r => r

/-- A move that runs, but for a MOVE, meets a word with a failing byte as it reads: an intact retry lets it run, else its play is faulted (R461). -/
def parityStart (p : Play) (m : QMove) (start : State → Start) (s0 : State) : Start :=
  let meets (pl : ParityPlace) (w : DataWord) : Start :=
    let (lost, s) := parityMeets pl w p.origin p.id p.step s0
    if lost then .fault 1 s else start s
  match m.fault, start s0 with
  | .parity pl w, .run m' s => if opOf m.word = 0x30 then .run m' s else meets pl w
  | .parity pl w, .done s => if opOf m.word = 0x30 then .done s else meets pl w
  | _, r => r

/-- The start of a move of any queue but SEQ and ARR's SXT, as its row has it. -/
def startMoveOf (p : Play) (tile code : Nat) (m : QMove) (s : State) : Start :=
  if !encCommon m.word then .fail Status.moveField s
  else match opOf m.word with
    | 0x03 => startTie p tile code m s
    | 0x04 => startWait tile m s
    | 0x05 => startKset tile m s
    | 0x07 => startIframe p tile code m s
    | 0x10 => startLoadw p m s
    | 0x11 => startSwapw p m s
    | 0x12 => startStream p m s
    | 0x20 => startElem p tile m s
    | 0x21 => startGroup p tile 0x21 m s
    | 0x22 => startGroup p tile 0x22 m s
    | 0x23 => startGroup p tile 0x23 m s
    | 0x24 => startTopk p tile m s
    | 0x25 => startGather p tile 0x25 m s
    | 0x26 => startGather p tile 0x26 m s
    | 0x27 => startGather p tile 0x27 m s
    | 0x28 => startPack p tile m s
    | 0x29 => startGroup p tile 0x29 m s
    | 0x30 => startMove p tile m s
    | 0x31 => startInval tile m s
    | 0x40 => startDispatch p tile m s
    | 0x41 => startCombine p tile m s
    | _ => .fail Status.moveOpcode s

def startAny (p : Play) (tile code : Nat) (m : QMove) (s : State) : Start := parityStart p m (fun s => laneStart p tile m s (startMoveOf p tile code m s)) s

/-- The destination units of a MOVE that a retired granule ended, as far as it had written them. -/
def failDests (p : Play) (tile : Nat) (m : QMove) (st : BitVec 16) (s0 s : State) : List (Nat × Nat × Nat × Option Nat) :=
  if st = Status.retiredPage then
    (destsOf p tile m s0).filter fun d => d.1 != 0 || readBytes s d.2.1 d.2.2.1 != readBytes s0 d.2.1 d.2.2.1
  else []

/-- A move that no play with RERUN may hold (R465). -/
def rerunBars (w : MoveWord) : Bool :=
  (opOf w == 0x12 && (wf w 208 2 == 1 || wf w 208 2 == 2)) || opOf w == 0x40 || opOf w == 0x41 ||
    (opOf w == 0x03 && (wf w 68 3 == 1 || wf w 68 3 == 3 || wf w 68 3 == 4))

/-- Extents that a move reads: space, address, bytes (R465). -/
def readsOf (p : Play) (tile : Nat) (m : QMove) (s : State) : List (Nat × Nat × Nat) :=
  let w := m.word
  let at_ (lo n : Nat) : Nat × Nat × Nat := (0, tileAddr tile (wf w lo 16 * 128), n)
  let row := wf w 152 12 * 128
  match opOf w with
  | 0x10 => (tilesOf p.org p.shape).flatMap fun t =>
      (0, tileAddr t (wf w 64 16 * 128), sqSize (wf w 96 4)) :: (if wf w 96 4 = 13 then [(0, tileAddr t (wf w 80 16 * 128), sqSize 13)] else [])
  | 0x12 =>
    match streamCtx p m s with
    | none => []
    | some c =>
      let src := (List.range (shapeRows p.shape)).map fun t =>
        (0, tileAddr (p.org + t * 16) (wf w 128 16 * 128), (if wf w 97 4 = 13 then 2 else 1) * c.nsq * sqSize (wf w 97 4))
      let mask := if wb w 111 then [(0, tileAddr p.org (wf w 176 16 * 128), cdiv c.n 8)] else []
      let acc := if c.drain = 2 || c.drain = 3 then
          (List.range c.cols).flatMap fun u => (List.range c.nsq).map fun b => (0, c.acc s u (128 * b), 65536)
        else []
      src ++ mask ++ acc
  | 0x20 =>
    let n := sqsOf (wf w 160 24)
    at_ 96 (n * sqSize (wf w 70 4)) ::
      ((if elemUsesB (wf w 64 6) then [at_ 112 (if wb w 89 then 4 else n * sqSize (wf w 74 4))] else []) ++
        (if elemUsesC (wf w 64 6) then [at_ 128 (n * sqSize (wf w 78 4))] else []))
  | 0x21 => [at_ 85 (sqsOf (wf w 220 16 * wf w 191 17) * sqSize (wf w 67 4))]
  | 0x22 => [at_ 85 (sqsOf (wf w 220 16 * wf w 191 17) * sqSize (wf w 67 4)), at_ 101 (sqsOf (wf w 220 16 * wf w 191 17) * sqSize (wf w 71 4))]
  | 0x23 => [at_ 85 (sqsOf (wf w 220 16 * wf w 191 17) * sqSize (wf w 67 4)), at_ 101 (sqsOf (wf w 220 16 * wf w 191 17) * sqSize (wf w 71 4)),
      at_ 117 (nrmEnd w - wf w 117 16 * 128)]
  | 0x24 => [at_ 92 (sqsOf (wf w 140 20 * cdiv (wf w 64 13) 128) * sqSize (wf w 83 4))]
  | 0x25 => [at_ 64 (wf w 132 20 * row), at_ 96 (4 * wf w 112 20)]
  | 0x26 => [at_ 64 (wf w 112 20 * row), at_ 96 (4 * wf w 112 20)]
  | 0x27 => [at_ 64 (wf w 112 20 * row), at_ 96 (4 * wf w 112 20), at_ 80 (wf w 132 20 * row)]
  | 0x28 => [at_ 64 (destBytes (wf w 96 4) (wf w 111 16)), at_ 166 4]
  | 0x29 => [at_ 64 (4 * wf w 96 20)]
  | 0x30 =>
    let s := { s with hints := m.place }
    (moveUnits w).flatMap fun u => (moveDest s tile (bankAddr s p w u.1)).map fun d => (d.1, d.2.1, 128)
  | _ => []

/-- Remember what R465 asks about: a barred move, what a move reads, a knot that a WAIT waits on. -/
def noteStart (order tile : Nat) (m : QMove) (s0 s : State) : State :=
  match getPlay s order with
  | none => s
  | some p =>
    setPlay { p with
      barred := p.barred || rerunBars m.word, reads := readsOf p tile m s0 ++ p.reads
      waits := if opOf m.word = 0x04 then waitKnot tile m.word :: p.waits else p.waits } s

/-- Two extents share a byte. -/
def extentsMeet (a : Nat × Nat × Nat) (b : Nat × Nat × Nat × Option Nat) : Bool := a.1 == b.1 && rangesMeet a.2.1 a.2.2 b.2.1 b.2.2.1

/-- The play is one on which software must not set RERUN (R465). -/
def Play.noRerun (p : Play) : Bool := p.barred || p.reads.any (fun r => p.dests.any (extentsMeet r)) || p.waits.any p.outer.contains

/-- The destinations that a start adds to its play's; members of a group write with its result. -/
def startDests (p : Play) (tile : Nat) (m : QMove) (s : State) : List (Nat × Nat × Nat × Option Nat) :=
  if isGroupOp (opOf m.word) then [] else destsOf p tile m s

/-- Carry out what a start answers, for the move at a position of a queue; true when the queue can go on. -/
def applyStart (p : Play) (tile code pos : Nat) (m : QMove) (r : Start) (s0 : State) : Bool × State :=
  match r with
  | .hold => (false, s0)
  | .run m' s => (true, noteAll (noteStart p.order tile m' s0 (addDests p.order (startDests p tile m' s0) (putMove p.order tile code pos m' s))))
  | .done s => (true, noteAll (makeTie p tile m.word (noteStart p.order tile m s0 (dropMove p.order tile code pos s))))
  | .fail st s => (false, failPlay p.order (moveFailure st m tile) (addDests p.order (failDests p tile m st s0 s) s))
  | .fault c s => (false, faultPlay p.order c (faultOf m tile) (addDests p.order (startDests p tile m s0) s))

/-- The sequencer of a tile is halted by the debug unit (R547). -/
def seqHalted (s : State) (tile : Nat) : Bool := s.dbgUnit.halted.contains (4096 + physTile s tile)

/-- A play whose queues still start moves. -/
def Play.live (p : Play) : Bool := p.state == .running && p.fail.isNone && p.faulted.isNone && !p.withheld

/-- Start what can start at the head of a queue other than ARR (R179). -/
def pumpHead (order tile code : Nat) : Nat → State → State
  | 0, s => s
  | n + 1, s =>
    match getPlay s order with
    | none => s
    | some p =>
      match getQueue p tile code with
      | none => s
      | some q =>
        match q.moves with
        | [] => s
        | m :: _ =>
          if m.started || !p.live || (code == 0 && seqHalted s tile) then s
          else
            let m := { m with frame := q.frame }
            let (go, s) := applyStart p tile code 0 m (startAny p tile code m s) s
            if go then pumpHead order tile code n s else s

/-- The ARR queue may start an issued move behind the earlier ones (R52, R180). -/
def arrReady (earlier : List QMove) (op : Nat) : Bool :=
  let has (k : Nat) := earlier.any fun m => opOf m.word == k
  let waits (k : Nat) := earlier.any fun m => opOf m.word == k && !m.started
  let feeding := earlier.any fun m => opOf m.word == 0x12 && !(m.started && admitted m)
  match op with
  | 0x10 => !has 0x10 && !waits 0x11
  | 0x11 => !has 0x10 && !feeding && !waits 0x11
  | 0x12 => !feeding && !waits 0x11
  | 0x03 | 0x05 => earlier.isEmpty
  | _ => true

/-- The first move of the ARR queue that can be issued or started (R180): moves are issued in order, and only a WAIT holds the issue of later ones. -/
def nextArr : Nat → List QMove → List QMove → Option (Nat × QMove)
  | _, _, [] => none
  | n, before, m :: r =>
    if !m.issued then (if before.any fun e => opOf e.word == 0x04 then none else some (n, m))
    else if !m.started && arrReady before (opOf m.word) then some (n, m)
    else nextArr (n + 1) (before ++ [m]) r

/-- Set or clear the SXT that the lead's ARR queue holds for its STREAM. -/
def setSxt (order tile : Nat) (x : Option MoveWord) (s : State) : State :=
  match getPlay s order with
  | none => s
  | some p => setPlay { p with seqs := p.seqs.map fun q => if q.tile = tile then { q with sxt := x } else q } s

def sxtOf (p : Play) (tile : Nat) : Option MoveWord := (p.seqs.find? fun q => q.tile == tile).bind Sequencer.sxt

/-- Issue the move at a position of the ARR queue (R180, R197): it takes the frame and, if it is a STREAM, the SXT before it; an SXT waits for its STREAM. -/
def issueArr (p : Play) (tile pos : Nat) (m : QMove) (q : TileQueue) (s : State) : Bool × State :=
  let sx := sxtOf p tile
  let op := opOf m.word
  let bad (st : BitVec 16) := (false, failPlay p.order (moveFailure st m tile) s)
  if op = 0x13 then
    if !(encCommon m.word && encSxt m.word) then bad Status.moveField
    else if sx.isSome then bad Status.playFormat
    else (true, setSxt p.order tile (some m.word) (makeTie p tile m.word (dropMove p.order tile 1 pos s)))
  else if op ≠ 0x12 && sx.isSome then bad (if encMoveWord (128 * shapeRows p.shape) m.word then Status.playFormat else Status.moveField)
  else
    let s := putMove p.order tile 1 pos { m with issued := true, frame := q.frame, sxt := sx } s
    (true, if op = 0x12 then setSxt p.order tile none s else s)

/-- Issue and start what the ARR queue can (R180). -/
def pumpArr (order tile : Nat) : Nat → State → State
  | 0, s => s
  | n + 1, s =>
    match getPlay s order with
    | none => s
    | some p =>
      match getQueue p tile 1 with
      | none => s
      | some q =>
        match nextArr 0 [] q.moves with
        | none => s
        | some (pos, m) =>
          if !p.live then s
          else
            let (go, s') := if m.issued then applyStart p tile 1 pos m (startAny p tile 1 m s) s else issueArr p tile pos m q s
            if go then pumpArr order tile n s' else s'

/-- Position of the started STREAM that still has rows to admit. -/
def feedingAt (q : TileQueue) : Option (Nat × QMove) :=
  (q.moves.zipIdx.find? fun x => x.1.started && opOf x.1.word == 0x12 && !admitted x.1).map fun x => (x.2, x.1)

/-- The lead's started STREAM goes on admitting rows. -/
def resumeArr (order tile : Nat) (s : State) : State :=
  match getPlay s order with
  | none => s
  | some p =>
    match (getQueue p tile 1).bind feedingAt with
    | none => s
    | some (pos, m) =>
      if p.live then
        let (m, s) := streamGo p m s
        noteAll (putMove order tile 1 pos m s)
      else s

/-- Start what can start in one queue. -/
def pump (order tile code : Nat) (s : State) : State :=
  if code = 1 then pumpArr order tile 64 (resumeArr order tile s) else pumpHead order tile code 32 s

/-- Start what can start in every queue of every play. -/
def pumpAll (s : State) : State :=
  s.plays.foldl (fun s p => p.queues.foldl (fun s q => if q.moves.isEmpty then s else pump p.order q.tile q.code s) s) s

/-! ### Fetch and dispatch (R171, R178, R186) -/

/-- What a sequencer's fetch returns. -/
inductive Fetch where
  | word (w : MoveWord) (s : State)
  | fail (st : BitVec 16) (s : State)
  | bad (s : State)
  | stopped
  | wait

/-- Fetch move k of a tile's list through the line cache (R258). A channel that serves nothing now makes it wait (R279, R281). R171 names no status for a list unit in no
valid region entry: it ends the play with ADDR_RANGE (DESIGN CHOICE, assumption 118). -/
def fetchMove (p : Play) (q : Sequencer) (s : State) : Fetch :=
  let a := p.image + q.list * 128 + 32 * q.next
  let u := a / 128
  let pick (d : List Byte) : MoveWord := BitVec.ofNat 256 (item d (a % 128) 32)
  match cacheRead s q.tile u with
  | some (d, s) => .word (pick d) s
  | none =>
    if (inRegion s (u * 128) 128).isNone then .fail Status.addrRange s
    else if xingClosed s (tileField q.tile) 8 || xingClosed s 9 8 then .stopped
    else if nearWaits s a then .wait
    else if isRetired s a || isPoisoned s a then .bad (granuleFault a p.origin p.id p.step (retiredRead p (isRetired s a) s))
    else
      let d := readBytes s (u * 128) 128
      .word (pick d) (cacheFill q.tile u d s)

/-- The sequencer that can dispatch: its play, itself. A move in queue SEQ executes at dispatch (R177): a remote TIE there, which completes at its arrival, holds the
dispatch of later moves until then, as a WAIT does (DESIGN CHOICE, assumption 116). -/
def dispatcher (s : State) (tile : Nat) : Option (Play × Sequencer) :=
  (playOfTile s tile).bind fun p =>
    (p.seqs.find? fun q => q.tile == tile).bind fun q =>
      let seqBusy := (getQueue p tile 0).elim false fun x => !x.moves.isEmpty
      if p.live && !q.stopped && !q.ended && !seqBusy && !seqHalted s tile then some (p, q) else none

/-- Advance a sequencer past its move. -/
def stepSeq (order tile : Nat) (s : State) : State :=
  match getPlay s order with
  | none => s
  | some p => setPlay { p with seqs := p.seqs.map fun q => if q.tile = tile then { q with next := q.next + 1 } else q } s

/-- Put a move into its queue and start what can start. -/
def enqueue (p : Play) (tile code : Nat) (m : QMove) (s : State) : State :=
  pump p.order tile code (modQueue p.order tile code (fun x => { x with moves := x.moves ++ [m] }) (stepSeq p.order tile s))

/-- FIREAT, PART, NOP and END at dispatch; the queue of code 0 holds a FIREAT that has not been reached. -/
def seqMove (p : Play) (tile : Nat) (m : QMove) (s : State) : State :=
  let w := m.word
  let next := stepSeq p.order tile s
  match opOf w with
  | 0x00 => makeTie p tile w next
  | 0x01 =>
    if p.queues.any fun q => q.tile == tile && !q.moves.isEmpty then s
    else if (sxtOf p tile).isSome then failPlay p.order (moveFailure Status.playFormat m tile) s
    else match getPlay next p.order with
      | some y => makeTie y tile w (setPlay { y with seqs := y.seqs.map fun q => if q.tile = tile then { q with ended := true } else q } next)
      | none => next
  | 0x02 =>
    if wf w 64 64 ≤ (routerCt s tile).toNat then makeTie p tile w next
    else modQueue p.order tile 0 (fun x => { x with moves := [{ m with started := true }] }) next
  | _ =>
    if p.cut.isSome then failPlay p.order (moveFailure Status.playFormat m tile) s
    else match getPlay next p.order with
      | some y => makeTie y tile w (setPlay { y with cut := some (wf w 64 11, wf w 75 3, wf w 78 3) } next)
      | none => next

/-- Dispatch of the next move of a tile's list by a row of opcode op: the word is fetched and checked; a move of another opcode is not this row's. A move that has started
still takes one of its queue's places until it completes (DESIGN CHOICE, assumption 115). -/
def dispatchRow (op tile : Nat) (f : MoveFault) (s0 : State) : State :=
  match dispatcher s0 tile with
  | none => s0
  | some (p, q) =>
    let err (st : BitVec 16) (w : MoveWord) (s : State) := failPlay p.order (moveFailure st { word := w, idx := q.next, frame := {} } tile) s
    match fetchMove p q s0 with
    | .fail st s => err st 0 s
    | .bad s => faultPlay p.order 1 (0, q.next, tile) s
    | .wait => s0
    | .stopped => faultPlay p.order 15 (0, q.next, tile) s0
    | .word w s =>
      let o := opOf w
      let lead := tile == p.org
      if !opLegal o then err Status.moveOpcode w s
      else if o ≠ op then s0
      else if (o = 0x01) ≠ (q.next + 1 = q.count) then
        err (if encMoveWord (128 * shapeRows p.shape) w && (queueOf w).isSome then Status.playFormat else Status.moveField) w s
      else match queueOf w with
        | none => err Status.moveField w s
        | some code =>
          let m : QMove := { word := w, idx := q.next, frame := {}, fault := f }
          if (code = 1 || leadOnly o) && !lead then
            err (if encMoveWord (128 * shapeRows p.shape) w then Status.playFormat else Status.moveField) w s
          else if o = 0x00 || o = 0x01 || o = 0x02 || o = 0x06 then
            if encMoveWord (128 * shapeRows p.shape) w then seqMove p tile m s else err Status.moveField w s
          else if queueDepth code ≤ ((getQueue p tile code).elim [] TileQueue.moves).length then s0
          else enqueue p tile code m s

/-! ### The rows of dispatch -/

/-- The lane fault of a row as the fault of its move. -/
def ofLane (tile : Nat) : LaneFault → MoveFault
  | .none => .none | .once => .lane false | .twice => .lane true | .parity w => .parity (.store tile) w

def execMoveNop (tile : Nat) (s : State) : Out := .next (dispatchRow 0x00 tile .none s)
def execEndMove (tile : Nat) (s : State) : Out := .next (dispatchRow 0x01 tile .none s)
def execFireat (tile : Nat) (s : State) : Out := .next (dispatchRow 0x02 tile .none s)
def execTie (tile : Nat) (s : State) : Out := .next (dispatchRow 0x03 tile .none s)
def execWait (tile : Nat) (s : State) : Out := .next (dispatchRow 0x04 tile .none s)
def execKset (tile : Nat) (s : State) : Out := .next (dispatchRow 0x05 tile .none s)
def execPartMove (tile : Nat) (s : State) : Out := .next (dispatchRow 0x06 tile .none s)
def execIframe (tile : Nat) (s : State) : Out := .next (dispatchRow 0x07 tile .none s)
def execLoadw (tile : Nat) (s : State) : Out := .next (dispatchRow 0x10 tile .none s)
def execSwapw (tile : Nat) (s : State) : Out := .next (dispatchRow 0x11 tile .none s)
def execStream (tile : Nat) (f : MoveFault) (s : State) : Out := .next (dispatchRow 0x12 tile f s)
def execSxt (tile : Nat) (s : State) : Out := .next (dispatchRow 0x13 tile .none s)
def execElem (tile : Nat) (l : LaneFault) (s : State) : Out := .next (dispatchRow 0x20 tile (ofLane tile l) s)
def execReduce (tile : Nat) (l : LaneFault) (s : State) : Out := .next (dispatchRow 0x21 tile (ofLane tile l) s)
def execSmxb (tile : Nat) (l : LaneFault) (s : State) : Out := .next (dispatchRow 0x22 tile (ofLane tile l) s)
def execNrmb (tile : Nat) (l : LaneFault) (s : State) : Out := .next (dispatchRow 0x23 tile (ofLane tile l) s)
def execTopk (tile : Nat) (l : LaneFault) (s : State) : Out := .next (dispatchRow 0x24 tile (ofLane tile l) s)
def execGather (tile : Nat) (s : State) : Out := .next (dispatchRow 0x25 tile .none s)
def execScatter (tile : Nat) (s : State) : Out := .next (dispatchRow 0x26 tile .none s)
def execScatterAdd (tile : Nat) (l : LaneFault) (s : State) : Out := .next (dispatchRow 0x27 tile (ofLane tile l) s)
def execPack (tile : Nat) (l : LaneFault) (s : State) : Out := .next (dispatchRow 0x28 tile (ofLane tile l) s)
def execAmaxt (tile : Nat) (l : LaneFault) (s : State) : Out := .next (dispatchRow 0x29 tile (ofLane tile l) s)
def execMove (tile : Nat) (f : MoveFault) (s : State) : Out := .next (dispatchRow 0x30 tile f s)
def execInval (tile : Nat) (s : State) : Out := .next (dispatchRow 0x31 tile .none s)
def execDispatch (tile : Nat) (s : State) : Out := .next (dispatchRow 0x40 tile .none s)
def execCombine (tile : Nat) (s : State) : Out := .next (dispatchRow 0x41 tile .none s)

/-! ### Completion (R181, R191, R192, R249) -/

/-- What completing does beside the tie: a MOVE's units are as its reads found them (R228, R245); behind a STREAM whose last result is written, with no other
STREAM started, the fill has passed without an admission, which ends the run (R54, R57, R62). -/
def wrapUp (p : Play) (tile code pos : Nat) (m : QMove) (s : State) : State :=
  match opOf m.word with
  | 0x30 => settleMove tile m s
  | 0x12 =>
    if ((getQueue p tile code).elim [] TileQueue.moves).zipIdx.any fun x => x.2 != pos && x.1.started && opOf x.1.word == 0x12 then s
    else match findPart s p.org p.shape with
      | some q => setPart { q with runOpen := false } s
      | none => s
  | _ => s

/-- Complete the move at a position of a queue: it leaves, makes its tie, and the queue goes on. -/
def completeMove (p : Play) (tile code pos : Nat) (m : QMove) (s : State) : State :=
  pump p.order tile code (makeTie p tile m.word (dropMove p.order tile code pos (wrapUp p tile code pos m s)))

/-- A started move's work is done, so that it can complete. -/
def canComplete (s : State) (p : Play) (tile : Nat) (m : QMove) : Bool :=
  m.started && !m.cut && match opOf m.word with
    | 0x02 | 0x03 | 0x04 => false
    | 0x12 => admitted m && (unaccepted s (p.order, m.idx)).isEmpty
    | 0x21 | 0x22 | 0x23 | 0x29 | 0x41 => m.ready
    | 0x30 => !lostWord m && !moveWaits { s with hints := m.place } m.word
    | 0x40 => dispatchDone s tile m.word
    | _ => true

/-- The flushing read behind a MOVE's writes to a host cannot be answered: a port that carried one has been reset since, or is not trained (R241, R247, R249). -/
def flushFails (s : State) (m : QMove) : Option Nat :=
  if opOf m.word != 0x30 then none
  else match m.unflushed with
    | some port => some port
    | none => (hostPorts { s with hints := m.place } m.word).find? fun port => !(lookupD {} port s.host.ports).trained

/-- A move that can complete does so, or ends its play as its flushing read fails. -/
def finishMove (p : Play) (tile code pos : Nat) (m : QMove) (s : State) : State :=
  match flushFails s m with
  | some port => failPlay p.order (moveFailure Status.hostFault m tile) (dropMove p.order tile code pos (hostFault p port 0 s))
  | none => completeMove p tile code pos m s

/-- MOVE_COMPLETION. -/
def execMoveCompletion (tile code pos : Nat) (s : State) : Out :=
  match playOfTile s tile with
  | none => .next s
  | some p =>
    match getQueue p tile code with
    | none => .next s
    | some q =>
      match q.moves[pos]? with
      | none => .next s
      | some m =>
        if (code = 1 || pos = 0) && canComplete s p tile m then .next (finishMove p tile code pos m s) else .next s

/-- FIREAT_RELEASE: the tile's copy of CT reaches the value (R36, R192), and its sequencer is not halted (R547). -/
def execFireatRelease (tile : Nat) (s : State) : Out :=
  match playOfTile s tile with
  | none => .next s
  | some p =>
    match getQueue p tile 0 with
    | some { moves := m :: _, .. } =>
      match opOf m.word == 0x02, timeTo (BitVec.ofNat 64 (wf m.word 64 64)) s with
      | true, some s' => if wf m.word 64 64 ≤ (routerCt s' tile).toNat && !seqHalted s tile then .next (completeMove p tile 0 0 m s') else .next s
      | _, _ => .next s
    | _ => .next s

/-- Position of the WAIT at which a queue stands. -/
def waitPos (q : TileQueue) : Option (Nat × QMove) := (q.moves.zipIdx.find? fun x => x.1.started && opOf x.1.word == 0x04).map fun x => (x.2, x.1)

/-- A queue's work stands still: the sequencer itself, while it is halted (R177, R547). -/
def queueHalted (s : State) (tile code : Nat) : Bool := code == 0 && seqHalted s tile

/-- WAIT_SATISFIED: the WAIT completes, or a move that waits on a knot at its start tries again. -/
def execWaitSatisfied (tile code : Nat) (s : State) : Out :=
  match playOfTile s tile with
  | none => .next s
  | some p =>
    if queueHalted s tile code then .next s else
    match getQueue p tile code with
    | none => .next s
    | some q =>
      match waitPos q with
      | some (pos, m) => if waitOk s tile m.word then .next (completeMove p tile code pos m s) else .next s
      | none => .next (pump p.order tile code s)

/-- Beat edges that a tile's copy of CT has seen since a WAIT reached the head of its queue (R191). -/
def waitedBeats (s : State) (tile : Nat) (m : QMove) : Nat := beatNo (routerCt s tile) - m.since

/-- WAIT_TIMEOUT (R191). -/
def execWaitTimeout (tile code : Nat) (s : State) : Out :=
  match playOfTile s tile with
  | none => .next s
  | some p =>
    match (getQueue p tile code).bind waitPos with
    | none => .next s
    | some (_, m) =>
      if wf m.word 107 16 != 0 && decide (wf m.word 107 16 ≤ waitedBeats s tile m) && !queueHalted s tile code && !waitOk s tile m.word then
        .next (failPlay p.order (moveFailure Status.waitTimeout m tile) s)
      else .next s

/-- The knot that a tie packet reaches. -/
def tieKnot (kind target k qt : Nat) : Nat :=
  if kind = 3 then capKnot target k else if kind = 4 then xuKnot (tileField qt) k else tileKnot target k

/-- One packet of a started TIE has arrived. -/
def tieArrived (tile code : Nat) (s : State) : State :=
  match playOfTile s tile with
  | none => s
  | some p =>
    match getQueue p tile code with
    | none => s
    | some q =>
      match q.moves.zipIdx.find? fun x => x.1.started && opOf x.1.word == 0x03 with
      | none => s
      | some (m, pos) =>
        if m.left ≤ 1 then completeMove p tile code pos m s else putMove p.order tile code pos { m with left := m.left - 1 } s

/-- REMOTE_TIE_ARRIVAL: the first tie that a source has on the mesh for a node (R252). -/
def execRemoteTieArrival (src : Source) (node : Nat) (t : Transit) (s : State) : Out :=
  match s.mesh.find? fun i => i.1 == src && nodeOf s i.2 == node && (match i.2 with | .tie .. => true | _ => false) with
  | some (_, .tie kind target k amount qt qc) =>
    match meshArrive (.tie kind target k amount qt qc) t s with
    | .none => .next s
    | .lost s => .next s
    | .got _ s =>
      let key := tieKnot kind target k qt
      let own := (playOfTile s qt).elim false fun p => p.seqs.any fun q => q.tile == key / 128
      .next (serveFetches (tieArrived qt qc (if own then addKnot key amount s else outerTie key amount s)))
  | _ => .next s

/-! ### Groups (R157, R158, R202) -/

/-- The grouped move that waits at the head of a tile's PLY queue. -/
def groupHead (s : State) (tile : Nat) : Option (Play × QMove) :=
  (playOfTile s tile).bind fun p =>
    (getQueue p tile 2).bind fun q =>
      match q.moves with
      | m :: _ => if m.started && !m.ready && isGroupOp (opOf m.word) then some (p, m) else none
      | [] => none

/-- Destinations of a group's members hold free values: its GROUP value was in use twice (R202). -/
def freeGroup (p : Play) (l : List Member) (s : State) : State :=
  l.foldl (fun s x => (destsOf p x.1 x.2 s).foldl (fun s d => freeDest d s) s) s

/-- REDUCTION_RESULT at the root of a group: its result at every member, or the failure of every member (R158). -/
def execReductionResult (tile : Nat) (s : State) : Out :=
  match groupHead s tile with
  | none => .next s
  | some (p, m) =>
    if memOff m.word ≠ 0 then .next s
    else
      let l := sortMembers ((members p (groupOf m.word)).filter fun x => tileField x.1 == tileField tile)
      match groupSpan l with
      | .missing => .next s
      | .bad => .next (failPlay p.order (moveFailure Status.rowSpan m tile) (l.foldl (fun t x => dropMove p.order x.1 2 0 t) s))
      | .complete =>
        let s' := l.foldl (fun t x => addDests p.order (destsOf p x.1 x.2 s) (groupWrite p s l x t)) s
        let s' := noteAll (if l.any fun x => x.2.reused then freeGroup p l s' else s')
        .next (l.foldl (fun t x => modQueue p.order x.1 2 (fun q =>
          { q with moves := match q.moves with
                            | h :: r => { h with ready := true } :: r
                            | [] => [] }) t) s')

/-- GROUP_TIMEOUT: a member without its row's result ends its play; its move never completes. -/
def execGroupTimeout (tile : Nat) (s : State) : Out :=
  match groupHead s tile with
  | none => .next s
  | some (p, m) => .next (failPlay p.order (moveFailure Status.rowSpan m tile) (dropMove p.order tile 2 0 s))

/-! ### Ramp starts, pass beats, beat edges (R63, R64) -/

/-- RAMP_START_GRANT at a mesh cycle: the first request, 64 cycles after the last grant. A new run opens on its partition, unless a pass beat is in force. -/
def execRampStartGrant (now : Nat) (s : State) : Out :=
  match s.rampQueue with
  | [] => .next s
  | (_, org, sh) :: r =>
    if (match s.rampLast with | some t => decide (now < t + 64) | none => false) then .next s
    else
      let s := { s with rampQueue := r, rampLast := some now }
      match runningOn s org sh, findPart s org sh with
      | some p, some q =>
        if passing s (tileField org) then .next (setPart { q with rampWait := false } s)
        else .next (pump p.order org 1 (setPart { q with rampWait := false, runOpen := true, runRows := 0, runFrom := s.cad.ct.toNat } s))
      | _, _ => .next s

/-- Runs of a field's partitions end: the next admission is a new run. -/
def closeRuns (f : Nat) (s : State) : State :=
  { s with parts := s.parts.map fun p => if tileField p.org = f then { p with runOpen := false } else p }

/-- PASS_BEAT: a pass beat of the plan in force begins on the field; its partitions' runs end (R63). -/
def execPassBeat (f : Nat) (s : State) : Out :=
  if passing s f then .next (closeRuns f (adjField f (fun x => { x with passNow := true }) s)) else .next s

/-- Runs of a field whose pass beat begins end (R63). -/
def closePassing (s : State) : State :=
  { s with parts := s.parts.map fun q => if passing s (tileField q.org) then { q with runOpen := false } else q }

/-! ### MOVE replay (R463) -/

/-- MOVE_REPLAY: the lost word's MOVE runs again from its first block. -/
def execMoveReplay (tile code : Nat) (f : MoveFault) (s : State) : Out :=
  match playOfTile s tile with
  | none => .next s
  | some p =>
    match getQueue p tile code with
    | some { moves := m :: _, .. } =>
      if m.started && opOf m.word == 0x30 && lostWord m then
        match replayMove p tile m f s with
        | .run m' s' => .next (addDests p.order (destsOf p tile m' s) (putMove p.order tile code 0 m' s'))
        | .fail st s' => .next (failPlay p.order (moveFailure st m tile) (addDests p.order (failDests p tile { m with fault := f } st s s')
            (dropMove p.order tile code 0 s')))
        | .fault c s' => .next (faultPlay p.order c (faultOf m tile) (dropMove p.order tile code 0 s'))
        | _ => .next s
      else .next s
    | _ => .next s

/-! ### The end of a play (R87, R176, R193, R210, R464, R466) -/

/-- A started move that still runs; a DISPATCH or COMBINE whose exchange is gone does not, nor a TIE or a DISPATCH whose packets are lost. A STREAM that is cut short, or
that has lost packets, runs until its other packets are accepted (R210). -/
def stillRuns (s : State) (p : Play) (tile code : Nat) (m : QMove) : Bool :=
  m.started && match opOf m.word with
    | 0x03 => s.mesh.any fun x => match x.2 with
      | .tie _ _ _ _ qt qc => qt == tile && qc == code
      | _ => false
    | 0x12 => !(m.cut || !m.lost.isEmpty) || !(pendingRows s (p.order, m.idx)).isEmpty
    | 0x40 => (getX s (wf m.word 170 16)).elim false fun x => x.moves.any fun y => y.tile == tile && !y.lost
    | 0x41 => m.ready || (getX s (wf m.word 156 16)).elim false fun x => x.combining.contains tile
    | _ => true

/-- No started move of the play is left. -/
def quiet (s : State) (p : Play) : Bool := p.queues.all fun q => q.moves.all fun m => !stillRuns s p q.tile q.code m

/-- SLOT_OVERRUN at an END at or after the deadline. -/
def slotOverrun (p : Play) (s : State) : State :=
  if p.deadline.toNat ≤ s.cad.ct.toNat then
    postFull Ev.slotOverrun p.origin 0xFFFFFFFF p.id p.step (det [(2, p.org), (1, p.shape), (8, p.deadline.toNat)]) s
  else s

/-- The partition's run ends with the play. -/
def endRun (p : Play) (s : State) : State :=
  let s := { s with rampQueue := s.rampQueue.filter fun x => x.2 != (p.org, p.shape) }
  match findPart s p.org p.shape with
  | some q => setPart { q with runOpen := false, rampWait := false } s
  | none => s

/-- The cut that a PART move asked for; its refusal status, 0 when it is made. A play that ends with another status than 0x0000, be it FIRE_LATE, makes none. -/
def playCut (p : Play) (s : State) : BitVec 16 × State :=
  match (if p.late then none else p.cut) with
  | none => (0, s)
  | some (org, sh, n) =>
    if !((tilesOf p.org p.shape).all (inRegionTile org sh)) then (Status.partShape, s)
    else match partCheck s org sh n (some (p.org, p.shape)) with
      | some st => (st, s)
      | none => (0, partMake org sh n (partPend org sh none s))

/-- DETAIL of a failed play. -/
def failDetail (f : Failure) : W64 := BitVec.ofNat 64 (f.mtag % 2 ^ 15 + f.idx % 2 ^ 24 * 2 ^ 15 + f.tile % 2 ^ 11 * 2 ^ 39)

/-- A faulted play is to be run again (R464). -/
def Play.reruns_ (p : Play) : Bool := p.faulted.isSome && p.fail.isNone && !p.withheld && p.rerun && decide (p.reruns < 2)

/-- The end of a play that did not reach END: undefined destinations, then its reply if it has one. A faulted one whose step is above COMMITTED has none: the step is
marked FAULTED and replayed (R464, R466). -/
def endFailed (p : Play) (s : State) : State :=
  let s := freeDests p (endRun p (slotOverrun p (dropPlay p.order s)))
  if p.withheld then s
  else match p.fail with
    | some f => playReply p f.status (failDetail f) s
    | none =>
      if s.cap.committed.toNat < p.step.toNat then
        record (p.faulted.getD 0) 5 1 p.origin 0xFFFFFFFF 0xFFFFFFFF p.id p.step [] { s with cap := { s.cap with stepFaulted := true } }
      else
        let (mtag, idx, tile) := p.faultAt
        playReply p (faultStatus (p.faulted.getD 0)) (failDetail { status := 0, mtag, idx, tile }) s

/-- A crossing that the start of a play needs refuses transfers (R46): into the mesh from the control complex and from the near tier, and into the field. -/
def startClosed (s : State) (org : Nat) : Bool := xingClosed s (tileField org) 8 || xingClosed s 12 8 || xingClosed s 9 8

/-- PLAY_START: the first play of the partition that can start is checked and starts, or ends unrun. A power event or a commit of the present CT or before comes
first (R16, R39), the lead's copy of CT has reached FIRE (R36), and the image's channels serve its read (R279, R281). An image that cannot be read back is a parity
fault of the play (R289, R461). -/
def execPlayStart (org sh : Nat) (s : State) : Out :=
  match nextPlay s org sh with
  | none => .next s
  | some p =>
    if p.state != .due then .next s
    else match findPart s org sh with
    | none => .next (endUnrun p (missingStatus s p) s)
    | some q =>
      if q.busy || (runningOn s org sh).isSome || revokeWaits s org sh || !settled s || decide ((routerCt s org).toNat < p.fire.toNat) ||
          rangeWaits s p.image (imageBytes p) then .next s
      else if isLender s org sh then .next (endUnrun p Status.partLent s)
      else if startClosed s org then .next (endUnrun p Status.clockStopped s)
      else if p.image % 128 == 0 && imageBad s p then
        .next (endFailed { p with faulted := some 1 } (granuleFault p.image p.origin p.id p.step (retiredRead p (imageGone s p) s)))
      else match imageCheck s p with
        | some st => .next (endUnrun p st s)
        | none => .next (playRun { p with seed := s.host.seed, bank := s.cap.cur, knots := if p.rerun then partKnots s org sh else [] } s)

/-- A debug write has set a word that a play depends on (R539): of a sequencer of its partition, or of a core that serves every play (which plays depend on such a core
the spec does not say: DESIGN CHOICE, assumption 121). -/
def debugTouches (s : State) (p : Play) : Bool :=
  s.dbgUnit.words.any fun (k, _) =>
    let core := k / 2 ^ 61
    core / 4096 != 1 || (tilesOf p.org p.shape).any fun t => core % 4096 == physTile s t

/-- The end of a partition's running play: every END has retired, or a stopped play has no started move left. -/
def playEnd (org sh : Nat) (s : State) : State :=
  match runningOn s org sh with
  | none => s
  | some p =>
    if p.live then
      if p.seqs.all fun q => q.ended then
        let s1 := endRun p (slotOverrun p (dropPlay p.order s))
        let s1 := if (decide (0 < p.reruns) && p.noRerun) || debugTouches s p then freeDests p s1 else s1
        let (st, s2) := playCut p s1
        playReply p p.okStatus (st.setWidth 64) s2
      else s
    else if quiet s p && !p.reruns_ then endFailed p s
    else s

/-- The knots of a partition's tiles restored (R464). -/
def restoreKnots (p : Play) (s : State) : State :=
  let rest := s.knots.filter fun (k, _) => !(decide (k < 0x40000) && inRegionTile p.org p.shape (k / 128))
  { s with knots := p.knots.foldl (fun t (k, v) => upsert k v t) rest }

/-- PLAY_RERUN: a faulted play with RERUN starts again from move 0, at most twice. -/
def execPlayRerun (org sh : Nat) (s : State) : Out :=
  match runningOn s org sh with
  | none => .next s
  | some p =>
    if p.reruns_ && quiet s p then
      let s := record (p.faulted.getD 0) 4 0 p.origin 0xFFFFFFFF 0xFFFFFFFF p.id p.step [] (restoreKnots p (endRun p (freeDests p s)))
      .next (playRun { p with reruns := p.reruns + 1 } s)
    else .next s

/-! ### PLAY_ABORT, PART, LOAN, HINT_PLACE (R76, R77, R212, R229 to R233, R235 to R237) -/

/-- Every END of a running play has retired: it ends normally. -/
def Play.allEnded (p : Play) : Bool := p.live && p.seqs.all fun q => q.ended

/-- A running play is aborted (R212): it fails with ABORTED, also where a fault has stopped it to be rerun; one that has failed already keeps its first failure. -/
def abortRunning (y : Play) (s : State) : State :=
  let f : Failure := { status := Status.aborted, mtag := 0, idx := 0, tile := 0 }
  if y.faulted.isSome && y.fail.isNone && !y.withheld then setPlay { stopPlay y with fail := some f, faulted := none } s
  else failPlay y.order f s

/-- PLAY_ABORT: the running or pending plays of an ID on a partition, but for those whose every END has retired; DETAIL counts them. -/
def opPlayAbort (p : Packet) (s : State) : State :=
  let hit := s.plays.filter fun y => y.org == tgtOrg p.tgt && y.shape == tgtShape p.tgt && y.id.toNat == pN p 0 4 && !y.allEnded
  if hit.isEmpty then reply p Status.aborted 0 s
  else
    let s := hit.foldl (fun s y => if y.state == .running then abortRunning y s else endUnrun y Status.aborted s) s
    reply p (okStatus p) (BitVec.ofNat 64 hit.length) s

/-- PART: its reply follows when it completes. -/
def opPart (p : Packet) (s : State) : State :=
  let org := tgtOrg p.tgt
  let sh := tgtShape p.tgt
  match partCheck s org sh (pN p 0 1) none with
  | some st => refuse p st s
  | none => partMake org sh (pN p 0 1) (partPend org sh (some p) s)

/-- PART_COMPLETE: the partitions that this PART made are no longer busy (R77). -/
def execPartComplete (org sh : Nat) (s : State) : Out :=
  match s.parting.find? fun x => x.1 == org && x.2.1 == sh with
  | none => .next s
  | some x =>
    let s := { s with
      parting := s.parting.erase x
      parts := s.parts.map fun q => if q.maker = x.2.2.1 then { q with busy := false } else q }
    match x.2.2.2 with
    | some p => .next (accept p s)
    | none => .next s

/-- A play is pending or running on a partition, as a lend of a FIRE time and arrival number finds it (R230): one of the same FIRE time that arrived later is not
yet there (R233). -/
def playsBefore (s : State) (org sh at_ : Nat) (fire : CtWord) : Bool :=
  s.plays.any fun y => y.org == org && y.shape == sh && !(y.state != .running && y.fire == fire && decide (at_ < y.order))

/-- A loan ends, and its revokes reply. -/
def endLoan (l : LoanRec) (s : State) : State :=
  l.revokers.foldl (fun s p => accept p s) { s with loans := s.loans.filter fun x => x.id != l.id }

/-- A lend, or a revoke, which waits for the borrower's running play. -/
def opLoan (p : Packet) (order : Nat) (s : State) : State :=
  let code (k : Nat) := (pN p k 2 % 2048, pN p k 2 / 2048 % 8)
  if pN p 0 1 = 1 then
    match s.loans.find? fun l => l.id == pN p 8 4 with
    | none => refuse p Status.loanId s
    | some l =>
      let l := { l with revoking := true, revokers := l.revokers ++ [p] }
      if (runningOn s l.borOrg l.borShape).isSome then { s with loans := s.loans.map fun x => if x.id = l.id then l else x } else endLoan l s
  else if pN p 0 1 ≠ 0 then refuse p Status.header s
  else
    let (lo, lsh) := code 2
    let (bo, bsh) := code 4
    let off := pN p 6 1
    let len := pN p 7 1
    if (findPart s lo lsh).isNone || (findPart s bo bsh).isNone || (lo == bo && lsh == bsh) then refuse p Status.noPartition s
    else if len = 0 || decide (128 < off + len) then refuse p Status.addrRange s
    else if inLoan s lo lsh then refuse p Status.partLent s
    else if playsBefore s lo lsh order (if p.fire = 0 then s.cad.ct else p.fire) then refuse p Status.partBusy s
    else if 64 ≤ s.loans.length then refuse p Status.loanFull s
    else
      let l : LoanRec := { id := s.loanNext, lendOrg := lo, lendShape := lsh, borOrg := bo, borShape := bsh, off, len }
      reply p (okStatus p) (BitVec.ofNat 64 (s.loanNext % 2 ^ 32)) { s with loans := s.loans ++ [l], loanNext := s.loanNext + 1 }

/-- LOAN_REVOKE_EFFECT: no play of the borrower runs any more. -/
def execLoanRevokeEffect (n : Nat) (s : State) : Out :=
  match s.loans.find? fun l => l.id == n with
  | none => .next s
  | some l =>
    if l.revoking && (runningOn s l.borOrg l.borShape).isNone then .next (endLoan l s) else .next s

/-- HINT_PLACE. -/
def opHintPlace (p : Packet) (s : State) : State :=
  let n := pN p 0 1
  let h : HintBuf := { nreg := pN p 1 1, hport := pN p 2 1, nlen := pN p 8 8, noff := pN p 16 8, hlen := pN p 24 8, haddr := pN p 32 8 }
  if decide (63 < n) || decide (1 < h.hport) || h.nlen % 128 != 0 || h.hlen % 4096 != 0 || h.haddr % 4096 != 0 ||
      decide (hintSpan < h.size) then refuse p Status.moveField s
  else
    let r := lookupD {} h.nreg s.regions
    if h.nlen != 0 && !(r.valid && !r.typ && decide (h.nreg < 64) && decide (h.noff + h.nlen ≤ r.bytes)) then refuse p Status.addrRange s
    else if h.hlen != 0 && decide (2 ^ 48 < h.haddr + h.hlen) then refuse p Status.addrRange s
    else accept p { s with hints := upsert n h s.hints }

/-! ### Crossings, hangs (R46, R459, R464, R469) -/

/-- One of two domains is the wafer mesh's counterpart k. -/
def crossingIs (a b k : Nat) : Bool := k != 8 && ((a == k && b == 8) || (a == 8 && b == k))

/-- The crossings that a packet on the mesh still has before it. -/
def onCrossing (a b : Nat) (x : Source × MeshItem) : Bool :=
  crossingIs a b (itemDomain x.2) || crossingIs a b (match x.1 with | .queue t _ => tileField t | .engine _ => 8)

/-- A started move needs the crossing: any one of a stopped field, a MOVE by its two sides. -/
def moveUses (s : State) (a b : Nat) (p : Play) (m : QMove) : Bool :=
  m.started && (tileField p.org == a || tileField p.org == b ||
    (opOf m.word == 0x30 && (moveUnits m.word).any fun u =>
      crossingIs a b (sideDomain { s with hints := m.place } u.1) || crossingIs a b (sideDomain { s with hints := m.place } u.2)))

/-- The plays that a stopped crossing faults: those of a stopped field, and those with a MOVE that uses it, each at the first such move (R211). -/
def faultCrossing (a b : Nat) (s : State) : State :=
  s.plays.foldl (fun s p =>
    if p.state != .running then s
    else match firstMove p fun _ m => moveUses s a b p m with
      | some (t, m) => faultPlay p.order 15 (faultOf m t) s
      | none =>
        if tileField p.org == a || tileField p.org == b then
          faultPlay p.order 15 (0, ((p.seqs.find? fun q => q.tile == p.org).map Sequencer.next).getD 0, p.org) s
        else s) s

/-- The transfers that wait on a crossing end (R46): its packets are lost, and ties among them as R45 says. -/
def dropCrossing (a b : Nat) (s : State) : State :=
  let lost := s.mesh.filter (onCrossing a b)
  lost.foldl (fun s x => losePacket 15 x s) { s with mesh := s.mesh.filter fun x => !onCrossing a b x }

/-- CROSSING_TIMEOUT: the crossing closes and its transfers end with CLOCK_STOPPED; the plays of a stopped field are faulted, and those whose MOVE uses it. -/
def execCrossingTimeout (a b : Nat) (s : State) : Out :=
  let s := xingRecord a b true s
  let s := { s with xing := { s.xing with closed := if s.xing.closed.contains (a, b) then s.xing.closed else s.xing.closed ++ [(a, b)] } }
  .next (dropCrossing a b (faultCrossing a b s))

/-- SEQ_HANG: the watchdog of a tile's sequencer expires; it is reset and its play is faulted. A halted core's watchdog is suspended (R547). -/
def execSeqHang (tile : Nat) (s : State) : Out :=
  match playOfTile s tile with
  | none => .next s
  | some p =>
    if seqHalted s tile then .next s
    else
      let u := physTile s tile
      let n := lookupD 0 u s.rel.hangs + 1
      let s := { s with rel := { s.rel with hangs := upsert u n s.rel.hangs } }
      let row := u / 512 * 16 + u % 512 / 32
      let s := suspectTile u 4 s
      let s := if 2 ≤ n && !s.rel.selfTest.contains row then { s with rel := { s.rel with selfTest := row :: s.rel.selfTest } } else s
      let s := record 4 0 1 p.origin (unitOf 0 u) (BitVec.ofNat 32 tile) p.id p.step [] s
      .next (faultPlay p.order 4 (0, ((p.seqs.find? fun q => q.tile == tile).map Sequencer.next).getD 0, tile) s)

end Sys2Proof.Machine
end

