-- ==== Sys2Proof/Machine/Collective.lean ====
section
/-! DEFINITION. Routing table sets, collective slots, gradient rounds, the collectives of OPs 1 to 4, barriers, and the packets a module forwards
(chapter 13, R390 to R406). -/

namespace Sys2Proof.Machine

/-! ### Slots and routing sets (R391, R396, R397, R406) -/

/-- Element bytes of a leaf or destination format of a collective. -/
def collBytes (fmt : Nat) : Nat := fmtBits fmt / 8

/-- Rounds of a slot that are not complete, or a collective that is due or runs. -/
def slotOpen (c : CollSlot) : Bool := !c.leaves.isEmpty || !c.due.isEmpty || c.running.isSome

/-- The step of a COLL_FIRE. -/
def collStep (p : Packet) : W32 := BitVec.ofNat 32 (pN p 4 4)

/-- Items of R396 within range. -/
def collItems (p : Packet) (n : Nat) : Bool :=
  let op := pN p 2 1
  decide (n ≤ 4095) && (decide (op ≤ 4) || op == 7) &&
    (op == 7 || (decide (pN p 3 1 ≤ 5) && decide (pN p 4 1 ≤ 15) && decide (1 ≤ pN p 6 2) && decide (pN p 6 2 ≤ 4096) && decide (pN p 12 1 ≤ 63) &&
      (if op = 0 then decide (1 ≤ pN p 24 4) && pN p 24 4 % 128 == 0 && decide (pN p 24 4 * pN p 6 2 ≤ 2 ^ 20)
       else pN p 20 4 != 0 && pN p 20 4 % 128 == 0 && decide (pN p 24 1 ≤ 127) && decide (pN p 26 2 ≤ 2047) && decide (pN p 13 1 ≤ 1) &&
         decide (pN p 14 1 ≤ 4) && decide (pN p 15 1 ≤ 4))))

/-- The slot that a COLL_SET defines. -/
def newSlot (p : Packet) : CollSlot :=
  let op := pN p 2 1
  let c : CollSlot := { op, engine := pN p 3 1, rts := pN p 4 1, members := pN p 6 2, sid := BitVec.ofNat 32 (pN p 8 4), spen := bitAt (pN p 5 1) 0,
                        spreg := pN p 12 1, spoff := pN p 16 4 }
  if op = 0 then { c with ent := pN p 20 2, rpm := pN p 24 4 }
  else { c with nel := pN p 20 4, knot := pN p 24 1, ktile := pN p 26 2, fmt := pN p 13 1, dfmt := pN p 14 1, cls := pN p 15 1,
                src := item p.payload 0 8, dst := item p.payload 8 8 }

/-- First element of member m's chunk and elements in it; where MEMBERS does not divide NEL, the bounds are rounded down (DEDUCED from j·NEL/MEMBERS, assumption 122). -/
def CollSlot.lo (c : CollSlot) (m : Nat) : Nat := m * c.nel / c.members
def CollSlot.chunk (c : CollSlot) (m : Nat) : Nat := c.lo (m + 1) - c.lo m

/-- Bytes that a collective writes at DST. -/
def CollSlot.dstBytes (c : CollSlot) (self : Nat) : Nat :=
  match c.op with
  | 1 => c.chunk self * collBytes c.dfmt
  | 2 => c.nel * collBytes c.dfmt
  | 3 => c.members * c.nel * collBytes c.fmt
  | _ => c.members * c.chunk self * collBytes c.fmt

/-- SRC, DST and the spill range lie in valid near-tier entries. -/
def collAddrs (s : State) (c : CollSlot) : Bool :=
  let near (a n : Nat) (wr : Bool) := spaceOf a == .near && destOk s a n wr
  (c.op == 0 || (near c.src (c.nel * collBytes c.fmt) false && near c.dst (c.dstBytes (rtSet s c.rts).self) true)) &&
    (!c.spen || (let r := lookupD {} c.spreg s.regions
                 r.valid && !r.typ && decide (c.spoff * 65536 < r.bytes)))

/-- COLL_SET. -/
def opCollSet (p : Packet) (s : State) : State :=
  let n := pN p 0 2
  let c := newSlot p
  if !collItems p n then refuse p Status.linkValue s
  else if c.op != 7 && c.members != (rtSet s c.rts).members then refuse p Status.linkValue s
  else if c.op != 7 && !collAddrs s c then refuse p Status.addrRange s
  else if (lookup n s.colls).elim false slotOpen then refuse p Status.linkBusy s
  else accept p { s with colls := if c.op = 7 then delKey n s.colls else upsert n c s.colls }

/-- COLL_FIRE at its FIRE time: the collective is due. Its reply follows its writes (R264). -/
def opCollFire (p : Packet) (s : State) : State :=
  match lookup (pN p 0 2) s.colls with
  | none => refuse p Status.linkValue s
  | some c =>
    if c.op = 0 then refuse p Status.linkValue s
    else { s with colls := upsert (pN p 0 2) { c with due := c.due ++ [p] } s.colls }

/-- A set is in use (R406). -/
def setBusy (s : State) (n : Nat) : Bool :=
  s.colls.any (fun (_, c) => c.rts == n) || s.cap.armed.elim false (fun a => a.rts == n) || s.barriers.any (fun b => b.rts == n) ||
    s.plays.any fun p => p.queues.any fun q => q.code == 8 && q.moves.any fun m => m.started && wf m.word 148 4 == n

/-- ROUTE_SET. PRIMARY and ALTERNATE of a LOCAL entry are ignored (R391). -/
def opRouteSet (p : Packet) (s : State) : State :=
  let n := pN p 0 1
  let self := pN p 2 2
  let mem := pN p 4 2
  let first := pN p 6 2
  let cnt := pN p 8 2
  let ws := (List.range cnt).map fun k => item p.payload (4 * k) 4
  if decide (15 < n) || cnt = 0 || decide (1024 < cnt) || decide (4096 < first + cnt) || mem = 0 || decide (4096 < mem) || decide (mem ≤ self) ||
      ws.any (fun w => w % 2 ^ 20 != 0 || (!bitAt w 30 && (decide (23 < fld w 25 5) || decide (23 < fld w 20 5)))) then refuse p Status.linkValue s
  else if setBusy s n then refuse p Status.linkBusy s
  else
    let r := rtSet s n
    let entries := ws.zipIdx.foldl (fun t (w, k) => upsert (first + k) (BitVec.ofNat 32 w) t) r.entries
    accept p { s with sets := upsert n { r with self, members := mem, entries } s.sets }

/-! ### Routing (R392) -/

/-- PACKET_FORWARD: a packet that is not for this member leaves its receive buffer in its turn, and the module by its route (R392, R393). One of an undefined TYPE is
discarded and counted (R390). -/
def execPacketForward (p : RoutedPacket) (s : State) : Out :=
  if p.dest = (rtSet s p.rts).self then .next s
  else match freeRx (fun k => k == p) s with
    | none => .next s
    | some s =>
      if !packetTypeOk p.typ then .next { s with rel := { s.rel with discards := s.rel.discards + 1 } }
      else if 9 ≤ p.hops + 1 then .next (hawUnreachable p.rts p.dest s)
      else .next (sendPacket { p with hops := p.hops + 1 } s)

/-! ### Gradient reduce-scatter (R398 to R401) -/

def segKey (step : W32) (row seg : Nat) : Nat := step.toNat * 2 ^ 29 + row * 512 + seg

/-- Leaves that one engine's SRAM holds (16 MiB of 256 B); those in a spill region are not among them. -/
def engineLeaves (s : State) (e : Nat) : Nat := (s.colls.map fun (_, c) => if c.engine = e then (c.leaves.filter fun x => x.2.1.isNone).length else 0).sum
def sramLeaves : Nat := 65536

/-- Take a leaf into its round, in the SRAM or at a place of the spill region. -/
def takeLeaf (n : Nat) (c : CollSlot) (place : Option Nat) (l : Leaf) (s : State) : State :=
  let k := segKey l.step l.row l.seg * 4096 + l.member
  let round := lookupD 0 k c.numbered
  { s with colls := upsert n { c with leaves := c.leaves ++ [(round, place, l)], numbered := upsert k (round + 1) c.numbered, spaceWait := false } s.colls }

/-- Where the k-th place of a slot's spill lies. The spec gives the region's place and no layout: the leaves lie there one behind another, in free bytes
(assumption 93). -/
def spillAt (s : State) (c : CollSlot) (k : Nat) : Nat := (lookupD {} c.spreg s.regions).first + c.spoff * 65536 + 256 * k

/-- The first free place of a slot's spill; none where the region ends before it. -/
def spillPlace (s : State) (c : CollSlot) : Option Nat :=
  ((List.range (c.leaves.length + 1)).find? fun k => !c.leaves.any fun x => x.2.1 == some k).filter fun k =>
    decide (c.spoff * 65536 + 256 * (k + 1) ≤ (lookupD {} c.spreg s.regions).bytes)

/-- The engine's SRAM has room for a leaf. -/
def sramRoom (s : State) (c : CollSlot) : Bool := decide (engineLeaves s c.engine < sramLeaves)

/-- A leaf that does not fit the SRAM lies in the spill region (R399). -/
def spillLeaf (n : Nat) (c : CollSlot) (k : Nat) (l : Leaf) (s : State) : State :=
  let (x, s) := drawBytes 256 s
  takeLeaf n c (some k) l (nearWrite (spillAt s c k) x 256 s)

/-- The member that owns row o of a slot. -/
def ownerOf (c : CollSlot) (self row : Nat) : Nat := if c.rpm = 0 then self else row / c.rpm

/-- A leaf reaches its slot: on its owner, into a round; on another member, into a send buffer towards the owner (R392, R398, R401). -/
def leafAt (c : CollSlot) (l : Leaf) (s : State) : State :=
  let self := (rtSet s c.rts).self
  if c.op ≠ 0 then s
  else if ownerOf c self l.row ≠ self then (linkPackets s (0, 0) c.rts (ownerOf c l.member l.row) (.leaf (0, 0) l)).foldl (fun s k => sendPacket k s) s
  else if stalePacket s l.step then { s with colls := upsert l.slot { c with stale := true } s.colls }
  else if sramRoom s c then takeLeaf l.slot c none l s
  else match spillPlace s c with
    | some k => spillLeaf l.slot c k l s
    | none => s

/-- The owner of a leaf takes it into a round. -/
def leafKept (s : State) (c : CollSlot) (l : Leaf) : Bool :=
  c.op == 0 && ownerOf c (rtSet s c.rts).self l.row == (rtSet s c.rts).self && !stalePacket s l.step

/-- A leaf for which its owner has no room, in the SRAM or, with SPEN, in the spill region: it stays where it is, and COLL_SPACE is raised once (R399; a full spill
region is treated like none: DESIGN CHOICE, assumption 93). -/
def leafStays (s : State) (c : CollSlot) (l : Leaf) : Bool := leafKept s c l && !sramRoom s c && (!c.spen || (spillPlace s c).isNone)

/-- The spill of a leaf waits, in silence, for a channel of the near tier that serves nothing now, or for a closed crossing (R46, R279, R281). -/
def spillHeld (s : State) (c : CollSlot) (l : Leaf) : Bool :=
  leafKept s c l && !sramRoom s c && c.spen && (xingClosed s 8 9 || (spillPlace s c).elim false fun k => rangeWaits s (spillAt s c k) 256)

/-! ### Data packets for this member (R380, R392, R402) -/

/-- A data packet of TYPE 0x02 for this member. -/
def dataHere (s : State) (k : RoutedPacket) : Bool := k.typ == 2 && k.dest == (rtSet s k.rts).self

/-- The engine that a data packet names holds it; one for a slot that is not valid, or of OP 0, is discarded (assumption 92). -/
def holdData (k : RoutedPacket) (s : State) : State :=
  match lookup k.slot s.colls with
  | some c => if c.op = 0 then s else { s with colls := upsert k.slot { c with got := (k.src, k.step, k.row, k.payload) :: c.got } s.colls }
  | none => s

/-- Every data packet for this member that is in turn leaves its receive buffer, at most n of them. -/
def deliverAll : Nat → State → State
  | 0, s => s
  | n + 1, s =>
    match takeRx (dataHere s) s with
    | some (k, s) => deliverAll n (holdData k s)
    | none => s

def deliverData (s : State) : State := deliverAll (s.ports.map fun x => x.2.rxBuf.length).sum s

/-- A received leaf of no valid slot. -/
def strayLeaf (l : Leaf) (k : RoutedPacket) : Bool :=
  k.typ == 1 && k.slot == l.slot && k.row == l.row && k.seg == l.seg && k.step == l.step && k.src == l.member

/-- LEAF: a leaf of this member's drains, or one that arrives from another member; rows that a full ring held back go on (R110). One of a slot that is not valid
is discarded (assumption 92). -/
def execLeaf (l : Leaf) (t : Transit) (s : State) : Out :=
  match lookup l.slot s.colls with
  | none => .next (match meshArrive (.leaf (0, 0) l) t s with
    | .none => ((freeRx (strayLeaf l) s).map deliverData).getD s
    | .lost s => pumpAll s
    | .got _ s => pumpAll s)
  | some c =>
    if leafStays s c l then
      .next (if c.spaceWait then s else post Ev.collSpace [] { s with colls := upsert l.slot { c with spaceWait := true } s.colls })
    else if spillHeld s c l then .next s
    else match packetArrive (l.member == (rtSet s c.rts).self) (0, 0) c.rts (.leaf (0, 0) l) t s with
      | .none => .next s
      | .lost s => .next (pumpAll (deliverData s))
      | .got _ s => .next (pumpAll (deliverData (leafAt c l s)))

/-- The leaves of a round in member order. -/
def roundLeaves (c : CollSlot) (step : W32) (row seg k : Nat) : List Leaf :=
  (List.range c.members).filterMap fun m =>
    (c.leaves.find? fun x => x.1 == k && x.2.2.row == row && x.2.2.seg == seg && x.2.2.step == step && x.2.2.member == m).map fun x => x.2.2

/-- Logical index of element j of segment seg of a delivered row, from the entry (R306, R400). -/
def entryIdx (e : Ledger) (o i : Nat) : Nat := (e.col0 + i) * e.dout + e.row0 + o

/-- Dice index of an element of a round's sum. The spec says nothing of a slot whose ENT names no ledger entry: every element has index 0 there (DESIGN CHOICE,
assumption 94). -/
def roundIdx (s : State) (c : CollSlot) (o seg j : Nat) : Nat := ((lookup c.ent s.cap.ledger).map fun e => entryIdx e o (128 * seg + j)).getD 0

/-- ROUND_SUM: the next round of a segment, of the earliest step that has leaves there. -/
def execRoundSum (slot row seg : Nat) (s : State) : Out :=
  match lookup slot s.colls with
  | none => .next s
  | some c =>
    let steps := (c.leaves.filter fun x => x.2.2.row == row && x.2.2.seg == seg).map fun x => x.2.2.step.toNat
    match steps with
    | [] => .next s
    | t :: r =>
      let step := BitVec.ofNat 32 (r.foldl min t)
      let k := lookupD 0 (segKey step row seg) c.delivered
      let ls := roundLeaves c step row seg k
      if ls.length < c.members then .next s
      else
        let o := if c.rpm = 0 then row else row % c.rpm
        let wide (l : Leaf) (j : Nat) : W32 := r32 (bf16.decode (l.data.getD j 0).toNat)
        let n := ls.foldl (fun a l => max a l.data.length) 0
        let sums := (List.range n).map fun j => v32 (tree 0 add32 (ls.map fun l => wide l j))
        let (el, cnt) := convRun 1 true (fun j => dice s.host.seed step c.sid 1 (roundIdx s c o seg j)) 0 0 sums {}
        let c' := { c with
          leaves := c.leaves.filter fun x => !(x.1 == k && x.2.2.row == row && x.2.2.seg == seg && x.2.2.step == step)
          delivered := upsert (segKey step row seg) (k + 1) c.delivered }
        let s := countConv c.sid step cnt { s with colls := upsert slot c' s.colls }
        .next (meshPut (.engine (0x100 + c.engine))
          (.contrib (0, 0) { entry := c.ent, row := o, seg, step, src := 0x10000 + c.engine, data := el.map (BitVec.ofNat 16) }) s)

/-- Rounds and operations of steps at or above an aborted one are dropped (R401); their rounds start anew. -/
def dropRounds (step : W32) (c : CollSlot) : CollSlot :=
  let old (x : W32) : Bool := decide (x.toNat < step.toNat)
  let running := c.running.filter fun p => old (collStep p)
  { c with
    leaves := c.leaves.filter fun x => old x.2.2.step
    numbered := c.numbered.filter fun (k, _) => decide (k / 2 ^ 41 < step.toNat)
    delivered := c.delivered.filter fun (k, _) => decide (k / 2 ^ 29 < step.toNat)
    due := c.due.filter fun p => old (collStep p), running, got := c.got.filter fun x => old x.2.1, shared := running.bind fun _ => c.shared }

/-- Rounds of steps up to a committed one leave the engine. -/
def closeRounds (step : W32) (c : CollSlot) : CollSlot :=
  { c with
    leaves := c.leaves.filter fun x => decide (step.toNat < x.2.2.step.toNat)
    numbered := c.numbered.filter fun (k, _) => decide (step.toNat < k / 2 ^ 41)
    delivered := c.delivered.filter fun (k, _) => decide (step.toNat < k / 2 ^ 29) }

def mapSlotsC (f : CollSlot → CollSlot) (s : State) : State := { s with colls := mapVals f s.colls }

/-! ### OPs 1 to 4 (R402) -/

/-- Bytes of a member's source that member m needs (R402). -/
def CollSlot.part (c : CollSlot) (m : Nat) (l : List Byte) : List Byte :=
  if c.op = 3 then l else (l.drop (c.lo m * collBytes c.fmt)).take (c.chunk m * collBytes c.fmt)

/-- Packets of so many bytes. -/
def dataPackets (n : Nat) : Nat := max 1 (cdiv n 512)

/-- Bytes as packets of TYPE 0x02 on VC 0. The spec gives no use of ROW there: it numbers the packets, those of the converted chunk of an all-reduce behind those of the
source (DESIGN CHOICE, assumption 92). -/
def sendData (slot : Nat) (c : CollSlot) (step : W32) (first m : Nat) (l : List Byte) (s : State) : State :=
  (chunks512 (l.length / 512 + 1) l).zipIdx.foldl (fun s (b, k) => sendPacket (ownPacket s 0x02 c.rts m 0 slot (first + k) 0 step b) s) s

/-- The n bytes that a member has sent in packets numbered from first, once all of them are held. -/
def CollSlot.held (c : CollSlot) (step : W32) (m first n : Nat) : Option (List Byte) :=
  ((List.range (dataPackets n)).foldr (fun k (acc : Option (List Byte)) =>
    acc.bind fun l => (c.got.find? fun x => x.1 == m && x.2.1 == step && x.2.2.1 == first + k).map fun x => x.2.2.2.take 512 ++ l) (some [])).map (·.take n)

/-- The members of a set but this one. -/
def otherMembers (s : State) (rts n : Nat) : List Nat := (List.range n).filter fun m => m != (rtSet s rts).self

/-- A collective ends with a status and without a result; its step is replayed where it is above COMMITTED (R46, R466). -/
def stopColl (slot : Nat) (c : CollSlot) (p : Packet) (st : BitVec 16) (s : State) : State :=
  faultStep (collStep p) (refuse p st { s with colls := upsert slot { c with running := none, own := [], shared := none } s.colls })

/-- COLLECTIVE_START: the first COLL_FIRE that is due starts, and every other member gets its part of this one's source. A source in a channel that serves nothing now is
waited for (R279, R281); one behind a closed crossing ends it with CLOCK_STOPPED (R46); one that cannot be read back is a parity fault, and the step is FAULTED. -/
def execCollectiveStart (slot : Nat) (s : State) : Out :=
  match lookup slot s.colls with
  | none => .next s
  | some c =>
    match c.due, c.running with
    | p :: r, none =>
      if rangeWaits s c.src (c.nel * collBytes c.fmt) then .next s
      else if xingClosed s 8 9 then .next (stopColl slot { c with due := r } p Status.clockStopped s)
      else
        let c := { c with due := r, running := some p, own := [], shared := none }
        match engineRead 8 p.origin c.src (c.nel * collBytes c.fmt) s with
        | (.gone _, s) => .next (faultStep (collStep p) { s with colls := upsert slot c s.colls })
        | (.got l, s) =>
          let s := { s with colls := upsert slot { c with own := l } s.colls }
          .next ((otherMembers s c.rts c.members).foldl (fun s m => sendData slot c (collStep p) 0 m (c.part m l) s) s)
    | _, _ => .next s

/-- Elements of a format out of bytes. -/
def elemsOf (fmt n : Nat) (l : List Byte) : List Nat := (List.range n).map fun e => item l (e * collBytes fmt) (collBytes fmt)

/-- Sum of element e of a chunk over the members, in member order. -/
def CollSlot.sum (c : CollSlot) (all : List (List Nat)) (e : Nat) : FVal :=
  v32 (tree 0 add32 (all.map fun l => r32 ((elemFmt c.fmt).decode (l.getD e 0))))

/-- Member m's chunk, reduced from every member's part of it and converted into DFMT. -/
def CollSlot.reduced (c : CollSlot) (seed : W64) (step : W32) (m : Nat) (parts : List (List Byte)) : List Byte × Counts :=
  let all := parts.map (elemsOf c.fmt (c.chunk m))
  let (l, k) := convRun c.dfmt (c.cls == 2) (fun j => dice seed step c.sid 1 (c.lo m + j)) 0 0 ((List.range (c.chunk m)).map (c.sum all)) {}
  (l.flatMap fun x => toLE (collBytes c.dfmt) x, k)

/-- The list of what every member gives, once all do. -/
def gather (l : List (Option (List Byte))) : Option (List (List Byte)) := l.foldr (fun x acc => acc.bind fun r => x.map (· :: r)) (some [])

/-- Every member's source part for this one, in member order: this member's own, and what the others have sent. -/
def CollSlot.parts (c : CollSlot) (self : Nat) (step : W32) : Option (List (List Byte)) :=
  let own := c.part self c.own
  gather ((List.range c.members).map fun m => if m = self then some own else c.held step m 0 own.length)

/-- Every member's converted chunk of an all-reduce, in member order. -/
def CollSlot.chunks (c : CollSlot) (self : Nat) (step : W32) (own : List Byte) : Option (List (List Byte)) :=
  gather ((List.range c.members).map fun m =>
    if m = self then some own else c.held step m (dataPackets (c.part self c.own).length) (c.chunk m * collBytes c.dfmt))

/-- A collective ends: its DST writes are accepted, KNOT on KTILE is tied, and the COLL_FIRE replies (R251, R264, R402). -/
def endCollective (slot : Nat) (c : CollSlot) (p : Packet) (bytes : List Byte) (s : State) : State :=
  let c := { c with running := none, own := [], shared := none, got := c.got.filter fun x => x.2.1 != collStep p }
  let s := nearWriteFor p.origin c.dst bytes bytes.length { s with colls := upsert slot c s.colls }
  accept p (outerTie (tileKnot c.ktile c.knot) 1 (noteAll s))

/-- The converted chunk of an all-reduce goes to every other member, once. -/
def shareChunk (slot : Nat) (c : CollSlot) (p : Packet) (own : List Byte) (s : State) : State :=
  let c := { c with shared := some own }
  (otherMembers s c.rts c.members).foldl (fun s m => sendData slot c (collStep p) (dataPackets (c.part m c.own).length) m own s)
    { s with colls := upsert slot c s.colls }

/-- The result that a member writes, from the parts of every member's source; none while an all-reduce has not every converted chunk. -/
def collResult (slot : Nat) (c : CollSlot) (p : Packet) (parts : List (List Byte)) (s : State) : Option (List Byte) × State :=
  let self := (rtSet s c.rts).self
  let step := collStep p
  match c.op with
  | 1 =>
    let (l, k) := c.reduced s.host.seed step self parts
    (some l, countConv c.sid step k s)
  | 2 =>
    match c.shared with
    | some own => ((c.chunks self step own).map List.flatten, s)
    | none =>
      let (l, k) := c.reduced s.host.seed step self parts
      ((c.chunks self step l).map List.flatten, shareChunk slot c p l (countConv c.sid step k s))
  | _ => (some parts.flatten, s)

/-- COLLECTIVE_COMPLETE: the engine holds every member's part, and what that allows is done: a result is written, or, in an all-reduce, the chunk that this member owns is
converted and sent, and the result written once every member's has come. -/
def execCollectiveComplete (slot : Nat) (s : State) : Out :=
  match lookup slot s.colls with
  | none => .next s
  | some c =>
    match c.running with
    | none => .next s
    | some p =>
      if c.own.isEmpty || rangeWaits s c.dst (c.dstBytes (rtSet s c.rts).self) then .next s
      else if xingClosed s 8 9 then .next (stopColl slot c p Status.clockStopped s)
      else match c.parts (rtSet s c.rts).self (collStep p) with
        | none => .next s
        | some parts =>
          match collResult slot c p parts s with
          | (some bytes, s) => .next (endCollective slot ((lookup slot s.colls).getD c) p bytes s)
          | (none, s) => .next s

/-! ### Barriers (R405) -/

/-- A control packet to every other member of a set (R404): TYPE 0x03 on VC 2. Its payload has no layout in the spec; its kind, the first item, stands in ROW
(assumption 92). -/
def sendControl (rts members slot : Nat) (step : W32) (items : List Nat) (s : State) : State :=
  (otherMembers s rts members).foldl (fun s m =>
    sendPacket (ownPacket s 0x03 rts m 2 slot (items.headD 0) 0 step ((Config.wireBytes 0x03 items).take 512)) s) s

/-- BARRIER at dispatch. -/
def opBarrier (p : Packet) (s : State) : State :=
  let tile := pN p 6 2
  if decide (15 < pN p 2 1) || pN p 4 2 = 0 || decide (4096 < pN p 4 2) || (decide (2047 < tile) && tile != 0xFFFF) || decide (127 < pN p 8 1) ||
      decide (2047 < pN p 16 2) || decide (127 < pN p 18 1) || pN p 24 2 = 0 then refuse p Status.linkValue s
  else
    let n := pN p 0 2
    let b : BarrierRec := {
      ident := n, rts := pN p 2 1, members := pN p 4 2, tile, knot := pN p 8 1, target := BitVec.ofNat 32 (pN p 12 4), relTile := pN p 16 2
      relKnot := pN p 18 1, amount := BitVec.ofNat 32 (pN p 20 4), timeout := pN p 24 2, step := BitVec.ofNat 32 (pN p 28 4)
      fire := if p.fire = 0 then s.cad.ct else p.fire, queue := p.queue, seq := p.seq, origin := p.origin, notify := Packet.notify p, tag := p.tag
      release := if p.fire = 0 then s.cad.ct else p.fire, fireLate := p.rsv == 1
      arrived := s.cap.early.filterMap fun c => match c with
        | .arrive m i => if i = n then some m else none
        | _ => none }
    { s with
      barriers := s.barriers ++ [b]
      cap := { s.cap with early := s.cap.early.filter fun c => match c with
        | .arrive _ i => i != n
        | _ => true } }

def putBarrier (b : BarrierRec) (s : State) : State := { s with barriers := s.barriers.map fun x => if x.ident = b.ident then b else x }
def getBarrier (s : State) (n : Nat) : Option BarrierRec := s.barriers.find? fun b => b.ident == n

/-- Member m's ARRIVE is held; one held after the release point makes the barrier late, and the tie is due at the first beat edge after it. -/
def arrive (m : Nat) (b : BarrierRec) (s : State) : State :=
  if b.arrived.contains m then s
  else if b.fire.toNat < s.cad.ct.toNat then putBarrier { b with arrived := m :: b.arrived, late := true, release := ctEdge s.cad.ct 1 } s
  else putBarrier { b with arrived := m :: b.arrived } s

/-- BARRIER_ARRIVE: the arrival condition holds and ARRIVE goes to every member, this one included. -/
def execBarrierArrive (n : Nat) (s : State) : Out :=
  match getBarrier s n with
  | none => .next s
  | some b =>
    if !b.sent && (b.tile == 0xFFFF || waitMet (knot s (tileKnot b.tile b.knot)) b.target) then
      .next (arrive (rtSet s b.rts).self { b with sent := true }
        (sendControl b.rts b.members b.ident b.step [4, (rtSet s b.rts).self, b.ident] (putBarrier { b with sent := true } s)))
    else .next s

/-- The reply of a barrier, which leaves the table. -/
def barrierReply (b : BarrierRec) (st : BitVec 16) (s : State) : State :=
  let s := { s with barriers := s.barriers.filter fun x => x.ident != b.ident }
  stepReply b.tag b.queue b.seq 0x0505 b.origin b.notify 0 b.step st 0 s

/-- The release tie, BARRIER_LATE, and the reply. -/
def releaseBarrier (b : BarrierRec) (s : State) : State :=
  let s := outerTie (tileKnot b.relTile b.relKnot) b.amount s
  let s := if b.late then postFull Ev.barrierLate b.origin 0xFFFFFFFF 0 b.step [] s else s
  barrierReply b (if b.fireLate then Status.fireLate else Status.ok) s

/-- BARRIER_RELEASE: every ARRIVE is held, and the barrier's turn among the events has come (R38). -/
def execBarrierRelease (n : Nat) (s : State) : Out :=
  match getBarrier s n with
  | none => .next s
  | some b =>
    if !allArrived b then .next s
    else match comeTo (b.release.toNat, 2, b.tag) b.release s with
      | some s => .next (releaseBarrier b s)
      | none => .next s

/-- BARRIER_TIMEOUT. -/
def execBarrierTimeout (n : Nat) (s : State) : Out :=
  match getBarrier s n with
  | none => .next s
  | some b =>
    if allArrived b then .next s
    else match timeTo (b.fire + beats b.timeout) s with
      | some s => .next (barrierReply b Status.barrierTimeout s)
      | none => .next s

end Sys2Proof.Machine
end

