-- ==== Sys2Proof/Machine/Capstan.lean ====
section
/-! DEFINITION. The capstans: ledger entries and groups, contributions and the accumulate pass, the norm pass, the apply pass with its working copies, rim
parity, confirmation, and the loss of a capstan (chapter 11, R297 to R325, R338 to R341). -/

namespace Sys2Proof.Machine

/-! ### The rim (R219, R302 to R304) -/

def rd32 (s : State) (a : Nat) : W32 := BitVec.ofNat 32 (readN s a 4)
def wr32 (a : Nat) (v : W32) (s : State) : State := writeN a 4 v.toNat s

/-- Recompute the parity bytes that a test picks: the exclusive or of their data bytes. -/
def parityPass (test : Nat → Bool) (s : State) : State :=
  let rest := s.mem.filter fun c => !(spaceOf c.1 == .parity && test c.1)
  let data := s.mem.filter fun c => spaceOf c.1 == .rim && test (parityOf c.1)
  { s with mem := data.foldl (fun m c => writeMem (parityOf c.1) (readMem m (parityOf c.1) ^^^ c.2) m) rest }

/-- The parity rows of a bank that capstan k holds. -/
def heldParity (k : Nat) (bank : Bool) (a : Nat) : Bool :=
  (a - rimParity) / 2 ^ 33 == k && ((a - rimParity) % 2 ^ 33 / 2 ^ 32 == b2n bank)

/-! ### Ledger entries (R306, R307) -/

/-- The static part from its 128 B. -/
def parseEntry (b : List Byte) : Ledger :=
  { cap := item b 0 1, group := item b 1 1, flags := BitVec.ofNat 8 (item b 2 1), wfmt := item b 3 1, expect := item b 4 2
    sid := BitVec.ofNat 32 (item b 8 4), sbase := item b 12 4, rows := item b 16 4, cols := item b 20 4, row0 := item b 24 4, col0 := item b 28 4
    dout := item b 32 4, din := item b 36 4, wbase := item b 40 8, wgrid := item b 48 4, tensor := BitVec.ofNat 32 (item b 52 4) }

def entryReserved (b : List Byte) : Bool := item b 6 2 == 0 && (sliceB b 56 72).all (· == 0) && item b 2 1 < 64
def Ledger.margin (e : Ledger) : Nat := fld e.flags.toNat 3 2
def Ledger.waxis (e : Ledger) : Nat := fld e.flags.toNat 5 1

/-- Bytes of the working copy with its amax table, from WBASE. -/
def Ledger.copyBytes (e : Ledger) : Nat :=
  if e.vector then e.din * (fmtBits e.wfmt / 8)
  else
    let n := cdiv e.din 128 * e.wgrid
    n * sqSize e.wfmt + (if fmtWide e.wfmt then cdiv (4 * n) 128 * 128 else 0)

/-- The working copy lies in the bank A half of a valid WCOPY entry. -/
def copyOk (s : State) (e : Ledger) : Bool :=
  match regionOf s e.wbase with
  | some (_, r) => r.typ && decide (e.wbase + e.copyBytes ≤ r.first + r.bytes / 2)
  | none => false

/-- The busy condition of R307. -/
def entryBusy (s : State) (n : Nat) : Bool :=
  s.cap.armed.isSome || (lookup n s.cap.ledger).elim false fun e => !e.counts.isEmpty || !e.squares.isEmpty || e.applied

def entriesOverlap (a b : Ledger) : Bool := a.cap == b.cap && decide (a.sbase < b.sbase + b.units) && decide (b.sbase < a.sbase + a.units)

/-- The checks of R307 for entry n written with VALID = 1, in order. -/
def entryCheck (s : State) (n : Nat) (b : List Byte) : Option (BitVec 16) :=
  let e := parseEntry b
  if decide (31 < e.cap) || decide (63 < e.group) || decide (255 < e.expect) || e.rows == 0 || decide (2 ^ 20 < e.rows) || e.cols == 0 ||
      decide (65536 < e.cols) || !entryReserved b || (e.margin != 0 && !fmtScaled e.wfmt) then some Status.ledgerValue
  else if e.col0 % 128 != 0 || (if e.vector then e.row0 != 0 || e.rows != 1 || e.dout != 1 || decide (1 < e.wfmt) else e.row0 % 128 != 0) then
    some Status.ledgerValue
  else if !fmtValid e.wfmt || fmtTensor e.wfmt || (e.waxis != 0 && !fmtMx e.wfmt) then some Status.ledgerValue
  else if decide (e.din < e.col0 + e.cols) || decide (e.dout < e.row0 + e.rows) then some Status.ledgerValue
  else if decide (bankUnits < e.sbase + e.units) || (validEntries s).any (fun (m, x) => m != n && entriesOverlap e x) then some Status.ledgerValue
  else if !copyOk s e then some Status.addrRange
  else if entryBusy s n then some Status.capBusy
  else if decide (4096 ≤ ((entriesOf s e.cap).filter fun (m, _) => m != n).length) then some Status.ledgerFull
  else none

/-- One entry of LEDGER_SET: its status, and the state with the entry written or removed when it passes. -/
def setOneEntry (n : Nat) (b : List Byte) (s : State) : BitVec 16 × State :=
  if bitAt (item b 2 1) 0 then
    match entryCheck s n b with
    | some st => (st, s)
    | none =>
      let old := getEntry s n
      let e := parseEntry b
      (0, setEntry n { e with dyn := old.dyn, snap := { old.snap with settled := false }, prev := { old.prev with settled := false } } s)
  else if !entryReserved b then (Status.ledgerValue, s)
  else if entryBusy s n then (Status.capBusy, s)
  else (0, { s with cap := { s.cap with ledger := delKey n s.cap.ledger } })

/-- LEDGER_SET: the reply carries the status and the index of the first failing entry. -/
def opLedgerSet (p : Packet) (s : State) : State :=
  let first := pN p 0 4
  let cnt := pN p 4 2
  if cnt = 0 || decide (32 < cnt) || decide (65536 < first + cnt) then refuse p Status.header s
  else
    let (bad, s) := (List.range cnt).foldl (fun (a : Option (BitVec 16 × Nat) × State) k =>
      let (st, s) := setOneEntry (first + k) (sliceB p.payload (128 * k) 128) a.2
      (if st != 0 && a.1.isNone then some (st, first + k) else a.1, s)) (none, s)
    match bad with
    | some (st, n) => reply p st (BitVec.ofNat 64 n) s
    | none => accept p s

/-- DFLAGS. -/
def Dyn.flags (d : Dyn) : Nat :=
  b2n d.order + 2 * b2n d.overs + 4 * b2n d.range + 8 * b2n d.stale + 16 * b2n d.settled + 32 * b2n d.vetoed

/-- The 64 B dynamic part (R311). -/
def dynRecord (d : Dyn) : List Byte :=
  toLE 8 d.gsq.f64.toNat ++ toLE 8 d.wsq.f64.toNat ++ toLE 8 d.usq.f64.toNat ++ toLE 8 d.zero ++ toLE 4 d.zrows ++ toLE 4 d.nonfin ++ toLE 4 d.step.toNat ++
    toLE 1 d.flags ++ List.replicate 19 0

/-- LEDGER_GET. -/
def opLedgerGet (p : Packet) (s : State) : State :=
  let first := pN p 0 4
  let cnt := pN p 4 4
  if cnt = 0 || decide (65536 < cnt) || decide (65536 < first + cnt) then refuse p Status.header s
  else if !destOk s (pN p 8 8) (64 * cnt) true then refuse p Status.addrRange s
  else accept p (destWrite p.origin (pN p 8 8) ((List.range cnt).flatMap fun k =>
    match lookup (first + k) s.cap.ledger with
    | some e => dynRecord e.snap
    | none => List.replicate 64 0) s)

/-! ### Groups (R308, R309) -/

def parseGroup (b : List Byte) : Group :=
  { eta := BitVec.ofNat 32 (item b 0 4), lambda := BitVec.ofNat 32 (item b 4 4), beta := BitVec.ofNat 32 (item b 8 4), freeze := bitAt (item b 12 1) 0
    nesterov := bitAt (item b 12 1) 1, m1 := bitAt (item b 12 1) 2 }

/-- A finite value that is not negative. -/
def nonNeg (x : W32) : Bool := isFin32 x && !ltVal x 0
def groupOk (g : Group) : Bool := nonNeg g.eta && nonNeg g.lambda && nonNeg g.beta && ltVal g.beta 0x3F800000

/-- One group of GROUP_SET. -/
def setOneGroup (n : Nat) (g : Group) (s : State) : State :=
  let cleared := (lookupD {} n s.cap.groups).freeze && !g.freeze
  let s := { s with cap := { s.cap with groups := upsert n g s.cap.groups } }
  if cleared then unsettle (fun _ e => e.group == n) s else s

/-- GROUP_SET. -/
def opGroupSet (p : Packet) (s : State) : State :=
  let first := pN p 0 1
  let cnt := pN p 1 1
  let rec_ (k : Nat) := sliceB p.payload (32 * k) 32
  if cnt = 0 || decide (64 < first + cnt) ||
      (List.range cnt).any (fun k => decide (7 < item (rec_ k) 12 1) || !((sliceB (rec_ k) 13 19).all (· == 0))) then refuse p Status.header s
  else
    let (bad, s) := (List.range cnt).foldl (fun (a : Bool × State) k =>
      let g := parseGroup (rec_ k)
      if groupOk g then (a.1, setOneGroup (first + k) g a.2) else (true, a.2)) (false, s)
    if bad then refuse p Status.updValue s else accept p s

/-! ### Contributions and the accumulate pass (R312 to R316) -/

def segNo (o sg : Nat) : Nat := o * 512 + sg

/-- A segment has received EXPECT contributions. -/
def segFinal (e : Ledger) (o sg : Nat) : Bool := e.expect == 0 || lookupD 0 (segNo o sg) e.counts == e.expect

/-- Every segment of every row is final (R316). -/
def entryFinal (e : Ledger) : Bool :=
  e.expect == 0 || ((e.counts.filter fun (_, c) => c == e.expect).length == e.rows * e.segs)

/-- Columns of a segment that the entry holds. -/
def segCols (e : Ledger) (sg : Nat) : List Nat := (List.range (min 128 (e.cols - 128 * sg))).map fun j => 128 * sg + j

/-- What a final segment adds to the dynamic part. -/
def finalSeg (e : Ledger) (bank : Bool) (o sg : Nat) (s : State) : Ledger :=
  let vs := (segCols e sg).map fun i => rd32 s (e.mAddr bank o i)
  let zeros := (vs.filter fun v => (v32 v).isZero).length
  let d := { e.dyn with
    gsq := vs.foldl (fun a v => a.add ((v32 v).mul (v32 v))) e.dyn.gsq
    zero := e.dyn.zero + zeros
    nonfin := e.dyn.nonfin + (vs.filter fun v => !isFin32 v).length }
  if zeros = vs.length then
    let z := lookupD 0 o e.zeroSegs + 1
    { e with dyn := { d with zrows := if z = e.segs then d.zrows + 1 else d.zrows }, zeroSegs := upsert o z e.zeroSegs }
  else { e with dyn := d }

/-- Add a contribution (R313, R314). -/
def addContribution (c : Contribution) (e : Ledger) (s : State) : State :=
  let bank := altBank s
  let k := segNo c.row c.seg
  let n := lookupD 0 k e.counts
  let second := (lookupD c.src k e.sources) != c.src
  let s := (segCols e c.seg).foldl (fun s i =>
    let x := r32 (bf16.decode (c.data.getD (i - 128 * c.seg) 0).toNat)
    let a := e.mAddr bank c.row i
    wr32 a (if n = 0 then x else add32 (rd32 s a) x) s) s
  let e := { e with counts := upsert k (n + 1) e.counts, sources := upsert k (lookupD c.src k e.sources) e.sources
                    dyn := { e.dyn with order := e.dyn.order || second } }
  let s := if second then postStep Ev.contribOrder c.step [] s else s
  setEntry c.entry (if n + 1 = e.expect then finalSeg e bank c.row c.seg s else e) s

/-- The treatment of a contribution (R315); `tag` is the STREAM that sent it. One for a capstan whose rim stack serves no access is held too (R279, R301). -/
def takeContribution (tag : Nat × Nat) (c : Contribution) (s : State) : State :=
  let e := getEntry s c.entry
  let flag (d : Dyn) (s : State) := setEntry c.entry { e with dyn := d } s
  if c.step.toNat < (openStep s).toNat then flag { e.dyn with stale := true } s
  else if (openStep s).toNat < c.step.toNat || windowHolds s || (e.valid && rimQuiet s e.cap) then { s with cap := { s.cap with held := s.cap.held ++ [(tag, c)] } }
  else if !e.valid || decide (e.rows ≤ c.row) || decide (e.cols ≤ 128 * c.seg) then
    postStep Ev.contribRange c.step [] (flag { e.dyn with range := true } s)
  else if segFinal e c.row c.seg then postStep Ev.contribOver c.step [] (flag { e.dyn with overs := true } s)
  else addContribution c e s

/-- Held contributions are taken again, in their arrival order. -/
def takeHeld (s : State) : State := s.cap.held.foldl (fun s x => takeContribution x.1 x.2 s) { s with cap := { s.cap with held := [] } }

/-- CONTRIBUTION: a contribution on the mesh reaches its capstan, or is lost at the crossing and never counted (R45); rows that a full ring held back go on
(R110). -/
def execContribution (c : Contribution) (t : Transit) (s : State) : Out :=
  match meshArrive (.contrib (0, 0) c) t s with
  | .none => .next s
  | .lost s => .next (pumpAll s)
  | .got (.contrib tag c) s => .next (pumpAll (takeContribution tag c s))
  | .got _ s => .next s

/-! ### The norm (R317 to R319, R359, R403) -/

/-- The exact sum of two accumulators. -/
def Exact.plus (a b : Exact) : Exact :=
  let r := a.add (.fin (decide (b.m < 0)) b.m.natAbs b.e)
  { r with nan := a.nan || b.nan, pinf := a.pinf || b.pinf, ninf := a.ninf || b.ninf }

/-- P: the GSQ accumulators of every entry whose latched group does not carry FREEZE, rounded once. -/
def normP (s : State) (groups : Table Group) : W64 :=
  let es := (validEntries s).filter fun (x : Nat × Ledger) => !(lookupD ({} : Group) x.2.group groups).freeze
  (es.foldl (fun (a : Exact) (x : Nat × Ledger) => a.plus x.2.dyn.gsq) {}).f64

def setArmed (a : Armed) (s : State) : State := { s with cap := { s.cap with armed := some a } }
def armedSelf (s : State) (a : Armed) : Nat := (rtSet s a.rts).self

/-- NORM_PASS: every entry of the module is final; this member's P enters the reduction and goes to every member (R317, R403). -/
def execNormPass (s : State) : Out :=
  match s.cap.armed with
  | none => .next s
  | some a =>
    if (lookup (armedSelf s a) a.p).isSome || !((validEntries s).all fun (_, e) => entryFinal e) then .next s
    else
      let x := normP s a.groups
      .next (sendControl a.rts a.members 0 a.step [3, armedSelf s a, x.toNat] (setArmed { a with p := upsert (armedSelf s a) x a.p } s))

/-- T, G and c32 from the P of every member (R318). -/
def normOf (a : Armed) : Armed :=
  let t := tree 0 add64 ((List.range a.members).map fun m => lookupD 0 m a.p)
  let wide (x : W32) : W64 := r64 (v32 x)
  let g := mul64 (r64 (v32 a.u).abs) (sqrt64 t)
  let q := div64 (wide a.tau) (add64 g (wide a.eps))
  let c64 := if lt64 q 0x3FF0000000000000 then q else 0x3FF0000000000000
  { a with t := some t, g, normDone := true, vetoed := a.veto && !isFin64 t
           c32 := if a.clip && isFin64 t then r32 (v64 c64) else 0x3F800000 }

def haveAllP (a : Armed) : Bool := (List.range a.members).all fun m => (lookup m a.p).isSome

/-- NORM_REDUCTION: with every member's P held, T is formed; a T that comes after its commit still sets WATCH_NORM (R359). -/
def execNormReduction (s : State) : Out :=
  match s.cap.norm with
  | some a =>
    if haveAllP a then .next { s with cap := { s.cap with norm := none }, watch := { s.watch with norm := (normOf a).g } }
    else match s.cap.armed with
      | some b => if haveAllP b && !b.normDone then .next (setArmed (normOf b) s) else .next s
      | none => .next s
  | none =>
    match s.cap.armed with
    | some b => if haveAllP b && !b.normDone then .next (setArmed (normOf b) s) else .next s
    | none => .next s

/-! ### The working copy (R323) -/

/-- The 16e bytes of line i of a square (R92). -/
def lineBytes (c i : Nat) (el : List Nat) : List Byte :=
  let e := fmtBits c
  toLE (16 * e) ((List.range 128).foldl (fun w k => w + (el.getD ((k + 128 - i % 128) % 128) 0) % 2 ^ e * 2 ^ (e * k)) 0)

/-- The bytes of a square from wide values, with its amax and counts: 128 lines of 128 values, dice per element. -/
def makeSquare (c axis margin : Nat) (sr : Bool) (die : Nat → Nat → W32) (vals : List (List FVal)) : List Byte × W32 × Counts :=
  let am := amaxFin vals.flatten
  let sc := if fmtSquare c then scaleExp c am.1 am.2 margin (-126) else 0
  let byCol := fmtMx c && axis == 1
  let (ls, scs, k) := (List.range 128).foldl (fun (a : List (List Nat) × List Nat × Counts) i =>
    let xs := if byCol then vals.map fun r => r.getD i (.fin false 0 0) else vals.getD i []
    let (el, sb, k) := convLine c margin sr (fun j => if byCol then die j i else die i j) sc xs a.2.2
    (a.1 ++ [el], a.2.1 ++ sb, k)) ([], [], {})
  let line (i : Nat) : List Nat := if byCol then ls.map fun l => l.getD i 0 else ls.getD i []
  let amax := heldAmax c ls.flatten vals.flatten
  let desc := toLE 4 (c + axis * 16) ++ toLE 4 (if fmtMx c then 0x3F800000 else scale32 sc).toNat ++ toLE 4 amax.toNat ++ List.replicate 116 0
  ((if fmtScaled c then desc else []) ++ (if fmtMx c then scs.map (BitVec.ofNat 8) else []) ++ (List.range 128).flatMap (fun i => lineBytes c i (line i)),
   amax, k)

/-- Tensor index of element (o, i) of an entry (R306). -/
def Ledger.idx (e : Ledger) (o i : Nat) : Nat := if e.vector then e.col0 + i else (e.col0 + i) * e.dout + e.row0 + o

/-- Write one square of the working copy of an entry from the weights of a bank into the half at an offset, under a step (R323); of a vector, the 128 elements
that stand in the place of a square. -/
def writeSquare (e : Ledger) (bank : Bool) (half : Nat) (step : W32) (q : Nat) (s : State) : State :=
  let sr := e.flags.getLsbD 2
  let die (o i : Nat) : W32 := dice s.host.seed step e.sid 3 (e.idx o i)
  let w (o i : Nat) : FVal := v32 (rd32 s (e.wAddr bank o i))
  let a := q / e.squareCols
  let b := q % e.squareCols
  if e.vector then
    let n := min 128 (e.cols - 128 * a)
    let (el, k) := convRun e.wfmt sr (fun i => die 0 (128 * a + i)) 0 0 ((List.range n).map fun i => w 0 (128 * a + i)) {}
    let bytes := el.flatMap fun x => toLE (fmtBits e.wfmt / 8) x
    countConv e.sid step k (nearWrite (e.squareAt half q).1 bytes bytes.length s)
  else
    let inside (x y : Nat) : Bool := decide (128 * a + x < e.cols) && decide (128 * b + y < e.rows)
    let vals := (List.range 128).map fun x => (List.range 128).map fun y => if inside x y then w (128 * b + y) (128 * a + x) else .fin false 0 0
    let pads := 16384 - min 128 (e.cols - 128 * a) * min 128 (e.rows - 128 * b)
    let (bytes, amax, k) := makeSquare e.wfmt e.waxis e.margin sr (fun x y => die (128 * b + y) (128 * a + x)) vals
    let s := nearWrite (e.squareAt half q).1 bytes bytes.length s
    let s := if e.hasAmax then nearWrite (e.amaxAt half q) (toLE 4 amax.toNat) 4 s else s
    countConv e.sid step { k with conv := k.conv - pads } s

/-- The whole working copy of an entry. -/
def writeCopy (e : Ledger) (bank : Bool) (half : Nat) (step : W32) (s : State) : State :=
  (List.range e.squareCount).foldl (fun s q => writeSquare e bank half step q s) s

/-! ### The apply pass (R321 to R325) -/

/-- The constants of a step for a group (R322). -/
structure ApplyK where
  uc : W32
  ob : W32
  d : W32
  ne : W32
  beta : W32
  nesterov : Bool
  deriving DecidableEq, Repr

def applyK (g : Group) (u c32 : W32) : ApplyK :=
  { uc := mul32 u c32, ob := sub32 0x3F800000 g.beta, d := sub32 0x3F800000 (mul32 g.eta g.lambda), ne := g.eta ^^^ 0x80000000
    beta := g.beta, nesterov := g.nesterov }

/-- m' and w' of one element (R322). -/
def applyElement (k : ApplyK) (sum mc wc : W32) : W32 × W32 :=
  let g := mul32 k.uc sum
  let t1 := mul32 k.ob g
  let mn := fma32 k.beta mc t1
  let mx := if k.nesterov then fma32 k.beta mn t1 else mn
  let t2 := mul32 wc k.d
  (mn, fma32 k.ne mx t2)

/-- Elements of square q of an entry. -/
def Ledger.squareElems (e : Ledger) (q : Nat) : List (Nat × Nat) :=
  let a := q / e.squareCols
  let b := q % e.squareCols
  (List.range (min 128 (e.rows - 128 * b))).flatMap fun o => (List.range (min 128 (e.cols - 128 * a))).map fun i => (128 * b + o, 128 * a + i)

/-- The update of elements of a trainable entry. -/
def applyTrained (k : ApplyK) (alt : Bool) (l : List (Nat × Nat)) (e : Ledger) (s : State) : Ledger × State :=
  l.foldl (fun (a : Ledger × State) x =>
    let s := a.2
    let sum := if e.expect = 0 then 0 else rd32 s (e.mAddr alt x.1 x.2)
    let wc := rd32 s (e.wAddr (!alt) x.1 x.2)
    let (mn, wn) := applyElement k sum (rd32 s (e.mAddr (!alt) x.1 x.2)) wc
    let dl := v64 (r64 ((v32 wn).sub (v32 wc)))
    let d := a.1.dyn
    ({ a.1 with dyn := { d with wsq := d.wsq.add ((v32 wn).mul (v32 wn)), usq := d.usq.add (dl.mul dl) } },
     wr32 (e.wAddr alt x.1 x.2) wn (wr32 (e.mAddr alt x.1 x.2) mn s))) (e, s)

/-- Elements of a frozen entry are copied into the alternate bank. -/
def applyFrozen (alt : Bool) (l : List (Nat × Nat)) (e : Ledger) (s : State) : Ledger × State :=
  l.foldl (fun (a : Ledger × State) x =>
    let s := a.2
    let wc := rd32 s (e.wAddr (!alt) x.1 x.2)
    let d := a.1.dyn
    ({ a.1 with dyn := { d with wsq := d.wsq.add ((v32 wc).mul (v32 wc)) } },
     wr32 (e.wAddr alt x.1 x.2) wc (wr32 (e.mAddr alt x.1 x.2) (rd32 s (e.mAddr (!alt) x.1 x.2)) s))) (e, s)

/-- The latched group of an entry. -/
def groupIn (a : Armed) (e : Ledger) : Group := lookupD {} e.group a.groups

/-- A frozen entry whose alternate bank already holds it is skipped (R325). -/
def skipped (a : Armed) (e : Ledger) : Bool := (groupIn a e).freeze && e.snap.settled

/-- The skip of a settled entry: WSQ is the snapshot's. -/
def skipEntry (n : Nat) (s : State) : State :=
  let e := getEntry s n
  setEntry n { e with applied := true, dyn := { e.dyn with wsq := e.snap.wsq, usq := {} } } s

/-- Apply one square of an entry for the armed step, and write its working copy (R322, R323, R325). -/
def applySquare (a : Armed) (n q : Nat) (s : State) : State :=
  let e := getEntry s n
  let alt := altBank s
  let g := groupIn a e
  let (e, s) := if g.freeze then applyFrozen alt (e.squareElems q) { e with copied := true } s
    else applyTrained (applyK g a.u a.c32) alt (e.squareElems q) e s
  let done := q :: e.squares
  writeSquare e alt (if alt then halfOf s e else 0) a.step q (setEntry n { e with squares := done, applied := done.length == e.squareCount } s)

/-- Every segment that covers a square is final (R320). -/
def squareFinal (e : Ledger) (q : Nat) : Bool :=
  (List.range (min 128 (e.rows - 128 * (q % e.squareCols)))).all fun o => segFinal e (128 * (q % e.squareCols) + o) (q / e.squareCols)

/-- A running play reads the half that the apply would write (R324). -/
def copyHeld (s : State) : Bool := s.plays.any fun p => p.state == .running && p.bank == altBank s

/-- The pass of a capstan for the armed step may run: the norm is known where the step needs it, the capstan has its current bank and its sums, and its rim stack
serves accesses (R301, R320, R327, R339). -/
def applyReady (s : State) (a : Armed) (k : Nat) : Bool :=
  let c := getCapstan s k
  decide (k < 32) && !a.vetoed && ((!a.clip && !a.veto) || a.normDone) && !c.rebuilding && !c.lost && !rimQuiet s k

/-- Square q of an entry's working copy, or its entry in the amax table, lies in a channel that serves nothing now (R279, R281). -/
def squareWaits (s : State) (alt : Bool) (e : Ledger) (q : Nat) : Bool :=
  let half := if alt then halfOf s e else 0
  let x := e.squareAt half q
  rangeWaits s x.1 x.2 || (e.hasAmax && rangeWaits s (e.amaxAt half q) 4)

/-- What an entry gives the pass next: the skip of a settled one, or its first square that can be applied. -/
inductive PassItem where
  | skip (n : Nat)
  | square (n q : Nat)
  deriving DecidableEq, Repr

def entryItem (a : Armed) (n : Nat) (e : Ledger) : Option PassItem :=
  if e.applied then none
  else if skipped a e then some (.skip n)
  else ((List.range e.squareCount).find? fun q => !e.squares.contains q && squareFinal e q).map (.square n)

/-- The next item of a capstan's pass: entries in ascending index, squares in row-major order (R322), each as soon as it is final (R320). -/
def passItem (a : Armed) (k : Nat) (s : State) : Option PassItem := (entriesOf s k).findSome? fun x => entryItem a x.1 x.2

/-- A pass of capstan k reads a unit of the rim stack of a member of its parity group (R300, R338). -/
def rimReads (k : Nat) (r : Option RimUnit) (s : State) : State := r.elim s fun u => rimFinds (k / 8 * 8 + u.member) u.unit u.row u.read s

/-- What the capstan's lanes and its rim interface meet in a square (R461, R468): a failed residue check that passes when reissued, or fails the capstan; a burst
with a failing byte, which a retry or the rebuild of its unit gives. Whether the square is written. -/
def passMeets (k : Nat) (a : Armed) (e : Ledger) (q : Nat) (l : LaneFault) (s : State) : Bool × State :=
  let log (m : Bool) (s : State) := laneResidue (unitOf 3 (getCapstan s k).die) (BitVec.ofNat 32 k) a.origin 0 a.step m s
  match l with
  | .none => (true, s)
  | .once => (true, log true s)
  | .twice => (false, failCapstan k (log false s))
  | .parity w =>
    let x := (e.squareElems q).headD (0, 0)
    let s := (parityMeets (.rim (e.wAddr (!altBank s) x.1 x.2)) w a.origin 0 a.step s).2
    (applyReady s a k, s)

/-- APPLY_PASS of a capstan: one square of the pass, so that reads of the stripe find whole squares old or new (R228). It waits while the crossing to the near tier
refuses transfers (R46). A unit that the pass cannot read may stop the capstan (R338). -/
def execApplyPass (k : Nat) (l : LaneFault) (rim : Option RimUnit) (s : State) : Out :=
  match s.cap.armed with
  | none => .next s
  | some a =>
    if !applyReady s a k then .next s
    else match passItem a k s with
      | none => .next s
      | some (.skip n) => .next (skipEntry n s)
      | some (.square n q) =>
        if copyHeld s || xingClosed s 10 9 || squareWaits s (altBank s) (getEntry s n) q then .next s
        else
          let s := rimReads k (rim.map fun u => { u with member := k % 8 }) s
          if !applyReady s a k then .next s
          else match passMeets k a (getEntry s n) q l s with
            | (true, s) => .next (applySquare a n q s)
            | (false, s) => .next s

/-! ### Confirmation (R305, R547) -/

/-- A core of capstan k is halted by the debug unit (R547): kind 2, its die. -/
def capHalted (s : State) (k : Nat) : Bool := s.dbgUnit.halted.contains (2 * 4096 + (getCapstan s k).die)

/-- Capstan k can write the parity rows that it holds for the alternate bank: no member of its group has lost units or has squares to apply, and every rim stack of the
group serves accesses (R301, R305). -/
def confirmReady (s : State) (a : Armed) (k : Nat) : Bool :=
  let c := getCapstan s k
  let group := (List.range 8).map fun j => k / 8 * 8 + j
  decide (k < 32) && !a.vetoed && !a.confirmed.contains k && !c.lost && !c.rebuilding && !capHalted s k &&
    group.all fun j => !(getCapstan s j).lost && !rimQuiet s j && (entriesOf s j).all fun (_, e) => e.applied

/-- CAPSTAN_CONFIRM: every member of the parity group has written its units, and this capstan writes the alternate-bank parity rows it holds. A unit that cannot be
read for them stops it for the step (R338). -/
def execCapstanConfirm (k : Nat) (rim : Option RimUnit) (s : State) : Out :=
  match s.cap.armed with
  | none => .next s
  | some a =>
    if !confirmReady s a k then .next s
    else
      let s := rimReads k rim s
      if confirmReady s a k then .next (setArmed { a with confirmed := k :: a.confirmed } (parityPass (heldParity k (altBank s)) s)) else .next s

/-! ### STATE_LOAD (R310, R311, R324) -/

/-- Carry out a STATE_LOAD with the step number it took at its dispatch. A source that cannot be read is a parity fault, which ends it without effect; the spec names
no status for that: 0x0401 (DESIGN CHOICE, assumption 96). A closed crossing ends it with CLOCK_STOPPED (R46). -/
def runStateLoad (p : Packet) (step : W32) (s : State) : State :=
  let n := pN p 0 4
  let e := getEntry s n
  if !e.valid then refuse p Status.ledgerValue s
  else
    match engineRead 10 p.origin (pN p 8 8) (8 * e.rows * e.cols) s with
    | (.gone st, s) => refuse p st s
    | (.got bytes, s) =>
      let s := writeBytes (e.base true) bytes (writeBytes (e.base false) bytes s)
      let s := writeCopy e true (halfOf s e) step (writeCopy e false 0 step s)
      let touched (a : Nat) : Bool :=
        [false, true].any fun b => (List.range e.units).any fun u => parityOf (e.base b + u * 4096) / 4096 == a / 4096
      accept p (unsettle (fun m _ => m == n) (parityPass touched s))

/-- A STATE_LOAD waits for running plays, for the rim stacks of its capstan's parity group, and for the channels of its source and of both working copies (R279, R281,
R301). -/
def loadWaits (s : State) (p : Packet) : Bool :=
  let e := getEntry s (pN p 0 4)
  (s.plays.any fun y => y.state == .running) || rangeWaits s (pN p 8 8) (8 * e.rows * e.cols) ||
    (e.valid && ((List.range 8).any (fun j => rimQuiet s (e.cap / 8 * 8 + j)) ||
      [false, true].any fun b => (List.range e.squareCount).any fun q => squareWaits s b e q))

/-- STATE_LOAD: it waits for running plays, whose latched halves it would rewrite. Its tag is COMMITTED at its dispatch (R311). -/
def opStateLoad (p : Packet) (s : State) : State :=
  let n := pN p 0 4
  let e := getEntry s n
  if decide (65535 < n) then refuse p Status.header s
  else if !e.valid then refuse p Status.ledgerValue s
  else if entryBusy s n then refuse p Status.capBusy s
  else if !(spaceOf (pN p 8 8) == .near && destOk s (pN p 8 8) (8 * e.rows * e.cols) false) then refuse p Status.addrRange s
  else if loadWaits s p then { s with cap := { s.cap with loads := s.cap.loads ++ [(p, BitVec.ofNat 32 p.tag)] } }
  else runStateLoad p (BitVec.ofNat 32 p.tag) s

/-- STATE_LOADs that waited run once nothing holds them. -/
def runLoads (s : State) : State :=
  s.cap.loads.foldl (fun s x => if loadWaits s x.1 then s else
    runStateLoad x.1 x.2 { s with cap := { s.cap with loads := s.cap.loads.filter fun y => y != x } }) s

/-- PLAY_END. -/
def execPlayEnd (org sh : Nat) (s : State) : Out := .next (runLoads (playEnd org sh s))

/-! ### Losing a capstan (R339 to R341) -/

/-- CAPSTAN_FAIL: a missed heartbeat. Heartbeats start with the end of stage 6 (R495); the service core of a halted capstan is watched no more (R547). -/
def execCapstanFail (k : Nat) (s : State) : Out :=
  if decide (31 < k) || !stageDone s 6 || (getCapstan s k).failed || capHalted s k then .next s else .next (failCapstan k s)

/-- REBUILD_COMPLETE: reads of the stripe that waited go on, SETTLED of the capstan's entries is cleared (R325, R339), and the repair enters the ledger (R481). -/
def execRebuildComplete (k : Nat) (s : State) : Out :=
  let c := getCapstan s k
  if c.rebuilding then
    .next (pumpAll (unsettleCap k (record 10 7 0 3 (unitOf 3 c.die) (BitVec.ofNat 32 k) 0 0 [] (setCapstan k { c with rebuilding := false } s))))
  else .next s

end Sys2Proof.Machine
end

