-- ==== Sys2Proof/Machine/Commit.lean ====
section
/-! DEFINITION. The commit: COMMIT_ARM, READY, votes, the commit point, outcomes, abort and step replay, retraction, the replay log and the commands that carry
a step (chapter 11, R326 to R337, R344; R404). -/

namespace Sys2Proof.Machine

/-! ### Commands that carry a step (R334, R335) -/

/-- The step that a command carries: PLAY_FIRE, COMMIT_ARM, COLL_FIRE, BARRIER (0 for none), XCH_SET. -/
def packetStep (p : Packet) : Option W32 :=
  match p.opc with
  | 0x0301 => some (BitVec.ofNat 32 (pN p 12 4))
  | 0x0404 => some (BitVec.ofNat 32 (pN p 0 4))
  | 0x0504 => some (BitVec.ofNat 32 (pN p 4 4))
  | 0x0505 => if pN p 28 4 = 0 then none else some (BitVec.ofNat 32 (pN p 28 4))
  | 0x0602 => some (BitVec.ofNat 32 (pN p 4 4))
  | _ => none

/-- Set n bytes of PARAM. -/
def putItem (p : Packet) (at_ n x : Nat) : Packet :=
  { p with param := sliceB p.param 0 at_ ++ toLE n x ++ sliceB p.param (at_ + n) (40 - at_ - n) }

/-- A FIRE time moved by Δ; 0 names no CT. -/
def shiftFire (d f : CtWord) : CtWord := if f = 0 then 0 else f + d

/-- FIRE time, deadline and CP of a command increased by Δ; STEP_START with its step's first FIRE (DEDUCED, assumption 21). -/
def shiftPacket (d : CtWord) (p : Packet) : Packet :=
  let p := { p with fire := shiftFire d p.fire }
  match p.opc with
  | 0x0301 => putItem p 16 8 (BitVec.ofNat 64 (pN p 16 8) + d).toNat
  | 0x0404 => putItem p 8 8 (BitVec.ofNat 64 (pN p 8 8) + d).toNat
  | _ => p

/-- What the aborts so far add to a later-arriving command of a higher step (R335). -/
def arrivalShift (s : State) (step : W32) : CtWord :=
  s.cap.shifts.foldl (fun d x => if x.1.toNat < step.toNat then d + x.2 else d) 0

/-- Log a command whose step is above COMMITTED; one that does not fit leaves its step unreplayable (R334). -/
def logStep (p : Packet) (order : Nat) (s : State) : State :=
  match packetStep p with
  | none => s
  | some step =>
    if step.toNat ≤ s.cap.committed.toNat then s
    else if 65536 ≤ s.cap.log.length then { s with cap := { s.cap with unreplayable := step :: s.cap.unreplayable } }
    else { s with cap := { s.cap with log := s.cap.log ++ [{ step, packet := p, order }] } }

/-! ### COMMIT_ARM (R326, R327) -/

def armOf (p : Packet) (groups : Table Group) : Armed :=
  { step := BitVec.ofNat 32 (pN p 0 4), u := BitVec.ofNat 32 (pN p 4 4), stepStart := BitVec.ofNat 64 (pN p 8 8), tau := BitVec.ofNat 32 (pN p 16 4)
    eps := BitVec.ofNat 32 (pN p 20 4), gap := pN p 24 2, members := pN p 26 2, w := pN p 28 1, rts := pN p 29 1 % 16, clip := bitAt (pN p 30 1) 0
    veto := bitAt (pN p 30 1) 1, cp := p.fire, queue := p.queue, seq := p.seq, origin := p.origin, notify := Packet.notify p, tag := p.tag, groups }

def armItems (s : State) (a : Armed) : Bool :=
  scaleValid a.u && nonNeg a.tau && ltVal 0 a.tau && nonNeg a.eps && decide (2 ≤ a.w) && decide (a.w ≤ 255) && decide (1 ≤ a.members) &&
    decide (a.members ≤ 4096) && a.members == (rtSet s a.rts).members

/-- A control packet of the armed step is recorded (R328, R403). -/
def armTake (a : Armed) (c : Control) : Armed :=
  match c with
  | .ready m t => if t = a.step && !a.ready.contains m then { a with ready := m :: a.ready } else a
  | .vote m t v =>
    if t ≠ a.step then a
    else if v then (if a.votes.contains m then a else { a with votes := m :: a.votes })
    else (if a.abortVotes.contains m then a else { a with abortVotes := m :: a.abortVotes })
  | .normP m t x => if t = a.step then { a with p := upsert m x a.p } else a
  | _ => a

/-- The step of a control packet that belongs to a COMMIT_ARM. -/
def controlStep : Control → Option W32
  | .ready _ t => some t
  | .vote _ t _ => some t
  | .normP _ t _ => some t
  | _ => none

/-- COMMIT_ARM; a replay uses the group table that its step latched (R309). -/
def opCommitArm (p : Packet) (replay : Bool) (s : State) : State :=
  let step := pN p 0 4
  let groups := if replay then lookupD s.cap.groups step s.cap.latched else s.cap.groups
  let a := armOf p groups
  if !armItems s a then refuse p Status.updValue s
  else if a.step ≠ openStep s || s.cap.armed.isSome then refuse p Status.stepOrder s
  else if p.fire.toNat ≤ s.cad.ct.toNat + a.w * 65536 then refuse p Status.commitPassed s
  else
    let a := s.cap.early.foldl armTake a
    { s with cap := { s.cap with
        armed := some a, latched := upsert step groups s.cap.latched, early := s.cap.early.filter fun c => controlStep c != some a.step } }

/-! ### Dispatch of commands that carry a step -/

/-- Schedule a command for its FIRE time, or run it now (R38, R41). -/
def atFire (p : Packet) (cls order : Nat) (op : Packet → State → State) (s : State) : State :=
  if p.fire ≠ 0 && decide (s.cad.ct.toNat ≤ p.fire.toNat) then { s with sched := s.sched ++ [{ fire := p.fire, cls, order, packet := p }] } else op p s

/-- Run a command that carries a step, at its dispatch. -/
def runStep (p : Packet) (order : Nat) (replay : Bool) (s : State) : State :=
  match p.opc with
  | 0x0301 => opPlayFire p order s
  | 0x0404 => opCommitArm p replay s
  | 0x0504 => atFire p 2 order opCollFire s
  | 0x0505 => opBarrier p s
  | 0x0602 => atFire p 3 order opXchSet s
  | _ => s

/-- What earlier aborts add to the times of a command that carries a step (R335). -/
def shifted (s : State) (p : Packet) : Packet :=
  match packetStep p with
  | some step => if arrivalShift s step = 0 then p else shiftPacket (arrivalShift s step) p
  | none => p

/-- A command that carries a step, its times shifted, is logged and runs. -/
def dispatchStep (p : Packet) (s : State) : State :=
  let n := s.arrivals
  let p := { p with tag := n }
  runStep p n false (logStep p n { s with arrivals := n + 1 })

/-! ### READY and votes (R328, R404) -/

/-- A capstan has failed, or lost units of the alternate bank, before it confirmed the open step: the module is not READY and votes ABORT (R338, R340). -/
def capLost (s : State) : Bool := s.cap.capstans.any fun (_, c) => c.lost

/-- Names of a control packet's kind in the bytes that the spec does not lay out: 0 READY, 1 vote, 2 outcome, 3 norm partial, 4 ARRIVE. -/
def tellMembers (a : Armed) (items : List Nat) (s : State) : State := sendControl a.rts a.members 0 a.step items s

/-- READY_SEND: all 32 capstans have confirmed, or the step is vetoed; READY goes to every member. -/
def execReadySend (s : State) : Out :=
  match s.cap.armed with
  | none => .next s
  | some a =>
    if !s.rel.ccFailed && !a.readySent && (a.vetoed || a.confirmed.length == 32) && !capLost s then
      .next (tellMembers a [0, armedSelf s a] (setArmed (armTake { a with readySent := true } (.ready (armedSelf s a) a.step)) s))
    else .next s

/-- COMMIT_VOTE at the cutoff, to every member; a FAULTED step votes ABORT (R466), and so does one whose capstan has lost its sums (R340). -/
def execCommitVote (s : State) : Out :=
  match s.cap.armed with
  | none => .next s
  | some a =>
    if s.rel.ccFailed || a.voted.isSome then .next s
    else match timeTo (a.cp - beats a.w) s with
    | none => .next s
    | some s =>
      let v := (List.range a.members).all (fun m => a.ready.contains m) && !s.cap.stepFaulted && !capLost s
      .next (tellMembers a [1, armedSelf s a, b2n v] (setArmed (armTake { a with voted := some v } (.vote (armedSelf s a) a.step v)) s))

/-- Record an outcome in the window. -/
def windowTake (w : Window) (m : Nat) (commit : Bool) : Window :=
  { w with outcomes := if w.outcomes.contains m then w.outcomes else m :: w.outcomes
           aborts := if commit || w.aborts.contains m then w.aborts else m :: w.aborts }

/-- A packet of a step that is not yet armed here waits. -/
def keepEarly (c : Control) (step : W32) (s : State) : State :=
  if s.cap.committed.toNat < step.toNat then { s with cap := { s.cap with early := s.cap.early ++ [c] } } else s

/-- The header of a received control packet. -/
def controlHeader (c : Control) (k : RoutedPacket) : Bool :=
  k.typ == 0x03 && match c with
    | .ready m t => k.src == m && k.step == t && k.row == 0
    | .vote m t _ => k.src == m && k.step == t && k.row == 1
    | .outcome m t _ => k.src == m && k.step == t && k.row == outcomeKind
    | .normP m t _ => k.src == m && k.step == t && k.row == 3
    | .arrive m i => k.src == m && k.slot == i && k.row == 4

/-- A packet of the armed step, or of one that is not armed here yet. -/
def takeArmed (c : Control) (t : W32) (s : State) : State :=
  match s.cap.armed with
  | some a => if a.step = t then setArmed (armTake a c) s else keepEarly c t s
  | none => keepEarly c t s

/-- A control packet is recorded (R404). -/
def takeControl (c : Control) (s : State) : State :=
  match c with
  | .arrive m n =>
    match getBarrier s n with
    | some b => arrive m b s
    | none => { s with cap := { s.cap with early := s.cap.early ++ [c] } }
  | .outcome m t v =>
    match s.cap.window with
    | some w => if w.armed.step = t then { s with cap := { s.cap with window := some (windowTake w m v) } } else keepEarly c t s
    | none => keepEarly c t s
  | .normP _ t _ =>
    match s.cap.norm with
    | some a => if a.step = t then { s with cap := { s.cap with norm := some (armTake a c) } } else takeArmed c t s
    | none => takeArmed c t s
  | .ready _ t => takeArmed c t s
  | .vote _ t _ => takeArmed c t s

/-- CONTROL_PACKET: one from another member reaches the control complex, or is lost at a crossing on its way (R45, R46). -/
def execControlPacket (c : Control) (t : Transit) (s : State) : Out :=
  match freeRx (controlHeader c) s with
  | none => .next s
  | some s =>
    if xingClosed s 11 8 || xingClosed s 8 12 then .next s
    else match t with
      | .ok => .next (takeControl c s)
      | .overrun a b => .next (xingRecord a b false s)
      | .hop tile w =>
        let (lost, s) := parityMeets (.hop tile) w 3 0 ((controlStep c).getD 0) s
        .next (if lost then s else takeControl c s)

/-! ### The outcome window (R331 to R334, R356) -/

/-- Beats after CP at which the window closes. -/
def windowEnd (w : Window) : Nat := w.armed.cp.toNat + 64 * 65536

/-- A port still holds an outcome of this module for a step, in its send buffer or in flits that are not acknowledged. -/
def holdsOutcome (s : State) (a : Armed) (p : HPort) : Bool :=
  (lookupD [] 2 p.sendQ).any (fun k => k.typ == 0x03 && k.row == outcomeKind && k.rts == a.rts && k.src == armedSelf s a && k.step == a.step) ||
    p.outs.any fun x => x.1 == a.rts && x.2.1 == armedSelf s a && x.2.2.1 == a.step

/-- A port discards its buffers: an outcome among them is not delivered (R332, R395). -/
def loseOutcome (n : Nat) (s : State) : State :=
  match s.cap.window with
  | some w => if holdsOutcome s w.armed (getPort s n) then { s with cap := { s.cap with window := some { w with undelivered := true } } } else s
  | none => s

/-- COMMIT_SPLIT, once, when an outcome is missing, or this member's outcome has not been delivered to every other member (R332). -/
def raiseSplit (w : Window) (s : State) : State :=
  if !w.split && (!(List.range w.armed.members).all (fun m => w.outcomes.contains m) ||
      w.undelivered || s.ports.any fun x => holdsOutcome s w.armed x.2) then
    postStep Ev.commitSplit w.armed.step [] { s with cap := { s.cap with window := some { w with split := true } } }
  else s

/-- The window closes: the step is evaluated, its log and latched groups are released, held contributions are taken. -/
def closeWindow (s : State) : State :=
  match s.cap.window with
  | none => s
  | some w =>
    let s := raiseSplit w s
    let s := if w.committed then evaluate w.armed.step w.armed.vetoed w.armed.groups s else s
    let keep (t : W32) : Bool := decide (s.cap.committed.toNat < t.toNat)
    pumpAll <| takeHeld { s with cap := { s.cap with
      window := none, log := s.cap.log.filter fun l => keep l.step, latched := s.cap.latched.filter fun x => decide (s.cap.committed.toNat < x.1)
      unreplayable := s.cap.unreplayable.filter keep
      early := s.cap.early.filter fun c => match c with
        | .outcome _ t _ => keep t
        | .arrive _ _ => true
        | .ready _ t => keep t
        | .vote _ t _ => keep t
        | .normP _ t _ => keep t } }

/-- COMMIT_SPLIT. -/
def execCommitSplit (s : State) : Out :=
  match s.cap.window with
  | none => .next s
  | some w =>
    if s.rel.ccFailed then .next s
    else match timeTo (BitVec.ofNat 64 (windowEnd w)) s with
      | some s => .next (raiseSplit w s)
      | none => .next s

/-- OUTCOME_WINDOW_CLOSE. -/
def execOutcomeWindowClose (s : State) : Out :=
  match s.cap.window with
  | none => .next s
  | some w =>
    if s.rel.ccFailed then .next s
    else match timeTo (BitVec.ofNat 64 (windowEnd w)) s with
      | some s => .next (closeWindow s)
      | none => .next s

/-- The window that opens at CP, with this member's outcome, which goes to every member, and those that came before it. -/
def openWindow (a : Armed) (committed : Bool) (s : State) : State :=
  let w : Window := { armed := a, committed, prevNorm := s.watch.norm, prevClip := s.watch.clip, replays := s.cap.replays
                      undelivered := !(otherMembers s a.rts a.members).all fun m => reaches s a.rts m }
  let s := tellMembers a [2, armedSelf s a, b2n committed] s
  let w := s.cap.early.foldl (fun w c => match c with
    | .outcome m t v => if t = a.step then windowTake w m v else w
    | _ => w) (windowTake w (armedSelf s a) committed)
  { s with cap := { s.cap with
      window := some w
      early := s.cap.early.filter fun c => match c with
        | .outcome _ t _ => t != a.step
        | _ => true } }

/-- The reply of a COMMIT_ARM; its DETAIL is the aborts of its step. -/
def commitReply (a : Armed) (n : Nat) (st : BitVec 16) (replied : Bool) (s : State) : State :=
  if replied then postFull Ev.playFail a.origin 0xFFFFFFFF 0 a.step (det [(2, st.toNat)]) s
  else stepReply a.tag a.queue a.seq 0x0404 a.origin a.notify 0 a.step st (BitVec.ofNat 64 n) s

/-! ### Abort and replay (R330, R335 to R337) -/

def mapLedger (f : Ledger → Ledger) (s : State) : State := { s with cap := { s.cap with ledger := mapVals f s.cap.ledger } }

/-- Capstans take part again in the next attempt or step. -/
def clearLost (s : State) : State := { s with cap := { s.cap with capstans := mapVals (fun c => { c with lost := false }) s.cap.capstans } }

/-- Packets of a step on the mesh, but ties. -/
def meshStep : MeshItem → Option W32
  | .tie .. => none
  | .contrib _ c => some c.step
  | .leaf _ l => some l.step
  | .xcount c => some c.step
  | .xgrant g => some g.step
  | .xrow r => some r.step
  | .xfetch f => some f.step
  | .xresult r => some r.step

/-- The values that a step and later ones have produced are discarded (R335, R401, R429). -/
def dropStep (step : W32) (s : State) : State :=
  let low (t : W32) : Bool := decide (t.toNat < step.toNat)
  let s := clearLost (mapLedger dropGathered s)
  let s := mapSlotsC (dropRounds step) (dropExchanges step s)
  { s with
    cap := { s.cap with held := s.cap.held.filter (fun x => low x.2.step), stepFaulted := false, armed := none }
    mesh := s.mesh.filter fun x => (meshStep x.2).elim true low }

/-- Δ of R335. -/
def replayShift (a : Armed) : CtWord := a.cp - a.stepStart + beats a.gap

/-- The step of a barrier that names one. -/
def BarrierRec.stepNo (b : BarrierRec) : Nat := b.step.toNat

/-- Stop the plays of steps lo to hi without replies, and unschedule the pending commands of those steps. -/
def stopSteps (lo hi : Nat) (s : State) : State :=
  let hit (t : W32) : Bool := decide (lo ≤ t.toNat) && decide (t.toNat ≤ hi)
  { s with
    plays := (s.plays.filter fun p => p.state == .running || !hit p.step).map fun p =>
      if hit p.step then { stopPlay p with withheld := true } else p
    sched := s.sched.filter fun e => !((packetStep e.packet).elim false hit)
    barriers := s.barriers.filter fun b => !hit b.step }

/-- Add Δ to the pending commands of steps above hi. -/
def shiftHigher (hi : Nat) (d : CtWord) (s : State) : State :=
  let high (t : W32) : Bool := decide (hi < t.toNat)
  let atOnce (order : Nat) : Bool := s.cap.log.any fun l => l.order == order && l.packet.fire == 0
  { s with
    plays := s.plays.map fun p =>
      if high p.step && p.state != .running then
        if atOnce p.order then { p with deadline := p.deadline + d, state := .due }
        else { p with fire := p.fire + d, deadline := p.deadline + d, state := if s.cad.ct.toNat ≤ (p.fire + d).toNat then .pending else .due }
      else p
    sched := s.sched.map fun e => if (packetStep e.packet).elim false high then { e with fire := e.fire + d, packet := shiftPacket d e.packet } else e
    barriers := s.barriers.map fun b => if high b.step then { b with fire := b.fire + d, release := b.release + d } else b }

/-- A logged command of a higher step has run, and the abort dropped what it had started: its exchange or its collective. -/
def ranAndLost (s : State) (l : Logged) : Bool :=
  !s.sched.any (fun e => e.order == l.order) &&
    match l.packet.opc with
    | 0x0602 => (getX s (pN l.packet 0 2)).elim false fun x => x.step == l.step
    | 0x0504 => (lookup (pN l.packet 0 2) s.colls).elim false fun c => (c.due ++ c.running.toList).any fun p => p.tag == l.order
    | _ => false

/-- Re-dispatch one logged command under a new arrival number. -/
def redispatch (s : State) (l : Logged) : State :=
  let n := s.arrivals
  let late := l.packet.fire ≠ 0 && decide (l.packet.fire.toNat < s.cad.ct.toNat)
  let p := { l.packet with rsv := if late then 1 else 0, tag := n }
  runStep p n true { s with
    arrivals := n + 1
    cap := { s.cap with log := s.cap.log.map fun x => if x.order = l.order then { x with order := n } else x } }

/-- The replay of steps lo to hi (hi above lo only in a retraction); a COMMIT_ARM above lo waits for lo's commit. -/
def replaySteps (a : Armed) (hi : Nat) (s : State) : State :=
  let d := replayShift a
  let lo := a.step.toNat
  let lostRuns := (s.cap.log.filter fun l => decide (hi < l.step.toNat) && ranAndLost s l).map Logged.order
  let s := dropStep a.step (shiftHigher hi d (stopSteps lo hi s))
  let s := { s with cap := { s.cap with
    shift := s.cap.shift + d, shifts := s.cap.shifts ++ [(a.step, d)]
    log := s.cap.log.map fun l => if lo ≤ l.step.toNat then { l with packet := shiftPacket d l.packet } else l } }
  let s := postStep Ev.stepReplay a.step (det [(8, d.toNat)]) s
  let again := s.cap.log.filter fun l =>
    decide (lo ≤ l.step.toNat) && (decide (l.step.toNat ≤ hi) || lostRuns.contains l.order) && !(l.packet.opc == 0x0404 && l.step != a.step)
  again.foldl redispatch s

/-- What an abort without replay does to the work of step lo and later (R335, R337): running plays stop without replies, and pending commands are unscheduled; plays
that the step gate holds stay. The spec names no reply for what is stopped so: none is sent (DESIGN CHOICE, assumption 97). -/
def stopForGood (lo : Nat) (s : State) : State :=
  let hit (t : W32) : Bool := decide (lo ≤ t.toNat)
  { s with
    plays := (s.plays.filter fun p => p.state == .running || !hit p.step || (p.state == .due && decide (lo < p.step.toNat))).map fun p =>
      if p.state == .running && hit p.step then { stopPlay p with withheld := true } else p
    sched := s.sched.filter fun e => !((packetStep e.packet).elim false hit)
    barriers := s.barriers.filter fun b => !hit b.step }

/-- An abort of the armed step, the n-th one: replay, or STEP_STUCK and STEP_LOST, after which the step's commands leave the log. -/
def abortStep (a : Armed) (hi n : Nat) (replied : Bool) (s : State) : State :=
  let s := { s with cap := { s.cap with outcome := 2, replays := min 3 n } }
  if s.cap.unreplayable.contains a.step || 3 ≤ n then
    let st := if s.cap.unreplayable.contains a.step then Status.stepLost else Status.stepStuck
    let s := commitReply a n st replied (dropStep a.step (stopForGood a.step.toNat s))
    { s with cap := { s.cap with log := s.cap.log.filter fun l => l.step != a.step } }
  else replaySteps a hi s

/-! ### The commit point (R329, R330) -/

/-- The dynamic part of an entry as the commit or veto of a step snapshots it (R311, R316, R319, R325). -/
def closeEntry (a : Armed) (e : Ledger) : Ledger :=
  let frozen := (lookupD {} e.group a.groups).freeze
  let d := if e.valid && e.expect == 0 then { e.dyn with gsq := {}, zero := e.rows * e.cols, zrows := e.rows, nonfin := 0 } else e.dyn
  let d := if frozen then { d with gsq := {}, usq := {} } else d
  let d := if a.vetoed then { d with wsq := e.snap.wsq, usq := e.snap.usq, vetoed := true, settled := e.snap.settled }
    else { d with settled := e.copied || (frozen && e.snap.settled) }
  dropGathered { e with prev := e.snap, snap := { d with step := a.step } }

/-- The sums that a vetoed step leaves of an entry whose capstan lost them after the vote: free values, numbered by the entry (R340; the spec states none). -/
def lostDyn (ctr n : Nat) (d : Dyn) : Dyn :=
  let v (k : Nat) : Nat := (Config.freeValue (ctr + 4 * n + k)).toNat
  { d with gsq := { m := v 0 }, zero := v 1, zrows := v 2 % 2 ^ 32, nonfin := v 3 % 2 ^ 32 }

/-- Entries of capstans that lost their sums, at a commit point. -/
def loseSnaps (s : State) : State :=
  let gone (e : Ledger) : Bool := (getCapstan s e.cap).lost
  if !capLost s then s
  else { s with
    freeCtr := s.freeCtr + 4 * 65536
    cap := { s.cap with ledger := s.cap.ledger.map fun (n, e) => (n, if gone e then { e with dyn := lostDyn s.freeCtr n e.dyn } else e) } }

/-- The working-copy lines of the caches are dropped (R262). -/
def dropCopies (s : State) : State :=
  dropLines (fun _ u => match regionOf s (u * 128) with | some (_, r) => r.typ | none => false) s

/-- WATCH_CLIP. -/
def clipWord (a : Armed) : W64 := BitVec.ofNat 64 (a.step.toNat * 2 ^ 32 + a.c32.toNat)

/-- Commit or veto of the armed step. -/
def commitStep (a : Armed) (s : State) : State :=
  let self := armedSelf s a
  let a := if (lookup self a.p).isSome then a else { a with p := upsert self (normP s a.groups) a.p }
  let s := openWindow a true (closeWindow s)
  let n := s.cap.replays
  let s := mapLedger (closeEntry a) (clearLost (loseSnaps s))
  let s := if a.vetoed then s else dropCopies { s with cap := { s.cap with cur := !s.cap.cur } }
  let s := mapSlotsC (closeRounds a.step) (endExchanges a.step (closeCounts s))
  let s := { s with
    watch := { s.watch with norm := if a.normDone then a.g else s.watch.norm, clip := clipWord a }
    cap := { s.cap with committed := a.step, outcome := if a.vetoed then 1 else 0, replays := 0, armed := none, stepFaulted := false
                        norm := if a.normDone then none else some a } }
  let s := commitReply a n (if a.vetoed then Status.stepVetoed else Status.ok) false s
  let next := s.cap.log.filter fun l => l.packet.opc == 0x0404 && l.step == openStep s && !l.replied
  next.foldl redispatch s

/-- An abort at the commit point. -/
def abortAtCp (a : Armed) (s : State) : State :=
  abortStep a a.step.toNat (s.cap.replays + 1) false (dropOpen (openWindow a false (closeWindow s)))

/-- What the commit point does (R329, R330). -/
def commitPoint (s : State) : State :=
  match s.cap.armed with
  | none => s
  | some a =>
    if s.cad.ct.toNat < a.cp.toNat then s
    else if (List.range a.members).all fun m => a.votes.contains m then commitStep a s
    else abortAtCp a s

/-- COMMIT at CP; while the active control complex is failed nothing commits (R478). -/
def execCommit (s : State) : Out :=
  match s.cap.armed with
  | none => .next s
  | some a =>
    if s.rel.ccFailed then .next s
    else match comeTo (a.cp.toNat, 1, a.tag) a.cp s with
      | some s => .next (commitPoint s)
      | none => .next s

/-! ### Retraction (R331) -/

/-- The dynamic part of an entry as the snapshot before the retracted commit had it. -/
def restoreEntry (e : Ledger) : Ledger := { e with snap := e.prev }

/-- Undo the commit of a window, and replay its step and the next. -/
def retractStep (w : Window) (s : State) : State :=
  let a := w.armed
  let s := if a.vetoed then s else dropCopies { s with cap := { s.cap with cur := !s.cap.cur } }
  let s := { s with
    watch := { s.watch with norm := w.prevNorm, clip := w.prevClip }
    cap := { s.cap with committed := a.step - 1, window := some { w with committed := false }, norm := none, armed := none } }
  let s := postStep Ev.commitRetract a.step [] (dropBoth (mapLedger restoreEntry s))
  abortStep a (a.step.toNat + 1) (w.replays + 1) true s

/-- COMMIT_RETRACT: a member's ABORT outcome is held inside the window. -/
def execCommitRetract (m : Nat) (s : State) : Out :=
  match s.cap.window with
  | none => .next s
  | some w =>
    if !s.rel.ccFailed && w.committed && w.aborts.contains m && decide (s.cad.ct.toNat ≤ windowEnd w) then .next (retractStep w s) else .next s

/-! ### CAP_COMMIT (R344) -/

/-- A write of COMMITTED: ignored with LOCK_VIOLATION while the lock is closed, a step is armed or a play is pending or running; else the open step starts
anew. -/
def writeCommitted (v : W32) (s : State) : State :=
  if !s.host.privOpen || s.cap.armed.isSome || !s.plays.isEmpty then lockViolation s
  else pumpAll (takeHeld (clearLost (mapLedger dropGathered { s with cap := { s.cap with committed := v, replays := 0, stepFaulted := false } })))

/-- COMMITTED_WRITE. -/
def execCommittedWrite (h : HostAccess) (v : W32) (s : State) : Out :=
  orHold h 0x400 true (v.toNat * 2 ^ 32) (fun s => if privReg h s then .next (writeCommitted v s) else .next s) s

/-- PHASE. -/
def capPhase (s : State) : Nat :=
  if s.cap.capstans.any fun (_, c) => c.rebuilding then 6
  else match s.cap.armed with
    | some a =>
      if a.voted.isSome then 5
      else if a.readySent then 4
      else if s.cap.ledger.any fun (_, e) => e.applied || !e.squares.isEmpty then 3
      else if (lookup (armedSelf s a) a.p).isSome then 2
      else 1
    | none => if s.cap.ledger.any fun (_, e) => !e.counts.isEmpty then 1 else 0

/-- CAP_COMMIT as it is read. -/
def capCommitReg (s : State) : Nat :=
  s.cap.committed.toNat * 2 ^ 32 + s.cap.outcome * 2 ^ 30 + s.cap.replays * 2 ^ 28 + b2n (s.cap.unreplayable.contains (openStep s)) * 2 ^ 27 +
    capPhase s * 2 ^ 24 + (s.cap.armed.elim 0 fun a => a.confirmed.length) * 2 ^ 8 + b2n s.cap.cur

end Sys2Proof.Machine
end

