-- ==== Sys2Proof/Machine/Watch.lean ====
section
/-! DEFINITION. Watching a run: tally comparisons, audit samples, the watch commands, the test vectors (chapter 12). -/

namespace Sys2Proof.Machine

/-! ### Tally comparison (R346 to R348) -/

/-- A comparison item with an arithmetic fault in one column: its checksum output, or an output that it covers, of which s and a are the sums (R346). -/
def withFault (t : TallyItem) (f : Option TallyFault) : TallyItem :=
  match f with
  | none => t
  | some f =>
    match f.out with
    | none => { t with c := t.c.set f.col f.value }
    | some k =>
      match t.outs[f.col]? with
      | none => t
      | some l =>
        let sums := runSums (l.set k f.value)
        { t with s := t.s.set f.col sums.1, a := t.a.set f.col sums.2, outs := t.outs.set f.col (l.set k f.value) }

/-- Per checksum column: none when no comparison is made, else whether it fails. -/
def judge (s : State) (t : TallyItem) : List (Option Bool) :=
  (t.c.zip (t.s.zip t.a)).map fun (c, x, a) => tallyFails s.watch.tolx.toNat c x a

/-- The physical tiles of a tile row of a partition are suspect (R469). -/
def suspectRow (t : TallyItem) (row : Nat) (s : State) : State :=
  (List.range (shapeCols t.shape)).foldl (fun s c => suspectTile (physTile s (mkTile (tileField t.org) (tileRow t.org + row) (tileCol t.org + c))) 2 s) s

/-- The items of TALLY_MISMATCH for column k. -/
def mismatchItems (t : TallyItem) (k : Nat) : List Byte :=
  det [(2, t.org), (1, t.shape), (4, t.idx), (4, t.row), (1, k), (4, (t.c.getD k 0).toNat), (4, (t.s.getD k 0).toNat), (4, (t.a.getD k 0).toNat)]

/-- MTAG of a play's pass, while its move stands in a queue. -/
def passMtag (p : Play) (idx : Nat) : Nat :=
  ((p.queues.findSome? fun q => q.moves.find? fun m => m.idx == idx && opOf m.word == 0x12).map fun m => wf m.word 17 15).getD 0

/-- The pass of a failed comparison is masked as an arithmetic fault: its play is faulted, or, when it has ended, its open step; the rerun of its play masks it already. -/
def maskTally (t : TallyItem) (s : State) : State :=
  match getPlay s t.order with
  | some p => if p.reruns = t.run then faultPlay t.order 2 (passMtag p t.idx, t.idx, t.org) s else s
  | none => faultStep t.step s

/-- The pass of a run that a comparison belongs to (R348). -/
def TallyItem.pass (t : TallyItem) : Nat × Nat × Nat := (t.order, t.run, t.idx)

/-- The first failed comparison of a pass: its event, the suspect tiles, the record, and the mask. -/
def firstMismatch (f : Nat) (t : TallyItem) (k : Nat) (row : Option Nat) (s : State) : State :=
  let s := adjField f (fun x => { x with mismatched := t.pass :: x.mismatched }) s
  let s := postFull Ev.tallyMismatch t.origin 0xFFFFFFFF t.play t.step (mismatchItems t k) s
  let s := match row with
    | some r => suspectRow t r s
    | none => s
  maskTally t (ledgerRec 2 0 1 0xFFFFFFFF 0xFFFFFFFF t.play (det [(4, (t.c.getD k 0).toNat), (4, (t.s.getD k 0).toNat)]) s)

/-- Judge one row's comparisons; later failures of a pass only add to MISMATCH (R348). -/
def compareRow (f : Nat) (t : TallyItem) (row : Option Nat) (s : State) : State :=
  let j := judge s t
  let bad := (j.zipIdx.filter fun x => x.1 == some true).map Prod.snd
  let s := adjField f (fun x => { x with
    mismatch := satAdd 32 x.mismatch bad.length, nonfin := satAdd 16 x.nonfin (j.filter fun x => x == none).length }) s
  match bad with
  | [] => s
  | k :: _ => if (getField s f).mismatched.contains t.pass then s else firstMismatch f t k row s

/-- TALLY_COMPARISON: the oldest comparison of a field becomes known. -/
def execTallyComparison (f : Nat) (fault : Option TallyFault) (s : State) : Out :=
  match (getField s f).tallies with
  | [] => .next s
  | t :: r =>
    let s := compareRow f (withFault t fault) (fault.map TallyFault.row) s
    .next (adjField f (fun x => { x with
      tallies := r, mismatched := x.mismatched.filter fun m => r.any fun t => t.pass == m }) s)

/-! ### Audit (R351 to R353) -/

/-- A sample is over (R353). -/
def auditOver (s : State) (rho : W32) : Bool := isNan32 rho || ltVal (r32 (.fin false 1 (-(s.watch.audAt.toNat : Int)))) rho

/-- AUDIT_SAMPLE: the field's audit tile finishes its square. -/
def execAuditSample (f : Nat) (s : State) : Out :=
  match (getField s f).audit with
  | none => .next s
  | some it =>
    let rho := auditRho it.n it.w
    let over_ := auditOver s rho
    let s := adjField f (fun x => { x with
      audit := none, sampled := satAdd 32 x.sampled 1, overs := if over_ then satAdd 8 x.overs 1 else x.overs }) s
    let s := slotAudit it.sid rho over_ s
    .next (if over_ then
        postFull Ev.auditDrift it.origin 0xFFFFFFFF it.play it.step (det [(4, it.idx), (4, it.block), (2, it.tile), (4, rho.toNat)]) s
      else s)

/-! ### WATCH_SET and WATCH_GET (R363 to R365) -/

/-- A 16 B record is acceptable for a slot. -/
def slotOk (s : State) (n : Nat) (b : List Byte) : Bool :=
  n != 1023 && decide (item b 4 1 < 4) && (sliceB b 6 10).all (· == 0) &&
    (!bitAt (item b 4 1) 0 || !s.watch.slots.any fun (m, x) => m != n && m != 1023 && x.valid && x.sid.toNat == item b 0 4)

/-- WATCH_SET. -/
def opWatchSet (p : Packet) (s : State) : State :=
  let first := pN p 0 2
  let cnt := pN p 2 2
  let src := pN p 8 8
  if cnt = 0 || decide (1023 < cnt) || decide (1024 < first + cnt) || (src == 0 && decide (256 < cnt)) then refuse p Status.header s
  else if src ≠ 0 && !destOk s src (16 * cnt) false then refuse p Status.addrRange s
  else
    match (if src = 0 then (.got p.payload, s) else engineRead 12 p.origin src (16 * cnt) s) with
    | (.gone st, s) => refuse p st s
    | (.got data, s) =>
    let (bad, s) := (List.range cnt).foldl (fun (a : Option Nat × State) k =>
      let b := sliceB data (16 * k) 16
      if slotOk a.2 (first + k) b then
        (a.1, setSlot (first + k) { sid := BitVec.ofNat 32 (item b 0 4), sflags := BitVec.ofNat 8 (item b 4 1), satx := BitVec.ofNat 8 (item b 5 1) } a.2)
      else (if a.1.isNone then some (first + k) else a.1, a.2)) (none, s)
    match bad with
    | some n => reply p Status.watchValue (BitVec.ofNat 64 n) s
    | none => accept p s

def countBytes (k : Counts) : List Byte := toLE 8 k.conv ++ toLE 8 k.nonfinite ++ toLE 8 k.overflow ++ toLE 8 k.saturate ++ toLE 8 k.zeroFlush

/-- A slot record, as the last evaluation left it. -/
def slotRecord (x : Slot) : List Byte :=
  toLE 4 x.sid.toNat ++ toLE 1 x.sflags.toNat ++ toLE 1 x.satx.toNat ++ toLE 2 x.evalRun ++ toLE 4 x.evalStep.toNat ++ toLE 4 x.evalAudWorst.toNat ++
    countBytes x.evalCounts ++ countBytes x.evalTotals ++ toLE 4 x.evalAudN ++ toLE 4 x.evalAudOver ++ List.replicate 24 0

/-- WATCH_GET. -/
def opWatchGet (p : Packet) (s : State) : State :=
  let mode := pN p 0 1
  let first := pN p 4 4
  let cnt := pN p 8 4
  let d := pN p 16 8
  let lim := if mode = 0 then 1024 else 65536
  if decide (1 < mode) || cnt = 0 || decide (lim < first + cnt) then refuse p Status.header s
  else if !destOk s d (cnt * (if mode = 0 then 128 else 2)) true then refuse p Status.addrRange s
  else accept p (destWrite p.origin d ((List.range cnt).flatMap fun k =>
    if mode = 0 then slotRecord (getSlot s (first + k)) else toLE 2 ((lookup (first + k) s.cap.ledger).elim 0 Ledger.stall)) s)

/-! ### Test vectors (R369 to R371) -/

/-- RECLEN of a set. -/
def setLen : Nat → Nat
  | 1 => 32 | 2 => 288 | 3 => 1040 | 4 => 4 | 5 => 64 | 6 => 48 | _ => 0

def i32 (r : List Byte) (k : Nat) : W32 := BitVec.ofNat 32 (item r k 4)

/-- A CONV record matches. -/
def vecConv (r : List Byte) : Bool :=
  let c := item r 4 1
  let margin := fld (item r 5 1) 1 2
  let x := v32 (i32 r 0)
  let mode := modeOf c (bitAt (item r 5 1) 0) (i32 r 12)
  let code (o : Outcome) : Nat := match o with
    | .plain => 0 | .nonfinite => 1 | .overflow => 2 | .saturate => 3 | .zeroFlush => 4
  if !fmtValid c then false
  else if fmtMx c && !x.isFin then item r 16 4 == 0 && item r 20 1 == 255 && item r 24 4 == 1
  else
    let s : Int := if fmtMx c then (match v32 (i32 r 8) with | .fin _ m e => scaleExp c m e margin (-127) | _ => 0)
      else if fmtScaleField c then scaleOfAmax c (i32 r 8) margin else 0
    let (el, o) := (elemFmt c).convert mode s x
    let o := if c = 0 && o != .nonfinite then Outcome.plain else o
    item r 16 4 == el && item r 24 4 == code o && (if fmtMx c then item r 20 1 == (s + 127).toNat else item r 20 4 == (scale32 s).toNat)

/-- An element of a CELL record under its operand's scale. -/
def vecElem (c : Nat) (scale : W32) (x : Nat) : FVal :=
  let v := (elemFmt c).decode x
  if fmtScaleField c then v.scale (((scale.toNat / 2 ^ 23 : Nat) : Int) - 127)
  else if fmtMx c then (if scale.toNat % 256 = 255 then .nan else v.scale (((scale.toNat % 256 : Nat) : Int) - 127))
  else v

/-- A CELL record matches: 16 products, 32 in MXFP4. -/
def vecCell (r : List Byte) : Bool :=
  let a := item r 0 1
  let b := item r 1 1
  let n := if a = 13 then 32 else 16
  let prods := (List.range n).map fun k => (vecElem a (i32 r 8) (item r (16 + 4 * k) 4)).mul (vecElem b (i32 r 12) (item r (144 + 4 * k) 4))
  pairOk a b && i32 r 272 == cellSum (i32 r 4) prods

/-- A REDUCE record matches. -/
def vecReduce (r : List Byte) : Bool :=
  let x := (List.range (item r 4 4)).map fun k => i32 r (8 + 4 * k)
  let y := match item r 0 4 with
    | 0 => tree 0 add32 x
    | 1 => tree 0 max32 x
    | _ => tree 0 add32 (x.map fun v => mul32 v v)
  i32 r 1032 == y

/-- A DICE record matches. -/
def vecDice (r : List Byte) : Bool :=
  let w (k : Nat) : W64 := BitVec.ofNat 64 (item r k 8)
  let h1 := mix (w 0 + 0x9E3779B97F4A7C15#64)
  let h2 := mix (h1 ^^^ BitVec.ofNat 64 (item r 8 4))
  let h3 := mix (h2 ^^^ BitVec.ofNat 64 (item r 16 4 % 16 * 2 ^ 32 + item r 12 4))
  let h4 := mix (h3 ^^^ BitVec.ofNat 64 (item r 24 8 % 2 ^ 48))
  w 32 == h1 && w 40 == h2 && w 48 == h3 && w 56 == h4

/-- An APPLY record matches. -/
def vecApply (r : List Byte) : Bool :=
  let g : Group := { eta := i32 r 12, lambda := i32 r 16, beta := i32 r 20, nesterov := bitAt (item r 32 1) 0 }
  let (m, w) := applyElement (applyK g (i32 r 24) (i32 r 28)) (i32 r 0) (i32 r 4) (i32 r 8)
  i32 r 36 == m && i32 r 40 == w

/-- Record i of a set matches. -/
def vecRecord (set param i : Nat) (r : List Byte) : Bool :=
  match set with
  | 1 => vecConv r
  | 2 => vecCell r
  | 3 => vecReduce r
  | 4 => i32 r 0 == elemOp param (BitVec.ofNat 32 i) 0 0
  | 5 => vecDice r
  | _ => vecApply r

/-- MAGIC, VERSION, SET, RECLEN and the digest of a file that lies in a valid entry. -/
def vecOk (s : State) (a : Nat) : Bool :=
  let set := readN s (a + 6) 2
  let n := readN s (a + 16) 8
  let body := 64 + n * setLen set
  a % 128 == 0 && spaceOf a == .near && (inRegion s a 64).isSome && readN s a 4 == 0x43455648 && readN s (a + 4) 2 == 1 && decide (1 ≤ set) &&
    decide (set ≤ 6) && readN s (a + 8) 4 == setLen set && (inRegion s a (body + 64)).isSome &&
    readBytes s (a + body) 64 == Config.shake256 (readBytes s a body)

/-- Mismatches of a file and the first of them. -/
def vecRun (s : State) (a : Nat) : Nat × Nat :=
  let set := readN s (a + 6) 2
  (List.range (readN s (a + 16) 8)).foldl (fun (t : Nat × Nat) i =>
    if vecRecord set (readN s (a + 12) 4) i (readBytes s (a + 64 + i * setLen set) (setLen set)) then t
    else (t.1 + 1, if t.1 = 0 then i else t.2)) (0, 0)

/-- A capstan runs a pass: it holds sums of the open step, or has applied a square. -/
def capRuns (s : State) (k : Nat) : Bool := (entriesOf s k).any fun x => entryBusy s x.1

/-- Bytes of the file at an address. -/
def vecBytes (s : State) (a : Nat) : Nat := 128 + readN s (a + 16) 8 * setLen (readN s (a + 6) 2)

/-- The file's channels serve nothing now (R279, R281). -/
def vecWaits (s : State) (a : Nat) : Bool := rangeWaits s a 64 || rangeWaits s a (vecBytes s a)

/-- The checks of R371 in their order, and the records. A file that cannot be read back is a parity fault. -/
def runVecEval (p : Packet) (s : State) : State :=
  let a := pN p 0 8
  let org := tgtOrg p.tgt
  if !vecOk s a then refuse p Status.vecFormat s
  else if !((findPart s org 5).elim false fun q => !q.busy) || (runningOn s org 5).isSome || isLender s org 5 then refuse p Status.partBusy s
  else if readN s (a + 6) 2 = 6 && (s.cap.armed.isSome || capRuns s (pN p 8 1)) then refuse p Status.capBusy s
  else match engineRead 12 p.origin a (vecBytes s a) s with
    | (.gone st, s) => refuse p st s
    | (.got _, s) =>
      let (n, first) := vecRun s a
      if n = 0 then accept p s else reply p Status.vecDiff (BitVec.ofNat 64 (n % 2 ^ 32 + first * 2 ^ 32)) s

/-- VEC_EVAL: it waits while a channel of its file serves nothing; a closed crossing to the near tier refuses it (R46). -/
def opVecEval (p : Packet) (s : State) : State :=
  if tgtShape p.tgt ≠ 5 || decide (31 < pN p 8 1) then refuse p Status.header s
  else if xingClosed s 12 9 then refuse p Status.clockStopped s
  else if vecWaits s (pN p 0 8) then { s with watch := { s.watch with evals := s.watch.evals ++ [p] } }
  else runVecEval p s

/-- VEC_EVALs that waited run once nothing holds them. -/
def runEvals (s : State) : State :=
  s.watch.evals.foldl (fun s p => if vecWaits s (pN p 0 8) then s
    else runVecEval p { s with watch := { s.watch with evals := s.watch.evals.filter fun y => y != p } }) s

/-! ### Watch registers (R362, R366 to R368) -/

/-- A write of WATCH_CTRL. -/
def writeWatchCtrl (v : W64) (s : State) : State :=
  if !s.host.privOpen then lockViolation s
  else
    let n := fld v.toNat 8 16
    let off := s.watch.stallEn && !bitAt v.toNat 0
    let w := { s.watch with
      uflow := BitVec.ofNat 8 (fld v.toNat 24 8), stallN := if n = 0 then s.watch.stallN else BitVec.ofNat 16 n, stallEn := bitAt v.toNat 0
      everOff := s.watch.everOff || off }
    let s := { s with watch := w }
    if off then post Ev.watchOff [] s else s

/-- A write of WATCH_CFG. -/
def writeWatchCfg (v : W64) (s : State) : State :=
  if !s.host.privOpen then lockViolation s
  else
    let a := fld v.toNat 24 8
    let b := fld v.toNat 16 8
    let t := fld v.toNat 0 4
    { s with watch := { s.watch with
        audAt := if 1 ≤ a && a ≤ 24 then BitVec.ofNat 8 a else s.watch.audAt
        audPeriod := if b ≤ 20 then BitVec.ofNat 8 b else s.watch.audPeriod
        tolx := if t = 0 then s.watch.tolx else BitVec.ofNat 4 t } }

/-- STALL_EN_CLEAR. -/
def execStallEnClear (h : HostAccess) (s : State) : Out :=
  orHold h 0x3C0 false (s.watch.uflow.toNat * 2 ^ 24 + s.watch.stallN.toNat * 256) (fun s =>
    if !privReg h s then .next s
    else if !s.host.privOpen then .next (lockViolation s)
    else if s.watch.stallEn then .next (post Ev.watchOff [] { s with watch := { s.watch with stallEn := false, everOff := true } })
    else .next s) s

/-- WATCH_CTRL, WATCH_CFG, FLD_TALLY_n and FLD_AUDIT_n as they are read. -/
def watchCtrl (w : Watch) : Nat := w.uflow.toNat * 2 ^ 24 + w.stallN.toNat * 256 + b2n w.everOff * 2 + b2n w.stallEn
def watchCfg (w : Watch) : Nat := w.audAt.toNat * 2 ^ 24 + w.audPeriod.toNat * 65536 + w.tolx.toNat
def fldTally (f : Field) : Nat := f.mismatch * 2 ^ 32 + f.nonfin * 65536 + f.fallback
def fldAudit (f : Field) : Nat := f.sampled * 2 ^ 32 + f.skipped * 256 + f.overs

/-- Clear the bits of x that v writes as ones. -/
def w1c (x v : Nat) : Nat := x - (x &&& v)

/-- A write of FLD_TALLY_n. -/
def writeTally (n : Nat) (v : W64) (s : State) : State :=
  adjField n (fun f => { f with
    mismatch := w1c f.mismatch (fld v.toNat 32 32), nonfin := w1c f.nonfin (fld v.toNat 16 16), fallback := w1c f.fallback (fld v.toNat 0 16) }) s

/-- A write of FLD_AUDIT_n. -/
def writeAudit (n : Nat) (v : W64) (s : State) : State :=
  adjField n (fun f => { f with
    sampled := w1c f.sampled (fld v.toNat 32 32), skipped := w1c f.skipped (fld v.toNat 8 24), overs := w1c f.overs (fld v.toNat 0 8) }) s

end Sys2Proof.Machine
end

