-- ==== Sys2Proof/Machine/NearStack.lean ====
section
/-! DEFINITION. Near stacks: region table, calibration, refresh, scrub, row repair and retirement, channel migration, stack splice, thermal states (chapter 10);
and the same of the rim stacks (R300, R301, R338, R476). -/

namespace Sys2Proof.Machine

/-! ### Region table (R272, R273) -/

def getRegion (s : State) (n : Nat) : Region := lookupD {} n s.regions
def setRegion (n : Nat) (r : Region) (s : State) : State := { s with regions := upsert n r s.regions }

/-- The entry that a write of the lower half makes with an upper half. -/
def regionFrom (upper lower : W64) : Region :=
  let u := upper.toNat
  let l := lower.toNat
  { chbase := BitVec.ofNat 19 (fld u 32 19), len := BitVec.ofNat 20 (fld u 0 20), valid := bitAt l 63, spread := bitAt l 62
    field := BitVec.ofNat 3 (fld l 59 3), typ := bitAt l 58, base := BitVec.ofNat 19 (fld l 24 19) }

/-- REGION_n as its halves read. -/
def Region.upper (r : Region) : W64 := BitVec.ofNat 64 (r.chbase.toNat * 2 ^ 32 + r.len.toNat)
def Region.lower (r : Region) : W64 :=
  BitVec.ofNat 64 (b2n r.valid * 2 ^ 63 + b2n r.spread * 2 ^ 62 + r.field.toNat * 2 ^ 59 + b2n r.typ * 2 ^ 58 + r.base.toNat * 2 ^ 24)

/-- Bytes an entry uses of each of its channels. -/
def Region.share (r : Region) : Nat := r.len.toNat * (if r.spread then 512 else 4096)
def Region.chFirst (r : Region) : Nat := r.chbase.toNat * 512
/-- Two entries use a common channel. -/
def shareChannel (a b : Region) : Bool := a.spread || b.spread || a.field == b.field

/-- The first failing check of R273, by its reason code. -/
def regionReason (s : State) (n : Nat) (r : Region) : Option Nat :=
  let others := (s.regions.filter fun (k, x) => k != n && x.valid).map (·.2)
  if r.len = 0 || 524288 < r.base.toNat + r.len.toNat then some 1
  else if r.spread && r.field != 0 then some 2
  else if r.typ && r.len.toNat % 2 == 1 then some 3
  else if others.any fun x => decide (r.first < x.first + x.bytes) && decide (x.first < r.first + r.bytes) then some 4
  else if 2 ^ 28 < r.chFirst + r.share then some 5
  else if others.any fun x =>
    shareChannel r x && decide (r.chFirst < x.chFirst + x.share) && decide (x.chFirst < r.chFirst + r.share) then some 6
  else none

/-- A write of bits [127:64]. -/
def writeRegionUpper (n : Nat) (v : W64) (s : State) : State :=
  if s.host.privOpen then setRegion n { getRegion s n with staged := some v } s else lockViolation s

/-- A write of bits [63:0]. -/
def writeRegionLower (n : Nat) (v : W64) (s : State) : State :=
  if !s.host.privOpen then lockViolation s
  else
    let old := getRegion s n
    let r := regionFrom (old.staged.getD old.upper) v
    match (if r.valid then regionReason s n r else none) with
    | some k => post Ev.regionReject (det [(1, k)]) (setRegion n { old with staged := none } s)
    | none => setRegion n r s

/-- REGION_STAGE. -/
def execRegionStage (h : HostAccess) (n : Nat) (v : W64) (s : State) : Out :=
  orHold h (0x800 + 16 * n + 8) true v.toNat (fun s => if privReg h s then .next (writeRegionUpper n v s) else .next s) s

/-- REGION_WRITE. -/
def execRegionWrite (h : HostAccess) (n : Nat) (v : W64) (s : State) : Out :=
  orHold h (0x800 + 16 * n) true v.toNat (fun s => if privReg h s then .next (writeRegionLower n v s) else .next s) s

/-! ### The inverse of the interleave hash (R275, R290) -/

/-- RPL_DATA as it is read: lower and upper half. -/
def rplData (s : State) : W64 × W64 :=
  match s.near.retired[s.near.rplIndex.toNat]? with
  | none => (0, 0)
  | some x =>
    let up := BitVec.ofNat 64 (x.stack * 2 ^ 24 + x.chan * 2 ^ 19 + x.bank * 2 ^ 15 + x.row)
    match granuleOf s x with
    | some (a, _) => (BitVec.ofNat 64 (2 ^ 63 + a / 4096 * 4096), up)
    | none => (0, up)

/-! ### Stack splice and channel migration (R292 to R296) -/

/-- The waiting migrations of a stack: each that can start no migration has its own outcome (R295, R296). -/
def nextMigrations (n : Nat) : Nat → State → State
  | 0, s => s
  | k + 1, s =>
    let x := getStack s n
    match x.waiting with
    | c :: r => if x.migrating.isSome || x.splicing then s else nextMigrations n k (startMigration n c (setStack n { x with waiting := r } s))
    | [] => s

def nextMigration (n : Nat) (s : State) : State := nextMigrations n (getStack s n).waiting.length s

/-- CH_MIGRATE: persistent transport parity of a channel (R461, R462); a row whose burst could not be read intact is restored (R289). -/
def execChMigrate (n c : Nat) (row : Option Nat) (s : State) : Out :=
  .next (needMigration n c (row.elim s fun rw => restoreGranule (rowAt n c (rw % 524288)) s))

/-- STACK_SPLICE: the interface block reports a fault of the whole stack (R295); where no spare is left, the event's channel is a free value. -/
def execStackSplice (n : Nat) (s : State) : Out :=
  let (v, s) := draw s
  .next (needSplice n (v.setWidth 8) 8 s)

/-- The counts of a stack or channel that has moved to other hardware begin anew; the rows' repairs stay with the old hardware. -/
def freshChannel (c : Nat) (x : Stack) : Stack :=
  { x with
    repaired := x.repaired.filter fun k => k / 524288 != c
    rowHits := x.rowHits.filter fun (k, _) => k / 524288 != c }

/-- The spare stack takes the logical stack's ID, each logical channel on a channel of it that works. -/
def switchStack (n : Nat) (s : State) : State :=
  let x := getStack s n
  let old := physStack s n
  let map := (usable s (spareStack n)).getD []
  let s := journalRecord s
  let s := { s with store := { s.store with badStacks := old :: s.store.badStacks } }
  let s := setStack n { x with spliced := true, splicing := false, chanMap := map, repaired := [], rowHits := [], margins := [] } s
  record 8 6 0 3 (unitOf 1 (physStack s n)) (BitVec.ofNat 32 n) 0 0 [] s

/-- The spare stack fails during the splice: recorded, and the stack stays on its own hardware. -/
def spliceFails (n : Nat) (chan : Byte) (s : State) : State :=
  let x := getStack s n
  let s := setStack n { x with splicing := false } { s with store := { s.store with badStacks := spareStack n :: s.store.badStacks } }
  needSplice n chan 8 s

/-- The copier's walk of a migrating channel ends (R293), or its spare fails (R294). -/
def switchChannel (n c : Nat) (spareFailed : Bool) (s : State) : State :=
  let x := getStack s n
  let spare := (freeSpares s n).headD 32
  let bad (p : Nat) (s : State) : State := { s with store := { s.store with badChannels := (physStack s n, p) :: s.store.badChannels } }
  if spareFailed then
    let s := bad spare (setStack n { x with migrating := none } s)
    nextMigration n (startMigration n c (record 7 0 2 3 (chanUnitOf (physStack s n) spare) 0xFFFFFFFF 0 0 [] s))
  else
    let s := bad (physChan x c) (journalRecord s)
    let x := freshChannel c { x with migrating := none, chanMap := upsert c spare x.chanMap, margins := delKey c x.margins }
    nextMigration n (postMigrate n c 0 (setStack n x s))

/-- MIGRATION_SWITCH. The copier stands still while the stack is quiesced (R279). -/
def execMigrationSwitch (n c : Nat) (spareFailed : Bool) (s : State) : Out :=
  let x := getStack s n
  if x.thermal == .quiesced && !spareFailed then .next s
  else if x.splicing then .next (if spareFailed then spliceFails n (BitVec.ofNat 8 c) s else switchStack n s)
  else if x.migrating == some c then .next (switchChannel n c spareFailed s)
  else .next s

/-! ### Row repair and retirement (R286 to R291) -/

/-- The channel row of a row of a bank, with its channel (R275). -/
def rowKey (x : Retired) : Nat := x.chan * 524288 + x.row * 16 + (x.bank ^^^ (x.row % 16))

/-- Repairs of a bank of a physical channel, soft or hard. -/
def bankRepairs (s : State) (ch bank : Nat) (hard : Bool) : Nat := (s.store.repairs.filter fun r => r.chan == ch && r.bank == bank && r.hard == hard).length

/-- The spare that serves a row is itself failing: it is retired (R288). -/
def retireSpare (ch bank row : Nat) (s : State) : State :=
  { s with store := { s.store with repairs := s.store.repairs.map fun r =>
      if r.chan = ch && r.bank = bank && r.row = row then { r with dead := true } else r } }

/-- A failing row: the bank's next soft spare takes it, or it is retired; with the module's list full its stack is spliced (R286 to R291). A granule that could not
be read is restored by R289. -/
def repairRow (x : Retired) (readable : Bool) (s : State) : State :=
  let st := getStack s x.stack
  let ch := chanNo s x.stack x.chan
  let u := chanUnit s x.stack x.chan
  let lg := chanLogical x.stack x.chan
  let cls := if readable then 5 else 6
  if s.near.retired.contains x then s
  else
    let s := retireSpare ch x.bank x.row s
    if bankRepairs s ch x.bank false < 8 then
      let s := setStack x.stack { st with repaired := if st.repaired.contains (rowKey x) then st.repaired else rowKey x :: st.repaired
                                          rowHits := delKey (rowKey x) st.rowHits } s
      let s := { s with store := { s.store with repairs := s.store.repairs ++ [{ chan := ch, bank := x.bank, row := x.row }] } }
      let s := record cls 7 0 3 u lg 0 0 (det [(1, x.bank), (4, x.row)]) s
      let s := if readable then s else restoreGranule x s
      if 64 < ((getStack s x.stack).repaired.filter fun k => k / 524288 == x.chan).length then needMigration x.stack x.chan s else s
    else if s.near.retired.length < 16384 then
      let s := { s with near := { s.near with retired := s.near.retired ++ [x] } }
      ledgerRec cls 7 3 u lg 0 (det [(1, x.bank), (4, x.row)]) (postFull Ev.pageRetired 3 u 0 0 [] s)
    else needSplice x.stack (BitVec.ofNat 8 x.chan) cls (if readable then s else restoreGranule x s)

/-- The copier walks this channel: its migration runs, or its stack's splice. -/
def copies (s : State) (n c : Nat) : Bool := (getStack s n).splicing || (getStack s n).migrating == some c

/-- ROW_REPAIR: a read of the row was uncorrectable (not readable), or its third corrected read in the lap. A row that the copier of a migration could not read is
restored on the new channel (R294). -/
def execRowRepair (n c bank row : Nat) (readable copier : Bool) (s : State) : Out :=
  let x : Retired := { stack := n, chan := c, bank := bank, row := row % 32768 }
  if copier then .next (if copies s n c && !readable then restoreGranule x s else s)
  else .next (repairRow x readable s)

/-! ### Calibration, refresh, scrub -/

/-- TURN_BOUNDARY (R282): NS_CAL_NEXT takes the slot of the next turn, a beat edge of it, or zero. -/
def execTurnBoundary (slot : CtWord) (s : State) : Out :=
  let t := ctTurn s.cad.ct
  let real := slot == 0 || (ctTurn slot == t + 1 && slot.toNat % 65536 == 0)
  if ctRuns s && ctBeat s.cad.ct == 0 && real then
    let n := s.near
    .next { s with near := { n with calNext := slot, calSlot := if ctTurn n.calNext = t then n.calNext else if ctTurn n.calSlot = t then n.calSlot else 0 } }
  else .next s

/-- CALIBRATION_SLOT (R281, R283): one channel of a stack in an announced slot, behind the events of that CT (R38), its channels in turn, at most once in 64 turns; the widths of the two timing eyes in
picoseconds of the 500 ps unit interval, the height of the voltage eye in millivolts. -/
def execCalibrationSlot (n c t1 t2 vref : Nat) (trained : Bool) (s : State) : Out :=
  let x := getStack s n
  let t := ctTurn s.cad.ct
  let rested := x.calLast.elim true fun y => decide (y.1 + 64 ≤ t)
  if inSlot s && inTurn (s.near.calSlot.toNat, 5, 0) s && x.thermal != .quiesced && c == x.calChan && rested then
    let weak := decide (t1 < 150) || decide (t2 < 150) || decide (vref < 40)
    let s := setStack n { x with calLast := some (t, c), calChan := (c + 1) % 32, margins := upsert c (t1, t2, vref) x.margins } s
    .next (if weak || !trained then needMigration n c s else s)
  else .next s

/-- The present CT while it runs; the beginning of a time that is measured in it. -/
def nowCt (s : State) : Option CtWord := if ctRuns s then some s.cad.ct else none
def startOf (s : State) (t : Option CtWord) : Option CtWord := if t.isSome then t else nowCt s

/-- Refresh time up to now, in picoseconds of the 3.9 µs interval; above 85 °C it runs twice as fast (R278). -/
def refreshTime (s : State) (x : Stack) : Nat := x.refreshPs + (x.refreshAt.elim 0 (sincePs s)) * (if x.temp ≤ 85 then 1 else 2)

/-- Refresh intervals that a channel owes (R281). -/
def owed (s : State) (x : Stack) (c : Nat) : Nat := refreshTime s x / 3900000 - lookupD 0 c x.refreshed

/-- REFRESH (R281): a channel refreshes, unless foreground bursts are queued (`busy`) and no more than 8 intervals are owed. -/
def execRefresh (n c : Nat) (busy : Bool) (s : State) : Out :=
  let x := getStack s n
  if busy && decide (owed s x c ≤ 8) then .next s
  else .next (setStack n { x with refreshed := adjust 0 c (· + 1) x.refreshed } s)

/-- Seconds of the running lap of the near tier. -/
def lapSeconds (s : State) : Nat := s.near.lapStart.elim 0 fun t => sincePs s t / 10 ^ 12

/-- Every logical channel has been read once in this lap (R284). -/
def lapDone (s : State) : Bool := (List.range 1024).all fun n => (List.range 32).all fun c => lookupD 0 c (getStack s n).scrubAt == 524288

/-- The tier's lap ends once every channel has had its pass; the rule on latent faults holds again after a later lap within the bound (R284, R285). -/
def endLap (s : State) : State :=
  let r := s.near
  let good := !r.lapStarved && decide (lapSeconds s ≤ r.bound.toNat * 60)
  if lapDone s then { s with near := { r with
    lap := BitVec.ofNat 32 (lapSeconds s), lapStart := none, lapStarved := false, starvedForce := r.starvedForce && !good
    units := mapVals (fun (y : Stack) => { y with rowHits := [], scrubAt := [] }) r.units } }
  else s

/-- What scrub finds in a row: a third corrected read in the lap, or an uncorrectable one, makes it a failing row (R286). -/
def scrubFinds (n c rw : Nat) (r : ArrayRead) (s : State) : State :=
  match r with
  | .ok => s
  | .bad => repairRow (rowAt n c rw) false s
  | .corrected =>
    let x := getStack s n
    let key := c * 524288 + rw
    let hits := lookupD 0 key x.rowHits + 1
    let s := setStack n { x with corrected := satAdd 32 x.corrected 1, rowHits := upsert key hits x.rowHits } s
    let s := record 5 0 0 3 (chanUnit s n c) (chanLogical n c) 0 0 (det [(4, rw), (4, hits)]) s
    if 3 ≤ hits then repairRow (rowAt n c rw) true s else s

/-- SCRUB: an idle slot reads the next row of a channel; the order of a channel's rows is the model's (DESIGN CHOICE, assumption 99). -/
def execScrub (n c : Nat) (r : ArrayRead) (s : State) : Out :=
  let x := getStack s n
  let rw := lookupD 0 c x.scrubAt
  if x.thermal == .quiesced || rw == 524288 || decide (1024 ≤ n) || decide (32 ≤ c) then .next s
  else
    let s := { s with near := { s.near with lapStart := startOf s s.near.lapStart } }
    .next (endLap (scrubFinds n c rw r (setStack n { x with scrubAt := upsert c (rw + 1) x.scrubAt } s)))

/-- SCRUB_STARVED (R285): the running lap exceeds its bound. -/
def execScrubStarved (s : State) : Out :=
  if !s.near.lapStarved && decide (s.near.bound.toNat * 60 < lapSeconds s) then
    .next (post Ev.scrubStarved [] { s with near := { s.near with starved := true, starvedForce := true, lapStarved := true } })
  else .next s

/-! ### Rim stacks (R300, R301, R338, R476) -/

def rimLapSeconds (s : State) : Nat := s.cap.rimLapStart.elim 0 fun t => sincePs s t / 10 ^ 12

/-- The running rim lap exceeds its bound: once per lap. -/
def rimStarve (s : State) : State :=
  if !s.cap.rimLapStarved && decide (s.cap.rimBound.toNat * 60 < rimLapSeconds s) then
    post Ev.scrubStarved [] { s with cap := { s.cap with rimStarved := true, rimStarvedForce := true, rimLapStarved := true } }
  else s

/-- The rim lap ends once every capstan that works has had its pass. -/
def endRimLap (s : State) : State :=
  let r := s.cap
  let good := !r.rimLapStarved && decide (rimLapSeconds s ≤ r.rimBound.toNat * 60)
  if (List.range 32).all fun k => (getCapstan s k).failed || (getCapstan s k).scrubAt == rimUnits then { s with cap := { r with
    rimLap := BitVec.ofNat 32 (rimLapSeconds s), rimLapStart := none, rimLapStarved := false, rimStarvedForce := r.rimStarvedForce && !good
    capstans := mapVals (fun (y : Capstan) => { y with rimHits := [], scrubAt := 0 }) r.capstans } }
  else s

/-- A capstan's scrub reads its next unit in an idle slot. -/
def rimStep (k row : Nat) (r : ArrayRead) (s : State) : State :=
  let c := getCapstan s k
  if c.failed || c.rebuilding || c.rimThermal == .quiesced || c.scrubAt == rimUnits || decide (32 ≤ k) then s
  else
    let s := { s with cap := { s.cap with rimLapStart := startOf s s.cap.rimLapStart } }
    endRimLap (rimFinds k c.scrubAt row r (setCapstan k { c with scrubAt := c.scrubAt + 1 } s))

/-- RIM_SCRUB (R476): a capstan reads its next unit, in a row of its stack, or finds no idle slot; a lap beyond its bound is starved. -/
def execRimScrub (k : Nat) (r : Option (Nat × ArrayRead)) (s : State) : Out :=
  match r with
  | some (row, r) => .next (rimStarve (rimStep k row r s))
  | none => .next (rimStarve s)

/-! ### The scrub registers -/

/-- NS_SCRUB and RIM_SCRUB as they are read. -/
def scrubReg (lap : W32) (starved : Bool) (bound : BitVec 16) : W64 := BitVec.ofNat 64 (lap.toNat * 2 ^ 32 + b2n starved * 65536 + bound.toNat)

/-- A write of NS_SCRUB: STARVED is W1C, BOUND is RWL. -/
def writeNsScrub (v : W64) (s : State) : State :=
  let b := fld v.toNat 0 16
  let s := { s with near := { s.near with starved := s.near.starved && !bitAt v.toNat 16 } }
  if !s.host.privOpen then lockViolation s
  else if b = 0 then s else { s with near := { s.near with bound := BitVec.ofNat 16 b } }

/-- A write of RIM_SCRUB. -/
def writeRimScrub (v : W64) (s : State) : State :=
  let b := fld v.toNat 0 16
  let s := { s with cap := { s.cap with rimStarved := s.cap.rimStarved && !bitAt v.toNat 16 } }
  if !s.host.privOpen then lockViolation s
  else if b = 0 then s else { s with cap := { s.cap with rimBound := BitVec.ofNat 16 b } }

/-! ### Thermal states (R278, R279) -/

def Thermal.code : Thermal → Nat
  | .full => 0 | .t75 => 1 | .t50 => 2 | .t25 => 3 | .quiesced => 4

/-- The state after a beat edge at a temperature, with hot and cool counting the beats of the present state. -/
def thermalNext (t : Thermal) (temp : Int) (hot cool : Nat) : Thermal :=
  if 105 < temp then .quiesced
  else match t with
    | .full => if 95 ≤ temp then .t75 else .full
    | .t75 => if 256 ≤ hot then .t50 else if 256 ≤ cool then .full else .t75
    | .t50 => if 256 ≤ hot then .t25 else if 256 ≤ cool then .t75 else .t50
    | .t25 => if 256 ≤ cool then .t50 else .t25
    | .quiesced => if temp ≤ 100 then .t25 else .quiesced

/-- The readings as they are held after two samples (R44), and the highest (R278). -/
def heldReadings (held a b : List Int) : List Int := (a.zip b).zipIdx.map fun ((x, y), k) => doubleSample (held.getD k 0) x y
def highest : List Int → Int
  | [] => 0
  | x :: r => r.foldl max x

/-- A near stack at a beat edge with its reported temperature. -/
def stackThermal (n : Nat) (readings : List Int) (s : State) : State :=
  let x := getStack s n
  let temp := highest readings
  let hot := if 95 ≤ temp then x.hot + 1 else 0
  let cool := if temp < 92 then x.cool + 1 else 0
  let t := thermalNext x.thermal temp hot cool
  let x := { x with sensors := readings, temp, refreshPs := refreshTime s x, refreshAt := nowCt s }
  if t = x.thermal then setStack n { x with hot, cool } s
  else post Ev.nsThermal (det [(2, n), (1, t.code)]) (setStack n { x with hot := 0, cool := 0, thermal := t } s)

/-- A rim stack at a beat edge: the states and thresholds of R279 (R300, R301); no event, as the rule gives a rim stack no stack ID (DESIGN CHOICE,
assumption 101). -/
def rimStackThermal (k : Nat) (readings : List Int) (s : State) : State :=
  let x := getCapstan s k
  let temp := highest readings
  let hot := if 95 ≤ temp then x.hot + 1 else 0
  let cool := if temp < 92 then x.cool + 1 else 0
  let t := thermalNext x.rimThermal temp hot cool
  let same := t == x.rimThermal
  setCapstan k { x with rimSensors := readings, rimTemp := temp, hot := if same then hot else 0, cool := if same then cool else 0, rimThermal := t } s

/-- What waited for channels that serve again. -/
def resumeAccess (s : State) : State := pumpAll (serveFetches (runEvals (runLoads (takeHeld (serveAper s)))))

/-- BEAT_EDGE: CT and all that runs by beats; a run's pass beats close, and what waited for a channel's calibration slot or a rim stack goes on (R34, R63, R281). -/
def execBeatEdge (b : BeatSignal) (stuck : List Nat) (s : State) : Out := .next (resumeAccess (closePassing (beatEdge b stuck s)))

/-- NS_THERMAL: a beat edge with two samples of each sensor of a near stack, or of a capstan's rim stack. -/
def execNsThermal (n : Nat) (rim : Bool) (a b : List Int) (s : State) : Out :=
  if rim then .next (if n < 32 then resumeAccess (rimStackThermal n (heldReadings (getCapstan s n).rimSensors a b) s) else s)
  else .next (resumeAccess (stackThermal n (heldReadings (getStack s n).sensors a b) s))

end Sys2Proof.Machine
end

