-- ==== Sys2Proof/Machine/Links.lean ====
section
/-! DEFINITION. Hawser ports: training, qualification, discovery, flits received, lane sparing, loss of a port, the cabling plan and PORT_CTRL
(chapter 13, R372 to R395, R406 to R408). -/

namespace Sys2Proof.Machine

def planOf (s : State) (n : Nat) : PlanEntry := lookupD {} n s.store.plan.entries

/-- The port exchanges flits. -/
def HPort.trained (p : HPort) : Bool :=
  p.state == .qualifying || p.state == .discovery || p.state == .active || p.state == .miscabled || p.state == .planMismatch

/-- A new state: its beats and HELLOs start anew. -/
def enter (st : PortState) (p : HPort) : HPort := { p with state := st, beats := 0, heardHello := false }

/-- The packets of a send buffer and a replay buffer are gone (R395). -/
def dropBuffers (p : HPort) : HPort := { p with replay := [], sendQ := [], outs := [], slot := [], rxPart := [], swap := none, rejects := 0, nakSent := false }

/-- A port that becomes ACTIVE starts with the full buffers as credit (R380). -/
def enterActive (p : HPort) : HPort :=
  { dropBuffers (enter .active p) with
    heardHello := true, rxNext := 0, txNext := 0, turn := (0, 512), credits := [(0, 8192), (1, 8192), (2, 1024), (3, 0)], creditAt := [] }

/-- A port goes down (R395); the record's event is HAW_PORT_DOWN (R482). -/
def portDown (n : Nat) (s : State) : State :=
  let s := loseOutcome n s
  record 14 0 1 3 (unitOf 4 n) 0xFFFFFFFF 0 0 [] (setPort n (enter .failed (dropBuffers (getPort s n))) s)

/-! ### Training and qualification (R384 to R386) -/

/-- EARLY_SIGNAL. -/
def execEarlySignal (n : Nat) (s : State) : Out :=
  if s.bu.linkOpen then .next s
  else .next (setPort n { getPort s n with earlySignal := satAdd 8 (getPort s n).earlySignal 1 } s)

/-- A port starts from TRAINING with all its lanes; one that is not EXPECTED stays in electrical idle. -/
def startTraining (n : Nat) (s : State) : State :=
  let s := loseOutcome n s
  let p := dropBuffers (getPort s n)
  let p := { p with laneFail := 0, spareInUse := false, width4 := false, disable := false, lanes := List.range 8 }
  setPort n (enter (if (planOf s n).expected then .training else .off) p) s

/-- PORT_TRAINING at the stagger time of the port. -/
def execPortTraining (n ms : Nat) (s : State) : Out :=
  if s.bu.linkOpen && (getPort s n).state == .off && (planOf s n).expected && decide (4 * n ≤ ms) then .next (startTraining n s) else .next s

/-- TRAINING_END. -/
def execTrainingEnd (n : Nat) (ok : Bool) (s : State) : Out :=
  let p := getPort s n
  if p.state == .training then .next (setPort n (enter (if ok then .qualifying else .failed) { p with qualBad := [] }) s) else .next s

/-! ### Lanes (R382, R383) -/

/-- Physical lanes that have not failed. -/
def HPort.healthy (p : HPort) : List Nat := (List.range 9).filter fun l => !p.laneFail.getLsbD l

/-- Errors of a lane: uncorrectable codewords before corrected bits (the spec does not say which errors count: DESIGN CHOICE, assumption 98). -/
def HPort.errors (p : HPort) (l : Nat) : Nat := lookupD 0 l p.badWords * 2 ^ 64 + lookupD 0 l p.bitErrs

/-- Insert a lane before the first with more errors. -/
def insertLane (p : HPort) (l : Nat) : List Nat → List Nat
  | [] => [l]
  | k :: r => if p.errors l < p.errors k then l :: k :: r else k :: insertLane p l r

/-- The n lanes of a list with the fewest errors, in rising order; of two equal ones the lower lane (DESIGN CHOICE, assumption 98). -/
def bestLanes (n : Nat) (p : HPort) (l : List Nat) : List Nat :=
  let best := (l.foldl (fun a k => insertLane p k a) []).take n
  (List.range 9).filter fun k => best.contains k

/-- Four-lane mode on the four healthy lanes with the fewest errors (R383). -/
def fourLanes (p : HPort) : HPort :=
  let l := bestLanes 4 p p.healthy
  { p with width4 := true, lanes := l, spareInUse := l.contains 8, swap := none }

/-- The spare can take a lane. -/
def spareFree (p : HPort) : Bool := !p.spareInUse && !p.laneFail.getLsbD 8 && !p.width4 && p.swap.isNone

/-- A lane fails while the spare cannot take it: four lanes, or none (R383). -/
def narrow (n l : Nat) (s : State) : State :=
  let p := (getPort s n).failLane l
  if p.healthy.length < 4 then portDown n (laneRecord n l 3 (setPort n p s))
  else if p.width4 && !p.lanes.contains l then laneRecord n l 3 (setPort n p s)
  else laneRecord n l 3 (postPort Ev.hawDegraded n [] (setPort n (fourLanes p) s))

/-- This receiver sends LANE_SWAP for a physical lane: the spare takes its logical lane from a received sequence on, at once while no DATA flits flow (DESIGN CHOICE,
assumption 98). -/
def askSwap (n l ahead : Nat) (s : State) : State :=
  let p := getPort s n
  let sq := (p.rxNext + max 64 ahead) % 2 ^ 20
  let q := { p with swap := some (p.lanes.idxOf l, 8, sq, true) }
  putPort n (if p.state == .active then q else applySwap true sq q) (setPort n q s)

/-- Physical lane l fails in service (R382, R383). -/
def laneFails (n l ahead : Nat) (s : State) : State :=
  let p := getPort s n
  if p.laneFail.getLsbD l then s
  else if !p.lanes.contains l then laneRecord n l 0 (setPort n (p.failLane l) s)
  else if spareFree p then askSwap n l ahead s
  else if p.swap.elim false fun x => p.lanes.getD x.1 8 == l then s
  else narrow n l s

/-- Uncorrectable codewords of a lane within so many picoseconds. -/
def lostIn (s : State) (p : HPort) (l ps : Nat) : Nat := (p.lost.filter fun x => x.2 == l && decide (sincePs s x.1 ≤ ps)).length

/-- LANE_SWAP: a lane's errors pass a bound of R382 in a window of 1 s, or the peer asks for the swap of a logical lane from a sequence on. -/
def execLaneSwap (n l ahead : Nat) (c : LaneCause) (s : State) : Out :=
  let p := getPort s n
  if !p.trained then .next s
  else match c with
    | .ratio errors bits => if decide (l ≤ 8) && decide (bits < errors * 100000) then .next (laneFails n l ahead s) else .next s
    | .words => if decide (l ≤ 8) && decide (2 ≤ lostIn s p l (10 ^ 12)) then .next (laneFails n l ahead s) else .next s
    | .peer h sq =>
      let s := putPort n (takeHead s.cad.ct h p) s
      let p := getPort s n
      let q := if spareFree p && decide (l < p.lanes.length) then { p with swap := some (l, 8, sq, false) } else p
      .next (putPort n (if q.state == .active then q else applySwap false sq q) (setPort n q s))

/-- A lane passes its qualification (R384): errors among fewer than one of 100,000 bits of the first half, in both directions, and no uncorrectable codeword and no CRC
failure since (one of the port's QUALIFYING state is one of the second half: the first half's PRBS31 holds no flit). -/
def HPort.passes (p : HPort) (l : Nat) (t : LaneTest) : Bool := decide (t.errors * 100000 < t.bits) && t.peer && !p.qualBad.contains l

/-- LANE_FAIL from the lanes that pass. -/
def failBits (pass : List Bool) : BitVec 9 :=
  (List.range 9).foldl (fun b l => if pass.getD l false then b else b ||| ((1 : BitVec 9) <<< l)) 0

/-- The lanes of a qualified port: 0 to 7, the spare in place of the one that fails, or four. -/
def qualified (p : HPort) : HPort :=
  let good := p.healthy
  if good.length < 8 then fourLanes p
  else
    let l := (List.range 8).map fun k => if good.contains k then k else 8
    { p with lanes := l, spareInUse := l.contains 8, width4 := false }

/-- QUALIFICATION_END (R384). -/
def execQualificationEnd (n : Nat) (lanes : List LaneTest) (s : State) : Out :=
  let p := getPort s n
  if p.state != .qualifying then .next s
  else
    let p : HPort := { p with laneFail := failBits (lanes.zipIdx.map fun (t, l) => p.passes l t) }
    if p.healthy.length < 4 then .next (setPort n (enter .failed p) s)
    else
      let p := qualified p
      let s := setPort n (enter .discovery p) s
      .next (if p.width4 then postPort Ev.hawDegraded n [] s else s)

/-! ### Discovery (R387 to R389) -/

/-- The body of a HELLO flit (R388). -/
def helloBody (h : Hello) : List Byte :=
  toLE 8 h.serial.toNat ++ toLE 1 h.port ++ toLE 3 (b2n h.ack) ++ toLE 4 h.coord.toNat ++ toLE 4 h.planId.toNat ++ toLE 8 h.echo.toNat ++ List.replicate 600 0

def parseHello (b : List Byte) : Hello :=
  { serial := BitVec.ofNat 64 (item b 0 8), port := item b 8 1, ack := bitAt (item b 9 1) 0, coord := BitVec.ofNat 32 (item b 12 4)
    planId := BitVec.ofNat 32 (item b 16 4), echo := BitVec.ofNat 64 (item b 20 8) }

/-- The state that a HELLO decides for a port. -/
def judgeHello (s : State) (n : Nat) (h : Hello) : PortState :=
  let e := planOf s n
  if h.serial = s.store.serial then .miscabled
  else if h.planId ≠ s.store.plan.id then .planMismatch
  else if h.coord ≠ e.peerCoord || h.port ≠ e.peerPort || (e.serialCheck && h.serial != e.peerSerial) then .miscabled
  else if h.ack && h.echo == s.store.serial then .active
  else .discovery

/-- A HELLO flit is received. -/
def takeHello (n : Nat) (d : FlitHead) (h : Hello) (s : State) : State :=
  let s := putPort n (takeHead s.cad.ct d (getPort s n)) s
  let p := getPort s n
  if !p.trained || p.state == .qualifying then s
  else
    let st := judgeHello s n h
    let s := if p.state == .active && st != .active then loseOutcome n s else s
    let p := { p with peerCoord := h.coord, peerPort := h.port, echo := h.serial }
    let q :=
      if st = p.state then { p with heardHello := true }
      else if st = .active then enterActive p
      else { (if p.state = .active then dropBuffers (enter st p) else enter st p) with heardHello := true }
    let s := setPort n q s
    match st with
    | .miscabled => postPort Ev.hawMiscable n (det [(8, h.serial.toNat), (1, h.port), (4, h.coord.toNat)]) s
    | .planMismatch => postPort Ev.hawPlan n [] s
    | .active => if p.state = .active then s else postPort Ev.hawUp n [] s
    | _ => s

/-- HELLO. -/
def execHello (n : Nat) (d : FlitHead) (h : Hello) (s : State) : Out := .next (takeHello n d h s)

/-- The HELLO that a port sends. -/
def ownHello (s : State) (n : Nat) : Hello :=
  let p := getPort s n
  { serial := s.store.serial, port := n, ack := p.heardHello, coord := s.store.plan.coord, planId := s.store.plan.id, echo := p.echo }

/-- HELLO_SEND: once per beat, or every 64 beats when ACTIVE. -/
def execHelloSend (n : Nat) (s : State) : Out :=
  let p := getPort s n
  let due := match p.state with
    | .active => decide (64 ≤ p.sinceHello)
    | .discovery | .miscabled | .planMismatch => decide (1 ≤ p.sinceHello)
    | _ => false
  if due then .next (setPort n { p with sinceHello := 0, hello := some (ownHello s n) } s) else .next s

/-- DISCOVERY_TIMEOUT. -/
def execDiscoveryTimeout (n : Nat) (s : State) : Out :=
  let p := getPort s n
  if p.state == .discovery && !p.heardHello && decide (1024 ≤ p.beats) then .next (setPort n (enter .failed p) s) else .next s

/-! ### Flits received (R375 to R381) -/

/-- NAK: every DATA flit after its ACK is sent again, in order (R378). -/
def takeNak (n : Nat) (d : FlitHead) (s : State) : State :=
  let p := getPort s n
  if p.state != .active then s
  else
    let l := (afterAck d.ack p.replay).map fun x => (x.1, x.1 % max 1 p.lanes.length, x.2.2)
    let q := { p with replay := l, resent := satAdd 32 p.resent l.length }
    let q := takeHead s.cad.ct d { q with outs := q.outs.filter fun x => p.replay.all (fun y => y.1 != x.2.2.2) || l.any fun y => y.1 == x.2.2.2 }
    putPort n { q with slot := lastSlot q.replay.length q } s

def execNak (n : Nat) (d : FlitHead) (s : State) : Out := .next (takeNak n d s)

/-- IDLE_FLIT. -/
def execIdleFlit (n : Nat) (d : FlitHead) (s : State) : Out := .next (putPort n (takeHead s.cad.ct d (getPort s n)) s)

/-- The lane with the most uncorrectable codewords in the last 1 ms; of two equal ones the lower (DESIGN CHOICE, assumption 98). -/
def worstLane (s : State) (p : HPort) : Nat :=
  p.lanes.foldl (fun a l => if lostIn s p a (10 ^ 9) < lostIn s p l (10 ^ 9) then l else a) (p.lanes.getD 0 0)

/-- The next DATA flit is rejected: a NAK whose ACK is the last good one; at the eighth time in a row a lane is swapped, or the port goes down (R378, R379). -/
def rejectFlit (n : Nat) (s : State) : State :=
  let p := getPort s n
  let q := { p with rejects := p.rejects + 1, nakSent := true, nakAck := lastGood p, naks := satAdd 32 p.naks 1 }
  if q.rejects < 8 then setPort n q s
  else if spareFree p then laneFails n (worstLane s p) 64 (setPort n { q with rejects := 0 } s)
  else portDown n s

/-- A DATA flit that is intact: accepted in order, rejected, or discarded after a NAK (R378). -/
def takeData (n sq : Nat) (body : List Byte) (s : State) : State :=
  let p := getPort s n
  if sq = p.rxNext then
    let p := applySwap true sq p
    putPort n (takeBody (body.length + 1) body { p with rxNext := (sq + 1) % 2 ^ 20, nakSent := false, rejects := 0 }) s
  else if p.nakSent then s
  else rejectFlit n s

/-- A flit that cannot be read: the next DATA flit is rejected where it was due on this lane; a lane in qualification fails (R384). -/
def lostFlit (n lane : Nat) (s : State) : State :=
  let p := getPort s n
  if p.state == .qualifying then setPort n { p with qualBad := lane :: p.qualBad } s
  else if p.state == .active && p.lanes.getD (p.rxNext % max 1 p.lanes.length) 9 == lane then rejectFlit n s else s

/-- An intact flit by its FTYPE (R375). The swap that a LANE_SWAP flit names comes with the LANE_SWAP command, as its body has no layout in the spec
(assumption 92). -/
def takeFlit (n : Nat) (b : List Byte) (s : State) : State :=
  let d := flitHead b
  match flitType b with
  | 0 => if (getPort s n).state == .active then takeData n (flitSeq b) (flitBody b) (putPort n (takeHead s.cad.ct d (getPort s n)) s) else s
  | 1 | 4 => putPort n (takeHead s.cad.ct d (getPort s n)) s
  | 2 => takeHello n d (parseHello (flitBody b)) s
  | 3 => takeNak n d s
  | _ => setPort n { getPort s n with formatErr := (getPort s n).formatErr + 1 } s

/-- The error counters of a lane (R382, R551). -/
def countWord (s : State) (lane : Nat) (w : Codeword) (p : HPort) : HPort :=
  match w with
  | .flit 0 _ => p
  | .overrun _ => p
  | .flit n _ => { p with bitErrs := adjust 0 lane (fun x => satAdd 64 x n) p.bitErrs, fixedWords := adjust 0 lane (fun x => satAdd 32 x 1) p.fixedWords }
  | .bad => { p with
      badWords := adjust 0 lane (fun x => satAdd 32 x 1) p.badWords
      lost := (s.cad.ct, lane) :: p.lost.filter fun x => decide (sincePs s x.1 ≤ 10 ^ 12) }

/-- FLIT_DATA: a codeword on a physical lane of a trained port. A flit that the full FIFO behind the port discards is an overrun, and is resent like one that cannot be
read (R45, R378). -/
def execFlitData (n lane : Nat) (w : Codeword) (s : State) : Out :=
  let p := getPort s n
  if !p.trained || decide (8 < lane) then .next s
  else
    let s := setPort n (countWord s lane w p) s
    match w with
    | .flit _ b => .next (deliverData (if flitOk b then takeFlit n b s else lostFlit n lane s))
    | .overrun _ => .next (let t := xingRecord 11 8 false s; if p.state == .active then lostFlit n lane t else t)
    | .bad => .next (lostFlit n lane s)

/-- HAW_STALL: packets wait on a channel that has received no credit for 100 µs (R381). -/
def execHawStall (n vc : Nat) (s : State) : Out :=
  let p := getPort s n
  let waits := !(lookupD [] vc p.sendQ).isEmpty && decide (10 ^ 8 ≤ sincePs s (lookupD s.cad.ct vc p.creditAt))
  if p.state == .active && waits then .next (postPort Ev.hawStall n (det [(1, vc)]) (setPort n { p with creditAt := upsert vc s.cad.ct p.creditAt } s))
  else .next s

/-- HAW_PORT_DOWN. -/
def execHawPortDown (n : Nat) (_c : DownCause) (s : State) : Out :=
  if (getPort s n).trained then .next (portDown n s) else .next s

/-! ### PLAN_SET, PORT_CTRL (R387, R406) -/

def parsePlan (b : List Byte) : PlanEntry :=
  { peerCoord := BitVec.ofNat 32 (item b 0 4), peerPort := item b 4 1, expected := bitAt (item b 5 1) 0, serialCheck := bitAt (item b 5 1) 1
    peerSerial := BitVec.ofNat 64 (item b 8 8) }

/-- PLAN_SET. -/
def opPlanSet (p : Packet) (s : State) : State :=
  let b (k : Nat) := sliceB p.payload (16 * k) 16
  if !s.colls.isEmpty then refuse p Status.linkBusy s
  else if (List.range 24).any fun k => decide (3 < item (b k) 5 1) || item (b k) 6 2 != 0 then refuse p Status.linkValue s
  else accept p { s with store := { s.store with plan := {
    id := BitVec.ofNat 32 (pN p 0 4), coord := BitVec.ofNat 32 (pN p 4 4), entries := (List.range 24).map fun k => (k, parsePlan (b k)) } } }

/-- A running collective has packets in a port's buffers. -/
def collLoses (s : State) (n slot : Nat) : Bool :=
  let p := getPort s n
  p.sendQ.any (fun x => x.2.any fun k => k.typ == 2 && k.slot == slot) ||
    (!p.replay.isEmpty && (lookup slot s.colls).elim false fun c => (List.range c.members).any fun m => routeTo s c.rts m == .port n)

/-- A running collective ends with LINK_LOST: in the event log, and as the reply of its COLL_FIRE. -/
def loseColl (slot : Nat) (c : CollSlot) (p : Packet) (s : State) : State :=
  let s := postFull Ev.playFail 3 0xFFFFFFFF 0 (collStep p) (det [(2, Status.linkLost.toNat)]) s
  refuse p Status.linkLost { s with colls := upsert slot { c with running := none, own := [], shared := none } s.colls }

/-- Running collectives that lose packets to a disabled port end. -/
def endColls (n : Nat) (s : State) : State :=
  s.colls.foldl (fun t (k, c) =>
    match c.running with
    | some p => if collLoses s n k then loseColl k c p t else t
    | none => t) s

/-- Disable one port. -/
def disablePort (n : Nat) (s : State) : State :=
  let p := getPort s n
  let s := if p.trained then postPort Ev.hawPortDown n [] (endColls n (loseOutcome n s)) else s
  setPort n { enter .disabled (dropBuffers p) with disable := true } s

/-- PORT_CTRL. -/
def opPortCtrl (p : Packet) (s : State) : State :=
  let mask := pN p 0 3
  let act := pN p 3 1
  if mask = 0 || decide (2 < act) then refuse p Status.linkValue s
  else accept p (((List.range 24).filter fun n => bitAt mask n).foldl (fun s n => if act = 0 then disablePort n s else startTraining n s) s)

/-! ### Registers (R407, R408) -/

def PortState.code : PortState → Nat
  | .off => 0 | .training => 1 | .qualifying => 2 | .discovery => 3 | .active => 4 | .miscabled => 5 | .planMismatch => 6 | .failed => 7 | .disabled => 8

/-- HAW_PORT_n as it is read. -/
def hawPortReg (p : HPort) : Nat :=
  p.peerCoord.toNat * 2 ^ 32 + p.earlySignal * 2 ^ 24 + p.laneFail.toNat * 2 ^ 15 + b2n p.spareInUse * 2 ^ 14 + b2n p.width4 * 2 ^ 13 +
    p.peerPort % 32 * 2 ^ 8 + b2n p.disable * 2 ^ 6 + p.state.code

/-- A write of HAW_CFG. -/
def writeHawCfg (v : W64) (s : State) : State :=
  let n := fld v.toNat 0 8
  if !s.host.privOpen then lockViolation s
  else if 1 ≤ n && n ≤ 100 then { s with lqWindow := BitVec.ofNat 8 n } else s

end Sys2Proof.Machine
end

