-- ==== Sys2Proof/Machine/Power.lean ====
section
/-! DEFINITION. Power: operating points, the rack grant and its messages, the plan, the power-turn boundary, droop stretching and the power registers
(chapter 15). -/

namespace Sys2Proof.Machine

/-! ### Operating points (R431) -/

def opMHz : Nat → Nat
  | 0 => 500 | 1 => 650 | 2 => 750 | 3 => 850 | 4 => 925 | 5 => 1000 | 6 => 1100 | _ => 1200
def opMv : Nat → Nat
  | 0 => 620 | 1 => 670 | 2 => 700 | 3 => 740 | 4 => 770 | 5 => 800 | 6 => 850 | _ => 900
def opFull : Nat → Nat
  | 0 => 583 | 1 => 848 | 2 => 1048 | 3 => 1310 | 4 => 1532 | 5 => 1775 | 6 => 2192 | _ => 2667
/-- Leakage and dynamic power of OP0. -/
def leak0 : Int := 140
def dyn0 : Int := 443
def maxGrant : Nat := 26000

/-- OP_TRANSITION_STEP: one rail step of 10 mV or one clock step of 25 MHz; up, the rail goes first, down, the clock (R434). -/
def transitionStep (f : Field) : Field :=
  let v := opMv f.target
  let c := opMHz f.target
  let f :=
    if f.railMv < v then { f with railMv := f.railMv + 10 }
    else if f.clockMHz < c then { f with clockMHz := f.clockMHz + 25 }
    else if c < f.clockMHz then { f with clockMHz := f.clockMHz - 25 }
    else { f with railMv := f.railMv - (if v < f.railMv then 10 else 0) }
  if f.railMv = v ∧ f.clockMHz = c then { f with op := f.target } else f

def execOpTransitionStep (n : Nat) (s : State) : Out := .next (adjField n transitionStep s)

/-! ### Grants (R439, R440) -/

/-- The default grant in watts (R453). -/
def defaultW (s : State) : Nat := min s.power.defaultGrant.toNat maxGrant

/-- Of the grants received, the one that governs a turn: the greatest TURN not above it, and of equal ones the latest received. -/
def governing : List GrantRec → Nat → Option GrantRec
  | [], _ => none
  | g :: r, t =>
    match governing r t with
    | some h => if g.turn ≤ t ∧ h.turn ≤ g.turn then some g else some h
    | none => if g.turn ≤ t then some g else none

def turnGrant (s : State) (t : Nat) : Nat :=
  match governing s.power.grants t with
  | some g => min g.watts maxGrant
  | none => defaultW s

/-! ### The plan (R443 to R447, R451) -/

def sumFull (op : List Nat) : Int := ((op.map opFull).sum : Nat)
def maxOp (op : List Nat) : Nat := op.foldl max 0

/-- The highest field number at the highest point. -/
def topField (op : List Nat) : Nat :=
  let m := maxOp op
  (List.range op.length).foldl (fun f k => if op.getD k 0 = m then k else f) 0

/-- Lower the highest point first until the sum fits or all are at OP0; 8 × 7 lowerings suffice. -/
def lowerOps : Nat → Int → List Nat → List Nat
  | 0, _, op => op
  | n + 1, a, op => if a < sumFull op ∧ 0 < maxOp op then lowerOps n a (op.set (topField op) (maxOp op - 1)) else op

structure PlanOut where
  op : List Nat
  pass : Nat
  floor : Bool
  deriving DecidableEq, Repr

/-- plan(g, n, c, want). -/
def planOps (g n c : Nat) (want : List Nat) : PlanOut :=
  let a : Int := (g * 905 / 1000 : Nat) - (n : Int) - (c : Int)
  let op := lowerOps 56 a want
  if a < sumFull op then
    let w := ((a / 8 - leak0) * 1024) / dyn0
    if w < 64 then { op, pass := 960, floor := true } else { op, pass := 1024 - w.toNat, floor := false }
  else { op, pass := 0, floor := false }

/-- The preference of a phase. -/
def prefOf (p : Power) : Nat → Nat
  | 0 => p.forward.toNat | 1 => p.backward.toNat | 2 => p.apply.toNat | 3 => p.exchange.toNat | _ => p.idle.toNat

/-- The preferred operating point of a field for the power turn [lo, hi) (R437). -/
def preferred (s : State) (f : Nat) (lo hi : CtWord) : Nat :=
  let named := s.plays.filter fun p => tileField p.org == f &&
    (p.state == .running || (decide (lo.toNat ≤ p.fire.toNat) && decide (p.fire.toNat < hi.toNat)))
  match named with
  | [] => s.power.idle.toNat
  | _ => (named.map fun p => prefOf s.power p.phase).foldl max 0

/-- Rail watts at the input, rounded up. -/
def toInput (w : Nat) : Nat := cdiv (w * 1000) 905

/-- A field's point before the budget: OP_MAX, the cap of a rail group without three phases (R474) and the thermal cap. -/
def wantOp (s : State) (f pref temp : Nat) : Nat :=
  let w := min pref s.power.opMax.toNat
  let w := if 3 ≤ (getField s f).phasesShed.length then min w 4 else w
  if 110 ≤ temp then 0 else if 100 ≤ temp then min w ((getField s f).target - 1) else w

/-- DETAIL of BUDGET_LIMIT (R445). -/
def limitDetail (turn : Nat) (prefs op pass : List Nat) : List Byte :=
  toLE 8 turn ++ (List.range 8).map (fun f => BitVec.ofNat 8 (prefs.getD f 0 + op.getD f 0 * 8)) ++
    (List.range 8).flatMap (fun f => toLE 2 (pass.getD f 0))

/-- Make the plan for the turn that begins at the coming boundary. A new offset has taken effect at the boundary at which the plan is made, and one that comes later finds
the plan made (R37, R442): the planned turn has 1,024 beats. -/
def makePlan (m : PowerSense) (s : State) : State :=
  let lo := comingBoundary s
  let turn := ctTurn lo
  let g := turnGrant s turn
  let n := m.nonField + s.power.headroom.toNat
  let temp (f : Nat) : Nat := (getField s f).temp
  let prefs := (List.range 8).map fun f => preferred s f lo (lo + beats 1024)
  let want := (List.range 8).map fun f => wantOp s f (prefs.getD f 0) (temp f)
  let r := planOps g n s.power.carry want
  let hot (f : Nat) : Bool := decide (110 ≤ temp f)
  let op := (List.range 8).map fun f => if hot f then 0 else r.op.getD f 0
  let pass := (List.range 8).map fun f => if hot f then 960 else r.pass
  let limited := (List.range 8).any fun f => decide (op.getD f 0 < prefs.getD f 0) || pass.getD f 0 != 0
  let s := { s with power := { s.power with
    plan := some { op, pref := prefs, pass, floor := r.floor, limited }
    floorW := toInput (n + 1342), demandW := toInput (n + (want.map opFull).sum) } }
  let s := if r.floor then post Ev.budgetFloor [] s else s
  let s := (List.range 8).foldl (fun s f =>
    if hot f then postFull Ev.fieldHot 3 (unitOf 0 (m.tiles.getD f 0)) 0 0 (det [(1, f), (1, temp f)]) s else s) s
  if limited then post Ev.budgetLimit (limitDetail turn prefs op pass) s else s

/-! ### The power-turn boundary (R442) -/

/-- PWR_PREF takes a value (R452). -/
def setPref (v : Nat) (s : State) : State :=
  { s with power := { s.power with
      forward := BitVec.ofNat 3 v, backward := BitVec.ofNat 3 (v / 8), apply := BitVec.ofNat 3 (v / 64)
      exchange := BitVec.ofNat 3 (v / 512), idle := BitVec.ofNat 3 (v / 4096) } }

/-- PREF_SET takes effect. -/
def opPrefSet (p : Packet) (s : State) : State := accept p (setPref (item p.param 0 2) s)

/-- PREF_SET at dispatch: with FIRE 0 at once, else at a power-turn boundary (R41). -/
def opPrefDispatch (p : Packet) (s : State) : State :=
  if p.fire = 0 then opPrefSet p s
  else { s with sched := s.sched ++ [{ fire := p.fire, cls := 0, order := s.arrivals, packet := p }], arrivals := s.arrivals + 1 }

/-- Put an event into a list ordered by FIRE and arrival. -/
def insertSched (e : Sched) : List Sched → List Sched
  | [] => [e]
  | x :: r => if e.fire.toNat < x.fire.toNat || (e.fire == x.fire && decide (e.order < x.order)) then e :: x :: r else x :: insertSched e r

/-- Power-class events due at boundary b act, in the order of R38. -/
def powerEvents (b : CtWord) (s : State) : State :=
  let due (e : Sched) : Bool := e.cls == 0 && decide (e.fire.toNat ≤ b.toNat)
  ((s.sched.filter due).foldl (fun l e => insertSched e l) []).foldl (fun s e => opPrefSet e.packet s)
    { s with sched := s.sched.filter fun e => !due e }

/-- STRETCH of the turn that ended: the cycles of a stretch that still runs count in it as far as they lie in it (R449, R455). -/
def endStretch (sofar : Nat) (f : Field) : Field :=
  if f.stretching then { f with stretch := satAdd 16 f.stretchNow (sofar - f.stretchSeen), stretchNow := 0, stretchSeen := max sofar f.stretchSeen }
  else { f with stretch := f.stretchNow, stretchNow := 0 }

/-- Power turns that have passed when boundary b begins one (R440). -/
def turnsPassed (s : State) (b : CtWord) : Nat := max 1 (ctTurn b - s.power.turn)

/-- The measurements of the turn that ended at boundary b: INPUT_W, STRETCH, the carry and POWER_OVER (R447). -/
def turnDone (m : PowerSense) (b : CtWord) (s : State) : State :=
  let p := s.power
  let carry := m.input - p.grantW.toNat
  let s := { s with
    power := { p with inputW := BitVec.ofNat 16 m.input, lastTurn := p.turn, carry, sinceGrant := p.sinceGrant + turnsPassed s b }
    fields := s.fields.map fun (k, f) => (k, endStretch (m.stretched.getD k 0) f) }
  if carry = 0 then s else post Ev.powerOver (det [(8, p.turn), (2, p.grantW.toNat), (2, m.input)]) s

/-- Boundary b begins a power turn: a new offset takes effect, or the turn's grant governs (R37, R439). -/
def beginTurn (b : CtWord) (s : State) : State :=
  let p := { s.power with turn := ctTurn b, boundary := b }
  match s.cad.nextOffset with
  | some o =>
    { s with
      cad := { s.cad with offset := o, nextOffset := none }
      power := { p with
        next := some (alignUp (b + beats 512) o)
        grantW := if s.power.next.isSome then p.grantW else BitVec.ofNat 16 (turnGrant s (ctTurn b)) } }
  | none =>
    { s with power := { p with
        next := some (b + beats 1024), grantW := BitVec.ofNat 16 (turnGrant s (ctTurn b))
        default := (governing p.grants (ctTurn b)).isNone } }

/-- The plan made at the previous boundary is applied. -/
def applyPlan (s : State) : State :=
  match s.power.plan with
  | none => s
  | some q =>
    let s := journalRecord s
    let s := { s with power := { s.power with floor := q.floor, limited := q.limited, plan := none } }
    (List.range 8).foldl (fun s f => adjField f (fun (x : Field) =>
      { x with target := q.op.getD f 0, pass := q.pass.getD f 0, pref := q.pref.getD f 0 }) s) s

/-- The hottest near stack's reported temperature as a byte (R278, R438). -/
def hottestStack (s : State) : Nat := ((s.near.units.foldl (fun t x => max t x.2.temp) 0) % 256).toNat

/-- The temperatures that the power registers and REPORT show: a sensor's reading as two samples agree on it (R44). -/
def takeTemps (m : PowerSense) (s : State) : State :=
  let s := (List.range 8).foldl (fun s f => adjField f (fun (x : Field) => { x with temp := doubleSample x.temp (m.temps.getD f 0) (m.again.getD f 0) }) s) s
  { s with power := { s.power with
      near := hottestStack s, cap := doubleSample s.power.cap m.cap m.capAgain, hottest := (List.range 8).foldl (fun t f => max t (getField s f).temp) 0 } }

/-- POWER_TURN_BOUNDARY. While the control complex's duties wait for a takeover no plan is made or applied (R479). -/
def execPowerTurnBoundary (m : PowerSense) (s : State) : Out :=
  if !ctRuns s || s.rel.ccFailed then .next s
  else match comeTo ((powerAt s).toNat, 0, 0) (powerAt s) s with
  | none => .next s
  | some s =>
    match dueBoundary s with
    | none => .next s
    | some b =>
      let s := if s.power.next.isSome then turnDone m b s else s
      .next (makePlan m (powerEvents b (applyPlan (beginTurn b (takeTemps m s)))))

/-- GRANT_STALE: 256 power turns without a GRANT (R440). -/
def execGrantStale (s : State) : Out :=
  if 256 ≤ s.power.sinceGrant && !s.power.stale then .next (post Ev.grantStale [] { s with power := { s.power with stale := true } })
  else .next s

/-! ### Power messages (R438, R441, R503) -/

/-- The management endpoint answers this kind of message: past stage 2, with an active control complex (R479, R503). -/
def mctpUp (s : State) : Bool := stageDone s 2 && !s.rel.ccFailed

def mctpReply (l : List Byte) (s : State) : State := { s with host := { s.host with mctp := l } }

def powerFlags (p : Power) : Nat := b2n p.stale * 8 + b2n p.default * 4 + b2n p.floor * 2 + b2n p.limited

/-- GRANT. -/
def execGrant (seq : Byte) (turn : W64) (watts : W32) (s : State) : Out :=
  if !mctpUp s then .next s
  else if !ctRuns s then
    let (v, s) := draw s
    .next (mctpReply (det [(1, 0x81), (1, seq.toNat), (1, 0x80), (1, 0), (8, v.toNat)]) s)
  else
    let known := ctTurn (comingBoundary s)
    let late := decide (turn.toNat ≤ known)
    let applied := if late then known + 1 else turn.toNat
    let g := min watts.toNat maxGrant
    let code := b2n (decide (maxGrant < watts.toNat)) + 2 * b2n late + 4 * b2n (decide (g < s.power.floorW))
    let p := { s.power with grants := { turn := applied, watts := g } :: s.power.grants, sinceGrant := 0, stale := false }
    .next (mctpReply (det [(1, 0x81), (1, seq.toNat), (1, code), (1, 0), (8, applied)]) { s with power := p })

/-- OFFSET. -/
def execOffset (seq : Byte) (off : BitVec 16) (s : State) : Out :=
  let answer (code : Nat) (s : State) : Out := .next (mctpReply (det [(1, 0x82), (1, seq.toNat), (1, code), (1, 0)]) s)
  if !mctpUp s then .next s
  else if !ctRuns s then answer 0x80 s
  else if 1023 < off.toNat then answer 0x40 s
  else answer 0 (setCad { s.cad with nextOffset := some off.toNat } s)

/-- REPORT. -/
def execReport (seq : Byte) (s : State) : Out :=
  let p := s.power
  if !mctpUp s then .next s
  else
    .next (mctpReply (det [(1, 0x83), (1, seq.toNat), (1, if ctRuns s then 0 else 0x80), (1, 0), (8, p.lastTurn), (4, p.inputW.toNat),
      (4, p.grantW.toNat), (4, p.floorW), (4, p.demandW), (1, powerFlags p), (1, p.hottest), (1, p.near), (1, p.cap)]) s)

/-- GET_SENSOR_READING: sensors 0 to 6 in the order of R441 (assumption 44); the reading as 4 bytes. Voltage and coolant temperatures are the
snapshot's sensor bytes (assumption 9). -/
def sensorValue (s : State) : Nat → Option (List Byte)
  | 0 => some (toLE 4 s.power.inputW.toNat)
  | 1 => some [Config.sensorByte s.snap.seq 0x80, Config.sensorByte s.snap.seq 0x81, 0, 0]
  | 2 => some (toLE 4 s.power.hottest)
  | 3 => some (toLE 4 s.power.near)
  | 4 => some (toLE 4 s.power.cap)
  | 5 => some [Config.sensorByte s.snap.seq 0x88, Config.sensorByte s.snap.seq 0x89, 0, 0]
  | 6 => some [Config.sensorByte s.snap.seq 0x8A, Config.sensorByte s.snap.seq 0x8B, 0, 0]
  | _ => none

def execGetSensorReading (k : Nat) (s : State) : Out :=
  if mctpUp s then .next (mctpReply ((sensorValue s k).getD []) s) else .next s

/-! ### Droop (R449) -/

/-- DROOP_STRETCH. -/
def execDroopStretch (n belowMv : Nat) (s : State) : Out :=
  if 40 < belowMv then .next (adjField n (fun (f : Field) => if f.stretching then f else { f with stretching := true, stretchSeen := 0 }) s) else .next s

/-- STRETCH_END, after so many stretched cycles in all, the last 64 of them good: those that no earlier turn has counted. -/
def execStretchEnd (n cycles : Nat) (s : State) : Out :=
  if (getField s n).stretching then
    .next (adjField n (fun (f : Field) => { f with stretching := false, stretchNow := satAdd 16 f.stretchNow (cycles - f.stretchSeen), stretchSeen := 0 }) s)
  else .next s

/-! ### Registers (R452 to R455) -/

def pwrPref (p : Power) : Nat :=
  p.idle.toNat * 4096 + p.exchange.toNat * 512 + p.apply.toNat * 64 + p.backward.toNat * 8 + p.forward.toNat

def pwrCtrl (p : Power) : Nat := p.defaultGrant.toNat * 2 ^ 32 + p.headroom.toNat * 65536 + p.opMax.toNat

/-- FLOOR_W of PWR_STATUS: the spec does not say what its 16 bits hold where FLOOR_W needs more (free, assumption 123). -/
def floorField (w : Nat) : Nat := if w < 65536 then w else (Config.wideFloor w).toNat

def pwrStatus (p : Power) : Nat :=
  p.grantW.toNat * 2 ^ 48 + floorField p.floorW * 2 ^ 32 + p.inputW.toNat * 65536 + powerFlags p * 4

def fldPwr (f : Field) : Nat :=
  f.stretch * 2 ^ 48 + f.temp % 256 * 2 ^ 40 + f.pass * 2 ^ 25 + f.pref * 2 ^ 22 + f.op * 2 ^ 19

/-- A write of PWR_CTRL. -/
def writePwrCtrl (v : W64) (s : State) : State :=
  if !s.host.privOpen then lockViolation s
  else
    let x := v.toNat
    { s with power := { s.power with
        defaultGrant := BitVec.ofNat 16 (fld x 32 16), headroom := BitVec.ofNat 16 (fld x 16 16), opMax := BitVec.ofNat 3 x } }

end Sys2Proof.Machine
end

