-- ==== Sys2Proof/Machine/Reliability.lean ====
section
/-! DEFINITION. Suspects, self-test, tile splice, wear, phases, PLLs, the standby and FLT_STATUS (chapter 16). -/

namespace Sys2Proof.Machine

/-- Every partition that covers a tile row is idle (R79). -/
def rowIdle (s : State) (f r : Nat) : Bool :=
  s.parts.all fun p =>
    !((tilesOf p.org p.shape).any fun t => tileField t == f && tileRow t == r) || (runningOn s p.org p.shape).isNone

/-- The row has a healthy, unconsumed spare. -/
def spareTile (s : State) (f r : Nat) : Bool := (getField s f).tallyRow.getLsbD r

def physId (f r c : Nat) : Nat := f * 512 + r * 32 + c
def addBadTile (u : Nat) (s : State) : State :=
  if s.store.badTiles.contains u then s else { s with store := { s.store with badTiles := u :: s.store.badTiles } }
def clearTally (f r : Nat) (s : State) : State :=
  adjField f (fun (x : Field) => { x with tallyRow := x.tallyRow &&& ~~~(1#16 <<< r) }) s
def degradeRow (f r : Nat) (s : State) : State :=
  adjField f (fun (x : Field) => { x with degradedRow := x.degradedRow ||| (1#16 <<< r) }) { s with rel := { s.rel with secondFault := true } }

/-- Ask for the splice of a tile. -/
def requestSplice (u : Nat) (s : State) : State :=
  if s.rel.spliceReq.contains u then s else { s with rel := { s.rel with spliceReq := u :: s.rel.spliceReq } }

/-- The class of a suspicion, for the records of its self-test and its splice; a splice that wear alone asks for is of class 18 (R459). -/
def suspectClass (s : State) (u : Nat) : Nat :=
  if s.rel.wearReq.contains u then 18 else ((s.rel.suspects.find? fun x => x.unit == u).map (·.cls)).getD 4

/-- Ask for a wear splice (R473). -/
def requestWear (u : Nat) (s : State) : State :=
  if s.rel.spliceReq.contains u then s else requestSplice u { s with rel := { s.rel with wearReq := u :: s.rel.wearReq } }

/-- A splice that is asked for because the tile fails, whatever its wear. -/
def requestFailed (u : Nat) (s : State) : State := requestSplice u { s with rel := { s.rel with wearReq := s.rel.wearReq.filter (· != u) } }

/-- A tile fails its self-test: the record, and the splice. -/
def testFails (f r : Nat) (s : State) (c : Nat) : State :=
  let u := physId f r c
  requestFailed u (record (suspectClass s u) 10 1 3 (unitOf 0 u) 0xFFFFFFFF 0 0 [] s)

/-- SELF_TEST: the row asked for it and is idle; `bad` are the physical columns of suspect tiles that fail (R469). One that is out of service already is not
tested. -/
def execSelfTest (f r : Nat) (bad : List Nat) (s : State) : Out :=
  let row := f * 16 + r
  if s.rel.selfTest.contains row && rowIdle s f r then
    let bad := bad.filter fun c => decide (c ≤ 16) && isSuspect s (physId f r c) && !s.store.badTiles.contains (physId f r c)
    let s := { s with rel := { s.rel with selfTest := s.rel.selfTest.filter (· != row) } }
    .next (bad.foldl (testFails f r) s)
  else .next s

/-! ### Tile splice (R79, R472) -/

/-- The store and the knots of a logical tile become zero. -/
def zeroTile (L : Nat) (s : State) : State :=
  { s with
    mem := s.mem.filter fun c => !(decide (tileAddr L 0 ≤ c.1) && decide (c.1 < tileAddr (L + 1) 0))
    knots := s.knots.filter fun (k, _) => !(decide (tileKnot L 0 ≤ k) && decide (k < tileKnot (L + 1) 0)) }

/-- Running plays over a row finish although it becomes degraded (R85). -/
def spareRuns (f r : Nat) (s : State) : State :=
  { s with plays := s.plays.map fun p =>
      if p.state == .running && p.seqs.any (fun q => tileField q.tile == f && tileRow q.tile == r) then { p with spared := r :: p.spared } else p }

/-- The tile is out of service without a spare: the row is degraded (R85). -/
def noSpare (f r u : Nat) (s : State) : State :=
  record (suspectClass s u) 6 3 3 (unitOf 0 u) 0xFFFFFFFF 0 0 [] (degradeRow f r (addBadTile u (spareRuns f r s)))

/-- The splice of row r at physical column c: logical columns from c on move one column east. Addresses are logical, so their stores and knots stay;
an unreadable store is zero and the open step is FAULTED. Line caches of the row start empty (assumption 46). -/
def spliceRow (f r c : Nat) (readable : Bool) (s : State) : State :=
  let u := physId f r c
  let L := mkTile f r c
  let s := if readable then s else zeroTile L { s with cap := { s.cap with stepFaulted := true } }
  let s := { s with
    rel := { s.rel with splices := upsert (f * 16 + r) c s.rel.splices }
    caches := s.caches.filter fun (t, _) => !(tileField t == f && tileRow t == r) }
  let s := invalidateRow f r (clearTally f r (addBadTile u s))
  record (suspectClass s u) 6 0 3 (unitOf 0 u) (BitVec.ofNat 32 L) 0 0 [] (postFull Ev.tileSplice 3 (unitOf 0 u) 0 0 [] (journalRecord s))

/-- TILE_SPLICE: a requested splice of the tile at physical column c, once the row is idle. With the spare gone, a tile that only its wear would replace stays in
service (R473). -/
def execTileSplice (f r c : Nat) (readable : Bool) (s : State) : Out :=
  let u := physId f r c
  if !s.rel.spliceReq.contains u then .next s
  else
    let done (s : State) : State := { s with rel := { s.rel with
      spliceReq := s.rel.spliceReq.filter (· != u), wearReq := s.rel.wearReq.filter (· != u) } }
    if spareTile s f r then
      if c = 16 then .next (done (record (suspectClass s u) 6 0 3 (unitOf 0 u) 0xFFFFFFFF 0 0 [] (clearTally f r (addBadTile u (journalRecord s)))))
      else if rowIdle s f r then .next (done (spliceRow f r c readable s))
      else .next s
    else if s.rel.wearReq.contains u then .next (done s)
    else .next (done (noSpare f r u s))

/-- A physical tile ID names a tile (R10). -/
def physOk (u : Nat) : Bool := decide (u < 4096) && decide (u % 32 ≤ 16)

/-- TILE_WEAR (R473, R500): a ring-oscillator reading of a physical tile. The first reading after the first ready is the baseline. -/
def execTileWear (u count : Nat) (s : State) : Out :=
  if !physOk u then .next s else
  let s := { s with rel := { s.rel with ringCounts := upsert u count s.rel.ringCounts } }
  if !isReady s then .next s
  else match lookup u s.store.baseline with
  | none => .next { s with store := { s.store with baseline := upsert u count s.store.baseline } }
  | some base =>
    let fell (pct : Nat) : Bool := decide (base * pct ≤ (base - count) * 100)
    let f := u / 512
    let r := u % 512 / 32
    if !fell 4 || s.store.badTiles.contains u then .next s
    else
      let spare := spareTile s f r
      let again := s.rel.worn.contains u
      let s := if again && spare then s
        else record 18 0 1 3 (unitOf 0 u) 0xFFFFFFFF 0 0 (toLE 4 base ++ toLE 4 count) s
      let s := if again then s else { s with rel := { s.rel with worn := u :: s.rel.worn } }
      .next (if fell 6 && spare then requestWear u s else s)

/-! ### Phases and PLLs (R474, R475) -/

/-- The spare map records a phase as failed (R481, R491). -/
def addBadPhase (u : Nat) (s : State) : State :=
  if s.store.badPhases.contains u then s else { s with store := { s.store with badPhases := u :: s.store.badPhases } }

/-- PHASE_FAULT. -/
def execPhaseFault (f k : Nat) (s : State) : Out :=
  let x := getField s f
  if x.phasesShed.contains k then .next s
  else
    let u := unitOf 6 (f * 32 + k)
    let n := x.phasesShed.length + 1
    let s := addBadPhase (f * 32 + k) (setField f { x with phasesShed := k :: x.phasesShed } s)
    let s := record 12 8 (if n < 3 then 0 else 3) 3 u 0xFFFFFFFF 0 0 [] s
    if n = 3 then .next (postFull Ev.railDegraded 3 u 0 0 [] { s with rel := { s.rel with secondFault := true } }) else .next s

/-- The domain has its spare PLL. -/
def pllSpare (s : State) (d : Nat) : Bool := if d < 8 then (getField s d).pllSpare else s.rel.meshPllSpare

def usePll (d : Nat) (s : State) : State :=
  if d < 8 then adjField d (fun (x : Field) => { x with pllSpare := false }) s else { s with rel := { s.rel with meshPllSpare := false } }

def stopDomain (d : Nat) (s : State) : State :=
  let s := { s with rel := { s.rel with secondFault := true } }
  if d < 8 then adjField d (fun (x : Field) => { x with unavailable := true }) s else { s with rel := { s.rel with meshStopped := true } }

/-- PLL_SWITCH: the domain of a crossing that reported CLOCK_STOPPED. -/
def execPllSwitch (d : Nat) (s : State) : Out :=
  let u := unitOf 7 d
  if !(s.xing.closed.any fun p => p.1 == d || p.2 == d) then .next s
  else if pllSpare s d then
    .next (record 15 8 0 3 u 0xFFFFFFFF 0 0 [] (xingReset d (usePll d s)))
  else .next (record 15 8 3 3 u 0xFFFFFFFF 0 0 [] (stopDomain d s))

/-! ### Standby and FLT_STATUS -/

/-- The standby (KIND 0, UNIT 1) is halted: its supervision is suspended (R547). -/
def standbyHalted (s : State) : Bool := s.dbgUnit.halted.contains 1

/-- CC_STANDBY_LOST: the active has missed 4 heartbeats in a row. -/
def execCcStandbyLost (s : State) : Out :=
  if s.rel.standby && !standbyHalted s && !s.rel.ccFailed && decide (4 ≤ s.rel.missedBack) then
    .next (ledgerRec 11 0 3 (unitOf 8 1) 0xFFFFFFFF 0 [] (post Ev.ccStandbyLost [] { s with rel := { s.rel with standby := false } }))
  else .next s

def popcount16 (x : BitVec 16) : Nat := (List.range 16).foldl (fun n k => n + b2n (x.getLsbD k)) 0

/-- Tile rows, pair rows and capstan dice that have a spare (R483). -/
def tileSpares (s : State) : Nat := (List.range 8).foldl (fun n f => n + popcount16 (getField s f).tallyRow) 0
def stackSpares (s : State) : Nat := ((List.range 64).filter fun p => (stackSpare s (p * 16)).isSome).length

/-- Some repair domain of R470 has no spare left. -/
def spareOut (s : State) : Bool :=
  decide (tileSpares s < 128) || decide (stackSpares s < 64) || (spareDice s).isEmpty || !s.rel.standby || !s.rel.meshPllSpare ||
    s.near.units.any (fun (n, _) => (freeSpares s n).isEmpty) || s.store.repairs.any (fun r => decide (8 ≤ bankRepairs s r.chan r.bank false)) ||
    s.store.rimRepairs.any (fun r => decide (Config.rimSoft ≤ (s.store.rimRepairs.filter fun x => x.die == r.die && !x.hard).length)) ||
    s.ports.any (fun (_, p) => p.spareInUse || p.width4 || p.laneFail.getLsbD 8) || (List.range 8).any fun f =>
      !(getField s f).pllSpare || decide (2 ≤ (getField s f).phasesShed.length)

/-- The open step cannot be replayed again. -/
def replayOut (s : State) : Bool := s.cap.unreplayable.contains (openStep s) || s.cap.replays == 3

/-- Some repair domain holds a unit degraded for lack of a spare; a port in four-lane mode is one (R383, R483). -/
def secondFault (s : State) : Bool := s.rel.secondFault || s.ports.any fun (_, p) => p.width4

/-- FLT_STATUS as it is read. -/
def fltStatus (s : State) : Nat :=
  if !s.bu.loaded then 0
  else
    let out := replayOut s
    let r := s.cap.rimStarvedForce
    let n := s.near.starvedForce
    let covered := !(out || r || n || secondFault s)
    s.store.seq % 2 ^ 32 * 2 ^ 32 + tileSpares s * 2 ^ 24 + stackSpares s * 2 ^ 17 + (spareDice s).length * 2 ^ 15 +
      b2n (s.rel.standby && !standbyHalted s) * 2 ^ 14 + b2n out * 32 + b2n (spareOut s) * 16 + b2n r * 8 + b2n n * 4 +
      b2n (secondFault s) * 2 + b2n covered

end Sys2Proof.Machine
end

