-- ==== Sys2Proof/Machine/BringUp.lean ====
section
/-! DEFINITION. Bring-up: opening a stage, the work of each stage, its end, the firmware images and the stage window; and the electrical events, resets
and port resets around it (chapters 17 and 20, R532, R533, R508). -/

namespace Sys2Proof.Machine

def setBu (b : BringUp) (s : State) : State := { s with bu := b }

/-- DEGRADE is not zero. -/
def BringUp.degraded (b : BringUp) : Bool := b.row || b.tally || b.field || b.cap || b.near || b.port || b.standby || b.lane

/-! ### Opening a stage (R485) -/

def openOk (s : State) (n : Nat) : Bool :=
  decide (2 ≤ n) && decide (n ≤ 10) &&
    ((s.bu.stage + 1 == n && s.bu.state == .done) || (s.bu.stage == n && s.bu.state == .failed))

/-- The field rails start at OP0, for the tests of stage 3 (R491, R553; DESIGN CHOICE, assumption 127). -/
def startRails (s : State) : State :=
  (List.range 8).foldl (fun s f => adjField f (fun (x : Field) => if x.railMv = 0 then { x with railMv := opMv 0 } else x) s) s

/-- A stage has done nothing yet. -/
def BringUp.fresh (b : BringUp) : BringUp := { b with result := none, round := 0, lacks := [], multicast := [], unicast := [] }

/-- An accepted open: the stage runs. -/
def openStage (n : Nat) (s : State) : State :=
  let s := if n = 3 then startRails s else s
  setBu { s.bu.fresh with stage := n, state := .running, elapsed := 0, cause := 0, windowBusy := false } s

/-- An open that is refused; its event names the origin of the command (R514), 3 for a register write. -/
def refuseOpen (origin : Nat) (s : State) : State :=
  postFull Ev.stageOrder origin 0xFFFFFFFF 0 0 [] (setBu { s.bu with code := Status.stageOrder } s)

/-- A write of BU_CTRL. -/
def writeBuCtrl (v : W64) (s : State) : State :=
  let n := fld v.toNat 0 4
  if openOk s n then openStage n s else refuseOpen 3 s

/-- BU_OPEN. -/
def opBuOpen (p : Packet) (s : State) : State :=
  let n := item p.param 0 1
  if openOk s n then accept p (openStage n s) else refuse p Status.stageOrder (refuseOpen p.origin s)

/-- The work of stage n may be done: it runs, its outcome is open, and a control complex is active. -/
def working (s : State) (n : Nat) : Bool := s.bu.stage == n && s.bu.state == .running && s.bu.result.isNone && !s.rel.ccFailed

/-- Set how the running stage will end. -/
def stageResult (st : StageState) (code : BitVec 16) (cause : Nat) (s : State) : State :=
  setBu { s.bu with result := some { state := st, code, cause } } s

def stageOk (s : State) : State := stageResult .done 0 0 s
def stageFatal (cause : Nat) (s : State) : State := stageResult .fatal Status.bringupFatal cause s

/-! ### Firmware images (R490, R532, R533) -/

def winBytes (s : State) (at_ n : Nat) : List Byte := (List.range n).map fun k => lookupD 0 (at_ + k) s.bu.window
def winN (s : State) (at_ n : Nat) : Nat := ofLE (winBytes s at_ n)
def allZero (l : List Byte) : Bool := l.all (· == 0)

/-- A key slot that cannot sign: revoked, unprogrammed or absent (R534). -/
def slotRevoked (s : State) (k : Nat) : Bool := decide (3 < k) || (lookup k s.store.slots).isNone || s.store.revoked.contains k

/-- A public key is the one of a slot and its signature of a message verifies. -/
def signedBy (s : State) (k : Nat) (key msg sig : List Byte) : Bool :=
  !slotRevoked s k && lookup k s.store.slots == some (Config.shake256 key) && Config.mlDsaVerify key msg sig

def bodyLen (s : State) : Nat := winN s 12 4

/-- The failing check of an image of a kind, in the order of R533. -/
def imageFault (s : State) (kind : Nat) : Option (BitVec 16) :=
  let n := bodyLen s
  if winN s 0 4 ≠ 0x474D4948 ∨ winN s 4 2 ≠ 1 ∨ winN s 6 1 ≠ kind ∨ n = 0 ∨ 16771840 < n ∨ (kind = 3 ∧ 2097152 < n) then some Status.imageKind
  else if !(allZero (winBytes s 16 48) && allZero (winBytes s 5325 51)) then some Status.imageKind
  else if !signedBy s (winN s 7 1) (winBytes s 64 1952) (winBytes s 0 2016 ++ winBytes s 5376 n) (winBytes s 2016 3309) then
    some Status.imageSignature
  else if winN s 8 4 < lookupD 0 kind s.store.arb then some Status.imageRollback
  else none

/-- The image runs. -/
def loadImage (kind : Nat) (s : State) : State :=
  let m := Config.shake256 (winBytes s 0 2016 ++ winBytes s 5376 (bodyLen s))
  setBu { s.bu with images := upsert kind { kind, arb := winN s 8 4, meas := m } s.bu.images } s

/-- An image stage: a failed check fails the stage, else `go` goes on with the image. -/
def imageStage (stage kind : Nat) (go : State → State) (s : State) : Out :=
  if !working s stage then .next s
  else match imageFault s kind with
    | some c => .next (stageResult .failed c 0 s)
    | none => .next (go (loadImage kind s))

/-- FW_STAGE_WRITE (R489): a host write at offset `off` of the window, through a port that serves; writes of a RUNNING stage are discarded with one event. -/
def writeWindow (port off : Nat) (data : List Byte) (s : State) : State :=
  if !(s.pins.pwrOk && (lookupD {} port s.host.ports).trained) then s
  else if s.bu.state == .running then
    if s.bu.windowBusy then s else post Ev.fwStageBusy [] (setBu { s.bu with windowBusy := true } s)
  else setBu { s.bu with window := (data.zipIdx.foldl (fun w x => upsert (off + x.2) x.1 w) s.bu.window) } s

def execFwStageWrite (port off : Nat) (data : List Byte) (s : State) : Out := .next (writeWindow port off data s)

/-! ### Stage 2 -/

/-- STAGE_CC_FW. -/
def execStageCcFw (s : State) : Out := imageStage 2 1 stageOk s

/-! ### Stage 3: the inventory (R491, R492) -/

/-- A bad unit that only BIST found: the record. Its CLASS is a free value. -/
def bistRecord (unit : W32) (s : State) : State :=
  let (v, s) := draw s
  ledgerRec (v.toNat % 256) 10 0 unit 0xFFFFFFFF 0 [] s

def addBad (kind u : Nat) (l : List Nat) (s : State) : List Nat × State :=
  if l.contains u then (l, s) else (u :: l, bistRecord (unitOf kind u) s)

/-- The units that BIST found enter the store. -/
def takeBist (v : Inventory) (s : State) : State :=
  let s := (v.tiles.filter physOk).foldl (fun s u =>
    let (l, s) := addBad 0 u s.store.badTiles s
    { s with store := { s.store with badTiles := l } }) s
  let s := v.plls.foldl (fun s u =>
    let (l, s) := addBad 7 u s.store.badPlls s
    { s with store := { s.store with badPlls := l } }) s
  let s := v.dice.foldl (fun s u =>
    let (l, s) := addBad 3 u s.store.badDice s
    { s with store := { s.store with badDice := l } }) s
  (v.phases.filter fun u => decide (u < 256) && decide (u % 32 < 28)).foldl (fun s u =>
    if s.store.badPhases.contains u then s else addBadPhase u (record 12 10 0 3 (unitOf 6 u) 0xFFFFFFFF 0 0 [] s)) s

def rowBads (s : State) (f r : Nat) : List Nat :=
  (s.store.badTiles.filter fun u => u / 512 == f && u % 512 / 32 == r).map (· % 32)

/-- R492 for the tiles of one row. -/
def assignRow (f r : Nat) (s : State) : State :=
  let tallyOff (s : State) : State := clearTally f r (setBu { s.bu with tally := true } s)
  match rowBads s f r with
  | [] => s
  | [16] => tallyOff s
  | [c] => tallyOff { s with rel := { s.rel with splices := upsert (f * 16 + r) c s.rel.splices } }
  | l =>
    let s := degradeRow f r (setBu { s.bu with row := true } s)
    if l.contains 16 then tallyOff s else s

def allRows : List (Nat × Nat) := (List.range 8).flatMap fun f => (List.range 16).map fun r => (f, r)

def assignTiles (s : State) : State := allRows.foldl (fun s x => assignRow x.1 x.2 s) s

/-- R492 for the PLLs of one domain; the mesh with none is FATAL. -/
def assignPll (s : State) (d : Nat) : State :=
  match [2 * d, 2 * d + 1].filter s.store.badPlls.contains with
  | [] => s
  | [_] => usePll d s
  | _ => if d < 8 then stopDomain d (setBu { s.bu with field := true } (usePll d s)) else stopDomain d (usePll d s)

def meshDead (s : State) : Bool := s.store.badPlls.contains 16 && s.store.badPlls.contains 17

/-- Capstan dice: a bad die's index goes to the next spare die. -/
def assignDie (s : State) (k : Nat) : State :=
  if !s.store.badDice.contains k then setCapstan k { die := k } s
  else match spareDice s with
    | d :: _ => setCapstan k { die := d } s
    | [] =>
      setCapstan k { die := k, failed := true }
        (setBu { s.bu with cap := true } { s with rel := { s.rel with secondFault := true } })

def assignDice (s : State) : State :=
  (List.range 32).foldl assignDie { s with cap := { s.cap with capstans := [] } }

/-- A parity group lacks more than one member. -/
def groupDead (s : State) : Bool :=
  (List.range 4).any fun g => decide (2 ≤ ((List.range 8).filter fun j => (getCapstan s (g * 8 + j)).failed).length)

/-- The faulty phases of a field are shed (R474, R492): the spare map names them, so that a stage run again sheds the same ones. -/
def assignPhases (s : State) (f : Nat) : State :=
  let l := (s.store.badPhases.filter fun u => u / 32 == f).map (· % 32)
  let x := getField s f
  let s := if l.isEmpty && x.phasesShed.isEmpty then s else setField f { x with phasesShed := l } s
  if l.length < 3 then s
  else
    let s := setBu { s.bu with lane := true } { s with rel := { s.rel with secondFault := true } }
    if 3 ≤ x.phasesShed.length then s else postFull Ev.railDegraded 3 (unitOf 6 (f * 32 + l.headD 0)) 0 0 [] s

/-- STAGE_INVENTORY. -/
def execStageInventory (v : Inventory) (s : State) : Out :=
  if !working s 3 then .next s
  else if !v.storeIntact then .next (stageFatal 1 s)
  else
    let s := (List.range 8).foldl assignPhases (assignDice ((List.range 9).foldl assignPll (assignTiles (takeBist v s))))
    if groupDead s then .next (stageFatal 3 s) else if meshDead s then .next (stageFatal 4 s) else .next (stageOk s)

/-! ### Stages 4 and 5: near stacks and fill (R287, R493, R494) -/

/-- R493 for one logical stack: its own hardware, else its pair row's spare stack, else cause 2. -/
def placeStack (s : State) (n : Nat) : State :=
  match usable s (n / 16 * 32 + n % 16) with
  | some m => setStack n { getStack s n with spliced := false, splicing := false, chanMap := m } s
  | none =>
    match usable s (spareStack n), s.near.units.any (fun (k, x) => k / 16 == n / 16 && k != n && x.spliced) with
    | some m, false => setStack n { getStack s n with spliced := true, splicing := false, chanMap := m } (setBu { s.bu with near := true } s)
    | _, _ => stageFatal 2 s

/-- Recorded soft repairs become hard in their order while the bank has a free hard element, which frees the soft spare (R287). -/
def harden (done : List RowRepair) : List RowRepair → List RowRepair
  | [] => done
  | r :: rest =>
    let used := ((done ++ rest).filter fun x => x.chan == r.chan && x.bank == r.bank && x.hard).length
    harden (done ++ [if r.hard || r.dead || 4 ≤ used then r else { r with hard := true }]) rest

/-- The same of the rim stacks, while hard resources remain (R300). -/
def hardenRim (done : List RimRepair) : List RimRepair → List RimRepair
  | [] => done
  | r :: rest =>
    let used := ((done ++ rest).filter fun x => x.die == r.die && x.hard).length
    hardenRim (done ++ [if r.hard || Config.rimHard ≤ used then r else { r with hard := true }]) rest

def addBadChannel (x : Nat × Nat) (s : State) : State :=
  if s.store.badChannels.contains x then s
  else record 7 6 0 3 (chanUnitOf x.1 x.2) 0xFFFFFFFF 0 0 [] { s with store := { s.store with badChannels := x :: s.store.badChannels } }

def addBadStack (u : Nat) (s : State) : State :=
  if s.store.badStacks.contains u then s
  else record 8 6 0 3 (unitOf 1 u) 0xFFFFFFFF 0 0 [] { s with store := { s.store with badStacks := u :: s.store.badStacks } }

/-- STAGE_STACKS: physical channels that fail training and physical stacks that fail their self-check. -/
def execStageStacks (failed : List (Nat × Nat)) (badStacks : List Nat) (s : State) : Out :=
  if !working s 4 then .next s
  else
    let s := badStacks.foldl (fun s u => addBadStack u s) (failed.foldl (fun s x => addBadChannel x s) s)
    let s := { s with store := { s.store with repairs := harden [] s.store.repairs } }
    let s := (List.range 1024).foldl placeStack s
    if s.bu.result.isSome then .next s else .next (stageOk s)

/-- A logical channel on which a write fails is replaced (R494). -/
def fillFails (s : State) (x : Nat × Nat) : State :=
  placeStack (addBadChannel (physStack s x.1, physChan (getStack s x.1) x.2) s) x.1

/-- Every memory zero. -/
def zeroAll (s : State) : State :=
  { s with
    mem := [], knots := [], caches := [], mesh := []
    near := { s.near with poisoned := [] }
    cap := { s.cap with cur := false, committed := 0, held := [] } }

/-- STAGE_FILL: rows with a burst that it could not write are repaired; then the logical channels on which a write still fails. -/
def execStageFill (rows : List (Nat × Nat × Nat × Nat)) (failed : List (Nat × Nat)) (s : State) : Out :=
  if !working s 5 then .next s
  else
    let s := rows.foldl (fun s (n, c, b, r) => repairRow { stack := n, chan := c, bank := b, row := r } true s) (zeroAll s)
    let s := failed.foldl fillFails s
    if s.bu.result.isSome then .next s else .next (stageOk s)

/-! ### Stage 6: capstans (R495) -/

/-- STAGE_CAPSTANS: dice whose image check or rim training fails. -/
def capstanWork (failed : List Nat) (s : State) : State :=
  let s := failed.foldl (fun s d =>
    if s.store.badDice.contains d then s
    else ledgerRec 10 10 0 (unitOf 3 d) 0xFFFFFFFF 0 [] { s with store := { s.store with badDice := d :: s.store.badDice } }) s
  let s := { s with store := { s.store with rimRepairs := hardenRim [] s.store.rimRepairs } }
  let s := assignDice { s with cap := { s.cap with ledger := [], groups := [] } }
  if groupDead s then stageFatal 3 s else stageOk s

def execStageCapstans (failed : List Nat) (s : State) : Out := imageStage 6 2 (capstanWork failed) s

/-! ### Stage 7: the broadcast (R496, R497) -/

/-- Physical tiles that the inventory did not mark bad. -/
def goodTiles (s : State) : List Nat :=
  (allRows.flatMap fun x => (List.range 17).map fun c => physId x.1 x.2 c).filter fun u => !s.store.badTiles.contains u

/-- STAGE_SEQ_FW: the image passes its checks and round 1 sends its chunks of 4 KiB. -/
def execStageSeqFw (s : State) : Out :=
  imageStage 7 3 (fun s => setBu { s.bu with round := 1, chunks := cdiv (5376 + bodyLen s) 4096, lacks := [] } s) s

/-- What a tile lacks after the round: a silent tile, taken to hold none, and one whose digest differs lack every chunk; a chunk once held stays held. -/
def tileLacks (b : BringUp) (lacking : List (Nat × List Nat)) (silent mismatch : List Nat) (u : Nat) : List Nat :=
  let all := List.range b.chunks
  if silent.contains u then all
  else match lacking.find? fun x => x.1 == u with
    | some x => if x.2.isEmpty then (if mismatch.contains u then all else [])
      else ((lookup u b.lacks).getD all).filter x.2.contains
    | none => if mismatch.contains u then all else []

/-- A tile that four rounds have not loaded is failed and recorded. -/
def failTile (s : State) (u : Nat) : State := record 1 6 0 3 (unitOf 0 u) 0xFFFFFFFF 0 0 [] (addBadTile u s)

/-- The tiles that four rounds have not loaded: all are failed, and each of their rows is then spliced or degraded as R492 says of the bad tiles that it has
(DESIGN CHOICE, assumption 120). -/
def failTiles (l : List Nat) (s : State) : State :=
  (allRows.filter fun x => l.any fun u => u / 512 == x.1 && u % 512 / 32 == x.2).foldl (fun s x => assignRow x.1 x.2 s) (l.foldl failTile s)

/-- What the next repair round sends (R496): a chunk that 16 tiles or more lack by multicast to all, any other by unicast to each tile that lacks it. -/
def planRound (left : Table (List Nat)) (b : BringUp) : BringUp :=
  let wide := (List.range b.chunks).filter fun c => decide (16 ≤ (left.filter fun x => x.2.contains c).length)
  { b with multicast := wide, unicast := (left.map fun x => (x.1, x.2.filter fun c => !wide.contains c)).filter fun x => !x.2.isEmpty }

/-- BROADCAST_ROUND ends: the chunks that tiles report to lack, tiles that reported nothing in 200 µs, complete tiles whose digest differs; a tile
in none of them is loaded. -/
def execBroadcastRound (lacking : List (Nat × List Nat)) (silent mismatch : List Nat) (s : State) : Out :=
  let b := s.bu
  if !working s 7 || b.round = 0 then .next s
  else
    let tiles := if b.round = 1 then goodTiles s else b.lacks.map (·.1)
    let left := (tiles.map fun u => (u, tileLacks b lacking silent mismatch u)).filter fun x => !x.2.isEmpty
    let s := setBu (planRound (if b.round < 4 then left else []) { b with lacks := left, round := b.round + 1 }) s
    if left.isEmpty then .next (stageOk s)
    else if b.round < 4 then .next s
    else .next (stageOk (failTiles (left.map (·.1)) s))

/-! ### Stages 8 to 10 -/

/-- STAGE_CADENCE. -/
def execStageCadence (s : State) : Out :=
  if working s 8 && (s.cad.state == .locked || s.cad.state == .internal) then .next (stageOk s) else .next s

/-- CADENCE_STAGE_TIMEOUT. -/
def execCadenceStageTimeout (s : State) : Out :=
  if working s 8 && s.cad.src == 0 && s.cad.state != .locked then .next (stageResult .failed Status.noCadence 0 s) else .next s

/-- An EXPECTED port has come to rest (R499). -/
def portSettled (s : State) (n : Nat) : Bool :=
  let st := (getPort s n).state
  !(planOf s n).expected || st == .active || st == .miscabled || st == .planMismatch || st == .failed

/-- STAGE_LINKS: the microcode is loaded and the link stage opens. -/
def execStageLinks (s : State) : Out :=
  imageStage 9 4 (fun s => stageOk (setBu { s.bu with linkOpen := true } s)) s

/-- STAGE_READY: STALL_EN and EVER_OFF take their reset values (R362, R500). -/
def execStageReady (s : State) : Out :=
  if working s 10 then .next (stageOk { s with watch := { s.watch with stallEn := true, everOff := false } }) else .next s

/-! ### The end of a stage (R486, R487, R499) -/

def endStage (st : StageState) (code : BitVec 16) (cause ms : Nat) (s : State) : State :=
  let code := if st == .done then (if s.bu.degraded then Status.buDegraded else Status.ok) else code
  setBu { s.bu with state := st, code, cause, elapsed := min ms (2 ^ 24 - 1), result := none, loaded := s.bu.loaded || (s.bu.stage == 3 && cause != 1) } s

/-- Stage 1 starts by itself once stage 0 is DONE and a port's PERST_N is released; more ports train as they are released. -/
def startPcie (s : State) : State :=
  let up := s.host.ports.any fun (_, p) => !p.perst
  if s.bu.stage == 0 && s.bu.state == .done && up then setBu { s.bu with stage := 1, state := .running, elapsed := 0 } s else s

/-- Released ports serve configuration. -/
def trainPorts (s : State) : State :=
  { s with host := { s.host with ports := mapVals (fun (p : PciePort) => if p.perst then p else { p with trained := true }) s.host.ports } }

/-- Stage 0 ends with the self-tests of the two copies; a standby runs its own cadence receiver from then on (R477). -/
def endReset (ms : Nat) (north south : Bool) (s : State) : State :=
  if north then
    startPcie (endStage .done 0 0 ms (followCad (setBu { s.bu with standby := !south } { s with rel := { s.rel with southActive := false, standby := south } })))
  else if south then
    startPcie (endStage .done 0 0 ms (setBu { s.bu with standby := true } { s with rel := { s.rel with southActive := true, standby := false } }))
  else endStage .failed 0 0 ms s

/-- DEGRADE.PORT and DEGRADE.LANE at the end of stage 9. -/
def linkDegrade (s : State) : State :=
  let ports := (List.range 24).filter fun n => (planOf s n).expected
  setBu { s.bu with
    port := s.bu.port || ports.any fun n => (getPort s n).state != .active
    lane := s.bu.lane || ports.any fun n => (getPort s n).spareInUse || (getPort s n).width4 || (getPort s n).laneFail != 0 } s

/-- STAGE_COMPLETE, of a stage whose control complex is there: in stage 1 once a released port serves configuration (R487); in stage 0 with the self-tests of the north and south copies, in stage 2 `south` with the check of the standby. -/
def execStageComplete (ms : Nat) (north south : Bool) (s : State) : Out :=
  if s.bu.state != .running || s.rel.ccFailed then .next s
  else match s.bu.stage, s.bu.result with
    | 0, _ => .next (endReset ms north south s)
    | 1, _ => .next (if s.host.ports.any fun (_, p) => !p.perst then endStage .done 0 0 ms (trainPorts s) else s)
    | 2, some r =>
      let ok := s.rel.standby && south
      let s := if r.state == .done then setBu { s.bu with standby := !ok } { s with rel := { s.rel with standby := ok } } else s
      .next (endStage r.state r.code r.cause ms s)
    | 9, some r =>
      if r.state == .done then
        if (List.range 24).all (portSettled s) then .next (endStage .done 0 0 ms (linkDegrade s)) else .next s
      else .next (endStage r.state r.code r.cause ms s)
    | _, some r => .next (endStage r.state r.code r.cause ms s)
    | _, none => .next s

/-- BU_STATUS as it is read. -/
def buStatus (b : BringUp) (elapsed : Nat) : Nat :=
  let st := match b.state with | .wait => 0 | .running => 1 | .done => 2 | .failed => 3 | .fatal => 4
  b.code.toNat * 2 ^ 48 + elapsed * 2 ^ 24 + b.cause * 65536 + b2n b.row * 2 ^ 15 + b2n b.tally * 2 ^ 14 + b2n b.field * 2 ^ 13 +
    b2n b.cap * 2 ^ 12 + b2n b.near * 2 ^ 11 + b2n b.port * 2 ^ 10 + b2n b.standby * 512 + b2n b.lane * 256 + st * 16 + b.stage

/-! ### Power input and resets (R552 to R557) -/

/-- The pin's level and REFCLK of a port outlast a reset. -/
def keepPort (p : PciePort) : PciePort := { perst := p.perst, refclk := p.refclk }

/-- The state after all volatile state is lost: the waiting commands, the defect store with its retired rows, host memory and the pins remain, and rails that are on
stay on, at OP0. -/
def volatileLost (s : State) : State :=
  { State.reset with
    fields := if s.pins.pwrOk then (s.fields.filter fun (_, f) => f.railMv != 0).map fun (k, _) => (k, { railMv := opMv 0 }) else []
    pending := s.pending, store := s.store, pins := s.pins, freeCtr := s.freeCtr
    near := { retired := s.near.retired }
    host := { mem0 := s.host.mem0, mem1 := s.host.mem1, ports := mapVals keepPort s.host.ports } }

/-- The restart threshold of this module, from 45.0 V to 46.0 V (R552; assumption 50). -/
def restartMv : Nat := 45000 + Config.restartOffset % 1001

/-- The shutdown thresholds of this module (R552; assumption 50). -/
def underMv : Nat := 43500 + Config.underOffset % 1001
def overMv : Nat := 57500 + Config.overOffset % 2001
def tripAmps : Nat := 600 + Config.tripOffset % 41

/-- Every rail off (R554), the standby rails of a precharge too. -/
def powerOff (leak : Bool) (s : State) : State :=
  volatileLost { s with pins := { s.pins with
    powered := false, pwrOk := false, settled := false, precharging := false, fell := false, leakLatched := s.pins.leakLatched || leak } }

/-- A condition for a shutdown: it turns off the rails that are on or starting. -/
def shutDown (leak : Bool) (s : State) : State := if s.pins.powered || s.pins.precharging then powerOff leak s else s

/-- PRECHARGE: the input has come to stand at so many millivolts. Above the overvoltage threshold or below the undervoltage threshold it causes a shutdown; below 40 V the
latches of a shutdown open; past the restart threshold precharge begins. Below -0.5 V the module can be damaged. -/
def execPrecharge (mv : Int) (s : State) : Out :=
  if mv < -500 then .fault .inputDamage
  else if (overMv : Int) < mv then .next (shutDown false s)
  else if mv < (underMv : Int) then
    let s := shutDown false s
    .next (if mv < 40000 then { s with pins := { s.pins with fell := true, leakLatched := false } } else s)
  else if (restartMv : Int) ≤ mv && !s.pins.powered && s.pins.fell && !s.pins.leakLatched then
    .next { s with pins := { s.pins with precharging := true, fell := false } }
  else .next s

/-- PWR_OK_RISE: the standby rails are in regulation, with the input still within its limits. -/
def execPwrOkRise (s : State) : Out :=
  if s.pins.precharging then
    .next { s with pins := { s.pins with precharging := false, powered := true, pwrOk := true, settled := false, fell := false } }
  else .next s

/-- What the input stands at passes its limit. -/
def inputTrips : InputFault → Bool
  | .under mv => decide (mv < (underMv : Int))
  | .over mv => decide ((overMv : Int) < mv)
  | .current amps => decide (tripAmps < amps)

/-- SHUTDOWN: the input has passed a limit for longer than R552 allows. -/
def execShutdown (c : InputFault) (s : State) : Out := .next (if inputTrips c then shutDown false s else s)

/-- LEAK. -/
def execLeak (s : State) : Out :=
  if s.pins.powered || s.pins.precharging then .next (powerOff true s) else .next { s with pins := { s.pins with leakLatched := true } }

/-- MOD_RST_ASSERT: with PWR_OK high all work stops and volatile state is lost. -/
def execModRstAssert (s : State) : Out :=
  let s := { s with pins := { s.pins with modRst := true } }
  if s.pins.pwrOk then .next (volatileLost s) else .next s

/-- Stage 0 begins once MOD_RST_N is released and 1 ms has passed since PWR_OK rose (R556): the boot ROM self-test runs. -/
def beginReset (s : State) : State :=
  if s.pins.pwrOk && s.pins.settled && !s.pins.modRst && s.bu.stage == 0 && s.bu.state == .wait then setBu { s.bu with state := .running } s else s

/-- MOD_RST_RELEASE. -/
def execModRstRelease (s : State) : Out := .next (beginReset { s with pins := { s.pins with modRst := false } })

/-- RESET_STAGE_START: 1 ms after PWR_OK rose. -/
def execResetStageStart (s : State) : Out := .next (beginReset { s with pins := { s.pins with settled := s.pins.pwrOk } })

/-! ### Port resets (R508, R559) -/

def getPcie (s : State) (n : Nat) : PciePort := lookupD {} n s.host.ports
def setPcie (n : Nat) (p : PciePort) (s : State) : State := { s with host := { s.host with ports := upsert n p s.host.ports } }

/-- Relabel the queues of commands in flight: f is their new queue. -/
def relabelP (f : Nat → Nat) (p : Packet) : Packet := { p with queue := f p.queue }
def relabelArmed (f : Nat → Nat) (a : Armed) : Armed := { a with queue := f a.queue }

/-- Every command in flight that names a queue names its new one. -/
def relabel (f : Nat → Nat) (s : State) : State :=
  { s with
    sched := s.sched.map fun e => { e with packet := relabelP f e.packet }
    plays := s.plays.map fun p => { p with queue := f p.queue }
    parting := s.parting.map fun x => (x.1, x.2.1, x.2.2.1, x.2.2.2.map (relabelP f))
    loans := s.loans.map fun l => { l with revokers := l.revokers.map (relabelP f) }
    colls := mapVals (fun (c : CollSlot) => { c with due := c.due.map (relabelP f), running := c.running.map (relabelP f) }) s.colls
    barriers := s.barriers.map fun b => { b with queue := f b.queue }
    host := { s.host with replies := s.host.replies.map fun r => { r with queue := f r.queue } }
    cap := { s.cap with
      armed := s.cap.armed.map (relabelArmed f)
      window := s.cap.window.map fun w => { w with armed := relabelArmed f w.armed }
      norm := s.cap.norm.map (relabelArmed f)
      log := s.cap.log.map fun l => { l with packet := relabelP f l.packet }
      loads := s.cap.loads.map fun x => (relabelP f x.1, x.2) } }

/-- A MOVE that runs and writes to this port's host has had no flushing read answered there (R241, R247). -/
def loseFlush (n : Nat) (s : State) (m : QMove) : QMove :=
  if m.started && opOf m.word == 0x30 && (hostPorts { s with hints := m.place } m.word).contains n then { m with unflushed := some n } else m

/-- A port's function is reset: its configuration space, its MSI-X table and APER_p; its queues are disabled, and the replies of commands in flight from them will not be
written: they go to the dead queues 64 + q. PERST_N holds the port in reset; another reset leaves it serving. -/
def resetPort (n : Nat) (pin : Bool) (s : State) : State :=
  let mine (q : Nat) : Bool := decide (q < 64) && (lookupD {} q s.host.queues).port == (n == 1)
  let s := relabel (fun q => if mine q then q + 64 else q) s
  let s := { s with
    plays := s.plays.map fun p => { p with queues := p.queues.map fun q => { q with moves := q.moves.map (loseFlush n s) } }
    host := { s.host with
      queues := s.host.queues.map fun (q, x) => (q, if mine q then { x with enable := false, stopped := false } else x), pba := s.host.pba.filter fun x => x.1 != n } }
  let p := getPcie s n
  setPcie n (if pin then { keepPort p with perst := true } else { keepPort p with trained := p.trained }) s

/-- PERST_ASSERT: PERST_N where `pin`, else a Function Level Reset or a hot reset. -/
def execPerstAssert (n : Nat) (pin : Bool) (s : State) : Out := .next (resetPort n pin s)

/-- PERST_RELEASE: the port trains, from its connector's REFCLK when that is present. -/
def execPerstRelease (n : Nat) (refclk : Bool) (s : State) : Out :=
  let s := setPcie n { getPcie s n with perst := false, refclk } s
  let s := startPcie s
  if stageDone s 1 then .next (setPcie n { getPcie s n with trained := true } s) else .next s

end Sys2Proof.Machine
end

