-- ==== Sys2Proof/Machine/Security.lean ====
section
/-! DEFINITION. Key slots, rollback counters, the DOE mailbox (certificates, attestation, debug challenge and unlock), MCTP control messages, and the debug
registers (R534 to R539, R547, R503). -/

namespace Sys2Proof.Machine

/-! ### Fuses (R534, R535) -/

/-- SEC_STATUS.REVOKED. -/
def revokedMask (s : State) : Nat := (List.range 4).foldl (fun m k => m + b2n (slotRevoked s k) * 2 ^ k) 0

/-- A revocation token's checks. -/
def revokeOk (s : State) (t : List Byte) : Bool :=
  (item t 0 8 == 0 || item t 0 8 == s.store.serial.toNat) && allZero (sliceB t 10 54) &&
    signedBy s (item t 9 1) (sliceB t 64 1952) (sliceB t 0 2016) (sliceB t 2016 3309)

/-- KEY_REVOKE of a token that has been read. -/
def revokeBy (p : Packet) (t : List Byte) (s : State) : State :=
  let k := item t 8 1
  if !revokeOk s t then refuse p Status.tokenInvalid s
  else if slotRevoked s k then accept p s
  else if (List.range 4).all fun j => j == k || slotRevoked s j then refuse p Status.lastSlot s
  else accept p (postFull Ev.keyRevoked p.origin 0xFFFFFFFF 0 0 [] { s with store := { s.store with revoked := k :: s.store.revoked } })

/-- KEY_REVOKE; a token that cannot be read ends it with 0x0401 (assumption 96). -/
def opKeyRevoke (p : Packet) (s : State) : State :=
  let a := item p.param 0 8
  let n := item p.param 8 4
  if !destOk s a n false then refuse p Status.addrRange s
  else if n ≠ 5325 then refuse p Status.tokenInvalid s
  else match engineRead 12 p.origin a n s with
    | (.gone st, s) => refuse p st s
    | (.got t, s) => revokeBy p t s

/-- ROLLBACK_SET; a kind with no running image admits no value above 0 (assumption 52). -/
def opRollbackSet (p : Packet) (s : State) : State :=
  let k := item p.param 0 1
  let v := item p.param 1 1
  let now := lookupD 0 k s.store.arb
  let limit := ((lookup k s.bu.images).map (·.arb)).getD 0
  if k = 0 || decide (4 < k) then refuse p Status.header s
  else if decide (64 < v) || decide (limit < v) then reply p Status.fuseLimit (BitVec.ofNat 64 now) s
  else if v ≤ now then reply p (okStatus p) (BitVec.ofNat 64 now) s
  else reply p (okStatus p) (BitVec.ofNat 64 v) { s with store := { s.store with arb := upsert k v s.store.arb } }

/-- DEBUG_LOCK. -/
def opDebugLock (p : Packet) (s : State) : State := accept p { s with dbgUnit := { s.dbgUnit with opened := false } }

/-! ### The DOE mailbox (R536 to R539) -/

/-- A response: CODE + 0x80, a byte the spec does not state, the status, the body. -/
def doeReply (port code : Nat) (st : BitVec 16) (body : List Byte) (s : State) : State :=
  let (v, s) := draw s
  setPcie port { getPcie s port with doe := [BitVec.ofNat 8 (code + 0x80), v.setWidth 8] ++ toLE 2 st.toNat ++ body } s

/-- A request reaches the mailbox of a function out of reset. -/
def doeUp (s : State) (port : Nat) : Bool := !(getPcie s port).perst && !xingClosed s 14 12 && !s.rel.ccFailed

/-- GET_CERT. -/
def execGetCert (port : Nat) (s : State) : Out :=
  if doeUp s port then .next (doeReply port 1 Status.ok (Config.certificates.flatMap fun c => toLE 4 c.length ++ c) s) else .next s

/-- The measurement of the running image of a kind. -/
def measOf (s : State) (k : Nat) : List Byte :=
  match lookup k s.bu.images with
  | some i => sliceB i.meas 0 64
  | none => List.replicate 64 0

/-- FLAGS of a report. -/
def reportFlags (s : State) : Nat :=
  b2n s.watch.stallEn + b2n s.watch.everOff * 2 + b2n s.dbgUnit.opened * 4 + b2n s.dbgUnit.ever * 8 + b2n s.host.freeze * 16 + fltStatus s % 2 * 32

/-- Bytes 0 to 319 of a report. -/
def reportBody (s : State) (nonce : List Byte) : List Byte :=
  toLE 4 0x41545354 ++ toLE 2 1 ++ toLE 2 0 ++ toLE 8 s.store.serial.toNat ++ sliceB nonce 0 32 ++
    toLE 8 (if ctRuns s then s.cad.ct.toNat else 0) ++ [BitVec.ofNat 8 (reportFlags s), BitVec.ofNat 8 (revokedMask s)] ++
    ([1, 2, 3, 4].map fun k => BitVec.ofNat 8 (lookupD 0 k s.store.arb)) ++ toLE 2 0 ++ [1, 2, 3, 4].flatMap (measOf s)

/-- ATTEST. -/
def execAttest (port : Nat) (nonce : List Byte) (s : State) : Out :=
  if doeUp s port then
    let b := reportBody s nonce
    .next (doeReply port 2 Status.ok (b ++ sliceB (Config.mlDsaSign b) 0 3309) s)
  else .next s

/-- DEBUG_CHALLENGE: 32 new bytes, free values, replace any outstanding challenge. -/
def execDebugChallenge (port : Nat) (s : State) : Out :=
  if doeUp s port then
    let c := (List.range 32).map fun k => (Config.freeValue (s.freeCtr + k)).setWidth 8
    .next (doeReply port 3 Status.ok c { s with freeCtr := s.freeCtr + 32, dbgUnit := { s.dbgUnit with challenge := some c } })
  else .next s

/-- A debug token's checks. -/
def tokenOk (s : State) (t : List Byte) : Bool :=
  t.length == 5309 && item t 0 8 != 0 && item t 0 8 == s.store.serial.toNat && s.dbgUnit.challenge == some (sliceB t 8 32) &&
    signedBy s (item t 44 1) (sliceB t 48 1952) (sliceB t 0 2000) (sliceB t 2000 3309)

/-- DEBUG_UNLOCK. -/
def execDebugUnlock (port : Nat) (t : List Byte) (s : State) : Out :=
  if !doeUp s port then .next s
  else
    let ok := tokenOk s t
    let s := { s with dbgUnit := { s.dbgUnit with challenge := none } }
    if ok then
      let s := { s with dbgUnit := { s.dbgUnit with opened := true, ever := true, scope := BitVec.ofNat 4 (item t 40 4) } }
      .next (doeReply port 4 Status.ok [] (post Ev.debugOpened [] s))
    else .next (doeReply port 4 Status.tokenInvalid [] s)

/-- DOE_DISCOVERY: the supported types, Discovery and Halanor's type 0x01. The layout of its response is PCI-SIG's (assumption 53). -/
def execDoeDiscovery (port : Nat) (s : State) : Out :=
  if doeUp s port then .next (setPcie port { getPcie s port with doe := [0x00, 0x01] } s) else .next s

/-- MCTP_CONTROL: answered with its command code; the content of the answer is DMTF's and a free value here (assumption 53). -/
def execMctpControl (cmd : Byte) (s : State) : Out :=
  if s.pins.pwrOk && !s.rel.ccFailed then
    let (v, s) := draw s
    .next (mctpReply [cmd, v.setWidth 8] s)
  else .next s

/-! ### The debug registers (R547) -/

/-- The kind that DBG_SEL names lies in the open scope. -/
def dbgOpen (s : State) : Bool := s.dbgUnit.opened && decide (s.dbgUnit.kind < 4) && s.dbgUnit.scope.getLsbD s.dbgUnit.kind

/-- DBG_SEL names an existing core. -/
def dbgExists (s : State) : Bool :=
  match s.dbgUnit.kind with
  | 0 => decide (s.dbgUnit.unit < 2)
  | 1 => decide (s.dbgUnit.unit % 32 < 17)
  | 2 => decide (s.dbgUnit.unit < 34)
  | 3 => decide (s.dbgUnit.unit < 24)
  | _ => false

def dbgKey (s : State) : Nat := s.dbgUnit.kind * 4096 + s.dbgUnit.unit
/-- The active control complex: HALT and STEP do nothing there. -/
def dbgActive (s : State) : Bool := s.dbgUnit.kind == 0 && s.dbgUnit.unit == 0

def setDbg (d : Debug) (s : State) : State := { s with dbgUnit := d }

/-- A selection carries a physical tile ID that names no tile (R10): a write of it, and an access to its core, end with an argument status, recorded as R543 records
one; the spec does not say which (0x010E, DESIGN CHOICE, assumption 103). -/
def noTile (kind unit : Nat) : Bool := kind == 1 && decide (17 ≤ unit % 32)
def dbgOnTile (off : Nat) (act : State → State) (s : State) : State :=
  if noTile s.dbgUnit.kind s.dbgUnit.unit then argReject off Status.addrRange s else act s

/-- HALT, RESUME, STEP. -/
def dbgHalt (s : State) : State :=
  if dbgExists s && !dbgActive s && !s.dbgUnit.halted.contains (dbgKey s) then setDbg { s.dbgUnit with halted := dbgKey s :: s.dbgUnit.halted } s
  else s

def dbgResume (s : State) : State :=
  if dbgExists s && s.dbgUnit.halted.contains (dbgKey s) then
    pumpAll (setDbg { s.dbgUnit with halted := s.dbgUnit.halted.filter (· != dbgKey s) } s)
  else s

/-- One instruction of a halted core; what it does inside the core is not in the spec, so it is counted. -/
def dbgStep (s : State) : State :=
  if dbgExists s && !dbgActive s && s.dbgUnit.halted.contains (dbgKey s) then
    setDbg { s.dbgUnit with steps := adjust 0 (dbgKey s) (· + 1) s.dbgUnit.steps } s
  else s

/-- The word at ADDR of the selected core. -/
def dbgWordKey (s : State) : Nat := dbgKey s * 2 ^ 61 + s.dbgUnit.addr.toNat / 8
def dbgWord (s : State) : W64 :=
  lookupD (Config.coreWord s.dbgUnit.kind s.dbgUnit.unit s.dbgUnit.addr.toNat) (dbgWordKey s) s.dbgUnit.words
def dbgNext (s : State) : State := setDbg { s.dbgUnit with addr := s.dbgUnit.addr + 8 } s

def dbgStore (v : W64) (s : State) : State := dbgNext (setDbg { s.dbgUnit with words := upsert (dbgWordKey s) v s.dbgUnit.words } s)

/-- What a host read returns. -/
def returnRead (l : List Byte) (poison : Bool) (s : State) : State := { s with host := { s.host with readData := l, readPoison := poison, readUr := false } }

/-- A host access that is an Unsupported Request: AER records it (R506, R507); the PCI-SIG specification is by reference (assumption 126). -/
def unsupported (port : Nat) (s : State) : State :=
  let p := getPcie s port
  setPcie port { p with cfg := { p.cfg with unsupported := true } } s
/-- A read that completes so, without data. -/
def urRead (port : Nat) (s : State) : State :=
  unsupported port { s with host := { s.host with readData := [], readPoison := false, readUr := true } }

/-- A write to a debug register at an offset, where the gate of R547 lets it act. -/
def dbgGate (act : State → State) (s : State) : State := if dbgOpen s then act s else lockViolation s

/-- A write of DBG_CTRL. -/
def writeDbgCtrl (v : W64) (s : State) : State :=
  dbgGate (dbgOnTile 0x3008 fun s =>
    let s := if bitAt v.toNat 0 then dbgHalt s else s
    let s := if bitAt v.toNat 2 then dbgStep s else s
    if bitAt v.toNat 1 then dbgResume s else s) s

def execDbgHalt (h : HostAccess) (s : State) : Out :=
  orHold h 0x3008 false 1 (fun s => if privReg h s then .next (dbgGate (dbgOnTile 0x3008 dbgHalt) s) else .next s) s

def execDbgResume (h : HostAccess) (s : State) : Out :=
  orHold h 0x3008 false 2 (fun s => if privReg h s then .next (dbgGate (dbgOnTile 0x3008 dbgResume) s) else .next s) s

def execDbgStep (h : HostAccess) (s : State) : Out :=
  orHold h 0x3008 false 4 (fun s => if privReg h s then .next (dbgGate (dbgOnTile 0x3008 dbgStep) s) else .next s) s

def execDbgDataWrite (h : HostAccess) (v : W64) (s : State) : Out :=
  orHold h 0x3020 true v.toNat (fun s => if privReg h s then .next (dbgGate (dbgOnTile 0x3020 (dbgStore v)) s) else .next s) s

/-- A read of DBG_DATA. -/
def readDbgData (s : State) : W64 × State := if dbgOpen s then (if noTile s.dbgUnit.kind s.dbgUnit.unit then 0 else dbgWord s, dbgOnTile 0x3020 dbgNext s) else (0, s)

/-- A register read that no control complex answers: during a takeover, or over a closed crossing (R46, R479). -/
def noReader (s : State) : Bool := s.rel.ccFailed || xingClosed s 14 12

/-- What it returns: the last snapshot's CT word and INPUT_W for the registers that show these (R479); what else it returns the spec does not say (a free value,
assumption 28). -/
def gapValue (x : Snap) (off : Nat) (v : W64) : Nat :=
  if off = 0x110 then x.ct.toNat
  else if off = 0x210 then v.toNat % 2 ^ 16 + x.inputW.toNat * 2 ^ 16 + v.toNat / 2 ^ 32 * 2 ^ 32
  else v.toNat
def gapRead (off : Nat) (wide : Bool) (s : State) : State :=
  let (v, s) := draw s
  let x := if s.rel.ccFailed && !xingClosed s 14 12 then gapValue s.snap (off / 8 * 8) v else v.toNat
  returnRead (if wide then toLE 8 x else toLE 4 (x / 2 ^ (8 * (off % 8)))) false s

def execDbgDataRead (h : HostAccess) (s : State) : Out :=
  if noReader s then .next (gapRead 0x3020 true s)
  else if privReg h s then
    let (v, s) := readDbgData s
    .next (returnRead (toLE 8 v.toNat) false s)
  else .next s

end Sys2Proof.Machine
end

