-- ==== Sys2Proof/Machine/Telemetry.lean ====
section
/-! DEFINITION. The telemetry snapshot block, TELEM_SNAP, and the event and fault records that EVENT_GET and FAULT_GET write (R482, R529, R549 to R551). -/

namespace Sys2Proof.Machine

/-! ### The snapshot block -/

def byteOf (x k : Nat) : Byte := BitVec.ofNat 8 (x / 256 ^ k)

/-- A sensor's byte at a block offset (assumption 9). -/
def Snap.sensor (x : Snap) (o : Nat) : Byte := Config.sensorByte x.seq o

/-- A thermal state that the module does not keep, of a stack or die that serves no logical one: 0 to 4. -/
def Snap.thermal (x : Snap) (o : Nat) : Byte := BitVec.ofNat 8 ((x.sensor o).toNat % 5)

/-- Phases installed in a rail group: N + 2 of them, at most 28, the same in every block (R551). -/
def phasesIn (g : Nat) : Nat := 3 + (Config.heldByte (0x105 + 64 * g)).toNat % 26

/-- Header and power plane. -/
def snapHead (x : Snap) (o : Nat) : Byte :=
  if o < 8 then byteOf x.ct.toNat o
  else if o < 16 then byteOf x.seq (o - 8)
  else if o < 20 then byteOf 31872 (o - 16)
  else if o < 22 then byteOf 1 (o - 20)
  else if o < 0x80 then 0
  else if o < 0x84 then x.sensor o
  else if o < 0x88 then byteOf x.inputW.toNat (o - 0x84)
  else if o < 0x8C then x.sensor o
  else 0

/-- Rail groups: a shed phase carries no current and is not in service; nor does one beyond the installed phases. -/
def snapRail (x : Snap) (o : Nat) : Byte :=
  let g := (o - 0x100) / 64
  let b := (o - 0x100) % 64
  let shed := lookupD [] g x.shed
  if 13 ≤ g || b == 6 || b == 7 then 0
  else if 8 ≤ b && phasesIn g ≤ (b - 8) / 2 then 0
  else if b = 5 then BitVec.ofNat 8 (phasesIn g)
  else if b = 4 then BitVec.ofNat 8 (phasesIn g - shed.length)
  else if 8 ≤ b && shed.contains ((b - 8) / 2) then 0
  else x.sensor o

/-- Tile records. -/
def snapTile (x : Snap) (o : Nat) : Byte :=
  let n := (o - 0x500) / 8
  let b := (o - 0x500) % 8
  let f := n / 272
  let r := n % 272 / 17
  let c := n % 17
  let u := physId f r c
  if b = 1 then BitVec.ofNat 8 (b2n (x.badTiles.contains u) + 2 * b2n (c == 16 && (lookup (f * 16 + r) x.splices).isSome))
  else if 4 ≤ b then
    match lookup u x.rings with
    | some v => byteOf v (b - 4)
    | none => Config.heldByte o
  else x.sensor o

/-- The logical stack that a physical stack serves. -/
def Snap.logical (x : Snap) (pair c : Nat) : Option Nat :=
  if c < 16 then (if (lookupD {} (pair * 16 + c) x.near).spliced then none else some (pair * 16 + c))
  else ((List.range 16).map fun k => pair * 16 + k).find? fun n => (lookupD {} n x.near).spliced

/-- Near-stack records. -/
def snapStack (x : Snap) (o : Nat) : Byte :=
  let n := (o - 0x4900) / 8
  let b := (o - 0x4900) % 8
  match x.logical (n / 17) (n % 17) with
  | some l =>
    let y : Stack := lookupD {} l x.near
    if b = 0 then BitVec.ofInt 8 y.temp
    else if b = 1 then BitVec.ofNat 8 y.thermal.code
    else if b = 2 then BitVec.ofNat 8 (y.migrating.getD 0xFF)
    else if b = 3 then 0
    else byteOf y.corrected (b - 4)
  | none => if b = 2 then 0xFF else if b = 3 then 0 else if b = 0 then x.sensor o else if b = 1 then x.thermal o else Config.heldByte o

/-- Capstan records, by die. -/
def snapCap (x : Snap) (o : Nat) : Byte :=
  let d := (o - 0x6B00) / 16
  let b := (o - 0x6B00) % 16
  match x.capstans.find? fun (_, c) => c.die == d && !c.failed with
  | some (k, c) =>
    if b = 1 then BitVec.ofInt 8 c.rimTemp
    else if b = 2 then BitVec.ofNat 8 c.rimThermal.code
    else if b = 3 then BitVec.ofNat 8 k
    else if b = 6 || b = 7 then 0
    else if 8 ≤ b then byteOf c.corrected (b - 8)
    else x.sensor o
  | none => if b = 3 then 0xFF else if b = 6 || b = 7 then 0 else if b = 2 then x.thermal o else if 8 ≤ b then Config.heldByte o else x.sensor o

/-- Hawser port records. -/
def snapPort (x : Snap) (o : Nat) : Byte :=
  let n := (o - 0x6D80) / 160
  let b := (o - 0x6D80) % 160
  let p : HPort := lookupD {} n x.ports
  let l := b / 16
  if b < 144 then
    if b % 16 < 8 then byteOf (lookupD 0 l p.bitErrs) (b % 16)
    else if b % 16 < 12 then byteOf (lookupD 0 l p.badWords) (b % 16 - 8)
    else byteOf (lookupD 0 l p.fixedWords) (b % 16 - 12)
  else if b < 148 then byteOf p.naks (b - 144)
  else if b < 152 then byteOf p.resent (b - 148)
  else byteOf (lookupD 0 ((b - 152) / 2) p.credits) (b % 2)

/-- Byte o of the block (R550). -/
def snapByte (x : Snap) (o : Nat) : Byte :=
  if o < 0x100 then snapHead x o
  else if o < 0x500 then snapRail x o
  else if o < 0x4900 then snapTile x o
  else if o < 0x6B00 then snapStack x o
  else if o < 0x6D20 then snapCap x o
  else if o < 0x6D80 then 0
  else if o < 0x7C80 then snapPort x o
  else 0

/-- TELEM_SNAP, of the block in force at its FIRE time. -/
def opTelemSnap (x : Snap) (p : Packet) (s : State) : State :=
  let a := item p.param 0 8
  let n := item p.param 8 4
  if 249 < n then refuse p Status.header s
  else if !destOk s a (128 * n) true then refuse p Status.addrRange s
  else accept p (destWrite p.origin a ((List.range (128 * n)).map (snapByte x)) s)

/-! ### Records -/

def Event.bytes (e : Event) : List Byte :=
  det [(8, e.ct.toNat), (8, e.seq), (2, e.code), (1, e.origin), (1, 0), (4, e.unit.toNat), (4, e.play.toNat), (4, e.step.toNat)] ++
    sliceB e.detail 0 32

def FaultRec.bytes (r : FaultRec) : List Byte :=
  det [(8, r.ct.toNat), (4, r.seq), (1, r.cls), (1, r.action), (1, r.result), (1, 0), (4, r.unit.toNat), (4, r.logical.toNat),
    (4, r.step.toNat), (4, r.play.toNat)] ++ sliceB r.detail 0 32

/-- The records [first, first + count), each as `get` finds it: an overwritten one as zeros, one not yet written as free values. -/
def recordBytes (get : Nat → Option (List Byte)) (next first : Nat) : Nat → State → List Byte × State
  | 0, s => ([], s)
  | n + 1, s =>
    let (b, s) := match get first with
      | some l => (l, s)
      | none =>
        if first < next then (List.replicate 64 0, s)
        else ((List.range 64).map fun k => (Config.freeValue (s.freeCtr + k)).setWidth 8, { s with freeCtr := s.freeCtr + 64 })
    let (l, s) := recordBytes get next (first + 1) n s
    (b ++ l, s)

/-- Write count records of 64 B at a destination. -/
def putRecords (p : Packet) (get : Nat → Option (List Byte)) (next first count dest : Nat) (s : State) : State :=
  if count = 0 || 4096 < count then refuse p Status.header s
  else if !destOk s dest (64 * count) true then refuse p Status.addrRange s
  else
    let (l, s) := recordBytes get next first count s
    accept p (destWrite p.origin dest l s)

/-- EVENT_GET. -/
def opEventGet (p : Packet) (s : State) : State :=
  putRecords p (fun k => (s.host.events.find? fun e => e.seq == k).map Event.bytes) s.host.evtNext
    (item p.param 0 8) (item p.param 8 4) (item p.param 16 8) s

/-- FAULT_GET. -/
def opFaultGet (p : Packet) (s : State) : State :=
  putRecords p (fun k => (s.store.ledger.find? fun r => r.seq == k).map FaultRec.bytes) s.store.seq
    (item p.param 0 4) (item p.param 4 4) (item p.param 8 8) s

end Sys2Proof.Machine
end

