-- ==== Sys2Proof/Machine/Registers.lean ====
section
/-! DEFINITION. The register map: what a read of each register returns, what a write does, views, widths, latches and locks (chapter 19, R507 to R516,
R541 to R543). -/

namespace Sys2Proof.Machine

/-! ### Which register lies at an offset (R545) -/

/-- A register: its width in bits (128 for both halves of a 128-bit one) and the views that reach it: 0 privileged only, 1 the job view reads it,
2 both views. -/
structure RegInfo where
  width : Nat
  view : Nat
  deriving DecidableEq, Repr

def inRange (x lo n : Nat) : Bool := decide (lo ≤ x) && decide (x < lo + n)

/-- Registers below 0x00_0200. -/
def regLow : Nat → Option RegInfo
  | 0x00 => some ⟨32, 2⟩ | 0x08 => some ⟨64, 2⟩ | 0x10 => some ⟨32, 0⟩ | 0x18 => some ⟨64, 1⟩ | 0x20 => some ⟨32, 0⟩ | 0x28 => some ⟨32, 0⟩
  | 0x30 => some ⟨64, 2⟩ | 0x38 => some ⟨64, 1⟩ | 0x40 => some ⟨64, 1⟩ | 0x48 => some ⟨64, 1⟩ | 0x50 => some ⟨32, 0⟩ | 0x58 => some ⟨64, 1⟩
  | 0x60 => some ⟨64, 1⟩ | 0x68 => some ⟨32, 1⟩ | 0x100 => some ⟨32, 0⟩ | 0x108 => some ⟨32, 0⟩ | 0x110 => some ⟨64, 1⟩ | 0x118 => some ⟨32, 1⟩
  | 0x120 => some ⟨64, 0⟩
  | _ => none

/-- The register whose slot begins at an offset. -/
def regInfo (o : Nat) : Option RegInfo :=
  if o < 0x200 then regLow o
  else if o = 0x200 then some ⟨32, 2⟩
  else if o = 0x208 then some ⟨64, 0⟩
  else if o = 0x210 || inRange o 0x240 64 then some ⟨64, 1⟩
  else if inRange o 0x300 64 then some ⟨32, 1⟩
  else if inRange o 0x340 128 then some ⟨64, 2⟩
  else if o = 0x3C0 || o = 0x3C8 then some ⟨32, 1⟩
  else if o = 0x3D0 || o = 0x3D8 || o = 0x400 || o = 0x408 || o = 0x500 || o = 0x508 then some ⟨64, 1⟩
  else if o = 0x510 || o = 0x518 then some ⟨32, 0⟩
  else if o = 0x520 || o = 0x528 || inRange o 0x800 1024 then some ⟨128, 0⟩
  else if o = 0x1000 then some ⟨32, 0⟩
  else if inRange o 0x1100 192 then some ⟨64, 1⟩
  else if inRange o 0x2000 2048 then some ⟨64, 0⟩
  else if o = 0x3000 || o = 0x3008 || o = 0x3010 then some ⟨32, 0⟩
  else if o = 0x3018 || o = 0x3020 then some ⟨64, 0⟩
  else none

/-- A register that stage 2 need not precede (R488). -/
def earlyReg (o : Nat) : Bool := o == 0x00 || o == 0x08 || o == 0x10 || o == 0x18

/-! ### Reads -/

/-- CAD_STATUS. -/
def cadStatus (c : Cad) : Nat :=
  let st := match c.state with
    | .unlocked => 0 | .acquiring => 1 | .locked => 2 | .holdover => 3 | .slew => 4 | .internal => 5
  c.edgeErr * 2 ^ 24 + c.stampErr * 65536 + b2n c.nom60 * 2 ^ 14 + c.offset * 16 + b2n c.reject * 8 + st

/-- CAD_PERIOD: 0 in UNLOCKED and ACQUIRING. -/
def cadPeriod (s : State) : Nat := if ctRuns s then s.cad.periodPs % 2 ^ 32 else 0

/-- SEC_STATUS. -/
def secStatus (s : State) : Nat :=
  let arb (k : Nat) := lookupD 0 k s.store.arb
  arb 4 * 2 ^ 56 + arb 3 * 2 ^ 48 + arb 2 * 2 ^ 40 + arb 1 * 2 ^ 32 + revokedMask s * 16 + b2n s.dbgUnit.ever * 2 + b2n s.dbgUnit.opened

def xingReg (x : Xing) : Nat := x.count * 65536 + x.dst * 256 + x.src * 16 + b2n x.timeout * 2 + b2n x.overrun
def aperReg (a : Aper) : Nat := a.base.toNat * 2 ^ 30 + b2n a.writeEn * 2 + b2n a.en
def evtCfg (h : HostIf) : Nat := h.evtVector.toNat * 256 + b2n h.evtPort * 2 + b2n h.evtEn

def hostQueue (s : State) (q : Nat) : Queue := lookupD {} q s.host.queues
def setHostQueue (q : Nat) (x : Queue) (s : State) : State := { s with host := { s.host with queues := upsert q x s.host.queues } }

def qCfg (q : Queue) : Nat :=
  q.vector.toNat * 2 ^ 40 + q.cqsize.toNat * 2 ^ 36 + q.sqsize.toNat * 2 ^ 32 + b2n q.irqAll * 8 + b2n q.view * 4 + b2n q.port * 2 + b2n q.enable
def qStatus (q : Queue) : Nat :=
  q.sqhead * 2 ^ 48 + q.cqtail * 2 ^ 32 + q.err * 256 + b2n q.stopped * 2 + b2n ((q.enable && !q.stopped) || decide (0 < q.outstanding))

/-- The registers of a queue, by their index in the queue's 32 B. -/
def queueReg (q : Queue) : Nat → Nat
  | 0 => qCfg q | 1 => q.sqbase.toNat | 2 => q.cqbase.toNat | _ => qStatus q

def fldStatus (s : State) (n : Nat) : Nat :=
  if s.bu.loaded then (getField s n).tallyRow.toNat * 65536 + (getField s n).degradedRow.toNat else 0xFFFF0000

/-- DBG_SEL reads as written; the others read zero behind a closed gate (R547). -/
def dbgReg (s : State) : Nat → Nat
  | 0x3000 => s.dbgUnit.kind * 4096 + s.dbgUnit.unit
  | 0x3010 => if dbgOpen s then b2n (s.dbgUnit.halted.contains (dbgKey s)) * 2 + b2n (dbgExists s) else 0
  | 0x3018 => if dbgOpen s then s.dbgUnit.addr.toNat else 0
  | _ => 0

/-- ELAPSED: of a stage that runs, the milliseconds to now, a free value. -/
def elapsedNow (s : State) : Nat :=
  if s.bu.state == .running then (Config.freeValue s.freeCtr).toNat % 2 ^ 24 else s.bu.elapsed

/-- The value of a register below 0x00_0200. -/
def readLow (s : State) : Nat → Nat
  | 0x00 => 0x7B02 * 65536 + s.store.stepping.toNat * 256 + s.store.build.toNat
  | 0x08 => s.store.serial.toNat
  | 0x18 => buStatus s.bu (elapsedNow s)
  | 0x20 => b2n s.host.freeze * 2 + b2n s.host.privOpen
  | 0x28 => b2n s.host.jobOpen
  | 0x30 => s.host.seed.toNat
  | 0x38 => secStatus s
  | 0x40 => aperReg (getPcie s 0).aper
  | 0x48 => aperReg (getPcie s 1).aper
  | 0x50 => evtCfg s.host
  | 0x58 => s.host.evtNext
  | 0x60 => fltStatus s
  | 0x68 => xingReg s.xing
  | 0x100 => cadCtrl s.cad
  | 0x108 => cadStatus s.cad
  | 0x110 => s.cad.ct.toNat
  | 0x118 => cadPeriod s
  | 0x120 => s.near.calNext.toNat
  | _ => 0

/-- The value of the register slot at an offset; for a 128-bit register its lower half, and its upper half at the offset + 8. -/
def regValue (s : State) (o : Nat) : Nat :=
  if o < 0x200 then readLow s o
  else if o = 0x200 then pwrPref s.power
  else if o = 0x208 then pwrCtrl s.power
  else if o = 0x210 then pwrStatus s.power
  else if inRange o 0x240 64 then fldPwr (getField s ((o - 0x240) / 8))
  else if inRange o 0x300 64 then fldStatus s ((o - 0x300) / 8)
  else if inRange o 0x340 64 then fldTally (getField s ((o - 0x340) / 8))
  else if inRange o 0x380 64 then fldAudit (getField s ((o - 0x380) / 8))
  else if o = 0x3C0 then watchCtrl s.watch
  else if o = 0x3C8 then watchCfg s.watch
  else if o = 0x3D0 then s.watch.norm.toNat
  else if o = 0x3D8 then s.watch.clip.toNat
  else if o = 0x400 then capCommitReg s
  else if o = 0x408 then s.cap.shift.toNat
  else if o = 0x500 then (scrubReg s.near.lap s.near.starved s.near.bound).toNat
  else if o = 0x508 then (scrubReg s.cap.rimLap s.cap.rimStarved s.cap.rimBound).toNat
  else if o = 0x510 then s.near.rplIndex.toNat
  else if o = 0x518 then s.near.retired.length
  else if o = 0x520 then (rplData s).1.toNat
  else if o = 0x528 then (rplData s).2.toNat
  else if inRange o 0x800 1024 then
    (if o % 16 = 0 then (getRegion s ((o - 0x800) / 16)).lower else (getRegion s ((o - 0x800) / 16)).upper).toNat
  else if o = 0x1000 then s.lqWindow.toNat
  else if inRange o 0x1100 192 then hawPortReg (getPort s ((o - 0x1100) / 8))
  else if inRange o 0x2000 2048 then queueReg (hostQueue s ((o - 0x2000) / 32)) ((o - 0x2000) % 32 / 8)
  else dbgReg s o

/-- The knot of a key of the knot window, by its index. -/
def knotWindow (s : State) (k : Nat) : Nat := if k < 0x41400 then (knot s k).toNat else 0

/-- The slot as a host reads it through a port: registers, the snapshot block, the knot window, the MSI-X table and pending bits; reserved offsets read zero, and in the job view so do registers of the
privileged view. -/
def slotRead (s : State) (port : Nat) (job : Bool) (o : Nat) : Nat :=
  if inRange o 0x100000 0x105000 then
    if stageDone s 2 then knotWindow s ((o - 0x100000) / 4) + knotWindow s ((o - 0x100000) / 4 + 1) * 2 ^ 32 else 0
  else if inRange o 0x10000 0x7C80 then
    if stageDone s 2 then ofLE ((List.range 8).map fun k => snapByte s.snap (o - 0x10000 + k)) else 0
  else if !job && inRange o 0x1010000 0x1000 then
    if !stageDone s 2 then 0 else ofLE ((List.range 8).map fun k => lookupD 0 (o - 0x1010000 + k) (getPcie s port).msix)
  else if !job && inRange o 0x1011000 32 then
    if !stageDone s 2 then 0 else (List.range 64).foldl (fun x k => x + b2n (s.host.pba.contains (port, (o - 0x1011000) * 8 + k)) * 2 ^ k) 0
  else match regInfo o with
    | none => 0
    | some r => if (job && r.view == 0) || !(stageDone s 2 || (earlyReg o && !job)) then 0 else regValue s o

/-- The lower half of a 128-bit register. -/
def lowerHalf (o : Nat) : Bool := o == 0x520 || (inRange o 0x800 1024 && o % 16 == 0)
def upperHalf (o : Nat) : Bool := o == 0x528 || (inRange o 0x800 1024 && o % 16 == 8)

/-- What is read of a slot: 8 B, or the 4 B at an offset within it. -/
def readPart (off : Nat) (wide : Bool) (v : Nat) : List Byte := if wide then toLE 8 v else toLE 4 (v / 2 ^ (8 * (off % 8)))

/-- A register read that the control complex answers. A read of bits [63:0] of a 128-bit register latches bits [127:64] for the port; a read of those returns what
is latched; a read of DBG_DATA moves ADDR. -/
def readSlot (h : HostAccess) (off : Nat) (wide : Bool) (s : State) : State :=
  let o := off / 8 * 8
  let priv := privReg h s
  let p := getPcie s h.port
  if o = 0x3020 && priv then
    let (v, s) := readDbgData s
    returnRead (readPart off wide v.toNat) false s
  else
    let v := if upperHalf o && priv then p.latch.toNat else slotRead s h.port h.job o
    let s := if lowerHalf o && priv then setPcie h.port { p with latch := BitVec.ofNat 64 (slotRead s h.port h.job (o + 8)) } s else s
    let s := if o = 0x18 then { s with freeCtr := s.freeCtr + 1 } else s
    returnRead (readPart off wide v) false s

/-- An offset of the telemetry snapshot block, which the ports read themselves during a takeover (R479). -/
def inBlock (o : Nat) : Bool := inRange o 0x10000 0x7C80

/-- READ_LATCH: a host read of 8 B or 4 B at an aligned offset; another completes as an Unsupported Request (R507, R541). -/
def execReadLatch (h : HostAccess) (off : Nat) (wide : Bool) (s : State) : Out :=
  if off % (if wide then 8 else 4) ≠ 0 then .next (urRead h.port s)
  else if xingClosed s 14 12 || (s.rel.ccFailed && !inBlock off) then .next (gapRead off wide s)
  else .next (readSlot h off wide s)

/-! ### Writes -/

/-- PRIV_LOCK and JOB_LOCK (R509). -/
def writePrivLock (v : W64) (s : State) : State :=
  let opn := bitAt v.toNat 0
  { s with host := { s.host with
      privOpen := if opn && s.host.freeze then s.host.privOpen else opn, freeze := s.host.freeze || bitAt v.toNat 1 } }

/-- PRIV_LOCK_FREEZE. -/
def execPrivLockFreeze (h : HostAccess) (s : State) : Out :=
  orHold h 0x20 false (2 + b2n s.host.privOpen) (fun s =>
    if privReg h s then .next { s with host := { s.host with freeze := true } } else .next s) s

/-- A write of JOB_SEED (R142). -/
def seedBusy (s : State) : Bool := s.cap.armed.isSome || s.plays.any fun p => decide (s.cap.committed.toNat < p.step.toNat)

def writeSeed (v : W64) (s : State) : State :=
  if seedBusy s then argReject 0x30 Status.seedBusy s else { s with host := { s.host with seed := v } }

/-- JOB_SEED_WRITE, in either view. -/
def execJobSeedWrite (h : HostAccess) (v : W64) (s : State) : Out :=
  orHold h 0x30 true v.toNat (fun s => if stageDone s 2 then .next (writeSeed v s) else .next s) s

def writeAper (n : Nat) (v : W64) (s : State) : State :=
  let p := getPcie s n
  setPcie n { p with aper := { p.aper with base := BitVec.ofNat 20 (fld v.toNat 30 20), writeEn := bitAt v.toNat 1, en := bitAt v.toNat 0 } } s

def writeEvtCfg (v : W64) (s : State) : State :=
  { s with host := { s.host with evtVector := BitVec.ofNat 8 (fld v.toNat 8 8), evtPort := bitAt v.toNat 1, evtEn := bitAt v.toNat 0 } }

/-- A write of CAD_CTRL: SRC and OUT_EN are RWL, RESYNC acts whatever the lock; where RESYNC is refused the whole write changes nothing (R31, R543). -/
def writeCadCtrl (v : W64) (s : State) : State :=
  if bitAt v.toNat 3 && canResync s && resyncBusy s then argReject 0x100 Status.resyncBusy s else
  let s := if s.host.privOpen then
      writeSrc (BitVec.ofNat 2 v.toNat) (setCad (driveOut { s.cad with outEn := bitAt v.toNat 2 }) s)
    else lockViolation s
  if bitAt v.toNat 3 then doResync s else s

/-- A write of a queue's register: while ENABLE is 1 only ENABLE can change (R515). A queue that is enabled again serves from SQHEAD without its error
(R519). -/
def setEnable (on : Bool) (q : Queue) : Queue :=
  if on && !q.enable then { q with enable := true, stopped := false, err := 0 }
  else { q with enable := on, stopped := q.stopped && on }

def writeQueueCfg (n : Nat) (v : W64) (s : State) : State :=
  let q := hostQueue s n
  let x := v.toNat
  let q' := if q.enable then q
    else { q with
      vector := BitVec.ofNat 8 (fld x 40 8)
      cqsize := if fld x 36 4 ≤ 8 then BitVec.ofNat 4 (fld x 36 4) else q.cqsize
      sqsize := if fld x 32 4 ≤ 9 then BitVec.ofNat 4 (fld x 32 4) else q.sqsize
      irqAll := bitAt x 3, view := bitAt x 2, port := bitAt x 1 }
  setHostQueue n (setEnable (bitAt x 0) q') s

def writeQueueReg (n k : Nat) (v : W64) (s : State) : State :=
  let q := hostQueue s n
  match k with
  | 0 => writeQueueCfg n v s
  | 1 => if q.enable then s else setHostQueue n { q with sqbase := v } s
  | 2 => if q.enable then s else setHostQueue n { q with cqbase := v } s
  | _ => s

/-- QUEUE_ENABLE and QUEUE_DISABLE. -/
def execQueueEnable (h : HostAccess) (n : Nat) (s : State) : Out :=
  orHold h (0x2000 + 32 * n) true (qCfg (hostQueue s n) / 2 * 2 + 1) (fun s =>
    if privReg h s then .next (setHostQueue n (setEnable true (hostQueue s n)) s) else .next s) s

def execQueueDisable (h : HostAccess) (n : Nat) (s : State) : Out :=
  orHold h (0x2000 + 32 * n) true (qCfg (hostQueue s n) / 2 * 2) (fun s =>
    if privReg h s then .next (setHostQueue n (setEnable false (hostQueue s n)) s) else .next s) s

/-- Writes of DBG_SEL, DBG_CTRL, DBG_ADDR and DBG_DATA; DBG_STATUS is read-only. -/
def writeDbg (o : Nat) (v : W64) (s : State) : State :=
  if o = 0x3008 then writeDbgCtrl v s
  else dbgGate (fun s =>
    if o = 0x3000 then
      (if noTile (fld v.toNat 12 4) (fld v.toNat 0 12) then argReject 0x3000 Status.addrRange s
       else setDbg { s.dbgUnit with kind := fld v.toNat 12 4, unit := fld v.toNat 0 12 } s)
    else if o = 0x3018 then setDbg { s.dbgUnit with addr := v &&& ~~~7 } s
    else if o = 0x3020 then dbgOnTile 0x3020 (dbgStore v) s
    else s) s

/-- A write of the register at an offset, its view and width being right. -/
def setReg (o : Nat) (v : W64) (s : State) : State :=
  if o = 0x10 then writeBuCtrl v s
  else if o = 0x20 then writePrivLock v s
  else if o = 0x28 then { s with host := { s.host with jobOpen := bitAt v.toNat 0 } }
  else if o = 0x30 then writeSeed v s
  else if o = 0x40 then writeAper 0 v s
  else if o = 0x48 then writeAper 1 v s
  else if o = 0x50 then writeEvtCfg v s
  else if o = 0x68 then xingClear (bitAt v.toNat 1) (bitAt v.toNat 0) s
  else if o = 0x100 then writeCadCtrl v s
  else if o = 0x108 then setCad { s.cad with reject := s.cad.reject && !bitAt v.toNat 3 } s
  else if o = 0x200 then setPref v.toNat s
  else if o = 0x208 then writePwrCtrl v s
  else if inRange o 0x340 64 then writeTally ((o - 0x340) / 8) v s
  else if inRange o 0x380 64 then writeAudit ((o - 0x380) / 8) v s
  else if o = 0x3C0 then writeWatchCtrl v s
  else if o = 0x3C8 then writeWatchCfg v s
  else if o = 0x400 then writeCommitted (BitVec.ofNat 32 (fld v.toNat 32 32)) s
  else if o = 0x500 then writeNsScrub v s
  else if o = 0x508 then writeRimScrub v s
  else if o = 0x510 then { s with near := { s.near with rplIndex := BitVec.ofNat 14 v.toNat } }
  else if inRange o 0x800 1024 then
    (if o % 16 = 0 then writeRegionLower ((o - 0x800) / 16) v s else writeRegionUpper ((o - 0x800) / 16) v s)
  else if o = 0x1000 then writeHawCfg v s
  else if inRange o 0x2000 2048 then writeQueueReg ((o - 0x2000) / 32) ((o - 0x2000) % 32 / 8) v s
  else if inRange o 0x3000 40 then writeDbg o v s
  else s

/-- A host write to a register slot: the view must reach it, and 4 B do not write a register wider than 32 bits (R541). -/
def writeSlot (h : HostAccess) (off : Nat) (wide : Bool) (v : W64) (s : State) : State :=
  let o := off / 8 * 8
  match regInfo o with
  | none => s
  | some r =>
    if (h.job && r.view != 2) || !(stageDone s 2 || (earlyReg o && !h.job)) then s
    else if !wide && 32 < r.width then post Ev.argReject [] s
    else if off % 8 ≠ 0 then s
    else setReg o (if r.width = 32 then BitVec.ofNat 64 (v.toNat % 2 ^ 32) else v) s

/-! ### Doorbells (R516, R518) -/

def sqSlots (q : Queue) : Nat := 2 ^ (q.sqsize.toNat + 7)
def cqEntries (q : Queue) : Nat := 2 ^ (q.cqsize.toNat + 4)
/-- Slots from SQHEAD to an index. -/
def ahead (size head x : Nat) : Nat := (x + size - head % size) % size

/-- A doorbell written in the job view for a privileged queue does nothing and sets ERR 2. -/
def doorbellView (h : HostAccess) (n : Nat) (act : Queue → State → State) (s : State) : State :=
  let q := hostQueue s n
  if !stageDone s 2 then s
  else if h.job && !q.view then setHostQueue n { q with err := 2 } s
  else act q s

def staleDoorbell (h : HostAccess) (s : State) : State := postFull Ev.doorbellStale h.port 0xFFFFFFFF 0 0 [] s

/-- A new tail. -/
def ringSq (h : HostAccess) (n tail : Nat) (s : State) : State :=
  doorbellView h n (fun q s =>
    let size := sqSlots q
    if size ≤ tail || ahead size q.sqhead tail < ahead size q.sqhead q.tail then staleDoorbell h s
    else
      let s := setHostQueue n { q with tail } s
      if tail = q.tail then s else { s with host := { s.host with doorbells := s.host.doorbells ++ [{ queue := n, port := h.port, tail }] } }) s

/-- A new head. -/
def ringCq (h : HostAccess) (n head : Nat) (s : State) : State :=
  doorbellView h n (fun q s =>
    let size := cqEntries q
    let d := ahead size q.cqhead head
    if size ≤ head || q.cqused < d then staleDoorbell h s else setHostQueue n { q with cqhead := head, cqused := q.cqused - d } s) s

def dbBase (h : HostAccess) : Nat := if h.job then 0x800000 else 0x1000000

/-- SQ_DB and CQ_DB. -/
def execSqDb (h : HostAccess) (n tail : Nat) (s : State) : Out :=
  orHold h (dbBase h + 16 * n) false tail (fun s => .next (ringSq h n tail s)) s

def execCqDb (h : HostAccess) (n head : Nat) (s : State) : Out :=
  orHold h (dbBase h + 16 * n + 8) false head (fun s => .next (ringCq h n head s)) s

/-! ### A host write to BAR0 or BAR2 (R507) -/

/-- Pending vectors whose mask bit a write cleared send their messages (PCI-SIG's, by reference; assumption 76). -/
def sendPending (port : Nat) (s : State) : State :=
  let go (x : Nat × Nat) : Bool := x.1 == port && !(getPcie s port).masked x.2
  (s.host.pba.filter go).foldl (fun s x => sendMsi port (BitVec.ofNat 8 x.2) s)
    { s with host := { s.host with pba := s.host.pba.filter fun x => !go x } }

/-- Any write of 4 B or 8 B: registers, doorbells, the MSI-X table, the stage window; elsewhere it is discarded. -/
def hostRegWrite (h : HostAccess) (off : Nat) (wide : Bool) (v : W64) (s : State) : State :=
  if off % (if wide then 8 else 4) ≠ 0 then unsupported h.port s
  else if inRange off (dbBase h) 0x400 then
    let n := (off - dbBase h) / 16
    let x := v.toNat % 2 ^ 32
    if off % 16 = 0 then ringSq h n x s else if off % 16 = 8 then ringCq h n x s else s
  else if h.job then (if off < 0x800000 then writeSlot h off wide v s else s)
  else if off < 0x1000000 then writeSlot h off wide v s
  else
    let bytes := toLE (if wide then 8 else 4) v.toNat
    if inRange off 0x1010000 0x1000 then
      if !stageDone s 2 then s else
      let p := getPcie s h.port
      sendPending h.port (setPcie h.port { p with msix := bytes.zipIdx.foldl (fun t x => upsert (off - 0x1010000 + x.2) x.1 t) p.msix } s)
    else if inRange off 0x3000000 0x1000000 then writeWindow h.port (off - 0x3000000) bytes s
    else s

/-- REGISTER_WRITE. -/
def execRegisterWrite (h : HostAccess) (off : Nat) (wide : Bool) (v : W64) (s : State) : Out :=
  orHold h off wide v.toNat (fun s => .next (hostRegWrite h off wide v s)) s

end Sys2Proof.Machine
end

