-- ==== Sys2Proof/Machine/Host.lean ====
section
/-! DEFINITION. Command packets: the dispatcher's checks and the treatment of FIRE times, the rows of the opcode table, fetching commands, writing replies,
scheduled events, the memory aperture, and the takeover of the control complex (chapters 02, 16, 18). -/

namespace Sys2Proof.Machine

/-! ### The dispatcher's checks (R523, R526, R527) -/

/-- The opcode table. -/
def opcodes : List Nat :=
  [0x0001, 0x0002, 0x0101, 0x0201, 0x0202, 0x0301, 0x0302, 0x0303, 0x0401, 0x0402, 0x0403, 0x0404, 0x0405, 0x0501, 0x0502, 0x0503, 0x0504,
    0x0505, 0x0506, 0x0601, 0x0602, 0x0603, 0x0701, 0x0801, 0x0810, 0x0811, 0x0812, 0x0901, 0x0A01, 0x0A02, 0x0A03]

/-- Opcodes that only the privileged view accepts. -/
def privOnly : List Nat := [0x0101, 0x0401, 0x0403, 0x0405, 0x0501, 0x0502, 0x0506, 0x0601, 0x0812, 0x0A01, 0x0A02, 0x0A03]

/-- Opcodes accepted before ready. -/
def earlyOp (s : State) (o : Nat) : Bool :=
  o == 0x0001 || o == 0x0002 || o == 0x0101 || o == 0x0801 || o == 0x0A01 || o == 0x0A02 || o == 0x0A03 || (o == 0x0901 && stageDone s 3)

/-- Opcodes whose TGT names a partition or a region. -/
def hasTgt (o : Nat) : Bool := o == 0x0301 || o == 0x0302 || o == 0x0303 || o == 0x0812

/-- The PARAM bytes that an opcode names: first byte, number. -/
def paramBytes (p : Packet) : List (Nat × Nat) :=
  match p.opc with
  | 0x0002 => [(0, 12), (16, 8)] | 0x0101 => [(0, 1)] | 0x0201 => [(0, 1), (2, 10)] | 0x0202 => [(0, 3), (8, 32)]
  | 0x0301 => [(0, 24)] | 0x0302 => [(0, 4)] | 0x0303 => [(0, 1)]
  | 0x0401 => [(0, 6)] | 0x0402 => [(0, 16)] | 0x0403 => [(0, 2)] | 0x0404 => [(0, 31)] | 0x0405 => [(0, 4), (8, 8)]
  | 0x0501 => [(0, 8)] | 0x0502 => [(0, 1), (2, 8)]
  | 0x0503 => if item p.param 2 1 = 0 then [(0, 22), (24, 4)] else [(0, 25), (26, 2)]
  | 0x0504 => [(0, 2), (4, 4)] | 0x0505 => [(0, 3), (4, 5), (12, 7), (20, 6), (28, 4)] | 0x0506 => [(0, 4)]
  | 0x0601 => [(0, 1), (2, 4), (8, 8)] | 0x0602 => [(0, 30)] | 0x0603 => [(0, 4), (8, 8)]
  | 0x0701 => [(0, 2)] | 0x0801 => [(0, 12)] | 0x0810 => [(0, 4), (8, 8)] | 0x0811 => [(0, 1), (4, 8), (16, 8)] | 0x0812 => [(0, 9)]
  | 0x0901 => [(0, 16)] | 0x0A01 => [(0, 12)] | 0x0A02 => [(0, 2)]
  | _ => []

/-- The bits of a named PARAM byte that are not reserved. -/
def paramMask (o k : Nat) : Byte :=
  if o = 0x0404 && k = 29 then 0x0F else if o = 0x0404 && k = 30 then 0x03 else if o = 0x0503 && k = 5 then 0x01
  else if o = 0x0602 && k = 29 then 0x03 else if o = 0x0701 && k = 1 then 0x7F else if o = 0x0201 && (k = 3 || k = 5) then 0x3F
  else 0xFF

/-- Reserved bytes and bits of PARAM are zero. -/
def paramClean (p : Packet) : Bool :=
  p.param.zipIdx.all fun (b, k) =>
    if (paramBytes p).any fun (lo, n) => inRange k lo n then b &&& ~~~(paramMask p.opc k) == 0 else b == 0

/-- The payload length of an opcode; none where its count admits no payload. -/
def payloadLen (p : Packet) : Option Nat :=
  match p.opc with
  | 0x0401 => some (2 * item p.param 4 2)
  | 0x0403 => some (cdiv (item p.param 1 1) 2)
  | 0x0501 => some 6
  | 0x0502 => some (cdiv (item p.param 8 2) 16)
  | 0x0503 => some (if item p.param 2 1 = 0 then 0 else 1)
  | 0x0601 => if item p.param 8 8 ≠ 0 then some 0 else if 512 < item p.param 4 2 then none else some (cdiv (item p.param 4 2) 8)
  | 0x0810 => if item p.param 8 8 ≠ 0 then some 0 else if 256 < item p.param 2 2 then none else some (cdiv (item p.param 2 2) 4)
  | _ => some 0

/-- The HEADER check. -/
def headerClean (p : Packet) : Bool :=
  p.rsv == 0 && p.flags >>> 5 == 0 && paramClean p && payloadLen p == some p.len &&
    (if hasTgt p.opc then p.tgt >>> 14 == 0 else p.tgt == 0) &&
    (p.opc == 0x0301 || p.flags &&& 0xF == 0) && !(p.fire != 0 && (p.opc / 256 == 0x01 || p.opc / 256 == 0x0A))

/-- The first check that fails before R41, in the order of R523. -/
def checkPacket (s : State) (p : Packet) : Option (BitVec 16) :=
  if !opcodes.contains p.opc then some Status.opcode
  else if (hostQueue s p.queue).view && privOnly.contains p.opc then some Status.viewDenied
  else if !(isReady s || earlyOp s p.opc) then some Status.notReady
  else if !headerClean p then some Status.header
  else none

/-! ### FIRE times (R41) -/

/-- Events that wait for their FIRE times. -/
def pendingEvents (s : State) : Nat :=
  s.sched.length + (s.plays.filter fun p => p.state == .pending).length + (if s.cap.armed.isSome then 1 else 0) + s.barriers.length

/-- The furthest that a FIRE time can lie ahead: 65,536 turns. -/
def fireReach : Nat := 65536 * 2 ^ 26

/-- The row of R41 that refuses a command, if one does. -/
def fireRefusal (s : State) (p : Packet) : Option (BitVec 16) :=
  if p.fire ≠ 0 && !ctRuns s then some Status.noCadence
  else if s.cad.ct.toNat + fireReach < p.fire.toNat then some Status.fireRange
  else if p.fire = 0 then none
  else if p.fire.toNat < s.cad.ct.toNat && p.opc == 0x0404 then some Status.commitPassed
  else if s.cad.ct.toNat < p.fire.toNat && decide (4096 ≤ pendingEvents s) then some Status.scheduleFull
  else none

/-- A command of a class other than power whose FIRE time has passed executes at dispatch with 0x0001 FIRE_LATE. -/
def isLate (s : State) (p : Packet) : Bool := p.fire != 0 && decide (p.fire.toNat < s.cad.ct.toNat) && p.opc != 0x0701

/-! ### Execution -/

/-- What a command without a step does at its FIRE time; n is its place in the order of dispatch. -/
def runOp (p : Packet) (n : Nat) (s : State) : State :=
  match p.opc with
  | 0x0001 => accept p s
  | 0x0002 => opEventGet p s
  | 0x0101 => opBuOpen p s
  | 0x0201 => opLoan p n s
  | 0x0202 => opHintPlace p s
  | 0x0302 => opPlayAbort p s
  | 0x0303 => opPart p s
  | 0x0401 => opLedgerSet p s
  | 0x0402 => opLedgerGet p s
  | 0x0403 => opGroupSet p s
  | 0x0405 => opStateLoad p s
  | 0x0501 => opPlanSet p s
  | 0x0502 => opRouteSet p s
  | 0x0503 => opCollSet p s
  | 0x0506 => opPortCtrl p s
  | 0x0601 => opXmapSet p s
  | 0x0603 => opXchGet p s
  | 0x0801 => opTelemSnap s.snap p s
  | 0x0810 => opWatchSet p s
  | 0x0811 => opWatchGet p s
  | 0x0812 => opVecEval p s
  | 0x0901 => opFaultGet p s
  | 0x0A01 => opKeyRevoke p s
  | 0x0A02 => opRollbackSet p s
  | 0x0A03 => opDebugLock p s
  | _ => s

/-- A command that has passed the checks of R523 executes, or waits for its FIRE time; a STATE_LOAD keeps COMMITTED as its dispatch finds it (R311). -/
def execute (p : Packet) (s : State) : State :=
  if stepOpcode p.opc then dispatchStep p s
  else if p.opc = 0x0701 then opPrefDispatch p s
  else
    let n := s.arrivals
    let p := if p.opc = 0x0405 then { p with tag := s.cap.committed.toNat } else p
    atFire p (if p.opc = 0x0801 then 4 else 3) n (fun p s => runOp p n s) { s with arrivals := n + 1 }

/-- The reply of a command that the dispatcher refuses. -/
def refuseAtDispatch (p : Packet) (st : BitVec 16) (s : State) : State := replyTo p.queue p.seq p.opc p.origin (Packet.notify p) st 0 s

/-- The dispatcher: nothing before the end of stage 2 (R488), nor while the active control complex is failed (R478). -/
def dispatchPacket (p : Packet) (s : State) : State :=
  if !stageDone s 2 || s.rel.ccFailed then s
  else match checkPacket s p with
    | some st => refuseAtDispatch p st s
    | none =>
      let p := if stepOpcode p.opc then shifted s p else p
      match fireRefusal s p with
      | some st => refuseAtDispatch p st s
      | none => execute (if isLate s p then { p with rsv := 1 } else p) s

/-! ### The rows of the opcode table: a packet of that opcode reaches the dispatcher -/

def execNop (p : Packet) (s : State) : Out := .next (dispatchPacket { p with opc := 0x0001 } s)
def execEventGet (p : Packet) (s : State) : Out := .next (dispatchPacket { p with opc := 0x0002 } s)
def execBuOpen (p : Packet) (s : State) : Out := .next (dispatchPacket { p with opc := 0x0101 } s)
def execLoan (p : Packet) (s : State) : Out := .next (dispatchPacket { p with opc := 0x0201 } s)
def execHintPlace (p : Packet) (s : State) : Out := .next (dispatchPacket { p with opc := 0x0202 } s)
def execPlayFire (p : Packet) (s : State) : Out := .next (dispatchPacket { p with opc := 0x0301 } s)
def execPlayAbort (p : Packet) (s : State) : Out := .next (dispatchPacket { p with opc := 0x0302 } s)
def execPart (p : Packet) (s : State) : Out := .next (dispatchPacket { p with opc := 0x0303 } s)
def execLedgerSet (p : Packet) (s : State) : Out := .next (dispatchPacket { p with opc := 0x0401 } s)
def execLedgerGet (p : Packet) (s : State) : Out := .next (dispatchPacket { p with opc := 0x0402 } s)
def execGroupSet (p : Packet) (s : State) : Out := .next (dispatchPacket { p with opc := 0x0403 } s)
def execCommitArm (p : Packet) (s : State) : Out := .next (dispatchPacket { p with opc := 0x0404 } s)
def execStateLoad (p : Packet) (s : State) : Out := .next (dispatchPacket { p with opc := 0x0405 } s)
def execPlanSet (p : Packet) (s : State) : Out := .next (dispatchPacket { p with opc := 0x0501 } s)
def execRouteSet (p : Packet) (s : State) : Out := .next (dispatchPacket { p with opc := 0x0502 } s)
def execCollSet (p : Packet) (s : State) : Out := .next (dispatchPacket { p with opc := 0x0503 } s)
def execCollFire (p : Packet) (s : State) : Out := .next (dispatchPacket { p with opc := 0x0504 } s)
def execBarrier (p : Packet) (s : State) : Out := .next (dispatchPacket { p with opc := 0x0505 } s)
def execPortCtrl (p : Packet) (s : State) : Out := .next (dispatchPacket { p with opc := 0x0506 } s)
def execXmapSet (p : Packet) (s : State) : Out := .next (dispatchPacket { p with opc := 0x0601 } s)
def execXchSet (p : Packet) (s : State) : Out := .next (dispatchPacket { p with opc := 0x0602 } s)
def execXchGet (p : Packet) (s : State) : Out := .next (dispatchPacket { p with opc := 0x0603 } s)
def execPrefSet (p : Packet) (s : State) : Out := .next (dispatchPacket { p with opc := 0x0701 } s)
def execTelemSnap (p : Packet) (s : State) : Out := .next (dispatchPacket { p with opc := 0x0801 } s)
def execWatchSet (p : Packet) (s : State) : Out := .next (dispatchPacket { p with opc := 0x0810 } s)
def execWatchGet (p : Packet) (s : State) : Out := .next (dispatchPacket { p with opc := 0x0811 } s)
def execVecEval (p : Packet) (s : State) : Out := .next (dispatchPacket { p with opc := 0x0812 } s)
def execFaultGet (p : Packet) (s : State) : Out := .next (dispatchPacket { p with opc := 0x0901 } s)
def execKeyRevoke (p : Packet) (s : State) : Out := .next (dispatchPacket { p with opc := 0x0A01 } s)
def execRollbackSet (p : Packet) (s : State) : Out := .next (dispatchPacket { p with opc := 0x0A02 } s)
def execDebugLock (p : Packet) (s : State) : Out := .next (dispatchPacket { p with opc := 0x0A03 } s)

/-! ### Fetching commands (R517 to R519) -/

/-- The packet that a command's slots hold (R521). -/
def parseCommand (q origin : Nat) (l : List Byte) : Packet :=
  { opc := item l 0 2, flags := BitVec.ofNat 16 (item l 2 2), len := item l 4 2, rsv := BitVec.ofNat 16 (item l 6 2), seq := BitVec.ofNat 32 (item l 8 4)
    tgt := BitVec.ofNat 32 (item l 12 4), fire := BitVec.ofNat 64 (item l 16 8), param := sliceB l 24 40, payload := sliceB l 64 (64 * item l 4 2)
    queue := q, origin }

/-- The queue is served and its completion ring has a free entry that no outstanding command has reserved. -/
def canFetch (s : State) (n : Nat) : Bool :=
  let q := hostQueue s n
  q.enable && !q.stopped && decide (q.cqused + q.outstanding < cqEntries q)

/-- The first announcement in order of arrival whose queue can be fetched from, while no aperture write of its port waits (R263). -/
def nextDoorbell (s : State) : Option Doorbell :=
  s.host.doorbells.find? fun d => canFetch s d.queue && !s.host.aperWrites.any fun x => x.1 == d.port

/-- An announcement is used up. -/
def dropDoorbell (d : Doorbell) (s : State) : State := { s with host := { s.host with doorbells := s.host.doorbells.erase d } }

/-- The command at SQHEAD leaves its slots and is dispatched with the origin of the doorbell that announced it. -/
def fetchCommand (d : Doorbell) (l : List Byte) (s : State) : State :=
  let q := hostQueue s d.queue
  let size := sqSlots q
  let announced := ahead size q.sqhead d.tail
  let slots := 1 + item l 4 2
  if announced < slots then dropDoorbell d s
  else
    let s := setHostQueue d.queue { q with sqhead := (q.sqhead + slots) % size, outstanding := q.outstanding + 1 } s
    dispatchPacket (parseCommand d.queue d.port l) (journalRecord (if announced = slots then dropDoorbell d s else s))

/-- COMMAND_FETCH: data is what the host's memory returned for the command's slots, none for a failed read; over a closed crossing it fails (R46). -/
def execCommandFetch (n : Nat) (data : Option (List Byte)) (s : State) : Out :=
  if !stageDone s 2 || s.rel.ccFailed then .next s
  else match nextDoorbell s with
    | none => .next s
    | some d =>
      if d.queue ≠ n then .next s
      else match (if xingClosed s 14 12 then none else data) with
        | none => .next (setHostQueue n { hostQueue s n with stopped := true, err := 1 } s)
        | some l => .next (fetchCommand d l s)

/-! ### Replies (R508, R520, R524) -/

/-- The 32 B of a reply. -/
def Reply.bytes (r : Reply) (phase : Bool) (n : Nat) : List Byte :=
  det [(4, r.seq.toNat), (2, r.status.toNat), (1, r.origin + 128 * b2n phase), (1, n), (8, r.detail.toNat), (8, r.ct.toNat), (2, r.opc), (6, 0)]

/-- Write a reply at CQTAIL and advance it; the phase inverts at each pass. The interrupt's pulse can be lost at a full toggle source (R45). -/
def putReply (n : Nat) (r : Reply) (t : Transit) (s : State) : State :=
  let q := hostQueue s n
  let s := hostWrite (b2n q.port) (q.cqbase.toNat + 32 * q.cqtail) (r.bytes q.phase n) s
  let wrap := decide (cqEntries q ≤ q.cqtail + 1)
  let s := setHostQueue n { q with
    cqtail := if wrap then 0 else q.cqtail + 1, phase := q.phase != wrap, cqused := q.cqused + 1, outstanding := q.outstanding - 1 } s
  if !(q.irqAll || r.notify) then s
  else match t with
    | .overrun a b => xingRecordFor r.origin 0 0 a b false s
    | _ => sendMsi (b2n q.port) q.vector s

/-- A reply of a command whose port has been reset since: it is recorded. -/
def dropReply (n : Nat) (r : Reply) (s : State) : State :=
  let q := hostQueue s n
  postFull Ev.replyDropped r.origin 0xFFFFFFFF 0 0 [] (setHostQueue n { q with outstanding := q.outstanding - 1 } s)

/-- REPLY_WRITE: the oldest reply of the queue. -/
def execReplyWrite (n : Nat) (t : Transit) (s : State) : Out :=
  if s.rel.ccFailed || xingClosed s 12 14 then .next s
  else match s.host.replies.find? fun r => r.queue == n || r.queue == n + 64 with
    | none => .next s
    | some r =>
      let s := { s with host := { s.host with replies := s.host.replies.erase r } }
      .next (if r.queue = n then putReply n r t (journalRecord s) else dropReply n r s)

/-! ### Scheduled events (R35, R38, R39) -/

/-- What waits for a FIRE time, but for the power event. -/
inductive Due where
  | event (e : Sched)
  | play (p : Play)
  | commit
  | barrier (b : BarrierRec)

/-- Everything that waits for its FIRE time, with its key (waitingKeys); power-class commands act at power-turn boundaries instead. -/
def waitingEvents (s : State) : List (DueKey × Due) :=
  (match s.cap.armed with
    | some a => [((a.cp.toNat, 1, a.tag), Due.commit)]
    | none => []) ++
    (s.sched.filter fun e => e.cls != 0).map (fun e => ((e.fire.toNat, e.cls, e.order), Due.event e)) ++
    (s.plays.filter fun p => p.state == .pending).map (fun p => ((p.fire.toNat, 3, p.order), Due.play p)) ++
    (s.barriers.filter allArrived).map fun b => ((b.release.toNat, 2, b.tag), Due.barrier b)

/-- The first of them in the order of R38. -/
def firstEvent (s : State) : Option (DueKey × Due) :=
  (waitingEvents s).foldl (fun b x =>
    match b with
    | some y => if DueKey.before x.1 y.1 then some x else some y
    | none => some x) none

/-- An event executes. -/
def runEvent (x : DueKey × Due) (s : State) : State :=
  match x.2 with
  | .event e =>
    let s := { s with sched := s.sched.erase e }
    match e.packet.opc with
    | 0x0504 => opCollFire e.packet s
    | 0x0602 => opXchSet e.packet s
    | 0x0801 => opTelemSnap (e.block.getD s.snap) e.packet s
    | _ => runOp e.packet e.order s
  | .play p => setPlay { p with state := .due } s
  | .commit => commitPoint s
  | .barrier b => releaseBarrier b s

/-- SCHEDULED_EVENT: CT reaches the FIRE time of the first event that waits, within the beat or by an edge that has passed it, and it executes (R34, R35, R38). -/
def execScheduledEvent (s : State) : Out :=
  if s.rel.ccFailed then .next s
  else match firstEvent s with
    | some x =>
      match comeTo x.1 (BitVec.ofNat 64 x.1.1) s with
      | some s => .next (runEvent x (journalRecord s))
      | none => .next s
    | none => .next s

/-! ### The memory aperture (R257, R488, R510 to R512) -/

/-- The module address of an aperture offset. -/
def aperAddr (s : State) (port off : Nat) : Nat := (getPcie s port).aper.base.toNat * 2 ^ 30 + off

/-- The access comes too early in bring-up. -/
def aperEarly (s : State) (a : Nat) : Bool :=
  !stageDone s 5 || ((spaceOf a == .rim || spaceOf a == .parity) && !stageDone s 6)

/-- The table of R511, for one address. -/
def aperAllows (s : State) (p : Aper) (write : Bool) (a : Nat) : Bool :=
  p.en && (!write || p.writeEn) &&
    match spaceOf a with
    | .near => (regionOf s a).elim false fun x => !(write && x.2.typ)
    | .rim => !write
    | .tile => true
    | _ => false

/-- The whole access is permitted: what the table tells apart is far larger than an access. -/
def aperPermits (s : State) (port : Nat) (write : Bool) (a n : Nat) : Bool :=
  aperAllows s (getPcie s port).aper write a && aperAllows s (getPcie s port).aper write (a + n - 1)

/-- APERTURE_FAULT, at most once per beat per port. -/
def aperFault (port : Nat) (s : State) : State :=
  let p := getPcie s port
  if p.aper.faulted then s
  else postFull Ev.apertureFault port 0xFFFFFFFF 0 0 [] (setPcie port { p with aper := { p.aper with faulted := true } } s)

def aperEarlyEvent (port : Nat) (s : State) : State := postFull Ev.apertureEarly port 0xFFFFFFFF 0 0 [] s

/-- Some unit of a range has a property. -/
def anyUnit (a n : Nat) (f : Nat → Bool) : Bool := (List.range (cdiv (a % 128 + n) 128)).any fun k => f (a / 128 * 128 + 128 * k)

/-- The place of a fault lies in an access at [a, a + n). -/
def faultIn (a n : Nat) : MoveFault → Bool
  | .none | .hostFail _ _ | .lane _ => false
  | .overrun _ _ => true
  | .rim x _ _ => decide (a / 4096 * 4096 ≤ x) && decide (x < a + n)
  | .parity (.store L) _ => spaceOf a == .tile && (a - tileBase) / 2 ^ 23 == L
  | .parity (.hop _) _ => false
  | .parity (.near _ x) _ => decide (a / 128 * 128 ≤ x) && decide (x < a + n)
  | .parity (.rim x) _ => decide (a / 128 * 128 ≤ x) && decide (x < a + n)

/-- What an aperture access meets on its way: a PCIe payload discarded at a full crossing, which the link sends again (R45); a word with a failing byte, retried
(R461); a rim unit that error correction corrects or cannot (R300). -/
def accessMeets (port a n : Nat) (f : MoveFault) (s : State) : State :=
  if !faultIn a n f then s
  else match f with
    | .overrun x y => xingRecordFor port 0 0 x y false s
    | .parity p w => (parityMeets p w port 0 0 s).2
    | .rim x row r => rimAt x row r s
    | _ => s

/-- A unit of the access fails parity after its retries. -/
def accessFails (a n : Nat) (f : MoveFault) : Bool :=
  faultIn a n f && match f with
    | .parity _ w => !wordIntact w
    | _ => false

/-- An access waits: for a channel or a rim stack that serves nothing now (R279, R281, R301), or a capstan's rebuilding (R339). A read has no effect yet and
is presented again (DESIGN CHOICE, assumption 102); a write is posted, and waits in State. -/
def aperWaits (s : State) (a n : Nat) : Bool := rangeWaits s a n || anyUnit a n (rimWaits s)

/-- APERTURE_READ. A closed crossing to the mesh gives no data, like a unit that cannot be read (R46). -/
def execApertureRead (port off n : Nat) (f : MoveFault) (s : State) : Out :=
  let a := aperAddr s port off
  let ones := List.replicate n (0xFF : Byte)
  if aperEarly s a then .next (returnRead ones false (aperEarlyEvent port s))
  else if !aperPermits s port false a n then .next (returnRead ones false (aperFault port s))
  else if xingClosed s 14 8 then .next (returnRead ones true s)
  else if aperWaits s a n then .next s
  else
    let l := readBytes s a n
    if anyUnit a n (isRetired s) then .next (returnRead l true (postFull Ev.retiredAccess port 0xFFFFFFFF 0 0 [] s))
    else if anyUnit a n (isPoisoned s) then .next (returnRead l true (granuleFault a port 0 0 s))
    else .next (returnRead l (accessFails a n f) (accessMeets port a n f s))

/-- APERTURE_WRITE: one that waits keeps its place before the doorbells of its port (R263). -/
def execApertureWrite (port off : Nat) (data : List Byte) (f : MoveFault) (s : State) : Out :=
  let a := aperAddr s port off
  if aperEarly s a then .next (aperEarlyEvent port s)
  else if !aperPermits s port true a data.length then .next (aperFault port s)
  else if xingClosed s 14 8 then .next s
  else
    let s := accessMeets port a data.length f s
    if aperWaits s a data.length then .next { s with host := { s.host with aperWrites := s.host.aperWrites ++ [(port, a, data)] } }
    else if spaceOf a == .near then .next (noteAll (nearWriteFor port a data data.length s))
    else .next (noteAll (writeBytes a data s))

/-! ### The takeover of the control complex (R478, R479, R502) -/

/-- Every event whose FIRE time has passed, in order; at most n. -/
def runAllDue : Nat → State → State
  | 0, s => s
  | n + 1, s =>
    match firstEvent s with
    | some x => if x.1.1 ≤ s.cad.ct.toNat then runAllDue n (runEvent x s) else s
    | none => s

/-- A commit point that passed during the gap is an abort. -/
def gapAbort (s : State) : State :=
  match s.cap.armed with
  | some a => if a.cp.toNat ≤ s.cad.ct.toNat then abortAtCp a s else s
  | none => s

/-- A port as it is before the link stage opens (R385). -/
def unopened (p : HPort) : HPort := if p.state == .disabled then p else { p with state := .off, beats := 0 }

/-- The stage that was RUNNING starts again from its beginning (R502); the link stage with its ports closed. -/
def rerunStage (s : State) : State :=
  if s.bu.state != .running then s
  else if s.bu.stage = 9 then setBu { s.bu.fresh with linkOpen := false } { s with ports := mapVals unopened s.ports }
  else setBu s.bu.fresh s

/-- The held register writes and doorbells, in order of arrival. -/
def applyHeld (s : State) : State :=
  s.host.heldWrites.foldl (fun s w => hostRegWrite w.1 w.2.1 w.2.2.1 w.2.2.2 s) { s with host := { s.host with heldWrites := [] } }

/-- CT goes on from the standby's own receiver (R478): what its receiver holds, with the registers and CT as they stand. -/
def switchReceiver (c r : Cad) : Cad :=
  { c with
    state := r.state, rx := r.rx, taken := r.taken, judged := r.judged, edge := r.edge, acqTurn := r.acqTurn, acqEdges := r.acqEdges, lockNext := r.lockNext
    rct := r.rct, missing := r.missing, badStamps := r.badStamps, periodPs := r.periodPs }

/-- The standby becomes active. -/
def takeOver (s : State) : State :=
  let old := b2n s.rel.southActive
  let s := { s with
    cad := switchReceiver s.cad s.rel.receiver
    rel := { s.rel with ccFailed := false, standby := false, southActive := !s.rel.southActive, missed := 0, missedBack := 0 } }
  let s := runAllDue 16384 (gapAbort s)
  let s := record 11 9 0 3 (unitOf 8 old) 0xFFFFFFFF 0 0 [] s
  rerunStage (applyHeld s)

/-- CC_TAKEOVER: the standby has missed 4 heartbeats of the active, whose failure it declares, which begins the gap; the next is the takeover, which ends it. -/
def execCcTakeover (s : State) : Out :=
  if s.rel.ccFailed then .next (takeOver s)
  else if stageDone s 2 && s.rel.standby && !standbyHalted s && decide (4 ≤ s.rel.missed) then .next { s with rel := { s.rel with ccFailed := true } }
  else .next s

end Sys2Proof.Machine
end

