-- ==== Sys2Proof/Machine/Dispatch.lean ====
section
/-! DEFINITION. The meaning of each command: one arm per constructor of Instr. -/

namespace Sys2Proof.Machine

def exec (i : Instr) (s : State) : Host.Outcome State Fault Refusal :=
  match i with
  | .registerWrite h off wide v => Sys2Proof.Machine.execRegisterWrite h off wide v s
  | .sqDb h q tail => Sys2Proof.Machine.execSqDb h q tail s
  | .cqDb h q head => Sys2Proof.Machine.execCqDb h q head s
  | .queueEnable h q => Sys2Proof.Machine.execQueueEnable h q s
  | .queueDisable h q => Sys2Proof.Machine.execQueueDisable h q s
  | .commandFetch q data => Sys2Proof.Machine.execCommandFetch q data s
  | .replyWrite q t => Sys2Proof.Machine.execReplyWrite q t s
  | .apertureRead port off len f => Sys2Proof.Machine.execApertureRead port off len f s
  | .apertureWrite port off data f => Sys2Proof.Machine.execApertureWrite port off data f s
  | .jobSeedWrite h v => Sys2Proof.Machine.execJobSeedWrite h v s
  | .committedWrite h v => Sys2Proof.Machine.execCommittedWrite h v s
  | .privLockFreeze h => Sys2Proof.Machine.execPrivLockFreeze h s
  | .stallEnClear h => Sys2Proof.Machine.execStallEnClear h s
  | .regionStage h n v => Sys2Proof.Machine.execRegionStage h n v s
  | .regionWrite h n v => Sys2Proof.Machine.execRegionWrite h n v s
  | .cadSrc h v => Sys2Proof.Machine.execCadSrc h v s
  | .resync h => Sys2Proof.Machine.execResync h s
  | .dbgHalt h => Sys2Proof.Machine.execDbgHalt h s
  | .dbgResume h => Sys2Proof.Machine.execDbgResume h s
  | .dbgStep h => Sys2Proof.Machine.execDbgStep h s
  | .dbgDataRead h => Sys2Proof.Machine.execDbgDataRead h s
  | .dbgDataWrite h v => Sys2Proof.Machine.execDbgDataWrite h v s
  | .nop p => Sys2Proof.Machine.execNop p s
  | .eventGet p => Sys2Proof.Machine.execEventGet p s
  | .buOpen p => Sys2Proof.Machine.execBuOpen p s
  | .loan p => Sys2Proof.Machine.execLoan p s
  | .loanRevokeEffect id => Sys2Proof.Machine.execLoanRevokeEffect id s
  | .hintPlace p => Sys2Proof.Machine.execHintPlace p s
  | .playFire p => Sys2Proof.Machine.execPlayFire p s
  | .playAbort p => Sys2Proof.Machine.execPlayAbort p s
  | .part p => Sys2Proof.Machine.execPart p s
  | .partComplete org shape => Sys2Proof.Machine.execPartComplete org shape s
  | .ledgerSet p => Sys2Proof.Machine.execLedgerSet p s
  | .ledgerGet p => Sys2Proof.Machine.execLedgerGet p s
  | .groupSet p => Sys2Proof.Machine.execGroupSet p s
  | .commitArm p => Sys2Proof.Machine.execCommitArm p s
  | .stateLoad p => Sys2Proof.Machine.execStateLoad p s
  | .planSet p => Sys2Proof.Machine.execPlanSet p s
  | .routeSet p => Sys2Proof.Machine.execRouteSet p s
  | .collSet p => Sys2Proof.Machine.execCollSet p s
  | .collFire p => Sys2Proof.Machine.execCollFire p s
  | .barrier p => Sys2Proof.Machine.execBarrier p s
  | .portCtrl p => Sys2Proof.Machine.execPortCtrl p s
  | .xmapSet p => Sys2Proof.Machine.execXmapSet p s
  | .xchSet p => Sys2Proof.Machine.execXchSet p s
  | .xchGet p => Sys2Proof.Machine.execXchGet p s
  | .prefSet p => Sys2Proof.Machine.execPrefSet p s
  | .telemSnap p => Sys2Proof.Machine.execTelemSnap p s
  | .watchSet p => Sys2Proof.Machine.execWatchSet p s
  | .watchGet p => Sys2Proof.Machine.execWatchGet p s
  | .vecEval p => Sys2Proof.Machine.execVecEval p s
  | .faultGet p => Sys2Proof.Machine.execFaultGet p s
  | .keyRevoke p => Sys2Proof.Machine.execKeyRevoke p s
  | .rollbackSet p => Sys2Proof.Machine.execRollbackSet p s
  | .debugLock p => Sys2Proof.Machine.execDebugLock p s
  | .getCert port => Sys2Proof.Machine.execGetCert port s
  | .attest port nonce => Sys2Proof.Machine.execAttest port nonce s
  | .debugChallenge port => Sys2Proof.Machine.execDebugChallenge port s
  | .debugUnlock port token => Sys2Proof.Machine.execDebugUnlock port token s
  | .grant seq turn watts => Sys2Proof.Machine.execGrant seq turn watts s
  | .offset seq off => Sys2Proof.Machine.execOffset seq off s
  | .report seq => Sys2Proof.Machine.execReport seq s
  | .getSensorReading sensor => Sys2Proof.Machine.execGetSensorReading sensor s
  | .playStart org shape => Sys2Proof.Machine.execPlayStart org shape s
  | .playEnd org shape => Sys2Proof.Machine.execPlayEnd org shape s
  | .moveCompletion tile queue pos => Sys2Proof.Machine.execMoveCompletion tile queue pos s
  | .endMove tile => Sys2Proof.Machine.execEndMove tile s
  | .moveNop tile => Sys2Proof.Machine.execMoveNop tile s
  | .fireat tile => Sys2Proof.Machine.execFireat tile s
  | .fireatRelease tile => Sys2Proof.Machine.execFireatRelease tile s
  | .tie tile => Sys2Proof.Machine.execTie tile s
  | .remoteTieArrival src node t => Sys2Proof.Machine.execRemoteTieArrival src node t s
  | .wait tile => Sys2Proof.Machine.execWait tile s
  | .waitSatisfied tile queue => Sys2Proof.Machine.execWaitSatisfied tile queue s
  | .waitTimeout tile queue => Sys2Proof.Machine.execWaitTimeout tile queue s
  | .kset tile => Sys2Proof.Machine.execKset tile s
  | .partMove tile => Sys2Proof.Machine.execPartMove tile s
  | .iframe tile => Sys2Proof.Machine.execIframe tile s
  | .loadw tile => Sys2Proof.Machine.execLoadw tile s
  | .swapw tile => Sys2Proof.Machine.execSwapw tile s
  | .stream tile f => Sys2Proof.Machine.execStream tile f s
  | .sxt tile => Sys2Proof.Machine.execSxt tile s
  | .rampStartGrant now => Sys2Proof.Machine.execRampStartGrant now s
  | .passBeat field => Sys2Proof.Machine.execPassBeat field s
  | .elem tile l => Sys2Proof.Machine.execElem tile l s
  | .reduce tile l => Sys2Proof.Machine.execReduce tile l s
  | .smxb tile l => Sys2Proof.Machine.execSmxb tile l s
  | .nrmb tile l => Sys2Proof.Machine.execNrmb tile l s
  | .reductionResult tile => Sys2Proof.Machine.execReductionResult tile s
  | .groupTimeout tile => Sys2Proof.Machine.execGroupTimeout tile s
  | .topk tile l => Sys2Proof.Machine.execTopk tile l s
  | .gather tile => Sys2Proof.Machine.execGather tile s
  | .scatter tile => Sys2Proof.Machine.execScatter tile s
  | .scatterAdd tile l => Sys2Proof.Machine.execScatterAdd tile l s
  | .pack tile l => Sys2Proof.Machine.execPack tile l s
  | .amaxt tile l => Sys2Proof.Machine.execAmaxt tile l s
  | .move tile f => Sys2Proof.Machine.execMove tile f s
  | .moveReplay tile queue f => Sys2Proof.Machine.execMoveReplay tile queue f s
  | .inval tile => Sys2Proof.Machine.execInval tile s
  | .dispatch tile => Sys2Proof.Machine.execDispatch tile s
  | .combine tile => Sys2Proof.Machine.execCombine tile s
  | .xchCount c t => Sys2Proof.Machine.execXchCount c t s
  | .xchGrant g t => Sys2Proof.Machine.execXchGrant g t s
  | .xchRow r t => Sys2Proof.Machine.execXchRow r t s
  | .fetch f t => Sys2Proof.Machine.execFetch f t s
  | .result r t => Sys2Proof.Machine.execResult r t s
  | .leaf l t => Sys2Proof.Machine.execLeaf l t s
  | .roundSum slot row seg => Sys2Proof.Machine.execRoundSum slot row seg s
  | .collectiveStart slot => Sys2Proof.Machine.execCollectiveStart slot s
  | .collectiveComplete slot => Sys2Proof.Machine.execCollectiveComplete slot s
  | .barrierArrive ident => Sys2Proof.Machine.execBarrierArrive ident s
  | .barrierRelease ident => Sys2Proof.Machine.execBarrierRelease ident s
  | .barrierTimeout ident => Sys2Proof.Machine.execBarrierTimeout ident s
  | .contribution c t => Sys2Proof.Machine.execContribution c t s
  | .normPass => Sys2Proof.Machine.execNormPass s
  | .normReduction => Sys2Proof.Machine.execNormReduction s
  | .applyPass cap l rim => Sys2Proof.Machine.execApplyPass cap l rim s
  | .capstanConfirm cap rim => Sys2Proof.Machine.execCapstanConfirm cap rim s
  | .readySend => Sys2Proof.Machine.execReadySend s
  | .commitVote => Sys2Proof.Machine.execCommitVote s
  | .commit => Sys2Proof.Machine.execCommit s
  | .commitRetract member => Sys2Proof.Machine.execCommitRetract member s
  | .commitSplit => Sys2Proof.Machine.execCommitSplit s
  | .outcomeWindowClose => Sys2Proof.Machine.execOutcomeWindowClose s
  | .capstanFail cap => Sys2Proof.Machine.execCapstanFail cap s
  | .rebuildComplete cap => Sys2Proof.Machine.execRebuildComplete cap s
  | .tallyComparison field fault => Sys2Proof.Machine.execTallyComparison field fault s
  | .auditSample field => Sys2Proof.Machine.execAuditSample field s
  | .beatEdge b stuck => Sys2Proof.Machine.execBeatEdge b stuck s
  | .turnStamp at38 at58 => Sys2Proof.Machine.execTurnStamp at38 at58 s
  | .cadenceLoss cause => Sys2Proof.Machine.execCadenceLoss cause s
  | .cadHoldover => Sys2Proof.Machine.execCadHoldover s
  | .scheduledEvent => Sys2Proof.Machine.execScheduledEvent s
  | .crossingTimeout src dst => Sys2Proof.Machine.execCrossingTimeout src dst s
  | .powerTurnBoundary m => Sys2Proof.Machine.execPowerTurnBoundary m s
  | .opTransitionStep field => Sys2Proof.Machine.execOpTransitionStep field s
  | .droopStretch field belowMv => Sys2Proof.Machine.execDroopStretch field belowMv s
  | .stretchEnd field cycles => Sys2Proof.Machine.execStretchEnd field cycles s
  | .grantStale => Sys2Proof.Machine.execGrantStale s
  | .turnBoundary slot => Sys2Proof.Machine.execTurnBoundary slot s
  | .calibrationSlot stack chan timing1 timing2 vref trained => Sys2Proof.Machine.execCalibrationSlot stack chan timing1 timing2 vref trained s
  | .refresh stack chan busy => Sys2Proof.Machine.execRefresh stack chan busy s
  | .scrub stack chan r => Sys2Proof.Machine.execScrub stack chan r s
  | .scrubStarved => Sys2Proof.Machine.execScrubStarved s
  | .rowRepair stack chan bank row readable copier => Sys2Proof.Machine.execRowRepair stack chan bank row readable copier s
  | .nsThermal stack rim a b => Sys2Proof.Machine.execNsThermal stack rim a b s
  | .chMigrate stack chan row => Sys2Proof.Machine.execChMigrate stack chan row s
  | .migrationSwitch stack chan spareFailed => Sys2Proof.Machine.execMigrationSwitch stack chan spareFailed s
  | .stackSplice stack => Sys2Proof.Machine.execStackSplice stack s
  | .rimScrub cap r => Sys2Proof.Machine.execRimScrub cap r s
  | .flitData port lane w => Sys2Proof.Machine.execFlitData port lane w s
  | .nak port d => Sys2Proof.Machine.execNak port d s
  | .laneSwap port lane ahead c => Sys2Proof.Machine.execLaneSwap port lane ahead c s
  | .hello port d h => Sys2Proof.Machine.execHello port d h s
  | .helloSend port => Sys2Proof.Machine.execHelloSend port s
  | .packetForward p => Sys2Proof.Machine.execPacketForward p s
  | .hawPortDown port c => Sys2Proof.Machine.execHawPortDown port c s
  | .hawStall port vc => Sys2Proof.Machine.execHawStall port vc s
  | .portTraining port ms => Sys2Proof.Machine.execPortTraining port ms s
  | .qualificationEnd port lanes => Sys2Proof.Machine.execQualificationEnd port lanes s
  | .discoveryTimeout port => Sys2Proof.Machine.execDiscoveryTimeout port s
  | .playRerun org shape => Sys2Proof.Machine.execPlayRerun org shape s
  | .seqHang tile => Sys2Proof.Machine.execSeqHang tile s
  | .selfTest field row bad => Sys2Proof.Machine.execSelfTest field row bad s
  | .tileSplice field row col readable => Sys2Proof.Machine.execTileSplice field row col readable s
  | .tileWear tile count => Sys2Proof.Machine.execTileWear tile count s
  | .phaseFault field phase => Sys2Proof.Machine.execPhaseFault field phase s
  | .pllSwitch domain => Sys2Proof.Machine.execPllSwitch domain s
  | .ccTakeover => Sys2Proof.Machine.execCcTakeover s
  | .ccStandbyLost => Sys2Proof.Machine.execCcStandbyLost s
  | .stageCcFw => Sys2Proof.Machine.execStageCcFw s
  | .stageInventory v => Sys2Proof.Machine.execStageInventory v s
  | .stageStacks failed badStacks => Sys2Proof.Machine.execStageStacks failed badStacks s
  | .stageFill rows failed => Sys2Proof.Machine.execStageFill rows failed s
  | .stageCapstans failed => Sys2Proof.Machine.execStageCapstans failed s
  | .stageSeqFw => Sys2Proof.Machine.execStageSeqFw s
  | .broadcastRound lacking silent mismatch => Sys2Proof.Machine.execBroadcastRound lacking silent mismatch s
  | .stageCadence => Sys2Proof.Machine.execStageCadence s
  | .cadenceStageTimeout => Sys2Proof.Machine.execCadenceStageTimeout s
  | .stageLinks => Sys2Proof.Machine.execStageLinks s
  | .stageReady => Sys2Proof.Machine.execStageReady s
  | .stageComplete ms north south => Sys2Proof.Machine.execStageComplete ms north south s
  | .precharge mv => Sys2Proof.Machine.execPrecharge mv s
  | .pwrOkRise => Sys2Proof.Machine.execPwrOkRise s
  | .shutdown c => Sys2Proof.Machine.execShutdown c s
  | .leak => Sys2Proof.Machine.execLeak s
  | .modRstAssert => Sys2Proof.Machine.execModRstAssert s
  | .modRstRelease => Sys2Proof.Machine.execModRstRelease s
  | .perstAssert port pin => Sys2Proof.Machine.execPerstAssert port pin s
  | .perstRelease port refclk => Sys2Proof.Machine.execPerstRelease port refclk s
  | .controlPacket c t => Sys2Proof.Machine.execControlPacket c t s
  | .idleFlit port d => Sys2Proof.Machine.execIdleFlit port d s
  | .trainingEnd port ok => Sys2Proof.Machine.execTrainingEnd port ok s
  | .earlySignal port => Sys2Proof.Machine.execEarlySignal port s
  | .fwStageWrite port off data => Sys2Proof.Machine.execFwStageWrite port off data s
  | .readLatch h off wide => Sys2Proof.Machine.execReadLatch h off wide s
  | .doeDiscovery port => Sys2Proof.Machine.execDoeDiscovery port s
  | .mctpControl cmd => Sys2Proof.Machine.execMctpControl cmd s
  | .resetStageStart => Sys2Proof.Machine.execResetStageStart s

end Sys2Proof.Machine
end

