-- ==== Sys2Proof/WellFormed.lean ====
section
/-! DEFINITION. Which commands are well formed: every operand lies in the range the spec gives it (a queue, a tile, a field, a die, a port,
a reason code). The meanings are total; an ill-formed command names something the module does not have. -/

namespace Sys2Proof

/-- A unit of the rim stack of one of a group's eight members. -/
def RimUnit.wf (r : RimUnit) : Bool := decide (r.member < 8) && decide (r.unit < 2 ^ 24)

/-- One of the two PCIe ports (R506). -/
def wfHost (p : Nat) : Bool := decide (p < 2)
/-- One of the 64 queues (R515). -/
def wfQueue (q : Nat) : Bool := decide (q < 64)
/-- A logical tile ID (R10). -/
def wfTile (t : Nat) : Bool := decide (t < 2048)
/-- A field (R9). -/
def wfField (f : Nat) : Bool := decide (f < 8)
/-- An engine queue code of a tile (R177). -/
def wfCode (c : Nat) : Bool := decide (c < 9)
/-- A logical stack, channel and bank (R268, R275). -/
def wfStack (n : Nat) : Bool := decide (n < 1024)
def wfChan (c : Nat) : Bool := decide (c < 32)
/-- A logical capstan (R339) and a capstan die (R547). -/
def wfCap (c : Nat) : Bool := decide (c < 32)
def wfDie (c : Nat) : Bool := decide (c < 34)
/-- A Hawser port, a virtual channel, a lane (R372, R380). -/
def wfHaw (p : Nat) : Bool := decide (p < 24)
/-- A collective slot (R396) and a routing table set (R391). -/
def wfSlot (n : Nat) : Bool := decide (n < 4096)
/-- A partition's origin and shape (R74). -/
def wfPart (org shape : Nat) : Bool := decide (org < 2048) && decide (shape ≤ 5)
/-- A clock domain (R44). -/
def wfDomain (d : Nat) : Bool := decide (d < 16)
/-- A physical tile ID that names a tile (R10). -/
def wfPhys (u : Nat) : Bool := decide (u < 4096) && decide (u % 32 < 17)
/-- A bank and a row of a near-stack channel (R275). -/
def wfRow (bank row : Nat) : Bool := decide (bank < 16) && decide (row < 2 ^ 15)
/-- A word of the data path (R460): 32 bytes. -/
def DataWord.wf (w : DataWord) : Bool := w.data.length == 32
/-- Where a word or an event is lost (R45, R461). -/
def Transit.wf : Transit → Bool
  | .ok => true
  | .overrun a b => wfDomain a && wfDomain b
  | .hop t w => wfPhys t && w.wf
/-- Where a word with a failing byte was read (R461): its tile, or a module address. -/
def ParityPlace.wf : ParityPlace → Bool
  | .store t => wfTile t
  | .hop t => wfPhys t
  | .near _ a => decide (a < 2 ^ 43)
  | .rim a => decide (0x10 * 2 ^ 40 ≤ a) && decide (a < 0x12 * 2 ^ 40)
/-- A fault of a move (R45, R461). -/
def MoveFault.wf : MoveFault → Bool
  | .none => true
  | .hostFail port a => wfHost port && decide (a < 2 ^ 48)
  | .overrun a b => wfDomain a && wfDomain b
  | .parity p w => p.wf && w.wf
  | .rim a _ _ => decide (0x10 * 2 ^ 40 ≤ a) && decide (a < 0x12 * 2 ^ 40)
  | .lane _ => true
def LaneFault.wf : LaneFault → Bool
  | .parity w => w.wf
  | _ => true
/-- A crossing that takes no pulse in a beat: a router's by its tile, or one between two domains (R44). -/
def wfToggle (k : Nat) : Bool := decide (k < 2048 + 256)
/-- A host access (R507): its port. -/
def HostAccess.wf (h : HostAccess) : Bool := wfHost h.port
/-- A packet fits its header (R521): LEN from 0 to 64 units, 40 bytes of PARAM, LEN * 64 bytes of payload. -/
def Packet.wf (p : Packet) : Bool :=
  decide (p.opc < 65536) && decide (p.len ≤ 64) && p.param.length == 40 && p.payload.length == p.len * 64 &&
    wfQueue p.queue && wfHost p.origin
/-- A source engine of the mesh. -/
def Source.wf : Source → Bool
  | .queue t c => wfTile t && wfCode c
  | .engine _ => true
/-- A contribution (R312): at most 128 elements of one segment. -/
def Contribution.wf (c : Contribution) : Bool := decide (c.data.length ≤ 128) && decide (c.seg < 512)
/-- A leaf (R398). -/
def Leaf.wf (l : Leaf) : Bool := wfSlot l.slot && decide (l.data.length ≤ 128) && decide (l.member < 4096)
def Hello.wf (h : Hello) : Bool := wfHaw h.port
/-- A link packet (R390): its header's fields fit, and LEN units of 16 B follow. -/
def RoutedPacket.wf (p : RoutedPacket) : Bool :=
  decide (p.rts < 16) && decide (p.dest < 4096) && decide (p.vc < 4) && decide (p.len ≤ 32) && p.payload.length == 16 * p.len
/-- What every flit's header carries (R375): ACK in 20 bits, a channel, CRED in 13 bits. -/
def FlitHead.wf (h : FlitHead) : Bool := decide (h.ack < 2 ^ 20) && decide (h.cvc < 4) && decide (h.cred < 8192)
/-- A codeword: the 640 B of a flit (R374). -/
def Codeword.wf : Codeword → Bool
  | .flit _ b => b.length == 640
  | .overrun b => b.length == 640
  | .bad => true
def LaneCause.wf : LaneCause → Bool
  | .ratio _ bits => decide (0 < bits)
  | .words => true
  | .peer h seq => h.wf && decide (seq < 2 ^ 20)
def Control.wf : Control → Bool
  | .ready m _ => decide (m < 4096)
  | .vote m _ _ => decide (m < 4096)
  | .outcome m _ _ => decide (m < 4096)
  | .normP m _ _ => decide (m < 4096)
  | .arrive m i => decide (m < 4096) && decide (i < 65536)
def PowerSense.wf (m : PowerSense) : Bool := m.temps.length == 8 && m.again.length == 8 && m.tiles.length == 8 && m.stretched.length == 8

/-- Well-formedness of a command. -/
def Instr.wf : Instr → Bool
  | .registerWrite h off _ _ => h.wf && decide (off < 2 ^ 26) && off % 4 == 0
  | .sqDb h q _ => h.wf && wfQueue q
  | .cqDb h q _ => h.wf && wfQueue q
  | .queueEnable h q => h.wf && wfQueue q
  | .queueDisable h q => h.wf && wfQueue q
  | .commandFetch q data => wfQueue q && (match data with | some d => decide (64 ≤ d.length) | none => true)
  | .replyWrite q t => wfQueue q && t.wf
  | .apertureRead port off len f => wfHost port && decide (off + len ≤ 2 ^ 36) && f.wf
  | .apertureWrite port off data f => wfHost port && decide (off + data.length ≤ 2 ^ 36) && f.wf
  | .jobSeedWrite h _ => h.wf
  | .committedWrite h _ => h.wf
  | .privLockFreeze h => h.wf
  | .stallEnClear h => h.wf
  | .regionStage h n _ => h.wf && decide (n < 64)
  | .regionWrite h n _ => h.wf && decide (n < 64)
  | .cadSrc h _ => h.wf
  | .resync h => h.wf
  | .dbgHalt h => h.wf
  | .dbgResume h => h.wf
  | .dbgStep h => h.wf
  | .dbgDataRead h => h.wf
  | .dbgDataWrite h _ => h.wf
  | .nop p => p.wf
  | .eventGet p => p.wf
  | .buOpen p => p.wf
  | .loan p => p.wf
  | .loanRevokeEffect ident => decide (ident < 2 ^ 32)
  | .hintPlace p => p.wf
  | .playFire p => p.wf
  | .playAbort p => p.wf
  | .part p => p.wf
  | .partComplete org shape => wfPart org shape
  | .ledgerSet p => p.wf
  | .ledgerGet p => p.wf
  | .groupSet p => p.wf
  | .commitArm p => p.wf
  | .stateLoad p => p.wf
  | .planSet p => p.wf
  | .routeSet p => p.wf
  | .collSet p => p.wf
  | .collFire p => p.wf
  | .barrier p => p.wf
  | .portCtrl p => p.wf
  | .xmapSet p => p.wf
  | .xchSet p => p.wf
  | .xchGet p => p.wf
  | .prefSet p => p.wf
  | .telemSnap p => p.wf
  | .watchSet p => p.wf
  | .watchGet p => p.wf
  | .vecEval p => p.wf
  | .faultGet p => p.wf
  | .keyRevoke p => p.wf
  | .rollbackSet p => p.wf
  | .debugLock p => p.wf
  | .getCert port => wfHost port
  | .attest port nonce => wfHost port && nonce.length == 32
  | .debugChallenge port => wfHost port
  | .debugUnlock port _ => wfHost port
  | .grant _ _ _ => true
  | .offset _ _ => true
  | .report _ => true
  | .getSensorReading sensor => decide (sensor < 65536)
  | .playStart org shape => wfPart org shape
  | .playEnd org shape => wfPart org shape
  | .moveCompletion tile queue _ => wfTile tile && wfCode queue
  | .endMove tile => wfTile tile
  | .moveNop tile => wfTile tile
  | .fireat tile => wfTile tile
  | .fireatRelease tile => wfTile tile
  | .tie tile => wfTile tile
  | .remoteTieArrival src _ t => src.wf && t.wf
  | .wait tile => wfTile tile
  | .waitSatisfied tile queue => wfTile tile && wfCode queue
  | .waitTimeout tile queue => wfTile tile && wfCode queue
  | .kset tile => wfTile tile
  | .partMove tile => wfTile tile
  | .iframe tile => wfTile tile
  | .loadw tile => wfTile tile
  | .swapw tile => wfTile tile
  | .stream tile f => wfTile tile && f.wf
  | .sxt tile => wfTile tile
  | .rampStartGrant _ => true
  | .passBeat field => wfField field
  | .elem tile l => wfTile tile && l.wf
  | .reduce tile l => wfTile tile && l.wf
  | .smxb tile l => wfTile tile && l.wf
  | .nrmb tile l => wfTile tile && l.wf
  | .reductionResult tile => wfTile tile
  | .groupTimeout tile => wfTile tile
  | .topk tile l => wfTile tile && l.wf
  | .gather tile => wfTile tile
  | .scatter tile => wfTile tile
  | .scatterAdd tile l => wfTile tile && l.wf
  | .pack tile l => wfTile tile && l.wf
  | .amaxt tile l => wfTile tile && l.wf
  | .move tile f => wfTile tile && f.wf
  | .moveReplay tile queue f => wfTile tile && wfCode queue && f.wf
  | .inval tile => wfTile tile
  | .dispatch tile => wfTile tile
  | .combine tile => wfTile tile
  | .xchCount c t => decide (c.member < 4096) && wfTile c.tile && t.wf
  | .xchGrant g t => wfTile g.tile && t.wf
  | .xchRow _ t => t.wf
  | .fetch f t => decide (f.member < 4096) && wfTile f.tile && t.wf
  | .result r t => wfTile r.tile && t.wf
  | .leaf l t => l.wf && t.wf
  | .roundSum slot _ seg => wfSlot slot && decide (seg < 512)
  | .collectiveStart slot => wfSlot slot
  | .collectiveComplete slot => wfSlot slot
  | .barrierArrive ident => decide (ident < 65536)
  | .barrierRelease ident => decide (ident < 65536)
  | .barrierTimeout ident => decide (ident < 65536)
  | .contribution c t => c.wf && t.wf
  | .normPass => true
  | .normReduction => true
  | .applyPass cap l rim => wfCap cap && l.wf && rim.elim true RimUnit.wf
  | .capstanConfirm cap rim => wfCap cap && rim.elim true RimUnit.wf
  | .readySend => true
  | .commitVote => true
  | .commit => true
  | .commitRetract member => decide (member < 4096)
  | .commitSplit => true
  | .outcomeWindowClose => true
  | .capstanFail cap => wfCap cap
  | .rebuildComplete cap => wfCap cap
  | .tallyComparison field _ => wfField field
  | .auditSample field => wfField field
  | .beatEdge _ stuck => stuck.all wfToggle
  | .turnStamp _ _ => true
  | .cadenceLoss _ => true
  | .cadHoldover => true
  | .scheduledEvent => true
  | .crossingTimeout src dst => wfDomain src && wfDomain dst
  | .powerTurnBoundary m => m.wf
  | .opTransitionStep field => wfField field
  | .droopStretch field _ => wfField field
  | .stretchEnd field cycles => wfField field && decide (64 ≤ cycles)
  | .grantStale => true
  | .turnBoundary _ => true
  | .calibrationSlot stack chan _ _ _ _ => wfStack stack && wfChan chan
  | .refresh stack chan _ => wfStack stack && wfChan chan
  | .scrub stack chan _ => wfStack stack && wfChan chan
  | .scrubStarved => true
  | .rowRepair stack chan bank row _ _ => wfStack stack && wfChan chan && wfRow bank row
  | .nsThermal stack rim a b => (if rim then wfCap stack else wfStack stack) && a.length == 16 && b.length == 16
  | .chMigrate stack chan _ => wfStack stack && wfChan chan
  | .migrationSwitch stack chan _ => wfStack stack && wfChan chan
  | .stackSplice stack => wfStack stack
  | .rimScrub cap _ => wfCap cap
  | .flitData port lane w => wfHaw port && decide (lane < 9) && w.wf
  | .nak port d => wfHaw port && d.wf
  | .laneSwap port lane _ c => wfHaw port && decide (lane < 9) && c.wf
  | .hello port d h => wfHaw port && d.wf && h.wf
  | .helloSend port => wfHaw port
  | .packetForward p => p.wf
  | .hawPortDown port _ => wfHaw port
  | .hawStall port vc => wfHaw port && decide (vc < 4)
  | .portTraining port _ => wfHaw port
  | .qualificationEnd port lanes => wfHaw port && lanes.length == 9
  | .discoveryTimeout port => wfHaw port
  | .playRerun org shape => wfPart org shape
  | .seqHang tile => wfTile tile
  | .selfTest field row _ => wfField field && decide (row < 16)
  | .tileSplice field row col _ => wfField field && decide (row < 16) && decide (col < 17)
  | .tileWear tile _ => wfPhys tile
  | .phaseFault field phase => wfField field && decide (phase < 28)
  | .pllSwitch domain => decide (domain < 9)
  | .ccTakeover => true
  | .ccStandbyLost => true
  | .stageCcFw => true
  | .stageInventory _ => true
  | .stageStacks _ _ => true
  | .stageFill rows failed => (rows.all fun x => wfStack x.1 && wfChan x.2.1 && wfRow x.2.2.1 x.2.2.2) && failed.all fun x => wfStack x.1 && wfChan x.2
  | .stageCapstans failed => failed.all wfDie
  | .stageSeqFw => true
  | .broadcastRound _ _ _ => true
  | .stageCadence => true
  | .cadenceStageTimeout => true
  | .stageLinks => true
  | .stageReady => true
  | .stageComplete _ _ _ => true
  | .precharge mv => decide (-(2 ^ 31) ≤ mv) && decide (mv < 2 ^ 31)
  | .pwrOkRise => true
  | .shutdown _ => true
  | .leak => true
  | .modRstAssert => true
  | .modRstRelease => true
  | .perstAssert port _ => wfHost port
  | .perstRelease port _ => wfHost port
  | .controlPacket c t => c.wf && t.wf
  | .idleFlit port d => wfHaw port && d.wf
  | .trainingEnd port _ => wfHaw port
  | .earlySignal port => wfHaw port
  | .fwStageWrite port off data => wfHost port && decide (off + data.length ≤ 2 ^ 24)
  | .readLatch h off _ => h.wf && decide (off < 2 ^ 26)
  | .doeDiscovery port => wfHost port
  | .mctpControl _ => true
  | .resetStageStart => true

end Sys2Proof
end

