-- ==== Sys2Proof/Safety.lean ====
section
/-! DEFINITION. What counts as a safe run, in the terms the statements use: a step that answers a next state, the invariant that every step keeps,
and the frames of the commands. -/

namespace Sys2Proof.Machine

/-- A step that does not stop. -/
def Safe (s : State) : Prop := ∃ t, step s = .next t

/-- The invariant that every step keeps: module memory is in its canonical form (addresses strictly rising, no listed zero; R494). -/
def Inv (s : State) : Prop := memWf s.mem = true

/-- The groups of the module's state, one name per field of State. -/
inductive Part where
  | pending | cad | sched | arrivals | xing | fields | parts | removed | plays | parting | ramp | knots | mem | regions | loans | hints | caches | near | cap
  | watch | ports | lqWindow | sets | colls | barriers | exchanges | mesh | power | rel | bu | host | dbgUnit | pins | store | snap | freeCtr
  deriving DecidableEq, Repr

/-- A group holds the same values in two states. -/
def Part.same (s t : State) : Part → Prop
  | .pending => t.pending = s.pending
  | .cad => t.cad = s.cad
  | .sched => t.sched = s.sched
  | .arrivals => t.arrivals = s.arrivals
  | .xing => t.xing = s.xing
  | .fields => t.fields = s.fields
  | .parts => t.parts = s.parts
  | .removed => t.removed = s.removed
  | .plays => t.plays = s.plays
  | .parting => t.parting = s.parting ∧ t.partNext = s.partNext
  | .ramp => t.rampQueue = s.rampQueue ∧ t.rampLast = s.rampLast
  | .knots => t.knots = s.knots
  | .mem => t.mem = s.mem
  | .regions => t.regions = s.regions
  | .loans => t.loans = s.loans ∧ t.loanNext = s.loanNext
  | .hints => t.hints = s.hints
  | .caches => t.caches = s.caches
  | .near => t.near = s.near
  | .cap => t.cap = s.cap
  | .watch => t.watch = s.watch
  | .ports => t.ports = s.ports
  | .lqWindow => t.lqWindow = s.lqWindow
  | .sets => t.sets = s.sets
  | .colls => t.colls = s.colls
  | .barriers => t.barriers = s.barriers
  | .exchanges => t.exchanges = s.exchanges
  | .mesh => t.mesh = s.mesh
  | .power => t.power = s.power
  | .rel => t.rel = s.rel
  | .bu => t.bu = s.bu
  | .host => t.host = s.host
  | .dbgUnit => t.dbgUnit = s.dbgUnit
  | .pins => t.pins = s.pins
  | .store => t.store = s.store
  | .snap => t.snap = s.snap
  | .freeCtr => t.freeCtr = s.freeCtr

/-- The frame of a command: every group but those named is unchanged. -/
def OnlyChanges (l : List Part) (s t : State) : Prop := ∀ p, p ∉ l → p.same s t

/-- The host interface but for the event log and the messages that the log's vector sends (R529, R531). -/
def HostIf.butLog (h : HostIf) : HostIf := { h with events := [], evtNext := 0, evtSent := false, msi := [], pba := [] }

/-- Two states' host interfaces differ in the event log at most. -/
def HostSame (s t : State) : Prop := t.host.butLog = s.host.butLog

/-- The crossing that carries interrupts to the PCIe ports takes pulses, so that none can be lost at its pending counter, whose loss is an event of its own (R44,
R45). -/
def Calm (s : State) : Prop := s.xing.lag.contains (toggleOf 12 14) = false

/-- Event code was raised: from stage 2 DONE on (R488) its event stands newest in the event log, which keeps the newest 65,536 (R529), but for an XING_FAULT of an
interrupt's pulse lost on its way (R45). -/
def Raises (code : Nat) (s t : State) : Prop :=
  stageDone s 2 = true → ∃ l e, t.host.events = (l ++ e :: s.host.events).take 65536 ∧ e.code = code ∧ (∀ x ∈ l, x.code = Ev.xingFault) ∧ (Calm s → l = [])

/-- A record of a fault class was made: it stands newest in the fault ledger, which keeps the newest 262,144 (R481), above the records of pulses lost on their way
(R45). -/
def Records (cls : Nat) (s t : State) : Prop :=
  ∃ r l, t.store.ledger = (r :: l ++ s.store.ledger).take 262144 ∧ r.cls = cls ∧ (∀ x ∈ l, x.cls = 16) ∧ (Calm s → l = [])

/-- CT stands in its beat: between the last edge and the largest CT before the next one, in the edge's own beat but within a slew, edges at beat starts but within
a slew, whose remaining edges end at a beat start; a received CT is a beat start (R30, R34). -/
structure CtInBeat (c : Cad) : Prop where
  low : c.state.runs = true → c.edge.toNat ≤ c.ct.toNat
  high : c.state.runs = true → c.ct.toNat ≤ lastCt c
  beat : c.state.runs = true → c.state ≠ .slew → c.ct.toNat / 65536 = c.edge.toNat / 65536
  edge : c.state.runs = true → c.state ≠ .slew → c.edge.toNat % 65536 = 0
  slew : c.state = .slew → 1 ≤ c.slewLeft ∧ (c.edge.toNat + c.slewLeft * (if c.slewUp then 0x11000 else 0xF000)) % 65536 = 0
  received : ∀ r, c.rct = some r → r.toNat % 65536 = 0

/-- The standby's own receiver stands where the module's does (R477), and a failed active control complex has a standby (R478). -/
structure Mirrored (s : State) : Prop where
  gap : s.rel.ccFailed = true → s.rel.standby = true
  same : s.rel.standby = true → switchReceiver s.cad s.rel.receiver = s.cad

/-! ### When the module takes host accesses and commands -/

/-- The register file and the dispatcher serve: stage 2 is DONE (R488), no takeover gap stands (R478), and the crossing from the PCIe ports is open (R46). -/
structure Serves (s : State) : Prop where
  stage : stageDone s 2 = true
  active : s.rel.ccFailed = false
  crossing : xingClosed s 14 12 = false

/-- A register access in the privileged view that is served. -/
def PrivServed (h : HostAccess) (s : State) : Prop := Serves s ∧ h.job = false

/-- A command of opcode o that passes every check of R523 and is to be executed at dispatch (FIRE 0, R41). -/
def Admitted (o : Nat) (p : Packet) (s : State) : Prop :=
  Serves s ∧ p.opc = o ∧ p.fire = 0 ∧ checkPacket s p = none

/-- The reply of a command, completed at the present CT (R524). -/
def answerOf (p : Packet) (st : BitVec 16) (d : W64) (s : State) : Reply :=
  { queue := p.queue, seq := p.seq, status := st, detail := d, ct := s.cad.ct, opc := p.opc, origin := p.origin, notify := p.flags.getLsbD 4 }

/-- What a command does to the host interface is to queue its reply. -/
def Answered (p : Packet) (st : BitVec 16) (d : W64) (s t : State) : Prop :=
  t.host = { s.host with replies := s.host.replies ++ [answerOf p st d s] }

/-- The rows of the opcode table: the row's opcode and its packet. -/
def packetRow : Instr → Option (Nat × Packet)
  | .nop p => some (0x0001, p)
  | .eventGet p => some (0x0002, p)
  | .buOpen p => some (0x0101, p)
  | .loan p => some (0x0201, p)
  | .hintPlace p => some (0x0202, p)
  | .playFire p => some (0x0301, p)
  | .playAbort p => some (0x0302, p)
  | .part p => some (0x0303, p)
  | .ledgerSet p => some (0x0401, p)
  | .ledgerGet p => some (0x0402, p)
  | .groupSet p => some (0x0403, p)
  | .commitArm p => some (0x0404, p)
  | .stateLoad p => some (0x0405, p)
  | .planSet p => some (0x0501, p)
  | .routeSet p => some (0x0502, p)
  | .collSet p => some (0x0503, p)
  | .collFire p => some (0x0504, p)
  | .barrier p => some (0x0505, p)
  | .portCtrl p => some (0x0506, p)
  | .xmapSet p => some (0x0601, p)
  | .xchSet p => some (0x0602, p)
  | .xchGet p => some (0x0603, p)
  | .prefSet p => some (0x0701, p)
  | .telemSnap p => some (0x0801, p)
  | .watchSet p => some (0x0810, p)
  | .watchGet p => some (0x0811, p)
  | .vecEval p => some (0x0812, p)
  | .faultGet p => some (0x0901, p)
  | .keyRevoke p => some (0x0A01, p)
  | .rollbackSet p => some (0x0A02, p)
  | .debugLock p => some (0x0A03, p)
  | _ => none

/-- A command without a step takes its place in the order of dispatch (R38). -/
def arrived (s : State) : State := { s with arrivals := s.arrivals + 1 }

/-- Packet x has come, and its turn with it: off this member's mesh, where it is y with the engine that sent it, or from another member out of a port's receive buffer;
s₀ is the state without it. -/
def Comes (own : Bool) (shape : Nat × Nat) (rts : Nat) (x : MeshItem) (y : Source × MeshItem) (s s₀ : State) : Prop :=
  (own = true → meshTake x s = some (y, s₀)) ∧ (own = false → takeItem s shape rts x = some s₀ ∧ y = (.engine 0, x))

/-- Packet x has not come, or not in its turn. -/
def Absent (own : Bool) (shape : Nat × Nat) (rts : Nat) (x : MeshItem) (s : State) : Prop :=
  (own = true → meshTake x s = none) ∧ (own = false → takeItem s shape rts x = none)

/-- Command c lands packet y: it does what it does; a full crossing loses it, with its record; so does a mesh hop whose word stays faulty, while one that a retry
returns intact does what it does after the record (R45, R461). -/
def Lands (c : Transit → Instr) (y : Source × MeshItem) (does : State → State) (s s₀ : State) : Prop :=
  let who := senderOf s₀ y.1 (itemStep y.2)
  exec (c .ok) s = .next (does s₀) ∧
    (∀ a b, exec (c (.overrun a b)) s = .next (losePacket 16 y (xingRecordFor who.1 who.2.1 who.2.2 a b false s₀))) ∧
    ∀ k w, let r := parityMeets (.hop k) w who.1 who.2.1 who.2.2 s₀
      exec (c (.hop k w)) s = .next (if r.1 then losePacket 1 y r.2 else does r.2)

/-! ### The rows of the moves -/

/-- The move rows of the table: opcode, tile, the fault its move meets. -/
def moveRow : Instr → Option (Nat × Nat × MoveFault)
  | .moveNop t => some (0x00, t, .none)
  | .endMove t => some (0x01, t, .none)
  | .fireat t => some (0x02, t, .none)
  | .tie t => some (0x03, t, .none)
  | .wait t => some (0x04, t, .none)
  | .kset t => some (0x05, t, .none)
  | .partMove t => some (0x06, t, .none)
  | .iframe t => some (0x07, t, .none)
  | .loadw t => some (0x10, t, .none)
  | .swapw t => some (0x11, t, .none)
  | .stream t f => some (0x12, t, f)
  | .sxt t => some (0x13, t, .none)
  | .elem t l => some (0x20, t, ofLane t l)
  | .reduce t l => some (0x21, t, ofLane t l)
  | .smxb t l => some (0x22, t, ofLane t l)
  | .nrmb t l => some (0x23, t, ofLane t l)
  | .topk t l => some (0x24, t, ofLane t l)
  | .gather t => some (0x25, t, .none)
  | .scatter t => some (0x26, t, .none)
  | .scatterAdd t l => some (0x27, t, ofLane t l)
  | .pack t l => some (0x28, t, ofLane t l)
  | .amaxt t l => some (0x29, t, ofLane t l)
  | .move t f => some (0x30, t, f)
  | .inval t => some (0x31, t, .none)
  | .dispatch t => some (0x40, t, .none)
  | .combine t => some (0x41, t, .none)
  | _ => none

/-- Row c finds its move: the sequencer q of play p on a tile may dispatch, the word w it fetches has the row's opcode, stands where an END
may stand or not, and goes to a queue of the tile (on the lead, where only the lead has it); s₁ is the state after the fetch. -/
structure Fetches (c : Instr) (p : Play) (q : Sequencer) (m : QMove) (tile code : Nat) (s s₁ : State) : Prop where
  row : moveRow c = some (opOf m.word, tile, m.fault)
  seq : dispatcher s tile = some (p, q)
  word : fetchMove p q s = .word m.word s₁
  last : opOf m.word = 0x01 ↔ q.next + 1 = q.count
  queue : queueOf m.word = some code
  lead : code = 1 ∨ leadOnly (opOf m.word) = true → tile = p.org
  own : getPlay s₁ p.order = some p
  fresh : m = { word := m.word, idx := q.next, frame := {}, fault := m.fault }

/-- A move at the end of its queue, its sequencer past it. -/
def queued (p : Play) (tile code : Nat) (m : QMove) (s : State) : State :=
  modQueue p.order tile code (fun x => { x with moves := x.moves ++ [m] }) (stepSeq p.order tile s)

/-- Row c brings move m to the head of an empty queue of a live play p (as it then stands) in state s₂: it starts at once. -/
structure AtHead (c : Instr) (p : Play) (tile code : Nat) (m : QMove) (s s₂ : State) : Prop where
  engine : opOf m.word ∉ [0x00, 0x01, 0x02, 0x06]
  fetched : ∃ p₀ q m₀ s₁ x, Fetches c p₀ q m₀ tile code s s₁ ∧ p₀.order = p.order ∧ s₂ = queued p₀ tile code m₀ s₁ ∧
    getQueue p tile code = some x ∧ x.moves = [m₀] ∧ m = { m₀ with frame := x.frame }
  play : getPlay s₂ p.order = some p
  live : p.live = true

/-- Row c issues move m at the head of the lead's empty ARR queue in state s₂, with the queue's frame and the SXT before it (R180, R197): only a STREAM takes an SXT. -/
def Issued (c : Instr) (p : Play) (tile : Nat) (m : QMove) (s s₂ : State) : Prop :=
  ∃ p₀ m₀ s₁, AtHead c p₀ tile 1 m₀ s s₁ ∧ p₀.order = p.order ∧ opOf m₀.word ≠ 0x13 ∧ (opOf m₀.word = 0x12 ∨ sxtOf p₀ tile = none) ∧
    m = { m₀ with issued := true, sxt := sxtOf p₀ tile } ∧ getPlay s₂ p.order = some p ∧
    s₂ = (let t := putMove p.order tile 1 0 m s₁; if opOf m.word = 0x12 then setSxt p.order tile none t else t)

/-- Row c brings move m to where it starts, in state s₂: the head of an empty queue, where the ARR queue has issued it. -/
def Starts (c : Instr) (p : Play) (tile code : Nat) (m : QMove) (s s₂ : State) : Prop :=
  if code = 1 then Issued c p tile m s s₂ else AtHead c p tile code m s s₂

/-- What row c makes of a start r of move m: one that runs stands there started, what it writes and reads noted; one that is done leaves with its tie; a failed check ends
the play, a fault masks it, and a move that must wait stands unstarted. -/
def StartedAs (c : Instr) (p : Play) (tile code : Nat) (m : QMove) (s s₂ : State) (r : Start) : Prop :=
  match r with
  | .run m' s₃ => exec c s = .next (noteAll (noteStart p.order tile m' s₂ (addDests p.order (startDests p tile m' s₂) (putMove p.order tile code 0 m' s₃))))
  | .done s₃ => exec c s = .next (noteAll (makeTie p tile m.word (noteStart p.order tile m s₂ (dropMove p.order tile code 0 s₃))))
  | .fail st s₃ => exec c s = .next (failPlay p.order (moveFailure st m tile) (addDests p.order (failDests p tile m st s₂ s₃) s₃))
  | .fault k s₃ => exec c s = .next (faultPlay p.order k (faultOf m tile) (addDests p.order (startDests p tile m s₂) s₃))
  | .hold => exec c s = .next s₂

/-- Command c ends play p with a status at a move of a tile: nothing of the play is dispatched any more and nothing but the play changes from s₂ on. -/
def FailsWith (c : Instr) (p : Play) (tile : Nat) (m : QMove) (st : BitVec 16) (s s₂ : State) : Prop :=
  ∃ t y, exec c s = .next t ∧ getPlay t p.order = some y ∧ y.fail = some (moveFailure st m tile) ∧ (∀ z ∈ y.seqs, z.stopped = true) ∧ OnlyChanges [.plays] s₂ t

/-- Command c faults play p with a class at a move of a tile: its dispatch stops on every tile; s₂ is the state before. -/
def FaultsWith (c : Instr) (p : Play) (tile : Nat) (m : QMove) (cls : Nat) (l : List Part) (s s₂ : State) : Prop :=
  ∃ t y, exec c s = .next t ∧ getPlay t p.order = some y ∧ y.faulted = some cls ∧ y.faultAt = (wf m.word 17 15, m.idx, tile) ∧
    (∀ z ∈ y.seqs, z.stopped = true) ∧ OnlyChanges (.plays :: l) s₂ t

/-- What a lane fault leaves beside an operation's results: nothing without one; LANE_RESIDUE and a record of class 3 where the reissue masks it (R468). -/
def Masked (l : LaneFault) (s t : State) : Prop :=
  (l = .none → t.host = s.host ∧ t.store = s.store) ∧ (l = .once → Raises Ev.laneResidue s t ∧ Records 3 s t)

/-- Two byte ranges share no byte. -/
def Apart (a n b k : Nat) : Prop := a + n ≤ b ∨ b + k ≤ a

/-- Every byte that lies at no place of the ranges reads as before. -/
def KeepsBytes (l : List (Nat × Nat)) (s t : State) : Prop :=
  ∀ a, (∀ x ∈ l, ∀ i < x.2, memKey s a ≠ memKey s (x.1 + i)) → readByte t a = readByte s a

/-- A granule that could not be read is restored (R289): in a DATA entry its parity is inverted and its bytes are free; of one in a WCOPY entry the bytes of squares
stay as the master state gives them; no byte outside it changes. -/
def Restored (x : Retired) (s t : State) : Prop :=
  (∀ a r, granuleOf s x = some (a, r) → KeepsBytes [(a, 512)] s t ∧
    (r.typ = false → ∀ k < 4, (x, k) ∈ t.near.poisoned) ∧ (r.typ = true → ∀ k < 512, inCopy s (a + k) = true → readByte t (a + k) = readByte s (a + k))) ∧
  (granuleOf s x = none → KeepsBytes [] s t)

/-- A soft spare of its bank serves row x from now on (R286, R288): one repair more, with its row, a spare that served the row before retired, and ROW_REPAIRED. -/
def RepairedRow (x : Retired) (s t : State) : Prop :=
  let ch := chanNo s x.stack x.chan
  t.store.repairs = (s.store.repairs.map fun r => if r.chan = ch ∧ r.bank = x.bank ∧ r.row = x.row then { r with dead := true } else r) ++
    [{ chan := ch, bank := x.bank, row := x.row }] ∧
  rowKey x ∈ (getStack t x.stack).repaired ∧ t.near.retired = s.near.retired

/-- Rows of row x's channel that have been repaired since bring-up, x among them. -/
def repairedRows (x : Retired) (s : State) : Nat :=
  let l := (getStack s x.stack).repaired
  ((if l.contains (rowKey x) then l else rowKey x :: l).filter fun k => k / 524288 == x.chan).length

/-- The head of a queue of a play runs. -/
def RunsAtHead (t : State) (order tile code : Nat) : Prop :=
  ∃ y x m r, getPlay t order = some y ∧ getQueue y tile code = some x ∧ x.moves = m :: r ∧ m.started = true

end Sys2Proof.Machine
end

