-- ==== Sys2Proof/Certificates/Slice0/Obligations.lean ====
section
/-! DEFINITION. The statements for the provers. Each obligation is a conjunction of claims; a claim's docstring says what it states. -/

open Sys2Proof Sys2Proof.Machine

/-! ### The step and the whole machine -/

/-- A step takes the command at the front of the queue and runs exec on it with the queue's rest. On an empty queue the block idles, and the mesh clock brings CT's
fraction one step on, where CT runs and its beat is not at its end (the model's choice, assumptions 8 and 108). -/
def Claim.StepRunsFrontCommand : Prop :=
  (∀ (c : Instr) (rest : List Instr) (s : State), s.pending = c :: rest → step s = exec c { s with pending := rest }) ∧
    ∀ s : State, s.pending = [] → ∃ t, step s = .next t ∧ OnlyChanges [.cad] s t ∧
      t.cad = (if ctRuns s = true ∧ s.cad.ct.toNat < lastCt s.cad then { s.cad with ct := s.cad.ct + 1 } else s.cad)

/-- Each of the 199 commands, on every state and for all operands, is executed: none is refused, and only PRECHARGE with an input below the absolute
minimum of −0.5 V stops the machine (R552 gives no behaviour from there on). -/
def Claim.OnlyDamageStops : Prop :=
  (∀ (c : Instr) (s : State), (∀ mv, c = .precharge mv → -500 ≤ mv) → ∃ t, exec c s = .next t) ∧
    ∀ (mv : Int) (s : State), mv < -500 → exec (.precharge mv) s = .fault .inputDamage

/-- Module memory stays in its canonical form through every step. -/
def Claim.StepKeepsMemoryForm : Prop :=
  ∀ s t : State, Inv s → step s = .next t → Inv t

/-- The memory of the module right after reset is in its canonical form. -/
def Claim.ResetMemoryForm : Prop := Inv State.reset

/-! ### Cadence (chapter 02) -/

/-- A received beat edge in LOCKED, within its window: CT goes from the last edge to the start of the next beat, one beat further for each edge that was
missing, with fraction 0, and the measured period is taken; the pass-beat marks of the fields clear, and with an active control complex the snapshot
block is rebuilt with the new CT. A crossing whose pending counter is full (the stuck ones of the beat) loses this edge's pulse, which XING_STATUS and
a record of class 16 count; with none such, the log's once-per-beat mark clears and no event is raised. From that state t on, runs whose pass beat
begins are closed and what waited goes on. -/
def Claim.LockedBeatEdgeAdvancesCt : Prop :=
  ∀ (frac : BitVec 16) (off : Int) (per : Nat) (a b : Bool) (stuck : List Nat) (s : State), s.cad.state = .locked → inWindow s.cad off = true →
    ∃ t, exec (.beatEdge (.received frac off per a b) stuck) s = .next (resumeAccess (closePassing t)) ∧
      t.cad.ct = ctEdge s.cad.edge (s.cad.missing + 1) ∧ t.cad.ct.toNat % 65536 = 0 ∧ t.cad.edge = t.cad.ct ∧ t.cad.missing = 0 ∧ t.cad.periodPs = per ∧
      (∀ f, (getField t f).passNow = false) ∧ (s.rel.ccFailed = false → t.snap.seq = s.snap.seq + 1 ∧ t.snap.ct = t.cad.ct) ∧
      OnlyChanges [.cad, .sched, .host, .fields, .ports, .snap, .xing, .store, .rel] s t ∧
      ((∀ k ∈ stuckNow s stuck, lookupD 0 k s.xing.toggles < 15) → t.host.evtSent = false ∧ t.host.events = s.host.events ∧ t.store = s.store) ∧
      (∀ k, s.rel.ccFailed = false → xingClosed s 12 8 = false → stuck = [k] → beatPulse k = true → 15 ≤ lookupD 0 k s.xing.toggles →
        t.xing.overrun = true ∧ (Calm s → t.xing.count = min (s.xing.count + 1) 65535) ∧ Records 16 s t)

/-- CT never decreases at a beat edge (own, missing or received) while the module runs on a cadence (LOCKED, HOLDOVER, SLEW, INTERNAL), the realignment at
the end of an acquisition in HOLDOVER among them. CT stands in its beat before it, and clear of the end of its 64 bits. -/
def Claim.BeatEdgeNeverMovesCtBack : Prop :=
  ∀ (b : BeatSignal) (stuck : List Nat) (s t : State), ctRuns s = true → CtInBeat s.cad → s.cad.ct.toNat < 2 ^ 62 → s.cad.missing < 2 ^ 20 →
    exec (.beatEdge b stuck) s = .next t → s.cad.ct.toNat ≤ t.cad.ct.toNat

/-- After reset and after every step from a state where it is so (CT clear of the end of its 64 bits): CT stands in its beat, and the standby's own receiver stands
where the module's does, so that a takeover moves CT nowhere. -/
def Claim.CtStaysInItsBeat : Prop :=
  (CtInBeat State.reset.cad ∧ Mirrored State.reset) ∧
  ∀ s t : State, CtInBeat s.cad → Mirrored s → s.cad.ct.toNat < 2 ^ 62 → s.cad.missing < 2 ^ 20 → step s = .next t → CtInBeat t.cad ∧ Mirrored t

/-- Symbols and stamps. The samples at 3/8 and 5/8 of a beat decide the symbol: H then L is 0, L then H is 1, L and L idle. A stamp begins with the first
symbol that is not idle after at least 960 idle ones. TURN_STAMP takes its 64th bit: in LOCKED a whole, valid stamp with the predicted TURN ends a
run of bad stamps and sets NOM; any other adds to STAMP_ERR (saturating at 255) and to that run, and drops what an acquisition had gathered; the
standby's receiver follows. Away from a stamp's last bit, and in INTERNAL, nothing happens. -/
def Claim.LockedStampIsChecked : Prop :=
  (symbolOf true false = .zero ∧ symbolOf false true = .one ∧ symbolOf false false = .idle) ∧
  (∀ (y : Symbol) (n : Nat), y ≠ .idle → takeSymbol y (.idle n) = (if 960 ≤ n then .bits [y == .one] false else .idle 0, none)) ∧
  (∀ (a b : Bool) (l : List Bool) (broken : Bool) (s : State), s.cad.state = .locked → s.cad.rx = .bits l broken → l.length = 63 → s.cad.taken = false →
    let y := symbolOf a b
    let w := stampWord (l ++ [y == .one])
    let good := broken = false ∧ y ≠ .idle ∧ stampValid w = true ∧ stampTurn w = ctTurn s.cad.ct
    let c := { s.cad with rx := .idle 0, taken := true, judged := true }
    (good → exec (.turnStamp a b) s = .next (followCad { s with cad := { c with badStamps := 0, nom60 := stampNom w == 2 } })) ∧
    (¬good → exec (.turnStamp a b) s = .next (followCad { s with cad := { c with
      stampErr := min (s.cad.stampErr + 1) 255, badStamps := s.cad.badStamps + 1, acqTurn := none, acqEdges := 0, lockNext := false } }))) ∧
  ∀ (a b : Bool) (s : State), lastBit s.cad = false ∨ s.cad.state = .internal → exec (.turnStamp a b) s = .next s

/-- CADENCE_LOSS in LOCKED or SLEW once its condition holds (two edges missing in a row, two bad stamps in a row, or a period outside R21): HOLDOVER, with
CAD_HOLDOVER and a record of class 17; CT stays where no edge is missing, and with two edges missing in LOCKED stands 2 1/8 beats after the last
edge, the module's own beats between. CADENCE_LOSS without its condition does nothing. CAD_HOLDOVER is raised again after 256 turns of HOLDOVER, and not before. -/
def Claim.CadenceLossEntersHoldover : Prop :=
  (∀ (cause : LossCause) (s : State), s.cad.state = .locked ∨ s.cad.state = .slew →
    let cond := match cause with
      | .edges => 2 ≤ s.cad.missing
      | .stamps => 2 ≤ s.cad.badStamps
      | .period => periodOk s.cad.nom60 s.cad.periodPs = false
    (cond → ∃ t, exec (.cadenceLoss cause) s = .next t ∧ t.cad.state = .holdover ∧ (s.cad.missing = 0 → t.cad.ct = s.cad.ct) ∧
      (CtInBeat s.cad → s.cad.edge.toNat < 2 ^ 62 → s.cad.state = .locked → s.cad.missing = 2 → t.cad.ct.toNat = s.cad.edge.toNat + 2 * 65536 + 8192) ∧
      Raises Ev.cadHoldover s t ∧ Records 17 s t ∧
      OnlyChanges [.cad, .host, .store, .xing, .rel, .sched, .fields, .ports, .snap] s t ∧
      (s.cad.missing = 0 → HostSame s t ∧ OnlyChanges [.cad, .host, .store, .xing, .rel] s t)) ∧
    (¬cond → exec (.cadenceLoss cause) s = .next s)) ∧
  (∀ s : State, s.cad.state = .holdover → 262144 ≤ s.cad.holdBeats →
    exec .cadHoldover s = .next (post Ev.cadHoldover [] { s with cad := { s.cad with holdBeats := s.cad.holdBeats - 262144 } })) ∧
  ∀ s : State, s.cad.holdBeats < 262144 → exec .cadHoldover s = .next s

/-- Writes of CAD_CTRL in the privileged view, by the rows of its fields: SRC 0b01 and 0b10 start the internal cadence from the present CT; 0b11 leaves the field
and records ARG_REJECT; 0b00 from INTERNAL goes to HOLDOVER with CT unbroken and CAD_HOLDOVER, and from any other state keeps the state where a CT
has been established, else goes to UNLOCKED; with the lock closed the field keeps its value and LOCK_VIOLATION is raised. RESYNC after a CAD_REJECT
takes the received CT and locks; with plays, collectives or a commit pending or running it is refused with 0x0205 and nothing else changes. -/
def Claim.CadenceSourceWrites : Prop :=
  (∀ (h : HostAccess) (v : BitVec 2) (s : State), PrivServed h s →
    (s.host.privOpen = false → exec (.cadSrc h v) s = .next (lockViolation s)) ∧
    (s.host.privOpen = true → v = 3 → exec (.cadSrc h v) s = .next (post Ev.argReject [] s)) ∧
    (s.host.privOpen = true → v = 1 ∨ v = 2 → ∃ t, exec (.cadSrc h v) s = .next t ∧ t.cad.state = .internal ∧ t.cad.src = v ∧
      t.cad.ct = s.cad.ct ∧ t.cad.nom60 = (v == 2) ∧ OnlyChanges [.cad, .rel] s t) ∧
    (s.host.privOpen = true → v = 0 → s.cad.state = .internal → ∃ t, exec (.cadSrc h v) s = .next t ∧ t.cad.state = .holdover ∧
      t.cad.src = 0 ∧ t.cad.ct = s.cad.ct ∧ Raises Ev.cadHoldover s t ∧ HostSame s t ∧ OnlyChanges [.cad, .host, .rel, .xing, .store] s t) ∧
    (s.host.privOpen = true → v = 0 → s.cad.state ≠ .internal → ∃ t, exec (.cadSrc h v) s = .next t ∧ t.cad.src = 0 ∧ t.cad.ct = s.cad.ct ∧
      t.cad.state = (if s.cad.established then s.cad.state else .unlocked) ∧ OnlyChanges [.cad, .rel] s t)) ∧
  (∀ (h : HostAccess) (r : CtWord) (s : State), PrivServed h s → s.cad.state = .holdover → s.cad.rejected = true → s.cad.rct = some r →
    (resyncBusy s = true → exec (.resync h) s = .next (argReject 0x100 Status.resyncBusy s)) ∧
    (resyncBusy s = false → ∃ t, exec (.resync h) s = .next t ∧ t.cad.state = .locked ∧ t.cad.ct = r ∧ OnlyChanges [.cad, .rel] s t))

/-- CROSSING_TIMEOUT: XING_STATUS counts it (saturating at 0xFFFF; an interrupt's pulse that its events lose on the way counts too), TIMEOUT stands, the first record keeps its domain codes, the crossing refuses transfers
from then on, and no packet that had to pass it stands on the mesh any more. -/
def Claim.CrossingTimeoutClosesCrossing : Prop :=
  ∀ (a b : Nat) (s : State),
    ∃ t, exec (.crossingTimeout a b) s = .next t ∧ t.xing.timeout = true ∧
      (Calm s → t.xing.overrun = s.xing.overrun ∧ t.xing.count = min (s.xing.count + 1) 65535) ∧ min (s.xing.count + 1) 65535 ≤ t.xing.count ∧ xingClosed t a b = true ∧ (∀ c d, xingClosed s c d = true → xingClosed t c d = true) ∧
      (s.xing.timeout = false → s.xing.overrun = false → t.xing.src = a ∧ t.xing.dst = b) ∧
      (s.xing.timeout = true ∨ s.xing.overrun = true → t.xing.src = s.xing.src ∧ t.xing.dst = s.xing.dst) ∧
      (∀ x ∈ t.mesh, x ∈ s.mesh ∧ onCrossing a b x = false) ∧ t.mem = s.mem ∧ t.knots = s.knots

/-! ### Registers, doorbells, queues (chapters 18, 19) -/

/-- Writes of PRIV_LOCK's FREEZE and of JOB_SEED by their own rows, in a served access: FREEZE sticks; JOB_SEED takes the value, and with work of an
uncommitted step it keeps its value and ARG_REJECT records 0x0207; nothing else changes. -/
def Claim.SeedAndFreezeWrites : Prop :=
  (∀ (h : HostAccess) (s : State), PrivServed h s → exec (.privLockFreeze h) s = .next { s with host := { s.host with freeze := true } }) ∧
  (∀ (h : HostAccess) (v : W64) (s : State), Serves s →
    (seedBusy s = false → exec (.jobSeedWrite h v) s = .next { s with host := { s.host with seed := v } }) ∧
    (seedBusy s = true → exec (.jobSeedWrite h v) s = .next (argReject 0x30 Status.seedBusy s)))

/-- PRIV_LOCK, written through REGISTER_WRITE once FREEZE is 1: a write with OPEN = 1 leaves OPEN as it is, one with OPEN = 0 closes the lock, and
FREEZE stays 1: a closed lock stays closed. -/
def Claim.FrozenPrivLockStays : Prop :=
  ∀ (h : HostAccess) (wide : Bool) (v : W64) (s : State), PrivServed h s → s.host.freeze = true →
    exec (.registerWrite h 0x20 wide v) s = .next { s with host := { s.host with privOpen := bitAt v.toNat 0 && s.host.privOpen } }

/-- REGISTER_WRITE: a served write in the privileged view of EVT_CFG, RPL_INDEX and APER_0 takes the written fields; a 4 B write to a register wider
than 32 bits is refused with ARG_REJECT; an access that is not aligned is an Unsupported Request, which the port's configuration space records; a
served write in the job view to a register that only the privileged view writes does nothing; in a takeover gap a write waits in the port, in order, up to 256 of them. -/
def Claim.RegisterWriteForms : Prop :=
  (∀ (h : HostAccess) (v : W64) (s : State), PrivServed h s →
    exec (.registerWrite h 0x50 false v) s = .next { s with host := { s.host with
      evtVector := BitVec.ofNat 8 (fld (v.toNat % 2 ^ 32) 8 8), evtPort := bitAt (v.toNat % 2 ^ 32) 1, evtEn := bitAt (v.toNat % 2 ^ 32) 0 } } ∧
    exec (.registerWrite h 0x510 false v) s = .next { s with near := { s.near with rplIndex := BitVec.ofNat 14 (v.toNat % 2 ^ 32) } } ∧
    exec (.registerWrite h 0x40 false v) s = .next (post Ev.argReject [] s) ∧
    ∃ t, exec (.registerWrite h 0x40 true v) s = .next t ∧ (getPcie t 0).aper.base = BitVec.ofNat 20 (fld v.toNat 30 20) ∧
      (getPcie t 0).aper.writeEn = bitAt v.toNat 1 ∧ (getPcie t 0).aper.en = bitAt v.toNat 0 ∧ OnlyChanges [.host] s t) ∧
  (∀ (h : HostAccess) (off : Nat) (wide : Bool) (v : W64) (r : RegInfo) (s : State), Serves s → h.job = true → off < 0x800000 →
    off % (if wide then 8 else 4) = 0 → regInfo (off / 8 * 8) = some r → r.view ≠ 2 → exec (.registerWrite h off wide v) s = .next s) ∧
  (∀ (h : HostAccess) (off : Nat) (wide : Bool) (v : W64) (s : State), Serves s → off % (if wide then 8 else 4) ≠ 0 →
    exec (.registerWrite h off wide v) s = .next (unsupported h.port s) ∧ (getPcie (unsupported h.port s) h.port).cfg.unsupported = true) ∧
  (∀ (h : HostAccess) (off : Nat) (wide : Bool) (v : W64) (s : State), s.rel.ccFailed = true → xingClosed s 14 12 = false →
    s.host.heldWrites.length < 256 →
    exec (.registerWrite h off wide v) s = .next { s with host := { s.host with heldWrites := s.host.heldWrites ++ [(h, off, wide, v)] } })

/-- SQ_DB and CQ_DB in a served access whose view reaches the queue: a new tail is announced once, in order, and the announced one again announces nothing; a
tail outside the ring, or behind the announced ones, and a head outside the ring or past the replies written, raise DOORBELL_STALE and change
nothing else; a new head frees the replies up to it. A job-view doorbell for a privileged queue sets ERR 2 and does nothing else. -/
def Claim.DoorbellsAnnounce : Prop :=
  (∀ (h : HostAccess) (n tail : Nat) (s : State), Serves s → (h.job = true → (hostQueue s n).view = true) →
    let q := hostQueue s n
    (tail < sqSlots q → ahead (sqSlots q) q.sqhead q.tail ≤ ahead (sqSlots q) q.sqhead tail → tail ≠ q.tail →
      ∃ t, exec (.sqDb h n tail) s = .next t ∧ t.host.doorbells = s.host.doorbells ++ [{ queue := n, port := h.port, tail := tail }] ∧
        hostQueue t n = { q with tail := tail } ∧ (∀ m, m ≠ n → hostQueue t m = hostQueue s m) ∧ OnlyChanges [.host] s t) ∧
    (tail < sqSlots q → tail = q.tail → ∃ t, exec (.sqDb h n tail) s = .next t ∧ t.host.doorbells = s.host.doorbells ∧ hostQueue t n = q ∧
      OnlyChanges [.host] s t) ∧
    (sqSlots q ≤ tail ∨ ahead (sqSlots q) q.sqhead tail < ahead (sqSlots q) q.sqhead q.tail → exec (.sqDb h n tail) s = .next (staleDoorbell h s))) ∧
  (∀ (h : HostAccess) (n head : Nat) (s : State), Serves s → (h.job = true → (hostQueue s n).view = true) →
    let q := hostQueue s n
    (head < cqEntries q → ahead (cqEntries q) q.cqhead head ≤ q.cqused →
      exec (.cqDb h n head) s = .next (setHostQueue n { q with cqhead := head, cqused := q.cqused - ahead (cqEntries q) q.cqhead head } s)) ∧
    (cqEntries q ≤ head ∨ q.cqused < ahead (cqEntries q) q.cqhead head → exec (.cqDb h n head) s = .next (staleDoorbell h s))) ∧
  ∀ (h : HostAccess) (n x : Nat) (s : State), Serves s → h.job = true → (hostQueue s n).view = false →
    exec (.sqDb h n x) s = .next (setHostQueue n { hostQueue s n with err := 2 } s) ∧
    exec (.cqDb h n x) s = .next (setHostQueue n { hostQueue s n with err := 2 } s)

/-- QUEUE_ENABLE sets ENABLE and clears STOPPED and ERR of a queue that was disabled; QUEUE_DISABLE clears ENABLE, and SQHEAD stays; no other queue and no
state but the queues' changes. -/
def Claim.QueueEnableDisable : Prop :=
  ∀ (h : HostAccess) (n : Nat) (s : State), PrivServed h s →
    (∃ t, exec (.queueEnable h n) s = .next t ∧ (hostQueue t n).enable = true ∧
      ((hostQueue s n).enable = false → (hostQueue t n).stopped = false ∧ (hostQueue t n).err = 0) ∧
      (∀ m, m ≠ n → hostQueue t m = hostQueue s m) ∧ t.host = { s.host with queues := t.host.queues } ∧ OnlyChanges [.host] s t) ∧
    (∃ t, exec (.queueDisable h n) s = .next t ∧ (hostQueue t n).enable = false ∧ (hostQueue t n).sqhead = (hostQueue s n).sqhead ∧
      (∀ m, m ≠ n → hostQueue t m = hostQueue s m) ∧ t.host = { s.host with queues := t.host.queues } ∧ OnlyChanges [.host] s t)

/-- READ_LATCH in the privileged view, served: a read of JOB_SEED and of CAD_NOW, whole or of its lower 4 B, returns the register, and changes nothing but what
the read returned. A read at an offset that is not aligned to its width completes as an Unsupported Request, without data. -/
def Claim.ReadsReturnRegisters : Prop :=
  (∀ (h : HostAccess) (s : State), PrivServed h s →
    exec (.readLatch h 0x30 true) s = .next (returnRead (toLE 8 s.host.seed.toNat) false s) ∧
    exec (.readLatch h 0x110 true) s = .next (returnRead (toLE 8 s.cad.ct.toNat) false s) ∧
    exec (.readLatch h 0x30 false) s = .next (returnRead (toLE 4 s.host.seed.toNat) false s) ∧
    exec (.readLatch h 0x110 false) s = .next (returnRead (toLE 4 s.cad.ct.toNat) false s)) ∧
  ∀ (h : HostAccess) (off : Nat) (wide : Bool) (s : State), off % (if wide then 8 else 4) ≠ 0 →
    ∃ t, exec (.readLatch h off wide) s = .next t ∧ t.host.readData = [] ∧ t.host.readUr = true ∧ (getPcie t h.port).cfg.unsupported = true ∧
      OnlyChanges [.host] s t

/-- A 128-bit register (REGION_n, RPL_DATA) has bits [63:0] in the slot at its offset and bits [127:64] in the next: a read of the lower ones returns
them and latches the upper ones for the port, and a read of the upper ones on that port, whatever else has changed, returns what is latched. -/
def Claim.WideRegistersLatch : Prop :=
  ∀ (h : HostAccess) (o : Nat) (s : State), PrivServed h s → lowerHalf o = true →
    (upperHalf (o + 8) = true ∧ regInfo o = some ⟨128, 0⟩ ∧ regInfo (o + 8) = some ⟨128, 0⟩) ∧
    (∃ t, exec (.readLatch h o true) s = .next t ∧ t.host.readData = toLE 8 (regValue s o) ∧
      (getPcie t h.port).latch = BitVec.ofNat 64 (regValue s (o + 8)) ∧ OnlyChanges [.host] s t) ∧
    ∀ u : State, PrivServed h u →
      exec (.readLatch h (o + 8) true) u = .next (returnRead (toLE 8 (getPcie u h.port).latch.toNat) false u)

/-! ### Commands, replies, events, the aperture (chapter 18) -/

/-- The dispatcher, for every row of the opcode table. A packet that fails a check of R523, or meets a refusing row of R41 (FIRE given without a cadence; FIRE
more than 65,536 turns ahead; a COMMIT_ARM whose FIRE has passed; 4,096 events pending), is answered with that status and does nothing else; the times
of a command with a step are first shifted as R335 says. A command without a step, PREF_SET apart, whose FIRE is CT or lies ahead is scheduled: class 4
for TELEM_SNAP, else 3. One whose FIRE has passed runs at once with the late mark. Before stage 2 is DONE, and in a takeover gap, nothing is
dispatched. -/
def Claim.DispatcherChecks : Prop :=
  (∀ (c : Instr) (o : Nat) (p₀ : Packet) (s : State), packetRow c = some (o, p₀) → Serves s →
    let p := { p₀ with opc := o }
    let q := if stepOpcode o then shifted s p else p
    let tagged (x : Packet) := if o = 0x0405 then { x with tag := s.cap.committed.toNat } else x
    (∀ st, checkPacket s p = some st → exec c s = .next (refuseAtDispatch p st s)) ∧
    (∀ st, checkPacket s p = none → fireRefusal s q = some st → exec c s = .next (refuseAtDispatch q st s)) ∧
    (checkPacket s p = none → fireRefusal s p = none → stepOpcode o = false → o ≠ 0x0701 →
      (p.fire ≠ 0 → s.cad.ct.toNat ≤ p.fire.toNat → exec c s = .next { arrived s with sched := s.sched ++ [{
          fire := p.fire, cls := if o = 0x0801 then 4 else 3, order := s.arrivals, packet := tagged p }] }) ∧
      (p.fire ≠ 0 → p.fire.toNat < s.cad.ct.toNat → exec c s = .next (runOp (tagged { p with rsv := 1 }) s.arrivals (arrived s))))) ∧
  (∀ (p : Packet) (s : State),
    (p.fire ≠ 0 → ctRuns s = false → fireRefusal s p = some Status.noCadence) ∧
    (ctRuns s = true → s.cad.ct.toNat + fireReach < p.fire.toNat → fireRefusal s p = some Status.fireRange) ∧
    (p.fire ≠ 0 → ctRuns s = true → p.fire.toNat < s.cad.ct.toNat → p.opc = 0x0404 → fireRefusal s p = some Status.commitPassed) ∧
    (ctRuns s = true → s.cad.ct.toNat < p.fire.toNat → p.fire.toNat ≤ s.cad.ct.toNat + fireReach →
      fireRefusal s p = if 4096 ≤ pendingEvents s then some Status.scheduleFull else none) ∧
    (p.fire = 0 → fireRefusal s p = none)) ∧
  (∀ (p : Packet) (st : BitVec 16) (s : State), Answered p st 0 s (refuseAtDispatch p st s) ∧ OnlyChanges [.host] s (refuseAtDispatch p st s)) ∧
  ∀ (c : Instr) (o : Nat) (p : Packet) (s : State), packetRow c = some (o, p) → stageDone s 2 = false ∨ s.rel.ccFailed = true → exec c s = .next s

/-- What the checks of R523 refuse, in their order: an opcode that is not listed; a privileged one on a job-view queue; one that needs ready before it; then
HEADER: a reserved bit of the header, of FLAGS, of TGT or of PARAM set, a FLAGS bit that the opcode does not have, a payload length other than the
opcode's, a FIRE time for an opcode that takes none. What has none of these is not refused. -/
def Claim.PacketChecksInOrder : Prop :=
  ∀ (p : Packet) (s : State),
    (p.opc ∉ opcodes → checkPacket s p = some Status.opcode) ∧
    (p.opc ∈ opcodes → p.opc ∈ privOnly → (hostQueue s p.queue).view = true → checkPacket s p = some Status.viewDenied) ∧
    (p.opc ∈ opcodes → (hostQueue s p.queue).view = false ∨ p.opc ∉ privOnly → isReady s = false → earlyOp s p.opc = false →
      checkPacket s p = some Status.notReady) ∧
    (p.opc ∈ opcodes → (hostQueue s p.queue).view = false ∨ p.opc ∉ privOnly → isReady s = true ∨ earlyOp s p.opc = true →
      (p.rsv ≠ 0 ∨ p.flags >>> 5 ≠ 0 ∨ payloadLen p ≠ some p.len ∨ (hasTgt p.opc = true ∧ p.tgt >>> 14 ≠ 0) ∨ (hasTgt p.opc = false ∧ p.tgt ≠ 0) ∨
        (p.opc ≠ 0x0301 ∧ p.flags &&& 0xF ≠ 0) ∨ (p.fire ≠ 0 ∧ (p.opc / 256 = 0x01 ∨ p.opc / 256 = 0x0A)) ∨
        (∃ k b, p.param[k]? = some b ∧ b ≠ 0 ∧ ∀ x ∈ paramBytes p, ¬(x.1 ≤ k ∧ k < x.1 + x.2)) → checkPacket s p = some Status.header) ∧
      (headerClean p = true → checkPacket s p = none))

/-- NOP, EVENT_GET, FAULT_GET and TELEM_SNAP, admitted. NOP replies 0x0000. EVENT_GET and FAULT_GET with 1 to 4,096 records write them, 64 B each in order of
number, an overwritten one as zeros and one not yet written as free values, TELEM_SNAP the first 128·n B of the snapshot block; each then replies
0x0000. A count out of range replies HEADER, a destination they may not write ADDR_RANGE, and nothing is written. A destination write changes the
bytes named and no other. -/
def Claim.RecordCommands : Prop :=
  (∀ (p : Packet) (s : State), Admitted 0x0001 p s →
    ∃ t, exec (.nop p) s = .next t ∧ Answered p 0 0 s t ∧ OnlyChanges [.arrivals, .host] s t) ∧
  (∀ (p : Packet) (s : State), Admitted 0x0002 p s →
    let get (k : Nat) := (s.host.events.find? fun e => e.seq == k).map Event.bytes
    let n := item p.param 8 4
    let r := recordBytes get s.host.evtNext (item p.param 0 8) n (arrived s)
    (n = 0 ∨ 4096 < n → exec (.eventGet p) s = .next (refuse p Status.header (arrived s))) ∧
    (0 < n → n ≤ 4096 → destOk s (item p.param 16 8) (64 * n) true = false → exec (.eventGet p) s = .next (refuse p Status.addrRange (arrived s))) ∧
    (0 < n → n ≤ 4096 → destOk s (item p.param 16 8) (64 * n) true = true →
      exec (.eventGet p) s = .next (accept p (destWrite p.origin (item p.param 16 8) r.1 r.2)))) ∧
  (∀ (p : Packet) (s : State), Admitted 0x0901 p s →
    let get (k : Nat) := (s.store.ledger.find? fun r => r.seq == k).map FaultRec.bytes
    let n := item p.param 4 4
    let r := recordBytes get s.store.seq (item p.param 0 4) n (arrived s)
    (n = 0 ∨ 4096 < n → exec (.faultGet p) s = .next (refuse p Status.header (arrived s))) ∧
    (0 < n → n ≤ 4096 → destOk s (item p.param 8 8) (64 * n) true = false → exec (.faultGet p) s = .next (refuse p Status.addrRange (arrived s))) ∧
    (0 < n → n ≤ 4096 → destOk s (item p.param 8 8) (64 * n) true = true →
      exec (.faultGet p) s = .next (accept p (destWrite p.origin (item p.param 8 8) r.1 r.2)))) ∧
  (∀ (get : Nat → Option (List Byte)) (next first n : Nat) (s : State), (∀ k l, get k = some l → l.length = 64) →
    (recordBytes get next first n s).1.length = 64 * n ∧ OnlyChanges [.freeCtr] s (recordBytes get next first n s).2 ∧
    ∀ i < n, (∀ l, get (first + i) = some l → ((recordBytes get next first n s).1.drop (64 * i)).take 64 = l) ∧
      (get (first + i) = none → first + i < next → ((recordBytes get next first n s).1.drop (64 * i)).take 64 = List.replicate 64 0)) ∧
  (∀ (p : Packet) (s : State), Admitted 0x0801 p s →
    let n := item p.param 8 4
    (249 < n → exec (.telemSnap p) s = .next (refuse p Status.header (arrived s))) ∧
    (n ≤ 249 → destOk s (item p.param 0 8) (128 * n) true = true →
      exec (.telemSnap p) s = .next (accept p (destWrite p.origin (item p.param 0 8) ((List.range (128 * n)).map (snapByte s.snap)) (arrived s)))) ∧
    (n ≤ 249 → destOk s (item p.param 0 8) (128 * n) true = false → exec (.telemSnap p) s = .next (refuse p Status.addrRange (arrived s)))) ∧
  ∀ (origin a : Nat) (l : List Byte) (s : State),
    OnlyChanges [.mem, .near, .host, .xing, .store] s (destWrite origin a l s) ∧
      (spaceOf a = .host0 ∨ spaceOf a = .host1 → (destWrite origin a l s).mem = s.mem) ∧
      ∀ x, (∀ i < l.length, memKey s x ≠ memKey s (a + i)) → readByte (destWrite origin a l s) x = readByte s x

/-- COMMAND_FETCH takes the first announced command of a queue that runs and has room for a reply. A command is its first slot and LEN more, from SQHEAD on,
past the ring's end at slot 0: with a tail that covers them all SQHEAD moves past them and the command goes to the dispatcher (an announcement
that covers more stays for the next command), after its journal record to the standby; a tail that covers only part of them fetches nothing and is used
up. -/
def Claim.CommandsOccupySlots : Prop :=
  ∀ (n : Nat) (d : Doorbell) (l : List Byte) (s : State), Serves s → nextDoorbell s = some d → d.queue = n →
    let q := hostQueue s n
    let size := sqSlots q
    let slots := 1 + item l 4 2
    let covered := ahead size q.sqhead d.tail
    let moved := setHostQueue n { q with sqhead := (q.sqhead + slots) % size, outstanding := q.outstanding + 1 } s
    (covered < slots → exec (.commandFetch n (some l)) s = .next (dropDoorbell d s)) ∧
    (slots = covered → exec (.commandFetch n (some l)) s = .next (dispatchPacket (parseCommand n d.port l) (journalRecord (dropDoorbell d moved)))) ∧
    (slots < covered → exec (.commandFetch n (some l)) s = .next (dispatchPacket (parseCommand n d.port l) (journalRecord moved)))

/-- A failed read of a command's slots stops its queue with ERR 1; without an announcement that can be served, or for another queue than the one whose turn it
is, nothing is fetched; an announcement is not served while an aperture write of its port still waits. OPC, FLAGS, LEN, SEQ, TGT, FIRE and the 40 B of PARAM lie in the first slot where R521 puts them. -/
def Claim.FetchFailsOrIdles : Prop :=
  (∀ (n : Nat) (d : Doorbell) (s : State), Serves s → nextDoorbell s = some d → d.queue = n →
    exec (.commandFetch n none) s = .next (setHostQueue n { hostQueue s n with stopped := true, err := 1 } s)) ∧
  (∀ (n : Nat) (data : Option (List Byte)) (s : State), Serves s → (∀ d, nextDoorbell s = some d → d.queue ≠ n) → exec (.commandFetch n data) s = .next s) ∧
  (∀ (d : Doorbell) (s : State), nextDoorbell s = some d → canFetch s d.queue = true ∧ ∀ x ∈ s.host.aperWrites, x.1 ≠ d.port) ∧
  (∀ (q origin : Nat) (l : List Byte), 64 ≤ l.length →
    let p := parseCommand q origin l
    p.opc = item l 0 2 ∧ p.flags.toNat = item l 2 2 ∧ p.len = item l 4 2 ∧ p.seq.toNat = item l 8 4 ∧ p.tgt.toNat = item l 12 4 ∧
      p.fire.toNat = item l 16 8 ∧ p.param = (l.drop 24).take 40 ∧ p.payload.length = 64 * p.len)

/-- REPLY_WRITE writes the oldest reply of a queue, 32 B, at CQTAIL behind the queue's port, after its journal record to the standby, and moves CQTAIL on,
inverting the phase where the ring wraps; with IRQ_ALL or the command's NOTIFY the message of the queue's vector then goes out on that port, if its
function is not in reset and the vector is not masked (a masked one becomes pending; one at a crossing that takes no event now is held), and without
them none does. An interrupt that is lost at a full crossing is counted in XING_STATUS. -/
def Claim.RepliesAreWritten : Prop :=
  ∀ (n : Nat) (r : Reply) (s : State), s.rel.ccFailed = false → xingClosed s 12 14 = false →
    (s.host.replies.find? fun r => r.queue == n || r.queue == n + 64) = some r → r.queue = n →
    let q := hostQueue s n
    let port := if q.port then 1 else 0
    let v := q.vector.toNat
    let irq := q.irqAll || r.notify
    let sends := irq && !(getPcie s port).perst && !(getPcie s port).masked v
    (∃ t, exec (.replyWrite n .ok) s = .next t ∧ t.host.replies = s.host.replies.erase r ∧ (r.bytes q.phase n).length = 32 ∧
      (hostQueue t n).cqtail = (if cqEntries q ≤ q.cqtail + 1 then 0 else q.cqtail + 1) ∧
      (hostQueue t n).phase = (q.phase != decide (cqEntries q ≤ q.cqtail + 1)) ∧ (hostQueue t n).cqused = q.cqused + 1 ∧
      (hostQueue t n).outstanding = q.outstanding - 1 ∧
      (∀ k < 32, hostRead t port (q.cqbase.toNat + 32 * q.cqtail + k) = (r.bytes q.phase n).getD k 0) ∧
      (Calm s → t.host.msi = (if sends then (port, v) :: s.host.msi else s.host.msi) ∧ OnlyChanges [.host, .rel] s t) ∧
      (¬Calm s → t.host.msi = s.host.msi ∧ (sends = true → s.xing.irqs.length < 15 → t.xing.irqs = s.xing.irqs ++ [(port, v)])) ∧
      (irq = true → (getPcie s port).perst = false → (getPcie s port).masked v = true → (port, v) ∈ t.host.pba) ∧
      OnlyChanges [.host, .rel, .xing, .store] s t) ∧
    ∀ a b, irq = true → ∃ t, exec (.replyWrite n (.overrun a b)) s = .next t ∧ t.host.replies = s.host.replies.erase r ∧
      t.xing.overrun = true ∧ (Calm s → t.xing.count = min (s.xing.count + 1) 65535) ∧ Records 16 s t ∧
      (∀ k < 32, hostRead t port (q.cqbase.toNat + 32 * q.cqtail + k) = (r.bytes q.phase n).getD k 0) ∧ OnlyChanges [.host, .rel, .xing, .store] s t

/-- A reply whose port was reset since its command was fetched is recorded by REPLY_DROPPED and not written. -/
def Claim.RepliesOfResetPortsAreDropped : Prop :=
  ∀ (n : Nat) (r : Reply) (x : Transit) (s : State), s.rel.ccFailed = false → xingClosed s 12 14 = false →
    (s.host.replies.find? fun r => r.queue == n || r.queue == n + 64) = some r → r.queue = n + 64 →
    ∃ t, exec (.replyWrite n x) s = .next t ∧ t.host.replies = s.host.replies.erase r ∧ t.host.mem0 = s.host.mem0 ∧ t.host.mem1 = s.host.mem1 ∧
      (hostQueue t n).cqtail = (hostQueue s n).cqtail ∧ Raises Ev.replyDropped s t ∧ OnlyChanges [.host, .xing, .store] s t

/-- SCHEDULED_EVENT executes the first of the events that wait for a FIRE time, in order of FIRE time, then class, then order of dispatch: none of the
others comes before it. It executes when CT has reached its time, or reaches it by its fraction in the present beat, and no power event comes
first; else nothing happens. Its journal record goes first. A command without a step takes effect, TELEM_SNAP with the snapshot block of its FIRE time, a
pending play becomes due, an armed commit comes to its commit point, a barrier whose ARRIVEs are held is released. -/
def Claim.EventsRunInOrder : Prop :=
  (∀ s : State, firstEvent s = none → exec .scheduledEvent s = .next s) ∧
  (∀ (x : DueKey × Due) (s : State), s.rel.ccFailed = false → firstEvent s = some x →
    (inTurn x.1 s = true → x.1.1 ≤ s.cad.ct.toNat → exec .scheduledEvent s = .next (runEvent x (journalRecord s))) ∧
    (inTurn x.1 s = true → s.cad.ct.toNat < x.1.1 → ctRuns s = true → x.1.1 ≤ lastCt s.cad →
      exec .scheduledEvent s = .next (runEvent x (journalRecord (setCad { s.cad with ct := BitVec.ofNat 64 x.1.1 } s)))) ∧
    (inTurn x.1 s = false ∨ (s.cad.ct.toNat < x.1.1 ∧ (ctRuns s = false ∨ lastCt s.cad < x.1.1)) → exec .scheduledEvent s = .next s)) ∧
  (∀ (s : State) (x : DueKey × Due), firstEvent s = some x → x ∈ waitingEvents s ∧ ∀ y ∈ waitingEvents s, DueKey.before y.1 x.1 = false) ∧
  (∀ (k : DueKey) (e : Sched) (s : State), stepOpcode e.packet.opc = false →
    let s₁ := { s with sched := s.sched.erase e }
    (e.packet.opc ≠ 0x0801 → runEvent (k, .event e) s = runOp e.packet e.order s₁) ∧
    (e.packet.opc = 0x0801 → runEvent (k, .event e) s = opTelemSnap (e.block.getD s.snap) e.packet s₁)) ∧
  ∀ (k : DueKey) (p : Play) (b : BarrierRec) (s : State), runEvent (k, .play p) s = setPlay { p with state := .due } s ∧
    runEvent (k, .commit) s = commitPoint s ∧ runEvent (k, .barrier b) s = releaseBarrier b s

/-- The memory aperture, access by access. Before the fills are done a read does nothing but raise APERTURE_EARLY, and returns all ones; one that R511 does not
allow raises APERTURE_FAULT (once per beat and port) and returns all ones; one over a closed crossing has no effect, and one that memory does not serve
at present waits without effect (the model's choice, assumption 102). A read of a retired unit raises RETIRED_ACCESS, one of inverted parity raises
PARITY, both returning poisoned data; any other allowed read returns the bytes of module memory, whatever it meets on its way: a payload lost at a full
crossing is counted and sent again; a failing word of a tile store raises PARITY with a record of class 1, and only one that its retries do not repair
returns poisoned data. -/
def Claim.ApertureReads : Prop :=
  ∀ (port off n : Nat) (f : MoveFault) (s : State),
    let a := aperAddr s port off
    let ones := List.replicate n (0xFF : Byte)
    let read := exec (.apertureRead port off n f) s
    let open_ := aperEarly s a = false ∧ aperPermits s port false a n = true ∧ xingClosed s 14 8 = false ∧ aperWaits s a n = false
    let plain := anyUnit a n (isRetired s) = false ∧ anyUnit a n (isPoisoned s) = false
    (aperEarly s a = true → ∃ t, read = .next t ∧ t.host.readData = ones ∧ Raises Ev.apertureEarly s t ∧ OnlyChanges [.host, .xing, .store] s t) ∧
    (aperEarly s a = false → aperPermits s port false a n = false →
      ∃ t, read = .next t ∧ t.host.readData = ones ∧ (getPcie t port).aper.faulted = true ∧
        ((getPcie s port).aper.faulted = false → Raises Ev.apertureFault s t) ∧
        ((getPcie s port).aper.faulted = true → t.host.events = s.host.events) ∧ OnlyChanges [.host, .xing, .store] s t) ∧
    (aperEarly s a = false → aperPermits s port false a n = true → xingClosed s 14 8 = true → read = .next (returnRead ones true s)) ∧
    (aperEarly s a = false → aperPermits s port false a n = true → xingClosed s 14 8 = false → aperWaits s a n = true → read = .next s) ∧
    (open_ → anyUnit a n (isRetired s) = true → ∃ t, read = .next t ∧ t.host.readData = readBytes s a n ∧ t.host.readPoison = true ∧
      Raises Ev.retiredAccess s t ∧ OnlyChanges [.host, .xing, .store] s t) ∧
    (open_ → anyUnit a n (isRetired s) = false → anyUnit a n (isPoisoned s) = true → ∃ t, read = .next t ∧ t.host.readData = readBytes s a n ∧
      t.host.readPoison = true ∧ Raises Ev.parity s t ∧ Records 1 s t ∧ OnlyChanges [.host, .store, .xing] s t) ∧
    (open_ → plain → ∃ t, read = .next t ∧ t.host.readData = readBytes s a n ∧ t.host.readPoison = accessFails a n f ∧
      (faultIn a n f = false → t = returnRead (readBytes s a n) false s) ∧
      (∀ x y, f = .overrun x y → t.xing.overrun = true ∧ Records 16 s t) ∧
      ∀ L w, f = .parity (.store L) w → faultIn a n f = true →
        t.host.readPoison = !wordIntact w ∧ Raises Ev.parity s t ∧ Records 1 s t ∧ OnlyChanges [.host, .store, .xing, .rel] s t)

/-- A write through the aperture: one too early raises APERTURE_EARLY and writes nothing, one that R511 does not allow raises APERTURE_FAULT (once per beat
and port) and writes nothing; one over a closed crossing has no effect; one that memory does not serve at present waits in the module, after which no
later doorbell of its port is served, and goes to memory once its channel serves again. What it meets on its way is recorded, and the link sends it
again. An allowed write to a tile store writes exactly its bytes; one to near granules that are not retired clears their parity marks and writes its
bytes; one to a retired granule is discarded with RETIRED_ACCESS. A spill that copies what is overwritten has it noted. -/
def Claim.ApertureWrites : Prop :=
  (∀ (port off : Nat) (data : List Byte) (f : MoveFault) (s : State),
    let a := aperAddr s port off
    let n := data.length
    let write := exec (.apertureWrite port off data f) s
    let s₁ := accessMeets port a n f s
    let allowed := aperEarly s a = false ∧ aperPermits s port true a n = true ∧ xingClosed s 14 8 = false
    (faultIn a n f = false → s₁ = s) ∧
    (aperEarly s a = true → ∃ t, write = .next t ∧ Raises Ev.apertureEarly s t ∧ OnlyChanges [.host, .xing, .store] s t) ∧
    (aperEarly s a = false → aperPermits s port true a n = false → ∃ t, write = .next t ∧
      ((getPcie s port).aper.faulted = false → Raises Ev.apertureFault s t) ∧
      ((getPcie s port).aper.faulted = true → t = s) ∧ OnlyChanges [.host, .xing, .store] s t) ∧
    (aperEarly s a = false → aperPermits s port true a n = true → xingClosed s 14 8 = true → write = .next s) ∧
    (allowed → aperWaits s₁ a n = true →
      write = .next { s₁ with host := { s₁.host with aperWrites := s₁.host.aperWrites ++ [(port, a, data)] } }) ∧
    (allowed → aperWaits s₁ a n = false → spaceOf a = .tile → faultIn a n f = false → Inv s →
      ∃ t, write = .next t ∧ (∀ i < n, readByte t (a + i) = data.getD i 0) ∧
        (∀ x, x < a ∨ a + n ≤ x → readByte t x = readByte s x) ∧ OnlyChanges [.mem, .plays] s t) ∧
    (allowed → aperWaits s₁ a n = false → spaceOf a = .near → write = .next (noteAll (nearWriteFor port a data n s₁))) ∧
    (spaceOf a = .near → 0 < n → a % 512 + n ≤ 512 →
      (isRetired s a = false → nearWriteFor port a data n s = writeBytes a data (unpoison a n s)) ∧
      (isRetired s a = true → Raises Ev.retiredAccess s (nearWriteFor port a data n s) ∧
        OnlyChanges [.host, .xing, .store] s (nearWriteFor port a data n s)))) ∧
  (∀ s : State, OnlyChanges [.plays] s (noteAll s)) ∧
  ∀ (port a : Nat) (data : List Byte) (s : State), s.host.aperWrites = [(port, a, data)] →
    let s₀ := { s with host := { s.host with aperWrites := [] } }
    (rangeWaits s a data.length = true → serveAper s = noteAll s) ∧
    (rangeWaits s a data.length = false → serveAper s = noteAll (nearWriteFor port a data data.length s₀))

/-! ### Power input, resets, bring-up (chapters 17 and 20) -/

/-- From the input to stage 0. An input above the overvoltage threshold or below the undervoltage threshold shuts the module down, in its precharge too; one below
40 V also records that the input fell and releases a leak's latch; from the restart threshold on, a module that is not powered, whose input has fallen
and whose leak is not latched begins its precharge; else nothing happens. PWR_OK_RISE ends the precharge. SHUTDOWN acts where what the input stands at
passes its limit. A shutdown drops every rail; MOD_RST, with PWR_OK high, leaves the rails that are on, at OP0; both lose volatile state. Stage 0 begins
when MOD_RST is released and 1 ms has passed since PWR_OK rose (RESET_STAGE_START), whichever comes last. The defect store and host memory outlast all of
these. -/
def Claim.PowerInputAndResets : Prop :=
  (∀ (mv : Int) (s : State), -500 ≤ mv →
    let restarts := restartMv ≤ mv ∧ s.pins.powered = false ∧ s.pins.fell = true ∧ s.pins.leakLatched = false
    let off := shutDown false s
    (overMv < mv → exec (.precharge mv) s = .next off) ∧
    (40000 ≤ mv → mv < underMv → exec (.precharge mv) s = .next off) ∧
    (mv < 40000 → exec (.precharge mv) s = .next { off with pins := { off.pins with fell := true, leakLatched := false } }) ∧
    (mv ≤ overMv → restarts → exec (.precharge mv) s = .next { s with pins := { s.pins with precharging := true, fell := false } }) ∧
    (underMv ≤ mv → mv ≤ overMv → ¬restarts → exec (.precharge mv) s = .next s)) ∧
  (∀ mv s, mv < -500 → exec (.precharge mv) s = .fault .inputDamage) ∧
  (43500 ≤ underMv ∧ underMv ≤ 44500 ∧ 45000 ≤ restartMv ∧ restartMv ≤ 46000 ∧ 57500 ≤ overMv ∧ overMv ≤ 59500 ∧ 600 ≤ tripAmps ∧ tripAmps ≤ 640) ∧
  (∀ s : State,
    (s.pins.precharging = true → exec .pwrOkRise s = .next { s with pins := { s.pins with
      precharging := false, powered := true, pwrOk := true, settled := false, fell := false } }) ∧
    (s.pins.precharging = false → exec .pwrOkRise s = .next s)) ∧
  (∀ (c : InputFault) (s : State),
    let trips := match c with
      | .under mv => mv < underMv
      | .over mv => overMv < mv
      | .current amps => tripAmps < amps
    (trips → exec (.shutdown c) s = .next (shutDown false s)) ∧ (¬trips → exec (.shutdown c) s = .next s)) ∧
  (∀ s : State,
    let t := shutDown false s
    (s.pins.powered = true ∨ s.pins.precharging = true → t.pins.powered = false ∧ t.pins.pwrOk = false ∧ t.pins.precharging = false ∧
      t.pins.leakLatched = s.pins.leakLatched ∧ t.pins.fell = false ∧ t.fields = [] ∧ t.store = s.store ∧ t.mem = [] ∧ t.knots = [] ∧ t.plays = [] ∧
      t.bu = State.reset.bu ∧ t.cad = State.reset.cad ∧ t.host.mem0 = s.host.mem0 ∧ t.host.mem1 = s.host.mem1) ∧
    (s.pins.powered = false → s.pins.precharging = false → t = s)) ∧
  (∀ s : State,
    (s.pins.pwrOk = true → ∃ t, exec .modRstAssert s = .next t ∧ t.pins = { s.pins with modRst := true } ∧ t.store = s.store ∧ t.mem = [] ∧ t.knots = [] ∧
      t.plays = [] ∧ t.bu = State.reset.bu ∧ t.cad = State.reset.cad ∧ t.dbgUnit = State.reset.dbgUnit ∧ t.near.retired = s.near.retired ∧
      (∀ x ∈ t.fields, x.2.railMv = opMv 0) ∧ t.host.mem0 = s.host.mem0 ∧ t.host.mem1 = s.host.mem1) ∧
    (s.pins.pwrOk = false → exec .modRstAssert s = .next { s with pins := { s.pins with modRst := true } })) ∧
  ∀ s : State,
    (s.pins.pwrOk = true → s.bu.stage = 0 → s.bu.state = .wait →
      (s.pins.settled = true → exec .modRstRelease s = .next { s with pins := { s.pins with modRst := false }, bu := { s.bu with state := .running } }) ∧
      (s.pins.modRst = false → exec .resetStageStart s = .next { s with pins := { s.pins with settled := true }, bu := { s.bu with state := .running } })) ∧
    (s.pins.settled = false → exec .modRstRelease s = .next { s with pins := { s.pins with modRst := false } }) ∧
    (s.pins.modRst = true → exec .resetStageStart s = .next { s with pins := { s.pins with settled := s.pins.pwrOk } })

/-- LEAK: a module that is powered, or in its precharge, shuts down, losing its rails and all volatile state; the shutdown latches: no input voltage from 40 V up
restarts the module until the input falls below 40 V. -/
def Claim.LeakLatches : Prop :=
  (∀ s : State, s.pins.powered = true ∨ s.pins.precharging = true →
    ∃ t, exec .leak s = .next t ∧ t.pins.powered = false ∧ t.pins.pwrOk = false ∧ t.pins.precharging = false ∧ t.pins.leakLatched = true ∧
      t.fields = [] ∧ t.store = s.store ∧ t.mem = [] ∧ t.knots = [] ∧ t.plays = [] ∧ t.bu = State.reset.bu) ∧
  (∀ s : State, s.pins.powered = false → s.pins.precharging = false →
    exec .leak s = .next { s with pins := { s.pins with leakLatched := true } } ∧
    (∀ mv : Int, s.pins.leakLatched = true → 40000 ≤ mv → exec (.precharge mv) s = .next s) ∧ exec .pwrOkRise s = .next s) ∧
  ∀ (mv : Int) (s : State), -500 ≤ mv → mv < 40000 → ∃ t, exec (.precharge mv) s = .next t ∧ t.pins.fell = true ∧ t.pins.leakLatched = false

/-- A port's reset, by PERST_N, a hot reset or a Function Level Reset, disables the queues it owns and no other, resets its function with its configuration space and
leaves module memory, knots and bring-up; PERST_N holds the function in reset, the others leave it serving. PERST_N's release starts stage 1 once stage 0 is
DONE, and serves configuration at once where stage 1 is DONE. -/
def Claim.PortResets : Prop :=
  (∀ (n : Nat) (pin : Bool) (s : State),
    ∃ t, exec (.perstAssert n pin) s = .next t ∧
      getPcie t n = { perst := pin || (getPcie s n).perst, refclk := (getPcie s n).refclk, trained := !pin && (getPcie s n).trained } ∧
      (∀ q < 64, (hostQueue s q).port = (n == 1) → hostQueue t q = { hostQueue s q with enable := false, stopped := false }) ∧
      (∀ q, (hostQueue s q).port ≠ (n == 1) → hostQueue t q = hostQueue s q) ∧ (∀ m, m ≠ n → getPcie t m = getPcie s m) ∧
      t.host.mem0 = s.host.mem0 ∧ t.host.mem1 = s.host.mem1 ∧ t.host.replies.length = s.host.replies.length ∧
      OnlyChanges [.host, .sched, .plays, .parting, .loans, .colls, .barriers, .cap] s t) ∧
  (∀ (n : Nat) (refclk : Bool) (s : State), s.bu.stage = 0 → s.bu.state = .done →
    ∃ t, exec (.perstRelease n refclk) s = .next t ∧ (getPcie t n).perst = false ∧ (getPcie t n).refclk = refclk ∧ t.bu.stage = 1 ∧ t.bu.state = .running ∧
      OnlyChanges [.host, .bu] s t) ∧
  (∀ (n : Nat) (refclk : Bool) (s : State), stageDone s 1 = true → s.bu.stage ≠ 0 →
    ∃ t, exec (.perstRelease n refclk) s = .next t ∧ (getPcie t n).perst = false ∧ (getPcie t n).refclk = refclk ∧ (getPcie t n).trained = true ∧
      OnlyChanges [.host] s t)

/-- BU_OPEN, admitted, opens exactly the stage after a DONE one, or a FAILED one again, and replies 0x0000; stage 3 starts the field rails at OP0 (assumption
127). Any other stage is refused with STAGE_ORDER in the reply, in BU_STATUS and as an event, and no stage moves. FW_STAGE takes the bytes of host writes
through a port that serves, while no stage runs; while one runs they are discarded, with one FW_STAGE_BUSY for the stage. -/
def Claim.StagesOpenInOrder : Prop :=
  (∀ (p : Packet) (s : State), Admitted 0x0101 p s →
    let n := item p.param 0 1
    let may := (n = s.bu.stage + 1 ∧ s.bu.state = .done ∨ n = s.bu.stage ∧ s.bu.state = .failed) ∧ 2 ≤ n ∧ n ≤ 10
    (may → ∃ t, exec (.buOpen p) s = .next t ∧ t.bu.stage = n ∧ t.bu.state = .running ∧ t.bu.cause = 0 ∧ t.bu.result = none ∧ t.bu.window = s.bu.window ∧
      Answered p 0 0 s t ∧ OnlyChanges [.arrivals, .bu, .host, .fields] s t ∧ (n ≠ 3 → t.fields = s.fields) ∧
      (n = 3 → ∀ f < 8, (getField t f).railMv = if (getField s f).railMv = 0 then opMv 0 else (getField s f).railMv)) ∧
    (¬may → ∃ t, exec (.buOpen p) s = .next t ∧ t.bu = { s.bu with code := Status.stageOrder } ∧
      OnlyChanges [.arrivals, .bu, .host, .xing, .store] s t ∧
      t.host.replies = s.host.replies ++ [answerOf p Status.stageOrder 0 s] ∧ Raises Ev.stageOrder s t)) ∧
  (∀ (port off : Nat) (data : List Byte) (s : State), s.pins.pwrOk = true → (getPcie s port).trained = true →
    (s.bu.state ≠ .running → ∃ t, exec (.fwStageWrite port off data) s = .next t ∧ OnlyChanges [.bu] s t ∧ t.bu = { s.bu with window := t.bu.window } ∧
      ∀ k, lookupD 0 k t.bu.window = if off ≤ k ∧ k < off + data.length then data.getD (k - off) 0 else lookupD 0 k s.bu.window) ∧
    (s.bu.state = .running → s.bu.windowBusy = true → exec (.fwStageWrite port off data) s = .next s) ∧
    (s.bu.state = .running → s.bu.windowBusy = false →
      exec (.fwStageWrite port off data) s = .next (post Ev.fwStageBusy [] { s with bu := { s.bu with windowBusy := true } }))) ∧
  ∀ (port off : Nat) (data : List Byte) (s : State), s.pins.pwrOk = false ∨ (getPcie s port).trained = false →
    exec (.fwStageWrite port off data) s = .next s

/-- The image stages 2, 6, 7 and 9, running: an image that fails a check of R533 fails the stage with that check's code and runs nowhere; one that passes
is measured and runs, and the stage goes on: stage 2 to its end, stage 6 to the capstans (every die in service good, no ledger entry and no group),
stage 7 to round 1 of its broadcast, stage 9 with the links open. -/
def Claim.ImageStagesCheckImages : Prop :=
  let runs (kind : Nat) (s t : State) : Prop := ∃ x, lookup kind t.bu.images = some x ∧ x.arb = winN s 8 4 ∧
    x.meas = Config.shake256 (winBytes s 0 2016 ++ winBytes s 5376 (bodyLen s))
  (∀ s : State, working s 2 = true →
    ∃ t, exec .stageCcFw s = .next t ∧ OnlyChanges [.bu] s t ∧
      match imageFault s 1 with
      | some c => t.bu = { s.bu with result := some { state := .failed, code := c, cause := 0 } }
      | none => t.bu.result = some { state := .done, code := 0, cause := 0 } ∧ runs 1 s t) ∧
  (∀ (failed : List Nat) (s : State), working s 6 = true →
    ∃ t, exec (.stageCapstans failed) s = .next t ∧ OnlyChanges [.bu, .cap, .store, .rel] s t ∧
      match imageFault s 2 with
      | some c => t.bu = { s.bu with result := some { state := .failed, code := c, cause := 0 } } ∧ OnlyChanges [.bu] s t
      | none => t.bu.result.isSome = true ∧ runs 2 s t ∧ t.cap.ledger = [] ∧ t.cap.groups = [] ∧ (∀ d ∈ failed, d ∈ t.store.badDice) ∧
        ∀ k < 32, (getCapstan t k).failed = false → (getCapstan t k).die ∉ t.store.badDice) ∧
  (∀ s : State, working s 7 = true →
    ∃ t, exec .stageSeqFw s = .next t ∧ OnlyChanges [.bu] s t ∧
      match imageFault s 3 with
      | some c => t.bu = { s.bu with result := some { state := .failed, code := c, cause := 0 } }
      | none => t.bu.round = 1 ∧ t.bu.chunks = (5376 + bodyLen s + 4095) / 4096 ∧ t.bu.result = none ∧ runs 3 s t) ∧
  (∀ s : State, working s 9 = true →
    ∃ t, exec .stageLinks s = .next t ∧ OnlyChanges [.bu] s t ∧
      match imageFault s 4 with
      | some c => t.bu = { s.bu with result := some { state := .failed, code := c, cause := 0 } }
      | none => t.bu.linkOpen = true ∧ t.bu.result = some { state := .done, code := 0, cause := 0 } ∧ runs 4 s t)

/-- Stages 3 to 5, running: a defect store that is not intact ends the inventory FATAL with cause 1; else the units that BIST found are bad, faulty
regulator phases among them, which the store keeps and the fields shed; and two capstan dice of a group without a spare, or a mesh without a PLL, end it
FATAL with causes 3 and 4. A stack that no spare serves ends stage 4 FATAL with
cause 2; else every stack in service is good in all its channels. The fill makes all memory and every knot zero, COMMITTED and CUR 0. -/
def Claim.InventoryStacksAndFill : Prop :=
  (∀ (v : Inventory) (s : State), working s 3 = true →
    (v.storeIntact = false →
      exec (.stageInventory v) s = .next { s with bu := { s.bu with result := some { state := .fatal, code := Status.bringupFatal, cause := 1 } } }) ∧
    (v.storeIntact = true → ∃ t x, exec (.stageInventory v) s = .next t ∧ t.bu.result = some x ∧ (∀ u ∈ v.tiles, physOk u = true → u ∈ t.store.badTiles) ∧
      (∀ u ∈ v.plls, u ∈ t.store.badPlls) ∧ (∀ u ∈ v.dice, u ∈ t.store.badDice) ∧
      (∀ u ∈ v.phases, u < 256 → u % 32 < 28 → u ∈ t.store.badPhases ∧ u % 32 ∈ (getField t (u / 32)).phasesShed) ∧
      x = (if groupDead t then { state := .fatal, code := Status.bringupFatal, cause := 3 }
        else if meshDead t then { state := .fatal, code := Status.bringupFatal, cause := 4 } else { state := .done, code := 0, cause := 0 }) ∧
      HostSame s t ∧ OnlyChanges [.bu, .cap, .fields, .host, .freeCtr, .store, .rel, .xing] s t)) ∧
  (∀ (failed : List (Nat × Nat)) (bad : List Nat) (s : State), working s 4 = true →
    ∃ t x, exec (.stageStacks failed bad) s = .next t ∧ t.bu.result = some x ∧ (x.state = .done ∨ x.state = .fatal ∧ x.cause = 2) ∧
      (∀ u ∈ bad, u ∈ t.store.badStacks) ∧ (∀ c ∈ failed, c ∈ t.store.badChannels) ∧
      (x.state = .done → ∀ n < 1024, physStack t n ∉ t.store.badStacks ∧ ∀ c < 32, (physStack t n, physChan (getStack t n) c) ∉ t.store.badChannels) ∧
      HostSame s t ∧ OnlyChanges [.bu, .store, .near, .host, .xing] s t) ∧
  (∀ s : State, working s 5 = true →
    ∃ t, exec (.stageFill [] []) s = .next t ∧ t.mem = [] ∧ t.knots = [] ∧ t.cap.committed = 0 ∧ t.cap.cur = false ∧ t.caches = [] ∧
      t.near.poisoned = [] ∧ t.bu.result = some { state := .done, code := 0, cause := 0 } ∧
      OnlyChanges [.bu, .mem, .knots, .caches, .mesh, .near, .cap] s t) ∧
  ∀ (rows : List (Nat × Nat × Nat × Nat)) (failed : List (Nat × Nat)) (s : State), working s 5 = true →
    ∃ t x, exec (.stageFill rows failed) s = .next t ∧ t.bu.result = some x ∧ (x.state = .done ∨ x.state = .fatal ∧ x.cause = 2) ∧
      t.knots = [] ∧ t.cap.committed = 0 ∧ t.cap.cur = false ∧ t.caches = []

/-- The broadcast, the cadence, the links and ready: a round after which no tile lacks a chunk ends stage 7; tiles that report nothing in the first round lack
every chunk and go into the second; the next round sends a chunk that 16 tiles or more lack by multicast, any other by unicast to each tile that lacks it; a
tile that four rounds have not loaded is bad. Stage 8 ends DONE in LOCKED or INTERNAL, and FAILED with NO_CADENCE at its time limit with SRC 00 and no LOCKED;
stage 10 sets STALL_EN and clears EVER_OFF. STAGE_COMPLETE shows a stage's outcome in BU_STATUS, with the degraded code where a bit of DEGRADE stands;
stage 0's is that of its self-tests; stage 1 ends once a released port serves; stage 9 ends once every expected port has come to rest. -/
def Claim.LaterStagesEnd : Prop :=
  (∀ s : State, working s 7 = true → s.bu.round ≠ 0 →
    ∃ t, exec (.broadcastRound [] [] []) s = .next t ∧ t.bu.lacks = [] ∧ t.bu.round = s.bu.round + 1 ∧
      t.bu.result = some { state := .done, code := 0, cause := 0 } ∧ OnlyChanges [.bu] s t) ∧
  (∀ (u : Nat) (s : State), working s 7 = true → s.bu.round = 1 → u ∈ goodTiles s → 0 < s.bu.chunks →
    ∃ t, exec (.broadcastRound [] [u] []) s = .next t ∧ t.bu.round = 2 ∧ t.bu.result = none ∧
      (u, List.range s.bu.chunks) ∈ t.bu.lacks ∧ (∀ x ∈ t.bu.lacks, x = (u, List.range s.bu.chunks)) ∧ OnlyChanges [.bu] s t) ∧
  (∀ (lacking : List (Nat × List Nat)) (silent mismatch : List Nat) (s : State), working s 7 = true → 0 < s.bu.round → s.bu.round < 4 →
    ∃ t, exec (.broadcastRound lacking silent mismatch) s = .next t ∧ t.bu.round = s.bu.round + 1 ∧
      (∀ c, c ∈ t.bu.multicast ↔ c < s.bu.chunks ∧ 16 ≤ (t.bu.lacks.filter fun x => x.2.contains c).length) ∧
      (∀ x ∈ t.bu.unicast, ∃ y ∈ t.bu.lacks, y.1 = x.1 ∧ ∀ c, c ∈ x.2 ↔ c ∈ y.2 ∧ c ∉ t.bu.multicast) ∧ OnlyChanges [.bu] s t) ∧
  (∀ (u : Nat) (l : List Nat) (s : State), working s 7 = true → s.bu.round = 4 → 0 < s.bu.chunks → (u, l) ∈ s.bu.lacks →
    ∃ t, exec (.broadcastRound [] [u] []) s = .next t ∧ u ∈ t.store.badTiles ∧ t.bu.result = some { state := .done, code := 0, cause := 0 }) ∧
  (∀ s : State, working s 8 = true →
    (s.cad.state = .locked ∨ s.cad.state = .internal →
      exec .stageCadence s = .next { s with bu := { s.bu with result := some { state := .done, code := 0, cause := 0 } } }) ∧
    (s.cad.state ≠ .locked → s.cad.state ≠ .internal → exec .stageCadence s = .next s) ∧
    (s.cad.src = 0 → s.cad.state ≠ .locked →
      exec .cadenceStageTimeout s = .next { s with bu := { s.bu with result := some { state := .failed, code := Status.noCadence, cause := 0 } } }) ∧
    (s.cad.src ≠ 0 ∨ s.cad.state = .locked → exec .cadenceStageTimeout s = .next s)) ∧
  (∀ s : State, working s 10 = true →
    exec .stageReady s = .next { s with watch := { s.watch with stallEn := true, everOff := false },
                                        bu := { s.bu with result := some { state := .done, code := 0, cause := 0 } } }) ∧
  (∀ (ms : Nat) (north south : Bool) (r : StageEnd) (s : State), s.bu.state = .running → s.rel.ccFailed = false → s.bu.result = some r →
    3 ≤ s.bu.stage → s.bu.stage ≠ 9 →
    exec (.stageComplete ms north south) s = .next { s with bu := { s.bu with
      state := r.state, cause := r.cause, elapsed := min ms (2 ^ 24 - 1), result := none
      loaded := s.bu.loaded || (s.bu.stage == 3 && r.cause != 1)
      code := if r.state = .done then (if s.bu.degraded then Status.buDegraded else 0) else r.code } }) ∧
  (∀ (ms : Nat) (north south : Bool) (s : State), s.bu.state = .running → s.rel.ccFailed = false → s.bu.stage = 0 →
    ∃ t, exec (.stageComplete ms north south) s = .next t ∧ (north = false → south = false → t.bu.state = .failed) ∧
      (north = true ∨ south = true → t.rel.southActive = !north ∧ t.rel.standby = (north && south) ∧ t.bu.state ≠ .failed) ∧
      OnlyChanges [.bu, .rel] s t) ∧
  (∀ (ms : Nat) (north south : Bool) (s : State), s.bu.state = .running → s.rel.ccFailed = false → s.bu.stage = 1 →
    ((∀ x ∈ s.host.ports, x.2.perst = true) → exec (.stageComplete ms north south) s = .next s) ∧
    ((∃ x ∈ s.host.ports, x.2.perst = false) → ∃ t, exec (.stageComplete ms north south) s = .next t ∧ t.bu.state = .done ∧ (∀ n, (getPcie s n).perst = false → (lookup n s.host.ports).isSome = true →
      (getPcie t n).trained = true) ∧ OnlyChanges [.bu, .host] s t)) ∧
  ∀ (ms : Nat) (north south : Bool) (r : StageEnd) (s : State), s.bu.state = .running → s.rel.ccFailed = false → s.bu.stage = 9 → s.bu.result = some r → r.state = .done →
    ((∃ n < 24, portSettled s n = false) → exec (.stageComplete ms north south) s = .next s) ∧
    ((∀ n < 24, portSettled s n = true) → ∃ t, exec (.stageComplete ms north south) s = .next t ∧ t.bu.state = .done ∧
      ((∃ n < 24, (planOf s n).expected = true ∧ (getPort s n).state ≠ .active) → t.bu.port = true) ∧ OnlyChanges [.bu] s t)

/-! ### Capstans and the update (chapter 11) -/

/-- A contribution that reaches its capstan (R315): for a step at or below COMMITTED it is dropped and STALE is set; for a later step, while the outcome window
of a commit stands, or while the capstan's rim stack is quiesced (R301), it is held; out of the entry's range, RANGE and CONTRIB_RANGE; to a segment that is
final, OVER and CONTRIB_OVER; none of these changes a sum. A contribution lost at a full or closed crossing or a mesh hop is never counted; a hop whose word
comes intact at a retry delivers it; one that is not on the mesh, or not in turn there, does nothing. -/
def Claim.ContributionsOutOfPlaceAddNothing : Prop :=
  (∀ (c : Contribution) (tag : Nat × Nat) (src : Source) (s s₀ : State), meshTake (.contrib (0, 0) c) s = some ((src, .contrib tag c), s₀) →
    xingClosed s 10 8 = false →
    let e := getEntry s c.entry
    let o := openStep s
    let quiet := e.valid && rimQuiet s e.cap
    let who := senderOf s₀ src c.step
    (c.step.toNat < o.toNat → ∃ u, exec (.contribution c .ok) s = .next (pumpAll u) ∧ (getEntry u c.entry).dyn = { e.dyn with stale := true } ∧
      OnlyChanges [.mesh, .cap] s u) ∧
    (o.toNat < c.step.toNat ∨ (c.step = o ∧ (windowHolds s = true ∨ quiet = true)) →
      exec (.contribution c .ok) s = .next (pumpAll { s₀ with cap := { s.cap with held := s.cap.held ++ [(tag, c)] } })) ∧
    (c.step = o → windowHolds s = false → quiet = false → e.valid = false ∨ e.rows ≤ c.row ∨ e.cols ≤ 128 * c.seg →
      ∃ u, exec (.contribution c .ok) s = .next (pumpAll u) ∧ (getEntry u c.entry).dyn = { e.dyn with range := true } ∧ Raises Ev.contribRange s u ∧
        HostSame s u ∧ OnlyChanges [.mesh, .cap, .host, .xing, .store] s u) ∧
    (c.step = o → windowHolds s = false → quiet = false → e.valid = true → c.row < e.rows → 128 * c.seg < e.cols → segFinal e c.row c.seg = true →
      ∃ u, exec (.contribution c .ok) s = .next (pumpAll u) ∧ (getEntry u c.entry).dyn = { e.dyn with overs := true } ∧ Raises Ev.contribOver s u ∧
        HostSame s u ∧ OnlyChanges [.mesh, .cap, .host, .xing, .store] s u) ∧
    (∀ a b, exec (.contribution c (.overrun a b)) s =
      .next (pumpAll (losePacket 16 (src, .contrib tag c) (xingRecordFor who.1 who.2.1 who.2.2 a b false s₀)))) ∧
    ∀ t w, let r := parityMeets (.hop t) w who.1 who.2.1 who.2.2 s₀
      exec (.contribution c (.hop t w)) s = .next (pumpAll (if r.1 then losePacket 1 (src, .contrib tag c) r.2 else takeContribution tag c r.2))) ∧
  (∀ (c : Contribution) (tag : Nat × Nat) (src : Source) (t : Transit) (s s₀ : State), meshTake (.contrib (0, 0) c) s = some ((src, .contrib tag c), s₀) →
    xingClosed s 10 8 = true → exec (.contribution c t) s = .next (pumpAll (losePacket 15 (src, .contrib tag c) s₀))) ∧
  ∀ (c : Contribution) (t : Transit) (s : State), meshTake (.contrib (0, 0) c) s = none → exec (.contribution c t) s = .next s

/-- A contribution of the open step to a segment that is not final: the segment's count rises by one, its source is the first contribution's, a second
source sets ORDER, and the momentum words of that segment in the alternate bank, and no other byte, change: the first contribution sets each to its
element in FP32, a later one adds it. -/
def Claim.ContributionIsAccumulated : Prop :=
  ∀ (c : Contribution) (tag : Nat × Nat) (src : Source) (s s₀ : State), meshTake (.contrib (0, 0) c) s = some ((src, .contrib tag c), s₀) →
    xingClosed s 10 8 = false → c.step = openStep s → windowHolds s = false →
    let e := getEntry s c.entry
    let k := segNo c.row c.seg
    rimQuiet s e.cap = false → e.valid = true → c.row < e.rows → 128 * c.seg < e.cols → segFinal e c.row c.seg = false →
    ∃ t, exec (.contribution c .ok) s = .next (pumpAll t) ∧ lookupD 0 k (getEntry t c.entry).counts = lookupD 0 k e.counts + 1 ∧
      lookup k (getEntry t c.entry).sources = some (lookupD c.src k e.sources) ∧
      (getEntry t c.entry).dyn.order = (e.dyn.order || (lookupD c.src k e.sources != c.src)) ∧
      (∀ x, (∀ i ∈ segCols e c.seg, ∀ b < 4, memKey s x ≠ memKey s (e.mAddr (altBank s) c.row i + b)) → readByte t x = readByte s x) ∧
      (Inv s → ∀ i ∈ segCols e c.seg,
        let x := r32 (bf16.decode (c.data.getD (i - 128 * c.seg) 0).toNat)
        let a := e.mAddr (altBank s) c.row i
        rd32 t a = if lookupD 0 k e.counts = 0 then x else add32 (rd32 s a) x) ∧
      (∀ n, n ≠ c.entry → getEntry t n = getEntry s n) ∧ HostSame s t ∧ OnlyChanges [.mesh, .cap, .mem, .host, .xing, .store] s t

/-- NORM_PASS, once every entry is final, enters this member's P into the reduction and sends it to every other member; before, and once P is in, it does
nothing. -/
def Claim.NormPassEntersP : Prop :=
  ∀ (a : Armed) (s : State), s.cap.armed = some a →
    let self := armedSelf s a
    let ready := lookup self a.p = none ∧ (validEntries s).all (fun x => entryFinal x.2) = true
    (ready → ∃ t, exec .normPass s = .next t ∧ t.cap = { s.cap with armed := some { a with p := upsert self (normP s a.groups) a.p } } ∧
      (a.members ≤ 1 → self = 0 → OnlyChanges [.cap] s t) ∧ HostSame s t ∧ OnlyChanges [.cap, .ports, .host, .xing, .store] s t) ∧
    (¬ready → exec .normPass s = .next s)

/-- NORM_REDUCTION, once every member's P is held, forms T in member order and, in FP64 with each operation rounded, G = |u| √T and
c64 = min(1, τ / (G + ε)), which c32 rounds to FP32; without CLIP_EN, or with a T that is not finite, c32 is 1.0. VETO_EN with a T that is not finite
vetoes the step. Nothing else changes; without every P nothing does. -/
def Claim.ReductionFormsNorm : Prop :=
  ∀ (a : Armed) (s : State), s.cap.norm = none → s.cap.armed = some a →
    let t := tree 0 add64 ((List.range a.members).map fun m => lookupD 0 m a.p)
    let g := mul64 (r64 (v32 a.u).abs) (sqrt64 t)
    let q := div64 (r64 (v32 a.tau)) (add64 g (r64 (v32 a.eps)))
    let one : W64 := 0x3FF0000000000000
    (haveAllP a = true → a.normDone = false →
      exec .normReduction s = .next { s with cap := { s.cap with armed := some { a with
        t := some t, g := g, normDone := true, vetoed := a.veto && !isFin64 t
        c32 := if a.clip = true ∧ isFin64 t = true then r32 (v64 (if lt64 q one then q else one)) else 0x3F800000 } } }) ∧
    (haveAllP a = false ∨ a.normDone = true → exec .normReduction s = .next s)

/-- APPLY_PASS of a capstan that may apply takes the next item of its pass: of the first of the capstan's entries that has one, the skip of a settled
frozen entry, or its first square in row-major order that is final and not applied. A square waits while a running play reads the half that it would
write, the crossing to the near tier is closed, or its channel serves nothing; else it is applied, alone, and the entry is applied when all its squares are. A
unit that its read finds corrected or bad is counted, repaired or rebuilt first; a bad one of the alternate bank that the capstan has not confirmed stops the
capstan for the step. A lane that fails once is recorded and reissued; one that fails twice writes nothing and fails the capstan; a failing burst is retried. -/
def Claim.ApplyPassAppliesEntries : Prop :=
  (∀ (k : Nat) (l : LaneFault) (rim : Option RimUnit) (a : Armed) (s : State), s.cap.armed = some a → applyReady s a k = true →
    let s₁ := rimReads k (rim.map fun u => { u with member := k % 8 }) s
    let u := unitOf 3 (getCapstan s₁ k).die
    (passItem a k s = none → exec (.applyPass k l rim) s = .next s) ∧
    (∀ n, passItem a k s = some (.skip n) → exec (.applyPass k l rim) s = .next (skipEntry n s)) ∧
    (∀ n q, passItem a k s = some (.square n q) →
      let waits := copyHeld s || xingClosed s 10 9 || squareWaits s (altBank s) (getEntry s n) q
      let x := ((getEntry s₁ n).squareElems q).headD (0, 0)
      (waits = true → exec (.applyPass k l rim) s = .next s) ∧
      (waits = false → applyReady s₁ a k = false → exec (.applyPass k l rim) s = .next s₁) ∧
      (waits = false → applyReady s₁ a k = true →
        (l = .none → exec (.applyPass k l rim) s = .next (applySquare a n q s₁)) ∧
        (l = .once → exec (.applyPass k l rim) s = .next (applySquare a n q (laneResidue u (BitVec.ofNat 32 k) a.origin 0 a.step true s₁))) ∧
        (l = .twice → exec (.applyPass k l rim) s = .next (failCapstan k (laneResidue u (BitVec.ofNat 32 k) a.origin 0 a.step false s₁))) ∧
        ∀ w, l = .parity w → let s₂ := (parityMeets (.rim ((getEntry s₁ n).wAddr (!altBank s₁) x.1 x.2)) w a.origin 0 a.step s₁).2
          exec (.applyPass k l rim) s = .next (if applyReady s₂ a k then applySquare a n q s₂ else s₂)))) ∧
  (∀ (k : Nat) (u : RimUnit) (s : State), u.member = k % 8 → u.read = .bad → unitBank u.unit = altBank s → unconfirmed s k = true →
    ∀ a, applyReady (rimReads k (some u) s) a k = false) ∧
  (∀ (k : Nat) (l : LaneFault) (rim : Option RimUnit) (s : State), (∀ a, s.cap.armed = some a → applyReady s a k = false) →
    exec (.applyPass k l rim) s = .next s) ∧
  (∀ (a : Armed) (k n q : Nat) (s : State), passItem a k s = some (.square n q) →
    ∃ e before after, entriesOf s k = before ++ (n, e) :: after ∧ (∀ x ∈ before, entryItem a x.1 x.2 = none) ∧ e.applied = false ∧ skipped a e = false ∧ q < e.squareCount ∧ q ∉ e.squares ∧ squareFinal e q = true ∧
      ∀ r < q, r ∈ e.squares ∨ squareFinal e r = false) ∧
  (∀ (a : Armed) (n q : Nat) (s : State),
    let e := getEntry s n
    let t := applySquare a n q s
    (getEntry t n).squares = q :: e.squares ∧ (getEntry t n).applied = (e.squares.length + 1 == e.squareCount) ∧
      (∀ m, m ≠ n → getEntry t m = getEntry s m) ∧ t.cap.cur = s.cap.cur ∧ t.cap.committed = s.cap.committed ∧ t.cap.armed = s.cap.armed ∧ HostSame s t ∧
      OnlyChanges [.cap, .mem, .host, .watch, .near, .xing, .store] s t) ∧
  ∀ (n : Nat) (s : State), (getEntry (skipEntry n s) n).applied = true ∧ (getEntry (skipEntry n s) n).dyn.wsq = (getEntry s n).snap.wsq ∧
    (∀ m, m ≠ n → getEntry (skipEntry n s) m = getEntry s m) ∧ OnlyChanges [.cap] s (skipEntry n s)

/-- The apply of a trainable entry within its bank (R322), for any elements of it, such as those of a square: each one's new momentum and weight in the
alternate bank are the pseudocode's, formed from the sum there and from the momentum and weight of the current bank (a sum of an entry with
EXPECT 0 counts as 0); WSQ and USQ gather the exact squares of the new weights and of their FP64 differences; no byte but these elements' words in the
alternate bank changes. The squares of an entry part its elements, and a square is applied so, before its working copy is written from the result. -/
def Claim.ApplyFollowsPseudocode : Prop :=
  (∀ (g : Group) (u c32 : W32) (e : Ledger) (alt : Bool) (l : List (Nat × Nat)) (s : State), Inv s → e.cap < 32 → e.sbase + e.units ≤ bankUnits →
    l.Nodup → (∀ p ∈ l, p.1 < e.rows ∧ p.2 < e.cols) →
    let uc := mul32 u c32
    let ob := sub32 0x3F800000 g.beta
    let d := sub32 0x3F800000 (mul32 g.eta g.lambda)
    let ne := g.eta ^^^ 0x80000000
    let sum (o i : Nat) : W32 := if e.expect = 0 then 0 else rd32 s (e.mAddr alt o i)
    let wc (o i : Nat) : W32 := rd32 s (e.wAddr (!alt) o i)
    let t1 (o i : Nat) : W32 := mul32 ob (mul32 uc (sum o i))
    let mn (o i : Nat) : W32 := fma32 g.beta (rd32 s (e.mAddr (!alt) o i)) (t1 o i)
    let mx (o i : Nat) : W32 := if g.nesterov then fma32 g.beta (mn o i) (t1 o i) else mn o i
    let wn (o i : Nat) : W32 := fma32 ne (mx o i) (mul32 (wc o i) d)
    let dl (o i : Nat) : FVal := v64 (r64 ((v32 (wn o i)).sub (v32 (wc o i))))
    let r := applyTrained (applyK g u c32) alt l e s
    (∀ p ∈ l, rd32 r.2 (e.mAddr alt p.1 p.2) = mn p.1 p.2 ∧ rd32 r.2 (e.wAddr alt p.1 p.2) = wn p.1 p.2) ∧
    r.1.dyn.wsq = l.foldl (fun x p => x.add ((v32 (wn p.1 p.2)).mul (v32 (wn p.1 p.2)))) e.dyn.wsq ∧
    r.1.dyn.usq = l.foldl (fun x p => x.add ((dl p.1 p.2).mul (dl p.1 p.2))) e.dyn.usq ∧
    (∀ x, (∀ p ∈ l, (x < e.mAddr alt p.1 p.2 ∨ e.mAddr alt p.1 p.2 + 4 ≤ x) ∧ (x < e.wAddr alt p.1 p.2 ∨ e.wAddr alt p.1 p.2 + 4 ≤ x)) →
      readByte r.2 x = readByte s x) ∧ OnlyChanges [.mem] s r.2) ∧
  (∀ (e : Ledger) (q : Nat), (e.squareElems q).Nodup ∧ ∀ p ∈ e.squareElems q, p.1 < e.rows ∧ p.2 < e.cols) ∧
  (∀ (e : Ledger) (o i : Nat), o < e.rows → i < e.cols → (e.vector = true → e.rows = 1) →
    ∃ q < e.squareCount, (o, i) ∈ e.squareElems q ∧ ∀ r < e.squareCount, (o, i) ∈ e.squareElems r → r = q) ∧
  ∀ (a : Armed) (n q : Nat) (s : State),
    let e := getEntry s n
    let r := applyTrained (applyK (groupIn a e) a.u a.c32) (altBank s) (e.squareElems q) e s
    (groupIn a e).freeze = false →
      applySquare a n q s = writeSquare r.1 (altBank s) (if altBank s then halfOf r.2 r.1 else 0) a.step q
        (setEntry n { r.1 with squares := q :: r.1.squares, applied := r.1.squares.length + 1 == r.1.squareCount } r.2)

/-- CAPSTAN_CONFIRM: with every entry of the parity group applied and its rim stacks serving, the capstan confirms once, having written the alternate-bank parity rows
it holds; nothing but memory and the armed commit changes from there. A unit that its reads find corrected or bad is counted, repaired or rebuilt first, and one of
the alternate bank that cannot be read stops its capstan for the step, with no confirmation; before all that, and after it, the command does nothing. -/
def Claim.CapstanConfirms : Prop :=
  ∀ (k : Nat) (rim : Option RimUnit) (a : Armed) (s : State), s.cap.armed = some a →
    let may (s : State) := k < 32 ∧ a.vetoed = false ∧ k ∉ a.confirmed ∧ (getCapstan s k).lost = false ∧ (getCapstan s k).rebuilding = false ∧
      capHalted s k = false ∧ ∀ j < 8, (getCapstan s (k / 8 * 8 + j)).lost = false ∧ rimQuiet s (k / 8 * 8 + j) = false ∧
        ∀ x ∈ entriesOf s (k / 8 * 8 + j), x.2.applied = true
    let s₁ := rimReads k rim s
    (may s → may s₁ → ∃ t, exec (.capstanConfirm k rim) s = .next t ∧ t.cap = { s₁.cap with armed := some { a with confirmed := k :: a.confirmed } } ∧
      t.mem = (parityPass (heldParity k (altBank s₁)) s₁).mem ∧ OnlyChanges [.cap, .mem] s₁ t) ∧
    (rim = none → s₁ = s) ∧
    (may s → ¬may s₁ → exec (.capstanConfirm k rim) s = .next s₁) ∧
    (∀ u, rim = some u → u.read = .bad → unitBank u.unit = altBank s → u.member < 8 → unconfirmed s (k / 8 * 8 + u.member) = true → ¬may s₁) ∧
    (¬may s → exec (.capstanConfirm k rim) s = .next s)

/-- READY goes out, once, when all 32 capstans have confirmed or the step is vetoed, and none has lost its sums; at the cutoff CP − W beats the module votes,
once: COMMIT exactly when it holds READY from every member, its step is not FAULTED and no capstan has lost its sums. Both are recorded here and sent
to every other member; a control complex that has failed does neither. -/
def Claim.ReadyAndVote : Prop :=
  (∀ (a : Armed) (s : State), s.cap.armed = some a →
    let may := s.rel.ccFailed = false ∧ a.readySent = false ∧ (a.vetoed = true ∨ a.confirmed.length = 32) ∧ capLost s = false
    (may → ∃ t b, exec .readySend s = .next t ∧ t.cap = { s.cap with armed := some b } ∧ b.readySent = true ∧ armedSelf s a ∈ b.ready ∧
      b.voted = a.voted ∧ b.confirmed = a.confirmed ∧ HostSame s t ∧ OnlyChanges [.cap, .ports, .host, .xing, .store] s t) ∧
    (¬may → exec .readySend s = .next s)) ∧
  (∀ (a : Armed) (s : State), s.cap.armed = some a → s.rel.ccFailed = false → a.voted = none → (a.cp - beats a.w).toNat ≤ s.cad.ct.toNat →
    ∃ t b v, exec .commitVote s = .next t ∧ t.cap = { s.cap with armed := some b } ∧ b.voted = some v ∧
      (v = true ↔ (∀ m < a.members, m ∈ a.ready) ∧ s.cap.stepFaulted = false ∧ capLost s = false) ∧
      (v = true → armedSelf s a ∈ b.votes) ∧ (v = false → armedSelf s a ∈ b.abortVotes ∧ b.votes = a.votes) ∧ HostSame s t ∧
      OnlyChanges [.cap, .ports, .host, .xing, .store] s t) ∧
  ∀ (a : Armed) (s : State), s.cap.armed = some a →
    s.rel.ccFailed = true ∨ a.voted ≠ none ∨ (s.cad.ct.toNat < (a.cp - beats a.w).toNat ∧ (ctRuns s = false ∨ lastCt s.cad < (a.cp - beats a.w).toNat)) →
    exec .commitVote s = .next s

/-- At CP, in its turn among the events, a module that holds COMMIT votes of every member commits: COMMITTED becomes the step, CUR inverts (not in a veto),
OUTCOME is 0 (1 in a veto), REPLAYS 0, WATCH_CLIP takes the step and c32, and the outcome window opens. Where no earlier window stands and no
COMMIT_ARM of the next step waits, no step is armed then, and memory, knots and plays are as they were. Before CP, or with a power event to come
first, COMMIT does nothing. -/
def Claim.CommitWithAllVotes : Prop :=
  (∀ (a : Armed) (s : State), s.rel.ccFailed = false → s.cap.armed = some a → a.cp.toNat ≤ s.cad.ct.toNat → inTurn (a.cp.toNat, 1, a.tag) s = true →
    (∀ m < a.members, m ∈ a.votes) →
    ∃ t, exec .commit s = .next t ∧ t.cap.committed = a.step ∧ t.cap.cur = (if a.vetoed then s.cap.cur else !s.cap.cur) ∧
      t.cap.outcome = (if a.vetoed then 1 else 0) ∧ t.cap.replays = 0 ∧ (∃ w, t.cap.window = some w ∧ w.committed = true ∧ w.armed.step = a.step) ∧
      t.watch.clip = BitVec.ofNat 64 (a.step.toNat * 2 ^ 32 + a.c32.toNat) ∧
      (s.cap.window = none → (∀ l ∈ s.cap.log, l.packet.opc = 0x0404 → l.step = a.step) →
        t.cap.armed = none ∧ t.mem = s.mem ∧ t.knots = s.knots ∧ t.plays = s.plays)) ∧
  ∀ (a : Armed) (s : State), s.cap.armed = some a →
    s.rel.ccFailed = true ∨ inTurn (a.cp.toNat, 1, a.tag) s = false ∨
      (s.cad.ct.toNat < a.cp.toNat ∧ (ctRuns s = false ∨ lastCt s.cad < a.cp.toNat)) → exec .commit s = .next s

/-- At CP a module that lacks a vote aborts: CUR and COMMITTED do not change, OUTCOME is 2. -/
def Claim.CommitWithoutVotesAborts : Prop :=
  ∀ (a : Armed) (s : State), s.rel.ccFailed = false → s.cap.armed = some a → a.cp.toNat ≤ s.cad.ct.toNat → inTurn (a.cp.toNat, 1, a.tag) s = true →
    (∃ m < a.members, m ∉ a.votes) →
    ∃ t, exec .commit s = .next t ∧ t.cap.committed = s.cap.committed ∧ t.cap.cur = s.cap.cur ∧ t.cap.outcome = 2

/-- A commit retracted, on a member's ABORT outcome inside the window: COMMITTED goes back, CUR inverts back (not after a veto), WATCH_NORM and WATCH_CLIP
and every entry's snapshot return to what they were before the commit. Without that outcome, without a commit in the window, or past the window, it
does nothing. -/
def Claim.RetractionUndoesCommit : Prop :=
  ∀ (m : Nat) (w : Window) (s : State), s.cap.window = some w →
    let may := s.rel.ccFailed = false ∧ w.committed = true ∧ m ∈ w.aborts ∧ s.cad.ct.toNat ≤ windowEnd w
    (may → ∃ t, exec (.commitRetract m) s = .next t ∧ t.cap.committed = w.armed.step - 1 ∧
      t.cap.cur = (if w.armed.vetoed then s.cap.cur else !s.cap.cur) ∧ t.watch.norm = w.prevNorm ∧ t.watch.clip = w.prevClip ∧
      (∀ n, (getEntry t n).snap = (getEntry s n).prev)) ∧
    (¬may → exec (.commitRetract m) s = .next s)

/-- At CP + 64 beats COMMIT_SPLIT is raised, once, where an outcome is missing or this member's outcome was not delivered to every member; else COMMIT_SPLIT does
nothing. OUTCOME_WINDOW_CLOSE then closes the window: its step's commands leave the log, and COMMITTED and CUR stay. -/
def Claim.OutcomeWindowCloses : Prop :=
  (∀ (w : Window) (s : State), s.rel.ccFailed = false → s.cap.window = some w → windowEnd w ≤ s.cad.ct.toNat →
    let split := (∃ m < w.armed.members, m ∉ w.outcomes) ∨ w.undelivered = true ∨ ∃ x ∈ s.ports, holdsOutcome s w.armed x.2 = true
    (split → w.split = false →
      exec .commitSplit s = .next (postStep Ev.commitSplit w.armed.step [] { s with cap := { s.cap with window := some { w with split := true } } })) ∧
    (¬split ∨ w.split = true → exec .commitSplit s = .next s)) ∧
  (∀ (w : Window) (s : State), s.rel.ccFailed = false → s.cap.window = some w → windowEnd w ≤ s.cad.ct.toNat →
    ∃ t, exec .outcomeWindowClose s = .next t ∧ t.cap.window = none ∧ (∀ l ∈ t.cap.log, l ∈ s.cap.log ∧ t.cap.committed.toNat < l.step.toNat) ∧
      t.cap.committed = s.cap.committed ∧ t.cap.cur = s.cap.cur) ∧
  ∀ s : State, s.cap.window = none → exec .commitSplit s = .next s ∧ exec .outcomeWindowClose s = .next s

/-- A control packet from another member leaves its receive buffer, in its turn in its flow: one of the armed step is recorded once; an outcome of the window's step
joins the window; a packet of a step above COMMITTED that is not armed here is kept (assumption 74). Over a closed crossing, a full one, or a mesh hop that
does not deliver it, it is lost, and out of turn it stays. -/
def Claim.ControlPacketsAreRecorded : Prop :=
  let open_ (s : State) := xingClosed s 11 8 = false ∧ xingClosed s 8 12 = false
  let comes (c : Control) (s : State) := ∃ s₀, freeRx (controlHeader c) s = some s₀
  (∀ (m : Nat) (a : Armed) (s : State), open_ s → s.cap.armed = some a →
    (comes (.ready m a.step) s → ∃ t b, exec (.controlPacket (.ready m a.step) .ok) s = .next t ∧ t.cap = { s.cap with armed := some b } ∧ m ∈ b.ready ∧
      b.votes = a.votes ∧ OnlyChanges [.cap, .ports] s t) ∧
    (∀ v, comes (.vote m a.step v) s → ∃ t b, exec (.controlPacket (.vote m a.step v) .ok) s = .next t ∧ t.cap = { s.cap with armed := some b } ∧
      (v = true → m ∈ b.votes) ∧ (v = false → m ∈ b.abortVotes ∧ b.votes = a.votes) ∧ OnlyChanges [.cap, .ports] s t) ∧
    (∀ x, comes (.normP m a.step x) s → s.cap.norm = none → ∃ t, exec (.controlPacket (.normP m a.step x) .ok) s = .next t ∧
      t.cap = { s.cap with armed := some { a with p := upsert m x a.p } } ∧ OnlyChanges [.cap, .ports] s t)) ∧
  (∀ (m : Nat) (v : Bool) (w : Window) (s : State), open_ s → s.cap.window = some w → comes (.outcome m w.armed.step v) s →
    ∃ t u, exec (.controlPacket (.outcome m w.armed.step v) .ok) s = .next t ∧ t.cap = { s.cap with window := some u } ∧
      m ∈ u.outcomes ∧ (v = false → m ∈ u.aborts) ∧ OnlyChanges [.cap, .ports] s t) ∧
  (∀ (m : Nat) (t : W32) (s : State), open_ s → s.cap.armed = none → s.cap.committed.toNat < t.toNat → comes (.ready m t) s →
    ∃ u, exec (.controlPacket (.ready m t) .ok) s = .next u ∧ u.cap = { s.cap with early := s.cap.early ++ [.ready m t] } ∧ OnlyChanges [.cap, .ports] s u) ∧
  (∀ (c : Control) (x : Transit) (s s₀ : State), freeRx (controlHeader c) s = some s₀ →
    (¬open_ s → exec (.controlPacket c x) s = .next s₀) ∧
    (open_ s → (∀ a b, exec (.controlPacket c (.overrun a b)) s = .next (xingRecord a b false s₀)) ∧
      ∀ tile w, let r := parityMeets (.hop tile) w 3 0 ((controlStep c).getD 0) s₀
        exec (.controlPacket c (.hop tile w)) s = .next (if r.1 then r.2 else takeControl c r.2))) ∧
  ∀ (c : Control) (x : Transit) (s : State), freeRx (controlHeader c) s = none → exec (.controlPacket c x) s = .next s

/-- A capstan that fails, with a spare die left: its index moves to the spare, which rebuilds; its old die is recorded as bad with a record of class 10, and its
knots start at 0. REBUILD_COMPLETE ends the rebuild, with its record, clears SETTLED of the capstan's entries, and reads of the stripe that waited go on. With no
spare the index is failed, CAP_DEGRADED is raised and recorded. Before stage 6 is DONE no heartbeat is missed; a capstan that is failed already, or halted by the debug unit, is left alone. -/
def Claim.CapstanFailureTakesSpare : Prop :=
  (∀ (k : Nat) (s : State), k < 32 → stageDone s 6 = true → (getCapstan s k).failed = false → capHalted s k = false →
    let spares := spareDice { s with store := { s.store with badDice := (getCapstan s k).die :: s.store.badDice } }
    ∃ t, exec (.capstanFail k) s = .next t ∧ t.store.badDice = (getCapstan s k).die :: s.store.badDice ∧ (∀ n < 128, knot t (capKnot k n) = 0) ∧
      t.cap.cur = s.cap.cur ∧ t.cap.committed = s.cap.committed ∧ Records 10 s t ∧ (∀ n, (getEntry t n).cap = k → (getEntry t n).snap.settled = false) ∧
      (∀ d l, spares = d :: l → (getCapstan t k).die = d ∧ (getCapstan t k).rebuilding = true) ∧
      (spares = [] → (getCapstan t k).failed = true ∧ (getCapstan t k).rebuilding = false ∧ Raises Ev.capDegraded s t) ∧
      OnlyChanges [.cap, .knots, .host, .xing, .freeCtr, .store, .rel, .mem] s t) ∧
  (∀ (k : Nat) (s : State), 32 ≤ k ∨ stageDone s 6 = false ∨ (getCapstan s k).failed = true ∨ capHalted s k = true → exec (.capstanFail k) s = .next s) ∧
  ∀ (k : Nat) (s : State),
    ((getCapstan s k).rebuilding = true → ∃ t, exec (.rebuildComplete k) s = .next (pumpAll t) ∧ (getCapstan t k).rebuilding = false ∧
      (∀ n, (getEntry t n).cap = k → (getEntry t n).snap.settled = false) ∧ Records 10 s t ∧ OnlyChanges [.cap, .store] s t) ∧
    ((getCapstan s k).rebuilding = false → exec (.rebuildComplete k) s = .next s)

/-- A write of CAP_COMMIT.COMMITTED with the lock open, no step armed and no play: COMMITTED takes the value, what the open step had gathered is discarded, and the
contributions that were held are taken, with the rows that waited for them; otherwise it is ignored with LOCK_VIOLATION. -/
def Claim.CommittedWriteSetsStep : Prop :=
  ∀ (h : HostAccess) (v : W32) (s : State), PrivServed h s →
    (s.host.privOpen = true → s.cap.armed = none → s.plays = [] →
      ∃ t, exec (.committedWrite h v) s = .next (pumpAll (takeHeld t)) ∧ t.cap.committed = v ∧ t.cap.cur = s.cap.cur ∧ t.cap.replays = 0 ∧ t.cap.held = s.cap.held ∧
        (∀ n, (getEntry t n).counts = [] ∧ (getEntry t n).applied = false ∧ (getEntry t n).snap = (getEntry s n).snap) ∧ OnlyChanges [.cap] s t) ∧
    (s.host.privOpen = false ∨ s.cap.armed ≠ none ∨ s.plays ≠ [] → exec (.committedWrite h v) s = .next (lockViolation s))

/-- COMMIT_ARM (R327). Items that the rule does not accept are refused with UPD_VALUE; a step other than the open one, or a step armed already, with STEP_ORDER;
a CP − W beats that CT has reached, with COMMIT_PASSED. Else it arms the step: no reply yet, the group tables are latched (R309), and the command is
logged. -/
def Claim.CommitArmArms : Prop :=
  ∀ (p₀ : Packet) (s : State), Serves s →
    let p := { p₀ with opc := 0x0404 }
    let q := { shifted s p with tag := s.arrivals }
    let a := armOf q s.cap.groups
    let logged := logStep q s.arrivals (arrived s)
    checkPacket s p = none → fireRefusal s (shifted s p) = none →
    (armItems s a = false → exec (.commitArm p₀) s = .next (refuse q Status.updValue logged)) ∧
    (armItems s a = true → a.step ≠ openStep s ∨ s.cap.armed ≠ none → exec (.commitArm p₀) s = .next (refuse q Status.stepOrder logged)) ∧
    (armItems s a = true → a.step = openStep s → s.cap.armed = none → q.fire.toNat ≤ s.cad.ct.toNat + a.w * 65536 →
      exec (.commitArm p₀) s = .next (refuse q Status.commitPassed logged)) ∧
    (armItems s a = true → a.step = openStep s → s.cap.armed = none → s.cad.ct.toNat + a.w * 65536 < q.fire.toNat →
      ∃ t b, exec (.commitArm p₀) s = .next t ∧ t.cap.armed = some b ∧ b.step = a.step ∧ b.cp = q.fire ∧ b.groups = s.cap.groups ∧ b.members = a.members ∧
        b.u = a.u ∧ b.tau = a.tau ∧ b.eps = a.eps ∧ b.w = a.w ∧ b.confirmed = [] ∧ t.arrivals = s.arrivals + 1 ∧
        lookup a.step.toNat t.cap.latched = some s.cap.groups ∧ t.cap.log = logged.cap.log ∧ OnlyChanges [.arrivals, .cap] s t)

/-- LEDGER_SET, LEDGER_GET, GROUP_SET and STATE_LOAD, admitted. An entry with VALID = 1 that passes R307 takes the static part as R306 lays out its 128 B, its
SETTLED cleared; one that fails changes no entry and its status and index are the reply; VALID = 0 removes an entry that is not busy. No entry and no
group outside the written range changes. A STATE_LOAD of a valid entry that is not busy runs at once, under COMMITTED at its dispatch, and waits
while a play runs. LEDGER_GET writes the records of the last commit, 64 B each. Counts out of range are refused with HEADER. -/
def Claim.LedgerCommands : Prop :=
  (∀ (p : Packet) (s : State), Admitted 0x0401 p s →
    let first := item p.param 0 4
    let cnt := item p.param 4 2
    let b := sliceB p.payload 0 128
    let old := getEntry s first
    (cnt = 0 ∨ 32 < cnt ∨ 65536 < first + cnt → exec (.ledgerSet p) s = .next (refuse p Status.header (arrived s))) ∧
    (1 ≤ cnt → cnt ≤ 32 → first + cnt ≤ 65536 →
    ∃ t, exec (.ledgerSet p) s = .next t ∧ (∃ st d, Answered p st d s t) ∧ OnlyChanges [.arrivals, .cap, .host] s t ∧
      (∀ n, n < first ∨ first + cnt ≤ n → getEntry t n = getEntry s n) ∧
      (cnt = 1 → bitAt (item b 2 1) 0 = true → entryCheck s first b = none → Answered p 0 0 s t ∧
        getEntry t first = { parseEntry b with
          dyn := old.dyn, snap := { old.snap with settled := false }, prev := { old.prev with settled := false } }) ∧
      (cnt = 1 → bitAt (item b 2 1) 0 = true → ∀ st, entryCheck s first b = some st → st ≠ 0 → t.cap = s.cap ∧ Answered p st (BitVec.ofNat 64 first) s t) ∧
      (cnt = 1 → bitAt (item b 2 1) 0 = false → entryReserved b = true → entryBusy s first = false →
        t.cap = { s.cap with ledger := delKey first s.cap.ledger } ∧ Answered p 0 0 s t))) ∧
  (∀ (p : Packet) (s : State), Admitted 0x0403 p s →
    let first := item p.param 0 1
    let g := parseGroup (sliceB p.payload 0 32)
    item p.param 1 1 = 1 → first < 64 → item p.payload 12 1 ≤ 7 → (sliceB p.payload 13 19).all (· == 0) = true →
    ∃ t, exec (.groupSet p) s = .next t ∧ OnlyChanges [.arrivals, .cap, .host] s t ∧
      (∀ n, n ≠ first → lookup n t.cap.groups = lookup n s.cap.groups) ∧
      (groupOk g = true → Answered p 0 0 s t ∧ lookup first t.cap.groups = some g) ∧
      (groupOk g = false → Answered p Status.updValue 0 s t ∧ t.cap = s.cap)) ∧
  (∀ (p : Packet) (s : State), Admitted 0x0405 p s →
    let n := item p.param 0 4
    let src := item p.param 8 8
    let e := getEntry s n
    let q := { p with tag := s.cap.committed.toNat }
    n < 65536 → e.valid = true → entryBusy s n = false → spaceOf src = .near → destOk s src (8 * e.rows * e.cols) false = true →
    (loadWaits s p = false → exec (.stateLoad p) s = .next (runStateLoad q s.cap.committed (arrived s))) ∧
    (loadWaits s p = true → exec (.stateLoad p) s = .next { arrived s with cap := { s.cap with loads := s.cap.loads ++ [(q, s.cap.committed)] } }) ∧
    ((∃ y ∈ s.plays, y.state = .running) → loadWaits s p = true)) ∧
  (∀ (p : Packet) (s : State), Admitted 0x0402 p s →
    let first := item p.param 0 4
    let cnt := item p.param 4 4
    1 ≤ cnt → first + cnt ≤ 65536 → destOk s (item p.param 8 8) (64 * cnt) true = true →
    exec (.ledgerGet p) s = .next (accept p (destWrite p.origin (item p.param 8 8) ((List.range cnt).flatMap fun k =>
      match lookup (first + k) s.cap.ledger with
      | some e => dynRecord e.snap
      | none => List.replicate 64 0) (arrived s))))

/-! ### The numeric watch (chapter 12) -/

/-- TALLY_COMPARISON takes the oldest row of the field's queue, counts the comparisons that fail in MISMATCH and those that non-finite values left out in NONFIN.
The first failing row of a pass raises TALLY_MISMATCH, leaves a record of class 2 and faults its play, or, when that has ended, its open step; a
play that has failed already has the later failure in the event log only, and one that runs again since masks it already. A
later one of the pass, and a row without a failing column, only counts. With no row queued nothing happens. -/
def Claim.TallyComparisonCounts : Prop :=
  (∀ (f : Nat) (e : Option TallyFault) (s : State), (getField s f).tallies = [] → exec (.tallyComparison f e) s = .next s) ∧
  ∀ (f : Nat) (i : TallyItem) (r : List TallyItem) (e : Option TallyFault) (s : State), (getField s f).tallies = i :: r →
    let j := judge s (withFault i e)
    let fails := (j.filter fun x => x == some true).length
    let first := fails ≠ 0 ∧ i.pass ∉ (getField s f).mismatched
    let later := ∃ p, getPlay s i.order = some p ∧ p.reruns = i.run ∧ (p.faulted ≠ none ∨ p.fail ≠ none ∨ p.withheld = true)
    ∃ t, exec (.tallyComparison f e) s = .next t ∧ (getField t f).tallies = r ∧ (getField t f).mismatch = min ((getField s f).mismatch + fails) (2 ^ 32 - 1) ∧
      (getField t f).nonfin = min ((getField s f).nonfin + (j.filter fun x => x == none).length) 65535 ∧ (∀ g, g ≠ f → getField t g = getField s g) ∧
      (¬first → OnlyChanges [.fields] s t) ∧
      (first → HostSame s t ∧ OnlyChanges [.fields, .host, .xing, .store, .rel, .plays, .cap] s t ∧
        (∀ p, getPlay s i.order = some p → p.reruns = i.run → p.faulted = none → p.fail = none → p.withheld = false →
          ∃ q, getPlay t i.order = some q ∧ q.faulted = some 2) ∧
        (∀ p, getPlay s i.order = some p → p.reruns ≠ i.run → t.plays = s.plays) ∧
        (getPlay s i.order = none → s.cap.committed.toNat < i.step.toNat → t.cap.stepFaulted = true)) ∧
      (first → ¬later → Raises Ev.tallyMismatch s t ∧ Records 2 s t) ∧
      (first → later → Calm s → Records 2 s t ∧ (stageDone s 2 = true →
        ∃ x y, t.host.events = (x :: y :: s.host.events).take 65536 ∧ x.code = Ev.playFail ∧ y.code = Ev.tallyMismatch))

/-- The comparison of R347: with ĉ and s both non-finite no comparison is made, and TALLY_COMPARISON of the row adds their number to NONFIN; with one of
them non-finite it fails; with both finite it fails exactly when |ĉ − s| is above 2^−TOLX · (a + |ĉ|), each operation rounded to FP32. TOLX is
WATCH_CFG.TOLX, bits [3:0] of the register. -/
def Claim.TallyToleranceRule : Prop :=
  (∀ (tolx : Nat) (c s a : W32),
    (isFin32 c = false → isFin32 s = false → tallyFails tolx c s a = none) ∧
    (isFin32 c ≠ isFin32 s → tallyFails tolx c s a = some true) ∧
    (isFin32 c = true → isFin32 s = true → tallyFails tolx c s a =
      some (ltVal (mul32 (r32 (.fin false 1 (-(tolx : Int)))) (add32 a (c &&& 0x7FFFFFFF))) (sub32 c s &&& 0x7FFFFFFF)))) ∧
  (∀ (i : TallyItem) (s : State),
    judge s i = (i.c.zip (i.s.zip i.a)).map fun x => tallyFails (fld (regValue s 0x3C8) 0 4) x.1 x.2.1 x.2.2) ∧
  ∀ (f : Nat) (i : TallyItem) (r : List TallyItem) (e : Option TallyFault) (s : State), (getField s f).tallies = i :: r →
    ∃ t, exec (.tallyComparison f e) s = .next t ∧
      (getField t f).nonfin = min ((getField s f).nonfin + ((judge s (withFault i e)).filter fun x => x == none).length) 65535 ∧
      (getField t f).mismatch = min ((getField s f).mismatch + ((judge s (withFault i e)).filter fun x => x == some true).length) (2 ^ 32 - 1)

/-- AUDIT_SAMPLE: the audit tile is free again, the sample is counted in the field and in the slot of its SID, and a sample above the bound of
AUD_AT counts as over and raises AUDIT_DRIFT. With no sample nothing happens. -/
def Claim.AuditSampleCounts : Prop :=
  (∀ (f : Nat) (s : State), (getField s f).audit = none → exec (.auditSample f) s = .next s) ∧
  ∀ (f : Nat) (i : AuditItem) (s : State), (getField s f).audit = some i →
    let bad := auditOver s (auditRho i.n i.w)
    ∃ t, exec (.auditSample f) s = .next t ∧ (getField t f).audit = none ∧ (getField t f).sampled = min ((getField s f).sampled + 1) (2 ^ 32 - 1) ∧
      (getField t f).overs = (if bad then min ((getField s f).overs + 1) 255 else (getField s f).overs) ∧ (∀ g, g ≠ f → getField t g = getField s g) ∧
      (getSlot t (slotOf s i.sid)).audN = min ((getSlot s (slotOf s i.sid)).audN + 1) (2 ^ 32 - 1) ∧ HostSame s t ∧
      (bad = true → Raises Ev.auditDrift s t) ∧ (bad = false → t.host = s.host) ∧ OnlyChanges [.fields, .watch, .host, .xing, .store, .freeCtr] s t

/-- WATCH_SET of one slot, WATCH_GET, VEC_EVAL and the clearing of STALL_EN, admitted (or served): an acceptable record writes its slot, with its counts
at 0, and no other, and one that is not replies WATCH_VALUE and its number; WATCH_GET writes slot records of 128 B, or stall runs of 2 B. VEC_EVAL,
which changes nothing: HEADER for a target that is no tile or a capstan above 31, CLOCK_STOPPED for a closed crossing to the near tier; while channels of its
file serve nothing it waits; VEC_FORMAT for a file that is not valid, PART_BUSY for a partition in use or lent, CAP_BUSY for the apply set with a step armed or the capstan in a pass, else 0x0000 without mismatches and VEC_DIFF with their
number and the first of them. STALL_EN clears with EVER_OFF and WATCH_OFF. -/
def Claim.WatchCommands : Prop :=
  (∀ (p : Packet) (s : State), Admitted 0x0810 p s → item p.param 2 2 = 1 → item p.param 8 8 = 0 → item p.param 0 2 < 1024 →
    let n := item p.param 0 2
    let b := sliceB p.payload 0 16
    (slotOk s n b = true → ∃ t, exec (.watchSet p) s = .next t ∧ Answered p 0 0 s t ∧
      getSlot t n = { sid := BitVec.ofNat 32 (item b 0 4), sflags := BitVec.ofNat 8 (item b 4 1), satx := BitVec.ofNat 8 (item b 5 1) } ∧
      (∀ m, m ≠ n → getSlot t m = getSlot s m) ∧ OnlyChanges [.arrivals, .host, .watch] s t) ∧
    (slotOk s n b = false → exec (.watchSet p) s = .next (reply p Status.watchValue (BitVec.ofNat 64 n) (arrived s)))) ∧
  (∀ (p : Packet) (s : State), Admitted 0x0811 p s →
    let first := item p.param 4 4
    let cnt := item p.param 8 4
    let dest := item p.param 16 8
    (item p.param 0 1 = 0 → 1 ≤ cnt → first + cnt ≤ 1024 → destOk s dest (128 * cnt) true = true →
      exec (.watchGet p) s =
        .next (accept p (destWrite p.origin dest ((List.range cnt).flatMap fun k => slotRecord (getSlot s (first + k))) (arrived s)))) ∧
    (item p.param 0 1 = 1 → 1 ≤ cnt → first + cnt ≤ 65536 → destOk s dest (2 * cnt) true = true →
      exec (.watchGet p) s = .next (accept p (destWrite p.origin dest
        ((List.range cnt).flatMap fun k => toLE 2 ((lookup (first + k) s.cap.ledger).elim 0 Ledger.stall)) (arrived s))))) ∧
  (∀ (p : Packet) (s : State), Admitted 0x0812 p s →
    let a := item p.param 0 8
    let n := (vecRun s a).1
    let free := (∃ q, findPart s (tgtOrg p.tgt) 5 = some q ∧ q.busy = false) ∧ runningOn s (tgtOrg p.tgt) 5 = none ∧ isLender s (tgtOrg p.tgt) 5 = false
    let header := tgtShape p.tgt ≠ 5 ∨ 31 < item p.param 8 1
    let shut := xingClosed s 12 9 = true
    let held := vecWaits s a = true
    let capBusy := readN s (a + 6) 2 = 6 ∧ (s.cap.armed ≠ none ∨ capRuns s (item p.param 8 1) = true)
    let readable := readMeets s isRetired a (vecBytes s a) = false ∧ readMeets s isPoisoned a (vecBytes s a) = false
    (¬header → ¬shut → held → exec (.vecEval p) s = .next { arrived s with watch := { s.watch with evals := s.watch.evals ++ [p] } }) ∧
    (header ∨ shut ∨ ¬held →
    ∃ t, exec (.vecEval p) s = .next t ∧ OnlyChanges [.arrivals, .host, .xing, .store] s t ∧
      (header → Answered p Status.header 0 s t) ∧
      (¬header → shut → Answered p Status.clockStopped 0 s t) ∧
      (¬header → ¬shut → vecOk s a = false → Answered p Status.vecFormat 0 s t) ∧
      (¬header → ¬shut → vecOk s a = true → ¬free → Answered p Status.partBusy 0 s t) ∧
      (¬header → ¬shut → vecOk s a = true → free → capBusy → Answered p Status.capBusy 0 s t) ∧
      (¬header → ¬shut → vecOk s a = true → free → ¬capBusy → readable → t.store = s.store ∧
        Answered p (if n = 0 then 0 else Status.vecDiff) (if n = 0 then 0 else BitVec.ofNat 64 (n % 2 ^ 32 + (vecRun s a).2 * 2 ^ 32)) s t) ∧
      (¬header → ¬shut → vecOk s a = true → free → ¬capBusy → ¬readable → t.host.replies = s.host.replies ++ [answerOf p Status.parityFault 0 s]))) ∧
  (∀ (h : HostAccess) (s : State), PrivServed h s →
    (s.host.privOpen = true → s.watch.stallEn = true →
      exec (.stallEnClear h) s = .next (post Ev.watchOff [] { s with watch := { s.watch with stallEn := false, everOff := true } })) ∧
    (s.host.privOpen = true → s.watch.stallEn = false → exec (.stallEnClear h) s = .next s) ∧
    (s.host.privOpen = false → exec (.stallEnClear h) s = .next (lockViolation s)))

/-! ### Hawser ports (chapter 13) -/

/-- A port on its way up. EARLY_SIGNAL counts while stage 8 has not opened the links. PORT_TRAINING, from 4 ms times the port's number on, starts an EXPECTED
port in OFF with all its lanes. TRAINING_END leads to QUALIFYING or FAILED. QUALIFICATION_END records the lanes that do not pass, those with one bit error in 100,000 bits or more in
either direction, or with a codeword or flit that could not be read since: with eight or nine
passing, the port enters DISCOVERY on lanes 0 to 7, the spare in place of one that fails; with four to seven, in four-lane mode with HAW_DEGRADED;
with fewer it fails. HELLO_SEND forms the module's HELLO once per beat, or every 64 beats when ACTIVE. A DISCOVERY without a HELLO for 1024
beats fails. In any other case each of them does nothing. -/
def Claim.PortTrainingStates : Prop :=
  (∀ (n : Nat) (s : State),
    (s.bu.linkOpen = false → exec (.earlySignal n) s = .next (setPort n { getPort s n with earlySignal := min ((getPort s n).earlySignal + 1) 255 } s)) ∧
    (s.bu.linkOpen = true → exec (.earlySignal n) s = .next s)) ∧
  (∀ (n ms : Nat) (s : State),
    let due := s.bu.linkOpen = true ∧ (getPort s n).state = .off ∧ (planOf s n).expected = true ∧ 4 * n ≤ ms
    (due → ∃ t, exec (.portTraining n ms) s = .next t ∧ (getPort t n).state = .training ∧ (getPort t n).laneFail = 0 ∧
      (getPort t n).width4 = false ∧ (getPort t n).spareInUse = false ∧ (getPort t n).lanes = List.range 8 ∧
      (∀ m, m ≠ n → getPort t m = getPort s m) ∧ OnlyChanges [.ports, .cap] s t) ∧
    (¬due → exec (.portTraining n ms) s = .next s)) ∧
  (∀ (n : Nat) (ok : Bool) (s : State),
    ((getPort s n).state = .training → exec (.trainingEnd n ok) s =
      .next (setPort n { getPort s n with state := if ok then .qualifying else .failed, beats := 0, heardHello := false, qualBad := [] } s)) ∧
    ((getPort s n).state ≠ .training → exec (.trainingEnd n ok) s = .next s)) ∧
  (∀ (n : Nat) (lanes : List LaneTest) (s : State),
    let passes (l : Nat) := lanes[l]?.elim false fun x => decide (x.errors * 100000 < x.bits) && x.peer && !(getPort s n).qualBad.contains l
    let good := ((List.range 9).filter passes).length
    ((getPort s n).state = .qualifying →
      ∃ t, exec (.qualificationEnd n lanes) s = .next t ∧ (∀ l < 9, (getPort t n).laneFail.getLsbD l = !passes l) ∧
        (∀ m, m ≠ n → getPort t m = getPort s m) ∧ HostSame s t ∧ OnlyChanges [.ports, .host, .xing, .store] s t ∧
        (good < 4 → (getPort t n).state = .failed ∧ t.host = s.host) ∧
        (4 ≤ good → good < 8 → (getPort t n).state = .discovery ∧ (getPort t n).width4 = true ∧ Raises Ev.hawDegraded s t ∧
          (getPort t n).lanes.length = 4 ∧ (getPort t n).lanes.Nodup ∧ ∀ l ∈ (getPort t n).lanes, l < 9 ∧ passes l = true) ∧
        (8 ≤ good → (getPort t n).state = .discovery ∧ (getPort t n).width4 = false ∧ t.host = s.host ∧
          (getPort t n).lanes = (List.range 8).map (fun l => if passes l then l else 8) ∧
          ((getPort t n).spareInUse = true ↔ ∃ l < 8, passes l = false))) ∧
    ((getPort s n).state ≠ .qualifying → exec (.qualificationEnd n lanes) s = .next s)) ∧
  (∀ (n : Nat) (s : State),
    let p := getPort s n
    let due := p.state = .active ∧ 64 ≤ p.sinceHello ∨ (p.state = .discovery ∨ p.state = .miscabled ∨ p.state = .planMismatch) ∧ 1 ≤ p.sinceHello
    (due → exec (.helloSend n) s = .next (setPort n { p with
      sinceHello := 0
      hello := some { serial := s.store.serial, port := n, ack := p.heardHello, coord := s.store.plan.coord, planId := s.store.plan.id, echo := p.echo } } s)) ∧
    (¬due → exec (.helloSend n) s = .next s)) ∧
  (∀ (n : Nat) (s : State),
    let due := (getPort s n).state = .discovery ∧ (getPort s n).heardHello = false ∧ 1024 ≤ (getPort s n).beats
    (due → exec (.discoveryTimeout n) s = .next (setPort n { getPort s n with state := .failed, beats := 0, heardHello := false } s)) ∧
    (¬due → exec (.discoveryTimeout n) s = .next s))

/-- A HELLO on a trained port that is past qualification is judged by the rows of R389: the module's own SERIAL is MISCABLED, another PLAN_ID is PLAN_MISMATCH, a
peer that the plan does not name is MISCABLED, and a peer as the plan says makes the port ACTIVE if it echoes this module's SERIAL with ACK, else
DISCOVERY. The first two and HAW_UP on entry raise their events; a port that becomes ACTIVE starts with both sequences at 0 and the full
buffers as credit; one that leaves ACTIVE discards what it holds to send. The peer's coordinate, port and SERIAL are kept whatever the outcome. On
any other port a HELLO changes nothing. -/
def Claim.HelloDecidesPort : Prop :=
  (∀ (n : Nat) (d : FlitHead) (h : Hello) (s : State),
    (getPort s n).state = .discovery ∨ (getPort s n).state = .active ∨ (getPort s n).state = .miscabled ∨ (getPort s n).state = .planMismatch →
    let was := (getPort s n).state
    let e := planOf s n
    let own := h.serial = s.store.serial
    let plan := h.planId = s.store.plan.id
    let peer := h.coord = e.peerCoord ∧ h.port = e.peerPort ∧ (e.serialCheck = true → h.serial = e.peerSerial)
    let echoes := h.ack = true ∧ h.echo = s.store.serial
    ∃ t, exec (.hello n d h) s = .next t ∧ (getPort t n).peerCoord = h.coord ∧ (getPort t n).peerPort = h.port ∧ (getPort t n).echo = h.serial ∧
      (getPort t n).heardHello = true ∧ (∀ m, m ≠ n → getPort t m = getPort s m) ∧ HostSame s t ∧ OnlyChanges [.ports, .cap, .host, .xing, .store] s t ∧
      (own → (getPort t n).state = .miscabled ∧ (was ≠ .active → Raises Ev.hawMiscable s t)) ∧
      (¬own → ¬plan → (getPort t n).state = .planMismatch ∧ (was ≠ .active → Raises Ev.hawPlan s t)) ∧
      (¬own → plan → ¬peer → (getPort t n).state = .miscabled ∧ (was ≠ .active → Raises Ev.hawMiscable s t)) ∧
      (¬own → plan → peer → echoes → (getPort t n).state = .active ∧
        (was ≠ .active → Raises Ev.hawUp s t ∧ (getPort t n).rxNext = 0 ∧ (getPort t n).txNext = 0 ∧ (getPort t n).replay = [] ∧
          (getPort t n).credits = [(0, 8192), (1, 8192), (2, 1024), (3, 0)]) ∧
        (was = .active → (getPort t n).rxNext = (getPort s n).rxNext)) ∧
      (¬own → plan → peer → ¬echoes → (getPort t n).state = .discovery) ∧
      (was = .active → ¬(¬own ∧ plan ∧ peer ∧ echoes) → (getPort t n).replay = [] ∧ (getPort t n).sendQ = [])) ∧
  ∀ (n : Nat) (d : FlitHead) (h : Hello) (s : State),
    (getPort s n).state = .off ∨ (getPort s n).state = .training ∨ (getPort s n).state = .qualifying ∨ (getPort s n).state = .failed ∨
      (getPort s n).state = .disabled →
    ∃ t, exec (.hello n d h) s = .next t ∧ (∀ m, getPort t m = getPort s m) ∧ OnlyChanges [.ports] s t

/-- A codeword on a lane of a trained port. An intact flit acts by its FTYPE: IDLE, HELLO, NAK as the commands of those names, LANE_SWAP by its header alone (its
lane comes with the command LANE_SWAP), 5 to 7 is discarded and counted. On an ACTIVE port the DATA flit expected next is accepted; the first one that is not it, or
the codeword of its lane that cannot be read, is rejected with a NAK whose ACK is the last good flit, and after it other DATA flits are discarded; one that the full
FIFO behind the port discards is an overrun, rejected the same way. The eighth
rejection in a row asks to swap the lane with the most uncorrectable codewords of the last 1 ms to the free spare, 64 flits ahead, or brings the port
down. In QUALIFYING the lane of an unreadable codeword fails. Collective data that has come whole goes on to its slot. A port that is not trained takes nothing. -/
def Claim.FlitsAreJudged : Prop :=
  (∀ (n lane : Nat) (w : Codeword) (s : State), (getPort s n).trained = false → exec (.flitData n lane w) s = .next s) ∧
  (∀ (n lane k : Nat) (b : List Byte) (s : State), (getPort s n).trained = true → lane ≤ 8 → flitOk b = true →
    let s₁ := setPort n (countWord s lane (.flit k b) (getPort s n)) s
    let does (t : State) := exec (.flitData n lane (.flit k b)) s = .next (deliverData t)
    (flitType b = 1 ∨ flitType b = 4 → ∃ t, exec (.idleFlit n (flitHead b)) s₁ = .next t ∧ does t) ∧
    (flitType b = 2 → ∃ t, exec (.hello n (flitHead b) (parseHello (flitBody b))) s₁ = .next t ∧ does t) ∧
    (flitType b = 3 → ∃ t, exec (.nak n (flitHead b)) s₁ = .next t ∧ does t) ∧
    (5 ≤ flitType b → does (setPort n { getPort s₁ n with formatErr := (getPort s n).formatErr + 1 } s₁)) ∧
    (flitType b = 0 → (getPort s n).state ≠ .active → does s₁) ∧
    (flitType b = 0 → (getPort s n).state = .active → flitSeq b = (getPort s n).rxNext →
      ∃ t, does t ∧ (getPort t n).rxNext = (flitSeq b + 1) % 2 ^ 20 ∧ (getPort t n).nakSent = false ∧
        (getPort t n).rejects = 0 ∧ (∀ m, m ≠ n → getPort t m = getPort s m) ∧ HostSame s t ∧ OnlyChanges [.ports, .host, .xing, .store] s t) ∧
    (flitType b = 0 → (getPort s n).state = .active → flitSeq b ≠ (getPort s n).rxNext → (getPort s n).rejects + 1 < 8 →
      ∃ t, does t ∧ (getPort t n).rxNext = (getPort s n).rxNext ∧ (getPort t n).nakSent = true ∧
        ((getPort s n).nakSent = true → (getPort t n).rejects = (getPort s n).rejects ∧ (getPort t n).naks = (getPort s n).naks) ∧
        ((getPort s n).nakSent = false → (getPort t n).rejects = (getPort s n).rejects + 1 ∧
          (getPort t n).naks = min ((getPort s n).naks + 1) (2 ^ 32 - 1) ∧ (getPort t n).nakAck = ((getPort s n).rxNext + 2 ^ 20 - 1) % 2 ^ 20) ∧
        (∀ m, m ≠ n → getPort t m = getPort s m) ∧ HostSame s t ∧ OnlyChanges [.ports, .host, .xing, .store] s t)) ∧
  (∀ (n lane : Nat) (w : Codeword) (s : State), (getPort s n).trained = true → lane ≤ 8 → w = .bad ∨ (∃ k b, w = .flit k b ∧ flitOk b = false) →
    let p := getPort s n
    let s₁ := setPort n (countWord s lane w p) s
    let does (t : State) := exec (.flitData n lane w) s = .next (if w = .bad then t else deliverData t)
    let due := p.state = .active ∧ p.lanes.getD (p.rxNext % max 1 p.lanes.length) 9 = lane
    (p.state = .qualifying → does (setPort n { getPort s₁ n with qualBad := lane :: p.qualBad } s₁)) ∧
    (p.state ≠ .qualifying → ¬due → does s₁) ∧
    (due → p.rejects + 1 < 8 → does (setPort n { getPort s₁ n with
      rejects := p.rejects + 1, nakSent := true, nakAck := (p.rxNext + 2 ^ 20 - 1) % 2 ^ 20, naks := min (p.naks + 1) (2 ^ 32 - 1) } s₁)) ∧
    (due → p.rejects = 7 → spareFree p = true → (∀ l ∈ p.lanes, p.laneFail.getLsbD l = false) →
      ∃ t l, does t ∧ (getPort t n).state = .active ∧ (getPort t n).rejects = 0 ∧ l ∈ p.lanes ∧
        (∀ m ∈ p.lanes, lostIn s (getPort t n) m (10 ^ 9) ≤ lostIn s (getPort t n) l (10 ^ 9)) ∧
        (getPort t n).swap = some (p.lanes.idxOf l, 8, (p.rxNext + 64) % 2 ^ 20, true) ∧ (∀ m, m ≠ n → getPort t m = getPort s m) ∧
        OnlyChanges [.ports] s t) ∧
    (due → p.rejects = 7 → spareFree p = false →
      ∃ t, does t ∧ (getPort t n).state = .failed ∧ (getPort t n).replay = [] ∧ (getPort t n).sendQ = [] ∧
        Raises Ev.hawPortDown s t ∧ Records 14 s t ∧ (∀ m, m ≠ n → getPort t m = getPort s m) ∧ HostSame s t ∧
        OnlyChanges [.ports, .cap, .host, .xing, .store] s t)) ∧
  ∀ (n lane : Nat) (b : List Byte) (s : State), (getPort s n).trained = true → lane ≤ 8 →
    exec (.flitData n lane (.overrun b)) s =
      .next (if (getPort s n).state = .active then lostFlit n lane (xingRecord 11 8 false s) else xingRecord 11 8 false s)

/-- NAK and IDLE_FLIT on an ACTIVE port: the flits up to the header's ACK are released, its credits count up to the buffer, and after a NAK every flit after its ACK is sent
again, in order, each on its lane; with no packet waiting nothing else is sent. On a port that is not ACTIVE they change nothing. -/
def Claim.AckAndCredits : Prop :=
  (∀ (n : Nat) (d : FlitHead) (s : State), (getPort s n).state = .active → (∀ x ∈ (getPort s n).sendQ, x.2 = []) →
    let p := getPort s n
    let credit (v : Nat) := if v = d.cvc then min (lookupD 0 v p.credits + d.cred) (vcBuffer v) else lookupD 0 v p.credits
    (∃ t, exec (.idleFlit n d) s = .next t ∧ (getPort t n).replay = afterAck d.ack p.replay ∧ (∀ v, lookupD 0 v (getPort t n).credits = credit v) ∧
      (getPort t n).txNext = p.txNext ∧ (getPort t n).rxNext = p.rxNext ∧ (∀ m, m ≠ n → getPort t m = getPort s m) ∧ OnlyChanges [.ports] s t) ∧
    ((p.replay.map fun x => x.1).Nodup → ∃ t, exec (.nak n d) s = .next t ∧
      (getPort t n).replay = (afterAck d.ack p.replay).map (fun x => (x.1, x.1 % max 1 p.lanes.length, x.2.2)) ∧
      (getPort t n).resent = min (p.resent + (afterAck d.ack p.replay).length) (2 ^ 32 - 1) ∧ (∀ v, lookupD 0 v (getPort t n).credits = credit v) ∧
      (getPort t n).txNext = p.txNext ∧ (getPort t n).rxNext = p.rxNext ∧ (∀ m, m ≠ n → getPort t m = getPort s m) ∧ OnlyChanges [.ports] s t)) ∧
  (∀ (n : Nat) (d : FlitHead) (s : State), (getPort s n).state = .active →
    (∃ t, exec (.idleFlit n d) s = .next t ∧ (getPort t n).rxNext = (getPort s n).rxNext ∧ HostSame s t ∧ OnlyChanges [.ports, .host, .xing, .store] s t) ∧
    (∃ t, exec (.nak n d) s = .next t ∧ (getPort t n).rxNext = (getPort s n).rxNext ∧ HostSame s t ∧ OnlyChanges [.ports, .host, .xing, .store] s t)) ∧
  ∀ (n : Nat) (d : FlitHead) (s : State), (getPort s n).state ≠ .active →
    (∃ t, exec (.idleFlit n d) s = .next t ∧ (∀ m, getPort t m = getPort s m) ∧ OnlyChanges [.ports] s t) ∧ exec (.nak n d) s = .next s

/-- Flits and packets are read as they are written: a flit of 640 B with a header, a SEQ and a body gives them back with a right CRC, and the bytes of a
packet give back every field of its header and its payload. -/
def Claim.FlitsRoundTrip : Prop :=
  (∀ (ftype seq : Nat) (d : FlitHead) (body : List Byte), ftype < 8 → seq < 2 ^ 20 → d.wf = true → body.length = 628 →
    let b := flitBytes ftype seq d body
    b.length = 640 ∧ flitOk b = true ∧ flitType b = ftype ∧ flitSeq b = seq ∧ flitHead b = d ∧ flitBody b = body) ∧
  ∀ (k : RoutedPacket), k.wf = true → k.typ < 256 → k.src < 4096 → k.hops < 16 → k.slot < 65536 → k.row < 2 ^ 20 → k.seg < 512 →
    parsePacket (packetBytes k) = k

/-- LANE_SWAP: a physical lane whose errors in 1 s pass a bound of R382, or a peer that asks for a swap. Each failing lane is recorded, with HAW_LANE_SWAP. One that carries nothing does no more; one in use goes
onto the free spare from a SEQ at least 64 flits ahead, at once with HAW_LANE_SWAP where no DATA flits flow; with no spare the port goes on
with HAW_DEGRADED and a record on the four healthy lanes with the fewest errors, or goes down where fewer are left. Below the bounds, on a lane already recorded, and on a port
that is not trained, nothing happens. -/
def Claim.LanesAreSwapped : Prop :=
  (∀ (n l ahead : Nat) (c : LaneCause) (s : State),
    let p := getPort s n
    let sick := (∃ errors bits, c = .ratio errors bits ∧ bits < errors * 100000) ∨ (c = .words ∧ 2 ≤ lostIn s p l (10 ^ 12))
    let left := (p.healthy.filter fun k => k != l).length
    (p.trained = true → l ≤ 8 → sick → p.laneFail.getLsbD l = false →
      ∃ t, exec (.laneSwap n l ahead c) s = .next t ∧ (∀ m, m ≠ n → getPort t m = getPort s m) ∧ HostSame s t ∧ OnlyChanges [.ports, .cap, .host, .xing, .store] s t ∧
        (l ∉ p.lanes → (getPort t n).laneFail.getLsbD l = true ∧ (n, l) ∈ t.store.badLanes ∧ Raises Ev.hawLaneSwap s t ∧ Records 13 s t) ∧
        (l ∈ p.lanes → spareFree p = true → p.state = .active →
          getPort t n = { p with swap := some (p.lanes.idxOf l, 8, (p.rxNext + max 64 ahead) % 2 ^ 20, true) } ∧ OnlyChanges [.ports] s t) ∧
        (l ∈ p.lanes → l < 8 → spareFree p = true → p.state ≠ .active →
          (getPort t n).lanes = p.lanes.set (p.lanes.idxOf l) 8 ∧ (getPort t n).spareInUse = true ∧ (getPort t n).laneFail.getLsbD l = true ∧
            (getPort t n).state = p.state ∧ (n, l) ∈ t.store.badLanes ∧ Raises Ev.hawLaneSwap s t ∧ Records 13 s t) ∧
        (l ∈ p.lanes → spareFree p = false → p.swap = none → 4 ≤ left →
          (getPort t n).width4 = true ∧ (getPort t n).state = p.state ∧ (getPort t n).laneFail.getLsbD l = true ∧ (getPort t n).lanes.length = 4 ∧
            (getPort t n).lanes.Nodup ∧ (∀ k ∈ (getPort t n).lanes, k ∈ p.healthy ∧ k ≠ l) ∧
            (∀ k ∈ p.healthy, k ≠ l → k ∉ (getPort t n).lanes → ∀ j ∈ (getPort t n).lanes, p.errors j ≤ p.errors k) ∧
            (n, l) ∈ t.store.badLanes ∧ Records 13 s t ∧ (Calm s → stageDone s 2 = true →
              ∃ x y, t.host.events = (y :: x :: s.host.events).take 65536 ∧ x.code = Ev.hawDegraded ∧ y.code = Ev.hawLaneSwap)) ∧
        (l ∈ p.lanes → spareFree p = false → p.swap = none → left < 4 → (getPort t n).state = .failed ∧
          (Calm s → (∃ r r', t.store.ledger = (r' :: r :: s.store.ledger).take 262144 ∧ r.cls = 13 ∧ r'.cls = 14) ∧ (stageDone s 2 = true →
            ∃ x y, t.host.events = (y :: x :: s.host.events).take 65536 ∧ x.code = Ev.hawLaneSwap ∧ y.code = Ev.hawPortDown)))) ∧
    ((∀ d sq, c ≠ .peer d sq) → p.trained = false ∨ 8 < l ∨ ¬sick ∨ p.laneFail.getLsbD l = true → exec (.laneSwap n l ahead c) s = .next s)) ∧
  ∀ (n l ahead sq : Nat) (d : FlitHead) (s : State),
    ((getPort s n).trained = false → exec (.laneSwap n l ahead (.peer d sq)) s = .next s) ∧
    ((getPort s n).trained = true → (getPort s n).state ≠ .active → spareFree (getPort s n) = true → l < (getPort s n).lanes.length →
      ∃ t, exec (.laneSwap n l ahead (.peer d sq)) s = .next t ∧ (getPort t n).lanes = (getPort s n).lanes.set l 8 ∧ (getPort t n).spareInUse = true ∧
        (getPort t n).swap = none ∧ (∀ m, m ≠ n → getPort t m = getPort s m) ∧ HostSame s t ∧ OnlyChanges [.ports, .host, .xing, .store] s t) ∧
    ((getPort s n).state = .active →
      let q := takeHead s.cad.ct d (getPort s n)
      ∃ t, exec (.laneSwap n l ahead (.peer d sq)) s = .next t ∧
        getPort t n = (if spareFree q = true ∧ l < q.lanes.length then { q with swap := some (l, 8, sq, false) } else q) ∧
        (∀ m, m ≠ n → getPort t m = getPort s m) ∧ HostSame s t ∧ OnlyChanges [.ports, .host, .xing, .store] s t)

/-- HAW_PORT_DOWN brings a trained port to FAILED, its buffers discarded, with its event and a record of class 14; on another port it does nothing. HAW_STALL reports a
channel of an ACTIVE port on which packets have waited 100 µs without a credit, and takes no other action; else it does nothing. -/
def Claim.PortsGoDownAndStall : Prop :=
  (∀ (n : Nat) (c : DownCause) (s : State),
    ((getPort s n).trained = true →
      ∃ t, exec (.hawPortDown n c) s = .next t ∧ (getPort t n).state = .failed ∧ (getPort t n).replay = [] ∧ (getPort t n).sendQ = [] ∧
        Raises Ev.hawPortDown s t ∧ Records 14 s t ∧ (∀ m, m ≠ n → getPort t m = getPort s m) ∧ HostSame s t ∧ OnlyChanges [.ports, .cap, .host, .xing, .store] s t) ∧
    ((getPort s n).trained = false → exec (.hawPortDown n c) s = .next s)) ∧
  ∀ (n vc : Nat) (s : State),
    let p := getPort s n
    let stalls := p.state = .active ∧ lookupD [] vc p.sendQ ≠ [] ∧ 10 ^ 8 ≤ sincePs s (lookupD s.cad.ct vc p.creditAt)
    (stalls → ∃ t, exec (.hawStall n vc) s = .next t ∧ Raises Ev.hawStall s t ∧ getPort t n = { p with creditAt := upsert vc s.cad.ct p.creditAt } ∧
      (∀ m, m ≠ n → getPort t m = getPort s m) ∧ HostSame s t ∧ OnlyChanges [.ports, .host, .xing, .store] s t) ∧
    (¬stalls → exec (.hawStall n vc) s = .next s)

/-- PLAN_SET, PORT_CTRL, ROUTE_SET and XMAP_SET (with the entries in its payload), admitted. In range, the plan is stored, the masked ports are disabled, with the
running collectives that lose packets there ended, or start training, and the named routing and map entries take their words, no other entry
changing. Out of range they reply LINK_VALUE or XCH_VALUE; with a slot set, or the routing set in use, LINK_BUSY or XCH_BUSY; then nothing else changes. -/
def Claim.LinkTables : Prop :=
  (∀ (p : Packet) (s : State), Admitted 0x0501 p s →
    let ok := ∀ k < 24, item (sliceB p.payload (16 * k) 16) 5 1 ≤ 3 ∧ item (sliceB p.payload (16 * k) 16) 6 2 = 0
    (s.colls ≠ [] → exec (.planSet p) s = .next (reply p Status.linkBusy 0 (arrived s))) ∧
    (s.colls = [] → ¬ok → exec (.planSet p) s = .next (reply p Status.linkValue 0 (arrived s))) ∧
    (s.colls = [] → ok →
      ∃ t, exec (.planSet p) s = .next t ∧ Answered p 0 0 s t ∧ t.store.plan.id = BitVec.ofNat 32 (item p.param 0 4) ∧
        t.store.plan.coord = BitVec.ofNat 32 (item p.param 4 4) ∧ t.store = { s.store with plan := t.store.plan } ∧
        (∀ k < 24, planOf t k = parsePlan (sliceB p.payload (16 * k) 16)) ∧ OnlyChanges [.arrivals, .host, .store] s t)) ∧
  (∀ (p : Packet) (s : State), Admitted 0x0506 p s →
    let mask := item p.param 0 3
    let act := item p.param 3 1
    (mask = 0 ∨ 2 < act → exec (.portCtrl p) s = .next (reply p Status.linkValue 0 (arrived s))) ∧
    (mask ≠ 0 → act = 0 →
      ∃ t, exec (.portCtrl p) s = .next t ∧
        (∀ n < 24, bitAt mask n = true → (getPort t n).state = .disabled ∧ (getPort t n).disable = true ∧ (getPort t n).replay = [] ∧
          (getPort t n).sendQ = []) ∧
        (∀ n, bitAt mask n = false → getPort t n = getPort s n) ∧
        (∀ n < 24, bitAt mask n = true → (getPort s n).trained = true → ∀ k c, lookup k s.colls = some c → c.running.isSome = true →
          collLoses s n k = true → ∃ d, lookup k t.colls = some d ∧ d.running = none) ∧
        OnlyChanges [.arrivals, .host, .xing, .store, .ports, .colls, .cap] s t) ∧
    (mask ≠ 0 → act = 1 ∨ act = 2 →
      ∃ t, exec (.portCtrl p) s = .next t ∧ Answered p 0 0 s t ∧
        (∀ n < 24, bitAt mask n = true → (getPort t n).state = (if (planOf s n).expected then .training else .off) ∧ (getPort t n).disable = false ∧
          (getPort t n).lanes = List.range 8 ∧ (getPort t n).replay = [] ∧ (getPort t n).sendQ = []) ∧
        (∀ n, bitAt mask n = false → getPort t n = getPort s n) ∧ OnlyChanges [.arrivals, .host, .ports, .cap] s t)) ∧
  (∀ (p : Packet) (s : State), Admitted 0x0502 p s →
    let n := item p.param 0 1
    let self := item p.param 2 2
    let mem := item p.param 4 2
    let first := item p.param 6 2
    let cnt := item p.param 8 2
    let w (k : Nat) := item p.payload (4 * k) 4
    let ok := n < 16 ∧ 1 ≤ cnt ∧ cnt ≤ 1024 ∧ first + cnt ≤ 4096 ∧ self < mem ∧ mem ≤ 4096 ∧
      ∀ k < cnt, w k % 2 ^ 20 = 0 ∧ (bitAt (w k) 30 = true ∨ (fld (w k) 25 5 ≤ 23 ∧ fld (w k) 20 5 ≤ 23))
    (¬ok → exec (.routeSet p) s = .next (reply p Status.linkValue 0 (arrived s))) ∧
    (ok → setBusy s n = true → exec (.routeSet p) s = .next (reply p Status.linkBusy 0 (arrived s))) ∧
    (ok → setBusy s n = false →
      ∃ t, exec (.routeSet p) s = .next t ∧ Answered p 0 0 s t ∧ (rtSet t n).self = self ∧ (rtSet t n).members = mem ∧ (rtSet t n).xmap = (rtSet s n).xmap ∧
        (∀ k < cnt, lookup (first + k) (rtSet t n).entries = some (BitVec.ofNat 32 (w k))) ∧
        (∀ d, d < first ∨ first + cnt ≤ d → lookup d (rtSet t n).entries = lookup d (rtSet s n).entries) ∧
        (∀ m, m ≠ n → rtSet t m = rtSet s m) ∧ OnlyChanges [.arrivals, .host, .sets] s t)) ∧
  (∀ (p : Packet) (s : State), Admitted 0x0601 p s → item p.param 8 8 = 0 →
    let n := item p.param 0 1
    let first := item p.param 2 2
    let cnt := item p.param 4 2
    let w (k : Nat) : W64 := BitVec.ofNat 64 (item p.payload (8 * k) 8)
    let place := n < 16 ∧ 1 ≤ cnt ∧ cnt ≤ 512 ∧ first + cnt ≤ 4096
    let busy := ∃ x ∈ s.exchanges, x.2.rts = n
    let ok := ∀ k < cnt, (mapEntry (w k)).member < (rtSet s n).members ∧ (mapEntry (w k)).shape ≤ 5
    (¬place → exec (.xmapSet p) s = .next (reply p Status.xchValue 0 (arrived s))) ∧
    (place → busy → exec (.xmapSet p) s = .next (reply p Status.xchBusy 0 (arrived s))) ∧
    (place → ¬busy → ¬ok → exec (.xmapSet p) s = .next (reply p Status.xchValue 0 (arrived s))) ∧
    (place → ¬busy → ok →
      ∃ t, exec (.xmapSet p) s = .next t ∧ Answered p 0 0 s t ∧ (rtSet t n).entries = (rtSet s n).entries ∧ (rtSet t n).self = (rtSet s n).self ∧
        (rtSet t n).members = (rtSet s n).members ∧ (∀ k < cnt, lookup (first + k) (rtSet t n).xmap = some (w k)) ∧
        (∀ d, d < first ∨ first + cnt ≤ d → lookup d (rtSet t n).xmap = lookup d (rtSet s n).xmap) ∧ (∀ m, m ≠ n → rtSet t m = rtSet s m) ∧
        OnlyChanges [.arrivals, .host, .sets] s t))

/-! ### Routing, collectives, barriers (chapter 13) -/

/-- PACKET_FORWARD: a packet for another member leaves its receive buffer in its turn in its flow. One of an undefined TYPE is discarded and counted. The ninth hop, and
a member that no port reaches, raise HAW_UNREACHABLE and the packet
is gone; so it is, without an event, while the crossing from the mesh to the ports is closed. Else, with one hop more, it goes to its first ACTIVE
port: where nothing waits there and the channel holds credits for its whole length, it uses them and goes out in the next DATA flit, which is kept
for resending; without the credits it waits. A packet for this member is not forwarded, and one out of turn stays. -/
def Claim.PacketsAreForwarded : Prop :=
  (∀ (p : RoutedPacket) (s : State), p.dest = (rtSet s p.rts).self ∨ freeRx (fun k => k == p) s = none → exec (.packetForward p) s = .next s) ∧
  ∀ (p : RoutedPacket) (s s₀ : State), p.dest ≠ (rtSet s p.rts).self → freeRx (fun k => k == p) s = some s₀ →
    let q := { p with hops := p.hops + 1 }
    (packetTypeOk p.typ = false → exec (.packetForward p) s = .next { s₀ with rel := { s.rel with discards := s.rel.discards + 1 } }) ∧
    (packetTypeOk p.typ = true →
    (8 ≤ p.hops → exec (.packetForward p) s = .next (hawUnreachable p.rts p.dest s₀)) ∧
    (p.hops < 8 → xingClosed s 8 11 = true → exec (.packetForward p) s = .next s₀) ∧
    (p.hops < 8 → xingClosed s 8 11 = false → routeTo s p.rts p.dest = .unreachable → exec (.packetForward p) s = .next (hawUnreachable p.rts p.dest s₀)) ∧
    (∀ n, p.hops < 8 → xingClosed s 8 11 = false → routeTo s p.rts p.dest = .port n →
      (∃ t, exec (.packetForward p) s = .next t ∧ (∀ m, m ≠ n → getPort t m = getPort s₀ m) ∧ HostSame s t ∧ OnlyChanges [.ports, .host, .xing, .store] s t) ∧
      ((∀ x ∈ (getPort s n).sendQ, x.2 = []) → p.vc < 3 → p.len ≤ 32 → (getPort s n).turn.1 ≤ 1 →
        let a := getPort s n
        ∃ t, exec (.packetForward p) s = .next t ∧
          (p.len + 1 ≤ lookupD 0 p.vc a.credits →
            lookupD 0 p.vc (getPort t n).credits = lookupD 0 p.vc a.credits - (p.len + 1) ∧ (getPort t n).txNext = (a.txNext + 1) % 2 ^ 20 ∧
            lookupD [] p.vc (getPort t n).sendQ = [] ∧ (getPort t n).replay.length ≤ 512 ∧
            (getPort t n).replay.getLast? = some (a.txNext, a.txNext % max 1 a.lanes.length, sliceB (packetBytes q) 0 628)) ∧
          (lookupD 0 p.vc a.credits < p.len + 1 →
            lookupD [] p.vc (getPort t n).sendQ = [q] ∧ (getPort t n).credits = a.credits ∧ (getPort t n).txNext = a.txNext ∧
            (getPort t n).replay = a.replay))))

/-- A leaf that has arrived (s₀: off this member's mesh, or out of the buffer of a port) at a slot with OP 0. On the member that owns its row: a leaf of a step at or
below COMMITTED only sets STALE; any other joins the next round of its segment and member, in the engine's SRAM or, where that is full, at the first free
place of the spill region; without SPEN, or with that region full, it stays where it is, and COLL_SPACE is raised once; a spill waits for a channel or a crossing
that serves nothing. On another member it goes to the owner. A leaf that a crossing or a hop
loses joins nothing; one that is not there, or for no slot, joins no slot. -/
def Claim.LeavesJoinRounds : Prop :=
  (∀ (l : Leaf) (c : CollSlot) (s : State), lookup l.slot s.colls = some c → c.op = 0 →
    let self := (rtSet s c.rts).self
    let own := ownerOf c self l.row = self
    let stale := stalePacket s l.step
    let room := engineLeaves s c.engine < 65536
    let round := lookupD 0 (segKey l.step l.row l.seg * 4096 + l.member) c.numbered
    let stays := own ∧ stale = false ∧ ¬room ∧ (c.spen = false ∨ spillPlace s c = none)
    let held := own ∧ stale = false ∧ ¬room ∧ c.spen = true ∧
      (xingClosed s 8 9 = true ∨ ∃ k, spillPlace s c = some k ∧ rangeWaits s (spillAt s c k) 256 = true)
    (stays → ∀ t, (c.spaceWait = true → exec (.leaf l t) s = .next s) ∧
      (c.spaceWait = false → exec (.leaf l t) s = .next (post Ev.collSpace [] { s with colls := upsert l.slot { c with spaceWait := true } s.colls }))) ∧
    (¬stays → held → ∀ t, exec (.leaf l t) s = .next s) ∧
    (¬stays → ¬held → ∀ y s₀, (l.member = self → meshTake (.leaf (0, 0) l) s = some (y, s₀)) →
      (l.member ≠ self → takeItem s (0, 0) c.rts (.leaf (0, 0) l) = some s₀ ∧ y = (.engine 0, .leaf (0, 0) l)) →
      let who := senderOf s₀ y.1 l.step
      (own → stale = true →
        exec (.leaf l .ok) s = .next (pumpAll (deliverData { s₀ with colls := upsert l.slot { c with stale := true } s.colls }))) ∧
      (own → stale = false →
        ∃ u d, exec (.leaf l .ok) s = .next (pumpAll (deliverData u)) ∧ lookup l.slot u.colls = some d ∧
          d.leaves = c.leaves ++ [(round, if room then none else spillPlace s c, l)] ∧ d.delivered = c.delivered ∧
          (∀ k, k ≠ l.slot → lookup k u.colls = lookup k s.colls) ∧
          (room → OnlyChanges [.colls, .mesh, .ports] s u) ∧ OnlyChanges [.colls, .mesh, .ports, .mem, .near, .host, .xing, .store, .freeCtr] s u) ∧
      (¬own → exec (.leaf l .ok) s = .next (pumpAll (deliverData
        ((linkPackets s₀ (0, 0) c.rts (l.row / c.rpm) (.leaf (0, 0) l)).foldl (fun s k => sendPacket k s) s₀)))) ∧
      (∀ a b, exec (.leaf l (.overrun a b)) s =
        .next (pumpAll (deliverData (losePacket 16 y (xingRecordFor who.1 who.2.1 who.2.2 a b false s₀))))) ∧
      ∀ k w, let r := parityMeets (.hop k) w who.1 who.2.1 who.2.2 s₀
        exec (.leaf l (.hop k w)) s = .next (pumpAll (deliverData (if r.1 then losePacket 1 y r.2 else leafAt c l r.2)))) ∧
    (¬stays → (l.member = self → meshTake (.leaf (0, 0) l) s = none) → (l.member ≠ self → takeItem s (0, 0) c.rts (.leaf (0, 0) l) = none) →
      ∀ t, exec (.leaf l t) s = .next s)) ∧
  ∀ (l : Leaf) (t : Transit) (s : State), lookup l.slot s.colls = none →
    ∃ u, exec (.leaf l t) s = .next u ∧ lookup l.slot u.colls = none ∧
      ∀ k c, lookup k s.colls = some c → ∃ d, lookup k u.colls = some d ∧ d.leaves = c.leaves

/-- ROUND_SUM of a segment, for the earliest step that has leaves there: once every member's leaf of the next round is held, the FP32 tree sum in member order, rounded to
BF16 with site 1 and the element's index of entry ENT, goes to the capstans as one contribution of the collective engine, its outcomes are counted, and
the round leaves the engine. Before, and with no leaf there, nothing happens. (For a slot whose ENT names no ledger entry the index is 0: the model's
choice, assumption 94.) -/
def Claim.RoundSumIsDelivered : Prop :=
  (∀ (slot row seg : Nat) (c : CollSlot) (step : W32) (s : State), lookup slot s.colls = some c →
    (∃ x ∈ c.leaves, x.2.2.row = row ∧ x.2.2.seg = seg ∧ x.2.2.step = step) →
    (∀ x ∈ c.leaves, x.2.2.row = row → x.2.2.seg = seg → step.toNat ≤ x.2.2.step.toNat) →
    let k := lookupD 0 (segKey step row seg) c.delivered
    let ls := roundLeaves c step row seg k
    let o := if c.rpm = 0 then row else row % c.rpm
    let sums := (List.range (ls.foldl (fun a l => max a l.data.length) 0)).map fun j =>
      v32 (tree 0 add32 (ls.map fun l => r32 (bf16.decode (l.data.getD j 0).toNat)))
    let idx (j : Nat) := ((lookup c.ent s.cap.ledger).map fun e => (e.col0 + (128 * seg + j)) * e.dout + e.row0 + o).getD 0
    let conv := convRun 1 true (fun j => dice s.host.seed step c.sid 1 (idx j)) 0 0 sums {}
    (ls.length = c.members →
      ∃ t d, exec (.roundSum slot row seg) s = .next t ∧ lookup slot t.colls = some d ∧ lookupD 0 (segKey step row seg) d.delivered = k + 1 ∧
        d.leaves = c.leaves.filter (fun x => !(x.1 == k && x.2.2.row == row && x.2.2.seg == seg && x.2.2.step == step)) ∧
        t.mesh = s.mesh ++ [(.engine (0x100 + c.engine), .contrib (0, 0) {
          entry := c.ent, row := o, seg, step, src := 0x10000 + c.engine, data := conv.1.map (BitVec.ofNat 16) })] ∧
        t.watch = (countConv c.sid step conv.2 s).watch ∧ (∀ n, n ≠ slot → lookup n t.colls = lookup n s.colls) ∧ OnlyChanges [.colls, .mesh, .watch] s t) ∧
    (ls.length < c.members → exec (.roundSum slot row seg) s = .next s)) ∧
  ∀ (slot row seg : Nat) (s : State), (∀ c, lookup slot s.colls = some c → ∀ x ∈ c.leaves, ¬(x.2.2.row = row ∧ x.2.2.seg = seg)) →
    exec (.roundSum slot row seg) s = .next s

/-- COLL_SET, admitted: items out of range, or MEMBERS unlike the routing set's, reply LINK_VALUE; addresses outside writable near entries ADDR_RANGE; a slot with open
rounds or an operation LINK_BUSY; else the slot takes its items, or a CLEAR removes it. COLL_FIRE, admitted with FIRE 0: for a slot with OP 1 to 4 it makes the
collective due, its reply to come, else it replies LINK_VALUE. -/
def Claim.CollectivesAreSet : Prop :=
  (∀ (p : Packet) (s : State), Admitted 0x0503 p s →
    let n := item p.param 0 2
    let c := newSlot p
    let ranges := collItems p n = true ∧ (c.op ≠ 7 → c.members = (rtSet s c.rts).members)
    let places := c.op ≠ 7 → collAddrs s c = true
    let busy := (lookup n s.colls).elim false slotOpen
    (¬ranges → exec (.collSet p) s = .next (reply p Status.linkValue 0 (arrived s))) ∧
    (ranges → ¬places → exec (.collSet p) s = .next (reply p Status.addrRange 0 (arrived s))) ∧
    (ranges → places → busy = true → exec (.collSet p) s = .next (reply p Status.linkBusy 0 (arrived s))) ∧
    (ranges → places → busy = false → c.op = 7 →
      ∃ t, exec (.collSet p) s = .next t ∧ Answered p 0 0 s t ∧ t.colls = delKey n s.colls ∧ OnlyChanges [.arrivals, .host, .colls] s t) ∧
    (ranges → places → busy = false → c.op ≠ 7 →
      ∃ t, exec (.collSet p) s = .next t ∧ Answered p 0 0 s t ∧ lookup n t.colls = some c ∧ (∀ m, m ≠ n → lookup m t.colls = lookup m s.colls) ∧
        OnlyChanges [.arrivals, .host, .colls] s t)) ∧
  ∀ (p : Packet) (s : State), Admitted 0x0504 p s →
    let q := { shifted s p with tag := s.arrivals }
    let n := item q.param 0 2
    (∀ c, lookup n s.colls = some c → c.op ≠ 0 →
      ∃ t, exec (.collFire p) s = .next t ∧ lookup n t.colls = some { c with due := c.due ++ [q] } ∧
        (∀ m, m ≠ n → lookup m t.colls = lookup m s.colls) ∧ t.host = s.host ∧ OnlyChanges [.arrivals, .colls, .cap] s t) ∧
    ((∀ c, lookup n s.colls = some c → c.op = 0) →
      exec (.collFire p) s = .next (reply q Status.linkValue 0 (logStep q s.arrivals (arrived s))))

/-- COLLECTIVE_START starts the first COLL_FIRE that is due on a slot that runs none: the member's source is read, and every other member gets its part of it, in
packets of at most 512 B; a source that cannot be read is a parity fault and the open step is FAULTED. COLLECTIVE_COMPLETE, once the engine holds every member's
part, and for an all-reduce, whose own converted chunk it first sends once, every member's chunk, writes the result at DST and nowhere else, ties KNOT of KTILE
once, and the COLL_FIRE replies. Both wait for channels that serve nothing, and end the collective with CLOCK_STOPPED behind a closed crossing. With nothing due,
nothing running, or parts missing they do nothing. -/
def Claim.CollectivesRun : Prop :=
  let stops (slot : Nat) (c : CollSlot) (p : Packet) (s t : State) :=
    lookup slot t.colls = some { c with running := none, own := [], shared := none } ∧ (∀ m, m ≠ slot → lookup m t.colls = lookup m s.colls) ∧
    t.cap.stepFaulted = (s.cap.stepFaulted || decide (s.cap.committed.toNat < (collStep p).toNat)) ∧
    (hasReplied p.tag s = false → ∃ r, t.host.replies = s.host.replies ++ [r] ∧ r.seq = p.seq ∧ r.queue = p.queue ∧ r.status = Status.clockStopped) ∧
    OnlyChanges [.colls, .cap, .host, .xing, .store] s t
  (∀ (slot : Nat) (c : CollSlot) (p : Packet) (r : List Packet) (s : State), lookup slot s.colls = some c → c.due = p :: r → c.running = none →
    let n := c.nel * collBytes c.fmt
    let waits := rangeWaits s c.src n = true
    let shut := xingClosed s 8 9 = true
    let readable := readMeets s isRetired c.src n = false ∧ readMeets s isPoisoned c.src n = false
    let l := srcRead s c.src n
    let d := { c with due := r, running := some p, own := l, shared := none }
    (waits → exec (.collectiveStart slot) s = .next s) ∧
    (¬waits → shut → ∃ t, exec (.collectiveStart slot) s = .next t ∧ stops slot { c with due := r } p s t) ∧
    (¬waits → ¬shut → readable → ∃ t, exec (.collectiveStart slot) s = .next t ∧ lookup slot t.colls = some d ∧
      (∀ m, m ≠ slot → lookup m t.colls = lookup m s.colls) ∧ HostSame s t ∧ OnlyChanges [.colls, .ports, .host, .xing, .store] s t ∧
      t = (otherMembers s c.rts c.members).foldl (fun s m =>
        (chunks512 ((c.part m l).length / 512 + 1) (c.part m l)).zipIdx.foldl (fun s x =>
          sendPacket (ownPacket s 0x02 c.rts m 0 slot x.2 0 (collStep p) x.1) s) s) { s with colls := upsert slot d s.colls }) ∧
    (¬waits → ¬shut → ¬readable → ∃ t, exec (.collectiveStart slot) s = .next t ∧ lookup slot t.colls = some { d with own := [] } ∧
      t.cap = (faultStep (collStep p) s).cap ∧ HostSame s t ∧ OnlyChanges [.colls, .cap, .host, .xing, .store] s t)) ∧
  (∀ (slot : Nat) (s : State), (∀ c, lookup slot s.colls = some c → c.due = [] ∨ c.running.isSome = true) →
    exec (.collectiveStart slot) s = .next s) ∧
  (∀ (slot : Nat) (c : CollSlot) (p : Packet) (s : State), lookup slot s.colls = some c → c.running = some p →
    let self := (rtSet s c.rts).self
    let waits := c.own = [] ∨ rangeWaits s c.dst (c.dstBytes self) = true
    let shut := xingClosed s 8 9 = true
    let k := tileKnot c.ktile c.knot
    (waits → exec (.collectiveComplete slot) s = .next s) ∧
    (¬waits → shut → ∃ t, exec (.collectiveComplete slot) s = .next t ∧ stops slot c p s t) ∧
    (¬waits → ¬shut → c.parts self (collStep p) = none → exec (.collectiveComplete slot) s = .next s) ∧
    (¬waits → ¬shut → ∀ parts, c.parts self (collStep p) = some parts →
      let r := collResult slot c p parts s
      (∀ bytes, r.1 = some bytes → ∃ t d, exec (.collectiveComplete slot) s = .next t ∧ lookup slot t.colls = some d ∧ d.running = none ∧
        (∀ m, m ≠ slot → lookup m t.colls = lookup m s.colls) ∧ knot t k = knot s k + 1 ∧ (∀ j, j ≠ k → knot t j = knot s j) ∧
        (∀ x, (∀ i < bytes.length, memKey s x ≠ memKey s (c.dst + i)) → readByte t x = readByte s x) ∧
        t.mem = (nearWriteFor p.origin c.dst bytes bytes.length r.2).mem ∧
        (hasReplied p.tag s = false → ∃ r, t.host.replies = s.host.replies ++ [r] ∧ r.seq = p.seq ∧ r.queue = p.queue ∧
          r.status = if p.rsv = 1 then Status.fireLate else Status.ok) ∧
        OnlyChanges [.colls, .mem, .near, .host, .xing, .knots, .plays, .watch, .ports, .store, .cap] s t) ∧
      (r.1 = none → c.op = 2 ∧ exec (.collectiveComplete slot) s = .next r.2 ∧ (∃ d x, lookup slot r.2.colls = some d ∧ d.shared = some x ∧
        d.running = some p) ∧ (c.shared ≠ none → r.2 = s) ∧ OnlyChanges [.colls, .ports, .watch, .host, .xing, .store] s r.2))) ∧
  ∀ (slot : Nat) (s : State), (∀ c, lookup slot s.colls = some c → c.running = none) → exec (.collectiveComplete slot) s = .next s

/-- The bytes that a collective writes at DST, its members' sources in `all`. A member's engine holds what it needs of each: its own chunk, or all of an all-gather.
Reduce-scatter: this member's chunk, each element the tree sum over the members in FP32,
converted into DFMT, with stochastic rounding of site 1 for CLASS 2. All-reduce: every element so, each chunk converted by the member that owns it. All-gather: the
members' sources in order. All-to-all: chunk SELF of
member j as chunk j. (Chunk bounds are rounded down where MEMBERS does not divide NEL: the model's reading, assumption 122.) -/
def Claim.CollectiveResults : Prop :=
  ∀ (slot : Nat) (c : CollSlot) (p : Packet) (s : State) (all : List (List Byte)), all.length = c.members → 1 ≤ collBytes c.fmt →
    (∀ l ∈ all, l.length = c.nel * collBytes c.fmt) → (rtSet s c.rts).self < c.members →
    let self := (rtSet s c.rts).self
    let b := collBytes c.fmt
    let step := collStep p
    let lo (m : Nat) := m * c.nel / c.members
    let sums (lo n : Nat) := (List.range n).map fun j => v32 (tree 0 add32 (all.map fun l => r32 ((elemFmt c.fmt).decode (item l ((lo + j) * b) b))))
    let conv (lo n : Nat) := ((convRun c.dfmt (c.cls == 2) (fun j => dice s.host.seed step c.sid 1 (lo + j)) 0 0 (sums lo n) {}).1).flatMap
      (toLE (collBytes c.dfmt))
    let parts := all.map (c.part self)
    let r := (collResult slot c p parts s).1
    (c.own = all.getD self [] → (∀ m < c.members, m ≠ self → c.held step m 0 (c.part self c.own).length = some (c.part self (all.getD m []))) →
      c.parts self step = some parts) ∧
    (c.op = 1 → r = some (conv (lo self) (lo (self + 1) - lo self))) ∧
    (c.op = 2 → ∀ own, c.shared = some own → own = conv (lo self) (lo (self + 1) - lo self) →
      (∀ m < c.members, m ≠ self → c.held step m (dataPackets (c.part self c.own).length) ((lo (m + 1) - lo m) * collBytes c.dfmt) =
        some (conv (lo m) (lo (m + 1) - lo m))) → r = some (conv 0 c.nel)) ∧
    (c.op = 3 → r = some all.flatten) ∧
    (c.op = 4 → r = some (all.flatMap fun l => (l.drop (lo self * b)).take ((lo (self + 1) - lo self) * b)))

/-- A barrier. BARRIER with items in range is declared without a reply, its release point at FIRE, or at once; out of range it replies LINK_VALUE. Its ARRIVE goes to every
member once, when the arrival condition holds; one that comes after the release point makes it late, and the tie is due at the next beat
edge. With every ARRIVE held and its turn among the events come it ties the release knot, with BARRIER_LATE if late, replies 0x0000 (or FIRE_LATE, if its FIRE
had passed at dispatch) and ends; without them, TIMEOUT beats after the release point, it replies BARRIER_TIMEOUT and ties nothing. Before that each does nothing. -/
def Claim.BarriersRelease : Prop :=
  (∀ (p : Packet) (s : State), Serves s → p.opc = 0x0505 → checkPacket s p = none → fireRefusal s (shifted s p) = none →
    let late := isLate s (shifted s p)
    let q := { shifted s p with tag := s.arrivals, rsv := if late then 1 else (shifted s p).rsv }
    let at_ := if q.fire = 0 then s.cad.ct else q.fire
    let ok := item q.param 2 1 ≤ 15 ∧ 1 ≤ item q.param 4 2 ∧ item q.param 4 2 ≤ 4096 ∧ (item q.param 6 2 ≤ 2047 ∨ item q.param 6 2 = 0xFFFF) ∧
      item q.param 8 1 ≤ 127 ∧ item q.param 16 2 ≤ 2047 ∧ item q.param 18 1 ≤ 127 ∧ item q.param 24 2 ≠ 0
    (ok → ∃ t b, exec (.barrier p) s = .next t ∧ t.barriers = s.barriers ++ [b] ∧ b.ident = item q.param 0 2 ∧ b.members = item q.param 4 2 ∧
      b.tile = item q.param 6 2 ∧ b.knot = item q.param 8 1 ∧ b.target = BitVec.ofNat 32 (item q.param 12 4) ∧ b.relTile = item q.param 16 2 ∧
      b.relKnot = item q.param 18 1 ∧ b.amount = BitVec.ofNat 32 (item q.param 20 4) ∧ b.timeout = item q.param 24 2 ∧ b.fire = at_ ∧ b.release = at_ ∧
      b.sent = false ∧ b.late = false ∧ (b.fireLate = true ↔ q.rsv = 1) ∧ t.host = s.host ∧ OnlyChanges [.arrivals, .barriers, .cap] s t) ∧
    (¬ok → exec (.barrier p) s = .next (reply q Status.linkValue 0 (logStep q s.arrivals (arrived s))))) ∧
  (∀ (n : Nat) (s : State), getBarrier s n = none →
    exec (.barrierArrive n) s = .next s ∧ exec (.barrierRelease n) s = .next s ∧ exec (.barrierTimeout n) s = .next s) ∧
  (∀ (n : Nat) (b : BarrierRec) (s : State), getBarrier s n = some b →
    let self := (rtSet s b.rts).self
    let holds := b.sent = false ∧ (b.tile = 0xFFFF ∨ waitMet (knot s (tileKnot b.tile b.knot)) b.target = true)
    (holds → ∃ t c, exec (.barrierArrive n) s = .next t ∧ getBarrier t n = some c ∧ c.sent = true ∧ self ∈ c.arrived ∧ (∀ m ∈ b.arrived, m ∈ c.arrived) ∧
      (self ∉ b.arrived → b.fire.toNat < s.cad.ct.toNat → c.late = true ∧ c.release = ctEdge s.cad.ct 1) ∧
      (s.cad.ct.toNat ≤ b.fire.toNat → c.late = b.late ∧ c.release = b.release) ∧ (∀ m, m ≠ n → getBarrier t m = getBarrier s m) ∧ HostSame s t ∧
      OnlyChanges [.barriers, .ports, .host, .xing, .store] s t) ∧
    (¬holds → exec (.barrierArrive n) s = .next s)) ∧
  (∀ (n : Nat) (b : BarrierRec) (s : State), getBarrier s n = some b →
    (∀ s₀, allArrived b = true → comeTo (b.release.toNat, 2, b.tag) b.release s = some s₀ →
      ∃ t, exec (.barrierRelease n) s = .next t ∧ getBarrier t n = none ∧ (∀ m, m ≠ n → getBarrier t m = getBarrier s m) ∧ t.cad = s₀.cad ∧
        knot t (tileKnot b.relTile b.relKnot) = knot s (tileKnot b.relTile b.relKnot) + b.amount ∧
        (∀ k, k ≠ tileKnot b.relTile b.relKnot → knot t k = knot s k) ∧
        (hasReplied b.tag s = false → (b.late = true → Raises Ev.barrierLate s t) ∧
          ∃ r, t.host.replies = s.host.replies ++ [r] ∧ r.seq = b.seq ∧ r.queue = b.queue ∧ r.status = if b.fireLate then Status.fireLate else Status.ok) ∧
        OnlyChanges [.barriers, .knots, .plays, .host, .xing, .store, .cap, .cad] s t) ∧
    (allArrived b = false ∨ comeTo (b.release.toNat, 2, b.tag) b.release s = none → exec (.barrierRelease n) s = .next s)) ∧
  ∀ (n : Nat) (b : BarrierRec) (s : State), getBarrier s n = some b →
    (∀ s₀, allArrived b = false → timeTo (b.fire + beats b.timeout) s = some s₀ →
      ∃ t, exec (.barrierTimeout n) s = .next t ∧ getBarrier t n = none ∧ (∀ m, m ≠ n → getBarrier t m = getBarrier s m) ∧ t.cad = s₀.cad ∧
        (hasReplied b.tag s = false → ∃ r, t.host.replies = s.host.replies ++ [r] ∧ r.seq = b.seq ∧ r.queue = b.queue ∧
          r.status = Status.barrierTimeout) ∧ OnlyChanges [.barriers, .host, .xing, .store, .cap, .cad] s t) ∧
    (allArrived b = true ∨ timeTo (b.fire + beats b.timeout) s = none → exec (.barrierTimeout n) s = .next s)

/-! ### The expert exchange (chapter 14) -/

/-- XCH_SET, admitted with FIRE 0. Items out of range reply XCH_VALUE, an XID that is held XCH_BUSY, a REUSE whose PRIOR is not held with the same STEP and RTS and
past its grant phase XCH_UNKNOWN, a 257th exchange XCH_FULL. Else the exchange exists with its items: without REUSE nothing else of the module's data moves; with REUSE it
has PRIOR's counts, capacities and placement and is past its grant phase, with no row received. No other exchange changes. -/
def Claim.ExchangeIsSet : Prop :=
  ∀ (p : Packet) (s : State), Admitted 0x0602 p s →
    let q := { shifted s p with tag := s.arrivals }
    let s' := logStep q s.arrivals (arrived s)
    let x := newExchange q s
    let prior (y : Exchange) := getX s x.prior = some y ∧ y.step = x.step ∧ y.rts = x.rts ∧ y.granted = true
    (xchItems q = false → exec (.xchSet p) s = .next (reply q Status.xchValue 0 s')) ∧
    (xchItems q = true → (getX s x.xid).isSome = true → exec (.xchSet p) s = .next (reply q Status.xchBusy 0 s')) ∧
    (xchItems q = true → getX s x.xid = none → x.reuse = true → (¬∃ y, prior y) → exec (.xchSet p) s = .next (reply q Status.xchUnknown 0 s')) ∧
    (xchItems q = true → getX s x.xid = none → (x.reuse = true → ∃ y, prior y) → 256 ≤ s.exchanges.length →
      exec (.xchSet p) s = .next (reply q Status.xchFull 0 s')) ∧
    (xchItems q = true → getX s x.xid = none → s.exchanges.length < 256 → x.reuse = false →
      ∃ t, exec (.xchSet p) s = .next t ∧ getX t x.xid = some x ∧ (∀ n, n ≠ x.xid → getX t n = getX s n) ∧
        OnlyChanges [.arrivals, .host, .exchanges, .cap] s t) ∧
    (∀ y, xchItems q = true → getX s x.xid = none → s.exchanges.length < 256 → x.reuse = true → prior y →
      ∃ t z, exec (.xchSet p) s = .next t ∧ getX t x.xid = some z ∧ z.granted = true ∧ z.counts = y.counts ∧ z.placed = y.placed ∧ z.t = y.t ∧ z.c = y.c ∧ z.copies = y.copies ∧
        z.spilled = y.spilled ∧ z.maxn = y.maxn ∧ z.step = x.step ∧ z.rts = x.rts ∧ z.moves = [] ∧
        (∀ e k, lookup e y.experts = some k → ∃ k', lookup e z.experts = some k' ∧ k'.n = k.n ∧ k'.n1 = k.n1 ∧ k'.n2 = k.n2 ∧ k'.received = []) ∧
        (∀ n, n ≠ x.xid → getX t n = getX s n) ∧ OnlyChanges [.arrivals, .host, .xing, .store, .exchanges, .cap, .mem, .knots, .plays] s t)

/-- COUNT, GRANT and row packets of a held exchange, come to this member (s₀: the state without the packet) with a step above COMMITTED. A COUNT is recorded, and with the last
one of every source the grant phase runs; a GRANT makes its source's DISPATCH send the admitted copies; a row that is admitted, new and reachable is
written to the receive grid, while one whose channel serves nothing waits, and one behind a closed crossing to the near tier is lost. A COUNT for an exchange that is
not declared yet waits. Packets of a step at or below COMMITTED, a COUNT
after the grant phase, and any that a crossing or a hop loses are gone without another effect; one that is not there does nothing. -/
def Claim.ExchangePhases : Prop :=
  (∀ (c : XCount) (x : Exchange) (y : Source × MeshItem) (s s₀ : State), getX s c.xid = some x →
    Comes (c.member == selfOf s x) (c.fmt, c.rowl) x.rts (.xcount c) y s s₀ →
    let z := { x with counts := x.counts ++ [c] }
    Lands (.xchCount c) y (fun t => if stalePacket s c.step = true ∨ x.granted = true then t
      else if countsComplete s z = true then grantPhase z t else setX z t) s s₀) ∧
  (∀ (c : XCount) (t : Transit) (s : State), getX s c.xid = none → stalePacket s c.step = false → exec (.xchCount c t) s = .next s) ∧
  (∀ (g : XGrant) (x : Exchange) (y : Source × MeshItem) (s s₀ : State), getX s g.xid = some x →
    Comes (localExpert s x g.expert).isSome ((rowShape x).getD (0, 1)) x.rts (.xgrant g) y s s₀ →
    (stalePacket s g.step = true ∨ (∀ m ∈ x.moves, m.tile ≠ g.tile) → Lands (.xchGrant g) y (fun t => t) s s₀) ∧
    (∀ xm, stalePacket s g.step = false → (x.moves.find? fun m => m.tile == g.tile) = some xm →
      let ym := { xm with grants := upsert g.expert g xm.grants }
      let z := { x with moves := x.moves.map fun m => if m.tile = g.tile then ym else m }
      Lands (.xchGrant g) y (fun t => sendRows z ym g (setX z t)) s s₀)) ∧
  (∀ (r : XRow) (t : Transit) (s : State), rowWaits s r.xid r.expert r.row = true → exec (.xchRow r t) s = .next s) ∧
  (∀ (r : XRow) (x : Exchange) (m : MapEntry) (e : XExpert) (shape : Nat × Nat) (y : Source × MeshItem) (s s₀ : State), getX s r.xid = some x →
    rowWaits s r.xid r.expert r.row = false → rowShape x = some shape →
    Comes (rowMember x r.expert r.row == some (selfOf s x)) shape x.rts (.xrow r) y s s₀ → localExpert s x r.expert = some m →
    lookup r.expert x.experts = some e →
    let g := rowSquares shape.1 shape.2
    let takes := stalePacket s r.step = false ∧ x.granted = true ∧ r.row < e.n1 + e.n2 ∧ lookup r.row e.received = none ∧
      ∀ k < g, (gridNear s m ((r.row / 128 * g + k) * sqSize shape.1) (sqSize shape.1)).isSome = true
    (xingClosed s 9 8 = true → ∀ t, exec (.xchRow r t) s = .next (losePacket 15 y s₀)) ∧
    (xingClosed s 9 8 = false → (takes → Lands (.xchRow r) y (acceptRow x shape m e r) s s₀) ∧ (¬takes → Lands (.xchRow r) y (fun t => t) s s₀))) ∧
  (∀ (x : Exchange) (shape : Nat × Nat) (m : MapEntry) (e : XExpert) (r : XRow) (s : State),
    let t := acceptRow x shape m e r s
    (∃ y k, getX t x.xid = some y ∧ lookup r.expert y.experts = some k ∧ k.received = upsert r.row r e.received ∧ k.n1 = e.n1 ∧ k.n2 = e.n2) ∧
      (∀ n, n ≠ x.xid → getX t n = getX s n) ∧ OnlyChanges [.exchanges, .mem, .near, .host, .xing, .store, .knots, .plays, .watch, .freeCtr] s t) ∧
  ∀ (x : Exchange) (xm : XMove) (g : XGrant) (m : MapEntry) (s : State), expertOf s x.rts g.expert = some m → m.member = selfOf s x →
    let base := tileAddr xm.tile (wf xm.word 64 16 * 128)
    sendRows x xm g s = { s with mesh := s.mesh ++ ((copiesOf xm g.expert).take g.admitted).zipIdx.map fun z =>
      (.queue xm.tile 8, .xrow { xid := x.xid, expert := g.expert, row := g.base + z.2, step := x.step
                                 elems := (tokenRow s base (wf xm.word 140 4) (wf xm.word 128 12) z.1.2.1).1
                                 scales := (tokenRow s base (wf xm.word 140 4) (wf xm.word 128 12) z.1.2.1).2 }) }

/-- The grant phase: the capacity of R418 (at most RMAX), CLAMP, and for every expert of this member its copies (N), the rows of the first pass (N1) and of the second
(N2) as R419 says; the counters of copies, spilled and dropped ones; and to each source of this member a GRANT with its base, the number of copies before it in the order
of R417, what is admitted above it, and whether copies are dropped or lie in the second pass. That order is the COUNTs', sorted by member (from STEP mod MEMBERS on with ROT) and then by tile. -/
def Claim.GrantPhasePlacesRows : Prop :=
  (∀ (x : Exchange) (f : XCount) (s : State), (orderedCounts s x).head? = some f →
    let t := (x.counts.map XCount.rows).sum
    let cap := if f.capm then cdiv (f.cap * t * f.k) (256 * max (expertsOf s x.rts).length 1) else f.cap
    let copies (e : Nat) := ((orderedCounts s x).map fun c => countFor c e).sum
    let u := grantPhase x s
    ∃ y, getX u x.xid = some y ∧ y.granted = true ∧ y.t = t ∧ y.c = min cap x.rmax ∧ y.clamp = decide (x.rmax < cap) ∧
      y.mismatch = x.counts.any (fun c => countSig c != countSig f) ∧
      y.copies = ((localExperts s x).map fun z => copies z.1).sum ∧
      y.dropped = x.dropped + ((localExperts s x).map fun z => copies z.1 - max (min (copies z.1) y.c) (min (copies z.1) (if f.ovf then x.rmax else y.c))).sum ∧
      (∀ e m, (e, m) ∈ localExperts s x →
        (∃ k, lookup e y.experts = some k ∧ k.n = copies e ∧ k.n1 = min k.n y.c ∧ k.n1 + k.n2 = max k.n1 (min k.n (if f.ovf then x.rmax else y.c))) ∧
        ∀ c b, (c, b) ∈ basesFor e 0 (orderedCounts s x) → c.member = selfOf s x →
          let a := min (countFor c e) ((if f.ovf then x.rmax else y.c) - b)
          (Source.engine (0x200 + tileField m.origin), MeshItem.xgrant {
            xid := x.xid, expert := e, tile := c.tile, base := b, step := x.step, admitted := a
            dropped := decide (a < countFor c e), spilled := decide (y.c < b + a) }) ∈ u.mesh) ∧
      (∀ n, n ≠ x.xid → getX u n = getX s n) ∧ OnlyChanges [.exchanges, .mesh, .ports, .knots, .plays, .mem, .host, .xing, .store] s u) ∧
  ∀ (x : Exchange) (s : State),
    let rank (c : XCount) := memberRank x (rtSet s x.rts).members c.member * 2048 + c.tile
    List.Perm (orderedCounts s x) x.counts ∧ (orderedCounts s x).Pairwise (fun a b => rank a ≤ rank b) ∧
      ∀ (e n i b : Nat) (l : List XCount) (c : XCount), (basesFor e n l)[i]? = some (c, b) →
        l[i]? = some c ∧ b = n + ((l.take i).map fun d => countFor d e).sum

/-- FETCH and RESULT of a held exchange, come to this member (s₀: the state without the packet) with a step above COMMITTED. A FETCH for an expert held here waits with the exchange, and every FETCH whose
returns are open is served: its line, if it can be read, goes out as a RESULT, undefined (free values) where its grid overlaps another expert's. A RESULT for a COMBINE that
waits is held, and the last one lets the COMBINE write
its rows; one behind a closed crossing is lost. Packets of a step at or below COMMITTED or without use are gone. -/
def Claim.ExchangeReturns : Prop :=
  (∀ (f : XFetch) (x : Exchange) (y : Source × MeshItem) (s s₀ : State), getX s f.xid = some x →
    Comes (f.member == selfOf s x) ((rowShape x).getD (0, 1)) x.rts (.xfetch f) y s s₀ →
    (stalePacket s f.step = false → (localExpert s x f.expert).isSome = true →
      Lands (.fetch f) y (fun t => serveFetches (setX { x with fetches := x.fetches ++ [f] } t)) s s₀) ∧
    (stalePacket s f.step = true ∨ localExpert s x f.expert = none → Lands (.fetch f) y (fun t => t) s s₀)) ∧
  (∀ (xid : Nat) (f : XFetch) (x : Exchange) (m : MapEntry) (elems : List Nat) (s : State), getX s xid = some x → localExpert s x f.expert = some m →
    returnLine s x m f.row = some elems →
    let shape := (rowShape x).getD (0, 1)
    let u := readReturns x m f.row (setX { x with fetches := x.fetches.filter fun y => y != f } s)
    let v := if gridsMeet u.2 x shape f.expert m then freeElems x.rfmt elems.length u.2 else (elems, u.2)
    let open_ := returnsOpen s x (tileField m.origin) = true ∧ returnsWait s x m f.row = false
    (open_ → u.1 = true → serveFetch xid s f = sendItem (.engine (0x200 + tileField m.origin)) shape x.rts f.member
      (.xresult { xid, expert := f.expert, row := f.row, tile := f.tile, elems := v.1, step := f.step }) v.2) ∧
    (open_ → u.1 = false → serveFetch xid s f = faultStep f.step v.2) ∧ (¬open_ → serveFetch xid s f = s)) ∧
  (∀ (r : XResult) (x : Exchange) (y : Source × MeshItem) (s s₀ : State), getX s r.xid = some x →
    Comes (localExpert s x r.expert).isSome ((rowShape x).getD (0, 1)) x.rts (.xresult r) y s s₀ →
    (xingClosed s (tileField r.tile) 8 = true → ∀ t, exec (.result r t) s = .next (losePacket 15 y s₀)) ∧
    (xingClosed s (tileField r.tile) 8 = false →
      (stalePacket s r.step = true ∨ waitingCombine s r.tile r.xid = none → Lands (.result r) y (fun t => t) s s₀) ∧
      (∀ p m, stalePacket s r.step = false → waitingCombine s r.tile r.xid = some (p, m) →
        let z := { x with results := upsert (resultKey r.tile r.expert r.row) r.elems x.results }
        Lands (.result r) y (fun t => let u := setX z t
          if combineReady u z r.tile m.word = true then markReady p r.tile 8 (combineWrite p r.tile m z u) else u) s s₀))) ∧
  ∀ (p : Play) (tile : Nat) (m : QMove) (x : Exchange) (s : State),
    OnlyChanges [.exchanges, .mem, .near, .host, .xing, .store, .plays, .watch] s (combineWrite p tile m x s)

/-- Packets of the exchange that have not come to this member, or not in their turn, do nothing; those for an exchange that it does not hold change no exchange. -/
def Claim.ExchangePacketsOutOfPlace : Prop :=
  (∀ (g : XGrant) (t : Transit) (s : State), getX s g.xid = none → ∃ u, exec (.xchGrant g t) s = .next u ∧ u.exchanges = s.exchanges) ∧
  (∀ (r : XRow) (t : Transit) (s : State), getX s r.xid = none → ∃ u, exec (.xchRow r t) s = .next u ∧ u.exchanges = s.exchanges) ∧
  (∀ (f : XFetch) (t : Transit) (s : State), getX s f.xid = none → ∃ u, exec (.fetch f t) s = .next u ∧ u.exchanges = s.exchanges) ∧
  (∀ (r : XResult) (t : Transit) (s : State), getX s r.xid = none → ∃ u, exec (.result r t) s = .next u ∧ u.exchanges = s.exchanges) ∧
  (∀ (c : XCount) (x : Exchange) (t : Transit) (s : State), getX s c.xid = some x →
    Absent (c.member == selfOf s x) (c.fmt, c.rowl) x.rts (.xcount c) s → exec (.xchCount c t) s = .next s) ∧
  (∀ (g : XGrant) (x : Exchange) (t : Transit) (s : State), getX s g.xid = some x →
    Absent (localExpert s x g.expert).isSome ((rowShape x).getD (0, 1)) x.rts (.xgrant g) s → exec (.xchGrant g t) s = .next s) ∧
  (∀ (r : XRow) (x : Exchange) (t : Transit) (s : State), getX s r.xid = some x →
    Absent (rowMember x r.expert r.row == some (selfOf s x)) ((rowShape x).getD (0, 1)) x.rts (.xrow r) s → exec (.xchRow r t) s = .next s) ∧
  (∀ (f : XFetch) (x : Exchange) (t : Transit) (s : State), getX s f.xid = some x →
    Absent (f.member == selfOf s x) ((rowShape x).getD (0, 1)) x.rts (.xfetch f) s → exec (.fetch f t) s = .next s) ∧
  ∀ (r : XResult) (x : Exchange) (t : Transit) (s : State), getX s r.xid = some x →
    Absent (localExpert s x r.expert).isSome ((rowShape x).getD (0, 1)) x.rts (.xresult r) s → exec (.result r t) s = .next s

/-- XCH_GET, admitted: a count that is not 1 to 256 or that passes XID 65,535 replies XCH_VALUE, a destination it may not write ADDR_RANGE; else the 64 B records of the
named exchanges are written, zeros for one that is not held, and the reply is 0x0000. -/
def Claim.ExchangeRecords : Prop :=
  ∀ (p : Packet) (s : State), Admitted 0x0603 p s →
    let first := item p.param 0 2
    let cnt := item p.param 2 2
    let dest := item p.param 8 8
    let ok := 1 ≤ cnt ∧ cnt ≤ 256 ∧ first + cnt ≤ 65536
    (¬ok → exec (.xchGet p) s = .next (reply p Status.xchValue 0 (arrived s))) ∧
    (ok → destOk s dest (64 * cnt) true = false → exec (.xchGet p) s = .next (reply p Status.addrRange 0 (arrived s))) ∧
    (ok → destOk s dest (64 * cnt) true = true →
      exec (.xchGet p) s = .next (accept p (destWrite p.origin dest
        ((List.range cnt).flatMap fun k => (getX s (first + k)).elim (List.replicate 64 0) xchRecord) (arrived s))))

/-! ### Plays and moves (chapter 07) -/

/-- A move row puts its move at the end of its engine queue, one place on in its tile's list, and starts what can start; with the queue full, or on a tile
whose sequencer cannot dispatch, it does nothing. Starting what can start in every queue changes nothing where no play is. -/
def Claim.MoveRowsDispatch : Prop :=
  (∀ (c : Instr) (p : Play) (q : Sequencer) (m : QMove) (tile code : Nat) (s s₁ : State), Fetches c p q m tile code s s₁ →
    opOf m.word ∉ [0x00, 0x01, 0x02, 0x06] →
    let n := ((getQueue p tile code).elim [] TileQueue.moves).length
    (n < queueDepth code → exec c s = .next (pump p.order tile code (queued p tile code m s₁))) ∧ (queueDepth code ≤ n → exec c s = .next s)) ∧
  (∀ (c : Instr) (op tile : Nat) (f : MoveFault) (s : State), moveRow c = some (op, tile, f) → dispatcher s tile = none → exec c s = .next s) ∧
  (∀ s : State, s.plays = [] → pumpAll s = s) ∧
  ∀ s : State, OnlyChanges [.cap, .caches, .parts, .knots, .ports, .fields, .watch, .host, .xing, .ramp, .plays, .mesh, .exchanges, .freeCtr, .store, .rel, .mem, .near]
    s (pumpAll s)

/-- What a row's fetch and the checks of its word answer, in order: a fetch outside every region ends the play with its status, one of a retired or bad granule
faults it (1), one over a closed crossing faults it (15), one from a channel that serves nothing now waits without effect; an illegal opcode is MOVE_OPCODE; another row's move does nothing; then an END out of place, a
QUEUE code that is not legal, a lead-only move on another tile, a bad field of a move that the sequencer itself executes. -/
def Claim.MoveRowsAreChecked : Prop :=
  ∀ (c : Instr) (op tile : Nat) (f : MoveFault) (p : Play) (q : Sequencer) (s : State), moveRow c = some (op, tile, f) → dispatcher s tile = some (p, q) →
    match fetchMove p q s with
    | .fail st s₁ => exec c s = .next (failPlay p.order (moveFailure st { word := 0, idx := q.next, frame := {} } tile) s₁)
    | .bad s₁ => exec c s = .next (faultPlay p.order 1 (0, q.next, tile) s₁)
    | .wait => exec c s = .next s
    | .stopped => exec c s = .next (faultPlay p.order 15 (0, q.next, tile) s)
    | .word w s₁ =>
      let ends (st : BitVec 16) : Prop := exec c s = .next (failPlay p.order (moveFailure st { word := w, idx := q.next, frame := {} } tile) s₁)
      let enc := encMoveWord (128 * shapeRows p.shape) w
      (opLegal (opOf w) = false → ends Status.moveOpcode) ∧ (opLegal (opOf w) = true → opOf w ≠ op → exec c s = .next s) ∧
      (opOf w = op → ¬(op = 0x01 ↔ q.next + 1 = q.count) → ends (if enc && (queueOf w).isSome then Status.playFormat else Status.moveField)) ∧
      (opOf w = op → (op = 0x01 ↔ q.next + 1 = q.count) → queueOf w = none → ends Status.moveField) ∧
      (∀ code, opOf w = op → (op = 0x01 ↔ q.next + 1 = q.count) → queueOf w = some code →
        ((code = 1 ∨ leadOnly op = true) → tile ≠ p.org → ends (if enc then Status.playFormat else Status.moveField)) ∧
        (op ∈ [0x00, 0x01, 0x02, 0x06] → (leadOnly op = true → tile = p.org) → enc = false → ends Status.moveField))

/-- At the head of an empty queue a move starts at once, on ARR as soon as it is issued. One that runs stands there started, its destinations noted; one that is done
leaves with its tie; a failed check ends the play with that status, a fault masks the play, and a move that must wait stands unstarted. -/
def Claim.IdleQueueStartsMove : Prop :=
  ∀ (c : Instr) (p : Play) (tile code : Nat) (m : QMove) (s s₂ : State), Starts c p tile code m s s₂ → StartedAs c p tile code m s s₂ (startAny p tile code m s₂)

/-- On the lead's empty ARR queue: SXT is held for its STREAM, and a second SXT, or an SXT before another move than STREAM, ends the play with PLAY_FORMAT (with
MOVE_FIELD where the word is ill formed). Any other move is issued: it takes its queue's frame and, if it is a STREAM, the SXT before it, which it uses up. -/
def Claim.ArrayQueueStartsMove : Prop :=
  (∀ (p : Play) (tile : Nat) (m : QMove) (s s₂ : State), AtHead (.sxt tile) p tile 1 m s s₂ →
    (encCommon m.word = true → encSxt m.word = true → sxtOf p tile = none →
      exec (.sxt tile) s = .next (setSxt p.order tile (some m.word) (makeTie p tile m.word (dropMove p.order tile 1 0 s₂)))) ∧
    (encCommon m.word = true → encSxt m.word = true → (sxtOf p tile).isSome = true → FailsWith (.sxt tile) p tile m Status.playFormat s s₂) ∧
    (encCommon m.word = false ∨ encSxt m.word = false → FailsWith (.sxt tile) p tile m Status.moveField s s₂)) ∧
  (∀ (c : Instr) (p : Play) (tile : Nat) (m : QMove) (s s₂ : State), AtHead c p tile 1 m s s₂ → opOf m.word ∉ [0x12, 0x13] → (sxtOf p tile).isSome = true →
    FailsWith c p tile m (if encMoveWord (128 * shapeRows p.shape) m.word then Status.playFormat else Status.moveField) s s₂) ∧
  (∀ (c : Instr) (p : Play) (tile : Nat) (m : QMove) (s s₂ : State), Issued c p tile m s s₂ →
    m.issued = true ∧ (∃ x, getQueue p tile 1 = some x ∧ x.moves = [m] ∧ m.frame = x.frame) ∧ (opOf m.word ≠ 0x12 → m.sxt = none) ∧
      (opOf m.word = 0x12 → sxtOf p tile = none)) ∧
  ∀ (before : List QMove) (m : QMove) (op : Nat),
    (m.issued = false → (nextArr 0 before [m] = none ↔ ∃ e ∈ before, opOf e.word = 0x04)) ∧
    (arrReady before op = true ↔
      (op = 0x10 → ∀ e ∈ before, opOf e.word ≠ 0x10 ∧ (opOf e.word = 0x11 → e.started = true)) ∧
      (op = 0x11 → ∀ e ∈ before, opOf e.word ≠ 0x10 ∧ (opOf e.word = 0x11 → e.started = true) ∧
        (opOf e.word = 0x12 → e.started = true ∧ admitted e = true)) ∧
      (op = 0x12 → ∀ e ∈ before, (opOf e.word = 0x11 → e.started = true) ∧ (opOf e.word = 0x12 → e.started = true ∧ admitted e = true)) ∧
      (op = 0x03 ∨ op = 0x05 → before = []))

/-- R171: move k of a list is the 32 bytes at LIST × 128 + 32 k of the image, or of the line-cache copy of its unit. An END that is not the last move of its list,
or a last move that is not END, ends the play with 0x0110 PLAY_FORMAT at its fetch (one whose word is ill formed fails R187's check, with MOVE_FIELD). -/
def Claim.ListsEndWithEnd : Prop :=
  (∀ (p : Play) (q : Sequencer) (s : State), p.image % 128 = 0 →
    let a := p.image + q.list * 128 + 32 * q.next
    (∀ d s₁, cacheRead s q.tile (a / 128) = some (d, s₁) → fetchMove p q s = .word (BitVec.ofNat 256 (item d (a % 128) 32)) s₁) ∧
    (cacheRead s q.tile (a / 128) = none → (inRegion s (a / 128 * 128) 128).isSome = true → xingClosed s (tileField q.tile) 8 = false →
      xingClosed s 9 8 = false → nearWaits s a = false → isRetired s a = false → isPoisoned s a = false →
      ∃ s₁, fetchMove p q s = .word (BitVec.ofNat 256 (readN s a 32)) s₁)) ∧
  (∀ (c : Instr) (op tile : Nat) (f : MoveFault) (p : Play) (q : Sequencer) (w : MoveWord) (s s₁ : State), moveRow c = some (op, tile, f) →
    dispatcher s tile = some (p, q) → fetchMove p q s = .word w s₁ → opOf w = op → getPlay s₁ p.order = some p → ¬(op = 0x01 ↔ q.next + 1 = q.count) →
    let m : QMove := { word := w, idx := q.next, frame := {} }
    let formed := encMoveWord (128 * shapeRows p.shape) w && (queueOf w).isSome
    Status.playFormat = 0x0110 ∧ (formed = true → FailsWith c p tile m Status.playFormat s s₁) ∧
      (formed = false → FailsWith c p tile m Status.moveField s s₁))

/-- R192: FIREAT's CT word is bits [127:64]. While the tile's copy of CT is before it no later move of its list is dispatched; FIREAT_RELEASE lets the list go
on once the copy has reached the word, or reaches it within the present beat, and does nothing before. A FIREAT whose CT has passed holds nothing and
reports nothing. -/
def Claim.FireatHoldsItsList : Prop :=
  ∀ (p : Play) (q : Sequencer) (m : QMove) (tile : Nat) (s s₁ : State), Fetches (.fireat tile) p q m tile 0 s s₁ → (getQueue p tile 0).isSome = true →
    encMoveWord (128 * shapeRows p.shape) m.word = true →
    let v := m.word.toNat / 2 ^ 64 % 2 ^ 64
    ((routerCt s₁ tile).toNat < v →
      ∃ t, exec (.fireat tile) s = .next t ∧ (∀ c op f, moveRow c = some (op, tile, f) → exec c t = .next t) ∧
        ∀ cad xing, let u : State := { t with cad, xing }
          (timeTo (BitVec.ofNat 64 v) u = none → exec (.fireatRelease tile) u = .next u) ∧
          ∀ u', timeTo (BitVec.ofNat 64 v) u = some u' →
            ((routerCt u' tile).toNat < v → exec (.fireatRelease tile) u = .next u) ∧
            (v ≤ (routerCt u' tile).toNat → ∃ x y z, exec (.fireatRelease tile) u = .next x ∧ getPlay x p.order = some y ∧
              getQueue y tile 0 = some z ∧ z.moves = [])) ∧
    (v ≤ (routerCt s₁ tile).toNat →
      ∃ t, exec (.fireat tile) s = .next t ∧ t = makeTie p tile m.word (stepSeq p.order tile s₁) ∧ t.host = s₁.host)

/-- NOP, FIREAT, PART and END, their words well formed: NOP only makes its tie; a FIREAT whose time the tile's copy of CT has reached is past, any other stands in
the tile's queue 0; PART records the cut for the end of the play, a second PART ends it with PLAY_FORMAT; END waits, without effect, while a queue of
its tile holds a move, ends the play with PLAY_FORMAT where an SXT still waits, and else retires its tile. -/
def Claim.SequencerMoves : Prop :=
  ∀ (p : Play) (q : Sequencer) (m : QMove) (tile : Nat) (s s₁ : State),
    encMoveWord (128 * shapeRows p.shape) m.word = true →
    (Fetches (.moveNop tile) p q m tile 0 s s₁ → exec (.moveNop tile) s = .next (makeTie p tile m.word (stepSeq p.order tile s₁))) ∧
    (Fetches (.fireat tile) p q m tile 0 s s₁ → wf m.word 64 64 ≤ (routerCt s₁ tile).toNat →
      exec (.fireat tile) s = .next (makeTie p tile m.word (stepSeq p.order tile s₁))) ∧
    (Fetches (.fireat tile) p q m tile 0 s s₁ → (routerCt s₁ tile).toNat < wf m.word 64 64 →
      exec (.fireat tile) s =
        .next (modQueue p.order tile 0 (fun x => { x with moves := [{ m with started := true }] }) (stepSeq p.order tile s₁))) ∧
    (Fetches (.partMove tile) p q m tile 0 s s₁ → p.cut = none →
      ∃ t y, exec (.partMove tile) s = .next t ∧ getPlay t p.order = some y ∧ y.cut = some (wf m.word 64 11, wf m.word 75 3, wf m.word 78 3) ∧
        OnlyChanges [.plays, .knots] s₁ t) ∧
    (Fetches (.partMove tile) p q m tile 0 s s₁ → p.cut.isSome = true → FailsWith (.partMove tile) p tile m Status.playFormat s s₁) ∧
    (Fetches (.endMove tile) p q m tile 0 s s₁ → (∃ z ∈ p.queues, z.tile = tile ∧ z.moves ≠ []) → exec (.endMove tile) s = .next s₁) ∧
    (Fetches (.endMove tile) p q m tile 0 s s₁ → (∀ z ∈ p.queues, z.tile = tile → z.moves = []) → (sxtOf p tile).isSome = true →
      FailsWith (.endMove tile) p tile m Status.playFormat s s₁) ∧
    (Fetches (.endMove tile) p q m tile 0 s s₁ → (∀ z ∈ p.queues, z.tile = tile → z.moves = []) → sxtOf p tile = none →
      ∃ t y, exec (.endMove tile) s = .next t ∧ getPlay t p.order = some y ∧ (∀ z ∈ y.seqs, z.tile = tile → z.ended = true) ∧
        OnlyChanges [.plays, .knots] s₁ t)

/-- A completed move with TIE adds 1 to its knot TKNOT, with TALL to that knot of every tile of the partition, and without TIE changes nothing. -/
def Claim.CompletionTies : Prop :=
  ∀ (p : Play) (tile : Nat) (w : MoveWord) (s : State),
    let t := makeTie p tile w s
    OnlyChanges [.knots] s t ∧ (wb w 8 = false → t = s) ∧
    (wb w 8 = true → wb w 16 = false → knot t (tileKnot tile (wf w 9 7)) = knot s (tileKnot tile (wf w 9 7)) + 1 ∧
      ∀ k, k ≠ tileKnot tile (wf w 9 7) → knot t k = knot s k) ∧
    (wb w 8 = true → wb w 16 = true →
      (∀ x ∈ tilesOf p.org p.shape, knot t (tileKnot x (wf w 9 7)) = knot s (tileKnot x (wf w 9 7)) + 1) ∧
      ∀ k, (∀ x ∈ tilesOf p.org p.shape, k ≠ tileKnot x (wf w 9 7)) → knot t k = knot s k)

/-- KSET, TIE, WAIT and IFRAME at the head of an empty queue (on ARR with no SXT before them), their words well formed. KSET sets its knot and is done; a TIE to
the tile's own knot adds its amount modulo 2^32; one to another tile, a capstan or the exchange unit leaves as a packet, one to the partition as a packet
for each tile, and runs until they arrive, or faults the play (15) over a closed crossing; a satisfied WAIT is done, any other runs; IFRAME sets the
queue's frame. An ill-formed word ends the play with MOVE_FIELD. -/
def Claim.KnotMoves : Prop :=
  ∀ (p : Play) (tile code : Nat) (m : QMove) (s s₂ : State), (code = 1 → sxtOf p tile = none) →
    let w := m.word
    let done (t : State) := noteAll (makeTie p tile w (noteStart p.order tile m s₂ (dropMove p.order tile code 0 t)))
    let k := tileKnot tile (wf w 68 7)
    let v := BitVec.ofNat 32 (wf w 75 32)
    let shut := xingClosed s₂ (tileField tile) 8 || (wf w 68 3 == 3 && xingClosed s₂ 10 8)
    let packet (x : Nat) : Source × MeshItem := (.queue tile code, .tie (wf w 68 3) x (wf w 71 7) (BitVec.ofNat 32 (wf w 89 32)) tile code)
    (AtHead (.kset tile) p tile code m s s₂ → encCommon w = true → encKset w = true → exec (.kset tile) s = .next (done (setKnot k v s₂))) ∧
    (AtHead (.tie tile) p tile code m s s₂ → encCommon w = true → encTie w = true → wf w 68 3 = 0 →
      exec (.tie tile) s = .next (done (addKnot (tileKnot tile (wf w 71 7)) (BitVec.ofNat 32 (wf w 89 32)) s₂))) ∧
    (AtHead (.tie tile) p tile code m s s₂ → encCommon w = true → encTie w = true → wf w 68 3 ≠ 0 → shut = false →
      ∃ t, exec (.tie tile) s = .next t ∧ RunsAtHead t p.order tile code ∧ OnlyChanges [.plays, .mesh] s₂ t ∧
        t.mesh = s₂.mesh ++ (if wf w 68 3 = 2 then tilesOf p.org p.shape else [wf w 78 11]).map packet) ∧
    (AtHead (.tie tile) p tile code m s s₂ → encCommon w = true → encTie w = true → wf w 68 3 ≠ 0 → shut = true →
      FaultsWith (.tie tile) p tile m 15 [] s s₂) ∧
    (AtHead (.wait tile) p tile code m s s₂ → encCommon w = true → encWait w = true →
      (waitMet (knot s₂ k) v = true → exec (.wait tile) s = .next (done s₂)) ∧
      (waitMet (knot s₂ k) v = false → ∃ t, exec (.wait tile) s = .next t ∧ RunsAtHead t p.order tile code ∧ OnlyChanges [.plays] s₂ t)) ∧
    (AtHead (.iframe tile) p tile code m s s₂ → encCommon w = true → encIframe w = true →
      ∃ t y x, exec (.iframe tile) s = .next t ∧ getPlay t p.order = some y ∧ getQueue y tile code = some x ∧ x.frame = frameOf w ∧ x.moves = [] ∧
        OnlyChanges [.plays, .knots] s₂ t) ∧
    (∀ c enc, (c, enc) ∈ [(Instr.kset tile, encKset w), (.tie tile, encTie w), (.wait tile, encWait w), (.iframe tile, encIframe w)] →
      AtHead c p tile code m s s₂ → (encCommon w && enc) = false → FailsWith c p tile m Status.moveField s s₂)

/-- The knot operations and the test of a WAIT: KSET's value stands, a tie's amount is added modulo 2^32, no other knot changes; a WAIT on knot k with target T is
satisfied while (k − T) mod 2^32 is less than 2^31. -/
def Claim.KnotsCount : Prop :=
  (∀ (k : Nat) (v : W32) (s : State), knot (setKnot k v s) k = v ∧ (∀ j, j ≠ k → knot (setKnot k v s) j = knot s j) ∧
    knot (addKnot k v s) k = knot s k + v ∧ (∀ j, j ≠ k → knot (addKnot k v s) j = knot s j)) ∧
  ∀ k t : W32, waitMet k t = true ↔ (k.toNat + 2 ^ 32 - t.toNat) % 2 ^ 32 < 2 ^ 31

/-- The selection of TOPK: at most K entries, none NaN, in descending order, equal logits by ascending index; one left out is NaN, or K are taken and none of
them is smaller, nor equal with a higher index. -/
def Claim.TopkRanks : Prop :=
  ∀ (k : Nat) (l : List (Nat × W32)), l.Pairwise (fun a b => a.1 < b.1) →
    (topk k l).length ≤ k ∧ (∀ x ∈ topk k l, x ∈ l ∧ isNan32 x.2 = false) ∧
    (topk k l).Pairwise (fun a b => ltVal a.2 b.2 = false ∧ (ltVal b.2 a.2 = false → a.1 < b.1)) ∧
    ∀ y ∈ l, y ∉ topk k l → isNan32 y.2 = true ∨
      ((topk k l).length = k ∧ ∀ x ∈ topk k l, ltVal x.2 y.2 = false ∧ (ltVal y.2 x.2 = false → x.1 < y.1))

/-- TOPK at the head of an empty PLY queue, its checks passed, runs, a lane fault that the reissue masks included: it writes its index and weight tables and no
other byte, counts conversions, and changes nothing else of the module; rank j of row i names the j-th of the row's greatest logits, 0xFFFF where there is
none. An ill-formed word, a range of E or K outside R203, a bad operand header and an extent outside the store end the play in that order. -/
def Claim.TopkRuns : Prop :=
  ∀ (l : LaneFault) (p : Play) (tile : Nat) (m : QMove) (s s₂ : State), AtHead (.topk tile l) p tile 2 m s s₂ →
    let w := m.word
    let e := wf w 64 13
    let k := wf w 77 4
    let rows := wf w 140 20
    let src := wf w 92 16 * 128
    let idx := wf w 108 16 * 128
    let wts := wf w 124 16 * 128
    let b := if wb w 87 then 2 else 4
    let per := cdiv e 128
    let nsq := sqsOf (rows * per)
    let formed := encCommon w && encTopk w
    let ranged := decide (1 ≤ e) && decide (e ≤ 4096) && decide (1 ≤ k) && decide (k ≤ 8)
    let heads := operandCheck s₂ [(tileAddr tile src, wf w 83 4, nsq)]
    let fits := storeOk s₂ p tile src (nsq * sqSize (wf w 83 4)) && storeOk s₂ p tile idx (2 * k * rows) && storeOk s₂ p tile wts (b * k * rows)
    (formed = false → FailsWith (.topk tile l) p tile m Status.moveField s s₂) ∧
    (formed = true → ranged = false → FailsWith (.topk tile l) p tile m Status.topkRange s s₂) ∧
    (∀ st, formed = true → ranged = true → heads = some st → FailsWith (.topk tile l) p tile m st s s₂) ∧
    (formed = true → ranged = true → heads = none → fits = false → FailsWith (.topk tile l) p tile m Status.addrRange s s₂) ∧
    (l = .none ∨ l = .once → formed = true → ranged = true → heads = none → fits = true →
      ∃ t, exec (.topk tile l) s = .next t ∧ RunsAtHead t p.order tile 2 ∧ Masked l s₂ t ∧
        t.mem = ((List.range rows).foldl (fun s i => topkRow p tile m i s) s₂).mem ∧
        KeepsBytes [(tileAddr tile idx, 2 * k * rows), (tileAddr tile wts, b * k * rows)] s₂ t ∧
        OnlyChanges [.plays, .mem, .watch, .host, .store, .xing] s₂ t ∧
        (Inv s₂ → Apart idx (2 * k * rows) src (nsq * sqSize (wf w 83 4)) → Apart wts (b * k * rows) src (nsq * sqSize (wf w 83 4)) →
          Apart idx (2 * k * rows) wts (b * k * rows) → ∀ i j, i < rows → j < k →
            let logits := ((List.range per).flatMap fun n => runLine s₂ (tileAddr tile src) (wf w 83 4) false (i * per + n)).take e
            readN t (tileAddr tile (idx + 2 * (i * k + j))) 2 = ((topk k (logits.zipIdx.map fun (x, n) => (n, x)))[j]?).elim 0xFFFF Prod.fst))

/-- Rows of GATHER, SCATTER and SCATTER_ADD, of n bytes, where source, indices and destination lie apart and every index is below LIMIT: GATHER's row i is source row
index(i); SCATTER's row index(i) is source row i, a later one over an earlier; SCATTER_ADD adds source rows into their destination in FP32 in order. Every
byte outside the rows written stays; wherever the ranges lie, one outside the destination does. An index at or beyond LIMIT stops the move there. -/
def Claim.RowsMove : Prop :=
  ∀ (op tile : Nat) (w : MoveWord) (s : State), op ∈ [0x25, 0x26, 0x27] → Inv s →
    let n := wf w 152 12 * 128
    let cnt := wf w 112 20
    let lim := wf w 132 20
    let src := wf w 64 16 * 128
    let dst := wf w 80 16 * 128
    let tbl := wf w 96 16 * 128
    let ix (i : Nat) := readN s (tileAddr tile (tbl + 4 * i)) 4
    let srcN := (if op = 0x25 then lim else cnt) * n
    let dstN := (if op = 0x25 then cnt else lim) * n
    let r := gatherRows tile op w (List.range cnt) s
    let elem (t : State) (base i k : Nat) := BitVec.ofNat 32 (readN t (tileAddr tile (base + i * n + 4 * k)) 4)
    KeepsBytes [(tileAddr tile dst, dstN)] s r.2 ∧ OnlyChanges [.mem] s r.2 ∧
    (Apart src srcN dst dstN → Apart tbl (4 * cnt) dst dstN →
      (r.1 = true ↔ ∀ i < cnt, ix i < lim) ∧
      (∀ k < cnt, lim ≤ ix k → (∀ i < k, ix i < lim) → r.2 = (gatherRows tile op w (List.range k) s).2) ∧
      (r.1 = true →
        KeepsBytes ((List.range cnt).map fun i => (tileAddr tile (dst + (if op = 0x25 then i else ix i) * n), n)) s r.2 ∧
        (op = 0x25 → ∀ i < cnt, readBytes r.2 (tileAddr tile (dst + i * n)) n = readBytes s (tileAddr tile (src + ix i * n)) n) ∧
        (op = 0x26 → ∀ i < cnt, (∀ j, i < j → j < cnt → ix j ≠ ix i) →
          readBytes r.2 (tileAddr tile (dst + ix i * n)) n = readBytes s (tileAddr tile (src + i * n)) n) ∧
        (op = 0x27 → ∀ x < lim, ∀ k < n / 4, elem r.2 dst x k =
          ((List.range cnt).filter fun i => ix i == x).foldl (fun a i => add32 a (elem s src i k)) (elem s dst x k))))

/-- GATHER, SCATTER and SCATTER_ADD at the head of an empty PLY queue: an ill-formed word, a scaled row format that no destination may have, a bad header at SRC
and an extent outside the store end the play in that order; an index at or beyond LIMIT ends it with INDEX_RANGE, the rows of earlier indices written;
else the rows move, and nothing but memory and the play changes (beside what a masked lane fault of SCATTER_ADD leaves). -/
def Claim.GatherScatterRun : Prop :=
  ∀ (l : LaneFault) (op : Nat) (c : Instr) (p : Play) (tile : Nat) (m : QMove) (s s₂ : State),
    (op, c) ∈ [(0x25, Instr.gather tile), (0x26, .scatter tile), (0x27, .scatterAdd tile l)] → AtHead c p tile 2 m s s₂ →
    let w := m.word
    let n := wf w 152 12 * 128
    let cnt := wf w 112 20
    let lim := wf w 132 20
    let formed := encCommon w && encGather op w
    let pair := fmtScaleField (wf w 164 4)
    let heads := operandCheck s₂ [(tileAddr tile (wf w 64 16 * 128), wf w 164 4, 1)]
    let fits := storeOk s₂ p tile (wf w 64 16 * 128) ((if op = 0x25 then lim else cnt) * n) &&
      storeOk s₂ p tile (wf w 80 16 * 128) ((if op = 0x25 then cnt else lim) * n) && storeOk s₂ p tile (wf w 96 16 * 128) (4 * cnt)
    let r := gatherRows tile op w (List.range cnt) s₂
    (formed = false → FailsWith c p tile m Status.moveField s s₂) ∧
    (formed = true → pair = true → FailsWith c p tile m Status.fmtPair s s₂) ∧
    (∀ st, formed = true → pair = false → heads = some st → FailsWith c p tile m st s s₂) ∧
    (formed = true → pair = false → heads = none → fits = false → FailsWith c p tile m Status.addrRange s s₂) ∧
    (formed = true → pair = false → heads = none → fits = true → r.1 = false →
      ∃ t y, exec c s = .next t ∧ getPlay t p.order = some y ∧ y.fail = some (moveFailure Status.indexRange m tile) ∧ (∀ z ∈ y.seqs, z.stopped = true) ∧
        y.dests = p.dests ∧ t.mem = r.2.mem ∧ OnlyChanges [.plays, .mem] s₂ t) ∧
    (formed = true → pair = false → heads = none → fits = true → r.1 = true → (op = 0x27 → l = .none ∨ l = .once) →
      ∃ t, exec c s = .next t ∧ RunsAtHead t p.order tile 2 ∧ t.mem = r.2.mem ∧ OnlyChanges [.plays, .mem, .host, .store, .xing] s₂ t ∧
        Masked (if op = 0x27 then l else .none) s₂ t)

/-- PACK at the head of an empty PLY queue: an ill-formed word, formats that R205 does not pair and an extent outside the store end the play in that order; a
tensor-scaled PACK waits, without effect, for its knot; else each square is converted, and no byte outside the destination changes. Where the operands lie
apart from it, element (i, j) of square q is the conversion of the source element, by row or by column as AXIS says, and a scaled square's
descriptor holds its format, AXIS, SCALE and AMAX. -/
def Claim.PackRuns : Prop :=
  ∀ (l : LaneFault) (p : Play) (tile : Nat) (m : QMove) (s s₂ : State), AtHead (.pack tile l) p tile 2 m s s₂ →
    let w := m.word
    let sf := wf w 96 4
    let df := wf w 100 4
    let n := wf w 111 16
    let src := wf w 64 16 * 128
    let dst := wf w 80 16 * 128
    let srcN := n * sqSize sf + (if fmtSquare df then cdiv (4 * n) 128 * 128 else 0)
    let formed := encCommon w && encPack w
    let pair := decide (sf ≤ 2) && decide (3 ≤ df)
    let fits := storeOk s₂ p tile src srcN && storeOk s₂ p tile dst (n * sqSize df) && (!fmtTensor df || storeOk s₂ p tile (wf w 166 16 * 128) 4)
    let ready := !fmtTensor df || waitMet (knot s₂ (tileKnot tile (wf w 127 7))) (BitVec.ofNat 32 (wf w 134 32))
    (formed = false → FailsWith (.pack tile l) p tile m Status.moveField s s₂) ∧
    (formed = true → pair = false → FailsWith (.pack tile l) p tile m Status.fmtPair s s₂) ∧
    (formed = true → pair = true → fits = false → FailsWith (.pack tile l) p tile m Status.addrRange s s₂) ∧
    (formed = true → pair = true → fits = true → ready = false → exec (.pack tile l) s = .next s₂) ∧
    (l = .none ∨ l = .once → formed = true → pair = true → fits = true → ready = true →
      ∃ t, exec (.pack tile l) s = .next t ∧ RunsAtHead t p.order tile 2 ∧ Masked l s₂ t ∧ KeepsBytes [(tileAddr tile dst, n * sqSize df)] s₂ t ∧
        t.mem = ((List.range n).foldl (fun s q => packSquare p tile m q s) s₂).mem ∧ OnlyChanges [.plays, .mem, .watch, .host, .store, .xing] s₂ t ∧
        (Inv s₂ → Apart src srcN dst (n * sqSize df) → (fmtTensor df = true → Apart (wf w 166 16 * 128) 4 dst (n * sqSize df)) → ∀ q < n,
          let b := tileAddr tile dst + q * sqSize df
          let a := tileAddr tile src + q * sqSize sf
          let margin := wf w 106 2
          let sc := if fmtTensor df then scaleOfAmax df (parF s₂ tile (wf w 166 16 * 128)) margin
            else if fmtSquare df then scaleOfAmax df (parF s₂ tile (src + n * sqSize sf + 4 * q)) margin else 0
          let die (i j : Nat) := playDie p (sidOf w) (let c := runCoord m.frame (128 * q + i) j; frameIdx m.frame 128 c.1 c.2)
          let conv (r : Nat → W32) (xs : List FVal) := (convLine df margin (wb w 105 || wf w 108 3 == 2) r sc xs {}).1
          (∀ i j, i < 128 → j < 128 → sqBits t b df i j =
            (if wb w 104 then (conv (fun x => die x j) ((List.range 128).map fun x => sqElem s₂ a sf x j)).getD i 0
              else (conv (die i) ((List.range 128).map fun x => sqElem s₂ a sf i x)).getD j 0) % 2 ^ fmtBits df) ∧
          (fmtScaled df = true → sqFmt t b = df ∧ sqAxis t b = wf w 104 1 ∧ sqScale t b = (if fmtMx df then 0x3F800000 else scale32 sc) ∧
            sqAmax t b = amax32 ((List.range 128).flatMap fun i => (List.range 128).map fun j => sqElem s₂ a sf i j))))

/-- ELEM at the head of an empty PLY queue: an ill-formed word, a destination format with a SCALE, a bad operand header and an extent outside the store end the
play in that order; else it runs, and no byte outside its destination changes. Where the operands lie apart from the destination, element j of line k is
the conversion of the operation on the operands' elements (of COPY, the operand's own bits), and the lines behind the last are +0. -/
def Claim.ElemRuns : Prop :=
  ∀ (l : LaneFault) (p : Play) (tile : Nat) (m : QMove) (s s₂ : State), AtHead (.elem tile l) p tile 2 m s s₂ →
    let w := m.word
    let fn := wf w 64 6
    let n := wf w 160 24
    let nsq := sqsOf n
    let df := wf w 82 4
    let dst := wf w 144 16 * 128
    let bsc := wb w 89
    let ops := [(wf w 96 16 * 128, wf w 70 4)] ++ (if elemUsesB fn && !bsc then [(wf w 112 16 * 128, wf w 74 4)] else []) ++
      (if elemUsesC fn then [(wf w 128 16 * 128, wf w 78 4)] else [])
    let scalar := elemUsesB fn && bsc
    let formed := encCommon w && encElem w
    let heads := operandCheck s₂ (ops.map fun x => (tileAddr tile x.1, x.2, nsq))
    let fits := ops.all (fun x => storeOk s₂ p tile x.1 (nsq * sqSize x.2)) && storeOk s₂ p tile dst (destBytes df nsq) &&
      (!scalar || storeOk s₂ p tile (wf w 112 16 * 128) 4)
    (formed = false → FailsWith (.elem tile l) p tile m Status.moveField s s₂) ∧
    (formed = true → fmtScaleField df = true → FailsWith (.elem tile l) p tile m Status.fmtPair s s₂) ∧
    (∀ st, formed = true → fmtScaleField df = false → heads = some st → FailsWith (.elem tile l) p tile m st s s₂) ∧
    (formed = true → fmtScaleField df = false → heads = none → fits = false → FailsWith (.elem tile l) p tile m Status.addrRange s s₂) ∧
    (l = .none ∨ l = .once → formed = true → fmtScaleField df = false → heads = none → fits = true →
      ∃ t, exec (.elem tile l) s = .next t ∧ RunsAtHead t p.order tile 2 ∧ Masked l s₂ t ∧ KeepsBytes [(tileAddr tile dst, destBytes df nsq)] s₂ t ∧
        OnlyChanges [.plays, .mem, .watch, .freeCtr, .host, .store, .xing] s₂ t ∧
        (Inv s₂ → (∀ x ∈ ops, Apart x.1 (nsq * sqSize x.2) dst (destBytes df nsq)) →
          (scalar = true → Apart (wf w 112 16 * 128) 4 dst (destBytes df nsq)) → ∀ k j, k < 128 * nsq → j < 128 →
          let line (lo flo tr : Nat) := runLine s₂ (tileAddr tile (wf w lo 16 * 128)) (wf w flo 4) (wb w tr) k
          let a := line 96 70 86
          let b := if scalar then List.replicate 128 (BitVec.ofNat 32 (readN s₂ (tileAddr tile (wf w 112 16 * 128)) 4))
            else if elemUsesB fn then line 112 74 87 else a
          let c := if elemUsesC fn then line 128 78 88 else a
          let res := (a.zip (b.zip c)).map fun (x, y, z) => v32 (elemOp fn x y z)
          let die (j : Nat) := playDie p (sidOf w) (let c := runCoord m.frame k j; frameIdx m.frame 128 c.1 c.2)
          let sb := tileAddr tile (wf w 96 16 * 128) + k / 128 * sqSize (wf w 70 4)
          sqBits t (tileAddr tile dst + k / 128 * sqSize df) df (k % 128) j =
            if n ≤ k then 0
            else if fn = 0x0B then (if wb w 86 then sqBits s₂ sb (wf w 70 4) j (k % 128) else sqBits s₂ sb (wf w 70 4) (k % 128) j)
            else (convLine df (wf w 91 2) (wb w 90 || wf w 93 3 == 2) die 0 res {}).1.getD j 0 % 2 ^ fmtBits df))

/-- A residue check that fails twice in a ply move's lanes: nothing is written, the play is faulted with class 3, LANE_RESIDUE and a record of class 3 name the
tile, and the tile is suspect (R468). A move other than MOVE that would run and reads a word with a failing byte (R461): where no retry returns it intact its play is
faulted with class 1 at that move; else it runs, after the record, as it would without. -/
def Claim.LaneFaultsInPly : Prop :=
  (∀ (c : Instr) (p : Play) (tile : Nat) (m m' : QMove) (s s₂ s₃ : State),
    c ∈ [.elem tile .twice, .reduce tile .twice, .smxb tile .twice, .nrmb tile .twice, .topk tile .twice, .scatterAdd tile .twice, .pack tile .twice,
      .amaxt tile .twice] → AtHead c p tile 2 m s s₂ → startMoveOf p tile 2 m s₂ = .run m' s₃ →
    ∃ t y, exec c s = .next t ∧ getPlay t p.order = some y ∧ y.faulted = some 3 ∧ y.faultAt = (wf m.word 17 15, m.idx, tile) ∧
      (∀ z ∈ y.seqs, z.stopped = true) ∧ Raises Ev.laneResidue s₂ t ∧ Records 3 s₂ t ∧ (∃ x ∈ t.rel.suspects, x.unit = physTile s₂ tile ∧ x.cls = 3) ∧
      OnlyChanges [.plays, .host, .store, .rel, .xing] s₂ t) ∧
  ∀ (c : Instr) (p : Play) (tile code : Nat) (m m' : QMove) (pl : ParityPlace) (w : DataWord) (s s₂ s₃ : State), Starts c p tile code m s s₂ →
    m.fault = .parity pl w → opOf m.word ≠ 0x30 → startMoveOf p tile code m s₂ = .run m' s₃ →
    let r := parityMeets pl w p.origin p.id p.step s₂
    (r.1 = true → FaultsWith c p tile m 1 [.cap, .knots, .host, .xing, .freeCtr, .store, .rel, .mem, .near] s s₂) ∧
    (r.1 = false → StartedAs c p tile code m s s₂ (startMoveOf p tile code m r.2))

/-- The grouped ply moves at the head of an empty PLY queue: an ill-formed word, a destination format with a SCALE, a bad operand header, an extent outside the
store, an AMAXT offset that is no square's or an NRMB segment above 32 squares end the play in that order; else the move is a member of its group from
then on, with no other effect. -/
def Claim.GroupMovesStart : Prop :=
  ∀ (l : LaneFault) (op : Nat) (c : Instr) (p : Play) (tile : Nat) (m : QMove) (s s₂ : State),
    (op, c) ∈ [(0x21, Instr.reduce tile l), (0x22, .smxb tile l), (0x23, .nrmb tile l), (0x29, .amaxt tile l)] → AtHead c p tile 2 m s s₂ →
    let w := m.word
    let at_ (lo : Nat) := wf w lo 16 * 128
    let df := wf w 75 4
    let nsq := sqsOf (wf w 220 16 * wf w 191 17)
    let ops := (at_ 85, wf w 67 4) :: (if op = 0x21 then [] else [(at_ 101, wf w 71 4)])
    let formed := encCommon w && (if op = 0x29 then encAmaxt w else encReduce op w)
    let pair := op != 0x29 && fmtScaleField df
    let heads := if op = 0x29 then none else operandCheck s₂ (ops.map fun x => (tileAddr tile x.1, x.2, nsq))
    let fits := if op = 0x29 then storeOk s₂ p tile (at_ 64) (4 * wf w 96 20) && storeOk s₂ p tile (at_ 80) 4
      else ops.all (fun x => storeOk s₂ p tile x.1 (nsq * sqSize x.2)) &&
        storeOk s₂ p tile (at_ 133) (if op = 0x21 then 4 * wf w 220 16 else destBytes df nsq) &&
        (op != 0x23 || storeOk s₂ p tile (at_ 117) (nrmEnd w - at_ 117))
    let span := if op = 0x29 then wf w 116 20 % 128 == 0 else op != 0x23 || decide (wf w 191 17 ≤ 32)
    (formed = false → FailsWith c p tile m Status.moveField s s₂) ∧
    (formed = true → pair = true → FailsWith c p tile m Status.fmtPair s s₂) ∧
    (∀ st, formed = true → pair = false → heads = some st → FailsWith c p tile m st s s₂) ∧
    (formed = true → pair = false → heads = none → fits = false → FailsWith c p tile m Status.addrRange s s₂) ∧
    (formed = true → pair = false → heads = none → fits = true → span = false → FailsWith c p tile m Status.rowSpan s s₂) ∧
    (l = .none ∨ l = .once → formed = true → pair = false → heads = none → fits = true → span = true →
      ∃ t y, exec c s = .next t ∧ RunsAtHead t p.order tile 2 ∧ getPlay t p.order = some y ∧
        (tile, { m with started := true, reused := groupReused p (groupOf w) }) ∈ members y (groupOf w) ∧ Masked l s₂ t ∧
        OnlyChanges [.plays, .host, .store, .xing] s₂ t)

/-- REDUCTION_RESULT: at the root of a complete group every member's result is written from what all members hold, its destination and no other byte, and every
member can then complete; where a member started on a GROUP value still in use the destinations hold free values; segments that overlap or disagree end the play with ROW_SPAN, all
members' moves dropped; with a segment missing, elsewhere, or without a group it does nothing. GROUP_TIMEOUT ends the play with ROW_SPAN. -/
def Claim.GroupsComplete : Prop :=
  (∀ (tile : Nat) (s : State), groupHead s tile = none → exec (.reductionResult tile) s = .next s ∧ exec (.groupTimeout tile) s = .next s) ∧
  (∀ (tile : Nat) (p : Play) (m : QMove) (s : State), groupHead s tile = some (p, m) →
    exec (.groupTimeout tile) s = .next (failPlay p.order (moveFailure Status.rowSpan m tile) (dropMove p.order tile 2 0 s))) ∧
  (∀ (tile : Nat) (p : Play) (m : QMove) (s : State), groupHead s tile = some (p, m) → memOff m.word ≠ 0 → exec (.reductionResult tile) s = .next s) ∧
  (∀ (tile : Nat) (p : Play) (m : QMove) (s : State), groupHead s tile = some (p, m) → memOff m.word = 0 →
    let l := sortMembers ((members p (groupOf m.word)).filter fun x => tileField x.1 == tileField tile)
    let places := l.flatMap fun x => (destsOf p x.1 x.2 s).map fun d => (d.2.1, d.2.2.1)
    (groupSpan l = .missing → exec (.reductionResult tile) s = .next s) ∧
    (groupSpan l = .bad → exec (.reductionResult tile) s =
      .next (failPlay p.order (moveFailure Status.rowSpan m tile) (l.foldl (fun t x => dropMove p.order x.1 2 0 t) s))) ∧
    (groupSpan l = .complete → (∀ x ∈ l, x.2.reused = false) →
      ∃ t, exec (.reductionResult tile) s = .next t ∧ t.mem = (l.foldl (fun t x => groupWrite p s l x t) s).mem ∧ KeepsBytes places s t ∧
        OnlyChanges [.plays, .mem, .knots, .watch] s t) ∧
    (groupSpan l = .complete → (∃ x ∈ l, x.2.reused = true) →
      ∃ t, exec (.reductionResult tile) s = .next t ∧ t.mem = (freeGroup p l (l.foldl (fun t x => groupWrite p s l x t) s)).mem ∧
        KeepsBytes places s t ∧ OnlyChanges [.plays, .mem, .knots, .watch, .freeCtr] s t) ∧
    (groupSpan l = .complete → getPlay s p.order = some p → (∀ x ∈ l, ∃ q r, getQueue p x.1 2 = some q ∧ q.moves = x.2 :: r) →
      ∃ t y, exec (.reductionResult tile) s = .next t ∧ getPlay t p.order = some y ∧
        ∀ x ∈ l, ∃ q r, getQueue y x.1 2 = some q ∧ q.moves = { x.2 with ready := true } :: r))

/-- What a complete group writes at its members, on distinct tiles with their destinations inside the stores: REDUCE the fixed-tree result of each row, AMAXT the
tensor's amax and 1 on its knot, SMXB and NRMB (without GACC) the conversions of dx, element by element. -/
def Claim.GroupResults : Prop :=
  ∀ (p : Play) (l : List Member) (s : State), Inv s → (l.map Prod.fst).Nodup → (∀ x ∈ l, isGroupOp (opOf x.2.word) = true) →
    (∀ x ∈ l, ∀ d ∈ destsOf p x.1 x.2 s, d.2.1 + d.2.2.1 ≤ tileAddr (x.1 + 1) 0) →
    let t := l.foldl (fun t x => groupWrite p s l x t) s
    ∀ x ∈ l, let w := x.2.word
      (opOf w = 0x21 → ∀ i < wf w 220 16, readN t (tileAddr x.1 (wf w 133 16 * 128 + 4 * i)) 4 = (reduceRow s l (wf w 64 2) i).toNat) ∧
      (opOf w = 0x29 → readN t (tileAddr x.1 (wf w 80 16 * 128)) 4 = (amaxtOf s l).toNat ∧
        knot t (tileKnot x.1 (wf w 168 7)) = knot s (tileKnot x.1 (wf w 168 7)) + 1) ∧
      (opOf w = 0x22 ∨ (opOf w = 0x23 ∧ wb w 66 = false) → fmtValid (wf w 75 4) = true → ∀ i k j, i < wf w 220 16 → k < wf w 191 17 → j < 128 →
        let f := wf w 75 4
        let n := i * wf w 191 17 + k
        let xs := ((dxRow s l x i).drop (128 * k)).take 128
        let fr := x.2.frame
        let die (j : Nat) := playDie p (sidOf w) (frameIdx fr (memLen w) (fr.row0 + i) (fr.col0 + 128 * (wf w 174 17 + k) + j))
        sqBits t (tileAddr x.1 (wf w 133 16 * 128) + n / 128 * sqSize f) f (n % 128) j =
          (convLine f (wf w 80 2) (wb w 79 || wf w 82 3 == 2) die 0 (xs.map v32 ++ List.replicate (128 - xs.length) (.fin false 0 0)) {}).1.getD j 0 %
            2 ^ fmtBits f)

/-- LOADW and SWAPW on the lead's empty ARR queue. SWAPW exchanges the banks and costs the run one cycle. LOADW puts the decoded weights, with their checksum columns, into the shadow bank;
an ill-formed word, a bad header and an extent outside a store end the play in that order. Nothing but the partition and the play changes. -/
def Claim.WeightsLoadAndSwap : Prop :=
  (∀ (p : Play) (q : Partition) (tile : Nat) (m : QMove) (s s₂ : State), Issued (.swapw tile) p tile m s s₂ → findPart s₂ p.org p.shape = some q →
    (encCommon m.word = false ∨ wf m.word 64 192 ≠ 0 → FailsWith (.swapw tile) p tile m Status.moveField s s₂) ∧
    (encCommon m.word = true → wf m.word 64 192 = 0 →
      ∃ t, exec (.swapw tile) s = .next t ∧ RunsAtHead t p.order tile 1 ∧
        findPart t p.org p.shape =
          some { q with active := q.shadow, shadow := q.active, runFrom := q.runFrom + cycleSteps s₂ (tileField q.org) 1 } ∧ OnlyChanges [.plays, .parts] s₂ t)) ∧
  (∀ (p : Play) (q : Partition) (tile : Nat) (m : QMove) (s s₂ : State), Issued (.loadw tile) p tile m s s₂ → findPart s₂ p.org p.shape = some q →
    let w := m.word
    let fmt := wf w 96 4
    let src := wf w 64 16 * 128
    let src2 := wf w 80 16 * 128
    let offs := if fmt = 13 then [src, src2] else [src]
    let tiles := tilesOf q.org q.shape
    let formed := encCommon w && encLoadw w (128 * shapeRows q.shape)
    let heads := headerChecks s₂ fmt (statAxis (wb w 100)) (tiles.flatMap fun t => (offs.filter headerIn).map (tileAddr t))
    let fits := tiles.all fun t => offs.all fun o => storeOk s₂ p t o (sqSize fmt)
    let avail := tallyAvailable s₂ q.org q.shape
    let inPart := wf w 101 2 == 2 && !avail
    let rows := statRows s₂ q src src2 fmt (wb w 100)
    let bank : WBank := {
      wfmt := fmt, klen := wf w 103 13, tally := wf w 101 2, inPart, trans := wb w 100
      rows := if inPart then inPartRows (128 * shapeCols q.shape) rows else rows
      tallyRows := if wf w 101 2 != 0 && avail then tallySquare (shapeCols q.shape) rows else [] }
    (formed = false → FailsWith (.loadw tile) p tile m Status.moveField s s₂) ∧
    (∀ st, formed = true → heads = some st → FailsWith (.loadw tile) p tile m st s s₂) ∧
    (formed = true → heads = none → fits = false → FailsWith (.loadw tile) p tile m Status.addrRange s s₂) ∧
    (formed = true → heads = none → fits = true →
      ∃ t, exec (.loadw tile) s = .next t ∧ RunsAtHead t p.order tile 1 ∧ findPart t p.org p.shape = some { q with shadow := some bank } ∧
        OnlyChanges [.plays, .parts] s₂ t))

/-- STREAM on the lead's empty ARR queue, with the SXT before it: the first failing check of R198 ends the play; an overrun (16), a closed crossing (15) and a spilled
accumulator that cannot be read (1) fault it; else it starts, its accumulator's masks and its destination's amax cleared, and admits rows from row 0 on
for as long as nothing holds them. -/
def Claim.StreamStarts : Prop :=
  ∀ (f : MoveFault) (p : Play) (q : Partition) (tile : Nat) (m : QMove) (s s₂ : State), Issued (.stream tile f) p tile m s s₂ →
    findPart s₂ p.org p.shape = some q → encCommon m.word = true →
    (∀ st, streamCheck s₂ p q m = some st → FailsWith (.stream tile f) p tile m st s s₂) ∧
    (streamCheck s₂ p q m = none → ∃ c, streamCtx p m s₂ = some c ∧
      (∀ a b, f = .overrun a b → FaultsWith (.stream tile f) p tile m 16 [.xing, .host, .store] s s₂) ∧
      ((∀ a b, f ≠ .overrun a b) → c.closed s₂ = true → FaultsWith (.stream tile f) p tile m 15 [] s s₂) ∧
      ((∀ a b, f ≠ .overrun a b) → c.closed s₂ = false → c.spillBad s₂ = true →
        FaultsWith (.stream tile f) p tile m 1 [.host, .store, .xing] s s₂) ∧
      ((∀ a b, f ≠ .overrun a b) → (∀ x y, f ≠ .parity x y) → c.closed s₂ = false → c.spillBad s₂ = false →
        let s₃ := if c.drain = 1 then setPart { q with accMask := upsert (wf m.word 144 16) [] q.accMask } s₂ else s₂
        let s₄ := if (c.drain = 0 ∨ c.drain = 3) ∧ (c.dkind = 0 ∨ c.dkind = 3) then (List.range c.cols).foldl (fun s u => c.clearAmax u s) s₃ else s₃
        let r := streamGo p { m with started := true, next := 0, blk := [] } s₄
        ∃ t, exec (.stream tile f) s = .next t ∧ RunsAtHead t p.order tile 1 ∧ t.mem = r.2.mem ∧ t.mesh = r.2.mesh ∧ t.parts = r.2.parts ∧
          OnlyChanges [.plays, .parts, .fields, .watch, .host, .xing, .store, .ramp, .mesh, .freeCtr, .mem, .near] s₂ t))

/-- A started STREAM admits its rows one after another, each once: the next row while a pass beat, a ramp start or a full ring does not hold it; it stops only
with all rows admitted or the next one held, and asks for a ramp start where only that holds it. -/
def Claim.StreamsAdmitRows : Prop :=
  ∀ (p : Play) (m : QMove) (s : State),
    (∀ c, streamCtx p m s = some c → m.next < c.n → c.admits s m.next = true →
      let r := c.row (if c.dkind = 2 then leafSelf s (c.dest % 4096) else 0) m.next s
      let b := (if m.next % 128 = 0 then [] else m.blk) ++ (r.2.elim [] fun x => if wb c.w 108 then [(m.next, x)] else [])
      streamGo p m s = streamGo p { m with next := m.next + 1, blk := b } (c.afterRow m.next b r.1)) ∧
    (let r := streamGo p m s
     m.next ≤ r.1.next ∧ (∀ c, streamCtx p r.1 r.2 = some c → r.1.next < c.n → c.admits r.2 r.1.next = false) ∧
      (∀ c, streamCtx p r.1 r.2 = some c → r.1.next < c.n → rowOpen r.2 c.q.org c.w r.1.next = true → passing r.2 (tileField c.q.org) = false →
        rampOk r.2 c.q = false → ∃ x ∈ r.2.rampQueue, x.2 = (c.q.org, c.q.shape)) ∧
      OnlyChanges [.parts, .fields, .watch, .host, .xing, .store, .ramp, .mesh, .freeCtr, .mem, .near] s r.2)

/-- One row of a STREAM whose mask is that of its first pass. Admitted, its results go, rounded, to the LOCAL or TILE destination (ONLY, LAST), as FP32 to the accumulator
in tile store (FIRST, ACC), or as BF16 packets, one per drain column but an in-partition tally's, to a capstan or a collective. Masked, it writes zeros
under ZERO_FILL and nothing without it. -/
def Claim.StreamRowsDeliver : Prop :=
  ∀ (c : StreamCtx) (self i : Nat) (s : State), Inv s → i < c.n → c.differs (rowOpen s c.q.org c.w i) i = false →
    let opened := rowOpen s c.q.org c.w i
    let t := (c.row self i s).1
    let res := c.results s i
    let xs (u : Nat) := ((res.drop (128 * u)).take 128).map v32
    let out := c.drain = 0 ∨ c.drain = 3
    let base (u : Nat) := c.outBase u + i / 128 * sqSize c.dfmt
    let sent := (List.range c.cols).filter fun u => !(c.bank.inPart && u + 1 == c.cols)
    let data (u : Nat) := (convRun 1 c.sr (fun j => c.die i (128 * u + j)) 0 0 (xs u) {}).1.map (BitVec.ofNat 16)
    let local_ := c.dkind = 0 ∧ wf c.w 192 16 * 128 + destBytes c.dfmt c.nsq ≤ 2 ^ 23
    let tile := c.dkind = 3 ∧ c.dest % 65536 * 128 + destBytes c.dfmt c.nsq ≤ 2 ^ 23 ∧
      wf c.w 192 16 * 128 + max (wf c.w 210 7) 1 * 32768 ≤ 2 ^ 23 ∧ ∀ u v, u < c.cols → v < c.cols → c.dest / 65536 + u ≠ c.drainTile v
    (out → local_ ∨ tile → fmtValid c.dfmt = true → ∀ u j, u < c.cols → j < 128 →
      (opened = true → sqBits t (base u) c.dfmt (i % 128) j =
        (convLine c.dfmt (wf c.w 93 2) c.sr (fun j => c.die i (128 * u + j)) 0 (xs u) {}).1.getD j 0 % 2 ^ fmtBits c.dfmt) ∧
      (opened = false → wb c.w 107 = true → sqBits t (base u) c.dfmt (i % 128) j = 0)) ∧
    (c.drain = 1 ∨ c.drain = 2 → opened = true → (i / 128 + 1) * 512 ≤ wf c.w 160 16 → wf c.w 144 16 * 128 + (i / 128 + 1) * 65536 ≤ 2 ^ 23 →
      ∀ u j, u < c.cols → j < 128 → sqBits t (c.acc s u i) 0 (i % 128) j = (res.getD (128 * u + j) 0).toNat) ∧
    (out → c.dkind = 1 → opened = true → t.mesh = s.mesh ++ sent.map fun u => (.queue (c.drainTile u) 1,
      .contrib (c.p.order, c.idx) { entry := c.dest % 65536, row := i, seg := c.dest / 65536 + u, step := c.p.step, src := c.drainTile u, data := data u })) ∧
    (out → c.dkind = 2 → opened = true → t.mesh = s.mesh ++ sent.map fun u => (.queue (c.drainTile u) 1,
      .leaf (c.p.order, c.idx) { slot := c.dest % 4096, row := i, seg := c.dest / 65536 + u, step := c.p.step, member := self, data := data u })) ∧
    (opened = false → wb c.w 107 = false ∨ c.drain = 1 ∨ c.drain = 2 → t.mem = s.mem ∧ t.mesh = s.mesh)

/-- MOVE and INVAL at the head of an empty queue. A MOVE's first failing check ends the play; an overrun of another crossing than PCIe's and a word that a mesh hop
discards let it start, nothing copied, to be replayed; a failing word from elsewhere faults the play (1), and an intact retry runs it after its record; one whose
memory serves nothing now waits without effect; one over a closed crossing faults the play (15); a retired or failing unit ends it, bad parity
faults it (1), with what was copied till then; else the blocks are copied and no byte outside the destination changes: where source units and destination
lie apart, the source in tile store, each destination unit holds its source. INVAL drops the tile's lines of its range. -/
def Claim.MoverMovesRun : Prop :=
  ∀ (p : Play) (tile code : Nat) (m : QMove) (s s₂ : State), code ≠ 1 →
    let w := m.word
    let us := moveUnits w
    let places := us.flatMap fun u => (moveDest s₂ tile u.2).filterMap fun d => if d.1 = 0 then some (d.2.1, d.2.2.1) else none
    (AtHead (.inval tile) p tile code m s s₂ →
      ((encCommon w && encInval w) = false → FailsWith (.inval tile) p tile m Status.moveField s s₂) ∧
      ((encCommon w && encInval w) = true →
        ∃ t, exec (.inval tile) s = .next t ∧ RunsAtHead t p.order tile code ∧
          t.caches = (cacheDrop tile (wf w 64 50) (wf w 114 24 * 128) s₂).caches ∧ OnlyChanges [.plays, .caches] s₂ t)) ∧
    ∀ f, AtHead (.move tile f) p tile code m s s₂ →
      let m₁ := { m with place := s₂.hints }
      let copies (t : State) := StartedAs (.move tile f) p tile code m s s₂ (runMove p tile m₁ t)
      (encCommon w = false → FailsWith (.move tile f) p tile m Status.moveField s s₂) ∧
      (∀ st, encCommon w = true → moveCheck s₂ p tile w = some st → FailsWith (.move tile f) p tile m st s s₂) ∧
      (encCommon w = true → moveCheck s₂ p tile w = none →
        (∀ a b, f = .overrun a b →
          (pcieWord a b = true → copies (xingRecordFor p.origin p.id p.step a b false s₂)) ∧
          (pcieWord a b = false → ∃ t, exec (.move tile f) s = .next t ∧ RunsAtHead t p.order tile code ∧ t.xing.overrun = true ∧ Records 16 s₂ t ∧
            Raises Ev.xingFault s₂ t ∧ OnlyChanges [.plays, .xing, .host, .store] s₂ t)) ∧
        (∀ pl x, f = .parity pl x →
          let r := parityMeets pl x p.origin p.id p.step s₂
          (r.1 = false → copies r.2) ∧
          (r.1 = true → (∀ u, pl ≠ .hop u) → FaultsWith (.move tile f) p tile m 1 [.cap, .knots, .host, .xing, .freeCtr, .store, .rel, .mem, .near] s s₂) ∧
          (r.1 = true → ∀ u, pl = .hop u → ∃ t, exec (.move tile f) s = .next t ∧ RunsAtHead t p.order tile code ∧ Records 1 s₂ t ∧ Raises Ev.parity s₂ t ∧
            OnlyChanges [.plays, .host, .store, .rel, .xing] s₂ t)) ∧
        ((∀ a b, f ≠ .overrun a b) → (∀ x y, f ≠ .parity x y) → copies s₂ ∧
          (moveWaits s₂ w = true → exec (.move tile f) s = .next s₂) ∧
          (moveWaits s₂ w = false → moveClosed s₂ tile w = true → FaultsWith (.move tile f) p tile m 15 [] s s₂) ∧
          (moveWaits s₂ w = false → moveClosed s₂ tile w = false → (∀ x y z, f ≠ .rim x y z) →
            match copyUnits p tile m us [] s₂ with
            | .ok _ s₃ => ∃ t, exec (.move tile f) s = .next t ∧ RunsAtHead t p.order tile code ∧ t.mem = (freeOverlap s₂ p tile w s₃).mem ∧
                KeepsBytes places s₂ t ∧ OnlyChanges [.plays, .mem, .near, .caches, .host, .freeCtr] s₂ t
            | .stop st s₃ => ∃ t y, exec (.move tile f) s = .next t ∧ getPlay t p.order = some y ∧ y.fail = some (moveFailure st m tile) ∧
                t.mem = s₃.mem ∧ KeepsBytes places s₂ t ∧ OnlyChanges [.plays, .mem, .near, .caches, .host, .store, .xing] s₂ t
            | .bad s₃ => ∃ t y, exec (.move tile f) s = .next t ∧ getPlay t p.order = some y ∧ y.faulted = some 1 ∧ Records 1 s₂ t ∧
                t.mem = s₃.mem ∧ KeepsBytes places s₂ t ∧ OnlyChanges [.plays, .mem, .near, .caches, .host, .store, .xing] s₂ t) ∧
          (moveWaits s₂ w = false → moveClosed s₂ tile w = false → Inv s₂ → wb w 167 = false →
            let keys := us.flatMap fun u => (List.range 128).map fun i => memKey s₂ (u.2 + i)
            (∀ u ∈ us, spaceOf u.1 = .tile ∧ (spaceOf u.2 = .tile ∨ (spaceOf u.2 = .near ∧ isRetired s₂ u.2 = false))) → keys.Nodup → none ∉ keys →
            (∀ u ∈ us, ∀ i < 128, memKey s₂ (u.1 + i) ∉ keys) →
            ∃ t, exec (.move tile f) s = .next t ∧ ∀ u ∈ us, readBytes t u.2 128 = readBytes s₂ u.1 128)))

/-- DISPATCH and COMBINE at the head of an empty queue: the first failing check ends the play, a closed crossing faults it (15). A DISPATCH then joins its exchange
with the copies that its index table names, and sends its COUNTs to every member, or, reusing a placement, its rows at once; a COMBINE drops the lines that its tile holds, sends a FETCH for
each admitted copy, and writes its rows at once where it has none to fetch. Nothing else of the module changes. -/
def Claim.ExchangeMovesRun : Prop :=
  ∀ (p : Play) (tile code : Nat) (m : QMove) (s s₂ : State), code ≠ 1 →
    let w := m.word
    (AtHead (.dispatch tile) p tile code m s s₂ →
      (encCommon w = false → FailsWith (.dispatch tile) p tile m Status.moveField s s₂) ∧
      (∀ st, encCommon w = true → dispatchCheck s₂ p tile w = some st → FailsWith (.dispatch tile) p tile m st s s₂) ∧
      (∀ x, encCommon w = true → dispatchCheck s₂ p tile w = none → getX s₂ (wf w 170 16) = some x →
        (xingClosed s₂ (tileField tile) 8 = true → FaultsWith (.dispatch tile) p tile m 15 [] s s₂) ∧
        (xingClosed s₂ (tileField tile) 8 = false →
          let grants := if x.reuse then ((getX s₂ x.prior).bind fun y => y.moves.find? fun k => k.tile == tile).elim [] XMove.grants else []
          let xm : XMove := { tile, word := w, copies := copyList s₂ tile w, grants }
          let y := { x with issued := x.issued + 1, moves := xm :: x.moves.filter fun k => k.tile != tile }
          let u := if x.reuse then grants.foldl (fun s g => sendRows y xm { g.2 with xid := x.xid, step := x.step } s) (setX y s₂)
            else sendCounts y tile w xm.copies (setX y s₂)
          ∃ t, exec (.dispatch tile) s = .next t ∧ RunsAtHead t p.order tile code ∧ getX t x.xid = some y ∧ t.mesh = u.mesh ∧ t.ports = u.ports ∧
            OnlyChanges [.plays, .exchanges, .mesh, .ports, .host, .store, .xing] s₂ t))) ∧
    (AtHead (.combine tile) p tile code m s s₂ →
      (encCommon w = false → FailsWith (.combine tile) p tile m Status.moveField s s₂) ∧
      (∀ st, encCommon w = true → combineCheck s₂ p tile w = some st → FailsWith (.combine tile) p tile m st s s₂) ∧
      (∀ x, encCommon w = true → combineCheck s₂ p tile w = none → getX s₂ (wf w 156 16) = some x →
        (xingClosed s₂ (tileField tile) 8 = true → FaultsWith (.combine tile) p tile m 15 [] s s₂) ∧
        (xingClosed s₂ (tileField tile) 8 = false →
          let y := { x with results := x.results.filter (fun r => r.1 / 2 ^ 32 != tile), combining := tile :: x.combining }
          let u := (admittedCopies y tile (copyList s₂ tile w)).foldl (fun s t => (expertOf s x.rts t.1).elim s fun k =>
            sendItem (.queue tile 8) (wf w 140 4, wf w 128 12) x.rts k.member
              (.xfetch { xid := x.xid, expert := t.1, row := t.2.2.2, member := selfOf s y, tile, step := x.step }) s) (setX y s₂)
          ∃ t, exec (.combine tile) s = .next t ∧ RunsAtHead t p.order tile code ∧ t.mesh = u.mesh ∧ t.ports = u.ports ∧
            (combineReady s₂ y tile w = true → t.mem = (combineWrite p tile { m with started := true } y u).mem ∧
              OnlyChanges [.plays, .exchanges, .mesh, .ports, .host, .store, .xing, .mem, .watch] s₂ t) ∧
            (combineReady s₂ y tile w = false → getX t x.xid = some y ∧ OnlyChanges [.plays, .exchanges, .mesh, .ports, .host, .store, .xing] s₂ t) ∧
            KeepsBytes ((destsOf p tile m s₂).map fun d => (d.2.1, d.2.2.1)) s₂ t)))

/-- A play's reply, once: its status and DETAIL at CQTAIL's turn, with the play's queue and SEQ; the outcome of a play that has replied before goes to the event
log as PLAY_FAIL (R336). A play that ends without running leaves the module with that reply alone. -/
def Claim.PlayReplies : Prop :=
  ∀ (p : Play) (st : BitVec 16) (d : W64) (s : State),
    (hasReplied p.order s = false → (playReply p st d s).host = { s.host with replies := s.host.replies ++ [{
      queue := p.queue, seq := p.seq, status := st, detail := d, ct := s.cad.ct, opc := 0x0301, origin := p.origin, notify := p.notify }] }) ∧
    (hasReplied p.order s = true → (playReply p st d s).host.replies = s.host.replies ∧ Raises Ev.playFail s (playReply p st d s)) ∧
    OnlyChanges [.host, .cap, .store, .xing] s (playReply p st d s) ∧ endUnrun p st s = playReply p st 0 (dropPlay p.order s) ∧ getPlay (endUnrun p st s) p.order = none

/-- PLAY_FIRE that passes the dispatcher's checks, with what earlier aborts add to its times: PHASE above 4 is refused with PWR_VALUE; else a play stands with the
command's items, pending until its FIRE time, due at once with FIRE 0 or a FIRE that has passed, and no reply yet. -/
def Claim.PlaysAreFired : Prop :=
  ∀ (p : Packet) (s : State), Serves s → p.opc = 0x0301 → checkPacket s p = none → fireRefusal s (shifted s p) = none →
    let x := shifted s p
    (4 < p.flags.toNat % 8 → ∃ t, exec (.playFire p) s = .next t ∧ t.plays = s.plays ∧ OnlyChanges [.arrivals, .cap, .host, .store, .xing] s t ∧
      (hasReplied s.arrivals s = false → t.host = { s.host with replies := s.host.replies ++ [answerOf p Status.pwrValue 0 s] })) ∧
    (p.flags.toNat % 8 ≤ 4 → ∃ t, exec (.playFire p) s = .next t ∧ OnlyChanges [.arrivals, .plays, .cap] s t ∧
      t.plays = s.plays ++ [{
        image := item x.param 0 8, org := p.tgt.toNat % 2048, shape := p.tgt.toNat / 2048 % 8, id := BitVec.ofNat 32 (item x.param 8 4)
        step := BitVec.ofNat 32 (item x.param 12 4), fire := if x.fire = 0 then s.cad.ct else x.fire, deadline := BitVec.ofNat 64 (item x.param 16 8)
        queue := p.queue, seq := p.seq, origin := p.origin, notify := p.flags.getLsbD 4, rerun := p.flags.getLsbD 3, phase := p.flags.toNat % 8
        order := s.arrivals, late := x.fire != 0 && decide (x.fire.toNat < s.cad.ct.toNat)
        state := if x.fire ≠ 0 ∧ s.cad.ct.toNat ≤ x.fire.toNat then .pending else .due }])

/-- PLAY_START takes the first play of its partition, in the order of FIRE and dispatch, that is due or whose FIRE time has come and that the step gate lets through,
and waits for one that is not due yet. It waits too, without effect, while the
partition is busy or runs a play, a revoke waits, a power event or commit of the present CT or before waits, the lead's copy of CT is before FIRE, or the image's
channels serve nothing now. Else the play ends unrun with the first failing check (no such partition, lent, clock stopped, image), is faulted (1) by an image that
cannot be read back, or runs, with the job's seed and the current bank latched and every list at its first move. -/
def Claim.PlaysStart : Prop :=
  (∀ (org sh : Nat) (s : State), nextPlay s org sh = none → exec (.playStart org sh) s = .next s) ∧
  (∀ (org sh : Nat) (p : Play) (s : State), nextPlay s org sh = some p →
    let able (q : Play) : Prop := q.org = org ∧ q.shape = sh ∧ q.state ≠ .running ∧ (q.state = .due ∨ q.fire.toNat ≤ s.cad.ct.toNat) ∧
      q.step.toNat ≤ s.cap.committed.toNat + 1
    p ∈ s.plays ∧ able p ∧ (∀ q ∈ s.plays, able q → playBefore q p = false) ∧ (p.state ≠ .due → exec (.playStart org sh) s = .next s)) ∧
  ∀ (org sh : Nat) (p : Play) (s : State), nextPlay s org sh = some p → p.state = .due →
    (findPart s org sh = none → exec (.playStart org sh) s = .next (endUnrun p (missingStatus s p) s)) ∧
    ∀ q, findPart s org sh = some q →
      let waits := q.busy || (runningOn s org sh).isSome || revokeWaits s org sh || !settled s || decide ((routerCt s org).toNat < p.fire.toNat) ||
        rangeWaits s p.image (imageBytes p)
      let bad := p.image % 128 == 0 && imageBad s p
      (waits = true → exec (.playStart org sh) s = .next s) ∧
      (waits = false → isLender s org sh = true → exec (.playStart org sh) s = .next (endUnrun p Status.partLent s)) ∧
      (waits = false → isLender s org sh = false → startClosed s org = true →
        exec (.playStart org sh) s = .next (endUnrun p Status.clockStopped s)) ∧
      (waits = false → isLender s org sh = false → startClosed s org = false → bad = true →
        exec (.playStart org sh) s =
          .next (endFailed { p with faulted := some 1 } (granuleFault p.image p.origin p.id p.step (retiredRead p (imageGone s p) s)))) ∧
      (∀ st, waits = false → isLender s org sh = false → startClosed s org = false → bad = false → imageCheck s p = some st →
        exec (.playStart org sh) s = .next (endUnrun p st s)) ∧
      (waits = false → isLender s org sh = false → startClosed s org = false → bad = false → imageCheck s p = none → getPlay s p.order = some p →
        ∃ t y, exec (.playStart org sh) s = .next t ∧ getPlay t p.order = some y ∧ y.state = .running ∧ y.seed = s.host.seed ∧ y.bank = s.cap.cur ∧
          y.fail = none ∧ y.faulted = none ∧ y.cut = none ∧ y.dests = [] ∧
          y.seqs = ((tilesOf org sh).zipIdx.map fun (x, k) =>
            { tile := x, list := (tileEntry s p.image k).1, count := (tileEntry s p.image k).2.1 }) ∧
          (∀ z ∈ y.queues, z.moves = []) ∧ OnlyChanges [.plays, .caches] s t)

/-- PLAY_END, with no STATE_LOAD waiting, does nothing while the play runs or has a started move, and where a rerun is due. A play whose every END has retired
leaves (its destinations free values where it was rerun although R465 bars that, and where a debug write has touched what it depends on, R539): its run ends,
SLOT_OVERRUN where its deadline has passed, its cut is made or refused with a status in DETAIL, and it replies 0x0000 (0x0001 where it was late, and then no cut
is made). A failed play leaves with its destinations free values, and replies its failure and where it happened; one
that a fault stopped replies the fault's status, or, of an open step, marks the step FAULTED without a reply; a withheld one replies nothing. -/
def Claim.PlaysEnd : Prop :=
  ∀ (org sh : Nat) (s : State), s.cap.loads = [] →
    (runningOn s org sh = none → exec (.playEnd org sh) s = .next s) ∧
    ∀ p, runningOn s org sh = some p →
      let left := endRun p (slotOverrun p (dropPlay p.order s))
      let done := if (0 < p.reruns ∧ p.noRerun = true) ∨ debugTouches s p = true then freeDests p left else left
      let ends := p.seqs.all fun q => q.ended
      (p.live = true → ends = false → exec (.playEnd org sh) s = .next s) ∧
      (p.live = true → ends = true →
        exec (.playEnd org sh) s = .next (let r := playCut p done; runLoads (playReply p p.okStatus (r.1.setWidth 64) r.2)) ∧
        (p.cut = none ∨ p.late = true → playCut p done = (0, done)) ∧
        (∀ o h n, p.late = false → p.cut = some (o, h, n) →
          ((∃ x ∈ tilesOf p.org p.shape, inRegionTile o h x = false) → playCut p done = (Status.partShape, done)) ∧
          ((∀ x ∈ tilesOf p.org p.shape, inRegionTile o h x = true) →
            (∀ st, partCheck done o h n (some (p.org, p.shape)) = some st → playCut p done = (st, done)) ∧
            (partCheck done o h n (some (p.org, p.shape)) = none → playCut p done = (0, partMake o h n (partPend o h none done)))))) ∧
      (p.live = false → quiet s p = false ∨ p.reruns_ = true → exec (.playEnd org sh) s = .next s) ∧
      (p.live = false → quiet s p = true → p.reruns_ = false →
        (p.withheld = true → exec (.playEnd org sh) s = .next (runLoads (freeDests p left))) ∧
        (∀ f, p.withheld = false → p.fail = some f →
          exec (.playEnd org sh) s = .next (runLoads (playReply p f.status (failDetail f) (freeDests p left)))) ∧
        (p.withheld = false → p.fail = none →
          (p.step.toNat ≤ s.cap.committed.toNat → exec (.playEnd org sh) s = .next (runLoads (playReply p (faultStatus (p.faulted.getD 0))
            (failDetail { status := 0, mtag := p.faultAt.1, idx := p.faultAt.2.1, tile := p.faultAt.2.2 }) (freeDests p left)))) ∧
          (s.cap.committed.toNat < p.step.toNat → ∃ t, exec (.playEnd org sh) s = .next t ∧ t.cap.stepFaulted = true ∧ getPlay t p.order = none ∧
            t.host.replies = s.host.replies ∧ Records (p.faulted.getD 0) s t)))

/-- What the end of a play does beside: no play of that order is left; SLOT_OVERRUN is raised at or after the deadline and not before; the partition's run and its
ramp request end; the destinations hold free values and no byte outside them changes. -/
def Claim.PlayEndEffects : Prop :=
  ∀ (p : Play) (s : State),
    let left := endRun p (slotOverrun p (dropPlay p.order s))
    getPlay left p.order = none ∧ (s.cad.ct.toNat < p.deadline.toNat → left.host = s.host) ∧
    (p.deadline.toNat ≤ s.cad.ct.toNat → Raises Ev.slotOverrun s left) ∧ (∀ x ∈ left.rampQueue, x.2 ≠ (p.org, p.shape)) ∧
    (∀ q, findPart s p.org p.shape = some q → findPart left p.org p.shape = some { q with runOpen := false, rampWait := false }) ∧
    OnlyChanges [.plays, .host, .parts, .ramp, .store, .xing] s left ∧
    KeepsBytes (p.dests.filterMap fun d => if d.1 = 0 then some (d.2.1, cdiv d.2.2.1 128 * 128) else none) s (freeDests p s) ∧
    OnlyChanges [.caches, .host, .freeCtr, .mem] s (freeDests p s) ∧
    ∀ f : Failure, f.mtag < 2 ^ 15 → f.idx < 2 ^ 24 → f.tile < 2 ^ 11 →
      (failDetail f).toNat % 2 ^ 15 = f.mtag ∧ (failDetail f).toNat / 2 ^ 15 % 2 ^ 24 = f.idx ∧ (failDetail f).toNat / 2 ^ 39 = f.tile

/-- PLAY_ABORT of no play that it can stop replies 0x020C alone. Else it stops each hit, a running play as failed with 0x020C, one that does not run unrun with
0x020C, and replies the count; a play whose every END has retired is none, and a faulted one that waits for its rerun gets none. PLAY_RERUN of a faulted RERUN play with no started move left, run again less
than twice, starts it again from move 0 with its partition's knots restored and a record of its fault class; else it does nothing. -/
def Claim.PlaysAbortAndRerun : Prop :=
  (∀ (p : Packet) (s : State), Admitted 0x0302 p s →
    let hit := s.plays.filter fun y => y.org == tgtOrg p.tgt && y.shape == tgtShape p.tgt && y.id.toNat == item p.param 0 4 && !y.allEnded
    (hit = [] → ∃ t, exec (.playAbort p) s = .next t ∧ Answered p Status.aborted 0 s t ∧ OnlyChanges [.arrivals, .host] s t) ∧
    (hit ≠ [] → exec (.playAbort p) s = .next (reply p 0 (BitVec.ofNat 64 hit.length)
      (hit.foldl (fun s y => if y.state = .running then abortRunning y s else endUnrun y Status.aborted s) (arrived s)))) ∧
    (∀ y, hit = [y] → y.state = .running → y.live = true → getPlay s y.order = some y →
      ∃ t z, exec (.playAbort p) s = .next t ∧ getPlay t y.order = some z ∧ z.fail = some { status := Status.aborted, mtag := 0, idx := 0, tile := 0 } ∧
        (∀ q ∈ z.seqs, q.stopped = true) ∧ Answered p 0 1 s t ∧ OnlyChanges [.arrivals, .plays, .host] s t) ∧
    (∀ y, hit = [y] → y.state = .running → y.faulted.isSome = true → y.fail = none → y.withheld = false → getPlay s y.order = some y →
      ∃ t z, exec (.playAbort p) s = .next t ∧ getPlay t y.order = some z ∧ z.fail = some { status := Status.aborted, mtag := 0, idx := 0, tile := 0 } ∧
        z.faulted = none ∧ z.reruns_ = false ∧ Answered p 0 1 s t ∧ OnlyChanges [.arrivals, .plays, .host] s t)) ∧
  (∀ (org sh : Nat) (s : State), runningOn s org sh = none → exec (.playRerun org sh) s = .next s) ∧
  (∀ (org sh : Nat) (p : Play) (s : State), runningOn s org sh = some p →
    (p.reruns_ = false ∨ quiet s p = false → exec (.playRerun org sh) s = .next s) ∧
    (p.reruns_ = true → quiet s p = true → getPlay s p.order = some p → p.dests = [] →
      ∃ t y, exec (.playRerun org sh) s = .next t ∧ getPlay t p.order = some y ∧ y.reruns = p.reruns + 1 ∧ y.state = .running ∧ y.faulted = none ∧
        y.seqs = ((tilesOf p.org p.shape).zipIdx.map fun (x, k) =>
          { tile := x, list := (tileEntry s p.image k).1, count := (tileEntry s p.image k).2.1 }) ∧
        Records (p.faulted.getD 0) s t ∧ t.knots = (restoreKnots p s).knots ∧
        OnlyChanges [.plays, .parts, .ramp, .knots, .caches, .store, .host, .xing] s t) ∧
    (p.reruns_ = true → quiet s p = true → getPlay s p.order = some p →
      ∃ t y, exec (.playRerun org sh) s = .next t ∧ getPlay t p.order = some y ∧ y.reruns = p.reruns + 1 ∧ y.state = .running ∧ y.faulted = none ∧
        ∀ q ∈ y.seqs, q.next = 0 ∧ q.stopped = false ∧ q.ended = false))

/-- MOVE_COMPLETION of a started move whose work is done takes it off its queue with its tie, and the queue goes on; else it does nothing. A MOVE to a host whose
flushing read gets no answer ends its play with HOST_FAULT instead. A MOVE whose sources still hold what it read, and held it all the time where it spills, leaves
memory as it is; a STREAM behind which no other has started ends its partition's run. Done are: a STREAM with every row admitted and every packet accepted, a
grouped move and a COMBINE with their results written, a MOVE whose words have all come while its memory serves, a DISPATCH with every row accepted, a LOADW, SWAPW or
other move once it has started, never one cut short. -/
def Claim.MovesComplete : Prop :=
  (∀ (tile code pos : Nat) (s : State), (∀ p, playOfTile s tile = some p → getQueue p tile code = none) →
    exec (.moveCompletion tile code pos) s = .next s) ∧
  (∀ (tile code pos : Nat) (p : Play) (q : TileQueue) (s : State), playOfTile s tile = some p → getQueue p tile code = some q →
    (q.moves[pos]? = none → exec (.moveCompletion tile code pos) s = .next s) ∧
    ∀ m, q.moves[pos]? = some m →
      let can := (code == 1 || pos == 0) && canComplete s p tile m
      (can = false → exec (.moveCompletion tile code pos) s = .next s) ∧
      (can = true → flushFails s m = none → exec (.moveCompletion tile code pos) s = .next (completeMove p tile code pos m s)) ∧
      (∀ port, can = true → flushFails s m = some port → exec (.moveCompletion tile code pos) s =
        .next (failPlay p.order (moveFailure Status.hostFault m tile) (dropMove p.order tile code pos (hostFault p port 0 s)))) ∧
      (can = true → q.moves = [m] → getPlay s p.order = some p →
        completeMove p tile code pos m s = makeTie p tile m.word (dropMove p.order tile code pos (wrapUp p tile code pos m s)))) ∧
  (∀ (p : Play) (tile code pos : Nat) (m : QMove) (s : State), opOf m.word ∉ [0x12, 0x30] → wrapUp p tile code pos m s = s) ∧
  (∀ (p : Play) (q : TileQueue) (r : Partition) (tile : Nat) (m : QMove) (s : State), opOf m.word = 0x12 → getQueue p tile 1 = some q → q.moves = [m] →
    findPart s p.org p.shape = some r → findPart (wrapUp p tile 1 0 m s) p.org p.shape = some { r with runOpen := false } ∧
      OnlyChanges [.parts] s (wrapUp p tile 1 0 m s)) ∧
  (∀ (p : Play) (tile code pos : Nat) (m : QMove) (s : State), opOf m.word = 0x30 →
    (m.hit = [] → (∀ x ∈ m.took, rawRead { s with hints := m.place } x.1 = x.2.2) → wrapUp p tile code pos m s = s) ∧
    OnlyChanges [.caches, .host, .freeCtr, .mem] s (wrapUp p tile code pos m s)) ∧
  ∀ (p : Play) (tile : Nat) (m : QMove) (s : State), canComplete s p tile m = true ↔ m.started = true ∧ m.cut = false ∧
    opOf m.word ∉ [0x02, 0x03, 0x04] ∧ (opOf m.word = 0x12 → wf m.word 64 25 ≤ m.next ∧ unaccepted s (p.order, m.idx) = []) ∧
    (opOf m.word ∈ [0x21, 0x22, 0x23, 0x29, 0x41] → m.ready = true) ∧
    (opOf m.word = 0x30 → lostWord m = false ∧ moveWaits { s with hints := m.place } m.word = false) ∧
    (opOf m.word = 0x40 → dispatchDone s tile m.word = true)

/-- FIREAT_RELEASE, WAIT_SATISFIED and WAIT_TIMEOUT. A FIREAT whose CT word the tile's copy of CT has reached, or reaches in the present beat, completes. The
started WAIT of a queue completes while its knot satisfies it, and ends its play with 0x020B once its tile's copy of CT has seen TIMEOUT beat edges since its start
unsatisfied; WAIT_SATISFIED on a queue without a WAIT lets its head try again. A halted sequencer's own moves stand still. Else they do nothing. -/
def Claim.WaitsEnd : Prop :=
  (∀ (tile code : Nat) (s : State), (∀ p, playOfTile s tile = some p → getQueue p tile code = none) →
    exec (.waitSatisfied tile code) s = .next s ∧ exec (.waitTimeout tile code) s = .next s) ∧
  (∀ (tile : Nat) (s : State), (∀ p q, playOfTile s tile = some p → getQueue p tile 0 = some q → q.moves = []) → exec (.fireatRelease tile) s = .next s) ∧
  (∀ (tile : Nat) (p : Play) (q : TileQueue) (m : QMove) (r : List QMove) (s : State), playOfTile s tile = some p → getQueue p tile 0 = some q →
    q.moves = m :: r →
    let v := wf m.word 64 64
    (opOf m.word ≠ 0x02 ∨ timeTo (BitVec.ofNat 64 v) s = none ∨ seqHalted s tile = true → exec (.fireatRelease tile) s = .next s) ∧
    ∀ s', opOf m.word = 0x02 → timeTo (BitVec.ofNat 64 v) s = some s' → seqHalted s tile = false →
      (v ≤ (routerCt s' tile).toNat → exec (.fireatRelease tile) s = .next (completeMove p tile 0 0 m s')) ∧
      ((routerCt s' tile).toNat < v → exec (.fireatRelease tile) s = .next s)) ∧
  ∀ (tile code : Nat) (p : Play) (q : TileQueue) (s : State), playOfTile s tile = some p → getQueue p tile code = some q →
    (queueHalted s tile code = true → exec (.waitSatisfied tile code) s = .next s ∧ exec (.waitTimeout tile code) s = .next s) ∧
    (queueHalted s tile code = false → waitPos q = none →
      exec (.waitSatisfied tile code) s = .next (pump p.order tile code s) ∧ exec (.waitTimeout tile code) s = .next s) ∧
    ∀ pos m, waitPos q = some (pos, m) → q.moves[pos]? = some m ∧ m.started = true ∧ opOf m.word = 0x04 ∧
      (queueHalted s tile code = false → waitOk s tile m.word = true →
        exec (.waitSatisfied tile code) s = .next (completeMove p tile code pos m s) ∧ exec (.waitTimeout tile code) s = .next s) ∧
      (queueHalted s tile code = false → waitOk s tile m.word = false → exec (.waitSatisfied tile code) s = .next s ∧
        let beats := (routerCt s tile).toNat / 65536 - m.since
        (0 < wf m.word 107 16 → wf m.word 107 16 ≤ beats →
          exec (.waitTimeout tile code) s = .next (failPlay p.order (moveFailure Status.waitTimeout m tile) s)) ∧
        (wf m.word 107 16 = 0 ∨ beats < wf m.word 107 16 → exec (.waitTimeout tile code) s = .next s))

/-- REMOTE_TIE_ARRIVAL takes the first tie that its source has on the mesh for a node: its knot gains the amount and its TIE completes with the last of its packets. One
lost at an overrun, a mesh hop or a closed crossing adds nothing: one that a hop discards, or of a play with RERUN, faults its play at the TIE, and the step
of any other is marked FAULTED. A tie to a tile outside its play's partition is noted at that tile's running play. Without such a tie nothing happens. -/
def Claim.RemoteTiesArrive : Prop :=
  (∀ (src : Source) (node : Nat) (x : Transit) (s : State),
    (∀ i ∈ s.mesh, i.1 = src → nodeOf s i.2 = node → ∀ kind target k amount qt qc, i.2 ≠ .tie kind target k amount qt qc) →
    exec (.remoteTieArrival src node x) s = .next s) ∧
  (∀ (src : Source) (kind target k qt qc : Nat) (amount : W32) (l r : List (Source × MeshItem)) (s : State),
    let tie : MeshItem := .tie kind target k amount qt qc
    s.mesh = l ++ (src, tie) :: r → (∀ i ∈ l, i.2 ≠ tie ∧ (i.1 = src → nodeOf s i.2 ≠ nodeOf s tie)) →
    let s₀ := { s with mesh := l ++ r }
    let key := tieKnot kind target k qt
    let own (s : State) := (playOfTile s qt).elim false fun p => p.seqs.any fun q => q.tile == key / 128
    (itemClosed s₀ tie = true → ∀ x, exec (.remoteTieArrival src (nodeOf s tie) x) s = .next (losePacket 15 (src, tie) s₀)) ∧
    (itemClosed s₀ tie = false → Lands (fun x => .remoteTieArrival src (nodeOf s tie) x) (src, tie)
      (fun s => serveFetches (tieArrived qt qc (if own s then addKnot key amount s else outerTie key amount s))) s s₀)) ∧
  (∀ (key : Nat) (v : W32) (s : State), (outerTie key v s).knots = (addKnot key v s).knots ∧ OnlyChanges [.plays, .knots] s (outerTie key v s)) ∧
  (∀ (cls t c kind target k qt qc : Nat) (amount : W32) (s : State),
    let x : Source × MeshItem := (.queue t c, .tie kind target k amount qt qc)
    (playOfTile s t = none → losePacket cls x s = s) ∧
    ∀ p, playOfTile s t = some p →
      (cls = 1 ∨ p.rerun = true → losePacket cls x s = faultPlay p.order cls (itemAt p x t) s) ∧
      (cls ≠ 1 → p.rerun = false → losePacket cls x s = faultStep p.step s)) ∧
  (∀ (step : W32) (s : State), (step.toNat ≤ s.cap.committed.toNat → faultStep step s = s) ∧
    (s.cap.committed.toNat < step.toNat → (faultStep step s).cap.stepFaulted = true ∧ OnlyChanges [.cap] s (faultStep step s))) ∧
  ∀ (tile code : Nat) (p : Play) (q : TileQueue) (m : QMove) (s : State), playOfTile s tile = some p → getQueue p tile code = some q → q.moves = [m] →
    m.started = true → opOf m.word = 0x03 →
    (m.left ≤ 1 → tieArrived tile code s = completeMove p tile code 0 m s) ∧
    (1 < m.left → tieArrived tile code s = putMove p.order tile code 0 { m with left := m.left - 1 } s)

/-- RAMP_START_GRANT, 64 mesh cycles after the last one or later, takes the first request in the order of CT, field and origin: in a pass beat no run opens; else a
new run opens on its partition, which admits rows again. PASS_BEAT in a pass beat ends the runs of its field; a beat edge ends those of fields in a
pass beat. A run is live until its next row is 8 field cycles late: a run's rows are due one a cycle, on a ramped partition in the up ramp's windows of 8 cycles with
1, 2, … 6 rows before that. -/
def Claim.RampAndPassBeats : Prop :=
  (∀ (now : Nat) (s : State), s.rampQueue = [] ∨ (∃ t, s.rampLast = some t ∧ now < t + 64) → exec (.rampStartGrant now) s = .next s) ∧
  (∀ (now ct org sh : Nat) (r : List (Nat × Nat × Nat)) (s : State), s.rampQueue = (ct, org, sh) :: r → (∀ t, s.rampLast = some t → t + 64 ≤ now) →
    let u : State := { s with rampQueue := r, rampLast := some now }
    (runningOn s org sh = none ∨ findPart s org sh = none → exec (.rampStartGrant now) s = .next u) ∧
    ∀ p q, runningOn s org sh = some p → findPart s org sh = some q →
      (passing s (tileField org) = true → exec (.rampStartGrant now) s = .next (setPart { q with rampWait := false } u)) ∧
      (passing s (tileField org) = false →
        exec (.rampStartGrant now) s =
          .next (pump p.order org 1 (setPart { q with rampWait := false, runOpen := true, runRows := 0, runFrom := s.cad.ct.toNat } u)))) ∧
  (∀ (q : Partition) (s : State), s.rampQueue.Pairwise (fun a b => a.1 < b.1 ∨ (a.1 = b.1 ∧ a.2.1 ≤ b.2.1)) →
    (askRamp q s).rampQueue.Pairwise (fun a b => a.1 < b.1 ∨ (a.1 = b.1 ∧ a.2.1 ≤ b.2.1)) ∧ ∃ x ∈ (askRamp q s).rampQueue, x.2 = (q.org, q.shape)) ∧
  (∀ (f : Nat) (s : State), passing s f = true ↔
    (getField s f).passNow = true ∨
      (s.power.next.isSome = true ∧ isPassBeat ((s.cad.ct - s.power.boundary).toNat / 65536) f (getField s f).pass = true)) ∧
  (∀ (f : Nat) (s : State), (passing s f = false → exec (.passBeat f) s = .next s) ∧
    (passing s f = true → ∃ t, exec (.passBeat f) s = .next t ∧ (getField t f).passNow = true ∧ (∀ q ∈ t.parts, tileField q.org = f → q.runOpen = false) ∧
      (∀ g, g ≠ f → getField t g = getField s g) ∧ OnlyChanges [.fields, .parts] s t)) ∧
  (∀ (q : Partition) (s : State),
    let k := (getField s (tileField q.org)).clockMHz * s.cad.periodPs
    let due := q.runFrom + rowCycle (shapeRamped q.shape) q.runRows * 65536000000 / k
    (runLive s q = true ↔ q.runOpen = true ∧ (s.cad.ct.toNat - due) * k < 8 * 65536000000) ∧
    (rampOk s q = true ↔ shapeRamped q.shape = false ∨ runLive s q = true)) ∧
  (∀ u, u < 21 → let w := windowsFor (u + 1) 6 1
    rowCycle true u = 8 * (w - 1) + (u - w * (w - 1) / 2) ∧ w * (w - 1) / 2 ≤ u ∧ u < w * (w + 1) / 2) ∧
  (∀ u, 21 ≤ u → rowCycle true u = u + 27) ∧ (∀ u, rowCycle false u = u) ∧
  ∀ s : State, (closePassing s).parts = s.parts.map (fun q => if passing s (tileField q.org) = true then { q with runOpen := false } else q) ∧
    OnlyChanges [.parts] s (closePassing s)

/-- MOVE_REPLAY of a started MOVE that lost a word: a second loss faults the play (16, or 1 for parity); else the blocks are copied again, under the placements that
it latched, with a record of the lost word's class, or the copy ends or faults the play as a first one would; a copy that must wait, or no such MOVE, leaves the
state. SEQ_HANG counts the hang, makes the tile suspect, has its row ask for self-test from the second hang on, leaves a record of class 4 and faults the play;
without a play there, or with its core halted, nothing happens. -/
def Claim.ReplayAndHang : Prop :=
  (∀ (tile code : Nat) (f : MoveFault) (s : State), (∀ p q m r, playOfTile s tile = some p → getQueue p tile code = some q → q.moves = m :: r →
    (m.started && opOf m.word == 0x30 && lostWord m) = false) → exec (.moveReplay tile code f) s = .next s) ∧
  (∀ (tile code : Nat) (p : Play) (q : TileQueue) (m : QMove) (r : List QMove) (f : MoveFault) (s : State), playOfTile s tile = some p →
    getQueue p tile code = some q → q.moves = m :: r → m.started = true → opOf m.word = 0x30 → lostWord m = true →
    let m₁ := { m with fault := f, replayed := true }
    let drop (s : State) := dropMove p.order tile code 0 s
    (∀ a b, f = .overrun a b → pcieWord a b = false → exec (.moveReplay tile code f) s =
      .next (faultPlay p.order 16 (faultOf m tile) (drop (xingRecordFor p.origin p.id p.step a b false s)))) ∧
    (∀ pl x, f = .parity pl x → let r := parityMeets pl x p.origin p.id p.step s
      r.1 = true → exec (.moveReplay tile code f) s = .next (faultPlay p.order 1 (faultOf m tile) (drop r.2))) ∧
    (match replayMove p tile m f s with
      | .run m' s' => exec (.moveReplay tile code f) s = .next (addDests p.order (destsOf p tile m' s) (putMove p.order tile code 0 m' s'))
      | .fail st s' => exec (.moveReplay tile code f) s =
          .next (failPlay p.order (moveFailure st m tile) (addDests p.order (failDests p tile { m with fault := f } st s s') (drop s')))
      | .fault c s' => exec (.moveReplay tile code f) s = .next (faultPlay p.order c (faultOf m tile) (drop s'))
      | _ => exec (.moveReplay tile code f) s = .next s) ∧
    ((∀ a b, f ≠ .overrun a b) → (∀ x y, f ≠ .parity x y) → (∀ x y z, f ≠ .rim x y z) → ∀ m' s', runMove p tile m₁ s = .run m' s' →
      ∃ t, exec (.moveReplay tile code f) s = .next t ∧ Records (lostClass m) s t ∧ t.mem = s'.mem ∧ t.caches = s'.caches ∧ t.near = s'.near)) ∧
  (∀ (tile : Nat) (s : State), playOfTile s tile = none ∨ seqHalted s tile = true → exec (.seqHang tile) s = .next s) ∧
  (∀ (tile : Nat) (p : Play) (s : State), playOfTile s tile = some p → seqHalted s tile = false → getPlay s p.order = some p → p.live = true →
    ∃ t y, exec (.seqHang tile) s = .next t ∧ lookupD 0 (physTile s tile) t.rel.hangs = lookupD 0 (physTile s tile) s.rel.hangs + 1 ∧
      (∃ x ∈ t.rel.suspects, x.unit = physTile s tile ∧ x.cls = 4) ∧
      (1 ≤ lookupD 0 (physTile s tile) s.rel.hangs → physTile s tile / 512 * 16 + physTile s tile % 512 / 32 ∈ t.rel.selfTest) ∧
      Records 4 s t ∧ Raises Ev.seqHang s t ∧ getPlay t p.order = some y ∧
      y.faulted = some 4 ∧ (∀ z ∈ y.seqs, z.stopped = true) ∧ OnlyChanges [.plays, .rel, .host, .store, .xing] s t)

/-- PART, at dispatch: the first failing check refuses it; else the region's partitions give way to new ones, busy, and no reply goes out until PART_COMPLETE, which
frees the partitions that this PART made and replies. PART_COMPLETE without such a PART does nothing. -/
def Claim.PartitionsAreCut : Prop :=
  (∀ (p : Packet) (s : State), Admitted 0x0303 p s →
    let org := tgtOrg p.tgt
    let sh := tgtShape p.tgt
    let n := item p.param 0 1
    (∀ st, partCheck s org sh n none = some st → ∃ t, exec (.part p) s = .next t ∧ Answered p st 0 s t ∧ OnlyChanges [.arrivals, .host] s t) ∧
    (partCheck s org sh n none = none →
      ∃ t, exec (.part p) s = .next t ∧ t.parting = s.parting ++ [(org, sh, s.partNext, some p)] ∧ t.partNext = s.partNext + 1 ∧
        t.parts = (s.parts.filter fun q => !overlaps q.org q.shape org sh) ++
          (cutOrigins org sh n).map (fun o => { org := o, shape := n, busy := true, maker := s.partNext }) ∧
        t.host = s.host ∧ OnlyChanges [.arrivals, .parts, .parting, .removed] s t)) ∧
  (∀ (org sh : Nat) (s : State), (s.parting.find? fun x => x.1 == org && x.2.1 == sh) = none → exec (.partComplete org sh) s = .next s) ∧
  (∀ (org sh n : Nat) (c : Option Packet) (s : State), (s.parting.find? fun x => x.1 == org && x.2.1 == sh) = some (org, sh, n, c) →
    (∀ p, c = some p → p.rsv = 0 ∧ stepOpcode p.opc = false) →
    ∃ t, exec (.partComplete org sh) s = .next t ∧ t.parting = s.parting.erase (org, sh, n, c) ∧
      t.parts = s.parts.map (fun q => if q.maker = n then { q with busy := false } else q) ∧
      (c = none → t.host = s.host) ∧ (∀ p, c = some p → Answered p 0 0 s t) ∧ OnlyChanges [.parting, .parts, .host] s t)

/-- LOAN. A lend is refused with the first failing check (partitions, range, a loan already, a play of the lender running or pending before it, 64 loans); else it
lends and its DETAIL names the loan. A revoke of no loan is LOAN_ID; it ends the loan, with its reply, at once where the borrower runs no play, else when
LOAN_REVOKE_EFFECT finds that none runs any more. Any other OP is HEADER. -/
def Claim.LoansAreMade : Prop :=
  (∀ (p : Packet) (s : State), Admitted 0x0201 p s →
    let refused (st : BitVec 16) : Prop := ∃ t, exec (.loan p) s = .next t ∧ Answered p st 0 s t ∧ OnlyChanges [.arrivals, .host] s t
    let op := item p.param 0 1
    let lo := item p.param 2 2 % 2048
    let lsh := item p.param 2 2 / 2048 % 8
    let bo := item p.param 4 2 % 2048
    let bsh := item p.param 4 2 / 2048 % 8
    let off := item p.param 6 1
    let len := item p.param 7 1
    let named := (findPart s lo lsh).isSome && (findPart s bo bsh).isSome && !(lo == bo && lsh == bsh)
    let ranged := decide (1 ≤ len) && decide (off + len ≤ 128)
    let before := playsBefore s lo lsh s.arrivals s.cad.ct
    (1 < op → refused Status.header) ∧
    (op = 0 → named = false → refused Status.noPartition) ∧
    (op = 0 → named = true → ranged = false → refused Status.addrRange) ∧
    (op = 0 → named = true → ranged = true → inLoan s lo lsh = true → refused Status.partLent) ∧
    (op = 0 → named = true → ranged = true → inLoan s lo lsh = false → before = true → refused Status.partBusy) ∧
    (op = 0 → named = true → ranged = true → inLoan s lo lsh = false → before = false → 64 ≤ s.loans.length → refused Status.loanFull) ∧
    (op = 0 → named = true → ranged = true → inLoan s lo lsh = false → before = false → s.loans.length < 64 →
      ∃ t, exec (.loan p) s = .next t ∧ t.loanNext = s.loanNext + 1 ∧
        t.loans = s.loans ++ [{ id := s.loanNext, lendOrg := lo, lendShape := lsh, borOrg := bo, borShape := bsh, off, len }] ∧
        Answered p 0 (BitVec.ofNat 64 (s.loanNext % 2 ^ 32)) s t ∧ OnlyChanges [.arrivals, .loans, .host] s t) ∧
    (op = 1 → (s.loans.find? fun l => l.id == item p.param 8 4) = none → refused Status.loanId) ∧
    (∀ l, op = 1 → (s.loans.find? fun l => l.id == item p.param 8 4) = some l → runningOn s l.borOrg l.borShape = none → l.revokers = [] →
      ∃ t, exec (.loan p) s = .next t ∧ t.loans = s.loans.filter (fun x => x.id != l.id) ∧ Answered p 0 0 s t ∧
        OnlyChanges [.arrivals, .loans, .host] s t) ∧
    (∀ l, op = 1 → (s.loans.find? fun l => l.id == item p.param 8 4) = some l → (runningOn s l.borOrg l.borShape).isSome = true →
      ∃ t, exec (.loan p) s = .next t ∧ t.host = s.host ∧ OnlyChanges [.arrivals, .loans] s t ∧
        t.loans = s.loans.map (fun x => if x.id = l.id then { l with revoking := true, revokers := l.revokers ++ [p] } else x))) ∧
  (∀ (s : State) (org sh n : Nat) (ct : CtWord), playsBefore s org sh n ct = true ↔
    ∃ y ∈ s.plays, y.org = org ∧ y.shape = sh ∧ ¬(y.state ≠ .running ∧ y.fire = ct ∧ n < y.order)) ∧
  ∀ (n : Nat) (s : State),
    ((s.loans.find? fun l => l.id == n) = none → exec (.loanRevokeEffect n) s = .next s) ∧
    ∀ l, (s.loans.find? fun l => l.id == n) = some l →
      (l.revoking = false ∨ (runningOn s l.borOrg l.borShape).isSome = true → exec (.loanRevokeEffect n) s = .next s) ∧
      (l.revoking = true → runningOn s l.borOrg l.borShape = none → exec (.loanRevokeEffect n) s = .next (endLoan l s))

/-- HINT_PLACE refuses items that R235 does not allow, with MOVE_FIELD, and ranges outside the region-table entry or the host's addresses with ADDR_RANGE; else the
buffer lies as the items say and every other buffer as before. -/
def Claim.HintsArePlaced : Prop :=
  ∀ (p : Packet) (s : State), Admitted 0x0202 p s →
    let n := item p.param 0 1
    let h : HintBuf := { nreg := item p.param 1 1, hport := item p.param 2 1, nlen := item p.param 8 8, noff := item p.param 16 8,
                         hlen := item p.param 24 8, haddr := item p.param 32 8 }
    let r := lookupD {} h.nreg s.regions
    let refused (st : BitVec 16) : Prop := ∃ t, exec (.hintPlace p) s = .next t ∧ Answered p st 0 s t ∧ OnlyChanges [.arrivals, .host] s t
    let formed := n ≤ 63 ∧ h.hport ≤ 1 ∧ h.nlen % 128 = 0 ∧ h.hlen % 4096 = 0 ∧ h.haddr % 4096 = 0 ∧ h.size ≤ hintSpan
    let near := h.nlen = 0 ∨ (r.valid = true ∧ r.typ = false ∧ h.nreg < 64 ∧ h.noff + h.nlen ≤ r.bytes)
    let host := h.hlen = 0 ∨ h.haddr + h.hlen ≤ 2 ^ 48
    (¬formed → refused Status.moveField) ∧ (formed → ¬(near ∧ host) → refused Status.addrRange) ∧
    (formed → near → host → ∃ t, exec (.hintPlace p) s = .next t ∧ lookup n t.hints = some h ∧
      (∀ k, k ≠ n → lookup k t.hints = lookup k s.hints) ∧ Answered p 0 0 s t ∧ OnlyChanges [.arrivals, .hints, .host] s t)

/-! ### Memory tiers and near stacks (chapters 08 to 10) -/

/-- In memory of canonical form, a byte of module memory that is mapped reads as it was last written, and a write leaves every other place as it was; a write to a near-tier address in
no valid entry is discarded. -/
def Claim.MemoryReadAfterWrite : Prop :=
  ∀ (a b : Nat) (v : Byte) (s : State),
    (Inv s → (memKey s a).isSome = true → readByte (writeByte a v s) a = v) ∧
    (memKey s a ≠ memKey s b → readByte (writeByte a v s) b = readByte s b) ∧
    (memKey s a = none → writeByte a v s = s) ∧ OnlyChanges [.mem] s (writeByte a v s) ∧ (Inv s → Inv (writeByte a v s))

/-- The interleave of R275 maps two different addresses of a region-table entry to two different places (stack, channel, byte of the channel). -/
def Claim.InterleaveIsInjective : Prop :=
  ∀ (r : Region) (a b : Nat), r.first ≤ a → r.first ≤ b → nearDecode r a = nearDecode r b → a = b

/-- Every channel row that the interleave reaches has its stack below 1024, its channel below 32 and its bank below 16; without SPREAD the stack is one of
the entry's field. -/
def Claim.InterleaveStaysInTier : Prop :=
  ∀ (r : Region) (a : Nat), r.first ≤ a →
    (nearDecode r a).1.stack < 1024 ∧ (nearDecode r a).1.chan < 32 ∧ (nearDecode r a).1.bank < 16 ∧
      (r.spread = false → (nearDecode r a).1.stack / 128 = r.field.toNat)

/-- REGION_n, written in the privileged view: bits [127:64] are staged; bits [63:0] with them make the entry when it is not valid
or passes R273, and otherwise leave the entry as it was, with REGION_REJECT and the reason. With the lock closed a write only raises LOCK_VIOLATION;
in a job view nothing happens. -/
def Claim.RegionWritesAreChecked : Prop :=
  ∀ (h : HostAccess) (n : Nat) (v : W64) (s : State), Serves s →
    (h.job = true → exec (.regionStage h n v) s = .next s ∧ exec (.regionWrite h n v) s = .next s) ∧
    (h.job = false → s.host.privOpen = false →
      exec (.regionStage h n v) s = .next (post Ev.lockViolation [] s) ∧ exec (.regionWrite h n v) s = .next (post Ev.lockViolation [] s)) ∧
    (h.job = false → s.host.privOpen = true →
      exec (.regionStage h n v) s = .next { s with regions := upsert n { getRegion s n with staged := some v } s.regions } ∧
      (let r := regionFrom ((getRegion s n).staged.getD (getRegion s n).upper) v
       (r.valid = false ∨ regionReason s n r = none → exec (.regionWrite h n v) s = .next { s with regions := upsert n r s.regions }) ∧
       (∀ k, r.valid = true → regionReason s n r = some k →
         exec (.regionWrite h n v) s =
           .next (post Ev.regionReject (det [(1, k)]) { s with regions := upsert n { getRegion s n with staged := none } s.regions }))))

/-- A valid entry that R273 accepts overlaps no other valid entry in addresses, and shares no channel byte with one. -/
def Claim.AcceptedRegionsDoNotOverlap : Prop :=
  ∀ (s : State) (n k : Nat) (r x : Region), regionReason s n r = none → (k, x) ∈ s.regions → k ≠ n → x.valid = true →
    (r.first + r.bytes ≤ x.first ∨ x.first + x.bytes ≤ r.first) ∧
      (shareChannel r x = true → r.chFirst + r.share ≤ x.chFirst ∨ x.chFirst + x.share ≤ r.chFirst)

/-- ROW_REPAIR of a row that is not retired: a soft spare of its bank, while fewer than eight of the physical channel's bank are used, takes it, with
ROW_REPAIRED and a record of class 5, or 6 where it could not be read, then also with its granule restored; the 65th repaired row of a channel makes
it migrate. With all eight used the row is retired, with PAGE_RETIRED; with 16,384 rows retired its stack is spliced instead. A retired row is
left. A row that the copier of a running migration or splice could not read is restored; with no such copier nothing happens. -/
def Claim.RowsAreRepairedOrRetired : Prop :=
  ∀ (n c bank row : Nat) (readable copier : Bool) (s : State), (Instr.rowRepair n c bank row readable copier).wf = true →
    let x : Retired := { stack := n, chan := c, bank := bank, row := row }
    let free : List Part := if readable then [] else [.mem, .freeCtr]
    let cls := if readable then 5 else 6
    (copier = true →
      (readable = true ∨ copies s n c = false → exec (.rowRepair n c bank row readable copier) s = .next s) ∧
      (readable = false → copies s n c = true →
        ∃ t, exec (.rowRepair n c bank row readable copier) s = .next t ∧ Restored x s t ∧ OnlyChanges [.near, .mem, .freeCtr] s t)) ∧
    (copier = false → x ∈ s.near.retired → exec (.rowRepair n c bank row readable copier) s = .next s) ∧
    (copier = false → x ∉ s.near.retired → bankRepairs s (chanNo s n c) bank false < 8 →
      ∃ t, exec (.rowRepair n c bank row readable copier) s = .next t ∧ RepairedRow x s t ∧ HostSame s t ∧ (readable = false → Restored x s t) ∧
        (repairedRows x s ≤ 64 → Raises Ev.rowRepaired s t ∧ Records cls s t ∧ OnlyChanges ([.near, .store, .host, .xing] ++ free) s t) ∧
        (64 < repairedRows x s → (getStack s n).splicing = false → (getStack s n).migrating = none → freeSpares s n ≠ [] →
          (getStack t n).migrating = some c ∧ OnlyChanges ([.near, .store, .host, .xing] ++ free) s t)) ∧
    (copier = false → x ∉ s.near.retired → 8 ≤ bankRepairs s (chanNo s n c) bank false → s.near.retired.length < 16384 →
      ∃ t, exec (.rowRepair n c bank row readable copier) s = .next t ∧ t.near.retired = s.near.retired ++ [x] ∧ Raises Ev.pageRetired s t ∧ Records cls s t ∧
        HostSame s t ∧ OnlyChanges [.near, .store, .host, .xing] s t) ∧
    (copier = false → x ∉ s.near.retired → 8 ≤ bankRepairs s (chanNo s n c) bank false → 16384 ≤ s.near.retired.length → (getStack s n).splicing = false →
      (stackSpare s n).isSome = true →
      ∃ t, exec (.rowRepair n c bank row readable copier) s = .next t ∧ (getStack t n).splicing = true ∧ t.near.retired = s.near.retired ∧
        Raises Ev.stackSplice s t ∧ Records cls s t ∧ (readable = false → Restored x s t) ∧ HostSame s t ∧
        OnlyChanges ([.near, .store, .host, .xing] ++ free) s t)

/-- CH_MIGRATE, one migration at a time: on a stack with none a channel starts its own where a spare channel works, with CH_MIGRATE, and else asks for the
stack's splice, with STACK_SPLICE, each with a record of class 7; with another running it waits; while the stack is spliced, or the channel already
moves or waits, nothing happens. A row that came broken over the transport is restored besides. -/
def Claim.ChannelsMigrate : Prop :=
  ∀ (n c : Nat) (s : State),
    ((getStack s n).splicing = true → exec (.chMigrate n c none) s = .next s) ∧
    ((getStack s n).migrating = some c ∨ ((getStack s n).migrating.isSome = true ∧ c ∈ (getStack s n).waiting) → exec (.chMigrate n c none) s = .next s) ∧
    (∀ d, (getStack s n).splicing = false → (getStack s n).migrating = some d → d ≠ c → c ∉ (getStack s n).waiting →
      ∃ t, exec (.chMigrate n c none) s = .next t ∧ getStack t n = { getStack s n with waiting := (getStack s n).waiting ++ [c] } ∧
        (∀ m, m ≠ n → getStack t m = getStack s m) ∧ OnlyChanges [.near] s t) ∧
    ((getStack s n).splicing = false → (getStack s n).migrating = none → freeSpares s n ≠ [] →
      ∃ t, exec (.chMigrate n c none) s = .next t ∧ (getStack t n).migrating = some c ∧ Raises Ev.chMigrate s t ∧ Records 7 s t ∧ HostSame s t ∧
        OnlyChanges [.near, .store, .host, .xing] s t) ∧
    ((getStack s n).splicing = false → (getStack s n).migrating = none → freeSpares s n = [] → (stackSpare s n).isSome = true →
      ∃ t, exec (.chMigrate n c none) s = .next t ∧ (getStack t n).splicing = true ∧ Raises Ev.stackSplice s t ∧ Records 7 s t ∧ HostSame s t ∧
        OnlyChanges [.near, .store, .host, .xing] s t) ∧
    (∀ row, n < 1024 → c < 32 → row < 524288 → ∃ s₁, Restored (rowAt n c row) s s₁ ∧ s₁.near.units = s.near.units ∧ OnlyChanges [.near, .mem, .freeCtr] s s₁ ∧
      exec (.chMigrate n c (some row)) s = exec (.chMigrate n c none) s₁)

/-- MIGRATION_SWITCH of a migrating channel: it is served by the stack's next working spare channel, its old one recorded as bad, with CH_MIGRATE and a record
of class 7, and the next that waits starts; a spare that fails is recorded, and another takes the migration, with a record of class 7 each. Of a stack that is spliced: the
pair row's spare serves it, on channels of it that work, the old stack recorded as bad, with STACK_SPLICE and a record of class 8; where the spare fails it is
recorded and the stack stays, degraded, with NS_DEGRADED. While the stack is quiesced the copier stands still; of a channel that does not move
nothing happens. -/
def Claim.MigrationsSwitch : Prop :=
  ∀ (n c : Nat) (s : State), c < 32 → n < 1024 →
    ((getStack s n).thermal = .quiesced → exec (.migrationSwitch n c false) s = .next s) ∧
    (∀ f, (getStack s n).splicing = false → (getStack s n).migrating ≠ some c → exec (.migrationSwitch n c f) s = .next s) ∧
    (∀ p l, (getStack s n).thermal ≠ .quiesced → (getStack s n).splicing = false → (getStack s n).migrating = some c → freeSpares s n = p :: l →
      ∃ t, exec (.migrationSwitch n c false) s = .next t ∧ physChan (getStack t n) c = p ∧
        (physStack s n, physChan (getStack s n) c) ∈ t.store.badChannels ∧ HostSame s t ∧
        ((getStack s n).waiting = [] → (getStack t n).migrating = none ∧ Raises Ev.chMigrate s t ∧ Records 7 s t) ∧
        (∀ d r, (getStack s n).waiting = d :: r → l ≠ [] → (getStack t n).migrating = some d ∧ (getStack t n).waiting = r) ∧
        OnlyChanges [.near, .store, .host, .xing, .rel] s t) ∧
    (∀ p q l, (getStack s n).splicing = false → (getStack s n).migrating = some c → freeSpares s n = p :: q :: l →
      ∃ t, exec (.migrationSwitch n c true) s = .next t ∧ (physStack s n, p) ∈ t.store.badChannels ∧ (getStack t n).migrating = some c ∧
        physChan (getStack t n) c = physChan (getStack s n) c ∧ HostSame s t ∧
        (Calm s → ∃ a b, a.cls = 7 ∧ b.cls = 7 ∧ t.store.ledger = (a :: b :: s.store.ledger).take 262144) ∧ OnlyChanges [.near, .store, .host, .xing] s t) ∧
    ((getStack s n).thermal ≠ .quiesced → (getStack s n).splicing = true →
      ∃ t, exec (.migrationSwitch n c false) s = .next t ∧ (getStack t n).spliced = true ∧ (getStack t n).splicing = false ∧
        physStack t n = spareStack n ∧ (∀ m, usable s (spareStack n) = some m → (getStack t n).chanMap = m) ∧ physStack s n ∈ t.store.badStacks ∧
        Raises Ev.stackSplice s t ∧ Records 8 s t ∧ HostSame s t ∧ OnlyChanges [.near, .store, .host, .xing, .rel] s t) ∧
    ((getStack s n).splicing = true →
      ∃ t, exec (.migrationSwitch n c true) s = .next t ∧ (getStack t n).splicing = false ∧ (getStack t n).degraded = true ∧
        (getStack t n).spliced = (getStack s n).spliced ∧ spareStack n ∈ t.store.badStacks ∧ t.rel.secondFault = true ∧ Raises Ev.nsDegraded s t ∧ Records 8 s t ∧
        HostSame s t ∧ OnlyChanges [.near, .store, .host, .rel, .xing] s t)

/-- STACK_SPLICE: with the pair row's spare working and unused the splice starts, any migration of the stack ended, with STACK_SPLICE; with none the stack stays in
service, degraded, with NS_DEGRADED and SECOND_FAULT; each with a record of class 8. In a running splice nothing happens, but that a free value is
drawn. -/
def Claim.StackSplices : Prop :=
  ∀ (n : Nat) (s : State),
    ((getStack s n).splicing = true → ∃ t, exec (.stackSplice n) s = .next t ∧ OnlyChanges [.freeCtr] s t) ∧
    ((getStack s n).splicing = false → (stackSpare s n).isSome = true →
      ∃ t, exec (.stackSplice n) s = .next t ∧ (getStack t n).splicing = true ∧ (getStack t n).migrating = none ∧ (getStack t n).waiting = [] ∧
        Raises Ev.stackSplice s t ∧ Records 8 s t ∧ HostSame s t ∧ OnlyChanges [.near, .store, .host, .freeCtr, .xing] s t) ∧
    ((getStack s n).splicing = false → (stackSpare s n).isSome = false →
      ∃ t, exec (.stackSplice n) s = .next t ∧ (getStack t n).degraded = true ∧ (getStack t n).splicing = false ∧ t.rel.secondFault = true ∧
        Raises Ev.nsDegraded s t ∧ Records 8 s t ∧ HostSame s t ∧ OnlyChanges [.near, .store, .host, .freeCtr, .rel, .xing] s t)

/-- TURN_BOUNDARY at beat 0: NS_CAL_NEXT takes the slot of the next turn, a beat edge of it or none, and the slot it announced for this turn comes into force; at
any other time, or with another slot, nothing happens. -/
def Claim.CalibrationSlotIsAnnounced : Prop :=
  ∀ (slot : CtWord) (s : State),
    (ctRuns s = true → ctBeat s.cad.ct = 0 → slot = 0 ∨ (ctTurn slot = ctTurn s.cad.ct + 1 ∧ slot.toNat % 65536 = 0) →
      ∃ t, exec (.turnBoundary slot) s = .next t ∧ t.near.calNext = slot ∧
        (ctTurn s.near.calNext = ctTurn s.cad.ct → t.near.calSlot = s.near.calNext) ∧
        (ctTurn s.near.calNext ≠ ctTurn s.cad.ct → ctTurn s.near.calSlot ≠ ctTurn s.cad.ct → t.near.calSlot = 0) ∧
        t.near.units = s.near.units ∧ OnlyChanges [.near] s t) ∧
    (ctRuns s = false ∨ ctBeat s.cad.ct ≠ 0 ∨ (slot ≠ 0 ∧ (ctTurn slot ≠ ctTurn s.cad.ct + 1 ∨ slot.toNat % 65536 ≠ 0)) →
      exec (.turnBoundary slot) s = .next s)

/-- CALIBRATION_SLOT in the announced slot, behind the events of that CT, of the channel whose turn it is, on a stack that is not quiesced and had no slot in the last 64 turns: its margins are
kept and the next channel's turn comes; a timing eye below 150 ps, a voltage eye below 40 mV or a failed training makes the channel migrate. In any
other case nothing happens. REFRESH: unless foreground bursts hold it with at most 8 intervals owed, a channel has refreshed once more; the
intervals come every 3.9 µs of refresh time, which runs at double speed above 85 °C. -/
def Claim.CalibrationAndRefresh : Prop :=
  (∀ (n c a b v : Nat) (tr : Bool) (s : State),
    let x := getStack s n
    let rested := ∀ u d, x.calLast = some (u, d) → u + 64 ≤ ctTurn s.cad.ct
    let goes := inSlot s = true ∧ inTurn (s.near.calSlot.toNat, 5, 0) s = true ∧ x.thermal ≠ .quiesced ∧ c = x.calChan ∧ rested
    (¬goes → exec (.calibrationSlot n c a b v tr) s = .next s) ∧
    (goes → ∃ s₁, getStack s₁ n = { x with calLast := some (ctTurn s.cad.ct, c), calChan := (c + 1) % 32, margins := upsert c (a, b, v) x.margins } ∧
      (∀ m, m ≠ n → getStack s₁ m = getStack s m) ∧ s₁.near = { s.near with units := s₁.near.units } ∧ OnlyChanges [.near] s s₁ ∧
      (150 ≤ a → 150 ≤ b → 40 ≤ v → tr = true → exec (.calibrationSlot n c a b v tr) s = .next s₁) ∧
      (a < 150 ∨ b < 150 ∨ v < 40 ∨ tr = false → exec (.calibrationSlot n c a b v tr) s = exec (.chMigrate n c none) s₁))) ∧
  ∀ (n c : Nat) (busy : Bool) (s : State),
    let x := getStack s n
    owed s x c = refreshTime s x / 3900000 - lookupD 0 c x.refreshed ∧
    (∀ at_, x.refreshAt = some at_ → refreshTime s x = x.refreshPs + sincePs s at_ * (if x.temp ≤ 85 then 1 else 2)) ∧
    (busy = true → owed s x c ≤ 8 → exec (.refresh n c busy) s = .next s) ∧
    (busy = false ∨ 8 < owed s x c →
      ∃ t, exec (.refresh n c busy) s = .next t ∧ getStack t n = { x with refreshed := (getStack t n).refreshed } ∧
        (∀ d, lookupD 0 d (getStack t n).refreshed = lookupD 0 d x.refreshed + (if d = c then 1 else 0)) ∧
        (∀ m, m ≠ n → getStack t m = getStack s m) ∧ OnlyChanges [.near] s t)

/-- SCRUB reads the next row of a channel of a stack that is not quiesced, in a lap that begins with its first read. A row read well only moves the channel on; a
corrected row is counted, with ROW_REPAIRED and a record of class 5, and the third time in a lap, or when it cannot be read, a soft spare of its bank takes it. With
the last row of the tier's last channel the lap ends: LAP takes its seconds, the next lap's counts begin, and the rule on latent faults holds again
after a lap within its bound in which none was starved. A quiesced stack, or a channel past its rows, reads nothing. -/
def Claim.ScrubLaps : Prop :=
  ∀ (n c : Nat) (r : ArrayRead) (s : State), n < 1024 → c < 32 →
    let x := getStack s n
    let rw := lookupD 0 c x.scrubAt
    let y := rowAt n c rw
    let last := ∀ m < 1024, ∀ d < 32, lookupD 0 d (getStack s m).scrubAt = if m = n ∧ d = c then 524287 else 524288
    let start := if s.near.lapStart = none then nowCt s else s.near.lapStart
    let sec := lapSeconds { s with near := { s.near with lapStart := start } }
    (x.thermal = .quiesced ∨ rw = 524288 → exec (.scrub n c r) s = .next s) ∧
    (x.thermal ≠ .quiesced → rw < 524288 →
      (¬last → r = .ok → ∃ t, exec (.scrub n c r) s = .next t ∧ getStack t n = { x with scrubAt := upsert c (rw + 1) x.scrubAt } ∧ t.near.lapStart = start ∧
        (∀ m, m ≠ n → getStack t m = getStack s m) ∧ OnlyChanges [.near] s t) ∧
      (last → r = .ok → ∃ t, exec (.scrub n c r) s = .next t ∧ t.near.lap = BitVec.ofNat 32 sec ∧ t.near.lapStart = none ∧
        (∀ m, (getStack t m).rowHits = [] ∧ (getStack t m).scrubAt = []) ∧
        (t.near.starvedForce = true ↔ s.near.starvedForce = true ∧ (s.near.lapStarved = true ∨ s.near.bound.toNat * 60 < sec)) ∧ OnlyChanges [.near] s t) ∧
      (¬last → r = .corrected → lookupD 0 (c * 524288 + rw) x.rowHits < 2 →
        ∃ t, exec (.scrub n c r) s = .next t ∧ lookupD 0 (c * 524288 + rw) (getStack t n).rowHits = lookupD 0 (c * 524288 + rw) x.rowHits + 1 ∧
          lookupD 0 c (getStack t n).scrubAt = rw + 1 ∧ (getStack t n).corrected = min (x.corrected + 1) (2 ^ 32 - 1) ∧ Raises Ev.rowRepaired s t ∧ Records 5 s t ∧
          HostSame s t ∧ OnlyChanges [.near, .store, .host, .xing] s t) ∧
      (¬last → r = .bad ∨ (r = .corrected ∧ 2 ≤ lookupD 0 (c * 524288 + rw) x.rowHits) → y ∉ s.near.retired → bankRepairs s (chanNo s n c) y.bank false < 8 →
        repairedRows y s ≤ 64 →
        ∃ t, exec (.scrub n c r) s = .next t ∧ RepairedRow y s t ∧ lookupD 0 c (getStack t n).scrubAt = rw + 1 ∧ HostSame s t ∧
          (r = .bad → Restored y s t ∧ Raises Ev.rowRepaired s t ∧ Records 6 s t) ∧
          (r = .corrected → Calm s → ∃ a b, a.cls = 5 ∧ b.cls = 5 ∧ t.store.ledger = (a :: b :: s.store.ledger).take 262144) ∧
          OnlyChanges ([.near, .store, .host, .xing] ++ (if r = .bad then [.mem, .freeCtr] else [])) s t))

/-- SCRUB_STARVED: once in a lap that has lasted longer than its bound, STARVED is set and SCRUB_STARVED raised; else nothing happens. -/
def Claim.ScrubStarves : Prop :=
  ∀ s : State,
    (s.near.lapStarved = true ∨ lapSeconds s ≤ s.near.bound.toNat * 60 → exec .scrubStarved s = .next s) ∧
    (s.near.lapStarved = false → s.near.bound.toNat * 60 < lapSeconds s →
      exec .scrubStarved s =
        .next (post Ev.scrubStarved [] { s with near := { s.near with starved := true, starvedForce := true, lapStarved := true } }))

/-- RIM_SCRUB: a capstan that works, is not in its rebuild, is not quiesced and has units left in the lap reads its next one. A unit read well only moves it on; a
corrected one counts with its row, with a record of class 9. The third time in a lap, or when it cannot be read, the row takes a soft repair of the rim stack, with a
record of class 9 more, and with none left the capstan fails, a spare die taking its place while there is one; an unreadable unit of the alternate bank keeps a
capstan without a confirmation from confirming, any other is rebuilt over the ring, unless another of its group is down. Once in a lap beyond its bound the rim is starved. With the last unit of the last capstan the lap
ends, its seconds in LAP. A capstan that reads nothing only finds a starved lap. -/
def Claim.RimScrubLaps : Prop :=
  ∀ (k : Nat) (row : Nat) (r : ArrayRead) (s : State), k < 32 →
    let c := getCapstan s k
    let start := if s.cap.rimLapStart = none then nowCt s else s.cap.rimLapStart
    let starves := s.cap.rimLapStarved = false ∧ s.cap.rimBound.toNat * 60 < rimLapSeconds { s with cap := { s.cap with rimLapStart := start } }
    let last := ∀ j < 32, (getCapstan s j).failed = true ∨ (getCapstan s j).scrubAt = if j = k then rimUnits - 1 else rimUnits
    let runs := c.failed = false ∧ c.rebuilding = false ∧ c.rimThermal ≠ .quiesced ∧ c.scrubAt < rimUnits
    let dead := unitBank c.scrubAt = altBank s ∧ unconfirmed s k = true
    (s.cap.rimLapStarved = true ∨ rimLapSeconds s ≤ s.cap.rimBound.toNat * 60 →
      exec (.rimScrub k none) s = .next s) ∧
    (c.failed = true ∨ c.rebuilding = true ∨ c.rimThermal = .quiesced ∨ c.scrubAt = rimUnits →
      exec (.rimScrub k (some (row, r))) s = exec (.rimScrub k none) s) ∧
    (s.cap.rimLapStarved = false → s.cap.rimBound.toNat * 60 < rimLapSeconds s →
      exec (.rimScrub k none) s =
        .next (post Ev.scrubStarved [] { s with cap := { s.cap with rimStarved := true, rimStarvedForce := true, rimLapStarved := true } })) ∧
    (runs → ¬starves → ¬last →
      (r = .ok → ∃ t, exec (.rimScrub k (some (row, r))) s = .next t ∧ getCapstan t k = { c with scrubAt := c.scrubAt + 1 } ∧
        t.cap.rimLapStart = start ∧ OnlyChanges [.cap] s t) ∧
      (r = .corrected → lookupD 0 row c.rimHits < 2 →
        ∃ t, exec (.rimScrub k (some (row, r))) s = .next t ∧
          getCapstan t k = { c with scrubAt := c.scrubAt + 1, corrected := min (c.corrected + 1) (2 ^ 64 - 1),
                                    rimHits := upsert row (lookupD 0 row c.rimHits + 1) c.rimHits } ∧
          Records 9 s t ∧ OnlyChanges [.cap, .store] s t) ∧
      (r = .bad ∨ (r = .corrected ∧ 2 ≤ lookupD 0 row c.rimHits) → (s.store.rimRepairs.filter fun x => x.die == c.die && !x.hard).length < Config.rimSoft →
        ∃ t, exec (.rimScrub k (some (row, r))) s = .next t ∧ t.store.rimRepairs = s.store.rimRepairs ++ [{ die := c.die, row := row }] ∧
          (getCapstan t k).scrubAt = c.scrubAt + 1 ∧ (getCapstan t k).failed = false ∧
          (∃ l, l.length = (if r = .bad ∧ dead then 1 else 2) ∧ (∀ x ∈ l, x.cls = 9) ∧ t.store.ledger = (l ++ s.store.ledger).take 262144) ∧
          (getCapstan t k).lost = (c.lost || decide (r = .bad ∧ dead)) ∧ (r = .corrected ∨ dead ∨ groupDown s k = false → t.mem = s.mem) ∧
          OnlyChanges [.cap, .store, .mem, .freeCtr] s t) ∧
      (r = .bad ∨ (r = .corrected ∧ 2 ≤ lookupD 0 row c.rimHits) → Config.rimSoft ≤ (s.store.rimRepairs.filter fun x => x.die == c.die && !x.hard).length →
        ∃ t, exec (.rimScrub k (some (row, r))) s = .next t ∧ HostSame s t ∧ (spareDice s = [] → (getCapstan t k).failed = true) ∧
          (∀ d l, spareDice s = d :: l → (getCapstan t k).die = d ∧ (getCapstan t k).rebuilding = true))) ∧
    (runs → starves → ¬last → r = .ok →
      ∃ t, exec (.rimScrub k (some (row, r))) s = .next t ∧ getCapstan t k = { c with scrubAt := c.scrubAt + 1 } ∧ t.cap.rimStarved = true ∧
        t.cap.rimStarvedForce = true ∧ t.cap.rimLapStarved = true ∧ Raises Ev.scrubStarved s t ∧ HostSame s t ∧
        OnlyChanges [.cap, .host, .store, .xing] s t) ∧
    (runs → last → r = .ok →
      ∃ t, exec (.rimScrub k (some (row, r))) s = .next t ∧ t.cap.rimLap = BitVec.ofNat 32 (rimLapSeconds { s with cap := { s.cap with rimLapStart := start } }) ∧
        t.cap.rimLapStart = none ∧ (∀ j, (getCapstan t j).rimHits = [] ∧ (getCapstan t j).scrubAt = 0) ∧
        (t.cap.rimStarvedForce = true ↔ s.cap.rimStarvedForce = true ∧ (s.cap.rimLapStarved = true ∨
          s.cap.rimBound.toNat * 60 < rimLapSeconds { s with cap := { s.cap with rimLapStart := start } })) ∧ OnlyChanges [.cap] s t)

/-- NS_THERMAL, at a beat edge: each sensor's reading is taken where two samples agree, and the highest is the stack's temperature. Above 105 °C it is
quiesced at once; FULL goes to T75 at 95 °C; 256 beats in a row at or above 95 °C go one state down, 256 below 92 °C one up; a quiesced stack at or
below 100 °C goes to T25. A near stack's change raises NS_THERMAL; a rim stack's states follow the same table with no event. What waited for a
channel that serves again goes on. -/
def Claim.ThermalStates : Prop :=
  ∀ (n : Nat) (a b : List Int) (s : State), a.length = 16 → b.length = 16 →
    let after (x : Thermal) (temp : Int) (hot cool : Nat) : Thermal :=
      if 105 < temp then .quiesced
      else match x with
        | .full => if 95 ≤ temp then .t75 else .full
        | .t75 => if 256 ≤ hot then .t50 else if 256 ≤ cool then .full else .t75
        | .t50 => if 256 ≤ hot then .t25 else if 256 ≤ cool then .t75 else .t50
        | .t25 => if 256 ≤ cool then .t50 else .t25
        | .quiesced => if temp ≤ 100 then .t25 else .quiesced
    (let x := getStack s n
     ∃ t, exec (.nsThermal n false a b) s = .next (resumeAccess t) ∧
       (let y := getStack t n
        let hot := if 95 ≤ y.temp then x.hot + 1 else 0
        let cool := if y.temp < 92 then x.cool + 1 else 0
        (∀ k < 16, y.sensors.getD k 0 = if a.getD k 0 = b.getD k 0 then a.getD k 0 else x.sensors.getD k 0) ∧ y.sensors.length = 16 ∧
        y.temp ∈ y.sensors ∧ (∀ z ∈ y.sensors, z ≤ y.temp) ∧ y.thermal = after x.thermal y.temp hot cool ∧
        (y.thermal = x.thermal → y.hot = hot ∧ y.cool = cool ∧ t.host = s.host) ∧
        (y.thermal ≠ x.thermal → y.hot = 0 ∧ y.cool = 0 ∧ Raises Ev.nsThermal s t ∧ HostSame s t)) ∧
       (∀ m, m ≠ n → getStack t m = getStack s m) ∧ OnlyChanges [.near, .host, .store, .xing] s t) ∧
    (n < 32 →
     let x := getCapstan s n
     ∃ t, exec (.nsThermal n true a b) s = .next (resumeAccess t) ∧
       (let y := getCapstan t n
        let hot := if 95 ≤ y.rimTemp then x.hot + 1 else 0
        let cool := if y.rimTemp < 92 then x.cool + 1 else 0
        (∀ k < 16, y.rimSensors.getD k 0 = if a.getD k 0 = b.getD k 0 then a.getD k 0 else x.rimSensors.getD k 0) ∧ y.rimSensors.length = 16 ∧
        y.rimTemp ∈ y.rimSensors ∧ (∀ z ∈ y.rimSensors, z ≤ y.rimTemp) ∧ y.rimThermal = after x.rimThermal y.rimTemp hot cool ∧
        (y.rimThermal = x.rimThermal → y.hot = hot ∧ y.cool = cool) ∧ (y.rimThermal ≠ x.rimThermal → y.hot = 0 ∧ y.cool = 0)) ∧
       (∀ m, m ≠ n → getCapstan t m = getCapstan s m) ∧ OnlyChanges [.cap] s t)

/-! ### Power (chapter 15) -/

/-- A voltage more than 40 mV below its point starts stretching, whose end counts those of its cycles that no earlier turn has (saturating at 16 bits); a smaller droop, or an end without
stretching, does nothing. OP_TRANSITION_STEP moves the rail by 10 mV or the clock by 25 MHz, upward the rail first and downward the clock first, and reaches
the point when both have; a field already there stays. -/
def Claim.StretchAndTransitions : Prop :=
  (∀ (n mv : Nat) (s : State),
    exec (.droopStretch n mv) s = .next (if 40 < mv then setField n (let f := getField s n
      if f.stretching = true then f else { f with stretching := true, stretchSeen := 0 }) s else s)) ∧
  (∀ (n cyc : Nat) (s : State),
    ((getField s n).stretching = false → exec (.stretchEnd n cyc) s = .next s) ∧
    ((getField s n).stretching = true →
      exec (.stretchEnd n cyc) s =
        .next (setField n { getField s n with
          stretching := false, stretchNow := min ((getField s n).stretchNow + (cyc - (getField s n).stretchSeen)) 65535, stretchSeen := 0 } s))) ∧
  ∀ (n : Nat) (s : State),
    let f := getField s n
    let v := opMv f.target
    let c := opMHz f.target
    ∃ t, exec (.opTransitionStep n) s = .next t ∧ OnlyChanges [.fields] s t ∧ (∀ m, m ≠ n → getField t m = getField s m) ∧
      getField t n = { f with railMv := (getField t n).railMv, clockMHz := (getField t n).clockMHz, op := (getField t n).op } ∧
      (f.railMv < v → (getField t n).railMv = f.railMv + 10 ∧ (getField t n).clockMHz = f.clockMHz) ∧
      (v ≤ f.railMv → f.clockMHz < c → (getField t n).railMv = f.railMv ∧ (getField t n).clockMHz = f.clockMHz + 25) ∧
      (v ≤ f.railMv → c < f.clockMHz → (getField t n).railMv = f.railMv ∧ (getField t n).clockMHz = f.clockMHz - 25) ∧
      (v < f.railMv → f.clockMHz = c → (getField t n).railMv = f.railMv - 10 ∧ (getField t n).clockMHz = c) ∧
      (f.railMv = v → f.clockMHz = c → (getField t n).railMv = v ∧ (getField t n).clockMHz = c) ∧
      (getField t n).op = (if (getField t n).railMv = v ∧ (getField t n).clockMHz = c then f.target else f.op)

/-- The plan of R443: with the wanted points within the share no point is lowered and there are no pass beats; every planned point is at most the wanted one; the
planned sum fits the share unless every field is at OP0, and only then are there pass beats, as many as the share of OP0's dynamic power leaves out,
at most 960; where fewer than 64 beats would be left the plan has 960 and BUDGET_FLOOR. -/
def Claim.PlanFitsTheShare : Prop :=
  ∀ (g n c : Nat) (want : List Nat), want.length = 8 → (∀ x ∈ want, x ≤ 7) →
    let a : Int := (g * 905 / 1000 : Nat) - (n : Int) - (c : Int)
    let r := planOps g n c want
    let w : Int := (a / 8 - 140) * 1024 / 443
    r.op.length = 8 ∧ (∀ f, r.op.getD f 0 ≤ want.getD f 0) ∧ (sumFull want ≤ a → r.op = want) ∧
      (sumFull r.op ≤ a → r.pass = 0 ∧ r.floor = false) ∧ (a < sumFull r.op → r.op = [0, 0, 0, 0, 0, 0, 0, 0]) ∧ r.pass ≤ 960 ∧
      (a < sumFull r.op → 64 ≤ w → (r.pass : Int) = 1024 - w ∧ r.floor = false) ∧ (a < sumFull r.op → w < 64 → r.pass = 960 ∧ r.floor = true)

/-- POWER_TURN_BOUNDARY, once CT has reached a boundary and nothing earlier waits: its turn begins, with the grant that governs it (R439) and a boundary 1,024
beats on; with a new offset, which now takes effect, the grant stays and the next boundary is the offset's first one at least 512 beats on. The turn that
ended leaves its measured input, its excess over the grant as the carry, and each field's stretched cycles, those of a stretch that still runs as far as they lie
in it. A sensor's temperature is taken where two samples agree. The plan made for this turn is applied,
the power-class commands due take effect, and the next turn's plan is made: a field at 110 °C takes OP0 and 960 pass beats, every other the point and
pass beats of R443's plan from the wanted points. Without CT, in a takeover gap, or with an earlier event waiting, nothing happens. -/
def Claim.PowerTurnBegins : Prop :=
  ∀ (m : PowerSense) (s : State),
    (ctRuns s = false ∨ s.rel.ccFailed = true ∨ inTurn ((powerAt s).toNat, 0, 0) s = false → exec (.powerTurnBoundary m) s = .next s) ∧
    ∀ b, ctRuns s = true → s.rel.ccFailed = false → inTurn ((powerAt s).toNat, 0, 0) s = true → dueBoundary s = some b →
      let due (e : Sched) : Bool := e.cls == 0 && decide (e.fire.toNat ≤ b.toNat)
      ∃ t, exec (.powerTurnBoundary m) s = .next t ∧ t.power.turn = ctTurn b ∧ t.power.boundary = b ∧
        (s.cad.nextOffset = none → t.power.next = some (b + beats 1024) ∧ t.power.grantW = BitVec.ofNat 16 (turnGrant s (ctTurn b)) ∧ t.cad = s.cad) ∧
        (∀ o, s.cad.nextOffset = some o → t.cad = { s.cad with offset := o, nextOffset := none } ∧
          t.power.next = some (alignUp (b + beats 512) o) ∧ (s.power.next.isSome = true → t.power.grantW = s.power.grantW)) ∧
        (s.power.next.isSome = true → t.power.inputW = BitVec.ofNat 16 m.input ∧ t.power.carry = m.input - s.power.grantW.toNat ∧
          t.power.lastTurn = s.power.turn ∧ t.power.sinceGrant = s.power.sinceGrant + max 1 (ctTurn b - s.power.turn) ∧
          ∀ f < 8, let x := getField s f
            let sofar := m.stretched.getD f 0
            (getField t f).stretchNow = 0 ∧ (x.stretching = false → (getField t f).stretch = x.stretchNow) ∧
              (x.stretching = true → (getField t f).stretch = min (x.stretchNow + (sofar - x.stretchSeen)) 65535 ∧
                (getField t f).stretchSeen = max sofar x.stretchSeen)) ∧
        (∀ f < 8, (getField t f).temp = if m.temps.getD f 0 = m.again.getD f 0 then m.temps.getD f 0 else (getField s f).temp) ∧
        (∀ q, s.power.plan = some q → t.power.limited = q.limited ∧ t.power.floor = q.floor ∧
          ∀ f < 8, (getField t f).target = q.op.getD f 0 ∧ (getField t f).pass = q.pass.getD f 0) ∧
        (s.power.plan = none → ∀ f < 8, (getField t f).target = (getField s f).target ∧ (getField t f).pass = (getField s f).pass) ∧
        t.sched = s.sched.filter (fun e => !due e) ∧ (s.sched.all (fun e => !due e) = true → t.cap = s.cap ∧ pwrPref t.power = pwrPref s.power) ∧
        (let lo := comingBoundary t
         let want := (List.range 8).map fun f => wantOp t f (preferred t f lo (lo + beats 1024)) (getField t f).temp
         let r := planOps (turnGrant t (ctTurn lo)) (m.nonField + s.power.headroom.toNat) t.power.carry want
         ∃ q, t.power.plan = some q ∧ q.floor = r.floor ∧
           ∀ f < 8, q.op.getD f 0 = (if 110 ≤ (getField t f).temp then 0 else r.op.getD f 0) ∧
             q.pass.getD f 0 = (if 110 ≤ (getField t f).temp then 960 else r.pass)) ∧
        OnlyChanges [.power, .fields, .cad, .sched, .host, .cap, .rel, .store, .xing] s t

/-- The power messages, answered by an active control complex past stage 2: GRANT above the maximum is cut to it (code bit 0), a TURN whose planning point has
passed is late (bit 1) and takes the next turn, a grant below the floor of the last plan says so (bit 2), and a GRANT_STALE ends; OFFSET above 1023 beats is
refused (bit 6), else it waits for the next boundary; while CT does not run both are refused (bit 7), the turn in GRANT's answer then a free value. REPORT and a
sensor reading answer the measured values and change nothing else. A module that answers no message does nothing. -/
def Claim.PowerMessagesAnswer : Prop :=
  (∀ (seq : Byte) (turn : W64) (w : W32) (s : State), mctpUp s = true → ctRuns s = true →
    let known := ctTurn (comingBoundary s)
    let applied := if turn.toNat ≤ known then known + 1 else turn.toNat
    let code := (if 26000 < w.toNat then 1 else 0) + (if turn.toNat ≤ known then 2 else 0) + (if min w.toNat 26000 < s.power.floorW then 4 else 0)
    ∃ t, exec (.grant seq turn w) s = .next t ∧
      t.power = { s.power with grants := { turn := applied, watts := min w.toNat 26000 } :: s.power.grants, stale := false, sinceGrant := 0 } ∧
      t.host = { s.host with mctp := det [(1, 0x81), (1, seq.toNat), (1, code), (1, 0), (8, applied)] } ∧ OnlyChanges [.power, .host] s t) ∧
  (∀ (seq : Byte) (turn : W64) (w : W32) (s : State), mctpUp s = true → ctRuns s = false →
    ∃ t v, exec (.grant seq turn w) s = .next t ∧ t.host = { s.host with mctp := det [(1, 0x81), (1, seq.toNat), (1, 0x80), (1, 0), (8, v)] } ∧
      OnlyChanges [.host, .freeCtr] s t) ∧
  (∀ (seq : Byte) (off : BitVec 16) (s : State), mctpUp s = true →
    let code := if ctRuns s then (if 1023 < off.toNat then 0x40 else 0) else 0x80
    ∃ t, exec (.offset seq off) s = .next t ∧ t.cad = (if code = 0 then { s.cad with nextOffset := some off.toNat } else s.cad) ∧
      t.host = { s.host with mctp := det [(1, 0x82), (1, seq.toNat), (1, code), (1, 0)] } ∧ OnlyChanges [.cad, .host] s t) ∧
  (∀ (seq : Byte) (s : State), mctpUp s = true →
    let p := s.power
    let l := det [(1, 0x83), (1, seq.toNat), (1, if ctRuns s then 0 else 0x80), (1, 0), (8, p.lastTurn), (4, p.inputW.toNat), (4, p.grantW.toNat),
      (4, p.floorW), (4, p.demandW), (1, fld (pwrStatus p) 2 4), (1, p.hottest), (1, p.near), (1, p.cap)]
    exec (.report seq) s = .next { s with host := { s.host with mctp := l } }) ∧
  (∀ (k : Nat) (s : State), mctpUp s = true → k ≤ 6 →
    ∃ l, exec (.getSensorReading k) s = .next { s with host := { s.host with mctp := l } } ∧ l.length = 4 ∧
      (k = 0 → l = toLE 4 s.power.inputW.toNat) ∧ (k = 2 → l = toLE 4 s.power.hottest) ∧ (k = 3 → l = toLE 4 s.power.near) ∧
      (k = 4 → l = toLE 4 s.power.cap)) ∧
  ∀ (seq : Byte) (turn : W64) (w : W32) (off : BitVec 16) (k : Nat) (s : State), mctpUp s = false →
    exec (.grant seq turn w) s = .next s ∧ exec (.offset seq off) s = .next s ∧ exec (.report seq) s = .next s ∧ exec (.getSensorReading k) s = .next s

/-- PREF_SET with FIRE 0 writes the five preferences of PWR_PREF from its operand and replies; with a FIRE, also one that has passed, it waits for a power-turn
boundary. -/
def Claim.PreferencesAreSet : Prop :=
  ∀ (p : Packet) (s : State), Serves s → p.opc = 0x0701 → checkPacket s p = none →
    (p.fire = 0 → ∃ t, exec (.prefSet p) s = .next t ∧ t.power = { s.power with
        forward := t.power.forward, backward := t.power.backward, apply := t.power.apply, exchange := t.power.exchange, idle := t.power.idle } ∧
      pwrPref t.power = item p.param 0 2 % 32768 ∧ Answered p 0 0 s t ∧ OnlyChanges [.arrivals, .power, .host] s t) ∧
    (p.fire ≠ 0 → ctRuns s = true → p.fire.toNat ≤ s.cad.ct.toNat + fireReach → (s.cad.ct.toNat < p.fire.toNat → pendingEvents s < 4096) →
      exec (.prefSet p) s = .next { arrived s with sched := s.sched ++ [{ fire := p.fire, cls := 0, order := s.arrivals, packet := p }] })

/-- Until the first GRANT the default grant governs every turn (cut to 26,000 W) and PWR_STATUS.DEFAULT is 1, from reset on and through every boundary; after
256 power turns without a GRANT, GRANT_STALE is raised once and stands, the grant in force staying (before them, or while it stands, nothing happens);
the next GRANT clears it. -/
def Claim.DefaultAndStaleGrants : Prop :=
  (State.reset.power.default = true ∧ State.reset.power.grants = []) ∧
  (∀ (turn : Nat) (s : State), s.power.grants = [] → turnGrant s turn = min s.power.defaultGrant.toNat 26000) ∧
  (∀ (m : PowerSense) (s t : State), s.power.grants = [] → s.power.default = true → exec (.powerTurnBoundary m) s = .next t →
    t.power.default = true ∧ t.power.grants = [] ∧ bitAt (pwrStatus t.power) 4 = true) ∧
  (∀ s : State,
    (s.power.stale = true ∨ s.power.sinceGrant < 256 → exec .grantStale s = .next s) ∧
    (s.power.stale = false → 256 ≤ s.power.sinceGrant →
      exec .grantStale s = .next (post Ev.grantStale [] { s with power := { s.power with stale := true } }) ∧
        bitAt (pwrStatus { s.power with stale := true }) 5 = true)) ∧
  ∀ (seq : Byte) (turn : W64) (w : W32) (s : State), mctpUp s = true → ctRuns s = true →
    ∃ t, exec (.grant seq turn w) s = .next t ∧ t.power.stale = false ∧ t.power.sinceGrant = 0

/-- R446: which beats of a power turn are pass beats of a field with p pass beats; there are exactly p of them in the 1,024 beats of a turn; one field's
pattern is the next one's, 128 beats on. PASS_BEAT marks such a beat and ends the runs of the field's partitions; in any other beat it does nothing. -/
def Claim.PassBeats : Prop :=
  (∀ b f p : Nat, isPassBeat b f p = true ↔ ((b + 128 * f) % 1024 + 1) * p / 1024 > (b + 128 * f) % 1024 * p / 1024) ∧
  (∀ f p : Nat, p ≤ 1024 → ((List.range 1024).filter fun b => isPassBeat b f p).length = p) ∧
  (∀ b f p : Nat, isPassBeat b (f + 1) p = isPassBeat (b + 128) f p) ∧
  (∀ (f : Nat) (s : State),
    let now := (getField s f).passNow = true ∨
      (s.power.next.isSome = true ∧ isPassBeat ((s.cad.ct - s.power.boundary).toNat / 65536) f (getField s f).pass = true)
    (¬now → exec (.passBeat f) s = .next s) ∧
    (now → ∃ t, exec (.passBeat f) s = .next t ∧ getField t f = { getField s f with passNow := true } ∧ (∀ g, g ≠ f → getField t g = getField s g) ∧
      t.parts = s.parts.map (fun p => if tileField p.org = f then { p with runOpen := false } else p) ∧ OnlyChanges [.fields, .parts] s t))

/-! ### Reliability (chapter 16) -/

/-- SELF_TEST of a row that was asked for and is idle: the request ends, and of the columns that fail those whose tile is suspect (their row's last suspicion less than 4,096
turns ago) and that are not out of service ask for their splice, each with a record of its suspicion's class. With no request, or while a partition over the row runs a play,
nothing happens. -/
def Claim.RowsAreSelfTested : Prop :=
  ∀ (f r : Nat) (bad : List Nat) (s : State),
    (f * 16 + r ∉ s.rel.selfTest ∨ rowIdle s f r = false → exec (.selfTest f r bad) s = .next s) ∧
    (f * 16 + r ∈ s.rel.selfTest → rowIdle s f r = true →
      ∃ t, exec (.selfTest f r bad) s = .next t ∧ t.rel.selfTest = s.rel.selfTest.filter (· != f * 16 + r) ∧
        (∀ u, u ∈ t.rel.spliceReq ↔ u ∈ s.rel.spliceReq ∨ ∃ c ∈ bad, c ≤ 16 ∧ u = physId f r c ∧ u ∉ s.store.badTiles ∧
          (∃ x ∈ s.rel.suspects, x.unit = u) ∧ ∃ y ∈ s.rel.suspects, y.unit / 32 = u / 32 ∧ ctTurn s.cad.ct < y.turn + 4096) ∧
        t.rel = { s.rel with selfTest := t.rel.selfTest, spliceReq := t.rel.spliceReq, wearReq := t.rel.wearReq } ∧ HostSame s t ∧ OnlyChanges [.rel, .store, .host, .xing] s t ∧
        (bad = [] → t.store = s.store ∧ t.host = s.host) ∧
        (∀ c, bad = [c] → c ≤ 16 → isSuspect s (physId f r c) = true → physId f r c ∉ s.store.badTiles → Records (suspectClass s (physId f r c)) s t))

/-- TILE_SPLICE of a requested tile in an idle row with its spare: the map moves the logical columns from the failed one on east by one, the tile is recorded as bad,
the row's weight banks are invalid and its spare is gone, with TILE_SPLICE and a record of the suspicion's class. Stores and knots stay with their logical
tiles, but where the failed store cannot be read they are zero and the open step is FAULTED. A failed spare is only recorded, and gone. Without a
spare a worn tile stays in service, and a failed one is recorded as bad and its row degraded, with SECOND_FAULT. Unrequested, or in a row that is not
idle, nothing happens. -/
def Claim.TilesAreSpliced : Prop :=
  ∀ (f r c : Nat) (readable : Bool) (s : State), f < 8 → r < 16 → c ≤ 16 →
    let u := physId f r c
    let L := mkTile f r c
    (u ∉ s.rel.spliceReq → exec (.tileSplice f r c readable) s = .next s) ∧
    (u ∈ s.rel.spliceReq → spareTile s f r = true → c < 16 → rowIdle s f r = false → exec (.tileSplice f r c readable) s = .next s) ∧
    (u ∈ s.rel.spliceReq → spareTile s f r = true → c < 16 → rowIdle s f r = true →
      ∃ t, exec (.tileSplice f r c readable) s = .next t ∧ lookup (f * 16 + r) t.rel.splices = some c ∧ u ∈ t.store.badTiles ∧ u ∉ t.rel.spliceReq ∧
        spareTile t f r = false ∧
        (∀ p ∈ t.parts, ∀ x ∈ tilesOf p.org p.shape, tileField x = f → tileRow x = r → p.active = none ∧ p.shadow = none) ∧
        (stageDone s 2 = true → ∃ l e, t.host.events = (l ++ e :: s.host.events).take 65536 ∧ e.code = Ev.tileSplice ∧
          ∀ x ∈ l, x.code = Ev.xingFault ∨ classEvent (suspectClass s u) = some x.code) ∧ Records (suspectClass s u) s t ∧ HostSame s t ∧
        (readable = true → OnlyChanges [.rel, .store, .fields, .parts, .caches, .host, .xing] s t) ∧
        (readable = false → t.cap = { s.cap with stepFaulted := true } ∧ (∀ i < 2 ^ 23, readByte t (tileAddr L 0 + i) = 0) ∧
          KeepsBytes [(tileAddr L 0, 2 ^ 23)] s t ∧ OnlyChanges [.rel, .store, .fields, .parts, .caches, .host, .xing, .cap, .mem, .knots] s t)) ∧
    (u ∈ s.rel.spliceReq → spareTile s f r = true → c = 16 →
      ∃ t, exec (.tileSplice f r c readable) s = .next t ∧ u ∈ t.store.badTiles ∧ u ∉ t.rel.spliceReq ∧ spareTile t f r = false ∧ Records (suspectClass s u) s t ∧
        t.rel.splices = s.rel.splices ∧ HostSame s t ∧ OnlyChanges [.rel, .store, .fields, .host, .xing] s t) ∧
    (u ∈ s.rel.spliceReq → spareTile s f r = false → u ∈ s.rel.wearReq →
      exec (.tileSplice f r c readable) s = .next { s with rel := { s.rel with
        spliceReq := s.rel.spliceReq.filter (· != u), wearReq := s.rel.wearReq.filter (· != u) } }) ∧
    (u ∈ s.rel.spliceReq → spareTile s f r = false → u ∉ s.rel.wearReq →
      ∃ t, exec (.tileSplice f r c readable) s = .next t ∧ u ∈ t.store.badTiles ∧ t.rel.secondFault = true ∧ t.rel.splices = s.rel.splices ∧
        u ∉ t.rel.spliceReq ∧ (getField t f).degradedRow = (getField s f).degradedRow ||| (1#16 <<< r) ∧ Records (suspectClass s u) s t ∧
        HostSame s t ∧ OnlyChanges [.rel, .store, .fields, .plays, .host, .xing] s t)

/-- TILE_WEAR of a tile: its count is kept, and the first reading after ready is the baseline. A fall of 4 % or more raises TILE_WEAR with a record of class 18,
once while the row has its spare and at every reading when it has none; from 6 % on, with the spare, the tile's wear splice is asked for. A smaller fall, or a
tile already recorded as bad, only keeps the count; an ID that names no tile does nothing. -/
def Claim.TilesWear : Prop :=
  ∀ (u count : Nat) (s : State),
    let kept := { s with rel := { s.rel with ringCounts := upsert u count s.rel.ringCounts } }
    let spare := spareTile s (u / 512) (u % 512 / 32)
    (4096 ≤ u ∨ 16 < u % 32 → exec (.tileWear u count) s = .next s) ∧
    (u < 4096 → u % 32 ≤ 16 →
      (isReady s = false → exec (.tileWear u count) s = .next kept) ∧
      (isReady s = true → lookup u s.store.baseline = none →
        exec (.tileWear u count) s = .next { kept with store := { s.store with baseline := upsert u count s.store.baseline } }) ∧
      ∀ base, isReady s = true → lookup u s.store.baseline = some base →
        let fell (pct : Nat) : Prop := base * pct ≤ (base - count) * 100
        (¬fell 4 ∨ u ∈ s.store.badTiles → exec (.tileWear u count) s = .next kept) ∧
        (fell 4 → u ∉ s.store.badTiles → ∃ t, exec (.tileWear u count) s = .next t ∧ lookup u t.rel.ringCounts = some count ∧ u ∈ t.rel.worn ∧
          (u ∉ s.rel.worn ∨ spare = false → Raises Ev.tileWear s t ∧ Records 18 s t) ∧
          (u ∈ s.rel.worn → spare = true → t.host = s.host ∧ t.store = s.store) ∧
          (fell 6 → spare = true → u ∈ t.rel.spliceReq) ∧ (¬(fell 6 ∧ spare = true) → t.rel.spliceReq = s.rel.spliceReq) ∧
          t.store = { s.store with ledger := t.store.ledger, seq := t.store.seq } ∧ HostSame s t ∧ OnlyChanges [.rel, .store, .host, .xing] s t))

/-- PHASE_FAULT of a phase in service: it is shed and its entry in the spare map made, with PHASE_FAULT and a record of class 12 that names it; the third of a rail group besides raises RAIL_DEGRADED and
SECOND_FAULT. A phase already shed does nothing. PLL_SWITCH of a domain with a closed crossing: its spare PLL takes it and its crossings open again, with PLL_SWITCH
and a record of class 15; without a spare the domain is stopped for good, with the event, the record and SECOND_FAULT. With no closed crossing nothing happens. -/
def Claim.SuppliesFailOver : Prop :=
  (∀ (f k : Nat) (s : State),
    (k ∈ (getField s f).phasesShed → exec (.phaseFault f k) s = .next s) ∧
    (k ∉ (getField s f).phasesShed →
      ∃ t, exec (.phaseFault f k) s = .next t ∧ getField t f = { getField s f with phasesShed := k :: (getField s f).phasesShed } ∧
        (∀ g, g ≠ f → getField t g = getField s g) ∧
        f * 32 + k ∈ t.store.badPhases ∧
        (Calm s → ∃ r, t.store.ledger = (r :: s.store.ledger).take 262144 ∧ r.cls = 12 ∧ r.unit = unitOf 6 (f * 32 + k)) ∧
        ((getField s f).phasesShed.length = 2 → t.rel = { s.rel with secondFault := true } ∧ (Calm s → stageDone s 2 = true →
          ∃ e x, t.host.events = (e :: x :: s.host.events).take 65536 ∧ e.code = Ev.railDegraded ∧ x.code = Ev.phaseFault)) ∧
        ((getField s f).phasesShed.length ≠ 2 → t.rel = s.rel ∧ Raises Ev.phaseFault s t ∧ Records 12 s t) ∧ HostSame s t ∧
        OnlyChanges [.fields, .rel, .store, .host, .xing] s t)) ∧
  (∀ (d : Nat) (s : State),
    ((∀ p ∈ s.xing.closed, p.1 ≠ d ∧ p.2 ≠ d) → exec (.pllSwitch d) s = .next s) ∧
    ((∃ p ∈ s.xing.closed, p.1 = d ∨ p.2 = d) →
      (pllSpare s d = true → ∃ t, exec (.pllSwitch d) s = .next t ∧ pllSpare t d = false ∧
        t.xing.closed = s.xing.closed.filter (fun p => p.1 != d && p.2 != d) ∧
        (Calm s → t.xing = { s.xing with closed := t.xing.closed, irqs := t.xing.irqs }) ∧ Raises Ev.pllSwitch s t ∧ Records 15 s t ∧ HostSame s t ∧
        OnlyChanges [.xing, .fields, .rel, .store, .host] s t) ∧
      (pllSpare s d = false → ∃ t, exec (.pllSwitch d) s = .next t ∧ t.rel.secondFault = true ∧ Records 15 s t ∧
        (d < 8 → (getField t d).unavailable = true) ∧ (8 ≤ d → t.rel.meshStopped = true) ∧ Raises Ev.pllSwitch s t ∧ HostSame s t ∧
        OnlyChanges [.fields, .rel, .store, .host, .xing] s t)))

/-- CC_STANDBY_LOST of a standby that serves, is not halted and has been silent for 4 heartbeats: FLT_STATUS.STANDBY clears, with the event and a record of class 11. CC_TAKEOVER past stage 2 with a standby
that has missed 4 heartbeats of the active: first the active's failure, which begins the gap; then the takeover, in which CT goes on from the standby's own
receiver, and which resolves a commit point that has passed as an abort, executes the
events whose time has passed in their order, raises CC_TAKEOVER with a record of class 11, and applies the held register writes in arrival order; a stage
that runs starts again. In any other case nothing happens. -/
def Claim.ControlFailsOver : Prop :=
  (∀ s : State,
    let serves := s.rel.standby = true ∧ standbyHalted s = false ∧ s.rel.ccFailed = false
    (¬serves ∨ s.rel.missedBack < 4 → exec .ccStandbyLost s = .next s) ∧
    (serves → 4 ≤ s.rel.missedBack → ∃ t, exec .ccStandbyLost s = .next t ∧ t.rel = { s.rel with standby := false } ∧ Raises Ev.ccStandbyLost s t ∧ Records 11 s t ∧ HostSame s t ∧
      OnlyChanges [.rel, .store, .host, .xing] s t) ∧
    (serves → stageDone s 2 = true → 4 ≤ s.rel.missed → exec .ccTakeover s = .next { s with rel := { s.rel with ccFailed := true } }) ∧
    (s.rel.ccFailed = false → ¬serves ∨ stageDone s 2 = false ∨ s.rel.missed < 4 → exec .ccTakeover s = .next s)) ∧
  (∀ s : State, s.rel.ccFailed = true →
    let s₀ := { s with
      cad := switchReceiver s.cad s.rel.receiver
      rel := { s.rel with ccFailed := false, standby := false, southActive := !s.rel.southActive, missed := 0, missedBack := 0 } }
    let s₁ := match s.cap.armed with
      | some a => if a.cp.toNat ≤ s₀.cad.ct.toNat then abortAtCp a s₀ else s₀
      | none => s₀
    let s₂ := runAllDue 16384 s₁
    ∃ t, Raises Ev.ccTakeover s₂ t ∧ Records 11 s₂ t ∧ HostSame s₂ t ∧ OnlyChanges [.store, .host, .xing] s₂ t ∧
      exec .ccTakeover s = .next (rerunStage (t.host.heldWrites.foldl (fun u w => hostRegWrite w.1 w.2.1 w.2.2.1 w.2.2.2 u)
        { t with host := { t.host with heldWrites := [] } }))) ∧
  (∀ (n : Nat) (x : DueKey × Due) (s : State), firstEvent s = some x →
    (x.1.1 ≤ s.cad.ct.toNat → runAllDue (n + 1) s = runAllDue n (runEvent x s)) ∧ (s.cad.ct.toNat < x.1.1 → runAllDue n s = s)) ∧
  ∀ s : State, (s.bu.state ≠ .running → rerunStage s = s) ∧
    (s.bu.state = .running → s.bu.stage ≠ 9 → rerunStage s = { s with bu := s.bu.fresh }) ∧
    (s.bu.state = .running → s.bu.stage = 9 → rerunStage s = { s with bu := { s.bu.fresh with linkOpen := false }, ports := mapVals unopened s.ports })

/-! ### Security, attestation, debug (chapter 20) -/

/-- The fuses. KEY_REVOKE of a readable token of 5,325 B: TOKEN_INVALID where a check fails, 0x0000 where its slot is revoked already, LAST_SLOT where it is the last one
left, and none changes anything; else that slot and no other is revoked, with KEY_REVOKED. A range that is no memory gives ADDR_RANGE, another length
TOKEN_INVALID, a token that cannot be read PARITY_FAULT, one behind a closed crossing CLOCK_STOPPED. ROLLBACK_SET raises a kind's counter to at most what its running image carries (0 with none), and never
lowers one; any other value gives FUSE_LIMIT, each with the counter as it then stands in DETAIL, and another kind HEADER. DEBUG_LOCK closes debugging. -/
def Claim.FusesOnlyTighten : Prop :=
  (∀ (p : Packet) (s : State), Admitted 0x0A01 p s →
    let a := item p.param 0 8
    let tok := srcRead s a 5325
    let k := item tok 8 1
    (destOk s a (item p.param 8 4) false = false → exec (.keyRevoke p) s = .next (reply p Status.addrRange 0 (arrived s))) ∧
    (destOk s a (item p.param 8 4) false = true → item p.param 8 4 ≠ 5325 → exec (.keyRevoke p) s = .next (reply p Status.tokenInvalid 0 (arrived s))) ∧
    (destOk s a 5325 false = true → item p.param 8 4 = 5325 →
      let r := engineRead 12 p.origin a 5325 (arrived s)
      (∀ st, r.1 = .gone st → (st = Status.parityFault ∨ st = Status.clockStopped) ∧ exec (.keyRevoke p) s = .next (reply p st 0 r.2) ∧
        (st = Status.parityFault → Records 1 s r.2) ∧ (st = Status.clockStopped → r.2 = arrived s) ∧
        OnlyChanges [.arrivals, .store, .host, .xing] s r.2) ∧
      (∀ x, r.1 = .got x → x = tok ∧ r.2 = arrived s) ∧
      (r.1 = .got tok →
        (revokeOk s tok = false → exec (.keyRevoke p) s = .next (reply p Status.tokenInvalid 0 (arrived s))) ∧
        (revokeOk s tok = true → slotRevoked s k = true → exec (.keyRevoke p) s = .next (reply p 0 0 (arrived s))) ∧
        (revokeOk s tok = true → slotRevoked s k = false → (∀ j < 4, j ≠ k → slotRevoked s j = true) →
          exec (.keyRevoke p) s = .next (reply p Status.lastSlot 0 (arrived s))) ∧
        (revokeOk s tok = true → slotRevoked s k = false → (∃ j < 4, j ≠ k ∧ slotRevoked s j = false) → ∃ t, exec (.keyRevoke p) s = .next t ∧
          t.store = { s.store with revoked := k :: s.store.revoked, ledger := t.store.ledger, seq := t.store.seq } ∧
          t.host.replies = s.host.replies ++ [answerOf p 0 0 s] ∧ Raises Ev.keyRevoked s t ∧ OnlyChanges [.arrivals, .store, .host, .xing] s t)))) ∧
  (∀ (p : Packet) (s : State), Admitted 0x0A02 p s →
    let k := item p.param 0 1
    let v := item p.param 1 1
    let now := lookupD 0 k s.store.arb
    let limit := match lookup k s.bu.images with | some x => x.arb | none => 0
    (k = 0 ∨ 4 < k → exec (.rollbackSet p) s = .next (reply p Status.header 0 (arrived s))) ∧
    (1 ≤ k → k ≤ 4 → 64 < v ∨ limit < v → exec (.rollbackSet p) s = .next (reply p Status.fuseLimit (BitVec.ofNat 64 now) (arrived s))) ∧
    (1 ≤ k → k ≤ 4 → v ≤ 64 → v ≤ limit → ∃ t, exec (.rollbackSet p) s = .next t ∧ lookupD 0 k t.store.arb = max now v ∧
      (∀ j, j ≠ k → lookupD 0 j t.store.arb = lookupD 0 j s.store.arb) ∧ t.store = { s.store with arb := t.store.arb } ∧
      Answered p 0 (BitVec.ofNat 64 (max now v)) s t ∧ OnlyChanges [.arrivals, .store, .host] s t)) ∧
  (∀ (p : Packet) (s : State), Admitted 0x0A03 p s →
    ∃ t, exec (.debugLock p) s = .next t ∧ t.dbgUnit = { s.dbgUnit with opened := false } ∧ Answered p 0 0 s t ∧ OnlyChanges [.arrivals, .dbgUnit, .host] s t)

/-- The DOE mailbox of a port whose requests arrive: the certificates; a signed report; a new challenge that replaces the old one; an unlock whose token passes
opens the scope it names, with DEBUG_OPENED, one that fails opens nothing, and both use up the challenge; the discovery. The second byte of each answer is a free
value. MCTP control is answered while PWR_OK is high and a control complex is active. Any other request does nothing. -/
def Claim.MailboxCommands : Prop :=
  (∀ (port : Nat) (s : State),
    let up := (getPcie s port).perst = false ∧ xingClosed s 14 12 = false ∧ s.rel.ccFailed = false
    (¬up → exec (.getCert port) s = .next s ∧ (∀ nonce, exec (.attest port nonce) s = .next s) ∧ exec (.debugChallenge port) s = .next s ∧
      (∀ tok, exec (.debugUnlock port tok) s = .next s) ∧ exec (.doeDiscovery port) s = .next s) ∧
    (up →
      (∃ t b, exec (.getCert port) s = .next t ∧
        t.host.ports = upsert port { getPcie s port with
          doe := [0x81, b, 0, 0] ++ Config.certificates.flatMap (fun c => toLE 4 c.length ++ c) } s.host.ports ∧
        t.host = { s.host with ports := t.host.ports } ∧ OnlyChanges [.host, .freeCtr] s t) ∧
      (∀ nonce : List Byte, ∃ t b, exec (.attest port nonce) s = .next t ∧
        t.host.ports = upsert port { getPcie s port with
          doe := [0x82, b, 0, 0] ++ reportBody s nonce ++ sliceB (Config.mlDsaSign (reportBody s nonce)) 0 3309 } s.host.ports ∧
        t.host = { s.host with ports := t.host.ports } ∧ OnlyChanges [.host, .freeCtr] s t) ∧
      (∃ t c b, exec (.debugChallenge port) s = .next t ∧ t.dbgUnit = { s.dbgUnit with challenge := some c } ∧ c.length = 32 ∧
        t.host.ports = upsert port { getPcie s port with doe := [0x83, b, 0, 0] ++ c } s.host.ports ∧
        t.host = { s.host with ports := t.host.ports } ∧ OnlyChanges [.dbgUnit, .host, .freeCtr] s t) ∧
      (∀ tok : List Byte, ∃ t b, exec (.debugUnlock port tok) s = .next t ∧ OnlyChanges [.dbgUnit, .host, .freeCtr, .store, .xing] s t ∧
        t.dbgUnit = (if tokenOk s tok then
          { s.dbgUnit with challenge := none, opened := true, ever := true, scope := BitVec.ofNat 4 (item tok 40 4) } else { s.dbgUnit with challenge := none }) ∧
        (getPcie t port).doe = (if tokenOk s tok then [0x84, b, 0, 0] else [0x84, b] ++ toLE 2 Status.tokenInvalid.toNat) ∧
        (tokenOk s tok = true → Raises Ev.debugOpened s t) ∧ (tokenOk s tok = false → t.host = { s.host with ports := t.host.ports })) ∧
      exec (.doeDiscovery port) s =
        .next { s with host := { s.host with ports := upsert port { getPcie s port with doe := [0x00, 0x01] } s.host.ports } })) ∧
  (∀ (cmd : Byte) (s : State),
    (s.pins.pwrOk = true → s.rel.ccFailed = false →
      ∃ t b, exec (.mctpControl cmd) s = .next t ∧ t.host = { s.host with mctp := [cmd, b] } ∧ OnlyChanges [.host, .freeCtr] s t) ∧
    (s.pins.pwrOk = false ∨ s.rel.ccFailed = true → exec (.mctpControl cmd) s = .next s))

/-- No token without the outstanding challenge opens debug: a DEBUG_UNLOCK leaves debug closed where no challenge stands, or the token's serial
is not the module's. -/
def Claim.UnlockNeedsChallenge : Prop :=
  ∀ (port : Nat) (tok : List Byte) (s t : State), s.dbgUnit.opened = false →
    (s.dbgUnit.challenge = none ∨ s.dbgUnit.challenge ≠ some (sliceB tok 8 32) ∨ item tok 0 8 ≠ s.store.serial.toNat) →
    exec (.debugUnlock port tok) s = .next t → t.dbgUnit.opened = false

/-- The debug registers in a served access of the privileged view. In the open scope, HALT halts the selected core that exists (the active control complex excepted),
RESUME lets a halted one run, STEP is counted for it; each does nothing on another core; on a tile ID that names no tile they and DBG_DATA only leave ARG_REJECT. DBG_DATA writes
and reads the word at ADDR and moves ADDR by 8. Outside the scope a write only raises LOCK_VIOLATION and a read returns 0. -/
def Claim.DebugRegisters : Prop :=
  ∀ (h : HostAccess) (s : State), PrivServed h s →
    let off := fun (c : Instr) => exec c s = .next s
    (dbgOpen s = false → exec (.dbgHalt h) s = .next (post Ev.lockViolation [] s) ∧ exec (.dbgResume h) s = .next (post Ev.lockViolation [] s) ∧
      exec (.dbgStep h) s = .next (post Ev.lockViolation [] s) ∧ (∀ v, exec (.dbgDataWrite h v) s = .next (post Ev.lockViolation [] s)) ∧
      exec (.dbgDataRead h) s = .next { s with host := { s.host with readData := [0, 0, 0, 0, 0, 0, 0, 0], readPoison := false, readUr := false } }) ∧
    (dbgOpen s = true → s.dbgUnit.kind = 1 → 17 ≤ s.dbgUnit.unit % 32 →
      (∀ c ∈ [Instr.dbgHalt h, .dbgResume h, .dbgStep h], exec c s = .next (post Ev.argReject (det [(4, 0x3008), (2, 0x010E)]) s)) ∧
      (∀ v, exec (.dbgDataWrite h v) s = .next (post Ev.argReject (det [(4, 0x3020), (2, 0x010E)]) s)) ∧
      exec (.dbgDataRead h) s = .next (let t := post Ev.argReject (det [(4, 0x3020), (2, 0x010E)]) s
        { t with host := { t.host with readData := [0, 0, 0, 0, 0, 0, 0, 0], readPoison := false, readUr := false } })) ∧
    (dbgOpen s = true → (s.dbgUnit.kind = 1 → s.dbgUnit.unit % 32 < 17) →
      (dbgExists s = false → off (.dbgHalt h) ∧ off (.dbgResume h) ∧ off (.dbgStep h)) ∧
      (dbgActive s = true → off (.dbgHalt h) ∧ off (.dbgStep h)) ∧
      (dbgKey s ∈ s.dbgUnit.halted → off (.dbgHalt h)) ∧ (dbgKey s ∉ s.dbgUnit.halted → off (.dbgResume h) ∧ off (.dbgStep h)) ∧
      (dbgExists s = true → dbgActive s = false → dbgKey s ∉ s.dbgUnit.halted →
        exec (.dbgHalt h) s = .next { s with dbgUnit := { s.dbgUnit with halted := dbgKey s :: s.dbgUnit.halted } }) ∧
      (dbgExists s = true → dbgKey s ∈ s.dbgUnit.halted →
        exec (.dbgResume h) s = .next (pumpAll { s with dbgUnit := { s.dbgUnit with halted := s.dbgUnit.halted.filter (· != dbgKey s) } })) ∧
      (dbgExists s = true → dbgActive s = false → dbgKey s ∈ s.dbgUnit.halted → ∃ t, exec (.dbgStep h) s = .next t ∧
        t.dbgUnit = { s.dbgUnit with steps := t.dbgUnit.steps } ∧
        (∀ k, lookupD 0 k t.dbgUnit.steps = lookupD 0 k s.dbgUnit.steps + (if k = dbgKey s then 1 else 0)) ∧ OnlyChanges [.dbgUnit] s t)) ∧
    (dbgOpen s = true → (s.dbgUnit.kind = 1 → s.dbgUnit.unit % 32 < 17) →
      (∀ v : W64, ∃ t, exec (.dbgDataWrite h v) s = .next t ∧ t.dbgUnit = { s.dbgUnit with addr := s.dbgUnit.addr + 8, words := t.dbgUnit.words } ∧
        dbgWord { t with dbgUnit := { t.dbgUnit with addr := s.dbgUnit.addr } } = v ∧ OnlyChanges [.dbgUnit] s t) ∧
      (∃ t, exec (.dbgDataRead h) s = .next t ∧ t.host = { s.host with readData := toLE 8 (dbgWord s).toNat, readPoison := false, readUr := false } ∧
        t.dbgUnit = { s.dbgUnit with addr := s.dbgUnit.addr + 8 } ∧ OnlyChanges [.dbgUnit, .host] s t))

/-! ### Where commands complete -/

/-- COLL_SET, COLL_FIRE, COLLECTIVE_START and COLLECTIVE_COMPLETE complete. COLL_SET with items in range sets its idle slot and replies 0x0000; COLL_FIRE makes a slot's collective due;
COLLECTIVE_START, with a source that can be read, reads it and runs the first that is due; COLLECTIVE_COMPLETE, where the engine has its result, writes it at
DST, ties KNOT on KTILE once and ends the collective. -/
def Claim.CollectivesComplete : Prop :=
  (∀ (p : Packet) (s : State), Admitted 0x0503 p s →
    let n := item p.param 0 2
    let c := newSlot p
    collItems p n = true → c.op ≠ 7 → c.members = (rtSet s c.rts).members → collAddrs s c = true → (lookup n s.colls).elim false slotOpen = false →
    ∃ t, exec (.collSet p) s = .next t ∧ Answered p 0 0 s t ∧ lookup n t.colls = some c) ∧
  (∀ (p : Packet) (c : CollSlot) (s : State), Admitted 0x0504 p s → lookup (item p.param 0 2) s.colls = some c → c.op ≠ 0 →
    ∃ t, exec (.collFire p) s = .next t ∧ lookup (item p.param 0 2) t.colls = some { c with due := c.due ++ [{ shifted s p with tag := s.arrivals }] }) ∧
  (∀ (slot : Nat) (c : CollSlot) (p : Packet) (r : List Packet) (s : State), lookup slot s.colls = some c → c.due = p :: r → c.running = none →
    let n := c.nel * collBytes c.fmt
    rangeWaits s c.src n = false → xingClosed s 8 9 = false → readMeets s isRetired c.src n = false → readMeets s isPoisoned c.src n = false →
    ∃ t, exec (.collectiveStart slot) s = .next t ∧
      lookup slot t.colls = some { c with due := r, running := some p, own := srcRead s c.src n, shared := none }) ∧
  ∀ (slot : Nat) (c : CollSlot) (p : Packet) (parts : List (List Byte)) (bytes : List Byte) (s : State), lookup slot s.colls = some c →
    c.running = some p → c.own ≠ [] → rangeWaits s c.dst (c.dstBytes (rtSet s c.rts).self) = false → xingClosed s 8 9 = false →
    c.parts (rtSet s c.rts).self (collStep p) = some parts → (collResult slot c p parts s).1 = some bytes →
    let k := tileKnot c.ktile c.knot
    ∃ t d, exec (.collectiveComplete slot) s = .next t ∧ lookup slot t.colls = some d ∧ d.running = none ∧ knot t k = knot s k + 1 ∧
      t.mem = (nearWriteFor p.origin c.dst bytes bytes.length (collResult slot c p parts s).2).mem

/-- XCH_SET, XCH_GET and the COUNT, GRANT, row, FETCH and RESULT packets complete. XCH_SET of a free XID makes the exchange; XCH_GET of 1 to 256 exchanges writes their
records and replies 0x0000. Of a held exchange, with a step above COMMITTED, at this member: a COUNT before the grant phase is recorded, and the last one runs it; a GRANT makes its
source's DISPATCH send its rows; an admitted row that is new is written to its grid; a FETCH waits or is served; a RESULT is held for its COMBINE. -/
def Claim.ExchangesComplete : Prop :=
  (∀ (p : Packet) (s : State), Admitted 0x0602 p s →
    let q := { shifted s p with tag := s.arrivals }
    let x := newExchange q s
    xchItems q = true → getX s x.xid = none → s.exchanges.length < 256 → x.reuse = false →
    ∃ t, exec (.xchSet p) s = .next t ∧ getX t x.xid = some x ∧ (∀ n, n ≠ x.xid → getX t n = getX s n)) ∧
  (∀ (p : Packet) (s : State), Admitted 0x0603 p s →
    let first := item p.param 0 2
    let cnt := item p.param 2 2
    let dest := item p.param 8 8
    1 ≤ cnt → cnt ≤ 256 → first + cnt ≤ 65536 → destOk s dest (64 * cnt) true = true →
    exec (.xchGet p) s = .next (accept p (destWrite p.origin dest
      ((List.range cnt).flatMap fun k => (getX s (first + k)).elim (List.replicate 64 0) xchRecord) (arrived s)))) ∧
  (∀ (c : XCount) (x : Exchange) (y : Source × MeshItem) (s s₀ : State), getX s c.xid = some x →
    Comes (c.member == selfOf s x) (c.fmt, c.rowl) x.rts (.xcount c) y s s₀ → stalePacket s c.step = false → x.granted = false →
    let z := { x with counts := x.counts ++ [c] }
    exec (.xchCount c .ok) s = .next (if countsComplete s z then grantPhase z s₀ else setX z s₀)) ∧
  (∀ (g : XGrant) (x : Exchange) (m : XMove) (y : Source × MeshItem) (s s₀ : State), getX s g.xid = some x →
    Comes (localExpert s x g.expert).isSome ((rowShape x).getD (0, 1)) x.rts (.xgrant g) y s s₀ → stalePacket s g.step = false →
    (x.moves.find? fun k => k.tile == g.tile) = some m →
    let a := { m with grants := upsert g.expert g m.grants }
    let z := { x with moves := x.moves.map fun k => if k.tile = g.tile then a else k }
    exec (.xchGrant g .ok) s = .next (sendRows z a g (setX z s₀))) ∧
  (∀ (r : XRow) (x : Exchange) (m : MapEntry) (e : XExpert) (shape : Nat × Nat) (y : Source × MeshItem) (s s₀ : State), getX s r.xid = some x →
    rowWaits s r.xid r.expert r.row = false → rowShape x = some shape →
    Comes (rowMember x r.expert r.row == some (selfOf s x)) shape x.rts (.xrow r) y s s₀ → localExpert s x r.expert = some m →
    lookup r.expert x.experts = some e → stalePacket s r.step = false → x.granted = true → r.row < e.n1 + e.n2 → lookup r.row e.received = none →
    xingClosed s 9 8 = false →
    (∀ k < rowSquares shape.1 shape.2, (gridNear s m ((r.row / 128 * rowSquares shape.1 shape.2 + k) * sqSize shape.1) (sqSize shape.1)).isSome = true) →
    exec (.xchRow r .ok) s = .next (acceptRow x shape m e r s₀)) ∧
  (∀ (f : XFetch) (x : Exchange) (y : Source × MeshItem) (s s₀ : State), getX s f.xid = some x →
    Comes (f.member == selfOf s x) ((rowShape x).getD (0, 1)) x.rts (.xfetch f) y s s₀ → stalePacket s f.step = false →
    (localExpert s x f.expert).isSome = true →
    exec (.fetch f .ok) s = .next (serveFetches (setX { x with fetches := x.fetches ++ [f] } s₀))) ∧
  ∀ (r : XResult) (x : Exchange) (p : Play) (m : QMove) (y : Source × MeshItem) (s s₀ : State), getX s r.xid = some x →
    Comes (localExpert s x r.expert).isSome ((rowShape x).getD (0, 1)) x.rts (.xresult r) y s s₀ → xingClosed s (tileField r.tile) 8 = false →
    stalePacket s r.step = false → waitingCombine s r.tile r.xid = some (p, m) →
    let z := { x with results := upsert (resultKey r.tile r.expert r.row) r.elems x.results }
    exec (.result r .ok) s = .next (if combineReady (setX z s₀) z r.tile m.word then markReady p r.tile 8 (combineWrite p r.tile m z (setX z s₀)) else setX z s₀)

/-- MOVE_COMPLETION, FIREAT_RELEASE, WAIT_SATISFIED, WAIT_TIMEOUT, REMOTE_TIE_ARRIVAL, RAMP_START_GRANT, PASS_BEAT, MOVE_REPLAY and SEQ_HANG complete. A move that can complete leaves its queue
with its tie; a FIREAT that is reached and a WAIT that is satisfied complete; an unsatisfied WAIT past its TIMEOUT ends its play with 0x020B; a tie that arrives
gains its knot the amount; the first ramp request that may start opens its run; a pass beat ends its field's runs; a MOVE with a lost word copies again; a
hang faults the play. -/
def Claim.QueueEventsComplete : Prop :=
  (∀ (tile code : Nat) (p : Play) (q : TileQueue) (m : QMove) (s : State), playOfTile s tile = some p → getQueue p tile code = some q → q.moves = [m] →
    getPlay s p.order = some p → canComplete s p tile m = true → flushFails s m = none →
    exec (.moveCompletion tile code 0) s = .next (makeTie p tile m.word (dropMove p.order tile code 0 (wrapUp p tile code 0 m s)))) ∧
  (∀ (tile : Nat) (p : Play) (q : TileQueue) (m : QMove) (r : List QMove) (s s₀ : State), playOfTile s tile = some p → getQueue p tile 0 = some q →
    q.moves = m :: r → opOf m.word = 0x02 → seqHalted s tile = false → timeTo (BitVec.ofNat 64 (wf m.word 64 64)) s = some s₀ →
    wf m.word 64 64 ≤ (routerCt s₀ tile).toNat → exec (.fireatRelease tile) s = .next (completeMove p tile 0 0 m s₀)) ∧
  (∀ (tile code pos : Nat) (p : Play) (q : TileQueue) (m : QMove) (s : State), playOfTile s tile = some p → getQueue p tile code = some q →
    queueHalted s tile code = false → waitPos q = some (pos, m) →
    (waitOk s tile m.word = true → exec (.waitSatisfied tile code) s = .next (completeMove p tile code pos m s)) ∧
    (waitOk s tile m.word = false → 0 < wf m.word 107 16 → wf m.word 107 16 ≤ (routerCt s tile).toNat / 65536 - m.since →
      exec (.waitTimeout tile code) s = .next (failPlay p.order (moveFailure Status.waitTimeout m tile) s))) ∧
  (∀ (src : Source) (kind target k qt qc : Nat) (amount : W32) (r : List (Source × MeshItem)) (s : State),
    let tie : MeshItem := .tie kind target k amount qt qc
    let key := tieKnot kind target k qt
    let own := (playOfTile s qt).elim false fun p => p.seqs.any fun q => q.tile == key / 128
    s.mesh = (src, tie) :: r → itemClosed { s with mesh := r } tie = false →
    exec (.remoteTieArrival src (nodeOf s tie) .ok) s = .next (serveFetches (tieArrived qt qc
      (if own then addKnot key amount { s with mesh := r } else outerTie key amount { s with mesh := r })))) ∧
  (∀ (now ct org sh : Nat) (r : List (Nat × Nat × Nat)) (p : Play) (q : Partition) (s : State), s.rampQueue = (ct, org, sh) :: r →
    (∀ t, s.rampLast = some t → t + 64 ≤ now) → runningOn s org sh = some p → findPart s org sh = some q → passing s (tileField org) = false →
    exec (.rampStartGrant now) s = .next (pump p.order org 1
      (setPart { q with rampWait := false, runOpen := true, runRows := 0, runFrom := s.cad.ct.toNat } { s with rampQueue := r, rampLast := some now }))) ∧
  (∀ (f : Nat) (s : State), passing s f = true →
    ∃ t, exec (.passBeat f) s = .next t ∧ (getField t f).passNow = true ∧ (∀ q ∈ t.parts, tileField q.org = f → q.runOpen = false)) ∧
  (∀ (tile code : Nat) (p : Play) (q : TileQueue) (m m' : QMove) (r : List QMove) (s s' : State), playOfTile s tile = some p →
    getQueue p tile code = some q → q.moves = m :: r → m.started = true → opOf m.word = 0x30 → lostWord m = true →
    runMove p tile { m with fault := .none, replayed := true } s = .run m' s' →
    ∃ t, exec (.moveReplay tile code .none) s = .next t ∧ Records (lostClass m) s t ∧ t.mem = s'.mem) ∧
  ∀ (tile : Nat) (p : Play) (s : State), playOfTile s tile = some p → seqHalted s tile = false → getPlay s p.order = some p → p.live = true →
    ∃ t y, exec (.seqHang tile) s = .next t ∧ Raises Ev.seqHang s t ∧ getPlay t p.order = some y ∧ y.faulted = some 4 ∧ ∀ z ∈ y.seqs, z.stopped = true

/-- TURN_BOUNDARY, CALIBRATION_SLOT, REFRESH, SCRUB, SCRUB_STARVED, NS_THERMAL and RIM_SCRUB complete. At beat 0 a slot of the next turn is announced; in the announced slot the channel
whose turn it is calibrates; a channel refreshes once more; the next row of a channel, and the next unit of a rim stack, that read well move the lap on; a lap past its bound
raises SCRUB_STARVED; and sensors that read alike give the stack its temperature. -/
def Claim.StackEventsComplete : Prop :=
  (∀ (slot : CtWord) (s : State), ctRuns s = true → ctBeat s.cad.ct = 0 → ctTurn slot = ctTurn s.cad.ct + 1 → slot.toNat % 65536 = 0 →
    ∃ t, exec (.turnBoundary slot) s = .next t ∧ t.near.calNext = slot) ∧
  (∀ (n c a b v : Nat) (s : State), inSlot s = true → inTurn (s.near.calSlot.toNat, 5, 0) s = true → (getStack s n).thermal ≠ .quiesced →
    c = (getStack s n).calChan → (getStack s n).calLast = none → 150 ≤ a → 150 ≤ b → 40 ≤ v →
    ∃ t, exec (.calibrationSlot n c a b v true) s = .next t ∧ (getStack t n).calLast = some (ctTurn s.cad.ct, c) ∧
      (getStack t n).calChan = (c + 1) % 32 ∧ lookup c (getStack t n).margins = some (a, b, v)) ∧
  (∀ (n c : Nat) (s : State), ∃ t, exec (.refresh n c false) s = .next t ∧
    lookupD 0 c (getStack t n).refreshed = lookupD 0 c (getStack s n).refreshed + 1) ∧
  (∀ (n c : Nat) (s : State), n < 1024 → c < 32 → (getStack s n).thermal ≠ .quiesced → lookupD 0 c (getStack s n).scrubAt < 524287 →
    ∃ t, exec (.scrub n c .ok) s = .next t ∧ lookupD 0 c (getStack t n).scrubAt = lookupD 0 c (getStack s n).scrubAt + 1) ∧
  (∀ s : State, s.near.lapStarved = false → s.near.bound.toNat * 60 < lapSeconds s →
    exec .scrubStarved s = .next (post Ev.scrubStarved [] { s with near := { s.near with starved := true, starvedForce := true, lapStarved := true } })) ∧
  (∀ (n : Nat) (l : List Int) (s : State), l.length = 16 →
    ∃ t, exec (.nsThermal n false l l) s = .next (resumeAccess t) ∧ (getStack t n).sensors = l ∧ (getStack t n).temp ∈ l ∧
      ∀ z ∈ l, z ≤ (getStack t n).temp) ∧
  ∀ (k row : Nat) (s : State), k < 32 → (getCapstan s k).failed = false → (getCapstan s k).rebuilding = false →
    (getCapstan s k).rimThermal ≠ .quiesced → (getCapstan s k).scrubAt + 1 < rimUnits →
    ∃ t, exec (.rimScrub k (some (row, .ok))) s = .next t ∧ (getCapstan t k).scrubAt = (getCapstan s k).scrubAt + 1

/-- CROSSING_TIMEOUT, SELF_TEST, TILE_SPLICE, TILE_WEAR, PHASE_FAULT, PLL_SWITCH, CC_TAKEOVER and CC_STANDBY_LOST complete. A crossing that timed out is closed; a row that was asked for is
tested; a requested tile of an idle row gives way to its spare; a tile that wore by 4 % raises TILE_WEAR; a phase in service is shed; a domain's spare PLL opens its
crossings again; the standby takes over from a failed active, and a silent standby is lost. -/
def Claim.FaultEventsComplete : Prop :=
  (∀ (a b : Nat) (s : State), ∃ t, exec (.crossingTimeout a b) s = .next t ∧ t.xing.timeout = true ∧ xingClosed t a b = true) ∧
  (∀ (f r : Nat) (bad : List Nat) (s : State), f * 16 + r ∈ s.rel.selfTest → rowIdle s f r = true →
    ∃ t, exec (.selfTest f r bad) s = .next t ∧ f * 16 + r ∉ t.rel.selfTest ∧
      ∀ c ∈ bad, c ≤ 16 → isSuspect s (physId f r c) = true → physId f r c ∉ s.store.badTiles → physId f r c ∈ t.rel.spliceReq) ∧
  (∀ (f r c : Nat) (s : State), f < 8 → r < 16 → c < 16 → physId f r c ∈ s.rel.spliceReq → spareTile s f r = true → rowIdle s f r = true →
    ∃ t, exec (.tileSplice f r c true) s = .next t ∧ lookup (f * 16 + r) t.rel.splices = some c ∧ physId f r c ∈ t.store.badTiles ∧
      spareTile t f r = false) ∧
  (∀ (u count base : Nat) (s : State), u < 4096 → u % 32 ≤ 16 → isReady s = true → lookup u s.store.baseline = some base →
    base * 4 ≤ (base - count) * 100 → u ∉ s.store.badTiles → u ∉ s.rel.worn →
    ∃ t, exec (.tileWear u count) s = .next t ∧ lookup u t.rel.ringCounts = some count ∧ Raises Ev.tileWear s t ∧ Records 18 s t) ∧
  (∀ (f k : Nat) (s : State), k ∉ (getField s f).phasesShed →
    ∃ t, exec (.phaseFault f k) s = .next t ∧ (getField t f).phasesShed = k :: (getField s f).phasesShed ∧ f * 32 + k ∈ t.store.badPhases) ∧
  (∀ (d : Nat) (s : State), (∃ x ∈ s.xing.closed, x.1 = d ∨ x.2 = d) → pllSpare s d = true →
    ∃ t, exec (.pllSwitch d) s = .next t ∧ pllSpare t d = false ∧ t.xing.closed = s.xing.closed.filter (fun x => x.1 != d && x.2 != d) ∧
      Raises Ev.pllSwitch s t ∧ Records 15 s t) ∧
  (∀ s : State, s.rel.standby = true → standbyHalted s = false → s.rel.ccFailed = false →
    (stageDone s 2 = true → 4 ≤ s.rel.missed → exec .ccTakeover s = .next { s with rel := { s.rel with ccFailed := true } }) ∧
    (4 ≤ s.rel.missedBack → ∃ t, exec .ccStandbyLost s = .next t ∧ t.rel = { s.rel with standby := false } ∧ Raises Ev.ccStandbyLost s t ∧ Records 11 s t)) ∧
  ∀ s : State, s.rel.ccFailed = true → s.cap.armed = none →
    let s₀ := runAllDue 16384 { s with
      cad := switchReceiver s.cad s.rel.receiver
      rel := { s.rel with ccFailed := false, standby := false, southActive := !s.rel.southActive, missed := 0, missedBack := 0 } }
    ∃ t, Raises Ev.ccTakeover s₀ t ∧ Records 11 s₀ t ∧ OnlyChanges [.store, .host, .xing] s₀ t ∧
      exec .ccTakeover s = .next (rerunStage (t.host.heldWrites.foldl (fun u w => hostRegWrite w.1 w.2.1 w.2.2.1 w.2.2.2 u)
        { t with host := { t.host with heldWrites := [] } }))

/-! ### The obligations -/

/-- A step runs the command at the front of the queue. The idle step on an empty queue is the model's choice (assumption 8). -/
def Obligations.StepRunsFrontCommand : Prop :=
  Claim.StepRunsFrontCommand

/-- Every command but PRECHARGE below −0.5 V answers a next state. That an input below the absolute minimum stops the machine is the model's choice (assumption 18). -/
def Obligations.OnlyDamageStops : Prop :=
  Claim.OnlyDamageStops

/-- Every step keeps module memory in its canonical form. The form is the model's own; that an unlisted byte reads 0 is assumption 20. -/
def Obligations.StepKeepsMemoryForm : Prop :=
  Claim.StepKeepsMemoryForm

/-- Module memory after reset is in its canonical form. -/
def Obligations.ResetMemoryForm : Prop :=
  Claim.ResetMemoryForm

/-- A received beat edge in LOCKED adds one beat to CT; CT stays in its beat, and no beat edge moves it back. How CT goes on over missed edges is a reading of the model (assumption 22). -/
def Obligations.BeatEdgesMoveCt : Prop :=
  Claim.LockedBeatEdgeAdvancesCt ∧ Claim.BeatEdgeNeverMovesCtBack ∧ Claim.CtStaysInItsBeat

/-- Turn stamps, cadence loss and the cadence source. Event items are the model's layout (assumption 25). -/
def Obligations.CadenceIsCheckedAndSourced : Prop :=
  Claim.LockedStampIsChecked ∧ Claim.CadenceLossEntersHoldover ∧ Claim.CadenceSourceWrites

/-- Register writes: the seed, the locks, REGISTER_WRITE. Rows of single registers are read as REGISTER_WRITE at their offset (assumption 15). -/
def Obligations.RegisterWritesAct : Prop :=
  Claim.SeedAndFreezeWrites ∧ Claim.FrozenPrivLockStays ∧ Claim.RegisterWriteForms

/-- Doorbells announce slots; queues are enabled and disabled. Doorbells of disabled queues and stale indices are read as assumption 65 says. -/
def Obligations.DoorbellsAndQueues : Prop :=
  Claim.DoorbellsAnnounce ∧ Claim.QueueEnableDisable

/-- Register reads return the registers of the view. -/
def Obligations.ReadsReturnRegisters : Prop :=
  Claim.ReadsReturnRegisters

/-- 128-bit registers latch their upper half; region writes are staged and checked. Follows R542. -/
def Obligations.WideRegistersLatch : Prop :=
  Claim.WideRegistersLatch ∧ Claim.RegionWritesAreChecked

/-- A contribution of the open step is accumulated exactly; one out of place adds nothing. -/
def Obligations.ContributionsAreAccumulated : Prop :=
  Claim.ContributionsOutOfPlaceAddNothing ∧ Claim.ContributionIsAccumulated

/-- The apply of a trainable entry follows the pseudocode of R322. Follows R322. -/
def Obligations.ApplyFollowsPseudocode : Prop :=
  Claim.ApplyFollowsPseudocode

/-- The apply pass of a capstan, and its confirmation. The pass of a capstan is one step (assumption 48). -/
def Obligations.ApplyPassAndConfirm : Prop :=
  Claim.ApplyPassAppliesEntries ∧ Claim.CapstanConfirms

/-- The values formed from T in FP64. Follows R318. -/
def Obligations.ReductionFormsNorm : Prop :=
  Claim.ReductionFormsNorm

/-- Norm pass, READY and the vote, and the control packets of other members. Control packets before their step is declared are kept (assumption 74). -/
def Obligations.CommitIsPrepared : Prop :=
  Claim.NormPassEntersP ∧ Claim.ReadyAndVote ∧ Claim.ControlPacketsAreRecorded

/-- The commit point commits or aborts; retraction; the outcome window. What an abort leaves of the alternate bank, of packets in flight and of the log are readings of the model (assumptions 43, 45, 47). -/
def Obligations.CommitPointDecides : Prop :=
  Claim.CommitWithAllVotes ∧ Claim.CommitWithoutVotesAborts ∧ Claim.RetractionUndoesCommit ∧ Claim.OutcomeWindowCloses

/-- A failed capstan is replaced by a spare, and its rebuild ends. The sums of an unconfirmed capstan are lost (assumption 48). -/
def Obligations.CapstanFailureTakesSpare : Prop :=
  Claim.CapstanFailureTakesSpare

/-- COMMITTED write, COMMIT_ARM, the ledger and group commands. Corner statuses are readings of the model (assumptions 48, 49, 51). -/
def Obligations.CommitCommands : Prop :=
  Claim.CommittedWriteSetsStep ∧ Claim.CommitArmArms ∧ Claim.LedgerCommands

/-- Tally comparisons, audit samples and the watch commands. Corner statuses are readings of the model (assumption 54); rounding of ρ is assumption 12. -/
def Obligations.WatchCountsAndCommands : Prop :=
  Claim.TallyComparisonCounts ∧ Claim.AuditSampleCounts ∧ Claim.WatchCommands

/-- When a tally comparison fails. Follows R347. -/
def Obligations.TallyToleranceRule : Prop :=
  Claim.TallyToleranceRule

/-- Hawser ports train, qualify and discover their peers. Values at the entry of ACTIVE are the model's reading (assumption 55). -/
def Obligations.PortsTrainAndDiscover : Prop :=
  Claim.PortTrainingStates ∧ Claim.HelloDecidesPort

/-- Flits, retry and credits; lanes and ports lost. Values at the entry of ACTIVE are the model's reading (assumption 55). -/
def Obligations.FlitsAndLanes : Prop :=
  Claim.FlitsAreJudged ∧ Claim.AckAndCredits ∧ Claim.FlitsRoundTrip ∧ Claim.LanesAreSwapped ∧ Claim.PortsGoDownAndStall

/-- The link tables are set; barriers release. When a barrier is late is a reading of the model (assumption 38). -/
def Obligations.LinkTablesAndBarriers : Prop :=
  Claim.LinkTables ∧ Claim.BarriersRelease

/-- Packets are forwarded; leaves join rounds; a round sum is delivered. The index of stochastic rounding is a reading of the model (assumption 37). -/
def Obligations.RoundsAreSummed : Prop :=
  Claim.PacketsAreForwarded ∧ Claim.LeavesJoinRounds ∧ Claim.RoundSumIsDelivered

/-- Collectives are set, start and complete. The index of stochastic rounding is a reading of the model (assumption 37). -/
def Obligations.CollectivesRun : Prop :=
  Claim.CollectivesAreSet ∧ Claim.CollectivesRun ∧ Claim.CollectiveResults

/-- An exchange is set; its COUNT, GRANT and ROW packets act. Where the grid's amax table lies is a reading of the model (assumption 36). -/
def Obligations.ExchangesAreSetAndFilled : Prop :=
  Claim.ExchangeIsSet ∧ Claim.ExchangePhases

/-- The grant phase places rows; results return. Exchange units reach near memory only (assumption 36). -/
def Obligations.ExchangePlacesAndReturns : Prop :=
  Claim.GrantPhasePlacesRows ∧ Claim.ExchangeReturns ∧ Claim.ExchangePacketsOutOfPlace ∧ Claim.ExchangeRecords

/-- Move rows dispatch into queues, and a move at an idle queue starts. -/
def Obligations.MovesAreDispatchedAndStart : Prop :=
  Claim.MoveRowsDispatch ∧ Claim.MoveRowsAreChecked ∧ Claim.IdleQueueStartsMove ∧ Claim.ArrayQueueStartsMove

/-- Where the moves of a list lie, END as its last move; FIREAT holds its list until CT. Follows R171, R192. -/
def Obligations.ListsEndAndFireatHolds : Prop :=
  Claim.ListsEndWithEnd ∧ Claim.FireatHoldsItsList

/-- The sequencer moves and the knot moves. -/
def Obligations.SequencerAndKnotMoves : Prop :=
  Claim.SequencerMoves ∧ Claim.CompletionTies ∧ Claim.KnotMoves ∧ Claim.KnotsCount

/-- TOPK, GATHER, SCATTER, SCATTER_ADD, PACK and ELEM run, with their frames. -/
def Obligations.PlyMovesRun : Prop :=
  Claim.TopkRanks ∧ Claim.TopkRuns ∧ Claim.RowsMove ∧ Claim.GatherScatterRun ∧ Claim.PackRuns ∧ Claim.ElemRuns ∧ Claim.LaneFaultsInPly

/-- REDUCE, SMXB, NRMB and AMAXT join their group; its result and its timeout. -/
def Obligations.GroupedPlyMoves : Prop :=
  Claim.GroupMovesStart ∧ Claim.GroupsComplete ∧ Claim.GroupResults

/-- LOADW, SWAPW, STREAM, MOVE, INVAL, DISPATCH and COMBINE run. When a STREAM admits its rows is the model's step (assumption 11). -/
def Obligations.ArrayMoverExchangeMovesRun : Prop :=
  Claim.WeightsLoadAndSwap ∧ Claim.StreamStarts ∧ Claim.StreamsAdmitRows ∧ Claim.StreamRowsDeliver ∧ Claim.MoverMovesRun ∧ Claim.ExchangeMovesRun

/-- Plays are fired, start, end, are aborted and run again. PLAY_ABORT's status is a reading of the model (assumption 35). -/
def Obligations.PlaysStartAndEnd : Prop :=
  Claim.PlayReplies ∧ Claim.PlaysAreFired ∧ Claim.PlaysStart ∧ Claim.PlaysEnd ∧ Claim.PlayEndEffects ∧ Claim.PlaysAbortAndRerun

/-- Moves complete; ramp starts and pass beats; replay and hangs. Ramp requests are first in, first out (assumption 42); a lost word leaves nothing written (assumption 32). -/
def Obligations.MovesCompleteAndPace : Prop :=
  Claim.MovesComplete ∧ Claim.WaitsEnd ∧ Claim.RemoteTiesArrive ∧ Claim.RampAndPassBeats ∧ Claim.ReplayAndHang

/-- PART, LOAN and HINT_PLACE. LOAN's reserved bits and its limits are read as assumption 67 says. -/
def Obligations.PartitionsLoansHints : Prop :=
  Claim.PartitionsAreCut ∧ Claim.LoansAreMade ∧ Claim.HintsArePlaced

/-- A read after a write gives the written value, and other bytes are unchanged. That unmapped near addresses hold nothing is the model's choice (assumption 19). -/
def Obligations.MemoryReadAfterWrite : Prop :=
  Claim.MemoryReadAfterWrite

/-- Accepted region writes keep the table free of overlaps; the interleave is injective and stays in the near tier. -/
def Obligations.RegionsAndInterleave : Prop :=
  Claim.AcceptedRegionsDoNotOverlap ∧ Claim.InterleaveIsInjective ∧ Claim.InterleaveStaysInTier

/-- Row repair and retirement, channel migration, stack splice. Channel numbers in UNIT and event moments are the model's (assumptions 40, 57, 58). -/
def Obligations.NearStacksRepairAndMigrate : Prop :=
  Claim.RowsAreRepairedOrRetired ∧ Claim.ChannelsMigrate ∧ Claim.MigrationsSwitch ∧ Claim.StackSplices

/-- Calibration, refresh, scrub laps, thermal states. Units and counts are read as assumptions 58 and 59 say. -/
def Obligations.NearStacksCalibrateScrubThrottle : Prop :=
  Claim.CalibrationSlotIsAnnounced ∧ Claim.CalibrationAndRefresh ∧ Claim.ScrubLaps ∧ Claim.ScrubStarves ∧ Claim.RimScrubLaps ∧ Claim.ThermalStates

/-- Droop, operating-point transitions and the power-turn boundary. Which of two grants governs is a reading of the model (assumption 23). -/
def Obligations.PowerTurnsAndTransitions : Prop :=
  Claim.StretchAndTransitions ∧ Claim.PowerTurnBegins

/-- The power plan fits the share unless it is the floor. -/
def Obligations.PlanFitsTheShare : Prop :=
  Claim.PlanFitsTheShare

/-- Power messages are answered; preferences are set. Sensor numbers and widths are the model's (assumption 44). -/
def Obligations.PowerMessagesAndPreferences : Prop :=
  Claim.PowerMessagesAnswer ∧ Claim.PreferencesAreSet

/-- The default grant and the stale grant; which beats of a power turn are pass beats. Follows R440, R446. -/
def Obligations.GrantsAndPassBeats : Prop :=
  Claim.DefaultAndStaleGrants ∧ Claim.PassBeats

/-- Tiles, supplies, PLLs, control complexes and crossings fail over. Record classes, wear events and CC_TAKEOVER's two uses are readings of the model (assumptions 41, 61, 69). -/
def Obligations.FaultsAreSurvived : Prop :=
  Claim.RowsAreSelfTested ∧ Claim.TilesAreSpliced ∧ Claim.TilesWear ∧ Claim.SuppliesFailOver ∧ Claim.ControlFailsOver ∧ Claim.CrossingTimeoutClosesCrossing

/-- The 52 V input, the module reset and the port resets. The restart threshold within its range is the model's free constant (assumption 50). -/
def Obligations.PowerInputAndPortResets : Prop :=
  Claim.PowerInputAndResets ∧ Claim.PortResets

/-- A leak shuts the module down and latches until the input falls. Follows R557. -/
def Obligations.LeakLatches : Prop :=
  Claim.LeakLatches

/-- Bring-up stages open in order; image stages check their images. SHAKE256 and ML-DSA-65 are opaque (assumption 3); corner states are assumption 62. -/
def Obligations.BringUpStages : Prop :=
  Claim.StagesOpenInOrder ∧ Claim.ImageStagesCheckImages

/-- Inventory, stacks, fill and the later stages. Corner states are readings of the model (assumption 62). -/
def Obligations.BringUpInventoryToReady : Prop :=
  Claim.InventoryStacksAndFill ∧ Claim.LaterStagesEnd

/-- The dispatcher's checks and FIRE times. A command whose FIRE is CT is scheduled (assumption 66). -/
def Obligations.DispatcherChecks : Prop :=
  Claim.DispatcherChecks ∧ Claim.PacketChecksInOrder

/-- A command occupies 1 + LEN slots of its ring. Follows R517. -/
def Obligations.CommandsOccupySlots : Prop :=
  Claim.CommandsOccupySlots

/-- NOP, EVENT_GET, FAULT_GET and TELEM_SNAP. -/
def Obligations.RecordCommands : Prop :=
  Claim.RecordCommands

/-- Fetch errors, dropped replies, scheduled events in order, the aperture. Aperture corners and relabelled queues are readings of the model (assumptions 65, 68). -/
def Obligations.FetchEventsAperture : Prop :=
  Claim.FetchFailsOrIdles ∧ Claim.RepliesOfResetPortsAreDropped ∧ Claim.EventsRunInOrder ∧ Claim.ApertureReads ∧ Claim.ApertureWrites

/-- A reply is written at CQTAIL, with its message. Follows R520. -/
def Obligations.RepliesAreWritten : Prop :=
  Claim.RepliesAreWritten

/-- Fuses, mailbox, debug unlock and the debug registers. Frames of DOE and MCTP are by reference (assumption 53); SHAKE256 and ML-DSA-65 are opaque (assumption 3); a core's memory is assumption 6. -/
def Obligations.SecurityAndDebug : Prop :=
  Claim.FusesOnlyTighten ∧ Claim.MailboxCommands ∧ Claim.UnlockNeedsChallenge ∧ Claim.DebugRegisters

/-- Where COLL_SET, COLL_FIRE, COLLECTIVE_START and COLLECTIVE_COMPLETE complete. -/
def Obligations.CollectivesComplete : Prop :=
  Claim.CollectivesComplete

/-- Where XCH_SET, XCH_GET and the COUNT, GRANT, row, FETCH and RESULT packets complete. -/
def Obligations.ExchangesComplete : Prop :=
  Claim.ExchangesComplete

/-- Where the events of queues, knots, runs and sequencers complete. -/
def Obligations.QueueEventsComplete : Prop :=
  Claim.QueueEventsComplete

/-- Where calibration, refresh, scrub and the thermal readings complete. -/
def Obligations.StackEventsComplete : Prop :=
  Claim.StackEventsComplete

/-- Where self-test, splices, wear, phases, PLLs, crossings and control complexes complete. -/
def Obligations.FaultEventsComplete : Prop :=
  Claim.FaultEventsComplete
end

