-- ==== Sys2Proof/Laws/Events.lean ====
section
/-! SUPPORT. What an event, a record of the fault ledger and a reply leave alone, and how an admitted command runs. -/

namespace Sys2Proof.Machine

/-! ### Records of the fault ledger and of crossing faults -/

@[simp] theorem ledgerRec_pending (cls action result : Nat) (unit logical play : W32) (d : List Byte) (s : State) : (ledgerRec cls action result unit logical play d s).pending = s.pending := rfl
@[simp] theorem ledgerRec_cad (cls action result : Nat) (unit logical play : W32) (d : List Byte) (s : State) : (ledgerRec cls action result unit logical play d s).cad = s.cad := rfl
@[simp] theorem ledgerRec_sched (cls action result : Nat) (unit logical play : W32) (d : List Byte) (s : State) : (ledgerRec cls action result unit logical play d s).sched = s.sched := rfl
@[simp] theorem ledgerRec_arrivals (cls action result : Nat) (unit logical play : W32) (d : List Byte) (s : State) : (ledgerRec cls action result unit logical play d s).arrivals = s.arrivals := rfl
@[simp] theorem ledgerRec_xing (cls action result : Nat) (unit logical play : W32) (d : List Byte) (s : State) : (ledgerRec cls action result unit logical play d s).xing = s.xing := rfl
@[simp] theorem ledgerRec_fields (cls action result : Nat) (unit logical play : W32) (d : List Byte) (s : State) : (ledgerRec cls action result unit logical play d s).fields = s.fields := rfl
@[simp] theorem ledgerRec_parts (cls action result : Nat) (unit logical play : W32) (d : List Byte) (s : State) : (ledgerRec cls action result unit logical play d s).parts = s.parts := rfl
@[simp] theorem ledgerRec_removed (cls action result : Nat) (unit logical play : W32) (d : List Byte) (s : State) : (ledgerRec cls action result unit logical play d s).removed = s.removed := rfl
@[simp] theorem ledgerRec_plays (cls action result : Nat) (unit logical play : W32) (d : List Byte) (s : State) : (ledgerRec cls action result unit logical play d s).plays = s.plays := rfl
@[simp] theorem ledgerRec_parting (cls action result : Nat) (unit logical play : W32) (d : List Byte) (s : State) : (ledgerRec cls action result unit logical play d s).parting = s.parting := rfl
@[simp] theorem ledgerRec_partNext (cls action result : Nat) (unit logical play : W32) (d : List Byte) (s : State) : (ledgerRec cls action result unit logical play d s).partNext = s.partNext := rfl
@[simp] theorem ledgerRec_rampQueue (cls action result : Nat) (unit logical play : W32) (d : List Byte) (s : State) : (ledgerRec cls action result unit logical play d s).rampQueue = s.rampQueue := rfl
@[simp] theorem ledgerRec_rampLast (cls action result : Nat) (unit logical play : W32) (d : List Byte) (s : State) : (ledgerRec cls action result unit logical play d s).rampLast = s.rampLast := rfl
@[simp] theorem ledgerRec_knots (cls action result : Nat) (unit logical play : W32) (d : List Byte) (s : State) : (ledgerRec cls action result unit logical play d s).knots = s.knots := rfl
@[simp] theorem ledgerRec_mem (cls action result : Nat) (unit logical play : W32) (d : List Byte) (s : State) : (ledgerRec cls action result unit logical play d s).mem = s.mem := rfl
@[simp] theorem ledgerRec_regions (cls action result : Nat) (unit logical play : W32) (d : List Byte) (s : State) : (ledgerRec cls action result unit logical play d s).regions = s.regions := rfl
@[simp] theorem ledgerRec_loans (cls action result : Nat) (unit logical play : W32) (d : List Byte) (s : State) : (ledgerRec cls action result unit logical play d s).loans = s.loans := rfl
@[simp] theorem ledgerRec_loanNext (cls action result : Nat) (unit logical play : W32) (d : List Byte) (s : State) : (ledgerRec cls action result unit logical play d s).loanNext = s.loanNext := rfl
@[simp] theorem ledgerRec_hints (cls action result : Nat) (unit logical play : W32) (d : List Byte) (s : State) : (ledgerRec cls action result unit logical play d s).hints = s.hints := rfl
@[simp] theorem ledgerRec_caches (cls action result : Nat) (unit logical play : W32) (d : List Byte) (s : State) : (ledgerRec cls action result unit logical play d s).caches = s.caches := rfl
@[simp] theorem ledgerRec_near (cls action result : Nat) (unit logical play : W32) (d : List Byte) (s : State) : (ledgerRec cls action result unit logical play d s).near = s.near := rfl
@[simp] theorem ledgerRec_cap (cls action result : Nat) (unit logical play : W32) (d : List Byte) (s : State) : (ledgerRec cls action result unit logical play d s).cap = s.cap := rfl
@[simp] theorem ledgerRec_watch (cls action result : Nat) (unit logical play : W32) (d : List Byte) (s : State) : (ledgerRec cls action result unit logical play d s).watch = s.watch := rfl
@[simp] theorem ledgerRec_ports (cls action result : Nat) (unit logical play : W32) (d : List Byte) (s : State) : (ledgerRec cls action result unit logical play d s).ports = s.ports := rfl
@[simp] theorem ledgerRec_lqWindow (cls action result : Nat) (unit logical play : W32) (d : List Byte) (s : State) : (ledgerRec cls action result unit logical play d s).lqWindow = s.lqWindow := rfl
@[simp] theorem ledgerRec_sets (cls action result : Nat) (unit logical play : W32) (d : List Byte) (s : State) : (ledgerRec cls action result unit logical play d s).sets = s.sets := rfl
@[simp] theorem ledgerRec_colls (cls action result : Nat) (unit logical play : W32) (d : List Byte) (s : State) : (ledgerRec cls action result unit logical play d s).colls = s.colls := rfl
@[simp] theorem ledgerRec_barriers (cls action result : Nat) (unit logical play : W32) (d : List Byte) (s : State) : (ledgerRec cls action result unit logical play d s).barriers = s.barriers := rfl
@[simp] theorem ledgerRec_exchanges (cls action result : Nat) (unit logical play : W32) (d : List Byte) (s : State) : (ledgerRec cls action result unit logical play d s).exchanges = s.exchanges := rfl
@[simp] theorem ledgerRec_mesh (cls action result : Nat) (unit logical play : W32) (d : List Byte) (s : State) : (ledgerRec cls action result unit logical play d s).mesh = s.mesh := rfl
@[simp] theorem ledgerRec_power (cls action result : Nat) (unit logical play : W32) (d : List Byte) (s : State) : (ledgerRec cls action result unit logical play d s).power = s.power := rfl
@[simp] theorem ledgerRec_rel (cls action result : Nat) (unit logical play : W32) (d : List Byte) (s : State) : (ledgerRec cls action result unit logical play d s).rel = s.rel := rfl
@[simp] theorem ledgerRec_bu (cls action result : Nat) (unit logical play : W32) (d : List Byte) (s : State) : (ledgerRec cls action result unit logical play d s).bu = s.bu := rfl
@[simp] theorem ledgerRec_host (cls action result : Nat) (unit logical play : W32) (d : List Byte) (s : State) : (ledgerRec cls action result unit logical play d s).host = s.host := rfl
@[simp] theorem ledgerRec_dbgUnit (cls action result : Nat) (unit logical play : W32) (d : List Byte) (s : State) : (ledgerRec cls action result unit logical play d s).dbgUnit = s.dbgUnit := rfl
@[simp] theorem ledgerRec_pins (cls action result : Nat) (unit logical play : W32) (d : List Byte) (s : State) : (ledgerRec cls action result unit logical play d s).pins = s.pins := rfl
@[simp] theorem ledgerRec_snap (cls action result : Nat) (unit logical play : W32) (d : List Byte) (s : State) : (ledgerRec cls action result unit logical play d s).snap = s.snap := rfl
@[simp] theorem ledgerRec_freeCtr (cls action result : Nat) (unit logical play : W32) (d : List Byte) (s : State) : (ledgerRec cls action result unit logical play d s).freeCtr = s.freeCtr := rfl
/-- A record enters the fault ledger, with its class and unit. -/
theorem ledgerRec_enters (cls action result : Nat) (unit logical play : W32) (d : List Byte) (s : State) :
    ∃ r, (ledgerRec cls action result unit logical play d s).store.ledger = (r :: s.store.ledger).take 262144 ∧ r.cls = cls ∧ r.unit = unit := ⟨_, rfl, rfl, rfl⟩

@[simp] theorem xingNote_pending (play : W32) (src dst : Nat) (timeout : Bool) (s : State) : (xingNote play src dst timeout s).pending = s.pending := rfl
@[simp] theorem xingNote_cad (play : W32) (src dst : Nat) (timeout : Bool) (s : State) : (xingNote play src dst timeout s).cad = s.cad := rfl
@[simp] theorem xingNote_sched (play : W32) (src dst : Nat) (timeout : Bool) (s : State) : (xingNote play src dst timeout s).sched = s.sched := rfl
@[simp] theorem xingNote_arrivals (play : W32) (src dst : Nat) (timeout : Bool) (s : State) : (xingNote play src dst timeout s).arrivals = s.arrivals := rfl
@[simp] theorem xingNote_fields (play : W32) (src dst : Nat) (timeout : Bool) (s : State) : (xingNote play src dst timeout s).fields = s.fields := rfl
@[simp] theorem xingNote_parts (play : W32) (src dst : Nat) (timeout : Bool) (s : State) : (xingNote play src dst timeout s).parts = s.parts := rfl
@[simp] theorem xingNote_removed (play : W32) (src dst : Nat) (timeout : Bool) (s : State) : (xingNote play src dst timeout s).removed = s.removed := rfl
@[simp] theorem xingNote_plays (play : W32) (src dst : Nat) (timeout : Bool) (s : State) : (xingNote play src dst timeout s).plays = s.plays := rfl
@[simp] theorem xingNote_parting (play : W32) (src dst : Nat) (timeout : Bool) (s : State) : (xingNote play src dst timeout s).parting = s.parting := rfl
@[simp] theorem xingNote_partNext (play : W32) (src dst : Nat) (timeout : Bool) (s : State) : (xingNote play src dst timeout s).partNext = s.partNext := rfl
@[simp] theorem xingNote_rampQueue (play : W32) (src dst : Nat) (timeout : Bool) (s : State) : (xingNote play src dst timeout s).rampQueue = s.rampQueue := rfl
@[simp] theorem xingNote_rampLast (play : W32) (src dst : Nat) (timeout : Bool) (s : State) : (xingNote play src dst timeout s).rampLast = s.rampLast := rfl
@[simp] theorem xingNote_knots (play : W32) (src dst : Nat) (timeout : Bool) (s : State) : (xingNote play src dst timeout s).knots = s.knots := rfl
@[simp] theorem xingNote_mem (play : W32) (src dst : Nat) (timeout : Bool) (s : State) : (xingNote play src dst timeout s).mem = s.mem := rfl
@[simp] theorem xingNote_regions (play : W32) (src dst : Nat) (timeout : Bool) (s : State) : (xingNote play src dst timeout s).regions = s.regions := rfl
@[simp] theorem xingNote_loans (play : W32) (src dst : Nat) (timeout : Bool) (s : State) : (xingNote play src dst timeout s).loans = s.loans := rfl
@[simp] theorem xingNote_loanNext (play : W32) (src dst : Nat) (timeout : Bool) (s : State) : (xingNote play src dst timeout s).loanNext = s.loanNext := rfl
@[simp] theorem xingNote_hints (play : W32) (src dst : Nat) (timeout : Bool) (s : State) : (xingNote play src dst timeout s).hints = s.hints := rfl
@[simp] theorem xingNote_caches (play : W32) (src dst : Nat) (timeout : Bool) (s : State) : (xingNote play src dst timeout s).caches = s.caches := rfl
@[simp] theorem xingNote_near (play : W32) (src dst : Nat) (timeout : Bool) (s : State) : (xingNote play src dst timeout s).near = s.near := rfl
@[simp] theorem xingNote_cap (play : W32) (src dst : Nat) (timeout : Bool) (s : State) : (xingNote play src dst timeout s).cap = s.cap := rfl
@[simp] theorem xingNote_watch (play : W32) (src dst : Nat) (timeout : Bool) (s : State) : (xingNote play src dst timeout s).watch = s.watch := rfl
@[simp] theorem xingNote_ports (play : W32) (src dst : Nat) (timeout : Bool) (s : State) : (xingNote play src dst timeout s).ports = s.ports := rfl
@[simp] theorem xingNote_lqWindow (play : W32) (src dst : Nat) (timeout : Bool) (s : State) : (xingNote play src dst timeout s).lqWindow = s.lqWindow := rfl
@[simp] theorem xingNote_sets (play : W32) (src dst : Nat) (timeout : Bool) (s : State) : (xingNote play src dst timeout s).sets = s.sets := rfl
@[simp] theorem xingNote_colls (play : W32) (src dst : Nat) (timeout : Bool) (s : State) : (xingNote play src dst timeout s).colls = s.colls := rfl
@[simp] theorem xingNote_barriers (play : W32) (src dst : Nat) (timeout : Bool) (s : State) : (xingNote play src dst timeout s).barriers = s.barriers := rfl
@[simp] theorem xingNote_exchanges (play : W32) (src dst : Nat) (timeout : Bool) (s : State) : (xingNote play src dst timeout s).exchanges = s.exchanges := rfl
@[simp] theorem xingNote_mesh (play : W32) (src dst : Nat) (timeout : Bool) (s : State) : (xingNote play src dst timeout s).mesh = s.mesh := rfl
@[simp] theorem xingNote_power (play : W32) (src dst : Nat) (timeout : Bool) (s : State) : (xingNote play src dst timeout s).power = s.power := rfl
@[simp] theorem xingNote_rel (play : W32) (src dst : Nat) (timeout : Bool) (s : State) : (xingNote play src dst timeout s).rel = s.rel := rfl
@[simp] theorem xingNote_bu (play : W32) (src dst : Nat) (timeout : Bool) (s : State) : (xingNote play src dst timeout s).bu = s.bu := rfl
@[simp] theorem xingNote_host (play : W32) (src dst : Nat) (timeout : Bool) (s : State) : (xingNote play src dst timeout s).host = s.host := rfl
@[simp] theorem xingNote_dbgUnit (play : W32) (src dst : Nat) (timeout : Bool) (s : State) : (xingNote play src dst timeout s).dbgUnit = s.dbgUnit := rfl
@[simp] theorem xingNote_pins (play : W32) (src dst : Nat) (timeout : Bool) (s : State) : (xingNote play src dst timeout s).pins = s.pins := rfl
@[simp] theorem xingNote_snap (play : W32) (src dst : Nat) (timeout : Bool) (s : State) : (xingNote play src dst timeout s).snap = s.snap := rfl
@[simp] theorem xingNote_freeCtr (play : W32) (src dst : Nat) (timeout : Bool) (s : State) : (xingNote play src dst timeout s).freeCtr = s.freeCtr := rfl

/-! ### The event log -/

@[simp] theorem logEvent_pending (code origin : Nat) (unit play step : W32) (d : List Byte) (s : State) : (logEvent code origin unit play step d s).pending = s.pending := by
  unfold logEvent
  split <;> rfl
@[simp] theorem logEvent_cad (code origin : Nat) (unit play step : W32) (d : List Byte) (s : State) : (logEvent code origin unit play step d s).cad = s.cad := by
  unfold logEvent
  split <;> rfl
@[simp] theorem logEvent_sched (code origin : Nat) (unit play step : W32) (d : List Byte) (s : State) : (logEvent code origin unit play step d s).sched = s.sched := by
  unfold logEvent
  split <;> rfl
@[simp] theorem logEvent_arrivals (code origin : Nat) (unit play step : W32) (d : List Byte) (s : State) : (logEvent code origin unit play step d s).arrivals = s.arrivals := by
  unfold logEvent
  split <;> rfl
@[simp] theorem logEvent_xing (code origin : Nat) (unit play step : W32) (d : List Byte) (s : State) : (logEvent code origin unit play step d s).xing = s.xing := by
  unfold logEvent
  split <;> rfl
@[simp] theorem logEvent_fields (code origin : Nat) (unit play step : W32) (d : List Byte) (s : State) : (logEvent code origin unit play step d s).fields = s.fields := by
  unfold logEvent
  split <;> rfl
@[simp] theorem logEvent_parts (code origin : Nat) (unit play step : W32) (d : List Byte) (s : State) : (logEvent code origin unit play step d s).parts = s.parts := by
  unfold logEvent
  split <;> rfl
@[simp] theorem logEvent_removed (code origin : Nat) (unit play step : W32) (d : List Byte) (s : State) : (logEvent code origin unit play step d s).removed = s.removed := by
  unfold logEvent
  split <;> rfl
@[simp] theorem logEvent_plays (code origin : Nat) (unit play step : W32) (d : List Byte) (s : State) : (logEvent code origin unit play step d s).plays = s.plays := by
  unfold logEvent
  split <;> rfl
@[simp] theorem logEvent_parting (code origin : Nat) (unit play step : W32) (d : List Byte) (s : State) : (logEvent code origin unit play step d s).parting = s.parting := by
  unfold logEvent
  split <;> rfl
@[simp] theorem logEvent_partNext (code origin : Nat) (unit play step : W32) (d : List Byte) (s : State) : (logEvent code origin unit play step d s).partNext = s.partNext := by
  unfold logEvent
  split <;> rfl
@[simp] theorem logEvent_rampQueue (code origin : Nat) (unit play step : W32) (d : List Byte) (s : State) : (logEvent code origin unit play step d s).rampQueue = s.rampQueue := by
  unfold logEvent
  split <;> rfl
@[simp] theorem logEvent_rampLast (code origin : Nat) (unit play step : W32) (d : List Byte) (s : State) : (logEvent code origin unit play step d s).rampLast = s.rampLast := by
  unfold logEvent
  split <;> rfl
@[simp] theorem logEvent_knots (code origin : Nat) (unit play step : W32) (d : List Byte) (s : State) : (logEvent code origin unit play step d s).knots = s.knots := by
  unfold logEvent
  split <;> rfl
@[simp] theorem logEvent_mem (code origin : Nat) (unit play step : W32) (d : List Byte) (s : State) : (logEvent code origin unit play step d s).mem = s.mem := by
  unfold logEvent
  split <;> rfl
@[simp] theorem logEvent_regions (code origin : Nat) (unit play step : W32) (d : List Byte) (s : State) : (logEvent code origin unit play step d s).regions = s.regions := by
  unfold logEvent
  split <;> rfl
@[simp] theorem logEvent_loans (code origin : Nat) (unit play step : W32) (d : List Byte) (s : State) : (logEvent code origin unit play step d s).loans = s.loans := by
  unfold logEvent
  split <;> rfl
@[simp] theorem logEvent_loanNext (code origin : Nat) (unit play step : W32) (d : List Byte) (s : State) : (logEvent code origin unit play step d s).loanNext = s.loanNext := by
  unfold logEvent
  split <;> rfl
@[simp] theorem logEvent_hints (code origin : Nat) (unit play step : W32) (d : List Byte) (s : State) : (logEvent code origin unit play step d s).hints = s.hints := by
  unfold logEvent
  split <;> rfl
@[simp] theorem logEvent_caches (code origin : Nat) (unit play step : W32) (d : List Byte) (s : State) : (logEvent code origin unit play step d s).caches = s.caches := by
  unfold logEvent
  split <;> rfl
@[simp] theorem logEvent_near (code origin : Nat) (unit play step : W32) (d : List Byte) (s : State) : (logEvent code origin unit play step d s).near = s.near := by
  unfold logEvent
  split <;> rfl
@[simp] theorem logEvent_cap (code origin : Nat) (unit play step : W32) (d : List Byte) (s : State) : (logEvent code origin unit play step d s).cap = s.cap := by
  unfold logEvent
  split <;> rfl
@[simp] theorem logEvent_watch (code origin : Nat) (unit play step : W32) (d : List Byte) (s : State) : (logEvent code origin unit play step d s).watch = s.watch := by
  unfold logEvent
  split <;> rfl
@[simp] theorem logEvent_ports (code origin : Nat) (unit play step : W32) (d : List Byte) (s : State) : (logEvent code origin unit play step d s).ports = s.ports := by
  unfold logEvent
  split <;> rfl
@[simp] theorem logEvent_lqWindow (code origin : Nat) (unit play step : W32) (d : List Byte) (s : State) : (logEvent code origin unit play step d s).lqWindow = s.lqWindow := by
  unfold logEvent
  split <;> rfl
@[simp] theorem logEvent_sets (code origin : Nat) (unit play step : W32) (d : List Byte) (s : State) : (logEvent code origin unit play step d s).sets = s.sets := by
  unfold logEvent
  split <;> rfl
@[simp] theorem logEvent_colls (code origin : Nat) (unit play step : W32) (d : List Byte) (s : State) : (logEvent code origin unit play step d s).colls = s.colls := by
  unfold logEvent
  split <;> rfl
@[simp] theorem logEvent_barriers (code origin : Nat) (unit play step : W32) (d : List Byte) (s : State) : (logEvent code origin unit play step d s).barriers = s.barriers := by
  unfold logEvent
  split <;> rfl
@[simp] theorem logEvent_exchanges (code origin : Nat) (unit play step : W32) (d : List Byte) (s : State) : (logEvent code origin unit play step d s).exchanges = s.exchanges := by
  unfold logEvent
  split <;> rfl
@[simp] theorem logEvent_mesh (code origin : Nat) (unit play step : W32) (d : List Byte) (s : State) : (logEvent code origin unit play step d s).mesh = s.mesh := by
  unfold logEvent
  split <;> rfl
@[simp] theorem logEvent_power (code origin : Nat) (unit play step : W32) (d : List Byte) (s : State) : (logEvent code origin unit play step d s).power = s.power := by
  unfold logEvent
  split <;> rfl
@[simp] theorem logEvent_rel (code origin : Nat) (unit play step : W32) (d : List Byte) (s : State) : (logEvent code origin unit play step d s).rel = s.rel := by
  unfold logEvent
  split <;> rfl
@[simp] theorem logEvent_bu (code origin : Nat) (unit play step : W32) (d : List Byte) (s : State) : (logEvent code origin unit play step d s).bu = s.bu := by
  unfold logEvent
  split <;> rfl
@[simp] theorem logEvent_dbgUnit (code origin : Nat) (unit play step : W32) (d : List Byte) (s : State) : (logEvent code origin unit play step d s).dbgUnit = s.dbgUnit := by
  unfold logEvent
  split <;> rfl
@[simp] theorem logEvent_pins (code origin : Nat) (unit play step : W32) (d : List Byte) (s : State) : (logEvent code origin unit play step d s).pins = s.pins := by
  unfold logEvent
  split <;> rfl
@[simp] theorem logEvent_store (code origin : Nat) (unit play step : W32) (d : List Byte) (s : State) : (logEvent code origin unit play step d s).store = s.store := by
  unfold logEvent
  split <;> rfl
@[simp] theorem logEvent_snap (code origin : Nat) (unit play step : W32) (d : List Byte) (s : State) : (logEvent code origin unit play step d s).snap = s.snap := by
  unfold logEvent
  split <;> rfl
@[simp] theorem logEvent_freeCtr (code origin : Nat) (unit play step : W32) (d : List Byte) (s : State) : (logEvent code origin unit play step d s).freeCtr = s.freeCtr := by
  unfold logEvent
  split <;> rfl
theorem logEvent_same (code origin : Nat) (unit play step : W32) (d : List Byte) (s : State) : HostSame s (logEvent code origin unit play step d s) := by
  unfold logEvent
  split <;> rfl

/-! ### sendMsi -/

@[simp] theorem sendMsi_pending (port : Nat) (v : Byte) (s : State) : (sendMsi port v s).pending = s.pending := by
  unfold sendMsi
  dsimp only
  repeat' split
  all_goals first | rfl | simp
@[simp] theorem sendMsi_cad (port : Nat) (v : Byte) (s : State) : (sendMsi port v s).cad = s.cad := by
  unfold sendMsi
  dsimp only
  repeat' split
  all_goals first | rfl | simp
@[simp] theorem sendMsi_sched (port : Nat) (v : Byte) (s : State) : (sendMsi port v s).sched = s.sched := by
  unfold sendMsi
  dsimp only
  repeat' split
  all_goals first | rfl | simp
@[simp] theorem sendMsi_arrivals (port : Nat) (v : Byte) (s : State) : (sendMsi port v s).arrivals = s.arrivals := by
  unfold sendMsi
  dsimp only
  repeat' split
  all_goals first | rfl | simp
@[simp] theorem sendMsi_fields (port : Nat) (v : Byte) (s : State) : (sendMsi port v s).fields = s.fields := by
  unfold sendMsi
  dsimp only
  repeat' split
  all_goals first | rfl | simp
@[simp] theorem sendMsi_parts (port : Nat) (v : Byte) (s : State) : (sendMsi port v s).parts = s.parts := by
  unfold sendMsi
  dsimp only
  repeat' split
  all_goals first | rfl | simp
@[simp] theorem sendMsi_removed (port : Nat) (v : Byte) (s : State) : (sendMsi port v s).removed = s.removed := by
  unfold sendMsi
  dsimp only
  repeat' split
  all_goals first | rfl | simp
@[simp] theorem sendMsi_plays (port : Nat) (v : Byte) (s : State) : (sendMsi port v s).plays = s.plays := by
  unfold sendMsi
  dsimp only
  repeat' split
  all_goals first | rfl | simp
@[simp] theorem sendMsi_parting (port : Nat) (v : Byte) (s : State) : (sendMsi port v s).parting = s.parting := by
  unfold sendMsi
  dsimp only
  repeat' split
  all_goals first | rfl | simp
@[simp] theorem sendMsi_partNext (port : Nat) (v : Byte) (s : State) : (sendMsi port v s).partNext = s.partNext := by
  unfold sendMsi
  dsimp only
  repeat' split
  all_goals first | rfl | simp
@[simp] theorem sendMsi_rampQueue (port : Nat) (v : Byte) (s : State) : (sendMsi port v s).rampQueue = s.rampQueue := by
  unfold sendMsi
  dsimp only
  repeat' split
  all_goals first | rfl | simp
@[simp] theorem sendMsi_rampLast (port : Nat) (v : Byte) (s : State) : (sendMsi port v s).rampLast = s.rampLast := by
  unfold sendMsi
  dsimp only
  repeat' split
  all_goals first | rfl | simp
@[simp] theorem sendMsi_knots (port : Nat) (v : Byte) (s : State) : (sendMsi port v s).knots = s.knots := by
  unfold sendMsi
  dsimp only
  repeat' split
  all_goals first | rfl | simp
@[simp] theorem sendMsi_mem (port : Nat) (v : Byte) (s : State) : (sendMsi port v s).mem = s.mem := by
  unfold sendMsi
  dsimp only
  repeat' split
  all_goals first | rfl | simp
@[simp] theorem sendMsi_regions (port : Nat) (v : Byte) (s : State) : (sendMsi port v s).regions = s.regions := by
  unfold sendMsi
  dsimp only
  repeat' split
  all_goals first | rfl | simp
@[simp] theorem sendMsi_loans (port : Nat) (v : Byte) (s : State) : (sendMsi port v s).loans = s.loans := by
  unfold sendMsi
  dsimp only
  repeat' split
  all_goals first | rfl | simp
@[simp] theorem sendMsi_loanNext (port : Nat) (v : Byte) (s : State) : (sendMsi port v s).loanNext = s.loanNext := by
  unfold sendMsi
  dsimp only
  repeat' split
  all_goals first | rfl | simp
@[simp] theorem sendMsi_hints (port : Nat) (v : Byte) (s : State) : (sendMsi port v s).hints = s.hints := by
  unfold sendMsi
  dsimp only
  repeat' split
  all_goals first | rfl | simp
@[simp] theorem sendMsi_caches (port : Nat) (v : Byte) (s : State) : (sendMsi port v s).caches = s.caches := by
  unfold sendMsi
  dsimp only
  repeat' split
  all_goals first | rfl | simp
@[simp] theorem sendMsi_near (port : Nat) (v : Byte) (s : State) : (sendMsi port v s).near = s.near := by
  unfold sendMsi
  dsimp only
  repeat' split
  all_goals first | rfl | simp
@[simp] theorem sendMsi_cap (port : Nat) (v : Byte) (s : State) : (sendMsi port v s).cap = s.cap := by
  unfold sendMsi
  dsimp only
  repeat' split
  all_goals first | rfl | simp
@[simp] theorem sendMsi_watch (port : Nat) (v : Byte) (s : State) : (sendMsi port v s).watch = s.watch := by
  unfold sendMsi
  dsimp only
  repeat' split
  all_goals first | rfl | simp
@[simp] theorem sendMsi_ports (port : Nat) (v : Byte) (s : State) : (sendMsi port v s).ports = s.ports := by
  unfold sendMsi
  dsimp only
  repeat' split
  all_goals first | rfl | simp
@[simp] theorem sendMsi_lqWindow (port : Nat) (v : Byte) (s : State) : (sendMsi port v s).lqWindow = s.lqWindow := by
  unfold sendMsi
  dsimp only
  repeat' split
  all_goals first | rfl | simp
@[simp] theorem sendMsi_sets (port : Nat) (v : Byte) (s : State) : (sendMsi port v s).sets = s.sets := by
  unfold sendMsi
  dsimp only
  repeat' split
  all_goals first | rfl | simp
@[simp] theorem sendMsi_colls (port : Nat) (v : Byte) (s : State) : (sendMsi port v s).colls = s.colls := by
  unfold sendMsi
  dsimp only
  repeat' split
  all_goals first | rfl | simp
@[simp] theorem sendMsi_barriers (port : Nat) (v : Byte) (s : State) : (sendMsi port v s).barriers = s.barriers := by
  unfold sendMsi
  dsimp only
  repeat' split
  all_goals first | rfl | simp
@[simp] theorem sendMsi_exchanges (port : Nat) (v : Byte) (s : State) : (sendMsi port v s).exchanges = s.exchanges := by
  unfold sendMsi
  dsimp only
  repeat' split
  all_goals first | rfl | simp
@[simp] theorem sendMsi_mesh (port : Nat) (v : Byte) (s : State) : (sendMsi port v s).mesh = s.mesh := by
  unfold sendMsi
  dsimp only
  repeat' split
  all_goals first | rfl | simp
@[simp] theorem sendMsi_power (port : Nat) (v : Byte) (s : State) : (sendMsi port v s).power = s.power := by
  unfold sendMsi
  dsimp only
  repeat' split
  all_goals first | rfl | simp
@[simp] theorem sendMsi_rel (port : Nat) (v : Byte) (s : State) : (sendMsi port v s).rel = s.rel := by
  unfold sendMsi
  dsimp only
  repeat' split
  all_goals first | rfl | simp
@[simp] theorem sendMsi_bu (port : Nat) (v : Byte) (s : State) : (sendMsi port v s).bu = s.bu := by
  unfold sendMsi
  dsimp only
  repeat' split
  all_goals first | rfl | simp
@[simp] theorem sendMsi_dbgUnit (port : Nat) (v : Byte) (s : State) : (sendMsi port v s).dbgUnit = s.dbgUnit := by
  unfold sendMsi
  dsimp only
  repeat' split
  all_goals first | rfl | simp
@[simp] theorem sendMsi_pins (port : Nat) (v : Byte) (s : State) : (sendMsi port v s).pins = s.pins := by
  unfold sendMsi
  dsimp only
  repeat' split
  all_goals first | rfl | simp
@[simp] theorem sendMsi_snap (port : Nat) (v : Byte) (s : State) : (sendMsi port v s).snap = s.snap := by
  unfold sendMsi
  dsimp only
  repeat' split
  all_goals first | rfl | simp
@[simp] theorem sendMsi_freeCtr (port : Nat) (v : Byte) (s : State) : (sendMsi port v s).freeCtr = s.freeCtr := by
  unfold sendMsi
  dsimp only
  repeat' split
  all_goals first | rfl | simp
theorem sendMsi_same (port : Nat) (v : Byte) (s : State) : HostSame s (sendMsi port v s) := by
  unfold sendMsi
  dsimp only
  repeat' split
  all_goals first | rfl | exact logEvent_same .. | skip
/-- A pulse that is not held leaves the crossings and the store alone. -/
theorem sendMsi_calm (port : Nat) (v : Byte) (s : State) (h : Calm s) : (sendMsi port v s).xing = s.xing ∧ (sendMsi port v s).store = s.store := by
  unfold sendMsi
  dsimp only
  split
  · exact ⟨rfl, rfl⟩
  · split
    · exact ⟨rfl, rfl⟩
    · rw [if_pos (by rw [show s.xing.lag.contains (toggleOf 12 14) = false from h]; rfl)]
      exact ⟨rfl, rfl⟩

/-! ### postFull -/

@[simp] theorem postFull_pending (code origin : Nat) (unit play step : W32) (d : List Byte) (s : State) : (postFull code origin unit play step d s).pending = s.pending := by
  unfold postFull
  dsimp only
  split
  · rw [sendMsi_pending]
    exact logEvent_pending ..
  · exact logEvent_pending ..
@[simp] theorem postFull_cad (code origin : Nat) (unit play step : W32) (d : List Byte) (s : State) : (postFull code origin unit play step d s).cad = s.cad := by
  unfold postFull
  dsimp only
  split
  · rw [sendMsi_cad]
    exact logEvent_cad ..
  · exact logEvent_cad ..
@[simp] theorem postFull_sched (code origin : Nat) (unit play step : W32) (d : List Byte) (s : State) : (postFull code origin unit play step d s).sched = s.sched := by
  unfold postFull
  dsimp only
  split
  · rw [sendMsi_sched]
    exact logEvent_sched ..
  · exact logEvent_sched ..
@[simp] theorem postFull_arrivals (code origin : Nat) (unit play step : W32) (d : List Byte) (s : State) : (postFull code origin unit play step d s).arrivals = s.arrivals := by
  unfold postFull
  dsimp only
  split
  · rw [sendMsi_arrivals]
    exact logEvent_arrivals ..
  · exact logEvent_arrivals ..
@[simp] theorem postFull_fields (code origin : Nat) (unit play step : W32) (d : List Byte) (s : State) : (postFull code origin unit play step d s).fields = s.fields := by
  unfold postFull
  dsimp only
  split
  · rw [sendMsi_fields]
    exact logEvent_fields ..
  · exact logEvent_fields ..
@[simp] theorem postFull_parts (code origin : Nat) (unit play step : W32) (d : List Byte) (s : State) : (postFull code origin unit play step d s).parts = s.parts := by
  unfold postFull
  dsimp only
  split
  · rw [sendMsi_parts]
    exact logEvent_parts ..
  · exact logEvent_parts ..
@[simp] theorem postFull_removed (code origin : Nat) (unit play step : W32) (d : List Byte) (s : State) : (postFull code origin unit play step d s).removed = s.removed := by
  unfold postFull
  dsimp only
  split
  · rw [sendMsi_removed]
    exact logEvent_removed ..
  · exact logEvent_removed ..
@[simp] theorem postFull_plays (code origin : Nat) (unit play step : W32) (d : List Byte) (s : State) : (postFull code origin unit play step d s).plays = s.plays := by
  unfold postFull
  dsimp only
  split
  · rw [sendMsi_plays]
    exact logEvent_plays ..
  · exact logEvent_plays ..
@[simp] theorem postFull_parting (code origin : Nat) (unit play step : W32) (d : List Byte) (s : State) : (postFull code origin unit play step d s).parting = s.parting := by
  unfold postFull
  dsimp only
  split
  · rw [sendMsi_parting]
    exact logEvent_parting ..
  · exact logEvent_parting ..
@[simp] theorem postFull_partNext (code origin : Nat) (unit play step : W32) (d : List Byte) (s : State) : (postFull code origin unit play step d s).partNext = s.partNext := by
  unfold postFull
  dsimp only
  split
  · rw [sendMsi_partNext]
    exact logEvent_partNext ..
  · exact logEvent_partNext ..
@[simp] theorem postFull_rampQueue (code origin : Nat) (unit play step : W32) (d : List Byte) (s : State) : (postFull code origin unit play step d s).rampQueue = s.rampQueue := by
  unfold postFull
  dsimp only
  split
  · rw [sendMsi_rampQueue]
    exact logEvent_rampQueue ..
  · exact logEvent_rampQueue ..
@[simp] theorem postFull_rampLast (code origin : Nat) (unit play step : W32) (d : List Byte) (s : State) : (postFull code origin unit play step d s).rampLast = s.rampLast := by
  unfold postFull
  dsimp only
  split
  · rw [sendMsi_rampLast]
    exact logEvent_rampLast ..
  · exact logEvent_rampLast ..
@[simp] theorem postFull_knots (code origin : Nat) (unit play step : W32) (d : List Byte) (s : State) : (postFull code origin unit play step d s).knots = s.knots := by
  unfold postFull
  dsimp only
  split
  · rw [sendMsi_knots]
    exact logEvent_knots ..
  · exact logEvent_knots ..
@[simp] theorem postFull_mem (code origin : Nat) (unit play step : W32) (d : List Byte) (s : State) : (postFull code origin unit play step d s).mem = s.mem := by
  unfold postFull
  dsimp only
  split
  · rw [sendMsi_mem]
    exact logEvent_mem ..
  · exact logEvent_mem ..
@[simp] theorem postFull_regions (code origin : Nat) (unit play step : W32) (d : List Byte) (s : State) : (postFull code origin unit play step d s).regions = s.regions := by
  unfold postFull
  dsimp only
  split
  · rw [sendMsi_regions]
    exact logEvent_regions ..
  · exact logEvent_regions ..
@[simp] theorem postFull_loans (code origin : Nat) (unit play step : W32) (d : List Byte) (s : State) : (postFull code origin unit play step d s).loans = s.loans := by
  unfold postFull
  dsimp only
  split
  · rw [sendMsi_loans]
    exact logEvent_loans ..
  · exact logEvent_loans ..
@[simp] theorem postFull_loanNext (code origin : Nat) (unit play step : W32) (d : List Byte) (s : State) : (postFull code origin unit play step d s).loanNext = s.loanNext := by
  unfold postFull
  dsimp only
  split
  · rw [sendMsi_loanNext]
    exact logEvent_loanNext ..
  · exact logEvent_loanNext ..
@[simp] theorem postFull_hints (code origin : Nat) (unit play step : W32) (d : List Byte) (s : State) : (postFull code origin unit play step d s).hints = s.hints := by
  unfold postFull
  dsimp only
  split
  · rw [sendMsi_hints]
    exact logEvent_hints ..
  · exact logEvent_hints ..
@[simp] theorem postFull_caches (code origin : Nat) (unit play step : W32) (d : List Byte) (s : State) : (postFull code origin unit play step d s).caches = s.caches := by
  unfold postFull
  dsimp only
  split
  · rw [sendMsi_caches]
    exact logEvent_caches ..
  · exact logEvent_caches ..
@[simp] theorem postFull_near (code origin : Nat) (unit play step : W32) (d : List Byte) (s : State) : (postFull code origin unit play step d s).near = s.near := by
  unfold postFull
  dsimp only
  split
  · rw [sendMsi_near]
    exact logEvent_near ..
  · exact logEvent_near ..
@[simp] theorem postFull_cap (code origin : Nat) (unit play step : W32) (d : List Byte) (s : State) : (postFull code origin unit play step d s).cap = s.cap := by
  unfold postFull
  dsimp only
  split
  · rw [sendMsi_cap]
    exact logEvent_cap ..
  · exact logEvent_cap ..
@[simp] theorem postFull_watch (code origin : Nat) (unit play step : W32) (d : List Byte) (s : State) : (postFull code origin unit play step d s).watch = s.watch := by
  unfold postFull
  dsimp only
  split
  · rw [sendMsi_watch]
    exact logEvent_watch ..
  · exact logEvent_watch ..
@[simp] theorem postFull_ports (code origin : Nat) (unit play step : W32) (d : List Byte) (s : State) : (postFull code origin unit play step d s).ports = s.ports := by
  unfold postFull
  dsimp only
  split
  · rw [sendMsi_ports]
    exact logEvent_ports ..
  · exact logEvent_ports ..
@[simp] theorem postFull_lqWindow (code origin : Nat) (unit play step : W32) (d : List Byte) (s : State) : (postFull code origin unit play step d s).lqWindow = s.lqWindow := by
  unfold postFull
  dsimp only
  split
  · rw [sendMsi_lqWindow]
    exact logEvent_lqWindow ..
  · exact logEvent_lqWindow ..
@[simp] theorem postFull_sets (code origin : Nat) (unit play step : W32) (d : List Byte) (s : State) : (postFull code origin unit play step d s).sets = s.sets := by
  unfold postFull
  dsimp only
  split
  · rw [sendMsi_sets]
    exact logEvent_sets ..
  · exact logEvent_sets ..
@[simp] theorem postFull_colls (code origin : Nat) (unit play step : W32) (d : List Byte) (s : State) : (postFull code origin unit play step d s).colls = s.colls := by
  unfold postFull
  dsimp only
  split
  · rw [sendMsi_colls]
    exact logEvent_colls ..
  · exact logEvent_colls ..
@[simp] theorem postFull_barriers (code origin : Nat) (unit play step : W32) (d : List Byte) (s : State) : (postFull code origin unit play step d s).barriers = s.barriers := by
  unfold postFull
  dsimp only
  split
  · rw [sendMsi_barriers]
    exact logEvent_barriers ..
  · exact logEvent_barriers ..
@[simp] theorem postFull_exchanges (code origin : Nat) (unit play step : W32) (d : List Byte) (s : State) : (postFull code origin unit play step d s).exchanges = s.exchanges := by
  unfold postFull
  dsimp only
  split
  · rw [sendMsi_exchanges]
    exact logEvent_exchanges ..
  · exact logEvent_exchanges ..
@[simp] theorem postFull_mesh (code origin : Nat) (unit play step : W32) (d : List Byte) (s : State) : (postFull code origin unit play step d s).mesh = s.mesh := by
  unfold postFull
  dsimp only
  split
  · rw [sendMsi_mesh]
    exact logEvent_mesh ..
  · exact logEvent_mesh ..
@[simp] theorem postFull_power (code origin : Nat) (unit play step : W32) (d : List Byte) (s : State) : (postFull code origin unit play step d s).power = s.power := by
  unfold postFull
  dsimp only
  split
  · rw [sendMsi_power]
    exact logEvent_power ..
  · exact logEvent_power ..
@[simp] theorem postFull_rel (code origin : Nat) (unit play step : W32) (d : List Byte) (s : State) : (postFull code origin unit play step d s).rel = s.rel := by
  unfold postFull
  dsimp only
  split
  · rw [sendMsi_rel]
    exact logEvent_rel ..
  · exact logEvent_rel ..
@[simp] theorem postFull_bu (code origin : Nat) (unit play step : W32) (d : List Byte) (s : State) : (postFull code origin unit play step d s).bu = s.bu := by
  unfold postFull
  dsimp only
  split
  · rw [sendMsi_bu]
    exact logEvent_bu ..
  · exact logEvent_bu ..
@[simp] theorem postFull_dbgUnit (code origin : Nat) (unit play step : W32) (d : List Byte) (s : State) : (postFull code origin unit play step d s).dbgUnit = s.dbgUnit := by
  unfold postFull
  dsimp only
  split
  · rw [sendMsi_dbgUnit]
    exact logEvent_dbgUnit ..
  · exact logEvent_dbgUnit ..
@[simp] theorem postFull_pins (code origin : Nat) (unit play step : W32) (d : List Byte) (s : State) : (postFull code origin unit play step d s).pins = s.pins := by
  unfold postFull
  dsimp only
  split
  · rw [sendMsi_pins]
    exact logEvent_pins ..
  · exact logEvent_pins ..
@[simp] theorem postFull_snap (code origin : Nat) (unit play step : W32) (d : List Byte) (s : State) : (postFull code origin unit play step d s).snap = s.snap := by
  unfold postFull
  dsimp only
  split
  · rw [sendMsi_snap]
    exact logEvent_snap ..
  · exact logEvent_snap ..
@[simp] theorem postFull_freeCtr (code origin : Nat) (unit play step : W32) (d : List Byte) (s : State) : (postFull code origin unit play step d s).freeCtr = s.freeCtr := by
  unfold postFull
  dsimp only
  split
  · rw [sendMsi_freeCtr]
    exact logEvent_freeCtr ..
  · exact logEvent_freeCtr ..
theorem postFull_same (code origin : Nat) (unit play step : W32) (d : List Byte) (s : State) : HostSame s (postFull code origin unit play step d s) := by
  have k := logEvent_same code origin unit play step d s
  unfold postFull
  dsimp only
  split
  · refine Eq.trans (sendMsi_same ..) ?_
    exact k
  · exact k
/-- With no interrupt's pulse held, an event leaves the crossings and the store alone. -/
theorem postFull_calm (code origin : Nat) (unit play step : W32) (d : List Byte) (s : State) (h : Calm s) : (postFull code origin unit play step d s).xing = s.xing ∧ (postFull code origin unit play step d s).store = s.store := by
  have kx : (logEvent code origin unit play step d s).xing = s.xing := logEvent_xing ..
  have ks : (logEvent code origin unit play step d s).store = s.store := logEvent_store ..
  unfold postFull
  dsimp only
  split
  · have k := sendMsi_calm (b2n (logEvent code origin unit play step d s).host.evtPort) (logEvent code origin unit play step d s).host.evtVector
      { logEvent code origin unit play step d s with host := { (logEvent code origin unit play step d s).host with evtSent := true } } (by unfold Calm; rw [kx]; exact h)
    exact ⟨k.1.trans kx, k.2.trans ks⟩
  · exact ⟨kx, ks⟩

/-! ### post -/

@[simp] theorem post_pending (code : Nat) (d : List Byte) (s : State) : (post code d s).pending = s.pending := postFull_pending ..
@[simp] theorem post_cad (code : Nat) (d : List Byte) (s : State) : (post code d s).cad = s.cad := postFull_cad ..
@[simp] theorem post_sched (code : Nat) (d : List Byte) (s : State) : (post code d s).sched = s.sched := postFull_sched ..
@[simp] theorem post_arrivals (code : Nat) (d : List Byte) (s : State) : (post code d s).arrivals = s.arrivals := postFull_arrivals ..
@[simp] theorem post_fields (code : Nat) (d : List Byte) (s : State) : (post code d s).fields = s.fields := postFull_fields ..
@[simp] theorem post_parts (code : Nat) (d : List Byte) (s : State) : (post code d s).parts = s.parts := postFull_parts ..
@[simp] theorem post_removed (code : Nat) (d : List Byte) (s : State) : (post code d s).removed = s.removed := postFull_removed ..
@[simp] theorem post_plays (code : Nat) (d : List Byte) (s : State) : (post code d s).plays = s.plays := postFull_plays ..
@[simp] theorem post_parting (code : Nat) (d : List Byte) (s : State) : (post code d s).parting = s.parting := postFull_parting ..
@[simp] theorem post_partNext (code : Nat) (d : List Byte) (s : State) : (post code d s).partNext = s.partNext := postFull_partNext ..
@[simp] theorem post_rampQueue (code : Nat) (d : List Byte) (s : State) : (post code d s).rampQueue = s.rampQueue := postFull_rampQueue ..
@[simp] theorem post_rampLast (code : Nat) (d : List Byte) (s : State) : (post code d s).rampLast = s.rampLast := postFull_rampLast ..
@[simp] theorem post_knots (code : Nat) (d : List Byte) (s : State) : (post code d s).knots = s.knots := postFull_knots ..
@[simp] theorem post_mem (code : Nat) (d : List Byte) (s : State) : (post code d s).mem = s.mem := postFull_mem ..
@[simp] theorem post_regions (code : Nat) (d : List Byte) (s : State) : (post code d s).regions = s.regions := postFull_regions ..
@[simp] theorem post_loans (code : Nat) (d : List Byte) (s : State) : (post code d s).loans = s.loans := postFull_loans ..
@[simp] theorem post_loanNext (code : Nat) (d : List Byte) (s : State) : (post code d s).loanNext = s.loanNext := postFull_loanNext ..
@[simp] theorem post_hints (code : Nat) (d : List Byte) (s : State) : (post code d s).hints = s.hints := postFull_hints ..
@[simp] theorem post_caches (code : Nat) (d : List Byte) (s : State) : (post code d s).caches = s.caches := postFull_caches ..
@[simp] theorem post_near (code : Nat) (d : List Byte) (s : State) : (post code d s).near = s.near := postFull_near ..
@[simp] theorem post_cap (code : Nat) (d : List Byte) (s : State) : (post code d s).cap = s.cap := postFull_cap ..
@[simp] theorem post_watch (code : Nat) (d : List Byte) (s : State) : (post code d s).watch = s.watch := postFull_watch ..
@[simp] theorem post_ports (code : Nat) (d : List Byte) (s : State) : (post code d s).ports = s.ports := postFull_ports ..
@[simp] theorem post_lqWindow (code : Nat) (d : List Byte) (s : State) : (post code d s).lqWindow = s.lqWindow := postFull_lqWindow ..
@[simp] theorem post_sets (code : Nat) (d : List Byte) (s : State) : (post code d s).sets = s.sets := postFull_sets ..
@[simp] theorem post_colls (code : Nat) (d : List Byte) (s : State) : (post code d s).colls = s.colls := postFull_colls ..
@[simp] theorem post_barriers (code : Nat) (d : List Byte) (s : State) : (post code d s).barriers = s.barriers := postFull_barriers ..
@[simp] theorem post_exchanges (code : Nat) (d : List Byte) (s : State) : (post code d s).exchanges = s.exchanges := postFull_exchanges ..
@[simp] theorem post_mesh (code : Nat) (d : List Byte) (s : State) : (post code d s).mesh = s.mesh := postFull_mesh ..
@[simp] theorem post_power (code : Nat) (d : List Byte) (s : State) : (post code d s).power = s.power := postFull_power ..
@[simp] theorem post_rel (code : Nat) (d : List Byte) (s : State) : (post code d s).rel = s.rel := postFull_rel ..
@[simp] theorem post_bu (code : Nat) (d : List Byte) (s : State) : (post code d s).bu = s.bu := postFull_bu ..
@[simp] theorem post_dbgUnit (code : Nat) (d : List Byte) (s : State) : (post code d s).dbgUnit = s.dbgUnit := postFull_dbgUnit ..
@[simp] theorem post_pins (code : Nat) (d : List Byte) (s : State) : (post code d s).pins = s.pins := postFull_pins ..
@[simp] theorem post_snap (code : Nat) (d : List Byte) (s : State) : (post code d s).snap = s.snap := postFull_snap ..
@[simp] theorem post_freeCtr (code : Nat) (d : List Byte) (s : State) : (post code d s).freeCtr = s.freeCtr := postFull_freeCtr ..
theorem post_same (code : Nat) (d : List Byte) (s : State) : HostSame s (post code d s) := postFull_same ..
theorem post_calm (code : Nat) (d : List Byte) (s : State) (h : Calm s) : (post code d s).xing = s.xing ∧ (post code d s).store = s.store := postFull_calm _ _ _ _ _ _ s h

/-! ### postStep -/

@[simp] theorem postStep_pending (code : Nat) (step : W32) (d : List Byte) (s : State) : (postStep code step d s).pending = s.pending := postFull_pending ..
@[simp] theorem postStep_cad (code : Nat) (step : W32) (d : List Byte) (s : State) : (postStep code step d s).cad = s.cad := postFull_cad ..
@[simp] theorem postStep_sched (code : Nat) (step : W32) (d : List Byte) (s : State) : (postStep code step d s).sched = s.sched := postFull_sched ..
@[simp] theorem postStep_arrivals (code : Nat) (step : W32) (d : List Byte) (s : State) : (postStep code step d s).arrivals = s.arrivals := postFull_arrivals ..
@[simp] theorem postStep_fields (code : Nat) (step : W32) (d : List Byte) (s : State) : (postStep code step d s).fields = s.fields := postFull_fields ..
@[simp] theorem postStep_parts (code : Nat) (step : W32) (d : List Byte) (s : State) : (postStep code step d s).parts = s.parts := postFull_parts ..
@[simp] theorem postStep_removed (code : Nat) (step : W32) (d : List Byte) (s : State) : (postStep code step d s).removed = s.removed := postFull_removed ..
@[simp] theorem postStep_plays (code : Nat) (step : W32) (d : List Byte) (s : State) : (postStep code step d s).plays = s.plays := postFull_plays ..
@[simp] theorem postStep_parting (code : Nat) (step : W32) (d : List Byte) (s : State) : (postStep code step d s).parting = s.parting := postFull_parting ..
@[simp] theorem postStep_partNext (code : Nat) (step : W32) (d : List Byte) (s : State) : (postStep code step d s).partNext = s.partNext := postFull_partNext ..
@[simp] theorem postStep_rampQueue (code : Nat) (step : W32) (d : List Byte) (s : State) : (postStep code step d s).rampQueue = s.rampQueue := postFull_rampQueue ..
@[simp] theorem postStep_rampLast (code : Nat) (step : W32) (d : List Byte) (s : State) : (postStep code step d s).rampLast = s.rampLast := postFull_rampLast ..
@[simp] theorem postStep_knots (code : Nat) (step : W32) (d : List Byte) (s : State) : (postStep code step d s).knots = s.knots := postFull_knots ..
@[simp] theorem postStep_mem (code : Nat) (step : W32) (d : List Byte) (s : State) : (postStep code step d s).mem = s.mem := postFull_mem ..
@[simp] theorem postStep_regions (code : Nat) (step : W32) (d : List Byte) (s : State) : (postStep code step d s).regions = s.regions := postFull_regions ..
@[simp] theorem postStep_loans (code : Nat) (step : W32) (d : List Byte) (s : State) : (postStep code step d s).loans = s.loans := postFull_loans ..
@[simp] theorem postStep_loanNext (code : Nat) (step : W32) (d : List Byte) (s : State) : (postStep code step d s).loanNext = s.loanNext := postFull_loanNext ..
@[simp] theorem postStep_hints (code : Nat) (step : W32) (d : List Byte) (s : State) : (postStep code step d s).hints = s.hints := postFull_hints ..
@[simp] theorem postStep_caches (code : Nat) (step : W32) (d : List Byte) (s : State) : (postStep code step d s).caches = s.caches := postFull_caches ..
@[simp] theorem postStep_near (code : Nat) (step : W32) (d : List Byte) (s : State) : (postStep code step d s).near = s.near := postFull_near ..
@[simp] theorem postStep_cap (code : Nat) (step : W32) (d : List Byte) (s : State) : (postStep code step d s).cap = s.cap := postFull_cap ..
@[simp] theorem postStep_watch (code : Nat) (step : W32) (d : List Byte) (s : State) : (postStep code step d s).watch = s.watch := postFull_watch ..
@[simp] theorem postStep_ports (code : Nat) (step : W32) (d : List Byte) (s : State) : (postStep code step d s).ports = s.ports := postFull_ports ..
@[simp] theorem postStep_lqWindow (code : Nat) (step : W32) (d : List Byte) (s : State) : (postStep code step d s).lqWindow = s.lqWindow := postFull_lqWindow ..
@[simp] theorem postStep_sets (code : Nat) (step : W32) (d : List Byte) (s : State) : (postStep code step d s).sets = s.sets := postFull_sets ..
@[simp] theorem postStep_colls (code : Nat) (step : W32) (d : List Byte) (s : State) : (postStep code step d s).colls = s.colls := postFull_colls ..
@[simp] theorem postStep_barriers (code : Nat) (step : W32) (d : List Byte) (s : State) : (postStep code step d s).barriers = s.barriers := postFull_barriers ..
@[simp] theorem postStep_exchanges (code : Nat) (step : W32) (d : List Byte) (s : State) : (postStep code step d s).exchanges = s.exchanges := postFull_exchanges ..
@[simp] theorem postStep_mesh (code : Nat) (step : W32) (d : List Byte) (s : State) : (postStep code step d s).mesh = s.mesh := postFull_mesh ..
@[simp] theorem postStep_power (code : Nat) (step : W32) (d : List Byte) (s : State) : (postStep code step d s).power = s.power := postFull_power ..
@[simp] theorem postStep_rel (code : Nat) (step : W32) (d : List Byte) (s : State) : (postStep code step d s).rel = s.rel := postFull_rel ..
@[simp] theorem postStep_bu (code : Nat) (step : W32) (d : List Byte) (s : State) : (postStep code step d s).bu = s.bu := postFull_bu ..
@[simp] theorem postStep_dbgUnit (code : Nat) (step : W32) (d : List Byte) (s : State) : (postStep code step d s).dbgUnit = s.dbgUnit := postFull_dbgUnit ..
@[simp] theorem postStep_pins (code : Nat) (step : W32) (d : List Byte) (s : State) : (postStep code step d s).pins = s.pins := postFull_pins ..
@[simp] theorem postStep_snap (code : Nat) (step : W32) (d : List Byte) (s : State) : (postStep code step d s).snap = s.snap := postFull_snap ..
@[simp] theorem postStep_freeCtr (code : Nat) (step : W32) (d : List Byte) (s : State) : (postStep code step d s).freeCtr = s.freeCtr := postFull_freeCtr ..
theorem postStep_same (code : Nat) (step : W32) (d : List Byte) (s : State) : HostSame s (postStep code step d s) := postFull_same ..
theorem postStep_calm (code : Nat) (step : W32) (d : List Byte) (s : State) (h : Calm s) : (postStep code step d s).xing = s.xing ∧ (postStep code step d s).store = s.store := postFull_calm _ _ _ _ _ _ s h

/-! ### postPort -/

@[simp] theorem postPort_pending (code n : Nat) (d : List Byte) (s : State) : (postPort code n d s).pending = s.pending := postFull_pending ..
@[simp] theorem postPort_cad (code n : Nat) (d : List Byte) (s : State) : (postPort code n d s).cad = s.cad := postFull_cad ..
@[simp] theorem postPort_sched (code n : Nat) (d : List Byte) (s : State) : (postPort code n d s).sched = s.sched := postFull_sched ..
@[simp] theorem postPort_arrivals (code n : Nat) (d : List Byte) (s : State) : (postPort code n d s).arrivals = s.arrivals := postFull_arrivals ..
@[simp] theorem postPort_fields (code n : Nat) (d : List Byte) (s : State) : (postPort code n d s).fields = s.fields := postFull_fields ..
@[simp] theorem postPort_parts (code n : Nat) (d : List Byte) (s : State) : (postPort code n d s).parts = s.parts := postFull_parts ..
@[simp] theorem postPort_removed (code n : Nat) (d : List Byte) (s : State) : (postPort code n d s).removed = s.removed := postFull_removed ..
@[simp] theorem postPort_plays (code n : Nat) (d : List Byte) (s : State) : (postPort code n d s).plays = s.plays := postFull_plays ..
@[simp] theorem postPort_parting (code n : Nat) (d : List Byte) (s : State) : (postPort code n d s).parting = s.parting := postFull_parting ..
@[simp] theorem postPort_partNext (code n : Nat) (d : List Byte) (s : State) : (postPort code n d s).partNext = s.partNext := postFull_partNext ..
@[simp] theorem postPort_rampQueue (code n : Nat) (d : List Byte) (s : State) : (postPort code n d s).rampQueue = s.rampQueue := postFull_rampQueue ..
@[simp] theorem postPort_rampLast (code n : Nat) (d : List Byte) (s : State) : (postPort code n d s).rampLast = s.rampLast := postFull_rampLast ..
@[simp] theorem postPort_knots (code n : Nat) (d : List Byte) (s : State) : (postPort code n d s).knots = s.knots := postFull_knots ..
@[simp] theorem postPort_mem (code n : Nat) (d : List Byte) (s : State) : (postPort code n d s).mem = s.mem := postFull_mem ..
@[simp] theorem postPort_regions (code n : Nat) (d : List Byte) (s : State) : (postPort code n d s).regions = s.regions := postFull_regions ..
@[simp] theorem postPort_loans (code n : Nat) (d : List Byte) (s : State) : (postPort code n d s).loans = s.loans := postFull_loans ..
@[simp] theorem postPort_loanNext (code n : Nat) (d : List Byte) (s : State) : (postPort code n d s).loanNext = s.loanNext := postFull_loanNext ..
@[simp] theorem postPort_hints (code n : Nat) (d : List Byte) (s : State) : (postPort code n d s).hints = s.hints := postFull_hints ..
@[simp] theorem postPort_caches (code n : Nat) (d : List Byte) (s : State) : (postPort code n d s).caches = s.caches := postFull_caches ..
@[simp] theorem postPort_near (code n : Nat) (d : List Byte) (s : State) : (postPort code n d s).near = s.near := postFull_near ..
@[simp] theorem postPort_cap (code n : Nat) (d : List Byte) (s : State) : (postPort code n d s).cap = s.cap := postFull_cap ..
@[simp] theorem postPort_watch (code n : Nat) (d : List Byte) (s : State) : (postPort code n d s).watch = s.watch := postFull_watch ..
@[simp] theorem postPort_ports (code n : Nat) (d : List Byte) (s : State) : (postPort code n d s).ports = s.ports := postFull_ports ..
@[simp] theorem postPort_lqWindow (code n : Nat) (d : List Byte) (s : State) : (postPort code n d s).lqWindow = s.lqWindow := postFull_lqWindow ..
@[simp] theorem postPort_sets (code n : Nat) (d : List Byte) (s : State) : (postPort code n d s).sets = s.sets := postFull_sets ..
@[simp] theorem postPort_colls (code n : Nat) (d : List Byte) (s : State) : (postPort code n d s).colls = s.colls := postFull_colls ..
@[simp] theorem postPort_barriers (code n : Nat) (d : List Byte) (s : State) : (postPort code n d s).barriers = s.barriers := postFull_barriers ..
@[simp] theorem postPort_exchanges (code n : Nat) (d : List Byte) (s : State) : (postPort code n d s).exchanges = s.exchanges := postFull_exchanges ..
@[simp] theorem postPort_mesh (code n : Nat) (d : List Byte) (s : State) : (postPort code n d s).mesh = s.mesh := postFull_mesh ..
@[simp] theorem postPort_power (code n : Nat) (d : List Byte) (s : State) : (postPort code n d s).power = s.power := postFull_power ..
@[simp] theorem postPort_rel (code n : Nat) (d : List Byte) (s : State) : (postPort code n d s).rel = s.rel := postFull_rel ..
@[simp] theorem postPort_bu (code n : Nat) (d : List Byte) (s : State) : (postPort code n d s).bu = s.bu := postFull_bu ..
@[simp] theorem postPort_dbgUnit (code n : Nat) (d : List Byte) (s : State) : (postPort code n d s).dbgUnit = s.dbgUnit := postFull_dbgUnit ..
@[simp] theorem postPort_pins (code n : Nat) (d : List Byte) (s : State) : (postPort code n d s).pins = s.pins := postFull_pins ..
@[simp] theorem postPort_snap (code n : Nat) (d : List Byte) (s : State) : (postPort code n d s).snap = s.snap := postFull_snap ..
@[simp] theorem postPort_freeCtr (code n : Nat) (d : List Byte) (s : State) : (postPort code n d s).freeCtr = s.freeCtr := postFull_freeCtr ..
theorem postPort_same (code n : Nat) (d : List Byte) (s : State) : HostSame s (postPort code n d s) := postFull_same ..
theorem postPort_calm (code n : Nat) (d : List Byte) (s : State) (h : Calm s) : (postPort code n d s).xing = s.xing ∧ (postPort code n d s).store = s.store := postFull_calm _ _ _ _ _ _ s h

/-! ### argReject -/

@[simp] theorem argReject_pending (off : Nat) (st : BitVec 16) (s : State) : (argReject off st s).pending = s.pending := postFull_pending ..
@[simp] theorem argReject_cad (off : Nat) (st : BitVec 16) (s : State) : (argReject off st s).cad = s.cad := postFull_cad ..
@[simp] theorem argReject_sched (off : Nat) (st : BitVec 16) (s : State) : (argReject off st s).sched = s.sched := postFull_sched ..
@[simp] theorem argReject_arrivals (off : Nat) (st : BitVec 16) (s : State) : (argReject off st s).arrivals = s.arrivals := postFull_arrivals ..
@[simp] theorem argReject_fields (off : Nat) (st : BitVec 16) (s : State) : (argReject off st s).fields = s.fields := postFull_fields ..
@[simp] theorem argReject_parts (off : Nat) (st : BitVec 16) (s : State) : (argReject off st s).parts = s.parts := postFull_parts ..
@[simp] theorem argReject_removed (off : Nat) (st : BitVec 16) (s : State) : (argReject off st s).removed = s.removed := postFull_removed ..
@[simp] theorem argReject_plays (off : Nat) (st : BitVec 16) (s : State) : (argReject off st s).plays = s.plays := postFull_plays ..
@[simp] theorem argReject_parting (off : Nat) (st : BitVec 16) (s : State) : (argReject off st s).parting = s.parting := postFull_parting ..
@[simp] theorem argReject_partNext (off : Nat) (st : BitVec 16) (s : State) : (argReject off st s).partNext = s.partNext := postFull_partNext ..
@[simp] theorem argReject_rampQueue (off : Nat) (st : BitVec 16) (s : State) : (argReject off st s).rampQueue = s.rampQueue := postFull_rampQueue ..
@[simp] theorem argReject_rampLast (off : Nat) (st : BitVec 16) (s : State) : (argReject off st s).rampLast = s.rampLast := postFull_rampLast ..
@[simp] theorem argReject_knots (off : Nat) (st : BitVec 16) (s : State) : (argReject off st s).knots = s.knots := postFull_knots ..
@[simp] theorem argReject_mem (off : Nat) (st : BitVec 16) (s : State) : (argReject off st s).mem = s.mem := postFull_mem ..
@[simp] theorem argReject_regions (off : Nat) (st : BitVec 16) (s : State) : (argReject off st s).regions = s.regions := postFull_regions ..
@[simp] theorem argReject_loans (off : Nat) (st : BitVec 16) (s : State) : (argReject off st s).loans = s.loans := postFull_loans ..
@[simp] theorem argReject_loanNext (off : Nat) (st : BitVec 16) (s : State) : (argReject off st s).loanNext = s.loanNext := postFull_loanNext ..
@[simp] theorem argReject_hints (off : Nat) (st : BitVec 16) (s : State) : (argReject off st s).hints = s.hints := postFull_hints ..
@[simp] theorem argReject_caches (off : Nat) (st : BitVec 16) (s : State) : (argReject off st s).caches = s.caches := postFull_caches ..
@[simp] theorem argReject_near (off : Nat) (st : BitVec 16) (s : State) : (argReject off st s).near = s.near := postFull_near ..
@[simp] theorem argReject_cap (off : Nat) (st : BitVec 16) (s : State) : (argReject off st s).cap = s.cap := postFull_cap ..
@[simp] theorem argReject_watch (off : Nat) (st : BitVec 16) (s : State) : (argReject off st s).watch = s.watch := postFull_watch ..
@[simp] theorem argReject_ports (off : Nat) (st : BitVec 16) (s : State) : (argReject off st s).ports = s.ports := postFull_ports ..
@[simp] theorem argReject_lqWindow (off : Nat) (st : BitVec 16) (s : State) : (argReject off st s).lqWindow = s.lqWindow := postFull_lqWindow ..
@[simp] theorem argReject_sets (off : Nat) (st : BitVec 16) (s : State) : (argReject off st s).sets = s.sets := postFull_sets ..
@[simp] theorem argReject_colls (off : Nat) (st : BitVec 16) (s : State) : (argReject off st s).colls = s.colls := postFull_colls ..
@[simp] theorem argReject_barriers (off : Nat) (st : BitVec 16) (s : State) : (argReject off st s).barriers = s.barriers := postFull_barriers ..
@[simp] theorem argReject_exchanges (off : Nat) (st : BitVec 16) (s : State) : (argReject off st s).exchanges = s.exchanges := postFull_exchanges ..
@[simp] theorem argReject_mesh (off : Nat) (st : BitVec 16) (s : State) : (argReject off st s).mesh = s.mesh := postFull_mesh ..
@[simp] theorem argReject_power (off : Nat) (st : BitVec 16) (s : State) : (argReject off st s).power = s.power := postFull_power ..
@[simp] theorem argReject_rel (off : Nat) (st : BitVec 16) (s : State) : (argReject off st s).rel = s.rel := postFull_rel ..
@[simp] theorem argReject_bu (off : Nat) (st : BitVec 16) (s : State) : (argReject off st s).bu = s.bu := postFull_bu ..
@[simp] theorem argReject_dbgUnit (off : Nat) (st : BitVec 16) (s : State) : (argReject off st s).dbgUnit = s.dbgUnit := postFull_dbgUnit ..
@[simp] theorem argReject_pins (off : Nat) (st : BitVec 16) (s : State) : (argReject off st s).pins = s.pins := postFull_pins ..
@[simp] theorem argReject_snap (off : Nat) (st : BitVec 16) (s : State) : (argReject off st s).snap = s.snap := postFull_snap ..
@[simp] theorem argReject_freeCtr (off : Nat) (st : BitVec 16) (s : State) : (argReject off st s).freeCtr = s.freeCtr := postFull_freeCtr ..
theorem argReject_same (off : Nat) (st : BitVec 16) (s : State) : HostSame s (argReject off st s) := postFull_same ..
theorem argReject_calm (off : Nat) (st : BitVec 16) (s : State) (h : Calm s) : (argReject off st s).xing = s.xing ∧ (argReject off st s).store = s.store := postFull_calm _ _ _ _ _ _ s h

/-! ### lockViolation -/

@[simp] theorem lockViolation_pending (s : State) : (lockViolation s).pending = s.pending := postFull_pending ..
@[simp] theorem lockViolation_cad (s : State) : (lockViolation s).cad = s.cad := postFull_cad ..
@[simp] theorem lockViolation_sched (s : State) : (lockViolation s).sched = s.sched := postFull_sched ..
@[simp] theorem lockViolation_arrivals (s : State) : (lockViolation s).arrivals = s.arrivals := postFull_arrivals ..
@[simp] theorem lockViolation_fields (s : State) : (lockViolation s).fields = s.fields := postFull_fields ..
@[simp] theorem lockViolation_parts (s : State) : (lockViolation s).parts = s.parts := postFull_parts ..
@[simp] theorem lockViolation_removed (s : State) : (lockViolation s).removed = s.removed := postFull_removed ..
@[simp] theorem lockViolation_plays (s : State) : (lockViolation s).plays = s.plays := postFull_plays ..
@[simp] theorem lockViolation_parting (s : State) : (lockViolation s).parting = s.parting := postFull_parting ..
@[simp] theorem lockViolation_partNext (s : State) : (lockViolation s).partNext = s.partNext := postFull_partNext ..
@[simp] theorem lockViolation_rampQueue (s : State) : (lockViolation s).rampQueue = s.rampQueue := postFull_rampQueue ..
@[simp] theorem lockViolation_rampLast (s : State) : (lockViolation s).rampLast = s.rampLast := postFull_rampLast ..
@[simp] theorem lockViolation_knots (s : State) : (lockViolation s).knots = s.knots := postFull_knots ..
@[simp] theorem lockViolation_mem (s : State) : (lockViolation s).mem = s.mem := postFull_mem ..
@[simp] theorem lockViolation_regions (s : State) : (lockViolation s).regions = s.regions := postFull_regions ..
@[simp] theorem lockViolation_loans (s : State) : (lockViolation s).loans = s.loans := postFull_loans ..
@[simp] theorem lockViolation_loanNext (s : State) : (lockViolation s).loanNext = s.loanNext := postFull_loanNext ..
@[simp] theorem lockViolation_hints (s : State) : (lockViolation s).hints = s.hints := postFull_hints ..
@[simp] theorem lockViolation_caches (s : State) : (lockViolation s).caches = s.caches := postFull_caches ..
@[simp] theorem lockViolation_near (s : State) : (lockViolation s).near = s.near := postFull_near ..
@[simp] theorem lockViolation_cap (s : State) : (lockViolation s).cap = s.cap := postFull_cap ..
@[simp] theorem lockViolation_watch (s : State) : (lockViolation s).watch = s.watch := postFull_watch ..
@[simp] theorem lockViolation_ports (s : State) : (lockViolation s).ports = s.ports := postFull_ports ..
@[simp] theorem lockViolation_lqWindow (s : State) : (lockViolation s).lqWindow = s.lqWindow := postFull_lqWindow ..
@[simp] theorem lockViolation_sets (s : State) : (lockViolation s).sets = s.sets := postFull_sets ..
@[simp] theorem lockViolation_colls (s : State) : (lockViolation s).colls = s.colls := postFull_colls ..
@[simp] theorem lockViolation_barriers (s : State) : (lockViolation s).barriers = s.barriers := postFull_barriers ..
@[simp] theorem lockViolation_exchanges (s : State) : (lockViolation s).exchanges = s.exchanges := postFull_exchanges ..
@[simp] theorem lockViolation_mesh (s : State) : (lockViolation s).mesh = s.mesh := postFull_mesh ..
@[simp] theorem lockViolation_power (s : State) : (lockViolation s).power = s.power := postFull_power ..
@[simp] theorem lockViolation_rel (s : State) : (lockViolation s).rel = s.rel := postFull_rel ..
@[simp] theorem lockViolation_bu (s : State) : (lockViolation s).bu = s.bu := postFull_bu ..
@[simp] theorem lockViolation_dbgUnit (s : State) : (lockViolation s).dbgUnit = s.dbgUnit := postFull_dbgUnit ..
@[simp] theorem lockViolation_pins (s : State) : (lockViolation s).pins = s.pins := postFull_pins ..
@[simp] theorem lockViolation_snap (s : State) : (lockViolation s).snap = s.snap := postFull_snap ..
@[simp] theorem lockViolation_freeCtr (s : State) : (lockViolation s).freeCtr = s.freeCtr := postFull_freeCtr ..
theorem lockViolation_same (s : State) : HostSame s (lockViolation s) := postFull_same ..
theorem lockViolation_calm (s : State) (h : Calm s) : (lockViolation s).xing = s.xing ∧ (lockViolation s).store = s.store := postFull_calm _ _ _ _ _ _ s h

/-! ### record -/

@[simp] theorem record_pending (cls action result origin : Nat) (unit logical play step : W32) (d : List Byte) (s : State) : (record cls action result origin unit logical play step d s).pending = s.pending := by
  unfold record
  dsimp only
  split
  · exact postFull_pending ..
  · rfl
@[simp] theorem record_cad (cls action result origin : Nat) (unit logical play step : W32) (d : List Byte) (s : State) : (record cls action result origin unit logical play step d s).cad = s.cad := by
  unfold record
  dsimp only
  split
  · exact postFull_cad ..
  · rfl
@[simp] theorem record_sched (cls action result origin : Nat) (unit logical play step : W32) (d : List Byte) (s : State) : (record cls action result origin unit logical play step d s).sched = s.sched := by
  unfold record
  dsimp only
  split
  · exact postFull_sched ..
  · rfl
@[simp] theorem record_arrivals (cls action result origin : Nat) (unit logical play step : W32) (d : List Byte) (s : State) : (record cls action result origin unit logical play step d s).arrivals = s.arrivals := by
  unfold record
  dsimp only
  split
  · exact postFull_arrivals ..
  · rfl
@[simp] theorem record_fields (cls action result origin : Nat) (unit logical play step : W32) (d : List Byte) (s : State) : (record cls action result origin unit logical play step d s).fields = s.fields := by
  unfold record
  dsimp only
  split
  · exact postFull_fields ..
  · rfl
@[simp] theorem record_parts (cls action result origin : Nat) (unit logical play step : W32) (d : List Byte) (s : State) : (record cls action result origin unit logical play step d s).parts = s.parts := by
  unfold record
  dsimp only
  split
  · exact postFull_parts ..
  · rfl
@[simp] theorem record_removed (cls action result origin : Nat) (unit logical play step : W32) (d : List Byte) (s : State) : (record cls action result origin unit logical play step d s).removed = s.removed := by
  unfold record
  dsimp only
  split
  · exact postFull_removed ..
  · rfl
@[simp] theorem record_plays (cls action result origin : Nat) (unit logical play step : W32) (d : List Byte) (s : State) : (record cls action result origin unit logical play step d s).plays = s.plays := by
  unfold record
  dsimp only
  split
  · exact postFull_plays ..
  · rfl
@[simp] theorem record_parting (cls action result origin : Nat) (unit logical play step : W32) (d : List Byte) (s : State) : (record cls action result origin unit logical play step d s).parting = s.parting := by
  unfold record
  dsimp only
  split
  · exact postFull_parting ..
  · rfl
@[simp] theorem record_partNext (cls action result origin : Nat) (unit logical play step : W32) (d : List Byte) (s : State) : (record cls action result origin unit logical play step d s).partNext = s.partNext := by
  unfold record
  dsimp only
  split
  · exact postFull_partNext ..
  · rfl
@[simp] theorem record_rampQueue (cls action result origin : Nat) (unit logical play step : W32) (d : List Byte) (s : State) : (record cls action result origin unit logical play step d s).rampQueue = s.rampQueue := by
  unfold record
  dsimp only
  split
  · exact postFull_rampQueue ..
  · rfl
@[simp] theorem record_rampLast (cls action result origin : Nat) (unit logical play step : W32) (d : List Byte) (s : State) : (record cls action result origin unit logical play step d s).rampLast = s.rampLast := by
  unfold record
  dsimp only
  split
  · exact postFull_rampLast ..
  · rfl
@[simp] theorem record_knots (cls action result origin : Nat) (unit logical play step : W32) (d : List Byte) (s : State) : (record cls action result origin unit logical play step d s).knots = s.knots := by
  unfold record
  dsimp only
  split
  · exact postFull_knots ..
  · rfl
@[simp] theorem record_mem (cls action result origin : Nat) (unit logical play step : W32) (d : List Byte) (s : State) : (record cls action result origin unit logical play step d s).mem = s.mem := by
  unfold record
  dsimp only
  split
  · exact postFull_mem ..
  · rfl
@[simp] theorem record_regions (cls action result origin : Nat) (unit logical play step : W32) (d : List Byte) (s : State) : (record cls action result origin unit logical play step d s).regions = s.regions := by
  unfold record
  dsimp only
  split
  · exact postFull_regions ..
  · rfl
@[simp] theorem record_loans (cls action result origin : Nat) (unit logical play step : W32) (d : List Byte) (s : State) : (record cls action result origin unit logical play step d s).loans = s.loans := by
  unfold record
  dsimp only
  split
  · exact postFull_loans ..
  · rfl
@[simp] theorem record_loanNext (cls action result origin : Nat) (unit logical play step : W32) (d : List Byte) (s : State) : (record cls action result origin unit logical play step d s).loanNext = s.loanNext := by
  unfold record
  dsimp only
  split
  · exact postFull_loanNext ..
  · rfl
@[simp] theorem record_hints (cls action result origin : Nat) (unit logical play step : W32) (d : List Byte) (s : State) : (record cls action result origin unit logical play step d s).hints = s.hints := by
  unfold record
  dsimp only
  split
  · exact postFull_hints ..
  · rfl
@[simp] theorem record_caches (cls action result origin : Nat) (unit logical play step : W32) (d : List Byte) (s : State) : (record cls action result origin unit logical play step d s).caches = s.caches := by
  unfold record
  dsimp only
  split
  · exact postFull_caches ..
  · rfl
@[simp] theorem record_near (cls action result origin : Nat) (unit logical play step : W32) (d : List Byte) (s : State) : (record cls action result origin unit logical play step d s).near = s.near := by
  unfold record
  dsimp only
  split
  · exact postFull_near ..
  · rfl
@[simp] theorem record_cap (cls action result origin : Nat) (unit logical play step : W32) (d : List Byte) (s : State) : (record cls action result origin unit logical play step d s).cap = s.cap := by
  unfold record
  dsimp only
  split
  · exact postFull_cap ..
  · rfl
@[simp] theorem record_watch (cls action result origin : Nat) (unit logical play step : W32) (d : List Byte) (s : State) : (record cls action result origin unit logical play step d s).watch = s.watch := by
  unfold record
  dsimp only
  split
  · exact postFull_watch ..
  · rfl
@[simp] theorem record_ports (cls action result origin : Nat) (unit logical play step : W32) (d : List Byte) (s : State) : (record cls action result origin unit logical play step d s).ports = s.ports := by
  unfold record
  dsimp only
  split
  · exact postFull_ports ..
  · rfl
@[simp] theorem record_lqWindow (cls action result origin : Nat) (unit logical play step : W32) (d : List Byte) (s : State) : (record cls action result origin unit logical play step d s).lqWindow = s.lqWindow := by
  unfold record
  dsimp only
  split
  · exact postFull_lqWindow ..
  · rfl
@[simp] theorem record_sets (cls action result origin : Nat) (unit logical play step : W32) (d : List Byte) (s : State) : (record cls action result origin unit logical play step d s).sets = s.sets := by
  unfold record
  dsimp only
  split
  · exact postFull_sets ..
  · rfl
@[simp] theorem record_colls (cls action result origin : Nat) (unit logical play step : W32) (d : List Byte) (s : State) : (record cls action result origin unit logical play step d s).colls = s.colls := by
  unfold record
  dsimp only
  split
  · exact postFull_colls ..
  · rfl
@[simp] theorem record_barriers (cls action result origin : Nat) (unit logical play step : W32) (d : List Byte) (s : State) : (record cls action result origin unit logical play step d s).barriers = s.barriers := by
  unfold record
  dsimp only
  split
  · exact postFull_barriers ..
  · rfl
@[simp] theorem record_exchanges (cls action result origin : Nat) (unit logical play step : W32) (d : List Byte) (s : State) : (record cls action result origin unit logical play step d s).exchanges = s.exchanges := by
  unfold record
  dsimp only
  split
  · exact postFull_exchanges ..
  · rfl
@[simp] theorem record_mesh (cls action result origin : Nat) (unit logical play step : W32) (d : List Byte) (s : State) : (record cls action result origin unit logical play step d s).mesh = s.mesh := by
  unfold record
  dsimp only
  split
  · exact postFull_mesh ..
  · rfl
@[simp] theorem record_power (cls action result origin : Nat) (unit logical play step : W32) (d : List Byte) (s : State) : (record cls action result origin unit logical play step d s).power = s.power := by
  unfold record
  dsimp only
  split
  · exact postFull_power ..
  · rfl
@[simp] theorem record_rel (cls action result origin : Nat) (unit logical play step : W32) (d : List Byte) (s : State) : (record cls action result origin unit logical play step d s).rel = s.rel := by
  unfold record
  dsimp only
  split
  · exact postFull_rel ..
  · rfl
@[simp] theorem record_bu (cls action result origin : Nat) (unit logical play step : W32) (d : List Byte) (s : State) : (record cls action result origin unit logical play step d s).bu = s.bu := by
  unfold record
  dsimp only
  split
  · exact postFull_bu ..
  · rfl
@[simp] theorem record_dbgUnit (cls action result origin : Nat) (unit logical play step : W32) (d : List Byte) (s : State) : (record cls action result origin unit logical play step d s).dbgUnit = s.dbgUnit := by
  unfold record
  dsimp only
  split
  · exact postFull_dbgUnit ..
  · rfl
@[simp] theorem record_pins (cls action result origin : Nat) (unit logical play step : W32) (d : List Byte) (s : State) : (record cls action result origin unit logical play step d s).pins = s.pins := by
  unfold record
  dsimp only
  split
  · exact postFull_pins ..
  · rfl
@[simp] theorem record_snap (cls action result origin : Nat) (unit logical play step : W32) (d : List Byte) (s : State) : (record cls action result origin unit logical play step d s).snap = s.snap := by
  unfold record
  dsimp only
  split
  · exact postFull_snap ..
  · rfl
@[simp] theorem record_freeCtr (cls action result origin : Nat) (unit logical play step : W32) (d : List Byte) (s : State) : (record cls action result origin unit logical play step d s).freeCtr = s.freeCtr := by
  unfold record
  dsimp only
  split
  · exact postFull_freeCtr ..
  · rfl
theorem record_same (cls action result origin : Nat) (unit logical play step : W32) (d : List Byte) (s : State) : HostSame s (record cls action result origin unit logical play step d s) := by
  unfold record
  dsimp only
  split
  · exact postFull_same ..
  · rfl
/-- A record enters the fault ledger, with its class and unit, above what its event's interrupt may have recorded. -/
theorem record_enters (cls action result origin : Nat) (unit logical play step : W32) (d : List Byte) (s : State) :
    ∃ (r : FaultRec) (t : State), (record cls action result origin unit logical play step d s).store.ledger = (r :: t.store.ledger).take 262144 ∧ r.cls = cls ∧ r.unit = unit ∧ (Calm s → t.store = s.store) := by
  unfold record
  dsimp only
  split
  · rename_i e _
    exact ⟨_, postFull e origin unit play step [] s, rfl, rfl, rfl, fun h => (postFull_calm e origin unit play step [] s h).2⟩
  · exact ⟨_, s, rfl, rfl, rfl, fun _ => rfl⟩

/-! ### replyTo -/

@[simp] theorem replyTo_pending (queue : Nat) (seq : W32) (opc origin : Nat) (notify : Bool) (st : BitVec 16) (d : W64) (s : State) : (replyTo queue seq opc origin notify st d s).pending = s.pending := rfl
@[simp] theorem replyTo_cad (queue : Nat) (seq : W32) (opc origin : Nat) (notify : Bool) (st : BitVec 16) (d : W64) (s : State) : (replyTo queue seq opc origin notify st d s).cad = s.cad := rfl
@[simp] theorem replyTo_sched (queue : Nat) (seq : W32) (opc origin : Nat) (notify : Bool) (st : BitVec 16) (d : W64) (s : State) : (replyTo queue seq opc origin notify st d s).sched = s.sched := rfl
@[simp] theorem replyTo_arrivals (queue : Nat) (seq : W32) (opc origin : Nat) (notify : Bool) (st : BitVec 16) (d : W64) (s : State) : (replyTo queue seq opc origin notify st d s).arrivals = s.arrivals := rfl
@[simp] theorem replyTo_xing (queue : Nat) (seq : W32) (opc origin : Nat) (notify : Bool) (st : BitVec 16) (d : W64) (s : State) : (replyTo queue seq opc origin notify st d s).xing = s.xing := rfl
@[simp] theorem replyTo_fields (queue : Nat) (seq : W32) (opc origin : Nat) (notify : Bool) (st : BitVec 16) (d : W64) (s : State) : (replyTo queue seq opc origin notify st d s).fields = s.fields := rfl
@[simp] theorem replyTo_parts (queue : Nat) (seq : W32) (opc origin : Nat) (notify : Bool) (st : BitVec 16) (d : W64) (s : State) : (replyTo queue seq opc origin notify st d s).parts = s.parts := rfl
@[simp] theorem replyTo_removed (queue : Nat) (seq : W32) (opc origin : Nat) (notify : Bool) (st : BitVec 16) (d : W64) (s : State) : (replyTo queue seq opc origin notify st d s).removed = s.removed := rfl
@[simp] theorem replyTo_plays (queue : Nat) (seq : W32) (opc origin : Nat) (notify : Bool) (st : BitVec 16) (d : W64) (s : State) : (replyTo queue seq opc origin notify st d s).plays = s.plays := rfl
@[simp] theorem replyTo_parting (queue : Nat) (seq : W32) (opc origin : Nat) (notify : Bool) (st : BitVec 16) (d : W64) (s : State) : (replyTo queue seq opc origin notify st d s).parting = s.parting := rfl
@[simp] theorem replyTo_partNext (queue : Nat) (seq : W32) (opc origin : Nat) (notify : Bool) (st : BitVec 16) (d : W64) (s : State) : (replyTo queue seq opc origin notify st d s).partNext = s.partNext := rfl
@[simp] theorem replyTo_rampQueue (queue : Nat) (seq : W32) (opc origin : Nat) (notify : Bool) (st : BitVec 16) (d : W64) (s : State) : (replyTo queue seq opc origin notify st d s).rampQueue = s.rampQueue := rfl
@[simp] theorem replyTo_rampLast (queue : Nat) (seq : W32) (opc origin : Nat) (notify : Bool) (st : BitVec 16) (d : W64) (s : State) : (replyTo queue seq opc origin notify st d s).rampLast = s.rampLast := rfl
@[simp] theorem replyTo_knots (queue : Nat) (seq : W32) (opc origin : Nat) (notify : Bool) (st : BitVec 16) (d : W64) (s : State) : (replyTo queue seq opc origin notify st d s).knots = s.knots := rfl
@[simp] theorem replyTo_mem (queue : Nat) (seq : W32) (opc origin : Nat) (notify : Bool) (st : BitVec 16) (d : W64) (s : State) : (replyTo queue seq opc origin notify st d s).mem = s.mem := rfl
@[simp] theorem replyTo_regions (queue : Nat) (seq : W32) (opc origin : Nat) (notify : Bool) (st : BitVec 16) (d : W64) (s : State) : (replyTo queue seq opc origin notify st d s).regions = s.regions := rfl
@[simp] theorem replyTo_loans (queue : Nat) (seq : W32) (opc origin : Nat) (notify : Bool) (st : BitVec 16) (d : W64) (s : State) : (replyTo queue seq opc origin notify st d s).loans = s.loans := rfl
@[simp] theorem replyTo_loanNext (queue : Nat) (seq : W32) (opc origin : Nat) (notify : Bool) (st : BitVec 16) (d : W64) (s : State) : (replyTo queue seq opc origin notify st d s).loanNext = s.loanNext := rfl
@[simp] theorem replyTo_hints (queue : Nat) (seq : W32) (opc origin : Nat) (notify : Bool) (st : BitVec 16) (d : W64) (s : State) : (replyTo queue seq opc origin notify st d s).hints = s.hints := rfl
@[simp] theorem replyTo_caches (queue : Nat) (seq : W32) (opc origin : Nat) (notify : Bool) (st : BitVec 16) (d : W64) (s : State) : (replyTo queue seq opc origin notify st d s).caches = s.caches := rfl
@[simp] theorem replyTo_near (queue : Nat) (seq : W32) (opc origin : Nat) (notify : Bool) (st : BitVec 16) (d : W64) (s : State) : (replyTo queue seq opc origin notify st d s).near = s.near := rfl
@[simp] theorem replyTo_cap (queue : Nat) (seq : W32) (opc origin : Nat) (notify : Bool) (st : BitVec 16) (d : W64) (s : State) : (replyTo queue seq opc origin notify st d s).cap = s.cap := rfl
@[simp] theorem replyTo_watch (queue : Nat) (seq : W32) (opc origin : Nat) (notify : Bool) (st : BitVec 16) (d : W64) (s : State) : (replyTo queue seq opc origin notify st d s).watch = s.watch := rfl
@[simp] theorem replyTo_ports (queue : Nat) (seq : W32) (opc origin : Nat) (notify : Bool) (st : BitVec 16) (d : W64) (s : State) : (replyTo queue seq opc origin notify st d s).ports = s.ports := rfl
@[simp] theorem replyTo_lqWindow (queue : Nat) (seq : W32) (opc origin : Nat) (notify : Bool) (st : BitVec 16) (d : W64) (s : State) : (replyTo queue seq opc origin notify st d s).lqWindow = s.lqWindow := rfl
@[simp] theorem replyTo_sets (queue : Nat) (seq : W32) (opc origin : Nat) (notify : Bool) (st : BitVec 16) (d : W64) (s : State) : (replyTo queue seq opc origin notify st d s).sets = s.sets := rfl
@[simp] theorem replyTo_colls (queue : Nat) (seq : W32) (opc origin : Nat) (notify : Bool) (st : BitVec 16) (d : W64) (s : State) : (replyTo queue seq opc origin notify st d s).colls = s.colls := rfl
@[simp] theorem replyTo_barriers (queue : Nat) (seq : W32) (opc origin : Nat) (notify : Bool) (st : BitVec 16) (d : W64) (s : State) : (replyTo queue seq opc origin notify st d s).barriers = s.barriers := rfl
@[simp] theorem replyTo_exchanges (queue : Nat) (seq : W32) (opc origin : Nat) (notify : Bool) (st : BitVec 16) (d : W64) (s : State) : (replyTo queue seq opc origin notify st d s).exchanges = s.exchanges := rfl
@[simp] theorem replyTo_mesh (queue : Nat) (seq : W32) (opc origin : Nat) (notify : Bool) (st : BitVec 16) (d : W64) (s : State) : (replyTo queue seq opc origin notify st d s).mesh = s.mesh := rfl
@[simp] theorem replyTo_power (queue : Nat) (seq : W32) (opc origin : Nat) (notify : Bool) (st : BitVec 16) (d : W64) (s : State) : (replyTo queue seq opc origin notify st d s).power = s.power := rfl
@[simp] theorem replyTo_rel (queue : Nat) (seq : W32) (opc origin : Nat) (notify : Bool) (st : BitVec 16) (d : W64) (s : State) : (replyTo queue seq opc origin notify st d s).rel = s.rel := rfl
@[simp] theorem replyTo_bu (queue : Nat) (seq : W32) (opc origin : Nat) (notify : Bool) (st : BitVec 16) (d : W64) (s : State) : (replyTo queue seq opc origin notify st d s).bu = s.bu := rfl
@[simp] theorem replyTo_dbgUnit (queue : Nat) (seq : W32) (opc origin : Nat) (notify : Bool) (st : BitVec 16) (d : W64) (s : State) : (replyTo queue seq opc origin notify st d s).dbgUnit = s.dbgUnit := rfl
@[simp] theorem replyTo_pins (queue : Nat) (seq : W32) (opc origin : Nat) (notify : Bool) (st : BitVec 16) (d : W64) (s : State) : (replyTo queue seq opc origin notify st d s).pins = s.pins := rfl
@[simp] theorem replyTo_store (queue : Nat) (seq : W32) (opc origin : Nat) (notify : Bool) (st : BitVec 16) (d : W64) (s : State) : (replyTo queue seq opc origin notify st d s).store = s.store := rfl
@[simp] theorem replyTo_snap (queue : Nat) (seq : W32) (opc origin : Nat) (notify : Bool) (st : BitVec 16) (d : W64) (s : State) : (replyTo queue seq opc origin notify st d s).snap = s.snap := rfl
@[simp] theorem replyTo_freeCtr (queue : Nat) (seq : W32) (opc origin : Nat) (notify : Bool) (st : BitVec 16) (d : W64) (s : State) : (replyTo queue seq opc origin notify st d s).freeCtr = s.freeCtr := rfl

/-! ### Host interfaces but for the log -/

theorem HostSame.refl (s : State) : HostSame s s := rfl
theorem HostSame.trans {s t u : State} (h : HostSame s t) (k : HostSame t u) : HostSame s u := Eq.trans k h
/-- An update that leaves the host interface alone. -/
theorem HostSame.of_host {s t : State} (h : t.host = s.host) : HostSame s t := congrArg HostIf.butLog h

/-! ### Replies and the dispatcher -/

/-- What a command without a step answers. -/
theorem reply_plain {p : Packet} (h : stepOpcode p.opc = false) (st : BitVec 16) (d : W64) (s : State) :
    reply p st d s = { s with host := { s.host with replies := s.host.replies ++ [answerOf p st d s] } } := by
  simp [reply, h, replyTo, answerOf, Packet.notify]

/-- A packet that passes the checks has its reserved bits clear. -/
theorem Admitted.rsv {o : Nat} {p : Packet} {s : State} (h : Admitted o p s) : p.rsv = 0 := by
  have k := h.2.2.2
  unfold checkPacket at k
  revert k
  repeat' split
  all_goals simp_all [headerClean]

/-- A packet that passes the checks succeeds with status 0x0000. -/
theorem Admitted.ok {o : Nat} {p : Packet} {s : State} (h : Admitted o p s) : okStatus p = 0 := by
  simp [okStatus, h.rsv, Status.ok]

/-- An admitted command of an opcode without a step runs at once, after it took its place in the order of dispatch; a STATE_LOAD takes the version of the
state with it (R311). -/
theorem dispatch_admitted {o : Nat} {p : Packet} {s : State} (h : Admitted o p s) (ho : stepOpcode o = false) (hp : o ≠ 0x0701) :
    dispatchPacket { p with opc := o } s = runOp (if o = 0x0405 then { p with tag := s.cap.committed.toNat } else p) s.arrivals (arrived s) := by
  obtain ⟨⟨h1, h2, -⟩, rfl, h4, h5⟩ := h
  show dispatchPacket p s = _
  have h6 : fireRefusal s p = none := by simp [fireRefusal, h4]
  have h7 : isLate s p = false := by simp [isLate, h4]
  unfold dispatchPacket
  rw [if_neg (by simp [h1, h2]), h5]
  simp only [ho, Bool.false_eq_true, if_false, h6, h7]
  unfold execute
  rw [if_neg (by simp [ho]), if_neg hp]
  unfold atFire
  dsimp only
  split
  · rw [if_neg (by simp [h4])]
    rfl
  · rw [if_neg (by simp [h4])]
    rfl

/-- The same of an opcode whose packet goes to its operation as it is. -/
theorem dispatch_plain {o : Nat} {p : Packet} {s : State} (h : Admitted o p s) (ho : stepOpcode o = false) (hp : o ≠ 0x0701) (hl : o ≠ 0x0405) :
    dispatchPacket { p with opc := o } s = runOp p s.arrivals (arrived s) := by
  rw [dispatch_admitted h ho hp, if_neg hl]

end Sys2Proof.Machine
end

