-- ==== Sys2Proof/Laws/Frame.lean ====
section
/-! SUPPORT. Frames: how the frame relation composes, and the single field updates of State. -/

namespace Sys2Proof.Machine

theorem OnlyChanges.refl (l : List Part) (s : State) : OnlyChanges l s s := by
  intro p _; cases p <;> first | rfl | exact ⟨rfl, rfl⟩

theorem Part.same_trans {s t u : State} (p : Part) (h : p.same s t) (k : p.same t u) : p.same s u := by
  cases p <;> simp only [Part.same] at * <;> first | exact k.trans h | exact ⟨k.1.trans h.1, k.2.trans h.2⟩

theorem OnlyChanges.trans {l : List Part} {s t u : State} (h : OnlyChanges l s t) (k : OnlyChanges l t u) : OnlyChanges l s u :=
  fun p hp => p.same_trans (h p hp) (k p hp)

theorem OnlyChanges.mono {l m : List Part} {s t : State} (h : OnlyChanges l s t) (k : ∀ p ∈ l, p ∈ m) : OnlyChanges m s t :=
  fun p hp => h p fun hq => hp (k p hq)

/-- One more operation with a frame inside l. -/
theorem OnlyChanges.step {l m : List Part} {s t u : State} (h : OnlyChanges l s t) (k : OnlyChanges m t u) (hm : ∀ p ∈ m, p ∈ l) :
    OnlyChanges l s u := h.trans (k.mono hm)

theorem OnlyChanges.fold {α : Type} {l : List Part} {s t : State} {f : State → α → State} {xs : List α} (h : OnlyChanges l s t)
    (k : ∀ u x, OnlyChanges l s u → OnlyChanges l s (f u x)) : OnlyChanges l s (xs.foldl f t) := by
  induction xs generalizing t with
  | nil => exact h
  | cons x r ih => exact ih (k t x h)

/-! ### Results that carry a state -/

/-- The state of each kind of result has a property. -/
def outAll (P : State → Prop) : Out → Prop
  | .next t => P t
  | _ => True
def sndAll {α : Type} (P : State → Prop) (x : α × State) : Prop := P x.2
def fstAll {α : Type} (P : State → Prop) (x : State × α) : Prop := P x.1
theorem sndAll_mk {α : Type} {P : State → Prop} {x : α} {t : State} (h : P t) : sndAll P (x, t) := h
theorem fstAll_mk {α : Type} {P : State → Prop} {x : α} {t : State} (h : P t) : fstAll P (t, x) := h
def optAll (P : State → Prop) : Option State → Prop
  | some t => P t
  | none => True
def optSndAll {α : Type} (P : State → Prop) : Option (α × State) → Prop
  | some x => P x.2
  | none => True
def fetchAll (P : State → Prop) : Fetch → Prop
  | .word _ t => P t
  | .fail _ t => P t
  | .bad t => P t
  | .stopped => True
  | .wait => True
def startAll (P : State → Prop) : Start → Prop
  | .run _ t => P t
  | .done t => P t
  | .fail _ t => P t
  | .fault _ t => P t
  | .hold => True
def unitAll {α : Type} (P : State → Prop) : UnitRes α → Prop
  | .ok _ t => P t
  | .stop _ t => P t
  | .bad t => P t

def arrAll (P : State → Prop) : Arrival → Prop
  | .none => True
  | .lost t => P t
  | .got _ t => P t

theorem OnlyChanges.stepSnd {α : Type} {l m : List Part} {s t : State} {x : α × State} (h : OnlyChanges l s t) (k : sndAll (OnlyChanges m t) x)
    (hm : ∀ p ∈ m, p ∈ l) : sndAll (OnlyChanges l s) x := h.step k hm
theorem OnlyChanges.stepFst {α : Type} {l m : List Part} {s t : State} {x : State × α} (h : OnlyChanges l s t) (k : fstAll (OnlyChanges m t) x)
    (hm : ∀ p ∈ m, p ∈ l) : fstAll (OnlyChanges l s) x := h.step k hm
theorem OnlyChanges.stepOut {l m : List Part} {s t : State} {x : Out} (h : OnlyChanges l s t) (k : outAll (OnlyChanges m t) x)
    (hm : ∀ p ∈ m, p ∈ l) : outAll (OnlyChanges l s) x := by
  cases x <;> first | exact h.step k hm | trivial
theorem OnlyChanges.stepOpt {l m : List Part} {s t : State} {x : Option State} (h : OnlyChanges l s t) (k : optAll (OnlyChanges m t) x)
    (hm : ∀ p ∈ m, p ∈ l) : optAll (OnlyChanges l s) x := by
  cases x <;> first | exact h.step k hm | trivial
theorem OnlyChanges.stepOptSnd {α : Type} {l m : List Part} {s t : State} {x : Option (α × State)} (h : OnlyChanges l s t)
    (k : optSndAll (OnlyChanges m t) x) (hm : ∀ p ∈ m, p ∈ l) : optSndAll (OnlyChanges l s) x := by
  cases x <;> first | exact h.step k hm | trivial
theorem OnlyChanges.stepFetch {l m : List Part} {s t : State} {x : Fetch} (h : OnlyChanges l s t) (k : fetchAll (OnlyChanges m t) x)
    (hm : ∀ p ∈ m, p ∈ l) : fetchAll (OnlyChanges l s) x := by
  cases x <;> first | exact h.step k hm | trivial
theorem OnlyChanges.stepStart {l m : List Part} {s t : State} {x : Start} (h : OnlyChanges l s t) (k : startAll (OnlyChanges m t) x)
    (hm : ∀ p ∈ m, p ∈ l) : startAll (OnlyChanges l s) x := by
  cases x <;> first | exact h.step k hm | trivial
theorem OnlyChanges.stepUnit {α : Type} {l m : List Part} {s t : State} {x : UnitRes α} (h : OnlyChanges l s t) (k : unitAll (OnlyChanges m t) x)
    (hm : ∀ p ∈ m, p ∈ l) : unitAll (OnlyChanges l s) x := by
  cases x <;> first | exact h.step k hm | trivial

theorem OnlyChanges.stepArr {l m : List Part} {s t : State} {x : Arrival} (h : OnlyChanges l s t) (k : arrAll (OnlyChanges m t) x)
    (hm : ∀ p ∈ m, p ∈ l) : arrAll (OnlyChanges l s) x := by
  cases x <;> first | exact h.step k hm | trivial

theorem OnlyChanges.foldSnd {α β : Type} {P : State → Prop} {f : β × State → α → β × State} {xs : List α} {x : β × State} (h : sndAll P x)
    (k : ∀ u y, sndAll P u → sndAll P (f u y)) : sndAll P (xs.foldl f x) := by
  induction xs generalizing x with
  | nil => exact h
  | cons y r ih => exact ih (k x y h)
theorem OnlyChanges.foldFst {α β : Type} {P : State → Prop} {f : State × β → α → State × β} {xs : List α} {x : State × β} (h : fstAll P x)
    (k : ∀ u y, fstAll P u → fstAll P (f u y)) : fstAll P (xs.foldl f x) := by
  induction xs generalizing x with
  | nil => exact h
  | cons y r ih => exact ih (k x y h)

theorem optAll_map {α : Type} {P : State → Prop} {f : α → State} {o : Option α} (h : ∀ x, P (f x)) : optAll P (o.map f) := by
  cases o with
  | none => exact True.intro
  | some x => exact h x
theorem optSndAll_map {α β : Type} {P : State → Prop} {f : α → β × State} {o : Option α} (h : ∀ x, sndAll P (f x)) : optSndAll P (o.map f) := by
  cases o with
  | none => exact True.intro
  | some x => exact h x
theorem optAll_getD {P : State → Prop} {o : Option State} {t : State} (h : optAll P o) (k : P t) : P (o.getD t) := by
  cases o with
  | none => exact k
  | some x => exact h

/-- A fold over optional states. -/
theorem optAll_fold {α : Type} {P : State → Prop} {f : Option State → α → Option State} {xs : List α} {o : Option State} (h : optAll P o)
    (k : ∀ u y, optAll P u → optAll P (f u y)) : optAll P (xs.foldl f o) := by
  induction xs generalizing o with
  | nil => exact h
  | cons y r ih => exact ih (k o y h)

/-- What holds of both arms of an elimination holds of its result. -/
theorem elim_of {α β : Type} {P : β → Prop} {o : Option α} {b : β} {f : α → β} (h : P b) (k : ∀ x, P (f x)) : P (o.elim b f) := by
  cases o with
  | none => exact h
  | some x => exact k x

theorem OnlyChanges.ite {l : List Part} {s t u : State} {c : Prop} [Decidable c] (h : OnlyChanges l s t) (k : OnlyChanges l s u) :
    OnlyChanges l s (if c then t else u) := by
  split
  · exact h
  · exact k

/-- What holds of a result holds of what it was matched with. -/
theorem absorb {α : Type} {P : α → Prop} {x y : α} {q : Prop} (e : x = y) (h : P x) (k : P y → q) : q := k (e ▸ h)

/-! ### Updates of fields of State -/

theorem only_arrivals {l : List Part} {s t : State} (h : OnlyChanges l s t) (x0) (k : ∀ p ∈ [.arrivals], p ∈ l) :
    OnlyChanges l s { t with arrivals := x0 } := h.trans fun p hp => by
  cases p <;> first | rfl | exact ⟨rfl, rfl⟩ | exact absurd (k _ (by decide)) hp
theorem only_arrivals_cap {l : List Part} {s t : State} (h : OnlyChanges l s t) (x0 x1) (k : ∀ p ∈ [.arrivals, .cap], p ∈ l) :
    OnlyChanges l s { t with arrivals := x0, cap := x1 } := h.trans fun p hp => by
  cases p <;> first | rfl | exact ⟨rfl, rfl⟩ | exact absurd (k _ (by decide)) hp
theorem only_barriers {l : List Part} {s t : State} (h : OnlyChanges l s t) (x0) (k : ∀ p ∈ [.barriers], p ∈ l) :
    OnlyChanges l s { t with barriers := x0 } := h.trans fun p hp => by
  cases p <;> first | rfl | exact ⟨rfl, rfl⟩ | exact absurd (k _ (by decide)) hp
theorem only_bu {l : List Part} {s t : State} (h : OnlyChanges l s t) (x0) (k : ∀ p ∈ [.bu], p ∈ l) :
    OnlyChanges l s { t with bu := x0 } := h.trans fun p hp => by
  cases p <;> first | rfl | exact ⟨rfl, rfl⟩ | exact absurd (k _ (by decide)) hp
theorem only_caches {l : List Part} {s t : State} (h : OnlyChanges l s t) (x0) (k : ∀ p ∈ [.caches], p ∈ l) :
    OnlyChanges l s { t with caches := x0 } := h.trans fun p hp => by
  cases p <;> first | rfl | exact ⟨rfl, rfl⟩ | exact absurd (k _ (by decide)) hp
theorem only_caches_rel {l : List Part} {s t : State} (h : OnlyChanges l s t) (x0 x1) (k : ∀ p ∈ [.caches, .rel], p ∈ l) :
    OnlyChanges l s { t with caches := x0, rel := x1 } := h.trans fun p hp => by
  cases p <;> first | rfl | exact ⟨rfl, rfl⟩ | exact absurd (k _ (by decide)) hp
theorem only_cad {l : List Part} {s t : State} (h : OnlyChanges l s t) (x0) (k : ∀ p ∈ [.cad], p ∈ l) :
    OnlyChanges l s { t with cad := x0 } := h.trans fun p hp => by
  cases p <;> first | rfl | exact ⟨rfl, rfl⟩ | exact absurd (k _ (by decide)) hp
theorem only_cad_power {l : List Part} {s t : State} (h : OnlyChanges l s t) (x0 x1) (k : ∀ p ∈ [.cad, .power], p ∈ l) :
    OnlyChanges l s { t with cad := x0, power := x1 } := h.trans fun p hp => by
  cases p <;> first | rfl | exact ⟨rfl, rfl⟩ | exact absurd (k _ (by decide)) hp
theorem only_cad_rel {l : List Part} {s t : State} (h : OnlyChanges l s t) (x0 x1) (k : ∀ p ∈ [.cad, .rel], p ∈ l) :
    OnlyChanges l s { t with cad := x0, rel := x1 } := h.trans fun p hp => by
  cases p <;> first | rfl | exact ⟨rfl, rfl⟩ | exact absurd (k _ (by decide)) hp
theorem only_cap {l : List Part} {s t : State} (h : OnlyChanges l s t) (x0) (k : ∀ p ∈ [.cap], p ∈ l) :
    OnlyChanges l s { t with cap := x0 } := h.trans fun p hp => by
  cases p <;> first | rfl | exact ⟨rfl, rfl⟩ | exact absurd (k _ (by decide)) hp
theorem only_cap_barriers {l : List Part} {s t : State} (h : OnlyChanges l s t) (x0 x1) (k : ∀ p ∈ [.cap, .barriers], p ∈ l) :
    OnlyChanges l s { t with cap := x0, barriers := x1 } := h.trans fun p hp => by
  cases p <;> first | rfl | exact ⟨rfl, rfl⟩ | exact absurd (k _ (by decide)) hp
theorem only_cap_freeCtr {l : List Part} {s t : State} (h : OnlyChanges l s t) (x0 x1) (k : ∀ p ∈ [.cap, .freeCtr], p ∈ l) :
    OnlyChanges l s { t with cap := x0, freeCtr := x1 } := h.trans fun p hp => by
  cases p <;> first | rfl | exact ⟨rfl, rfl⟩ | exact absurd (k _ (by decide)) hp
theorem only_cap_mesh {l : List Part} {s t : State} (h : OnlyChanges l s t) (x0 x1) (k : ∀ p ∈ [.cap, .mesh], p ∈ l) :
    OnlyChanges l s { t with cap := x0, mesh := x1 } := h.trans fun p hp => by
  cases p <;> first | rfl | exact ⟨rfl, rfl⟩ | exact absurd (k _ (by decide)) hp
theorem only_cap_watch {l : List Part} {s t : State} (h : OnlyChanges l s t) (x0 x1) (k : ∀ p ∈ [.cap, .watch], p ∈ l) :
    OnlyChanges l s { t with cap := x0, watch := x1 } := h.trans fun p hp => by
  cases p <;> first | rfl | exact ⟨rfl, rfl⟩ | exact absurd (k _ (by decide)) hp
theorem only_colls {l : List Part} {s t : State} (h : OnlyChanges l s t) (x0) (k : ∀ p ∈ [.colls], p ∈ l) :
    OnlyChanges l s { t with colls := x0 } := h.trans fun p hp => by
  cases p <;> first | rfl | exact ⟨rfl, rfl⟩ | exact absurd (k _ (by decide)) hp
theorem only_dbgUnit {l : List Part} {s t : State} (h : OnlyChanges l s t) (x0) (k : ∀ p ∈ [.dbgUnit], p ∈ l) :
    OnlyChanges l s { t with dbgUnit := x0 } := h.trans fun p hp => by
  cases p <;> first | rfl | exact ⟨rfl, rfl⟩ | exact absurd (k _ (by decide)) hp
theorem only_dbgUnit_freeCtr {l : List Part} {s t : State} (h : OnlyChanges l s t) (x0 x1) (k : ∀ p ∈ [.dbgUnit, .freeCtr], p ∈ l) :
    OnlyChanges l s { t with dbgUnit := x0, freeCtr := x1 } := h.trans fun p hp => by
  cases p <;> first | rfl | exact ⟨rfl, rfl⟩ | exact absurd (k _ (by decide)) hp
theorem only_exchanges {l : List Part} {s t : State} (h : OnlyChanges l s t) (x0) (k : ∀ p ∈ [.exchanges], p ∈ l) :
    OnlyChanges l s { t with exchanges := x0 } := h.trans fun p hp => by
  cases p <;> first | rfl | exact ⟨rfl, rfl⟩ | exact absurd (k _ (by decide)) hp
theorem only_fields {l : List Part} {s t : State} (h : OnlyChanges l s t) (x0) (k : ∀ p ∈ [.fields], p ∈ l) :
    OnlyChanges l s { t with fields := x0 } := h.trans fun p hp => by
  cases p <;> first | rfl | exact ⟨rfl, rfl⟩ | exact absurd (k _ (by decide)) hp
theorem only_fields_near_host {l : List Part} {s t : State} (h : OnlyChanges l s t) (x0 x1 x2) (k : ∀ p ∈ [.fields, .near, .host], p ∈ l) :
    OnlyChanges l s { t with fields := x0, near := x1, host := x2 } := h.trans fun p hp => by
  cases p <;> first | rfl | exact ⟨rfl, rfl⟩ | exact absurd (k _ (by decide)) hp
theorem only_fields_power {l : List Part} {s t : State} (h : OnlyChanges l s t) (x0 x1) (k : ∀ p ∈ [.fields, .power], p ∈ l) :
    OnlyChanges l s { t with fields := x0, power := x1 } := h.trans fun p hp => by
  cases p <;> first | rfl | exact ⟨rfl, rfl⟩ | exact absurd (k _ (by decide)) hp
theorem only_freeCtr {l : List Part} {s t : State} (h : OnlyChanges l s t) (x0) (k : ∀ p ∈ [.freeCtr], p ∈ l) :
    OnlyChanges l s { t with freeCtr := x0 } := h.trans fun p hp => by
  cases p <;> first | rfl | exact ⟨rfl, rfl⟩ | exact absurd (k _ (by decide)) hp
theorem only_hints {l : List Part} {s t : State} (h : OnlyChanges l s t) (x0) (k : ∀ p ∈ [.hints], p ∈ l) :
    OnlyChanges l s { t with hints := x0 } := h.trans fun p hp => by
  cases p <;> first | rfl | exact ⟨rfl, rfl⟩ | exact absurd (k _ (by decide)) hp
theorem only_host {l : List Part} {s t : State} (h : OnlyChanges l s t) (x0) (k : ∀ p ∈ [.host], p ∈ l) :
    OnlyChanges l s { t with host := x0 } := h.trans fun p hp => by
  cases p <;> first | rfl | exact ⟨rfl, rfl⟩ | exact absurd (k _ (by decide)) hp
theorem only_knots {l : List Part} {s t : State} (h : OnlyChanges l s t) (x0) (k : ∀ p ∈ [.knots], p ∈ l) :
    OnlyChanges l s { t with knots := x0 } := h.trans fun p hp => by
  cases p <;> first | rfl | exact ⟨rfl, rfl⟩ | exact absurd (k _ (by decide)) hp
theorem only_knots_mem {l : List Part} {s t : State} (h : OnlyChanges l s t) (x0 x1) (k : ∀ p ∈ [.knots, .mem], p ∈ l) :
    OnlyChanges l s { t with knots := x0, mem := x1 } := h.trans fun p hp => by
  cases p <;> first | rfl | exact ⟨rfl, rfl⟩ | exact absurd (k _ (by decide)) hp
theorem only_knots_mem_caches_near_cap_mesh {l : List Part} {s t : State} (h : OnlyChanges l s t) (x0 x1 x2 x3 x4 x5) (k : ∀ p ∈ [.knots, .mem, .caches, .near, .cap, .mesh], p ∈ l) :
    OnlyChanges l s { t with knots := x0, mem := x1, caches := x2, near := x3, cap := x4, mesh := x5 } := h.trans fun p hp => by
  cases p <;> first | rfl | exact ⟨rfl, rfl⟩ | exact absurd (k _ (by decide)) hp
theorem only_loans {l : List Part} {s t : State} (h : OnlyChanges l s t) (x0) (k : ∀ p ∈ [.loans], p ∈ l) :
    OnlyChanges l s { t with loans := x0 } := h.trans fun p hp => by
  cases p <;> first | rfl | exact ⟨rfl, rfl⟩ | exact absurd (k _ (by decide)) hp
theorem only_loans_loanNext {l : List Part} {s t : State} (h : OnlyChanges l s t) (x0 x1) (k : ∀ p ∈ [.loans], p ∈ l) :
    OnlyChanges l s { t with loans := x0, loanNext := x1 } := h.trans fun p hp => by
  cases p <;> first | rfl | exact ⟨rfl, rfl⟩ | exact absurd (k _ (by decide)) hp
theorem only_lqWindow {l : List Part} {s t : State} (h : OnlyChanges l s t) (x0) (k : ∀ p ∈ [.lqWindow], p ∈ l) :
    OnlyChanges l s { t with lqWindow := x0 } := h.trans fun p hp => by
  cases p <;> first | rfl | exact ⟨rfl, rfl⟩ | exact absurd (k _ (by decide)) hp
theorem only_mem {l : List Part} {s t : State} (h : OnlyChanges l s t) (x0) (k : ∀ p ∈ [.mem], p ∈ l) :
    OnlyChanges l s { t with mem := x0 } := h.trans fun p hp => by
  cases p <;> first | rfl | exact ⟨rfl, rfl⟩ | exact absurd (k _ (by decide)) hp
theorem only_mesh {l : List Part} {s t : State} (h : OnlyChanges l s t) (x0) (k : ∀ p ∈ [.mesh], p ∈ l) :
    OnlyChanges l s { t with mesh := x0 } := h.trans fun p hp => by
  cases p <;> first | rfl | exact ⟨rfl, rfl⟩ | exact absurd (k _ (by decide)) hp
theorem only_near {l : List Part} {s t : State} (h : OnlyChanges l s t) (x0) (k : ∀ p ∈ [.near], p ∈ l) :
    OnlyChanges l s { t with near := x0 } := h.trans fun p hp => by
  cases p <;> first | rfl | exact ⟨rfl, rfl⟩ | exact absurd (k _ (by decide)) hp
theorem only_parting {l : List Part} {s t : State} (h : OnlyChanges l s t) (x0) (k : ∀ p ∈ [.parting], p ∈ l) :
    OnlyChanges l s { t with parting := x0 } := h.trans fun p hp => by
  cases p <;> first | rfl | exact ⟨rfl, rfl⟩ | exact absurd (k _ (by decide)) hp
theorem only_parts {l : List Part} {s t : State} (h : OnlyChanges l s t) (x0) (k : ∀ p ∈ [.parts], p ∈ l) :
    OnlyChanges l s { t with parts := x0 } := h.trans fun p hp => by
  cases p <;> first | rfl | exact ⟨rfl, rfl⟩ | exact absurd (k _ (by decide)) hp
theorem only_parts_parting {l : List Part} {s t : State} (h : OnlyChanges l s t) (x0 x1) (k : ∀ p ∈ [.parts, .parting], p ∈ l) :
    OnlyChanges l s { t with parts := x0, parting := x1 } := h.trans fun p hp => by
  cases p <;> first | rfl | exact ⟨rfl, rfl⟩ | exact absurd (k _ (by decide)) hp
theorem only_parts_removed_partNext {l : List Part} {s t : State} (h : OnlyChanges l s t) (x0 x1 x2) (k : ∀ p ∈ [.parts, .removed, .parting], p ∈ l) :
    OnlyChanges l s { t with parts := x0, removed := x1, partNext := x2 } := h.trans fun p hp => by
  cases p <;> first | rfl | exact ⟨rfl, rfl⟩ | exact absurd (k _ (by decide)) hp
theorem only_pending {l : List Part} {s t : State} (h : OnlyChanges l s t) (x0) (k : ∀ p ∈ [.pending], p ∈ l) :
    OnlyChanges l s { t with pending := x0 } := h.trans fun p hp => by
  cases p <;> first | rfl | exact ⟨rfl, rfl⟩ | exact absurd (k _ (by decide)) hp
theorem only_pins {l : List Part} {s t : State} (h : OnlyChanges l s t) (x0) (k : ∀ p ∈ [.pins], p ∈ l) :
    OnlyChanges l s { t with pins := x0 } := h.trans fun p hp => by
  cases p <;> first | rfl | exact ⟨rfl, rfl⟩ | exact absurd (k _ (by decide)) hp
theorem only_plays {l : List Part} {s t : State} (h : OnlyChanges l s t) (x0) (k : ∀ p ∈ [.plays], p ∈ l) :
    OnlyChanges l s { t with plays := x0 } := h.trans fun p hp => by
  cases p <;> first | rfl | exact ⟨rfl, rfl⟩ | exact absurd (k _ (by decide)) hp
theorem only_plays_host {l : List Part} {s t : State} (h : OnlyChanges l s t) (x0 x1) (k : ∀ p ∈ [.plays, .host], p ∈ l) :
    OnlyChanges l s { t with plays := x0, host := x1 } := h.trans fun p hp => by
  cases p <;> first | rfl | exact ⟨rfl, rfl⟩ | exact absurd (k _ (by decide)) hp
theorem only_ports {l : List Part} {s t : State} (h : OnlyChanges l s t) (x0) (k : ∀ p ∈ [.ports], p ∈ l) :
    OnlyChanges l s { t with ports := x0 } := h.trans fun p hp => by
  cases p <;> first | rfl | exact ⟨rfl, rfl⟩ | exact absurd (k _ (by decide)) hp
theorem only_power {l : List Part} {s t : State} (h : OnlyChanges l s t) (x0) (k : ∀ p ∈ [.power], p ∈ l) :
    OnlyChanges l s { t with power := x0 } := h.trans fun p hp => by
  cases p <;> first | rfl | exact ⟨rfl, rfl⟩ | exact absurd (k _ (by decide)) hp
theorem only_rampQueue {l : List Part} {s t : State} (h : OnlyChanges l s t) (x0) (k : ∀ p ∈ [.ramp], p ∈ l) :
    OnlyChanges l s { t with rampQueue := x0 } := h.trans fun p hp => by
  cases p <;> first | rfl | exact ⟨rfl, rfl⟩ | exact absurd (k _ (by decide)) hp
theorem only_rampQueue_rampLast {l : List Part} {s t : State} (h : OnlyChanges l s t) (x0 x1) (k : ∀ p ∈ [.ramp], p ∈ l) :
    OnlyChanges l s { t with rampQueue := x0, rampLast := x1 } := h.trans fun p hp => by
  cases p <;> first | rfl | exact ⟨rfl, rfl⟩ | exact absurd (k _ (by decide)) hp
theorem only_regions {l : List Part} {s t : State} (h : OnlyChanges l s t) (x0) (k : ∀ p ∈ [.regions], p ∈ l) :
    OnlyChanges l s { t with regions := x0 } := h.trans fun p hp => by
  cases p <;> first | rfl | exact ⟨rfl, rfl⟩ | exact absurd (k _ (by decide)) hp
theorem only_rel {l : List Part} {s t : State} (h : OnlyChanges l s t) (x0) (k : ∀ p ∈ [.rel], p ∈ l) :
    OnlyChanges l s { t with rel := x0 } := h.trans fun p hp => by
  cases p <;> first | rfl | exact ⟨rfl, rfl⟩ | exact absurd (k _ (by decide)) hp
theorem only_sched {l : List Part} {s t : State} (h : OnlyChanges l s t) (x0) (k : ∀ p ∈ [.sched], p ∈ l) :
    OnlyChanges l s { t with sched := x0 } := h.trans fun p hp => by
  cases p <;> first | rfl | exact ⟨rfl, rfl⟩ | exact absurd (k _ (by decide)) hp
theorem only_sched_arrivals {l : List Part} {s t : State} (h : OnlyChanges l s t) (x0 x1) (k : ∀ p ∈ [.sched, .arrivals], p ∈ l) :
    OnlyChanges l s { t with sched := x0, arrivals := x1 } := h.trans fun p hp => by
  cases p <;> first | rfl | exact ⟨rfl, rfl⟩ | exact absurd (k _ (by decide)) hp
theorem only_sched_plays_barriers {l : List Part} {s t : State} (h : OnlyChanges l s t) (x0 x1 x2) (k : ∀ p ∈ [.sched, .plays, .barriers], p ∈ l) :
    OnlyChanges l s { t with sched := x0, plays := x1, barriers := x2 } := h.trans fun p hp => by
  cases p <;> first | rfl | exact ⟨rfl, rfl⟩ | exact absurd (k _ (by decide)) hp
theorem only_sched_plays_parting_loans_cap_colls_barriers_host {l : List Part} {s t : State} (h : OnlyChanges l s t) (x0 x1 x2 x3 x4 x5 x6 x7) (k : ∀ p ∈ [.sched, .plays, .parting, .loans, .cap, .colls, .barriers, .host], p ∈ l) :
    OnlyChanges l s { t with sched := x0, plays := x1, parting := x2, loans := x3, cap := x4, colls := x5, barriers := x6, host := x7 } := h.trans fun p hp => by
  cases p <;> first | rfl | exact ⟨rfl, rfl⟩ | exact absurd (k _ (by decide)) hp
theorem only_sched_snap {l : List Part} {s t : State} (h : OnlyChanges l s t) (x0 x1) (k : ∀ p ∈ [.sched, .snap], p ∈ l) :
    OnlyChanges l s { t with sched := x0, snap := x1 } := h.trans fun p hp => by
  cases p <;> first | rfl | exact ⟨rfl, rfl⟩ | exact absurd (k _ (by decide)) hp
theorem only_sets {l : List Part} {s t : State} (h : OnlyChanges l s t) (x0) (k : ∀ p ∈ [.sets], p ∈ l) :
    OnlyChanges l s { t with sets := x0 } := h.trans fun p hp => by
  cases p <;> first | rfl | exact ⟨rfl, rfl⟩ | exact absurd (k _ (by decide)) hp
theorem only_store {l : List Part} {s t : State} (h : OnlyChanges l s t) (x0) (k : ∀ p ∈ [.store], p ∈ l) :
    OnlyChanges l s { t with store := x0 } := h.trans fun p hp => by
  cases p <;> first | rfl | exact ⟨rfl, rfl⟩ | exact absurd (k _ (by decide)) hp
theorem only_watch {l : List Part} {s t : State} (h : OnlyChanges l s t) (x0) (k : ∀ p ∈ [.watch], p ∈ l) :
    OnlyChanges l s { t with watch := x0 } := h.trans fun p hp => by
  cases p <;> first | rfl | exact ⟨rfl, rfl⟩ | exact absurd (k _ (by decide)) hp
theorem only_xing {l : List Part} {s t : State} (h : OnlyChanges l s t) (x0) (k : ∀ p ∈ [.xing], p ∈ l) :
    OnlyChanges l s { t with xing := x0 } := h.trans fun p hp => by
  cases p <;> first | rfl | exact ⟨rfl, rfl⟩ | exact absurd (k _ (by decide)) hp

end Sys2Proof.Machine
end

