-- ==== Sys2Proof/Laws/FrameOps.lean ====
section
/-! SUPPORT. Frames: what each function of the operations, operands, counters, the cadence and repairs can change. -/

namespace Sys2Proof.Machine

theorem logEvent_frame (code : Nat) (origin : Nat) (unit : W32) (play : W32) (step : W32) (d : List Byte) (s : State) :
    OnlyChanges [.host] s (logEvent code origin unit play step d s) := by
  unfold logEvent
  refine OnlyChanges.ite ?_ ?_
  · extract_lets x0 x1
    clear_value x0 x1
    refine only_host ?_ _ (by decide)
    exact OnlyChanges.refl _ _
  · exact OnlyChanges.refl _ _

theorem ledgerRec_frame (cls : Nat) (action : Nat) (result : Nat) (unit : W32) (logical : W32) (play : W32) (d : List Byte) (s : State) :
    OnlyChanges [.store] s (ledgerRec cls action result unit logical play d s) := by
  unfold ledgerRec
  extract_lets x0 x1
  clear_value x0 x1
  refine only_store ?_ _ (by decide)
  exact OnlyChanges.refl _ _

theorem journalRecord_frame (s : State) :
    OnlyChanges [.rel] s (journalRecord s) := by
  unfold journalRecord
  refine OnlyChanges.ite ?_ ?_
  · refine only_rel ?_ _ (by decide)
    exact OnlyChanges.refl _ _
  · exact OnlyChanges.refl _ _

theorem xingNote_frame (play : W32) (src : Nat) (dst : Nat) (timeout : Bool) (s : State) :
    OnlyChanges [.xing, .store] s (xingNote play src dst timeout s) := by
  unfold xingNote
  extract_lets x0 x1 x2
  clear_value x0 x1 x2
  refine OnlyChanges.step ?_ (ledgerRec_frame _ _ _ _ _ _ _ _) (by decide)
  refine only_xing ?_ _ (by decide)
  exact OnlyChanges.refl _ _

theorem sendMsi_frame (port : Nat) (v : Byte) (s : State) :
    OnlyChanges [.host, .xing, .store] s (sendMsi port v s) := by
  unfold sendMsi
  extract_lets x0 x1 x2
  clear_value x0 x1 x2
  refine OnlyChanges.ite ?_ ?_
  · exact OnlyChanges.refl _ _
  · refine OnlyChanges.ite ?_ ?_
    · refine only_host ?_ _ (by decide)
      exact OnlyChanges.refl _ _
    · refine OnlyChanges.ite ?_ ?_
      · refine only_host ?_ _ (by decide)
        exact OnlyChanges.refl _ _
      · refine OnlyChanges.ite ?_ ?_
        · refine only_xing ?_ _ (by decide)
          exact OnlyChanges.refl _ _
        · refine OnlyChanges.step ?_ (logEvent_frame _ _ _ _ _ _ _) (by decide)
          refine OnlyChanges.step ?_ (xingNote_frame _ _ _ _ _) (by decide)
          exact OnlyChanges.refl _ _

theorem postFull_frame (code : Nat) (origin : Nat) (unit : W32) (play : W32) (step : W32) (d : List Byte) (s : State) :
    OnlyChanges [.host, .xing, .store] s (postFull code origin unit play step d s) := by
  unfold postFull
  extract_lets x0 x1
  have h2 : OnlyChanges [.host, .xing, .store] s x0 := by
    unfold x0
    refine OnlyChanges.step ?_ (logEvent_frame _ _ _ _ _ _ _) (by decide)
    exact OnlyChanges.refl _ _
  clear_value x0 x1
  refine OnlyChanges.ite ?_ ?_
  · refine OnlyChanges.step ?_ (sendMsi_frame _ _ _) (by decide)
    refine only_host ?_ _ (by decide)
    assumption
  · assumption

theorem record_frame (cls : Nat) (action : Nat) (result : Nat) (origin : Nat) (unit : W32) (logical : W32) (play : W32) (step : W32) (d : List Byte)
    (s : State) :
    OnlyChanges [.host, .xing, .store] s (record cls action result origin unit logical play step d s) := by
  unfold record
  extract_lets x0
  have h1 : OnlyChanges [.host, .xing, .store] s x0 := by
    unfold x0
    split
    · rename_i v2 v3 v4
      refine OnlyChanges.step ?_ (postFull_frame _ _ _ _ _ _ _) (by decide)
      exact OnlyChanges.refl _ _
    · rename_i v5 v6
      exact OnlyChanges.refl _ _
  clear_value x0
  refine OnlyChanges.step ?_ (ledgerRec_frame _ _ _ _ _ _ _ _) (by decide)
  assumption

theorem post_frame (code : Nat) (d : List Byte) (s : State) :
    OnlyChanges [.host, .xing, .store] s (post code d s) := by
  unfold post
  refine OnlyChanges.step ?_ (postFull_frame _ _ _ _ _ _ _) (by decide)
  exact OnlyChanges.refl _ _

theorem replyTo_frame (queue : Nat) (seq : W32) (opc : Nat) (origin : Nat) (notify : Bool) (st : BitVec 16) (d : W64) (s : State) :
    OnlyChanges [.host] s (replyTo queue seq opc origin notify st d s) := by
  unfold replyTo
  extract_lets x0 x1
  clear_value x0 x1
  refine only_host ?_ _ (by decide)
  exact OnlyChanges.refl _ _

theorem markReplied_frame (tag : Nat) (s : State) :
    OnlyChanges [.cap] s (markReplied tag s) := by
  unfold markReplied
  refine only_cap ?_ _ (by decide)
  exact OnlyChanges.refl _ _

theorem stepReply_frame (tag : Nat) (queue : Nat) (seq : W32) (opc : Nat) (origin : Nat) (notify : Bool) (play : W32) (step : W32) (st : BitVec 16)
    (d : W64) (s : State) :
    OnlyChanges [.cap, .host, .xing, .store] s (stepReply tag queue seq opc origin notify play step st d s) := by
  unfold stepReply
  refine OnlyChanges.ite ?_ ?_
  · refine OnlyChanges.step ?_ (postFull_frame _ _ _ _ _ _ _) (by decide)
    exact OnlyChanges.refl _ _
  · refine OnlyChanges.step ?_ (replyTo_frame _ _ _ _ _ _ _ _) (by decide)
    refine OnlyChanges.step ?_ (markReplied_frame _ _) (by decide)
    exact OnlyChanges.refl _ _

theorem reply_frame (p : Packet) (st : BitVec 16) (d : W64) (s : State) :
    OnlyChanges [.cap, .host, .xing, .store] s (reply p st d s) := by
  unfold reply
  refine OnlyChanges.ite ?_ ?_
  · refine OnlyChanges.step ?_ (stepReply_frame _ _ _ _ _ _ _ _ _ _ _) (by decide)
    exact OnlyChanges.refl _ _
  · refine OnlyChanges.step ?_ (replyTo_frame _ _ _ _ _ _ _ _) (by decide)
    exact OnlyChanges.refl _ _

theorem refuse_frame (p : Packet) (st : BitVec 16) (s : State) :
    OnlyChanges [.cap, .host, .xing, .store] s (refuse p st s) := by
  unfold refuse
  refine OnlyChanges.step ?_ (reply_frame _ _ _ _) (by decide)
  exact OnlyChanges.refl _ _

theorem accept_frame (p : Packet) (s : State) :
    OnlyChanges [.cap, .host, .xing, .store] s (accept p s) := by
  unfold accept
  refine OnlyChanges.step ?_ (reply_frame _ _ _ _) (by decide)
  exact OnlyChanges.refl _ _

theorem hostWrite_frame (port : Nat) (a : Nat) (l : List Byte) (s : State) :
    OnlyChanges [.host] s (hostWrite port a l s) := by
  induction l generalizing port a s
  · unfold hostWrite
    exact OnlyChanges.refl _ _
  · rename_i w0 w1 ih
    unfold hostWrite
    extract_lets x2 x3
    have h4 : OnlyChanges [.host] s x3 := by
      unfold x3
      refine OnlyChanges.ite ?_ ?_
      · refine only_host ?_ _ (by decide)
        exact OnlyChanges.refl _ _
      · refine only_host ?_ _ (by decide)
        exact OnlyChanges.refl _ _
    clear_value x2 x3
    refine OnlyChanges.step ?_ (ih _ _ _) (by decide)
    assumption

theorem writeByte_frame (a : Nat) (v : Byte) (s : State) :
    OnlyChanges [.mem] s (writeByte a v s) := by
  unfold writeByte
  split
  · rename_i v0 v1 v2
    refine only_mem ?_ _ (by decide)
    exact OnlyChanges.refl _ _
  · rename_i v3 v4
    exact OnlyChanges.refl _ _

theorem writeBytes_frame (a : Nat) (a' : List Byte) (a'' : State) :
    OnlyChanges [.mem] a'' (writeBytes a a' a'') := by
  induction a' generalizing a a''
  · unfold writeBytes
    exact OnlyChanges.refl _ _
  · rename_i w0 w1 ih
    unfold writeBytes
    refine OnlyChanges.step ?_ (ih _ _) (by decide)
    refine OnlyChanges.step ?_ (writeByte_frame _ _ _) (by decide)
    exact OnlyChanges.refl _ _

theorem writeN_frame (a : Nat) (n : Nat) (x : Nat) (s : State) :
    OnlyChanges [.mem] s (writeN a n x s) := by
  unfold writeN
  refine OnlyChanges.step ?_ (writeBytes_frame _ _ _) (by decide)
  exact OnlyChanges.refl _ _

theorem unpoison_frame (a : Nat) (n : Nat) (s : State) :
    OnlyChanges [.near] s (unpoison a n s) := by
  unfold unpoison
  split
  · rename_i v0 v1 v2
    refine only_near ?_ _ (by decide)
    exact OnlyChanges.refl _ _
  · rename_i v3 v4
    exact OnlyChanges.refl _ _

theorem nearWriteFor_frame (origin : Nat) (a : Nat) (l : List Byte) (a' : Nat) (a'' : State) :
    OnlyChanges [.host, .xing, .store, .mem, .near] a'' (nearWriteFor origin a l a' a'') := by
  induction a' generalizing origin a l a''
  · unfold nearWriteFor
    exact OnlyChanges.refl _ _
  · rename_i w0 ih
    unfold nearWriteFor
    refine OnlyChanges.ite ?_ ?_
    · exact OnlyChanges.refl _ _
    · extract_lets x1 x2 x3
      have h4 : OnlyChanges [.host, .xing, .store, .mem, .near] a'' x3 := by
        unfold x3
        refine OnlyChanges.ite ?_ ?_
        · refine OnlyChanges.step ?_ (postFull_frame _ _ _ _ _ _ _) (by decide)
          exact OnlyChanges.refl _ _
        · refine OnlyChanges.step ?_ (writeBytes_frame _ _ _) (by decide)
          refine OnlyChanges.step ?_ (unpoison_frame _ _ _) (by decide)
          exact OnlyChanges.refl _ _
      clear_value x1 x2 x3
      refine OnlyChanges.step ?_ (ih _ _ _ _) (by decide)
      assumption

theorem nearWrite_frame (a : Nat) (l : List Byte) (n : Nat) (s : State) :
    OnlyChanges [.host, .xing, .store, .mem, .near] s (nearWrite a l n s) := by
  unfold nearWrite
  refine OnlyChanges.step ?_ (nearWriteFor_frame _ _ _ _ _) (by decide)
  exact OnlyChanges.refl _ _

theorem destWrite_frame (origin : Nat) (a : Nat) (l : List Byte) (s : State) :
    OnlyChanges [.host, .xing, .store, .mem, .near] s (destWrite origin a l s) := by
  unfold destWrite
  split
  · rename_i v0 v1
    refine OnlyChanges.step ?_ (hostWrite_frame _ _ _ _) (by decide)
    exact OnlyChanges.refl _ _
  · rename_i v2 v3
    refine OnlyChanges.step ?_ (hostWrite_frame _ _ _ _) (by decide)
    exact OnlyChanges.refl _ _
  · rename_i v4 v5 v6
    refine OnlyChanges.step ?_ (nearWriteFor_frame _ _ _ _ _) (by decide)
    exact OnlyChanges.refl _ _

theorem faultStep_frame (step : W32) (s : State) :
    OnlyChanges [.cap] s (faultStep step s) := by
  unfold faultStep
  refine OnlyChanges.ite ?_ ?_
  · refine only_cap ?_ _ (by decide)
    exact OnlyChanges.refl _ _
  · exact OnlyChanges.refl _ _

theorem setPart_frame (p : Machine.Partition) (s : State) :
    OnlyChanges [.parts] s (setPart p s) := by
  unfold setPart
  refine only_parts ?_ _ (by decide)
  exact OnlyChanges.refl _ _

theorem setPlay_frame (p : Play) (s : State) :
    OnlyChanges [.plays] s (setPlay p s) := by
  unfold setPlay
  refine only_plays ?_ _ (by decide)
  exact OnlyChanges.refl _ _

theorem dropPlay_frame (order : Nat) (s : State) :
    OnlyChanges [.plays] s (dropPlay order s) := by
  unfold dropPlay
  refine only_plays ?_ _ (by decide)
  exact OnlyChanges.refl _ _

theorem setField_frame (f : Nat) (x : Machine.Field) (s : State) :
    OnlyChanges [.fields] s (setField f x s) := by
  unfold setField
  refine only_fields ?_ _ (by decide)
  exact OnlyChanges.refl _ _

theorem adjField_frame (f : Nat) (g : Machine.Field → Machine.Field) (s : State) :
    OnlyChanges [.fields] s (adjField f g s) := by
  unfold adjField
  refine OnlyChanges.step ?_ (setField_frame _ _ _) (by decide)
  exact OnlyChanges.refl _ _

theorem setKnot_frame (key : Nat) (v : W32) (s : State) :
    OnlyChanges [.knots] s (setKnot key v s) := by
  unfold setKnot
  refine only_knots ?_ _ (by decide)
  exact OnlyChanges.refl _ _

theorem addKnot_frame (key : Nat) (v : W32) (s : State) :
    OnlyChanges [.knots] s (addKnot key v s) := by
  unfold addKnot
  refine OnlyChanges.step ?_ (setKnot_frame _ _ _) (by decide)
  exact OnlyChanges.refl _ _

theorem draw_frame (s : State) :
    sndAll (OnlyChanges [.freeCtr] s) (draw s) := by
  unfold draw
  refine sndAll_mk ?_
  refine only_freeCtr ?_ _ (by decide)
  exact OnlyChanges.refl _ _

theorem freeBytes_frame (a : Nat) (n : Nat) (s : State) :
    OnlyChanges [.freeCtr, .mem] s (freeBytes a n s) := by
  unfold freeBytes
  refine OnlyChanges.step ?_ (writeBytes_frame _ _ _) (by decide)
  refine only_freeCtr ?_ _ (by decide)
  exact OnlyChanges.refl _ _

theorem freeHost_frame (port : Nat) (a : Nat) (n : Nat) (s : State) :
    OnlyChanges [.host, .freeCtr] s (freeHost port a n s) := by
  unfold freeHost
  refine OnlyChanges.step ?_ (hostWrite_frame _ _ _ _) (by decide)
  refine only_freeCtr ?_ _ (by decide)
  exact OnlyChanges.refl _ _

theorem xingRecordFor_frame (origin : Nat) (play : W32) (step : W32) (src : Nat) (dst : Nat) (timeout : Bool) (s : State) :
    OnlyChanges [.host, .xing, .store] s (xingRecordFor origin play step src dst timeout s) := by
  unfold xingRecordFor
  refine OnlyChanges.step ?_ (postFull_frame _ _ _ _ _ _ _) (by decide)
  refine OnlyChanges.step ?_ (xingNote_frame _ _ _ _ _) (by decide)
  exact OnlyChanges.refl _ _

theorem xingRecord_frame (src : Nat) (dst : Nat) (timeout : Bool) (s : State) :
    OnlyChanges [.host, .xing, .store] s (xingRecord src dst timeout s) := by
  unfold xingRecord
  refine OnlyChanges.step ?_ (xingRecordFor_frame _ _ _ _ _ _ _) (by decide)
  exact OnlyChanges.refl _ _

theorem dropLines_frame (f : Nat → Nat → Bool) (s : State) :
    OnlyChanges [.caches] s (dropLines f s) := by
  unfold dropLines
  refine only_caches ?_ _ (by decide)
  exact OnlyChanges.refl _ _

theorem sqSetBits_frame (base : Nat) (c : Nat) (i : Nat) (j : Nat) (v : Nat) (s : State) :
    OnlyChanges [.mem] s (sqSetBits base c i j v s) := by
  unfold sqSetBits
  split
  · rename_i v0 v1 v2 v3
    extract_lets x4 x5
    clear_value x4 x5
    refine OnlyChanges.step ?_ (writeN_frame _ _ _ _) (by decide)
    exact OnlyChanges.refl _ _

theorem busWrite_frame (a : Nat) (l : List Byte) (s : State) :
    OnlyChanges [.host, .xing, .store, .mem, .near] s (busWrite a l s) := by
  unfold busWrite
  refine OnlyChanges.ite ?_ ?_
  · refine OnlyChanges.step ?_ (nearWrite_frame _ _ _ _) (by decide)
    exact OnlyChanges.refl _ _
  · refine OnlyChanges.step ?_ (writeBytes_frame _ _ _) (by decide)
    exact OnlyChanges.refl _ _

theorem sqWriteLine_frame (base : Nat) (c : Nat) (i : Nat) (el : List Nat) (s : State) :
    OnlyChanges [.host, .xing, .store, .mem, .near] s (sqWriteLine base c i el s) := by
  unfold sqWriteLine
  extract_lets x0 x1
  clear_value x0 x1
  refine OnlyChanges.step ?_ (busWrite_frame _ _ _) (by decide)
  exact OnlyChanges.refl _ _

theorem padBody_frame (base : Nat) (c : Nat) (i : Nat) (s : State) :
    OnlyChanges [.host, .xing, .store, .mem, .near] s (padBody base c i s) := by
  unfold padBody
  refine OnlyChanges.step ?_ (busWrite_frame _ _ _) (by decide)
  exact OnlyChanges.refl _ _

theorem padLines_frame (base : Nat) (c : Nat) (i : Nat) (s : State) :
    OnlyChanges [.host, .xing, .store, .mem, .near] s (padLines base c i s) := by
  unfold padLines
  extract_lets x0
  have h1 : OnlyChanges [.host, .xing, .store, .mem, .near] s x0 := by
    unfold x0
    refine OnlyChanges.step ?_ (padBody_frame _ _ _ _) (by decide)
    exact OnlyChanges.refl _ _
  clear_value x0
  refine OnlyChanges.ite ?_ ?_
  · refine OnlyChanges.step ?_ (busWrite_frame _ _ _) (by decide)
    assumption
  · assumption

theorem sqWriteCol_frame (base : Nat) (c : Nat) (j : Nat) (el : List Nat) (s : State) :
    OnlyChanges [.mem] s (sqWriteCol base c j el s) := by
  unfold sqWriteCol
  refine OnlyChanges.fold ?_ (fun u0 y1 h2 => ?_)
  · exact OnlyChanges.refl _ _
  · refine OnlyChanges.step ?_ (sqSetBits_frame _ _ _ _ _ _) (by decide)
    assumption

theorem sqWriteDesc_frame (base : Nat) (c : Nat) (axis : Nat) (scale : W32) (amax : W32) (s : State) :
    OnlyChanges [.host, .xing, .store, .mem, .near] s (sqWriteDesc base c axis scale amax s) := by
  unfold sqWriteDesc
  refine OnlyChanges.step ?_ (busWrite_frame _ _ _) (by decide)
  exact OnlyChanges.refl _ _

theorem setSlot_frame (n : Nat) (x : Slot) (s : State) :
    OnlyChanges [.watch] s (setSlot n x s) := by
  unfold setSlot
  refine only_watch ?_ _ (by decide)
  exact OnlyChanges.refl _ _

theorem countConv_frame (sid : W32) (step : W32) (k : Counts) (s : State) :
    OnlyChanges [.watch] s (countConv sid step k s) := by
  unfold countConv
  extract_lets x0 x1 x2
  clear_value x0 x1 x2
  refine OnlyChanges.step ?_ (setSlot_frame _ _ _) (by decide)
  exact OnlyChanges.refl _ _

theorem mapSlots_frame (f : Slot → Slot) (s : State) :
    OnlyChanges [.watch] s (mapSlots f s) := by
  unfold mapSlots
  refine only_watch ?_ _ (by decide)
  exact OnlyChanges.refl _ _

theorem closeCounts_frame (s : State) :
    OnlyChanges [.watch] s (closeCounts s) := by
  unfold closeCounts
  refine OnlyChanges.step ?_ (mapSlots_frame _ _) (by decide)
  exact OnlyChanges.refl _ _

theorem dropOpen_frame (s : State) :
    OnlyChanges [.watch] s (dropOpen s) := by
  unfold dropOpen
  refine OnlyChanges.step ?_ (mapSlots_frame _ _) (by decide)
  exact OnlyChanges.refl _ _

theorem dropBoth_frame (s : State) :
    OnlyChanges [.watch] s (dropBoth s) := by
  unfold dropBoth
  refine OnlyChanges.step ?_ (mapSlots_frame _ _) (by decide)
  exact OnlyChanges.refl _ _

theorem postStep_frame (code : Nat) (step : W32) (d : List Byte) (s : State) :
    OnlyChanges [.host, .xing, .store] s (postStep code step d s) := by
  unfold postStep
  refine OnlyChanges.step ?_ (postFull_frame _ _ _ _ _ _ _) (by decide)
  exact OnlyChanges.refl _ _

theorem evalSlot_frame (step : W32) (vetoed : Bool) (s : State) (n : Nat) :
    OnlyChanges [.watch, .host, .xing, .store] s (evalSlot step vetoed s n) := by
  unfold evalSlot
  extract_lets x0 x1 x2 x3 x4 x5 x6 x7 x8 x9 x10 x11
  have h12 : OnlyChanges [.watch, .host, .xing, .store] s x7 := by
    unfold x7
    refine OnlyChanges.step ?_ (setSlot_frame _ _ _) (by decide)
    exact OnlyChanges.refl _ _
  have h13 : OnlyChanges [.watch, .host, .xing, .store] s x9 := by
    unfold x9
    refine OnlyChanges.ite ?_ ?_
    · refine OnlyChanges.step ?_ (postStep_frame _ _ _ _) (by decide)
      assumption
    · assumption
  have h14 : OnlyChanges [.watch, .host, .xing, .store] s x10 := by
    unfold x10
    refine OnlyChanges.ite ?_ ?_
    · refine OnlyChanges.step ?_ (postStep_frame _ _ _ _) (by decide)
      assumption
    · assumption
  have h15 : OnlyChanges [.watch, .host, .xing, .store] s x11 := by
    unfold x11
    refine OnlyChanges.ite ?_ ?_
    · refine OnlyChanges.step ?_ (postStep_frame _ _ _ _) (by decide)
      assumption
    · assumption
  clear_value x0 x1 x2 x3 x4 x5 x6 x7 x8 x9 x10 x11
  refine OnlyChanges.ite ?_ ?_
  · refine OnlyChanges.ite ?_ ?_
    · refine OnlyChanges.step ?_ (postStep_frame _ _ _ _) (by decide)
      assumption
    · assumption
  · assumption

theorem evalEntry_frame (step : W32) (vetoed : Bool) (groups : Table Machine.Group) (s : State) (n : Nat) :
    OnlyChanges [.cap, .host, .xing, .store] s (evalEntry step vetoed groups s n) := by
  unfold evalEntry
  split
  · rename_i v0 v1
    exact OnlyChanges.refl _ _
  · rename_i v2 v3 v4
    extract_lets x5 x6 x7 x8 x9
    have h10 : OnlyChanges [.cap, .host, .xing, .store] s x5 := by
      unfold x5
      refine OnlyChanges.ite ?_ ?_
      · refine OnlyChanges.step ?_ (postStep_frame _ _ _ _) (by decide)
        exact OnlyChanges.refl _ _
      · exact OnlyChanges.refl _ _
    have h11 : OnlyChanges [.cap, .host, .xing, .store] s x9 := by
      unfold x9
      refine only_cap ?_ _ (by decide)
      assumption
    clear_value x5 x6 x7 x8 x9
    refine OnlyChanges.ite ?_ ?_
    · assumption
    · refine OnlyChanges.ite ?_ ?_
      · refine OnlyChanges.step ?_ (postStep_frame _ _ _ _) (by decide)
        assumption
      · assumption

theorem evaluate_frame (step : W32) (vetoed : Bool) (groups : Table Machine.Group) (s : State) :
    OnlyChanges [.cap, .watch, .host, .xing, .store] s (evaluate step vetoed groups s) := by
  unfold evaluate
  extract_lets x0 x1
  have h2 : OnlyChanges [.cap, .watch, .host, .xing, .store] s x1 := by
    unfold x1
    refine OnlyChanges.fold ?_ (fun u3 y4 h5 => ?_)
    · exact OnlyChanges.refl _ _
    · refine OnlyChanges.step ?_ (evalSlot_frame _ _ _ _) (by decide)
      assumption
  clear_value x0 x1
  refine OnlyChanges.fold ?_ (fun u6 y7 h8 => ?_)
  · assumption
  · refine OnlyChanges.step ?_ (evalEntry_frame _ _ _ _ _) (by decide)
    assumption

theorem slotAudit_frame (sid : W32) (rho : W32) (isOver : Bool) (s : State) :
    OnlyChanges [.watch, .freeCtr] s (slotAudit sid rho isOver s) := by
  unfold slotAudit
  extract_lets x0 x1
  clear_value x0 x1
  split
  · rename_i v2 v3 v4 v5
    refine absorb (P := sndAll (OnlyChanges [.watch, .freeCtr] s)) v5 ?_ (fun q6 => ?_)
    · split
      · rename_i v7
        refine OnlyChanges.stepSnd ?_ (draw_frame _) (by decide)
        exact OnlyChanges.refl _ _
      · rename_i v8
        refine sndAll_mk ?_
        exact OnlyChanges.refl _ _
    extract_lets x9
    clear_value x9
    refine OnlyChanges.step ?_ (setSlot_frame _ _ _) (by decide)
    assumption

theorem setCad_frame (c : Cad) (s : State) :
    OnlyChanges [.cad] s (setCad c s) := by
  unfold setCad
  refine only_cad ?_ _ (by decide)
  exact OnlyChanges.refl _ _

theorem followCad_frame (s : State) :
    OnlyChanges [.rel] s (followCad s) := by
  unfold followCad
  refine OnlyChanges.ite ?_ ?_
  · refine only_rel ?_ _ (by decide)
    exact OnlyChanges.refl _ _
  · exact OnlyChanges.refl _ _

theorem execTurnStamp_frame (at38 : Bool) (at58 : Bool) (s : State) :
    outAll (OnlyChanges [.cad, .rel] s) (execTurnStamp at38 at58 s) := by
  unfold execTurnStamp
  split
  · rename_i v0
    change OnlyChanges [.cad, .rel] s _
    refine OnlyChanges.step ?_ (followCad_frame _) (by decide)
    refine OnlyChanges.step ?_ (setCad_frame _ _) (by decide)
    exact OnlyChanges.refl _ _
  · rename_i v1
    change OnlyChanges [.cad, .rel] s _
    exact OnlyChanges.refl _ _

theorem beatTick_frame (n : Nat) (s : State) :
    OnlyChanges [.snap, .ports, .fields, .host, .sched, .cad] s (beatTick n s) := by
  unfold beatTick
  extract_lets x0 x1 x2 x3 x4
  have h5 : OnlyChanges [.snap, .ports, .fields, .host, .sched, .cad] s x1 := by
    unfold x1
    refine only_host ?_ _ (by decide)
    exact OnlyChanges.refl _ _
  have h6 : OnlyChanges [.snap, .ports, .fields, .host, .sched, .cad] s x2 := by
    unfold x2
    refine only_fields ?_ _ (by decide)
    assumption
  have h7 : OnlyChanges [.snap, .ports, .fields, .host, .sched, .cad] s x3 := by
    unfold x3
    refine only_ports ?_ _ (by decide)
    assumption
  have h8 : OnlyChanges [.snap, .ports, .fields, .host, .sched, .cad] s x4 := by
    unfold x4
    refine only_cad ?_ _ (by decide)
    assumption
  clear_value x0 x1 x2 x3 x4
  refine OnlyChanges.ite ?_ ?_
  · assumption
  · refine only_sched_snap ?_ _ _ (by decide)
    assumption

theorem ownBeats_frame (t : CtWord) (s : State) :
    OnlyChanges [.snap, .ports, .fields, .host, .sched, .cad] s (ownBeats t s) := by
  unfold ownBeats
  extract_lets x0 x1
  have h2 : OnlyChanges [.snap, .ports, .fields, .host, .sched, .cad] s x0 := by
    unfold x0
    refine OnlyChanges.fold ?_ (fun u3 y4 h5 => ?_)
    · exact OnlyChanges.refl _ _
    · refine OnlyChanges.step ?_ (beatTick_frame _ _) (by decide)
      refine OnlyChanges.step ?_ (setCad_frame _ _) (by decide)
      assumption
  clear_value x0 x1
  refine OnlyChanges.step ?_ (setCad_frame _ _) (by decide)
  assumption

theorem realign_frame (r : CtWord) (wo : CtWord) (periodPs : Nat) (s : State) :
    OnlyChanges [.snap, .ports, .fields, .host, .sched, .xing, .store, .cad] s (realign r wo periodPs s) := by
  unfold realign
  extract_lets x0 x1 x2 x3 x4 x5 x6
  have h7 : OnlyChanges [.snap, .ports, .fields, .host, .sched, .xing, .store, .cad] s x4 := by
    unfold x4
    refine OnlyChanges.step ?_ (ownBeats_frame _ _) (by decide)
    refine OnlyChanges.step ?_ (setCad_frame _ _) (by decide)
    exact OnlyChanges.refl _ _
  clear_value x0 x1 x2 x3 x4 x5 x6
  refine OnlyChanges.ite ?_ ?_
  · refine OnlyChanges.step ?_ (setCad_frame _ _) (by decide)
    assumption
  · refine OnlyChanges.step ?_ (post_frame _ _ _) (by decide)
    refine OnlyChanges.step ?_ (setCad_frame _ _) (by decide)
    exact OnlyChanges.refl _ _

theorem acceptEdge_frame (frac : BitVec 16) (periodPs : Nat) (y : Machine.Symbol) (s : State) :
    OnlyChanges [.snap, .ports, .fields, .host, .sched, .xing, .store, .cad] s (acceptEdge frac periodPs y s) := by
  unfold acceptEdge
  extract_lets x0 x1 x2 x3 x4 x5 x6 x7 x8 x9 x10
  have h11 : OnlyChanges [.snap, .ports, .fields, .host, .sched, .xing, .store, .cad] s x7 := by
    unfold x7
    refine OnlyChanges.step ?_ (ownBeats_frame _ _) (by decide)
    refine OnlyChanges.step ?_ (setCad_frame _ _) (by decide)
    exact OnlyChanges.refl _ _
  clear_value x0 x1 x2 x3 x4 x5 x6 x7 x8 x9 x10
  split
  · rename_i v12 v13
    exact OnlyChanges.refl _ _
  · rename_i v14 v15
    refine OnlyChanges.step ?_ (setCad_frame _ _) (by decide)
    exact OnlyChanges.refl _ _
  · rename_i v16 v17
    refine OnlyChanges.ite ?_ ?_
    · refine OnlyChanges.step ?_ (setCad_frame _ _) (by decide)
      exact OnlyChanges.refl _ _
    · refine OnlyChanges.ite ?_ ?_
      · refine OnlyChanges.step ?_ (setCad_frame _ _) (by decide)
        exact OnlyChanges.refl _ _
      · refine OnlyChanges.step ?_ (beatTick_frame _ _) (by decide)
        refine OnlyChanges.step ?_ (setCad_frame _ _) (by decide)
        exact OnlyChanges.refl _ _
  · rename_i v18 v19
    refine OnlyChanges.ite ?_ ?_
    · refine OnlyChanges.step ?_ (setCad_frame _ _) (by decide)
      exact OnlyChanges.refl _ _
    · refine OnlyChanges.ite ?_ ?_
      · refine OnlyChanges.step ?_ (setCad_frame _ _) (by decide)
        exact OnlyChanges.refl _ _
      · refine OnlyChanges.step ?_ (realign_frame _ _ _ _) (by decide)
        refine OnlyChanges.step ?_ (setCad_frame _ _) (by decide)
        exact OnlyChanges.refl _ _
  · rename_i v20 v21
    refine OnlyChanges.step ?_ (beatTick_frame _ _) (by decide)
    refine OnlyChanges.step ?_ (setCad_frame _ _) (by decide)
    exact OnlyChanges.refl _ _
  · rename_i v22 v23
    refine OnlyChanges.step ?_ (setCad_frame _ _) (by decide)
    assumption

theorem tick_frame (s : State) :
    OnlyChanges [.cad] s (tick s) := by
  unfold tick
  refine OnlyChanges.ite ?_ ?_
  · refine OnlyChanges.step ?_ (setCad_frame _ _) (by decide)
    exact OnlyChanges.refl _ _
  · exact OnlyChanges.refl _ _

theorem missEdge_frame (y : Machine.Symbol) (s : State) :
    OnlyChanges [.cad] s (missEdge y s) := by
  unfold missEdge
  extract_lets x0 x1
  clear_value x0 x1
  split
  · rename_i v2 v3
    exact OnlyChanges.refl _ _
  · rename_i v4 v5
    refine OnlyChanges.step ?_ (setCad_frame _ _) (by decide)
    exact OnlyChanges.refl _ _
  · rename_i v6 v7
    refine OnlyChanges.step ?_ (setCad_frame _ _) (by decide)
    exact OnlyChanges.refl _ _
  · rename_i v8 v9
    refine OnlyChanges.step ?_ (setCad_frame _ _) (by decide)
    exact OnlyChanges.refl _ _
  · rename_i v10 v11
    refine OnlyChanges.step ?_ (setCad_frame _ _) (by decide)
    exact OnlyChanges.refl _ _
  · rename_i v12 v13
    refine OnlyChanges.step ?_ (setCad_frame _ _) (by decide)
    exact OnlyChanges.refl _ _

theorem ownEdge_frame (s : State) :
    OnlyChanges [.snap, .ports, .fields, .host, .sched, .cad] s (ownEdge s) := by
  unfold ownEdge
  extract_lets x0 x1
  clear_value x0 x1
  split
  · rename_i v2 v3
    refine OnlyChanges.step ?_ (beatTick_frame _ _) (by decide)
    refine OnlyChanges.step ?_ (setCad_frame _ _) (by decide)
    exact OnlyChanges.refl _ _
  · rename_i v4 v5
    refine OnlyChanges.step ?_ (beatTick_frame _ _) (by decide)
    refine OnlyChanges.step ?_ (setCad_frame _ _) (by decide)
    exact OnlyChanges.refl _ _
  · rename_i v6 v7
    refine OnlyChanges.ite ?_ ?_
    · refine OnlyChanges.step ?_ (beatTick_frame _ _) (by decide)
      refine OnlyChanges.step ?_ (setCad_frame _ _) (by decide)
      exact OnlyChanges.refl _ _
    · exact OnlyChanges.refl _ _
  · rename_i v8 v9 v10 v11
    exact OnlyChanges.refl _ _

theorem pulseRouters_frame (stuck : List Nat) (s : State) :
    OnlyChanges [.host, .xing, .store] s (pulseRouters stuck s) := by
  unfold pulseRouters
  extract_lets x0 x1 x2 x3 x4 x5 x6
  have h7 : OnlyChanges [.host, .xing, .store] s x2 := by
    unfold x2
    refine OnlyChanges.fold ?_ (fun u8 y9 h10 => ?_)
    · exact OnlyChanges.refl _ _
    · refine OnlyChanges.step ?_ (xingRecord_frame _ _ _ _) (by decide)
      assumption
  have h11 : OnlyChanges [.host, .xing, .store] s x6 := by
    unfold x6
    refine only_xing ?_ _ (by decide)
    assumption
  clear_value x0 x1 x2 x3 x4 x5 x6
  refine OnlyChanges.ite ?_ ?_
  · assumption
  · refine OnlyChanges.fold ?_ (fun u12 y13 h14 => ?_)
    · assumption
    · refine OnlyChanges.step ?_ (sendMsi_frame _ _ _) (by decide)
      assumption

theorem heartbeats_frame (stuck : List Nat) (s : State) :
    OnlyChanges [.rel] s (heartbeats stuck s) := by
  unfold heartbeats
  refine OnlyChanges.ite ?_ ?_
  · exact OnlyChanges.refl _ _
  · extract_lets x0 x1
    clear_value x0 x1
    refine only_rel ?_ _ (by decide)
    exact OnlyChanges.refl _ _

theorem beatEdge_frame (b : BeatSignal) (stuck : List Nat) (s : State) :
    OnlyChanges [.snap, .ports, .fields, .host, .sched, .xing, .store, .cad, .rel] s (beatEdge b stuck s) := by
  unfold beatEdge
  extract_lets x0 x1 x2 x3
  have h4 : OnlyChanges [.snap, .ports, .fields, .host, .sched, .xing, .store, .cad, .rel] s x2 := by
    unfold x2
    refine OnlyChanges.step ?_ (setCad_frame _ _) (by decide)
    exact OnlyChanges.refl _ _
  have h5 : OnlyChanges [.snap, .ports, .fields, .host, .sched, .xing, .store, .cad, .rel] s x3 := by
    unfold x3
    split
    · rename_i v6
      refine OnlyChanges.step ?_ (ownEdge_frame _) (by decide)
      assumption
    · rename_i v7 v8 v9
      refine OnlyChanges.step ?_ (missEdge_frame _ _) (by decide)
      assumption
    · rename_i v10 v11 v12 v13 v14 v15
      refine OnlyChanges.ite ?_ ?_
      · assumption
      · refine OnlyChanges.step ?_ (acceptEdge_frame _ _ _ _) (by decide)
        assumption
  clear_value x0 x1 x2 x3
  refine OnlyChanges.ite ?_ ?_
  · refine OnlyChanges.step ?_ (followCad_frame _) (by decide)
    assumption
  · refine OnlyChanges.step ?_ (followCad_frame _) (by decide)
    refine OnlyChanges.step ?_ (heartbeats_frame _ _) (by decide)
    refine OnlyChanges.step ?_ (pulseRouters_frame _ _) (by decide)
    assumption

theorem enterHoldover_frame (c : Cad) (s : State) :
    OnlyChanges [.host, .xing, .store, .cad] s (enterHoldover c s) := by
  unfold enterHoldover
  refine OnlyChanges.step ?_ (post_frame _ _ _) (by decide)
  refine OnlyChanges.step ?_ (setCad_frame _ _) (by decide)
  exact OnlyChanges.refl _ _

theorem execCadenceLoss_frame (cause : LossCause) (s : State) :
    outAll (OnlyChanges [.snap, .ports, .fields, .host, .sched, .xing, .store, .cad, .rel] s) (execCadenceLoss cause s) := by
  unfold execCadenceLoss
  extract_lets x0 x1 x2 x3 x4
  have h5 : OnlyChanges [.snap, .ports, .fields, .host, .sched, .xing, .store, .cad, .rel] s x3 := by
    unfold x3
    refine OnlyChanges.step ?_ (ownBeats_frame _ _) (by decide)
    exact OnlyChanges.refl _ _
  clear_value x0 x1 x2 x3 x4
  split
  · rename_i v6
    change OnlyChanges [.snap, .ports, .fields, .host, .sched, .xing, .store, .cad, .rel] s _
    refine OnlyChanges.step ?_ (followCad_frame _) (by decide)
    refine OnlyChanges.step ?_ (ledgerRec_frame _ _ _ _ _ _ _ _) (by decide)
    refine OnlyChanges.step ?_ (enterHoldover_frame _ _) (by decide)
    assumption
  · rename_i v7
    change OnlyChanges [.snap, .ports, .fields, .host, .sched, .xing, .store, .cad, .rel] s _
    exact OnlyChanges.refl _ _

theorem execCadHoldover_frame (s : State) :
    outAll (OnlyChanges [.host, .xing, .store, .cad] s) (execCadHoldover s) := by
  unfold execCadHoldover
  split
  · rename_i v0
    change OnlyChanges [.host, .xing, .store, .cad] s _
    refine OnlyChanges.step ?_ (post_frame _ _ _) (by decide)
    refine OnlyChanges.step ?_ (setCad_frame _ _) (by decide)
    exact OnlyChanges.refl _ _
  · rename_i v1
    change OnlyChanges [.host, .xing, .store, .cad] s _
    exact OnlyChanges.refl _ _

theorem reachCt_frame (t : CtWord) (s : State) :
    optAll (OnlyChanges [.cad] s) (reachCt t s) := by
  unfold reachCt
  split
  · rename_i v0
    change OnlyChanges [.cad] s _
    exact OnlyChanges.refl _ _
  · rename_i v1
    split
    · rename_i v2
      change OnlyChanges [.cad] s _
      refine OnlyChanges.step ?_ (setCad_frame _ _) (by decide)
      exact OnlyChanges.refl _ _
    · rename_i v3
      trivial

theorem comeTo_frame (k : DueKey) (t : CtWord) (s : State) :
    optAll (OnlyChanges [.cad] s) (comeTo k t s) := by
  unfold comeTo
  split
  · rename_i v0
    refine OnlyChanges.stepOpt ?_ (reachCt_frame _ _) (by decide)
    exact OnlyChanges.refl _ _
  · rename_i v1
    trivial

theorem timeTo_frame (t : CtWord) (s : State) :
    optAll (OnlyChanges [.cad] s) (timeTo t s) := by
  unfold timeTo
  split
  · rename_i v0
    change OnlyChanges [.cad] s _
    exact OnlyChanges.refl _ _
  · rename_i v1
    refine OnlyChanges.stepOpt ?_ (comeTo_frame _ _ _) (by decide)
    exact OnlyChanges.refl _ _

theorem argReject_frame (off : Nat) (st : BitVec 16) (s : State) :
    OnlyChanges [.host, .xing, .store] s (argReject off st s) := by
  unfold argReject
  refine OnlyChanges.step ?_ (post_frame _ _ _) (by decide)
  exact OnlyChanges.refl _ _

theorem lockViolation_frame (s : State) :
    OnlyChanges [.host, .xing, .store] s (lockViolation s) := by
  unfold lockViolation
  refine OnlyChanges.step ?_ (post_frame _ _ _) (by decide)
  exact OnlyChanges.refl _ _

theorem writeSrc_frame (v : BitVec 2) (s : State) :
    OnlyChanges [.host, .xing, .store, .cad, .rel] s (writeSrc v s) := by
  unfold writeSrc
  extract_lets x0 x1
  clear_value x0 x1
  refine OnlyChanges.ite ?_ ?_
  · refine OnlyChanges.step ?_ (post_frame _ _ _) (by decide)
    exact OnlyChanges.refl _ _
  · refine OnlyChanges.ite ?_ ?_
    · refine OnlyChanges.ite ?_ ?_
      · refine OnlyChanges.step ?_ (followCad_frame _) (by decide)
        refine OnlyChanges.step ?_ (enterHoldover_frame _ _) (by decide)
        exact OnlyChanges.refl _ _
      · refine OnlyChanges.ite ?_ ?_
        · refine OnlyChanges.step ?_ (setCad_frame _ _) (by decide)
          exact OnlyChanges.refl _ _
        · refine OnlyChanges.step ?_ (followCad_frame _) (by decide)
          refine OnlyChanges.step ?_ (setCad_frame _ _) (by decide)
          exact OnlyChanges.refl _ _
    · refine OnlyChanges.step ?_ (followCad_frame _) (by decide)
      refine OnlyChanges.step ?_ (setCad_frame _ _) (by decide)
      exact OnlyChanges.refl _ _

theorem orHold_frame {l : List Part} {s t : State} {h : HostAccess} {off : Nat} {wide : Bool} {v : Nat} {act : State → Out} (hs : OnlyChanges l s t)
    (hl : ∀ p ∈ [Part.host], p ∈ l) (ha : outAll (OnlyChanges l s) (act t)) : outAll (OnlyChanges l s) (orHold h off wide v act t) := by
  unfold orHold
  split
  · exact hs
  · split
    · exact ha
    · split
      · exact only_host hs _ hl
      · exact hs

theorem execCadSrc_frame (h : HostAccess) (v : BitVec 2) (s : State) :
    outAll (OnlyChanges [.host, .xing, .store, .cad, .rel] s) (execCadSrc h v s) := by
  unfold execCadSrc
  refine orHold_frame ?_ (by decide) ?_
  · exact OnlyChanges.refl _ _
  · split
    · rename_i v0
      change OnlyChanges [.host, .xing, .store, .cad, .rel] s _
      exact OnlyChanges.refl _ _
    · rename_i v1
      split
      · rename_i v2
        change OnlyChanges [.host, .xing, .store, .cad, .rel] s _
        refine OnlyChanges.step ?_ (writeSrc_frame _ _) (by decide)
        exact OnlyChanges.refl _ _
      · rename_i v3
        change OnlyChanges [.host, .xing, .store, .cad, .rel] s _
        refine OnlyChanges.step ?_ (lockViolation_frame _) (by decide)
        exact OnlyChanges.refl _ _

theorem doResync_frame (s : State) :
    OnlyChanges [.host, .xing, .store, .cad, .rel] s (doResync s) := by
  unfold doResync
  refine OnlyChanges.ite ?_ ?_
  · refine OnlyChanges.ite ?_ ?_
    · refine OnlyChanges.step ?_ (argReject_frame _ _ _) (by decide)
      exact OnlyChanges.refl _ _
    · split
      · rename_i v0 v1 v2
        refine OnlyChanges.step ?_ (followCad_frame _) (by decide)
        refine OnlyChanges.step ?_ (setCad_frame _ _) (by decide)
        exact OnlyChanges.refl _ _
      · rename_i v3 v4
        exact OnlyChanges.refl _ _
  · exact OnlyChanges.refl _ _

theorem execResync_frame (h : HostAccess) (s : State) :
    outAll (OnlyChanges [.host, .xing, .store, .cad, .rel] s) (execResync h s) := by
  unfold execResync
  refine orHold_frame ?_ (by decide) ?_
  · exact OnlyChanges.refl _ _
  · split
    · rename_i v0
      change OnlyChanges [.host, .xing, .store, .cad, .rel] s _
      refine OnlyChanges.step ?_ (doResync_frame _) (by decide)
      exact OnlyChanges.refl _ _
    · rename_i v1
      change OnlyChanges [.host, .xing, .store, .cad, .rel] s _
      exact OnlyChanges.refl _ _

theorem xingReset_frame (d : Nat) (s : State) :
    OnlyChanges [.xing] s (xingReset d s) := by
  unfold xingReset
  refine only_xing ?_ _ (by decide)
  exact OnlyChanges.refl _ _

theorem xingClear_frame (timeout : Bool) (overrun : Bool) (s : State) :
    OnlyChanges [.xing] s (xingClear timeout overrun s) := by
  unfold xingClear
  extract_lets x0 x1
  clear_value x0 x1
  refine only_xing ?_ _ (by decide)
  exact OnlyChanges.refl _ _

theorem setEntry_frame (n : Nat) (e : Ledger) (s : State) :
    OnlyChanges [.cap] s (setEntry n e s) := by
  unfold setEntry
  refine only_cap ?_ _ (by decide)
  exact OnlyChanges.refl _ _

theorem unsettle_frame (f : Nat → Ledger → Bool) (s : State) :
    OnlyChanges [.cap] s (unsettle f s) := by
  unfold unsettle
  refine only_cap ?_ _ (by decide)
  exact OnlyChanges.refl _ _

theorem setCapstan_frame (k : Nat) (c : Capstan) (s : State) :
    OnlyChanges [.cap] s (setCapstan k c s) := by
  unfold setCapstan
  refine only_cap ?_ _ (by decide)
  exact OnlyChanges.refl _ _

theorem freeBank_frame (bank : Bool) (s : State) (e : Nat × Ledger) :
    OnlyChanges [.freeCtr, .mem] s (freeBank bank s e) := by
  unfold freeBank
  refine OnlyChanges.step ?_ (freeBytes_frame _ _ _) (by decide)
  exact OnlyChanges.refl _ _

theorem loseSums_frame (k : Nat) (s : State) :
    OnlyChanges [.cap, .freeCtr, .mem] s (loseSums k s) := by
  unfold loseSums
  extract_lets x0 x1
  have h2 : OnlyChanges [.cap, .freeCtr, .mem] s x0 := by
    unfold x0
    refine OnlyChanges.fold ?_ (fun u3 y4 h5 => ?_)
    · exact OnlyChanges.refl _ _
    · refine OnlyChanges.step ?_ (freeBank_frame _ _ _) (by decide)
      assumption
  clear_value x0 x1
  refine only_cap ?_ _ (by decide)
  assumption

theorem clearCapKnots_frame (k : Nat) (s : State) :
    OnlyChanges [.knots] s (clearCapKnots k s) := by
  unfold clearCapKnots
  refine only_knots ?_ _ (by decide)
  exact OnlyChanges.refl _ _

theorem unsettleCap_frame (k : Nat) (s : State) :
    OnlyChanges [.cap] s (unsettleCap k s) := by
  unfold unsettleCap
  extract_lets x0 x1
  have h2 : OnlyChanges [.cap] s x0 := by
    unfold x0
    refine OnlyChanges.step ?_ (unsettle_frame _ _) (by decide)
    exact OnlyChanges.refl _ _
  clear_value x0 x1
  refine only_cap ?_ _ (by decide)
  assumption

theorem failCapstan_frame (k : Nat) (s : State) :
    OnlyChanges [.cap, .knots, .host, .xing, .freeCtr, .store, .rel, .mem] s (failCapstan k s) := by
  unfold failCapstan
  extract_lets x0 x1 x2 x3 x4 x5 x6 x7 x8
  have h9 : OnlyChanges [.cap, .knots, .host, .xing, .freeCtr, .store, .rel, .mem] s x3 := by
    unfold x3
    refine only_store ?_ _ (by decide)
    exact OnlyChanges.refl _ _
  have h10 : OnlyChanges [.cap, .knots, .host, .xing, .freeCtr, .store, .rel, .mem] s x4 := by
    unfold x4
    refine OnlyChanges.step ?_ (unsettleCap_frame _ _) (by decide)
    refine OnlyChanges.step ?_ (clearCapKnots_frame _ _) (by decide)
    refine OnlyChanges.ite ?_ ?_
    · refine OnlyChanges.step ?_ (loseSums_frame _ _) (by decide)
      assumption
    · assumption
  have h11 : OnlyChanges [.cap, .knots, .host, .xing, .freeCtr, .store, .rel, .mem] s x6 := by
    unfold x6
    refine OnlyChanges.ite ?_ ?_
    · refine OnlyChanges.fold ?_ (fun u12 y13 h14 => ?_)
      · refine only_rel ?_ _ (by decide)
        assumption
      · refine OnlyChanges.step ?_ (freeBank_frame _ _ _) (by decide)
        assumption
    · assumption
  have h15 : ∀ a16 a17, OnlyChanges [.cap, .knots, .host, .xing, .freeCtr, .store, .rel, .mem] s a17 → OnlyChanges [.cap, .knots, .host, .xing,
      .freeCtr, .store, .rel, .mem] s (x7 a16 a17) := by
    intro b18 b19 k20
    unfold x7
    refine OnlyChanges.step ?_ (ledgerRec_frame _ _ _ _ _ _ _ _) (by decide)
    assumption
  clear_value x0 x1 x2 x3 x4 x5 x6 x7 x8
  split
  · rename_i v21 v22 v23 v24
    apply h15
    · refine OnlyChanges.step ?_ (setCapstan_frame _ _ _) (by decide)
      refine OnlyChanges.step ?_ (journalRecord_frame _) (by decide)
      assumption
  · rename_i v25 v26
    apply h15
    · refine OnlyChanges.step ?_ (post_frame _ _ _) (by decide)
      refine OnlyChanges.step ?_ (setCapstan_frame _ _ _) (by decide)
      refine only_rel ?_ _ (by decide)
      assumption

theorem loseCap_frame (k : Nat) (s : State) :
    OnlyChanges [.cap] s (loseCap k s) := by
  unfold loseCap
  refine OnlyChanges.step ?_ (setCapstan_frame _ _ _) (by decide)
  exact OnlyChanges.refl _ _

theorem setStack_frame (n : Nat) (x : Stack) (s : State) :
    OnlyChanges [.near] s (setStack n x s) := by
  unfold setStack
  refine only_near ?_ _ (by decide)
  exact OnlyChanges.refl _ _

theorem adjStack_frame (n : Nat) (f : Stack → Stack) (s : State) :
    OnlyChanges [.near] s (adjStack n f s) := by
  unfold adjStack
  refine OnlyChanges.step ?_ (setStack_frame _ _ _) (by decide)
  exact OnlyChanges.refl _ _

theorem restoreGranule_frame (x : Retired) (s : State) :
    OnlyChanges [.freeCtr, .mem, .near] s (restoreGranule x s) := by
  unfold restoreGranule
  split
  · rename_i v0 v1 v2 v3
    refine OnlyChanges.ite ?_ ?_
    · refine OnlyChanges.fold ?_ (fun u4 y5 h6 => ?_)
      · exact OnlyChanges.refl _ _
      · refine OnlyChanges.ite ?_ ?_
        · assumption
        · refine OnlyChanges.step ?_ (freeBytes_frame _ _ _) (by decide)
          assumption
    · extract_lets x7 x8
      have h9 : OnlyChanges [.freeCtr, .mem, .near] s x7 := by
        unfold x7
        refine OnlyChanges.step ?_ (freeBytes_frame _ _ _) (by decide)
        exact OnlyChanges.refl _ _
      clear_value x7 x8
      refine only_near ?_ _ (by decide)
      assumption
  · rename_i v10 v11
    extract_lets x12
    clear_value x12
    refine only_mem ?_ _ (by decide)
    exact OnlyChanges.refl _ _

theorem needSplice_frame (n : Nat) (chan : Byte) (cls : Nat) (s : State) :
    OnlyChanges [.host, .xing, .store, .rel, .near] s (needSplice n chan cls s) := by
  unfold needSplice
  extract_lets x0 x1 x2 x3 x4
  have h5 : OnlyChanges [.host, .xing, .store, .rel, .near] s x2 := by
    unfold x2
    refine OnlyChanges.step ?_ (setStack_frame _ _ _) (by decide)
    exact OnlyChanges.refl _ _
  have h6 : OnlyChanges [.host, .xing, .store, .rel, .near] s x4 := by
    unfold x4
    refine OnlyChanges.step ?_ (setStack_frame _ _ _) (by decide)
    refine only_rel ?_ _ (by decide)
    exact OnlyChanges.refl _ _
  clear_value x0 x1 x2 x3 x4
  refine OnlyChanges.ite ?_ ?_
  · exact OnlyChanges.refl _ _
  · refine OnlyChanges.ite ?_ ?_
    · refine OnlyChanges.step ?_ (ledgerRec_frame _ _ _ _ _ _ _ _) (by decide)
      refine OnlyChanges.step ?_ (postFull_frame _ _ _ _ _ _ _) (by decide)
      assumption
    · refine OnlyChanges.step ?_ (ledgerRec_frame _ _ _ _ _ _ _ _) (by decide)
      refine OnlyChanges.step ?_ (post_frame _ _ _) (by decide)
      assumption

theorem postMigrate_frame (n : Nat) (c : Nat) (result : Nat) (s : State) :
    OnlyChanges [.host, .xing, .store] s (postMigrate n c result s) := by
  unfold postMigrate
  extract_lets x0
  clear_value x0
  refine OnlyChanges.step ?_ (ledgerRec_frame _ _ _ _ _ _ _ _) (by decide)
  refine OnlyChanges.step ?_ (postFull_frame _ _ _ _ _ _ _) (by decide)
  exact OnlyChanges.refl _ _

theorem startMigration_frame (n : Nat) (c : Nat) (s : State) :
    OnlyChanges [.host, .xing, .store, .rel, .near] s (startMigration n c s) := by
  unfold startMigration
  extract_lets x0
  clear_value x0
  refine OnlyChanges.ite ?_ ?_
  · refine OnlyChanges.step ?_ (postMigrate_frame _ _ _ _) (by decide)
    refine OnlyChanges.step ?_ (setStack_frame _ _ _) (by decide)
    exact OnlyChanges.refl _ _
  · refine OnlyChanges.step ?_ (needSplice_frame _ _ _ _) (by decide)
    exact OnlyChanges.refl _ _

theorem needMigration_frame (n : Nat) (c : Nat) (s : State) :
    OnlyChanges [.host, .xing, .store, .rel, .near] s (needMigration n c s) := by
  unfold needMigration
  extract_lets x0
  clear_value x0
  refine OnlyChanges.ite ?_ ?_
  · exact OnlyChanges.refl _ _
  · split
    · rename_i v1 v2 v3
      refine OnlyChanges.ite ?_ ?_
      · exact OnlyChanges.refl _ _
      · refine OnlyChanges.step ?_ (setStack_frame _ _ _) (by decide)
        exact OnlyChanges.refl _ _
    · rename_i v4 v5
      refine OnlyChanges.step ?_ (startMigration_frame _ _ _) (by decide)
      exact OnlyChanges.refl _ _

theorem repairRim_frame (k : Nat) (row : Nat) (s : State) :
    OnlyChanges [.cap, .knots, .host, .xing, .freeCtr, .store, .rel, .mem] s (repairRim k row s) := by
  unfold repairRim
  extract_lets x0 x1 x2 x3
  have h4 : OnlyChanges [.cap, .knots, .host, .xing, .freeCtr, .store, .rel, .mem] s x2 := by
    unfold x2
    refine OnlyChanges.step ?_ (setCapstan_frame _ _ _) (by decide)
    exact OnlyChanges.refl _ _
  clear_value x0 x1 x2 x3
  refine OnlyChanges.ite ?_ ?_
  · refine OnlyChanges.step ?_ (ledgerRec_frame _ _ _ _ _ _ _ _) (by decide)
    refine only_store ?_ _ (by decide)
    assumption
  · refine OnlyChanges.step ?_ (failCapstan_frame _ _) (by decide)
    refine OnlyChanges.step ?_ (ledgerRec_frame _ _ _ _ _ _ _ _) (by decide)
    exact OnlyChanges.refl _ _

theorem rimBad_frame (k : Nat) (unit : Nat) (s : State) :
    OnlyChanges [.cap, .host, .xing, .freeCtr, .store, .mem] s (rimBad k unit s) := by
  unfold rimBad
  refine OnlyChanges.ite ?_ ?_
  · refine OnlyChanges.step ?_ (loseCap_frame _ _) (by decide)
    exact OnlyChanges.refl _ _
  · extract_lets x0
    have h1 : OnlyChanges [.cap, .host, .xing, .freeCtr, .store, .mem] s x0 := by
      unfold x0
      refine OnlyChanges.step ?_ (record_frame _ _ _ _ _ _ _ _ _ _) (by decide)
      exact OnlyChanges.refl _ _
    clear_value x0
    refine OnlyChanges.ite ?_ ?_
    · refine OnlyChanges.step ?_ (freeBytes_frame _ _ _) (by decide)
      assumption
    · assumption

theorem rimFinds_frame (k : Nat) (unit : Nat) (row : Nat) (r : ArrayRead) (s : State) :
    OnlyChanges [.cap, .knots, .host, .xing, .freeCtr, .store, .rel, .mem] s (rimFinds k unit row r s) := by
  unfold rimFinds
  split
  · rename_i v0
    exact OnlyChanges.refl _ _
  · rename_i v1
    refine OnlyChanges.step ?_ (repairRim_frame _ _ _) (by decide)
    refine OnlyChanges.step ?_ (rimBad_frame _ _ _) (by decide)
    exact OnlyChanges.refl _ _
  · rename_i v2
    extract_lets x3 x4 x5 x6
    have h7 : OnlyChanges [.cap, .knots, .host, .xing, .freeCtr, .store, .rel, .mem] s x5 := by
      unfold x5
      refine OnlyChanges.step ?_ (setCapstan_frame _ _ _) (by decide)
      exact OnlyChanges.refl _ _
    have h8 : OnlyChanges [.cap, .knots, .host, .xing, .freeCtr, .store, .rel, .mem] s x6 := by
      unfold x6
      refine OnlyChanges.step ?_ (record_frame _ _ _ _ _ _ _ _ _ _) (by decide)
      assumption
    clear_value x3 x4 x5 x6
    refine OnlyChanges.ite ?_ ?_
    · refine OnlyChanges.step ?_ (repairRim_frame _ _ _) (by decide)
      assumption
    · assumption

theorem rimAt_frame (a : Nat) (row : Nat) (r : ArrayRead) (s : State) :
    OnlyChanges [.cap, .knots, .host, .xing, .freeCtr, .store, .rel, .mem] s (rimAt a row r s) := by
  unfold rimAt
  refine OnlyChanges.ite ?_ ?_
  · refine OnlyChanges.step ?_ (rimFinds_frame _ _ _ _ _) (by decide)
    exact OnlyChanges.refl _ _
  · refine OnlyChanges.ite ?_ ?_
    · refine OnlyChanges.step ?_ (rimFinds_frame _ _ _ _ _) (by decide)
      exact OnlyChanges.refl _ _
    · exact OnlyChanges.refl _ _

theorem suspectTile_frame (phys : Nat) (cls : Nat) (s : State) :
    OnlyChanges [.rel] s (suspectTile phys cls s) := by
  unfold suspectTile
  extract_lets x0 x1 x2 x3 x4 x5
  clear_value x0 x1 x2 x3 x4 x5
  refine only_rel ?_ _ (by decide)
  exact OnlyChanges.refl _ _

theorem countRetry_frame (u : W32) (s : State) :
    sndAll (OnlyChanges [.rel] s) (countRetry u s) := by
  unfold countRetry
  extract_lets x0 x1 x2 x3
  clear_value x0 x1 x2 x3
  refine sndAll_mk ?_
  refine only_rel ?_ _ (by decide)
  exact OnlyChanges.refl _ _

theorem parityPersists_frame (p : ParityPlace) (s : State) :
    OnlyChanges [.cap, .knots, .host, .xing, .freeCtr, .store, .rel, .mem, .near] s (parityPersists p s) := by
  unfold parityPersists
  split
  · rename_i v0 v1
    refine OnlyChanges.step ?_ (suspectTile_frame _ _ _) (by decide)
    exact OnlyChanges.refl _ _
  · rename_i v2 v3
    refine OnlyChanges.step ?_ (suspectTile_frame _ _ _) (by decide)
    exact OnlyChanges.refl _ _
  · rename_i v4 v5 v6
    refine elim_of (P := (OnlyChanges [.cap, .knots, .host, .xing, .freeCtr, .store, .rel, .mem, .near] s)) ?_ (fun y7 => ?_)
    · exact OnlyChanges.refl _ _
    · refine OnlyChanges.step ?_ (needMigration_frame _ _ _) (by decide)
      exact OnlyChanges.refl _ _
  · rename_i v8 v9
    extract_lets x10
    clear_value x10
    refine OnlyChanges.step ?_ (failCapstan_frame _ _) (by decide)
    refine OnlyChanges.step ?_ (suspectTile_frame _ _ _) (by decide)
    exact OnlyChanges.refl _ _

theorem parityFails_frame (p : ParityPlace) (s : State) :
    sndAll (OnlyChanges [.cap, .host, .xing, .freeCtr, .store, .mem, .near] s) (parityFails p s) := by
  unfold parityFails
  split
  · rename_i v0 v1
    refine sndAll_mk ?_
    exact OnlyChanges.refl _ _
  · rename_i v2 v3
    refine sndAll_mk ?_
    exact OnlyChanges.refl _ _
  · rename_i v4 v5 v6
    split
    · rename_i v7 v8 v9
      split
      · rename_i v10
        refine sndAll_mk ?_
        exact OnlyChanges.refl _ _
      · rename_i v11
        refine sndAll_mk ?_
        refine OnlyChanges.step ?_ (restoreGranule_frame _ _) (by decide)
        exact OnlyChanges.refl _ _
    · rename_i v12 v13
      refine sndAll_mk ?_
      exact OnlyChanges.refl _ _
  · rename_i v14 v15
    refine sndAll_mk ?_
    refine OnlyChanges.step ?_ (rimBad_frame _ _ _) (by decide)
    exact OnlyChanges.refl _ _

theorem parityMeets_frame (p : ParityPlace) (w : DataWord) (origin : Nat) (play : W32) (step : W32) (s : State) :
    sndAll (OnlyChanges [.cap, .knots, .host, .xing, .freeCtr, .store, .rel, .mem, .near] s) (parityMeets p w origin play step s) := by
  unfold parityMeets
  split
  · rename_i v0 v1 v2 v3
    split
    · rename_i v4
      split
      · rename_i v5 v6 v7 v8
        refine absorb (P := sndAll (OnlyChanges [.cap, .knots, .host, .xing, .freeCtr, .store, .rel, .mem, .near] s)) v8 ?_ (fun q9 => ?_)
        · refine OnlyChanges.stepSnd ?_ (countRetry_frame _ _) (by decide)
          refine OnlyChanges.step ?_ (record_frame _ _ _ _ _ _ _ _ _ _) (by decide)
          exact OnlyChanges.refl _ _
        refine sndAll_mk ?_
        refine OnlyChanges.ite ?_ ?_
        · refine OnlyChanges.step ?_ (parityPersists_frame _ _) (by decide)
          assumption
        · assumption
    · rename_i v10
      split
      · rename_i v11 v12 v13 v14
        refine absorb (P := sndAll (OnlyChanges [.cap, .knots, .host, .xing, .freeCtr, .store, .rel, .mem, .near] s)) v14 ?_ (fun q15 => ?_)
        · refine OnlyChanges.stepSnd ?_ (parityFails_frame _ _) (by decide)
          refine OnlyChanges.step ?_ (record_frame _ _ _ _ _ _ _ _ _ _) (by decide)
          exact OnlyChanges.refl _ _
        refine sndAll_mk ?_
        refine OnlyChanges.step ?_ (parityPersists_frame _ _) (by decide)
        assumption

theorem granuleFault_frame (a : Nat) (origin : Nat) (play : W32) (step : W32) (s : State) :
    OnlyChanges [.host, .xing, .store] s (granuleFault a origin play step s) := by
  unfold granuleFault
  split
  · rename_i v0 v1 v2 v3
    refine OnlyChanges.step ?_ (record_frame _ _ _ _ _ _ _ _ _ _) (by decide)
    exact OnlyChanges.refl _ _

theorem engineRead_frame (dom : Nat) (origin : Nat) (a : Nat) (n : Nat) (s : State) :
    sndAll (OnlyChanges [.host, .xing, .store] s) (engineRead dom origin a n s) := by
  unfold engineRead
  split
  · rename_i v0
    refine sndAll_mk ?_
    exact OnlyChanges.refl _ _
  · rename_i v1
    extract_lets x2
    clear_value x2
    split
    · rename_i v3
      refine sndAll_mk ?_
      exact OnlyChanges.refl _ _
    · rename_i v4
      refine sndAll_mk ?_
      refine OnlyChanges.step ?_ (granuleFault_frame _ _ _ _ _) (by decide)
      refine OnlyChanges.ite ?_ ?_
      · refine OnlyChanges.step ?_ (postFull_frame _ _ _ _ _ _ _) (by decide)
        exact OnlyChanges.refl _ _
      · exact OnlyChanges.refl _ _

theorem laneResidue_frame (unit : W32) (logical : W32) (origin : Nat) (play : W32) (step : W32) (masked : Bool) (s : State) :
    OnlyChanges [.host, .xing, .store] s (laneResidue unit logical origin play step masked s) := by
  unfold laneResidue
  refine OnlyChanges.step ?_ (record_frame _ _ _ _ _ _ _ _ _ _) (by decide)
  exact OnlyChanges.refl _ _

end Sys2Proof.Machine
end

