-- ==== Sys2Proof/Laws/FrameFields.lean ====
section
/-! SUPPORT. Frames: what each function of the fields, ply moves, movers, queues, ports and the exchange can change. -/

namespace Sys2Proof.Machine

theorem partMake_frame (org : Nat) (sh : Nat) (n : Nat) (s : State) :
    OnlyChanges [.parting, .parts, .removed] s (partMake org sh n s) := by
  unfold partMake
  extract_lets x0 x1 x2
  clear_value x0 x1 x2
  refine only_parts_removed_partNext ?_ _ _ _ (by decide)
  exact OnlyChanges.refl _ _

theorem partPend_frame (org : Nat) (sh : Nat) (c : Option Packet) (s : State) :
    OnlyChanges [.parting] s (partPend org sh c s) := by
  unfold partPend
  refine only_parting ?_ _ (by decide)
  exact OnlyChanges.refl _ _

theorem invalidateRow_frame (f : Nat) (r : Nat) (s : State) :
    OnlyChanges [.parts] s (invalidateRow f r s) := by
  unfold invalidateRow
  extract_lets x0
  clear_value x0
  refine only_parts ?_ _ (by decide)
  exact OnlyChanges.refl _ _

theorem startLoadw_frame (p : Play) (m : QMove) (s : State) :
    startAll (OnlyChanges [.parts] s) (startLoadw p m s) := by
  unfold startLoadw
  extract_lets x0 x1 x2 x3 x4 x5 x6
  clear_value x0 x1 x2 x3 x4 x5 x6
  split
  · rename_i v7 v8
    trivial
  · rename_i v9 v10 v11
    extract_lets x12 x13 x14 x15 x16 x17 x18
    clear_value x12 x13 x14 x15 x16 x17 x18
    split
    · rename_i v19
      change OnlyChanges [.parts] s _
      exact OnlyChanges.refl _ _
    · rename_i v20
      split
      · rename_i v21 v22 v23
        change OnlyChanges [.parts] s _
        exact OnlyChanges.refl _ _
      · rename_i v24 v25
        split
        · rename_i v26
          change OnlyChanges [.parts] s _
          exact OnlyChanges.refl _ _
        · rename_i v27
          change OnlyChanges [.parts] s _
          refine OnlyChanges.step ?_ (setPart_frame _ _) (by decide)
          exact OnlyChanges.refl _ _

theorem startSwapw_frame (p : Play) (m : QMove) (s : State) :
    startAll (OnlyChanges [.parts] s) (startSwapw p m s) := by
  unfold startSwapw
  split
  · rename_i v0 v1
    trivial
  · rename_i v2 v3 v4
    split
    · rename_i v5
      change OnlyChanges [.parts] s _
      exact OnlyChanges.refl _ _
    · rename_i v6
      change OnlyChanges [.parts] s _
      refine OnlyChanges.step ?_ (setPart_frame _ _) (by decide)
      exact OnlyChanges.refl _ _

theorem StreamCtx_writeOut_frame (c : StreamCtx) (u : Nat) (i : Nat) (xs : List FVal) (s : State) :
    OnlyChanges [.watch, .host, .xing, .freeCtr, .store, .mem, .near] s (StreamCtx.writeOut c u i xs s) := by
  unfold StreamCtx.writeOut
  extract_lets x0 x1 x2 x3 x4 x5
  have h6 : OnlyChanges [.watch, .host, .xing, .freeCtr, .store, .mem, .near] s x4 := by
    unfold x4
    refine OnlyChanges.ite ?_ ?_
    · refine OnlyChanges.step ?_ (freeBytes_frame _ _ _) (by decide)
      exact OnlyChanges.refl _ _
    · exact OnlyChanges.refl _ _
  clear_value x0 x1 x2 x3 x4 x5
  split
  · rename_i v7 v8 v9 v10 v11
    extract_lets x12 x13 x14 x15
    have h16 : OnlyChanges [.watch, .host, .xing, .freeCtr, .store, .mem, .near] s x12 := by
      unfold x12
      refine OnlyChanges.step ?_ (sqWriteLine_frame _ _ _ _ _) (by decide)
      assumption
    have h17 : OnlyChanges [.watch, .host, .xing, .freeCtr, .store, .mem, .near] s x15 := by
      unfold x15
      refine OnlyChanges.ite ?_ ?_
      · refine OnlyChanges.step ?_ (sqWriteDesc_frame _ _ _ _ _ _) (by decide)
        refine OnlyChanges.step ?_ (writeBytes_frame _ _ _) (by decide)
        assumption
      · refine OnlyChanges.ite ?_ ?_
        · refine OnlyChanges.step ?_ (writeN_frame _ _ _ _) (by decide)
          assumption
        · assumption
    clear_value x12 x13 x14 x15
    refine OnlyChanges.step ?_ (countConv_frame _ _ _ _) (by decide)
    assumption

theorem StreamCtx_clearAmax_frame (c : StreamCtx) (u : Nat) (s : State) :
    OnlyChanges [.host, .xing, .store, .mem, .near] s (StreamCtx.clearAmax c u s) := by
  unfold StreamCtx.clearAmax
  extract_lets x0
  clear_value x0
  refine OnlyChanges.fold ?_ (fun u1 y2 h3 => ?_)
  · exact OnlyChanges.refl _ _
  · refine OnlyChanges.ite ?_ ?_
    · refine OnlyChanges.step ?_ (sqWriteDesc_frame _ _ _ _ _ _) (by decide)
      assumption
    · refine OnlyChanges.ite ?_ ?_
      · refine OnlyChanges.step ?_ (writeN_frame _ _ _ _) (by decide)
        assumption
      · assumption

theorem StreamCtx_sendOut_frame (c : StreamCtx) (u : Nat) (i : Nat) (self : Nat) (el : List Nat) (s : State) :
    OnlyChanges [.host, .xing, .mesh, .store, .mem, .near] s (StreamCtx.sendOut c u i self el s) := by
  unfold StreamCtx.sendOut
  extract_lets x0 x1 x2 x3 x4 x5
  have h6 : OnlyChanges [.host, .xing, .mesh, .store, .mem, .near] s x2 := by
    unfold x2
    refine OnlyChanges.step ?_ (sqWriteLine_frame _ _ _ _ _) (by decide)
    exact OnlyChanges.refl _ _
  clear_value x0 x1 x2 x3 x4 x5
  refine only_mesh ?_ _ (by decide)
  assumption

theorem StreamCtx_deliver_frame (c : StreamCtx) (self : Nat) (i : Nat) (res : List W32) (s : State) :
    OnlyChanges [.watch, .host, .xing, .mesh, .freeCtr, .store, .mem, .near] s (StreamCtx.deliver c self i res s) := by
  unfold StreamCtx.deliver
  refine OnlyChanges.fold ?_ (fun u0 y1 h2 => ?_)
  · exact OnlyChanges.refl _ _
  · extract_lets x3
    clear_value x3
    refine OnlyChanges.ite ?_ ?_
    · refine OnlyChanges.ite ?_ ?_
      · assumption
      · split
        · rename_i v4 v5 v6 v7
          refine OnlyChanges.step ?_ (StreamCtx_sendOut_frame _ _ _ _ _ _) (by decide)
          refine OnlyChanges.step ?_ (countConv_frame _ _ _ _) (by decide)
          assumption
    · refine OnlyChanges.step ?_ (StreamCtx_writeOut_frame _ _ _ _ _) (by decide)
      assumption

theorem StreamCtx_zeroSlot_frame (c : StreamCtx) (self : Nat) (i : Nat) (s : State) :
    OnlyChanges [.host, .xing, .mesh, .store, .mem, .near] s (StreamCtx.zeroSlot c self i s) := by
  unfold StreamCtx.zeroSlot
  refine OnlyChanges.fold ?_ (fun u0 y1 h2 => ?_)
  · exact OnlyChanges.refl _ _
  · extract_lets x3 x4 x5
    have h6 : OnlyChanges [.host, .xing, .mesh, .store, .mem, .near] s x5 := by
      unfold x5
      refine OnlyChanges.step ?_ (sqWriteLine_frame _ _ _ _ _) (by decide)
      assumption
    clear_value x3 x4 x5
    refine OnlyChanges.ite ?_ ?_
    · refine OnlyChanges.ite ?_ ?_
      · assumption
      · refine OnlyChanges.step ?_ (StreamCtx_sendOut_frame _ _ _ _ _ _) (by decide)
        assumption
    · refine OnlyChanges.ite ?_ ?_
      · refine OnlyChanges.step ?_ (writeBytes_frame _ _ _) (by decide)
        assumption
      · assumption

theorem StreamCtx_accumulate_frame (c : StreamCtx) (i : Nat) (res : List W32) (s : State) :
    OnlyChanges [.host, .xing, .store, .mem, .near] s (StreamCtx.accumulate c i res s) := by
  unfold StreamCtx.accumulate
  refine OnlyChanges.fold ?_ (fun u0 y1 h2 => ?_)
  · exact OnlyChanges.refl _ _
  · extract_lets x3 x4
    clear_value x3 x4
    refine OnlyChanges.ite ?_ ?_
    · refine OnlyChanges.step ?_ (nearWriteFor_frame _ _ _ _ _) (by decide)
      assumption
    · refine OnlyChanges.step ?_ (sqWriteLine_frame _ _ _ _ _) (by decide)
      assumption

theorem StreamCtx_padOut_frame (c : StreamCtx) (s : State) :
    OnlyChanges [.host, .xing, .store, .mem, .near] s (StreamCtx.padOut c s) := by
  unfold StreamCtx.padOut
  refine OnlyChanges.ite ?_ ?_
  · exact OnlyChanges.refl _ _
  · refine OnlyChanges.fold ?_ (fun u0 y1 h2 => ?_)
    · exact OnlyChanges.refl _ _
    · refine OnlyChanges.step ?_ (padLines_frame _ _ _ _) (by decide)
      assumption

theorem freeRow_frame (n : Nat) (s : State) :
    sndAll (OnlyChanges [.freeCtr] s) (freeRow n s) := by
  unfold freeRow
  refine sndAll_mk ?_
  refine only_freeCtr ?_ _ (by decide)
  exact OnlyChanges.refl _ _

theorem StreamCtx_offer_frame (c : StreamCtx) (b : Nat) (u : Nat) (rows : List (Nat × List W32)) (s : State) :
    OnlyChanges [.fields, .freeCtr] s (StreamCtx.offer c b u rows s) := by
  unfold StreamCtx.offer
  extract_lets x0 x1 x2 x3 x4 x5 x6
  clear_value x0 x1 x2 x3 x4 x5 x6
  refine OnlyChanges.ite ?_ ?_
  · refine OnlyChanges.step ?_ (setField_frame _ _ _) (by decide)
    exact OnlyChanges.refl _ _
  · refine OnlyChanges.ite ?_ ?_
    · refine OnlyChanges.step ?_ (setField_frame _ _ _) (by decide)
      exact OnlyChanges.refl _ _
    · refine OnlyChanges.step ?_ (setField_frame _ _ _) (by decide)
      refine only_freeCtr ?_ _ (by decide)
      exact OnlyChanges.refl _ _

theorem StreamCtx_drainRow_frame (c : StreamCtx) (self : Nat) (i : Nat) (res : List W32) (s : State) :
    OnlyChanges [.watch, .host, .xing, .mesh, .freeCtr, .store, .mem, .near] s (StreamCtx.drainRow c self i res s) := by
  unfold StreamCtx.drainRow
  refine OnlyChanges.ite ?_ ?_
  · refine OnlyChanges.step ?_ (StreamCtx_accumulate_frame _ _ _ _) (by decide)
    exact OnlyChanges.refl _ _
  · refine OnlyChanges.step ?_ (StreamCtx_deliver_frame _ _ _ _ _) (by decide)
    exact OnlyChanges.refl _ _

theorem StreamCtx_keepRow_frame (c : StreamCtx) (opened : Bool) (chk : List W32) (i : Nat) (s : State) :
    OnlyChanges [.parts] s (StreamCtx.keepRow c opened chk i s) := by
  unfold StreamCtx.keepRow
  split
  · rename_i v0 v1
    exact OnlyChanges.refl _ _
  · rename_i v2 v3 v4
    extract_lets x5 x6 x7
    clear_value x5 x6 x7
    refine OnlyChanges.step ?_ (setPart_frame _ _) (by decide)
    exact OnlyChanges.refl _ _

theorem StreamCtx_row_frame (c : StreamCtx) (self : Nat) (i : Nat) (s : State) :
    fstAll (OnlyChanges [.parts, .fields, .watch, .host, .xing, .mesh, .freeCtr, .store, .mem, .near] s) (StreamCtx.row c self i s) := by
  unfold StreamCtx.row
  extract_lets x0 x1 x2 x3 x4
  have h5 : OnlyChanges [.parts, .fields, .watch, .host, .xing, .mesh, .freeCtr, .store, .mem, .near] s x4 := by
    unfold x4
    refine OnlyChanges.step ?_ (StreamCtx_keepRow_frame _ _ _ _ _) (by decide)
    exact OnlyChanges.refl _ _
  clear_value x0 x1 x2 x3 x4
  split
  · rename_i v6
    split
    · rename_i v7 v8 v9 v10
      refine absorb (P := sndAll (OnlyChanges [.parts, .fields, .watch, .host, .xing, .mesh, .freeCtr, .store, .mem, .near] s)) v10 ?_ (fun q11 => ?_)
      · split
        · rename_i v12
          refine OnlyChanges.stepSnd ?_ (freeRow_frame _ _) (by decide)
          exact OnlyChanges.refl _ _
        · rename_i v13
          refine sndAll_mk ?_
          exact OnlyChanges.refl _ _
      extract_lets x14 x15
      have h16 : OnlyChanges [.parts, .fields, .watch, .host, .xing, .mesh, .freeCtr, .store, .mem, .near] s x14 := by
        unfold x14
        refine OnlyChanges.step ?_ (StreamCtx_keepRow_frame _ _ _ _ _) (by decide)
        refine OnlyChanges.step ?_ (StreamCtx_drainRow_frame _ _ _ _ _) (by decide)
        assumption
      have h17 : OnlyChanges [.parts, .fields, .watch, .host, .xing, .mesh, .freeCtr, .store, .mem, .near] s x15 := by
        unfold x15
        split
        · rename_i v18 v19 v20
          refine OnlyChanges.step ?_ (adjField_frame _ _ _) (by decide)
          assumption
        · rename_i v21 v22
          assumption
      clear_value x14 x15
      refine fstAll_mk ?_
      assumption
  · rename_i v23
    split
    · rename_i v24
      split
      · rename_i v25 v26 v27 v28
        refine absorb (P := sndAll (OnlyChanges [.parts, .fields, .watch, .host, .xing, .mesh, .freeCtr, .store, .mem, .near] s)) v28 ?_ (fun q29 =>
            ?_)
        · refine OnlyChanges.stepSnd ?_ (freeRow_frame _ _) (by decide)
          exact OnlyChanges.refl _ _
        refine fstAll_mk ?_
        refine OnlyChanges.step ?_ (StreamCtx_drainRow_frame _ _ _ _ _) (by decide)
        assumption
    · rename_i v30
      refine fstAll_mk ?_
      refine OnlyChanges.ite ?_ ?_
      · refine OnlyChanges.step ?_ (StreamCtx_zeroSlot_frame _ _ _ _) (by decide)
        assumption
      · assumption

theorem StreamCtx_afterRow_frame (c : StreamCtx) (i : Nat) (blk : List (Nat × List W32)) (s : State) :
    OnlyChanges [.parts, .fields, .host, .xing, .freeCtr, .store, .mem, .near] s (StreamCtx.afterRow c i blk s) := by
  unfold StreamCtx.afterRow
  extract_lets x0 x1 x2 x3
  have h4 : OnlyChanges [.parts, .fields, .host, .xing, .freeCtr, .store, .mem, .near] s x1 := by
    unfold x1
    refine OnlyChanges.ite ?_ ?_
    · refine OnlyChanges.fold ?_ (fun u5 y6 h7 => ?_)
      · exact OnlyChanges.refl _ _
      · refine OnlyChanges.step ?_ (StreamCtx_offer_frame _ _ _ _ _) (by decide)
        assumption
    · exact OnlyChanges.refl _ _
  have h8 : OnlyChanges [.parts, .fields, .host, .xing, .freeCtr, .store, .mem, .near] s x2 := by
    unfold x2
    refine OnlyChanges.ite ?_ ?_
    · refine OnlyChanges.step ?_ (StreamCtx_padOut_frame _ _) (by decide)
      assumption
    · assumption
  have h9 : OnlyChanges [.parts, .fields, .host, .xing, .freeCtr, .store, .mem, .near] s x3 := by
    unfold x3
    refine OnlyChanges.ite ?_ ?_
    · refine OnlyChanges.step ?_ (adjField_frame _ _ _) (by decide)
      assumption
    · assumption
  clear_value x0 x1 x2 x3
  refine OnlyChanges.ite ?_ ?_
  · assumption
  · split
    · rename_i v10 v11 v12
      refine OnlyChanges.step ?_ (setPart_frame _ _) (by decide)
      assumption
    · rename_i v13 v14
      assumption

theorem admitRows_frame (p : Play) (a : Nat) (a' : QMove) (a'' : State) :
    sndAll (OnlyChanges [.parts, .fields, .watch, .host, .xing, .mesh, .freeCtr, .store, .mem, .near] a'') (admitRows p a a' a'') := by
  induction a generalizing p a' a''
  · unfold admitRows
    refine sndAll_mk ?_
    exact OnlyChanges.refl _ _
  · rename_i w0 ih
    unfold admitRows
    split
    · rename_i v1 v2
      refine sndAll_mk ?_
      exact OnlyChanges.refl _ _
    · rename_i v3 v4 v5
      split
      · rename_i v6
        refine sndAll_mk ?_
        exact OnlyChanges.refl _ _
      · rename_i v7
        extract_lets x8
        clear_value x8
        split
        · rename_i v9 v10 v11 v12
          refine absorb (P := fstAll (OnlyChanges [.parts, .fields, .watch, .host, .xing, .mesh, .freeCtr, .store, .mem, .near] a'')) v12 ?_ (fun
              q13 => ?_)
          · refine OnlyChanges.stepFst ?_ (StreamCtx_row_frame _ _ _ _) (by decide)
            exact OnlyChanges.refl _ _
          extract_lets x14
          clear_value x14
          refine OnlyChanges.stepSnd ?_ (ih _ _ _) (by decide)
          refine OnlyChanges.step ?_ (StreamCtx_afterRow_frame _ _ _ _) (by decide)
          assumption

theorem askRamp_frame (q : Machine.Partition) (s : State) :
    OnlyChanges [.parts, .ramp] s (askRamp q s) := by
  unfold askRamp
  refine OnlyChanges.ite ?_ ?_
  · exact OnlyChanges.refl _ _
  · refine OnlyChanges.step ?_ (setPart_frame _ _) (by decide)
    refine only_rampQueue ?_ _ (by decide)
    exact OnlyChanges.refl _ _

theorem streamGo_frame (p : Play) (m : QMove) (s : State) :
    sndAll (OnlyChanges [.parts, .fields, .watch, .host, .xing, .ramp, .mesh, .freeCtr, .store, .mem, .near] s) (streamGo p m s) := by
  unfold streamGo
  split
  · rename_i v0 v1 v2 v3
    refine absorb (P := sndAll (OnlyChanges [.parts, .fields, .watch, .host, .xing, .ramp, .mesh, .freeCtr, .store, .mem, .near] s)) v3 ?_ (fun q4
        => ?_)
    · refine OnlyChanges.stepSnd ?_ (admitRows_frame _ _ _ _) (by decide)
      exact OnlyChanges.refl _ _
    split
    · rename_i v5 v6
      refine sndAll_mk ?_
      assumption
    · rename_i v7 v8 v9
      split
      · rename_i v10
        refine sndAll_mk ?_
        refine OnlyChanges.step ?_ (askRamp_frame _ _) (by decide)
        assumption
      · rename_i v11
        refine sndAll_mk ?_
        assumption

theorem retiredRead_frame (p : Play) (gone : Bool) (s : State) :
    OnlyChanges [.host, .xing, .store] s (retiredRead p gone s) := by
  unfold retiredRead
  refine OnlyChanges.ite ?_ ?_
  · refine OnlyChanges.step ?_ (postFull_frame _ _ _ _ _ _ _) (by decide)
    exact OnlyChanges.refl _ _
  · exact OnlyChanges.refl _ _

theorem startStream_frame (p : Play) (m : QMove) (s : State) :
    startAll (OnlyChanges [.parts, .fields, .watch, .host, .xing, .ramp, .mesh, .freeCtr, .store, .mem, .near] s) (startStream p m s) := by
  unfold startStream
  split
  · rename_i v0 v1
    trivial
  · rename_i v2 v3 v4
    split
    · rename_i v5 v6 v7
      change OnlyChanges [.parts, .fields, .watch, .host, .xing, .ramp, .mesh, .freeCtr, .store, .mem, .near] s _
      exact OnlyChanges.refl _ _
    · rename_i v8 v9
      split
      · rename_i v10 v11
        trivial
      · rename_i v12 v13 v14
        split
        · rename_i v15 v16 v17 v18
          change OnlyChanges [.parts, .fields, .watch, .host, .xing, .ramp, .mesh, .freeCtr, .store, .mem, .near] s _
          refine OnlyChanges.step ?_ (xingRecordFor_frame _ _ _ _ _ _ _) (by decide)
          exact OnlyChanges.refl _ _
        · rename_i v19 v20
          split
          · rename_i v21
            change OnlyChanges [.parts, .fields, .watch, .host, .xing, .ramp, .mesh, .freeCtr, .store, .mem, .near] s _
            exact OnlyChanges.refl _ _
          · rename_i v22
            split
            · rename_i v23
              change OnlyChanges [.parts, .fields, .watch, .host, .xing, .ramp, .mesh, .freeCtr, .store, .mem, .near] s _
              refine OnlyChanges.step ?_ (granuleFault_frame _ _ _ _ _) (by decide)
              refine OnlyChanges.step ?_ (retiredRead_frame _ _ _) (by decide)
              exact OnlyChanges.refl _ _
            · rename_i v24
              extract_lets x25 x26
              have h27 : OnlyChanges [.parts, .fields, .watch, .host, .xing, .ramp, .mesh, .freeCtr, .store, .mem, .near] s x25 := by
                unfold x25
                refine OnlyChanges.ite ?_ ?_
                · refine OnlyChanges.step ?_ (setPart_frame _ _) (by decide)
                  exact OnlyChanges.refl _ _
                · exact OnlyChanges.refl _ _
              have h28 : OnlyChanges [.parts, .fields, .watch, .host, .xing, .ramp, .mesh, .freeCtr, .store, .mem, .near] s x26 := by
                unfold x26
                refine OnlyChanges.ite ?_ ?_
                · refine OnlyChanges.fold ?_ (fun u29 y30 h31 => ?_)
                  · assumption
                  · refine OnlyChanges.step ?_ (StreamCtx_clearAmax_frame _ _ _) (by decide)
                    assumption
                · assumption
              clear_value x25 x26
              split
              · rename_i v32 v33 v34 v35
                refine absorb (P := sndAll (OnlyChanges [.parts, .fields, .watch, .host, .xing, .ramp, .mesh, .freeCtr, .store, .mem, .near] s)) v35
                    ?_ (fun q36 => ?_)
                · refine OnlyChanges.stepSnd ?_ (streamGo_frame _ _ _) (by decide)
                  assumption
                change OnlyChanges [.parts, .fields, .watch, .host, .xing, .ramp, .mesh, .freeCtr, .store, .mem, .near] s _
                assumption

theorem DestRun_line_frame (d : DestRun) (die : Nat → Nat → W32) (k : Nat) (valid : Nat) (xs : List W32) (s : State) :
    OnlyChanges [.watch, .host, .xing, .store, .mem, .near] s (DestRun.line d die k valid xs s) := by
  unfold DestRun.line
  split
  · rename_i v0 v1 v2 v3 v4 v5
    extract_lets x6 x7 x8
    have h9 : OnlyChanges [.watch, .host, .xing, .store, .mem, .near] s x7 := by
      unfold x7
      refine OnlyChanges.step ?_ (sqWriteLine_frame _ _ _ _ _) (by decide)
      exact OnlyChanges.refl _ _
    have h10 : OnlyChanges [.watch, .host, .xing, .store, .mem, .near] s x8 := by
      unfold x8
      refine OnlyChanges.ite ?_ ?_
      · refine OnlyChanges.step ?_ (writeBytes_frame _ _ _) (by decide)
        assumption
      · assumption
    clear_value x6 x7 x8
    refine OnlyChanges.step ?_ (countConv_frame _ _ _ _) (by decide)
    assumption

theorem DestRun_heads_frame (d : DestRun) (amax : List W32) (s : State) :
    OnlyChanges [.host, .xing, .store, .mem, .near] s (DestRun.heads d amax s) := by
  unfold DestRun.heads
  extract_lets x0
  clear_value x0
  refine OnlyChanges.fold ?_ (fun u1 y2 h3 => ?_)
  · exact OnlyChanges.refl _ _
  · extract_lets x4
    clear_value x4
    refine OnlyChanges.ite ?_ ?_
    · refine OnlyChanges.step ?_ (sqWriteDesc_frame _ _ _ _ _ _) (by decide)
      assumption
    · refine OnlyChanges.ite ?_ ?_
      · refine OnlyChanges.step ?_ (writeN_frame _ _ _ _) (by decide)
        assumption
      · assumption

theorem DestRun_write_frame (d : DestRun) (die : Nat → Nat → W32) (valid : Nat → Nat) (lines : List (List W32)) (s : State) :
    OnlyChanges [.watch, .host, .xing, .store, .mem, .near] s (DestRun.write d die valid lines s) := by
  unfold DestRun.write
  extract_lets x0 x1
  have h2 : OnlyChanges [.watch, .host, .xing, .store, .mem, .near] s x1 := by
    unfold x1
    refine OnlyChanges.step ?_ (DestRun_heads_frame _ _ _) (by decide)
    refine OnlyChanges.fold ?_ (fun u3 y4 h5 => ?_)
    · exact OnlyChanges.refl _ _
    · split
      · rename_i v6 v7 v8
        refine OnlyChanges.step ?_ (DestRun_line_frame _ _ _ _ _ _) (by decide)
        assumption
  clear_value x0 x1
  refine OnlyChanges.ite ?_ ?_
  · assumption
  · refine OnlyChanges.step ?_ (padLines_frame _ _ _ _) (by decide)
    assumption

theorem copyRun_frame (a : Nat) (d : Nat) (fmt : Nat) (n : Nat) (trans : Bool) (s : State) :
    OnlyChanges [.host, .xing, .store, .mem, .near] s (copyRun a d fmt n trans s) := by
  unfold copyRun
  beta_reduce
  refine OnlyChanges.ite ?_ ?_
  · refine OnlyChanges.fold ?_ (fun u0 y1 h2 => ?_)
    · exact OnlyChanges.refl _ _
    · extract_lets x3 x4 x5 x6 x7 x8
      have h9 : OnlyChanges [.host, .xing, .store, .mem, .near] s x7 := by
        unfold x7
        refine OnlyChanges.step ?_ (sqWriteDesc_frame _ _ _ _ _ _) (by decide)
        assumption
      have h10 : OnlyChanges [.host, .xing, .store, .mem, .near] s x8 := by
        unfold x8
        refine OnlyChanges.ite ?_ ?_
        · assumption
        · refine OnlyChanges.ite ?_ ?_
          · refine OnlyChanges.step ?_ (writeBytes_frame _ _ _) (by decide)
            assumption
          · refine OnlyChanges.ite ?_ ?_
            · refine OnlyChanges.step ?_ (writeN_frame _ _ _ _) (by decide)
              assumption
            · assumption
      clear_value x3 x4 x5 x6 x7 x8
      refine OnlyChanges.step ?_ (sqWriteLine_frame _ _ _ _ _) (by decide)
      assumption
  · refine OnlyChanges.step ?_ (padBody_frame _ _ _ _) (by decide)
    refine OnlyChanges.fold ?_ (fun u11 y12 h13 => ?_)
    · exact OnlyChanges.refl _ _
    · extract_lets x14 x15 x16 x17 x18 x19
      have h20 : OnlyChanges [.host, .xing, .store, .mem, .near] s x18 := by
        unfold x18
        refine OnlyChanges.step ?_ (sqWriteDesc_frame _ _ _ _ _ _) (by decide)
        assumption
      have h21 : OnlyChanges [.host, .xing, .store, .mem, .near] s x19 := by
        unfold x19
        refine OnlyChanges.ite ?_ ?_
        · assumption
        · refine OnlyChanges.ite ?_ ?_
          · refine OnlyChanges.step ?_ (writeBytes_frame _ _ _) (by decide)
            assumption
          · refine OnlyChanges.ite ?_ ?_
            · refine OnlyChanges.step ?_ (writeN_frame _ _ _ _) (by decide)
              assumption
            · assumption
      clear_value x14 x15 x16 x17 x18 x19
      refine OnlyChanges.step ?_ (sqWriteLine_frame _ _ _ _ _) (by decide)
      assumption

theorem startElem_frame (p : Play) (tile : Nat) (m : QMove) (s : State) :
    startAll (OnlyChanges [.watch, .host, .xing, .freeCtr, .store, .mem, .near] s) (startElem p tile m s) := by
  unfold startElem
  extract_lets x0 x1 x2 x3 x4 x5 x6 x7 x8 x9 x10 x11 x12 x13 x14 x15 x16 x17 x18 x19 x20 x21 x22 x23 x24
  clear_value x0 x1 x2 x3 x4 x5 x6 x7 x8 x9 x10 x11 x12 x13 x14 x15 x16 x17 x18 x19 x20 x21 x22 x23 x24
  split
  · rename_i v25
    change OnlyChanges [.watch, .host, .xing, .freeCtr, .store, .mem, .near] s _
    exact OnlyChanges.refl _ _
  · rename_i v26
    split
    · rename_i v27
      change OnlyChanges [.watch, .host, .xing, .freeCtr, .store, .mem, .near] s _
      exact OnlyChanges.refl _ _
    · rename_i v28
      split
      · rename_i v29 v30 v31
        change OnlyChanges [.watch, .host, .xing, .freeCtr, .store, .mem, .near] s _
        exact OnlyChanges.refl _ _
      · rename_i v32 v33
        split
        · rename_i v34
          change OnlyChanges [.watch, .host, .xing, .freeCtr, .store, .mem, .near] s _
          exact OnlyChanges.refl _ _
        · rename_i v35
          split
          · rename_i v36
            change OnlyChanges [.watch, .host, .xing, .freeCtr, .store, .mem, .near] s _
            refine OnlyChanges.step ?_ (freeBytes_frame _ _ _) (by decide)
            exact OnlyChanges.refl _ _
          · rename_i v37
            split
            · rename_i v38
              change OnlyChanges [.watch, .host, .xing, .freeCtr, .store, .mem, .near] s _
              refine OnlyChanges.step ?_ (copyRun_frame _ _ _ _ _ _) (by decide)
              exact OnlyChanges.refl _ _
            · rename_i v39
              change OnlyChanges [.watch, .host, .xing, .freeCtr, .store, .mem, .near] s _
              refine OnlyChanges.step ?_ (DestRun_write_frame _ _ _ _ _) (by decide)
              exact OnlyChanges.refl _ _

theorem startGroup_frame (p : Play) (tile : Nat) (op : Nat) (m : QMove) (s : State) :
    startAll (OnlyChanges [] s) (startGroup p tile op m s) := by
  unfold startGroup
  extract_lets x0 x1 x2 x3 x4 x5 x6 x7 x8 x9 x10
  clear_value x0 x1 x2 x3 x4 x5 x6 x7 x8 x9 x10
  split
  · rename_i v11
    split
    · rename_i v12
      change OnlyChanges [] s _
      exact OnlyChanges.refl _ _
    · rename_i v13
      split
      · rename_i v14
        change OnlyChanges [] s _
        exact OnlyChanges.refl _ _
      · rename_i v15
        split
        · rename_i v16
          change OnlyChanges [] s _
          exact OnlyChanges.refl _ _
        · rename_i v17
          change OnlyChanges [] s _
          exact OnlyChanges.refl _ _
  · rename_i v18
    split
    · rename_i v19
      change OnlyChanges [] s _
      exact OnlyChanges.refl _ _
    · rename_i v20
      split
      · rename_i v21
        change OnlyChanges [] s _
        exact OnlyChanges.refl _ _
      · rename_i v22
        split
        · rename_i v23 v24 v25
          change OnlyChanges [] s _
          exact OnlyChanges.refl _ _
        · rename_i v26 v27
          split
          · rename_i v28
            split
            · rename_i v29
              change OnlyChanges [] s _
              exact OnlyChanges.refl _ _
            · rename_i v30
              split
              · rename_i v31
                change OnlyChanges [] s _
                exact OnlyChanges.refl _ _
              · rename_i v32
                change OnlyChanges [] s _
                exact OnlyChanges.refl _ _
          · rename_i v33
            split
            · rename_i v34
              change OnlyChanges [] s _
              exact OnlyChanges.refl _ _
            · rename_i v35
              split
              · rename_i v36
                change OnlyChanges [] s _
                exact OnlyChanges.refl _ _
              · rename_i v37
                change OnlyChanges [] s _
                exact OnlyChanges.refl _ _

theorem gaccRun_frame (m : Member) (s0 : State) (s : State) :
    OnlyChanges [.mem] s (gaccRun m s0 s) := by
  unfold gaccRun
  extract_lets x0
  clear_value x0
  refine OnlyChanges.ite ?_ ?_
  · refine OnlyChanges.fold ?_ (fun u1 y2 h3 => ?_)
    · exact OnlyChanges.refl _ _
    · refine OnlyChanges.fold ?_ (fun u4 y5 h6 => ?_)
      · assumption
      · split
        · rename_i v7 v8 v9
          extract_lets x10
          clear_value x10
          refine OnlyChanges.step ?_ (writeN_frame _ _ _ _) (by decide)
          assumption
  · exact OnlyChanges.refl _ _

theorem groupWrite_frame (p : Play) (s0 : State) (l : List Member) (m : Member) (s : State) :
    OnlyChanges [.knots, .watch, .host, .xing, .store, .mem, .near] s (groupWrite p s0 l m s) := by
  unfold groupWrite
  extract_lets x0 x1 x2 x3 x4 x5 x6 x7 x8 x9
  clear_value x0 x1 x2 x3 x4 x5 x6 x7 x8 x9
  refine OnlyChanges.ite ?_ ?_
  · refine OnlyChanges.step ?_ (addKnot_frame _ _ _) (by decide)
    refine OnlyChanges.step ?_ (writeN_frame _ _ _ _) (by decide)
    exact OnlyChanges.refl _ _
  · refine OnlyChanges.ite ?_ ?_
    · refine OnlyChanges.fold ?_ (fun u10 y11 h12 => ?_)
      · exact OnlyChanges.refl _ _
      · extract_lets x13 x14
        clear_value x13 x14
        refine OnlyChanges.step ?_ (countConv_frame _ _ _ _) (by decide)
        refine OnlyChanges.step ?_ (writeN_frame _ _ _ _) (by decide)
        assumption
    · refine OnlyChanges.step ?_ (gaccRun_frame _ _ _) (by decide)
      refine OnlyChanges.step ?_ (DestRun_write_frame _ _ _ _ _) (by decide)
      exact OnlyChanges.refl _ _

theorem topkRow_frame (p : Play) (tile : Nat) (m : QMove) (i : Nat) (s : State) :
    OnlyChanges [.watch, .mem] s (topkRow p tile m i s) := by
  unfold topkRow
  extract_lets x0 x1 x2 x3 x4 x5 x6 x7 x8 x9 x10 x11
  have h12 : OnlyChanges [.watch, .mem] s x9 := by
    unfold x9
    refine OnlyChanges.step ?_ (countConv_frame _ _ _ _) (by decide)
    exact OnlyChanges.refl _ _
  clear_value x0 x1 x2 x3 x4 x5 x6 x7 x8 x9 x10 x11
  refine OnlyChanges.fold ?_ (fun u13 y14 h15 => ?_)
  · assumption
  · extract_lets x16 x17 x18
    have h19 : OnlyChanges [.watch, .mem] s x18 := by
      unfold x18
      refine OnlyChanges.step ?_ (writeN_frame _ _ _ _) (by decide)
      assumption
    clear_value x16 x17 x18
    split
    · rename_i v20 v21 v22
      split
      · rename_i v23 v24 v25 v26
        refine OnlyChanges.step ?_ (countConv_frame _ _ _ _) (by decide)
        refine OnlyChanges.step ?_ (writeN_frame _ _ _ _) (by decide)
        assumption
    · rename_i v27 v28
      refine OnlyChanges.step ?_ (writeN_frame _ _ _ _) (by decide)
      assumption

theorem startTopk_frame (p : Play) (tile : Nat) (m : QMove) (s : State) :
    startAll (OnlyChanges [.watch, .mem] s) (startTopk p tile m s) := by
  unfold startTopk
  extract_lets x0 x1 x2 x3 x4 x5
  clear_value x0 x1 x2 x3 x4 x5
  split
  · rename_i v6
    change OnlyChanges [.watch, .mem] s _
    exact OnlyChanges.refl _ _
  · rename_i v7
    split
    · rename_i v8
      change OnlyChanges [.watch, .mem] s _
      exact OnlyChanges.refl _ _
    · rename_i v9
      split
      · rename_i v10 v11 v12
        change OnlyChanges [.watch, .mem] s _
        exact OnlyChanges.refl _ _
      · rename_i v13 v14
        split
        · rename_i v15
          split
          · rename_i v16
            change OnlyChanges [.watch, .mem] s _
            exact OnlyChanges.refl _ _
          · rename_i v17
            change OnlyChanges [.watch, .mem] s _
            refine OnlyChanges.fold ?_ (fun u18 y19 h20 => ?_)
            · exact OnlyChanges.refl _ _
            · refine OnlyChanges.step ?_ (topkRow_frame _ _ _ _ _) (by decide)
              assumption
        · rename_i v21
          split
          · rename_i v22
            change OnlyChanges [.watch, .mem] s _
            exact OnlyChanges.refl _ _
          · rename_i v23
            change OnlyChanges [.watch, .mem] s _
            refine OnlyChanges.fold ?_ (fun u24 y25 h26 => ?_)
            · exact OnlyChanges.refl _ _
            · refine OnlyChanges.step ?_ (topkRow_frame _ _ _ _ _) (by decide)
              assumption

theorem gatherRows_frame (tile : Nat) (op : Nat) (w : MoveWord) (a : List Nat) (a' : State) :
    sndAll (OnlyChanges [.mem] a') (gatherRows tile op w a a') := by
  induction a generalizing tile op w a'
  · unfold gatherRows
    refine sndAll_mk ?_
    exact OnlyChanges.refl _ _
  · rename_i w0 w1 ih
    unfold gatherRows
    extract_lets x2 x3 x4 x5 x6
    have h7 : OnlyChanges [.mem] a' x6 := by
      unfold x6
      split
      · rename_i v8
        refine OnlyChanges.step ?_ (writeBytes_frame _ _ _) (by decide)
        exact OnlyChanges.refl _ _
      · rename_i v9
        refine OnlyChanges.step ?_ (writeBytes_frame _ _ _) (by decide)
        exact OnlyChanges.refl _ _
      · rename_i v10 v11 v12
        refine OnlyChanges.fold ?_ (fun u13 y14 h15 => ?_)
        · exact OnlyChanges.refl _ _
        · extract_lets x16
          clear_value x16
          refine OnlyChanges.step ?_ (writeN_frame _ _ _ _) (by decide)
          assumption
    clear_value x2 x3 x4 x5 x6
    split
    · rename_i v17
      refine sndAll_mk ?_
      exact OnlyChanges.refl _ _
    · rename_i v18
      refine OnlyChanges.stepSnd ?_ (ih _ _ _ _) (by decide)
      assumption

theorem startGather_frame (p : Play) (tile : Nat) (op : Nat) (m : QMove) (s : State) :
    startAll (OnlyChanges [.mem] s) (startGather p tile op m s) := by
  unfold startGather
  extract_lets x0 x1 x2 x3
  clear_value x0 x1 x2 x3
  split
  · rename_i v4
    change OnlyChanges [.mem] s _
    exact OnlyChanges.refl _ _
  · rename_i v5
    split
    · rename_i v6
      change OnlyChanges [.mem] s _
      exact OnlyChanges.refl _ _
    · rename_i v7
      split
      · rename_i v8 v9 v10
        change OnlyChanges [.mem] s _
        exact OnlyChanges.refl _ _
      · rename_i v11 v12
        split
        · rename_i v13
          split
          · rename_i v14
            change OnlyChanges [.mem] s _
            exact OnlyChanges.refl _ _
          · rename_i v15
            split
            · rename_i v16 v17 v18 v19
              refine absorb (P := sndAll (OnlyChanges [.mem] s)) v19 ?_ (fun q20 => ?_)
              · refine OnlyChanges.stepSnd ?_ (gatherRows_frame _ _ _ _ _) (by decide)
                exact OnlyChanges.refl _ _
              split
              · rename_i v21
                change OnlyChanges [.mem] s _
                assumption
              · rename_i v22
                change OnlyChanges [.mem] s _
                assumption
        · rename_i v23
          split
          · rename_i v24
            change OnlyChanges [.mem] s _
            exact OnlyChanges.refl _ _
          · rename_i v25
            split
            · rename_i v26 v27 v28 v29
              refine absorb (P := sndAll (OnlyChanges [.mem] s)) v29 ?_ (fun q30 => ?_)
              · refine OnlyChanges.stepSnd ?_ (gatherRows_frame _ _ _ _ _) (by decide)
                exact OnlyChanges.refl _ _
              split
              · rename_i v31
                change OnlyChanges [.mem] s _
                assumption
              · rename_i v32
                change OnlyChanges [.mem] s _
                assumption

theorem packSquare_frame (p : Play) (tile : Nat) (m : QMove) (q : Nat) (s : State) :
    OnlyChanges [.watch, .host, .xing, .store, .mem, .near] s (packSquare p tile m q s) := by
  unfold packSquare
  extract_lets x0 x1 x2 x3 x4 x5 x6 x7 x8 x9 x10
  clear_value x0 x1 x2 x3 x4 x5 x6 x7 x8 x9 x10
  split
  · rename_i v11 v12 v13 v14
    refine absorb (P := fstAll (OnlyChanges [.watch, .host, .xing, .store, .mem, .near] s)) v14 ?_ (fun q15 => ?_)
    · split
      · rename_i v16
        refine OnlyChanges.foldFst ?_ (fun u17 y18 h19 => ?_)
        · refine fstAll_mk ?_
          exact OnlyChanges.refl _ _
        · split
          · rename_i v20 v21 v22 v23 v24
            refine fstAll_mk ?_
            refine OnlyChanges.step ?_ (writeBytes_frame _ _ _) (by decide)
            refine OnlyChanges.step ?_ (sqWriteCol_frame _ _ _ _ _) (by decide)
            show fstAll (OnlyChanges [.watch, .host, .xing, .store, .mem, .near] s) _
            assumption
      · rename_i v25
        refine OnlyChanges.foldFst ?_ (fun u26 y27 h28 => ?_)
        · refine fstAll_mk ?_
          exact OnlyChanges.refl _ _
        · split
          · rename_i v29 v30 v31 v32 v33
            extract_lets x34
            have h35 : OnlyChanges [.watch, .host, .xing, .store, .mem, .near] s x34 := by
              unfold x34
              refine OnlyChanges.step ?_ (sqWriteLine_frame _ _ _ _ _) (by decide)
              show fstAll (OnlyChanges [.watch, .host, .xing, .store, .mem, .near] s) _
              assumption
            clear_value x34
            refine fstAll_mk ?_
            refine OnlyChanges.ite ?_ ?_
            · refine OnlyChanges.step ?_ (writeBytes_frame _ _ _) (by decide)
              assumption
            · assumption
    extract_lets x36
    have h37 : OnlyChanges [.watch, .host, .xing, .store, .mem, .near] s x36 := by
      unfold x36
      refine OnlyChanges.ite ?_ ?_
      · refine OnlyChanges.step ?_ (sqWriteDesc_frame _ _ _ _ _ _) (by decide)
        assumption
      · assumption
    clear_value x36
    refine OnlyChanges.step ?_ (countConv_frame _ _ _ _) (by decide)
    assumption

theorem startPack_frame (p : Play) (tile : Nat) (m : QMove) (s : State) :
    startAll (OnlyChanges [.watch, .host, .xing, .store, .mem, .near] s) (startPack p tile m s) := by
  unfold startPack
  extract_lets x0 x1 x2 x3
  clear_value x0 x1 x2 x3
  split
  · rename_i v4
    change OnlyChanges [.watch, .host, .xing, .store, .mem, .near] s _
    exact OnlyChanges.refl _ _
  · rename_i v5
    split
    · rename_i v6
      change OnlyChanges [.watch, .host, .xing, .store, .mem, .near] s _
      exact OnlyChanges.refl _ _
    · rename_i v7
      split
      · rename_i v8
        split
        · rename_i v9
          change OnlyChanges [.watch, .host, .xing, .store, .mem, .near] s _
          exact OnlyChanges.refl _ _
        · rename_i v10
          split
          · rename_i v11
            trivial
          · rename_i v12
            change OnlyChanges [.watch, .host, .xing, .store, .mem, .near] s _
            refine OnlyChanges.fold ?_ (fun u13 y14 h15 => ?_)
            · exact OnlyChanges.refl _ _
            · refine OnlyChanges.step ?_ (packSquare_frame _ _ _ _ _) (by decide)
              assumption
      · rename_i v16
        split
        · rename_i v17
          change OnlyChanges [.watch, .host, .xing, .store, .mem, .near] s _
          exact OnlyChanges.refl _ _
        · rename_i v18
          split
          · rename_i v19
            trivial
          · rename_i v20
            change OnlyChanges [.watch, .host, .xing, .store, .mem, .near] s _
            refine OnlyChanges.fold ?_ (fun u21 y22 h23 => ?_)
            · exact OnlyChanges.refl _ _
            · refine OnlyChanges.step ?_ (packSquare_frame _ _ _ _ _) (by decide)
              assumption

theorem cacheRead_frame (s : State) (tile : Nat) (unit : Nat) :
    optSndAll (OnlyChanges [.caches] s) (cacheRead s tile unit) := by
  unfold cacheRead
  extract_lets x0
  clear_value x0
  refine optSndAll_map (fun y1 => ?_)
  refine sndAll_mk ?_
  refine only_caches ?_ _ (by decide)
  exact OnlyChanges.refl _ _

theorem cacheFill_frame (tile : Nat) (unit : Nat) (data : List Byte) (s : State) :
    OnlyChanges [.caches] s (cacheFill tile unit data s) := by
  unfold cacheFill
  extract_lets x0
  clear_value x0
  refine only_caches ?_ _ (by decide)
  exact OnlyChanges.refl _ _

theorem cacheUpdate_frame (tile : Nat) (unit : Nat) (data : List Byte) (s : State) :
    OnlyChanges [.caches] s (cacheUpdate tile unit data s) := by
  unfold cacheUpdate
  extract_lets x0
  clear_value x0
  refine OnlyChanges.ite ?_ ?_
  · refine only_caches ?_ _ (by decide)
    exact OnlyChanges.refl _ _
  · exact OnlyChanges.refl _ _

theorem cacheDrop_frame (tile : Nat) (a : Nat) (n : Nat) (s : State) :
    OnlyChanges [.caches] s (cacheDrop tile a n s) := by
  unfold cacheDrop
  refine OnlyChanges.step ?_ (dropLines_frame _ _) (by decide)
  exact OnlyChanges.refl _ _

theorem hostFault_frame (p : Play) (port : Nat) (a : Nat) (s : State) :
    OnlyChanges [.host, .xing, .store] s (hostFault p port a s) := by
  unfold hostFault
  refine OnlyChanges.step ?_ (postFull_frame _ _ _ _ _ _ _) (by decide)
  exact OnlyChanges.refl _ _

theorem nearUnit_frame (p : Play) (s : State) (a : Nat) :
    unitAll (OnlyChanges [.host, .xing, .store] s) (nearUnit p s a) := by
  unfold nearUnit
  split
  · rename_i v0
    change OnlyChanges [.host, .xing, .store] s _
    exact OnlyChanges.refl _ _
  · rename_i v1
    split
    · rename_i v2
      change OnlyChanges [.host, .xing, .store] s _
      refine OnlyChanges.step ?_ (granuleFault_frame _ _ _ _ _) (by decide)
      exact OnlyChanges.refl _ _
    · rename_i v3
      change OnlyChanges [.host, .xing, .store] s _
      exact OnlyChanges.refl _ _

theorem unitRead_frame (p : Play) (tile : Nat) (f : MoveFault) (a : Nat) (s : State) :
    unitAll (OnlyChanges [.cap, .caches, .knots, .host, .xing, .freeCtr, .store, .rel, .mem] s) (unitRead p tile f a s) := by
  have near (b : Nat) : unitAll (OnlyChanges [.cap, .caches, .knots, .host, .xing, .freeCtr, .store, .rel, .mem] s) (nearUnit p s b) :=
    OnlyChanges.stepUnit (OnlyChanges.refl _ s) (nearUnit_frame p s b) (by decide)
  unfold unitRead
  generalize spaceOf a = z
  generalize hintResolve s a = y
  cases z
  case near =>
    dsimp only
    split
    · exact OnlyChanges.refl _ _
    · have c := OnlyChanges.stepOptSnd (l := [.cap, .caches, .knots, .host, .xing, .freeCtr, .store, .rel, .mem]) (OnlyChanges.refl _ s)
          (cacheRead_frame s tile (a / 128)) (by decide)
      generalize cacheRead s tile (a / 128) = r at c
      cases r with
      | some x => exact c
      | none =>
        have k := near a
        generalize nearUnit p s a = r at k
        cases r with
        | ok d t => exact OnlyChanges.step (l := [.cap, .caches, .knots, .host, .xing, .freeCtr, .store, .rel, .mem]) k (cacheFill_frame _ _ _ _)
                      (by decide)
        | stop st t => exact k
        | bad t => exact k
  case rim =>
    dsimp only
    split
    · show OnlyChanges _ _ _
      split
      · exact OnlyChanges.step (OnlyChanges.refl _ _) (rimAt_frame _ _ _ _) (by decide)
      · exact OnlyChanges.refl _ _
    · exact OnlyChanges.refl _ _
  case hint =>
    cases y
    case near b =>
      have k := near b
      dsimp only
      generalize nearUnit p s b = r at k
      cases r <;> exact k
    case host =>
      dsimp only
      split
      · exact OnlyChanges.step (OnlyChanges.refl _ _) (hostFault_frame _ _ _ _) (by decide)
      · exact OnlyChanges.refl _ _
    case none => exact OnlyChanges.refl _ _
  all_goals exact OnlyChanges.refl _ _

theorem unitWrite_frame (p : Play) (tile : Nat) (f : MoveFault) (a : Nat) (d : List Byte) (s : State) :
    unitAll (OnlyChanges [.caches, .host, .xing, .store, .mem, .near] s) (unitWrite p tile f a d s) := by
  have w (b : Nat) : OnlyChanges [.caches, .host, .xing, .store, .mem, .near] s (writeBytes b d s) :=
    OnlyChanges.step (OnlyChanges.refl _ _) (writeBytes_frame _ _ _) (by decide)
  have u (b : Nat) : OnlyChanges [.caches, .host, .xing, .store, .mem, .near] s (writeBytes b d (unpoison b 128 s)) :=
    OnlyChanges.step (OnlyChanges.step (OnlyChanges.refl _ _) (unpoison_frame _ _ _) (by decide)) (writeBytes_frame _ _ _) (by decide)
  unfold unitWrite
  generalize spaceOf a = z
  generalize hintResolve s a = y
  cases z
  case near =>
    dsimp only
    split
    · exact OnlyChanges.refl _ _
    · exact OnlyChanges.step (u a) (cacheUpdate_frame _ _ _ _) (by decide)
  case hint =>
    cases y
    case near b =>
      dsimp only
      split
      · exact OnlyChanges.refl _ _
      · exact u b
    case host =>
      dsimp only
      split
      · exact OnlyChanges.step (OnlyChanges.refl _ _) (hostFault_frame _ _ _ _) (by decide)
      · exact OnlyChanges.step (OnlyChanges.refl _ _) (hostWrite_frame _ _ _ _) (by decide)
    case none => exact OnlyChanges.refl _ _
  all_goals exact w a

theorem copyUnits_frame (p : Play) (tile : Nat) (m : QMove) (a : List (Nat × Nat)) (a' : List (Nat × Nat × List Byte)) (a'' : State) :
    unitAll (OnlyChanges [.cap, .caches, .knots, .host, .xing, .freeCtr, .store, .rel, .mem, .near] a'') (copyUnits p tile m a a' a'') := by
  induction a generalizing p tile m a' a''
  · unfold copyUnits
    change OnlyChanges [.cap, .caches, .knots, .host, .xing, .freeCtr, .store, .rel, .mem, .near] a'' _
    exact OnlyChanges.refl _ _
  · rename_i w0 w1 ih
    unfold copyUnits
    extract_lets x2
    clear_value x2
    split
    · rename_i v3 v4 v5 v6 v7
      refine absorb (P := unitAll (OnlyChanges [.cap, .caches, .knots, .host, .xing, .freeCtr, .store, .rel, .mem, .near] a'')) v7 ?_ (fun q8 => ?_)
      · refine OnlyChanges.stepUnit ?_ (unitRead_frame _ _ _ _ _) (by decide)
        exact OnlyChanges.refl _ _
      split
      · rename_i v9 v10 v11 v12
        refine absorb (P := unitAll (OnlyChanges [.cap, .caches, .knots, .host, .xing, .freeCtr, .store, .rel, .mem, .near] a'')) v12 ?_ (fun q13 =>
            ?_)
        · refine OnlyChanges.stepUnit ?_ (unitWrite_frame _ _ _ _ _ _) (by decide)
          assumption
        refine OnlyChanges.stepUnit ?_ (ih _ _ _ _ _) (by decide)
        assumption
      · rename_i v14 v15 v16 v17
        refine absorb (P := unitAll (OnlyChanges [.cap, .caches, .knots, .host, .xing, .freeCtr, .store, .rel, .mem, .near] a'')) v17 ?_ (fun q18 =>
            ?_)
        · refine OnlyChanges.stepUnit ?_ (unitWrite_frame _ _ _ _ _ _) (by decide)
          assumption
        change OnlyChanges [.cap, .caches, .knots, .host, .xing, .freeCtr, .store, .rel, .mem, .near] a'' _
        assumption
      · rename_i v19 v20 v21
        refine absorb (P := unitAll (OnlyChanges [.cap, .caches, .knots, .host, .xing, .freeCtr, .store, .rel, .mem, .near] a'')) v21 ?_ (fun q22 =>
            ?_)
        · refine OnlyChanges.stepUnit ?_ (unitWrite_frame _ _ _ _ _ _) (by decide)
          assumption
        change OnlyChanges [.cap, .caches, .knots, .host, .xing, .freeCtr, .store, .rel, .mem, .near] a'' _
        assumption
    · rename_i v23 v24 v25 v26
      refine absorb (P := unitAll (OnlyChanges [.cap, .caches, .knots, .host, .xing, .freeCtr, .store, .rel, .mem, .near] a'')) v26 ?_ (fun q27 => ?_)
      · refine OnlyChanges.stepUnit ?_ (unitRead_frame _ _ _ _ _) (by decide)
        exact OnlyChanges.refl _ _
      change OnlyChanges [.cap, .caches, .knots, .host, .xing, .freeCtr, .store, .rel, .mem, .near] a'' _
      assumption
    · rename_i v28 v29 v30
      refine absorb (P := unitAll (OnlyChanges [.cap, .caches, .knots, .host, .xing, .freeCtr, .store, .rel, .mem, .near] a'')) v30 ?_ (fun q31 => ?_)
      · refine OnlyChanges.stepUnit ?_ (unitRead_frame _ _ _ _ _) (by decide)
        exact OnlyChanges.refl _ _
      change OnlyChanges [.cap, .caches, .knots, .host, .xing, .freeCtr, .store, .rel, .mem, .near] a'' _
      assumption

theorem rawWrite_frame (tile : Nat) (a : Nat) (d : List Byte) (s : State) :
    OnlyChanges [.caches, .host, .mem] s (rawWrite tile a d s) := by
  have w (b : Nat) : OnlyChanges [.caches, .host, .mem] s (writeBytes b d s) :=
    OnlyChanges.step (OnlyChanges.refl _ _) (writeBytes_frame _ _ _) (by decide)
  unfold rawWrite
  generalize spaceOf a = z
  generalize hintResolve s a = y
  cases z
  case near => exact OnlyChanges.step (w a) (cacheUpdate_frame _ _ _ _) (by decide)
  case hint =>
    cases y
    case near b => exact w b
    case host => exact OnlyChanges.step (OnlyChanges.refl _ _) (hostWrite_frame _ _ _ _) (by decide)
    case none => exact OnlyChanges.refl _ _
  all_goals exact w a

theorem drawBytes_frame (n : Nat) (s : State) :
    sndAll (OnlyChanges [.freeCtr] s) (drawBytes n s) := by
  unfold drawBytes
  refine sndAll_mk ?_
  refine only_freeCtr ?_ _ (by decide)
  exact OnlyChanges.refl _ _

theorem freeUnit_frame (tile : Nat) (a : Nat) (s : State) :
    OnlyChanges [.caches, .host, .freeCtr, .mem] s (freeUnit tile a s) := by
  unfold freeUnit
  split
  · rename_i v0 v1 v2 v3
    refine absorb (P := sndAll (OnlyChanges [.caches, .host, .freeCtr, .mem] s)) v3 ?_ (fun q4 => ?_)
    · refine OnlyChanges.stepSnd ?_ (drawBytes_frame _ _) (by decide)
      exact OnlyChanges.refl _ _
    refine OnlyChanges.step ?_ (rawWrite_frame _ _ _ _) (by decide)
    assumption

theorem freeOverlap_frame (s0 : State) (p : Play) (tile : Nat) (w : MoveWord) (s : State) :
    OnlyChanges [.caches, .host, .freeCtr, .mem] s (freeOverlap s0 p tile w s) := by
  unfold freeOverlap
  extract_lets x0
  clear_value x0
  refine OnlyChanges.fold ?_ (fun u1 y2 h3 => ?_)
  · exact OnlyChanges.refl _ _
  · refine OnlyChanges.ite ?_ ?_
    · refine OnlyChanges.step ?_ (freeUnit_frame _ _ _) (by decide)
      assumption
    · assumption

theorem settleUnit_frame (tile : Nat) (hit : List Nat) (x : Nat × Nat × List Byte) (s : State) :
    OnlyChanges [.caches, .host, .freeCtr, .mem] s (settleUnit tile hit x s) := by
  unfold settleUnit
  split
  · rename_i v0 v1 v2 v3
    extract_lets x4
    clear_value x4
    refine OnlyChanges.ite ?_ ?_
    · refine OnlyChanges.step ?_ (freeUnit_frame _ _ _) (by decide)
      exact OnlyChanges.refl _ _
    · refine OnlyChanges.ite ?_ ?_
      · exact OnlyChanges.refl _ _
      · split
        · rename_i v5 v6 v7 v8
          refine absorb (P := sndAll (OnlyChanges [.caches, .host, .freeCtr, .mem] s)) v8 ?_ (fun q9 => ?_)
          · refine OnlyChanges.stepSnd ?_ (draw_frame _) (by decide)
            exact OnlyChanges.refl _ _
          refine OnlyChanges.ite ?_ ?_
          · refine OnlyChanges.step ?_ (rawWrite_frame _ _ _ _) (by decide)
            refine OnlyChanges.ite ?_ ?_
            · refine OnlyChanges.step ?_ (cacheUpdate_frame _ _ _ _) (by decide)
              assumption
            · assumption
          · assumption

/-- Under other hint placements an act changes what it changes, but no placement. -/
theorem underPlace_frame {l : List Part} {s : State} {m : QMove} {f : State → State} (h : ∀ u, OnlyChanges l u (f u)) :
    OnlyChanges l s (underPlace m f s) := by
  intro p hp
  have k := h { s with hints := m.place } p hp
  cases p <;> first | rfl | exact k

theorem settleMove_frame (tile : Nat) (m : QMove) (s : State) :
    OnlyChanges [.caches, .host, .freeCtr, .mem] s (settleMove tile m s) :=
  underPlace_frame fun _ => OnlyChanges.fold (OnlyChanges.refl _ _) fun _ _ h => OnlyChanges.step h (settleUnit_frame _ _ _ _) (by decide)

theorem startAll_mapState {P Q : State → Prop} {f : State → State} {r : Start} (h : startAll P r) (k : ∀ u, P u → Q (f u)) :
    startAll Q (Start.mapState f r) := by
  cases r <;> first | exact True.intro | exact k _ h

theorem runMove_frame (p : Play) (tile : Nat) (m : QMove) (s : State) :
    startAll (OnlyChanges [.cap, .caches, .knots, .host, .xing, .freeCtr, .store, .rel, .mem, .near] s) (runMove p tile m s) := by
  unfold runMove
  dsimp only
  refine startAll_mapState (P := OnlyChanges [.cap, .caches, .knots, .host, .xing, .freeCtr, .store, .rel, .mem, .near] { s with hints := m.place })
      ?_ fun u h => ?_
  · split
    · trivial
    · split
      · exact OnlyChanges.refl _ _
      · have c := copyUnits_frame p tile m (moveUnits m.word) [] { s with hints := m.place }
        split
        · rename_i took t e
          rw [e] at c
          exact OnlyChanges.step (OnlyChanges.step (OnlyChanges.refl _ _) c (by decide)) (freeOverlap_frame _ _ _ _ _) (by decide)
        · rename_i st t e
          rw [e] at c
          exact OnlyChanges.step (OnlyChanges.refl _ _) c (by decide)
        · rename_i t e
          rw [e] at c
          exact OnlyChanges.step (OnlyChanges.refl _ _) c (by decide)
  · intro p hp
    have k := h p hp
    cases p <;> first | rfl | exact k

theorem faultMove_frame {l : List Part} {s t : State} (p : Play) (tile : Nat) (m : QMove) {lose : Nat → State → Start} (hs : OnlyChanges l s t)
    (hl : ∀ p ∈ ([.cap, .caches, .knots, .host, .xing, .freeCtr, .store, .rel, .mem, .near] : List Part), p ∈ l)
    (hf : ∀ c u, OnlyChanges l s u → startAll (OnlyChanges l s) (lose c u)) : startAll (OnlyChanges l s) (faultMove p tile m t lose) := by
  have run (u : State) (h : OnlyChanges l s u) : startAll (OnlyChanges l s) (runMove p tile m u) :=
    OnlyChanges.stepStart h (runMove_frame _ _ _ _) (fun p hp => hl p (by revert p; decide))
  unfold faultMove
  split
  · rename_i a b e
    have x := OnlyChanges.step hs (xingRecordFor_frame p.origin p.id p.step a b false t) (fun p hp => hl p (by revert p; decide))
    dsimp only
    split
    · exact run _ x
    · exact hf _ _ x
  · rename_i pl w e
    have x : OnlyChanges l s (parityMeets pl w p.origin p.id p.step t).2 :=
      OnlyChanges.step hs (parityMeets_frame pl w p.origin p.id p.step t) (fun p hp => hl p (by revert p; decide))
    dsimp only
    split
    · exact run _ x
    · split
      · exact hf _ _ x
      · exact x
  · exact run _ hs

theorem startMove_frame (p : Play) (tile : Nat) (m : QMove) (s : State) :
    startAll (OnlyChanges [.cap, .caches, .knots, .host, .xing, .freeCtr, .store, .rel, .mem, .near] s) (startMove p tile m s) := by
  unfold startMove
  extract_lets x0
  clear_value x0
  split
  · rename_i v1 v2 v3
    change OnlyChanges [.cap, .caches, .knots, .host, .xing, .freeCtr, .store, .rel, .mem, .near] s _
    exact OnlyChanges.refl _ _
  · rename_i v4 v5
    refine faultMove_frame _ _ _ ?_ (by decide) ?_
    · exact OnlyChanges.refl _ _
    · intro a6
      intro a7
      intro a8
      change OnlyChanges [.cap, .caches, .knots, .host, .xing, .freeCtr, .store, .rel, .mem, .near] s _
      assumption

theorem replayMove_frame (p : Play) (tile : Nat) (m : QMove) (f : MoveFault) (s : State) :
    startAll (OnlyChanges [.cap, .caches, .knots, .host, .xing, .freeCtr, .store, .rel, .mem, .near] s) (replayMove p tile m f s) := by
  unfold replayMove
  split
  · rename_i v0 v1 v2 v3
    refine absorb (P := startAll (OnlyChanges [.cap, .caches, .knots, .host, .xing, .freeCtr, .store, .rel, .mem, .near] s)) v3 ?_ (fun q4 => ?_)
    · refine faultMove_frame _ _ _ ?_ (by decide) ?_
      · exact OnlyChanges.refl _ _
      · intro a5
        intro a6
        intro a7
        change OnlyChanges [.cap, .caches, .knots, .host, .xing, .freeCtr, .store, .rel, .mem, .near] s _
        assumption
    change OnlyChanges [.cap, .caches, .knots, .host, .xing, .freeCtr, .store, .rel, .mem, .near] s _
    refine OnlyChanges.step ?_ (record_frame _ _ _ _ _ _ _ _ _ _) (by decide)
    assumption
  · rename_i v8 v9
    refine faultMove_frame _ _ _ ?_ (by decide) ?_
    · exact OnlyChanges.refl _ _
    · intro a10
      intro a11
      intro a12
      change OnlyChanges [.cap, .caches, .knots, .host, .xing, .freeCtr, .store, .rel, .mem, .near] s _
      assumption

theorem startInval_frame (tile : Nat) (m : QMove) (s : State) :
    startAll (OnlyChanges [.caches] s) (startInval tile m s) := by
  unfold startInval
  extract_lets x0
  clear_value x0
  split
  · rename_i v1
    change OnlyChanges [.caches] s _
    exact OnlyChanges.refl _ _
  · rename_i v2
    change OnlyChanges [.caches] s _
    refine OnlyChanges.step ?_ (cacheDrop_frame _ _ _ _) (by decide)
    exact OnlyChanges.refl _ _

theorem modQueue_frame (order : Nat) (tile : Nat) (code : Nat) (f : TileQueue → TileQueue) (s : State) :
    OnlyChanges [.plays] s (modQueue order tile code f s) := by
  unfold modQueue
  split
  · rename_i v0 v1
    exact OnlyChanges.refl _ _
  · rename_i v2 v3 v4
    refine OnlyChanges.step ?_ (setPlay_frame _ _) (by decide)
    exact OnlyChanges.refl _ _

theorem putMove_frame (order : Nat) (tile : Nat) (code : Nat) (pos : Nat) (m : QMove) (s : State) :
    OnlyChanges [.plays] s (putMove order tile code pos m s) := by
  unfold putMove
  refine OnlyChanges.step ?_ (modQueue_frame _ _ _ _ _) (by decide)
  exact OnlyChanges.refl _ _

theorem dropMove_frame (order : Nat) (tile : Nat) (code : Nat) (pos : Nat) (s : State) :
    OnlyChanges [.plays] s (dropMove order tile code pos s) := by
  unfold dropMove
  refine OnlyChanges.step ?_ (modQueue_frame _ _ _ _ _) (by decide)
  exact OnlyChanges.refl _ _

theorem addDests_frame (order : Nat) (l : List (Nat × Nat × Nat × Option Nat)) (s : State) :
    OnlyChanges [.plays] s (addDests order l s) := by
  unfold addDests
  split
  · rename_i v0 v1
    exact OnlyChanges.refl _ _
  · rename_i v2 v3 v4
    refine OnlyChanges.step ?_ (setPlay_frame _ _) (by decide)
    exact OnlyChanges.refl _ _

theorem noteAll_frame (s : State) :
    OnlyChanges [.plays] s (noteAll s) := by
  unfold noteAll
  refine only_plays ?_ _ (by decide)
  exact OnlyChanges.refl _ _

theorem serveAper_frame (s : State) :
    OnlyChanges [.host, .xing, .plays, .store, .mem, .near] s (serveAper s) := by
  unfold serveAper
  refine OnlyChanges.ite ?_ ?_
  · exact OnlyChanges.refl _ _
  · refine OnlyChanges.step ?_ (noteAll_frame _) (by decide)
    refine OnlyChanges.fold ?_ (fun u0 y1 h2 => ?_)
    · refine only_host ?_ _ (by decide)
      exact OnlyChanges.refl _ _
    · refine OnlyChanges.ite ?_ ?_
      · assumption
      · refine OnlyChanges.step ?_ (nearWriteFor_frame _ _ _ _ _) (by decide)
        assumption

theorem outerTie_frame (key : Nat) (v : W32) (s : State) :
    OnlyChanges [.knots, .plays] s (outerTie key v s) := by
  unfold outerTie
  refine OnlyChanges.step ?_ (addKnot_frame _ _ _) (by decide)
  refine only_plays ?_ _ (by decide)
  exact OnlyChanges.refl _ _

theorem laterFailure_frame (p : Play) (f : Failure) (s : State) :
    OnlyChanges [.host, .xing, .store] s (laterFailure p f s) := by
  unfold laterFailure
  refine OnlyChanges.step ?_ (postFull_frame _ _ _ _ _ _ _) (by decide)
  exact OnlyChanges.refl _ _

theorem failPlay_frame (order : Nat) (f : Failure) (s : State) :
    OnlyChanges [.host, .xing, .plays, .store] s (failPlay order f s) := by
  unfold failPlay
  split
  · rename_i v0 v1
    exact OnlyChanges.refl _ _
  · rename_i v2 v3 v4
    refine OnlyChanges.ite ?_ ?_
    · refine OnlyChanges.step ?_ (laterFailure_frame _ _ _) (by decide)
      refine OnlyChanges.step ?_ (setPlay_frame _ _) (by decide)
      exact OnlyChanges.refl _ _
    · refine OnlyChanges.step ?_ (setPlay_frame _ _) (by decide)
      exact OnlyChanges.refl _ _

theorem faultPlay_frame (order : Nat) (cls : Nat) (at_ : Nat × Nat × Nat) (s : State) :
    OnlyChanges [.host, .xing, .plays, .store] s (faultPlay order cls at_ s) := by
  unfold faultPlay
  split
  · rename_i v0 v1
    exact OnlyChanges.refl _ _
  · rename_i v2 v3 v4
    refine OnlyChanges.ite ?_ ?_
    · refine OnlyChanges.step ?_ (laterFailure_frame _ _ _) (by decide)
      refine OnlyChanges.step ?_ (setPlay_frame _ _) (by decide)
      exact OnlyChanges.refl _ _
    · refine OnlyChanges.step ?_ (setPlay_frame _ _) (by decide)
      exact OnlyChanges.refl _ _

theorem setPort_frame (n : Nat) (p : HPort) (s : State) :
    OnlyChanges [.ports] s (setPort n p s) := by
  unfold setPort
  refine only_ports ?_ _ (by decide)
  exact OnlyChanges.refl _ _

theorem hawUnreachable_frame (rts : Nat) (d : Nat) (s : State) :
    OnlyChanges [.host, .xing, .store] s (hawUnreachable rts d s) := by
  unfold hawUnreachable
  refine OnlyChanges.step ?_ (post_frame _ _ _) (by decide)
  exact OnlyChanges.refl _ _

theorem postPort_frame (code : Nat) (n : Nat) (d : List Byte) (s : State) :
    OnlyChanges [.host, .xing, .store] s (postPort code n d s) := by
  unfold postPort
  refine OnlyChanges.step ?_ (postFull_frame _ _ _ _ _ _ _) (by decide)
  exact OnlyChanges.refl _ _

theorem laneRecord_frame (n : Nat) (l : Nat) (res : Nat) (s : State) :
    OnlyChanges [.host, .xing, .store] s (laneRecord n l res s) := by
  unfold laneRecord
  refine OnlyChanges.step ?_ (record_frame _ _ _ _ _ _ _ _ _ _) (by decide)
  refine only_store ?_ _ (by decide)
  exact OnlyChanges.refl _ _

theorem putPort_frame (n : Nat) (p : HPort) (s : State) :
    OnlyChanges [.ports, .host, .xing, .store] s (putPort n p s) := by
  unfold putPort
  extract_lets x0 x1
  have h2 : OnlyChanges [.ports, .host, .xing, .store] s x1 := by
    unfold x1
    refine OnlyChanges.step ?_ (setPort_frame _ _ _) (by decide)
    exact OnlyChanges.refl _ _
  clear_value x0 x1
  split
  · rename_i v3 v4 v5 v6 v7 v8 v9 v10
    refine OnlyChanges.ite ?_ ?_
    · assumption
    · refine OnlyChanges.step ?_ (laneRecord_frame _ _ _ _) (by decide)
      assumption
  · rename_i v11 v12 v13
    assumption

theorem queuePacket_frame (n : Nat) (k : RoutedPacket) (s : State) :
    OnlyChanges [.ports, .host, .xing, .store] s (queuePacket n k s) := by
  unfold queuePacket
  extract_lets x0 x1
  clear_value x0 x1
  refine OnlyChanges.step ?_ (putPort_frame _ _ _) (by decide)
  exact OnlyChanges.refl _ _

theorem sendPacket_frame (k : RoutedPacket) (s : State) :
    OnlyChanges [.ports, .host, .xing, .store] s (sendPacket k s) := by
  unfold sendPacket
  refine OnlyChanges.ite ?_ ?_
  · exact OnlyChanges.refl _ _
  · split
    · rename_i v0 v1 v2
      refine OnlyChanges.step ?_ (queuePacket_frame _ _ _) (by decide)
      exact OnlyChanges.refl _ _
    · rename_i v3 v4
      refine OnlyChanges.step ?_ (hawUnreachable_frame _ _ _) (by decide)
      exact OnlyChanges.refl _ _
    · rename_i v5 v6
      exact OnlyChanges.refl _ _

theorem takeRx_frame (f : RoutedPacket → Bool) (s : State) :
    optSndAll (OnlyChanges [.ports] s) (takeRx f s) := by
  unfold takeRx
  refine optSndAll_map (fun y0 => ?_)
  split
  · rename_i v1 v2 v3 v4 v5
    refine sndAll_mk ?_
    refine OnlyChanges.step ?_ (setPort_frame _ _ _) (by decide)
    exact OnlyChanges.refl _ _

theorem freeRx_frame (f : RoutedPacket → Bool) (s : State) :
    optAll (OnlyChanges [.ports] s) (freeRx f s) := by
  unfold freeRx
  split
  · rename_i v0 v1 v2 v3
    refine absorb (P := optSndAll (OnlyChanges [.ports] s)) v3 ?_ (fun q4 => ?_)
    · refine OnlyChanges.stepOptSnd ?_ (takeRx_frame _ _) (by decide)
      exact OnlyChanges.refl _ _
    change OnlyChanges [.ports] s _
    assumption
  · rename_i v5 v6
    refine absorb (P := optSndAll (OnlyChanges [.ports] s)) v6 ?_ (fun q7 => ?_)
    · refine OnlyChanges.stepOptSnd ?_ (takeRx_frame _ _) (by decide)
      exact OnlyChanges.refl _ _
    split
    · rename_i v8
      trivial
    · rename_i v9
      change OnlyChanges [.ports] s _
      exact OnlyChanges.refl _ _

theorem setX_frame (x : Exchange) (s : State) :
    OnlyChanges [.exchanges] s (setX x s) := by
  unfold setX
  refine only_exchanges ?_ _ (by decide)
  exact OnlyChanges.refl _ _

theorem meshTake_frame (x : MeshItem) (s : State) :
    optSndAll (OnlyChanges [.mesh] s) (meshTake x s) := by
  unfold meshTake
  refine optSndAll_map (fun y0 => ?_)
  refine sndAll_mk ?_
  refine only_mesh ?_ _ (by decide)
  exact OnlyChanges.refl _ _

theorem meshPut_frame (src : Source) (x : MeshItem) (s : State) :
    OnlyChanges [.mesh] s (meshPut src x s) := by
  unfold meshPut
  refine only_mesh ?_ _ (by decide)
  exact OnlyChanges.refl _ _

theorem noteLost_frame (x : Source × MeshItem) (s : State) :
    OnlyChanges [.plays, .exchanges] s (noteLost x s) := by
  unfold noteLost
  extract_lets x0
  have h1 : ∀ a2 a3, OnlyChanges [.plays, .exchanges] s (x0 a2 a3) := by
    intro b4 b5
    unfold x0
    split
    · rename_i v6 v7 v8
      refine OnlyChanges.step ?_ (modQueue_frame _ _ _ _ _) (by decide)
      exact OnlyChanges.refl _ _
    · rename_i v9 v10
      exact OnlyChanges.refl _ _
  clear_value x0
  split
  · rename_i v11 v12 v13 v14
    apply h1
  · rename_i v15 v16 v17 v18
    apply h1
  · rename_i v19 v20 v21
    split
    · rename_i v22 v23 v24
      refine OnlyChanges.step ?_ (setX_frame _ _) (by decide)
      exact OnlyChanges.refl _ _
    · rename_i v25 v26
      exact OnlyChanges.refl _ _
  · rename_i v27 v28 v29 v30
    exact OnlyChanges.refl _ _

theorem losePacket_frame (cls : Nat) (x : Source × MeshItem) (s : State) :
    OnlyChanges [.cap, .host, .xing, .plays, .exchanges, .store] s (losePacket cls x s) := by
  unfold losePacket
  extract_lets x0 x1
  have h2 : OnlyChanges [.cap, .host, .xing, .plays, .exchanges, .store] s x0 := by
    unfold x0
    refine OnlyChanges.step ?_ (noteLost_frame _ _) (by decide)
    exact OnlyChanges.refl _ _
  clear_value x0 x1
  split
  · rename_i v3 v4 v5 v6 v7 v8 v9 v10 v11 v12 v13
    refine OnlyChanges.ite ?_ ?_
    · refine OnlyChanges.step ?_ (faultPlay_frame _ _ _ _) (by decide)
      assumption
    · refine OnlyChanges.step ?_ (faultStep_frame _ _) (by decide)
      assumption
  · rename_i v14 v15 v16 v17 v18
    refine OnlyChanges.ite ?_ ?_
    · refine OnlyChanges.step ?_ (faultPlay_frame _ _ _ _) (by decide)
      assumption
    · assumption
  · rename_i v19 v20
    refine OnlyChanges.ite ?_ ?_
    · refine OnlyChanges.step ?_ (faultStep_frame _ _) (by decide)
      assumption
    · assumption

theorem crossArrive_frame (x : Source × MeshItem) (t : Transit) (s : State) :
    arrAll (OnlyChanges [.cap, .knots, .host, .xing, .plays, .exchanges, .freeCtr, .store, .rel, .mem, .near] s) (crossArrive x t s) := by
  unfold crossArrive
  split
  · rename_i v0
    change OnlyChanges [.cap, .knots, .host, .xing, .plays, .exchanges, .freeCtr, .store, .rel, .mem, .near] s _
    refine OnlyChanges.step ?_ (losePacket_frame _ _ _) (by decide)
    exact OnlyChanges.refl _ _
  · rename_i v1
    split
    · rename_i v2 v3 v4 v5 v6
      split
      · rename_i v7
        change OnlyChanges [.cap, .knots, .host, .xing, .plays, .exchanges, .freeCtr, .store, .rel, .mem, .near] s _
        exact OnlyChanges.refl _ _
      · rename_i v8 v9 v10
        change OnlyChanges [.cap, .knots, .host, .xing, .plays, .exchanges, .freeCtr, .store, .rel, .mem, .near] s _
        refine OnlyChanges.step ?_ (losePacket_frame _ _ _) (by decide)
        refine OnlyChanges.step ?_ (xingRecordFor_frame _ _ _ _ _ _ _) (by decide)
        exact OnlyChanges.refl _ _
      · rename_i v11 v12 v13
        split
        · rename_i v14 v15 v16 v17
          refine absorb (P := sndAll (OnlyChanges [.cap, .knots, .host, .xing, .plays, .exchanges, .freeCtr, .store, .rel, .mem, .near] s)) v17 ?_
              (fun q18 => ?_)
          · refine OnlyChanges.stepSnd ?_ (parityMeets_frame _ _ _ _ _ _) (by decide)
            exact OnlyChanges.refl _ _
          split
          · rename_i v19
            change OnlyChanges [.cap, .knots, .host, .xing, .plays, .exchanges, .freeCtr, .store, .rel, .mem, .near] s _
            refine OnlyChanges.step ?_ (losePacket_frame _ _ _) (by decide)
            assumption
          · rename_i v20
            change OnlyChanges [.cap, .knots, .host, .xing, .plays, .exchanges, .freeCtr, .store, .rel, .mem, .near] s _
            assumption

theorem meshArrive_frame (x : MeshItem) (t : Transit) (s : State) :
    arrAll (OnlyChanges [.cap, .knots, .host, .xing, .plays, .mesh, .exchanges, .freeCtr, .store, .rel, .mem, .near] s) (meshArrive x t s) := by
  unfold meshArrive
  split
  · rename_i v0 v1
    refine absorb (P := optSndAll (OnlyChanges [.cap, .knots, .host, .xing, .plays, .mesh, .exchanges, .freeCtr, .store, .rel, .mem, .near] s)) v1
        ?_ (fun q2 => ?_)
    · refine OnlyChanges.stepOptSnd ?_ (meshTake_frame _ _) (by decide)
      exact OnlyChanges.refl _ _
    trivial
  · rename_i v3 v4 v5 v6
    refine absorb (P := optSndAll (OnlyChanges [.cap, .knots, .host, .xing, .plays, .mesh, .exchanges, .freeCtr, .store, .rel, .mem, .near] s)) v6
        ?_ (fun q7 => ?_)
    · refine OnlyChanges.stepOptSnd ?_ (meshTake_frame _ _) (by decide)
      exact OnlyChanges.refl _ _
    refine OnlyChanges.stepArr ?_ (crossArrive_frame _ _ _) (by decide)
    assumption

theorem sendItem_frame (src : Source) (shape : Nat × Nat) (rts : Nat) (dest : Nat) (x : MeshItem) (s : State) :
    OnlyChanges [.ports, .host, .xing, .mesh, .store] s (sendItem src shape rts dest x s) := by
  unfold sendItem
  refine OnlyChanges.ite ?_ ?_
  · refine OnlyChanges.step ?_ (meshPut_frame _ _ _) (by decide)
    exact OnlyChanges.refl _ _
  · refine OnlyChanges.fold ?_ (fun u0 y1 h2 => ?_)
    · exact OnlyChanges.refl _ _
    · refine OnlyChanges.step ?_ (sendPacket_frame _ _) (by decide)
      assumption

theorem takeItem_frame (s : State) (shape : Nat × Nat) (rts : Nat) (x : MeshItem) : optAll (OnlyChanges [.ports] s) (takeItem s shape rts x) := by
  unfold takeItem
  refine optAll_fold (OnlyChanges.refl _ _) fun o y h => ?_
  cases o with
  | none => exact True.intro
  | some u => exact OnlyChanges.stepOpt h (freeRx_frame _ u) (by decide)

theorem packetArrive_frame (own : Bool) (shape : Nat × Nat) (rts : Nat) (x : MeshItem) (t : Transit) (s : State) :
    arrAll (OnlyChanges [.cap, .knots, .ports, .host, .xing, .plays, .mesh, .exchanges, .freeCtr, .store, .rel, .mem, .near] s) (packetArrive own
        shape rts x t s) := by
  unfold packetArrive
  split
  · rename_i v0
    refine OnlyChanges.stepArr ?_ (meshArrive_frame _ _ _) (by decide)
    exact OnlyChanges.refl _ _
  · rename_i v1
    split
    · rename_i v2 v3 v4
      refine absorb (P := optAll (OnlyChanges [.cap, .knots, .ports, .host, .xing, .plays, .mesh, .exchanges, .freeCtr, .store, .rel, .mem, .near]
          s)) v4 ?_ (fun q5 => ?_)
      · refine OnlyChanges.stepOpt ?_ (takeItem_frame _ _ _ _) (by decide)
        exact OnlyChanges.refl _ _
      refine OnlyChanges.stepArr ?_ (crossArrive_frame _ _ _) (by decide)
      assumption
    · rename_i v6 v7
      refine absorb (P := optAll (OnlyChanges [.cap, .knots, .ports, .host, .xing, .plays, .mesh, .exchanges, .freeCtr, .store, .rel, .mem, .near]
          s)) v7 ?_ (fun q8 => ?_)
      · refine OnlyChanges.stepOpt ?_ (takeItem_frame _ _ _ _) (by decide)
        exact OnlyChanges.refl _ _
      trivial

theorem storeWrite_frame (tile : Nat) (off : Nat) (l : List Byte) (s : State) :
    OnlyChanges [.mem] s (storeWrite tile off l s) := by
  unfold storeWrite
  refine OnlyChanges.step ?_ (writeBytes_frame _ _ _) (by decide)
  exact OnlyChanges.refl _ _

theorem finishExpert_frame (x : Exchange) (m : MapEntry) (e : XExpert) (s : State) :
    OnlyChanges [.knots, .plays, .mem] s (finishExpert x m e s) := by
  unfold finishExpert
  extract_lets x0 x1 x2
  have h3 : OnlyChanges [.knots, .plays, .mem] s x2 := by
    unfold x2
    refine OnlyChanges.step ?_ (storeWrite_frame _ _ _ _) (by decide)
    exact OnlyChanges.refl _ _
  clear_value x0 x1 x2
  refine OnlyChanges.step ?_ (outerTie_frame _ _ _) (by decide)
  refine OnlyChanges.step ?_ (noteAll_frame _) (by decide)
  assumption

theorem tryFinish_frame (x : Exchange) (e : Nat) (s : State) :
    OnlyChanges [.knots, .plays, .exchanges, .mem] s (tryFinish x e s) := by
  unfold tryFinish
  split
  · rename_i v0 v1
    exact OnlyChanges.refl _ _
  · rename_i v2 v3 v4
    split
    · rename_i v5 v6 v7 v8 v9 v10
      refine OnlyChanges.ite ?_ ?_
      · refine OnlyChanges.step ?_ (finishExpert_frame _ _ _ _) (by decide)
        refine OnlyChanges.step ?_ (setX_frame _ _) (by decide)
        exact OnlyChanges.refl _ _
      · exact OnlyChanges.refl _ _
    · rename_i v11 v12 v13
      exact OnlyChanges.refl _ _

theorem finishSquare_frame (x : Exchange) (fmt : Nat) (rowl : Nat) (gr : Nat) (m : MapEntry) (e : XExpert) (s : State) (k : Nat) :
    OnlyChanges [.watch, .host, .xing, .store, .mem, .near] s (finishSquare x fmt rowl gr m e s k) := by
  unfold finishSquare
  extract_lets x0 x1 x2 x3
  clear_value x0 x1 x2 x3
  split
  · rename_i v4 v5
    exact OnlyChanges.refl _ _
  · rename_i v6 v7 v8
    extract_lets x9 x10 x11 x12
    have h13 : OnlyChanges [.watch, .host, .xing, .store, .mem, .near] s x9 := by
      unfold x9
      refine OnlyChanges.fold ?_ (fun u14 y15 h16 => ?_)
      · exact OnlyChanges.refl _ _
      · extract_lets x17
        have h18 : OnlyChanges [.watch, .host, .xing, .store, .mem, .near] s x17 := by
          unfold x17
          refine OnlyChanges.step ?_ (sqWriteLine_frame _ _ _ _ _) (by decide)
          assumption
        clear_value x17
        refine OnlyChanges.ite ?_ ?_
        · refine OnlyChanges.step ?_ (busWrite_frame _ _ _) (by decide)
          assumption
        · assumption
    have h19 : OnlyChanges [.watch, .host, .xing, .store, .mem, .near] s x10 := by
      unfold x10
      refine OnlyChanges.ite ?_ ?_
      · refine OnlyChanges.fold ?_ (fun u20 y21 h22 => ?_)
        · assumption
        · extract_lets x23 x24 x25 x26
          clear_value x23 x24 x25 x26
          refine OnlyChanges.ite ?_ ?_
          · assumption
          · split
            · rename_i v27 v28 v29 v30
              refine OnlyChanges.step ?_ (countConv_frame _ _ _ _) (by decide)
              refine OnlyChanges.step ?_ (sqWriteLine_frame _ _ _ _ _) (by decide)
              assumption
      · assumption
    have h31 : OnlyChanges [.watch, .host, .xing, .store, .mem, .near] s x12 := by
      unfold x12
      refine OnlyChanges.step ?_ (sqWriteDesc_frame _ _ _ _ _ _) (by decide)
      assumption
    clear_value x9 x10 x11 x12
    refine OnlyChanges.ite ?_ ?_
    · refine OnlyChanges.ite ?_ ?_
      · split
        · rename_i v32 v33 v34
          refine OnlyChanges.step ?_ (nearWrite_frame _ _ _ _) (by decide)
          assumption
        · rename_i v35 v36
          assumption
      · assumption
    · refine OnlyChanges.step ?_ (sqWriteDesc_frame _ _ _ _ _ _) (by decide)
      assumption

theorem acceptRow_frame (x : Exchange) (shape : Nat × Nat) (m : MapEntry) (e : XExpert) (r : XRow) (s : State) :
    OnlyChanges [.knots, .watch, .host, .xing, .plays, .exchanges, .freeCtr, .store, .mem, .near] s (acceptRow x shape m e r s) := by
  unfold acceptRow
  split
  · rename_i v0 v1 v2
    extract_lets x3 x4 x5 x6 x7 x8
    have h9 : OnlyChanges [.knots, .watch, .host, .xing, .plays, .exchanges, .freeCtr, .store, .mem, .near] s x4 := by
      unfold x4
      refine OnlyChanges.fold ?_ (fun u10 y11 h12 => ?_)
      · exact OnlyChanges.refl _ _
      · split
        · rename_i v13 v14 v15
          extract_lets x16
          have h17 : OnlyChanges [.knots, .watch, .host, .xing, .plays, .exchanges, .freeCtr, .store, .mem, .near] s x16 := by
            unfold x16
            refine OnlyChanges.step ?_ (sqWriteLine_frame _ _ _ _ _) (by decide)
            assumption
          clear_value x16
          refine OnlyChanges.ite ?_ ?_
          · refine OnlyChanges.step ?_ (busWrite_frame _ _ _) (by decide)
            assumption
          · assumption
        · rename_i v18 v19
          assumption
    have h20 : OnlyChanges [.knots, .watch, .host, .xing, .plays, .exchanges, .freeCtr, .store, .mem, .near] s x6 := by
      unfold x6
      refine OnlyChanges.step ?_ (setX_frame _ _) (by decide)
      assumption
    have h21 : OnlyChanges [.knots, .watch, .host, .xing, .plays, .exchanges, .freeCtr, .store, .mem, .near] s x7 := by
      unfold x7
      refine OnlyChanges.ite ?_ ?_
      · refine OnlyChanges.fold ?_ (fun u22 y23 h24 => ?_)
        · assumption
        · refine OnlyChanges.step ?_ (finishSquare_frame _ _ _ _ _ _ _ _) (by decide)
          assumption
      · assumption
    have h25 : OnlyChanges [.knots, .watch, .host, .xing, .plays, .exchanges, .freeCtr, .store, .mem, .near] s x8 := by
      unfold x8
      refine OnlyChanges.ite ?_ ?_
      · refine OnlyChanges.fold ?_ (fun u26 y27 h28 => ?_)
        · assumption
        · refine elim_of (P := (OnlyChanges [.knots, .watch, .host, .xing, .plays, .exchanges, .freeCtr, .store, .mem, .near] s)) ?_ (fun y29 => ?_)
          · assumption
          · refine OnlyChanges.step ?_ (freeBytes_frame _ _ _) (by decide)
            assumption
      · assumption
    clear_value x3 x4 x5 x6 x7 x8
    refine OnlyChanges.step ?_ (tryFinish_frame _ _ _) (by decide)
    assumption

theorem sendRows_frame (x : Exchange) (xm : XMove) (g : XGrant) (s : State) :
    OnlyChanges [.ports, .host, .xing, .mesh, .store] s (sendRows x xm g s) := by
  unfold sendRows
  split
  · rename_i v0 v1
    exact OnlyChanges.refl _ _
  · rename_i v2 v3 v4
    extract_lets x5 x6
    clear_value x5 x6
    refine OnlyChanges.fold ?_ (fun u7 y8 h9 => ?_)
    · exact OnlyChanges.refl _ _
    · split
      · rename_i v10 v11 v12
        split
        · rename_i v13 v14 v15 v16
          refine OnlyChanges.step ?_ (sendItem_frame _ _ _ _ _ _) (by decide)
          assumption

theorem postX_frame (code : Nat) (x : Exchange) (s : State) :
    OnlyChanges [.host, .xing, .store] s (postX code x s) := by
  unfold postX
  refine OnlyChanges.step ?_ (postFull_frame _ _ _ _ _ _ _) (by decide)
  exact OnlyChanges.refl _ _

theorem grantPhase_frame (x : Exchange) (s : State) :
    OnlyChanges [.knots, .ports, .host, .xing, .plays, .mesh, .exchanges, .store, .mem] s (grantPhase x s) := by
  unfold grantPhase
  extract_lets x0 x1
  clear_value x0 x1
  split
  · rename_i v2
    exact OnlyChanges.refl _ _
  · rename_i v3 v4 v5
    extract_lets x6 x7 x8 x9 x10 x11 x12 x13 x14 x15 x16 x17 x18
    have h19 : OnlyChanges [.knots, .ports, .host, .xing, .plays, .mesh, .exchanges, .store, .mem] s x14 := by
      unfold x14
      refine OnlyChanges.step ?_ (setX_frame _ _) (by decide)
      exact OnlyChanges.refl _ _
    have h20 : OnlyChanges [.knots, .ports, .host, .xing, .plays, .mesh, .exchanges, .store, .mem] s x15 := by
      unfold x15
      refine OnlyChanges.ite ?_ ?_
      · refine OnlyChanges.step ?_ (postX_frame _ _ _) (by decide)
        assumption
      · assumption
    have h21 : OnlyChanges [.knots, .ports, .host, .xing, .plays, .mesh, .exchanges, .store, .mem] s x16 := by
      unfold x16
      refine OnlyChanges.ite ?_ ?_
      · refine OnlyChanges.step ?_ (postX_frame _ _ _) (by decide)
        assumption
      · assumption
    have h22 : OnlyChanges [.knots, .ports, .host, .xing, .plays, .mesh, .exchanges, .store, .mem] s x17 := by
      unfold x17
      refine OnlyChanges.ite ?_ ?_
      · refine OnlyChanges.step ?_ (postX_frame _ _ _) (by decide)
        assumption
      · assumption
    have h23 : OnlyChanges [.knots, .ports, .host, .xing, .plays, .mesh, .exchanges, .store, .mem] s x18 := by
      unfold x18
      refine OnlyChanges.fold ?_ (fun u24 y25 h26 => ?_)
      · assumption
      · split
        · rename_i v27 v28 v29
          refine OnlyChanges.fold ?_ (fun u30 y31 h32 => ?_)
          · assumption
          · split
            · rename_i v33 v34 v35
              refine OnlyChanges.step ?_ (sendItem_frame _ _ _ _ _ _) (by decide)
              assumption
    clear_value x6 x7 x8 x9 x10 x11 x12 x13 x14 x15 x16 x17 x18
    refine OnlyChanges.fold ?_ (fun u36 y37 h38 => ?_)
    · assumption
    · split
      · rename_i v39 v40 v41
        refine OnlyChanges.step ?_ (tryFinish_frame _ _ _) (by decide)
        assumption

theorem execXchCount_frame (c : XCount) (t : Transit) (s : State) :
    outAll (OnlyChanges [.cap, .knots, .ports, .host, .xing, .plays, .mesh, .exchanges, .freeCtr, .store, .rel, .mem, .near] s) (execXchCount c t s)
        := by
  unfold execXchCount
  split
  · rename_i v0
    change OnlyChanges [.cap, .knots, .ports, .host, .xing, .plays, .mesh, .exchanges, .freeCtr, .store, .rel, .mem, .near] s _
    exact OnlyChanges.refl _ _
  · rename_i v1
    extract_lets x2
    clear_value x2
    split
    · rename_i v3 v4
      refine absorb (P := arrAll (OnlyChanges [.cap, .knots, .ports, .host, .xing, .plays, .mesh, .exchanges, .freeCtr, .store, .rel, .mem, .near]
          s)) v4 ?_ (fun q5 => ?_)
      · refine OnlyChanges.stepArr ?_ (packetArrive_frame _ _ _ _ _ _) (by decide)
        exact OnlyChanges.refl _ _
      change OnlyChanges [.cap, .knots, .ports, .host, .xing, .plays, .mesh, .exchanges, .freeCtr, .store, .rel, .mem, .near] s _
      exact OnlyChanges.refl _ _
    · rename_i v6 v7 v8
      refine absorb (P := arrAll (OnlyChanges [.cap, .knots, .ports, .host, .xing, .plays, .mesh, .exchanges, .freeCtr, .store, .rel, .mem, .near]
          s)) v8 ?_ (fun q9 => ?_)
      · refine OnlyChanges.stepArr ?_ (packetArrive_frame _ _ _ _ _ _) (by decide)
        exact OnlyChanges.refl _ _
      change OnlyChanges [.cap, .knots, .ports, .host, .xing, .plays, .mesh, .exchanges, .freeCtr, .store, .rel, .mem, .near] s _
      assumption
    · rename_i v10 v11 v12 v13
      refine absorb (P := arrAll (OnlyChanges [.cap, .knots, .ports, .host, .xing, .plays, .mesh, .exchanges, .freeCtr, .store, .rel, .mem, .near]
          s)) v13 ?_ (fun q14 => ?_)
      · refine OnlyChanges.stepArr ?_ (packetArrive_frame _ _ _ _ _ _) (by decide)
        exact OnlyChanges.refl _ _
      split
      · rename_i v15 v16
        change OnlyChanges [.cap, .knots, .ports, .host, .xing, .plays, .mesh, .exchanges, .freeCtr, .store, .rel, .mem, .near] s _
        assumption
      · rename_i v17 v18 v19
        split
        · rename_i v20
          change OnlyChanges [.cap, .knots, .ports, .host, .xing, .plays, .mesh, .exchanges, .freeCtr, .store, .rel, .mem, .near] s _
          assumption
        · rename_i v21
          extract_lets x22
          clear_value x22
          change OnlyChanges [.cap, .knots, .ports, .host, .xing, .plays, .mesh, .exchanges, .freeCtr, .store, .rel, .mem, .near] s _
          refine OnlyChanges.ite ?_ ?_
          · refine OnlyChanges.step ?_ (grantPhase_frame _ _) (by decide)
            assumption
          · refine OnlyChanges.step ?_ (setX_frame _ _) (by decide)
            assumption

theorem execXchGrant_frame (g : XGrant) (t : Transit) (s : State) :
    outAll (OnlyChanges [.cap, .knots, .ports, .host, .xing, .plays, .mesh, .exchanges, .freeCtr, .store, .rel, .mem, .near] s) (execXchGrant g t s)
        := by
  unfold execXchGrant
  extract_lets x0
  clear_value x0
  split
  · rename_i v1 v2
    refine absorb (P := arrAll (OnlyChanges [.cap, .knots, .ports, .host, .xing, .plays, .mesh, .exchanges, .freeCtr, .store, .rel, .mem, .near] s))
        v2 ?_ (fun q3 => ?_)
    · refine OnlyChanges.stepArr ?_ (packetArrive_frame _ _ _ _ _ _) (by decide)
      exact OnlyChanges.refl _ _
    change OnlyChanges [.cap, .knots, .ports, .host, .xing, .plays, .mesh, .exchanges, .freeCtr, .store, .rel, .mem, .near] s _
    exact OnlyChanges.refl _ _
  · rename_i v4 v5 v6
    refine absorb (P := arrAll (OnlyChanges [.cap, .knots, .ports, .host, .xing, .plays, .mesh, .exchanges, .freeCtr, .store, .rel, .mem, .near] s))
        v6 ?_ (fun q7 => ?_)
    · refine OnlyChanges.stepArr ?_ (packetArrive_frame _ _ _ _ _ _) (by decide)
      exact OnlyChanges.refl _ _
    change OnlyChanges [.cap, .knots, .ports, .host, .xing, .plays, .mesh, .exchanges, .freeCtr, .store, .rel, .mem, .near] s _
    assumption
  · rename_i v8 v9 v10 v11
    refine absorb (P := arrAll (OnlyChanges [.cap, .knots, .ports, .host, .xing, .plays, .mesh, .exchanges, .freeCtr, .store, .rel, .mem, .near] s))
        v11 ?_ (fun q12 => ?_)
    · refine OnlyChanges.stepArr ?_ (packetArrive_frame _ _ _ _ _ _) (by decide)
      exact OnlyChanges.refl _ _
    split
    · rename_i v13 v14
      change OnlyChanges [.cap, .knots, .ports, .host, .xing, .plays, .mesh, .exchanges, .freeCtr, .store, .rel, .mem, .near] s _
      assumption
    · rename_i v15 v16 v17
      split
      · rename_i v18
        change OnlyChanges [.cap, .knots, .ports, .host, .xing, .plays, .mesh, .exchanges, .freeCtr, .store, .rel, .mem, .near] s _
        assumption
      · rename_i v19
        split
        · rename_i v20 v21
          change OnlyChanges [.cap, .knots, .ports, .host, .xing, .plays, .mesh, .exchanges, .freeCtr, .store, .rel, .mem, .near] s _
          assumption
        · rename_i v22 v23 v24
          extract_lets x25 x26
          clear_value x25 x26
          change OnlyChanges [.cap, .knots, .ports, .host, .xing, .plays, .mesh, .exchanges, .freeCtr, .store, .rel, .mem, .near] s _
          refine OnlyChanges.step ?_ (sendRows_frame _ _ _ _) (by decide)
          refine OnlyChanges.step ?_ (setX_frame _ _) (by decide)
          assumption

theorem execXchRow_frame (r : XRow) (t : Transit) (s : State) :
    outAll (OnlyChanges [.cap, .knots, .ports, .watch, .host, .xing, .plays, .mesh, .exchanges, .freeCtr, .store, .rel, .mem, .near] s) (execXchRow
        r t s) := by
  unfold execXchRow
  split
  · rename_i v0
    change OnlyChanges [.cap, .knots, .ports, .watch, .host, .xing, .plays, .mesh, .exchanges, .freeCtr, .store, .rel, .mem, .near] s _
    exact OnlyChanges.refl _ _
  · rename_i v1
    extract_lets x2
    clear_value x2
    split
    · rename_i v3 v4
      refine absorb (P := arrAll (OnlyChanges [.cap, .knots, .ports, .watch, .host, .xing, .plays, .mesh, .exchanges, .freeCtr, .store, .rel, .mem,
          .near] s)) v4 ?_ (fun q5 => ?_)
      · refine OnlyChanges.stepArr ?_ (packetArrive_frame _ _ _ _ _ _) (by decide)
        exact OnlyChanges.refl _ _
      change OnlyChanges [.cap, .knots, .ports, .watch, .host, .xing, .plays, .mesh, .exchanges, .freeCtr, .store, .rel, .mem, .near] s _
      exact OnlyChanges.refl _ _
    · rename_i v6 v7 v8
      refine absorb (P := arrAll (OnlyChanges [.cap, .knots, .ports, .watch, .host, .xing, .plays, .mesh, .exchanges, .freeCtr, .store, .rel, .mem,
          .near] s)) v8 ?_ (fun q9 => ?_)
      · refine OnlyChanges.stepArr ?_ (packetArrive_frame _ _ _ _ _ _) (by decide)
        exact OnlyChanges.refl _ _
      change OnlyChanges [.cap, .knots, .ports, .watch, .host, .xing, .plays, .mesh, .exchanges, .freeCtr, .store, .rel, .mem, .near] s _
      assumption
    · rename_i v10 v11 v12 v13
      refine absorb (P := arrAll (OnlyChanges [.cap, .knots, .ports, .watch, .host, .xing, .plays, .mesh, .exchanges, .freeCtr, .store, .rel, .mem,
          .near] s)) v13 ?_ (fun q14 => ?_)
      · refine OnlyChanges.stepArr ?_ (packetArrive_frame _ _ _ _ _ _) (by decide)
        exact OnlyChanges.refl _ _
      split
      · rename_i v15 v16
        change OnlyChanges [.cap, .knots, .ports, .watch, .host, .xing, .plays, .mesh, .exchanges, .freeCtr, .store, .rel, .mem, .near] s _
        assumption
      · rename_i v17 v18 v19
        split
        · rename_i v20 v21 v22 v23 v24 v25 v26 v27 v28
          split
          · rename_i v29
            change OnlyChanges [.cap, .knots, .ports, .watch, .host, .xing, .plays, .mesh, .exchanges, .freeCtr, .store, .rel, .mem, .near] s _
            assumption
          · rename_i v30
            extract_lets x31
            clear_value x31
            split
            · rename_i v32
              change OnlyChanges [.cap, .knots, .ports, .watch, .host, .xing, .plays, .mesh, .exchanges, .freeCtr, .store, .rel, .mem, .near] s _
              refine OnlyChanges.step ?_ (acceptRow_frame _ _ _ _ _ _) (by decide)
              assumption
            · rename_i v33
              change OnlyChanges [.cap, .knots, .ports, .watch, .host, .xing, .plays, .mesh, .exchanges, .freeCtr, .store, .rel, .mem, .near] s _
              assumption
        · rename_i v34 v35 v36 v37
          change OnlyChanges [.cap, .knots, .ports, .watch, .host, .xing, .plays, .mesh, .exchanges, .freeCtr, .store, .rel, .mem, .near] s _
          assumption

theorem sendCounts_frame (x : Exchange) (tile : Nat) (w : MoveWord) (copies : List (Nat × Nat × Nat)) (s : State) :
    OnlyChanges [.ports, .host, .xing, .mesh, .store] s (sendCounts x tile w copies s) := by
  unfold sendCounts
  refine OnlyChanges.fold ?_ (fun u0 y1 h2 => ?_)
  · exact OnlyChanges.refl _ _
  · refine OnlyChanges.step ?_ (sendItem_frame _ _ _ _ _ _) (by decide)
    assumption

theorem startDispatch_frame (p : Play) (tile : Nat) (m : QMove) (s : State) :
    startAll (OnlyChanges [.ports, .host, .xing, .mesh, .exchanges, .store] s) (startDispatch p tile m s) := by
  unfold startDispatch
  extract_lets x0 x1 x2 x3
  clear_value x0 x1 x2 x3
  split
  · rename_i v4 v5 v6
    change OnlyChanges [.ports, .host, .xing, .mesh, .exchanges, .store] s _
    exact OnlyChanges.refl _ _
  · rename_i v7 v8
    split
    · rename_i v9 v10
      change OnlyChanges [.ports, .host, .xing, .mesh, .exchanges, .store] s _
      exact OnlyChanges.refl _ _
    · rename_i v11 v12 v13
      split
      · rename_i v14
        change OnlyChanges [.ports, .host, .xing, .mesh, .exchanges, .store] s _
        exact OnlyChanges.refl _ _
      · rename_i v15
        split
        · rename_i v16
          extract_lets x17 x18 x19
          clear_value x17 x18 x19
          change OnlyChanges [.ports, .host, .xing, .mesh, .exchanges, .store] s _
          refine OnlyChanges.fold ?_ (fun u20 y21 h22 => ?_)
          · refine OnlyChanges.step ?_ (setX_frame _ _) (by decide)
            exact OnlyChanges.refl _ _
          · split
            · rename_i v23 v24 v25
              refine OnlyChanges.step ?_ (sendRows_frame _ _ _ _) (by decide)
              assumption
        · rename_i v26
          extract_lets x27
          clear_value x27
          change OnlyChanges [.ports, .host, .xing, .mesh, .exchanges, .store] s _
          refine OnlyChanges.step ?_ (sendCounts_frame _ _ _ _ _) (by decide)
          refine OnlyChanges.step ?_ (setX_frame _ _) (by decide)
          exact OnlyChanges.refl _ _

theorem combineWrite_frame (p : Play) (tile : Nat) (m : QMove) (x : Exchange) (s : State) :
    OnlyChanges [.watch, .host, .xing, .plays, .exchanges, .store, .mem, .near] s (combineWrite p tile m x s) := by
  unfold combineWrite
  extract_lets x0 x1 x2 x3 x4 x5 x6 x7 x8 x9 x10 x11 x12 x13 x14
  have h15 : OnlyChanges [.watch, .host, .xing, .plays, .exchanges, .store, .mem, .near] s x10 := by
    unfold x10
    refine OnlyChanges.fold ?_ (fun u16 y17 h18 => ?_)
    · exact OnlyChanges.refl _ _
    · split
      · rename_i v19 v20 v21
        refine OnlyChanges.fold ?_ (fun u22 y23 h24 => ?_)
        · assumption
        · split
          · rename_i v25 v26 v27
            refine OnlyChanges.step ?_ (countConv_frame _ _ _ _) (by decide)
            refine OnlyChanges.step ?_ (sqWriteLine_frame _ _ _ _ _) (by decide)
            assumption
  have h28 : OnlyChanges [.watch, .host, .xing, .plays, .exchanges, .store, .mem, .near] s x11 := by
    unfold x11
    refine OnlyChanges.ite ?_ ?_
    · assumption
    · refine OnlyChanges.fold ?_ (fun u29 y30 h31 => ?_)
      · assumption
      · refine OnlyChanges.step ?_ (padLines_frame _ _ _ _) (by decide)
        assumption
  have h32 : OnlyChanges [.watch, .host, .xing, .plays, .exchanges, .store, .mem, .near] s x13 := by
    unfold x13
    refine OnlyChanges.fold ?_ (fun u33 y34 h35 => ?_)
    · assumption
    · extract_lets x36
      clear_value x36
      refine OnlyChanges.step ?_ (writeN_frame _ _ _ _) (by decide)
      assumption
  clear_value x0 x1 x2 x3 x4 x5 x6 x7 x8 x9 x10 x11 x12 x13 x14
  refine OnlyChanges.step ?_ (noteAll_frame _) (by decide)
  refine OnlyChanges.step ?_ (setX_frame _ _) (by decide)
  assumption

theorem startCombine_frame (p : Play) (tile : Nat) (m : QMove) (s : State) :
    startAll (OnlyChanges [.ports, .watch, .host, .xing, .plays, .mesh, .exchanges, .store, .mem, .near] s) (startCombine p tile m s) := by
  unfold startCombine
  extract_lets x0 x1
  clear_value x0 x1
  split
  · rename_i v2 v3 v4
    change OnlyChanges [.ports, .watch, .host, .xing, .plays, .mesh, .exchanges, .store, .mem, .near] s _
    exact OnlyChanges.refl _ _
  · rename_i v5 v6
    split
    · rename_i v7 v8
      change OnlyChanges [.ports, .watch, .host, .xing, .plays, .mesh, .exchanges, .store, .mem, .near] s _
      exact OnlyChanges.refl _ _
    · rename_i v9 v10 v11
      split
      · rename_i v12
        change OnlyChanges [.ports, .watch, .host, .xing, .plays, .mesh, .exchanges, .store, .mem, .near] s _
        exact OnlyChanges.refl _ _
      · rename_i v13
        extract_lets x14 x15
        have h16 : OnlyChanges [.ports, .watch, .host, .xing, .plays, .mesh, .exchanges, .store, .mem, .near] s x15 := by
          unfold x15
          refine OnlyChanges.fold ?_ (fun u17 y18 h19 => ?_)
          · refine OnlyChanges.step ?_ (setX_frame _ _) (by decide)
            exact OnlyChanges.refl _ _
          · split
            · rename_i v20 v21 v22
              refine OnlyChanges.step ?_ (sendItem_frame _ _ _ _ _ _) (by decide)
              assumption
            · rename_i v23 v24
              assumption
        clear_value x14 x15
        split
        · rename_i v25
          change OnlyChanges [.ports, .watch, .host, .xing, .plays, .mesh, .exchanges, .store, .mem, .near] s _
          refine OnlyChanges.step ?_ (combineWrite_frame _ _ _ _ _) (by decide)
          assumption
        · rename_i v26
          change OnlyChanges [.ports, .watch, .host, .xing, .plays, .mesh, .exchanges, .store, .mem, .near] s _
          assumption

theorem readReturns_frame (x : Exchange) (m : MapEntry) (row : Nat) (s : State) :
    sndAll (OnlyChanges [.host, .xing, .store] s) (readReturns x m row s) := by
  unfold readReturns
  refine OnlyChanges.foldSnd ?_ (fun u0 y1 h2 => ?_)
  · refine sndAll_mk ?_
    exact OnlyChanges.refl _ _
  · split
    · rename_i v3 v4 v5
      split
      · rename_i v6 v7 v8 v9
        refine absorb (P := sndAll (OnlyChanges [.host, .xing, .store] s)) v9 ?_ (fun q10 => ?_)
        · refine OnlyChanges.stepSnd ?_ (engineRead_frame _ _ _ _ _) (by decide)
          show sndAll (OnlyChanges [.host, .xing, .store] s) _
          assumption
        refine sndAll_mk ?_
        assumption
      · rename_i v11 v12 v13 v14
        refine absorb (P := sndAll (OnlyChanges [.host, .xing, .store] s)) v14 ?_ (fun q15 => ?_)
        · refine OnlyChanges.stepSnd ?_ (engineRead_frame _ _ _ _ _) (by decide)
          show sndAll (OnlyChanges [.host, .xing, .store] s) _
          assumption
        refine sndAll_mk ?_
        assumption
    · rename_i v16 v17
      assumption

theorem freeElems_frame (fmt : Nat) (n : Nat) (s : State) :
    sndAll (OnlyChanges [.freeCtr] s) (freeElems fmt n s) := by
  unfold freeElems
  refine sndAll_mk ?_
  refine only_freeCtr ?_ _ (by decide)
  exact OnlyChanges.refl _ _

theorem serveFetch_frame (xid : Nat) (s : State) (f : XFetch) :
    OnlyChanges [.cap, .ports, .host, .xing, .mesh, .exchanges, .freeCtr, .store] s (serveFetch xid s f) := by
  unfold serveFetch
  split
  · rename_i v0 v1
    exact OnlyChanges.refl _ _
  · rename_i v2 v3 v4
    split
    · rename_i v5 v6
      exact OnlyChanges.refl _ _
    · rename_i v7 v8 v9
      split
      · rename_i v10 v11 v12 v13 v14
        extract_lets x15
        have h16 : OnlyChanges [.cap, .ports, .host, .xing, .mesh, .exchanges, .freeCtr, .store] s x15 := by
          unfold x15
          refine OnlyChanges.step ?_ (setX_frame _ _) (by decide)
          exact OnlyChanges.refl _ _
        clear_value x15
        split
        · rename_i v17 v18 v19 v20
          refine absorb (P := sndAll (OnlyChanges [.cap, .ports, .host, .xing, .mesh, .exchanges, .freeCtr, .store] s)) v20 ?_ (fun q21 => ?_)
          · refine OnlyChanges.stepSnd ?_ (readReturns_frame _ _ _ _) (by decide)
            assumption
          split
          · rename_i v22 v23 v24 v25
            refine absorb (P := sndAll (OnlyChanges [.cap, .ports, .host, .xing, .mesh, .exchanges, .freeCtr, .store] s)) v25 ?_ (fun q26 => ?_)
            · split
              · rename_i v27
                refine OnlyChanges.stepSnd ?_ (freeElems_frame _ _ _) (by decide)
                assumption
              · rename_i v28
                refine sndAll_mk ?_
                assumption
            refine OnlyChanges.ite ?_ ?_
            · refine OnlyChanges.step ?_ (faultStep_frame _ _) (by decide)
              assumption
            · refine OnlyChanges.step ?_ (sendItem_frame _ _ _ _ _ _) (by decide)
              assumption
      · rename_i v29 v30 v31
        exact OnlyChanges.refl _ _

theorem serveFetches_frame (s : State) :
    OnlyChanges [.cap, .ports, .host, .xing, .mesh, .exchanges, .freeCtr, .store] s (serveFetches s) := by
  unfold serveFetches
  refine OnlyChanges.fold ?_ (fun u0 y1 h2 => ?_)
  · exact OnlyChanges.refl _ _
  · split
    · rename_i v3 v4 v5
      refine OnlyChanges.fold ?_ (fun u6 y7 h8 => ?_)
      · assumption
      · refine OnlyChanges.step ?_ (serveFetch_frame _ _ _) (by decide)
        assumption

theorem execFetch_frame (f : XFetch) (t : Transit) (s : State) :
    outAll (OnlyChanges [.cap, .knots, .ports, .host, .xing, .plays, .mesh, .exchanges, .freeCtr, .store, .rel, .mem, .near] s) (execFetch f t s) :=
        by
  unfold execFetch
  extract_lets x0
  clear_value x0
  split
  · rename_i v1 v2
    refine absorb (P := arrAll (OnlyChanges [.cap, .knots, .ports, .host, .xing, .plays, .mesh, .exchanges, .freeCtr, .store, .rel, .mem, .near] s))
        v2 ?_ (fun q3 => ?_)
    · refine OnlyChanges.stepArr ?_ (packetArrive_frame _ _ _ _ _ _) (by decide)
      exact OnlyChanges.refl _ _
    change OnlyChanges [.cap, .knots, .ports, .host, .xing, .plays, .mesh, .exchanges, .freeCtr, .store, .rel, .mem, .near] s _
    exact OnlyChanges.refl _ _
  · rename_i v4 v5 v6
    refine absorb (P := arrAll (OnlyChanges [.cap, .knots, .ports, .host, .xing, .plays, .mesh, .exchanges, .freeCtr, .store, .rel, .mem, .near] s))
        v6 ?_ (fun q7 => ?_)
    · refine OnlyChanges.stepArr ?_ (packetArrive_frame _ _ _ _ _ _) (by decide)
      exact OnlyChanges.refl _ _
    change OnlyChanges [.cap, .knots, .ports, .host, .xing, .plays, .mesh, .exchanges, .freeCtr, .store, .rel, .mem, .near] s _
    assumption
  · rename_i v8 v9 v10 v11
    refine absorb (P := arrAll (OnlyChanges [.cap, .knots, .ports, .host, .xing, .plays, .mesh, .exchanges, .freeCtr, .store, .rel, .mem, .near] s))
        v11 ?_ (fun q12 => ?_)
    · refine OnlyChanges.stepArr ?_ (packetArrive_frame _ _ _ _ _ _) (by decide)
      exact OnlyChanges.refl _ _
    split
    · rename_i v13 v14
      change OnlyChanges [.cap, .knots, .ports, .host, .xing, .plays, .mesh, .exchanges, .freeCtr, .store, .rel, .mem, .near] s _
      assumption
    · rename_i v15 v16 v17
      split
      · rename_i v18
        change OnlyChanges [.cap, .knots, .ports, .host, .xing, .plays, .mesh, .exchanges, .freeCtr, .store, .rel, .mem, .near] s _
        assumption
      · rename_i v19
        change OnlyChanges [.cap, .knots, .ports, .host, .xing, .plays, .mesh, .exchanges, .freeCtr, .store, .rel, .mem, .near] s _
        refine OnlyChanges.step ?_ (serveFetches_frame _) (by decide)
        refine OnlyChanges.step ?_ (setX_frame _ _) (by decide)
        assumption

theorem markReady_frame (p : Play) (tile : Nat) (code : Nat) (s : State) :
    OnlyChanges [.plays] s (markReady p tile code s) := by
  unfold markReady
  refine OnlyChanges.step ?_ (setPlay_frame _ _) (by decide)
  exact OnlyChanges.refl _ _

theorem execResult_frame (r : XResult) (t : Transit) (s : State) :
    outAll (OnlyChanges [.cap, .knots, .ports, .watch, .host, .xing, .plays, .mesh, .exchanges, .freeCtr, .store, .rel, .mem, .near] s) (execResult
        r t s) := by
  unfold execResult
  extract_lets x0
  clear_value x0
  split
  · rename_i v1 v2
    refine absorb (P := arrAll (OnlyChanges [.cap, .knots, .ports, .watch, .host, .xing, .plays, .mesh, .exchanges, .freeCtr, .store, .rel, .mem,
        .near] s)) v2 ?_ (fun q3 => ?_)
    · refine OnlyChanges.stepArr ?_ (packetArrive_frame _ _ _ _ _ _) (by decide)
      exact OnlyChanges.refl _ _
    change OnlyChanges [.cap, .knots, .ports, .watch, .host, .xing, .plays, .mesh, .exchanges, .freeCtr, .store, .rel, .mem, .near] s _
    exact OnlyChanges.refl _ _
  · rename_i v4 v5 v6
    refine absorb (P := arrAll (OnlyChanges [.cap, .knots, .ports, .watch, .host, .xing, .plays, .mesh, .exchanges, .freeCtr, .store, .rel, .mem,
        .near] s)) v6 ?_ (fun q7 => ?_)
    · refine OnlyChanges.stepArr ?_ (packetArrive_frame _ _ _ _ _ _) (by decide)
      exact OnlyChanges.refl _ _
    change OnlyChanges [.cap, .knots, .ports, .watch, .host, .xing, .plays, .mesh, .exchanges, .freeCtr, .store, .rel, .mem, .near] s _
    assumption
  · rename_i v8 v9 v10 v11
    refine absorb (P := arrAll (OnlyChanges [.cap, .knots, .ports, .watch, .host, .xing, .plays, .mesh, .exchanges, .freeCtr, .store, .rel, .mem,
        .near] s)) v11 ?_ (fun q12 => ?_)
    · refine OnlyChanges.stepArr ?_ (packetArrive_frame _ _ _ _ _ _) (by decide)
      exact OnlyChanges.refl _ _
    split
    · rename_i v13 v14
      change OnlyChanges [.cap, .knots, .ports, .watch, .host, .xing, .plays, .mesh, .exchanges, .freeCtr, .store, .rel, .mem, .near] s _
      assumption
    · rename_i v15 v16 v17
      split
      · rename_i v18
        change OnlyChanges [.cap, .knots, .ports, .watch, .host, .xing, .plays, .mesh, .exchanges, .freeCtr, .store, .rel, .mem, .near] s _
        assumption
      · rename_i v19
        split
        · rename_i v20 v21
          change OnlyChanges [.cap, .knots, .ports, .watch, .host, .xing, .plays, .mesh, .exchanges, .freeCtr, .store, .rel, .mem, .near] s _
          assumption
        · rename_i v22 v23 v24 v25
          extract_lets x26 x27
          have h28 : OnlyChanges [.cap, .knots, .ports, .watch, .host, .xing, .plays, .mesh, .exchanges, .freeCtr, .store, .rel, .mem, .near] s x27
              := by
            unfold x27
            refine OnlyChanges.step ?_ (setX_frame _ _) (by decide)
            assumption
          clear_value x26 x27
          split
          · rename_i v29
            change OnlyChanges [.cap, .knots, .ports, .watch, .host, .xing, .plays, .mesh, .exchanges, .freeCtr, .store, .rel, .mem, .near] s _
            refine OnlyChanges.step ?_ (markReady_frame _ _ _ _) (by decide)
            refine OnlyChanges.step ?_ (combineWrite_frame _ _ _ _ _) (by decide)
            assumption
          · rename_i v30
            change OnlyChanges [.cap, .knots, .ports, .watch, .host, .xing, .plays, .mesh, .exchanges, .freeCtr, .store, .rel, .mem, .near] s _
            assumption

theorem opXmapSet_frame (p : Packet) (s : State) :
    OnlyChanges [.cap, .sets, .host, .xing, .store] s (opXmapSet p s) := by
  unfold opXmapSet
  extract_lets x0 x1 x2 x3
  clear_value x0 x1 x2 x3
  refine OnlyChanges.ite ?_ ?_
  · refine OnlyChanges.step ?_ (refuse_frame _ _ _) (by decide)
    exact OnlyChanges.refl _ _
  · refine OnlyChanges.ite ?_ ?_
    · refine OnlyChanges.step ?_ (refuse_frame _ _ _) (by decide)
      exact OnlyChanges.refl _ _
    · refine OnlyChanges.ite ?_ ?_
      · refine OnlyChanges.step ?_ (refuse_frame _ _ _) (by decide)
        exact OnlyChanges.refl _ _
      · split
        · rename_i v4 v5 v6 v7
          refine absorb (P := sndAll (OnlyChanges [.cap, .sets, .host, .xing, .store] s)) v7 ?_ (fun q8 => ?_)
          · split
            · rename_i v9
              refine sndAll_mk ?_
              exact OnlyChanges.refl _ _
            · rename_i v10
              refine OnlyChanges.stepSnd ?_ (engineRead_frame _ _ _ _ _) (by decide)
              exact OnlyChanges.refl _ _
          refine OnlyChanges.step ?_ (refuse_frame _ _ _) (by decide)
          assumption
        · rename_i v11 v12 v13 v14
          refine absorb (P := sndAll (OnlyChanges [.cap, .sets, .host, .xing, .store] s)) v14 ?_ (fun q15 => ?_)
          · split
            · rename_i v16
              refine sndAll_mk ?_
              exact OnlyChanges.refl _ _
            · rename_i v17
              refine OnlyChanges.stepSnd ?_ (engineRead_frame _ _ _ _ _) (by decide)
              exact OnlyChanges.refl _ _
          extract_lets x18 x19 x20
          clear_value x18 x19 x20
          refine OnlyChanges.ite ?_ ?_
          · refine OnlyChanges.step ?_ (refuse_frame _ _ _) (by decide)
            assumption
          · refine OnlyChanges.step ?_ (accept_frame _ _) (by decide)
            refine only_sets ?_ _ (by decide)
            assumption

theorem opXchSet_frame (p : Packet) (s : State) :
    OnlyChanges [.cap, .knots, .host, .xing, .plays, .exchanges, .store, .mem] s (opXchSet p s) := by
  unfold opXchSet
  refine OnlyChanges.ite ?_ ?_
  · refine OnlyChanges.step ?_ (refuse_frame _ _ _) (by decide)
    exact OnlyChanges.refl _ _
  · extract_lets x0 x1
    clear_value x0 x1
    refine OnlyChanges.ite ?_ ?_
    · refine OnlyChanges.step ?_ (refuse_frame _ _ _) (by decide)
      exact OnlyChanges.refl _ _
    · refine OnlyChanges.ite ?_ ?_
      · refine OnlyChanges.step ?_ (refuse_frame _ _ _) (by decide)
        exact OnlyChanges.refl _ _
      · refine OnlyChanges.ite ?_ ?_
        · refine OnlyChanges.step ?_ (refuse_frame _ _ _) (by decide)
          exact OnlyChanges.refl _ _
        · split
          · rename_i v2 v3 v4 v5
            extract_lets x6 x7 x8 x9 x10 x11
            have h12 : OnlyChanges [.cap, .knots, .host, .xing, .plays, .exchanges, .store, .mem] s x10 := by
              unfold x10
              refine OnlyChanges.step ?_ (setX_frame _ _) (by decide)
              exact OnlyChanges.refl _ _
            have h13 : OnlyChanges [.cap, .knots, .host, .xing, .plays, .exchanges, .store, .mem] s x11 := by
              unfold x11
              refine OnlyChanges.ite ?_ ?_
              · refine OnlyChanges.step ?_ (postX_frame _ _ _) (by decide)
                assumption
              · assumption
            clear_value x6 x7 x8 x9 x10 x11
            refine OnlyChanges.step ?_ (accept_frame _ _) (by decide)
            refine OnlyChanges.fold ?_ (fun u14 y15 h16 => ?_)
            · assumption
            · split
              · rename_i v17 v18 v19
                refine OnlyChanges.step ?_ (tryFinish_frame _ _ _) (by decide)
                assumption
          · rename_i v20 v21 v22 v23
            refine OnlyChanges.step ?_ (accept_frame _ _) (by decide)
            refine OnlyChanges.step ?_ (setX_frame _ _) (by decide)
            exact OnlyChanges.refl _ _

theorem opXchGet_frame (p : Packet) (s : State) :
    OnlyChanges [.cap, .host, .xing, .store, .mem, .near] s (opXchGet p s) := by
  unfold opXchGet
  extract_lets x0 x1 x2
  clear_value x0 x1 x2
  refine OnlyChanges.ite ?_ ?_
  · refine OnlyChanges.step ?_ (refuse_frame _ _ _) (by decide)
    exact OnlyChanges.refl _ _
  · refine OnlyChanges.ite ?_ ?_
    · refine OnlyChanges.step ?_ (refuse_frame _ _ _) (by decide)
      exact OnlyChanges.refl _ _
    · refine OnlyChanges.step ?_ (accept_frame _ _) (by decide)
      refine OnlyChanges.step ?_ (destWrite_frame _ _ _ _) (by decide)
      exact OnlyChanges.refl _ _

theorem dropExchanges_frame (step : W32) (s : State) :
    OnlyChanges [.exchanges] s (dropExchanges step s) := by
  unfold dropExchanges
  refine only_exchanges ?_ _ (by decide)
  exact OnlyChanges.refl _ _

theorem endExchanges_frame (step : W32) (s : State) :
    OnlyChanges [.exchanges] s (endExchanges step s) := by
  unfold endExchanges
  refine only_exchanges ?_ _ (by decide)
  exact OnlyChanges.refl _ _

end Sys2Proof.Machine
end

