-- ==== Sys2Proof/Laws/FarWrites.lean ====
section
/-! SUPPORT. Writes of the ply and exchange units: they go to tile store, so that they change memory alone, and neither the near stacks nor the host interface. -/

namespace Sys2Proof.Machine

theorem nearEnd_le_tileAddr (L off : Nat) : nearEnd ≤ tileAddr L off := by unfold nearEnd tileAddr tileBase; omega

theorem busWrite_far {a : Nat} (h : nearEnd ≤ a) (l : List Byte) (s : State) : OnlyChanges [.mem] s (busWrite a l s) := by
  unfold busWrite
  rw [if_neg (Nat.not_lt.mpr h)]
  exact writeBytes_frame _ _ _

theorem sqWriteLine_far {base : Nat} (h : nearEnd ≤ base) (c i : Nat) (el : List Nat) (s : State) :
    OnlyChanges [.mem] s (sqWriteLine base c i el s) := by
  unfold sqWriteLine
  exact busWrite_far (Nat.le_trans (Nat.le_trans h (Nat.le_add_right _ _)) (Nat.le_add_right _ _)) _ _

theorem sqWriteDesc_far {base : Nat} (h : nearEnd ≤ base) (c axis : Nat) (scale amax : W32) (s : State) :
    OnlyChanges [.mem] s (sqWriteDesc base c axis scale amax s) := by
  unfold sqWriteDesc
  exact busWrite_far h _ _

theorem padBody_far {base : Nat} (h : nearEnd ≤ base) (c i : Nat) (s : State) : OnlyChanges [.mem] s (padBody base c i s) := by
  unfold padBody
  exact busWrite_far (Nat.le_trans (Nat.le_trans h (Nat.le_add_right _ _)) (Nat.le_add_right _ _)) _ _

theorem padLines_far {base : Nat} (h : nearEnd ≤ base) (c i : Nat) (s : State) : OnlyChanges [.mem] s (padLines base c i s) := by
  unfold padLines
  dsimp only
  split
  · exact OnlyChanges.step (padBody_far h _ _ _) (busWrite_far (Nat.le_trans (Nat.le_trans h (Nat.le_add_right _ _)) (Nat.le_add_right _ _)) _ _) (by decide)
  · exact padBody_far h _ _ _

theorem gridSquare_far {base : Nat} (h : nearEnd ≤ base) (f nl i k : Nat) : nearEnd ≤ gridSquare base f nl i k := by
  unfold gridSquare
  exact Nat.le_trans h (Nat.le_add_right _ _)

theorem far_add {a : Nat} (h : nearEnd ≤ a) (n : Nat) : nearEnd ≤ a + n := Nat.le_trans h (Nat.le_add_right _ _)

theorem DestRun_line_far (d : DestRun) (die : Nat → Nat → W32) (k : Nat) (valid : Nat) (xs : List W32) (s : State) (h : nearEnd ≤ d.base) :
    OnlyChanges [.watch, .mem] s (DestRun.line d die k valid xs s) := by
  unfold DestRun.line
  split
  · rename_i v0 v1 v2 v3 v4 v5
    extract_lets x6 x7 x8
    have h9 : OnlyChanges [.watch, .mem] s x7 := by
      unfold x7
      refine OnlyChanges.step ?_ (sqWriteLine_far (far_add h _) _ _ _ _) (by decide)
      exact OnlyChanges.refl _ _
    have h10 : OnlyChanges [.watch, .mem] s x8 := by
      unfold x8
      refine OnlyChanges.ite ?_ ?_
      · refine OnlyChanges.step ?_ (writeBytes_frame _ _ _) (by decide)
        assumption
      · assumption
    refine OnlyChanges.step ?_ (countConv_frame _ _ _ _) (by decide)
    assumption

theorem DestRun_heads_far (d : DestRun) (amax : List W32) (s : State) (h : nearEnd ≤ d.base) :
    OnlyChanges [.mem] s (DestRun.heads d amax s) := by
  unfold DestRun.heads
  extract_lets x0
  clear_value x0
  refine OnlyChanges.fold ?_ (fun u1 y2 h3 => ?_)
  · exact OnlyChanges.refl _ _
  · extract_lets x4
    clear_value x4
    refine OnlyChanges.ite ?_ ?_
    · refine OnlyChanges.step ?_ (sqWriteDesc_far (far_add h _) _ _ _ _ _) (by decide)
      assumption
    · refine OnlyChanges.ite ?_ ?_
      · refine OnlyChanges.step ?_ (writeN_frame _ _ _ _) (by decide)
        assumption
      · assumption

theorem DestRun_write_far (d : DestRun) (die : Nat → Nat → W32) (valid : Nat → Nat) (lines : List (List W32)) (s : State) (h : nearEnd ≤ d.base) :
    OnlyChanges [.watch, .mem] s (DestRun.write d die valid lines s) := by
  unfold DestRun.write
  extract_lets x0 x1
  have h2 : OnlyChanges [.watch, .mem] s x1 := by
    unfold x1
    refine OnlyChanges.step ?_ (DestRun_heads_far _ _ _ h) (by decide)
    refine OnlyChanges.fold ?_ (fun u3 y4 h5 => ?_)
    · exact OnlyChanges.refl _ _
    · split
      · rename_i v6 v7 v8
        refine OnlyChanges.step ?_ (DestRun_line_far _ _ _ _ _ _ h) (by decide)
        assumption
  clear_value x0 x1
  refine OnlyChanges.ite ?_ ?_
  · assumption
  · refine OnlyChanges.step ?_ (padLines_far (far_add h _) _ _ _) (by decide)
    assumption

theorem copyRun_far (a : Nat) (d : Nat) (fmt : Nat) (n : Nat) (trans : Bool) (s : State) (h : nearEnd ≤ d) :
    OnlyChanges [.mem] s (copyRun a d fmt n trans s) := by
  unfold copyRun
  beta_reduce
  refine OnlyChanges.ite ?_ ?_
  · refine OnlyChanges.fold ?_ (fun u0 y1 h2 => ?_)
    · exact OnlyChanges.refl _ _
    · extract_lets x3 x4 x5 x6 x7 x8
      have h9 : OnlyChanges [.mem] s x7 := by
        unfold x7
        refine OnlyChanges.step ?_ (sqWriteDesc_far (far_add h _) _ _ _ _ _) (by decide)
        assumption
      have h10 : OnlyChanges [.mem] s x8 := by
        unfold x8
        refine OnlyChanges.ite ?_ ?_
        · assumption
        · refine OnlyChanges.ite ?_ ?_
          · refine OnlyChanges.step ?_ (writeBytes_frame _ _ _) (by decide)
            assumption
          · refine OnlyChanges.ite ?_ ?_
            · refine OnlyChanges.step ?_ (writeN_frame _ _ _ _) (by decide)
              assumption
            · assumption
      refine OnlyChanges.step ?_ (sqWriteLine_far (far_add h _) _ _ _ _) (by decide)
      assumption
  · refine OnlyChanges.step ?_ (padBody_far (far_add h _) _ _ _) (by decide)
    refine OnlyChanges.fold ?_ (fun u11 y12 h13 => ?_)
    · exact OnlyChanges.refl _ _
    · extract_lets x14 x15 x16 x17 x18 x19
      have h20 : OnlyChanges [.mem] s x18 := by
        unfold x18
        refine OnlyChanges.step ?_ (sqWriteDesc_far (far_add h _) _ _ _ _ _) (by decide)
        assumption
      have h21 : OnlyChanges [.mem] s x19 := by
        unfold x19
        refine OnlyChanges.ite ?_ ?_
        · assumption
        · refine OnlyChanges.ite ?_ ?_
          · refine OnlyChanges.step ?_ (writeBytes_frame _ _ _) (by decide)
            assumption
          · refine OnlyChanges.ite ?_ ?_
            · refine OnlyChanges.step ?_ (writeN_frame _ _ _ _) (by decide)
              assumption
            · assumption
      refine OnlyChanges.step ?_ (sqWriteLine_far (far_add h _) _ _ _ _) (by decide)
      assumption

theorem startElem_far (p : Play) (tile : Nat) (m : QMove) (s : State) :
    startAll (OnlyChanges [.watch, .freeCtr, .mem] s) (startElem p tile m s) := by
  unfold startElem
  extract_lets x0 x1 x2 x3 x4 x5 x6 x7 x8 x9 x10 x11 x12 x13 x14 x15 x16 x17 x18 x19 x20 x21 x22 x23 x24
  split
  · rename_i v25
    change OnlyChanges [.watch, .freeCtr, .mem] s _
    exact OnlyChanges.refl _ _
  · rename_i v26
    split
    · rename_i v27
      change OnlyChanges [.watch, .freeCtr, .mem] s _
      exact OnlyChanges.refl _ _
    · rename_i v28
      split
      · rename_i v29 v30 v31
        change OnlyChanges [.watch, .freeCtr, .mem] s _
        exact OnlyChanges.refl _ _
      · rename_i v32 v33
        split
        · rename_i v34
          change OnlyChanges [.watch, .freeCtr, .mem] s _
          exact OnlyChanges.refl _ _
        · rename_i v35
          split
          · rename_i v36
            change OnlyChanges [.watch, .freeCtr, .mem] s _
            refine OnlyChanges.step ?_ (freeBytes_frame _ _ _) (by decide)
            exact OnlyChanges.refl _ _
          · rename_i v37
            split
            · rename_i v38
              change OnlyChanges [.watch, .freeCtr, .mem] s _
              refine OnlyChanges.step ?_ (copyRun_far _ _ _ _ _ _ (nearEnd_le_tileAddr _ _)) (by decide)
              exact OnlyChanges.refl _ _
            · rename_i v39
              change OnlyChanges [.watch, .freeCtr, .mem] s _
              refine OnlyChanges.step ?_ (DestRun_write_far _ _ _ _ _ (nearEnd_le_tileAddr _ _)) (by decide)
              exact OnlyChanges.refl _ _

theorem groupWrite_far (p : Play) (s0 : State) (l : List Member) (m : Member) (s : State) :
    OnlyChanges [.knots, .watch, .mem] s (groupWrite p s0 l m s) := by
  unfold groupWrite
  extract_lets x0 x1 x2 x3 x4 x5 x6 x7 x8 x9
  refine OnlyChanges.ite ?_ ?_
  · refine OnlyChanges.step ?_ (addKnot_frame _ _ _) (by decide)
    refine OnlyChanges.step ?_ (writeN_frame _ _ _ _) (by decide)
    exact OnlyChanges.refl _ _
  · refine OnlyChanges.ite ?_ ?_
    · refine OnlyChanges.fold ?_ (fun u10 y11 h12 => ?_)
      · exact OnlyChanges.refl _ _
      · extract_lets x13 x14
        refine OnlyChanges.step ?_ (countConv_frame _ _ _ _) (by decide)
        refine OnlyChanges.step ?_ (writeN_frame _ _ _ _) (by decide)
        assumption
    · refine OnlyChanges.step ?_ (gaccRun_frame _ _ _) (by decide)
      refine OnlyChanges.step ?_ (DestRun_write_far _ _ _ _ _ (nearEnd_le_tileAddr _ _)) (by decide)
      exact OnlyChanges.refl _ _

theorem packSquare_far (p : Play) (tile : Nat) (m : QMove) (q : Nat) (s : State) :
    OnlyChanges [.watch, .mem] s (packSquare p tile m q s) := by
  unfold packSquare
  extract_lets x0 x1 x2 x3 x4 x5 x6 x7 x8 x9 x10
  split
  · rename_i v11 v12 v13 v14
    refine absorb (P := fstAll (OnlyChanges [.watch, .mem] s)) v14 ?_ (fun q15 => ?_)
    · split
      · rename_i v16
        refine OnlyChanges.foldFst ?_ (fun u17 y18 h19 => ?_)
        · refine fstAll_mk ?_
          exact OnlyChanges.refl _ _
        · split
          · rename_i v20 v21 v22 v23 v24
            refine fstAll_mk ?_
            refine OnlyChanges.step ?_ (writeBytes_frame _ _ _) (by decide)
            refine OnlyChanges.step ?_ (sqWriteCol_frame _ _ _ _ _) (by decide)
            show fstAll (OnlyChanges [.watch, .mem] s) _
            assumption
      · rename_i v25
        refine OnlyChanges.foldFst ?_ (fun u26 y27 h28 => ?_)
        · refine fstAll_mk ?_
          exact OnlyChanges.refl _ _
        · split
          · rename_i v29 v30 v31 v32 v33
            extract_lets x34
            have h35 : OnlyChanges [.watch, .mem] s x34 := by
              unfold x34
              refine OnlyChanges.step ?_ (sqWriteLine_far (far_add (nearEnd_le_tileAddr _ _) _) _ _ _ _) (by decide)
              show fstAll (OnlyChanges [.watch, .mem] s) _
              assumption
            refine fstAll_mk ?_
            refine OnlyChanges.ite ?_ ?_
            · refine OnlyChanges.step ?_ (writeBytes_frame _ _ _) (by decide)
              assumption
            · assumption
    extract_lets x36
    have h37 : OnlyChanges [.watch, .mem] s x36 := by
      unfold x36
      refine OnlyChanges.ite ?_ ?_
      · refine OnlyChanges.step ?_ (sqWriteDesc_far (far_add (nearEnd_le_tileAddr _ _) _) _ _ _ _ _) (by decide)
        assumption
      · assumption
    refine OnlyChanges.step ?_ (countConv_frame _ _ _ _) (by decide)
    assumption

theorem startPack_far (p : Play) (tile : Nat) (m : QMove) (s : State) :
    startAll (OnlyChanges [.watch, .mem] s) (startPack p tile m s) := by
  unfold startPack
  extract_lets x0 x1 x2 x3
  clear_value x0 x1 x2 x3
  split
  · rename_i v4
    change OnlyChanges [.watch, .mem] s _
    exact OnlyChanges.refl _ _
  · rename_i v5
    split
    · rename_i v6
      change OnlyChanges [.watch, .mem] s _
      exact OnlyChanges.refl _ _
    · rename_i v7
      split
      · rename_i v8
        split
        · rename_i v9
          change OnlyChanges [.watch, .mem] s _
          exact OnlyChanges.refl _ _
        · rename_i v10
          split
          · rename_i v11
            trivial
          · rename_i v12
            change OnlyChanges [.watch, .mem] s _
            refine OnlyChanges.fold ?_ (fun u13 y14 h15 => ?_)
            · exact OnlyChanges.refl _ _
            · refine OnlyChanges.step ?_ (packSquare_far _ _ _ _ _) (by decide)
              assumption
      · rename_i v16
        split
        · rename_i v17
          change OnlyChanges [.watch, .mem] s _
          exact OnlyChanges.refl _ _
        · rename_i v18
          split
          · rename_i v19
            trivial
          · rename_i v20
            change OnlyChanges [.watch, .mem] s _
            refine OnlyChanges.fold ?_ (fun u21 y22 h23 => ?_)
            · exact OnlyChanges.refl _ _
            · refine OnlyChanges.step ?_ (packSquare_far _ _ _ _ _) (by decide)
              assumption

theorem combineWrite_far (p : Play) (tile : Nat) (m : QMove) (x : Exchange) (s : State) :
    OnlyChanges [.watch, .plays, .exchanges, .mem] s (combineWrite p tile m x s) := by
  unfold combineWrite
  extract_lets x0 x1 x2 x3 x4 x5 x6 x7 x8 x9 x10 x11 x12 x13 x14
  have h15 : OnlyChanges [.watch, .plays, .exchanges, .mem] s x10 := by
    unfold x10
    refine OnlyChanges.fold ?_ (fun u16 y17 h18 => ?_)
    · exact OnlyChanges.refl _ _
    · split
      · rename_i v19 v20 v21
        refine OnlyChanges.fold ?_ (fun u22 y23 h24 => ?_)
        · assumption
        · split
          · rename_i v25 v26 v27
            refine OnlyChanges.step ?_ (countConv_frame _ _ _ _) (by decide)
            refine OnlyChanges.step ?_ (sqWriteLine_far (gridSquare_far (nearEnd_le_tileAddr _ _) _ _ _ _) _ _ _ _) (by decide)
            assumption
  have h28 : OnlyChanges [.watch, .plays, .exchanges, .mem] s x11 := by
    unfold x11
    refine OnlyChanges.ite ?_ ?_
    · assumption
    · refine OnlyChanges.fold ?_ (fun u29 y30 h31 => ?_)
      · assumption
      · refine OnlyChanges.step ?_ (padLines_far (gridSquare_far (nearEnd_le_tileAddr _ _) _ _ _ _) _ _ _) (by decide)
        assumption
  have h32 : OnlyChanges [.watch, .plays, .exchanges, .mem] s x13 := by
    unfold x13
    refine OnlyChanges.fold ?_ (fun u33 y34 h35 => ?_)
    · assumption
    · extract_lets x36
      refine OnlyChanges.step ?_ (writeN_frame _ _ _ _) (by decide)
      assumption
  refine OnlyChanges.step ?_ (noteAll_frame _) (by decide)
  refine OnlyChanges.step ?_ (setX_frame _ _) (by decide)
  assumption

end Sys2Proof.Machine
end

