-- ==== Sys2Proof/Laws/FramePlays.lean ====
section
/-! SUPPORT. Frames: what each function of the plays can change. -/

namespace Sys2Proof.Machine

theorem playReply_frame (p : Play) (st : BitVec 16) (d : W64) (s : State) :
    OnlyChanges [.cap, .host, .xing, .store] s (playReply p st d s) := by
  unfold playReply
  refine OnlyChanges.step ?_ (stepReply_frame _ _ _ _ _ _ _ _ _ _ _) (by decide)
  exact OnlyChanges.refl _ _

theorem endUnrun_frame (p : Play) (st : BitVec 16) (s : State) :
    OnlyChanges [.cap, .host, .xing, .plays, .store] s (endUnrun p st s) := by
  unfold endUnrun
  refine OnlyChanges.step ?_ (playReply_frame _ _ _ _) (by decide)
  refine OnlyChanges.step ?_ (dropPlay_frame _ _) (by decide)
  exact OnlyChanges.refl _ _

theorem opPlayFire_frame (p : Packet) (order : Nat) (s : State) :
    OnlyChanges [.cap, .host, .xing, .plays, .store] s (opPlayFire p order s) := by
  unfold opPlayFire
  refine OnlyChanges.ite ?_ ?_
  · refine OnlyChanges.step ?_ (refuse_frame _ _ _) (by decide)
    exact OnlyChanges.refl _ _
  · extract_lets x0 x1
    clear_value x0 x1
    refine only_plays ?_ _ (by decide)
    exact OnlyChanges.refl _ _

theorem playRun_frame (p : Play) (s : State) :
    OnlyChanges [.caches, .plays] s (playRun p s) := by
  unfold playRun
  extract_lets x0 x1 x2
  clear_value x0 x1 x2
  refine OnlyChanges.fold ?_ (fun u3 y4 h5 => ?_)
  · refine OnlyChanges.step ?_ (setPlay_frame _ _) (by decide)
    exact OnlyChanges.refl _ _
  · refine OnlyChanges.step ?_ (cacheDrop_frame _ _ _ _) (by decide)
    assumption

theorem freeDest_frame (d : Nat × Nat × Nat × Option Nat) (s : State) :
    OnlyChanges [.caches, .host, .freeCtr, .mem] s (freeDest d s) := by
  unfold freeDest
  split
  · rename_i v0 v1 v2 v3 v4
    refine OnlyChanges.ite ?_ ?_
    · refine OnlyChanges.ite ?_ ?_
      · refine OnlyChanges.fold ?_ (fun u5 y6 h7 => ?_)
        · exact OnlyChanges.refl _ _
        · refine OnlyChanges.ite ?_ ?_
          · assumption
          · split
            · rename_i v8 v9 v10 v11
              refine absorb (P := sndAll (OnlyChanges [.caches, .host, .freeCtr, .mem] s)) v11 ?_ (fun q12 => ?_)
              · refine OnlyChanges.stepSnd ?_ (drawBytes_frame _ _) (by decide)
                assumption
              extract_lets x13
              have h14 : OnlyChanges [.caches, .host, .freeCtr, .mem] s x13 := by
                unfold x13
                refine OnlyChanges.step ?_ (writeBytes_frame _ _ _) (by decide)
                assumption
              clear_value x13
              refine elim_of (P := (OnlyChanges [.caches, .host, .freeCtr, .mem] s)) ?_ (fun y15 => ?_)
              · assumption
              · refine OnlyChanges.step ?_ (cacheUpdate_frame _ _ _ _) (by decide)
                assumption
      · refine OnlyChanges.step ?_ (freeBytes_frame _ _ _) (by decide)
        exact OnlyChanges.refl _ _
    · refine OnlyChanges.step ?_ (freeHost_frame _ _ _ _) (by decide)
      exact OnlyChanges.refl _ _

theorem freeDests_frame (p : Play) (s : State) :
    OnlyChanges [.caches, .host, .freeCtr, .mem] s (freeDests p s) := by
  unfold freeDests
  refine OnlyChanges.fold ?_ (fun u0 y1 h2 => ?_)
  · exact OnlyChanges.refl _ _
  · refine OnlyChanges.step ?_ (freeDest_frame _ _) (by decide)
    assumption

theorem makeTie_frame (p : Play) (tile : Nat) (w : MoveWord) (s : State) :
    OnlyChanges [.knots] s (makeTie p tile w s) := by
  unfold makeTie
  refine OnlyChanges.ite ?_ ?_
  · exact OnlyChanges.refl _ _
  · refine OnlyChanges.ite ?_ ?_
    · refine OnlyChanges.fold ?_ (fun u0 y1 h2 => ?_)
      · exact OnlyChanges.refl _ _
      · refine OnlyChanges.step ?_ (addKnot_frame _ _ _) (by decide)
        assumption
    · refine OnlyChanges.step ?_ (addKnot_frame _ _ _) (by decide)
      exact OnlyChanges.refl _ _

theorem startTie_frame (p : Play) (tile : Nat) (code : Nat) (m : QMove) (s : State) :
    startAll (OnlyChanges [.knots, .mesh] s) (startTie p tile code m s) := by
  unfold startTie
  extract_lets x0 x1 x2 x3 x4 x5
  have h6 : ∀ a7 a8, OnlyChanges [.knots, .mesh] s a8 → OnlyChanges [.knots, .mesh] s (x4 a7 a8) := by
    intro b9 b10 k11
    unfold x4
    refine OnlyChanges.step ?_ (meshPut_frame _ _ _) (by decide)
    assumption
  clear_value x0 x1 x2 x3 x4 x5
  split
  · rename_i v12
    change OnlyChanges [.knots, .mesh] s _
    exact OnlyChanges.refl _ _
  · rename_i v13
    split
    · rename_i v14
      change OnlyChanges [.knots, .mesh] s _
      exact OnlyChanges.refl _ _
    · rename_i v15
      split
      · rename_i v16
        change OnlyChanges [.knots, .mesh] s _
        refine OnlyChanges.step ?_ (addKnot_frame _ _ _) (by decide)
        exact OnlyChanges.refl _ _
      · rename_i v17
        split
        · rename_i v18
          change OnlyChanges [.knots, .mesh] s _
          refine OnlyChanges.fold ?_ (fun u19 y20 h21 => ?_)
          · exact OnlyChanges.refl _ _
          · apply h6
            · assumption
        · rename_i v22
          change OnlyChanges [.knots, .mesh] s _
          apply h6
          · exact OnlyChanges.refl _ _

theorem startWait_frame (tile : Nat) (m : QMove) (s : State) :
    startAll (OnlyChanges [] s) (startWait tile m s) := by
  unfold startWait
  split
  · rename_i v0
    change OnlyChanges [] s _
    exact OnlyChanges.refl _ _
  · rename_i v1
    split
    · rename_i v2
      change OnlyChanges [] s _
      exact OnlyChanges.refl _ _
    · rename_i v3
      change OnlyChanges [] s _
      exact OnlyChanges.refl _ _

theorem startKset_frame (tile : Nat) (m : QMove) (s : State) :
    startAll (OnlyChanges [.knots] s) (startKset tile m s) := by
  unfold startKset
  split
  · rename_i v0
    change OnlyChanges [.knots] s _
    exact OnlyChanges.refl _ _
  · rename_i v1
    change OnlyChanges [.knots] s _
    refine OnlyChanges.step ?_ (setKnot_frame _ _ _) (by decide)
    exact OnlyChanges.refl _ _

theorem startIframe_frame (p : Play) (tile : Nat) (code : Nat) (m : QMove) (s : State) :
    startAll (OnlyChanges [.plays] s) (startIframe p tile code m s) := by
  unfold startIframe
  split
  · rename_i v0
    change OnlyChanges [.plays] s _
    exact OnlyChanges.refl _ _
  · rename_i v1
    change OnlyChanges [.plays] s _
    refine OnlyChanges.step ?_ (modQueue_frame _ _ _ _ _) (by decide)
    exact OnlyChanges.refl _ _

theorem laneStart_frame (p : Play) (tile : Nat) (m : QMove) (s : State) (r : Start) {l : List Part} {u : State} (hs : OnlyChanges l u s)
    (hr : startAll (OnlyChanges l u) r) (hl : ∀ p ∈ ([.host, .xing, .store, .rel] : List Part), p ∈ l) :
    startAll (OnlyChanges l u) (laneStart p tile m s r) := by
  have fault := OnlyChanges.step (OnlyChanges.step hs
    (laneResidue_frame (unitOf 0 (physTile s tile)) (BitVec.ofNat 32 tile) p.origin p.id p.step false s) (fun p hp => hl p (by revert p; decide)))
    (suspectTile_frame (physTile s tile) 3 _) (fun p hp => hl p (by revert p; decide))
  unfold laneStart
  dsimp only
  split
  · exact OnlyChanges.step hr (laneResidue_frame _ _ _ _ _ _ _) (fun p hp => hl p (by revert p; decide))
  · exact OnlyChanges.step hr (laneResidue_frame _ _ _ _ _ _ _) (fun p hp => hl p (by revert p; decide))
  · exact fault
  · exact fault
  · exact hr

theorem parityStart_frame {l : List Part} {s t : State} (p : Play) (m : QMove) {f : State → Start} (hs : OnlyChanges l s t)
    (hl : ∀ p ∈ ([.cap, .knots, .host, .xing, .freeCtr, .store, .rel, .mem, .near] : List Part), p ∈ l)
    (hf : ∀ u, OnlyChanges l s u → startAll (OnlyChanges l s) (f u)) : startAll (OnlyChanges l s) (parityStart p m f t) := by
  have r := hf t hs
  have meet (pl : ParityPlace) (w : DataWord) : startAll (OnlyChanges l s)
      (if (parityMeets pl w p.origin p.id p.step t).1 then .fault 1 (parityMeets pl w p.origin p.id p.step t).2
       else f (parityMeets pl w p.origin p.id p.step t).2) := by
    have x : OnlyChanges l s (parityMeets pl w p.origin p.id p.step t).2 :=
      OnlyChanges.step hs (parityMeets_frame pl w p.origin p.id p.step t) (fun p hp => hl p (by revert p; decide))
    split
    · exact x
    · exact hf _ x
  unfold parityStart
  dsimp only
  split
  · rename_i e
    rw [e] at r
    split
    · exact r
    · exact meet _ _
  · rename_i e
    rw [e] at r
    split
    · exact r
    · exact meet _ _
  · exact r

theorem startMoveOf_frame (p : Play) (tile : Nat) (code : Nat) (m : QMove) (s : State) :
    startAll (OnlyChanges [.cap, .caches, .parts, .knots, .ports, .fields, .watch, .host, .xing, .ramp, .plays, .mesh, .exchanges, .freeCtr, .store,
        .rel, .mem, .near] s) (startMoveOf p tile code m s) := by
  unfold startMoveOf
  split
  · rename_i v0
    change OnlyChanges [.cap, .caches, .parts, .knots, .ports, .fields, .watch, .host, .xing, .ramp, .plays, .mesh, .exchanges, .freeCtr, .store,
        .rel, .mem, .near] s _
    exact OnlyChanges.refl _ _
  · rename_i v1
    split
    · rename_i v2 v3
      refine OnlyChanges.stepStart ?_ (startTie_frame _ _ _ _ _) (by decide)
      exact OnlyChanges.refl _ _
    · rename_i v4 v5
      refine OnlyChanges.stepStart ?_ (startWait_frame _ _ _) (by decide)
      exact OnlyChanges.refl _ _
    · rename_i v6 v7
      refine OnlyChanges.stepStart ?_ (startKset_frame _ _ _) (by decide)
      exact OnlyChanges.refl _ _
    · rename_i v8 v9
      refine OnlyChanges.stepStart ?_ (startIframe_frame _ _ _ _ _) (by decide)
      exact OnlyChanges.refl _ _
    · rename_i v10 v11
      refine OnlyChanges.stepStart ?_ (startLoadw_frame _ _ _) (by decide)
      exact OnlyChanges.refl _ _
    · rename_i v12 v13
      refine OnlyChanges.stepStart ?_ (startSwapw_frame _ _ _) (by decide)
      exact OnlyChanges.refl _ _
    · rename_i v14 v15
      refine OnlyChanges.stepStart ?_ (startStream_frame _ _ _) (by decide)
      exact OnlyChanges.refl _ _
    · rename_i v16 v17
      refine OnlyChanges.stepStart ?_ (startElem_frame _ _ _ _) (by decide)
      exact OnlyChanges.refl _ _
    · rename_i v18 v19
      refine OnlyChanges.stepStart ?_ (startGroup_frame _ _ _ _ _) (by decide)
      exact OnlyChanges.refl _ _
    · rename_i v20 v21
      refine OnlyChanges.stepStart ?_ (startGroup_frame _ _ _ _ _) (by decide)
      exact OnlyChanges.refl _ _
    · rename_i v22 v23
      refine OnlyChanges.stepStart ?_ (startGroup_frame _ _ _ _ _) (by decide)
      exact OnlyChanges.refl _ _
    · rename_i v24 v25
      refine OnlyChanges.stepStart ?_ (startTopk_frame _ _ _ _) (by decide)
      exact OnlyChanges.refl _ _
    · rename_i v26 v27
      refine OnlyChanges.stepStart ?_ (startGather_frame _ _ _ _ _) (by decide)
      exact OnlyChanges.refl _ _
    · rename_i v28 v29
      refine OnlyChanges.stepStart ?_ (startGather_frame _ _ _ _ _) (by decide)
      exact OnlyChanges.refl _ _
    · rename_i v30 v31
      refine OnlyChanges.stepStart ?_ (startGather_frame _ _ _ _ _) (by decide)
      exact OnlyChanges.refl _ _
    · rename_i v32 v33
      refine OnlyChanges.stepStart ?_ (startPack_frame _ _ _ _) (by decide)
      exact OnlyChanges.refl _ _
    · rename_i v34 v35
      refine OnlyChanges.stepStart ?_ (startGroup_frame _ _ _ _ _) (by decide)
      exact OnlyChanges.refl _ _
    · rename_i v36 v37
      refine OnlyChanges.stepStart ?_ (startMove_frame _ _ _ _) (by decide)
      exact OnlyChanges.refl _ _
    · rename_i v38 v39
      refine OnlyChanges.stepStart ?_ (startInval_frame _ _ _) (by decide)
      exact OnlyChanges.refl _ _
    · rename_i v40 v41
      refine OnlyChanges.stepStart ?_ (startDispatch_frame _ _ _ _) (by decide)
      exact OnlyChanges.refl _ _
    · rename_i v42 v43
      refine OnlyChanges.stepStart ?_ (startCombine_frame _ _ _ _) (by decide)
      exact OnlyChanges.refl _ _
    · rename_i v44 v45 v46 v47 v48 v49 v50 v51 v52 v53 v54 v55 v56 v57 v58 v59 v60 v61 v62 v63 v64 v65
      change OnlyChanges [.cap, .caches, .parts, .knots, .ports, .fields, .watch, .host, .xing, .ramp, .plays, .mesh, .exchanges, .freeCtr, .store,
          .rel, .mem, .near] s _
      exact OnlyChanges.refl _ _

theorem startAny_frame (p : Play) (tile : Nat) (code : Nat) (m : QMove) (s : State) :
    startAll (OnlyChanges [.cap, .caches, .parts, .knots, .ports, .fields, .watch, .host, .xing, .ramp, .plays, .mesh, .exchanges, .freeCtr, .store,
        .rel, .mem, .near] s) (startAny p tile code m s) := by
  unfold startAny
  refine parityStart_frame _ _ ?_ (by decide) ?_
  · exact OnlyChanges.refl _ _
  · intro a0
    intro a1
    refine laneStart_frame _ _ _ _ _ ?_ ?_ (by decide)
    · assumption
    · refine OnlyChanges.stepStart ?_ (startMoveOf_frame _ _ _ _ _) (by decide)
      assumption

theorem noteStart_frame (order : Nat) (tile : Nat) (m : QMove) (s0 : State) (s : State) :
    OnlyChanges [.plays] s (noteStart order tile m s0 s) := by
  unfold noteStart
  split
  · rename_i v0 v1
    exact OnlyChanges.refl _ _
  · rename_i v2 v3 v4
    refine OnlyChanges.step ?_ (setPlay_frame _ _) (by decide)
    exact OnlyChanges.refl _ _

theorem applyStart_frame {l : List Part} {s t : State} {p : Play} {tile code pos : Nat} {m : QMove} {r : Start} (hs : OnlyChanges l s t)
    (hr : startAll (OnlyChanges l s) r) (hl : ∀ p ∈ ([.knots, .host, .xing, .plays, .store] : List Part), p ∈ l) :
    sndAll (OnlyChanges l s) (applyStart p tile code pos m r t) := by
  have note {u : State} (h : OnlyChanges l s u) : OnlyChanges l s (noteAll u) :=
    OnlyChanges.step h (noteAll_frame _) (fun p hp => hl p (by revert p; decide))
  have dests (d : List (Nat × Nat × Nat × Option Nat)) {u : State} (h : OnlyChanges l s u) : OnlyChanges l s (addDests p.order d u) :=
    OnlyChanges.step h (addDests_frame _ _ _) (fun p hp => hl p (by revert p; decide))
  have start (m' : QMove) {u : State} (h : OnlyChanges l s u) : OnlyChanges l s (noteStart p.order tile m' t u) :=
    OnlyChanges.step h (noteStart_frame _ _ _ _ _) (fun p hp => hl p (by revert p; decide))
  unfold applyStart
  cases r with
  | hold => exact hs
  | run m' u =>
    have h := OnlyChanges.step hr (putMove_frame p.order tile code pos m' u) (fun p hp => hl p (by revert p; decide))
    exact note (start _ (dests _ h))
  | done u =>
    have h := start m (OnlyChanges.step hr (dropMove_frame p.order tile code pos u) (fun p hp => hl p (by revert p; decide)))
    exact note (OnlyChanges.step h (makeTie_frame _ _ _ _) (fun p hp => hl p (by revert p; decide)))
  | fail st u => exact OnlyChanges.step (dests _ hr) (failPlay_frame _ _ _) (fun p hp => hl p (by revert p; decide))
  | fault c u => exact OnlyChanges.step (dests _ hr) (faultPlay_frame _ _ _ _) (fun p hp => hl p (by revert p; decide))

theorem pumpHead_frame (order : Nat) (tile : Nat) (code : Nat) (a : Nat) (a' : State) :
    OnlyChanges [.cap, .caches, .parts, .knots, .ports, .fields, .watch, .host, .xing, .ramp, .plays, .mesh, .exchanges, .freeCtr, .store, .rel,
        .mem, .near] a' (pumpHead order tile code a a') := by
  induction a generalizing order tile code a'
  · unfold pumpHead
    exact OnlyChanges.refl _ _
  · rename_i w0 ih
    unfold pumpHead
    split
    · rename_i v1 v2
      exact OnlyChanges.refl _ _
    · rename_i v3 v4 v5
      split
      · rename_i v6 v7
        exact OnlyChanges.refl _ _
      · rename_i v8 v9 v10
        split
        · rename_i v11 v12
          exact OnlyChanges.refl _ _
        · rename_i v13 v14 v15 v16
          refine OnlyChanges.ite ?_ ?_
          · exact OnlyChanges.refl _ _
          · extract_lets x17
            clear_value x17
            split
            · rename_i v18 v19 v20 v21
              refine absorb (P := sndAll (OnlyChanges [.cap, .caches, .parts, .knots, .ports, .fields, .watch, .host, .xing, .ramp, .plays, .mesh,
                  .exchanges, .freeCtr, .store, .rel, .mem, .near] a')) v21 ?_ (fun q22 => ?_)
              · refine applyStart_frame ?_ ?_ (by decide)
                · exact OnlyChanges.refl _ _
                · refine OnlyChanges.stepStart ?_ (startAny_frame _ _ _ _ _) (by decide)
                  exact OnlyChanges.refl _ _
              refine OnlyChanges.ite ?_ ?_
              · refine OnlyChanges.step ?_ (ih _ _ _ _) (by decide)
                assumption
              · assumption

theorem setSxt_frame (order : Nat) (tile : Nat) (x : Option MoveWord) (s : State) :
    OnlyChanges [.plays] s (setSxt order tile x s) := by
  unfold setSxt
  split
  · rename_i v0 v1
    exact OnlyChanges.refl _ _
  · rename_i v2 v3 v4
    refine OnlyChanges.step ?_ (setPlay_frame _ _) (by decide)
    exact OnlyChanges.refl _ _

theorem issueArr_frame (p : Play) (tile : Nat) (pos : Nat) (m : QMove) (q : TileQueue) (s : State) :
    sndAll (OnlyChanges [.knots, .host, .xing, .plays, .store] s) (issueArr p tile pos m q s) := by
  unfold issueArr
  extract_lets x0 x1 x2 x3
  have h4 : ∀ a5, sndAll (OnlyChanges [.knots, .host, .xing, .plays, .store] s) (x2 a5) := by
    intro b6
    unfold x2
    refine sndAll_mk ?_
    refine OnlyChanges.step ?_ (failPlay_frame _ _ _) (by decide)
    exact OnlyChanges.refl _ _
  have h7 : OnlyChanges [.knots, .host, .xing, .plays, .store] s x3 := by
    unfold x3
    refine OnlyChanges.step ?_ (putMove_frame _ _ _ _ _ _) (by decide)
    exact OnlyChanges.refl _ _
  clear_value x0 x1 x2 x3
  split
  · rename_i v8
    split
    · rename_i v9
      apply h4
    · rename_i v10
      split
      · rename_i v11
        apply h4
      · rename_i v12
        refine sndAll_mk ?_
        refine OnlyChanges.step ?_ (setSxt_frame _ _ _ _) (by decide)
        refine OnlyChanges.step ?_ (makeTie_frame _ _ _ _) (by decide)
        refine OnlyChanges.step ?_ (dropMove_frame _ _ _ _ _) (by decide)
        exact OnlyChanges.refl _ _
  · rename_i v13
    split
    · rename_i v14
      apply h4
    · rename_i v15
      refine sndAll_mk ?_
      refine OnlyChanges.ite ?_ ?_
      · refine OnlyChanges.step ?_ (setSxt_frame _ _ _ _) (by decide)
        assumption
      · assumption

theorem pumpArr_frame (order : Nat) (tile : Nat) (a : Nat) (a' : State) :
    OnlyChanges [.cap, .caches, .parts, .knots, .ports, .fields, .watch, .host, .xing, .ramp, .plays, .mesh, .exchanges, .freeCtr, .store, .rel,
        .mem, .near] a' (pumpArr order tile a a') := by
  induction a generalizing order tile a'
  · unfold pumpArr
    exact OnlyChanges.refl _ _
  · rename_i w0 ih
    unfold pumpArr
    split
    · rename_i v1 v2
      exact OnlyChanges.refl _ _
    · rename_i v3 v4 v5
      split
      · rename_i v6 v7
        exact OnlyChanges.refl _ _
      · rename_i v8 v9 v10
        split
        · rename_i v11 v12
          exact OnlyChanges.refl _ _
        · rename_i v13 v14 v15 v16
          refine OnlyChanges.ite ?_ ?_
          · exact OnlyChanges.refl _ _
          · split
            · rename_i v17 v18 v19 v20
              refine absorb (P := sndAll (OnlyChanges [.cap, .caches, .parts, .knots, .ports, .fields, .watch, .host, .xing, .ramp, .plays, .mesh,
                  .exchanges, .freeCtr, .store, .rel, .mem, .near] a')) v20 ?_ (fun q21 => ?_)
              · split
                · rename_i v22
                  refine applyStart_frame ?_ ?_ (by decide)
                  · exact OnlyChanges.refl _ _
                  · refine OnlyChanges.stepStart ?_ (startAny_frame _ _ _ _ _) (by decide)
                    exact OnlyChanges.refl _ _
                · rename_i v23
                  refine OnlyChanges.stepSnd ?_ (issueArr_frame _ _ _ _ _ _) (by decide)
                  exact OnlyChanges.refl _ _
              refine OnlyChanges.ite ?_ ?_
              · refine OnlyChanges.step ?_ (ih _ _ _) (by decide)
                assumption
              · assumption

theorem resumeArr_frame (order : Nat) (tile : Nat) (s : State) :
    OnlyChanges [.parts, .fields, .watch, .host, .xing, .ramp, .plays, .mesh, .freeCtr, .store, .mem, .near] s (resumeArr order tile s) := by
  unfold resumeArr
  split
  · rename_i v0 v1
    exact OnlyChanges.refl _ _
  · rename_i v2 v3 v4
    split
    · rename_i v5 v6
      exact OnlyChanges.refl _ _
    · rename_i v7 v8 v9 v10
      refine OnlyChanges.ite ?_ ?_
      · split
        · rename_i v11 v12 v13 v14
          refine absorb (P := sndAll (OnlyChanges [.parts, .fields, .watch, .host, .xing, .ramp, .plays, .mesh, .freeCtr, .store, .mem, .near] s))
              v14 ?_ (fun q15 => ?_)
          · refine OnlyChanges.stepSnd ?_ (streamGo_frame _ _ _) (by decide)
            exact OnlyChanges.refl _ _
          refine OnlyChanges.step ?_ (noteAll_frame _) (by decide)
          refine OnlyChanges.step ?_ (putMove_frame _ _ _ _ _ _) (by decide)
          assumption
      · exact OnlyChanges.refl _ _

theorem pump_frame (order : Nat) (tile : Nat) (code : Nat) (s : State) :
    OnlyChanges [.cap, .caches, .parts, .knots, .ports, .fields, .watch, .host, .xing, .ramp, .plays, .mesh, .exchanges, .freeCtr, .store, .rel,
        .mem, .near] s (pump order tile code s) := by
  unfold pump
  refine OnlyChanges.ite ?_ ?_
  · refine OnlyChanges.step ?_ (pumpArr_frame _ _ _ _) (by decide)
    refine OnlyChanges.step ?_ (resumeArr_frame _ _ _) (by decide)
    exact OnlyChanges.refl _ _
  · refine OnlyChanges.step ?_ (pumpHead_frame _ _ _ _ _) (by decide)
    exact OnlyChanges.refl _ _

theorem pumpAll_frame (s : State) :
    OnlyChanges [.cap, .caches, .parts, .knots, .ports, .fields, .watch, .host, .xing, .ramp, .plays, .mesh, .exchanges, .freeCtr, .store, .rel,
        .mem, .near] s (pumpAll s) := by
  unfold pumpAll
  refine OnlyChanges.fold ?_ (fun u0 y1 h2 => ?_)
  · exact OnlyChanges.refl _ _
  · refine OnlyChanges.fold ?_ (fun u3 y4 h5 => ?_)
    · assumption
    · refine OnlyChanges.ite ?_ ?_
      · assumption
      · refine OnlyChanges.step ?_ (pump_frame _ _ _ _) (by decide)
        assumption

theorem fetchMove_frame (p : Play) (q : Sequencer) (s : State) :
    fetchAll (OnlyChanges [.caches, .host, .xing, .store] s) (fetchMove p q s) := by
  unfold fetchMove
  extract_lets x0 x1 x2 x3
  clear_value x0 x1 x2 x3
  split
  · rename_i v4 v5 v6 v7
    refine absorb (P := optSndAll (OnlyChanges [.caches, .host, .xing, .store] s)) v7 ?_ (fun q8 => ?_)
    · refine OnlyChanges.stepOptSnd ?_ (cacheRead_frame _ _ _) (by decide)
      exact OnlyChanges.refl _ _
    change OnlyChanges [.caches, .host, .xing, .store] s _
    assumption
  · rename_i v9 v10
    refine absorb (P := optSndAll (OnlyChanges [.caches, .host, .xing, .store] s)) v10 ?_ (fun q11 => ?_)
    · refine OnlyChanges.stepOptSnd ?_ (cacheRead_frame _ _ _) (by decide)
      exact OnlyChanges.refl _ _
    split
    · rename_i v12
      change OnlyChanges [.caches, .host, .xing, .store] s _
      exact OnlyChanges.refl _ _
    · rename_i v13
      split
      · rename_i v14
        trivial
      · rename_i v15
        split
        · rename_i v16
          trivial
        · rename_i v17
          split
          · rename_i v18
            change OnlyChanges [.caches, .host, .xing, .store] s _
            refine OnlyChanges.step ?_ (granuleFault_frame _ _ _ _ _) (by decide)
            refine OnlyChanges.step ?_ (retiredRead_frame _ _ _) (by decide)
            exact OnlyChanges.refl _ _
          · rename_i v19
            change OnlyChanges [.caches, .host, .xing, .store] s _
            refine OnlyChanges.step ?_ (cacheFill_frame _ _ _ _) (by decide)
            exact OnlyChanges.refl _ _

theorem stepSeq_frame (order : Nat) (tile : Nat) (s : State) :
    OnlyChanges [.plays] s (stepSeq order tile s) := by
  unfold stepSeq
  split
  · rename_i v0 v1
    exact OnlyChanges.refl _ _
  · rename_i v2 v3 v4
    refine OnlyChanges.step ?_ (setPlay_frame _ _) (by decide)
    exact OnlyChanges.refl _ _

theorem enqueue_frame (p : Play) (tile : Nat) (code : Nat) (m : QMove) (s : State) :
    OnlyChanges [.cap, .caches, .parts, .knots, .ports, .fields, .watch, .host, .xing, .ramp, .plays, .mesh, .exchanges, .freeCtr, .store, .rel,
        .mem, .near] s (enqueue p tile code m s) := by
  unfold enqueue
  refine OnlyChanges.step ?_ (pump_frame _ _ _ _) (by decide)
  refine OnlyChanges.step ?_ (modQueue_frame _ _ _ _ _) (by decide)
  refine OnlyChanges.step ?_ (stepSeq_frame _ _ _) (by decide)
  exact OnlyChanges.refl _ _

theorem seqMove_frame (p : Play) (tile : Nat) (m : QMove) (s : State) :
    OnlyChanges [.knots, .host, .xing, .plays, .store] s (seqMove p tile m s) := by
  unfold seqMove
  extract_lets x0 x1
  have h2 : OnlyChanges [.knots, .host, .xing, .plays, .store] s x1 := by
    unfold x1
    refine OnlyChanges.step ?_ (stepSeq_frame _ _ _) (by decide)
    exact OnlyChanges.refl _ _
  clear_value x0 x1
  split
  · rename_i v3 v4
    refine OnlyChanges.step ?_ (makeTie_frame _ _ _ _) (by decide)
    assumption
  · rename_i v5 v6
    refine OnlyChanges.ite ?_ ?_
    · exact OnlyChanges.refl _ _
    · refine OnlyChanges.ite ?_ ?_
      · refine OnlyChanges.step ?_ (failPlay_frame _ _ _) (by decide)
        exact OnlyChanges.refl _ _
      · split
        · rename_i v7 v8 v9
          refine OnlyChanges.step ?_ (makeTie_frame _ _ _ _) (by decide)
          refine OnlyChanges.step ?_ (setPlay_frame _ _) (by decide)
          assumption
        · rename_i v10 v11
          assumption
  · rename_i v12 v13
    refine OnlyChanges.ite ?_ ?_
    · refine OnlyChanges.step ?_ (makeTie_frame _ _ _ _) (by decide)
      assumption
    · refine OnlyChanges.step ?_ (modQueue_frame _ _ _ _ _) (by decide)
      assumption
  · rename_i v14 v15 v16 v17
    refine OnlyChanges.ite ?_ ?_
    · refine OnlyChanges.step ?_ (failPlay_frame _ _ _) (by decide)
      exact OnlyChanges.refl _ _
    · split
      · rename_i v18 v19 v20
        refine OnlyChanges.step ?_ (makeTie_frame _ _ _ _) (by decide)
        refine OnlyChanges.step ?_ (setPlay_frame _ _) (by decide)
        assumption
      · rename_i v21 v22
        assumption

theorem dispatchRow_frame (op : Nat) (tile : Nat) (f : MoveFault) (s0 : State) :
    OnlyChanges [.cap, .caches, .parts, .knots, .ports, .fields, .watch, .host, .xing, .ramp, .plays, .mesh, .exchanges, .freeCtr, .store, .rel,
        .mem, .near] s0 (dispatchRow op tile f s0) := by
  unfold dispatchRow
  split
  · rename_i v0 v1
    exact OnlyChanges.refl _ _
  · rename_i v2 v3 v4 v5
    extract_lets x6 x7
    have h8 : ∀ a9 a10 a11, OnlyChanges [.cap, .caches, .parts, .knots, .ports, .fields, .watch, .host, .xing, .ramp, .plays, .mesh, .exchanges,
        .freeCtr, .store, .rel, .mem, .near] s0 a11 → OnlyChanges [.cap, .caches, .parts, .knots, .ports, .fields, .watch, .host, .xing, .ramp,
        .plays, .mesh, .exchanges, .freeCtr, .store, .rel, .mem, .near] s0 (x6 a9 a10 a11) := by
      intro b12 b13 b14 k15
      unfold x6
      refine OnlyChanges.step ?_ (failPlay_frame _ _ _) (by decide)
      assumption
    clear_value x6 x7
    split
    · rename_i v16 v17 v18 v19
      refine absorb (P := fetchAll (OnlyChanges [.cap, .caches, .parts, .knots, .ports, .fields, .watch, .host, .xing, .ramp, .plays, .mesh,
          .exchanges, .freeCtr, .store, .rel, .mem, .near] s0)) v19 ?_ (fun q20 => ?_)
      · refine OnlyChanges.stepFetch ?_ (fetchMove_frame _ _ _) (by decide)
        exact OnlyChanges.refl _ _
      apply h8
      · assumption
    · rename_i v21 v22 v23
      refine absorb (P := fetchAll (OnlyChanges [.cap, .caches, .parts, .knots, .ports, .fields, .watch, .host, .xing, .ramp, .plays, .mesh,
          .exchanges, .freeCtr, .store, .rel, .mem, .near] s0)) v23 ?_ (fun q24 => ?_)
      · refine OnlyChanges.stepFetch ?_ (fetchMove_frame _ _ _) (by decide)
        exact OnlyChanges.refl _ _
      refine OnlyChanges.step ?_ (faultPlay_frame _ _ _ _) (by decide)
      assumption
    · rename_i v25 v26
      refine absorb (P := fetchAll (OnlyChanges [.cap, .caches, .parts, .knots, .ports, .fields, .watch, .host, .xing, .ramp, .plays, .mesh,
          .exchanges, .freeCtr, .store, .rel, .mem, .near] s0)) v26 ?_ (fun q27 => ?_)
      · refine OnlyChanges.stepFetch ?_ (fetchMove_frame _ _ _) (by decide)
        exact OnlyChanges.refl _ _
      exact OnlyChanges.refl _ _
    · rename_i v28 v29
      refine absorb (P := fetchAll (OnlyChanges [.cap, .caches, .parts, .knots, .ports, .fields, .watch, .host, .xing, .ramp, .plays, .mesh,
          .exchanges, .freeCtr, .store, .rel, .mem, .near] s0)) v29 ?_ (fun q30 => ?_)
      · refine OnlyChanges.stepFetch ?_ (fetchMove_frame _ _ _) (by decide)
        exact OnlyChanges.refl _ _
      refine OnlyChanges.step ?_ (faultPlay_frame _ _ _ _) (by decide)
      exact OnlyChanges.refl _ _
    · rename_i v31 v32 v33 v34
      refine absorb (P := fetchAll (OnlyChanges [.cap, .caches, .parts, .knots, .ports, .fields, .watch, .host, .xing, .ramp, .plays, .mesh,
          .exchanges, .freeCtr, .store, .rel, .mem, .near] s0)) v34 ?_ (fun q35 => ?_)
      · refine OnlyChanges.stepFetch ?_ (fetchMove_frame _ _ _) (by decide)
        exact OnlyChanges.refl _ _
      extract_lets x36 x37
      clear_value x36 x37
      refine OnlyChanges.ite ?_ ?_
      · apply h8
        · assumption
      · refine OnlyChanges.ite ?_ ?_
        · exact OnlyChanges.refl _ _
        · refine OnlyChanges.ite ?_ ?_
          · apply h8
            · assumption
          · split
            · rename_i v38 v39
              apply h8
              · assumption
            · rename_i v40 v41 v42
              refine OnlyChanges.ite ?_ ?_
              · apply h8
                · assumption
              · refine OnlyChanges.ite ?_ ?_
                · refine OnlyChanges.ite ?_ ?_
                  · refine OnlyChanges.step ?_ (seqMove_frame _ _ _ _) (by decide)
                    assumption
                  · apply h8
                    · assumption
                · refine OnlyChanges.ite ?_ ?_
                  · exact OnlyChanges.refl _ _
                  · refine OnlyChanges.step ?_ (enqueue_frame _ _ _ _ _) (by decide)
                    assumption

theorem execMoveNop_frame (tile : Nat) (s : State) :
    outAll (OnlyChanges [.cap, .caches, .parts, .knots, .ports, .fields, .watch, .host, .xing, .ramp, .plays, .mesh, .exchanges, .freeCtr, .store,
        .rel, .mem, .near] s) (execMoveNop tile s) := by
  unfold execMoveNop
  change OnlyChanges [.cap, .caches, .parts, .knots, .ports, .fields, .watch, .host, .xing, .ramp, .plays, .mesh, .exchanges, .freeCtr, .store,
      .rel, .mem, .near] s _
  refine OnlyChanges.step ?_ (dispatchRow_frame _ _ _ _) (by decide)
  exact OnlyChanges.refl _ _

theorem execEndMove_frame (tile : Nat) (s : State) :
    outAll (OnlyChanges [.cap, .caches, .parts, .knots, .ports, .fields, .watch, .host, .xing, .ramp, .plays, .mesh, .exchanges, .freeCtr, .store,
        .rel, .mem, .near] s) (execEndMove tile s) := by
  unfold execEndMove
  change OnlyChanges [.cap, .caches, .parts, .knots, .ports, .fields, .watch, .host, .xing, .ramp, .plays, .mesh, .exchanges, .freeCtr, .store,
      .rel, .mem, .near] s _
  refine OnlyChanges.step ?_ (dispatchRow_frame _ _ _ _) (by decide)
  exact OnlyChanges.refl _ _

theorem execFireat_frame (tile : Nat) (s : State) :
    outAll (OnlyChanges [.cap, .caches, .parts, .knots, .ports, .fields, .watch, .host, .xing, .ramp, .plays, .mesh, .exchanges, .freeCtr, .store,
        .rel, .mem, .near] s) (execFireat tile s) := by
  unfold execFireat
  change OnlyChanges [.cap, .caches, .parts, .knots, .ports, .fields, .watch, .host, .xing, .ramp, .plays, .mesh, .exchanges, .freeCtr, .store,
      .rel, .mem, .near] s _
  refine OnlyChanges.step ?_ (dispatchRow_frame _ _ _ _) (by decide)
  exact OnlyChanges.refl _ _

theorem execTie_frame (tile : Nat) (s : State) :
    outAll (OnlyChanges [.cap, .caches, .parts, .knots, .ports, .fields, .watch, .host, .xing, .ramp, .plays, .mesh, .exchanges, .freeCtr, .store,
        .rel, .mem, .near] s) (execTie tile s) := by
  unfold execTie
  change OnlyChanges [.cap, .caches, .parts, .knots, .ports, .fields, .watch, .host, .xing, .ramp, .plays, .mesh, .exchanges, .freeCtr, .store,
      .rel, .mem, .near] s _
  refine OnlyChanges.step ?_ (dispatchRow_frame _ _ _ _) (by decide)
  exact OnlyChanges.refl _ _

theorem execWait_frame (tile : Nat) (s : State) :
    outAll (OnlyChanges [.cap, .caches, .parts, .knots, .ports, .fields, .watch, .host, .xing, .ramp, .plays, .mesh, .exchanges, .freeCtr, .store,
        .rel, .mem, .near] s) (execWait tile s) := by
  unfold execWait
  change OnlyChanges [.cap, .caches, .parts, .knots, .ports, .fields, .watch, .host, .xing, .ramp, .plays, .mesh, .exchanges, .freeCtr, .store,
      .rel, .mem, .near] s _
  refine OnlyChanges.step ?_ (dispatchRow_frame _ _ _ _) (by decide)
  exact OnlyChanges.refl _ _

theorem execKset_frame (tile : Nat) (s : State) :
    outAll (OnlyChanges [.cap, .caches, .parts, .knots, .ports, .fields, .watch, .host, .xing, .ramp, .plays, .mesh, .exchanges, .freeCtr, .store,
        .rel, .mem, .near] s) (execKset tile s) := by
  unfold execKset
  change OnlyChanges [.cap, .caches, .parts, .knots, .ports, .fields, .watch, .host, .xing, .ramp, .plays, .mesh, .exchanges, .freeCtr, .store,
      .rel, .mem, .near] s _
  refine OnlyChanges.step ?_ (dispatchRow_frame _ _ _ _) (by decide)
  exact OnlyChanges.refl _ _

theorem execPartMove_frame (tile : Nat) (s : State) :
    outAll (OnlyChanges [.cap, .caches, .parts, .knots, .ports, .fields, .watch, .host, .xing, .ramp, .plays, .mesh, .exchanges, .freeCtr, .store,
        .rel, .mem, .near] s) (execPartMove tile s) := by
  unfold execPartMove
  change OnlyChanges [.cap, .caches, .parts, .knots, .ports, .fields, .watch, .host, .xing, .ramp, .plays, .mesh, .exchanges, .freeCtr, .store,
      .rel, .mem, .near] s _
  refine OnlyChanges.step ?_ (dispatchRow_frame _ _ _ _) (by decide)
  exact OnlyChanges.refl _ _

theorem execIframe_frame (tile : Nat) (s : State) :
    outAll (OnlyChanges [.cap, .caches, .parts, .knots, .ports, .fields, .watch, .host, .xing, .ramp, .plays, .mesh, .exchanges, .freeCtr, .store,
        .rel, .mem, .near] s) (execIframe tile s) := by
  unfold execIframe
  change OnlyChanges [.cap, .caches, .parts, .knots, .ports, .fields, .watch, .host, .xing, .ramp, .plays, .mesh, .exchanges, .freeCtr, .store,
      .rel, .mem, .near] s _
  refine OnlyChanges.step ?_ (dispatchRow_frame _ _ _ _) (by decide)
  exact OnlyChanges.refl _ _

theorem execLoadw_frame (tile : Nat) (s : State) :
    outAll (OnlyChanges [.cap, .caches, .parts, .knots, .ports, .fields, .watch, .host, .xing, .ramp, .plays, .mesh, .exchanges, .freeCtr, .store,
        .rel, .mem, .near] s) (execLoadw tile s) := by
  unfold execLoadw
  change OnlyChanges [.cap, .caches, .parts, .knots, .ports, .fields, .watch, .host, .xing, .ramp, .plays, .mesh, .exchanges, .freeCtr, .store,
      .rel, .mem, .near] s _
  refine OnlyChanges.step ?_ (dispatchRow_frame _ _ _ _) (by decide)
  exact OnlyChanges.refl _ _

theorem execSwapw_frame (tile : Nat) (s : State) :
    outAll (OnlyChanges [.cap, .caches, .parts, .knots, .ports, .fields, .watch, .host, .xing, .ramp, .plays, .mesh, .exchanges, .freeCtr, .store,
        .rel, .mem, .near] s) (execSwapw tile s) := by
  unfold execSwapw
  change OnlyChanges [.cap, .caches, .parts, .knots, .ports, .fields, .watch, .host, .xing, .ramp, .plays, .mesh, .exchanges, .freeCtr, .store,
      .rel, .mem, .near] s _
  refine OnlyChanges.step ?_ (dispatchRow_frame _ _ _ _) (by decide)
  exact OnlyChanges.refl _ _

theorem execStream_frame (tile : Nat) (f : MoveFault) (s : State) :
    outAll (OnlyChanges [.cap, .caches, .parts, .knots, .ports, .fields, .watch, .host, .xing, .ramp, .plays, .mesh, .exchanges, .freeCtr, .store,
        .rel, .mem, .near] s) (execStream tile f s) := by
  unfold execStream
  change OnlyChanges [.cap, .caches, .parts, .knots, .ports, .fields, .watch, .host, .xing, .ramp, .plays, .mesh, .exchanges, .freeCtr, .store,
      .rel, .mem, .near] s _
  refine OnlyChanges.step ?_ (dispatchRow_frame _ _ _ _) (by decide)
  exact OnlyChanges.refl _ _

theorem execSxt_frame (tile : Nat) (s : State) :
    outAll (OnlyChanges [.cap, .caches, .parts, .knots, .ports, .fields, .watch, .host, .xing, .ramp, .plays, .mesh, .exchanges, .freeCtr, .store,
        .rel, .mem, .near] s) (execSxt tile s) := by
  unfold execSxt
  change OnlyChanges [.cap, .caches, .parts, .knots, .ports, .fields, .watch, .host, .xing, .ramp, .plays, .mesh, .exchanges, .freeCtr, .store,
      .rel, .mem, .near] s _
  refine OnlyChanges.step ?_ (dispatchRow_frame _ _ _ _) (by decide)
  exact OnlyChanges.refl _ _

theorem execElem_frame (tile : Nat) (l : LaneFault) (s : State) :
    outAll (OnlyChanges [.cap, .caches, .parts, .knots, .ports, .fields, .watch, .host, .xing, .ramp, .plays, .mesh, .exchanges, .freeCtr, .store,
        .rel, .mem, .near] s) (execElem tile l s) := by
  unfold execElem
  change OnlyChanges [.cap, .caches, .parts, .knots, .ports, .fields, .watch, .host, .xing, .ramp, .plays, .mesh, .exchanges, .freeCtr, .store,
      .rel, .mem, .near] s _
  refine OnlyChanges.step ?_ (dispatchRow_frame _ _ _ _) (by decide)
  exact OnlyChanges.refl _ _

theorem execReduce_frame (tile : Nat) (l : LaneFault) (s : State) :
    outAll (OnlyChanges [.cap, .caches, .parts, .knots, .ports, .fields, .watch, .host, .xing, .ramp, .plays, .mesh, .exchanges, .freeCtr, .store,
        .rel, .mem, .near] s) (execReduce tile l s) := by
  unfold execReduce
  change OnlyChanges [.cap, .caches, .parts, .knots, .ports, .fields, .watch, .host, .xing, .ramp, .plays, .mesh, .exchanges, .freeCtr, .store,
      .rel, .mem, .near] s _
  refine OnlyChanges.step ?_ (dispatchRow_frame _ _ _ _) (by decide)
  exact OnlyChanges.refl _ _

theorem execSmxb_frame (tile : Nat) (l : LaneFault) (s : State) :
    outAll (OnlyChanges [.cap, .caches, .parts, .knots, .ports, .fields, .watch, .host, .xing, .ramp, .plays, .mesh, .exchanges, .freeCtr, .store,
        .rel, .mem, .near] s) (execSmxb tile l s) := by
  unfold execSmxb
  change OnlyChanges [.cap, .caches, .parts, .knots, .ports, .fields, .watch, .host, .xing, .ramp, .plays, .mesh, .exchanges, .freeCtr, .store,
      .rel, .mem, .near] s _
  refine OnlyChanges.step ?_ (dispatchRow_frame _ _ _ _) (by decide)
  exact OnlyChanges.refl _ _

theorem execNrmb_frame (tile : Nat) (l : LaneFault) (s : State) :
    outAll (OnlyChanges [.cap, .caches, .parts, .knots, .ports, .fields, .watch, .host, .xing, .ramp, .plays, .mesh, .exchanges, .freeCtr, .store,
        .rel, .mem, .near] s) (execNrmb tile l s) := by
  unfold execNrmb
  change OnlyChanges [.cap, .caches, .parts, .knots, .ports, .fields, .watch, .host, .xing, .ramp, .plays, .mesh, .exchanges, .freeCtr, .store,
      .rel, .mem, .near] s _
  refine OnlyChanges.step ?_ (dispatchRow_frame _ _ _ _) (by decide)
  exact OnlyChanges.refl _ _

theorem execTopk_frame (tile : Nat) (l : LaneFault) (s : State) :
    outAll (OnlyChanges [.cap, .caches, .parts, .knots, .ports, .fields, .watch, .host, .xing, .ramp, .plays, .mesh, .exchanges, .freeCtr, .store,
        .rel, .mem, .near] s) (execTopk tile l s) := by
  unfold execTopk
  change OnlyChanges [.cap, .caches, .parts, .knots, .ports, .fields, .watch, .host, .xing, .ramp, .plays, .mesh, .exchanges, .freeCtr, .store,
      .rel, .mem, .near] s _
  refine OnlyChanges.step ?_ (dispatchRow_frame _ _ _ _) (by decide)
  exact OnlyChanges.refl _ _

theorem execGather_frame (tile : Nat) (s : State) :
    outAll (OnlyChanges [.cap, .caches, .parts, .knots, .ports, .fields, .watch, .host, .xing, .ramp, .plays, .mesh, .exchanges, .freeCtr, .store,
        .rel, .mem, .near] s) (execGather tile s) := by
  unfold execGather
  change OnlyChanges [.cap, .caches, .parts, .knots, .ports, .fields, .watch, .host, .xing, .ramp, .plays, .mesh, .exchanges, .freeCtr, .store,
      .rel, .mem, .near] s _
  refine OnlyChanges.step ?_ (dispatchRow_frame _ _ _ _) (by decide)
  exact OnlyChanges.refl _ _

theorem execScatter_frame (tile : Nat) (s : State) :
    outAll (OnlyChanges [.cap, .caches, .parts, .knots, .ports, .fields, .watch, .host, .xing, .ramp, .plays, .mesh, .exchanges, .freeCtr, .store,
        .rel, .mem, .near] s) (execScatter tile s) := by
  unfold execScatter
  change OnlyChanges [.cap, .caches, .parts, .knots, .ports, .fields, .watch, .host, .xing, .ramp, .plays, .mesh, .exchanges, .freeCtr, .store,
      .rel, .mem, .near] s _
  refine OnlyChanges.step ?_ (dispatchRow_frame _ _ _ _) (by decide)
  exact OnlyChanges.refl _ _

theorem execScatterAdd_frame (tile : Nat) (l : LaneFault) (s : State) :
    outAll (OnlyChanges [.cap, .caches, .parts, .knots, .ports, .fields, .watch, .host, .xing, .ramp, .plays, .mesh, .exchanges, .freeCtr, .store,
        .rel, .mem, .near] s) (execScatterAdd tile l s) := by
  unfold execScatterAdd
  change OnlyChanges [.cap, .caches, .parts, .knots, .ports, .fields, .watch, .host, .xing, .ramp, .plays, .mesh, .exchanges, .freeCtr, .store,
      .rel, .mem, .near] s _
  refine OnlyChanges.step ?_ (dispatchRow_frame _ _ _ _) (by decide)
  exact OnlyChanges.refl _ _

theorem execPack_frame (tile : Nat) (l : LaneFault) (s : State) :
    outAll (OnlyChanges [.cap, .caches, .parts, .knots, .ports, .fields, .watch, .host, .xing, .ramp, .plays, .mesh, .exchanges, .freeCtr, .store,
        .rel, .mem, .near] s) (execPack tile l s) := by
  unfold execPack
  change OnlyChanges [.cap, .caches, .parts, .knots, .ports, .fields, .watch, .host, .xing, .ramp, .plays, .mesh, .exchanges, .freeCtr, .store,
      .rel, .mem, .near] s _
  refine OnlyChanges.step ?_ (dispatchRow_frame _ _ _ _) (by decide)
  exact OnlyChanges.refl _ _

theorem execAmaxt_frame (tile : Nat) (l : LaneFault) (s : State) :
    outAll (OnlyChanges [.cap, .caches, .parts, .knots, .ports, .fields, .watch, .host, .xing, .ramp, .plays, .mesh, .exchanges, .freeCtr, .store,
        .rel, .mem, .near] s) (execAmaxt tile l s) := by
  unfold execAmaxt
  change OnlyChanges [.cap, .caches, .parts, .knots, .ports, .fields, .watch, .host, .xing, .ramp, .plays, .mesh, .exchanges, .freeCtr, .store,
      .rel, .mem, .near] s _
  refine OnlyChanges.step ?_ (dispatchRow_frame _ _ _ _) (by decide)
  exact OnlyChanges.refl _ _

theorem execMove_frame (tile : Nat) (f : MoveFault) (s : State) :
    outAll (OnlyChanges [.cap, .caches, .parts, .knots, .ports, .fields, .watch, .host, .xing, .ramp, .plays, .mesh, .exchanges, .freeCtr, .store,
        .rel, .mem, .near] s) (execMove tile f s) := by
  unfold execMove
  change OnlyChanges [.cap, .caches, .parts, .knots, .ports, .fields, .watch, .host, .xing, .ramp, .plays, .mesh, .exchanges, .freeCtr, .store,
      .rel, .mem, .near] s _
  refine OnlyChanges.step ?_ (dispatchRow_frame _ _ _ _) (by decide)
  exact OnlyChanges.refl _ _

theorem execInval_frame (tile : Nat) (s : State) :
    outAll (OnlyChanges [.cap, .caches, .parts, .knots, .ports, .fields, .watch, .host, .xing, .ramp, .plays, .mesh, .exchanges, .freeCtr, .store,
        .rel, .mem, .near] s) (execInval tile s) := by
  unfold execInval
  change OnlyChanges [.cap, .caches, .parts, .knots, .ports, .fields, .watch, .host, .xing, .ramp, .plays, .mesh, .exchanges, .freeCtr, .store,
      .rel, .mem, .near] s _
  refine OnlyChanges.step ?_ (dispatchRow_frame _ _ _ _) (by decide)
  exact OnlyChanges.refl _ _

theorem execDispatch_frame (tile : Nat) (s : State) :
    outAll (OnlyChanges [.cap, .caches, .parts, .knots, .ports, .fields, .watch, .host, .xing, .ramp, .plays, .mesh, .exchanges, .freeCtr, .store,
        .rel, .mem, .near] s) (execDispatch tile s) := by
  unfold execDispatch
  change OnlyChanges [.cap, .caches, .parts, .knots, .ports, .fields, .watch, .host, .xing, .ramp, .plays, .mesh, .exchanges, .freeCtr, .store,
      .rel, .mem, .near] s _
  refine OnlyChanges.step ?_ (dispatchRow_frame _ _ _ _) (by decide)
  exact OnlyChanges.refl _ _

theorem execCombine_frame (tile : Nat) (s : State) :
    outAll (OnlyChanges [.cap, .caches, .parts, .knots, .ports, .fields, .watch, .host, .xing, .ramp, .plays, .mesh, .exchanges, .freeCtr, .store,
        .rel, .mem, .near] s) (execCombine tile s) := by
  unfold execCombine
  change OnlyChanges [.cap, .caches, .parts, .knots, .ports, .fields, .watch, .host, .xing, .ramp, .plays, .mesh, .exchanges, .freeCtr, .store,
      .rel, .mem, .near] s _
  refine OnlyChanges.step ?_ (dispatchRow_frame _ _ _ _) (by decide)
  exact OnlyChanges.refl _ _

theorem wrapUp_frame (p : Play) (tile : Nat) (code : Nat) (pos : Nat) (m : QMove) (s : State) :
    OnlyChanges [.caches, .parts, .host, .freeCtr, .mem] s (wrapUp p tile code pos m s) := by
  unfold wrapUp
  split
  · rename_i v0 v1
    refine OnlyChanges.step ?_ (settleMove_frame _ _ _) (by decide)
    exact OnlyChanges.refl _ _
  · rename_i v2 v3
    refine OnlyChanges.ite ?_ ?_
    · exact OnlyChanges.refl _ _
    · split
      · rename_i v4 v5 v6
        refine OnlyChanges.step ?_ (setPart_frame _ _) (by decide)
        exact OnlyChanges.refl _ _
      · rename_i v7 v8
        exact OnlyChanges.refl _ _
  · rename_i v9 v10 v11
    exact OnlyChanges.refl _ _

theorem completeMove_frame (p : Play) (tile : Nat) (code : Nat) (pos : Nat) (m : QMove) (s : State) :
    OnlyChanges [.cap, .caches, .parts, .knots, .ports, .fields, .watch, .host, .xing, .ramp, .plays, .mesh, .exchanges, .freeCtr, .store, .rel,
        .mem, .near] s (completeMove p tile code pos m s) := by
  unfold completeMove
  refine OnlyChanges.step ?_ (pump_frame _ _ _ _) (by decide)
  refine OnlyChanges.step ?_ (makeTie_frame _ _ _ _) (by decide)
  refine OnlyChanges.step ?_ (dropMove_frame _ _ _ _ _) (by decide)
  refine OnlyChanges.step ?_ (wrapUp_frame _ _ _ _ _ _) (by decide)
  exact OnlyChanges.refl _ _

theorem finishMove_frame (p : Play) (tile : Nat) (code : Nat) (pos : Nat) (m : QMove) (s : State) :
    OnlyChanges [.cap, .caches, .parts, .knots, .ports, .fields, .watch, .host, .xing, .ramp, .plays, .mesh, .exchanges, .freeCtr, .store, .rel,
        .mem, .near] s (finishMove p tile code pos m s) := by
  unfold finishMove
  split
  · rename_i v0 v1 v2
    refine OnlyChanges.step ?_ (failPlay_frame _ _ _) (by decide)
    refine OnlyChanges.step ?_ (dropMove_frame _ _ _ _ _) (by decide)
    refine OnlyChanges.step ?_ (hostFault_frame _ _ _ _) (by decide)
    exact OnlyChanges.refl _ _
  · rename_i v3 v4
    refine OnlyChanges.step ?_ (completeMove_frame _ _ _ _ _ _) (by decide)
    exact OnlyChanges.refl _ _

theorem execMoveCompletion_frame (tile : Nat) (code : Nat) (pos : Nat) (s : State) :
    outAll (OnlyChanges [.cap, .caches, .parts, .knots, .ports, .fields, .watch, .host, .xing, .ramp, .plays, .mesh, .exchanges, .freeCtr, .store,
        .rel, .mem, .near] s) (execMoveCompletion tile code pos s) := by
  unfold execMoveCompletion
  split
  · rename_i v0 v1
    change OnlyChanges [.cap, .caches, .parts, .knots, .ports, .fields, .watch, .host, .xing, .ramp, .plays, .mesh, .exchanges, .freeCtr, .store,
        .rel, .mem, .near] s _
    exact OnlyChanges.refl _ _
  · rename_i v2 v3 v4
    split
    · rename_i v5 v6
      change OnlyChanges [.cap, .caches, .parts, .knots, .ports, .fields, .watch, .host, .xing, .ramp, .plays, .mesh, .exchanges, .freeCtr, .store,
          .rel, .mem, .near] s _
      exact OnlyChanges.refl _ _
    · rename_i v7 v8 v9
      split
      · rename_i v10 v11
        change OnlyChanges [.cap, .caches, .parts, .knots, .ports, .fields, .watch, .host, .xing, .ramp, .plays, .mesh, .exchanges, .freeCtr,
            .store, .rel, .mem, .near] s _
        exact OnlyChanges.refl _ _
      · rename_i v12 v13 v14
        split
        · rename_i v15
          change OnlyChanges [.cap, .caches, .parts, .knots, .ports, .fields, .watch, .host, .xing, .ramp, .plays, .mesh, .exchanges, .freeCtr,
              .store, .rel, .mem, .near] s _
          refine OnlyChanges.step ?_ (finishMove_frame _ _ _ _ _ _) (by decide)
          exact OnlyChanges.refl _ _
        · rename_i v16
          change OnlyChanges [.cap, .caches, .parts, .knots, .ports, .fields, .watch, .host, .xing, .ramp, .plays, .mesh, .exchanges, .freeCtr,
              .store, .rel, .mem, .near] s _
          exact OnlyChanges.refl _ _

theorem execFireatRelease_frame (tile : Nat) (s : State) :
    outAll (OnlyChanges [.cap, .caches, .parts, .knots, .ports, .fields, .watch, .host, .xing, .ramp, .plays, .mesh, .exchanges, .freeCtr, .store,
        .cad, .rel, .mem, .near] s) (execFireatRelease tile s) := by
  unfold execFireatRelease
  split
  · rename_i v0 v1
    change OnlyChanges [.cap, .caches, .parts, .knots, .ports, .fields, .watch, .host, .xing, .ramp, .plays, .mesh, .exchanges, .freeCtr, .store,
        .cad, .rel, .mem, .near] s _
    exact OnlyChanges.refl _ _
  · rename_i v2 v3 v4
    split
    · rename_i v5 v6 v7 v8 v9 v10 v11
      split
      · rename_i v12 v13 v14 v15 v16
        refine absorb (P := optAll (OnlyChanges [.cap, .caches, .parts, .knots, .ports, .fields, .watch, .host, .xing, .ramp, .plays, .mesh,
            .exchanges, .freeCtr, .store, .cad, .rel, .mem, .near] s)) v16 ?_ (fun q17 => ?_)
        · refine OnlyChanges.stepOpt ?_ (timeTo_frame _ _) (by decide)
          exact OnlyChanges.refl _ _
        split
        · rename_i v18
          change OnlyChanges [.cap, .caches, .parts, .knots, .ports, .fields, .watch, .host, .xing, .ramp, .plays, .mesh, .exchanges, .freeCtr,
              .store, .cad, .rel, .mem, .near] s _
          refine OnlyChanges.step ?_ (completeMove_frame _ _ _ _ _ _) (by decide)
          assumption
        · rename_i v19
          change OnlyChanges [.cap, .caches, .parts, .knots, .ports, .fields, .watch, .host, .xing, .ramp, .plays, .mesh, .exchanges, .freeCtr,
              .store, .cad, .rel, .mem, .near] s _
          exact OnlyChanges.refl _ _
      · rename_i v20 v21 v22
        change OnlyChanges [.cap, .caches, .parts, .knots, .ports, .fields, .watch, .host, .xing, .ramp, .plays, .mesh, .exchanges, .freeCtr,
            .store, .cad, .rel, .mem, .near] s _
        exact OnlyChanges.refl _ _
    · rename_i v23 v24
      change OnlyChanges [.cap, .caches, .parts, .knots, .ports, .fields, .watch, .host, .xing, .ramp, .plays, .mesh, .exchanges, .freeCtr, .store,
          .cad, .rel, .mem, .near] s _
      exact OnlyChanges.refl _ _

theorem execWaitSatisfied_frame (tile : Nat) (code : Nat) (s : State) :
    outAll (OnlyChanges [.cap, .caches, .parts, .knots, .ports, .fields, .watch, .host, .xing, .ramp, .plays, .mesh, .exchanges, .freeCtr, .store,
        .rel, .mem, .near] s) (execWaitSatisfied tile code s) := by
  unfold execWaitSatisfied
  split
  · rename_i v0 v1
    change OnlyChanges [.cap, .caches, .parts, .knots, .ports, .fields, .watch, .host, .xing, .ramp, .plays, .mesh, .exchanges, .freeCtr, .store,
        .rel, .mem, .near] s _
    exact OnlyChanges.refl _ _
  · rename_i v2 v3 v4
    split
    · rename_i v5
      change OnlyChanges [.cap, .caches, .parts, .knots, .ports, .fields, .watch, .host, .xing, .ramp, .plays, .mesh, .exchanges, .freeCtr, .store,
          .rel, .mem, .near] s _
      exact OnlyChanges.refl _ _
    · rename_i v6
      split
      · rename_i v7 v8
        change OnlyChanges [.cap, .caches, .parts, .knots, .ports, .fields, .watch, .host, .xing, .ramp, .plays, .mesh, .exchanges, .freeCtr,
            .store, .rel, .mem, .near] s _
        exact OnlyChanges.refl _ _
      · rename_i v9 v10 v11
        split
        · rename_i v12 v13 v14 v15
          split
          · rename_i v16
            change OnlyChanges [.cap, .caches, .parts, .knots, .ports, .fields, .watch, .host, .xing, .ramp, .plays, .mesh, .exchanges, .freeCtr,
                .store, .rel, .mem, .near] s _
            refine OnlyChanges.step ?_ (completeMove_frame _ _ _ _ _ _) (by decide)
            exact OnlyChanges.refl _ _
          · rename_i v17
            change OnlyChanges [.cap, .caches, .parts, .knots, .ports, .fields, .watch, .host, .xing, .ramp, .plays, .mesh, .exchanges, .freeCtr,
                .store, .rel, .mem, .near] s _
            exact OnlyChanges.refl _ _
        · rename_i v18 v19
          change OnlyChanges [.cap, .caches, .parts, .knots, .ports, .fields, .watch, .host, .xing, .ramp, .plays, .mesh, .exchanges, .freeCtr,
              .store, .rel, .mem, .near] s _
          refine OnlyChanges.step ?_ (pump_frame _ _ _ _) (by decide)
          exact OnlyChanges.refl _ _

theorem execWaitTimeout_frame (tile : Nat) (code : Nat) (s : State) :
    outAll (OnlyChanges [.host, .xing, .plays, .store] s) (execWaitTimeout tile code s) := by
  unfold execWaitTimeout
  split
  · rename_i v0 v1
    change OnlyChanges [.host, .xing, .plays, .store] s _
    exact OnlyChanges.refl _ _
  · rename_i v2 v3 v4
    split
    · rename_i v5 v6
      change OnlyChanges [.host, .xing, .plays, .store] s _
      exact OnlyChanges.refl _ _
    · rename_i v7 v8 v9 v10
      split
      · rename_i v11
        change OnlyChanges [.host, .xing, .plays, .store] s _
        refine OnlyChanges.step ?_ (failPlay_frame _ _ _) (by decide)
        exact OnlyChanges.refl _ _
      · rename_i v12
        change OnlyChanges [.host, .xing, .plays, .store] s _
        exact OnlyChanges.refl _ _

theorem tieArrived_frame (tile : Nat) (code : Nat) (s : State) :
    OnlyChanges [.cap, .caches, .parts, .knots, .ports, .fields, .watch, .host, .xing, .ramp, .plays, .mesh, .exchanges, .freeCtr, .store, .rel,
        .mem, .near] s (tieArrived tile code s) := by
  unfold tieArrived
  split
  · rename_i v0 v1
    exact OnlyChanges.refl _ _
  · rename_i v2 v3 v4
    split
    · rename_i v5 v6
      exact OnlyChanges.refl _ _
    · rename_i v7 v8 v9
      split
      · rename_i v10 v11
        exact OnlyChanges.refl _ _
      · rename_i v12 v13 v14 v15
        refine OnlyChanges.ite ?_ ?_
        · refine OnlyChanges.step ?_ (completeMove_frame _ _ _ _ _ _) (by decide)
          exact OnlyChanges.refl _ _
        · refine OnlyChanges.step ?_ (putMove_frame _ _ _ _ _ _) (by decide)
          exact OnlyChanges.refl _ _

theorem execRemoteTieArrival_frame (src : Source) (node : Nat) (t : Transit) (s : State) :
    outAll (OnlyChanges [.cap, .caches, .parts, .knots, .ports, .fields, .watch, .host, .xing, .ramp, .plays, .mesh, .exchanges, .freeCtr, .store,
        .rel, .mem, .near] s) (execRemoteTieArrival src node t s) := by
  unfold execRemoteTieArrival
  split
  · rename_i v0 v1 v2 v3 v4 v5 v6 v7 v8
    split
    · rename_i v9 v10
      refine absorb (P := arrAll (OnlyChanges [.cap, .caches, .parts, .knots, .ports, .fields, .watch, .host, .xing, .ramp, .plays, .mesh,
          .exchanges, .freeCtr, .store, .rel, .mem, .near] s)) v10 ?_ (fun q11 => ?_)
      · refine OnlyChanges.stepArr ?_ (meshArrive_frame _ _ _) (by decide)
        exact OnlyChanges.refl _ _
      change OnlyChanges [.cap, .caches, .parts, .knots, .ports, .fields, .watch, .host, .xing, .ramp, .plays, .mesh, .exchanges, .freeCtr, .store,
          .rel, .mem, .near] s _
      exact OnlyChanges.refl _ _
    · rename_i v12 v13 v14
      refine absorb (P := arrAll (OnlyChanges [.cap, .caches, .parts, .knots, .ports, .fields, .watch, .host, .xing, .ramp, .plays, .mesh,
          .exchanges, .freeCtr, .store, .rel, .mem, .near] s)) v14 ?_ (fun q15 => ?_)
      · refine OnlyChanges.stepArr ?_ (meshArrive_frame _ _ _) (by decide)
        exact OnlyChanges.refl _ _
      change OnlyChanges [.cap, .caches, .parts, .knots, .ports, .fields, .watch, .host, .xing, .ramp, .plays, .mesh, .exchanges, .freeCtr, .store,
          .rel, .mem, .near] s _
      assumption
    · rename_i v16 v17 v18 v19
      refine absorb (P := arrAll (OnlyChanges [.cap, .caches, .parts, .knots, .ports, .fields, .watch, .host, .xing, .ramp, .plays, .mesh,
          .exchanges, .freeCtr, .store, .rel, .mem, .near] s)) v19 ?_ (fun q20 => ?_)
      · refine OnlyChanges.stepArr ?_ (meshArrive_frame _ _ _) (by decide)
        exact OnlyChanges.refl _ _
      extract_lets x21 x22
      clear_value x21 x22
      change OnlyChanges [.cap, .caches, .parts, .knots, .ports, .fields, .watch, .host, .xing, .ramp, .plays, .mesh, .exchanges, .freeCtr, .store,
          .rel, .mem, .near] s _
      refine OnlyChanges.step ?_ (serveFetches_frame _) (by decide)
      refine OnlyChanges.step ?_ (tieArrived_frame _ _ _) (by decide)
      refine OnlyChanges.ite ?_ ?_
      · refine OnlyChanges.step ?_ (addKnot_frame _ _ _) (by decide)
        assumption
      · refine OnlyChanges.step ?_ (outerTie_frame _ _ _) (by decide)
        assumption
  · rename_i v23 v24
    change OnlyChanges [.cap, .caches, .parts, .knots, .ports, .fields, .watch, .host, .xing, .ramp, .plays, .mesh, .exchanges, .freeCtr, .store,
        .rel, .mem, .near] s _
    exact OnlyChanges.refl _ _

theorem freeGroup_frame (p : Play) (l : List Member) (s : State) :
    OnlyChanges [.caches, .host, .freeCtr, .mem] s (freeGroup p l s) := by
  unfold freeGroup
  refine OnlyChanges.fold ?_ (fun u0 y1 h2 => ?_)
  · exact OnlyChanges.refl _ _
  · refine OnlyChanges.fold ?_ (fun u3 y4 h5 => ?_)
    · assumption
    · refine OnlyChanges.step ?_ (freeDest_frame _ _) (by decide)
      assumption

theorem execReductionResult_frame (tile : Nat) (s : State) :
    outAll (OnlyChanges [.caches, .knots, .watch, .host, .xing, .plays, .freeCtr, .store, .mem, .near] s) (execReductionResult tile s) := by
  unfold execReductionResult
  split
  · rename_i v0 v1
    change OnlyChanges [.caches, .knots, .watch, .host, .xing, .plays, .freeCtr, .store, .mem, .near] s _
    exact OnlyChanges.refl _ _
  · rename_i v2 v3 v4 v5
    split
    · rename_i v6
      change OnlyChanges [.caches, .knots, .watch, .host, .xing, .plays, .freeCtr, .store, .mem, .near] s _
      exact OnlyChanges.refl _ _
    · rename_i v7
      extract_lets x8 x9 x10
      have h11 : OnlyChanges [.caches, .knots, .watch, .host, .xing, .plays, .freeCtr, .store, .mem, .near] s x9 := by
        unfold x9
        refine OnlyChanges.fold ?_ (fun u12 y13 h14 => ?_)
        · exact OnlyChanges.refl _ _
        · refine OnlyChanges.step ?_ (addDests_frame _ _ _) (by decide)
          refine OnlyChanges.step ?_ (groupWrite_frame _ _ _ _ _) (by decide)
          assumption
      have h15 : OnlyChanges [.caches, .knots, .watch, .host, .xing, .plays, .freeCtr, .store, .mem, .near] s x10 := by
        unfold x10
        refine OnlyChanges.step ?_ (noteAll_frame _) (by decide)
        refine OnlyChanges.ite ?_ ?_
        · refine OnlyChanges.step ?_ (freeGroup_frame _ _ _) (by decide)
          assumption
        · assumption
      clear_value x8 x9 x10
      split
      · rename_i v16 v17
        change OnlyChanges [.caches, .knots, .watch, .host, .xing, .plays, .freeCtr, .store, .mem, .near] s _
        exact OnlyChanges.refl _ _
      · rename_i v18 v19
        change OnlyChanges [.caches, .knots, .watch, .host, .xing, .plays, .freeCtr, .store, .mem, .near] s _
        refine OnlyChanges.step ?_ (failPlay_frame _ _ _) (by decide)
        refine OnlyChanges.fold ?_ (fun u20 y21 h22 => ?_)
        · exact OnlyChanges.refl _ _
        · refine OnlyChanges.step ?_ (dropMove_frame _ _ _ _ _) (by decide)
          assumption
      · rename_i v23 v24
        change OnlyChanges [.caches, .knots, .watch, .host, .xing, .plays, .freeCtr, .store, .mem, .near] s _
        refine OnlyChanges.fold ?_ (fun u25 y26 h27 => ?_)
        · assumption
        · refine OnlyChanges.step ?_ (modQueue_frame _ _ _ _ _) (by decide)
          assumption

theorem execGroupTimeout_frame (tile : Nat) (s : State) :
    outAll (OnlyChanges [.host, .xing, .plays, .store] s) (execGroupTimeout tile s) := by
  unfold execGroupTimeout
  split
  · rename_i v0 v1
    change OnlyChanges [.host, .xing, .plays, .store] s _
    exact OnlyChanges.refl _ _
  · rename_i v2 v3 v4 v5
    change OnlyChanges [.host, .xing, .plays, .store] s _
    refine OnlyChanges.step ?_ (failPlay_frame _ _ _) (by decide)
    refine OnlyChanges.step ?_ (dropMove_frame _ _ _ _ _) (by decide)
    exact OnlyChanges.refl _ _

theorem execRampStartGrant_frame (now : Nat) (s : State) :
    outAll (OnlyChanges [.cap, .caches, .parts, .knots, .ports, .fields, .watch, .host, .xing, .ramp, .plays, .mesh, .exchanges, .freeCtr, .store,
        .rel, .mem, .near] s) (execRampStartGrant now s) := by
  unfold execRampStartGrant
  split
  · rename_i v0 v1
    change OnlyChanges [.cap, .caches, .parts, .knots, .ports, .fields, .watch, .host, .xing, .ramp, .plays, .mesh, .exchanges, .freeCtr, .store,
        .rel, .mem, .near] s _
    exact OnlyChanges.refl _ _
  · rename_i v2 v3 v4 v5 v6 v7
    split
    · rename_i v8 v9 v10
      split
      · rename_i v11
        change OnlyChanges [.cap, .caches, .parts, .knots, .ports, .fields, .watch, .host, .xing, .ramp, .plays, .mesh, .exchanges, .freeCtr,
            .store, .rel, .mem, .near] s _
        exact OnlyChanges.refl _ _
      · rename_i v12
        extract_lets x13
        have h14 : OnlyChanges [.cap, .caches, .parts, .knots, .ports, .fields, .watch, .host, .xing, .ramp, .plays, .mesh, .exchanges, .freeCtr,
            .store, .rel, .mem, .near] s x13 := by
          unfold x13
          refine only_rampQueue_rampLast ?_ _ _ (by decide)
          exact OnlyChanges.refl _ _
        clear_value x13
        split
        · rename_i v15 v16 v17 v18 v19 v20
          split
          · rename_i v21
            change OnlyChanges [.cap, .caches, .parts, .knots, .ports, .fields, .watch, .host, .xing, .ramp, .plays, .mesh, .exchanges, .freeCtr,
                .store, .rel, .mem, .near] s _
            refine OnlyChanges.step ?_ (setPart_frame _ _) (by decide)
            assumption
          · rename_i v22
            change OnlyChanges [.cap, .caches, .parts, .knots, .ports, .fields, .watch, .host, .xing, .ramp, .plays, .mesh, .exchanges, .freeCtr,
                .store, .rel, .mem, .near] s _
            refine OnlyChanges.step ?_ (pump_frame _ _ _ _) (by decide)
            refine OnlyChanges.step ?_ (setPart_frame _ _) (by decide)
            assumption
        · rename_i v23 v24 v25
          change OnlyChanges [.cap, .caches, .parts, .knots, .ports, .fields, .watch, .host, .xing, .ramp, .plays, .mesh, .exchanges, .freeCtr,
              .store, .rel, .mem, .near] s _
          assumption
    · rename_i v26 v27
      split
      · rename_i v28
        change OnlyChanges [.cap, .caches, .parts, .knots, .ports, .fields, .watch, .host, .xing, .ramp, .plays, .mesh, .exchanges, .freeCtr,
            .store, .rel, .mem, .near] s _
        exact OnlyChanges.refl _ _
      · rename_i v29
        extract_lets x30
        have h31 : OnlyChanges [.cap, .caches, .parts, .knots, .ports, .fields, .watch, .host, .xing, .ramp, .plays, .mesh, .exchanges, .freeCtr,
            .store, .rel, .mem, .near] s x30 := by
          unfold x30
          refine only_rampQueue_rampLast ?_ _ _ (by decide)
          exact OnlyChanges.refl _ _
        clear_value x30
        split
        · rename_i v32 v33 v34 v35 v36 v37
          split
          · rename_i v38
            change OnlyChanges [.cap, .caches, .parts, .knots, .ports, .fields, .watch, .host, .xing, .ramp, .plays, .mesh, .exchanges, .freeCtr,
                .store, .rel, .mem, .near] s _
            refine OnlyChanges.step ?_ (setPart_frame _ _) (by decide)
            assumption
          · rename_i v39
            change OnlyChanges [.cap, .caches, .parts, .knots, .ports, .fields, .watch, .host, .xing, .ramp, .plays, .mesh, .exchanges, .freeCtr,
                .store, .rel, .mem, .near] s _
            refine OnlyChanges.step ?_ (pump_frame _ _ _ _) (by decide)
            refine OnlyChanges.step ?_ (setPart_frame _ _) (by decide)
            assumption
        · rename_i v40 v41 v42
          change OnlyChanges [.cap, .caches, .parts, .knots, .ports, .fields, .watch, .host, .xing, .ramp, .plays, .mesh, .exchanges, .freeCtr,
              .store, .rel, .mem, .near] s _
          assumption

theorem closeRuns_frame (f : Nat) (s : State) :
    OnlyChanges [.parts] s (closeRuns f s) := by
  unfold closeRuns
  refine only_parts ?_ _ (by decide)
  exact OnlyChanges.refl _ _

theorem execPassBeat_frame (f : Nat) (s : State) :
    outAll (OnlyChanges [.parts, .fields] s) (execPassBeat f s) := by
  unfold execPassBeat
  split
  · rename_i v0
    change OnlyChanges [.parts, .fields] s _
    refine OnlyChanges.step ?_ (closeRuns_frame _ _) (by decide)
    refine OnlyChanges.step ?_ (adjField_frame _ _ _) (by decide)
    exact OnlyChanges.refl _ _
  · rename_i v1
    change OnlyChanges [.parts, .fields] s _
    exact OnlyChanges.refl _ _

theorem closePassing_frame (s : State) :
    OnlyChanges [.parts] s (closePassing s) := by
  unfold closePassing
  refine only_parts ?_ _ (by decide)
  exact OnlyChanges.refl _ _

theorem execMoveReplay_frame (tile : Nat) (code : Nat) (f : MoveFault) (s : State) :
    outAll (OnlyChanges [.cap, .caches, .knots, .host, .xing, .plays, .freeCtr, .store, .rel, .mem, .near] s) (execMoveReplay tile code f s) := by
  unfold execMoveReplay
  split
  · rename_i v0 v1
    change OnlyChanges [.cap, .caches, .knots, .host, .xing, .plays, .freeCtr, .store, .rel, .mem, .near] s _
    exact OnlyChanges.refl _ _
  · rename_i v2 v3 v4
    split
    · rename_i v5 v6 v7 v8 v9 v10 v11
      split
      · rename_i v12
        split
        · rename_i v13 v14 v15 v16
          refine absorb (P := startAll (OnlyChanges [.cap, .caches, .knots, .host, .xing, .plays, .freeCtr, .store, .rel, .mem, .near] s)) v16 ?_
              (fun q17 => ?_)
          · refine OnlyChanges.stepStart ?_ (replayMove_frame _ _ _ _ _) (by decide)
            exact OnlyChanges.refl _ _
          change OnlyChanges [.cap, .caches, .knots, .host, .xing, .plays, .freeCtr, .store, .rel, .mem, .near] s _
          refine OnlyChanges.step ?_ (addDests_frame _ _ _) (by decide)
          refine OnlyChanges.step ?_ (putMove_frame _ _ _ _ _ _) (by decide)
          assumption
        · rename_i v18 v19 v20 v21
          refine absorb (P := startAll (OnlyChanges [.cap, .caches, .knots, .host, .xing, .plays, .freeCtr, .store, .rel, .mem, .near] s)) v21 ?_
              (fun q22 => ?_)
          · refine OnlyChanges.stepStart ?_ (replayMove_frame _ _ _ _ _) (by decide)
            exact OnlyChanges.refl _ _
          change OnlyChanges [.cap, .caches, .knots, .host, .xing, .plays, .freeCtr, .store, .rel, .mem, .near] s _
          refine OnlyChanges.step ?_ (failPlay_frame _ _ _) (by decide)
          refine OnlyChanges.step ?_ (addDests_frame _ _ _) (by decide)
          refine OnlyChanges.step ?_ (dropMove_frame _ _ _ _ _) (by decide)
          assumption
        · rename_i v23 v24 v25 v26
          refine absorb (P := startAll (OnlyChanges [.cap, .caches, .knots, .host, .xing, .plays, .freeCtr, .store, .rel, .mem, .near] s)) v26 ?_
              (fun q27 => ?_)
          · refine OnlyChanges.stepStart ?_ (replayMove_frame _ _ _ _ _) (by decide)
            exact OnlyChanges.refl _ _
          change OnlyChanges [.cap, .caches, .knots, .host, .xing, .plays, .freeCtr, .store, .rel, .mem, .near] s _
          refine OnlyChanges.step ?_ (faultPlay_frame _ _ _ _) (by decide)
          refine OnlyChanges.step ?_ (dropMove_frame _ _ _ _ _) (by decide)
          assumption
        · rename_i v28 v29 v30 v31
          change OnlyChanges [.cap, .caches, .knots, .host, .xing, .plays, .freeCtr, .store, .rel, .mem, .near] s _
          exact OnlyChanges.refl _ _
      · rename_i v32
        change OnlyChanges [.cap, .caches, .knots, .host, .xing, .plays, .freeCtr, .store, .rel, .mem, .near] s _
        exact OnlyChanges.refl _ _
    · rename_i v33 v34
      change OnlyChanges [.cap, .caches, .knots, .host, .xing, .plays, .freeCtr, .store, .rel, .mem, .near] s _
      exact OnlyChanges.refl _ _

theorem slotOverrun_frame (p : Play) (s : State) :
    OnlyChanges [.host, .xing, .store] s (slotOverrun p s) := by
  unfold slotOverrun
  refine OnlyChanges.ite ?_ ?_
  · refine OnlyChanges.step ?_ (postFull_frame _ _ _ _ _ _ _) (by decide)
    exact OnlyChanges.refl _ _
  · exact OnlyChanges.refl _ _

theorem endRun_frame (p : Play) (s : State) :
    OnlyChanges [.parts, .ramp] s (endRun p s) := by
  unfold endRun
  extract_lets x0
  have h1 : OnlyChanges [.parts, .ramp] s x0 := by
    unfold x0
    refine only_rampQueue ?_ _ (by decide)
    exact OnlyChanges.refl _ _
  clear_value x0
  split
  · rename_i v2 v3 v4
    refine OnlyChanges.step ?_ (setPart_frame _ _) (by decide)
    assumption
  · rename_i v5 v6
    assumption

theorem playCut_frame (p : Play) (s : State) :
    sndAll (OnlyChanges [.parting, .parts, .removed] s) (playCut p s) := by
  unfold playCut
  split
  · rename_i v0 v1
    refine sndAll_mk ?_
    exact OnlyChanges.refl _ _
  · rename_i v2 v3 v4 v5 v6
    split
    · rename_i v7
      refine sndAll_mk ?_
      exact OnlyChanges.refl _ _
    · rename_i v8
      split
      · rename_i v9 v10 v11
        refine sndAll_mk ?_
        exact OnlyChanges.refl _ _
      · rename_i v12 v13
        refine sndAll_mk ?_
        refine OnlyChanges.step ?_ (partMake_frame _ _ _ _) (by decide)
        refine OnlyChanges.step ?_ (partPend_frame _ _ _ _) (by decide)
        exact OnlyChanges.refl _ _

theorem endFailed_frame (p : Play) (s : State) :
    OnlyChanges [.cap, .caches, .parts, .host, .xing, .ramp, .plays, .freeCtr, .store, .mem] s (endFailed p s) := by
  unfold endFailed
  extract_lets x0 x1
  have h2 : OnlyChanges [.cap, .caches, .parts, .host, .xing, .ramp, .plays, .freeCtr, .store, .mem] s x0 := by
    unfold x0
    refine OnlyChanges.step ?_ (freeDests_frame _ _) (by decide)
    refine OnlyChanges.step ?_ (endRun_frame _ _) (by decide)
    refine OnlyChanges.step ?_ (slotOverrun_frame _ _) (by decide)
    refine OnlyChanges.step ?_ (dropPlay_frame _ _) (by decide)
    exact OnlyChanges.refl _ _
  clear_value x0 x1
  refine OnlyChanges.ite ?_ ?_
  · assumption
  · split
    · rename_i v3 v4 v5
      refine OnlyChanges.step ?_ (playReply_frame _ _ _ _) (by decide)
      assumption
    · rename_i v6 v7
      refine OnlyChanges.ite ?_ ?_
      · refine OnlyChanges.step ?_ (record_frame _ _ _ _ _ _ _ _ _ _) (by decide)
        refine only_cap ?_ _ (by decide)
        assumption
      · split
        · rename_i v8 v9 v10 v11 v12
          refine OnlyChanges.step ?_ (playReply_frame _ _ _ _) (by decide)
          assumption

theorem execPlayStart_frame (org : Nat) (sh : Nat) (s : State) :
    outAll (OnlyChanges [.cap, .caches, .parts, .host, .xing, .ramp, .plays, .freeCtr, .store, .mem] s) (execPlayStart org sh s) := by
  unfold execPlayStart
  split
  · rename_i v0 v1
    change OnlyChanges [.cap, .caches, .parts, .host, .xing, .ramp, .plays, .freeCtr, .store, .mem] s _
    exact OnlyChanges.refl _ _
  · rename_i v2 v3 v4
    split
    · rename_i v5
      change OnlyChanges [.cap, .caches, .parts, .host, .xing, .ramp, .plays, .freeCtr, .store, .mem] s _
      exact OnlyChanges.refl _ _
    · rename_i v6
      split
      · rename_i v7 v8
        change OnlyChanges [.cap, .caches, .parts, .host, .xing, .ramp, .plays, .freeCtr, .store, .mem] s _
        refine OnlyChanges.step ?_ (endUnrun_frame _ _ _) (by decide)
        exact OnlyChanges.refl _ _
      · rename_i v9 v10 v11
        split
        · rename_i v12
          change OnlyChanges [.cap, .caches, .parts, .host, .xing, .ramp, .plays, .freeCtr, .store, .mem] s _
          exact OnlyChanges.refl _ _
        · rename_i v13
          split
          · rename_i v14
            change OnlyChanges [.cap, .caches, .parts, .host, .xing, .ramp, .plays, .freeCtr, .store, .mem] s _
            refine OnlyChanges.step ?_ (endUnrun_frame _ _ _) (by decide)
            exact OnlyChanges.refl _ _
          · rename_i v15
            split
            · rename_i v16
              change OnlyChanges [.cap, .caches, .parts, .host, .xing, .ramp, .plays, .freeCtr, .store, .mem] s _
              refine OnlyChanges.step ?_ (endUnrun_frame _ _ _) (by decide)
              exact OnlyChanges.refl _ _
            · rename_i v17
              split
              · rename_i v18
                change OnlyChanges [.cap, .caches, .parts, .host, .xing, .ramp, .plays, .freeCtr, .store, .mem] s _
                refine OnlyChanges.step ?_ (endFailed_frame _ _) (by decide)
                refine OnlyChanges.step ?_ (granuleFault_frame _ _ _ _ _) (by decide)
                refine OnlyChanges.step ?_ (retiredRead_frame _ _ _) (by decide)
                exact OnlyChanges.refl _ _
              · rename_i v19
                split
                · rename_i v20 v21 v22
                  change OnlyChanges [.cap, .caches, .parts, .host, .xing, .ramp, .plays, .freeCtr, .store, .mem] s _
                  refine OnlyChanges.step ?_ (endUnrun_frame _ _ _) (by decide)
                  exact OnlyChanges.refl _ _
                · rename_i v23 v24
                  change OnlyChanges [.cap, .caches, .parts, .host, .xing, .ramp, .plays, .freeCtr, .store, .mem] s _
                  refine OnlyChanges.step ?_ (playRun_frame _ _) (by decide)
                  exact OnlyChanges.refl _ _

theorem playEnd_frame (org : Nat) (sh : Nat) (s : State) :
    OnlyChanges [.cap, .caches, .parting, .parts, .host, .xing, .ramp, .plays, .freeCtr, .removed, .store, .mem] s (playEnd org sh s) := by
  unfold playEnd
  split
  · rename_i v0 v1
    exact OnlyChanges.refl _ _
  · rename_i v2 v3 v4
    refine OnlyChanges.ite ?_ ?_
    · refine OnlyChanges.ite ?_ ?_
      · extract_lets x5 x6
        have h7 : OnlyChanges [.cap, .caches, .parting, .parts, .host, .xing, .ramp, .plays, .freeCtr, .removed, .store, .mem] s x5 := by
          unfold x5
          refine OnlyChanges.step ?_ (endRun_frame _ _) (by decide)
          refine OnlyChanges.step ?_ (slotOverrun_frame _ _) (by decide)
          refine OnlyChanges.step ?_ (dropPlay_frame _ _) (by decide)
          exact OnlyChanges.refl _ _
        have h8 : OnlyChanges [.cap, .caches, .parting, .parts, .host, .xing, .ramp, .plays, .freeCtr, .removed, .store, .mem] s x6 := by
          unfold x6
          refine OnlyChanges.ite ?_ ?_
          · refine OnlyChanges.step ?_ (freeDests_frame _ _) (by decide)
            assumption
          · assumption
        clear_value x5 x6
        split
        · rename_i v9 v10 v11 v12
          refine absorb (P := sndAll (OnlyChanges [.cap, .caches, .parting, .parts, .host, .xing, .ramp, .plays, .freeCtr, .removed, .store, .mem]
              s)) v12 ?_ (fun q13 => ?_)
          · refine OnlyChanges.stepSnd ?_ (playCut_frame _ _) (by decide)
            assumption
          refine OnlyChanges.step ?_ (playReply_frame _ _ _ _) (by decide)
          assumption
      · exact OnlyChanges.refl _ _
    · refine OnlyChanges.ite ?_ ?_
      · refine OnlyChanges.step ?_ (endFailed_frame _ _) (by decide)
        exact OnlyChanges.refl _ _
      · exact OnlyChanges.refl _ _

theorem restoreKnots_frame (p : Play) (s : State) :
    OnlyChanges [.knots] s (restoreKnots p s) := by
  unfold restoreKnots
  extract_lets x0
  clear_value x0
  refine only_knots ?_ _ (by decide)
  exact OnlyChanges.refl _ _

theorem execPlayRerun_frame (org : Nat) (sh : Nat) (s : State) :
    outAll (OnlyChanges [.caches, .parts, .knots, .host, .xing, .ramp, .plays, .freeCtr, .store, .mem] s) (execPlayRerun org sh s) := by
  unfold execPlayRerun
  split
  · rename_i v0 v1
    change OnlyChanges [.caches, .parts, .knots, .host, .xing, .ramp, .plays, .freeCtr, .store, .mem] s _
    exact OnlyChanges.refl _ _
  · rename_i v2 v3 v4
    split
    · rename_i v5
      extract_lets x6
      have h7 : OnlyChanges [.caches, .parts, .knots, .host, .xing, .ramp, .plays, .freeCtr, .store, .mem] s x6 := by
        unfold x6
        refine OnlyChanges.step ?_ (record_frame _ _ _ _ _ _ _ _ _ _) (by decide)
        refine OnlyChanges.step ?_ (restoreKnots_frame _ _) (by decide)
        refine OnlyChanges.step ?_ (endRun_frame _ _) (by decide)
        refine OnlyChanges.step ?_ (freeDests_frame _ _) (by decide)
        exact OnlyChanges.refl _ _
      clear_value x6
      change OnlyChanges [.caches, .parts, .knots, .host, .xing, .ramp, .plays, .freeCtr, .store, .mem] s _
      refine OnlyChanges.step ?_ (playRun_frame _ _) (by decide)
      assumption
    · rename_i v8
      change OnlyChanges [.caches, .parts, .knots, .host, .xing, .ramp, .plays, .freeCtr, .store, .mem] s _
      exact OnlyChanges.refl _ _

theorem abortRunning_frame (y : Play) (s : State) :
    OnlyChanges [.host, .xing, .plays, .store] s (abortRunning y s) := by
  unfold abortRunning
  extract_lets x0 x1
  clear_value x0 x1
  refine OnlyChanges.ite ?_ ?_
  · refine OnlyChanges.step ?_ (setPlay_frame _ _) (by decide)
    exact OnlyChanges.refl _ _
  · refine OnlyChanges.step ?_ (failPlay_frame _ _ _) (by decide)
    exact OnlyChanges.refl _ _

theorem opPlayAbort_frame (p : Packet) (s : State) :
    OnlyChanges [.cap, .host, .xing, .plays, .store] s (opPlayAbort p s) := by
  unfold opPlayAbort
  extract_lets x0 x1
  have h2 : OnlyChanges [.cap, .host, .xing, .plays, .store] s x1 := by
    unfold x1
    refine OnlyChanges.fold ?_ (fun u3 y4 h5 => ?_)
    · exact OnlyChanges.refl _ _
    · refine OnlyChanges.ite ?_ ?_
      · refine OnlyChanges.step ?_ (abortRunning_frame _ _) (by decide)
        assumption
      · refine OnlyChanges.step ?_ (endUnrun_frame _ _ _) (by decide)
        assumption
  clear_value x0 x1
  refine OnlyChanges.ite ?_ ?_
  · refine OnlyChanges.step ?_ (reply_frame _ _ _ _) (by decide)
    exact OnlyChanges.refl _ _
  · refine OnlyChanges.step ?_ (reply_frame _ _ _ _) (by decide)
    assumption

theorem opPart_frame (p : Packet) (s : State) :
    OnlyChanges [.cap, .parting, .parts, .host, .xing, .removed, .store] s (opPart p s) := by
  unfold opPart
  extract_lets x0 x1
  clear_value x0 x1
  split
  · rename_i v2 v3 v4
    refine OnlyChanges.step ?_ (refuse_frame _ _ _) (by decide)
    exact OnlyChanges.refl _ _
  · rename_i v5 v6
    refine OnlyChanges.step ?_ (partMake_frame _ _ _ _) (by decide)
    refine OnlyChanges.step ?_ (partPend_frame _ _ _ _) (by decide)
    exact OnlyChanges.refl _ _

theorem execPartComplete_frame (org : Nat) (sh : Nat) (s : State) :
    outAll (OnlyChanges [.cap, .parts, .host, .xing, .parting, .store] s) (execPartComplete org sh s) := by
  unfold execPartComplete
  split
  · rename_i v0 v1
    change OnlyChanges [.cap, .parts, .host, .xing, .parting, .store] s _
    exact OnlyChanges.refl _ _
  · rename_i v2 v3 v4
    extract_lets x5
    have h6 : OnlyChanges [.cap, .parts, .host, .xing, .parting, .store] s x5 := by
      unfold x5
      refine only_parts_parting ?_ _ _ (by decide)
      exact OnlyChanges.refl _ _
    clear_value x5
    split
    · rename_i v7 v8 v9
      change OnlyChanges [.cap, .parts, .host, .xing, .parting, .store] s _
      refine OnlyChanges.step ?_ (accept_frame _ _) (by decide)
      assumption
    · rename_i v10 v11
      change OnlyChanges [.cap, .parts, .host, .xing, .parting, .store] s _
      assumption

theorem endLoan_frame (l : LoanRec) (s : State) :
    OnlyChanges [.cap, .host, .xing, .loans, .store] s (endLoan l s) := by
  unfold endLoan
  refine OnlyChanges.fold ?_ (fun u0 y1 h2 => ?_)
  · refine only_loans ?_ _ (by decide)
    exact OnlyChanges.refl _ _
  · refine OnlyChanges.step ?_ (accept_frame _ _) (by decide)
    assumption

theorem opLoan_frame (p : Packet) (order : Nat) (s : State) :
    OnlyChanges [.cap, .host, .loans, .xing, .store] s (opLoan p order s) := by
  unfold opLoan
  extract_lets x0 x1 x2
  clear_value x0 x1 x2
  refine OnlyChanges.ite ?_ ?_
  · split
    · rename_i v3 v4
      refine OnlyChanges.step ?_ (refuse_frame _ _ _) (by decide)
      exact OnlyChanges.refl _ _
    · rename_i v5 v6 v7
      extract_lets x8
      clear_value x8
      refine OnlyChanges.ite ?_ ?_
      · refine only_loans ?_ _ (by decide)
        exact OnlyChanges.refl _ _
      · refine OnlyChanges.step ?_ (endLoan_frame _ _) (by decide)
        exact OnlyChanges.refl _ _
  · refine OnlyChanges.ite ?_ ?_
    · refine OnlyChanges.step ?_ (refuse_frame _ _ _) (by decide)
      exact OnlyChanges.refl _ _
    · split
      · rename_i v9 v10 v11 v12
        split
        · rename_i v13 v14 v15 v16
          refine OnlyChanges.ite ?_ ?_
          · refine OnlyChanges.step ?_ (refuse_frame _ _ _) (by decide)
            exact OnlyChanges.refl _ _
          · refine OnlyChanges.ite ?_ ?_
            · refine OnlyChanges.step ?_ (refuse_frame _ _ _) (by decide)
              exact OnlyChanges.refl _ _
            · refine OnlyChanges.ite ?_ ?_
              · refine OnlyChanges.step ?_ (refuse_frame _ _ _) (by decide)
                exact OnlyChanges.refl _ _
              · refine OnlyChanges.ite ?_ ?_
                · refine OnlyChanges.step ?_ (refuse_frame _ _ _) (by decide)
                  exact OnlyChanges.refl _ _
                · refine OnlyChanges.ite ?_ ?_
                  · refine OnlyChanges.step ?_ (refuse_frame _ _ _) (by decide)
                    exact OnlyChanges.refl _ _
                  · extract_lets x17
                    clear_value x17
                    refine OnlyChanges.step ?_ (reply_frame _ _ _ _) (by decide)
                    refine only_loans_loanNext ?_ _ _ (by decide)
                    exact OnlyChanges.refl _ _

theorem execLoanRevokeEffect_frame (n : Nat) (s : State) :
    outAll (OnlyChanges [.cap, .host, .xing, .loans, .store] s) (execLoanRevokeEffect n s) := by
  unfold execLoanRevokeEffect
  split
  · rename_i v0 v1
    change OnlyChanges [.cap, .host, .xing, .loans, .store] s _
    exact OnlyChanges.refl _ _
  · rename_i v2 v3 v4
    split
    · rename_i v5
      change OnlyChanges [.cap, .host, .xing, .loans, .store] s _
      refine OnlyChanges.step ?_ (endLoan_frame _ _) (by decide)
      exact OnlyChanges.refl _ _
    · rename_i v6
      change OnlyChanges [.cap, .host, .xing, .loans, .store] s _
      exact OnlyChanges.refl _ _

theorem opHintPlace_frame (p : Packet) (s : State) :
    OnlyChanges [.cap, .host, .xing, .hints, .store] s (opHintPlace p s) := by
  unfold opHintPlace
  extract_lets x0 x1 x2
  clear_value x0 x1 x2
  refine OnlyChanges.ite ?_ ?_
  · refine OnlyChanges.step ?_ (refuse_frame _ _ _) (by decide)
    exact OnlyChanges.refl _ _
  · refine OnlyChanges.ite ?_ ?_
    · refine OnlyChanges.step ?_ (refuse_frame _ _ _) (by decide)
      exact OnlyChanges.refl _ _
    · refine OnlyChanges.ite ?_ ?_
      · refine OnlyChanges.step ?_ (refuse_frame _ _ _) (by decide)
        exact OnlyChanges.refl _ _
      · refine OnlyChanges.step ?_ (accept_frame _ _) (by decide)
        refine only_hints ?_ _ (by decide)
        exact OnlyChanges.refl _ _

theorem faultCrossing_frame (a : Nat) (b : Nat) (s : State) :
    OnlyChanges [.host, .xing, .plays, .store] s (faultCrossing a b s) := by
  unfold faultCrossing
  refine OnlyChanges.fold ?_ (fun u0 y1 h2 => ?_)
  · exact OnlyChanges.refl _ _
  · refine OnlyChanges.ite ?_ ?_
    · assumption
    · split
      · rename_i v3 v4 v5 v6
        refine OnlyChanges.step ?_ (faultPlay_frame _ _ _ _) (by decide)
        assumption
      · rename_i v7 v8
        refine OnlyChanges.ite ?_ ?_
        · refine OnlyChanges.step ?_ (faultPlay_frame _ _ _ _) (by decide)
          assumption
        · assumption

theorem dropCrossing_frame (a : Nat) (b : Nat) (s : State) :
    OnlyChanges [.cap, .host, .xing, .plays, .mesh, .exchanges, .store] s (dropCrossing a b s) := by
  unfold dropCrossing
  extract_lets x0
  clear_value x0
  refine OnlyChanges.fold ?_ (fun u1 y2 h3 => ?_)
  · refine only_mesh ?_ _ (by decide)
    exact OnlyChanges.refl _ _
  · refine OnlyChanges.step ?_ (losePacket_frame _ _ _) (by decide)
    assumption

theorem execCrossingTimeout_frame (a : Nat) (b : Nat) (s : State) :
    outAll (OnlyChanges [.cap, .host, .xing, .plays, .mesh, .exchanges, .store] s) (execCrossingTimeout a b s) := by
  unfold execCrossingTimeout
  extract_lets x0 x1 x2
  have h3 : OnlyChanges [.cap, .host, .xing, .plays, .mesh, .exchanges, .store] s x0 := by
    unfold x0
    refine OnlyChanges.step ?_ (xingRecord_frame _ _ _ _) (by decide)
    exact OnlyChanges.refl _ _
  have h4 : OnlyChanges [.cap, .host, .xing, .plays, .mesh, .exchanges, .store] s x2 := by
    unfold x2
    refine only_xing ?_ _ (by decide)
    assumption
  clear_value x0 x1 x2
  change OnlyChanges [.cap, .host, .xing, .plays, .mesh, .exchanges, .store] s _
  refine OnlyChanges.step ?_ (dropCrossing_frame _ _ _) (by decide)
  refine OnlyChanges.step ?_ (faultCrossing_frame _ _ _) (by decide)
  assumption

theorem execSeqHang_frame (tile : Nat) (s : State) :
    outAll (OnlyChanges [.host, .xing, .plays, .store, .rel] s) (execSeqHang tile s) := by
  unfold execSeqHang
  split
  · rename_i v0 v1
    change OnlyChanges [.host, .xing, .plays, .store, .rel] s _
    exact OnlyChanges.refl _ _
  · rename_i v2 v3 v4
    split
    · rename_i v5
      change OnlyChanges [.host, .xing, .plays, .store, .rel] s _
      exact OnlyChanges.refl _ _
    · rename_i v6
      extract_lets x7 x8 x9 x10 x11 x12 x13 x14 x15
      have h16 : OnlyChanges [.host, .xing, .plays, .store, .rel] s x10 := by
        unfold x10
        refine only_rel ?_ _ (by decide)
        exact OnlyChanges.refl _ _
      have h17 : OnlyChanges [.host, .xing, .plays, .store, .rel] s x12 := by
        unfold x12
        refine OnlyChanges.step ?_ (suspectTile_frame _ _ _) (by decide)
        assumption
      have h18 : OnlyChanges [.host, .xing, .plays, .store, .rel] s x14 := by
        unfold x14
        refine OnlyChanges.ite ?_ ?_
        · refine only_rel ?_ _ (by decide)
          assumption
        · assumption
      have h19 : OnlyChanges [.host, .xing, .plays, .store, .rel] s x15 := by
        unfold x15
        refine OnlyChanges.step ?_ (record_frame _ _ _ _ _ _ _ _ _ _) (by decide)
        assumption
      clear_value x7 x8 x9 x10 x11 x12 x13 x14 x15
      change OnlyChanges [.host, .xing, .plays, .store, .rel] s _
      refine OnlyChanges.step ?_ (faultPlay_frame _ _ _ _) (by decide)
      assumption

end Sys2Proof.Machine
end

