-- ==== Sys2Proof/Laws/FrameCommit.lean ====
section
/-! SUPPORT. Frames: what each function of the collectives, capstans, the commit and the watch can change. -/

namespace Sys2Proof.Machine

theorem opCollSet_frame (p : Packet) (s : State) :
    OnlyChanges [.cap, .colls, .host, .xing, .store] s (opCollSet p s) := by
  unfold opCollSet
  extract_lets x0 x1
  clear_value x0 x1
  refine OnlyChanges.ite ?_ ?_
  · refine OnlyChanges.step ?_ (refuse_frame _ _ _) (by decide)
    exact OnlyChanges.refl _ _
  · refine OnlyChanges.ite ?_ ?_
    · refine OnlyChanges.step ?_ (refuse_frame _ _ _) (by decide)
      exact OnlyChanges.refl _ _
    · refine OnlyChanges.ite ?_ ?_
      · refine OnlyChanges.step ?_ (refuse_frame _ _ _) (by decide)
        exact OnlyChanges.refl _ _
      · refine OnlyChanges.ite ?_ ?_
        · refine OnlyChanges.step ?_ (refuse_frame _ _ _) (by decide)
          exact OnlyChanges.refl _ _
        · refine OnlyChanges.step ?_ (accept_frame _ _) (by decide)
          refine only_colls ?_ _ (by decide)
          exact OnlyChanges.refl _ _

theorem opCollFire_frame (p : Packet) (s : State) :
    OnlyChanges [.cap, .colls, .host, .xing, .store] s (opCollFire p s) := by
  unfold opCollFire
  split
  · rename_i v0 v1
    refine OnlyChanges.step ?_ (refuse_frame _ _ _) (by decide)
    exact OnlyChanges.refl _ _
  · rename_i v2 v3 v4
    refine OnlyChanges.ite ?_ ?_
    · refine OnlyChanges.step ?_ (refuse_frame _ _ _) (by decide)
      exact OnlyChanges.refl _ _
    · refine only_colls ?_ _ (by decide)
      exact OnlyChanges.refl _ _

theorem opRouteSet_frame (p : Packet) (s : State) :
    OnlyChanges [.cap, .sets, .host, .xing, .store] s (opRouteSet p s) := by
  unfold opRouteSet
  extract_lets x0 x1 x2 x3 x4 x5 x6 x7
  clear_value x0 x1 x2 x3 x4 x5 x6 x7
  refine OnlyChanges.ite ?_ ?_
  · refine OnlyChanges.step ?_ (refuse_frame _ _ _) (by decide)
    exact OnlyChanges.refl _ _
  · refine OnlyChanges.ite ?_ ?_
    · refine OnlyChanges.step ?_ (refuse_frame _ _ _) (by decide)
      exact OnlyChanges.refl _ _
    · refine OnlyChanges.step ?_ (accept_frame _ _) (by decide)
      refine only_sets ?_ _ (by decide)
      exact OnlyChanges.refl _ _

theorem execPacketForward_frame (p : RoutedPacket) (s : State) :
    outAll (OnlyChanges [.ports, .host, .xing, .store, .rel] s) (execPacketForward p s) := by
  unfold execPacketForward
  split
  · rename_i v0
    change OnlyChanges [.ports, .host, .xing, .store, .rel] s _
    exact OnlyChanges.refl _ _
  · rename_i v1
    split
    · rename_i v2 v3
      refine absorb (P := optAll (OnlyChanges [.ports, .host, .xing, .store, .rel] s)) v3 ?_ (fun q4 => ?_)
      · refine OnlyChanges.stepOpt ?_ (freeRx_frame _ _) (by decide)
        exact OnlyChanges.refl _ _
      change OnlyChanges [.ports, .host, .xing, .store, .rel] s _
      exact OnlyChanges.refl _ _
    · rename_i v5 v6 v7
      refine absorb (P := optAll (OnlyChanges [.ports, .host, .xing, .store, .rel] s)) v7 ?_ (fun q8 => ?_)
      · refine OnlyChanges.stepOpt ?_ (freeRx_frame _ _) (by decide)
        exact OnlyChanges.refl _ _
      split
      · rename_i v9
        change OnlyChanges [.ports, .host, .xing, .store, .rel] s _
        refine only_rel ?_ _ (by decide)
        assumption
      · rename_i v10
        split
        · rename_i v11
          change OnlyChanges [.ports, .host, .xing, .store, .rel] s _
          refine OnlyChanges.step ?_ (hawUnreachable_frame _ _ _) (by decide)
          assumption
        · rename_i v12
          change OnlyChanges [.ports, .host, .xing, .store, .rel] s _
          refine OnlyChanges.step ?_ (sendPacket_frame _ _) (by decide)
          assumption

theorem takeLeaf_frame (n : Nat) (c : CollSlot) (place : Option Nat) (l : Leaf) (s : State) :
    OnlyChanges [.colls] s (takeLeaf n c place l s) := by
  unfold takeLeaf
  extract_lets x0 x1
  clear_value x0 x1
  refine only_colls ?_ _ (by decide)
  exact OnlyChanges.refl _ _

theorem spillLeaf_frame (n : Nat) (c : CollSlot) (k : Nat) (l : Leaf) (s : State) :
    OnlyChanges [.colls, .host, .xing, .freeCtr, .store, .mem, .near] s (spillLeaf n c k l s) := by
  unfold spillLeaf
  split
  · rename_i v0 v1 v2 v3
    refine absorb (P := sndAll (OnlyChanges [.colls, .host, .xing, .freeCtr, .store, .mem, .near] s)) v3 ?_ (fun q4 => ?_)
    · refine OnlyChanges.stepSnd ?_ (drawBytes_frame _ _) (by decide)
      exact OnlyChanges.refl _ _
    refine OnlyChanges.step ?_ (takeLeaf_frame _ _ _ _ _) (by decide)
    refine OnlyChanges.step ?_ (nearWrite_frame _ _ _ _) (by decide)
    assumption

theorem leafAt_frame (c : CollSlot) (l : Leaf) (s : State) :
    OnlyChanges [.colls, .ports, .host, .xing, .freeCtr, .store, .mem, .near] s (leafAt c l s) := by
  unfold leafAt
  extract_lets x0
  clear_value x0
  refine OnlyChanges.ite ?_ ?_
  · exact OnlyChanges.refl _ _
  · refine OnlyChanges.ite ?_ ?_
    · refine OnlyChanges.fold ?_ (fun u1 y2 h3 => ?_)
      · exact OnlyChanges.refl _ _
      · refine OnlyChanges.step ?_ (sendPacket_frame _ _) (by decide)
        assumption
    · refine OnlyChanges.ite ?_ ?_
      · refine only_colls ?_ _ (by decide)
        exact OnlyChanges.refl _ _
      · refine OnlyChanges.ite ?_ ?_
        · refine OnlyChanges.step ?_ (takeLeaf_frame _ _ _ _ _) (by decide)
          exact OnlyChanges.refl _ _
        · split
          · rename_i v4 v5 v6
            refine OnlyChanges.step ?_ (spillLeaf_frame _ _ _ _ _) (by decide)
            exact OnlyChanges.refl _ _
          · rename_i v7 v8
            exact OnlyChanges.refl _ _

theorem holdData_frame (k : RoutedPacket) (s : State) :
    OnlyChanges [.colls] s (holdData k s) := by
  unfold holdData
  split
  · rename_i v0 v1 v2
    refine OnlyChanges.ite ?_ ?_
    · exact OnlyChanges.refl _ _
    · refine only_colls ?_ _ (by decide)
      exact OnlyChanges.refl _ _
  · rename_i v3 v4
    exact OnlyChanges.refl _ _

theorem deliverAll_frame (a : Nat) (a' : State) :
    OnlyChanges [.colls, .ports] a' (deliverAll a a') := by
  induction a generalizing a'
  · unfold deliverAll
    exact OnlyChanges.refl _ _
  · rename_i w0 ih
    unfold deliverAll
    split
    · rename_i v1 v2 v3 v4
      refine absorb (P := optSndAll (OnlyChanges [.colls, .ports] a')) v4 ?_ (fun q5 => ?_)
      · refine OnlyChanges.stepOptSnd ?_ (takeRx_frame _ _) (by decide)
        exact OnlyChanges.refl _ _
      refine OnlyChanges.step ?_ (ih _) (by decide)
      refine OnlyChanges.step ?_ (holdData_frame _ _) (by decide)
      assumption
    · rename_i v6 v7
      refine absorb (P := optSndAll (OnlyChanges [.colls, .ports] a')) v7 ?_ (fun q8 => ?_)
      · refine OnlyChanges.stepOptSnd ?_ (takeRx_frame _ _) (by decide)
        exact OnlyChanges.refl _ _
      exact OnlyChanges.refl _ _

theorem deliverData_frame (s : State) :
    OnlyChanges [.colls, .ports] s (deliverData s) := by
  unfold deliverData
  refine OnlyChanges.step ?_ (deliverAll_frame _ _) (by decide)
  exact OnlyChanges.refl _ _

theorem execLeaf_frame (c : Leaf) (t : Transit) (s : State) : outAll (OnlyChanges [.cap, .colls, .caches, .parts, .knots, .ports, .fields, .watch,
    .host, .xing, .ramp, .plays, .mesh, .exchanges, .freeCtr, .store, .rel, .mem, .near] s) (execLeaf c t s) := by
  have pump {u : State} (h : OnlyChanges [.cap, .colls, .caches, .parts, .knots, .ports, .fields, .watch, .host, .xing, .ramp, .plays, .mesh,
      .exchanges, .freeCtr, .store, .rel, .mem, .near] s u) : OnlyChanges [.cap, .colls, .caches, .parts, .knots, .ports, .fields, .watch, .host,
      .xing, .ramp, .plays, .mesh, .exchanges, .freeCtr, .store, .rel, .mem, .near] s (pumpAll u) :=
    OnlyChanges.step h (pumpAll_frame _) (by decide)
  have deliver {u : State} (h : OnlyChanges [.cap, .colls, .caches, .parts, .knots, .ports, .fields, .watch, .host, .xing, .ramp, .plays, .mesh,
      .exchanges, .freeCtr, .store, .rel, .mem, .near] s u) : OnlyChanges [.cap, .colls, .caches, .parts, .knots, .ports, .fields, .watch, .host,
      .xing, .ramp, .plays, .mesh, .exchanges, .freeCtr, .store, .rel, .mem, .near] s (deliverData u) :=
    OnlyChanges.step h (deliverData_frame _) (by decide)
  unfold execLeaf
  split
  · have a : arrAll (OnlyChanges [.cap, .colls, .caches, .parts, .knots, .ports, .fields, .watch, .host, .xing, .ramp, .plays, .mesh, .exchanges,
        .freeCtr, .store, .rel, .mem, .near] s) (meshArrive (.leaf (0, 0) c) t s) :=
      OnlyChanges.stepArr (OnlyChanges.refl _ _) (meshArrive_frame _ _ _) (by decide)
    show OnlyChanges _ _ _
    split
    · have f : optAll (OnlyChanges [.cap, .colls, .caches, .parts, .knots, .ports, .fields, .watch, .host, .xing, .ramp, .plays, .mesh, .exchanges,
          .freeCtr, .store, .rel, .mem, .near] s) (freeRx (strayLeaf c) s) :=
        OnlyChanges.stepOpt (OnlyChanges.refl _ _) (freeRx_frame _ _) (by decide)
      cases h : freeRx (strayLeaf c) s with
      | none => exact OnlyChanges.refl _ _
      | some u => rw [h] at f; exact deliver f
    · rename_i e; rw [e] at a; exact pump a
    · rename_i e; rw [e] at a; exact pump a
  · rename_i g _
    split
    · show OnlyChanges _ _ _
      split
      · exact OnlyChanges.refl _ _
      · exact OnlyChanges.step (only_colls (OnlyChanges.refl _ _) _ (by decide)) (post_frame _ _ _) (by decide)
    · split
      · exact OnlyChanges.refl _ _
      · have a : arrAll (OnlyChanges [.cap, .colls, .caches, .parts, .knots, .ports, .fields, .watch, .host, .xing, .ramp, .plays, .mesh,
            .exchanges, .freeCtr, .store, .rel, .mem, .near] s) (packetArrive (c.member == (rtSet s g.rts).self) (0, 0) g.rts (.leaf (0, 0) c) t s)
            :=
          OnlyChanges.stepArr (OnlyChanges.refl _ _) (packetArrive_frame _ _ _ _ _ _) (by decide)
        split
        · exact OnlyChanges.refl _ _
        · rename_i e; rw [e] at a; exact pump (deliver a)
        · rename_i e; rw [e] at a; exact pump (deliver (OnlyChanges.step a (leafAt_frame _ _ _) (by decide)))

theorem execRoundSum_frame (slot : Nat) (row : Nat) (seg : Nat) (s : State) :
    outAll (OnlyChanges [.colls, .watch, .mesh] s) (execRoundSum slot row seg s) := by
  unfold execRoundSum
  split
  · rename_i v0 v1
    change OnlyChanges [.colls, .watch, .mesh] s _
    exact OnlyChanges.refl _ _
  · rename_i v2 v3 v4
    extract_lets x5 x6 x7
    clear_value x5 x6 x7
    split
    · rename_i v8
      change OnlyChanges [.colls, .watch, .mesh] s _
      exact OnlyChanges.refl _ _
    · rename_i v9 v10 v11
      extract_lets x12 x13 x14 x15 x16 x17
      clear_value x12 x13 x14 x15 x16 x17
      split
      · rename_i v18
        change OnlyChanges [.colls, .watch, .mesh] s _
        exact OnlyChanges.refl _ _
      · rename_i v19
        split
        · rename_i v20 v21 v22 v23
          extract_lets x24
          have h25 : OnlyChanges [.colls, .watch, .mesh] s x24 := by
            unfold x24
            refine OnlyChanges.step ?_ (countConv_frame _ _ _ _) (by decide)
            refine only_colls ?_ _ (by decide)
            exact OnlyChanges.refl _ _
          clear_value x24
          change OnlyChanges [.colls, .watch, .mesh] s _
          refine OnlyChanges.step ?_ (meshPut_frame _ _ _) (by decide)
          assumption

theorem mapSlotsC_frame (f : CollSlot → CollSlot) (s : State) :
    OnlyChanges [.colls] s (mapSlotsC f s) := by
  unfold mapSlotsC
  refine only_colls ?_ _ (by decide)
  exact OnlyChanges.refl _ _

theorem sendData_frame (slot : Nat) (c : CollSlot) (step : W32) (first : Nat) (m : Nat) (l : List Byte) (s : State) :
    OnlyChanges [.ports, .host, .xing, .store] s (sendData slot c step first m l s) := by
  unfold sendData
  refine OnlyChanges.fold ?_ (fun u0 y1 h2 => ?_)
  · exact OnlyChanges.refl _ _
  · split
    · rename_i v3 v4 v5
      refine OnlyChanges.step ?_ (sendPacket_frame _ _) (by decide)
      assumption

theorem stopColl_frame (slot : Nat) (c : CollSlot) (p : Packet) (st : BitVec 16) (s : State) :
    OnlyChanges [.cap, .colls, .host, .xing, .store] s (stopColl slot c p st s) := by
  unfold stopColl
  refine OnlyChanges.step ?_ (faultStep_frame _ _) (by decide)
  refine OnlyChanges.step ?_ (refuse_frame _ _ _) (by decide)
  refine only_colls ?_ _ (by decide)
  exact OnlyChanges.refl _ _

theorem execCollectiveStart_frame (slot : Nat) (s : State) :
    outAll (OnlyChanges [.cap, .colls, .ports, .host, .xing, .store] s) (execCollectiveStart slot s) := by
  unfold execCollectiveStart
  split
  · rename_i v0 v1
    change OnlyChanges [.cap, .colls, .ports, .host, .xing, .store] s _
    exact OnlyChanges.refl _ _
  · rename_i v2 v3 v4
    split
    · rename_i v5 v6 v7 v8 v9 v10
      split
      · rename_i v11
        change OnlyChanges [.cap, .colls, .ports, .host, .xing, .store] s _
        exact OnlyChanges.refl _ _
      · rename_i v12
        split
        · rename_i v13
          change OnlyChanges [.cap, .colls, .ports, .host, .xing, .store] s _
          refine OnlyChanges.step ?_ (stopColl_frame _ _ _ _ _) (by decide)
          exact OnlyChanges.refl _ _
        · rename_i v14
          extract_lets x15
          clear_value x15
          split
          · rename_i v16 v17 v18 v19
            refine absorb (P := sndAll (OnlyChanges [.cap, .colls, .ports, .host, .xing, .store] s)) v19 ?_ (fun q20 => ?_)
            · refine OnlyChanges.stepSnd ?_ (engineRead_frame _ _ _ _ _) (by decide)
              exact OnlyChanges.refl _ _
            change OnlyChanges [.cap, .colls, .ports, .host, .xing, .store] s _
            refine OnlyChanges.step ?_ (faultStep_frame _ _) (by decide)
            refine only_colls ?_ _ (by decide)
            assumption
          · rename_i v21 v22 v23 v24
            refine absorb (P := sndAll (OnlyChanges [.cap, .colls, .ports, .host, .xing, .store] s)) v24 ?_ (fun q25 => ?_)
            · refine OnlyChanges.stepSnd ?_ (engineRead_frame _ _ _ _ _) (by decide)
              exact OnlyChanges.refl _ _
            extract_lets x26
            have h27 : OnlyChanges [.cap, .colls, .ports, .host, .xing, .store] s x26 := by
              unfold x26
              refine only_colls ?_ _ (by decide)
              assumption
            clear_value x26
            change OnlyChanges [.cap, .colls, .ports, .host, .xing, .store] s _
            refine OnlyChanges.fold ?_ (fun u28 y29 h30 => ?_)
            · assumption
            · refine OnlyChanges.step ?_ (sendData_frame _ _ _ _ _ _ _) (by decide)
              assumption
    · rename_i v31 v32 v33
      change OnlyChanges [.cap, .colls, .ports, .host, .xing, .store] s _
      exact OnlyChanges.refl _ _

theorem endCollective_frame (slot : Nat) (c : CollSlot) (p : Packet) (bytes : List Byte) (s : State) :
    OnlyChanges [.cap, .colls, .knots, .host, .xing, .plays, .store, .mem, .near] s (endCollective slot c p bytes s) := by
  unfold endCollective
  extract_lets x0 x1
  have h2 : OnlyChanges [.cap, .colls, .knots, .host, .xing, .plays, .store, .mem, .near] s x1 := by
    unfold x1
    refine OnlyChanges.step ?_ (nearWriteFor_frame _ _ _ _ _) (by decide)
    refine only_colls ?_ _ (by decide)
    exact OnlyChanges.refl _ _
  clear_value x0 x1
  refine OnlyChanges.step ?_ (accept_frame _ _) (by decide)
  refine OnlyChanges.step ?_ (outerTie_frame _ _ _) (by decide)
  refine OnlyChanges.step ?_ (noteAll_frame _) (by decide)
  assumption

theorem shareChunk_frame (slot : Nat) (c : CollSlot) (p : Packet) (own : List Byte) (s : State) :
    OnlyChanges [.colls, .ports, .host, .xing, .store] s (shareChunk slot c p own s) := by
  unfold shareChunk
  extract_lets x0
  clear_value x0
  refine OnlyChanges.fold ?_ (fun u1 y2 h3 => ?_)
  · refine only_colls ?_ _ (by decide)
    exact OnlyChanges.refl _ _
  · refine OnlyChanges.step ?_ (sendData_frame _ _ _ _ _ _ _) (by decide)
    assumption

theorem collResult_frame (slot : Nat) (c : CollSlot) (p : Packet) (parts : List (List Byte)) (s : State) :
    sndAll (OnlyChanges [.colls, .ports, .watch, .host, .xing, .store] s) (collResult slot c p parts s) := by
  unfold collResult
  extract_lets x0 x1
  clear_value x0 x1
  split
  · rename_i v2 v3
    split
    · rename_i v4 v5 v6 v7
      refine sndAll_mk ?_
      refine OnlyChanges.step ?_ (countConv_frame _ _ _ _) (by decide)
      exact OnlyChanges.refl _ _
  · rename_i v8 v9
    split
    · rename_i v10 v11 v12
      refine sndAll_mk ?_
      exact OnlyChanges.refl _ _
    · rename_i v13 v14
      split
      · rename_i v15 v16 v17 v18
        refine sndAll_mk ?_
        refine OnlyChanges.step ?_ (shareChunk_frame _ _ _ _ _) (by decide)
        refine OnlyChanges.step ?_ (countConv_frame _ _ _ _) (by decide)
        exact OnlyChanges.refl _ _
  · rename_i v19 v20 v21
    refine sndAll_mk ?_
    exact OnlyChanges.refl _ _

theorem execCollectiveComplete_frame (slot : Nat) (s : State) :
    outAll (OnlyChanges [.cap, .colls, .knots, .ports, .watch, .host, .xing, .plays, .store, .mem, .near] s) (execCollectiveComplete slot s) := by
  unfold execCollectiveComplete
  split
  · rename_i v0 v1
    change OnlyChanges [.cap, .colls, .knots, .ports, .watch, .host, .xing, .plays, .store, .mem, .near] s _
    exact OnlyChanges.refl _ _
  · rename_i v2 v3 v4
    split
    · rename_i v5 v6
      change OnlyChanges [.cap, .colls, .knots, .ports, .watch, .host, .xing, .plays, .store, .mem, .near] s _
      exact OnlyChanges.refl _ _
    · rename_i v7 v8 v9
      split
      · rename_i v10
        change OnlyChanges [.cap, .colls, .knots, .ports, .watch, .host, .xing, .plays, .store, .mem, .near] s _
        exact OnlyChanges.refl _ _
      · rename_i v11
        split
        · rename_i v12
          change OnlyChanges [.cap, .colls, .knots, .ports, .watch, .host, .xing, .plays, .store, .mem, .near] s _
          refine OnlyChanges.step ?_ (stopColl_frame _ _ _ _ _) (by decide)
          exact OnlyChanges.refl _ _
        · rename_i v13
          split
          · rename_i v14 v15
            change OnlyChanges [.cap, .colls, .knots, .ports, .watch, .host, .xing, .plays, .store, .mem, .near] s _
            exact OnlyChanges.refl _ _
          · rename_i v16 v17 v18
            split
            · rename_i v19 v20 v21 v22
              refine absorb (P := sndAll (OnlyChanges [.cap, .colls, .knots, .ports, .watch, .host, .xing, .plays, .store, .mem, .near] s)) v22 ?_
                  (fun q23 => ?_)
              · refine OnlyChanges.stepSnd ?_ (collResult_frame _ _ _ _ _) (by decide)
                exact OnlyChanges.refl _ _
              change OnlyChanges [.cap, .colls, .knots, .ports, .watch, .host, .xing, .plays, .store, .mem, .near] s _
              refine OnlyChanges.step ?_ (endCollective_frame _ _ _ _ _) (by decide)
              assumption
            · rename_i v24 v25 v26
              refine absorb (P := sndAll (OnlyChanges [.cap, .colls, .knots, .ports, .watch, .host, .xing, .plays, .store, .mem, .near] s)) v26 ?_
                  (fun q27 => ?_)
              · refine OnlyChanges.stepSnd ?_ (collResult_frame _ _ _ _ _) (by decide)
                exact OnlyChanges.refl _ _
              change OnlyChanges [.cap, .colls, .knots, .ports, .watch, .host, .xing, .plays, .store, .mem, .near] s _
              assumption

theorem sendControl_frame (rts : Nat) (members : Nat) (slot : Nat) (step : W32) (items : List Nat) (s : State) :
    OnlyChanges [.ports, .host, .xing, .store] s (sendControl rts members slot step items s) := by
  unfold sendControl
  refine OnlyChanges.fold ?_ (fun u0 y1 h2 => ?_)
  · exact OnlyChanges.refl _ _
  · refine OnlyChanges.step ?_ (sendPacket_frame _ _) (by decide)
    assumption

theorem opBarrier_frame (p : Packet) (s : State) :
    OnlyChanges [.cap, .barriers, .host, .xing, .store] s (opBarrier p s) := by
  unfold opBarrier
  extract_lets x0 x1 x2 x3
  clear_value x0 x1 x2 x3
  refine OnlyChanges.ite ?_ ?_
  · refine OnlyChanges.step ?_ (refuse_frame _ _ _) (by decide)
    exact OnlyChanges.refl _ _
  · refine only_cap_barriers ?_ _ _ (by decide)
    exact OnlyChanges.refl _ _

theorem putBarrier_frame (b : BarrierRec) (s : State) :
    OnlyChanges [.barriers] s (putBarrier b s) := by
  unfold putBarrier
  refine only_barriers ?_ _ (by decide)
  exact OnlyChanges.refl _ _

theorem arrive_frame (m : Nat) (b : BarrierRec) (s : State) :
    OnlyChanges [.barriers] s (arrive m b s) := by
  unfold arrive
  refine OnlyChanges.ite ?_ ?_
  · exact OnlyChanges.refl _ _
  · refine OnlyChanges.ite ?_ ?_
    · refine OnlyChanges.step ?_ (putBarrier_frame _ _) (by decide)
      exact OnlyChanges.refl _ _
    · refine OnlyChanges.step ?_ (putBarrier_frame _ _) (by decide)
      exact OnlyChanges.refl _ _

theorem execBarrierArrive_frame (n : Nat) (s : State) :
    outAll (OnlyChanges [.barriers, .ports, .host, .xing, .store] s) (execBarrierArrive n s) := by
  unfold execBarrierArrive
  split
  · rename_i v0 v1
    change OnlyChanges [.barriers, .ports, .host, .xing, .store] s _
    exact OnlyChanges.refl _ _
  · rename_i v2 v3 v4
    split
    · rename_i v5
      change OnlyChanges [.barriers, .ports, .host, .xing, .store] s _
      refine OnlyChanges.step ?_ (arrive_frame _ _ _) (by decide)
      refine OnlyChanges.step ?_ (sendControl_frame _ _ _ _ _ _) (by decide)
      refine OnlyChanges.step ?_ (putBarrier_frame _ _) (by decide)
      exact OnlyChanges.refl _ _
    · rename_i v6
      change OnlyChanges [.barriers, .ports, .host, .xing, .store] s _
      exact OnlyChanges.refl _ _

theorem barrierReply_frame (b : BarrierRec) (st : BitVec 16) (s : State) :
    OnlyChanges [.cap, .barriers, .host, .xing, .store] s (barrierReply b st s) := by
  unfold barrierReply
  extract_lets x0
  have h1 : OnlyChanges [.cap, .barriers, .host, .xing, .store] s x0 := by
    unfold x0
    refine only_barriers ?_ _ (by decide)
    exact OnlyChanges.refl _ _
  clear_value x0
  refine OnlyChanges.step ?_ (stepReply_frame _ _ _ _ _ _ _ _ _ _ _) (by decide)
  assumption

theorem releaseBarrier_frame (b : BarrierRec) (s : State) :
    OnlyChanges [.cap, .barriers, .knots, .host, .xing, .plays, .store] s (releaseBarrier b s) := by
  unfold releaseBarrier
  extract_lets x0 x1
  have h2 : OnlyChanges [.cap, .barriers, .knots, .host, .xing, .plays, .store] s x0 := by
    unfold x0
    refine OnlyChanges.step ?_ (outerTie_frame _ _ _) (by decide)
    exact OnlyChanges.refl _ _
  have h3 : OnlyChanges [.cap, .barriers, .knots, .host, .xing, .plays, .store] s x1 := by
    unfold x1
    refine OnlyChanges.ite ?_ ?_
    · refine OnlyChanges.step ?_ (postFull_frame _ _ _ _ _ _ _) (by decide)
      assumption
    · assumption
  clear_value x0 x1
  refine OnlyChanges.step ?_ (barrierReply_frame _ _ _) (by decide)
  assumption

theorem execBarrierRelease_frame (n : Nat) (s : State) :
    outAll (OnlyChanges [.cap, .barriers, .knots, .host, .xing, .plays, .store, .cad] s) (execBarrierRelease n s) := by
  unfold execBarrierRelease
  split
  · rename_i v0 v1
    change OnlyChanges [.cap, .barriers, .knots, .host, .xing, .plays, .store, .cad] s _
    exact OnlyChanges.refl _ _
  · rename_i v2 v3 v4
    split
    · rename_i v5
      change OnlyChanges [.cap, .barriers, .knots, .host, .xing, .plays, .store, .cad] s _
      exact OnlyChanges.refl _ _
    · rename_i v6
      split
      · rename_i v7 v8 v9
        refine absorb (P := optAll (OnlyChanges [.cap, .barriers, .knots, .host, .xing, .plays, .store, .cad] s)) v9 ?_ (fun q10 => ?_)
        · refine OnlyChanges.stepOpt ?_ (comeTo_frame _ _ _) (by decide)
          exact OnlyChanges.refl _ _
        change OnlyChanges [.cap, .barriers, .knots, .host, .xing, .plays, .store, .cad] s _
        refine OnlyChanges.step ?_ (releaseBarrier_frame _ _) (by decide)
        assumption
      · rename_i v11 v12
        refine absorb (P := optAll (OnlyChanges [.cap, .barriers, .knots, .host, .xing, .plays, .store, .cad] s)) v12 ?_ (fun q13 => ?_)
        · refine OnlyChanges.stepOpt ?_ (comeTo_frame _ _ _) (by decide)
          exact OnlyChanges.refl _ _
        change OnlyChanges [.cap, .barriers, .knots, .host, .xing, .plays, .store, .cad] s _
        exact OnlyChanges.refl _ _

theorem execBarrierTimeout_frame (n : Nat) (s : State) :
    outAll (OnlyChanges [.cap, .barriers, .host, .xing, .store, .cad] s) (execBarrierTimeout n s) := by
  unfold execBarrierTimeout
  split
  · rename_i v0 v1
    change OnlyChanges [.cap, .barriers, .host, .xing, .store, .cad] s _
    exact OnlyChanges.refl _ _
  · rename_i v2 v3 v4
    split
    · rename_i v5
      change OnlyChanges [.cap, .barriers, .host, .xing, .store, .cad] s _
      exact OnlyChanges.refl _ _
    · rename_i v6
      split
      · rename_i v7 v8 v9
        refine absorb (P := optAll (OnlyChanges [.cap, .barriers, .host, .xing, .store, .cad] s)) v9 ?_ (fun q10 => ?_)
        · refine OnlyChanges.stepOpt ?_ (timeTo_frame _ _) (by decide)
          exact OnlyChanges.refl _ _
        change OnlyChanges [.cap, .barriers, .host, .xing, .store, .cad] s _
        refine OnlyChanges.step ?_ (barrierReply_frame _ _ _) (by decide)
        assumption
      · rename_i v11 v12
        refine absorb (P := optAll (OnlyChanges [.cap, .barriers, .host, .xing, .store, .cad] s)) v12 ?_ (fun q13 => ?_)
        · refine OnlyChanges.stepOpt ?_ (timeTo_frame _ _) (by decide)
          exact OnlyChanges.refl _ _
        change OnlyChanges [.cap, .barriers, .host, .xing, .store, .cad] s _
        exact OnlyChanges.refl _ _

theorem wr32_frame (a : Nat) (v : W32) (s : State) :
    OnlyChanges [.mem] s (wr32 a v s) := by
  unfold wr32
  refine OnlyChanges.step ?_ (writeN_frame _ _ _ _) (by decide)
  exact OnlyChanges.refl _ _

theorem parityPass_frame (test : Nat → Bool) (s : State) :
    OnlyChanges [.mem] s (parityPass test s) := by
  unfold parityPass
  extract_lets x0 x1
  clear_value x0 x1
  refine only_mem ?_ _ (by decide)
  exact OnlyChanges.refl _ _

theorem setOneEntry_frame (n : Nat) (b : List Byte) (s : State) :
    sndAll (OnlyChanges [.cap] s) (setOneEntry n b s) := by
  unfold setOneEntry
  split
  · rename_i v0
    split
    · rename_i v1 v2 v3
      refine sndAll_mk ?_
      exact OnlyChanges.refl _ _
    · rename_i v4 v5
      extract_lets x6 x7 x8 x9
      clear_value x6 x7 x8 x9
      refine sndAll_mk ?_
      refine OnlyChanges.step ?_ (setEntry_frame _ _ _) (by decide)
      exact OnlyChanges.refl _ _
  · rename_i v10
    split
    · rename_i v11
      refine sndAll_mk ?_
      exact OnlyChanges.refl _ _
    · rename_i v12
      split
      · rename_i v13
        refine sndAll_mk ?_
        exact OnlyChanges.refl _ _
      · rename_i v14
        refine sndAll_mk ?_
        refine only_cap ?_ _ (by decide)
        exact OnlyChanges.refl _ _

theorem opLedgerSet_frame (p : Packet) (s : State) :
    OnlyChanges [.cap, .host, .xing, .store] s (opLedgerSet p s) := by
  unfold opLedgerSet
  extract_lets x0 x1
  clear_value x0 x1
  refine OnlyChanges.ite ?_ ?_
  · refine OnlyChanges.step ?_ (refuse_frame _ _ _) (by decide)
    exact OnlyChanges.refl _ _
  · split
    · rename_i v2 v3 v4 v5
      refine absorb (P := sndAll (OnlyChanges [.cap, .host, .xing, .store] s)) v5 ?_ (fun q6 => ?_)
      · refine OnlyChanges.foldSnd ?_ (fun u7 y8 h9 => ?_)
        · refine sndAll_mk ?_
          exact OnlyChanges.refl _ _
        · split
          · rename_i v10 v11 v12 v13
            refine absorb (P := sndAll (OnlyChanges [.cap, .host, .xing, .store] s)) v13 ?_ (fun q14 => ?_)
            · refine OnlyChanges.stepSnd ?_ (setOneEntry_frame _ _ _) (by decide)
              show sndAll (OnlyChanges [.cap, .host, .xing, .store] s) _
              assumption
            refine sndAll_mk ?_
            assumption
      split
      · rename_i v15 v16 v17
        refine OnlyChanges.step ?_ (reply_frame _ _ _ _) (by decide)
        assumption
      · rename_i v18
        refine OnlyChanges.step ?_ (accept_frame _ _) (by decide)
        assumption

theorem opLedgerGet_frame (p : Packet) (s : State) :
    OnlyChanges [.cap, .host, .xing, .store, .mem, .near] s (opLedgerGet p s) := by
  unfold opLedgerGet
  extract_lets x0 x1
  clear_value x0 x1
  refine OnlyChanges.ite ?_ ?_
  · refine OnlyChanges.step ?_ (refuse_frame _ _ _) (by decide)
    exact OnlyChanges.refl _ _
  · refine OnlyChanges.ite ?_ ?_
    · refine OnlyChanges.step ?_ (refuse_frame _ _ _) (by decide)
      exact OnlyChanges.refl _ _
    · refine OnlyChanges.step ?_ (accept_frame _ _) (by decide)
      refine OnlyChanges.step ?_ (destWrite_frame _ _ _ _) (by decide)
      exact OnlyChanges.refl _ _

theorem setOneGroup_frame (n : Nat) (g : Machine.Group) (s : State) :
    OnlyChanges [.cap] s (setOneGroup n g s) := by
  unfold setOneGroup
  extract_lets x0 x1 x2
  have h3 : OnlyChanges [.cap] s x2 := by
    unfold x2
    refine only_cap ?_ _ (by decide)
    exact OnlyChanges.refl _ _
  clear_value x0 x1 x2
  refine OnlyChanges.ite ?_ ?_
  · refine OnlyChanges.step ?_ (unsettle_frame _ _) (by decide)
    assumption
  · assumption

theorem opGroupSet_frame (p : Packet) (s : State) :
    OnlyChanges [.cap, .host, .xing, .store] s (opGroupSet p s) := by
  unfold opGroupSet
  extract_lets x0 x1 x2
  clear_value x0 x1 x2
  refine OnlyChanges.ite ?_ ?_
  · refine OnlyChanges.step ?_ (refuse_frame _ _ _) (by decide)
    exact OnlyChanges.refl _ _
  · split
    · rename_i v3 v4 v5 v6
      refine absorb (P := sndAll (OnlyChanges [.cap, .host, .xing, .store] s)) v6 ?_ (fun q7 => ?_)
      · refine OnlyChanges.foldSnd ?_ (fun u8 y9 h10 => ?_)
        · refine sndAll_mk ?_
          exact OnlyChanges.refl _ _
        · extract_lets x11
          clear_value x11
          split
          · rename_i v12
            refine sndAll_mk ?_
            refine OnlyChanges.step ?_ (setOneGroup_frame _ _ _) (by decide)
            show sndAll (OnlyChanges [.cap, .host, .xing, .store] s) _
            assumption
          · rename_i v13
            refine sndAll_mk ?_
            show sndAll (OnlyChanges [.cap, .host, .xing, .store] s) _
            assumption
      refine OnlyChanges.ite ?_ ?_
      · refine OnlyChanges.step ?_ (refuse_frame _ _ _) (by decide)
        assumption
      · refine OnlyChanges.step ?_ (accept_frame _ _) (by decide)
        assumption

theorem addContribution_frame (c : Contribution) (e : Ledger) (s : State) :
    OnlyChanges [.cap, .host, .xing, .store, .mem] s (addContribution c e s) := by
  unfold addContribution
  extract_lets x0 x1 x2 x3 x4 x5 x6 x7
  have h8 : OnlyChanges [.cap, .host, .xing, .store, .mem] s x4 := by
    unfold x4
    refine OnlyChanges.fold ?_ (fun u9 y10 h11 => ?_)
    · exact OnlyChanges.refl _ _
    · extract_lets x12 x13
      clear_value x12 x13
      refine OnlyChanges.step ?_ (wr32_frame _ _ _) (by decide)
      assumption
  have h14 : OnlyChanges [.cap, .host, .xing, .store, .mem] s x7 := by
    unfold x7
    refine OnlyChanges.ite ?_ ?_
    · refine OnlyChanges.step ?_ (postStep_frame _ _ _ _) (by decide)
      assumption
    · assumption
  clear_value x0 x1 x2 x3 x4 x5 x6 x7
  refine OnlyChanges.step ?_ (setEntry_frame _ _ _) (by decide)
  assumption

theorem takeContribution_frame (tag : Nat × Nat) (c : Contribution) (s : State) :
    OnlyChanges [.cap, .host, .xing, .store, .mem] s (takeContribution tag c s) := by
  unfold takeContribution
  extract_lets x0 x1 x2 x3
  have h4 : ∀ a5 a6, OnlyChanges [.cap, .host, .xing, .store, .mem] s a6 → OnlyChanges [.cap, .host, .xing, .store, .mem] s (x1 a5 a6) := by
    intro b7 b8 k9
    unfold x1
    refine OnlyChanges.step ?_ (setEntry_frame _ _ _) (by decide)
    assumption
  clear_value x0 x1 x2 x3
  refine OnlyChanges.ite ?_ ?_
  · apply h4
    · exact OnlyChanges.refl _ _
  · refine OnlyChanges.ite ?_ ?_
    · refine only_cap ?_ _ (by decide)
      exact OnlyChanges.refl _ _
    · refine OnlyChanges.ite ?_ ?_
      · refine OnlyChanges.step ?_ (postStep_frame _ _ _ _) (by decide)
        apply h4
        · exact OnlyChanges.refl _ _
      · refine OnlyChanges.ite ?_ ?_
        · refine OnlyChanges.step ?_ (postStep_frame _ _ _ _) (by decide)
          apply h4
          · exact OnlyChanges.refl _ _
        · refine OnlyChanges.step ?_ (addContribution_frame _ _ _) (by decide)
          exact OnlyChanges.refl _ _

theorem takeHeld_frame (s : State) :
    OnlyChanges [.cap, .host, .xing, .store, .mem] s (takeHeld s) := by
  unfold takeHeld
  refine OnlyChanges.fold ?_ (fun u0 y1 h2 => ?_)
  · refine only_cap ?_ _ (by decide)
    exact OnlyChanges.refl _ _
  · refine OnlyChanges.step ?_ (takeContribution_frame _ _ _) (by decide)
    assumption

theorem execContribution_frame (c : Contribution) (t : Transit) (s : State) :
    outAll (OnlyChanges [.cap, .caches, .parts, .knots, .ports, .fields, .watch, .host, .xing, .ramp, .plays, .mesh, .exchanges, .freeCtr, .store,
        .rel, .mem, .near] s) (execContribution c t s) := by
  unfold execContribution
  split
  · rename_i v0 v1
    refine absorb (P := arrAll (OnlyChanges [.cap, .caches, .parts, .knots, .ports, .fields, .watch, .host, .xing, .ramp, .plays, .mesh, .exchanges,
        .freeCtr, .store, .rel, .mem, .near] s)) v1 ?_ (fun q2 => ?_)
    · refine OnlyChanges.stepArr ?_ (meshArrive_frame _ _ _) (by decide)
      exact OnlyChanges.refl _ _
    change OnlyChanges [.cap, .caches, .parts, .knots, .ports, .fields, .watch, .host, .xing, .ramp, .plays, .mesh, .exchanges, .freeCtr, .store,
        .rel, .mem, .near] s _
    exact OnlyChanges.refl _ _
  · rename_i v3 v4 v5
    refine absorb (P := arrAll (OnlyChanges [.cap, .caches, .parts, .knots, .ports, .fields, .watch, .host, .xing, .ramp, .plays, .mesh, .exchanges,
        .freeCtr, .store, .rel, .mem, .near] s)) v5 ?_ (fun q6 => ?_)
    · refine OnlyChanges.stepArr ?_ (meshArrive_frame _ _ _) (by decide)
      exact OnlyChanges.refl _ _
    change OnlyChanges [.cap, .caches, .parts, .knots, .ports, .fields, .watch, .host, .xing, .ramp, .plays, .mesh, .exchanges, .freeCtr, .store,
        .rel, .mem, .near] s _
    refine OnlyChanges.step ?_ (pumpAll_frame _) (by decide)
    assumption
  · rename_i v7 v8 v9 v10 v11
    refine absorb (P := arrAll (OnlyChanges [.cap, .caches, .parts, .knots, .ports, .fields, .watch, .host, .xing, .ramp, .plays, .mesh, .exchanges,
        .freeCtr, .store, .rel, .mem, .near] s)) v11 ?_ (fun q12 => ?_)
    · refine OnlyChanges.stepArr ?_ (meshArrive_frame _ _ _) (by decide)
      exact OnlyChanges.refl _ _
    change OnlyChanges [.cap, .caches, .parts, .knots, .ports, .fields, .watch, .host, .xing, .ramp, .plays, .mesh, .exchanges, .freeCtr, .store,
        .rel, .mem, .near] s _
    refine OnlyChanges.step ?_ (pumpAll_frame _) (by decide)
    refine OnlyChanges.step ?_ (takeContribution_frame _ _ _) (by decide)
    assumption
  · rename_i v13 v14 v15 v16 v17
    refine absorb (P := arrAll (OnlyChanges [.cap, .caches, .parts, .knots, .ports, .fields, .watch, .host, .xing, .ramp, .plays, .mesh, .exchanges,
        .freeCtr, .store, .rel, .mem, .near] s)) v17 ?_ (fun q18 => ?_)
    · refine OnlyChanges.stepArr ?_ (meshArrive_frame _ _ _) (by decide)
      exact OnlyChanges.refl _ _
    change OnlyChanges [.cap, .caches, .parts, .knots, .ports, .fields, .watch, .host, .xing, .ramp, .plays, .mesh, .exchanges, .freeCtr, .store,
        .rel, .mem, .near] s _
    assumption

theorem setArmed_frame (a : Armed) (s : State) :
    OnlyChanges [.cap] s (setArmed a s) := by
  unfold setArmed
  refine only_cap ?_ _ (by decide)
  exact OnlyChanges.refl _ _

theorem execNormPass_frame (s : State) :
    outAll (OnlyChanges [.cap, .ports, .host, .xing, .store] s) (execNormPass s) := by
  unfold execNormPass
  split
  · rename_i v0 v1
    change OnlyChanges [.cap, .ports, .host, .xing, .store] s _
    exact OnlyChanges.refl _ _
  · rename_i v2 v3 v4
    split
    · rename_i v5
      change OnlyChanges [.cap, .ports, .host, .xing, .store] s _
      exact OnlyChanges.refl _ _
    · rename_i v6
      extract_lets x7
      clear_value x7
      change OnlyChanges [.cap, .ports, .host, .xing, .store] s _
      refine OnlyChanges.step ?_ (sendControl_frame _ _ _ _ _ _) (by decide)
      refine OnlyChanges.step ?_ (setArmed_frame _ _) (by decide)
      exact OnlyChanges.refl _ _

theorem execNormReduction_frame (s : State) :
    outAll (OnlyChanges [.cap, .watch] s) (execNormReduction s) := by
  unfold execNormReduction
  split
  · rename_i v0 v1 v2
    split
    · rename_i v3
      change OnlyChanges [.cap, .watch] s _
      refine only_cap_watch ?_ _ _ (by decide)
      exact OnlyChanges.refl _ _
    · rename_i v4
      split
      · rename_i v5 v6 v7
        split
        · rename_i v8
          change OnlyChanges [.cap, .watch] s _
          refine OnlyChanges.step ?_ (setArmed_frame _ _) (by decide)
          exact OnlyChanges.refl _ _
        · rename_i v9
          change OnlyChanges [.cap, .watch] s _
          exact OnlyChanges.refl _ _
      · rename_i v10 v11
        change OnlyChanges [.cap, .watch] s _
        exact OnlyChanges.refl _ _
  · rename_i v12 v13
    split
    · rename_i v14 v15 v16
      split
      · rename_i v17
        change OnlyChanges [.cap, .watch] s _
        refine OnlyChanges.step ?_ (setArmed_frame _ _) (by decide)
        exact OnlyChanges.refl _ _
      · rename_i v18
        change OnlyChanges [.cap, .watch] s _
        exact OnlyChanges.refl _ _
    · rename_i v19 v20
      change OnlyChanges [.cap, .watch] s _
      exact OnlyChanges.refl _ _

theorem writeSquare_frame (e : Ledger) (bank : Bool) (half : Nat) (step : W32) (q : Nat) (s : State) :
    OnlyChanges [.watch, .host, .xing, .store, .mem, .near] s (writeSquare e bank half step q s) := by
  unfold writeSquare
  extract_lets x0 x1 x2 x3 x4 x5 x6 x7 x8
  clear_value x0 x1 x2 x3 x4 x5 x6 x7 x8
  refine OnlyChanges.ite ?_ ?_
  · split
    · rename_i v9 v10 v11 v12
      extract_lets x13
      clear_value x13
      refine OnlyChanges.step ?_ (countConv_frame _ _ _ _) (by decide)
      refine OnlyChanges.step ?_ (nearWrite_frame _ _ _ _) (by decide)
      exact OnlyChanges.refl _ _
  · split
    · rename_i v14 v15 v16 v17 v18
      extract_lets x19 x20
      have h21 : OnlyChanges [.watch, .host, .xing, .store, .mem, .near] s x19 := by
        unfold x19
        refine OnlyChanges.step ?_ (nearWrite_frame _ _ _ _) (by decide)
        exact OnlyChanges.refl _ _
      have h22 : OnlyChanges [.watch, .host, .xing, .store, .mem, .near] s x20 := by
        unfold x20
        refine OnlyChanges.ite ?_ ?_
        · refine OnlyChanges.step ?_ (nearWrite_frame _ _ _ _) (by decide)
          assumption
        · assumption
      clear_value x19 x20
      refine OnlyChanges.step ?_ (countConv_frame _ _ _ _) (by decide)
      assumption

theorem writeCopy_frame (e : Ledger) (bank : Bool) (half : Nat) (step : W32) (s : State) :
    OnlyChanges [.watch, .host, .xing, .store, .mem, .near] s (writeCopy e bank half step s) := by
  unfold writeCopy
  refine OnlyChanges.fold ?_ (fun u0 y1 h2 => ?_)
  · exact OnlyChanges.refl _ _
  · refine OnlyChanges.step ?_ (writeSquare_frame _ _ _ _ _ _) (by decide)
    assumption

theorem applyTrained_frame (k : ApplyK) (alt : Bool) (l : List (Nat × Nat)) (e : Ledger) (s : State) :
    sndAll (OnlyChanges [.mem] s) (applyTrained k alt l e s) := by
  unfold applyTrained
  refine OnlyChanges.foldSnd ?_ (fun u0 y1 h2 => ?_)
  · refine sndAll_mk ?_
    exact OnlyChanges.refl _ _
  · extract_lets x3 x4 x5 x6 x7
    have h8 : OnlyChanges [.mem] s x3 := by
      unfold x3
      show sndAll (OnlyChanges [.mem] s) _
      assumption
    clear_value x3 x4 x5 x6 x7
    split
    · rename_i v9 v10 v11 v12
      extract_lets x13
      clear_value x13
      refine sndAll_mk ?_
      refine OnlyChanges.step ?_ (wr32_frame _ _ _) (by decide)
      refine OnlyChanges.step ?_ (wr32_frame _ _ _) (by decide)
      assumption

theorem applyFrozen_frame (alt : Bool) (l : List (Nat × Nat)) (e : Ledger) (s : State) :
    sndAll (OnlyChanges [.mem] s) (applyFrozen alt l e s) := by
  unfold applyFrozen
  refine OnlyChanges.foldSnd ?_ (fun u0 y1 h2 => ?_)
  · refine sndAll_mk ?_
    exact OnlyChanges.refl _ _
  · extract_lets x3 x4 x5 x6
    have h7 : OnlyChanges [.mem] s x3 := by
      unfold x3
      show sndAll (OnlyChanges [.mem] s) _
      assumption
    clear_value x3 x4 x5 x6
    refine sndAll_mk ?_
    refine OnlyChanges.step ?_ (wr32_frame _ _ _) (by decide)
    refine OnlyChanges.step ?_ (wr32_frame _ _ _) (by decide)
    assumption

theorem skipEntry_frame (n : Nat) (s : State) :
    OnlyChanges [.cap] s (skipEntry n s) := by
  unfold skipEntry
  extract_lets x0 x1
  clear_value x0 x1
  refine OnlyChanges.step ?_ (setEntry_frame _ _ _) (by decide)
  exact OnlyChanges.refl _ _

theorem applySquare_frame (a : Armed) (n : Nat) (q : Nat) (s : State) :
    OnlyChanges [.cap, .watch, .host, .xing, .store, .mem, .near] s (applySquare a n q s) := by
  unfold applySquare
  extract_lets x0 x1 x2
  clear_value x0 x1 x2
  split
  · rename_i v3 v4 v5 v6
    refine absorb (P := sndAll (OnlyChanges [.cap, .watch, .host, .xing, .store, .mem, .near] s)) v6 ?_ (fun q7 => ?_)
    · split
      · rename_i v8
        refine OnlyChanges.stepSnd ?_ (applyFrozen_frame _ _ _ _) (by decide)
        exact OnlyChanges.refl _ _
      · rename_i v9
        refine OnlyChanges.stepSnd ?_ (applyTrained_frame _ _ _ _ _) (by decide)
        exact OnlyChanges.refl _ _
    extract_lets x10
    clear_value x10
    refine OnlyChanges.step ?_ (writeSquare_frame _ _ _ _ _ _) (by decide)
    refine OnlyChanges.step ?_ (setEntry_frame _ _ _) (by decide)
    assumption

theorem rimReads_frame (k : Nat) (r : Option RimUnit) (s : State) :
    OnlyChanges [.cap, .knots, .host, .xing, .freeCtr, .store, .rel, .mem] s (rimReads k r s) := by
  unfold rimReads
  refine elim_of (P := (OnlyChanges [.cap, .knots, .host, .xing, .freeCtr, .store, .rel, .mem] s)) ?_ (fun y0 => ?_)
  · exact OnlyChanges.refl _ _
  · refine OnlyChanges.step ?_ (rimFinds_frame _ _ _ _ _) (by decide)
    exact OnlyChanges.refl _ _

theorem passMeets_frame (k : Nat) (a : Armed) (e : Ledger) (q : Nat) (l : LaneFault) (s : State) :
    sndAll (OnlyChanges [.cap, .knots, .host, .xing, .freeCtr, .store, .rel, .mem, .near] s) (passMeets k a e q l s) := by
  unfold passMeets
  extract_lets x0 x1
  have h2 : ∀ a3 a4, OnlyChanges [.cap, .knots, .host, .xing, .freeCtr, .store, .rel, .mem, .near] s a4 → OnlyChanges [.cap, .knots, .host, .xing,
      .freeCtr, .store, .rel, .mem, .near] s (x0 a3 a4) := by
    intro b5 b6 k7
    unfold x0
    refine OnlyChanges.step ?_ (laneResidue_frame _ _ _ _ _ _ _) (by decide)
    assumption
  clear_value x0 x1
  split
  · rename_i v8
    refine sndAll_mk ?_
    exact OnlyChanges.refl _ _
  · rename_i v9
    refine sndAll_mk ?_
    apply h2
    · exact OnlyChanges.refl _ _
  · rename_i v10
    refine sndAll_mk ?_
    refine OnlyChanges.step ?_ (failCapstan_frame _ _) (by decide)
    apply h2
    · exact OnlyChanges.refl _ _
  · rename_i v11 v12
    extract_lets x13
    have h14 : OnlyChanges [.cap, .knots, .host, .xing, .freeCtr, .store, .rel, .mem, .near] s x13 := by
      unfold x13
      show sndAll (OnlyChanges [.cap, .knots, .host, .xing, .freeCtr, .store, .rel, .mem, .near] s) _
      refine OnlyChanges.stepSnd ?_ (parityMeets_frame _ _ _ _ _ _) (by decide)
      exact OnlyChanges.refl _ _
    clear_value x13
    refine sndAll_mk ?_
    assumption

theorem execApplyPass_frame (k : Nat) (l : LaneFault) (rim : Option RimUnit) (s : State) :
    outAll (OnlyChanges [.cap, .knots, .watch, .host, .xing, .freeCtr, .store, .rel, .mem, .near] s) (execApplyPass k l rim s) := by
  unfold execApplyPass
  split
  · rename_i v0 v1
    change OnlyChanges [.cap, .knots, .watch, .host, .xing, .freeCtr, .store, .rel, .mem, .near] s _
    exact OnlyChanges.refl _ _
  · rename_i v2 v3 v4
    split
    · rename_i v5
      change OnlyChanges [.cap, .knots, .watch, .host, .xing, .freeCtr, .store, .rel, .mem, .near] s _
      exact OnlyChanges.refl _ _
    · rename_i v6
      split
      · rename_i v7 v8
        change OnlyChanges [.cap, .knots, .watch, .host, .xing, .freeCtr, .store, .rel, .mem, .near] s _
        exact OnlyChanges.refl _ _
      · rename_i v9 v10 v11
        change OnlyChanges [.cap, .knots, .watch, .host, .xing, .freeCtr, .store, .rel, .mem, .near] s _
        refine OnlyChanges.step ?_ (skipEntry_frame _ _) (by decide)
        exact OnlyChanges.refl _ _
      · rename_i v12 v13 v14 v15
        split
        · rename_i v16
          change OnlyChanges [.cap, .knots, .watch, .host, .xing, .freeCtr, .store, .rel, .mem, .near] s _
          exact OnlyChanges.refl _ _
        · rename_i v17
          extract_lets x18
          have h19 : OnlyChanges [.cap, .knots, .watch, .host, .xing, .freeCtr, .store, .rel, .mem, .near] s x18 := by
            unfold x18
            refine OnlyChanges.step ?_ (rimReads_frame _ _ _) (by decide)
            exact OnlyChanges.refl _ _
          clear_value x18
          split
          · rename_i v20
            change OnlyChanges [.cap, .knots, .watch, .host, .xing, .freeCtr, .store, .rel, .mem, .near] s _
            assumption
          · rename_i v21
            split
            · rename_i v22 v23 v24
              refine absorb (P := sndAll (OnlyChanges [.cap, .knots, .watch, .host, .xing, .freeCtr, .store, .rel, .mem, .near] s)) v24 ?_ (fun q25
                  => ?_)
              · refine OnlyChanges.stepSnd ?_ (passMeets_frame _ _ _ _ _ _) (by decide)
                assumption
              change OnlyChanges [.cap, .knots, .watch, .host, .xing, .freeCtr, .store, .rel, .mem, .near] s _
              refine OnlyChanges.step ?_ (applySquare_frame _ _ _ _) (by decide)
              assumption
            · rename_i v26 v27 v28
              refine absorb (P := sndAll (OnlyChanges [.cap, .knots, .watch, .host, .xing, .freeCtr, .store, .rel, .mem, .near] s)) v28 ?_ (fun q29
                  => ?_)
              · refine OnlyChanges.stepSnd ?_ (passMeets_frame _ _ _ _ _ _) (by decide)
                assumption
              change OnlyChanges [.cap, .knots, .watch, .host, .xing, .freeCtr, .store, .rel, .mem, .near] s _
              assumption

theorem execCapstanConfirm_frame (k : Nat) (rim : Option RimUnit) (s : State) :
    outAll (OnlyChanges [.cap, .knots, .host, .xing, .freeCtr, .store, .rel, .mem] s) (execCapstanConfirm k rim s) := by
  unfold execCapstanConfirm
  split
  · rename_i v0 v1
    change OnlyChanges [.cap, .knots, .host, .xing, .freeCtr, .store, .rel, .mem] s _
    exact OnlyChanges.refl _ _
  · rename_i v2 v3 v4
    split
    · rename_i v5
      change OnlyChanges [.cap, .knots, .host, .xing, .freeCtr, .store, .rel, .mem] s _
      exact OnlyChanges.refl _ _
    · rename_i v6
      extract_lets x7
      have h8 : OnlyChanges [.cap, .knots, .host, .xing, .freeCtr, .store, .rel, .mem] s x7 := by
        unfold x7
        refine OnlyChanges.step ?_ (rimReads_frame _ _ _) (by decide)
        exact OnlyChanges.refl _ _
      clear_value x7
      split
      · rename_i v9
        change OnlyChanges [.cap, .knots, .host, .xing, .freeCtr, .store, .rel, .mem] s _
        refine OnlyChanges.step ?_ (setArmed_frame _ _) (by decide)
        refine OnlyChanges.step ?_ (parityPass_frame _ _) (by decide)
        assumption
      · rename_i v10
        change OnlyChanges [.cap, .knots, .host, .xing, .freeCtr, .store, .rel, .mem] s _
        assumption

theorem runStateLoad_frame (p : Packet) (step : W32) (s : State) :
    OnlyChanges [.cap, .watch, .host, .xing, .store, .mem, .near] s (runStateLoad p step s) := by
  unfold runStateLoad
  extract_lets x0 x1 x2
  clear_value x0 x1 x2
  refine OnlyChanges.ite ?_ ?_
  · refine OnlyChanges.step ?_ (refuse_frame _ _ _) (by decide)
    exact OnlyChanges.refl _ _
  · split
    · rename_i v3 v4 v5 v6
      refine absorb (P := sndAll (OnlyChanges [.cap, .watch, .host, .xing, .store, .mem, .near] s)) v6 ?_ (fun q7 => ?_)
      · refine OnlyChanges.stepSnd ?_ (engineRead_frame _ _ _ _ _) (by decide)
        exact OnlyChanges.refl _ _
      refine OnlyChanges.step ?_ (refuse_frame _ _ _) (by decide)
      assumption
    · rename_i v8 v9 v10 v11
      refine absorb (P := sndAll (OnlyChanges [.cap, .watch, .host, .xing, .store, .mem, .near] s)) v11 ?_ (fun q12 => ?_)
      · refine OnlyChanges.stepSnd ?_ (engineRead_frame _ _ _ _ _) (by decide)
        exact OnlyChanges.refl _ _
      extract_lets x13 x14
      have h15 : OnlyChanges [.cap, .watch, .host, .xing, .store, .mem, .near] s x13 := by
        unfold x13
        refine OnlyChanges.step ?_ (writeBytes_frame _ _ _) (by decide)
        refine OnlyChanges.step ?_ (writeBytes_frame _ _ _) (by decide)
        assumption
      have h16 : OnlyChanges [.cap, .watch, .host, .xing, .store, .mem, .near] s x14 := by
        unfold x14
        refine OnlyChanges.step ?_ (writeCopy_frame _ _ _ _ _) (by decide)
        refine OnlyChanges.step ?_ (writeCopy_frame _ _ _ _ _) (by decide)
        assumption
      clear_value x13 x14
      refine OnlyChanges.step ?_ (accept_frame _ _) (by decide)
      refine OnlyChanges.step ?_ (unsettle_frame _ _) (by decide)
      refine OnlyChanges.step ?_ (parityPass_frame _ _) (by decide)
      assumption

theorem opStateLoad_frame (p : Packet) (s : State) :
    OnlyChanges [.cap, .watch, .host, .xing, .store, .mem, .near] s (opStateLoad p s) := by
  unfold opStateLoad
  extract_lets x0 x1 x2
  clear_value x0 x1 x2
  refine OnlyChanges.ite ?_ ?_
  · refine OnlyChanges.step ?_ (refuse_frame _ _ _) (by decide)
    exact OnlyChanges.refl _ _
  · refine OnlyChanges.ite ?_ ?_
    · refine OnlyChanges.step ?_ (refuse_frame _ _ _) (by decide)
      exact OnlyChanges.refl _ _
    · refine OnlyChanges.ite ?_ ?_
      · refine OnlyChanges.step ?_ (refuse_frame _ _ _) (by decide)
        exact OnlyChanges.refl _ _
      · refine OnlyChanges.ite ?_ ?_
        · refine OnlyChanges.step ?_ (refuse_frame _ _ _) (by decide)
          exact OnlyChanges.refl _ _
        · refine OnlyChanges.ite ?_ ?_
          · refine only_cap ?_ _ (by decide)
            exact OnlyChanges.refl _ _
          · refine OnlyChanges.step ?_ (runStateLoad_frame _ _ _) (by decide)
            exact OnlyChanges.refl _ _

theorem runLoads_frame (s : State) :
    OnlyChanges [.cap, .watch, .host, .xing, .store, .mem, .near] s (runLoads s) := by
  unfold runLoads
  refine OnlyChanges.fold ?_ (fun u0 y1 h2 => ?_)
  · exact OnlyChanges.refl _ _
  · refine OnlyChanges.ite ?_ ?_
    · assumption
    · refine OnlyChanges.step ?_ (runStateLoad_frame _ _ _) (by decide)
      refine only_cap ?_ _ (by decide)
      assumption

theorem execPlayEnd_frame (org : Nat) (sh : Nat) (s : State) :
    outAll (OnlyChanges [.cap, .caches, .parting, .parts, .watch, .host, .xing, .ramp, .plays, .freeCtr, .removed, .store, .mem, .near] s)
        (execPlayEnd org sh s) := by
  unfold execPlayEnd
  change OnlyChanges [.cap, .caches, .parting, .parts, .watch, .host, .xing, .ramp, .plays, .freeCtr, .removed, .store, .mem, .near] s _
  refine OnlyChanges.step ?_ (runLoads_frame _) (by decide)
  refine OnlyChanges.step ?_ (playEnd_frame _ _ _) (by decide)
  exact OnlyChanges.refl _ _

theorem execCapstanFail_frame (k : Nat) (s : State) :
    outAll (OnlyChanges [.cap, .knots, .host, .xing, .freeCtr, .store, .rel, .mem] s) (execCapstanFail k s) := by
  unfold execCapstanFail
  split
  · rename_i v0
    change OnlyChanges [.cap, .knots, .host, .xing, .freeCtr, .store, .rel, .mem] s _
    exact OnlyChanges.refl _ _
  · rename_i v1
    change OnlyChanges [.cap, .knots, .host, .xing, .freeCtr, .store, .rel, .mem] s _
    refine OnlyChanges.step ?_ (failCapstan_frame _ _) (by decide)
    exact OnlyChanges.refl _ _

theorem execRebuildComplete_frame (k : Nat) (s : State) :
    outAll (OnlyChanges [.cap, .caches, .parts, .knots, .ports, .fields, .watch, .host, .xing, .ramp, .plays, .mesh, .exchanges, .freeCtr, .store,
        .rel, .mem, .near] s) (execRebuildComplete k s) := by
  unfold execRebuildComplete
  extract_lets x0
  clear_value x0
  split
  · rename_i v1
    change OnlyChanges [.cap, .caches, .parts, .knots, .ports, .fields, .watch, .host, .xing, .ramp, .plays, .mesh, .exchanges, .freeCtr, .store,
        .rel, .mem, .near] s _
    refine OnlyChanges.step ?_ (pumpAll_frame _) (by decide)
    refine OnlyChanges.step ?_ (unsettleCap_frame _ _) (by decide)
    refine OnlyChanges.step ?_ (record_frame _ _ _ _ _ _ _ _ _ _) (by decide)
    refine OnlyChanges.step ?_ (setCapstan_frame _ _ _) (by decide)
    exact OnlyChanges.refl _ _
  · rename_i v2
    change OnlyChanges [.cap, .caches, .parts, .knots, .ports, .fields, .watch, .host, .xing, .ramp, .plays, .mesh, .exchanges, .freeCtr, .store,
        .rel, .mem, .near] s _
    exact OnlyChanges.refl _ _

theorem logStep_frame (p : Packet) (order : Nat) (s : State) :
    OnlyChanges [.cap] s (logStep p order s) := by
  unfold logStep
  split
  · rename_i v0 v1
    exact OnlyChanges.refl _ _
  · rename_i v2 v3 v4
    refine OnlyChanges.ite ?_ ?_
    · exact OnlyChanges.refl _ _
    · refine OnlyChanges.ite ?_ ?_
      · refine only_cap ?_ _ (by decide)
        exact OnlyChanges.refl _ _
      · refine only_cap ?_ _ (by decide)
        exact OnlyChanges.refl _ _

theorem opCommitArm_frame (p : Packet) (replay : Bool) (s : State) :
    OnlyChanges [.cap, .host, .xing, .store] s (opCommitArm p replay s) := by
  unfold opCommitArm
  extract_lets x0 x1 x2 x3 x4
  clear_value x0 x1 x2 x3 x4
  refine OnlyChanges.ite ?_ ?_
  · refine OnlyChanges.step ?_ (refuse_frame _ _ _) (by decide)
    exact OnlyChanges.refl _ _
  · refine OnlyChanges.ite ?_ ?_
    · refine OnlyChanges.step ?_ (refuse_frame _ _ _) (by decide)
      exact OnlyChanges.refl _ _
    · refine OnlyChanges.ite ?_ ?_
      · refine OnlyChanges.step ?_ (refuse_frame _ _ _) (by decide)
        exact OnlyChanges.refl _ _
      · refine only_cap ?_ _ (by decide)
        exact OnlyChanges.refl _ _

theorem atFire_frame {l : List Part} {s t : State} {p : Packet} {cls order : Nat} {op : Packet → State → State} (hs : OnlyChanges l s t)
    (hl : ∀ p ∈ [Part.sched], p ∈ l) (ha : OnlyChanges l s (op p t)) : OnlyChanges l s (atFire p cls order op t) := by
  unfold atFire
  split
  · exact only_sched hs _ hl
  · exact ha

theorem runStep_frame (p : Packet) (order : Nat) (replay : Bool) (s : State) :
    OnlyChanges [.cap, .colls, .barriers, .knots, .host, .sched, .xing, .plays, .exchanges, .store, .mem] s (runStep p order replay s) := by
  unfold runStep
  split
  · rename_i v0 v1
    refine OnlyChanges.step ?_ (opPlayFire_frame _ _ _) (by decide)
    exact OnlyChanges.refl _ _
  · rename_i v2 v3
    refine OnlyChanges.step ?_ (opCommitArm_frame _ _ _) (by decide)
    exact OnlyChanges.refl _ _
  · rename_i v4 v5
    refine atFire_frame ?_ (by decide) ?_
    · exact OnlyChanges.refl _ _
    · refine OnlyChanges.step ?_ (opCollFire_frame _ _) (by decide)
      exact OnlyChanges.refl _ _
  · rename_i v6 v7
    refine OnlyChanges.step ?_ (opBarrier_frame _ _) (by decide)
    exact OnlyChanges.refl _ _
  · rename_i v8 v9
    refine atFire_frame ?_ (by decide) ?_
    · exact OnlyChanges.refl _ _
    · refine OnlyChanges.step ?_ (opXchSet_frame _ _) (by decide)
      exact OnlyChanges.refl _ _
  · rename_i v10 v11 v12 v13 v14 v15
    exact OnlyChanges.refl _ _

theorem dispatchStep_frame (p : Packet) (s : State) :
    OnlyChanges [.cap, .colls, .barriers, .knots, .host, .sched, .xing, .plays, .exchanges, .store, .arrivals, .mem] s (dispatchStep p s) := by
  unfold dispatchStep
  extract_lets x0 x1
  clear_value x0 x1
  refine OnlyChanges.step ?_ (runStep_frame _ _ _ _) (by decide)
  refine OnlyChanges.step ?_ (logStep_frame _ _ _) (by decide)
  refine only_arrivals ?_ _ (by decide)
  exact OnlyChanges.refl _ _

theorem tellMembers_frame (a : Armed) (items : List Nat) (s : State) :
    OnlyChanges [.ports, .host, .xing, .store] s (tellMembers a items s) := by
  unfold tellMembers
  refine OnlyChanges.step ?_ (sendControl_frame _ _ _ _ _ _) (by decide)
  exact OnlyChanges.refl _ _

theorem execReadySend_frame (s : State) :
    outAll (OnlyChanges [.cap, .ports, .host, .xing, .store] s) (execReadySend s) := by
  unfold execReadySend
  split
  · rename_i v0 v1
    change OnlyChanges [.cap, .ports, .host, .xing, .store] s _
    exact OnlyChanges.refl _ _
  · rename_i v2 v3 v4
    split
    · rename_i v5
      change OnlyChanges [.cap, .ports, .host, .xing, .store] s _
      refine OnlyChanges.step ?_ (tellMembers_frame _ _ _) (by decide)
      refine OnlyChanges.step ?_ (setArmed_frame _ _) (by decide)
      exact OnlyChanges.refl _ _
    · rename_i v6
      change OnlyChanges [.cap, .ports, .host, .xing, .store] s _
      exact OnlyChanges.refl _ _

theorem execCommitVote_frame (s : State) :
    outAll (OnlyChanges [.cap, .ports, .host, .xing, .store, .cad] s) (execCommitVote s) := by
  unfold execCommitVote
  split
  · rename_i v0 v1
    change OnlyChanges [.cap, .ports, .host, .xing, .store, .cad] s _
    exact OnlyChanges.refl _ _
  · rename_i v2 v3 v4
    split
    · rename_i v5
      change OnlyChanges [.cap, .ports, .host, .xing, .store, .cad] s _
      exact OnlyChanges.refl _ _
    · rename_i v6
      split
      · rename_i v7 v8
        refine absorb (P := optAll (OnlyChanges [.cap, .ports, .host, .xing, .store, .cad] s)) v8 ?_ (fun q9 => ?_)
        · refine OnlyChanges.stepOpt ?_ (timeTo_frame _ _) (by decide)
          exact OnlyChanges.refl _ _
        change OnlyChanges [.cap, .ports, .host, .xing, .store, .cad] s _
        exact OnlyChanges.refl _ _
      · rename_i v10 v11 v12
        refine absorb (P := optAll (OnlyChanges [.cap, .ports, .host, .xing, .store, .cad] s)) v12 ?_ (fun q13 => ?_)
        · refine OnlyChanges.stepOpt ?_ (timeTo_frame _ _) (by decide)
          exact OnlyChanges.refl _ _
        extract_lets x14
        clear_value x14
        change OnlyChanges [.cap, .ports, .host, .xing, .store, .cad] s _
        refine OnlyChanges.step ?_ (tellMembers_frame _ _ _) (by decide)
        refine OnlyChanges.step ?_ (setArmed_frame _ _) (by decide)
        assumption

theorem keepEarly_frame (c : Control) (step : W32) (s : State) :
    OnlyChanges [.cap] s (keepEarly c step s) := by
  unfold keepEarly
  refine OnlyChanges.ite ?_ ?_
  · refine only_cap ?_ _ (by decide)
    exact OnlyChanges.refl _ _
  · exact OnlyChanges.refl _ _

theorem takeArmed_frame (c : Control) (t : W32) (s : State) :
    OnlyChanges [.cap] s (takeArmed c t s) := by
  unfold takeArmed
  split
  · rename_i v0 v1 v2
    refine OnlyChanges.ite ?_ ?_
    · refine OnlyChanges.step ?_ (setArmed_frame _ _) (by decide)
      exact OnlyChanges.refl _ _
    · refine OnlyChanges.step ?_ (keepEarly_frame _ _ _) (by decide)
      exact OnlyChanges.refl _ _
  · rename_i v3 v4
    refine OnlyChanges.step ?_ (keepEarly_frame _ _ _) (by decide)
    exact OnlyChanges.refl _ _

theorem takeControl_frame (c : Control) (s : State) :
    OnlyChanges [.cap, .barriers] s (takeControl c s) := by
  unfold takeControl
  split
  · rename_i v0 v1 v2
    split
    · rename_i v3 v4 v5
      refine OnlyChanges.step ?_ (arrive_frame _ _ _) (by decide)
      exact OnlyChanges.refl _ _
    · rename_i v6 v7
      refine only_cap ?_ _ (by decide)
      exact OnlyChanges.refl _ _
  · rename_i v8 v9 v10 v11
    split
    · rename_i v12 v13 v14
      refine OnlyChanges.ite ?_ ?_
      · refine only_cap ?_ _ (by decide)
        exact OnlyChanges.refl _ _
      · refine OnlyChanges.step ?_ (keepEarly_frame _ _ _) (by decide)
        exact OnlyChanges.refl _ _
    · rename_i v15 v16
      refine OnlyChanges.step ?_ (keepEarly_frame _ _ _) (by decide)
      exact OnlyChanges.refl _ _
  · rename_i v17 v18 v19 v20
    split
    · rename_i v21 v22 v23
      refine OnlyChanges.ite ?_ ?_
      · refine only_cap ?_ _ (by decide)
        exact OnlyChanges.refl _ _
      · refine OnlyChanges.step ?_ (takeArmed_frame _ _ _) (by decide)
        exact OnlyChanges.refl _ _
    · rename_i v24 v25
      refine OnlyChanges.step ?_ (takeArmed_frame _ _ _) (by decide)
      exact OnlyChanges.refl _ _
  · rename_i v26 v27 v28
    refine OnlyChanges.step ?_ (takeArmed_frame _ _ _) (by decide)
    exact OnlyChanges.refl _ _
  · rename_i v29 v30 v31 v32
    refine OnlyChanges.step ?_ (takeArmed_frame _ _ _) (by decide)
    exact OnlyChanges.refl _ _

theorem execControlPacket_frame (c : Control) (t : Transit) (s : State) :
    outAll (OnlyChanges [.cap, .barriers, .knots, .ports, .host, .xing, .freeCtr, .store, .rel, .mem, .near] s) (execControlPacket c t s) := by
  unfold execControlPacket
  split
  · rename_i v0 v1
    refine absorb (P := optAll (OnlyChanges [.cap, .barriers, .knots, .ports, .host, .xing, .freeCtr, .store, .rel, .mem, .near] s)) v1 ?_ (fun q2
        => ?_)
    · refine OnlyChanges.stepOpt ?_ (freeRx_frame _ _) (by decide)
      exact OnlyChanges.refl _ _
    change OnlyChanges [.cap, .barriers, .knots, .ports, .host, .xing, .freeCtr, .store, .rel, .mem, .near] s _
    exact OnlyChanges.refl _ _
  · rename_i v3 v4 v5
    refine absorb (P := optAll (OnlyChanges [.cap, .barriers, .knots, .ports, .host, .xing, .freeCtr, .store, .rel, .mem, .near] s)) v5 ?_ (fun q6
        => ?_)
    · refine OnlyChanges.stepOpt ?_ (freeRx_frame _ _) (by decide)
      exact OnlyChanges.refl _ _
    split
    · rename_i v7
      change OnlyChanges [.cap, .barriers, .knots, .ports, .host, .xing, .freeCtr, .store, .rel, .mem, .near] s _
      assumption
    · rename_i v8
      split
      · rename_i v9
        change OnlyChanges [.cap, .barriers, .knots, .ports, .host, .xing, .freeCtr, .store, .rel, .mem, .near] s _
        refine OnlyChanges.step ?_ (takeControl_frame _ _) (by decide)
        assumption
      · rename_i v10 v11 v12
        change OnlyChanges [.cap, .barriers, .knots, .ports, .host, .xing, .freeCtr, .store, .rel, .mem, .near] s _
        refine OnlyChanges.step ?_ (xingRecord_frame _ _ _ _) (by decide)
        assumption
      · rename_i v13 v14 v15
        split
        · rename_i v16 v17 v18 v19
          refine absorb (P := sndAll (OnlyChanges [.cap, .barriers, .knots, .ports, .host, .xing, .freeCtr, .store, .rel, .mem, .near] s)) v19 ?_
              (fun q20 => ?_)
          · refine OnlyChanges.stepSnd ?_ (parityMeets_frame _ _ _ _ _ _) (by decide)
            assumption
          change OnlyChanges [.cap, .barriers, .knots, .ports, .host, .xing, .freeCtr, .store, .rel, .mem, .near] s _
          refine OnlyChanges.ite ?_ ?_
          · assumption
          · refine OnlyChanges.step ?_ (takeControl_frame _ _) (by decide)
            assumption

theorem loseOutcome_frame (n : Nat) (s : State) :
    OnlyChanges [.cap] s (loseOutcome n s) := by
  unfold loseOutcome
  split
  · rename_i v0 v1 v2
    refine OnlyChanges.ite ?_ ?_
    · refine only_cap ?_ _ (by decide)
      exact OnlyChanges.refl _ _
    · exact OnlyChanges.refl _ _
  · rename_i v3 v4
    exact OnlyChanges.refl _ _

theorem raiseSplit_frame (w : Window) (s : State) :
    OnlyChanges [.cap, .host, .xing, .store] s (raiseSplit w s) := by
  unfold raiseSplit
  refine OnlyChanges.ite ?_ ?_
  · refine OnlyChanges.step ?_ (postStep_frame _ _ _ _) (by decide)
    refine only_cap ?_ _ (by decide)
    exact OnlyChanges.refl _ _
  · exact OnlyChanges.refl _ _

theorem closeWindow_frame (s : State) :
    OnlyChanges [.cap, .caches, .parts, .knots, .ports, .fields, .watch, .host, .xing, .ramp, .plays, .mesh, .exchanges, .freeCtr, .store, .rel,
        .mem, .near] s (closeWindow s) := by
  unfold closeWindow
  split
  · rename_i v0 v1
    exact OnlyChanges.refl _ _
  · rename_i v2 v3 v4
    extract_lets x5 x6 x7 x8
    have h9 : OnlyChanges [.cap, .caches, .parts, .knots, .ports, .fields, .watch, .host, .xing, .ramp, .plays, .mesh, .exchanges, .freeCtr, .store,
        .rel, .mem, .near] s x5 := by
      unfold x5
      refine OnlyChanges.step ?_ (raiseSplit_frame _ _) (by decide)
      exact OnlyChanges.refl _ _
    have h10 : OnlyChanges [.cap, .caches, .parts, .knots, .ports, .fields, .watch, .host, .xing, .ramp, .plays, .mesh, .exchanges, .freeCtr,
        .store, .rel, .mem, .near] s x6 := by
      unfold x6
      refine OnlyChanges.ite ?_ ?_
      · refine OnlyChanges.step ?_ (evaluate_frame _ _ _ _) (by decide)
        assumption
      · assumption
    clear_value x5 x6 x7 x8
    refine OnlyChanges.step ?_ (pumpAll_frame _) (by decide)
    refine OnlyChanges.step ?_ (takeHeld_frame _) (by decide)
    refine only_cap ?_ _ (by decide)
    assumption

theorem execCommitSplit_frame (s : State) : outAll (OnlyChanges [.cap, .host, .xing, .store, .cad] s) (execCommitSplit s) := by
  have key (e : CtWord) (t : State) (h : timeTo e s = some t) : OnlyChanges [.cap, .host, .xing, .store, .cad] s t := by
    have k := timeTo_frame e s
    rw [h] at k
    exact k.mono (by decide)
  unfold execCommitSplit
  split
  · exact OnlyChanges.refl _ _
  · split
    · exact OnlyChanges.refl _ _
    · split
      · rename_i h
        exact OnlyChanges.step (key _ _ h) (raiseSplit_frame _ _) (by decide)
      · exact OnlyChanges.refl _ _

theorem execOutcomeWindowClose_frame (s : State) : outAll (OnlyChanges [.cap, .caches, .parts, .knots, .ports, .fields, .watch, .host, .xing, .ramp,
    .plays, .mesh, .exchanges, .freeCtr, .store, .cad, .rel, .mem, .near] s) (execOutcomeWindowClose s) := by
  have key (e : CtWord) (t : State) (h : timeTo e s = some t) : OnlyChanges [.cap, .caches, .parts, .knots, .ports, .fields, .watch, .host, .xing,
      .ramp, .plays, .mesh, .exchanges, .freeCtr, .store, .cad, .rel, .mem, .near] s t := by
    have k := timeTo_frame e s
    rw [h] at k
    exact k.mono (by decide)
  unfold execOutcomeWindowClose
  split
  · exact OnlyChanges.refl _ _
  · split
    · exact OnlyChanges.refl _ _
    · split
      · rename_i h
        exact OnlyChanges.step (key _ _ h) (closeWindow_frame _) (by decide)
      · exact OnlyChanges.refl _ _

theorem openWindow_frame (a : Armed) (committed : Bool) (s : State) :
    OnlyChanges [.cap, .ports, .host, .xing, .store] s (openWindow a committed s) := by
  unfold openWindow
  extract_lets x0 x1 x2 x3
  have h4 : OnlyChanges [.cap, .ports, .host, .xing, .store] s x1 := by
    unfold x1
    refine OnlyChanges.step ?_ (tellMembers_frame _ _ _) (by decide)
    exact OnlyChanges.refl _ _
  clear_value x0 x1 x2 x3
  refine only_cap ?_ _ (by decide)
  assumption

theorem commitReply_frame (a : Armed) (n : Nat) (st : BitVec 16) (replied : Bool) (s : State) :
    OnlyChanges [.cap, .host, .xing, .store] s (commitReply a n st replied s) := by
  unfold commitReply
  refine OnlyChanges.ite ?_ ?_
  · refine OnlyChanges.step ?_ (postFull_frame _ _ _ _ _ _ _) (by decide)
    exact OnlyChanges.refl _ _
  · refine OnlyChanges.step ?_ (stepReply_frame _ _ _ _ _ _ _ _ _ _ _) (by decide)
    exact OnlyChanges.refl _ _

theorem mapLedger_frame (f : Ledger → Ledger) (s : State) :
    OnlyChanges [.cap] s (mapLedger f s) := by
  unfold mapLedger
  refine only_cap ?_ _ (by decide)
  exact OnlyChanges.refl _ _

theorem clearLost_frame (s : State) :
    OnlyChanges [.cap] s (clearLost s) := by
  unfold clearLost
  refine only_cap ?_ _ (by decide)
  exact OnlyChanges.refl _ _

theorem dropStep_frame (step : W32) (s : State) :
    OnlyChanges [.cap, .colls, .mesh, .exchanges] s (dropStep step s) := by
  unfold dropStep
  extract_lets x0 x1 x2 x3
  have h4 : OnlyChanges [.cap, .colls, .mesh, .exchanges] s x1 := by
    unfold x1
    refine OnlyChanges.step ?_ (clearLost_frame _) (by decide)
    refine OnlyChanges.step ?_ (mapLedger_frame _ _) (by decide)
    exact OnlyChanges.refl _ _
  have h5 : OnlyChanges [.cap, .colls, .mesh, .exchanges] s x2 := by
    unfold x2
    refine OnlyChanges.step ?_ (mapSlotsC_frame _ _) (by decide)
    refine OnlyChanges.step ?_ (dropExchanges_frame _ _) (by decide)
    assumption
  clear_value x0 x1 x2 x3
  refine only_cap_mesh ?_ _ _ (by decide)
  assumption

theorem stopSteps_frame (lo : Nat) (hi : Nat) (s : State) :
    OnlyChanges [.barriers, .sched, .plays] s (stopSteps lo hi s) := by
  unfold stopSteps
  extract_lets x0
  clear_value x0
  refine only_sched_plays_barriers ?_ _ _ _ (by decide)
  exact OnlyChanges.refl _ _

theorem shiftHigher_frame (hi : Nat) (d : CtWord) (s : State) :
    OnlyChanges [.barriers, .sched, .plays] s (shiftHigher hi d s) := by
  unfold shiftHigher
  extract_lets x0 x1
  clear_value x0 x1
  refine only_sched_plays_barriers ?_ _ _ _ (by decide)
  exact OnlyChanges.refl _ _

theorem redispatch_frame (s : State) (l : Logged) :
    OnlyChanges [.cap, .colls, .barriers, .knots, .host, .sched, .xing, .plays, .exchanges, .store, .arrivals, .mem] s (redispatch s l) := by
  unfold redispatch
  extract_lets x0 x1 x2 x3 x4
  clear_value x0 x1 x2 x3 x4
  refine OnlyChanges.step ?_ (runStep_frame _ _ _ _) (by decide)
  refine only_arrivals_cap ?_ _ _ (by decide)
  exact OnlyChanges.refl _ _

theorem replaySteps_frame (a : Armed) (hi : Nat) (s : State) :
    OnlyChanges [.cap, .colls, .barriers, .knots, .host, .sched, .xing, .plays, .mesh, .exchanges, .store, .arrivals, .mem] s (replaySteps a hi s)
        := by
  unfold replaySteps
  extract_lets x0 x1 x2 x3 x4 x5 x6 x7
  have h8 : OnlyChanges [.cap, .colls, .barriers, .knots, .host, .sched, .xing, .plays, .mesh, .exchanges, .store, .arrivals, .mem] s x3 := by
    unfold x3
    refine OnlyChanges.step ?_ (dropStep_frame _ _) (by decide)
    refine OnlyChanges.step ?_ (shiftHigher_frame _ _ _) (by decide)
    refine OnlyChanges.step ?_ (stopSteps_frame _ _ _) (by decide)
    exact OnlyChanges.refl _ _
  have h9 : OnlyChanges [.cap, .colls, .barriers, .knots, .host, .sched, .xing, .plays, .mesh, .exchanges, .store, .arrivals, .mem] s x5 := by
    unfold x5
    refine only_cap ?_ _ (by decide)
    assumption
  have h10 : OnlyChanges [.cap, .colls, .barriers, .knots, .host, .sched, .xing, .plays, .mesh, .exchanges, .store, .arrivals, .mem] s x6 := by
    unfold x6
    refine OnlyChanges.step ?_ (postStep_frame _ _ _ _) (by decide)
    assumption
  clear_value x0 x1 x2 x3 x4 x5 x6 x7
  refine OnlyChanges.fold ?_ (fun u11 y12 h13 => ?_)
  · assumption
  · refine OnlyChanges.step ?_ (redispatch_frame _ _) (by decide)
    assumption

theorem stopForGood_frame (lo : Nat) (s : State) :
    OnlyChanges [.barriers, .sched, .plays] s (stopForGood lo s) := by
  unfold stopForGood
  extract_lets x0
  clear_value x0
  refine only_sched_plays_barriers ?_ _ _ _ (by decide)
  exact OnlyChanges.refl _ _

theorem abortStep_frame (a : Armed) (hi : Nat) (n : Nat) (replied : Bool) (s : State) :
    OnlyChanges [.cap, .colls, .barriers, .knots, .host, .sched, .xing, .plays, .mesh, .exchanges, .store, .arrivals, .mem] s (abortStep a hi n
        replied s) := by
  unfold abortStep
  extract_lets x0 x1 x2 x3 x4
  have h5 : OnlyChanges [.cap, .colls, .barriers, .knots, .host, .sched, .xing, .plays, .mesh, .exchanges, .store, .arrivals, .mem] s x1 := by
    unfold x1
    refine only_cap ?_ _ (by decide)
    exact OnlyChanges.refl _ _
  have h6 : OnlyChanges [.cap, .colls, .barriers, .knots, .host, .sched, .xing, .plays, .mesh, .exchanges, .store, .arrivals, .mem] s x3 := by
    unfold x3
    refine OnlyChanges.step ?_ (commitReply_frame _ _ _ _ _) (by decide)
    refine OnlyChanges.step ?_ (dropStep_frame _ _) (by decide)
    refine OnlyChanges.step ?_ (stopForGood_frame _ _) (by decide)
    assumption
  clear_value x0 x1 x2 x3 x4
  refine OnlyChanges.ite ?_ ?_
  · refine only_cap ?_ _ (by decide)
    assumption
  · refine OnlyChanges.step ?_ (replaySteps_frame _ _ _) (by decide)
    assumption

theorem loseSnaps_frame (s : State) :
    OnlyChanges [.cap, .freeCtr] s (loseSnaps s) := by
  unfold loseSnaps
  extract_lets x0 x1
  clear_value x0 x1
  refine OnlyChanges.ite ?_ ?_
  · exact OnlyChanges.refl _ _
  · refine only_cap_freeCtr ?_ _ _ (by decide)
    exact OnlyChanges.refl _ _

theorem dropCopies_frame (s : State) :
    OnlyChanges [.caches] s (dropCopies s) := by
  unfold dropCopies
  refine OnlyChanges.step ?_ (dropLines_frame _ _) (by decide)
  exact OnlyChanges.refl _ _

theorem commitStep_frame (a : Armed) (s : State) :
    OnlyChanges [.cap, .colls, .caches, .barriers, .parts, .knots, .ports, .fields, .watch, .host, .sched, .xing, .ramp, .plays, .mesh, .exchanges,
        .freeCtr, .store, .arrivals, .rel, .mem, .near] s (commitStep a s) := by
  unfold commitStep
  extract_lets x0 x1 x2 x3 x4 x5 x6 x7 x8 x9 x10 x11 x12
  have h13 : OnlyChanges [.cap, .colls, .caches, .barriers, .parts, .knots, .ports, .fields, .watch, .host, .sched, .xing, .ramp, .plays, .mesh,
      .exchanges, .freeCtr, .store, .arrivals, .rel, .mem, .near] s x2 := by
    unfold x2
    refine OnlyChanges.step ?_ (openWindow_frame _ _ _) (by decide)
    refine OnlyChanges.step ?_ (closeWindow_frame _) (by decide)
    exact OnlyChanges.refl _ _
  have h14 : OnlyChanges [.cap, .colls, .caches, .barriers, .parts, .knots, .ports, .fields, .watch, .host, .sched, .xing, .ramp, .plays, .mesh,
      .exchanges, .freeCtr, .store, .arrivals, .rel, .mem, .near] s x4 := by
    unfold x4
    refine OnlyChanges.step ?_ (mapLedger_frame _ _) (by decide)
    refine OnlyChanges.step ?_ (clearLost_frame _) (by decide)
    refine OnlyChanges.step ?_ (loseSnaps_frame _) (by decide)
    assumption
  have h15 : OnlyChanges [.cap, .colls, .caches, .barriers, .parts, .knots, .ports, .fields, .watch, .host, .sched, .xing, .ramp, .plays, .mesh,
      .exchanges, .freeCtr, .store, .arrivals, .rel, .mem, .near] s x6 := by
    unfold x6
    refine OnlyChanges.ite ?_ ?_
    · assumption
    · refine OnlyChanges.step ?_ (dropCopies_frame _) (by decide)
      refine only_cap ?_ _ (by decide)
      assumption
  have h16 : OnlyChanges [.cap, .colls, .caches, .barriers, .parts, .knots, .ports, .fields, .watch, .host, .sched, .xing, .ramp, .plays, .mesh,
      .exchanges, .freeCtr, .store, .arrivals, .rel, .mem, .near] s x7 := by
    unfold x7
    refine OnlyChanges.step ?_ (mapSlotsC_frame _ _) (by decide)
    refine OnlyChanges.step ?_ (endExchanges_frame _ _) (by decide)
    refine OnlyChanges.step ?_ (closeCounts_frame _) (by decide)
    assumption
  have h17 : OnlyChanges [.cap, .colls, .caches, .barriers, .parts, .knots, .ports, .fields, .watch, .host, .sched, .xing, .ramp, .plays, .mesh,
      .exchanges, .freeCtr, .store, .arrivals, .rel, .mem, .near] s x10 := by
    unfold x10
    refine only_cap_watch ?_ _ _ (by decide)
    assumption
  have h18 : OnlyChanges [.cap, .colls, .caches, .barriers, .parts, .knots, .ports, .fields, .watch, .host, .sched, .xing, .ramp, .plays, .mesh,
      .exchanges, .freeCtr, .store, .arrivals, .rel, .mem, .near] s x11 := by
    unfold x11
    refine OnlyChanges.step ?_ (commitReply_frame _ _ _ _ _) (by decide)
    assumption
  clear_value x0 x1 x2 x3 x4 x5 x6 x7 x8 x9 x10 x11 x12
  refine OnlyChanges.fold ?_ (fun u19 y20 h21 => ?_)
  · assumption
  · refine OnlyChanges.step ?_ (redispatch_frame _ _) (by decide)
    assumption

theorem abortAtCp_frame (a : Armed) (s : State) :
    OnlyChanges [.cap, .colls, .caches, .barriers, .parts, .knots, .ports, .fields, .watch, .host, .sched, .xing, .ramp, .plays, .mesh, .exchanges,
        .freeCtr, .store, .arrivals, .rel, .mem, .near] s (abortAtCp a s) := by
  unfold abortAtCp
  refine OnlyChanges.step ?_ (abortStep_frame _ _ _ _ _) (by decide)
  refine OnlyChanges.step ?_ (dropOpen_frame _) (by decide)
  refine OnlyChanges.step ?_ (openWindow_frame _ _ _) (by decide)
  refine OnlyChanges.step ?_ (closeWindow_frame _) (by decide)
  exact OnlyChanges.refl _ _

theorem commitPoint_frame (s : State) :
    OnlyChanges [.cap, .colls, .caches, .barriers, .parts, .knots, .ports, .fields, .watch, .host, .sched, .xing, .ramp, .plays, .mesh, .exchanges,
        .freeCtr, .store, .arrivals, .rel, .mem, .near] s (commitPoint s) := by
  unfold commitPoint
  split
  · rename_i v0 v1
    exact OnlyChanges.refl _ _
  · rename_i v2 v3 v4
    refine OnlyChanges.ite ?_ ?_
    · exact OnlyChanges.refl _ _
    · refine OnlyChanges.ite ?_ ?_
      · refine OnlyChanges.step ?_ (commitStep_frame _ _) (by decide)
        exact OnlyChanges.refl _ _
      · refine OnlyChanges.step ?_ (abortAtCp_frame _ _) (by decide)
        exact OnlyChanges.refl _ _

theorem execCommit_frame (s : State) :
    outAll (OnlyChanges [.cap, .colls, .caches, .barriers, .parts, .knots, .ports, .fields, .watch, .host, .sched, .xing, .ramp, .plays, .mesh,
        .exchanges, .freeCtr, .store, .cad, .arrivals, .rel, .mem, .near] s) (execCommit s) := by
  unfold execCommit
  split
  · rename_i v0 v1
    change OnlyChanges [.cap, .colls, .caches, .barriers, .parts, .knots, .ports, .fields, .watch, .host, .sched, .xing, .ramp, .plays, .mesh,
        .exchanges, .freeCtr, .store, .cad, .arrivals, .rel, .mem, .near] s _
    exact OnlyChanges.refl _ _
  · rename_i v2 v3 v4
    split
    · rename_i v5
      change OnlyChanges [.cap, .colls, .caches, .barriers, .parts, .knots, .ports, .fields, .watch, .host, .sched, .xing, .ramp, .plays, .mesh,
          .exchanges, .freeCtr, .store, .cad, .arrivals, .rel, .mem, .near] s _
      exact OnlyChanges.refl _ _
    · rename_i v6
      split
      · rename_i v7 v8 v9
        refine absorb (P := optAll (OnlyChanges [.cap, .colls, .caches, .barriers, .parts, .knots, .ports, .fields, .watch, .host, .sched, .xing,
            .ramp, .plays, .mesh, .exchanges, .freeCtr, .store, .cad, .arrivals, .rel, .mem, .near] s)) v9 ?_ (fun q10 => ?_)
        · refine OnlyChanges.stepOpt ?_ (comeTo_frame _ _ _) (by decide)
          exact OnlyChanges.refl _ _
        change OnlyChanges [.cap, .colls, .caches, .barriers, .parts, .knots, .ports, .fields, .watch, .host, .sched, .xing, .ramp, .plays, .mesh,
            .exchanges, .freeCtr, .store, .cad, .arrivals, .rel, .mem, .near] s _
        refine OnlyChanges.step ?_ (commitPoint_frame _) (by decide)
        assumption
      · rename_i v11 v12
        refine absorb (P := optAll (OnlyChanges [.cap, .colls, .caches, .barriers, .parts, .knots, .ports, .fields, .watch, .host, .sched, .xing,
            .ramp, .plays, .mesh, .exchanges, .freeCtr, .store, .cad, .arrivals, .rel, .mem, .near] s)) v12 ?_ (fun q13 => ?_)
        · refine OnlyChanges.stepOpt ?_ (comeTo_frame _ _ _) (by decide)
          exact OnlyChanges.refl _ _
        change OnlyChanges [.cap, .colls, .caches, .barriers, .parts, .knots, .ports, .fields, .watch, .host, .sched, .xing, .ramp, .plays, .mesh,
            .exchanges, .freeCtr, .store, .cad, .arrivals, .rel, .mem, .near] s _
        exact OnlyChanges.refl _ _

theorem retractStep_frame (w : Window) (s : State) :
    OnlyChanges [.cap, .colls, .caches, .barriers, .knots, .watch, .host, .sched, .xing, .plays, .mesh, .exchanges, .store, .arrivals, .mem] s
        (retractStep w s) := by
  unfold retractStep
  extract_lets x0 x1 x2 x3 x4 x5 x6
  have h7 : OnlyChanges [.cap, .colls, .caches, .barriers, .knots, .watch, .host, .sched, .xing, .plays, .mesh, .exchanges, .store, .arrivals, .mem]
      s x2 := by
    unfold x2
    refine OnlyChanges.ite ?_ ?_
    · exact OnlyChanges.refl _ _
    · refine OnlyChanges.step ?_ (dropCopies_frame _) (by decide)
      refine only_cap ?_ _ (by decide)
      exact OnlyChanges.refl _ _
  have h8 : OnlyChanges [.cap, .colls, .caches, .barriers, .knots, .watch, .host, .sched, .xing, .plays, .mesh, .exchanges, .store, .arrivals, .mem]
      s x5 := by
    unfold x5
    refine only_cap_watch ?_ _ _ (by decide)
    assumption
  have h9 : OnlyChanges [.cap, .colls, .caches, .barriers, .knots, .watch, .host, .sched, .xing, .plays, .mesh, .exchanges, .store, .arrivals, .mem]
      s x6 := by
    unfold x6
    refine OnlyChanges.step ?_ (postStep_frame _ _ _ _) (by decide)
    refine OnlyChanges.step ?_ (dropBoth_frame _) (by decide)
    refine OnlyChanges.step ?_ (mapLedger_frame _ _) (by decide)
    assumption
  clear_value x0 x1 x2 x3 x4 x5 x6
  refine OnlyChanges.step ?_ (abortStep_frame _ _ _ _ _) (by decide)
  assumption

theorem execCommitRetract_frame (m : Nat) (s : State) :
    outAll (OnlyChanges [.cap, .colls, .caches, .barriers, .knots, .watch, .host, .sched, .xing, .plays, .mesh, .exchanges, .store, .arrivals, .mem]
        s) (execCommitRetract m s) := by
  unfold execCommitRetract
  split
  · rename_i v0 v1
    change OnlyChanges [.cap, .colls, .caches, .barriers, .knots, .watch, .host, .sched, .xing, .plays, .mesh, .exchanges, .store, .arrivals, .mem]
        s _
    exact OnlyChanges.refl _ _
  · rename_i v2 v3 v4
    split
    · rename_i v5
      change OnlyChanges [.cap, .colls, .caches, .barriers, .knots, .watch, .host, .sched, .xing, .plays, .mesh, .exchanges, .store, .arrivals,
          .mem] s _
      refine OnlyChanges.step ?_ (retractStep_frame _ _) (by decide)
      exact OnlyChanges.refl _ _
    · rename_i v6
      change OnlyChanges [.cap, .colls, .caches, .barriers, .knots, .watch, .host, .sched, .xing, .plays, .mesh, .exchanges, .store, .arrivals,
          .mem] s _
      exact OnlyChanges.refl _ _

theorem writeCommitted_frame (v : W32) (s : State) :
    OnlyChanges [.cap, .caches, .parts, .knots, .ports, .fields, .watch, .host, .xing, .ramp, .plays, .mesh, .exchanges, .freeCtr, .store, .rel,
        .mem, .near] s (writeCommitted v s) := by
  unfold writeCommitted
  refine OnlyChanges.ite ?_ ?_
  · refine OnlyChanges.step ?_ (lockViolation_frame _) (by decide)
    exact OnlyChanges.refl _ _
  · refine OnlyChanges.step ?_ (pumpAll_frame _) (by decide)
    refine OnlyChanges.step ?_ (takeHeld_frame _) (by decide)
    refine OnlyChanges.step ?_ (clearLost_frame _) (by decide)
    refine OnlyChanges.step ?_ (mapLedger_frame _ _) (by decide)
    refine only_cap ?_ _ (by decide)
    exact OnlyChanges.refl _ _

theorem execCommittedWrite_frame (h : HostAccess) (v : W32) (s : State) :
    outAll (OnlyChanges [.cap, .caches, .parts, .knots, .ports, .fields, .watch, .host, .xing, .ramp, .plays, .mesh, .exchanges, .freeCtr, .store,
        .rel, .mem, .near] s) (execCommittedWrite h v s) := by
  unfold execCommittedWrite
  refine orHold_frame ?_ (by decide) ?_
  · exact OnlyChanges.refl _ _
  · split
    · rename_i v0
      change OnlyChanges [.cap, .caches, .parts, .knots, .ports, .fields, .watch, .host, .xing, .ramp, .plays, .mesh, .exchanges, .freeCtr, .store,
          .rel, .mem, .near] s _
      refine OnlyChanges.step ?_ (writeCommitted_frame _ _) (by decide)
      exact OnlyChanges.refl _ _
    · rename_i v1
      change OnlyChanges [.cap, .caches, .parts, .knots, .ports, .fields, .watch, .host, .xing, .ramp, .plays, .mesh, .exchanges, .freeCtr, .store,
          .rel, .mem, .near] s _
      exact OnlyChanges.refl _ _

theorem suspectRow_frame (t : TallyItem) (row : Nat) (s : State) :
    OnlyChanges [.rel] s (suspectRow t row s) := by
  unfold suspectRow
  refine OnlyChanges.fold ?_ (fun u0 y1 h2 => ?_)
  · exact OnlyChanges.refl _ _
  · refine OnlyChanges.step ?_ (suspectTile_frame _ _ _) (by decide)
    assumption

theorem maskTally_frame (t : TallyItem) (s : State) :
    OnlyChanges [.cap, .host, .xing, .plays, .store] s (maskTally t s) := by
  unfold maskTally
  split
  · rename_i v0 v1 v2
    refine OnlyChanges.ite ?_ ?_
    · refine OnlyChanges.step ?_ (faultPlay_frame _ _ _ _) (by decide)
      exact OnlyChanges.refl _ _
    · exact OnlyChanges.refl _ _
  · rename_i v3 v4
    refine OnlyChanges.step ?_ (faultStep_frame _ _) (by decide)
    exact OnlyChanges.refl _ _

theorem firstMismatch_frame (f : Nat) (t : TallyItem) (k : Nat) (row : Option Nat) (s : State) :
    OnlyChanges [.cap, .fields, .host, .xing, .plays, .store, .rel] s (firstMismatch f t k row s) := by
  unfold firstMismatch
  extract_lets x0 x1 x2
  have h3 : OnlyChanges [.cap, .fields, .host, .xing, .plays, .store, .rel] s x0 := by
    unfold x0
    refine OnlyChanges.step ?_ (adjField_frame _ _ _) (by decide)
    exact OnlyChanges.refl _ _
  have h4 : OnlyChanges [.cap, .fields, .host, .xing, .plays, .store, .rel] s x1 := by
    unfold x1
    refine OnlyChanges.step ?_ (postFull_frame _ _ _ _ _ _ _) (by decide)
    assumption
  have h5 : OnlyChanges [.cap, .fields, .host, .xing, .plays, .store, .rel] s x2 := by
    unfold x2
    split
    · rename_i v6 v7
      refine OnlyChanges.step ?_ (suspectRow_frame _ _ _) (by decide)
      assumption
    · rename_i v8
      assumption
  clear_value x0 x1 x2
  refine OnlyChanges.step ?_ (maskTally_frame _ _) (by decide)
  refine OnlyChanges.step ?_ (ledgerRec_frame _ _ _ _ _ _ _ _) (by decide)
  assumption

theorem compareRow_frame (f : Nat) (t : TallyItem) (row : Option Nat) (s : State) :
    OnlyChanges [.cap, .fields, .host, .xing, .plays, .store, .rel] s (compareRow f t row s) := by
  unfold compareRow
  extract_lets x0 x1 x2
  have h3 : OnlyChanges [.cap, .fields, .host, .xing, .plays, .store, .rel] s x2 := by
    unfold x2
    refine OnlyChanges.step ?_ (adjField_frame _ _ _) (by decide)
    exact OnlyChanges.refl _ _
  clear_value x0 x1 x2
  split
  · rename_i v4
    assumption
  · rename_i v5 v6 v7
    refine OnlyChanges.ite ?_ ?_
    · assumption
    · refine OnlyChanges.step ?_ (firstMismatch_frame _ _ _ _ _) (by decide)
      assumption

theorem execTallyComparison_frame (f : Nat) (fault : Option TallyFault) (s : State) :
    outAll (OnlyChanges [.cap, .fields, .host, .xing, .plays, .store, .rel] s) (execTallyComparison f fault s) := by
  unfold execTallyComparison
  split
  · rename_i v0 v1
    change OnlyChanges [.cap, .fields, .host, .xing, .plays, .store, .rel] s _
    exact OnlyChanges.refl _ _
  · rename_i v2 v3 v4 v5
    extract_lets x6
    have h7 : OnlyChanges [.cap, .fields, .host, .xing, .plays, .store, .rel] s x6 := by
      unfold x6
      refine OnlyChanges.step ?_ (compareRow_frame _ _ _ _) (by decide)
      exact OnlyChanges.refl _ _
    clear_value x6
    change OnlyChanges [.cap, .fields, .host, .xing, .plays, .store, .rel] s _
    refine OnlyChanges.step ?_ (adjField_frame _ _ _) (by decide)
    assumption

theorem execAuditSample_frame (f : Nat) (s : State) :
    outAll (OnlyChanges [.fields, .watch, .host, .xing, .freeCtr, .store] s) (execAuditSample f s) := by
  unfold execAuditSample
  split
  · rename_i v0 v1
    change OnlyChanges [.fields, .watch, .host, .xing, .freeCtr, .store] s _
    exact OnlyChanges.refl _ _
  · rename_i v2 v3 v4
    extract_lets x5 x6 x7 x8
    have h9 : OnlyChanges [.fields, .watch, .host, .xing, .freeCtr, .store] s x7 := by
      unfold x7
      refine OnlyChanges.step ?_ (adjField_frame _ _ _) (by decide)
      exact OnlyChanges.refl _ _
    have h10 : OnlyChanges [.fields, .watch, .host, .xing, .freeCtr, .store] s x8 := by
      unfold x8
      refine OnlyChanges.step ?_ (slotAudit_frame _ _ _ _) (by decide)
      assumption
    clear_value x5 x6 x7 x8
    change OnlyChanges [.fields, .watch, .host, .xing, .freeCtr, .store] s _
    refine OnlyChanges.ite ?_ ?_
    · refine OnlyChanges.step ?_ (postFull_frame _ _ _ _ _ _ _) (by decide)
      assumption
    · assumption

theorem opWatchSet_frame (p : Packet) (s : State) :
    OnlyChanges [.cap, .watch, .host, .xing, .store] s (opWatchSet p s) := by
  unfold opWatchSet
  extract_lets x0 x1 x2
  clear_value x0 x1 x2
  refine OnlyChanges.ite ?_ ?_
  · refine OnlyChanges.step ?_ (refuse_frame _ _ _) (by decide)
    exact OnlyChanges.refl _ _
  · refine OnlyChanges.ite ?_ ?_
    · refine OnlyChanges.step ?_ (refuse_frame _ _ _) (by decide)
      exact OnlyChanges.refl _ _
    · split
      · rename_i v3 v4 v5 v6
        refine absorb (P := sndAll (OnlyChanges [.cap, .watch, .host, .xing, .store] s)) v6 ?_ (fun q7 => ?_)
        · split
          · rename_i v8
            refine sndAll_mk ?_
            exact OnlyChanges.refl _ _
          · rename_i v9
            refine OnlyChanges.stepSnd ?_ (engineRead_frame _ _ _ _ _) (by decide)
            exact OnlyChanges.refl _ _
        refine OnlyChanges.step ?_ (refuse_frame _ _ _) (by decide)
        assumption
      · rename_i v10 v11 v12 v13
        refine absorb (P := sndAll (OnlyChanges [.cap, .watch, .host, .xing, .store] s)) v13 ?_ (fun q14 => ?_)
        · split
          · rename_i v15
            refine sndAll_mk ?_
            exact OnlyChanges.refl _ _
          · rename_i v16
            refine OnlyChanges.stepSnd ?_ (engineRead_frame _ _ _ _ _) (by decide)
            exact OnlyChanges.refl _ _
        split
        · rename_i v17 v18 v19 v20
          refine absorb (P := sndAll (OnlyChanges [.cap, .watch, .host, .xing, .store] s)) v20 ?_ (fun q21 => ?_)
          · refine OnlyChanges.foldSnd ?_ (fun u22 y23 h24 => ?_)
            · refine sndAll_mk ?_
              assumption
            · extract_lets x25
              clear_value x25
              split
              · rename_i v26
                refine sndAll_mk ?_
                refine OnlyChanges.step ?_ (setSlot_frame _ _ _) (by decide)
                show sndAll (OnlyChanges [.cap, .watch, .host, .xing, .store] s) _
                assumption
              · rename_i v27
                refine sndAll_mk ?_
                show sndAll (OnlyChanges [.cap, .watch, .host, .xing, .store] s) _
                assumption
          split
          · rename_i v28 v29
            refine OnlyChanges.step ?_ (reply_frame _ _ _ _) (by decide)
            assumption
          · rename_i v30
            refine OnlyChanges.step ?_ (accept_frame _ _) (by decide)
            assumption

theorem opWatchGet_frame (p : Packet) (s : State) :
    OnlyChanges [.cap, .host, .xing, .store, .mem, .near] s (opWatchGet p s) := by
  unfold opWatchGet
  extract_lets x0 x1 x2 x3 x4
  clear_value x0 x1 x2 x3 x4
  refine OnlyChanges.ite ?_ ?_
  · refine OnlyChanges.step ?_ (refuse_frame _ _ _) (by decide)
    exact OnlyChanges.refl _ _
  · refine OnlyChanges.ite ?_ ?_
    · refine OnlyChanges.step ?_ (refuse_frame _ _ _) (by decide)
      exact OnlyChanges.refl _ _
    · refine OnlyChanges.step ?_ (accept_frame _ _) (by decide)
      refine OnlyChanges.step ?_ (destWrite_frame _ _ _ _) (by decide)
      exact OnlyChanges.refl _ _

theorem runVecEval_frame (p : Packet) (s : State) :
    OnlyChanges [.cap, .host, .xing, .store] s (runVecEval p s) := by
  unfold runVecEval
  extract_lets x0 x1
  clear_value x0 x1
  refine OnlyChanges.ite ?_ ?_
  · refine OnlyChanges.step ?_ (refuse_frame _ _ _) (by decide)
    exact OnlyChanges.refl _ _
  · refine OnlyChanges.ite ?_ ?_
    · refine OnlyChanges.step ?_ (refuse_frame _ _ _) (by decide)
      exact OnlyChanges.refl _ _
    · refine OnlyChanges.ite ?_ ?_
      · refine OnlyChanges.step ?_ (refuse_frame _ _ _) (by decide)
        exact OnlyChanges.refl _ _
      · split
        · rename_i v2 v3 v4 v5
          refine absorb (P := sndAll (OnlyChanges [.cap, .host, .xing, .store] s)) v5 ?_ (fun q6 => ?_)
          · refine OnlyChanges.stepSnd ?_ (engineRead_frame _ _ _ _ _) (by decide)
            exact OnlyChanges.refl _ _
          refine OnlyChanges.step ?_ (refuse_frame _ _ _) (by decide)
          assumption
        · rename_i v7 v8 v9 v10
          refine absorb (P := sndAll (OnlyChanges [.cap, .host, .xing, .store] s)) v10 ?_ (fun q11 => ?_)
          · refine OnlyChanges.stepSnd ?_ (engineRead_frame _ _ _ _ _) (by decide)
            exact OnlyChanges.refl _ _
          split
          · rename_i v12 v13 v14 v15
            refine OnlyChanges.ite ?_ ?_
            · refine OnlyChanges.step ?_ (accept_frame _ _) (by decide)
              assumption
            · refine OnlyChanges.step ?_ (reply_frame _ _ _ _) (by decide)
              assumption

theorem opVecEval_frame (p : Packet) (s : State) :
    OnlyChanges [.cap, .watch, .host, .xing, .store] s (opVecEval p s) := by
  unfold opVecEval
  refine OnlyChanges.ite ?_ ?_
  · refine OnlyChanges.step ?_ (refuse_frame _ _ _) (by decide)
    exact OnlyChanges.refl _ _
  · refine OnlyChanges.ite ?_ ?_
    · refine OnlyChanges.step ?_ (refuse_frame _ _ _) (by decide)
      exact OnlyChanges.refl _ _
    · refine OnlyChanges.ite ?_ ?_
      · refine only_watch ?_ _ (by decide)
        exact OnlyChanges.refl _ _
      · refine OnlyChanges.step ?_ (runVecEval_frame _ _) (by decide)
        exact OnlyChanges.refl _ _

theorem runEvals_frame (s : State) :
    OnlyChanges [.cap, .watch, .host, .xing, .store] s (runEvals s) := by
  unfold runEvals
  refine OnlyChanges.fold ?_ (fun u0 y1 h2 => ?_)
  · exact OnlyChanges.refl _ _
  · refine OnlyChanges.ite ?_ ?_
    · assumption
    · refine OnlyChanges.step ?_ (runVecEval_frame _ _) (by decide)
      refine only_watch ?_ _ (by decide)
      assumption

theorem writeWatchCtrl_frame (v : W64) (s : State) :
    OnlyChanges [.watch, .host, .xing, .store] s (writeWatchCtrl v s) := by
  unfold writeWatchCtrl
  refine OnlyChanges.ite ?_ ?_
  · refine OnlyChanges.step ?_ (lockViolation_frame _) (by decide)
    exact OnlyChanges.refl _ _
  · extract_lets x0 x1 x2 x3 x4
    have h5 : OnlyChanges [.watch, .host, .xing, .store] s x4 := by
      unfold x4
      refine only_watch ?_ _ (by decide)
      exact OnlyChanges.refl _ _
    clear_value x0 x1 x2 x3 x4
    refine OnlyChanges.ite ?_ ?_
    · refine OnlyChanges.step ?_ (post_frame _ _ _) (by decide)
      assumption
    · assumption

theorem writeWatchCfg_frame (v : W64) (s : State) :
    OnlyChanges [.watch, .host, .xing, .store] s (writeWatchCfg v s) := by
  unfold writeWatchCfg
  refine OnlyChanges.ite ?_ ?_
  · refine OnlyChanges.step ?_ (lockViolation_frame _) (by decide)
    exact OnlyChanges.refl _ _
  · extract_lets x0 x1 x2 x3
    clear_value x0 x1 x2 x3
    refine only_watch ?_ _ (by decide)
    exact OnlyChanges.refl _ _

theorem execStallEnClear_frame (h : HostAccess) (s : State) :
    outAll (OnlyChanges [.watch, .host, .xing, .store] s) (execStallEnClear h s) := by
  unfold execStallEnClear
  refine orHold_frame ?_ (by decide) ?_
  · exact OnlyChanges.refl _ _
  · split
    · rename_i v0
      change OnlyChanges [.watch, .host, .xing, .store] s _
      exact OnlyChanges.refl _ _
    · rename_i v1
      split
      · rename_i v2
        change OnlyChanges [.watch, .host, .xing, .store] s _
        refine OnlyChanges.step ?_ (lockViolation_frame _) (by decide)
        exact OnlyChanges.refl _ _
      · rename_i v3
        split
        · rename_i v4
          change OnlyChanges [.watch, .host, .xing, .store] s _
          refine OnlyChanges.step ?_ (post_frame _ _ _) (by decide)
          refine only_watch ?_ _ (by decide)
          exact OnlyChanges.refl _ _
        · rename_i v5
          change OnlyChanges [.watch, .host, .xing, .store] s _
          exact OnlyChanges.refl _ _

theorem writeTally_frame (n : Nat) (v : W64) (s : State) :
    OnlyChanges [.fields] s (writeTally n v s) := by
  unfold writeTally
  refine OnlyChanges.step ?_ (adjField_frame _ _ _) (by decide)
  exact OnlyChanges.refl _ _

theorem writeAudit_frame (n : Nat) (v : W64) (s : State) :
    OnlyChanges [.fields] s (writeAudit n v s) := by
  unfold writeAudit
  refine OnlyChanges.step ?_ (adjField_frame _ _ _) (by decide)
  exact OnlyChanges.refl _ _

end Sys2Proof.Machine
end

