-- ==== Sys2Proof/Laws/FrameUnits.lean ====
section
/-! SUPPORT. Frames: what each function of the links, near stacks, power and reliability can change. -/

namespace Sys2Proof.Machine

theorem portDown_frame (n : Nat) (s : State) :
    OnlyChanges [.cap, .ports, .host, .xing, .store] s (portDown n s) := by
  unfold portDown
  extract_lets x0
  have h1 : OnlyChanges [.cap, .ports, .host, .xing, .store] s x0 := by
    unfold x0
    refine OnlyChanges.step ?_ (loseOutcome_frame _ _) (by decide)
    exact OnlyChanges.refl _ _
  clear_value x0
  refine OnlyChanges.step ?_ (record_frame _ _ _ _ _ _ _ _ _ _) (by decide)
  refine OnlyChanges.step ?_ (setPort_frame _ _ _) (by decide)
  assumption

theorem execEarlySignal_frame (n : Nat) (s : State) :
    outAll (OnlyChanges [.ports] s) (execEarlySignal n s) := by
  unfold execEarlySignal
  split
  · rename_i v0
    change OnlyChanges [.ports] s _
    exact OnlyChanges.refl _ _
  · rename_i v1
    change OnlyChanges [.ports] s _
    refine OnlyChanges.step ?_ (setPort_frame _ _ _) (by decide)
    exact OnlyChanges.refl _ _

theorem startTraining_frame (n : Nat) (s : State) :
    OnlyChanges [.cap, .ports] s (startTraining n s) := by
  unfold startTraining
  extract_lets x0 x1 x2
  have h3 : OnlyChanges [.cap, .ports] s x0 := by
    unfold x0
    refine OnlyChanges.step ?_ (loseOutcome_frame _ _) (by decide)
    exact OnlyChanges.refl _ _
  clear_value x0 x1 x2
  refine OnlyChanges.step ?_ (setPort_frame _ _ _) (by decide)
  assumption

theorem execPortTraining_frame (n : Nat) (ms : Nat) (s : State) :
    outAll (OnlyChanges [.cap, .ports] s) (execPortTraining n ms s) := by
  unfold execPortTraining
  split
  · rename_i v0
    change OnlyChanges [.cap, .ports] s _
    refine OnlyChanges.step ?_ (startTraining_frame _ _) (by decide)
    exact OnlyChanges.refl _ _
  · rename_i v1
    change OnlyChanges [.cap, .ports] s _
    exact OnlyChanges.refl _ _

theorem execTrainingEnd_frame (n : Nat) (ok : Bool) (s : State) :
    outAll (OnlyChanges [.ports] s) (execTrainingEnd n ok s) := by
  unfold execTrainingEnd
  extract_lets x0
  clear_value x0
  split
  · rename_i v1
    change OnlyChanges [.ports] s _
    refine OnlyChanges.step ?_ (setPort_frame _ _ _) (by decide)
    exact OnlyChanges.refl _ _
  · rename_i v2
    change OnlyChanges [.ports] s _
    exact OnlyChanges.refl _ _

theorem narrow_frame (n : Nat) (l : Nat) (s : State) :
    OnlyChanges [.cap, .ports, .host, .xing, .store] s (narrow n l s) := by
  unfold narrow
  extract_lets x0
  clear_value x0
  refine OnlyChanges.ite ?_ ?_
  · refine OnlyChanges.step ?_ (portDown_frame _ _) (by decide)
    refine OnlyChanges.step ?_ (laneRecord_frame _ _ _ _) (by decide)
    refine OnlyChanges.step ?_ (setPort_frame _ _ _) (by decide)
    exact OnlyChanges.refl _ _
  · refine OnlyChanges.ite ?_ ?_
    · refine OnlyChanges.step ?_ (laneRecord_frame _ _ _ _) (by decide)
      refine OnlyChanges.step ?_ (setPort_frame _ _ _) (by decide)
      exact OnlyChanges.refl _ _
    · refine OnlyChanges.step ?_ (laneRecord_frame _ _ _ _) (by decide)
      refine OnlyChanges.step ?_ (postPort_frame _ _ _ _) (by decide)
      refine OnlyChanges.step ?_ (setPort_frame _ _ _) (by decide)
      exact OnlyChanges.refl _ _

theorem askSwap_frame (n : Nat) (l : Nat) (ahead : Nat) (s : State) :
    OnlyChanges [.ports, .host, .xing, .store] s (askSwap n l ahead s) := by
  unfold askSwap
  extract_lets x0 x1 x2
  clear_value x0 x1 x2
  refine OnlyChanges.step ?_ (putPort_frame _ _ _) (by decide)
  refine OnlyChanges.step ?_ (setPort_frame _ _ _) (by decide)
  exact OnlyChanges.refl _ _

theorem laneFails_frame (n : Nat) (l : Nat) (ahead : Nat) (s : State) :
    OnlyChanges [.cap, .ports, .host, .xing, .store] s (laneFails n l ahead s) := by
  unfold laneFails
  extract_lets x0
  clear_value x0
  refine OnlyChanges.ite ?_ ?_
  · exact OnlyChanges.refl _ _
  · refine OnlyChanges.ite ?_ ?_
    · refine OnlyChanges.step ?_ (laneRecord_frame _ _ _ _) (by decide)
      refine OnlyChanges.step ?_ (setPort_frame _ _ _) (by decide)
      exact OnlyChanges.refl _ _
    · refine OnlyChanges.ite ?_ ?_
      · refine OnlyChanges.step ?_ (askSwap_frame _ _ _ _) (by decide)
        exact OnlyChanges.refl _ _
      · refine OnlyChanges.ite ?_ ?_
        · exact OnlyChanges.refl _ _
        · refine OnlyChanges.step ?_ (narrow_frame _ _ _) (by decide)
          exact OnlyChanges.refl _ _

theorem execLaneSwap_frame (n : Nat) (l : Nat) (ahead : Nat) (c : LaneCause) (s : State) :
    outAll (OnlyChanges [.cap, .ports, .host, .xing, .store] s) (execLaneSwap n l ahead c s) := by
  unfold execLaneSwap
  extract_lets x0
  clear_value x0
  split
  · rename_i v1
    change OnlyChanges [.cap, .ports, .host, .xing, .store] s _
    exact OnlyChanges.refl _ _
  · rename_i v2
    split
    · rename_i v3 v4 v5
      split
      · rename_i v6
        change OnlyChanges [.cap, .ports, .host, .xing, .store] s _
        refine OnlyChanges.step ?_ (laneFails_frame _ _ _ _) (by decide)
        exact OnlyChanges.refl _ _
      · rename_i v7
        change OnlyChanges [.cap, .ports, .host, .xing, .store] s _
        exact OnlyChanges.refl _ _
    · rename_i v8
      split
      · rename_i v9
        change OnlyChanges [.cap, .ports, .host, .xing, .store] s _
        refine OnlyChanges.step ?_ (laneFails_frame _ _ _ _) (by decide)
        exact OnlyChanges.refl _ _
      · rename_i v10
        change OnlyChanges [.cap, .ports, .host, .xing, .store] s _
        exact OnlyChanges.refl _ _
    · rename_i v11 v12 v13
      extract_lets x14 x15 x16
      have h17 : OnlyChanges [.cap, .ports, .host, .xing, .store] s x14 := by
        unfold x14
        refine OnlyChanges.step ?_ (putPort_frame _ _ _) (by decide)
        exact OnlyChanges.refl _ _
      clear_value x14 x15 x16
      change OnlyChanges [.cap, .ports, .host, .xing, .store] s _
      refine OnlyChanges.step ?_ (putPort_frame _ _ _) (by decide)
      refine OnlyChanges.step ?_ (setPort_frame _ _ _) (by decide)
      assumption

theorem execQualificationEnd_frame (n : Nat) (lanes : List LaneTest) (s : State) :
    outAll (OnlyChanges [.ports, .host, .xing, .store] s) (execQualificationEnd n lanes s) := by
  unfold execQualificationEnd
  extract_lets x0 x1 x2 x3
  have h4 : OnlyChanges [.ports, .host, .xing, .store] s x3 := by
    unfold x3
    refine OnlyChanges.step ?_ (setPort_frame _ _ _) (by decide)
    exact OnlyChanges.refl _ _
  clear_value x0 x1 x2 x3
  split
  · rename_i v5
    change OnlyChanges [.ports, .host, .xing, .store] s _
    exact OnlyChanges.refl _ _
  · rename_i v6
    split
    · rename_i v7
      change OnlyChanges [.ports, .host, .xing, .store] s _
      refine OnlyChanges.step ?_ (setPort_frame _ _ _) (by decide)
      exact OnlyChanges.refl _ _
    · rename_i v8
      change OnlyChanges [.ports, .host, .xing, .store] s _
      refine OnlyChanges.ite ?_ ?_
      · refine OnlyChanges.step ?_ (postPort_frame _ _ _ _) (by decide)
        assumption
      · assumption

theorem takeHello_frame (n : Nat) (d : FlitHead) (h : Hello) (s : State) :
    OnlyChanges [.cap, .ports, .host, .xing, .store] s (takeHello n d h s) := by
  unfold takeHello
  extract_lets x0 x1 x2 x3 x4 x5 x6 x7
  have h8 : OnlyChanges [.cap, .ports, .host, .xing, .store] s x0 := by
    unfold x0
    refine OnlyChanges.step ?_ (putPort_frame _ _ _) (by decide)
    exact OnlyChanges.refl _ _
  have h9 : OnlyChanges [.cap, .ports, .host, .xing, .store] s x3 := by
    unfold x3
    refine OnlyChanges.ite ?_ ?_
    · refine OnlyChanges.step ?_ (loseOutcome_frame _ _) (by decide)
      assumption
    · assumption
  have h10 : OnlyChanges [.cap, .ports, .host, .xing, .store] s x7 := by
    unfold x7
    refine OnlyChanges.step ?_ (setPort_frame _ _ _) (by decide)
    assumption
  clear_value x0 x1 x2 x3 x4 x5 x6 x7
  refine OnlyChanges.ite ?_ ?_
  · assumption
  · split
    · rename_i v11
      refine OnlyChanges.step ?_ (postPort_frame _ _ _ _) (by decide)
      assumption
    · rename_i v12
      refine OnlyChanges.step ?_ (postPort_frame _ _ _ _) (by decide)
      assumption
    · rename_i v13
      refine OnlyChanges.ite ?_ ?_
      · assumption
      · refine OnlyChanges.step ?_ (postPort_frame _ _ _ _) (by decide)
        assumption
    · rename_i v14 v15 v16 v17
      assumption

theorem execHello_frame (n : Nat) (d : FlitHead) (h : Hello) (s : State) :
    outAll (OnlyChanges [.cap, .ports, .host, .xing, .store] s) (execHello n d h s) := by
  unfold execHello
  change OnlyChanges [.cap, .ports, .host, .xing, .store] s _
  refine OnlyChanges.step ?_ (takeHello_frame _ _ _ _) (by decide)
  exact OnlyChanges.refl _ _

theorem execHelloSend_frame (n : Nat) (s : State) :
    outAll (OnlyChanges [.ports] s) (execHelloSend n s) := by
  unfold execHelloSend
  extract_lets x0 x1
  clear_value x0 x1
  split
  · rename_i v2
    change OnlyChanges [.ports] s _
    refine OnlyChanges.step ?_ (setPort_frame _ _ _) (by decide)
    exact OnlyChanges.refl _ _
  · rename_i v3
    change OnlyChanges [.ports] s _
    exact OnlyChanges.refl _ _

theorem execDiscoveryTimeout_frame (n : Nat) (s : State) :
    outAll (OnlyChanges [.ports] s) (execDiscoveryTimeout n s) := by
  unfold execDiscoveryTimeout
  extract_lets x0
  clear_value x0
  split
  · rename_i v1
    change OnlyChanges [.ports] s _
    refine OnlyChanges.step ?_ (setPort_frame _ _ _) (by decide)
    exact OnlyChanges.refl _ _
  · rename_i v2
    change OnlyChanges [.ports] s _
    exact OnlyChanges.refl _ _

theorem takeNak_frame (n : Nat) (d : FlitHead) (s : State) :
    OnlyChanges [.ports, .host, .xing, .store] s (takeNak n d s) := by
  unfold takeNak
  extract_lets x0 x1 x2 x3
  clear_value x0 x1 x2 x3
  refine OnlyChanges.ite ?_ ?_
  · exact OnlyChanges.refl _ _
  · refine OnlyChanges.step ?_ (putPort_frame _ _ _) (by decide)
    exact OnlyChanges.refl _ _

theorem execNak_frame (n : Nat) (d : FlitHead) (s : State) :
    outAll (OnlyChanges [.ports, .host, .xing, .store] s) (execNak n d s) := by
  unfold execNak
  change OnlyChanges [.ports, .host, .xing, .store] s _
  refine OnlyChanges.step ?_ (takeNak_frame _ _ _) (by decide)
  exact OnlyChanges.refl _ _

theorem execIdleFlit_frame (n : Nat) (d : FlitHead) (s : State) :
    outAll (OnlyChanges [.ports, .host, .xing, .store] s) (execIdleFlit n d s) := by
  unfold execIdleFlit
  change OnlyChanges [.ports, .host, .xing, .store] s _
  refine OnlyChanges.step ?_ (putPort_frame _ _ _) (by decide)
  exact OnlyChanges.refl _ _

theorem rejectFlit_frame (n : Nat) (s : State) :
    OnlyChanges [.cap, .ports, .host, .xing, .store] s (rejectFlit n s) := by
  unfold rejectFlit
  extract_lets x0 x1
  refine OnlyChanges.ite ?_ ?_
  · refine OnlyChanges.step ?_ (setPort_frame _ _ _) (by decide)
    exact OnlyChanges.refl _ _
  · refine OnlyChanges.ite ?_ ?_
    · refine OnlyChanges.step ?_ (laneFails_frame _ _ _ _) (by decide)
      refine OnlyChanges.step ?_ (setPort_frame _ _ _) (by decide)
      exact OnlyChanges.refl _ _
    · refine OnlyChanges.step ?_ (portDown_frame _ _) (by decide)
      exact OnlyChanges.refl _ _

theorem takeData_frame (n : Nat) (sq : Nat) (body : List Byte) (s : State) :
    OnlyChanges [.cap, .ports, .host, .xing, .store] s (takeData n sq body s) := by
  unfold takeData
  extract_lets x0 x1
  clear_value x0 x1
  refine OnlyChanges.ite ?_ ?_
  · refine OnlyChanges.step ?_ (putPort_frame _ _ _) (by decide)
    exact OnlyChanges.refl _ _
  · refine OnlyChanges.ite ?_ ?_
    · exact OnlyChanges.refl _ _
    · refine OnlyChanges.step ?_ (rejectFlit_frame _ _) (by decide)
      exact OnlyChanges.refl _ _

theorem lostFlit_frame (n : Nat) (lane : Nat) (s : State) :
    OnlyChanges [.cap, .ports, .host, .xing, .store] s (lostFlit n lane s) := by
  unfold lostFlit
  extract_lets x0
  clear_value x0
  refine OnlyChanges.ite ?_ ?_
  · refine OnlyChanges.step ?_ (setPort_frame _ _ _) (by decide)
    exact OnlyChanges.refl _ _
  · refine OnlyChanges.ite ?_ ?_
    · refine OnlyChanges.step ?_ (rejectFlit_frame _ _) (by decide)
      exact OnlyChanges.refl _ _
    · exact OnlyChanges.refl _ _

theorem takeFlit_frame (n : Nat) (b : List Byte) (s : State) :
    OnlyChanges [.cap, .ports, .host, .xing, .store] s (takeFlit n b s) := by
  unfold takeFlit
  extract_lets x0 x1
  clear_value x0 x1
  split
  · rename_i v2 v3
    refine OnlyChanges.ite ?_ ?_
    · refine OnlyChanges.step ?_ (takeData_frame _ _ _ _) (by decide)
      refine OnlyChanges.step ?_ (putPort_frame _ _ _) (by decide)
      exact OnlyChanges.refl _ _
    · exact OnlyChanges.refl _ _
  · rename_i v4 v5
    refine OnlyChanges.step ?_ (putPort_frame _ _ _) (by decide)
    exact OnlyChanges.refl _ _
  · rename_i v6 v7
    refine OnlyChanges.step ?_ (putPort_frame _ _ _) (by decide)
    exact OnlyChanges.refl _ _
  · rename_i v8 v9
    refine OnlyChanges.step ?_ (takeHello_frame _ _ _ _) (by decide)
    exact OnlyChanges.refl _ _
  · rename_i v10 v11
    refine OnlyChanges.step ?_ (takeNak_frame _ _ _) (by decide)
    exact OnlyChanges.refl _ _
  · rename_i v12 v13 v14 v15 v16 v17
    refine OnlyChanges.step ?_ (setPort_frame _ _ _) (by decide)
    exact OnlyChanges.refl _ _

theorem execFlitData_frame (n : Nat) (lane : Nat) (w : Codeword) (s : State) :
    outAll (OnlyChanges [.cap, .colls, .ports, .host, .xing, .store] s) (execFlitData n lane w s) := by
  unfold execFlitData
  extract_lets x0 x1 x2
  have h3 : OnlyChanges [.cap, .colls, .ports, .host, .xing, .store] s x1 := by
    unfold x1
    refine OnlyChanges.step ?_ (setPort_frame _ _ _) (by decide)
    exact OnlyChanges.refl _ _
  have h4 : OnlyChanges [.cap, .colls, .ports, .host, .xing, .store] s x2 := by
    unfold x2
    refine OnlyChanges.step ?_ (xingRecord_frame _ _ _ _) (by decide)
    assumption
  clear_value x0 x1 x2
  split
  · rename_i v5
    change OnlyChanges [.cap, .colls, .ports, .host, .xing, .store] s _
    exact OnlyChanges.refl _ _
  · rename_i v6
    split
    · rename_i v7 v8 v9
      change OnlyChanges [.cap, .colls, .ports, .host, .xing, .store] s _
      refine OnlyChanges.step ?_ (deliverData_frame _) (by decide)
      refine OnlyChanges.ite ?_ ?_
      · refine OnlyChanges.step ?_ (takeFlit_frame _ _ _) (by decide)
        assumption
      · refine OnlyChanges.step ?_ (lostFlit_frame _ _ _) (by decide)
        assumption
    · rename_i v10 v11
      change OnlyChanges [.cap, .colls, .ports, .host, .xing, .store] s _
      refine OnlyChanges.ite ?_ ?_
      · refine OnlyChanges.step ?_ (lostFlit_frame _ _ _) (by decide)
        assumption
      · assumption
    · rename_i v12
      change OnlyChanges [.cap, .colls, .ports, .host, .xing, .store] s _
      refine OnlyChanges.step ?_ (lostFlit_frame _ _ _) (by decide)
      assumption

theorem execHawStall_frame (n : Nat) (vc : Nat) (s : State) :
    outAll (OnlyChanges [.ports, .host, .xing, .store] s) (execHawStall n vc s) := by
  unfold execHawStall
  extract_lets x0 x1
  clear_value x0 x1
  split
  · rename_i v2
    change OnlyChanges [.ports, .host, .xing, .store] s _
    refine OnlyChanges.step ?_ (postPort_frame _ _ _ _) (by decide)
    refine OnlyChanges.step ?_ (setPort_frame _ _ _) (by decide)
    exact OnlyChanges.refl _ _
  · rename_i v3
    change OnlyChanges [.ports, .host, .xing, .store] s _
    exact OnlyChanges.refl _ _

theorem execHawPortDown_frame (n : Nat) (w_c : DownCause) (s : State) :
    outAll (OnlyChanges [.cap, .ports, .host, .xing, .store] s) (execHawPortDown n w_c s) := by
  unfold execHawPortDown
  split
  · rename_i v0
    change OnlyChanges [.cap, .ports, .host, .xing, .store] s _
    refine OnlyChanges.step ?_ (portDown_frame _ _) (by decide)
    exact OnlyChanges.refl _ _
  · rename_i v1
    change OnlyChanges [.cap, .ports, .host, .xing, .store] s _
    exact OnlyChanges.refl _ _

theorem opPlanSet_frame (p : Packet) (s : State) :
    OnlyChanges [.cap, .host, .xing, .store] s (opPlanSet p s) := by
  unfold opPlanSet
  extract_lets x0 x1
  clear_value x0 x1
  refine OnlyChanges.ite ?_ ?_
  · refine OnlyChanges.step ?_ (refuse_frame _ _ _) (by decide)
    exact OnlyChanges.refl _ _
  · refine OnlyChanges.ite ?_ ?_
    · refine OnlyChanges.step ?_ (refuse_frame _ _ _) (by decide)
      exact OnlyChanges.refl _ _
    · refine OnlyChanges.step ?_ (accept_frame _ _) (by decide)
      refine only_store ?_ _ (by decide)
      exact OnlyChanges.refl _ _

theorem loseColl_frame (slot : Nat) (c : CollSlot) (p : Packet) (s : State) :
    OnlyChanges [.cap, .colls, .host, .xing, .store] s (loseColl slot c p s) := by
  unfold loseColl
  extract_lets x0
  have h1 : OnlyChanges [.cap, .colls, .host, .xing, .store] s x0 := by
    unfold x0
    refine OnlyChanges.step ?_ (postFull_frame _ _ _ _ _ _ _) (by decide)
    exact OnlyChanges.refl _ _
  clear_value x0
  refine OnlyChanges.step ?_ (refuse_frame _ _ _) (by decide)
  refine only_colls ?_ _ (by decide)
  assumption

theorem endColls_frame (n : Nat) (s : State) :
    OnlyChanges [.cap, .colls, .host, .xing, .store] s (endColls n s) := by
  unfold endColls
  refine OnlyChanges.fold ?_ (fun u0 y1 h2 => ?_)
  · exact OnlyChanges.refl _ _
  · split
    · rename_i v3 v4 v5
      split
      · rename_i v6 v7 v8
        refine OnlyChanges.ite ?_ ?_
        · refine OnlyChanges.step ?_ (loseColl_frame _ _ _ _) (by decide)
          assumption
        · assumption
      · rename_i v9 v10
        assumption

theorem disablePort_frame (n : Nat) (s : State) :
    OnlyChanges [.cap, .colls, .ports, .host, .xing, .store] s (disablePort n s) := by
  unfold disablePort
  extract_lets x0 x1 x2
  have h3 : OnlyChanges [.cap, .colls, .ports, .host, .xing, .store] s x1 := by
    unfold x1
    refine OnlyChanges.ite ?_ ?_
    · refine OnlyChanges.step ?_ (postPort_frame _ _ _ _) (by decide)
      refine OnlyChanges.step ?_ (endColls_frame _ _) (by decide)
      refine OnlyChanges.step ?_ (loseOutcome_frame _ _) (by decide)
      exact OnlyChanges.refl _ _
    · exact OnlyChanges.refl _ _
  clear_value x0 x1 x2
  refine OnlyChanges.step ?_ (setPort_frame _ _ _) (by decide)
  assumption

theorem opPortCtrl_frame (p : Packet) (s : State) :
    OnlyChanges [.cap, .colls, .ports, .host, .xing, .store] s (opPortCtrl p s) := by
  unfold opPortCtrl
  extract_lets x0 x1
  clear_value x0 x1
  refine OnlyChanges.ite ?_ ?_
  · refine OnlyChanges.step ?_ (refuse_frame _ _ _) (by decide)
    exact OnlyChanges.refl _ _
  · refine OnlyChanges.step ?_ (accept_frame _ _) (by decide)
    refine OnlyChanges.fold ?_ (fun u2 y3 h4 => ?_)
    · exact OnlyChanges.refl _ _
    · refine OnlyChanges.ite ?_ ?_
      · refine OnlyChanges.step ?_ (disablePort_frame _ _) (by decide)
        assumption
      · refine OnlyChanges.step ?_ (startTraining_frame _ _) (by decide)
        assumption

theorem writeHawCfg_frame (v : W64) (s : State) :
    OnlyChanges [.lqWindow, .host, .xing, .store] s (writeHawCfg v s) := by
  unfold writeHawCfg
  extract_lets x0
  clear_value x0
  refine OnlyChanges.ite ?_ ?_
  · refine OnlyChanges.step ?_ (lockViolation_frame _) (by decide)
    exact OnlyChanges.refl _ _
  · refine OnlyChanges.ite ?_ ?_
    · refine only_lqWindow ?_ _ (by decide)
      exact OnlyChanges.refl _ _
    · exact OnlyChanges.refl _ _

theorem setRegion_frame (n : Nat) (r : Region) (s : State) :
    OnlyChanges [.regions] s (setRegion n r s) := by
  unfold setRegion
  refine only_regions ?_ _ (by decide)
  exact OnlyChanges.refl _ _

theorem writeRegionUpper_frame (n : Nat) (v : W64) (s : State) :
    OnlyChanges [.host, .xing, .store, .regions] s (writeRegionUpper n v s) := by
  unfold writeRegionUpper
  refine OnlyChanges.ite ?_ ?_
  · refine OnlyChanges.step ?_ (setRegion_frame _ _ _) (by decide)
    exact OnlyChanges.refl _ _
  · refine OnlyChanges.step ?_ (lockViolation_frame _) (by decide)
    exact OnlyChanges.refl _ _

theorem writeRegionLower_frame (n : Nat) (v : W64) (s : State) :
    OnlyChanges [.host, .xing, .store, .regions] s (writeRegionLower n v s) := by
  unfold writeRegionLower
  refine OnlyChanges.ite ?_ ?_
  · refine OnlyChanges.step ?_ (lockViolation_frame _) (by decide)
    exact OnlyChanges.refl _ _
  · extract_lets x0 x1
    clear_value x0 x1
    split
    · rename_i v2 v3 v4
      refine OnlyChanges.step ?_ (post_frame _ _ _) (by decide)
      refine OnlyChanges.step ?_ (setRegion_frame _ _ _) (by decide)
      exact OnlyChanges.refl _ _
    · rename_i v5 v6
      refine OnlyChanges.step ?_ (setRegion_frame _ _ _) (by decide)
      exact OnlyChanges.refl _ _

theorem execRegionStage_frame (h : HostAccess) (n : Nat) (v : W64) (s : State) :
    outAll (OnlyChanges [.host, .xing, .store, .regions] s) (execRegionStage h n v s) := by
  unfold execRegionStage
  refine orHold_frame ?_ (by decide) ?_
  · exact OnlyChanges.refl _ _
  · split
    · rename_i v0
      change OnlyChanges [.host, .xing, .store, .regions] s _
      refine OnlyChanges.step ?_ (writeRegionUpper_frame _ _ _) (by decide)
      exact OnlyChanges.refl _ _
    · rename_i v1
      change OnlyChanges [.host, .xing, .store, .regions] s _
      exact OnlyChanges.refl _ _

theorem execRegionWrite_frame (h : HostAccess) (n : Nat) (v : W64) (s : State) :
    outAll (OnlyChanges [.host, .xing, .store, .regions] s) (execRegionWrite h n v s) := by
  unfold execRegionWrite
  refine orHold_frame ?_ (by decide) ?_
  · exact OnlyChanges.refl _ _
  · split
    · rename_i v0
      change OnlyChanges [.host, .xing, .store, .regions] s _
      refine OnlyChanges.step ?_ (writeRegionLower_frame _ _ _) (by decide)
      exact OnlyChanges.refl _ _
    · rename_i v1
      change OnlyChanges [.host, .xing, .store, .regions] s _
      exact OnlyChanges.refl _ _

theorem nextMigrations_frame (n : Nat) (a : Nat) (a' : State) :
    OnlyChanges [.host, .xing, .store, .rel, .near] a' (nextMigrations n a a') := by
  induction a generalizing n a'
  · unfold nextMigrations
    exact OnlyChanges.refl _ _
  · rename_i w0 ih
    unfold nextMigrations
    extract_lets x1
    clear_value x1
    split
    · rename_i v2 v3 v4 v5
      refine OnlyChanges.ite ?_ ?_
      · exact OnlyChanges.refl _ _
      · refine OnlyChanges.step ?_ (ih _ _) (by decide)
        refine OnlyChanges.step ?_ (startMigration_frame _ _ _) (by decide)
        refine OnlyChanges.step ?_ (setStack_frame _ _ _) (by decide)
        exact OnlyChanges.refl _ _
    · rename_i v6 v7
      exact OnlyChanges.refl _ _

theorem nextMigration_frame (n : Nat) (s : State) :
    OnlyChanges [.host, .xing, .store, .rel, .near] s (nextMigration n s) := by
  unfold nextMigration
  refine OnlyChanges.step ?_ (nextMigrations_frame _ _ _) (by decide)
  exact OnlyChanges.refl _ _

theorem execChMigrate_frame (n : Nat) (c : Nat) (row : Option Nat) (s : State) :
    outAll (OnlyChanges [.host, .xing, .freeCtr, .store, .rel, .mem, .near] s) (execChMigrate n c row s) := by
  unfold execChMigrate
  change OnlyChanges [.host, .xing, .freeCtr, .store, .rel, .mem, .near] s _
  refine OnlyChanges.step ?_ (needMigration_frame _ _ _) (by decide)
  refine elim_of (P := (OnlyChanges [.host, .xing, .freeCtr, .store, .rel, .mem, .near] s)) ?_ (fun y0 => ?_)
  · exact OnlyChanges.refl _ _
  · refine OnlyChanges.step ?_ (restoreGranule_frame _ _) (by decide)
    exact OnlyChanges.refl _ _

theorem execStackSplice_frame (n : Nat) (s : State) :
    outAll (OnlyChanges [.host, .xing, .freeCtr, .store, .rel, .near] s) (execStackSplice n s) := by
  unfold execStackSplice
  split
  · rename_i v0 v1 v2 v3
    refine absorb (P := sndAll (OnlyChanges [.host, .xing, .freeCtr, .store, .rel, .near] s)) v3 ?_ (fun q4 => ?_)
    · refine OnlyChanges.stepSnd ?_ (draw_frame _) (by decide)
      exact OnlyChanges.refl _ _
    change OnlyChanges [.host, .xing, .freeCtr, .store, .rel, .near] s _
    refine OnlyChanges.step ?_ (needSplice_frame _ _ _ _) (by decide)
    assumption

theorem switchStack_frame (n : Nat) (s : State) :
    OnlyChanges [.host, .xing, .store, .rel, .near] s (switchStack n s) := by
  unfold switchStack
  extract_lets x0 x1 x2 x3 x4 x5 x6
  have h7 : OnlyChanges [.host, .xing, .store, .rel, .near] s x3 := by
    unfold x3
    refine OnlyChanges.step ?_ (journalRecord_frame _) (by decide)
    exact OnlyChanges.refl _ _
  have h8 : OnlyChanges [.host, .xing, .store, .rel, .near] s x5 := by
    unfold x5
    refine only_store ?_ _ (by decide)
    assumption
  have h9 : OnlyChanges [.host, .xing, .store, .rel, .near] s x6 := by
    unfold x6
    refine OnlyChanges.step ?_ (setStack_frame _ _ _) (by decide)
    assumption
  clear_value x0 x1 x2 x3 x4 x5 x6
  refine OnlyChanges.step ?_ (record_frame _ _ _ _ _ _ _ _ _ _) (by decide)
  assumption

theorem spliceFails_frame (n : Nat) (chan : Byte) (s : State) :
    OnlyChanges [.host, .xing, .store, .rel, .near] s (spliceFails n chan s) := by
  unfold spliceFails
  extract_lets x0 x1 x2
  have h3 : OnlyChanges [.host, .xing, .store, .rel, .near] s x2 := by
    unfold x2
    refine OnlyChanges.step ?_ (setStack_frame _ _ _) (by decide)
    refine only_store ?_ _ (by decide)
    exact OnlyChanges.refl _ _
  clear_value x0 x1 x2
  refine OnlyChanges.step ?_ (needSplice_frame _ _ _ _) (by decide)
  assumption

theorem switchChannel_frame (n : Nat) (c : Nat) (spareFailed : Bool) (s : State) :
    OnlyChanges [.host, .xing, .store, .rel, .near] s (switchChannel n c spareFailed s) := by
  unfold switchChannel
  extract_lets x0 x1 x2 x3 x4 x5
  have h6 : ∀ a7 a8, OnlyChanges [.host, .xing, .store, .rel, .near] s a8 → OnlyChanges [.host, .xing, .store, .rel, .near] s (x2 a7 a8) := by
    intro b9 b10 k11
    unfold x2
    refine only_store ?_ _ (by decide)
    assumption
  have h12 : OnlyChanges [.host, .xing, .store, .rel, .near] s x3 := by
    unfold x3
    apply h6
    · refine OnlyChanges.step ?_ (setStack_frame _ _ _) (by decide)
      exact OnlyChanges.refl _ _
  have h13 : OnlyChanges [.host, .xing, .store, .rel, .near] s x4 := by
    unfold x4
    apply h6
    · refine OnlyChanges.step ?_ (journalRecord_frame _) (by decide)
      exact OnlyChanges.refl _ _
  clear_value x0 x1 x2 x3 x4 x5
  refine OnlyChanges.ite ?_ ?_
  · refine OnlyChanges.step ?_ (nextMigration_frame _ _) (by decide)
    refine OnlyChanges.step ?_ (startMigration_frame _ _ _) (by decide)
    refine OnlyChanges.step ?_ (record_frame _ _ _ _ _ _ _ _ _ _) (by decide)
    assumption
  · refine OnlyChanges.step ?_ (nextMigration_frame _ _) (by decide)
    refine OnlyChanges.step ?_ (postMigrate_frame _ _ _ _) (by decide)
    refine OnlyChanges.step ?_ (setStack_frame _ _ _) (by decide)
    assumption

theorem execMigrationSwitch_frame (n : Nat) (c : Nat) (spareFailed : Bool) (s : State) :
    outAll (OnlyChanges [.host, .xing, .store, .rel, .near] s) (execMigrationSwitch n c spareFailed s) := by
  unfold execMigrationSwitch
  extract_lets x0
  clear_value x0
  split
  · rename_i v1
    change OnlyChanges [.host, .xing, .store, .rel, .near] s _
    exact OnlyChanges.refl _ _
  · rename_i v2
    split
    · rename_i v3
      change OnlyChanges [.host, .xing, .store, .rel, .near] s _
      refine OnlyChanges.ite ?_ ?_
      · refine OnlyChanges.step ?_ (spliceFails_frame _ _ _) (by decide)
        exact OnlyChanges.refl _ _
      · refine OnlyChanges.step ?_ (switchStack_frame _ _) (by decide)
        exact OnlyChanges.refl _ _
    · rename_i v4
      split
      · rename_i v5
        change OnlyChanges [.host, .xing, .store, .rel, .near] s _
        refine OnlyChanges.step ?_ (switchChannel_frame _ _ _ _) (by decide)
        exact OnlyChanges.refl _ _
      · rename_i v6
        change OnlyChanges [.host, .xing, .store, .rel, .near] s _
        exact OnlyChanges.refl _ _

theorem retireSpare_frame (ch : Nat) (bank : Nat) (row : Nat) (s : State) :
    OnlyChanges [.store] s (retireSpare ch bank row s) := by
  unfold retireSpare
  refine only_store ?_ _ (by decide)
  exact OnlyChanges.refl _ _

theorem repairRow_frame (x : Retired) (readable : Bool) (s : State) :
    OnlyChanges [.host, .xing, .freeCtr, .store, .rel, .mem, .near] s (repairRow x readable s) := by
  unfold repairRow
  extract_lets x0 x1 x2 x3 x4 x5 x6 x7 x8 x9 x10 x11 x12
  have h13 : OnlyChanges [.host, .xing, .freeCtr, .store, .rel, .mem, .near] s x5 := by
    unfold x5
    refine OnlyChanges.step ?_ (retireSpare_frame _ _ _ _) (by decide)
    exact OnlyChanges.refl _ _
  have h14 : OnlyChanges [.host, .xing, .freeCtr, .store, .rel, .mem, .near] s x6 := by
    unfold x6
    refine OnlyChanges.step ?_ (setStack_frame _ _ _) (by decide)
    assumption
  have h15 : OnlyChanges [.host, .xing, .freeCtr, .store, .rel, .mem, .near] s x8 := by
    unfold x8
    refine only_store ?_ _ (by decide)
    assumption
  have h16 : OnlyChanges [.host, .xing, .freeCtr, .store, .rel, .mem, .near] s x9 := by
    unfold x9
    refine OnlyChanges.step ?_ (record_frame _ _ _ _ _ _ _ _ _ _) (by decide)
    assumption
  have h17 : OnlyChanges [.host, .xing, .freeCtr, .store, .rel, .mem, .near] s x10 := by
    unfold x10
    refine OnlyChanges.ite ?_ ?_
    · assumption
    · refine OnlyChanges.step ?_ (restoreGranule_frame _ _) (by decide)
      assumption
  have h18 : OnlyChanges [.host, .xing, .freeCtr, .store, .rel, .mem, .near] s x12 := by
    unfold x12
    refine only_near ?_ _ (by decide)
    assumption
  clear_value x0 x1 x2 x3 x4 x5 x6 x7 x8 x9 x10 x11 x12
  refine OnlyChanges.ite ?_ ?_
  · exact OnlyChanges.refl _ _
  · refine OnlyChanges.ite ?_ ?_
    · refine OnlyChanges.ite ?_ ?_
      · refine OnlyChanges.step ?_ (needMigration_frame _ _ _) (by decide)
        assumption
      · assumption
    · refine OnlyChanges.ite ?_ ?_
      · refine OnlyChanges.step ?_ (ledgerRec_frame _ _ _ _ _ _ _ _) (by decide)
        refine OnlyChanges.step ?_ (postFull_frame _ _ _ _ _ _ _) (by decide)
        assumption
      · refine OnlyChanges.step ?_ (needSplice_frame _ _ _ _) (by decide)
        refine OnlyChanges.ite ?_ ?_
        · assumption
        · refine OnlyChanges.step ?_ (restoreGranule_frame _ _) (by decide)
          assumption

theorem execRowRepair_frame (n : Nat) (c : Nat) (bank : Nat) (row : Nat) (readable : Bool) (copier : Bool) (s : State) :
    outAll (OnlyChanges [.host, .xing, .freeCtr, .store, .rel, .mem, .near] s) (execRowRepair n c bank row readable copier s) := by
  unfold execRowRepair
  extract_lets x0
  clear_value x0
  split
  · rename_i v1
    change OnlyChanges [.host, .xing, .freeCtr, .store, .rel, .mem, .near] s _
    refine OnlyChanges.ite ?_ ?_
    · refine OnlyChanges.step ?_ (restoreGranule_frame _ _) (by decide)
      exact OnlyChanges.refl _ _
    · exact OnlyChanges.refl _ _
  · rename_i v2
    change OnlyChanges [.host, .xing, .freeCtr, .store, .rel, .mem, .near] s _
    refine OnlyChanges.step ?_ (repairRow_frame _ _ _) (by decide)
    exact OnlyChanges.refl _ _

theorem execTurnBoundary_frame (slot : CtWord) (s : State) :
    outAll (OnlyChanges [.near] s) (execTurnBoundary slot s) := by
  unfold execTurnBoundary
  extract_lets x0 x1 x2
  clear_value x0 x1 x2
  split
  · rename_i v3
    change OnlyChanges [.near] s _
    refine only_near ?_ _ (by decide)
    exact OnlyChanges.refl _ _
  · rename_i v4
    change OnlyChanges [.near] s _
    exact OnlyChanges.refl _ _

theorem execCalibrationSlot_frame (n : Nat) (c : Nat) (t1 : Nat) (t2 : Nat) (vref : Nat) (trained : Bool) (s : State) :
    outAll (OnlyChanges [.host, .xing, .store, .rel, .near] s) (execCalibrationSlot n c t1 t2 vref trained s) := by
  unfold execCalibrationSlot
  extract_lets x0 x1 x2 x3 x4
  have h5 : OnlyChanges [.host, .xing, .store, .rel, .near] s x4 := by
    unfold x4
    refine OnlyChanges.step ?_ (setStack_frame _ _ _) (by decide)
    exact OnlyChanges.refl _ _
  clear_value x0 x1 x2 x3 x4
  split
  · rename_i v6
    change OnlyChanges [.host, .xing, .store, .rel, .near] s _
    refine OnlyChanges.ite ?_ ?_
    · refine OnlyChanges.step ?_ (needMigration_frame _ _ _) (by decide)
      assumption
    · assumption
  · rename_i v7
    change OnlyChanges [.host, .xing, .store, .rel, .near] s _
    exact OnlyChanges.refl _ _

theorem execRefresh_frame (n : Nat) (c : Nat) (busy : Bool) (s : State) :
    outAll (OnlyChanges [.near] s) (execRefresh n c busy s) := by
  unfold execRefresh
  extract_lets x0
  clear_value x0
  split
  · rename_i v1
    change OnlyChanges [.near] s _
    exact OnlyChanges.refl _ _
  · rename_i v2
    change OnlyChanges [.near] s _
    refine OnlyChanges.step ?_ (setStack_frame _ _ _) (by decide)
    exact OnlyChanges.refl _ _

theorem endLap_frame (s : State) :
    OnlyChanges [.near] s (endLap s) := by
  unfold endLap
  extract_lets x0 x1
  clear_value x0 x1
  refine OnlyChanges.ite ?_ ?_
  · refine only_near ?_ _ (by decide)
    exact OnlyChanges.refl _ _
  · exact OnlyChanges.refl _ _

theorem scrubFinds_frame (n : Nat) (c : Nat) (rw : Nat) (r : ArrayRead) (s : State) :
    OnlyChanges [.host, .xing, .freeCtr, .store, .rel, .mem, .near] s (scrubFinds n c rw r s) := by
  unfold scrubFinds
  split
  · rename_i v0
    exact OnlyChanges.refl _ _
  · rename_i v1
    refine OnlyChanges.step ?_ (repairRow_frame _ _ _) (by decide)
    exact OnlyChanges.refl _ _
  · rename_i v2
    extract_lets x3 x4 x5 x6 x7
    have h8 : OnlyChanges [.host, .xing, .freeCtr, .store, .rel, .mem, .near] s x6 := by
      unfold x6
      refine OnlyChanges.step ?_ (setStack_frame _ _ _) (by decide)
      exact OnlyChanges.refl _ _
    have h9 : OnlyChanges [.host, .xing, .freeCtr, .store, .rel, .mem, .near] s x7 := by
      unfold x7
      refine OnlyChanges.step ?_ (record_frame _ _ _ _ _ _ _ _ _ _) (by decide)
      assumption
    clear_value x3 x4 x5 x6 x7
    refine OnlyChanges.ite ?_ ?_
    · refine OnlyChanges.step ?_ (repairRow_frame _ _ _) (by decide)
      assumption
    · assumption

theorem execScrub_frame (n : Nat) (c : Nat) (r : ArrayRead) (s : State) :
    outAll (OnlyChanges [.host, .xing, .freeCtr, .store, .rel, .mem, .near] s) (execScrub n c r s) := by
  unfold execScrub
  extract_lets x0 x1 x2 x3
  have h4 : OnlyChanges [.host, .xing, .freeCtr, .store, .rel, .mem, .near] s x3 := by
    unfold x3
    refine only_near ?_ _ (by decide)
    exact OnlyChanges.refl _ _
  clear_value x0 x1 x2 x3
  split
  · rename_i v5
    change OnlyChanges [.host, .xing, .freeCtr, .store, .rel, .mem, .near] s _
    exact OnlyChanges.refl _ _
  · rename_i v6
    change OnlyChanges [.host, .xing, .freeCtr, .store, .rel, .mem, .near] s _
    refine OnlyChanges.step ?_ (endLap_frame _) (by decide)
    refine OnlyChanges.step ?_ (scrubFinds_frame _ _ _ _ _) (by decide)
    refine OnlyChanges.step ?_ (setStack_frame _ _ _) (by decide)
    assumption

theorem execScrubStarved_frame (s : State) :
    outAll (OnlyChanges [.host, .xing, .store, .near] s) (execScrubStarved s) := by
  unfold execScrubStarved
  split
  · rename_i v0
    change OnlyChanges [.host, .xing, .store, .near] s _
    refine OnlyChanges.step ?_ (post_frame _ _ _) (by decide)
    refine only_near ?_ _ (by decide)
    exact OnlyChanges.refl _ _
  · rename_i v1
    change OnlyChanges [.host, .xing, .store, .near] s _
    exact OnlyChanges.refl _ _

theorem rimStarve_frame (s : State) :
    OnlyChanges [.cap, .host, .xing, .store] s (rimStarve s) := by
  unfold rimStarve
  refine OnlyChanges.ite ?_ ?_
  · refine OnlyChanges.step ?_ (post_frame _ _ _) (by decide)
    refine only_cap ?_ _ (by decide)
    exact OnlyChanges.refl _ _
  · exact OnlyChanges.refl _ _

theorem endRimLap_frame (s : State) :
    OnlyChanges [.cap] s (endRimLap s) := by
  unfold endRimLap
  extract_lets x0 x1
  clear_value x0 x1
  refine OnlyChanges.ite ?_ ?_
  · refine only_cap ?_ _ (by decide)
    exact OnlyChanges.refl _ _
  · exact OnlyChanges.refl _ _

theorem rimStep_frame (k : Nat) (row : Nat) (r : ArrayRead) (s : State) :
    OnlyChanges [.cap, .knots, .host, .xing, .freeCtr, .store, .rel, .mem] s (rimStep k row r s) := by
  unfold rimStep
  extract_lets x0 x1 x2
  have h3 : OnlyChanges [.cap, .knots, .host, .xing, .freeCtr, .store, .rel, .mem] s x2 := by
    unfold x2
    refine only_cap ?_ _ (by decide)
    exact OnlyChanges.refl _ _
  clear_value x0 x1 x2
  refine OnlyChanges.ite ?_ ?_
  · exact OnlyChanges.refl _ _
  · refine OnlyChanges.step ?_ (endRimLap_frame _) (by decide)
    refine OnlyChanges.step ?_ (rimFinds_frame _ _ _ _ _) (by decide)
    refine OnlyChanges.step ?_ (setCapstan_frame _ _ _) (by decide)
    assumption

theorem execRimScrub_frame (k : Nat) (r : Option (Nat × ArrayRead)) (s : State) :
    outAll (OnlyChanges [.cap, .knots, .host, .xing, .freeCtr, .store, .rel, .mem] s) (execRimScrub k r s) := by
  unfold execRimScrub
  split
  · rename_i v0 v1 v2
    change OnlyChanges [.cap, .knots, .host, .xing, .freeCtr, .store, .rel, .mem] s _
    refine OnlyChanges.step ?_ (rimStarve_frame _) (by decide)
    refine OnlyChanges.step ?_ (rimStep_frame _ _ _ _) (by decide)
    exact OnlyChanges.refl _ _
  · rename_i v3
    change OnlyChanges [.cap, .knots, .host, .xing, .freeCtr, .store, .rel, .mem] s _
    refine OnlyChanges.step ?_ (rimStarve_frame _) (by decide)
    exact OnlyChanges.refl _ _

theorem writeNsScrub_frame (v : W64) (s : State) :
    OnlyChanges [.host, .xing, .store, .near] s (writeNsScrub v s) := by
  unfold writeNsScrub
  extract_lets x0 x1 x2 x3
  have h4 : OnlyChanges [.host, .xing, .store, .near] s x2 := by
    unfold x2
    refine only_near ?_ _ (by decide)
    exact OnlyChanges.refl _ _
  clear_value x0 x1 x2 x3
  refine OnlyChanges.ite ?_ ?_
  · refine OnlyChanges.step ?_ (lockViolation_frame _) (by decide)
    assumption
  · refine OnlyChanges.ite ?_ ?_
    · assumption
    · refine only_near ?_ _ (by decide)
      assumption

theorem writeRimScrub_frame (v : W64) (s : State) :
    OnlyChanges [.cap, .host, .xing, .store] s (writeRimScrub v s) := by
  unfold writeRimScrub
  extract_lets x0 x1 x2 x3
  have h4 : OnlyChanges [.cap, .host, .xing, .store] s x2 := by
    unfold x2
    refine only_cap ?_ _ (by decide)
    exact OnlyChanges.refl _ _
  clear_value x0 x1 x2 x3
  refine OnlyChanges.ite ?_ ?_
  · refine OnlyChanges.step ?_ (lockViolation_frame _) (by decide)
    assumption
  · refine OnlyChanges.ite ?_ ?_
    · assumption
    · refine only_cap ?_ _ (by decide)
      assumption

theorem stackThermal_frame (n : Nat) (readings : List ℤ) (s : State) :
    OnlyChanges [.host, .xing, .store, .near] s (stackThermal n readings s) := by
  unfold stackThermal
  extract_lets x0 x1 x2 x3 x4 x5
  clear_value x0 x1 x2 x3 x4 x5
  refine OnlyChanges.ite ?_ ?_
  · refine OnlyChanges.step ?_ (setStack_frame _ _ _) (by decide)
    exact OnlyChanges.refl _ _
  · refine OnlyChanges.step ?_ (post_frame _ _ _) (by decide)
    refine OnlyChanges.step ?_ (setStack_frame _ _ _) (by decide)
    exact OnlyChanges.refl _ _

theorem rimStackThermal_frame (k : Nat) (readings : List ℤ) (s : State) :
    OnlyChanges [.cap] s (rimStackThermal k readings s) := by
  unfold rimStackThermal
  extract_lets x0 x1 x2 x3 x4 x5
  clear_value x0 x1 x2 x3 x4 x5
  refine OnlyChanges.step ?_ (setCapstan_frame _ _ _) (by decide)
  exact OnlyChanges.refl _ _

theorem resumeAccess_frame (s : State) :
    OnlyChanges [.cap, .caches, .parts, .knots, .ports, .fields, .watch, .host, .xing, .ramp, .plays, .mesh, .exchanges, .freeCtr, .store, .rel,
        .mem, .near] s (resumeAccess s) := by
  unfold resumeAccess
  refine OnlyChanges.step ?_ (pumpAll_frame _) (by decide)
  refine OnlyChanges.step ?_ (serveFetches_frame _) (by decide)
  refine OnlyChanges.step ?_ (runEvals_frame _) (by decide)
  refine OnlyChanges.step ?_ (runLoads_frame _) (by decide)
  refine OnlyChanges.step ?_ (takeHeld_frame _) (by decide)
  refine OnlyChanges.step ?_ (serveAper_frame _) (by decide)
  exact OnlyChanges.refl _ _

theorem execBeatEdge_frame (b : BeatSignal) (stuck : List Nat) (s : State) :
    outAll (OnlyChanges [.cap, .caches, .parts, .snap, .knots, .ports, .fields, .watch, .host, .sched, .xing, .ramp, .plays, .mesh, .exchanges,
        .freeCtr, .store, .cad, .rel, .mem, .near] s) (execBeatEdge b stuck s) := by
  unfold execBeatEdge
  change OnlyChanges [.cap, .caches, .parts, .snap, .knots, .ports, .fields, .watch, .host, .sched, .xing, .ramp, .plays, .mesh, .exchanges,
      .freeCtr, .store, .cad, .rel, .mem, .near] s _
  refine OnlyChanges.step ?_ (resumeAccess_frame _) (by decide)
  refine OnlyChanges.step ?_ (closePassing_frame _) (by decide)
  refine OnlyChanges.step ?_ (beatEdge_frame _ _ _) (by decide)
  exact OnlyChanges.refl _ _

theorem execNsThermal_frame (n : Nat) (rim : Bool) (a : List ℤ) (b : List ℤ) (s : State) :
    outAll (OnlyChanges [.cap, .caches, .parts, .knots, .ports, .fields, .watch, .host, .xing, .ramp, .plays, .mesh, .exchanges, .freeCtr, .store,
        .rel, .mem, .near] s) (execNsThermal n rim a b s) := by
  unfold execNsThermal
  split
  · rename_i v0
    change OnlyChanges [.cap, .caches, .parts, .knots, .ports, .fields, .watch, .host, .xing, .ramp, .plays, .mesh, .exchanges, .freeCtr, .store,
        .rel, .mem, .near] s _
    refine OnlyChanges.ite ?_ ?_
    · refine OnlyChanges.step ?_ (resumeAccess_frame _) (by decide)
      refine OnlyChanges.step ?_ (rimStackThermal_frame _ _ _) (by decide)
      exact OnlyChanges.refl _ _
    · exact OnlyChanges.refl _ _
  · rename_i v1
    change OnlyChanges [.cap, .caches, .parts, .knots, .ports, .fields, .watch, .host, .xing, .ramp, .plays, .mesh, .exchanges, .freeCtr, .store,
        .rel, .mem, .near] s _
    refine OnlyChanges.step ?_ (resumeAccess_frame _) (by decide)
    refine OnlyChanges.step ?_ (stackThermal_frame _ _ _) (by decide)
    exact OnlyChanges.refl _ _

theorem execOpTransitionStep_frame (n : Nat) (s : State) :
    outAll (OnlyChanges [.fields] s) (execOpTransitionStep n s) := by
  unfold execOpTransitionStep
  change OnlyChanges [.fields] s _
  refine OnlyChanges.step ?_ (adjField_frame _ _ _) (by decide)
  exact OnlyChanges.refl _ _

theorem makePlan_frame (m : PowerSense) (s : State) :
    OnlyChanges [.host, .power, .xing, .store] s (makePlan m s) := by
  unfold makePlan
  extract_lets x0 x1 x2 x3 x4 x5 x6 x7 x8 x9 x10 x11 x12 x13 x14 x15
  have h16 : OnlyChanges [.host, .power, .xing, .store] s x13 := by
    unfold x13
    refine only_power ?_ _ (by decide)
    exact OnlyChanges.refl _ _
  have h17 : OnlyChanges [.host, .power, .xing, .store] s x14 := by
    unfold x14
    refine OnlyChanges.ite ?_ ?_
    · refine OnlyChanges.step ?_ (post_frame _ _ _) (by decide)
      assumption
    · assumption
  have h18 : OnlyChanges [.host, .power, .xing, .store] s x15 := by
    unfold x15
    refine OnlyChanges.fold ?_ (fun u19 y20 h21 => ?_)
    · assumption
    · refine OnlyChanges.ite ?_ ?_
      · refine OnlyChanges.step ?_ (postFull_frame _ _ _ _ _ _ _) (by decide)
        assumption
      · assumption
  clear_value x0 x1 x2 x3 x4 x5 x6 x7 x8 x9 x10 x11 x12 x13 x14 x15
  refine OnlyChanges.ite ?_ ?_
  · refine OnlyChanges.step ?_ (post_frame _ _ _) (by decide)
    assumption
  · assumption

theorem setPref_frame (v : Nat) (s : State) :
    OnlyChanges [.power] s (setPref v s) := by
  unfold setPref
  refine only_power ?_ _ (by decide)
  exact OnlyChanges.refl _ _

theorem opPrefSet_frame (p : Packet) (s : State) :
    OnlyChanges [.cap, .host, .power, .xing, .store] s (opPrefSet p s) := by
  unfold opPrefSet
  refine OnlyChanges.step ?_ (accept_frame _ _) (by decide)
  refine OnlyChanges.step ?_ (setPref_frame _ _) (by decide)
  exact OnlyChanges.refl _ _

theorem opPrefDispatch_frame (p : Packet) (s : State) :
    OnlyChanges [.cap, .host, .power, .sched, .xing, .store, .arrivals] s (opPrefDispatch p s) := by
  unfold opPrefDispatch
  refine OnlyChanges.ite ?_ ?_
  · refine OnlyChanges.step ?_ (opPrefSet_frame _ _) (by decide)
    exact OnlyChanges.refl _ _
  · refine only_sched_arrivals ?_ _ _ (by decide)
    exact OnlyChanges.refl _ _

theorem powerEvents_frame (b : CtWord) (s : State) :
    OnlyChanges [.cap, .host, .power, .sched, .xing, .store] s (powerEvents b s) := by
  unfold powerEvents
  extract_lets x0
  clear_value x0
  refine OnlyChanges.fold ?_ (fun u1 y2 h3 => ?_)
  · refine only_sched ?_ _ (by decide)
    exact OnlyChanges.refl _ _
  · refine OnlyChanges.step ?_ (opPrefSet_frame _ _) (by decide)
    assumption

theorem turnDone_frame (m : PowerSense) (b : CtWord) (s : State) :
    OnlyChanges [.fields, .host, .power, .xing, .store] s (turnDone m b s) := by
  unfold turnDone
  extract_lets x0 x1 x2
  have h3 : OnlyChanges [.fields, .host, .power, .xing, .store] s x2 := by
    unfold x2
    refine only_fields_power ?_ _ _ (by decide)
    exact OnlyChanges.refl _ _
  clear_value x0 x1 x2
  refine OnlyChanges.ite ?_ ?_
  · assumption
  · refine OnlyChanges.step ?_ (post_frame _ _ _) (by decide)
    assumption

theorem beginTurn_frame (b : CtWord) (s : State) :
    OnlyChanges [.power, .cad] s (beginTurn b s) := by
  unfold beginTurn
  extract_lets x0 x1 x2
  clear_value x0 x1 x2
  split
  · rename_i v3 v4 v5
    refine only_cad_power ?_ _ _ (by decide)
    exact OnlyChanges.refl _ _
  · rename_i v6 v7
    refine only_power ?_ _ (by decide)
    exact OnlyChanges.refl _ _

theorem applyPlan_frame (s : State) :
    OnlyChanges [.fields, .power, .rel] s (applyPlan s) := by
  unfold applyPlan
  split
  · rename_i v0 v1
    exact OnlyChanges.refl _ _
  · rename_i v2 v3 v4
    extract_lets x5 x6 x7
    have h8 : OnlyChanges [.fields, .power, .rel] s x5 := by
      unfold x5
      refine OnlyChanges.step ?_ (journalRecord_frame _) (by decide)
      exact OnlyChanges.refl _ _
    have h9 : OnlyChanges [.fields, .power, .rel] s x7 := by
      unfold x7
      refine only_power ?_ _ (by decide)
      assumption
    clear_value x5 x6 x7
    refine OnlyChanges.fold ?_ (fun u10 y11 h12 => ?_)
    · assumption
    · refine OnlyChanges.step ?_ (adjField_frame _ _ _) (by decide)
      assumption

theorem takeTemps_frame (m : PowerSense) (s : State) :
    OnlyChanges [.fields, .power] s (takeTemps m s) := by
  unfold takeTemps
  extract_lets x0 x1
  have h2 : OnlyChanges [.fields, .power] s x0 := by
    unfold x0
    refine OnlyChanges.fold ?_ (fun u3 y4 h5 => ?_)
    · exact OnlyChanges.refl _ _
    · refine OnlyChanges.step ?_ (adjField_frame _ _ _) (by decide)
      assumption
  clear_value x0 x1
  refine only_power ?_ _ (by decide)
  assumption

theorem execPowerTurnBoundary_frame (m : PowerSense) (s : State) :
    outAll (OnlyChanges [.cap, .fields, .host, .power, .sched, .xing, .store, .cad, .rel] s) (execPowerTurnBoundary m s) := by
  unfold execPowerTurnBoundary
  split
  · rename_i v0
    change OnlyChanges [.cap, .fields, .host, .power, .sched, .xing, .store, .cad, .rel] s _
    exact OnlyChanges.refl _ _
  · rename_i v1
    split
    · rename_i v2 v3
      refine absorb (P := optAll (OnlyChanges [.cap, .fields, .host, .power, .sched, .xing, .store, .cad, .rel] s)) v3 ?_ (fun q4 => ?_)
      · refine OnlyChanges.stepOpt ?_ (comeTo_frame _ _ _) (by decide)
        exact OnlyChanges.refl _ _
      change OnlyChanges [.cap, .fields, .host, .power, .sched, .xing, .store, .cad, .rel] s _
      exact OnlyChanges.refl _ _
    · rename_i v5 v6 v7
      refine absorb (P := optAll (OnlyChanges [.cap, .fields, .host, .power, .sched, .xing, .store, .cad, .rel] s)) v7 ?_ (fun q8 => ?_)
      · refine OnlyChanges.stepOpt ?_ (comeTo_frame _ _ _) (by decide)
        exact OnlyChanges.refl _ _
      split
      · rename_i v9 v10
        change OnlyChanges [.cap, .fields, .host, .power, .sched, .xing, .store, .cad, .rel] s _
        assumption
      · rename_i v11 v12 v13
        extract_lets x14
        have h15 : OnlyChanges [.cap, .fields, .host, .power, .sched, .xing, .store, .cad, .rel] s x14 := by
          unfold x14
          refine OnlyChanges.ite ?_ ?_
          · refine OnlyChanges.step ?_ (turnDone_frame _ _ _) (by decide)
            assumption
          · assumption
        clear_value x14
        change OnlyChanges [.cap, .fields, .host, .power, .sched, .xing, .store, .cad, .rel] s _
        refine OnlyChanges.step ?_ (makePlan_frame _ _) (by decide)
        refine OnlyChanges.step ?_ (powerEvents_frame _ _) (by decide)
        refine OnlyChanges.step ?_ (applyPlan_frame _) (by decide)
        refine OnlyChanges.step ?_ (beginTurn_frame _ _) (by decide)
        refine OnlyChanges.step ?_ (takeTemps_frame _ _) (by decide)
        assumption

theorem execGrantStale_frame (s : State) :
    outAll (OnlyChanges [.host, .power, .xing, .store] s) (execGrantStale s) := by
  unfold execGrantStale
  split
  · rename_i v0
    change OnlyChanges [.host, .power, .xing, .store] s _
    refine OnlyChanges.step ?_ (post_frame _ _ _) (by decide)
    refine only_power ?_ _ (by decide)
    exact OnlyChanges.refl _ _
  · rename_i v1
    change OnlyChanges [.host, .power, .xing, .store] s _
    exact OnlyChanges.refl _ _

theorem mctpReply_frame (l : List Byte) (s : State) :
    OnlyChanges [.host] s (mctpReply l s) := by
  unfold mctpReply
  refine only_host ?_ _ (by decide)
  exact OnlyChanges.refl _ _

theorem execGrant_frame (seq : Byte) (turn : W64) (watts : W32) (s : State) :
    outAll (OnlyChanges [.host, .power, .freeCtr] s) (execGrant seq turn watts s) := by
  unfold execGrant
  split
  · rename_i v0
    change OnlyChanges [.host, .power, .freeCtr] s _
    exact OnlyChanges.refl _ _
  · rename_i v1
    split
    · rename_i v2
      split
      · rename_i v3 v4 v5 v6
        refine absorb (P := sndAll (OnlyChanges [.host, .power, .freeCtr] s)) v6 ?_ (fun q7 => ?_)
        · refine OnlyChanges.stepSnd ?_ (draw_frame _) (by decide)
          exact OnlyChanges.refl _ _
        change OnlyChanges [.host, .power, .freeCtr] s _
        refine OnlyChanges.step ?_ (mctpReply_frame _ _) (by decide)
        assumption
    · rename_i v8
      extract_lets x9 x10 x11 x12 x13 x14 x15
      clear_value x9 x10 x11 x12 x13 x14 x15
      change OnlyChanges [.host, .power, .freeCtr] s _
      refine OnlyChanges.step ?_ (mctpReply_frame _ _) (by decide)
      refine only_power ?_ _ (by decide)
      exact OnlyChanges.refl _ _

theorem execOffset_frame (seq : Byte) (off : BitVec 16) (s : State) :
    outAll (OnlyChanges [.host, .cad] s) (execOffset seq off s) := by
  unfold execOffset
  extract_lets x0 x1
  have h2 : ∀ a3 a4, OnlyChanges [.host, .cad] s a4 → outAll (OnlyChanges [.host, .cad] s) (x0 a3 a4) := by
    intro b5 b6 k7
    unfold x0
    change OnlyChanges [.host, .cad] s _
    refine OnlyChanges.step ?_ (mctpReply_frame _ _) (by decide)
    assumption
  clear_value x0 x1
  split
  · rename_i v8
    change OnlyChanges [.host, .cad] s _
    exact OnlyChanges.refl _ _
  · rename_i v9
    split
    · rename_i v10
      apply h2
      · exact OnlyChanges.refl _ _
    · rename_i v11
      split
      · rename_i v12
        apply h2
        · exact OnlyChanges.refl _ _
      · rename_i v13
        apply h2
        · refine OnlyChanges.step ?_ (setCad_frame _ _) (by decide)
          exact OnlyChanges.refl _ _

theorem execReport_frame (seq : Byte) (s : State) :
    outAll (OnlyChanges [.host] s) (execReport seq s) := by
  unfold execReport
  extract_lets x0
  clear_value x0
  split
  · rename_i v1
    change OnlyChanges [.host] s _
    exact OnlyChanges.refl _ _
  · rename_i v2
    change OnlyChanges [.host] s _
    refine OnlyChanges.step ?_ (mctpReply_frame _ _) (by decide)
    exact OnlyChanges.refl _ _

theorem execGetSensorReading_frame (k : Nat) (s : State) :
    outAll (OnlyChanges [.host] s) (execGetSensorReading k s) := by
  unfold execGetSensorReading
  split
  · rename_i v0
    change OnlyChanges [.host] s _
    refine OnlyChanges.step ?_ (mctpReply_frame _ _) (by decide)
    exact OnlyChanges.refl _ _
  · rename_i v1
    change OnlyChanges [.host] s _
    exact OnlyChanges.refl _ _

theorem execDroopStretch_frame (n : Nat) (belowMv : Nat) (s : State) :
    outAll (OnlyChanges [.fields] s) (execDroopStretch n belowMv s) := by
  unfold execDroopStretch
  split
  · rename_i v0
    change OnlyChanges [.fields] s _
    refine OnlyChanges.step ?_ (adjField_frame _ _ _) (by decide)
    exact OnlyChanges.refl _ _
  · rename_i v1
    change OnlyChanges [.fields] s _
    exact OnlyChanges.refl _ _

theorem execStretchEnd_frame (n : Nat) (cycles : Nat) (s : State) :
    outAll (OnlyChanges [.fields] s) (execStretchEnd n cycles s) := by
  unfold execStretchEnd
  split
  · rename_i v0
    change OnlyChanges [.fields] s _
    refine OnlyChanges.step ?_ (adjField_frame _ _ _) (by decide)
    exact OnlyChanges.refl _ _
  · rename_i v1
    change OnlyChanges [.fields] s _
    exact OnlyChanges.refl _ _

theorem writePwrCtrl_frame (v : W64) (s : State) :
    OnlyChanges [.host, .power, .xing, .store] s (writePwrCtrl v s) := by
  unfold writePwrCtrl
  refine OnlyChanges.ite ?_ ?_
  · refine OnlyChanges.step ?_ (lockViolation_frame _) (by decide)
    exact OnlyChanges.refl _ _
  · extract_lets x0 x1
    clear_value x0 x1
    refine only_power ?_ _ (by decide)
    exact OnlyChanges.refl _ _

theorem addBadTile_frame (u : Nat) (s : State) :
    OnlyChanges [.store] s (addBadTile u s) := by
  unfold addBadTile
  refine OnlyChanges.ite ?_ ?_
  · exact OnlyChanges.refl _ _
  · refine only_store ?_ _ (by decide)
    exact OnlyChanges.refl _ _

theorem clearTally_frame (f : Nat) (r : Nat) (s : State) :
    OnlyChanges [.fields] s (clearTally f r s) := by
  unfold clearTally
  refine OnlyChanges.step ?_ (adjField_frame _ _ _) (by decide)
  exact OnlyChanges.refl _ _

theorem degradeRow_frame (f : Nat) (r : Nat) (s : State) :
    OnlyChanges [.fields, .rel] s (degradeRow f r s) := by
  unfold degradeRow
  refine OnlyChanges.step ?_ (adjField_frame _ _ _) (by decide)
  refine only_rel ?_ _ (by decide)
  exact OnlyChanges.refl _ _

theorem requestSplice_frame (u : Nat) (s : State) :
    OnlyChanges [.rel] s (requestSplice u s) := by
  unfold requestSplice
  refine OnlyChanges.ite ?_ ?_
  · exact OnlyChanges.refl _ _
  · refine only_rel ?_ _ (by decide)
    exact OnlyChanges.refl _ _

theorem requestWear_frame (u : Nat) (s : State) :
    OnlyChanges [.rel] s (requestWear u s) := by
  unfold requestWear
  refine OnlyChanges.ite ?_ ?_
  · exact OnlyChanges.refl _ _
  · refine OnlyChanges.step ?_ (requestSplice_frame _ _) (by decide)
    refine only_rel ?_ _ (by decide)
    exact OnlyChanges.refl _ _

theorem requestFailed_frame (u : Nat) (s : State) :
    OnlyChanges [.rel] s (requestFailed u s) := by
  unfold requestFailed
  refine OnlyChanges.step ?_ (requestSplice_frame _ _) (by decide)
  refine only_rel ?_ _ (by decide)
  exact OnlyChanges.refl _ _

theorem testFails_frame (f : Nat) (r : Nat) (s : State) (c : Nat) :
    OnlyChanges [.host, .xing, .store, .rel] s (testFails f r s c) := by
  unfold testFails
  extract_lets x0
  clear_value x0
  refine OnlyChanges.step ?_ (requestFailed_frame _ _) (by decide)
  refine OnlyChanges.step ?_ (record_frame _ _ _ _ _ _ _ _ _ _) (by decide)
  exact OnlyChanges.refl _ _

theorem execSelfTest_frame (f : Nat) (r : Nat) (bad : List Nat) (s : State) :
    outAll (OnlyChanges [.host, .xing, .store, .rel] s) (execSelfTest f r bad s) := by
  unfold execSelfTest
  extract_lets x0 x1 x2 x3
  have h4 : OnlyChanges [.host, .xing, .store, .rel] s x3 := by
    unfold x3
    refine only_rel ?_ _ (by decide)
    exact OnlyChanges.refl _ _
  clear_value x0 x1 x2 x3
  split
  · rename_i v5
    change OnlyChanges [.host, .xing, .store, .rel] s _
    refine OnlyChanges.fold ?_ (fun u6 y7 h8 => ?_)
    · assumption
    · refine OnlyChanges.step ?_ (testFails_frame _ _ _ _) (by decide)
      assumption
  · rename_i v9
    change OnlyChanges [.host, .xing, .store, .rel] s _
    exact OnlyChanges.refl _ _

theorem zeroTile_frame (L : Nat) (s : State) :
    OnlyChanges [.knots, .mem] s (zeroTile L s) := by
  unfold zeroTile
  refine only_knots_mem ?_ _ _ (by decide)
  exact OnlyChanges.refl _ _

theorem spareRuns_frame (f : Nat) (r : Nat) (s : State) :
    OnlyChanges [.plays] s (spareRuns f r s) := by
  unfold spareRuns
  refine only_plays ?_ _ (by decide)
  exact OnlyChanges.refl _ _

theorem noSpare_frame (f : Nat) (r : Nat) (u : Nat) (s : State) :
    OnlyChanges [.fields, .host, .xing, .plays, .store, .rel] s (noSpare f r u s) := by
  unfold noSpare
  refine OnlyChanges.step ?_ (record_frame _ _ _ _ _ _ _ _ _ _) (by decide)
  refine OnlyChanges.step ?_ (degradeRow_frame _ _ _) (by decide)
  refine OnlyChanges.step ?_ (addBadTile_frame _ _) (by decide)
  refine OnlyChanges.step ?_ (spareRuns_frame _ _ _) (by decide)
  exact OnlyChanges.refl _ _

theorem spliceRow_frame (f : Nat) (r : Nat) (c : Nat) (readable : Bool) (s : State) :
    OnlyChanges [.cap, .caches, .parts, .knots, .fields, .host, .xing, .store, .rel, .mem] s (spliceRow f r c readable s) := by
  unfold spliceRow
  extract_lets x0 x1 x2 x3 x4 x5 x6
  have h7 : OnlyChanges [.cap, .caches, .parts, .knots, .fields, .host, .xing, .store, .rel, .mem] s x3 := by
    unfold x3
    refine OnlyChanges.ite ?_ ?_
    · exact OnlyChanges.refl _ _
    · refine OnlyChanges.step ?_ (zeroTile_frame _ _) (by decide)
      refine only_cap ?_ _ (by decide)
      exact OnlyChanges.refl _ _
  have h8 : OnlyChanges [.cap, .caches, .parts, .knots, .fields, .host, .xing, .store, .rel, .mem] s x5 := by
    unfold x5
    refine only_caches_rel ?_ _ _ (by decide)
    assumption
  have h9 : OnlyChanges [.cap, .caches, .parts, .knots, .fields, .host, .xing, .store, .rel, .mem] s x6 := by
    unfold x6
    refine OnlyChanges.step ?_ (invalidateRow_frame _ _ _) (by decide)
    refine OnlyChanges.step ?_ (clearTally_frame _ _ _) (by decide)
    refine OnlyChanges.step ?_ (addBadTile_frame _ _) (by decide)
    assumption
  clear_value x0 x1 x2 x3 x4 x5 x6
  refine OnlyChanges.step ?_ (record_frame _ _ _ _ _ _ _ _ _ _) (by decide)
  refine OnlyChanges.step ?_ (postFull_frame _ _ _ _ _ _ _) (by decide)
  refine OnlyChanges.step ?_ (journalRecord_frame _) (by decide)
  assumption

theorem execTileSplice_frame (f : Nat) (r : Nat) (c : Nat) (readable : Bool) (s : State) :
    outAll (OnlyChanges [.cap, .caches, .parts, .knots, .fields, .host, .xing, .plays, .store, .rel, .mem] s) (execTileSplice f r c readable s) := by
  unfold execTileSplice
  extract_lets x0 x1
  have h2 : ∀ a3, OnlyChanges [.cap, .caches, .parts, .knots, .fields, .host, .xing, .plays, .store, .rel, .mem] s a3 → OnlyChanges [.cap, .caches,
      .parts, .knots, .fields, .host, .xing, .plays, .store, .rel, .mem] s (x1 a3) := by
    intro b4 k5
    unfold x1
    refine only_rel ?_ _ (by decide)
    assumption
  clear_value x0 x1
  split
  · rename_i v6
    change OnlyChanges [.cap, .caches, .parts, .knots, .fields, .host, .xing, .plays, .store, .rel, .mem] s _
    exact OnlyChanges.refl _ _
  · rename_i v7
    split
    · rename_i v8
      split
      · rename_i v9
        change OnlyChanges [.cap, .caches, .parts, .knots, .fields, .host, .xing, .plays, .store, .rel, .mem] s _
        apply h2
        · refine OnlyChanges.step ?_ (record_frame _ _ _ _ _ _ _ _ _ _) (by decide)
          refine OnlyChanges.step ?_ (clearTally_frame _ _ _) (by decide)
          refine OnlyChanges.step ?_ (addBadTile_frame _ _) (by decide)
          refine OnlyChanges.step ?_ (journalRecord_frame _) (by decide)
          exact OnlyChanges.refl _ _
      · rename_i v10
        split
        · rename_i v11
          change OnlyChanges [.cap, .caches, .parts, .knots, .fields, .host, .xing, .plays, .store, .rel, .mem] s _
          apply h2
          · refine OnlyChanges.step ?_ (spliceRow_frame _ _ _ _ _) (by decide)
            exact OnlyChanges.refl _ _
        · rename_i v12
          change OnlyChanges [.cap, .caches, .parts, .knots, .fields, .host, .xing, .plays, .store, .rel, .mem] s _
          exact OnlyChanges.refl _ _
    · rename_i v13
      split
      · rename_i v14
        change OnlyChanges [.cap, .caches, .parts, .knots, .fields, .host, .xing, .plays, .store, .rel, .mem] s _
        apply h2
        · exact OnlyChanges.refl _ _
      · rename_i v15
        change OnlyChanges [.cap, .caches, .parts, .knots, .fields, .host, .xing, .plays, .store, .rel, .mem] s _
        apply h2
        · refine OnlyChanges.step ?_ (noSpare_frame _ _ _ _) (by decide)
          exact OnlyChanges.refl _ _

theorem execTileWear_frame (u : Nat) (count : Nat) (s : State) :
    outAll (OnlyChanges [.host, .xing, .store, .rel] s) (execTileWear u count s) := by
  unfold execTileWear
  split
  · rename_i v0
    change OnlyChanges [.host, .xing, .store, .rel] s _
    exact OnlyChanges.refl _ _
  · rename_i v1
    extract_lets x2 x3 x4 x5 x6 x7 x8
    have h9 : OnlyChanges [.host, .xing, .store, .rel] s x3 := by
      unfold x3
      refine only_rel ?_ _ (by decide)
      exact OnlyChanges.refl _ _
    clear_value x2 x3 x4 x5 x6 x7 x8
    split
    · rename_i v10
      change OnlyChanges [.host, .xing, .store, .rel] s _
      assumption
    · rename_i v11
      split
      · rename_i v12 v13
        change OnlyChanges [.host, .xing, .store, .rel] s _
        refine only_store ?_ _ (by decide)
        assumption
      · rename_i v14 v15 v16
        extract_lets x17 x18 x19 x20
        have h21 : OnlyChanges [.host, .xing, .store, .rel] s x18 := by
          unfold x18
          refine OnlyChanges.ite ?_ ?_
          · assumption
          · refine OnlyChanges.step ?_ (record_frame _ _ _ _ _ _ _ _ _ _) (by decide)
            assumption
        have h22 : OnlyChanges [.host, .xing, .store, .rel] s x20 := by
          unfold x20
          refine OnlyChanges.ite ?_ ?_
          · assumption
          · refine only_rel ?_ _ (by decide)
            assumption
        clear_value x17 x18 x19 x20
        split
        · rename_i v23
          change OnlyChanges [.host, .xing, .store, .rel] s _
          assumption
        · rename_i v24
          change OnlyChanges [.host, .xing, .store, .rel] s _
          refine OnlyChanges.ite ?_ ?_
          · refine OnlyChanges.step ?_ (requestWear_frame _ _) (by decide)
            assumption
          · assumption

theorem addBadPhase_frame (u : Nat) (s : State) :
    OnlyChanges [.store] s (addBadPhase u s) := by
  unfold addBadPhase
  refine OnlyChanges.ite ?_ ?_
  · exact OnlyChanges.refl _ _
  · refine only_store ?_ _ (by decide)
    exact OnlyChanges.refl _ _

theorem execPhaseFault_frame (f : Nat) (k : Nat) (s : State) :
    outAll (OnlyChanges [.fields, .host, .xing, .store, .rel] s) (execPhaseFault f k s) := by
  unfold execPhaseFault
  extract_lets x0 x1 x2 x3 x4 x5
  have h6 : OnlyChanges [.fields, .host, .xing, .store, .rel] s x3 := by
    unfold x3
    refine OnlyChanges.step ?_ (addBadPhase_frame _ _) (by decide)
    refine OnlyChanges.step ?_ (setField_frame _ _ _) (by decide)
    exact OnlyChanges.refl _ _
  have h7 : OnlyChanges [.fields, .host, .xing, .store, .rel] s x4 := by
    unfold x4
    refine OnlyChanges.step ?_ (record_frame _ _ _ _ _ _ _ _ _ _) (by decide)
    assumption
  clear_value x0 x1 x2 x3 x4 x5
  split
  · rename_i v8
    change OnlyChanges [.fields, .host, .xing, .store, .rel] s _
    exact OnlyChanges.refl _ _
  · rename_i v9
    split
    · rename_i v10
      change OnlyChanges [.fields, .host, .xing, .store, .rel] s _
      refine OnlyChanges.step ?_ (postFull_frame _ _ _ _ _ _ _) (by decide)
      refine only_rel ?_ _ (by decide)
      assumption
    · rename_i v11
      change OnlyChanges [.fields, .host, .xing, .store, .rel] s _
      assumption

theorem usePll_frame (d : Nat) (s : State) :
    OnlyChanges [.fields, .rel] s (usePll d s) := by
  unfold usePll
  refine OnlyChanges.ite ?_ ?_
  · refine OnlyChanges.step ?_ (adjField_frame _ _ _) (by decide)
    exact OnlyChanges.refl _ _
  · refine only_rel ?_ _ (by decide)
    exact OnlyChanges.refl _ _

theorem stopDomain_frame (d : Nat) (s : State) :
    OnlyChanges [.fields, .rel] s (stopDomain d s) := by
  unfold stopDomain
  extract_lets x0 x1 x2
  have h3 : OnlyChanges [.fields, .rel] s x1 := by
    unfold x1
    refine only_rel ?_ _ (by decide)
    exact OnlyChanges.refl _ _
  clear_value x0 x1 x2
  refine OnlyChanges.ite ?_ ?_
  · refine OnlyChanges.step ?_ (adjField_frame _ _ _) (by decide)
    assumption
  · refine only_rel ?_ _ (by decide)
    assumption

theorem execPllSwitch_frame (d : Nat) (s : State) :
    outAll (OnlyChanges [.fields, .host, .xing, .store, .rel] s) (execPllSwitch d s) := by
  unfold execPllSwitch
  extract_lets x0
  clear_value x0
  split
  · rename_i v1
    change OnlyChanges [.fields, .host, .xing, .store, .rel] s _
    exact OnlyChanges.refl _ _
  · rename_i v2
    split
    · rename_i v3
      change OnlyChanges [.fields, .host, .xing, .store, .rel] s _
      refine OnlyChanges.step ?_ (record_frame _ _ _ _ _ _ _ _ _ _) (by decide)
      refine OnlyChanges.step ?_ (xingReset_frame _ _) (by decide)
      refine OnlyChanges.step ?_ (usePll_frame _ _) (by decide)
      exact OnlyChanges.refl _ _
    · rename_i v4
      change OnlyChanges [.fields, .host, .xing, .store, .rel] s _
      refine OnlyChanges.step ?_ (record_frame _ _ _ _ _ _ _ _ _ _) (by decide)
      refine OnlyChanges.step ?_ (stopDomain_frame _ _) (by decide)
      exact OnlyChanges.refl _ _

theorem execCcStandbyLost_frame (s : State) :
    outAll (OnlyChanges [.host, .xing, .store, .rel] s) (execCcStandbyLost s) := by
  unfold execCcStandbyLost
  split
  · rename_i v0
    change OnlyChanges [.host, .xing, .store, .rel] s _
    refine OnlyChanges.step ?_ (ledgerRec_frame _ _ _ _ _ _ _ _) (by decide)
    refine OnlyChanges.step ?_ (post_frame _ _ _) (by decide)
    refine only_rel ?_ _ (by decide)
    exact OnlyChanges.refl _ _
  · rename_i v1
    change OnlyChanges [.host, .xing, .store, .rel] s _
    exact OnlyChanges.refl _ _

end Sys2Proof.Machine
end

