-- ==== Sys2Proof/Laws/FrameHost.lean ====
section
/-! SUPPORT. Frames: what each function of the bring-up, security, telemetry, registers and the host interface can change. -/

namespace Sys2Proof.Machine

theorem setBu_frame (b : BringUp) (s : State) :
    OnlyChanges [.bu] s (setBu b s) := by
  unfold setBu
  refine only_bu ?_ _ (by decide)
  exact OnlyChanges.refl _ _

theorem startRails_frame (s : State) :
    OnlyChanges [.fields] s (startRails s) := by
  unfold startRails
  refine OnlyChanges.fold ?_ (fun u0 y1 h2 => ?_)
  · exact OnlyChanges.refl _ _
  · refine OnlyChanges.step ?_ (adjField_frame _ _ _) (by decide)
    assumption

theorem openStage_frame (n : Nat) (s : State) :
    OnlyChanges [.bu, .fields] s (openStage n s) := by
  unfold openStage
  extract_lets x0 x1
  have h2 : OnlyChanges [.bu, .fields] s x0 := by
    unfold x0
    refine OnlyChanges.ite ?_ ?_
    · refine OnlyChanges.step ?_ (startRails_frame _) (by decide)
      exact OnlyChanges.refl _ _
    · exact OnlyChanges.refl _ _
  clear_value x0 x1
  refine OnlyChanges.step ?_ (setBu_frame _ _) (by decide)
  assumption

theorem refuseOpen_frame (origin : Nat) (s : State) :
    OnlyChanges [.bu, .host, .xing, .store] s (refuseOpen origin s) := by
  unfold refuseOpen
  refine OnlyChanges.step ?_ (postFull_frame _ _ _ _ _ _ _) (by decide)
  refine OnlyChanges.step ?_ (setBu_frame _ _) (by decide)
  exact OnlyChanges.refl _ _

theorem writeBuCtrl_frame (v : W64) (s : State) :
    OnlyChanges [.bu, .fields, .host, .xing, .store] s (writeBuCtrl v s) := by
  unfold writeBuCtrl
  extract_lets x0
  clear_value x0
  refine OnlyChanges.ite ?_ ?_
  · refine OnlyChanges.step ?_ (openStage_frame _ _) (by decide)
    exact OnlyChanges.refl _ _
  · refine OnlyChanges.step ?_ (refuseOpen_frame _ _) (by decide)
    exact OnlyChanges.refl _ _

theorem opBuOpen_frame (p : Packet) (s : State) :
    OnlyChanges [.cap, .bu, .fields, .host, .xing, .store] s (opBuOpen p s) := by
  unfold opBuOpen
  extract_lets x0
  clear_value x0
  refine OnlyChanges.ite ?_ ?_
  · refine OnlyChanges.step ?_ (accept_frame _ _) (by decide)
    refine OnlyChanges.step ?_ (openStage_frame _ _) (by decide)
    exact OnlyChanges.refl _ _
  · refine OnlyChanges.step ?_ (refuse_frame _ _ _) (by decide)
    refine OnlyChanges.step ?_ (refuseOpen_frame _ _) (by decide)
    exact OnlyChanges.refl _ _

theorem stageResult_frame (st : StageState) (code : BitVec 16) (cause : Nat) (s : State) :
    OnlyChanges [.bu] s (stageResult st code cause s) := by
  unfold stageResult
  refine OnlyChanges.step ?_ (setBu_frame _ _) (by decide)
  exact OnlyChanges.refl _ _

theorem stageOk_frame (s : State) :
    OnlyChanges [.bu] s (stageOk s) := by
  unfold stageOk
  refine OnlyChanges.step ?_ (stageResult_frame _ _ _ _) (by decide)
  exact OnlyChanges.refl _ _

theorem stageFatal_frame (cause : Nat) (s : State) :
    OnlyChanges [.bu] s (stageFatal cause s) := by
  unfold stageFatal
  refine OnlyChanges.step ?_ (stageResult_frame _ _ _ _) (by decide)
  exact OnlyChanges.refl _ _

theorem loadImage_frame (kind : Nat) (s : State) :
    OnlyChanges [.bu] s (loadImage kind s) := by
  unfold loadImage
  extract_lets x0 x1
  clear_value x0 x1
  refine OnlyChanges.step ?_ (setBu_frame _ _) (by decide)
  exact OnlyChanges.refl _ _

theorem imageStage_frame {l : List Part} {s t : State} {stage kind : Nat} {go : State → State} (hs : OnlyChanges l s t)
    (hl : ∀ p ∈ [Part.bu], p ∈ l) (ha : ∀ u, OnlyChanges l s u → OnlyChanges l s (go u)) :
    outAll (OnlyChanges l s) (imageStage stage kind go t) := by
  unfold imageStage
  split
  · exact hs
  · split
    · exact OnlyChanges.step hs (stageResult_frame _ _ _ _) hl
    · exact ha _ (OnlyChanges.step hs (loadImage_frame _ _) hl)

theorem writeWindow_frame (port : Nat) (off : Nat) (data : List Byte) (s : State) :
    OnlyChanges [.bu, .host, .xing, .store] s (writeWindow port off data s) := by
  unfold writeWindow
  refine OnlyChanges.ite ?_ ?_
  · exact OnlyChanges.refl _ _
  · refine OnlyChanges.ite ?_ ?_
    · refine OnlyChanges.ite ?_ ?_
      · exact OnlyChanges.refl _ _
      · refine OnlyChanges.step ?_ (post_frame _ _ _) (by decide)
        refine OnlyChanges.step ?_ (setBu_frame _ _) (by decide)
        exact OnlyChanges.refl _ _
    · refine OnlyChanges.step ?_ (setBu_frame _ _) (by decide)
      exact OnlyChanges.refl _ _

theorem execFwStageWrite_frame (port : Nat) (off : Nat) (data : List Byte) (s : State) :
    outAll (OnlyChanges [.bu, .host, .xing, .store] s) (execFwStageWrite port off data s) := by
  unfold execFwStageWrite
  change OnlyChanges [.bu, .host, .xing, .store] s _
  refine OnlyChanges.step ?_ (writeWindow_frame _ _ _ _) (by decide)
  exact OnlyChanges.refl _ _

theorem execStageCcFw_frame (s : State) :
    outAll (OnlyChanges [.bu] s) (execStageCcFw s) := by
  unfold execStageCcFw
  refine imageStage_frame ?_ (by decide) ?_
  · exact OnlyChanges.refl _ _
  · intro a0
    intro a1
    refine OnlyChanges.step ?_ (stageOk_frame _) (by decide)
    assumption

theorem bistRecord_frame (unit : W32) (s : State) :
    OnlyChanges [.freeCtr, .store] s (bistRecord unit s) := by
  unfold bistRecord
  split
  · rename_i v0 v1 v2 v3
    refine absorb (P := sndAll (OnlyChanges [.freeCtr, .store] s)) v3 ?_ (fun q4 => ?_)
    · refine OnlyChanges.stepSnd ?_ (draw_frame _) (by decide)
      exact OnlyChanges.refl _ _
    refine OnlyChanges.step ?_ (ledgerRec_frame _ _ _ _ _ _ _ _) (by decide)
    assumption

theorem addBad_frame (kind : Nat) (u : Nat) (l : List Nat) (s : State) :
    sndAll (OnlyChanges [.freeCtr, .store] s) (addBad kind u l s) := by
  unfold addBad
  split
  · rename_i v0
    refine sndAll_mk ?_
    exact OnlyChanges.refl _ _
  · rename_i v1
    refine sndAll_mk ?_
    refine OnlyChanges.step ?_ (bistRecord_frame _ _) (by decide)
    exact OnlyChanges.refl _ _

theorem takeBist_frame (v : Inventory) (s : State) :
    OnlyChanges [.host, .xing, .freeCtr, .store] s (takeBist v s) := by
  unfold takeBist
  extract_lets x0 x1 x2
  have h3 : OnlyChanges [.host, .xing, .freeCtr, .store] s x0 := by
    unfold x0
    refine OnlyChanges.fold ?_ (fun u4 y5 h6 => ?_)
    · exact OnlyChanges.refl _ _
    · split
      · rename_i v7 v8 v9 v10
        refine absorb (P := sndAll (OnlyChanges [.host, .xing, .freeCtr, .store] s)) v10 ?_ (fun q11 => ?_)
        · refine OnlyChanges.stepSnd ?_ (addBad_frame _ _ _ _) (by decide)
          assumption
        refine only_store ?_ _ (by decide)
        assumption
  have h12 : OnlyChanges [.host, .xing, .freeCtr, .store] s x1 := by
    unfold x1
    refine OnlyChanges.fold ?_ (fun u13 y14 h15 => ?_)
    · assumption
    · split
      · rename_i v16 v17 v18 v19
        refine absorb (P := sndAll (OnlyChanges [.host, .xing, .freeCtr, .store] s)) v19 ?_ (fun q20 => ?_)
        · refine OnlyChanges.stepSnd ?_ (addBad_frame _ _ _ _) (by decide)
          assumption
        refine only_store ?_ _ (by decide)
        assumption
  have h21 : OnlyChanges [.host, .xing, .freeCtr, .store] s x2 := by
    unfold x2
    refine OnlyChanges.fold ?_ (fun u22 y23 h24 => ?_)
    · assumption
    · split
      · rename_i v25 v26 v27 v28
        refine absorb (P := sndAll (OnlyChanges [.host, .xing, .freeCtr, .store] s)) v28 ?_ (fun q29 => ?_)
        · refine OnlyChanges.stepSnd ?_ (addBad_frame _ _ _ _) (by decide)
          assumption
        refine only_store ?_ _ (by decide)
        assumption
  clear_value x0 x1 x2
  refine OnlyChanges.fold ?_ (fun u30 y31 h32 => ?_)
  · assumption
  · refine OnlyChanges.ite ?_ ?_
    · assumption
    · refine OnlyChanges.step ?_ (addBadPhase_frame _ _) (by decide)
      refine OnlyChanges.step ?_ (record_frame _ _ _ _ _ _ _ _ _ _) (by decide)
      assumption

theorem assignRow_frame (f : Nat) (r : Nat) (s : State) :
    OnlyChanges [.bu, .fields, .rel] s (assignRow f r s) := by
  unfold assignRow
  extract_lets x0 x1 x2 x3
  have h4 : ∀ a5, OnlyChanges [.bu, .fields, .rel] s a5 → OnlyChanges [.bu, .fields, .rel] s (x0 a5) := by
    intro b6 k7
    unfold x0
    refine OnlyChanges.step ?_ (clearTally_frame _ _ _) (by decide)
    refine OnlyChanges.step ?_ (setBu_frame _ _) (by decide)
    assumption
  have h8 : OnlyChanges [.bu, .fields, .rel] s x3 := by
    unfold x3
    refine OnlyChanges.step ?_ (degradeRow_frame _ _ _) (by decide)
    refine OnlyChanges.step ?_ (setBu_frame _ _) (by decide)
    exact OnlyChanges.refl _ _
  clear_value x0 x1 x2 x3
  split
  · rename_i v9 v10
    exact OnlyChanges.refl _ _
  · rename_i v11 v12
    apply h4
    · exact OnlyChanges.refl _ _
  · rename_i v13 v14 v15 v16
    apply h4
    · refine only_rel ?_ _ (by decide)
      exact OnlyChanges.refl _ _
  · rename_i v17 v18 v19 v20
    refine OnlyChanges.ite ?_ ?_
    · apply h4
      · assumption
    · assumption

theorem assignTiles_frame (s : State) :
    OnlyChanges [.bu, .fields, .rel] s (assignTiles s) := by
  unfold assignTiles
  refine OnlyChanges.fold ?_ (fun u0 y1 h2 => ?_)
  · exact OnlyChanges.refl _ _
  · refine OnlyChanges.step ?_ (assignRow_frame _ _ _) (by decide)
    assumption

theorem assignPll_frame (s : State) (d : Nat) :
    OnlyChanges [.bu, .fields, .rel] s (assignPll s d) := by
  unfold assignPll
  split
  · rename_i v0 v1
    exact OnlyChanges.refl _ _
  · rename_i v2 v3 v4
    refine OnlyChanges.step ?_ (usePll_frame _ _) (by decide)
    exact OnlyChanges.refl _ _
  · rename_i v5 v6 v7
    refine OnlyChanges.ite ?_ ?_
    · refine OnlyChanges.step ?_ (stopDomain_frame _ _) (by decide)
      refine OnlyChanges.step ?_ (setBu_frame _ _) (by decide)
      refine OnlyChanges.step ?_ (usePll_frame _ _) (by decide)
      exact OnlyChanges.refl _ _
    · refine OnlyChanges.step ?_ (stopDomain_frame _ _) (by decide)
      refine OnlyChanges.step ?_ (usePll_frame _ _) (by decide)
      exact OnlyChanges.refl _ _

theorem assignDie_frame (s : State) (k : Nat) :
    OnlyChanges [.cap, .bu, .rel] s (assignDie s k) := by
  unfold assignDie
  refine OnlyChanges.ite ?_ ?_
  · refine OnlyChanges.step ?_ (setCapstan_frame _ _ _) (by decide)
    exact OnlyChanges.refl _ _
  · split
    · rename_i v0 v1 v2 v3
      refine OnlyChanges.step ?_ (setCapstan_frame _ _ _) (by decide)
      exact OnlyChanges.refl _ _
    · rename_i v4 v5
      refine OnlyChanges.step ?_ (setCapstan_frame _ _ _) (by decide)
      refine OnlyChanges.step ?_ (setBu_frame _ _) (by decide)
      refine only_rel ?_ _ (by decide)
      exact OnlyChanges.refl _ _

theorem assignDice_frame (s : State) :
    OnlyChanges [.cap, .bu, .rel] s (assignDice s) := by
  unfold assignDice
  refine OnlyChanges.fold ?_ (fun u0 y1 h2 => ?_)
  · refine only_cap ?_ _ (by decide)
    exact OnlyChanges.refl _ _
  · refine OnlyChanges.step ?_ (assignDie_frame _ _) (by decide)
    assumption

theorem assignPhases_frame (s : State) (f : Nat) :
    OnlyChanges [.bu, .fields, .host, .xing, .store, .rel] s (assignPhases s f) := by
  unfold assignPhases
  extract_lets x0 x1 x2 x3 x4 x5
  have h6 : OnlyChanges [.bu, .fields, .host, .xing, .store, .rel] s x2 := by
    unfold x2
    refine OnlyChanges.ite ?_ ?_
    · exact OnlyChanges.refl _ _
    · refine OnlyChanges.step ?_ (setField_frame _ _ _) (by decide)
      exact OnlyChanges.refl _ _
  have h7 : OnlyChanges [.bu, .fields, .host, .xing, .store, .rel] s x5 := by
    unfold x5
    refine OnlyChanges.step ?_ (setBu_frame _ _) (by decide)
    refine only_rel ?_ _ (by decide)
    assumption
  clear_value x0 x1 x2 x3 x4 x5
  refine OnlyChanges.ite ?_ ?_
  · assumption
  · refine OnlyChanges.ite ?_ ?_
    · assumption
    · refine OnlyChanges.step ?_ (postFull_frame _ _ _ _ _ _ _) (by decide)
      assumption

theorem execStageInventory_frame (v : Inventory) (s : State) :
    outAll (OnlyChanges [.cap, .bu, .fields, .host, .xing, .freeCtr, .store, .rel] s) (execStageInventory v s) := by
  unfold execStageInventory
  split
  · rename_i v0
    change OnlyChanges [.cap, .bu, .fields, .host, .xing, .freeCtr, .store, .rel] s _
    exact OnlyChanges.refl _ _
  · rename_i v1
    split
    · rename_i v2
      change OnlyChanges [.cap, .bu, .fields, .host, .xing, .freeCtr, .store, .rel] s _
      refine OnlyChanges.step ?_ (stageFatal_frame _ _) (by decide)
      exact OnlyChanges.refl _ _
    · rename_i v3
      extract_lets x4
      have h5 : OnlyChanges [.cap, .bu, .fields, .host, .xing, .freeCtr, .store, .rel] s x4 := by
        unfold x4
        refine OnlyChanges.fold ?_ (fun u6 y7 h8 => ?_)
        · refine OnlyChanges.step ?_ (assignDice_frame _) (by decide)
          refine OnlyChanges.fold ?_ (fun u9 y10 h11 => ?_)
          · refine OnlyChanges.step ?_ (assignTiles_frame _) (by decide)
            refine OnlyChanges.step ?_ (takeBist_frame _ _) (by decide)
            exact OnlyChanges.refl _ _
          · refine OnlyChanges.step ?_ (assignPll_frame _ _) (by decide)
            assumption
        · refine OnlyChanges.step ?_ (assignPhases_frame _ _) (by decide)
          assumption
      clear_value x4
      split
      · rename_i v12
        change OnlyChanges [.cap, .bu, .fields, .host, .xing, .freeCtr, .store, .rel] s _
        refine OnlyChanges.step ?_ (stageFatal_frame _ _) (by decide)
        assumption
      · rename_i v13
        split
        · rename_i v14
          change OnlyChanges [.cap, .bu, .fields, .host, .xing, .freeCtr, .store, .rel] s _
          refine OnlyChanges.step ?_ (stageFatal_frame _ _) (by decide)
          assumption
        · rename_i v15
          change OnlyChanges [.cap, .bu, .fields, .host, .xing, .freeCtr, .store, .rel] s _
          refine OnlyChanges.step ?_ (stageOk_frame _) (by decide)
          assumption

theorem placeStack_frame (s : State) (n : Nat) :
    OnlyChanges [.bu, .near] s (placeStack s n) := by
  unfold placeStack
  split
  · rename_i v0 v1 v2
    refine OnlyChanges.step ?_ (setStack_frame _ _ _) (by decide)
    exact OnlyChanges.refl _ _
  · rename_i v3 v4
    split
    · rename_i v5 v6 v7 v8 v9
      refine OnlyChanges.step ?_ (setStack_frame _ _ _) (by decide)
      refine OnlyChanges.step ?_ (setBu_frame _ _) (by decide)
      exact OnlyChanges.refl _ _
    · rename_i v10 v11 v12
      refine OnlyChanges.step ?_ (stageFatal_frame _ _) (by decide)
      exact OnlyChanges.refl _ _

theorem addBadChannel_frame (x : Nat × Nat) (s : State) :
    OnlyChanges [.host, .xing, .store] s (addBadChannel x s) := by
  unfold addBadChannel
  refine OnlyChanges.ite ?_ ?_
  · exact OnlyChanges.refl _ _
  · refine OnlyChanges.step ?_ (record_frame _ _ _ _ _ _ _ _ _ _) (by decide)
    refine only_store ?_ _ (by decide)
    exact OnlyChanges.refl _ _

theorem addBadStack_frame (u : Nat) (s : State) :
    OnlyChanges [.host, .xing, .store] s (addBadStack u s) := by
  unfold addBadStack
  refine OnlyChanges.ite ?_ ?_
  · exact OnlyChanges.refl _ _
  · refine OnlyChanges.step ?_ (record_frame _ _ _ _ _ _ _ _ _ _) (by decide)
    refine only_store ?_ _ (by decide)
    exact OnlyChanges.refl _ _

theorem execStageStacks_frame (failed : List (Nat × Nat)) (badStacks : List Nat) (s : State) :
    outAll (OnlyChanges [.bu, .host, .xing, .store, .near] s) (execStageStacks failed badStacks s) := by
  unfold execStageStacks
  split
  · rename_i v0
    change OnlyChanges [.bu, .host, .xing, .store, .near] s _
    exact OnlyChanges.refl _ _
  · rename_i v1
    extract_lets x2 x3 x4 x5
    have h6 : OnlyChanges [.bu, .host, .xing, .store, .near] s x2 := by
      unfold x2
      refine OnlyChanges.fold ?_ (fun u7 y8 h9 => ?_)
      · refine OnlyChanges.fold ?_ (fun u10 y11 h12 => ?_)
        · exact OnlyChanges.refl _ _
        · refine OnlyChanges.step ?_ (addBadChannel_frame _ _) (by decide)
          assumption
      · refine OnlyChanges.step ?_ (addBadStack_frame _ _) (by decide)
        assumption
    have h13 : OnlyChanges [.bu, .host, .xing, .store, .near] s x4 := by
      unfold x4
      refine only_store ?_ _ (by decide)
      assumption
    have h14 : OnlyChanges [.bu, .host, .xing, .store, .near] s x5 := by
      unfold x5
      refine OnlyChanges.fold ?_ (fun u15 y16 h17 => ?_)
      · assumption
      · refine OnlyChanges.step ?_ (placeStack_frame _ _) (by decide)
        assumption
    clear_value x2 x3 x4 x5
    split
    · rename_i v18
      change OnlyChanges [.bu, .host, .xing, .store, .near] s _
      assumption
    · rename_i v19
      change OnlyChanges [.bu, .host, .xing, .store, .near] s _
      refine OnlyChanges.step ?_ (stageOk_frame _) (by decide)
      assumption

theorem fillFails_frame (s : State) (x : Nat × Nat) :
    OnlyChanges [.bu, .host, .xing, .store, .near] s (fillFails s x) := by
  unfold fillFails
  refine OnlyChanges.step ?_ (placeStack_frame _ _) (by decide)
  refine OnlyChanges.step ?_ (addBadChannel_frame _ _) (by decide)
  exact OnlyChanges.refl _ _

theorem zeroAll_frame (s : State) :
    OnlyChanges [.cap, .caches, .knots, .mesh, .mem, .near] s (zeroAll s) := by
  unfold zeroAll
  refine only_knots_mem_caches_near_cap_mesh ?_ _ _ _ _ _ _ (by decide)
  exact OnlyChanges.refl _ _

theorem execStageFill_frame (rows : List (Nat × Nat × Nat × Nat)) (failed : List (Nat × Nat)) (s : State) :
    outAll (OnlyChanges [.cap, .caches, .bu, .knots, .host, .xing, .mesh, .freeCtr, .store, .rel, .mem, .near] s) (execStageFill rows failed s) := by
  unfold execStageFill
  split
  · rename_i v0
    change OnlyChanges [.cap, .caches, .bu, .knots, .host, .xing, .mesh, .freeCtr, .store, .rel, .mem, .near] s _
    exact OnlyChanges.refl _ _
  · rename_i v1
    extract_lets x2 x3
    have h4 : OnlyChanges [.cap, .caches, .bu, .knots, .host, .xing, .mesh, .freeCtr, .store, .rel, .mem, .near] s x2 := by
      unfold x2
      refine OnlyChanges.fold ?_ (fun u5 y6 h7 => ?_)
      · refine OnlyChanges.step ?_ (zeroAll_frame _) (by decide)
        exact OnlyChanges.refl _ _
      · split
        · rename_i v8 v9 v10 v11 v12
          refine OnlyChanges.step ?_ (repairRow_frame _ _ _) (by decide)
          assumption
    have h13 : OnlyChanges [.cap, .caches, .bu, .knots, .host, .xing, .mesh, .freeCtr, .store, .rel, .mem, .near] s x3 := by
      unfold x3
      refine OnlyChanges.fold ?_ (fun u14 y15 h16 => ?_)
      · assumption
      · refine OnlyChanges.step ?_ (fillFails_frame _ _) (by decide)
        assumption
    clear_value x2 x3
    split
    · rename_i v17
      change OnlyChanges [.cap, .caches, .bu, .knots, .host, .xing, .mesh, .freeCtr, .store, .rel, .mem, .near] s _
      assumption
    · rename_i v18
      change OnlyChanges [.cap, .caches, .bu, .knots, .host, .xing, .mesh, .freeCtr, .store, .rel, .mem, .near] s _
      refine OnlyChanges.step ?_ (stageOk_frame _) (by decide)
      assumption

theorem capstanWork_frame (failed : List Nat) (s : State) :
    OnlyChanges [.cap, .bu, .store, .rel] s (capstanWork failed s) := by
  unfold capstanWork
  extract_lets x0 x1 x2 x3 x4
  have h5 : OnlyChanges [.cap, .bu, .store, .rel] s x0 := by
    unfold x0
    refine OnlyChanges.fold ?_ (fun u6 y7 h8 => ?_)
    · exact OnlyChanges.refl _ _
    · refine OnlyChanges.ite ?_ ?_
      · assumption
      · refine OnlyChanges.step ?_ (ledgerRec_frame _ _ _ _ _ _ _ _) (by decide)
        refine only_store ?_ _ (by decide)
        assumption
  have h9 : OnlyChanges [.cap, .bu, .store, .rel] s x2 := by
    unfold x2
    refine only_store ?_ _ (by decide)
    assumption
  have h10 : OnlyChanges [.cap, .bu, .store, .rel] s x4 := by
    unfold x4
    refine OnlyChanges.step ?_ (assignDice_frame _) (by decide)
    refine only_cap ?_ _ (by decide)
    assumption
  clear_value x0 x1 x2 x3 x4
  refine OnlyChanges.ite ?_ ?_
  · refine OnlyChanges.step ?_ (stageFatal_frame _ _) (by decide)
    assumption
  · refine OnlyChanges.step ?_ (stageOk_frame _) (by decide)
    assumption

theorem execStageCapstans_frame (failed : List Nat) (s : State) :
    outAll (OnlyChanges [.cap, .bu, .store, .rel] s) (execStageCapstans failed s) := by
  unfold execStageCapstans
  refine imageStage_frame ?_ (by decide) ?_
  · exact OnlyChanges.refl _ _
  · intro a0
    intro a1
    refine OnlyChanges.step ?_ (capstanWork_frame _ _) (by decide)
    assumption

theorem execStageSeqFw_frame (s : State) :
    outAll (OnlyChanges [.bu] s) (execStageSeqFw s) := by
  unfold execStageSeqFw
  refine imageStage_frame ?_ (by decide) ?_
  · exact OnlyChanges.refl _ _
  · intro a0
    intro a1
    refine OnlyChanges.step ?_ (setBu_frame _ _) (by decide)
    assumption

theorem failTile_frame (s : State) (u : Nat) :
    OnlyChanges [.host, .xing, .store] s (failTile s u) := by
  unfold failTile
  refine OnlyChanges.step ?_ (record_frame _ _ _ _ _ _ _ _ _ _) (by decide)
  refine OnlyChanges.step ?_ (addBadTile_frame _ _) (by decide)
  exact OnlyChanges.refl _ _

theorem failTiles_frame (l : List Nat) (s : State) :
    OnlyChanges [.bu, .fields, .host, .xing, .store, .rel] s (failTiles l s) := by
  unfold failTiles
  refine OnlyChanges.fold ?_ (fun u0 y1 h2 => ?_)
  · refine OnlyChanges.fold ?_ (fun u3 y4 h5 => ?_)
    · exact OnlyChanges.refl _ _
    · refine OnlyChanges.step ?_ (failTile_frame _ _) (by decide)
      assumption
  · refine OnlyChanges.step ?_ (assignRow_frame _ _ _) (by decide)
    assumption

theorem execBroadcastRound_frame (lacking : List (Nat × List Nat)) (silent : List Nat) (mismatch : List Nat) (s : State) :
    outAll (OnlyChanges [.bu, .fields, .host, .xing, .store, .rel] s) (execBroadcastRound lacking silent mismatch s) := by
  unfold execBroadcastRound
  extract_lets x0 x1 x2 x3
  have h4 : OnlyChanges [.bu, .fields, .host, .xing, .store, .rel] s x3 := by
    unfold x3
    refine OnlyChanges.step ?_ (setBu_frame _ _) (by decide)
    exact OnlyChanges.refl _ _
  clear_value x0 x1 x2 x3
  split
  · rename_i v5
    change OnlyChanges [.bu, .fields, .host, .xing, .store, .rel] s _
    exact OnlyChanges.refl _ _
  · rename_i v6
    split
    · rename_i v7
      change OnlyChanges [.bu, .fields, .host, .xing, .store, .rel] s _
      refine OnlyChanges.step ?_ (stageOk_frame _) (by decide)
      assumption
    · rename_i v8
      split
      · rename_i v9
        change OnlyChanges [.bu, .fields, .host, .xing, .store, .rel] s _
        assumption
      · rename_i v10
        change OnlyChanges [.bu, .fields, .host, .xing, .store, .rel] s _
        refine OnlyChanges.step ?_ (stageOk_frame _) (by decide)
        refine OnlyChanges.step ?_ (failTiles_frame _ _) (by decide)
        assumption

theorem execStageCadence_frame (s : State) :
    outAll (OnlyChanges [.bu] s) (execStageCadence s) := by
  unfold execStageCadence
  split
  · rename_i v0
    change OnlyChanges [.bu] s _
    refine OnlyChanges.step ?_ (stageOk_frame _) (by decide)
    exact OnlyChanges.refl _ _
  · rename_i v1
    change OnlyChanges [.bu] s _
    exact OnlyChanges.refl _ _

theorem execCadenceStageTimeout_frame (s : State) :
    outAll (OnlyChanges [.bu] s) (execCadenceStageTimeout s) := by
  unfold execCadenceStageTimeout
  split
  · rename_i v0
    change OnlyChanges [.bu] s _
    refine OnlyChanges.step ?_ (stageResult_frame _ _ _ _) (by decide)
    exact OnlyChanges.refl _ _
  · rename_i v1
    change OnlyChanges [.bu] s _
    exact OnlyChanges.refl _ _

theorem execStageLinks_frame (s : State) :
    outAll (OnlyChanges [.bu] s) (execStageLinks s) := by
  unfold execStageLinks
  refine imageStage_frame ?_ (by decide) ?_
  · exact OnlyChanges.refl _ _
  · intro a0
    intro a1
    refine OnlyChanges.step ?_ (stageOk_frame _) (by decide)
    refine OnlyChanges.step ?_ (setBu_frame _ _) (by decide)
    assumption

theorem execStageReady_frame (s : State) :
    outAll (OnlyChanges [.bu, .watch] s) (execStageReady s) := by
  unfold execStageReady
  split
  · rename_i v0
    change OnlyChanges [.bu, .watch] s _
    refine OnlyChanges.step ?_ (stageOk_frame _) (by decide)
    refine only_watch ?_ _ (by decide)
    exact OnlyChanges.refl _ _
  · rename_i v1
    change OnlyChanges [.bu, .watch] s _
    exact OnlyChanges.refl _ _

theorem endStage_frame (st : StageState) (code : BitVec 16) (cause : Nat) (ms : Nat) (s : State) :
    OnlyChanges [.bu] s (endStage st code cause ms s) := by
  unfold endStage
  extract_lets x0 x1
  clear_value x0 x1
  refine OnlyChanges.step ?_ (setBu_frame _ _) (by decide)
  exact OnlyChanges.refl _ _

theorem startPcie_frame (s : State) :
    OnlyChanges [.bu] s (startPcie s) := by
  unfold startPcie
  extract_lets x0 x1
  clear_value x0 x1
  refine OnlyChanges.ite ?_ ?_
  · refine OnlyChanges.step ?_ (setBu_frame _ _) (by decide)
    exact OnlyChanges.refl _ _
  · exact OnlyChanges.refl _ _

theorem trainPorts_frame (s : State) :
    OnlyChanges [.host] s (trainPorts s) := by
  unfold trainPorts
  refine only_host ?_ _ (by decide)
  exact OnlyChanges.refl _ _

theorem endReset_frame (ms : Nat) (north : Bool) (south : Bool) (s : State) :
    OnlyChanges [.bu, .rel] s (endReset ms north south s) := by
  unfold endReset
  refine OnlyChanges.ite ?_ ?_
  · refine OnlyChanges.step ?_ (startPcie_frame _) (by decide)
    refine OnlyChanges.step ?_ (endStage_frame _ _ _ _ _) (by decide)
    refine OnlyChanges.step ?_ (followCad_frame _) (by decide)
    refine OnlyChanges.step ?_ (setBu_frame _ _) (by decide)
    refine only_rel ?_ _ (by decide)
    exact OnlyChanges.refl _ _
  · refine OnlyChanges.ite ?_ ?_
    · refine OnlyChanges.step ?_ (startPcie_frame _) (by decide)
      refine OnlyChanges.step ?_ (endStage_frame _ _ _ _ _) (by decide)
      refine OnlyChanges.step ?_ (setBu_frame _ _) (by decide)
      refine only_rel ?_ _ (by decide)
      exact OnlyChanges.refl _ _
    · refine OnlyChanges.step ?_ (endStage_frame _ _ _ _ _) (by decide)
      exact OnlyChanges.refl _ _

theorem linkDegrade_frame (s : State) :
    OnlyChanges [.bu] s (linkDegrade s) := by
  unfold linkDegrade
  extract_lets x0 x1
  clear_value x0 x1
  refine OnlyChanges.step ?_ (setBu_frame _ _) (by decide)
  exact OnlyChanges.refl _ _

theorem execStageComplete_frame (ms : Nat) (north : Bool) (south : Bool) (s : State) :
    outAll (OnlyChanges [.bu, .host, .rel] s) (execStageComplete ms north south s) := by
  unfold execStageComplete
  split
  · rename_i v0
    change OnlyChanges [.bu, .host, .rel] s _
    exact OnlyChanges.refl _ _
  · rename_i v1
    split
    · rename_i v2 v3 v4
      change OnlyChanges [.bu, .host, .rel] s _
      refine OnlyChanges.step ?_ (endReset_frame _ _ _ _) (by decide)
      exact OnlyChanges.refl _ _
    · rename_i v5 v6 v7
      change OnlyChanges [.bu, .host, .rel] s _
      refine OnlyChanges.ite ?_ ?_
      · refine OnlyChanges.step ?_ (endStage_frame _ _ _ _ _) (by decide)
        refine OnlyChanges.step ?_ (trainPorts_frame _) (by decide)
        exact OnlyChanges.refl _ _
      · exact OnlyChanges.refl _ _
    · rename_i v8 v9 v10 v11 v12
      extract_lets x13 x14 x15 x16
      have h17 : OnlyChanges [.bu, .host, .rel] s x16 := by
        unfold x16
        refine OnlyChanges.ite ?_ ?_
        · refine OnlyChanges.step ?_ (setBu_frame _ _) (by decide)
          refine only_rel ?_ _ (by decide)
          exact OnlyChanges.refl _ _
        · exact OnlyChanges.refl _ _
      clear_value x13 x14 x15 x16
      change OnlyChanges [.bu, .host, .rel] s _
      refine OnlyChanges.step ?_ (endStage_frame _ _ _ _ _) (by decide)
      assumption
    · rename_i v18 v19 v20 v21 v22
      split
      · rename_i v23
        split
        · rename_i v24
          change OnlyChanges [.bu, .host, .rel] s _
          refine OnlyChanges.step ?_ (endStage_frame _ _ _ _ _) (by decide)
          refine OnlyChanges.step ?_ (linkDegrade_frame _) (by decide)
          exact OnlyChanges.refl _ _
        · rename_i v25
          change OnlyChanges [.bu, .host, .rel] s _
          exact OnlyChanges.refl _ _
      · rename_i v26
        change OnlyChanges [.bu, .host, .rel] s _
        refine OnlyChanges.step ?_ (endStage_frame _ _ _ _ _) (by decide)
        exact OnlyChanges.refl _ _
    · rename_i v27 v28 v29 v30 v31 v32 v33 v34
      change OnlyChanges [.bu, .host, .rel] s _
      refine OnlyChanges.step ?_ (endStage_frame _ _ _ _ _) (by decide)
      exact OnlyChanges.refl _ _
    · rename_i v35 v36 v37 v38 v39
      change OnlyChanges [.bu, .host, .rel] s _
      exact OnlyChanges.refl _ _

theorem volatileLost_frame (s : State) : OnlyChanges [.cad, .sched, .arrivals, .xing, .fields, .parts, .removed, .plays, .parting, .ramp, .knots,
    .mem,
    .regions, .loans, .hints, .caches, .near, .cap, .watch, .ports, .lqWindow, .sets, .colls, .barriers, .exchanges, .mesh, .power, .rel, .bu, .host,
    .dbgUnit, .snap] s (volatileLost s) := by
  intro p hp
  cases p <;> first | rfl | exact absurd (by decide) hp

theorem powerOff_frame (leak : Bool) (s : State) : OnlyChanges [.cad, .sched, .arrivals, .xing, .fields, .parts, .removed, .plays, .parting, .ramp,
    .knots,
    .mem, .regions, .loans, .hints, .caches, .near, .cap, .watch, .ports, .lqWindow, .sets, .colls, .barriers, .exchanges, .mesh, .power, .rel, .bu,
    .host, .dbgUnit, .snap, .pins] s (powerOff leak s) :=
  OnlyChanges.step (only_pins (OnlyChanges.refl _ _) _ (by decide)) (volatileLost_frame _) (by decide)

theorem shutDown_frame (leak : Bool) (s : State) :
    OnlyChanges [.cap, .colls, .lqWindow, .caches, .barriers, .parting, .bu, .parts, .sets, .snap, .knots, .ports, .pins, .fields, .watch, .dbgUnit,
        .host, .power, .loans, .sched, .xing, .ramp, .plays, .mesh, .exchanges, .removed, .hints, .cad, .arrivals, .rel, .mem, .near, .regions] s
        (shutDown leak s) := by
  unfold shutDown
  refine OnlyChanges.ite ?_ ?_
  · refine OnlyChanges.step ?_ (powerOff_frame _ _) (by decide)
    exact OnlyChanges.refl _ _
  · exact OnlyChanges.refl _ _

theorem execPrecharge_frame (mv : Int) (s : State) : outAll (OnlyChanges [.cad, .sched, .arrivals, .xing, .fields, .parts, .removed, .plays,
    .parting, .ramp, .knots, .mem, .regions, .loans, .hints, .caches, .near, .cap, .watch, .ports, .lqWindow, .sets, .colls, .barriers, .exchanges,
    .mesh, .power, .rel, .bu, .host, .dbgUnit, .snap, .pins] s) (execPrecharge mv s) := by
  have off : OnlyChanges [.cad, .sched, .arrivals, .xing, .fields, .parts, .removed, .plays, .parting, .ramp, .knots, .mem, .regions, .loans,
      .hints, .caches, .near, .cap, .watch, .ports, .lqWindow, .sets, .colls, .barriers, .exchanges, .mesh, .power, .rel, .bu, .host, .dbgUnit,
      .snap, .pins] s (shutDown false s) := OnlyChanges.step (OnlyChanges.refl _ _) (shutDown_frame _ _) (by decide)
  unfold execPrecharge
  split
  · exact True.intro
  · split
    · exact off
    · split
      · show OnlyChanges _ _ _
        split
        · exact only_pins off _ (by decide)
        · exact off
      · split
        · exact only_pins (OnlyChanges.refl _ _) _ (by decide)
        · exact OnlyChanges.refl _ _

theorem execPwrOkRise_frame (s : State) :
    outAll (OnlyChanges [.pins] s) (execPwrOkRise s) := by
  unfold execPwrOkRise
  split
  · rename_i v0
    change OnlyChanges [.pins] s _
    refine only_pins ?_ _ (by decide)
    exact OnlyChanges.refl _ _
  · rename_i v1
    change OnlyChanges [.pins] s _
    exact OnlyChanges.refl _ _

theorem execShutdown_frame (c : InputFault) (s : State) :
    outAll (OnlyChanges [.cap, .colls, .lqWindow, .caches, .barriers, .parting, .bu, .parts, .sets, .snap, .knots, .ports, .pins, .fields, .watch,
        .dbgUnit, .host, .power, .loans, .sched, .xing, .ramp, .plays, .mesh, .exchanges, .removed, .hints, .cad, .arrivals, .rel, .mem, .near,
        .regions] s) (execShutdown c s) := by
  unfold execShutdown
  change OnlyChanges [.cap, .colls, .lqWindow, .caches, .barriers, .parting, .bu, .parts, .sets, .snap, .knots, .ports, .pins, .fields, .watch,
      .dbgUnit, .host, .power, .loans, .sched, .xing, .ramp, .plays, .mesh, .exchanges, .removed, .hints, .cad, .arrivals, .rel, .mem, .near,
      .regions] s _
  refine OnlyChanges.ite ?_ ?_
  · refine OnlyChanges.step ?_ (shutDown_frame _ _) (by decide)
    exact OnlyChanges.refl _ _
  · exact OnlyChanges.refl _ _

theorem execLeak_frame (s : State) :
    outAll (OnlyChanges [.cap, .colls, .lqWindow, .caches, .barriers, .parting, .bu, .parts, .sets, .snap, .knots, .ports, .pins, .fields, .watch,
        .dbgUnit, .host, .power, .loans, .sched, .xing, .ramp, .plays, .mesh, .exchanges, .removed, .hints, .cad, .arrivals, .rel, .mem, .near,
        .regions] s) (execLeak s) := by
  unfold execLeak
  split
  · rename_i v0
    change OnlyChanges [.cap, .colls, .lqWindow, .caches, .barriers, .parting, .bu, .parts, .sets, .snap, .knots, .ports, .pins, .fields, .watch,
        .dbgUnit, .host, .power, .loans, .sched, .xing, .ramp, .plays, .mesh, .exchanges, .removed, .hints, .cad, .arrivals, .rel, .mem, .near,
        .regions] s _
    refine OnlyChanges.step ?_ (powerOff_frame _ _) (by decide)
    exact OnlyChanges.refl _ _
  · rename_i v1
    change OnlyChanges [.cap, .colls, .lqWindow, .caches, .barriers, .parting, .bu, .parts, .sets, .snap, .knots, .ports, .pins, .fields, .watch,
        .dbgUnit, .host, .power, .loans, .sched, .xing, .ramp, .plays, .mesh, .exchanges, .removed, .hints, .cad, .arrivals, .rel, .mem, .near,
        .regions] s _
    refine only_pins ?_ _ (by decide)
    exact OnlyChanges.refl _ _

theorem execModRstAssert_frame (s : State) : outAll (OnlyChanges [.cad, .sched, .arrivals, .xing, .fields, .parts, .removed, .plays, .parting,
    .ramp, .knots, .mem, .regions, .loans, .hints, .caches, .near, .cap, .watch, .ports, .lqWindow, .sets, .colls, .barriers, .exchanges, .mesh,
    .power, .rel, .bu, .host, .dbgUnit, .snap, .pins] s) (execModRstAssert s) := by
  unfold execModRstAssert
  dsimp only
  split
  · exact OnlyChanges.step (only_pins (OnlyChanges.refl _ _) _ (by decide)) (volatileLost_frame _) (by decide)
  · exact only_pins (OnlyChanges.refl _ _) _ (by decide)

theorem beginReset_frame (s : State) :
    OnlyChanges [.bu] s (beginReset s) := by
  unfold beginReset
  refine OnlyChanges.ite ?_ ?_
  · refine OnlyChanges.step ?_ (setBu_frame _ _) (by decide)
    exact OnlyChanges.refl _ _
  · exact OnlyChanges.refl _ _

theorem execModRstRelease_frame (s : State) :
    outAll (OnlyChanges [.bu, .pins] s) (execModRstRelease s) := by
  unfold execModRstRelease
  change OnlyChanges [.bu, .pins] s _
  refine OnlyChanges.step ?_ (beginReset_frame _) (by decide)
  refine only_pins ?_ _ (by decide)
  exact OnlyChanges.refl _ _

theorem execResetStageStart_frame (s : State) :
    outAll (OnlyChanges [.bu, .pins] s) (execResetStageStart s) := by
  unfold execResetStageStart
  change OnlyChanges [.bu, .pins] s _
  refine OnlyChanges.step ?_ (beginReset_frame _) (by decide)
  refine only_pins ?_ _ (by decide)
  exact OnlyChanges.refl _ _

theorem setPcie_frame (n : Nat) (p : PciePort) (s : State) :
    OnlyChanges [.host] s (setPcie n p s) := by
  unfold setPcie
  refine only_host ?_ _ (by decide)
  exact OnlyChanges.refl _ _

theorem relabel_frame (f : Nat → Nat) (s : State) :
    OnlyChanges [.cap, .colls, .barriers, .host, .sched, .loans, .plays, .parting] s (relabel f s) := by
  unfold relabel
  refine only_sched_plays_parting_loans_cap_colls_barriers_host ?_ _ _ _ _ _ _ _ _ (by decide)
  exact OnlyChanges.refl _ _

theorem resetPort_frame (n : Nat) (pin : Bool) (s : State) :
    OnlyChanges [.cap, .colls, .barriers, .host, .sched, .loans, .plays, .parting] s (resetPort n pin s) := by
  unfold resetPort
  extract_lets x0 x1 x2 x3 x4 x5
  have h6 : OnlyChanges [.cap, .colls, .barriers, .host, .sched, .loans, .plays, .parting] s x1 := by
    unfold x1
    refine OnlyChanges.step ?_ (relabel_frame _ _) (by decide)
    exact OnlyChanges.refl _ _
  have h7 : OnlyChanges [.cap, .colls, .barriers, .host, .sched, .loans, .plays, .parting] s x3 := by
    unfold x3
    refine only_plays_host ?_ _ _ (by decide)
    assumption
  clear_value x0 x1 x2 x3 x4 x5
  refine OnlyChanges.step ?_ (setPcie_frame _ _ _) (by decide)
  assumption

theorem execPerstAssert_frame (n : Nat) (pin : Bool) (s : State) :
    outAll (OnlyChanges [.cap, .colls, .barriers, .host, .sched, .loans, .plays, .parting] s) (execPerstAssert n pin s) := by
  unfold execPerstAssert
  change OnlyChanges [.cap, .colls, .barriers, .host, .sched, .loans, .plays, .parting] s _
  refine OnlyChanges.step ?_ (resetPort_frame _ _ _) (by decide)
  exact OnlyChanges.refl _ _

theorem execPerstRelease_frame (n : Nat) (refclk : Bool) (s : State) :
    outAll (OnlyChanges [.bu, .host] s) (execPerstRelease n refclk s) := by
  unfold execPerstRelease
  extract_lets x0 x1 x2 x3
  have h4 : OnlyChanges [.bu, .host] s x1 := by
    unfold x1
    refine OnlyChanges.step ?_ (setPcie_frame _ _ _) (by decide)
    exact OnlyChanges.refl _ _
  have h5 : OnlyChanges [.bu, .host] s x2 := by
    unfold x2
    refine OnlyChanges.step ?_ (startPcie_frame _) (by decide)
    assumption
  clear_value x0 x1 x2 x3
  split
  · rename_i v6
    change OnlyChanges [.bu, .host] s _
    refine OnlyChanges.step ?_ (setPcie_frame _ _ _) (by decide)
    assumption
  · rename_i v7
    change OnlyChanges [.bu, .host] s _
    assumption

theorem revokeBy_frame (p : Packet) (t : List Byte) (s : State) :
    OnlyChanges [.cap, .host, .xing, .store] s (revokeBy p t s) := by
  unfold revokeBy
  extract_lets x0 x1
  clear_value x0 x1
  refine OnlyChanges.ite ?_ ?_
  · refine OnlyChanges.step ?_ (refuse_frame _ _ _) (by decide)
    exact OnlyChanges.refl _ _
  · refine OnlyChanges.ite ?_ ?_
    · refine OnlyChanges.step ?_ (accept_frame _ _) (by decide)
      exact OnlyChanges.refl _ _
    · refine OnlyChanges.ite ?_ ?_
      · refine OnlyChanges.step ?_ (refuse_frame _ _ _) (by decide)
        exact OnlyChanges.refl _ _
      · refine OnlyChanges.step ?_ (accept_frame _ _) (by decide)
        refine OnlyChanges.step ?_ (postFull_frame _ _ _ _ _ _ _) (by decide)
        refine only_store ?_ _ (by decide)
        exact OnlyChanges.refl _ _

theorem opKeyRevoke_frame (p : Packet) (s : State) :
    OnlyChanges [.cap, .host, .xing, .store] s (opKeyRevoke p s) := by
  unfold opKeyRevoke
  extract_lets x0 x1
  clear_value x0 x1
  refine OnlyChanges.ite ?_ ?_
  · refine OnlyChanges.step ?_ (refuse_frame _ _ _) (by decide)
    exact OnlyChanges.refl _ _
  · refine OnlyChanges.ite ?_ ?_
    · refine OnlyChanges.step ?_ (refuse_frame _ _ _) (by decide)
      exact OnlyChanges.refl _ _
    · split
      · rename_i v2 v3 v4 v5
        refine absorb (P := sndAll (OnlyChanges [.cap, .host, .xing, .store] s)) v5 ?_ (fun q6 => ?_)
        · refine OnlyChanges.stepSnd ?_ (engineRead_frame _ _ _ _ _) (by decide)
          exact OnlyChanges.refl _ _
        refine OnlyChanges.step ?_ (refuse_frame _ _ _) (by decide)
        assumption
      · rename_i v7 v8 v9 v10
        refine absorb (P := sndAll (OnlyChanges [.cap, .host, .xing, .store] s)) v10 ?_ (fun q11 => ?_)
        · refine OnlyChanges.stepSnd ?_ (engineRead_frame _ _ _ _ _) (by decide)
          exact OnlyChanges.refl _ _
        refine OnlyChanges.step ?_ (revokeBy_frame _ _ _) (by decide)
        assumption

theorem opRollbackSet_frame (p : Packet) (s : State) :
    OnlyChanges [.cap, .host, .xing, .store] s (opRollbackSet p s) := by
  unfold opRollbackSet
  extract_lets x0 x1 x2 x3 x4
  clear_value x0 x1 x2 x3 x4
  refine OnlyChanges.ite ?_ ?_
  · refine OnlyChanges.step ?_ (refuse_frame _ _ _) (by decide)
    exact OnlyChanges.refl _ _
  · refine OnlyChanges.ite ?_ ?_
    · refine OnlyChanges.step ?_ (reply_frame _ _ _ _) (by decide)
      exact OnlyChanges.refl _ _
    · refine OnlyChanges.ite ?_ ?_
      · refine OnlyChanges.step ?_ (reply_frame _ _ _ _) (by decide)
        exact OnlyChanges.refl _ _
      · refine OnlyChanges.step ?_ (reply_frame _ _ _ _) (by decide)
        refine only_store ?_ _ (by decide)
        exact OnlyChanges.refl _ _

theorem opDebugLock_frame (p : Packet) (s : State) :
    OnlyChanges [.cap, .dbgUnit, .host, .xing, .store] s (opDebugLock p s) := by
  unfold opDebugLock
  refine OnlyChanges.step ?_ (accept_frame _ _) (by decide)
  refine only_dbgUnit ?_ _ (by decide)
  exact OnlyChanges.refl _ _

theorem doeReply_frame (port : Nat) (code : Nat) (st : BitVec 16) (body : List Byte) (s : State) :
    OnlyChanges [.host, .freeCtr] s (doeReply port code st body s) := by
  unfold doeReply
  split
  · rename_i v0 v1 v2 v3
    refine absorb (P := sndAll (OnlyChanges [.host, .freeCtr] s)) v3 ?_ (fun q4 => ?_)
    · refine OnlyChanges.stepSnd ?_ (draw_frame _) (by decide)
      exact OnlyChanges.refl _ _
    refine OnlyChanges.step ?_ (setPcie_frame _ _ _) (by decide)
    assumption

theorem execGetCert_frame (port : Nat) (s : State) :
    outAll (OnlyChanges [.host, .freeCtr] s) (execGetCert port s) := by
  unfold execGetCert
  split
  · rename_i v0
    change OnlyChanges [.host, .freeCtr] s _
    refine OnlyChanges.step ?_ (doeReply_frame _ _ _ _ _) (by decide)
    exact OnlyChanges.refl _ _
  · rename_i v1
    change OnlyChanges [.host, .freeCtr] s _
    exact OnlyChanges.refl _ _

theorem execAttest_frame (port : Nat) (nonce : List Byte) (s : State) :
    outAll (OnlyChanges [.host, .freeCtr] s) (execAttest port nonce s) := by
  unfold execAttest
  split
  · rename_i v0
    extract_lets x1
    clear_value x1
    change OnlyChanges [.host, .freeCtr] s _
    refine OnlyChanges.step ?_ (doeReply_frame _ _ _ _ _) (by decide)
    exact OnlyChanges.refl _ _
  · rename_i v2
    change OnlyChanges [.host, .freeCtr] s _
    exact OnlyChanges.refl _ _

theorem execDebugChallenge_frame (port : Nat) (s : State) :
    outAll (OnlyChanges [.dbgUnit, .host, .freeCtr] s) (execDebugChallenge port s) := by
  unfold execDebugChallenge
  split
  · rename_i v0
    extract_lets x1 x2
    clear_value x1 x2
    change OnlyChanges [.dbgUnit, .host, .freeCtr] s _
    refine OnlyChanges.step ?_ (doeReply_frame _ _ _ _ _) (by decide)
    refine only_dbgUnit_freeCtr ?_ _ _ (by decide)
    exact OnlyChanges.refl _ _
  · rename_i v3
    change OnlyChanges [.dbgUnit, .host, .freeCtr] s _
    exact OnlyChanges.refl _ _

theorem execDebugUnlock_frame (port : Nat) (t : List Byte) (s : State) :
    outAll (OnlyChanges [.dbgUnit, .host, .xing, .freeCtr, .store] s) (execDebugUnlock port t s) := by
  unfold execDebugUnlock
  split
  · rename_i v0
    change OnlyChanges [.dbgUnit, .host, .xing, .freeCtr, .store] s _
    exact OnlyChanges.refl _ _
  · rename_i v1
    extract_lets x2 x3 x4 x5 x6
    have h7 : OnlyChanges [.dbgUnit, .host, .xing, .freeCtr, .store] s x4 := by
      unfold x4
      refine only_dbgUnit ?_ _ (by decide)
      exact OnlyChanges.refl _ _
    have h8 : OnlyChanges [.dbgUnit, .host, .xing, .freeCtr, .store] s x6 := by
      unfold x6
      refine only_dbgUnit ?_ _ (by decide)
      assumption
    clear_value x2 x3 x4 x5 x6
    split
    · rename_i v9
      change OnlyChanges [.dbgUnit, .host, .xing, .freeCtr, .store] s _
      refine OnlyChanges.step ?_ (doeReply_frame _ _ _ _ _) (by decide)
      refine OnlyChanges.step ?_ (post_frame _ _ _) (by decide)
      assumption
    · rename_i v10
      change OnlyChanges [.dbgUnit, .host, .xing, .freeCtr, .store] s _
      refine OnlyChanges.step ?_ (doeReply_frame _ _ _ _ _) (by decide)
      assumption

theorem execDoeDiscovery_frame (port : Nat) (s : State) :
    outAll (OnlyChanges [.host] s) (execDoeDiscovery port s) := by
  unfold execDoeDiscovery
  split
  · rename_i v0
    change OnlyChanges [.host] s _
    refine OnlyChanges.step ?_ (setPcie_frame _ _ _) (by decide)
    exact OnlyChanges.refl _ _
  · rename_i v1
    change OnlyChanges [.host] s _
    exact OnlyChanges.refl _ _

theorem execMctpControl_frame (cmd : Byte) (s : State) :
    outAll (OnlyChanges [.host, .freeCtr] s) (execMctpControl cmd s) := by
  unfold execMctpControl
  split
  · rename_i v0
    split
    · rename_i v1 v2 v3 v4
      refine absorb (P := sndAll (OnlyChanges [.host, .freeCtr] s)) v4 ?_ (fun q5 => ?_)
      · refine OnlyChanges.stepSnd ?_ (draw_frame _) (by decide)
        exact OnlyChanges.refl _ _
      change OnlyChanges [.host, .freeCtr] s _
      refine OnlyChanges.step ?_ (mctpReply_frame _ _) (by decide)
      assumption
  · rename_i v6
    change OnlyChanges [.host, .freeCtr] s _
    exact OnlyChanges.refl _ _

theorem setDbg_frame (d : Debug) (s : State) :
    OnlyChanges [.dbgUnit] s (setDbg d s) := by
  unfold setDbg
  refine only_dbgUnit ?_ _ (by decide)
  exact OnlyChanges.refl _ _

theorem dbgOnTile_frame {l : List Part} {s t : State} {off : Nat} {act : State → State} (hs : OnlyChanges l s t) (hl : ∀ p ∈ ([.host, .xing, .store]
    : List Part), p ∈ l)
    (ha : OnlyChanges l s (act t)) : OnlyChanges l s (dbgOnTile off act t) := by
  unfold dbgOnTile
  split
  · exact OnlyChanges.step hs (argReject_frame _ _ _) hl
  · exact ha

theorem dbgHalt_frame (s : State) :
    OnlyChanges [.dbgUnit] s (dbgHalt s) := by
  unfold dbgHalt
  refine OnlyChanges.ite ?_ ?_
  · refine OnlyChanges.step ?_ (setDbg_frame _ _) (by decide)
    exact OnlyChanges.refl _ _
  · exact OnlyChanges.refl _ _

theorem dbgResume_frame (s : State) :
    OnlyChanges [.cap, .caches, .parts, .knots, .ports, .fields, .watch, .dbgUnit, .host, .xing, .ramp, .plays, .mesh, .exchanges, .freeCtr, .store,
        .rel, .mem, .near] s (dbgResume s) := by
  unfold dbgResume
  refine OnlyChanges.ite ?_ ?_
  · refine OnlyChanges.step ?_ (pumpAll_frame _) (by decide)
    refine OnlyChanges.step ?_ (setDbg_frame _ _) (by decide)
    exact OnlyChanges.refl _ _
  · exact OnlyChanges.refl _ _

theorem dbgStep_frame (s : State) :
    OnlyChanges [.dbgUnit] s (dbgStep s) := by
  unfold dbgStep
  refine OnlyChanges.ite ?_ ?_
  · refine OnlyChanges.step ?_ (setDbg_frame _ _) (by decide)
    exact OnlyChanges.refl _ _
  · exact OnlyChanges.refl _ _

theorem dbgNext_frame (s : State) :
    OnlyChanges [.dbgUnit] s (dbgNext s) := by
  unfold dbgNext
  refine OnlyChanges.step ?_ (setDbg_frame _ _) (by decide)
  exact OnlyChanges.refl _ _

theorem dbgStore_frame (v : W64) (s : State) :
    OnlyChanges [.dbgUnit] s (dbgStore v s) := by
  unfold dbgStore
  refine OnlyChanges.step ?_ (dbgNext_frame _) (by decide)
  refine OnlyChanges.step ?_ (setDbg_frame _ _) (by decide)
  exact OnlyChanges.refl _ _

theorem returnRead_frame (l : List Byte) (poison : Bool) (s : State) :
    OnlyChanges [.host] s (returnRead l poison s) := by
  unfold returnRead
  refine only_host ?_ _ (by decide)
  exact OnlyChanges.refl _ _

theorem unsupported_frame (port : Nat) (s : State) :
    OnlyChanges [.host] s (unsupported port s) := by
  unfold unsupported
  extract_lets x0 x1
  clear_value x0 x1
  refine OnlyChanges.step ?_ (setPcie_frame _ _ _) (by decide)
  exact OnlyChanges.refl _ _

theorem urRead_frame (port : Nat) (s : State) :
    OnlyChanges [.host] s (urRead port s) := by
  unfold urRead
  refine OnlyChanges.step ?_ (unsupported_frame _ _) (by decide)
  refine only_host ?_ _ (by decide)
  exact OnlyChanges.refl _ _

theorem dbgGate_frame {l : List Part} {s t : State} {act : State → State} (hs : OnlyChanges l s t) (hl : ∀ p ∈ ([.host, .xing, .store] : List Part),
    p ∈ l)
    (ha : OnlyChanges l s (act t)) : OnlyChanges l s (dbgGate act t) := by
  unfold dbgGate
  split
  · exact ha
  · exact OnlyChanges.step hs (lockViolation_frame _) hl

theorem writeDbgCtrl_frame (v : W64) (s : State) :
    OnlyChanges [.cap, .caches, .parts, .knots, .ports, .fields, .watch, .dbgUnit, .host, .xing, .ramp, .plays, .mesh, .exchanges, .freeCtr, .store,
        .rel, .mem, .near] s (writeDbgCtrl v s) := by
  unfold writeDbgCtrl
  refine dbgGate_frame ?_ (by decide) ?_
  · exact OnlyChanges.refl _ _
  · refine dbgOnTile_frame ?_ (by decide) ?_
    · exact OnlyChanges.refl _ _
    · extract_lets x0 x1
      have h2 : OnlyChanges [.cap, .caches, .parts, .knots, .ports, .fields, .watch, .dbgUnit, .host, .xing, .ramp, .plays, .mesh, .exchanges,
          .freeCtr, .store, .rel, .mem, .near] s x0 := by
        unfold x0
        refine OnlyChanges.ite ?_ ?_
        · refine OnlyChanges.step ?_ (dbgHalt_frame _) (by decide)
          exact OnlyChanges.refl _ _
        · exact OnlyChanges.refl _ _
      have h3 : OnlyChanges [.cap, .caches, .parts, .knots, .ports, .fields, .watch, .dbgUnit, .host, .xing, .ramp, .plays, .mesh, .exchanges,
          .freeCtr, .store, .rel, .mem, .near] s x1 := by
        unfold x1
        refine OnlyChanges.ite ?_ ?_
        · refine OnlyChanges.step ?_ (dbgStep_frame _) (by decide)
          assumption
        · assumption
      clear_value x0 x1
      refine OnlyChanges.ite ?_ ?_
      · refine OnlyChanges.step ?_ (dbgResume_frame _) (by decide)
        assumption
      · assumption

theorem execDbgHalt_frame (h : HostAccess) (s : State) :
    outAll (OnlyChanges [.dbgUnit, .host, .xing, .store] s) (execDbgHalt h s) := by
  unfold execDbgHalt
  refine orHold_frame ?_ (by decide) ?_
  · exact OnlyChanges.refl _ _
  · split
    · rename_i v0
      change OnlyChanges [.dbgUnit, .host, .xing, .store] s _
      refine dbgGate_frame ?_ (by decide) ?_
      · exact OnlyChanges.refl _ _
      · refine dbgOnTile_frame ?_ (by decide) ?_
        · exact OnlyChanges.refl _ _
        · refine OnlyChanges.step ?_ (dbgHalt_frame _) (by decide)
          exact OnlyChanges.refl _ _
    · rename_i v1
      change OnlyChanges [.dbgUnit, .host, .xing, .store] s _
      exact OnlyChanges.refl _ _

theorem execDbgResume_frame (h : HostAccess) (s : State) :
    outAll (OnlyChanges [.cap, .caches, .parts, .knots, .ports, .fields, .watch, .dbgUnit, .host, .xing, .ramp, .plays, .mesh, .exchanges, .freeCtr,
        .store, .rel, .mem, .near] s) (execDbgResume h s) := by
  unfold execDbgResume
  refine orHold_frame ?_ (by decide) ?_
  · exact OnlyChanges.refl _ _
  · split
    · rename_i v0
      change OnlyChanges [.cap, .caches, .parts, .knots, .ports, .fields, .watch, .dbgUnit, .host, .xing, .ramp, .plays, .mesh, .exchanges,
          .freeCtr, .store, .rel, .mem, .near] s _
      refine dbgGate_frame ?_ (by decide) ?_
      · exact OnlyChanges.refl _ _
      · refine dbgOnTile_frame ?_ (by decide) ?_
        · exact OnlyChanges.refl _ _
        · refine OnlyChanges.step ?_ (dbgResume_frame _) (by decide)
          exact OnlyChanges.refl _ _
    · rename_i v1
      change OnlyChanges [.cap, .caches, .parts, .knots, .ports, .fields, .watch, .dbgUnit, .host, .xing, .ramp, .plays, .mesh, .exchanges,
          .freeCtr, .store, .rel, .mem, .near] s _
      exact OnlyChanges.refl _ _

theorem execDbgStep_frame (h : HostAccess) (s : State) :
    outAll (OnlyChanges [.dbgUnit, .host, .xing, .store] s) (execDbgStep h s) := by
  unfold execDbgStep
  refine orHold_frame ?_ (by decide) ?_
  · exact OnlyChanges.refl _ _
  · split
    · rename_i v0
      change OnlyChanges [.dbgUnit, .host, .xing, .store] s _
      refine dbgGate_frame ?_ (by decide) ?_
      · exact OnlyChanges.refl _ _
      · refine dbgOnTile_frame ?_ (by decide) ?_
        · exact OnlyChanges.refl _ _
        · refine OnlyChanges.step ?_ (dbgStep_frame _) (by decide)
          exact OnlyChanges.refl _ _
    · rename_i v1
      change OnlyChanges [.dbgUnit, .host, .xing, .store] s _
      exact OnlyChanges.refl _ _

theorem execDbgDataWrite_frame (h : HostAccess) (v : W64) (s : State) :
    outAll (OnlyChanges [.dbgUnit, .host, .xing, .store] s) (execDbgDataWrite h v s) := by
  unfold execDbgDataWrite
  refine orHold_frame ?_ (by decide) ?_
  · exact OnlyChanges.refl _ _
  · split
    · rename_i v0
      change OnlyChanges [.dbgUnit, .host, .xing, .store] s _
      refine dbgGate_frame ?_ (by decide) ?_
      · exact OnlyChanges.refl _ _
      · refine dbgOnTile_frame ?_ (by decide) ?_
        · exact OnlyChanges.refl _ _
        · refine OnlyChanges.step ?_ (dbgStore_frame _ _) (by decide)
          exact OnlyChanges.refl _ _
    · rename_i v1
      change OnlyChanges [.dbgUnit, .host, .xing, .store] s _
      exact OnlyChanges.refl _ _

theorem readDbgData_frame (s : State) :
    sndAll (OnlyChanges [.dbgUnit, .host, .xing, .store] s) (readDbgData s) := by
  unfold readDbgData
  split
  · rename_i v0
    refine sndAll_mk ?_
    refine dbgOnTile_frame ?_ (by decide) ?_
    · exact OnlyChanges.refl _ _
    · refine OnlyChanges.step ?_ (dbgNext_frame _) (by decide)
      exact OnlyChanges.refl _ _
  · rename_i v1
    refine sndAll_mk ?_
    exact OnlyChanges.refl _ _

theorem gapRead_frame (off : Nat) (wide : Bool) (s : State) :
    OnlyChanges [.host, .freeCtr] s (gapRead off wide s) := by
  unfold gapRead
  split
  · rename_i v0 v1 v2 v3
    refine absorb (P := sndAll (OnlyChanges [.host, .freeCtr] s)) v3 ?_ (fun q4 => ?_)
    · refine OnlyChanges.stepSnd ?_ (draw_frame _) (by decide)
      exact OnlyChanges.refl _ _
    extract_lets x5
    clear_value x5
    refine OnlyChanges.step ?_ (returnRead_frame _ _ _) (by decide)
    assumption

theorem execDbgDataRead_frame (h : HostAccess) (s : State) :
    outAll (OnlyChanges [.dbgUnit, .host, .xing, .freeCtr, .store] s) (execDbgDataRead h s) := by
  unfold execDbgDataRead
  split
  · rename_i v0
    change OnlyChanges [.dbgUnit, .host, .xing, .freeCtr, .store] s _
    refine OnlyChanges.step ?_ (gapRead_frame _ _ _) (by decide)
    exact OnlyChanges.refl _ _
  · rename_i v1
    split
    · rename_i v2
      split
      · rename_i v3 v4 v5 v6
        refine absorb (P := sndAll (OnlyChanges [.dbgUnit, .host, .xing, .freeCtr, .store] s)) v6 ?_ (fun q7 => ?_)
        · refine OnlyChanges.stepSnd ?_ (readDbgData_frame _) (by decide)
          exact OnlyChanges.refl _ _
        change OnlyChanges [.dbgUnit, .host, .xing, .freeCtr, .store] s _
        refine OnlyChanges.step ?_ (returnRead_frame _ _ _) (by decide)
        assumption
    · rename_i v8
      change OnlyChanges [.dbgUnit, .host, .xing, .freeCtr, .store] s _
      exact OnlyChanges.refl _ _

theorem opTelemSnap_frame (x : Snap) (p : Packet) (s : State) :
    OnlyChanges [.cap, .host, .xing, .store, .mem, .near] s (opTelemSnap x p s) := by
  unfold opTelemSnap
  extract_lets x0 x1
  clear_value x0 x1
  refine OnlyChanges.ite ?_ ?_
  · refine OnlyChanges.step ?_ (refuse_frame _ _ _) (by decide)
    exact OnlyChanges.refl _ _
  · refine OnlyChanges.ite ?_ ?_
    · refine OnlyChanges.step ?_ (refuse_frame _ _ _) (by decide)
      exact OnlyChanges.refl _ _
    · refine OnlyChanges.step ?_ (accept_frame _ _) (by decide)
      refine OnlyChanges.step ?_ (destWrite_frame _ _ _ _) (by decide)
      exact OnlyChanges.refl _ _

theorem recordBytes_frame (get : Nat → Option (List Byte)) (next : Nat) (first : Nat) (a : Nat) (a' : State) :
    sndAll (OnlyChanges [.freeCtr] a') (recordBytes get next first a a') := by
  induction a generalizing get next first a'
  · unfold recordBytes
    refine sndAll_mk ?_
    exact OnlyChanges.refl _ _
  · rename_i w0 ih
    unfold recordBytes
    split
    · rename_i v1 v2 v3 v4
      refine absorb (P := sndAll (OnlyChanges [.freeCtr] a')) v4 ?_ (fun q5 => ?_)
      · split
        · rename_i v6 v7 v8
          refine sndAll_mk ?_
          exact OnlyChanges.refl _ _
        · rename_i v9 v10
          split
          · rename_i v11
            refine sndAll_mk ?_
            exact OnlyChanges.refl _ _
          · rename_i v12
            refine sndAll_mk ?_
            refine only_freeCtr ?_ _ (by decide)
            exact OnlyChanges.refl _ _
      split
      · rename_i v13 v14 v15 v16
        refine absorb (P := sndAll (OnlyChanges [.freeCtr] a')) v16 ?_ (fun q17 => ?_)
        · refine OnlyChanges.stepSnd ?_ (ih _ _ _ _) (by decide)
          assumption
        refine sndAll_mk ?_
        assumption

theorem putRecords_frame (p : Packet) (get : Nat → Option (List Byte)) (next : Nat) (first : Nat) (count : Nat) (dest : Nat) (s : State) :
    OnlyChanges [.cap, .host, .xing, .freeCtr, .store, .mem, .near] s (putRecords p get next first count dest s) := by
  unfold putRecords
  refine OnlyChanges.ite ?_ ?_
  · refine OnlyChanges.step ?_ (refuse_frame _ _ _) (by decide)
    exact OnlyChanges.refl _ _
  · refine OnlyChanges.ite ?_ ?_
    · refine OnlyChanges.step ?_ (refuse_frame _ _ _) (by decide)
      exact OnlyChanges.refl _ _
    · split
      · rename_i v0 v1 v2 v3
        refine absorb (P := sndAll (OnlyChanges [.cap, .host, .xing, .freeCtr, .store, .mem, .near] s)) v3 ?_ (fun q4 => ?_)
        · refine OnlyChanges.stepSnd ?_ (recordBytes_frame _ _ _ _ _) (by decide)
          exact OnlyChanges.refl _ _
        refine OnlyChanges.step ?_ (accept_frame _ _) (by decide)
        refine OnlyChanges.step ?_ (destWrite_frame _ _ _ _) (by decide)
        assumption

theorem opEventGet_frame (p : Packet) (s : State) :
    OnlyChanges [.cap, .host, .xing, .freeCtr, .store, .mem, .near] s (opEventGet p s) := by
  unfold opEventGet
  refine OnlyChanges.step ?_ (putRecords_frame _ _ _ _ _ _ _) (by decide)
  exact OnlyChanges.refl _ _

theorem opFaultGet_frame (p : Packet) (s : State) :
    OnlyChanges [.cap, .host, .xing, .freeCtr, .store, .mem, .near] s (opFaultGet p s) := by
  unfold opFaultGet
  refine OnlyChanges.step ?_ (putRecords_frame _ _ _ _ _ _ _) (by decide)
  exact OnlyChanges.refl _ _

theorem setHostQueue_frame (q : Nat) (x : Queue) (s : State) :
    OnlyChanges [.host] s (setHostQueue q x s) := by
  unfold setHostQueue
  refine only_host ?_ _ (by decide)
  exact OnlyChanges.refl _ _

theorem readSlot_frame (h : HostAccess) (off : Nat) (wide : Bool) (s : State) :
    OnlyChanges [.dbgUnit, .host, .xing, .freeCtr, .store] s (readSlot h off wide s) := by
  unfold readSlot
  extract_lets x0 x1 x2 x3 x4 x5
  have h6 : OnlyChanges [.dbgUnit, .host, .xing, .freeCtr, .store] s x4 := by
    unfold x4
    refine OnlyChanges.ite ?_ ?_
    · refine OnlyChanges.step ?_ (setPcie_frame _ _ _) (by decide)
      exact OnlyChanges.refl _ _
    · exact OnlyChanges.refl _ _
  have h7 : OnlyChanges [.dbgUnit, .host, .xing, .freeCtr, .store] s x5 := by
    unfold x5
    refine OnlyChanges.ite ?_ ?_
    · refine only_freeCtr ?_ _ (by decide)
      assumption
    · assumption
  clear_value x0 x1 x2 x3 x4 x5
  refine OnlyChanges.ite ?_ ?_
  · split
    · rename_i v8 v9 v10 v11
      refine absorb (P := sndAll (OnlyChanges [.dbgUnit, .host, .xing, .freeCtr, .store] s)) v11 ?_ (fun q12 => ?_)
      · refine OnlyChanges.stepSnd ?_ (readDbgData_frame _) (by decide)
        exact OnlyChanges.refl _ _
      refine OnlyChanges.step ?_ (returnRead_frame _ _ _) (by decide)
      assumption
  · refine OnlyChanges.step ?_ (returnRead_frame _ _ _) (by decide)
    assumption

theorem execReadLatch_frame (h : HostAccess) (off : Nat) (wide : Bool) (s : State) :
    outAll (OnlyChanges [.dbgUnit, .host, .xing, .freeCtr, .store] s) (execReadLatch h off wide s) := by
  unfold execReadLatch
  split
  · rename_i v0
    split
    · rename_i v1
      change OnlyChanges [.dbgUnit, .host, .xing, .freeCtr, .store] s _
      refine OnlyChanges.step ?_ (urRead_frame _ _) (by decide)
      exact OnlyChanges.refl _ _
    · rename_i v2
      split
      · rename_i v3
        change OnlyChanges [.dbgUnit, .host, .xing, .freeCtr, .store] s _
        refine OnlyChanges.step ?_ (gapRead_frame _ _ _) (by decide)
        exact OnlyChanges.refl _ _
      · rename_i v4
        change OnlyChanges [.dbgUnit, .host, .xing, .freeCtr, .store] s _
        refine OnlyChanges.step ?_ (readSlot_frame _ _ _ _) (by decide)
        exact OnlyChanges.refl _ _
  · rename_i v5
    split
    · rename_i v6
      change OnlyChanges [.dbgUnit, .host, .xing, .freeCtr, .store] s _
      refine OnlyChanges.step ?_ (urRead_frame _ _) (by decide)
      exact OnlyChanges.refl _ _
    · rename_i v7
      split
      · rename_i v8
        change OnlyChanges [.dbgUnit, .host, .xing, .freeCtr, .store] s _
        refine OnlyChanges.step ?_ (gapRead_frame _ _ _) (by decide)
        exact OnlyChanges.refl _ _
      · rename_i v9
        change OnlyChanges [.dbgUnit, .host, .xing, .freeCtr, .store] s _
        refine OnlyChanges.step ?_ (readSlot_frame _ _ _ _) (by decide)
        exact OnlyChanges.refl _ _

theorem writePrivLock_frame (v : W64) (s : State) :
    OnlyChanges [.host] s (writePrivLock v s) := by
  unfold writePrivLock
  extract_lets x0 x1
  clear_value x0 x1
  refine only_host ?_ _ (by decide)
  exact OnlyChanges.refl _ _

theorem execPrivLockFreeze_frame (h : HostAccess) (s : State) :
    outAll (OnlyChanges [.host] s) (execPrivLockFreeze h s) := by
  unfold execPrivLockFreeze
  refine orHold_frame ?_ (by decide) ?_
  · exact OnlyChanges.refl _ _
  · split
    · rename_i v0
      change OnlyChanges [.host] s _
      refine only_host ?_ _ (by decide)
      exact OnlyChanges.refl _ _
    · rename_i v1
      change OnlyChanges [.host] s _
      exact OnlyChanges.refl _ _

theorem writeSeed_frame (v : W64) (s : State) :
    OnlyChanges [.host, .xing, .store] s (writeSeed v s) := by
  unfold writeSeed
  refine OnlyChanges.ite ?_ ?_
  · refine OnlyChanges.step ?_ (argReject_frame _ _ _) (by decide)
    exact OnlyChanges.refl _ _
  · refine only_host ?_ _ (by decide)
    exact OnlyChanges.refl _ _

theorem execJobSeedWrite_frame (h : HostAccess) (v : W64) (s : State) :
    outAll (OnlyChanges [.host, .xing, .store] s) (execJobSeedWrite h v s) := by
  unfold execJobSeedWrite
  refine orHold_frame ?_ (by decide) ?_
  · exact OnlyChanges.refl _ _
  · split
    · rename_i v0
      change OnlyChanges [.host, .xing, .store] s _
      refine OnlyChanges.step ?_ (writeSeed_frame _ _) (by decide)
      exact OnlyChanges.refl _ _
    · rename_i v1
      change OnlyChanges [.host, .xing, .store] s _
      exact OnlyChanges.refl _ _

theorem writeAper_frame (n : Nat) (v : W64) (s : State) :
    OnlyChanges [.host] s (writeAper n v s) := by
  unfold writeAper
  extract_lets x0 x1
  clear_value x0 x1
  refine OnlyChanges.step ?_ (setPcie_frame _ _ _) (by decide)
  exact OnlyChanges.refl _ _

theorem writeEvtCfg_frame (v : W64) (s : State) :
    OnlyChanges [.host] s (writeEvtCfg v s) := by
  unfold writeEvtCfg
  refine only_host ?_ _ (by decide)
  exact OnlyChanges.refl _ _

theorem writeCadCtrl_frame (v : W64) (s : State) :
    OnlyChanges [.host, .xing, .store, .cad, .rel] s (writeCadCtrl v s) := by
  unfold writeCadCtrl
  refine OnlyChanges.ite ?_ ?_
  · refine OnlyChanges.step ?_ (argReject_frame _ _ _) (by decide)
    exact OnlyChanges.refl _ _
  · extract_lets x0 x1
    have h2 : OnlyChanges [.host, .xing, .store, .cad, .rel] s x1 := by
      unfold x1
      refine OnlyChanges.ite ?_ ?_
      · refine OnlyChanges.step ?_ (writeSrc_frame _ _) (by decide)
        refine OnlyChanges.step ?_ (setCad_frame _ _) (by decide)
        exact OnlyChanges.refl _ _
      · refine OnlyChanges.step ?_ (lockViolation_frame _) (by decide)
        exact OnlyChanges.refl _ _
    clear_value x0 x1
    refine OnlyChanges.ite ?_ ?_
    · refine OnlyChanges.step ?_ (doResync_frame _) (by decide)
      assumption
    · assumption

theorem writeQueueCfg_frame (n : Nat) (v : W64) (s : State) :
    OnlyChanges [.host] s (writeQueueCfg n v s) := by
  unfold writeQueueCfg
  extract_lets x0 x1 x2
  clear_value x0 x1 x2
  refine OnlyChanges.step ?_ (setHostQueue_frame _ _ _) (by decide)
  exact OnlyChanges.refl _ _

theorem writeQueueReg_frame (n : Nat) (k : Nat) (v : W64) (s : State) :
    OnlyChanges [.host] s (writeQueueReg n k v s) := by
  unfold writeQueueReg
  extract_lets x0
  clear_value x0
  split
  · rename_i v1
    refine OnlyChanges.step ?_ (writeQueueCfg_frame _ _ _) (by decide)
    exact OnlyChanges.refl _ _
  · rename_i v2
    refine OnlyChanges.ite ?_ ?_
    · exact OnlyChanges.refl _ _
    · refine OnlyChanges.step ?_ (setHostQueue_frame _ _ _) (by decide)
      exact OnlyChanges.refl _ _
  · rename_i v3
    refine OnlyChanges.ite ?_ ?_
    · exact OnlyChanges.refl _ _
    · refine OnlyChanges.step ?_ (setHostQueue_frame _ _ _) (by decide)
      exact OnlyChanges.refl _ _
  · rename_i v4 v5 v6 v7
    exact OnlyChanges.refl _ _

theorem execQueueEnable_frame (h : HostAccess) (n : Nat) (s : State) :
    outAll (OnlyChanges [.host] s) (execQueueEnable h n s) := by
  unfold execQueueEnable
  refine orHold_frame ?_ (by decide) ?_
  · exact OnlyChanges.refl _ _
  · split
    · rename_i v0
      change OnlyChanges [.host] s _
      refine OnlyChanges.step ?_ (setHostQueue_frame _ _ _) (by decide)
      exact OnlyChanges.refl _ _
    · rename_i v1
      change OnlyChanges [.host] s _
      exact OnlyChanges.refl _ _

theorem execQueueDisable_frame (h : HostAccess) (n : Nat) (s : State) :
    outAll (OnlyChanges [.host] s) (execQueueDisable h n s) := by
  unfold execQueueDisable
  refine orHold_frame ?_ (by decide) ?_
  · exact OnlyChanges.refl _ _
  · split
    · rename_i v0
      change OnlyChanges [.host] s _
      refine OnlyChanges.step ?_ (setHostQueue_frame _ _ _) (by decide)
      exact OnlyChanges.refl _ _
    · rename_i v1
      change OnlyChanges [.host] s _
      exact OnlyChanges.refl _ _

theorem writeDbg_frame (o : Nat) (v : W64) (s : State) :
    OnlyChanges [.cap, .caches, .parts, .knots, .ports, .fields, .watch, .dbgUnit, .host, .xing, .ramp, .plays, .mesh, .exchanges, .freeCtr, .store,
        .rel, .mem, .near] s (writeDbg o v s) := by
  unfold writeDbg
  refine OnlyChanges.ite ?_ ?_
  · refine OnlyChanges.step ?_ (writeDbgCtrl_frame _ _) (by decide)
    exact OnlyChanges.refl _ _
  · refine dbgGate_frame ?_ (by decide) ?_
    · exact OnlyChanges.refl _ _
    · refine OnlyChanges.ite ?_ ?_
      · refine OnlyChanges.ite ?_ ?_
        · refine OnlyChanges.step ?_ (argReject_frame _ _ _) (by decide)
          exact OnlyChanges.refl _ _
        · refine OnlyChanges.step ?_ (setDbg_frame _ _) (by decide)
          exact OnlyChanges.refl _ _
      · refine OnlyChanges.ite ?_ ?_
        · refine OnlyChanges.step ?_ (setDbg_frame _ _) (by decide)
          exact OnlyChanges.refl _ _
        · refine OnlyChanges.ite ?_ ?_
          · refine dbgOnTile_frame ?_ (by decide) ?_
            · exact OnlyChanges.refl _ _
            · refine OnlyChanges.step ?_ (dbgStore_frame _ _) (by decide)
              exact OnlyChanges.refl _ _
          · exact OnlyChanges.refl _ _

theorem setReg_frame (o : Nat) (v : W64) (s : State) :
    OnlyChanges [.cap, .lqWindow, .caches, .bu, .parts, .knots, .ports, .fields, .watch, .dbgUnit, .host, .power, .xing, .ramp, .plays, .mesh,
        .exchanges, .freeCtr, .store, .cad, .rel, .mem, .near, .regions] s (setReg o v s) := by
  unfold setReg
  refine OnlyChanges.ite ?_ ?_
  · refine OnlyChanges.step ?_ (writeBuCtrl_frame _ _) (by decide)
    exact OnlyChanges.refl _ _
  · refine OnlyChanges.ite ?_ ?_
    · refine OnlyChanges.step ?_ (writePrivLock_frame _ _) (by decide)
      exact OnlyChanges.refl _ _
    · refine OnlyChanges.ite ?_ ?_
      · refine only_host ?_ _ (by decide)
        exact OnlyChanges.refl _ _
      · refine OnlyChanges.ite ?_ ?_
        · refine OnlyChanges.step ?_ (writeSeed_frame _ _) (by decide)
          exact OnlyChanges.refl _ _
        · refine OnlyChanges.ite ?_ ?_
          · refine OnlyChanges.step ?_ (writeAper_frame _ _ _) (by decide)
            exact OnlyChanges.refl _ _
          · refine OnlyChanges.ite ?_ ?_
            · refine OnlyChanges.step ?_ (writeAper_frame _ _ _) (by decide)
              exact OnlyChanges.refl _ _
            · refine OnlyChanges.ite ?_ ?_
              · refine OnlyChanges.step ?_ (writeEvtCfg_frame _ _) (by decide)
                exact OnlyChanges.refl _ _
              · refine OnlyChanges.ite ?_ ?_
                · refine OnlyChanges.step ?_ (xingClear_frame _ _ _) (by decide)
                  exact OnlyChanges.refl _ _
                · refine OnlyChanges.ite ?_ ?_
                  · refine OnlyChanges.step ?_ (writeCadCtrl_frame _ _) (by decide)
                    exact OnlyChanges.refl _ _
                  · refine OnlyChanges.ite ?_ ?_
                    · refine OnlyChanges.step ?_ (setCad_frame _ _) (by decide)
                      exact OnlyChanges.refl _ _
                    · refine OnlyChanges.ite ?_ ?_
                      · refine OnlyChanges.step ?_ (setPref_frame _ _) (by decide)
                        exact OnlyChanges.refl _ _
                      · refine OnlyChanges.ite ?_ ?_
                        · refine OnlyChanges.step ?_ (writePwrCtrl_frame _ _) (by decide)
                          exact OnlyChanges.refl _ _
                        · refine OnlyChanges.ite ?_ ?_
                          · refine OnlyChanges.step ?_ (writeTally_frame _ _ _) (by decide)
                            exact OnlyChanges.refl _ _
                          · refine OnlyChanges.ite ?_ ?_
                            · refine OnlyChanges.step ?_ (writeAudit_frame _ _ _) (by decide)
                              exact OnlyChanges.refl _ _
                            · refine OnlyChanges.ite ?_ ?_
                              · refine OnlyChanges.step ?_ (writeWatchCtrl_frame _ _) (by decide)
                                exact OnlyChanges.refl _ _
                              · refine OnlyChanges.ite ?_ ?_
                                · refine OnlyChanges.step ?_ (writeWatchCfg_frame _ _) (by decide)
                                  exact OnlyChanges.refl _ _
                                · refine OnlyChanges.ite ?_ ?_
                                  · refine OnlyChanges.step ?_ (writeCommitted_frame _ _) (by decide)
                                    exact OnlyChanges.refl _ _
                                  · refine OnlyChanges.ite ?_ ?_
                                    · refine OnlyChanges.step ?_ (writeNsScrub_frame _ _) (by decide)
                                      exact OnlyChanges.refl _ _
                                    · refine OnlyChanges.ite ?_ ?_
                                      · refine OnlyChanges.step ?_ (writeRimScrub_frame _ _) (by decide)
                                        exact OnlyChanges.refl _ _
                                      · refine OnlyChanges.ite ?_ ?_
                                        · refine only_near ?_ _ (by decide)
                                          exact OnlyChanges.refl _ _
                                        · refine OnlyChanges.ite ?_ ?_
                                          · refine OnlyChanges.ite ?_ ?_
                                            · refine OnlyChanges.step ?_ (writeRegionLower_frame _ _ _) (by decide)
                                              exact OnlyChanges.refl _ _
                                            · refine OnlyChanges.step ?_ (writeRegionUpper_frame _ _ _) (by decide)
                                              exact OnlyChanges.refl _ _
                                          · refine OnlyChanges.ite ?_ ?_
                                            · refine OnlyChanges.step ?_ (writeHawCfg_frame _ _) (by decide)
                                              exact OnlyChanges.refl _ _
                                            · refine OnlyChanges.ite ?_ ?_
                                              · refine OnlyChanges.step ?_ (writeQueueReg_frame _ _ _ _) (by decide)
                                                exact OnlyChanges.refl _ _
                                              · refine OnlyChanges.ite ?_ ?_
                                                · refine OnlyChanges.step ?_ (writeDbg_frame _ _ _) (by decide)
                                                  exact OnlyChanges.refl _ _
                                                · exact OnlyChanges.refl _ _

theorem writeSlot_frame (h : HostAccess) (off : Nat) (wide : Bool) (v : W64) (s : State) :
    OnlyChanges [.cap, .lqWindow, .caches, .bu, .parts, .knots, .ports, .fields, .watch, .dbgUnit, .host, .power, .xing, .ramp, .plays, .mesh,
        .exchanges, .freeCtr, .store, .cad, .rel, .mem, .near, .regions] s (writeSlot h off wide v s) := by
  unfold writeSlot
  extract_lets x0
  clear_value x0
  split
  · rename_i v1 v2
    exact OnlyChanges.refl _ _
  · rename_i v3 v4 v5
    refine OnlyChanges.ite ?_ ?_
    · exact OnlyChanges.refl _ _
    · refine OnlyChanges.ite ?_ ?_
      · refine OnlyChanges.step ?_ (post_frame _ _ _) (by decide)
        exact OnlyChanges.refl _ _
      · refine OnlyChanges.ite ?_ ?_
        · exact OnlyChanges.refl _ _
        · refine OnlyChanges.step ?_ (setReg_frame _ _ _) (by decide)
          exact OnlyChanges.refl _ _

theorem doorbellView_frame {l : List Part} {s t : State} {h : HostAccess} {n : Nat} {act : Queue → State → State} (hs : OnlyChanges l s t)
    (hl : ∀ p ∈ [Part.host], p ∈ l) (ha : ∀ q u, OnlyChanges l s u → OnlyChanges l s (act q u)) :
    OnlyChanges l s (doorbellView h n act t) := by
  unfold doorbellView
  dsimp only
  split
  · exact hs
  · split
    · exact OnlyChanges.step hs (setHostQueue_frame _ _ _) hl
    · exact ha _ _ hs

theorem staleDoorbell_frame (h : HostAccess) (s : State) :
    OnlyChanges [.host, .xing, .store] s (staleDoorbell h s) := by
  unfold staleDoorbell
  refine OnlyChanges.step ?_ (postFull_frame _ _ _ _ _ _ _) (by decide)
  exact OnlyChanges.refl _ _

theorem ringSq_frame (h : HostAccess) (n : Nat) (tail : Nat) (s : State) :
    OnlyChanges [.host, .xing, .store] s (ringSq h n tail s) := by
  unfold ringSq
  refine doorbellView_frame ?_ (by decide) ?_
  · exact OnlyChanges.refl _ _
  · intro a0
    intro a1
    intro a2
    extract_lets x3 x4 x5
    have h6 : OnlyChanges [.host, .xing, .store] s x4 := by
      unfold x4
      refine OnlyChanges.step ?_ (setHostQueue_frame _ _ _) (by decide)
      assumption
    clear_value x3 x4 x5
    refine OnlyChanges.ite ?_ ?_
    · refine OnlyChanges.step ?_ (staleDoorbell_frame _ _) (by decide)
      assumption
    · refine OnlyChanges.ite ?_ ?_
      · assumption
      · refine only_host ?_ _ (by decide)
        assumption

theorem ringCq_frame (h : HostAccess) (n : Nat) (head : Nat) (s : State) :
    OnlyChanges [.host, .xing, .store] s (ringCq h n head s) := by
  unfold ringCq
  refine doorbellView_frame ?_ (by decide) ?_
  · exact OnlyChanges.refl _ _
  · intro a0
    intro a1
    intro a2
    extract_lets x3 x4
    clear_value x3 x4
    refine OnlyChanges.ite ?_ ?_
    · refine OnlyChanges.step ?_ (staleDoorbell_frame _ _) (by decide)
      assumption
    · refine OnlyChanges.step ?_ (setHostQueue_frame _ _ _) (by decide)
      assumption

theorem execSqDb_frame (h : HostAccess) (n : Nat) (tail : Nat) (s : State) :
    outAll (OnlyChanges [.host, .xing, .store] s) (execSqDb h n tail s) := by
  unfold execSqDb
  refine orHold_frame ?_ (by decide) ?_
  · exact OnlyChanges.refl _ _
  · change OnlyChanges [.host, .xing, .store] s _
    refine OnlyChanges.step ?_ (ringSq_frame _ _ _ _) (by decide)
    exact OnlyChanges.refl _ _

theorem execCqDb_frame (h : HostAccess) (n : Nat) (head : Nat) (s : State) :
    outAll (OnlyChanges [.host, .xing, .store] s) (execCqDb h n head s) := by
  unfold execCqDb
  refine orHold_frame ?_ (by decide) ?_
  · exact OnlyChanges.refl _ _
  · change OnlyChanges [.host, .xing, .store] s _
    refine OnlyChanges.step ?_ (ringCq_frame _ _ _ _) (by decide)
    exact OnlyChanges.refl _ _

theorem sendPending_frame (port : Nat) (s : State) :
    OnlyChanges [.host, .xing, .store] s (sendPending port s) := by
  unfold sendPending
  extract_lets x0 x1
  clear_value x0 x1
  refine OnlyChanges.fold ?_ (fun u2 y3 h4 => ?_)
  · refine only_host ?_ _ (by decide)
    exact OnlyChanges.refl _ _
  · refine OnlyChanges.step ?_ (sendMsi_frame _ _ _) (by decide)
    assumption

theorem hostRegWrite_frame (h : HostAccess) (off : Nat) (wide : Bool) (v : W64) (s : State) :
    OnlyChanges [.cap, .lqWindow, .caches, .bu, .parts, .knots, .ports, .fields, .watch, .dbgUnit, .host, .power, .xing, .ramp, .plays, .mesh,
        .exchanges, .freeCtr, .store, .cad, .rel, .mem, .near, .regions] s (hostRegWrite h off wide v s) := by
  unfold hostRegWrite
  refine OnlyChanges.ite ?_ ?_
  · refine OnlyChanges.step ?_ (unsupported_frame _ _) (by decide)
    exact OnlyChanges.refl _ _
  · refine OnlyChanges.ite ?_ ?_
    · extract_lets x0 x1
      clear_value x0 x1
      refine OnlyChanges.ite ?_ ?_
      · refine OnlyChanges.step ?_ (ringSq_frame _ _ _ _) (by decide)
        exact OnlyChanges.refl _ _
      · refine OnlyChanges.ite ?_ ?_
        · refine OnlyChanges.step ?_ (ringCq_frame _ _ _ _) (by decide)
          exact OnlyChanges.refl _ _
        · exact OnlyChanges.refl _ _
    · refine OnlyChanges.ite ?_ ?_
      · refine OnlyChanges.ite ?_ ?_
        · refine OnlyChanges.step ?_ (writeSlot_frame _ _ _ _ _) (by decide)
          exact OnlyChanges.refl _ _
        · exact OnlyChanges.refl _ _
      · refine OnlyChanges.ite ?_ ?_
        · refine OnlyChanges.step ?_ (writeSlot_frame _ _ _ _ _) (by decide)
          exact OnlyChanges.refl _ _
        · extract_lets x2 x3
          clear_value x2 x3
          refine OnlyChanges.ite ?_ ?_
          · refine OnlyChanges.ite ?_ ?_
            · exact OnlyChanges.refl _ _
            · refine OnlyChanges.step ?_ (sendPending_frame _ _) (by decide)
              refine OnlyChanges.step ?_ (setPcie_frame _ _ _) (by decide)
              exact OnlyChanges.refl _ _
          · refine OnlyChanges.ite ?_ ?_
            · refine OnlyChanges.step ?_ (writeWindow_frame _ _ _ _) (by decide)
              exact OnlyChanges.refl _ _
            · exact OnlyChanges.refl _ _

theorem execRegisterWrite_frame (h : HostAccess) (off : Nat) (wide : Bool) (v : W64) (s : State) :
    outAll (OnlyChanges [.cap, .lqWindow, .caches, .bu, .parts, .knots, .ports, .fields, .watch, .dbgUnit, .host, .power, .xing, .ramp, .plays,
        .mesh, .exchanges, .freeCtr, .store, .cad, .rel, .mem, .near, .regions] s) (execRegisterWrite h off wide v s) := by
  unfold execRegisterWrite
  refine orHold_frame ?_ (by decide) ?_
  · exact OnlyChanges.refl _ _
  · change OnlyChanges [.cap, .lqWindow, .caches, .bu, .parts, .knots, .ports, .fields, .watch, .dbgUnit, .host, .power, .xing, .ramp, .plays,
        .mesh, .exchanges, .freeCtr, .store, .cad, .rel, .mem, .near, .regions] s _
    refine OnlyChanges.step ?_ (hostRegWrite_frame _ _ _ _ _) (by decide)
    exact OnlyChanges.refl _ _

theorem runOp_frame (p : Packet) (n : Nat) (s : State) :
    OnlyChanges [.cap, .colls, .parting, .bu, .parts, .sets, .ports, .fields, .watch, .dbgUnit, .host, .loans, .xing, .plays, .freeCtr, .removed,
        .hints, .store, .mem, .near] s (runOp p n s) := by
  unfold runOp
  split
  · rename_i v0 v1
    refine OnlyChanges.step ?_ (accept_frame _ _) (by decide)
    exact OnlyChanges.refl _ _
  · rename_i v2 v3
    refine OnlyChanges.step ?_ (opEventGet_frame _ _) (by decide)
    exact OnlyChanges.refl _ _
  · rename_i v4 v5
    refine OnlyChanges.step ?_ (opBuOpen_frame _ _) (by decide)
    exact OnlyChanges.refl _ _
  · rename_i v6 v7
    refine OnlyChanges.step ?_ (opLoan_frame _ _ _) (by decide)
    exact OnlyChanges.refl _ _
  · rename_i v8 v9
    refine OnlyChanges.step ?_ (opHintPlace_frame _ _) (by decide)
    exact OnlyChanges.refl _ _
  · rename_i v10 v11
    refine OnlyChanges.step ?_ (opPlayAbort_frame _ _) (by decide)
    exact OnlyChanges.refl _ _
  · rename_i v12 v13
    refine OnlyChanges.step ?_ (opPart_frame _ _) (by decide)
    exact OnlyChanges.refl _ _
  · rename_i v14 v15
    refine OnlyChanges.step ?_ (opLedgerSet_frame _ _) (by decide)
    exact OnlyChanges.refl _ _
  · rename_i v16 v17
    refine OnlyChanges.step ?_ (opLedgerGet_frame _ _) (by decide)
    exact OnlyChanges.refl _ _
  · rename_i v18 v19
    refine OnlyChanges.step ?_ (opGroupSet_frame _ _) (by decide)
    exact OnlyChanges.refl _ _
  · rename_i v20 v21
    refine OnlyChanges.step ?_ (opStateLoad_frame _ _) (by decide)
    exact OnlyChanges.refl _ _
  · rename_i v22 v23
    refine OnlyChanges.step ?_ (opPlanSet_frame _ _) (by decide)
    exact OnlyChanges.refl _ _
  · rename_i v24 v25
    refine OnlyChanges.step ?_ (opRouteSet_frame _ _) (by decide)
    exact OnlyChanges.refl _ _
  · rename_i v26 v27
    refine OnlyChanges.step ?_ (opCollSet_frame _ _) (by decide)
    exact OnlyChanges.refl _ _
  · rename_i v28 v29
    refine OnlyChanges.step ?_ (opPortCtrl_frame _ _) (by decide)
    exact OnlyChanges.refl _ _
  · rename_i v30 v31
    refine OnlyChanges.step ?_ (opXmapSet_frame _ _) (by decide)
    exact OnlyChanges.refl _ _
  · rename_i v32 v33
    refine OnlyChanges.step ?_ (opXchGet_frame _ _) (by decide)
    exact OnlyChanges.refl _ _
  · rename_i v34 v35
    refine OnlyChanges.step ?_ (opTelemSnap_frame _ _ _) (by decide)
    exact OnlyChanges.refl _ _
  · rename_i v36 v37
    refine OnlyChanges.step ?_ (opWatchSet_frame _ _) (by decide)
    exact OnlyChanges.refl _ _
  · rename_i v38 v39
    refine OnlyChanges.step ?_ (opWatchGet_frame _ _) (by decide)
    exact OnlyChanges.refl _ _
  · rename_i v40 v41
    refine OnlyChanges.step ?_ (opVecEval_frame _ _) (by decide)
    exact OnlyChanges.refl _ _
  · rename_i v42 v43
    refine OnlyChanges.step ?_ (opFaultGet_frame _ _) (by decide)
    exact OnlyChanges.refl _ _
  · rename_i v44 v45
    refine OnlyChanges.step ?_ (opKeyRevoke_frame _ _) (by decide)
    exact OnlyChanges.refl _ _
  · rename_i v46 v47
    refine OnlyChanges.step ?_ (opRollbackSet_frame _ _) (by decide)
    exact OnlyChanges.refl _ _
  · rename_i v48 v49
    refine OnlyChanges.step ?_ (opDebugLock_frame _ _) (by decide)
    exact OnlyChanges.refl _ _
  · rename_i v50 v51 v52 v53 v54 v55 v56 v57 v58 v59 v60 v61 v62 v63 v64 v65 v66 v67 v68 v69 v70 v71 v72 v73 v74 v75
    exact OnlyChanges.refl _ _

theorem execute_frame (p : Packet) (s : State) :
    OnlyChanges [.cap, .colls, .barriers, .parting, .bu, .parts, .sets, .knots, .ports, .fields, .watch, .dbgUnit, .host, .power, .loans, .sched,
        .xing, .plays, .exchanges, .freeCtr, .removed, .hints, .store, .arrivals, .mem, .near] s (execute p s) := by
  unfold execute
  refine OnlyChanges.ite ?_ ?_
  · refine OnlyChanges.step ?_ (dispatchStep_frame _ _) (by decide)
    exact OnlyChanges.refl _ _
  · refine OnlyChanges.ite ?_ ?_
    · refine OnlyChanges.step ?_ (opPrefDispatch_frame _ _) (by decide)
      exact OnlyChanges.refl _ _
    · extract_lets x0 x1
      clear_value x0 x1
      refine atFire_frame ?_ (by decide) ?_
      · refine only_arrivals ?_ _ (by decide)
        exact OnlyChanges.refl _ _
      · refine OnlyChanges.step ?_ (runOp_frame _ _ _) (by decide)
        refine only_arrivals ?_ _ (by decide)
        exact OnlyChanges.refl _ _

theorem refuseAtDispatch_frame (p : Packet) (st : BitVec 16) (s : State) :
    OnlyChanges [.host] s (refuseAtDispatch p st s) := by
  unfold refuseAtDispatch
  refine OnlyChanges.step ?_ (replyTo_frame _ _ _ _ _ _ _ _) (by decide)
  exact OnlyChanges.refl _ _

theorem dispatchPacket_frame (p : Packet) (s : State) :
    OnlyChanges [.cap, .colls, .barriers, .parting, .bu, .parts, .sets, .knots, .ports, .fields, .watch, .dbgUnit, .host, .power, .loans, .sched,
        .xing, .plays, .exchanges, .freeCtr, .removed, .hints, .store, .arrivals, .mem, .near] s (dispatchPacket p s) := by
  unfold dispatchPacket
  refine OnlyChanges.ite ?_ ?_
  · exact OnlyChanges.refl _ _
  · split
    · rename_i v0 v1 v2
      refine OnlyChanges.step ?_ (refuseAtDispatch_frame _ _ _) (by decide)
      exact OnlyChanges.refl _ _
    · rename_i v3 v4
      extract_lets x5
      clear_value x5
      split
      · rename_i v6 v7 v8
        refine OnlyChanges.step ?_ (refuseAtDispatch_frame _ _ _) (by decide)
        exact OnlyChanges.refl _ _
      · rename_i v9 v10
        refine OnlyChanges.step ?_ (execute_frame _ _) (by decide)
        exact OnlyChanges.refl _ _

theorem execNop_frame (p : Packet) (s : State) :
    outAll (OnlyChanges [.cap, .colls, .barriers, .parting, .bu, .parts, .sets, .knots, .ports, .fields, .watch, .dbgUnit, .host, .power, .loans,
        .sched, .xing, .plays, .exchanges, .freeCtr, .removed, .hints, .store, .arrivals, .mem, .near] s) (execNop p s) := by
  unfold execNop
  change OnlyChanges [.cap, .colls, .barriers, .parting, .bu, .parts, .sets, .knots, .ports, .fields, .watch, .dbgUnit, .host, .power, .loans,
      .sched, .xing, .plays, .exchanges, .freeCtr, .removed, .hints, .store, .arrivals, .mem, .near] s _
  refine OnlyChanges.step ?_ (dispatchPacket_frame _ _) (by decide)
  exact OnlyChanges.refl _ _

theorem execEventGet_frame (p : Packet) (s : State) :
    outAll (OnlyChanges [.cap, .colls, .barriers, .parting, .bu, .parts, .sets, .knots, .ports, .fields, .watch, .dbgUnit, .host, .power, .loans,
        .sched, .xing, .plays, .exchanges, .freeCtr, .removed, .hints, .store, .arrivals, .mem, .near] s) (execEventGet p s) := by
  unfold execEventGet
  change OnlyChanges [.cap, .colls, .barriers, .parting, .bu, .parts, .sets, .knots, .ports, .fields, .watch, .dbgUnit, .host, .power, .loans,
      .sched, .xing, .plays, .exchanges, .freeCtr, .removed, .hints, .store, .arrivals, .mem, .near] s _
  refine OnlyChanges.step ?_ (dispatchPacket_frame _ _) (by decide)
  exact OnlyChanges.refl _ _

theorem execBuOpen_frame (p : Packet) (s : State) :
    outAll (OnlyChanges [.cap, .colls, .barriers, .parting, .bu, .parts, .sets, .knots, .ports, .fields, .watch, .dbgUnit, .host, .power, .loans,
        .sched, .xing, .plays, .exchanges, .freeCtr, .removed, .hints, .store, .arrivals, .mem, .near] s) (execBuOpen p s) := by
  unfold execBuOpen
  change OnlyChanges [.cap, .colls, .barriers, .parting, .bu, .parts, .sets, .knots, .ports, .fields, .watch, .dbgUnit, .host, .power, .loans,
      .sched, .xing, .plays, .exchanges, .freeCtr, .removed, .hints, .store, .arrivals, .mem, .near] s _
  refine OnlyChanges.step ?_ (dispatchPacket_frame _ _) (by decide)
  exact OnlyChanges.refl _ _

theorem execLoan_frame (p : Packet) (s : State) :
    outAll (OnlyChanges [.cap, .colls, .barriers, .parting, .bu, .parts, .sets, .knots, .ports, .fields, .watch, .dbgUnit, .host, .power, .loans,
        .sched, .xing, .plays, .exchanges, .freeCtr, .removed, .hints, .store, .arrivals, .mem, .near] s) (execLoan p s) := by
  unfold execLoan
  change OnlyChanges [.cap, .colls, .barriers, .parting, .bu, .parts, .sets, .knots, .ports, .fields, .watch, .dbgUnit, .host, .power, .loans,
      .sched, .xing, .plays, .exchanges, .freeCtr, .removed, .hints, .store, .arrivals, .mem, .near] s _
  refine OnlyChanges.step ?_ (dispatchPacket_frame _ _) (by decide)
  exact OnlyChanges.refl _ _

theorem execHintPlace_frame (p : Packet) (s : State) :
    outAll (OnlyChanges [.cap, .colls, .barriers, .parting, .bu, .parts, .sets, .knots, .ports, .fields, .watch, .dbgUnit, .host, .power, .loans,
        .sched, .xing, .plays, .exchanges, .freeCtr, .removed, .hints, .store, .arrivals, .mem, .near] s) (execHintPlace p s) := by
  unfold execHintPlace
  change OnlyChanges [.cap, .colls, .barriers, .parting, .bu, .parts, .sets, .knots, .ports, .fields, .watch, .dbgUnit, .host, .power, .loans,
      .sched, .xing, .plays, .exchanges, .freeCtr, .removed, .hints, .store, .arrivals, .mem, .near] s _
  refine OnlyChanges.step ?_ (dispatchPacket_frame _ _) (by decide)
  exact OnlyChanges.refl _ _

theorem execPlayFire_frame (p : Packet) (s : State) :
    outAll (OnlyChanges [.cap, .colls, .barriers, .parting, .bu, .parts, .sets, .knots, .ports, .fields, .watch, .dbgUnit, .host, .power, .loans,
        .sched, .xing, .plays, .exchanges, .freeCtr, .removed, .hints, .store, .arrivals, .mem, .near] s) (execPlayFire p s) := by
  unfold execPlayFire
  change OnlyChanges [.cap, .colls, .barriers, .parting, .bu, .parts, .sets, .knots, .ports, .fields, .watch, .dbgUnit, .host, .power, .loans,
      .sched, .xing, .plays, .exchanges, .freeCtr, .removed, .hints, .store, .arrivals, .mem, .near] s _
  refine OnlyChanges.step ?_ (dispatchPacket_frame _ _) (by decide)
  exact OnlyChanges.refl _ _

theorem execPlayAbort_frame (p : Packet) (s : State) :
    outAll (OnlyChanges [.cap, .colls, .barriers, .parting, .bu, .parts, .sets, .knots, .ports, .fields, .watch, .dbgUnit, .host, .power, .loans,
        .sched, .xing, .plays, .exchanges, .freeCtr, .removed, .hints, .store, .arrivals, .mem, .near] s) (execPlayAbort p s) := by
  unfold execPlayAbort
  change OnlyChanges [.cap, .colls, .barriers, .parting, .bu, .parts, .sets, .knots, .ports, .fields, .watch, .dbgUnit, .host, .power, .loans,
      .sched, .xing, .plays, .exchanges, .freeCtr, .removed, .hints, .store, .arrivals, .mem, .near] s _
  refine OnlyChanges.step ?_ (dispatchPacket_frame _ _) (by decide)
  exact OnlyChanges.refl _ _

theorem execPart_frame (p : Packet) (s : State) :
    outAll (OnlyChanges [.cap, .colls, .barriers, .parting, .bu, .parts, .sets, .knots, .ports, .fields, .watch, .dbgUnit, .host, .power, .loans,
        .sched, .xing, .plays, .exchanges, .freeCtr, .removed, .hints, .store, .arrivals, .mem, .near] s) (execPart p s) := by
  unfold execPart
  change OnlyChanges [.cap, .colls, .barriers, .parting, .bu, .parts, .sets, .knots, .ports, .fields, .watch, .dbgUnit, .host, .power, .loans,
      .sched, .xing, .plays, .exchanges, .freeCtr, .removed, .hints, .store, .arrivals, .mem, .near] s _
  refine OnlyChanges.step ?_ (dispatchPacket_frame _ _) (by decide)
  exact OnlyChanges.refl _ _

theorem execLedgerSet_frame (p : Packet) (s : State) :
    outAll (OnlyChanges [.cap, .colls, .barriers, .parting, .bu, .parts, .sets, .knots, .ports, .fields, .watch, .dbgUnit, .host, .power, .loans,
        .sched, .xing, .plays, .exchanges, .freeCtr, .removed, .hints, .store, .arrivals, .mem, .near] s) (execLedgerSet p s) := by
  unfold execLedgerSet
  change OnlyChanges [.cap, .colls, .barriers, .parting, .bu, .parts, .sets, .knots, .ports, .fields, .watch, .dbgUnit, .host, .power, .loans,
      .sched, .xing, .plays, .exchanges, .freeCtr, .removed, .hints, .store, .arrivals, .mem, .near] s _
  refine OnlyChanges.step ?_ (dispatchPacket_frame _ _) (by decide)
  exact OnlyChanges.refl _ _

theorem execLedgerGet_frame (p : Packet) (s : State) :
    outAll (OnlyChanges [.cap, .colls, .barriers, .parting, .bu, .parts, .sets, .knots, .ports, .fields, .watch, .dbgUnit, .host, .power, .loans,
        .sched, .xing, .plays, .exchanges, .freeCtr, .removed, .hints, .store, .arrivals, .mem, .near] s) (execLedgerGet p s) := by
  unfold execLedgerGet
  change OnlyChanges [.cap, .colls, .barriers, .parting, .bu, .parts, .sets, .knots, .ports, .fields, .watch, .dbgUnit, .host, .power, .loans,
      .sched, .xing, .plays, .exchanges, .freeCtr, .removed, .hints, .store, .arrivals, .mem, .near] s _
  refine OnlyChanges.step ?_ (dispatchPacket_frame _ _) (by decide)
  exact OnlyChanges.refl _ _

theorem execGroupSet_frame (p : Packet) (s : State) :
    outAll (OnlyChanges [.cap, .colls, .barriers, .parting, .bu, .parts, .sets, .knots, .ports, .fields, .watch, .dbgUnit, .host, .power, .loans,
        .sched, .xing, .plays, .exchanges, .freeCtr, .removed, .hints, .store, .arrivals, .mem, .near] s) (execGroupSet p s) := by
  unfold execGroupSet
  change OnlyChanges [.cap, .colls, .barriers, .parting, .bu, .parts, .sets, .knots, .ports, .fields, .watch, .dbgUnit, .host, .power, .loans,
      .sched, .xing, .plays, .exchanges, .freeCtr, .removed, .hints, .store, .arrivals, .mem, .near] s _
  refine OnlyChanges.step ?_ (dispatchPacket_frame _ _) (by decide)
  exact OnlyChanges.refl _ _

theorem execCommitArm_frame (p : Packet) (s : State) :
    outAll (OnlyChanges [.cap, .colls, .barriers, .parting, .bu, .parts, .sets, .knots, .ports, .fields, .watch, .dbgUnit, .host, .power, .loans,
        .sched, .xing, .plays, .exchanges, .freeCtr, .removed, .hints, .store, .arrivals, .mem, .near] s) (execCommitArm p s) := by
  unfold execCommitArm
  change OnlyChanges [.cap, .colls, .barriers, .parting, .bu, .parts, .sets, .knots, .ports, .fields, .watch, .dbgUnit, .host, .power, .loans,
      .sched, .xing, .plays, .exchanges, .freeCtr, .removed, .hints, .store, .arrivals, .mem, .near] s _
  refine OnlyChanges.step ?_ (dispatchPacket_frame _ _) (by decide)
  exact OnlyChanges.refl _ _

theorem execStateLoad_frame (p : Packet) (s : State) :
    outAll (OnlyChanges [.cap, .colls, .barriers, .parting, .bu, .parts, .sets, .knots, .ports, .fields, .watch, .dbgUnit, .host, .power, .loans,
        .sched, .xing, .plays, .exchanges, .freeCtr, .removed, .hints, .store, .arrivals, .mem, .near] s) (execStateLoad p s) := by
  unfold execStateLoad
  change OnlyChanges [.cap, .colls, .barriers, .parting, .bu, .parts, .sets, .knots, .ports, .fields, .watch, .dbgUnit, .host, .power, .loans,
      .sched, .xing, .plays, .exchanges, .freeCtr, .removed, .hints, .store, .arrivals, .mem, .near] s _
  refine OnlyChanges.step ?_ (dispatchPacket_frame _ _) (by decide)
  exact OnlyChanges.refl _ _

theorem execPlanSet_frame (p : Packet) (s : State) :
    outAll (OnlyChanges [.cap, .colls, .barriers, .parting, .bu, .parts, .sets, .knots, .ports, .fields, .watch, .dbgUnit, .host, .power, .loans,
        .sched, .xing, .plays, .exchanges, .freeCtr, .removed, .hints, .store, .arrivals, .mem, .near] s) (execPlanSet p s) := by
  unfold execPlanSet
  change OnlyChanges [.cap, .colls, .barriers, .parting, .bu, .parts, .sets, .knots, .ports, .fields, .watch, .dbgUnit, .host, .power, .loans,
      .sched, .xing, .plays, .exchanges, .freeCtr, .removed, .hints, .store, .arrivals, .mem, .near] s _
  refine OnlyChanges.step ?_ (dispatchPacket_frame _ _) (by decide)
  exact OnlyChanges.refl _ _

theorem execRouteSet_frame (p : Packet) (s : State) :
    outAll (OnlyChanges [.cap, .colls, .barriers, .parting, .bu, .parts, .sets, .knots, .ports, .fields, .watch, .dbgUnit, .host, .power, .loans,
        .sched, .xing, .plays, .exchanges, .freeCtr, .removed, .hints, .store, .arrivals, .mem, .near] s) (execRouteSet p s) := by
  unfold execRouteSet
  change OnlyChanges [.cap, .colls, .barriers, .parting, .bu, .parts, .sets, .knots, .ports, .fields, .watch, .dbgUnit, .host, .power, .loans,
      .sched, .xing, .plays, .exchanges, .freeCtr, .removed, .hints, .store, .arrivals, .mem, .near] s _
  refine OnlyChanges.step ?_ (dispatchPacket_frame _ _) (by decide)
  exact OnlyChanges.refl _ _

theorem execCollSet_frame (p : Packet) (s : State) :
    outAll (OnlyChanges [.cap, .colls, .barriers, .parting, .bu, .parts, .sets, .knots, .ports, .fields, .watch, .dbgUnit, .host, .power, .loans,
        .sched, .xing, .plays, .exchanges, .freeCtr, .removed, .hints, .store, .arrivals, .mem, .near] s) (execCollSet p s) := by
  unfold execCollSet
  change OnlyChanges [.cap, .colls, .barriers, .parting, .bu, .parts, .sets, .knots, .ports, .fields, .watch, .dbgUnit, .host, .power, .loans,
      .sched, .xing, .plays, .exchanges, .freeCtr, .removed, .hints, .store, .arrivals, .mem, .near] s _
  refine OnlyChanges.step ?_ (dispatchPacket_frame _ _) (by decide)
  exact OnlyChanges.refl _ _

theorem execCollFire_frame (p : Packet) (s : State) :
    outAll (OnlyChanges [.cap, .colls, .barriers, .parting, .bu, .parts, .sets, .knots, .ports, .fields, .watch, .dbgUnit, .host, .power, .loans,
        .sched, .xing, .plays, .exchanges, .freeCtr, .removed, .hints, .store, .arrivals, .mem, .near] s) (execCollFire p s) := by
  unfold execCollFire
  change OnlyChanges [.cap, .colls, .barriers, .parting, .bu, .parts, .sets, .knots, .ports, .fields, .watch, .dbgUnit, .host, .power, .loans,
      .sched, .xing, .plays, .exchanges, .freeCtr, .removed, .hints, .store, .arrivals, .mem, .near] s _
  refine OnlyChanges.step ?_ (dispatchPacket_frame _ _) (by decide)
  exact OnlyChanges.refl _ _

theorem execBarrier_frame (p : Packet) (s : State) :
    outAll (OnlyChanges [.cap, .colls, .barriers, .parting, .bu, .parts, .sets, .knots, .ports, .fields, .watch, .dbgUnit, .host, .power, .loans,
        .sched, .xing, .plays, .exchanges, .freeCtr, .removed, .hints, .store, .arrivals, .mem, .near] s) (execBarrier p s) := by
  unfold execBarrier
  change OnlyChanges [.cap, .colls, .barriers, .parting, .bu, .parts, .sets, .knots, .ports, .fields, .watch, .dbgUnit, .host, .power, .loans,
      .sched, .xing, .plays, .exchanges, .freeCtr, .removed, .hints, .store, .arrivals, .mem, .near] s _
  refine OnlyChanges.step ?_ (dispatchPacket_frame _ _) (by decide)
  exact OnlyChanges.refl _ _

theorem execPortCtrl_frame (p : Packet) (s : State) :
    outAll (OnlyChanges [.cap, .colls, .barriers, .parting, .bu, .parts, .sets, .knots, .ports, .fields, .watch, .dbgUnit, .host, .power, .loans,
        .sched, .xing, .plays, .exchanges, .freeCtr, .removed, .hints, .store, .arrivals, .mem, .near] s) (execPortCtrl p s) := by
  unfold execPortCtrl
  change OnlyChanges [.cap, .colls, .barriers, .parting, .bu, .parts, .sets, .knots, .ports, .fields, .watch, .dbgUnit, .host, .power, .loans,
      .sched, .xing, .plays, .exchanges, .freeCtr, .removed, .hints, .store, .arrivals, .mem, .near] s _
  refine OnlyChanges.step ?_ (dispatchPacket_frame _ _) (by decide)
  exact OnlyChanges.refl _ _

theorem execXmapSet_frame (p : Packet) (s : State) :
    outAll (OnlyChanges [.cap, .colls, .barriers, .parting, .bu, .parts, .sets, .knots, .ports, .fields, .watch, .dbgUnit, .host, .power, .loans,
        .sched, .xing, .plays, .exchanges, .freeCtr, .removed, .hints, .store, .arrivals, .mem, .near] s) (execXmapSet p s) := by
  unfold execXmapSet
  change OnlyChanges [.cap, .colls, .barriers, .parting, .bu, .parts, .sets, .knots, .ports, .fields, .watch, .dbgUnit, .host, .power, .loans,
      .sched, .xing, .plays, .exchanges, .freeCtr, .removed, .hints, .store, .arrivals, .mem, .near] s _
  refine OnlyChanges.step ?_ (dispatchPacket_frame _ _) (by decide)
  exact OnlyChanges.refl _ _

theorem execXchSet_frame (p : Packet) (s : State) :
    outAll (OnlyChanges [.cap, .colls, .barriers, .parting, .bu, .parts, .sets, .knots, .ports, .fields, .watch, .dbgUnit, .host, .power, .loans,
        .sched, .xing, .plays, .exchanges, .freeCtr, .removed, .hints, .store, .arrivals, .mem, .near] s) (execXchSet p s) := by
  unfold execXchSet
  change OnlyChanges [.cap, .colls, .barriers, .parting, .bu, .parts, .sets, .knots, .ports, .fields, .watch, .dbgUnit, .host, .power, .loans,
      .sched, .xing, .plays, .exchanges, .freeCtr, .removed, .hints, .store, .arrivals, .mem, .near] s _
  refine OnlyChanges.step ?_ (dispatchPacket_frame _ _) (by decide)
  exact OnlyChanges.refl _ _

theorem execXchGet_frame (p : Packet) (s : State) :
    outAll (OnlyChanges [.cap, .colls, .barriers, .parting, .bu, .parts, .sets, .knots, .ports, .fields, .watch, .dbgUnit, .host, .power, .loans,
        .sched, .xing, .plays, .exchanges, .freeCtr, .removed, .hints, .store, .arrivals, .mem, .near] s) (execXchGet p s) := by
  unfold execXchGet
  change OnlyChanges [.cap, .colls, .barriers, .parting, .bu, .parts, .sets, .knots, .ports, .fields, .watch, .dbgUnit, .host, .power, .loans,
      .sched, .xing, .plays, .exchanges, .freeCtr, .removed, .hints, .store, .arrivals, .mem, .near] s _
  refine OnlyChanges.step ?_ (dispatchPacket_frame _ _) (by decide)
  exact OnlyChanges.refl _ _

theorem execPrefSet_frame (p : Packet) (s : State) :
    outAll (OnlyChanges [.cap, .colls, .barriers, .parting, .bu, .parts, .sets, .knots, .ports, .fields, .watch, .dbgUnit, .host, .power, .loans,
        .sched, .xing, .plays, .exchanges, .freeCtr, .removed, .hints, .store, .arrivals, .mem, .near] s) (execPrefSet p s) := by
  unfold execPrefSet
  change OnlyChanges [.cap, .colls, .barriers, .parting, .bu, .parts, .sets, .knots, .ports, .fields, .watch, .dbgUnit, .host, .power, .loans,
      .sched, .xing, .plays, .exchanges, .freeCtr, .removed, .hints, .store, .arrivals, .mem, .near] s _
  refine OnlyChanges.step ?_ (dispatchPacket_frame _ _) (by decide)
  exact OnlyChanges.refl _ _

theorem execTelemSnap_frame (p : Packet) (s : State) :
    outAll (OnlyChanges [.cap, .colls, .barriers, .parting, .bu, .parts, .sets, .knots, .ports, .fields, .watch, .dbgUnit, .host, .power, .loans,
        .sched, .xing, .plays, .exchanges, .freeCtr, .removed, .hints, .store, .arrivals, .mem, .near] s) (execTelemSnap p s) := by
  unfold execTelemSnap
  change OnlyChanges [.cap, .colls, .barriers, .parting, .bu, .parts, .sets, .knots, .ports, .fields, .watch, .dbgUnit, .host, .power, .loans,
      .sched, .xing, .plays, .exchanges, .freeCtr, .removed, .hints, .store, .arrivals, .mem, .near] s _
  refine OnlyChanges.step ?_ (dispatchPacket_frame _ _) (by decide)
  exact OnlyChanges.refl _ _

theorem execWatchSet_frame (p : Packet) (s : State) :
    outAll (OnlyChanges [.cap, .colls, .barriers, .parting, .bu, .parts, .sets, .knots, .ports, .fields, .watch, .dbgUnit, .host, .power, .loans,
        .sched, .xing, .plays, .exchanges, .freeCtr, .removed, .hints, .store, .arrivals, .mem, .near] s) (execWatchSet p s) := by
  unfold execWatchSet
  change OnlyChanges [.cap, .colls, .barriers, .parting, .bu, .parts, .sets, .knots, .ports, .fields, .watch, .dbgUnit, .host, .power, .loans,
      .sched, .xing, .plays, .exchanges, .freeCtr, .removed, .hints, .store, .arrivals, .mem, .near] s _
  refine OnlyChanges.step ?_ (dispatchPacket_frame _ _) (by decide)
  exact OnlyChanges.refl _ _

theorem execWatchGet_frame (p : Packet) (s : State) :
    outAll (OnlyChanges [.cap, .colls, .barriers, .parting, .bu, .parts, .sets, .knots, .ports, .fields, .watch, .dbgUnit, .host, .power, .loans,
        .sched, .xing, .plays, .exchanges, .freeCtr, .removed, .hints, .store, .arrivals, .mem, .near] s) (execWatchGet p s) := by
  unfold execWatchGet
  change OnlyChanges [.cap, .colls, .barriers, .parting, .bu, .parts, .sets, .knots, .ports, .fields, .watch, .dbgUnit, .host, .power, .loans,
      .sched, .xing, .plays, .exchanges, .freeCtr, .removed, .hints, .store, .arrivals, .mem, .near] s _
  refine OnlyChanges.step ?_ (dispatchPacket_frame _ _) (by decide)
  exact OnlyChanges.refl _ _

theorem execVecEval_frame (p : Packet) (s : State) :
    outAll (OnlyChanges [.cap, .colls, .barriers, .parting, .bu, .parts, .sets, .knots, .ports, .fields, .watch, .dbgUnit, .host, .power, .loans,
        .sched, .xing, .plays, .exchanges, .freeCtr, .removed, .hints, .store, .arrivals, .mem, .near] s) (execVecEval p s) := by
  unfold execVecEval
  change OnlyChanges [.cap, .colls, .barriers, .parting, .bu, .parts, .sets, .knots, .ports, .fields, .watch, .dbgUnit, .host, .power, .loans,
      .sched, .xing, .plays, .exchanges, .freeCtr, .removed, .hints, .store, .arrivals, .mem, .near] s _
  refine OnlyChanges.step ?_ (dispatchPacket_frame _ _) (by decide)
  exact OnlyChanges.refl _ _

theorem execFaultGet_frame (p : Packet) (s : State) :
    outAll (OnlyChanges [.cap, .colls, .barriers, .parting, .bu, .parts, .sets, .knots, .ports, .fields, .watch, .dbgUnit, .host, .power, .loans,
        .sched, .xing, .plays, .exchanges, .freeCtr, .removed, .hints, .store, .arrivals, .mem, .near] s) (execFaultGet p s) := by
  unfold execFaultGet
  change OnlyChanges [.cap, .colls, .barriers, .parting, .bu, .parts, .sets, .knots, .ports, .fields, .watch, .dbgUnit, .host, .power, .loans,
      .sched, .xing, .plays, .exchanges, .freeCtr, .removed, .hints, .store, .arrivals, .mem, .near] s _
  refine OnlyChanges.step ?_ (dispatchPacket_frame _ _) (by decide)
  exact OnlyChanges.refl _ _

theorem execKeyRevoke_frame (p : Packet) (s : State) :
    outAll (OnlyChanges [.cap, .colls, .barriers, .parting, .bu, .parts, .sets, .knots, .ports, .fields, .watch, .dbgUnit, .host, .power, .loans,
        .sched, .xing, .plays, .exchanges, .freeCtr, .removed, .hints, .store, .arrivals, .mem, .near] s) (execKeyRevoke p s) := by
  unfold execKeyRevoke
  change OnlyChanges [.cap, .colls, .barriers, .parting, .bu, .parts, .sets, .knots, .ports, .fields, .watch, .dbgUnit, .host, .power, .loans,
      .sched, .xing, .plays, .exchanges, .freeCtr, .removed, .hints, .store, .arrivals, .mem, .near] s _
  refine OnlyChanges.step ?_ (dispatchPacket_frame _ _) (by decide)
  exact OnlyChanges.refl _ _

theorem execRollbackSet_frame (p : Packet) (s : State) :
    outAll (OnlyChanges [.cap, .colls, .barriers, .parting, .bu, .parts, .sets, .knots, .ports, .fields, .watch, .dbgUnit, .host, .power, .loans,
        .sched, .xing, .plays, .exchanges, .freeCtr, .removed, .hints, .store, .arrivals, .mem, .near] s) (execRollbackSet p s) := by
  unfold execRollbackSet
  change OnlyChanges [.cap, .colls, .barriers, .parting, .bu, .parts, .sets, .knots, .ports, .fields, .watch, .dbgUnit, .host, .power, .loans,
      .sched, .xing, .plays, .exchanges, .freeCtr, .removed, .hints, .store, .arrivals, .mem, .near] s _
  refine OnlyChanges.step ?_ (dispatchPacket_frame _ _) (by decide)
  exact OnlyChanges.refl _ _

theorem execDebugLock_frame (p : Packet) (s : State) :
    outAll (OnlyChanges [.cap, .colls, .barriers, .parting, .bu, .parts, .sets, .knots, .ports, .fields, .watch, .dbgUnit, .host, .power, .loans,
        .sched, .xing, .plays, .exchanges, .freeCtr, .removed, .hints, .store, .arrivals, .mem, .near] s) (execDebugLock p s) := by
  unfold execDebugLock
  change OnlyChanges [.cap, .colls, .barriers, .parting, .bu, .parts, .sets, .knots, .ports, .fields, .watch, .dbgUnit, .host, .power, .loans,
      .sched, .xing, .plays, .exchanges, .freeCtr, .removed, .hints, .store, .arrivals, .mem, .near] s _
  refine OnlyChanges.step ?_ (dispatchPacket_frame _ _) (by decide)
  exact OnlyChanges.refl _ _

theorem dropDoorbell_frame (d : Doorbell) (s : State) :
    OnlyChanges [.host] s (dropDoorbell d s) := by
  unfold dropDoorbell
  refine only_host ?_ _ (by decide)
  exact OnlyChanges.refl _ _

theorem fetchCommand_frame (d : Doorbell) (l : List Byte) (s : State) :
    OnlyChanges [.cap, .colls, .barriers, .parting, .bu, .parts, .sets, .knots, .ports, .fields, .watch, .dbgUnit, .host, .power, .loans, .sched,
        .xing, .plays, .exchanges, .freeCtr, .removed, .hints, .store, .arrivals, .rel, .mem, .near] s (fetchCommand d l s) := by
  unfold fetchCommand
  extract_lets x0 x1 x2 x3 x4
  have h5 : OnlyChanges [.cap, .colls, .barriers, .parting, .bu, .parts, .sets, .knots, .ports, .fields, .watch, .dbgUnit, .host, .power, .loans,
      .sched, .xing, .plays, .exchanges, .freeCtr, .removed, .hints, .store, .arrivals, .rel, .mem, .near] s x4 := by
    unfold x4
    refine OnlyChanges.step ?_ (setHostQueue_frame _ _ _) (by decide)
    exact OnlyChanges.refl _ _
  clear_value x0 x1 x2 x3 x4
  refine OnlyChanges.ite ?_ ?_
  · refine OnlyChanges.step ?_ (dropDoorbell_frame _ _) (by decide)
    exact OnlyChanges.refl _ _
  · refine OnlyChanges.step ?_ (dispatchPacket_frame _ _) (by decide)
    refine OnlyChanges.step ?_ (journalRecord_frame _) (by decide)
    refine OnlyChanges.ite ?_ ?_
    · refine OnlyChanges.step ?_ (dropDoorbell_frame _ _) (by decide)
      assumption
    · assumption

theorem execCommandFetch_frame (n : Nat) (data : Option (List Byte)) (s : State) :
    outAll (OnlyChanges [.cap, .colls, .barriers, .parting, .bu, .parts, .sets, .knots, .ports, .fields, .watch, .dbgUnit, .host, .power, .loans,
        .sched, .xing, .plays, .exchanges, .freeCtr, .removed, .hints, .store, .arrivals, .rel, .mem, .near] s) (execCommandFetch n data s) := by
  unfold execCommandFetch
  split
  · rename_i v0
    change OnlyChanges [.cap, .colls, .barriers, .parting, .bu, .parts, .sets, .knots, .ports, .fields, .watch, .dbgUnit, .host, .power, .loans,
        .sched, .xing, .plays, .exchanges, .freeCtr, .removed, .hints, .store, .arrivals, .rel, .mem, .near] s _
    exact OnlyChanges.refl _ _
  · rename_i v1
    split
    · rename_i v2 v3
      change OnlyChanges [.cap, .colls, .barriers, .parting, .bu, .parts, .sets, .knots, .ports, .fields, .watch, .dbgUnit, .host, .power, .loans,
          .sched, .xing, .plays, .exchanges, .freeCtr, .removed, .hints, .store, .arrivals, .rel, .mem, .near] s _
      exact OnlyChanges.refl _ _
    · rename_i v4 v5 v6
      split
      · rename_i v7
        change OnlyChanges [.cap, .colls, .barriers, .parting, .bu, .parts, .sets, .knots, .ports, .fields, .watch, .dbgUnit, .host, .power, .loans,
            .sched, .xing, .plays, .exchanges, .freeCtr, .removed, .hints, .store, .arrivals, .rel, .mem, .near] s _
        exact OnlyChanges.refl _ _
      · rename_i v8
        split
        · rename_i v9 v10
          change OnlyChanges [.cap, .colls, .barriers, .parting, .bu, .parts, .sets, .knots, .ports, .fields, .watch, .dbgUnit, .host, .power,
              .loans, .sched, .xing, .plays, .exchanges, .freeCtr, .removed, .hints, .store, .arrivals, .rel, .mem, .near] s _
          refine OnlyChanges.step ?_ (setHostQueue_frame _ _ _) (by decide)
          exact OnlyChanges.refl _ _
        · rename_i v11 v12 v13
          change OnlyChanges [.cap, .colls, .barriers, .parting, .bu, .parts, .sets, .knots, .ports, .fields, .watch, .dbgUnit, .host, .power,
              .loans, .sched, .xing, .plays, .exchanges, .freeCtr, .removed, .hints, .store, .arrivals, .rel, .mem, .near] s _
          refine OnlyChanges.step ?_ (fetchCommand_frame _ _ _) (by decide)
          exact OnlyChanges.refl _ _

theorem putReply_frame (n : Nat) (r : Reply) (t : Transit) (s : State) :
    OnlyChanges [.host, .xing, .store] s (putReply n r t s) := by
  unfold putReply
  extract_lets x0 x1 x2 x3
  have h4 : OnlyChanges [.host, .xing, .store] s x1 := by
    unfold x1
    refine OnlyChanges.step ?_ (hostWrite_frame _ _ _ _) (by decide)
    exact OnlyChanges.refl _ _
  have h5 : OnlyChanges [.host, .xing, .store] s x3 := by
    unfold x3
    refine OnlyChanges.step ?_ (setHostQueue_frame _ _ _) (by decide)
    assumption
  clear_value x0 x1 x2 x3
  refine OnlyChanges.ite ?_ ?_
  · assumption
  · split
    · rename_i v6 v7 v8
      refine OnlyChanges.step ?_ (xingRecordFor_frame _ _ _ _ _ _ _) (by decide)
      assumption
    · rename_i v9 v10
      refine OnlyChanges.step ?_ (sendMsi_frame _ _ _) (by decide)
      assumption

theorem dropReply_frame (n : Nat) (r : Reply) (s : State) :
    OnlyChanges [.host, .xing, .store] s (dropReply n r s) := by
  unfold dropReply
  extract_lets x0
  clear_value x0
  refine OnlyChanges.step ?_ (postFull_frame _ _ _ _ _ _ _) (by decide)
  refine OnlyChanges.step ?_ (setHostQueue_frame _ _ _) (by decide)
  exact OnlyChanges.refl _ _

theorem execReplyWrite_frame (n : Nat) (t : Transit) (s : State) :
    outAll (OnlyChanges [.host, .xing, .store, .rel] s) (execReplyWrite n t s) := by
  unfold execReplyWrite
  split
  · rename_i v0
    change OnlyChanges [.host, .xing, .store, .rel] s _
    exact OnlyChanges.refl _ _
  · rename_i v1
    split
    · rename_i v2 v3
      change OnlyChanges [.host, .xing, .store, .rel] s _
      exact OnlyChanges.refl _ _
    · rename_i v4 v5 v6
      extract_lets x7 x8
      have h9 : OnlyChanges [.host, .xing, .store, .rel] s x8 := by
        unfold x8
        refine only_host ?_ _ (by decide)
        exact OnlyChanges.refl _ _
      clear_value x7 x8
      change OnlyChanges [.host, .xing, .store, .rel] s _
      refine OnlyChanges.ite ?_ ?_
      · refine OnlyChanges.step ?_ (putReply_frame _ _ _ _) (by decide)
        refine OnlyChanges.step ?_ (journalRecord_frame _) (by decide)
        assumption
      · refine OnlyChanges.step ?_ (dropReply_frame _ _ _) (by decide)
        assumption

theorem runEvent_frame (x : DueKey × Due) (s : State) :
    OnlyChanges [.cap, .colls, .caches, .barriers, .parting, .bu, .parts, .sets, .knots, .ports, .fields, .watch, .dbgUnit, .host, .loans, .sched,
        .xing, .ramp, .plays, .mesh, .exchanges, .freeCtr, .removed, .hints, .store, .arrivals, .rel, .mem, .near] s (runEvent x s) := by
  unfold runEvent
  split
  · rename_i v0 v1 v2
    extract_lets x3
    have h4 : OnlyChanges [.cap, .colls, .caches, .barriers, .parting, .bu, .parts, .sets, .knots, .ports, .fields, .watch, .dbgUnit, .host, .loans,
        .sched, .xing, .ramp, .plays, .mesh, .exchanges, .freeCtr, .removed, .hints, .store, .arrivals, .rel, .mem, .near] s x3 := by
      unfold x3
      refine only_sched ?_ _ (by decide)
      exact OnlyChanges.refl _ _
    clear_value x3
    split
    · rename_i v5 v6
      refine OnlyChanges.step ?_ (opCollFire_frame _ _) (by decide)
      assumption
    · rename_i v7 v8
      refine OnlyChanges.step ?_ (opXchSet_frame _ _) (by decide)
      assumption
    · rename_i v9 v10
      refine OnlyChanges.step ?_ (opTelemSnap_frame _ _ _) (by decide)
      assumption
    · rename_i v11 v12 v13 v14
      refine OnlyChanges.step ?_ (runOp_frame _ _ _) (by decide)
      assumption
  · rename_i v15 v16 v17
    refine OnlyChanges.step ?_ (setPlay_frame _ _) (by decide)
    exact OnlyChanges.refl _ _
  · rename_i v18 v19
    refine OnlyChanges.step ?_ (commitPoint_frame _) (by decide)
    exact OnlyChanges.refl _ _
  · rename_i v20 v21 v22
    refine OnlyChanges.step ?_ (releaseBarrier_frame _ _) (by decide)
    exact OnlyChanges.refl _ _

theorem execScheduledEvent_frame (s : State) :
    outAll (OnlyChanges [.cap, .colls, .caches, .barriers, .parting, .bu, .parts, .sets, .knots, .ports, .fields, .watch, .dbgUnit, .host, .loans,
        .sched, .xing, .ramp, .plays, .mesh, .exchanges, .freeCtr, .removed, .hints, .store, .cad, .arrivals, .rel, .mem, .near] s)
        (execScheduledEvent s) := by
  unfold execScheduledEvent
  split
  · rename_i v0
    change OnlyChanges [.cap, .colls, .caches, .barriers, .parting, .bu, .parts, .sets, .knots, .ports, .fields, .watch, .dbgUnit, .host, .loans,
        .sched, .xing, .ramp, .plays, .mesh, .exchanges, .freeCtr, .removed, .hints, .store, .cad, .arrivals, .rel, .mem, .near] s _
    exact OnlyChanges.refl _ _
  · rename_i v1
    split
    · rename_i v2 v3 v4
      split
      · rename_i v5 v6 v7
        refine absorb (P := optAll (OnlyChanges [.cap, .colls, .caches, .barriers, .parting, .bu, .parts, .sets, .knots, .ports, .fields, .watch,
            .dbgUnit, .host, .loans, .sched, .xing, .ramp, .plays, .mesh, .exchanges, .freeCtr, .removed, .hints, .store, .cad, .arrivals, .rel,
            .mem, .near] s)) v7 ?_ (fun q8 => ?_)
        · refine OnlyChanges.stepOpt ?_ (comeTo_frame _ _ _) (by decide)
          exact OnlyChanges.refl _ _
        change OnlyChanges [.cap, .colls, .caches, .barriers, .parting, .bu, .parts, .sets, .knots, .ports, .fields, .watch, .dbgUnit, .host,
            .loans, .sched, .xing, .ramp, .plays, .mesh, .exchanges, .freeCtr, .removed, .hints, .store, .cad, .arrivals, .rel, .mem, .near] s _
        refine OnlyChanges.step ?_ (runEvent_frame _ _) (by decide)
        refine OnlyChanges.step ?_ (journalRecord_frame _) (by decide)
        assumption
      · rename_i v9 v10
        refine absorb (P := optAll (OnlyChanges [.cap, .colls, .caches, .barriers, .parting, .bu, .parts, .sets, .knots, .ports, .fields, .watch,
            .dbgUnit, .host, .loans, .sched, .xing, .ramp, .plays, .mesh, .exchanges, .freeCtr, .removed, .hints, .store, .cad, .arrivals, .rel,
            .mem, .near] s)) v10 ?_ (fun q11 => ?_)
        · refine OnlyChanges.stepOpt ?_ (comeTo_frame _ _ _) (by decide)
          exact OnlyChanges.refl _ _
        change OnlyChanges [.cap, .colls, .caches, .barriers, .parting, .bu, .parts, .sets, .knots, .ports, .fields, .watch, .dbgUnit, .host,
            .loans, .sched, .xing, .ramp, .plays, .mesh, .exchanges, .freeCtr, .removed, .hints, .store, .cad, .arrivals, .rel, .mem, .near] s _
        exact OnlyChanges.refl _ _
    · rename_i v12 v13
      change OnlyChanges [.cap, .colls, .caches, .barriers, .parting, .bu, .parts, .sets, .knots, .ports, .fields, .watch, .dbgUnit, .host, .loans,
          .sched, .xing, .ramp, .plays, .mesh, .exchanges, .freeCtr, .removed, .hints, .store, .cad, .arrivals, .rel, .mem, .near] s _
      exact OnlyChanges.refl _ _

theorem aperFault_frame (port : Nat) (s : State) :
    OnlyChanges [.host, .xing, .store] s (aperFault port s) := by
  unfold aperFault
  extract_lets x0 x1
  clear_value x0 x1
  refine OnlyChanges.ite ?_ ?_
  · exact OnlyChanges.refl _ _
  · refine OnlyChanges.step ?_ (postFull_frame _ _ _ _ _ _ _) (by decide)
    refine OnlyChanges.step ?_ (setPcie_frame _ _ _) (by decide)
    exact OnlyChanges.refl _ _

theorem aperEarlyEvent_frame (port : Nat) (s : State) :
    OnlyChanges [.host, .xing, .store] s (aperEarlyEvent port s) := by
  unfold aperEarlyEvent
  refine OnlyChanges.step ?_ (postFull_frame _ _ _ _ _ _ _) (by decide)
  exact OnlyChanges.refl _ _

theorem accessMeets_frame (port : Nat) (a : Nat) (n : Nat) (f : MoveFault) (s : State) :
    OnlyChanges [.cap, .knots, .host, .xing, .freeCtr, .store, .rel, .mem, .near] s (accessMeets port a n f s) := by
  unfold accessMeets
  refine OnlyChanges.ite ?_ ?_
  · exact OnlyChanges.refl _ _
  · split
    · rename_i v0 v1 v2
      refine OnlyChanges.step ?_ (xingRecordFor_frame _ _ _ _ _ _ _) (by decide)
      exact OnlyChanges.refl _ _
    · rename_i v3 v4 v5
      show sndAll (OnlyChanges [.cap, .knots, .host, .xing, .freeCtr, .store, .rel, .mem, .near] s) _
      refine OnlyChanges.stepSnd ?_ (parityMeets_frame _ _ _ _ _ _) (by decide)
      exact OnlyChanges.refl _ _
    · rename_i v6 v7 v8 v9
      refine OnlyChanges.step ?_ (rimAt_frame _ _ _ _) (by decide)
      exact OnlyChanges.refl _ _
    · rename_i v10 v11 v12 v13
      exact OnlyChanges.refl _ _

theorem execApertureRead_frame (port : Nat) (off : Nat) (n : Nat) (f : MoveFault) (s : State) :
    outAll (OnlyChanges [.cap, .knots, .host, .xing, .freeCtr, .store, .rel, .mem, .near] s) (execApertureRead port off n f s) := by
  unfold execApertureRead
  extract_lets x0 x1 x2
  clear_value x0 x1 x2
  split
  · rename_i v3
    change OnlyChanges [.cap, .knots, .host, .xing, .freeCtr, .store, .rel, .mem, .near] s _
    refine OnlyChanges.step ?_ (returnRead_frame _ _ _) (by decide)
    refine OnlyChanges.step ?_ (aperEarlyEvent_frame _ _) (by decide)
    exact OnlyChanges.refl _ _
  · rename_i v4
    split
    · rename_i v5
      change OnlyChanges [.cap, .knots, .host, .xing, .freeCtr, .store, .rel, .mem, .near] s _
      refine OnlyChanges.step ?_ (returnRead_frame _ _ _) (by decide)
      refine OnlyChanges.step ?_ (aperFault_frame _ _) (by decide)
      exact OnlyChanges.refl _ _
    · rename_i v6
      split
      · rename_i v7
        change OnlyChanges [.cap, .knots, .host, .xing, .freeCtr, .store, .rel, .mem, .near] s _
        refine OnlyChanges.step ?_ (returnRead_frame _ _ _) (by decide)
        exact OnlyChanges.refl _ _
      · rename_i v8
        split
        · rename_i v9
          change OnlyChanges [.cap, .knots, .host, .xing, .freeCtr, .store, .rel, .mem, .near] s _
          exact OnlyChanges.refl _ _
        · rename_i v10
          split
          · rename_i v11
            change OnlyChanges [.cap, .knots, .host, .xing, .freeCtr, .store, .rel, .mem, .near] s _
            refine OnlyChanges.step ?_ (returnRead_frame _ _ _) (by decide)
            refine OnlyChanges.step ?_ (postFull_frame _ _ _ _ _ _ _) (by decide)
            exact OnlyChanges.refl _ _
          · rename_i v12
            split
            · rename_i v13
              change OnlyChanges [.cap, .knots, .host, .xing, .freeCtr, .store, .rel, .mem, .near] s _
              refine OnlyChanges.step ?_ (returnRead_frame _ _ _) (by decide)
              refine OnlyChanges.step ?_ (granuleFault_frame _ _ _ _ _) (by decide)
              exact OnlyChanges.refl _ _
            · rename_i v14
              change OnlyChanges [.cap, .knots, .host, .xing, .freeCtr, .store, .rel, .mem, .near] s _
              refine OnlyChanges.step ?_ (returnRead_frame _ _ _) (by decide)
              refine OnlyChanges.step ?_ (accessMeets_frame _ _ _ _ _) (by decide)
              exact OnlyChanges.refl _ _

theorem execApertureWrite_frame (port : Nat) (off : Nat) (data : List Byte) (f : MoveFault) (s : State) :
    outAll (OnlyChanges [.cap, .knots, .host, .xing, .plays, .freeCtr, .store, .rel, .mem, .near] s) (execApertureWrite port off data f s) := by
  unfold execApertureWrite
  extract_lets x0 x1 x2
  have h3 : OnlyChanges [.cap, .knots, .host, .xing, .plays, .freeCtr, .store, .rel, .mem, .near] s x1 := by
    unfold x1
    refine OnlyChanges.step ?_ (accessMeets_frame _ _ _ _ _) (by decide)
    exact OnlyChanges.refl _ _
  clear_value x0 x1 x2
  split
  · rename_i v4
    change OnlyChanges [.cap, .knots, .host, .xing, .plays, .freeCtr, .store, .rel, .mem, .near] s _
    refine OnlyChanges.step ?_ (aperEarlyEvent_frame _ _) (by decide)
    exact OnlyChanges.refl _ _
  · rename_i v5
    split
    · rename_i v6
      change OnlyChanges [.cap, .knots, .host, .xing, .plays, .freeCtr, .store, .rel, .mem, .near] s _
      refine OnlyChanges.step ?_ (aperFault_frame _ _) (by decide)
      exact OnlyChanges.refl _ _
    · rename_i v7
      split
      · rename_i v8
        change OnlyChanges [.cap, .knots, .host, .xing, .plays, .freeCtr, .store, .rel, .mem, .near] s _
        exact OnlyChanges.refl _ _
      · rename_i v9
        split
        · rename_i v10
          change OnlyChanges [.cap, .knots, .host, .xing, .plays, .freeCtr, .store, .rel, .mem, .near] s _
          refine only_host ?_ _ (by decide)
          assumption
        · rename_i v11
          split
          · rename_i v12
            change OnlyChanges [.cap, .knots, .host, .xing, .plays, .freeCtr, .store, .rel, .mem, .near] s _
            refine OnlyChanges.step ?_ (noteAll_frame _) (by decide)
            refine OnlyChanges.step ?_ (nearWriteFor_frame _ _ _ _ _) (by decide)
            assumption
          · rename_i v13
            change OnlyChanges [.cap, .knots, .host, .xing, .plays, .freeCtr, .store, .rel, .mem, .near] s _
            refine OnlyChanges.step ?_ (noteAll_frame _) (by decide)
            refine OnlyChanges.step ?_ (writeBytes_frame _ _ _) (by decide)
            assumption

theorem runAllDue_frame (a : Nat) (a' : State) :
    OnlyChanges [.cap, .colls, .caches, .barriers, .parting, .bu, .parts, .sets, .knots, .ports, .fields, .watch, .dbgUnit, .host, .loans, .sched,
        .xing, .ramp, .plays, .mesh, .exchanges, .freeCtr, .removed, .hints, .store, .arrivals, .rel, .mem, .near] a' (runAllDue a a') := by
  induction a generalizing a'
  · unfold runAllDue
    exact OnlyChanges.refl _ _
  · rename_i w0 ih
    unfold runAllDue
    split
    · rename_i v1 v2 v3
      refine OnlyChanges.ite ?_ ?_
      · refine OnlyChanges.step ?_ (ih _) (by decide)
        refine OnlyChanges.step ?_ (runEvent_frame _ _) (by decide)
        exact OnlyChanges.refl _ _
      · exact OnlyChanges.refl _ _
    · rename_i v4 v5
      exact OnlyChanges.refl _ _

theorem gapAbort_frame (s : State) :
    OnlyChanges [.cap, .colls, .caches, .barriers, .parts, .knots, .ports, .fields, .watch, .host, .sched, .xing, .ramp, .plays, .mesh, .exchanges,
        .freeCtr, .store, .arrivals, .rel, .mem, .near] s (gapAbort s) := by
  unfold gapAbort
  split
  · rename_i v0 v1 v2
    refine OnlyChanges.ite ?_ ?_
    · refine OnlyChanges.step ?_ (abortAtCp_frame _ _) (by decide)
      exact OnlyChanges.refl _ _
    · exact OnlyChanges.refl _ _
  · rename_i v3 v4
    exact OnlyChanges.refl _ _

theorem rerunStage_frame (s : State) :
    OnlyChanges [.bu, .ports] s (rerunStage s) := by
  unfold rerunStage
  refine OnlyChanges.ite ?_ ?_
  · exact OnlyChanges.refl _ _
  · refine OnlyChanges.ite ?_ ?_
    · refine OnlyChanges.step ?_ (setBu_frame _ _) (by decide)
      refine only_ports ?_ _ (by decide)
      exact OnlyChanges.refl _ _
    · refine OnlyChanges.step ?_ (setBu_frame _ _) (by decide)
      exact OnlyChanges.refl _ _

theorem applyHeld_frame (s : State) :
    OnlyChanges [.cap, .lqWindow, .caches, .bu, .parts, .knots, .ports, .fields, .watch, .dbgUnit, .host, .power, .xing, .ramp, .plays, .mesh,
        .exchanges, .freeCtr, .store, .cad, .rel, .mem, .near, .regions] s (applyHeld s) := by
  unfold applyHeld
  refine OnlyChanges.fold ?_ (fun u0 y1 h2 => ?_)
  · refine only_host ?_ _ (by decide)
    exact OnlyChanges.refl _ _
  · refine OnlyChanges.step ?_ (hostRegWrite_frame _ _ _ _ _) (by decide)
    assumption

theorem takeOver_frame (s : State) : OnlyChanges [.cap, .colls, .lqWindow, .caches, .barriers, .parting, .bu, .parts, .sets, .knots, .ports,
    .fields, .watch, .dbgUnit, .host, .power, .loans, .sched, .xing, .ramp, .plays, .mesh, .exchanges, .freeCtr, .removed, .hints, .store, .cad,
    .arrivals, .rel, .mem, .near, .regions] s (takeOver s) := by
  have key (n : Nat) (u : State) (h : OnlyChanges [.cap, .colls, .lqWindow, .caches, .barriers, .parting, .bu, .parts, .sets, .knots, .ports,
      .fields, .watch, .dbgUnit, .host, .power, .loans, .sched, .xing, .ramp, .plays, .mesh, .exchanges, .freeCtr, .removed, .hints, .store, .cad,
      .arrivals, .rel, .mem, .near, .regions] s u) : OnlyChanges [.cap, .colls, .lqWindow, .caches, .barriers, .parting, .bu, .parts, .sets, .knots,
      .ports, .fields, .watch, .dbgUnit, .host, .power, .loans, .sched, .xing, .ramp, .plays, .mesh, .exchanges, .freeCtr, .removed, .hints, .store,
      .cad, .arrivals, .rel, .mem, .near, .regions] s (rerunStage (applyHeld (record 11 9 0 3 (unitOf 8 (b2n s.rel.southActive))
      0xFFFFFFFF 0 0 [] (runAllDue n (gapAbort u))))) :=
    OnlyChanges.step (OnlyChanges.step (OnlyChanges.step (OnlyChanges.step (OnlyChanges.step h (gapAbort_frame _) (by decide))
      (runAllDue_frame n _) (by decide)) (record_frame _ _ _ _ _ _ _ _ _ _) (by decide)) (applyHeld_frame _) (by decide)) (rerunStage_frame _) (by
          decide)
  unfold takeOver
  exact key 16384 _ (only_cad_rel (OnlyChanges.refl _ s) _ _ (by decide))

theorem execCcTakeover_frame (s : State) :
    outAll (OnlyChanges [.cap, .colls, .lqWindow, .caches, .barriers, .parting, .bu, .parts, .sets, .knots, .ports, .fields, .watch, .dbgUnit,
        .host, .power, .loans, .sched, .xing, .ramp, .plays, .mesh, .exchanges, .freeCtr, .removed, .hints, .store, .cad, .arrivals, .rel, .mem,
        .near, .regions] s) (execCcTakeover s) := by
  unfold execCcTakeover
  split
  · rename_i v0
    change OnlyChanges [.cap, .colls, .lqWindow, .caches, .barriers, .parting, .bu, .parts, .sets, .knots, .ports, .fields, .watch, .dbgUnit, .host,
        .power, .loans, .sched, .xing, .ramp, .plays, .mesh, .exchanges, .freeCtr, .removed, .hints, .store, .cad, .arrivals, .rel, .mem, .near,
        .regions] s _
    refine OnlyChanges.step ?_ (takeOver_frame _) (by decide)
    exact OnlyChanges.refl _ _
  · rename_i v1
    split
    · rename_i v2
      change OnlyChanges [.cap, .colls, .lqWindow, .caches, .barriers, .parting, .bu, .parts, .sets, .knots, .ports, .fields, .watch, .dbgUnit,
          .host, .power, .loans, .sched, .xing, .ramp, .plays, .mesh, .exchanges, .freeCtr, .removed, .hints, .store, .cad, .arrivals, .rel, .mem,
          .near, .regions] s _
      refine only_rel ?_ _ (by decide)
      exact OnlyChanges.refl _ _
    · rename_i v3
      change OnlyChanges [.cap, .colls, .lqWindow, .caches, .barriers, .parting, .bu, .parts, .sets, .knots, .ports, .fields, .watch, .dbgUnit,
          .host, .power, .loans, .sched, .xing, .ramp, .plays, .mesh, .exchanges, .freeCtr, .removed, .hints, .store, .cad, .arrivals, .rel, .mem,
          .near, .regions] s _
      exact OnlyChanges.refl _ _

end Sys2Proof.Machine
end

