-- ==== Sys2Proof/Laws/Memory.lean ====
section
/-! SUPPORT. Tables and module memory: reading back what was written, and that every memory operation keeps the canonical form (R494). -/

namespace Sys2Proof.Machine

/-! ### Tables -/

@[simp] theorem lookup_upsert_self {β : Type} (k : Nat) (v : β) (t : Table β) : lookup k (upsert k v t) = some v := by
  induction t with
  | nil => simp [upsert, lookup]
  | cons x r ih =>
    obtain ⟨a, b⟩ := x
    simp only [upsert]
    split
    · simp [lookup]
    · split
      · simp [lookup]
      · rename_i h
        simp [lookup, h, ih]

theorem lookup_upsert_ne {β : Type} {j k : Nat} (h : j ≠ k) (v : β) (t : Table β) : lookup j (upsert k v t) = lookup j t := by
  induction t with
  | nil => simp [upsert, lookup, h]
  | cons x r ih =>
    obtain ⟨a, b⟩ := x
    simp only [upsert]
    split
    · simp [lookup, h]
    · split
      · rename_i e
        subst e
        simp [lookup, h]
      · simp [lookup, ih]

theorem lookup_delKey_ne {β : Type} {j k : Nat} (h : j ≠ k) (t : Table β) : lookup j (delKey k t) = lookup j t := by
  induction t with
  | nil => simp [delKey]
  | cons x r ih =>
    obtain ⟨a, b⟩ := x
    simp only [delKey]
    split
    · rename_i e
      subst e
      simp [lookup, h]
    · simp [lookup, ih]

@[simp] theorem lookupD_upsert_self {β : Type} (d : β) (k : Nat) (v : β) (t : Table β) : lookupD d k (upsert k v t) = v := by
  simp [lookupD]

theorem lookupD_upsert_ne {β : Type} {j k : Nat} (h : j ≠ k) (d v : β) (t : Table β) : lookupD d j (upsert k v t) = lookupD d j t := by
  simp [lookupD, lookup_upsert_ne h]

theorem lookup_mapVals {β : Type} (f : β → β) (k : Nat) (t : Table β) : lookup k (mapVals f t) = (lookup k t).map f := by
  induction t with
  | nil => simp [mapVals, lookup]
  | cons x r ih =>
    obtain ⟨a, b⟩ := x
    simp only [mapVals, lookup] at *
    split
    · rfl
    · exact ih

/-! ### The canonical form of memory -/

/-- Every listed address is above a, and none is listed zero. -/
def above (a : Nat) (m : List Host.Cell) : Prop := ∀ c ∈ m, a < c.1

theorem memWf_cons (a : Nat) (v : Byte) (m : List Host.Cell) : memWf ((a, v) :: m) = true ↔ v ≠ 0 ∧ above a m ∧ memWf m = true := by
  induction m generalizing a v with
  | nil => simp [memWf, above]
  | cons x r ih =>
    obtain ⟨b, w⟩ := x
    simp only [memWf, Bool.and_eq_true, decide_eq_true_eq, bne_iff_ne]
    rw [ih]
    constructor
    · rintro ⟨⟨h1, h2⟩, h3, h4, h5⟩
      refine ⟨h2, fun c hc => ?_, h3, h4, h5⟩
      rcases List.mem_cons.mp hc with rfl | hc
      · exact h1
      · exact Nat.lt_trans h1 (h4 c hc)
    · rintro ⟨h1, h2, h3⟩
      exact ⟨⟨h2 (b, w) (by simp), h1⟩, h3⟩

theorem above_upsert {a k : Nat} {v : Byte} {m : List Host.Cell} (h : above a m) (hk : a < k) : above a (upsert k v m) := by
  induction m with
  | nil => intro c hc; simp only [upsert, List.mem_singleton] at hc; subst hc; exact hk
  | cons x r ih =>
    obtain ⟨b, w⟩ := x
    have hr : above a r := fun c hc => h c (List.mem_cons_of_mem _ hc)
    simp only [upsert]
    split
    · intro c hc
      rcases List.mem_cons.mp hc with rfl | hc
      · exact hk
      · exact h c hc
    · split
      · intro c hc
        rcases List.mem_cons.mp hc with rfl | hc
        · exact hk
        · exact hr c hc
      · intro c hc
        rcases List.mem_cons.mp hc with rfl | hc
        · exact h _ (by simp)
        · exact ih hr c hc

theorem memWf_upsert {k : Nat} {v : Byte} {m : List Host.Cell} (hv : v ≠ 0) (h : memWf m = true) : memWf (upsert k v m) = true := by
  induction m with
  | nil => simpa [upsert, memWf] using hv
  | cons x r ih =>
    obtain ⟨b, w⟩ := x
    have hh := (memWf_cons b w r).mp h
    simp only [upsert]
    split
    · rename_i hk
      refine (memWf_cons _ _ _).mpr ⟨hv, ?_, h⟩
      intro c hc
      rcases List.mem_cons.mp hc with rfl | hc
      · exact hk
      · exact Nat.lt_trans hk (hh.2.1 c hc)
    · split
      · rename_i e
        subst e
        exact (memWf_cons _ _ _).mpr ⟨hv, hh.2.1, hh.2.2⟩
      · rename_i h1 h2
        exact (memWf_cons _ _ _).mpr ⟨hh.1, above_upsert hh.2.1 (by omega), ih hh.2.2⟩

theorem memWf_filter {m : List Host.Cell} (f : Host.Cell → Bool) (h : memWf m = true) : memWf (m.filter f) = true := by
  induction m with
  | nil => simpa using h
  | cons x r ih =>
    obtain ⟨b, w⟩ := x
    have hh := (memWf_cons b w r).mp h
    simp only [List.filter_cons]
    split
    · exact (memWf_cons _ _ _).mpr ⟨hh.1, fun c hc => hh.2.1 c (List.mem_filter.mp hc).1, ih hh.2.2⟩
    · exact ih hh.2.2

theorem memWf_delKey {k : Nat} {m : List Host.Cell} (h : memWf m = true) : memWf (delKey k m) = true := by
  induction m with
  | nil => simpa [delKey] using h
  | cons x r ih =>
    obtain ⟨b, w⟩ := x
    have hh := (memWf_cons b w r).mp h
    simp only [delKey]
    split
    · exact hh.2.2
    · refine (memWf_cons _ _ _).mpr ⟨hh.1, ?_, ih hh.2.2⟩
      have : ∀ c ∈ delKey k r, c ∈ r := by
        intro c
        clear ih hh h
        induction r with
        | nil => simp [delKey]
        | cons y r ih =>
          simp only [delKey]
          split
          · exact fun hc => List.mem_cons_of_mem _ hc
          · intro hc
            rcases List.mem_cons.mp hc with rfl | hc
            · simp
            · exact List.mem_cons_of_mem _ (ih hc)
      exact fun c hc => hh.2.1 c (this c hc)

theorem memWf_writeMem {a : Nat} {v : Byte} {m : List Host.Cell} (h : memWf m = true) : memWf (writeMem a v m) = true := by
  unfold writeMem
  split
  · exact memWf_delKey h
  · exact memWf_upsert (by assumption) h

theorem lookup_delKey_self {k : Nat} {m : List Host.Cell} (h : memWf m = true) : lookup k (delKey k m) = none := by
  have none_above : ∀ (m : List Host.Cell), above k m → lookup k m = none := by
    intro m
    induction m with
    | nil => simp [lookup]
    | cons x r ih =>
      intro h
      have h1 := h x (by simp)
      simp only [lookup]
      rw [if_neg (by omega)]
      exact ih fun c hc => h c (List.mem_cons_of_mem _ hc)
  induction m with
  | nil => simp [delKey, lookup]
  | cons x r ih =>
    obtain ⟨b, w⟩ := x
    have hh := (memWf_cons b w r).mp h
    simp only [delKey]
    split
    · rename_i e
      subst e
      exact none_above r hh.2.1
    · rename_i e
      simp only [lookup]
      rw [if_neg e]
      exact ih hh.2.2

/-- A byte of canonical memory reads as it was last written. -/
theorem readMem_writeMem_self {a : Nat} {v : Byte} {m : List Host.Cell} (h : memWf m = true) : readMem (writeMem a v m) a = v := by
  unfold writeMem readMem
  split
  · rename_i e
    simp [lookupD, lookup_delKey_self h, e]
  · simp

/-- A write leaves every other place alone. -/
theorem readMem_writeMem_ne {a b : Nat} (h : b ≠ a) (v : Byte) (m : List Host.Cell) : readMem (writeMem a v m) b = readMem m b := by
  unfold writeMem readMem
  split
  · simp [lookupD, lookup_delKey_ne h]
  · exact lookupD_upsert_ne h _ _ _

/-! ### Bytes of module memory -/

theorem memKey_of_regions {s t : State} (h : t.regions = s.regions) (a : Nat) : memKey t a = memKey s a := by
  unfold memKey regionOf
  rw [h]

@[simp] theorem memKey_writeByte (a b : Nat) (v : Byte) (s : State) : memKey (writeByte a v s) b = memKey s b := by
  refine memKey_of_regions ?_ b
  exact (writeByte_frame a v s) .regions (by decide)

theorem readByte_writeByte_self {a : Nat} {v : Byte} {s : State} (h : Inv s) (hk : (memKey s a).isSome = true) :
    readByte (writeByte a v s) a = v := by
  obtain ⟨k, hk⟩ := Option.isSome_iff_exists.mp hk
  have e : writeByte a v s = { s with mem := writeMem k v s.mem } := by unfold writeByte; rw [hk]
  unfold readByte
  rw [memKey_writeByte, hk, e]
  exact readMem_writeMem_self h

theorem readByte_writeByte_ne {s : State} {a b : Nat} (h : memKey s b ≠ memKey s a) (v : Byte) : readByte (writeByte a v s) b = readByte s b := by
  unfold readByte
  rw [memKey_writeByte]
  cases hb : memKey s b with
  | none => rfl
  | some k =>
    unfold writeByte
    cases ha : memKey s a with
    | none => rfl
    | some j =>
      refine readMem_writeMem_ne ?_ _ _
      intro e
      exact h (by rw [hb, ha, e])

theorem inv_writeByte {a : Nat} {v : Byte} {s : State} (h : Inv s) : Inv (writeByte a v s) := by
  unfold writeByte
  split
  · exact memWf_writeMem h
  · exact h

@[simp] theorem memKey_writeBytes (a b : Nat) (l : List Byte) (s : State) : memKey (writeBytes a l s) b = memKey s b := by
  refine memKey_of_regions ?_ b
  exact (writeBytes_frame a l s) .regions (by decide)

/-- Bytes written at a range leave every place outside it alone. -/
theorem readByte_writeBytes_ne {b : Nat} (l : List Byte) (a : Nat) (s : State) (h : ∀ i < l.length, memKey s b ≠ memKey s (a + i)) :
    readByte (writeBytes a l s) b = readByte s b := by
  induction l generalizing a s with
  | nil => rfl
  | cons x r ih =>
    simp only [writeBytes]
    rw [ih (a + 1) (writeByte a x s)]
    · exact readByte_writeByte_ne (h 0 (by simp)) x
    · intro i hi
      have := h (i + 1) (by simp; omega)
      simpa [Nat.add_assoc, Nat.add_comm 1 i] using this

end Sys2Proof.Machine
end

