-- ==== Sys2Proof/Laws/Inv0.lean ====
section
/-! SUPPORT. The memory invariant: how it passes through operations, and the operations that write memory themselves. -/

namespace Sys2Proof.Machine

theorem inv_step {m : List Part} {t u : State} (h : Inv t) (k : OnlyChanges m t u) (hm : Part.mem ∉ m) : Inv u := by
  unfold Inv
  rw [show u.mem = t.mem from k .mem hm]
  exact h
theorem inv_stepSnd {α : Type} {m : List Part} {t : State} {x : α × State} (h : Inv t) (k : sndAll (OnlyChanges m t) x) (hm : Part.mem ∉ m) :
    sndAll Inv x := inv_step h k hm
theorem inv_stepFst {α : Type} {m : List Part} {t : State} {x : State × α} (h : Inv t) (k : fstAll (OnlyChanges m t) x) (hm : Part.mem ∉ m) :
    fstAll Inv x := inv_step h k hm
theorem inv_stepOut {m : List Part} {t : State} {x : Out} (h : Inv t) (k : outAll (OnlyChanges m t) x) (hm : Part.mem ∉ m) : outAll Inv x := by
  cases x <;> first | exact inv_step h k hm | trivial
theorem inv_stepOpt {m : List Part} {t : State} {x : Option State} (h : Inv t) (k : optAll (OnlyChanges m t) x) (hm : Part.mem ∉ m) :
    optAll Inv x := by
  cases x
  · trivial
  · exact inv_step h k hm
theorem inv_stepOptSnd {α : Type} {m : List Part} {t : State} {x : Option (α × State)} (h : Inv t) (k : optSndAll (OnlyChanges m t) x)
    (hm : Part.mem ∉ m) : optSndAll Inv x := by
  cases x
  · trivial
  · exact inv_step h k hm
theorem inv_stepFetch {m : List Part} {t : State} {x : Fetch} (h : Inv t) (k : fetchAll (OnlyChanges m t) x) (hm : Part.mem ∉ m) :
    fetchAll Inv x := by
  cases x <;> first | exact inv_step h k hm | trivial
theorem inv_stepStart {m : List Part} {t : State} {x : Start} (h : Inv t) (k : startAll (OnlyChanges m t) x) (hm : Part.mem ∉ m) :
    startAll Inv x := by
  cases x <;> first | exact inv_step h k hm | trivial
theorem inv_stepUnit {α : Type} {m : List Part} {t : State} {x : UnitRes α} (h : Inv t) (k : unitAll (OnlyChanges m t) x) (hm : Part.mem ∉ m) :
    unitAll Inv x := by
  cases x <;> exact inv_step h k hm

theorem inv_stepArr {m : List Part} {t : State} {x : Arrival} (h : Inv t) (k : arrAll (OnlyChanges m t) x) (hm : Part.mem ∉ m) :
    arrAll Inv x := by
  cases x <;> first | exact inv_step h k hm | trivial

/-- An update that leaves memory alone. -/
theorem inv_lit {t u : State} (h : Inv t) (e : u.mem = t.mem) : Inv u := by
  unfold Inv
  rw [e]
  exact h

theorem inv_fold {α : Type} {t : State} {f : State → α → State} {xs : List α} (h : Inv t) (k : ∀ u x, Inv u → Inv (f u x)) : Inv (xs.foldl f t) := by
  induction xs generalizing t with
  | nil => exact h
  | cons x r ih => exact ih (k t x h)

theorem inv_ite {t u : State} {c : Prop} [Decidable c] (h : Inv t) (k : Inv u) : Inv (if c then t else u) := by
  split
  · exact h
  · exact k

theorem inv_mapState {f : State → State} {r : Start} (h : startAll Inv r) (k : ∀ u, Inv u → Inv (f u)) : startAll Inv (Start.mapState f r) :=
  startAll_mapState h k

/-! ### Operations over operations -/

theorem orHold_inv {t : State} {h : HostAccess} {off : Nat} {wide : Bool} {v : Nat} {act : State → Out} (hs : Inv t) (ha : outAll Inv (act t)) :
    outAll Inv (orHold h off wide v act t) := by
  unfold orHold
  split
  · exact hs
  · split
    · exact ha
    · split <;> exact hs

theorem atFire_inv {t : State} {p : Packet} {cls order : Nat} {op : Packet → State → State} (hs : Inv t) (ha : Inv (op p t)) :
    Inv (atFire p cls order op t) := by
  unfold atFire
  split
  · exact hs
  · exact ha

theorem dbgGate_inv {t : State} {act : State → State} (hs : Inv t) (ha : Inv (act t)) : Inv (dbgGate act t) := by
  unfold dbgGate
  split
  · exact ha
  · exact inv_step hs (lockViolation_frame _) (by decide)

theorem dbgOnTile_inv {t : State} {off : Nat} {act : State → State} (hs : Inv t) (ha : Inv (act t)) : Inv (dbgOnTile off act t) := by
  unfold dbgOnTile
  split
  · exact inv_step hs (argReject_frame _ _ _) (by decide)
  · exact ha

theorem underPlace_inv {t : State} {m : QMove} {f : State → State} (hs : Inv t) (ha : ∀ u, Inv u → Inv (f u)) : Inv (underPlace m f t) := by
  have k := ha { t with hints := m.place } (inv_lit hs rfl)
  unfold underPlace
  exact inv_lit k rfl

theorem imageStage_inv {t : State} {stage kind : Nat} {go : State → State} (hs : Inv t) (ha : ∀ u, Inv u → Inv (go u)) :
    outAll Inv (imageStage stage kind go t) := by
  unfold imageStage
  split
  · exact hs
  · split
    · exact hs
    · exact ha _ hs

theorem doorbellView_inv {t : State} {h : HostAccess} {n : Nat} {act : Queue → State → State} (hs : Inv t) (ha : ∀ q u, Inv u → Inv (act q u)) :
    Inv (doorbellView h n act t) := by
  unfold doorbellView
  dsimp only
  split
  · exact hs
  · split
    · exact hs
    · exact ha _ _ hs

/-! ### The operations that write memory -/

theorem writeByte_inv (a : Nat) (v : Byte) (s : State) (h : Inv s) : Inv (writeByte a v s) := inv_writeByte h

theorem parityPass_inv (test : Nat → Bool) (s : State) (h : Inv s) : Inv (parityPass test s) := by
  unfold parityPass
  extract_lets rest data
  have fold : ∀ (d : List Host.Cell) (m : List Host.Cell), memWf m = true →
      memWf (d.foldl (fun m c => writeMem (parityOf c.1) (readMem m (parityOf c.1) ^^^ c.2) m) m) = true := by
    intro d
    induction d with
    | nil => exact fun m hm => hm
    | cons c r ih => exact fun m hm => ih _ (memWf_writeMem hm)
  exact fold data rest (memWf_filter _ h)

theorem volatileLost_inv (s : State) (_h : Inv s) : Inv (volatileLost s) := rfl

theorem writeBytes_inv (a : Nat) (l : List Byte) (s : State) (h : Inv s) : Inv (writeBytes a l s) := by
  induction l generalizing a s with
  | nil => exact h
  | cons b r ih => exact ih (a + 1) _ (inv_writeByte h)

theorem freeBytes_inv (a n : Nat) (s : State) (h : Inv s) : Inv (freeBytes a n s) := by
  unfold freeBytes
  exact writeBytes_inv a _ _ (inv_lit h rfl)

theorem restoreGranule_inv (x : Retired) (s : State) (h : Inv s) : Inv (restoreGranule x s) := by
  unfold restoreGranule
  split
  · rename_i a r e
    split
    · refine inv_fold h fun u k hu => ?_
      split
      · exact hu
      · exact freeBytes_inv _ _ _ hu
    · have k := freeBytes_inv a 512 s h
      generalize freeBytes a 512 s = u at k ⊢
      exact inv_lit k rfl
  · exact memWf_filter _ h

theorem zeroTile_inv (L : Nat) (s : State) (h : Inv s) : Inv (zeroTile L s) := memWf_filter _ h

theorem zeroAll_inv (s : State) (_h : Inv s) : Inv (zeroAll s) := rfl

end Sys2Proof.Machine
end

