-- ==== Sys2Proof/Laws/InvMoves.lean ====
section
/-! SUPPORT. The memory invariant through the moves. -/

namespace Sys2Proof.Machine

theorem writeN_inv (a : Nat) (n : Nat) (x : Nat) (s : State) (h_s : Machine.Inv s) :
    Machine.Inv (writeN a n x s) := by
  unfold writeN
  refine writeBytes_inv _ _ _ ?_
  assumption

theorem nearWriteFor_inv (origin : Nat) (a : Nat) (l : List Byte) (a' : Nat) (a'' : State) (h_a'' : Machine.Inv a'') :
    Machine.Inv (nearWriteFor origin a l a' a'') := by
  induction a' generalizing origin a l a'' h_a''
  · unfold nearWriteFor
    assumption
  · rename_i w0 ih
    unfold nearWriteFor
    refine inv_ite ?_ ?_
    · assumption
    · extract_lets x1 x2 x3
      have h4 : Machine.Inv x3 := by
        unfold x3
        refine inv_ite ?_ ?_
        · refine inv_step ?_ (postFull_frame _ _ _ _ _ _ _) (by decide)
          assumption
        · refine writeBytes_inv _ _ _ ?_
          refine inv_step ?_ (unpoison_frame _ _ _) (by decide)
          assumption
      clear_value x1 x2 x3
      refine ih _ _ _ _ ?_
      assumption

theorem nearWrite_inv (a : Nat) (l : List Byte) (n : Nat) (s : State) (h_s : Machine.Inv s) :
    Machine.Inv (nearWrite a l n s) := by
  unfold nearWrite
  refine nearWriteFor_inv _ _ _ _ _ ?_
  assumption

theorem destWrite_inv (origin : Nat) (a : Nat) (l : List Byte) (s : State) (h_s : Machine.Inv s) :
    Machine.Inv (destWrite origin a l s) := by
  unfold destWrite
  split
  · rename_i v0 v1
    refine inv_step ?_ (hostWrite_frame _ _ _ _) (by decide)
    assumption
  · rename_i v2 v3
    refine inv_step ?_ (hostWrite_frame _ _ _ _) (by decide)
    assumption
  · rename_i v4 v5 v6
    refine nearWriteFor_inv _ _ _ _ _ ?_
    assumption

theorem sqSetBits_inv (base : Nat) (c : Nat) (i : Nat) (j : Nat) (v : Nat) (s : State) (h_s : Machine.Inv s) :
    Machine.Inv (sqSetBits base c i j v s) := by
  unfold sqSetBits
  split
  · rename_i v0 v1 v2 v3
    extract_lets x4 x5
    clear_value x4 x5
    refine writeN_inv _ _ _ _ ?_
    assumption

theorem busWrite_inv (a : Nat) (l : List Byte) (s : State) (h_s : Machine.Inv s) :
    Machine.Inv (busWrite a l s) := by
  unfold busWrite
  refine inv_ite ?_ ?_
  · refine nearWrite_inv _ _ _ _ ?_
    assumption
  · refine writeBytes_inv _ _ _ ?_
    assumption

theorem sqWriteLine_inv (base : Nat) (c : Nat) (i : Nat) (el : List Nat) (s : State) (h_s : Machine.Inv s) :
    Machine.Inv (sqWriteLine base c i el s) := by
  unfold sqWriteLine
  extract_lets x0 x1
  clear_value x0 x1
  refine busWrite_inv _ _ _ ?_
  assumption

theorem padBody_inv (base : Nat) (c : Nat) (i : Nat) (s : State) (h_s : Machine.Inv s) :
    Machine.Inv (padBody base c i s) := by
  unfold padBody
  refine busWrite_inv _ _ _ ?_
  assumption

theorem padLines_inv (base : Nat) (c : Nat) (i : Nat) (s : State) (h_s : Machine.Inv s) :
    Machine.Inv (padLines base c i s) := by
  unfold padLines
  extract_lets x0
  have h1 : Machine.Inv x0 := by
    unfold x0
    refine padBody_inv _ _ _ _ ?_
    assumption
  clear_value x0
  refine inv_ite ?_ ?_
  · refine busWrite_inv _ _ _ ?_
    assumption
  · assumption

theorem sqWriteCol_inv (base : Nat) (c : Nat) (j : Nat) (el : List Nat) (s : State) (h_s : Machine.Inv s) :
    Machine.Inv (sqWriteCol base c j el s) := by
  unfold sqWriteCol
  refine inv_fold ?_ (fun u0 y1 h2 => ?_)
  · assumption
  · refine sqSetBits_inv _ _ _ _ _ _ ?_
    assumption

theorem sqWriteDesc_inv (base : Nat) (c : Nat) (axis : Nat) (scale : W32) (amax : W32) (s : State) (h_s : Machine.Inv s) :
    Machine.Inv (sqWriteDesc base c axis scale amax s) := by
  unfold sqWriteDesc
  refine busWrite_inv _ _ _ ?_
  assumption

theorem freeBank_inv (bank : Bool) (s : State) (e : Nat × Ledger) (h_s : Machine.Inv s) :
    Machine.Inv (freeBank bank s e) := by
  unfold freeBank
  refine freeBytes_inv _ _ _ ?_
  assumption

theorem loseSums_inv (k : Nat) (s : State) (h_s : Machine.Inv s) :
    Machine.Inv (loseSums k s) := by
  unfold loseSums
  extract_lets x0 x1
  have h2 : Machine.Inv x0 := by
    unfold x0
    refine inv_fold ?_ (fun u3 y4 h5 => ?_)
    · assumption
    · refine freeBank_inv _ _ _ ?_
      assumption
  clear_value x0 x1
  refine inv_step ?_ (only_cap (OnlyChanges.refl _ _) _ (fun _ hp => hp)) (by decide)
  assumption

theorem failCapstan_inv (k : Nat) (s : State) (h_s : Machine.Inv s) :
    Machine.Inv (failCapstan k s) := by
  unfold failCapstan
  extract_lets x0 x1 x2 x3 x4 x5 x6 x7 x8
  have h9 : Machine.Inv x3 := by
    unfold x3
    refine inv_step ?_ (only_store (OnlyChanges.refl _ _) _ (fun _ hp => hp)) (by decide)
    assumption
  have h10 : Machine.Inv x4 := by
    unfold x4
    refine inv_step ?_ (unsettleCap_frame _ _) (by decide)
    refine inv_step ?_ (clearCapKnots_frame _ _) (by decide)
    refine inv_ite ?_ ?_
    · refine loseSums_inv _ _ ?_
      assumption
    · assumption
  have h11 : Machine.Inv x6 := by
    unfold x6
    refine inv_ite ?_ ?_
    · refine inv_fold ?_ (fun u12 y13 h14 => ?_)
      · refine inv_step ?_ (only_rel (OnlyChanges.refl _ _) _ (fun _ hp => hp)) (by decide)
        assumption
      · refine freeBank_inv _ _ _ ?_
        assumption
    · assumption
  have h15 : ∀ a16 a17, Machine.Inv a17 → Machine.Inv (x7 a16 a17) := by
    intro b18 b19 k20
    unfold x7
    refine inv_step ?_ (ledgerRec_frame _ _ _ _ _ _ _ _) (by decide)
    assumption
  clear_value x0 x1 x2 x3 x4 x5 x6 x7 x8
  split
  · rename_i v21 v22 v23 v24
    apply h15
    · refine inv_step ?_ (setCapstan_frame _ _ _) (by decide)
      refine inv_step ?_ (journalRecord_frame _) (by decide)
      assumption
  · rename_i v25 v26
    apply h15
    · refine inv_step ?_ (post_frame _ _ _) (by decide)
      refine inv_step ?_ (setCapstan_frame _ _ _) (by decide)
      refine inv_step ?_ (only_rel (OnlyChanges.refl _ _) _ (fun _ hp => hp)) (by decide)
      assumption

theorem repairRim_inv (k : Nat) (row : Nat) (s : State) (h_s : Machine.Inv s) :
    Machine.Inv (repairRim k row s) := by
  unfold repairRim
  extract_lets x0 x1 x2 x3
  have h4 : Machine.Inv x2 := by
    unfold x2
    refine inv_step ?_ (setCapstan_frame _ _ _) (by decide)
    assumption
  clear_value x0 x1 x2 x3
  refine inv_ite ?_ ?_
  · refine inv_step ?_ (ledgerRec_frame _ _ _ _ _ _ _ _) (by decide)
    refine inv_step ?_ (only_store (OnlyChanges.refl _ _) _ (fun _ hp => hp)) (by decide)
    assumption
  · refine failCapstan_inv _ _ ?_
    refine inv_step ?_ (ledgerRec_frame _ _ _ _ _ _ _ _) (by decide)
    assumption

theorem rimBad_inv (k : Nat) (unit : Nat) (s : State) (h_s : Machine.Inv s) :
    Machine.Inv (rimBad k unit s) := by
  unfold rimBad
  refine inv_ite ?_ ?_
  · refine inv_step ?_ (loseCap_frame _ _) (by decide)
    assumption
  · extract_lets x0
    have h1 : Machine.Inv x0 := by
      unfold x0
      refine inv_step ?_ (record_frame _ _ _ _ _ _ _ _ _ _) (by decide)
      assumption
    clear_value x0
    refine inv_ite ?_ ?_
    · refine freeBytes_inv _ _ _ ?_
      assumption
    · assumption

theorem rimFinds_inv (k : Nat) (unit : Nat) (row : Nat) (r : ArrayRead) (s : State) (h_s : Machine.Inv s) :
    Machine.Inv (rimFinds k unit row r s) := by
  unfold rimFinds
  split
  · rename_i v0
    assumption
  · rename_i v1
    refine repairRim_inv _ _ _ ?_
    refine rimBad_inv _ _ _ ?_
    assumption
  · rename_i v2
    extract_lets x3 x4 x5 x6
    have h7 : Machine.Inv x5 := by
      unfold x5
      refine inv_step ?_ (setCapstan_frame _ _ _) (by decide)
      assumption
    have h8 : Machine.Inv x6 := by
      unfold x6
      refine inv_step ?_ (record_frame _ _ _ _ _ _ _ _ _ _) (by decide)
      assumption
    clear_value x3 x4 x5 x6
    refine inv_ite ?_ ?_
    · refine repairRim_inv _ _ _ ?_
      assumption
    · assumption

theorem rimAt_inv (a : Nat) (row : Nat) (r : ArrayRead) (s : State) (h_s : Machine.Inv s) :
    Machine.Inv (rimAt a row r s) := by
  unfold rimAt
  refine inv_ite ?_ ?_
  · refine rimFinds_inv _ _ _ _ _ ?_
    assumption
  · refine inv_ite ?_ ?_
    · refine rimFinds_inv _ _ _ _ _ ?_
      assumption
    · assumption

theorem parityPersists_inv (p : ParityPlace) (s : State) (h_s : Machine.Inv s) :
    Machine.Inv (parityPersists p s) := by
  unfold parityPersists
  split
  · rename_i v0 v1
    refine inv_step ?_ (suspectTile_frame _ _ _) (by decide)
    assumption
  · rename_i v2 v3
    refine inv_step ?_ (suspectTile_frame _ _ _) (by decide)
    assumption
  · rename_i v4 v5 v6
    refine elim_of (P := Machine.Inv) ?_ (fun y7 => ?_)
    · assumption
    · refine inv_step ?_ (needMigration_frame _ _ _) (by decide)
      assumption
  · rename_i v8 v9
    extract_lets x10
    clear_value x10
    refine failCapstan_inv _ _ ?_
    refine inv_step ?_ (suspectTile_frame _ _ _) (by decide)
    assumption

theorem parityFails_inv (p : ParityPlace) (s : State) (h_s : Machine.Inv s) :
    sndAll Machine.Inv (parityFails p s) := by
  unfold parityFails
  split
  · rename_i v0 v1
    refine sndAll_mk ?_
    assumption
  · rename_i v2 v3
    refine sndAll_mk ?_
    assumption
  · rename_i v4 v5 v6
    split
    · rename_i v7 v8 v9
      split
      · rename_i v10
        refine sndAll_mk ?_
        assumption
      · rename_i v11
        refine sndAll_mk ?_
        refine restoreGranule_inv _ _ ?_
        assumption
    · rename_i v12 v13
      refine sndAll_mk ?_
      assumption
  · rename_i v14 v15
    refine sndAll_mk ?_
    refine rimBad_inv _ _ _ ?_
    assumption

theorem parityMeets_inv (p : ParityPlace) (w : DataWord) (origin : Nat) (play : W32) (step : W32) (s : State) (h_s : Machine.Inv s) :
    sndAll Machine.Inv (parityMeets p w origin play step s) := by
  unfold parityMeets
  split
  · rename_i v0 v1 v2 v3
    split
    · rename_i v4
      split
      · rename_i v5 v6 v7 v8
        refine absorb (P := sndAll Machine.Inv) v8 ?_ (fun q9 => ?_)
        · refine inv_stepSnd ?_ (countRetry_frame _ _) (by decide)
          refine inv_step ?_ (record_frame _ _ _ _ _ _ _ _ _ _) (by decide)
          assumption
        refine sndAll_mk ?_
        refine inv_ite ?_ ?_
        · refine parityPersists_inv _ _ ?_
          assumption
        · assumption
    · rename_i v10
      split
      · rename_i v11 v12 v13 v14
        refine absorb (P := sndAll Machine.Inv) v14 ?_ (fun q15 => ?_)
        · refine parityFails_inv _ _ ?_
          refine inv_step ?_ (record_frame _ _ _ _ _ _ _ _ _ _) (by decide)
          assumption
        refine sndAll_mk ?_
        refine parityPersists_inv _ _ ?_
        assumption

theorem StreamCtx_writeOut_inv (c : StreamCtx) (u : Nat) (i : Nat) (xs : List FVal) (s : State) (h_s : Machine.Inv s) :
    Machine.Inv (StreamCtx.writeOut c u i xs s) := by
  unfold StreamCtx.writeOut
  extract_lets x0 x1 x2 x3 x4 x5
  have h6 : Machine.Inv x4 := by
    unfold x4
    refine inv_ite ?_ ?_
    · refine freeBytes_inv _ _ _ ?_
      assumption
    · assumption
  clear_value x0 x1 x2 x3 x4 x5
  split
  · rename_i v7 v8 v9 v10 v11
    extract_lets x12 x13 x14 x15
    have h16 : Machine.Inv x12 := by
      unfold x12
      refine sqWriteLine_inv _ _ _ _ _ ?_
      assumption
    have h17 : Machine.Inv x15 := by
      unfold x15
      refine inv_ite ?_ ?_
      · refine sqWriteDesc_inv _ _ _ _ _ _ ?_
        refine writeBytes_inv _ _ _ ?_
        assumption
      · refine inv_ite ?_ ?_
        · refine writeN_inv _ _ _ _ ?_
          assumption
        · assumption
    clear_value x12 x13 x14 x15
    refine inv_step ?_ (countConv_frame _ _ _ _) (by decide)
    assumption

theorem StreamCtx_clearAmax_inv (c : StreamCtx) (u : Nat) (s : State) (h_s : Machine.Inv s) :
    Machine.Inv (StreamCtx.clearAmax c u s) := by
  unfold StreamCtx.clearAmax
  extract_lets x0
  clear_value x0
  refine inv_fold ?_ (fun u1 y2 h3 => ?_)
  · assumption
  · refine inv_ite ?_ ?_
    · refine sqWriteDesc_inv _ _ _ _ _ _ ?_
      assumption
    · refine inv_ite ?_ ?_
      · refine writeN_inv _ _ _ _ ?_
        assumption
      · assumption

theorem StreamCtx_sendOut_inv (c : StreamCtx) (u : Nat) (i : Nat) (self : Nat) (el : List Nat) (s : State) (h_s : Machine.Inv s) :
    Machine.Inv (StreamCtx.sendOut c u i self el s) := by
  unfold StreamCtx.sendOut
  extract_lets x0 x1 x2 x3 x4 x5
  have h6 : Machine.Inv x2 := by
    unfold x2
    refine sqWriteLine_inv _ _ _ _ _ ?_
    assumption
  clear_value x0 x1 x2 x3 x4 x5
  refine inv_step ?_ (only_mesh (OnlyChanges.refl _ _) _ (fun _ hp => hp)) (by decide)
  assumption

theorem StreamCtx_deliver_inv (c : StreamCtx) (self : Nat) (i : Nat) (res : List W32) (s : State) (h_s : Machine.Inv s) :
    Machine.Inv (StreamCtx.deliver c self i res s) := by
  unfold StreamCtx.deliver
  refine inv_fold ?_ (fun u0 y1 h2 => ?_)
  · assumption
  · extract_lets x3
    clear_value x3
    refine inv_ite ?_ ?_
    · refine inv_ite ?_ ?_
      · assumption
      · split
        · rename_i v4 v5 v6 v7
          refine StreamCtx_sendOut_inv _ _ _ _ _ _ ?_
          refine inv_step ?_ (countConv_frame _ _ _ _) (by decide)
          assumption
    · refine StreamCtx_writeOut_inv _ _ _ _ _ ?_
      assumption

theorem StreamCtx_zeroSlot_inv (c : StreamCtx) (self : Nat) (i : Nat) (s : State) (h_s : Machine.Inv s) :
    Machine.Inv (StreamCtx.zeroSlot c self i s) := by
  unfold StreamCtx.zeroSlot
  refine inv_fold ?_ (fun u0 y1 h2 => ?_)
  · assumption
  · extract_lets x3 x4 x5
    have h6 : Machine.Inv x5 := by
      unfold x5
      refine sqWriteLine_inv _ _ _ _ _ ?_
      assumption
    clear_value x3 x4 x5
    refine inv_ite ?_ ?_
    · refine inv_ite ?_ ?_
      · assumption
      · refine StreamCtx_sendOut_inv _ _ _ _ _ _ ?_
        assumption
    · refine inv_ite ?_ ?_
      · refine writeBytes_inv _ _ _ ?_
        assumption
      · assumption

theorem StreamCtx_accumulate_inv (c : StreamCtx) (i : Nat) (res : List W32) (s : State) (h_s : Machine.Inv s) :
    Machine.Inv (StreamCtx.accumulate c i res s) := by
  unfold StreamCtx.accumulate
  refine inv_fold ?_ (fun u0 y1 h2 => ?_)
  · assumption
  · extract_lets x3 x4
    clear_value x3 x4
    refine inv_ite ?_ ?_
    · refine nearWriteFor_inv _ _ _ _ _ ?_
      assumption
    · refine sqWriteLine_inv _ _ _ _ _ ?_
      assumption

theorem StreamCtx_padOut_inv (c : StreamCtx) (s : State) (h_s : Machine.Inv s) :
    Machine.Inv (StreamCtx.padOut c s) := by
  unfold StreamCtx.padOut
  refine inv_ite ?_ ?_
  · assumption
  · refine inv_fold ?_ (fun u0 y1 h2 => ?_)
    · assumption
    · refine padLines_inv _ _ _ _ ?_
      assumption

theorem StreamCtx_drainRow_inv (c : StreamCtx) (self : Nat) (i : Nat) (res : List W32) (s : State) (h_s : Machine.Inv s) :
    Machine.Inv (StreamCtx.drainRow c self i res s) := by
  unfold StreamCtx.drainRow
  refine inv_ite ?_ ?_
  · refine StreamCtx_accumulate_inv _ _ _ _ ?_
    assumption
  · refine StreamCtx_deliver_inv _ _ _ _ _ ?_
    assumption

theorem StreamCtx_row_inv (c : StreamCtx) (self : Nat) (i : Nat) (s : State) (h_s : Machine.Inv s) :
    fstAll Machine.Inv (StreamCtx.row c self i s) := by
  unfold StreamCtx.row
  extract_lets x0 x1 x2 x3 x4
  have h5 : Machine.Inv x4 := by
    unfold x4
    refine inv_step ?_ (StreamCtx_keepRow_frame _ _ _ _ _) (by decide)
    assumption
  clear_value x0 x1 x2 x3 x4
  split
  · rename_i v6
    split
    · rename_i v7 v8 v9 v10
      refine absorb (P := sndAll Machine.Inv) v10 ?_ (fun q11 => ?_)
      · split
        · rename_i v12
          refine inv_stepSnd ?_ (freeRow_frame _ _) (by decide)
          assumption
        · rename_i v13
          refine sndAll_mk ?_
          assumption
      extract_lets x14 x15
      have h16 : Machine.Inv x14 := by
        unfold x14
        refine inv_step ?_ (StreamCtx_keepRow_frame _ _ _ _ _) (by decide)
        refine StreamCtx_drainRow_inv _ _ _ _ _ ?_
        assumption
      have h17 : Machine.Inv x15 := by
        unfold x15
        split
        · rename_i v18 v19 v20
          refine inv_step ?_ (adjField_frame _ _ _) (by decide)
          assumption
        · rename_i v21 v22
          assumption
      clear_value x14 x15
      refine fstAll_mk ?_
      assumption
  · rename_i v23
    split
    · rename_i v24
      split
      · rename_i v25 v26 v27 v28
        refine absorb (P := sndAll Machine.Inv) v28 ?_ (fun q29 => ?_)
        · refine inv_stepSnd ?_ (freeRow_frame _ _) (by decide)
          assumption
        refine fstAll_mk ?_
        refine StreamCtx_drainRow_inv _ _ _ _ _ ?_
        assumption
    · rename_i v30
      refine fstAll_mk ?_
      refine inv_ite ?_ ?_
      · refine StreamCtx_zeroSlot_inv _ _ _ _ ?_
        assumption
      · assumption

theorem StreamCtx_afterRow_inv (c : StreamCtx) (i : Nat) (blk : List (Nat × List W32)) (s : State) (h_s : Machine.Inv s) :
    Machine.Inv (StreamCtx.afterRow c i blk s) := by
  unfold StreamCtx.afterRow
  extract_lets x0 x1 x2 x3
  have h4 : Machine.Inv x1 := by
    unfold x1
    refine inv_ite ?_ ?_
    · refine inv_fold ?_ (fun u5 y6 h7 => ?_)
      · assumption
      · refine inv_step ?_ (StreamCtx_offer_frame _ _ _ _ _) (by decide)
        assumption
    · assumption
  have h8 : Machine.Inv x2 := by
    unfold x2
    refine inv_ite ?_ ?_
    · refine StreamCtx_padOut_inv _ _ ?_
      assumption
    · assumption
  have h9 : Machine.Inv x3 := by
    unfold x3
    refine inv_ite ?_ ?_
    · refine inv_step ?_ (adjField_frame _ _ _) (by decide)
      assumption
    · assumption
  clear_value x0 x1 x2 x3
  refine inv_ite ?_ ?_
  · assumption
  · split
    · rename_i v10 v11 v12
      refine inv_step ?_ (setPart_frame _ _) (by decide)
      assumption
    · rename_i v13 v14
      assumption

theorem admitRows_inv (p : Play) (a : Nat) (a' : QMove) (a'' : State) (h_a'' : Machine.Inv a'') :
    sndAll Machine.Inv (admitRows p a a' a'') := by
  induction a generalizing p a' a'' h_a''
  · unfold admitRows
    refine sndAll_mk ?_
    assumption
  · rename_i w0 ih
    unfold admitRows
    split
    · rename_i v1 v2
      refine sndAll_mk ?_
      assumption
    · rename_i v3 v4 v5
      split
      · rename_i v6
        refine sndAll_mk ?_
        assumption
      · rename_i v7
        extract_lets x8
        clear_value x8
        split
        · rename_i v9 v10 v11 v12
          refine absorb (P := fstAll Machine.Inv) v12 ?_ (fun q13 => ?_)
          · refine StreamCtx_row_inv _ _ _ _ ?_
            assumption
          extract_lets x14
          clear_value x14
          refine ih _ _ _ ?_
          refine StreamCtx_afterRow_inv _ _ _ _ ?_
          assumption

theorem streamGo_inv (p : Play) (m : QMove) (s : State) (h_s : Machine.Inv s) :
    sndAll Machine.Inv (streamGo p m s) := by
  unfold streamGo
  split
  · rename_i v0 v1 v2 v3
    refine absorb (P := sndAll Machine.Inv) v3 ?_ (fun q4 => ?_)
    · refine admitRows_inv _ _ _ _ ?_
      assumption
    split
    · rename_i v5 v6
      refine sndAll_mk ?_
      assumption
    · rename_i v7 v8 v9
      split
      · rename_i v10
        refine sndAll_mk ?_
        refine inv_step ?_ (askRamp_frame _ _) (by decide)
        assumption
      · rename_i v11
        refine sndAll_mk ?_
        assumption

theorem startStream_inv (p : Play) (m : QMove) (s : State) (h_s : Machine.Inv s) :
    startAll Machine.Inv (startStream p m s) := by
  unfold startStream
  split
  · rename_i v0 v1
    trivial
  · rename_i v2 v3 v4
    split
    · rename_i v5 v6 v7
      change Machine.Inv _
      assumption
    · rename_i v8 v9
      split
      · rename_i v10 v11
        trivial
      · rename_i v12 v13 v14
        split
        · rename_i v15 v16 v17 v18
          change Machine.Inv _
          refine inv_step ?_ (xingRecordFor_frame _ _ _ _ _ _ _) (by decide)
          assumption
        · rename_i v19 v20
          split
          · rename_i v21
            change Machine.Inv _
            assumption
          · rename_i v22
            split
            · rename_i v23
              change Machine.Inv _
              refine inv_step ?_ (granuleFault_frame _ _ _ _ _) (by decide)
              refine inv_step ?_ (retiredRead_frame _ _ _) (by decide)
              assumption
            · rename_i v24
              extract_lets x25 x26
              have h27 : Machine.Inv x25 := by
                unfold x25
                refine inv_ite ?_ ?_
                · refine inv_step ?_ (setPart_frame _ _) (by decide)
                  assumption
                · assumption
              have h28 : Machine.Inv x26 := by
                unfold x26
                refine inv_ite ?_ ?_
                · refine inv_fold ?_ (fun u29 y30 h31 => ?_)
                  · assumption
                  · refine StreamCtx_clearAmax_inv _ _ _ ?_
                    assumption
                · assumption
              clear_value x25 x26
              split
              · rename_i v32 v33 v34 v35
                refine absorb (P := sndAll Machine.Inv) v35 ?_ (fun q36 => ?_)
                · refine streamGo_inv _ _ _ ?_
                  assumption
                change Machine.Inv _
                assumption

theorem DestRun_line_inv (d : DestRun) (die : Nat → Nat → W32) (k : Nat) (valid : Nat) (xs : List W32) (s : State) (h_s : Machine.Inv s) :
    Machine.Inv (DestRun.line d die k valid xs s) := by
  unfold DestRun.line
  split
  · rename_i v0 v1 v2 v3 v4 v5
    extract_lets x6 x7 x8
    have h9 : Machine.Inv x7 := by
      unfold x7
      refine sqWriteLine_inv _ _ _ _ _ ?_
      assumption
    have h10 : Machine.Inv x8 := by
      unfold x8
      refine inv_ite ?_ ?_
      · refine writeBytes_inv _ _ _ ?_
        assumption
      · assumption
    clear_value x6 x7 x8
    refine inv_step ?_ (countConv_frame _ _ _ _) (by decide)
    assumption

theorem DestRun_heads_inv (d : DestRun) (amax : List W32) (s : State) (h_s : Machine.Inv s) :
    Machine.Inv (DestRun.heads d amax s) := by
  unfold DestRun.heads
  extract_lets x0
  clear_value x0
  refine inv_fold ?_ (fun u1 y2 h3 => ?_)
  · assumption
  · extract_lets x4
    clear_value x4
    refine inv_ite ?_ ?_
    · refine sqWriteDesc_inv _ _ _ _ _ _ ?_
      assumption
    · refine inv_ite ?_ ?_
      · refine writeN_inv _ _ _ _ ?_
        assumption
      · assumption

theorem DestRun_write_inv (d : DestRun) (die : Nat → Nat → W32) (valid : Nat → Nat) (lines : List (List W32)) (s : State) (h_s : Machine.Inv s) :
    Machine.Inv (DestRun.write d die valid lines s) := by
  unfold DestRun.write
  extract_lets x0 x1
  have h2 : Machine.Inv x1 := by
    unfold x1
    refine DestRun_heads_inv _ _ _ ?_
    refine inv_fold ?_ (fun u3 y4 h5 => ?_)
    · assumption
    · split
      · rename_i v6 v7 v8
        refine DestRun_line_inv _ _ _ _ _ _ ?_
        assumption
  clear_value x0 x1
  refine inv_ite ?_ ?_
  · assumption
  · refine padLines_inv _ _ _ _ ?_
    assumption

theorem copyRun_inv (a : Nat) (d : Nat) (fmt : Nat) (n : Nat) (trans : Bool) (s : State) (h_s : Machine.Inv s) :
    Machine.Inv (copyRun a d fmt n trans s) := by
  unfold copyRun
  beta_reduce
  refine inv_ite ?_ ?_
  · refine inv_fold ?_ (fun u0 y1 h2 => ?_)
    · assumption
    · extract_lets x3 x4 x5 x6 x7 x8
      have h9 : Machine.Inv x7 := by
        unfold x7
        refine sqWriteDesc_inv _ _ _ _ _ _ ?_
        assumption
      have h10 : Machine.Inv x8 := by
        unfold x8
        refine inv_ite ?_ ?_
        · assumption
        · refine inv_ite ?_ ?_
          · refine writeBytes_inv _ _ _ ?_
            assumption
          · refine inv_ite ?_ ?_
            · refine writeN_inv _ _ _ _ ?_
              assumption
            · assumption
      clear_value x3 x4 x5 x6 x7 x8
      refine sqWriteLine_inv _ _ _ _ _ ?_
      assumption
  · refine padBody_inv _ _ _ _ ?_
    refine inv_fold ?_ (fun u11 y12 h13 => ?_)
    · assumption
    · extract_lets x14 x15 x16 x17 x18 x19
      have h20 : Machine.Inv x18 := by
        unfold x18
        refine sqWriteDesc_inv _ _ _ _ _ _ ?_
        assumption
      have h21 : Machine.Inv x19 := by
        unfold x19
        refine inv_ite ?_ ?_
        · assumption
        · refine inv_ite ?_ ?_
          · refine writeBytes_inv _ _ _ ?_
            assumption
          · refine inv_ite ?_ ?_
            · refine writeN_inv _ _ _ _ ?_
              assumption
            · assumption
      clear_value x14 x15 x16 x17 x18 x19
      refine sqWriteLine_inv _ _ _ _ _ ?_
      assumption

theorem startElem_inv (p : Play) (tile : Nat) (m : QMove) (s : State) (h_s : Machine.Inv s) :
    startAll Machine.Inv (startElem p tile m s) := by
  unfold startElem
  extract_lets x0 x1 x2 x3 x4 x5 x6 x7 x8 x9 x10 x11 x12 x13 x14 x15 x16 x17 x18 x19 x20 x21 x22 x23 x24
  clear_value x0 x1 x2 x3 x4 x5 x6 x7 x8 x9 x10 x11 x12 x13 x14 x15 x16 x17 x18 x19 x20 x21 x22 x23 x24
  split
  · rename_i v25
    change Machine.Inv _
    assumption
  · rename_i v26
    split
    · rename_i v27
      change Machine.Inv _
      assumption
    · rename_i v28
      split
      · rename_i v29 v30 v31
        change Machine.Inv _
        assumption
      · rename_i v32 v33
        split
        · rename_i v34
          change Machine.Inv _
          assumption
        · rename_i v35
          split
          · rename_i v36
            change Machine.Inv _
            refine freeBytes_inv _ _ _ ?_
            assumption
          · rename_i v37
            split
            · rename_i v38
              change Machine.Inv _
              refine copyRun_inv _ _ _ _ _ _ ?_
              assumption
            · rename_i v39
              change Machine.Inv _
              refine DestRun_write_inv _ _ _ _ _ ?_
              assumption

theorem gaccRun_inv (m : Member) (s0 : State) (s : State) (h_s : Machine.Inv s) :
    Machine.Inv (gaccRun m s0 s) := by
  unfold gaccRun
  extract_lets x0
  clear_value x0
  refine inv_ite ?_ ?_
  · refine inv_fold ?_ (fun u1 y2 h3 => ?_)
    · assumption
    · refine inv_fold ?_ (fun u4 y5 h6 => ?_)
      · assumption
      · split
        · rename_i v7 v8 v9
          extract_lets x10
          clear_value x10
          refine writeN_inv _ _ _ _ ?_
          assumption
  · assumption

theorem groupWrite_inv (p : Play) (s0 : State) (l : List Member) (m : Member) (s : State) (h_s : Machine.Inv s) :
    Machine.Inv (groupWrite p s0 l m s) := by
  unfold groupWrite
  extract_lets x0 x1 x2 x3 x4 x5 x6 x7 x8 x9
  clear_value x0 x1 x2 x3 x4 x5 x6 x7 x8 x9
  refine inv_ite ?_ ?_
  · refine inv_step ?_ (addKnot_frame _ _ _) (by decide)
    refine writeN_inv _ _ _ _ ?_
    assumption
  · refine inv_ite ?_ ?_
    · refine inv_fold ?_ (fun u10 y11 h12 => ?_)
      · assumption
      · extract_lets x13 x14
        clear_value x13 x14
        refine inv_step ?_ (countConv_frame _ _ _ _) (by decide)
        refine writeN_inv _ _ _ _ ?_
        assumption
    · refine gaccRun_inv _ _ _ ?_
      refine DestRun_write_inv _ _ _ _ _ ?_
      assumption

theorem topkRow_inv (p : Play) (tile : Nat) (m : QMove) (i : Nat) (s : State) (h_s : Machine.Inv s) :
    Machine.Inv (topkRow p tile m i s) := by
  unfold topkRow
  extract_lets x0 x1 x2 x3 x4 x5 x6 x7 x8 x9 x10 x11
  have h12 : Machine.Inv x9 := by
    unfold x9
    refine inv_step ?_ (countConv_frame _ _ _ _) (by decide)
    assumption
  clear_value x0 x1 x2 x3 x4 x5 x6 x7 x8 x9 x10 x11
  refine inv_fold ?_ (fun u13 y14 h15 => ?_)
  · assumption
  · extract_lets x16 x17 x18
    have h19 : Machine.Inv x18 := by
      unfold x18
      refine writeN_inv _ _ _ _ ?_
      assumption
    clear_value x16 x17 x18
    split
    · rename_i v20 v21 v22
      split
      · rename_i v23 v24 v25 v26
        refine inv_step ?_ (countConv_frame _ _ _ _) (by decide)
        refine writeN_inv _ _ _ _ ?_
        assumption
    · rename_i v27 v28
      refine writeN_inv _ _ _ _ ?_
      assumption

theorem startTopk_inv (p : Play) (tile : Nat) (m : QMove) (s : State) (h_s : Machine.Inv s) :
    startAll Machine.Inv (startTopk p tile m s) := by
  unfold startTopk
  extract_lets x0 x1 x2 x3 x4 x5
  clear_value x0 x1 x2 x3 x4 x5
  split
  · rename_i v6
    change Machine.Inv _
    assumption
  · rename_i v7
    split
    · rename_i v8
      change Machine.Inv _
      assumption
    · rename_i v9
      split
      · rename_i v10 v11 v12
        change Machine.Inv _
        assumption
      · rename_i v13 v14
        split
        · rename_i v15
          split
          · rename_i v16
            change Machine.Inv _
            assumption
          · rename_i v17
            change Machine.Inv _
            refine inv_fold ?_ (fun u18 y19 h20 => ?_)
            · assumption
            · refine topkRow_inv _ _ _ _ _ ?_
              assumption
        · rename_i v21
          split
          · rename_i v22
            change Machine.Inv _
            assumption
          · rename_i v23
            change Machine.Inv _
            refine inv_fold ?_ (fun u24 y25 h26 => ?_)
            · assumption
            · refine topkRow_inv _ _ _ _ _ ?_
              assumption

theorem gatherRows_inv (tile : Nat) (op : Nat) (w : MoveWord) (a : List Nat) (a' : State) (h_a' : Machine.Inv a') :
    sndAll Machine.Inv (gatherRows tile op w a a') := by
  induction a generalizing tile op w a' h_a'
  · unfold gatherRows
    refine sndAll_mk ?_
    assumption
  · rename_i w0 w1 ih
    unfold gatherRows
    extract_lets x2 x3 x4 x5 x6
    have h7 : Machine.Inv x6 := by
      unfold x6
      split
      · rename_i v8
        refine writeBytes_inv _ _ _ ?_
        assumption
      · rename_i v9
        refine writeBytes_inv _ _ _ ?_
        assumption
      · rename_i v10 v11 v12
        refine inv_fold ?_ (fun u13 y14 h15 => ?_)
        · assumption
        · extract_lets x16
          clear_value x16
          refine writeN_inv _ _ _ _ ?_
          assumption
    clear_value x2 x3 x4 x5 x6
    split
    · rename_i v17
      refine sndAll_mk ?_
      assumption
    · rename_i v18
      refine ih _ _ _ _ ?_
      assumption

theorem startGather_inv (p : Play) (tile : Nat) (op : Nat) (m : QMove) (s : State) (h_s : Machine.Inv s) :
    startAll Machine.Inv (startGather p tile op m s) := by
  unfold startGather
  extract_lets x0 x1 x2 x3
  clear_value x0 x1 x2 x3
  split
  · rename_i v4
    change Machine.Inv _
    assumption
  · rename_i v5
    split
    · rename_i v6
      change Machine.Inv _
      assumption
    · rename_i v7
      split
      · rename_i v8 v9 v10
        change Machine.Inv _
        assumption
      · rename_i v11 v12
        split
        · rename_i v13
          split
          · rename_i v14
            change Machine.Inv _
            assumption
          · rename_i v15
            split
            · rename_i v16 v17 v18 v19
              refine absorb (P := sndAll Machine.Inv) v19 ?_ (fun q20 => ?_)
              · refine gatherRows_inv _ _ _ _ _ ?_
                assumption
              split
              · rename_i v21
                change Machine.Inv _
                assumption
              · rename_i v22
                change Machine.Inv _
                assumption
        · rename_i v23
          split
          · rename_i v24
            change Machine.Inv _
            assumption
          · rename_i v25
            split
            · rename_i v26 v27 v28 v29
              refine absorb (P := sndAll Machine.Inv) v29 ?_ (fun q30 => ?_)
              · refine gatherRows_inv _ _ _ _ _ ?_
                assumption
              split
              · rename_i v31
                change Machine.Inv _
                assumption
              · rename_i v32
                change Machine.Inv _
                assumption

theorem packSquare_inv (p : Play) (tile : Nat) (m : QMove) (q : Nat) (s : State) (h_s : Machine.Inv s) :
    Machine.Inv (packSquare p tile m q s) := by
  unfold packSquare
  extract_lets x0 x1 x2 x3 x4 x5 x6 x7 x8 x9 x10
  clear_value x0 x1 x2 x3 x4 x5 x6 x7 x8 x9 x10
  split
  · rename_i v11 v12 v13 v14
    refine absorb (P := fstAll Machine.Inv) v14 ?_ (fun q15 => ?_)
    · split
      · rename_i v16
        refine OnlyChanges.foldFst ?_ (fun u17 y18 h19 => ?_)
        · refine fstAll_mk ?_
          assumption
        · split
          · rename_i v20 v21 v22 v23 v24
            refine fstAll_mk ?_
            refine writeBytes_inv _ _ _ ?_
            refine sqWriteCol_inv _ _ _ _ _ ?_
            show fstAll Machine.Inv _
            assumption
      · rename_i v25
        refine OnlyChanges.foldFst ?_ (fun u26 y27 h28 => ?_)
        · refine fstAll_mk ?_
          assumption
        · split
          · rename_i v29 v30 v31 v32 v33
            extract_lets x34
            have h35 : Machine.Inv x34 := by
              unfold x34
              refine sqWriteLine_inv _ _ _ _ _ ?_
              show fstAll Machine.Inv _
              assumption
            clear_value x34
            refine fstAll_mk ?_
            refine inv_ite ?_ ?_
            · refine writeBytes_inv _ _ _ ?_
              assumption
            · assumption
    extract_lets x36
    have h37 : Machine.Inv x36 := by
      unfold x36
      refine inv_ite ?_ ?_
      · refine sqWriteDesc_inv _ _ _ _ _ _ ?_
        assumption
      · assumption
    clear_value x36
    refine inv_step ?_ (countConv_frame _ _ _ _) (by decide)
    assumption

theorem startPack_inv (p : Play) (tile : Nat) (m : QMove) (s : State) (h_s : Machine.Inv s) :
    startAll Machine.Inv (startPack p tile m s) := by
  unfold startPack
  extract_lets x0 x1 x2 x3
  clear_value x0 x1 x2 x3
  split
  · rename_i v4
    change Machine.Inv _
    assumption
  · rename_i v5
    split
    · rename_i v6
      change Machine.Inv _
      assumption
    · rename_i v7
      split
      · rename_i v8
        split
        · rename_i v9
          change Machine.Inv _
          assumption
        · rename_i v10
          split
          · rename_i v11
            trivial
          · rename_i v12
            change Machine.Inv _
            refine inv_fold ?_ (fun u13 y14 h15 => ?_)
            · assumption
            · refine packSquare_inv _ _ _ _ _ ?_
              assumption
      · rename_i v16
        split
        · rename_i v17
          change Machine.Inv _
          assumption
        · rename_i v18
          split
          · rename_i v19
            trivial
          · rename_i v20
            change Machine.Inv _
            refine inv_fold ?_ (fun u21 y22 h23 => ?_)
            · assumption
            · refine packSquare_inv _ _ _ _ _ ?_
              assumption

theorem unitRead_inv (p : Play) (tile : Nat) (f : MoveFault) (a : Nat) (s : State) (h_s : Machine.Inv s) :
    unitAll Machine.Inv (unitRead p tile f a s) := by
  unfold unitRead
  generalize spaceOf a = z
  generalize hintResolve s a = y
  cases z
  case near =>
    dsimp only
    split
    · exact h_s
    · have c := inv_stepOptSnd h_s (cacheRead_frame s tile (a / 128)) (by decide)
      generalize cacheRead s tile (a / 128) = r at c
      cases r with
      | some x => exact c
      | none =>
        have k := inv_stepUnit h_s (nearUnit_frame p s a) (by decide)
        generalize nearUnit p s a = r at k
        cases r with
        | ok d t => exact inv_step (t := t) k (cacheFill_frame _ _ _ _) (by decide)
        | stop st t => exact k
        | bad t => exact k
  case rim =>
    dsimp only
    split
    · show Machine.Inv _
      split
      · exact rimAt_inv _ _ _ _ h_s
      · exact h_s
    · exact h_s
  case hint =>
    cases y
    case near b =>
      have k := inv_stepUnit h_s (nearUnit_frame p s b) (by decide)
      dsimp only
      generalize nearUnit p s b = r at k
      cases r <;> exact k
    case host =>
      dsimp only
      split
      · exact inv_step h_s (hostFault_frame _ _ _ _) (by decide)
      · exact h_s
    case none => exact h_s
  all_goals exact h_s

theorem unitWrite_inv (p : Play) (tile : Nat) (f : MoveFault) (a : Nat) (d : List Byte) (s : State) (h_s : Machine.Inv s) :
    unitAll Machine.Inv (unitWrite p tile f a d s) := by
  have w (b : Nat) : Machine.Inv (writeBytes b d s) := writeBytes_inv _ _ _ h_s
  have u (b : Nat) : Machine.Inv (writeBytes b d (unpoison b 128 s)) := writeBytes_inv _ _ _ (inv_step h_s (unpoison_frame _ _ _) (by decide))
  unfold unitWrite
  generalize spaceOf a = z
  generalize hintResolve s a = y
  cases z
  case near =>
    dsimp only
    split
    · exact h_s
    · exact inv_step (u a) (cacheUpdate_frame _ _ _ _) (by decide)
  case hint =>
    cases y
    case near b =>
      dsimp only
      split
      · exact h_s
      · exact u b
    case host =>
      dsimp only
      split
      · exact inv_step h_s (hostFault_frame _ _ _ _) (by decide)
      · exact inv_step h_s (hostWrite_frame _ _ _ _) (by decide)
    case none => exact h_s
  all_goals exact w a

theorem copyUnits_inv (p : Play) (tile : Nat) (m : QMove) (a : List (Nat × Nat)) (a' : List (Nat × Nat × List Byte)) (a'' : State) (h_a'' :
    Machine.Inv a'') :
    unitAll Machine.Inv (copyUnits p tile m a a' a'') := by
  induction a generalizing p tile m a' a'' h_a''
  · unfold copyUnits
    change Machine.Inv _
    assumption
  · rename_i w0 w1 ih
    unfold copyUnits
    extract_lets x2
    clear_value x2
    split
    · rename_i v3 v4 v5 v6 v7
      refine absorb (P := unitAll Machine.Inv) v7 ?_ (fun q8 => ?_)
      · refine unitRead_inv _ _ _ _ _ ?_
        assumption
      split
      · rename_i v9 v10 v11 v12
        refine absorb (P := unitAll Machine.Inv) v12 ?_ (fun q13 => ?_)
        · refine unitWrite_inv _ _ _ _ _ _ ?_
          assumption
        refine ih _ _ _ _ _ ?_
        assumption
      · rename_i v14 v15 v16 v17
        refine absorb (P := unitAll Machine.Inv) v17 ?_ (fun q18 => ?_)
        · refine unitWrite_inv _ _ _ _ _ _ ?_
          assumption
        change Machine.Inv _
        assumption
      · rename_i v19 v20 v21
        refine absorb (P := unitAll Machine.Inv) v21 ?_ (fun q22 => ?_)
        · refine unitWrite_inv _ _ _ _ _ _ ?_
          assumption
        change Machine.Inv _
        assumption
    · rename_i v23 v24 v25 v26
      refine absorb (P := unitAll Machine.Inv) v26 ?_ (fun q27 => ?_)
      · refine unitRead_inv _ _ _ _ _ ?_
        assumption
      change Machine.Inv _
      assumption
    · rename_i v28 v29 v30
      refine absorb (P := unitAll Machine.Inv) v30 ?_ (fun q31 => ?_)
      · refine unitRead_inv _ _ _ _ _ ?_
        assumption
      change Machine.Inv _
      assumption

theorem rawWrite_inv (tile : Nat) (a : Nat) (d : List Byte) (s : State) (h_s : Machine.Inv s) : Machine.Inv (rawWrite tile a d s) := by
  have w (b : Nat) : Machine.Inv (writeBytes b d s) := writeBytes_inv _ _ _ h_s
  unfold rawWrite
  generalize spaceOf a = z
  generalize hintResolve s a = y
  cases z
  case near => exact inv_step (w a) (cacheUpdate_frame _ _ _ _) (by decide)
  case hint =>
    cases y
    case near b => exact w b
    case host => exact inv_step h_s (hostWrite_frame _ _ _ _) (by decide)
    case none => exact h_s
  all_goals exact w a

theorem freeUnit_inv (tile : Nat) (a : Nat) (s : State) (h_s : Machine.Inv s) :
    Machine.Inv (freeUnit tile a s) := by
  unfold freeUnit
  split
  · rename_i v0 v1 v2 v3
    refine absorb (P := sndAll Machine.Inv) v3 ?_ (fun q4 => ?_)
    · refine inv_stepSnd ?_ (drawBytes_frame _ _) (by decide)
      assumption
    refine rawWrite_inv _ _ _ _ ?_
    assumption

theorem freeOverlap_inv (s0 : State) (p : Play) (tile : Nat) (w : MoveWord) (s : State) (h_s : Machine.Inv s) :
    Machine.Inv (freeOverlap s0 p tile w s) := by
  unfold freeOverlap
  extract_lets x0
  clear_value x0
  refine inv_fold ?_ (fun u1 y2 h3 => ?_)
  · assumption
  · refine inv_ite ?_ ?_
    · refine freeUnit_inv _ _ _ ?_
      assumption
    · assumption

theorem settleUnit_inv (tile : Nat) (hit : List Nat) (x : Nat × Nat × List Byte) (s : State) (h_s : Machine.Inv s) :
    Machine.Inv (settleUnit tile hit x s) := by
  unfold settleUnit
  split
  · rename_i v0 v1 v2 v3
    extract_lets x4
    clear_value x4
    refine inv_ite ?_ ?_
    · refine freeUnit_inv _ _ _ ?_
      assumption
    · refine inv_ite ?_ ?_
      · assumption
      · split
        · rename_i v5 v6 v7 v8
          refine absorb (P := sndAll Machine.Inv) v8 ?_ (fun q9 => ?_)
          · refine inv_stepSnd ?_ (draw_frame _) (by decide)
            assumption
          refine inv_ite ?_ ?_
          · refine rawWrite_inv _ _ _ _ ?_
            refine inv_ite ?_ ?_
            · refine inv_step ?_ (cacheUpdate_frame _ _ _ _) (by decide)
              assumption
            · assumption
          · assumption

theorem settleMove_inv (tile : Nat) (m : QMove) (s : State) (h_s : Machine.Inv s) : Machine.Inv (settleMove tile m s) :=
  underPlace_inv h_s fun _ h => inv_fold h fun _ _ k => settleUnit_inv _ _ _ _ k

theorem runMove_inv (p : Play) (tile : Nat) (m : QMove) (s : State) (h_s : Machine.Inv s) : startAll Machine.Inv (runMove p tile m s) := by
  have h : Machine.Inv { s with hints := m.place } := inv_lit h_s rfl
  unfold runMove
  dsimp only
  refine startAll_mapState (P := Machine.Inv) ?_ fun u k => inv_lit k rfl
  split
  · trivial
  · split
    · exact h
    · have c := copyUnits_inv p tile m (moveUnits m.word) [] _ h
      split
      · rename_i took t e
        rw [e] at c
        exact freeOverlap_inv _ _ _ _ _ c
      · rename_i st t e
        rw [e] at c
        exact c
      · rename_i t e
        rw [e] at c
        exact c

theorem faultMove_inv {s : State} (p : Play) (tile : Nat) (m : QMove) {lose : Nat → State → Start} (hs : Machine.Inv s)
    (hf : ∀ c u, Machine.Inv u → startAll Machine.Inv (lose c u)) : startAll Machine.Inv (faultMove p tile m s lose) := by
  unfold faultMove
  split
  · rename_i a b e
    have x := inv_step hs (xingRecordFor_frame p.origin p.id p.step a b false s) (by decide)
    dsimp only
    split
    · exact runMove_inv _ _ _ _ x
    · exact hf _ _ x
  · rename_i pl w e
    have x : Machine.Inv (parityMeets pl w p.origin p.id p.step s).2 := parityMeets_inv _ _ _ _ _ _ hs
    dsimp only
    split
    · exact runMove_inv _ _ _ _ x
    · split
      · exact hf _ _ x
      · exact x
  · exact runMove_inv _ _ _ _ hs

theorem startMove_inv (p : Play) (tile : Nat) (m : QMove) (s : State) (h_s : Machine.Inv s) :
    startAll Machine.Inv (startMove p tile m s) := by
  unfold startMove
  extract_lets x0
  clear_value x0
  split
  · rename_i v1 v2 v3
    change Machine.Inv _
    assumption
  · rename_i v4 v5
    refine faultMove_inv _ _ _ ?_ ?_
    · assumption
    · intro a6
      intro a7
      intro a8
      change Machine.Inv _
      assumption

theorem replayMove_inv (p : Play) (tile : Nat) (m : QMove) (f : MoveFault) (s : State) (h_s : Machine.Inv s) :
    startAll Machine.Inv (replayMove p tile m f s) := by
  unfold replayMove
  split
  · rename_i v0 v1 v2 v3
    refine absorb (P := startAll Machine.Inv) v3 ?_ (fun q4 => ?_)
    · refine faultMove_inv _ _ _ ?_ ?_
      · assumption
      · intro a5
        intro a6
        intro a7
        change Machine.Inv _
        assumption
    change Machine.Inv _
    refine inv_step ?_ (record_frame _ _ _ _ _ _ _ _ _ _) (by decide)
    assumption
  · rename_i v8 v9
    refine faultMove_inv _ _ _ ?_ ?_
    · assumption
    · intro a10
      intro a11
      intro a12
      change Machine.Inv _
      assumption

theorem serveAper_inv (s : State) (h_s : Machine.Inv s) :
    Machine.Inv (serveAper s) := by
  unfold serveAper
  refine inv_ite ?_ ?_
  · assumption
  · refine inv_step ?_ (noteAll_frame _) (by decide)
    refine inv_fold ?_ (fun u0 y1 h2 => ?_)
    · refine inv_step ?_ (only_host (OnlyChanges.refl _ _) _ (fun _ hp => hp)) (by decide)
      assumption
    · refine inv_ite ?_ ?_
      · assumption
      · refine nearWriteFor_inv _ _ _ _ _ ?_
        assumption

theorem crossArrive_inv (x : Source × MeshItem) (t : Transit) (s : State) (h_s : Machine.Inv s) :
    arrAll Machine.Inv (crossArrive x t s) := by
  unfold crossArrive
  split
  · rename_i v0
    change Machine.Inv _
    refine inv_step ?_ (losePacket_frame _ _ _) (by decide)
    assumption
  · rename_i v1
    split
    · rename_i v2 v3 v4 v5 v6
      split
      · rename_i v7
        change Machine.Inv _
        assumption
      · rename_i v8 v9 v10
        change Machine.Inv _
        refine inv_step ?_ (losePacket_frame _ _ _) (by decide)
        refine inv_step ?_ (xingRecordFor_frame _ _ _ _ _ _ _) (by decide)
        assumption
      · rename_i v11 v12 v13
        split
        · rename_i v14 v15 v16 v17
          refine absorb (P := sndAll Machine.Inv) v17 ?_ (fun q18 => ?_)
          · refine parityMeets_inv _ _ _ _ _ _ ?_
            assumption
          split
          · rename_i v19
            change Machine.Inv _
            refine inv_step ?_ (losePacket_frame _ _ _) (by decide)
            assumption
          · rename_i v20
            change Machine.Inv _
            assumption

theorem meshArrive_inv (x : MeshItem) (t : Transit) (s : State) (h_s : Machine.Inv s) :
    arrAll Machine.Inv (meshArrive x t s) := by
  unfold meshArrive
  split
  · rename_i v0 v1
    refine absorb (P := optSndAll Machine.Inv) v1 ?_ (fun q2 => ?_)
    · refine inv_stepOptSnd ?_ (meshTake_frame _ _) (by decide)
      assumption
    trivial
  · rename_i v3 v4 v5 v6
    refine absorb (P := optSndAll Machine.Inv) v6 ?_ (fun q7 => ?_)
    · refine inv_stepOptSnd ?_ (meshTake_frame _ _) (by decide)
      assumption
    refine crossArrive_inv _ _ _ ?_
    assumption

theorem packetArrive_inv (own : Bool) (shape : Nat × Nat) (rts : Nat) (x : MeshItem) (t : Transit) (s : State) (h_s : Machine.Inv s) :
    arrAll Machine.Inv (packetArrive own shape rts x t s) := by
  unfold packetArrive
  split
  · rename_i v0
    refine meshArrive_inv _ _ _ ?_
    assumption
  · rename_i v1
    split
    · rename_i v2 v3 v4
      refine absorb (P := optAll Machine.Inv) v4 ?_ (fun q5 => ?_)
      · refine inv_stepOpt ?_ (takeItem_frame _ _ _ _) (by decide)
        assumption
      refine crossArrive_inv _ _ _ ?_
      assumption
    · rename_i v6 v7
      refine absorb (P := optAll Machine.Inv) v7 ?_ (fun q8 => ?_)
      · refine inv_stepOpt ?_ (takeItem_frame _ _ _ _) (by decide)
        assumption
      trivial

theorem storeWrite_inv (tile : Nat) (off : Nat) (l : List Byte) (s : State) (h_s : Machine.Inv s) :
    Machine.Inv (storeWrite tile off l s) := by
  unfold storeWrite
  refine writeBytes_inv _ _ _ ?_
  assumption

theorem finishExpert_inv (x : Exchange) (m : MapEntry) (e : XExpert) (s : State) (h_s : Machine.Inv s) :
    Machine.Inv (finishExpert x m e s) := by
  unfold finishExpert
  extract_lets x0 x1 x2
  have h3 : Machine.Inv x2 := by
    unfold x2
    refine storeWrite_inv _ _ _ _ ?_
    assumption
  clear_value x0 x1 x2
  refine inv_step ?_ (outerTie_frame _ _ _) (by decide)
  refine inv_step ?_ (noteAll_frame _) (by decide)
  assumption

theorem tryFinish_inv (x : Exchange) (e : Nat) (s : State) (h_s : Machine.Inv s) :
    Machine.Inv (tryFinish x e s) := by
  unfold tryFinish
  split
  · rename_i v0 v1
    assumption
  · rename_i v2 v3 v4
    split
    · rename_i v5 v6 v7 v8 v9 v10
      refine inv_ite ?_ ?_
      · refine finishExpert_inv _ _ _ _ ?_
        refine inv_step ?_ (setX_frame _ _) (by decide)
        assumption
      · assumption
    · rename_i v11 v12 v13
      assumption

theorem finishSquare_inv (x : Exchange) (fmt : Nat) (rowl : Nat) (gr : Nat) (m : MapEntry) (e : XExpert) (s : State) (k : Nat) (h_s : Machine.Inv s) :
    Machine.Inv (finishSquare x fmt rowl gr m e s k) := by
  unfold finishSquare
  extract_lets x0 x1 x2 x3
  clear_value x0 x1 x2 x3
  split
  · rename_i v4 v5
    assumption
  · rename_i v6 v7 v8
    extract_lets x9 x10 x11 x12
    have h13 : Machine.Inv x9 := by
      unfold x9
      refine inv_fold ?_ (fun u14 y15 h16 => ?_)
      · assumption
      · extract_lets x17
        have h18 : Machine.Inv x17 := by
          unfold x17
          refine sqWriteLine_inv _ _ _ _ _ ?_
          assumption
        clear_value x17
        refine inv_ite ?_ ?_
        · refine busWrite_inv _ _ _ ?_
          assumption
        · assumption
    have h19 : Machine.Inv x10 := by
      unfold x10
      refine inv_ite ?_ ?_
      · refine inv_fold ?_ (fun u20 y21 h22 => ?_)
        · assumption
        · extract_lets x23 x24 x25 x26
          clear_value x23 x24 x25 x26
          refine inv_ite ?_ ?_
          · assumption
          · split
            · rename_i v27 v28 v29 v30
              refine inv_step ?_ (countConv_frame _ _ _ _) (by decide)
              refine sqWriteLine_inv _ _ _ _ _ ?_
              assumption
      · assumption
    have h31 : Machine.Inv x12 := by
      unfold x12
      refine sqWriteDesc_inv _ _ _ _ _ _ ?_
      assumption
    clear_value x9 x10 x11 x12
    refine inv_ite ?_ ?_
    · refine inv_ite ?_ ?_
      · split
        · rename_i v32 v33 v34
          refine nearWrite_inv _ _ _ _ ?_
          assumption
        · rename_i v35 v36
          assumption
      · assumption
    · refine sqWriteDesc_inv _ _ _ _ _ _ ?_
      assumption

theorem acceptRow_inv (x : Exchange) (shape : Nat × Nat) (m : MapEntry) (e : XExpert) (r : XRow) (s : State) (h_s : Machine.Inv s) :
    Machine.Inv (acceptRow x shape m e r s) := by
  unfold acceptRow
  split
  · rename_i v0 v1 v2
    extract_lets x3 x4 x5 x6 x7 x8
    have h9 : Machine.Inv x4 := by
      unfold x4
      refine inv_fold ?_ (fun u10 y11 h12 => ?_)
      · assumption
      · split
        · rename_i v13 v14 v15
          extract_lets x16
          have h17 : Machine.Inv x16 := by
            unfold x16
            refine sqWriteLine_inv _ _ _ _ _ ?_
            assumption
          clear_value x16
          refine inv_ite ?_ ?_
          · refine busWrite_inv _ _ _ ?_
            assumption
          · assumption
        · rename_i v18 v19
          assumption
    have h20 : Machine.Inv x6 := by
      unfold x6
      refine inv_step ?_ (setX_frame _ _) (by decide)
      assumption
    have h21 : Machine.Inv x7 := by
      unfold x7
      refine inv_ite ?_ ?_
      · refine inv_fold ?_ (fun u22 y23 h24 => ?_)
        · assumption
        · refine finishSquare_inv _ _ _ _ _ _ _ _ ?_
          assumption
      · assumption
    have h25 : Machine.Inv x8 := by
      unfold x8
      refine inv_ite ?_ ?_
      · refine inv_fold ?_ (fun u26 y27 h28 => ?_)
        · assumption
        · refine elim_of (P := Machine.Inv) ?_ (fun y29 => ?_)
          · assumption
          · refine freeBytes_inv _ _ _ ?_
            assumption
      · assumption
    clear_value x3 x4 x5 x6 x7 x8
    refine tryFinish_inv _ _ _ ?_
    assumption

theorem grantPhase_inv (x : Exchange) (s : State) (h_s : Machine.Inv s) :
    Machine.Inv (grantPhase x s) := by
  unfold grantPhase
  extract_lets x0 x1
  clear_value x0 x1
  split
  · rename_i v2
    assumption
  · rename_i v3 v4 v5
    extract_lets x6 x7 x8 x9 x10 x11 x12 x13 x14 x15 x16 x17 x18
    have h19 : Machine.Inv x14 := by
      unfold x14
      refine inv_step ?_ (setX_frame _ _) (by decide)
      assumption
    have h20 : Machine.Inv x15 := by
      unfold x15
      refine inv_ite ?_ ?_
      · refine inv_step ?_ (postX_frame _ _ _) (by decide)
        assumption
      · assumption
    have h21 : Machine.Inv x16 := by
      unfold x16
      refine inv_ite ?_ ?_
      · refine inv_step ?_ (postX_frame _ _ _) (by decide)
        assumption
      · assumption
    have h22 : Machine.Inv x17 := by
      unfold x17
      refine inv_ite ?_ ?_
      · refine inv_step ?_ (postX_frame _ _ _) (by decide)
        assumption
      · assumption
    have h23 : Machine.Inv x18 := by
      unfold x18
      refine inv_fold ?_ (fun u24 y25 h26 => ?_)
      · assumption
      · split
        · rename_i v27 v28 v29
          refine inv_fold ?_ (fun u30 y31 h32 => ?_)
          · assumption
          · split
            · rename_i v33 v34 v35
              refine inv_step ?_ (sendItem_frame _ _ _ _ _ _) (by decide)
              assumption
    clear_value x6 x7 x8 x9 x10 x11 x12 x13 x14 x15 x16 x17 x18
    refine inv_fold ?_ (fun u36 y37 h38 => ?_)
    · assumption
    · split
      · rename_i v39 v40 v41
        refine tryFinish_inv _ _ _ ?_
        assumption

theorem execXchCount_inv (c : XCount) (t : Transit) (s : State) (h_s : Machine.Inv s) :
    outAll Machine.Inv (execXchCount c t s) := by
  unfold execXchCount
  split
  · rename_i v0
    change Machine.Inv _
    assumption
  · rename_i v1
    extract_lets x2
    clear_value x2
    split
    · rename_i v3 v4
      refine absorb (P := arrAll Machine.Inv) v4 ?_ (fun q5 => ?_)
      · refine packetArrive_inv _ _ _ _ _ _ ?_
        assumption
      change Machine.Inv _
      assumption
    · rename_i v6 v7 v8
      refine absorb (P := arrAll Machine.Inv) v8 ?_ (fun q9 => ?_)
      · refine packetArrive_inv _ _ _ _ _ _ ?_
        assumption
      change Machine.Inv _
      assumption
    · rename_i v10 v11 v12 v13
      refine absorb (P := arrAll Machine.Inv) v13 ?_ (fun q14 => ?_)
      · refine packetArrive_inv _ _ _ _ _ _ ?_
        assumption
      split
      · rename_i v15 v16
        change Machine.Inv _
        assumption
      · rename_i v17 v18 v19
        split
        · rename_i v20
          change Machine.Inv _
          assumption
        · rename_i v21
          extract_lets x22
          clear_value x22
          change Machine.Inv _
          refine inv_ite ?_ ?_
          · refine grantPhase_inv _ _ ?_
            assumption
          · refine inv_step ?_ (setX_frame _ _) (by decide)
            assumption

theorem execXchGrant_inv (g : XGrant) (t : Transit) (s : State) (h_s : Machine.Inv s) :
    outAll Machine.Inv (execXchGrant g t s) := by
  unfold execXchGrant
  extract_lets x0
  clear_value x0
  split
  · rename_i v1 v2
    refine absorb (P := arrAll Machine.Inv) v2 ?_ (fun q3 => ?_)
    · refine packetArrive_inv _ _ _ _ _ _ ?_
      assumption
    change Machine.Inv _
    assumption
  · rename_i v4 v5 v6
    refine absorb (P := arrAll Machine.Inv) v6 ?_ (fun q7 => ?_)
    · refine packetArrive_inv _ _ _ _ _ _ ?_
      assumption
    change Machine.Inv _
    assumption
  · rename_i v8 v9 v10 v11
    refine absorb (P := arrAll Machine.Inv) v11 ?_ (fun q12 => ?_)
    · refine packetArrive_inv _ _ _ _ _ _ ?_
      assumption
    split
    · rename_i v13 v14
      change Machine.Inv _
      assumption
    · rename_i v15 v16 v17
      split
      · rename_i v18
        change Machine.Inv _
        assumption
      · rename_i v19
        split
        · rename_i v20 v21
          change Machine.Inv _
          assumption
        · rename_i v22 v23 v24
          extract_lets x25 x26
          clear_value x25 x26
          change Machine.Inv _
          refine inv_step ?_ (sendRows_frame _ _ _ _) (by decide)
          refine inv_step ?_ (setX_frame _ _) (by decide)
          assumption

theorem execXchRow_inv (r : XRow) (t : Transit) (s : State) (h_s : Machine.Inv s) :
    outAll Machine.Inv (execXchRow r t s) := by
  unfold execXchRow
  split
  · rename_i v0
    change Machine.Inv _
    assumption
  · rename_i v1
    extract_lets x2
    clear_value x2
    split
    · rename_i v3 v4
      refine absorb (P := arrAll Machine.Inv) v4 ?_ (fun q5 => ?_)
      · refine packetArrive_inv _ _ _ _ _ _ ?_
        assumption
      change Machine.Inv _
      assumption
    · rename_i v6 v7 v8
      refine absorb (P := arrAll Machine.Inv) v8 ?_ (fun q9 => ?_)
      · refine packetArrive_inv _ _ _ _ _ _ ?_
        assumption
      change Machine.Inv _
      assumption
    · rename_i v10 v11 v12 v13
      refine absorb (P := arrAll Machine.Inv) v13 ?_ (fun q14 => ?_)
      · refine packetArrive_inv _ _ _ _ _ _ ?_
        assumption
      split
      · rename_i v15 v16
        change Machine.Inv _
        assumption
      · rename_i v17 v18 v19
        split
        · rename_i v20 v21 v22 v23 v24 v25 v26 v27 v28
          split
          · rename_i v29
            change Machine.Inv _
            assumption
          · rename_i v30
            extract_lets x31
            clear_value x31
            split
            · rename_i v32
              change Machine.Inv _
              refine acceptRow_inv _ _ _ _ _ _ ?_
              assumption
            · rename_i v33
              change Machine.Inv _
              assumption
        · rename_i v34 v35 v36 v37
          change Machine.Inv _
          assumption

theorem combineWrite_inv (p : Play) (tile : Nat) (m : QMove) (x : Exchange) (s : State) (h_s : Machine.Inv s) :
    Machine.Inv (combineWrite p tile m x s) := by
  unfold combineWrite
  extract_lets x0 x1 x2 x3 x4 x5 x6 x7 x8 x9 x10 x11 x12 x13 x14
  have h15 : Machine.Inv x10 := by
    unfold x10
    refine inv_fold ?_ (fun u16 y17 h18 => ?_)
    · assumption
    · split
      · rename_i v19 v20 v21
        refine inv_fold ?_ (fun u22 y23 h24 => ?_)
        · assumption
        · split
          · rename_i v25 v26 v27
            refine inv_step ?_ (countConv_frame _ _ _ _) (by decide)
            refine sqWriteLine_inv _ _ _ _ _ ?_
            assumption
  have h28 : Machine.Inv x11 := by
    unfold x11
    refine inv_ite ?_ ?_
    · assumption
    · refine inv_fold ?_ (fun u29 y30 h31 => ?_)
      · assumption
      · refine padLines_inv _ _ _ _ ?_
        assumption
  have h32 : Machine.Inv x13 := by
    unfold x13
    refine inv_fold ?_ (fun u33 y34 h35 => ?_)
    · assumption
    · extract_lets x36
      clear_value x36
      refine writeN_inv _ _ _ _ ?_
      assumption
  clear_value x0 x1 x2 x3 x4 x5 x6 x7 x8 x9 x10 x11 x12 x13 x14
  refine inv_step ?_ (noteAll_frame _) (by decide)
  refine inv_step ?_ (setX_frame _ _) (by decide)
  assumption

theorem startCombine_inv (p : Play) (tile : Nat) (m : QMove) (s : State) (h_s : Machine.Inv s) :
    startAll Machine.Inv (startCombine p tile m s) := by
  unfold startCombine
  extract_lets x0 x1
  clear_value x0 x1
  split
  · rename_i v2 v3 v4
    change Machine.Inv _
    assumption
  · rename_i v5 v6
    split
    · rename_i v7 v8
      change Machine.Inv _
      assumption
    · rename_i v9 v10 v11
      split
      · rename_i v12
        change Machine.Inv _
        assumption
      · rename_i v13
        extract_lets x14 x15
        have h16 : Machine.Inv x15 := by
          unfold x15
          refine inv_fold ?_ (fun u17 y18 h19 => ?_)
          · refine inv_step ?_ (setX_frame _ _) (by decide)
            assumption
          · split
            · rename_i v20 v21 v22
              refine inv_step ?_ (sendItem_frame _ _ _ _ _ _) (by decide)
              assumption
            · rename_i v23 v24
              assumption
        clear_value x14 x15
        split
        · rename_i v25
          change Machine.Inv _
          refine combineWrite_inv _ _ _ _ _ ?_
          assumption
        · rename_i v26
          change Machine.Inv _
          assumption

theorem execFetch_inv (f : XFetch) (t : Transit) (s : State) (h_s : Machine.Inv s) :
    outAll Machine.Inv (execFetch f t s) := by
  unfold execFetch
  extract_lets x0
  clear_value x0
  split
  · rename_i v1 v2
    refine absorb (P := arrAll Machine.Inv) v2 ?_ (fun q3 => ?_)
    · refine packetArrive_inv _ _ _ _ _ _ ?_
      assumption
    change Machine.Inv _
    assumption
  · rename_i v4 v5 v6
    refine absorb (P := arrAll Machine.Inv) v6 ?_ (fun q7 => ?_)
    · refine packetArrive_inv _ _ _ _ _ _ ?_
      assumption
    change Machine.Inv _
    assumption
  · rename_i v8 v9 v10 v11
    refine absorb (P := arrAll Machine.Inv) v11 ?_ (fun q12 => ?_)
    · refine packetArrive_inv _ _ _ _ _ _ ?_
      assumption
    split
    · rename_i v13 v14
      change Machine.Inv _
      assumption
    · rename_i v15 v16 v17
      split
      · rename_i v18
        change Machine.Inv _
        assumption
      · rename_i v19
        change Machine.Inv _
        refine inv_step ?_ (serveFetches_frame _) (by decide)
        refine inv_step ?_ (setX_frame _ _) (by decide)
        assumption

theorem execResult_inv (r : XResult) (t : Transit) (s : State) (h_s : Machine.Inv s) :
    outAll Machine.Inv (execResult r t s) := by
  unfold execResult
  extract_lets x0
  clear_value x0
  split
  · rename_i v1 v2
    refine absorb (P := arrAll Machine.Inv) v2 ?_ (fun q3 => ?_)
    · refine packetArrive_inv _ _ _ _ _ _ ?_
      assumption
    change Machine.Inv _
    assumption
  · rename_i v4 v5 v6
    refine absorb (P := arrAll Machine.Inv) v6 ?_ (fun q7 => ?_)
    · refine packetArrive_inv _ _ _ _ _ _ ?_
      assumption
    change Machine.Inv _
    assumption
  · rename_i v8 v9 v10 v11
    refine absorb (P := arrAll Machine.Inv) v11 ?_ (fun q12 => ?_)
    · refine packetArrive_inv _ _ _ _ _ _ ?_
      assumption
    split
    · rename_i v13 v14
      change Machine.Inv _
      assumption
    · rename_i v15 v16 v17
      split
      · rename_i v18
        change Machine.Inv _
        assumption
      · rename_i v19
        split
        · rename_i v20 v21
          change Machine.Inv _
          assumption
        · rename_i v22 v23 v24 v25
          extract_lets x26 x27
          have h28 : Machine.Inv x27 := by
            unfold x27
            refine inv_step ?_ (setX_frame _ _) (by decide)
            assumption
          clear_value x26 x27
          split
          · rename_i v29
            change Machine.Inv _
            refine inv_step ?_ (markReady_frame _ _ _ _) (by decide)
            refine combineWrite_inv _ _ _ _ _ ?_
            assumption
          · rename_i v30
            change Machine.Inv _
            assumption

theorem opXchSet_inv (p : Packet) (s : State) (h_s : Machine.Inv s) :
    Machine.Inv (opXchSet p s) := by
  unfold opXchSet
  refine inv_ite ?_ ?_
  · refine inv_step ?_ (refuse_frame _ _ _) (by decide)
    assumption
  · extract_lets x0 x1
    clear_value x0 x1
    refine inv_ite ?_ ?_
    · refine inv_step ?_ (refuse_frame _ _ _) (by decide)
      assumption
    · refine inv_ite ?_ ?_
      · refine inv_step ?_ (refuse_frame _ _ _) (by decide)
        assumption
      · refine inv_ite ?_ ?_
        · refine inv_step ?_ (refuse_frame _ _ _) (by decide)
          assumption
        · split
          · rename_i v2 v3 v4 v5
            extract_lets x6 x7 x8 x9 x10 x11
            have h12 : Machine.Inv x10 := by
              unfold x10
              refine inv_step ?_ (setX_frame _ _) (by decide)
              assumption
            have h13 : Machine.Inv x11 := by
              unfold x11
              refine inv_ite ?_ ?_
              · refine inv_step ?_ (postX_frame _ _ _) (by decide)
                assumption
              · assumption
            clear_value x6 x7 x8 x9 x10 x11
            refine inv_step ?_ (accept_frame _ _) (by decide)
            refine inv_fold ?_ (fun u14 y15 h16 => ?_)
            · assumption
            · split
              · rename_i v17 v18 v19
                refine tryFinish_inv _ _ _ ?_
                assumption
          · rename_i v20 v21 v22 v23
            refine inv_step ?_ (accept_frame _ _) (by decide)
            refine inv_step ?_ (setX_frame _ _) (by decide)
            assumption

theorem opXchGet_inv (p : Packet) (s : State) (h_s : Machine.Inv s) :
    Machine.Inv (opXchGet p s) := by
  unfold opXchGet
  extract_lets x0 x1 x2
  clear_value x0 x1 x2
  refine inv_ite ?_ ?_
  · refine inv_step ?_ (refuse_frame _ _ _) (by decide)
    assumption
  · refine inv_ite ?_ ?_
    · refine inv_step ?_ (refuse_frame _ _ _) (by decide)
      assumption
    · refine inv_step ?_ (accept_frame _ _) (by decide)
      refine destWrite_inv _ _ _ _ ?_
      assumption

theorem freeDest_inv (d : Nat × Nat × Nat × Option Nat) (s : State) (h_s : Machine.Inv s) :
    Machine.Inv (freeDest d s) := by
  unfold freeDest
  split
  · rename_i v0 v1 v2 v3 v4
    refine inv_ite ?_ ?_
    · refine inv_ite ?_ ?_
      · refine inv_fold ?_ (fun u5 y6 h7 => ?_)
        · assumption
        · refine inv_ite ?_ ?_
          · assumption
          · split
            · rename_i v8 v9 v10 v11
              refine absorb (P := sndAll Machine.Inv) v11 ?_ (fun q12 => ?_)
              · refine inv_stepSnd ?_ (drawBytes_frame _ _) (by decide)
                assumption
              extract_lets x13
              have h14 : Machine.Inv x13 := by
                unfold x13
                refine writeBytes_inv _ _ _ ?_
                assumption
              clear_value x13
              refine elim_of (P := Machine.Inv) ?_ (fun y15 => ?_)
              · assumption
              · refine inv_step ?_ (cacheUpdate_frame _ _ _ _) (by decide)
                assumption
      · refine freeBytes_inv _ _ _ ?_
        assumption
    · refine inv_step ?_ (freeHost_frame _ _ _ _) (by decide)
      assumption

theorem freeDests_inv (p : Play) (s : State) (h_s : Machine.Inv s) :
    Machine.Inv (freeDests p s) := by
  unfold freeDests
  refine inv_fold ?_ (fun u0 y1 h2 => ?_)
  · assumption
  · refine freeDest_inv _ _ ?_
    assumption

theorem laneStart_inv (p : Play) (tile : Nat) (m : QMove) (s : State) (r : Start) (hs : Inv s) (hr : startAll Inv r) :
    startAll Inv (laneStart p tile m s r) := by
  unfold laneStart
  dsimp only
  split
  · exact inv_step hr (laneResidue_frame _ _ _ _ _ _ _) (by decide)
  · exact inv_step hr (laneResidue_frame _ _ _ _ _ _ _) (by decide)
  · exact inv_step (inv_step hs (laneResidue_frame _ _ _ _ _ _ _) (by decide)) (suspectTile_frame _ _ _) (by decide)
  · exact inv_step (inv_step hs (laneResidue_frame _ _ _ _ _ _ _) (by decide)) (suspectTile_frame _ _ _) (by decide)
  · exact hr

theorem parityStart_inv {s : State} (p : Play) (m : QMove) {f : State → Start} (hs : Machine.Inv s)
    (hf : ∀ u, Machine.Inv u → startAll Machine.Inv (f u)) : startAll Machine.Inv (parityStart p m f s) := by
  have r := hf s hs
  have meet (pl : ParityPlace) (w : DataWord) : startAll Machine.Inv
      (if (parityMeets pl w p.origin p.id p.step s).1 then .fault 1 (parityMeets pl w p.origin p.id p.step s).2
       else f (parityMeets pl w p.origin p.id p.step s).2) := by
    have x : Machine.Inv (parityMeets pl w p.origin p.id p.step s).2 := parityMeets_inv _ _ _ _ _ _ hs
    split
    · exact x
    · exact hf _ x
  unfold parityStart
  dsimp only
  split
  · rename_i e
    rw [e] at r
    split
    · exact r
    · exact meet _ _
  · rename_i e
    rw [e] at r
    split
    · exact r
    · exact meet _ _
  · exact r

theorem startMoveOf_inv (p : Play) (tile : Nat) (code : Nat) (m : QMove) (s : State) (h_s : Machine.Inv s) :
    startAll Machine.Inv (startMoveOf p tile code m s) := by
  unfold startMoveOf
  split
  · rename_i v0
    change Machine.Inv _
    assumption
  · rename_i v1
    split
    · rename_i v2 v3
      refine inv_stepStart ?_ (startTie_frame _ _ _ _ _) (by decide)
      assumption
    · rename_i v4 v5
      refine inv_stepStart ?_ (startWait_frame _ _ _) (by decide)
      assumption
    · rename_i v6 v7
      refine inv_stepStart ?_ (startKset_frame _ _ _) (by decide)
      assumption
    · rename_i v8 v9
      refine inv_stepStart ?_ (startIframe_frame _ _ _ _ _) (by decide)
      assumption
    · rename_i v10 v11
      refine inv_stepStart ?_ (startLoadw_frame _ _ _) (by decide)
      assumption
    · rename_i v12 v13
      refine inv_stepStart ?_ (startSwapw_frame _ _ _) (by decide)
      assumption
    · rename_i v14 v15
      refine startStream_inv _ _ _ ?_
      assumption
    · rename_i v16 v17
      refine startElem_inv _ _ _ _ ?_
      assumption
    · rename_i v18 v19
      refine inv_stepStart ?_ (startGroup_frame _ _ _ _ _) (by decide)
      assumption
    · rename_i v20 v21
      refine inv_stepStart ?_ (startGroup_frame _ _ _ _ _) (by decide)
      assumption
    · rename_i v22 v23
      refine inv_stepStart ?_ (startGroup_frame _ _ _ _ _) (by decide)
      assumption
    · rename_i v24 v25
      refine startTopk_inv _ _ _ _ ?_
      assumption
    · rename_i v26 v27
      refine startGather_inv _ _ _ _ _ ?_
      assumption
    · rename_i v28 v29
      refine startGather_inv _ _ _ _ _ ?_
      assumption
    · rename_i v30 v31
      refine startGather_inv _ _ _ _ _ ?_
      assumption
    · rename_i v32 v33
      refine startPack_inv _ _ _ _ ?_
      assumption
    · rename_i v34 v35
      refine inv_stepStart ?_ (startGroup_frame _ _ _ _ _) (by decide)
      assumption
    · rename_i v36 v37
      refine startMove_inv _ _ _ _ ?_
      assumption
    · rename_i v38 v39
      refine inv_stepStart ?_ (startInval_frame _ _ _) (by decide)
      assumption
    · rename_i v40 v41
      refine inv_stepStart ?_ (startDispatch_frame _ _ _ _) (by decide)
      assumption
    · rename_i v42 v43
      refine startCombine_inv _ _ _ _ ?_
      assumption
    · rename_i v44 v45 v46 v47 v48 v49 v50 v51 v52 v53 v54 v55 v56 v57 v58 v59 v60 v61 v62 v63 v64 v65
      change Machine.Inv _
      assumption

theorem startAny_inv (p : Play) (tile : Nat) (code : Nat) (m : QMove) (s : State) (h_s : Machine.Inv s) :
    startAll Machine.Inv (startAny p tile code m s) := by
  unfold startAny
  refine parityStart_inv _ _ ?_ ?_
  · assumption
  · intro a0
    intro a1
    refine laneStart_inv _ _ _ _ _ ?_ ?_
    · assumption
    · refine startMoveOf_inv _ _ _ _ _ ?_
      assumption

theorem applyStart_inv {t : State} {p : Play} {tile code pos : Nat} {m : QMove} {r : Start} (hs : Inv t) (hr : startAll Inv r) :
    sndAll Inv (applyStart p tile code pos m r t) := by
  have note {u : State} (h : Inv u) : Inv (noteAll u) := inv_step h (noteAll_frame _) (by decide)
  have dests (d : List (Nat × Nat × Nat × Option Nat)) {u : State} (h : Inv u) : Inv (addDests p.order d u) :=
    inv_step h (addDests_frame _ _ _) (by decide)
  have start (m' : QMove) {u : State} (h : Inv u) : Inv (noteStart p.order tile m' t u) := inv_step h (noteStart_frame _ _ _ _ _) (by decide)
  unfold applyStart
  cases r with
  | hold => exact hs
  | run m' u => exact note (start _ (dests _ (inv_step hr (putMove_frame _ _ _ _ _ _) (by decide))))
  | done u =>
    have h := start m (inv_step hr (dropMove_frame p.order tile code pos u) (by decide))
    exact note (inv_step h (makeTie_frame _ _ _ _) (by decide))
  | fail st u => exact inv_step (dests _ hr) (failPlay_frame _ _ _) (by decide)
  | fault c u => exact inv_step (dests _ hr) (faultPlay_frame _ _ _ _) (by decide)

theorem pumpHead_inv (order : Nat) (tile : Nat) (code : Nat) (a : Nat) (a' : State) (h_a' : Machine.Inv a') :
    Machine.Inv (pumpHead order tile code a a') := by
  induction a generalizing order tile code a' h_a'
  · unfold pumpHead
    assumption
  · rename_i w0 ih
    unfold pumpHead
    split
    · rename_i v1 v2
      assumption
    · rename_i v3 v4 v5
      split
      · rename_i v6 v7
        assumption
      · rename_i v8 v9 v10
        split
        · rename_i v11 v12
          assumption
        · rename_i v13 v14 v15 v16
          refine inv_ite ?_ ?_
          · assumption
          · extract_lets x17
            clear_value x17
            split
            · rename_i v18 v19 v20 v21
              refine absorb (P := sndAll Machine.Inv) v21 ?_ (fun q22 => ?_)
              · refine applyStart_inv ?_ ?_
                · assumption
                · refine startAny_inv _ _ _ _ _ ?_
                  assumption
              refine inv_ite ?_ ?_
              · refine ih _ _ _ _ ?_
                assumption
              · assumption

theorem pumpArr_inv (order : Nat) (tile : Nat) (a : Nat) (a' : State) (h_a' : Machine.Inv a') :
    Machine.Inv (pumpArr order tile a a') := by
  induction a generalizing order tile a' h_a'
  · unfold pumpArr
    assumption
  · rename_i w0 ih
    unfold pumpArr
    split
    · rename_i v1 v2
      assumption
    · rename_i v3 v4 v5
      split
      · rename_i v6 v7
        assumption
      · rename_i v8 v9 v10
        split
        · rename_i v11 v12
          assumption
        · rename_i v13 v14 v15 v16
          refine inv_ite ?_ ?_
          · assumption
          · split
            · rename_i v17 v18 v19 v20
              refine absorb (P := sndAll Machine.Inv) v20 ?_ (fun q21 => ?_)
              · split
                · rename_i v22
                  refine applyStart_inv ?_ ?_
                  · assumption
                  · refine startAny_inv _ _ _ _ _ ?_
                    assumption
                · rename_i v23
                  refine inv_stepSnd ?_ (issueArr_frame _ _ _ _ _ _) (by decide)
                  assumption
              refine inv_ite ?_ ?_
              · refine ih _ _ _ ?_
                assumption
              · assumption

theorem resumeArr_inv (order : Nat) (tile : Nat) (s : State) (h_s : Machine.Inv s) :
    Machine.Inv (resumeArr order tile s) := by
  unfold resumeArr
  split
  · rename_i v0 v1
    assumption
  · rename_i v2 v3 v4
    split
    · rename_i v5 v6
      assumption
    · rename_i v7 v8 v9 v10
      refine inv_ite ?_ ?_
      · split
        · rename_i v11 v12 v13 v14
          refine absorb (P := sndAll Machine.Inv) v14 ?_ (fun q15 => ?_)
          · refine streamGo_inv _ _ _ ?_
            assumption
          refine inv_step ?_ (noteAll_frame _) (by decide)
          refine inv_step ?_ (putMove_frame _ _ _ _ _ _) (by decide)
          assumption
      · assumption

end Sys2Proof.Machine
end

