-- ==== Sys2Proof/Laws/InvRest.lean ====
section
/-! SUPPORT. The memory invariant through the commands. -/

namespace Sys2Proof.Machine

theorem pump_inv (order : Nat) (tile : Nat) (code : Nat) (s : State) (h_s : Machine.Inv s) :
    Machine.Inv (pump order tile code s) := by
  unfold pump
  refine inv_ite ?_ ?_
  · refine pumpArr_inv _ _ _ _ ?_
    refine resumeArr_inv _ _ _ ?_
    assumption
  · refine pumpHead_inv _ _ _ _ _ ?_
    assumption

theorem pumpAll_inv (s : State) (h_s : Machine.Inv s) :
    Machine.Inv (pumpAll s) := by
  unfold pumpAll
  refine inv_fold ?_ (fun u0 y1 h2 => ?_)
  · assumption
  · refine inv_fold ?_ (fun u3 y4 h5 => ?_)
    · assumption
    · refine inv_ite ?_ ?_
      · assumption
      · refine pump_inv _ _ _ _ ?_
        assumption

theorem enqueue_inv (p : Play) (tile : Nat) (code : Nat) (m : QMove) (s : State) (h_s : Machine.Inv s) :
    Machine.Inv (enqueue p tile code m s) := by
  unfold enqueue
  refine pump_inv _ _ _ _ ?_
  refine inv_step ?_ (modQueue_frame _ _ _ _ _) (by decide)
  refine inv_step ?_ (stepSeq_frame _ _ _) (by decide)
  assumption

theorem dispatchRow_inv (op : Nat) (tile : Nat) (f : MoveFault) (s0 : State) (h_s0 : Machine.Inv s0) :
    Machine.Inv (dispatchRow op tile f s0) := by
  unfold dispatchRow
  split
  · rename_i v0 v1
    assumption
  · rename_i v2 v3 v4 v5
    extract_lets x6 x7
    have h8 : ∀ a9 a10 a11, Machine.Inv a11 → Machine.Inv (x6 a9 a10 a11) := by
      intro b12 b13 b14 k15
      unfold x6
      refine inv_step ?_ (failPlay_frame _ _ _) (by decide)
      assumption
    clear_value x6 x7
    split
    · rename_i v16 v17 v18 v19
      refine absorb (P := fetchAll Machine.Inv) v19 ?_ (fun q20 => ?_)
      · refine inv_stepFetch ?_ (fetchMove_frame _ _ _) (by decide)
        assumption
      apply h8
      · assumption
    · rename_i v21 v22 v23
      refine absorb (P := fetchAll Machine.Inv) v23 ?_ (fun q24 => ?_)
      · refine inv_stepFetch ?_ (fetchMove_frame _ _ _) (by decide)
        assumption
      refine inv_step ?_ (faultPlay_frame _ _ _ _) (by decide)
      assumption
    · rename_i v25 v26
      refine absorb (P := fetchAll Machine.Inv) v26 ?_ (fun q27 => ?_)
      · refine inv_stepFetch ?_ (fetchMove_frame _ _ _) (by decide)
        assumption
      assumption
    · rename_i v28 v29
      refine absorb (P := fetchAll Machine.Inv) v29 ?_ (fun q30 => ?_)
      · refine inv_stepFetch ?_ (fetchMove_frame _ _ _) (by decide)
        assumption
      refine inv_step ?_ (faultPlay_frame _ _ _ _) (by decide)
      assumption
    · rename_i v31 v32 v33 v34
      refine absorb (P := fetchAll Machine.Inv) v34 ?_ (fun q35 => ?_)
      · refine inv_stepFetch ?_ (fetchMove_frame _ _ _) (by decide)
        assumption
      extract_lets x36 x37
      clear_value x36 x37
      refine inv_ite ?_ ?_
      · apply h8
        · assumption
      · refine inv_ite ?_ ?_
        · assumption
        · refine inv_ite ?_ ?_
          · apply h8
            · assumption
          · split
            · rename_i v38 v39
              apply h8
              · assumption
            · rename_i v40 v41 v42
              refine inv_ite ?_ ?_
              · apply h8
                · assumption
              · refine inv_ite ?_ ?_
                · refine inv_ite ?_ ?_
                  · refine inv_step ?_ (seqMove_frame _ _ _ _) (by decide)
                    assumption
                  · apply h8
                    · assumption
                · refine inv_ite ?_ ?_
                  · assumption
                  · refine enqueue_inv _ _ _ _ _ ?_
                    assumption

theorem execMoveNop_inv (tile : Nat) (s : State) (h_s : Machine.Inv s) :
    outAll Machine.Inv (execMoveNop tile s) := by
  unfold execMoveNop
  change Machine.Inv _
  refine dispatchRow_inv _ _ _ _ ?_
  assumption

theorem execEndMove_inv (tile : Nat) (s : State) (h_s : Machine.Inv s) :
    outAll Machine.Inv (execEndMove tile s) := by
  unfold execEndMove
  change Machine.Inv _
  refine dispatchRow_inv _ _ _ _ ?_
  assumption

theorem execFireat_inv (tile : Nat) (s : State) (h_s : Machine.Inv s) :
    outAll Machine.Inv (execFireat tile s) := by
  unfold execFireat
  change Machine.Inv _
  refine dispatchRow_inv _ _ _ _ ?_
  assumption

theorem execTie_inv (tile : Nat) (s : State) (h_s : Machine.Inv s) :
    outAll Machine.Inv (execTie tile s) := by
  unfold execTie
  change Machine.Inv _
  refine dispatchRow_inv _ _ _ _ ?_
  assumption

theorem execWait_inv (tile : Nat) (s : State) (h_s : Machine.Inv s) :
    outAll Machine.Inv (execWait tile s) := by
  unfold execWait
  change Machine.Inv _
  refine dispatchRow_inv _ _ _ _ ?_
  assumption

theorem execKset_inv (tile : Nat) (s : State) (h_s : Machine.Inv s) :
    outAll Machine.Inv (execKset tile s) := by
  unfold execKset
  change Machine.Inv _
  refine dispatchRow_inv _ _ _ _ ?_
  assumption

theorem execPartMove_inv (tile : Nat) (s : State) (h_s : Machine.Inv s) :
    outAll Machine.Inv (execPartMove tile s) := by
  unfold execPartMove
  change Machine.Inv _
  refine dispatchRow_inv _ _ _ _ ?_
  assumption

theorem execIframe_inv (tile : Nat) (s : State) (h_s : Machine.Inv s) :
    outAll Machine.Inv (execIframe tile s) := by
  unfold execIframe
  change Machine.Inv _
  refine dispatchRow_inv _ _ _ _ ?_
  assumption

theorem execLoadw_inv (tile : Nat) (s : State) (h_s : Machine.Inv s) :
    outAll Machine.Inv (execLoadw tile s) := by
  unfold execLoadw
  change Machine.Inv _
  refine dispatchRow_inv _ _ _ _ ?_
  assumption

theorem execSwapw_inv (tile : Nat) (s : State) (h_s : Machine.Inv s) :
    outAll Machine.Inv (execSwapw tile s) := by
  unfold execSwapw
  change Machine.Inv _
  refine dispatchRow_inv _ _ _ _ ?_
  assumption

theorem execStream_inv (tile : Nat) (f : MoveFault) (s : State) (h_s : Machine.Inv s) :
    outAll Machine.Inv (execStream tile f s) := by
  unfold execStream
  change Machine.Inv _
  refine dispatchRow_inv _ _ _ _ ?_
  assumption

theorem execSxt_inv (tile : Nat) (s : State) (h_s : Machine.Inv s) :
    outAll Machine.Inv (execSxt tile s) := by
  unfold execSxt
  change Machine.Inv _
  refine dispatchRow_inv _ _ _ _ ?_
  assumption

theorem execElem_inv (tile : Nat) (l : LaneFault) (s : State) (h_s : Machine.Inv s) :
    outAll Machine.Inv (execElem tile l s) := by
  unfold execElem
  change Machine.Inv _
  refine dispatchRow_inv _ _ _ _ ?_
  assumption

theorem execReduce_inv (tile : Nat) (l : LaneFault) (s : State) (h_s : Machine.Inv s) :
    outAll Machine.Inv (execReduce tile l s) := by
  unfold execReduce
  change Machine.Inv _
  refine dispatchRow_inv _ _ _ _ ?_
  assumption

theorem execSmxb_inv (tile : Nat) (l : LaneFault) (s : State) (h_s : Machine.Inv s) :
    outAll Machine.Inv (execSmxb tile l s) := by
  unfold execSmxb
  change Machine.Inv _
  refine dispatchRow_inv _ _ _ _ ?_
  assumption

theorem execNrmb_inv (tile : Nat) (l : LaneFault) (s : State) (h_s : Machine.Inv s) :
    outAll Machine.Inv (execNrmb tile l s) := by
  unfold execNrmb
  change Machine.Inv _
  refine dispatchRow_inv _ _ _ _ ?_
  assumption

theorem execTopk_inv (tile : Nat) (l : LaneFault) (s : State) (h_s : Machine.Inv s) :
    outAll Machine.Inv (execTopk tile l s) := by
  unfold execTopk
  change Machine.Inv _
  refine dispatchRow_inv _ _ _ _ ?_
  assumption

theorem execGather_inv (tile : Nat) (s : State) (h_s : Machine.Inv s) :
    outAll Machine.Inv (execGather tile s) := by
  unfold execGather
  change Machine.Inv _
  refine dispatchRow_inv _ _ _ _ ?_
  assumption

theorem execScatter_inv (tile : Nat) (s : State) (h_s : Machine.Inv s) :
    outAll Machine.Inv (execScatter tile s) := by
  unfold execScatter
  change Machine.Inv _
  refine dispatchRow_inv _ _ _ _ ?_
  assumption

theorem execScatterAdd_inv (tile : Nat) (l : LaneFault) (s : State) (h_s : Machine.Inv s) :
    outAll Machine.Inv (execScatterAdd tile l s) := by
  unfold execScatterAdd
  change Machine.Inv _
  refine dispatchRow_inv _ _ _ _ ?_
  assumption

theorem execPack_inv (tile : Nat) (l : LaneFault) (s : State) (h_s : Machine.Inv s) :
    outAll Machine.Inv (execPack tile l s) := by
  unfold execPack
  change Machine.Inv _
  refine dispatchRow_inv _ _ _ _ ?_
  assumption

theorem execAmaxt_inv (tile : Nat) (l : LaneFault) (s : State) (h_s : Machine.Inv s) :
    outAll Machine.Inv (execAmaxt tile l s) := by
  unfold execAmaxt
  change Machine.Inv _
  refine dispatchRow_inv _ _ _ _ ?_
  assumption

theorem execMove_inv (tile : Nat) (f : MoveFault) (s : State) (h_s : Machine.Inv s) :
    outAll Machine.Inv (execMove tile f s) := by
  unfold execMove
  change Machine.Inv _
  refine dispatchRow_inv _ _ _ _ ?_
  assumption

theorem execInval_inv (tile : Nat) (s : State) (h_s : Machine.Inv s) :
    outAll Machine.Inv (execInval tile s) := by
  unfold execInval
  change Machine.Inv _
  refine dispatchRow_inv _ _ _ _ ?_
  assumption

theorem execDispatch_inv (tile : Nat) (s : State) (h_s : Machine.Inv s) :
    outAll Machine.Inv (execDispatch tile s) := by
  unfold execDispatch
  change Machine.Inv _
  refine dispatchRow_inv _ _ _ _ ?_
  assumption

theorem execCombine_inv (tile : Nat) (s : State) (h_s : Machine.Inv s) :
    outAll Machine.Inv (execCombine tile s) := by
  unfold execCombine
  change Machine.Inv _
  refine dispatchRow_inv _ _ _ _ ?_
  assumption

theorem wrapUp_inv (p : Play) (tile : Nat) (code : Nat) (pos : Nat) (m : QMove) (s : State) (h_s : Machine.Inv s) :
    Machine.Inv (wrapUp p tile code pos m s) := by
  unfold wrapUp
  split
  · rename_i v0 v1
    refine settleMove_inv _ _ _ ?_
    assumption
  · rename_i v2 v3
    refine inv_ite ?_ ?_
    · assumption
    · split
      · rename_i v4 v5 v6
        refine inv_step ?_ (setPart_frame _ _) (by decide)
        assumption
      · rename_i v7 v8
        assumption
  · rename_i v9 v10 v11
    assumption

theorem completeMove_inv (p : Play) (tile : Nat) (code : Nat) (pos : Nat) (m : QMove) (s : State) (h_s : Machine.Inv s) :
    Machine.Inv (completeMove p tile code pos m s) := by
  unfold completeMove
  refine pump_inv _ _ _ _ ?_
  refine inv_step ?_ (makeTie_frame _ _ _ _) (by decide)
  refine inv_step ?_ (dropMove_frame _ _ _ _ _) (by decide)
  refine wrapUp_inv _ _ _ _ _ _ ?_
  assumption

theorem finishMove_inv (p : Play) (tile : Nat) (code : Nat) (pos : Nat) (m : QMove) (s : State) (h_s : Machine.Inv s) :
    Machine.Inv (finishMove p tile code pos m s) := by
  unfold finishMove
  split
  · rename_i v0 v1 v2
    refine inv_step ?_ (failPlay_frame _ _ _) (by decide)
    refine inv_step ?_ (dropMove_frame _ _ _ _ _) (by decide)
    refine inv_step ?_ (hostFault_frame _ _ _ _) (by decide)
    assumption
  · rename_i v3 v4
    refine completeMove_inv _ _ _ _ _ _ ?_
    assumption

theorem execMoveCompletion_inv (tile : Nat) (code : Nat) (pos : Nat) (s : State) (h_s : Machine.Inv s) :
    outAll Machine.Inv (execMoveCompletion tile code pos s) := by
  unfold execMoveCompletion
  split
  · rename_i v0 v1
    change Machine.Inv _
    assumption
  · rename_i v2 v3 v4
    split
    · rename_i v5 v6
      change Machine.Inv _
      assumption
    · rename_i v7 v8 v9
      split
      · rename_i v10 v11
        change Machine.Inv _
        assumption
      · rename_i v12 v13 v14
        split
        · rename_i v15
          change Machine.Inv _
          refine finishMove_inv _ _ _ _ _ _ ?_
          assumption
        · rename_i v16
          change Machine.Inv _
          assumption

theorem execFireatRelease_inv (tile : Nat) (s : State) (h_s : Machine.Inv s) :
    outAll Machine.Inv (execFireatRelease tile s) := by
  unfold execFireatRelease
  split
  · rename_i v0 v1
    change Machine.Inv _
    assumption
  · rename_i v2 v3 v4
    split
    · rename_i v5 v6 v7 v8 v9 v10 v11
      split
      · rename_i v12 v13 v14 v15 v16
        refine absorb (P := optAll Machine.Inv) v16 ?_ (fun q17 => ?_)
        · refine inv_stepOpt ?_ (timeTo_frame _ _) (by decide)
          assumption
        split
        · rename_i v18
          change Machine.Inv _
          refine completeMove_inv _ _ _ _ _ _ ?_
          assumption
        · rename_i v19
          change Machine.Inv _
          assumption
      · rename_i v20 v21 v22
        change Machine.Inv _
        assumption
    · rename_i v23 v24
      change Machine.Inv _
      assumption

theorem execWaitSatisfied_inv (tile : Nat) (code : Nat) (s : State) (h_s : Machine.Inv s) :
    outAll Machine.Inv (execWaitSatisfied tile code s) := by
  unfold execWaitSatisfied
  split
  · rename_i v0 v1
    change Machine.Inv _
    assumption
  · rename_i v2 v3 v4
    split
    · rename_i v5
      change Machine.Inv _
      assumption
    · rename_i v6
      split
      · rename_i v7 v8
        change Machine.Inv _
        assumption
      · rename_i v9 v10 v11
        split
        · rename_i v12 v13 v14 v15
          split
          · rename_i v16
            change Machine.Inv _
            refine completeMove_inv _ _ _ _ _ _ ?_
            assumption
          · rename_i v17
            change Machine.Inv _
            assumption
        · rename_i v18 v19
          change Machine.Inv _
          refine pump_inv _ _ _ _ ?_
          assumption

theorem tieArrived_inv (tile : Nat) (code : Nat) (s : State) (h_s : Machine.Inv s) :
    Machine.Inv (tieArrived tile code s) := by
  unfold tieArrived
  split
  · rename_i v0 v1
    assumption
  · rename_i v2 v3 v4
    split
    · rename_i v5 v6
      assumption
    · rename_i v7 v8 v9
      split
      · rename_i v10 v11
        assumption
      · rename_i v12 v13 v14 v15
        refine inv_ite ?_ ?_
        · refine completeMove_inv _ _ _ _ _ _ ?_
          assumption
        · refine inv_step ?_ (putMove_frame _ _ _ _ _ _) (by decide)
          assumption

theorem execRemoteTieArrival_inv (src : Source) (node : Nat) (t : Transit) (s : State) (h_s : Machine.Inv s) :
    outAll Machine.Inv (execRemoteTieArrival src node t s) := by
  unfold execRemoteTieArrival
  split
  · rename_i v0 v1 v2 v3 v4 v5 v6 v7 v8
    split
    · rename_i v9 v10
      refine absorb (P := arrAll Machine.Inv) v10 ?_ (fun q11 => ?_)
      · refine meshArrive_inv _ _ _ ?_
        assumption
      change Machine.Inv _
      assumption
    · rename_i v12 v13 v14
      refine absorb (P := arrAll Machine.Inv) v14 ?_ (fun q15 => ?_)
      · refine meshArrive_inv _ _ _ ?_
        assumption
      change Machine.Inv _
      assumption
    · rename_i v16 v17 v18 v19
      refine absorb (P := arrAll Machine.Inv) v19 ?_ (fun q20 => ?_)
      · refine meshArrive_inv _ _ _ ?_
        assumption
      extract_lets x21 x22
      clear_value x21 x22
      change Machine.Inv _
      refine inv_step ?_ (serveFetches_frame _) (by decide)
      refine tieArrived_inv _ _ _ ?_
      refine inv_ite ?_ ?_
      · refine inv_step ?_ (addKnot_frame _ _ _) (by decide)
        assumption
      · refine inv_step ?_ (outerTie_frame _ _ _) (by decide)
        assumption
  · rename_i v23 v24
    change Machine.Inv _
    assumption

theorem freeGroup_inv (p : Play) (l : List Member) (s : State) (h_s : Machine.Inv s) :
    Machine.Inv (freeGroup p l s) := by
  unfold freeGroup
  refine inv_fold ?_ (fun u0 y1 h2 => ?_)
  · assumption
  · refine inv_fold ?_ (fun u3 y4 h5 => ?_)
    · assumption
    · refine freeDest_inv _ _ ?_
      assumption

theorem execReductionResult_inv (tile : Nat) (s : State) (h_s : Machine.Inv s) :
    outAll Machine.Inv (execReductionResult tile s) := by
  unfold execReductionResult
  split
  · rename_i v0 v1
    change Machine.Inv _
    assumption
  · rename_i v2 v3 v4 v5
    split
    · rename_i v6
      change Machine.Inv _
      assumption
    · rename_i v7
      extract_lets x8 x9 x10
      have h11 : Machine.Inv x9 := by
        unfold x9
        refine inv_fold ?_ (fun u12 y13 h14 => ?_)
        · assumption
        · refine inv_step ?_ (addDests_frame _ _ _) (by decide)
          refine groupWrite_inv _ _ _ _ _ ?_
          assumption
      have h15 : Machine.Inv x10 := by
        unfold x10
        refine inv_step ?_ (noteAll_frame _) (by decide)
        refine inv_ite ?_ ?_
        · refine freeGroup_inv _ _ _ ?_
          assumption
        · assumption
      clear_value x8 x9 x10
      split
      · rename_i v16 v17
        change Machine.Inv _
        assumption
      · rename_i v18 v19
        change Machine.Inv _
        refine inv_step ?_ (failPlay_frame _ _ _) (by decide)
        refine inv_fold ?_ (fun u20 y21 h22 => ?_)
        · assumption
        · refine inv_step ?_ (dropMove_frame _ _ _ _ _) (by decide)
          assumption
      · rename_i v23 v24
        change Machine.Inv _
        refine inv_fold ?_ (fun u25 y26 h27 => ?_)
        · assumption
        · refine inv_step ?_ (modQueue_frame _ _ _ _ _) (by decide)
          assumption

theorem execRampStartGrant_inv (now : Nat) (s : State) (h_s : Machine.Inv s) :
    outAll Machine.Inv (execRampStartGrant now s) := by
  unfold execRampStartGrant
  split
  · rename_i v0 v1
    change Machine.Inv _
    assumption
  · rename_i v2 v3 v4 v5 v6 v7
    split
    · rename_i v8 v9 v10
      split
      · rename_i v11
        change Machine.Inv _
        assumption
      · rename_i v12
        extract_lets x13
        have h14 : Machine.Inv x13 := by
          unfold x13
          refine inv_step ?_ (only_rampQueue_rampLast (OnlyChanges.refl _ _) _ _ (fun _ hp => hp)) (by decide)
          assumption
        clear_value x13
        split
        · rename_i v15 v16 v17 v18 v19 v20
          split
          · rename_i v21
            change Machine.Inv _
            refine inv_step ?_ (setPart_frame _ _) (by decide)
            assumption
          · rename_i v22
            change Machine.Inv _
            refine pump_inv _ _ _ _ ?_
            refine inv_step ?_ (setPart_frame _ _) (by decide)
            assumption
        · rename_i v23 v24 v25
          change Machine.Inv _
          assumption
    · rename_i v26 v27
      split
      · rename_i v28
        change Machine.Inv _
        assumption
      · rename_i v29
        extract_lets x30
        have h31 : Machine.Inv x30 := by
          unfold x30
          refine inv_step ?_ (only_rampQueue_rampLast (OnlyChanges.refl _ _) _ _ (fun _ hp => hp)) (by decide)
          assumption
        clear_value x30
        split
        · rename_i v32 v33 v34 v35 v36 v37
          split
          · rename_i v38
            change Machine.Inv _
            refine inv_step ?_ (setPart_frame _ _) (by decide)
            assumption
          · rename_i v39
            change Machine.Inv _
            refine pump_inv _ _ _ _ ?_
            refine inv_step ?_ (setPart_frame _ _) (by decide)
            assumption
        · rename_i v40 v41 v42
          change Machine.Inv _
          assumption

theorem execMoveReplay_inv (tile : Nat) (code : Nat) (f : MoveFault) (s : State) (h_s : Machine.Inv s) :
    outAll Machine.Inv (execMoveReplay tile code f s) := by
  unfold execMoveReplay
  split
  · rename_i v0 v1
    change Machine.Inv _
    assumption
  · rename_i v2 v3 v4
    split
    · rename_i v5 v6 v7 v8 v9 v10 v11
      split
      · rename_i v12
        split
        · rename_i v13 v14 v15 v16
          refine absorb (P := startAll Machine.Inv) v16 ?_ (fun q17 => ?_)
          · refine replayMove_inv _ _ _ _ _ ?_
            assumption
          change Machine.Inv _
          refine inv_step ?_ (addDests_frame _ _ _) (by decide)
          refine inv_step ?_ (putMove_frame _ _ _ _ _ _) (by decide)
          assumption
        · rename_i v18 v19 v20 v21
          refine absorb (P := startAll Machine.Inv) v21 ?_ (fun q22 => ?_)
          · refine replayMove_inv _ _ _ _ _ ?_
            assumption
          change Machine.Inv _
          refine inv_step ?_ (failPlay_frame _ _ _) (by decide)
          refine inv_step ?_ (addDests_frame _ _ _) (by decide)
          refine inv_step ?_ (dropMove_frame _ _ _ _ _) (by decide)
          assumption
        · rename_i v23 v24 v25 v26
          refine absorb (P := startAll Machine.Inv) v26 ?_ (fun q27 => ?_)
          · refine replayMove_inv _ _ _ _ _ ?_
            assumption
          change Machine.Inv _
          refine inv_step ?_ (faultPlay_frame _ _ _ _) (by decide)
          refine inv_step ?_ (dropMove_frame _ _ _ _ _) (by decide)
          assumption
        · rename_i v28 v29 v30 v31
          change Machine.Inv _
          assumption
      · rename_i v32
        change Machine.Inv _
        assumption
    · rename_i v33 v34
      change Machine.Inv _
      assumption

theorem endFailed_inv (p : Play) (s : State) (h_s : Machine.Inv s) :
    Machine.Inv (endFailed p s) := by
  unfold endFailed
  extract_lets x0 x1
  have h2 : Machine.Inv x0 := by
    unfold x0
    refine freeDests_inv _ _ ?_
    refine inv_step ?_ (endRun_frame _ _) (by decide)
    refine inv_step ?_ (slotOverrun_frame _ _) (by decide)
    refine inv_step ?_ (dropPlay_frame _ _) (by decide)
    assumption
  clear_value x0 x1
  refine inv_ite ?_ ?_
  · assumption
  · split
    · rename_i v3 v4 v5
      refine inv_step ?_ (playReply_frame _ _ _ _) (by decide)
      assumption
    · rename_i v6 v7
      refine inv_ite ?_ ?_
      · refine inv_step ?_ (record_frame _ _ _ _ _ _ _ _ _ _) (by decide)
        refine inv_step ?_ (only_cap (OnlyChanges.refl _ _) _ (fun _ hp => hp)) (by decide)
        assumption
      · split
        · rename_i v8 v9 v10 v11 v12
          refine inv_step ?_ (playReply_frame _ _ _ _) (by decide)
          assumption

theorem execPlayStart_inv (org : Nat) (sh : Nat) (s : State) (h_s : Machine.Inv s) :
    outAll Machine.Inv (execPlayStart org sh s) := by
  unfold execPlayStart
  split
  · rename_i v0 v1
    change Machine.Inv _
    assumption
  · rename_i v2 v3 v4
    split
    · rename_i v5
      change Machine.Inv _
      assumption
    · rename_i v6
      split
      · rename_i v7 v8
        change Machine.Inv _
        refine inv_step ?_ (endUnrun_frame _ _ _) (by decide)
        assumption
      · rename_i v9 v10 v11
        split
        · rename_i v12
          change Machine.Inv _
          assumption
        · rename_i v13
          split
          · rename_i v14
            change Machine.Inv _
            refine inv_step ?_ (endUnrun_frame _ _ _) (by decide)
            assumption
          · rename_i v15
            split
            · rename_i v16
              change Machine.Inv _
              refine inv_step ?_ (endUnrun_frame _ _ _) (by decide)
              assumption
            · rename_i v17
              split
              · rename_i v18
                change Machine.Inv _
                refine endFailed_inv _ _ ?_
                refine inv_step ?_ (granuleFault_frame _ _ _ _ _) (by decide)
                refine inv_step ?_ (retiredRead_frame _ _ _) (by decide)
                assumption
              · rename_i v19
                split
                · rename_i v20 v21 v22
                  change Machine.Inv _
                  refine inv_step ?_ (endUnrun_frame _ _ _) (by decide)
                  assumption
                · rename_i v23 v24
                  change Machine.Inv _
                  refine inv_step ?_ (playRun_frame _ _) (by decide)
                  assumption

theorem playEnd_inv (org : Nat) (sh : Nat) (s : State) (h_s : Machine.Inv s) :
    Machine.Inv (playEnd org sh s) := by
  unfold playEnd
  split
  · rename_i v0 v1
    assumption
  · rename_i v2 v3 v4
    refine inv_ite ?_ ?_
    · refine inv_ite ?_ ?_
      · extract_lets x5 x6
        have h7 : Machine.Inv x5 := by
          unfold x5
          refine inv_step ?_ (endRun_frame _ _) (by decide)
          refine inv_step ?_ (slotOverrun_frame _ _) (by decide)
          refine inv_step ?_ (dropPlay_frame _ _) (by decide)
          assumption
        have h8 : Machine.Inv x6 := by
          unfold x6
          refine inv_ite ?_ ?_
          · refine freeDests_inv _ _ ?_
            assumption
          · assumption
        clear_value x5 x6
        split
        · rename_i v9 v10 v11 v12
          refine absorb (P := sndAll Machine.Inv) v12 ?_ (fun q13 => ?_)
          · refine inv_stepSnd ?_ (playCut_frame _ _) (by decide)
            assumption
          refine inv_step ?_ (playReply_frame _ _ _ _) (by decide)
          assumption
      · assumption
    · refine inv_ite ?_ ?_
      · refine endFailed_inv _ _ ?_
        assumption
      · assumption

theorem execPlayRerun_inv (org : Nat) (sh : Nat) (s : State) (h_s : Machine.Inv s) :
    outAll Machine.Inv (execPlayRerun org sh s) := by
  unfold execPlayRerun
  split
  · rename_i v0 v1
    change Machine.Inv _
    assumption
  · rename_i v2 v3 v4
    split
    · rename_i v5
      extract_lets x6
      have h7 : Machine.Inv x6 := by
        unfold x6
        refine inv_step ?_ (record_frame _ _ _ _ _ _ _ _ _ _) (by decide)
        refine inv_step ?_ (restoreKnots_frame _ _) (by decide)
        refine inv_step ?_ (endRun_frame _ _) (by decide)
        refine freeDests_inv _ _ ?_
        assumption
      clear_value x6
      change Machine.Inv _
      refine inv_step ?_ (playRun_frame _ _) (by decide)
      assumption
    · rename_i v8
      change Machine.Inv _
      assumption

theorem spillLeaf_inv (n : Nat) (c : CollSlot) (k : Nat) (l : Leaf) (s : State) (h_s : Machine.Inv s) :
    Machine.Inv (spillLeaf n c k l s) := by
  unfold spillLeaf
  split
  · rename_i v0 v1 v2 v3
    refine absorb (P := sndAll Machine.Inv) v3 ?_ (fun q4 => ?_)
    · refine inv_stepSnd ?_ (drawBytes_frame _ _) (by decide)
      assumption
    refine inv_step ?_ (takeLeaf_frame _ _ _ _ _) (by decide)
    refine nearWrite_inv _ _ _ _ ?_
    assumption

theorem leafAt_inv (c : CollSlot) (l : Leaf) (s : State) (h_s : Machine.Inv s) :
    Machine.Inv (leafAt c l s) := by
  unfold leafAt
  extract_lets x0
  clear_value x0
  refine inv_ite ?_ ?_
  · assumption
  · refine inv_ite ?_ ?_
    · refine inv_fold ?_ (fun u1 y2 h3 => ?_)
      · assumption
      · refine inv_step ?_ (sendPacket_frame _ _) (by decide)
        assumption
    · refine inv_ite ?_ ?_
      · refine inv_step ?_ (only_colls (OnlyChanges.refl _ _) _ (fun _ hp => hp)) (by decide)
        assumption
      · refine inv_ite ?_ ?_
        · refine inv_step ?_ (takeLeaf_frame _ _ _ _ _) (by decide)
          assumption
        · split
          · rename_i v4 v5 v6
            refine spillLeaf_inv _ _ _ _ _ ?_
            assumption
          · rename_i v7 v8
            assumption

theorem execLeaf_inv (c : Leaf) (t : Transit) (s : State) (h_s : Machine.Inv s) : outAll Machine.Inv (execLeaf c t s) := by
  unfold execLeaf
  split
  · have a : arrAll Machine.Inv (meshArrive (.leaf (0, 0) c) t s) := meshArrive_inv _ _ _ h_s
    show Machine.Inv _
    split
    · have f : optAll Machine.Inv (freeRx (strayLeaf c) s) := inv_stepOpt h_s (freeRx_frame _ _) (by decide)
      cases h : freeRx (strayLeaf c) s with
      | none => exact h_s
      | some u => rw [h] at f; exact inv_step f (deliverData_frame _) (by decide)
    · rename_i e; rw [e] at a; exact pumpAll_inv _ a
    · rename_i e; rw [e] at a; exact pumpAll_inv _ a
  · rename_i g _
    split
    · show Machine.Inv _
      split
      · exact h_s
      · exact inv_step (t := { s with colls := upsert c.slot { g with spaceWait := true } s.colls }) h_s (post_frame _ _ _) (by decide)
    · split
      · exact h_s
      · have a : arrAll Machine.Inv (packetArrive (c.member == (rtSet s g.rts).self) (0, 0) g.rts (.leaf (0, 0) c) t s) :=
          packetArrive_inv _ _ _ _ _ _ h_s
        split
        · exact h_s
        · rename_i e; rw [e] at a; exact pumpAll_inv _ (inv_step a (deliverData_frame _) (by decide))
        · rename_i e; rw [e] at a; exact pumpAll_inv _ (inv_step (leafAt_inv _ _ _ a) (deliverData_frame _) (by decide))

theorem endCollective_inv (slot : Nat) (c : CollSlot) (p : Packet) (bytes : List Byte) (s : State) (h_s : Machine.Inv s) :
    Machine.Inv (endCollective slot c p bytes s) := by
  unfold endCollective
  extract_lets x0 x1
  have h2 : Machine.Inv x1 := by
    unfold x1
    refine nearWriteFor_inv _ _ _ _ _ ?_
    refine inv_step ?_ (only_colls (OnlyChanges.refl _ _) _ (fun _ hp => hp)) (by decide)
    assumption
  clear_value x0 x1
  refine inv_step ?_ (accept_frame _ _) (by decide)
  refine inv_step ?_ (outerTie_frame _ _ _) (by decide)
  refine inv_step ?_ (noteAll_frame _) (by decide)
  assumption

theorem execCollectiveComplete_inv (slot : Nat) (s : State) (h_s : Machine.Inv s) :
    outAll Machine.Inv (execCollectiveComplete slot s) := by
  unfold execCollectiveComplete
  split
  · rename_i v0 v1
    change Machine.Inv _
    assumption
  · rename_i v2 v3 v4
    split
    · rename_i v5 v6
      change Machine.Inv _
      assumption
    · rename_i v7 v8 v9
      split
      · rename_i v10
        change Machine.Inv _
        assumption
      · rename_i v11
        split
        · rename_i v12
          change Machine.Inv _
          refine inv_step ?_ (stopColl_frame _ _ _ _ _) (by decide)
          assumption
        · rename_i v13
          split
          · rename_i v14 v15
            change Machine.Inv _
            assumption
          · rename_i v16 v17 v18
            split
            · rename_i v19 v20 v21 v22
              refine absorb (P := sndAll Machine.Inv) v22 ?_ (fun q23 => ?_)
              · refine inv_stepSnd ?_ (collResult_frame _ _ _ _ _) (by decide)
                assumption
              change Machine.Inv _
              refine endCollective_inv _ _ _ _ _ ?_
              assumption
            · rename_i v24 v25 v26
              refine absorb (P := sndAll Machine.Inv) v26 ?_ (fun q27 => ?_)
              · refine inv_stepSnd ?_ (collResult_frame _ _ _ _ _) (by decide)
                assumption
              change Machine.Inv _
              assumption

theorem wr32_inv (a : Nat) (v : W32) (s : State) (h_s : Machine.Inv s) :
    Machine.Inv (wr32 a v s) := by
  unfold wr32
  refine writeN_inv _ _ _ _ ?_
  assumption

theorem opLedgerGet_inv (p : Packet) (s : State) (h_s : Machine.Inv s) :
    Machine.Inv (opLedgerGet p s) := by
  unfold opLedgerGet
  extract_lets x0 x1
  clear_value x0 x1
  refine inv_ite ?_ ?_
  · refine inv_step ?_ (refuse_frame _ _ _) (by decide)
    assumption
  · refine inv_ite ?_ ?_
    · refine inv_step ?_ (refuse_frame _ _ _) (by decide)
      assumption
    · refine inv_step ?_ (accept_frame _ _) (by decide)
      refine destWrite_inv _ _ _ _ ?_
      assumption

theorem addContribution_inv (c : Contribution) (e : Ledger) (s : State) (h_s : Machine.Inv s) :
    Machine.Inv (addContribution c e s) := by
  unfold addContribution
  extract_lets x0 x1 x2 x3 x4 x5 x6 x7
  have h8 : Machine.Inv x4 := by
    unfold x4
    refine inv_fold ?_ (fun u9 y10 h11 => ?_)
    · assumption
    · extract_lets x12 x13
      clear_value x12 x13
      refine wr32_inv _ _ _ ?_
      assumption
  have h14 : Machine.Inv x7 := by
    unfold x7
    refine inv_ite ?_ ?_
    · refine inv_step ?_ (postStep_frame _ _ _ _) (by decide)
      assumption
    · assumption
  clear_value x0 x1 x2 x3 x4 x5 x6 x7
  refine inv_step ?_ (setEntry_frame _ _ _) (by decide)
  assumption

theorem takeContribution_inv (tag : Nat × Nat) (c : Contribution) (s : State) (h_s : Machine.Inv s) :
    Machine.Inv (takeContribution tag c s) := by
  unfold takeContribution
  extract_lets x0 x1 x2 x3
  have h4 : ∀ a5 a6, Machine.Inv a6 → Machine.Inv (x1 a5 a6) := by
    intro b7 b8 k9
    unfold x1
    refine inv_step ?_ (setEntry_frame _ _ _) (by decide)
    assumption
  clear_value x0 x1 x2 x3
  refine inv_ite ?_ ?_
  · apply h4
    · assumption
  · refine inv_ite ?_ ?_
    · refine inv_step ?_ (only_cap (OnlyChanges.refl _ _) _ (fun _ hp => hp)) (by decide)
      assumption
    · refine inv_ite ?_ ?_
      · refine inv_step ?_ (postStep_frame _ _ _ _) (by decide)
        apply h4
        · assumption
      · refine inv_ite ?_ ?_
        · refine inv_step ?_ (postStep_frame _ _ _ _) (by decide)
          apply h4
          · assumption
        · refine addContribution_inv _ _ _ ?_
          assumption

theorem takeHeld_inv (s : State) (h_s : Machine.Inv s) :
    Machine.Inv (takeHeld s) := by
  unfold takeHeld
  refine inv_fold ?_ (fun u0 y1 h2 => ?_)
  · refine inv_step ?_ (only_cap (OnlyChanges.refl _ _) _ (fun _ hp => hp)) (by decide)
    assumption
  · refine takeContribution_inv _ _ _ ?_
    assumption

theorem execContribution_inv (c : Contribution) (t : Transit) (s : State) (h_s : Machine.Inv s) :
    outAll Machine.Inv (execContribution c t s) := by
  unfold execContribution
  split
  · rename_i v0 v1
    refine absorb (P := arrAll Machine.Inv) v1 ?_ (fun q2 => ?_)
    · refine meshArrive_inv _ _ _ ?_
      assumption
    change Machine.Inv _
    assumption
  · rename_i v3 v4 v5
    refine absorb (P := arrAll Machine.Inv) v5 ?_ (fun q6 => ?_)
    · refine meshArrive_inv _ _ _ ?_
      assumption
    change Machine.Inv _
    refine pumpAll_inv _ ?_
    assumption
  · rename_i v7 v8 v9 v10 v11
    refine absorb (P := arrAll Machine.Inv) v11 ?_ (fun q12 => ?_)
    · refine meshArrive_inv _ _ _ ?_
      assumption
    change Machine.Inv _
    refine pumpAll_inv _ ?_
    refine takeContribution_inv _ _ _ ?_
    assumption
  · rename_i v13 v14 v15 v16 v17
    refine absorb (P := arrAll Machine.Inv) v17 ?_ (fun q18 => ?_)
    · refine meshArrive_inv _ _ _ ?_
      assumption
    change Machine.Inv _
    assumption

theorem writeSquare_inv (e : Ledger) (bank : Bool) (half : Nat) (step : W32) (q : Nat) (s : State) (h_s : Machine.Inv s) :
    Machine.Inv (writeSquare e bank half step q s) := by
  unfold writeSquare
  extract_lets x0 x1 x2 x3 x4 x5 x6 x7 x8
  clear_value x0 x1 x2 x3 x4 x5 x6 x7 x8
  refine inv_ite ?_ ?_
  · split
    · rename_i v9 v10 v11 v12
      extract_lets x13
      clear_value x13
      refine inv_step ?_ (countConv_frame _ _ _ _) (by decide)
      refine nearWrite_inv _ _ _ _ ?_
      assumption
  · split
    · rename_i v14 v15 v16 v17 v18
      extract_lets x19 x20
      have h21 : Machine.Inv x19 := by
        unfold x19
        refine nearWrite_inv _ _ _ _ ?_
        assumption
      have h22 : Machine.Inv x20 := by
        unfold x20
        refine inv_ite ?_ ?_
        · refine nearWrite_inv _ _ _ _ ?_
          assumption
        · assumption
      clear_value x19 x20
      refine inv_step ?_ (countConv_frame _ _ _ _) (by decide)
      assumption

theorem writeCopy_inv (e : Ledger) (bank : Bool) (half : Nat) (step : W32) (s : State) (h_s : Machine.Inv s) :
    Machine.Inv (writeCopy e bank half step s) := by
  unfold writeCopy
  refine inv_fold ?_ (fun u0 y1 h2 => ?_)
  · assumption
  · refine writeSquare_inv _ _ _ _ _ _ ?_
    assumption

theorem applyTrained_inv (k : ApplyK) (alt : Bool) (l : List (Nat × Nat)) (e : Ledger) (s : State) (h_s : Machine.Inv s) :
    sndAll Machine.Inv (applyTrained k alt l e s) := by
  unfold applyTrained
  refine OnlyChanges.foldSnd ?_ (fun u0 y1 h2 => ?_)
  · refine sndAll_mk ?_
    assumption
  · extract_lets x3 x4 x5 x6 x7
    have h8 : Machine.Inv x3 := by
      unfold x3
      show sndAll Machine.Inv _
      assumption
    clear_value x3 x4 x5 x6 x7
    split
    · rename_i v9 v10 v11 v12
      extract_lets x13
      clear_value x13
      refine sndAll_mk ?_
      refine wr32_inv _ _ _ ?_
      refine wr32_inv _ _ _ ?_
      assumption

theorem applyFrozen_inv (alt : Bool) (l : List (Nat × Nat)) (e : Ledger) (s : State) (h_s : Machine.Inv s) :
    sndAll Machine.Inv (applyFrozen alt l e s) := by
  unfold applyFrozen
  refine OnlyChanges.foldSnd ?_ (fun u0 y1 h2 => ?_)
  · refine sndAll_mk ?_
    assumption
  · extract_lets x3 x4 x5 x6
    have h7 : Machine.Inv x3 := by
      unfold x3
      show sndAll Machine.Inv _
      assumption
    clear_value x3 x4 x5 x6
    refine sndAll_mk ?_
    refine wr32_inv _ _ _ ?_
    refine wr32_inv _ _ _ ?_
    assumption

theorem applySquare_inv (a : Armed) (n : Nat) (q : Nat) (s : State) (h_s : Machine.Inv s) :
    Machine.Inv (applySquare a n q s) := by
  unfold applySquare
  extract_lets x0 x1 x2
  clear_value x0 x1 x2
  split
  · rename_i v3 v4 v5 v6
    refine absorb (P := sndAll Machine.Inv) v6 ?_ (fun q7 => ?_)
    · split
      · rename_i v8
        refine applyFrozen_inv _ _ _ _ ?_
        assumption
      · rename_i v9
        refine applyTrained_inv _ _ _ _ _ ?_
        assumption
    extract_lets x10
    clear_value x10
    refine writeSquare_inv _ _ _ _ _ _ ?_
    refine inv_step ?_ (setEntry_frame _ _ _) (by decide)
    assumption

theorem rimReads_inv (k : Nat) (r : Option RimUnit) (s : State) (h_s : Machine.Inv s) :
    Machine.Inv (rimReads k r s) := by
  unfold rimReads
  refine elim_of (P := Machine.Inv) ?_ (fun y0 => ?_)
  · assumption
  · refine rimFinds_inv _ _ _ _ _ ?_
    assumption

theorem passMeets_inv (k : Nat) (a : Armed) (e : Ledger) (q : Nat) (l : LaneFault) (s : State) (h_s : Machine.Inv s) :
    sndAll Machine.Inv (passMeets k a e q l s) := by
  unfold passMeets
  extract_lets x0 x1
  have h2 : ∀ a3 a4, Machine.Inv a4 → Machine.Inv (x0 a3 a4) := by
    intro b5 b6 k7
    unfold x0
    refine inv_step ?_ (laneResidue_frame _ _ _ _ _ _ _) (by decide)
    assumption
  clear_value x0 x1
  split
  · rename_i v8
    refine sndAll_mk ?_
    assumption
  · rename_i v9
    refine sndAll_mk ?_
    apply h2
    · assumption
  · rename_i v10
    refine sndAll_mk ?_
    refine failCapstan_inv _ _ ?_
    apply h2
    · assumption
  · rename_i v11 v12
    extract_lets x13
    have h14 : Machine.Inv x13 := by
      unfold x13
      show sndAll Machine.Inv _
      refine parityMeets_inv _ _ _ _ _ _ ?_
      assumption
    clear_value x13
    refine sndAll_mk ?_
    assumption

theorem execApplyPass_inv (k : Nat) (l : LaneFault) (rim : Option RimUnit) (s : State) (h_s : Machine.Inv s) :
    outAll Machine.Inv (execApplyPass k l rim s) := by
  unfold execApplyPass
  split
  · rename_i v0 v1
    change Machine.Inv _
    assumption
  · rename_i v2 v3 v4
    split
    · rename_i v5
      change Machine.Inv _
      assumption
    · rename_i v6
      split
      · rename_i v7 v8
        change Machine.Inv _
        assumption
      · rename_i v9 v10 v11
        change Machine.Inv _
        refine inv_step ?_ (skipEntry_frame _ _) (by decide)
        assumption
      · rename_i v12 v13 v14 v15
        split
        · rename_i v16
          change Machine.Inv _
          assumption
        · rename_i v17
          extract_lets x18
          have h19 : Machine.Inv x18 := by
            unfold x18
            refine rimReads_inv _ _ _ ?_
            assumption
          clear_value x18
          split
          · rename_i v20
            change Machine.Inv _
            assumption
          · rename_i v21
            split
            · rename_i v22 v23 v24
              refine absorb (P := sndAll Machine.Inv) v24 ?_ (fun q25 => ?_)
              · refine passMeets_inv _ _ _ _ _ _ ?_
                assumption
              change Machine.Inv _
              refine applySquare_inv _ _ _ _ ?_
              assumption
            · rename_i v26 v27 v28
              refine absorb (P := sndAll Machine.Inv) v28 ?_ (fun q29 => ?_)
              · refine passMeets_inv _ _ _ _ _ _ ?_
                assumption
              change Machine.Inv _
              assumption

theorem execCapstanConfirm_inv (k : Nat) (rim : Option RimUnit) (s : State) (h_s : Machine.Inv s) :
    outAll Machine.Inv (execCapstanConfirm k rim s) := by
  unfold execCapstanConfirm
  split
  · rename_i v0 v1
    change Machine.Inv _
    assumption
  · rename_i v2 v3 v4
    split
    · rename_i v5
      change Machine.Inv _
      assumption
    · rename_i v6
      extract_lets x7
      have h8 : Machine.Inv x7 := by
        unfold x7
        refine rimReads_inv _ _ _ ?_
        assumption
      clear_value x7
      split
      · rename_i v9
        change Machine.Inv _
        refine inv_step ?_ (setArmed_frame _ _) (by decide)
        refine parityPass_inv _ _ ?_
        assumption
      · rename_i v10
        change Machine.Inv _
        assumption

theorem runStateLoad_inv (p : Packet) (step : W32) (s : State) (h_s : Machine.Inv s) :
    Machine.Inv (runStateLoad p step s) := by
  unfold runStateLoad
  extract_lets x0 x1 x2
  clear_value x0 x1 x2
  refine inv_ite ?_ ?_
  · refine inv_step ?_ (refuse_frame _ _ _) (by decide)
    assumption
  · split
    · rename_i v3 v4 v5 v6
      refine absorb (P := sndAll Machine.Inv) v6 ?_ (fun q7 => ?_)
      · refine inv_stepSnd ?_ (engineRead_frame _ _ _ _ _) (by decide)
        assumption
      refine inv_step ?_ (refuse_frame _ _ _) (by decide)
      assumption
    · rename_i v8 v9 v10 v11
      refine absorb (P := sndAll Machine.Inv) v11 ?_ (fun q12 => ?_)
      · refine inv_stepSnd ?_ (engineRead_frame _ _ _ _ _) (by decide)
        assumption
      extract_lets x13 x14
      have h15 : Machine.Inv x13 := by
        unfold x13
        refine writeBytes_inv _ _ _ ?_
        refine writeBytes_inv _ _ _ ?_
        assumption
      have h16 : Machine.Inv x14 := by
        unfold x14
        refine writeCopy_inv _ _ _ _ _ ?_
        refine writeCopy_inv _ _ _ _ _ ?_
        assumption
      clear_value x13 x14
      refine inv_step ?_ (accept_frame _ _) (by decide)
      refine inv_step ?_ (unsettle_frame _ _) (by decide)
      refine parityPass_inv _ _ ?_
      assumption

theorem opStateLoad_inv (p : Packet) (s : State) (h_s : Machine.Inv s) :
    Machine.Inv (opStateLoad p s) := by
  unfold opStateLoad
  extract_lets x0 x1 x2
  clear_value x0 x1 x2
  refine inv_ite ?_ ?_
  · refine inv_step ?_ (refuse_frame _ _ _) (by decide)
    assumption
  · refine inv_ite ?_ ?_
    · refine inv_step ?_ (refuse_frame _ _ _) (by decide)
      assumption
    · refine inv_ite ?_ ?_
      · refine inv_step ?_ (refuse_frame _ _ _) (by decide)
        assumption
      · refine inv_ite ?_ ?_
        · refine inv_step ?_ (refuse_frame _ _ _) (by decide)
          assumption
        · refine inv_ite ?_ ?_
          · refine inv_step ?_ (only_cap (OnlyChanges.refl _ _) _ (fun _ hp => hp)) (by decide)
            assumption
          · refine runStateLoad_inv _ _ _ ?_
            assumption

theorem runLoads_inv (s : State) (h_s : Machine.Inv s) :
    Machine.Inv (runLoads s) := by
  unfold runLoads
  refine inv_fold ?_ (fun u0 y1 h2 => ?_)
  · assumption
  · refine inv_ite ?_ ?_
    · assumption
    · refine runStateLoad_inv _ _ _ ?_
      refine inv_step ?_ (only_cap (OnlyChanges.refl _ _) _ (fun _ hp => hp)) (by decide)
      assumption

theorem execPlayEnd_inv (org : Nat) (sh : Nat) (s : State) (h_s : Machine.Inv s) :
    outAll Machine.Inv (execPlayEnd org sh s) := by
  unfold execPlayEnd
  change Machine.Inv _
  refine runLoads_inv _ ?_
  refine playEnd_inv _ _ _ ?_
  assumption

theorem execCapstanFail_inv (k : Nat) (s : State) (h_s : Machine.Inv s) :
    outAll Machine.Inv (execCapstanFail k s) := by
  unfold execCapstanFail
  split
  · rename_i v0
    change Machine.Inv _
    assumption
  · rename_i v1
    change Machine.Inv _
    refine failCapstan_inv _ _ ?_
    assumption

theorem execRebuildComplete_inv (k : Nat) (s : State) (h_s : Machine.Inv s) :
    outAll Machine.Inv (execRebuildComplete k s) := by
  unfold execRebuildComplete
  extract_lets x0
  clear_value x0
  split
  · rename_i v1
    change Machine.Inv _
    refine pumpAll_inv _ ?_
    refine inv_step ?_ (unsettleCap_frame _ _) (by decide)
    refine inv_step ?_ (record_frame _ _ _ _ _ _ _ _ _ _) (by decide)
    refine inv_step ?_ (setCapstan_frame _ _ _) (by decide)
    assumption
  · rename_i v2
    change Machine.Inv _
    assumption

theorem runStep_inv (p : Packet) (order : Nat) (replay : Bool) (s : State) (h_s : Machine.Inv s) :
    Machine.Inv (runStep p order replay s) := by
  unfold runStep
  split
  · rename_i v0 v1
    refine inv_step ?_ (opPlayFire_frame _ _ _) (by decide)
    assumption
  · rename_i v2 v3
    refine inv_step ?_ (opCommitArm_frame _ _ _) (by decide)
    assumption
  · rename_i v4 v5
    refine atFire_inv ?_ ?_
    · assumption
    · refine inv_step ?_ (opCollFire_frame _ _) (by decide)
      assumption
  · rename_i v6 v7
    refine inv_step ?_ (opBarrier_frame _ _) (by decide)
    assumption
  · rename_i v8 v9
    refine atFire_inv ?_ ?_
    · assumption
    · refine opXchSet_inv _ _ ?_
      assumption
  · rename_i v10 v11 v12 v13 v14 v15
    assumption

theorem dispatchStep_inv (p : Packet) (s : State) (h_s : Machine.Inv s) :
    Machine.Inv (dispatchStep p s) := by
  unfold dispatchStep
  extract_lets x0 x1
  clear_value x0 x1
  refine runStep_inv _ _ _ _ ?_
  refine inv_step ?_ (logStep_frame _ _ _) (by decide)
  refine inv_step ?_ (only_arrivals (OnlyChanges.refl _ _) _ (fun _ hp => hp)) (by decide)
  assumption

theorem execControlPacket_inv (c : Control) (t : Transit) (s : State) (h_s : Machine.Inv s) :
    outAll Machine.Inv (execControlPacket c t s) := by
  unfold execControlPacket
  split
  · rename_i v0 v1
    refine absorb (P := optAll Machine.Inv) v1 ?_ (fun q2 => ?_)
    · refine inv_stepOpt ?_ (freeRx_frame _ _) (by decide)
      assumption
    change Machine.Inv _
    assumption
  · rename_i v3 v4 v5
    refine absorb (P := optAll Machine.Inv) v5 ?_ (fun q6 => ?_)
    · refine inv_stepOpt ?_ (freeRx_frame _ _) (by decide)
      assumption
    split
    · rename_i v7
      change Machine.Inv _
      assumption
    · rename_i v8
      split
      · rename_i v9
        change Machine.Inv _
        refine inv_step ?_ (takeControl_frame _ _) (by decide)
        assumption
      · rename_i v10 v11 v12
        change Machine.Inv _
        refine inv_step ?_ (xingRecord_frame _ _ _ _) (by decide)
        assumption
      · rename_i v13 v14 v15
        split
        · rename_i v16 v17 v18 v19
          refine absorb (P := sndAll Machine.Inv) v19 ?_ (fun q20 => ?_)
          · refine parityMeets_inv _ _ _ _ _ _ ?_
            assumption
          change Machine.Inv _
          refine inv_ite ?_ ?_
          · assumption
          · refine inv_step ?_ (takeControl_frame _ _) (by decide)
            assumption

theorem closeWindow_inv (s : State) (h_s : Machine.Inv s) :
    Machine.Inv (closeWindow s) := by
  unfold closeWindow
  split
  · rename_i v0 v1
    assumption
  · rename_i v2 v3 v4
    extract_lets x5 x6 x7 x8
    have h9 : Machine.Inv x5 := by
      unfold x5
      refine inv_step ?_ (raiseSplit_frame _ _) (by decide)
      assumption
    have h10 : Machine.Inv x6 := by
      unfold x6
      refine inv_ite ?_ ?_
      · refine inv_step ?_ (evaluate_frame _ _ _ _) (by decide)
        assumption
      · assumption
    clear_value x5 x6 x7 x8
    refine pumpAll_inv _ ?_
    refine takeHeld_inv _ ?_
    refine inv_step ?_ (only_cap (OnlyChanges.refl _ _) _ (fun _ hp => hp)) (by decide)
    assumption

theorem execOutcomeWindowClose_inv (s : State) (h_s : Machine.Inv s) : outAll Machine.Inv (execOutcomeWindowClose s) := by
  have key (e : CtWord) (t : State) (h : timeTo e s = some t) : Machine.Inv t := by
    have k := timeTo_frame e s
    rw [h] at k
    exact inv_step h_s k (by decide)
  unfold execOutcomeWindowClose
  split
  · exact h_s
  · split
    · exact h_s
    · split
      · rename_i h
        exact closeWindow_inv _ (key _ _ h)
      · exact h_s

theorem redispatch_inv (s : State) (l : Logged) (h_s : Machine.Inv s) :
    Machine.Inv (redispatch s l) := by
  unfold redispatch
  extract_lets x0 x1 x2 x3 x4
  clear_value x0 x1 x2 x3 x4
  refine runStep_inv _ _ _ _ ?_
  refine inv_step ?_ (only_arrivals_cap (OnlyChanges.refl _ _) _ _ (fun _ hp => hp)) (by decide)
  assumption

theorem replaySteps_inv (a : Armed) (hi : Nat) (s : State) (h_s : Machine.Inv s) :
    Machine.Inv (replaySteps a hi s) := by
  unfold replaySteps
  extract_lets x0 x1 x2 x3 x4 x5 x6 x7
  have h8 : Machine.Inv x3 := by
    unfold x3
    refine inv_step ?_ (dropStep_frame _ _) (by decide)
    refine inv_step ?_ (shiftHigher_frame _ _ _) (by decide)
    refine inv_step ?_ (stopSteps_frame _ _ _) (by decide)
    assumption
  have h9 : Machine.Inv x5 := by
    unfold x5
    refine inv_step ?_ (only_cap (OnlyChanges.refl _ _) _ (fun _ hp => hp)) (by decide)
    assumption
  have h10 : Machine.Inv x6 := by
    unfold x6
    refine inv_step ?_ (postStep_frame _ _ _ _) (by decide)
    assumption
  clear_value x0 x1 x2 x3 x4 x5 x6 x7
  refine inv_fold ?_ (fun u11 y12 h13 => ?_)
  · assumption
  · refine redispatch_inv _ _ ?_
    assumption

theorem abortStep_inv (a : Armed) (hi : Nat) (n : Nat) (replied : Bool) (s : State) (h_s : Machine.Inv s) :
    Machine.Inv (abortStep a hi n replied s) := by
  unfold abortStep
  extract_lets x0 x1 x2 x3 x4
  have h5 : Machine.Inv x1 := by
    unfold x1
    refine inv_step ?_ (only_cap (OnlyChanges.refl _ _) _ (fun _ hp => hp)) (by decide)
    assumption
  have h6 : Machine.Inv x3 := by
    unfold x3
    refine inv_step ?_ (commitReply_frame _ _ _ _ _) (by decide)
    refine inv_step ?_ (dropStep_frame _ _) (by decide)
    refine inv_step ?_ (stopForGood_frame _ _) (by decide)
    assumption
  clear_value x0 x1 x2 x3 x4
  refine inv_ite ?_ ?_
  · refine inv_step ?_ (only_cap (OnlyChanges.refl _ _) _ (fun _ hp => hp)) (by decide)
    assumption
  · refine replaySteps_inv _ _ _ ?_
    assumption

theorem commitStep_inv (a : Armed) (s : State) (h_s : Machine.Inv s) :
    Machine.Inv (commitStep a s) := by
  unfold commitStep
  extract_lets x0 x1 x2 x3 x4 x5 x6 x7 x8 x9 x10 x11 x12
  have h13 : Machine.Inv x2 := by
    unfold x2
    refine inv_step ?_ (openWindow_frame _ _ _) (by decide)
    refine closeWindow_inv _ ?_
    assumption
  have h14 : Machine.Inv x4 := by
    unfold x4
    refine inv_step ?_ (mapLedger_frame _ _) (by decide)
    refine inv_step ?_ (clearLost_frame _) (by decide)
    refine inv_step ?_ (loseSnaps_frame _) (by decide)
    assumption
  have h15 : Machine.Inv x6 := by
    unfold x6
    refine inv_ite ?_ ?_
    · assumption
    · refine inv_step ?_ (dropCopies_frame _) (by decide)
      refine inv_step ?_ (only_cap (OnlyChanges.refl _ _) _ (fun _ hp => hp)) (by decide)
      assumption
  have h16 : Machine.Inv x7 := by
    unfold x7
    refine inv_step ?_ (mapSlotsC_frame _ _) (by decide)
    refine inv_step ?_ (endExchanges_frame _ _) (by decide)
    refine inv_step ?_ (closeCounts_frame _) (by decide)
    assumption
  have h17 : Machine.Inv x10 := by
    unfold x10
    refine inv_step ?_ (only_cap_watch (OnlyChanges.refl _ _) _ _ (fun _ hp => hp)) (by decide)
    assumption
  have h18 : Machine.Inv x11 := by
    unfold x11
    refine inv_step ?_ (commitReply_frame _ _ _ _ _) (by decide)
    assumption
  clear_value x0 x1 x2 x3 x4 x5 x6 x7 x8 x9 x10 x11 x12
  refine inv_fold ?_ (fun u19 y20 h21 => ?_)
  · assumption
  · refine redispatch_inv _ _ ?_
    assumption

theorem abortAtCp_inv (a : Armed) (s : State) (h_s : Machine.Inv s) :
    Machine.Inv (abortAtCp a s) := by
  unfold abortAtCp
  refine abortStep_inv _ _ _ _ _ ?_
  refine inv_step ?_ (dropOpen_frame _) (by decide)
  refine inv_step ?_ (openWindow_frame _ _ _) (by decide)
  refine closeWindow_inv _ ?_
  assumption

theorem commitPoint_inv (s : State) (h_s : Machine.Inv s) :
    Machine.Inv (commitPoint s) := by
  unfold commitPoint
  split
  · rename_i v0 v1
    assumption
  · rename_i v2 v3 v4
    refine inv_ite ?_ ?_
    · assumption
    · refine inv_ite ?_ ?_
      · refine commitStep_inv _ _ ?_
        assumption
      · refine abortAtCp_inv _ _ ?_
        assumption

theorem execCommit_inv (s : State) (h_s : Machine.Inv s) :
    outAll Machine.Inv (execCommit s) := by
  unfold execCommit
  split
  · rename_i v0 v1
    change Machine.Inv _
    assumption
  · rename_i v2 v3 v4
    split
    · rename_i v5
      change Machine.Inv _
      assumption
    · rename_i v6
      split
      · rename_i v7 v8 v9
        refine absorb (P := optAll Machine.Inv) v9 ?_ (fun q10 => ?_)
        · refine inv_stepOpt ?_ (comeTo_frame _ _ _) (by decide)
          assumption
        change Machine.Inv _
        refine commitPoint_inv _ ?_
        assumption
      · rename_i v11 v12
        refine absorb (P := optAll Machine.Inv) v12 ?_ (fun q13 => ?_)
        · refine inv_stepOpt ?_ (comeTo_frame _ _ _) (by decide)
          assumption
        change Machine.Inv _
        assumption

theorem retractStep_inv (w : Window) (s : State) (h_s : Machine.Inv s) :
    Machine.Inv (retractStep w s) := by
  unfold retractStep
  extract_lets x0 x1 x2 x3 x4 x5 x6
  have h7 : Machine.Inv x2 := by
    unfold x2
    refine inv_ite ?_ ?_
    · assumption
    · refine inv_step ?_ (dropCopies_frame _) (by decide)
      refine inv_step ?_ (only_cap (OnlyChanges.refl _ _) _ (fun _ hp => hp)) (by decide)
      assumption
  have h8 : Machine.Inv x5 := by
    unfold x5
    refine inv_step ?_ (only_cap_watch (OnlyChanges.refl _ _) _ _ (fun _ hp => hp)) (by decide)
    assumption
  have h9 : Machine.Inv x6 := by
    unfold x6
    refine inv_step ?_ (postStep_frame _ _ _ _) (by decide)
    refine inv_step ?_ (dropBoth_frame _) (by decide)
    refine inv_step ?_ (mapLedger_frame _ _) (by decide)
    assumption
  clear_value x0 x1 x2 x3 x4 x5 x6
  refine abortStep_inv _ _ _ _ _ ?_
  assumption

theorem execCommitRetract_inv (m : Nat) (s : State) (h_s : Machine.Inv s) :
    outAll Machine.Inv (execCommitRetract m s) := by
  unfold execCommitRetract
  split
  · rename_i v0 v1
    change Machine.Inv _
    assumption
  · rename_i v2 v3 v4
    split
    · rename_i v5
      change Machine.Inv _
      refine retractStep_inv _ _ ?_
      assumption
    · rename_i v6
      change Machine.Inv _
      assumption

theorem writeCommitted_inv (v : W32) (s : State) (h_s : Machine.Inv s) :
    Machine.Inv (writeCommitted v s) := by
  unfold writeCommitted
  refine inv_ite ?_ ?_
  · refine inv_step ?_ (lockViolation_frame _) (by decide)
    assumption
  · refine pumpAll_inv _ ?_
    refine takeHeld_inv _ ?_
    refine inv_step ?_ (clearLost_frame _) (by decide)
    refine inv_step ?_ (mapLedger_frame _ _) (by decide)
    refine inv_step ?_ (only_cap (OnlyChanges.refl _ _) _ (fun _ hp => hp)) (by decide)
    assumption

theorem execCommittedWrite_inv (h : HostAccess) (v : W32) (s : State) (h_s : Machine.Inv s) :
    outAll Machine.Inv (execCommittedWrite h v s) := by
  unfold execCommittedWrite
  refine orHold_inv ?_ ?_
  · assumption
  · split
    · rename_i v0
      change Machine.Inv _
      refine writeCommitted_inv _ _ ?_
      assumption
    · rename_i v1
      change Machine.Inv _
      assumption

theorem opWatchGet_inv (p : Packet) (s : State) (h_s : Machine.Inv s) :
    Machine.Inv (opWatchGet p s) := by
  unfold opWatchGet
  extract_lets x0 x1 x2 x3 x4
  clear_value x0 x1 x2 x3 x4
  refine inv_ite ?_ ?_
  · refine inv_step ?_ (refuse_frame _ _ _) (by decide)
    assumption
  · refine inv_ite ?_ ?_
    · refine inv_step ?_ (refuse_frame _ _ _) (by decide)
      assumption
    · refine inv_step ?_ (accept_frame _ _) (by decide)
      refine destWrite_inv _ _ _ _ ?_
      assumption

theorem execChMigrate_inv (n : Nat) (c : Nat) (row : Option Nat) (s : State) (h_s : Machine.Inv s) :
    outAll Machine.Inv (execChMigrate n c row s) := by
  unfold execChMigrate
  change Machine.Inv _
  refine inv_step ?_ (needMigration_frame _ _ _) (by decide)
  refine elim_of (P := Machine.Inv) ?_ (fun y0 => ?_)
  · assumption
  · refine restoreGranule_inv _ _ ?_
    assumption

theorem repairRow_inv (x : Retired) (readable : Bool) (s : State) (h_s : Machine.Inv s) :
    Machine.Inv (repairRow x readable s) := by
  unfold repairRow
  extract_lets x0 x1 x2 x3 x4 x5 x6 x7 x8 x9 x10 x11 x12
  have h13 : Machine.Inv x5 := by
    unfold x5
    refine inv_step ?_ (retireSpare_frame _ _ _ _) (by decide)
    assumption
  have h14 : Machine.Inv x6 := by
    unfold x6
    refine inv_step ?_ (setStack_frame _ _ _) (by decide)
    assumption
  have h15 : Machine.Inv x8 := by
    unfold x8
    refine inv_step ?_ (only_store (OnlyChanges.refl _ _) _ (fun _ hp => hp)) (by decide)
    assumption
  have h16 : Machine.Inv x9 := by
    unfold x9
    refine inv_step ?_ (record_frame _ _ _ _ _ _ _ _ _ _) (by decide)
    assumption
  have h17 : Machine.Inv x10 := by
    unfold x10
    refine inv_ite ?_ ?_
    · assumption
    · refine restoreGranule_inv _ _ ?_
      assumption
  have h18 : Machine.Inv x12 := by
    unfold x12
    refine inv_step ?_ (only_near (OnlyChanges.refl _ _) _ (fun _ hp => hp)) (by decide)
    assumption
  clear_value x0 x1 x2 x3 x4 x5 x6 x7 x8 x9 x10 x11 x12
  refine inv_ite ?_ ?_
  · assumption
  · refine inv_ite ?_ ?_
    · refine inv_ite ?_ ?_
      · refine inv_step ?_ (needMigration_frame _ _ _) (by decide)
        assumption
      · assumption
    · refine inv_ite ?_ ?_
      · refine inv_step ?_ (ledgerRec_frame _ _ _ _ _ _ _ _) (by decide)
        refine inv_step ?_ (postFull_frame _ _ _ _ _ _ _) (by decide)
        assumption
      · refine inv_step ?_ (needSplice_frame _ _ _ _) (by decide)
        refine inv_ite ?_ ?_
        · assumption
        · refine restoreGranule_inv _ _ ?_
          assumption

theorem execRowRepair_inv (n : Nat) (c : Nat) (bank : Nat) (row : Nat) (readable : Bool) (copier : Bool) (s : State) (h_s : Machine.Inv s) :
    outAll Machine.Inv (execRowRepair n c bank row readable copier s) := by
  unfold execRowRepair
  extract_lets x0
  clear_value x0
  split
  · rename_i v1
    change Machine.Inv _
    refine inv_ite ?_ ?_
    · refine restoreGranule_inv _ _ ?_
      assumption
    · assumption
  · rename_i v2
    change Machine.Inv _
    refine repairRow_inv _ _ _ ?_
    assumption

theorem scrubFinds_inv (n : Nat) (c : Nat) (rw : Nat) (r : ArrayRead) (s : State) (h_s : Machine.Inv s) :
    Machine.Inv (scrubFinds n c rw r s) := by
  unfold scrubFinds
  split
  · rename_i v0
    assumption
  · rename_i v1
    refine repairRow_inv _ _ _ ?_
    assumption
  · rename_i v2
    extract_lets x3 x4 x5 x6 x7
    have h8 : Machine.Inv x6 := by
      unfold x6
      refine inv_step ?_ (setStack_frame _ _ _) (by decide)
      assumption
    have h9 : Machine.Inv x7 := by
      unfold x7
      refine inv_step ?_ (record_frame _ _ _ _ _ _ _ _ _ _) (by decide)
      assumption
    clear_value x3 x4 x5 x6 x7
    refine inv_ite ?_ ?_
    · refine repairRow_inv _ _ _ ?_
      assumption
    · assumption

theorem execScrub_inv (n : Nat) (c : Nat) (r : ArrayRead) (s : State) (h_s : Machine.Inv s) :
    outAll Machine.Inv (execScrub n c r s) := by
  unfold execScrub
  extract_lets x0 x1 x2 x3
  have h4 : Machine.Inv x3 := by
    unfold x3
    refine inv_step ?_ (only_near (OnlyChanges.refl _ _) _ (fun _ hp => hp)) (by decide)
    assumption
  clear_value x0 x1 x2 x3
  split
  · rename_i v5
    change Machine.Inv _
    assumption
  · rename_i v6
    change Machine.Inv _
    refine inv_step ?_ (endLap_frame _) (by decide)
    refine scrubFinds_inv _ _ _ _ _ ?_
    refine inv_step ?_ (setStack_frame _ _ _) (by decide)
    assumption

theorem rimStep_inv (k : Nat) (row : Nat) (r : ArrayRead) (s : State) (h_s : Machine.Inv s) :
    Machine.Inv (rimStep k row r s) := by
  unfold rimStep
  extract_lets x0 x1 x2
  have h3 : Machine.Inv x2 := by
    unfold x2
    refine inv_step ?_ (only_cap (OnlyChanges.refl _ _) _ (fun _ hp => hp)) (by decide)
    assumption
  clear_value x0 x1 x2
  refine inv_ite ?_ ?_
  · assumption
  · refine inv_step ?_ (endRimLap_frame _) (by decide)
    refine rimFinds_inv _ _ _ _ _ ?_
    refine inv_step ?_ (setCapstan_frame _ _ _) (by decide)
    assumption

theorem execRimScrub_inv (k : Nat) (r : Option (Nat × ArrayRead)) (s : State) (h_s : Machine.Inv s) :
    outAll Machine.Inv (execRimScrub k r s) := by
  unfold execRimScrub
  split
  · rename_i v0 v1 v2
    change Machine.Inv _
    refine inv_step ?_ (rimStarve_frame _) (by decide)
    refine rimStep_inv _ _ _ _ ?_
    assumption
  · rename_i v3
    change Machine.Inv _
    refine inv_step ?_ (rimStarve_frame _) (by decide)
    assumption

theorem resumeAccess_inv (s : State) (h_s : Machine.Inv s) :
    Machine.Inv (resumeAccess s) := by
  unfold resumeAccess
  refine pumpAll_inv _ ?_
  refine inv_step ?_ (serveFetches_frame _) (by decide)
  refine inv_step ?_ (runEvals_frame _) (by decide)
  refine runLoads_inv _ ?_
  refine takeHeld_inv _ ?_
  refine serveAper_inv _ ?_
  assumption

theorem execBeatEdge_inv (b : BeatSignal) (stuck : List Nat) (s : State) (h_s : Machine.Inv s) :
    outAll Machine.Inv (execBeatEdge b stuck s) := by
  unfold execBeatEdge
  change Machine.Inv _
  refine resumeAccess_inv _ ?_
  refine inv_step ?_ (closePassing_frame _) (by decide)
  refine inv_step ?_ (beatEdge_frame _ _ _) (by decide)
  assumption

theorem execNsThermal_inv (n : Nat) (rim : Bool) (a : List ℤ) (b : List ℤ) (s : State) (h_s : Machine.Inv s) :
    outAll Machine.Inv (execNsThermal n rim a b s) := by
  unfold execNsThermal
  split
  · rename_i v0
    change Machine.Inv _
    refine inv_ite ?_ ?_
    · refine resumeAccess_inv _ ?_
      refine inv_step ?_ (rimStackThermal_frame _ _ _) (by decide)
      assumption
    · assumption
  · rename_i v1
    change Machine.Inv _
    refine resumeAccess_inv _ ?_
    refine inv_step ?_ (stackThermal_frame _ _ _) (by decide)
    assumption

theorem spliceRow_inv (f : Nat) (r : Nat) (c : Nat) (readable : Bool) (s : State) (h_s : Machine.Inv s) :
    Machine.Inv (spliceRow f r c readable s) := by
  unfold spliceRow
  extract_lets x0 x1 x2 x3 x4 x5 x6
  have h7 : Machine.Inv x3 := by
    unfold x3
    refine inv_ite ?_ ?_
    · assumption
    · refine zeroTile_inv _ _ ?_
      refine inv_step ?_ (only_cap (OnlyChanges.refl _ _) _ (fun _ hp => hp)) (by decide)
      assumption
  have h8 : Machine.Inv x5 := by
    unfold x5
    refine inv_step ?_ (only_caches_rel (OnlyChanges.refl _ _) _ _ (fun _ hp => hp)) (by decide)
    assumption
  have h9 : Machine.Inv x6 := by
    unfold x6
    refine inv_step ?_ (invalidateRow_frame _ _ _) (by decide)
    refine inv_step ?_ (clearTally_frame _ _ _) (by decide)
    refine inv_step ?_ (addBadTile_frame _ _) (by decide)
    assumption
  clear_value x0 x1 x2 x3 x4 x5 x6
  refine inv_step ?_ (record_frame _ _ _ _ _ _ _ _ _ _) (by decide)
  refine inv_step ?_ (postFull_frame _ _ _ _ _ _ _) (by decide)
  refine inv_step ?_ (journalRecord_frame _) (by decide)
  assumption

theorem execTileSplice_inv (f : Nat) (r : Nat) (c : Nat) (readable : Bool) (s : State) (h_s : Machine.Inv s) :
    outAll Machine.Inv (execTileSplice f r c readable s) := by
  unfold execTileSplice
  extract_lets x0 x1
  have h2 : ∀ a3, Machine.Inv a3 → Machine.Inv (x1 a3) := by
    intro b4 k5
    unfold x1
    refine inv_step ?_ (only_rel (OnlyChanges.refl _ _) _ (fun _ hp => hp)) (by decide)
    assumption
  clear_value x0 x1
  split
  · rename_i v6
    change Machine.Inv _
    assumption
  · rename_i v7
    split
    · rename_i v8
      split
      · rename_i v9
        change Machine.Inv _
        apply h2
        · refine inv_step ?_ (record_frame _ _ _ _ _ _ _ _ _ _) (by decide)
          refine inv_step ?_ (clearTally_frame _ _ _) (by decide)
          refine inv_step ?_ (addBadTile_frame _ _) (by decide)
          refine inv_step ?_ (journalRecord_frame _) (by decide)
          assumption
      · rename_i v10
        split
        · rename_i v11
          change Machine.Inv _
          apply h2
          · refine spliceRow_inv _ _ _ _ _ ?_
            assumption
        · rename_i v12
          change Machine.Inv _
          assumption
    · rename_i v13
      split
      · rename_i v14
        change Machine.Inv _
        apply h2
        · assumption
      · rename_i v15
        change Machine.Inv _
        apply h2
        · refine inv_step ?_ (noSpare_frame _ _ _ _) (by decide)
          assumption

theorem execStageFill_inv (rows : List (Nat × Nat × Nat × Nat)) (failed : List (Nat × Nat)) (s : State) (h_s : Machine.Inv s) :
    outAll Machine.Inv (execStageFill rows failed s) := by
  unfold execStageFill
  split
  · rename_i v0
    change Machine.Inv _
    assumption
  · rename_i v1
    extract_lets x2 x3
    have h4 : Machine.Inv x2 := by
      unfold x2
      refine inv_fold ?_ (fun u5 y6 h7 => ?_)
      · refine zeroAll_inv _ ?_
        assumption
      · split
        · rename_i v8 v9 v10 v11 v12
          refine repairRow_inv _ _ _ ?_
          assumption
    have h13 : Machine.Inv x3 := by
      unfold x3
      refine inv_fold ?_ (fun u14 y15 h16 => ?_)
      · assumption
      · refine inv_step ?_ (fillFails_frame _ _) (by decide)
        assumption
    clear_value x2 x3
    split
    · rename_i v17
      change Machine.Inv _
      assumption
    · rename_i v18
      change Machine.Inv _
      refine inv_step ?_ (stageOk_frame _) (by decide)
      assumption

theorem powerOff_inv (leak : Bool) (s : State) (h_s : Machine.Inv s) :
    Machine.Inv (powerOff leak s) := by
  unfold powerOff
  refine volatileLost_inv _ ?_
  refine inv_step ?_ (only_pins (OnlyChanges.refl _ _) _ (fun _ hp => hp)) (by decide)
  assumption

theorem shutDown_inv (leak : Bool) (s : State) (h_s : Machine.Inv s) :
    Machine.Inv (shutDown leak s) := by
  unfold shutDown
  refine inv_ite ?_ ?_
  · refine powerOff_inv _ _ ?_
    assumption
  · assumption

theorem execPrecharge_inv (mv : ℤ) (s : State) (h_s : Machine.Inv s) :
    outAll Machine.Inv (execPrecharge mv s) := by
  unfold execPrecharge
  split
  · rename_i v0
    trivial
  · rename_i v1
    split
    · rename_i v2
      change Machine.Inv _
      refine shutDown_inv _ _ ?_
      assumption
    · rename_i v3
      split
      · rename_i v4
        extract_lets x5 x6
        have h7 : Machine.Inv x5 := by
          unfold x5
          refine shutDown_inv _ _ ?_
          assumption
        clear_value x5 x6
        change Machine.Inv _
        refine inv_ite ?_ ?_
        · refine inv_step ?_ (only_pins (OnlyChanges.refl _ _) _ (fun _ hp => hp)) (by decide)
          assumption
        · assumption
      · rename_i v8
        split
        · rename_i v9
          change Machine.Inv _
          refine inv_step ?_ (only_pins (OnlyChanges.refl _ _) _ (fun _ hp => hp)) (by decide)
          assumption
        · rename_i v10
          change Machine.Inv _
          assumption

theorem execShutdown_inv (c : InputFault) (s : State) (h_s : Machine.Inv s) :
    outAll Machine.Inv (execShutdown c s) := by
  unfold execShutdown
  change Machine.Inv _
  refine inv_ite ?_ ?_
  · refine shutDown_inv _ _ ?_
    assumption
  · assumption

theorem execLeak_inv (s : State) (h_s : Machine.Inv s) :
    outAll Machine.Inv (execLeak s) := by
  unfold execLeak
  split
  · rename_i v0
    change Machine.Inv _
    refine powerOff_inv _ _ ?_
    assumption
  · rename_i v1
    change Machine.Inv _
    refine inv_step ?_ (only_pins (OnlyChanges.refl _ _) _ (fun _ hp => hp)) (by decide)
    assumption

theorem execModRstAssert_inv (s : State) (h_s : Machine.Inv s) :
    outAll Machine.Inv (execModRstAssert s) := by
  unfold execModRstAssert
  extract_lets x0 x1
  have h2 : Machine.Inv x1 := by
    unfold x1
    refine inv_step ?_ (only_pins (OnlyChanges.refl _ _) _ (fun _ hp => hp)) (by decide)
    assumption
  clear_value x0 x1
  split
  · rename_i v3
    change Machine.Inv _
    refine volatileLost_inv _ ?_
    assumption
  · rename_i v4
    change Machine.Inv _
    assumption

theorem dbgResume_inv (s : State) (h_s : Machine.Inv s) :
    Machine.Inv (dbgResume s) := by
  unfold dbgResume
  refine inv_ite ?_ ?_
  · refine pumpAll_inv _ ?_
    refine inv_step ?_ (setDbg_frame _ _) (by decide)
    assumption
  · assumption

theorem writeDbgCtrl_inv (v : W64) (s : State) (h_s : Machine.Inv s) :
    Machine.Inv (writeDbgCtrl v s) := by
  unfold writeDbgCtrl
  refine dbgGate_inv ?_ ?_
  · assumption
  · refine dbgOnTile_inv ?_ ?_
    · assumption
    · extract_lets x0 x1
      have h2 : Machine.Inv x0 := by
        unfold x0
        refine inv_ite ?_ ?_
        · refine inv_step ?_ (dbgHalt_frame _) (by decide)
          assumption
        · assumption
      have h3 : Machine.Inv x1 := by
        unfold x1
        refine inv_ite ?_ ?_
        · refine inv_step ?_ (dbgStep_frame _) (by decide)
          assumption
        · assumption
      clear_value x0 x1
      refine inv_ite ?_ ?_
      · refine dbgResume_inv _ ?_
        assumption
      · assumption

theorem execDbgResume_inv (h : HostAccess) (s : State) (h_s : Machine.Inv s) :
    outAll Machine.Inv (execDbgResume h s) := by
  unfold execDbgResume
  refine orHold_inv ?_ ?_
  · assumption
  · split
    · rename_i v0
      change Machine.Inv _
      refine dbgGate_inv ?_ ?_
      · assumption
      · refine dbgOnTile_inv ?_ ?_
        · assumption
        · refine dbgResume_inv _ ?_
          assumption
    · rename_i v1
      change Machine.Inv _
      assumption

theorem opTelemSnap_inv (x : Snap) (p : Packet) (s : State) (h_s : Machine.Inv s) :
    Machine.Inv (opTelemSnap x p s) := by
  unfold opTelemSnap
  extract_lets x0 x1
  clear_value x0 x1
  refine inv_ite ?_ ?_
  · refine inv_step ?_ (refuse_frame _ _ _) (by decide)
    assumption
  · refine inv_ite ?_ ?_
    · refine inv_step ?_ (refuse_frame _ _ _) (by decide)
      assumption
    · refine inv_step ?_ (accept_frame _ _) (by decide)
      refine destWrite_inv _ _ _ _ ?_
      assumption

theorem putRecords_inv (p : Packet) (get : Nat → Option (List Byte)) (next : Nat) (first : Nat) (count : Nat) (dest : Nat) (s : State) (h_s :
    Machine.Inv s) :
    Machine.Inv (putRecords p get next first count dest s) := by
  unfold putRecords
  refine inv_ite ?_ ?_
  · refine inv_step ?_ (refuse_frame _ _ _) (by decide)
    assumption
  · refine inv_ite ?_ ?_
    · refine inv_step ?_ (refuse_frame _ _ _) (by decide)
      assumption
    · split
      · rename_i v0 v1 v2 v3
        refine absorb (P := sndAll Machine.Inv) v3 ?_ (fun q4 => ?_)
        · refine inv_stepSnd ?_ (recordBytes_frame _ _ _ _ _) (by decide)
          assumption
        refine inv_step ?_ (accept_frame _ _) (by decide)
        refine destWrite_inv _ _ _ _ ?_
        assumption

theorem opEventGet_inv (p : Packet) (s : State) (h_s : Machine.Inv s) :
    Machine.Inv (opEventGet p s) := by
  unfold opEventGet
  refine putRecords_inv _ _ _ _ _ _ _ ?_
  assumption

theorem opFaultGet_inv (p : Packet) (s : State) (h_s : Machine.Inv s) :
    Machine.Inv (opFaultGet p s) := by
  unfold opFaultGet
  refine putRecords_inv _ _ _ _ _ _ _ ?_
  assumption

theorem writeDbg_inv (o : Nat) (v : W64) (s : State) (h_s : Machine.Inv s) :
    Machine.Inv (writeDbg o v s) := by
  unfold writeDbg
  refine inv_ite ?_ ?_
  · refine writeDbgCtrl_inv _ _ ?_
    assumption
  · refine dbgGate_inv ?_ ?_
    · assumption
    · refine inv_ite ?_ ?_
      · refine inv_ite ?_ ?_
        · refine inv_step ?_ (argReject_frame _ _ _) (by decide)
          assumption
        · refine inv_step ?_ (setDbg_frame _ _) (by decide)
          assumption
      · refine inv_ite ?_ ?_
        · refine inv_step ?_ (setDbg_frame _ _) (by decide)
          assumption
        · refine inv_ite ?_ ?_
          · refine dbgOnTile_inv ?_ ?_
            · assumption
            · refine inv_step ?_ (dbgStore_frame _ _) (by decide)
              assumption
          · assumption

theorem setReg_inv (o : Nat) (v : W64) (s : State) (h_s : Machine.Inv s) :
    Machine.Inv (setReg o v s) := by
  unfold setReg
  refine inv_ite ?_ ?_
  · refine inv_step ?_ (writeBuCtrl_frame _ _) (by decide)
    assumption
  · refine inv_ite ?_ ?_
    · refine inv_step ?_ (writePrivLock_frame _ _) (by decide)
      assumption
    · refine inv_ite ?_ ?_
      · refine inv_step ?_ (only_host (OnlyChanges.refl _ _) _ (fun _ hp => hp)) (by decide)
        assumption
      · refine inv_ite ?_ ?_
        · refine inv_step ?_ (writeSeed_frame _ _) (by decide)
          assumption
        · refine inv_ite ?_ ?_
          · refine inv_step ?_ (writeAper_frame _ _ _) (by decide)
            assumption
          · refine inv_ite ?_ ?_
            · refine inv_step ?_ (writeAper_frame _ _ _) (by decide)
              assumption
            · refine inv_ite ?_ ?_
              · refine inv_step ?_ (writeEvtCfg_frame _ _) (by decide)
                assumption
              · refine inv_ite ?_ ?_
                · refine inv_step ?_ (xingClear_frame _ _ _) (by decide)
                  assumption
                · refine inv_ite ?_ ?_
                  · refine inv_step ?_ (writeCadCtrl_frame _ _) (by decide)
                    assumption
                  · refine inv_ite ?_ ?_
                    · refine inv_step ?_ (setCad_frame _ _) (by decide)
                      assumption
                    · refine inv_ite ?_ ?_
                      · refine inv_step ?_ (setPref_frame _ _) (by decide)
                        assumption
                      · refine inv_ite ?_ ?_
                        · refine inv_step ?_ (writePwrCtrl_frame _ _) (by decide)
                          assumption
                        · refine inv_ite ?_ ?_
                          · refine inv_step ?_ (writeTally_frame _ _ _) (by decide)
                            assumption
                          · refine inv_ite ?_ ?_
                            · refine inv_step ?_ (writeAudit_frame _ _ _) (by decide)
                              assumption
                            · refine inv_ite ?_ ?_
                              · refine inv_step ?_ (writeWatchCtrl_frame _ _) (by decide)
                                assumption
                              · refine inv_ite ?_ ?_
                                · refine inv_step ?_ (writeWatchCfg_frame _ _) (by decide)
                                  assumption
                                · refine inv_ite ?_ ?_
                                  · refine writeCommitted_inv _ _ ?_
                                    assumption
                                  · refine inv_ite ?_ ?_
                                    · refine inv_step ?_ (writeNsScrub_frame _ _) (by decide)
                                      assumption
                                    · refine inv_ite ?_ ?_
                                      · refine inv_step ?_ (writeRimScrub_frame _ _) (by decide)
                                        assumption
                                      · refine inv_ite ?_ ?_
                                        · refine inv_step ?_ (only_near (OnlyChanges.refl _ _) _ (fun _ hp => hp)) (by decide)
                                          assumption
                                        · refine inv_ite ?_ ?_
                                          · refine inv_ite ?_ ?_
                                            · refine inv_step ?_ (writeRegionLower_frame _ _ _) (by decide)
                                              assumption
                                            · refine inv_step ?_ (writeRegionUpper_frame _ _ _) (by decide)
                                              assumption
                                          · refine inv_ite ?_ ?_
                                            · refine inv_step ?_ (writeHawCfg_frame _ _) (by decide)
                                              assumption
                                            · refine inv_ite ?_ ?_
                                              · refine inv_step ?_ (writeQueueReg_frame _ _ _ _) (by decide)
                                                assumption
                                              · refine inv_ite ?_ ?_
                                                · refine writeDbg_inv _ _ _ ?_
                                                  assumption
                                                · assumption

theorem writeSlot_inv (h : HostAccess) (off : Nat) (wide : Bool) (v : W64) (s : State) (h_s : Machine.Inv s) :
    Machine.Inv (writeSlot h off wide v s) := by
  unfold writeSlot
  extract_lets x0
  clear_value x0
  split
  · rename_i v1 v2
    assumption
  · rename_i v3 v4 v5
    refine inv_ite ?_ ?_
    · assumption
    · refine inv_ite ?_ ?_
      · refine inv_step ?_ (post_frame _ _ _) (by decide)
        assumption
      · refine inv_ite ?_ ?_
        · assumption
        · refine setReg_inv _ _ _ ?_
          assumption

theorem hostRegWrite_inv (h : HostAccess) (off : Nat) (wide : Bool) (v : W64) (s : State) (h_s : Machine.Inv s) :
    Machine.Inv (hostRegWrite h off wide v s) := by
  unfold hostRegWrite
  refine inv_ite ?_ ?_
  · refine inv_step ?_ (unsupported_frame _ _) (by decide)
    assumption
  · refine inv_ite ?_ ?_
    · extract_lets x0 x1
      clear_value x0 x1
      refine inv_ite ?_ ?_
      · refine inv_step ?_ (ringSq_frame _ _ _ _) (by decide)
        assumption
      · refine inv_ite ?_ ?_
        · refine inv_step ?_ (ringCq_frame _ _ _ _) (by decide)
          assumption
        · assumption
    · refine inv_ite ?_ ?_
      · refine inv_ite ?_ ?_
        · refine writeSlot_inv _ _ _ _ _ ?_
          assumption
        · assumption
      · refine inv_ite ?_ ?_
        · refine writeSlot_inv _ _ _ _ _ ?_
          assumption
        · extract_lets x2 x3
          clear_value x2 x3
          refine inv_ite ?_ ?_
          · refine inv_ite ?_ ?_
            · assumption
            · refine inv_step ?_ (sendPending_frame _ _) (by decide)
              refine inv_step ?_ (setPcie_frame _ _ _) (by decide)
              assumption
          · refine inv_ite ?_ ?_
            · refine inv_step ?_ (writeWindow_frame _ _ _ _) (by decide)
              assumption
            · assumption

theorem execRegisterWrite_inv (h : HostAccess) (off : Nat) (wide : Bool) (v : W64) (s : State) (h_s : Machine.Inv s) :
    outAll Machine.Inv (execRegisterWrite h off wide v s) := by
  unfold execRegisterWrite
  refine orHold_inv ?_ ?_
  · assumption
  · change Machine.Inv _
    refine hostRegWrite_inv _ _ _ _ _ ?_
    assumption

theorem runOp_inv (p : Packet) (n : Nat) (s : State) (h_s : Machine.Inv s) :
    Machine.Inv (runOp p n s) := by
  unfold runOp
  split
  · rename_i v0 v1
    refine inv_step ?_ (accept_frame _ _) (by decide)
    assumption
  · rename_i v2 v3
    refine opEventGet_inv _ _ ?_
    assumption
  · rename_i v4 v5
    refine inv_step ?_ (opBuOpen_frame _ _) (by decide)
    assumption
  · rename_i v6 v7
    refine inv_step ?_ (opLoan_frame _ _ _) (by decide)
    assumption
  · rename_i v8 v9
    refine inv_step ?_ (opHintPlace_frame _ _) (by decide)
    assumption
  · rename_i v10 v11
    refine inv_step ?_ (opPlayAbort_frame _ _) (by decide)
    assumption
  · rename_i v12 v13
    refine inv_step ?_ (opPart_frame _ _) (by decide)
    assumption
  · rename_i v14 v15
    refine inv_step ?_ (opLedgerSet_frame _ _) (by decide)
    assumption
  · rename_i v16 v17
    refine opLedgerGet_inv _ _ ?_
    assumption
  · rename_i v18 v19
    refine inv_step ?_ (opGroupSet_frame _ _) (by decide)
    assumption
  · rename_i v20 v21
    refine opStateLoad_inv _ _ ?_
    assumption
  · rename_i v22 v23
    refine inv_step ?_ (opPlanSet_frame _ _) (by decide)
    assumption
  · rename_i v24 v25
    refine inv_step ?_ (opRouteSet_frame _ _) (by decide)
    assumption
  · rename_i v26 v27
    refine inv_step ?_ (opCollSet_frame _ _) (by decide)
    assumption
  · rename_i v28 v29
    refine inv_step ?_ (opPortCtrl_frame _ _) (by decide)
    assumption
  · rename_i v30 v31
    refine inv_step ?_ (opXmapSet_frame _ _) (by decide)
    assumption
  · rename_i v32 v33
    refine opXchGet_inv _ _ ?_
    assumption
  · rename_i v34 v35
    refine opTelemSnap_inv _ _ _ ?_
    assumption
  · rename_i v36 v37
    refine inv_step ?_ (opWatchSet_frame _ _) (by decide)
    assumption
  · rename_i v38 v39
    refine opWatchGet_inv _ _ ?_
    assumption
  · rename_i v40 v41
    refine inv_step ?_ (opVecEval_frame _ _) (by decide)
    assumption
  · rename_i v42 v43
    refine opFaultGet_inv _ _ ?_
    assumption
  · rename_i v44 v45
    refine inv_step ?_ (opKeyRevoke_frame _ _) (by decide)
    assumption
  · rename_i v46 v47
    refine inv_step ?_ (opRollbackSet_frame _ _) (by decide)
    assumption
  · rename_i v48 v49
    refine inv_step ?_ (opDebugLock_frame _ _) (by decide)
    assumption
  · rename_i v50 v51 v52 v53 v54 v55 v56 v57 v58 v59 v60 v61 v62 v63 v64 v65 v66 v67 v68 v69 v70 v71 v72 v73 v74 v75
    assumption

theorem execute_inv (p : Packet) (s : State) (h_s : Machine.Inv s) :
    Machine.Inv (execute p s) := by
  unfold execute
  refine inv_ite ?_ ?_
  · refine dispatchStep_inv _ _ ?_
    assumption
  · refine inv_ite ?_ ?_
    · refine inv_step ?_ (opPrefDispatch_frame _ _) (by decide)
      assumption
    · extract_lets x0 x1
      clear_value x0 x1
      refine atFire_inv ?_ ?_
      · refine inv_step ?_ (only_arrivals (OnlyChanges.refl _ _) _ (fun _ hp => hp)) (by decide)
        assumption
      · refine runOp_inv _ _ _ ?_
        refine inv_step ?_ (only_arrivals (OnlyChanges.refl _ _) _ (fun _ hp => hp)) (by decide)
        assumption

theorem dispatchPacket_inv (p : Packet) (s : State) (h_s : Machine.Inv s) :
    Machine.Inv (dispatchPacket p s) := by
  unfold dispatchPacket
  refine inv_ite ?_ ?_
  · assumption
  · split
    · rename_i v0 v1 v2
      refine inv_step ?_ (refuseAtDispatch_frame _ _ _) (by decide)
      assumption
    · rename_i v3 v4
      extract_lets x5
      clear_value x5
      split
      · rename_i v6 v7 v8
        refine inv_step ?_ (refuseAtDispatch_frame _ _ _) (by decide)
        assumption
      · rename_i v9 v10
        refine execute_inv _ _ ?_
        assumption

theorem execNop_inv (p : Packet) (s : State) (h_s : Machine.Inv s) :
    outAll Machine.Inv (execNop p s) := by
  unfold execNop
  change Machine.Inv _
  refine dispatchPacket_inv _ _ ?_
  assumption

theorem execEventGet_inv (p : Packet) (s : State) (h_s : Machine.Inv s) :
    outAll Machine.Inv (execEventGet p s) := by
  unfold execEventGet
  change Machine.Inv _
  refine dispatchPacket_inv _ _ ?_
  assumption

theorem execBuOpen_inv (p : Packet) (s : State) (h_s : Machine.Inv s) :
    outAll Machine.Inv (execBuOpen p s) := by
  unfold execBuOpen
  change Machine.Inv _
  refine dispatchPacket_inv _ _ ?_
  assumption

theorem execLoan_inv (p : Packet) (s : State) (h_s : Machine.Inv s) :
    outAll Machine.Inv (execLoan p s) := by
  unfold execLoan
  change Machine.Inv _
  refine dispatchPacket_inv _ _ ?_
  assumption

theorem execHintPlace_inv (p : Packet) (s : State) (h_s : Machine.Inv s) :
    outAll Machine.Inv (execHintPlace p s) := by
  unfold execHintPlace
  change Machine.Inv _
  refine dispatchPacket_inv _ _ ?_
  assumption

theorem execPlayFire_inv (p : Packet) (s : State) (h_s : Machine.Inv s) :
    outAll Machine.Inv (execPlayFire p s) := by
  unfold execPlayFire
  change Machine.Inv _
  refine dispatchPacket_inv _ _ ?_
  assumption

theorem execPlayAbort_inv (p : Packet) (s : State) (h_s : Machine.Inv s) :
    outAll Machine.Inv (execPlayAbort p s) := by
  unfold execPlayAbort
  change Machine.Inv _
  refine dispatchPacket_inv _ _ ?_
  assumption

theorem execPart_inv (p : Packet) (s : State) (h_s : Machine.Inv s) :
    outAll Machine.Inv (execPart p s) := by
  unfold execPart
  change Machine.Inv _
  refine dispatchPacket_inv _ _ ?_
  assumption

theorem execLedgerSet_inv (p : Packet) (s : State) (h_s : Machine.Inv s) :
    outAll Machine.Inv (execLedgerSet p s) := by
  unfold execLedgerSet
  change Machine.Inv _
  refine dispatchPacket_inv _ _ ?_
  assumption

theorem execLedgerGet_inv (p : Packet) (s : State) (h_s : Machine.Inv s) :
    outAll Machine.Inv (execLedgerGet p s) := by
  unfold execLedgerGet
  change Machine.Inv _
  refine dispatchPacket_inv _ _ ?_
  assumption

theorem execGroupSet_inv (p : Packet) (s : State) (h_s : Machine.Inv s) :
    outAll Machine.Inv (execGroupSet p s) := by
  unfold execGroupSet
  change Machine.Inv _
  refine dispatchPacket_inv _ _ ?_
  assumption

theorem execCommitArm_inv (p : Packet) (s : State) (h_s : Machine.Inv s) :
    outAll Machine.Inv (execCommitArm p s) := by
  unfold execCommitArm
  change Machine.Inv _
  refine dispatchPacket_inv _ _ ?_
  assumption

theorem execStateLoad_inv (p : Packet) (s : State) (h_s : Machine.Inv s) :
    outAll Machine.Inv (execStateLoad p s) := by
  unfold execStateLoad
  change Machine.Inv _
  refine dispatchPacket_inv _ _ ?_
  assumption

theorem execPlanSet_inv (p : Packet) (s : State) (h_s : Machine.Inv s) :
    outAll Machine.Inv (execPlanSet p s) := by
  unfold execPlanSet
  change Machine.Inv _
  refine dispatchPacket_inv _ _ ?_
  assumption

theorem execRouteSet_inv (p : Packet) (s : State) (h_s : Machine.Inv s) :
    outAll Machine.Inv (execRouteSet p s) := by
  unfold execRouteSet
  change Machine.Inv _
  refine dispatchPacket_inv _ _ ?_
  assumption

theorem execCollSet_inv (p : Packet) (s : State) (h_s : Machine.Inv s) :
    outAll Machine.Inv (execCollSet p s) := by
  unfold execCollSet
  change Machine.Inv _
  refine dispatchPacket_inv _ _ ?_
  assumption

theorem execCollFire_inv (p : Packet) (s : State) (h_s : Machine.Inv s) :
    outAll Machine.Inv (execCollFire p s) := by
  unfold execCollFire
  change Machine.Inv _
  refine dispatchPacket_inv _ _ ?_
  assumption

theorem execBarrier_inv (p : Packet) (s : State) (h_s : Machine.Inv s) :
    outAll Machine.Inv (execBarrier p s) := by
  unfold execBarrier
  change Machine.Inv _
  refine dispatchPacket_inv _ _ ?_
  assumption

theorem execPortCtrl_inv (p : Packet) (s : State) (h_s : Machine.Inv s) :
    outAll Machine.Inv (execPortCtrl p s) := by
  unfold execPortCtrl
  change Machine.Inv _
  refine dispatchPacket_inv _ _ ?_
  assumption

theorem execXmapSet_inv (p : Packet) (s : State) (h_s : Machine.Inv s) :
    outAll Machine.Inv (execXmapSet p s) := by
  unfold execXmapSet
  change Machine.Inv _
  refine dispatchPacket_inv _ _ ?_
  assumption

theorem execXchSet_inv (p : Packet) (s : State) (h_s : Machine.Inv s) :
    outAll Machine.Inv (execXchSet p s) := by
  unfold execXchSet
  change Machine.Inv _
  refine dispatchPacket_inv _ _ ?_
  assumption

theorem execXchGet_inv (p : Packet) (s : State) (h_s : Machine.Inv s) :
    outAll Machine.Inv (execXchGet p s) := by
  unfold execXchGet
  change Machine.Inv _
  refine dispatchPacket_inv _ _ ?_
  assumption

theorem execPrefSet_inv (p : Packet) (s : State) (h_s : Machine.Inv s) :
    outAll Machine.Inv (execPrefSet p s) := by
  unfold execPrefSet
  change Machine.Inv _
  refine dispatchPacket_inv _ _ ?_
  assumption

theorem execTelemSnap_inv (p : Packet) (s : State) (h_s : Machine.Inv s) :
    outAll Machine.Inv (execTelemSnap p s) := by
  unfold execTelemSnap
  change Machine.Inv _
  refine dispatchPacket_inv _ _ ?_
  assumption

theorem execWatchSet_inv (p : Packet) (s : State) (h_s : Machine.Inv s) :
    outAll Machine.Inv (execWatchSet p s) := by
  unfold execWatchSet
  change Machine.Inv _
  refine dispatchPacket_inv _ _ ?_
  assumption

theorem execWatchGet_inv (p : Packet) (s : State) (h_s : Machine.Inv s) :
    outAll Machine.Inv (execWatchGet p s) := by
  unfold execWatchGet
  change Machine.Inv _
  refine dispatchPacket_inv _ _ ?_
  assumption

theorem execVecEval_inv (p : Packet) (s : State) (h_s : Machine.Inv s) :
    outAll Machine.Inv (execVecEval p s) := by
  unfold execVecEval
  change Machine.Inv _
  refine dispatchPacket_inv _ _ ?_
  assumption

theorem execFaultGet_inv (p : Packet) (s : State) (h_s : Machine.Inv s) :
    outAll Machine.Inv (execFaultGet p s) := by
  unfold execFaultGet
  change Machine.Inv _
  refine dispatchPacket_inv _ _ ?_
  assumption

theorem execKeyRevoke_inv (p : Packet) (s : State) (h_s : Machine.Inv s) :
    outAll Machine.Inv (execKeyRevoke p s) := by
  unfold execKeyRevoke
  change Machine.Inv _
  refine dispatchPacket_inv _ _ ?_
  assumption

theorem execRollbackSet_inv (p : Packet) (s : State) (h_s : Machine.Inv s) :
    outAll Machine.Inv (execRollbackSet p s) := by
  unfold execRollbackSet
  change Machine.Inv _
  refine dispatchPacket_inv _ _ ?_
  assumption

theorem execDebugLock_inv (p : Packet) (s : State) (h_s : Machine.Inv s) :
    outAll Machine.Inv (execDebugLock p s) := by
  unfold execDebugLock
  change Machine.Inv _
  refine dispatchPacket_inv _ _ ?_
  assumption

theorem fetchCommand_inv (d : Doorbell) (l : List Byte) (s : State) (h_s : Machine.Inv s) :
    Machine.Inv (fetchCommand d l s) := by
  unfold fetchCommand
  extract_lets x0 x1 x2 x3 x4
  have h5 : Machine.Inv x4 := by
    unfold x4
    refine inv_step ?_ (setHostQueue_frame _ _ _) (by decide)
    assumption
  clear_value x0 x1 x2 x3 x4
  refine inv_ite ?_ ?_
  · refine inv_step ?_ (dropDoorbell_frame _ _) (by decide)
    assumption
  · refine dispatchPacket_inv _ _ ?_
    refine inv_step ?_ (journalRecord_frame _) (by decide)
    refine inv_ite ?_ ?_
    · refine inv_step ?_ (dropDoorbell_frame _ _) (by decide)
      assumption
    · assumption

theorem execCommandFetch_inv (n : Nat) (data : Option (List Byte)) (s : State) (h_s : Machine.Inv s) :
    outAll Machine.Inv (execCommandFetch n data s) := by
  unfold execCommandFetch
  split
  · rename_i v0
    change Machine.Inv _
    assumption
  · rename_i v1
    split
    · rename_i v2 v3
      change Machine.Inv _
      assumption
    · rename_i v4 v5 v6
      split
      · rename_i v7
        change Machine.Inv _
        assumption
      · rename_i v8
        split
        · rename_i v9 v10
          change Machine.Inv _
          refine inv_step ?_ (setHostQueue_frame _ _ _) (by decide)
          assumption
        · rename_i v11 v12 v13
          change Machine.Inv _
          refine fetchCommand_inv _ _ _ ?_
          assumption

theorem runEvent_inv (x : DueKey × Due) (s : State) (h_s : Machine.Inv s) :
    Machine.Inv (runEvent x s) := by
  unfold runEvent
  split
  · rename_i v0 v1 v2
    extract_lets x3
    have h4 : Machine.Inv x3 := by
      unfold x3
      refine inv_step ?_ (only_sched (OnlyChanges.refl _ _) _ (fun _ hp => hp)) (by decide)
      assumption
    clear_value x3
    split
    · rename_i v5 v6
      refine inv_step ?_ (opCollFire_frame _ _) (by decide)
      assumption
    · rename_i v7 v8
      refine opXchSet_inv _ _ ?_
      assumption
    · rename_i v9 v10
      refine opTelemSnap_inv _ _ _ ?_
      assumption
    · rename_i v11 v12 v13 v14
      refine runOp_inv _ _ _ ?_
      assumption
  · rename_i v15 v16 v17
    refine inv_step ?_ (setPlay_frame _ _) (by decide)
    assumption
  · rename_i v18 v19
    refine commitPoint_inv _ ?_
    assumption
  · rename_i v20 v21 v22
    refine inv_step ?_ (releaseBarrier_frame _ _) (by decide)
    assumption

theorem execScheduledEvent_inv (s : State) (h_s : Machine.Inv s) :
    outAll Machine.Inv (execScheduledEvent s) := by
  unfold execScheduledEvent
  split
  · rename_i v0
    change Machine.Inv _
    assumption
  · rename_i v1
    split
    · rename_i v2 v3 v4
      split
      · rename_i v5 v6 v7
        refine absorb (P := optAll Machine.Inv) v7 ?_ (fun q8 => ?_)
        · refine inv_stepOpt ?_ (comeTo_frame _ _ _) (by decide)
          assumption
        change Machine.Inv _
        refine runEvent_inv _ _ ?_
        refine inv_step ?_ (journalRecord_frame _) (by decide)
        assumption
      · rename_i v9 v10
        refine absorb (P := optAll Machine.Inv) v10 ?_ (fun q11 => ?_)
        · refine inv_stepOpt ?_ (comeTo_frame _ _ _) (by decide)
          assumption
        change Machine.Inv _
        assumption
    · rename_i v12 v13
      change Machine.Inv _
      assumption

theorem accessMeets_inv (port : Nat) (a : Nat) (n : Nat) (f : MoveFault) (s : State) (h_s : Machine.Inv s) :
    Machine.Inv (accessMeets port a n f s) := by
  unfold accessMeets
  refine inv_ite ?_ ?_
  · assumption
  · split
    · rename_i v0 v1 v2
      refine inv_step ?_ (xingRecordFor_frame _ _ _ _ _ _ _) (by decide)
      assumption
    · rename_i v3 v4 v5
      show sndAll Machine.Inv _
      refine parityMeets_inv _ _ _ _ _ _ ?_
      assumption
    · rename_i v6 v7 v8 v9
      refine rimAt_inv _ _ _ _ ?_
      assumption
    · rename_i v10 v11 v12 v13
      assumption

theorem execApertureRead_inv (port : Nat) (off : Nat) (n : Nat) (f : MoveFault) (s : State) (h_s : Machine.Inv s) :
    outAll Machine.Inv (execApertureRead port off n f s) := by
  unfold execApertureRead
  extract_lets x0 x1 x2
  clear_value x0 x1 x2
  split
  · rename_i v3
    change Machine.Inv _
    refine inv_step ?_ (returnRead_frame _ _ _) (by decide)
    refine inv_step ?_ (aperEarlyEvent_frame _ _) (by decide)
    assumption
  · rename_i v4
    split
    · rename_i v5
      change Machine.Inv _
      refine inv_step ?_ (returnRead_frame _ _ _) (by decide)
      refine inv_step ?_ (aperFault_frame _ _) (by decide)
      assumption
    · rename_i v6
      split
      · rename_i v7
        change Machine.Inv _
        refine inv_step ?_ (returnRead_frame _ _ _) (by decide)
        assumption
      · rename_i v8
        split
        · rename_i v9
          change Machine.Inv _
          assumption
        · rename_i v10
          split
          · rename_i v11
            change Machine.Inv _
            refine inv_step ?_ (returnRead_frame _ _ _) (by decide)
            refine inv_step ?_ (postFull_frame _ _ _ _ _ _ _) (by decide)
            assumption
          · rename_i v12
            split
            · rename_i v13
              change Machine.Inv _
              refine inv_step ?_ (returnRead_frame _ _ _) (by decide)
              refine inv_step ?_ (granuleFault_frame _ _ _ _ _) (by decide)
              assumption
            · rename_i v14
              change Machine.Inv _
              refine inv_step ?_ (returnRead_frame _ _ _) (by decide)
              refine accessMeets_inv _ _ _ _ _ ?_
              assumption

theorem execApertureWrite_inv (port : Nat) (off : Nat) (data : List Byte) (f : MoveFault) (s : State) (h_s : Machine.Inv s) :
    outAll Machine.Inv (execApertureWrite port off data f s) := by
  unfold execApertureWrite
  extract_lets x0 x1 x2
  have h3 : Machine.Inv x1 := by
    unfold x1
    refine accessMeets_inv _ _ _ _ _ ?_
    assumption
  clear_value x0 x1 x2
  split
  · rename_i v4
    change Machine.Inv _
    refine inv_step ?_ (aperEarlyEvent_frame _ _) (by decide)
    assumption
  · rename_i v5
    split
    · rename_i v6
      change Machine.Inv _
      refine inv_step ?_ (aperFault_frame _ _) (by decide)
      assumption
    · rename_i v7
      split
      · rename_i v8
        change Machine.Inv _
        assumption
      · rename_i v9
        split
        · rename_i v10
          change Machine.Inv _
          refine inv_step ?_ (only_host (OnlyChanges.refl _ _) _ (fun _ hp => hp)) (by decide)
          assumption
        · rename_i v11
          split
          · rename_i v12
            change Machine.Inv _
            refine inv_step ?_ (noteAll_frame _) (by decide)
            refine nearWriteFor_inv _ _ _ _ _ ?_
            assumption
          · rename_i v13
            change Machine.Inv _
            refine inv_step ?_ (noteAll_frame _) (by decide)
            refine writeBytes_inv _ _ _ ?_
            assumption

theorem runAllDue_inv (a : Nat) (a' : State) (h_a' : Machine.Inv a') :
    Machine.Inv (runAllDue a a') := by
  induction a generalizing a' h_a'
  · unfold runAllDue
    assumption
  · rename_i w0 ih
    unfold runAllDue
    split
    · rename_i v1 v2 v3
      refine inv_ite ?_ ?_
      · refine ih _ ?_
        refine runEvent_inv _ _ ?_
        assumption
      · assumption
    · rename_i v4 v5
      assumption

theorem gapAbort_inv (s : State) (h_s : Machine.Inv s) :
    Machine.Inv (gapAbort s) := by
  unfold gapAbort
  split
  · rename_i v0 v1 v2
    refine inv_ite ?_ ?_
    · refine abortAtCp_inv _ _ ?_
      assumption
    · assumption
  · rename_i v3 v4
    assumption

theorem applyHeld_inv (s : State) (h_s : Machine.Inv s) :
    Machine.Inv (applyHeld s) := by
  unfold applyHeld
  refine inv_fold ?_ (fun u0 y1 h2 => ?_)
  · refine inv_step ?_ (only_host (OnlyChanges.refl _ _) _ (fun _ hp => hp)) (by decide)
    assumption
  · refine hostRegWrite_inv _ _ _ _ _ ?_
    assumption

theorem takeOver_inv (s : State) (h_s : Machine.Inv s) :
    Machine.Inv (takeOver s) := by
  unfold takeOver
  extract_lets x0 x1 x2 x3 x4
  have h5 : Machine.Inv x2 := by
    unfold x2
    refine inv_step ?_ (only_cad_rel (OnlyChanges.refl _ _) _ _ (fun _ hp => hp)) (by decide)
    assumption
  have h6 : Machine.Inv x3 := by
    unfold x3
    refine runAllDue_inv _ _ ?_
    refine gapAbort_inv _ ?_
    assumption
  have h7 : Machine.Inv x4 := by
    unfold x4
    refine inv_step ?_ (record_frame _ _ _ _ _ _ _ _ _ _) (by decide)
    assumption
  clear_value x0 x1 x2 x3 x4
  refine inv_step ?_ (rerunStage_frame _) (by decide)
  refine applyHeld_inv _ ?_
  assumption

theorem execCcTakeover_inv (s : State) (h_s : Machine.Inv s) :
    outAll Machine.Inv (execCcTakeover s) := by
  unfold execCcTakeover
  split
  · rename_i v0
    change Machine.Inv _
    refine takeOver_inv _ ?_
    assumption
  · rename_i v1
    split
    · rename_i v2
      change Machine.Inv _
      refine inv_step ?_ (only_rel (OnlyChanges.refl _ _) _ (fun _ hp => hp)) (by decide)
      assumption
    · rename_i v3
      change Machine.Inv _
      assumption

end Sys2Proof.Machine
end

