-- ==== Sys2Proof/Laws/State.lean ====
section
/-! SUPPORT. What each named update of State leaves in each field, true by computation. -/

namespace Sys2Proof.Machine

/-! ### setBu -/

@[simp] theorem setBu_bu (b : BringUp) (s : State) : (setBu b s).bu = b := rfl
@[simp] theorem setBu_pending (b : BringUp) (s : State) : (setBu b s).pending = s.pending := rfl
@[simp] theorem setBu_cad (b : BringUp) (s : State) : (setBu b s).cad = s.cad := rfl
@[simp] theorem setBu_sched (b : BringUp) (s : State) : (setBu b s).sched = s.sched := rfl
@[simp] theorem setBu_arrivals (b : BringUp) (s : State) : (setBu b s).arrivals = s.arrivals := rfl
@[simp] theorem setBu_xing (b : BringUp) (s : State) : (setBu b s).xing = s.xing := rfl
@[simp] theorem setBu_fields (b : BringUp) (s : State) : (setBu b s).fields = s.fields := rfl
@[simp] theorem setBu_parts (b : BringUp) (s : State) : (setBu b s).parts = s.parts := rfl
@[simp] theorem setBu_removed (b : BringUp) (s : State) : (setBu b s).removed = s.removed := rfl
@[simp] theorem setBu_plays (b : BringUp) (s : State) : (setBu b s).plays = s.plays := rfl
@[simp] theorem setBu_parting (b : BringUp) (s : State) : (setBu b s).parting = s.parting := rfl
@[simp] theorem setBu_partNext (b : BringUp) (s : State) : (setBu b s).partNext = s.partNext := rfl
@[simp] theorem setBu_rampQueue (b : BringUp) (s : State) : (setBu b s).rampQueue = s.rampQueue := rfl
@[simp] theorem setBu_rampLast (b : BringUp) (s : State) : (setBu b s).rampLast = s.rampLast := rfl
@[simp] theorem setBu_knots (b : BringUp) (s : State) : (setBu b s).knots = s.knots := rfl
@[simp] theorem setBu_mem (b : BringUp) (s : State) : (setBu b s).mem = s.mem := rfl
@[simp] theorem setBu_regions (b : BringUp) (s : State) : (setBu b s).regions = s.regions := rfl
@[simp] theorem setBu_loans (b : BringUp) (s : State) : (setBu b s).loans = s.loans := rfl
@[simp] theorem setBu_loanNext (b : BringUp) (s : State) : (setBu b s).loanNext = s.loanNext := rfl
@[simp] theorem setBu_hints (b : BringUp) (s : State) : (setBu b s).hints = s.hints := rfl
@[simp] theorem setBu_caches (b : BringUp) (s : State) : (setBu b s).caches = s.caches := rfl
@[simp] theorem setBu_near (b : BringUp) (s : State) : (setBu b s).near = s.near := rfl
@[simp] theorem setBu_cap (b : BringUp) (s : State) : (setBu b s).cap = s.cap := rfl
@[simp] theorem setBu_watch (b : BringUp) (s : State) : (setBu b s).watch = s.watch := rfl
@[simp] theorem setBu_ports (b : BringUp) (s : State) : (setBu b s).ports = s.ports := rfl
@[simp] theorem setBu_lqWindow (b : BringUp) (s : State) : (setBu b s).lqWindow = s.lqWindow := rfl
@[simp] theorem setBu_sets (b : BringUp) (s : State) : (setBu b s).sets = s.sets := rfl
@[simp] theorem setBu_colls (b : BringUp) (s : State) : (setBu b s).colls = s.colls := rfl
@[simp] theorem setBu_barriers (b : BringUp) (s : State) : (setBu b s).barriers = s.barriers := rfl
@[simp] theorem setBu_exchanges (b : BringUp) (s : State) : (setBu b s).exchanges = s.exchanges := rfl
@[simp] theorem setBu_mesh (b : BringUp) (s : State) : (setBu b s).mesh = s.mesh := rfl
@[simp] theorem setBu_power (b : BringUp) (s : State) : (setBu b s).power = s.power := rfl
@[simp] theorem setBu_rel (b : BringUp) (s : State) : (setBu b s).rel = s.rel := rfl
@[simp] theorem setBu_host (b : BringUp) (s : State) : (setBu b s).host = s.host := rfl
@[simp] theorem setBu_dbgUnit (b : BringUp) (s : State) : (setBu b s).dbgUnit = s.dbgUnit := rfl
@[simp] theorem setBu_pins (b : BringUp) (s : State) : (setBu b s).pins = s.pins := rfl
@[simp] theorem setBu_store (b : BringUp) (s : State) : (setBu b s).store = s.store := rfl
@[simp] theorem setBu_snap (b : BringUp) (s : State) : (setBu b s).snap = s.snap := rfl
@[simp] theorem setBu_freeCtr (b : BringUp) (s : State) : (setBu b s).freeCtr = s.freeCtr := rfl

/-! ### setPcie -/

@[simp] theorem setPcie_host (n : Nat) (p : PciePort) (s : State) : (setPcie n p s).host = { s.host with ports := upsert n p s.host.ports } := rfl
@[simp] theorem setPcie_pending (n : Nat) (p : PciePort) (s : State) : (setPcie n p s).pending = s.pending := rfl
@[simp] theorem setPcie_cad (n : Nat) (p : PciePort) (s : State) : (setPcie n p s).cad = s.cad := rfl
@[simp] theorem setPcie_sched (n : Nat) (p : PciePort) (s : State) : (setPcie n p s).sched = s.sched := rfl
@[simp] theorem setPcie_arrivals (n : Nat) (p : PciePort) (s : State) : (setPcie n p s).arrivals = s.arrivals := rfl
@[simp] theorem setPcie_xing (n : Nat) (p : PciePort) (s : State) : (setPcie n p s).xing = s.xing := rfl
@[simp] theorem setPcie_fields (n : Nat) (p : PciePort) (s : State) : (setPcie n p s).fields = s.fields := rfl
@[simp] theorem setPcie_parts (n : Nat) (p : PciePort) (s : State) : (setPcie n p s).parts = s.parts := rfl
@[simp] theorem setPcie_removed (n : Nat) (p : PciePort) (s : State) : (setPcie n p s).removed = s.removed := rfl
@[simp] theorem setPcie_plays (n : Nat) (p : PciePort) (s : State) : (setPcie n p s).plays = s.plays := rfl
@[simp] theorem setPcie_parting (n : Nat) (p : PciePort) (s : State) : (setPcie n p s).parting = s.parting := rfl
@[simp] theorem setPcie_partNext (n : Nat) (p : PciePort) (s : State) : (setPcie n p s).partNext = s.partNext := rfl
@[simp] theorem setPcie_rampQueue (n : Nat) (p : PciePort) (s : State) : (setPcie n p s).rampQueue = s.rampQueue := rfl
@[simp] theorem setPcie_rampLast (n : Nat) (p : PciePort) (s : State) : (setPcie n p s).rampLast = s.rampLast := rfl
@[simp] theorem setPcie_knots (n : Nat) (p : PciePort) (s : State) : (setPcie n p s).knots = s.knots := rfl
@[simp] theorem setPcie_mem (n : Nat) (p : PciePort) (s : State) : (setPcie n p s).mem = s.mem := rfl
@[simp] theorem setPcie_regions (n : Nat) (p : PciePort) (s : State) : (setPcie n p s).regions = s.regions := rfl
@[simp] theorem setPcie_loans (n : Nat) (p : PciePort) (s : State) : (setPcie n p s).loans = s.loans := rfl
@[simp] theorem setPcie_loanNext (n : Nat) (p : PciePort) (s : State) : (setPcie n p s).loanNext = s.loanNext := rfl
@[simp] theorem setPcie_hints (n : Nat) (p : PciePort) (s : State) : (setPcie n p s).hints = s.hints := rfl
@[simp] theorem setPcie_caches (n : Nat) (p : PciePort) (s : State) : (setPcie n p s).caches = s.caches := rfl
@[simp] theorem setPcie_near (n : Nat) (p : PciePort) (s : State) : (setPcie n p s).near = s.near := rfl
@[simp] theorem setPcie_cap (n : Nat) (p : PciePort) (s : State) : (setPcie n p s).cap = s.cap := rfl
@[simp] theorem setPcie_watch (n : Nat) (p : PciePort) (s : State) : (setPcie n p s).watch = s.watch := rfl
@[simp] theorem setPcie_ports (n : Nat) (p : PciePort) (s : State) : (setPcie n p s).ports = s.ports := rfl
@[simp] theorem setPcie_lqWindow (n : Nat) (p : PciePort) (s : State) : (setPcie n p s).lqWindow = s.lqWindow := rfl
@[simp] theorem setPcie_sets (n : Nat) (p : PciePort) (s : State) : (setPcie n p s).sets = s.sets := rfl
@[simp] theorem setPcie_colls (n : Nat) (p : PciePort) (s : State) : (setPcie n p s).colls = s.colls := rfl
@[simp] theorem setPcie_barriers (n : Nat) (p : PciePort) (s : State) : (setPcie n p s).barriers = s.barriers := rfl
@[simp] theorem setPcie_exchanges (n : Nat) (p : PciePort) (s : State) : (setPcie n p s).exchanges = s.exchanges := rfl
@[simp] theorem setPcie_mesh (n : Nat) (p : PciePort) (s : State) : (setPcie n p s).mesh = s.mesh := rfl
@[simp] theorem setPcie_power (n : Nat) (p : PciePort) (s : State) : (setPcie n p s).power = s.power := rfl
@[simp] theorem setPcie_rel (n : Nat) (p : PciePort) (s : State) : (setPcie n p s).rel = s.rel := rfl
@[simp] theorem setPcie_bu (n : Nat) (p : PciePort) (s : State) : (setPcie n p s).bu = s.bu := rfl
@[simp] theorem setPcie_dbgUnit (n : Nat) (p : PciePort) (s : State) : (setPcie n p s).dbgUnit = s.dbgUnit := rfl
@[simp] theorem setPcie_pins (n : Nat) (p : PciePort) (s : State) : (setPcie n p s).pins = s.pins := rfl
@[simp] theorem setPcie_store (n : Nat) (p : PciePort) (s : State) : (setPcie n p s).store = s.store := rfl
@[simp] theorem setPcie_snap (n : Nat) (p : PciePort) (s : State) : (setPcie n p s).snap = s.snap := rfl
@[simp] theorem setPcie_freeCtr (n : Nat) (p : PciePort) (s : State) : (setPcie n p s).freeCtr = s.freeCtr := rfl

/-! ### setCad -/

@[simp] theorem setCad_cad (c : Cad) (s : State) : (setCad c s).cad = c := rfl
@[simp] theorem setCad_pending (c : Cad) (s : State) : (setCad c s).pending = s.pending := rfl
@[simp] theorem setCad_sched (c : Cad) (s : State) : (setCad c s).sched = s.sched := rfl
@[simp] theorem setCad_arrivals (c : Cad) (s : State) : (setCad c s).arrivals = s.arrivals := rfl
@[simp] theorem setCad_xing (c : Cad) (s : State) : (setCad c s).xing = s.xing := rfl
@[simp] theorem setCad_fields (c : Cad) (s : State) : (setCad c s).fields = s.fields := rfl
@[simp] theorem setCad_parts (c : Cad) (s : State) : (setCad c s).parts = s.parts := rfl
@[simp] theorem setCad_removed (c : Cad) (s : State) : (setCad c s).removed = s.removed := rfl
@[simp] theorem setCad_plays (c : Cad) (s : State) : (setCad c s).plays = s.plays := rfl
@[simp] theorem setCad_parting (c : Cad) (s : State) : (setCad c s).parting = s.parting := rfl
@[simp] theorem setCad_partNext (c : Cad) (s : State) : (setCad c s).partNext = s.partNext := rfl
@[simp] theorem setCad_rampQueue (c : Cad) (s : State) : (setCad c s).rampQueue = s.rampQueue := rfl
@[simp] theorem setCad_rampLast (c : Cad) (s : State) : (setCad c s).rampLast = s.rampLast := rfl
@[simp] theorem setCad_knots (c : Cad) (s : State) : (setCad c s).knots = s.knots := rfl
@[simp] theorem setCad_mem (c : Cad) (s : State) : (setCad c s).mem = s.mem := rfl
@[simp] theorem setCad_regions (c : Cad) (s : State) : (setCad c s).regions = s.regions := rfl
@[simp] theorem setCad_loans (c : Cad) (s : State) : (setCad c s).loans = s.loans := rfl
@[simp] theorem setCad_loanNext (c : Cad) (s : State) : (setCad c s).loanNext = s.loanNext := rfl
@[simp] theorem setCad_hints (c : Cad) (s : State) : (setCad c s).hints = s.hints := rfl
@[simp] theorem setCad_caches (c : Cad) (s : State) : (setCad c s).caches = s.caches := rfl
@[simp] theorem setCad_near (c : Cad) (s : State) : (setCad c s).near = s.near := rfl
@[simp] theorem setCad_cap (c : Cad) (s : State) : (setCad c s).cap = s.cap := rfl
@[simp] theorem setCad_watch (c : Cad) (s : State) : (setCad c s).watch = s.watch := rfl
@[simp] theorem setCad_ports (c : Cad) (s : State) : (setCad c s).ports = s.ports := rfl
@[simp] theorem setCad_lqWindow (c : Cad) (s : State) : (setCad c s).lqWindow = s.lqWindow := rfl
@[simp] theorem setCad_sets (c : Cad) (s : State) : (setCad c s).sets = s.sets := rfl
@[simp] theorem setCad_colls (c : Cad) (s : State) : (setCad c s).colls = s.colls := rfl
@[simp] theorem setCad_barriers (c : Cad) (s : State) : (setCad c s).barriers = s.barriers := rfl
@[simp] theorem setCad_exchanges (c : Cad) (s : State) : (setCad c s).exchanges = s.exchanges := rfl
@[simp] theorem setCad_mesh (c : Cad) (s : State) : (setCad c s).mesh = s.mesh := rfl
@[simp] theorem setCad_power (c : Cad) (s : State) : (setCad c s).power = s.power := rfl
@[simp] theorem setCad_rel (c : Cad) (s : State) : (setCad c s).rel = s.rel := rfl
@[simp] theorem setCad_bu (c : Cad) (s : State) : (setCad c s).bu = s.bu := rfl
@[simp] theorem setCad_host (c : Cad) (s : State) : (setCad c s).host = s.host := rfl
@[simp] theorem setCad_dbgUnit (c : Cad) (s : State) : (setCad c s).dbgUnit = s.dbgUnit := rfl
@[simp] theorem setCad_pins (c : Cad) (s : State) : (setCad c s).pins = s.pins := rfl
@[simp] theorem setCad_store (c : Cad) (s : State) : (setCad c s).store = s.store := rfl
@[simp] theorem setCad_snap (c : Cad) (s : State) : (setCad c s).snap = s.snap := rfl
@[simp] theorem setCad_freeCtr (c : Cad) (s : State) : (setCad c s).freeCtr = s.freeCtr := rfl

/-! ### setEntry -/

@[simp] theorem setEntry_cap (n : Nat) (e : Ledger) (s : State) : (setEntry n e s).cap = { s.cap with ledger := upsert n e s.cap.ledger } := rfl
@[simp] theorem setEntry_pending (n : Nat) (e : Ledger) (s : State) : (setEntry n e s).pending = s.pending := rfl
@[simp] theorem setEntry_cad (n : Nat) (e : Ledger) (s : State) : (setEntry n e s).cad = s.cad := rfl
@[simp] theorem setEntry_sched (n : Nat) (e : Ledger) (s : State) : (setEntry n e s).sched = s.sched := rfl
@[simp] theorem setEntry_arrivals (n : Nat) (e : Ledger) (s : State) : (setEntry n e s).arrivals = s.arrivals := rfl
@[simp] theorem setEntry_xing (n : Nat) (e : Ledger) (s : State) : (setEntry n e s).xing = s.xing := rfl
@[simp] theorem setEntry_fields (n : Nat) (e : Ledger) (s : State) : (setEntry n e s).fields = s.fields := rfl
@[simp] theorem setEntry_parts (n : Nat) (e : Ledger) (s : State) : (setEntry n e s).parts = s.parts := rfl
@[simp] theorem setEntry_removed (n : Nat) (e : Ledger) (s : State) : (setEntry n e s).removed = s.removed := rfl
@[simp] theorem setEntry_plays (n : Nat) (e : Ledger) (s : State) : (setEntry n e s).plays = s.plays := rfl
@[simp] theorem setEntry_parting (n : Nat) (e : Ledger) (s : State) : (setEntry n e s).parting = s.parting := rfl
@[simp] theorem setEntry_partNext (n : Nat) (e : Ledger) (s : State) : (setEntry n e s).partNext = s.partNext := rfl
@[simp] theorem setEntry_rampQueue (n : Nat) (e : Ledger) (s : State) : (setEntry n e s).rampQueue = s.rampQueue := rfl
@[simp] theorem setEntry_rampLast (n : Nat) (e : Ledger) (s : State) : (setEntry n e s).rampLast = s.rampLast := rfl
@[simp] theorem setEntry_knots (n : Nat) (e : Ledger) (s : State) : (setEntry n e s).knots = s.knots := rfl
@[simp] theorem setEntry_mem (n : Nat) (e : Ledger) (s : State) : (setEntry n e s).mem = s.mem := rfl
@[simp] theorem setEntry_regions (n : Nat) (e : Ledger) (s : State) : (setEntry n e s).regions = s.regions := rfl
@[simp] theorem setEntry_loans (n : Nat) (e : Ledger) (s : State) : (setEntry n e s).loans = s.loans := rfl
@[simp] theorem setEntry_loanNext (n : Nat) (e : Ledger) (s : State) : (setEntry n e s).loanNext = s.loanNext := rfl
@[simp] theorem setEntry_hints (n : Nat) (e : Ledger) (s : State) : (setEntry n e s).hints = s.hints := rfl
@[simp] theorem setEntry_caches (n : Nat) (e : Ledger) (s : State) : (setEntry n e s).caches = s.caches := rfl
@[simp] theorem setEntry_near (n : Nat) (e : Ledger) (s : State) : (setEntry n e s).near = s.near := rfl
@[simp] theorem setEntry_watch (n : Nat) (e : Ledger) (s : State) : (setEntry n e s).watch = s.watch := rfl
@[simp] theorem setEntry_ports (n : Nat) (e : Ledger) (s : State) : (setEntry n e s).ports = s.ports := rfl
@[simp] theorem setEntry_lqWindow (n : Nat) (e : Ledger) (s : State) : (setEntry n e s).lqWindow = s.lqWindow := rfl
@[simp] theorem setEntry_sets (n : Nat) (e : Ledger) (s : State) : (setEntry n e s).sets = s.sets := rfl
@[simp] theorem setEntry_colls (n : Nat) (e : Ledger) (s : State) : (setEntry n e s).colls = s.colls := rfl
@[simp] theorem setEntry_barriers (n : Nat) (e : Ledger) (s : State) : (setEntry n e s).barriers = s.barriers := rfl
@[simp] theorem setEntry_exchanges (n : Nat) (e : Ledger) (s : State) : (setEntry n e s).exchanges = s.exchanges := rfl
@[simp] theorem setEntry_mesh (n : Nat) (e : Ledger) (s : State) : (setEntry n e s).mesh = s.mesh := rfl
@[simp] theorem setEntry_power (n : Nat) (e : Ledger) (s : State) : (setEntry n e s).power = s.power := rfl
@[simp] theorem setEntry_rel (n : Nat) (e : Ledger) (s : State) : (setEntry n e s).rel = s.rel := rfl
@[simp] theorem setEntry_bu (n : Nat) (e : Ledger) (s : State) : (setEntry n e s).bu = s.bu := rfl
@[simp] theorem setEntry_host (n : Nat) (e : Ledger) (s : State) : (setEntry n e s).host = s.host := rfl
@[simp] theorem setEntry_dbgUnit (n : Nat) (e : Ledger) (s : State) : (setEntry n e s).dbgUnit = s.dbgUnit := rfl
@[simp] theorem setEntry_pins (n : Nat) (e : Ledger) (s : State) : (setEntry n e s).pins = s.pins := rfl
@[simp] theorem setEntry_store (n : Nat) (e : Ledger) (s : State) : (setEntry n e s).store = s.store := rfl
@[simp] theorem setEntry_snap (n : Nat) (e : Ledger) (s : State) : (setEntry n e s).snap = s.snap := rfl
@[simp] theorem setEntry_freeCtr (n : Nat) (e : Ledger) (s : State) : (setEntry n e s).freeCtr = s.freeCtr := rfl

/-! ### setArmed -/

@[simp] theorem setArmed_cap (a : Armed) (s : State) : (setArmed a s).cap = { s.cap with armed := some a } := rfl
@[simp] theorem setArmed_pending (a : Armed) (s : State) : (setArmed a s).pending = s.pending := rfl
@[simp] theorem setArmed_cad (a : Armed) (s : State) : (setArmed a s).cad = s.cad := rfl
@[simp] theorem setArmed_sched (a : Armed) (s : State) : (setArmed a s).sched = s.sched := rfl
@[simp] theorem setArmed_arrivals (a : Armed) (s : State) : (setArmed a s).arrivals = s.arrivals := rfl
@[simp] theorem setArmed_xing (a : Armed) (s : State) : (setArmed a s).xing = s.xing := rfl
@[simp] theorem setArmed_fields (a : Armed) (s : State) : (setArmed a s).fields = s.fields := rfl
@[simp] theorem setArmed_parts (a : Armed) (s : State) : (setArmed a s).parts = s.parts := rfl
@[simp] theorem setArmed_removed (a : Armed) (s : State) : (setArmed a s).removed = s.removed := rfl
@[simp] theorem setArmed_plays (a : Armed) (s : State) : (setArmed a s).plays = s.plays := rfl
@[simp] theorem setArmed_parting (a : Armed) (s : State) : (setArmed a s).parting = s.parting := rfl
@[simp] theorem setArmed_partNext (a : Armed) (s : State) : (setArmed a s).partNext = s.partNext := rfl
@[simp] theorem setArmed_rampQueue (a : Armed) (s : State) : (setArmed a s).rampQueue = s.rampQueue := rfl
@[simp] theorem setArmed_rampLast (a : Armed) (s : State) : (setArmed a s).rampLast = s.rampLast := rfl
@[simp] theorem setArmed_knots (a : Armed) (s : State) : (setArmed a s).knots = s.knots := rfl
@[simp] theorem setArmed_mem (a : Armed) (s : State) : (setArmed a s).mem = s.mem := rfl
@[simp] theorem setArmed_regions (a : Armed) (s : State) : (setArmed a s).regions = s.regions := rfl
@[simp] theorem setArmed_loans (a : Armed) (s : State) : (setArmed a s).loans = s.loans := rfl
@[simp] theorem setArmed_loanNext (a : Armed) (s : State) : (setArmed a s).loanNext = s.loanNext := rfl
@[simp] theorem setArmed_hints (a : Armed) (s : State) : (setArmed a s).hints = s.hints := rfl
@[simp] theorem setArmed_caches (a : Armed) (s : State) : (setArmed a s).caches = s.caches := rfl
@[simp] theorem setArmed_near (a : Armed) (s : State) : (setArmed a s).near = s.near := rfl
@[simp] theorem setArmed_watch (a : Armed) (s : State) : (setArmed a s).watch = s.watch := rfl
@[simp] theorem setArmed_ports (a : Armed) (s : State) : (setArmed a s).ports = s.ports := rfl
@[simp] theorem setArmed_lqWindow (a : Armed) (s : State) : (setArmed a s).lqWindow = s.lqWindow := rfl
@[simp] theorem setArmed_sets (a : Armed) (s : State) : (setArmed a s).sets = s.sets := rfl
@[simp] theorem setArmed_colls (a : Armed) (s : State) : (setArmed a s).colls = s.colls := rfl
@[simp] theorem setArmed_barriers (a : Armed) (s : State) : (setArmed a s).barriers = s.barriers := rfl
@[simp] theorem setArmed_exchanges (a : Armed) (s : State) : (setArmed a s).exchanges = s.exchanges := rfl
@[simp] theorem setArmed_mesh (a : Armed) (s : State) : (setArmed a s).mesh = s.mesh := rfl
@[simp] theorem setArmed_power (a : Armed) (s : State) : (setArmed a s).power = s.power := rfl
@[simp] theorem setArmed_rel (a : Armed) (s : State) : (setArmed a s).rel = s.rel := rfl
@[simp] theorem setArmed_bu (a : Armed) (s : State) : (setArmed a s).bu = s.bu := rfl
@[simp] theorem setArmed_host (a : Armed) (s : State) : (setArmed a s).host = s.host := rfl
@[simp] theorem setArmed_dbgUnit (a : Armed) (s : State) : (setArmed a s).dbgUnit = s.dbgUnit := rfl
@[simp] theorem setArmed_pins (a : Armed) (s : State) : (setArmed a s).pins = s.pins := rfl
@[simp] theorem setArmed_store (a : Armed) (s : State) : (setArmed a s).store = s.store := rfl
@[simp] theorem setArmed_snap (a : Armed) (s : State) : (setArmed a s).snap = s.snap := rfl
@[simp] theorem setArmed_freeCtr (a : Armed) (s : State) : (setArmed a s).freeCtr = s.freeCtr := rfl

/-! ### setCapstan -/

@[simp] theorem setCapstan_cap (k : Nat) (c : Capstan) (s : State) : (setCapstan k c s).cap = { s.cap with capstans := upsert k c s.cap.capstans } := rfl
@[simp] theorem setCapstan_pending (k : Nat) (c : Capstan) (s : State) : (setCapstan k c s).pending = s.pending := rfl
@[simp] theorem setCapstan_cad (k : Nat) (c : Capstan) (s : State) : (setCapstan k c s).cad = s.cad := rfl
@[simp] theorem setCapstan_sched (k : Nat) (c : Capstan) (s : State) : (setCapstan k c s).sched = s.sched := rfl
@[simp] theorem setCapstan_arrivals (k : Nat) (c : Capstan) (s : State) : (setCapstan k c s).arrivals = s.arrivals := rfl
@[simp] theorem setCapstan_xing (k : Nat) (c : Capstan) (s : State) : (setCapstan k c s).xing = s.xing := rfl
@[simp] theorem setCapstan_fields (k : Nat) (c : Capstan) (s : State) : (setCapstan k c s).fields = s.fields := rfl
@[simp] theorem setCapstan_parts (k : Nat) (c : Capstan) (s : State) : (setCapstan k c s).parts = s.parts := rfl
@[simp] theorem setCapstan_removed (k : Nat) (c : Capstan) (s : State) : (setCapstan k c s).removed = s.removed := rfl
@[simp] theorem setCapstan_plays (k : Nat) (c : Capstan) (s : State) : (setCapstan k c s).plays = s.plays := rfl
@[simp] theorem setCapstan_parting (k : Nat) (c : Capstan) (s : State) : (setCapstan k c s).parting = s.parting := rfl
@[simp] theorem setCapstan_partNext (k : Nat) (c : Capstan) (s : State) : (setCapstan k c s).partNext = s.partNext := rfl
@[simp] theorem setCapstan_rampQueue (k : Nat) (c : Capstan) (s : State) : (setCapstan k c s).rampQueue = s.rampQueue := rfl
@[simp] theorem setCapstan_rampLast (k : Nat) (c : Capstan) (s : State) : (setCapstan k c s).rampLast = s.rampLast := rfl
@[simp] theorem setCapstan_knots (k : Nat) (c : Capstan) (s : State) : (setCapstan k c s).knots = s.knots := rfl
@[simp] theorem setCapstan_mem (k : Nat) (c : Capstan) (s : State) : (setCapstan k c s).mem = s.mem := rfl
@[simp] theorem setCapstan_regions (k : Nat) (c : Capstan) (s : State) : (setCapstan k c s).regions = s.regions := rfl
@[simp] theorem setCapstan_loans (k : Nat) (c : Capstan) (s : State) : (setCapstan k c s).loans = s.loans := rfl
@[simp] theorem setCapstan_loanNext (k : Nat) (c : Capstan) (s : State) : (setCapstan k c s).loanNext = s.loanNext := rfl
@[simp] theorem setCapstan_hints (k : Nat) (c : Capstan) (s : State) : (setCapstan k c s).hints = s.hints := rfl
@[simp] theorem setCapstan_caches (k : Nat) (c : Capstan) (s : State) : (setCapstan k c s).caches = s.caches := rfl
@[simp] theorem setCapstan_near (k : Nat) (c : Capstan) (s : State) : (setCapstan k c s).near = s.near := rfl
@[simp] theorem setCapstan_watch (k : Nat) (c : Capstan) (s : State) : (setCapstan k c s).watch = s.watch := rfl
@[simp] theorem setCapstan_ports (k : Nat) (c : Capstan) (s : State) : (setCapstan k c s).ports = s.ports := rfl
@[simp] theorem setCapstan_lqWindow (k : Nat) (c : Capstan) (s : State) : (setCapstan k c s).lqWindow = s.lqWindow := rfl
@[simp] theorem setCapstan_sets (k : Nat) (c : Capstan) (s : State) : (setCapstan k c s).sets = s.sets := rfl
@[simp] theorem setCapstan_colls (k : Nat) (c : Capstan) (s : State) : (setCapstan k c s).colls = s.colls := rfl
@[simp] theorem setCapstan_barriers (k : Nat) (c : Capstan) (s : State) : (setCapstan k c s).barriers = s.barriers := rfl
@[simp] theorem setCapstan_exchanges (k : Nat) (c : Capstan) (s : State) : (setCapstan k c s).exchanges = s.exchanges := rfl
@[simp] theorem setCapstan_mesh (k : Nat) (c : Capstan) (s : State) : (setCapstan k c s).mesh = s.mesh := rfl
@[simp] theorem setCapstan_power (k : Nat) (c : Capstan) (s : State) : (setCapstan k c s).power = s.power := rfl
@[simp] theorem setCapstan_rel (k : Nat) (c : Capstan) (s : State) : (setCapstan k c s).rel = s.rel := rfl
@[simp] theorem setCapstan_bu (k : Nat) (c : Capstan) (s : State) : (setCapstan k c s).bu = s.bu := rfl
@[simp] theorem setCapstan_host (k : Nat) (c : Capstan) (s : State) : (setCapstan k c s).host = s.host := rfl
@[simp] theorem setCapstan_dbgUnit (k : Nat) (c : Capstan) (s : State) : (setCapstan k c s).dbgUnit = s.dbgUnit := rfl
@[simp] theorem setCapstan_pins (k : Nat) (c : Capstan) (s : State) : (setCapstan k c s).pins = s.pins := rfl
@[simp] theorem setCapstan_store (k : Nat) (c : Capstan) (s : State) : (setCapstan k c s).store = s.store := rfl
@[simp] theorem setCapstan_snap (k : Nat) (c : Capstan) (s : State) : (setCapstan k c s).snap = s.snap := rfl
@[simp] theorem setCapstan_freeCtr (k : Nat) (c : Capstan) (s : State) : (setCapstan k c s).freeCtr = s.freeCtr := rfl

/-! ### putBarrier -/

@[simp] theorem putBarrier_barriers (b : BarrierRec) (s : State) : (putBarrier b s).barriers = s.barriers.map fun x => if x.ident = b.ident then b else x := rfl
@[simp] theorem putBarrier_pending (b : BarrierRec) (s : State) : (putBarrier b s).pending = s.pending := rfl
@[simp] theorem putBarrier_cad (b : BarrierRec) (s : State) : (putBarrier b s).cad = s.cad := rfl
@[simp] theorem putBarrier_sched (b : BarrierRec) (s : State) : (putBarrier b s).sched = s.sched := rfl
@[simp] theorem putBarrier_arrivals (b : BarrierRec) (s : State) : (putBarrier b s).arrivals = s.arrivals := rfl
@[simp] theorem putBarrier_xing (b : BarrierRec) (s : State) : (putBarrier b s).xing = s.xing := rfl
@[simp] theorem putBarrier_fields (b : BarrierRec) (s : State) : (putBarrier b s).fields = s.fields := rfl
@[simp] theorem putBarrier_parts (b : BarrierRec) (s : State) : (putBarrier b s).parts = s.parts := rfl
@[simp] theorem putBarrier_removed (b : BarrierRec) (s : State) : (putBarrier b s).removed = s.removed := rfl
@[simp] theorem putBarrier_plays (b : BarrierRec) (s : State) : (putBarrier b s).plays = s.plays := rfl
@[simp] theorem putBarrier_parting (b : BarrierRec) (s : State) : (putBarrier b s).parting = s.parting := rfl
@[simp] theorem putBarrier_partNext (b : BarrierRec) (s : State) : (putBarrier b s).partNext = s.partNext := rfl
@[simp] theorem putBarrier_rampQueue (b : BarrierRec) (s : State) : (putBarrier b s).rampQueue = s.rampQueue := rfl
@[simp] theorem putBarrier_rampLast (b : BarrierRec) (s : State) : (putBarrier b s).rampLast = s.rampLast := rfl
@[simp] theorem putBarrier_knots (b : BarrierRec) (s : State) : (putBarrier b s).knots = s.knots := rfl
@[simp] theorem putBarrier_mem (b : BarrierRec) (s : State) : (putBarrier b s).mem = s.mem := rfl
@[simp] theorem putBarrier_regions (b : BarrierRec) (s : State) : (putBarrier b s).regions = s.regions := rfl
@[simp] theorem putBarrier_loans (b : BarrierRec) (s : State) : (putBarrier b s).loans = s.loans := rfl
@[simp] theorem putBarrier_loanNext (b : BarrierRec) (s : State) : (putBarrier b s).loanNext = s.loanNext := rfl
@[simp] theorem putBarrier_hints (b : BarrierRec) (s : State) : (putBarrier b s).hints = s.hints := rfl
@[simp] theorem putBarrier_caches (b : BarrierRec) (s : State) : (putBarrier b s).caches = s.caches := rfl
@[simp] theorem putBarrier_near (b : BarrierRec) (s : State) : (putBarrier b s).near = s.near := rfl
@[simp] theorem putBarrier_cap (b : BarrierRec) (s : State) : (putBarrier b s).cap = s.cap := rfl
@[simp] theorem putBarrier_watch (b : BarrierRec) (s : State) : (putBarrier b s).watch = s.watch := rfl
@[simp] theorem putBarrier_ports (b : BarrierRec) (s : State) : (putBarrier b s).ports = s.ports := rfl
@[simp] theorem putBarrier_lqWindow (b : BarrierRec) (s : State) : (putBarrier b s).lqWindow = s.lqWindow := rfl
@[simp] theorem putBarrier_sets (b : BarrierRec) (s : State) : (putBarrier b s).sets = s.sets := rfl
@[simp] theorem putBarrier_colls (b : BarrierRec) (s : State) : (putBarrier b s).colls = s.colls := rfl
@[simp] theorem putBarrier_exchanges (b : BarrierRec) (s : State) : (putBarrier b s).exchanges = s.exchanges := rfl
@[simp] theorem putBarrier_mesh (b : BarrierRec) (s : State) : (putBarrier b s).mesh = s.mesh := rfl
@[simp] theorem putBarrier_power (b : BarrierRec) (s : State) : (putBarrier b s).power = s.power := rfl
@[simp] theorem putBarrier_rel (b : BarrierRec) (s : State) : (putBarrier b s).rel = s.rel := rfl
@[simp] theorem putBarrier_bu (b : BarrierRec) (s : State) : (putBarrier b s).bu = s.bu := rfl
@[simp] theorem putBarrier_host (b : BarrierRec) (s : State) : (putBarrier b s).host = s.host := rfl
@[simp] theorem putBarrier_dbgUnit (b : BarrierRec) (s : State) : (putBarrier b s).dbgUnit = s.dbgUnit := rfl
@[simp] theorem putBarrier_pins (b : BarrierRec) (s : State) : (putBarrier b s).pins = s.pins := rfl
@[simp] theorem putBarrier_store (b : BarrierRec) (s : State) : (putBarrier b s).store = s.store := rfl
@[simp] theorem putBarrier_snap (b : BarrierRec) (s : State) : (putBarrier b s).snap = s.snap := rfl
@[simp] theorem putBarrier_freeCtr (b : BarrierRec) (s : State) : (putBarrier b s).freeCtr = s.freeCtr := rfl

/-! ### setX -/

@[simp] theorem setX_exchanges (x : Exchange) (s : State) : (setX x s).exchanges = upsert x.xid x s.exchanges := rfl
@[simp] theorem setX_pending (x : Exchange) (s : State) : (setX x s).pending = s.pending := rfl
@[simp] theorem setX_cad (x : Exchange) (s : State) : (setX x s).cad = s.cad := rfl
@[simp] theorem setX_sched (x : Exchange) (s : State) : (setX x s).sched = s.sched := rfl
@[simp] theorem setX_arrivals (x : Exchange) (s : State) : (setX x s).arrivals = s.arrivals := rfl
@[simp] theorem setX_xing (x : Exchange) (s : State) : (setX x s).xing = s.xing := rfl
@[simp] theorem setX_fields (x : Exchange) (s : State) : (setX x s).fields = s.fields := rfl
@[simp] theorem setX_parts (x : Exchange) (s : State) : (setX x s).parts = s.parts := rfl
@[simp] theorem setX_removed (x : Exchange) (s : State) : (setX x s).removed = s.removed := rfl
@[simp] theorem setX_plays (x : Exchange) (s : State) : (setX x s).plays = s.plays := rfl
@[simp] theorem setX_parting (x : Exchange) (s : State) : (setX x s).parting = s.parting := rfl
@[simp] theorem setX_partNext (x : Exchange) (s : State) : (setX x s).partNext = s.partNext := rfl
@[simp] theorem setX_rampQueue (x : Exchange) (s : State) : (setX x s).rampQueue = s.rampQueue := rfl
@[simp] theorem setX_rampLast (x : Exchange) (s : State) : (setX x s).rampLast = s.rampLast := rfl
@[simp] theorem setX_knots (x : Exchange) (s : State) : (setX x s).knots = s.knots := rfl
@[simp] theorem setX_mem (x : Exchange) (s : State) : (setX x s).mem = s.mem := rfl
@[simp] theorem setX_regions (x : Exchange) (s : State) : (setX x s).regions = s.regions := rfl
@[simp] theorem setX_loans (x : Exchange) (s : State) : (setX x s).loans = s.loans := rfl
@[simp] theorem setX_loanNext (x : Exchange) (s : State) : (setX x s).loanNext = s.loanNext := rfl
@[simp] theorem setX_hints (x : Exchange) (s : State) : (setX x s).hints = s.hints := rfl
@[simp] theorem setX_caches (x : Exchange) (s : State) : (setX x s).caches = s.caches := rfl
@[simp] theorem setX_near (x : Exchange) (s : State) : (setX x s).near = s.near := rfl
@[simp] theorem setX_cap (x : Exchange) (s : State) : (setX x s).cap = s.cap := rfl
@[simp] theorem setX_watch (x : Exchange) (s : State) : (setX x s).watch = s.watch := rfl
@[simp] theorem setX_ports (x : Exchange) (s : State) : (setX x s).ports = s.ports := rfl
@[simp] theorem setX_lqWindow (x : Exchange) (s : State) : (setX x s).lqWindow = s.lqWindow := rfl
@[simp] theorem setX_sets (x : Exchange) (s : State) : (setX x s).sets = s.sets := rfl
@[simp] theorem setX_colls (x : Exchange) (s : State) : (setX x s).colls = s.colls := rfl
@[simp] theorem setX_barriers (x : Exchange) (s : State) : (setX x s).barriers = s.barriers := rfl
@[simp] theorem setX_mesh (x : Exchange) (s : State) : (setX x s).mesh = s.mesh := rfl
@[simp] theorem setX_power (x : Exchange) (s : State) : (setX x s).power = s.power := rfl
@[simp] theorem setX_rel (x : Exchange) (s : State) : (setX x s).rel = s.rel := rfl
@[simp] theorem setX_bu (x : Exchange) (s : State) : (setX x s).bu = s.bu := rfl
@[simp] theorem setX_host (x : Exchange) (s : State) : (setX x s).host = s.host := rfl
@[simp] theorem setX_dbgUnit (x : Exchange) (s : State) : (setX x s).dbgUnit = s.dbgUnit := rfl
@[simp] theorem setX_pins (x : Exchange) (s : State) : (setX x s).pins = s.pins := rfl
@[simp] theorem setX_store (x : Exchange) (s : State) : (setX x s).store = s.store := rfl
@[simp] theorem setX_snap (x : Exchange) (s : State) : (setX x s).snap = s.snap := rfl
@[simp] theorem setX_freeCtr (x : Exchange) (s : State) : (setX x s).freeCtr = s.freeCtr := rfl

/-! ### setSlot -/

@[simp] theorem setSlot_watch (n : Nat) (x : Slot) (s : State) : (setSlot n x s).watch = { s.watch with slots := upsert n x s.watch.slots } := rfl
@[simp] theorem setSlot_pending (n : Nat) (x : Slot) (s : State) : (setSlot n x s).pending = s.pending := rfl
@[simp] theorem setSlot_cad (n : Nat) (x : Slot) (s : State) : (setSlot n x s).cad = s.cad := rfl
@[simp] theorem setSlot_sched (n : Nat) (x : Slot) (s : State) : (setSlot n x s).sched = s.sched := rfl
@[simp] theorem setSlot_arrivals (n : Nat) (x : Slot) (s : State) : (setSlot n x s).arrivals = s.arrivals := rfl
@[simp] theorem setSlot_xing (n : Nat) (x : Slot) (s : State) : (setSlot n x s).xing = s.xing := rfl
@[simp] theorem setSlot_fields (n : Nat) (x : Slot) (s : State) : (setSlot n x s).fields = s.fields := rfl
@[simp] theorem setSlot_parts (n : Nat) (x : Slot) (s : State) : (setSlot n x s).parts = s.parts := rfl
@[simp] theorem setSlot_removed (n : Nat) (x : Slot) (s : State) : (setSlot n x s).removed = s.removed := rfl
@[simp] theorem setSlot_plays (n : Nat) (x : Slot) (s : State) : (setSlot n x s).plays = s.plays := rfl
@[simp] theorem setSlot_parting (n : Nat) (x : Slot) (s : State) : (setSlot n x s).parting = s.parting := rfl
@[simp] theorem setSlot_partNext (n : Nat) (x : Slot) (s : State) : (setSlot n x s).partNext = s.partNext := rfl
@[simp] theorem setSlot_rampQueue (n : Nat) (x : Slot) (s : State) : (setSlot n x s).rampQueue = s.rampQueue := rfl
@[simp] theorem setSlot_rampLast (n : Nat) (x : Slot) (s : State) : (setSlot n x s).rampLast = s.rampLast := rfl
@[simp] theorem setSlot_knots (n : Nat) (x : Slot) (s : State) : (setSlot n x s).knots = s.knots := rfl
@[simp] theorem setSlot_mem (n : Nat) (x : Slot) (s : State) : (setSlot n x s).mem = s.mem := rfl
@[simp] theorem setSlot_regions (n : Nat) (x : Slot) (s : State) : (setSlot n x s).regions = s.regions := rfl
@[simp] theorem setSlot_loans (n : Nat) (x : Slot) (s : State) : (setSlot n x s).loans = s.loans := rfl
@[simp] theorem setSlot_loanNext (n : Nat) (x : Slot) (s : State) : (setSlot n x s).loanNext = s.loanNext := rfl
@[simp] theorem setSlot_hints (n : Nat) (x : Slot) (s : State) : (setSlot n x s).hints = s.hints := rfl
@[simp] theorem setSlot_caches (n : Nat) (x : Slot) (s : State) : (setSlot n x s).caches = s.caches := rfl
@[simp] theorem setSlot_near (n : Nat) (x : Slot) (s : State) : (setSlot n x s).near = s.near := rfl
@[simp] theorem setSlot_cap (n : Nat) (x : Slot) (s : State) : (setSlot n x s).cap = s.cap := rfl
@[simp] theorem setSlot_ports (n : Nat) (x : Slot) (s : State) : (setSlot n x s).ports = s.ports := rfl
@[simp] theorem setSlot_lqWindow (n : Nat) (x : Slot) (s : State) : (setSlot n x s).lqWindow = s.lqWindow := rfl
@[simp] theorem setSlot_sets (n : Nat) (x : Slot) (s : State) : (setSlot n x s).sets = s.sets := rfl
@[simp] theorem setSlot_colls (n : Nat) (x : Slot) (s : State) : (setSlot n x s).colls = s.colls := rfl
@[simp] theorem setSlot_barriers (n : Nat) (x : Slot) (s : State) : (setSlot n x s).barriers = s.barriers := rfl
@[simp] theorem setSlot_exchanges (n : Nat) (x : Slot) (s : State) : (setSlot n x s).exchanges = s.exchanges := rfl
@[simp] theorem setSlot_mesh (n : Nat) (x : Slot) (s : State) : (setSlot n x s).mesh = s.mesh := rfl
@[simp] theorem setSlot_power (n : Nat) (x : Slot) (s : State) : (setSlot n x s).power = s.power := rfl
@[simp] theorem setSlot_rel (n : Nat) (x : Slot) (s : State) : (setSlot n x s).rel = s.rel := rfl
@[simp] theorem setSlot_bu (n : Nat) (x : Slot) (s : State) : (setSlot n x s).bu = s.bu := rfl
@[simp] theorem setSlot_host (n : Nat) (x : Slot) (s : State) : (setSlot n x s).host = s.host := rfl
@[simp] theorem setSlot_dbgUnit (n : Nat) (x : Slot) (s : State) : (setSlot n x s).dbgUnit = s.dbgUnit := rfl
@[simp] theorem setSlot_pins (n : Nat) (x : Slot) (s : State) : (setSlot n x s).pins = s.pins := rfl
@[simp] theorem setSlot_store (n : Nat) (x : Slot) (s : State) : (setSlot n x s).store = s.store := rfl
@[simp] theorem setSlot_snap (n : Nat) (x : Slot) (s : State) : (setSlot n x s).snap = s.snap := rfl
@[simp] theorem setSlot_freeCtr (n : Nat) (x : Slot) (s : State) : (setSlot n x s).freeCtr = s.freeCtr := rfl

/-! ### setPort -/

@[simp] theorem setPort_ports (n : Nat) (p : HPort) (s : State) : (setPort n p s).ports = upsert n p s.ports := rfl
@[simp] theorem setPort_pending (n : Nat) (p : HPort) (s : State) : (setPort n p s).pending = s.pending := rfl
@[simp] theorem setPort_cad (n : Nat) (p : HPort) (s : State) : (setPort n p s).cad = s.cad := rfl
@[simp] theorem setPort_sched (n : Nat) (p : HPort) (s : State) : (setPort n p s).sched = s.sched := rfl
@[simp] theorem setPort_arrivals (n : Nat) (p : HPort) (s : State) : (setPort n p s).arrivals = s.arrivals := rfl
@[simp] theorem setPort_xing (n : Nat) (p : HPort) (s : State) : (setPort n p s).xing = s.xing := rfl
@[simp] theorem setPort_fields (n : Nat) (p : HPort) (s : State) : (setPort n p s).fields = s.fields := rfl
@[simp] theorem setPort_parts (n : Nat) (p : HPort) (s : State) : (setPort n p s).parts = s.parts := rfl
@[simp] theorem setPort_removed (n : Nat) (p : HPort) (s : State) : (setPort n p s).removed = s.removed := rfl
@[simp] theorem setPort_plays (n : Nat) (p : HPort) (s : State) : (setPort n p s).plays = s.plays := rfl
@[simp] theorem setPort_parting (n : Nat) (p : HPort) (s : State) : (setPort n p s).parting = s.parting := rfl
@[simp] theorem setPort_partNext (n : Nat) (p : HPort) (s : State) : (setPort n p s).partNext = s.partNext := rfl
@[simp] theorem setPort_rampQueue (n : Nat) (p : HPort) (s : State) : (setPort n p s).rampQueue = s.rampQueue := rfl
@[simp] theorem setPort_rampLast (n : Nat) (p : HPort) (s : State) : (setPort n p s).rampLast = s.rampLast := rfl
@[simp] theorem setPort_knots (n : Nat) (p : HPort) (s : State) : (setPort n p s).knots = s.knots := rfl
@[simp] theorem setPort_mem (n : Nat) (p : HPort) (s : State) : (setPort n p s).mem = s.mem := rfl
@[simp] theorem setPort_regions (n : Nat) (p : HPort) (s : State) : (setPort n p s).regions = s.regions := rfl
@[simp] theorem setPort_loans (n : Nat) (p : HPort) (s : State) : (setPort n p s).loans = s.loans := rfl
@[simp] theorem setPort_loanNext (n : Nat) (p : HPort) (s : State) : (setPort n p s).loanNext = s.loanNext := rfl
@[simp] theorem setPort_hints (n : Nat) (p : HPort) (s : State) : (setPort n p s).hints = s.hints := rfl
@[simp] theorem setPort_caches (n : Nat) (p : HPort) (s : State) : (setPort n p s).caches = s.caches := rfl
@[simp] theorem setPort_near (n : Nat) (p : HPort) (s : State) : (setPort n p s).near = s.near := rfl
@[simp] theorem setPort_cap (n : Nat) (p : HPort) (s : State) : (setPort n p s).cap = s.cap := rfl
@[simp] theorem setPort_watch (n : Nat) (p : HPort) (s : State) : (setPort n p s).watch = s.watch := rfl
@[simp] theorem setPort_lqWindow (n : Nat) (p : HPort) (s : State) : (setPort n p s).lqWindow = s.lqWindow := rfl
@[simp] theorem setPort_sets (n : Nat) (p : HPort) (s : State) : (setPort n p s).sets = s.sets := rfl
@[simp] theorem setPort_colls (n : Nat) (p : HPort) (s : State) : (setPort n p s).colls = s.colls := rfl
@[simp] theorem setPort_barriers (n : Nat) (p : HPort) (s : State) : (setPort n p s).barriers = s.barriers := rfl
@[simp] theorem setPort_exchanges (n : Nat) (p : HPort) (s : State) : (setPort n p s).exchanges = s.exchanges := rfl
@[simp] theorem setPort_mesh (n : Nat) (p : HPort) (s : State) : (setPort n p s).mesh = s.mesh := rfl
@[simp] theorem setPort_power (n : Nat) (p : HPort) (s : State) : (setPort n p s).power = s.power := rfl
@[simp] theorem setPort_rel (n : Nat) (p : HPort) (s : State) : (setPort n p s).rel = s.rel := rfl
@[simp] theorem setPort_bu (n : Nat) (p : HPort) (s : State) : (setPort n p s).bu = s.bu := rfl
@[simp] theorem setPort_host (n : Nat) (p : HPort) (s : State) : (setPort n p s).host = s.host := rfl
@[simp] theorem setPort_dbgUnit (n : Nat) (p : HPort) (s : State) : (setPort n p s).dbgUnit = s.dbgUnit := rfl
@[simp] theorem setPort_pins (n : Nat) (p : HPort) (s : State) : (setPort n p s).pins = s.pins := rfl
@[simp] theorem setPort_store (n : Nat) (p : HPort) (s : State) : (setPort n p s).store = s.store := rfl
@[simp] theorem setPort_snap (n : Nat) (p : HPort) (s : State) : (setPort n p s).snap = s.snap := rfl
@[simp] theorem setPort_freeCtr (n : Nat) (p : HPort) (s : State) : (setPort n p s).freeCtr = s.freeCtr := rfl

/-! ### setStack -/

@[simp] theorem setStack_near (n : Nat) (x : Stack) (s : State) : (setStack n x s).near = { s.near with units := upsert n x s.near.units } := rfl
@[simp] theorem setStack_pending (n : Nat) (x : Stack) (s : State) : (setStack n x s).pending = s.pending := rfl
@[simp] theorem setStack_cad (n : Nat) (x : Stack) (s : State) : (setStack n x s).cad = s.cad := rfl
@[simp] theorem setStack_sched (n : Nat) (x : Stack) (s : State) : (setStack n x s).sched = s.sched := rfl
@[simp] theorem setStack_arrivals (n : Nat) (x : Stack) (s : State) : (setStack n x s).arrivals = s.arrivals := rfl
@[simp] theorem setStack_xing (n : Nat) (x : Stack) (s : State) : (setStack n x s).xing = s.xing := rfl
@[simp] theorem setStack_fields (n : Nat) (x : Stack) (s : State) : (setStack n x s).fields = s.fields := rfl
@[simp] theorem setStack_parts (n : Nat) (x : Stack) (s : State) : (setStack n x s).parts = s.parts := rfl
@[simp] theorem setStack_removed (n : Nat) (x : Stack) (s : State) : (setStack n x s).removed = s.removed := rfl
@[simp] theorem setStack_plays (n : Nat) (x : Stack) (s : State) : (setStack n x s).plays = s.plays := rfl
@[simp] theorem setStack_parting (n : Nat) (x : Stack) (s : State) : (setStack n x s).parting = s.parting := rfl
@[simp] theorem setStack_partNext (n : Nat) (x : Stack) (s : State) : (setStack n x s).partNext = s.partNext := rfl
@[simp] theorem setStack_rampQueue (n : Nat) (x : Stack) (s : State) : (setStack n x s).rampQueue = s.rampQueue := rfl
@[simp] theorem setStack_rampLast (n : Nat) (x : Stack) (s : State) : (setStack n x s).rampLast = s.rampLast := rfl
@[simp] theorem setStack_knots (n : Nat) (x : Stack) (s : State) : (setStack n x s).knots = s.knots := rfl
@[simp] theorem setStack_mem (n : Nat) (x : Stack) (s : State) : (setStack n x s).mem = s.mem := rfl
@[simp] theorem setStack_regions (n : Nat) (x : Stack) (s : State) : (setStack n x s).regions = s.regions := rfl
@[simp] theorem setStack_loans (n : Nat) (x : Stack) (s : State) : (setStack n x s).loans = s.loans := rfl
@[simp] theorem setStack_loanNext (n : Nat) (x : Stack) (s : State) : (setStack n x s).loanNext = s.loanNext := rfl
@[simp] theorem setStack_hints (n : Nat) (x : Stack) (s : State) : (setStack n x s).hints = s.hints := rfl
@[simp] theorem setStack_caches (n : Nat) (x : Stack) (s : State) : (setStack n x s).caches = s.caches := rfl
@[simp] theorem setStack_cap (n : Nat) (x : Stack) (s : State) : (setStack n x s).cap = s.cap := rfl
@[simp] theorem setStack_watch (n : Nat) (x : Stack) (s : State) : (setStack n x s).watch = s.watch := rfl
@[simp] theorem setStack_ports (n : Nat) (x : Stack) (s : State) : (setStack n x s).ports = s.ports := rfl
@[simp] theorem setStack_lqWindow (n : Nat) (x : Stack) (s : State) : (setStack n x s).lqWindow = s.lqWindow := rfl
@[simp] theorem setStack_sets (n : Nat) (x : Stack) (s : State) : (setStack n x s).sets = s.sets := rfl
@[simp] theorem setStack_colls (n : Nat) (x : Stack) (s : State) : (setStack n x s).colls = s.colls := rfl
@[simp] theorem setStack_barriers (n : Nat) (x : Stack) (s : State) : (setStack n x s).barriers = s.barriers := rfl
@[simp] theorem setStack_exchanges (n : Nat) (x : Stack) (s : State) : (setStack n x s).exchanges = s.exchanges := rfl
@[simp] theorem setStack_mesh (n : Nat) (x : Stack) (s : State) : (setStack n x s).mesh = s.mesh := rfl
@[simp] theorem setStack_power (n : Nat) (x : Stack) (s : State) : (setStack n x s).power = s.power := rfl
@[simp] theorem setStack_rel (n : Nat) (x : Stack) (s : State) : (setStack n x s).rel = s.rel := rfl
@[simp] theorem setStack_bu (n : Nat) (x : Stack) (s : State) : (setStack n x s).bu = s.bu := rfl
@[simp] theorem setStack_host (n : Nat) (x : Stack) (s : State) : (setStack n x s).host = s.host := rfl
@[simp] theorem setStack_dbgUnit (n : Nat) (x : Stack) (s : State) : (setStack n x s).dbgUnit = s.dbgUnit := rfl
@[simp] theorem setStack_pins (n : Nat) (x : Stack) (s : State) : (setStack n x s).pins = s.pins := rfl
@[simp] theorem setStack_store (n : Nat) (x : Stack) (s : State) : (setStack n x s).store = s.store := rfl
@[simp] theorem setStack_snap (n : Nat) (x : Stack) (s : State) : (setStack n x s).snap = s.snap := rfl
@[simp] theorem setStack_freeCtr (n : Nat) (x : Stack) (s : State) : (setStack n x s).freeCtr = s.freeCtr := rfl

/-! ### setRegion -/

@[simp] theorem setRegion_regions (n : Nat) (r : Region) (s : State) : (setRegion n r s).regions = upsert n r s.regions := rfl
@[simp] theorem setRegion_pending (n : Nat) (r : Region) (s : State) : (setRegion n r s).pending = s.pending := rfl
@[simp] theorem setRegion_cad (n : Nat) (r : Region) (s : State) : (setRegion n r s).cad = s.cad := rfl
@[simp] theorem setRegion_sched (n : Nat) (r : Region) (s : State) : (setRegion n r s).sched = s.sched := rfl
@[simp] theorem setRegion_arrivals (n : Nat) (r : Region) (s : State) : (setRegion n r s).arrivals = s.arrivals := rfl
@[simp] theorem setRegion_xing (n : Nat) (r : Region) (s : State) : (setRegion n r s).xing = s.xing := rfl
@[simp] theorem setRegion_fields (n : Nat) (r : Region) (s : State) : (setRegion n r s).fields = s.fields := rfl
@[simp] theorem setRegion_parts (n : Nat) (r : Region) (s : State) : (setRegion n r s).parts = s.parts := rfl
@[simp] theorem setRegion_removed (n : Nat) (r : Region) (s : State) : (setRegion n r s).removed = s.removed := rfl
@[simp] theorem setRegion_plays (n : Nat) (r : Region) (s : State) : (setRegion n r s).plays = s.plays := rfl
@[simp] theorem setRegion_parting (n : Nat) (r : Region) (s : State) : (setRegion n r s).parting = s.parting := rfl
@[simp] theorem setRegion_partNext (n : Nat) (r : Region) (s : State) : (setRegion n r s).partNext = s.partNext := rfl
@[simp] theorem setRegion_rampQueue (n : Nat) (r : Region) (s : State) : (setRegion n r s).rampQueue = s.rampQueue := rfl
@[simp] theorem setRegion_rampLast (n : Nat) (r : Region) (s : State) : (setRegion n r s).rampLast = s.rampLast := rfl
@[simp] theorem setRegion_knots (n : Nat) (r : Region) (s : State) : (setRegion n r s).knots = s.knots := rfl
@[simp] theorem setRegion_mem (n : Nat) (r : Region) (s : State) : (setRegion n r s).mem = s.mem := rfl
@[simp] theorem setRegion_loans (n : Nat) (r : Region) (s : State) : (setRegion n r s).loans = s.loans := rfl
@[simp] theorem setRegion_loanNext (n : Nat) (r : Region) (s : State) : (setRegion n r s).loanNext = s.loanNext := rfl
@[simp] theorem setRegion_hints (n : Nat) (r : Region) (s : State) : (setRegion n r s).hints = s.hints := rfl
@[simp] theorem setRegion_caches (n : Nat) (r : Region) (s : State) : (setRegion n r s).caches = s.caches := rfl
@[simp] theorem setRegion_near (n : Nat) (r : Region) (s : State) : (setRegion n r s).near = s.near := rfl
@[simp] theorem setRegion_cap (n : Nat) (r : Region) (s : State) : (setRegion n r s).cap = s.cap := rfl
@[simp] theorem setRegion_watch (n : Nat) (r : Region) (s : State) : (setRegion n r s).watch = s.watch := rfl
@[simp] theorem setRegion_ports (n : Nat) (r : Region) (s : State) : (setRegion n r s).ports = s.ports := rfl
@[simp] theorem setRegion_lqWindow (n : Nat) (r : Region) (s : State) : (setRegion n r s).lqWindow = s.lqWindow := rfl
@[simp] theorem setRegion_sets (n : Nat) (r : Region) (s : State) : (setRegion n r s).sets = s.sets := rfl
@[simp] theorem setRegion_colls (n : Nat) (r : Region) (s : State) : (setRegion n r s).colls = s.colls := rfl
@[simp] theorem setRegion_barriers (n : Nat) (r : Region) (s : State) : (setRegion n r s).barriers = s.barriers := rfl
@[simp] theorem setRegion_exchanges (n : Nat) (r : Region) (s : State) : (setRegion n r s).exchanges = s.exchanges := rfl
@[simp] theorem setRegion_mesh (n : Nat) (r : Region) (s : State) : (setRegion n r s).mesh = s.mesh := rfl
@[simp] theorem setRegion_power (n : Nat) (r : Region) (s : State) : (setRegion n r s).power = s.power := rfl
@[simp] theorem setRegion_rel (n : Nat) (r : Region) (s : State) : (setRegion n r s).rel = s.rel := rfl
@[simp] theorem setRegion_bu (n : Nat) (r : Region) (s : State) : (setRegion n r s).bu = s.bu := rfl
@[simp] theorem setRegion_host (n : Nat) (r : Region) (s : State) : (setRegion n r s).host = s.host := rfl
@[simp] theorem setRegion_dbgUnit (n : Nat) (r : Region) (s : State) : (setRegion n r s).dbgUnit = s.dbgUnit := rfl
@[simp] theorem setRegion_pins (n : Nat) (r : Region) (s : State) : (setRegion n r s).pins = s.pins := rfl
@[simp] theorem setRegion_store (n : Nat) (r : Region) (s : State) : (setRegion n r s).store = s.store := rfl
@[simp] theorem setRegion_snap (n : Nat) (r : Region) (s : State) : (setRegion n r s).snap = s.snap := rfl
@[simp] theorem setRegion_freeCtr (n : Nat) (r : Region) (s : State) : (setRegion n r s).freeCtr = s.freeCtr := rfl

/-! ### setPart -/

@[simp] theorem setPart_parts (p : Partition) (s : State) : (setPart p s).parts = s.parts.map fun q => if q.org = p.org && q.shape = p.shape then p else q := rfl
@[simp] theorem setPart_pending (p : Partition) (s : State) : (setPart p s).pending = s.pending := rfl
@[simp] theorem setPart_cad (p : Partition) (s : State) : (setPart p s).cad = s.cad := rfl
@[simp] theorem setPart_sched (p : Partition) (s : State) : (setPart p s).sched = s.sched := rfl
@[simp] theorem setPart_arrivals (p : Partition) (s : State) : (setPart p s).arrivals = s.arrivals := rfl
@[simp] theorem setPart_xing (p : Partition) (s : State) : (setPart p s).xing = s.xing := rfl
@[simp] theorem setPart_fields (p : Partition) (s : State) : (setPart p s).fields = s.fields := rfl
@[simp] theorem setPart_removed (p : Partition) (s : State) : (setPart p s).removed = s.removed := rfl
@[simp] theorem setPart_plays (p : Partition) (s : State) : (setPart p s).plays = s.plays := rfl
@[simp] theorem setPart_parting (p : Partition) (s : State) : (setPart p s).parting = s.parting := rfl
@[simp] theorem setPart_partNext (p : Partition) (s : State) : (setPart p s).partNext = s.partNext := rfl
@[simp] theorem setPart_rampQueue (p : Partition) (s : State) : (setPart p s).rampQueue = s.rampQueue := rfl
@[simp] theorem setPart_rampLast (p : Partition) (s : State) : (setPart p s).rampLast = s.rampLast := rfl
@[simp] theorem setPart_knots (p : Partition) (s : State) : (setPart p s).knots = s.knots := rfl
@[simp] theorem setPart_mem (p : Partition) (s : State) : (setPart p s).mem = s.mem := rfl
@[simp] theorem setPart_regions (p : Partition) (s : State) : (setPart p s).regions = s.regions := rfl
@[simp] theorem setPart_loans (p : Partition) (s : State) : (setPart p s).loans = s.loans := rfl
@[simp] theorem setPart_loanNext (p : Partition) (s : State) : (setPart p s).loanNext = s.loanNext := rfl
@[simp] theorem setPart_hints (p : Partition) (s : State) : (setPart p s).hints = s.hints := rfl
@[simp] theorem setPart_caches (p : Partition) (s : State) : (setPart p s).caches = s.caches := rfl
@[simp] theorem setPart_near (p : Partition) (s : State) : (setPart p s).near = s.near := rfl
@[simp] theorem setPart_cap (p : Partition) (s : State) : (setPart p s).cap = s.cap := rfl
@[simp] theorem setPart_watch (p : Partition) (s : State) : (setPart p s).watch = s.watch := rfl
@[simp] theorem setPart_ports (p : Partition) (s : State) : (setPart p s).ports = s.ports := rfl
@[simp] theorem setPart_lqWindow (p : Partition) (s : State) : (setPart p s).lqWindow = s.lqWindow := rfl
@[simp] theorem setPart_sets (p : Partition) (s : State) : (setPart p s).sets = s.sets := rfl
@[simp] theorem setPart_colls (p : Partition) (s : State) : (setPart p s).colls = s.colls := rfl
@[simp] theorem setPart_barriers (p : Partition) (s : State) : (setPart p s).barriers = s.barriers := rfl
@[simp] theorem setPart_exchanges (p : Partition) (s : State) : (setPart p s).exchanges = s.exchanges := rfl
@[simp] theorem setPart_mesh (p : Partition) (s : State) : (setPart p s).mesh = s.mesh := rfl
@[simp] theorem setPart_power (p : Partition) (s : State) : (setPart p s).power = s.power := rfl
@[simp] theorem setPart_rel (p : Partition) (s : State) : (setPart p s).rel = s.rel := rfl
@[simp] theorem setPart_bu (p : Partition) (s : State) : (setPart p s).bu = s.bu := rfl
@[simp] theorem setPart_host (p : Partition) (s : State) : (setPart p s).host = s.host := rfl
@[simp] theorem setPart_dbgUnit (p : Partition) (s : State) : (setPart p s).dbgUnit = s.dbgUnit := rfl
@[simp] theorem setPart_pins (p : Partition) (s : State) : (setPart p s).pins = s.pins := rfl
@[simp] theorem setPart_store (p : Partition) (s : State) : (setPart p s).store = s.store := rfl
@[simp] theorem setPart_snap (p : Partition) (s : State) : (setPart p s).snap = s.snap := rfl
@[simp] theorem setPart_freeCtr (p : Partition) (s : State) : (setPart p s).freeCtr = s.freeCtr := rfl

/-! ### setPlay -/

@[simp] theorem setPlay_plays (p : Play) (s : State) : (setPlay p s).plays = s.plays.map fun q => if q.order = p.order then p else q := rfl
@[simp] theorem setPlay_pending (p : Play) (s : State) : (setPlay p s).pending = s.pending := rfl
@[simp] theorem setPlay_cad (p : Play) (s : State) : (setPlay p s).cad = s.cad := rfl
@[simp] theorem setPlay_sched (p : Play) (s : State) : (setPlay p s).sched = s.sched := rfl
@[simp] theorem setPlay_arrivals (p : Play) (s : State) : (setPlay p s).arrivals = s.arrivals := rfl
@[simp] theorem setPlay_xing (p : Play) (s : State) : (setPlay p s).xing = s.xing := rfl
@[simp] theorem setPlay_fields (p : Play) (s : State) : (setPlay p s).fields = s.fields := rfl
@[simp] theorem setPlay_parts (p : Play) (s : State) : (setPlay p s).parts = s.parts := rfl
@[simp] theorem setPlay_removed (p : Play) (s : State) : (setPlay p s).removed = s.removed := rfl
@[simp] theorem setPlay_parting (p : Play) (s : State) : (setPlay p s).parting = s.parting := rfl
@[simp] theorem setPlay_partNext (p : Play) (s : State) : (setPlay p s).partNext = s.partNext := rfl
@[simp] theorem setPlay_rampQueue (p : Play) (s : State) : (setPlay p s).rampQueue = s.rampQueue := rfl
@[simp] theorem setPlay_rampLast (p : Play) (s : State) : (setPlay p s).rampLast = s.rampLast := rfl
@[simp] theorem setPlay_knots (p : Play) (s : State) : (setPlay p s).knots = s.knots := rfl
@[simp] theorem setPlay_mem (p : Play) (s : State) : (setPlay p s).mem = s.mem := rfl
@[simp] theorem setPlay_regions (p : Play) (s : State) : (setPlay p s).regions = s.regions := rfl
@[simp] theorem setPlay_loans (p : Play) (s : State) : (setPlay p s).loans = s.loans := rfl
@[simp] theorem setPlay_loanNext (p : Play) (s : State) : (setPlay p s).loanNext = s.loanNext := rfl
@[simp] theorem setPlay_hints (p : Play) (s : State) : (setPlay p s).hints = s.hints := rfl
@[simp] theorem setPlay_caches (p : Play) (s : State) : (setPlay p s).caches = s.caches := rfl
@[simp] theorem setPlay_near (p : Play) (s : State) : (setPlay p s).near = s.near := rfl
@[simp] theorem setPlay_cap (p : Play) (s : State) : (setPlay p s).cap = s.cap := rfl
@[simp] theorem setPlay_watch (p : Play) (s : State) : (setPlay p s).watch = s.watch := rfl
@[simp] theorem setPlay_ports (p : Play) (s : State) : (setPlay p s).ports = s.ports := rfl
@[simp] theorem setPlay_lqWindow (p : Play) (s : State) : (setPlay p s).lqWindow = s.lqWindow := rfl
@[simp] theorem setPlay_sets (p : Play) (s : State) : (setPlay p s).sets = s.sets := rfl
@[simp] theorem setPlay_colls (p : Play) (s : State) : (setPlay p s).colls = s.colls := rfl
@[simp] theorem setPlay_barriers (p : Play) (s : State) : (setPlay p s).barriers = s.barriers := rfl
@[simp] theorem setPlay_exchanges (p : Play) (s : State) : (setPlay p s).exchanges = s.exchanges := rfl
@[simp] theorem setPlay_mesh (p : Play) (s : State) : (setPlay p s).mesh = s.mesh := rfl
@[simp] theorem setPlay_power (p : Play) (s : State) : (setPlay p s).power = s.power := rfl
@[simp] theorem setPlay_rel (p : Play) (s : State) : (setPlay p s).rel = s.rel := rfl
@[simp] theorem setPlay_bu (p : Play) (s : State) : (setPlay p s).bu = s.bu := rfl
@[simp] theorem setPlay_host (p : Play) (s : State) : (setPlay p s).host = s.host := rfl
@[simp] theorem setPlay_dbgUnit (p : Play) (s : State) : (setPlay p s).dbgUnit = s.dbgUnit := rfl
@[simp] theorem setPlay_pins (p : Play) (s : State) : (setPlay p s).pins = s.pins := rfl
@[simp] theorem setPlay_store (p : Play) (s : State) : (setPlay p s).store = s.store := rfl
@[simp] theorem setPlay_snap (p : Play) (s : State) : (setPlay p s).snap = s.snap := rfl
@[simp] theorem setPlay_freeCtr (p : Play) (s : State) : (setPlay p s).freeCtr = s.freeCtr := rfl

/-! ### setField -/

@[simp] theorem setField_fields (f : Nat) (x : Field) (s : State) : (setField f x s).fields = upsert f x s.fields := rfl
@[simp] theorem setField_pending (f : Nat) (x : Field) (s : State) : (setField f x s).pending = s.pending := rfl
@[simp] theorem setField_cad (f : Nat) (x : Field) (s : State) : (setField f x s).cad = s.cad := rfl
@[simp] theorem setField_sched (f : Nat) (x : Field) (s : State) : (setField f x s).sched = s.sched := rfl
@[simp] theorem setField_arrivals (f : Nat) (x : Field) (s : State) : (setField f x s).arrivals = s.arrivals := rfl
@[simp] theorem setField_xing (f : Nat) (x : Field) (s : State) : (setField f x s).xing = s.xing := rfl
@[simp] theorem setField_parts (f : Nat) (x : Field) (s : State) : (setField f x s).parts = s.parts := rfl
@[simp] theorem setField_removed (f : Nat) (x : Field) (s : State) : (setField f x s).removed = s.removed := rfl
@[simp] theorem setField_plays (f : Nat) (x : Field) (s : State) : (setField f x s).plays = s.plays := rfl
@[simp] theorem setField_parting (f : Nat) (x : Field) (s : State) : (setField f x s).parting = s.parting := rfl
@[simp] theorem setField_partNext (f : Nat) (x : Field) (s : State) : (setField f x s).partNext = s.partNext := rfl
@[simp] theorem setField_rampQueue (f : Nat) (x : Field) (s : State) : (setField f x s).rampQueue = s.rampQueue := rfl
@[simp] theorem setField_rampLast (f : Nat) (x : Field) (s : State) : (setField f x s).rampLast = s.rampLast := rfl
@[simp] theorem setField_knots (f : Nat) (x : Field) (s : State) : (setField f x s).knots = s.knots := rfl
@[simp] theorem setField_mem (f : Nat) (x : Field) (s : State) : (setField f x s).mem = s.mem := rfl
@[simp] theorem setField_regions (f : Nat) (x : Field) (s : State) : (setField f x s).regions = s.regions := rfl
@[simp] theorem setField_loans (f : Nat) (x : Field) (s : State) : (setField f x s).loans = s.loans := rfl
@[simp] theorem setField_loanNext (f : Nat) (x : Field) (s : State) : (setField f x s).loanNext = s.loanNext := rfl
@[simp] theorem setField_hints (f : Nat) (x : Field) (s : State) : (setField f x s).hints = s.hints := rfl
@[simp] theorem setField_caches (f : Nat) (x : Field) (s : State) : (setField f x s).caches = s.caches := rfl
@[simp] theorem setField_near (f : Nat) (x : Field) (s : State) : (setField f x s).near = s.near := rfl
@[simp] theorem setField_cap (f : Nat) (x : Field) (s : State) : (setField f x s).cap = s.cap := rfl
@[simp] theorem setField_watch (f : Nat) (x : Field) (s : State) : (setField f x s).watch = s.watch := rfl
@[simp] theorem setField_ports (f : Nat) (x : Field) (s : State) : (setField f x s).ports = s.ports := rfl
@[simp] theorem setField_lqWindow (f : Nat) (x : Field) (s : State) : (setField f x s).lqWindow = s.lqWindow := rfl
@[simp] theorem setField_sets (f : Nat) (x : Field) (s : State) : (setField f x s).sets = s.sets := rfl
@[simp] theorem setField_colls (f : Nat) (x : Field) (s : State) : (setField f x s).colls = s.colls := rfl
@[simp] theorem setField_barriers (f : Nat) (x : Field) (s : State) : (setField f x s).barriers = s.barriers := rfl
@[simp] theorem setField_exchanges (f : Nat) (x : Field) (s : State) : (setField f x s).exchanges = s.exchanges := rfl
@[simp] theorem setField_mesh (f : Nat) (x : Field) (s : State) : (setField f x s).mesh = s.mesh := rfl
@[simp] theorem setField_power (f : Nat) (x : Field) (s : State) : (setField f x s).power = s.power := rfl
@[simp] theorem setField_rel (f : Nat) (x : Field) (s : State) : (setField f x s).rel = s.rel := rfl
@[simp] theorem setField_bu (f : Nat) (x : Field) (s : State) : (setField f x s).bu = s.bu := rfl
@[simp] theorem setField_host (f : Nat) (x : Field) (s : State) : (setField f x s).host = s.host := rfl
@[simp] theorem setField_dbgUnit (f : Nat) (x : Field) (s : State) : (setField f x s).dbgUnit = s.dbgUnit := rfl
@[simp] theorem setField_pins (f : Nat) (x : Field) (s : State) : (setField f x s).pins = s.pins := rfl
@[simp] theorem setField_store (f : Nat) (x : Field) (s : State) : (setField f x s).store = s.store := rfl
@[simp] theorem setField_snap (f : Nat) (x : Field) (s : State) : (setField f x s).snap = s.snap := rfl
@[simp] theorem setField_freeCtr (f : Nat) (x : Field) (s : State) : (setField f x s).freeCtr = s.freeCtr := rfl

/-! ### setKnot -/

@[simp] theorem setKnot_knots (key : Nat) (v : W32) (s : State) : (setKnot key v s).knots = upsert key v s.knots := rfl
@[simp] theorem setKnot_pending (key : Nat) (v : W32) (s : State) : (setKnot key v s).pending = s.pending := rfl
@[simp] theorem setKnot_cad (key : Nat) (v : W32) (s : State) : (setKnot key v s).cad = s.cad := rfl
@[simp] theorem setKnot_sched (key : Nat) (v : W32) (s : State) : (setKnot key v s).sched = s.sched := rfl
@[simp] theorem setKnot_arrivals (key : Nat) (v : W32) (s : State) : (setKnot key v s).arrivals = s.arrivals := rfl
@[simp] theorem setKnot_xing (key : Nat) (v : W32) (s : State) : (setKnot key v s).xing = s.xing := rfl
@[simp] theorem setKnot_fields (key : Nat) (v : W32) (s : State) : (setKnot key v s).fields = s.fields := rfl
@[simp] theorem setKnot_parts (key : Nat) (v : W32) (s : State) : (setKnot key v s).parts = s.parts := rfl
@[simp] theorem setKnot_removed (key : Nat) (v : W32) (s : State) : (setKnot key v s).removed = s.removed := rfl
@[simp] theorem setKnot_plays (key : Nat) (v : W32) (s : State) : (setKnot key v s).plays = s.plays := rfl
@[simp] theorem setKnot_parting (key : Nat) (v : W32) (s : State) : (setKnot key v s).parting = s.parting := rfl
@[simp] theorem setKnot_partNext (key : Nat) (v : W32) (s : State) : (setKnot key v s).partNext = s.partNext := rfl
@[simp] theorem setKnot_rampQueue (key : Nat) (v : W32) (s : State) : (setKnot key v s).rampQueue = s.rampQueue := rfl
@[simp] theorem setKnot_rampLast (key : Nat) (v : W32) (s : State) : (setKnot key v s).rampLast = s.rampLast := rfl
@[simp] theorem setKnot_mem (key : Nat) (v : W32) (s : State) : (setKnot key v s).mem = s.mem := rfl
@[simp] theorem setKnot_regions (key : Nat) (v : W32) (s : State) : (setKnot key v s).regions = s.regions := rfl
@[simp] theorem setKnot_loans (key : Nat) (v : W32) (s : State) : (setKnot key v s).loans = s.loans := rfl
@[simp] theorem setKnot_loanNext (key : Nat) (v : W32) (s : State) : (setKnot key v s).loanNext = s.loanNext := rfl
@[simp] theorem setKnot_hints (key : Nat) (v : W32) (s : State) : (setKnot key v s).hints = s.hints := rfl
@[simp] theorem setKnot_caches (key : Nat) (v : W32) (s : State) : (setKnot key v s).caches = s.caches := rfl
@[simp] theorem setKnot_near (key : Nat) (v : W32) (s : State) : (setKnot key v s).near = s.near := rfl
@[simp] theorem setKnot_cap (key : Nat) (v : W32) (s : State) : (setKnot key v s).cap = s.cap := rfl
@[simp] theorem setKnot_watch (key : Nat) (v : W32) (s : State) : (setKnot key v s).watch = s.watch := rfl
@[simp] theorem setKnot_ports (key : Nat) (v : W32) (s : State) : (setKnot key v s).ports = s.ports := rfl
@[simp] theorem setKnot_lqWindow (key : Nat) (v : W32) (s : State) : (setKnot key v s).lqWindow = s.lqWindow := rfl
@[simp] theorem setKnot_sets (key : Nat) (v : W32) (s : State) : (setKnot key v s).sets = s.sets := rfl
@[simp] theorem setKnot_colls (key : Nat) (v : W32) (s : State) : (setKnot key v s).colls = s.colls := rfl
@[simp] theorem setKnot_barriers (key : Nat) (v : W32) (s : State) : (setKnot key v s).barriers = s.barriers := rfl
@[simp] theorem setKnot_exchanges (key : Nat) (v : W32) (s : State) : (setKnot key v s).exchanges = s.exchanges := rfl
@[simp] theorem setKnot_mesh (key : Nat) (v : W32) (s : State) : (setKnot key v s).mesh = s.mesh := rfl
@[simp] theorem setKnot_power (key : Nat) (v : W32) (s : State) : (setKnot key v s).power = s.power := rfl
@[simp] theorem setKnot_rel (key : Nat) (v : W32) (s : State) : (setKnot key v s).rel = s.rel := rfl
@[simp] theorem setKnot_bu (key : Nat) (v : W32) (s : State) : (setKnot key v s).bu = s.bu := rfl
@[simp] theorem setKnot_host (key : Nat) (v : W32) (s : State) : (setKnot key v s).host = s.host := rfl
@[simp] theorem setKnot_dbgUnit (key : Nat) (v : W32) (s : State) : (setKnot key v s).dbgUnit = s.dbgUnit := rfl
@[simp] theorem setKnot_pins (key : Nat) (v : W32) (s : State) : (setKnot key v s).pins = s.pins := rfl
@[simp] theorem setKnot_store (key : Nat) (v : W32) (s : State) : (setKnot key v s).store = s.store := rfl
@[simp] theorem setKnot_snap (key : Nat) (v : W32) (s : State) : (setKnot key v s).snap = s.snap := rfl
@[simp] theorem setKnot_freeCtr (key : Nat) (v : W32) (s : State) : (setKnot key v s).freeCtr = s.freeCtr := rfl

/-! ### setHostQueue -/

@[simp] theorem setHostQueue_host (q : Nat) (x : Queue) (s : State) : (setHostQueue q x s).host = { s.host with queues := upsert q x s.host.queues } := rfl
@[simp] theorem setHostQueue_pending (q : Nat) (x : Queue) (s : State) : (setHostQueue q x s).pending = s.pending := rfl
@[simp] theorem setHostQueue_cad (q : Nat) (x : Queue) (s : State) : (setHostQueue q x s).cad = s.cad := rfl
@[simp] theorem setHostQueue_sched (q : Nat) (x : Queue) (s : State) : (setHostQueue q x s).sched = s.sched := rfl
@[simp] theorem setHostQueue_arrivals (q : Nat) (x : Queue) (s : State) : (setHostQueue q x s).arrivals = s.arrivals := rfl
@[simp] theorem setHostQueue_xing (q : Nat) (x : Queue) (s : State) : (setHostQueue q x s).xing = s.xing := rfl
@[simp] theorem setHostQueue_fields (q : Nat) (x : Queue) (s : State) : (setHostQueue q x s).fields = s.fields := rfl
@[simp] theorem setHostQueue_parts (q : Nat) (x : Queue) (s : State) : (setHostQueue q x s).parts = s.parts := rfl
@[simp] theorem setHostQueue_removed (q : Nat) (x : Queue) (s : State) : (setHostQueue q x s).removed = s.removed := rfl
@[simp] theorem setHostQueue_plays (q : Nat) (x : Queue) (s : State) : (setHostQueue q x s).plays = s.plays := rfl
@[simp] theorem setHostQueue_parting (q : Nat) (x : Queue) (s : State) : (setHostQueue q x s).parting = s.parting := rfl
@[simp] theorem setHostQueue_partNext (q : Nat) (x : Queue) (s : State) : (setHostQueue q x s).partNext = s.partNext := rfl
@[simp] theorem setHostQueue_rampQueue (q : Nat) (x : Queue) (s : State) : (setHostQueue q x s).rampQueue = s.rampQueue := rfl
@[simp] theorem setHostQueue_rampLast (q : Nat) (x : Queue) (s : State) : (setHostQueue q x s).rampLast = s.rampLast := rfl
@[simp] theorem setHostQueue_knots (q : Nat) (x : Queue) (s : State) : (setHostQueue q x s).knots = s.knots := rfl
@[simp] theorem setHostQueue_mem (q : Nat) (x : Queue) (s : State) : (setHostQueue q x s).mem = s.mem := rfl
@[simp] theorem setHostQueue_regions (q : Nat) (x : Queue) (s : State) : (setHostQueue q x s).regions = s.regions := rfl
@[simp] theorem setHostQueue_loans (q : Nat) (x : Queue) (s : State) : (setHostQueue q x s).loans = s.loans := rfl
@[simp] theorem setHostQueue_loanNext (q : Nat) (x : Queue) (s : State) : (setHostQueue q x s).loanNext = s.loanNext := rfl
@[simp] theorem setHostQueue_hints (q : Nat) (x : Queue) (s : State) : (setHostQueue q x s).hints = s.hints := rfl
@[simp] theorem setHostQueue_caches (q : Nat) (x : Queue) (s : State) : (setHostQueue q x s).caches = s.caches := rfl
@[simp] theorem setHostQueue_near (q : Nat) (x : Queue) (s : State) : (setHostQueue q x s).near = s.near := rfl
@[simp] theorem setHostQueue_cap (q : Nat) (x : Queue) (s : State) : (setHostQueue q x s).cap = s.cap := rfl
@[simp] theorem setHostQueue_watch (q : Nat) (x : Queue) (s : State) : (setHostQueue q x s).watch = s.watch := rfl
@[simp] theorem setHostQueue_ports (q : Nat) (x : Queue) (s : State) : (setHostQueue q x s).ports = s.ports := rfl
@[simp] theorem setHostQueue_lqWindow (q : Nat) (x : Queue) (s : State) : (setHostQueue q x s).lqWindow = s.lqWindow := rfl
@[simp] theorem setHostQueue_sets (q : Nat) (x : Queue) (s : State) : (setHostQueue q x s).sets = s.sets := rfl
@[simp] theorem setHostQueue_colls (q : Nat) (x : Queue) (s : State) : (setHostQueue q x s).colls = s.colls := rfl
@[simp] theorem setHostQueue_barriers (q : Nat) (x : Queue) (s : State) : (setHostQueue q x s).barriers = s.barriers := rfl
@[simp] theorem setHostQueue_exchanges (q : Nat) (x : Queue) (s : State) : (setHostQueue q x s).exchanges = s.exchanges := rfl
@[simp] theorem setHostQueue_mesh (q : Nat) (x : Queue) (s : State) : (setHostQueue q x s).mesh = s.mesh := rfl
@[simp] theorem setHostQueue_power (q : Nat) (x : Queue) (s : State) : (setHostQueue q x s).power = s.power := rfl
@[simp] theorem setHostQueue_rel (q : Nat) (x : Queue) (s : State) : (setHostQueue q x s).rel = s.rel := rfl
@[simp] theorem setHostQueue_bu (q : Nat) (x : Queue) (s : State) : (setHostQueue q x s).bu = s.bu := rfl
@[simp] theorem setHostQueue_dbgUnit (q : Nat) (x : Queue) (s : State) : (setHostQueue q x s).dbgUnit = s.dbgUnit := rfl
@[simp] theorem setHostQueue_pins (q : Nat) (x : Queue) (s : State) : (setHostQueue q x s).pins = s.pins := rfl
@[simp] theorem setHostQueue_store (q : Nat) (x : Queue) (s : State) : (setHostQueue q x s).store = s.store := rfl
@[simp] theorem setHostQueue_snap (q : Nat) (x : Queue) (s : State) : (setHostQueue q x s).snap = s.snap := rfl
@[simp] theorem setHostQueue_freeCtr (q : Nat) (x : Queue) (s : State) : (setHostQueue q x s).freeCtr = s.freeCtr := rfl

/-! ### setDbg -/

@[simp] theorem setDbg_dbgUnit (d : Debug) (s : State) : (setDbg d s).dbgUnit = d := rfl
@[simp] theorem setDbg_pending (d : Debug) (s : State) : (setDbg d s).pending = s.pending := rfl
@[simp] theorem setDbg_cad (d : Debug) (s : State) : (setDbg d s).cad = s.cad := rfl
@[simp] theorem setDbg_sched (d : Debug) (s : State) : (setDbg d s).sched = s.sched := rfl
@[simp] theorem setDbg_arrivals (d : Debug) (s : State) : (setDbg d s).arrivals = s.arrivals := rfl
@[simp] theorem setDbg_xing (d : Debug) (s : State) : (setDbg d s).xing = s.xing := rfl
@[simp] theorem setDbg_fields (d : Debug) (s : State) : (setDbg d s).fields = s.fields := rfl
@[simp] theorem setDbg_parts (d : Debug) (s : State) : (setDbg d s).parts = s.parts := rfl
@[simp] theorem setDbg_removed (d : Debug) (s : State) : (setDbg d s).removed = s.removed := rfl
@[simp] theorem setDbg_plays (d : Debug) (s : State) : (setDbg d s).plays = s.plays := rfl
@[simp] theorem setDbg_parting (d : Debug) (s : State) : (setDbg d s).parting = s.parting := rfl
@[simp] theorem setDbg_partNext (d : Debug) (s : State) : (setDbg d s).partNext = s.partNext := rfl
@[simp] theorem setDbg_rampQueue (d : Debug) (s : State) : (setDbg d s).rampQueue = s.rampQueue := rfl
@[simp] theorem setDbg_rampLast (d : Debug) (s : State) : (setDbg d s).rampLast = s.rampLast := rfl
@[simp] theorem setDbg_knots (d : Debug) (s : State) : (setDbg d s).knots = s.knots := rfl
@[simp] theorem setDbg_mem (d : Debug) (s : State) : (setDbg d s).mem = s.mem := rfl
@[simp] theorem setDbg_regions (d : Debug) (s : State) : (setDbg d s).regions = s.regions := rfl
@[simp] theorem setDbg_loans (d : Debug) (s : State) : (setDbg d s).loans = s.loans := rfl
@[simp] theorem setDbg_loanNext (d : Debug) (s : State) : (setDbg d s).loanNext = s.loanNext := rfl
@[simp] theorem setDbg_hints (d : Debug) (s : State) : (setDbg d s).hints = s.hints := rfl
@[simp] theorem setDbg_caches (d : Debug) (s : State) : (setDbg d s).caches = s.caches := rfl
@[simp] theorem setDbg_near (d : Debug) (s : State) : (setDbg d s).near = s.near := rfl
@[simp] theorem setDbg_cap (d : Debug) (s : State) : (setDbg d s).cap = s.cap := rfl
@[simp] theorem setDbg_watch (d : Debug) (s : State) : (setDbg d s).watch = s.watch := rfl
@[simp] theorem setDbg_ports (d : Debug) (s : State) : (setDbg d s).ports = s.ports := rfl
@[simp] theorem setDbg_lqWindow (d : Debug) (s : State) : (setDbg d s).lqWindow = s.lqWindow := rfl
@[simp] theorem setDbg_sets (d : Debug) (s : State) : (setDbg d s).sets = s.sets := rfl
@[simp] theorem setDbg_colls (d : Debug) (s : State) : (setDbg d s).colls = s.colls := rfl
@[simp] theorem setDbg_barriers (d : Debug) (s : State) : (setDbg d s).barriers = s.barriers := rfl
@[simp] theorem setDbg_exchanges (d : Debug) (s : State) : (setDbg d s).exchanges = s.exchanges := rfl
@[simp] theorem setDbg_mesh (d : Debug) (s : State) : (setDbg d s).mesh = s.mesh := rfl
@[simp] theorem setDbg_power (d : Debug) (s : State) : (setDbg d s).power = s.power := rfl
@[simp] theorem setDbg_rel (d : Debug) (s : State) : (setDbg d s).rel = s.rel := rfl
@[simp] theorem setDbg_bu (d : Debug) (s : State) : (setDbg d s).bu = s.bu := rfl
@[simp] theorem setDbg_host (d : Debug) (s : State) : (setDbg d s).host = s.host := rfl
@[simp] theorem setDbg_pins (d : Debug) (s : State) : (setDbg d s).pins = s.pins := rfl
@[simp] theorem setDbg_store (d : Debug) (s : State) : (setDbg d s).store = s.store := rfl
@[simp] theorem setDbg_snap (d : Debug) (s : State) : (setDbg d s).snap = s.snap := rfl
@[simp] theorem setDbg_freeCtr (d : Debug) (s : State) : (setDbg d s).freeCtr = s.freeCtr := rfl

end Sys2Proof.Machine
end

