-- ==== Sys2Proof/Tests/Slice0.lean ====
section
/-! SUPPORT. Tests: ill-formed commands are refused by the well-formedness check; worked examples of the spec; and, for each statement with hypotheses, states and operands
that meet them together. -/

namespace Sys2Proof.Tests

set_option Elab.async false

open Sys2Proof Sys2Proof.Machine

/-! ### Ill-formed commands -/

/-- A packet of opcode o with 40 B of parameters and a payload of whole units. -/
def pk (o len : Nat) (param payload : List Byte) (tgt : W32 := 0) (fire : CtWord := 0) (flags : BitVec 16 := 0) : Packet :=
  { opc := o, flags, len, rsv := 0, seq := 7, tgt, fire, param := (param ++ List.replicate 40 0).take 40, payload, queue := 0, origin := 0 }

theorem test_wf_host : (Instr.getCert 2).wf = false ∧ (Instr.getCert 1).wf = true := by decide
theorem test_wf_access : (Instr.jobSeedWrite { port := 2, job := false } 0).wf = false := by decide
theorem test_wf_queue : (Instr.replyWrite 64 .ok).wf = false ∧ (Instr.replyWrite 63 .ok).wf = true := by decide
theorem test_wf_offset : (Instr.registerWrite { port := 0, job := false } 2 false 0).wf = false := by decide
theorem test_wf_slots : (Instr.commandFetch 0 (some [])).wf = false := by decide
theorem test_wf_aperture : (Instr.apertureRead 0 (2 ^ 36) 1 .none).wf = false := by decide
theorem test_wf_apertureWrite : (Instr.apertureWrite 0 (2 ^ 36) [0] .none).wf = false := by decide
theorem test_wf_region : (Instr.regionWrite { port := 0, job := false } 64 0).wf = false := by decide
theorem test_wf_packet_param : (Instr.nop { pk 1 0 [] [] with param := [] }).wf = false := by decide
theorem test_wf_packet_payload : (Instr.nop (pk 1 1 [] [])).wf = false ∧ (Instr.nop (pk 1 0 [] [])).wf = true := by decide
theorem test_wf_packet_queue : (Instr.nop { pk 1 0 [] [] with queue := 64 }).wf = false := by decide
theorem test_wf_packet_origin : (Instr.nop { pk 1 0 [] [] with origin := 2 }).wf = false := by decide
theorem test_wf_loan : (Instr.loanRevokeEffect (2 ^ 32)).wf = false := by decide
theorem test_wf_partition : (Instr.playStart 2048 0).wf = false ∧ (Instr.playStart 0 6).wf = false ∧ (Instr.playStart 0 5).wf = true := by decide
theorem test_wf_tile : (Instr.kset 2048).wf = false ∧ (Instr.kset 2047).wf = true := by decide
theorem test_wf_code : (Instr.moveCompletion 0 9 0).wf = false := by decide
theorem test_wf_source : (Instr.remoteTieArrival (.queue 0 9) 0 .ok).wf = false := by decide
theorem test_wf_field : (Instr.passBeat 8).wf = false := by decide
theorem test_wf_capstan : (Instr.applyPass 32 .none none).wf = false := by decide
theorem test_wf_die : (Instr.stageCapstans [34]).wf = false := by decide
theorem test_wf_stack : (Instr.stackSplice 1024).wf = false := by decide
theorem test_wf_chan : (Instr.chMigrate 0 32 none).wf = false := by decide
theorem test_wf_bank : (Instr.rowRepair 0 0 16 0 false false).wf = false ∧ (Instr.rowRepair 0 0 0 32768 false false).wf = false ∧
    (Instr.stageFill [(0, 0, 16, 0)] []).wf = false ∧ (Instr.stageFill [] [(0, 32)]).wf = false := by decide
theorem test_wf_haw : (Instr.helloSend 24).wf = false := by decide
theorem test_wf_flit : (Instr.nak 0 { ack := 2 ^ 20, cvc := 0, cred := 0 }).wf = false ∧ (Instr.idleFlit 0 { ack := 0, cvc := 4, cred := 0 }).wf = false ∧
    (Instr.nak 0 { ack := 0, cvc := 0, cred := 8192 }).wf = false ∧ (Instr.flitData 0 9 .bad).wf = false ∧ (Instr.flitData 0 0 (.flit 0 [])).wf = false := by decide
theorem test_wf_lane : (Instr.laneSwap 0 9 0 .words).wf = false ∧ (Instr.laneSwap 0 0 0 (.ratio 0 0)).wf = false ∧
    (Instr.laneSwap 0 0 0 (.peer { ack := 0, cvc := 0, cred := 0 } (2 ^ 20))).wf = false ∧ (Instr.hawStall 0 4).wf = false := by decide
theorem test_wf_transit : (Instr.normPass).wf = true ∧ (Instr.replyWrite 0 (.overrun 16 0)).wf = false ∧ (Instr.replyWrite 0 (.hop 17 ⟨List.replicate 32 0, 0⟩)).wf = false ∧ (Instr.replyWrite 0 (.hop 16 ⟨[], 0⟩)).wf = false := by decide
theorem test_wf_link : (Instr.packetForward ⟨0, 16, 0, 0, 0, 0, 0, 0, 0, 0, 0, []⟩).wf = false := by decide
theorem test_wf_slot : (Instr.collectiveStart 4096).wf = false := by decide
theorem test_wf_barrier : (Instr.barrierArrive 65536).wf = false := by decide
theorem test_wf_member : (Instr.commitRetract 4096).wf = false ∧ (Instr.controlPacket (.ready 4096 0) .ok).wf = false := by decide
theorem test_wf_domain : (Instr.crossingTimeout 16 0).wf = false := by decide
theorem test_wf_sense : (Instr.powerTurnBoundary { input := 0, nonField := 0, temps := [], again := [], tiles := [], cap := 0, capAgain := 0, stretched := [] }).wf = false := by decide
theorem test_wf_row : (Instr.tileSplice 0 16 0 false).wf = false ∧ (Instr.tileSplice 0 0 17 false).wf = false := by decide
theorem test_wf_move : (Instr.move 0 (.rim 0 0 .bad)).wf = false ∧ (Instr.elem 0 (.parity ⟨[], 0⟩)).wf = false ∧ (Instr.moveReplay 0 0 (.parity (.near false (2 ^ 43)) ⟨List.replicate 32 0, 0⟩)).wf = false := by decide
theorem test_wf_rim : (Instr.capstanConfirm 0 (some ⟨8, 0, 0, .ok⟩)).wf = false := by decide
theorem test_wf_phase : (Instr.phaseFault 0 28).wf = false := by decide
theorem test_wf_pll : (Instr.pllSwitch 9).wf = false := by decide
theorem test_wf_stretch : (Instr.stretchEnd 0 63).wf = false := by decide
theorem test_wf_pass : (Instr.qualificationEnd 0 []).wf = false := by decide
theorem test_wf_window : (Instr.fwStageWrite 0 (2 ^ 24) [0]).wf = false := by decide
theorem test_wf_nonce : (Instr.attest 0 []).wf = false := by decide
theorem test_wf_wear : (Instr.tileWear 4096 0).wf = false ∧ (Instr.tileWear 17 0).wf = false ∧ (Instr.beatEdge .own [2304]).wf = false := by decide
theorem test_wf_latch : (Instr.readLatch { port := 0, job := false } (2 ^ 26) false).wf = false := by decide
theorem test_wf_sensor : (Instr.getSensorReading 65536).wf = false := by decide
theorem test_wf_thermal : (Instr.nsThermal 32 true (List.replicate 16 0) (List.replicate 16 0)).wf = false ∧ (Instr.nsThermal 1023 false [] []).wf = false := by decide
theorem test_wf_leaf : (Instr.leaf { slot := 0, row := 0, seg := 0, step := 0, member := 4096, data := [] } .ok).wf = false ∧
    (Instr.contribution { entry := 0, row := 0, seg := 512, step := 0, src := 0, data := [] } .ok).wf = false := by decide
theorem test_wf_xchg : (Instr.fetch { xid := 0, expert := 0, row := 0, member := 4096, tile := 0, step := 0 } .ok).wf = false := by decide

/-! ### The spec's worked examples -/

/-- 00_scope: 18204:0512+0x8000 is the CT word 0x0000_011C_7200_8000. -/
theorem test_ctWord : ctTurn 0x0000011C72008000 = 18204 ∧ ctBeat 0x0000011C72008000 = 512 ∧ (0x0000011C72008000 : CtWord).toNat % 65536 = 0x8000 := by decide
/-- 01, 17: logical tile F3, row 5, column 12 is 0x35C; its store and its physical ID; in row 9 of F6 spliced at physical column 3, columns 3 and 15 move to
0xD24 and 0xD30. -/
theorem test_tileId : mkTile 3 5 12 = 0x35C ∧ tileAddr 0x35C 0 = 0x02001AE000000 ∧ physTile State.reset 0x35C = 0x6AC ∧
    physTile { State.reset with rel := { splices := [(6 * 16 + 9, 3)] } } (mkTile 6 9 3) = 0xD24 ∧
    physTile { State.reset with rel := { splices := [(6 * 16 + 9, 3)] } } (mkTile 6 9 15) = 0xD30 := by decide
/-- 03: spans, fills and occupancies. -/
theorem test_spans : rampSpan 110592 + 8 = 110654 ∧ fillCycles 2048 2048 = 296 ∧ rampSpan 30 = 80 ∧ occupancyRamp 1024 1024 30 = 231 ∧
    occupancyFlat 1024 1024 30 = 181 ∧ occupancyFlat 128 128 768 = 793 ∧ occupancyRamp 2048 2048 12288 = 12637 ∧ loadCycles 2048 true = 146 ∧
    seedSpacing 2048 2048 = 314 ∧ zeroFillExtra 232 768 128 128 = 0 := by decide +kernel
/-- 05: a cell's partial sum 2^24 and 16 products of 0.5 give 0x4B80_0004. -/
theorem test_cell : cellSum 0x4B800000 (List.replicate 16 ((e4m3.decode 0x38).mul (e4m3.decode 0x30))) = 0x4B800004 := by decide +kernel
/-- 05: 3.3 in unscaled E4M3 under RNE is 0x45. -/
theorem test_e4m3 : (e4m3.convert .rne 0 (v32 0x40533333)).1 = 0x45 := by decide +kernel
/-- 05: square-scaled E4M3 with AMAX 1000.0: margin 0 saturates to 0x7E, margin 1 gives 0x78; 0.01 gives 0x01 and 0x03. -/
theorem test_square : scale32 (scaleOfAmax 7 0x447A0000 0) = 0x40000000 ∧ scale32 (scaleOfAmax 7 0x447A0000 1) = 0x40800000 ∧
    (e4m3.convert .rne 1 (v32 0x447A0000)).1 = 0x7E ∧ (e4m3.convert .rne 2 (v32 0x447A0000)).1 = 0x78 ∧ (e4m3.convert .rne 2 (v32 0x3C23D70A)).1 = 0x01 ∧
    (e4m3.convert .rne 1 (v32 0x3C23D70A)).1 = 0x03 := by decide +kernel
/-- 05: an MXFP4 block with amax 5.0: scale byte 0x7F, and 2.625, -0.1875, 5.0 give 0x5, 0x8, 0x6. -/
theorem test_mxfp4 : (convBlock 13 0 false (fun _ => 0) 0 (List.map v32 ([0x40280000, 0xBE400000, 0x40A00000] ++ List.replicate 29 0)) {}).1 = 0x7F ∧
    (convBlock 13 0 false (fun _ => 0) 0 (List.map v32 ([0x40280000, 0xBE400000, 0x40A00000] ++ List.replicate 29 0)) {}).2.1.take 3 = [5, 8, 6] := by
  decide +kernel
/-- 05: 0x3F80_0123 to BF16 under stochastic rounding, with dice 0x00F0_0000 and 0x8000_0000. -/
theorem test_sr : (bf16.convert (.sr 0x00F00000) 0 (v32 0x3F800123)).1 = 0x3F81 ∧ (bf16.convert (.sr 0x80000000) 0 (v32 0x3F800123)).1 = 0x3F80 := by
  decide +kernel
/-- 06: the fixed tree over 2^24, 1, 1, 1, 1 gives 0x4B80_0002. -/
theorem test_tree : tree 0 add32 [0x4B800000, 0x3F800000, 0x3F800000, 0x3F800000, 0x3F800000] = 0x4B800002 := by decide +kernel
/-- 07: the worked STREAM word, from its four 64-bit words. -/
def streamWord : MoveWord := 0x0000000000007000#64 ++ 0x00001E00D0001000#64 ++ 0x0000242E80000780#64 ++ 0x00000C10000A0012#64
theorem test_streamWord : opOf streamWord = 0x12 ∧ wf streamWord 17 15 = 5 ∧ wf streamWord 32 32 = 0xC10 ∧ wf streamWord 64 25 = 1920 ∧
    wf streamWord 95 2 = 1 ∧ wf streamWord 97 4 = 7 ∧ wf streamWord 101 4 = 1 ∧ wb streamWord 106 = true ∧ wf streamWord 109 2 = 1 ∧
    wf streamWord 128 16 = 0x1000 ∧ wf streamWord 144 16 = 0xD000 ∧ wf streamWord 160 16 = 0x1E00 ∧ wf streamWord 192 16 = 0x7000 ∧
    encCommon streamWord = true ∧ encStream streamWord = true ∧ queueOf streamWord = some 1 := by decide +kernel
/-- 10: the worked near-tier address of a MODULE-spread entry. -/
theorem test_interleave : nearDecode { chbase := 0x400, len := 1, valid := true, spread := true, base := 0x100 } 0x0000101234580 =
    ({ stack := 0x1A3, chan := 4, bank := 1, row := 64 }, 525184) := by decide +kernel
/-- 11: one parameter through apply. -/
theorem test_apply : applyElement { uc := 0x38800000, ob := 0x3E000000, d := 0x3F7FFC00, ne := 0xBA800000, beta := 0x3F600000, nesterov := false }
    0x40400000 0x39800000 0x3F000000 = (0x39780000, 0x3EFFFBF8) := by decide +kernel
/-- 12: the comparison of row 40 passes, and fails with the flipped bit. -/
theorem test_tally : tallyFails 7 0x41408000 0x41400000 0x42200000 = some false ∧ tallyFails 7 0x41408000 0x41A00000 0x42400000 = some true := by
  decide +kernel
/-- 15: the generous grant lowers F7 to F3 by one point; its demand is 27,886 W. The grant below OP0 gives 435 pass beats. -/
theorem test_plan : (planOps 26000 7700 0 (List.replicate 8 6)).op = [6, 6, 6, 5, 5, 5, 5, 5] ∧ toInput (7700 + 8 * 2192) = 27886 ∧
    planOps 12000 7700 0 (List.replicate 8 6) = { op := List.replicate 8 0, pass := 435, floor := false } := by decide +kernel
/-- 15: with p = 435, beat 0 of F0 is a working beat and beat 2 is a pass beat; F1's pattern is shifted by 128 beats. -/
theorem test_passBeat : isPassBeat 0 0 435 = false ∧ isPassBeat 2 0 435 = true ∧ isPassBeat 898 1 435 = true := by decide +kernel

/-! ### States for the statements' hypotheses -/

/-- The module past READY, with CT running. -/
def up : State := { State.reset with
  bu := { stage := 10, state := .done }
  cad := { state := .locked, ct := 0x0000011C72008000, edge := 0x0000011C72000000 } }

/-- A queue of 256 slots that runs, on port 0 in the privileged view. -/
def runQ : Queue := { enable := true }

def upQ : State := { up with host := { queues := [(0, runQ)] } }
def priv : HostAccess := { port := 0, job := false }
def jobA : HostAccess := { port := 1, job := true }

theorem serves_iff (s : State) : Serves s ↔ stageDone s 2 = true ∧ s.rel.ccFailed = false ∧ xingClosed s 14 12 = false :=
  ⟨fun h => ⟨h.1, h.2, h.3⟩, fun h => ⟨h.1, h.2.1, h.2.2⟩⟩

theorem wit_serves : Serves up ∧ PrivServed priv up := by
  simp only [serves_iff, PrivServed]; decide +kernel
theorem wit_admitted_nop : Admitted 0x0001 (pk 1 0 [] []) up := by
  simp only [Admitted, serves_iff]; decide +kernel

/-! 00, 02 -/

theorem wit_StepRunsFrontCommand : ({ up with pending := [.leak] } : State).pending = [.leak] ∧ up.pending = [] := by decide
theorem wit_StepKeepsMemoryForm : Machine.Inv State.reset ∧ Machine.Inv { up with mem := [(5, 1), (9, 255)] } := by unfold Machine.Inv; decide
theorem wit_StepKeepsMemoryForm_step : (match step { up with pending := [.hawStall 0 0] } with
    | .next _ => true
    | _ => false) = true := by decide +kernel
theorem wit_LockedBeatEdge : up.cad.state = .locked ∧ inWindow { up.cad with periodPs := 19531250 } 2441406 = true ∧
    lookupD 0 5 up.xing.toggles < 15 ∧ 15 ≤ lookupD 0 5 ({ up with xing := { toggles := [(5, 15)] } } : State).xing.toggles := by decide
theorem wit_LockedBeatEdge_stuck : (∀ k ∈ stuckNow up [5], lookupD 0 k up.xing.toggles < 15) ∧ beatPulse 5 = true ∧ up.rel.ccFailed = false ∧
    xingClosed up 12 8 = false ∧ Calm up := by unfold Calm; decide +kernel
theorem wit_Mirrored : Mirrored { up with rel := { standby := true, receiver := up.cad } } ∧ Mirrored State.reset := by
  refine ⟨⟨by decide, fun _ => by decide +kernel⟩, ⟨by decide, fun _ => by decide +kernel⟩⟩
theorem wit_BeatEdge_inBeat : CtInBeat up.cad := by
  constructor <;> simp [up, CadState.runs, lastCt]
theorem wit_BeatEdge : ctRuns up = true ∧ up.cad.ct.toNat < 2 ^ 62 ∧ up.cad.missing < 2 ^ 20 := by decide
theorem wit_BeatEdge_next : (match exec (.beatEdge .own []) { up with cad := { up.cad with state := .internal } } with
    | .next t => decide (up.cad.ct.toNat ≤ t.cad.ct.toNat)
    | _ => false) = true := by decide +kernel
/-- A stamp of turn 18204 from the 50 Hz source. -/
def stamp : W64 := let w : W64 := 0xA7 + BitVec.ofNat 64 (18204 * 2 ^ 8 + 2 ^ 46); w + BitVec.ofNat 64 ((stampCrc w).toNat * 2 ^ 56)
/-- The receiver with the first 63 bits of a stamp. -/
def stampBits (broken : Bool) : State := { up with cad := { up.cad with rx := .bits ((List.range 63).map stamp.getLsbD) broken } }
theorem wit_LockedStamp : (stampBits false).cad.state = .locked ∧ (stampBits false).cad.taken = false ∧ stampValid stamp = true ∧ stampTurn stamp = ctTurn up.cad.ct ∧
    stampWord ((List.range 63).map stamp.getLsbD ++ [symbolOf (!stamp.getLsbD 63) (stamp.getLsbD 63) == .one]) = stamp ∧
    symbolOf (!stamp.getLsbD 63) (stamp.getLsbD 63) ≠ .idle ∧ stampValid 0 = false ∧ lastBit up.cad = false := by decide +kernel
theorem wit_CadenceLoss : (2 ≤ ({ up with cad := { up.cad with missing := 2, badStamps := 2 } } : State).cad.missing) ∧ periodOk false 18599999 = false ∧
    periodOk false 18600000 = true ∧ periodOk true 17130001 = false ∧ up.cad.missing = 0 ∧ up.cad.edge.toNat < 2 ^ 62 := by decide
theorem wit_CadHoldover : ({ up with cad := { state := .holdover, holdBeats := 262144 } } : State).cad.state = .holdover := by decide
theorem wit_CadSrc : up.rel.ccFailed = false ∧ priv.job = false ∧ stageDone up 2 = true ∧ up.host.privOpen = true ∧
    ({ up with host := { privOpen := false } } : State).host.privOpen = false ∧ ({ up with cad := { state := .internal } } : State).cad.state = .internal := by decide
/-- In HOLDOVER after a CAD_REJECT. -/
def rejected : State := { up with cad := { state := .holdover, rejected := true, rct := some 5 } }
theorem wit_Resync : rejected.cad.rct = some 5 ∧ rejected.cad.rejected = true ∧ resyncBusy rejected = false ∧
    resyncBusy { rejected with sched := [{ fire := 0, cls := 2, order := 0, packet := pk 0x504 0 [] [] }] } = true := by decide
theorem wit_Crossing : ({ up with xing := { timeout := true } } : State).xing.timeout = true ∧ up.xing.timeout = false ∧ up.xing.overrun = false := by decide

/-! 19 -/

theorem wit_Seed : Serves up ∧ seedBusy up = false := by
  simp only [serves_iff]; decide +kernel
theorem wit_FrozenPrivLock : PrivServed priv { up with host := { freeze := true } } ∧ ({ up with host := { freeze := true } } : State).host.freeze = true := by
  simp only [PrivServed, serves_iff]; decide +kernel
theorem wit_RegisterWrite_job : Serves up ∧ jobA.job = true ∧ (0x50 : Nat) < 0x800000 ∧ (regInfo 0x50).map (fun r => decide (r.view ≠ 2)) = some true ∧ 0x50 % 8 = 0 ∧ 0x54 % 8 ≠ 0 := by
  simp only [serves_iff]; decide +kernel
theorem wit_RegisterWrite_held : ({ up with rel := { ccFailed := true } } : State).rel.ccFailed = true ∧ up.host.heldWrites.length < 256 := by decide
theorem wit_SqDb : Serves upQ ∧ sqSlots runQ = 128 ∧ (let q := hostQueue upQ 0; 15 < sqSlots q ∧ ahead (sqSlots q) q.sqhead q.tail ≤ ahead (sqSlots q) q.sqhead 15 ∧ 15 ≠ q.tail) ∧
    sqSlots (hostQueue upQ 0) ≤ 128 := by
  simp only [serves_iff]; decide +kernel
theorem wit_CqDb : (let q := hostQueue { up with host := { queues := [(0, { runQ with cqused := 3, cqtail := 3 })] } } 0
    3 < cqEntries q ∧ ahead (cqEntries q) q.cqhead 3 ≤ q.cqused) := by decide +kernel
theorem wit_Db_job : jobA.job = true ∧ (hostQueue upQ 0).view = false ∧ (hostQueue { up with host := { queues := [(0, { runQ with view := true })] } } 0).view = true := by
  decide
theorem wit_QueueEnable : PrivServed priv upQ ∧ (hostQueue up 0).enable = false ∧ (hostQueue upQ 0).enable = true := by
  simp only [PrivServed, serves_iff]; decide +kernel
theorem wit_WideRegisters : PrivServed priv up ∧ lowerHalf 0x520 = true ∧ lowerHalf 0x800 = true ∧ lowerHalf 0xBF0 = true ∧ lowerHalf 0xC00 = false := by
  simp only [PrivServed, serves_iff]; decide +kernel
theorem wit_ReadSeed : (match exec (.readLatch priv 0x110 true) up with
    | .next t => t.host.readData == [0x00, 0x80, 0x00, 0x72, 0x1C, 0x01, 0x00, 0x00]
    | _ => false) = true := by decide +kernel

/-! 18 -/

theorem wit_Dispatcher_refuse : Serves up ∧ checkPacket up { pk 1 0 [] [] with rsv := 1 } = some Status.header := by
  simp only [serves_iff]; decide +kernel
theorem wit_Dispatcher_fire :
    checkPacket up (pk 1 0 [] [] 0 5) = none ∧ (5 : CtWord) ≠ 0 ∧ ctRuns { up with cad := {} } = false ∧ ctRuns up = true ∧ (5 : Nat) < up.cad.ct.toNat := by decide +kernel
theorem wit_Dispatcher_ahead : checkPacket up (pk 1 0 [] [] 0 0x0000011C72010000) = none ∧ up.cad.ct.toNat < 0x0000011C72010000 ∧
    0x0000011C72010000 ≤ up.cad.ct.toNat + fireReach ∧ pendingEvents up < 4096 := by decide +kernel
theorem wit_Dispatcher_range : checkPacket up (pk 1 0 [] [] 0 0xFFFFFFFFFFFFFFFF) = none ∧ up.cad.ct.toNat + fireReach < 2 ^ 64 - 1 := by decide +kernel
theorem wit_Dispatcher_early : stageDone State.reset 2 = false := by decide
theorem wit_PacketChecks : 0x0003 ∉ opcodes ∧ 0x0A01 ∈ opcodes ∧ 0x0A01 ∈ privOnly ∧ (hostQueue { up with host := { queues := [(0, { runQ with view := true })] } } 0).view = true ∧
    (hostQueue up 0).view = false ∧ isReady { up with bu := { stage := 5 } } = false ∧ earlyOp { up with bu := { stage := 5 } } 0x0301 = false ∧ isReady up = true := by
  decide +kernel

/-- An event and a fault record. -/
def ev0 : Event := { ct := 1, seq := 0, code := Ev.cadHoldover, origin := 3, unit := 0, play := 0, step := 0, detail := [] }
def rec0 : FaultRec := { ct := 1, seq := 0, cls := 1, action := 0, result := 0, unit := 0, logical := 0, step := 0, play := 0, detail := [] }
/-- Host window 0, 128 B aligned. -/
def hostDst : Nat := hostWin0 + 4096
theorem wit_EventGet : Admitted 0x0002 (pk 2 0 (toLE 8 0 ++ toLE 8 1 ++ toLE 8 hostDst) []) { up with host := { events := [ev0] } } ∧
    item (pk 2 0 (toLE 8 0 ++ toLE 8 1 ++ toLE 8 hostDst) []).param 8 4 = 1 ∧ destOk { up with host := { events := [ev0] } } hostDst 64 true = true ∧
    (({ up with host := { events := [ev0] } } : State).host.events.find? fun x => x.seq == 0) = some ev0 := by
  simp only [Admitted, serves_iff]; decide +kernel
theorem wit_FaultGet : Admitted 0x0901 (pk 0x901 0 (toLE 4 0 ++ toLE 4 1 ++ toLE 8 hostDst) []) { up with store := { ledger := [rec0] } } ∧
    item (pk 0x901 0 (toLE 4 0 ++ toLE 4 1 ++ toLE 8 hostDst) []).param 4 4 = 1 ∧ destOk { up with store := { ledger := [rec0] } } hostDst 64 true = true ∧
    (({ up with store := { ledger := [rec0] } } : State).store.ledger.find? fun x => x.seq == 0) = some rec0 := by
  simp only [Admitted, serves_iff]; decide +kernel
theorem wit_TelemSnap : Admitted 0x0801 (pk 0x801 0 (toLE 8 hostDst ++ toLE 4 249) []) up ∧ item (pk 0x801 0 (toLE 8 hostDst ++ toLE 4 249) []).param 8 4 ≤ 249 ∧
    destOk up hostDst (128 * 249) true = true ∧ destOk up (hostDst + 1) 128 true = false := by
  simp only [Admitted, serves_iff]; decide +kernel
/-- A queue with one announced command. -/
def annQ (tail : Nat) : State := { up with host := { queues := [(0, { runQ with tail })], doorbells := [{ queue := 0, port := 0, tail }] } }
theorem wit_CommandFetch : Serves (annQ 1) ∧ nextDoorbell (annQ 1) = some { queue := 0, port := 0, tail := 1 } ∧ ahead (sqSlots (hostQueue (annQ 1) 0)) 0 1 = 1 ∧ nextDoorbell up = none ∧
    1 + item (List.replicate 64 0) 4 2 = 1 ∧ 1 < 1 + item (List.replicate 4 0 ++ [1] ++ List.replicate 59 0) 4 2 := by
  simp only [serves_iff]; decide +kernel
theorem wit_CommandFetch_more : ahead (sqSlots (hostQueue (annQ 2) 0)) (hostQueue (annQ 2) 0).sqhead 2 = 2 ∧ nextDoorbell (annQ 2) = some { queue := 0, port := 0, tail := 2 } := by
  decide +kernel
def rep (q : Nat) : Reply := { queue := q, seq := 7, status := 0, detail := 0, ct := 1, opc := 1, origin := 0, notify := true }
theorem wit_ReplyWrite : ({ upQ with host := { upQ.host with replies := [rep 0] } } : State).rel.ccFailed = false ∧
    (({ upQ with host := { upQ.host with replies := [rep 0] } } : State).host.replies.find? fun r => r.queue == 0 || r.queue == 0 + 64) = some (rep 0) ∧
    (({ upQ with host := { upQ.host with replies := [rep 64] } } : State).host.replies.find? fun r => r.queue == 0 || r.queue == 0 + 64) = some (rep 64) := by decide
theorem wit_ReplyWrite_irq : Calm up ∧ ¬Calm { up with xing := { lag := [toggleOf 12 14] } } ∧ up.xing.irqs.length < 15 ∧ (rep 0).notify = true ∧ (getPcie { up with host := { ports := [(0, { perst := false })] } } 0).perst = false ∧
    (getPcie upQ 0).masked 0 = false ∧ (getPcie { up with host := { ports := [(0, { perst := false, msix := [(12, 1)] })] } } 0).masked 0 = true := by unfold Calm; decide +kernel
theorem test_replyBytes : ((rep 0).bytes true 0).length = 32 := by decide +kernel
def sch (f : CtWord) (n : Nat) : Sched := { fire := f, cls := 3, order := n, packet := pk 1 0 [] [] 0 f }
theorem wit_ScheduledEvent : firstEvent up = none ∧ (firstEvent { up with sched := [sch 9 0, sch 5 1] }).map (fun x => x.1) = some (5, 3, 1) ∧ stepOpcode (sch 5 1).packet.opc = false ∧
    (sch 5 1).packet.opc ≠ 0x0801 ∧ inTurn (5, 3, 1) { up with sched := [sch 9 0, sch 5 1] } = true ∧ (5 : Nat) ≤ up.cad.ct.toNat ∧
    inTurn (0x0000011C7200C000, 3, 0) { up with sched := [sch 0x0000011C7200C000 0] } = true ∧ up.cad.ct.toNat < 0x0000011C7200C000 ∧
    0x0000011C7200C000 ≤ lastCt up.cad ∧ inTurn (0x0000011D00000000, 3, 0) { up with sched := [sch 0x0000011D00000000 0] } = false ∧
    lastCt up.cad < 0x0000011C72010000 := by
  decide +kernel
/-- A port whose aperture shows tile store. -/
def aper : State := { up with host := { ports := [(0, { aper := { base := BitVec.ofNat 20 (tileBase / 2 ^ 30), en := true, writeEn := true } })] } }
theorem wit_Aperture : aperEarly aper (aperAddr aper 0 0) = false ∧ aperPermits aper 0 false (aperAddr aper 0 0) 8 = true ∧ aperPermits aper 0 true (aperAddr aper 0 0) 8 = true ∧
    anyUnit (aperAddr aper 0 0) 8 (isRetired aper) = false ∧ anyUnit (aperAddr aper 0 0) 8 (isPoisoned aper) = false ∧ spaceOf (aperAddr aper 0 0) = .tile ∧
    aperEarly State.reset 0 = true ∧ aperPermits up 0 false 0 8 = false := by decide +kernel
/-- The aperture over stack 0's first granule. -/
def aperN (x : State) : State := { x with
  regions := [(0, { valid := true, len := 1 })], host := { x.host with ports := [(0, { aper := { en := true, writeEn := true } })] } }
theorem wit_Aperture_near : aperPermits (aperN up) 0 true (aperAddr (aperN up) 0 0) 8 = true ∧ spaceOf (aperAddr (aperN up) 0 0) = .near ∧
    aperWaits (aperN up) 0 8 = false ∧ aperWaits (aperN { up with near := { units := [(0, { thermal := .quiesced })] } }) 0 8 = true ∧
    isRetired (aperN { up with near := { retired := [⟨0, 0, 0, 0⟩] } }) 0 = true ∧
    anyUnit 0 8 (isPoisoned (aperN { up with near := { poisoned := [(⟨0, 0, 0, 0⟩, 0)] } })) = true ∧
    xingClosed { up with xing := { closed := [(8, 14)] } } 14 8 = true ∧ xingClosed up 14 8 = false ∧ xingClosed up 12 14 = false := by decide +kernel
theorem wit_Aperture_inv : Machine.Inv aper := by
  simp only [Machine.Inv]; decide
theorem wit_Aperture_faults : faultIn (aperAddr aper 0 0) 8 .none = false ∧ faultIn (aperAddr aper 0 0) 8 (.overrun 14 8) = true ∧
    faultIn (aperAddr aper 0 0) 8 (.parity (.store 0) ⟨List.replicate 32 0, 0⟩) = true ∧ aperWaits (accessMeets 0 (aperAddr aper 0 0) 8 .none aper) (aperAddr aper 0 0) 8 = false ∧
    aperWaits (accessMeets 0 0 8 .none (aperN { up with near := { units := [(0, { thermal := .quiesced })] } })) 0 8 = true := by decide +kernel
theorem wit_ServeAper : ({ up with host := { aperWrites := [(0, 0, [1])] } } : State).host.aperWrites = [(0, 0, [1])] ∧ rangeWaits (aperN up) 0 1 = false ∧
    rangeWaits (aperN { up with near := { units := [(0, { thermal := .quiesced })] } }) 0 1 = true := by decide +kernel

/-! 17, 20 -/

def dark : State := { State.reset with pins := { fell := true, pwrOk := false, powered := false } }
theorem wit_PowerInput : dark.pins.powered = false ∧ dark.pins.fell = true ∧ dark.pins.leakLatched = false ∧
    ({ dark with pins := { dark.pins with precharging := true } } : State).pins.precharging = true ∧ (-501 : Int) < -500 ∧ (-500 : Int) ≤ 39999 := by decide
/-- Voltages and currents on either side of the thresholds, wherever they lie in their ranges. -/
theorem wit_Thresholds : 43000 < underMv ∧ restartMv ≤ 46000 ∧ underMv ≤ 46000 ∧ 46000 ≤ overMv ∧ overMv < 60000 ∧ tripAmps < 641 ∧ ¬tripAmps < 600 := by
  unfold underMv restartMv overMv tripAmps; omega
/-- A module whose power input is good. -/
def lit : State := { State.reset with pins := { powered := true, pwrOk := true } }
theorem wit_PowerResets : lit.pins.powered = true ∧ lit.pins.pwrOk = true ∧ lit.bu.stage = 0 ∧ lit.bu.state = .wait ∧
    ({ lit with pins := { lit.pins with modRst := false } } : State).pins.modRst = false ∧
    ({ lit with pins := { lit.pins with settled := true } } : State).pins.settled = true ∧ ({ lit with pins := { lit.pins with settled := false } } : State).pins.settled = false ∧ dark.pins.pwrOk = false := by decide
theorem wit_LeakLatches : lit.pins.powered = true ∧ dark.pins.powered = false ∧ ({ dark with pins := { precharging := true } } : State).pins.precharging = true ∧ ({ dark with pins := { leakLatched := true } } : State).pins.leakLatched = true ∧ dark.pins.precharging = false := by decide
/-- A leak shuts a powered module down and latches. -/
theorem test_leak : (match exec .leak lit with
    | .next t => !t.pins.powered && t.pins.leakLatched && t.fields.isEmpty
    | _ => false) = true := by decide +kernel
/-- An input a hundred millivolts below zero opens the latch of a module that is off. -/
theorem test_fall : (match exec (.precharge (-100)) { dark with pins := { leakLatched := true, fell := false, pwrOk := false, powered := false } } with
    | .next t => !t.pins.leakLatched && t.pins.fell
    | _ => false) = true := by
  have h : ¬(overMv : Int) < -100 := by unfold overMv; omega
  have k : (-100 : Int) < (underMv : Int) := by unfold underMv; omega
  simp [exec, execPrecharge, shutDown, dark, h, k]
theorem wit_PortResets : ({ lit with bu := { state := .done } } : State).bu.stage = 0 ∧ stageDone up 1 = true ∧ up.bu.stage ≠ 0 ∧ (hostQueue upQ 0).port = false ∧
    (hostQueue upQ 0).enable = true := by decide
/-- Stage n is running. -/
def atStage (n : Nat) : State := { lit with bu := { stage := n, state := .running } }
theorem wit_StagesOpen : Admitted 0x0101 (pk 0x101 0 [5] []) { lit with bu := { stage := 4, state := .done } } ∧ item (pk 0x101 0 [5] []).param 0 1 = 5 ∧
    Admitted 0x0101 (pk 0x101 0 [6] []) { lit with bu := { stage := 4, state := .done } } ∧ Admitted 0x0101 (pk 0x101 0 [5] []) { lit with bu := { stage := 5, state := .failed } } := by
  simp only [Admitted, serves_iff]; decide +kernel
theorem wit_StageWindow : (atStage 6).pins.pwrOk = true ∧ (getPcie { atStage 6 with host := { ports := [(0, { perst := false, trained := true })] } } 0).trained = true ∧
    (getPcie lit 0).trained = false ∧ (atStage 6).bu.state = .running ∧ (atStage 6).bu.windowBusy = false ∧ lit.bu.state ≠ .running ∧
    ({ lit with bu := { stage := 6, state := .running, windowBusy := true } } : State).bu.windowBusy = true := by decide
theorem wit_ImageStages : working (atStage 2) 2 = true ∧ working (atStage 6) 6 = true ∧ working (atStage 7) 7 = true ∧ working (atStage 9) 9 = true ∧
    imageFault (atStage 2) 1 = some Status.imageKind := by decide +kernel
theorem wit_Inventory : working (atStage 3) 3 = true ∧ working (atStage 4) 4 = true ∧ working (atStage 5) 5 = true ∧
    groupDead { atStage 3 with cap := { (atStage 3).cap with capstans := [(0, { die := 0, failed := true }), (1, { die := 1, failed := true })] } } = true ∧
    groupDead (atStage 3) = false ∧ meshDead (atStage 3) = false ∧ meshDead { atStage 3 with store := { badPlls := [16, 17] } } = true := by decide +kernel
theorem wit_LaterStages : working { atStage 7 with bu := { (atStage 7).bu with round := 1, chunks := 2 } } 7 = true ∧ 9 ∈ goodTiles (atStage 7) ∧
    working (atStage 8) 8 = true ∧ working { atStage 7 with bu := { (atStage 7).bu with round := 4, chunks := 2, lacks := [(9, [1])] } } 7 = true ∧ (atStage 8).cad.state ≠ .locked ∧ (atStage 8).cad.src = 0 ∧ up.cad.state = .locked ∧ working (atStage 10) 10 = true := by decide +kernel
theorem wit_StageComplete : ({ lit with bu := { stage := 3, state := .running, result := some { state := .done, code := 0, cause := 0 } } } : State).bu.result =
    some { state := .done, code := 0, cause := 0 } ∧ (atStage 0).bu.stage = 0 ∧ (atStage 1).bu.state = .running ∧ (atStage 1).rel.ccFailed = false ∧ (∀ x ∈ (atStage 1).host.ports, x.2.perst = true) ∧
    (∃ x ∈ ({ atStage 1 with host := { ports := [(0, { perst := false })] } } : State).host.ports, x.2.perst = false) ∧ portSettled (atStage 9) 3 = true ∧
    portSettled { atStage 9 with store := { plan := { entries := [(3, { expected := true })] } }, ports := [(3, { state := .training })] } 3 = false := by decide +kernel
/-- Stage 10 ends DONE once its work is done. -/
theorem test_stage10 : (match exec .stageReady (atStage 10) with
    | .next t => (match exec (.stageComplete 3 true true) t with
      | .next u => u.bu.state == .done && isReady u && u.watch.stallEn
      | _ => false)
    | _ => false) = true := by decide +kernel

/-! 15 -/

def powered (p : Power) : State := { up with power := p }
theorem wit_Stretch : (getField { up with fields := [(2, { stretching := true })] } 2).stretching = true ∧ (40 : Nat) < 41 := by decide
theorem wit_OpTransition : (getField { up with fields := [(0, { target := 3, railMv := opMv 3 - 10, clockMHz := opMHz 3 })] } 0).railMv < opMv 3 ∧
    opMHz 3 < opMHz 4 ∧ opMv 0 < opMv 7 := by decide
theorem wit_PlanFits : [5, 5, 5, 5, 5, 5, 5, 5].length = 8 ∧ (∀ x ∈ [5, 5, 5, 5, 5, 5, 5, 7], x ≤ 7) := by decide
/-- Beyond READY, where the boundary at the present CT is due. -/
def atBoundary : State := powered { next := some up.cad.ct, boundary := up.cad.ct - BitVec.ofNat 64 (2 ^ 26), plan := some { op := [0, 1, 2, 3, 4, 5, 6, 7], pref := [], pass := [0, 0, 0, 0, 0, 0, 0, 9], floor := false, limited := true } }
theorem wit_PowerTurn : ctRuns atBoundary = true ∧ dueBoundary atBoundary = some up.cad.ct ∧ atBoundary.cad.nextOffset = none ∧
    inTurn ((powerAt atBoundary).toNat, 0, 0) atBoundary = true ∧ atBoundary.power.next.isSome = true ∧
    atBoundary.power.plan.isSome = true ∧ atBoundary.rel.ccFailed = false ∧
    inTurn ((powerAt atBoundary).toNat, 0, 0) { atBoundary with sched := [{ fire := 5, cls := 3, order := 0, packet := pk 1 0 [] [] 0 5 }] } = false ∧
    (let s : State := { atBoundary with cad := { up.cad with nextOffset := some 512 }, fields := [(7, { stretching := true, stretchSeen := 5 })] }
     s.cad.nextOffset = some 512 ∧ (dueBoundary s).isSome = true ∧ (getField s 7).stretching = true ∧ ctRuns s = true ∧ inTurn ((powerAt s).toNat, 0, 0) s = true) := by decide +kernel
theorem wit_PowerMessages : mctpUp up = true ∧ ctRuns up = true ∧ ctRuns lit = false ∧ mctpUp { up with cad := {} } = true ∧ mctpUp lit = false := by decide
/-- A GRANT above the maximum for a past power turn is cut to 26,000 W and late. -/
theorem test_grant : (match exec (.grant 9 0 30000) up with
    | .next t => t.power.grants.map (fun g => g.watts) == [26000] && (t.host.mctp.take 4 == [0x81, 9, 3, 0])
    | _ => false) = true := by decide +kernel
theorem wit_PrefSet : Serves up ∧ checkPacket up (pk 0x701 0 (toLE 2 0x1234) []) = none ∧ checkPacket up (pk 0x701 0 [] [] 0 up.cad.ct) = none ∧
    up.cad.ct.toNat ≤ up.cad.ct.toNat + fireReach ∧ pendingEvents up < 4096 := by simp only [serves_iff]; decide +kernel
theorem wit_Grants : up.power.grants = [] ∧ up.power.default = true ∧ (powered { sinceGrant := 256 }).power.stale = false ∧
    256 ≤ (powered { sinceGrant := 256 }).power.sinceGrant ∧ (match exec (.powerTurnBoundary { nonField := 0, input := 0, temps := [], again := [], tiles := [], cap := 0, capAgain := 0, stretched := [] }) up with
      | .next t => t.power.default
      | _ => false) = true := by decide +kernel
theorem wit_PassBeats : (powered { next := some 0 }).power.next.isSome = true ∧ isPassBeat 1023 0 1 = true ∧ isPassBeat 0 0 1 = false := by decide +kernel

/-! 11 -/

/-- A trainable 1 × 128 BF16 entry of capstan 3. -/
def ent : Ledger := { cap := 3, group := 0, flags := 1, wfmt := 1, expect := 2, sid := 5, sbase := 0, rows := 1, cols := 128, row0 := 0, col0 := 0, dout := 128, din := 128, wbase := 0, wgrid := 1, tensor := 0 }
/-- A contribution to its only segment. -/
def con (step : W32) (row : Nat) : Contribution := { entry := 7, row, seg := 0, step, src := 4, data := List.replicate 128 0x3F80 }
def cap0 : Cap := { committed := 10, ledger := [(7, ent)] }
/-- That contribution stands in the mesh, at the front of its source. -/
def conS (c : Contribution) (k : Cap) : State := { up with cap := k, mesh := [(.engine 4, .contrib (9, 1) c)] }
def arm0 : Armed := { step := 11, u := 0x3F800000, stepStart := 0, tau := 0x3F800000, eps := 0, gap := 0, members := 2, w := 2, rts := 0, clip := true, veto := false, cp := up.cad.ct, queue := 0, seq := 1, origin := 0, notify := false }
def armS (a : Armed) : State := { up with cap := { cap0 with armed := some a } }
def winS (w : Window) : State := { up with cap := { cap0 with committed := 11, window := some w } }
def win0 : Window := { armed := { arm0 with cp := up.cad.ct - 64 * 65536 }, committed := true, outcomes := [0], aborts := [1] }

theorem wit_ContributionsOut : (meshTake (.contrib (0, 0) (con 10 0)) (conS (con 10 0) cap0)).isSome = true ∧ (10 : W32).toNat < (openStep (conS (con 10 0) cap0)).toNat ∧
    openStep (conS (con 11 0) cap0) = 11 ∧ (openStep (conS (con 12 0) cap0)).toNat < (12 : W32).toNat ∧ windowHolds (winS win0) = true ∧
    xingClosed (conS (con 10 0) cap0) 10 8 = false ∧ xingClosed { conS (con 10 0) cap0 with xing := { closed := [(8, 10)] } } 10 8 = true ∧
    meshTake (.contrib (0, 0) (con 10 0)) up = none := by decide +kernel
theorem wit_ContributionsRange : (meshTake (.contrib (0, 0) (con 11 1)) (conS (con 11 1) cap0)).isSome = true ∧ windowHolds (conS (con 11 1) cap0) = false ∧
    (getEntry (conS (con 11 1) cap0) 7).rows ≤ 1 ∧ (getEntry up 7).valid = false ∧ ent.cols ≤ 128 * 1 ∧ segFinal { ent with counts := [(segNo 0 0, 2)] } 0 0 = true := by decide +kernel
theorem wit_Contribution : (meshTake (.contrib (0, 0) (con 11 0)) (conS (con 11 0) cap0)).isSome = true ∧ windowHolds (conS (con 11 0) cap0) = false ∧ ent.valid = true ∧
    (0 : Nat) < ent.rows ∧ 128 * 0 < ent.cols ∧ segFinal ent 0 0 = false ∧ memWf (conS (con 11 0) cap0).mem = true := by decide +kernel
theorem test_contribution : (match exec (.contribution (con 11 0) .ok) (conS (con 11 0) cap0) with
    | .next t => lookupD 0 (segNo 0 0) (getEntry t 7).counts == 1 && t.mesh.isEmpty && rd32 t (ent.mAddr (altBank t) 0 127) == 0x3F800000
    | _ => false) = true := by decide +kernel
theorem wit_NormPass : (armS arm0).cap.armed = some arm0 ∧ lookup (armedSelf (armS arm0) arm0) arm0.p = none ∧ (validEntries up).all (fun x => entryFinal x.2) = true ∧
    (validEntries { up with cap := { cap0 with ledger := [(7, { ent with counts := [(segNo 0 0, 2)] })] } }).all (fun x => entryFinal x.2) = true := by decide +kernel
theorem wit_Reduction : haveAllP { arm0 with p := [(0, 0), (1, 0x4000000000000000)] } = true ∧ (armS arm0).cap.norm = none ∧ arm0.normDone = false := by decide +kernel
/-- An armed commit whose reduction is done, over one entry that is final. -/
def readyArm : Armed := { arm0 with normDone := true }
def readyS : State := { up with cap := { cap0 with armed := some readyArm, ledger := [(7, { ent with counts := [(segNo 0 0, 2)] })] } }
/-- A play on tile 3 whose COMBINE of exchange 6 runs. -/
def comb : Play := { image := 0, org := 3, shape := 5, id := 1, step := 1, fire := 0, deadline := 0xFFFFFFFFFFFFFFFF, queue := 0, seq := 7, origin := 0, notify := false, rerun := false, phase := 0,
                     order := 1, state := .running, seqs := [{ tile := 3, list := 1, count := 2, next := 1 }],
                     queues := [{ tile := 3, code := 8, moves := [{ word := BitVec.ofNat 256 (0x41 + 6 * 2 ^ 156), idx := 0, frame := {}, started := true }] }] }
theorem wit_ApplyPass : readyS.cap.armed = some readyArm ∧ applyReady readyS readyArm 3 = true ∧ passItem readyArm 3 readyS = some (.square 7 0) ∧
    (copyHeld readyS || squareWaits readyS (altBank readyS) (getEntry readyS 7) 0) = false ∧ passItem readyArm 4 readyS = none ∧
    applyReady readyS readyArm 4 = true ∧ applyReady { readyS with cap := { readyS.cap with capstans := [(3, { die := 3, lost := true })] } } readyArm 3 = false ∧
    passItem { readyArm with groups := [(0, { freeze := true })] } 3 { readyS with cap := { readyS.cap with ledger := [(7, { ent with snap := { settled := true } })] } } =
      some (.skip 7) ∧
    copyHeld { readyS with plays := [{ comb with bank := altBank readyS }] } = true := by decide +kernel
theorem wit_ApplyPseudocode : ent.cap < 32 ∧ ent.sbase + ent.units ≤ bankUnits ∧ memWf readyS.mem = true := by decide +kernel
theorem wit_CapstanConfirms : readyArm.vetoed = false ∧ 3 ∉ readyArm.confirmed ∧ (getCapstan readyS 3).lost = false ∧ (getCapstan readyS 3).rebuilding = false ∧ capHalted readyS 3 = false ∧
    (∀ j < 8, (getCapstan (armS readyArm) (8 + j)).lost = false) ∧ entriesOf (armS readyArm) 8 = [] := by decide +kernel
theorem wit_ReadyAndVote : (armS { arm0 with vetoed := true }).rel.ccFailed = false ∧ arm0.readySent = false ∧ (List.range 32).length = 32 ∧ arm0.voted = none ∧
    arm0.cp.toNat ≤ up.cad.ct.toNat + arm0.w * 65536 := by decide +kernel
theorem wit_Commit : (∀ m < arm0.members, m ∈ ({ arm0 with votes := [1, 0] } : Armed).votes) ∧ arm0.cp.toNat ≤ up.cad.ct.toNat ∧ (∃ m < arm0.members, m ∉ ({ arm0 with votes := [0] } : Armed).votes) ∧
    (armS arm0).cap.window = none ∧ (armS arm0).cap.log = [] := by
  refine ⟨by decide, by decide +kernel, ⟨1, by decide⟩, by decide⟩
theorem test_commit : (match exec .commit (armS { arm0 with votes := [1, 0] }) with
    | .next t => t.cap.committed == 11 && t.cap.cur && t.cap.outcome == 0
    | _ => false) = true := by decide +kernel
theorem test_abort : (match exec .commit (armS { arm0 with votes := [0] }) with
    | .next t => t.cap.committed == 10 && !t.cap.cur && t.cap.outcome == 2
    | _ => false) = true := by decide +kernel
theorem wit_Retraction : (winS win0).cap.window = some win0 ∧ win0.committed = true ∧ 1 ∈ win0.aborts ∧ up.cad.ct.toNat ≤ windowEnd win0 := by decide +kernel
theorem wit_WindowCloses : windowEnd win0 ≤ up.cad.ct.toNat ∧ (∃ m < win0.armed.members, m ∉ win0.outcomes) ∧ win0.split = false := by
  refine ⟨by decide +kernel, ⟨1, by decide⟩, by decide⟩
theorem wit_ControlPackets : (armS arm0).cap.armed = some arm0 ∧ (armS arm0).cap.norm = none ∧ (winS win0).cap.window = some win0 ∧ up.cap.armed = none ∧ up.cap.committed.toNat < (1 : W32).toNat := by decide
theorem wit_CapstanFails : (getCapstan up 3).failed = false ∧ capHalted up 3 = false ∧ (spareDice { up with store := { up.store with badDice := [3] } }).isEmpty = false ∧
    spareDice { up with store := { badDice := 3 :: (List.range 36).drop 32 } } = [] ∧
    (getCapstan { up with cap := { cap0 with capstans := [(3, { die := 32, rebuilding := true })] } } 3).rebuilding = true := by decide +kernel
theorem wit_CommittedWrite : PrivServed priv { up with cap := cap0 } ∧ up.host.privOpen = true ∧ cap0.armed = none ∧ up.plays = [] ∧ cap0.held = [] ∧
    PrivServed priv { up with host := { privOpen := false } } ∧ (armS arm0).cap.armed ≠ none := by simp only [PrivServed, serves_iff]; decide +kernel
/-- COMMIT_ARM of step 11 of one member, 4,096 beats ahead. -/
def armPk : Packet := pk 0x404 0 (toLE 4 11 ++ toLE 4 0x3F800000 ++ toLE 8 0 ++ toLE 4 0x3F800000 ++ toLE 4 0 ++ toLE 2 0 ++ toLE 2 1 ++ [2, 0, 3, 0]) [] 0 0x0000011C82008000
theorem wit_CommitArm : Serves { up with cap := cap0 } ∧ checkPacket { up with cap := cap0 } armPk = none ∧ fireRefusal { up with cap := cap0 } armPk = none ∧
    armItems { up with cap := cap0 } (armOf armPk []) = true ∧ (armOf armPk []).step = openStep { up with cap := cap0 } ∧ up.cad.ct.toNat + (armOf armPk []).w * 65536 < armPk.fire.toNat := by
  simp only [serves_iff]; decide +kernel
theorem test_commitArm : (match exec (.commitArm armPk) { up with cap := cap0 } with
    | .next t => (t.cap.armed.map fun a => (a.step, a.members)) == some (11, 1) && t.host.replies.isEmpty
    | _ => false) = true := by decide +kernel
/-- A state with an open WCOPY region of the near tier. -/
def wcopy : Region := { len := 16, valid := true, typ := true }
def nearS : State := { up with regions := [(0, wcopy), (1, { len := 16, base := 16, chbase := 16, valid := true })] }
/-- The 128 B of entry ent. -/
def entBytes : List Byte := ([3, 0, 1, 1] ++ toLE 2 2 ++ [0, 0] ++ toLE 4 5 ++ toLE 4 0 ++ toLE 4 1 ++ toLE 4 128 ++ toLE 4 0 ++ toLE 4 0 ++ toLE 4 128 ++ toLE 4 128 ++ toLE 8 0 ++ toLE 4 1 ++ toLE 4 0 ++
  List.replicate 72 0).take 128
theorem wit_LedgerSet : Admitted 0x0401 (pk 0x401 2 (toLE 4 7 ++ toLE 2 1) entBytes) nearS ∧ entBytes.length = 128 ∧ entryCheck nearS 7 entBytes = none ∧
    entryCheck up 7 entBytes = some Status.addrRange ∧ entryCheck nearS 7 (List.replicate 128 0) = some Status.ledgerValue := by simp only [Admitted, serves_iff]; decide +kernel
theorem test_ledgerSet : (match exec (.ledgerSet (pk 0x401 2 (toLE 4 7 ++ toLE 2 1) entBytes)) nearS with
    | .next t => t.cap.ledger.map (fun x => (x.1, x.2.rows, x.2.cols, x.2.expect)) == [(7, 1, 128, 2)] && t.host.replies.map (fun r => r.status) == [0]
    | _ => false) = true := by decide +kernel
theorem wit_GroupSet : Admitted 0x0403 (pk 0x403 1 (toLE 1 63 ++ toLE 1 1) (toLE 4 0x3A83126F ++ List.replicate 60 0)) up ∧ groupOk (parseGroup (toLE 4 0x3A83126F ++ List.replicate 28 0)) = true ∧
    groupOk (parseGroup (toLE 4 0xBA83126F ++ List.replicate 28 0)) = false := by simp only [Admitted, serves_iff]; decide +kernel
theorem wit_StateLoad : let s : State := { nearS with cap := cap0 }
    let p := pk 0x405 0 (toLE 4 7 ++ toLE 4 0 ++ toLE 8 (16 * 2 ^ 24)) []
    Admitted 0x0405 p s ∧ (getEntry s 7).valid = true ∧ entryBusy s 7 = false ∧ spaceOf (16 * 2 ^ 24) = .near ∧ destOk s (16 * 2 ^ 24) (8 * 1 * 128) false = true ∧
      item p.param 8 8 = 16 * 2 ^ 24 ∧ s.plays = [] := by simp only [Admitted, serves_iff]; decide +kernel
theorem wit_LedgerGet : let p := pk 0x402 0 (toLE 4 65535 ++ toLE 4 1 ++ toLE 8 hostDst) []
    Admitted 0x0402 p up ∧ item p.param 0 4 + item p.param 4 4 ≤ 65536 ∧ destOk up (item p.param 8 8) 64 true = true := by simp only [Admitted, serves_iff]; decide +kernel

/-! 12 -/

def tally (c : W32) : TallyItem := { order := 0, play := 1, org := 0, shape := 5, idx := 0, row := 0, c := [c], s := [0x3F800000], a := [0x3F800000], step := 1 }
def tallyS (c : W32) : State := { up with fields := [(0, { tallies := [tally c] })] }
theorem wit_Tally : (getField (tallyS 0x3F800000) 0).tallies = [tally 0x3F800000] ∧ (∀ x ∈ judge (tallyS 0x3F800000) (tally 0x3F800000), x ≠ some true) ∧
    (∃ x ∈ judge (tallyS 0x40000000) (withFault (tally 0x40000000) none), x = some true) ∧ judge (tallyS 0x3F800000) { tally 0x7FC00000 with s := [0x7FC00000] } = [none] := by
  refine ⟨by decide, by decide +kernel, ⟨some true, by decide +kernel⟩, by decide +kernel⟩
theorem wit_TallyTolerance : isFin32 0x7FC00000 = false ∧ isFin32 0x3F800000 = true ∧ tallyFails 0 0x3F800000 0x7F800000 0 = some true := by decide +kernel
theorem wit_Audit : (getField { up with fields := [(7, { audit := some { order := 0, play := 1, idx := 0, block := 0, tile := 0, sid := 5, step := 1, n := [], w := [] } })] } 7).audit.isSome = true := by decide
theorem wit_WatchSet : Admitted 0x0810 (pk 0x810 1 (toLE 2 1022 ++ toLE 2 1) (List.replicate 64 0)) up ∧ slotOk up 1022 (sliceB (List.replicate 64 (0 : Byte)) 0 16) = true ∧ slotOk up 1023 [] = false := by
  simp only [Admitted, serves_iff]; decide +kernel
theorem wit_WatchGet : let p := pk 0x811 0 (toLE 4 0 ++ toLE 4 1023 ++ toLE 8 1 ++ toLE 8 hostDst) []
    Admitted 0x0811 p up ∧ item p.param 4 4 + item p.param 8 4 ≤ 1024 ∧ destOk up (item p.param 16 8) 128 true = true := by simp only [Admitted, serves_iff]; decide +kernel
theorem wit_VecEval : let s : State := { up with parts := [{ org := 0, shape := 5 }] }
    let p := pk 0x812 0 (toLE 8 0 ++ [31]) [] (5 * 2048)
    Admitted 0x0812 p s ∧ tgtShape p.tgt = 5 ∧ item p.param 8 1 ≤ 31 ∧ (findPart s 0 5).isSome = true ∧ runningOn s 0 5 = none ∧ inLoan s 0 5 = false ∧
      capRuns s 31 = false ∧ readMeets s isRetired 0 (vecBytes s 0) = false ∧ readMeets s isPoisoned 0 (vecBytes s 0) = false := by
  simp only [Admitted, serves_iff]; decide +kernel
/-- A vector file of no records of set 1 at the start of region 1, with its digest. -/
def vecHead : List Byte := toLE 4 0x43455648 ++ toLE 2 1 ++ toLE 2 1 ++ toLE 4 32 ++ List.replicate 52 0
def vecS : State := { nearS with mem := (vecHead ++ Config.shake256 vecHead).zipIdx.map fun (b, i) => ((memKey nearS (16 * 2 ^ 24 + i)).getD 0, b) }
set_option maxRecDepth 100000 in
theorem wit_VecFile : vecOk vecS (16 * 2 ^ 24) = true := by
  have hb : readBytes vecS (16 * 2 ^ 24) 64 = vecHead := by decide +kernel
  have hd : readBytes vecS (16 * 2 ^ 24 + 64) 64 = Config.shake256 vecHead := by rfl
  have hn : readN vecS (16 * 2 ^ 24 + 16) 8 = 0 := by decide +kernel
  have hs : 16 * 2 ^ 24 % 128 == 0 && spaceOf (16 * 2 ^ 24) == .near && (inRegion vecS (16 * 2 ^ 24) 64).isSome && readN vecS (16 * 2 ^ 24) 4 == 0x43455648 &&
    readN vecS (16 * 2 ^ 24 + 4) 2 == 1 && decide (1 ≤ readN vecS (16 * 2 ^ 24 + 6) 2) && decide (readN vecS (16 * 2 ^ 24 + 6) 2 ≤ 6) &&
    readN vecS (16 * 2 ^ 24 + 8) 4 == setLen (readN vecS (16 * 2 ^ 24 + 6) 2) && (inRegion vecS (16 * 2 ^ 24) 128).isSome := by decide +kernel
  simp only [vecOk, hn, Nat.zero_mul, Nat.add_zero, hd, hb, hs, beq_self_eq_true, Bool.true_and, Nat.reduceAdd]
theorem wit_VecRun : vecRun vecS (16 * 2 ^ 24) = (0, 0) := by decide +kernel
theorem wit_StallEn : PrivServed priv { up with watch := { stallEn := true } } ∧ PrivServed priv { up with host := { privOpen := false } } := by simp only [PrivServed, serves_iff]; decide

/-! New hypotheses of the capstan and the watch -/

def hotRim (s : State) : State := { s with cap := { s.cap with capstans := [(3, { die := 3, rimThermal := .quiesced })] } }
theorem wit_Contribution_rim : rimQuiet (conS (con 11 0) cap0) ent.cap = false ∧ rimQuiet (hotRim (conS (con 11 0) cap0)) ent.cap = true ∧
    (getEntry (hotRim (conS (con 11 0) cap0)) 7).valid = true := by decide +kernel
theorem wit_ApplyPass_rim : xingClosed readyS 10 9 = false ∧ (3 : Nat) = 3 % 8 ∧ unitBank 0 = altBank { readyS with cap := { readyS.cap with cur := !unitBank 0 } } ∧
    unconfirmed readyS 3 = true ∧ applyReady (rimReads 3 none readyS) readyArm 3 = true := by decide +kernel
theorem wit_ControlPackets_come : (freeRx (controlHeader (.ready 1 11)) (armS arm0)).isSome = true ∧ (freeRx (controlHeader (.outcome 1 11 true)) (winS win0)).isSome = true ∧
    xingClosed up 11 8 = false ∧ xingClosed up 8 12 = false ∧ xingClosed { up with xing := { closed := [(8, 11)] } } 11 8 = true := by decide +kernel
/-- A READY packet behind an earlier packet of its flow. -/
def behind : State := { up with ports := [(3, { rxBuf := [⟨3, 0, 1, 0, 2, 0, 12, 1, 0, 1, 0, []⟩, ⟨3, 0, 1, 0, 2, 0, 11, 1, 0, 0, 0, []⟩] })] }
theorem wit_ControlPackets_behind : freeRx (controlHeader (.ready 1 11)) behind = none := by decide +kernel
theorem wit_CapstanFails_stage : stageDone up 6 = true ∧ stageDone { up with bu := { stage := 4 } } 6 = false := by decide +kernel
/-- A tally item of the running play of tile 3. -/
def ranTally : TallyItem := { tally 0x40000000 with order := 1 }
theorem wit_Tally_later : ranTally.pass ∉ (getField (tallyS 0x40000000) 0).mismatched ∧ (getPlay { up with plays := [comb] } ranTally.order) = some comb ∧
    comb.reruns = ranTally.run ∧ comb.faulted = none ∧ comb.fail = none ∧ comb.withheld = false ∧ ({ comb with faulted := some 2 } : Play).faulted ≠ none ∧
    ({ comb with reruns := 1 } : Play).reruns ≠ ranTally.run := by decide +kernel
theorem wit_VecEval_held : vecWaits { up with parts := [{ org := 0, shape := 5 }] } 0 = false ∧ xingClosed up 12 9 = false ∧
    isLender { up with parts := [{ org := 0, shape := 5 }] } 0 5 = false ∧ xingClosed { up with xing := { closed := [(12, 9)] } } 12 9 = true ∧
    vecWaits { nearS with near := { units := [(0, { thermal := .quiesced })] } } 0 = true := by decide +kernel

/-! 13 -/

/-- Port 3 in the given state, the links open. -/
def portS (p : HPort) : State := { up with ports := [(3, p)], bu := { up.bu with linkOpen := true } }
def act : HPort := { state := .active, credits := [(0, 8192), (1, 8192), (2, 1024), (3, 0)], replay := [(3, 3, []), (4, 4, []), (5, 5, [])], txNext := 6, rxNext := 0xFFFFF }
def planS : State := { portS {} with store := { up.store with plan := { id := 9, entries := [(3, { peerCoord := 2, peerPort := 7, expected := true })] } } }
/-- A packet of 640 B less a header for member 1. -/
def fwd : RoutedPacket := { typ := 1, rts := 0, dest := 1, hops := 7, vc := 0, len := 32, step := 1, src := 2, slot := 4, row := 5, seg := 6, payload := List.replicate 512 0xA5 }
theorem wit_PortTraining : up.bu.linkOpen = false ∧ planS.bu.linkOpen = true ∧ (getPort planS 3).state = .off ∧ (planOf planS 3).expected = true ∧ 4 * 3 ≤ 12 := by decide
theorem wit_PortStates : (getPort (portS { state := .training }) 3).state = .training ∧ (getPort (portS { state := .qualifying }) 3).state = .qualifying ∧
    (getPort (portS { state := .discovery, sinceHello := 1, beats := 1024 }) 3).state = .discovery ∧
    (getPort (portS { state := .discovery, sinceHello := 1, beats := 1024 }) 3).heardHello = false := by decide
/-- A lane with no bit error in 1,000,000 bits, and one with 10. -/
def good : LaneTest := ⟨0, 1000000, true⟩
def noisy : LaneTest := ⟨10, 1000000, true⟩
/-- Eight passing lanes of nine, the spare among them, are the eight lanes of the port; three fail it; seven leave it in width 4. -/
theorem test_qualification : (match exec (.qualificationEnd 3 (noisy :: List.replicate 8 good)) (portS { state := .qualifying }),
      exec (.qualificationEnd 3 [good, good, good]) (portS { state := .qualifying }), exec (.qualificationEnd 3 (List.replicate 7 good)) (portS { state := .qualifying }) with
    | .next r, .next t, .next u => (getPort r 3).lanes == [8, 1, 2, 3, 4, 5, 6, 7] && (getPort r 3).state == .discovery && (getPort t 3).state == .failed &&
        (getPort u 3).state == .discovery && (getPort u 3).width4
    | _, _, _ => false) = true := by decide +kernel
def hi : Hello := { serial := 77, port := 7, ack := true, coord := 2, planId := 9, echo := planS.store.serial }
def fh : FlitHead := { ack := 4, cvc := 2, cred := 5 }
theorem wit_Hello : (getPort { planS with ports := [(3, { state := .discovery })] } 3).state = .discovery ∧ hi.serial ≠ planS.store.serial ∧ hi.planId = planS.store.plan.id ∧
    hi.coord = (planOf planS 3).peerCoord ∧ hi.port = (planOf planS 3).peerPort ∧ (planOf planS 3).serialCheck = false ∧ (getPort planS 4).state = .off := by decide
theorem test_hello : (match exec (.hello 3 fh hi) { planS with ports := [(3, { state := .discovery })] }, exec (.hello 3 fh { hi with planId := 8 }) { planS with ports := [(3, { state := .discovery })] } with
    | .next t, .next u => (getPort t 3).state == .active && (getPort u 3).state == .planMismatch
    | _, _ => false) = true := by decide +kernel
/-- A DATA flit of sequence 0xFFFFF with an empty body. -/
def flit0 : List Byte := flitBytes 0 0xFFFFF fh []
theorem flit0_ok : flitOk flit0 = true := by
  unfold flit0 flitOk flitBytes
  dsimp only
  generalize hb : toLE 8 _ ++ sliceB ([] : List Byte) 0 628 = b
  have hl : b.length = 636 := by subst hb; decide +kernel
  have hc (w : W32) : ofLE (toLE 4 w.toNat) = w.toNat := by simp [toLE, ofLE, BitVec.toNat_ofNat]; omega
  have hs (w : W32) : (toLE 4 w.toNat).length = 4 := rfl
  simp [item, sliceB, hl, hc, hs, List.take_of_length_le]
theorem wit_Flits : (getPort (portS act) 3).state = .active ∧ (getPort (portS act) 3).trained = true ∧ flitOk flit0 = true ∧
    flitType flit0 = 0 ∧ flitSeq flit0 = act.rxNext ∧ flitType (flitBytes 7 0 fh []) = 7 ∧
    act.lanes.getD (act.rxNext % max 1 act.lanes.length) 9 = 7 ∧ spareFree act = true ∧ (∀ l ∈ act.lanes, act.laneFail.getLsbD l = false) ∧
    spareFree { act with rejects := 7, spareInUse := true } = false ∧ flitOk [] = false :=
  ⟨by decide, by decide, flit0_ok, by decide +kernel⟩
/-- The sequence wraps at 20 bits, and the header's ACK releases the flits up to it. -/
theorem test_flit : (match exec (.flitData 3 7 (.flit 2 flit0)) (portS act) with
    | .next t => (getPort t 3).rxNext == 0 && (getPort t 3).replay.map (fun x => x.1) == [5]
    | _ => false) = true := by
  have h : exec (.flitData 3 7 (.flit 2 flit0)) (portS act) = .next (deliverData (takeFlit 3 flit0 (setPort 3 (countWord (portS act) 7 (.flit 2 flit0) act) (portS act)))) := by
    have ht : (getPort (portS act) 3).trained = true := by decide
    simp only [exec, execFlitData, ht, flit0_ok]; rfl
  rw [h]; decide +kernel
/-- The eighth rejection in a row swaps a lane onto the spare, or without one brings the port down. -/
theorem test_rejects : (match exec (.flitData 3 7 .bad) (portS { act with rejects := 7 }), exec (.flitData 3 7 .bad) (portS { act with rejects := 7, spareInUse := true }) with
    | .next u, .next v => (getPort u 3).swap == some (7, 8, 63, true) && (getPort v 3).state == .failed
    | _, _ => false) = true := by decide +kernel
theorem wit_Acks : (getPort (portS act) 3).state = .active ∧ (∀ x ∈ act.sendQ, x.2 = []) ∧ (act.replay.map fun x => x.1).Nodup ∧ (getPort (portS {}) 3).state ≠ .active := by decide
theorem wit_RoundTrip : (0 : Nat) < 8 ∧ (0xFFFFF : Nat) < 2 ^ 20 ∧ fh.wf = true ∧ (List.replicate 628 (0 : Byte)).length = 628 ∧ fwd.wf = true ∧ fwd.typ < 256 ∧ fwd.src < 4096 ∧
    fwd.hops < 16 ∧ fwd.slot < 65536 ∧ fwd.row < 2 ^ 20 ∧ fwd.seg < 512 := by decide +kernel
theorem wit_Lanes : (getPort (portS act) 3).trained = true ∧ act.laneFail.getLsbD 7 = false ∧ spareFree act = true ∧ 7 ∈ act.lanes ∧ 8 ∉ act.lanes ∧ (100001 : Nat) < 2 * 100000 ∧
    act.swap = none ∧ 4 ≤ (act.healthy.filter fun k => k != 7).length ∧
    (({ act with spareInUse := true, laneFail := 0x1F8 } : HPort).healthy.filter fun k => k != 2).length < 4 ∧ portActive (portS act) 3 = true ∧
    2 ≤ lostIn (portS { act with lost := [(up.cad.ct, 7), (up.cad.ct, 7)] }) { act with lost := [(up.cad.ct, 7), (up.cad.ct, 7)] } 7 (10 ^ 12) ∧
    spareFree (takeHead up.cad.ct fh act) = true := by decide +kernel
theorem wit_PortStalls : (lookupD [] 0 ({ act with sendQ := [(0, [fwd])] } : HPort).sendQ).length = 1 ∧ 10 ^ 8 ≤ sincePs { up with cad := { up.cad with periodPs := 19531250 } } (lookupD up.cad.ct 0 [(0, 0)]) := by decide +kernel
theorem wit_PlanSet :  Admitted 0x0501 (pk 0x501 6 (toLE 4 9 ++ toLE 4 1) (List.replicate 384 0)) up ∧ up.colls = [] ∧
    (∀ k < 24, item (sliceB (List.replicate 384 (0 : Byte)) (16 * k) 16) 5 1 ≤ 3 ∧ item (sliceB (List.replicate 384 (0 : Byte)) (16 * k) 16) 6 2 = 0) := by
  simp only [Admitted, serves_iff]; decide +kernel
theorem wit_PortCtrl : Admitted 0x0506 (pk 0x506 0 (toLE 3 8 ++ [0]) []) up ∧ item (pk 0x506 0 (toLE 3 8 ++ [0]) []).param 0 3 ≠ 0 ∧ bitAt (item (pk 0x506 0 (toLE 3 8 ++ [0]) []).param 0 3) 3 = true := by
  simp only [Admitted, serves_iff]; decide +kernel
theorem wit_RouteSet : let p := pk 0x502 1 ([15, 0] ++ toLE 2 0 ++ toLE 2 4096 ++ toLE 2 4095 ++ toLE 2 1) (toLE 4 (2 ^ 31 + 23 * 2 ^ 25 + 22 * 2 ^ 20) ++ List.replicate 60 0)
    Admitted 0x0502 p up ∧ item p.param 0 1 < 16 ∧ item p.param 6 2 + item p.param 8 2 ≤ 4096 ∧ item p.param 2 2 < item p.param 4 2 ∧ item p.param 4 2 ≤ 4096 ∧ setBusy up 15 = false ∧
      item p.payload 0 4 % 2 ^ 20 = 0 ∧ fld (item p.payload 0 4) 25 5 ≤ 23 := by simp only [Admitted, serves_iff]; decide +kernel
theorem wit_XmapSet : let p := pk 0x601 1 ([0, 0] ++ toLE 2 4095 ++ toLE 2 1) (toLE 8 (2 ^ 63 + 5 * 2 ^ 37) ++ List.replicate 56 0)
    Admitted 0x0601 p up ∧ item p.param 2 2 + item p.param 4 2 ≤ 4096 ∧ up.exchanges = [] ∧ (mapEntry (BitVec.ofNat 64 (item p.payload 0 8))).member < (rtSet up 0).members ∧
      (mapEntry (BitVec.ofNat 64 (item p.payload 0 8))).shape ≤ 5 := by simp only [Admitted, serves_iff]; decide +kernel

/-- Member 0 of two; member 1 lies behind port 3. -/
def twoS (p : HPort) : State := { portS p with sets := [(0, { members := 2, entries := [(1, BitVec.ofNat 32 (2 ^ 31 + 3 * 2 ^ 25 + 3 * 2 ^ 20))] })] }
theorem wit_Forward : fwd.dest ≠ (rtSet (twoS act) 0).self ∧ routeTo (twoS act) 0 1 = .port 3 ∧ routeTo (twoS {}) 0 1 = .unreachable ∧ xingClosed (twoS act) 8 11 = false ∧
    xingClosed { twoS act with xing := { closed := [(8, 11)] } } 8 11 = true ∧ (∀ x ∈ act.sendQ, x.2 = []) ∧ fwd.vc < 3 ∧ fwd.len ≤ 32 ∧ act.turn.1 ≤ 1 ∧
    fwd.len + 1 ≤ lookupD 0 fwd.vc act.credits ∧ (7 : Nat) < 8 := by decide +kernel
def leafOf (m row : Nat) : Leaf := { slot := 4, row, seg := 0, step := 1, member := m, data := [0x3F80] }
def grad : CollSlot := { op := 0, engine := 2, rts := 0, members := 2, sid := 5, ent := 7, rpm := 128, leaves := [(0, none, leafOf 0 0), (0, none, leafOf 1 0)] }
/-- The slot, and in the mesh a leaf of this member for its own rows and one for member 1's. -/
def gradS : State := { twoS act with colls := [(4, grad)], mesh := [(.engine 9, .leaf (0, 0) (leafOf 0 127)), (.engine 8, .leaf (0, 0) (leafOf 0 128))] }
theorem wit_Leaves : lookup 4 gradS.colls = some grad ∧ (rtSet gradS 0).self = 0 ∧ (127 : Nat) / grad.rpm = 0 ∧ (128 : Nat) / grad.rpm = 1 ∧ stalePacket gradS 1 = false ∧
    (meshTake (.leaf (0, 0) (leafOf 0 127)) gradS).isSome = true ∧ (meshTake (.leaf (0, 0) (leafOf 0 128)) gradS).isSome = true ∧ meshTake (.leaf (0, 0) (leafOf 0 127)) up = none ∧
    stalePacket { gradS with cap := cap0 } 1 = true ∧ engineLeaves gradS 2 < 65536 ∧ ownerOf grad 0 127 = 0 ∧ ownerOf grad 0 128 = 1 ∧
    ¬engineLeaves { gradS with colls := [(4, grad), (5, { grad with leaves := List.replicate 65536 (0, none, leafOf 0 0) })] } 2 < 65536 ∧
    spillPlace gradS grad = none ∧ spillPlace nearS { grad with spen := true, spreg := 1 } = some 0 ∧ grad.spen = false ∧ xingClosed gradS 8 9 = false ∧
    rangeWaits nearS (spillAt nearS { grad with spreg := 1 } 0) 256 = false := by decide +kernel
/-- Whether a leaf of another member has come, or stands behind another packet of its flow. -/
theorem wit_Leaves_come : (takeItem gradS (0, 0) 0 (.leaf (0, 0) (leafOf 1 0))).isSome = true := by decide +kernel
theorem wit_RoundSum : grad.leaves.any (fun x => x.2.2.row == 0 && x.2.2.seg == 0) = true ∧ (∀ x ∈ grad.leaves, x.2.2.row = 0 → x.2.2.seg = 0 → x.2.2.step = 1) ∧
    (roundLeaves grad 1 0 0 (lookupD 0 (segKey 1 0 0) grad.delivered)).length = grad.members ∧
    (roundLeaves { grad with leaves := [(0, none, leafOf 1 0)] } 1 0 0 0).length < grad.members := by decide +kernel
theorem test_roundSum : (match exec (.roundSum 4 0 0) { gradS with mesh := [] } with
    | .next t => t.mesh.length == 1 && (lookup 4 t.colls).elim false fun c => c.leaves.isEmpty
    | _ => false) = true := by decide +kernel
def collPk : Packet := pk 0x503 1 (toLE 2 4 ++ [2, 0, 0, 0] ++ toLE 2 1 ++ toLE 4 0 ++ [0, 0, 0, 4] ++ toLE 4 0 ++ toLE 4 128 ++ [127, 0] ++ toLE 2 2047)
  (toLE 8 (16 * 2 ^ 24) ++ toLE 8 (16 * 2 ^ 24 + 4096) ++ List.replicate 48 0)
theorem wit_CollSet : Admitted 0x0503 collPk nearS ∧ collItems collPk 4 = true ∧ (newSlot collPk).op ≠ 7 ∧ (newSlot collPk).members = (rtSet nearS 0).members ∧
    collAddrs nearS (newSlot collPk) = true ∧ (lookup 4 nearS.colls).elim false slotOpen = false ∧ (newSlot (pk 0x503 0 (toLE 2 4 ++ [7]) [])).op = 7 ∧
    Admitted 0x0503 (pk 0x503 1 (toLE 2 4 ++ [7]) (List.replicate 64 0)) nearS ∧ collItems (pk 0x503 0 (toLE 2 4 ++ [7]) []) 4 = true := by simp only [Admitted, serves_iff]; decide +kernel
def one : CollSlot := { op := 2, engine := 0, rts := 0, members := 1, sid := 5, nel := 2, fmt := 1, dfmt := 1, src := 16 * 2 ^ 24, dst := 16 * 2 ^ 24, knot := 5, ktile := 9 }
def firePk : Packet := pk 0x504 0 (toLE 2 4 ++ toLE 2 0 ++ toLE 4 1) []
theorem wit_CollFire : Admitted 0x0504 firePk { up with colls := [(4, one)] } ∧ item (shifted up firePk).param 0 2 = 4 ∧ one.op ≠ 0 := by
  simp only [Admitted, serves_iff]; decide +kernel
/-- The collective of slot 4 runs, its source read. -/
def running : CollSlot := { one with running := some firePk, own := [0x80, 0x3F, 0, 0x40] }
theorem wit_Collective : let s : State := { nearS with colls := [(4, { one with due := [firePk] })] }
    readMeets s isRetired one.src (one.nel * collBytes one.fmt) = false ∧ readMeets s isPoisoned one.src (one.nel * collBytes one.fmt) = false ∧
    readMeets { s with near := { retired := [(nearDecode { len := 16, base := 16, chbase := 16, valid := true } one.src).1] } } isRetired one.src 4 = true ∧
    running.own ≠ [] ∧ rangeWaits s one.src 4 = false ∧ rangeWaits s one.dst (running.dstBytes 0) = false ∧ xingClosed s 8 9 = false ∧
    running.parts (rtSet s 0).self (collStep firePk) = some [[0x80, 0x3F, 0, 0x40]] ∧ ({ running with members := 2 } : CollSlot).parts 0 (collStep firePk) = none ∧
    (collResult 4 running firePk [[0x80, 0x3F, 0, 0x40]] s).1 = some [0x80, 0x3F, 0, 0x40] ∧ hasReplied firePk.tag s = false ∧
    (collResult 4 { running with members := 2 } firePk [[0x80, 0x3F], [0, 0]] s).1 = none := by decide +kernel
theorem wit_Collective_waits : rangeWaits { nearS with near := { units := (List.range 1024).map fun n => (n, { thermal := .quiesced }) } } one.src 4 = true ∧
    xingClosed { nearS with xing := { closed := [(9, 8)] } } 8 9 = true := by decide +kernel
theorem test_collective : (match exec (.collectiveComplete 4) { nearS with colls := [(4, running)] } with
    | .next t => readBytes t one.dst 4 == [0x80, 0x3F, 0, 0x40] && knot t (tileKnot 9 5) == 1 && t.host.replies.map (fun r => r.status) == [0]
    | _ => false) = true := by decide +kernel
/-- Two members' sources of two BF16 elements; member 1's part has come in one packet. -/
def twoSources : List (List Byte) := [[0x80, 0x3F, 0, 0x40], [0, 0x40, 0x80, 0x3F]]
def two (op : Nat) : CollSlot := { running with op, members := 2, own := [0x80, 0x3F, 0, 0x40], got := [(1, 1, 0, [0, 0x40])] }
theorem wit_CollectiveResults : twoSources.length = (two 1).members ∧ 1 ≤ collBytes (two 1).fmt ∧ (∀ l ∈ twoSources, l.length = (two 1).nel * collBytes (two 1).fmt) ∧
    (rtSet (twoS act) 0).self < 2 ∧ (two 1).own = twoSources.getD 0 [] ∧
    (two 1).held 1 1 0 ((two 1).part 0 (two 1).own).length = some ((two 1).part 0 (twoSources.getD 1 [])) ∧ (two 2).op = 2 ∧ (two 3).op = 3 ∧ (two 4).op = 4 := by decide +kernel
/-- Reduce-scatter: 1.0 + 2.0 is 3.0 in BF16. -/
theorem test_reduceScatter : (collResult 4 (two 1) firePk (twoSources.map ((two 1).part 0)) (twoS act)).1 = some [0x40, 0x40] := by decide +kernel
def barPk : Packet := pk 0x505 0 (toLE 2 5 ++ [15, 0] ++ toLE 2 1 ++ toLE 2 0xFFFF ++ [127, 0, 0, 0] ++ toLE 4 0 ++ toLE 2 2047 ++ [127, 0] ++ toLE 4 3 ++ toLE 2 1) []
theorem wit_Barrier : Serves up ∧ barPk.opc = 0x0505 ∧ checkPacket up barPk = none ∧ fireRefusal up (shifted up barPk) = none ∧ item barPk.param 2 1 = 15 ∧ item barPk.param 4 2 = 1 ∧ item barPk.param 6 2 = 0xFFFF ∧ item barPk.param 8 1 = 127 ∧
    item barPk.param 16 2 = 2047 ∧ item barPk.param 18 1 = 127 ∧ item barPk.param 24 2 ≠ 0 := by simp only [serves_iff]; decide +kernel
def bar : BarrierRec := { ident := 5, rts := 0, members := 1, tile := 0xFFFF, knot := 0, target := 0, relTile := 2047, relKnot := 127, amount := 3, timeout := 1, step := 1,
                          fire := up.cad.ct - 65536, release := up.cad.ct - 65536, queue := 0, seq := 7, origin := 0, notify := false }
def barS (b : BarrierRec) : State := { up with barriers := [b] }
theorem wit_BarrierEnds : getBarrier (barS bar) 5 = some bar ∧ bar.sent = false ∧ allArrived { bar with arrived := [0] } = true ∧ allArrived bar = false ∧
    (timeTo (bar.fire + beats bar.timeout) (barS bar)).isSome = true ∧ (comeTo (bar.release.toNat, 2, bar.tag) bar.release (barS { bar with arrived := [0] })).isSome = true ∧
    timeTo (up.cad.ct + 2 * 65536) (barS bar) = none ∧ hasReplied bar.tag (barS bar) = false := by decide +kernel
theorem test_barrier : (match exec (.barrierRelease 5) (barS { bar with arrived := [0] }) with
    | .next t => knot t (tileKnot 2047 127) == 3 && t.barriers.isEmpty && t.host.replies.map (fun r => r.status) == [0]
    | _ => false) = true := by decide +kernel

/-! 14 -/

def xchPk : Packet := pk 0x602 0 (toLE 2 6 ++ toLE 2 0 ++ toLE 4 1 ++ toLE 4 0 ++ toLE 4 (2 ^ 20) ++ toLE 4 0 ++ toLE 2 4096 ++ toLE 2 0 ++ [15, 2, 127, 127, 4, 0]) []
theorem wit_XchSet : Admitted 0x0602 xchPk up ∧ xchItems xchPk = true ∧ (newExchange xchPk up).reuse = false ∧ getX up (newExchange xchPk up).xid = none ∧ up.exchanges.length < 256 := by
  simp only [Admitted, serves_iff]; decide +kernel
def cnt : XCount := { xid := 6, member := 0, tile := 3, srcn := 1, rows := 128, capm := false, ovf := false, cap := 128, k := 1, rowl := 2, fmt := 1, counts := [(9, 2)], step := 1 }
def xm : XMove := { tile := 3, word := 0, copies := [(9, 0, 0), (9, 1, 0)] }
def xch0 : Exchange := { xid := 6, step := 1, rts := 0, srcn := 1, rmax := 128, ooff := 0, rfmt := 1, desc := 0, rknot := 0, xknot := 0, sid := 5, cls := 4, rot := false, reuse := false, prior := 0 }
/-- Expert 9 is held here, in hint buffer 0; the mesh holds one packet of the exchange. -/
def xchS (x : Exchange) (i : MeshItem) : State := { nearS with
  sets := [(0, { xmap := [(9, BitVec.ofNat 64 (2 ^ 63 + 5 * 2 ^ 37))] })]
  hints := [(0, { nlen := 2 ^ 20, nreg := 1 })]
  exchanges := [(6, x)]
  mesh := [(.engine 0, i)] }
theorem wit_XchCount : let s := xchS xch0 (.xcount cnt)
    getX s 6 = some xch0 ∧ cnt.member = selfOf s xch0 ∧ (meshTake (.xcount cnt) s).isSome = true ∧ stalePacket s cnt.step = false ∧ xch0.granted = false ∧
      countsComplete s { xch0 with counts := [cnt] } = true ∧ countsComplete s { xch0 with counts := [{ cnt with srcn := 2 }] } = false := by decide +kernel
def gr : XGrant := { xid := 6, expert := 9, tile := 3, base := 0, admitted := 2, dropped := false, spilled := false, step := 1 }
theorem wit_XchGrant : let x := { xch0 with counts := [cnt], granted := true, moves := [xm] }
    let s := xchS x (.xgrant gr)
    (localExpert s x 9).isSome = true ∧ (meshTake (.xgrant gr) s).isSome = true ∧ stalePacket s gr.step = false ∧ (x.moves.find? fun m => m.tile == gr.tile) = some xm := by decide +kernel
def row : XRow := { xid := 6, expert := 9, row := 1, elems := List.replicate 128 0, scales := [], step := 1 }
theorem wit_XchRow : let x := { xch0 with counts := [cnt], placed := [cnt], granted := true, moves := [xm], experts := [(9, { n := 2, n1 := 2 })] }
    let s := xchS x (.xrow row)
    rowMember x 9 1 = some (selfOf s x) ∧ rowWaits s 6 9 1 = false ∧ (localExpert s x 9).isSome = true ∧ (meshTake (.xrow row) s).isSome = true ∧ rowShape x = some (cnt.fmt, cnt.rowl) ∧ xingClosed s 9 8 = false ∧ row.row < 2 + 0 ∧
      (∀ k < rowSquares cnt.fmt cnt.rowl, (gridNear s (mapEntry (BitVec.ofNat 64 (2 ^ 63 + 5 * 2 ^ 37))) ((row.row / 128 * rowSquares cnt.fmt cnt.rowl + k) * sqSize cnt.fmt) (sqSize cnt.fmt)).isSome = true) := by
  decide +kernel
theorem wit_GrantPhase : let x := { xch0 with counts := [cnt] }
    (orderedCounts (xchS x (.xcount cnt)) x).head? = some cnt ∧ (localExperts (xchS x (.xcount cnt)) x).map (fun z => z.1) = [9] := by decide +kernel
def fet : XFetch := { xid := 6, expert := 9, row := 1, member := 0, tile := 3, step := 1 }
theorem wit_Fetch : let s := xchS xch0 (.xfetch fet)
    fet.member = selfOf s xch0 ∧ (meshTake (.xfetch fet) s).isSome = true ∧ stalePacket s fet.step = false ∧ (localExpert s xch0 9).isSome = true ∧
      (returnLine s { xch0 with counts := [cnt], placed := [cnt] } (mapEntry (BitVec.ofNat 64 (2 ^ 63 + 5 * 2 ^ 37))) 0).isSome = true ∧ localExpert s xch0 8 = none := by decide +kernel
def res : XResult := { xid := 6, expert := 9, row := 1, tile := 3, elems := [], step := 1 }
theorem wit_Result : let s : State := { xchS xch0 (.xresult res) with plays := [comb] }
    (waitingCombine s 3 6).isSome = true ∧ xingClosed s 0 8 = false ∧ (meshTake (.xresult res) s).isSome = true ∧ stalePacket s res.step = false ∧ (localExpert s xch0 9).isSome = true := by decide +kernel
/-- Whether a packet of member 1 has come to this one, out of a receive buffer. -/
def fwdCount : XCount := { cnt with member := 1 }
theorem wit_Comes : let s := { xchS xch0 (.xcount cnt) with sets := [(0, { members := 2, xmap := [(9, BitVec.ofNat 64 (2 ^ 63 + 5 * 2 ^ 37))] })] }
    (fwdCount.member == selfOf s xch0) = false ∧ (takeItem s (1, 2) 0 (.xrow row)).isSome = true ∧
    meshTake (.xgrant gr) s = none ∧ gridsMeet s { xch0 with experts := [] } (1, 2) 9 (mapEntry (BitVec.ofNat 64 (2 ^ 63 + 5 * 2 ^ 37))) = false := by decide +kernel
theorem wit_XchGet : let p := pk 0x603 0 (toLE 2 65280 ++ toLE 2 256 ++ toLE 4 0 ++ toLE 8 hostDst) []
    Admitted 0x0603 p up ∧ item p.param 0 2 + item p.param 2 2 ≤ 65536 ∧ destOk up (item p.param 8 8) (64 * 256) true = true := by simp only [Admitted, serves_iff]; decide +kernel

/-! 07: a move at a time -/

/-- A move word from its fields: lowest bit and value. -/
def fw (l : List (Nat × Nat)) : MoveWord := BitVec.ofNat 256 (l.map fun x => x.2 * 2 ^ x.1).sum
/-- A row on tile 5, its queue code and its move word. -/
abbrev Case := Instr × Nat × MoveWord
def Case.last (x : Case) : Bool := opOf x.2.2 == 0x01
def sq0 (x : Case) : Sequencer := { tile := 5, list := 1, count := if x.last then 1 else 2 }
/-- A play of the one-tile partition of tile 5, about to fetch its first move. -/
def play0 (x : Case) : Play := { image := 0, org := 5, shape := 5, id := 1, step := 1, fire := 0, deadline := 0xFFFFFFFFFFFFFFFF, queue := 0, seq := 7, origin := 0, notify := false,
                                 rerun := false, phase := 0, order := 1, state := .running, seqs := [sq0 x], queues := (List.range 9).map fun c => { tile := 5, code := c } }
def bank0 : WBank := { wfmt := 1, klen := 128, tally := 0, inPart := false, trans := false, rows := [], tallyRows := [] }
/-- The move's line stands in the tile's line cache. -/
def fetchS (x : Case) : State := { nearS with
  plays := [play0 x]
  parts := [{ org := 5, shape := 5, active := some bank0 }]
  sets := [(0, { xmap := [(0, BitVec.ofNat 64 (2 ^ 63 + 5 * 2 ^ 37))] })]
  exchanges := [(6, xch0)]
  caches := [(5, [{ unit := 1, data := toLE 32 x.2.2.toNat ++ List.replicate 96 0 }])] }
def move0 (x : Case) : QMove := { word := x.2.2, idx := 0, frame := {}, fault := (moveRow x.1).elim .none fun r => r.2.2 }
def fetchedIs (x : Case) : Bool := match fetchMove (play0 x) (sq0 x) (fetchS x) with
  | .word w s => decide (w = x.2.2 ∧ s = fetchS x)
  | _ => false
def fetchOk (x : Case) : Bool :=
  decide (moveRow x.1 = some (opOf x.2.2, 5, (move0 x).fault)) && decide (dispatcher (fetchS x) 5 = some (play0 x, sq0 x)) && fetchedIs x && decide (queueOf x.2.2 = some x.2.1)
theorem fetches_of (x : Case) (h : fetchOk x = true) : Fetches x.1 (play0 x) (sq0 x) (move0 x) 5 x.2.1 (fetchS x) (fetchS x) := by
  simp only [fetchOk, Bool.and_eq_true, decide_eq_true_eq] at h
  obtain ⟨⟨⟨h1, h2⟩, h3⟩, h4⟩ := h
  refine ⟨h1, h2, ?_, ?_, h4, fun _ => rfl, rfl, rfl⟩
  · unfold fetchedIs at h3
    split at h3
    · next w s hw => obtain ⟨rfl, rfl⟩ := of_decide_eq_true h3; exact hw
    · cases h3
  · show opOf x.2.2 = 0x01 ↔ 0 + 1 = if x.last then 1 else 2
    by_cases e : opOf x.2.2 = 0x01 <;> simp [Case.last, e]

/-- The state with the move in its queue, and the play as it stands there. -/
def headS (x : Case) : State := queued (play0 x) 5 x.2.1 (move0 x) (fetchS x)
def play1 (x : Case) : Play := (getPlay (headS x) 1).getD (play0 x)
def headOk (x : Case) : Bool := fetchOk x && decide (opOf x.2.2 ∉ [0x00, 0x01, 0x02, 0x06]) && decide (getPlay (headS x) 1 = some (play1 x)) && decide ((play1 x).order = 1) && (play1 x).live &&
  decide (getQueue (play1 x) 5 x.2.1 = some { tile := 5, code := x.2.1, moves := [move0 x] })
theorem atHead_of (x : Case) (h : headOk x = true) : AtHead x.1 (play1 x) 5 x.2.1 (move0 x) (fetchS x) (headS x) := by
  simp only [headOk, Bool.and_eq_true, decide_eq_true_eq] at h
  obtain ⟨⟨⟨⟨⟨h1, h2⟩, h3⟩, h4⟩, h5⟩, h6⟩ := h
  exact ⟨h2, ⟨play0 x, sq0 x, move0 x, fetchS x, _, fetches_of x h1, h4.symm, rfl, h6, rfl, rfl⟩, h4 ▸ h3, h5⟩

def cNop : Case := (.moveNop 5, 0, fw [])
def cFireat (ct : Nat) : Case := (.fireat 5, 0, fw [(0, 2), (64, ct)])
def cPart : Case := (.partMove 5, 0, fw [(0, 6), (64, 5), (75, 5), (78, 5)])
def cEnd : Case := (.endMove 5, 0, fw [(0, 1)])
/-- The moves a sequencer keeps to itself are fetched, their encodings in order. -/
theorem wit_Sequencer : ∀ x ∈ [cNop, cFireat up.cad.ct.toNat, cFireat (up.cad.ct.toNat + 1), cPart, cEnd],
    Fetches x.1 (play0 x) (sq0 x) (move0 x) 5 0 (fetchS x) (fetchS x) ∧ encMoveWord 128 x.2.2 = true ∧ (play0 x).cut = none ∧ sxtOf (play0 x) 5 = none := by
  intro x hx
  have h : ∀ x ∈ [cNop, cFireat up.cad.ct.toNat, cFireat (up.cad.ct.toNat + 1), cPart, cEnd], fetchOk x = true ∧ x.2.1 = 0 ∧ encMoveWord 128 x.2.2 = true := by decide +kernel
  obtain ⟨a, b, c⟩ := h x hx
  exact ⟨b ▸ fetches_of x a, c, rfl, rfl⟩
theorem wit_Fireat : (getQueue (play0 cNop) 5 0).isSome = true ∧ (cFireat up.cad.ct.toNat).2.2.toNat / 2 ^ 64 % 2 ^ 64 ≤ up.cad.ct.toNat ∧
    up.cad.ct.toNat < (cFireat (up.cad.ct.toNat + 1)).2.2.toNat / 2 ^ 64 % 2 ^ 64 ∧ (∀ z ∈ (play0 cEnd).queues, z.moves = []) := by decide +kernel

def cKset : Case := (.kset 5, 3, fw [(0, 5), (64, 3), (68, 127), (75, 0xFFFFFFFF)])
def cTie : Case := (.tie 5, 2, fw [(0, 3), (64, 2), (71, 127), (89, 1)])
def cWait (v : Nat) : Case := (.wait 5, 8, fw [(0, 4), (64, 8), (68, 127), (75, v)])
def cIframe : Case := (.iframe 5, 2, fw [(0, 7), (64, 2), (68, 1), (69, 9)])
theorem wit_KnotMoves : ∀ x ∈ [cKset, cTie, cWait 0, cWait 1, cIframe], AtHead x.1 (play1 x) 5 x.2.1 (move0 x) (fetchS x) (headS x) ∧ x.2.1 ≠ 1 ∧ encCommon x.2.2 = true ∧ wb x.2.2 8 = false := by
  intro x hx
  have h : ∀ x ∈ [cKset, cTie, cWait 0, cWait 1, cIframe], headOk x = true ∧ x.2.1 ≠ 1 ∧ encCommon x.2.2 = true ∧ wb x.2.2 8 = false := by decide +kernel
  exact ⟨atHead_of x (h x hx).1, (h x hx).2⟩
theorem wit_KnotEnc : encKset cKset.2.2 = true ∧ encTie cTie.2.2 = true ∧ wf cTie.2.2 68 3 = 0 ∧ encWait (cWait 1).2.2 = true ∧ waitOk (headS (cWait 1)) 5 (cWait 1).2.2 = false ∧
    waitOk (headS (cWait 0)) 5 (cWait 0).2.2 = true ∧ encIframe cIframe.2.2 = true := by decide +kernel
theorem test_kset : (match exec (.kset 5) (fetchS cKset) with
    | .next t => knot t (tileKnot 5 127) == 0xFFFFFFFF
    | _ => false) = true := by decide +kernel
theorem test_tie_wraps : (match exec (.tie 5) { fetchS cTie with knots := [(tileKnot 5 127, 0xFFFFFFFF)] } with
    | .next t => knot t (tileKnot 5 127) == 0
    | _ => false) = true := by decide +kernel

def cTopk : Case := (.topk 5 .none, 2, fw [(0, 0x24), (64, 8), (77, 8), (92, 0), (108, 0x1000), (124, 0x2000), (140, 1)])
def cGather : Case := (.gather 5, 2, fw [(0, 0x25), (80, 0x1000), (96, 0x2000), (112, 1), (132, 1), (152, 1)])
def cScatter : Case := (.scatter 5, 2, fw [(0, 0x26), (80, 0x1000), (96, 0x2000), (112, 1), (132, 1), (152, 1)])
def cScatterAdd : Case := (.scatterAdd 5 .none, 2, fw [(0, 0x27), (80, 0x1000), (96, 0x2000), (112, 1), (132, 1), (152, 1)])
def cPack : Case := (.pack 5 .none, 2, fw [(0, 0x28), (80, 0x1000), (100, 3), (111, 1)])
def cElem : Case := (.elem 5 .none, 2, fw [(0, 0x20), (64, 7), (144, 0x1000), (160, 1)])
/-- The same move, whose residue check fails twice. -/
def cElemTwice : Case := (.elem 5 .twice, cElem.2)
theorem wit_LaneFault : AtHead (.elem 5 .twice) (play1 cElemTwice) 5 2 (move0 cElemTwice) (fetchS cElemTwice) (headS cElemTwice) ∧ (match startMoveOf (play1 cElemTwice) 5 2 (move0 cElemTwice) (headS cElemTwice) with
    | .run _ _ => true
    | _ => false) = true := ⟨atHead_of cElemTwice (by decide +kernel), by decide +kernel⟩
theorem test_lane_fault : (match exec (.elem 5 .twice) (fetchS cElemTwice) with
    | .next t => t.plays.map (fun y => y.faulted) == [some 3] && t.rel.suspects.map (fun x => x.cls) == [3] && t.store.ledger.map (fun r => r.cls) == [3]
    | _ => false) = true := by decide +kernel
def plyMoves : List Case := [cTopk, cGather, cScatter, cScatterAdd, cPack, cElem]
theorem wit_PlyMoves : ∀ x ∈ plyMoves, AtHead x.1 (play1 x) 5 2 (move0 x) (fetchS x) (headS x) ∧ encCommon x.2.2 = true := by
  intro x hx
  have h : ∀ x ∈ plyMoves, headOk x = true ∧ x.2.1 = 2 ∧ encCommon x.2.2 = true := by decide +kernel
  obtain ⟨a, b, c⟩ := h x hx
  exact ⟨b ▸ atHead_of x a, c⟩
theorem wit_Topk : let w := cTopk.2.2
    let s := headS cTopk
    encTopk w = true ∧ wf w 64 13 = 8 ∧ wf w 77 4 = 8 ∧ operandCheck s [(tileAddr 5 (wf w 92 16 * 128), wf w 83 4, sqsOf (wf w 140 20 * cdiv (wf w 64 13) 128))] = none ∧
      storeOk s (play1 cTopk) 5 (wf w 108 16 * 128) (2 * wf w 77 4 * wf w 140 20) = true := by decide +kernel
theorem wit_Gather : ∀ x ∈ [(0x25, cGather), (0x26, cScatter), (0x27, cScatterAdd)], encGather x.1 x.2.2.2 = true ∧ fmtScaleField (wf x.2.2.2 164 4) = false ∧
    operandCheck (headS x.2) [(tileAddr 5 (wf x.2.2.2 64 16 * 128), wf x.2.2.2 164 4, 1)] = none ∧ storeOk (headS x.2) (play1 x.2) 5 (wf x.2.2.2 80 16 * 128) 128 = true ∧
    (gatherRows 5 x.1 x.2.2.2 (List.range (wf x.2.2.2 112 20)) (headS x.2)).1 = true := by decide +kernel
theorem wit_PackElem : encPack cPack.2.2 = true ∧ fmtTensor (wf cPack.2.2 100 4) = false ∧ storeOk (headS cPack) (play1 cPack) 5 (wf cPack.2.2 80 16 * 128) (sqSize 3) = true ∧
    encElem cElem.2.2 = true ∧ fmtScaleField (wf cElem.2.2 82 4) = false ∧ operandCheck (headS cElem) [(tileAddr 5 0, 0, 1)] = none ∧ elemUsesB 7 = false ∧
    storeOk (headS cElem) (play1 cElem) 5 (0x1000 * 128) (destBytes 0 1) = true := by decide +kernel

def cReduce (n : Nat) : Case := (.reduce 5 .none, 2, fw [(0, 0x21), (133, 0x1000), (149, n), (191, 1), (208, 3), (220, 1)])
def cSmxb : Case := (.smxb 5 .none, 2, fw [(0, 0x22), (101, 0x2000), (133, 0x1000), (149, 128), (191, 1), (208, 3), (220, 1)])
def cNrmb : Case := (.nrmb 5 .none, 2, fw [(0, 0x23), (101, 0x2000), (117, 0x3000), (133, 0x1000), (149, 128), (191, 1), (208, 3), (220, 1)])
def cAmaxt : Case := (.amaxt 5 .none, 2, fw [(0, 0x29), (80, 0x1000), (96, 1), (136, 128), (156, 3)])
def groupMoves : List Case := [cReduce 128, cSmxb, cNrmb, cAmaxt]
def groupStarts (x : Case) : Bool := match startGroup (play1 x) 5 (opOf x.2.2) (move0 x) (headS x) with
  | .run m s => decide (m = { move0 x with started := true } ∧ s = headS x)
  | _ => false
theorem wit_GroupMoves : ∀ x ∈ groupMoves, AtHead x.1 (play1 x) 5 2 (move0 x) (fetchS x) (headS x) ∧ encCommon x.2.2 = true ∧
    startGroup (play1 x) 5 (opOf x.2.2) (move0 x) (headS x) = .run { move0 x with started := true } (headS x) := by
  intro x hx
  have h : ∀ x ∈ groupMoves, headOk x = true ∧ x.2.1 = 2 ∧ encCommon x.2.2 = true ∧ groupStarts x = true := by decide +kernel
  obtain ⟨a, b, c, d⟩ := h x hx
  refine ⟨b ▸ atHead_of x a, c, ?_⟩
  unfold groupStarts at d
  split at d
  · next e => obtain ⟨rfl, rfl⟩ := of_decide_eq_true d; exact e
  · cases d
/-- A play on tile 5 with a started move in a queue. -/
def runningS (code : Nat) (m : QMove) : State := { fetchS cNop with plays := [{ play0 cNop with queues := [{ tile := 5, code, moves := [m] }] }] }
def started (x : Case) : QMove := { move0 x with started := true }
theorem wit_ReductionResult : (∀ x ∈ [(5, started (cReduce 128))], x.2.reused = false) ∧ (∃ x ∈ [(5, { started (cReduce 128) with reused := true })], x.2.reused = true) ∧
    (groupHead (runningS 2 (started (cReduce 128))) 5).isSome = true ∧ memOff (cReduce 128).2.2 = 0 ∧ groupSpan [(5, started (cReduce 128))] = .complete ∧
    groupSpan [(5, started (cReduce 256))] = .missing ∧ groupSpan [(5, started (cReduce 128)), (6, started (cReduce 256))] = .bad ∧
    ((groupHead (runningS 2 (started (cReduce 128))) 5).map fun y => y.1.fail) = some none := by decide +kernel

def cSwapw : Case := (.swapw 5, 1, fw [(0, 0x11)])
def cLoadw : Case := (.loadw 5, 1, fw [(0, 0x10), (96, 1), (103, 128)])
def cStream : Case := (.stream 5 .none, 1, fw [(0, 0x12), (64, 1), (97, 1), (144, 0x1000), (160, 512), (192, 0x2000)])
def cSxt : Case := (.sxt 5, 1, fw [(0, 0x13)])
def arrMoves : List Case := [cSwapw, cLoadw, cStream, cSxt]
theorem wit_ArrayMoves : ∀ x ∈ arrMoves, AtHead x.1 (play1 x) 5 1 (move0 x) (fetchS x) (headS x) ∧ encCommon x.2.2 = true ∧ sxtOf (play1 x) 5 = none := by
  intro x hx
  have h : ∀ x ∈ arrMoves, headOk x = true ∧ x.2.1 = 1 ∧ encCommon x.2.2 = true ∧ sxtOf (play1 x) 5 = none := by decide +kernel
  obtain ⟨a, b, c⟩ := h x hx
  exact ⟨b ▸ atHead_of x a, c⟩
/-- The move issued at the head of the lead's queue. -/
def mI (x : Case) : QMove := { move0 x with issued := true }
def issuedS (x : Case) : State := let t := putMove 1 5 1 0 (mI x) (headS x); if opOf x.2.2 = 0x12 then setSxt 1 5 none t else t
def play2 (x : Case) : Play := (getPlay (issuedS x) 1).getD (play0 x)
def issuedOk (x : Case) : Bool :=
  headOk x && decide (x.2.1 = 1) && decide (opOf x.2.2 ≠ 0x13) && decide (sxtOf (play1 x) 5 = none) && decide (getPlay (issuedS x) 1 = some (play2 x)) && decide ((play2 x).order = 1)
theorem issued_of (x : Case) (h : issuedOk x = true) : Issued x.1 (play2 x) 5 (mI x) (fetchS x) (issuedS x) := by
  simp only [issuedOk, Bool.and_eq_true, decide_eq_true_eq] at h
  obtain ⟨⟨⟨⟨⟨h1, h2⟩, h3⟩, h4⟩, h5⟩, h6⟩ := h
  have ho : (play1 x).order = 1 := by
    have := h1
    simp only [headOk, Bool.and_eq_true, decide_eq_true_eq] at this
    exact this.1.1.2
  refine ⟨play1 x, move0 x, headS x, h2 ▸ atHead_of x h1, by rw [ho, h6], h3, .inr h4, by rw [h4]; rfl, by rw [h6]; exact h5, by rw [h6]; rfl⟩
theorem wit_Issued : ∀ x ∈ [cSwapw, cLoadw, cStream], Issued x.1 (play2 x) 5 (mI x) (fetchS x) (issuedS x) ∧ Starts x.1 (play2 x) 5 1 (mI x) (fetchS x) (issuedS x) := by
  intro x hx
  have h : ∀ x ∈ [cSwapw, cLoadw, cStream], issuedOk x = true := by decide +kernel
  exact ⟨issued_of x (h x hx), issued_of x (h x hx)⟩
theorem wit_ArrayChecks : wf cSwapw.2.2 64 192 = 0 ∧ (findPart (issuedS cSwapw) 5 5).isSome = true ∧ encSxt cSxt.2.2 = true ∧ (match startLoadw (play2 cLoadw) (mI cLoadw) (issuedS cLoadw) with
    | .run _ _ => true
    | _ => false) = true := by decide +kernel
theorem wit_Stream : let q : Partition := { org := 5, shape := 5, active := some bank0 }
    let s := issuedS cStream
    findPart s 5 5 = some q ∧ streamCheck s (play2 cStream) q (mI cStream) = none ∧
      (streamCtx (play2 cStream) (mI cStream) s).elim true (fun c => c.closed s || c.spillBad s) = false := by decide +kernel
/-- A LOADW waits for the one before it, not for a SWAPW that has started; a STREAM waits for the rows of the one before it; a WAIT holds the issue of what stands behind it. -/
theorem test_arr_order : arrReady [started cLoadw] 0x10 = false ∧ arrReady [started cSwapw] 0x10 = true ∧ arrReady [started cStream] 0x12 = false ∧ nextArr 0 [started (cWait 1)] [move0 cLoadw] = none := by decide +kernel

def cMove : Case := (.move 5 .none, 3, fw [(0, 0x30), (64, 16 * 2 ^ 24), (114, tileAddr 5 0), (168, 1)])
def cInval : Case := (.inval 5, 7, fw [(0, 0x31), (114, 1), (138, 4)])
def cDispatch : Case := (.dispatch 5, 8, fw [(0, 0x40), (80, 0x1000), (112, 1), (128, 2), (140, 1), (144, 1), (170, 6)])
def cCombine : Case := (.combine 5, 8, fw [(0, 0x41), (80, 0x1000), (96, 0x2000), (112, 1), (128, 2), (140, 1), (144, 1), (156, 6)])
def moverMoves : List Case := [cMove, cInval, cDispatch, cCombine]
theorem wit_MoverMoves : ∀ x ∈ moverMoves, AtHead x.1 (play1 x) 5 x.2.1 (move0 x) (fetchS x) (headS x) ∧ encCommon x.2.2 = true ∧ x.2.1 ≠ 1 := by
  intro x hx
  have h : ∀ x ∈ moverMoves, headOk x = true ∧ encCommon x.2.2 = true ∧ x.2.1 ≠ 1 := by decide +kernel
  exact ⟨atHead_of x (h x hx).1, (h x hx).2⟩
theorem wit_MoverChecks : moveCheck (headS cMove) (play1 cMove) 5 cMove.2.2 = none ∧ moveWaits (headS cMove) cMove.2.2 = false ∧ moveClosed (headS cMove) 5 cMove.2.2 = false ∧
    (match copyUnits (play1 cMove) 5 (move0 cMove) (moveUnits cMove.2.2) [] (headS cMove) with
     | .ok _ _ => true
     | _ => false) = true ∧ encInval cInval.2.2 = true ∧ dispatchCheck (headS cDispatch) (play1 cDispatch) 5 cDispatch.2.2 = none ∧
    combineCheck (headS cCombine) (play1 cCombine) 5 cCombine.2.2 = none ∧ (getX (headS cDispatch) 6).isSome = true := by decide +kernel

theorem wit_MovesComplete : (playOfTile (runningS 3 (started cMove)) 5).isSome = true ∧ canComplete (runningS 3 (started cMove)) (play0 cNop) 5 (started cMove) = true ∧ flushFails (runningS 3 (started cMove)) (started cMove) = none ∧ (started cMove).hit = [] ∧ flushFails up { started cMove with unflushed := some 1 } = some 1 ∧
    canComplete (runningS 8 (started (cWait 1))) (play0 cNop) 5 (started (cWait 1)) = false ∧ wf (cFireat 5).2.2 64 64 ≤ up.cad.ct.toNat ∧
    waitOk up 5 (cWait 0).2.2 = true ∧ wf (fw [(0, 4), (64, 8), (75, 1), (107, 3)]) 107 16 = 3 ∧
    queueHalted up 5 8 = false ∧ waitPos { tile := 5, code := 8, moves := [started (cWait 1)] } = some (0, started (cWait 1)) ∧ waitPos { tile := 5, code := 8, moves := [move0 (cWait 1)] } = none ∧
    waitOk up 5 (cWait 1).2.2 = false ∧ seqHalted up 5 = false ∧ timeTo up.cad.ct up = some up ∧ 3 ≤ (routerCt up 5).toNat / 65536 - 0 := by decide +kernel
/-- A mesh that holds a tie of tile 5 to capstan 6's knot 1. -/
def tieS : State := { up with mesh := [(.queue 5 2, .tie 3 6 1 1 5 2)] }
/-- A word of 32 zeros, and the same with a parity bit of it wrong. -/
def word0 : DataWord := ⟨List.replicate 32 0, 0xFFFFFFFF⟩
def wordBad : DataWord := ⟨List.replicate 32 0, 0xFFFFFFFE⟩
theorem test_parity : wordIntact word0 = true ∧ wordIntact wordBad = false := by decide
theorem wit_RemoteTie : let tie : MeshItem := .tie 3 6 1 1 5 2
    tieS.mesh = [] ++ (.queue 5 2, tie) :: [] ∧ itemClosed tieS tie = false ∧ itemClosed { tieS with xing := { closed := [(8, 10)] } } tie = true ∧
    (playOfTile (runningS 2 (started cTie)) 5).isSome = true ∧ tieS.cap.committed.toNat < (1 : W32).toNat ∧ opOf (started cTie).word = 0x03 ∧ (started cTie).left ≤ 1 := by decide +kernel
/-- A tie that a hop of the mesh loses, its word faulty at the retry too, leaves its knot, and its play is faulted with class 1. -/
theorem test_lost_tie : (match exec (.remoteTieArrival (.queue 5 2) (nodeOf tieS (.tie 3 6 1 1 5 2)) (.hop 5 wordBad)) { runningS 2 (started cTie) with mesh := tieS.mesh } with
    | .next t => t.mesh.isEmpty && knot t (tieKnot 3 6 1 5) == 0 && t.plays.map (fun y => y.faulted) == [some 1]
    | _ => false) = true := by decide +kernel
theorem wit_Ramp : ({ up with rampQueue := [(0, 5, 5)], rampLast := some 936 } : State).rampQueue = [(0, 5, 5)] ∧ 936 + 64 ≤ 1000 ∧ runningOn up 5 5 = none ∧ 1000 < 937 + 64 ∧
    (runningOn (runningS 1 (move0 cStream)) 5 5).isSome = true ∧ (findPart (runningS 1 (move0 cStream)) 5 5).isSome = true ∧ passing up 0 = false ∧
    passing { up with fields := [(0, { passNow := true })] } 0 = true := by decide +kernel
/-- Of two requests of one CT the one of the lower field and origin is first. -/
theorem test_ramp_order : (askRamp { org := 4, shape := 5 } { up with rampQueue := [(up.cad.ct.toNat, 5, 5)] }).rampQueue.map (fun x => x.2.1) = [4, 5] := by decide +kernel
theorem wit_RampPass : isPassBeat 1023 0 1 = true ∧ (getField { up with fields := [(0, { pass := 1 })] } 0).pass = 1 := by decide +kernel
theorem wit_RunLive : runLive up { org := 5, shape := 5, runOpen := true, runFrom := up.cad.ct.toNat } = true ∧ shapeRamped 5 = false ∧ runLive up { org := 5, shape := 5 } = false := by decide +kernel
/-- A MOVE whose word a hop of the mesh discarded. -/
def lostMove : QMove := { started cMove with fault := .parity (.hop 5) wordBad }
theorem wit_Replay : (playOfTile (runningS 3 lostMove) 5).isSome = true ∧ (match runMove (play0 cMove) 5 { lostMove with fault := .none, replayed := true } (runningS 3 lostMove) with
    | .run _ _ => true
    | _ => false) = true ∧ lostWord lostMove = true ∧ lostClass lostMove = 1 ∧ opOf cMove.2.2 = 0x30 ∧ (match replayMove (play0 cMove) 5 lostMove .none (fetchS cMove) with
    | .run _ _ => true
    | _ => false) = true ∧ seqHalted (fetchS cMove) 5 = false ∧ (parityMeets (.hop 5) wordBad 0 1 1 up).1 = true ∧ (parityMeets (.hop 5) word0 0 1 1 up).1 = false := by decide +kernel
/-- A move of tile 5's vectors that reads a word with a failing byte from the tile's store. -/
def cElemParity (w : DataWord) : Case := (.elem 5 (.parity w), cElem.2)
def elemParityOk (w : DataWord) : Bool := headOk (cElemParity w) && (match (move0 (cElemParity w)).fault with
    | .parity pl x => decide (x = w) && (parityMeets pl x 0 1 1 (headS (cElemParity w))).1 == !wordIntact w
    | _ => false) && (match startMoveOf (play1 (cElemParity w)) 5 2 (move0 (cElemParity w)) (headS (cElemParity w)) with
    | .run _ _ => true
    | _ => false)
theorem wit_ParityInPly : ∀ w ∈ [word0, wordBad], elemParityOk w = true ∧ Starts (.elem 5 (.parity w)) (play1 (cElemParity w)) 5 2 (move0 (cElemParity w)) (fetchS (cElemParity w)) (headS (cElemParity w)) := by
  intro w hw
  have h : ∀ w ∈ [word0, wordBad], elemParityOk w = true := by decide +kernel
  have := h w hw
  refine ⟨this, ?_⟩
  simp only [elemParityOk, Bool.and_eq_true] at this
  exact atHead_of (cElemParity w) this.1.1
theorem test_parity_play : (match exec (.elem 5 (.parity wordBad)) (fetchS (cElemParity wordBad)) with
    | .next t => t.plays.map (fun y => y.faulted) == [some 1]
    | _ => false) = true ∧ (match exec (.elem 5 (.parity word0)) (fetchS (cElemParity word0)) with
    | .next t => t.plays.map (fun y => y.faulted) == [none] && t.store.ledger.map (fun r => r.cls) == [1]
    | _ => false) = true := by decide +kernel
theorem wit_EndOfList : (cEnd.last = true) ∧ ¬(opOf cNop.2.2 = 0x01 ↔ 0 + 1 = 1) ∧ cacheRead nearS 5 1 = none ∧ (inRegion nearS 0 128).isSome = true ∧ isRetired nearS 128 = false ∧
    isPoisoned nearS 128 = false ∧ nearWaits nearS 128 = false ∧ xingClosed nearS (tileField 5) 8 = false ∧ xingClosed nearS 9 8 = false := by decide +kernel
theorem wit_MoveRows : dispatcher up 5 = none ∧ ((getQueue (play0 cKset) 5 3).elim [] TileQueue.moves).length < queueDepth 3 ∧ queueDepth 0 = 1 := by decide +kernel

/-! 07: plays, partitions, loans; 10 -/

theorem wit_PlayFire : Serves nearS ∧ checkPacket nearS (pk 0x301 0 (toLE 8 (16 * 2 ^ 24)) [] (5 * 2048 + 2047) 0 8) = none ∧ (8 : BitVec 16).toNat % 8 ≤ 4 ∧
    fireRefusal nearS (pk 0x301 0 [] []) = none ∧ fireRefusal nearS (pk 0x301 0 [] [] 0 (up.cad.ct + 1)) = none := by simp only [serves_iff]; decide +kernel
/-- The image of a one-tile play at the start of region 1: its header and its one tile entry. -/
def image : List Byte := [0x59, 0x41, 0x4C, 0x50, 1, 0, 5, 0, 1, 0, 0, 0] ++ List.replicate 116 0 ++ toLE 8 2 ++ toLE 4 1 ++ toLE 4 0
def dueP : Play := { play0 cNop with image := 16 * 2 ^ 24, state := .due }
def imgS : State := { writeBytes (16 * 2 ^ 24) image nearS with plays := [dueP], parts := [{ org := 5, shape := 5 }] }
theorem wit_PlayStart : nextPlay imgS 5 5 = some dueP ∧ (findPart imgS 5 5).map (fun q => q.busy) = some false ∧ runningOn imgS 5 5 = none ∧ revokeWaits imgS 5 5 = false ∧
    isLender imgS 5 5 = false ∧ startClosed imgS 5 = false ∧ dueP.state = .due ∧ settled imgS = true ∧ dueP.fire.toNat ≤ (routerCt imgS 5).toNat ∧
    rangeWaits imgS dueP.image (imageBytes dueP) = false ∧ (dueP.image % 128 == 0 && imageBad imgS dueP) = false ∧ imageCheck imgS dueP = none ∧ getPlay imgS 1 = some dueP := by decide +kernel
/-- A play whose FIRE has come, but which is not due yet, holds a later one of its partition. -/
theorem wit_NextPlay : let early : Play := { dueP with state := .pending, fire := up.cad.ct, order := 1 }
    let late_ : Play := { dueP with fire := up.cad.ct + 1, order := 2 }
    nextPlay { imgS with plays := [late_, early] } 5 5 = some early ∧ early.state ≠ .due := by decide +kernel
theorem wit_ImageBad : (let s : State := { imgS with near := { imgS.near with retired := [(nearDecode (lookupD {} 1 imgS.regions) dueP.image).1] } }
    dueP.image % 128 == 0 && imageBad s dueP) = true := by decide +kernel
def endedP : Play := { play0 cEnd with seqs := [{ tile := 5, list := 1, count := 1, ended := true }], queues := [] }
def endS (p : Play) : State := { up with plays := [p], parts := [{ org := 5, shape := 5 }] }
theorem wit_PlayEnd : runningOn (endS endedP) 5 5 = some endedP ∧ endedP.live = true ∧ (∀ q ∈ endedP.seqs, q.ended = true) ∧ endedP.cut = none ∧ up.cad.ct.toNat < endedP.deadline.toNat ∧
    hasReplied 1 (endS endedP) = false ∧ (endS endedP).cap.loads = [] ∧ debugTouches (endS endedP) endedP = false ∧
    debugTouches { endS endedP with dbgUnit := { words := [((1 * 4096 + physTile up 5) * 2 ^ 61, 7)] } } endedP = true ∧ ({ endedP with reruns := 1, barred := true } : Play).noRerun = true ∧
    ({ endedP with fail := some { status := Status.moveField, mtag := 0, idx := 0, tile := 5 } } : Play).live = false ∧ quiet (endS endedP) endedP = true ∧
    endedP.step.toNat = up.cap.committed.toNat + 1 := by decide +kernel
def againP : Play := { endedP with rerun := true, faulted := some 4, reruns := 1 }
theorem wit_PlayRerun : runningOn (endS againP) 5 5 = some againP ∧ againP.reruns_ = true ∧ quiet (endS againP) againP = true ∧ getPlay (endS againP) 1 = some againP := by decide +kernel
theorem wit_PlayAbort : let p := pk 0x302 0 (toLE 4 1) [] (5 * 2048 + 5)
    let hit (s : State) := s.plays.filter fun y => y.org == tgtOrg p.tgt && y.shape == tgtShape p.tgt && y.id.toNat == item p.param 0 4 && !y.allEnded
    Admitted 0x0302 p (endS dueP) ∧ hit (endS dueP) = [dueP] ∧ hit (endS endedP) = [] ∧ hit (runningS 2 (started cTie)) = (runningS 2 (started cTie)).plays ∧
      hasReplied 1 (endS dueP) = false := by simp only [Admitted, serves_iff]; decide +kernel
/-- A play with RERUN that a fault stopped, and that waits for its rerun. -/
def waitsP : Play := { play0 cNop with rerun := true, faulted := some 4 }
theorem wit_AbortFaulted : let p := pk 0x302 0 (toLE 4 1) [] (5 * 2048 + 5)
    ((endS waitsP).plays.filter fun y => y.org == tgtOrg p.tgt && y.shape == tgtShape p.tgt && y.id.toNat == item p.param 0 4 && !y.allEnded) = [waitsP] ∧ waitsP.state = .running ∧
    waitsP.faulted.isSome = true ∧ waitsP.fail = none ∧ waitsP.withheld = false ∧ waitsP.reruns_ = true ∧ getPlay (endS waitsP) 1 = some waitsP ∧ againP.dests = [] := by decide +kernel
theorem test_abort_faulted : (match exec (.playAbort (pk 0x302 0 (toLE 4 1) [] (5 * 2048 + 5))) (endS waitsP) with
    | .next t => t.plays.map (fun y => (y.faulted, y.fail.map fun x => x.status)) == [(none, some 0x020C)]
    | _ => false) = true := by decide +kernel
/-- A play whose every END has retired ends as it would; one that waits for an END replies ABORTED. -/
theorem test_abort_ended : (match exec (.playAbort (pk 0x302 0 (toLE 4 1) [] (5 * 2048 + 5))) (endS endedP), exec (.playAbort (pk 0x302 0 (toLE 4 1) [] (5 * 2048 + 5))) (endS dueP) with
    | .next t, .next u => t.plays.length == 1 && t.host.replies.map (fun r => r.status) == [0x020C] && u.plays.isEmpty && u.host.replies.map (fun r => r.status) == [0x020C, 0]
    | _, _ => false) = true := by decide +kernel
theorem wit_Part : let s : State := { up with parts := [{ org := 0, shape := 4 }] }
    Admitted 0x0303 (pk 0x303 0 [5] [] (4 * 2048)) s ∧ partCheck s 0 4 5 none = none := by simp only [Admitted, serves_iff]; decide +kernel
theorem wit_PartComplete : let p := pk 0x303 0 [5] [] (4 * 2048)
    (({ up with parting := [(0, 4, 6, some p)] } : State).parting.find? fun x => x.1 == 0 && x.2.1 == 4) = some (0, 4, 6, some p) ∧ p.rsv = 0 ∧ stepOpcode p.opc = false ∧ inRegionTile 0 4 17 = true := by
  decide +kernel
def twoP : State := { up with parts := [{ org := 0, shape := 5 }, { org := 1, shape := 5 }] }
theorem wit_Loan : let p := pk 0x201 0 ([0, 0] ++ toLE 2 (5 * 2048) ++ toLE 2 (5 * 2048 + 1) ++ [127, 1]) []
    Admitted 0x0201 p twoP ∧ item p.param 2 2 = 5 * 2048 ∧ (findPart twoP 0 5).isSome = true ∧ (findPart twoP 1 5).isSome = true ∧ item p.param 6 1 + item p.param 7 1 ≤ 128 ∧
      inLoan twoP 0 5 = false ∧ playsBefore twoP 0 5 twoP.arrivals twoP.cad.ct = false ∧ twoP.loans.length < 64 := by simp only [Admitted, serves_iff]; decide +kernel
def lent (revoking : Bool) : LoanRec := { id := 3, lendOrg := 0, lendShape := 5, borOrg := 1, borShape := 5, off := 0, len := 128, revoking }
theorem wit_Revoke : let p := pk 0x201 0 ([1, 0] ++ toLE 6 0 ++ toLE 4 3) []
    let s : State := { twoP with loans := [lent false] }
    Admitted 0x0201 p s ∧ (s.loans.find? fun l => l.id == item p.param 8 4) = some (lent false) ∧ runningOn s 1 5 = none ∧ (lent true).revoking = true ∧ (lent false).revokers = [] := by
  simp only [Admitted, serves_iff]; decide +kernel
theorem wit_HintPlace : let p := pk 0x202 0 ([63, 1, 1] ++ toLE 5 0 ++ toLE 8 128 ++ toLE 8 0 ++ toLE 8 4096 ++ toLE 8 4096) []
    Admitted 0x0202 p nearS ∧ item p.param 0 1 = 63 ∧ item p.param 2 1 = 1 ∧ item p.param 8 8 = 128 ∧ item p.param 24 8 % 4096 = 0 ∧ (lookupD {} 1 nearS.regions).valid = true ∧
      (lookupD {} 1 nearS.regions).typ = false := by simp only [Admitted, serves_iff]; decide +kernel

theorem wit_MemoryReadAfterWrite : memWf nearS.mem = true ∧ (memKey nearS (32 * 2 ^ 24 - 1)).isSome = true ∧ memKey nearS (32 * 2 ^ 24) = none ∧ memKey nearS 0 ≠ memKey nearS 1 := by decide +kernel
theorem test_writeKeepsForm : memWf (writeByte 0 0 (writeByte 0 7 nearS)).mem = true ∧ (writeByte 0 0 (writeByte 0 7 nearS)).mem = [] ∧ readByte (writeByte 0 7 nearS) 0 = 7 := by decide +kernel
theorem wit_Interleave : (lookupD {} 1 nearS.regions).first ≤ 16 * 2 ^ 24 ∧ (lookupD {} 1 nearS.regions).spread = false := by decide +kernel
/-- The lower half of an entry of 2^28 bytes from 2^29 on. -/
def reg (v : W64) : Region := regionFrom 16 v
theorem wit_RegionWrite : PrivServed priv nearS ∧ nearS.host.privOpen = true ∧ (reg (BitVec.ofNat 64 (2 ^ 63 + 2 ^ 59 + 2 ^ 29))).valid = true ∧
    regionReason nearS 2 (reg (BitVec.ofNat 64 (2 ^ 63 + 2 ^ 59 + 2 ^ 29))) = none ∧ regionReason nearS 2 (reg (BitVec.ofNat 64 (2 ^ 63 + 2 ^ 59))) = some 4 ∧
    (reg 0).valid = false := by simp only [PrivServed, serves_iff]; decide +kernel
theorem wit_RegionsApart : (1, lookupD {} 1 nearS.regions) ∈ nearS.regions ∧ (lookupD {} 1 nearS.regions).valid = true ∧
    shareChannel (reg (BitVec.ofNat 64 (2 ^ 63 + 2 ^ 29))) (lookupD {} 1 nearS.regions) = true := by decide +kernel
def stackS (x : Stack) : State := { up with near := { units := [(9, x)] } }
/-- Bank 15 of channel 31 of stack 9 with n soft spares used. -/
def softS (n : Nat) : State := { up with store := { up.store with repairs := (List.range n).map fun k => { chan := chanNo up 9 31, bank := 15, row := k } } }
theorem wit_RowRepair : let x : Retired := { stack := 9, chan := 31, bank := 15, row := 32767 }
    x ∉ up.near.retired ∧ bankRepairs (softS 7) (chanNo (softS 7) 9 31) 15 false = 7 ∧ bankRepairs (softS 8) (chanNo (softS 8) 9 31) 15 false = 8 ∧ repairedRows x up = 1 ∧
    repairedRows x (stackS { repaired := (List.range 64).map fun k => 31 * 524288 + k }) = 65 ∧ freeSpares up 9 ≠ [] ∧ copies (stackS { migrating := some 31 }) 9 31 = true ∧
    copies up 9 31 = false ∧ (Instr.rowRepair 9 31 15 32767 true false).wf = true := by decide +kernel
theorem test_rowRepair : (match exec (.rowRepair 9 31 15 32767 true false) (softS 7), exec (.rowRepair 9 31 15 32767 true false) (softS 8) with
    | .next t, .next u => bankRepairs t (chanNo t 9 31) 15 false == 8 && t.near.retired.isEmpty && u.near.retired.length == 1
    | _, _ => false) = true := by decide +kernel
theorem wit_Channels : (getStack up 9).splicing = false ∧ (getStack up 9).migrating = none ∧ freeSpares up 9 = [32, 33] ∧ (getStack (stackS { migrating := some 3 }) 9).migrating = some 3 ∧
    (getStack (stackS { migrating := some 3 }) 9).thermal ≠ .quiesced ∧ (getStack (stackS { migrating := some 3, waiting := [4] }) 9).waiting = [4] ∧
    freeSpares { up with store := { up.store with badChannels := [(physStack up 9, 32), (physStack up 9, 33)] } } 9 = [] := by decide +kernel
theorem wit_Splices : (stackSpare up 9).isSome = true ∧ (stackSpare (stackS { spliced := true }) 8).isSome = false ∧ (getStack (stackS { splicing := true }) 9).splicing = true ∧
    inSlot { up with near := { calSlot := up.cad.ct } } = true ∧ inTurn (up.cad.ct.toNat, 5, 0) { up with near := { calSlot := up.cad.ct } } = true ∧
    inTurn (up.cad.ct.toNat, 5, 0) { up with near := { calSlot := up.cad.ct }, sched := [{ fire := 5, cls := 3, order := 0, packet := pk 1 0 [] [] 0 5 }] } = false ∧ inSlot up = false ∧ (getStack up 9).calChan = 0 ∧ (getStack up 9).calLast = none := by decide +kernel
theorem wit_TurnBoundary : let s : State := { up with cad := { up.cad with ct := 0x0000011C70000000 }, near := { calNext := 0x0000011C70010000 } }
    ctRuns s = true ∧ ctBeat s.cad.ct = 0 ∧ ctTurn 0x0000011C74000000 = ctTurn s.cad.ct + 1 ∧ (0x0000011C74000000 : W64).toNat % 65536 = 0 ∧ ctTurn s.near.calNext = ctTurn s.cad.ct := by
  decide +kernel
/-- The seconds of a turn-long period (a CT step of 4,096 beats, each of 20 s) make a lap overrun a bound of 1 minute. -/
def lapS (b : BitVec 16) : State := { up with
  cad := { up.cad with periodPs := 20 * 10 ^ 12 }
  near := { bound := b, lapStart := some (up.cad.ct - 4 * 65536) }
  cap := { rimBound := b, rimLapStart := some (up.cad.ct - 4 * 65536) } }
theorem wit_Scrub : (getStack up 9).scrubAt = [] ∧ (getStack up 9).thermal ≠ .quiesced ∧ rowAt 9 31 524287 ∉ up.near.retired ∧
    lookupD 0 (31 * 524288) (getStack (stackS { rowHits := [(31 * 524288, 2)] }) 9).rowHits = 2 ∧ repairedRows (rowAt 9 31 0) up ≤ 64 ∧
    lapSeconds (lapS 1) = 80 ∧ ¬lapSeconds (lapS 1) ≤ (1 : BitVec 16).toNat * 60 ∧ lapSeconds (lapS 2) ≤ (2 : BitVec 16).toNat * 60 := by decide +kernel
theorem wit_RimScrub : (getCapstan up 31).failed = false ∧ (getCapstan up 31).rebuilding = false ∧ (getCapstan up 31).scrubAt + 1 < rimUnits ∧ (getCapstan up 31).rimThermal ≠ .quiesced ∧ groupDown up 31 = false ∧ up.cap.rimLapStarved = false ∧ rimLapSeconds (lapS 1) = 80 ∧
    (up.store.rimRepairs.filter fun x => x.die == (getCapstan up 31).die && !x.hard).length = 0 ∧ spareDice up ≠ [] ∧ unconfirmed up 31 = true ∧
    unitBank (rimUnits - 1) = true := by decide +kernel
/-- The number of soft repairs of a rim stack is free: with as many used there is none left, and with one fewer there is one. -/
theorem wit_RimRepairs (n : Nat) (h : Config.rimSoft = n + 1) : let l (k : Nat) : List RimRepair := List.replicate k { die := 31, row := 0 }
    ((l n).filter fun x => x.die == 31 && !x.hard).length < Config.rimSoft ∧ Config.rimSoft ≤ ((l (n + 1)).filter fun x => x.die == 31 && !x.hard).length := by
  simp [h]
theorem test_rimScrub : (match exec (.rimScrub 31 (some (7, .corrected))) up with
    | .next u => u.store.rimRepairs.isEmpty && (getCapstan u 31).rimHits == [(7, 1)]
    | _ => false) = true := by decide +kernel
def temps (n : Int) : List Int := 20 :: List.replicate 15 n
theorem wit_Thermal : (temps 95).length = 16 ∧ (9 : Nat) < 32 := by decide
theorem test_thermal : (match exec (.nsThermal 9 false (temps 95) (temps 95)) up, exec (.nsThermal 9 false (temps 106) (temps 106)) up,
      exec (.nsThermal 9 false (temps 105) (temps 105)) up, exec (.nsThermal 9 false (temps 106) (temps 105)) up with
    | .next t, .next u, .next v, .next w => (getStack t 9).thermal == .t75 && (getStack u 9).thermal == .quiesced && (getStack v 9).thermal == .t75 && (getStack w 9).temp == 20
    | _, _, _, _ => false) = true := by decide +kernel

/-! 16, 20 -/

theorem wit_SelfTest : (3 * 16 + 2) ∈ ({ up with rel := { selfTest := [50], suspects := [{ unit := physId 3 2 5, turn := 0, cls := 2 }] } } : State).rel.selfTest ∧ rowIdle up 3 2 = true ∧ isSuspect { up with rel := { suspects := [{ unit := physId 3 2 5, turn := 18204, cls := 2 }] } } (physId 3 2 5) = true := by
  decide +kernel
def asked : State := { up with rel := { spliceReq := [physId 3 2 5] }, fields := [(3, { tallyRow := 0xFFFB })] }
theorem wit_TileSplice : physId 3 2 5 ∈ asked.rel.spliceReq ∧ spareTile asked 3 2 = false ∧ spareTile { asked with fields := [] } 3 2 = true ∧ rowIdle asked 3 2 = true ∧ physId 3 2 5 ∉ asked.rel.wearReq ∧ physId 3 2 5 ∉ asked.store.badTiles := by decide +kernel
theorem wit_TileWear : isReady up = true ∧ lookup 9 up.store.baseline = none ∧ 9 ∉ up.store.badTiles ∧ 1000 * 6 ≤ (1000 - 940) * 100 ∧ spareTile up (9 / 512) (9 % 512 / 32) = true := by decide +kernel
def stopped (p : Bool) : State := { up with xing := { closed := [(3, 8)] }, fields := [(3, { pllSpare := p })] }
theorem wit_Supplies : 4 ∉ (getField up 3).phasesShed ∧ (getField { up with fields := [(3, { phasesShed := [1, 2] })] } 3).phasesShed.length = 2 ∧
    (∃ p ∈ (stopped true).xing.closed, p.1 = 3 ∨ p.2 = 3) ∧ pllSpare (stopped true) 3 = true ∧ pllSpare (stopped false) 3 = false := by
  refine ⟨by decide, by decide, ⟨(3, 8), by decide⟩, by decide, by decide⟩
theorem wit_Takeover : let s : State := { up with rel := { standby := true, missed := 4, missedBack := 4 } }
    4 ≤ s.rel.missed ∧ 4 ≤ s.rel.missedBack ∧ Calm s ∧ s.cap.armed = none ∧ s.rel.standby = true ∧ standbyHalted s = false ∧ stageDone s 2 = true ∧ s.rel.ccFailed = false ∧ ({ s with rel := { s.rel with ccFailed := true } } : State).rel.ccFailed = true ∧
      up.host.heldWrites = [] ∧ up.bu.state ≠ .running := by simp only [Calm]; decide
theorem wit_TakeoverQuiet : (firstEvent { up with rel := { ccFailed := true } }).isNone = true ∧ (waitingEvents { up with rel := { ccFailed := true } }).isEmpty = true := by decide +kernel

theorem wit_KeyRevoke : let p := pk 0xA01 0 (toLE 8 hostDst ++ toLE 4 5325) []
    Admitted 0x0A01 p up ∧ item p.param 8 4 = 5325 ∧ destOk up (item p.param 0 8) 5325 false = true := by simp only [Admitted, serves_iff]; decide +kernel
theorem wit_TokenRead : (match (engineRead 12 0 (16 * 2 ^ 24) 5325 (arrived nearS)).1 with
    | .got x => x == srcRead nearS (16 * 2 ^ 24) 5325
    | _ => false) = true := by decide +kernel
theorem wit_TokenGone : let s : State := { nearS with xing := { closed := [(12, 9)] } }
    destOk s (16 * 2 ^ 24) 5325 false = true ∧ (match (engineRead 12 0 (16 * 2 ^ 24) 5325 (arrived s)).1 with
      | .gone st => st == Status.clockStopped
      | _ => false) = true := by decide +kernel
/-- A module whose slot 0 holds a key's hash, and whose debug challenge stands. -/
def keyS (key challenge : List Byte) : State := { up with
  store := { up.store with serial := 1, slots := [(0, Config.shake256 key)], revoked := [] }
  dbgUnit := { challenge := some challenge } }
/-- Which signatures verify is not the model's to say: where one does, the token that bears it passes. -/
theorem wit_RevokeToken (t : List Byte) (e : item t 0 8 = 0 ∧ item t 9 1 = 0 ∧ allZero (sliceB t 10 54) = true)
    (h : Config.mlDsaVerify (sliceB t 64 1952) (sliceB t 0 2016) (sliceB t 2016 3309) = true) : revokeOk (keyS (sliceB t 64 1952) []) t = true := by
  simp [revokeOk, signedBy, e, h, keyS, slotRevoked, lookup]
theorem wit_DebugToken (t : List Byte) (e : t.length = 5309 ∧ item t 0 8 = 1 ∧ item t 44 1 = 0)
    (h : Config.mlDsaVerify (sliceB t 48 1952) (sliceB t 0 2000) (sliceB t 2000 3309) = true) : tokenOk (keyS (sliceB t 48 1952) (sliceB t 8 32)) t = true := by
  simp [tokenOk, signedBy, e, h, keyS, slotRevoked, lookup]
theorem wit_TokenBytes : (let t : List Byte := List.replicate 5325 0
    item t 0 8 = 0 ∧ item t 9 1 = 0 ∧ allZero (sliceB t 10 54) = true) ∧ (let t : List Byte := [1] ++ List.replicate 5308 0
    t.length = 5309 ∧ item t 0 8 = 1 ∧ item t 44 1 = 0) := by decide +kernel
theorem wit_Rollback : let s : State := { up with bu := { up.bu with images := [(4, { kind := 4, arb := 64, meas := [] })] } }
    let p := pk 0xA02 0 [4, 64] []
    Admitted 0x0A02 p s ∧ item p.param 0 1 = 4 ∧ item p.param 1 1 ≤ 64 ∧ (lookup 4 s.bu.images).map (fun x => x.arb) = some 64 := by simp only [Admitted, serves_iff]; decide +kernel
theorem test_rollback : (match exec (.rollbackSet (pk 0xA02 0 [4, 64] [])) { up with bu := { up.bu with images := [(4, { kind := 4, arb := 64, meas := [] })] } } with
    | .next t => lookupD 0 4 t.store.arb == 64 && t.host.replies.map (fun r => (r.status, r.detail)) == [(0, 64)]
    | _ => false) = true := by decide +kernel
theorem wit_DebugLock : Admitted 0x0A03 (pk 0xA03 0 [] []) up ∧ (getPcie { up with host := { ports := [(0, { perst := false })] } } 0).perst = false ∧
    ({ up with pins := { pwrOk := true } } : State).pins.pwrOk = true := by simp only [Admitted, serves_iff]; decide +kernel
theorem wit_Unlock : up.dbgUnit.opened = false ∧ up.dbgUnit.challenge = none ∧ item (List.replicate 5309 (0 : Byte)) 0 8 ≠ ({ up with store := { serial := 1 } } : State).store.serial.toNat := by decide +kernel
def dbg (kind unit : Nat) (halted : List Nat) : State := { up with dbgUnit := { opened := true, scope := 15, kind, unit, halted } }
theorem wit_Debug : dbgOpen (dbg 1 17 []) = true ∧ 17 ≤ (dbg 1 17 []).dbgUnit.unit % 32 ∧ (dbg 1 16 []).dbgUnit.unit % 32 < 17 ∧ PrivServed priv (dbg 3 23 []) ∧ dbgOpen up = false ∧ dbgOpen (dbg 3 23 []) = true ∧ dbgExists (dbg 3 23 []) = true ∧ dbgActive (dbg 3 23 []) = false ∧
    dbgActive (dbg 0 0 []) = true ∧ dbgKey (dbg 3 23 []) ∉ (dbg 3 23 []).dbgUnit.halted ∧ dbgKey (dbg 3 23 [12311]) ∈ (dbg 3 23 [12311]).dbgUnit.halted := by simp only [PrivServed, serves_iff]; decide +kernel


end Sys2Proof.Tests
end

section
/-! SUPPORT. The moves of a list and a FIREAT's hold (R171, R192): what updating one play leaves to be found, what the rows of dispatch do, and how
FIREAT_RELEASE lets a held list go on. -/

namespace Sys2Proof.Machine

/-! ### A play updated in place -/

/-- The play with one queue changed. -/
def Play.onQueue (p : Play) (tile code : Nat) (f : TileQueue → TileQueue) : Play :=
  { p with queues := p.queues.map fun q => if q.tile = tile && q.code = code then f q else q }

/-- The play with a tile's sequencer past its move. -/
def Play.pastMove (p : Play) (tile : Nat) : Play :=
  { p with seqs := p.seqs.map fun q => if q.tile = tile then { q with next := q.next + 1 } else q }

/-- The play runs and its partition holds a tile. -/
def Play.runsOn (p : Play) (tile : Nat) : Bool := p.state == .running && p.seqs.any fun q => q.tile == tile

@[simp] theorem Play.onQueue_order (p : Play) (tile code : Nat) (f : TileQueue → TileQueue) : (p.onQueue tile code f).order = p.order := rfl
@[simp] theorem Play.pastMove_order (p : Play) (tile : Nat) : (p.pastMove tile).order = p.order := rfl
@[simp] theorem Play.onQueue_runsOn (p : Play) (tile code l : Nat) (f : TileQueue → TileQueue) :
    (p.onQueue tile code f).runsOn l = p.runsOn l := rfl

@[simp] theorem Play.pastMove_runsOn (p : Play) (tile l : Nat) : (p.pastMove tile).runsOn l = p.runsOn l := by
  have keepsTile (q : Sequencer) : (if q.tile = tile then { q with next := q.next + 1 } else q).tile = q.tile := by split <;> rfl
  simp only [Play.runsOn, Play.pastMove, List.any_map, Function.comp_def, keepsTile]

theorem order_of_getPlay {s : State} {order : Nat} {p : Play} (h : getPlay s order = some p) : p.order = order := by
  simpa using List.find?_some h

theorem runsOn_of_playOfTile {s : State} {tile : Nat} {p : Play} (h : playOfTile s tile = some p) : p.runsOn tile = true :=
  List.find?_some (p := fun x : Play => x.runsOn tile) h

/-- Replacing the plays of one order leaves the new play where a search found the old one. -/
theorem find?_replacePlay {l : List Play} {P : Play → Bool} {p q : Play} (h : l.find? P = some p) (ho : p.order = q.order) (hq : P q = true) :
    (l.map fun x => if x.order = q.order then q else x).find? P = some q := by
  induction l with
  | nil => simp at h
  | cons x l ih =>
    by_cases hx : P x = true
    · obtain rfl : x = p := by simpa [hx] using h
      simp [ho, hq]
    · have hl : l.find? P = some p := by simpa [hx] using h
      by_cases hxo : x.order = q.order
      · simp [hxo, hq]
      · simpa [hxo, hx] using ih hl

theorem getPlay_setPlay {s : State} {p q : Play} (h : getPlay s q.order = some p) : getPlay (setPlay q s) q.order = some q :=
  find?_replacePlay h (order_of_getPlay h) (by simp)

theorem playOfTile_setPlay {s : State} {tile : Nat} {p q : Play} (h : playOfTile s tile = some p) (ho : p.order = q.order)
    (hq : q.runsOn tile = true) : playOfTile (setPlay q s) tile = some q :=
  find?_replacePlay h ho hq

theorem modQueue_eq {s : State} {p : Play} (h : getPlay s p.order = some p) (tile code : Nat) (f : TileQueue → TileQueue) :
    modQueue p.order tile code f s = setPlay (p.onQueue tile code f) s := by
  simp only [modQueue, h, Play.onQueue]

theorem stepSeq_eq {s : State} {p : Play} (h : getPlay s p.order = some p) (tile : Nat) : stepSeq p.order tile s = setPlay (p.pastMove tile) s := by
  simp only [stepSeq, h, Play.pastMove]

theorem getQueue_onQueue {p : Play} {tile code : Nat} {x : TileQueue} {f : TileQueue → TileQueue} (h : getQueue p tile code = some x)
    (keeps : ∀ q, (f q).tile = q.tile ∧ (f q).code = q.code) : getQueue (p.onQueue tile code f) tile code = some (f x) := by
  obtain ⟨htile, hcode⟩ : x.tile = tile ∧ x.code = code := by simpa using List.find?_some h
  have same (q : TileQueue) : ((if q.tile = tile && q.code = code then f q else q).tile == tile &&
      (if q.tile = tile && q.code = code then f q else q).code == code) = (q.tile == tile && q.code == code) := by
    split <;> simp [keeps]
  have found : p.queues.find? (fun q => q.tile == tile && q.code == code) = some x := h
  simp only [getQueue, Play.onQueue, List.find?_map, Function.comp_def, same, found, Option.map_some]
  simp [htile, hcode]

/-! ### Bytes of a unit -/

theorem readBytes_length (s : State) (a n : Nat) : (readBytes s a n).length = n := by
  induction n generalizing a with
  | zero => rfl
  | succ n ih => simp [readBytes, ih]

theorem readBytes_drop (s : State) (a k n : Nat) : (readBytes s a (k + n)).drop k = readBytes s (a + k) n := by
  induction k generalizing a with
  | zero => simp
  | succ k ih => rw [Nat.add_right_comm, readBytes, List.drop_succ_cons, ih, Nat.add_assoc, Nat.add_comm 1 k]

theorem readBytes_take (s : State) (a n k : Nat) : (readBytes s a (n + k)).take n = readBytes s a n := by
  induction n generalizing a with
  | zero => simp [readBytes]
  | succ n ih => rw [Nat.add_right_comm, readBytes, List.take_succ_cons, ih, readBytes]

/-- An item that lies inside the bytes read is the number read at its own address. -/
theorem item_readBytes (s : State) (a o n r : Nat) : item (readBytes s a (o + (n + r))) o n = readN s (a + o) n := by
  simp [item, sliceB, readN, readBytes_drop, readBytes_take, readBytes_length]

/-! ### Dispatch -/

theorem exec_moveRow {c : Instr} {op tile : Nat} {f : MoveFault} (h : moveRow c = some (op, tile, f)) (s : State) :
    exec c s = .next (dispatchRow op tile f s) := by
  cases c <;> cases h <;> rfl

theorem opLegal_of_moveRow {c : Instr} {op tile : Nat} {f : MoveFault} (h : moveRow c = some (op, tile, f)) : opLegal op = true := by
  cases c <;> cases h <;> rfl

/-- A sequencer that may dispatch belongs to the live play that runs on its tile, and the debug unit has not halted it. -/
theorem of_dispatcher {s : State} {tile : Nat} {p : Play} {q : Sequencer} (h : dispatcher s tile = some (p, q)) :
    playOfTile s tile = some p ∧ p.live = true ∧ seqHalted s tile = false := by
  simp only [dispatcher, Option.bind_eq_some_iff] at h
  obtain ⟨p', hp, q', -, h⟩ := h
  split at h
  · rename_i ready
    obtain ⟨rfl, rfl⟩ : p' = p ∧ q' = q := by simpa using h
    simp only [Bool.and_eq_true, Bool.not_eq_true'] at ready
    obtain ⟨⟨⟨⟨live, -⟩, -⟩, -⟩, free⟩ := ready
    exact ⟨hp, live, free⟩
  · cases h

/-- While a tile's queue 0 holds a move, its sequencer dispatches nothing. -/
theorem dispatcher_of_seqBusy {s : State} {tile : Nat} {p : Play} {x : TileQueue} (hp : playOfTile s tile = some p)
    (hx : getQueue p tile 0 = some x) (busy : x.moves ≠ []) : dispatcher s tile = none := by
  have held : x.moves.isEmpty = false := by simpa using busy
  simp [dispatcher, hp, hx, held]

theorem dispatchRow_of_none {op tile : Nat} {f : MoveFault} {s : State} (h : dispatcher s tile = none) : dispatchRow op tile f s = s := by
  simp only [dispatchRow, h]

/-- An END before the end of its list, or a last move that is not END, ends the play at its fetch. -/
theorem dispatchRow_of_misplacedEnd {op tile : Nat} {f : MoveFault} {p : Play} {q : Sequencer} {w : MoveWord} {s s₁ : State}
    (hd : dispatcher s tile = some (p, q)) (hf : fetchMove p q s = .word w s₁) (hop : opOf w = op) (legal : opLegal op = true)
    (misplaced : ¬(op = 0x01 ↔ q.next + 1 = q.count)) :
    dispatchRow op tile f s = failPlay p.order (moveFailure
      (if encMoveWord (128 * shapeRows p.shape) w && (queueOf w).isSome then Status.playFormat else Status.moveField)
      { word := w, idx := q.next, frame := {} } tile) s₁ := by
  have ne : (op = 0x01) ≠ (q.next + 1 = q.count) := fun e => misplaced (iff_of_eq e)
  simp only [dispatchRow, hd, hf, hop, legal, ne, Bool.not_true, Bool.false_eq_true, if_false, ne_eq, not_true_eq_false, not_false_eq_true, if_true]

/-- A move that the sequencer itself executes, well formed and fetched by its row, is executed at once. -/
theorem Fetches.exec_seqMove {c : Instr} {p : Play} {q : Sequencer} {m : QMove} {tile code : Nat} {s s₁ : State}
    (h : Fetches c p q m tile code s s₁) (own : opOf m.word ∈ [0x00, 0x01, 0x02, 0x06])
    (formed : encMoveWord (128 * shapeRows p.shape) m.word = true) : exec c s = .next (seqMove p tile m s₁) := by
  have placed : ¬((opOf m.word = 0x01) ≠ (q.next + 1 = q.count)) := not_not.mpr (propext h.last)
  have onLead : ((decide (code = 1) || leadOnly (opOf m.word)) && !(tile == p.org)) = false := by
    by_cases lead : tile = p.org
    · simp [lead]
    · simpa [lead] using mt h.lead lead
  have now : (decide (opOf m.word = 0x00) || decide (opOf m.word = 0x01) || decide (opOf m.word = 0x02) || decide (opOf m.word = 0x06)) = true := by
    simpa [or_assoc] using own
  rw [exec_moveRow h.row]
  simp only [dispatchRow, h.seq, h.word, opLegal_of_moveRow h.row, placed, h.queue, onLead, formed, now, ← h.fresh, Bool.not_true,
    Bool.false_eq_true, if_false, ne_eq, not_true_eq_false, if_true]

theorem plays_of_fetched {p : Play} {q : Sequencer} {w : MoveWord} {s s₁ : State} (h : fetchMove p q s = .word w s₁) :
    s₁.plays = s.plays ∧ s₁.dbgUnit = s.dbgUnit ∧ s₁.rel = s.rel := by
  have frame := fetchMove_frame p q s
  rw [h] at frame
  exact ⟨frame .plays (by decide), frame .dbgUnit (by decide), frame .rel (by decide)⟩

/-! ### The failure of a live play -/

theorem failPlay_of_live {s : State} {p : Play} (h : getPlay s p.order = some p) (live : p.live = true) (f : Failure) :
    failPlay p.order f s = setPlay { stopPlay p with fail := some f } s := by
  have found : (s.plays.find? fun x => x.order == p.order) = some p := h
  simp only [Play.live, Bool.and_eq_true, Bool.not_eq_true', Option.isNone_iff_eq_none] at live
  obtain ⟨⟨⟨-, noFail⟩, noFault⟩, open_⟩ := live
  simp [failPlay, found, noFail, noFault, open_]

/-- A command that fails a move of a live play ends the play with that status, and changes nothing but the play. -/
theorem FailsWith.of_failPlay {c : Instr} {p : Play} {tile : Nat} {m : QMove} {st : BitVec 16} {s s₁ : State}
    (h : getPlay s₁ p.order = some p) (live : p.live = true) (runs : exec c s = .next (failPlay p.order (moveFailure st m tile) s₁)) :
    FailsWith c p tile m st s s₁ := by
  let y : Play := { stopPlay p with fail := some (moveFailure st m tile) }
  have stopped : ∀ z ∈ y.seqs, z.stopped = true := by
    intro z hz
    obtain ⟨q, -, rfl⟩ := List.mem_map.mp hz
    rfl
  rw [failPlay_of_live h live] at runs
  exact ⟨_, y, runs, getPlay_setPlay (q := y) h, rfl, stopped, setPlay_frame y s₁⟩

/-! ### FIREAT -/

/-- The play past a FIREAT that its tile's queue 0 holds. -/
def Play.holdFireat (p : Play) (tile : Nat) (m : QMove) : Play :=
  (p.pastMove tile).onQueue tile 0 fun x => { x with moves := [{ m with started := true }] }

theorem seqMove_fireat_past {p : Play} {tile : Nat} {m : QMove} {s : State} (op : opOf m.word = 0x02)
    (past : wf m.word 64 64 ≤ (routerCt s tile).toNat) : seqMove p tile m s = makeTie p tile m.word (stepSeq p.order tile s) := by
  simp only [seqMove, op, past, if_true]

theorem seqMove_fireat_ahead {p : Play} {tile : Nat} {m : QMove} {s : State} (h : getPlay s p.order = some p) (op : opOf m.word = 0x02)
    (ahead : (routerCt s tile).toNat < wf m.word 64 64) :
    seqMove p tile m s = setPlay (p.holdFireat tile m) (setPlay (p.pastMove tile) s) := by
  have stepped : getPlay (setPlay (p.pastMove tile) s) (p.pastMove tile).order = some (p.pastMove tile) := getPlay_setPlay (q := p.pastMove tile) h
  simp only [seqMove, op, Nat.not_le.mpr ahead, if_false, stepSeq_eq h]
  exact modQueue_eq stepped tile 0 _

/-- Play p runs on a tile whose sequencer, not halted, stands at the FIREAT m. -/
structure HoldsFireat (p : Play) (tile : Nat) (m : QMove) (s : State) : Prop where
  runs : playOfTile s tile = some p
  entry : getPlay s p.order = some p
  queue : ∃ x, getQueue p tile 0 = some x ∧ x.moves = [m]
  op : opOf m.word = 0x02
  free : seqHalted s tile = false

section
variable {p : Play} {tile : Nat} {m : QMove} {s t : State}

/-- CT and the crossings do not take a FIREAT out of its queue. -/
theorem HoldsFireat.of_frame (h : HoldsFireat p tile m s) (k : OnlyChanges [.cad, .xing] s t) : HoldsFireat p tile m t := by
  have plays : t.plays = s.plays := k .plays (by decide)
  have dbg : t.dbgUnit = s.dbgUnit := k .dbgUnit (by decide)
  have rel : t.rel = s.rel := k .rel (by decide)
  obtain ⟨runs, entry, queue, op, free⟩ := h
  refine ⟨?_, ?_, queue, op, ?_⟩
  · rwa [playOfTile, plays]
  · rwa [getPlay, plays]
  · rwa [seqHalted, physTile, physCol, dbg, rel]

theorem HoldsFireat.of_timeTo {v : CtWord} (h : HoldsFireat p tile m s) (reached : timeTo v s = some t) : HoldsFireat p tile m t := by
  have frame := timeTo_frame v s
  rw [reached] at frame
  exact h.of_frame (OnlyChanges.mono frame (by decide))

theorem HoldsFireat.moveRow_waits {c : Instr} {op : Nat} {f : MoveFault} (h : HoldsFireat p tile m s) (row : moveRow c = some (op, tile, f)) :
    exec c s = .next s := by
  obtain ⟨x, hx, hmoves⟩ := h.queue
  rw [exec_moveRow row, dispatchRow_of_none (dispatcher_of_seqBusy h.runs hx (by simp [hmoves]))]

theorem HoldsFireat.release_unreached (h : HoldsFireat p tile m s) (late : timeTo (BitVec.ofNat 64 (wf m.word 64 64)) s = none) :
    exec (.fireatRelease tile) s = .next s := by
  obtain ⟨⟨l, c, _, fr⟩, hx, rfl⟩ := h.queue
  show execFireatRelease tile s = _
  simp [execFireatRelease, h.runs, hx, h.op, late]

theorem HoldsFireat.release_early (h : HoldsFireat p tile m s) (reached : timeTo (BitVec.ofNat 64 (wf m.word 64 64)) s = some t)
    (ahead : (routerCt t tile).toNat < wf m.word 64 64) : exec (.fireatRelease tile) s = .next s := by
  obtain ⟨⟨l, c, _, fr⟩, hx, rfl⟩ := h.queue
  show execFireatRelease tile s = _
  simp [execFireatRelease, h.runs, hx, h.op, reached, ahead]

theorem HoldsFireat.release_reached (h : HoldsFireat p tile m s) (reached : timeTo (BitVec.ofNat 64 (wf m.word 64 64)) s = some t)
    (past : wf m.word 64 64 ≤ (routerCt t tile).toNat) : exec (.fireatRelease tile) s = .next (completeMove p tile 0 0 m t) := by
  obtain ⟨⟨l, c, _, fr⟩, hx, rfl⟩ := h.queue
  show execFireatRelease tile s = _
  simp [execFireatRelease, h.runs, hx, h.op, h.free, reached, past]

/-- A queue that is empty starts nothing. -/
theorem pump_of_empty {order code : Nat} {x : TileQueue} (hp : getPlay s order = some p) (hx : getQueue p tile code = some x) (empty : x.moves = [])
    (notArr : code ≠ 1) : pump order tile code s = s := by
  simp only [pump, notArr, if_false, pumpHead, hp, hx, empty]

/-- A completed FIREAT leaves its tile's queue 0 empty, so that the sequencer can dispatch. -/
theorem HoldsFireat.completed (h : HoldsFireat p tile m s) :
    ∃ y z, getPlay (completeMove p tile 0 0 m s) p.order = some y ∧ getQueue y tile 0 = some z ∧ z.moves = [] := by
  obtain ⟨x, hx, hmoves⟩ := h.queue
  let y : Play := p.onQueue tile 0 fun q => { q with moves := q.moves.eraseIdx 0 }
  let u : State := makeTie p tile m.word (setPlay y s)
  have dropped : dropMove p.order tile 0 0 s = setPlay y s := modQueue_eq h.entry tile 0 _
  have plays : u.plays = (setPlay y s).plays := makeTie_frame p tile m.word _ .plays (by decide)
  have entry : getPlay u p.order = some y := by
    rw [getPlay, plays]
    exact getPlay_setPlay (q := y) h.entry
  have queue : getQueue y tile 0 = some { x with moves := x.moves.eraseIdx 0 } := getQueue_onQueue hx fun _ => ⟨rfl, rfl⟩
  have empty : x.moves.eraseIdx 0 = [] := by simp [hmoves]
  have completes : completeMove p tile 0 0 m s = u := by
    simp only [completeMove, wrapUp, h.op, dropped]
    exact pump_of_empty entry queue empty (by decide)
  exact ⟨y, _, completes ▸ entry, queue, empty⟩

end

theorem Fetches.op_fireat {p : Play} {q : Sequencer} {m : QMove} {tile l code : Nat} {s s₁ : State} (h : Fetches (.fireat l) p q m tile code s s₁) :
    opOf m.word = 0x02 :=
  (congrArg Prod.fst (Option.some.inj h.row)).symm

/-- A FIREAT ahead of its tile's copy of CT is held from its dispatch on. -/
theorem Fetches.holdsFireat {p : Play} {q : Sequencer} {m : QMove} {tile : Nat} {s s₁ : State} (h : Fetches (.fireat tile) p q m tile 0 s s₁)
    (op : opOf m.word = 0x02) (hasQueue : (getQueue p tile 0).isSome = true) :
    HoldsFireat (p.holdFireat tile m) tile { m with started := true } (setPlay (p.holdFireat tile m) (setPlay (p.pastMove tile) s₁)) := by
  obtain ⟨runs, -, free⟩ := of_dispatcher h.seq
  obtain ⟨plays, dbg, rel⟩ := plays_of_fetched h.word
  obtain ⟨x, hx⟩ := Option.isSome_iff_exists.mp hasQueue
  have here : p.runsOn tile = true := runsOn_of_playOfTile runs
  have runs₁ : playOfTile s₁ tile = some p := by rwa [playOfTile, plays]
  refine ⟨?_, ?_, ⟨_, getQueue_onQueue hx fun _ => ⟨rfl, rfl⟩, rfl⟩, op, ?_⟩
  · have stepped : playOfTile (setPlay (p.pastMove tile) s₁) tile = some (p.pastMove tile) := playOfTile_setPlay runs₁ rfl (by simpa using here)
    exact playOfTile_setPlay stepped rfl (by simpa [Play.holdFireat] using here)
  · have stepped : getPlay (setPlay (p.pastMove tile) s₁) (p.pastMove tile).order = some (p.pastMove tile) :=
      getPlay_setPlay (q := p.pastMove tile) h.own
    exact getPlay_setPlay (q := p.holdFireat tile m) stepped
  · simpa [seqHalted, physTile, physCol, dbg, rel] using free

/-! ### The claims -/

theorem fetchMove_of_cached {p : Play} {q : Sequencer} {d : List Byte} {s s₁ : State}
    (h : cacheRead s q.tile ((p.image + q.list * 128 + 32 * q.next) / 128) = some (d, s₁)) :
    fetchMove p q s = .word (BitVec.ofNat 256 (item d ((p.image + q.list * 128 + 32 * q.next) % 128) 32)) s₁ := by
  simp only [fetchMove, h]

/-- Without a line-cache copy the unit is read and kept, and the move lies inside it. -/
theorem fetchMove_of_uncached {p : Play} {q : Sequencer} {s : State} {a : Nat} (ha : a = p.image + q.list * 128 + 32 * q.next)
    (inside : a % 128 + 32 ≤ 128) (uncached : cacheRead s q.tile (a / 128) = none) (mapped : (inRegion s (a / 128 * 128) 128).isSome = true)
    (tileOpen : xingClosed s (tileField q.tile) 8 = false) (nearOpen : xingClosed s 9 8 = false) (serves : nearWaits s a = false)
    (kept : isRetired s a = false) (clean : isPoisoned s a = false) :
    fetchMove p q s = .word (BitVec.ofNat 256 (readN s a 32)) (cacheFill q.tile (a / 128) (readBytes s (a / 128 * 128) 128) s) := by
  have read : item (readBytes s (a / 128 * 128) 128) (a % 128) 32 = readN s a 32 := by
    have whole : 128 = a % 128 + (32 + (96 - a % 128)) := by omega
    have start : a / 128 * 128 + a % 128 = a := Nat.div_add_mod' a 128
    calc item (readBytes s (a / 128 * 128) 128) (a % 128) 32
        = item (readBytes s (a / 128 * 128) (a % 128 + (32 + (96 - a % 128)))) (a % 128) 32 := by rw [← whole]
      _ = readN s a 32 := by rw [item_readBytes, start]
  have mapped' : (inRegion s (a / 128 * 128) 128).isNone = false := by simpa using mapped
  simp only [fetchMove, ← ha, uncached, mapped', tileOpen, nearOpen, serves, kept, clean, read, Bool.or_self, Bool.false_eq_true, if_false]

theorem listsEndWithEnd : Claim.ListsEndWithEnd := by
  refine ⟨fun p q s aligned => ?_, fun c op tile f p q w s s₁ row hd hf hop entry misplaced => ?_⟩
  · intro a
    refine ⟨fun d s₁ => fetchMove_of_cached, fun uncached mapped open₈ open₉ serves kept clean => ?_⟩
    have inside : a % 128 + 32 ≤ 128 := by omega
    exact ⟨_, fetchMove_of_uncached rfl inside uncached mapped open₈ open₉ serves kept clean⟩
  · have runs := exec_moveRow row s
    rw [dispatchRow_of_misplacedEnd hd hf hop (opLegal_of_moveRow row) misplaced] at runs
    obtain ⟨-, live, -⟩ := of_dispatcher hd
    intro m formed
    refine ⟨rfl, fun ok => ?_, fun ok => ?_⟩
    · rw [if_pos ok] at runs
      exact .of_failPlay entry live runs
    · rw [if_neg (Bool.eq_false_iff.mp ok)] at runs
      exact .of_failPlay entry live runs

theorem fireatHoldsItsList : Claim.FireatHoldsItsList := by
  intro p q m tile s s₁ fetched hasQueue formed
  have op : opOf m.word = 0x02 := fetched.op_fireat
  have runs : exec (.fireat tile) s = .next (seqMove p tile m s₁) := fetched.exec_seqMove (by simp [op]) formed
  intro v
  refine ⟨fun ahead => ?_, fun past => ?_⟩
  · have held := fetched.holdsFireat op hasQueue
    rw [seqMove_fireat_ahead fetched.own op ahead] at runs
    refine ⟨_, runs, fun c op' f row => held.moveRow_waits row, fun cad xing => ?_⟩
    intro u
    have heldNow := held.of_frame (only_xing (only_cad (.refl _ _) cad (by decide)) xing (by decide) : OnlyChanges [.cad, .xing] _ u)
    refine ⟨heldNow.release_unreached, fun u' reached => ⟨heldNow.release_early reached, fun past => ?_⟩⟩
    obtain ⟨y, z, entry, queue, empty⟩ := (heldNow.of_timeTo reached).completed
    exact ⟨_, y, z, heldNow.release_reached reached past, entry, queue, empty⟩
  · rw [seqMove_fireat_past op past] at runs
    have frame : OnlyChanges [.knots, .plays] s₁ (makeTie p tile m.word (stepSeq p.order tile s₁)) :=
      ((stepSeq_frame p.order tile s₁).mono (by decide)).step (makeTie_frame p tile m.word _) (by decide)
    exact ⟨_, runs, rfl, frame .host (by decide)⟩

/-- Settles O29: a misplaced END fails its live play, and a FIREAT ahead of its tile's copy of CT keeps queue 0 busy until FIREAT_RELEASE completes it. -/
theorem listsEndAndFireatHolds : Obligations.ListsEndAndFireatHolds :=
  ⟨listsEndWithEnd, fireatHoldsItsList⟩

end Sys2Proof.Machine
end

section
/-! SUPPORT. The reduction of the norm (R318) and the apply of a trainable entry (R322): words of module memory above the near tier, where an entry's words
stand in the two banks, what an element becomes, and how squares part an entry. -/

namespace Sys2Proof.Machine

/-! ### The reduction of the norm (R318) -/

/-- With no reduction left over from an earlier commit, NORM_REDUCTION is the armed commit's. -/
theorem exec_normReduction_of_armed {a : Armed} {s : State} (noNorm : s.cap.norm = none) (armed : s.cap.armed = some a) :
    exec .normReduction s = if haveAllP a && !a.normDone then .next (setArmed (normOf a) s) else .next s := by
  show execNormReduction s = _
  simp only [execNormReduction, noNorm, armed]

/-- Settles O14: with every P and no T yet the armed commit becomes `normOf` of itself; else nothing changes. -/
theorem reductionFormsNorm : Obligations.ReductionFormsNorm := by
  intro a s noNorm armed t g q one
  rw [exec_normReduction_of_armed noNorm armed]
  refine ⟨fun all undone => ?_, fun waits => if_neg ?_⟩
  · rw [if_pos (by simp [all, undone])]
    simp only [setArmed, normOf, Bool.and_eq_true]
    rfl
  · rcases waits with missing | done
    · simp [missing]
    · simp [done]

/-! ### Little-endian words -/

theorem toLE_length (n x : Nat) : (toLE n x).length = n := by
  induction n generalizing x with
  | zero => rfl
  | succ n ih => simp [toLE, ih]

theorem ofLE_toLE (n x : Nat) : ofLE (toLE n x) = x % 256 ^ n := by
  induction n generalizing x with
  | zero => simp [toLE, ofLE, Nat.mod_one]
  | succ n ih => rw [toLE, ofLE, ih, BitVec.toNat_ofNat, Nat.pow_succ' (m := 256), Nat.mod_mul]

/-! ### Places of module memory above the near tier (R216) -/

/-- The interleave names a stack below 1,024 and a channel below 32 (R275). -/
theorem nearDecode_lt (r : Region) (a : Nat) : (nearDecode r a).1.stack < 1024 ∧ (nearDecode r a).1.chan < 32 := by
  have field := r.field.isLt
  cases spread : r.spread
  · have mixed : ((a - r.first) / 512 % 4096 ^^^ (a - r.first) / 512 / 4096 % 4096) < 2 ^ 12 :=
      Nat.xor_lt_two_pow (Nat.mod_lt _ (by decide)) (Nat.mod_lt _ (by decide))
    simp only [nearDecode, spread, Bool.false_eq_true, if_false]
    omega
  · have mixed : ((a - r.first) / 512 % 32768 ^^^ (a - r.first) / 512 / 32768 % 32768) < 2 ^ 15 :=
      Nat.xor_lt_two_pow (Nat.mod_lt _ (by decide)) (Nat.mod_lt _ (by decide))
    simp only [nearDecode, spread, if_true]
    omega

theorem memKey_lt_of_near {s : State} {a k : Nat} (near : a < nearEnd) (h : memKey s a = some k) : k < nearEnd := by
  simp only [memKey, near, if_true, Option.map_eq_some_iff] at h
  obtain ⟨⟨-, r⟩, -, rfl⟩ := h
  obtain ⟨stack, chan⟩ := nearDecode_lt r a
  simp only [nearEnd]
  omega

theorem memKey_of_far {a : Nat} (far : nearEnd ≤ a) (s : State) : memKey s a = some a := by
  simp only [memKey, Nat.not_lt.mpr far, if_false]

/-- No other address shares the place of one above the near tier. -/
theorem memKey_ne_of_far {a b : Nat} (far : nearEnd ≤ a) (ne : b ≠ a) (s : State) : memKey s b ≠ memKey s a := by
  rw [memKey_of_far far]
  intro same
  rcases Nat.lt_or_ge b nearEnd with near | far'
  · exact Nat.not_lt.mpr far (memKey_lt_of_near near same)
  · exact ne (Option.some.inj (memKey_of_far far' s ▸ same))

/-- Bytes written above the near tier read back. -/
theorem readBytes_writeBytes_self {a : Nat} {s : State} (l : List Byte) (hs : Inv s) (far : nearEnd ≤ a) :
    readBytes (writeBytes a l s) a l.length = l := by
  induction l generalizing a s with
  | nil => rfl
  | cons b l ih =>
    have first : readByte (writeBytes (a + 1) l (writeByte a b s)) a = b := by
      rw [readByte_writeBytes_ne l (a + 1) _ fun i _ => memKey_ne_of_far (far_add (far_add far 1) i) (by omega) _]
      exact readByte_writeByte_self hs (by simp [memKey_of_far far])
    simp only [writeBytes, List.length_cons, readBytes, first, ih (inv_writeByte hs) (far_add far 1)]

/-! ### Words of module memory above the near tier -/

/-- A byte address lies outside the word at an address. -/
def OutsideWord (a x : Nat) : Prop := x < a ∨ a + 4 ≤ x

theorem readByte_wr32_ne {a x : Nat} (far : nearEnd ≤ a) (out : OutsideWord a x) (v : W32) (s : State) : readByte (wr32 a v s) x = readByte s x := by
  refine readByte_writeBytes_ne _ a s fun i hi => memKey_ne_of_far (far_add far i) ?_ s
  rw [toLE_length] at hi
  simp only [OutsideWord] at out
  omega

/-- A word depends on its four bytes alone. -/
theorem rd32_congr {s t : State} {a : Nat} (h : ∀ b < 4, readByte t (a + b) = readByte s (a + b)) : rd32 t a = rd32 s a := by
  have byte0 := h 0 (by decide)
  have byte1 := h 1 (by decide)
  have byte2 := h 2 (by decide)
  have byte3 := h 3 (by decide)
  simp only [Nat.add_zero] at byte0
  simp only [rd32, readN, readBytes, Nat.add_assoc, Nat.reduceAdd, byte0, byte1, byte2, byte3]

theorem rd32_wr32_self {a : Nat} {s : State} (hs : Inv s) (far : nearEnd ≤ a) (v : W32) : rd32 (wr32 a v s) a = v := by
  have bytes := readBytes_writeBytes_self (toLE 4 v.toNat) hs far
  rw [toLE_length] at bytes
  rw [rd32, readN, wr32, writeN, bytes, ofLE_toLE]
  exact BitVec.eq_of_toNat_eq (by simpa using v.isLt)

/-! ### An entry's words in the two banks (R219, R306) -/

/-- A byte address lies outside the moment and the weight of an element in a bank. -/
def Ledger.Outside (e : Ledger) (bank : Bool) (p : Nat × Nat) (x : Nat) : Prop :=
  OutsideWord (e.mAddr bank p.1 p.2) x ∧ OutsideWord (e.wAddr bank p.1 p.2) x

theorem nearEnd_le_base (e : Ledger) (bank : Bool) : nearEnd ≤ e.base bank := by
  simp only [Ledger.base, nearEnd, rimBase]
  omega

theorem nearEnd_le_wAddr (e : Ledger) (bank : Bool) (o i : Nat) : nearEnd ≤ e.wAddr bank o i := far_add (nearEnd_le_base e bank) _

theorem nearEnd_le_mAddr (e : Ledger) (bank : Bool) (o i : Nat) : nearEnd ≤ e.mAddr bank o i := far_add (far_add (nearEnd_le_base e bank) _) _

/-- Number of an element in row-major order. -/
def Ledger.elemNo (e : Ledger) (p : Nat × Nat) : Nat := p.1 * e.cols + p.2

theorem wAddr_eq (e : Ledger) (bank : Bool) (p : Nat × Nat) : e.wAddr bank p.1 p.2 = e.base bank + 4 * e.elemNo p := rfl

theorem mAddr_eq (e : Ledger) (bank : Bool) (p : Nat × Nat) : e.mAddr bank p.1 p.2 = e.base bank + 4 * (e.rows * e.cols) + 4 * e.elemNo p := by
  simp only [Ledger.mAddr, Ledger.elemNo, Nat.mul_assoc]

theorem elemNo_lt {e : Ledger} {p : Nat × Nat} (hp : p.1 < e.rows ∧ p.2 < e.cols) : e.elemNo p < e.rows * e.cols :=
  calc p.1 * e.cols + p.2 < (p.1 + 1) * e.cols := by rw [Nat.succ_mul]; omega
    _ ≤ e.rows * e.cols := Nat.mul_le_mul_right _ hp.1

theorem elemNo_inj {e : Ledger} {p q : Nat × Nat} (hp : p.2 < e.cols) (hq : q.2 < e.cols) (h : e.elemNo p = e.elemNo q) : p = q := by
  have quotient (r : Nat × Nat) (hr : r.2 < e.cols) : e.elemNo r / e.cols = r.1 := by
    rw [Ledger.elemNo, Nat.mul_comm, Nat.mul_add_div (by omega), Nat.div_eq_of_lt hr, Nat.add_zero]
  have remainder (r : Nat × Nat) (hr : r.2 < e.cols) : e.elemNo r % e.cols = r.2 := by
    rw [Ledger.elemNo, Nat.mul_comm, Nat.mul_add_mod, Nat.mod_eq_of_lt hr]
  exact Prod.ext (by rw [← quotient p hp, h, quotient q hq]) (by rw [← remainder p hp, h, remainder q hq])

/-- The two banks of an entry lie one bank apart. -/
theorem base_true (e : Ledger) : e.base true = e.base false + bankBytes := by
  simp only [Ledger.base, if_true, Bool.false_eq_true, if_false]
  omega

/-- An entry that ends within its bank is no longer than the bank. -/
theorem words_le_bankBytes {e : Ledger} (fits : e.sbase + e.units ≤ bankUnits) : 8 * (e.rows * e.cols) ≤ bankBytes := by
  simp only [Ledger.units, cdiv, bankUnits, Nat.mul_assoc] at fits
  simp only [bankBytes]
  omega

/-- The words of one element lie outside those of another in the same bank. -/
theorem outside_of_ne {e : Ledger} {p q : Nat × Nat} {b : Nat} (hp : p.1 < e.rows ∧ p.2 < e.cols) (hq : q.1 < e.rows ∧ q.2 < e.cols) (ne : p ≠ q)
    (hb : b < 4) (bank : Bool) : e.Outside bank p (e.mAddr bank q.1 q.2 + b) ∧ e.Outside bank p (e.wAddr bank q.1 q.2 + b) := by
  have ne' : e.elemNo p ≠ e.elemNo q := fun h => ne (elemNo_inj hp.2 hq.2 h)
  have ltp := elemNo_lt hp
  have ltq := elemNo_lt hq
  simp only [Ledger.Outside, OutsideWord, wAddr_eq, mAddr_eq]
  omega

/-- The words of every element in the other bank lie outside those in a bank. -/
theorem outside_of_other {e : Ledger} {p q : Nat × Nat} {b : Nat} (fits : e.sbase + e.units ≤ bankUnits) (hp : p.1 < e.rows ∧ p.2 < e.cols)
    (hq : q.1 < e.rows ∧ q.2 < e.cols) (hb : b < 4) (bank : Bool) :
    e.Outside bank p (e.mAddr (!bank) q.1 q.2 + b) ∧ e.Outside bank p (e.wAddr (!bank) q.1 q.2 + b) := by
  have ltp := elemNo_lt hp
  have ltq := elemNo_lt hq
  have short := words_le_bankBytes fits
  have far := base_true e
  cases bank <;> simp only [Ledger.Outside, OutsideWord, wAddr_eq, mAddr_eq, Bool.not_true, Bool.not_false] <;> omega

/-! ### One element (R322) -/

/-- The new moment and weight of an element, formed from the words of the two banks. -/
def Ledger.updated (e : Ledger) (k : ApplyK) (alt : Bool) (s : State) (p : Nat × Nat) : W32 × W32 :=
  applyElement k (if e.expect = 0 then 0 else rd32 s (e.mAddr alt p.1 p.2)) (rd32 s (e.mAddr (!alt) p.1 p.2)) (rd32 s (e.wAddr (!alt) p.1 p.2))

/-- The moment and the weight of an element written in a bank. -/
def Ledger.putWords (e : Ledger) (bank : Bool) (p : Nat × Nat) (v : W32 × W32) (s : State) : State :=
  wr32 (e.wAddr bank p.1 p.2) v.2 (wr32 (e.mAddr bank p.1 p.2) v.1 s)

/-- FP64 difference of a new weight and the current one. -/
def weightStep (wn wc : W32) : FVal := v64 (r64 ((v32 wn).sub (v32 wc)))

/-- The sums of squares with one more element. -/
def Dyn.gather (d : Dyn) (wn wc : W32) : Dyn :=
  { d with wsq := d.wsq.add ((v32 wn).mul (v32 wn)), usq := d.usq.add ((weightStep wn wc).mul (weightStep wn wc)) }

theorem readByte_putWords {e : Ledger} {bank : Bool} {p : Nat × Nat} {x : Nat} (out : e.Outside bank p x) (v : W32 × W32) (s : State) :
    readByte (e.putWords bank p v s) x = readByte s x := by
  obtain ⟨moment, weight⟩ := out
  rw [Ledger.putWords, readByte_wr32_ne (nearEnd_le_wAddr _ _ _ _) weight, readByte_wr32_ne (nearEnd_le_mAddr _ _ _ _) moment]

theorem rd32_putWords_weight {s : State} (hs : Inv s) (e : Ledger) (bank : Bool) (p : Nat × Nat) (v : W32 × W32) :
    rd32 (e.putWords bank p v s) (e.wAddr bank p.1 p.2) = v.2 :=
  rd32_wr32_self (wr32_inv _ _ _ hs) (nearEnd_le_wAddr _ _ _ _) _

theorem rd32_putWords_moment {s : State} {e : Ledger} {p : Nat × Nat} (hs : Inv s) (hp : p.1 < e.rows ∧ p.2 < e.cols) (bank : Bool) (v : W32 × W32) :
    rd32 (e.putWords bank p v s) (e.mAddr bank p.1 p.2) = v.1 := by
  have lt := elemNo_lt hp
  have kept : rd32 (e.putWords bank p v s) (e.mAddr bank p.1 p.2) = rd32 (wr32 (e.mAddr bank p.1 p.2) v.1 s) (e.mAddr bank p.1 p.2) := by
    refine rd32_congr fun b hb => readByte_wr32_ne (nearEnd_le_wAddr _ _ _ _) ?_ _ _
    simp only [OutsideWord, wAddr_eq, mAddr_eq]
    omega
  rw [kept, rd32_wr32_self hs (nearEnd_le_mAddr _ _ _ _)]

/-! ### The elements of a pass -/

/-- A pass writes the words of one more element after those of the others. -/
theorem applyTrained_concat_snd (k : ApplyK) (alt : Bool) (l : List (Nat × Nat)) (p : Nat × Nat) (e : Ledger) (s : State) :
    (applyTrained k alt (l ++ [p]) e s).2 =
      e.putWords alt p (e.updated k alt (applyTrained k alt l e s).2 p) (applyTrained k alt l e s).2 := by
  rw [applyTrained, List.foldl_append]
  rfl

/-- A pass gathers the squares of one more element after those of the others. -/
theorem applyTrained_concat_dyn (k : ApplyK) (alt : Bool) (l : List (Nat × Nat)) (p : Nat × Nat) (e : Ledger) (s : State) :
    (applyTrained k alt (l ++ [p]) e s).1.dyn =
      (applyTrained k alt l e s).1.dyn.gather (e.updated k alt (applyTrained k alt l e s).2 p).2
        (rd32 (applyTrained k alt l e s).2 (e.wAddr (!alt) p.1 p.2)) := by
  rw [applyTrained, List.foldl_append]
  rfl

/-- A byte outside the words of the pass is unchanged. -/
theorem readByte_applyTrained {alt : Bool} {l : List (Nat × Nat)} {e : Ledger} {x : Nat} (out : ∀ p ∈ l, e.Outside alt p x) (k : ApplyK) (s : State) :
    readByte (applyTrained k alt l e s).2 x = readByte s x := by
  induction l using List.reverseRecOn with
  | nil => rfl
  | append_singleton l p ih =>
    rw [applyTrained_concat_snd, readByte_putWords (out p (by simp)), ih fun q hq => out q (by simp [hq])]

theorem rd32_applyTrained {alt : Bool} {l : List (Nat × Nat)} {e : Ledger} {a : Nat} (out : ∀ p ∈ l, ∀ b < 4, e.Outside alt p (a + b)) (k : ApplyK)
    (s : State) : rd32 (applyTrained k alt l e s).2 a = rd32 s a :=
  rd32_congr fun b hb => readByte_applyTrained (fun p hp => out p hp b hb) k s

section
variable {e : Ledger} {l : List (Nat × Nat)} (fits : e.sbase + e.units ≤ bankUnits) (inside : ∀ p ∈ l, p.1 < e.rows ∧ p.2 < e.cols)
include fits inside

/-- A pass leaves the weights of the current bank alone. -/
theorem weight_applyTrained {q : Nat × Nat} (hq : q.1 < e.rows ∧ q.2 < e.cols) (k : ApplyK) (alt : Bool) (s : State) :
    rd32 (applyTrained k alt l e s).2 (e.wAddr (!alt) q.1 q.2) = rd32 s (e.wAddr (!alt) q.1 q.2) :=
  rd32_applyTrained (fun p hp _ hb => (outside_of_other fits (inside p hp) hq hb alt).2) k s

/-- An element not yet in the pass becomes what it would have become before it. -/
theorem updated_applyTrained {q : Nat × Nat} (hq : q.1 < e.rows ∧ q.2 < e.cols) (new : q ∉ l) (k : ApplyK) (alt : Bool) (s : State) :
    e.updated k alt (applyTrained k alt l e s).2 q = e.updated k alt s q := by
  have sum : rd32 (applyTrained k alt l e s).2 (e.mAddr alt q.1 q.2) = rd32 s (e.mAddr alt q.1 q.2) :=
    rd32_applyTrained (fun p hp _ hb => (outside_of_ne (inside p hp) hq (ne_of_mem_of_not_mem hp new) hb alt).1) k s
  have moment : rd32 (applyTrained k alt l e s).2 (e.mAddr (!alt) q.1 q.2) = rd32 s (e.mAddr (!alt) q.1 q.2) :=
    rd32_applyTrained (fun p hp _ hb => (outside_of_other fits (inside p hp) hq hb alt).1) k s
  simp only [Ledger.updated, sum, moment, weight_applyTrained fits inside hq]

/-- After a pass the alternate bank holds, for each element, what it becomes. -/
theorem words_applyTrained {s : State} (hs : Inv s) (nodup : l.Nodup) (k : ApplyK) (alt : Bool) :
    ∀ p ∈ l, rd32 (applyTrained k alt l e s).2 (e.mAddr alt p.1 p.2) = (e.updated k alt s p).1 ∧
      rd32 (applyTrained k alt l e s).2 (e.wAddr alt p.1 p.2) = (e.updated k alt s p).2 := by
  induction l using List.reverseRecOn with
  | nil => simp
  | append_singleton l q ih =>
    obtain ⟨nodup', -, new⟩ : l.Nodup ∧ [q].Nodup ∧ ∀ p ∈ l, p ≠ q := by simpa [List.nodup_append] using nodup
    have inside' : ∀ p ∈ l, p.1 < e.rows ∧ p.2 < e.cols := fun p hp => inside p (by simp [hp])
    have hq := inside q (by simp)
    have hs' : Inv (applyTrained k alt l e s).2 := applyTrained_inv k alt l e s hs
    rw [applyTrained_concat_snd, updated_applyTrained fits inside' hq fun hm => new q hm rfl]
    intro p hp
    rcases List.mem_append.mp hp with old | last
    · have out := fun b hb => outside_of_ne (b := b) hq (inside' p old) (new p old).symm hb alt
      obtain ⟨moment, weight⟩ := ih inside' nodup' p old
      exact ⟨(rd32_congr fun b hb => readByte_putWords (out b hb).1 _ _).trans moment,
        (rd32_congr fun b hb => readByte_putWords (out b hb).2 _ _).trans weight⟩
    · obtain rfl := List.mem_singleton.mp last
      exact ⟨rd32_putWords_moment hs' hq alt _, rd32_putWords_weight hs' e alt p _⟩

/-- A pass gathers the squares of its elements in order. -/
theorem dyn_applyTrained (nodup : l.Nodup) (k : ApplyK) (alt : Bool) (s : State) :
    (applyTrained k alt l e s).1.dyn = l.foldl (fun d p => d.gather (e.updated k alt s p).2 (rd32 s (e.wAddr (!alt) p.1 p.2))) e.dyn := by
  induction l using List.reverseRecOn with
  | nil => rfl
  | append_singleton l q ih =>
    obtain ⟨nodup', -, new⟩ : l.Nodup ∧ [q].Nodup ∧ ∀ p ∈ l, p ≠ q := by simpa [List.nodup_append] using nodup
    have inside' : ∀ p ∈ l, p.1 < e.rows ∧ p.2 < e.cols := fun p hp => inside p (by simp [hp])
    have hq := inside q (by simp)
    rw [applyTrained_concat_dyn, updated_applyTrained fits inside' hq fun hm => new q hm rfl, weight_applyTrained fits inside' hq, ih inside' nodup',
      List.foldl_concat]

end

theorem wsq_foldl_gather (f g : Nat × Nat → W32) (l : List (Nat × Nat)) (d : Dyn) :
    (l.foldl (fun d p => d.gather (f p) (g p)) d).wsq = l.foldl (fun x p => x.add ((v32 (f p)).mul (v32 (f p)))) d.wsq :=
  (List.foldl_hom Dyn.wsq (g₁ := fun d p => d.gather (f p) (g p)) fun _ _ => rfl).symm

theorem usq_foldl_gather (f g : Nat × Nat → W32) (l : List (Nat × Nat)) (d : Dyn) :
    (l.foldl (fun d p => d.gather (f p) (g p)) d).usq = l.foldl (fun x p => x.add ((weightStep (f p) (g p)).mul (weightStep (f p) (g p)))) d.usq :=
  (List.foldl_hom Dyn.usq (g₁ := fun d p => d.gather (f p) (g p)) fun _ _ => rfl).symm

/-! ### Squares (R306, R323) -/

/-- An element is in the square of its place in the entry. -/
theorem mem_squareElems {e : Ledger} {q : Nat} {p : Nat × Nat} :
    p ∈ e.squareElems q ↔ (p.1 < e.rows ∧ p.2 < e.cols) ∧ p.1 / 128 = q % e.squareCols ∧ p.2 / 128 = q / e.squareCols := by
  simp only [Ledger.squareElems, List.mem_flatMap, List.mem_map, List.mem_range]
  generalize q / e.squareCols = a
  generalize q % e.squareCols = b
  constructor
  · rintro ⟨o, ho, i, hi, rfl⟩
    simp only
    omega
  · rintro ⟨hp, rfl, rfl⟩
    exact ⟨p.1 % 128, by omega, p.2 % 128, by omega, Prod.ext (Nat.div_add_mod p.1 128) (Nat.div_add_mod p.2 128)⟩

theorem squareElems_nodup (e : Ledger) (q : Nat) : (e.squareElems q).Nodup := by
  refine List.nodup_flatMap.mpr ⟨fun o _ => List.nodup_range.map fun i j h => ?_, List.nodup_range.imp fun {o o'} ne => ?_⟩
  · have same : 128 * (q / e.squareCols) + i = 128 * (q / e.squareCols) + j := congrArg Prod.snd h
    omega
  · rintro p hp hp'
    obtain ⟨i, -, rfl⟩ := List.mem_map.mp hp
    obtain ⟨j, -, h⟩ := List.mem_map.mp hp'
    have same : 128 * (q % e.squareCols) + o' = 128 * (q % e.squareCols) + o := congrArg Prod.fst h
    omega

/-- The row of an element, in squares, is one of the entry's, where a vector has one row. -/
theorem div_lt_squareCols {e : Ledger} {o : Nat} (ho : o < e.rows) (vector : e.vector = true → e.rows = 1) : o / 128 < e.squareCols := by
  unfold Ledger.squareCols cdiv
  split
  · have := vector ‹_›
    omega
  · omega

/-- Every element stands in one square of its entry. -/
theorem exists_unique_square {e : Ledger} {o i : Nat} (ho : o < e.rows) (hi : i < e.cols) (vector : e.vector = true → e.rows = 1) :
    ∃ q < e.squareCount, (o, i) ∈ e.squareElems q ∧ ∀ r < e.squareCount, (o, i) ∈ e.squareElems r → r = q := by
  have row := div_lt_squareCols ho vector
  have col : i / 128 < cdiv e.cols 128 := by unfold cdiv; omega
  have quotient : (e.squareCols * (i / 128) + o / 128) / e.squareCols = i / 128 := by
    rw [Nat.mul_add_div (by omega), Nat.div_eq_of_lt row, Nat.add_zero]
  have remainder : (e.squareCols * (i / 128) + o / 128) % e.squareCols = o / 128 := by
    rw [Nat.mul_add_mod, Nat.mod_eq_of_lt row]
  refine ⟨e.squareCols * (i / 128) + o / 128, ?_, mem_squareElems.mpr ⟨⟨ho, hi⟩, remainder.symm, quotient.symm⟩, fun r _ hr => ?_⟩
  · calc e.squareCols * (i / 128) + o / 128 < e.squareCols * (i / 128 + 1) := by rw [Nat.mul_succ]; omega
      _ ≤ e.squareCols * cdiv e.cols 128 := Nat.mul_le_mul_left _ col
      _ = e.squareCount := Nat.mul_comm _ _
  · obtain ⟨-, hrow, hcol⟩ := mem_squareElems.mp hr
    simp only at hrow hcol
    rw [hrow, hcol, Nat.div_add_mod]

/-! ### The apply of a square -/

theorem applySquare_of_trained {a : Armed} {n : Nat} {s : State} (trained : (groupIn a (getEntry s n)).freeze = false) (q : Nat) :
    let e := getEntry s n
    let r := applyTrained (applyK (groupIn a e) a.u a.c32) (altBank s) (e.squareElems q) e s
    applySquare a n q s = writeSquare r.1 (altBank s) (if altBank s then halfOf r.2 r.1 else 0) a.step q
      (setEntry n { r.1 with squares := q :: r.1.squares, applied := r.1.squares.length + 1 == r.1.squareCount } r.2) := by
  simp only [applySquare, trained, Bool.false_eq_true, if_false, List.length_cons]

/-- Settles O12: by induction over the elements of a pass, whose words lie apart from each other and from the current bank. -/
theorem applyFollowsPseudocode : Obligations.ApplyFollowsPseudocode := by
  refine ⟨?_, fun e q => ⟨squareElems_nodup e q, fun p hp => (mem_squareElems.mp hp).1⟩, fun e o i ho hi vector => exists_unique_square ho hi vector,
    fun a n q s trained => applySquare_of_trained trained q⟩
  intro g u c32 e alt l s hs _ fits nodup inside uc ob d ne sum wc t1 mn mx wn dl r
  have gathered : r.1.dyn = l.foldl (fun d p => d.gather (wn p.1 p.2) (wc p.1 p.2)) e.dyn := dyn_applyTrained fits inside nodup (applyK g u c32) alt s
  refine ⟨words_applyTrained fits inside hs nodup (applyK g u c32) alt, ?_, ?_, fun x out => readByte_applyTrained out (applyK g u c32) s,
    applyTrained_frame (applyK g u c32) alt l e s⟩
  · rw [gathered, wsq_foldl_gather]
  · rw [gathered, usq_foldl_gather]
    rfl

end Sys2Proof.Machine
end

section
/-! SUPPORT. Tally comparisons (R347, R348): the rule in the bits of its operands, TOLX as WATCH_CFG reads it, and what a drained row adds to the counters
of its field. -/

namespace Sys2Proof.Machine

/-! ### The rule of one comparison (R347) -/

/-- The magnitude of an FP32 word, as a remainder and as a mask. -/
theorem ofNat_mod_eq_and (x : W32) : BitVec.ofNat 32 (x.toNat % 2 ^ 31) = x &&& 0x7FFFFFFF := by
  apply BitVec.eq_of_toNat_eq
  have mask : x.toNat &&& 0x7FFFFFFF = x.toNat % 2 ^ 31 := Nat.and_two_pow_sub_one_eq_mod x.toNat 31
  have small : x.toNat % 2 ^ 31 < 2 ^ 32 := by omega
  simp only [BitVec.toNat_ofNat, BitVec.toNat_and, Nat.mod_eq_of_lt small]
  exact mask.symm

theorem tallyFails_of_nonfinite {tolx : Nat} {c s a : W32} (hc : isFin32 c = false) (hs : isFin32 s = false) : tallyFails tolx c s a = none := by
  simp only [tallyFails, hc, hs]

theorem tallyFails_of_ne {tolx : Nat} {c s a : W32} (one : isFin32 c ≠ isFin32 s) : tallyFails tolx c s a = some true := by
  unfold tallyFails
  split
  case h_1 hc hs => exact absurd (hc.trans hs.symm) one
  case h_2 hc hs => exact absurd (hc.trans hs.symm) one
  case h_3 => rfl

theorem tallyFails_of_finite {tolx : Nat} {c s a : W32} (hc : isFin32 c = true) (hs : isFin32 s = true) :
    tallyFails tolx c s a =
      some (ltVal (mul32 (r32 (.fin false 1 (-(tolx : Int)))) (add32 a (c &&& 0x7FFFFFFF))) (sub32 c s &&& 0x7FFFFFFF)) := by
  simp only [tallyFails, hc, hs, ofNat_mod_eq_and]

/-! ### TOLX -/

theorem regValue_watchCfg (s : State) : regValue s 0x3C8 = watchCfg s.watch := rfl

theorem fld_watchCfg_tolx (w : Watch) : fld (watchCfg w) 0 4 = w.tolx.toNat := by
  have small := w.tolx.isLt
  unfold fld watchCfg
  omega

theorem judge_eq (s : State) (i : TallyItem) :
    judge s i = (i.c.zip (i.s.zip i.a)).map fun x => tallyFails (fld (regValue s 0x3C8) 0 4) x.1 x.2.1 x.2.2 := by
  rw [regValue_watchCfg, fld_watchCfg_tolx]
  rfl

/-! ### The counters of the field (R348) -/

@[simp] theorem getField_adjField_self (f : Nat) (g : Field → Field) (s : State) : getField (adjField f g s) f = g (getField s f) :=
  lookupD_upsert_self _ _ _ _

theorem getField_of_fields {s t : State} (h : t.fields = s.fields) (f : Nat) : getField t f = getField s f := by
  unfold getField
  rw [h]

/-- The event, the record and the mask of a first mismatch leave the fields as they are, but for the pass that is now known. -/
theorem fields_firstMismatch (f : Nat) (t : TallyItem) (k : Nat) (row : Option Nat) (s : State) :
    (firstMismatch f t k row s).fields = (adjField f (fun x => { x with mismatched := t.pass :: x.mismatched }) s).fields := by
  unfold firstMismatch
  extract_lets s₁ s₂ s₃
  have posted : OnlyChanges [.cap, .host, .xing, .plays, .store, .rel] s₁ s₂ :=
    (postFull_frame _ _ _ _ _ _ _).mono (by decide)
  have suspected : OnlyChanges [.cap, .host, .xing, .plays, .store, .rel] s₁ s₃ := by
    cases row with
    | none => exact posted
    | some r => exact posted.step (suspectRow_frame _ _ _) (by decide)
  have masked : OnlyChanges [.cap, .host, .xing, .plays, .store, .rel] s₁ (maskTally t (ledgerRec 2 0 1 0xFFFFFFFF 0xFFFFFFFF t.play
      (det [(4, (t.c.getD k 0).toNat), (4, (t.s.getD k 0).toNat)]) s₃)) :=
    (suspected.step (ledgerRec_frame _ _ _ _ _ _ _ _) (by decide)).step (maskTally_frame _ _) (by decide)
  exact masked .fields (by decide)

theorem length_filter_zipIdx {α : Type} (l : List α) (p : α → Bool) : (l.zipIdx.filter fun x => p x.1).length = (l.filter p).length := by
  calc (l.zipIdx.filter (p ∘ Prod.fst)).length
      = ((l.zipIdx.map Prod.fst).filter p).length := by rw [List.filter_map, List.length_map]
    _ = (l.filter p).length := by rw [List.zipIdx_map_fst]

/-- A row adds its failed comparisons to MISMATCH and those not made to NONFIN, whether or not its pass has failed before. -/
theorem getField_compareRow_counts (f : Nat) (t : TallyItem) (row : Option Nat) (s : State) :
    (getField (compareRow f t row s) f).mismatch = satAdd 32 (getField s f).mismatch ((judge s t).filter fun x => x == some true).length ∧
      (getField (compareRow f t row s) f).nonfin = satAdd 16 (getField s f).nonfin ((judge s t).filter fun x => x == none).length := by
  unfold compareRow
  extract_lets j bad s₁
  have failed : bad.length = (j.filter fun x => x == some true).length := by
    rw [List.length_map, length_filter_zipIdx j fun x => x == some true]
  have counted : (getField s₁ f).mismatch = satAdd 32 (getField s f).mismatch (j.filter fun x => x == some true).length ∧
      (getField s₁ f).nonfin = satAdd 16 (getField s f).nonfin (j.filter fun x => x == none).length := by
    rw [← failed]
    simp only [s₁, getField_adjField_self, and_self]
  clear_value s₁ bad
  split
  · exact counted
  · split
    · exact counted
    · rw [getField_of_fields (fields_firstMismatch _ _ _ _ _), getField_adjField_self]
      exact counted

theorem exec_tallyComparison_cons {f : Nat} {i : TallyItem} {r : List TallyItem} {s : State} (queued : (getField s f).tallies = i :: r)
    (e : Option TallyFault) :
    exec (.tallyComparison f e) s = .next (adjField f
      (fun x => { x with tallies := r, mismatched := x.mismatched.filter fun m => r.any fun t => t.pass == m })
      (compareRow f (withFault i e) (e.map TallyFault.row) s)) := by
  show execTallyComparison f e s = _
  simp only [execTallyComparison, queued]

/-- Settles O20: by the cases of which side of the comparison is finite; TOLX is the lowest field of WATCH_CFG; a queued row counts what `judge` says of it. -/
theorem tallyToleranceRule : Obligations.TallyToleranceRule := by
  refine ⟨fun tolx c s a => ⟨tallyFails_of_nonfinite, tallyFails_of_ne, tallyFails_of_finite⟩, fun i s => judge_eq s i, ?_⟩
  intro f i r e s queued
  obtain ⟨mismatch, nonfin⟩ := getField_compareRow_counts f (withFault i e) (e.map TallyFault.row) s
  refine ⟨_, exec_tallyComparison_cons queued e, ?_, ?_⟩
  · rw [getField_adjField_self]
    exact nonfin
  · rw [getField_adjField_self]
    exact mismatch

end Sys2Proof.Machine
end

section
/-! SUPPORT. The default grant and the stale grant (R440): what a power-turn boundary leaves of the grants. Pass beats (R446): their number in a power turn, and
what PASS_BEAT does. -/

namespace Sys2Proof.Machine

/-! ### The default grant (R440) -/

/-- No GRANT has come, and PWR_STATUS.DEFAULT is 1. -/
def State.OnDefault (s : State) : Prop := s.power.grants = [] ∧ s.power.default = true

theorem turnGrant_of_noGrants {s : State} (h : s.power.grants = []) (turn : Nat) : turnGrant s turn = min s.power.defaultGrant.toNat 26000 := by
  rw [turnGrant, h]
  rfl

theorem b2n_le_one (b : Bool) : b2n b ≤ 1 := by cases b <;> decide

theorem b2n_beq_one (b : Bool) : (b2n b == 1) = b := by cases b <;> rfl

/-- Bits 5 and 4 of PWR_STATUS are GRANT_STALE and DEFAULT. -/
theorem pwrStatus_grantFlags (p : Power) : pwrStatus p / 16 % 4 = 2 * b2n p.stale + b2n p.default := by
  have stale := b2n_le_one p.stale
  have isDefault := b2n_le_one p.default
  have floor := b2n_le_one p.floor
  have limited := b2n_le_one p.limited
  unfold pwrStatus powerFlags
  omega

theorem bitAt_pwrStatus_default (p : Power) : bitAt (pwrStatus p) 4 = p.default := by
  have flags := pwrStatus_grantFlags p
  have isDefault := b2n_le_one p.default
  rw [bitAt, show pwrStatus p / 2 ^ 4 % 2 = b2n p.default by omega, b2n_beq_one]

theorem bitAt_pwrStatus_stale (p : Power) : bitAt (pwrStatus p) 5 = p.stale := by
  have flags := pwrStatus_grantFlags p
  have isDefault := b2n_le_one p.default
  have stale := b2n_le_one p.stale
  rw [bitAt, show pwrStatus p / 2 ^ 5 % 2 = b2n p.stale by omega, b2n_beq_one]

section
variable {s t : State}

theorem onDefault_of_frame {l : List Part} (h : s.OnDefault) (frame : OnlyChanges l s t) (apart : .power ∉ l) : t.OnDefault := by
  have same : t.power = s.power := frame .power apart
  unfold State.OnDefault
  rwa [same]

theorem onDefault_takeTemps (m : PowerSense) (h : s.OnDefault) : (takeTemps m s).OnDefault := by
  unfold takeTemps
  exact List.foldlRecOn (motive := State.OnDefault) (List.range 8) _ h fun _ hu _ _ => hu

theorem onDefault_turnDone (m : PowerSense) (b : CtWord) (h : s.OnDefault) : (turnDone m b s).OnDefault := by
  unfold turnDone
  extract_lets p carry s₁
  split
  · exact h
  · exact onDefault_of_frame (s := s₁) h (post_frame _ _ _) (by decide)

/-- A turn begins with DEFAULT set anew where no offset waits: with no grant received none governs. -/
theorem onDefault_beginTurn (b : CtWord) (h : s.OnDefault) : (beginTurn b s).OnDefault := by
  obtain ⟨noGrants, isDefault⟩ := h
  unfold beginTurn
  extract_lets p
  have noneGoverns : governing p.grants (ctTurn b) = none := by
    show governing s.power.grants (ctTurn b) = none
    rw [noGrants]
    rfl
  split
  · exact ⟨noGrants, isDefault⟩
  · exact ⟨noGrants, congrArg Option.isNone noneGoverns⟩

theorem onDefault_applyPlan (h : s.OnDefault) : (applyPlan s).OnDefault := by
  unfold applyPlan
  split
  · exact h
  · extract_lets s₁ p s₂
    have journaled : s₁.OnDefault := onDefault_of_frame h (journalRecord_frame s) (by decide)
    exact List.foldlRecOn (motive := State.OnDefault) (List.range 8) _ (show s₂.OnDefault from journaled) fun _ hu _ _ => hu

theorem onDefault_opPrefSet (p : Packet) (h : s.OnDefault) : (opPrefSet p s).OnDefault :=
  onDefault_of_frame (s := setPref (item p.param 0 2) s) h (accept_frame p _) (by decide)

theorem onDefault_powerEvents (b : CtWord) (h : s.OnDefault) : (powerEvents b s).OnDefault := by
  unfold powerEvents
  exact List.foldlRecOn (motive := State.OnDefault) _ _ h fun _ hu e _ => onDefault_opPrefSet e.packet hu

/-- What a plan writes into the power state leaves the grants alone. -/
theorem onDefault_of_planned (h : s.OnDefault) (plan : Option PowerPlan) (floorW demandW : Nat) :
    State.OnDefault { s with power := { s.power with plan, floorW, demandW } } := h

theorem onDefault_makePlan (m : PowerSense) (h : s.OnDefault) : (makePlan m s).OnDefault := by
  unfold makePlan
  extract_lets lo turn g n temp prefs want r hot op pass limited p s₁ s₂ s₃
  have planned : s₁.OnDefault := onDefault_of_planned h _ _ _
  have floored : s₂.OnDefault := by
    unfold s₂
    split
    · exact onDefault_of_frame planned (post_frame _ _ _) (by decide)
    · exact planned
  have heated : s₃.OnDefault := by
    clear_value s₂
    unfold s₃
    refine List.foldlRecOn (motive := State.OnDefault) (List.range 8) _ floored fun u hu f _ => ?_
    split
    · exact onDefault_of_frame hu (postFull_frame _ _ _ _ _ _ _) (by decide)
    · exact hu
  clear_value s₃
  split
  · exact onDefault_of_frame heated (post_frame _ _ _) (by decide)
  · exact heated

/-- The default grant stays in force through every power-turn boundary. -/
theorem onDefault_powerTurnBoundary {m : PowerSense} (h : s.OnDefault) (run : exec (.powerTurnBoundary m) s = .next t) : t.OnDefault := by
  change execPowerTurnBoundary m s = .next t at run
  unfold execPowerTurnBoundary at run
  split at run
  · cases run
    exact h
  · split at run
    · cases run
      exact h
    · rename_i s₁ reached
      have came : optAll (OnlyChanges [.cad] s) (some s₁) := reached ▸ comeTo_frame _ _ s
      have h₁ : s₁.OnDefault := onDefault_of_frame h came (by decide)
      split at run
      · cases run
        exact h₁
      · rename_i b _
        cases run
        refine onDefault_makePlan m (onDefault_powerEvents b (onDefault_applyPlan (onDefault_beginTurn b (onDefault_takeTemps m ?_))))
        split
        · exact onDefault_turnDone m b h₁
        · exact h₁

end

/-! ### The stale grant (R440) -/

theorem exec_grantStale_of_not_due {s : State} (h : s.power.stale = true ∨ s.power.sinceGrant < 256) : exec .grantStale s = .next s := by
  show execGrantStale s = .next s
  rcases h with stands | few
  · simp [execGrantStale, stands]
  · simp [execGrantStale, few]

theorem exec_grantStale_of_due {s : State} (fresh : s.power.stale = false) (due : 256 ≤ s.power.sinceGrant) :
    exec .grantStale s = .next (post Ev.grantStale [] { s with power := { s.power with stale := true } }) := by
  show execGrantStale s = _
  simp [execGrantStale, fresh, due]

/-- A GRANT that the module answers while CT runs ends GRANT_STALE and starts its count again. -/
theorem exec_grant_ends_stale {s : State} (up : mctpUp s = true) (runs : ctRuns s = true) (seq : Byte) (turn : W64) (w : W32) :
    ∃ t, exec (.grant seq turn w) s = .next t ∧ t.power.stale = false ∧ t.power.sinceGrant = 0 := by
  show ∃ t, execGrant seq turn w s = .next t ∧ _
  simp only [execGrant, up, runs, Bool.not_true, Bool.false_eq_true, if_false]
  exact ⟨_, rfl, rfl, rfl⟩

theorem defaultAndStaleGrants : Claim.DefaultAndStaleGrants := by
  refine ⟨⟨rfl, rfl⟩, fun turn s h => turnGrant_of_noGrants h turn, ?_, ?_, fun seq turn w s up runs => exec_grant_ends_stale up runs seq turn w⟩
  · intro m s t noGrants isDefault run
    obtain ⟨noGrants', isDefault'⟩ := onDefault_powerTurnBoundary ⟨noGrants, isDefault⟩ run
    exact ⟨isDefault', noGrants', (bitAt_pwrStatus_default t.power).trans isDefault'⟩
  · exact fun s => ⟨exec_grantStale_of_not_due, fun fresh due => ⟨exec_grantStale_of_due fresh due, bitAt_pwrStatus_stale _⟩⟩

/-! ### Which beats are pass beats (R446) -/

theorem isPassBeat_iff (b f p : Nat) :
    isPassBeat b f p = true ↔ ((b + 128 * f) % 1024 + 1) * p / 1024 > (b + 128 * f) % 1024 * p / 1024 := decide_eq_true_iff

/-- A field's pattern is that of field 0, 128 beats later for each field between. -/
theorem isPassBeat_eq_field_zero (b f p : Nat) : isPassBeat b f p = isPassBeat (128 * f + b) 0 p := by
  unfold isPassBeat
  rw [Nat.mul_zero, Nat.add_zero, Nat.add_comm]

theorem isPassBeat_succ_field (b f p : Nat) : isPassBeat b (f + 1) p = isPassBeat (b + 128) f p := by
  unfold isPassBeat
  rw [show b + 128 * (f + 1) = b + 128 + 128 * f by omega]

/-- The pattern repeats from turn to turn. -/
theorem isPassBeat_add_turn (b f p : Nat) : isPassBeat (1024 + b) f p = isPassBeat b f p := by
  unfold isPassBeat
  rw [show (1024 + b + 128 * f) % 1024 = (b + 128 * f) % 1024 by omega]

/-- With at most one pass beat a beat, each beat adds to ⌊x·p / 1024⌋ what it adds to the count. -/
theorem count_passBeats_upTo {p n : Nat} (hp : p ≤ 1024) (hn : n ≤ 1024) : Nat.count (fun b => isPassBeat b 0 p = true) n = n * p / 1024 := by
  induction n with
  | zero => simp
  | succ n ih =>
    have within : (n + 128 * 0) % 1024 = n := by omega
    rw [Nat.count_succ, ih (by omega)]
    simp only [isPassBeat_iff, within, Nat.succ_mul]
    split <;> omega

/-- A turn counted from any beat has the pass beats of one counted from beat 0. -/
theorem count_passBeats_from (k p : Nat) :
    Nat.count (fun b => isPassBeat (k + b) 0 p = true) 1024 = Nat.count (fun b => isPassBeat b 0 p = true) 1024 := by
  have parted : Nat.count (fun b => isPassBeat b 0 p = true) k + Nat.count (fun b => isPassBeat (k + b) 0 p = true) 1024 =
      Nat.count (fun b => isPassBeat b 0 p = true) 1024 + Nat.count (fun b => isPassBeat b 0 p = true) k := by
    calc _ = Nat.count (fun b => isPassBeat b 0 p = true) (k + 1024) := (Nat.count_add _ _ _).symm
      _ = Nat.count (fun b => isPassBeat b 0 p = true) (1024 + k) := by rw [Nat.add_comm]
      _ = _ := by simp only [Nat.count_add, isPassBeat_add_turn]
  omega

theorem length_filter_isPassBeat {p : Nat} (hp : p ≤ 1024) (f : Nat) : ((List.range 1024).filter fun b => isPassBeat b f p).length = p := by
  calc ((List.range 1024).filter fun b => isPassBeat b f p).length
      = Nat.count (fun b => isPassBeat (128 * f + b) 0 p = true) 1024 := by
        simp only [isPassBeat_eq_field_zero _ f, ← List.countP_eq_length_filter, Nat.count, Bool.decide_eq_true]
    _ = 1024 * p / 1024 := (count_passBeats_from _ p).trans (count_passBeats_upTo hp le_rfl)
    _ = p := by omega

/-! ### PASS_BEAT (R63) -/

theorem passing_iff (s : State) (f : Nat) : passing s f = true ↔ (getField s f).passNow = true ∨
    (s.power.next.isSome = true ∧ isPassBeat ((s.cad.ct - s.power.boundary).toNat / 65536) f (getField s f).pass = true) := by
  simp only [passing, Bool.or_eq_true, Bool.and_eq_true]

theorem getField_adjField_ne {f g : Nat} (h : g ≠ f) (k : Field → Field) (s : State) : getField (adjField f k s) g = getField s g :=
  lookupD_upsert_ne h _ _ _

@[simp] theorem getField_closeRuns (f g : Nat) (s : State) : getField (closeRuns f s) g = getField s g := rfl

theorem exec_passBeat_of_not_passing {f : Nat} {s : State} (h : passing s f = false) : exec (.passBeat f) s = .next s := by
  show execPassBeat f s = .next s
  simp [execPassBeat, h]

theorem exec_passBeat_of_passing {f : Nat} {s : State} (h : passing s f = true) :
    exec (.passBeat f) s = .next (closeRuns f (adjField f (fun x => { x with passNow := true }) s)) := by
  show execPassBeat f s = _
  simp [execPassBeat, h]

theorem passBeats : Claim.PassBeats := by
  refine ⟨isPassBeat_iff, fun f p hp => length_filter_isPassBeat hp f, isPassBeat_succ_field, fun f s => ?_⟩
  simp only [← passing_iff, Bool.not_eq_true]
  refine ⟨exec_passBeat_of_not_passing, fun now => ⟨_, exec_passBeat_of_passing now, ?_, fun g ne => ?_, rfl, ?_⟩⟩
  · rw [getField_closeRuns, getField_adjField_self]
  · rw [getField_closeRuns, getField_adjField_ne ne]
  · exact ((adjField_frame _ _ _).mono (by decide)).step (closeRuns_frame _ _) (by decide)

/-- Settles O44: each step of a boundary leaves the default grant in force, and the count of pass beats up to beat x is ⌊x·p / 1024⌋, in a pattern that repeats
every turn. -/
theorem grantsAndPassBeats : Obligations.GrantsAndPassBeats := ⟨defaultAndStaleGrants, passBeats⟩

end Sys2Proof.Machine
end

section
/-! SUPPORT. A command fetched once its ring's tail covers all its slots (R517). A reply written behind its queue's port, and what becomes of its message (R44, R45,
R264, R520). -/

namespace Sys2Proof.Machine

/-! ### COMMAND_FETCH (R517) -/

/-- COMMAND_FETCH of the queue whose turn it is, with the slots that the host returned. -/
theorem exec_commandFetch_of_next {d : Doorbell} {s : State} (serves : Serves s) (next : nextDoorbell s = some d) (l : List Byte) :
    exec (.commandFetch d.queue (some l)) s = .next (fetchCommand d l s) := by
  obtain ⟨stage, active, crossing⟩ := serves
  show execCommandFetch d.queue (some l) s = _
  simp [execCommandFetch, stage, active, crossing, next]

/-- A tail that covers part of a command is used up. -/
theorem fetchCommand_of_partly {d : Doorbell} {l : List Byte} {s : State}
    (partly : ahead (sqSlots (hostQueue s d.queue)) (hostQueue s d.queue).sqhead d.tail < 1 + item l 4 2) : fetchCommand d l s = dropDoorbell d s := by
  simp only [fetchCommand, if_pos partly]

/-- The command's slots are taken from its queue's ring, past its end at slot 0, and a reply's place is reserved. -/
def Queue.taking (slots : Nat) (q : Queue) : Queue := { q with sqhead := (q.sqhead + slots) % sqSlots q, outstanding := q.outstanding + 1 }

/-- A tail that covers the whole command stays while it covers more. -/
theorem fetchCommand_of_covered {d : Doorbell} {l : List Byte} {s : State}
    (covered : 1 + item l 4 2 ≤ ahead (sqSlots (hostQueue s d.queue)) (hostQueue s d.queue).sqhead d.tail) :
    let moved := setHostQueue d.queue ((hostQueue s d.queue).taking (1 + item l 4 2)) s
    fetchCommand d l s = dispatchPacket (parseCommand d.queue d.port l)
      (journalRecord (if ahead (sqSlots (hostQueue s d.queue)) (hostQueue s d.queue).sqhead d.tail = 1 + item l 4 2 then dropDoorbell d moved else moved)) := by
  simp only [fetchCommand, if_neg (Nat.not_lt.mpr covered)]
  rfl

/-- Settles O51: the announcement covers fewer slots than the command has, just those, or more. -/
theorem commandsOccupySlots : Obligations.CommandsOccupySlots := by
  rintro n d l s serves next rfl q size slots covered moved
  rw [exec_commandFetch_of_next serves next]
  refine ⟨fun partly => ?_, fun all => ?_, fun more => ?_⟩
  · rw [fetchCommand_of_partly partly]
  · rw [fetchCommand_of_covered all.le, if_pos all.symm]
    rfl
  · rw [fetchCommand_of_covered more.le, if_neg more.ne']
    rfl

/-! ### Host memory -/

/-- A write behind a port changes the host's memory alone. -/
theorem hostWrite_host (port a : Nat) (l : List Byte) (s : State) :
    ∃ m0 m1, (hostWrite port a l s).host = { s.host with mem0 := m0, mem1 := m1 } := by
  induction l generalizing a s with
  | nil => exact ⟨_, _, rfl⟩
  | cons b l ih =>
    rw [hostWrite]
    obtain ⟨m0, m1, written⟩ := ih (a + 1) (if port = 0 then { s with host := { s.host with mem0 := upsert a b s.host.mem0 } }
      else { s with host := { s.host with mem1 := upsert a b s.host.mem1 } })
    exact ⟨m0, m1, written.trans (by split <;> rfl)⟩

theorem hostRead_hostWrite_below {port a x : Nat} (below : x < a) (l : List Byte) (s : State) : hostRead (hostWrite port a l s) port x = hostRead s port x := by
  induction l generalizing a s with
  | nil => rfl
  | cons b l ih =>
    rw [hostWrite, ih (Nat.lt_succ_of_lt below)]
    by_cases first : port = 0 <;> simp [hostRead, first, lookupD_upsert_ne below.ne]

/-- A write is read back behind its port. -/
theorem hostRead_hostWrite {k : Nat} {l : List Byte} (inside : k < l.length) (port a : Nat) (s : State) :
    hostRead (hostWrite port a l s) port (a + k) = l.getD k 0 := by
  induction l generalizing a k s with
  | nil => simp at inside
  | cons b l ih =>
    rw [hostWrite]
    cases k with
    | zero =>
      refine (hostRead_hostWrite_below (Nat.lt_add_one a) l _).trans ?_
      by_cases first : port = 0 <;> simp [hostRead, first]
    | succ k =>
      rw [← Nat.add_assoc, Nat.add_right_comm, ih (by simpa using inside)]
      rfl

/-! ### What an event leaves of the host interface -/

section
variable {s t : State} (same : t.host.butLog = s.host.butLog)
include same

theorem replies_of_butLog : t.host.replies = s.host.replies := (congrArg HostIf.replies same :)

theorem hostQueue_of_butLog (n : Nat) : hostQueue t n = hostQueue s n :=
  (congrArg (fun h : HostIf => lookupD ({} : Queue) n h.queues) same :)

theorem hostRead_of_butLog (port x : Nat) : hostRead t port x = hostRead s port x :=
  (congrArg (fun h : HostIf => lookupD (Config.hostByte port x) x (if port = 0 then h.mem0 else h.mem1)) same :)
end

/-! ### The message of a vector (R44, R45, R520) -/

/-- A port's masked vector becomes pending. -/
def pendMsi (x : Nat × Nat) (s : State) : State := { s with host := { s.host with pba := x :: s.host.pba.filter fun y => y != x } }

/-- The pulse of a port's vector over the crossing to the ports: it gets there, waits in the crossing's counter, or is lost past 15. -/
def pulseMsi (x : Nat × Nat) (s : State) : State :=
  if !s.xing.lag.contains (toggleOf 12 14) then { s with host := { s.host with msi := x :: s.host.msi } }
  else if s.xing.irqs.length < 15 then { s with xing := { s.xing with irqs := s.xing.irqs ++ [x] } }
  else logEvent Ev.xingFault 3 0xFFFFFFFF 0 0 [] (xingNote 0 12 14 false s)

theorem pulseMsi_of_calm {s : State} (calm : Calm s) (x : Nat × Nat) : pulseMsi x s = { s with host := { s.host with msi := x :: s.host.msi } } := by
  unfold Calm at calm
  simp only [pulseMsi, calm, Bool.not_false, if_true]

theorem msi_pulseMsi_of_busy {s : State} (busy : ¬Calm s) (x : Nat × Nat) : (pulseMsi x s).host.msi = s.host.msi := by
  rw [Calm, Bool.not_eq_false] at busy
  simp only [pulseMsi, busy, Bool.not_true, Bool.false_eq_true, if_false]
  split
  · rfl
  · unfold logEvent
    split <;> rfl

theorem irqs_pulseMsi_of_busy {s : State} (busy : ¬Calm s) (room : s.xing.irqs.length < 15) (x : Nat × Nat) :
    (pulseMsi x s).xing.irqs = s.xing.irqs ++ [x] := by
  rw [Calm, Bool.not_eq_false] at busy
  simp only [pulseMsi, busy, Bool.not_true, Bool.false_eq_true, if_false, if_pos room]

theorem sendMsi_of_open {s : State} (opened : xingClosed s 12 14 = false) (port : Nat) (v : Byte) : sendMsi port v s =
    if (getPcie s port).perst then s else if (getPcie s port).masked v.toNat then pendMsi (port, v.toNat) s else pulseMsi (port, v.toNat) s := by
  simp only [sendMsi, opened, Bool.or_false]
  rfl

/-- A message that IRQ_ALL or NOTIFY asks for, or none (R520). -/
def messageIf (irq : Bool) (port : Nat) (v : Byte) (s : State) : State := if irq then sendMsi port v s else s

/-- The message leaves as a pulse: it is asked for, and its port's function serves and does not mask its vector. -/
def sendsMessage (irq : Bool) (port : Nat) (v : Byte) (s : State) : Bool := irq && !(getPcie s port).perst && !(getPcie s port).masked v.toNat

theorem messageIf_same (irq : Bool) (port : Nat) (v : Byte) (s : State) : HostSame s (messageIf irq port v s) := by
  cases irq
  · exact HostSame.refl s
  · exact sendMsi_same port v s

theorem messageIf_frame (irq : Bool) (port : Nat) (v : Byte) (s : State) : OnlyChanges [.host, .xing, .store] s (messageIf irq port v s) :=
  OnlyChanges.ite (sendMsi_frame port v s) (OnlyChanges.refl _ s)

/-- A frame without two groups that are found unchanged. -/
theorem frame_of_xing_store {l : List Part} {s t : State} (frame : OnlyChanges (.xing :: .store :: l) s t) (xing : t.xing = s.xing) (store : t.store = s.store) :
    OnlyChanges l s t := by
  intro p hp
  by_cases isXing : p = .xing
  · subst isXing
    exact xing
  by_cases isStore : p = .store
  · subst isStore
    exact store
  · exact frame p (by simp [isXing, isStore, hp])

theorem messageIf_frame_of_calm {s : State} (calm : Calm s) (irq : Bool) (port : Nat) (v : Byte) : OnlyChanges [.host] s (messageIf irq port v s) := by
  cases irq
  · exact OnlyChanges.refl _ s
  · obtain ⟨xing, store⟩ := sendMsi_calm port v s calm
    exact frame_of_xing_store ((sendMsi_frame port v s).mono (by decide)) xing store

section
variable {irq : Bool} {port : Nat} {v : Byte} {s : State} (opened : xingClosed s 12 14 = false)
include opened

theorem messageIf_of_sends (sends : sendsMessage irq port v s = true) : messageIf irq port v s = pulseMsi (port, v.toNat) s := by
  obtain ⟨⟨asked, serving⟩, unmasked⟩ : (irq = true ∧ (getPcie s port).perst = false) ∧ (getPcie s port).masked v.toNat = false := by
    simpa [sendsMessage] using sends
  rw [messageIf, if_pos asked, sendMsi_of_open opened, serving, unmasked]
  rfl

/-- Where no message leaves, none arrives. -/
theorem msi_messageIf_of_not_sends (silent : sendsMessage irq port v s = false) : (messageIf irq port v s).host.msi = s.host.msi := by
  cases irq
  · rfl
  show (sendMsi port v s).host.msi = _
  rw [sendMsi_of_open opened]
  split
  · rfl
  next serving =>
    rw [if_pos (by simpa [sendsMessage, serving] using silent)]
    rfl

/-- Over a crossing that takes pulses, each message that leaves arrives. -/
theorem msi_messageIf_of_calm (calm : Calm s) :
    (messageIf irq port v s).host.msi = if sendsMessage irq port v s then (port, v.toNat) :: s.host.msi else s.host.msi := by
  cases sends : sendsMessage irq port v s
  · exact msi_messageIf_of_not_sends opened sends
  · rw [messageIf_of_sends opened sends, pulseMsi_of_calm calm]
    rfl

/-- Over a crossing that takes none, no message arrives now. -/
theorem msi_messageIf_of_busy (busy : ¬Calm s) : (messageIf irq port v s).host.msi = s.host.msi := by
  cases sends : sendsMessage irq port v s
  · exact msi_messageIf_of_not_sends opened sends
  · rw [messageIf_of_sends opened sends, msi_pulseMsi_of_busy busy]

/-- A message that leaves is held while its crossing takes no pulse and its counter has room. -/
theorem irqs_messageIf_of_busy (busy : ¬Calm s) (room : s.xing.irqs.length < 15) (sends : sendsMessage irq port v s = true) :
    (messageIf irq port v s).xing.irqs = s.xing.irqs ++ [(port, v.toNat)] := by
  rw [messageIf_of_sends opened sends, irqs_pulseMsi_of_busy busy room]

theorem mem_pba_messageIf (asked : irq = true) (serving : (getPcie s port).perst = false) (masked : (getPcie s port).masked v.toNat = true) :
    (port, v.toNat) ∈ (messageIf irq port v s).host.pba := by
  rw [messageIf, if_pos asked, sendMsi_of_open opened, serving, masked]
  exact List.mem_cons_self

end

/-! ### Overruns of a crossing (R45, R47) -/

/-- What is recorded of crossing faults is as before. -/
def SameMarks (s t : State) : Prop := t.xing.overrun = s.xing.overrun ∧ t.store.ledger = s.store.ledger

/-- One overrun was marked, its record newest in the fault ledger. -/
def Overran (s t : State) : Prop :=
  t.xing.overrun = true ∧ ∃ r : FaultRec, r.cls = 16 ∧ t.store.ledger = (r :: s.store.ledger).take 262144

theorem xingNote_overran (play : W32) (src dst : Nat) (s : State) : Overran s (xingNote play src dst false s) :=
  ⟨Bool.or_true _, _, rfl, rfl⟩

/-- An interrupt's pulse marks nothing, or is lost and marked itself. -/
theorem sendMsi_marks (port : Nat) (v : Byte) (s : State) : SameMarks s (sendMsi port v s) ∨ (¬Calm s ∧ Overran s (sendMsi port v s)) := by
  unfold sendMsi
  extract_lets p
  split
  · exact .inl ⟨rfl, rfl⟩
  split
  · exact .inl ⟨rfl, rfl⟩
  split
  · exact .inl ⟨rfl, rfl⟩
  next busy =>
    split
    · exact .inl ⟨rfl, rfl⟩
    · refine .inr ⟨by simpa [Calm] using busy, ?_⟩
      rw [Overran, logEvent_xing, logEvent_store]
      exact xingNote_overran 0 12 14 s

theorem postFull_marks (code origin : Nat) (unit play step : W32) (d : List Byte) (s : State) :
    SameMarks s (postFull code origin unit play step d s) ∨ (¬Calm s ∧ Overran s (postFull code origin unit play step d s)) := by
  have xing := logEvent_xing code origin unit play step d s
  have store := logEvent_store code origin unit play step d s
  unfold postFull
  extract_lets u
  split
  · have marks := sendMsi_marks (b2n u.host.evtPort) u.host.evtVector { u with host := { u.host with evtSent := true } }
    generalize sendMsi _ _ _ = t at marks ⊢
    simp only [SameMarks, Overran, Calm] at marks ⊢
    rwa [xing, store] at marks
  · exact .inl ⟨congrArg Xing.overrun xing, congrArg Store.ledger store⟩

/-- What a list keeps of its newest does not depend on what it had dropped before. -/
theorem take_cons_take {α : Type} (x : α) (l : List α) (n : Nat) : (x :: l.take n).take n = (x :: l).take n := by
  cases n with
  | zero => rfl
  | succ n => simp [List.take_take]

section
variable (origin : Nat) (play step : W32) (src dst : Nat) (s : State)

theorem overrun_xingRecordFor : (xingRecordFor origin play step src dst false s).xing.overrun = true := by
  obtain ⟨marked, -⟩ := xingNote_overran play src dst s
  rcases postFull_marks Ev.xingFault origin 0xFFFFFFFF play step [] (xingNote play src dst false s) with ⟨same, -⟩ | ⟨-, again, -⟩
  · exact same.trans marked
  · exact again

/-- The record of an overrun enters the fault ledger, below that of its own event's pulse where this is lost too. -/
theorem records_xingRecordFor : Records 16 s (xingRecordFor origin play step src dst false s) := by
  obtain ⟨-, r, cls, ledger⟩ := xingNote_overran play src dst s
  rcases postFull_marks Ev.xingFault origin 0xFFFFFFFF play step [] (xingNote play src dst false s) with ⟨-, same⟩ | ⟨busy, -, r', cls', ledger'⟩
  · exact ⟨r, [], same.trans ledger, cls, by simp, fun _ => rfl⟩
  · refine ⟨r', [r], ?_, cls', by simpa using cls, fun calm => absurd calm busy⟩
    rw [ledger, take_cons_take] at ledger'
    exact ledger'

theorem count_xingRecordFor (calm : Calm s) :
    (xingRecordFor origin play step src dst false s).xing.count = min (s.xing.count + 1) 65535 := by
  obtain ⟨xing, -⟩ := postFull_calm Ev.xingFault origin 0xFFFFFFFF play step [] (xingNote play src dst false s) calm
  rw [xingRecordFor, xing]
  rfl

theorem xingRecordFor_same (timeout : Bool) : HostSame s (xingRecordFor origin play step src dst timeout s) := postFull_same ..

end

/-! ### REPLY_WRITE (R520) -/

/-- A queue with one more reply in its completion ring: the phase inverts where the ring wraps, and the command's place is no longer reserved. -/
def Queue.replied (q : Queue) : Queue :=
  { q with
    cqtail := if cqEntries q ≤ q.cqtail + 1 then 0 else q.cqtail + 1, phase := q.phase != decide (cqEntries q ≤ q.cqtail + 1), cqused := q.cqused + 1
    outstanding := q.outstanding - 1 }

/-- The reply leaves those that wait, and its journal record goes to the standby (R477). -/
def takeReply (r : Reply) (s : State) : State := journalRecord { s with host := { s.host with replies := s.host.replies.erase r } }

/-- The reply stands at CQTAIL, and CQTAIL has moved on; its message has not gone out. -/
def placeReply (n : Nat) (r : Reply) (s : State) : State :=
  setHostQueue n (hostQueue s n).replied (hostWrite (b2n (hostQueue s n).port) ((hostQueue s n).cqbase.toNat + 32 * (hostQueue s n).cqtail)
    (r.bytes (hostQueue s n).phase n) (takeReply r s))

theorem length_replyBytes (r : Reply) (phase : Bool) (n : Nat) : (r.bytes phase n).length = 32 := by
  simp [Reply.bytes, det, toLE_length]

theorem takeReply_host (r : Reply) (s : State) : (takeReply r s).host = { s.host with replies := s.host.replies.erase r } :=
  journalRecord_frame _ .host (by decide)

theorem placeReply_host (n : Nat) (r : Reply) (s : State) : ∃ m0 m1, (placeReply n r s).host =
    { s.host with replies := s.host.replies.erase r, queues := upsert n (hostQueue s n).replied s.host.queues, mem0 := m0, mem1 := m1 } := by
  obtain ⟨m0, m1, written⟩ := hostWrite_host (b2n (hostQueue s n).port) ((hostQueue s n).cqbase.toNat + 32 * (hostQueue s n).cqtail)
    (r.bytes (hostQueue s n).phase n) (takeReply r s)
  refine ⟨m0, m1, ?_⟩
  rw [placeReply, setHostQueue_host, written, takeReply_host]

theorem placeReply_frame (n : Nat) (r : Reply) (s : State) : OnlyChanges [.host, .rel] s (placeReply n r s) := by
  have taken : OnlyChanges [.host, .rel] s (takeReply r s) :=
    (only_host (OnlyChanges.refl _ _) _ (by decide)).step (journalRecord_frame _) (by decide)
  exact (taken.step (hostWrite_frame _ _ _ _) (by decide)).step (setHostQueue_frame _ _ _) (by decide)

@[simp] theorem placeReply_xing (n : Nat) (r : Reply) (s : State) : (placeReply n r s).xing = s.xing := placeReply_frame n r s .xing (by decide)

@[simp] theorem placeReply_store (n : Nat) (r : Reply) (s : State) : (placeReply n r s).store = s.store := placeReply_frame n r s .store (by decide)

@[simp] theorem msi_placeReply (n : Nat) (r : Reply) (s : State) : (placeReply n r s).host.msi = s.host.msi := by
  obtain ⟨m0, m1, host⟩ := placeReply_host n r s
  rw [host]

@[simp] theorem getPcie_placeReply (n : Nat) (r : Reply) (s : State) (port : Nat) : getPcie (placeReply n r s) port = getPcie s port := by
  obtain ⟨m0, m1, host⟩ := placeReply_host n r s
  rw [getPcie, host]
  rfl

@[simp] theorem calm_placeReply (n : Nat) (r : Reply) (s : State) : Calm (placeReply n r s) ↔ Calm s := by
  rw [Calm, placeReply_xing]
  rfl

@[simp] theorem xingClosed_placeReply (n : Nat) (r : Reply) (s : State) (a b : Nat) : xingClosed (placeReply n r s) a b = xingClosed s a b := by
  rw [xingClosed, placeReply_xing]
  rfl

@[simp] theorem sendsMessage_placeReply (irq : Bool) (port : Nat) (v : Byte) (n : Nat) (r : Reply) (s : State) :
    sendsMessage irq port v (placeReply n r s) = sendsMessage irq port v s := by
  rw [sendsMessage, getPcie_placeReply]
  rfl

/-- What REPLY_WRITE leaves behind whether its message goes out or is lost: the reply in host memory, and its queue moved on. -/
structure ReplyStands (n : Nat) (r : Reply) (s t : State) : Prop where
  replies : t.host.replies = s.host.replies.erase r
  queue : hostQueue t n = (hostQueue s n).replied
  bytes : ∀ k < 32, hostRead t (b2n (hostQueue s n).port) ((hostQueue s n).cqbase.toNat + 32 * (hostQueue s n).cqtail + k) =
    (r.bytes (hostQueue s n).phase n).getD k 0

theorem replyStands_placeReply (n : Nat) (r : Reply) (s : State) : ReplyStands n r s (placeReply n r s) := by
  obtain ⟨m0, m1, host⟩ := placeReply_host n r s
  refine ⟨congrArg HostIf.replies host, ?_, fun k hk => ?_⟩
  · rw [hostQueue, host]
    exact lookupD_upsert_self _ _ _ _
  · exact hostRead_hostWrite (by rwa [length_replyBytes]) _ _ _

theorem ReplyStands.of_same {n : Nat} {r : Reply} {s t u : State} (stands : ReplyStands n r s u) (same : HostSame u t) : ReplyStands n r s t := by
  obtain ⟨replies, queue, bytes⟩ := stands
  exact ⟨(replies_of_butLog same).trans replies, (hostQueue_of_butLog same n).trans queue, fun k hk => (hostRead_of_butLog same _ _).trans (bytes k hk)⟩

theorem hostQueue_takeReply (r : Reply) (s : State) (n : Nat) : hostQueue (takeReply r s) n = hostQueue s n := by
  rw [hostQueue, takeReply_host]
  rfl

theorem putReply_ok (n : Nat) (r : Reply) (s : State) : putReply n r .ok (takeReply r s) =
    messageIf ((hostQueue s n).irqAll || r.notify) (b2n (hostQueue s n).port) (hostQueue s n).vector (placeReply n r s) := by
  simp only [putReply, hostQueue_takeReply, placeReply, Queue.replied, decide_eq_true_eq, messageIf]
  cases (hostQueue s n).irqAll || r.notify <;> rfl

theorem putReply_overrun {n : Nat} {r : Reply} {s : State} (asked : ((hostQueue s n).irqAll || r.notify) = true) (a b : Nat) :
    putReply n r (.overrun a b) (takeReply r s) = xingRecordFor r.origin 0 0 a b false (placeReply n r s) := by
  simp only [putReply, hostQueue_takeReply, asked, placeReply, Queue.replied, decide_eq_true_eq, Bool.not_true, Bool.false_eq_true, if_false]

/-- REPLY_WRITE of a queue's oldest reply. -/
theorem exec_replyWrite_of_oldest {n : Nat} {r : Reply} {s : State} (active : s.rel.ccFailed = false) (opened : xingClosed s 12 14 = false)
    (oldest : (s.host.replies.find? fun r => r.queue == n || r.queue == n + 64) = some r) (live : r.queue = n) (t : Transit) :
    exec (.replyWrite n t) s = .next (putReply n r t (takeReply r s)) := by
  show execReplyWrite n t s = _
  simp [execReplyWrite, active, opened, oldest, live, takeReply]

/-- Settles O54: the reply stands in host memory, its message goes out, becomes pending or is held as its port and the crossing allow, or its loss is counted. -/
theorem repliesAreWritten : Obligations.RepliesAreWritten := by
  intro n r s active opened oldest live q port v irq sends
  have placed : OnlyChanges [.host, .rel, .xing, .store] s (placeReply n r s) := (placeReply_frame n r s).mono (by decide)
  have openedThen : xingClosed (placeReply n r s) 12 14 = false := by simpa using opened
  refine ⟨?_, fun a b asked => ?_⟩
  · obtain ⟨replies, queue, bytes⟩ := (replyStands_placeReply n r s).of_same (messageIf_same irq port q.vector _)
    have written : exec (.replyWrite n .ok) s = .next (messageIf irq port q.vector (placeReply n r s)) := by
      rw [exec_replyWrite_of_oldest active opened oldest live, putReply_ok]
      rfl
    refine ⟨_, written, replies, length_replyBytes _ _ _, congrArg Queue.cqtail queue, congrArg Queue.phase queue, congrArg Queue.cqused queue,
      congrArg Queue.outstanding queue, bytes, fun calm => ⟨?_, ?_⟩, fun busy => ⟨?_, fun leaves room => ?_⟩,
      fun asked serving masked => ?_, placed.step (messageIf_frame _ _ _ _) (by decide)⟩
    · rw [msi_messageIf_of_calm openedThen ((calm_placeReply n r s).mpr calm), sendsMessage_placeReply, msi_placeReply]
      rfl
    · exact (placeReply_frame n r s).step (messageIf_frame_of_calm ((calm_placeReply n r s).mpr calm) _ _ _) (by decide)
    · rw [msi_messageIf_of_busy openedThen (mt (calm_placeReply n r s).mp busy), msi_placeReply]
    · rw [irqs_messageIf_of_busy openedThen (mt (calm_placeReply n r s).mp busy) (by simpa using room)
        ((sendsMessage_placeReply _ _ _ _ _ _).trans leaves), placeReply_xing]
    · exact mem_pba_messageIf openedThen asked ((congrArg PciePort.perst (getPcie_placeReply n r s port)).trans serving)
        ((congrArg (PciePort.masked · v) (getPcie_placeReply n r s port)).trans masked)
  · obtain ⟨replies, -, bytes⟩ := (replyStands_placeReply n r s).of_same (xingRecordFor_same r.origin 0 0 a b _ false)
    have written : exec (.replyWrite n (.overrun a b)) s = .next (xingRecordFor r.origin 0 0 a b false (placeReply n r s)) := by
      rw [exec_replyWrite_of_oldest active opened oldest live, putReply_overrun asked]
    refine ⟨_, written, replies, overrun_xingRecordFor _ _ _ _ _ _, fun calm => ?_, ?_, bytes,
      placed.step (xingRecordFor_frame _ _ _ _ _ _ _) (by decide)⟩
    · simpa using count_xingRecordFor r.origin 0 0 a b _ ((calm_placeReply n r s).mpr calm)
    · simpa [Records] using records_xingRecordFor r.origin 0 0 a b (placeReply n r s)

end Sys2Proof.Machine
end

section
/-! SUPPORT. The 128-bit registers: which slots hold their halves, what a served read of a half returns and latches (R542), and what a write of REGION_n does
(R6, R272, R273). -/

namespace Sys2Proof.Machine

/-! ### The slots of the 128-bit registers (R545) -/

theorem lowerHalf_iff (o : Nat) : lowerHalf o = true ↔ o = 0x520 ∨ (0x800 ≤ o ∧ o < 0xC00) ∧ o % 16 = 0 := by
  simp [lowerHalf, inRange]

theorem upperHalf_iff (o : Nat) : upperHalf o = true ↔ o = 0x528 ∨ (0x800 ≤ o ∧ o < 0xC00) ∧ o % 16 = 8 := by
  simp [upperHalf, inRange]

theorem upperHalf_add_eight {o : Nat} (lower : lowerHalf o = true) : upperHalf (o + 8) = true := by
  rw [lowerHalf_iff] at lower
  rw [upperHalf_iff]
  omega

theorem upperHalf_of_lowerHalf {o : Nat} (lower : lowerHalf o = true) : upperHalf o = false := by
  rw [lowerHalf_iff] at lower
  rw [← Bool.not_eq_true, upperHalf_iff]
  omega

theorem lowerHalf_of_upperHalf {o : Nat} (upper : upperHalf o = true) : lowerHalf o = false := by
  rw [← Bool.not_eq_true]
  exact fun lower => by simp [upperHalf_of_lowerHalf lower] at upper

/-- A slot that holds a half of a 128-bit register. -/
def WideSlot (o : Nat) : Prop := lowerHalf o = true ∨ upperHalf o = true

theorem wideSlot_iff (o : Nat) : WideSlot o ↔ o = 0x520 ∨ o = 0x528 ∨ (0x800 ≤ o ∧ o < 0xC00) ∧ o % 8 = 0 := by
  rw [WideSlot, lowerHalf_iff, upperHalf_iff]
  omega

/-- An 8 B-aligned slot other than those whose reads also draw a free value or move DBG_ADDR. -/
theorem aligned_of_wideSlot {o : Nat} (wide : WideSlot o) : o % 8 = 0 ∧ o / 8 * 8 = o ∧ o ≠ 0x18 ∧ o ≠ 0x3020 := by
  rw [wideSlot_iff] at wide
  omega

theorem inRange_below {o lo n : Nat} (below : o < lo) : inRange o lo n = false := by
  simp [inRange, below]

theorem inRange_above {o lo n : Nat} (above : lo + n ≤ o) : inRange o lo n = false := by
  simp [inRange, above]

theorem regInfo_of_wideSlot {o : Nat} (wide : WideSlot o) : regInfo o = some ⟨128, 0⟩ := by
  obtain rfl | rfl | ⟨⟨low, high⟩, -⟩ := (wideSlot_iff o).mp wide
  · rfl
  · rfl
  · have region : inRange o 0x800 1024 = true := by simp [inRange, low, high]
    have range {lo n : Nat} (h : lo + n ≤ 0x800) : inRange o lo n = false := inRange_above (h.trans low)
    have single {r : Nat} (h : r < 0x800) : o ≠ r := by omega
    have notLow : ¬ o < 0x200 := by omega
    simp [regInfo, region, range, single, notLow]

/-! ### Served reads (R542) -/

/-- Below the snapshot block, a slot reads as its register. -/
theorem slotRead_of_register {o : Nat} {r : RegInfo} {s : State} (info : regInfo o = some r) (below : o < 0x10000) (stage : stageDone s 2 = true)
    (port : Nat) : slotRead s port false o = regValue s o := by
  have window {lo n : Nat} (h : 0x10000 ≤ lo) : inRange o lo n = false := inRange_below (below.trans_le h)
  simp [slotRead, window, info, stage]

theorem slotRead_of_wideSlot {o : Nat} {s : State} (wide : WideSlot o) (stage : stageDone s 2 = true) (port : Nat) :
    slotRead s port false o = regValue s o := by
  have below := (wideSlot_iff o).mp wide
  exact slotRead_of_register (regInfo_of_wideSlot wide) (by omega) stage port

/-- A served read of a whole slot. -/
theorem exec_readLatch_of_aligned {o : Nat} {s : State} (serves : Serves s) (aligned : o % 8 = 0) (h : HostAccess) :
    exec (.readLatch h o true) s = .next (readSlot h o true s) := by
  obtain ⟨-, active, crossing⟩ := serves
  show execReadLatch h o true s = _
  simp [execReadLatch, aligned, active, crossing]

@[simp] theorem getPcie_setPcie_self (n : Nat) (p : PciePort) (s : State) : getPcie (setPcie n p s) n = p := lookupD_upsert_self _ _ _ _

@[simp] theorem getPcie_returnRead (l : List Byte) (poison : Bool) (s : State) (n : Nat) : getPcie (returnRead l poison s) n = getPcie s n := rfl

theorem privReg_of_privServed {h : HostAccess} {s : State} (served : PrivServed h s) : privReg h s = true := by
  simp [privReg, served.1.stage, served.2]

/-- The state with bits [127:64] of the register at an offset latched for a port. -/
def latchUpper (port o : Nat) (s : State) : State :=
  setPcie port { getPcie s port with latch := BitVec.ofNat 64 (regValue s (o + 8)) } s

section
variable {h : HostAccess} {o : Nat} {s : State} (served : PrivServed h s)
include served

theorem exec_readLatch_lowerHalf (lower : lowerHalf o = true) :
    exec (.readLatch h o true) s = .next (returnRead (toLE 8 (regValue s o)) false (latchUpper h.port o s)) := by
  obtain ⟨aligned, slot, notStatus, notData⟩ := aligned_of_wideSlot (.inl lower)
  rw [exec_readLatch_of_aligned served.1 aligned]
  simp [readSlot, slot, notData, notStatus, lower, upperHalf_of_lowerHalf lower, privReg_of_privServed served, served.2,
    slotRead_of_wideSlot (.inl lower) served.1.stage, slotRead_of_wideSlot (.inr (upperHalf_add_eight lower)) served.1.stage, readPart, latchUpper]

theorem exec_readLatch_upperHalf (upper : upperHalf o = true) :
    exec (.readLatch h o true) s = .next (returnRead (toLE 8 (getPcie s h.port).latch.toNat) false s) := by
  obtain ⟨aligned, slot, notStatus, notData⟩ := aligned_of_wideSlot (.inr upper)
  rw [exec_readLatch_of_aligned served.1 aligned]
  simp [readSlot, slot, notData, notStatus, upper, lowerHalf_of_upperHalf upper, privReg_of_privServed served, readPart]

end

theorem wideRegisters_latch : Claim.WideRegistersLatch := by
  intro h o s served lower
  have upper := upperHalf_add_eight lower
  refine ⟨⟨upper, regInfo_of_wideSlot (.inl lower), regInfo_of_wideSlot (.inr upper)⟩,
    ⟨_, exec_readLatch_lowerHalf served lower, rfl, ?_, ?_⟩, fun u servedThen => exec_readLatch_upperHalf servedThen upper⟩
  · simp [latchUpper]
  · exact (setPcie_frame _ _ _).step (returnRead_frame _ _ _) (by decide)

/-! ### Writes of REGION_n (R6, R272, R273) -/

/-- A served register write acts at once. -/
theorem orHold_of_serves {s : State} (serves : Serves s) (h : HostAccess) (off : Nat) (wide : Bool) (v : Nat) (act : State → Out) :
    orHold h off wide v act s = act s := by
  simp [orHold, serves.crossing, serves.active]

/-- A write to a register that only the privileged view holds does nothing in the job view. -/
theorem privReg_of_job {h : HostAccess} (job : h.job = true) (s : State) : privReg h s = false := by simp [privReg, job]

section
variable {h : HostAccess} {s : State}

theorem exec_regionStage_of_job (serves : Serves s) (job : h.job = true) (n : Nat) (v : W64) : exec (.regionStage h n v) s = .next s := by
  show execRegionStage h n v s = _
  simp [execRegionStage, orHold_of_serves serves, privReg_of_job job]

theorem exec_regionWrite_of_job (serves : Serves s) (job : h.job = true) (n : Nat) (v : W64) : exec (.regionWrite h n v) s = .next s := by
  show execRegionWrite h n v s = _
  simp [execRegionWrite, orHold_of_serves serves, privReg_of_job job]

theorem exec_regionStage_of_served (served : PrivServed h s) (n : Nat) (v : W64) : exec (.regionStage h n v) s = .next (writeRegionUpper n v s) := by
  show execRegionStage h n v s = _
  simp [execRegionStage, orHold_of_serves served.1, privReg_of_privServed served]

theorem exec_regionWrite_of_served (served : PrivServed h s) (n : Nat) (v : W64) : exec (.regionWrite h n v) s = .next (writeRegionLower n v s) := by
  show execRegionWrite h n v s = _
  simp [execRegionWrite, orHold_of_serves served.1, privReg_of_privServed served]

end

section
variable {s : State}

theorem writeRegionUpper_of_closed (closed : s.host.privOpen = false) (n : Nat) (v : W64) : writeRegionUpper n v s = lockViolation s := by
  simp [writeRegionUpper, closed]

theorem writeRegionLower_of_closed (closed : s.host.privOpen = false) (n : Nat) (v : W64) : writeRegionLower n v s = lockViolation s := by
  simp [writeRegionLower, closed]

theorem writeRegionUpper_of_open (opened : s.host.privOpen = true) (n : Nat) (v : W64) :
    writeRegionUpper n v s = setRegion n { getRegion s n with staged := some v } s := by
  simp [writeRegionUpper, opened]

/-- The entry that a write of bits [63:0] of REGION_n asks for. -/
def askedRegion (s : State) (n : Nat) (v : W64) : Region := regionFrom ((getRegion s n).staged.getD (getRegion s n).upper) v

/-- An entry that is not valid, or that passes R273, is made. -/
theorem writeRegionLower_of_accepted (opened : s.host.privOpen = true) {n : Nat} {v : W64}
    (accepted : (askedRegion s n v).valid = false ∨ regionReason s n (askedRegion s n v) = none) :
    writeRegionLower n v s = setRegion n (askedRegion s n v) s := by
  have unrefused : (if (askedRegion s n v).valid then regionReason s n (askedRegion s n v) else none) = none := by
    obtain invalid | passes := accepted
    · rw [invalid]; rfl
    · rw [passes, ite_self]
  rw [askedRegion] at unrefused
  simp only [writeRegionLower, opened, unrefused, askedRegion]
  rfl

/-- A valid entry that fails a check of R273 leaves the entry as it was, with nothing staged. -/
theorem writeRegionLower_of_rejected (opened : s.host.privOpen = true) {n k : Nat} {v : W64} (valid : (askedRegion s n v).valid = true)
    (fails : regionReason s n (askedRegion s n v) = some k) :
    writeRegionLower n v s = post Ev.regionReject (det [(1, k)]) (setRegion n { getRegion s n with staged := none } s) := by
  have refused : (if (askedRegion s n v).valid then regionReason s n (askedRegion s n v) else none) = some k := by rw [valid, fails]; rfl
  rw [askedRegion] at refused
  simp only [writeRegionLower, opened, refused]
  rfl

end

theorem regionWrites_areChecked : Claim.RegionWritesAreChecked := by
  intro h n v s serves
  refine ⟨fun job => ⟨exec_regionStage_of_job serves job n v, exec_regionWrite_of_job serves job n v⟩, fun priv closed => ⟨?_, ?_⟩,
    fun priv opened => ⟨?_, fun accepted => ?_, fun k valid fails => ?_⟩⟩
  · rw [exec_regionStage_of_served ⟨serves, priv⟩, writeRegionUpper_of_closed closed, lockViolation]
  · rw [exec_regionWrite_of_served ⟨serves, priv⟩, writeRegionLower_of_closed closed, lockViolation]
  · rw [exec_regionStage_of_served ⟨serves, priv⟩, writeRegionUpper_of_open opened, setRegion]
  · rw [exec_regionWrite_of_served ⟨serves, priv⟩, writeRegionLower_of_accepted opened accepted]
    rfl
  · rw [exec_regionWrite_of_served ⟨serves, priv⟩, writeRegionLower_of_rejected opened valid fails, setRegion]

/-- Settles O10: a read of the lower slot of a 128-bit register latches the other for its port; REGION_n is written by view, lock and the checks of R273. -/
theorem wideRegistersLatch : Obligations.WideRegistersLatch := ⟨wideRegisters_latch, regionWrites_areChecked⟩

end Sys2Proof.Machine
end

section
/-! SUPPORT. A leak and its latch (R557): what a shutdown leaves (R554), what the leak does to a module that is on and to one that is off, and which voltages of
the input close or open the latch (R552, R553). -/

namespace Sys2Proof.Machine

/-! ### The thresholds (R552) -/

/-- An input below 40 V is below the undervoltage threshold. -/
theorem lt_underMv_of_lt {mv : Int} (low : mv < 40000) : mv < (underMv : Int) := by
  unfold underMv
  omega

theorem underMv_lt_overMv : (underMv : Int) < overMv := by
  unfold underMv overMv
  omega

/-! ### A shutdown (R554) -/

/-- A module with no rail on or starting. -/
structure Off (s : State) : Prop where
  powered : s.pins.powered = false
  precharging : s.pins.precharging = false

theorem shutDown_of_off {s : State} (off : Off s) (leak : Bool) : shutDown leak s = s := by
  simp [shutDown, off.powered, off.precharging]

/-- With the rails off no field keeps one, so a shutdown leaves none. -/
theorem fields_powerOff (leak : Bool) (s : State) : (powerOff leak s).fields = [] := rfl

theorem leakLatched_powerOff_leak (s : State) : (powerOff true s).pins.leakLatched = true := Bool.or_true _

/-! ### LEAK -/

theorem exec_leak_of_on {s : State} (on : s.pins.powered = true ∨ s.pins.precharging = true) : exec .leak s = .next (powerOff true s) := by
  show execLeak s = _
  simp [execLeak, on]

theorem exec_leak_of_off {s : State} (off : Off s) : exec .leak s = .next { s with pins := { s.pins with leakLatched := true } } := by
  show execLeak s = _
  simp [execLeak, off.powered, off.precharging]

/-! ### The input and the latch (R553, R557) -/

/-- From 40 V up, every branch of PRECHARGE leaves a latched module that is off as it is: a shutdown finds no rail on, and the latch bars the restart. -/
theorem exec_precharge_of_latched {s : State} (off : Off s) (latched : s.pins.leakLatched = true) {mv : Int} (high : 40000 ≤ mv) :
    exec (.precharge mv) s = .next s := by
  have undamaged : ¬ mv < -500 := by omega
  have stays : ¬ mv < 40000 := by omega
  show execPrecharge mv s = _
  simp [execPrecharge, undamaged, stays, shutDown_of_off off, latched]

theorem exec_pwrOkRise_of_off {s : State} (off : Off s) : exec .pwrOkRise s = .next s := by
  show execPwrOkRise s = _
  simp [execPwrOkRise, off.precharging]

/-- An input below 40 V shuts the module down and opens its latches. -/
theorem exec_precharge_of_fallen (s : State) {mv : Int} (undamaged : -500 ≤ mv) (low : mv < 40000) :
    exec (.precharge mv) s = .next { shutDown false s with pins := { (shutDown false s).pins with fell := true, leakLatched := false } } := by
  have under := lt_underMv_of_lt low
  have notOver : ¬ (overMv : Int) < mv := (under.trans underMv_lt_overMv).not_gt
  show execPrecharge mv s = _
  simp [execPrecharge, undamaged.not_gt, notOver, under, low]

/-- Settles O47: a leak turns a module that is on off; the latch bars the restart in every branch of PRECHARGE from 40 V up, and the branch below 40 V opens it. -/
theorem leakLatches : Obligations.LeakLatches := by
  refine ⟨fun s on => ?_, fun s powered precharging => ?_, fun mv s undamaged low => ?_⟩
  · exact ⟨_, exec_leak_of_on on, rfl, rfl, rfl, leakLatched_powerOff_leak s, fields_powerOff true s, rfl, rfl, rfl, rfl, rfl⟩
  · have off : Off s := ⟨powered, precharging⟩
    exact ⟨exec_leak_of_off off, fun _ latched high => exec_precharge_of_latched off latched high, exec_pwrOkRise_of_off off⟩
  · exact ⟨_, exec_precharge_of_fallen s undamaged low, rfl, rfl⟩

end Sys2Proof.Machine
end

section
/-! SUPPORT. The step: what every command answers, the canonical form of module memory, the idle tick, and reads of plain registers (R34, R494, R541, R552). -/

namespace Sys2Proof.Machine

/-! ### Every command answers -/

/-- A command answers a next state. -/
def Answers (x : Out) : Prop := ∃ t, x = .next t

theorem answers_next (s : State) : Answers (.next s) := ⟨s, rfl⟩

/-- A register write that is held, refused by a closed crossing, or takes effect answers a next state if its effect does (R46, R479). -/
theorem answers_orHold {act : State → Out} (effect : ∀ s, Answers (act s)) (h : HostAccess) (off : Nat) (wide : Bool) (v : Nat) (s : State) :
    Answers (orHold h off wide v act s) := by
  unfold orHold
  split
  · exact answers_next _
  · split
    · exact effect _
    · split <;> exact answers_next _

theorem answers_imageStage (stage kind : Nat) (go : State → State) (s : State) : Answers (imageStage stage kind go s) := by
  unfold imageStage
  split
  · exact answers_next _
  · split <;> exact answers_next _

/-- The commands by the shape of their meaning: a next state outright, a register write, an image stage, and a choice between next states. -/
theorem exec_answers {c : Instr} (undamaged : ∀ mv, c = .precharge mv → -500 ≤ mv) (s : State) : Answers (exec c s) := by
  cases c with
  | precharge mv =>
    have : ¬ mv < -500 := not_lt.mpr (undamaged mv rfl)
    rw [exec, execPrecharge, if_neg this]
    (repeat' split) <;> exact answers_next _
  | stageCcFw | stageCapstans | stageSeqFw =>
    exact answers_imageStage ..
  | stageLinks =>
    rw [exec, execStageLinks]
    exact answers_imageStage ..
  | registerWrite | sqDb | cqDb | queueEnable | queueDisable | jobSeedWrite | committedWrite | privLockFreeze | stallEnClear | regionStage |
    regionWrite | cadSrc | resync | dbgHalt | dbgResume | dbgStep | dbgDataWrite =>
    dsimp only [exec,
      execRegisterWrite, execSqDb, execCqDb, execQueueEnable, execQueueDisable, execJobSeedWrite, execCommittedWrite, execPrivLockFreeze,
      execStallEnClear, execRegionStage, execRegionWrite, execCadSrc, execResync, execDbgHalt, execDbgResume, execDbgStep, execDbgDataWrite]
    refine answers_orHold (fun _ => ?_) ..
    (repeat' split) <;> exact answers_next _
  | nop | eventGet | buOpen | loan | hintPlace | playFire | playAbort | part | ledgerSet | ledgerGet | groupSet | commitArm | stateLoad | planSet |
    routeSet | collSet | collFire | barrier | portCtrl | xmapSet | xchSet | xchGet | prefSet | telemSnap | watchSet | watchGet | vecEval | faultGet |
    keyRevoke | rollbackSet | debugLock | playEnd | endMove | moveNop | fireat | tie | wait | kset | partMove | iframe | loadw | swapw | stream | sxt
    | elem | reduce | smxb | nrmb | topk | gather | scatter | scatterAdd | pack | amaxt | move | inval | dispatch | combine | beatEdge |
    crossingTimeout | opTransitionStep | chMigrate | stackSplice | nak | hello | shutdown | modRstRelease | perstAssert | idleFlit | fwStageWrite |
    resetStageStart =>
    exact answers_next _
  | commandFetch | replyWrite | apertureRead | apertureWrite | dbgDataRead | loanRevokeEffect | partComplete | getCert | attest | debugChallenge |
    debugUnlock | grant | offset | report | getSensorReading | playStart | moveCompletion | fireatRelease | remoteTieArrival | waitSatisfied |
    waitTimeout | rampStartGrant | passBeat | reductionResult | groupTimeout | moveReplay | xchCount | xchGrant | xchRow | fetch | result | leaf |
    roundSum | collectiveStart | collectiveComplete | barrierArrive | barrierRelease | barrierTimeout | contribution | normPass | normReduction |
    applyPass | capstanConfirm | readySend | commitVote | commit | commitRetract | commitSplit | outcomeWindowClose | capstanFail | rebuildComplete |
    tallyComparison | auditSample | turnStamp | cadenceLoss | cadHoldover | scheduledEvent | powerTurnBoundary | droopStretch | stretchEnd |
    grantStale | turnBoundary | calibrationSlot | refresh | scrub | scrubStarved | rowRepair | nsThermal | migrationSwitch | rimScrub | flitData |
    laneSwap | helloSend | packetForward | hawPortDown | hawStall | portTraining | qualificationEnd | discoveryTimeout | playRerun | seqHang |
    selfTest | tileSplice | tileWear | phaseFault | pllSwitch | ccTakeover | ccStandbyLost | stageInventory | stageStacks | stageFill | broadcastRound
    | stageCadence | cadenceStageTimeout | stageReady | stageComplete | pwrOkRise | leak | modRstAssert | perstRelease | controlPacket | trainingEnd |
    earlySignal | readLatch | doeDiscovery | mctpControl =>
    dsimp only [exec,
      execCommandFetch, execReplyWrite, execApertureRead, execApertureWrite, execDbgDataRead, execLoanRevokeEffect, execPartComplete,
      execGetCert, execAttest, execDebugChallenge, execDebugUnlock, execGrant, execOffset, execReport, execGetSensorReading, execPlayStart,
      execMoveCompletion, execFireatRelease, execRemoteTieArrival, execWaitSatisfied, execWaitTimeout, execRampStartGrant, execPassBeat,
      execReductionResult, execGroupTimeout, execMoveReplay, execXchCount, execXchGrant, execXchRow, execFetch, execResult, execLeaf,
      execRoundSum, execCollectiveStart, execCollectiveComplete, execBarrierArrive, execBarrierRelease, execBarrierTimeout,
      execContribution, execNormPass, execNormReduction, execApplyPass, execCapstanConfirm, execReadySend, execCommitVote, execCommit,
      execCommitRetract, execCommitSplit, execOutcomeWindowClose, execCapstanFail, execRebuildComplete, execTallyComparison,
      execAuditSample, execTurnStamp, execCadenceLoss, execCadHoldover, execScheduledEvent, execPowerTurnBoundary, execDroopStretch,
      execStretchEnd, execGrantStale, execTurnBoundary, execCalibrationSlot, execRefresh, execScrub, execScrubStarved, execRowRepair,
      execNsThermal, execMigrationSwitch, execRimScrub, execFlitData, execLaneSwap, execHelloSend, execPacketForward, execHawPortDown,
      execHawStall, execPortTraining, execQualificationEnd, execDiscoveryTimeout, execPlayRerun, execSeqHang, execSelfTest, execTileSplice,
      execTileWear, execPhaseFault, execPllSwitch, execCcTakeover, execCcStandbyLost, execStageInventory, execStageStacks, execStageFill,
      execBroadcastRound, execStageCadence, execCadenceStageTimeout, execStageReady, execStageComplete, execPwrOkRise, execLeak,
      execModRstAssert, execPerstRelease, execControlPacket, execTrainingEnd, execEarlySignal, execReadLatch, execDoeDiscovery,
      execMctpControl]
    (repeat' split) <;> exact answers_next _

/-- Settles O2: outside the damage of PRECHARGE below −0.5 V every command answers a next state. -/
theorem onlyDamageStops : Obligations.OnlyDamageStops := by
  refine ⟨fun _ s undamaged => exec_answers undamaged s, fun mv s low => ?_⟩
  exact if_pos low

/-! ### The canonical form of module memory -/

/-- Each command's meaning keeps the form: it writes memory by the operations that keep it, or leaves memory alone. -/
theorem exec_inv (c : Instr) {s : State} (h : Inv s) : outAll Inv (exec c s) := by
  cases c with
  | registerWrite => exact execRegisterWrite_inv _ _ _ _ _ h
  | sqDb => exact inv_stepOut h (execSqDb_frame _ _ _ _) (by decide)
  | cqDb => exact inv_stepOut h (execCqDb_frame _ _ _ _) (by decide)
  | queueEnable => exact inv_stepOut h (execQueueEnable_frame _ _ _) (by decide)
  | queueDisable => exact inv_stepOut h (execQueueDisable_frame _ _ _) (by decide)
  | commandFetch => exact execCommandFetch_inv _ _ _ h
  | replyWrite => exact inv_stepOut h (execReplyWrite_frame _ _ _) (by decide)
  | apertureRead => exact execApertureRead_inv _ _ _ _ _ h
  | apertureWrite => exact execApertureWrite_inv _ _ _ _ _ h
  | jobSeedWrite => exact inv_stepOut h (execJobSeedWrite_frame _ _ _) (by decide)
  | committedWrite => exact execCommittedWrite_inv _ _ _ h
  | privLockFreeze => exact inv_stepOut h (execPrivLockFreeze_frame _ _) (by decide)
  | stallEnClear => exact inv_stepOut h (execStallEnClear_frame _ _) (by decide)
  | regionStage => exact inv_stepOut h (execRegionStage_frame _ _ _ _) (by decide)
  | regionWrite => exact inv_stepOut h (execRegionWrite_frame _ _ _ _) (by decide)
  | cadSrc => exact inv_stepOut h (execCadSrc_frame _ _ _) (by decide)
  | resync => exact inv_stepOut h (execResync_frame _ _) (by decide)
  | dbgHalt => exact inv_stepOut h (execDbgHalt_frame _ _) (by decide)
  | dbgResume => exact execDbgResume_inv _ _ h
  | dbgStep => exact inv_stepOut h (execDbgStep_frame _ _) (by decide)
  | dbgDataRead => exact inv_stepOut h (execDbgDataRead_frame _ _) (by decide)
  | dbgDataWrite => exact inv_stepOut h (execDbgDataWrite_frame _ _ _) (by decide)
  | nop => exact execNop_inv _ _ h
  | eventGet => exact execEventGet_inv _ _ h
  | buOpen => exact execBuOpen_inv _ _ h
  | loan => exact execLoan_inv _ _ h
  | loanRevokeEffect => exact inv_stepOut h (execLoanRevokeEffect_frame _ _) (by decide)
  | hintPlace => exact execHintPlace_inv _ _ h
  | playFire => exact execPlayFire_inv _ _ h
  | playAbort => exact execPlayAbort_inv _ _ h
  | part => exact execPart_inv _ _ h
  | partComplete => exact inv_stepOut h (execPartComplete_frame _ _ _) (by decide)
  | ledgerSet => exact execLedgerSet_inv _ _ h
  | ledgerGet => exact execLedgerGet_inv _ _ h
  | groupSet => exact execGroupSet_inv _ _ h
  | commitArm => exact execCommitArm_inv _ _ h
  | stateLoad => exact execStateLoad_inv _ _ h
  | planSet => exact execPlanSet_inv _ _ h
  | routeSet => exact execRouteSet_inv _ _ h
  | collSet => exact execCollSet_inv _ _ h
  | collFire => exact execCollFire_inv _ _ h
  | barrier => exact execBarrier_inv _ _ h
  | portCtrl => exact execPortCtrl_inv _ _ h
  | xmapSet => exact execXmapSet_inv _ _ h
  | xchSet => exact execXchSet_inv _ _ h
  | xchGet => exact execXchGet_inv _ _ h
  | prefSet => exact execPrefSet_inv _ _ h
  | telemSnap => exact execTelemSnap_inv _ _ h
  | watchSet => exact execWatchSet_inv _ _ h
  | watchGet => exact execWatchGet_inv _ _ h
  | vecEval => exact execVecEval_inv _ _ h
  | faultGet => exact execFaultGet_inv _ _ h
  | keyRevoke => exact execKeyRevoke_inv _ _ h
  | rollbackSet => exact execRollbackSet_inv _ _ h
  | debugLock => exact execDebugLock_inv _ _ h
  | getCert => exact inv_stepOut h (execGetCert_frame _ _) (by decide)
  | attest => exact inv_stepOut h (execAttest_frame _ _ _) (by decide)
  | debugChallenge => exact inv_stepOut h (execDebugChallenge_frame _ _) (by decide)
  | debugUnlock => exact inv_stepOut h (execDebugUnlock_frame _ _ _) (by decide)
  | grant => exact inv_stepOut h (execGrant_frame _ _ _ _) (by decide)
  | offset => exact inv_stepOut h (execOffset_frame _ _ _) (by decide)
  | report => exact inv_stepOut h (execReport_frame _ _) (by decide)
  | getSensorReading => exact inv_stepOut h (execGetSensorReading_frame _ _) (by decide)
  | playStart => exact execPlayStart_inv _ _ _ h
  | playEnd => exact execPlayEnd_inv _ _ _ h
  | moveCompletion => exact execMoveCompletion_inv _ _ _ _ h
  | endMove => exact execEndMove_inv _ _ h
  | moveNop => exact execMoveNop_inv _ _ h
  | fireat => exact execFireat_inv _ _ h
  | fireatRelease => exact execFireatRelease_inv _ _ h
  | tie => exact execTie_inv _ _ h
  | remoteTieArrival => exact execRemoteTieArrival_inv _ _ _ _ h
  | wait => exact execWait_inv _ _ h
  | waitSatisfied => exact execWaitSatisfied_inv _ _ _ h
  | waitTimeout => exact inv_stepOut h (execWaitTimeout_frame _ _ _) (by decide)
  | kset => exact execKset_inv _ _ h
  | partMove => exact execPartMove_inv _ _ h
  | iframe => exact execIframe_inv _ _ h
  | loadw => exact execLoadw_inv _ _ h
  | swapw => exact execSwapw_inv _ _ h
  | stream => exact execStream_inv _ _ _ h
  | sxt => exact execSxt_inv _ _ h
  | rampStartGrant => exact execRampStartGrant_inv _ _ h
  | passBeat => exact inv_stepOut h (execPassBeat_frame _ _) (by decide)
  | elem => exact execElem_inv _ _ _ h
  | reduce => exact execReduce_inv _ _ _ h
  | smxb => exact execSmxb_inv _ _ _ h
  | nrmb => exact execNrmb_inv _ _ _ h
  | reductionResult => exact execReductionResult_inv _ _ h
  | groupTimeout => exact inv_stepOut h (execGroupTimeout_frame _ _) (by decide)
  | topk => exact execTopk_inv _ _ _ h
  | gather => exact execGather_inv _ _ h
  | scatter => exact execScatter_inv _ _ h
  | scatterAdd => exact execScatterAdd_inv _ _ _ h
  | pack => exact execPack_inv _ _ _ h
  | amaxt => exact execAmaxt_inv _ _ _ h
  | move => exact execMove_inv _ _ _ h
  | moveReplay => exact execMoveReplay_inv _ _ _ _ h
  | inval => exact execInval_inv _ _ h
  | dispatch => exact execDispatch_inv _ _ h
  | combine => exact execCombine_inv _ _ h
  | xchCount => exact execXchCount_inv _ _ _ h
  | xchGrant => exact execXchGrant_inv _ _ _ h
  | xchRow => exact execXchRow_inv _ _ _ h
  | fetch => exact execFetch_inv _ _ _ h
  | result => exact execResult_inv _ _ _ h
  | leaf => exact execLeaf_inv _ _ _ h
  | roundSum => exact inv_stepOut h (execRoundSum_frame _ _ _ _) (by decide)
  | collectiveStart => exact inv_stepOut h (execCollectiveStart_frame _ _) (by decide)
  | collectiveComplete => exact execCollectiveComplete_inv _ _ h
  | barrierArrive => exact inv_stepOut h (execBarrierArrive_frame _ _) (by decide)
  | barrierRelease => exact inv_stepOut h (execBarrierRelease_frame _ _) (by decide)
  | barrierTimeout => exact inv_stepOut h (execBarrierTimeout_frame _ _) (by decide)
  | contribution => exact execContribution_inv _ _ _ h
  | normPass => exact inv_stepOut h (execNormPass_frame _) (by decide)
  | normReduction => exact inv_stepOut h (execNormReduction_frame _) (by decide)
  | applyPass => exact execApplyPass_inv _ _ _ _ h
  | capstanConfirm => exact execCapstanConfirm_inv _ _ _ h
  | readySend => exact inv_stepOut h (execReadySend_frame _) (by decide)
  | commitVote => exact inv_stepOut h (execCommitVote_frame _) (by decide)
  | commit => exact execCommit_inv _ h
  | commitRetract => exact execCommitRetract_inv _ _ h
  | commitSplit => exact inv_stepOut h (execCommitSplit_frame _) (by decide)
  | outcomeWindowClose => exact execOutcomeWindowClose_inv _ h
  | capstanFail => exact execCapstanFail_inv _ _ h
  | rebuildComplete => exact execRebuildComplete_inv _ _ h
  | tallyComparison => exact inv_stepOut h (execTallyComparison_frame _ _ _) (by decide)
  | auditSample => exact inv_stepOut h (execAuditSample_frame _ _) (by decide)
  | beatEdge => exact execBeatEdge_inv _ _ _ h
  | turnStamp => exact inv_stepOut h (execTurnStamp_frame _ _ _) (by decide)
  | cadenceLoss => exact inv_stepOut h (execCadenceLoss_frame _ _) (by decide)
  | cadHoldover => exact inv_stepOut h (execCadHoldover_frame _) (by decide)
  | scheduledEvent => exact execScheduledEvent_inv _ h
  | crossingTimeout => exact inv_stepOut h (execCrossingTimeout_frame _ _ _) (by decide)
  | powerTurnBoundary => exact inv_stepOut h (execPowerTurnBoundary_frame _ _) (by decide)
  | opTransitionStep => exact inv_stepOut h (execOpTransitionStep_frame _ _) (by decide)
  | droopStretch => exact inv_stepOut h (execDroopStretch_frame _ _ _) (by decide)
  | stretchEnd => exact inv_stepOut h (execStretchEnd_frame _ _ _) (by decide)
  | grantStale => exact inv_stepOut h (execGrantStale_frame _) (by decide)
  | turnBoundary => exact inv_stepOut h (execTurnBoundary_frame _ _) (by decide)
  | calibrationSlot => exact inv_stepOut h (execCalibrationSlot_frame _ _ _ _ _ _ _) (by decide)
  | refresh => exact inv_stepOut h (execRefresh_frame _ _ _ _) (by decide)
  | scrub => exact execScrub_inv _ _ _ _ h
  | scrubStarved => exact inv_stepOut h (execScrubStarved_frame _) (by decide)
  | rowRepair => exact execRowRepair_inv _ _ _ _ _ _ _ h
  | nsThermal => exact execNsThermal_inv _ _ _ _ _ h
  | chMigrate => exact execChMigrate_inv _ _ _ _ h
  | migrationSwitch => exact inv_stepOut h (execMigrationSwitch_frame _ _ _ _) (by decide)
  | stackSplice => exact inv_stepOut h (execStackSplice_frame _ _) (by decide)
  | rimScrub => exact execRimScrub_inv _ _ _ h
  | flitData => exact inv_stepOut h (execFlitData_frame _ _ _ _) (by decide)
  | nak => exact inv_stepOut h (execNak_frame _ _ _) (by decide)
  | laneSwap => exact inv_stepOut h (execLaneSwap_frame _ _ _ _ _) (by decide)
  | hello => exact inv_stepOut h (execHello_frame _ _ _ _) (by decide)
  | helloSend => exact inv_stepOut h (execHelloSend_frame _ _) (by decide)
  | packetForward => exact inv_stepOut h (execPacketForward_frame _ _) (by decide)
  | hawPortDown port cause => exact inv_stepOut h (execHawPortDown_frame port cause s) (by decide)
  | hawStall => exact inv_stepOut h (execHawStall_frame _ _ _) (by decide)
  | portTraining => exact inv_stepOut h (execPortTraining_frame _ _ _) (by decide)
  | qualificationEnd => exact inv_stepOut h (execQualificationEnd_frame _ _ _) (by decide)
  | discoveryTimeout => exact inv_stepOut h (execDiscoveryTimeout_frame _ _) (by decide)
  | playRerun => exact execPlayRerun_inv _ _ _ h
  | seqHang => exact inv_stepOut h (execSeqHang_frame _ _) (by decide)
  | selfTest => exact inv_stepOut h (execSelfTest_frame _ _ _ _) (by decide)
  | tileSplice => exact execTileSplice_inv _ _ _ _ _ h
  | tileWear => exact inv_stepOut h (execTileWear_frame _ _ _) (by decide)
  | phaseFault => exact inv_stepOut h (execPhaseFault_frame _ _ _) (by decide)
  | pllSwitch => exact inv_stepOut h (execPllSwitch_frame _ _) (by decide)
  | ccTakeover => exact execCcTakeover_inv _ h
  | ccStandbyLost => exact inv_stepOut h (execCcStandbyLost_frame _) (by decide)
  | stageCcFw => exact inv_stepOut h (execStageCcFw_frame _) (by decide)
  | stageInventory => exact inv_stepOut h (execStageInventory_frame _ _) (by decide)
  | stageStacks => exact inv_stepOut h (execStageStacks_frame _ _ _) (by decide)
  | stageFill => exact execStageFill_inv _ _ _ h
  | stageCapstans => exact inv_stepOut h (execStageCapstans_frame _ _) (by decide)
  | stageSeqFw => exact inv_stepOut h (execStageSeqFw_frame _) (by decide)
  | broadcastRound => exact inv_stepOut h (execBroadcastRound_frame _ _ _ _) (by decide)
  | stageCadence => exact inv_stepOut h (execStageCadence_frame _) (by decide)
  | cadenceStageTimeout => exact inv_stepOut h (execCadenceStageTimeout_frame _) (by decide)
  | stageLinks => exact inv_stepOut h (execStageLinks_frame _) (by decide)
  | stageReady => exact inv_stepOut h (execStageReady_frame _) (by decide)
  | stageComplete => exact inv_stepOut h (execStageComplete_frame _ _ _ _) (by decide)
  | precharge => exact execPrecharge_inv _ _ h
  | pwrOkRise => exact inv_stepOut h (execPwrOkRise_frame _) (by decide)
  | shutdown => exact execShutdown_inv _ _ h
  | leak => exact execLeak_inv _ h
  | modRstAssert => exact execModRstAssert_inv _ h
  | modRstRelease => exact inv_stepOut h (execModRstRelease_frame _) (by decide)
  | perstAssert => exact inv_stepOut h (execPerstAssert_frame _ _ _) (by decide)
  | perstRelease => exact inv_stepOut h (execPerstRelease_frame _ _ _) (by decide)
  | controlPacket => exact execControlPacket_inv _ _ _ h
  | idleFlit => exact inv_stepOut h (execIdleFlit_frame _ _ _) (by decide)
  | trainingEnd => exact inv_stepOut h (execTrainingEnd_frame _ _ _) (by decide)
  | earlySignal => exact inv_stepOut h (execEarlySignal_frame _ _) (by decide)
  | fwStageWrite => exact inv_stepOut h (execFwStageWrite_frame _ _ _ _) (by decide)
  | readLatch => exact inv_stepOut h (execReadLatch_frame _ _ _ _) (by decide)
  | doeDiscovery => exact inv_stepOut h (execDoeDiscovery_frame _ _) (by decide)
  | mctpControl => exact inv_stepOut h (execMctpControl_frame _ _) (by decide)
  | resetStageStart => exact inv_stepOut h (execResetStageStart_frame _) (by decide)

/-- Settles O3, by the step's two cases: a tick moves CT only, and a command at the front keeps the form. -/
theorem stepKeepsMemoryForm : Obligations.StepKeepsMemoryForm := by
  intro s t form stepped
  cases queue : s.pending with
  | nil =>
    rw [step, queue] at stepped
    obtain rfl : tick s = t := Host.Outcome.next.inj stepped
    exact inv_step form (tick_frame s) (by decide)
  | cons c rest =>
    rw [step, queue] at stepped
    have kept : outAll Inv (exec c { s with pending := rest }) := exec_inv c (inv_lit form rfl)
    rwa [show exec c { s with pending := rest } = .next t from stepped] at kept

/-- Settles O4: after reset memory lists no byte. -/
theorem resetMemoryForm : Obligations.ResetMemoryForm := rfl

/-- Settles O1. -/
theorem stepRunsFrontCommand : Obligations.StepRunsFrontCommand := by
  refine ⟨fun c rest s queue => by rw [step, queue], fun s idle => ⟨tick s, by rw [step, idle], tick_frame s, ?_⟩⟩
  unfold tick
  by_cases moves : ctRuns s = true ∧ s.cad.ct.toNat < lastCt s.cad
  · rw [if_pos (by simpa using moves), if_pos moves]
    rfl
  · rw [if_neg (by simpa using moves), if_neg moves]

/-! ### Reads of registers (R541) -/

/-- A served read of a register that is not one half of two and no counter: it returns the register, or its lower 4 B, and changes nothing else. -/
theorem exec_readLatch_of_register {o : Nat} {r : RegInfo} {s : State} {h : HostAccess} (served : PrivServed h s) (info : regInfo o = some r)
    (aligned : o % 8 = 0) (below : o < 0x2000) (plain : o ≠ 0x18) (upper : upperHalf o = false) (lower : lowerHalf o = false) (wide : Bool) :
    exec (.readLatch h o wide) s = .next (returnRead (toLE (if wide then 8 else 4) (regValue s o)) false s) := by
  obtain ⟨⟨stage, active, crossing⟩, priv⟩ := served
  have slot : slotRead s h.port h.job o = regValue s o := by rw [priv]; exact slotRead_of_register info (by omega) stage h.port
  have start : o / 8 * 8 = o := by omega
  have reads : readSlot h o wide s = returnRead (readPart o wide (regValue s o)) false s := by
    simp [readSlot, start, upper, lower, plain, slot, show o ≠ 0x3020 by omega]
  show execReadLatch h o wide s = _
  cases wide <;> simp [execReadLatch, aligned, active, crossing, reads, readPart, show o % 4 = 0 by omega]

/-- Settles O9. -/
theorem readsReturnRegisters : Obligations.ReadsReturnRegisters := by
  refine ⟨fun h s served => ⟨?_, ?_, ?_, ?_⟩, fun h off wide s odd => ⟨urRead h.port s, if_pos odd, rfl, rfl, ?_, urRead_frame h.port s⟩⟩
  · exact exec_readLatch_of_register served (o := 0x30) rfl rfl (by decide) (by decide) rfl rfl true
  · exact exec_readLatch_of_register served (o := 0x110) rfl rfl (by decide) (by decide) rfl rfl true
  · exact exec_readLatch_of_register served (o := 0x30) rfl rfl (by decide) (by decide) rfl rfl false
  · exact exec_readLatch_of_register served (o := 0x110) rfl rfl (by decide) (by decide) rfl rfl false
  · rw [urRead, unsupported, getPcie_setPcie_self]

end Sys2Proof.Machine
end

section
/-! SUPPORT. The plan of a power turn (R443): the highest point is lowered first, one step at a time, until the sum fits or every field is at OP0. -/

namespace Sys2Proof.Machine

/-! ### The highest point and its field -/

theorem foldl_max_mem (l : List Nat) (i : Nat) : l.foldl max i = i ∨ l.foldl max i ∈ l := by
  induction l generalizing i with
  | nil => exact .inl rfl
  | cons x r ih =>
    rcases ih (max i x) with stays | later
    · rcases max_choice i x with first | second
      · exact .inl (stays.trans first)
      · exact .inr (List.mem_cons.mpr (.inl (stays.trans second)))
    · exact .inr (List.mem_cons_of_mem _ later)

theorem le_foldl_max (l : List Nat) (i : Nat) : i ≤ l.foldl max i ∧ ∀ x ∈ l, x ≤ l.foldl max i := by
  induction l generalizing i with
  | nil => exact ⟨le_rfl, by simp⟩
  | cons x r ih =>
    obtain ⟨low, rest⟩ := ih (max i x)
    refine ⟨(le_max_left i x).trans low, fun y hy => ?_⟩
    rcases List.mem_cons.mp hy with rfl | hy
    · exact (le_max_right i y).trans low
    · exact rest y hy

theorem le_maxOp {op : List Nat} {x : Nat} (hx : x ∈ op) : x ≤ maxOp op := (le_foldl_max op 0).2 x hx

theorem maxOp_mem {op : List Nat} (above : 0 < maxOp op) : maxOp op ∈ op :=
  (foldl_max_mem op 0).resolve_left above.ne'

/-- A fold that keeps the last element with a property ends at one, where it starts at one or meets one. -/
theorem foldl_last_of_exists {P : Nat → Prop} [DecidablePred P] {l : List Nat} {d : Nat} (h : P d ∨ ∃ k ∈ l, P k) :
    P (l.foldl (fun f k => if P k then k else f) d) := by
  induction l generalizing d with
  | nil => simpa using h
  | cons x r ih =>
    refine ih (?_ : P (if P x then x else d) ∨ _)
    by_cases hx : P x
    · exact .inl (by rwa [if_pos hx])
    · rw [if_neg hx]
      rcases h with hd | ⟨k, hk, hp⟩
      · exact .inl hd
      · rcases List.mem_cons.mp hk with rfl | hk
        · exact absurd hp hx
        · exact .inr ⟨k, hk, hp⟩

theorem getD_topField {op : List Nat} (above : 0 < maxOp op) : op.getD (topField op) 0 = maxOp op := by
  refine foldl_last_of_exists (P := fun k => op.getD k 0 = maxOp op) (.inr ?_)
  obtain ⟨k, hk, e⟩ := List.getElem_of_mem (maxOp_mem above)
  exact ⟨k, List.mem_range.mpr hk, by rw [List.getD_eq_getElem _ _ hk, e]⟩

theorem topField_lt {op : List Nat} (above : 0 < maxOp op) : topField op < op.length := by
  by_contra out
  have := getD_topField above
  rw [List.getD_eq_default _ _ (not_lt.mp out)] at this
  omega

/-! ### Lowering (R443) -/

/-- One lowering: the field at the highest point goes one point down. -/
def lowered (op : List Nat) : List Nat := op.set (topField op) (maxOp op - 1)

theorem getD_lowered_le {op : List Nat} (above : 0 < maxOp op) (f : Nat) : (lowered op).getD f 0 ≤ op.getD f 0 := by
  by_cases top : topField op = f
  · subst top
    rw [getD_topField above, lowered, List.getD_eq_getElem _ _ (by simpa using topField_lt above), List.getElem_set_self]
    omega
  · simp [lowered, List.getD_eq_getElem?_getD, List.getElem?_set_ne top]

theorem sum_set_add {l : List Nat} {k : Nat} (hk : k < l.length) (v : Nat) : (l.set k v).sum + l.getD k 0 = l.sum + v := by
  induction l generalizing k with
  | nil => simp at hk
  | cons x r ih =>
    cases k with
    | zero => simp; omega
    | succ k =>
      have := ih (k := k) (by simpa using hk)
      simp only [List.set_cons_succ, List.sum_cons, List.getD_cons_succ]
      omega

theorem sum_lowered {op : List Nat} (above : 0 < maxOp op) : (lowered op).sum + 1 = op.sum := by
  have := sum_set_add (topField_lt above) (maxOp op - 1)
  rw [getD_topField above] at this
  rw [lowered]
  omega

theorem sum_pos_of_maxOp_pos {op : List Nat} (above : 0 < maxOp op) : 0 < op.sum :=
  above.trans_le (List.le_sum_of_mem (maxOp_mem above))

/-- What lowering leaves, with steps enough: as many fields, no point above the one that was wanted, and a sum that fits or no field above OP0. -/
theorem lowerOps_spec {n : Nat} (a : Int) {op : List Nat} (enough : op.sum ≤ n) :
    (lowerOps n a op).length = op.length ∧ (∀ f, (lowerOps n a op).getD f 0 ≤ op.getD f 0) ∧
      (a < sumFull (lowerOps n a op) → maxOp (lowerOps n a op) = 0) := by
  induction n generalizing op with
  | zero =>
    refine ⟨rfl, fun _ => le_rfl, fun _ => Nat.eq_zero_of_not_pos fun above => ?_⟩
    have := sum_pos_of_maxOp_pos (op := op) above
    omega
  | succ n ih =>
    by_cases lower : a < sumFull op ∧ 0 < maxOp op
    · have := sum_lowered lower.2
      obtain ⟨length, le, done⟩ := ih (op := lowered op) (by omega)
      rw [lowerOps, if_pos lower]
      exact ⟨by rw [← lowered, length, lowered, List.length_set], fun f => (le f).trans (getD_lowered_le lower.2 f), done⟩
    · rw [lowerOps, if_neg lower]
      exact ⟨rfl, fun _ => le_rfl, fun beyond => Nat.eq_zero_of_not_pos fun above => lower ⟨beyond, above⟩⟩

theorem lowerOps_of_fits {a : Int} {op : List Nat} (fits : sumFull op ≤ a) (n : Nat) : lowerOps n a op = op := by
  cases n with
  | zero => rfl
  | succ n => rw [lowerOps, if_neg fun h => absurd h.1 (by omega)]

/-! ### The plan -/

theorem eq_replicate_of_maxOp_zero {op : List Nat} (floor : maxOp op = 0) : op = List.replicate op.length 0 :=
  List.eq_replicate_iff.mpr ⟨rfl, fun _ hx => Nat.le_zero.mp (floor ▸ le_maxOp hx)⟩

theorem sum_le_of_le {l : List Nat} {k : Nat} (h : ∀ x ∈ l, x ≤ k) : l.sum ≤ l.length * k := by
  simpa using List.sum_le_card_nsmul l k h

/-- Settles O42: lowering has 56 steps, as many as eight fields at OP7 need; where the sum still passes the share every field is at OP0, whose sum bounds the beats that
are left. -/
theorem planFitsTheShare : Obligations.PlanFitsTheShare := by
  intro g n c want eight points a r w
  have enough : want.sum ≤ 56 := by
    have := sum_le_of_le points
    rw [eight] at this
    exact this
  obtain ⟨length, le, done⟩ := lowerOps_spec a enough
  have op : r.op = lowerOps 56 a want := by
    show (planOps g n c want).op = _
    unfold planOps
    dsimp only
    split
    · split <;> rfl
    · rfl
  have floor (beyond : a < sumFull r.op) : r.op = [0, 0, 0, 0, 0, 0, 0, 0] := by
    rw [op] at beyond ⊢
    rw [eq_replicate_of_maxOp_zero (done beyond), length, eight]
    rfl
  have passes (beyond : a < sumFull r.op) : r.pass = (if w < 64 then 960 else 1024 - w.toNat) ∧ r.floor = decide (w < 64) := by
    have e : r = _ := if_pos (op ▸ beyond)
    by_cases short : w < 64
    · rw [if_pos short, decide_eq_true short, e]
      exact (if_pos short : _ = _) ▸ ⟨rfl, rfl⟩
    · rw [if_neg short, decide_eq_false short, e]
      exact (if_neg short : _ = _) ▸ ⟨rfl, rfl⟩
  have beats (beyond : a < sumFull r.op) : w ≤ 1024 := by
    have low : a < 4664 := by rw [floor beyond] at beyond; exact beyond
    show (a / 8 - 140) * 1024 / 443 ≤ 1024
    omega
  have rest (fits : sumFull r.op ≤ a) : r.pass = 0 ∧ r.floor = false := by
    have e : r = _ := if_neg (op ▸ fits.not_gt)
    rw [e]
    exact ⟨rfl, rfl⟩
  refine ⟨op ▸ length.trans eight, op ▸ le, fun fits => op.trans (lowerOps_of_fits fits 56), rest, floor, ?_, fun beyond long => ?_, fun beyond short => ?_⟩
  · rcases lt_or_ge a (sumFull r.op) with beyond | fits
    · rw [(passes beyond).1]
      split <;> omega
    · rw [(rest fits).1]
      decide
  · obtain ⟨pass, mark⟩ := passes beyond
    have := beats beyond
    rw [pass, mark, if_neg long.not_gt]
    exact ⟨by omega, decide_eq_false long.not_gt⟩
  · obtain ⟨pass, mark⟩ := passes beyond
    rw [pass, mark, if_pos short]
    exact ⟨rfl, decide_eq_true short⟩

end Sys2Proof.Machine
end

section
/-! SUPPORT. Module memory read after a write, and the region table: the interleave of R275 and the entries that R273 accepts. -/

namespace Sys2Proof.Machine

theorem writeByte_of_unmapped {s : State} {a : Nat} (h : memKey s a = none) (v : Byte) : writeByte a v s = s := by
  rw [writeByte, h]

/-- Settles O37. -/
theorem memoryReadAfterWrite : Obligations.MemoryReadAfterWrite := fun a _ v s =>
  ⟨fun form mapped => readByte_writeByte_self form mapped, fun apart => readByte_writeByte_ne apart.symm v, fun unmapped => writeByte_of_unmapped unmapped v,
    writeByte_frame a v s, fun form => inv_writeByte form⟩

/-! ### What keeps a byte as it reads -/

theorem memKey_of_frame {l : List Part} {s t : State} (frame : OnlyChanges l s t) (regions : Part.regions ∉ l) (a : Nat) : memKey t a = memKey s a :=
  memKey_of_regions (frame .regions regions) a

/-- A frame without memory and the region table leaves every byte as it reads. -/
theorem readByte_of_frame {l : List Part} {s t : State} (frame : OnlyChanges l s t) (mem : Part.mem ∉ l) (regions : Part.regions ∉ l) (a : Nat) :
    readByte t a = readByte s a := by
  rw [readByte, readByte, memKey_of_frame frame regions, frame .mem mem]

/-- A near-tier write leaves a byte outside its range as it reads; the part of it that meets retired granules is discarded (R291). -/
theorem readByte_nearWriteFor_ne {x : Nat} (origin n : Nat) {a : Nat} {l : List Byte} {s : State}
    (outside : ∀ i < l.length, memKey s x ≠ memKey s (a + i)) : readByte (nearWriteFor origin a l n s) x = readByte s x := by
  induction n generalizing a l s with
  | zero => rfl
  | succ n ih =>
    rw [nearWriteFor]
    split
    · rfl
    · extract_lets k piece t
      have frame : OnlyChanges [.host, .xing, .store, .mem, .near] s t := by
        unfold t
        split
        · exact (postFull_frame _ _ _ _ _ _ _).mono (by decide)
        · exact ((unpoison_frame _ _ _).mono (by decide)).step (writeBytes_frame _ _ _) (by decide)
      have same (b : Nat) : memKey t b = memKey s b := memKey_of_frame frame (by decide) b
      have here : readByte t x = readByte s x := by
        unfold t
        split
        · exact readByte_of_frame (postFull_frame _ _ _ _ _ _ _) (by decide) (by decide) x
        · have unpoisoned (b : Nat) : memKey (unpoison a piece.length s) b = memKey s b := memKey_of_frame (unpoison_frame _ _ _) (by decide) b
          rw [readByte_writeBytes_ne]
          · exact readByte_of_frame (unpoison_frame _ _ _) (by decide) (by decide) x
          · intro i hi
            rw [unpoisoned, unpoisoned]
            exact outside i (hi.trans_le (List.length_take_le' k l))
      rw [ih, here]
      intro i hi
      rw [same, same, Nat.add_assoc]
      rw [List.length_drop] at hi
      exact outside (k + i) (by omega)

theorem mem_destWrite_of_host {a : Nat} (host : spaceOf a = .host0 ∨ spaceOf a = .host1) (origin : Nat) (l : List Byte) (s : State) :
    (destWrite origin a l s).mem = s.mem := by
  rcases host with e | e
  · rw [destWrite, e]
    exact hostWrite_frame _ _ _ _ .mem (by decide)
  · rw [destWrite, e]
    exact hostWrite_frame _ _ _ _ .mem (by decide)

/-- A command's write leaves a byte outside its range as it reads. -/
theorem readByte_destWrite_ne {x a : Nat} (origin : Nat) {l : List Byte} {s : State} (outside : ∀ i < l.length, memKey s x ≠ memKey s (a + i)) :
    readByte (destWrite origin a l s) x = readByte s x := by
  unfold destWrite
  split
  · exact readByte_of_frame (hostWrite_frame _ _ _ _) (by decide) (by decide) x
  · exact readByte_of_frame (hostWrite_frame _ _ _ _) (by decide) (by decide) x
  · exact readByte_nearWriteFor_ne origin l.length outside

/-! ### The interleave (R275) -/

/-- Granule g of an entry over 2^w channels lies in channel number mixed w g, q times 2^w granules further for each lap q. -/
def mixed (w g : Nat) : Nat := g % 2 ^ w ^^^ g / 2 ^ w % 2 ^ w

/-- The lap and the channel number give the granule. -/
theorem eq_of_mixed_eq {w g h : Nat} (lap : g / 2 ^ w = h / 2 ^ w) (channel : mixed w g = mixed w h) : g = h := by
  have low : g % 2 ^ w = h % 2 ^ w := by
    rw [mixed, mixed, lap] at channel
    exact Nat.xor_left_injective channel
  rw [← Nat.div_add_mod g (2 ^ w), lap, low, Nat.div_add_mod]

/-- The byte of a channel's space where lap q of an entry holds byte b of its granule. -/
def Region.channelByte (r : Region) (q b : Nat) : Nat := r.chbase.toNat * 512 + q * 512 + b

theorem nearDecode_of_spread {r : Region} (spread : r.spread = true) (a : Nat) :
    (nearDecode r a).1.stack = mixed 15 ((a - r.first) / 512) % 1024 ∧ (nearDecode r a).1.chan = mixed 15 ((a - r.first) / 512) / 1024 ∧
      (nearDecode r a).2 = r.channelByte ((a - r.first) / 512 / 2 ^ 15) ((a - r.first) % 512) := by
  simp only [nearDecode, spread, if_true]
  exact ⟨rfl, rfl, rfl⟩

theorem nearDecode_of_field {r : Region} (field : r.spread = false) (a : Nat) :
    (nearDecode r a).1.stack = r.field.toNat * 128 + mixed 12 ((a - r.first) / 512) % 128 ∧
      (nearDecode r a).1.chan = mixed 12 ((a - r.first) / 512) / 128 ∧
      (nearDecode r a).2 = r.channelByte ((a - r.first) / 512 / 2 ^ 12) ((a - r.first) % 512) := by
  simp only [nearDecode, field, Bool.false_eq_true, if_false]
  exact ⟨rfl, rfl, rfl⟩

theorem channelByte_inj {r : Region} {q b q' b' : Nat} (hb : b < 512) (hb' : b' < 512) (h : r.channelByte q b = r.channelByte q' b') : q = q' ∧ b = b' := by
  unfold Region.channelByte at h
  omega

theorem interleave_isInjective : Claim.InterleaveIsInjective := by
  intro r a b ha hb same
  have parts (w : Nat) (byte : r.channelByte ((a - r.first) / 512 / 2 ^ w) ((a - r.first) % 512) =
      r.channelByte ((b - r.first) / 512 / 2 ^ w) ((b - r.first) % 512))
      (channel : mixed w ((a - r.first) / 512) = mixed w ((b - r.first) / 512)) : a = b := by
    obtain ⟨lap, low⟩ := channelByte_inj (Nat.mod_lt _ (by decide)) (Nat.mod_lt _ (by decide)) byte
    have := eq_of_mixed_eq lap channel
    omega
  cases spread : r.spread
  · obtain ⟨stack, chan, byte⟩ := nearDecode_of_field spread a
    obtain ⟨stack', chan', byte'⟩ := nearDecode_of_field spread b
    rw [same] at stack chan byte
    exact parts 12 (byte.symm.trans byte') (by omega)
  · obtain ⟨stack, chan, byte⟩ := nearDecode_of_spread spread a
    obtain ⟨stack', chan', byte'⟩ := nearDecode_of_spread spread b
    rw [same] at stack chan byte
    exact parts 15 (byte.symm.trans byte') (by omega)

theorem bank_nearDecode_lt (r : Region) (a : Nat) : (nearDecode r a).1.bank < 16 :=
  Nat.xor_lt_two_pow (n := 4) (Nat.mod_lt _ (by decide)) (Nat.mod_lt _ (by decide))

theorem interleave_staysInTier : Claim.InterleaveStaysInTier := fun r a _ =>
  ⟨(nearDecode_lt r a).1, (nearDecode_lt r a).2, bank_nearDecode_lt r a, fun field => by
    rw [(nearDecode_of_field field a).1]
    omega⟩

/-! ### Accepted entries (R273) -/

theorem acceptedRegions_doNotOverlap : Claim.AcceptedRegionsDoNotOverlap := by
  intro s n k r x accepted listed other valid
  have member : x ∈ (s.regions.filter fun (k, x) => k != n && x.valid).map (·.2) :=
    List.mem_map.mpr ⟨(k, x), List.mem_filter.mpr ⟨listed, by simp [other, valid]⟩, rfl⟩
  unfold regionReason at accepted
  dsimp only at accepted
  generalize (s.regions.filter fun (k, x) => k != n && x.valid).map (·.2) = others at accepted member
  split at accepted
  · cases accepted
  split at accepted
  · cases accepted
  split at accepted
  · cases accepted
  split at accepted
  · cases accepted
  rename_i addresses
  split at accepted
  · cases accepted
  split at accepted
  · cases accepted
  rename_i channels
  have apart := (List.any_eq_false.mp (Bool.eq_false_of_not_eq_true addresses)) x member
  have rows := (List.any_eq_false.mp (Bool.eq_false_of_not_eq_true channels)) x member
  simp only [Bool.and_eq_true, decide_eq_true_eq] at apart rows
  exact ⟨by omega, fun share => by simp only [share, true_and] at rows; omega⟩

/-- Settles O38. -/
theorem regionsAndInterleave : Obligations.RegionsAndInterleave :=
  ⟨acceptedRegions_doNotOverlap, interleave_isInjective, interleave_staysInTier⟩

end Sys2Proof.Machine
end

section
/-! SUPPORT. The dispatcher's checks (R41, R523), and the commands that return records (R481, R529, R549). -/

namespace Sys2Proof.Machine

/-! ### The rows of the opcode table -/

/-- A row of the opcode table hands its packet to the dispatcher. -/
theorem exec_packetRow {c : Instr} {o : Nat} {p : Packet} (row : packetRow c = some (o, p)) (s : State) :
    exec c s = .next (dispatchPacket { p with opc := o } s) := by
  cases c <;> cases row <;> rfl

/-- An admitted command of an opcode whose packet goes to its operation as it is. -/
theorem exec_of_admitted {c : Instr} {o : Nat} {p : Packet} {s : State} (row : packetRow c = some (o, p)) (h : Admitted o p s)
    (plain : stepOpcode o = false) (pref : o ≠ 0x0701) (load : o ≠ 0x0405) : exec c s = .next (runOp p s.arrivals (arrived s)) := by
  rw [exec_packetRow row, dispatch_plain h plain pref load]

/-! ### Records (R481, R529) -/

/-- The record numbered k: as `get` finds it, zeros where it has been overwritten, free values where it is not yet written. -/
def oneRecord (get : Nat → Option (List Byte)) (next k : Nat) (s : State) : List Byte × State :=
  match get k with
  | some l => (l, s)
  | none =>
    if k < next then (List.replicate 64 0, s)
    else ((List.range 64).map fun k => (Config.freeValue (s.freeCtr + k)).setWidth 8, { s with freeCtr := s.freeCtr + 64 })

theorem recordBytes_succ (get : Nat → Option (List Byte)) (next first n : Nat) (s : State) : recordBytes get next first (n + 1) s =
    ((oneRecord get next first s).1 ++ (recordBytes get next (first + 1) n (oneRecord get next first s).2).1,
      (recordBytes get next (first + 1) n (oneRecord get next first s).2).2) := rfl

section
variable {get : Nat → Option (List Byte)} (wide : ∀ k l, get k = some l → l.length = 64)
include wide

theorem length_oneRecord (next k : Nat) (s : State) : (oneRecord get next k s).1.length = 64 := by
  unfold oneRecord
  split
  · exact wide _ _ ‹_›
  · split <;> simp

theorem length_recordBytes (next first n : Nat) (s : State) : (recordBytes get next first n s).1.length = 64 * n := by
  induction n generalizing first s with
  | zero => rfl
  | succ n ih =>
    rw [recordBytes_succ, List.length_append, length_oneRecord wide, ih]
    omega

/-- Record i of a list of records is the record of its number, in some state. -/
theorem recordBytes_at (next : Nat) {first i n : Nat} (inside : i < n) (s : State) :
    ∃ u, ((recordBytes get next first n s).1.drop (64 * i)).take 64 = (oneRecord get next (first + i) u).1 := by
  induction n generalizing first i s with
  | zero => omega
  | succ n ih =>
    have one := length_oneRecord wide next first s
    rw [recordBytes_succ]
    cases i with
    | zero => exact ⟨s, by rw [Nat.mul_zero, List.drop_zero]; exact List.take_left' one⟩
    | succ i =>
      obtain ⟨u, e⟩ := ih (first := first + 1) (i := i) (by omega) (oneRecord get next first s).2
      refine ⟨u, ?_⟩
      rw [show 64 * (i + 1) = (oneRecord get next first s).1.length + 64 * i by rw [one]; omega, ← List.drop_drop, List.drop_left, e,
        show first + 1 + i = first + (i + 1) by omega]

end

theorem oneRecord_of_listed {get : Nat → Option (List Byte)} {k : Nat} {l : List Byte} (h : get k = some l) (next : Nat) (s : State) :
    (oneRecord get next k s).1 = l := by
  rw [oneRecord, h]

theorem oneRecord_of_overwritten {get : Nat → Option (List Byte)} {next k : Nat} (h : get k = none) (before : k < next) (s : State) :
    (oneRecord get next k s).1 = List.replicate 64 0 := by
  rw [oneRecord, h]
  exact congrArg Prod.fst (if_pos before)

/-! ### A list of records at a destination -/

section
variable {p : Packet} {get : Nat → Option (List Byte)} {next first count dest : Nat} {s : State}

theorem putRecords_of_count (out : count = 0 ∨ 4096 < count) : putRecords p get next first count dest s = refuse p Status.header s :=
  if_pos (by simpa using out)

variable (some : 0 < count) (most : count ≤ 4096)
include some most

theorem putRecords_of_place (bad : destOk s dest (64 * count) true = false) :
    putRecords p get next first count dest s = refuse p Status.addrRange s := by
  rw [putRecords, if_neg (by simp; omega), if_pos (by simp [bad])]

theorem putRecords_of_ok (ok : destOk s dest (64 * count) true = true) : putRecords p get next first count dest s =
    accept p (destWrite p.origin dest (recordBytes get next first count s).1 (recordBytes get next first count s).2) := by
  rw [putRecords, if_neg (by simp; omega), if_neg (by simp [ok])]

end

/-! ### The record commands -/


theorem exec_nop_of_admitted {p : Packet} {s : State} (h : Admitted 0x0001 p s) : exec (.nop p) s = .next (accept p (arrived s)) := by
  rw [exec_of_admitted rfl h rfl (by decide) (by decide), runOp, h.2.1]
  rfl

theorem exec_eventGet_of_admitted {p : Packet} {s : State} (h : Admitted 0x0002 p s) : exec (.eventGet p) s = .next (opEventGet p (arrived s)) := by
  rw [exec_of_admitted rfl h rfl (by decide) (by decide), runOp, h.2.1]
  rfl

theorem exec_faultGet_of_admitted {p : Packet} {s : State} (h : Admitted 0x0901 p s) : exec (.faultGet p) s = .next (opFaultGet p (arrived s)) := by
  rw [exec_of_admitted rfl h rfl (by decide) (by decide), runOp, h.2.1]
  rfl

theorem exec_telemSnap_of_admitted {p : Packet} {s : State} (h : Admitted 0x0801 p s) :
    exec (.telemSnap p) s = .next (opTelemSnap s.snap p (arrived s)) := by
  rw [exec_of_admitted rfl h rfl (by decide) (by decide), runOp, h.2.1]
  rfl

theorem reply_frame_of_plain {p : Packet} (plain : stepOpcode p.opc = false) (st : BitVec 16) (d : W64) (s : State) :
    OnlyChanges [.host] s (reply p st d s) := by
  rw [reply_plain plain]
  exact only_host (OnlyChanges.refl _ _) _ (by decide)

theorem answered_accept_of_admitted {o : Nat} {p : Packet} {s : State} (h : Admitted o p s) (plain : stepOpcode o = false) :
    Answered p 0 0 s (accept p (arrived s)) := by
  rw [accept, h.ok, reply_plain (h.2.1.symm ▸ plain)]
  rfl

@[simp] theorem destOk_arrived (s : State) (a n : Nat) (write : Bool) : destOk (arrived s) a n write = destOk s a n write := rfl

/-- Settles O52. -/
theorem recordCommands : Obligations.RecordCommands := by
  refine ⟨fun p s h => ⟨_, exec_nop_of_admitted h, answered_accept_of_admitted h rfl, ?_⟩, fun p s h => ?_, fun p s h => ?_,
    fun get next first n s wide => ⟨length_recordBytes wide next first n s, recordBytes_frame get next first n s, fun i inside => ?_⟩, fun p s h => ?_,
    fun origin a l s => ⟨(destWrite_frame origin a l s).mono (by decide), fun host => mem_destWrite_of_host host origin l s,
      fun _ outside => readByte_destWrite_ne origin outside⟩⟩
  · exact (only_arrivals (OnlyChanges.refl _ _) _ (by decide)).step (reply_frame_of_plain (h.2.1.symm ▸ rfl) _ _ _) (by decide)
  · rw [exec_eventGet_of_admitted h]
    exact ⟨fun out => congrArg _ (putRecords_of_count out), fun some most bad => congrArg _ (putRecords_of_place some most bad),
      fun some most ok => congrArg _ (putRecords_of_ok some most ok)⟩
  · rw [exec_faultGet_of_admitted h]
    exact ⟨fun out => congrArg _ (putRecords_of_count out), fun some most bad => congrArg _ (putRecords_of_place some most bad),
      fun some most ok => congrArg _ (putRecords_of_ok some most ok)⟩
  · obtain ⟨u, e⟩ := recordBytes_at wide next inside s
    rw [e]
    exact ⟨fun l listed => oneRecord_of_listed listed next u, fun missing before => oneRecord_of_overwritten missing before u⟩
  · rw [exec_telemSnap_of_admitted h]
    refine ⟨fun out => congrArg _ (if_pos out), fun fits ok => congrArg _ ?_, fun fits bad => congrArg _ ?_⟩
    · exact (if_neg fits.not_gt).trans (if_neg (by simpa using ok))
    · exact (if_neg fits.not_gt).trans (if_pos (by simpa using bad))

end Sys2Proof.Machine
end

section
/-! SUPPORT. What the dispatcher refuses, schedules and runs (R41, R523). -/

namespace Sys2Proof.Machine

/-! ### The checks of R523 -/

section
variable {p : Packet} {s : State}

theorem checkPacket_of_unlisted (unlisted : p.opc ∉ opcodes) : checkPacket s p = some Status.opcode := if_pos (by simp [unlisted])

variable (listed : p.opc ∈ opcodes)
include listed

theorem checkPacket_of_denied (priv : p.opc ∈ privOnly) (job : (hostQueue s p.queue).view = true) : checkPacket s p = some Status.viewDenied := by
  rw [checkPacket, if_neg (by simp [listed]), if_pos (by simp [priv, job])]

variable (view : (hostQueue s p.queue).view = false ∨ p.opc ∉ privOnly)
include view

theorem checkPacket_of_view : checkPacket s p =
    if !(isReady s || earlyOp s p.opc) then some Status.notReady else if !headerClean p then some Status.header else none := by
  rw [checkPacket, if_neg (by simp [listed]), if_neg (by rcases view with h | h <;> simp [h])]

theorem checkPacket_of_early (ready : isReady s = false) (early : earlyOp s p.opc = false) : checkPacket s p = some Status.notReady := by
  rw [checkPacket_of_view listed view, if_pos (by simp [ready, early])]

theorem checkPacket_of_ready (ready : isReady s = true ∨ earlyOp s p.opc = true) :
    checkPacket s p = if headerClean p then none else some Status.header := by
  rw [checkPacket_of_view listed view, if_neg (by rcases ready with h | h <;> simp [h])]
  cases headerClean p <;> rfl

end

/-- A nonzero byte of PARAM that the opcode does not name is a reserved one. -/
theorem not_paramClean {p : Packet} {k : Nat} {b : Byte} (at_ : p.param[k]? = some b) (set : b ≠ 0)
    (unnamed : ∀ x ∈ paramBytes p, ¬(x.1 ≤ k ∧ k < x.1 + x.2)) : paramClean p = false := by
  refine List.all_eq_false.mpr ⟨(b, k), List.mem_zipIdx_iff_getElem?.mpr at_, ?_⟩
  have none : ((paramBytes p).any fun (lo, n) => inRange k lo n) = false :=
    List.any_eq_false.mpr fun x hx => by simpa [inRange] using unnamed x hx
  simpa [none] using set

theorem headerClean_iff (p : Packet) : headerClean p = true ↔ p.rsv = 0 ∧ p.flags >>> 5 = 0 ∧ paramClean p = true ∧ payloadLen p = some p.len ∧
    (if hasTgt p.opc then p.tgt >>> 14 = 0 else p.tgt = 0) ∧ (p.opc = 0x0301 ∨ p.flags &&& 0xF = 0) ∧
      ¬(p.fire ≠ 0 ∧ (p.opc / 256 = 0x01 ∨ p.opc / 256 = 0x0A)) := by
  have tgt : ((if hasTgt p.opc then p.tgt >>> 14 == 0 else p.tgt == 0) = true) ↔ (if hasTgt p.opc then p.tgt >>> 14 = 0 else p.tgt = 0) := by
    split <;> simp
  simp only [headerClean, Bool.and_eq_true, tgt, Bool.not_eq_true', ← Bool.not_eq_true, Bool.or_eq_true, beq_iff_eq, bne_iff_ne, and_assoc]

theorem packetChecks_inOrder : Claim.PacketChecksInOrder := by
  refine fun p s => ⟨checkPacket_of_unlisted, checkPacket_of_denied, checkPacket_of_early, fun listed view ready => ?_⟩
  rw [checkPacket_of_ready listed view ready]
  refine ⟨fun bad => if_neg fun clean => ?_, fun clean => if_pos clean⟩
  obtain ⟨rsv, flags, param, len, tgt, play, fire⟩ := (headerClean_iff p).mp clean
  rcases bad with h | h | h | ⟨has, h⟩ | ⟨has, h⟩ | ⟨other, h⟩ | h | ⟨k, b, at_, set, unnamed⟩
  · exact h rsv
  · exact h flags
  · exact h len
  · exact h (by rwa [if_pos has] at tgt)
  · exact h (by rwa [if_neg (by simp [has])] at tgt)
  · exact h (play.resolve_left other)
  · exact fire h
  · rw [not_paramClean at_ set unnamed] at param
    cases param

/-! ### FIRE times (R41) -/

section
variable {p : Packet} {s : State}

theorem fireRefusal_of_noCadence (fire : p.fire ≠ 0) (stopped : ctRuns s = false) : fireRefusal s p = some Status.noCadence :=
  if_pos (by simpa [stopped] using fire)

theorem fireRefusal_of_zero (zero : p.fire = 0) : fireRefusal s p = none := by
  simp [fireRefusal, zero]

variable (runs : ctRuns s = true)
include runs

theorem fireRefusal_of_far (far : s.cad.ct.toNat + fireReach < p.fire.toNat) : fireRefusal s p = some Status.fireRange := by
  rw [fireRefusal, if_neg (by simp [runs]), if_pos far]

theorem fireRefusal_of_passed (fire : p.fire ≠ 0) (passed : p.fire.toNat < s.cad.ct.toNat) (commit : p.opc = 0x0404) :
    fireRefusal s p = some Status.commitPassed := by
  rw [fireRefusal, if_neg (by simp [runs]), if_neg (by omega), if_neg fire, if_pos (by simp [passed, commit])]

theorem fireRefusal_of_ahead (ahead : s.cad.ct.toNat < p.fire.toNat) (near : p.fire.toNat ≤ s.cad.ct.toNat + fireReach) :
    fireRefusal s p = if 4096 ≤ pendingEvents s then some Status.scheduleFull else none := by
  have fire : p.fire ≠ 0 := by
    intro zero
    rw [zero] at ahead
    exact absurd ahead (by simp)
  rw [fireRefusal, if_neg (by simp [runs]), if_neg (by omega), if_neg fire, if_neg (by simp; omega)]
  simp [ahead]

end

/-! ### What the dispatcher does -/

theorem dispatchPacket_of_silent {p : Packet} {s : State} (silent : stageDone s 2 = false ∨ s.rel.ccFailed = true) : dispatchPacket p s = s :=
  if_pos (by rcases silent with h | h <;> simp [h])

section
variable {p : Packet} {s : State} (serves : Serves s)
include serves

theorem dispatchPacket_of_serves : dispatchPacket p s = match checkPacket s p with
    | some st => refuseAtDispatch p st s
    | none =>
      let q := if stepOpcode p.opc then shifted s p else p
      match fireRefusal s q with
      | some st => refuseAtDispatch q st s
      | none => execute (if isLate s q then { q with rsv := 1 } else q) s := by
  obtain ⟨stage, active, -⟩ := serves
  rw [dispatchPacket]
  exact if_neg (by simp [stage, active])

theorem dispatchPacket_of_check {st : BitVec 16} (fails : checkPacket s p = some st) : dispatchPacket p s = refuseAtDispatch p st s := by
  rw [dispatchPacket_of_serves serves, fails]

theorem dispatchPacket_of_fire {st : BitVec 16} (passes : checkPacket s p = none)
    (fails : fireRefusal s (if stepOpcode p.opc then shifted s p else p) = some st) :
    dispatchPacket p s = refuseAtDispatch (if stepOpcode p.opc then shifted s p else p) st s := by
  rw [dispatchPacket_of_serves serves, passes]
  dsimp only
  rw [fails]

theorem dispatchPacket_of_plain (passes : checkPacket s p = none) (plain : stepOpcode p.opc = false) (timely : fireRefusal s p = none) :
    dispatchPacket p s = execute (if isLate s p then { p with rsv := 1 } else p) s := by
  rw [dispatchPacket_of_serves serves, passes]
  simp only [plain, Bool.false_eq_true, if_false, timely]

end

theorem execute_of_plain {p : Packet} (plain : stepOpcode p.opc = false) (pref : p.opc ≠ 0x0701) (s : State) : execute p s =
    atFire (if p.opc = 0x0405 then { p with tag := s.cap.committed.toNat } else p) (if p.opc = 0x0801 then 4 else 3) s.arrivals
      (fun p s' => runOp p s.arrivals s') (arrived s) := by
  rw [execute, if_neg (by simp [plain]), if_neg pref]
  by_cases load : p.opc = 0x0405
  · simp only [if_pos load]
    rfl
  · simp only [if_neg load]
    rfl

theorem atFire_of_ahead {p : Packet} {s : State} (fire : p.fire ≠ 0) (ahead : s.cad.ct.toNat ≤ p.fire.toNat) (cls order : Nat) (op : Packet → State → State) :
    atFire p cls order op s = { s with sched := s.sched ++ [{ fire := p.fire, cls, order, packet := p }] } := if_pos (by simpa [ahead] using fire)

theorem atFire_of_passed {p : Packet} {s : State} (passed : p.fire.toNat < s.cad.ct.toNat) (cls order : Nat) (op : Packet → State → State) :
    atFire p cls order op s = op p s := if_neg (by simp [passed])

theorem dispatcher_checks : Claim.DispatcherChecks := by
  refine ⟨fun c o p₀ s row serves => ?_, fun p s => ⟨fireRefusal_of_noCadence, fireRefusal_of_far, fun fire runs passed => fireRefusal_of_passed runs fire passed,
    fireRefusal_of_ahead, fireRefusal_of_zero⟩, fun p st s => ⟨rfl, only_host (OnlyChanges.refl _ _) _ (by decide)⟩, fun c o p s row silent => ?_⟩
  · intro p q tagged
    rw [exec_packetRow row]
    refine ⟨fun st fails => congrArg _ (dispatchPacket_of_check serves fails), fun st passes fails => congrArg _ (dispatchPacket_of_fire serves passes fails),
      fun passes timely plain pref => ⟨fun fire ahead => congrArg _ ?_, fun fire passed => congrArg _ ?_⟩⟩
    · have early : isLate s p = false := by simp [isLate, ahead]
      rw [dispatchPacket_of_plain serves passes plain timely, early, if_neg (by decide), execute_of_plain plain pref]
      have kept : (tagged p).fire = p.fire := by unfold tagged; split <;> rfl
      have sched := atFire_of_ahead (s := arrived s) (p := tagged p) (kept ▸ fire) (kept ▸ ahead) (if o = 0x0801 then 4 else 3) s.arrivals
        (fun p s' => runOp p s.arrivals s')
      rw [kept] at sched
      exact sched
    · have late : isLate s p = true := by simpa [isLate, passed, p, pref] using fire
      rw [dispatchPacket_of_plain serves passes plain timely, late, if_pos rfl, execute_of_plain plain pref]
      have kept : (tagged { p with rsv := 1 }).fire = p.fire := by unfold tagged; split <;> rfl
      exact atFire_of_passed (by rwa [kept]) _ _ _
  · rw [exec_packetRow row, dispatchPacket_of_silent silent]

/-- Settles O50. -/
theorem dispatcherChecks : Obligations.DispatcherChecks := ⟨dispatcher_checks, packetChecks_inOrder⟩

end Sys2Proof.Machine
end

section
/-! SUPPORT. Register writes (R509, R541, R543), doorbells (R516, R518) and the ENABLE of a queue (R515). -/

namespace Sys2Proof.Machine

@[simp] theorem hostQueue_setHostQueue_self (n : Nat) (q : Queue) (s : State) : hostQueue (setHostQueue n q s) n = q := lookupD_upsert_self _ _ _ _

theorem hostQueue_setHostQueue_ne {m n : Nat} (other : m ≠ n) (q : Queue) (s : State) : hostQueue (setHostQueue n q s) m = hostQueue s m :=
  lookupD_upsert_ne other _ _ _

/-! ### Doorbells -/

section
variable {h : HostAccess} {n : Nat} {s : State} (serves : Serves s)
include serves

theorem exec_sqDb_of_serves (tail : Nat) : exec (.sqDb h n tail) s = .next (ringSq h n tail s) := by
  show execSqDb h n tail s = _
  rw [execSqDb, orHold_of_serves serves]

theorem exec_cqDb_of_serves (head : Nat) : exec (.cqDb h n head) s = .next (ringCq h n head s) := by
  show execCqDb h n head s = _
  rw [execCqDb, orHold_of_serves serves]

theorem doorbellView_of_reached (reached : h.job = true → (hostQueue s n).view = true) (act : Queue → State → State) :
    doorbellView h n act s = act (hostQueue s n) s := by
  have : (h.job && !(hostQueue s n).view) = false := by
    cases job : h.job
    · rfl
    · simp [reached job]
  simp [doorbellView, serves.stage, this]

theorem doorbellView_of_denied (job : h.job = true) (priv : (hostQueue s n).view = false) (act : Queue → State → State) :
    doorbellView h n act s = setHostQueue n { hostQueue s n with err := 2 } s := by
  simp [doorbellView, serves.stage, job, priv]

variable (reached : h.job = true → (hostQueue s n).view = true)
include reached

theorem ringSq_of_stale {tail : Nat} (stale : sqSlots (hostQueue s n) ≤ tail ∨
      ahead (sqSlots (hostQueue s n)) (hostQueue s n).sqhead tail < ahead (sqSlots (hostQueue s n)) (hostQueue s n).sqhead (hostQueue s n).tail) :
    ringSq h n tail s = staleDoorbell h s :=
  (doorbellView_of_reached serves reached _).trans (if_pos (by simpa using stale))

theorem ringSq_of_fresh {tail : Nat} (inside : tail < sqSlots (hostQueue s n))
    (onward : ahead (sqSlots (hostQueue s n)) (hostQueue s n).sqhead (hostQueue s n).tail ≤ ahead (sqSlots (hostQueue s n)) (hostQueue s n).sqhead tail) :
    ringSq h n tail s = (let t := setHostQueue n { hostQueue s n with tail } s
      if tail = (hostQueue s n).tail then t else { t with host := { t.host with doorbells := t.host.doorbells ++ [{ queue := n, port := h.port, tail }] } }) :=
  (doorbellView_of_reached serves reached _).trans (if_neg (by simp; omega))

theorem ringCq_of_reached (head : Nat) : ringCq h n head s =
    if (decide (cqEntries (hostQueue s n) ≤ head) || decide ((hostQueue s n).cqused < ahead (cqEntries (hostQueue s n)) (hostQueue s n).cqhead head)) = true
    then staleDoorbell h s
    else setHostQueue n { hostQueue s n with
      cqhead := head, cqused := (hostQueue s n).cqused - ahead (cqEntries (hostQueue s n)) (hostQueue s n).cqhead head } s :=
  doorbellView_of_reached serves reached _

end

theorem doorbells_announce : Claim.DoorbellsAnnounce := by
  refine ⟨fun h n tail s serves reached => ?_, fun h n head s serves reached => ?_, fun h n x s serves job priv => ?_⟩
  · intro q
    rw [exec_sqDb_of_serves serves]
    refine ⟨fun inside onward new => ⟨_, rfl, ?_⟩, fun inside same => ⟨_, rfl, ?_⟩, fun stale => congrArg _ (ringSq_of_stale serves reached stale)⟩
    · rw [ringSq_of_fresh serves reached inside onward]
      dsimp only
      rw [if_neg new]
      exact ⟨rfl, hostQueue_setHostQueue_self _ _ _, fun m other => hostQueue_setHostQueue_ne other _ _,
        only_host (setHostQueue_frame _ _ _) _ (by decide)⟩
    · subst same
      rw [ringSq_of_fresh serves reached inside le_rfl]
      dsimp only
      rw [if_pos rfl]
      exact ⟨rfl, hostQueue_setHostQueue_self _ _ _, setHostQueue_frame _ _ _⟩
  · intro q
    rw [exec_cqDb_of_serves serves, ringCq_of_reached serves reached]
    exact ⟨fun inside used => congrArg _ (if_neg (by simpa using ⟨inside, used⟩)), fun stale => congrArg _ (if_pos (by simpa using stale))⟩
  · rw [exec_sqDb_of_serves serves, exec_cqDb_of_serves serves]
    exact ⟨congrArg _ (doorbellView_of_denied serves job priv _), congrArg _ (doorbellView_of_denied serves job priv _)⟩

/-! ### ENABLE (R515, R519) -/

theorem setEnable_enable (on : Bool) (q : Queue) : (setEnable on q).enable = on := by
  unfold setEnable
  split
  · simp_all
  · rfl

theorem setEnable_sqhead (on : Bool) (q : Queue) : (setEnable on q).sqhead = q.sqhead := by
  unfold setEnable
  split <;> rfl

theorem setEnable_of_disabled {q : Queue} (disabled : q.enable = false) : setEnable true q = { q with enable := true, stopped := false, err := 0 } :=
  if_pos (by simp [disabled])

section
variable {h : HostAccess} {s : State} (served : PrivServed h s)
include served

theorem exec_queueEnable_of_served (n : Nat) : exec (.queueEnable h n) s = .next (setHostQueue n (setEnable true (hostQueue s n)) s) := by
  show execQueueEnable h n s = _
  rw [execQueueEnable, orHold_of_serves served.1, if_pos (privReg_of_privServed served)]

theorem exec_queueDisable_of_served (n : Nat) : exec (.queueDisable h n) s = .next (setHostQueue n (setEnable false (hostQueue s n)) s) := by
  show execQueueDisable h n s = _
  rw [execQueueDisable, orHold_of_serves served.1, if_pos (privReg_of_privServed served)]

end

theorem queueEnable_disable : Claim.QueueEnableDisable := by
  refine fun h n s served => ⟨⟨_, exec_queueEnable_of_served served n, ?_, ?_, ?_, rfl, setHostQueue_frame _ _ _⟩,
    ⟨_, exec_queueDisable_of_served served n, ?_, ?_, ?_, rfl, setHostQueue_frame _ _ _⟩⟩
  · rw [hostQueue_setHostQueue_self, setEnable_enable]
  · intro disabled
    rw [hostQueue_setHostQueue_self, setEnable_of_disabled disabled]
    exact ⟨rfl, rfl⟩
  · exact fun m other => hostQueue_setHostQueue_ne other _ _
  · rw [hostQueue_setHostQueue_self, setEnable_enable]
  · rw [hostQueue_setHostQueue_self, setEnable_sqhead]
  · exact fun m other => hostQueue_setHostQueue_ne other _ _

/-- Settles O8. -/
theorem doorbellsAndQueues : Obligations.DoorbellsAndQueues := ⟨doorbells_announce, queueEnable_disable⟩

/-! ### Writes of JOB_SEED and FREEZE (R142, R509) -/

theorem exec_privLockFreeze_of_served {h : HostAccess} {s : State} (served : PrivServed h s) :
    exec (.privLockFreeze h) s = .next { s with host := { s.host with freeze := true } } := by
  show execPrivLockFreeze h s = _
  rw [execPrivLockFreeze, orHold_of_serves served.1, if_pos (privReg_of_privServed served)]

theorem exec_jobSeedWrite_of_serves {s : State} (serves : Serves s) (h : HostAccess) (v : W64) : exec (.jobSeedWrite h v) s = .next (writeSeed v s) := by
  show execJobSeedWrite h v s = _
  rw [execJobSeedWrite, orHold_of_serves serves, if_pos serves.stage]

theorem seedAndFreeze_writes : Claim.SeedAndFreezeWrites := by
  refine ⟨fun h s served => exec_privLockFreeze_of_served served, fun h v s serves => ?_⟩
  rw [exec_jobSeedWrite_of_serves serves]
  exact ⟨fun free => congrArg _ (if_neg (by simp [free])), fun busy => congrArg _ (if_pos busy)⟩

/-! ### REGISTER_WRITE (R541, R543) -/

theorem exec_registerWrite_of_serves {s : State} (serves : Serves s) (h : HostAccess) (off : Nat) (wide : Bool) (v : W64) :
    exec (.registerWrite h off wide v) s = .next (hostRegWrite h off wide v s) := by
  show execRegisterWrite h off wide v s = _
  rw [execRegisterWrite, orHold_of_serves serves]

section
variable {h : HostAccess} {off : Nat} {wide : Bool}

theorem hostRegWrite_of_odd (odd : off % (if wide then 8 else 4) ≠ 0) (v : W64) (s : State) : hostRegWrite h off wide v s = unsupported h.port s :=
  if_pos odd

variable (aligned : off % (if wide then 8 else 4) = 0) (below : off < 0x800000)
include aligned below

/-- Below the doorbells and the tables a write goes to its register's slot. -/
theorem hostRegWrite_of_register (v : W64) (s : State) : hostRegWrite h off wide v s = writeSlot h off wide v s := by
  have doorbell : inRange off (dbBase h) 0x400 = false := by
    have : off < dbBase h := by unfold dbBase; split <;> omega
    exact inRange_below this
  rw [hostRegWrite, if_neg (by simp [aligned]), if_neg (by simp [doorbell])]
  cases job : h.job
  · rw [if_neg (by decide), if_pos (by omega)]
  · rw [if_pos rfl, if_pos below]

end

/-- A write of a whole register, or of one of 32 bits, through a served access of the privileged view. -/
theorem writeSlot_of_served {h : HostAccess} {s : State} (served : PrivServed h s) {o : Nat} {r : RegInfo} (info : regInfo o = some r) (aligned : o % 8 = 0)
    {wide : Bool} (fits : wide = true ∨ r.width ≤ 32) (v : W64) :
    writeSlot h o wide v s = setReg o (if r.width = 32 then BitVec.ofNat 64 (v.toNat % 2 ^ 32) else v) s := by
  have slot : o / 8 * 8 = o := by omega
  have narrow : (!wide && decide (32 < r.width)) = false := by
    rcases fits with rfl | small
    · rfl
    · simp [small]
  simp [writeSlot, slot, info, served.2, served.1.stage, narrow, aligned]

theorem writeSlot_of_narrow {h : HostAccess} {s : State} (served : PrivServed h s) {o : Nat} {r : RegInfo} (info : regInfo (o / 8 * 8) = some r)
    (big : 32 < r.width) (v : W64) : writeSlot h o false v s = post Ev.argReject [] s := by
  simp [writeSlot, info, served.2, served.1.stage, big]

theorem writeSlot_of_job {h : HostAccess} (job : h.job = true) {off : Nat} {r : RegInfo} (info : regInfo (off / 8 * 8) = some r) (priv : r.view ≠ 2)
    (wide : Bool) (v : W64) (s : State) : writeSlot h off wide v s = s := by
  simp [writeSlot, info, job, priv]

/-- A served write of a register by its offset. -/
theorem exec_registerWrite_of_register {h : HostAccess} {s : State} (served : PrivServed h s) {o : Nat} {r : RegInfo} (info : regInfo o = some r)
    (aligned : o % 8 = 0) (below : o < 0x800000) {wide : Bool} (fits : wide = true ∨ r.width ≤ 32) (v : W64) :
    exec (.registerWrite h o wide v) s = .next (setReg o (if r.width = 32 then BitVec.ofNat 64 (v.toNat % 2 ^ 32) else v) s) := by
  rw [exec_registerWrite_of_serves served.1, hostRegWrite_of_register (by cases wide <;> simp <;> omega) below, writeSlot_of_served served info aligned fits]

theorem toNat_low (v : W64) : (BitVec.ofNat 64 (v.toNat % 2 ^ 32)).toNat = v.toNat % 2 ^ 32 := by
  rw [BitVec.toNat_ofNat]
  omega

theorem bitAt_low (x : Nat) : bitAt (x % 2 ^ 32) 0 = bitAt x 0 := by
  simp [bitAt]

theorem writePrivLock_of_frozen {s : State} (frozen : s.host.freeze = true) (v : W64) :
    writePrivLock v s = { s with host := { s.host with privOpen := bitAt v.toNat 0 && s.host.privOpen } } := by
  have freeze : (s.host.freeze || bitAt v.toNat 1) = s.host.freeze := by rw [frozen, Bool.true_or]
  have opened : (if bitAt v.toNat 0 && s.host.freeze then s.host.privOpen else bitAt v.toNat 0) = (bitAt v.toNat 0 && s.host.privOpen) := by
    rw [frozen]
    cases bitAt v.toNat 0 <;> rfl
  rw [writePrivLock, freeze, opened]

theorem frozenPrivLock_stays : Claim.FrozenPrivLockStays := by
  intro h wide v s served frozen
  rw [exec_registerWrite_of_register served (o := 0x20) rfl rfl (by decide) (.inr le_rfl)]
  show Host.Outcome.next (writePrivLock _ s) = _
  rw [if_pos rfl, writePrivLock_of_frozen frozen, toNat_low, bitAt_low]

theorem registerWrite_forms : Claim.RegisterWriteForms := by
  refine ⟨fun h v s served => ⟨?_, ?_, ?_, writeAper 0 v s, ?_, ?_⟩, fun h off wide v r s serves job below aligned info priv => ?_, fun h off wide v s serves odd => ?_,
    fun h off wide v s failed crossing room => ?_⟩
  · rw [exec_registerWrite_of_register served (o := 0x50) rfl rfl (by decide) (.inr le_rfl)]
    show Host.Outcome.next (writeEvtCfg _ s) = _
    rw [if_pos rfl, writeEvtCfg, toNat_low]
  · rw [exec_registerWrite_of_register served (o := 0x510) rfl rfl (by decide) (.inr le_rfl), if_pos rfl]
    show Host.Outcome.next { s with near := { s.near with rplIndex := BitVec.ofNat 14 (BitVec.ofNat 64 (v.toNat % 2 ^ 32)).toNat } } = _
    rw [toNat_low]
  · rw [exec_registerWrite_of_serves served.1, hostRegWrite_of_register rfl (by decide), writeSlot_of_narrow served (r := ⟨64, 1⟩) rfl (by decide)]
  · exact exec_registerWrite_of_register served (o := 0x40) rfl rfl (by decide) (.inl rfl) v
  · show (getPcie (writeAper 0 v s) 0).aper.base = _ ∧ (getPcie (writeAper 0 v s) 0).aper.writeEn = _ ∧ (getPcie (writeAper 0 v s) 0).aper.en = _ ∧ _
    rw [writeAper, getPcie_setPcie_self]
    exact ⟨rfl, rfl, rfl, setPcie_frame _ _ _⟩
  · rw [exec_registerWrite_of_serves serves, hostRegWrite_of_register aligned below, writeSlot_of_job job info priv]
  · rw [exec_registerWrite_of_serves serves, hostRegWrite_of_odd odd, unsupported, getPcie_setPcie_self]
    exact ⟨rfl, rfl⟩
  · show execRegisterWrite h off wide v s = _
    simp [execRegisterWrite, orHold, failed, crossing, room]

/-- Settles O7. -/
theorem registerWritesAct : Obligations.RegisterWritesAct := ⟨seedAndFreeze_writes, frozenPrivLock_stays, registerWrite_forms⟩

end Sys2Proof.Machine
end

section
/-! SUPPORT. The power messages and preferences (R438, R439, R441, R452), and a power-turn boundary that the model names before CT has come to it (R35, R37). -/

namespace Sys2Proof.Machine

/-- CT stands at 0:5 with the offset at beat 6, and a boundary of an earlier offset, 0:0, is next: the last boundary of the offset at or before CT would lie in the turn
before turn 0. -/
def beforeFirstBoundary : State :=
  { State.reset with
    cad := { state := .internal, ct := ctMk 0 5, edge := ctMk 0 5, offset := 6 }
    power := { next := some 0 } }

/-- Measurements of a turn with nothing in them. -/
def idleSense : PowerSense := { nonField := 0, input := 0, temps := [], again := [], tiles := [], cap := 0, capAgain := 0, stretched := [] }

/-- The boundary that is named as reached is the offset's one in turn 0, one beat ahead of CT. -/
theorem dueBoundary_beforeFirstBoundary : dueBoundary beforeFirstBoundary = some (ctMk 0 6) := by decide +kernel

/-- CT cannot come to it in its beat, so the command leaves the state as it is. -/
theorem exec_powerTurnBoundary_beforeFirstBoundary : exec (.powerTurnBoundary idleSense) beforeFirstBoundary = .next beforeFirstBoundary := by
  have short : comeTo ((powerAt beforeFirstBoundary).toNat, 0, 0) (powerAt beforeFirstBoundary) beforeFirstBoundary = none := by decide +kernel
  show execPowerTurnBoundary idleSense beforeFirstBoundary = _
  rw [execPowerTurnBoundary, if_neg (by decide), short]

/-- Refutes O41 in its second claim: in turn 0 the model names a boundary that lies past CT as the one that CT has reached, and no turn begins at it. -/
theorem not_powerTurnsAndTransitions : ¬ Obligations.PowerTurnsAndTransitions := by
  rintro ⟨-, begins⟩
  obtain ⟨t, ran, -, boundary, -⟩ := (begins idleSense beforeFirstBoundary).2 (ctMk 0 6) rfl rfl (by decide +kernel) dueBoundary_beforeFirstBoundary
  rw [exec_powerTurnBoundary_beforeFirstBoundary] at ran
  cases ran
  exact absurd boundary (by decide +kernel)

/-! ### Power messages (R438, R439, R441) -/

section
variable {s : State} (up : mctpUp s = true)
include up

theorem exec_grant_of_running (runs : ctRuns s = true) (seq : Byte) (turn : W64) (watts : W32) : exec (.grant seq turn watts) s =
    (let known := ctTurn (comingBoundary s)
     let late := decide (turn.toNat ≤ known)
     let applied := if late then known + 1 else turn.toNat
     let g := min watts.toNat maxGrant
     let code := b2n (decide (maxGrant < watts.toNat)) + 2 * b2n late + 4 * b2n (decide (g < s.power.floorW))
     .next (mctpReply (det [(1, 0x81), (1, seq.toNat), (1, code), (1, 0), (8, applied)])
       { s with power := { s.power with grants := { turn := applied, watts := g } :: s.power.grants, sinceGrant := 0, stale := false } })) := by
  show execGrant seq turn watts s = _
  rw [execGrant, if_neg (by simp [up]), if_neg (by simp [runs])]

theorem exec_grant_of_stopped (stopped : ctRuns s = false) (seq : Byte) (turn : W64) (watts : W32) : exec (.grant seq turn watts) s =
    .next (mctpReply (det [(1, 0x81), (1, seq.toNat), (1, 0x80), (1, 0), (8, (draw s).1.toNat)]) (draw s).2) := by
  show execGrant seq turn watts s = _
  rw [execGrant, if_neg (by simp [up]), if_pos (by simp [stopped])]

theorem exec_offset_of_stopped (stopped : ctRuns s = false) (seq : Byte) (off : BitVec 16) : exec (.offset seq off) s =
    .next (mctpReply (det [(1, 0x82), (1, seq.toNat), (1, 0x80), (1, 0)]) s) := by
  show execOffset seq off s = _
  simp [execOffset, up, stopped]

theorem exec_offset_of_running (runs : ctRuns s = true) (seq : Byte) (off : BitVec 16) : exec (.offset seq off) s =
    .next (if 1023 < off.toNat then mctpReply (det [(1, 0x82), (1, seq.toNat), (1, 0x40), (1, 0)]) s
      else mctpReply (det [(1, 0x82), (1, seq.toNat), (1, 0), (1, 0)]) (setCad { s.cad with nextOffset := some off.toNat } s)) := by
  show execOffset seq off s = _
  rw [execOffset]
  simp only [up, runs, Bool.not_true, Bool.false_eq_true, if_false]
  split <;> rfl

theorem exec_getSensorReading_of_up (k : Nat) : exec (.getSensorReading k) s = .next (mctpReply ((sensorValue s k).getD []) s) := if_pos up

end

theorem two_mul_b2n (c : Prop) [Decidable c] (n : Nat) : n * b2n (decide c) = if c then n else 0 := by
  by_cases h : c <;> simp [b2n, h]

theorem powerFlags_lt (p : Power) : powerFlags p < 16 := by
  have := b2n_le_one p.stale
  have := b2n_le_one p.default
  have := b2n_le_one p.floor
  have := b2n_le_one p.limited
  unfold powerFlags
  omega

/-- The flags stand in bits [5:2] of PWR_STATUS (R454). -/
theorem fld_pwrStatus_flags (p : Power) : fld (pwrStatus p) 2 4 = powerFlags p := by
  have := powerFlags_lt p
  unfold fld pwrStatus
  omega

theorem powerMessages_answer : Claim.PowerMessagesAnswer := by
  refine ⟨fun seq turn w s up runs => ?_, fun seq turn w s up stopped => ?_, fun seq off s up => ?_, fun seq s up => ?_, fun k s up most => ?_,
    fun seq turn w off k s down => ?_⟩
  · intro known applied code
    refine ⟨_, exec_grant_of_running up runs seq turn w, ?_, ?_, ?_⟩
    · simp only [decide_eq_true_eq]
      rfl
    · have sums : b2n (decide (maxGrant < w.toNat)) + 2 * b2n (decide (turn.toNat ≤ known)) +
          4 * b2n (decide (min w.toNat maxGrant < s.power.floorW)) = code := by
        rw [two_mul_b2n, two_mul_b2n, ← Nat.one_mul (b2n (decide (maxGrant < w.toNat))), two_mul_b2n]
        rfl
      rw [← sums]
      simp only [decide_eq_true_eq]
      rfl
    · exact only_host (only_power (OnlyChanges.refl _ _) _ (by decide)) _ (by decide)
  · exact ⟨_, _, exec_grant_of_stopped up stopped seq turn w, rfl, only_host (only_freeCtr (OnlyChanges.refl _ _) _ (by decide)) _ (by decide)⟩
  · intro code
    rcases Bool.eq_false_or_eq_true (ctRuns s) with runs | stopped
    rotate_left
    · have : code = 0x80 := by simp [code, stopped]
      exact ⟨_, exec_offset_of_stopped up stopped seq off, (if_neg (by rw [this]; decide)).symm, by rw [this]; rfl, only_host (OnlyChanges.refl _ _) _ (by decide)⟩
    · refine ⟨_, exec_offset_of_running up runs seq off, ?_⟩
      by_cases far : 1023 < off.toNat
      · have : code = 0x40 := by simp [code, runs, far]
        rw [if_pos far]
        exact ⟨(if_neg (by rw [this]; decide)).symm, by rw [this]; rfl, only_host (OnlyChanges.refl _ _) _ (by decide)⟩
      · have : code = 0 := by simp [code, runs, far]
        rw [if_neg far]
        exact ⟨(if_pos this).symm, by rw [this]; rfl, only_host (only_cad (OnlyChanges.refl _ _) _ (by decide)) _ (by decide)⟩
  · intro p l
    have : exec (.report seq) s = _ := if_neg (by simp [up])
    rw [this]
    simp only [l, fld_pwrStatus_flags]
    rfl
  · refine ⟨_, exec_getSensorReading_of_up up k, ?_⟩
    have : k = 0 ∨ k = 1 ∨ k = 2 ∨ k = 3 ∨ k = 4 ∨ k = 5 ∨ k = 6 := by omega
    rcases this with rfl | rfl | rfl | rfl | rfl | rfl | rfl <;> simp [sensorValue, toLE_length]
  · have silent : (!mctpUp s) = true := by simp [down]
    exact ⟨if_pos silent, if_pos silent, if_pos silent, if_neg (by simp [down])⟩

/-! ### Preferences (R452) -/

/-- The five preferences are the 15 low bits of the operand. -/
theorem pwrPref_setPref (v : Nat) (s : State) : pwrPref (setPref v s).power = v % 32768 := by
  simp only [pwrPref, setPref, BitVec.toNat_ofNat]
  omega

theorem dispatchPacket_prefSet {p : Packet} {s : State} (serves : Serves s) (opc : p.opc = 0x0701) (passes : checkPacket s p = none)
    (timely : fireRefusal s p = none) : dispatchPacket p s = opPrefDispatch p s := by
  have plain : stepOpcode p.opc = false := by rw [opc]; rfl
  rw [dispatchPacket_of_plain serves passes plain timely, if_neg (by simp [isLate, opc]), execute, if_neg (by simp [plain]), if_pos opc]

/-- With its checks passed and its FIRE time one that R41 takes, a PREF_SET acts at once or waits. -/
theorem exec_prefSet_of_passes {p : Packet} {s : State} (serves : Serves s) (opc : p.opc = 0x0701) (passes : checkPacket s p = none)
    (timely : fireRefusal s p = none) : exec (.prefSet p) s = .next (opPrefDispatch p s) := by
  rw [exec_packetRow rfl, ← opc, dispatchPacket_prefSet serves opc passes timely]

theorem fireRefusal_of_timely {p : Packet} {s : State} (runs : ctRuns s = true) (near : p.fire.toNat ≤ s.cad.ct.toNat + fireReach) (other : p.opc ≠ 0x0404)
    (room : s.cad.ct.toNat < p.fire.toNat → pendingEvents s < 4096) : fireRefusal s p = none := by
  rw [fireRefusal, if_neg (by simp [runs]), if_neg (by omega)]
  by_cases zero : p.fire = 0
  · exact if_pos zero
  · rw [if_neg zero, if_neg (by simp [other])]
    exact if_neg (by simpa using room)

theorem preferences_areSet : Claim.PreferencesAreSet := by
  refine fun p s serves opc passes => ⟨fun now => ?_, fun fire runs near room => ?_⟩
  · have admitted : Admitted 0x0701 p s := ⟨serves, opc, now, passes⟩
    have plain : stepOpcode p.opc = false := by rw [opc]; rfl
    refine ⟨opPrefSet p s, ?_, ?_⟩
    · rw [exec_prefSet_of_passes serves opc passes (fireRefusal_of_zero now), opPrefDispatch, if_pos now]
    · rw [opPrefSet, accept, admitted.ok, reply_plain plain]
      exact ⟨rfl, pwrPref_setPref _ _, rfl, only_host (only_power (OnlyChanges.refl _ _) _ (by decide)) _ (by decide)⟩
  · have timely : fireRefusal s p = none := fireRefusal_of_timely runs near (by rw [opc]; decide) room
    rw [exec_prefSet_of_passes serves opc passes timely, opPrefDispatch, if_neg fire]
    rfl

/-- Settles O43. -/
theorem powerMessagesAndPreferences : Obligations.PowerMessagesAndPreferences := ⟨powerMessages_answer, preferences_areSet⟩

end Sys2Proof.Machine
end

section
/-! SUPPORT. The 52 V input, the module reset and the resets of the PCIe ports (R508, R552 to R559). -/

namespace Sys2Proof.Machine

/-! ### The thresholds (R552) -/

theorem underMv_bounds : 43500 ≤ underMv ∧ underMv ≤ 44500 := by
  unfold underMv
  omega

theorem restartMv_bounds : 45000 ≤ restartMv ∧ restartMv ≤ 46000 := by
  unfold restartMv
  omega

theorem overMv_bounds : 57500 ≤ overMv ∧ overMv ≤ 59500 := by
  unfold overMv
  omega

theorem tripAmps_bounds : 600 ≤ tripAmps ∧ tripAmps ≤ 640 := by
  unfold tripAmps
  omega

/-! ### PRECHARGE and PWR_OK_RISE (R552, R553) -/

/-- From the restart threshold on, a module that is off, whose input has fallen and whose leak is not latched, starts (R553). -/
def Restarts (mv : Int) (s : State) : Prop := restartMv ≤ mv ∧ s.pins.powered = false ∧ s.pins.fell = true ∧ s.pins.leakLatched = false

section
variable {mv : Int} (s : State) (undamaged : -500 ≤ mv)
include undamaged

theorem exec_precharge_of_over (over_ : overMv < mv) : exec (.precharge mv) s = .next (shutDown false s) := by
  show execPrecharge mv s = _
  rw [execPrecharge, if_neg undamaged.not_gt, if_pos over_]

theorem exec_precharge_of_under (high : 40000 ≤ mv) (under : mv < underMv) : exec (.precharge mv) s = .next (shutDown false s) := by
  show execPrecharge mv s = _
  rw [execPrecharge, if_neg undamaged.not_gt, if_neg (under.trans underMv_lt_overMv).not_gt, if_pos under]
  exact congrArg _ (if_neg high.not_gt)

variable {s} (inside : underMv ≤ mv) (most : mv ≤ overMv)
include inside most

theorem exec_precharge_of_restarts (restarts : Restarts mv s) :
    exec (.precharge mv) s = .next { s with pins := { s.pins with precharging := true, fell := false } } := by
  obtain ⟨enough, off, fell, unlatched⟩ := restarts
  show execPrecharge mv s = _
  rw [execPrecharge, if_neg undamaged.not_gt, if_neg most.not_gt, if_neg inside.not_gt, if_pos (by simp [enough, off, fell, unlatched])]

theorem exec_precharge_of_stays (stays : ¬Restarts mv s) : exec (.precharge mv) s = .next s := by
  show execPrecharge mv s = _
  rw [execPrecharge, if_neg undamaged.not_gt, if_neg most.not_gt, if_neg inside.not_gt]
  refine if_neg fun h => stays ?_
  simp only [Bool.and_eq_true, Bool.not_eq_true', decide_eq_true_eq, and_assoc] at h
  exact h

end

theorem underMv_le_of_restarts {mv : Int} {s : State} (restarts : Restarts mv s) : underMv ≤ mv := by
  have := underMv_bounds.2
  have := restartMv_bounds.1
  have := restarts.1
  omega

/-! ### A shutdown and the module reset (R554, R556) -/

theorem shutDown_of_on {s : State} (on : s.pins.powered = true ∨ s.pins.precharging = true) (leak : Bool) : shutDown leak s = powerOff leak s :=
  if_pos (by simpa using on)

/-- With PWR_OK high a reset leaves the rails that are on, at OP0 (R556). -/
theorem railMv_of_mem_volatileLost {s : State} {x : Nat × Field} (h : x ∈ (volatileLost s).fields) : x.2.railMv = opMv 0 := by
  unfold volatileLost at h
  dsimp only at h
  split at h
  · obtain ⟨_, -, rfl⟩ := List.mem_map.mp h
    rfl
  · cases h

theorem exec_modRstAssert_of_ok {s : State} (ok : s.pins.pwrOk = true) :
    exec .modRstAssert s = .next (volatileLost { s with pins := { s.pins with modRst := true } }) := if_pos ok

theorem beginReset_of_ready {s : State} (ok : s.pins.pwrOk = true) (settled : s.pins.settled = true) (released : s.pins.modRst = false)
    (stage : s.bu.stage = 0) (waits : s.bu.state = .wait) : beginReset s = setBu { s.bu with state := .running } s :=
  if_pos (by simp [ok, settled, released, stage, waits])

theorem beginReset_of_unsettled {s : State} (early : s.pins.settled = false) : beginReset s = s := if_neg (by simp [early])

theorem beginReset_of_held {s : State} (held : s.pins.modRst = true) : beginReset s = s := if_neg (by simp [held])

/-- MOD_RST_N high. -/
def released (s : State) : State := { s with pins := { s.pins with modRst := false } }

/-- 1 ms after PWR_OK rose, where it is still high. -/
def settledAsOk (s : State) : State := { s with pins := { s.pins with settled := s.pins.pwrOk } }

section
variable {s : State} (ok : s.pins.pwrOk = true) (stage : s.bu.stage = 0) (waits : s.bu.state = .wait)
include ok stage waits

theorem exec_modRstRelease_of_settled (settled : s.pins.settled = true) :
    exec .modRstRelease s = .next { s with pins := { s.pins with modRst := false }, bu := { s.bu with state := .running } } :=
  congrArg Host.Outcome.next (beginReset_of_ready (s := released s) ok settled rfl stage waits)

theorem exec_resetStageStart_of_released (up : s.pins.modRst = false) :
    exec .resetStageStart s = .next { s with pins := { s.pins with settled := true }, bu := { s.bu with state := .running } } := by
  show Host.Outcome.next (beginReset (settledAsOk s)) = _
  rw [beginReset_of_ready (s := settledAsOk s) ok ok up stage waits, settledAsOk, ok]
  rfl

end

theorem powerInput_andResets : Claim.PowerInputAndResets := by
  refine ⟨fun mv s undamaged => ⟨exec_precharge_of_over s undamaged, exec_precharge_of_under s undamaged, exec_precharge_of_fallen s undamaged,
      fun most restarts => exec_precharge_of_restarts undamaged (underMv_le_of_restarts restarts) most restarts,
      fun inside most stays => exec_precharge_of_stays undamaged inside most stays⟩,
    fun mv s low => if_pos low, ?_, fun s => ⟨fun on => if_pos on, fun off => if_neg (by simp [off])⟩, fun c s => ?_, fun s => ⟨fun on => ?_, fun off still => ?_⟩,
    fun s => ⟨fun ok => ⟨_, exec_modRstAssert_of_ok ok, rfl, rfl, rfl, rfl, rfl, rfl, rfl, rfl, rfl, fun _ => railMv_of_mem_volatileLost, rfl, rfl⟩,
      fun off => if_neg (by simp [off])⟩,
    fun s => ⟨fun ok stage waits => ⟨exec_modRstRelease_of_settled ok stage waits, exec_resetStageStart_of_released ok stage waits⟩,
      fun early => congrArg Host.Outcome.next (beginReset_of_unsettled (s := released s) early),
      fun held => congrArg Host.Outcome.next (beginReset_of_held (s := settledAsOk s) held)⟩⟩
  · exact ⟨underMv_bounds.1, underMv_bounds.2, restartMv_bounds.1, restartMv_bounds.2, overMv_bounds.1, overMv_bounds.2, tripAmps_bounds.1, tripAmps_bounds.2⟩
  · cases c <;>
      exact ⟨fun trips => congrArg _ (if_pos (decide_eq_true trips)), fun fits => congrArg _ (if_neg (by rwa [inputTrips, decide_eq_true_eq]))⟩
  · rw [shutDown_of_on on false]
    exact ⟨rfl, rfl, rfl, Bool.or_false _, rfl, rfl, rfl, rfl, rfl, rfl, rfl, rfl, rfl, rfl⟩
  · exact shutDown_of_off ⟨off, still⟩ false

/-! ### Port resets (R508, R559) -/

theorem lookup_map_keyed {β : Type} (f : Nat → β → β) (k : Nat) (t : Table β) :
    lookup k (t.map fun (j, x) => (j, f j x)) = (lookup k t).map (f k) := by
  induction t with
  | nil => rfl
  | cons x r ih =>
    obtain ⟨j, x⟩ := x
    by_cases here : k = j
    · subst here
      simp [lookup]
    · simpa [lookup, here] using ih

theorem mem_upsert_self {β : Type} (k : Nat) (v : β) (t : Table β) : (k, v) ∈ upsert k v t := by
  induction t with
  | nil => simp [upsert]
  | cons x r ih =>
    obtain ⟨j, x⟩ := x
    rw [upsert]
    split
    · simp
    · split
      · simp
      · exact List.mem_cons_of_mem _ ih

theorem getPcie_setPcie_ne {m n : Nat} (other : m ≠ n) (p : PciePort) (s : State) : getPcie (setPcie n p s) m = getPcie s m :=
  lookupD_upsert_ne other _ _ _

/-- A port owns the queues that name it. -/
def ownsQueue (s : State) (n q : Nat) : Bool := decide (q < 64) && (hostQueue s q).port == (n == 1)

theorem hostQueue_resetPort (n : Nat) (pin : Bool) (s : State) (q : Nat) : hostQueue (resetPort n pin s) q =
    if ownsQueue s n q then { hostQueue s q with enable := false, stopped := false } else hostQueue s q := by
  have mapped := lookup_map_keyed (fun q (x : Queue) => if ownsQueue s n q then { x with enable := false, stopped := false } else x) q s.host.queues
  show (lookup q (s.host.queues.map fun (q, x) => (q, if ownsQueue s n q then { x with enable := false, stopped := false } else x))).getD {} = _
  rw [mapped]
  unfold hostQueue lookupD
  cases lookup q s.host.queues with
  | none => cases ownsQueue s n q <;> rfl
  | some x => rfl

theorem getPcie_resetPort_self (n : Nat) (pin : Bool) (s : State) : getPcie (resetPort n pin s) n =
    { perst := pin || (getPcie s n).perst, refclk := (getPcie s n).refclk, trained := !pin && (getPcie s n).trained } := by
  rw [resetPort, getPcie_setPcie_self]
  cases pin <;> rfl

theorem getPcie_resetPort_ne {m n : Nat} (other : m ≠ n) (pin : Bool) (s : State) : getPcie (resetPort n pin s) m = getPcie s m :=
  getPcie_setPcie_ne other _ _

theorem length_replies_resetPort (n : Nat) (pin : Bool) (s : State) : (resetPort n pin s).host.replies.length = s.host.replies.length :=
  List.length_map _

/-- A port released from its reset, before the bring-up sees it. -/
def releasedPort (n : Nat) (refclk : Bool) (s : State) : State := setPcie n { getPcie s n with perst := false, refclk } s

theorem startPcie_of_released {s : State} (stage : s.bu.stage = 0) (done : s.bu.state = .done) (n : Nat) (refclk : Bool) :
    startPcie (releasedPort n refclk s) = setBu { s.bu with stage := 1, state := .running, elapsed := 0 } (releasedPort n refclk s) := by
  have up : ((releasedPort n refclk s).host.ports.any fun (_, p) => !p.perst) = true :=
    List.any_eq_true.mpr ⟨_, mem_upsert_self n _ _, rfl⟩
  exact if_pos (by rw [up]; simp [releasedPort, stage, done])

theorem startPcie_of_later {s : State} (later : s.bu.stage ≠ 0) : startPcie s = s := if_neg (by simp [later])

/-- A port that serves configuration. -/
def trainedPort (n : Nat) (s : State) : State := setPcie n { getPcie s n with trained := true } s

theorem exec_perstRelease_eq (n : Nat) (refclk : Bool) (s : State) : exec (.perstRelease n refclk) s =
    if stageDone (startPcie (releasedPort n refclk s)) 1 = true then .next (trainedPort n (startPcie (releasedPort n refclk s)))
    else .next (startPcie (releasedPort n refclk s)) := rfl

theorem exec_perstRelease_of_first {s : State} (stage : s.bu.stage = 0) (done : s.bu.state = .done) (n : Nat) (refclk : Bool) :
    exec (.perstRelease n refclk) s = .next (setBu { s.bu with stage := 1, state := .running, elapsed := 0 } (releasedPort n refclk s)) := by
  rw [exec_perstRelease_eq, startPcie_of_released stage done]
  exact if_neg Bool.false_ne_true

theorem exec_perstRelease_of_done {s : State} (done : stageDone s 1 = true) (later : s.bu.stage ≠ 0) (n : Nat) (refclk : Bool) :
    exec (.perstRelease n refclk) s = .next (trainedPort n (releasedPort n refclk s)) := by
  have unstarted : startPcie (releasedPort n refclk s) = releasedPort n refclk s := startPcie_of_later later
  rw [exec_perstRelease_eq, unstarted]
  exact if_pos done

theorem port_resets : Claim.PortResets := by
  refine ⟨fun n pin s => ⟨_, rfl, getPcie_resetPort_self n pin s, fun q low mine => ?_, fun q other => ?_, fun m other => getPcie_resetPort_ne other pin s,
      rfl, rfl, length_replies_resetPort n pin s, (resetPort_frame n pin s).mono (by decide)⟩,
    fun n refclk s stage done => ⟨_, exec_perstRelease_of_first stage done n refclk, ?_, ?_, rfl, rfl, ?_⟩,
    fun n refclk s done later => ⟨_, exec_perstRelease_of_done done later n refclk, ?_, ?_, ?_, ?_⟩⟩
  · rw [hostQueue_resetPort, if_pos (by simp [ownsQueue, low, mine])]
  · rw [hostQueue_resetPort, if_neg (by simp [ownsQueue, other])]
  · exact congrArg PciePort.perst (getPcie_setPcie_self n _ s)
  · exact congrArg PciePort.refclk (getPcie_setPcie_self n _ s)
  · exact (setPcie_frame n _ s).mono (by decide) |>.step (setBu_frame _ _) (by decide)
  · rw [trainedPort, getPcie_setPcie_self, releasedPort, getPcie_setPcie_self]
  · rw [trainedPort, getPcie_setPcie_self, releasedPort, getPcie_setPcie_self]
  · rw [trainedPort, getPcie_setPcie_self]
  · exact (setPcie_frame n _ s).trans (setPcie_frame n _ _)

/-- Settles O46. -/
theorem powerInputAndPortResets : Obligations.PowerInputAndPortResets := ⟨powerInput_andResets, port_resets⟩

end Sys2Proof.Machine
end

section
/-! SUPPORT. The event log and the fault ledger (R481, R529), and the stages of bring-up (R486 to R500). -/

namespace Sys2Proof.Machine

/-! ### The newest event and the newest record -/

/-- An event that the log takes stands newest in it. -/
theorem logEvent_newest {s : State} (log : stageDone s 2 = true) (code origin : Nat) (unit play step : W32) (d : List Byte) :
    ∃ e : Event, e.code = code ∧ (logEvent code origin unit play step d s).host.events = (e :: s.host.events).take 65536 := by
  rw [logEvent, if_pos log]
  exact ⟨_, rfl, rfl⟩

/-- A message leaves the event log alone, or is lost at its full crossing, whose event is then the newest. -/
theorem sendMsi_events (port : Nat) (v : Byte) (s : State) :
    (sendMsi port v s).host.events = s.host.events ∨
      (¬Calm s ∧ ∃ x, x.code = Ev.xingFault ∧ (sendMsi port v s).host.events = (x :: s.host.events).take 65536) ∨
      (¬Calm s ∧ stageDone s 2 = false) := by
  unfold sendMsi
  extract_lets p
  split
  · exact .inl rfl
  split
  · exact .inl rfl
  split
  · exact .inl rfl
  next busy =>
    have busy : ¬Calm s := by simpa [Calm] using busy
    split
    · exact .inl rfl
    · cases log : stageDone s 2 with
      | false => exact .inr (.inr ⟨busy, rfl⟩)
      | true =>
        exact .inr (.inl ⟨busy, logEvent_newest (s := xingNote 0 12 14 false s) log ..⟩)

/-- An event that is posted stands newest in the log, but for that of its own lost pulse. -/
theorem raises_postFull (code origin : Nat) (unit play step : W32) (d : List Byte) (s : State) :
    Raises code s (postFull code origin unit play step d s) := by
  intro log
  obtain ⟨e, named, events⟩ := logEvent_newest log code origin unit play step d
  have calmLog : Calm (logEvent code origin unit play step d s) ↔ Calm s := by rw [Calm, logEvent_xing, Calm]
  unfold postFull
  extract_lets u
  replace calmLog : Calm u ↔ Calm s := calmLog
  replace events : u.host.events = (e :: s.host.events).take 65536 := events
  have logU : stageDone u 2 = true := by
    have : u.bu = s.bu := logEvent_bu ..
    simpa [stageDone, this] using log
  clear_value u
  split
  · rcases sendMsi_events (b2n u.host.evtPort) u.host.evtVector { u with host := { u.host with evtSent := true } } with
      same | ⟨busy, x, fault, more⟩ | ⟨-, off⟩
    · exact ⟨[], e, same.trans events, named, by simp, fun _ => rfl⟩
    · refine ⟨[x], e, ?_, named, by simpa using fault, fun calm => absurd (calmLog.2 calm) busy⟩
      rw [more]
      exact (congrArg (fun l => (x :: l).take 65536) events).trans (take_cons_take ..)
    · exact absurd (logU.symm.trans off) (by decide)
  · exact ⟨[], e, events, named, by simp, fun _ => rfl⟩

/-- What is raised is read from the log before and after, the stage and the crossing before. -/
theorem Raises.of_same {code : Nat} {s s' t t' : State} (h : Raises code s' t') (stage : stageDone s 2 = stageDone s' 2)
    (before : s'.host.events = s.host.events) (calm : Calm s → Calm s') (after : t.host.events = t'.host.events) : Raises code s t := by
  intro log
  obtain ⟨l, e, events, named, faults, quiet⟩ := h (stage ▸ log)
  exact ⟨l, e, by rw [after, events, before], named, faults, fun c => quiet (calm c)⟩

/-! ### Opening a stage -/

theorem openOk_iff (s : State) (n : Nat) : openOk s n = true ↔
    (n = s.bu.stage + 1 ∧ s.bu.state = .done ∨ n = s.bu.stage ∧ s.bu.state = .failed) ∧ 2 ≤ n ∧ n ≤ 10 := by
  simp only [openOk, Bool.and_eq_true, Bool.or_eq_true, decide_eq_true_eq, beq_iff_eq, eq_comm (a := n)]
  exact and_comm

/-- Folding over the fields gives each its own new value. -/
theorem getField_foldl_adjField (g : Field → Field) (f : Nat) : ∀ (l : List Nat) (_ : l.Nodup) (s : State),
    getField (l.foldl (fun s f => adjField f g s) s) f = if f ∈ l then g (getField s f) else getField s f := by
  intro l
  induction l with
  | nil => exact fun _ _ => rfl
  | cons x l ih =>
    intro nodup s
    obtain ⟨new, nodup⟩ := List.nodup_cons.1 nodup
    rw [List.foldl_cons, ih nodup]
    by_cases here : f = x
    · subst here
      simp [new]
    · rw [getField_adjField_ne here]
      simp [here]

theorem getField_startRails {f : Nat} (h : f < 8) (s : State) :
    getField (startRails s) f = if (getField s f).railMv = 0 then { getField s f with railMv := opMv 0 } else getField s f := by
  rw [startRails, getField_foldl_adjField _ f _ List.nodup_range, if_pos (List.mem_range.2 h)]

/-- BU_OPEN of the stage that may open runs it from its start. -/
theorem openStage_bu (n : Nat) (s : State) : (openStage n s).bu =
    { s.bu.fresh with stage := n, state := .running, elapsed := 0, cause := 0, windowBusy := false } := by
  have same : (if n = 3 then startRails s else s).bu = s.bu := by
    split
    · exact startRails_frame s .bu (by decide)
    · rfl
  rw [openStage]
  exact congrArg (fun b : BringUp => { b.fresh with stage := n, state := .running, elapsed := 0, cause := 0, windowBusy := false }) same

section
variable {p : Packet} {s : State} (h : Admitted 0x0101 p s)
include h

theorem exec_buOpen_of_admitted : exec (.buOpen p) s = .next (opBuOpen p (arrived s)) :=
  (exec_of_admitted (c := .buOpen p) rfl h rfl (by decide) (by decide)).trans (by rw [runOp, h.2.1]; rfl)

theorem exec_buOpen_of_open (may : openOk s (item p.param 0 1) = true) :
    exec (.buOpen p) s = .next (accept p (openStage (item p.param 0 1) (arrived s))) := by
  rw [exec_buOpen_of_admitted h, opBuOpen]
  exact congrArg Host.Outcome.next (if_pos may)

theorem exec_buOpen_of_refused (may : ¬openOk s (item p.param 0 1) = true) :
    exec (.buOpen p) s = .next (refuse p Status.stageOrder (refuseOpen p.origin (arrived s))) := by
  rw [exec_buOpen_of_admitted h, opBuOpen]
  exact congrArg Host.Outcome.next (if_neg may)

end

/-! ### The stage window (R489) -/

theorem lookupD_foldl_upsert (off k : Nat) : ∀ (data : List Byte) (i : Nat) (w : Table Byte),
    lookupD 0 k ((data.zipIdx i).foldl (fun w x => upsert (off + x.2) x.1 w) w) =
      if off + i ≤ k ∧ k < off + i + data.length then data.getD (k - (off + i)) 0 else lookupD 0 k w := by
  intro data
  induction data with
  | nil => exact fun i w => (if_neg (by rw [List.length_nil]; omega)).symm
  | cons b data ih =>
    intro i w
    rw [List.zipIdx_cons, List.foldl_cons, ih, List.length_cons]
    by_cases here : k = off + i
    · subst here
      rw [if_neg (by omega), if_pos (by omega), lookupD_upsert_self, Nat.sub_self]
      rfl
    · rw [lookupD_upsert_ne here]
      by_cases later : off + (i + 1) ≤ k ∧ k < off + (i + 1) + data.length
      · rw [if_pos later, if_pos (by omega), show k - (off + i) = k - (off + (i + 1)) + 1 by omega, List.getD_cons_succ]
      · rw [if_neg later, if_neg (by omega)]

theorem writeWindow_of_held {port : Nat} {s : State} (h : s.pins.pwrOk = false ∨ (getPcie s port).trained = false) (off : Nat) (data : List Byte) :
    writeWindow port off data s = s := by
  rw [writeWindow, if_pos]
  change (!(s.pins.pwrOk && (getPcie s port).trained)) = true
  rcases h with h | h <;> simp [h]

section
variable {port : Nat} {s : State} (power : s.pins.pwrOk = true) (trained : (getPcie s port).trained = true) (off : Nat) (data : List Byte)
include power trained

theorem writeWindow_of_serves : writeWindow port off data s =
    if s.bu.state == .running then
      if s.bu.windowBusy then s else post Ev.fwStageBusy [] (setBu { s.bu with windowBusy := true } s)
    else setBu { s.bu with window := (data.zipIdx.foldl (fun w x => upsert (off + x.2) x.1 w) s.bu.window) } s := by
  rw [writeWindow, if_neg]
  change ¬(!(s.pins.pwrOk && (getPcie s port).trained)) = true
  simp [power, trained]

theorem writeWindow_of_idle (idle : s.bu.state ≠ .running) : writeWindow port off data s =
    setBu { s.bu with window := (data.zipIdx.foldl (fun w x => upsert (off + x.2) x.1 w) s.bu.window) } s := by
  rw [writeWindow_of_serves power trained, if_neg (by simpa using idle)]

theorem writeWindow_of_running (running : s.bu.state = .running) : writeWindow port off data s =
    if s.bu.windowBusy then s else post Ev.fwStageBusy [] (setBu { s.bu with windowBusy := true } s) := by
  rw [writeWindow_of_serves power trained, if_pos (by simp [running])]

end

/-- What the work of a command leaves of CT and the host interface is what its answer is read from. -/
theorem answered_reply {p : Packet} {s u : State} (plain : stepOpcode p.opc = false) (cad : u.cad = s.cad) (host : u.host = s.host) (st : BitVec 16)
    (d : W64) : Answered p st d s (reply p st d u) := by
  simp only [Answered, reply_plain plain, answerOf, cad, host]

theorem answered_buOpen {p : Packet} {s : State} (h : Admitted 0x0101 p s) (n : Nat) :
    Answered p 0 0 s (accept p (openStage n (arrived s))) := by
  have frame := openStage_frame n (arrived s)
  rw [accept, h.ok]
  exact answered_reply (h.2.1 ▸ rfl) (frame .cad (by decide)) (frame .host (by decide)) 0 0

/-- A refused open shows its code, raises its event and replies STAGE_ORDER; no stage moves. -/
theorem refusedOpen {p : Packet} {s : State} (plain : stepOpcode p.opc = false) :
    let t := refuse p Status.stageOrder (refuseOpen p.origin (arrived s))
    t.bu = { s.bu with code := Status.stageOrder } ∧ OnlyChanges [.arrivals, .bu, .host, .xing, .store] s t ∧
      t.host.replies = s.host.replies ++ [answerOf p Status.stageOrder 0 s] ∧ Raises Ev.stageOrder s t := by
  have same : (refuseOpen p.origin (arrived s)).host.butLog = s.host.butLog := postFull_same ..
  have cad : (refuseOpen p.origin (arrived s)).cad = s.cad := postFull_cad ..
  rw [refuse, reply_plain plain]
  refine ⟨postFull_bu .., ?_, ?_, ?_⟩
  · refine only_host ?_ _ (by decide)
    refine OnlyChanges.step ?_ (refuseOpen_frame p.origin (arrived s)) (by decide)
    exact only_arrivals (OnlyChanges.refl _ _) _ (by decide)
  · rw [answerOf, cad]
    exact congrArg (· ++ _) (congrArg HostIf.replies same :)
  · exact (raises_postFull _ _ _ _ _ _ _).of_same (s' := setBu { s.bu with code := Status.stageOrder } (arrived s)) rfl rfl id rfl

theorem stagesOpenInOrder : Claim.StagesOpenInOrder := by
  refine ⟨?_, ?_, fun port off data s held => congrArg Host.Outcome.next (writeWindow_of_held held off data)⟩
  · intro p s h n may
    have plain : stepOpcode p.opc = false := h.2.1 ▸ rfl
    refine ⟨fun yes => ?_, fun no => ?_⟩
    · have frame : OnlyChanges [.arrivals, .bu, .host, .fields] s (accept p (openStage n (arrived s))) := by
        refine OnlyChanges.step ?_ (reply_frame_of_plain plain _ _ _) (by decide)
        refine OnlyChanges.step ?_ (openStage_frame n (arrived s)) (by decide)
        exact only_arrivals (OnlyChanges.refl _ _) _ (by decide)
      have kept := reply_frame_of_plain plain (okStatus p) 0 (openStage n (arrived s))
      have bu : (accept p (openStage n (arrived s))).bu =
          { s.bu.fresh with stage := n, state := .running, elapsed := 0, cause := 0, windowBusy := false } :=
        (kept .bu (by decide)).trans (openStage_bu n (arrived s))
      have fields : (accept p (openStage n (arrived s))).fields = (if n = 3 then startRails (arrived s) else arrived s).fields :=
        kept .fields (by decide)
      have opens := exec_buOpen_of_open h ((openOk_iff ..).2 yes)
      refine ⟨accept p (openStage n (arrived s)), opens, congrArg BringUp.stage bu, congrArg BringUp.state bu, congrArg BringUp.cause bu,
        congrArg BringUp.result bu, (congrArg BringUp.window bu :), answered_buOpen h n, frame, fun other => ?_, fun three f low => ?_⟩
      · rw [fields, if_neg other]
        rfl
      · rw [if_pos three] at fields
        rw [getField_of_fields fields, getField_startRails low, apply_ite Field.railMv]
        rfl
    · exact ⟨_, exec_buOpen_of_refused h (fun yes => no ((openOk_iff ..).1 yes)), refusedOpen plain⟩
  · intro port off data s power trained
    refine ⟨fun idle => ?_, fun running busy => ?_, fun running free => ?_⟩
    · refine ⟨_, congrArg Host.Outcome.next (writeWindow_of_idle power trained off data idle), setBu_frame _ _, rfl, fun k => ?_⟩
      exact lookupD_foldl_upsert off k data 0 s.bu.window
    · exact congrArg Host.Outcome.next ((writeWindow_of_running power trained off data running).trans (if_pos busy))
    · exact congrArg Host.Outcome.next ((writeWindow_of_running power trained off data running).trans (if_neg (by simp [free])))

/-! ### The image stages (R490, R533) -/

theorem working_iff (s : State) (n : Nat) : working s n = true ↔
    s.bu.stage = n ∧ s.bu.state = .running ∧ s.bu.result = none ∧ s.rel.ccFailed = false := by
  simp [working, and_assoc]


section
variable {stage kind : Nat} {s : State} (open_ : working s stage = true) (go : State → State)
include open_

theorem imageStage_of_fault {c : BitVec 16} (fails : imageFault s kind = some c) :
    imageStage stage kind go s = .next (stageResult .failed c 0 s) := by
  rw [imageStage, if_neg (by simp [open_]), fails]

theorem imageStage_of_good (good : imageFault s kind = none) : imageStage stage kind go s = .next (go (loadImage kind s)) := by
  rw [imageStage, if_neg (by simp [open_]), good]

end

/-- An image that is loaded runs, with its measure. -/
theorem lookup_loadImage (kind : Nat) (s : State) : ∃ x, lookup kind (loadImage kind s).bu.images = some x ∧ x.arb = winN s 8 4 ∧
    x.meas = Config.shake256 (winBytes s 0 2016 ++ winBytes s 5376 (bodyLen s)) :=
  ⟨_, lookup_upsert_self .., rfl, rfl⟩

/-- Going on with an image leaves the images as loading left them. -/
theorem lookup_images_of_same {kind : Nat} {s t : State} (same : t.bu.images = (loadImage kind s).bu.images) :
    ∃ x, lookup kind t.bu.images = some x ∧ x.arb = winN s 8 4 ∧
      x.meas = Config.shake256 (winBytes s 0 2016 ++ winBytes s 5376 (bodyLen s)) := same ▸ lookup_loadImage kind s

@[simp] theorem getCapstan_setCapstan_self (k : Nat) (c : Capstan) (s : State) : getCapstan (setCapstan k c s) k = c := lookupD_upsert_self ..

theorem getCapstan_setCapstan_ne {j k : Nat} (h : j ≠ k) (c : Capstan) (s : State) : getCapstan (setCapstan k c s) j = getCapstan s j :=
  lookupD_upsert_ne h ..

/-- The dice that failed their check, in the store. -/
def addDice (failed : List Nat) (s : State) : State :=
  failed.foldl (fun s d =>
    if s.store.badDice.contains d then s
    else ledgerRec 10 10 0 (unitOf 3 d) 0xFFFFFFFF 0 [] { s with store := { s.store with badDice := d :: s.store.badDice } }) s

/-- A capstan die that failed its check is in the store. -/
theorem mem_addDice {d : Nat} : ∀ (failed : List Nat) (s : State), (d ∈ failed ∨ d ∈ s.store.badDice) →
    d ∈ (addDice failed s).store.badDice := by
  intro failed
  induction failed with
  | nil => exact fun s h => h.resolve_left (List.not_mem_nil)
  | cons x failed ih =>
    intro s h
    rw [addDice, List.foldl_cons]
    refine ih _ ?_
    by_cases known : s.store.badDice.contains x = true
    · rw [if_pos known]
      rcases h with h | h
      · rcases List.mem_cons.1 h with rfl | h
        · exact .inr (by simpa using known)
        · exact .inl h
      · exact .inr h
    · rw [if_neg known]
      rcases h with h | h
      · rcases List.mem_cons.1 h with rfl | h
        · exact .inr List.mem_cons_self
        · exact .inl h
      · exact .inr (List.mem_cons_of_mem _ h)

/-- A die taken into service is not a bad one. -/
theorem assignDie_self (s : State) (k : Nat) (good : (getCapstan (assignDie s k) k).failed = false) :
    (getCapstan (assignDie s k) k).die ∉ s.store.badDice := by
  unfold assignDie at good ⊢
  split at good
  next known =>
    rw [if_pos known, getCapstan_setCapstan_self]
    simpa using known
  next known =>
    rw [if_neg known]
    split at good
    next d l spares =>
      rw [getCapstan_setCapstan_self]
      have spare : d ∈ spareDice s := spares ▸ List.mem_cons_self
      simp only [spareDice, List.mem_filter, Bool.and_eq_true, Bool.not_eq_true', List.contains_eq_mem, decide_eq_false_iff_not] at spare
      exact spare.2.1
    next none =>
      rw [getCapstan_setCapstan_self] at good
      cases good

theorem assignDie_store (s : State) (k : Nat) : (assignDie s k).store = s.store := assignDie_frame s k .store (by decide)

theorem getCapstan_assignDie_ne {j k : Nat} (h : j ≠ k) (s : State) : getCapstan (assignDie s k) j = getCapstan s j := by
  unfold assignDie
  split
  · exact getCapstan_setCapstan_ne h ..
  · split <;> exact (getCapstan_setCapstan_ne h ..)

theorem assignDice_good (l : List Nat) (s : State) :
    (l.foldl assignDie s).store = s.store ∧ (∀ j ∉ l, getCapstan (l.foldl assignDie s) j = getCapstan s j) := by
  induction l generalizing s with
  | nil => exact ⟨rfl, fun _ _ => rfl⟩
  | cons x l ih =>
    obtain ⟨store, others⟩ := ih (assignDie s x)
    refine ⟨store.trans (assignDie_store s x), fun j h => ?_⟩
    rw [List.foldl_cons, others j (fun inside => h (List.mem_cons_of_mem _ inside)),
      getCapstan_assignDie_ne (by rintro rfl; exact h List.mem_cons_self)]

theorem foldl_assignDie_self {k : Nat} : ∀ (l : List Nat) (_ : l.Nodup) (_ : k ∈ l) (s : State),
    (getCapstan (l.foldl assignDie s) k).failed = false → (getCapstan (l.foldl assignDie s) k).die ∉ s.store.badDice := by
  intro l
  induction l with
  | nil => exact fun _ h => absurd h List.not_mem_nil
  | cons x l ih =>
    intro nodup inside s good
    obtain ⟨new, nodup⟩ := List.nodup_cons.1 nodup
    rw [List.foldl_cons] at good ⊢
    rcases List.mem_cons.1 inside with rfl | inside
    · obtain ⟨-, others⟩ := assignDice_good l (assignDie s k)
      rw [others k new] at good ⊢
      exact assignDie_self s k good
    · rw [← assignDie_store s x]
      exact ih nodup inside _ good

/-- What taking a die into service changes besides the capstan and the flags. -/
theorem assignDie_rest (s : State) (k : Nat) : let t := assignDie s k
    t.store = s.store ∧ t.bu.images = s.bu.images ∧ t.cap.ledger = s.cap.ledger ∧ t.cap.groups = s.cap.groups := by
  unfold assignDie
  split
  · exact ⟨rfl, rfl, rfl, rfl⟩
  · split <;> exact ⟨rfl, rfl, rfl, rfl⟩

theorem foldl_assignDie_rest (l : List Nat) (s : State) : let t := l.foldl assignDie s
    t.store = s.store ∧ t.bu.images = s.bu.images ∧ t.cap.ledger = s.cap.ledger ∧ t.cap.groups = s.cap.groups := by
  induction l generalizing s with
  | nil => exact ⟨rfl, rfl, rfl, rfl⟩
  | cons x l ih =>
    obtain ⟨store, images, ledger, groups⟩ := ih (assignDie s x)
    obtain ⟨store', images', ledger', groups'⟩ := assignDie_rest s x
    exact ⟨store.trans store', images.trans images', ledger.trans ledger', groups.trans groups'⟩

/-- The state from which the capstans take their dice. -/
def beforeDice (failed : List Nat) (s : State) : State :=
  let s := addDice failed s
  { s with store := { s.store with rimRepairs := hardenRim [] s.store.rimRepairs }, cap := { s.cap with ledger := [], groups := [], capstans := [] } }

theorem dicesTaken (u : State) : let t := if groupDead u then stageFatal 3 u else stageOk u
    t.bu.result.isSome = true ∧ t.bu.images = u.bu.images ∧ t.cap = u.cap ∧ t.store = u.store := by
  dsimp only
  split <;> exact ⟨rfl, rfl, rfl, rfl⟩

theorem addDice_bu (failed : List Nat) (s : State) : (addDice failed s).bu = s.bu := by
  induction failed generalizing s with
  | nil => rfl
  | cons d l ih =>
    refine (ih _).trans ?_
    exact apply_ite State.bu _ _ _ |>.trans (ite_self _)

/-- The capstans with their dice. -/
def diceTaken (failed : List Nat) (s : State) : State := (List.range 32).foldl assignDie (beforeDice failed s)

theorem diceTaken_rest (failed : List Nat) (s : State) :
    (diceTaken failed s).store = (beforeDice failed s).store ∧ (diceTaken failed s).bu.images = (beforeDice failed s).bu.images ∧
      (diceTaken failed s).cap.ledger = [] ∧ (diceTaken failed s).cap.groups = [] := by
  obtain ⟨store, images, ledger, groups⟩ := foldl_assignDie_rest (List.range 32) (beforeDice failed s)
  rw [diceTaken]
  exact ⟨store, images, ledger, groups⟩

theorem capstanWork_eq (failed : List Nat) (s : State) : capstanWork failed s =
    if groupDead (diceTaken failed s) then stageFatal 3 (diceTaken failed s) else stageOk (diceTaken failed s) := rfl

/-- The capstans' stage: the dice that failed are bad, the ledger starts empty, and no capstan in service has a bad die. -/
theorem capstanWork_done (failed : List Nat) (s : State) : let t := capstanWork failed s
    t.bu.result.isSome = true ∧ t.bu.images = s.bu.images ∧ t.cap.ledger = [] ∧ t.cap.groups = [] ∧ (∀ d ∈ failed, d ∈ t.store.badDice) ∧
      ∀ k < 32, (getCapstan t k).failed = false → (getCapstan t k).die ∉ t.store.badDice := by
  obtain ⟨store, images, ledger, groups⟩ := diceTaken_rest failed s
  have seated (k : Nat) (low : k < 32) : (getCapstan (diceTaken failed s) k).failed = false →
      (getCapstan (diceTaken failed s) k).die ∉ (beforeDice failed s).store.badDice :=
    foldl_assignDie_self (List.range 32) List.nodup_range (List.mem_range.2 low) (beforeDice failed s)
  have bad (d : Nat) (inside : d ∈ failed) : d ∈ (beforeDice failed s).store.badDice := mem_addDice failed s (.inl inside)
  have first : (beforeDice failed s).bu.images = s.bu.images := congrArg BringUp.images (addDice_bu failed s)
  obtain ⟨result, imagesT, capT, storeT⟩ := dicesTaken (diceTaken failed s)
  rw [← capstanWork_eq] at result imagesT capT storeT
  generalize capstanWork failed s = t at *
  generalize diceTaken failed s = u at *
  have capstan (k : Nat) : getCapstan t k = getCapstan u k := by rw [getCapstan, capT, getCapstan]
  refine ⟨result, imagesT.trans (images.trans first), (congrArg Cap.ledger capT).trans ledger, (congrArg Cap.groups capT).trans groups, ?_, ?_⟩
  · intro d inside
    rw [storeT, store]
    exact bad d inside
  · intro k low
    rw [storeT, store, capstan]
    exact seated k low

theorem imageStagesCheckImages : Claim.ImageStagesCheckImages := by
  refine ⟨fun s open_ => ?_, fun failed s open_ => ?_, fun s open_ => ?_, fun s open_ => ?_⟩
  · rcases fault : imageFault s 1 with _ | c
    · refine ⟨_, imageStage_of_good open_ _ fault, ?_, rfl, lookup_images_of_same rfl⟩
      exact (loadImage_frame 1 s).step (stageOk_frame _) (by decide)
    · exact ⟨_, imageStage_of_fault open_ _ fault, stageResult_frame _ _ _ _, rfl⟩
  · rcases fault : imageFault s 2 with _ | c
    · refine ⟨_, imageStage_of_good open_ _ fault, ?_, ?_⟩
      · exact (loadImage_frame 2 s).mono (by decide) |>.step (capstanWork_frame _ _) (by decide)
      · obtain ⟨result, images, ledger, groups, bad, good⟩ := capstanWork_done failed (loadImage 2 s)
        exact ⟨result, lookup_images_of_same images, ledger, groups, bad, good⟩
    · exact ⟨_, imageStage_of_fault open_ _ fault, (stageResult_frame _ _ _ _).mono (by decide), rfl, stageResult_frame _ _ _ _⟩
  · rcases fault : imageFault s 3 with _ | c
    · refine ⟨_, imageStage_of_good open_ _ fault, ?_, rfl, rfl, ?_, lookup_images_of_same rfl⟩
      · exact (loadImage_frame 3 s).step (setBu_frame _ _) (by decide)
      · exact (working_iff s 7).1 open_ |>.2.2.1
    · exact ⟨_, imageStage_of_fault open_ _ fault, stageResult_frame _ _ _ _, rfl⟩
  · have runs : exec .stageLinks s = imageStage 9 4 (fun s => stageOk (setBu { s.bu with linkOpen := true } s)) s := rfl
    rcases fault : imageFault s 4 with _ | c
    · refine ⟨_, runs.trans (imageStage_of_good open_ _ fault), ?_, rfl, rfl, lookup_images_of_same rfl⟩
      exact (loadImage_frame 4 s).step (setBu_frame _ _) (by decide) |>.step (stageOk_frame _) (by decide)
    · exact ⟨_, runs.trans (imageStage_of_fault open_ _ fault), stageResult_frame _ _ _ _, rfl⟩

/-- Settles O48, by the cases of the opening stage, of the window's writes and of the image's checks. -/
theorem bringUpStages : Obligations.BringUpStages := ⟨stagesOpenInOrder, imageStagesCheckImages⟩

end Sys2Proof.Machine
end

section
/-! SUPPORT. The spare map and its records (R481, R491), and the stages of bring-up from the inventory on (R491 to R500). -/

namespace Sys2Proof.Machine

/-! ### The store but for its ledger -/

/-- The store but for the fault ledger. -/
def Store.butLedger (x : Store) : Store := { x with ledger := [], seq := 0 }

theorem sendMsi_butLedger (port : Nat) (v : Byte) (s : State) : (sendMsi port v s).store.butLedger = s.store.butLedger := by
  unfold sendMsi
  extract_lets p
  split
  · rfl
  split
  · rfl
  split
  · rfl
  split
  · rfl
  · rw [logEvent_store]
    rfl

theorem postFull_butLedger (code origin : Nat) (unit play step : W32) (d : List Byte) (s : State) :
    (postFull code origin unit play step d s).store.butLedger = s.store.butLedger := by
  have log := congrArg Store.butLedger (logEvent_store code origin unit play step d s)
  unfold postFull
  dsimp only
  split
  · exact (sendMsi_butLedger ..).trans log
  · exact log

theorem record_butLedger (cls action result origin : Nat) (unit logical play step : W32) (d : List Byte) (s : State) :
    (record cls action result origin unit logical play step d s).store.butLedger = s.store.butLedger := by
  rw [record]
  cases classEvent cls with
  | none => rfl
  | some e => exact postFull_butLedger ..

/-! ### The spare map grows -/

/-- No bad unit is forgotten, and the host interface changes in its log alone. -/
structure MapGrows (s t : State) : Prop where
  host : HostSame s t
  badTiles : s.store.badTiles ⊆ t.store.badTiles
  badPlls : s.store.badPlls ⊆ t.store.badPlls
  badDice : s.store.badDice ⊆ t.store.badDice
  badPhases : s.store.badPhases ⊆ t.store.badPhases
  badStacks : s.store.badStacks ⊆ t.store.badStacks
  badChannels : s.store.badChannels ⊆ t.store.badChannels

theorem MapGrows.refl (s : State) : MapGrows s s :=
  ⟨rfl, List.Subset.refl _, List.Subset.refl _, List.Subset.refl _, List.Subset.refl _, List.Subset.refl _, List.Subset.refl _⟩

theorem MapGrows.trans {s t u : State} (h : MapGrows s t) (k : MapGrows t u) : MapGrows s u :=
  ⟨h.host.trans k.host, List.Subset.trans h.badTiles k.badTiles, List.Subset.trans h.badPlls k.badPlls, List.Subset.trans h.badDice k.badDice,
    List.Subset.trans h.badPhases k.badPhases, List.Subset.trans h.badStacks k.badStacks, List.Subset.trans h.badChannels k.badChannels⟩

theorem MapGrows.of_butLedger {s t : State} (host : HostSame s t) (store : t.store.butLedger = s.store.butLedger) : MapGrows s t :=
  ⟨host, (congrArg Store.badTiles store :).symm ▸ List.Subset.refl s.store.badTiles, (congrArg Store.badPlls store :).symm ▸ List.Subset.refl s.store.badPlls,
    (congrArg Store.badDice store :).symm ▸ List.Subset.refl s.store.badDice, (congrArg Store.badPhases store :).symm ▸ List.Subset.refl s.store.badPhases,
    (congrArg Store.badStacks store :).symm ▸ List.Subset.refl s.store.badStacks,
    (congrArg Store.badChannels store :).symm ▸ List.Subset.refl s.store.badChannels⟩

theorem MapGrows.of_frame {l : List Part} {s t : State} (h : OnlyChanges l s t) (host : Part.host ∉ l := by decide) (store : Part.store ∉ l := by decide) :
    MapGrows s t := .of_butLedger (HostSame.of_host (h .host host)) (congrArg Store.butLedger (h .store store))

/-- Each step of a fold leaves its own mark, and no step removes a mark. -/
theorem foldl_marks {α : Type} {f : State → α → State} (step : ∀ s x, MapGrows s (f s x)) {P : α → State → Prop}
    (keeps : ∀ x s t, MapGrows s t → P x s → P x t) (marks : ∀ s x, P x (f s x)) :
    ∀ (l : List α) (s : State), MapGrows s (l.foldl f s) ∧ ∀ x ∈ l, P x (l.foldl f s) := by
  intro l
  induction l with
  | nil => exact fun s => ⟨.refl s, fun _ h => absurd h List.not_mem_nil⟩
  | cons x l ih =>
    intro s
    obtain ⟨grows, marked⟩ := ih (f s x)
    refine ⟨(step s x).trans grows, fun y h => ?_⟩
    rcases List.mem_cons.1 h with rfl | h
    · exact keeps y _ _ grows (marks s y)
    · exact marked y h

theorem MapGrows.foldl {α : Type} {f : State → α → State} (step : ∀ s x, MapGrows s (f s x)) (l : List α) (s : State) :
    MapGrows s (l.foldl f s) := (foldl_marks step (P := fun _ _ => True) (fun _ _ _ _ _ => trivial) (fun _ _ => trivial) l s).1

theorem mapGrows_postFull (code origin : Nat) (unit play step : W32) (d : List Byte) (s : State) :
    MapGrows s (postFull code origin unit play step d s) := .of_butLedger (postFull_same ..) (postFull_butLedger ..)

theorem mapGrows_record (cls action result origin : Nat) (unit logical play step : W32) (d : List Byte) (s : State) :
    MapGrows s (record cls action result origin unit logical play step d s) := .of_butLedger (record_same ..) (record_butLedger ..)

/-! ### Stage 3 (R491, R492) -/

theorem addBad_map (kind u : Nat) (l : List Nat) (s : State) :
    (addBad kind u l s).2.store.butLedger = s.store.butLedger ∧ (addBad kind u l s).2.host = s.host ∧
      l ⊆ (addBad kind u l s).1 ∧ u ∈ (addBad kind u l s).1 := by
  unfold addBad
  split
  next known => exact ⟨rfl, rfl, List.Subset.refl _, by simpa using known⟩
  next => exact ⟨rfl, rfl, List.subset_cons_self .., List.mem_cons_self⟩

/-- The units that BIST found, list by list. -/
def takeTile (s : State) (u : Nat) : State :=
  { (addBad 0 u s.store.badTiles s).2 with store := { (addBad 0 u s.store.badTiles s).2.store with badTiles := (addBad 0 u s.store.badTiles s).1 } }
def takePll (s : State) (u : Nat) : State :=
  { (addBad 7 u s.store.badPlls s).2 with store := { (addBad 7 u s.store.badPlls s).2.store with badPlls := (addBad 7 u s.store.badPlls s).1 } }
def takeDie (s : State) (u : Nat) : State :=
  { (addBad 3 u s.store.badDice s).2 with store := { (addBad 3 u s.store.badDice s).2.store with badDice := (addBad 3 u s.store.badDice s).1 } }
def takePhase (s : State) (u : Nat) : State :=
  if s.store.badPhases.contains u then s else addBadPhase u (record 12 10 0 3 (unitOf 6 u) 0xFFFFFFFF 0 0 [] s)

theorem takeBist_eq (v : Inventory) (s : State) : takeBist v s =
    (v.phases.filter fun u => decide (u < 256) && decide (u % 32 < 28)).foldl takePhase
      (v.dice.foldl takeDie (v.plls.foldl takePll ((v.tiles.filter physOk).foldl takeTile s))) := rfl

theorem takeTile_grows (s : State) (u : Nat) : MapGrows s (takeTile s u) := by
  obtain ⟨store, host, kept, -⟩ := addBad_map 0 u s.store.badTiles s
  have same := MapGrows.of_butLedger (.of_host host) store
  exact { same with host := .of_host host, badTiles := kept }

theorem takePll_grows (s : State) (u : Nat) : MapGrows s (takePll s u) := by
  obtain ⟨store, host, kept, -⟩ := addBad_map 7 u s.store.badPlls s
  have same := MapGrows.of_butLedger (.of_host host) store
  exact { same with host := .of_host host, badPlls := kept }

theorem takeDie_grows (s : State) (u : Nat) : MapGrows s (takeDie s u) := by
  obtain ⟨store, host, kept, -⟩ := addBad_map 3 u s.store.badDice s
  have same := MapGrows.of_butLedger (.of_host host) store
  exact { same with host := .of_host host, badDice := kept }

theorem addBadPhase_grows (u : Nat) (s : State) : MapGrows s (addBadPhase u s) ∧ u ∈ (addBadPhase u s).store.badPhases := by
  unfold addBadPhase
  split
  next known => exact ⟨.refl s, by simpa using known⟩
  next => exact ⟨{ MapGrows.refl s with host := rfl, badPhases := List.subset_cons_self .. }, List.mem_cons_self⟩

theorem takePhase_grows (s : State) (u : Nat) : MapGrows s (takePhase s u) ∧ u ∈ (takePhase s u).store.badPhases := by
  unfold takePhase
  split
  next known => exact ⟨.refl s, by simpa using known⟩
  next =>
    obtain ⟨grows, inside⟩ := addBadPhase_grows u (record 12 10 0 3 (unitOf 6 u) 0xFFFFFFFF 0 0 [] s)
    exact ⟨(mapGrows_record ..).trans grows, inside⟩

/-- What BIST found is in the store. -/
theorem takeBist_takes (v : Inventory) (s : State) : MapGrows s (takeBist v s) ∧ (∀ u ∈ v.tiles, physOk u = true → u ∈ (takeBist v s).store.badTiles) ∧
    (∀ u ∈ v.plls, u ∈ (takeBist v s).store.badPlls) ∧ (∀ u ∈ v.dice, u ∈ (takeBist v s).store.badDice) ∧
    ∀ u ∈ v.phases, u < 256 → u % 32 < 28 → u ∈ (takeBist v s).store.badPhases := by
  rw [takeBist_eq]
  obtain ⟨first, tiles⟩ := foldl_marks takeTile_grows (P := fun u t => u ∈ t.store.badTiles) (fun _ _ _ g h => g.badTiles h)
    (fun s u => (addBad_map 0 u s.store.badTiles s).2.2.2) (v.tiles.filter physOk) s
  generalize (v.tiles.filter physOk).foldl takeTile s = s₁ at *
  obtain ⟨second, plls⟩ := foldl_marks takePll_grows (P := fun u t => u ∈ t.store.badPlls) (fun _ _ _ g h => g.badPlls h)
    (fun s u => (addBad_map 7 u s.store.badPlls s).2.2.2) v.plls s₁
  generalize v.plls.foldl takePll s₁ = s₂ at *
  obtain ⟨third, dice⟩ := foldl_marks takeDie_grows (P := fun u t => u ∈ t.store.badDice) (fun _ _ _ g h => g.badDice h)
    (fun s u => (addBad_map 3 u s.store.badDice s).2.2.2) v.dice s₂
  generalize v.dice.foldl takeDie s₂ = s₃ at *
  obtain ⟨fourth, phases⟩ := foldl_marks (fun s u => (takePhase_grows s u).1) (P := fun u t => u ∈ t.store.badPhases)
    (fun _ _ _ g h => g.badPhases h) (fun s u => (takePhase_grows s u).2) (v.phases.filter fun u => decide (u < 256) && decide (u % 32 < 28)) s₃
  refine ⟨((first.trans second).trans third).trans fourth, fun u h ok => ?_, fun u h => ?_, fun u h => fourth.badDice (dice u h), fun u h low ok => ?_⟩
  · exact fourth.badTiles (third.badTiles (second.badTiles (tiles u (List.mem_filter.2 ⟨h, ok⟩))))
  · exact fourth.badPlls (third.badPlls (plls u h))
  · exact phases u (List.mem_filter.2 ⟨h, by simp [low, ok]⟩)


/-- The faulty phases of field f. -/
def fieldPhases (s : State) (f : Nat) : List Nat := (s.store.badPhases.filter fun u => u / 32 == f).map (· % 32)

/-- The field with its faulty phases shed. -/
def shedPhases (s : State) (f : Nat) : State :=
  if (fieldPhases s f).isEmpty && (getField s f).phasesShed.isEmpty then s else setField f { getField s f with phasesShed := fieldPhases s f } s

/-- A third faulty phase is a second fault. -/
def railShort (s : State) : State := setBu { s.bu with lane := true } { s with rel := { s.rel with secondFault := true } }

theorem assignPhases_eq (s : State) (f : Nat) : assignPhases s f =
    if (fieldPhases s f).length < 3 then shedPhases s f
    else if 3 ≤ (getField s f).phasesShed.length then railShort (shedPhases s f)
    else postFull Ev.railDegraded 3 (unitOf 6 (f * 32 + (fieldPhases s f).headD 0)) 0 0 [] (railShort (shedPhases s f)) := rfl

theorem shedPhases_self (s : State) (f : Nat) : (getField (shedPhases s f) f).phasesShed = fieldPhases s f := by
  unfold shedPhases
  split
  next none =>
    obtain ⟨left, right⟩ := Bool.and_eq_true_iff.1 none
    rw [List.isEmpty_iff.1 left, List.isEmpty_iff.1 right]
  next => rw [show getField (setField f _ s) f = _ from lookupD_upsert_self ..]

theorem shedPhases_ne {f g : Nat} (h : g ≠ f) (s : State) : getField (shedPhases s f) g = getField s g := by
  unfold shedPhases
  split
  · rfl
  · exact lookupD_upsert_ne h ..

theorem shedPhases_rest (s : State) (f : Nat) : (shedPhases s f).host = s.host ∧ (shedPhases s f).store = s.store := by
  unfold shedPhases
  split <;> exact ⟨rfl, rfl⟩

theorem assignPhases_rest (s : State) (f : Nat) : (assignPhases s f).fields = (shedPhases s f).fields ∧ HostSame s (assignPhases s f) ∧
    (assignPhases s f).store.butLedger = s.store.butLedger := by
  obtain ⟨host, store⟩ := shedPhases_rest s f
  rw [assignPhases_eq]
  split
  · exact ⟨rfl, .of_host host, congrArg Store.butLedger store⟩
  split
  · exact ⟨rfl, .of_host host, congrArg Store.butLedger store⟩
  · have hostU : HostSame s (railShort (shedPhases s f)) := .of_host host
    exact ⟨postFull_fields .., hostU.trans (postFull_same ..), (postFull_butLedger ..).trans (congrArg Store.butLedger store :)⟩

theorem assignPhases_badPhases (s : State) (f : Nat) : (assignPhases s f).store.badPhases = s.store.badPhases :=
  (congrArg Store.badPhases (assignPhases_rest s f).2.2 :)

theorem foldl_assignPhases_rest (l : List Nat) (s : State) :
    (l.foldl assignPhases s).store.butLedger = s.store.butLedger ∧ HostSame s (l.foldl assignPhases s) ∧
      ∀ g ∉ l, getField (l.foldl assignPhases s) g = getField s g := by
  induction l generalizing s with
  | nil => exact ⟨rfl, rfl, fun _ _ => rfl⟩
  | cons f l ih =>
    obtain ⟨fields, host, store⟩ := assignPhases_rest s f
    obtain ⟨store', host', others⟩ := ih (assignPhases s f)
    refine ⟨store'.trans store, host.trans host', fun g h => ?_⟩
    obtain ⟨other, outside⟩ := not_or.1 (fun inside => h (List.mem_cons.2 inside))
    exact (others g outside).trans ((getField_of_fields fields g).trans (shedPhases_ne other s))

/-- Every field sheds the phases that the spare map names. -/
theorem foldl_assignPhases_sheds {u : Nat} : ∀ (l : List Nat) (_ : l.Nodup) (s : State), u ∈ s.store.badPhases → u / 32 ∈ l →
    u % 32 ∈ (getField (l.foldl assignPhases s) (u / 32)).phasesShed := by
  intro l
  induction l with
  | nil => exact fun _ _ _ h => absurd h List.not_mem_nil
  | cons f l ih =>
    intro nodup s bad inside
    obtain ⟨new, nodup⟩ := List.nodup_cons.1 nodup
    rw [List.foldl_cons]
    by_cases here : u / 32 = f
    · obtain ⟨fields, -, -⟩ := assignPhases_rest s f
      obtain ⟨-, -, others⟩ := foldl_assignPhases_rest l (assignPhases s f)
      rw [here, others f new, getField_of_fields fields, shedPhases_self, fieldPhases]
      exact List.mem_map_of_mem (List.mem_filter.2 ⟨bad, by simp [here]⟩)
    · exact ih nodup _ (assignPhases_badPhases s f ▸ bad) ((List.mem_cons.1 inside).resolve_left here)

/-- The units in service after the inventory. -/
def inventoried (v : Inventory) (s : State) : State :=
  (List.range 8).foldl assignPhases (assignDice ((List.range 9).foldl assignPll (assignTiles (takeBist v s))))

theorem exec_stageInventory_of_intact {v : Inventory} {s : State} (open_ : working s 3 = true) (intact : v.storeIntact = true) :
    exec (.stageInventory v) s = .next (if groupDead (inventoried v s) then stageFatal 3 (inventoried v s)
      else if meshDead (inventoried v s) then stageFatal 4 (inventoried v s) else stageOk (inventoried v s)) := by
  change execStageInventory v s = _
  rw [execStageInventory, if_neg (by simp [open_]), if_neg (by simp [intact])]
  change (if groupDead (inventoried v s) then Host.Outcome.next (stageFatal 3 (inventoried v s))
    else if meshDead (inventoried v s) then .next (stageFatal 4 (inventoried v s)) else .next (stageOk (inventoried v s))) = _
  split
  · rfl
  · split <;> rfl

theorem inventoried_grows (v : Inventory) (s : State) : MapGrows (takeBist v s) (inventoried v s) := by
  have tiles := MapGrows.of_frame (assignTiles_frame (takeBist v s))
  have plls := MapGrows.foldl (fun s d => MapGrows.of_frame (assignPll_frame s d)) (List.range 9) (assignTiles (takeBist v s))
  have dice := MapGrows.of_frame (assignDice_frame ((List.range 9).foldl assignPll (assignTiles (takeBist v s))))
  obtain ⟨store, host, -⟩ := foldl_assignPhases_rest (List.range 8) (assignDice ((List.range 9).foldl assignPll (assignTiles (takeBist v s))))
  exact ((tiles.trans plls).trans dice).trans (.of_butLedger host store)

theorem inventoried_sheds {v : Inventory} {s : State} {u : Nat} (bad : u ∈ (takeBist v s).store.badPhases) (low : u < 256) :
    u % 32 ∈ (getField (inventoried v s) (u / 32)).phasesShed := by
  have tiles := MapGrows.of_frame (assignTiles_frame (takeBist v s))
  have plls := MapGrows.foldl (fun s d => MapGrows.of_frame (assignPll_frame s d)) (List.range 9) (assignTiles (takeBist v s))
  have dice := MapGrows.of_frame (assignDice_frame ((List.range 9).foldl assignPll (assignTiles (takeBist v s))))
  exact foldl_assignPhases_sheds _ List.nodup_range _ (((tiles.trans plls).trans dice).badPhases bad) (List.mem_range.2 (by omega))

/-- The outcome of the inventory, in a state whose capstans and store it does not change. -/
theorem inventoryEnd (u : State) :
    let t := if groupDead u then stageFatal 3 u else if meshDead u then stageFatal 4 u else stageOk u
    t.bu.result = some (if groupDead u then { state := .fatal, code := Status.bringupFatal, cause := 3 }
      else if meshDead u then { state := .fatal, code := Status.bringupFatal, cause := 4 } else { state := .done, code := 0, cause := 0 }) ∧
    t.store = u.store ∧ t.host = u.host ∧ t.cap = u.cap ∧ t.fields = u.fields := by
  dsimp only
  split
  · exact ⟨rfl, rfl, rfl, rfl, rfl⟩
  · split <;> exact ⟨rfl, rfl, rfl, rfl, rfl⟩

theorem groupDead_of_cap {t u : State} (h : t.cap = u.cap) : groupDead t = groupDead u := by
  simp only [groupDead, getCapstan, h]
  rfl

theorem inventory_done {v : Inventory} {s : State} (open_ : working s 3 = true) (intact : v.storeIntact = true) :
    ∃ t x, exec (.stageInventory v) s = .next t ∧ t.bu.result = some x ∧ (∀ u ∈ v.tiles, physOk u = true → u ∈ t.store.badTiles) ∧
      (∀ u ∈ v.plls, u ∈ t.store.badPlls) ∧ (∀ u ∈ v.dice, u ∈ t.store.badDice) ∧
      (∀ u ∈ v.phases, u < 256 → u % 32 < 28 → u ∈ t.store.badPhases ∧ u % 32 ∈ (getField t (u / 32)).phasesShed) ∧
      x = (if groupDead t then { state := .fatal, code := Status.bringupFatal, cause := 3 }
        else if meshDead t then { state := .fatal, code := Status.bringupFatal, cause := 4 } else { state := .done, code := 0, cause := 0 }) ∧
      HostSame s t ∧ OnlyChanges [.bu, .cap, .fields, .host, .freeCtr, .store, .rel, .xing] s t := by
  have runs := exec_stageInventory_of_intact open_ intact
  have frame : outAll (OnlyChanges [.cap, .bu, .fields, .host, .xing, .freeCtr, .store, .rel] s) (exec (.stageInventory v) s) :=
    execStageInventory_frame v s
  obtain ⟨taken, tiles, plls, dice, phases⟩ := takeBist_takes v s
  have grows := inventoried_grows v s
  have sheds (u : Nat) (h : u ∈ v.phases) (low : u < 256) (ok : u % 32 < 28) := inventoried_sheds (phases u h low ok) low
  obtain ⟨result, store, host, cap, fields⟩ := inventoryEnd (inventoried v s)
  rw [runs] at frame
  generalize inventoried v s = u at *
  generalize (if groupDead u then stageFatal 3 u else if meshDead u then stageFatal 4 u else stageOk u) = t at *
  have mesh : meshDead t = meshDead u := by rw [meshDead, store, meshDead]
  refine ⟨t, _, runs, result, fun x h ok => ?_, fun x h => ?_, fun x h => ?_, fun x h low ok => ⟨?_, ?_⟩, ?_, ?_, frame.mono (by decide)⟩
  · exact store ▸ grows.badTiles (tiles x h ok)
  · exact store ▸ grows.badPlls (plls x h)
  · exact store ▸ grows.badDice (dice x h)
  · exact store ▸ grows.badPhases (phases x h low ok)
  · exact getField_of_fields fields _ ▸ sheds x h low ok
  · rw [groupDead_of_cap cap, mesh]
  · exact (taken.trans grows).host.trans (.of_host host)

/-! ### Stage 4 (R493) -/

theorem lookup_zip (c : Nat) : ∀ (need spare : List Nat), need.length ≤ spare.length →
    (c ∈ need → ∃ p ∈ spare, lookup c (need.zip spare) = some p) ∧ (c ∉ need → lookup c (need.zip spare) = none) := by
  intro need
  induction need with
  | nil => exact fun _ _ => ⟨fun h => absurd h List.not_mem_nil, fun _ => rfl⟩
  | cons x need ih =>
    intro spare room
    match spare with
    | p :: spare =>
      obtain ⟨found, missing⟩ := ih spare (by simpa using room)
      rw [List.zip_cons_cons, lookup]
      by_cases here : c = x
      · subst here
        exact ⟨fun _ => ⟨p, List.mem_cons_self, if_pos rfl⟩, fun h => absurd List.mem_cons_self h⟩
      · rw [if_neg here]
        refine ⟨fun h => ?_, fun h => missing (fun inside => h (List.mem_cons_of_mem _ inside))⟩
        obtain ⟨q, isSpare, at_⟩ := found ((List.mem_cons.1 h).resolve_left here)
        exact ⟨q, List.mem_cons_of_mem _ isSpare, at_⟩

/-- A channel map leads to no bad channel. -/
theorem channelMap_good {bad : List Nat} {m : Table Nat} (h : channelMap bad = some m) (c : Nat) (low : c < 32) : lookupD c c m ∉ bad := by
  unfold channelMap at h
  extract_lets need spare at h
  split at h
  next room =>
    cases h
    obtain ⟨found, missing⟩ := lookup_zip c need spare room
    by_cases inside : c ∈ bad
    · obtain ⟨p, isSpare, at_⟩ := found (List.mem_filter.2 ⟨List.mem_range.2 low, by simpa using inside⟩)
      rw [lookupD, at_]
      simpa using (List.mem_filter.1 isSpare).2
    · rw [lookupD, missing (fun h => inside (by simpa using (List.mem_filter.1 h).2))]
      exact inside
  next => cases h

/-- A physical stack that can serve is not bad, nor is a channel that its map names. -/
theorem usable_good {s : State} {phys : Nat} {m : Table Nat} (h : usable s phys = some m) :
    phys ∉ s.store.badStacks ∧ ∀ c < 32, (phys, lookupD c c m) ∉ s.store.badChannels := by
  unfold usable at h
  split at h
  · cases h
  next good =>
    refine ⟨by simpa using good, fun c low inside => channelMap_good h c low ?_⟩
    exact List.mem_map.2 ⟨_, List.mem_filter.2 ⟨inside, by simp⟩, rfl⟩

/-- Stack n is in service on good hardware. -/
def Seated (s : State) (n : Nat) : Prop :=
  physStack s n ∉ s.store.badStacks ∧ ∀ c < 32, (physStack s n, physChan (getStack s n) c) ∉ s.store.badChannels

theorem Seated.of_same {s t : State} {n : Nat} (h : Seated s n) (store : t.store = s.store) (stack : getStack t n = getStack s n) : Seated t n := by
  rw [Seated, physStack, store, stack]
  exact h

@[simp] theorem getStack_setStack_self (n : Nat) (x : Stack) (s : State) : getStack (setStack n x s) n = x := lookupD_upsert_self ..

theorem getStack_setStack_ne {j n : Nat} (h : j ≠ n) (x : Stack) (s : State) : getStack (setStack n x s) j = getStack s j := lookupD_upsert_ne h ..

/-- How a stage ends that found no spare for a stack. -/
def stackFatal : StageEnd := { state := .fatal, code := Status.bringupFatal, cause := 2 }

/-- A stack finds its place, or the stage ends FATAL with cause 2. -/
theorem placeStack_cases (s : State) (n : Nat) :
    (Seated (placeStack s n) n ∧ (placeStack s n).bu.result = s.bu.result) ∨ (placeStack s n).bu.result = some stackFatal := by
  unfold placeStack
  split
  next m own =>
    obtain ⟨stack, chans⟩ := usable_good own
    refine .inl ⟨?_, rfl⟩
    rw [Seated, physStack, getStack_setStack_self]
    exact ⟨stack, chans⟩
  next none =>
    split
    next m spare first =>
      obtain ⟨stack, chans⟩ := usable_good spare
      refine .inl ⟨?_, rfl⟩
      rw [Seated, physStack, getStack_setStack_self]
      exact ⟨stack, chans⟩
    next => exact .inr rfl

theorem getStack_placeStack_ne {j n : Nat} (h : j ≠ n) (s : State) : getStack (placeStack s n) j = getStack s j := by
  unfold placeStack
  split
  · exact getStack_setStack_ne h ..
  · split
    · exact getStack_setStack_ne h ..
    · rfl

theorem foldl_placeStack_rest (l : List Nat) (s : State) : (l.foldl placeStack s).store = s.store ∧
    ((l.foldl placeStack s).bu.result = s.bu.result ∨ (l.foldl placeStack s).bu.result = some stackFatal) ∧
    ∀ j ∉ l, getStack (l.foldl placeStack s) j = getStack s j := by
  induction l generalizing s with
  | nil => exact ⟨rfl, .inl rfl, fun _ _ => rfl⟩
  | cons n l ih =>
    obtain ⟨store, result, others⟩ := ih (placeStack s n)
    refine ⟨store.trans (placeStack_frame s n .store (by decide)), ?_, fun j h => ?_⟩
    · rcases result with same | fatal
      · rcases placeStack_cases s n with ⟨-, kept⟩ | fatal
        · exact .inl (same.trans kept)
        · exact .inr (same.trans fatal)
      · exact .inr fatal
    · obtain ⟨other, outside⟩ := not_or.1 (fun inside => h (List.mem_cons.2 inside))
      exact (others j outside).trans (getStack_placeStack_ne other s)

/-- Where no stack was left without hardware, every one is in service on good hardware. -/
theorem foldl_placeStack_seats {n : Nat} : ∀ (l : List Nat) (_ : l.Nodup) (s : State), n ∈ l → (l.foldl placeStack s).bu.result ≠ some stackFatal →
    Seated (l.foldl placeStack s) n := by
  intro l
  induction l with
  | nil => exact fun _ _ h => absurd h List.not_mem_nil
  | cons k l ih =>
    intro nodup s inside served
    obtain ⟨new, nodup⟩ := List.nodup_cons.1 nodup
    obtain ⟨store, result, others⟩ := foldl_placeStack_rest l (placeStack s k)
    rcases List.mem_cons.1 inside with rfl | inside
    · rcases placeStack_cases s n with ⟨seated, -⟩ | fatal
      · exact seated.of_same store (others n new)
      · exact absurd (result.elim (fun same => same.trans fatal) id) served
    · exact ih nodup _ inside served

theorem OnlyChanges.foldl {α : Type} {l : List Part} {f : State → α → State} (step : ∀ s x, OnlyChanges l s (f s x)) (xs : List α) (s : State) :
    OnlyChanges l s (xs.foldl f s) :=
  OnlyChanges.fold (OnlyChanges.refl l s) fun u x h => h.step (step u x) fun _ inside => inside

theorem addBadChannel_grows (s : State) (x : Nat × Nat) : MapGrows s (addBadChannel x s) ∧ x ∈ (addBadChannel x s).store.badChannels := by
  unfold addBadChannel
  split
  next known => exact ⟨.refl s, by simpa using known⟩
  next =>
    have grows : MapGrows s { s with store := { s.store with badChannels := x :: s.store.badChannels } } :=
      { MapGrows.refl s with host := rfl, badChannels := List.subset_cons_self .. }
    have more := mapGrows_record 7 6 0 3 (chanUnitOf x.1 x.2) 0xFFFFFFFF 0 0 [] { s with store := { s.store with badChannels := x :: s.store.badChannels } }
    exact ⟨grows.trans more, more.badChannels List.mem_cons_self⟩

theorem addBadStack_grows (s : State) (u : Nat) : MapGrows s (addBadStack u s) ∧ u ∈ (addBadStack u s).store.badStacks := by
  unfold addBadStack
  split
  next known => exact ⟨.refl s, by simpa using known⟩
  next =>
    have grows : MapGrows s { s with store := { s.store with badStacks := u :: s.store.badStacks } } :=
      { MapGrows.refl s with host := rfl, badStacks := List.subset_cons_self .. }
    have more := mapGrows_record 8 6 0 3 (unitOf 1 u) 0xFFFFFFFF 0 0 [] { s with store := { s.store with badStacks := u :: s.store.badStacks } }
    exact ⟨grows.trans more, more.badStacks List.mem_cons_self⟩

/-- The stacks' training and self-check, entered in the store, with the repairs that become hard. -/
def checkedStacks (failed : List (Nat × Nat)) (bad : List Nat) (s : State) : State :=
  let s := bad.foldl (fun s u => addBadStack u s) (failed.foldl (fun s x => addBadChannel x s) s)
  { s with store := { s.store with repairs := harden [] s.store.repairs } }

theorem checkedStacks_takes (failed : List (Nat × Nat)) (bad : List Nat) (s : State) : MapGrows s (checkedStacks failed bad s) ∧
    (∀ u ∈ bad, u ∈ (checkedStacks failed bad s).store.badStacks) ∧ ∀ c ∈ failed, c ∈ (checkedStacks failed bad s).store.badChannels := by
  obtain ⟨first, channels⟩ := foldl_marks (fun s x => (addBadChannel_grows s x).1) (P := fun x t => x ∈ t.store.badChannels)
    (fun _ _ _ g h => g.badChannels h) (fun s x => (addBadChannel_grows s x).2) failed s
  obtain ⟨second, marked⟩ := foldl_marks (fun s u => (addBadStack_grows s u).1) (P := fun u t => u ∈ t.store.badStacks)
    (fun _ _ _ g h => g.badStacks h) (fun s u => (addBadStack_grows s u).2) bad (failed.foldl (fun s x => addBadChannel x s) s)
  unfold checkedStacks
  extract_lets u
  have grows : MapGrows s u := first.trans second
  exact ⟨{ grows with host := grows.host }, marked, fun c h => second.badChannels (channels c h)⟩

theorem checkedStacks_bu (failed : List (Nat × Nat)) (bad : List Nat) (s : State) : (checkedStacks failed bad s).bu = s.bu := by
  have channels : (failed.foldl (fun s x => addBadChannel x s) s).bu = s.bu :=
    OnlyChanges.foldl (fun u x => addBadChannel_frame x u) failed s .bu (by decide)
  have marked : (bad.foldl (fun s u => addBadStack u s) (failed.foldl (fun s x => addBadChannel x s) s)).bu = _ :=
    OnlyChanges.foldl (fun u x => addBadStack_frame x u) bad _ .bu (by decide)
  exact marked.trans channels

theorem exec_stageStacks_of_working {s : State} (open_ : working s 4 = true) (failed : List (Nat × Nat)) (bad : List Nat) :
    exec (.stageStacks failed bad) s =
      .next (if ((List.range 1024).foldl placeStack (checkedStacks failed bad s)).bu.result.isSome then
        (List.range 1024).foldl placeStack (checkedStacks failed bad s)
        else stageOk ((List.range 1024).foldl placeStack (checkedStacks failed bad s))) := by
  change execStageStacks failed bad s = _
  unfold execStageStacks
  rw [if_neg (by simp [open_])]
  extract_lets marked store entered placed
  rw [show (List.range 1024).foldl placeStack (checkedStacks failed bad s) = placed from rfl]
  clear_value placed
  split <;> rfl

/-- How a stage ends that found nothing against it. -/
def endDone : StageEnd := { state := .done, code := 0, cause := 0 }

/-- The outcome of a stage that ends FATAL inside its work, or DONE. -/
theorem endOf_stacks {u : State} (h : u.bu.result = none ∨ u.bu.result = some stackFatal) :
    let t := if u.bu.result.isSome then u else stageOk u
    (∃ x, t.bu.result = some x ∧ (x.state = .done ∨ x.state = .fatal ∧ x.cause = 2) ∧ (x.state = .done → u.bu.result ≠ some stackFatal)) ∧
      t.store = u.store ∧ t.near = u.near ∧ t.host = u.host := by
  dsimp only
  rcases h with h | h
  · rw [if_neg (by simp [h])]
    exact ⟨⟨endDone, rfl, .inl rfl, fun _ => by simp [h]⟩, rfl, rfl, rfl⟩
  · rw [if_pos (by simp [h])]
    exact ⟨⟨stackFatal, h, .inr ⟨rfl, rfl⟩, fun done => by cases done⟩, rfl, rfl, rfl⟩

theorem stacks_done {s : State} (open_ : working s 4 = true) (failed : List (Nat × Nat)) (bad : List Nat) :
    ∃ t x, exec (.stageStacks failed bad) s = .next t ∧ t.bu.result = some x ∧ (x.state = .done ∨ x.state = .fatal ∧ x.cause = 2) ∧
      (∀ u ∈ bad, u ∈ t.store.badStacks) ∧ (∀ c ∈ failed, c ∈ t.store.badChannels) ∧
      (x.state = .done → ∀ n < 1024, physStack t n ∉ t.store.badStacks ∧ ∀ c < 32, (physStack t n, physChan (getStack t n) c) ∉ t.store.badChannels) ∧
      HostSame s t ∧ OnlyChanges [.bu, .store, .near, .host, .xing] s t := by
  obtain ⟨-, -, fresh, -⟩ := (working_iff s 4).1 open_
  have runs := exec_stageStacks_of_working open_ failed bad
  have frame : outAll (OnlyChanges [.bu, .host, .xing, .store, .near] s) (exec (.stageStacks failed bad) s) := execStageStacks_frame failed bad s
  obtain ⟨grows, stacks_, channels⟩ := checkedStacks_takes failed bad s
  have before : (checkedStacks failed bad s).bu.result = none := (congrArg BringUp.result (checkedStacks_bu failed bad s)).trans fresh
  generalize checkedStacks failed bad s = v at *
  obtain ⟨storeU, result, -⟩ := foldl_placeStack_rest (List.range 1024) v
  have hostU : ((List.range 1024).foldl placeStack v).host = v.host := OnlyChanges.foldl placeStack_frame (List.range 1024) v .host (by decide)
  have seats (n : Nat) (low : n < 1024) : ((List.range 1024).foldl placeStack v).bu.result ≠ some stackFatal → Seated ((List.range 1024).foldl placeStack v) n :=
    foldl_placeStack_seats (List.range 1024) List.nodup_range v (List.mem_range.2 low)
  generalize (List.range 1024).foldl placeStack v = u at *
  obtain ⟨⟨x, ends, outcome, served⟩, store, near, host⟩ := endOf_stacks (before ▸ result)
  rw [runs] at frame
  generalize (if u.bu.result.isSome then u else stageOk u) = t at *
  refine ⟨t, x, runs, ends, outcome, fun y h => ?_, fun c h => ?_, fun done n low => ?_, ?_, frame.mono (by decide)⟩
  · rw [store, storeU]
    exact stacks_ y h
  · rw [store, storeU]
    exact channels c h
  · exact (seats n low (served done)).of_same store (by rw [getStack, near, getStack])
  · exact grows.host.trans (.of_host (host.trans hostU))

/-! ### Stage 5 (R494) -/

theorem fillFails_result (s : State) (x : Nat × Nat) :
    (fillFails s x).bu.result = s.bu.result ∨ (fillFails s x).bu.result = some stackFatal := by
  have same : (addBadChannel (physStack s x.1, physChan (getStack s x.1) x.2) s).bu = s.bu := addBadChannel_frame _ s .bu (by decide)
  rcases placeStack_cases (addBadChannel (physStack s x.1, physChan (getStack s x.1) x.2) s) x.1 with ⟨-, kept⟩ | fatal
  · exact .inl (kept.trans (congrArg BringUp.result same))
  · exact .inr fatal

theorem foldl_fillFails_result (l : List (Nat × Nat)) (s : State) :
    (l.foldl fillFails s).bu.result = s.bu.result ∨ (l.foldl fillFails s).bu.result = some stackFatal := by
  induction l generalizing s with
  | nil => exact .inl rfl
  | cons x l ih =>
    rcases ih (fillFails s x) with same | fatal
    · exact (fillFails_result s x).imp same.trans same.trans
    · exact .inr fatal

/-- The memory filled, its rows repaired and its channels replaced. -/
def filled (rows : List (Nat × Nat × Nat × Nat)) (failed : List (Nat × Nat)) (s : State) : State :=
  failed.foldl fillFails (rows.foldl (fun s (n, c, b, r) => repairRow { stack := n, chan := c, bank := b, row := r } true s) (zeroAll s))

theorem exec_stageFill_of_working {s : State} (open_ : working s 5 = true) (rows : List (Nat × Nat × Nat × Nat)) (failed : List (Nat × Nat)) :
    exec (.stageFill rows failed) s = .next (if (filled rows failed s).bu.result.isSome then filled rows failed s else stageOk (filled rows failed s)) := by
  change execStageFill rows failed s = _
  unfold execStageFill
  rw [if_neg (by simp [open_])]
  extract_lets repaired placed
  rw [show filled rows failed s = placed from rfl]
  clear_value placed
  split <;> rfl

/-- The repairs of the fill touch neither knots nor caches nor the commit. -/
theorem filled_frame (rows : List (Nat × Nat × Nat × Nat)) (failed : List (Nat × Nat)) (s : State) :
    OnlyChanges [.bu, .host, .xing, .freeCtr, .store, .rel, .mem, .near] (zeroAll s) (filled rows failed s) := by
  refine OnlyChanges.step ?_ (OnlyChanges.foldl fillFails_frame failed _) (by decide)
  exact OnlyChanges.foldl (fun u x => (repairRow_frame _ _ u).mono (by decide)) rows (zeroAll s)

theorem filled_result {s : State} (open_ : working s 5 = true) (rows : List (Nat × Nat × Nat × Nat)) (failed : List (Nat × Nat)) :
    (filled rows failed s).bu.result = none ∨ (filled rows failed s).bu.result = some stackFatal := by
  obtain ⟨-, -, fresh, -⟩ := (working_iff s 5).1 open_
  have repaired : (rows.foldl (fun s (n, c, b, r) => repairRow { stack := n, chan := c, bank := b, row := r } true s) (zeroAll s)).bu = s.bu :=
    OnlyChanges.foldl (fun u x => repairRow_frame _ _ u) rows (zeroAll s) .bu (by decide)
  rcases foldl_fillFails_result failed _ with same | fatal
  · exact .inl (same.trans ((congrArg BringUp.result repaired).trans fresh))
  · exact .inr fatal

theorem endOf_stacks_frame (u : State) : OnlyChanges [.bu] u (if u.bu.result.isSome then u else stageOk u) := by
  split
  · exact OnlyChanges.refl _ _
  · exact stageOk_frame u

theorem fill_done {s : State} (open_ : working s 5 = true) (rows : List (Nat × Nat × Nat × Nat)) (failed : List (Nat × Nat)) :
    ∃ t x, exec (.stageFill rows failed) s = .next t ∧ t.bu.result = some x ∧ (x.state = .done ∨ x.state = .fatal ∧ x.cause = 2) ∧
      t.knots = [] ∧ t.cap.committed = 0 ∧ t.cap.cur = false ∧ t.caches = [] := by
  obtain ⟨⟨x, ends, outcome, -⟩, -⟩ := endOf_stacks (filled_result open_ rows failed)
  have frame := (filled_frame rows failed s).step (endOf_stacks_frame _) (by decide)
  have cap := frame .cap (by decide)
  exact ⟨_, x, exec_stageFill_of_working open_ rows failed, ends, outcome, frame .knots (by decide), (congrArg Cap.committed cap :),
    (congrArg Cap.cur cap :), frame .caches (by decide)⟩

theorem inventoryStacksAndFill : Claim.InventoryStacksAndFill := by
  refine ⟨fun v s open_ => ⟨fun broken => ?_, inventory_done open_⟩, fun failed bad s open_ => stacks_done open_ failed bad, fun s open_ => ?_,
    fun rows failed s open_ => fill_done open_ rows failed⟩
  · change execStageInventory v s = _
    rw [execStageInventory, if_neg (by simp [open_]), if_pos (by simp [broken])]
    rfl
  · obtain ⟨-, -, fresh, -⟩ := (working_iff s 5).1 open_
    have runs := exec_stageFill_of_working open_ [] []
    have plain : filled [] [] s = zeroAll s := rfl
    rw [plain, if_neg (by simp [show (zeroAll s).bu.result = none from fresh])] at runs
    refine ⟨_, runs, rfl, rfl, rfl, rfl, rfl, rfl, rfl, ?_⟩
    exact ((zeroAll_frame s).mono (by decide)).step (stageOk_frame _) (by decide)

end Sys2Proof.Machine
end

section
/-! SUPPORT. The broadcast, and the ends of the stages of bring-up (R486, R496 to R500). -/

namespace Sys2Proof.Machine

/-! ### Stage 7: the broadcast (R496, R497) -/

/-- The tiles that a round reaches. -/
def roundTiles (s : State) : List Nat := if s.bu.round = 1 then goodTiles s else s.bu.lacks.map (·.1)

/-- The tiles that lack chunks after the round, with the chunks. -/
def roundLeft (lacking : List (Nat × List Nat)) (silent mismatch : List Nat) (s : State) : List (Nat × List Nat) :=
  ((roundTiles s).map fun u => (u, tileLacks s.bu lacking silent mismatch u)).filter fun x => !x.2.isEmpty

/-- The state in which the next round is planned. -/
def roundPlanned (lacking : List (Nat × List Nat)) (silent mismatch : List Nat) (s : State) : State :=
  setBu (planRound (if s.bu.round < 4 then roundLeft lacking silent mismatch s else [])
    { s.bu with lacks := roundLeft lacking silent mismatch s, round := s.bu.round + 1 }) s

section
variable {s : State} (open_ : working s 7 = true) (begun : s.bu.round ≠ 0) (lacking : List (Nat × List Nat)) (silent mismatch : List Nat)
include open_ begun

theorem exec_broadcastRound_of_working : exec (.broadcastRound lacking silent mismatch) s =
    if (roundLeft lacking silent mismatch s).isEmpty then .next (stageOk (roundPlanned lacking silent mismatch s))
    else if s.bu.round < 4 then .next (roundPlanned lacking silent mismatch s)
    else .next (stageOk (failTiles ((roundLeft lacking silent mismatch s).map (·.1)) (roundPlanned lacking silent mismatch s))) := by
  change execBroadcastRound lacking silent mismatch s = _
  unfold execBroadcastRound
  extract_lets b
  rw [if_neg (show ¬(!working s 7 || b.round = 0) = true by simp [open_, b, begun])]
  rfl

theorem exec_broadcastRound_of_none (loaded : roundLeft lacking silent mismatch s = []) :
    exec (.broadcastRound lacking silent mismatch) s = .next (stageOk (roundPlanned lacking silent mismatch s)) := by
  rw [exec_broadcastRound_of_working open_ begun, if_pos (by simp [loaded])]

theorem exec_broadcastRound_of_early (early : s.bu.round < 4) (lacks : roundLeft lacking silent mismatch s ≠ []) :
    exec (.broadcastRound lacking silent mismatch) s = .next (roundPlanned lacking silent mismatch s) := by
  rw [exec_broadcastRound_of_working open_ begun, if_neg (by simpa using lacks), if_pos early]

end

theorem roundPlanned_frame (lacking : List (Nat × List Nat)) (silent mismatch : List Nat) (s : State) :
    OnlyChanges [.bu] s (roundPlanned lacking silent mismatch s) := setBu_frame _ _

/-- A round in which no tile reports anything missing leaves none. -/
theorem roundLeft_nil (s : State) : roundLeft [] [] [] s = [] := by
  refine List.filter_eq_nil_iff.2 fun x h => ?_
  obtain ⟨u, -, rfl⟩ := List.mem_map.1 h
  exact Bool.false_ne_true

/-- A round in which one tile is silent leaves that tile, with every chunk. -/
theorem mem_roundLeft_silent {u : Nat} {s : State} (chunks : 0 < s.bu.chunks) (x : Nat × List Nat) :
    x ∈ roundLeft [] [u] [] s ↔ u ∈ roundTiles s ∧ x = (u, List.range s.bu.chunks) := by
  have lacks (v : Nat) : tileLacks s.bu [] [u] [] v = if v = u then List.range s.bu.chunks else [] := by
    unfold tileLacks
    by_cases h : v = u <;> simp [h]
  simp only [roundLeft, List.mem_filter, List.mem_map, lacks]
  constructor
  · rintro ⟨⟨v, inside, rfl⟩, some⟩
    split at some
    next h => exact ⟨h ▸ inside, by simp [h]⟩
    next h => simp at some
  · rintro ⟨inside, rfl⟩
    exact ⟨⟨u, inside, by simp⟩, by simp; omega⟩

/-- What the next round sends: by multicast what 16 tiles or more lack, by unicast the rest. -/
theorem mem_multicast (left : Table (List Nat)) (b : BringUp) (c : Nat) :
    c ∈ (planRound left b).multicast ↔ c < b.chunks ∧ 16 ≤ (left.filter fun x => x.2.contains c).length := by
  simp [planRound]

theorem mem_unicast (left : Table (List Nat)) (b : BringUp) (x : Nat × List Nat) (h : x ∈ (planRound left b).unicast) :
    ∃ y ∈ left, y.1 = x.1 ∧ ∀ c, c ∈ x.2 ↔ c ∈ y.2 ∧ c ∉ (planRound left b).multicast := by
  obtain ⟨y, inside, rfl⟩ := List.mem_map.1 (List.mem_of_mem_filter h)
  refine ⟨y, inside, rfl, fun c => ?_⟩
  rw [List.mem_filter, Bool.not_eq_true', ← Bool.not_eq_true, List.contains_iff_mem]
  exact Iff.rfl

/-- A tile that four rounds have not loaded is bad. -/
theorem failTile_grows (s : State) (u : Nat) : MapGrows s (failTile s u) ∧ u ∈ (failTile s u).store.badTiles := by
  have entered : MapGrows s (addBadTile u s) ∧ u ∈ (addBadTile u s).store.badTiles := by
    unfold addBadTile
    split
    next known => exact ⟨.refl s, by simpa using known⟩
    next => exact ⟨{ MapGrows.refl s with host := rfl, badTiles := List.subset_cons_self .. }, List.mem_cons_self⟩
  have recorded := mapGrows_record 1 6 0 3 (unitOf 0 u) 0xFFFFFFFF 0 0 [] (addBadTile u s)
  exact ⟨entered.1.trans recorded, recorded.badTiles entered.2⟩

theorem failTiles_bad {l : List Nat} {u : Nat} (h : u ∈ l) (s : State) : u ∈ (failTiles l s).store.badTiles := by
  obtain ⟨-, bad⟩ := foldl_marks (fun s u => (failTile_grows s u).1) (P := fun u t => u ∈ t.store.badTiles)
    (fun _ _ _ g h => g.badTiles h) (fun s u => (failTile_grows s u).2) l s
  have rows := MapGrows.foldl (fun s (x : Nat × Nat) => MapGrows.of_frame (assignRow_frame x.1 x.2 s))
    (allRows.filter fun x => l.any fun u => u / 512 == x.1 && u % 512 / 32 == x.2) (l.foldl failTile s)
  exact rows.badTiles (bad u h)

theorem broadcastEnds :
    (∀ s : State, working s 7 = true → s.bu.round ≠ 0 →
      ∃ t, exec (.broadcastRound [] [] []) s = .next t ∧ t.bu.lacks = [] ∧ t.bu.round = s.bu.round + 1 ∧
        t.bu.result = some { state := .done, code := 0, cause := 0 } ∧ OnlyChanges [.bu] s t) ∧
    (∀ (u : Nat) (s : State), working s 7 = true → s.bu.round = 1 → u ∈ goodTiles s → 0 < s.bu.chunks →
      ∃ t, exec (.broadcastRound [] [u] []) s = .next t ∧ t.bu.round = 2 ∧ t.bu.result = none ∧
        (u, List.range s.bu.chunks) ∈ t.bu.lacks ∧ (∀ x ∈ t.bu.lacks, x = (u, List.range s.bu.chunks)) ∧ OnlyChanges [.bu] s t) ∧
    (∀ (lacking : List (Nat × List Nat)) (silent mismatch : List Nat) (s : State), working s 7 = true → 0 < s.bu.round → s.bu.round < 4 →
      ∃ t, exec (.broadcastRound lacking silent mismatch) s = .next t ∧ t.bu.round = s.bu.round + 1 ∧
        (∀ c, c ∈ t.bu.multicast ↔ c < s.bu.chunks ∧ 16 ≤ (t.bu.lacks.filter fun x => x.2.contains c).length) ∧
        (∀ x ∈ t.bu.unicast, ∃ y ∈ t.bu.lacks, y.1 = x.1 ∧ ∀ c, c ∈ x.2 ↔ c ∈ y.2 ∧ c ∉ t.bu.multicast) ∧ OnlyChanges [.bu] s t) ∧
    ∀ (u : Nat) (l : List Nat) (s : State), working s 7 = true → s.bu.round = 4 → 0 < s.bu.chunks → (u, l) ∈ s.bu.lacks →
      ∃ t, exec (.broadcastRound [] [u] []) s = .next t ∧ u ∈ t.store.badTiles ∧ t.bu.result = some { state := .done, code := 0, cause := 0 } := by
  refine ⟨fun s open_ begun => ?_, fun u s open_ first good chunks => ?_, fun lacking silent mismatch s open_ begun early => ?_,
    fun u l s open_ last chunks inside => ?_⟩
  · refine ⟨_, exec_broadcastRound_of_none open_ begun [] [] [] (roundLeft_nil s), roundLeft_nil s, rfl, rfl, ?_⟩
    exact (roundPlanned_frame [] [] [] s).step (stageOk_frame _) (by decide)
  · have reached : u ∈ roundTiles s := by
      rw [roundTiles, if_pos first]
      exact good
    have left := (mem_roundLeft_silent chunks (u, List.range s.bu.chunks)).2 ⟨reached, rfl⟩
    obtain ⟨-, -, fresh, -⟩ := (working_iff s 7).1 open_
    exact ⟨_, exec_broadcastRound_of_early open_ (by omega) [] [u] [] (by omega) (List.ne_nil_of_mem left), congrArg (· + 1) first, fresh, left,
      fun x h => ((mem_roundLeft_silent chunks x).1 h).2, roundPlanned_frame [] [u] [] s⟩
  · have multicast (c : Nat) : c ∈ (roundPlanned lacking silent mismatch s).bu.multicast ↔
        c < s.bu.chunks ∧ 16 ≤ ((roundLeft lacking silent mismatch s).filter fun x => x.2.contains c).length := by
      have := mem_multicast (roundLeft lacking silent mismatch s) { s.bu with lacks := roundLeft lacking silent mismatch s, round := s.bu.round + 1 } c
      rw [roundPlanned, if_pos early]
      exact this
    have unicast : ∀ x ∈ (roundPlanned lacking silent mismatch s).bu.unicast, ∃ y ∈ roundLeft lacking silent mismatch s, y.1 = x.1 ∧
        ∀ c, c ∈ x.2 ↔ c ∈ y.2 ∧ c ∉ (roundPlanned lacking silent mismatch s).bu.multicast := by
      rw [roundPlanned, if_pos early]
      exact mem_unicast _ _
    by_cases none : roundLeft lacking silent mismatch s = []
    · exact ⟨_, exec_broadcastRound_of_none open_ (by omega) lacking silent mismatch none, rfl, multicast, unicast,
        (roundPlanned_frame lacking silent mismatch s).step (stageOk_frame _) (by decide)⟩
    · exact ⟨_, exec_broadcastRound_of_early open_ (by omega) lacking silent mismatch early none, rfl, multicast, unicast,
        roundPlanned_frame _ _ _ _⟩
  · have reached : u ∈ roundTiles s := by
      rw [roundTiles, if_neg (by omega)]
      exact List.mem_map.2 ⟨_, inside, rfl⟩
    have left := (mem_roundLeft_silent chunks (u, List.range s.bu.chunks)).2 ⟨reached, rfl⟩
    refine ⟨stageOk (failTiles ((roundLeft [] [u] [] s).map (·.1)) (roundPlanned [] [u] [] s)), ?_,
      failTiles_bad (List.mem_map.2 ⟨_, left, rfl⟩) _, rfl⟩
    rw [exec_broadcastRound_of_working open_ (by omega), if_neg (by simpa using List.ne_nil_of_mem left), if_neg (by omega)]

/-! ### The ends of the stages (R486, R487, R499) -/

theorem cadenceStageEnds (s : State) (open_ : working s 8 = true) :
    (s.cad.state = .locked ∨ s.cad.state = .internal → exec .stageCadence s = .next (stageOk s)) ∧
    (s.cad.state ≠ .locked → s.cad.state ≠ .internal → exec .stageCadence s = .next s) ∧
    (s.cad.src = 0 → s.cad.state ≠ .locked → exec .cadenceStageTimeout s = .next (stageResult .failed Status.noCadence 0 s)) ∧
    (s.cad.src ≠ 0 ∨ s.cad.state = .locked → exec .cadenceStageTimeout s = .next s) := by
  have cadence : exec .stageCadence s = execStageCadence s := rfl
  have timeout : exec .cadenceStageTimeout s = execCadenceStageTimeout s := rfl
  rw [cadence, timeout, execStageCadence, execCadenceStageTimeout]
  refine ⟨fun runs => if_pos ?_, fun l i => if_neg ?_, fun src l => if_pos ?_, fun other => if_neg ?_⟩
  · rcases runs with h | h <;> simp [open_, h]
  · simp [l, i]
  · simp [open_, src, l]
  · rcases other with h | h
    · rw [beq_false_of_ne h]
      simp
    · simp [h]

section
variable {s : State} (running : s.bu.state = .running) (active : s.rel.ccFailed = false) (ms : Nat) (north south : Bool)
include running active

theorem exec_stageComplete_of_reset (stage : s.bu.stage = 0) : exec (.stageComplete ms north south) s = .next (endReset ms north south s) := by
  change execStageComplete ms north south s = _
  rw [execStageComplete, if_neg (by simp [running, active]), stage]
  rfl

theorem exec_stageComplete_of_pcie (stage : s.bu.stage = 1) : exec (.stageComplete ms north south) s =
    .next (if s.host.ports.any fun x => !x.2.perst then endStage .done 0 0 ms (trainPorts s) else s) := by
  change execStageComplete ms north south s = _
  rw [execStageComplete, if_neg (by simp [running, active]), stage]
  rfl

theorem exec_stageComplete_of_later {r : StageEnd} (result : s.bu.result = some r) (later : 3 ≤ s.bu.stage) (other : s.bu.stage ≠ 9) :
    exec (.stageComplete ms north south) s = .next (endStage r.state r.code r.cause ms s) := by
  change execStageComplete ms north south s = _
  rw [execStageComplete, if_neg (by simp [running, active]), result]
  split
  · omega
  · omega
  · omega
  · omega
  next e _ _ _ _ => rw [Option.some.inj e]
  next e _ _ => cases e

theorem exec_stageComplete_of_links {r : StageEnd} (result : s.bu.result = some r) (stage : s.bu.stage = 9) (done : r.state = .done) :
    exec (.stageComplete ms north south) s = if (List.range 24).all (portSettled s) then .next (endStage .done 0 0 ms (linkDegrade s)) else .next s := by
  change execStageComplete ms north south s = _
  rw [execStageComplete, if_neg (by simp [running, active]), result, stage]
  exact if_pos (by simp [done])

end

theorem startPcie_state_ne {s : State} (h : s.bu.state ≠ .failed) : (startPcie s).bu.state ≠ .failed := by
  rw [startPcie]
  extract_lets up
  split
  · exact fun fails => by cases fails
  · exact h

theorem follow_standby (u : State) : (followCad u).rel.southActive = u.rel.southActive ∧ (followCad u).rel.standby = u.rel.standby := by
  unfold followCad
  split <;> exact ⟨rfl, rfl⟩

/-- Stage 0 ends as its self-tests do: a copy that passed is active, the north one where both did, and the other stands by. -/
theorem endReset_done (ms : Nat) (north south : Bool) (s : State) : let t := endReset ms north south s
    (north = false → south = false → t.bu.state = .failed) ∧
      (north = true ∨ south = true → t.rel.southActive = !north ∧ t.rel.standby = (north && south) ∧ t.bu.state ≠ .failed) := by
  have rel (u : State) : (startPcie u).rel = u.rel := startPcie_frame u .rel (by decide)
  intro t
  cases north with
  | true =>
    let u := { s with rel := { s.rel with southActive := false, standby := south } }
    have ends : t = startPcie (endStage .done 0 0 ms (followCad (setBu { s.bu with standby := !south } u))) := rfl
    obtain ⟨active, standby⟩ : t.rel.southActive = false ∧ t.rel.standby = south := by
      rw [ends, rel]
      exact follow_standby _
    exact ⟨fun h => (by cases h), fun _ => ⟨active, standby, ends ▸ startPcie_state_ne fun h => by cases h⟩⟩
  | false =>
    cases south with
    | true =>
      let u := { s with rel := { s.rel with southActive := true, standby := false } }
      have ends : t = startPcie (endStage .done 0 0 ms (setBu { s.bu with standby := true } u)) := rfl
      obtain ⟨active, standby⟩ : t.rel.southActive = true ∧ t.rel.standby = false := by
        rw [ends, rel]
        exact ⟨rfl, rfl⟩
      exact ⟨fun _ h => (by cases h), fun _ => ⟨active, standby, ends ▸ startPcie_state_ne fun h => by cases h⟩⟩
    | false => exact ⟨fun _ _ => rfl, fun h => by simp at h⟩

/-- Released ports serve configuration. -/
theorem trained_trainPorts {s : State} {n : Nat} (released : (getPcie s n).perst = false) (listed : (lookup n s.host.ports).isSome = true) :
    (getPcie (trainPorts s) n).trained = true := by
  obtain ⟨p, at_⟩ := Option.isSome_iff_exists.1 listed
  rw [getPcie, lookupD, at_] at released
  rw [getPcie, lookupD, trainPorts, lookup_mapVals, at_]
  simp_all

theorem laterStagesEnd : Claim.LaterStagesEnd := by
  obtain ⟨none, silent, planned, last⟩ := broadcastEnds
  refine ⟨none, silent, planned, last, cadenceStageEnds, fun s open_ => ?_, fun ms north south r s running active result later other => ?_,
    fun ms north south s running active stage => ?_, fun ms north south s running active stage => ⟨fun held => ?_, fun some_ => ?_⟩,
    fun ms north south r s running active stage result done => ⟨fun some_ => ?_, fun all => ?_⟩⟩
  · change execStageReady s = _
    rw [execStageReady, if_pos open_]
    rfl
  · rw [exec_stageComplete_of_later running active ms north south result later other, endStage]
    simp only [beq_iff_eq, Status.ok]
    rfl
  · obtain ⟨fails, passes⟩ := endReset_done ms north south s
    exact ⟨_, exec_stageComplete_of_reset running active ms north south stage, fails, passes, endReset_frame ms north south s⟩
  · rw [exec_stageComplete_of_pcie running active ms north south stage, if_neg]
    simpa using held
  · obtain ⟨x, inside, released⟩ := some_
    rw [exec_stageComplete_of_pcie running active ms north south stage, if_pos (List.any_eq_true.2 ⟨x, inside, by simp [released]⟩)]
    refine ⟨_, rfl, rfl, fun n free listed => trained_trainPorts free listed, ?_⟩
    exact ((trainPorts_frame s).mono (by decide)).step (endStage_frame _ _ _ _ _) (by decide)
  · obtain ⟨n, low, waits⟩ := some_
    rw [exec_stageComplete_of_links running active ms north south result stage done, if_neg]
    intro all
    exact absurd (List.all_eq_true.1 all n (List.mem_range.2 low)) (by simp [waits])
  · rw [exec_stageComplete_of_links running active ms north south result stage done,
      if_pos (List.all_eq_true.2 fun n h => all n (List.mem_range.1 h))]
    refine ⟨_, rfl, rfl, fun h => ?_, (linkDegrade_frame s).step (endStage_frame _ _ _ _ _) (by decide)⟩
    obtain ⟨n, low, expected, state⟩ := h
    change (s.bu.port || ((List.range 24).filter fun n => (planOf s n).expected).any fun n => (getPort s n).state != .active) = true
    rw [Bool.or_eq_true]
    exact .inr (List.any_eq_true.2 ⟨n, List.mem_filter.2 ⟨List.mem_range.2 low, expected⟩, by simpa using state⟩)

/-- Settles O49, stage by stage: what each leaves in the spare map and in the units' places, and how it ends. -/
theorem bringUpInventoryToReady : Obligations.BringUpInventoryToReady := ⟨inventoryStacksAndFill, laterStagesEnd⟩

end Sys2Proof.Machine
end

section
/-! SUPPORT. An entry of the region table whose rows run past the end of the channels, and what it refutes (R273, R289). -/

namespace Sys2Proof.Machine

/-! ### Rows past the end of a channel

Statements about granules speak of every state, also of those whose region table holds an entry that R273 would not have accepted. One entry here starts at the
last row of every channel, so that its second lap wraps onto row 0, where the entry maps no granule. -/

/-- An entry whose second lap wraps onto the first row of the channels. -/
def wrappedRegion : Region := { valid := true, chbase := 0x7FFFF, len := 1 }

/-- The address that the wrap puts at the first byte of channel 0 of stack 0. -/
def wrappedAddr : Nat := 4097 * 512

/-- A state with that entry, one byte that is not zero at the first byte of channel 0 of stack 0, and a migration of that channel. -/
def wrapped : State := { regions := [(0, wrappedRegion)], mem := [(0, 5)], near := { units := [(0, { migrating := some 0 })] } }

theorem granuleOf_wrapped : granuleOf wrapped (rowAt 0 0 0) = none := by decide +kernel

/-- What the restoration of row 0 leaves of the byte that was wrapped onto it. -/
theorem wrapped_loses : readByte wrapped wrappedAddr = 5 ∧ readByte (restoreGranule (rowAt 0 0 0) wrapped) wrappedAddr = 0 := by decide +kernel

/-- A state whose memory lost the byte has not restored the row as R289 says. -/
theorem not_restored_of_wrapped {t : State} (lost : readByte t wrappedAddr = 0) : ¬Restored (rowAt 0 0 0) wrapped t := by
  intro restored
  have keeps : KeepsBytes [] wrapped t := restored.2 granuleOf_wrapped
  have same := keeps wrappedAddr (fun _ h => absurd h List.not_mem_nil)
  rw [lost, wrapped_loses.1] at same
  exact absurd same (by decide)

/-- Refutes O39: where an entry of the region table wraps onto a row that it maps no granule to, the copier's restoration of that row clears a byte that still reads. -/
theorem not_nearStacksRepairAndMigrate : ¬Obligations.NearStacksRepairAndMigrate := by
  rintro ⟨repairs, -⟩
  obtain ⟨copied, -⟩ := repairs 0 0 0 0 false true wrapped (by decide)
  obtain ⟨t, runs, restored, -⟩ := (copied rfl).2 rfl (by decide +kernel)
  have done : exec (.rowRepair 0 0 0 0 false true) wrapped = .next (restoreGranule (rowAt 0 0 0) wrapped) := by
    change execRowRepair 0 0 0 0 false true wrapped = _
    rw [execRowRepair, if_pos rfl, if_pos (by decide +kernel)]
    rfl
  rw [← Host.Outcome.next.inj (done.symm.trans runs)] at restored
  exact not_restored_of_wrapped wrapped_loses.2 restored

/-- The scrub of row 0 of that channel, which cannot be read. -/
def wrappedScrub : State :=
  endLap (scrubFinds 0 0 0 .bad (setStack 0 { getStack wrapped 0 with scrubAt := [(0, 1)] } wrapped))

theorem wrappedScrub_loses : readByte wrappedScrub wrappedAddr = 0 := by decide +kernel

/-- Refutes O40: a scrub that finds row 0 unreadable restores it, and clears a byte that an entry of the region table wraps onto it. -/
theorem not_nearStacksCalibrateScrubThrottle : ¬Obligations.NearStacksCalibrateScrubThrottle := by
  rintro ⟨-, -, laps, -⟩
  obtain ⟨-, reads⟩ := laps 0 0 .bad wrapped (by decide) (by decide)
  obtain ⟨-, -, -, bad⟩ := reads (by decide) (by decide)
  have early : ¬∀ m < 1024, ∀ d < 32, lookupD 0 d (getStack wrapped m).scrubAt = if m = 0 ∧ d = 0 then 524287 else 524288 :=
    fun last => absurd (last 0 (by decide) 0 (by decide)) (by decide)
  obtain ⟨t, runs, -, -, -, restored, -⟩ := bad early (.inl rfl) (by decide) (by decide) (by decide)
  have done : exec (.scrub 0 0 .bad) wrapped = .next wrappedScrub := rfl
  rw [← Host.Outcome.next.inj (done.symm.trans runs)] at restored
  exact not_restored_of_wrapped wrappedScrub_loses (restored rfl).1

end Sys2Proof.Machine
end

section
/-! SUPPORT. Contributions at their capstans (R313 to R315), and the packets' arrival (R44 to R46). -/

namespace Sys2Proof.Machine

/-! ### Arrival -/

theorem meshArrive_of_take {x : MeshItem} {y : Source × MeshItem} {s s₀ : State} (takes : meshTake x s = some (y, s₀)) (t : Transit) :
    meshArrive x t s = crossArrive y t s₀ := by
  rw [meshArrive, takes]

theorem meshArrive_of_none {x : MeshItem} {s : State} (absent : meshTake x s = none) (t : Transit) : meshArrive x t s = .none := by
  rw [meshArrive, absent]

/-- What the mesh gives up is a packet; the rest of the state stays. -/
theorem meshTake_rest {x : MeshItem} {y : Source × MeshItem} {s s₀ : State} (takes : meshTake x s = some (y, s₀)) : ∃ m, s₀ = { s with mesh := m } := by
  obtain ⟨m, -, e⟩ := Option.map_eq_some_iff.1 takes
  cases e
  exact ⟨_, rfl⟩

section
variable {y : Source × MeshItem} {s : State}

theorem crossArrive_of_closed (closed : itemClosed s y.2 = true) (t : Transit) : crossArrive y t s = .lost (losePacket 15 y s) := by
  rw [crossArrive, if_pos closed]

theorem crossArrive_of_ok (opened : itemClosed s y.2 = false) : crossArrive y .ok s = .got y.2 s := by
  rw [crossArrive, if_neg (by simp [opened])]

theorem crossArrive_of_overrun (opened : itemClosed s y.2 = false) (a b : Nat) : crossArrive y (.overrun a b) s =
    .lost (losePacket 16 y (xingRecordFor (senderOf s y.1 (itemStep y.2)).1 (senderOf s y.1 (itemStep y.2)).2.1 (senderOf s y.1 (itemStep y.2)).2.2
      a b false s)) := by
  rw [crossArrive, if_neg (by simp [opened])]

/-- The word of a mesh hop, met on behalf of a packet's sender. -/
def hopMeets (y : Source × MeshItem) (t : Nat) (w : DataWord) (s : State) : Bool × State :=
  parityMeets (.hop t) w (senderOf s y.1 (itemStep y.2)).1 (senderOf s y.1 (itemStep y.2)).2.1 (senderOf s y.1 (itemStep y.2)).2.2 s

theorem crossArrive_of_hop (opened : itemClosed s y.2 = false) (t : Nat) (w : DataWord) :
    ((hopMeets y t w s).1 = true → crossArrive y (.hop t w) s = .lost (losePacket 1 y (hopMeets y t w s).2)) ∧
      ((hopMeets y t w s).1 = false → crossArrive y (.hop t w) s = .got y.2 (hopMeets y t w s).2) := by
  rw [crossArrive, if_neg (by simp [opened])]
  exact ⟨fun lost => if_pos lost, fun kept => if_neg (Bool.eq_false_iff.1 kept)⟩

end

/-! ### A contribution's segment -/

@[simp] theorem getEntry_setEntry_self (n : Nat) (e : Ledger) (s : State) : getEntry (setEntry n e s) n = e := lookupD_upsert_self ..

theorem getEntry_setEntry_ne {j n : Nat} (h : j ≠ n) (e : Ledger) (s : State) : getEntry (setEntry n e s) j = getEntry s j := lookupD_upsert_ne h ..

theorem getEntry_of_cap {s t : State} (h : t.cap = s.cap) (n : Nat) : getEntry t n = getEntry s n := by
  rw [getEntry, h, getEntry]

theorem getEntry_postStep (code : Nat) (step : W32) (d : List Byte) (s : State) (n : Nat) : getEntry (postStep code step d s) n = getEntry s n :=
  getEntry_of_cap (postFull_cap ..) n

/-- A function of a word at each of a list of places, applied where none of them shares a byte with another. -/
def mapWords (at_ : Nat → Nat) (f : Nat → W32 → W32) (l : List Nat) (s : State) : State :=
  l.foldl (fun s i => wr32 (at_ i) (f i (rd32 s (at_ i))) s) s

section
variable {at_ : Nat → Nat} (f : Nat → W32 → W32) (far : ∀ i, nearEnd ≤ at_ i)
include far

theorem readByte_mapWords {x : Nat} : ∀ (l : List Nat) (s : State), (∀ i ∈ l, OutsideWord (at_ i) x) → readByte (mapWords at_ f l s) x = readByte s x := by
  intro l
  induction l with
  | nil => exact fun _ _ => rfl
  | cons i l ih =>
    intro s out
    exact (ih _ fun j h => out j (List.mem_cons_of_mem _ h)).trans (readByte_wr32_ne (far i) (out i List.mem_cons_self) _ s)

theorem rd32_mapWords (apart : ∀ i j, i ≠ j → ∀ b < 4, OutsideWord (at_ i) (at_ j + b)) {i : Nat} : ∀ (l : List Nat) (_ : l.Nodup) (s : State), Inv s → i ∈ l →
    rd32 (mapWords at_ f l s) (at_ i) = f i (rd32 s (at_ i)) := by
  intro l
  induction l with
  | nil => exact fun _ _ _ h => absurd h List.not_mem_nil
  | cons j l ih =>
    intro nodup s hs inside
    obtain ⟨new, nodup⟩ := List.nodup_cons.1 nodup
    change rd32 (mapWords at_ f l (wr32 (at_ j) (f j (rd32 s (at_ j))) s)) (at_ i) = _
    by_cases here : i = j
    · subst here
      rw [rd32_congr fun b hb => readByte_mapWords f far l _ fun k h => apart k i (by rintro rfl; exact new h) b hb]
      exact rd32_wr32_self hs (far i) _
    · rw [ih nodup _ (wr32_inv _ _ _ hs) ((List.mem_cons.1 inside).resolve_left here)]
      rw [rd32_congr fun b hb => readByte_wr32_ne (far j) (apart j i (fun e => here e.symm) b hb) _ s]

end

/-! ### Taking a contribution (R315) -/

section
variable {tag : Nat × Nat} {c : Contribution} {s : State}

/-- A contribution for an earlier step only marks its entry. -/
theorem takeContribution_of_stale (stale : c.step.toNat < (openStep s).toNat) : takeContribution tag c s =
    setEntry c.entry { getEntry s c.entry with dyn := { (getEntry s c.entry).dyn with stale := true } } s := by
  rw [takeContribution]
  exact if_pos stale

theorem takeContribution_of_held (early : (openStep s).toNat < c.step.toNat ∨
      (c.step = openStep s ∧ (windowHolds s = true ∨ ((getEntry s c.entry).valid && rimQuiet s (getEntry s c.entry).cap) = true))) :
    takeContribution tag c s = { s with cap := { s.cap with held := s.cap.held ++ [(tag, c)] } } := by
  rw [takeContribution]
  rcases early with later | ⟨now, waits⟩
  · exact (if_neg (by omega)).trans (if_pos (by simp [later]))
  · refine (if_neg (by simp [now])).trans (if_pos ?_)
    rcases waits with h | h
    · simp [h]
    · simp [h]

section
variable (now : c.step = openStep s) (shut : windowHolds s = false) (awake : ((getEntry s c.entry).valid && rimQuiet s (getEntry s c.entry).cap) = false)
include now shut awake

theorem takeContribution_of_now : takeContribution tag c s =
    if !(getEntry s c.entry).valid || decide ((getEntry s c.entry).rows ≤ c.row) || decide ((getEntry s c.entry).cols ≤ 128 * c.seg) then
      postStep Ev.contribRange c.step [] (setEntry c.entry { getEntry s c.entry with dyn := { (getEntry s c.entry).dyn with range := true } } s)
    else if segFinal (getEntry s c.entry) c.row c.seg then
      postStep Ev.contribOver c.step [] (setEntry c.entry { getEntry s c.entry with dyn := { (getEntry s c.entry).dyn with overs := true } } s)
    else addContribution c (getEntry s c.entry) s := by
  rw [takeContribution]
  refine (if_neg (by simp [now])).trans (if_neg ?_)
  simp only [Bool.or_eq_true, decide_eq_true_eq, not_or]
  exact ⟨⟨by simp [now], by simp [shut]⟩, by simp [awake]⟩

theorem takeContribution_of_range (out : (getEntry s c.entry).valid = false ∨ (getEntry s c.entry).rows ≤ c.row ∨ (getEntry s c.entry).cols ≤ 128 * c.seg) :
    takeContribution tag c s =
      postStep Ev.contribRange c.step [] (setEntry c.entry { getEntry s c.entry with dyn := { (getEntry s c.entry).dyn with range := true } } s) := by
  rw [takeContribution_of_now now shut awake, if_pos]
  rcases out with h | h | h <;> simp [h]

section
variable (valid : (getEntry s c.entry).valid = true) (row : c.row < (getEntry s c.entry).rows) (col : 128 * c.seg < (getEntry s c.entry).cols)
include valid row col

theorem takeContribution_of_final (final_ : segFinal (getEntry s c.entry) c.row c.seg = true) : takeContribution tag c s =
    postStep Ev.contribOver c.step [] (setEntry c.entry { getEntry s c.entry with dyn := { (getEntry s c.entry).dyn with overs := true } } s) := by
  rw [takeContribution_of_now now shut awake, if_neg (by simp [valid, row, col]), if_pos final_]

theorem takeContribution_of_open (open_ : segFinal (getEntry s c.entry) c.row c.seg = false) :
    takeContribution tag c s = addContribution c (getEntry s c.entry) s := by
  rw [takeContribution_of_now now shut awake, if_neg (by simp [valid, row, col]), if_neg (by simp [open_])]

end

end

end

/-- A mark on an entry with its event: the mark stands, the event is raised, and nothing but the log, the mesh and the ledger changes. -/
theorem flagged {n : Nat} {e : Ledger} {s : State} {m : List (Source × MeshItem)} (code : Nat) (step : W32) :
    let u := postStep code step [] (setEntry n e { s with mesh := m })
    getEntry u n = e ∧ Raises code s u ∧ HostSame s u ∧ OnlyChanges [.mesh, .cap, .host, .xing, .store] s u := by
  refine ⟨(getEntry_postStep ..).trans (getEntry_setEntry_self ..), ?_, postStep_same .., ?_⟩
  · exact (raises_postFull _ _ _ _ _ _ _).of_same (s' := setEntry n e { s with mesh := m }) rfl rfl id rfl
  · refine OnlyChanges.step ?_ (postFull_frame _ _ _ _ _ _ _) (by decide)
    refine OnlyChanges.step ?_ (setEntry_frame n e { s with mesh := m }) (by decide)
    exact only_mesh (OnlyChanges.refl _ _) _ (by decide)

section
variable {c : Contribution} {tag : Nat × Nat} {src : Source} {s s₀ : State} (takes : meshTake (.contrib (0, 0) c) s = some ((src, .contrib tag c), s₀))
include takes

/-- The crossing to the capstans, without the packet. -/
theorem itemClosed_of_take : itemClosed s₀ (.contrib tag c) = xingClosed s 10 8 := by
  obtain ⟨m, rfl⟩ := meshTake_rest takes
  exact Bool.or_false _

theorem exec_contribution_of_closed (closed : xingClosed s 10 8 = true) (t : Transit) :
    exec (.contribution c t) s = .next (pumpAll (losePacket 15 (src, .contrib tag c) s₀)) := by
  change execContribution c t s = _
  rw [execContribution, meshArrive_of_take takes, crossArrive_of_closed ((itemClosed_of_take takes).trans closed)]

section
variable (opened : xingClosed s 10 8 = false)
include opened

theorem exec_contribution_of_ok : exec (.contribution c .ok) s = .next (pumpAll (takeContribution tag c s₀)) := by
  change execContribution c .ok s = _
  rw [execContribution, meshArrive_of_take takes, crossArrive_of_ok ((itemClosed_of_take takes).trans opened)]

theorem exec_contribution_of_overrun (a b : Nat) : let who := senderOf s₀ src c.step
    exec (.contribution c (.overrun a b)) s =
      .next (pumpAll (losePacket 16 (src, .contrib tag c) (xingRecordFor who.1 who.2.1 who.2.2 a b false s₀))) := by
  change execContribution c (.overrun a b) s = _
  rw [execContribution, meshArrive_of_take takes, crossArrive_of_overrun ((itemClosed_of_take takes).trans opened)]
  rfl

theorem exec_contribution_of_hop (t : Nat) (w : DataWord) : let who := senderOf s₀ src c.step
    let r := parityMeets (.hop t) w who.1 who.2.1 who.2.2 s₀
    exec (.contribution c (.hop t w)) s =
      .next (pumpAll (if r.1 then losePacket 1 (src, .contrib tag c) r.2 else takeContribution tag c r.2)) := by
  intro who r
  obtain ⟨lost, kept⟩ := crossArrive_of_hop (y := (src, .contrib tag c)) ((itemClosed_of_take takes).trans opened) t w
  change execContribution c (.hop t w) s = _
  rw [execContribution, meshArrive_of_take takes]
  cases fate : r.1 with
  | true => rw [lost fate, if_pos rfl]; rfl
  | false => rw [kept fate, if_neg Bool.false_ne_true]; rfl

end

end

theorem contributionsOutOfPlace_addNothing : Claim.ContributionsOutOfPlaceAddNothing := by
  refine ⟨fun c tag src s s₀ takes opened => ?_, fun c tag src t s s₀ takes closed => exec_contribution_of_closed takes closed t,
    fun c t s absent => ?_⟩
  · intro e o quiet who
    have arrives := exec_contribution_of_ok takes opened
    refine ⟨fun stale => ?_, fun early => ?_, fun now shut awake out => ?_, fun now shut awake valid row col final_ => ?_,
      exec_contribution_of_overrun takes opened, exec_contribution_of_hop takes opened⟩
    all_goals obtain ⟨m, rfl⟩ := meshTake_rest takes
    · rw [takeContribution_of_stale (s := { s with mesh := m }) stale] at arrives
      refine ⟨_, arrives, congrArg Ledger.dyn (getEntry_setEntry_self _ _ _), ?_⟩
      exact (only_mesh (OnlyChanges.refl _ _) m (by decide)).step (setEntry_frame _ _ _) (by decide)
    · exact arrives.trans (congrArg (fun u => Host.Outcome.next (pumpAll u)) (takeContribution_of_held (s := { s with mesh := m }) early))
    · rw [takeContribution_of_range (s := { s with mesh := m }) now shut awake out] at arrives
      obtain ⟨entry, raised, same, frame⟩ := flagged (n := c.entry) (e := { e with dyn := { e.dyn with range := true } }) (s := s) (m := m)
        Ev.contribRange c.step
      exact ⟨_, arrives, congrArg Ledger.dyn entry, raised, same, frame⟩
    · rw [takeContribution_of_final (s := { s with mesh := m }) now shut awake valid row col final_] at arrives
      obtain ⟨entry, raised, same, frame⟩ := flagged (n := c.entry) (e := { e with dyn := { e.dyn with overs := true } }) (s := s) (m := m)
        Ev.contribOver c.step
      exact ⟨_, arrives, congrArg Ledger.dyn entry, raised, same, frame⟩
  · change execContribution c t s = _
    rw [execContribution, meshArrive_of_none absent]

/-! ### Adding a contribution (R313, R314) -/

/-- What a contribution does to the word of element i. -/
def addWord (c : Contribution) (n i : Nat) (w : W32) : W32 :=
  let x := r32 (bf16.decode (c.data.getD (i - 128 * c.seg) 0).toNat)
  if n = 0 then x else add32 w x

/-- The momentum words with a contribution added. -/
def addWords (c : Contribution) (e : Ledger) (s : State) : State :=
  mapWords (e.mAddr (altBank s) c.row) (addWord c (lookupD 0 (segNo c.row c.seg) e.counts)) (segCols e c.seg) s

theorem addWords_frame (c : Contribution) (e : Ledger) (s : State) : OnlyChanges [.mem] s (addWords c e s) :=
  OnlyChanges.foldl (fun _ _ => wr32_frame _ _ _) _ s

/-- The entry with a contribution counted. -/
def countContribution (c : Contribution) (e : Ledger) : Ledger :=
  { e with counts := upsert (segNo c.row c.seg) (lookupD 0 (segNo c.row c.seg) e.counts + 1) e.counts
           sources := upsert (segNo c.row c.seg) (lookupD c.src (segNo c.row c.seg) e.sources) e.sources
           dyn := { e.dyn with order := e.dyn.order || (lookupD c.src (segNo c.row c.seg) e.sources != c.src) } }

/-- The state with the words added, and the event of a second source. -/
def addedState (c : Contribution) (e : Ledger) (s : State) : State :=
  if lookupD c.src (segNo c.row c.seg) e.sources != c.src then postStep Ev.contribOrder c.step [] (addWords c e s) else addWords c e s

theorem addContribution_eq (c : Contribution) (e : Ledger) (s : State) : addContribution c e s =
    setEntry c.entry (if lookupD 0 (segNo c.row c.seg) e.counts + 1 = e.expect then
      finalSeg (countContribution c e) (altBank s) c.row c.seg (addedState c e s) else countContribution c e) (addedState c e s) := by
  unfold addContribution addedState addWords mapWords addWord countContribution
  rfl

/-- A final segment's sums leave the counts, the sources and the order mark alone. -/
theorem finalSeg_rest (e : Ledger) (bank : Bool) (o sg : Nat) (s : State) : let f := finalSeg e bank o sg s
    f.counts = e.counts ∧ f.sources = e.sources ∧ f.dyn.order = e.dyn.order := by
  dsimp only [finalSeg]
  split <;> exact ⟨rfl, rfl, rfl⟩

theorem addedState_frame (c : Contribution) (e : Ledger) (s : State) : OnlyChanges [.host, .xing, .store] (addWords c e s) (addedState c e s) := by
  unfold addedState
  split
  · exact (postFull_frame _ _ _ _ _ _ _).mono (by decide)
  · exact OnlyChanges.refl _ _

theorem addedState_same (c : Contribution) (e : Ledger) (s : State) : HostSame (addWords c e s) (addedState c e s) := by
  unfold addedState
  split
  · exact postFull_same ..
  · rfl

/-- An addition changes memory as the words say, and the entry as a contribution counts. -/
theorem addContribution_done (c : Contribution) (e : Ledger) (s : State) : let t := addContribution c e s
    OnlyChanges [.cap, .host, .xing, .store] (addWords c e s) t ∧ HostSame (addWords c e s) t ∧
      (getEntry t c.entry).counts = (countContribution c e).counts ∧ (getEntry t c.entry).sources = (countContribution c e).sources ∧
      (getEntry t c.entry).dyn.order = (countContribution c e).dyn.order ∧ ∀ n, n ≠ c.entry → getEntry t n = getEntry (addWords c e s) n := by
  have frame := addedState_frame c e s
  have same := addedState_same c e s
  rw [addContribution_eq]
  generalize addedState c e s = u at *
  refine ⟨(frame.mono (by decide)).step (setEntry_frame _ _ _) (by decide), same.trans rfl, ?_, ?_, ?_, fun n other => ?_⟩
  rotate_right
  · rw [getEntry_setEntry_ne other]
    exact getEntry_of_cap (frame .cap (by decide)) n
  all_goals
    rw [getEntry_setEntry_self]
    split
  · exact (finalSeg_rest ..).1
  · rfl
  · exact (finalSeg_rest ..).2.1
  · rfl
  · exact (finalSeg_rest ..).2.2
  · rfl

theorem nodup_segCols (e : Ledger) (sg : Nat) : (segCols e sg).Nodup :=
  List.nodup_range.map fun _ _ h => by simpa using h

/-- The momentum words of one row do not overlap. -/
theorem mAddr_apart (e : Ledger) (bank : Bool) (o i j : Nat) (ne : i ≠ j) (b : Nat) (hb : b < 4) :
    OutsideWord (e.mAddr bank o i) (e.mAddr bank o j + b) := by
  simp only [OutsideWord, Ledger.mAddr]
  omega

/-- A byte at no place of the words lies outside every word. -/
theorem outsideWord_of_memKey_ne {a x : Nat} {s : State} (h : ∀ b < 4, memKey s x ≠ memKey s (a + b)) : OutsideWord a x := by
  by_contra inside
  simp only [OutsideWord, not_or, Nat.not_lt, Nat.not_le] at inside
  exact h (x - a) (by omega) (by rw [show a + (x - a) = x by omega])

theorem contribution_isAccumulated : Claim.ContributionIsAccumulated := by
  intro c tag src s s₀ takes opened now shut e k awake valid row col open_
  have arrives := exec_contribution_of_ok takes opened
  obtain ⟨m, rfl⟩ := meshTake_rest takes
  let u : State := { s with mesh := m }
  rw [takeContribution_of_open (s := u) now shut (by simp [u, show rimQuiet u (getEntry u c.entry).cap = false from awake]) valid row col open_] at arrives
  replace arrives : exec (.contribution c .ok) s = .next (pumpAll (addContribution c e u)) := arrives
  obtain ⟨frame, same, counts, sources, order, others⟩ := addContribution_done c e u
  have words := addWords_frame c e u
  have far (i : Nat) : nearEnd ≤ e.mAddr (altBank s) c.row i := nearEnd_le_mAddr ..
  have byte (x : Nat) : readByte (addContribution c e u) x = readByte (addWords c e u) x := readByte_of_frame frame (by decide) (by decide) x
  refine ⟨addContribution c e u, arrives, ?_, ?_, order, fun x out => ?_, fun hs i inside => ?_, fun n other => ?_, ?_, ?_⟩
  · rw [counts]
    exact lookupD_upsert_self ..
  · rw [sources]
    exact lookup_upsert_self ..
  · have before : readByte u x = readByte s x :=
      readByte_of_frame (only_mesh (OnlyChanges.refl [.mesh] s) m (by decide)) (by decide) (by decide) x
    rw [byte, ← before]
    exact readByte_mapWords _ far _ u fun i inside => outsideWord_of_memKey_ne (out i inside)
  · intro x a
    have before : rd32 u a = rd32 s a := rd32_congr fun b _ =>
      readByte_of_frame (only_mesh (OnlyChanges.refl [.mesh] s) m (by decide)) (by decide) (by decide) (a + b)
    rw [rd32_congr fun b _ => byte (a + b), ← before]
    exact rd32_mapWords _ far (fun i j ne b hb => mAddr_apart e _ _ i j ne b hb) _ (nodup_segCols e c.seg) u hs inside
  · rw [others n other]
    exact getEntry_of_cap (words .cap (by decide)) n
  · exact (HostSame.of_host (words .host (by decide))).trans same
  · exact (only_mesh (OnlyChanges.refl [.mesh, .cap, .mem, .host, .xing, .store] s) m (by decide)).step (addContribution_frame c e u) (by decide)

/-- Settles O11, by the cases of R315 and an induction over the segment's words. -/
theorem contributionsAreAccumulated : Obligations.ContributionsAreAccumulated := ⟨contributionsOutOfPlace_addNothing, contribution_isAccumulated⟩


end Sys2Proof.Machine
end

section
/-! SUPPORT. Capstans that fail, and what a pass meets in a rim stack (R300, R325, R338 to R341). -/

namespace Sys2Proof.Machine

/-! ### The failure of a capstan (R339 to R341) -/

/-- The state in which a failing capstan's index looks for a spare: its die bad, its knots at 0, its entries unsettled, its sums lost. -/
def failing (k : Nat) (s : State) : State :=
  let s := { s with store := { s.store with badDice := (getCapstan s k).die :: s.store.badDice } }
  let s := unsettleCap k (clearCapKnots k (if unconfirmed s k then loseSums k s else s))
  if groupDown s k then ((entriesOf s k).foldl (freeBank s.cap.cur) { s with rel := { s.rel with secondFault := true } }) else s

/-- The record of a failed capstan. -/
def failRecord (k : Nat) (c : Capstan) (res : Nat) (s : State) : State := ledgerRec 10 7 res (unitOf 3 c.die) (BitVec.ofNat 32 k) 0 [] s

theorem failRecord_same (k : Nat) (c : Capstan) (res : Nat) (s : State) : HostSame s (failRecord k c res s) := rfl

section
variable {k : Nat} {s : State}

theorem failCapstan_of_spare {d : Nat} {l : List Nat} (spare : spareDice (failing k s) = d :: l) : failCapstan k s =
    failRecord k (getCapstan s k) 1
      (setCapstan k { die := d, rebuilding := true, lost := (getCapstan s k).lost || unconfirmed s k } (journalRecord (failing k s))) := by
  rw [failCapstan]
  change (match spareDice (failing k s) with | d :: _ => _ | [] => _) = _
  rw [spare]
  rfl

theorem failCapstan_of_none (none : spareDice (failing k s) = []) : failCapstan k s =
    failRecord k (getCapstan s k) 3 (post Ev.capDegraded []
      (setCapstan k { getCapstan s k with failed := true, rebuilding := false, lost := (getCapstan s k).lost || unconfirmed s k }
        { failing k s with rel := { (failing k s).rel with secondFault := true } })) := by
  rw [failCapstan]
  change (match spareDice (failing k s) with | d :: _ => _ | [] => _) = _
  rw [none]
  rfl

end

/-- The same before the parity group is looked at. -/
def dropped (k : Nat) (s : State) : State :=
  let s := { s with store := { s.store with badDice := (getCapstan s k).die :: s.store.badDice } }
  unsettleCap k (clearCapKnots k (if unconfirmed s k then loseSums k s else s))

theorem failing_frame (k : Nat) (s : State) : OnlyChanges [.rel, .mem, .freeCtr] (dropped k s) (failing k s) := by
  change OnlyChanges [.rel, .mem, .freeCtr] (dropped k s) (if groupDown (dropped k s) k then
    ((entriesOf (dropped k s) k).foldl (freeBank (dropped k s).cap.cur) { dropped k s with rel := { (dropped k s).rel with secondFault := true } })
    else dropped k s)
  generalize dropped k s = u
  split
  · refine OnlyChanges.step ?_ (OnlyChanges.foldl (freeBank_frame u.cap.cur) (entriesOf u k) _) (by decide)
    exact only_rel (OnlyChanges.refl _ _) _ (by decide)
  · exact OnlyChanges.refl _ _

theorem loseSums_rest (k : Nat) (s : State) : (loseSums k s).cap = { s.cap with ledger := (loseSums k s).cap.ledger } := by
  have frame : OnlyChanges [.freeCtr, .mem] s ((entriesOf s k).foldl (freeBank (altBank s)) s) :=
    OnlyChanges.foldl (freeBank_frame (altBank s)) (entriesOf s k) s
  have cap := frame .cap (by decide)
  rw [loseSums]
  generalize (entriesOf s k).foldl (freeBank (altBank s)) s = u at *
  dsimp only
  rw [cap]

/-- What the drop leaves: the capstans, the commit and the host interface as they were, the die bad. -/
theorem dropped_rest (k : Nat) (s : State) : (dropped k s).cap = { s.cap with ledger := (dropped k s).cap.ledger } ∧
    (dropped k s).store = { s.store with badDice := (getCapstan s k).die :: s.store.badDice } ∧
    OnlyChanges [.cap, .knots, .store, .mem, .freeCtr] s (dropped k s) := by
  let u := { s with store := { s.store with badDice := (getCapstan s k).die :: s.store.badDice } }
  have frame : OnlyChanges [.cap, .knots, .mem, .freeCtr] u (dropped k s) := by
    change OnlyChanges [.cap, .knots, .mem, .freeCtr] u (unsettleCap k (clearCapKnots k (if unconfirmed u k then loseSums k u else u)))
    refine OnlyChanges.step ?_ (unsettleCap_frame _ _) (by decide)
    refine OnlyChanges.step ?_ (clearCapKnots_frame _ _) (by decide)
    split
    · exact (loseSums_frame k u).mono (by decide)
    · exact OnlyChanges.refl _ _
  refine ⟨?_, frame .store (by decide), (only_store (OnlyChanges.refl _ _) _ (by decide)).step frame (by decide)⟩
  change (unsettleCap k (clearCapKnots k (if unconfirmed u k then loseSums k u else u))).cap = _
  have sums : (if unconfirmed u k then loseSums k u else u).cap = { s.cap with ledger := (if unconfirmed u k then loseSums k u else u).cap.ledger } := by
    split
    · exact loseSums_rest k u
    · rfl
  exact congrArg (fun c : Cap => { c with ledger := (dropped k s).cap.ledger }) sums

/-- A table filtered by key holds no key that fails the test. -/
theorem lookup_filter_key_none {β : Type} {test : Nat → Bool} {j : Nat} (fails : test j = false) (t : Table β) :
    lookup j (t.filter fun x => test x.1) = none := by
  induction t with
  | nil => rfl
  | cons x t ih =>
    obtain ⟨key, v⟩ := x
    rw [List.filter_cons]
    split
    next kept =>
      rw [lookup, if_neg, ih]
      rintro rfl
      exact absurd kept (by simp [fails])
    next => exact ih

theorem knot_clearCapKnots {k n : Nat} (low : n < 128) (s : State) : knot (clearCapKnots k s) (capKnot k n) = 0 := by
  have inside : (!(decide (capKnot k 0 ≤ capKnot k n) && decide (capKnot k n < capKnot k 128))) = false := by
    simp [capKnot]
    omega
  exact congrArg (fun o => Option.getD o 0)
    (lookup_filter_key_none (test := fun x => !(decide (capKnot k 0 ≤ x) && decide (x < capKnot k 128))) inside s.knots)

theorem lookup_map_values {β : Type} (f : β → β) (k : Nat) : ∀ t : Table β, lookup k (t.map fun x => (x.1, f x.2)) = (lookup k t).map f := by
  intro t
  induction t with
  | nil => rfl
  | cons x t ih =>
    obtain ⟨key, v⟩ := x
    rw [List.map_cons, lookup, lookup]
    split
    · rfl
    · exact ih

/-- No entry of the capstan is settled any more. -/
theorem getEntry_unsettleCap {k n : Nat} {s : State} (mine : (getEntry (unsettleCap k s) n).cap = k) :
    (getEntry (unsettleCap k s) n).snap.settled = false := by
  let f (e : Ledger) : Ledger := if e.cap == k then { e with snap := { e.snap with settled := false }, prev := { e.prev with settled := false } } else e
  let g (e : Ledger) : Ledger := if e.cap == k then { e with copied := false } else e
  have ledger : (unsettleCap k s).cap.ledger = (s.cap.ledger.map fun x => (x.1, f x.2)).map fun x => (x.1, g x.2) := rfl
  have entry : getEntry (unsettleCap k s) n = (((lookup n s.cap.ledger).map f).map g).getD blankLedger := by
    rw [getEntry, lookupD, ledger, lookup_map_values, lookup_map_values]
  rw [entry] at mine ⊢
  cases at_ : lookup n s.cap.ledger with
  | none => rfl
  | some e =>
    rw [at_] at mine
    change (g (f e)).cap = k at mine
    change (g (f e)).snap.settled = false
    by_cases h : e.cap = k
    · have hf : f e = { e with snap := { e.snap with settled := false }, prev := { e.prev with settled := false } } := if_pos (by simp [h])
      have hg : g (f e) = { f e with copied := false } := if_pos (by simp [hf, h])
      rw [hg, hf]
    · have hf : f e = e := if_neg (by simp [h])
      have hg : g (f e) = f e := if_neg (by simp [hf, h])
      rw [hg, hf] at mine
      exact absurd mine h

/-! ### Records (R45, R481) -/

/-- A record that enters the ledger stands newest. -/
theorem records_ledgerRec {s u : State} (same : u.store.ledger = s.store.ledger) (cls action result : Nat) (unit logical play : W32) (d : List Byte) :
    Records cls s (ledgerRec cls action result unit logical play d u) := by
  obtain ⟨r, ledger, named, -⟩ := ledgerRec_enters cls action result unit logical play d u
  exact ⟨r, [], by rw [ledger, same]; rfl, named, by simp, fun _ => rfl⟩

/-- An event's own lost pulse stands below the record that is made after it. -/
theorem records_ledgerRec_postFull {s u : State} (same : u.store.ledger = s.store.ledger) (calm : Calm s → Calm u)
    (code origin : Nat) (unit' play' step' : W32) (d' : List Byte) (cls action result : Nat) (unit logical play : W32) (d : List Byte) :
    Records cls s (ledgerRec cls action result unit logical play d (postFull code origin unit' play' step' d' u)) := by
  rcases postFull_marks code origin unit' play' step' d' u with ⟨-, kept⟩ | ⟨busy, -, x, fault, ledger⟩
  · exact records_ledgerRec (kept.trans same) ..
  · obtain ⟨r, ledger', named, -⟩ := ledgerRec_enters cls action result unit logical play d (postFull code origin unit' play' step' d' u)
    refine ⟨r, [x], ?_, named, by simpa using fault, fun c => absurd (calm c) busy⟩
    rw [ledger', ledger, same]
    exact take_cons_take ..

/-- A record with its event. -/
theorem records_record {s u : State} (same : u.store.ledger = s.store.ledger) (calm : Calm s → Calm u) (cls action result origin : Nat)
    (unit logical play step : W32) (d : List Byte) : Records cls s (record cls action result origin unit logical play step d u) := by
  rw [record]
  cases classEvent cls with
  | none => exact records_ledgerRec same ..
  | some e => exact records_ledgerRec_postFull same calm ..

/-- A record's event is raised. -/
theorem raises_record {cls code : Nat} (named : classEvent cls = some code) (action result origin : Nat) (unit logical play step : W32) (d : List Byte)
    (s : State) : Raises code s (record cls action result origin unit logical play step d s) := by
  rw [record, named]
  exact (raises_postFull code origin unit play step [] s).of_same rfl rfl id rfl

/-! ### CAPSTAN_FAIL and REBUILD_COMPLETE -/

/-- What a failing capstan leaves of the state, where its index looks for a spare. -/
theorem failing_rest (k : Nat) (s : State) : let u := failing k s
    u.cap = { s.cap with ledger := u.cap.ledger } ∧ u.store = { s.store with badDice := (getCapstan s k).die :: s.store.badDice } ∧ u.host = s.host ∧
      u.xing = s.xing ∧ u.bu = s.bu ∧ (∀ n < 128, knot u (capKnot k n) = 0) ∧ ∀ n, (getEntry u n).cap = k → (getEntry u n).snap.settled = false := by
  obtain ⟨cap, store, frame⟩ := dropped_rest k s
  have rest := failing_frame k s
  have capU : (failing k s).cap = (dropped k s).cap := rest .cap (by decide)
  refine ⟨?_, (rest .store (by decide)).trans store, (rest .host (by decide)).trans (frame .host (by decide)),
    (rest .xing (by decide)).trans (frame .xing (by decide)), (rest .bu (by decide)).trans (frame .bu (by decide)), fun n low => ?_, fun n mine => ?_⟩
  · rw [capU]
    exact cap
  · rw [knot, show (failing k s).knots = (dropped k s).knots from rest .knots (by decide)]
    exact knot_clearCapKnots low _
  · rw [getEntry_of_cap capU] at mine ⊢
    exact getEntry_unsettleCap mine

theorem spareDice_of_same {s t : State} (dice : t.store.badDice = s.store.badDice) (capstans : t.cap.capstans = s.cap.capstans) : spareDice t = spareDice s := by
  rw [spareDice, dice, capstans, spareDice]

theorem execCapstanFail_of_runs {k : Nat} {s : State} (low : k < 32) (up : stageDone s 6 = true) (works : (getCapstan s k).failed = false)
    (runs : capHalted s k = false) : exec (.capstanFail k) s = .next (failCapstan k s) := by
  change execCapstanFail k s = _
  rw [execCapstanFail, if_neg (by simp [up, works, runs]; omega)]

theorem getCapstan_of_cap {s t : State} (h : t.cap = s.cap) (k : Nat) : getCapstan t k = getCapstan s k := by
  rw [getCapstan, h, getCapstan]

/-- The failing capstan's index on a spare die, or failed. -/
theorem failCapstan_done (k : Nat) (s : State) : let t := failCapstan k s
    let spares := spareDice { s with store := { s.store with badDice := (getCapstan s k).die :: s.store.badDice } }
    t.store.badDice = (getCapstan s k).die :: s.store.badDice ∧ (∀ n < 128, knot t (capKnot k n) = 0) ∧
      t.cap.cur = s.cap.cur ∧ t.cap.committed = s.cap.committed ∧ Records 10 s t ∧ (∀ n, (getEntry t n).cap = k → (getEntry t n).snap.settled = false) ∧
      (∀ d l, spares = d :: l → (getCapstan t k).die = d ∧ (getCapstan t k).rebuilding = true) ∧
      (spares = [] → (getCapstan t k).failed = true ∧ (getCapstan t k).rebuilding = false ∧ Raises Ev.capDegraded s t) ∧
      HostSame s t ∧ (getCapstan t k).lost = ((getCapstan s k).lost || unconfirmed s k) := by
  intro t spares
  obtain ⟨cap, store, host, xing, bu, knots, entries⟩ := failing_rest k s
  have same : spareDice (failing k s) = spares := by
    refine spareDice_of_same ?_ ?_
    · rw [store]
    · rw [cap]
  have ledger : (failing k s).store.ledger = s.store.ledger := (congrArg Store.ledger store :)
  have dice : (failing k s).store.badDice = (getCapstan s k).die :: s.store.badDice := (congrArg Store.badDice store :)
  have cur : (failing k s).cap.cur = s.cap.cur := (congrArg Cap.cur cap :)
  have committed : (failing k s).cap.committed = s.cap.committed := (congrArg Cap.committed cap :)
  have calm : Calm s → Calm (failing k s) := by
    rw [Calm, Calm, xing]
    exact id
  cases found : spares with
  | nil =>
    have ends : t = _ := failCapstan_of_none (same.trans found)
    clear_value t
    generalize failing k s = u at *
    let v := setCapstan k { getCapstan s k with failed := true, rebuilding := false, lost := (getCapstan s k).lost || unconfirmed s k }
      { u with rel := { u.rel with secondFault := true } }
    have posted : OnlyChanges [.store, .host, .xing] v t := by
      rw [ends]
      exact ((postFull_frame _ _ _ _ _ _ v).mono (by decide)).step (ledgerRec_frame _ _ _ _ _ _ _ _) (by decide)
    have capT : t.cap = v.cap := posted .cap (by decide)
    have capstan : getCapstan t k = { getCapstan s k with failed := true, rebuilding := false, lost := (getCapstan s k).lost || unconfirmed s k } :=
      (getCapstan_of_cap capT k).trans (getCapstan_setCapstan_self ..)
    have spares : t.store.badDice = u.store.badDice := by
      rw [ends]
      exact (congrArg Store.badDice (postFull_butLedger _ _ _ _ _ _ v) :)
    refine ⟨spares.trans dice, fun n low => ?_, (congrArg Cap.cur capT).trans cur, (congrArg Cap.committed capT).trans committed, ?_, fun n mine => ?_,
      nofun, fun _ => ⟨?_, ?_, ?_⟩, ?_, ?_⟩
    · exact (congrArg (fun l : Table W32 => lookupD 0 (capKnot k n) l) (posted .knots (by decide))).trans (knots n low)
    · rw [ends]
      exact records_ledgerRec_postFull (u := v) ledger calm ..
    · rw [getEntry_of_cap capT] at mine ⊢
      exact entries n mine
    · rw [capstan]
    · rw [capstan]
    · rw [ends]
      refine (raises_postFull _ _ _ _ _ _ v).of_same ?_ (congrArg HostIf.events host) calm rfl
      rw [stageDone, stageDone, show v.bu = s.bu from bu]
    · have before : HostSame s v := .of_host host
      have after : HostSame v (post Ev.capDegraded [] v) := postFull_same ..
      rw [ends]
      exact before.trans (after.trans (failRecord_same ..))
    · rw [capstan]
  | cons d l =>
    have ends : t = _ := failCapstan_of_spare (same.trans found)
    clear_value t
    generalize failing k s = u at *
    have journal := journalRecord_frame u
    generalize journalRecord u = w at *
    have capJ : w.cap = u.cap := journal .cap (by decide)
    have storeJ : w.store = u.store := journal .store (by decide)
    have capstan : getCapstan t k = { die := d, rebuilding := true, lost := (getCapstan s k).lost || unconfirmed s k } := by
      rw [ends]
      exact getCapstan_setCapstan_self ..
    have entry (n : Nat) : getEntry t n = getEntry u n := by
      rw [ends]
      exact getEntry_of_cap capJ n
    refine ⟨?_, fun n low => ?_, ?_, ?_, ?_, fun n mine => ?_, fun d' l' h => ?_, nofun, ?_, ?_⟩
    · rw [ends]
      exact (congrArg Store.badDice storeJ).trans dice
    · rw [ends]
      exact (congrArg (fun l : Table W32 => lookupD 0 (capKnot k n) l) (journal .knots (by decide))).trans (knots n low)
    · rw [ends]
      exact (congrArg Cap.cur capJ).trans cur
    · rw [ends]
      exact (congrArg Cap.committed capJ).trans committed
    · rw [ends]
      exact records_ledgerRec (show Store.ledger _ = s.store.ledger from (congrArg Store.ledger storeJ).trans ledger) ..
    · rw [entry] at mine ⊢
      exact entries n mine
    · rw [capstan]
      exact ⟨(List.cons.inj h).1, rfl⟩
    · rw [ends]
      exact HostSame.of_host ((journal .host (by decide)).trans host)
    · rw [capstan]

/-- A rebuild that has ended. -/
def rebuilt (k : Nat) (s : State) : State :=
  record 10 7 0 3 (unitOf 3 (getCapstan s k).die) (BitVec.ofNat 32 k) 0 0 [] (setCapstan k { getCapstan s k with rebuilding := false } s)

theorem exec_rebuildComplete_of_rebuilding {k : Nat} {s : State} (rebuilds : (getCapstan s k).rebuilding = true) :
    exec (.rebuildComplete k) s = .next (pumpAll (unsettleCap k (rebuilt k s))) := by
  have runs : exec (.rebuildComplete k) s = execRebuildComplete k s := rfl
  rw [runs, execRebuildComplete]
  exact if_pos rebuilds

theorem rebuilt_frame (k : Nat) (s : State) : OnlyChanges [.cap, .store] s (rebuilt k s) :=
  ((setCapstan_frame _ _ _).mono (by decide)).step (ledgerRec_frame _ _ _ _ _ _ _ _) (by decide)

theorem getCapstan_rebuilt (k : Nat) (s : State) : getCapstan (rebuilt k s) k = { getCapstan s k with rebuilding := false } :=
  getCapstan_setCapstan_self ..

/-- Settles O17. -/
theorem capstanFailureTakesSpare : Obligations.CapstanFailureTakesSpare := by
  refine ⟨fun k s low up works runs => ?_, fun k s left => ?_, fun k s => ⟨fun rebuilds => ?_, fun idle => ?_⟩⟩
  · obtain ⟨dice, knots, cur, committed, recorded, entries, spare, none, -, -⟩ := failCapstan_done k s
    exact ⟨_, execCapstanFail_of_runs low up works runs, dice, knots, cur, committed, recorded, entries, spare, none, failCapstan_frame k s⟩
  · change execCapstanFail k s = _
    rw [execCapstanFail, if_pos]
    rcases left with h | h | h | h
    · simp; omega
    · simp [h]
    · simp [h]
    · simp [h]
  · refine ⟨unsettleCap k (rebuilt k s), exec_rebuildComplete_of_rebuilding rebuilds, ?_, fun n mine => getEntry_unsettleCap mine, ?_,
      (rebuilt_frame k s).step (unsettleCap_frame _ _) (by decide)⟩
    · change (getCapstan (rebuilt k s) k).rebuilding = false
      rw [getCapstan_rebuilt]
    · have made : Records 10 s (rebuilt k s) := records_record (u := setCapstan k { getCapstan s k with rebuilding := false } s) rfl id ..
      exact made
  · have runs : exec (.rebuildComplete k) s = execRebuildComplete k s := rfl
    rw [runs, execRebuildComplete]
    exact if_neg (Bool.eq_false_iff.1 idle)

end Sys2Proof.Machine
end

section
/-! SUPPORT. The apply pass of a capstan and its confirmation (R300, R305, R320 to R325, R338). -/

namespace Sys2Proof.Machine

/-! ### What a pass reads of its rim stack (R300, R338) -/

/-- A row that fails keeps the mark of lost units. -/
theorem lost_repairRim {k : Nat} {s : State} (lost : (getCapstan s k).lost = true) (row : Nat) : (getCapstan (repairRim k row s) k).lost = true := by
  unfold repairRim
  extract_lets c u v w
  split
  · change (getCapstan (setCapstan k { c with rimHits := delKey row c.rimHits } s) k).lost = true
    rw [getCapstan_setCapstan_self]
    exact lost
  · obtain ⟨-, -, -, -, -, -, -, -, -, kept⟩ := failCapstan_done k (ledgerRec 9 7 3 u (BitVec.ofNat 32 k) 0 [] s)
    rw [kept]
    change ((getCapstan s k).lost || _) = true
    rw [lost, Bool.true_or]

/-- A unit of the alternate bank that cannot be read, of a capstan the open step still needs, is lost to the step. -/
theorem lost_rimFinds {k unit : Nat} {s : State} (bank : unitBank unit = altBank s) (needed : unconfirmed s k = true) (row : Nat) :
    (getCapstan (rimFinds k unit row .bad s) k).lost = true := by
  refine lost_repairRim ?_ row
  rw [rimBad, if_pos (by simp [bank, needed]), loseCap, getCapstan_setCapstan_self]

theorem lost_rimReads {k : Nat} {u : RimUnit} {s : State} (bad : u.read = .bad) (bank : unitBank u.unit = altBank s)
    (needed : unconfirmed s (k / 8 * 8 + u.member) = true) : (getCapstan (rimReads k (some u) s) (k / 8 * 8 + u.member)).lost = true := by
  change (getCapstan (rimFinds (k / 8 * 8 + u.member) u.unit u.row u.read s) (k / 8 * 8 + u.member)).lost = true
  rw [bad]
  exact lost_rimFinds bank needed u.row

theorem applyReady_of_lost {k : Nat} {s : State} (lost : (getCapstan s k).lost = true) (a : Armed) : applyReady s a k = false := by
  simp [applyReady, lost]

/-! ### The next item of a pass (R320, R322) -/

theorem entryItem_of_square {a : Armed} {n m q : Nat} {e : Ledger} (h : entryItem a n e = some (.square m q)) :
    m = n ∧ e.applied = false ∧ skipped a e = false ∧ q < e.squareCount ∧ q ∉ e.squares ∧ squareFinal e q = true ∧
      ∀ r < q, r ∈ e.squares ∨ squareFinal e r = false := by
  unfold entryItem at h
  split at h
  · cases h
  next applied =>
    split at h
    · cases h
    next trained =>
      obtain ⟨x, found, same⟩ := Option.map_eq_some_iff.1 h
      cases same
      obtain ⟨test, at_, before⟩ := List.find?_range_eq_some.1 found
      simp only [Bool.and_eq_true, Bool.not_eq_true', List.contains_eq_mem, decide_eq_false_iff_not] at test
      refine ⟨rfl, by simpa using applied, by simpa using trained, List.mem_range.1 at_, test.1, test.2, fun r low => ?_⟩
      have fails := before r low
      by_cases done : r ∈ e.squares
      · exact .inl done
      · exact .inr (by simpa [done] using fails)

theorem findSome_split {α β : Type} {f : α → Option β} {y : β} : ∀ {l : List α}, l.findSome? f = some y →
    ∃ x before after, l = before ++ x :: after ∧ (∀ z ∈ before, f z = none) ∧ f x = some y := by
  intro l
  induction l with
  | nil => exact fun h => by cases h
  | cons x l ih =>
    intro h
    rw [List.findSome?_cons] at h
    cases at_ : f x with
    | some z => exact ⟨x, [], l, rfl, by simp, by rw [at_] at h; exact at_.trans h⟩
    | none =>
      rw [at_] at h
      obtain ⟨y', before, after, split, none, found⟩ := ih h
      exact ⟨y', x :: before, after, by rw [split]; rfl, by simpa [at_] using none, found⟩

theorem passItem_of_square {a : Armed} {k n q : Nat} {s : State} (h : passItem a k s = some (.square n q)) :
    ∃ e before after, entriesOf s k = before ++ (n, e) :: after ∧ (∀ x ∈ before, entryItem a x.1 x.2 = none) ∧ e.applied = false ∧
      skipped a e = false ∧ q < e.squareCount ∧ q ∉ e.squares ∧ squareFinal e q = true ∧ ∀ r < q, r ∈ e.squares ∨ squareFinal e r = false := by
  obtain ⟨⟨m, e⟩, before, after, split, none, found⟩ := findSome_split h
  obtain ⟨rfl, facts⟩ := entryItem_of_square found
  exact ⟨e, before, after, split, none, facts⟩

/-! ### One square (R322, R323) -/

theorem nearWriteFor_same (origin : Nat) : ∀ (n a : Nat) (l : List Byte) (s : State), HostSame s (nearWriteFor origin a l n s) := by
  intro n
  induction n with
  | zero => exact fun _ _ _ => rfl
  | succ n ih =>
    intro a l s
    rw [nearWriteFor]
    split
    · rfl
    · refine HostSame.trans ?_ (ih ..)
      split
      · exact postFull_same ..
      · refine HostSame.of_host ?_
        exact ((unpoison_frame _ _ _).mono (by decide)).step (l := [.near, .mem]) (writeBytes_frame _ _ _) (by decide) .host (by decide)

theorem writeSquare_same (e : Ledger) (bank : Bool) (half : Nat) (step : W32) (q : Nat) (s : State) :
    HostSame s (writeSquare e bank half step q s) := by
  have counted (sid : W32) (k : Counts) (u : State) : HostSame u (countConv sid step k u) := .of_host (countConv_frame sid step k u .host (by decide))
  unfold writeSquare
  extract_lets sr die w x y
  split
  · exact (nearWriteFor_same ..).trans (counted ..)
  · dsimp only
    refine HostSame.trans ?_ (counted ..)
    split
    · exact (nearWriteFor_same ..).trans (nearWriteFor_same ..)
    · exact nearWriteFor_same ..

/-- A pass over elements changes memory, and of the entry the dynamic part. -/
theorem applyTrained_rest (k : ApplyK) (alt : Bool) (l : List (Nat × Nat)) (e : Ledger) (s : State) :
    ∃ d, (applyTrained k alt l e s).1 = { e with dyn := d } := by
  unfold applyTrained
  suffices go : ∀ (l : List (Nat × Nat)) (d : Dyn) (u : State), ∃ d', (l.foldl _ (({ e with dyn := d } : Ledger), u)).1 = { e with dyn := d' } from go l e.dyn s
  intro l
  induction l with
  | nil => exact fun d _ => ⟨d, rfl⟩
  | cons p l ih => exact fun d u => ih _ _

theorem applyFrozen_rest (alt : Bool) (l : List (Nat × Nat)) (e : Ledger) (s : State) : ∃ d, (applyFrozen alt l e s).1 = { e with dyn := d } := by
  unfold applyFrozen
  suffices go : ∀ (l : List (Nat × Nat)) (d : Dyn) (u : State), ∃ d', (l.foldl _ (({ e with dyn := d } : Ledger), u)).1 = { e with dyn := d' } from go l e.dyn s
  intro l
  induction l with
  | nil => exact fun d _ => ⟨d, rfl⟩
  | cons p l ih => exact fun d u => ih _ _

theorem applyFrozen_squares (alt : Bool) (l : List (Nat × Nat)) (e : Ledger) (s : State) :
    (applyFrozen alt l e s).1.squares = e.squares ∧ (applyFrozen alt l e s).1.squareCount = e.squareCount := by
  obtain ⟨d, same⟩ := applyFrozen_rest alt l e s
  rw [same]
  exact ⟨rfl, rfl⟩

/-- A square is applied and its working copy written: its entry notes it, and only memory has changed before. -/
theorem applySquare_eq (a : Armed) (n q : Nat) (s : State) : ∃ (e' : Ledger) (half : Nat) (u : State), e'.squares = (getEntry s n).squares ∧
    e'.squareCount = (getEntry s n).squareCount ∧ OnlyChanges [.mem] s u ∧ applySquare a n q s = writeSquare e' (altBank s) half a.step q
      (setEntry n { e' with squares := q :: e'.squares, applied := e'.squares.length + 1 == e'.squareCount } u) := by
  cases freeze : (groupIn a (getEntry s n)).freeze with
  | false =>
    obtain ⟨d, same⟩ := applyTrained_rest (applyK (groupIn a (getEntry s n)) a.u a.c32) (altBank s) ((getEntry s n).squareElems q) (getEntry s n) s
    have frame := applyTrained_frame (applyK (groupIn a (getEntry s n)) a.u a.c32) (altBank s) ((getEntry s n).squareElems q) (getEntry s n) s
    exact ⟨_, _, _, by rw [same], by rw [same]; rfl, frame, applySquare_of_trained freeze q⟩
  | true =>
    have same := applyFrozen_squares (altBank s) ((getEntry s n).squareElems q) { getEntry s n with copied := true } s
    have frame := applyFrozen_frame (altBank s) ((getEntry s n).squareElems q) { getEntry s n with copied := true } s
    generalize passed : applyFrozen (altBank s) ((getEntry s n).squareElems q) { getEntry s n with copied := true } s = r at same frame
    refine ⟨r.1, if altBank s then halfOf r.2 r.1 else 0, r.2, same.1, same.2, frame, ?_⟩
    simp only [applySquare, freeze, if_true, passed, List.length_cons]

theorem applySquare_done (a : Armed) (n q : Nat) (s : State) : let e := getEntry s n
    let t := applySquare a n q s
    (getEntry t n).squares = q :: e.squares ∧ (getEntry t n).applied = (e.squares.length + 1 == e.squareCount) ∧
      (∀ m, m ≠ n → getEntry t m = getEntry s m) ∧ t.cap.cur = s.cap.cur ∧ t.cap.committed = s.cap.committed ∧ t.cap.armed = s.cap.armed ∧
      HostSame s t ∧ OnlyChanges [.cap, .mem, .host, .watch, .near, .xing, .store] s t := by
  intro e t
  obtain ⟨e', half, u, squares, count, frame, eq⟩ := applySquare_eq a n q s
  have capU := frame .cap (by decide)
  have host := writeSquare_same e' (altBank s) half a.step q
    (setEntry n { e' with squares := q :: e'.squares, applied := e'.squares.length + 1 == e'.squareCount } u)
  have write := writeSquare_frame e' (altBank s) half a.step q
    (setEntry n { e' with squares := q :: e'.squares, applied := e'.squares.length + 1 == e'.squareCount } u)
  rw [← eq] at host write
  have cap := write .cap (by decide)
  have entry (m : Nat) := getEntry_of_cap cap m
  refine ⟨?_, ?_, fun m other => ?_, ?_, ?_, ?_, ?_, (applySquare_frame a n q s).mono (by decide)⟩
  · rw [entry, getEntry_setEntry_self, squares]
  · rw [entry, getEntry_setEntry_self, squares, count]
  · rw [entry, getEntry_setEntry_ne other]
    exact getEntry_of_cap capU m
  · exact (congrArg Cap.cur cap :).trans (congrArg Cap.cur capU :)
  · exact (congrArg Cap.committed cap :).trans (congrArg Cap.committed capU :)
  · exact (congrArg Cap.armed cap :).trans (congrArg Cap.armed capU :)
  · exact (HostSame.of_host (frame .host (by decide))).trans host

theorem skipEntry_done (n : Nat) (s : State) : (getEntry (skipEntry n s) n).applied = true ∧ (getEntry (skipEntry n s) n).dyn.wsq = (getEntry s n).snap.wsq ∧
    (∀ m, m ≠ n → getEntry (skipEntry n s) m = getEntry s m) ∧ OnlyChanges [.cap] s (skipEntry n s) := by
  have entry : getEntry (skipEntry n s) n = _ := getEntry_setEntry_self ..
  rw [entry]
  exact ⟨rfl, rfl, fun m other => getEntry_setEntry_ne other .., skipEntry_frame n s⟩

/-! ### APPLY_PASS -/

/-- The state after the pass's reads of its own rim stack. -/
def passReads (k : Nat) (rim : Option RimUnit) (s : State) : State := rimReads k (rim.map fun u => { u with member := k % 8 }) s

section
variable {k : Nat} {a : Armed} {s : State} (armed : s.cap.armed = some a) (ready : applyReady s a k = true) (l : LaneFault) (rim : Option RimUnit)
include armed ready

theorem exec_applyPass_of_none (none : passItem a k s = none) : exec (.applyPass k l rim) s = .next s := by
  change execApplyPass k l rim s = _
  rw [execApplyPass, armed]
  dsimp only
  rw [if_neg (by simp [ready]), none]

theorem exec_applyPass_of_skip {n : Nat} (item : passItem a k s = some (.skip n)) : exec (.applyPass k l rim) s = .next (skipEntry n s) := by
  change execApplyPass k l rim s = _
  rw [execApplyPass, armed]
  dsimp only
  rw [if_neg (by simp [ready]), item]

section
variable {n q : Nat} (item : passItem a k s = some (.square n q))
include item

theorem exec_applyPass_of_waits (waits : (copyHeld s || xingClosed s 10 9 || squareWaits s (altBank s) (getEntry s n) q) = true) :
    exec (.applyPass k l rim) s = .next s := by
  change execApplyPass k l rim s = _
  rw [execApplyPass, armed]
  dsimp only
  rw [if_neg (by simp [ready]), item]
  exact if_pos waits

variable (goes : (copyHeld s || xingClosed s 10 9 || squareWaits s (altBank s) (getEntry s n) q) = false)
include goes

theorem exec_applyPass_of_stopped (stopped : applyReady (passReads k rim s) a k = false) :
    exec (.applyPass k l rim) s = .next (passReads k rim s) := by
  change execApplyPass k l rim s = _
  rw [execApplyPass, armed]
  dsimp only
  rw [if_neg (by simp [ready]), item]
  exact (if_neg (by simp [goes])).trans (if_pos (by rw [passReads] at stopped; rw [stopped]; rfl))

variable (still : applyReady (passReads k rim s) a k = true)
include still

theorem exec_applyPass_of_meets {b : Bool} {u : State}
    (meets : passMeets k a (getEntry (passReads k rim s) n) q l (passReads k rim s) = (b, u)) :
    exec (.applyPass k l rim) s = .next (if b then applySquare a n q u else u) := by
  change execApplyPass k l rim s = _
  rw [execApplyPass, armed]
  dsimp only
  rw [if_neg (by simp [ready]), item]
  refine (if_neg (by simp [goes])).trans ?_
  rw [passReads] at still meets
  refine (if_neg (by rw [still]; decide)).trans ?_
  rw [meets]
  cases b with
  | true => exact congrArg Host.Outcome.next (if_pos rfl).symm
  | false => exact congrArg Host.Outcome.next (if_neg Bool.false_ne_true).symm

end

end

/-- What a pass does in each case of what its lanes and its rim interface meet. -/
theorem passMeets_cases (k : Nat) (a : Armed) (e : Ledger) (q : Nat) (l : LaneFault) (s : State) :
    let u := unitOf 3 (getCapstan s k).die
    let x := (e.squareElems q).headD (0, 0)
    (l = .none → passMeets k a e q l s = (true, s)) ∧
    (l = .once → passMeets k a e q l s = (true, laneResidue u (BitVec.ofNat 32 k) a.origin 0 a.step true s)) ∧
    (l = .twice → passMeets k a e q l s = (false, failCapstan k (laneResidue u (BitVec.ofNat 32 k) a.origin 0 a.step false s))) ∧
    ∀ w, l = .parity w → let s₂ := (parityMeets (.rim (e.wAddr (!altBank s) x.1 x.2)) w a.origin 0 a.step s).2
      passMeets k a e q l s = (applyReady s₂ a k, s₂) := by
  refine ⟨?_, ?_, ?_, fun w => ?_⟩ <;> (rintro rfl; rfl)

theorem claim_applyPassAppliesEntries : Claim.ApplyPassAppliesEntries := by
  refine ⟨fun k l rim a s armed ready => ⟨exec_applyPass_of_none armed ready l rim, fun n => exec_applyPass_of_skip armed ready l rim,
    fun n q item => ?_⟩, fun k u s member bad bank needed a => ?_, fun k l rim s idle => ?_, fun a k n q s => passItem_of_square, applySquare_done, skipEntry_done⟩
  · obtain ⟨none, once, twice, parity⟩ := passMeets_cases k a (getEntry (passReads k rim s) n) q l (passReads k rim s)
    refine ⟨exec_applyPass_of_waits armed ready l rim item, exec_applyPass_of_stopped armed ready l rim item, fun goes still => ?_⟩
    have runs {b : Bool} {u : State} := exec_applyPass_of_meets (b := b) (u := u) armed ready l rim item goes still
    exact ⟨fun h => (runs (none h)).trans (congrArg _ (if_pos rfl)), fun h => (runs (once h)).trans (congrArg _ (if_pos rfl)),
      fun h => (runs (twice h)).trans (congrArg _ (if_neg Bool.false_ne_true)), fun w h => runs (parity w h)⟩
  · refine applyReady_of_lost ?_ a
    have at_ : k / 8 * 8 + u.member = k := by omega
    have lost := lost_rimReads (k := k) bad bank (by rwa [at_])
    rwa [at_] at lost
  · change execApplyPass k l rim s = _
    rw [execApplyPass]
    cases armed : s.cap.armed with
    | none => rfl
    | some a => exact if_pos (by simp [idle a armed])

/-! ### CAPSTAN_CONFIRM -/

/-- The statement's condition on a state in which capstan k may confirm the armed step. -/
def MayConfirm (a : Armed) (k : Nat) (s : State) : Prop :=
  k < 32 ∧ a.vetoed = false ∧ k ∉ a.confirmed ∧ (getCapstan s k).lost = false ∧ (getCapstan s k).rebuilding = false ∧
    capHalted s k = false ∧ ∀ j < 8, (getCapstan s (k / 8 * 8 + j)).lost = false ∧ rimQuiet s (k / 8 * 8 + j) = false ∧
      ∀ x ∈ entriesOf s (k / 8 * 8 + j), x.2.applied = true

theorem confirmReady_iff {a : Armed} {k : Nat} {s : State} : confirmReady s a k = true ↔ MayConfirm a k s := by
  simp only [confirmReady, MayConfirm, Bool.and_eq_true, decide_eq_true_eq, Bool.not_eq_true', List.contains_eq_mem, decide_eq_false_iff_not,
    List.all_map, List.all_eq_true, List.mem_range, Function.comp_apply, and_assoc]

section
variable {k : Nat} {rim : Option RimUnit} {a : Armed} {s : State} (armed : s.cap.armed = some a)
include armed

theorem exec_capstanConfirm_of_not (before : ¬MayConfirm a k s) : exec (.capstanConfirm k rim) s = .next s := by
  change execCapstanConfirm k rim s = _
  rw [execCapstanConfirm, armed]
  exact if_pos (by simpa [← confirmReady_iff] using before)

variable (before : MayConfirm a k s)
include before

theorem exec_capstanConfirm_of_stopped (after : ¬MayConfirm a k (rimReads k rim s)) : exec (.capstanConfirm k rim) s = .next (rimReads k rim s) := by
  change execCapstanConfirm k rim s = _
  rw [execCapstanConfirm, armed]
  exact (if_neg (by simp [confirmReady_iff.2 before])).trans (if_neg (by simpa [← confirmReady_iff] using after))

theorem exec_capstanConfirm_of_may (after : MayConfirm a k (rimReads k rim s)) : exec (.capstanConfirm k rim) s =
    .next (setArmed { a with confirmed := k :: a.confirmed } (parityPass (heldParity k (altBank (rimReads k rim s))) (rimReads k rim s))) := by
  change execCapstanConfirm k rim s = _
  rw [execCapstanConfirm, armed]
  exact (if_neg (by simp [confirmReady_iff.2 before])).trans (if_pos (confirmReady_iff.2 after))

end

theorem claim_capstanConfirms : Claim.CapstanConfirms := by
  intro k rim a s armed may s₁
  refine ⟨fun before after => ⟨_, exec_capstanConfirm_of_may armed before after, rfl, rfl, ?_⟩, fun none => ?_, fun before after =>
    exec_capstanConfirm_of_stopped armed before after, fun u unit bad bank member needed after => ?_, fun before => exec_capstanConfirm_of_not armed before⟩
  · exact ((parityPass_frame _ _).mono (by decide)).step (l := [.cap, .mem]) (setArmed_frame _ _) (by decide)
  · subst none
    rfl
  · subst unit
    obtain ⟨-, -, -, -, -, -, group⟩ := after
    have kept := (group u.member member).1
    exact absurd (lost_rimReads bad bank needed) (by rw [kept]; decide)

/-- Settles O13, by the cases of a pass's next item and of what its lanes meet, and by the mark of lost units that a unit which cannot be read leaves. -/
theorem applyPassAndConfirm : Obligations.ApplyPassAndConfirm := ⟨claim_applyPassAppliesEntries, claim_capstanConfirms⟩

end Sys2Proof.Machine
end

section
/-! SUPPORT. The events of the near stacks and of the rim stacks complete (R278, R281 to R286, R476). -/

namespace Sys2Proof.Machine

theorem doubleSample_same {α : Type} [DecidableEq α] (held a : α) : doubleSample held a a = a := if_pos rfl

/-- Two samples that read alike are the readings. -/
theorem heldReadings_same (held l : List Int) : heldReadings held l l = l := by
  refine List.ext_getElem (by simp [heldReadings]) fun i low high => ?_
  simp [heldReadings, doubleSample_same]

/-- The highest reading is one of them, and none is above it. -/
theorem highest_mem {l : List Int} (some : l ≠ []) : highest l ∈ l ∧ ∀ z ∈ l, z ≤ highest l := by
  have go : ∀ (r : List Int) (x : Int), (r.foldl max x = x ∨ r.foldl max x ∈ r) ∧ x ≤ r.foldl max x ∧ ∀ z ∈ r, z ≤ r.foldl max x := by
    intro r
    induction r with
    | nil => exact fun x => ⟨.inl rfl, le_refl x, nofun⟩
    | cons y r ih =>
      intro x
      obtain ⟨which, above, rest⟩ := ih (max x y)
      refine ⟨?_, le_trans (le_max_left x y) above, ?_⟩
      · rcases which with same | deeper
        · rcases max_choice x y with left | right
          · exact .inl (same.trans left)
          · exact .inr (List.mem_cons.2 (.inl (same.trans right)))
        · exact .inr (List.mem_cons_of_mem _ deeper)
      · intro z hz
        rcases List.mem_cons.1 hz with rfl | deeper
        · exact le_trans (le_max_right x z) above
        · exact rest z deeper
  cases l with
  | nil => exact absurd rfl some
  | cons x r =>
    obtain ⟨which, above, rest⟩ := go r x
    exact ⟨List.mem_cons.2 (which.imp id id), fun z hz => (List.mem_cons.1 hz).elim (fun same => same ▸ above) (rest z)⟩

theorem getStack_of_near {s t : State} (near : Part.near.same s t) (n : Nat) : getStack t n = getStack s n := by
  have same : t.near = s.near := near
  rw [getStack, same, getStack]

theorem stackThermal_readings (n : Nat) (l : List Int) (s : State) :
    (getStack (stackThermal n l s) n).sensors = l ∧ (getStack (stackThermal n l s) n).temp = highest l := by
  unfold stackThermal
  extract_lets x temp hot cool t y
  split
  · rw [getStack_setStack_self]
    exact ⟨rfl, rfl⟩
  · have near : getStack (post Ev.nsThermal (det [(2, n), (1, t.code)]) (setStack n { y with hot := 0, cool := 0, thermal := t } s)) n =
        getStack (setStack n { y with hot := 0, cool := 0, thermal := t } s) n :=
      getStack_of_near (post_frame _ _ _ .near (by decide)) n
    rw [near, getStack_setStack_self]
    exact ⟨rfl, rfl⟩

theorem exec_calibrationSlot_of_good {n c a b v : Nat} {s : State} (slot : inSlot s = true) (turn : inTurn (s.near.calSlot.toNat, 5, 0) s = true)
    (serves : (getStack s n).thermal ≠ .quiesced) (due : c = (getStack s n).calChan) (first : (getStack s n).calLast = none)
    (ha : 150 ≤ a) (hb : 150 ≤ b) (hv : 40 ≤ v) : exec (.calibrationSlot n c a b v true) s = .next (setStack n { getStack s n with
      calLast := some (ctTurn s.cad.ct, c), calChan := (c + 1) % 32, margins := upsert c (a, b, v) (getStack s n).margins } s) := by
  change execCalibrationSlot n c a b v true s = _
  rw [execCalibrationSlot]
  dsimp only
  rw [if_pos (by simp [slot, turn, serves, ← due, first])]
  rw [if_neg]
  simp only [Bool.or_eq_true, decide_eq_true_eq, Bool.not_true, Bool.false_eq_true, or_false]
  omega

theorem endLap_of_channel {n c : Nat} {s : State} (hn : n < 1024) (hc : c < 32) (more : lookupD 0 c (getStack s n).scrubAt ≠ 524288) : endLap s = s := by
  have open_ : lapDone s ≠ true := by
    rw [lapDone, Ne, List.all_eq_true]
    intro done
    have all := List.all_eq_true.1 (done n (List.mem_range.2 hn)) c (List.mem_range.2 hc)
    exact more (eq_of_beq all)
  rw [endLap, if_neg open_]

theorem exec_scrub_of_more {n c : Nat} {s : State} (hn : n < 1024) (hc : c < 32) (serves : (getStack s n).thermal ≠ .quiesced)
    (more : lookupD 0 c (getStack s n).scrubAt < 524287) : ∃ t, exec (.scrub n c .ok) s = .next t ∧
      lookupD 0 c (getStack t n).scrubAt = lookupD 0 c (getStack s n).scrubAt + 1 := by
  generalize row : lookupD 0 c (getStack s n).scrubAt = r at more ⊢
  have runs : exec (.scrub n c .ok) s = .next (endLap (setStack n { getStack s n with scrubAt := upsert c (r + 1) (getStack s n).scrubAt }
      { s with near := { s.near with lapStart := startOf s s.near.lapStart } })) := by
    change execScrub n c .ok s = _
    rw [execScrub]
    dsimp only
    rw [row, if_neg]
    · rfl
    · simp only [Bool.or_eq_true, beq_iff_eq, decide_eq_true_eq, serves, false_or]
      omega
  have at_ : lookupD 0 c (getStack (setStack n { getStack s n with scrubAt := upsert c (r + 1) (getStack s n).scrubAt }
      { s with near := { s.near with lapStart := startOf s s.near.lapStart } }) n).scrubAt = r + 1 := by
    rw [getStack_setStack_self]
    exact lookupD_upsert_self ..
  exact ⟨_, runs, by rw [endLap_of_channel hn hc (by rw [at_]; omega), at_]⟩

theorem endRimLap_of_capstan {k : Nat} {s : State} (low : k < 32) (works : (getCapstan s k).failed = false) (more : (getCapstan s k).scrubAt ≠ rimUnits) :
    endRimLap s = s := by
  refine if_neg fun done => more ?_
  have all := List.all_eq_true.1 done k (List.mem_range.2 low)
  simpa [works] using all

theorem rimStarve_capstan (k : Nat) (s : State) : getCapstan (rimStarve s) k = getCapstan s k := by
  unfold rimStarve
  split
  · exact getCapstan_of_cap (post_frame _ _ _ .cap (by decide)) k
  · rfl

theorem rimStep_of_ok {k row : Nat} {s : State} (low : k < 32) (works : (getCapstan s k).failed = false) (built : (getCapstan s k).rebuilding = false)
    (serves : (getCapstan s k).rimThermal ≠ .quiesced) (more : (getCapstan s k).scrubAt + 1 < rimUnits) :
    (getCapstan (rimStep k row .ok s) k).scrubAt = (getCapstan s k).scrubAt + 1 := by
  have reads : rimStep k row .ok s = endRimLap (setCapstan k { getCapstan s k with scrubAt := (getCapstan s k).scrubAt + 1 }
      { s with cap := { s.cap with rimLapStart := startOf s s.cap.rimLapStart } }) := by
    refine if_neg ?_
    simp only [works, built, serves, Bool.false_or, Bool.or_eq_true, beq_iff_eq, decide_eq_true_eq, false_or]
    omega
  rw [reads, endRimLap_of_capstan low (by rw [getCapstan_setCapstan_self]; exact works), getCapstan_setCapstan_self]
  rw [getCapstan_setCapstan_self]
  exact ne_of_lt more

/-- Settles O59, one event after another: each condition holds, and the state it leads to holds what the event has read. -/
theorem stackEventsComplete : Obligations.StackEventsComplete := by
  refine ⟨fun slot s moves start turn edge => ?_, fun n c a b v s slot turn serves due first ha hb hv => ?_, fun n c s => ?_,
    fun n c s hn hc serves more => exec_scrub_of_more hn hc serves more, fun s first late => ?_, fun n l s length => ?_, fun k row s low works built serves more => ?_⟩
  · exact ⟨_, if_pos (by simp [moves, start, turn, edge]), rfl⟩
  · refine ⟨_, exec_calibrationSlot_of_good slot turn serves due first ha hb hv, ?_⟩
    rw [getStack_setStack_self]
    exact ⟨rfl, rfl, lookup_upsert_self ..⟩
  · refine ⟨_, (rfl : exec (.refresh n c false) s = .next (setStack n _ s)), ?_⟩
    rw [getStack_setStack_self]
    exact lookupD_upsert_self ..
  · exact if_pos (by simp [first, late])
  · have runs : exec (.nsThermal n false l l) s = .next (resumeAccess (stackThermal n (heldReadings (getStack s n).sensors l l) s)) := rfl
    rw [heldReadings_same] at runs
    obtain ⟨sensors, temp⟩ := stackThermal_readings n l s
    have mem := highest_mem (l := l) (by rintro rfl; simp at length)
    exact ⟨_, runs, sensors, by rw [temp]; exact mem⟩
  · exact ⟨_, rfl, by rw [rimStarve_capstan, rimStep_of_ok low works built serves more]⟩

end Sys2Proof.Machine
end

section
/-! SUPPORT. A crossing that times out (R45 to R47). -/

namespace Sys2Proof.Machine

/-- What becomes of XING_STATUS and of the closed crossings where events are logged: a pulse of their interrupts may be lost and counted, nothing else. -/
structure XingGoesOn (s t : State) : Prop where
  closed : t.xing.closed = s.xing.closed
  timeout : s.xing.timeout = true → t.xing.timeout = true
  first : s.xing.timeout = true ∨ s.xing.overrun = true →
    (t.xing.timeout = true ∨ t.xing.overrun = true) ∧ t.xing.src = s.xing.src ∧ t.xing.dst = s.xing.dst
  count : min s.xing.count 65535 ≤ t.xing.count
  calm : Calm s → t.xing = s.xing

theorem XingGoesOn.of_xing {s t : State} (h : t.xing = s.xing) : XingGoesOn s t where
  closed := congrArg Xing.closed h
  timeout := fun k => (congrArg Xing.timeout h).trans k
  first := fun k => ⟨by rwa [h], by rw [h], by rw [h]⟩
  count := by rw [h]; omega
  calm := fun _ => h

theorem XingGoesOn.refl (s : State) : XingGoesOn s s := .of_xing rfl

theorem XingGoesOn.trans {s t u : State} (h : XingGoesOn s t) (k : XingGoesOn t u) : XingGoesOn s u where
  closed := k.closed.trans h.closed
  timeout := fun x => k.timeout (h.timeout x)
  first := fun x => by
    obtain ⟨stands, src, dst⟩ := h.first x
    obtain ⟨stands', src', dst'⟩ := k.first stands
    exact ⟨stands', src'.trans src, dst'.trans dst⟩
  count := by
    have a := h.count
    have b := k.count
    omega
  calm := fun x => by
    have same := h.calm x
    exact (k.calm (by rw [Calm, same]; exact x)).trans same

theorem XingGoesOn.foldl {α : Type} {f : State → α → State} (h : ∀ s x, XingGoesOn s (f s x)) : ∀ (l : List α) (s : State), XingGoesOn s (l.foldl f s) := by
  intro l
  induction l with
  | nil => exact .refl
  | cons x l ih => exact fun s => (h s x).trans (ih _)

theorem xingNote_goesOn {s : State} (busy : ¬Calm s) (play : W32) (src dst : Nat) (timeout : Bool) : XingGoesOn s (xingNote play src dst timeout s) where
  closed := rfl
  timeout := fun x => by
    change (s.xing.timeout || timeout) = true
    rw [x, Bool.true_or]
  first := fun x => by
    refine ⟨?_, ?_⟩
    · rcases x with x | x
      · exact .inl (by change (s.xing.timeout || timeout) = true; rw [x, Bool.true_or])
      · exact .inr (by change (s.xing.overrun || !timeout) = true; rw [x, Bool.true_or])
    · have later : (!s.xing.timeout && !s.xing.overrun) = false := by rcases x with x | x <;> simp [x]
      exact ⟨if_neg (by simp [later]), if_neg (by simp [later])⟩
  count := by
    change min s.xing.count 65535 ≤ min (s.xing.count + 1) (2 ^ 16 - 1)
    omega
  calm := fun x => absurd x busy

theorem sendMsi_goesOn (port : Nat) (v : Byte) (s : State) : XingGoesOn s (sendMsi port v s) := by
  unfold sendMsi
  extract_lets p
  split
  · exact .refl s
  split
  · exact .of_xing rfl
  split
  · exact .of_xing rfl
  next busy =>
    have busy : ¬Calm s := by simpa [Calm] using busy
    split
    · exact ⟨rfl, id, fun x => ⟨x, rfl, rfl⟩, Nat.min_le_left .., fun x => absurd x busy⟩
    · exact (xingNote_goesOn busy 0 12 14 false).trans (.of_xing (logEvent_xing ..))

theorem postFull_goesOn (code origin : Nat) (unit play step : W32) (d : List Byte) (s : State) : XingGoesOn s (postFull code origin unit play step d s) := by
  have logged : XingGoesOn s (logEvent code origin unit play step d s) := .of_xing (logEvent_xing ..)
  unfold postFull
  extract_lets u
  split
  · have sent := sendMsi_goesOn (b2n u.host.evtPort) u.host.evtVector { u with host := { u.host with evtSent := true } }
    exact logged.trans (XingGoesOn.trans (t := { u with host := { u.host with evtSent := true } }) (.of_xing rfl) sent)
  · exact logged

theorem record_goesOn (cls action result origin : Nat) (unit logical play step : W32) (d : List Byte) (s : State) :
    XingGoesOn s (record cls action result origin unit logical play step d s) := by
  unfold record
  extract_lets u
  refine XingGoesOn.trans (t := u) ?_ (.of_xing rfl)
  unfold u
  split
  · exact postFull_goesOn ..
  · exact .refl s

theorem faultPlay_goesOn (order cls : Nat) (at_ : Nat × Nat × Nat) (s : State) : XingGoesOn s (faultPlay order cls at_ s) := by
  unfold faultPlay
  split
  · exact .refl s
  split
  · exact XingGoesOn.trans (t := setPlay (stopPlay _) s) (.of_xing rfl) (postFull_goesOn ..)
  · exact .of_xing rfl

theorem losePacket_goesOn (cls : Nat) (x : Source × MeshItem) (s : State) : XingGoesOn s (losePacket cls x s) := by
  have noted : XingGoesOn s (noteLost x s) := .of_xing (noteLost_frame x s .xing (by decide))
  have step (n : W32) (u : State) : XingGoesOn u (faultStep n u) := .of_xing (faultStep_frame n u .xing (by decide))
  unfold losePacket
  extract_lets u play
  split
  · split
    · exact noted.trans (faultPlay_goesOn ..)
    · exact noted.trans (step ..)
  · split
    · exact noted.trans (faultPlay_goesOn ..)
    · exact noted
  · split
    · exact noted.trans (step ..)
    · exact noted

theorem faultCrossing_goesOn (a b : Nat) (s : State) : XingGoesOn s (faultCrossing a b s) := by
  refine XingGoesOn.foldl (fun u p => ?_) s.plays s
  split
  · exact .refl u
  split
  · exact faultPlay_goesOn ..
  split
  · exact faultPlay_goesOn ..
  · exact .refl u

theorem dropCrossing_goesOn (a b : Nat) (s : State) : XingGoesOn s (dropCrossing a b s) :=
  XingGoesOn.trans (t := { s with mesh := s.mesh.filter fun x => !onCrossing a b x }) (.of_xing rfl) (XingGoesOn.foldl (fun u x => losePacket_goesOn 15 x u) _ _)

/-- Nothing that had to pass the crossing stands on the mesh any more. -/
theorem dropCrossing_mesh (a b : Nat) (s : State) : (dropCrossing a b s).mesh = s.mesh.filter fun x => !onCrossing a b x := by
  suffices go : ∀ (l : List (Source × MeshItem)) (u : State), (l.foldl (fun s x => losePacket 15 x s) u).mesh = u.mesh from go _ _
  intro l
  induction l with
  | nil => exact fun _ => rfl
  | cons x l ih => exact fun u => (ih _).trans (losePacket_frame 15 x u .mesh (by decide))

/-- The crossing from a to b refuses transfers from now on. -/
def closeCrossing (a b : Nat) (s : State) : State :=
  { s with xing := { s.xing with closed := if s.xing.closed.contains (a, b) then s.xing.closed else s.xing.closed ++ [(a, b)] } }

theorem exec_crossingTimeout (a b : Nat) (s : State) :
    exec (.crossingTimeout a b) s = .next (dropCrossing a b (faultCrossing a b (closeCrossing a b (xingRecord a b true s)))) := rfl

theorem mem_closeCrossing (a b : Nat) (s : State) : (a, b) ∈ (closeCrossing a b s).xing.closed ∧ ∀ x ∈ s.xing.closed, x ∈ (closeCrossing a b s).xing.closed := by
  by_cases stands : (a, b) ∈ s.xing.closed
  · have same : (closeCrossing a b s).xing.closed = s.xing.closed := if_pos (by simpa using stands)
    rw [same]
    exact ⟨stands, fun _ => id⟩
  · have more : (closeCrossing a b s).xing.closed = s.xing.closed ++ [(a, b)] := if_neg (by simpa using stands)
    rw [more]
    exact ⟨by simp, fun _ => List.mem_append_left _⟩

theorem xingClosed_iff {a b : Nat} {s : State} : xingClosed s a b = true ↔ (a, b) ∈ s.xing.closed ∨ (b, a) ∈ s.xing.closed := by
  simp [xingClosed]

theorem claim_crossingTimeoutClosesCrossing : Claim.CrossingTimeoutClosesCrossing := by
  intro a b s
  refine ⟨_, exec_crossingTimeout a b s, ?_⟩
  have noted : XingGoesOn (xingNote 0 a b true s) (xingRecord a b true s) := postFull_goesOn ..
  have rest : OnlyChanges [.host, .xing, .store] s (xingRecord a b true s) := xingRecord_frame a b true s
  generalize xingRecord a b true s = u at *
  have closes := mem_closeCrossing a b u
  have closing : (closeCrossing a b u).xing = { u.xing with closed := (closeCrossing a b u).xing.closed } := rfl
  have rest' : OnlyChanges [.host, .xing, .store] s (closeCrossing a b u) := only_xing rest _ (by decide)
  generalize closeCrossing a b u = v at *
  have faulted := faultCrossing_frame a b v
  have mesh := (dropCrossing_mesh a b (faultCrossing a b v)).trans (congrArg _ (faulted .mesh (by decide)))
  have on := (faultCrossing_goesOn a b v).trans (dropCrossing_goesOn a b _)
  have frame := (rest'.mono (m := [.cap, .host, .xing, .plays, .mesh, .exchanges, .store]) (by decide)).trans
    ((faulted.mono (by decide)).trans (dropCrossing_frame a b _))
  generalize dropCrossing a b (faultCrossing a b v) = t at *
  have inOrder : ∀ x ∈ s.xing.closed, x ∈ t.xing.closed := fun x hx => on.closed ▸ closes.2 x (noted.closed ▸ hx)
  refine ⟨on.timeout (by rw [closing]; exact noted.timeout (Bool.or_true _)), fun calm => ?_, ?_, xingClosed_iff.2 (.inl (on.closed ▸ closes.1)),
    fun c d shut => xingClosed_iff.2 ((xingClosed_iff.1 shut).imp (inOrder _) (inOrder _)), fun h k => ?_, fun stands => ?_, fun x hx => ?_,
    frame .mem (by decide), frame .knots (by decide)⟩
  · have same := noted.calm calm
    have same' := on.calm (by rw [Calm, closing, same]; exact calm)
    rw [same', closing, same]
    exact ⟨Bool.or_false _, rfl⟩
  · have a := noted.count
    have b := on.count
    rw [closing] at b
    change min (min (s.xing.count + 1) (2 ^ 16 - 1)) 65535 ≤ _ at a
    change min u.xing.count 65535 ≤ _ at b
    omega
  · have new : (!s.xing.timeout && !s.xing.overrun) = true := by rw [h, k]; rfl
    obtain ⟨stands, src, dst⟩ := noted.first (.inl (Bool.or_true _))
    obtain ⟨-, src', dst'⟩ := on.first (by rw [closing]; exact stands)
    exact ⟨src'.trans ((congrArg Xing.src closing).trans (src.trans (if_pos new))), dst'.trans ((congrArg Xing.dst closing).trans (dst.trans (if_pos new)))⟩
  · have old : (!s.xing.timeout && !s.xing.overrun) = false := by rcases stands with x | x <;> simp [x]
    obtain ⟨stands, src, dst⟩ := noted.first (.inl (Bool.or_true _))
    obtain ⟨-, src', dst'⟩ := on.first (by rw [closing]; exact stands)
    exact ⟨src'.trans ((congrArg Xing.src closing).trans (src.trans (if_neg (by simp [old])))),
      dst'.trans ((congrArg Xing.dst closing).trans (dst.trans (if_neg (by simp [old]))))⟩
  · rw [mesh] at hx
    obtain ⟨mem, off⟩ := List.mem_filter.1 hx
    exact ⟨(rest' .mesh (by decide) : v.mesh = s.mesh) ▸ mem, by simpa using off⟩

end Sys2Proof.Machine
end

section
/-! SUPPORT. Tiles, supplies and control complexes fail over (R469 to R478). -/

namespace Sys2Proof.Machine

/-! ### Self-test (R469) -/

theorem mem_requestSplice {u v : Nat} {s : State} : v ∈ (requestSplice u s).rel.spliceReq ↔ v ∈ s.rel.spliceReq ∨ v = u := by
  unfold requestSplice
  split
  next stands => exact ⟨.inl, fun h => h.elim id fun same => by rw [same]; simpa using stands⟩
  · exact List.mem_cons.trans or_comm

theorem requestSplice_rel (u : Nat) (s : State) : (requestSplice u s).rel = { s.rel with spliceReq := (requestSplice u s).rel.spliceReq } := by
  unfold requestSplice
  split
  · rfl
  · rfl

/-- Two states' reliability parts differ in the requested splices at most. -/
def AsksSplices (s t : State) : Prop := t.rel = { s.rel with spliceReq := t.rel.spliceReq, wearReq := t.rel.wearReq }

theorem AsksSplices.trans {s t u : State} (h : AsksSplices s t) (k : AsksSplices t u) : AsksSplices s u := by
  unfold AsksSplices at *
  rw [h] at k
  exact k

theorem testFails_done (f r : Nat) (s : State) (c : Nat) : AsksSplices s (testFails f r s c) ∧ HostSame s (testFails f r s c) ∧
    OnlyChanges [.rel, .store, .host, .xing] s (testFails f r s c) ∧
    (∀ u, u ∈ (testFails f r s c).rel.spliceReq ↔ u ∈ s.rel.spliceReq ∨ u = physId f r c) ∧ Records (suspectClass s (physId f r c)) s (testFails f r s c) := by
  have recorded := records_record (s := s) rfl id (suspectClass s (physId f r c)) 10 1 3 (unitOf 0 (physId f r c)) 0xFFFFFFFF 0 0 []
  have rel := record_rel (suspectClass s (physId f r c)) 10 1 3 (unitOf 0 (physId f r c)) 0xFFFFFFFF 0 0 [] s
  have host := record_same (suspectClass s (physId f r c)) 10 1 3 (unitOf 0 (physId f r c)) 0xFFFFFFFF 0 0 [] s
  have same : testFails f r s c =
    requestFailed (physId f r c) (record (suspectClass s (physId f r c)) 10 1 3 (unitOf 0 (physId f r c)) 0xFFFFFFFF 0 0 [] s) := rfl
  have frame := (testFails_frame f r s c).mono (m := [.rel, .store, .host, .xing]) (by decide)
  rw [same] at frame ⊢
  generalize record (suspectClass s (physId f r c)) 10 1 3 (unitOf 0 (physId f r c)) 0xFFFFFFFF 0 0 [] s = u at *
  rw [requestFailed] at frame ⊢
  have asked := requestSplice_rel (physId f r c) { u with rel := { u.rel with wearReq := u.rel.wearReq.filter (· != physId f r c) } }
  have kept := requestSplice_frame (physId f r c) { u with rel := { u.rel with wearReq := u.rel.wearReq.filter (· != physId f r c) } }
  refine ⟨?_, host.trans (.of_host (kept .host (by decide))), frame, fun v => mem_requestSplice.trans (by rw [rel]), ?_⟩
  · rw [AsksSplices, asked, ← rel]
  · obtain ⟨x, l, ledger, rest⟩ := recorded
    exact ⟨x, l, (congrArg Store.ledger (kept .store (by decide)) :).trans ledger, rest⟩

theorem testFails_foldl (f r : Nat) : ∀ (l : List Nat) (s : State), AsksSplices s (l.foldl (testFails f r) s) ∧ HostSame s (l.foldl (testFails f r) s) ∧
    OnlyChanges [.rel, .store, .host, .xing] s (l.foldl (testFails f r) s) ∧
    ∀ u, u ∈ (l.foldl (testFails f r) s).rel.spliceReq ↔ u ∈ s.rel.spliceReq ∨ ∃ c ∈ l, u = physId f r c := by
  intro l
  induction l with
  | nil => exact fun s => ⟨rfl, rfl, .refl _ s, fun u => by simp⟩
  | cons c l ih =>
    intro s
    obtain ⟨asks, host, frame, mem, -⟩ := testFails_done f r s c
    obtain ⟨asks', host', frame', mem'⟩ := ih (testFails f r s c)
    refine ⟨asks.trans asks', host.trans host', frame.trans frame', fun u => (mem' u).trans ?_⟩
    rw [mem u, List.exists_mem_cons_iff, or_assoc]

/-- The columns that a self-test fails: suspect tiles in service. -/
def failedColumns (f r : Nat) (bad : List Nat) (s : State) : List Nat :=
  bad.filter fun c => decide (c ≤ 16) && isSuspect s (physId f r c) && !s.store.badTiles.contains (physId f r c)

/-- The request of a row's self-test ends. -/
def testBegins (f r : Nat) (s : State) : State := { s with rel := { s.rel with selfTest := s.rel.selfTest.filter (· != f * 16 + r) } }

theorem exec_selfTest_of_asked {f r : Nat} {s : State} (asked : f * 16 + r ∈ s.rel.selfTest) (idle : rowIdle s f r = true) (bad : List Nat) :
    exec (.selfTest f r bad) s = .next ((failedColumns f r bad s).foldl (testFails f r) (testBegins f r s)) :=
  if_pos (by simp [asked, idle])

theorem isSuspect_iff {s : State} {u : Nat} : isSuspect s u = true ↔
    (∃ x ∈ s.rel.suspects, x.unit = u) ∧ ∃ y ∈ s.rel.suspects, y.unit / 32 = u / 32 ∧ ctTurn s.cad.ct < y.turn + 4096 := by
  simp [isSuspect, rowSuspected]

theorem claim_rowsAreSelfTested : Claim.RowsAreSelfTested := by
  intro f r bad s
  refine ⟨fun stays => if_neg ?_, fun asked idle => ⟨_, exec_selfTest_of_asked asked idle bad, ?_⟩⟩
  · rcases stays with h | h <;> simp [h]
  obtain ⟨asks, host, frame, mem⟩ := testFails_foldl f r (failedColumns f r bad s) (testBegins f r s)
  have begins : OnlyChanges [.rel, .store, .host, .xing] s (testBegins f r s) := only_rel (.refl _ s) _ (by decide)
  refine ⟨congrArg Rel.selfTest asks, fun u => (mem u).trans (or_congr_right ?_), ?_, host, begins.trans frame, fun none => ?_, fun c one low suspect serves => ?_⟩
  · simp only [failedColumns, List.mem_filter, Bool.and_eq_true, decide_eq_true_eq, isSuspect_iff, Bool.not_eq_true', List.contains_eq_mem,
      decide_eq_false_iff_not, and_assoc]
    constructor
    · rintro ⟨c, hc, low, known, lately, serves, rfl⟩
      exact ⟨c, hc, low, rfl, serves, known, lately⟩
    · rintro ⟨c, hc, low, rfl, serves, known, lately⟩
      exact ⟨c, hc, low, known, lately, serves, rfl⟩
  · rw [AsksSplices] at asks
    rw [asks]
    rfl
  · subst none
    exact ⟨rfl, rfl⟩
  · subst one
    have only : failedColumns f r [c] s = [c] := by simp [failedColumns, low, suspect, serves]
    rw [only]
    exact (testFails_done f r (testBegins f r s) c).2.2.2.2

/-! ### Tile splices (R471 to R473) -/

theorem mem_addBadTile (u : Nat) (s : State) : u ∈ (addBadTile u s).store.badTiles ∧ (addBadTile u s).store.ledger = s.store.ledger := by
  unfold addBadTile
  split
  next stands => exact ⟨by simpa using stands, rfl⟩
  · exact ⟨List.mem_cons_self, rfl⟩

/-- A row's spare is gone from the tally. -/
theorem spareTile_clearTally (f : Nat) {r : Nat} (low : r < 16) (s : State) : spareTile (clearTally f r s) f r = false := by
  rw [spareTile, clearTally, getField_adjField_self]
  simp [low]

theorem spareTile_of_fields {s t : State} (h : t.fields = s.fields) (f r : Nat) : spareTile t f r = spareTile s f r := by
  rw [spareTile, getField_of_fields h, spareTile]

/-- The requests of a splice end. -/
def spliceDone (u : Nat) (s : State) : State :=
  { s with rel := { s.rel with spliceReq := s.rel.spliceReq.filter (· != u), wearReq := s.rel.wearReq.filter (· != u) } }

theorem spliceDone_rest (u : Nat) (s : State) : u ∉ (spliceDone u s).rel.spliceReq ∧ OnlyChanges [.rel] s (spliceDone u s) :=
  ⟨by simp [spliceDone], only_rel (.refl _ s) _ (by decide)⟩

section
variable {f r c : Nat} {s : State} (readable : Bool) (asked : physId f r c ∈ s.rel.spliceReq)
include asked

theorem exec_tileSplice_of_busy (spare : spareTile s f r = true) (tile : c < 16) (busy : rowIdle s f r = false) :
    exec (.tileSplice f r c readable) s = .next s := by
  change execTileSplice f r c readable s = _
  rw [execTileSplice]
  dsimp only
  rw [if_neg (by simp [asked]), if_pos spare, if_neg (ne_of_lt tile), if_neg (by simp [busy])]

theorem exec_tileSplice_of_idle (spare : spareTile s f r = true) (tile : c < 16) (idle : rowIdle s f r = true) :
    exec (.tileSplice f r c readable) s = .next (spliceDone (physId f r c) (spliceRow f r c readable s)) := by
  change execTileSplice f r c readable s = _
  rw [execTileSplice]
  dsimp only
  rw [if_neg (by simp [asked]), if_pos spare, if_neg (ne_of_lt tile), if_pos idle]
  rfl

theorem exec_tileSplice_of_spare (spare : spareTile s f r = true) (tile : c = 16) :
    exec (.tileSplice f r c readable) s = .next (spliceDone (physId f r c) (record (suspectClass s (physId f r c)) 6 0 3 (unitOf 0 (physId f r c))
      0xFFFFFFFF 0 0 [] (clearTally f r (addBadTile (physId f r c) (journalRecord s))))) := by
  change execTileSplice f r c readable s = _
  rw [execTileSplice]
  dsimp only
  rw [if_neg (by simp [asked]), if_pos spare, if_pos tile]
  rfl

theorem exec_tileSplice_of_worn (gone : spareTile s f r = false) (worn : physId f r c ∈ s.rel.wearReq) :
    exec (.tileSplice f r c readable) s = .next (spliceDone (physId f r c) s) := by
  change execTileSplice f r c readable s = _
  rw [execTileSplice]
  dsimp only
  rw [if_neg (by simp [asked]), if_neg (by simp [gone]), if_pos (by simp [worn])]
  rfl

theorem exec_tileSplice_of_noSpare (gone : spareTile s f r = false) (fails : physId f r c ∉ s.rel.wearReq) :
    exec (.tileSplice f r c readable) s = .next (spliceDone (physId f r c) (noSpare f r (physId f r c) s)) := by
  change execTileSplice f r c readable s = _
  rw [execTileSplice]
  dsimp only
  rw [if_neg (by simp [asked]), if_neg (by simp [gone]), if_neg (by simp [fails])]
  rfl

end

/-! ### The splice of a row -/

/-- What a list keeps of its newest does not depend on what it had dropped before. -/
theorem take_append_take {α : Type} (a b : List α) (n : Nat) : (a ++ b.take n).take n = (a ++ b).take n := by
  induction a with
  | nil => simp
  | cons x a ih =>
    rw [List.cons_append, ← take_cons_take, ih, take_cons_take]
    rfl

theorem lookup_filter_key_kept {β : Type} {test : Nat → Bool} {j : Nat} (kept : test j = true) (t : Table β) :
    lookup j (t.filter fun x => test x.1) = lookup j t := by
  induction t with
  | nil => rfl
  | cons x t ih =>
    obtain ⟨key, v⟩ := x
    rw [List.filter_cons]
    by_cases same : j = key
    · subst same
      rw [if_pos kept, lookup, lookup, if_pos rfl, if_pos rfl]
    · rw [lookup, if_neg same]
      split
      · rw [lookup, if_neg same, ih]
      · exact ih

/-- Whether an address is in the store of a tile. -/
theorem memKey_tileAddr {L i : Nat} (s : State) : memKey s (tileAddr L 0 + i) = some (tileAddr L 0 + i) :=
  memKey_of_far (by simp only [tileAddr, tileBase, nearEnd]; omega) s

/-- The store of a zeroed tile reads 0, and no other byte has changed. -/
theorem zeroTile_bytes (L : Nat) (s : State) : (∀ i < 2 ^ 23, readByte (zeroTile L s) (tileAddr L 0 + i) = 0) ∧
    KeepsBytes [(tileAddr L 0, 2 ^ 23)] s (zeroTile L s) := by
  have next : tileAddr (L + 1) 0 = tileAddr L 0 + 2 ^ 23 := by simp only [tileAddr]; omega
  have regions (a : Nat) : memKey (zeroTile L s) a = memKey s a := memKey_of_frame (zeroTile_frame L s) (by decide) a
  constructor
  · intro i low
    rw [readByte, memKey_tileAddr]
    exact congrArg (fun o => Option.getD o 0) (lookup_filter_key_none
      (test := fun x => !(decide (tileAddr L 0 ≤ x) && decide (x < tileAddr (L + 1) 0))) (by simp [next]; omega) s.mem)
  · intro a apart
    rw [readByte, readByte, regions]
    cases key : memKey s a with
    | none => rfl
    | some k =>
      refine congrArg (fun o => Option.getD o 0) (lookup_filter_key_kept
        (test := fun x => !(decide (tileAddr L 0 ≤ x) && decide (x < tileAddr (L + 1) 0))) ?_ s.mem)
      by_contra inside
      simp only [Bool.not_eq_true', Bool.and_eq_false_iff, decide_eq_false_iff_not, not_or, not_not, next] at inside
      obtain ⟨above, below⟩ := inside
      refine apart _ List.mem_cons_self (k - tileAddr L 0) (by omega) ?_
      rw [key, memKey_tileAddr]
      exact congrArg some (by omega)

/-- The weight banks over a row are invalid. -/
theorem invalidateRow_parts (f r : Nat) (s : State) : ∀ p ∈ (invalidateRow f r s).parts, ∀ x ∈ tilesOf p.org p.shape,
    tileField x = f → tileRow x = r → p.active = none ∧ p.shadow = none := by
  intro p hp x hx field row
  obtain ⟨q, -, rfl⟩ := List.mem_map.1 hp
  by_cases over_ : ((tilesOf q.org q.shape).any fun t => tileField t == f && tileRow t == r) = true
  · rw [if_pos over_]
    exact ⟨rfl, rfl⟩
  · rw [if_neg over_] at hx
    exact absurd (List.any_eq_true.2 ⟨x, hx, by simp [field, row]⟩) over_

/-- What a splice finds of the store of the tile: where it cannot be read it is zero, and the open step is FAULTED. -/
def spliceStart (L : Nat) (readable : Bool) (s : State) : State :=
  if readable then s else zeroTile L { s with cap := { s.cap with stepFaulted := true } }

/-- The map of a row that was spliced at a column; the row's line caches start empty. -/
def mapRow (f r c : Nat) (s : State) : State :=
  { s with
    rel := { s.rel with splices := upsert (f * 16 + r) c s.rel.splices }
    caches := s.caches.filter fun x => !(tileField x.1 == f && tileRow x.1 == r) }

theorem mapRow_frame (f r c : Nat) (s : State) : OnlyChanges [.rel, .caches] s (mapRow f r c s) := by
  have map : OnlyChanges [.rel, .caches] s { s with rel := { s.rel with splices := upsert (f * 16 + r) c s.rel.splices } } :=
    only_rel (.refl _ s) _ (by decide)
  exact only_caches map _ (by decide)

/-- The maps of a row after its splice, before its event and record. -/
def splicedMaps (f r c : Nat) (readable : Bool) (s : State) : State :=
  invalidateRow f r (clearTally f r (addBadTile (physId f r c) (mapRow f r c (spliceStart (mkTile f r c) readable s))))

theorem spliceRow_eq (f r c : Nat) (readable : Bool) (s : State) : spliceRow f r c readable s =
    record (suspectClass (splicedMaps f r c readable s) (physId f r c)) 6 0 3 (unitOf 0 (physId f r c)) (BitVec.ofNat 32 (mkTile f r c)) 0 0 []
      (postFull Ev.tileSplice 3 (unitOf 0 (physId f r c)) 0 0 [] (journalRecord (splicedMaps f r c readable s))) := rfl

theorem spliceStart_frame (L : Nat) (readable : Bool) (s : State) : OnlyChanges [.cap, .mem, .knots] s (spliceStart L readable s) := by
  unfold spliceStart
  split
  · exact .refl _ s
  · exact (only_cap (.refl _ s) _ (by decide)).trans ((zeroTile_frame L _).mono (by decide))

theorem splicedMaps_done (f c : Nat) {r : Nat} (low : r < 16) (readable : Bool) (s : State) :
    let t := splicedMaps f r c readable s
    t.rel = { s.rel with splices := upsert (f * 16 + r) c s.rel.splices } ∧ physId f r c ∈ t.store.badTiles ∧ t.store.ledger = s.store.ledger ∧
      spareTile t f r = false ∧
      (∀ p ∈ t.parts, ∀ x ∈ tilesOf p.org p.shape, tileField x = f → tileRow x = r → p.active = none ∧ p.shadow = none) ∧
      OnlyChanges [.rel, .store, .fields, .parts, .caches] (spliceStart (mkTile f r c) readable s) t := by
  have start := spliceStart_frame (mkTile f r c) readable s
  intro t
  have same : t = splicedMaps f r c readable s := rfl
  clear_value t
  rw [splicedMaps] at same
  generalize spliceStart (mkTile f r c) readable s = u at *
  have rel : u.rel = s.rel := start .rel (by decide)
  have frame := mapRow_frame f r c u
  have store : (mapRow f r c u).store = s.store := (frame .store (by decide)).trans (start .store (by decide))
  have rel' : (mapRow f r c u).rel = { s.rel with splices := upsert (f * 16 + r) c s.rel.splices } := by rw [← rel]; rfl
  generalize mapRow f r c u = v at *
  obtain ⟨bad, ledger⟩ := mem_addBadTile (physId f r c) v
  have bads := addBadTile_frame (physId f r c) v
  generalize addBadTile (physId f r c) v = w at *
  have tally := clearTally_frame f r w
  have gone := spareTile_clearTally f low w
  generalize clearTally f r w = x at *
  have banks := invalidateRow_frame f r x
  have parts := invalidateRow_parts f r x
  rw [← same] at banks parts
  have tail : OnlyChanges [.store, .fields, .parts] v t := (bads.mono (by decide)).trans ((tally.mono (by decide)).trans (banks.mono (by decide)))
  have late : OnlyChanges [.fields, .parts] w t := (tally.mono (by decide)).trans (banks.mono (by decide))
  have held : t.store = w.store := late .store (by decide)
  exact ⟨(tail .rel (by decide)).trans rel', by rw [held]; exact bad, by rw [held, ledger, store], by rw [spareTile_of_fields (banks .fields (by decide))]; exact gone,
    parts, (frame.mono (by decide)).trans (tail.mono (by decide))⟩

/-- A record above an event keeps its place, and the record of the event's pulse, lost on its way, its own. -/
theorem Records.of_postFull {cls code origin : Nat} {unit play step : W32} {d : List Byte} {s u t : State}
    (h : Records cls (postFull code origin unit play step d u) t) (same : u.store.ledger = s.store.ledger) (calm : Calm s → Calm u) : Records cls s t := by
  obtain ⟨r, l, ledger, named, lost, none⟩ := h
  have grown : (postFull code origin unit play step d u).store.ledger = s.store.ledger ∨
      (¬Calm s ∧ ∃ r' : FaultRec, r'.cls = 16 ∧ (postFull code origin unit play step d u).store.ledger = (r' :: s.store.ledger).take 262144) := by
    rcases postFull_marks code origin unit play step d u with ⟨-, kept⟩ | ⟨busy, -, r', cls', more⟩
    · exact .inl (kept.trans same)
    · exact .inr ⟨fun k => busy (calm k), r', cls', by rw [more, same]⟩
  have serves (k : Calm s) : Calm (postFull code origin unit play step d u) := by
    rw [Calm, (postFull_calm code origin unit play step d u (calm k)).1]
    exact calm k
  rcases grown with kept | ⟨busy, r', cls', more⟩
  · exact ⟨r, l, by rw [ledger, kept], named, lost, fun k => none (serves k)⟩
  · refine ⟨r, l ++ [r'], ?_, named, fun x hx => ?_, fun k => absurd k busy⟩
    · rw [ledger, more, take_append_take (r :: l)]
      simp
    · rcases List.mem_append.1 hx with below | last
      · exact lost x below
      · rw [List.mem_singleton.1 last]
        exact cls'

/-- The events of a code with those of the record's class above it. -/
theorem events_record_postFull {code cls : Nat} {s u : State} (bu : u.bu = s.bu) (host : u.host = s.host) (origin : Nat) (unit play step : W32) (d : List Byte)
    (action result origin' : Nat) (unit' logical play' step' : W32) (d' : List Byte) (up : stageDone s 2 = true) : ∃ l e,
      (record cls action result origin' unit' logical play' step' d' (postFull code origin unit play step d u)).host.events =
        (l ++ e :: s.host.events).take 65536 ∧ e.code = code ∧ ∀ x ∈ l, x.code = Ev.xingFault ∨ classEvent cls = some x.code := by
  have upU : stageDone u 2 = true := by rwa [stageDone, bu]
  obtain ⟨l, e, events, coded, lost, -⟩ := raises_postFull code origin unit play step d u upU
  rw [host] at events
  have upV : stageDone (postFull code origin unit play step d u) 2 = true := by
    rwa [stageDone, show (postFull code origin unit play step d u).bu = u.bu from postFull_frame _ _ _ _ _ _ _ .bu (by decide)]
  generalize postFull code origin unit play step d u = v at *
  cases named : classEvent cls with
  | none =>
    refine ⟨l, e, ?_, coded, fun x hx => .inl (lost x hx)⟩
    rw [record, named]
    exact events
  | some code' =>
    obtain ⟨l', e', events', coded', lost', -⟩ := raises_record named action result origin' unit' logical play' step' d' v upV
    refine ⟨l' ++ e' :: l, e, ?_, coded, fun x hx => ?_⟩
    · rw [events', events, show l' ++ e' :: (l ++ e :: s.host.events).take 65536 = (l' ++ [e']) ++ (l ++ e :: s.host.events).take 65536 by simp, take_append_take]
      simp
    · rcases List.mem_append.1 hx with above | rest
      · exact .inl (lost' x above)
      · rcases List.mem_cons.1 rest with rfl | below
        · exact .inr (congrArg some coded'.symm)
        · exact .inl (lost x below)

/-- A row after its splice. -/
theorem spliceRow_done (f c : Nat) {r : Nat} (low : r < 16) (readable : Bool) (s : State) :
    let t := spliceRow f r c readable s
    lookup (f * 16 + r) t.rel.splices = some c ∧ physId f r c ∈ t.store.badTiles ∧ spareTile t f r = false ∧
      (∀ p ∈ t.parts, ∀ x ∈ tilesOf p.org p.shape, tileField x = f → tileRow x = r → p.active = none ∧ p.shadow = none) ∧
      (stageDone s 2 = true → ∃ l e, t.host.events = (l ++ e :: s.host.events).take 65536 ∧ e.code = Ev.tileSplice ∧
        ∀ x ∈ l, x.code = Ev.xingFault ∨ classEvent (suspectClass s (physId f r c)) = some x.code) ∧
      Records (suspectClass s (physId f r c)) s t ∧ HostSame s t ∧
      OnlyChanges [.rel, .store, .fields, .parts, .caches, .host, .xing] (spliceStart (mkTile f r c) readable s) t := by
  have start := spliceStart_frame (mkTile f r c) readable s
  obtain ⟨rel, bad, ledger, gone, banks, frame⟩ := splicedMaps_done f c low readable s
  intro t
  have eq : t = spliceRow f r c readable s := rfl
  clear_value t
  rw [spliceRow_eq] at eq
  have same : suspectClass (splicedMaps f r c readable s) (physId f r c) = suspectClass s (physId f r c) := by
    rw [suspectClass, rel, suspectClass]
  rw [same] at eq
  generalize splicedMaps f r c readable s = u at *
  generalize suspectClass s (physId f r c) = cls at *
  have journal := journalRecord_frame u
  have mapped : (journalRecord u).rel.splices = u.rel.splices := by
    unfold journalRecord
    split <;> rfl
  have whole := (start.mono (m := [.rel, .store, .fields, .parts, .caches, .cap, .mem, .knots]) (by decide)).trans
    ((frame.mono (by decide)).trans (journal.mono (by decide)))
  have store : (journalRecord u).store = u.store := journal .store (by decide)
  have fields : (journalRecord u).fields = u.fields := journal .fields (by decide)
  have parts : (journalRecord u).parts = u.parts := journal .parts (by decide)
  have frame' := frame.trans (journal.mono (by decide))
  generalize journalRecord u = v at *
  have posted := postFull_frame Ev.tileSplice 3 (unitOf 0 (physId f r c)) 0 0 [] v
  have recorded := record_frame cls 6 0 3 (unitOf 0 (physId f r c)) (BitVec.ofNat 32 (mkTile f r c)) 0 0 []
    (postFull Ev.tileSplice 3 (unitOf 0 (physId f r c)) 0 0 [] v)
  have tail : OnlyChanges [.host, .xing, .store] v t := by
    rw [eq]
    exact posted.trans recorded
  have bads := (mapGrows_postFull Ev.tileSplice 3 (unitOf 0 (physId f r c)) 0 0 [] v).trans
    (mapGrows_record cls 6 0 3 (unitOf 0 (physId f r c)) (BitVec.ofNat 32 (mkTile f r c)) 0 0 [] _)
  rw [← eq] at bads
  refine ⟨?_, bads.badTiles (by rw [store]; exact bad), ?_, ?_, fun up => ?_, ?_, (HostSame.of_host (whole .host (by decide))).trans bads.host,
    (frame'.mono (by decide)).trans (tail.mono (by decide))⟩
  · rw [show t.rel = v.rel from tail .rel (by decide), mapped, rel]
    exact lookup_upsert_self ..
  · rw [spareTile_of_fields (tail .fields (by decide)), spareTile_of_fields fields, gone]
  · rw [show t.parts = v.parts from tail .parts (by decide), parts]
    exact banks
  · rw [eq]
    exact events_record_postFull (whole .bu (by decide)) (whole .host (by decide)) _ _ _ _ _ _ _ _ _ _ _ _ _ up
  · have calm (k : Calm s) : Calm v := by rwa [Calm, show v.xing = s.xing from whole .xing (by decide)]
    rw [eq]
    exact (records_record rfl id ..).of_postFull (by rw [store, ledger]) calm

theorem spareFails_done (f : Nat) {r : Nat} (low : r < 16) (u : Nat) (s : State) :
    let t := record (suspectClass s u) 6 0 3 (unitOf 0 u) 0xFFFFFFFF 0 0 [] (clearTally f r (addBadTile u (journalRecord s)))
    u ∈ t.store.badTiles ∧ t.rel.splices = s.rel.splices ∧ spareTile t f r = false ∧ Records (suspectClass s u) s t ∧ HostSame s t ∧
      OnlyChanges [.rel, .store, .fields, .host, .xing] s t := by
  have journal := journalRecord_frame s
  have mapped : (journalRecord s).rel.splices = s.rel.splices := by
    unfold journalRecord
    split <;> rfl
  generalize journalRecord s = v at *
  obtain ⟨bad, ledger⟩ := mem_addBadTile u v
  have bads := addBadTile_frame u v
  generalize addBadTile u v = w at *
  have tally := clearTally_frame f r w
  have gone := spareTile_clearTally f low w
  generalize clearTally f r w = x at *
  have all := (journal.mono (m := [.rel, .store, .fields]) (by decide)).trans ((bads.mono (by decide)).trans (tally.mono (by decide)))
  have store : x.store = w.store := tally .store (by decide)
  intro t
  have eq : t = record (suspectClass s u) 6 0 3 (unitOf 0 u) 0xFFFFFFFF 0 0 [] x := rfl
  clear_value t
  have tail := record_frame (suspectClass s u) 6 0 3 (unitOf 0 u) 0xFFFFFFFF 0 0 [] x
  have grows := mapGrows_record (suspectClass s u) 6 0 3 (unitOf 0 u) 0xFFFFFFFF 0 0 [] x
  rw [← eq] at tail grows
  refine ⟨grows.badTiles (by rw [store]; exact bad), ?_, (spareTile_of_fields (tail .fields (by decide)) f r).trans gone, ?_,
    (HostSame.of_host (all .host (by decide))).trans grows.host, (all.mono (by decide)).trans (tail.mono (by decide))⟩
  · rw [show t.rel = x.rel from tail .rel (by decide), show x.rel = w.rel from tally .rel (by decide), show w.rel = v.rel from bads .rel (by decide), mapped]
  · rw [eq]
    refine records_record ?_ ?_ ..
    · rw [store, ledger]
      exact congrArg Store.ledger (journal .store (by decide))
    · rw [Calm, Calm, show x.xing = s.xing from all .xing (by decide)]
      exact id

theorem noSpare_done (f r : Nat) (u : Nat) (s : State) : let t := noSpare f r u s
    u ∈ t.store.badTiles ∧ t.rel = { s.rel with secondFault := true } ∧
      (getField t f).degradedRow = (getField s f).degradedRow ||| (1#16 <<< r) ∧ Records (suspectClass s u) s t ∧ HostSame s t := by
  have runs := spareRuns_frame f r s
  have bads := addBadTile_frame u (spareRuns f r s)
  obtain ⟨bad, ledger⟩ := mem_addBadTile u (spareRuns f r s)
  have grown := (runs.mono (m := [.plays, .store]) (by decide)).trans (bads.mono (by decide))
  intro t
  have eq : t = noSpare f r u s := rfl
  clear_value t
  rw [noSpare] at eq
  generalize addBadTile u (spareRuns f r s) = v at *
  have degraded := degradeRow_frame f r v
  have rel : (degradeRow f r v).rel = { v.rel with secondFault := true } := rfl
  have row : (getField (degradeRow f r v) f).degradedRow = (getField v f).degradedRow ||| (1#16 <<< r) := by
    rw [degradeRow, getField_adjField_self]
    rfl
  generalize degradeRow f r v = w at *
  generalize suspectClass s u = cls at *
  have all := (grown.mono (m := [.plays, .store, .fields, .rel]) (by decide)).trans (degraded.mono (by decide))
  have tail := record_frame cls 6 3 3 (unitOf 0 u) 0xFFFFFFFF 0 0 [] w
  have bads := mapGrows_record cls 6 3 3 (unitOf 0 u) 0xFFFFFFFF 0 0 [] w
  rw [← eq] at tail bads
  have store : w.store = v.store := degraded .store (by decide)
  refine ⟨bads.badTiles (by rw [store]; exact bad), ?_, ?_, ?_, (HostSame.of_host (all .host (by decide))).trans bads.host⟩
  · rw [show t.rel = w.rel from tail .rel (by decide), rel, show v.rel = s.rel from grown .rel (by decide)]
  · rw [getField_of_fields (tail .fields (by decide)), row, getField_of_fields (grown .fields (by decide))]
  · rw [eq]
    refine records_record ?_ ?_ ..
    · rw [store, ledger]
      exact congrArg Store.ledger (runs .store (by decide))
    · rw [Calm, Calm, show w.xing = s.xing from all .xing (by decide)]
      exact id

theorem claim_tilesAreSpliced : Claim.TilesAreSpliced := by
  intro f r c readable s hf hr hc u L
  refine ⟨fun unasked => if_pos (by simpa using unasked), exec_tileSplice_of_busy readable, fun asked spare tile idle => ?_, fun asked spare tile => ?_,
    exec_tileSplice_of_worn readable, fun asked gone fails => ?_⟩
  · refine ⟨_, exec_tileSplice_of_idle readable asked spare tile idle, ?_⟩
    have start := spliceStart_frame L readable s
    obtain ⟨map, bad, tally, banks, events, records, host, frame⟩ := spliceRow_done f c hr readable s
    have regions (a : Nat) : memKey (spliceRow f r c readable s) a = memKey s a := memKey_of_frame (spliceRow_frame f r c readable s) (by decide) a
    generalize spliceRow f r c readable s = t at *
    obtain ⟨unasked, done⟩ := spliceDone_rest u t
    have frame' := frame.trans (done.mono (by decide))
    refine ⟨map, bad, unasked, (spareTile_of_fields rfl f r).trans tally, banks, events, records, host, fun reads => ?_, fun fails => ?_⟩
    · subst reads
      exact frame'
    · subst fails
      refine ⟨frame' .cap (by decide), ?_, ?_, (start.mono (by decide)).trans (frame'.mono (by decide))⟩
      · intro i low
        rw [readByte_of_frame frame' (by decide) (by decide)]
        exact (zeroTile_bytes L { s with cap := { s.cap with stepFaulted := true } }).1 i low
      · intro a apart
        rw [readByte_of_frame frame' (by decide) (by decide)]
        exact (zeroTile_bytes L { s with cap := { s.cap with stepFaulted := true } }).2 a apart
  · refine ⟨_, exec_tileSplice_of_spare readable asked spare tile, ?_⟩
    obtain ⟨bad, splices, tally, records, host, frame⟩ := spareFails_done f hr u s
    exact ⟨bad, (spliceDone_rest u _).1, (spareTile_of_fields rfl f r).trans tally, records, splices, host, frame.trans ((spliceDone_rest u _).2.mono (by decide))⟩
  · obtain ⟨bad, rel, row, records, host⟩ := noSpare_done f r u s
    refine ⟨_, exec_tileSplice_of_noSpare readable asked gone fails, bad, ?_, ?_, (spliceDone_rest u _).1, row, records, host, ?_⟩
    · exact (congrArg Rel.secondFault rel :)
    · exact (congrArg Rel.splices rel :)
    · exact ((noSpare_frame f r u s).mono (by decide)).trans ((spliceDone_rest u _).2.mono (by decide))

end Sys2Proof.Machine
end

section
/-! SUPPORT. Wear, supplies and control complexes (R473 to R478, R491, R500), and the statements on faults that the module survives. -/

namespace Sys2Proof.Machine

/-! ### TILE_WEAR (R473) -/

/-- The count of a tile's ring oscillator is kept. -/
def keepCount (u count : Nat) (s : State) : State := { s with rel := { s.rel with ringCounts := upsert u count s.rel.ringCounts } }

/-- The record of a worn tile, once while its row has its spare. -/
def wearRecorded (u base count : Nat) (s : State) : State :=
  if s.rel.worn.contains u && spareTile s (u / 512) (u % 512 / 32) then s
  else record 18 0 1 3 (unitOf 0 u) 0xFFFFFFFF 0 0 (toLE 4 base ++ toLE 4 count) s

/-- A tile is noted as worn. -/
def wearNoted (again : Bool) (u : Nat) (s : State) : State := if again then s else { s with rel := { s.rel with worn := u :: s.rel.worn } }

/-- The splice of a worn tile is asked for. -/
def wearAsked (asks : Bool) (u : Nat) (s : State) : State := if asks then requestWear u s else s

section
variable {u count : Nat} {s : State} (tile : physOk u = true)
include tile

theorem exec_tileWear_of_early (early : isReady s = false) : exec (.tileWear u count) s = .next (keepCount u count s) := by
  change execTileWear u count s = _
  rw [execTileWear, if_neg (by simp [tile])]
  exact if_pos (by change (!isReady s) = true; rw [early]; rfl)

variable (ready : isReady s = true)
include ready

theorem exec_tileWear_of_first (first : lookup u s.store.baseline = none) :
    exec (.tileWear u count) s = .next { keepCount u count s with store := { s.store with baseline := upsert u count s.store.baseline } } := by
  change execTileWear u count s = _
  rw [execTileWear, if_neg (by simp [tile])]
  dsimp only
  rw [if_neg (by change ¬(!isReady s) = true; rw [ready]; decide), first]
  rfl

variable {base : Nat} (known : lookup u s.store.baseline = some base)
include known

theorem exec_tileWear_of_small (small : ¬base * 4 ≤ (base - count) * 100 ∨ u ∈ s.store.badTiles) :
    exec (.tileWear u count) s = .next (keepCount u count s) := by
  change execTileWear u count s = _
  rw [execTileWear, if_neg (by simp [tile])]
  dsimp only
  rw [if_neg (by change ¬(!isReady s) = true; rw [ready]; decide), known]
  exact if_pos (by rcases small with h | h <;> simp [h])

theorem exec_tileWear_of_fell (fell : base * 4 ≤ (base - count) * 100) (serves : u ∉ s.store.badTiles) :
    exec (.tileWear u count) s = .next (wearAsked (decide (base * 6 ≤ (base - count) * 100) && spareTile s (u / 512) (u % 512 / 32)) u
      (wearNoted (s.rel.worn.contains u) u (wearRecorded u base count (keepCount u count s)))) := by
  change execTileWear u count s = _
  rw [execTileWear, if_neg (by simp [tile])]
  dsimp only
  rw [if_neg (by change ¬(!isReady s) = true; rw [ready]; decide), known]
  exact if_neg (by simp [fell, serves])

end

theorem wearRecorded_done (u base count : Nat) (s : State) : let t := wearRecorded u base count s
    t.rel = s.rel ∧ t.store.butLedger = s.store.butLedger ∧ HostSame s t ∧ OnlyChanges [.store, .host, .xing] s t ∧
      (u ∉ s.rel.worn ∨ spareTile s (u / 512) (u % 512 / 32) = false → Raises Ev.tileWear s t ∧ Records 18 s t) ∧
      (u ∈ s.rel.worn → spareTile s (u / 512) (u % 512 / 32) = true → t = s) := by
  intro t
  by_cases silent : (s.rel.worn.contains u && spareTile s (u / 512) (u % 512 / 32)) = true
  · have same : t = s := if_pos silent
    clear_value t
    subst same
    simp only [Bool.and_eq_true, List.contains_eq_mem, decide_eq_true_eq] at silent
    exact ⟨rfl, rfl, rfl, .refl _ t, fun h => by simp [silent] at h, fun _ _ => rfl⟩
  · have recorded : t = record 18 0 1 3 (unitOf 0 u) 0xFFFFFFFF 0 0 (toLE 4 base ++ toLE 4 count) s := if_neg silent
    clear_value t
    rw [recorded]
    refine ⟨record_rel .., record_butLedger .., record_same .., (record_frame _ _ _ _ _ _ _ _ _ _).mono (by decide),
      fun _ => ⟨raises_record (cls := 18) (code := Ev.tileWear) rfl 0 1 3 _ _ _ _ _ _, records_record rfl id ..⟩, fun worn spare => absurd (by simp [worn, spare]) silent⟩

theorem wearNoted_done (u : Nat) (s : State) : let t := wearNoted (s.rel.worn.contains u) u s
    u ∈ t.rel.worn ∧ t.rel = { s.rel with worn := t.rel.worn } ∧ OnlyChanges [.rel] s t := by
  intro t
  by_cases again : s.rel.worn.contains u = true
  · have same : t = s := if_pos again
    rw [same]
    exact ⟨by simpa using again, rfl, .refl _ s⟩
  · have new : t = { s with rel := { s.rel with worn := u :: s.rel.worn } } := if_neg again
    rw [new]
    exact ⟨List.mem_cons_self, rfl, only_rel (.refl _ s) _ (by decide)⟩

theorem wearAsked_done (asks : Bool) (u : Nat) (s : State) : let t := wearAsked asks u s
    t.rel = { s.rel with spliceReq := t.rel.spliceReq, wearReq := t.rel.wearReq } ∧ OnlyChanges [.rel] s t ∧
      (asks = true → u ∈ t.rel.spliceReq) ∧ (asks = false → t.rel.spliceReq = s.rel.spliceReq) := by
  intro t
  cases asks with
  | false => exact ⟨rfl, .refl _ s, nofun, fun _ => rfl⟩
  | true =>
    have frame : OnlyChanges [.rel] s t := requestWear_frame u s
    refine ⟨?_, frame, fun _ => ?_, nofun⟩
    · change (requestWear u s).rel = { s.rel with spliceReq := (requestWear u s).rel.spliceReq, wearReq := (requestWear u s).rel.wearReq }
      unfold requestWear
      split
      · rfl
      · rw [requestSplice_rel]
    · change u ∈ (requestWear u s).rel.spliceReq
      unfold requestWear
      split
      next stands => simpa using stands
      · exact mem_requestSplice.2 (.inr rfl)

theorem claim_tilesWear : Claim.TilesWear := by
  intro u count s kept spare
  refine ⟨fun outside => if_pos ?_, fun low col => ?_⟩
  · simp only [physOk, Bool.not_eq_true', Bool.and_eq_false_iff, decide_eq_false_iff_not]
    omega
  have tile : physOk u = true := by simp [physOk, low, col]
  refine ⟨exec_tileWear_of_early tile, exec_tileWear_of_first tile, fun base ready known => ⟨exec_tileWear_of_small tile ready known, fun fell serves => ?_⟩⟩
  refine ⟨_, exec_tileWear_of_fell tile ready known fell serves, ?_⟩
  obtain ⟨rel, store, host, frame, news, silent⟩ := wearRecorded_done u base count (keepCount u count s)
  have stays : (keepCount u count s).rel.worn = s.rel.worn := rfl
  have tally : spareTile (keepCount u count s) (u / 512) (u % 512 / 32) = spare := rfl
  have counted : lookup u (keepCount u count s).rel.ringCounts = some count := lookup_upsert_self ..
  have asked : (keepCount u count s).rel.spliceReq = s.rel.spliceReq := rfl
  have first : OnlyChanges [.rel] s (keepCount u count s) := only_rel (.refl _ s) _ (by decide)
  rw [stays, tally] at news silent
  have worn : (wearRecorded u base count (keepCount u count s)).rel.worn = s.rel.worn := by rw [rel, stays]
  have raised : u ∉ s.rel.worn ∨ spare = false → Raises Ev.tileWear s (wearRecorded u base count (keepCount u count s)) ∧
      Records 18 s (wearRecorded u base count (keepCount u count s)) := fun h =>
    ⟨(news h).1.of_same rfl rfl id rfl, (news h).2⟩
  generalize wearRecorded u base count (keepCount u count s) = v at *
  obtain ⟨noted, rel', frame'⟩ := wearNoted_done u v
  rw [worn] at noted rel' frame'
  generalize wearNoted (s.rel.worn.contains u) u v = w at *
  obtain ⟨rel'', frame'', asks, rests⟩ := wearAsked_done (decide (base * 6 ≤ (base - count) * 100) && spareTile s (u / 512) (u % 512 / 32)) u w
  generalize wearAsked (decide (base * 6 ≤ (base - count) * 100) && spareTile s (u / 512) (u % 512 / 32)) u w = t at *
  have late : OnlyChanges [.rel] v t := frame'.trans frame''
  have whole : OnlyChanges [.rel, .store, .host, .xing] s t := (first.mono (by decide)).trans ((frame.mono (by decide)).trans (late.mono (by decide)))
  have storeT : t.store = v.store := late .store (by decide)
  have hostT : t.host = v.host := late .host (by decide)
  refine ⟨?_, ?_, fun news => ?_, fun known spared => ?_, fun fell6 spared => asks ?_, fun small => ?_, ?_, ?_, whole⟩
  · rw [rel'']
    change lookup u w.rel.ringCounts = some count
    rw [rel', rel]
    exact counted
  · rw [rel'']
    exact noted
  · obtain ⟨raises, r, l, ledger, rest⟩ := raised news
    exact ⟨raises.of_same rfl rfl id (congrArg HostIf.events hostT), r, l, (congrArg Store.ledger storeT).trans ledger, rest⟩
  · have same := silent known spared
    exact ⟨hostT.trans (congrArg State.host same :), storeT.trans (congrArg State.store same :)⟩
  · exact Bool.and_eq_true_iff.2 ⟨decide_eq_true fell6, spared⟩
  · rw [rests (by simpa [spare] using small), rel', rel]
    exact asked
  · rw [storeT]
    exact congrArg (fun x : Store => { x with ledger := v.store.ledger, seq := v.store.seq }) store
  · exact (HostSame.of_host (first .host (by decide))).trans (host.trans (.of_host hostT))

/-! ### Phases and PLLs (R474, R475) -/

/-- A phase is shed, noted in the spare map, and recorded. -/
def shedPhase (f k : Nat) (s : State) : State :=
  record 12 8 (if (getField s f).phasesShed.length + 1 < 3 then 0 else 3) 3 (unitOf 6 (f * 32 + k)) 0xFFFFFFFF 0 0 []
    (addBadPhase (f * 32 + k) (setField f { getField s f with phasesShed := k :: (getField s f).phasesShed } s))

/-- The third phase of a rail group that fails is reported besides. -/
def railDegrades (f k : Nat) (s : State) : State :=
  postFull Ev.railDegraded 3 (unitOf 6 (f * 32 + k)) 0 0 [] { s with rel := { s.rel with secondFault := true } }

theorem exec_phaseFault_of_new {f k : Nat} {s : State} (new : k ∉ (getField s f).phasesShed) : exec (.phaseFault f k) s =
    .next (if (getField s f).phasesShed.length + 1 = 3 then railDegrades f k (shedPhase f k s) else shedPhase f k s) := by
  change execPhaseFault f k s = _
  rw [execPhaseFault]
  dsimp only
  rw [if_neg (by simp [new])]
  split <;> rfl

/-- Where the interrupts' crossing takes pulses, an event is one record above the others. -/
theorem events_postFull_of_calm {s : State} (calm : Calm s) (up : stageDone s 2 = true) (code origin : Nat) (unit play step : W32) (d : List Byte) :
    ∃ e, (postFull code origin unit play step d s).host.events = (e :: s.host.events).take 65536 ∧ e.code = code := by
  obtain ⟨l, e, events, coded, -, none⟩ := raises_postFull code origin unit play step d s up
  rw [none calm] at events
  exact ⟨e, events, coded⟩

theorem shedPhase_done (f k : Nat) (s : State) : let t := shedPhase f k s
    getField t f = { getField s f with phasesShed := k :: (getField s f).phasesShed } ∧ (∀ g, g ≠ f → getField t g = getField s g) ∧
      f * 32 + k ∈ t.store.badPhases ∧ t.rel = s.rel ∧ Raises Ev.phaseFault s t ∧
      (∃ r l, t.store.ledger = (r :: l ++ s.store.ledger).take 262144 ∧ r.cls = 12 ∧ r.unit = unitOf 6 (f * 32 + k) ∧ (∀ x ∈ l, x.cls = 16) ∧ (Calm s → l = [])) ∧
      HostSame s t ∧ OnlyChanges [.fields, .store, .host, .xing] s t ∧ (Calm s → t.xing = s.xing) := by
  have shed : OnlyChanges [.fields] s (setField f { getField s f with phasesShed := k :: (getField s f).phasesShed } s) := only_fields (.refl _ s) _ (by decide)
  have self : getField (setField f { getField s f with phasesShed := k :: (getField s f).phasesShed } s) f =
      { getField s f with phasesShed := k :: (getField s f).phasesShed } := lookupD_upsert_self ..
  have others (g : Nat) (ne : g ≠ f) : getField (setField f { getField s f with phasesShed := k :: (getField s f).phasesShed } s) g = getField s g :=
    lookupD_upsert_ne ne ..
  intro t
  have eq : t = shedPhase f k s := rfl
  clear_value t
  rw [shedPhase] at eq
  generalize setField f { getField s f with phasesShed := k :: (getField s f).phasesShed } s = u at *
  obtain ⟨-, bad⟩ := addBadPhase_grows (f * 32 + k) u
  have bads := addBadPhase_frame (f * 32 + k) u
  have ledger : (addBadPhase (f * 32 + k) u).store.ledger = u.store.ledger := by
    unfold addBadPhase
    split <;> rfl
  generalize addBadPhase (f * 32 + k) u = v at *
  generalize (if (getField s f).phasesShed.length + 1 < 3 then 0 else 3) = result at *
  have all : OnlyChanges [.fields, .store] s v := (shed.mono (by decide)).trans (bads.mono (by decide))
  have tail := record_frame 12 8 result 3 (unitOf 6 (f * 32 + k)) 0xFFFFFFFF 0 0 [] v
  have grows := mapGrows_record 12 8 result 3 (unitOf 6 (f * 32 + k)) 0xFFFFFFFF 0 0 [] v
  rw [← eq] at tail grows
  have calm (h : Calm s) : Calm v := by rwa [Calm, show v.xing = s.xing from all .xing (by decide)]
  have fields (g : Nat) : getField t g = getField u g :=
    (getField_of_fields (tail .fields (by decide)) g).trans (getField_of_fields (bads .fields (by decide)) g)
  refine ⟨(fields f).trans self, fun g ne => (fields g).trans (others g ne), grows.badPhases bad, ?_, ?_, ?_,
    (HostSame.of_host (all .host (by decide))).trans grows.host, (all.mono (by decide)).trans (tail.mono (by decide)), fun h => ?_⟩
  · exact (tail .rel (by decide)).trans (all .rel (by decide))
  · rw [eq]
    refine (raises_record (cls := 12) (code := Ev.phaseFault) rfl 8 result 3 _ _ _ _ _ _).of_same (s' := v) ?_ ?_ calm rfl
    · rw [stageDone, stageDone, show v.bu = s.bu from all .bu (by decide)]
    · rw [show v.host = s.host from all .host (by decide)]
  · have same : v.store.ledger = s.store.ledger := ledger.trans (congrArg Store.ledger (shed .store (by decide)))
    obtain ⟨r, ledger', cls, unit⟩ := ledgerRec_enters 12 8 result (unitOf 6 (f * 32 + k)) 0xFFFFFFFF 0 []
      (postFull Ev.phaseFault 3 (unitOf 6 (f * 32 + k)) 0 0 [] v)
    rw [eq]
    rcases postFull_marks Ev.phaseFault 3 (unitOf 6 (f * 32 + k)) 0 0 [] v with ⟨-, kept⟩ | ⟨busy, -, r', cls', more⟩
    · exact ⟨r, [], by rw [← same, ← kept]; exact ledger', cls, unit, nofun, fun _ => rfl⟩
    · refine ⟨r, [r'], ?_, cls, unit, fun x hx => by rw [List.mem_singleton.1 hx]; exact cls', fun h => absurd (calm h) busy⟩
      rw [more, take_cons_take, same] at ledger'
      exact ledger'
  · rw [eq]
    exact (postFull_calm Ev.phaseFault 3 (unitOf 6 (f * 32 + k)) 0 0 [] v (calm h)).1.trans (all .xing (by decide))

theorem railDegrades_done (f k : Nat) (s : State) : let t := railDegrades f k s
    t.rel = { s.rel with secondFault := true } ∧ t.fields = s.fields ∧ t.store.badPhases = s.store.badPhases ∧ HostSame s t ∧
      OnlyChanges [.rel, .store, .host, .xing] s t ∧ (Calm s → t.store = s.store) ∧
      (Calm s → stageDone s 2 = true → ∃ e, t.host.events = (e :: s.host.events).take 65536 ∧ e.code = Ev.railDegraded) := by
  intro t
  have first : OnlyChanges [.rel] s { s with rel := { s.rel with secondFault := true } } := only_rel (.refl _ s) _ (by decide)
  have rel : ({ s with rel := { s.rel with secondFault := true } } : State).rel = { s.rel with secondFault := true } := rfl
  have xing : ({ s with rel := { s.rel with secondFault := true } } : State).xing = s.xing := rfl
  have store : ({ s with rel := { s.rel with secondFault := true } } : State).store = s.store := rfl
  have host : ({ s with rel := { s.rel with secondFault := true } } : State).host = s.host := rfl
  have bu : ({ s with rel := { s.rel with secondFault := true } } : State).bu = s.bu := rfl
  have eq : t = postFull Ev.railDegraded 3 (unitOf 6 (f * 32 + k)) 0 0 [] { s with rel := { s.rel with secondFault := true } } := rfl
  clear_value t
  generalize ({ s with rel := { s.rel with secondFault := true } } : State) = u at *
  have posted := postFull_frame Ev.railDegraded 3 (unitOf 6 (f * 32 + k)) 0 0 [] u
  have store' := postFull_butLedger Ev.railDegraded 3 (unitOf 6 (f * 32 + k)) 0 0 [] u
  have host' := postFull_same Ev.railDegraded 3 (unitOf 6 (f * 32 + k)) 0 0 [] u
  rw [← eq] at posted store' host'
  refine ⟨(posted .rel (by decide)).trans rel, (posted .fields (by decide)).trans (first .fields (by decide)),
    (congrArg Store.badPhases store' :).trans (congrArg Store.badPhases store :), (HostSame.of_host host).trans host',
    (first.mono (by decide)).trans (posted.mono (by decide)), fun calm => ?_, fun calm up => ?_⟩
  · rw [eq, (postFull_calm _ _ _ _ _ _ u (by rwa [Calm, xing])).2, store]
  · obtain ⟨e, events, code⟩ := events_postFull_of_calm (s := u) (by rwa [Calm, xing]) (by rwa [stageDone, bu]) Ev.railDegraded 3
      (unitOf 6 (f * 32 + k)) 0 0 []
    rw [← eq, host] at events
    exact ⟨e, events, code⟩

theorem phaseFault_sheds {f k : Nat} {s : State} (new : k ∉ (getField s f).phasesShed) :
    ∃ t, exec (.phaseFault f k) s = .next t ∧ getField t f = { getField s f with phasesShed := k :: (getField s f).phasesShed } ∧
      (∀ g, g ≠ f → getField t g = getField s g) ∧
      f * 32 + k ∈ t.store.badPhases ∧
      (Calm s → ∃ r, t.store.ledger = (r :: s.store.ledger).take 262144 ∧ r.cls = 12 ∧ r.unit = unitOf 6 (f * 32 + k)) ∧
      ((getField s f).phasesShed.length = 2 → t.rel = { s.rel with secondFault := true } ∧ (Calm s → stageDone s 2 = true →
        ∃ e x, t.host.events = (e :: x :: s.host.events).take 65536 ∧ e.code = Ev.railDegraded ∧ x.code = Ev.phaseFault)) ∧
      ((getField s f).phasesShed.length ≠ 2 → t.rel = s.rel ∧ Raises Ev.phaseFault s t ∧ Records 12 s t) ∧ HostSame s t ∧
      OnlyChanges [.fields, .rel, .store, .host, .xing] s t := by
  refine ⟨_, exec_phaseFault_of_new new, ?_⟩
  obtain ⟨self, others, bad, rel, raises, ⟨r, l, ledger, cls, unit, lost, none⟩, host, frame, xing⟩ := shedPhase_done f k s
  generalize shedPhase f k s = u at *
  by_cases third : (getField s f).phasesShed.length + 1 = 3
  · rw [if_pos third]
    obtain ⟨rel', fields, bad', host', frame', store, event⟩ := railDegrades_done f k u
    generalize railDegrades f k u = t at *
    have calmU (calm : Calm s) : Calm u := by rwa [Calm, xing calm]
    refine ⟨(getField_of_fields fields f).trans self, fun g ne => (getField_of_fields fields g).trans (others g ne), by rw [bad']; exact bad,
      fun calm => ⟨r, by rw [store (calmU calm), ledger, none calm]; rfl, cls, unit⟩, fun _ => ⟨by rw [rel', rel], fun calm up => ?_⟩,
      fun other => absurd third (by omega), host.trans host', (frame.mono (by decide)).trans (frame'.mono (by decide))⟩
    have upU : stageDone u 2 = true := by rwa [stageDone, show u.bu = s.bu from frame .bu (by decide)]
    obtain ⟨e, events, code⟩ := event (calmU calm) upU
    obtain ⟨l', x, events', code', -, none'⟩ := raises up
    rw [none' calm] at events'
    exact ⟨e, x, by rw [events, events', List.nil_append, take_cons_take], code, code'⟩
  · rw [if_neg third]
    exact ⟨self, others, bad, fun calm => ⟨r, by rw [ledger, none calm]; rfl, cls, unit⟩, fun two => absurd two (by omega),
      fun _ => ⟨rel, raises, r, l, ledger, cls, lost, none⟩, host, frame.mono (by decide)⟩

theorem usePll_done {d : Nat} (s : State) : pllSpare (xingReset d (usePll d s)) d = false := by
  unfold pllSpare usePll
  split
  next low => exact congrArg Field.pllSpare (getField_adjField_self d (fun x => { x with pllSpare := false }) s)
  · rfl

theorem exec_pllSwitch_of_spare {d : Nat} {s : State} (shut : ∃ p ∈ s.xing.closed, p.1 = d ∨ p.2 = d) (spare : pllSpare s d = true) :
    exec (.pllSwitch d) s = .next (record 15 8 0 3 (unitOf 7 d) 0xFFFFFFFF 0 0 [] (xingReset d (usePll d s))) := by
  change execPllSwitch d s = _
  rw [execPllSwitch]
  rw [if_neg (by simpa [Decidable.or_iff_not_imp_left] using shut), if_pos spare]

theorem exec_pllSwitch_of_none {d : Nat} {s : State} (shut : ∃ p ∈ s.xing.closed, p.1 = d ∨ p.2 = d) (none : pllSpare s d = false) :
    exec (.pllSwitch d) s = .next (record 15 8 3 3 (unitOf 7 d) 0xFFFFFFFF 0 0 [] (stopDomain d s)) := by
  change execPllSwitch d s = _
  rw [execPllSwitch]
  rw [if_neg (by simpa [Decidable.or_iff_not_imp_left] using shut), if_neg (by simp [none])]

/-- A record with its event above a state that keeps the log, the ledger and the interrupts' crossing. -/
theorem reported {s u : State} {cls code : Nat} (named : classEvent cls = some code) (bu : u.bu = s.bu) (host : u.host = s.host)
    (store : u.store.ledger = s.store.ledger) (lag : u.xing.lag = s.xing.lag) (action result origin : Nat) (unit logical play step : W32) (d : List Byte) :
    Raises code s (record cls action result origin unit logical play step d u) ∧ Records cls s (record cls action result origin unit logical play step d u) := by
  have calm (h : Calm s) : Calm u := by rwa [Calm, lag]
  exact ⟨(raises_record named action result origin unit logical play step d u).of_same (s' := u) (by rw [stageDone, stageDone, bu]) (by rw [host]) calm rfl,
    records_record store calm ..⟩

theorem pllSwitch_opens {d : Nat} {s : State} (shut : ∃ p ∈ s.xing.closed, p.1 = d ∨ p.2 = d) (spare : pllSpare s d = true) :
    ∃ t, exec (.pllSwitch d) s = .next t ∧ pllSpare t d = false ∧
      t.xing.closed = s.xing.closed.filter (fun p => p.1 != d && p.2 != d) ∧
      (Calm s → t.xing = { s.xing with closed := t.xing.closed, irqs := t.xing.irqs }) ∧ Raises Ev.pllSwitch s t ∧ Records 15 s t ∧ HostSame s t ∧
      OnlyChanges [.xing, .fields, .rel, .store, .host] s t := by
  refine ⟨_, exec_pllSwitch_of_spare shut spare, ?_⟩
  have used := usePll_frame d s
  have gone := usePll_done (d := d) s
  have xing : (xingReset d (usePll d s)).xing = { s.xing with closed := s.xing.closed.filter fun p => p.1 != d && p.2 != d } := by
    rw [← show (usePll d s).xing = s.xing from used .xing (by decide)]
    rfl
  have first : OnlyChanges [.xing, .fields, .rel] s (xingReset d (usePll d s)) := (used.mono (by decide)).trans ((xingReset_frame d _).mono (by decide))
  generalize xingReset d (usePll d s) = u at *
  obtain ⟨raises, records⟩ := reported (s := s) (u := u) (cls := 15) (code := Ev.pllSwitch) rfl (first .bu (by decide)) (first .host (by decide))
    (congrArg Store.ledger (first .store (by decide))) (congrArg Xing.lag xing :) 8 0 3 (unitOf 7 d) 0xFFFFFFFF 0 0 []
  have on := record_goesOn 15 8 0 3 (unitOf 7 d) 0xFFFFFFFF 0 0 [] u
  have tail := record_frame 15 8 0 3 (unitOf 7 d) 0xFFFFFFFF 0 0 [] u
  have host := record_same 15 8 0 3 (unitOf 7 d) 0xFFFFFFFF 0 0 [] u
  generalize record 15 8 0 3 (unitOf 7 d) 0xFFFFFFFF 0 0 [] u = t at *
  refine ⟨?_, on.closed.trans (congrArg Xing.closed xing), fun calm => ?_, raises, records, (HostSame.of_host (first .host (by decide))).trans host,
    (first.mono (by decide)).trans (tail.mono (by decide))⟩
  · rw [pllSpare] at gone ⊢
    rw [getField_of_fields (tail .fields (by decide)), show t.rel = u.rel from tail .rel (by decide)]
    exact gone
  · rw [on.calm (by rwa [Calm, (congrArg Xing.lag xing :)]), xing]

theorem pllSwitch_stops {d : Nat} {s : State} (shut : ∃ p ∈ s.xing.closed, p.1 = d ∨ p.2 = d) (none : pllSpare s d = false) :
    ∃ t, exec (.pllSwitch d) s = .next t ∧ t.rel.secondFault = true ∧ Records 15 s t ∧
      (d < 8 → (getField t d).unavailable = true) ∧ (8 ≤ d → t.rel.meshStopped = true) ∧ Raises Ev.pllSwitch s t ∧ HostSame s t ∧
      OnlyChanges [.fields, .rel, .store, .host, .xing] s t := by
  refine ⟨_, exec_pllSwitch_of_none shut none, ?_⟩
  have first := stopDomain_frame d s
  have fault : (stopDomain d s).rel.secondFault = true := by
    unfold stopDomain
    dsimp only
    split
    · rfl
    · rfl
  have field (low : d < 8) : (getField (stopDomain d s) d).unavailable = true := by
    rw [stopDomain]
    dsimp only
    rw [if_pos low, getField_adjField_self]
  have mesh (high : 8 ≤ d) : (stopDomain d s).rel.meshStopped = true := by
    rw [stopDomain]
    dsimp only
    rw [if_neg (by omega)]
  generalize stopDomain d s = u at *
  obtain ⟨raises, records⟩ := reported (s := s) (u := u) (cls := 15) (code := Ev.pllSwitch) rfl (first .bu (by decide)) (first .host (by decide))
    (congrArg Store.ledger (first .store (by decide))) (congrArg Xing.lag (first .xing (by decide))) 8 3 3 (unitOf 7 d) 0xFFFFFFFF 0 0 []
  have tail := record_frame 15 8 3 3 (unitOf 7 d) 0xFFFFFFFF 0 0 [] u
  have host := record_same 15 8 3 3 (unitOf 7 d) 0xFFFFFFFF 0 0 [] u
  generalize record 15 8 3 3 (unitOf 7 d) 0xFFFFFFFF 0 0 [] u = t at *
  have rel : t.rel = u.rel := tail .rel (by decide)
  exact ⟨by rw [rel, fault], records, fun low => by rw [getField_of_fields (tail .fields (by decide)), field low], fun high => by rw [rel, mesh high],
    raises, (HostSame.of_host (first .host (by decide))).trans host, (first.mono (by decide)).trans (tail.mono (by decide))⟩

theorem claim_suppliesFailOver : Claim.SuppliesFailOver := by
  refine ⟨fun f k s => ⟨fun shed => if_pos (by simpa using shed), phaseFault_sheds⟩,
    fun d s => ⟨fun opens => if_pos ?_, fun shut => ⟨pllSwitch_opens shut, pllSwitch_stops shut⟩⟩⟩
  simp only [Bool.not_eq_true', List.any_eq_false, Bool.or_eq_true, beq_iff_eq, not_or]
  exact opens

/-! ### Control complexes (R476 to R478) -/

theorem standbyLost_done {s : State} (standby : s.rel.standby = true) (runs : standbyHalted s = false) (active : s.rel.ccFailed = false)
    (silent : 4 ≤ s.rel.missedBack) : ∃ t, exec .ccStandbyLost s = .next t ∧ t.rel = { s.rel with standby := false } ∧
      Raises Ev.ccStandbyLost s t ∧ Records 11 s t ∧ HostSame s t ∧ OnlyChanges [.rel, .store, .host, .xing] s t := by
  refine ⟨ledgerRec 11 0 3 (unitOf 8 1) 0xFFFFFFFF 0 [] (post Ev.ccStandbyLost [] { s with rel := { s.rel with standby := false } }),
    if_pos (by simp [standby, runs, active, silent]), ?_⟩
  have first : OnlyChanges [.rel] s { s with rel := { s.rel with standby := false } } := only_rel (.refl _ s) _ (by decide)
  have rel : ({ s with rel := { s.rel with standby := false } } : State).rel = { s.rel with standby := false } := rfl
  generalize ({ s with rel := { s.rel with standby := false } } : State) = u at *
  have calm (h : Calm s) : Calm u := by rwa [Calm, show u.xing = s.xing from first .xing (by decide)]
  have posted := post_frame Ev.ccStandbyLost [] u
  have host := postFull_same Ev.ccStandbyLost 3 0xFFFFFFFF 0 0 [] u
  have raises := raises_postFull Ev.ccStandbyLost 3 0xFFFFFFFF 0 0 [] u
  have tail := ledgerRec_frame 11 0 3 (unitOf 8 1) 0xFFFFFFFF 0 [] (post Ev.ccStandbyLost [] u)
  refine ⟨(tail .rel (by decide)).trans ((posted .rel (by decide)).trans rel), ?_, ?_, (HostSame.of_host (first .host (by decide))).trans
    (host.trans (.of_host (tail .host (by decide)))), (first.mono (by decide)).trans ((posted.mono (by decide)).trans (tail.mono (by decide)))⟩
  · refine raises.of_same (s' := u) ?_ ?_ calm rfl
    · rw [stageDone, stageDone, show u.bu = s.bu from first .bu (by decide)]
    · rw [show u.host = s.host from first .host (by decide)]
  · exact records_ledgerRec_postFull (congrArg Store.ledger (first .store (by decide))) calm ..

/-- The standby becomes the active: CT goes on from its own receiver. -/
def becomesActive (s : State) : State := { s with
  cad := switchReceiver s.cad s.rel.receiver
  rel := { s.rel with ccFailed := false, standby := false, southActive := !s.rel.southActive, missed := 0, missedBack := 0 } }

/-- The held register writes and doorbells are applied, and a stage that runs starts again. -/
def resumesHost (t : State) : State := rerunStage (t.host.heldWrites.foldl (fun u w => hostRegWrite w.1 w.2.1 w.2.2.1 w.2.2.2 u)
  { t with host := { t.host with heldWrites := [] } })

theorem takeOver_done {s : State} (failed : s.rel.ccFailed = true) : let s₂ := runAllDue 16384 (gapAbort (becomesActive s))
    ∃ t, Raises Ev.ccTakeover s₂ t ∧ Records 11 s₂ t ∧ HostSame s₂ t ∧ OnlyChanges [.store, .host, .xing] s₂ t ∧ exec .ccTakeover s = .next (resumesHost t) := by
  intro s₂
  have runs : exec .ccTakeover s = .next (resumesHost (record 11 9 0 3 (unitOf 8 (b2n s.rel.southActive)) 0xFFFFFFFF 0 0 [] s₂)) := if_pos failed
  clear_value s₂
  obtain ⟨raises, records⟩ := reported (s := s₂) (cls := 11) (code := Ev.ccTakeover) rfl rfl rfl rfl rfl 9 0 3 (unitOf 8 (b2n s.rel.southActive)) 0xFFFFFFFF 0 0 []
  exact ⟨_, raises, records, record_same .., (record_frame _ _ _ _ _ _ _ _ _ _).mono (by decide), runs⟩

theorem runAllDue_step {x : DueKey × Due} {s : State} (first : firstEvent s = some x) (n : Nat) :
    (x.1.1 ≤ s.cad.ct.toNat → runAllDue (n + 1) s = runAllDue n (runEvent x s)) ∧ (s.cad.ct.toNat < x.1.1 → runAllDue n s = s) := by
  refine ⟨fun due => ?_, fun early => ?_⟩
  · rw [runAllDue, first]
    exact if_pos due
  · cases n with
    | zero => rfl
    | succ n =>
      rw [runAllDue, first]
      exact if_neg (by omega)

theorem rerunStage_cases (s : State) : (s.bu.state ≠ .running → rerunStage s = s) ∧
    (s.bu.state = .running → s.bu.stage ≠ 9 → rerunStage s = { s with bu := s.bu.fresh }) ∧
    (s.bu.state = .running → s.bu.stage = 9 → rerunStage s = { s with bu := { s.bu.fresh with linkOpen := false }, ports := mapVals unopened s.ports }) := by
  refine ⟨fun rests => if_pos (by simpa using rests), fun runs other => ?_, fun runs links => ?_⟩
  · rw [rerunStage, if_neg (by simp [runs]), if_neg other]
    rfl
  · rw [rerunStage, if_neg (by simp [runs]), if_pos links]
    rfl

theorem claim_controlFailsOver : Claim.ControlFailsOver := by
  refine ⟨fun s => ⟨fun stays => if_neg ?_, fun ⟨standby, runs, active⟩ silent => standbyLost_done standby runs active silent,
    fun ⟨standby, runs, active⟩ up silent => ?_, fun active stays => ?_⟩, fun s failed => takeOver_done failed, fun n x s first => runAllDue_step first n, rerunStage_cases⟩
  · simp only [Bool.and_eq_true, Bool.not_eq_true', decide_eq_true_eq, and_assoc]
    rintro ⟨standby, runs, active, silent⟩
    exact stays.elim (fun h => h ⟨standby, runs, active⟩) (by omega)
  · exact (if_neg (by simp [active])).trans (if_pos (by simp [up, standby, runs, silent]))
  · refine (if_neg (by simp [active])).trans (if_neg ?_)
    simp only [Bool.and_eq_true, Bool.not_eq_true', decide_eq_true_eq, and_assoc]
    rintro ⟨up, standby, runs, silent⟩
    rcases stays with h | h | h
    · exact h ⟨standby, runs, active⟩
    · rw [up] at h
      cases h
    · omega

/-- Settles O45, by each part's fail-over: the maps and marks that it leaves, and the record and event above the log as it was. -/
theorem faultsAreSurvived : Obligations.FaultsAreSurvived :=
  ⟨claim_rowsAreSelfTested, claim_tilesAreSpliced, claim_tilesWear, claim_suppliesFailOver, claim_controlFailsOver, claim_crossingTimeoutClosesCrossing⟩

/-- Settles O60, from what each part's fail-over does (O45). -/
theorem faultEventsComplete : Obligations.FaultEventsComplete := by
  refine ⟨fun a b s => ?_, fun f r bad s asked idle => ?_, fun f r c s hf hr hc asked spare idle => ?_, fun u count base s low col ready known fell serves fresh => ?_,
    fun f k s new => ?_, fun d s shut spare => ?_, fun s standby runs active => ⟨fun up silent => ?_, fun silent => ?_⟩, fun s failed idle => ?_⟩
  · obtain ⟨t, done, timeout, -, -, closed, -⟩ := claim_crossingTimeoutClosesCrossing a b s
    exact ⟨t, done, timeout, closed⟩
  · obtain ⟨-, tests⟩ := claim_rowsAreSelfTested f r bad s
    obtain ⟨t, done, request, splices, -⟩ := tests asked idle
    refine ⟨t, done, by rw [request]; simp, fun c hc low suspect serves => (splices _).2 (.inr ⟨c, hc, low, rfl, serves, isSuspect_iff.1 suspect⟩)⟩
  · obtain ⟨-, -, splices, -⟩ := claim_tilesAreSpliced f r c true s hf hr (by omega)
    obtain ⟨t, done, map, bad, -, gone, -⟩ := splices asked spare hc idle
    exact ⟨t, done, map, bad, gone⟩
  · obtain ⟨-, tile⟩ := claim_tilesWear u count s
    obtain ⟨-, -, reads⟩ := tile low col
    obtain ⟨-, wears⟩ := reads base ready known
    obtain ⟨t, done, counted, -, news, -⟩ := wears fell serves
    exact ⟨t, done, counted, news (.inl fresh)⟩
  · obtain ⟨t, done, field, -, bad, -⟩ := phaseFault_sheds new
    exact ⟨t, done, congrArg Field.phasesShed field, bad⟩
  · obtain ⟨t, done, gone, opens, -, raises, records, -⟩ := pllSwitch_opens shut spare
    exact ⟨t, done, gone, opens, raises, records⟩
  · obtain ⟨-, -, begins, -⟩ := claim_controlFailsOver.1 s
    exact begins ⟨standby, runs, active⟩ up silent
  · obtain ⟨t, done, rel, raises, records, -⟩ := standbyLost_done standby runs active silent
    exact ⟨t, done, rel, raises, records⟩
  · obtain ⟨t, raises, records, -, frame, runs⟩ := takeOver_done failed
    have same : gapAbort (becomesActive s) = becomesActive s := by
      rw [gapAbort, show (becomesActive s).cap.armed = none from idle]
    rw [same] at raises records frame
    exact ⟨t, raises, records, frame, runs⟩

end Sys2Proof.Machine
end

section
/-! SUPPORT. Moves complete, waits end, ties arrive, runs open and end (R54 to R64, R177 to R192, R211, R463). -/

namespace Sys2Proof.Machine

/-! ### MOVE_COMPLETION -/

section
variable {tile code pos : Nat} {p : Play} {q : TileQueue} {s : State}

theorem exec_moveCompletion_of_noQueue (none : ∀ p, playOfTile s tile = some p → getQueue p tile code = none) :
    exec (.moveCompletion tile code pos) s = .next s := by
  change execMoveCompletion tile code pos s = _
  rw [execMoveCompletion]
  cases runs : playOfTile s tile with
  | none => rfl
  | some p =>
    dsimp only
    rw [none p runs]

variable (runs : playOfTile s tile = some p) (queue : getQueue p tile code = some q)
include runs queue

theorem exec_moveCompletion_of_none (none : q.moves[pos]? = none) : exec (.moveCompletion tile code pos) s = .next s := by
  change execMoveCompletion tile code pos s = _
  rw [execMoveCompletion, runs]
  dsimp only
  rw [queue]
  dsimp only
  rw [none]

variable {m : QMove} (move : q.moves[pos]? = some m)
include move

theorem exec_moveCompletion_of_early (can : ((code == 1 || pos == 0) && canComplete s p tile m) = false) :
    exec (.moveCompletion tile code pos) s = .next s := by
  change execMoveCompletion tile code pos s = _
  rw [execMoveCompletion, runs]
  dsimp only
  rw [queue]
  dsimp only
  rw [move]
  exact if_neg (by simpa [beq_eq_decide] using can)

theorem exec_moveCompletion_of_can (can : ((code == 1 || pos == 0) && canComplete s p tile m) = true) :
    exec (.moveCompletion tile code pos) s = .next (finishMove p tile code pos m s) := by
  change execMoveCompletion tile code pos s = _
  rw [execMoveCompletion, runs]
  dsimp only
  rw [queue]
  dsimp only
  rw [move]
  exact if_pos (by simpa [beq_eq_decide] using can)

end

/-- A queue that is empty starts nothing, whichever engine it is of. -/
theorem pump_of_emptied {order tile code : Nat} {p : Play} {x : TileQueue} {s : State} (hp : getPlay s order = some p) (hx : getQueue p tile code = some x)
    (empty : x.moves = []) : pump order tile code s = s := by
  by_cases arr : code = 1
  · subst arr
    have stands : resumeArr order tile s = s := by
      simp only [resumeArr, hp, hx, Option.bind_some, feedingAt, empty, List.zipIdx_nil, List.find?_nil, Option.map_none]
    rw [pump, if_pos rfl, stands]
    simp only [pumpArr, hp, hx, empty, nextArr]
  · exact pump_of_empty hp hx empty arr

theorem getPlay_of_plays {s t : State} (h : t.plays = s.plays) (order : Nat) : getPlay t order = getPlay s order := by
  rw [getPlay, h, getPlay]

/-- The only move of a queue completes: it leaves and makes its tie, and the queue, now empty, starts nothing. -/
theorem completeMove_of_only {p : Play} {q : TileQueue} {m : QMove} {tile code pos : Nat} {s : State} (queue : getQueue p tile code = some q)
    (only : q.moves = [m]) (first : pos = 0) (entry : getPlay s p.order = some p) :
    completeMove p tile code pos m s = makeTie p tile m.word (dropMove p.order tile code pos (wrapUp p tile code pos m s)) := by
  have wrapped : getPlay (wrapUp p tile code pos m s) p.order = some p :=
    (getPlay_of_plays (wrapUp_frame p tile code pos m s .plays (by decide)) _).trans entry
  rw [completeMove]
  generalize wrapUp p tile code pos m s = u at *
  let y : Play := p.onQueue tile code fun q => { q with moves := q.moves.eraseIdx pos }
  have dropped : dropMove p.order tile code pos u = setPlay y u := modQueue_eq wrapped tile code _
  have stands : getPlay (makeTie p tile m.word (setPlay y u)) p.order = some y :=
    (getPlay_of_plays (makeTie_frame p tile m.word _ .plays (by decide)) _).trans (getPlay_setPlay (q := y) wrapped)
  rw [dropped]
  exact pump_of_emptied stands (getQueue_onQueue queue fun _ => ⟨rfl, rfl⟩) (by simp [only, first])

theorem wrapUp_of_other {p : Play} {tile code pos : Nat} {m : QMove} {s : State} (other : opOf m.word ∉ [0x12, 0x30]) : wrapUp p tile code pos m s = s := by
  simp only [List.mem_cons, List.not_mem_nil, or_false, not_or] at other
  unfold wrapUp
  split
  next op => exact absurd op other.2
  next op => exact absurd op other.1
  · rfl

theorem findPart_setPart {org sh : Nat} {r q : Partition} {s : State} (found : findPart s org sh = some r) (same : q.org = r.org ∧ q.shape = r.shape) :
    findPart (setPart q s) org sh = some q := by
  have place : r.org = org ∧ r.shape = sh := by simpa using List.find?_some found
  obtain ⟨rfl, rfl⟩ := place
  obtain ⟨org, shape⟩ := same
  have found' : s.parts.find? (fun p => p.org == r.org && p.shape == r.shape) = some r := found
  change (s.parts.map fun p => if p.org = q.org && p.shape = q.shape then q else p).find? (fun p => p.org == r.org && p.shape == r.shape) = some q
  have test (p : Partition) : ((if (decide (p.org = q.org) && decide (p.shape = q.shape)) = true then q else p).org == r.org &&
      (if (decide (p.org = q.org) && decide (p.shape = q.shape)) = true then q else p).shape == r.shape) = (p.org == r.org && p.shape == r.shape) := by
    split
    next here =>
      simp only [Bool.and_eq_true, decide_eq_true_eq] at here
      simp [here.1, here.2, org, shape]
    · rfl
  rw [List.find?_map]
  simp only [Function.comp_def, test, found', Option.map_some]
  simp [org, shape]

theorem wrapUp_of_stream {p : Play} {q : TileQueue} {r : Partition} {tile : Nat} {m : QMove} {s : State} (op : opOf m.word = 0x12)
    (queue : getQueue p tile 1 = some q) (only : q.moves = [m]) (part : findPart s p.org p.shape = some r) :
    wrapUp p tile 1 0 m s = setPart { r with runOpen := false } s := by
  simp only [wrapUp, op, queue, only, part, Option.elim_some]
  simp

/-- A MOVE whose sources still hold what it read, and held it all the time, leaves memory as it is when it completes. -/
theorem settleMove_of_kept {tile : Nat} {m : QMove} {s : State} (held : m.hit = [])
    (kept : ∀ x ∈ m.took, rawRead { s with hints := m.place } x.1 = x.2.2) : settleMove tile m s = s := by
  have go : ∀ (l : List (Nat × Nat × List Byte)) (u : State), (∀ x ∈ l, rawRead u x.1 = x.2.2) → l.foldl (fun s x => settleUnit tile m.hit x s) u = u := by
    intro l
    induction l with
    | nil => exact fun _ _ => rfl
    | cons x l ih =>
      intro u kept
      have same := kept x List.mem_cons_self
      have unit : settleUnit tile m.hit x u = u := by
        obtain ⟨a, d, old⟩ := x
        dsimp only at same
        simp [settleUnit, held, same]
      rw [List.foldl_cons, unit]
      exact ih u fun y hy => kept y (List.mem_cons_of_mem _ hy)
  rw [settleMove, underPlace, go m.took _ kept]

theorem canComplete_iff {p : Play} {tile : Nat} {m : QMove} {s : State} : canComplete s p tile m = true ↔ m.started = true ∧ m.cut = false ∧
    opOf m.word ∉ [0x02, 0x03, 0x04] ∧ (opOf m.word = 0x12 → wf m.word 64 25 ≤ m.next ∧ unaccepted s (p.order, m.idx) = []) ∧
    (opOf m.word ∈ [0x21, 0x22, 0x23, 0x29, 0x41] → m.ready = true) ∧
    (opOf m.word = 0x30 → lostWord m = false ∧ moveWaits { s with hints := m.place } m.word = false) ∧
    (opOf m.word = 0x40 → dispatchDone s tile m.word = true) := by
  simp only [canComplete, Bool.and_eq_true, Bool.not_eq_true', and_assoc, List.mem_cons, List.not_mem_nil, or_false]
  refine and_congr_right fun _ => and_congr_right fun _ => ?_
  split
  all_goals rename_i op
  all_goals simp_all [admitted]

theorem claim_movesComplete : Claim.MovesComplete := by
  refine ⟨fun tile code pos s => exec_moveCompletion_of_noQueue, fun tile code pos p q s runs queue => ⟨exec_moveCompletion_of_none runs queue,
    fun m move => ⟨exec_moveCompletion_of_early runs queue move, fun can answers => ?_, fun port can fails => ?_, fun can only entry => ?_⟩⟩,
    fun p tile code pos m s other => wrapUp_of_other other, fun p q r tile m s op queue only part => ?_, fun p tile code pos m s op => ⟨fun held kept => ?_, ?_⟩,
    fun p tile m s => canComplete_iff⟩
  · rw [exec_moveCompletion_of_can runs queue move can, finishMove, answers]
  · rw [exec_moveCompletion_of_can runs queue move can, finishMove, fails]
  · refine completeMove_of_only queue only ?_ entry
    rw [only] at move
    cases pos with
    | zero => rfl
    | succ n => simp at move
  · rw [wrapUp_of_stream op queue only part]
    exact ⟨findPart_setPart part ⟨rfl, rfl⟩, setPart_frame _ s⟩
  · rw [wrapUp, op]
    exact settleMove_of_kept held kept
  · rw [wrapUp, op]
    exact settleMove_frame tile m s

/-! ### FIREAT_RELEASE, WAIT_SATISFIED and WAIT_TIMEOUT -/

section
variable {tile : Nat} {p : Play} {q : TileQueue} {m : QMove} {r : List QMove} {s s' : State} (runs : playOfTile s tile = some p)
  (queue : getQueue p tile 0 = some q) (head : q.moves = m :: r)
include runs queue head

theorem exec_fireatRelease_of_not (not : opOf m.word ≠ 0x02 ∨ timeTo (BitVec.ofNat 64 (wf m.word 64 64)) s = none ∨ seqHalted s tile = true) :
    exec (.fireatRelease tile) s = .next s := by
  obtain ⟨l, c, moves, f⟩ := q
  cases head
  change execFireatRelease tile s = _
  simp only [execFireatRelease, runs, queue]
  split
  next reached _ fireat time =>
    rw [if_neg]
    rcases not with h | h | h
    · exact absurd (eq_of_beq fireat) h
    · rw [h] at time
      cases time
    · simp [h]
  · rfl

theorem exec_fireatRelease_of_reached (op : opOf m.word = 0x02) (time : timeTo (BitVec.ofNat 64 (wf m.word 64 64)) s = some s')
    (free : seqHalted s tile = false) (past : wf m.word 64 64 ≤ (routerCt s' tile).toNat) :
    exec (.fireatRelease tile) s = .next (completeMove p tile 0 0 m s') := by
  obtain ⟨l, c, moves, f⟩ := q
  cases head
  change execFireatRelease tile s = _
  simp [execFireatRelease, runs, queue, op, time, free, past]

theorem exec_fireatRelease_of_early (op : opOf m.word = 0x02) (time : timeTo (BitVec.ofNat 64 (wf m.word 64 64)) s = some s')
    (early : (routerCt s' tile).toNat < wf m.word 64 64) : exec (.fireatRelease tile) s = .next s := by
  obtain ⟨l, c, moves, f⟩ := q
  cases head
  change execFireatRelease tile s = _
  simp [execFireatRelease, runs, queue, op, time, early]

end

theorem exec_fireatRelease_of_empty {tile : Nat} {s : State}
    (empty : ∀ p q, playOfTile s tile = some p → getQueue p tile 0 = some q → q.moves = []) : exec (.fireatRelease tile) s = .next s := by
  change execFireatRelease tile s = _
  rw [execFireatRelease]
  cases runs : playOfTile s tile with
  | none => rfl
  | some p =>
    cases queue : getQueue p tile 0 with
    | none => simp only [queue]
    | some q =>
      obtain ⟨l, c, moves, f⟩ := q
      cases (empty p _ runs queue : moves = [])
      simp only [queue]

theorem waitPos_some {q : TileQueue} {pos : Nat} {m : QMove} (h : waitPos q = some (pos, m)) : q.moves[pos]? = some m ∧ m.started = true ∧ opOf m.word = 0x04 := by
  obtain ⟨⟨x, n⟩, found, same⟩ := Option.map_eq_some_iff.1 h
  cases same
  have test := List.find?_some found
  simp only [Bool.and_eq_true, beq_iff_eq] at test
  exact ⟨List.mem_zipIdx_iff_getElem?.1 (List.mem_of_find?_eq_some found), test⟩

section
variable {tile code : Nat} {p : Play} {q : TileQueue} {s : State} (runs : playOfTile s tile = some p) (queue : getQueue p tile code = some q)
include runs queue

theorem exec_waitSatisfied_of_queue : exec (.waitSatisfied tile code) s = (if queueHalted s tile code then .next s else
    (waitPos q).elim (.next (pump p.order tile code s)) fun x => if waitOk s tile x.2.word then .next (completeMove p tile code x.1 x.2 s) else .next s) := by
  change execWaitSatisfied tile code s = _
  simp only [execWaitSatisfied, runs, queue]
  cases waitPos q with
  | none => rfl
  | some x => rfl

theorem exec_waitTimeout_of_queue : exec (.waitTimeout tile code) s = (waitPos q).elim (.next s) fun x =>
    if wf x.2.word 107 16 != 0 && decide (wf x.2.word 107 16 ≤ (routerCt s tile).toNat / 65536 - x.2.since) && !queueHalted s tile code && !waitOk s tile x.2.word then
      .next (failPlay p.order (moveFailure Status.waitTimeout x.2 tile) s)
    else .next s := by
  change execWaitTimeout tile code s = _
  simp only [execWaitTimeout, runs, queue, Option.bind_some]
  cases waitPos q with
  | none => rfl
  | some x => rfl

end

theorem claim_waitsEnd : Claim.WaitsEnd := by
  refine ⟨fun tile code s none => ?_, fun tile s => exec_fireatRelease_of_empty, fun tile p q m r s runs queue head =>
    ⟨exec_fireatRelease_of_not runs queue head, fun s' op time free => ⟨exec_fireatRelease_of_reached runs queue head op time free,
      exec_fireatRelease_of_early runs queue head op time⟩⟩, fun tile code p q s runs queue => ?_⟩
  · change execWaitSatisfied tile code s = _ ∧ execWaitTimeout tile code s = _
    rw [execWaitSatisfied, execWaitTimeout]
    cases runs : playOfTile s tile with
    | none => exact ⟨rfl, rfl⟩
    | some p =>
      have empty := none p runs
      refine ⟨?_, ?_⟩
      · dsimp only
        rw [empty]
        split
        · rfl
        · rfl
      · dsimp only
        rw [empty]
        rfl
  · have satisfied := exec_waitSatisfied_of_queue runs queue
    have timeout := exec_waitTimeout_of_queue runs queue
    refine ⟨fun halted => ⟨satisfied.trans (if_pos halted), timeout.trans ?_⟩, fun goes none => ⟨satisfied.trans ?_, timeout.trans ?_⟩, fun pos m wait => ?_⟩
    · cases waitPos q with
      | none => rfl
      | some x => exact if_neg (by simp [halted])
    · rw [goes, none]
      rfl
    · rw [none]
      rfl
    · obtain ⟨at_, started, op⟩ := waitPos_some wait
      rw [wait] at satisfied timeout
      refine ⟨at_, started, op, fun goes ok => ⟨satisfied.trans ?_, timeout.trans (if_neg (by simp [ok]))⟩, fun goes short => ⟨satisfied.trans ?_, ?_⟩⟩
      · rw [goes]
        exact (if_neg Bool.false_ne_true).trans (if_pos ok)
      · rw [goes]
        exact (if_neg Bool.false_ne_true).trans (if_neg (by simp [short]))
      · refine ⟨fun limit late => timeout.trans (if_pos ?_), fun early => timeout.trans (if_neg ?_)⟩
        · have limited : wf m.word 107 16 ≠ 0 := by omega
          simp [limited, late, goes, short]
        · intro h
          simp only [Bool.and_eq_true, bne_iff_ne, ne_eq, decide_eq_true_eq] at h
          omega

/-! ### REMOTE_TIE_ARRIVAL -/

/-- A command whose packet is on the mesh lands it, where it leaves a lost one alone and lets one that has arrived act. -/
theorem lands_of_arrive {c : Transit → Instr} {x : MeshItem} {y : Source × MeshItem} {does : State → State} {s s₀ : State}
    (takes : meshTake x s = some (y, s₀)) (opened : itemClosed s₀ y.2 = false)
    (lost : ∀ t u, meshArrive x t s = .lost u → exec (c t) s = .next u)
    (got : ∀ t u, meshArrive x t s = .got y.2 u → exec (c t) s = .next (does u)) : Lands c y does s s₀ := by
  refine ⟨got _ _ ?_, fun a b => lost _ _ ?_, fun k w => ?_⟩
  · rw [meshArrive_of_take takes, crossArrive_of_ok opened]
  · rw [meshArrive_of_take takes, crossArrive_of_overrun opened]
  · obtain ⟨discards, keeps⟩ := crossArrive_of_hop opened k w
    rw [← meshArrive_of_take takes] at discards keeps
    intro r
    cases fate : r.1 with
    | true => exact (lost _ _ (discards fate)).trans (congrArg _ (if_pos rfl).symm)
    | false => exact (got _ _ (keeps fate)).trans (congrArg _ (if_neg Bool.false_ne_true).symm)

theorem meshTake_of_first {x : MeshItem} {src : Source} {l r : List (Source × MeshItem)} {s : State} (first : s.mesh = l ++ (src, x) :: r)
    (before : ∀ i ∈ l, i.2.bare ≠ x.bare ∧ (i.1 = src → nodeOf s i.2 ≠ nodeOf s x)) : meshTake x s = some ((src, x), { s with mesh := l ++ r }) := by
  have go : ∀ (l before : List (Source × MeshItem)), (∀ i ∈ l, i.2.bare ≠ x.bare) → (∀ i ∈ before ++ l, i.1 = src → nodeOf s i.2 ≠ nodeOf s x) →
      meshTakeFrom s x before (l ++ (src, x) :: r) = some ((src, x), before ++ l ++ r) := by
    intro l
    induction l with
    | nil =>
      intro before _ apart
      rw [List.nil_append, meshTakeFrom, if_pos rfl, if_neg, List.append_nil]
      simp only [List.any_eq_true, Bool.and_eq_true, beq_iff_eq, not_exists, not_and]
      exact fun i hi => apart i (by simpa using hi)
    | cons y l ih =>
      intro before other apart
      obtain ⟨z, w⟩ := y
      rw [List.cons_append, meshTakeFrom, if_neg (other (z, w) List.mem_cons_self), ih (before ++ [(z, w)]) (fun i hi => other i (List.mem_cons_of_mem _ hi))
        (fun i hi => apart i (by simpa using hi))]
      simp
  rw [meshTake, first, go l [] (fun i hi => (before i hi).1) fun i hi => (before i hi).2]
  rfl

theorem exec_remoteTieArrival_of_none {src : Source} {node : Nat} {x : Transit} {s : State}
    (none : ∀ i ∈ s.mesh, i.1 = src → nodeOf s i.2 = node → ∀ kind target k amount qt qc, i.2 ≠ .tie kind target k amount qt qc) :
    exec (.remoteTieArrival src node x) s = .next s := by
  change execRemoteTieArrival src node x s = _
  rw [execRemoteTieArrival]
  split
  next _ kind target k amount qt qc found =>
    have test := List.find?_some found
    simp only [Bool.and_eq_true, beq_iff_eq] at test
    exact absurd rfl (none _ (List.mem_of_find?_eq_some found) test.1.1 test.1.2 kind target k amount qt qc)
  · rfl

section
variable {src : Source} {kind target k qt qc : Nat} {amount : W32} {l r : List (Source × MeshItem)} {s : State}

/-- What a tie does that has arrived. -/
def tieLands (kind target k : Nat) (amount : W32) (qt qc : Nat) (s : State) : State :=
  serveFetches (tieArrived qt qc
    (if (playOfTile s qt).elim false fun p => p.seqs.any fun q => q.tile == tieKnot kind target k qt / 128 then addKnot (tieKnot kind target k qt) amount s
    else outerTie (tieKnot kind target k qt) amount s))

theorem find?_of_first {α : Type} {P : α → Bool} {l r : List α} {x : α} (passes : P x = true) (before : ∀ i ∈ l, P i = false) :
    (l ++ x :: r).find? P = some x := by
  rw [List.find?_append, List.find?_eq_none.2 fun i hi => by simp [before i hi], Option.none_or, List.find?_cons_of_pos passes]

variable (first : s.mesh = l ++ (src, .tie kind target k amount qt qc) :: r)
  (before : ∀ i ∈ l, i.2 ≠ .tie kind target k amount qt qc ∧ (i.1 = src → nodeOf s i.2 ≠ nodeOf s (.tie kind target k amount qt qc)))
include first before

theorem exec_remoteTieArrival_of_lost {t : Transit} {u : State} (lost : meshArrive (.tie kind target k amount qt qc) t s = .lost u) :
    exec (.remoteTieArrival src (nodeOf s (.tie kind target k amount qt qc)) t) s = .next u := by
  change execRemoteTieArrival src (nodeOf s (.tie kind target k amount qt qc)) t s = _
  rw [execRemoteTieArrival, first, find?_of_first]
  · dsimp only
    rw [lost]
  · simp
  · intro i hi
    by_cases source : i.1 = src
    · simp [(before i hi).2 source]
    · simp [source]

theorem exec_remoteTieArrival_of_got {t : Transit} {x : MeshItem} {u : State} (got : meshArrive (.tie kind target k amount qt qc) t s = .got x u) :
    exec (.remoteTieArrival src (nodeOf s (.tie kind target k amount qt qc)) t) s = .next (tieLands kind target k amount qt qc u) := by
  change execRemoteTieArrival src (nodeOf s (.tie kind target k amount qt qc)) t s = _
  rw [execRemoteTieArrival, first, find?_of_first]
  · dsimp only
    rw [got]
    rfl
  · simp
  · intro i hi
    by_cases source : i.1 = src
    · simp [(before i hi).2 source]
    · simp [source]

end

theorem tieArrived_of_only {tile code : Nat} {p : Play} {q : TileQueue} {m : QMove} {s : State} (runs : playOfTile s tile = some p)
    (queue : getQueue p tile code = some q) (only : q.moves = [m]) (started : m.started = true) (op : opOf m.word = 0x03) :
    tieArrived tile code s = if m.left ≤ 1 then completeMove p tile code 0 m s else putMove p.order tile code 0 { m with left := m.left - 1 } s := by
  simp [tieArrived, runs, queue, only, started, op]

theorem losePacket_of_tie {cls t c kind target k qt qc : Nat} {amount : W32} {s : State} :
    (playOfTile s t = none → losePacket cls (.queue t c, .tie kind target k amount qt qc) s = if cls = 1 then faultStep 0 s else s) ∧
    ∀ p, playOfTile s t = some p →
      (cls = 1 ∨ p.rerun = true → losePacket cls (.queue t c, .tie kind target k amount qt qc) s =
        faultPlay p.order cls (itemAt p (.queue t c, .tie kind target k amount qt qc) t) s) ∧
      (cls ≠ 1 → p.rerun = false → losePacket cls (.queue t c, .tie kind target k amount qt qc) s = faultStep p.step s) := by
  have noted : noteLost (.queue t c, .tie kind target k amount qt qc) s = s := rfl
  refine ⟨fun none => ?_, fun p runs => ⟨fun faults => ?_, fun other plain => ?_⟩⟩
  · simp [losePacket, noted, itemTile, none, itemStep]
  · simp [losePacket, noted, itemTile, runs]
    intro a b
    simp [a, b] at faults
  · simp [losePacket, noted, itemTile, runs, other, plain]

theorem claim_remoteTiesArrive : Claim.RemoteTiesArrive := by
  refine ⟨fun src node x s => exec_remoteTieArrival_of_none, ?_, fun key v s => ⟨rfl, (outerTie_frame key v s).mono (by decide)⟩, ?_,
    fun step s => ⟨fun done => if_neg (by omega), fun open_ => ⟨?_, faultStep_frame step s⟩⟩,
    fun tile code p q m s runs queue only started op => ⟨fun last => ?_, fun more => ?_⟩⟩
  · intro src kind target k qt qc amount l r s tie first before s₀ key own
    have takes : meshTake tie s = some ((src, tie), s₀) := meshTake_of_first first fun i hi => ⟨fun same => ?_, (before i hi).2⟩
    · refine ⟨fun closed x => exec_remoteTieArrival_of_lost first before ?_, fun opened => lands_of_arrive takes opened
        (fun t u => exec_remoteTieArrival_of_lost first before) fun t u => exec_remoteTieArrival_of_got first before⟩
      rw [meshArrive_of_take takes, crossArrive_of_closed closed]
    · obtain ⟨from_, item⟩ := i
      have other := (before _ hi).1
      cases item with
      | contrib tag c => cases same
      | leaf tag l => cases same
      | _ => exact other same
  · intro cls t c kind target k qt qc amount s x
    refine ⟨fun none => (losePacket_of_tie.1 none).trans ?_, losePacket_of_tie.2⟩
    split
    · exact if_neg (Nat.not_lt_zero _)
    · rfl
  · have marks : faultStep step s = { s with cap := { s.cap with stepFaulted := true } } := if_pos open_
    rw [marks]
  · exact (tieArrived_of_only runs queue only started op).trans (if_pos last)
  · exact (tieArrived_of_only runs queue only started op).trans (if_neg (by omega))

/-! ### Ramp starts and pass beats (R54 to R64) -/

theorem exec_rampStartGrant_of_not {now : Nat} {s : State} (not : s.rampQueue = [] ∨ ∃ t, s.rampLast = some t ∧ now < t + 64) :
    exec (.rampStartGrant now) s = .next s := by
  change execRampStartGrant now s = _
  rw [execRampStartGrant]
  rcases not with none | ⟨t, last, soon⟩
  · rw [none]
  · split
    · rfl
    · rw [last, if_pos (by simpa using soon)]

/-- The first ramp request is taken. -/
def takeRamp (now : Nat) (r : List (Nat × Nat × Nat)) (s : State) : State := { s with rampQueue := r, rampLast := some now }

section
variable {now ct org sh : Nat} {r : List (Nat × Nat × Nat)} {s : State} (first : s.rampQueue = (ct, org, sh) :: r)
  (rested : ∀ t, s.rampLast = some t → t + 64 ≤ now)
include first rested

theorem exec_rampStartGrant_of_gone (gone : runningOn s org sh = none ∨ findPart s org sh = none) :
    exec (.rampStartGrant now) s = .next (takeRamp now r s) := by
  change execRampStartGrant now s = _
  rw [execRampStartGrant, first]
  dsimp only
  rw [if_neg]
  · split
    next p q runs part =>
      rcases gone with h | h
      · exact absurd (runs.symm.trans h) nofun
      · exact absurd (part.symm.trans h) nofun
    · rfl
  · cases last : s.rampLast with
    | none => simp
    | some t => simpa using rested t last

variable {p : Play} {q : Partition} (runs : runningOn s org sh = some p) (part : findPart s org sh = some q)
include runs part

theorem exec_rampStartGrant_of_first : exec (.rampStartGrant now) s =
    if passing s (tileField org) then .next (setPart { q with rampWait := false } (takeRamp now r s))
    else .next (pump p.order org 1 (setPart { q with rampWait := false, runOpen := true, runRows := 0, runFrom := s.cad.ct.toNat } (takeRamp now r s))) := by
  change execRampStartGrant now s = _
  rw [execRampStartGrant, first]
  dsimp only
  rw [if_neg]
  · split
    next p' q' runs' part' =>
      cases runs'.symm.trans runs
      cases part'.symm.trans part
      rfl
    next none => exact absurd part (none p q runs)
  · cases last : s.rampLast with
    | none => simp
    | some t => simpa using rested t last

end

theorem mem_rampInsert {x z : Nat × Nat × Nat} : ∀ {l : List (Nat × Nat × Nat)}, z ∈ rampInsert x l ↔ z = x ∨ z ∈ l := by
  intro l
  induction l with
  | nil => simp [rampInsert]
  | cons y l ih =>
    rw [rampInsert]
    split
    · exact List.mem_cons
    · rw [List.mem_cons, ih, List.mem_cons]
      tauto

/-- A ramp request comes no later than another: by CT, and then by its origin. -/
def RampBefore (a b : Nat × Nat × Nat) : Prop := a.1 < b.1 ∨ (a.1 = b.1 ∧ a.2.1 ≤ b.2.1)

theorem rampInsert_sorted {x : Nat × Nat × Nat} : ∀ {l : List (Nat × Nat × Nat)}, l.Pairwise RampBefore → (rampInsert x l).Pairwise RampBefore := by
  intro l
  induction l with
  | nil => exact fun _ => List.pairwise_singleton _ _
  | cons y l ih =>
    intro sorted
    obtain ⟨above, rest⟩ := List.pairwise_cons.1 sorted
    rw [rampInsert]
    split
    next low =>
      have low : x.1 < y.1 ∨ (x.1 = y.1 ∧ x.2.1 < y.2.1) := by simpa using low
      have below : RampBefore x y := low.imp id fun h => ⟨h.1, h.2.le⟩
      refine List.pairwise_cons.2 ⟨fun z hz => ?_, sorted⟩
      rcases List.mem_cons.1 hz with rfl | deeper
      · exact below
      · have next := above z deeper
        unfold RampBefore at *
        omega
    next high =>
      have high : ¬(x.1 < y.1 ∨ (x.1 = y.1 ∧ x.2.1 < y.2.1)) := by simpa using high
      refine List.pairwise_cons.2 ⟨fun z hz => ?_, ih rest⟩
      rcases mem_rampInsert.1 hz with rfl | deeper
      · unfold RampBefore
        omega
      · exact above z deeper

theorem askRamp_sorted {q : Partition} {s : State} (sorted : s.rampQueue.Pairwise RampBefore) :
    (askRamp q s).rampQueue.Pairwise RampBefore ∧ ∃ x ∈ (askRamp q s).rampQueue, x.2 = (q.org, q.shape) := by
  unfold askRamp
  split
  next stands =>
    obtain ⟨x, hx, same⟩ := List.any_eq_true.1 stands
    exact ⟨sorted, x, hx, eq_of_beq same⟩
  · exact ⟨rampInsert_sorted sorted, _, mem_rampInsert.2 (.inl rfl), rfl⟩

theorem passBeat_done {f : Nat} {s : State} (passes : passing s f = true) : ∃ t, exec (.passBeat f) s = .next t ∧ (getField t f).passNow = true ∧
    (∀ q ∈ t.parts, tileField q.org = f → q.runOpen = false) ∧ (∀ g, g ≠ f → getField t g = getField s g) ∧ OnlyChanges [.fields, .parts] s t := by
  refine ⟨closeRuns f (adjField f (fun x => { x with passNow := true }) s), if_pos passes, ?_, ?_, fun g ne => ?_, ?_⟩
  · exact congrArg Field.passNow (getField_adjField_self f (fun x => { x with passNow := true }) s)
  · intro q hq field
    obtain ⟨p, -, rfl⟩ := List.mem_map.1 hq
    split at field
    · rw [if_pos (by assumption)]
    next other => exact absurd field other
  · exact getField_adjField_ne ne (fun x => { x with passNow := true }) s
  · exact ((adjField_frame f _ s).mono (by decide)).trans ((closeRuns_frame f _).mono (by decide))

theorem runLive_iff {q : Partition} {s : State} : let k := (getField s (tileField q.org)).clockMHz * s.cad.periodPs
    let due := q.runFrom + rowCycle (shapeRamped q.shape) q.runRows * 65536000000 / k
    runLive s q = true ↔ q.runOpen = true ∧ (s.cad.ct.toNat - due) * k < 8 * 65536000000 := by
  intro k due
  have same : runDue s q = due := rfl
  rw [runLive, same, Bool.and_eq_true, Bool.or_eq_true, beq_iff_eq, decide_eq_true_eq]
  refine and_congr_right fun _ => ?_
  change (s.cad.ct.toNat - due) * k = 0 ∨ (s.cad.ct.toNat - due) * k < 8 * 65536000000 ↔ (s.cad.ct.toNat - due) * k < 8 * 65536000000
  generalize (s.cad.ct.toNat - due) * k = gap
  omega

theorem windows_rows : ∀ u < 21, let w := windowsFor (u + 1) 6 1
    rowCycle true u = 8 * (w - 1) + (u - w * (w - 1) / 2) ∧ w * (w - 1) / 2 ≤ u ∧ u < w * (w + 1) / 2 := by decide

theorem claim_rampAndPassBeats : Claim.RampAndPassBeats := by
  refine ⟨fun now s => exec_rampStartGrant_of_not, fun now ct org sh r s first rested => ⟨exec_rampStartGrant_of_gone first rested, fun p q runs part =>
      ⟨fun passes => (exec_rampStartGrant_of_first first rested runs part).trans (if_pos passes),
        fun goes => (exec_rampStartGrant_of_first first rested runs part).trans (if_neg (by simp [goes]))⟩⟩,
    fun q s => askRamp_sorted, fun f s => passing_iff s f, fun f s => ⟨fun goes => if_neg (by simp [goes]), passBeat_done⟩, fun q s => ⟨runLive_iff, ?_⟩, windows_rows,
    fun u high => ?_, fun u => rfl, fun s => ⟨rfl, closePassing_frame s⟩⟩
  · rw [rampOk, Bool.or_eq_true, Bool.not_eq_true']
  · simp [rowCycle, high]

/-! ### MOVE_REPLAY and SEQ_HANG (R211, R463) -/

/-- Where reading or writing a unit goes on, its state has a property. -/
def GoesOnWith {α : Type} (P : State → Prop) : UnitRes α → Prop
  | .ok _ t => P t
  | .stop _ _ => True
  | .bad _ => True

theorem GoesOnWith.of_ok {α : Type} {P : State → Prop} {r : UnitRes α} {x : α} {t : State} (h : GoesOnWith P r) (ok : r = .ok x t) : P t := by
  rw [ok] at h
  exact h

section
variable {α : Type} {P : State → Prop}

theorem goesOnWith_ok {t : State} (h : P t) (x : α) : GoesOnWith P (.ok x t) := h

theorem goesOnWith_stop (st : BitVec 16) (t : State) : GoesOnWith P (.stop st t : UnitRes α) := trivial

theorem goesOnWith_bad (t : State) : GoesOnWith P (.bad t : UnitRes α) := trivial

end

theorem nearUnit_same (p : Play) (s : State) (a : Nat) : GoesOnWith (fun t => t = s) (nearUnit p s a) := by
  unfold nearUnit
  split
  · exact goesOnWith_stop _ _
  split
  · exact goesOnWith_bad _
  · exact (rfl : s = s)

/-- What copying a unit leaves unchanged where it has no fault of a rim stack: nothing is recorded, no crossing is met. -/
theorem unitRead_quiet (p : Play) (tile a : Nat) {f : MoveFault} (s : State) (noRim : ∀ b row r, f ≠ .rim b row r) :
    GoesOnWith (OnlyChanges [.caches, .host, .near, .mem] s) (unitRead p tile f a s) := by
  have near (b : Nat) := nearUnit_same p s b
  have cached := cacheRead_frame s tile (a / 128)
  unfold unitRead
  generalize spaceOf a = z
  generalize hintResolve s a = y
  cases z with
  | near =>
    dsimp only
    split
    · exact goesOnWith_stop _ _
    · generalize cacheRead s tile (a / 128) = r at cached
      cases r with
      | some x => exact goesOnWith_ok (OnlyChanges.mono cached (by decide)) _
      | none =>
        have same := near a
        generalize nearUnit p s a = r at same
        cases r with
        | ok d t =>
          obtain rfl : t = s := same
          exact goesOnWith_ok ((cacheFill_frame _ _ _ _).mono (by decide)) _
        | stop st t => exact goesOnWith_stop _ _
        | bad t => exact goesOnWith_bad _
  | rim =>
    dsimp only
    split
    next b row r => exact absurd rfl (noRim b row r)
    · exact goesOnWith_ok (.refl _ s) _
  | hint =>
    cases y with
    | near b =>
      have same := near b
      dsimp only
      generalize nearUnit p s b = r at same
      cases r with
      | ok d t =>
        obtain rfl : t = s := same
        exact goesOnWith_ok (.refl _ t) _
      | stop st t => exact goesOnWith_stop _ _
      | bad t => exact goesOnWith_bad _
    | host port b =>
      dsimp only
      split
      · exact goesOnWith_stop _ _
      · exact goesOnWith_ok (.refl _ s) _
    | none => exact goesOnWith_stop _ _
  | _ => exact goesOnWith_ok (.refl _ s) _

theorem unitWrite_quiet (p : Play) (tile : Nat) (f : MoveFault) (a : Nat) (d : List Byte) (s : State) :
    GoesOnWith (OnlyChanges [.caches, .host, .near, .mem] s) (unitWrite p tile f a d s) := by
  have plain : OnlyChanges [.caches, .host, .near, .mem] s (writeBytes a d s) := (writeBytes_frame _ _ _).mono (by decide)
  have stored (b : Nat) : OnlyChanges [.caches, .host, .near, .mem] s (writeBytes b d (unpoison b 128 s)) :=
    ((unpoison_frame _ _ _).mono (by decide)).trans ((writeBytes_frame _ _ _).mono (by decide))
  unfold unitWrite
  generalize spaceOf a = z
  generalize hintResolve s a = y
  cases z with
  | near =>
    dsimp only
    split
    · exact goesOnWith_stop _ _
    · exact goesOnWith_ok ((stored a).trans ((cacheUpdate_frame _ _ _ _).mono (by decide))) _
  | hint =>
    cases y with
    | near b =>
      dsimp only
      split
      · exact goesOnWith_stop _ _
      · exact goesOnWith_ok (stored b) _
    | host port b =>
      dsimp only
      split
      · exact goesOnWith_stop _ _
      · exact goesOnWith_ok ((hostWrite_frame _ _ _ _).mono (by decide)) _
    | none => exact goesOnWith_stop _ _
  | _ => exact goesOnWith_ok plain _

theorem copyUnits_quiet {p : Play} {tile : Nat} {m : QMove} (noRim : ∀ b row r, m.fault ≠ .rim b row r) :
    ∀ (l : List (Nat × Nat)) (took took' : List (Nat × Nat × List Byte)) (s t : State), copyUnits p tile m l took s = .ok took' t →
      OnlyChanges [.caches, .host, .near, .mem] s t := by
  intro l
  induction l with
  | nil =>
    intro took took' s t copies
    cases copies
    exact .refl _ s
  | cons x l ih =>
    obtain ⟨a, d⟩ := x
    intro took took' s t copies
    rw [copyUnits] at copies
    split at copies
    next x fresh u reads =>
      split at copies
      next v writes => exact ((unitRead_quiet p tile _ s noRim).of_ok reads).trans (((unitWrite_quiet p tile m.fault d x u).of_ok writes).trans (ih _ _ _ _ copies))
      · cases copies
      · cases copies
    · cases copies
    · cases copies

/-- A copy that runs on, without a fault of a rim stack, records nothing and meets no crossing. -/
theorem runMove_quiet {p : Play} {tile : Nat} {m m' : QMove} {s t : State} (noRim : ∀ b row r, m.fault ≠ .rim b row r)
    (runs : runMove p tile m s = .run m' t) : OnlyChanges [.caches, .host, .freeCtr, .near, .mem] s t := by
  unfold runMove at runs
  dsimp only at runs
  split at runs
  · cases runs
  split at runs
  · cases runs
  split at runs
  next took u copies =>
    cases runs
    have frame := ((copyUnits_quiet noRim _ _ _ _ _ copies).mono (m := [.caches, .host, .freeCtr, .near, .mem]) (by decide)).trans
      ((freeOverlap_frame { s with hints := m.place } p tile m.word u).mono (by decide))
    intro part hp
    have k := frame part hp
    cases part with
    | hints => rfl
    | _ => exact k
  · cases runs
  · cases runs

section
variable {tile code : Nat} {p : Play} {q : TileQueue} {m : QMove} {r : List QMove} {f : MoveFault} {s : State} (runs : playOfTile s tile = some p)
  (queue : getQueue p tile code = some q) (head : q.moves = m :: r) (started : m.started = true) (op : opOf m.word = 0x30) (lost : lostWord m = true)
include runs queue head started op lost

theorem exec_moveReplay_of_run {m' : QMove} {s' : State} (again : replayMove p tile m f s = .run m' s') :
    exec (.moveReplay tile code f) s = .next (addDests p.order (destsOf p tile m' s) (putMove p.order tile code 0 m' s')) := by
  obtain ⟨l, c, moves, fr⟩ := q
  cases head
  change execMoveReplay tile code f s = _
  simp only [execMoveReplay, runs, queue, started, op, lost, again, beq_self_eq_true, Bool.and_self, if_true]

theorem exec_moveReplay_of_fail {st : BitVec 16} {s' : State} (again : replayMove p tile m f s = .fail st s') : exec (.moveReplay tile code f) s =
    .next (failPlay p.order (moveFailure st m tile) (addDests p.order (failDests p tile { m with fault := f } st s s') (dropMove p.order tile code 0 s'))) := by
  obtain ⟨l, c, moves, fr⟩ := q
  cases head
  change execMoveReplay tile code f s = _
  simp only [execMoveReplay, runs, queue, started, op, lost, again, beq_self_eq_true, Bool.and_self, if_true]

theorem exec_moveReplay_of_fault {cls : Nat} {s' : State} (again : replayMove p tile m f s = .fault cls s') :
    exec (.moveReplay tile code f) s = .next (faultPlay p.order cls (faultOf m tile) (dropMove p.order tile code 0 s')) := by
  obtain ⟨l, c, moves, fr⟩ := q
  cases head
  change execMoveReplay tile code f s = _
  simp only [execMoveReplay, runs, queue, started, op, lost, again, beq_self_eq_true, Bool.and_self, if_true]

theorem exec_moveReplay_of_wait (again : replayMove p tile m f s = .hold ∨ ∃ s', replayMove p tile m f s = .done s') :
    exec (.moveReplay tile code f) s = .next s := by
  obtain ⟨l, c, moves, fr⟩ := q
  cases head
  change execMoveReplay tile code f s = _
  rcases again with again | ⟨s', again⟩
  · simp only [execMoveReplay, runs, queue, started, op, lost, again, beq_self_eq_true, Bool.and_self, if_true]
  · simp only [execMoveReplay, runs, queue, started, op, lost, again, beq_self_eq_true, Bool.and_self, if_true]

end

theorem exec_moveReplay_of_none {tile code : Nat} {f : MoveFault} {s : State} (none : ∀ p q m r, playOfTile s tile = some p → getQueue p tile code = some q →
    q.moves = m :: r → (m.started && opOf m.word == 0x30 && lostWord m) = false) : exec (.moveReplay tile code f) s = .next s := by
  change execMoveReplay tile code f s = _
  rw [execMoveReplay]
  cases runs : playOfTile s tile with
  | none => rfl
  | some p =>
    dsimp only
    cases queue : getQueue p tile code with
    | none => rfl
    | some q =>
      obtain ⟨l, c, moves, fr⟩ := q
      cases moves with
      | nil => rfl
      | cons m r => exact if_neg (by simp [none p _ m r runs queue rfl])

/-- A second loss at a full crossing faults the play. -/
theorem replayMove_of_overrun {p : Play} {tile a b : Nat} {m : QMove} {s : State} (other : pcieWord a b = false) :
    replayMove p tile m (.overrun a b) s = .fault 16 (xingRecordFor p.origin p.id p.step a b false s) := by
  simp [replayMove, faultMove, other]

theorem replayMove_of_parity {p : Play} {tile : Nat} {m : QMove} {pl : ParityPlace} {x : DataWord} {s : State}
    (lost : (parityMeets pl x p.origin p.id p.step s).1 = true) :
    replayMove p tile m (.parity pl x) s = .fault 1 (parityMeets pl x p.origin p.id p.step s).2 := by
  generalize meets : parityMeets pl x p.origin p.id p.step s = r at lost
  obtain ⟨gone, u⟩ := r
  cases lost
  rw [replayMove, faultMove]
  dsimp only
  rw [meets]
  cases pl <;> rfl

/-- A copy without a fault of its own way is run as it stands. -/
theorem faultMove_of_plain {p : Play} {tile : Nat} {m : QMove} {s : State} {lose : Nat → State → Start} (xing : ∀ a b, m.fault ≠ .overrun a b)
    (parity : ∀ x y, m.fault ≠ .parity x y) : faultMove p tile m s lose = runMove p tile m s := by
  unfold faultMove
  split
  next a b same => exact absurd same (xing a b)
  next x y same => exact absurd same (parity x y)
  · rfl

theorem moveReplay_copies {tile code : Nat} {p : Play} {q : TileQueue} {m m' : QMove} {r : List QMove} {f : MoveFault} {s s' : State}
    (runs : playOfTile s tile = some p) (queue : getQueue p tile code = some q) (head : q.moves = m :: r) (started : m.started = true)
    (op : opOf m.word = 0x30) (lost : lostWord m = true) (xing : ∀ a b, f ≠ .overrun a b) (parity : ∀ x y, f ≠ .parity x y)
    (rim : ∀ x y z, f ≠ .rim x y z) (copies : runMove p tile { m with fault := f, replayed := true } s = .run m' s') :
    ∃ t, exec (.moveReplay tile code f) s = .next t ∧ Records (lostClass m) s t ∧ t.mem = s'.mem ∧ t.caches = s'.caches ∧ t.near = s'.near := by
  have quiet := runMove_quiet rim copies
  have again : replayMove p tile m f s =
      .run m' (record (lostClass m) 3 0 p.origin (unitOf 0 (physTile s' tile)) (BitVec.ofNat 32 tile) p.id p.step [] s') := by
    rw [replayMove, faultMove_of_plain xing parity, copies]
  have done := exec_moveReplay_of_run runs queue head started op lost again
  have records : Records (lostClass m) s (record (lostClass m) 3 0 p.origin (unitOf 0 (physTile s' tile)) (BitVec.ofNat 32 tile) p.id p.step [] s') := by
    refine records_record (congrArg Store.ledger (quiet .store (by decide))) ?_ ..
    rw [Calm, Calm, show s'.xing = s.xing from quiet .xing (by decide)]
    exact id
  have frame := record_frame (lostClass m) 3 0 p.origin (unitOf 0 (physTile s' tile)) (BitVec.ofNat 32 tile) p.id p.step [] s'
  generalize record (lostClass m) 3 0 p.origin (unitOf 0 (physTile s' tile)) (BitVec.ofNat 32 tile) p.id p.step [] s' = u at *
  have noted : OnlyChanges [.plays] u (addDests p.order (destsOf p tile m' s) (putMove p.order tile code 0 m' u)) :=
    (putMove_frame _ _ _ _ _ _).trans (addDests_frame _ _ _)
  obtain ⟨x, l, ledger, rest⟩ := records
  exact ⟨_, done, ⟨x, l, (congrArg Store.ledger (noted .store (by decide))).trans ledger, rest⟩, (noted .mem (by decide)).trans (frame .mem (by decide)),
    (noted .caches (by decide)).trans (frame .caches (by decide)), (noted .near (by decide)).trans (frame .near (by decide))⟩

/-- A fault of a live play stops it, with its class. -/
theorem faultPlay_of_live {s : State} {p : Play} (h : getPlay s p.order = some p) (live : p.live = true) (cls : Nat) (at_ : Nat × Nat × Nat) :
    faultPlay p.order cls at_ s = setPlay { stopPlay p with faulted := some cls, faultAt := at_ } s := by
  simp only [Play.live, Bool.and_eq_true, Bool.not_eq_true', Option.isNone_iff_eq_none] at live
  obtain ⟨⟨⟨-, noFail⟩, noFault⟩, held⟩ := live
  simp [faultPlay, h, noFail, noFault, held]

/-- A sequencer's hang is counted. -/
def countHang (u : Nat) (s : State) : State := { s with rel := { s.rel with hangs := upsert u (lookupD 0 u s.rel.hangs + 1) s.rel.hangs } }

/-- The row of a tile that hung again asks for self-test. -/
def hangTests (u n : Nat) (s : State) : State :=
  if 2 ≤ n && !s.rel.selfTest.contains (u / 512 * 16 + u % 512 / 32) then
    { s with rel := { s.rel with selfTest := (u / 512 * 16 + u % 512 / 32) :: s.rel.selfTest } }
  else s

theorem hangTests_done (u n : Nat) (s : State) : (hangTests u n s).rel.hangs = s.rel.hangs ∧ (hangTests u n s).rel.suspects = s.rel.suspects ∧
    (2 ≤ n → u / 512 * 16 + u % 512 / 32 ∈ (hangTests u n s).rel.selfTest) ∧ OnlyChanges [.rel] s (hangTests u n s) := by
  unfold hangTests
  split
  · exact ⟨rfl, rfl, fun _ => List.mem_cons_self, only_rel (.refl _ s) _ (by decide)⟩
  next known => exact ⟨rfl, rfl, fun again => by simpa [again] using known, .refl _ s⟩

theorem suspectTile_rel (u cls : Nat) (s : State) : (suspectTile u cls s).rel.hangs = s.rel.hangs ∧
    ∃ x ∈ (suspectTile u cls s).rel.suspects, x.unit = u ∧ x.cls = cls := by
  unfold suspectTile
  extract_lets t old again row r
  dsimp only
  split
  · exact ⟨rfl, _, List.mem_cons_self, rfl, rfl⟩
  · exact ⟨rfl, _, List.mem_cons_self, rfl, rfl⟩

theorem seqHang_done {tile : Nat} {p : Play} {s : State} (runs : playOfTile s tile = some p) (free : seqHalted s tile = false)
    (entry : getPlay s p.order = some p) (live : p.live = true) :
    ∃ t y, exec (.seqHang tile) s = .next t ∧ lookupD 0 (physTile s tile) t.rel.hangs = lookupD 0 (physTile s tile) s.rel.hangs + 1 ∧
      (∃ x ∈ t.rel.suspects, x.unit = physTile s tile ∧ x.cls = 4) ∧
      (1 ≤ lookupD 0 (physTile s tile) s.rel.hangs → physTile s tile / 512 * 16 + physTile s tile % 512 / 32 ∈ t.rel.selfTest) ∧
      Records 4 s t ∧ Raises Ev.seqHang s t ∧ getPlay t p.order = some y ∧
      y.faulted = some 4 ∧ (∀ z ∈ y.seqs, z.stopped = true) ∧ OnlyChanges [.plays, .rel, .host, .store, .xing] s t := by
  generalize unit : physTile s tile = u
  let at_ : Nat × Nat × Nat := (0, ((p.seqs.find? fun q => q.tile == tile).map Sequencer.next).getD 0, tile)
  have done : exec (.seqHang tile) s = .next (faultPlay p.order 4 at_ (record 4 0 1 p.origin (unitOf 0 u) (BitVec.ofNat 32 tile) p.id p.step []
      (hangTests u (lookupD 0 u s.rel.hangs + 1) (suspectTile u 4 (countHang u s))))) := by
    change execSeqHang tile s = _
    rw [execSeqHang, runs]
    dsimp only
    rw [if_neg (by simp [free]), unit]
    rfl
  have counted : lookupD 0 u (countHang u s).rel.hangs = lookupD 0 u s.rel.hangs + 1 := lookupD_upsert_self ..
  have first : OnlyChanges [.rel] s (countHang u s) := only_rel (.refl _ s) _ (by decide)
  generalize lookupD 0 u s.rel.hangs = n at *
  generalize countHang u s = a at *
  obtain ⟨hangs, suspect⟩ := suspectTile_rel u 4 a
  have second := suspectTile_frame u 4 a
  generalize suspectTile u 4 a = b at *
  obtain ⟨hangs', suspects', tests, third⟩ := hangTests_done u (n + 1) b
  generalize hangTests u (n + 1) b = c at *
  have all : OnlyChanges [.rel] s c := first.trans (second.trans third)
  obtain ⟨raises, records⟩ := reported (s := s) (u := c) (cls := 4) (code := Ev.seqHang) rfl (all .bu (by decide)) (all .host (by decide))
    (congrArg Store.ledger (all .store (by decide))) (congrArg Xing.lag (all .xing (by decide))) 0 1 p.origin (unitOf 0 u) (BitVec.ofNat 32 tile) p.id p.step []
  have frame := record_frame 4 0 1 p.origin (unitOf 0 u) (BitVec.ofNat 32 tile) p.id p.step [] c
  generalize record 4 0 1 p.origin (unitOf 0 u) (BitVec.ofNat 32 tile) p.id p.step [] c = d at *
  have rel : d.rel = c.rel := frame .rel (by decide)
  have whole : OnlyChanges [.plays, .rel, .host, .store, .xing] s d := (all.mono (by decide)).trans (frame.mono (by decide))
  have entry' : getPlay d p.order = some p := (getPlay_of_plays ((frame .plays (by decide)).trans (all .plays (by decide))) _).trans entry
  rw [faultPlay_of_live entry' live] at done
  let y : Play := { stopPlay p with faulted := some 4, faultAt := at_ }
  have last := setPlay_frame y d
  obtain ⟨x, l, ledger, rest⟩ := records
  refine ⟨setPlay y d, y, done, ?_, ?_, fun again => ?_, ⟨x, l, ledger, rest⟩, raises, getPlay_setPlay (q := y) entry', rfl, fun z hz => ?_,
    whole.trans (last.mono (by decide))⟩
  · change lookupD 0 u d.rel.hangs = _
    rw [rel, hangs', hangs, counted]
  · change ∃ x ∈ d.rel.suspects, _
    rw [rel, suspects']
    exact suspect
  · change _ ∈ d.rel.selfTest
    rw [rel]
    exact tests (by omega)
  · obtain ⟨w, -, rfl⟩ := List.mem_map.1 hz
    rfl

theorem claim_replayAndHang : Claim.ReplayAndHang := by
  refine ⟨fun tile code f s => exec_moveReplay_of_none, ?_, fun tile s rests => ?_, fun tile p s => seqHang_done⟩
  · intro tile code p q m r f s runs queue head started op lost m₁ drop
    refine ⟨?_, ?_, ?_, fun xing parity rim m' s' => moveReplay_copies runs queue head started op lost xing parity rim⟩
    · rintro a b rfl other
      exact exec_moveReplay_of_fault runs queue head started op lost (replayMove_of_overrun other)
    · rintro pl x rfl r gone
      exact exec_moveReplay_of_fault runs queue head started op lost (replayMove_of_parity gone)
    · cases again : replayMove p tile m f s with
      | run m' s' => exact exec_moveReplay_of_run runs queue head started op lost again
      | done s' => exact exec_moveReplay_of_wait runs queue head started op lost (.inr ⟨s', again⟩)
      | hold => exact exec_moveReplay_of_wait runs queue head started op lost (.inl again)
      | fail st s' => exact exec_moveReplay_of_fail runs queue head started op lost again
      | fault c s' => exact exec_moveReplay_of_fault runs queue head started op lost again
  · change execSeqHang tile s = _
    rw [execSeqHang]
    cases runs : playOfTile s tile with
    | none => rfl
    | some p =>
      rcases rests with none | halted
      · rw [none] at runs
        cases runs
      · exact if_pos halted

/-- Settles O35, by the cases of each event, and by the frames of what a copy, a record and a play's fault change. -/
theorem movesCompleteAndPace : Obligations.MovesCompleteAndPace :=
  ⟨claim_movesComplete, claim_waitsEnd, claim_remoteTiesArrive, claim_rampAndPassBeats, claim_replayAndHang⟩

/-- Settles O58, from the cases of O35. -/
theorem queueEventsComplete : Obligations.QueueEventsComplete := by
  refine ⟨fun tile code p q m s runs queue only entry can answers => ?_, fun tile p q m r s s₀ runs queue head op free time past => ?_,
    fun tile code pos p q m s runs queue goes wait => ⟨fun ok => ?_, fun short limit late => ?_⟩, ?_, fun now ct org sh r p q s first rested runs part goes => ?_,
    fun f s passes => ?_, fun tile code p q m m' r s s' runs queue head started op lost copies => ?_, fun tile p s runs free entry live => ?_⟩
  · rw [exec_moveCompletion_of_can runs queue (m := m) (by rw [only]; rfl) (by rw [can]; simp), finishMove, answers]
    exact congrArg Host.Outcome.next (completeMove_of_only queue only rfl entry)
  · exact exec_fireatRelease_of_reached runs queue head op time free past
  · rw [exec_waitSatisfied_of_queue runs queue, goes, wait]
    exact (if_neg Bool.false_ne_true).trans (if_pos ok)
  · rw [exec_waitTimeout_of_queue runs queue, wait]
    refine if_pos ?_
    have limited : wf m.word 107 16 ≠ 0 := by omega
    simp [limited, late, goes, short]
  · intro src kind target k qt qc amount r s tie key own first opened
    have takes : meshTake tie s = some ((src, tie), { s with mesh := r }) := meshTake_of_first (l := []) first nofun
    have arrives : meshArrive tie .ok s = .got tie { s with mesh := r } := by rw [meshArrive_of_take takes, crossArrive_of_ok opened]
    exact exec_remoteTieArrival_of_got (l := []) first nofun arrives
  · exact (exec_rampStartGrant_of_first first rested runs part).trans (if_neg (by simp [goes]))
  · obtain ⟨t, done, now, ends, -⟩ := passBeat_done passes
    exact ⟨t, done, now, ends⟩
  · obtain ⟨t, done, records, mem, -⟩ := moveReplay_copies (f := .none) runs queue head started op lost nofun nofun nofun copies
    exact ⟨t, done, records, mem⟩
  · obtain ⟨t, y, done, -, -, -, -, raises, entry', faulted, stopped, -⟩ := seqHang_done runs free entry live
    exact ⟨t, y, done, raises, entry', faulted, stopped⟩

end Sys2Proof.Machine
end

section
/-! SUPPORT. Partitions are cut, lent, and hint buffers placed (R74 to R78, R229 to R235). -/

namespace Sys2Proof.Machine

theorem arrived_frame (s : State) : OnlyChanges [.arrivals] s (arrived s) := only_arrivals (.refl _ s) _ (by decide)

section
variable {o : Nat} {p : Packet} {s : State} (admitted : Admitted o p s) (plain : stepOpcode o = false)
include admitted plain

/-- A refused command replies its status, and changes nothing else. -/
theorem refuse_arrived (st : BitVec 16) : Answered p st 0 s (refuse p st (arrived s)) ∧ OnlyChanges [.arrivals, .host] s (refuse p st (arrived s)) := by
  have plain' : stepOpcode p.opc = false := admitted.2.1.symm ▸ plain
  exact ⟨answered_reply plain' rfl rfl st 0, ((arrived_frame s).mono (by decide)).trans ((reply_frame_of_plain plain' st 0 _).mono (by decide))⟩

end

/-! ### PART -/

theorem exec_part_of_admitted {p : Packet} {s : State} (h : Admitted 0x0303 p s) : exec (.part p) s = .next (opPart p (arrived s)) := by
  rw [exec_of_admitted rfl h rfl (by decide) (by decide), runOp, h.2.1]
  rfl

theorem opPart_of_fails {p : Packet} {s : State} {st : BitVec 16} (fails : partCheck s (tgtOrg p.tgt) (tgtShape p.tgt) (pN p 0 1) none = some st) :
    opPart p s = refuse p st s := by
  rw [opPart, fails]

theorem opPart_of_passes {p : Packet} {s : State} (passes : partCheck s (tgtOrg p.tgt) (tgtShape p.tgt) (pN p 0 1) none = none) :
    opPart p s = partMake (tgtOrg p.tgt) (tgtShape p.tgt) (pN p 0 1) (partPend (tgtOrg p.tgt) (tgtShape p.tgt) (some p) s) := by
  rw [opPart, passes]

theorem exec_partComplete_of_none {org sh : Nat} {s : State} (none : (s.parting.find? fun x => x.1 == org && x.2.1 == sh) = none) :
    exec (.partComplete org sh) s = .next s := by
  change execPartComplete org sh s = _
  rw [execPartComplete, none]

/-- The partitions that a PART made are no longer busy. -/
def partsFreed (x : Nat × Nat × Nat × Option Packet) (s : State) : State :=
  { s with parting := s.parting.erase x, parts := s.parts.map fun q => if q.maker = x.2.2.1 then { q with busy := false } else q }

theorem partsFreed_frame (x : Nat × Nat × Nat × Option Packet) (s : State) : OnlyChanges [.parting, .parts] s (partsFreed x s) := by
  have erased : OnlyChanges [.parting, .parts] s { s with parting := s.parting.erase x } := only_parting (.refl _ s) _ (by decide)
  exact only_parts erased _ (by decide)

section
variable {org sh : Nat} {x : Nat × Nat × Nat × Option Packet} {s : State} (found : (s.parting.find? fun x => x.1 == org && x.2.1 == sh) = some x)
include found

theorem exec_partComplete_of_internal (internal : x.2.2.2 = none) : exec (.partComplete org sh) s = .next (partsFreed x s) := by
  change execPartComplete org sh s = _
  rw [execPartComplete, found]
  dsimp only
  rw [internal]
  rfl

theorem exec_partComplete_of_command {p : Packet} (command : x.2.2.2 = some p) : exec (.partComplete org sh) s = .next (accept p (partsFreed x s)) := by
  change execPartComplete org sh s = _
  rw [execPartComplete, found]
  dsimp only
  rw [command]
  rfl

end

theorem okStatus_of_rsv {p : Packet} (clear : p.rsv = 0) : okStatus p = 0 := by
  rw [okStatus, clear]
  rfl

theorem claim_partitionsAreCut : Claim.PartitionsAreCut := by
  refine ⟨fun p s admitted => ?_, fun org sh s => exec_partComplete_of_none, fun org sh n c s found plain => ?_⟩
  · intro org sh n
    have runs := exec_part_of_admitted admitted
    refine ⟨fun st fails => ⟨_, runs.trans (congrArg _ (opPart_of_fails (s := arrived s) fails)), refuse_arrived admitted rfl st⟩,
      fun passes => ⟨_, runs.trans (congrArg _ (opPart_of_passes (s := arrived s) passes)), rfl, rfl, rfl, rfl, ?_⟩⟩
    exact ((arrived_frame s).mono (by decide)).trans (((partPend_frame org sh (some p) _).mono (by decide)).trans ((partMake_frame org sh n _).mono (by decide)))
  · have freed := partsFreed_frame (org, sh, n, c) s
    cases c with
    | none =>
      exact ⟨_, exec_partComplete_of_internal found rfl, rfl, rfl, fun _ => rfl, nofun, freed.mono (by decide)⟩
    | some p =>
      obtain ⟨clear, plain⟩ := plain p rfl
      have frame := reply_frame_of_plain plain (okStatus p) 0 (partsFreed (org, sh, n, some p) s)
      refine ⟨_, exec_partComplete_of_command found rfl, (frame .parting (by decide)).1, frame .parts (by decide), nofun, fun q same => ?_,
        (freed.mono (by decide)).trans (frame.mono (by decide))⟩
      cases same
      have answered := answered_reply (s := s) (u := partsFreed (org, sh, n, some p) s) plain rfl rfl 0 0
      rw [accept, okStatus_of_rsv clear]
      exact answered

/-! ### LOAN -/

theorem exec_loan_of_admitted {p : Packet} {s : State} (h : Admitted 0x0201 p s) : exec (.loan p) s = .next (opLoan p s.arrivals (arrived s)) := by
  rw [exec_of_admitted rfl h rfl (by decide) (by decide), runOp, h.2.1]
  rfl

/-- A loan that a command asks to end. -/
def revokedLoan (l : LoanRec) (p : Packet) : LoanRec := { l with revoking := true, revokers := l.revokers ++ [p] }

section
variable {p : Packet} {n : Nat} {s : State}

theorem opLoan_of_other (other : 1 < pN p 0 1) : opLoan p n s = refuse p Status.header s := by
  rw [opLoan, if_neg (by omega), if_pos (by omega)]

section
variable (revoke : pN p 0 1 = 1)
include revoke

theorem opLoan_of_unknown (unknown : (s.loans.find? fun l => l.id == pN p 8 4) = none) : opLoan p n s = refuse p Status.loanId s := by
  rw [opLoan, if_pos revoke, unknown]

variable {l : LoanRec} (known : (s.loans.find? fun l => l.id == pN p 8 4) = some l)
include known

theorem opLoan_of_running (runs : (runningOn s l.borOrg l.borShape).isSome = true) :
    opLoan p n s = { s with loans := s.loans.map fun x => if x.id = l.id then revokedLoan l p else x } := by
  rw [opLoan, if_pos revoke, known]
  exact if_pos runs

theorem opLoan_of_idle (idle : runningOn s l.borOrg l.borShape = none) : opLoan p n s = endLoan (revokedLoan l p) s := by
  rw [opLoan, if_pos revoke, known]
  exact if_neg (by simp [idle])

end

variable (lend : pN p 0 1 = 0)
include lend

/-- The checks of a lend, in order. -/
theorem opLoan_of_lend : let lo := pN p 2 2 % 2048
    let lsh := pN p 2 2 / 2048 % 8
    let bo := pN p 4 2 % 2048
    let bsh := pN p 4 2 / 2048 % 8
    opLoan p n s =
      if (findPart s lo lsh).isNone || (findPart s bo bsh).isNone || (lo == bo && lsh == bsh) then refuse p Status.noPartition s
      else if pN p 7 1 = 0 || decide (128 < pN p 6 1 + pN p 7 1) then refuse p Status.addrRange s
      else if inLoan s lo lsh then refuse p Status.partLent s
      else if playsBefore s lo lsh n (if p.fire = 0 then s.cad.ct else p.fire) then refuse p Status.partBusy s
      else if 64 ≤ s.loans.length then refuse p Status.loanFull s
      else reply p (okStatus p) (BitVec.ofNat 64 (s.loanNext % 2 ^ 32)) { s with
        loans := s.loans ++ [{ id := s.loanNext, lendOrg := lo, lendShape := lsh, borOrg := bo, borShape := bsh, off := pN p 6 1, len := pN p 7 1 }]
        loanNext := s.loanNext + 1 } := by
  intro lo lsh bo bsh
  rw [opLoan, if_neg (by omega), if_neg (by omega)]

end

theorem playsBefore_iff {s : State} {org sh n : Nat} {ct : CtWord} : playsBefore s org sh n ct = true ↔
    ∃ y ∈ s.plays, y.org = org ∧ y.shape = sh ∧ ¬(y.state ≠ .running ∧ y.fire = ct ∧ n < y.order) := by
  simp [playsBefore, and_assoc, imp_iff_not_or, or_assoc]

theorem exec_loanRevokeEffect_cases (n : Nat) (s : State) : ((s.loans.find? fun l => l.id == n) = none → exec (.loanRevokeEffect n) s = .next s) ∧
    ∀ l, (s.loans.find? fun l => l.id == n) = some l →
      (l.revoking = false ∨ (runningOn s l.borOrg l.borShape).isSome = true → exec (.loanRevokeEffect n) s = .next s) ∧
      (l.revoking = true → runningOn s l.borOrg l.borShape = none → exec (.loanRevokeEffect n) s = .next (endLoan l s)) := by
  change (_ → execLoanRevokeEffect n s = _) ∧ ∀ l, _ → (_ → execLoanRevokeEffect n s = _) ∧ (_ → _ → execLoanRevokeEffect n s = _)
  rw [execLoanRevokeEffect]
  refine ⟨fun none => by rw [none], fun l found => ?_⟩
  rw [found]
  refine ⟨fun stays => if_neg ?_, fun revoking idle => if_pos (by simp [revoking, idle])⟩
  rcases stays with kept | runs
  · simp [kept]
  · simp [Option.isSome_iff_ne_none.1 runs]

/-- The only revoke of a loan replies as it ends. -/
theorem endLoan_of_only {l : LoanRec} {p : Packet} {s : State} (only : l.revokers = [p]) :
    endLoan l s = accept p { s with loans := s.loans.filter fun x => x.id != l.id } := by
  rw [endLoan, only]
  rfl

/-- A lend adds its loan. -/
def lent (s : State) (lo lsh bo bsh off len : Nat) : State := { arrived s with
  loans := s.loans ++ [{ id := s.loanNext, lendOrg := lo, lendShape := lsh, borOrg := bo, borShape := bsh, off, len }]
  loanNext := s.loanNext + 1 }

theorem lent_frame (s : State) (lo lsh bo bsh off len : Nat) : OnlyChanges [.arrivals, .loans, .host] s (lent s lo lsh bo bsh off len) :=
  only_loans_loanNext ((arrived_frame s).mono (by decide)) _ _ (by decide)

theorem claim_loansAreMade : Claim.LoansAreMade := by
  refine ⟨fun p s admitted => ?_, fun s org sh n ct => playsBefore_iff, exec_loanRevokeEffect_cases⟩
  intro refused op lo lsh bo bsh off len named ranged before
  have runs := exec_loan_of_admitted admitted
  have refuses (st : BitVec 16) (h : opLoan p s.arrivals (arrived s) = refuse p st (arrived s)) : refused st :=
    ⟨_, runs.trans (congrArg _ h), refuse_arrived admitted rfl st⟩
  have plain : stepOpcode p.opc = false := admitted.2.1.symm ▸ rfl
  have time : (if p.fire = 0 then (arrived s).cad.ct else p.fire) = s.cad.ct := if_pos admitted.2.2.1
  have apart (h : named = true) : ¬((findPart s lo lsh).isNone || (findPart s bo bsh).isNone || (lo == bo && lsh == bsh)) = true := by
    simp only [named, Bool.and_eq_true, Option.isSome_iff_ne_none, ne_eq, Bool.not_eq_true'] at h
    simp [h.1.1, h.1.2, h.2]
  have inside (h : ranged = true) : ¬(len = 0 || decide (128 < off + len)) = true := by
    simp only [ranged, Bool.and_eq_true, decide_eq_true_eq] at h
    simp only [Bool.or_eq_true, decide_eq_true_eq]
    omega
  refine ⟨fun other => refuses _ (opLoan_of_other other), fun lend unnamed => refuses _ ?_, fun lend known out => refuses _ ?_, fun lend known inn lent => refuses _ ?_,
    fun lend known inn free busy => refuses _ ?_, fun lend known inn free idle full => refuses _ ?_, fun lend known inn free idle room => ?_,
    fun revoke unknown => refuses _ (opLoan_of_unknown revoke unknown), fun l revoke known idle first => ?_, fun l revoke known busy => ?_⟩
  · rw [opLoan_of_lend lend]
    refine if_pos ?_
    change ((findPart s lo lsh).isNone || (findPart s bo bsh).isNone || (lo == bo && lsh == bsh)) = true
    by_contra h
    have h := Bool.eq_false_iff.2 h
    simp only [Bool.or_eq_false_iff] at h
    exact absurd unnamed (by simp [named, h.2, Option.isNone_eq_false_iff.1 h.1.1, Option.isNone_eq_false_iff.1 h.1.2])
  · rw [opLoan_of_lend lend]
    refine (if_neg (apart known)).trans (if_pos ?_)
    change (len = 0 || decide (128 < off + len)) = true
    simp only [ranged, Bool.and_eq_false_iff, decide_eq_false_iff_not] at out
    simp only [Bool.or_eq_true, decide_eq_true_eq]
    omega
  · rw [opLoan_of_lend lend]
    exact (if_neg (apart known)).trans ((if_neg (inside inn)).trans (if_pos lent))
  · rw [opLoan_of_lend lend, time]
    exact (if_neg (apart known)).trans ((if_neg (inside inn)).trans ((if_neg (by change ¬inLoan s lo lsh = true; simp [free])).trans (if_pos busy)))
  · rw [opLoan_of_lend lend, time]
    exact (if_neg (apart known)).trans ((if_neg (inside inn)).trans ((if_neg (by change ¬inLoan s lo lsh = true; simp [free])).trans
      ((if_neg (by change ¬before = true; simp [idle])).trans (if_pos full))))
  · have lends := opLoan_of_lend (n := s.arrivals) (s := arrived s) lend
    rw [time] at lends
    replace lends := lends.trans ((if_neg (apart known)).trans ((if_neg (inside inn)).trans ((if_neg (by change ¬inLoan s lo lsh = true; simp [free])).trans
      ((if_neg (by change ¬before = true; simp [idle])).trans (if_neg (by change ¬64 ≤ s.loans.length; omega))))))
    rw [admitted.ok] at lends
    refine ⟨_, runs.trans (congrArg _ lends), ?_, ?_, answered_reply plain rfl rfl 0 _, ?_⟩
    · exact (reply_frame_of_plain plain 0 _ (lent s lo lsh bo bsh off len) .loans (by decide)).2
    · exact (reply_frame_of_plain plain 0 _ (lent s lo lsh bo bsh off len) .loans (by decide)).1
    · exact (lent_frame s lo lsh bo bsh off len).trans ((reply_frame_of_plain plain 0 _ (lent s lo lsh bo bsh off len)).mono (by decide))
  · have ends := opLoan_of_idle (n := s.arrivals) (s := arrived s) revoke known idle
    rw [endLoan_of_only (by rw [revokedLoan, first]; rfl), accept, admitted.ok] at ends
    have dropped : OnlyChanges [.arrivals, .loans, .host] s { arrived s with loans := s.loans.filter fun x => x.id != l.id } :=
      only_loans ((arrived_frame s).mono (by decide)) _ (by decide)
    have replies := reply_frame_of_plain plain 0 0 { arrived s with loans := s.loans.filter fun x => x.id != l.id }
    exact ⟨_, runs.trans (congrArg _ ends), (replies .loans (by decide)).1, answered_reply plain rfl rfl 0 0, dropped.trans (replies.mono (by decide))⟩
  · refine ⟨_, runs.trans (congrArg _ (opLoan_of_running revoke known busy)), rfl, ?_, rfl⟩
    exact only_loans ((arrived_frame s).mono (by decide)) _ (by decide)

/-! ### HINT_PLACE -/

theorem exec_hintPlace_of_admitted {p : Packet} {s : State} (h : Admitted 0x0202 p s) : exec (.hintPlace p) s = .next (opHintPlace p (arrived s)) := by
  rw [exec_of_admitted rfl h rfl (by decide) (by decide), runOp, h.2.1]
  rfl

/-- The buffer that a HINT_PLACE describes. -/
def hintOf (p : Packet) : HintBuf :=
  { nreg := pN p 1 1, hport := pN p 2 1, nlen := pN p 8 8, noff := pN p 16 8, hlen := pN p 24 8, haddr := pN p 32 8 }

/-- The items of a HINT_PLACE as R235 allows them. -/
def HintFormed (n : Nat) (h : HintBuf) : Prop :=
  n ≤ 63 ∧ h.hport ≤ 1 ∧ h.nlen % 128 = 0 ∧ h.hlen % 4096 = 0 ∧ h.haddr % 4096 = 0 ∧ h.size ≤ hintSpan

/-- The near part of a buffer lies in its region. -/
def HintNear (s : State) (h : HintBuf) : Prop :=
  h.nlen = 0 ∨ ((lookupD {} h.nreg s.regions).valid = true ∧ (lookupD {} h.nreg s.regions).typ = false ∧ h.nreg < 64 ∧
    h.noff + h.nlen ≤ (lookupD {} h.nreg s.regions).bytes)

/-- The host part of a buffer lies in the host's addresses. -/
def HintHost (h : HintBuf) : Prop := h.hlen = 0 ∨ h.haddr + h.hlen ≤ 2 ^ 48

section
variable {p : Packet} {s : State}

theorem opHintPlace_of_unformed (bad : ¬HintFormed (pN p 0 1) (hintOf p)) : opHintPlace p s = refuse p Status.moveField s := by
  rw [opHintPlace, if_pos]
  by_contra fine
  simp only [Bool.or_eq_true, decide_eq_true_eq, bne_iff_ne, ne_eq, not_or, not_not, not_lt] at fine
  obtain ⟨⟨⟨⟨⟨n, port⟩, nlen⟩, hlen⟩, haddr⟩, size⟩ := fine
  exact bad ⟨n, port, nlen, hlen, haddr, size⟩

variable (formed : HintFormed (pN p 0 1) (hintOf p))
include formed

theorem opHintPlace_of_formed : opHintPlace p s =
    if (hintOf p).nlen != 0 && !((lookupD {} (hintOf p).nreg s.regions).valid && !(lookupD {} (hintOf p).nreg s.regions).typ &&
        decide ((hintOf p).nreg < 64) && decide ((hintOf p).noff + (hintOf p).nlen ≤ (lookupD {} (hintOf p).nreg s.regions).bytes)) then
      refuse p Status.addrRange s
    else if (hintOf p).hlen != 0 && decide (2 ^ 48 < (hintOf p).haddr + (hintOf p).hlen) then refuse p Status.addrRange s
    else accept p { s with hints := upsert (pN p 0 1) (hintOf p) s.hints } := by
  obtain ⟨n, port, nlen, hlen, haddr, size⟩ := formed
  rw [opHintPlace, if_neg]
  · rfl
  · simp only [Bool.or_eq_true, decide_eq_true_eq, bne_iff_ne, ne_eq, not_or, not_not, not_lt]
    exact ⟨⟨⟨⟨⟨n, port⟩, nlen⟩, hlen⟩, haddr⟩, size⟩

theorem opHintPlace_of_outside (out : ¬(HintNear s (hintOf p) ∧ HintHost (hintOf p))) : opHintPlace p s = refuse p Status.addrRange s := by
  rw [opHintPlace_of_formed formed]
  split
  · rfl
  next near =>
    refine if_pos ?_
    have near : HintNear s (hintOf p) := by
      simp only [Bool.and_eq_true, bne_iff_ne, ne_eq, Bool.not_eq_true', not_and, Bool.not_eq_false, decide_eq_true_eq] at near
      by_cases none : (hintOf p).nlen = 0
      · exact .inl none
      · obtain ⟨⟨⟨valid, typ⟩, reg⟩, fits⟩ := near none
        exact .inr ⟨valid, typ, reg, fits⟩
    have host : ¬HintHost (hintOf p) := fun h => out ⟨near, h⟩
    simp only [HintHost, not_or, not_le] at host
    exact Bool.and_eq_true_iff.2 ⟨by simpa using host.1, decide_eq_true host.2⟩

theorem opHintPlace_of_fits (near : HintNear s (hintOf p)) (host : HintHost (hintOf p)) :
    opHintPlace p s = accept p { s with hints := upsert (pN p 0 1) (hintOf p) s.hints } := by
  rw [opHintPlace_of_formed formed, if_neg, if_neg]
  · simp only [Bool.and_eq_true, bne_iff_ne, ne_eq, decide_eq_true_eq, not_and, not_lt]
    exact fun some => host.resolve_left some
  · simp only [Bool.and_eq_true, bne_iff_ne, ne_eq, Bool.not_eq_true', not_and, Bool.not_eq_false, decide_eq_true_eq]
    intro some
    obtain ⟨valid, typ, reg, fits⟩ := near.resolve_left some
    exact ⟨⟨⟨valid, typ⟩, reg⟩, fits⟩

end

theorem claim_hintsArePlaced : Claim.HintsArePlaced := by
  intro p s admitted n h r refused formed near host
  have runs := exec_hintPlace_of_admitted admitted
  have plain : stepOpcode p.opc = false := admitted.2.1.symm ▸ rfl
  refine ⟨fun bad => ⟨_, runs.trans (congrArg _ (opHintPlace_of_unformed bad)), refuse_arrived admitted rfl _⟩,
    fun good out => ⟨_, runs.trans (congrArg _ (opHintPlace_of_outside (s := arrived s) good out)), refuse_arrived admitted rfl _⟩, fun good fits fits' => ?_⟩
  have places := opHintPlace_of_fits (s := arrived s) good fits fits'
  rw [accept, admitted.ok] at places
  have placed : OnlyChanges [.arrivals, .hints, .host] s { arrived s with hints := upsert n h s.hints } :=
    only_hints ((arrived_frame s).mono (by decide)) _ (by decide)
  have replies := reply_frame_of_plain plain 0 0 { arrived s with hints := upsert n h s.hints }
  refine ⟨_, runs.trans (congrArg _ places), ?_, fun k ne => ?_, answered_reply plain rfl rfl 0 0, placed.trans (replies.mono (by decide))⟩
  · exact (congrArg (lookup n) (replies .hints (by decide)) :).trans (lookup_upsert_self ..)
  · exact (congrArg (lookup k) (replies .hints (by decide)) :).trans (lookup_upsert_ne ne ..)

/-- Settles O36, by the checks of each command in their order. -/
theorem partitionsLoansHints : Obligations.PartitionsLoansHints := ⟨claim_partitionsAreCut, claim_loansAreMade, claim_hintsArePlaced⟩

end Sys2Proof.Machine
end

section
/-! SUPPORT. Stamps, the loss of the cadence and its source (R23 to R32). -/

namespace Sys2Proof.Machine

theorem followCad_cad (s : State) : (followCad s).cad = s.cad := by
  unfold followCad
  split <;> rfl

theorem followCad_host (s : State) : (followCad s).host = s.host := by
  unfold followCad
  split <;> rfl

theorem followCad_store (s : State) : (followCad s).store = s.store := by
  unfold followCad
  split <;> rfl

theorem driveOut_rest (c : Cad) : (driveOut c).state = c.state ∧ (driveOut c).src = c.src ∧ (driveOut c).ct = c.ct ∧ (driveOut c).nom60 = c.nom60 := by
  unfold driveOut
  extract_lets c'
  have same : c'.state = c.state ∧ c'.src = c.src ∧ c'.ct = c.ct ∧ c'.nom60 = c.nom60 := by
    unfold c'
    split <;> exact ⟨rfl, rfl, rfl, rfl⟩
  split
  · exact ⟨rfl, rfl, rfl, rfl⟩
  · exact same

/-! ### Stamps -/

/-- A symbol that is not idle begins a stamp after a long enough idle run. -/
theorem takeSymbol_of_idle (y : Symbol) (n : Nat) (some : y ≠ .idle) :
    takeSymbol y (.idle n) = (if 960 ≤ n then .bits [y == .one] false else .idle 0, none) := by
  cases y with
  | idle => exact absurd rfl some
  | zero => rfl
  | one => rfl

/-- A stamp ends with its 64th bit. -/
theorem takeSymbol_last (y : Symbol) {l : List Bool} (broken : Bool) (len : l.length = 63) :
    takeSymbol y (.bits l broken) = (.idle 0, some (if (broken || y == .idle) = true then none else some (stampWord (l ++ [y == .one])))) := by
  have whole : (l ++ [y == .one]).length = 64 := by simp [len]
  exact if_pos whole

/-- The receiver at a stamp's last bit judges it. -/
theorem receive_last (y : Symbol) {c : Cad} {l : List Bool} {broken : Bool} (rx : c.rx = .bits l broken) (len : l.length = 63) :
    receive y c = judgeStamp (if (broken || y == .idle) = true then none else some (stampWord (l ++ [y == .one]))) { c with rx := .idle 0 } := by
  rw [receive, rx, takeSymbol_last y broken len]

theorem judgeStamp_of_good {c : Cad} {w : W64} (locked : c.state = .locked) (valid : stampValid w = true) (turn : stampTurn w = ctTurn c.ct) :
    judgeStamp (some w) c = { c with judged := true, badStamps := 0, nom60 := stampNom w == 2 } := by
  simp only [judgeStamp, Option.filter_some, valid, if_true, locked, turn]

theorem judgeStamp_of_none {c : Cad} {w : Option W64} (locked : c.state = .locked) (bad : w.filter stampValid = none) :
    judgeStamp w c = badStamp { c with judged := true } := by
  simp only [judgeStamp, bad, locked]

theorem judgeStamp_of_turn {c : Cad} {w : W64} (locked : c.state = .locked) (valid : stampValid w = true) (turn : stampTurn w ≠ ctTurn c.ct) :
    judgeStamp (some w) c = badStamp { c with judged := true } := by
  simp only [judgeStamp, Option.filter_some, valid, if_true, locked, turn, if_false]

/-- TURN_STAMP at a stamp's last bit. -/
theorem exec_turnStamp_of_last {a b : Bool} {l : List Bool} {broken : Bool} {s : State} (locked : s.cad.state = .locked) (rx : s.cad.rx = .bits l broken)
    (len : l.length = 63) (fresh : s.cad.taken = false) :
    exec (.turnStamp a b) s = .next (followCad (setCad { receive (symbolOf a b) s.cad with taken := true } s)) := by
  change execTurnStamp a b s = _
  exact if_pos (by simp [lastBit, locked, rx, len, fresh])

theorem lockedStampIsChecked : Claim.LockedStampIsChecked := by
  refine ⟨⟨rfl, rfl, rfl⟩, takeSymbol_of_idle, ?_, ?_⟩
  · intro a b l broken s locked rx len fresh y w good c
    rw [exec_turnStamp_of_last locked rx len fresh, receive_last _ rx len]
    refine ⟨?_, ?_⟩
    · rintro ⟨whole, some, valid, turn⟩
      have read : (broken || y == .idle) = false := by simp [whole, some]
      rw [show (broken || symbolOf a b == .idle) = false from read, if_neg (by decide)]
      exact congrArg (fun c' => Host.Outcome.next (followCad (setCad { c' with taken := true } s)))
        (judgeStamp_of_good (c := { s.cad with rx := .idle 0 }) locked valid turn)
    · intro bad
      suffices badly : judgeStamp (if (broken || symbolOf a b == .idle) = true then none else some w) { s.cad with rx := .idle 0 } =
          badStamp { s.cad with rx := .idle 0, judged := true } by
        exact congrArg (fun c' => Host.Outcome.next (followCad (setCad { c' with taken := true } s))) badly
      split
      next => exact judgeStamp_of_none locked rfl
      next read =>
        by_cases valid : stampValid w = true
        · refine judgeStamp_of_turn locked valid fun turn => bad ?_
          simp only [Bool.or_eq_true, not_or, beq_iff_eq] at read
          exact ⟨by simpa using read.1, read.2, valid, turn⟩
        · exact judgeStamp_of_none locked (by simp [Option.filter_some, valid])
  · intro a b s none
    change execTurnStamp a b s = _
    refine if_neg ?_
    rcases none with none | none <;> simp [none]

/-! ### The loss of the cadence -/

/-- The module's own beats leave the log and the defect store. -/
theorem ownBeats_rest (t : CtWord) (s : State) : (ownBeats t s).host.events = s.host.events ∧ (ownBeats t s).cad.ct = t := by
  refine ⟨?_, rfl⟩
  unfold ownBeats
  extract_lets u
  have tick (v : State) : (beatTick 1 v).host.events = v.host.events := by
    unfold beatTick
    extract_lets
    split <;> rfl
  have fold : ∀ (l : List Nat) (v : State),
      (l.foldl (fun s _ => beatTick 1 (setCad { s.cad with ct := ctEdge s.cad.ct 1 } s)) v).host.events = v.host.events := by
    intro l
    induction l with
    | nil => exact fun _ => rfl
    | cons _ l ih => exact fun v => (ih _).trans (tick _)
  exact fold _ s

theorem ownBeats_here (s : State) : ownBeats s.cad.ct s = s := by
  rw [ownBeats, Nat.sub_self]
  rfl

/-- HOLDOVER is entered above a state of the same log, ledger and stage, and recorded. -/
def lostAt (u : State) : State :=
  followCad (ledgerRec 17 0 0 0xFFFFFFFF 0xFFFFFFFF 0 [] (enterHoldover { u.cad with edge := ctEdge u.cad.ct 0, fromInternal := false } u))

theorem enterHoldover_cad (c : Cad) (s : State) : (enterHoldover c s).cad =
    dropAcquired { c with state := .holdover, holdBeats := 0, missing := 0, badStamps := 0, rct := none, rejected := false } := by
  unfold enterHoldover post
  exact postFull_cad ..

theorem lostAt_cad (u : State) : (lostAt u).cad.state = .holdover ∧ (lostAt u).cad.ct = u.cad.ct := by
  rw [lostAt, followCad_cad, ledgerRec_cad, enterHoldover_cad]
  exact ⟨rfl, rfl⟩

theorem lostAt_frame (u : State) : OnlyChanges [.cad, .host, .store, .xing, .rel] u (lostAt u) :=
  (((OnlyChanges.refl _ u).step (enterHoldover_frame _ _) (by decide)).step (ledgerRec_frame _ _ _ _ _ _ _ _) (by decide)).step (followCad_frame _) (by decide)

/-- The event comes first, then the record. -/
theorem lostAt_eq (u : State) : ∃ c, lostAt u = followCad (ledgerRec 17 0 0 0xFFFFFFFF 0xFFFFFFFF 0 [] (postFull Ev.cadHoldover 3 0xFFFFFFFF 0 0 [] (setCad c u))) :=
  ⟨_, rfl⟩

theorem lostAt_tells {s u : State} (bu : u.bu = s.bu) (events : u.host.events = s.host.events) (store : u.store = s.store) (xing : u.xing = s.xing) :
    Raises Ev.cadHoldover s (lostAt u) ∧ Records 17 s (lostAt u) := by
  have calm (h : Calm s) : Calm u := by rwa [Calm, xing]
  obtain ⟨c, eq⟩ := lostAt_eq u
  rw [eq]
  refine ⟨?_, ?_⟩
  · exact (raises_postFull Ev.cadHoldover 3 0xFFFFFFFF 0 0 [] (setCad c u)).of_same (by rw [stageDone, stageDone, ← bu]; rfl) events calm
      (congrArg HostIf.events (followCad_host _))
  · rw [Records, followCad_store]
    exact records_ledgerRec_postFull (u := setCad c u) (congrArg Store.ledger store) calm _ _ _ _ _ _ _ _ _ _ _ _ _

theorem lostAt_host (u : State) : HostSame u (lostAt u) := by
  obtain ⟨c, eq⟩ := lostAt_eq u
  rw [eq, HostSame, followCad_host]
  exact postFull_same Ev.cadHoldover 3 0xFFFFFFFF 0 0 [] (setCad c u)

/-- The condition of a CADENCE_LOSS. -/
def lossHolds (cause : LossCause) (c : Cad) : Prop :=
  match cause with
  | .edges => 2 ≤ c.missing
  | .stamps => 2 ≤ c.badStamps
  | .period => periodOk c.nom60 c.periodPs = false

theorem exec_cadenceLoss_of_lost {cause : LossCause} {s : State} (here : s.cad.state = .locked ∨ s.cad.state = .slew) (lost : lossHolds cause s.cad) :
    exec (.cadenceLoss cause) s = .next (lostAt (ownBeats (lossCt s.cad) s)) := by
  change execCadenceLoss cause s = _
  refine if_pos ?_
  rw [Bool.and_eq_true]
  refine ⟨by simpa using here, ?_⟩
  cases cause with
  | edges => exact decide_eq_true (p := 2 ≤ s.cad.missing) lost
  | stamps => exact decide_eq_true (p := 2 ≤ s.cad.badStamps) lost
  | period => exact congrArg (!·) (show periodOk s.cad.nom60 s.cad.periodPs = false from lost)

theorem exec_cadenceLoss_of_kept {cause : LossCause} {s : State} (kept : ¬lossHolds cause s.cad) : exec (.cadenceLoss cause) s = .next s := by
  change execCadenceLoss cause s = _
  refine if_neg ?_
  rw [Bool.and_eq_true]
  rintro ⟨-, lost⟩
  refine kept ?_
  cases cause with
  | edges => exact of_decide_eq_true (p := 2 ≤ s.cad.missing) lost
  | stamps => exact of_decide_eq_true (p := 2 ≤ s.cad.badStamps) lost
  | period => simpa [lossHolds] using lost

theorem lossCt_of_none {c : Cad} (none : c.missing = 0) : lossCt c = c.ct := if_pos none

/-- Two missing edges in LOCKED: 2 1/8 beats after the last one. -/
theorem lossCt_of_two {c : Cad} (beat : CtInBeat c) (small : c.edge.toNat < 2 ^ 62) (locked : c.state = .locked) (two : c.missing = 2) :
    (lossCt c).toNat = c.edge.toNat + 2 * 65536 + 8192 := by
  have here := beat.beat (by rw [locked]; rfl) (by rw [locked]; decide)
  have fits : (c.edge + BitVec.ofNat 64 (2 * 0x10000 + 0x10000 / 8)).toNat = c.edge.toNat + 2 * 65536 + 8192 := by
    rw [BitVec.toNat_add, BitVec.toNat_ofNat]
    omega
  have ahead : ¬(c.edge + BitVec.ofNat 64 (2 * 0x10000 + 0x10000 / 8)).toNat < c.ct.toNat := by omega
  have rate : (if (c.state == .slew) = true then if c.slewUp = true then 0x11000 else 0xF000 else 0x10000) = 0x10000 := if_neg (by simp [locked])
  rw [lossCt, if_neg (by omega), rate, two]
  rw [if_neg ahead, fits]

theorem exec_cadHoldover_of_due {s : State} (here : s.cad.state = .holdover) (due : 262144 ≤ s.cad.holdBeats) :
    exec .cadHoldover s = .next (post Ev.cadHoldover [] { s with cad := { s.cad with holdBeats := s.cad.holdBeats - 262144 } }) := by
  change execCadHoldover s = _
  exact if_pos (by simp [here, due])

theorem exec_cadHoldover_of_early {s : State} (early : s.cad.holdBeats < 262144) : exec .cadHoldover s = .next s := by
  change execCadHoldover s = _
  refine if_neg ?_
  simp only [Bool.and_eq_true, decide_eq_true_eq, not_and]
  omega

theorem cadenceLossEntersHoldover : Claim.CadenceLossEntersHoldover := by
  refine ⟨fun cause s here => ⟨fun lost => ?_, exec_cadenceLoss_of_kept⟩, fun s here due => exec_cadHoldover_of_due here due,
    fun s early => exec_cadHoldover_of_early early⟩
  have beats := ownBeats_frame (lossCt s.cad) s
  obtain ⟨events, ct⟩ := ownBeats_rest (lossCt s.cad) s
  obtain ⟨state, kept⟩ := lostAt_cad (ownBeats (lossCt s.cad) s)
  obtain ⟨raised, recorded⟩ := lostAt_tells (beats .bu (by decide)) events (beats .store (by decide)) (beats .xing (by decide))
  refine ⟨_, exec_cadenceLoss_of_lost here lost, state, fun none => ?_, fun beat small locked two => ?_, raised, recorded,
    ((OnlyChanges.refl _ s).step beats (by decide)).step (lostAt_frame _) (by decide), fun none => ?_⟩
  · rw [kept, ct, lossCt_of_none none]
  · rw [kept, ct, lossCt_of_two beat small locked two]
  · rw [lossCt_of_none none, ownBeats_here]
    exact ⟨lostAt_host s, lostAt_frame s⟩

/-! ### The source of the cadence -/

theorem privReg_of_served {h : HostAccess} {s : State} (served : PrivServed h s) : privReg h s = true := by
  simp [privReg, served.2, served.1.stage]

theorem exec_cadSrc_of_served {h : HostAccess} {s : State} (served : PrivServed h s) (v : BitVec 2) :
    exec (.cadSrc h v) s = (if s.host.privOpen then .next (writeSrc v s) else .next (lockViolation s)) := by
  change execCadSrc h v s = _
  rw [execCadSrc, orHold_of_serves served.1]
  exact if_neg (by simp [privReg_of_served served])

theorem exec_cadSrc_of_open {h : HostAccess} {s : State} (served : PrivServed h s) (v : BitVec 2) (lock : s.host.privOpen = true) :
    exec (.cadSrc h v) s = .next (writeSrc v s) := (exec_cadSrc_of_served served v).trans (if_pos lock)

/-- The internal cadence begins at the present CT. -/
theorem writeSrc_of_internal {v : BitVec 2} (own : v = 1 ∨ v = 2) (s : State) : (writeSrc v s).cad.state = .internal ∧ (writeSrc v s).cad.src = v ∧
    (writeSrc v s).cad.ct = s.cad.ct ∧ (writeSrc v s).cad.nom60 = (v == 2) ∧ OnlyChanges [.cad, .rel] s (writeSrc v s) := by
  have three : v ≠ 3 := by rcases own with rfl | rfl <;> decide
  have zero : v ≠ 0 := by rcases own with rfl | rfl <;> decide
  rw [writeSrc]
  simp only [if_neg three, if_neg zero, followCad_cad]
  refine ⟨(driveOut_rest _).1, (driveOut_rest _).2.1, (driveOut_rest _).2.2.1, (driveOut_rest _).2.2.2, ?_⟩
  exact ((OnlyChanges.refl _ s).step (setCad_frame _ _) (by decide)).step (followCad_frame _) (by decide)

theorem writeSrc_zero_of_internal {s : State} (here : s.cad.state = .internal) :
    writeSrc 0 s = followCad (enterHoldover { s.cad with src := 0, edge := ctEdge s.cad.ct 0, fromInternal := true } s) := by
  rw [writeSrc]
  simp [here]

theorem writeSrc_zero_of_established {s : State} (here : s.cad.state ≠ .internal) (known : s.cad.established = true) :
    writeSrc 0 s = setCad { s.cad with src := 0 } s := by
  rw [writeSrc]
  simp [here, known]

theorem writeSrc_zero_of_unknown {s : State} (here : s.cad.state ≠ .internal) (unknown : s.cad.established = false) :
    writeSrc 0 s = followCad (setCad (driveOut (dropAcquired { s.cad with src := 0, state := .unlocked })) s) := by
  rw [writeSrc]
  simp [here, unknown]

/-- SRC 0b00 from INTERNAL goes to HOLDOVER. -/
theorem writeSrc_holds {s : State} (here : s.cad.state = .internal) : (writeSrc 0 s).cad.state = .holdover ∧ (writeSrc 0 s).cad.src = 0 ∧
    (writeSrc 0 s).cad.ct = s.cad.ct ∧ Raises Ev.cadHoldover s (writeSrc 0 s) ∧ HostSame s (writeSrc 0 s) ∧
    OnlyChanges [.cad, .host, .rel, .xing, .store] s (writeSrc 0 s) := by
  rw [writeSrc_zero_of_internal here, followCad_cad, enterHoldover_cad]
  refine ⟨rfl, rfl, rfl, ?_⟩
  rw [enterHoldover]
  generalize dropAcquired _ = c
  refine ⟨?_, ?_, ?_⟩
  · exact (raises_postFull Ev.cadHoldover 3 0xFFFFFFFF 0 0 [] (setCad c s)).of_same rfl rfl id (congrArg HostIf.events (followCad_host _))
  · rw [HostSame, followCad_host]
    exact postFull_same Ev.cadHoldover 3 0xFFFFFFFF 0 0 [] (setCad c s)
  · exact (((OnlyChanges.refl _ s).step (setCad_frame _ _) (by decide)).step (post_frame _ _ _) (by decide)).step (followCad_frame _) (by decide)

/-- SRC 0b00 elsewhere keeps an established CT's state. -/
theorem writeSrc_keeps {s : State} (here : s.cad.state ≠ .internal) : (writeSrc 0 s).cad.src = 0 ∧ (writeSrc 0 s).cad.ct = s.cad.ct ∧
    (writeSrc 0 s).cad.state = (if s.cad.established then s.cad.state else .unlocked) ∧ OnlyChanges [.cad, .rel] s (writeSrc 0 s) := by
  by_cases known : s.cad.established = true
  · rw [writeSrc_zero_of_established here known, if_pos known]
    exact ⟨rfl, rfl, rfl, (OnlyChanges.refl _ s).step (setCad_frame _ _) (by decide)⟩
  · rw [writeSrc_zero_of_unknown here (by simpa using known), if_neg known, followCad_cad]
    obtain ⟨state, src, ct, -⟩ := driveOut_rest (dropAcquired { s.cad with src := 0, state := .unlocked })
    exact ⟨src, ct, state, ((OnlyChanges.refl _ s).step (setCad_frame _ _) (by decide)).step (followCad_frame _) (by decide)⟩

theorem exec_resync_of_served {h : HostAccess} {s : State} (served : PrivServed h s) : exec (.resync h) s = .next (doResync s) := by
  change execResync h s = _
  rw [execResync, orHold_of_serves served.1]
  exact if_pos (privReg_of_served served)

theorem canResync_of_rejected {s : State} (here : s.cad.state = .holdover) (rejected : s.cad.rejected = true) : canResync s = true := by
  simp [canResync, here, rejected]

theorem doResync_of_busy {s : State} (can : canResync s = true) (busy : resyncBusy s = true) : doResync s = argReject 0x100 Status.resyncBusy s := by
  rw [doResync, if_pos can, if_pos busy]

theorem doResync_of_idle {s : State} {r : CtWord} (can : canResync s = true) (idle : resyncBusy s = false) (received : s.cad.rct = some r) : doResync s =
    followCad (setCad { s.cad with ct := r, edge := r, state := .locked, rct := none, rejected := false, missing := 0, badStamps := 0 } s) := by
  rw [doResync, if_pos can, if_neg (by simp [idle]), received]

theorem cadenceSourceWrites : Claim.CadenceSourceWrites := by
  refine ⟨fun h v s served => ⟨fun lock => ?_, fun lock three => ?_, fun lock own => ⟨_, exec_cadSrc_of_open served v lock, writeSrc_of_internal own s⟩,
    fun lock zero here => ?_, fun lock zero here => ?_⟩, fun h r s served here rejected received => ⟨fun busy => ?_, fun idle => ?_⟩⟩
  · exact (exec_cadSrc_of_served served v).trans (if_neg (by simp [lock]))
  · rw [exec_cadSrc_of_open served v lock, writeSrc, if_pos three]
  · subst zero
    exact ⟨_, exec_cadSrc_of_open served 0 lock, writeSrc_holds here⟩
  · subst zero
    exact ⟨_, exec_cadSrc_of_open served 0 lock, writeSrc_keeps here⟩
  · rw [exec_resync_of_served served, doResync_of_busy (canResync_of_rejected here rejected) busy]
  · refine ⟨_, exec_resync_of_served served, ?_⟩
    rw [doResync_of_idle (canResync_of_rejected here rejected) idle received, followCad_cad]
    exact ⟨rfl, rfl, ((OnlyChanges.refl _ s).step (setCad_frame _ _) (by decide)).step (followCad_frame _) (by decide)⟩

/-- Settles O6: a stamp is judged by its 64 symbols and the turn that CT predicts; a loss lets the own beats go on to the close of the last missing edge's window
before HOLDOVER is raised and recorded; and a write of SRC or RESYNC is served by the one row that its state selects. -/
theorem cadenceIsCheckedAndSourced : Obligations.CadenceIsCheckedAndSourced :=
  ⟨lockedStampIsChecked, cadenceLossEntersHoldover, cadenceSourceWrites⟩

end Sys2Proof.Machine
end

section
/-! SUPPORT. The norm pass, READY, the vote and the control packets of other members (R317, R328, R404). -/

namespace Sys2Proof.Machine

/-! ### What goes out leaves the host interface but for the log -/

theorem putPort_same (n : Nat) (p : HPort) (s : State) : HostSame s (putPort n p s) := by
  unfold putPort
  extract_lets old u
  have same : HostSame s u := HostSame.of_host rfl
  clear_value u old
  split
  · split
    · exact same
    · exact same.trans (record_same ..)
  · exact same

theorem sendPacket_same (k : RoutedPacket) (s : State) : HostSame s (sendPacket k s) := by
  unfold sendPacket
  split
  · rfl
  · split
    · exact putPort_same ..
    · exact postFull_same ..
    · rfl

theorem sendControl_same (rts members slot : Nat) (step : W32) (items : List Nat) (s : State) : HostSame s (sendControl rts members slot step items s) := by
  unfold sendControl
  generalize otherMembers s rts members = l
  induction l generalizing s with
  | nil => rfl
  | cons m l ih => exact (sendPacket_same _ s).trans (ih _)

/-- A set of one member has no other. -/
theorem sendControl_alone {rts members slot : Nat} {step : W32} {items : List Nat} {s : State} (one : members ≤ 1) (self : (rtSet s rts).self = 0) :
    sendControl rts members slot step items s = s := by
  have none : otherMembers s rts members = [] := by
    rw [otherMembers, self, List.filter_eq_nil_iff]
    intro m listed
    have := List.mem_range.1 listed
    simp
    omega
  rw [sendControl, none]
  rfl

/-- The armed commit takes a new value, and the other members are told. -/
def tellArmed (a b : Armed) (items : List Nat) (s : State) : State := tellMembers a items (setArmed b s)

theorem tellArmed_cap (a b : Armed) (items : List Nat) (s : State) : (tellArmed a b items s).cap = { s.cap with armed := some b } :=
  tellMembers_frame a items (setArmed b s) .cap (by decide)

theorem tellArmed_frame (a b : Armed) (items : List Nat) (s : State) : HostSame s (tellArmed a b items s) ∧
    OnlyChanges [.cap, .ports, .host, .xing, .store] s (tellArmed a b items s) :=
  ⟨sendControl_same a.rts a.members 0 a.step items (setArmed b s),
    (only_cap (OnlyChanges.refl _ s) _ (by decide)).step (tellMembers_frame a items (setArmed b s)) (by decide)⟩

/-! ### NORM_PASS -/

theorem exec_normPass_of_ready {a : Armed} {s : State} (armed : s.cap.armed = some a) (first : lookup (armedSelf s a) a.p = none)
    (final : (validEntries s).all (fun x => entryFinal x.2) = true) : exec .normPass s =
    .next (tellArmed a { a with p := upsert (armedSelf s a) (normP s a.groups) a.p } [3, armedSelf s a, (normP s a.groups).toNat] s) := by
  change execNormPass s = _
  rw [execNormPass, armed]
  exact if_neg (by simp [first, final])

theorem exec_normPass_of_early {a : Armed} {s : State} (armed : s.cap.armed = some a)
    (early : ¬(lookup (armedSelf s a) a.p = none ∧ (validEntries s).all (fun x => entryFinal x.2) = true)) : exec .normPass s = .next s := by
  change execNormPass s = _
  rw [execNormPass, armed]
  refine if_pos ?_
  rw [Bool.or_eq_true, Option.isSome_iff_ne_none, Bool.not_eq_true', ← Bool.not_eq_true]
  exact not_and_or.1 early

theorem normPassEntersP : Claim.NormPassEntersP := by
  intro a s armed self ready
  refine ⟨fun ⟨first, final⟩ => ⟨_, exec_normPass_of_ready armed first final, tellArmed_cap .., fun one zero => ?_, tellArmed_frame ..⟩,
    exec_normPass_of_early armed⟩
  rw [tellArmed, tellMembers, sendControl_alone (s := setArmed _ s) one zero]
  exact only_cap (OnlyChanges.refl _ s) _ (by decide)

/-! ### READY and the vote -/

theorem armTake_ready (a : Armed) (m : Nat) : m ∈ (armTake a (.ready m a.step)).ready ∧ (armTake a (.ready m a.step)).readySent = a.readySent ∧
    (armTake a (.ready m a.step)).voted = a.voted ∧ (armTake a (.ready m a.step)).confirmed = a.confirmed ∧
    (armTake a (.ready m a.step)).votes = a.votes := by
  rw [armTake]
  split
  next => exact ⟨List.mem_cons_self, rfl, rfl, rfl, rfl⟩
  next held =>
    refine ⟨?_, rfl, rfl, rfl, rfl⟩
    by_contra missing
    exact held (by simp [missing])

theorem armTake_commit (a : Armed) (m : Nat) : m ∈ (armTake a (.vote m a.step true)).votes ∧ (armTake a (.vote m a.step true)).voted = a.voted := by
  rw [armTake, if_neg (not_not.2 rfl), if_pos rfl]
  split
  next held => exact ⟨List.contains_iff_mem.1 held, rfl⟩
  next => exact ⟨List.mem_cons_self, rfl⟩

theorem armTake_abort (a : Armed) (m : Nat) : m ∈ (armTake a (.vote m a.step false)).abortVotes ∧ (armTake a (.vote m a.step false)).votes = a.votes ∧
    (armTake a (.vote m a.step false)).voted = a.voted := by
  rw [armTake, if_neg (not_not.2 rfl), if_neg Bool.false_ne_true]
  split
  next held => exact ⟨List.contains_iff_mem.1 held, rfl, rfl⟩
  next => exact ⟨List.mem_cons_self, rfl, rfl⟩

theorem exec_readySend_of_may {a : Armed} {s : State} (armed : s.cap.armed = some a) (active : s.rel.ccFailed = false) (unsent : a.readySent = false)
    (confirmed : a.vetoed = true ∨ a.confirmed.length = 32) (kept : capLost s = false) : exec .readySend s =
    .next (tellArmed a (armTake { a with readySent := true } (.ready (armedSelf s a) a.step)) [0, armedSelf s a] s) := by
  change execReadySend s = _
  rw [execReadySend, armed]
  exact if_pos (by simpa [active, unsent, kept] using confirmed)

theorem exec_readySend_of_mayNot {a : Armed} {s : State} (armed : s.cap.armed = some a)
    (mayNot : ¬(s.rel.ccFailed = false ∧ a.readySent = false ∧ (a.vetoed = true ∨ a.confirmed.length = 32) ∧ capLost s = false)) :
    exec .readySend s = .next s := by
  change execReadySend s = _
  rw [execReadySend, armed]
  exact if_neg fun may => mayNot (by simpa [and_assoc] using may)

/-- The module's vote: COMMIT. -/
def votesCommit (a : Armed) (s : State) : Bool := (List.range a.members).all (fun m => a.ready.contains m) && !s.cap.stepFaulted && !capLost s

theorem votesCommit_iff (a : Armed) (s : State) : votesCommit a s = true ↔ (∀ m < a.members, m ∈ a.ready) ∧ s.cap.stepFaulted = false ∧ capLost s = false := by
  simp [votesCommit, and_assoc]

theorem exec_commitVote_of_due {a : Armed} {s : State} (armed : s.cap.armed = some a) (active : s.rel.ccFailed = false) (first : a.voted = none)
    (due : (a.cp - beats a.w).toNat ≤ s.cad.ct.toNat) : exec .commitVote s = .next (tellArmed a
      (armTake { a with voted := some (votesCommit a s) } (.vote (armedSelf s a) a.step (votesCommit a s))) [1, armedSelf s a, b2n (votesCommit a s)] s) := by
  change execCommitVote s = _
  have now : timeTo (a.cp - beats a.w) s = some s := if_pos due
  rw [execCommitVote, armed]
  simp only [active, first, Option.isSome_none, Bool.or_false, Bool.false_eq_true, if_false, now]
  rfl

/-- CT does not reach a time of a later beat, nor one ahead while it stands still. -/
theorem reachCt_of_ahead {t : CtWord} {s : State} (ahead : s.cad.ct.toNat < t.toNat) (far : ctRuns s = false ∨ lastCt s.cad < t.toNat) : reachCt t s = none := by
  rw [reachCt, if_neg (by omega)]
  refine if_neg ?_
  rcases far with still | far
  · simp [still]
  · simp only [Bool.and_eq_true, decide_eq_true_eq, not_and]
    omega

theorem comeTo_of_ahead {k : DueKey} {t : CtWord} {s : State} (ahead : s.cad.ct.toNat < t.toNat) (far : ctRuns s = false ∨ lastCt s.cad < t.toNat) :
    comeTo k t s = none := by
  rw [comeTo, reachCt_of_ahead ahead far, ite_self]

theorem timeTo_of_ahead {t : CtWord} {s : State} (ahead : s.cad.ct.toNat < t.toNat) (far : ctRuns s = false ∨ lastCt s.cad < t.toNat) :
    timeTo t s = none := by
  rw [timeTo, if_neg (by omega), comeTo_of_ahead ahead far]

theorem exec_commitVote_of_not {a : Armed} {s : State} (armed : s.cap.armed = some a) (not : s.rel.ccFailed = true ∨ a.voted ≠ none ∨
    (s.cad.ct.toNat < (a.cp - beats a.w).toNat ∧ (ctRuns s = false ∨ lastCt s.cad < (a.cp - beats a.w).toNat))) : exec .commitVote s = .next s := by
  change execCommitVote s = _
  rw [execCommitVote, armed]
  by_cases silent : (s.rel.ccFailed || a.voted.isSome) = true
  · exact if_pos silent
  · refine (if_neg silent).trans ?_
    rcases not with failed | voted | ⟨ahead, far⟩
    · exact absurd (by simp [failed]) silent
    · exact absurd (by simp [Option.isSome_iff_ne_none.2 voted]) silent
    · rw [timeTo_of_ahead ahead far]

theorem readyAndVote : Claim.ReadyAndVote := by
  refine ⟨fun a s armed => ⟨fun ⟨active, unsent, confirmed, kept⟩ => ?_, exec_readySend_of_mayNot armed⟩, fun a s armed active first due => ?_,
    fun a s armed not => exec_commitVote_of_not armed not⟩
  · obtain ⟨listed, sent, voted, same, -⟩ := armTake_ready { a with readySent := true } (armedSelf s a)
    exact ⟨_, _, exec_readySend_of_may armed active unsent confirmed kept, tellArmed_cap .., sent, listed, voted, same, tellArmed_frame ..⟩
  · refine ⟨_, _, votesCommit a s, exec_commitVote_of_due armed active first due, tellArmed_cap .., ?_, votesCommit_iff a s, ?_, ?_, tellArmed_frame ..⟩
    all_goals cases votesCommit a s
    · exact (armTake_abort { a with voted := some false } _).2.2
    · exact (armTake_commit { a with voted := some true } _).2
    · nofun
    · exact fun _ => (armTake_commit { a with voted := some true } _).1
    · exact fun _ => ⟨(armTake_abort { a with voted := some false } _).1, (armTake_abort { a with voted := some false } _).2.1⟩
    · nofun

/-! ### Control packets of other members -/

/-- A packet that leaves its receive buffer changes the ports alone. -/
theorem freeRx_ports {f : RoutedPacket → Bool} {s s₀ : State} (comes : freeRx f s = some s₀) : OnlyChanges [.ports] s s₀ := by
  have frame := freeRx_frame f s
  rw [comes] at frame
  exact frame

theorem freeRx_same {f : RoutedPacket → Bool} {s s₀ : State} (comes : freeRx f s = some s₀) : s₀.cap = s.cap ∧ s₀.xing = s.xing :=
  ⟨freeRx_ports comes .cap (by decide), freeRx_ports comes .xing (by decide)⟩

theorem xingClosed_of_xing {s t : State} (same : t.xing = s.xing) (src dst : Nat) : xingClosed t src dst = xingClosed s src dst := by
  rw [xingClosed, same, xingClosed]

theorem exec_controlPacket_of_closed {c : Control} {x : Transit} {s s₀ : State} (comes : freeRx (controlHeader c) s = some s₀)
    (closed : ¬(xingClosed s 11 8 = false ∧ xingClosed s 8 12 = false)) : exec (.controlPacket c x) s = .next s₀ := by
  change execControlPacket c x s = _
  have same := (freeRx_same comes).2
  simp only [execControlPacket, comes, xingClosed_of_xing same]
  refine if_pos ?_
  by_contra neither
  exact closed (by simpa using neither)

/-- Past open crossings a packet arrives as its transit says. -/
theorem exec_controlPacket_of_open {c : Control} {s s₀ : State} (comes : freeRx (controlHeader c) s = some s₀)
    (passes : xingClosed s 11 8 = false ∧ xingClosed s 8 12 = false) : exec (.controlPacket c .ok) s = .next (takeControl c s₀) ∧
      (∀ a b, exec (.controlPacket c (.overrun a b)) s = .next (xingRecord a b false s₀)) ∧
      ∀ tile w, exec (.controlPacket c (.hop tile w)) s = .next (if (parityMeets (.hop tile) w 3 0 ((controlStep c).getD 0) s₀).1
        then (parityMeets (.hop tile) w 3 0 ((controlStep c).getD 0) s₀).2 else takeControl c (parityMeets (.hop tile) w 3 0 ((controlStep c).getD 0) s₀).2) := by
  have same := (freeRx_same comes).2
  have go : (xingClosed s₀ 11 8 || xingClosed s₀ 8 12) = false := by simp [xingClosed_of_xing same, passes.1, passes.2]
  refine ⟨?_, fun a b => ?_, fun tile w => ?_⟩
  · change execControlPacket c .ok s = _
    simp only [execControlPacket, comes, go, Bool.false_eq_true, if_false]
  · change execControlPacket c (.overrun a b) s = _
    simp only [execControlPacket, comes, go, Bool.false_eq_true, if_false]
  · change execControlPacket c (.hop tile w) s = _
    simp only [execControlPacket, comes, go, Bool.false_eq_true, if_false]

theorem exec_controlPacket_of_none {c : Control} {x : Transit} {s : State} (stays : freeRx (controlHeader c) s = none) :
    exec (.controlPacket c x) s = .next s := by
  change execControlPacket c x s = _
  rw [execControlPacket, stays]

theorem takeArmed_of_step {c : Control} {a : Armed} {s : State} (armed : s.cap.armed = some a) : takeArmed c a.step s = setArmed (armTake a c) s := by
  rw [takeArmed, armed]
  exact if_pos rfl

theorem takeArmed_of_later {c : Control} {t : W32} {s : State} (none : s.cap.armed = none) (later : s.cap.committed.toNat < t.toNat) :
    takeArmed c t s = { s with cap := { s.cap with early := s.cap.early ++ [c] } } := by
  rw [takeArmed, none]
  exact if_pos later

theorem takeControl_outcome {m : Nat} {v : Bool} {w : Window} {s : State} (window : s.cap.window = some w) :
    takeControl (.outcome m w.armed.step v) s = { s with cap := { s.cap with window := some (windowTake w m v) } } := by
  rw [takeControl, window]
  exact if_pos rfl

theorem takeControl_normP {m : Nat} {t : W32} {x : W64} {s : State} (none : s.cap.norm = none) : takeControl (.normP m t x) s = takeArmed (.normP m t x) t s := by
  rw [takeControl, none]

theorem windowTake_lists (w : Window) (m : Nat) (v : Bool) : m ∈ (windowTake w m v).outcomes ∧ (v = false → m ∈ (windowTake w m v).aborts) := by
  refine ⟨?_, ?_⟩
  · rw [windowTake]
    dsimp only
    split
    next held => exact List.contains_iff_mem.1 held
    next => exact List.mem_cons_self
  · rintro rfl
    rw [windowTake]
    dsimp only
    split
    next held => exact List.contains_iff_mem.1 (by simpa using held)
    next => exact List.mem_cons_self

/-- A packet of the armed step is taken by the armed commit alone. -/
theorem taken_armed {c : Control} {a : Armed} {s s₀ : State} (passes : xingClosed s 11 8 = false ∧ xingClosed s 8 12 = false)
    (armed : s.cap.armed = some a) (comes : freeRx (controlHeader c) s = some s₀) (kind : takeControl c s₀ = takeArmed c a.step s₀) :
    exec (.controlPacket c .ok) s = .next (setArmed (armTake a c) s₀) ∧ (setArmed (armTake a c) s₀).cap = { s.cap with armed := some (armTake a c) } ∧
      OnlyChanges [.cap, .ports] s (setArmed (armTake a c) s₀) := by
  have cap := (freeRx_same comes).1
  refine ⟨?_, by rw [setArmed, cap], only_cap ((OnlyChanges.refl _ s).step (freeRx_ports comes) (by decide)) _ (by decide)⟩
  rw [(exec_controlPacket_of_open comes passes).1, kind, takeArmed_of_step (by rw [cap, armed])]

theorem controlPacketsAreRecorded : Claim.ControlPacketsAreRecorded := by
  refine ⟨fun m a s passes armed => ⟨fun ⟨s₀, here⟩ => ?_, fun v ⟨s₀, here⟩ => ?_, fun x ⟨s₀, here⟩ none => ?_⟩,
    fun m v w s passes window ⟨s₀, here⟩ => ?_, fun m t s passes none later ⟨s₀, here⟩ => ?_, fun c x s s₀ here => ⟨exec_controlPacket_of_closed here,
      fun passes => ⟨(exec_controlPacket_of_open here passes).2.1, (exec_controlPacket_of_open here passes).2.2⟩⟩, fun c x s => exec_controlPacket_of_none⟩
  · obtain ⟨runs, cap, frame⟩ := taken_armed passes armed here rfl
    obtain ⟨listed, -, -, -, votes⟩ := armTake_ready a m
    exact ⟨_, _, runs, cap, listed, votes, frame⟩
  · obtain ⟨runs, cap, frame⟩ := taken_armed passes armed here rfl
    refine ⟨_, _, runs, cap, ?_, ?_, frame⟩
    · rintro rfl
      exact (armTake_commit a m).1
    · rintro rfl
      exact ⟨(armTake_abort a m).1, (armTake_abort a m).2.1⟩
  · obtain ⟨runs, cap, frame⟩ := taken_armed passes armed here (takeControl_normP (by rw [(freeRx_same here).1, none]))
    exact ⟨_, runs, cap.trans (by rw [armTake, if_pos rfl]), frame⟩
  · have cap := (freeRx_same here).1
    refine ⟨_, _, (exec_controlPacket_of_open here passes).1, ?_, windowTake_lists w m v |>.1, (windowTake_lists w m v).2, ?_⟩
    · rw [takeControl_outcome (by rw [cap, window]), cap]
    · rw [takeControl_outcome (by rw [cap, window])]
      exact only_cap ((OnlyChanges.refl _ s).step (freeRx_ports here) (by decide)) _ (by decide)
  · have cap := (freeRx_same here).1
    have taken : takeControl (.ready m t) s₀ = _ := takeArmed_of_later (by rw [cap, none]) (by rw [cap]; exact later)
    refine ⟨_, (exec_controlPacket_of_open here passes).1, ?_, ?_⟩
    · rw [taken, cap]
    · rw [taken]
      exact only_cap ((OnlyChanges.refl _ s).step (freeRx_ports here) (by decide)) _ (by decide)

/-- Settles O15: NORM_PASS, READY and the vote each set the armed commit once and tell the other members; a control packet acts by the one row that the armed
step, the window and COMMITTED select. -/
theorem commitIsPrepared : Obligations.CommitIsPrepared :=
  ⟨normPassEntersP, readyAndVote, controlPacketsAreRecorded⟩

end Sys2Proof.Machine
end

section
/-! SUPPORT. What starts, parity faults and held contributions leave of the update unit: all but the capstans, the ledger and the held contributions. -/

namespace Sys2Proof.Machine

/-- The update unit but for its capstans, its ledger entries and the contributions held at them. -/
def Cap.decided (c : Cap) : Cap := { c with capstans := [], ledger := [], held := [] }

/-- The update unit stands as it did, but for capstans, ledger and held contributions. -/
def CapKept (s t : State) : Prop := t.cap.decided = s.cap.decided

theorem CapKept.refl (s : State) : CapKept s s := rfl

theorem CapKept.of_cap {s t : State} (h : t.cap = s.cap) : CapKept s t := congrArg Cap.decided h

theorem CapKept.trans {s t u : State} (h : CapKept s t) (k : CapKept t u) : CapKept s u := Eq.trans k h

/-- A change that leaves the update unit alone. -/
theorem CapKept.of_frame {l : List Part} {s t : State} (h : OnlyChanges l s t) (none : .cap ∉ l) : CapKept s t := .of_cap (h .cap none)

theorem CapKept.then_frame {l : List Part} {s t u : State} (h : CapKept s t) (k : OnlyChanges l t u) (none : .cap ∉ l) : CapKept s u :=
  h.trans (.of_frame k none)

theorem CapKept.foldl {α : Type} {f : State → α → State} (h : ∀ s x, CapKept s (f s x)) (l : List α) (s : State) : CapKept s (l.foldl f s) := by
  induction l generalizing s with
  | nil => exact .refl s
  | cons x l ih => exact (h s x).trans (ih _)

section
variable {s t : State} (kept : CapKept s t)
include kept

theorem CapKept.committed : t.cap.committed = s.cap.committed := (congrArg Cap.committed kept :)
theorem CapKept.cur : t.cap.cur = s.cap.cur := (congrArg Cap.cur kept :)
theorem CapKept.window : t.cap.window = s.cap.window := (congrArg Cap.window kept :)
theorem CapKept.log : t.cap.log = s.cap.log := (congrArg Cap.log kept :)

end

theorem startAll.mono {P Q : State → Prop} {r : Start} (h : startAll P r) (k : ∀ t, P t → Q t) : startAll Q r := by
  cases r with
  | hold => trivial
  | run m t => exact k t h
  | done t => exact k t h
  | fail st t => exact k t h
  | fault c t => exact k t h

theorem unitAll.mono {α : Type} {P Q : State → Prop} {r : UnitRes α} (h : unitAll P r) (k : ∀ t, P t → Q t) : unitAll Q r := by
  cases r with
  | ok x t => exact k t h
  | stop st t => exact k t h
  | bad t => exact k t h

/-- A start whose frame leaves the update unit alone. -/
theorem startKept {l : List Part} {s : State} {r : Start} (h : startAll (OnlyChanges l s) r) (none : .cap ∉ l) : startAll (CapKept s) r :=
  h.mono fun _ frame => .of_frame frame none

/-! ### Capstans that fail -/

theorem ledgerRec_kept (cls action result : Nat) (unit logical play : W32) (d : List Byte) (s : State) :
    CapKept s (ledgerRec cls action result unit logical play d s) := .of_frame (ledgerRec_frame _ _ _ _ _ _ _ _) (by decide)

theorem freeBank_kept (bank : Bool) (s : State) (e : Nat × Ledger) : CapKept s (freeBank bank s e) := .of_frame (freeBank_frame _ _ _) (by decide)

theorem loseSums_kept (k : Nat) (s : State) : CapKept s (loseSums k s) :=
  CapKept.trans (CapKept.foldl (freeBank_kept (altBank s)) (entriesOf s k) s) rfl

theorem setCapstan_kept (k : Nat) (c : Capstan) (s : State) : CapKept s (setCapstan k c s) := rfl

theorem failCapstan_kept (k : Nat) (s : State) : CapKept s (failCapstan k s) := by
  unfold failCapstan
  extract_lets c lost store s₁ s₂ rel s₃ tail rel'
  have h₁ : CapKept s s₁ := rfl
  have h₂ : CapKept s s₂ := by
    have cleared (v : State) : CapKept v (unsettleCap k (clearCapKnots k v)) :=
      CapKept.trans (CapKept.of_frame (clearCapKnots_frame k v) (by decide)) rfl
    refine CapKept.trans ?_ (cleared _)
    split
    · exact h₁.trans (loseSums_kept k s₁)
    · exact h₁
  clear_value s₁ s₂
  have h₃ : CapKept s s₃ := by
    unfold s₃
    split
    · exact CapKept.trans (t := { s₂ with rel := _ }) h₂ (.foldl (freeBank_kept _) _ _)
    · exact h₂
  have recorded (res : Nat) (v : State) : CapKept v (tail res v) := ledgerRec_kept ..
  have degraded (c' : Capstan) (v : State) : CapKept v (post Ev.capDegraded [] (setCapstan k c' v)) :=
    (setCapstan_kept k c' v).trans (.of_frame (post_frame Ev.capDegraded [] (setCapstan k c' v)) (by decide))
  clear_value s₃ tail
  split
  · exact ((h₃.trans (.of_frame (journalRecord_frame s₃) (by decide))).trans (setCapstan_kept ..)).trans (recorded _ _)
  · refine CapKept.trans (CapKept.trans ?_ (degraded _ _)) (recorded _ _)
    exact h₃

theorem repairRim_kept (k row : Nat) (s : State) : CapKept s (repairRim k row s) := by
  unfold repairRim
  extract_lets c u v store
  split
  · exact CapKept.trans (t := { v with store := _ }) rfl (ledgerRec_kept ..)
  · exact (ledgerRec_kept ..).trans (failCapstan_kept ..)

theorem rimBad_kept (k unit : Nat) (s : State) : CapKept s (rimBad k unit s) := by
  unfold rimBad
  split
  · rfl
  · extract_lets v
    have h : CapKept s v := .of_frame (record_frame _ _ _ _ _ _ _ _ _ _) (by decide)
    clear_value v
    split
    · exact h.then_frame (freeBytes_frame _ _ _) (by decide)
    · exact h

theorem rimFinds_kept (k unit row : Nat) (r : ArrayRead) (s : State) : CapKept s (rimFinds k unit row r s) := by
  cases r with
  | ok => exact .refl s
  | bad => exact (rimBad_kept ..).trans (repairRim_kept ..)
  | corrected =>
    rw [rimFinds]
    generalize counted : record _ _ _ _ _ _ _ _ _ _ = u
    have h : CapKept s u := counted ▸ (setCapstan_kept ..).trans (.of_frame (record_frame _ _ _ _ _ _ _ _ _ _) (by decide))
    split
    · exact h.trans (repairRim_kept ..)
    · exact h

theorem rimAt_kept (a row : Nat) (r : ArrayRead) (s : State) : CapKept s (rimAt a row r s) := by
  unfold rimAt
  split
  · exact rimFinds_kept ..
  · split
    · exact rimFinds_kept ..
    · exact .refl s

/-! ### Parity -/

theorem parityPersists_kept (p : ParityPlace) (s : State) : CapKept s (parityPersists p s) := by
  cases p with
  | store L => exact .of_frame (suspectTile_frame _ _ _) (by decide)
  | hop u => exact .of_frame (suspectTile_frame _ _ _) (by decide)
  | near write a =>
    rw [parityPersists]
    cases rowOf s a with
    | none => exact .refl s
    | some r => exact .of_frame (needMigration_frame _ _ _) (by decide)
  | rim a => exact (CapKept.of_frame (suspectTile_frame _ _ _) (by decide)).trans (failCapstan_kept ..)

theorem parityFails_kept (p : ParityPlace) (s : State) : CapKept s (parityFails p s).2 := by
  cases p with
  | store L => exact .refl s
  | hop u => exact .refl s
  | near write a =>
    rw [parityFails]
    cases rowOf s a with
    | none => exact .refl s
    | some r =>
      cases write with
      | true => exact .refl s
      | false => exact .of_frame (restoreGranule_frame r s) (by decide)
  | rim a => exact rimBad_kept ..

theorem parityMeets_kept (p : ParityPlace) (w : DataWord) (origin : Nat) (play step : W32) (s : State) : CapKept s (parityMeets p w origin play step s).2 := by
  have recorded (result : Nat) (u lg : W32) : CapKept s (record 1 1 result origin u lg play step w.data s) :=
    .of_frame (record_frame _ _ _ _ _ _ _ _ _ _) (by decide)
  unfold parityMeets
  dsimp only
  split
  · have counted := (recorded 0 (placeUnit s p).1 (placeUnit s p).2).trans
      (CapKept.of_frame (countRetry_frame (placeUnit s p).1 (record 1 1 0 origin (placeUnit s p).1 (placeUnit s p).2 play step w.data s)) (by decide))
    split
    · exact counted.trans (parityPersists_kept ..)
    · exact counted
  · exact ((recorded _ _ _).trans (parityFails_kept ..)).trans (parityPersists_kept ..)

/-! ### Moves that start -/

theorem unitRead_kept (p : Play) (tile : Nat) (f : MoveFault) (a : Nat) (s : State) : unitAll (CapKept s) (unitRead p tile f a s) := by
  have near (b : Nat) : unitAll (CapKept s) (nearUnit p s b) := (nearUnit_frame p s b).mono fun _ frame => .of_frame frame (by decide)
  unfold unitRead
  generalize spaceOf a = z
  generalize hintResolve s a = y
  cases z
  case near =>
    dsimp only
    split
    · exact .refl s
    · have cached := cacheRead_frame s tile (a / 128)
      generalize cacheRead s tile (a / 128) = r at cached
      cases r with
      | some x => exact .of_frame cached (by decide)
      | none =>
        have read := near a
        generalize nearUnit p s a = r at read
        cases r with
        | ok d t => exact CapKept.then_frame read (cacheFill_frame _ _ _ _) (by decide)
        | stop st t => exact read
        | bad t => exact read
  case rim =>
    dsimp only
    split
    · show CapKept _ _
      split
      · exact rimAt_kept ..
      · exact .refl s
    · exact .refl s
  case hint =>
    cases y
    case near b =>
      have read := near b
      dsimp only
      generalize nearUnit p s b = r at read
      cases r <;> exact read
    case host =>
      dsimp only
      split
      · exact .of_frame (hostFault_frame _ _ _ _) (by decide)
      · exact .refl s
    case none => exact .refl s
  all_goals exact .refl s

theorem copyUnits_kept (p : Play) (tile : Nat) (m : QMove) : ∀ (l : List (Nat × Nat)) (took : List (Nat × Nat × List Byte)) (s : State),
    unitAll (CapKept s) (copyUnits p tile m l took s) := by
  intro l
  induction l with
  | nil => exact fun _ s => .refl s
  | cons x l ih =>
    obtain ⟨a, d⟩ := x
    intro took s
    rw [copyUnits]
    generalize bankAddr s p m.word a = b
    have read := unitRead_kept p tile m.fault b s
    generalize unitRead p tile m.fault b s = r at read
    cases r with
    | stop st t => exact read
    | bad t => exact read
    | ok data t =>
      obtain ⟨data, fresh⟩ := data
      have wrote := (unitWrite_frame p tile m.fault d data t).mono fun _ frame => CapKept.of_frame frame (by decide)
      dsimp only
      generalize unitWrite p tile m.fault d data t = r at wrote
      cases r with
      | stop st u => exact CapKept.trans read wrote
      | bad u => exact CapKept.trans read wrote
      | ok y u => exact (ih _ u).mono fun _ rest => CapKept.trans (CapKept.trans read wrote) rest

theorem runMove_kept (p : Play) (tile : Nat) (m : QMove) (s : State) : startAll (CapKept s) (runMove p tile m s) := by
  unfold runMove
  extract_lets u
  refine startAll_mapState (P := CapKept u) ?_ fun v kept => CapKept.trans (t := u) rfl (CapKept.trans (t := v) kept rfl)
  clear_value u
  split
  · trivial
  · split
    · exact CapKept.refl u
    · have copied := copyUnits_kept p tile m (moveUnits m.word) [] u
      generalize copyUnits p tile m (moveUnits m.word) [] u = r at copied
      cases r with
      | ok took t => exact CapKept.then_frame copied (freeOverlap_frame _ _ _ _ _) (by decide)
      | stop st t => exact copied
      | bad t => exact copied

theorem startMove_kept (p : Play) (tile : Nat) (m : QMove) (s : State) : startAll (CapKept s) (startMove p tile m s) := by
  unfold startMove
  extract_lets x
  cases moveCheck s p tile x.word with
  | some st => exact CapKept.refl s
  | none =>
    have run (u : State) (kept : CapKept s u) : startAll (CapKept s) (runMove p tile x u) := (runMove_kept p tile x u).mono fun _ => kept.trans
    unfold faultMove
    cases x.fault with
    | overrun a b =>
      have noted : CapKept s (xingRecordFor p.origin p.id p.step a b false s) := .of_frame (xingRecordFor_frame _ _ _ _ _ _ _) (by decide)
      dsimp only
      split
      · exact run _ noted
      · exact noted
    | parity pl w =>
      have met := parityMeets_kept pl w p.origin p.id p.step s
      dsimp only
      split
      · exact run _ met
      · cases pl <;> exact met
    | none => exact run s (.refl s)
    | rim a row r => exact run s (.refl s)
    | hostFail port a => exact run s (.refl s)
    | lane twice => exact run s (.refl s)

theorem startMoveOf_kept (p : Play) (tile code : Nat) (m : QMove) (s : State) : startAll (CapKept s) (startMoveOf p tile code m s) := by
  unfold startMoveOf
  split
  · exact CapKept.refl s
  · split
    · exact startKept (startTie_frame _ _ _ _ _) (by decide)
    · exact startKept (startWait_frame _ _ _) (by decide)
    · exact startKept (startKset_frame _ _ _) (by decide)
    · exact startKept (startIframe_frame _ _ _ _ _) (by decide)
    · exact startKept (startLoadw_frame _ _ _) (by decide)
    · exact startKept (startSwapw_frame _ _ _) (by decide)
    · exact startKept (startStream_frame _ _ _) (by decide)
    · exact startKept (startElem_frame _ _ _ _) (by decide)
    · exact startKept (startGroup_frame _ _ _ _ _) (by decide)
    · exact startKept (startGroup_frame _ _ _ _ _) (by decide)
    · exact startKept (startGroup_frame _ _ _ _ _) (by decide)
    · exact startKept (startTopk_frame _ _ _ _) (by decide)
    · exact startKept (startGather_frame _ _ _ _ _) (by decide)
    · exact startKept (startGather_frame _ _ _ _ _) (by decide)
    · exact startKept (startGather_frame _ _ _ _ _) (by decide)
    · exact startKept (startPack_frame _ _ _ _) (by decide)
    · exact startKept (startGroup_frame _ _ _ _ _) (by decide)
    · exact startMove_kept p tile m s
    · exact startKept (startInval_frame _ _ _) (by decide)
    · exact startKept (startDispatch_frame _ _ _ _) (by decide)
    · exact startKept (startCombine_frame _ _ _ _) (by decide)
    · exact CapKept.refl s

theorem laneStart_kept (p : Play) (tile : Nat) (m : QMove) {s u : State} {r : Start} (kept : CapKept u s) (h : startAll (CapKept u) r) :
    startAll (CapKept u) (laneStart p tile m s r) := by
  have log (masked : Bool) (v : State) (k : CapKept u v) :
      CapKept u (laneResidue (unitOf 0 (physTile s tile)) (BitVec.ofNat 32 tile) p.origin p.id p.step masked v) :=
    k.then_frame (laneResidue_frame _ _ _ _ _ _ _) (by decide)
  unfold laneStart
  dsimp only
  split
  · exact log true _ h
  · exact log true _ h
  · exact (log false s kept).then_frame (suspectTile_frame _ _ _) (by decide)
  · exact (log false s kept).then_frame (suspectTile_frame _ _ _) (by decide)
  · exact h

theorem parityStart_kept (p : Play) (m : QMove) {start : State → Start} (h : ∀ u, startAll (CapKept u) (start u)) (s : State) :
    startAll (CapKept s) (parityStart p m start s) := by
  have meets (pl : ParityPlace) (w : DataWord) : startAll (CapKept s)
      (if (parityMeets pl w p.origin p.id p.step s).1 then .fault 1 (parityMeets pl w p.origin p.id p.step s).2
       else start (parityMeets pl w p.origin p.id p.step s).2) := by
    have met := parityMeets_kept pl w p.origin p.id p.step s
    split
    · exact met
    · exact (h _).mono fun _ => met.trans
  have ran := h s
  unfold parityStart
  dsimp only
  split
  · rename_i e
    rw [e] at ran
    split
    · exact ran
    · exact meets _ _
  · rename_i e
    rw [e] at ran
    split
    · exact ran
    · exact meets _ _
  · exact ran

theorem startAny_kept (p : Play) (tile code : Nat) (m : QMove) (s : State) : startAll (CapKept s) (startAny p tile code m s) :=
  parityStart_kept p m (fun u => laneStart_kept p tile m (.refl u) (startMoveOf_kept p tile code m u)) s

theorem applyStart_kept (p : Play) (tile code pos : Nat) (m : QMove) {r : Start} {s : State} (h : startAll (CapKept s) r) :
    CapKept s (applyStart p tile code pos m r s).2 := by
  cases r with
  | hold => exact .refl s
  | run m' t =>
    exact CapKept.then_frame (((CapKept.then_frame (CapKept.then_frame h (putMove_frame _ _ _ _ _ _) (by decide)) (addDests_frame _ _ _) (by decide)).then_frame
      (noteStart_frame _ _ _ _ _) (by decide))) (noteAll_frame _) (by decide)
  | done t =>
    exact CapKept.then_frame (((CapKept.then_frame (CapKept.then_frame h (dropMove_frame _ _ _ _ _) (by decide)) (noteStart_frame _ _ _ _ _) (by decide)).then_frame
      (makeTie_frame _ _ _ _) (by decide))) (noteAll_frame _) (by decide)
  | fail st t => exact (CapKept.then_frame h (addDests_frame _ _ _) (by decide)).then_frame (failPlay_frame _ _ _) (by decide)
  | fault c t => exact (CapKept.then_frame h (addDests_frame _ _ _) (by decide)).then_frame (faultPlay_frame _ _ _ _) (by decide)

theorem pumpHead_kept (order tile code : Nat) : ∀ (n : Nat) (s : State), CapKept s (pumpHead order tile code n s) := by
  intro n
  induction n with
  | zero => exact .refl
  | succ n ih =>
    intro s
    rw [pumpHead]
    cases getPlay s order with
    | none => exact .refl s
    | some p =>
      dsimp only
      cases getQueue p tile code with
      | none => exact .refl s
      | some q =>
        dsimp only
        cases q.moves with
        | nil => exact .refl s
        | cons m l =>
          dsimp only
          split
          · exact .refl s
          · have applied := applyStart_kept p tile code 0 { m with frame := q.frame } (startAny_kept p tile code { m with frame := q.frame } s)
            split
            · exact applied.trans (ih _)
            · exact applied

theorem pumpArr_kept (order tile : Nat) : ∀ (n : Nat) (s : State), CapKept s (pumpArr order tile n s) := by
  intro n
  induction n with
  | zero => exact .refl
  | succ n ih =>
    intro s
    rw [pumpArr]
    cases getPlay s order with
    | none => exact .refl s
    | some p =>
      dsimp only
      cases getQueue p tile 1 with
      | none => exact .refl s
      | some q =>
        dsimp only
        cases nextArr 0 [] q.moves with
        | none => exact .refl s
        | some x =>
          obtain ⟨pos, m⟩ := x
          dsimp only
          split
          · exact .refl s
          · have went : CapKept s (if m.issued then applyStart p tile 1 pos m (startAny p tile 1 m s) s else issueArr p tile pos m q s).2 := by
              split
              · exact applyStart_kept p tile 1 pos m (startAny_kept p tile 1 m s)
              · exact .of_frame (issueArr_frame p tile pos m q s) (by decide)
            generalize (if m.issued then applyStart p tile 1 pos m (startAny p tile 1 m s) s else issueArr p tile pos m q s) = x at went ⊢
            split
            · exact went.trans (ih _)
            · exact went

theorem pump_kept (order tile code : Nat) (s : State) : CapKept s (pump order tile code s) := by
  unfold pump
  split
  · exact (CapKept.of_frame (resumeArr_frame order tile s) (by decide)).trans (pumpArr_kept ..)
  · exact pumpHead_kept ..

theorem pumpAll_kept (s : State) : CapKept s (pumpAll s) := by
  unfold pumpAll
  refine CapKept.foldl (fun s p => CapKept.foldl (fun s q => ?_) _ s) _ s
  split
  · exact .refl s
  · exact pump_kept ..

/-! ### Held contributions, and the evaluation of a step -/

theorem setEntry_kept (n : Nat) (e : Ledger) (s : State) : CapKept s (setEntry n e s) := rfl

theorem addContribution_kept (c : Contribution) (e : Ledger) (s : State) : CapKept s (addContribution c e s) := by
  unfold addContribution
  extract_lets bank k n second u dyn e' v
  have added : CapKept s u := .foldl (fun s i => .of_frame (wr32_frame _ _ s) (by decide)) _ s
  have told : CapKept s v := by
    unfold v
    split
    · exact added.then_frame (postStep_frame _ _ _ _) (by decide)
    · exact added
  exact told.trans (setEntry_kept ..)

theorem takeContribution_kept (tag : Nat × Nat) (c : Contribution) (s : State) : CapKept s (takeContribution tag c s) := by
  have flagged (d : Dyn) : CapKept s (setEntry c.entry { getEntry s c.entry with dyn := d } s) := rfl
  unfold takeContribution
  dsimp only
  split
  · exact flagged _
  · split
    · rfl
    · split
      · exact (flagged _).then_frame (postStep_frame _ _ _ _) (by decide)
      · split
        · exact (flagged _).then_frame (postStep_frame _ _ _ _) (by decide)
        · exact addContribution_kept ..

theorem takeHeld_kept (s : State) : CapKept s (takeHeld s) :=
  CapKept.trans (t := { s with cap := { s.cap with held := [] } }) rfl
    (.foldl (f := fun s (x : (Nat × Nat) × Contribution) => takeContribution x.1 x.2 s) (fun s x => takeContribution_kept x.1 x.2 s) _ _)

theorem evalEntry_kept (step : W32) (vetoed : Bool) (groups : Table Machine.Group) (s : State) (n : Nat) : CapKept s (evalEntry step vetoed groups s n) := by
  have posted (code : Nat) (d : List Byte) (s : State) : CapKept s (postStep code step d s) := .of_frame (postStep_frame _ _ _ _) (by decide)
  unfold evalEntry
  split
  · exact .refl s
  · extract_lets u starved run cap v
    have told : CapKept s u := by
      unfold u
      split
      · exact posted ..
      · exact .refl s
    split
    · exact told
    · have stalled : CapKept s v := told.trans rfl
      clear_value u v
      split
      · exact stalled.trans (posted ..)
      · exact stalled

theorem evaluate_kept (step : W32) (vetoed : Bool) (groups : Table Machine.Group) (s : State) : CapKept s (evaluate step vetoed groups s) := by
  unfold evaluate
  extract_lets slots u
  have slotsKept : CapKept s u := .foldl (fun s n => .of_frame (evalSlot_frame _ _ _ _) (by decide)) _ s
  exact slotsKept.trans (.foldl (evalEntry_kept step vetoed groups) _ u)

end Sys2Proof.Machine
end

section
/-! SUPPORT. The commit point, retraction and the outcome window (R329 to R335). -/

namespace Sys2Proof.Machine

/-! ### What commands with a step leave of the update unit as they are dispatched -/

/-- The update unit but for what COMMIT_ARM, BARRIER and replies write in it. -/
def Cap.lasting (c : Cap) : Cap := { c with log := [], armed := none, latched := [], early := [] }

/-- The update unit stands as it did, but for the log, the armed step, the latched groups and the early control packets. -/
def CapLasts (s t : State) : Prop := t.cap.lasting = s.cap.lasting

theorem CapLasts.refl (s : State) : CapLasts s s := rfl

theorem CapLasts.trans {s t u : State} (h : CapLasts s t) (k : CapLasts t u) : CapLasts s u := Eq.trans k h

theorem CapLasts.of_frame {l : List Part} {s t : State} (h : OnlyChanges l s t) (none : .cap ∉ l) : CapLasts s t :=
  congrArg Cap.lasting (h .cap none :)

theorem CapLasts.foldl {α : Type} {f : State → α → State} (h : ∀ s x, CapLasts s (f s x)) (l : List α) (s : State) : CapLasts s (l.foldl f s) := by
  induction l generalizing s with
  | nil => exact .refl s
  | cons x l ih => exact (h s x).trans (ih _)

section
variable {s t : State} (lasts : CapLasts s t)
include lasts

theorem CapLasts.committed : t.cap.committed = s.cap.committed := (congrArg Cap.committed lasts :)
theorem CapLasts.cur : t.cap.cur = s.cap.cur := (congrArg Cap.cur lasts :)
theorem CapLasts.outcome : t.cap.outcome = s.cap.outcome := (congrArg Cap.outcome lasts :)
theorem CapLasts.replays : t.cap.replays = s.cap.replays := (congrArg Cap.replays lasts :)
theorem CapLasts.window : t.cap.window = s.cap.window := (congrArg Cap.window lasts :)
theorem CapLasts.ledger : t.cap.ledger = s.cap.ledger := (congrArg Cap.ledger lasts :)

end

theorem markReplied_lasts (tag : Nat) (s : State) : CapLasts s (markReplied tag s) := rfl

theorem stepReply_lasts (tag queue : Nat) (seq : W32) (opc origin : Nat) (notify : Bool) (play step : W32) (st : BitVec 16) (d : W64) (s : State) :
    CapLasts s (stepReply tag queue seq opc origin notify play step st d s) := by
  unfold stepReply
  split
  · exact .of_frame (postFull_frame _ _ _ _ _ _ _) (by decide)
  · exact (markReplied_lasts tag s).trans (.of_frame (replyTo_frame _ _ _ _ _ _ _ _) (by decide))

theorem reply_lasts (p : Packet) (st : BitVec 16) (d : W64) (s : State) : CapLasts s (reply p st d s) := by
  unfold reply
  split
  · exact stepReply_lasts ..
  · exact .of_frame (replyTo_frame _ _ _ _ _ _ _ _) (by decide)

theorem refuse_lasts (p : Packet) (st : BitVec 16) (s : State) : CapLasts s (refuse p st s) := reply_lasts ..

theorem accept_lasts (p : Packet) (s : State) : CapLasts s (accept p s) := reply_lasts ..

theorem opPlayFire_lasts (p : Packet) (order : Nat) (s : State) : CapLasts s (opPlayFire p order s) := by
  unfold opPlayFire
  split
  · exact refuse_lasts ..
  · rfl

theorem opCommitArm_lasts (p : Packet) (replay : Bool) (s : State) : CapLasts s (opCommitArm p replay s) := by
  unfold opCommitArm
  extract_lets step groups a b
  clear_value groups
  split
  · exact refuse_lasts ..
  · split
    · exact refuse_lasts ..
    · split
      · exact refuse_lasts ..
      · rfl

theorem opCollFire_lasts (p : Packet) (s : State) : CapLasts s (opCollFire p s) := by
  unfold opCollFire
  split
  · exact refuse_lasts ..
  · split
    · exact refuse_lasts ..
    · rfl

theorem opBarrier_lasts (p : Packet) (s : State) : CapLasts s (opBarrier p s) := by
  unfold opBarrier
  extract_lets tile
  split
  · exact refuse_lasts ..
  · rfl

theorem opXchSet_lasts (p : Packet) (s : State) : CapLasts s (opXchSet p s) := by
  have set (x : Exchange) : CapLasts s (setX x s) := .of_frame (setX_frame x s) (by decide)
  unfold opXchSet
  split
  · exact refuse_lasts ..
  · extract_lets x y
    clear_value x y
    split
    · exact refuse_lasts ..
    · split
      · exact refuse_lasts ..
      · split
        · exact refuse_lasts ..
        · split
          · extract_lets ex x₁ x₂ over_ s₁ s₂
            have overflow : CapLasts s s₂ := by
              unfold s₂
              split
              · exact (set _).trans (.of_frame (postX_frame _ _ _) (by decide))
              · exact set _
            clear_value s₂
            exact overflow.trans ((CapLasts.foldl (fun s e => .of_frame (tryFinish_frame _ _ _) (by decide)) _ _).trans (accept_lasts ..))
          · exact (set x).trans (accept_lasts ..)

theorem atFire_lasts (p : Packet) (cls order : Nat) {op : Packet → State → State} (h : ∀ s, CapLasts s (op p s)) (s : State) :
    CapLasts s (atFire p cls order op s) := by
  unfold atFire
  split
  · rfl
  · exact h s

theorem runStep_lasts (p : Packet) (order : Nat) (replay : Bool) (s : State) : CapLasts s (runStep p order replay s) := by
  unfold runStep
  split
  · exact opPlayFire_lasts ..
  · exact opCommitArm_lasts ..
  · exact atFire_lasts p 2 order (opCollFire_lasts p) s
  · exact opBarrier_lasts ..
  · exact atFire_lasts p 3 order (opXchSet_lasts p) s
  · exact .refl s

theorem redispatch_lasts (s : State) (l : Logged) : CapLasts s (redispatch s l) := by
  unfold redispatch
  dsimp only
  exact CapLasts.trans rfl (runStep_lasts ..)

theorem commitReply_lasts (a : Armed) (n : Nat) (st : BitVec 16) (replied : Bool) (s : State) : CapLasts s (commitReply a n st replied s) := by
  unfold commitReply
  split
  · exact .of_frame (postFull_frame _ _ _ _ _ _ _) (by decide)
  · exact stepReply_lasts ..

/-! ### The window closes and opens -/

theorem raiseSplit_keeps (w : Window) (s : State) : (raiseSplit w s).cap.log = s.cap.log ∧ (raiseSplit w s).cap.committed = s.cap.committed ∧
    (raiseSplit w s).cap.cur = s.cap.cur := by
  unfold raiseSplit
  split
  · have cap := postStep_frame Ev.commitSplit w.armed.step [] { s with cap := { s.cap with window := some { w with split := true } } } .cap (by decide)
    exact ⟨(congrArg Cap.log cap :), (congrArg Cap.committed cap :), (congrArg Cap.cur cap :)⟩
  · exact ⟨rfl, rfl, rfl⟩

/-- The window and what it held leave; COMMITTED and CUR stay. -/
theorem closeWindow_keeps (s : State) : (closeWindow s).cap.committed = s.cap.committed ∧ (closeWindow s).cap.cur = s.cap.cur ∧
    (closeWindow s).cap.window = none ∧
    (s.cap.window ≠ none → ∀ l ∈ (closeWindow s).cap.log, l ∈ s.cap.log ∧ s.cap.committed.toNat < l.step.toNat) := by
  unfold closeWindow
  split
  next none => exact ⟨rfl, rfl, none, fun some => absurd none some⟩
  next w window =>
    extract_lets s₁ s₂ keep cap
    obtain ⟨log, committed, cur⟩ := raiseSplit_keeps w s
    have evaluated : CapKept s₁ s₂ := by
      unfold s₂
      split
      · exact evaluate_kept ..
      · exact .refl _
    have taken (v : State) : CapKept v (pumpAll (takeHeld v)) := (takeHeld_kept v).trans (pumpAll_kept _)
    refine ⟨(taken _).committed.trans (evaluated.committed.trans committed), (taken _).cur.trans (evaluated.cur.trans cur), (taken _).window, ?_⟩
    intro _ l listed
    rw [(taken _).log] at listed
    obtain ⟨listed, later⟩ := List.mem_filter.1 (show l ∈ s₂.cap.log.filter fun l => keep l.step from listed)
    rw [evaluated.log, log] at listed
    refine ⟨listed, ?_⟩
    have := of_decide_eq_true (p := s₂.cap.committed.toNat < l.step.toNat) later
    rwa [evaluated.committed, committed] at this

theorem closeWindow_of_none {s : State} (none : s.cap.window = none) : closeWindow s = s := by
  rw [closeWindow, none]

theorem windowTake_armed (w : Window) (m : Nat) (v : Bool) : (windowTake w m v).armed = w.armed ∧ (windowTake w m v).committed = w.committed := ⟨rfl, rfl⟩

/-- What each step of a fold leaves of a window's step stands at its end. -/
theorem window_foldl {α : Type} {f : Window → α → Window} (h : ∀ w x, (f w x).armed = w.armed ∧ (f w x).committed = w.committed) (l : List α) (w : Window) :
    (l.foldl f w).armed = w.armed ∧ (l.foldl f w).committed = w.committed := by
  induction l generalizing w with
  | nil => exact ⟨rfl, rfl⟩
  | cons x l ih => exact ⟨(ih _).1.trans (h w x).1, (ih _).2.trans (h w x).2⟩

/-- A step's window opens with its outcome; the rest of the update unit but the early control packets stays. -/
theorem openWindow_opens (a : Armed) (committed : Bool) (s : State) :
    ∃ w early, (openWindow a committed s).cap = { s.cap with window := some w, early := early } ∧ w.armed = a ∧ w.committed = committed := by
  unfold openWindow
  extract_lets w₀ s₁ w cap
  have told : s₁.cap = s.cap := tellMembers_frame a _ s .cap (by decide)
  have fold := window_foldl (f := fun w (c : Control) => match c with
    | .outcome m t v => if t = a.step then windowTake w m v else w
    | _ => w) (fun w c => by
      cases c with
      | outcome m t v =>
        dsimp only
        split
        · exact windowTake_armed w m v
        · exact ⟨rfl, rfl⟩
      | ready m t => exact ⟨rfl, rfl⟩
      | vote m t v => exact ⟨rfl, rfl⟩
      | normP m t x => exact ⟨rfl, rfl⟩
      | arrive m n => exact ⟨rfl, rfl⟩) s₁.cap.early (windowTake w₀ (armedSelf s₁ a) committed)
  replace told : cap = s.cap := told
  clear_value cap
  subst told
  exact ⟨w, _, rfl, fold.1, fold.2⟩

/-! ### The commit point -/

theorem loseSnaps_keeps (s : State) : (loseSnaps s).cap.cur = s.cap.cur ∧ (loseSnaps s).cap.window = s.cap.window ∧ (loseSnaps s).cap.log = s.cap.log := by
  unfold loseSnaps
  extract_lets
  split <;> exact ⟨rfl, rfl, rfl⟩

theorem closedEntries_keeps (f : Ledger → Ledger) (s : State) :
    (mapLedger f (clearLost (loseSnaps s))).cap.cur = s.cap.cur ∧ (mapLedger f (clearLost (loseSnaps s))).cap.window = s.cap.window ∧
      (mapLedger f (clearLost (loseSnaps s))).cap.log = s.cap.log := by
  obtain ⟨cur, window, log⟩ := loseSnaps_keeps s
  generalize loseSnaps s = u at cur window log
  exact ⟨cur, window, log⟩

theorem closedEntries_frame (f : Ledger → Ledger) (s : State) : OnlyChanges [.cap, .freeCtr] s (mapLedger f (clearLost (loseSnaps s))) :=
  ((loseSnaps_frame s).step (clearLost_frame _) (by decide)).step (mapLedger_frame f _) (by decide)

/-- What a step that closes changes beside the update unit. -/
theorem stepCloses_frame (step : W32) (s : State) :
    OnlyChanges [.watch, .exchanges, .colls] s (mapSlotsC (closeRounds step) (endExchanges step (closeCounts s))) :=
  (((OnlyChanges.refl _ s).step (closeCounts_frame s) (by decide)).step (endExchanges_frame step _) (by decide)).step (mapSlotsC_frame _ _) (by decide)

/-- The commit point of a step whose votes are all COMMIT, up to the COMMIT_ARMs of the next step that its log holds. -/
theorem commitStep_done (a : Armed) (s : State) : ∃ u, ∃ l : List Logged, ∃ w, commitStep a s = l.foldl redispatch u ∧ u.cap.committed = a.step ∧
    u.cap.cur = (if a.vetoed then s.cap.cur else !s.cap.cur) ∧ u.cap.outcome = (if a.vetoed then 1 else 0) ∧ u.cap.replays = 0 ∧
    u.cap.window = some w ∧ w.committed = true ∧ w.armed.step = a.step ∧ u.watch.clip = clipWord a := by
  unfold commitStep
  extract_lets self b s₁ n s₂ cap₃ s₃ s₄ watch₅ cap₅ s₅ s₆ next
  obtain ⟨committed, cur, -, -⟩ := closeWindow_keeps s
  obtain ⟨w, early, opened, armed, com⟩ := openWindow_opens b true (closeWindow s)
  have step : b.step = a.step := by
    unfold b
    split <;> rfl
  have veto : b.vetoed = a.vetoed := by
    unfold b
    split <;> rfl
  have clip : clipWord b = clipWord a := by
    unfold b
    split <;> rfl
  have at₁ : s₁.cap.cur = s.cap.cur ∧ s₁.cap.window = some w := by
    rw [show s₁.cap = _ from opened]
    exact ⟨cur, rfl⟩
  obtain ⟨goneCur, goneWindow, -⟩ := closedEntries_keeps (closeEntry b) s₁
  have lost : s₂.cap.cur = s.cap.cur ∧ s₂.cap.window = some w := ⟨goneCur.trans at₁.1, goneWindow.trans at₁.2⟩
  clear_value s₁ s₂
  have flipped : s₃.cap.cur = (if b.vetoed then s.cap.cur else !s.cap.cur) ∧ s₃.cap.window = some w := by
    unfold s₃
    split
    next v => exact lost
    next v =>
      have dropped (v : State) : (dropCopies v).cap = v.cap := dropCopies_frame v .cap (by decide)
      rw [dropped]
      exact ⟨congrArg (!·) lost.1, lost.2⟩
  have closed : s₄.cap = s₃.cap := stepCloses_frame b.step s₃ .cap (by decide)
  clear_value s₃ s₄
  have replied : CapLasts s₅ s₆ := commitReply_lasts ..
  have watch : s₆.watch = s₅.watch := commitReply_frame b n _ false s₅ .watch (by decide)
  refine ⟨s₆, next, w, rfl, ?_, ?_, ?_, ?_, ?_, com, ?_, ?_⟩
  · exact replied.committed.trans step
  · rw [replied.cur, ← veto]
    exact (congrArg Cap.cur closed).trans flipped.1
  · rw [replied.outcome, ← veto]
  · exact replied.replays
  · exact replied.window.trans ((congrArg Cap.window closed).trans flipped.2)
  · rw [armed, step]
  · rw [watch, ← clip]

/-- CT at or past a time that is next in the order. -/
theorem comeTo_of_reached {k : DueKey} {t : CtWord} {s : State} (reached : t.toNat ≤ s.cad.ct.toNat) (turn : inTurn k s = true) : comeTo k t s = some s := by
  rw [comeTo, if_pos turn, reachCt, if_pos reached]

theorem comeTo_of_turn {k : DueKey} {t : CtWord} {s : State} (out : inTurn k s = false) : comeTo k t s = none := if_neg (by simp [out])

section
variable {a : Armed} {s : State} (armed : s.cap.armed = some a)
include armed

theorem exec_commit_of_come (active : s.rel.ccFailed = false) (reached : a.cp.toNat ≤ s.cad.ct.toNat) (turn : inTurn (a.cp.toNat, 1, a.tag) s = true) :
    exec .commit s = .next (commitPoint s) := by
  change execCommit s = _
  rw [execCommit, armed]
  simp only [active, Bool.false_eq_true, if_false, comeTo_of_reached reached turn]

theorem commitPoint_of_votes (reached : a.cp.toNat ≤ s.cad.ct.toNat) (votes : ∀ m < a.members, m ∈ a.votes) : commitPoint s = commitStep a s := by
  rw [commitPoint, armed]
  exact (if_neg (by omega)).trans (if_pos (by simpa using votes))

theorem commitPoint_of_missing (reached : a.cp.toNat ≤ s.cad.ct.toNat) (missing : ∃ m < a.members, m ∉ a.votes) : commitPoint s = abortAtCp a s := by
  rw [commitPoint, armed]
  exact (if_neg (by omega)).trans (if_neg (by simpa using missing))

theorem exec_commit_of_not (not : s.rel.ccFailed = true ∨ inTurn (a.cp.toNat, 1, a.tag) s = false ∨
    (s.cad.ct.toNat < a.cp.toNat ∧ (ctRuns s = false ∨ lastCt s.cad < a.cp.toNat))) : exec .commit s = .next s := by
  change execCommit s = _
  rw [execCommit, armed]
  by_cases failed : s.rel.ccFailed = true
  · exact if_pos failed
  · refine (if_neg failed).trans ?_
    rcases not with gap | out | ⟨ahead, far⟩
    · exact absurd gap failed
    · rw [comeTo_of_turn out]
    · rw [comeTo_of_ahead ahead far]

end

/-- A reply marks logged commands, and leaves their packets and steps. -/
theorem commitReply_log (a : Armed) (n : Nat) (st : BitVec 16) (s : State) :
    ∀ l ∈ (commitReply a n st false s).cap.log, ∃ l' ∈ s.cap.log, l.packet = l'.packet ∧ l.step = l'.step := by
  intro l listed
  change l ∈ (stepReply _ _ _ _ _ _ _ _ _ _ s).cap.log at listed
  unfold stepReply at listed
  split at listed
  · exact ⟨l, by simpa using listed, rfl, rfl⟩
  · obtain ⟨l', listed', rfl⟩ := List.mem_map.1 (show l ∈ s.cap.log.map _ from listed)
    refine ⟨l', listed', ?_⟩
    split <;> exact ⟨rfl, rfl⟩

theorem commitReply_armed (a : Armed) (n : Nat) (st : BitVec 16) (s : State) (unarmed : s.cap.armed = none) :
    (commitReply a n st false s).cap.armed = none := by
  change (stepReply _ _ _ _ _ _ _ _ _ _ s).cap.armed = none
  unfold stepReply
  split
  · simpa using unarmed
  · exact unarmed

/-- The commit of a step with no window open and no COMMIT_ARM of the next step in the log leaves memory, knots and plays, and no step armed. -/
theorem commitStep_quiet {a : Armed} {s : State} (shut : s.cap.window = none) (log : ∀ l ∈ s.cap.log, l.packet.opc = 0x0404 → l.step = a.step) :
    (commitStep a s).cap.armed = none ∧ (commitStep a s).mem = s.mem ∧ (commitStep a s).knots = s.knots ∧ (commitStep a s).plays = s.plays := by
  unfold commitStep
  rw [closeWindow_of_none shut]
  extract_lets self b s₁ n s₂ cap₃ s₃ s₄ watch₅ cap₅ s₅ s₆ next
  have step : b.step = a.step := by
    unfold b
    split <;> rfl
  obtain ⟨w, early, opened, -, -⟩ := openWindow_opens b true s
  have log₁ : s₁.cap.log = s.cap.log := (congrArg Cap.log opened :)
  have frame₁ : OnlyChanges [.cap, .ports, .host, .xing, .store] s s₁ := openWindow_frame b true s
  clear_value s₁
  have log₂ : s₂.cap.log = s.cap.log := (closedEntries_keeps (closeEntry b) s₁).2.2.trans log₁
  have frame₂ : OnlyChanges [.cap, .ports, .host, .xing, .store, .freeCtr] s s₂ := ((OnlyChanges.refl _ s).step frame₁ (by decide)).step
    (closedEntries_frame (closeEntry b) s₁) (by decide)
  clear_value s₂
  have at₃ : s₃.cap.log = s.cap.log ∧ OnlyChanges [.cap, .ports, .host, .xing, .store, .freeCtr, .caches] s s₃ := by
    unfold s₃
    split
    · exact ⟨log₂, frame₂.mono (by decide)⟩
    · have dropped (v : State) : (dropCopies v).cap = v.cap := dropCopies_frame v .cap (by decide)
      rw [dropped]
      exact ⟨log₂, (only_cap (frame₂.mono (by decide)) _ (by decide)).step (dropCopies_frame _) (by decide)⟩
  have log₄ : s₄.cap.log = s₃.cap.log := congrArg Cap.log (stepCloses_frame b.step s₃ .cap (by decide) :)
  have frame₄ : OnlyChanges [.cap, .ports, .host, .xing, .store, .freeCtr, .caches, .watch, .exchanges, .colls] s s₄ :=
    (at₃.2.mono (by decide)).step (stepCloses_frame b.step s₃) (by decide)
  clear_value s₃ s₄
  have frame₅ : OnlyChanges [.cap, .ports, .host, .xing, .store, .freeCtr, .caches, .watch, .exchanges, .colls] s s₅ :=
    only_cap_watch frame₄ _ _ (by decide)
  have log₅ : s₅.cap.log = s.cap.log := log₄.trans at₃.1
  have open₅ : s₅.cap.committed = a.step := step
  have frame₆ : OnlyChanges [.cap, .ports, .host, .xing, .store, .freeCtr, .caches, .watch, .exchanges, .colls] s s₆ :=
    frame₅.step (commitReply_frame _ _ _ _ _) (by decide)
  have none₆ : next = [] := by
    refine List.filter_eq_nil_iff.2 fun l listed => ?_
    obtain ⟨l', listed', packet, same⟩ := commitReply_log b n _ s₅ l listed
    have this_ := log l' (log₅ ▸ listed')
    have committed : s₆.cap.committed = a.step := (commitReply_lasts b n _ false s₅).committed.trans open₅
    rw [openStep, committed, packet, same]
    simp only [Bool.and_eq_true, beq_iff_eq, not_and]
    intro ⟨arm, ahead⟩
    rw [this_ arm] at ahead
    exact absurd ahead (by bv_omega)
  have armed : s₆.cap.armed = none := commitReply_armed b n _ s₅ rfl
  rw [none₆]
  exact ⟨armed, frame₆ .mem (by decide), frame₆ .knots (by decide), frame₆ .plays (by decide)⟩

theorem commitWithAllVotes : Claim.CommitWithAllVotes := by
  refine ⟨fun a s active armed reached turn votes => ?_, fun a s armed not => exec_commit_of_not armed not⟩
  obtain ⟨u, l, w, eq, committed, cur, outcome, replays, window, com, step, clip⟩ := commitStep_done a s
  have lasts : CapLasts u (l.foldl redispatch u) := .foldl redispatch_lasts l u
  have watch : (l.foldl redispatch u).watch = u.watch :=
    (OnlyChanges.fold (OnlyChanges.refl _ u) (fun v x h => h.step (redispatch_frame v x) (fun _ => id))) .watch (by decide)
  refine ⟨commitStep a s, ?_, ?_, ?_, ?_, ?_, ⟨w, ?_, com, step⟩, ?_, fun shut log => commitStep_quiet shut log⟩
  · rw [exec_commit_of_come armed active reached turn, commitPoint_of_votes armed reached votes]
  · rw [eq, lasts.committed, committed]
  · rw [eq, lasts.cur, cur]
  · rw [eq, lasts.outcome, outcome]
  · rw [eq, lasts.replays, replays]
  · rw [eq, lasts.window, window]
  · rw [eq, watch, clip]
    rfl

/-! ### Abort and retraction -/

theorem dropStep_keeps (step : W32) (s : State) : (dropStep step s).cap.committed = s.cap.committed ∧ (dropStep step s).cap.cur = s.cap.cur ∧
    (dropStep step s).cap.outcome = s.cap.outcome ∧ (dropStep step s).cap.ledger = mapVals dropGathered s.cap.ledger := by
  unfold dropStep
  extract_lets low s₁ s₂ cap
  have closed : s₂.cap = s₁.cap := (mapSlotsC_frame (dropRounds step) _ .cap (by decide)).trans (dropExchanges_frame step s₁ .cap (by decide))
  have same : cap = s₁.cap := closed
  clear_value s₂ cap
  subst same
  exact ⟨rfl, rfl, rfl, rfl⟩

/-- An abort, whether the step is replayed or not: COMMITTED and CUR stay, OUTCOME is 2, and what the entries had gathered is discarded. -/
theorem abortStep_keeps (a : Armed) (hi n : Nat) (replied : Bool) (s : State) : (abortStep a hi n replied s).cap.committed = s.cap.committed ∧
    (abortStep a hi n replied s).cap.cur = s.cap.cur ∧ (abortStep a hi n replied s).cap.outcome = 2 ∧
    (abortStep a hi n replied s).cap.ledger = mapVals dropGathered s.cap.ledger := by
  unfold abortStep
  extract_lets cap s₁ st s₂ cap₂
  have at₁ : s₁.cap.committed = s.cap.committed ∧ s₁.cap.cur = s.cap.cur ∧ s₁.cap.outcome = 2 ∧ s₁.cap.ledger = s.cap.ledger := ⟨rfl, rfl, rfl, rfl⟩
  clear_value s₁
  obtain ⟨committed, cur, outcome, ledger⟩ := at₁
  split
  · obtain ⟨dCommitted, dCur, dOutcome, dLedger⟩ := dropStep_keeps a.step (stopForGood a.step.toNat s₁)
    have stopped : (stopForGood a.step.toNat s₁).cap = s₁.cap := stopForGood_frame _ s₁ .cap (by decide)
    have lasts : CapLasts _ s₂ := commitReply_lasts a n st replied (dropStep a.step (stopForGood a.step.toNat s₁))
    rw [stopped] at dCommitted dCur dOutcome dLedger
    exact ⟨lasts.committed.trans (dCommitted.trans committed), lasts.cur.trans (dCur.trans cur), lasts.outcome.trans (dOutcome.trans outcome),
      lasts.ledger.trans (dLedger.trans (congrArg _ ledger))⟩
  · unfold replaySteps
    extract_lets d lo lostRuns u₁ cap' u₂ u₃ again
    obtain ⟨dCommitted, dCur, dOutcome, dLedger⟩ := dropStep_keeps a.step (shiftHigher hi d (stopSteps lo hi s₁))
    have stopped : (shiftHigher hi d (stopSteps lo hi s₁)).cap = s₁.cap :=
      (shiftHigher_frame hi d (stopSteps lo hi s₁) .cap (by decide)).trans (stopSteps_frame lo hi s₁ .cap (by decide))
    rw [stopped] at dCommitted dCur dOutcome dLedger
    have posted : u₃.cap = u₂.cap := postStep_frame _ _ _ u₂ .cap (by decide)
    have lasts : CapLasts u₃ (again.foldl redispatch u₃) := .foldl redispatch_lasts again u₃
    have at₁ : u₁.cap.committed = s.cap.committed ∧ u₁.cap.cur = s.cap.cur ∧ u₁.cap.outcome = 2 ∧ u₁.cap.ledger = mapVals dropGathered s.cap.ledger :=
      ⟨dCommitted.trans committed, dCur.trans cur, dOutcome.trans outcome, dLedger.trans (congrArg _ ledger)⟩
    clear_value u₁
    have at₃ : u₃.cap.committed = s.cap.committed ∧ u₃.cap.cur = s.cap.cur ∧ u₃.cap.outcome = 2 ∧ u₃.cap.ledger = mapVals dropGathered s.cap.ledger := by
      rw [posted]
      exact at₁
    exact ⟨lasts.committed.trans at₃.1, lasts.cur.trans at₃.2.1, lasts.outcome.trans at₃.2.2.1, lasts.ledger.trans at₃.2.2.2⟩

theorem commitWithoutVotesAborts : Claim.CommitWithoutVotesAborts := by
  intro a s active armed reached turn missing
  refine ⟨_, (exec_commit_of_come armed active reached turn).trans (congrArg _ (commitPoint_of_missing armed reached missing)), ?_⟩
  unfold abortAtCp
  obtain ⟨committed, cur, outcome, -⟩ := abortStep_keeps a a.step.toNat (s.cap.replays + 1) false (dropOpen (openWindow a false (closeWindow s)))
  obtain ⟨w, early, opened, -, -⟩ := openWindow_opens a false (closeWindow s)
  obtain ⟨closedCommitted, closedCur, -, -⟩ := closeWindow_keeps s
  have dropped : (dropOpen (openWindow a false (closeWindow s))).cap = (openWindow a false (closeWindow s)).cap := dropOpen_frame _ .cap (by decide)
  rw [dropped, opened] at committed cur
  exact ⟨committed.trans closedCommitted, cur.trans closedCur, outcome⟩

/-- A lookup in a table whose values a map has changed. -/
theorem getEntry_of_map {f : Ledger → Ledger} {s t : State} (ledger : t.cap.ledger = mapVals f s.cap.ledger) (n : Nat) :
    getEntry t n = ((lookup n s.cap.ledger).map f).getD blankLedger := by
  rw [getEntry, lookupD, ledger, lookup_mapVals]

/-- What a retraction undoes. -/
theorem retractStep_undoes (w : Window) (s : State) : (retractStep w s).cap.committed = w.armed.step - 1 ∧
    (retractStep w s).cap.cur = (if w.armed.vetoed then s.cap.cur else !s.cap.cur) ∧ (retractStep w s).watch.norm = w.prevNorm ∧
    (retractStep w s).watch.clip = w.prevClip ∧ ∀ n, (getEntry (retractStep w s) n).snap = (getEntry s n).prev := by
  unfold retractStep
  extract_lets a cap₁ s₁ watch₂ cap₂ s₂ s₃
  have at₁ : s₁.cap.cur = (if w.armed.vetoed then s.cap.cur else !s.cap.cur) ∧ s₁.cap.ledger = s.cap.ledger := by
    unfold s₁
    split
    · exact ⟨rfl, rfl⟩
    · have dropped (v : State) : (dropCopies v).cap = v.cap := dropCopies_frame v .cap (by decide)
      rw [dropped]
      exact ⟨rfl, rfl⟩
  clear_value s₁
  have posted : OnlyChanges [.host, .xing, .store] (dropBoth (mapLedger restoreEntry s₂)) s₃ := postStep_frame _ _ _ _
  have at₃ : s₃.cap.committed = w.armed.step - 1 ∧ s₃.cap.cur = s₁.cap.cur ∧ s₃.cap.ledger = mapVals restoreEntry s₁.cap.ledger ∧
      s₃.watch.norm = w.prevNorm ∧ s₃.watch.clip = w.prevClip := by
    rw [posted .cap (by decide), posted .watch (by decide)]
    exact ⟨rfl, rfl, rfl, rfl, rfl⟩
  clear_value s₂ s₃
  obtain ⟨committed, cur, ledger, norm, clip⟩ := at₃
  obtain ⟨aCommitted, aCur, -, aLedger⟩ := abortStep_keeps a (a.step.toNat + 1) (w.replays + 1) true s₃
  have watch : (abortStep a (a.step.toNat + 1) (w.replays + 1) true s₃).watch = s₃.watch := abortStep_frame _ _ _ _ s₃ .watch (by decide)
  refine ⟨aCommitted.trans committed, aCur.trans (cur.trans at₁.1), by rw [watch, norm], by rw [watch, clip], fun n => ?_⟩
  rw [getEntry_of_map aLedger, ledger, at₁.2, lookup_mapVals, getEntry, lookupD]
  cases lookup n s.cap.ledger with
  | none => rfl
  | some e => rfl

theorem retractionUndoesCommit : Claim.RetractionUndoesCommit := by
  intro m w s window may
  have runs (x : Bool) (eq : (!s.rel.ccFailed && w.committed && w.aborts.contains m && decide (s.cad.ct.toNat ≤ windowEnd w)) = x) :
      exec (.commitRetract m) s = if x = true then .next (retractStep w s) else .next s := by
    change execCommitRetract m s = _
    rw [execCommitRetract, window]
    exact congrArg (fun x => if x = true then Host.Outcome.next (retractStep w s) else .next s) eq
  refine ⟨fun ⟨active, com, listed, inside⟩ => ⟨_, (runs true ?_).trans (if_pos rfl), retractStep_undoes w s⟩, fun not => (runs false ?_).trans (if_neg nofun)⟩
  · simp [active, com, listed, inside]
  · rw [← Bool.not_eq_true]
    intro all
    exact not (by simpa [and_assoc] using all)

/-! ### The outcome window -/

theorem windowEnd_word {w : Window} {s : State} (past : windowEnd w ≤ s.cad.ct.toNat) : timeTo (BitVec.ofNat 64 (windowEnd w)) s = some s := by
  refine if_pos ?_
  rw [BitVec.toNat_ofNat]
  exact le_trans (Nat.mod_le ..) past

theorem exec_commitSplit_of_past {w : Window} {s : State} (active : s.rel.ccFailed = false) (window : s.cap.window = some w)
    (past : windowEnd w ≤ s.cad.ct.toNat) : exec .commitSplit s = .next (raiseSplit w s) := by
  change execCommitSplit s = _
  rw [execCommitSplit, window]
  simp only [active, Bool.false_eq_true, if_false, windowEnd_word past]

theorem exec_outcomeWindowClose_of_past {w : Window} {s : State} (active : s.rel.ccFailed = false) (window : s.cap.window = some w)
    (past : windowEnd w ≤ s.cad.ct.toNat) : exec .outcomeWindowClose s = .next (closeWindow s) := by
  change execOutcomeWindowClose s = _
  rw [execOutcomeWindowClose, window]
  simp only [active, Bool.false_eq_true, if_false, windowEnd_word past]

/-- An outcome is missing, or this member's was not delivered. -/
def Splits (w : Window) (s : State) : Prop :=
  (∃ m < w.armed.members, m ∉ w.outcomes) ∨ w.undelivered = true ∨ ∃ x ∈ s.ports, holdsOutcome s w.armed x.2 = true

theorem splits_iff (w : Window) (s : State) : (!(List.range w.armed.members).all (fun m => w.outcomes.contains m) || w.undelivered ||
    s.ports.any fun x => holdsOutcome s w.armed x.2) = true ↔ Splits w s := by
  simp [Splits, or_assoc]

theorem raiseSplit_of_split {w : Window} {s : State} (split : Splits w s) (first : w.split = false) :
    raiseSplit w s = postStep Ev.commitSplit w.armed.step [] { s with cap := { s.cap with window := some { w with split := true } } } :=
  if_pos (Bool.and_eq_true_iff.2 ⟨by simp [first], (splits_iff w s).2 split⟩)

theorem raiseSplit_of_not {w : Window} {s : State} (not : ¬Splits w s ∨ w.split = true) : raiseSplit w s = s := by
  refine if_neg fun both => ?_
  obtain ⟨first, split⟩ := Bool.and_eq_true_iff.1 both
  rcases not with none | again
  · exact none ((splits_iff w s).1 split)
  · simp [again] at first

theorem outcomeWindowCloses : Claim.OutcomeWindowCloses := by
  refine ⟨fun w s active window past => ⟨fun split first => ?_, fun not => ?_⟩, fun w s active window past => ?_, fun s shut => ⟨?_, ?_⟩⟩
  · rw [exec_commitSplit_of_past active window past, raiseSplit_of_split split first]
  · rw [exec_commitSplit_of_past active window past, raiseSplit_of_not not]
  · obtain ⟨committed, cur, closed, log⟩ := closeWindow_keeps s
    refine ⟨_, exec_outcomeWindowClose_of_past active window past, closed, fun l listed => ?_, committed, cur⟩
    rw [committed]
    exact log (by rw [window]; exact Option.some_ne_none w) l listed
  · change execCommitSplit s = _
    rw [execCommitSplit, shut]
  · change execOutcomeWindowClose s = _
    rw [execOutcomeWindowClose, shut]

/-- Settles O16: a commit point decides by the votes that it holds; what starts again when a window closes, and what a replay dispatches again, leave COMMITTED,
CUR and OUTCOME as the commit, abort or retraction set them. -/
theorem commitPointDecides : Obligations.CommitPointDecides :=
  ⟨commitWithAllVotes, commitWithoutVotesAborts, retractionUndoesCommit, outcomeWindowCloses⟩

end Sys2Proof.Machine
end

section
/-! SUPPORT. COMMITTED is written, COMMIT_ARM arms a step, and the commands of the ledger, the groups and the masters (R306 to R311, R324, R327, R344). -/

namespace Sys2Proof.Machine

/-! ### CAP_COMMIT.COMMITTED -/

/-- The open step starts anew under a COMMITTED that was written. -/
def recommitted (v : W32) (s : State) : State :=
  clearLost (mapLedger dropGathered { s with cap := { s.cap with committed := v, replays := 0, stepFaulted := false } })

theorem exec_committedWrite_of_served {h : HostAccess} {s : State} (served : PrivServed h s) (v : W32) :
    exec (.committedWrite h v) s = .next (writeCommitted v s) := by
  change execCommittedWrite h v s = _
  rw [execCommittedWrite, orHold_of_serves served.1]
  exact if_pos (privReg_of_served served)

theorem recommitted_entry (v : W32) (s : State) (n : Nat) : (getEntry (recommitted v s) n).counts = [] ∧ (getEntry (recommitted v s) n).applied = false ∧
    (getEntry (recommitted v s) n).snap = (getEntry s n).snap := by
  rw [getEntry_of_map (f := dropGathered) (s := s) rfl, getEntry, lookupD]
  cases lookup n s.cap.ledger with
  | none => exact ⟨rfl, rfl, rfl⟩
  | some e => exact ⟨rfl, rfl, rfl⟩

theorem committedWriteSetsStep : Claim.CommittedWriteSetsStep := by
  refine fun h v s served => ⟨fun lock unarmed idle => ⟨recommitted v s, ?_, rfl, rfl, rfl, rfl, recommitted_entry v s, ?_⟩, fun not => ?_⟩
  · rw [exec_committedWrite_of_served served, writeCommitted]
    exact congrArg _ (if_neg (by simp [lock, unarmed, idle]))
  · exact ((only_cap (OnlyChanges.refl _ s) _ (by decide)).step (mapLedger_frame _ _) (by decide)).step (clearLost_frame _) (by decide)
  · rw [exec_committedWrite_of_served served, writeCommitted]
    refine congrArg _ (if_pos ?_)
    rcases not with shut | armed | busy
    · simp [shut]
    · simp [Option.isSome_iff_ne_none.2 armed]
    · simp [busy]

/-! ### COMMIT_ARM -/

theorem sliceB_length (l : List Byte) (k n : Nat) : (sliceB l k n).length = n := by
  simp [sliceB]

theorem ofLE_lt (l : List Byte) : ofLE l < 256 ^ l.length := by
  induction l with
  | nil => exact Nat.one_pos
  | cons b l ih =>
    rw [ofLE, List.length_cons, Nat.pow_succ]
    have := b.isLt
    omega

theorem item_lt (l : List Byte) (k n : Nat) : item l k n < 256 ^ n := by
  have := ofLE_lt (sliceB l k n)
  rwa [sliceB_length] at this

theorem shiftPacket_opc (d : CtWord) (p : Packet) : (shiftPacket d p).opc = p.opc := by
  unfold shiftPacket
  extract_lets q
  split <;> rfl

theorem shifted_opc (s : State) (p : Packet) : (shifted s p).opc = p.opc := by
  unfold shifted
  split
  · split
    · rfl
    · exact shiftPacket_opc ..
  · rfl

/-- What a command with a step does that passes the checks of the dispatcher in time. -/
theorem dispatchPacket_of_step {p : Packet} {s : State} (serves : Serves s) (passes : checkPacket s p = none) (step : stepOpcode p.opc = true)
    (timely : fireRefusal s (shifted s p) = none) (early : isLate s (shifted s p) = false) : dispatchPacket p s = dispatchStep (shifted s p) s := by
  rw [dispatchPacket_of_serves serves, passes]
  simp only [step, if_true, timely, early, Bool.false_eq_true, if_false]
  rw [execute, shifted_opc, if_pos step]

/-- A COMMIT_ARM is refused rather than late. -/
theorem isLate_of_commitArm {p : Packet} {s : State} (arm : p.opc = 0x0404) (timely : fireRefusal s p = none) : isLate s p = false := by
  rw [← Bool.not_eq_true]
  intro late
  simp only [isLate, Bool.and_eq_true, bne_iff_ne, ne_eq, decide_eq_true_eq] at late
  obtain ⟨⟨given, past⟩, -⟩ := late
  revert timely
  unfold fireRefusal
  split
  · nofun
  · split
    · nofun
    · simp [arm, past]

theorem logStep_cap (q : Packet) (order : Nat) (s : State) : (logStep q order s).cap.groups = s.cap.groups ∧ (logStep q order s).cap.committed = s.cap.committed ∧
    (logStep q order s).cap.armed = s.cap.armed := by
  unfold logStep
  split
  · exact ⟨rfl, rfl, rfl⟩
  · split
    · exact ⟨rfl, rfl, rfl⟩
    · split <;> exact ⟨rfl, rfl, rfl⟩

/-- What the control packets that came early leave of the armed step's own items. -/
structure ArmedAs (a b : Armed) : Prop where
  step : b.step = a.step
  cp : b.cp = a.cp
  groups : b.groups = a.groups
  members : b.members = a.members
  u : b.u = a.u
  tau : b.tau = a.tau
  eps : b.eps = a.eps
  w : b.w = a.w
  confirmed : b.confirmed = a.confirmed

theorem ArmedAs.refl (a : Armed) : ArmedAs a a := ⟨rfl, rfl, rfl, rfl, rfl, rfl, rfl, rfl, rfl⟩

theorem ArmedAs.trans {a b c : Armed} (h : ArmedAs a b) (k : ArmedAs b c) : ArmedAs a c :=
  ⟨k.step.trans h.step, k.cp.trans h.cp, k.groups.trans h.groups, k.members.trans h.members, k.u.trans h.u, k.tau.trans h.tau, k.eps.trans h.eps,
    k.w.trans h.w, k.confirmed.trans h.confirmed⟩

theorem armTake_as (a : Armed) (c : Control) : ArmedAs a (armTake a c) := by
  unfold armTake
  split
  · split <;> exact ⟨rfl, rfl, rfl, rfl, rfl, rfl, rfl, rfl, rfl⟩
  · split
    · exact .refl a
    · split <;> split <;> exact ⟨rfl, rfl, rfl, rfl, rfl, rfl, rfl, rfl, rfl⟩
  · split <;> exact ⟨rfl, rfl, rfl, rfl, rfl, rfl, rfl, rfl, rfl⟩
  · exact .refl a

theorem armTake_foldl (l : List Control) (a : Armed) : ArmedAs a (l.foldl armTake a) := by
  induction l generalizing a with
  | nil => exact .refl a
  | cons c l ih => exact (armTake_as a c).trans (ih _)

section
variable {p₀ : Packet} {s : State} (serves : Serves s) (passes : checkPacket s { p₀ with opc := 0x0404 } = none)
  (timely : fireRefusal s (shifted s { p₀ with opc := 0x0404 }) = none)
include serves passes timely

/-- The packet of a COMMIT_ARM at its dispatch. -/
def armPacket (p₀ : Packet) (s : State) : Packet := { shifted s { p₀ with opc := 0x0404 } with tag := s.arrivals }

/-- The state in which a COMMIT_ARM is judged: its command is logged. -/
def armLogged (p₀ : Packet) (s : State) : State := logStep (armPacket p₀ s) s.arrivals (arrived s)

theorem exec_commitArm : exec (.commitArm p₀) s = .next (opCommitArm (armPacket p₀ s) false (armLogged p₀ s)) := by
  have opc : (shifted s { p₀ with opc := 0x0404 }).opc = 0x0404 := shifted_opc s _
  change Host.Outcome.next (dispatchPacket { p₀ with opc := 0x0404 } s) = _
  rw [dispatchPacket_of_step serves passes rfl timely (isLate_of_commitArm opc timely)]
  change Host.Outcome.next (runStep (armPacket p₀ s) s.arrivals false (armLogged p₀ s)) = _
  rw [runStep, show (armPacket p₀ s).opc = 0x0404 from opc]
  rfl

end

/-- The armed step of a COMMIT_ARM. -/
def armMade (p₀ : Packet) (s : State) : Armed := armOf (armPacket p₀ s) s.cap.groups

theorem armLogged_cap (p₀ : Packet) (s : State) : (armLogged p₀ s).cap.groups = s.cap.groups ∧ (armLogged p₀ s).cap.committed = s.cap.committed ∧
    (armLogged p₀ s).cap.armed = s.cap.armed := logStep_cap ..

theorem armLogged_frame (p₀ : Packet) (s : State) : OnlyChanges [.arrivals, .cap] s (armLogged p₀ s) :=
  ((arrived_frame s).mono (by decide)).step (logStep_frame _ _ _) (by decide)

theorem armItems_logged (p₀ : Packet) (s : State) (a : Armed) : armItems (armLogged p₀ s) a = armItems s a := by
  have sets : (armLogged p₀ s).sets = s.sets := armLogged_frame p₀ s .sets (by decide)
  rw [armItems, armItems, rtSet, rtSet, sets]

/-- The cases of a COMMIT_ARM at its dispatch. -/
theorem opCommitArm_logged (p₀ : Packet) (s : State) :
    opCommitArm (armPacket p₀ s) false (armLogged p₀ s) =
      if !armItems s (armMade p₀ s) then refuse (armPacket p₀ s) Status.updValue (armLogged p₀ s)
      else if (armMade p₀ s).step ≠ openStep s || s.cap.armed.isSome then refuse (armPacket p₀ s) Status.stepOrder (armLogged p₀ s)
      else if (armPacket p₀ s).fire.toNat ≤ s.cad.ct.toNat + (armMade p₀ s).w * 65536 then refuse (armPacket p₀ s) Status.commitPassed (armLogged p₀ s)
      else { armLogged p₀ s with cap := { (armLogged p₀ s).cap with
        armed := some ((armLogged p₀ s).cap.early.foldl armTake (armMade p₀ s))
        latched := upsert (pN (armPacket p₀ s) 0 4) s.cap.groups (armLogged p₀ s).cap.latched
        early := (armLogged p₀ s).cap.early.filter fun c => controlStep c != some ((armLogged p₀ s).cap.early.foldl armTake (armMade p₀ s)).step } } := by
  obtain ⟨groups, committed, armed⟩ := armLogged_cap p₀ s
  have cad : (armLogged p₀ s).cad = s.cad := armLogged_frame p₀ s .cad (by decide)
  unfold opCommitArm
  extract_lets step grp a b
  have made : a = armMade p₀ s := congrArg (armOf (armPacket p₀ s)) groups
  have same : grp = s.cap.groups := groups
  clear_value grp
  subst same
  clear_value a
  subst made
  rw [armItems_logged, openStep, openStep, committed, armed, cad]

theorem armMade_step (p₀ : Packet) (s : State) : (armMade p₀ s).step.toNat = pN (armPacket p₀ s) 0 4 :=
  (BitVec.toNat_ofNat ..).trans (Nat.mod_eq_of_lt (item_lt (armPacket p₀ s).param 0 4))

theorem commitArmArms : Claim.CommitArmArms := by
  intro p₀ s serves p q a logged passes timely
  have run := (exec_commitArm serves passes timely).trans (congrArg Host.Outcome.next (opCommitArm_logged p₀ s))
  refine ⟨fun bad => ?_, fun good other => ?_, fun good step unarmed past => ?_, fun good step unarmed ahead => ?_⟩
  · exact run.trans (congrArg _ (if_pos (by rw [show armItems s (armMade p₀ s) = false from bad]; rfl)))
  · refine run.trans (congrArg _ ((if_neg (by rw [show armItems s (armMade p₀ s) = true from good]; decide)).trans (if_pos ?_)))
    rcases other with other | armed
    · simp [show (armMade p₀ s).step ≠ openStep s from other]
    · simp [Option.isSome_iff_ne_none.2 armed]
  all_goals
    have items : ¬(!armItems s (armMade p₀ s)) = true := by
      rw [show armItems s (armMade p₀ s) = true from good]
      decide
    have inOrder : ¬(((armMade p₀ s).step ≠ openStep s || s.cap.armed.isSome) = true) := by
      simp [show (armMade p₀ s).step = openStep s from step, unarmed]
    replace run := run.trans (congrArg _ ((if_neg items).trans (if_neg inOrder)))
  · exact run.trans (congrArg _ (if_pos past))
  · have as := armTake_foldl (armLogged p₀ s).cap.early (armMade p₀ s)
    refine ⟨_, _, run.trans (congrArg _ (if_neg (Nat.not_le.2 ahead))), rfl, as.step, as.cp, as.groups, as.members, as.u, as.tau, as.eps, as.w, as.confirmed, ?_, ?_, rfl, ?_⟩
    · exact logStep_frame (armPacket p₀ s) s.arrivals (arrived s) .arrivals (by decide)
    · rw [show a.step.toNat = pN (armPacket p₀ s) 0 4 from armMade_step p₀ s]
      exact lookup_upsert_self ..
    · exact only_cap (armLogged_frame p₀ s) _ (by decide)

/-! ### LEDGER_SET -/

/-- A command that changes the update unit and replies. -/
theorem answered_cap {p : Packet} {s u : State} (plain : stepOpcode p.opc = false) (frame : OnlyChanges [.cap] (arrived s) u) (st : BitVec 16) (d : W64) :
    Answered p st d s (reply p st d u) ∧ OnlyChanges [.arrivals, .cap, .host] s (reply p st d u) ∧ (reply p st d u).cap = u.cap := by
  refine ⟨answered_reply plain (frame .cad (by decide)) (frame .host (by decide)) st d, ?_, reply_frame_of_plain plain st d u .cap (by decide)⟩
  exact (((arrived_frame s).mono (by decide)).step frame (by decide)).step (reply_frame_of_plain plain st d u) (by decide)

/-- An entry as LEDGER_SET writes it. -/
def entrySet (n : Nat) (b : List Byte) (s : State) : Ledger :=
  { parseEntry b with
    dyn := (getEntry s n).dyn, snap := { (getEntry s n).snap with settled := false }, prev := { (getEntry s n).prev with settled := false } }

section
variable {n : Nat} {b : List Byte} {s : State}

theorem setOneEntry_of_passes (valid : bitAt (item b 2 1) 0 = true) (passes : entryCheck s n b = none) :
    setOneEntry n b s = (0, setEntry n (entrySet n b s) s) := by
  rw [setOneEntry, if_pos valid, passes]
  rfl

theorem setOneEntry_of_fails {st : BitVec 16} (valid : bitAt (item b 2 1) 0 = true) (fails : entryCheck s n b = some st) : setOneEntry n b s = (st, s) := by
  rw [setOneEntry, if_pos valid, fails]

theorem setOneEntry_of_removed (invalid : bitAt (item b 2 1) 0 = false) (clear : entryReserved b = true) (idle : entryBusy s n = false) :
    setOneEntry n b s = (0, { s with cap := { s.cap with ledger := delKey n s.cap.ledger } }) := by
  simp only [setOneEntry, invalid, clear, idle, Bool.false_eq_true, if_false, Bool.not_true]

theorem getEntry_of_delKey {m : Nat} (other : m ≠ n) : getEntry { s with cap := { s.cap with ledger := delKey n s.cap.ledger } } m = getEntry s m := by
  rw [getEntry, getEntry, lookupD, lookupD, lookup_delKey_ne other]

/-- One entry of LEDGER_SET changes the update unit at most, and of its entries the one it names. -/
theorem setOneEntry_only (n : Nat) (b : List Byte) (s : State) :
    OnlyChanges [.cap] s (setOneEntry n b s).2 ∧ ∀ m, m ≠ n → getEntry (setOneEntry n b s).2 m = getEntry s m := by
  unfold setOneEntry
  split
  · split
    · exact ⟨.refl _ s, fun _ _ => rfl⟩
    · exact ⟨setEntry_frame _ _ s, fun m other => getEntry_setEntry_ne other _ s⟩
  · split
    · exact ⟨.refl _ s, fun _ _ => rfl⟩
    · split
      · exact ⟨.refl _ s, fun _ _ => rfl⟩
      · exact ⟨only_cap (.refl _ s) _ (by decide), fun m other => getEntry_of_delKey other⟩

end

/-- The entries of LEDGER_SET written in order, with the first that fails. -/
def setEntries (p : Packet) (a : Option (BitVec 16 × Nat) × State) (k : Nat) : Option (BitVec 16 × Nat) × State :=
  let r := setOneEntry (pN p 0 4 + k) (sliceB p.payload (128 * k) 128) a.2
  (if r.1 != 0 && a.1.isNone then some (r.1, pN p 0 4 + k) else a.1, r.2)

/-- The reply of LEDGER_SET after its entries. -/
def setEntriesReply (p : Packet) (a : Option (BitVec 16 × Nat) × State) : State := reply p (a.1.elim (okStatus p) Prod.fst) (a.1.elim 0 fun x => BitVec.ofNat 64 x.2) a.2

theorem opLedgerSet_of_count {p : Packet} {s : State} (some : 1 ≤ pN p 4 2) (most : pN p 4 2 ≤ 32) (fits : pN p 0 4 + pN p 4 2 ≤ 65536) :
    opLedgerSet p s = setEntriesReply p ((List.range (pN p 4 2)).foldl (setEntries p) (none, s)) := by
  unfold opLedgerSet
  refine (if_neg ?_).trans ?_
  · simp only [Bool.or_eq_true, decide_eq_true_eq]
    omega
  · change (match (List.range (pN p 4 2)).foldl (setEntries p) (none, s) with
      | (bad, s) => match bad with
        | .some (st, n) => reply p st (BitVec.ofNat 64 n) s
        | none => accept p s) = _
    obtain ⟨bad, u⟩ := (List.range (pN p 4 2)).foldl (setEntries p) (none, s)
    cases bad <;> rfl

theorem opLedgerSet_of_header {p : Packet} {s : State} (bad : pN p 4 2 = 0 ∨ 32 < pN p 4 2 ∨ 65536 < pN p 0 4 + pN p 4 2) :
    opLedgerSet p s = refuse p Status.header s := by
  refine if_pos ?_
  simpa [or_assoc] using bad

theorem setEntries_foldl (p : Packet) (cnt : Nat) : ∀ (l : List Nat), (∀ k ∈ l, k < cnt) → ∀ a : Option (BitVec 16 × Nat) × State,
    OnlyChanges [.cap] a.2 (l.foldl (setEntries p) a).2 ∧
      ∀ m, m < pN p 0 4 ∨ pN p 0 4 + cnt ≤ m → getEntry (l.foldl (setEntries p) a).2 m = getEntry a.2 m := by
  intro l
  induction l with
  | nil => exact fun _ a => ⟨.refl _ _, fun _ _ => rfl⟩
  | cons k l ih =>
    intro inside a
    have here := inside k List.mem_cons_self
    obtain ⟨frame, kept⟩ := setOneEntry_only (pN p 0 4 + k) (sliceB p.payload (128 * k) 128) a.2
    obtain ⟨frames, keep⟩ := ih (fun j listed => inside j (List.mem_cons_of_mem _ listed)) (setEntries p a k)
    exact ⟨frame.trans frames, fun m out => (keep m out).trans (kept m (by omega))⟩

theorem exec_ledgerSet_of_admitted {p : Packet} {s : State} (h : Admitted 0x0401 p s) : exec (.ledgerSet p) s = .next (opLedgerSet p (arrived s)) := by
  rw [exec_of_admitted rfl h rfl (by decide) (by decide), runOp, h.2.1]
  rfl

theorem ledgerSetActs (p : Packet) (s : State) (h : Admitted 0x0401 p s) (some : 1 ≤ pN p 4 2) (most : pN p 4 2 ≤ 32) (fits : pN p 0 4 + pN p 4 2 ≤ 65536) :
    ∃ t, exec (.ledgerSet p) s = .next t ∧ (∃ st d, Answered p st d s t) ∧ OnlyChanges [.arrivals, .cap, .host] s t ∧
      (∀ n, n < pN p 0 4 ∨ pN p 0 4 + pN p 4 2 ≤ n → getEntry t n = getEntry s n) ∧
      ∀ st u, pN p 4 2 = 1 → setOneEntry (pN p 0 4) (sliceB p.payload 0 128) (arrived s) = (st, u) → t.cap = u.cap ∧
        (st = 0 → Answered p 0 0 s t) ∧ (st ≠ 0 → Answered p st (BitVec.ofNat 64 (pN p 0 4)) s t) := by
  have plain : stepOpcode p.opc = false := by rw [h.2.1]; rfl
  obtain ⟨frame, kept⟩ := setEntries_foldl p (pN p 4 2) (List.range (pN p 4 2)) (fun k => List.mem_range.1) (none, arrived s)
  obtain ⟨answered, frames, cap⟩ := answered_cap plain frame (((List.range (pN p 4 2)).foldl (setEntries p) (none, arrived s)).1.elim (okStatus p) Prod.fst)
    (((List.range (pN p 4 2)).foldl (setEntries p) (none, arrived s)).1.elim 0 fun x => BitVec.ofNat 64 x.2)
  have run := (exec_ledgerSet_of_admitted h).trans (congrArg Host.Outcome.next (opLedgerSet_of_count (s := arrived s) some most fits))
  refine ⟨_, run, ⟨_, _, answered⟩, frames, fun n out => ?_, fun st u one first => ?_⟩
  · rw [getEntry, setEntriesReply, cap]
    exact kept n out
  · have only : (List.range (pN p 4 2)).foldl (setEntries p) (none, arrived s) = setEntries p (none, arrived s) 0 := by
      rw [one]
      rfl
    have once : setEntries p ((none : Option (BitVec 16 × Nat)), arrived s) 0 = (if st != 0 then .some (st, pN p 0 4) else none, u) := by
      have first' : setOneEntry (pN p 0 4 + 0) (sliceB p.payload (128 * 0) 128) (arrived s) = (st, u) := first
      unfold setEntries
      rw [first']
      simp
    rw [only, once] at answered cap
    rw [only, once, setEntriesReply]
    refine ⟨cap, fun zero => ?_, fun bad => ?_⟩
    · have pick : (if st != 0 then Option.some (st, pN p 0 4) else none) = none := if_neg (by simp [zero])
      rw [pick] at answered ⊢
      exact h.ok ▸ answered
    · have pick : (if st != 0 then Option.some (st, pN p 0 4) else none) = .some (st, pN p 0 4) := if_pos (bne_iff_ne.2 bad)
      rw [pick] at answered ⊢
      exact answered

/-- Bytes of a list, zero beyond its end, one by one. -/
theorem sliceB_eq (l : List Byte) (a n : Nat) : sliceB l a n = (List.range n).map fun i => l.getD (a + i) 0 := by
  refine List.ext_getElem (by simp [sliceB_length]) fun i inside _ => ?_
  rw [sliceB_length] at inside
  simp only [sliceB, List.getElem_map, List.getElem_range]
  by_cases within : a + i < l.length
  · rw [List.getElem_append_left (by simp; omega)]
    simp [List.getD_eq_getElem?_getD, within]
  · rw [List.getElem_append_right (by simp; omega)]
    simp [List.getD_eq_getElem?_getD, List.getElem?_eq_none (Nat.le_of_not_lt within)]

theorem sliceB_sliceB (l : List Byte) {a n b k : Nat} (inside : b + k ≤ n) : sliceB (sliceB l a n) b k = sliceB l (a + b) k := by
  rw [sliceB_eq, sliceB_eq l (a + b)]
  refine List.map_congr_left fun i listed => ?_
  have := List.mem_range.1 listed
  rw [List.getD_eq_getElem _ _ (by rw [sliceB_length]; omega)]
  simp only [sliceB_eq, List.getElem_map, List.getElem_range]
  rw [Nat.add_assoc]

/-! ### GROUP_SET -/

theorem exec_groupSet_of_admitted {p : Packet} {s : State} (h : Admitted 0x0403 p s) : exec (.groupSet p) s = .next (opGroupSet p (arrived s)) := by
  rw [exec_of_admitted rfl h rfl (by decide) (by decide), runOp, h.2.1]
  rfl

/-- GROUP_SET of one group. -/
theorem opGroupSet_of_one {p : Packet} {s : State} (one : pN p 1 1 = 1) (first : pN p 0 1 < 64) (flags : item p.payload 12 1 ≤ 7)
    (clear : (sliceB p.payload 13 19).all (· == 0) = true) : opGroupSet p s =
      (if groupOk (parseGroup (sliceB p.payload 0 32)) then accept p (setOneGroup (pN p 0 1) (parseGroup (sliceB p.payload 0 32)) s)
       else refuse p Status.updValue s) := by
  have flags' : item (sliceB p.payload 0 32) 12 1 = item p.payload 12 1 := congrArg ofLE (sliceB_sliceB p.payload (by decide))
  have clear' : sliceB (sliceB p.payload 0 32) 13 19 = sliceB p.payload 13 19 := sliceB_sliceB p.payload (by decide)
  unfold opGroupSet
  rw [one]
  refine (if_neg ?_).trans ?_
  · have low : ¬7 < item p.payload 12 1 := by omega
    have fits : ¬64 < pN p 0 1 + 1 := by omega
    simp only [List.range_one, List.any_cons, List.any_nil, Nat.mul_zero, flags', clear', clear, low, fits]
    decide
  · simp only [List.range_one, List.foldl_cons, List.foldl_nil, Nat.mul_zero, Nat.add_zero]
    split <;> rfl

theorem setOneGroup_only (n : Nat) (g : Machine.Group) (s : State) : OnlyChanges [.cap] s (setOneGroup n g s) ∧
    (setOneGroup n g s).cap.groups = upsert n g s.cap.groups := by
  unfold setOneGroup
  extract_lets cleared cap u
  have frame : OnlyChanges [.cap] s u := only_cap (.refl _ s) _ (by decide)
  split
  · exact ⟨frame.trans (unsettle_frame _ u), rfl⟩
  · exact ⟨frame, rfl⟩

theorem groupSetActs (p : Packet) (s : State) (h : Admitted 0x0403 p s) (one : pN p 1 1 = 1) (first : pN p 0 1 < 64) (flags : item p.payload 12 1 ≤ 7)
    (clear : (sliceB p.payload 13 19).all (· == 0) = true) : ∃ t, exec (.groupSet p) s = .next t ∧ OnlyChanges [.arrivals, .cap, .host] s t ∧
      (∀ n, n ≠ pN p 0 1 → lookup n t.cap.groups = lookup n s.cap.groups) ∧
      (groupOk (parseGroup (sliceB p.payload 0 32)) = true → Answered p 0 0 s t ∧
        lookup (pN p 0 1) t.cap.groups = some (parseGroup (sliceB p.payload 0 32))) ∧
      (groupOk (parseGroup (sliceB p.payload 0 32)) = false → Answered p Status.updValue 0 s t ∧ t.cap = s.cap) := by
  have plain : stepOpcode p.opc = false := by rw [h.2.1]; rfl
  have run := (exec_groupSet_of_admitted h).trans (congrArg Host.Outcome.next (opGroupSet_of_one (s := arrived s) one first flags clear))
  generalize parseGroup (sliceB p.payload 0 32) = g at run ⊢
  cases ok : groupOk g with
  | true =>
    rw [ok, if_pos rfl] at run
    obtain ⟨frame, groups⟩ := setOneGroup_only (pN p 0 1) g (arrived s)
    obtain ⟨answered, frames, cap⟩ := answered_cap plain frame (okStatus p) 0
    have taken : (accept p (setOneGroup (pN p 0 1) g (arrived s))).cap.groups = upsert (pN p 0 1) g s.cap.groups := (congrArg Cap.groups cap).trans groups
    refine ⟨_, run, frames, fun n other => ?_, fun _ => ⟨h.ok ▸ answered, ?_⟩, nofun⟩
    · rw [taken, lookup_upsert_ne other]
    · rw [taken, lookup_upsert_self]
  | false =>
    rw [ok, if_neg nofun] at run
    obtain ⟨answered, frames, cap⟩ := answered_cap plain (.refl _ (arrived s)) Status.updValue 0
    exact ⟨_, run, frames, fun n other => congrArg (fun c : Cap => lookup n c.groups) cap, nofun, fun _ => ⟨answered, cap⟩⟩

/-! ### STATE_LOAD and LEDGER_GET -/

theorem exec_stateLoad_of_admitted {p : Packet} {s : State} (h : Admitted 0x0405 p s) :
    exec (.stateLoad p) s = .next (opStateLoad { p with tag := s.cap.committed.toNat } (arrived s)) := by
  rw [exec_packetRow (c := .stateLoad p) rfl, dispatch_admitted h rfl (by decide), if_pos rfl, runOp, h.2.1]
  rfl

theorem opStateLoad_of_valid {q : Packet} {s : State} (known : pN q 0 4 < 65536) (valid : (getEntry s (pN q 0 4)).valid = true)
    (idle : entryBusy s (pN q 0 4) = false) (near : spaceOf (pN q 8 8) = .near)
    (inside : destOk s (pN q 8 8) (8 * (getEntry s (pN q 0 4)).rows * (getEntry s (pN q 0 4)).cols) false = true) :
    opStateLoad q s = (if loadWaits s q then { s with cap := { s.cap with loads := s.cap.loads ++ [(q, BitVec.ofNat 32 q.tag)] } }
      else runStateLoad q (BitVec.ofNat 32 q.tag) s) := by
  have most : ¬65535 < pN q 0 4 := by omega
  simp [opStateLoad, most, valid, idle, near, inside]

theorem loadWaits_of_running {p : Packet} {s : State} (running : ∃ y ∈ s.plays, y.state = .running) : loadWaits s p = true := by
  obtain ⟨y, listed, state⟩ := running
  rw [loadWaits, List.any_eq_true.2 ⟨y, listed, by simp [state]⟩]
  rfl

theorem exec_ledgerGet_of_admitted {p : Packet} {s : State} (h : Admitted 0x0402 p s) : exec (.ledgerGet p) s = .next (opLedgerGet p (arrived s)) := by
  rw [exec_of_admitted rfl h rfl (by decide) (by decide), runOp, h.2.1]
  rfl

theorem ledgerCommands : Claim.LedgerCommands := by
  refine ⟨fun p s h => ?_, groupSetActs, fun p s h => ?_, fun p s h => ?_⟩
  · intro first cnt b old
    refine ⟨fun bad => ?_, fun some most fits => ?_⟩
    · rw [exec_ledgerSet_of_admitted h, opLedgerSet_of_header bad]
    · obtain ⟨t, runs, answered, frame, kept, one⟩ := ledgerSetActs p s h some most fits
      refine ⟨t, runs, answered, frame, kept, fun single valid passes => ?_, fun single valid st fails bad => ?_, fun single invalid clear idle => ?_⟩
      · obtain ⟨cap, ok, -⟩ := one _ _ single (setOneEntry_of_passes (s := arrived s) valid passes)
        refine ⟨ok rfl, ?_⟩
        rw [getEntry, cap]
        exact getEntry_setEntry_self first (entrySet first b (arrived s)) (arrived s)
      · obtain ⟨cap, -, failed⟩ := one _ _ single (setOneEntry_of_fails (s := arrived s) valid fails)
        exact ⟨cap, failed bad⟩
      · obtain ⟨cap, ok, -⟩ := one _ _ single (setOneEntry_of_removed (s := arrived s) invalid clear idle)
        exact ⟨cap, ok rfl⟩
  · intro n src e q known valid idle near inside
    have run := (exec_stateLoad_of_admitted h).trans (congrArg Host.Outcome.next (opStateLoad_of_valid (q := q) (s := arrived s) known valid idle near inside))
    have word : BitVec.ofNat 32 q.tag = s.cap.committed := BitVec.ofNat_toNat ..
    rw [word] at run
    exact ⟨fun go => run.trans (congrArg _ (if_neg (by rw [show loadWaits (arrived s) q = false from go]; decide))),
      fun wait => run.trans (congrArg _ (if_pos (show loadWaits (arrived s) q = true from wait))), loadWaits_of_running⟩
  · intro first cnt some fits inside
    rw [exec_ledgerGet_of_admitted h, opLedgerGet]
    refine congrArg _ ((if_neg ?_).trans ((if_neg ?_).trans rfl))
    · change ¬(cnt = 0 || decide (65536 < cnt) || decide (65536 < first + cnt)) = true
      simp only [Bool.or_eq_true, decide_eq_true_eq]
      omega
    · have ok : destOk s (pN p 8 8) (64 * pN p 4 4) true = true := inside
      rw [destOk_arrived, ok]
      decide

/-- Settles O18: a COMMITTED write, a COMMIT_ARM and the ledger commands each run the one operation that their items select, on the update unit and its table
entries alone. -/
theorem commitCommands : Obligations.CommitCommands :=
  ⟨committedWriteSetsStep, commitArmArms, ledgerCommands⟩

end Sys2Proof.Machine
end

section
/-! SUPPORT. Tally comparisons, audit samples and the watch commands (R346 to R371). -/

namespace Sys2Proof.Machine

/-! ### TALLY_COMPARISON -/

theorem exec_tallyComparison_of_none {f : Nat} {e : Option TallyFault} {s : State} (none : (getField s f).tallies = []) :
    exec (.tallyComparison f e) s = .next s := by
  change execTallyComparison f e s = _
  rw [execTallyComparison, none]

/-- The field after its oldest comparison has left its queue. -/
def tallyTaken (f : Nat) (r : List TallyItem) (s : State) : State :=
  adjField f (fun x => { x with tallies := r, mismatched := x.mismatched.filter fun m => r.any fun t => t.pass == m }) s

/-- A comparison's failing and left-out columns are counted in its field. -/
def tallyCounted (f : Nat) (j : List (Option Bool)) (s : State) : State :=
  adjField f (fun x => { x with
    mismatch := satAdd 32 x.mismatch (j.filter fun x => x == some true).length, nonfin := satAdd 16 x.nonfin (j.filter fun x => x == none).length }) s

theorem exec_tallyComparison_of_some {f : Nat} {i : TallyItem} {r : List TallyItem} (e : Option TallyFault) {s : State} (some : (getField s f).tallies = i :: r) :
    exec (.tallyComparison f e) s = .next (tallyTaken f r (compareRow f (withFault i e) (e.map TallyFault.row) s)) := by
  change execTallyComparison f e s = _
  rw [execTallyComparison, some]
  rfl

/-- A fault in a column leaves the row's play, run and pass. -/
theorem withFault_rest (i : TallyItem) (e : Option TallyFault) : (withFault i e).order = i.order ∧ (withFault i e).run = i.run ∧ (withFault i e).pass = i.pass ∧
    (withFault i e).step = i.step := by
  unfold withFault
  split
  · exact ⟨rfl, rfl, rfl, rfl⟩
  · split
    · exact ⟨rfl, rfl, rfl, rfl⟩
    · split <;> exact ⟨rfl, rfl, rfl, rfl⟩

/-- The places of the columns that fail. -/
def badColumns (j : List (Option Bool)) : List Nat := (j.zipIdx.filter fun x => x.1 == some true).map Prod.snd

theorem badColumns_length (j : List (Option Bool)) : (badColumns j).length = (j.filter fun x => x == some true).length := by
  have go : ∀ (l : List (Option Bool)) (n : Nat), ((l.zipIdx n).filter fun x => x.1 == some true).length = (l.filter fun x => x == some true).length := by
    intro l
    induction l with
    | nil => exact fun _ => rfl
    | cons x l ih =>
      intro n
      rw [List.zipIdx_cons, List.filter_cons, List.filter_cons]
      split <;> simp [ih]
  rw [badColumns, List.length_map, go]

/-- The counts of a row, in the model's order of counting. -/
theorem tallyCounted_eq (f : Nat) (j : List (Option Bool)) (s : State) : adjField f (fun x => { x with
    mismatch := satAdd 32 x.mismatch (badColumns j).length, nonfin := satAdd 16 x.nonfin (j.filter fun x => x == none).length }) s = tallyCounted f j s := by
  rw [badColumns_length]
  rfl

theorem compareRow_of_counts {f : Nat} {t : TallyItem} (row : Option Nat) {s : State}
    (only : (judge s t).filter (fun x => x == some true) = [] ∨ t.pass ∈ (getField s f).mismatched) : compareRow f t row s = tallyCounted f (judge s t) s := by
  unfold compareRow
  extract_lets j bad u
  have counted : u = tallyCounted f (judge s t) s := tallyCounted_eq f (judge s t) s
  have columns : bad.length = (j.filter fun x => x == some true).length := badColumns_length j
  rw [counted]
  clear_value u bad
  cases bad with
  | nil => rfl
  | cons k l =>
    rcases only with clean | again
    · exact absurd (columns.trans (congrArg List.length clean)) (by simp)
    · exact if_pos (by simpa [tallyCounted] using again)

theorem compareRow_of_first {f : Nat} {t : TallyItem} (row : Option Nat) {s : State} (fails : (judge s t).filter (fun x => x == some true) ≠ [])
    (first : t.pass ∉ (getField s f).mismatched) : ∃ k, compareRow f t row s = firstMismatch f t k row (tallyCounted f (judge s t) s) := by
  unfold compareRow
  extract_lets j bad u
  have counted : u = tallyCounted f (judge s t) s := tallyCounted_eq f (judge s t) s
  have columns : bad.length = (j.filter fun x => x == some true).length := badColumns_length j
  rw [counted]
  clear_value u bad
  cases bad with
  | nil => exact absurd (List.eq_nil_of_length_eq_zero columns.symm) fails
  | cons k l => exact ⟨k, if_neg (by simpa [tallyCounted] using first)⟩

theorem tallyTaken_fields (f : Nat) (r : List TallyItem) (s : State) : (getField (tallyTaken f r s) f).tallies = r ∧
    (getField (tallyTaken f r s) f).mismatch = (getField s f).mismatch ∧ (getField (tallyTaken f r s) f).nonfin = (getField s f).nonfin ∧
    ∀ g, g ≠ f → getField (tallyTaken f r s) g = getField s g := by
  rw [tallyTaken, getField_adjField_self]
  exact ⟨rfl, rfl, rfl, fun g other => getField_adjField_ne other _ s⟩

theorem tallyCounted_fields (f : Nat) (j : List (Option Bool)) (s : State) :
    (getField (tallyCounted f j s) f).mismatch = min ((getField s f).mismatch + (j.filter fun x => x == some true).length) (2 ^ 32 - 1) ∧
    (getField (tallyCounted f j s) f).nonfin = min ((getField s f).nonfin + (j.filter fun x => x == none).length) 65535 ∧
    ∀ g, g ≠ f → getField (tallyCounted f j s) g = getField s g := by
  rw [tallyCounted, getField_adjField_self]
  exact ⟨rfl, rfl, fun g other => getField_adjField_ne other _ s⟩

/-- A record above an event, where what lies between leaves the defect store. -/
theorem records_above {s u v : State} (same : u.store.ledger = s.store.ledger) (calm : Calm s → Calm u) {code origin : Nat} {unit' play' step' : W32}
    {d' : List Byte} (store : v.store = (postFull code origin unit' play' step' d' u).store) (cls action result : Nat) (unit logical play : W32) (d : List Byte) :
    Records cls s (ledgerRec cls action result unit logical play d v) := by
  obtain ⟨r, ledger', named, -⟩ := ledgerRec_enters cls action result unit logical play d v
  rcases postFull_marks code origin unit' play' step' d' u with ⟨-, kept⟩ | ⟨busy, -, x, fault, ledger⟩
  · exact ⟨r, [], by rw [ledger', store, kept, same]; rfl, named, by simp, fun _ => rfl⟩
  · refine ⟨r, [x], ?_, named, by simpa using fault, fun c => absurd (calm c) busy⟩
    rw [ledger', store, ledger, same]
    exact take_cons_take ..

/-! ### The first failing row of a pass -/

/-- The first failing row of a pass, up to the mask of its play. -/
def tallyTold (f : Nat) (t : TallyItem) (k : Nat) (row : Option Nat) (s : State) : State :=
  let u := postFull Ev.tallyMismatch t.origin 0xFFFFFFFF t.play t.step (mismatchItems t k) (adjField f (fun x => { x with mismatched := t.pass :: x.mismatched }) s)
  ledgerRec 2 0 1 0xFFFFFFFF 0xFFFFFFFF t.play (det [(4, (t.c.getD k 0).toNat), (4, (t.s.getD k 0).toNat)]) (row.elim u fun r => suspectRow t r u)

theorem firstMismatch_eq (f : Nat) (t : TallyItem) (k : Nat) (row : Option Nat) (s : State) :
    firstMismatch f t k row s = maskTally t (tallyTold f t k row s) := by
  cases row <;> rfl

theorem suspectRows_frame (t : TallyItem) (row : Option Nat) (u : State) : OnlyChanges [.rel] u (row.elim u fun r => suspectRow t r u) := by
  cases row with
  | none => exact .refl _ u
  | some r => exact suspectRow_frame t r u

section
variable (f : Nat) (t : TallyItem) (k : Nat) (row : Option Nat) (s : State)

theorem tallyTold_frame : OnlyChanges [.fields, .host, .xing, .store, .rel] s (tallyTold f t k row s) := by
  unfold tallyTold
  extract_lets u
  have told : OnlyChanges [.fields, .host, .xing, .store, .rel] s u :=
    ((OnlyChanges.refl _ s).step (adjField_frame f _ s) (by decide)).step (postFull_frame _ _ _ _ _ _ _) (by decide)
  exact (told.step (suspectRows_frame t row u) (by decide)).step (ledgerRec_frame _ _ _ _ _ _ _ _) (by decide)

theorem tallyTold_tells : HostSame s (tallyTold f t k row s) ∧ Raises Ev.tallyMismatch s (tallyTold f t k row s) ∧ Records 2 s (tallyTold f t k row s) ∧
    (Calm s → (tallyTold f t k row s).xing = s.xing) := by
  unfold tallyTold
  extract_lets u
  have rows := suspectRows_frame t row u
  refine ⟨?_, ?_, ?_, fun calm => ?_⟩
  · exact HostSame.trans (t := u) (postFull_same ..) (HostSame.of_host (rows .host (by decide)))
  · exact (raises_postFull Ev.tallyMismatch t.origin 0xFFFFFFFF t.play t.step (mismatchItems t k) (adjField f _ s)).of_same rfl rfl id
      (congrArg HostIf.events (rows .host (by decide)) :)
  · exact records_above (u := adjField f (fun x => { x with mismatched := t.pass :: x.mismatched }) s) rfl id (rows .store (by decide)) ..
  · exact (rows .xing (by decide)).trans (postFull_calm _ _ _ _ _ _ (adjField f _ s) calm).1

theorem tallyTold_fields : (getField (tallyTold f t k row s) f).mismatch = (getField s f).mismatch ∧ (getField (tallyTold f t k row s) f).nonfin = (getField s f).nonfin ∧
    ∀ g, g ≠ f → getField (tallyTold f t k row s) g = getField s g := by
  have same : (tallyTold f t k row s).fields = (adjField f (fun x => { x with mismatched := t.pass :: x.mismatched }) s).fields := by
    unfold tallyTold
    extract_lets u
    exact (suspectRows_frame t row u .fields (by decide)).trans (postFull_frame _ _ _ _ _ _ _ .fields (by decide))
  refine ⟨?_, ?_, fun g other => ?_⟩
  · rw [getField_of_fields same, getField_adjField_self]
  · rw [getField_of_fields same, getField_adjField_self]
  · rw [getField_of_fields same, getField_adjField_ne other]

end

/-- A play that has failed, or is stopped without a reply: its later failures go to the event log only. -/
def Play.spent (p : Play) : Prop := p.faulted ≠ none ∨ p.fail ≠ none ∨ p.withheld = true

section
variable {t : TallyItem} {s : State} {p : Play} (found : getPlay s t.order = some p)
include found

theorem maskTally_of_spent (run : p.reruns = t.run) (spent : p.spent) : ∃ f, maskTally t s = laterFailure p f (setPlay (stopPlay p) s) := by
  have gone : (p.faulted.isSome || p.fail.isSome || p.withheld) = true := by
    rcases spent with h | h | h
    · simp [Option.isSome_iff_ne_none.2 h]
    · simp [Option.isSome_iff_ne_none.2 h]
    · simp [h]
  rw [maskTally, found]
  dsimp only
  rw [if_pos run, faultPlay, found]
  exact ⟨_, if_pos gone⟩

theorem maskTally_of_first (run : p.reruns = t.run) (sound : ¬p.spent) : ∃ at_, maskTally t s = setPlay { stopPlay p with faulted := some 2, faultAt := at_ } s := by
  have live : ¬(p.faulted.isSome || p.fail.isSome || p.withheld) = true := by
    rw [Play.spent, ← Option.isSome_iff_ne_none, ← Option.isSome_iff_ne_none] at sound
    simpa [or_assoc] using sound
  rw [maskTally, found]
  dsimp only
  rw [if_pos run, faultPlay, found]
  exact ⟨_, if_neg live⟩

theorem maskTally_of_rerun (run : p.reruns ≠ t.run) : maskTally t s = s := by
  rw [maskTally, found]
  exact if_neg run

end

theorem maskTally_of_ended {t : TallyItem} {s : State} (ended : getPlay s t.order = none) : maskTally t s = faultStep t.step s := by
  rw [maskTally, ended]

/-- Unless its play has failed already, the mask of a comparison tells nothing. -/
theorem maskTally_quiet {t : TallyItem} {s : State} (sound : ¬∃ p, getPlay s t.order = some p ∧ p.reruns = t.run ∧ p.spent) :
    (maskTally t s).host = s.host ∧ (maskTally t s).store = s.store := by
  cases found : getPlay s t.order with
  | none =>
    rw [maskTally_of_ended found]
    exact ⟨faultStep_frame _ s .host (by decide), faultStep_frame _ s .store (by decide)⟩
  | some p =>
    by_cases run : p.reruns = t.run
    · obtain ⟨at_, masked⟩ := maskTally_of_first found run fun spent => sound ⟨p, found, run, spent⟩
      rw [masked]
      exact ⟨rfl, rfl⟩
    · rw [maskTally_of_rerun found run]
      exact ⟨rfl, rfl⟩

theorem maskTally_same (t : TallyItem) (s : State) : HostSame s (maskTally t s) := by
  by_cases sound : ∃ p, getPlay s t.order = some p ∧ p.reruns = t.run ∧ p.spent
  · obtain ⟨p, found, run, spent⟩ := sound
    obtain ⟨f, masked⟩ := maskTally_of_spent found run spent
    rw [masked]
    exact postFull_same ..
  · exact .of_host (maskTally_quiet sound).1

/-- What a mask does to the play of its comparison, or to its step. -/
theorem maskTally_masks (t : TallyItem) (s : State) :
    (∀ p, getPlay s t.order = some p → p.reruns = t.run → ¬p.spent → ∃ q, getPlay (maskTally t s) t.order = some q ∧ q.faulted = some 2) ∧
    (∀ p, getPlay s t.order = some p → p.reruns ≠ t.run → (maskTally t s).plays = s.plays) ∧
    (getPlay s t.order = none → s.cap.committed.toNat < t.step.toNat → (maskTally t s).cap.stepFaulted = true) := by
  refine ⟨fun p found run sound => ?_, fun p found run => ?_, fun ended later => ?_⟩
  · obtain ⟨at_, masked⟩ := maskTally_of_first found run sound
    have order := order_of_getPlay found
    rw [masked, ← order]
    exact ⟨_, getPlay_setPlay (q := { stopPlay p with faulted := some 2, faultAt := at_ }) (show getPlay s p.order = some p by rw [order, found]), rfl⟩
  · rw [maskTally_of_rerun found run]
  · rw [maskTally_of_ended ended, faultStep, if_pos later]

theorem tallyComparisonCounts : Claim.TallyComparisonCounts := by
  refine ⟨fun f e s none => exec_tallyComparison_of_none none, ?_⟩
  intro f i r e s queue j fails first later
  obtain ⟨order, run, pass, step⟩ := withFault_rest i e
  obtain ⟨mismatch, nonfin, others⟩ := tallyCounted_fields f j s
  have counted : OnlyChanges [.fields] s (tallyCounted f j s) := adjField_frame _ _ _
  refine ⟨_, exec_tallyComparison_of_some e queue, ?_⟩
  by_cases once : first
  · have bad : j.filter (fun x => x == some true) ≠ [] := fun empty => once.1 (congrArg List.length empty)
    obtain ⟨k, compared⟩ := compareRow_of_first (e.map TallyFault.row) bad (show (withFault i e).pass ∉ _ by rw [pass]; exact once.2)
    rw [compared, firstMismatch_eq]
    obtain ⟨told, raised, recorded, calms⟩ := tallyTold_tells f (withFault i e) k (e.map TallyFault.row) (tallyCounted f j s)
    have frame := tallyTold_frame f (withFault i e) k (e.map TallyFault.row) (tallyCounted f j s)
    obtain ⟨mismatch', nonfin', others'⟩ := tallyTold_fields f (withFault i e) k (e.map TallyFault.row) (tallyCounted f j s)
    change _ at told raised recorded frame mismatch' nonfin' others'
    generalize tallyTold f (withFault i e) k (e.map TallyFault.row) (tallyCounted f j s) = u at *
    have masked := maskTally_frame (withFault i e) u
    obtain ⟨faults, reruns, ends⟩ := maskTally_masks (withFault i e) u
    have same (n : Nat) : getPlay u n = getPlay s n := getPlay_of_plays ((frame .plays (by decide)).trans (counted .plays (by decide))) n
    have laterIff : later ↔ ∃ p, getPlay u (withFault i e).order = some p ∧ p.reruns = (withFault i e).run ∧ p.spent := by
      rw [order, run, same]
      exact Iff.rfl
    have fields : ∀ g, getField (maskTally (withFault i e) u) g = getField u g := getField_of_fields (masked .fields (by decide))
    obtain ⟨tallies, mismatch'', nonfin'', others''⟩ := tallyTaken_fields f r (maskTally (withFault i e) u)
    refine ⟨tallies, ?_, ?_, fun g other => ?_, fun not => absurd once not, fun _ => ⟨?_, ?_, fun p found sameRun sound noFail kept => ?_, fun p found other => ?_,
      fun ended ahead => ?_⟩, fun _ sound => ?_, fun _ spent calm => ?_⟩
    · rw [mismatch'', fields, mismatch', mismatch]
    · rw [nonfin'', fields, nonfin', nonfin]
    · rw [others'' g other, fields, others' g other, others g other]
    · exact ((HostSame.of_host (counted .host (by decide))).trans told).trans (maskTally_same ..)
    · exact (((counted.mono (by decide)).step frame (by decide)).step masked (by decide)).step (adjField_frame _ _ _) (by decide)
    · rw [← order]
      exact faults p (by rw [same, order]; exact found) (by rw [run]; exact sameRun) (by simp [Play.spent, sound, noFail, kept])
    · refine (reruns p (by rw [same, order]; exact found) (by rw [run]; exact other)).trans ?_
      exact (frame .plays (by decide)).trans (counted .plays (by decide))
    · refine ends (by rw [same, order]; exact ended) ?_
      rw [step, frame .cap (by decide), counted .cap (by decide)]
      exact ahead
    · obtain ⟨host, store⟩ := maskTally_quiet fun spent => sound (laterIff.2 spent)
      refine ⟨raised.of_same (by rw [stageDone, stageDone, counted .bu (by decide)]) (by rw [counted .host (by decide)]) (fun calm => ?_) (by rw [← host]; rfl), ?_⟩
      · rwa [Calm, counted .xing (by decide)]
      · have before : (tallyCounted f j s).store = s.store := counted .store (by decide)
        have xing : (tallyCounted f j s).xing = s.xing := counted .xing (by decide)
        rw [Records, before, Calm, xing] at recorded
        rw [Records, show (tallyTaken f r (maskTally (withFault i e) u)).store = u.store from store]
        exact recorded
    · obtain ⟨p, found, sameRun, gone⟩ := laterIff.1 spent
      obtain ⟨g, told⟩ := maskTally_of_spent found sameRun gone
      have before : (tallyCounted f j s).xing = s.xing := counted .xing (by decide)
      have calmU : Calm u := by rwa [Calm, calms (by rwa [Calm, before]), before]
      have store : (tallyTaken f r (maskTally (withFault i e) u)).store = u.store := by
        change (maskTally (withFault i e) u).store = _
        rw [told]
        exact (postFull_calm _ _ _ _ _ _ (setPlay (stopPlay p) u) calmU).2
      refine ⟨?_, fun up => ?_⟩
      · have ledger : (tallyCounted f j s).store = s.store := counted .store (by decide)
        rw [Records, ledger, Calm, before] at recorded
        rw [Records, store]
        exact recorded
      · obtain ⟨l, y, events, named, -, quiet⟩ := raised (by rwa [stageDone, counted .bu (by decide)])
        rw [quiet (by rwa [Calm, before]), counted .host (by decide)] at events
        have upU : stageDone (setPlay (stopPlay p) u) 2 = true := by
          rw [stageDone, show (setPlay (stopPlay p) u).bu = u.bu from rfl, frame .bu (by decide), counted .bu (by decide)]
          exact up
        obtain ⟨x, events', named'⟩ := events_postFull_of_calm (s := setPlay (stopPlay p) u) calmU upU Ev.playFail p.origin 0xFFFFFFFF p.id p.step
          (det [(2, g.status.toNat), (2, g.mtag), (4, g.idx), (2, g.tile)])
        refine ⟨x, y, ?_, named', named⟩
        change (maskTally (withFault i e) u).host.events = _
        rw [told]
        refine events'.trans ?_
        change (x :: u.host.events).take 65536 = _
        rw [events]
        exact take_cons_take ..
  · have counts := compareRow_of_counts (f := f) (t := withFault i e) (e.map TallyFault.row) (s := s) ?_
    · rw [counts]
      obtain ⟨tallies, mismatch'', nonfin'', others''⟩ := tallyTaken_fields f r (tallyCounted f j s)
      refine ⟨tallies, ?_, ?_, fun g other => ?_, fun _ => ?_, fun yes => absurd yes once, fun yes => absurd yes once, fun yes => absurd yes once⟩
      · rw [mismatch'', mismatch]
      · rw [nonfin'', nonfin]
      · rw [others'' g other, others g other]
      · exact counted.step (adjField_frame _ _ _) (by decide)
    · rw [pass]
      by_contra neither
      obtain ⟨bad, fresh⟩ := not_or.1 neither
      exact once ⟨fun zero => bad (List.eq_nil_of_length_eq_zero zero), fresh⟩

/-! ### AUDIT_SAMPLE -/

theorem getSlot_setSlot_self (n : Nat) (x : Slot) (s : State) : getSlot (setSlot n x s) n = x := lookupD_upsert_self ..

theorem getSlot_setSlot_ne {m n : Nat} (other : m ≠ n) (x : Slot) (s : State) : getSlot (setSlot n x s) m = getSlot s m := lookupD_upsert_ne other ..

theorem slotAudit_counts (sid rho : W32) (over_ : Bool) (s : State) :
    (getSlot (slotAudit sid rho over_ s) (slotOf s sid)).audN = min ((getSlot s (slotOf s sid)).audN + 1) (2 ^ 32 - 1) := by
  unfold slotAudit
  extract_lets n x
  split
  extract_lets worst
  rw [getSlot_setSlot_self]
  rfl

/-- The field after its audit tile has finished a square. -/
def auditTaken (f : Nat) (over_ : Bool) (s : State) : State :=
  adjField f (fun x => { x with audit := none, sampled := satAdd 32 x.sampled 1, overs := if over_ then satAdd 8 x.overs 1 else x.overs }) s

theorem exec_auditSample_of_some {f : Nat} {i : AuditItem} {s : State} (some : (getField s f).audit = some i) :
    ∃ d, exec (.auditSample f) s = .next (if auditOver s (auditRho i.n i.w)
      then postFull Ev.auditDrift i.origin 0xFFFFFFFF i.play i.step d (slotAudit i.sid (auditRho i.n i.w) (auditOver s (auditRho i.n i.w))
        (auditTaken f (auditOver s (auditRho i.n i.w)) s))
      else slotAudit i.sid (auditRho i.n i.w) (auditOver s (auditRho i.n i.w)) (auditTaken f (auditOver s (auditRho i.n i.w)) s)) := by
  change ∃ d, execAuditSample f s = _
  rw [execAuditSample, some]
  exact ⟨_, rfl⟩

theorem auditSampleCounts : Claim.AuditSampleCounts := by
  refine ⟨fun f s none => ?_, fun f i s some => ?_⟩
  · change execAuditSample f s = _
    rw [execAuditSample, none]
  · intro bad
    obtain ⟨d, runs⟩ := exec_auditSample_of_some some
    have counts := slotAudit_counts i.sid (auditRho i.n i.w) bad (auditTaken f bad s)
    have slot := slotAudit_frame i.sid (auditRho i.n i.w) bad (auditTaken f bad s)
    change exec (.auditSample f) s = .next (if bad = true
      then postFull Ev.auditDrift i.origin 0xFFFFFFFF i.play i.step d (slotAudit i.sid (auditRho i.n i.w) bad (auditTaken f bad s))
      else slotAudit i.sid (auditRho i.n i.w) bad (auditTaken f bad s)) at runs
    generalize slotAudit i.sid (auditRho i.n i.w) bad (auditTaken f bad s) = u at runs counts slot
    have taken : OnlyChanges [.fields] s (auditTaken f bad s) := adjField_frame _ _ _
    have frame : OnlyChanges [.fields, .watch, .freeCtr] s u := (taken.mono (by decide)).step slot (by decide)
    have field : ∀ g, getField u g = getField (auditTaken f bad s) g := getField_of_fields (slot .fields (by decide))
    have all (t : State) (fields : t.fields = u.fields) (watch : t.watch = u.watch) : (getField t f).audit = none ∧
        (getField t f).sampled = min ((getField s f).sampled + 1) (2 ^ 32 - 1) ∧
        (getField t f).overs = (if bad then min ((getField s f).overs + 1) 255 else (getField s f).overs) ∧ (∀ g, g ≠ f → getField t g = getField s g) ∧
        (getSlot t (slotOf s i.sid)).audN = min ((getSlot s (slotOf s i.sid)).audN + 1) (2 ^ 32 - 1) := by
      have here : getField t f = _ := (getField_of_fields fields f).trans ((field f).trans (getField_adjField_self ..))
      refine ⟨by rw [here], by rw [here]; rfl, by rw [here]; rfl, fun g other => ?_, ?_⟩
      · exact (getField_of_fields fields g).trans ((field g).trans (getField_adjField_ne other ..))
      · rw [getSlot, watch]
        exact counts
    cases over_ : bad with
    | true =>
      rw [over_, if_pos rfl] at runs
      have post := postFull_frame Ev.auditDrift i.origin 0xFFFFFFFF i.play i.step d u
      obtain ⟨audit, sampled, overs, others, aud⟩ := all _ (post .fields (by decide)) (post .watch (by decide))
      refine ⟨_, runs, audit, sampled, over_ ▸ overs, others, aud, (HostSame.of_host (frame .host (by decide))).trans (postFull_same ..), fun _ => ?_, nofun,
        (frame.mono (by decide)).step post (by decide)⟩
      exact (raises_postFull Ev.auditDrift i.origin 0xFFFFFFFF i.play i.step d u).of_same (by rw [stageDone, stageDone, frame .bu (by decide)])
        (congrArg HostIf.events (frame .host (by decide)) :) (fun calm => by rwa [Calm, frame .xing (by decide)]) rfl
    | false =>
      rw [over_, if_neg nofun] at runs
      obtain ⟨audit, sampled, overs, others, aud⟩ := all u rfl rfl
      exact ⟨_, runs, audit, sampled, over_ ▸ overs, others, aud, HostSame.of_host (frame .host (by decide)), nofun, fun _ => frame .host (by decide),
        frame.mono (by decide)⟩

/-! ### WATCH_SET and WATCH_GET -/

theorem exec_watchSet_of_admitted {p : Packet} {s : State} (h : Admitted 0x0810 p s) : exec (.watchSet p) s = .next (opWatchSet p (arrived s)) := by
  rw [exec_of_admitted rfl h rfl (by decide) (by decide), runOp, h.2.1]
  rfl

/-- A slot as a 16 B record sets it. -/
def slotMade (b : List Byte) : Slot := { sid := BitVec.ofNat 32 (item b 0 4), sflags := BitVec.ofNat 8 (item b 4 1), satx := BitVec.ofNat 8 (item b 5 1) }

/-- WATCH_SET of one record in its payload. -/
theorem opWatchSet_of_one {p : Packet} {s : State} (one : pN p 2 2 = 1) (inline : pN p 8 8 = 0) (known : pN p 0 2 < 1024) : opWatchSet p s =
    (if slotOk s (pN p 0 2) (sliceB p.payload 0 16) then accept p (setSlot (pN p 0 2) (slotMade (sliceB p.payload 0 16)) s)
     else reply p Status.watchValue (BitVec.ofNat 64 (pN p 0 2)) s) := by
  unfold opWatchSet
  rw [one, inline]
  refine (if_neg ?_).trans ((if_neg (by simp)).trans ?_)
  · have fits : ¬1024 < pN p 0 2 + 1 := by omega
    simp [fits]
  · simp only [if_true, List.range_one, List.foldl_cons, List.foldl_nil, Nat.mul_zero, Nat.add_zero]
    cases slotOk s (pN p 0 2) (sliceB p.payload 0 16) with
    | true => rfl
    | false => rfl

theorem exec_watchGet_of_admitted {p : Packet} {s : State} (h : Admitted 0x0811 p s) : exec (.watchGet p) s = .next (opWatchGet p (arrived s)) := by
  rw [exec_of_admitted rfl h rfl (by decide) (by decide), runOp, h.2.1]
  rfl

theorem opWatchGet_of_slots {p : Packet} {s : State} (mode : pN p 0 1 = 0) (some : 1 ≤ pN p 8 4) (fits : pN p 4 4 + pN p 8 4 ≤ 1024)
    (ok : destOk s (pN p 16 8) (128 * pN p 8 4) true = true) : opWatchGet p s =
      accept p (destWrite p.origin (pN p 16 8) ((List.range (pN p 8 4)).flatMap fun k => slotRecord (getSlot s (pN p 4 4 + k))) s) := by
  unfold opWatchGet
  rw [mode]
  refine (if_neg ?_).trans ((if_neg ?_).trans rfl)
  · simp only [if_true, Bool.or_eq_true, decide_eq_true_eq]
    omega
  · rw [if_pos rfl, Nat.mul_comm, ok]
    decide

theorem opWatchGet_of_stalls {p : Packet} {s : State} (mode : pN p 0 1 = 1) (some : 1 ≤ pN p 8 4) (fits : pN p 4 4 + pN p 8 4 ≤ 65536)
    (ok : destOk s (pN p 16 8) (2 * pN p 8 4) true = true) : opWatchGet p s =
      accept p (destWrite p.origin (pN p 16 8) ((List.range (pN p 8 4)).flatMap fun k =>
        toLE 2 ((lookup (pN p 4 4 + k) s.cap.ledger).elim 0 Ledger.stall)) s) := by
  unfold opWatchGet
  rw [mode]
  refine (if_neg ?_).trans ((if_neg ?_).trans rfl)
  · simp only [Nat.one_ne_zero, if_false, Bool.or_eq_true, decide_eq_true_eq]
    omega
  · rw [if_neg Nat.one_ne_zero, Nat.mul_comm, ok]
    decide

theorem watchSetActs (p : Packet) (s : State) (h : Admitted 0x0810 p s) (one : pN p 2 2 = 1) (inline : pN p 8 8 = 0) (known : pN p 0 2 < 1024) :
    (slotOk s (pN p 0 2) (sliceB p.payload 0 16) = true → ∃ t, exec (.watchSet p) s = .next t ∧ Answered p 0 0 s t ∧
      getSlot t (pN p 0 2) = slotMade (sliceB p.payload 0 16) ∧ (∀ m, m ≠ pN p 0 2 → getSlot t m = getSlot s m) ∧ OnlyChanges [.arrivals, .host, .watch] s t) ∧
    (slotOk s (pN p 0 2) (sliceB p.payload 0 16) = false →
      exec (.watchSet p) s = .next (reply p Status.watchValue (BitVec.ofNat 64 (pN p 0 2)) (arrived s))) := by
  have plain : stepOpcode p.opc = false := by rw [h.2.1]; rfl
  have run := (exec_watchSet_of_admitted h).trans (congrArg Host.Outcome.next (opWatchSet_of_one (s := arrived s) one inline known))
  refine ⟨fun ok => ?_, fun bad => run.trans (congrArg _ (if_neg ?_))⟩
  · replace run := run.trans (congrArg _ (if_pos (show slotOk (arrived s) _ _ = true from ok)))
    have set : OnlyChanges [.watch] (arrived s) (setSlot (pN p 0 2) (slotMade (sliceB p.payload 0 16)) (arrived s)) := setSlot_frame _ _ _
    have answer := reply_frame_of_plain plain (okStatus p) 0 (setSlot (pN p 0 2) (slotMade (sliceB p.payload 0 16)) (arrived s))
    have watch : (accept p (setSlot (pN p 0 2) (slotMade (sliceB p.payload 0 16)) (arrived s))).watch = _ := answer .watch (by decide)
    refine ⟨_, run, ?_, ?_, fun m other => ?_, ?_⟩
    · rw [accept, h.ok]
      exact answered_reply plain rfl rfl 0 0
    · rw [getSlot, watch]
      exact getSlot_setSlot_self ..
    · rw [getSlot, watch]
      exact getSlot_setSlot_ne other _ (arrived s)
    · exact (((arrived_frame s).mono (by decide)).step set (by decide)).step answer (by decide)
  · rw [show slotOk (arrived s) _ _ = false from bad]
    decide

/-! ### VEC_EVAL -/

theorem exec_vecEval_of_admitted {p : Packet} {s : State} (h : Admitted 0x0812 p s) : exec (.vecEval p) s = .next (opVecEval p (arrived s)) := by
  rw [exec_of_admitted rfl h rfl (by decide) (by decide), runOp, h.2.1]
  rfl

section
variable {p : Packet} {s : State}

theorem opVecEval_of_header (header : tgtShape p.tgt ≠ 5 ∨ 31 < pN p 8 1) : opVecEval p s = refuse p Status.header s := by
  refine if_pos ?_
  simpa using header

theorem opVecEval_of_shut (header : ¬(tgtShape p.tgt ≠ 5 ∨ 31 < pN p 8 1)) (shut : xingClosed s 12 9 = true) : opVecEval p s = refuse p Status.clockStopped s :=
  (if_neg (by simpa using header)).trans (if_pos shut)

theorem opVecEval_of_held (header : ¬(tgtShape p.tgt ≠ 5 ∨ 31 < pN p 8 1)) (shut : ¬xingClosed s 12 9 = true) (held : vecWaits s (pN p 0 8) = true) :
    opVecEval p s = { s with watch := { s.watch with evals := s.watch.evals ++ [p] } } :=
  (if_neg (by simpa using header)).trans ((if_neg shut).trans (if_pos held))

theorem opVecEval_of_served (header : ¬(tgtShape p.tgt ≠ 5 ∨ 31 < pN p 8 1)) (shut : ¬xingClosed s 12 9 = true) (held : ¬vecWaits s (pN p 0 8) = true) :
    opVecEval p s = runVecEval p s :=
  (if_neg (by simpa using header)).trans ((if_neg shut).trans (if_neg held))

/-- The partition of a VEC_EVAL is free. -/
def vecFree (p : Packet) (s : State) : Prop :=
  (∃ q, findPart s (tgtOrg p.tgt) 5 = some q ∧ q.busy = false) ∧ runningOn s (tgtOrg p.tgt) 5 = none ∧ isLender s (tgtOrg p.tgt) 5 = false

theorem vecFree_iff : vecFree p s ↔ ¬(!((findPart s (tgtOrg p.tgt) 5).elim false fun q => !q.busy) || (runningOn s (tgtOrg p.tgt) 5).isSome ||
    isLender s (tgtOrg p.tgt) 5) = true := by
  rw [vecFree]
  cases findPart s (tgtOrg p.tgt) 5 with
  | none => simp
  | some q => simp [and_assoc]

/-- The apply set is busy. -/
def vecBusy (p : Packet) (s : State) : Prop := readN s (pN p 0 8 + 6) 2 = 6 ∧ (s.cap.armed ≠ none ∨ capRuns s (pN p 8 1) = true)

theorem vecBusy_iff : vecBusy p s ↔ (readN s (pN p 0 8 + 6) 2 = 6 && (s.cap.armed.isSome || capRuns s (pN p 8 1))) = true := by
  simp [vecBusy, Option.isSome_iff_ne_none]

theorem runVecEval_of_format (bad : vecOk s (pN p 0 8) = false) : runVecEval p s = refuse p Status.vecFormat s := if_pos (by rw [bad]; rfl)

section
variable (ok : vecOk s (pN p 0 8) = true)
include ok

theorem runVecEval_of_inUse (inUse : ¬vecFree p s) : runVecEval p s = refuse p Status.partBusy s :=
  (if_neg (by rw [ok]; decide)).trans (if_pos (not_not.1 (mt vecFree_iff.2 inUse)))

variable (free : vecFree p s)
include free

theorem runVecEval_of_busy (busy : vecBusy p s) : runVecEval p s = refuse p Status.capBusy s :=
  (if_neg (by rw [ok]; decide)).trans ((if_neg (vecFree_iff.1 free)).trans (if_pos (vecBusy_iff.1 busy)))

variable (idle : ¬vecBusy p s)
include idle

theorem runVecEval_of_got {b : List Byte} {u : State} (read : engineRead 12 p.origin (pN p 0 8) (vecBytes s (pN p 0 8)) s = (.got b, u)) :
    runVecEval p s = (if (vecRun u (pN p 0 8)).1 = 0 then accept p u
      else reply p Status.vecDiff (BitVec.ofNat 64 ((vecRun u (pN p 0 8)).1 % 2 ^ 32 + (vecRun u (pN p 0 8)).2 * 2 ^ 32)) u) := by
  refine (if_neg (by rw [ok]; decide)).trans ((if_neg (vecFree_iff.1 free)).trans ((if_neg (mt vecBusy_iff.2 idle)).trans ?_))
  rw [read]

theorem runVecEval_of_gone {st : BitVec 16} {u : State} (read : engineRead 12 p.origin (pN p 0 8) (vecBytes s (pN p 0 8)) s = (.gone st, u)) :
    runVecEval p s = refuse p st u := by
  refine (if_neg (by rw [ok]; decide)).trans ((if_neg (vecFree_iff.1 free)).trans ((if_neg (mt vecBusy_iff.2 idle)).trans ?_))
  rw [read]

end
end

/-- The units that an engine reads are neither retired nor of inverted parity. -/
def engineReads (s : State) (a n : Nat) : Prop := readMeets s isRetired a n = false ∧ readMeets s isPoisoned a n = false

section
variable {dom a n : Nat} {s : State} (passes : xingClosed s dom 9 = false) (origin : Nat)
include passes

theorem engineRead_of_reads (reads : engineReads s a n) : engineRead dom origin a n s = (.got (srcRead s a n), s) := by
  simp only [engineRead, passes, reads.1, reads.2, Bool.and_false, Bool.false_eq_true, if_false, Bool.not_false, Bool.and_true, if_true]

theorem engineRead_of_bad (bad : ¬engineReads s a n) : ∃ u, engineRead dom origin a n s = (.gone Status.parityFault, u) ∧ HostSame s u := by
  have not : ¬(!readMeets s isRetired a n && !readMeets s isPoisoned a n) = true := by simpa [engineReads] using bad
  refine ⟨_, by simp only [engineRead, passes, Bool.and_false, Bool.false_eq_true, if_false]; exact if_neg not, ?_⟩
  refine HostSame.trans (t := if readMeets s isRetired a n then postFull Ev.retiredAccess origin 0xFFFFFFFF 0 0 [] s else s) ?_ (record_same ..)
  split
  · exact postFull_same ..
  · rfl

end

/-- The records of a file that can be read are all run. -/
theorem runVecEval_of_reads {p : Packet} {s : State} (passes : xingClosed s 12 9 = false) (ok : vecOk s (pN p 0 8) = true) (free : vecFree p s)
    (idle : ¬vecBusy p s) (reads : engineReads s (pN p 0 8) (vecBytes s (pN p 0 8))) :
    runVecEval p s = (if (vecRun s (pN p 0 8)).1 = 0 then accept p s
      else reply p Status.vecDiff (BitVec.ofNat 64 ((vecRun s (pN p 0 8)).1 % 2 ^ 32 + (vecRun s (pN p 0 8)).2 * 2 ^ 32)) s) :=
  runVecEval_of_got ok free idle (engineRead_of_reads passes p.origin reads)

/-- A file that cannot be read back is a parity fault. -/
theorem runVecEval_of_bad {p : Packet} {s : State} (passes : xingClosed s 12 9 = false) (ok : vecOk s (pN p 0 8) = true) (free : vecFree p s)
    (idle : ¬vecBusy p s) (bad : ¬engineReads s (pN p 0 8) (vecBytes s (pN p 0 8))) :
    ∃ u, runVecEval p s = refuse p Status.parityFault u ∧ HostSame s u ∧ OnlyChanges [.host, .xing, .store] s u := by
  obtain ⟨u, read, same⟩ := engineRead_of_bad passes p.origin bad
  have frame := engineRead_frame 12 p.origin (pN p 0 8) (vecBytes s (pN p 0 8)) s
  rw [read] at frame
  exact ⟨u, runVecEval_of_gone ok free idle read, same, frame⟩

theorem readBytes_arrived (s : State) (a n : Nat) : readBytes (arrived s) a n = readBytes s a n := by
  induction n generalizing a with
  | zero => rfl
  | succ n ih => rw [readBytes, readBytes, ih, readByte_of_frame (arrived_frame s) (by decide) (by decide)]

theorem readN_arrived (s : State) (a n : Nat) : readN (arrived s) a n = readN s a n := congrArg ofLE (readBytes_arrived s a n)

theorem inRegion_arrived (s : State) (a n : Nat) : inRegion (arrived s) a n = inRegion s a n := rfl

theorem vecOk_arrived (s : State) (a : Nat) : vecOk (arrived s) a = vecOk s a := by
  simp only [vecOk, readBytes_arrived, readN_arrived, inRegion_arrived]

theorem vecBytes_arrived (s : State) (a : Nat) : vecBytes (arrived s) a = vecBytes s a := by
  simp only [vecBytes, readN_arrived]

theorem vecRun_arrived (s : State) (a : Nat) : vecRun (arrived s) a = vecRun s a := by
  simp only [vecRun, readBytes_arrived, readN_arrived]

theorem vecBusy_arrived (p : Packet) (s : State) : vecBusy p (arrived s) = vecBusy p s := by
  rw [vecBusy, readN_arrived]
  rfl

section
variable {p : Packet} {s : State} (h : Admitted 0x0812 p s)
include h

/-- A VEC_EVAL that runs changes no more than its reply and what a fault leaves. -/
theorem runVecEval_only (passes : xingClosed s 12 9 = false) : OnlyChanges [.arrivals, .host, .xing, .store] s (runVecEval p (arrived s)) := by
  have plain : stepOpcode p.opc = false := by rw [h.2.1]; rfl
  have answered (st : BitVec 16) (d : W64) {u : State} (frame : OnlyChanges [.host, .xing, .store] (arrived s) u) :
      OnlyChanges [.arrivals, .host, .xing, .store] s (reply p st d u) :=
    (((arrived_frame s).mono (by decide)).step frame (by decide)).step (reply_frame_of_plain plain st d u) (by decide)
  have refused (st : BitVec 16) := answered st 0 (.refl _ (arrived s))
  cases ok : vecOk s (pN p 0 8) with
  | false => exact runVecEval_of_format (s := arrived s) ((vecOk_arrived ..).trans ok) ▸ refused _
  | true =>
    by_cases free : vecFree p s
    · by_cases busy : vecBusy p s
      · exact runVecEval_of_busy (s := arrived s) ((vecOk_arrived ..).trans ok) free (vecBusy_arrived .. ▸ busy) ▸ refused _
      · by_cases reads : engineReads s (pN p 0 8) (vecBytes s (pN p 0 8))
        · rw [runVecEval_of_reads (s := arrived s) passes ((vecOk_arrived ..).trans ok) free (vecBusy_arrived .. ▸ busy) (vecBytes_arrived .. ▸ reads)]
          split
          · exact answered _ _ (.refl _ _)
          · exact answered _ _ (.refl _ _)
        · obtain ⟨u, runs, -, frame⟩ := runVecEval_of_bad (s := arrived s) passes ((vecOk_arrived ..).trans ok) free (vecBusy_arrived .. ▸ busy) (vecBytes_arrived .. ▸ reads)
          exact runs ▸ answered _ _ frame
    · exact runVecEval_of_inUse (s := arrived s) ((vecOk_arrived ..).trans ok) free ▸ refused _

theorem vecEvalActs :
    let header := tgtShape p.tgt ≠ 5 ∨ 31 < pN p 8 1
    let shut := xingClosed s 12 9 = true
    let held := vecWaits s (pN p 0 8) = true
    let n := (vecRun s (pN p 0 8)).1
    (¬header → ¬shut → held → exec (.vecEval p) s = .next { arrived s with watch := { s.watch with evals := s.watch.evals ++ [p] } }) ∧
    (header ∨ shut ∨ ¬held → ∃ t, exec (.vecEval p) s = .next t ∧ OnlyChanges [.arrivals, .host, .xing, .store] s t ∧
      (header → Answered p Status.header 0 s t) ∧ (¬header → shut → Answered p Status.clockStopped 0 s t) ∧
      (¬header → ¬shut → vecOk s (pN p 0 8) = false → Answered p Status.vecFormat 0 s t) ∧
      (¬header → ¬shut → vecOk s (pN p 0 8) = true → ¬vecFree p s → Answered p Status.partBusy 0 s t) ∧
      (¬header → ¬shut → vecOk s (pN p 0 8) = true → vecFree p s → vecBusy p s → Answered p Status.capBusy 0 s t) ∧
      (¬header → ¬shut → vecOk s (pN p 0 8) = true → vecFree p s → ¬vecBusy p s → engineReads s (pN p 0 8) (vecBytes s (pN p 0 8)) → t.store = s.store ∧
        Answered p (if n = 0 then 0 else Status.vecDiff) (if n = 0 then 0 else BitVec.ofNat 64 (n % 2 ^ 32 + (vecRun s (pN p 0 8)).2 * 2 ^ 32)) s t) ∧
      (¬header → ¬shut → vecOk s (pN p 0 8) = true → vecFree p s → ¬vecBusy p s → ¬engineReads s (pN p 0 8) (vecBytes s (pN p 0 8)) →
        t.host.replies = s.host.replies ++ [answerOf p Status.parityFault 0 s])) := by
  intro header shut held n
  have plain : stepOpcode p.opc = false := by rw [h.2.1]; rfl
  have run := exec_vecEval_of_admitted h
  have refused (st : BitVec 16) := refuse_arrived h rfl st
  have opened (good : ¬shut) : xingClosed s 12 9 = false := by simpa [shut] using good
  refine ⟨fun good open_ wait => run.trans (congrArg _ (opVecEval_of_held (s := arrived s) good open_ wait)), fun some => ?_⟩
  by_cases bad : header
  · rw [opVecEval_of_header bad] at run
    exact ⟨_, run, (refused _).2.mono (by decide), fun _ => (refused _).1, fun good => absurd bad good, fun good => absurd bad good, fun good => absurd bad good,
      fun good => absurd bad good, fun good => absurd bad good, fun good => absurd bad good⟩
  by_cases closed : shut
  · rw [opVecEval_of_shut (s := arrived s) bad closed] at run
    exact ⟨_, run, (refused _).2.mono (by decide), fun yes => absurd yes bad, fun _ _ => (refused _).1, fun _ good => absurd closed good,
      fun _ good => absurd closed good, fun _ good => absurd closed good, fun _ good => absurd closed good, fun _ good => absurd closed good⟩
  have passes := opened closed
  rw [opVecEval_of_served (s := arrived s) bad closed ((some.resolve_left bad).resolve_left closed)] at run
  refine ⟨_, run, runVecEval_only h passes, fun yes => absurd yes bad, fun _ yes => absurd yes closed, fun _ _ ok => ?_, fun _ _ ok inUse => ?_,
    fun _ _ ok free busy => ?_, fun _ _ ok free idle reads => ?_, fun _ _ ok free idle unread => ?_⟩
  · exact runVecEval_of_format (s := arrived s) ((vecOk_arrived ..).trans ok) ▸ (refused _).1
  · exact runVecEval_of_inUse (s := arrived s) ((vecOk_arrived ..).trans ok) inUse ▸ (refused _).1
  · exact runVecEval_of_busy (s := arrived s) ((vecOk_arrived ..).trans ok) free (vecBusy_arrived .. ▸ busy) ▸ (refused _).1
  · rw [runVecEval_of_reads (s := arrived s) passes ((vecOk_arrived ..).trans ok) free (vecBusy_arrived .. ▸ idle) (vecBytes_arrived .. ▸ reads)]
    rw [vecRun_arrived]
    change (if n = 0 then accept p (arrived s) else reply p Status.vecDiff (BitVec.ofNat 64 (n % 2 ^ 32 + (vecRun s (pN p 0 8)).2 * 2 ^ 32)) (arrived s)).store = _ ∧
      Answered p _ _ s (if n = 0 then accept p (arrived s) else reply p Status.vecDiff (BitVec.ofNat 64 (n % 2 ^ 32 + (vecRun s (pN p 0 8)).2 * 2 ^ 32)) (arrived s))
    split
    · exact ⟨reply_frame_of_plain plain _ _ (arrived s) .store (by decide), answered_accept_of_admitted h rfl⟩
    · exact ⟨reply_frame_of_plain plain _ _ (arrived s) .store (by decide), answered_reply plain rfl rfl _ _⟩
  · obtain ⟨u, runs, same, frame⟩ := runVecEval_of_bad (s := arrived s) passes ((vecOk_arrived ..).trans ok) free (vecBusy_arrived .. ▸ idle) (vecBytes_arrived .. ▸ unread)
    rw [runs, refuse, reply_plain plain]
    change u.host.replies ++ [_] = _
    have replies : u.host.replies = s.host.replies := replies_of_butLog same
    have cad : u.cad = s.cad := frame .cad (by decide)
    rw [replies, answerOf, answerOf, cad]

end

/-! ### WATCH_CTRL.STALL_EN -/

theorem exec_stallEnClear_of_served {h : HostAccess} {s : State} (served : PrivServed h s) : exec (.stallEnClear h) s =
    (if !s.host.privOpen then .next (lockViolation s)
     else if s.watch.stallEn then .next (post Ev.watchOff [] { s with watch := { s.watch with stallEn := false, everOff := true } }) else .next s) := by
  change execStallEnClear h s = _
  rw [execStallEnClear, orHold_of_serves served.1]
  exact if_neg (by simp [privReg_of_served served])

theorem watchCommands : Claim.WatchCommands := by
  refine ⟨watchSetActs, fun p s h => ?_, fun p s h => vecEvalActs h, fun h s served => ⟨fun lock on => ?_, fun lock off => ?_, fun lock => ?_⟩⟩
  · intro first cnt dest
    refine ⟨fun mode some fits ok => ?_, fun mode some fits ok => ?_⟩
    · rw [exec_watchGet_of_admitted h, opWatchGet_of_slots (s := arrived s) mode some fits ok]
      rfl
    · rw [exec_watchGet_of_admitted h, opWatchGet_of_stalls (s := arrived s) mode some fits ok]
      rfl
  · rw [exec_stallEnClear_of_served served, if_neg (by simp [lock]), if_pos on]
  · rw [exec_stallEnClear_of_served served, if_neg (by simp [lock]), if_neg (by simp [off])]
  · rw [exec_stallEnClear_of_served served, if_pos (by simp [lock])]

/-- Settles O19: a comparison or a sample leaves its queue, is counted, and told once; the watch commands answer by the first check that they fail. -/
theorem watchCountsAndCommands : Obligations.WatchCountsAndCommands :=
  ⟨tallyComparisonCounts, auditSampleCounts, watchCommands⟩

end Sys2Proof.Machine
end

section
/-! SUPPORT. Flits on a table of ports whose numbers do not rise (R375, R378). -/

namespace Sys2Proof.Machine

/-- Ports 5 and 3 in falling order; port 3 is in DISCOVERY. -/
def fallingPorts : State := { ports := [(5, {}), (3, { state := .discovery })] }

/-- The overrun of a flit writes port 3's entry again, before that of port 5. -/
theorem exec_flitData_fallingPorts : exec (.flitData 3 0 (.overrun [])) fallingPorts =
    .next (xingRecord 11 8 false (setPort 3 (getPort fallingPorts 3) fallingPorts)) := rfl

/-- Refutes O22: the overrun of a flit writes its port's entry again, which a table of ports in falling order then holds twice. -/
theorem not_flitsAndLanes : ¬Obligations.FlitsAndLanes := by
  rintro ⟨⟨_, _, _, overrun⟩, _⟩
  have alone := overrun 3 0 [] fallingPorts (by decide) (by decide)
  rw [exec_flitData_fallingPorts] at alone
  injection alone with states
  have ports := congrArg (fun s => s.ports.length) states
  exact absurd ports (by decide +kernel)

end Sys2Proof.Machine
end

section
/-! SUPPORT. PACKET_FORWARD on a table that lists a port twice (R392, R393). -/

namespace Sys2Proof.Machine

/-- A packet of member 0 for member 1, with no payload. -/
def straightPacket : RoutedPacket :=
  { typ := 1, rts := 0, dest := 1, hops := 0, vc := 0, len := 0, step := 1, src := 2, slot := 0, row := 0, seg := 0, payload := [] }

/-- The table lists port 3 twice, both times ACTIVE: first with credits, then with the packet in its receive buffer and no credit. Member 1 is reached by port 3. -/
def twicePorts : State := {
  ports := [(3, { state := .active, credits := [(0, 100)] }), (3, { state := .active, rxBuf := [straightPacket] })]
  sets := [(0, { entries := [(1, 0x86000000)] })] }

/-- The credits of VC 0 that port 3 holds after a command. -/
def creditsAfter : Out → Nat
  | .next t => lookupD 0 0 (getPort t 3).credits
  | _ => 0

/-- Refutes O24: the receive buffer that the packet leaves belongs to the second entry of its port, whose credits then are the port's. -/
theorem not_roundsAreSummed : ¬Obligations.RoundsAreSummed := by
  rintro ⟨⟨_, forwards⟩, _⟩
  have taken : (freeRx (fun k => k == straightPacket) twicePorts).isSome = true := by decide +kernel
  obtain ⟨s₀, taken⟩ := Option.isSome_iff_exists.1 taken
  have routed := (forwards straightPacket twicePorts s₀ (by decide +kernel) taken).2 (by decide +kernel)
  have sent := (routed.2.2.2 3 (by decide +kernel) (by decide +kernel) (by decide +kernel)).2 (by decide +kernel) (by decide +kernel) (by decide +kernel)
    (by decide +kernel)
  obtain ⟨t, run, spent, _⟩ := sent
  have credits := (spent (by decide +kernel)).1
  have after : creditsAfter (exec (.packetForward straightPacket) twicePorts) = lookupD 0 0 (getPort t 3).credits := congrArg creditsAfter run
  rw [← show lookupD 0 0 (getPort t 3).credits = lookupD 0 straightPacket.vc (getPort t 3).credits from rfl, ← after] at credits
  exact absurd credits (by decide +kernel)

end Sys2Proof.Machine
end

section
/-! SUPPORT. Training, qualification and discovery of the hawser ports (R384 to R389). -/

namespace Sys2Proof.Machine

/-! ### The ports of the table -/

@[simp] theorem getPort_setPort_self (n : Nat) (p : HPort) (s : State) : getPort (setPort n p s) n = p := lookupD_upsert_self ..

theorem getPort_setPort_ne {m n : Nat} (other : m ≠ n) (p : HPort) (s : State) : getPort (setPort n p s) m = getPort s m := lookupD_upsert_ne other ..

theorem getPort_of_ports {s t : State} (ports : t.ports = s.ports) (n : Nat) : getPort t n = getPort s n := by
  rw [getPort, getPort, ports]

theorem planOf_of_store {s t : State} (store : t.store = s.store) (n : Nat) : planOf t n = planOf s n := by
  rw [planOf, planOf, store]

/-- An event of a port stands newest whatever port was written before. -/
theorem raises_postPort_setPort (code n : Nat) (d : List Byte) (m : Nat) (p : HPort) (s : State) : Raises code s (postPort code n d (setPort m p s)) :=
  Raises.of_same (s' := setPort m p s) (t' := postPort code n d (setPort m p s)) (raises_postFull code 3 (unitOf 4 n) 0 0 d (setPort m p s)) rfl rfl
    (fun calm => calm) rfl

/-! ### EARLY_SIGNAL, PORT_TRAINING, TRAINING_END -/

theorem earlySignalCounts (n : Nat) (s : State) :
    (s.bu.linkOpen = false → exec (.earlySignal n) s = .next (setPort n { getPort s n with earlySignal := min ((getPort s n).earlySignal + 1) 255 } s)) ∧
    (s.bu.linkOpen = true → exec (.earlySignal n) s = .next s) :=
  ⟨fun shut => if_neg (by simp [shut]), fun opened => if_pos opened⟩

theorem getPort_startTraining_self (n : Nat) (s : State) : getPort (startTraining n s) n =
    enter (if (planOf s n).expected then .training else .off)
      { dropBuffers (getPort s n) with laneFail := 0, spareInUse := false, width4 := false, disable := false, lanes := List.range 8 } := by
  unfold startTraining
  extract_lets u p q
  have plan : planOf u n = planOf s n := planOf_of_store (loseOutcome_frame n s .store (by decide)) n
  have port : getPort u n = getPort s n := getPort_of_ports (loseOutcome_frame n s .ports (by decide)) n
  rw [getPort_setPort_self, plan]
  change enter _ { dropBuffers (getPort u n) with laneFail := 0, spareInUse := false, width4 := false, disable := false, lanes := List.range 8 } = _
  rw [port]

theorem getPort_startTraining_ne {m n : Nat} (other : m ≠ n) (s : State) : getPort (startTraining n s) m = getPort s m :=
  (getPort_setPort_ne other ..).trans (getPort_of_ports (loseOutcome_frame n s .ports (by decide)) m)

theorem portTrainingStarts (n ms : Nat) (s : State) :
    let due := s.bu.linkOpen = true ∧ (getPort s n).state = .off ∧ (planOf s n).expected = true ∧ 4 * n ≤ ms
    (due → ∃ t, exec (.portTraining n ms) s = .next t ∧ (getPort t n).state = .training ∧ (getPort t n).laneFail = 0 ∧
      (getPort t n).width4 = false ∧ (getPort t n).spareInUse = false ∧ (getPort t n).lanes = List.range 8 ∧
      (∀ m, m ≠ n → getPort t m = getPort s m) ∧ OnlyChanges [.ports, .cap] s t) ∧
    (¬due → exec (.portTraining n ms) s = .next s) := by
  intro due
  refine ⟨fun ⟨opened, off, expected, time⟩ => ?_, fun idle => if_neg fun all => idle (by simpa [due, and_assoc] using all)⟩
  refine ⟨startTraining n s, if_pos (by simp [opened, off, expected, time]), ?_⟩
  rw [getPort_startTraining_self, expected]
  exact ⟨rfl, rfl, rfl, rfl, rfl, fun m other => getPort_startTraining_ne other s, (startTraining_frame n s).mono (by decide)⟩

theorem trainingEnds (n : Nat) (ok : Bool) (s : State) :
    ((getPort s n).state = .training → exec (.trainingEnd n ok) s =
      .next (setPort n { getPort s n with state := if ok then .qualifying else .failed, beats := 0, heardHello := false, qualBad := [] } s)) ∧
    ((getPort s n).state ≠ .training → exec (.trainingEnd n ok) s = .next s) :=
  ⟨fun here => if_pos (by simp [here]), fun other => if_neg (by simp [other])⟩

/-! ### Lanes that pass -/

theorem getD_map_zipIdx {α : Type} (f : α × Nat → Bool) (l : List α) (i : Nat) : (l.zipIdx.map f).getD i false = l[i]?.elim false fun x => f (x, i) := by
  rw [List.getD_eq_getElem?_getD, List.getElem?_map, List.getElem?_zipIdx]
  cases l[i]? <;> simp

/-- LANE_FAIL bit k is set for a lane below 9 that does not pass. -/
theorem getLsbD_failBits (pass : List Bool) {k : Nat} (lane : k < 9) : (failBits pass).getLsbD k = !pass.getD k false := by
  have upto : ∀ n, ((List.range n).foldl (fun (b : BitVec 9) l => if pass.getD l false then b else b ||| ((1 : BitVec 9) <<< l)) 0).getLsbD k =
      (decide (k < n) && !pass.getD k false) := by
    intro n
    induction n with
    | zero => simp
    | succ n ih =>
      rw [List.range_succ, List.foldl_append, List.foldl_cons, List.foldl_nil]
      have bit : ((1 : BitVec 9) <<< n).getLsbD k = decide (k = n) := by
        rw [BitVec.getLsbD_shiftLeft]
        simp only [lane, decide_true, Bool.true_and, show (1 : BitVec 9) = 1#9 from rfl, BitVec.getLsbD_one]
        rw [Bool.eq_iff_iff]
        simp
        omega
      split
      case isTrue yes =>
        rw [ih]
        rcases Nat.lt_trichotomy k n with less | same | more
        · simp [less, Nat.lt_succ_of_lt less]
        · subst same
          simp only [yes, Bool.not_true, Bool.and_false]
        · simp [Nat.not_lt.2 more.le, show ¬k < n + 1 by omega]
      case isFalse no =>
        rw [BitVec.getLsbD_or, ih, bit]
        rcases Nat.lt_trichotomy k n with less | same | more
        · simp [less, Nat.lt_succ_of_lt less, less.ne]
        · subst same
          rw [Bool.eq_false_iff.2 no]
          simp
        · simp [Nat.not_lt.2 more.le, show ¬k < n + 1 by omega, more.ne']
  have all := upto 9
  rwa [decide_eq_true lane, Bool.true_and] at all

theorem insertLane_perm (p : HPort) (l : Nat) (r : List Nat) : (insertLane p l r).Perm (l :: r) := by
  induction r with
  | nil => exact .refl _
  | cons k r ih =>
    rw [insertLane]
    split
    · exact .refl _
    · exact (ih.cons k).trans (.swap ..)

theorem foldl_insertLane_perm (p : HPort) (l acc : List Nat) : (l.foldl (fun a k => insertLane p k a) acc).Perm (l ++ acc) := by
  induction l generalizing acc with
  | nil => exact .refl _
  | cons k l ih => exact (ih _).trans (((insertLane_perm p k acc).append_left l).trans List.perm_middle)

/-- The best n of at least n different lanes are n different ones of them. -/
theorem bestLanes_spec (p : HPort) {n : Nat} {l : List Nat} (different : l.Nodup) (lanes : ∀ k ∈ l, k < 9) (enough : n ≤ l.length) :
    (bestLanes n p l).length = n ∧ (bestLanes n p l).Nodup ∧ ∀ k ∈ bestLanes n p l, k ∈ l := by
  have all : (l.foldl (fun a k => insertLane p k a) []).Perm l := by simpa using foldl_insertLane_perm p l []
  unfold bestLanes
  extract_lets best
  have sub : ∀ k ∈ best, k ∈ l := fun k mem => all.mem_iff.1 (List.mem_of_mem_take mem)
  have nodup : best.Nodup := (all.nodup_iff.2 different).sublist (List.take_sublist ..)
  have length : best.length = n := by rw [List.length_take, all.length_eq, min_eq_left enough]
  have same : ((List.range 9).filter fun k => best.contains k).Perm best :=
    (List.perm_ext_iff_of_nodup (List.nodup_range.filter _) nodup).2 fun k => by
      simp only [List.mem_filter, List.mem_range, List.contains_iff_mem, and_iff_right_iff_imp]
      exact fun mem => lanes k (sub k mem)
  exact ⟨same.length_eq.trans length, same.nodup_iff.2 nodup, fun k mem => sub k (same.mem_iff.1 mem)⟩

theorem mem_healthy {p : HPort} {k : Nat} : k ∈ p.healthy ↔ k < 9 ∧ p.laneFail.getLsbD k = false := by
  simp [HPort.healthy]

/-- Four-lane mode runs on four different healthy lanes. -/
theorem fourLanes_spec {p : HPort} (enough : 4 ≤ p.healthy.length) :
    (fourLanes p).lanes.length = 4 ∧ (fourLanes p).lanes.Nodup ∧ ∀ k ∈ (fourLanes p).lanes, k ∈ p.healthy :=
  bestLanes_spec p (List.nodup_range.filter _) (fun _ mem => (mem_healthy.1 mem).1) enough

/-! ### QUALIFICATION_END -/

/-- A lane passes by its tests. -/
def lanePasses (p : HPort) (lanes : List LaneTest) (l : Nat) : Bool :=
  lanes[l]?.elim false fun x => decide (x.errors * 100000 < x.bits) && x.peer && !p.qualBad.contains l

/-- The port with its tested lanes recorded. -/
def tested (p : HPort) (lanes : List LaneTest) : HPort := { p with laneFail := failBits (lanes.zipIdx.map fun (t, l) => p.passes l t) }

theorem laneFail_tested (p : HPort) (lanes : List LaneTest) {l : Nat} (lane : l < 9) : (tested p lanes).laneFail.getLsbD l = !lanePasses p lanes l := by
  rw [tested, getLsbD_failBits _ lane, getD_map_zipIdx]
  rfl

theorem healthy_tested (p : HPort) (lanes : List LaneTest) : (tested p lanes).healthy = (List.range 9).filter (lanePasses p lanes) := by
  refine List.filter_congr fun l mem => ?_
  rw [laneFail_tested p lanes (List.mem_range.1 mem), Bool.not_not]

section
variable {n : Nat} {lanes : List LaneTest} {s : State}

theorem exec_qualificationEnd_of_few (here : (getPort s n).state = .qualifying) (few : (tested (getPort s n) lanes).healthy.length < 4) :
    exec (.qualificationEnd n lanes) s = .next (setPort n (enter .failed (tested (getPort s n) lanes)) s) :=
  (if_neg (by simp [here])).trans (if_pos few)

theorem exec_qualificationEnd_of_enough (here : (getPort s n).state = .qualifying) (enough : ¬(tested (getPort s n) lanes).healthy.length < 4) :
    exec (.qualificationEnd n lanes) s = .next (if (qualified (tested (getPort s n) lanes)).width4
      then postPort Ev.hawDegraded n [] (setPort n (enter .discovery (qualified (tested (getPort s n) lanes))) s)
      else setPort n (enter .discovery (qualified (tested (getPort s n) lanes))) s) :=
  (if_neg (by simp [here])).trans (if_neg enough)

theorem qualified_of_few {p : HPort} (few : p.healthy.length < 8) : qualified p = fourLanes p := if_pos few

theorem qualified_of_most {p : HPort} (most : ¬p.healthy.length < 8) : qualified p =
    { p with lanes := (List.range 8).map fun k => if p.healthy.contains k then k else 8
             spareInUse := ((List.range 8).map fun k => if p.healthy.contains k then k else 8).contains 8, width4 := false } := if_neg most

theorem qualificationEnds (here : (getPort s n).state = .qualifying) :
    let passes := lanePasses (getPort s n) lanes
    let good := ((List.range 9).filter passes).length
    ∃ t, exec (.qualificationEnd n lanes) s = .next t ∧ (∀ l < 9, (getPort t n).laneFail.getLsbD l = !passes l) ∧
      (∀ m, m ≠ n → getPort t m = getPort s m) ∧ HostSame s t ∧ OnlyChanges [.ports, .host, .xing, .store] s t ∧
      (good < 4 → (getPort t n).state = .failed ∧ t.host = s.host) ∧
      (4 ≤ good → good < 8 → (getPort t n).state = .discovery ∧ (getPort t n).width4 = true ∧ Raises Ev.hawDegraded s t ∧
        (getPort t n).lanes.length = 4 ∧ (getPort t n).lanes.Nodup ∧ ∀ l ∈ (getPort t n).lanes, l < 9 ∧ passes l = true) ∧
      (8 ≤ good → (getPort t n).state = .discovery ∧ (getPort t n).width4 = false ∧ t.host = s.host ∧
        (getPort t n).lanes = (List.range 8).map (fun l => if passes l then l else 8) ∧
        ((getPort t n).spareInUse = true ↔ ∃ l < 8, passes l = false)) := by
  intro passes good
  let p := tested (getPort s n) lanes
  have healthy : p.healthy = (List.range 9).filter passes := healthy_tested ..
  have fails {l : Nat} (lane : l < 9) : p.laneFail.getLsbD l = !passes l := laneFail_tested _ _ lane
  have ok {l : Nat} (mem : l ∈ p.healthy) : l < 9 ∧ passes l = true := by
    obtain ⟨lane, sound⟩ := mem_healthy.1 mem
    exact ⟨lane, by simpa [fails lane] using sound⟩
  by_cases few : p.healthy.length < 4
  · refine ⟨_, exec_qualificationEnd_of_few here few, ?_⟩
    rw [healthy] at few
    rw [getPort_setPort_self]
    exact ⟨fun _ => fails, fun m other => getPort_setPort_ne other .., .of_host rfl, (setPort_frame _ _ _).mono (by decide), fun _ => ⟨rfl, rfl⟩,
      fun enough => absurd few (by omega), fun enough => absurd few (by omega)⟩
  have run := exec_qualificationEnd_of_enough here few
  by_cases most : p.healthy.length < 8
  · rw [qualified_of_few most] at run
    obtain ⟨four, different, sound⟩ := fourLanes_spec (Nat.not_lt.1 few)
    rw [healthy] at few most
    have post := postPort_frame Ev.hawDegraded n [] (setPort n (enter .discovery (fourLanes p)) s)
    refine ⟨_, run.trans (congrArg _ (if_pos rfl)), ?_⟩
    rw [getPort_of_ports (post .ports (by decide)) n, getPort_setPort_self]
    exact ⟨fun _ => fails, fun m other => (getPort_of_ports (post .ports (by decide)) m).trans (getPort_setPort_ne other ..),
      HostSame.trans (t := setPort n (enter .discovery (fourLanes p)) s) (.of_host rfl) (postFull_same ..), ((setPort_frame _ _ _).mono (by decide)).step post (by decide),
      fun none => absurd none few, fun _ _ => ⟨rfl, rfl, raises_postPort_setPort _ _ _ _ _ _, four, different, fun l mem => ok (sound l mem)⟩,
      fun enough => absurd most (by omega)⟩
  · rw [qualified_of_most most] at run
    have lanesAre : ((List.range 8).map fun k => if p.healthy.contains k then k else 8) = (List.range 8).map fun l => if passes l then l else 8 := by
      refine List.map_congr_left fun l mem => ?_
      have lane : l < 9 := Nat.lt_succ_of_lt (List.mem_range.1 mem)
      have same : p.healthy.contains l = passes l := by
        rw [Bool.eq_iff_iff, List.contains_iff_mem, mem_healthy, fails lane]
        simp [lane]
      rw [same]
    change exec _ s = .next (setPort n (enter .discovery { p with
      lanes := (List.range 8).map fun k => if p.healthy.contains k then k else 8
      spareInUse := ((List.range 8).map fun k => if p.healthy.contains k then k else 8).contains 8, width4 := false }) s) at run
    rw [lanesAre] at run
    rw [healthy] at few most
    refine ⟨_, run, ?_⟩
    rw [getPort_setPort_self]
    refine ⟨fun _ => fails, fun m other => getPort_setPort_ne other .., .of_host rfl, (setPort_frame _ _ _).mono (by decide), fun none => absurd none few,
      fun _ some => absurd some most, fun _ => ⟨rfl, rfl, rfl, rfl, ?_⟩⟩
    change ((List.range 8).map fun l => if passes l then l else 8).contains 8 = true ↔ _
    rw [List.contains_iff_mem, List.mem_map]
    refine exists_congr fun l => ?_
    rw [List.mem_range]
    refine and_congr_right fun lane => ?_
    cases passes l
    · simp
    · simp only [if_true, Bool.true_eq_false, iff_false]
      omega

end

/-! ### HELLO_SEND, DISCOVERY_TIMEOUT -/

/-- A port's HELLO is due. -/
def helloDue (p : HPort) : Prop :=
  p.state = .active ∧ 64 ≤ p.sinceHello ∨ (p.state = .discovery ∨ p.state = .miscabled ∨ p.state = .planMismatch) ∧ 1 ≤ p.sinceHello

/-- HELLO_SEND's own test. -/
def helloIsDue (p : HPort) : Bool :=
  match p.state with
  | .active => decide (64 ≤ p.sinceHello)
  | .discovery | .miscabled | .planMismatch => decide (1 ≤ p.sinceHello)
  | _ => false

theorem helloIsDue_iff (p : HPort) : helloIsDue p = true ↔ helloDue p := by
  rw [helloIsDue, helloDue]
  cases p.state <;> simp

theorem helloIsSent (n : Nat) (s : State) :
    (helloDue (getPort s n) → exec (.helloSend n) s = .next (setPort n { getPort s n with sinceHello := 0, hello := some (ownHello s n) } s)) ∧
    (¬helloDue (getPort s n) → exec (.helloSend n) s = .next s) :=
  ⟨fun due => if_pos ((helloIsDue_iff _).2 due), fun idle => if_neg (mt (helloIsDue_iff _).1 idle)⟩

theorem discoveryEnds (n : Nat) (s : State) :
    let due := (getPort s n).state = .discovery ∧ (getPort s n).heardHello = false ∧ 1024 ≤ (getPort s n).beats
    (due → exec (.discoveryTimeout n) s = .next (setPort n { getPort s n with state := .failed, beats := 0, heardHello := false } s)) ∧
    (¬due → exec (.discoveryTimeout n) s = .next s) :=
  ⟨fun ⟨here, silent, long⟩ => if_pos (by simp [here, silent, long]), fun idle => if_neg fun all => idle (by simpa [and_assoc] using all)⟩

theorem portTrainingStates : Claim.PortTrainingStates :=
  ⟨earlySignalCounts, portTrainingStarts, trainingEnds, fun n lanes s => ⟨qualificationEnds, fun other => if_pos (by simpa using other)⟩, helloIsSent, discoveryEnds⟩

end Sys2Proof.Machine
end

section
/-! SUPPORT. HELLO decides the state of a port (R388, R389). -/

namespace Sys2Proof.Machine

/-! ### What sending leaves of a port -/

/-- A port's state and what it expects next are kept. -/
structure PortKept (p q : HPort) : Prop where
  state : q.state = p.state
  rxNext : q.rxNext = p.rxNext

theorem PortKept.refl (p : HPort) : PortKept p p := ⟨rfl, rfl⟩

theorem PortKept.trans {p q r : HPort} (a : PortKept p q) (b : PortKept q r) : PortKept p r := ⟨b.state.trans a.state, b.rxNext.trans a.rxNext⟩

theorem drainVcs_kept (n : Nat) (p : HPort) : PortKept p (drainVcs n p).2 := by
  induction n generalizing p with
  | zero => exact .refl p
  | succ n ih =>
    rw [drainVcs]
    split
    · exact .refl p
    case h_2 vc _ =>
      split
      · exact .refl p
      case h_2 k r _ =>
        have rest := ih { p with
          sendQ := upsert vc r p.sendQ, credits := adjust 0 vc (fun c => c - (k.len + 1)) p.credits, turn := useTurn vc (16 * (k.len + 1)) p.turn }
        exact ⟨rest.state, rest.rxNext⟩

theorem applySwap_kept (received : Bool) (seq : Nat) (p : HPort) : PortKept p (applySwap received seq p) := by
  rw [applySwap]
  split
  · split
    · exact ⟨rfl, rfl⟩
    · exact .refl p
  · exact .refl p

theorem sendFlit_kept (p : HPort) (body : List Byte) : PortKept p (sendFlit p body) := by
  unfold sendFlit
  extract_lets q kept
  have same : PortKept p q := applySwap_kept ..
  exact ⟨same.state, same.rxNext⟩

theorem sendFlits_kept (l : List (List Byte)) (p : HPort) : PortKept p (l.foldl sendFlit p) := by
  induction l generalizing p with
  | nil => exact .refl p
  | cons b l ih => exact (sendFlit_kept p b).trans (ih _)

theorem pumpPort_kept (p : HPort) : PortKept p (pumpPort p) := by
  unfold pumpPort
  split
  · exact .refl p
  · exact (drainVcs_kept _ p).trans (PortKept.trans (sendFlits_kept _ _) ⟨rfl, rfl⟩)

theorem takeHead_of_idle {now : CtWord} {d : FlitHead} {p : HPort} (idle : p.state ≠ .active) : takeHead now d p = p := if_pos (by simpa using idle)

theorem takeHead_kept (now : CtWord) (d : FlitHead) (p : HPort) : PortKept p (takeHead now d p) := by
  unfold takeHead
  split
  · exact .refl p
  · extract_lets kept out
    exact ⟨(pumpPort_kept _).state, (pumpPort_kept _).rxNext⟩

/-! ### A port's new value -/

/-- A port that is written as it stands is recorded nowhere. -/
theorem putPort_self (n : Nat) (s : State) : putPort n (getPort s n) s = setPort n (getPort s n) s := by
  unfold putPort
  extract_lets old u
  split
  case h_1 here gone => exact absurd (here.symm.trans gone) (by simp)
  case h_2 => rfl

theorem putPort_ports (n : Nat) (p : HPort) (s : State) : (putPort n p s).ports = (setPort n p s).ports := by
  unfold putPort
  extract_lets old u
  split
  · split
    · rfl
    · exact laneRecord_frame _ _ _ u .ports (by decide)
  · rfl

@[simp] theorem getPort_putPort_self (n : Nat) (p : HPort) (s : State) : getPort (putPort n p s) n = p :=
  (getPort_of_ports (putPort_ports n p s) n).trans (getPort_setPort_self ..)

theorem getPort_putPort_ne {m n : Nat} (other : m ≠ n) (p : HPort) (s : State) : getPort (putPort n p s) m = getPort s m :=
  (getPort_of_ports (putPort_ports n p s) m).trans (getPort_setPort_ne other ..)

/-- What a HELLO is judged by stays: the module's identity and its plan. -/
def SameIdentity (s t : State) : Prop := t.store.serial = s.store.serial ∧ t.store.plan = s.store.plan

theorem laneRecord_identity (n l res : Nat) (s : State) : SameIdentity s (laneRecord n l res s) := by
  unfold laneRecord
  generalize same : ({ s with store := { s.store with badLanes := (n, l) :: s.store.badLanes } } : State) = u
  have kept : SameIdentity s u := same ▸ ⟨rfl, rfl⟩
  have store := record_butLedger 13 8 res 3 (unitOf 5 (n * 9 + l)) 0xFFFFFFFF 0 0 [] u
  have serial := congrArg Store.serial store
  have plan := congrArg Store.plan store
  exact ⟨serial.trans kept.1, plan.trans kept.2⟩

theorem putPort_identity (n : Nat) (p : HPort) (s : State) : SameIdentity s (putPort n p s) := by
  unfold putPort
  extract_lets old u
  have kept : SameIdentity s u := ⟨rfl, rfl⟩
  clear_value u
  split
  · split
    · exact kept
    · exact ⟨(laneRecord_identity ..).1.trans kept.1, (laneRecord_identity ..).2.trans kept.2⟩
  · exact kept

/-! ### A HELLO on a port that takes none -/

/-- A port past qualification takes HELLOs. -/
def takesHello (p : HPort) : Prop := p.state = .discovery ∨ p.state = .active ∨ p.state = .miscabled ∨ p.state = .planMismatch

theorem takesHello_iff (p : HPort) : (!p.trained || p.state == .qualifying) = false ↔ takesHello p := by
  rw [HPort.trained, takesHello]
  cases p.state <;> simp

/-- The state after a flit's header. -/
def headed (n : Nat) (d : FlitHead) (s : State) : State := putPort n (takeHead s.cad.ct d (getPort s n)) s

theorem headed_kept (n : Nat) (d : FlitHead) (s : State) : PortKept (getPort s n) (getPort (headed n d s) n) := by
  rw [headed, getPort_putPort_self]
  exact takeHead_kept ..

theorem getPort_headed_ne {m n : Nat} (other : m ≠ n) (d : FlitHead) (s : State) : getPort (headed n d s) m = getPort s m := getPort_putPort_ne other ..

theorem headed_of_idle {n : Nat} {s : State} (d : FlitHead) (idle : (getPort s n).state ≠ .active) : headed n d s = setPort n (getPort s n) s := by
  rw [headed, takeHead_of_idle idle, putPort_self]

theorem helloIsIgnored (n : Nat) (d : FlitHead) (h : Hello) (s : State) (deaf : (getPort s n).state = .off ∨ (getPort s n).state = .training ∨
    (getPort s n).state = .qualifying ∨ (getPort s n).state = .failed ∨ (getPort s n).state = .disabled) :
    ∃ t, exec (.hello n d h) s = .next t ∧ (∀ m, getPort t m = getPort s m) ∧ OnlyChanges [.ports] s t := by
  have idle : (getPort s n).state ≠ .active := by
    intro up
    simp [up] at deaf
  have takes : ¬takesHello (getPort (headed n d s) n) := by
    rw [takesHello, (headed_kept n d s).state]
    rcases deaf with st | st | st | st | st <;> simp [st]
  have run : takeHello n d h s = headed n d s := if_pos (Bool.of_not_eq_false (mt (takesHello_iff _).1 takes))
  refine ⟨headed n d s, congrArg Host.Outcome.next run, fun m => ?_, headed_of_idle d idle ▸ setPort_frame _ _ _⟩
  rw [headed_of_idle d idle]
  by_cases same : m = n
  · rw [same, getPort_setPort_self]
  · exact getPort_setPort_ne same ..

/-! ### A HELLO that is judged -/

/-- A port goes to another state than ACTIVE, and discards what it holds if it leaves ACTIVE. -/
def leaves (st : PortState) (p : HPort) : HPort := if p.state = .active then dropBuffers (enter st p) else enter st p

theorem leaves_spec (st : PortState) (p : HPort) : (leaves st p).state = st ∧ (leaves st p).peerCoord = p.peerCoord ∧ (leaves st p).peerPort = p.peerPort ∧
    (leaves st p).echo = p.echo := by
  rw [leaves]
  split
  · exact ⟨rfl, rfl, rfl, rfl⟩
  · exact ⟨rfl, rfl, rfl, rfl⟩

/-- What a HELLO makes of a port, its state decided. -/
def helloPort (h : Hello) (st : PortState) (p : HPort) : HPort :=
  let p := { p with peerCoord := h.coord, peerPort := h.port, echo := h.serial }
  if st = p.state then { p with heardHello := true }
  else if st = .active then enterActive p
  else { leaves st p with heardHello := true }

/-- A port that leaves ACTIVE loses the outcome it holds. -/
def helloLoses (n : Nat) (was st : PortState) (s : State) : State := if was == .active && st != .active then loseOutcome n s else s

/-- The event of the state that a HELLO decides. -/
def helloTells (n : Nat) (h : Hello) (was st : PortState) (s : State) : State :=
  match st with
  | .miscabled => postPort Ev.hawMiscable n (det [(8, h.serial.toNat), (1, h.port), (4, h.coord.toNat)]) s
  | .planMismatch => postPort Ev.hawPlan n [] s
  | .active => if was = .active then s else postPort Ev.hawUp n [] s
  | _ => s

theorem takeHello_of_takes {n : Nat} {d : FlitHead} (h : Hello) {s : State} (takes : takesHello (getPort (headed n d s) n)) :
    takeHello n d h s =
      let u := headed n d s
      let was := (getPort u n).state
      let st := judgeHello u n h
      helloTells n h was st (setPort n (helloPort h st (getPort u n)) (helloLoses n was st u)) := by
  unfold takeHello
  extract_lets u p st v q r w
  have judged : ¬(!p.trained || p.state == .qualifying) = true := by
    rw [Bool.not_eq_true]
    exact (takesHello_iff _).2 takes
  rw [if_neg judged]
  rfl

/-- The judgement rests on the identity of the module, its plan and the HELLO. -/
theorem judgeHello_headed (n : Nat) (d : FlitHead) (h : Hello) (s : State) : judgeHello (headed n d s) n h = judgeHello s n h := by
  obtain ⟨serial, plan⟩ := putPort_identity n (takeHead s.cad.ct d (getPort s n)) s
  unfold judgeHello planOf headed
  rw [serial, plan]

theorem helloLoses_frame (n : Nat) (was st : PortState) (s : State) : OnlyChanges [.cap] s (helloLoses n was st s) := by
  rw [helloLoses]
  split
  · exact loseOutcome_frame n s
  · exact .refl _ s

theorem helloTells_frame (n : Nat) (h : Hello) (was st : PortState) (s : State) : OnlyChanges [.host, .xing, .store] s (helloTells n h was st s) := by
  cases st
  case miscabled => exact postPort_frame _ _ _ _
  case planMismatch => exact postPort_frame _ _ _ _
  case active =>
    change OnlyChanges _ s (if was = .active then s else _)
    split
    · exact .refl _ s
    · exact postPort_frame _ _ _ _
  all_goals exact .refl _ s

theorem helloTells_same (n : Nat) (h : Hello) (was st : PortState) (s : State) : HostSame s (helloTells n h was st s) := by
  cases st
  case miscabled => exact postFull_same ..
  case planMismatch => exact postFull_same ..
  case active =>
    change HostSame s (if was = .active then s else _)
    split
    · rfl
    · exact postFull_same ..
  all_goals rfl

/-- Whatever a HELLO decides, the port keeps who sent it. -/
theorem helloPort_spec (h : Hello) (st : PortState) (p : HPort) : (helloPort h st p).state = st ∧ (helloPort h st p).peerCoord = h.coord ∧
    (helloPort h st p).peerPort = h.port ∧ (helloPort h st p).echo = h.serial ∧ (helloPort h st p).heardHello = true := by
  unfold helloPort
  extract_lets q
  split
  case isTrue same => exact ⟨same.symm, rfl, rfl, rfl, rfl⟩
  case isFalse =>
    split
    case isTrue up => exact ⟨up.symm, rfl, rfl, rfl, rfl⟩
    case isFalse =>
      obtain ⟨state, coord, port, echo⟩ := leaves_spec st q
      exact ⟨state, coord, port, echo, rfl⟩

/-- A port that becomes ACTIVE. -/
theorem helloPort_of_up (h : Hello) {p : HPort} (other : p.state ≠ .active) :
    helloPort h .active p = enterActive { p with peerCoord := h.coord, peerPort := h.port, echo := h.serial } :=
  (if_neg (Ne.symm other)).trans (if_pos rfl)

theorem helloPort_of_same (h : Hello) {st : PortState} {p : HPort} (same : p.state = st) :
    helloPort h st p = { p with peerCoord := h.coord, peerPort := h.port, echo := h.serial, heardHello := true } := if_pos same.symm

/-- A port that leaves ACTIVE discards what it holds to send. -/
theorem helloPort_of_down (h : Hello) {st : PortState} {p : HPort} (was : p.state = .active) (down : st ≠ .active) :
    (helloPort h st p).replay = [] ∧ (helloPort h st p).sendQ = [] := by
  unfold helloPort
  extract_lets q
  rw [if_neg (show ¬st = q.state from fun same => down (same.trans was)), if_neg down]
  have drops : leaves st q = dropBuffers (enter st q) := if_pos was
  exact ⟨congrArg HPort.replay drops, congrArg HPort.sendQ drops⟩

section
variable {s : State} {n : Nat} {h : Hello}

theorem judgeHello_of_own (own : h.serial = s.store.serial) : judgeHello s n h = .miscabled := if_pos own

variable (other : ¬h.serial = s.store.serial)
include other

theorem judgeHello_of_plan (plan : ¬h.planId = s.store.plan.id) : judgeHello s n h = .planMismatch := (if_neg other).trans (if_pos plan)

variable (plan : h.planId = s.store.plan.id)
include plan

theorem judgeHello_of_stranger (stranger : ¬(h.coord = (planOf s n).peerCoord ∧ h.port = (planOf s n).peerPort ∧
    ((planOf s n).serialCheck = true → h.serial = (planOf s n).peerSerial))) : judgeHello s n h = .miscabled := by
  refine (if_neg other).trans ((if_neg (not_not.2 plan)).trans (if_pos ?_))
  by_contra known
  refine stranger ?_
  simpa [and_assoc] using known

variable (peer : h.coord = (planOf s n).peerCoord ∧ h.port = (planOf s n).peerPort ∧
  ((planOf s n).serialCheck = true → h.serial = (planOf s n).peerSerial))
include peer

theorem judgeHello_of_echo (echoes : h.ack = true ∧ h.echo = s.store.serial) : judgeHello s n h = .active := by
  refine (if_neg other).trans ((if_neg (not_not.2 plan)).trans ((if_neg ?_).trans (if_pos ?_)))
  · simpa [and_assoc] using peer
  · simpa using echoes

theorem judgeHello_of_silent (silent : ¬(h.ack = true ∧ h.echo = s.store.serial)) : judgeHello s n h = .discovery := by
  refine (if_neg other).trans ((if_neg (not_not.2 plan)).trans ((if_neg ?_).trans (if_neg ?_)))
  · simpa [and_assoc] using peer
  · simpa using silent

end

/-- The module after a HELLO that is judged. -/
def helloed (n : Nat) (d : FlitHead) (h : Hello) (st : PortState) (s : State) : State :=
  helloTells n h (getPort s n).state st (setPort n (helloPort h st (getPort (headed n d s) n)) (helloLoses n (getPort s n).state st (headed n d s)))

theorem exec_hello_of_takes (n : Nat) (d : FlitHead) (h : Hello) {s : State} (takes : takesHello (getPort s n)) :
    exec (.hello n d h) s = .next (helloed n d h (judgeHello s n h) s) := by
  have kept := (headed_kept n d s).state
  have run := takeHello_of_takes (d := d) h (by rwa [takesHello, kept])
  dsimp only at run
  rw [judgeHello_headed, kept] at run
  exact congrArg Host.Outcome.next run

theorem getPort_helloed_self (n : Nat) (d : FlitHead) (h : Hello) (st : PortState) (s : State) :
    getPort (helloed n d h st s) n = helloPort h st (getPort (headed n d s) n) :=
  (getPort_of_ports (helloTells_frame n h (getPort s n).state st _ .ports (by decide)) n).trans (getPort_setPort_self ..)

theorem getPort_helloed_ne {m n : Nat} (other : m ≠ n) (d : FlitHead) (h : Hello) (st : PortState) (s : State) :
    getPort (helloed n d h st s) m = getPort s m :=
  (getPort_of_ports (helloTells_frame n h (getPort s n).state st _ .ports (by decide)) m).trans ((getPort_setPort_ne other ..).trans
    ((getPort_of_ports (helloLoses_frame n (getPort s n).state st (headed n d s) .ports (by decide)) m).trans (getPort_headed_ne other d s)))

theorem helloed_same (n : Nat) (d : FlitHead) (h : Hello) (st : PortState) (s : State) : HostSame s (helloed n d h st s) :=
  have lost := helloLoses_frame n (getPort s n).state st (headed n d s)
  HostSame.trans (t := headed n d s) (putPort_same ..) (HostSame.trans
    (t := setPort n (helloPort h st (getPort (headed n d s) n)) (helloLoses n (getPort s n).state st (headed n d s)))
    (.of_host (lost .host (by decide))) (helloTells_same ..))

theorem helloed_frame (n : Nat) (d : FlitHead) (h : Hello) (st : PortState) (s : State) :
    OnlyChanges [.ports, .cap, .host, .xing, .store] s (helloed n d h st s) :=
  ((((putPort_frame n (takeHead s.cad.ct d (getPort s n)) s).mono (by decide)).step (helloLoses_frame n (getPort s n).state st (headed n d s)) (by decide)).step
    (setPort_frame n (helloPort h st (getPort (headed n d s) n)) _) (by decide)).step (helloTells_frame n h (getPort s n).state st _) (by decide)

/-- The event of an entered state stands newest: no other is raised before it on a port that was not ACTIVE. -/
theorem raises_helloed {code n : Nat} {d : FlitHead} {h : Hello} {st : PortState} {s : State} (was : (getPort s n).state ≠ .active)
    (tells : ∀ u, Raises code u (helloTells n h (getPort s n).state st u)) : Raises code s (helloed n d h st s) := by
  have lost : helloLoses n (getPort s n).state st (headed n d s) = headed n d s := if_neg (by simp [was])
  refine Raises.of_same (s' := setPort n (helloPort h st (getPort (headed n d s) n)) (helloLoses n (getPort s n).state st (headed n d s)))
    (t' := helloed n d h st s) (tells _) ?_ ?_ ?_ rfl
  all_goals rw [lost, headed_of_idle d was]
  · rfl
  · rfl
  · exact fun calm => calm

theorem helloDecidesPort : Claim.HelloDecidesPort := by
  refine ⟨fun n d h s takes => ?_, helloIsIgnored⟩
  replace takes : takesHello (getPort s n) := takes
  intro was e own plan peer echoes
  have kept := headed_kept n d s
  obtain ⟨state, coord, port, echo, heard⟩ := helloPort_spec h (judgeHello s n h) (getPort (headed n d s) n)
  have down (st : PortState) (other : st ≠ .active) (up : was = .active) : (helloPort h st (getPort (headed n d s) n)).replay = [] ∧
      (helloPort h st (getPort (headed n d s) n)).sendQ = [] := helloPort_of_down h (kept.state.trans up) other
  refine ⟨_, exec_hello_of_takes n d h takes, ?_⟩
  rw [getPort_helloed_self, state]
  refine ⟨coord, port, echo, heard, fun m other => getPort_helloed_ne other .., helloed_same .., helloed_frame _ _ _ _ _, fun mine => ?_, fun other foreign => ?_,
    fun other same stranger => ?_, fun other same known answers => ?_, fun other same known silent => ?_, fun up fails => ?_⟩
  · rw [judgeHello_of_own mine]
    exact ⟨rfl, fun idle => raises_helloed idle fun u => raises_postFull _ _ _ _ _ _ u⟩
  · rw [judgeHello_of_plan other foreign]
    exact ⟨rfl, fun idle => raises_helloed idle fun u => raises_postFull _ _ _ _ _ _ u⟩
  · rw [judgeHello_of_stranger other same stranger]
    exact ⟨rfl, fun idle => raises_helloed idle fun u => raises_postFull _ _ _ _ _ _ u⟩
  · rw [judgeHello_of_echo other same known answers]
    refine ⟨rfl, fun idle => ⟨raises_helloed idle fun u => ?_, ?_⟩, fun up => ?_⟩
    · change Raises Ev.hawUp u (if (getPort s n).state = .active then u else postPort Ev.hawUp n [] u)
      rw [if_neg idle]
      exact raises_postFull _ _ _ _ _ _ u
    · rw [helloPort_of_up h (kept.state ▸ idle)]
      exact ⟨rfl, rfl, rfl, rfl⟩
    · rw [helloPort_of_same h (kept.state.trans up)]
      exact kept.rxNext
  · exact judgeHello_of_silent other same known silent
  · by_cases mine : own
    · exact judgeHello_of_own mine ▸ down .miscabled (by decide) up
    by_cases same : plan
    · by_cases known : peer
      · exact judgeHello_of_silent mine same known (fun answers => fails ⟨mine, same, known, answers⟩) ▸ down .discovery (by decide) up
      · exact judgeHello_of_stranger mine same known ▸ down .miscabled (by decide) up
    · exact judgeHello_of_plan mine same ▸ down .planMismatch (by decide) up

/-- Settles O21: each event of a port on its way up acts in its own state and when it is due, and a HELLO decides the state by the rows of R389. -/
theorem portsTrainAndDiscover : Obligations.PortsTrainAndDiscover := ⟨portTrainingStates, helloDecidesPort⟩

end Sys2Proof.Machine
end

section
/-! SUPPORT. The link tables: PLAN_SET, PORT_CTRL, ROUTE_SET and XMAP_SET (R387, R391, R406, R411). -/

namespace Sys2Proof.Machine

/-! ### PLAN_SET -/

theorem exec_planSet_of_admitted {p : Packet} {s : State} (h : Admitted 0x0501 p s) : exec (.planSet p) s = .next (opPlanSet p (arrived s)) := by
  rw [exec_of_admitted rfl h rfl (by decide) (by decide), runOp, h.2.1]
  rfl

/-- The entries of a PLAN_SET are formed. -/
def planFormed (p : Packet) : Prop := ∀ k < 24, item (sliceB p.payload (16 * k) 16) 5 1 ≤ 3 ∧ item (sliceB p.payload (16 * k) 16) 6 2 = 0

theorem planFormed_iff (p : Packet) : planFormed p ↔ ¬((List.range 24).any fun k => decide (3 < item (sliceB p.payload (16 * k) 16) 5 1) ||
    item (sliceB p.payload (16 * k) 16) 6 2 != 0) = true := by
  simp [planFormed]

/-- The module with a cabling plan. -/
def planned (p : Packet) (s : State) : State := { s with store := { s.store with plan := {
  id := BitVec.ofNat 32 (pN p 0 4), coord := BitVec.ofNat 32 (pN p 4 4)
  entries := (List.range 24).map fun k => (k, parsePlan (sliceB p.payload (16 * k) 16)) } } }

section
variable {p : Packet} {s : State}

theorem opPlanSet_of_busy (busy : s.colls ≠ []) : opPlanSet p s = refuse p Status.linkBusy s := if_pos (by simpa using busy)

theorem opPlanSet_of_bad (idle : s.colls = []) (bad : ¬planFormed p) : opPlanSet p s = refuse p Status.linkValue s :=
  (if_neg (by simp [idle])).trans (if_pos (not_not.1 (mt (planFormed_iff p).2 bad)))

theorem opPlanSet_of_formed (idle : s.colls = []) (formed : planFormed p) : opPlanSet p s = accept p (planned p s) :=
  (if_neg (by simp [idle])).trans (if_neg ((planFormed_iff p).1 formed))

end

theorem lookupD_map_range {β : Type} (d : β) (f : Nat → β) {n k : Nat} (less : k < n) : lookupD d k ((List.range n).map fun k => (k, f k)) = f k := by
  have found : ∀ m i, i ≤ k → k < i + m → lookup k ((List.range' i m).map fun k => (k, f k)) = some (f k) := by
    intro m
    induction m with
    | zero => intro i low high; omega
    | succ m ih =>
      intro i low high
      rw [List.range'_succ, List.map_cons, lookup]
      split
      case isTrue same => rw [same]
      case isFalse other => exact ih (i + 1) (by omega) (by omega)
  rw [lookupD, List.range_eq_range', found n 0 (Nat.zero_le k) (by omega)]
  rfl

theorem planSetActs (p : Packet) (s : State) (h : Admitted 0x0501 p s) :
    (s.colls ≠ [] → exec (.planSet p) s = .next (reply p Status.linkBusy 0 (arrived s))) ∧
    (s.colls = [] → ¬planFormed p → exec (.planSet p) s = .next (reply p Status.linkValue 0 (arrived s))) ∧
    (s.colls = [] → planFormed p →
      ∃ t, exec (.planSet p) s = .next t ∧ Answered p 0 0 s t ∧ t.store.plan.id = BitVec.ofNat 32 (item p.param 0 4) ∧
        t.store.plan.coord = BitVec.ofNat 32 (item p.param 4 4) ∧ t.store = { s.store with plan := t.store.plan } ∧
        (∀ k < 24, planOf t k = parsePlan (sliceB p.payload (16 * k) 16)) ∧ OnlyChanges [.arrivals, .host, .store] s t) := by
  have plain : stepOpcode p.opc = false := by rw [h.2.1]; rfl
  have run := exec_planSet_of_admitted h
  refine ⟨fun busy => ?_, fun idle bad => ?_, fun idle formed => ?_⟩
  · rw [run, opPlanSet_of_busy (s := arrived s) busy]
    rfl
  · rw [run, opPlanSet_of_bad (s := arrived s) idle bad]
    rfl
  · rw [opPlanSet_of_formed (s := arrived s) idle formed] at run
    have frame := reply_frame_of_plain plain (okStatus p) 0 (planned p (arrived s))
    have store : (accept p (planned p (arrived s))).store = (planned p (arrived s)).store := frame .store (by decide)
    have set : OnlyChanges [.store] (arrived s) (planned p (arrived s)) := only_store (.refl _ _) _ (by decide)
    have ok := okStatus_of_rsv h.rsv
    refine ⟨_, run, ok ▸ answered_reply plain rfl rfl (okStatus p) 0, ?_, ?_, ?_, fun k less => ?_,
      (((arrived_frame s).mono (by decide)).step set (by decide)).step frame (by decide)⟩
    · rw [store]; rfl
    · rw [store]; rfl
    · rw [store]; rfl
    · rw [planOf_of_store store]
      exact lookupD_map_range ({} : PlanEntry) _ less

/-! ### PORT_CTRL -/

theorem getPort_disablePort_self (n : Nat) (s : State) :
    getPort (disablePort n s) n = { enter .disabled (dropBuffers (getPort s n)) with disable := true } := getPort_setPort_self ..

/-- What the loss of an ACTIVE port's buffers leaves of the module, before the port is disabled. -/
def portEnded (n : Nat) (s : State) : State :=
  if (getPort s n).trained then postPort Ev.hawPortDown n [] (endColls n (loseOutcome n s)) else s

theorem disablePort_eq (n : Nat) (s : State) :
    disablePort n s = setPort n { enter .disabled (dropBuffers (getPort s n)) with disable := true } (portEnded n s) := rfl

theorem portEnded_frame (n : Nat) (s : State) : OnlyChanges [.cap, .colls, .host, .xing, .store] s (portEnded n s) := by
  rw [portEnded]
  split
  · exact (((loseOutcome_frame n s).mono (by decide)).step (endColls_frame n _) (by decide)).step (postPort_frame _ n [] _) (by decide)
  · exact .refl _ s

theorem getPort_disablePort_ne {m n : Nat} (other : m ≠ n) (s : State) : getPort (disablePort n s) m = getPort s m := by
  rw [disablePort_eq, getPort_setPort_ne other]
  exact getPort_of_ports (portEnded_frame n s .ports (by decide)) m

section
variable {f : Nat → State → State} (others : ∀ m n s, m ≠ n → getPort (f n s) m = getPort s m)
include others

/-- A port that is not among those that a command visits stays. -/
theorem getPort_foldl_of_not_mem {l : List Nat} {m : Nat} (out : m ∉ l) (s : State) : getPort (l.foldl (fun s n => f n s) s) m = getPort s m := by
  induction l generalizing s with
  | nil => rfl
  | cons n l ih =>
    rw [List.mem_cons, not_or] at out
    exact (ih out.2 _).trans (others m n s out.1)

/-- A port that is visited once is as its visit leaves it, from a state that the visits before it lead to. -/
theorem getPort_foldl_of_mem {l : List Nat} {m : Nat} (mem : m ∈ l) (once : l.Nodup) {r : State → Prop} (keeps : ∀ n s, r s → r (f n s)) {s : State} (start : r s) :
    ∃ u, r u ∧ getPort (l.foldl (fun s n => f n s) s) m = getPort (f m u) m := by
  induction l generalizing s with
  | nil => cases mem
  | cons n l ih =>
    obtain ⟨out, once⟩ := List.nodup_cons.1 once
    by_cases same : m = n
    · subst same
      exact ⟨s, start, getPort_foldl_of_not_mem others out _⟩
    · exact ih ((List.mem_cons.1 mem).resolve_left same) once (keeps n s start)

end

/-! ### Collectives that a disabled port ends -/

/-- The slot's collective does not run. -/
def SlotIdle (k : Nat) (s : State) : Prop := ∃ d, lookup k s.colls = some d ∧ d.running = none

theorem SlotIdle.of_colls {k : Nat} {s t : State} (idle : SlotIdle k s) (colls : t.colls = s.colls) : SlotIdle k t := by
  obtain ⟨d, found, stands⟩ := idle
  exact ⟨d, colls ▸ found, stands⟩

theorem loseColl_colls (slot : Nat) (c : CollSlot) (p : Packet) (s : State) :
    (loseColl slot c p s).colls = upsert slot { c with running := none, own := [], shared := none } s.colls := by
  unfold loseColl
  extract_lets u
  have colls : u.colls = s.colls := postFull_frame _ _ _ _ _ _ s .colls (by decide)
  rw [← colls]
  exact reply_frame p Status.linkLost 0 _ .colls (by decide)

theorem slotIdle_loseColl_self (k : Nat) (c : CollSlot) (p : Packet) (s : State) : SlotIdle k (loseColl k c p s) :=
  ⟨_, (congrArg (lookup k) (loseColl_colls k c p s)).trans (lookup_upsert_self ..), rfl⟩

/-- The loss of one collective leaves another as it is. -/
theorem lookup_loseColl_ne {k j : Nat} (other : k ≠ j) (c : CollSlot) (p : Packet) (s : State) : lookup k (loseColl j c p s).colls = lookup k s.colls :=
  (congrArg (lookup k) (loseColl_colls j c p s)).trans (lookup_upsert_ne other ..)

/-- One entry of the table of slots at a port that is disabled. -/
def endOne (n : Nat) (s t : State) (x : Nat × CollSlot) : State :=
  match x.2.running with
  | some p => if collLoses s n x.1 then loseColl x.1 x.2 p t else t
  | none => t

theorem endColls_eq (n : Nat) (s : State) : endColls n s = s.colls.foldl (endOne n s) s := rfl

theorem endOne_of_kept {n : Nat} {s : State} {x : Nat × CollSlot} (t : State) (kept : ¬(x.2.running.isSome = true ∧ collLoses s n x.1 = true)) :
    endOne n s t x = t := by
  rw [endOne]
  split
  case h_1 p runs => exact if_neg fun loses => kept ⟨by rw [runs]; rfl, loses⟩
  case h_2 => rfl

theorem endOne_of_lost {n : Nat} {s : State} {x : Nat × CollSlot} (t : State) (runs : x.2.running.isSome = true) (loses : collLoses s n x.1 = true) :
    ∃ p, endOne n s t x = loseColl x.1 x.2 p t := by
  obtain ⟨p, some⟩ := Option.isSome_iff_exists.1 runs
  exact ⟨p, by rw [endOne, some]; exact if_pos loses⟩

theorem slotIdle_endOne {n k : Nat} {s t : State} (x : Nat × CollSlot) (idle : SlotIdle k t) : SlotIdle k (endOne n s t x) := by
  by_cases lost : x.2.running.isSome = true ∧ collLoses s n x.1 = true
  · obtain ⟨p, run⟩ := endOne_of_lost t lost.1 lost.2
    rw [run]
    by_cases same : k = x.1
    · exact same ▸ slotIdle_loseColl_self x.1 x.2 p t
    · obtain ⟨d, found, stands⟩ := idle
      exact ⟨d, (lookup_loseColl_ne same ..).trans found, stands⟩
  · rwa [endOne_of_kept t lost]

theorem slotIdle_endAll {n k : Nat} {s : State} (l : List (Nat × CollSlot)) {t : State} (idle : SlotIdle k t) : SlotIdle k (l.foldl (endOne n s) t) := by
  induction l generalizing t with
  | nil => exact idle
  | cons x l ih => exact ih (slotIdle_endOne x idle)

/-- An entry that runs and loses packets ends. -/
theorem slotIdle_endAll_of_mem {n k : Nat} {c : CollSlot} {s : State} {l : List (Nat × CollSlot)} (mem : (k, c) ∈ l) (runs : c.running.isSome = true)
    (loses : collLoses s n k = true) (t : State) : SlotIdle k (l.foldl (endOne n s) t) := by
  induction l generalizing t with
  | nil => cases mem
  | cons x l ih =>
    rcases List.mem_cons.1 mem with rfl | mem
    · obtain ⟨p, run⟩ := endOne_of_lost (x := (k, c)) (n := n) (s := s) t runs loses
      exact slotIdle_endAll l (run ▸ slotIdle_loseColl_self k c p t)
    · exact ih mem _

/-- A slot stays as it is, or ends. -/
theorem lookup_endAll {n k : Nat} {s : State} (l : List (Nat × CollSlot)) (t : State) :
    lookup k (l.foldl (endOne n s) t).colls = lookup k t.colls ∨ SlotIdle k (l.foldl (endOne n s) t) := by
  induction l generalizing t with
  | nil => exact .inl rfl
  | cons x l ih =>
    by_cases lost : x.2.running.isSome = true ∧ collLoses s n x.1 = true
    · obtain ⟨p, run⟩ := endOne_of_lost t lost.1 lost.2
      by_cases same : k = x.1
      · exact .inr (slotIdle_endAll l (run.symm ▸ same ▸ slotIdle_loseColl_self x.1 x.2 p t))
      · refine (ih _).imp_left fun kept => kept.trans ?_
        rw [run, lookup_loseColl_ne same]
    · have run := endOne_of_kept (n := n) (s := s) t lost
      rw [List.foldl_cons, run]
      exact ih t

theorem mem_of_lookup {β : Type} {k : Nat} {v : β} {t : Table β} (found : lookup k t = some v) : (k, v) ∈ t := by
  induction t with
  | nil => cases found
  | cons x t ih =>
    obtain ⟨j, w⟩ := x
    rw [lookup] at found
    split at found
    case isTrue same =>
      obtain rfl := Option.some.inj found
      exact same ▸ List.mem_cons_self
    case isFalse => exact List.mem_cons_of_mem _ (ih found)

/-! ### One port disabled -/

section
variable {n : Nat} {s : State}

theorem colls_disablePort_of_down (down : (getPort s n).trained = false) : (disablePort n s).colls = s.colls := by
  rw [disablePort_eq, portEnded, down]
  rfl

theorem colls_disablePort_of_trained (up : (getPort s n).trained = true) : (disablePort n s).colls = (endColls n (loseOutcome n s)).colls := by
  rw [disablePort_eq, portEnded, up]
  exact postPort_frame Ev.hawPortDown n [] _ .colls (by decide)

theorem slotIdle_disablePort {k : Nat} (idle : SlotIdle k s) : SlotIdle k (disablePort n s) := by
  cases up : (getPort s n).trained
  · exact idle.of_colls (colls_disablePort_of_down up)
  · refine SlotIdle.of_colls ?_ (colls_disablePort_of_trained up)
    rw [endColls_eq]
    exact slotIdle_endAll _ (idle.of_colls (loseOutcome_frame n s .colls (by decide)))

theorem lookup_disablePort (k : Nat) : lookup k (disablePort n s).colls = lookup k s.colls ∨ SlotIdle k (disablePort n s) := by
  cases up : (getPort s n).trained
  · exact .inl (congrArg (lookup k) (colls_disablePort_of_down up))
  · have colls := colls_disablePort_of_trained up
    have same : (loseOutcome n s).colls = s.colls := loseOutcome_frame n s .colls (by decide)
    rcases lookup_endAll (n := n) (k := k) (s := loseOutcome n s) (loseOutcome n s).colls (loseOutcome n s) with kept | idle
    · exact .inl (by rw [colls, endColls_eq, kept, same])
    · exact .inr (idle.of_colls colls)

end

/-! ### PORT_CTRL, all its ports -/

theorem exec_portCtrl_of_admitted {p : Packet} {s : State} (h : Admitted 0x0506 p s) : exec (.portCtrl p) s = .next (opPortCtrl p (arrived s)) := by
  rw [exec_of_admitted rfl h rfl (by decide) (by decide), runOp, h.2.1]
  rfl

/-- The ports that a PORT_CTRL names. -/
def masked (p : Packet) : List Nat := (List.range 24).filter fun n => bitAt (pN p 0 3) n

theorem mem_masked {p : Packet} {n : Nat} : n ∈ masked p ↔ n < 24 ∧ bitAt (item p.param 0 3) n = true := by
  rw [masked, List.mem_filter, List.mem_range]
  rfl

theorem masked_nodup (p : Packet) : (masked p).Nodup := List.nodup_range.filter _

section
variable {p : Packet} {s : State}

theorem opPortCtrl_of_bad (bad : item p.param 0 3 = 0 ∨ 2 < item p.param 3 1) : opPortCtrl p s = refuse p Status.linkValue s :=
  if_pos (Bool.or_eq_true_iff.2 (bad.imp decide_eq_true decide_eq_true))

theorem opPortCtrl_of_disable (named : item p.param 0 3 ≠ 0) (off : item p.param 3 1 = 0) :
    opPortCtrl p s = accept p ((masked p).foldl (fun s n => disablePort n s) s) := by
  unfold opPortCtrl
  extract_lets mask act
  have off : act = 0 := off
  have named : mask ≠ 0 := named
  rw [if_neg (by simp [off, named])]
  simp only [if_pos off]
  rfl

theorem opPortCtrl_of_start (named : item p.param 0 3 ≠ 0) (on : item p.param 3 1 = 1 ∨ item p.param 3 1 = 2) :
    opPortCtrl p s = accept p ((masked p).foldl (fun s n => startTraining n s) s) := by
  unfold opPortCtrl
  extract_lets mask act
  have on : act = 1 ∨ act = 2 := on
  rw [if_neg (by
    simp only [Bool.or_eq_true, decide_eq_true_eq, not_or]
    exact ⟨named, by omega⟩)]
  simp only [if_neg (show ¬act = 0 by omega)]
  rfl

end

/-- The ports that n's route of a set goes out on, while other ports are disabled. -/
structure PortStands (n k : Nat) (s t : State) : Prop where
  port : getPort t n = getPort s n
  sets : t.sets = s.sets
  less : ∀ m, portActive t m = true → portActive s m = true
  slot : lookup k t.colls = lookup k s.colls ∨ SlotIdle k t

theorem routeTo_of_stands {n k : Nat} {s t : State} (stands : PortStands n k s t) {rts m : Nat} (route : routeTo s rts m = .port n) : routeTo t rts m = .port n := by
  have set : rtSet t rts = rtSet s rts := congrArg (lookupD ({} : RtSet) rts) stands.sets
  have self : portActive t n = portActive s n := congrArg (fun p : HPort => p.state == .active) stands.port
  revert route
  unfold routeTo
  rw [set]
  extract_lets r w
  by_cases own : m = r.self
  · rw [if_pos own, if_pos own]
    nofun
  rw [if_neg own, if_neg own]
  split
  · nofun
  split
  · nofun
  by_cases first : portActive s (fld w 25 5) = true
  · rw [if_pos first]
    intro route
    obtain rfl := Route.port.inj route
    rw [if_pos (self.trans first)]
  · rw [if_neg first, if_neg (mt (stands.less _) first)]
    split
    case isTrue second =>
      intro route
      obtain rfl := Route.port.inj route
      rw [if_pos (self.trans second)]
    case isFalse => nofun

theorem collLoses_of_stands {n k : Nat} {s t : State} (stands : PortStands n k s t) (slot : lookup k t.colls = lookup k s.colls) (loses : collLoses s n k = true) :
    collLoses t n k = true := by
  revert loses
  unfold collLoses
  extract_lets p q
  have same : q = p := stands.port
  rw [same, slot]
  simp only [Bool.or_eq_true, Bool.and_eq_true]
  refine Or.imp_right (And.imp_right fun found => ?_)
  cases held : lookup k s.colls with
  | none => rw [held] at found; cases found
  | some c =>
    rw [held] at found
    simp only [Option.elim_some, List.any_eq_true, beq_iff_eq] at found ⊢
    obtain ⟨m, mem, route⟩ := found
    exact ⟨m, mem, routeTo_of_stands stands route⟩

/-- A trained port that is disabled ends the running collectives that lose packets there. -/
theorem slotIdle_disablePort_of_loses {n k : Nat} {c : CollSlot} {s : State} (up : (getPort s n).trained = true) (found : lookup k s.colls = some c)
    (runs : c.running.isSome = true) (loses : collLoses s n k = true) : SlotIdle k (disablePort n s) := by
  have frame := loseOutcome_frame n s
  have colls : (loseOutcome n s).colls = s.colls := frame .colls (by decide)
  have ports : (loseOutcome n s).ports = s.ports := frame .ports (by decide)
  have stands : PortStands n k s (loseOutcome n s) :=
    ⟨getPort_of_ports ports n, frame .sets (by decide), fun m up => by rwa [portActive, getPort_of_ports ports] at up, .inl (congrArg (lookup k) colls)⟩
  refine SlotIdle.of_colls ?_ (colls_disablePort_of_trained up)
  rw [endColls_eq, colls]
  exact slotIdle_endAll_of_mem (mem_of_lookup found) runs (collLoses_of_stands stands (congrArg (lookup k) colls) loses) _

theorem portActive_disablePort {m n : Nat} {s : State} (up : portActive (disablePort n s) m = true) : portActive s m = true := by
  by_cases same : m = n
  · subst same
    rw [portActive, getPort_disablePort_self] at up
    cases up
  · rwa [portActive, getPort_disablePort_ne same] at up

theorem PortStands.disable {n k m : Nat} {s t : State} (stands : PortStands n k s t) (other : n ≠ m) : PortStands n k s (disablePort m t) where
  port := (getPort_disablePort_ne other t).trans stands.port
  sets := (disablePort_frame m t .sets (by decide)).trans stands.sets
  less := fun j up => stands.less j (portActive_disablePort up)
  slot := by
    rcases stands.slot with same | idle
    · exact (lookup_disablePort (n := m) (s := t) k).imp_left fun kept => kept.trans same
    · exact .inr (slotIdle_disablePort idle)

/-- The collective ends when its port's turn comes, or has ended by then. -/
theorem slotIdle_disableAll {n k : Nat} {c : CollSlot} {s : State} {l : List Nat} (mem : n ∈ l) (up : (getPort s n).trained = true)
    (found : lookup k s.colls = some c) (runs : c.running.isSome = true) (loses : collLoses s n k = true) {t : State} (stands : PortStands n k s t) :
    SlotIdle k (l.foldl (fun s n => disablePort n s) t) := by
  have lasts : ∀ (l : List Nat) (t : State), SlotIdle k t → SlotIdle k (l.foldl (fun s n => disablePort n s) t) := by
    intro l
    induction l with
    | nil => exact fun _ idle => idle
    | cons m l ih => exact fun t idle => ih _ (slotIdle_disablePort idle)
  induction l generalizing t with
  | nil => cases mem
  | cons m l ih =>
    by_cases same : n = m
    · subst same
      refine lasts l _ ?_
      rcases stands.slot with slot | idle
      · exact slotIdle_disablePort_of_loses (stands.port ▸ up) (slot.trans found) runs (collLoses_of_stands stands slot loses)
      · exact slotIdle_disablePort idle
    · exact ih ((List.mem_cons.1 mem).resolve_left same) (stands.disable same)

theorem portCtrlActs (p : Packet) (s : State) (h : Admitted 0x0506 p s) :
    let mask := item p.param 0 3
    let act := item p.param 3 1
    (mask = 0 ∨ 2 < act → exec (.portCtrl p) s = .next (reply p Status.linkValue 0 (arrived s))) ∧
    (mask ≠ 0 → act = 0 →
      ∃ t, exec (.portCtrl p) s = .next t ∧
        (∀ n < 24, bitAt mask n = true → (getPort t n).state = .disabled ∧ (getPort t n).disable = true ∧ (getPort t n).replay = [] ∧
          (getPort t n).sendQ = []) ∧
        (∀ n, bitAt mask n = false → getPort t n = getPort s n) ∧
        (∀ n < 24, bitAt mask n = true → (getPort s n).trained = true → ∀ k c, lookup k s.colls = some c → c.running.isSome = true →
          collLoses s n k = true → ∃ d, lookup k t.colls = some d ∧ d.running = none) ∧
        OnlyChanges [.arrivals, .host, .xing, .store, .ports, .colls, .cap] s t) ∧
    (mask ≠ 0 → act = 1 ∨ act = 2 →
      ∃ t, exec (.portCtrl p) s = .next t ∧ Answered p 0 0 s t ∧
        (∀ n < 24, bitAt mask n = true → (getPort t n).state = (if (planOf s n).expected then .training else .off) ∧ (getPort t n).disable = false ∧
          (getPort t n).lanes = List.range 8 ∧ (getPort t n).replay = [] ∧ (getPort t n).sendQ = []) ∧
        (∀ n, bitAt mask n = false → getPort t n = getPort s n) ∧ OnlyChanges [.arrivals, .host, .ports, .cap] s t) := by
  intro mask act
  have plain : stepOpcode p.opc = false := by rw [h.2.1]; rfl
  have run := exec_portCtrl_of_admitted h
  have out : ∀ n, bitAt mask n = false → n ∉ masked p := fun n clear mem => absurd (mem_masked.1 mem).2 (by rw [clear]; decide)
  refine ⟨fun bad => ?_, fun named off => ?_, fun named on => ?_⟩
  · rw [run, opPortCtrl_of_bad bad]
    rfl
  · rw [opPortCtrl_of_disable named off] at run
    generalize done : (masked p).foldl (fun s n => disablePort n s) (arrived s) = u at run
    have frame := reply_frame_of_plain plain (okStatus p) 0 u
    have visits : OnlyChanges [.cap, .colls, .host, .xing, .store, .ports] (arrived s) u :=
      done ▸ OnlyChanges.foldl (fun s n => (disablePort_frame n s).mono (by decide)) _ _
    have port : ∀ n, getPort (accept p u) n = getPort u n := getPort_of_ports (frame .ports (by decide))
    have others : ∀ m n s, m ≠ n → getPort (disablePort n s) m = getPort s m := fun m n s other => getPort_disablePort_ne other s
    refine ⟨_, run, fun n less set => ?_, fun n clear => ?_, fun n less set up k c found runs loses => ?_,
      (((arrived_frame s).mono (by decide)).step visits (by decide)).step frame (by decide)⟩
    · obtain ⟨v, -, kept⟩ := getPort_foldl_of_mem others (mem_masked.2 ⟨less, set⟩) (masked_nodup p) (r := fun _ => True) (fun _ _ _ => trivial)
        (s := arrived s) trivial
      rw [port, ← done, kept, getPort_disablePort_self]
      exact ⟨rfl, rfl, rfl, rfl⟩
    · rw [port, ← done, getPort_foldl_of_not_mem others (out n clear)]
      rfl
    · have idle : SlotIdle k u := done ▸ slotIdle_disableAll (mem_masked.2 ⟨less, set⟩) up found runs loses (t := arrived s) ⟨rfl, rfl, fun _ => id, .inl rfl⟩
      exact idle.of_colls (frame .colls (by decide))
  · rw [opPortCtrl_of_start named on] at run
    generalize done : (masked p).foldl (fun s n => startTraining n s) (arrived s) = u at run
    have frame := reply_frame_of_plain plain (okStatus p) 0 u
    have visits : OnlyChanges [.cap, .ports] (arrived s) u := done ▸ OnlyChanges.foldl (fun s n => startTraining_frame n s) _ _
    have port : ∀ n, getPort (accept p u) n = getPort u n := getPort_of_ports (frame .ports (by decide))
    have others : ∀ m n s, m ≠ n → getPort (startTraining n s) m = getPort s m := fun m n s other => getPort_startTraining_ne other s
    have ok := okStatus_of_rsv h.rsv
    refine ⟨_, run, ok ▸ answered_reply plain (visits .cad (by decide)) (visits .host (by decide)) (okStatus p) 0, fun n less set => ?_, fun n clear => ?_,
      (((arrived_frame s).mono (by decide)).step visits (by decide)).step frame (by decide)⟩
    · obtain ⟨v, plan, kept⟩ := getPort_foldl_of_mem others (mem_masked.2 ⟨less, set⟩) (masked_nodup p) (r := fun v => planOf v n = planOf s n)
        (fun m v plan => (planOf_of_store (startTraining_frame m v .store (by decide)) n).trans plan) (s := arrived s) rfl
      rw [port, ← done, kept, getPort_startTraining_self, plan]
      exact ⟨rfl, rfl, rfl, rfl, rfl⟩
    · rw [port, ← done, getPort_foldl_of_not_mem others (out n clear)]
      rfl

end Sys2Proof.Machine
end

section
/-! SUPPORT. The link tables: ROUTE_SET and XMAP_SET; LinkTables (R391, R411). -/

namespace Sys2Proof.Machine

/-! ### A run of entries -/

/-- A table after a run of n entries from place i on, entry k of which goes to key first + k. -/
theorem lookup_setRun {α β : Type} (f : Nat → α) (g : α → β) (first d : Nat) : ∀ (n i : Nat) (t : Table β),
    lookup d ((((List.range' i n).map f).zipIdx i).foldl (fun t (x : α × Nat) => upsert (first + x.2) (g x.1) t) t) =
      if first + i ≤ d ∧ d < first + i + n then some (g (f (d - first))) else lookup d t
  | 0, i, t => by
    rw [if_neg (by omega)]
    rfl
  | n + 1, i, t => by
    rw [List.range'_succ, List.map_cons, List.zipIdx_cons, List.foldl_cons, lookup_setRun f g first d n (i + 1)]
    by_cases here : d = first + i
    · subst here
      rw [if_neg (by omega), if_pos (by omega), lookup_upsert_self, Nat.add_sub_cancel_left]
    · rw [lookup_upsert_ne here]
      refine if_congr ?_ rfl rfl
      omega

section
variable {α β : Type} (f : Nat → α) (g : α → β) (first n : Nat) (t : Table β)

/-- The table after the entries of a command with n of them. -/
def setRun : Table β := (((List.range n).map f).zipIdx).foldl (fun t (x : α × Nat) => upsert (first + x.2) (g x.1) t) t

theorem lookup_setRun_in {k : Nat} (less : k < n) : lookup (first + k) (setRun f g first n t) = some (g (f k)) := by
  rw [setRun, List.range_eq_range', lookup_setRun, if_pos (by omega), Nat.add_sub_cancel_left]

theorem lookup_setRun_out {d : Nat} (out : d < first ∨ first + n ≤ d) : lookup d (setRun f g first n t) = lookup d t := by
  rw [setRun, List.range_eq_range', lookup_setRun, if_neg (by omega)]

end

/-! ### A routing set -/

/-- The module with routing set n. -/
def withSet (n : Nat) (r : RtSet) (s : State) : State := { s with sets := upsert n r s.sets }

theorem rtSet_withSet_self (n : Nat) (r : RtSet) (s : State) : rtSet (withSet n r s) n = r := lookupD_upsert_self ..

theorem rtSet_withSet_ne {m n : Nat} (other : m ≠ n) (r : RtSet) (s : State) : rtSet (withSet n r s) m = rtSet s m := lookupD_upsert_ne other ..

theorem withSet_frame (n : Nat) (r : RtSet) (s : State) : OnlyChanges [.sets] s (withSet n r s) := only_sets (.refl _ _) _ (by decide)

/-- What an accepted command that writes a routing set leaves. -/
theorem withSet_accepted {p : Packet} {s : State} (plain : stepOpcode p.opc = false) (rsv : p.rsv = 0) (n : Nat) (r : RtSet) :
    Answered p 0 0 s (accept p (withSet n r (arrived s))) ∧ rtSet (accept p (withSet n r (arrived s))) n = r ∧
      (∀ m, m ≠ n → rtSet (accept p (withSet n r (arrived s))) m = rtSet s m) ∧
      OnlyChanges [.arrivals, .host, .sets] s (accept p (withSet n r (arrived s))) := by
  have frame := reply_frame_of_plain plain (okStatus p) 0 (withSet n r (arrived s))
  have set : ∀ m, rtSet (accept p (withSet n r (arrived s))) m = rtSet (withSet n r (arrived s)) m := fun m =>
    congrArg (lookupD ({} : RtSet) m) (frame .sets (by decide))
  have ok := okStatus_of_rsv rsv
  refine ⟨ok ▸ answered_reply plain rfl rfl (okStatus p) 0, ?_, fun m other => ?_,
    (((arrived_frame s).mono (by decide)).step (withSet_frame n r _) (by decide)).step frame (by decide)⟩
  · rw [set, rtSet_withSet_self]
  · rw [set, rtSet_withSet_ne other]
    rfl

/-! ### ROUTE_SET -/

theorem exec_routeSet_of_admitted {p : Packet} {s : State} (h : Admitted 0x0502 p s) : exec (.routeSet p) s = .next (opRouteSet p (arrived s)) := by
  rw [exec_of_admitted rfl h rfl (by decide) (by decide), runOp, h.2.1]
  rfl

/-- Word k of a ROUTE_SET. -/
def routeWord (p : Packet) (k : Nat) : Nat := item p.payload (4 * k) 4

/-- The items of a ROUTE_SET are in range. -/
def routeFormed (p : Packet) : Prop :=
  item p.param 0 1 < 16 ∧ 1 ≤ item p.param 8 2 ∧ item p.param 8 2 ≤ 1024 ∧ item p.param 6 2 + item p.param 8 2 ≤ 4096 ∧
    item p.param 2 2 < item p.param 4 2 ∧ item p.param 4 2 ≤ 4096 ∧ ∀ k < item p.param 8 2, routeWord p k % 2 ^ 20 = 0 ∧
      (bitAt (routeWord p k) 30 = true ∨ (fld (routeWord p k) 25 5 ≤ 23 ∧ fld (routeWord p k) 20 5 ≤ 23))

/-- The words of a ROUTE_SET that names one of them badly. -/
def routeBadWord (w : Nat) : Bool := w % 2 ^ 20 != 0 || (!bitAt w 30 && (decide (23 < fld w 25 5) || decide (23 < fld w 20 5)))

theorem routeBadWord_iff (w : Nat) : routeBadWord w = false ↔ w % 2 ^ 20 = 0 ∧ (bitAt w 30 = true ∨ (fld w 25 5 ≤ 23 ∧ fld w 20 5 ≤ 23)) := by
  rw [routeBadWord]
  generalize fld w 25 5 = a
  generalize fld w 20 5 = b
  generalize w % 2 ^ 20 = low
  cases bitAt w 30 <;> simp

theorem any_routeBadWord (p : Packet) (n : Nat) : ((List.range n).map (routeWord p)).any routeBadWord = false ↔
    ∀ k < n, routeWord p k % 2 ^ 20 = 0 ∧ (bitAt (routeWord p k) 30 = true ∨ (fld (routeWord p k) 25 5 ≤ 23 ∧ fld (routeWord p k) 20 5 ≤ 23)) := by
  simp only [List.any_eq_false, List.forall_mem_map, List.mem_range, Bool.not_eq_true, routeBadWord_iff]

/-- What ROUTE_SET refuses before it looks at the set's use. -/
def routeRefused (p : Packet) : Bool :=
  decide (15 < pN p 0 1) || decide (pN p 8 2 = 0) || decide (1024 < pN p 8 2) || decide (4096 < pN p 6 2 + pN p 8 2) || decide (pN p 4 2 = 0) ||
    decide (4096 < pN p 4 2) || decide (pN p 4 2 ≤ pN p 2 2) || ((List.range (pN p 8 2)).map (routeWord p)).any routeBadWord

theorem routeRefused_iff (p : Packet) : routeRefused p = false ↔ routeFormed p := by
  unfold routeRefused routeFormed
  rw [← any_routeBadWord]
  unfold pN
  generalize item p.param 8 2 = n
  generalize item p.param 4 2 = members
  generalize item p.param 2 2 = self
  generalize ((List.range n).map (routeWord p)).any routeBadWord = bad
  simp only [Bool.or_eq_false_iff, decide_eq_false_iff_not, not_lt, not_le]
  constructor
  · rintro ⟨⟨⟨⟨⟨⟨⟨a, b⟩, c⟩, d⟩, -⟩, f⟩, g⟩, h⟩
    exact ⟨by omega, by omega, c, d, g, f, h⟩
  · rintro ⟨a, b, c, d, g, f, h⟩
    exact ⟨⟨⟨⟨⟨⟨⟨by omega, by omega⟩, c⟩, d⟩, by omega⟩, f⟩, g⟩, h⟩

/-- The routing set as ROUTE_SET leaves it. -/
def routed (p : Packet) (r : RtSet) : RtSet :=
  { r with self := pN p 2 2, members := pN p 4 2, entries := setRun (routeWord p) (BitVec.ofNat 32) (pN p 6 2) (pN p 8 2) r.entries }

section
variable {p : Packet} {s : State}

theorem opRouteSet_of_bad (bad : ¬routeFormed p) : opRouteSet p s = refuse p Status.linkValue s :=
  if_pos (show routeRefused p = true from (Bool.not_eq_false _).mp (mt (routeRefused_iff p).1 bad))

theorem opRouteSet_of_busy (formed : routeFormed p) (busy : setBusy s (item p.param 0 1) = true) : opRouteSet p s = refuse p Status.linkBusy s :=
  (if_neg (show ¬routeRefused p = true from Bool.not_eq_true _ ▸ (routeRefused_iff p).2 formed)).trans (if_pos busy)

theorem opRouteSet_of_free (formed : routeFormed p) (free : setBusy s (item p.param 0 1) = false) :
    opRouteSet p s = accept p (withSet (item p.param 0 1) (routed p (rtSet s (item p.param 0 1))) s) :=
  (if_neg (show ¬routeRefused p = true from Bool.not_eq_true _ ▸ (routeRefused_iff p).2 formed)).trans (if_neg (Bool.not_eq_true _ ▸ free))

end

theorem routeSetActs (p : Packet) (s : State) (h : Admitted 0x0502 p s) :
    (¬routeFormed p → exec (.routeSet p) s = .next (reply p Status.linkValue 0 (arrived s))) ∧
    (routeFormed p → setBusy s (item p.param 0 1) = true → exec (.routeSet p) s = .next (reply p Status.linkBusy 0 (arrived s))) ∧
    (routeFormed p → setBusy s (item p.param 0 1) = false →
      let n := item p.param 0 1
      let first := item p.param 6 2
      ∃ t, exec (.routeSet p) s = .next t ∧ Answered p 0 0 s t ∧ (rtSet t n).self = item p.param 2 2 ∧ (rtSet t n).members = item p.param 4 2 ∧
        (rtSet t n).xmap = (rtSet s n).xmap ∧
        (∀ k < item p.param 8 2, lookup (first + k) (rtSet t n).entries = some (BitVec.ofNat 32 (routeWord p k))) ∧
        (∀ d, d < first ∨ first + item p.param 8 2 ≤ d → lookup d (rtSet t n).entries = lookup d (rtSet s n).entries) ∧
        (∀ m, m ≠ n → rtSet t m = rtSet s m) ∧ OnlyChanges [.arrivals, .host, .sets] s t) := by
  have plain : stepOpcode p.opc = false := by rw [h.2.1]; rfl
  have run := exec_routeSet_of_admitted h
  refine ⟨fun bad => ?_, fun formed busy => ?_, fun formed free => ?_⟩
  · rw [run, opRouteSet_of_bad bad]
    rfl
  · rw [run, opRouteSet_of_busy (s := arrived s) formed busy]
    rfl
  · rw [opRouteSet_of_free (s := arrived s) formed free] at run
    obtain ⟨answered, set, others, frame⟩ := withSet_accepted (s := s) plain h.rsv (item p.param 0 1) (routed p (rtSet (arrived s) (item p.param 0 1)))
    refine ⟨_, run, answered, ?_, ?_, ?_, fun k less => ?_, fun d out => ?_, others, frame⟩
    · rw [set]; rfl
    · rw [set]; rfl
    · rw [set]; rfl
    · rw [set]
      exact lookup_setRun_in _ _ _ _ _ less
    · rw [set]
      exact lookup_setRun_out _ _ _ _ _ out

/-! ### XMAP_SET -/

theorem exec_xmapSet_of_admitted {p : Packet} {s : State} (h : Admitted 0x0601 p s) : exec (.xmapSet p) s = .next (opXmapSet p (arrived s)) := by
  rw [exec_of_admitted rfl h rfl (by decide) (by decide), runOp, h.2.1]
  rfl

/-- Word k of an XMAP_SET that carries its entries. -/
def mapWord (p : Packet) (k : Nat) : W64 := BitVec.ofNat 64 (item p.payload (8 * k) 8)

/-- The map entries that an XMAP_SET names stand in a set's map. -/
def mapPlaced (p : Packet) : Prop := item p.param 0 1 < 16 ∧ 1 ≤ item p.param 4 2 ∧ item p.param 4 2 ≤ 512 ∧ item p.param 2 2 + item p.param 4 2 ≤ 4096

/-- The map entries that an XMAP_SET carries name members and shapes that are. -/
def mapFormed (p : Packet) (r : RtSet) : Prop := ∀ k < item p.param 4 2, (mapEntry (mapWord p k)).member < r.members ∧ (mapEntry (mapWord p k)).shape ≤ 5

section
variable {p : Packet} {s : State}

/-- What XMAP_SET refuses before it looks at the set's use. -/
def mapRefused (p : Packet) : Bool :=
  decide (15 < pN p 0 1) || decide (pN p 4 2 = 0) || decide (4096 < pN p 2 2 + pN p 4 2) || (decide (pN p 8 8 = 0) && decide (512 < pN p 4 2))

theorem mapRefused_iff (inline : item p.param 8 8 = 0) : mapRefused p = false ↔ mapPlaced p := by
  unfold mapRefused mapPlaced pN
  rw [inline]
  generalize item p.param 4 2 = n
  simp only [Bool.or_eq_false_iff, decide_eq_false_iff_not, decide_true, Bool.true_and, not_lt]
  omega

/-- A map entry that XMAP_SET does not take. -/
def mapBadWord (r : RtSet) (w : W64) : Bool := decide (r.members ≤ (mapEntry w).member) || decide (5 < (mapEntry w).shape)

theorem any_mapBadWord (p : Packet) (r : RtSet) : ((List.range (pN p 4 2)).map (mapWord p)).any (mapBadWord r) = false ↔ mapFormed p r := by
  simp only [List.any_eq_false, List.forall_mem_map, List.mem_range, mapBadWord, Bool.or_eq_true, decide_eq_true_eq, not_or, not_le, not_lt, mapFormed, pN]

/-- The routing set as XMAP_SET leaves it. -/
def mapped (p : Packet) (r : RtSet) : RtSet := { r with xmap := setRun (mapWord p) id (pN p 2 2) (pN p 4 2) r.xmap }

theorem opXmapSet_of_placeless (inline : item p.param 8 8 = 0) (bad : ¬mapPlaced p) : opXmapSet p s = refuse p Status.xchValue s :=
  if_pos (show mapRefused p = true from (Bool.not_eq_false _).mp (mt (mapRefused_iff inline).1 bad))

/-- The set is free of exchanges. -/
theorem mapBusy_iff (s : State) (n : Nat) : (s.exchanges.any fun x => x.2.rts == n) = true ↔ ∃ x ∈ s.exchanges, x.2.rts = n := by
  simp

theorem opXmapSet_of_busy (inline : item p.param 8 8 = 0) (placed : mapPlaced p) (busy : ∃ x ∈ s.exchanges, x.2.rts = item p.param 0 1) :
    opXmapSet p s = refuse p Status.xchBusy s :=
  (if_neg (show ¬mapRefused p = true from Bool.not_eq_true _ ▸ (mapRefused_iff inline).2 placed)).trans (if_pos ((mapBusy_iff ..).2 busy))

/-- What XMAP_SET does with entries from its payload, once their place is checked. -/
def mapInline (p : Packet) (s : State) : State :=
  if ((List.range (pN p 4 2)).map (mapWord p)).any (mapBadWord (rtSet s (pN p 0 1))) then refuse p Status.xchValue s
  else accept p (withSet (pN p 0 1) (mapped p (rtSet s (pN p 0 1))) s)

theorem opXmapSet_of_free (inline : item p.param 8 8 = 0) (placed : mapPlaced p) (free : ¬∃ x ∈ s.exchanges, x.2.rts = item p.param 0 1) :
    opXmapSet p s = mapInline p s := by
  refine (if_neg (show ¬mapRefused p = true from Bool.not_eq_true _ ▸ (mapRefused_iff inline).2 placed)).trans ?_
  refine (if_neg (mt (mapBusy_iff ..).1 free)).trans ?_
  have inline : pN p 8 8 = 0 := inline
  rw [inline]
  rfl

theorem mapInline_of_bad (bad : ¬mapFormed p (rtSet s (item p.param 0 1))) : mapInline p s = refuse p Status.xchValue s :=
  if_pos ((Bool.not_eq_false _).mp (mt (any_mapBadWord p _).1 bad))

theorem mapInline_of_formed (formed : mapFormed p (rtSet s (item p.param 0 1))) :
    mapInline p s = accept p (withSet (item p.param 0 1) (mapped p (rtSet s (item p.param 0 1))) s) :=
  if_neg (Bool.not_eq_true _ ▸ (any_mapBadWord p _).2 formed)

end

theorem xmapSetActs (p : Packet) (s : State) (h : Admitted 0x0601 p s) (inline : item p.param 8 8 = 0) :
    let n := item p.param 0 1
    let first := item p.param 2 2
    let busy := ∃ x ∈ s.exchanges, x.2.rts = n
    (¬mapPlaced p → exec (.xmapSet p) s = .next (reply p Status.xchValue 0 (arrived s))) ∧
    (mapPlaced p → busy → exec (.xmapSet p) s = .next (reply p Status.xchBusy 0 (arrived s))) ∧
    (mapPlaced p → ¬busy → ¬mapFormed p (rtSet s n) → exec (.xmapSet p) s = .next (reply p Status.xchValue 0 (arrived s))) ∧
    (mapPlaced p → ¬busy → mapFormed p (rtSet s n) →
      ∃ t, exec (.xmapSet p) s = .next t ∧ Answered p 0 0 s t ∧ (rtSet t n).entries = (rtSet s n).entries ∧ (rtSet t n).self = (rtSet s n).self ∧
        (rtSet t n).members = (rtSet s n).members ∧ (∀ k < item p.param 4 2, lookup (first + k) (rtSet t n).xmap = some (mapWord p k)) ∧
        (∀ d, d < first ∨ first + item p.param 4 2 ≤ d → lookup d (rtSet t n).xmap = lookup d (rtSet s n).xmap) ∧ (∀ m, m ≠ n → rtSet t m = rtSet s m) ∧
        OnlyChanges [.arrivals, .host, .sets] s t) := by
  intro n first busy
  have plain : stepOpcode p.opc = false := by rw [h.2.1]; rfl
  have run := exec_xmapSet_of_admitted h
  refine ⟨fun bad => ?_, fun placed busy => ?_, fun placed free bad => ?_, fun placed free formed => ?_⟩
  · rw [run, opXmapSet_of_placeless inline bad]
    rfl
  · rw [run, opXmapSet_of_busy (s := arrived s) inline placed busy]
    rfl
  · rw [run, opXmapSet_of_free (s := arrived s) inline placed free, mapInline_of_bad (s := arrived s) bad]
    rfl
  · rw [opXmapSet_of_free (s := arrived s) inline placed free, mapInline_of_formed (s := arrived s) formed] at run
    obtain ⟨answered, set, others, frame⟩ := withSet_accepted (s := s) plain h.rsv (item p.param 0 1) (mapped p (rtSet (arrived s) (item p.param 0 1)))
    refine ⟨_, run, answered, ?_, ?_, ?_, fun k less => ?_, fun d out => ?_, others, frame⟩
    · rw [set]; rfl
    · rw [set]; rfl
    · rw [set]; rfl
    · rw [set]
      exact lookup_setRun_in _ _ _ _ _ less
    · rw [set]
      exact lookup_setRun_out _ _ _ _ _ out

theorem linkTables : Claim.LinkTables := ⟨planSetActs, portCtrlActs, routeSetActs, xmapSetActs⟩

end Sys2Proof.Machine
end

section
/-! SUPPORT. Barriers: their declaration, ARRIVE, release and timeout (R406, R408). -/

namespace Sys2Proof.Machine

/-! ### The table of barriers -/

section
variable {n : Nat} {b c : BarrierRec} {s : State}

theorem ident_of_getBarrier (held : getBarrier s n = some b) : b.ident = n := by
  simpa using List.find?_some held

theorem getBarrier_of_barriers {s t : State} (same : t.barriers = s.barriers) (n : Nat) : getBarrier t n = getBarrier s n :=
  congrArg (List.find? fun b : BarrierRec => b.ident == n) same

theorem getBarrier_putBarrier_self (held : getBarrier s n = some b) (own : c.ident = n) : getBarrier (putBarrier c s) n = some c := by
  unfold getBarrier at held ⊢
  unfold putBarrier
  dsimp only
  generalize s.barriers = l at held ⊢
  induction l with
  | nil => cases held
  | cons x l ih =>
    rw [List.find?_cons] at held
    rw [List.map_cons]
    by_cases here : x.ident = n
    · rw [if_pos (here.trans own.symm), List.find?_cons, beq_iff_eq.2 own]
    · rw [beq_eq_false_iff_ne.2 here] at held
      rw [if_neg (own ▸ here), List.find?_cons, beq_eq_false_iff_ne.2 here]
      exact ih held

theorem getBarrier_putBarrier_ne {m : Nat} (other : m ≠ c.ident) : getBarrier (putBarrier c s) m = getBarrier s m := by
  unfold getBarrier putBarrier
  dsimp only
  induction s.barriers with
  | nil => rfl
  | cons x l ih =>
    rw [List.map_cons, List.find?_cons, List.find?_cons, ih]
    by_cases own : x.ident = c.ident
    · rw [if_pos own, beq_eq_false_iff_ne.2 other.symm, beq_eq_false_iff_ne.2 (own.trans_ne other.symm)]
    · rw [if_neg own]

theorem getBarrier_filter_self (l : List BarrierRec) : (l.filter fun x => x.ident != n).find? (fun b => b.ident == n) = none := by
  simp only [List.find?_eq_none, List.mem_filter]
  rintro x ⟨-, other⟩
  simpa using other

theorem getBarrier_filter_ne {m : Nat} (other : m ≠ n) (l : List BarrierRec) :
    (l.filter fun x => x.ident != n).find? (fun b => b.ident == m) = l.find? fun b => b.ident == m := by
  rw [List.find?_filter]
  refine List.find?_congr fun x _ => ?_
  by_cases own : x.ident = m
  · simp [own, other]
  · simp [own]

end

theorem barrierActs_of_none (n : Nat) (s : State) (free : getBarrier s n = none) :
    exec (.barrierArrive n) s = .next s ∧ exec (.barrierRelease n) s = .next s ∧ exec (.barrierTimeout n) s = .next s := by
  refine ⟨?_, ?_, ?_⟩
  · change execBarrierArrive n s = _
    rw [execBarrierArrive, free]
  · change execBarrierRelease n s = _
    rw [execBarrierRelease, free]
  · change execBarrierTimeout n s = _
    rw [execBarrierTimeout, free]

/-! ### BARRIER -/

/-- A BARRIER as the dispatcher hands it on. -/
def barrierPacket (p : Packet) (s : State) : Packet :=
  { shifted s p with tag := s.arrivals, rsv := if isLate s (shifted s p) then 1 else (shifted s p).rsv }

/-- The items of a BARRIER are in range. -/
def barrierFormed (q : Packet) : Prop :=
  item q.param 2 1 ≤ 15 ∧ 1 ≤ item q.param 4 2 ∧ item q.param 4 2 ≤ 4096 ∧ (item q.param 6 2 ≤ 2047 ∨ item q.param 6 2 = 0xFFFF) ∧
    item q.param 8 1 ≤ 127 ∧ item q.param 16 2 ≤ 2047 ∧ item q.param 18 1 ≤ 127 ∧ item q.param 24 2 ≠ 0

/-- What BARRIER refuses. -/
def barrierRefused (p : Packet) : Bool :=
  decide (15 < pN p 2 1) || decide (pN p 4 2 = 0) || decide (4096 < pN p 4 2) || (decide (2047 < pN p 6 2) && pN p 6 2 != 0xFFFF) || decide (127 < pN p 8 1) ||
    decide (2047 < pN p 16 2) || decide (127 < pN p 18 1) || decide (pN p 24 2 = 0)

theorem barrierRefused_iff (q : Packet) : barrierRefused q = false ↔ barrierFormed q := by
  unfold barrierRefused barrierFormed pN
  simp only [Bool.or_eq_false_iff, Bool.and_eq_false_iff, decide_eq_false_iff_not, bne_eq_false_iff_eq, not_lt]
  constructor
  · rintro ⟨⟨⟨⟨⟨⟨⟨a, b⟩, c⟩, d⟩, e⟩, f⟩, g⟩, h⟩
    exact ⟨a, by omega, c, d, e, f, g, h⟩
  · rintro ⟨a, b, c, d, e, f, g, h⟩
    exact ⟨⟨⟨⟨⟨⟨⟨a, by omega⟩, c⟩, d⟩, e⟩, f⟩, g⟩, h⟩

theorem exec_barrier {p : Packet} {s : State} (serves : Serves s) (opc : p.opc = 0x0505) (passes : checkPacket s p = none)
    (timely : fireRefusal s (shifted s p) = none) :
    exec (.barrier p) s = .next (opBarrier (barrierPacket p s) (logStep (barrierPacket p s) s.arrivals (arrived s))) := by
  have step : stepOpcode p.opc = true := by rw [opc]; rfl
  have code : (shifted s p).opc = 0x0505 := (shifted_opc s p).trans opc
  have same : { p with opc := 0x0505 } = p := by rw [← opc]
  rw [exec_packetRow rfl, same, dispatchPacket_of_serves serves, passes]
  simp only [step, if_true, timely]
  unfold barrierPacket
  cases isLate s (shifted s p)
  · simp only [Bool.false_eq_true, if_false]
    rw [execute, code]
    change Host.Outcome.next (runStep _ _ _ _) = _
    rw [runStep]
    simp only [code]
    rfl
  · simp only [if_true]
    rw [execute]
    simp only [code]
    rw [if_pos (show stepOpcode 0x0505 = true from rfl), dispatchStep, runStep]
    rfl

/-- The barrier that a BARRIER declares. -/
def declaredBarrier (q : Packet) (s : State) : BarrierRec where
  ident := pN q 0 2
  rts := pN q 2 1
  members := pN q 4 2
  tile := pN q 6 2
  knot := pN q 8 1
  target := BitVec.ofNat 32 (pN q 12 4)
  relTile := pN q 16 2
  relKnot := pN q 18 1
  amount := BitVec.ofNat 32 (pN q 20 4)
  timeout := pN q 24 2
  step := BitVec.ofNat 32 (pN q 28 4)
  fire := if q.fire = 0 then s.cad.ct else q.fire
  queue := q.queue
  seq := q.seq
  origin := q.origin
  notify := Packet.notify q
  tag := q.tag
  release := if q.fire = 0 then s.cad.ct else q.fire
  fireLate := q.rsv == 1
  arrived := s.cap.early.filterMap fun c => match c with
    | .arrive m i => if i = pN q 0 2 then some m else none
    | _ => none

theorem opBarrier_of_formed {q : Packet} (formed : barrierFormed q) (s : State) :
    (opBarrier q s).barriers = s.barriers ++ [declaredBarrier q s] ∧ (opBarrier q s).host = s.host ∧ OnlyChanges [.barriers, .cap] s (opBarrier q s) := by
  have taken : ¬barrierRefused q = true := Bool.not_eq_true _ ▸ (barrierRefused_iff q).2 formed
  have act : opBarrier q s = _ := if_neg taken
  rw [act]
  exact ⟨rfl, rfl, only_cap_barriers (.refl [.barriers, .cap] _) _ _ (by decide)⟩

theorem opBarrier_of_bad {q : Packet} (bad : ¬barrierFormed q) (s : State) : opBarrier q s = refuse q Status.linkValue s :=
  if_pos (show barrierRefused q = true from (Bool.not_eq_false _).mp (mt (barrierRefused_iff q).1 bad))

theorem barrierDeclared (p : Packet) (s : State) (serves : Serves s) (opc : p.opc = 0x0505) (passes : checkPacket s p = none)
    (timely : fireRefusal s (shifted s p) = none) :
    let q := barrierPacket p s
    let at_ := if q.fire = 0 then s.cad.ct else q.fire
    (barrierFormed q → ∃ t b, exec (.barrier p) s = .next t ∧ t.barriers = s.barriers ++ [b] ∧ b.ident = item q.param 0 2 ∧ b.members = item q.param 4 2 ∧
      b.tile = item q.param 6 2 ∧ b.knot = item q.param 8 1 ∧ b.target = BitVec.ofNat 32 (item q.param 12 4) ∧ b.relTile = item q.param 16 2 ∧
      b.relKnot = item q.param 18 1 ∧ b.amount = BitVec.ofNat 32 (item q.param 20 4) ∧ b.timeout = item q.param 24 2 ∧ b.fire = at_ ∧ b.release = at_ ∧
      b.sent = false ∧ b.late = false ∧ (b.fireLate = true ↔ q.rsv = 1) ∧ t.host = s.host ∧ OnlyChanges [.arrivals, .barriers, .cap] s t) ∧
    (¬barrierFormed q → exec (.barrier p) s = .next (reply q Status.linkValue 0 (logStep q s.arrivals (arrived s)))) := by
  intro q at_
  have run := exec_barrier serves opc passes timely
  have logged := ((arrived_frame s).mono (m := [.arrivals, .cap]) (by decide)).step (logStep_frame q s.arrivals _) (by decide)
  refine ⟨fun formed => ?_, fun bad => ?_⟩
  · obtain ⟨barriers, host, frame⟩ := opBarrier_of_formed formed (logStep q s.arrivals (arrived s))
    have ct : (logStep q s.arrivals (arrived s)).cad.ct = s.cad.ct := congrArg Cad.ct (logged .cad (by decide))
    have at_eq : (if q.fire = 0 then (logStep q s.arrivals (arrived s)).cad.ct else q.fire) = at_ := congrArg (fun c => if q.fire = 0 then c else q.fire) ct
    refine ⟨_, declaredBarrier q _, run, barriers.trans (congrArg (· ++ [_]) (logged .barriers (by decide))), rfl, rfl, rfl, rfl, rfl, rfl, rfl, rfl, rfl,
      at_eq, at_eq, rfl, rfl, beq_iff_eq, host.trans (logged .host (by decide)), (logged.mono (by decide)).step frame (by decide)⟩
  · rw [run, opBarrier_of_bad bad]
    rfl

/-! ### BARRIER_ARRIVE -/

/-- A member's ARRIVE, once the barrier's own stands at b. -/
theorem arrive_of_held {m : Nat} {b : BarrierRec} {u : State} (held : getBarrier u b.ident = some b) :
    ∃ c, getBarrier (arrive m b u) b.ident = some c ∧ c.sent = b.sent ∧ m ∈ c.arrived ∧ (∀ j ∈ b.arrived, j ∈ c.arrived) ∧
      (m ∉ b.arrived → b.fire.toNat < u.cad.ct.toNat → c.late = true ∧ c.release = ctEdge u.cad.ct 1) ∧
      (u.cad.ct.toNat ≤ b.fire.toNat → c.late = b.late ∧ c.release = b.release) := by
  unfold arrive
  split
  case isTrue has =>
    have mem : m ∈ b.arrived := by simpa using has
    exact ⟨b, held, rfl, mem, fun _ => id, fun out => absurd mem out, fun _ => ⟨rfl, rfl⟩⟩
  case isFalse =>
    split
    case isTrue past =>
      exact ⟨_, getBarrier_putBarrier_self held rfl, rfl, List.mem_cons_self, fun _ => List.mem_cons_of_mem _, fun _ _ => ⟨rfl, rfl⟩, fun early => by omega⟩
    case isFalse early =>
      exact ⟨_, getBarrier_putBarrier_self held rfl, rfl, List.mem_cons_self, fun _ => List.mem_cons_of_mem _, fun _ past => absurd past early,
        fun _ => ⟨rfl, rfl⟩⟩

theorem getBarrier_arrive_ne {m j : Nat} {b : BarrierRec} {u : State} (other : j ≠ b.ident) : getBarrier (arrive m b u) j = getBarrier u j := by
  unfold arrive
  split
  · rfl
  · split <;> exact getBarrier_putBarrier_ne other

/-- The arrival condition of a barrier whose ARRIVE is not sent yet (R406). -/
def arrivalHolds (b : BarrierRec) (s : State) : Prop := b.sent = false ∧ (b.tile = 0xFFFF ∨ waitMet (knot s (tileKnot b.tile b.knot)) b.target = true)

theorem arrivalHolds_iff (b : BarrierRec) (s : State) :
    (!b.sent && (b.tile == 0xFFFF || waitMet (knot s (tileKnot b.tile b.knot)) b.target)) = true ↔ arrivalHolds b s := by
  simp [arrivalHolds]

theorem barrierArrives (n : Nat) (b : BarrierRec) (s : State) (held : getBarrier s n = some b) :
    let self := (rtSet s b.rts).self
    (arrivalHolds b s → ∃ t c, exec (.barrierArrive n) s = .next t ∧ getBarrier t n = some c ∧ c.sent = true ∧ self ∈ c.arrived ∧
      (∀ m ∈ b.arrived, m ∈ c.arrived) ∧
      (self ∉ b.arrived → b.fire.toNat < s.cad.ct.toNat → c.late = true ∧ c.release = ctEdge s.cad.ct 1) ∧
      (s.cad.ct.toNat ≤ b.fire.toNat → c.late = b.late ∧ c.release = b.release) ∧ (∀ m, m ≠ n → getBarrier t m = getBarrier s m) ∧ HostSame s t ∧
      OnlyChanges [.barriers, .ports, .host, .xing, .store] s t) ∧
    (¬arrivalHolds b s → exec (.barrierArrive n) s = .next s) := by
  intro self
  have run : exec (.barrierArrive n) s = execBarrierArrive n s := rfl
  rw [execBarrierArrive, held] at run
  refine ⟨fun holds => ?_, fun idle => run.trans (if_neg (mt (arrivalHolds_iff b s).1 idle))⟩
  have run := run.trans (if_pos ((arrivalHolds_iff b s).2 holds))
  have ident := ident_of_getBarrier held
  generalize sends : sendControl b.rts b.members b.ident b.step [4, (rtSet s b.rts).self, b.ident] (putBarrier { b with sent := true } s) = u at run
  have frame : OnlyChanges [.ports, .host, .xing, .store] (putBarrier { b with sent := true } s) u := sends ▸ sendControl_frame _ _ _ _ _ _
  have barriers : ∀ m, getBarrier u m = getBarrier (putBarrier { b with sent := true } s) m := getBarrier_of_barriers (frame .barriers (by decide))
  have ct : u.cad.ct = s.cad.ct := congrArg Cad.ct (frame .cad (by decide))
  have own : getBarrier u ({ b with sent := true } : BarrierRec).ident = some { b with sent := true } := by
    rw [barriers]
    exact getBarrier_putBarrier_self (ident.symm ▸ held) rfl
  obtain ⟨c, found, sent, in_, more, late, early⟩ := arrive_of_held (m := self) own
  rw [ct] at late early
  refine ⟨_, c, run, ident ▸ found, sent, in_, more, late, early, fun m other => ?_, ?_, ?_⟩
  · rw [getBarrier_arrive_ne (ident.symm ▸ other), barriers, getBarrier_putBarrier_ne (ident.symm ▸ other)]
  · have sendsSame : HostSame (putBarrier { b with sent := true } s) u := sends ▸ sendControl_same _ _ _ _ _ _
    exact (congrArg HostIf.butLog (arrive_frame self _ u .host (by decide))).trans sendsSame
  · exact (((putBarrier_frame _ s).mono (by decide)).step frame (by decide)).step (arrive_frame _ _ u) (by decide)

/-! ### The reply of a barrier -/

theorem barrierReply_barriers (b : BarrierRec) (st : BitVec 16) (s : State) :
    (barrierReply b st s).barriers = s.barriers.filter fun x => x.ident != b.ident := by
  unfold barrierReply
  extract_lets u
  exact stepReply_frame _ _ _ _ _ _ _ _ _ _ u .barriers (by decide)

theorem getBarrier_barrierReply_self (b : BarrierRec) (st : BitVec 16) (s : State) : getBarrier (barrierReply b st s) b.ident = none := by
  rw [getBarrier, barrierReply_barriers]
  exact getBarrier_filter_self _

theorem getBarrier_barrierReply_ne {m : Nat} {b : BarrierRec} (other : m ≠ b.ident) (st : BitVec 16) (s : State) :
    getBarrier (barrierReply b st s) m = getBarrier s m := by
  rw [getBarrier, barrierReply_barriers]
  exact getBarrier_filter_ne other _

/-- The reply of a barrier that has not replied before. -/
theorem barrierReply_host {b : BarrierRec} {s : State} (first : hasReplied b.tag s = false) (st : BitVec 16) :
    (barrierReply b st s).host.events = s.host.events ∧
      ∃ r, (barrierReply b st s).host.replies = s.host.replies ++ [r] ∧ r.seq = b.seq ∧ r.queue = b.queue ∧ r.status = st := by
  unfold barrierReply
  extract_lets u
  have first : hasReplied b.tag u = false := first
  rw [stepReply, if_neg (Bool.not_eq_true _ ▸ first)]
  exact ⟨rfl, _, rfl, rfl, rfl, rfl⟩

/-! ### CT comes to an event's time -/

theorem comeTo_cadOnly {k : DueKey} {t : CtWord} {s s₀ : State} (comes : comeTo k t s = some s₀) : OnlyChanges [.cad] s s₀ := by
  have frame := comeTo_frame k t s
  rw [comes] at frame
  exact frame

theorem timeTo_cadOnly {t : CtWord} {s s₀ : State} (comes : timeTo t s = some s₀) : OnlyChanges [.cad] s s₀ := by
  have frame := timeTo_frame t s
  rw [comes] at frame
  exact frame

/-! ### BARRIER_RELEASE -/

theorem knot_of_knots {s t : State} (same : t.knots = s.knots) (k : Nat) : knot t k = knot s k := congrArg (lookupD (0 : W32) k) same

theorem knot_outerTie_self (k : Nat) (v : W32) (s : State) : knot (outerTie k v s) k = knot s k + v := lookupD_upsert_self ..

theorem knot_outerTie_ne {j k : Nat} (other : j ≠ k) (v : W32) (s : State) : knot (outerTie k v s) j = knot s j := lookupD_upsert_ne other ..

/-- The release tie and BARRIER_LATE of a barrier. -/
def barrierTied (b : BarrierRec) (s : State) : State :=
  if b.late then postFull Ev.barrierLate b.origin 0xFFFFFFFF 0 b.step [] (outerTie (tileKnot b.relTile b.relKnot) b.amount s)
  else outerTie (tileKnot b.relTile b.relKnot) b.amount s

theorem releaseBarrier_eq (b : BarrierRec) (s : State) :
    releaseBarrier b s = barrierReply b (if b.fireLate then Status.fireLate else Status.ok) (barrierTied b s) := rfl

/-- BARRIER_LATE of a barrier that is late leaves the tie as it is. -/
theorem barrierTied_frame (b : BarrierRec) (s : State) :
    OnlyChanges [.host, .xing, .store] (outerTie (tileKnot b.relTile b.relKnot) b.amount s) (barrierTied b s) := by
  unfold barrierTied
  split
  · exact (postFull_frame _ _ _ _ _ _ _).mono (by decide)
  · exact .refl _ _

theorem barrierTied_replies (b : BarrierRec) (s : State) : (barrierTied b s).host.replies = s.host.replies := by
  unfold barrierTied
  split
  · exact replies_of_butLog (postFull_same _ _ _ _ _ _ (outerTie (tileKnot b.relTile b.relKnot) b.amount s))
  · rfl

theorem barrierTied_raises {b : BarrierRec} (late : b.late = true) (s : State) : Raises Ev.barrierLate s (barrierTied b s) := by
  rw [barrierTied, if_pos late]
  exact (raises_postFull _ _ _ _ _ _ (outerTie (tileKnot b.relTile b.relKnot) b.amount s)).of_same rfl rfl id rfl

theorem barrierReleases (n : Nat) (b : BarrierRec) (s : State) (held : getBarrier s n = some b) :
    (∀ s₀, allArrived b = true → comeTo (b.release.toNat, 2, b.tag) b.release s = some s₀ →
      ∃ t, exec (.barrierRelease n) s = .next t ∧ getBarrier t n = none ∧ (∀ m, m ≠ n → getBarrier t m = getBarrier s m) ∧ t.cad = s₀.cad ∧
        knot t (tileKnot b.relTile b.relKnot) = knot s (tileKnot b.relTile b.relKnot) + b.amount ∧
        (∀ k, k ≠ tileKnot b.relTile b.relKnot → knot t k = knot s k) ∧
        (hasReplied b.tag s = false → (b.late = true → Raises Ev.barrierLate s t) ∧
          ∃ r, t.host.replies = s.host.replies ++ [r] ∧ r.seq = b.seq ∧ r.queue = b.queue ∧ r.status = if b.fireLate then Status.fireLate else Status.ok) ∧
        OnlyChanges [.barriers, .knots, .plays, .host, .xing, .store, .cap, .cad] s t) ∧
    (allArrived b = false ∨ comeTo (b.release.toNat, 2, b.tag) b.release s = none → exec (.barrierRelease n) s = .next s) := by
  have run : exec (.barrierRelease n) s = execBarrierRelease n s := rfl
  rw [execBarrierRelease, held] at run
  obtain rfl := ident_of_getBarrier held
  refine ⟨fun s₀ all comes => ?_, fun waits => ?_⟩
  · simp only [all, Bool.not_true, Bool.false_eq_true, if_false, comes] at run
    have cad := comeTo_cadOnly comes
    have host : s₀.host = s.host := cad .host (by decide)
    have tie := outerTie_frame (tileKnot b.relTile b.relKnot) b.amount s₀
    have late := barrierTied_frame b s₀
    have told := barrierReply_frame b (if b.fireLate then Status.fireLate else Status.ok) (barrierTied b s₀)
    rw [releaseBarrier_eq] at run
    have knots : ∀ k, knot (barrierReply b (if b.fireLate then Status.fireLate else Status.ok) (barrierTied b s₀)) k =
        knot (outerTie (tileKnot b.relTile b.relKnot) b.amount s₀) k := fun k =>
      knot_of_knots ((told .knots (by decide)).trans (late .knots (by decide))) k
    have before : ∀ k, knot s₀ k = knot s k := knot_of_knots (cad .knots (by decide))
    refine ⟨_, run, getBarrier_barrierReply_self .., fun m other => ?_, ?_, ?_, fun k other => ?_, fun first => ?_,
      (((cad.mono (by decide)).step tie (by decide)).step late (by decide)).step told (by decide)⟩
    · exact (getBarrier_barrierReply_ne other ..).trans
        (getBarrier_of_barriers ((late .barriers (by decide)).trans ((tie .barriers (by decide)).trans (cad .barriers (by decide)))) m)
    · exact (told .cad (by decide)).trans ((late .cad (by decide)).trans (tie .cad (by decide)))
    · rw [knots, knot_outerTie_self, before]
    · rw [knots, knot_outerTie_ne other, before]
    · have same : (barrierTied b s₀).cap = s.cap := (late .cap (by decide)).trans ((tie .cap (by decide)).trans (cad .cap (by decide)))
      have first : hasReplied b.tag (barrierTied b s₀) = false := (congrArg (fun c : Cap => c.log.any _) same).trans first
      obtain ⟨events, r, replies, seq, queue, status⟩ := barrierReply_host first (if b.fireLate then Status.fireLate else Status.ok)
      refine ⟨fun isLate => ?_, r, ?_, seq, queue, status⟩
      · have stage : stageDone s 2 = stageDone s₀ 2 := by rw [stageDone, stageDone, show s₀.bu = s.bu from cad .bu (by decide)]
        refine (barrierTied_raises isLate s₀).of_same stage (congrArg HostIf.events host) (fun calm => ?_) events
        rwa [Calm, show s₀.xing = s.xing from cad .xing (by decide)]
      · rw [replies, barrierTied_replies, host]
  · refine run.trans ?_
    rcases waits with missing | far
    · simp only [missing, Bool.not_false, if_true]
    · simp only [far, ite_self]

/-! ### BARRIER_TIMEOUT -/

theorem barrierTimesOut (n : Nat) (b : BarrierRec) (s : State) (held : getBarrier s n = some b) :
    (∀ s₀, allArrived b = false → timeTo (b.fire + beats b.timeout) s = some s₀ →
      ∃ t, exec (.barrierTimeout n) s = .next t ∧ getBarrier t n = none ∧ (∀ m, m ≠ n → getBarrier t m = getBarrier s m) ∧ t.cad = s₀.cad ∧
        (hasReplied b.tag s = false → ∃ r, t.host.replies = s.host.replies ++ [r] ∧ r.seq = b.seq ∧ r.queue = b.queue ∧
          r.status = Status.barrierTimeout) ∧ OnlyChanges [.barriers, .host, .xing, .store, .cap, .cad] s t) ∧
    (allArrived b = true ∨ timeTo (b.fire + beats b.timeout) s = none → exec (.barrierTimeout n) s = .next s) := by
  have run : exec (.barrierTimeout n) s = execBarrierTimeout n s := rfl
  rw [execBarrierTimeout, held] at run
  obtain rfl := ident_of_getBarrier held
  refine ⟨fun s₀ missing comes => ?_, fun waits => ?_⟩
  · simp only [missing, Bool.false_eq_true, if_false, comes] at run
    have cad := timeTo_cadOnly comes
    have told := barrierReply_frame b Status.barrierTimeout s₀
    refine ⟨_, run, getBarrier_barrierReply_self .., fun m other => ?_, told .cad (by decide), fun first => ?_, (cad.mono (by decide)).step told (by decide)⟩
    · exact (getBarrier_barrierReply_ne other ..).trans (getBarrier_of_barriers (cad .barriers (by decide)) m)
    · have first : hasReplied b.tag s₀ = false := (congrArg (fun c : Cap => c.log.any _) (cad .cap (by decide))).trans first
      obtain ⟨-, r, replies, reply⟩ := barrierReply_host first Status.barrierTimeout
      exact ⟨r, replies.trans (congrArg (fun h : HostIf => h.replies ++ [r]) (cad .host (by decide))), reply⟩
  · refine run.trans ?_
    rcases waits with all | far
    · simp only [all, if_true]
    · simp only [far, ite_self]

theorem barriersRelease : Claim.BarriersRelease :=
  ⟨barrierDeclared, barrierActs_of_none, barrierArrives, barrierReleases, barrierTimesOut⟩

/-- Settles O23: each table command is refused or replaces its entries, a disabled port ends the collectives it carries, and a barrier goes from its declaration over
its ARRIVEs to its release or its timeout. -/
theorem linkTablesAndBarriers : Obligations.LinkTablesAndBarriers := ⟨linkTables, barriersRelease⟩

end Sys2Proof.Machine
end

section
/-! SUPPORT. The fuses, the DOE mailbox and the debug registers (R535 to R537, R543, R547). -/

namespace Sys2Proof.Machine

/-! ### KEY_REVOKE -/

theorem store_of_butLedger {x y : Store} (same : x.butLedger = y.butLedger) : x = { y with ledger := x.ledger, seq := x.seq } := by
  cases x
  cases y
  simp only [Store.butLedger, Store.mk.injEq] at same ⊢
  tauto

theorem hostReadBytes_of_host {s t : State} (same : t.host = s.host) (port a n : Nat) : hostReadBytes t port a n = hostReadBytes s port a n := by
  induction n generalizing a with
  | zero => rfl
  | succ n ih => rw [hostReadBytes, hostReadBytes, ih, hostRead, hostRead, same]

theorem srcRead_arrived (s : State) (a n : Nat) : srcRead (arrived s) a n = srcRead s a n := by
  unfold srcRead
  split
  · exact hostReadBytes_of_host (s := s) (t := arrived s) rfl ..
  · exact hostReadBytes_of_host (s := s) (t := arrived s) rfl ..
  · exact readBytes_arrived ..

/-- A parity fault of a granule is a record of class 1, the event of its retirement below it. -/
theorem records_engineFault (gone : Bool) (a origin : Nat) (play step : W32) (s : State) :
    Records 1 s (granuleFault a origin play step (if gone then postFull Ev.retiredAccess origin 0xFFFFFFFF 0 0 [] s else s)) := by
  cases gone
  · exact records_record rfl id 1 0 1 origin _ _ play step _
  · exact (records_record rfl id 1 0 1 origin _ _ play step _).of_postFull rfl id

/-- What an engine's read can be: refused by a crossing, a parity fault with its record, or the bytes. -/
theorem engineRead_cases (dom origin a n : Nat) (s : State) :
    engineRead dom origin a n s = (.gone Status.clockStopped, s) ∨ engineRead dom origin a n s = (.got (srcRead s a n), s) ∨
      ∃ u, engineRead dom origin a n s = (.gone Status.parityFault, u) ∧ Records 1 s u := by
  unfold engineRead
  extract_lets gone
  split
  · exact .inl rfl
  · split
    · exact .inr (.inl rfl)
    · exact .inr (.inr ⟨_, rfl, records_engineFault gone a origin 0 0 s⟩)

theorem exec_keyRevoke_of_admitted {p : Packet} {s : State} (h : Admitted 0x0A01 p s) : exec (.keyRevoke p) s = .next (opKeyRevoke p (arrived s)) := by
  rw [exec_of_admitted rfl h rfl (by decide) (by decide), runOp, h.2.1]
  rfl

section
variable {p : Packet} {s : State}

theorem opKeyRevoke_of_place (bad : destOk s (item p.param 0 8) (item p.param 8 4) false = false) : opKeyRevoke p s = refuse p Status.addrRange s :=
  if_pos (by rw [bad]; rfl)

theorem opKeyRevoke_of_length (placed : destOk s (item p.param 0 8) (item p.param 8 4) false = true) (other : item p.param 8 4 ≠ 5325) :
    opKeyRevoke p s = refuse p Status.tokenInvalid s := (if_neg (by rw [placed]; decide)).trans (if_pos other)

section
variable (placed : destOk s (item p.param 0 8) 5325 false = true) (length : item p.param 8 4 = 5325)
include placed length

theorem opKeyRevoke_of_gone {st : BitVec 16} {u : State} (read : engineRead 12 p.origin (item p.param 0 8) 5325 s = (.gone st, u)) :
    opKeyRevoke p s = refuse p st u := by
  refine (if_neg (by rw [length, placed]; decide)).trans ((if_neg (not_not.2 length)).trans ?_)
  rw [length, read]

theorem opKeyRevoke_of_got {l : List Byte} {u : State} (read : engineRead 12 p.origin (item p.param 0 8) 5325 s = (.got l, u)) :
    opKeyRevoke p s = revokeBy p l u := by
  refine (if_neg (by rw [length, placed]; decide)).trans ((if_neg (not_not.2 length)).trans ?_)
  rw [length, read]

end

section
variable {tok : List Byte}

theorem lastSlot_iff : ((List.range 4).all fun j => j == item tok 8 1 || slotRevoked s j) = true ↔ ∀ j < 4, j ≠ item tok 8 1 → slotRevoked s j = true := by
  simp only [List.all_eq_true, List.mem_range, Bool.or_eq_true, beq_iff_eq, or_iff_not_imp_left]

theorem revokeBy_of_bad (bad : revokeOk s tok = false) : revokeBy p tok s = refuse p Status.tokenInvalid s := if_pos (by rw [bad]; rfl)

variable (ok : revokeOk s tok = true)
include ok

theorem revokeBy_of_revoked (gone : slotRevoked s (item tok 8 1) = true) : revokeBy p tok s = accept p s :=
  (if_neg (by rw [ok]; decide)).trans (if_pos gone)

variable (live : slotRevoked s (item tok 8 1) = false)
include live

theorem revokeBy_of_last (last : ∀ j < 4, j ≠ item tok 8 1 → slotRevoked s j = true) : revokeBy p tok s = refuse p Status.lastSlot s :=
  (if_neg (by rw [ok]; decide)).trans ((if_neg (by rw [live]; decide)).trans (if_pos ((lastSlot_iff).2 last)))

/-- The module with a slot revoked, and its event. -/
def slotGone (p : Packet) (k : Nat) (s : State) : State :=
  postFull Ev.keyRevoked p.origin 0xFFFFFFFF 0 0 [] { s with store := { s.store with revoked := k :: s.store.revoked } }

theorem revokeBy_of_other (more : ∃ j < 4, j ≠ item tok 8 1 ∧ slotRevoked s j = false) : revokeBy p tok s = accept p (slotGone p (item tok 8 1) s) := by
  refine (if_neg (by rw [ok]; decide)).trans ((if_neg (by rw [live]; decide)).trans (if_neg ?_))
  rw [lastSlot_iff]
  obtain ⟨j, less, other, free⟩ := more
  exact fun all => absurd (all j less other) (by rw [free]; decide)

end

end

/-- A slot that is revoked: the store, the event and the reply. -/
theorem slotGone_accepted {p : Packet} {s : State} (plain : stepOpcode p.opc = false) (rsv : p.rsv = 0) (k : Nat) :
    let t := accept p (slotGone p k (arrived s))
    t.store = { s.store with revoked := k :: s.store.revoked, ledger := t.store.ledger, seq := t.store.seq } ∧
      t.host.replies = s.host.replies ++ [answerOf p 0 0 s] ∧ Raises Ev.keyRevoked s t ∧ OnlyChanges [.arrivals, .store, .host, .xing] s t := by
  intro t
  have told := reply_frame_of_plain plain (okStatus p) 0 (slotGone p k (arrived s))
  have event := postFull_frame Ev.keyRevoked p.origin 0xFFFFFFFF 0 0 [] { arrived s with store := { s.store with revoked := k :: s.store.revoked } }
  have same := postFull_same Ev.keyRevoked p.origin 0xFFFFFFFF 0 0 [] { arrived s with store := { s.store with revoked := k :: s.store.revoked } }
  have raises := raises_postFull Ev.keyRevoked p.origin 0xFFFFFFFF 0 0 [] { arrived s with store := { s.store with revoked := k :: s.store.revoked } }
  have kept := postFull_butLedger Ev.keyRevoked p.origin 0xFFFFFFFF 0 0 [] { arrived s with store := { s.store with revoked := k :: s.store.revoked } }
  have set : OnlyChanges [.store] (arrived s) { arrived s with store := { s.store with revoked := k :: s.store.revoked } } :=
    only_store (.refl _ _) _ (by decide)
  change OnlyChanges _ _ (slotGone p k (arrived s)) at event
  change HostSame _ (slotGone p k (arrived s)) at same
  change Raises _ _ (slotGone p k (arrived s)) at raises
  change (slotGone p k (arrived s)).store.butLedger = _ at kept
  have ok := okStatus_of_rsv rsv
  have cad : (slotGone p k (arrived s)).cad = s.cad := event .cad (by decide)
  have reply : t = replyTo p.queue p.seq p.opc p.origin (Packet.notify p) (okStatus p) 0 (slotGone p k (arrived s)) := reply_plain plain ..
  refine ⟨?_, ?_, ?_, (((arrived_frame s).mono (by decide)).step set (by decide)).step event (by decide) |>.step told (by decide)⟩
  · have store : t.store = (slotGone p k (arrived s)).store := told .store (by decide)
    rw [store]
    exact store_of_butLedger kept
  · have replies : (slotGone p k (arrived s)).host.replies = s.host.replies := replies_of_butLog same
    rw [reply]
    change (slotGone p k (arrived s)).host.replies ++ [_] = _
    rw [replies, ok, answerOf, cad]
    rfl
  · refine raises.of_same rfl rfl id ?_
    rw [reply]
    rfl

theorem keyRevokeActs (p : Packet) (s : State) (h : Admitted 0x0A01 p s) :
    let a := item p.param 0 8
    let tok := srcRead s a 5325
    let k := item tok 8 1
    (destOk s a (item p.param 8 4) false = false → exec (.keyRevoke p) s = .next (reply p Status.addrRange 0 (arrived s))) ∧
    (destOk s a (item p.param 8 4) false = true → item p.param 8 4 ≠ 5325 → exec (.keyRevoke p) s = .next (reply p Status.tokenInvalid 0 (arrived s))) ∧
    (destOk s a 5325 false = true → item p.param 8 4 = 5325 →
      let r := engineRead 12 p.origin a 5325 (arrived s)
      (∀ st, r.1 = .gone st → (st = Status.parityFault ∨ st = Status.clockStopped) ∧ exec (.keyRevoke p) s = .next (reply p st 0 r.2) ∧
        (st = Status.parityFault → Records 1 s r.2) ∧ (st = Status.clockStopped → r.2 = arrived s) ∧
        OnlyChanges [.arrivals, .store, .host, .xing] s r.2) ∧
      (∀ x, r.1 = .got x → x = tok ∧ r.2 = arrived s) ∧
      (r.1 = .got tok →
        (revokeOk s tok = false → exec (.keyRevoke p) s = .next (reply p Status.tokenInvalid 0 (arrived s))) ∧
        (revokeOk s tok = true → slotRevoked s k = true → exec (.keyRevoke p) s = .next (reply p 0 0 (arrived s))) ∧
        (revokeOk s tok = true → slotRevoked s k = false → (∀ j < 4, j ≠ k → slotRevoked s j = true) →
          exec (.keyRevoke p) s = .next (reply p Status.lastSlot 0 (arrived s))) ∧
        (revokeOk s tok = true → slotRevoked s k = false → (∃ j < 4, j ≠ k ∧ slotRevoked s j = false) → ∃ t, exec (.keyRevoke p) s = .next t ∧
          t.store = { s.store with revoked := k :: s.store.revoked, ledger := t.store.ledger, seq := t.store.seq } ∧
          t.host.replies = s.host.replies ++ [answerOf p 0 0 s] ∧ Raises Ev.keyRevoked s t ∧ OnlyChanges [.arrivals, .store, .host, .xing] s t))) := by
  intro a tok k
  have plain : stepOpcode p.opc = false := by rw [h.2.1]; rfl
  have run := exec_keyRevoke_of_admitted h
  have ok := okStatus_of_rsv h.rsv
  have token : srcRead (arrived s) a 5325 = tok := srcRead_arrived ..
  refine ⟨fun bad => ?_, fun placed other => ?_, fun placed length => ?_⟩
  · rw [run, opKeyRevoke_of_place (s := arrived s) bad]
    rfl
  · rw [run, opKeyRevoke_of_length (s := arrived s) placed other]
    rfl
  · intro r
    have frame : OnlyChanges [.arrivals, .store, .host, .xing] s r.2 :=
      ((arrived_frame s).mono (by decide)).step (engineRead_frame 12 p.origin a 5325 (arrived s)) (by decide)
    rcases engineRead_cases 12 p.origin a 5325 (arrived s) with shut | got | ⟨u, fault, recorded⟩
    · have gone := opKeyRevoke_of_gone (s := arrived s) placed length shut
      simp only [r, shut] at frame ⊢
      refine ⟨fun st stop => ?_, nofun, nofun⟩
      obtain rfl := EngineRead.gone.inj stop
      exact ⟨.inr rfl, by rw [run, gone]; rfl, fun other => absurd other (by decide), fun _ => trivial, frame⟩
    · have read := opKeyRevoke_of_got (s := arrived s) placed length got
      rw [token] at got read
      simp only [r, got]
      refine ⟨nofun, fun x found => ⟨(EngineRead.got.inj found).symm, trivial⟩, fun _ => ⟨fun bad => ?_, fun good gone => ?_, fun good live last => ?_,
        fun good live more => ?_⟩⟩
      · rw [run, read, revokeBy_of_bad (s := arrived s) bad]
        rfl
      · rw [run, read, revokeBy_of_revoked (s := arrived s) good gone, accept, ok]
      · rw [run, read, revokeBy_of_last (s := arrived s) good live last]
        rfl
      · rw [read, revokeBy_of_other (s := arrived s) good live more] at run
        exact ⟨_, run, slotGone_accepted plain h.rsv k⟩
    · have gone := opKeyRevoke_of_gone (s := arrived s) placed length fault
      simp only [r, fault] at frame ⊢
      refine ⟨fun st stop => ?_, nofun, nofun⟩
      obtain rfl := EngineRead.gone.inj stop
      exact ⟨.inl rfl, by rw [run, gone]; rfl, fun _ => recorded, fun other => absurd other (by decide), frame⟩

/-! ### ROLLBACK_SET and DEBUG_LOCK -/

theorem exec_rollbackSet_of_admitted {p : Packet} {s : State} (h : Admitted 0x0A02 p s) : exec (.rollbackSet p) s = .next (opRollbackSet p (arrived s)) := by
  rw [exec_of_admitted rfl h rfl (by decide) (by decide), runOp, h.2.1]
  rfl

theorem exec_debugLock_of_admitted {p : Packet} {s : State} (h : Admitted 0x0A03 p s) : exec (.debugLock p) s = .next (opDebugLock p (arrived s)) := by
  rw [exec_of_admitted rfl h rfl (by decide) (by decide), runOp, h.2.1]
  rfl

/-- What the running image of a kind carries (0 with none). -/
def imageLimit (s : State) (k : Nat) : Nat := ((lookup k s.bu.images).map (·.arb)).getD 0

theorem imageLimit_eq (s : State) (k : Nat) : imageLimit s k = match lookup k s.bu.images with | some x => x.arb | none => 0 := by
  rw [imageLimit]
  cases lookup k s.bu.images <;> rfl

section
variable {p : Packet} {s : State}

theorem opRollbackSet_of_kind (bad : item p.param 0 1 = 0 ∨ 4 < item p.param 0 1) : opRollbackSet p s = refuse p Status.header s :=
  if_pos (Bool.or_eq_true_iff.2 (bad.imp decide_eq_true decide_eq_true))

variable (low : 1 ≤ item p.param 0 1) (high : item p.param 0 1 ≤ 4)
include low high

theorem rollbackKind : ¬(decide (item p.param 0 1 = 0) || decide (4 < item p.param 0 1)) = true := by
  simp only [Bool.or_eq_true, decide_eq_true_eq]
  omega

theorem opRollbackSet_of_limit (above : 64 < item p.param 1 1 ∨ imageLimit s (item p.param 0 1) < item p.param 1 1) :
    opRollbackSet p s = reply p Status.fuseLimit (BitVec.ofNat 64 (lookupD 0 (item p.param 0 1) s.store.arb)) s :=
  (if_neg (rollbackKind low high)).trans (if_pos (Bool.or_eq_true_iff.2 (above.imp decide_eq_true decide_eq_true)))

variable (small : item p.param 1 1 ≤ 64) (carried : item p.param 1 1 ≤ imageLimit s (item p.param 0 1))
include small carried

theorem opRollbackSet_of_carried : opRollbackSet p s =
    if item p.param 1 1 ≤ lookupD 0 (item p.param 0 1) s.store.arb then reply p (okStatus p) (BitVec.ofNat 64 (lookupD 0 (item p.param 0 1) s.store.arb)) s
    else reply p (okStatus p) (BitVec.ofNat 64 (item p.param 1 1))
      { s with store := { s.store with arb := upsert (item p.param 0 1) (item p.param 1 1) s.store.arb } } := by
  refine (if_neg (rollbackKind low high)).trans (if_neg ?_)
  rw [Bool.or_eq_true, decide_eq_true_eq, decide_eq_true_eq]
  rintro (above | above)
  · exact absurd above (not_lt.2 small)
  · exact absurd above (not_lt.2 carried)

end

theorem rollbackSetActs (p : Packet) (s : State) (h : Admitted 0x0A02 p s) :
    let k := item p.param 0 1
    let v := item p.param 1 1
    let now := lookupD 0 k s.store.arb
    (k = 0 ∨ 4 < k → exec (.rollbackSet p) s = .next (reply p Status.header 0 (arrived s))) ∧
    (1 ≤ k → k ≤ 4 → 64 < v ∨ imageLimit s k < v → exec (.rollbackSet p) s = .next (reply p Status.fuseLimit (BitVec.ofNat 64 now) (arrived s))) ∧
    (1 ≤ k → k ≤ 4 → v ≤ 64 → v ≤ imageLimit s k → ∃ t, exec (.rollbackSet p) s = .next t ∧ lookupD 0 k t.store.arb = max now v ∧
      (∀ j, j ≠ k → lookupD 0 j t.store.arb = lookupD 0 j s.store.arb) ∧ t.store = { s.store with arb := t.store.arb } ∧
      Answered p 0 (BitVec.ofNat 64 (max now v)) s t ∧ OnlyChanges [.arrivals, .store, .host] s t) := by
  intro k v now
  have plain : stepOpcode p.opc = false := by rw [h.2.1]; rfl
  have run := exec_rollbackSet_of_admitted h
  have ok := okStatus_of_rsv h.rsv
  refine ⟨fun bad => ?_, fun low high above => ?_, fun low high small carried => ?_⟩
  · rw [run, opRollbackSet_of_kind bad]
    rfl
  · rw [run, opRollbackSet_of_limit (s := arrived s) low high above]
    rfl
  · rw [opRollbackSet_of_carried (s := arrived s) low high small carried, ok] at run
    by_cases under : v ≤ now
    · have run := run.trans (congrArg Host.Outcome.next (if_pos under))
      have told := reply_frame_of_plain plain 0 (BitVec.ofNat 64 now) (arrived s)
      have store := told .store (by decide)
      have top : max now v = now := max_eq_left under
      refine ⟨_, run, ?_, fun j _ => congrArg (fun x : Store => lookupD 0 j x.arb) store, ?_, ?_, ((arrived_frame s).mono (by decide)).step told (by decide)⟩
      · rw [top]
        exact congrArg (fun x : Store => lookupD 0 k x.arb) store
      · exact store.trans (congrArg (fun x : Store => { s.store with arb := x.arb }) store.symm)
      · rw [top]
        exact answered_reply plain rfl rfl 0 _
    · have run := run.trans (congrArg Host.Outcome.next (if_neg under))
      have told := reply_frame_of_plain plain 0 (BitVec.ofNat 64 v) { arrived s with store := { s.store with arb := upsert k v s.store.arb } }
      have set : OnlyChanges [.store] (arrived s) { arrived s with store := { s.store with arb := upsert k v s.store.arb } } :=
        only_store (.refl _ _) _ (by decide)
      have store := told .store (by decide)
      have top : max now v = v := max_eq_right (le_of_not_ge under)
      refine ⟨_, run, ?_, fun j other => ?_, ?_, ?_, (((arrived_frame s).mono (by decide)).step set (by decide)).step told (by decide)⟩
      · rw [top]
        exact (congrArg (fun x : Store => lookupD 0 k x.arb) store).trans (lookupD_upsert_self ..)
      · exact (congrArg (fun x : Store => lookupD 0 j x.arb) store).trans (lookupD_upsert_ne other ..)
      · exact store.trans (congrArg (fun x : Store => { s.store with arb := x.arb }) store.symm)
      · rw [top]
        exact answered_reply plain rfl rfl 0 _

theorem debugLockActs (p : Packet) (s : State) (h : Admitted 0x0A03 p s) :
    ∃ t, exec (.debugLock p) s = .next t ∧ t.dbgUnit = { s.dbgUnit with opened := false } ∧ Answered p 0 0 s t ∧ OnlyChanges [.arrivals, .dbgUnit, .host] s t := by
  have plain : stepOpcode p.opc = false := by rw [h.2.1]; rfl
  have told := reply_frame_of_plain plain (okStatus p) 0 { arrived s with dbgUnit := { s.dbgUnit with opened := false } }
  have set : OnlyChanges [.dbgUnit] (arrived s) { arrived s with dbgUnit := { s.dbgUnit with opened := false } } := only_dbgUnit (.refl _ _) _ (by decide)
  have ok := okStatus_of_rsv h.rsv
  exact ⟨_, exec_debugLock_of_admitted h, told .dbgUnit (by decide), ok ▸ answered_reply plain rfl rfl (okStatus p) 0,
    (((arrived_frame s).mono (by decide)).step set (by decide)).step told (by decide)⟩

theorem fusesOnlyTighten : Claim.FusesOnlyTighten := by
  refine ⟨keyRevokeActs, fun p s h => ?_, debugLockActs⟩
  have acts := rollbackSetActs p s h
  simp only [imageLimit_eq] at acts
  exact acts

end Sys2Proof.Machine
end

section
/-! SUPPORT. The DOE mailbox and the debug registers (R536, R537, R547). -/

namespace Sys2Proof.Machine

/-! ### The DOE mailbox -/

theorem doeUp_iff (s : State) (port : Nat) :
    doeUp s port = true ↔ (getPcie s port).perst = false ∧ xingClosed s 14 12 = false ∧ s.rel.ccFailed = false := by
  simp only [doeUp, Bool.and_eq_true, Bool.not_eq_true', and_assoc]

/-- The second byte of a mailbox's answer, which the spec does not state. -/
def answerByte (s : State) : Byte := BitVec.setWidth 8 (Config.freeValue s.freeCtr)

/-- A port whose mailbox holds an answer, the rest of the module as it stands. -/
theorem doeReply_port (port code : Nat) (st : BitVec 16) (body : List Byte) (s : State) :
    (doeReply port code st body s).host.ports =
        upsert port { getPcie s port with doe := [BitVec.ofNat 8 (code + 0x80), answerByte s] ++ toLE 2 st.toNat ++ body } s.host.ports ∧
      (doeReply port code st body s).host = { s.host with ports := (doeReply port code st body s).host.ports } :=
  ⟨rfl, rfl⟩

theorem toLE_zero : toLE 8 (0 : W64).toNat = [0, 0, 0, 0, 0, 0, 0, 0] := by decide

theorem toLE_ok : toLE 2 (Status.ok).toNat = [0, 0] := by decide

section
variable {port : Nat} {s : State}

theorem mailbox_of_down (down : ¬doeUp s port = true) : exec (.getCert port) s = .next s ∧ (∀ nonce, exec (.attest port nonce) s = .next s) ∧
    exec (.debugChallenge port) s = .next s ∧ (∀ tok, exec (.debugUnlock port tok) s = .next s) ∧ exec (.doeDiscovery port) s = .next s :=
  ⟨if_neg down, fun _ => if_neg down, if_neg down, fun _ => if_pos (by simpa using down), if_neg down⟩

variable (up : doeUp s port = true)
include up

theorem exec_getCert_of_up :
    exec (.getCert port) s = .next (doeReply port 1 Status.ok (Config.certificates.flatMap fun c => toLE 4 c.length ++ c) s) := if_pos up

theorem exec_attest_of_up (nonce : List Byte) :
    exec (.attest port nonce) s = .next (doeReply port 2 Status.ok (reportBody s nonce ++ sliceB (Config.mlDsaSign (reportBody s nonce)) 0 3309) s) := if_pos up

/-- A new challenge: 32 free values. -/
def freshChallenge (s : State) : List Byte := (List.range 32).map fun k => (Config.freeValue (s.freeCtr + k)).setWidth 8

/-- The module with a new challenge. -/
def challenged (s : State) : State := { s with freeCtr := s.freeCtr + 32, dbgUnit := { s.dbgUnit with challenge := some (freshChallenge s) } }

theorem exec_debugChallenge_of_up : exec (.debugChallenge port) s = .next (doeReply port 3 Status.ok (freshChallenge s) (challenged s)) := if_pos up

theorem exec_doeDiscovery_of_up : exec (.doeDiscovery port) s = .next (setPcie port { getPcie s port with doe := [0x00, 0x01] } s) := if_pos up

/-- The module with its challenge used up. -/
def usedUp (s : State) : State := { s with dbgUnit := { s.dbgUnit with challenge := none } }

/-- The module with the scope of a token open. -/
def unlocked (tok : List Byte) (s : State) : State :=
  { s with dbgUnit := { s.dbgUnit with challenge := none, opened := true, ever := true, scope := BitVec.ofNat 4 (item tok 40 4) } }

theorem exec_debugUnlock_of_up (tok : List Byte) : exec (.debugUnlock port tok) s =
    if tokenOk s tok then .next (doeReply port 4 Status.ok [] (post Ev.debugOpened [] (unlocked tok s))) else .next (doeReply port 4 Status.tokenInvalid [] (usedUp s)) :=
  if_neg (by rw [up]; decide)

theorem unlockActs (tok : List Byte) : ∃ t b, exec (.debugUnlock port tok) s = .next t ∧ OnlyChanges [.dbgUnit, .host, .freeCtr, .store, .xing] s t ∧
    t.dbgUnit = (if tokenOk s tok then
      { s.dbgUnit with challenge := none, opened := true, ever := true, scope := BitVec.ofNat 4 (item tok 40 4) } else { s.dbgUnit with challenge := none }) ∧
    (getPcie t port).doe = (if tokenOk s tok then [0x84, b, 0, 0] else [0x84, b] ++ toLE 2 Status.tokenInvalid.toNat) ∧
    (tokenOk s tok = true → Raises Ev.debugOpened s t) ∧ (tokenOk s tok = false → t.host = { s.host with ports := t.host.ports }) := by
  have run := exec_debugUnlock_of_up up tok
  cases ok : tokenOk s tok
  · rw [ok] at run
    have set : OnlyChanges [.dbgUnit] s (usedUp s) := only_dbgUnit (.refl _ _) _ (by decide)
    have told := doeReply_frame port 4 Status.tokenInvalid [] (usedUp s)
    refine ⟨_, answerByte (usedUp s), run, (set.mono (by decide)).step told (by decide), rfl, ?_, nofun, fun _ => rfl⟩
    exact (congrArg PciePort.doe (getPcie_setPcie_self port _ _)).trans (List.append_nil _)
  · rw [ok] at run
    have set : OnlyChanges [.dbgUnit] s (unlocked tok s) := only_dbgUnit (.refl _ _) _ (by decide)
    have event := post_frame Ev.debugOpened [] (unlocked tok s)
    have raises : Raises Ev.debugOpened (unlocked tok s) (post Ev.debugOpened [] (unlocked tok s)) := raises_postFull _ _ _ _ _ _ _
    have opened := event .dbgUnit (by decide)
    generalize post Ev.debugOpened [] (unlocked tok s) = u at run event raises opened
    have told := doeReply_frame port 4 Status.ok [] u
    refine ⟨_, answerByte u, run, ((set.mono (by decide)).step event (by decide)).step told (by decide), opened, ?_, fun _ => ?_, nofun⟩
    · exact (congrArg PciePort.doe (getPcie_setPcie_self port _ _)).trans (by rw [toLE_ok]; rfl)
    · exact raises.of_same rfl rfl id rfl

theorem mailboxActs :
    (∃ t b, exec (.getCert port) s = .next t ∧
      t.host.ports = upsert port { getPcie s port with
        doe := [0x81, b, 0, 0] ++ Config.certificates.flatMap (fun c => toLE 4 c.length ++ c) } s.host.ports ∧
      t.host = { s.host with ports := t.host.ports } ∧ OnlyChanges [.host, .freeCtr] s t) ∧
    (∀ nonce : List Byte, ∃ t b, exec (.attest port nonce) s = .next t ∧
      t.host.ports = upsert port { getPcie s port with
        doe := [0x82, b, 0, 0] ++ reportBody s nonce ++ sliceB (Config.mlDsaSign (reportBody s nonce)) 0 3309 } s.host.ports ∧
      t.host = { s.host with ports := t.host.ports } ∧ OnlyChanges [.host, .freeCtr] s t) ∧
    (∃ t c b, exec (.debugChallenge port) s = .next t ∧ t.dbgUnit = { s.dbgUnit with challenge := some c } ∧ c.length = 32 ∧
      t.host.ports = upsert port { getPcie s port with doe := [0x83, b, 0, 0] ++ c } s.host.ports ∧
      t.host = { s.host with ports := t.host.ports } ∧ OnlyChanges [.dbgUnit, .host, .freeCtr] s t) := by
  refine ⟨⟨_, answerByte s, exec_getCert_of_up up, ?_, rfl, (doeReply_frame _ _ _ _ _).mono (by decide)⟩,
    fun nonce => ⟨_, answerByte s, exec_attest_of_up up nonce, ?_, rfl, (doeReply_frame _ _ _ _ _).mono (by decide)⟩,
    _, freshChallenge s, answerByte (challenged s), exec_debugChallenge_of_up up, rfl, by simp [freshChallenge], ?_, rfl, ?_⟩
  · rw [(doeReply_port ..).1, toLE_ok]
    rfl
  · rw [(doeReply_port ..).1, toLE_ok, List.append_assoc _ (reportBody s nonce)]
    rfl
  · rw [(doeReply_port ..).1, toLE_ok]
    rfl
  · have set : OnlyChanges [.freeCtr, .dbgUnit] s (challenged s) := only_dbgUnit_freeCtr (.refl _ _) _ _ (by decide)
    exact (set.mono (by decide)).step (doeReply_frame _ _ _ _ _) (by decide)

end

theorem mctpControlActs (cmd : Byte) (s : State) :
    (s.pins.pwrOk = true → s.rel.ccFailed = false →
      ∃ t b, exec (.mctpControl cmd) s = .next t ∧ t.host = { s.host with mctp := [cmd, b] } ∧ OnlyChanges [.host, .freeCtr] s t) ∧
    (s.pins.pwrOk = false ∨ s.rel.ccFailed = true → exec (.mctpControl cmd) s = .next s) := by
  refine ⟨fun power active => ?_, fun off => if_neg ?_⟩
  · have run : exec (.mctpControl cmd) s = .next (mctpReply [cmd, answerByte s] (draw s).2) := if_pos (by rw [power, active]; rfl)
    exact ⟨_, answerByte s, run, rfl, only_host (only_freeCtr (.refl _ _) _ (by decide)) _ (by decide)⟩
  · rw [Bool.and_eq_true, Bool.not_eq_true']
    rcases off with low | failed
    · simp [low]
    · simp [failed]

theorem mailboxCommands : Claim.MailboxCommands := by
  refine ⟨fun port s => ?_, mctpControlActs⟩
  intro up
  refine ⟨fun down => mailbox_of_down (mt (doeUp_iff s port).1 down), fun held => ?_⟩
  have held := (doeUp_iff s port).2 held
  obtain ⟨certificates, report, challenge⟩ := mailboxActs held
  exact ⟨certificates, report, challenge, unlockActs held, exec_doeDiscovery_of_up held⟩

/-! ### UnlockNeedsChallenge -/

/-- A token that passes names the module and answers its challenge. -/
theorem tokenOk_names {s : State} {tok : List Byte} (ok : tokenOk s tok = true) :
    s.dbgUnit.challenge = some (sliceB tok 8 32) ∧ item tok 0 8 = s.store.serial.toNat := by
  simp only [tokenOk, Bool.and_eq_true, beq_iff_eq] at ok
  obtain ⟨⟨⟨-, serial⟩, challenge⟩, -⟩ := ok
  exact ⟨challenge, serial⟩

theorem unlockNeedsChallenge : Claim.UnlockNeedsChallenge := by
  intro port tok s t closed lacks run
  have fails : tokenOk s tok = false := by
    rw [← Bool.not_eq_true]
    intro ok
    obtain ⟨challenge, serial⟩ := tokenOk_names ok
    rcases lacks with missing | other | foreign
    · rw [missing] at challenge
      cases challenge
    · exact other challenge
    · exact foreign serial
  by_cases up : doeUp s port = true
  · rw [exec_debugUnlock_of_up up tok, fails] at run
    obtain rfl := Host.Outcome.next.inj run
    exact closed
  · rw [(mailbox_of_down up).2.2.2.1 tok] at run
    obtain rfl := Host.Outcome.next.inj run
    exact closed

/-! ### The debug registers -/

section
variable {h : HostAccess} {s : State} (served : PrivServed h s)
include served

theorem exec_dbgHalt_of_served : exec (.dbgHalt h) s = .next (dbgGate (dbgOnTile 0x3008 dbgHalt) s) := by
  change execDbgHalt h s = _
  rw [execDbgHalt, orHold_of_serves served.1, if_pos (privReg_of_served served)]

theorem exec_dbgResume_of_served : exec (.dbgResume h) s = .next (dbgGate (dbgOnTile 0x3008 dbgResume) s) := by
  change execDbgResume h s = _
  rw [execDbgResume, orHold_of_serves served.1, if_pos (privReg_of_served served)]

theorem exec_dbgStep_of_served : exec (.dbgStep h) s = .next (dbgGate (dbgOnTile 0x3008 dbgStep) s) := by
  change execDbgStep h s = _
  rw [execDbgStep, orHold_of_serves served.1, if_pos (privReg_of_served served)]

theorem exec_dbgDataWrite_of_served (v : W64) : exec (.dbgDataWrite h v) s = .next (dbgGate (dbgOnTile 0x3020 (dbgStore v)) s) := by
  change execDbgDataWrite h v s = _
  rw [execDbgDataWrite, orHold_of_serves served.1, if_pos (privReg_of_served served)]

theorem exec_dbgDataRead_of_served :
    exec (.dbgDataRead h) s = .next (returnRead (toLE 8 (readDbgData s).1.toNat) false (readDbgData s).2) := by
  change execDbgDataRead h s = _
  have reader : ¬noReader s = true := by
    rw [noReader, served.1.active, served.1.crossing]
    decide
  exact (if_neg reader).trans (if_pos (privReg_of_served served))

end

theorem dbgGate_of_closed {s : State} (closed : dbgOpen s = false) (act : State → State) : dbgGate act s = post Ev.lockViolation [] s :=
  if_neg (by rw [closed]; decide)

theorem dbgGate_of_open {s : State} (opened : dbgOpen s = true) (act : State → State) : dbgGate act s = act s := if_pos opened

theorem noTile_iff (s : State) : noTile s.dbgUnit.kind s.dbgUnit.unit = true ↔ s.dbgUnit.kind = 1 ∧ 17 ≤ s.dbgUnit.unit % 32 := by
  simp only [noTile, Bool.and_eq_true, beq_iff_eq, decide_eq_true_eq]

theorem noTile_false {s : State} (tile : s.dbgUnit.kind = 1 → s.dbgUnit.unit % 32 < 17) : noTile s.dbgUnit.kind s.dbgUnit.unit = false := by
  rw [← Bool.not_eq_true, noTile_iff]
  rintro ⟨kind, high⟩
  have := tile kind
  omega

section
variable {s : State} (off : Nat) (act : State → State)

theorem dbgOnTile_of_none (missing : noTile s.dbgUnit.kind s.dbgUnit.unit = true) : dbgOnTile off act s = argReject off Status.addrRange s := if_pos missing

theorem dbgOnTile_of_some (there : noTile s.dbgUnit.kind s.dbgUnit.unit = false) : dbgOnTile off act s = act s := if_neg (by rw [there]; decide)

end

theorem dbgOff {h : HostAccess} {s : State} (served : PrivServed h s) (closed : dbgOpen s = false) :
    exec (.dbgHalt h) s = .next (post Ev.lockViolation [] s) ∧ exec (.dbgResume h) s = .next (post Ev.lockViolation [] s) ∧
      exec (.dbgStep h) s = .next (post Ev.lockViolation [] s) ∧ (∀ v, exec (.dbgDataWrite h v) s = .next (post Ev.lockViolation [] s)) ∧
      exec (.dbgDataRead h) s = .next { s with host := { s.host with readData := [0, 0, 0, 0, 0, 0, 0, 0], readPoison := false, readUr := false } } := by
  refine ⟨?_, ?_, ?_, fun v => ?_, ?_⟩
  · rw [exec_dbgHalt_of_served served, dbgGate_of_closed closed]
  · rw [exec_dbgResume_of_served served, dbgGate_of_closed closed]
  · rw [exec_dbgStep_of_served served, dbgGate_of_closed closed]
  · rw [exec_dbgDataWrite_of_served served, dbgGate_of_closed closed]
  · have read : readDbgData s = (0, s) := if_neg (by rw [closed]; decide)
    rw [exec_dbgDataRead_of_served served, read, toLE_zero]
    rfl

theorem dbgOffTile {h : HostAccess} {s : State} (served : PrivServed h s) (opened : dbgOpen s = true) (kind : s.dbgUnit.kind = 1)
    (high : 17 ≤ s.dbgUnit.unit % 32) :
    (∀ c ∈ [Instr.dbgHalt h, .dbgResume h, .dbgStep h], exec c s = .next (post Ev.argReject (det [(4, 0x3008), (2, 0x010E)]) s)) ∧
    (∀ v, exec (.dbgDataWrite h v) s = .next (post Ev.argReject (det [(4, 0x3020), (2, 0x010E)]) s)) ∧
    exec (.dbgDataRead h) s = .next (let t := post Ev.argReject (det [(4, 0x3020), (2, 0x010E)]) s
      { t with host := { t.host with readData := [0, 0, 0, 0, 0, 0, 0, 0], readPoison := false, readUr := false } }) := by
  have missing := (noTile_iff s).2 ⟨kind, high⟩
  refine ⟨fun c mem => ?_, fun v => ?_, ?_⟩
  · simp only [List.mem_cons, List.not_mem_nil, or_false] at mem
    rcases mem with rfl | rfl | rfl
    · rw [exec_dbgHalt_of_served served, dbgGate_of_open opened, dbgOnTile_of_none _ _ missing]
      rfl
    · rw [exec_dbgResume_of_served served, dbgGate_of_open opened, dbgOnTile_of_none _ _ missing]
      rfl
    · rw [exec_dbgStep_of_served served, dbgGate_of_open opened, dbgOnTile_of_none _ _ missing]
      rfl
  · rw [exec_dbgDataWrite_of_served served, dbgGate_of_open opened, dbgOnTile_of_none _ _ missing]
    rfl
  · have read : readDbgData s = (0, argReject 0x3020 Status.addrRange s) := by
      rw [readDbgData, if_pos opened, dbgOnTile_of_none _ _ missing, if_pos missing]
    rw [exec_dbgDataRead_of_served served, read, toLE_zero]
    rfl

/-! ### HALT, RESUME and STEP of a core -/

section
variable {s : State}

theorem dbgHalt_of_kept (kept : dbgExists s = false ∨ dbgActive s = true ∨ dbgKey s ∈ s.dbgUnit.halted) : dbgHalt s = s := by
  refine if_neg ?_
  simp only [Bool.and_eq_true, Bool.not_eq_true', List.contains_iff_mem, ← Bool.not_eq_true]
  rintro ⟨⟨there, other⟩, runs⟩
  rcases kept with missing | active | halted
  · exact absurd there (by rw [missing]; decide)
  · exact other active
  · exact runs halted

theorem dbgHalt_of_running (there : dbgExists s = true) (other : dbgActive s = false) (runs : dbgKey s ∉ s.dbgUnit.halted) :
    dbgHalt s = { s with dbgUnit := { s.dbgUnit with halted := dbgKey s :: s.dbgUnit.halted } } :=
  if_pos (by simpa [there, other] using runs)

theorem dbgResume_of_kept (kept : dbgExists s = false ∨ dbgKey s ∉ s.dbgUnit.halted) : dbgResume s = s := by
  refine if_neg ?_
  rw [Bool.and_eq_true, List.contains_iff_mem]
  rintro ⟨there, halted⟩
  rcases kept with missing | runs
  · exact absurd there (by rw [missing]; decide)
  · exact runs halted

theorem dbgResume_of_halted (there : dbgExists s = true) (halted : dbgKey s ∈ s.dbgUnit.halted) :
    dbgResume s = pumpAll { s with dbgUnit := { s.dbgUnit with halted := s.dbgUnit.halted.filter (· != dbgKey s) } } :=
  if_pos (by simpa [there] using halted)

theorem dbgStep_of_kept (kept : dbgExists s = false ∨ dbgActive s = true ∨ dbgKey s ∉ s.dbgUnit.halted) : dbgStep s = s := by
  refine if_neg ?_
  simp only [Bool.and_eq_true, Bool.not_eq_true', List.contains_iff_mem]
  rintro ⟨⟨there, other⟩, halted⟩
  rcases kept with missing | active | runs
  · exact absurd there (by rw [missing]; decide)
  · exact absurd active (by rw [other]; decide)
  · exact runs halted

theorem dbgStep_of_halted (there : dbgExists s = true) (other : dbgActive s = false) (halted : dbgKey s ∈ s.dbgUnit.halted) :
    dbgStep s = setDbg { s.dbgUnit with steps := adjust 0 (dbgKey s) (· + 1) s.dbgUnit.steps } s :=
  if_pos (by simpa [there, other] using halted)

end

theorem dbgCores {h : HostAccess} {s : State} (served : PrivServed h s) (opened : dbgOpen s = true) (tile : s.dbgUnit.kind = 1 → s.dbgUnit.unit % 32 < 17) :
    let off := fun (c : Instr) => exec c s = .next s
    (dbgExists s = false → off (.dbgHalt h) ∧ off (.dbgResume h) ∧ off (.dbgStep h)) ∧
    (dbgActive s = true → off (.dbgHalt h) ∧ off (.dbgStep h)) ∧
    (dbgKey s ∈ s.dbgUnit.halted → off (.dbgHalt h)) ∧ (dbgKey s ∉ s.dbgUnit.halted → off (.dbgResume h) ∧ off (.dbgStep h)) ∧
    (dbgExists s = true → dbgActive s = false → dbgKey s ∉ s.dbgUnit.halted →
      exec (.dbgHalt h) s = .next { s with dbgUnit := { s.dbgUnit with halted := dbgKey s :: s.dbgUnit.halted } }) ∧
    (dbgExists s = true → dbgKey s ∈ s.dbgUnit.halted →
      exec (.dbgResume h) s = .next (pumpAll { s with dbgUnit := { s.dbgUnit with halted := s.dbgUnit.halted.filter (· != dbgKey s) } })) ∧
    (dbgExists s = true → dbgActive s = false → dbgKey s ∈ s.dbgUnit.halted → ∃ t, exec (.dbgStep h) s = .next t ∧
      t.dbgUnit = { s.dbgUnit with steps := t.dbgUnit.steps } ∧
      (∀ k, lookupD 0 k t.dbgUnit.steps = lookupD 0 k s.dbgUnit.steps + (if k = dbgKey s then 1 else 0)) ∧ OnlyChanges [.dbgUnit] s t) := by
  intro off
  have there := noTile_false tile
  have halt : exec (.dbgHalt h) s = .next (dbgHalt s) := by
    rw [exec_dbgHalt_of_served served, dbgGate_of_open opened, dbgOnTile_of_some _ _ there]
  have resume : exec (.dbgResume h) s = .next (dbgResume s) := by
    rw [exec_dbgResume_of_served served, dbgGate_of_open opened, dbgOnTile_of_some _ _ there]
  have step : exec (.dbgStep h) s = .next (dbgStep s) := by
    rw [exec_dbgStep_of_served served, dbgGate_of_open opened, dbgOnTile_of_some _ _ there]
  have noHalt := fun kept => halt.trans (congrArg Host.Outcome.next (dbgHalt_of_kept kept))
  have noResume := fun kept => resume.trans (congrArg Host.Outcome.next (dbgResume_of_kept kept))
  have noStep := fun kept => step.trans (congrArg Host.Outcome.next (dbgStep_of_kept kept))
  refine ⟨fun missing => ⟨noHalt (.inl missing), noResume (.inl missing), noStep (.inl missing)⟩,
    fun active => ⟨noHalt (.inr (.inl active)), noStep (.inr (.inl active))⟩, fun halted => noHalt (.inr (.inr halted)),
    fun runs => ⟨noResume (.inr runs), noStep (.inr (.inr runs))⟩,
    fun core other runs => halt.trans (congrArg Host.Outcome.next (dbgHalt_of_running core other runs)),
    fun core halted => resume.trans (congrArg Host.Outcome.next (dbgResume_of_halted core halted)), fun core other halted => ?_⟩
  refine ⟨_, step.trans (congrArg Host.Outcome.next (dbgStep_of_halted core other halted)), rfl, fun k => ?_, only_dbgUnit (.refl _ _) _ (by decide)⟩
  by_cases own : k = dbgKey s
  · rw [own, if_pos rfl]
    exact lookupD_upsert_self ..
  · rw [if_neg own, Nat.add_zero]
    exact lookupD_upsert_ne own ..

theorem dbgData {h : HostAccess} {s : State} (served : PrivServed h s) (opened : dbgOpen s = true) (tile : s.dbgUnit.kind = 1 → s.dbgUnit.unit % 32 < 17) :
    (∀ v : W64, ∃ t, exec (.dbgDataWrite h v) s = .next t ∧ t.dbgUnit = { s.dbgUnit with addr := s.dbgUnit.addr + 8, words := t.dbgUnit.words } ∧
      dbgWord { t with dbgUnit := { t.dbgUnit with addr := s.dbgUnit.addr } } = v ∧ OnlyChanges [.dbgUnit] s t) ∧
    (∃ t, exec (.dbgDataRead h) s = .next t ∧ t.host = { s.host with readData := toLE 8 (dbgWord s).toNat, readPoison := false, readUr := false } ∧
      t.dbgUnit = { s.dbgUnit with addr := s.dbgUnit.addr + 8 } ∧ OnlyChanges [.dbgUnit, .host] s t) := by
  have there := noTile_false tile
  refine ⟨fun v => ?_, ?_⟩
  · have run := exec_dbgDataWrite_of_served served v
    rw [dbgGate_of_open opened, dbgOnTile_of_some _ _ there] at run
    exact ⟨_, run, rfl, lookupD_upsert_self .., only_dbgUnit (.refl _ _) _ (by decide)⟩
  · have run := exec_dbgDataRead_of_served served
    have read : readDbgData s = (dbgWord s, dbgNext s) := by
      rw [readDbgData, if_pos opened, dbgOnTile_of_some _ _ there, if_neg (by rw [there]; decide)]
    rw [read] at run
    exact ⟨_, run, rfl, rfl, only_host (only_dbgUnit (.refl _ _) _ (by decide)) _ (by decide)⟩

/-- Settles O55: the fuses, the mailbox and the debug registers, each by the cases of its command. -/
theorem securityAndDebug : Obligations.SecurityAndDebug :=
  ⟨fusesOnlyTighten, mailboxCommands, unlockNeedsChallenge, fun _ _ served => ⟨dbgOff served, dbgOffTile served, dbgCores served, dbgData served⟩⟩

end Sys2Proof.Machine
end

section
/-! SUPPORT. Fetches, dropped replies and the events that wait for their FIRE time (R38, R515, R520, R521). -/

namespace Sys2Proof.Machine

/-! ### COMMAND_FETCH -/

section
variable {n : Nat} {s : State} (serves : Serves s)
include serves

/-- A fetch of a module that serves, by the announcement whose turn it is. -/
theorem exec_commandFetch_of_serves (data : Option (List Byte)) : exec (.commandFetch n data) s =
    match nextDoorbell s with
    | none => .next s
    | some d =>
      if d.queue ≠ n then .next s
      else match data with
        | none => .next (setHostQueue n { hostQueue s n with stopped := true, err := 1 } s)
        | some l => .next (fetchCommand d l s) := by
  change execCommandFetch n data s = _
  rw [execCommandFetch, serves.stage, serves.active, serves.crossing]
  rfl

theorem exec_commandFetch_of_failed {d : Doorbell} (turn : nextDoorbell s = some d) (own : d.queue = n) :
    exec (.commandFetch n none) s = .next (setHostQueue n { hostQueue s n with stopped := true, err := 1 } s) := by
  rw [exec_commandFetch_of_serves serves, turn]
  exact if_neg (not_not.2 own)

theorem exec_commandFetch_of_idle (data : Option (List Byte)) (idle : ∀ d, nextDoorbell s = some d → d.queue ≠ n) : exec (.commandFetch n data) s = .next s := by
  rw [exec_commandFetch_of_serves serves]
  cases turn : nextDoorbell s with
  | none => rfl
  | some d => exact if_pos (idle d turn)

end

/-- What the announcement whose turn it is can count on. -/
theorem nextDoorbell_serves {d : Doorbell} {s : State} (turn : nextDoorbell s = some d) :
    canFetch s d.queue = true ∧ ∀ x ∈ s.host.aperWrites, x.1 ≠ d.port := by
  have held := List.find?_some turn
  simpa only [Bool.and_eq_true, Bool.not_eq_true', List.any_eq_false, beq_iff_eq] using held

theorem sliceB_of_enough {l : List Byte} {a n : Nat} (enough : a + n ≤ l.length) : sliceB l a n = (l.drop a).take n := by
  have full : ((l.drop a).take n).length = n := by
    rw [List.length_take, List.length_drop]
    omega
  rw [sliceB, full, Nat.sub_self]
  exact List.append_nil _

/-- A word of w bytes holds the item that it is made of. -/
theorem toNat_item (l : List Byte) (a w : Nat) : (BitVec.ofNat (8 * w) (item l a w)).toNat = item l a w := by
  rw [BitVec.toNat_ofNat]
  exact Nat.mod_eq_of_lt ((item_lt l a w).trans_eq (by rw [Nat.pow_mul]))

theorem parseCommand_items (q origin : Nat) (l : List Byte) (slot : 64 ≤ l.length) :
    let p := parseCommand q origin l
    p.opc = item l 0 2 ∧ p.flags.toNat = item l 2 2 ∧ p.len = item l 4 2 ∧ p.seq.toNat = item l 8 4 ∧ p.tgt.toNat = item l 12 4 ∧
      p.fire.toNat = item l 16 8 ∧ p.param = (l.drop 24).take 40 ∧ p.payload.length = 64 * p.len :=
  ⟨rfl, toNat_item l 2 2, rfl, toNat_item l 8 4, toNat_item l 12 4, toNat_item l 16 8, sliceB_of_enough slot, sliceB_length ..⟩

theorem fetchFailsOrIdles : Claim.FetchFailsOrIdles :=
  ⟨fun _ _ _ serves turn own => exec_commandFetch_of_failed serves turn own, fun _ data _ serves idle => exec_commandFetch_of_idle serves data idle,
    fun _ _ turn => nextDoorbell_serves turn, parseCommand_items⟩

/-! ### Replies of ports that were reset -/

theorem repliesOfResetPortsAreDropped : Claim.RepliesOfResetPortsAreDropped := by
  intro n r x s active passes oldest old
  have other : ¬r.queue = n := by omega
  have run : exec (.replyWrite n x) s = .next (dropReply n r { s with host := { s.host with replies := s.host.replies.erase r } }) := by
    change execReplyWrite n x s = _
    rw [execReplyWrite, active, passes, oldest]
    exact congrArg Host.Outcome.next (if_neg other)
  generalize taken : ({ s with host := { s.host with replies := s.host.replies.erase r } } : State) = u at run
  have first : OnlyChanges [.host] s u := taken ▸ only_host (.refl _ _) _ (by decide)
  have replies : u.host.replies = s.host.replies.erase r := taken ▸ rfl
  have mem0 : u.host.mem0 = s.host.mem0 := taken ▸ rfl
  have mem1 : u.host.mem1 = s.host.mem1 := taken ▸ rfl
  have events : u.host.events = s.host.events := taken ▸ rfl
  have tail : (hostQueue u n).cqtail = (hostQueue s n).cqtail := taken ▸ rfl
  have same : HostSame (setHostQueue n { hostQueue u n with outstanding := (hostQueue u n).outstanding - 1 } u) (dropReply n r u) := postFull_same _ _ _ _ _ _ _
  have raises : Raises Ev.replyDropped (setHostQueue n { hostQueue u n with outstanding := (hostQueue u n).outstanding - 1 } u) (dropReply n r u) :=
    raises_postFull _ _ _ _ _ _ _
  have event : OnlyChanges [.host, .xing, .store] (setHostQueue n { hostQueue u n with outstanding := (hostQueue u n).outstanding - 1 } u) (dropReply n r u) :=
    postFull_frame _ _ _ _ _ _ _
  have counted := setHostQueue_frame n { hostQueue u n with outstanding := (hostQueue u n).outstanding - 1 } u
  refine ⟨_, run, ?_, ?_, ?_, ?_, ?_, ((first.mono (by decide)).step counted (by decide)).step event (by decide)⟩
  · exact (replies_of_butLog same).trans replies
  · exact (congrArg HostIf.mem0 same).trans mem0
  · exact (congrArg HostIf.mem1 same).trans mem1
  · rw [hostQueue_of_butLog same n, hostQueue_setHostQueue_self]
    exact tail
  · refine raises.of_same ?_ events (fun calm => ?_) rfl
    · rw [← taken]
      rfl
    · rw [← taken]
      exact calm

/-! ### The order of the events that wait (R38) -/

theorem before_iff (a b : DueKey) : DueKey.before a b = true ↔ a.1 < b.1 ∨ a.1 = b.1 ∧ (a.2.1 < b.2.1 ∨ a.2.1 = b.2.1 ∧ a.2.2 < b.2.2) := by
  simp only [DueKey.before, Bool.or_eq_true, Bool.and_eq_true, decide_eq_true_eq, beq_iff_eq]

theorem not_before_self (a : DueKey) : DueKey.before a a = false := by
  rw [← Bool.not_eq_true, before_iff]
  omega

/-- The earlier of a first event so far and a next one. -/
def earlier (b : Option (DueKey × Due)) (x : DueKey × Due) : Option (DueKey × Due) :=
  match b with
  | some y => if DueKey.before x.1 y.1 then some x else some y
  | none => some x

theorem foldl_earlier (l : List (DueKey × Due)) {b : DueKey × Due} {x : DueKey × Due} (found : l.foldl earlier (some b) = some x) :
    (x = b ∨ x ∈ l) ∧ DueKey.before b.1 x.1 = false ∧ ∀ y ∈ l, DueKey.before y.1 x.1 = false := by
  induction l generalizing b with
  | nil =>
    obtain rfl := Option.some.inj found
    exact ⟨.inl rfl, not_before_self _, by simp⟩
  | cons y l ih =>
    rw [List.foldl_cons, earlier] at found
    by_cases sooner : DueKey.before y.1 b.1 = true
    · rw [if_pos sooner] at found
      obtain ⟨from_, first, rest⟩ := ih found
      refine ⟨.inr (List.mem_cons.2 from_), ?_, List.forall_mem_cons.2 ⟨first, rest⟩⟩
      rw [← Bool.not_eq_true, before_iff] at first ⊢
      rw [before_iff] at sooner
      omega
    · rw [if_neg sooner] at found
      obtain ⟨from_, first, rest⟩ := ih found
      refine ⟨from_.imp_right (List.mem_cons_of_mem _), first, List.forall_mem_cons.2 ⟨?_, rest⟩⟩
      rw [← Bool.not_eq_true, before_iff] at first ⊢
      rw [before_iff] at sooner
      omega

theorem firstEvent_first {s : State} {x : DueKey × Due} (found : firstEvent s = some x) :
    x ∈ waitingEvents s ∧ ∀ y ∈ waitingEvents s, DueKey.before y.1 x.1 = false := by
  change (waitingEvents s).foldl earlier none = some x at found
  generalize waitingEvents s = l at found
  cases l with
  | nil => cases found
  | cons y l =>
    obtain ⟨from_, first, rest⟩ := foldl_earlier l found
    exact ⟨List.mem_cons.2 from_, List.forall_mem_cons.2 ⟨first, rest⟩⟩

/-- The time of an event that waits is a CT word. -/
theorem time_lt_of_waits {s : State} {x : DueKey × Due} (waits : x ∈ waitingEvents s) : x.1.1 < 2 ^ 64 := by
  unfold waitingEvents at waits
  simp only [List.mem_append, List.mem_map] at waits
  rcases waits with ((armed | ⟨e, -, rfl⟩) | ⟨p, -, rfl⟩) | ⟨b, -, rfl⟩
  · split at armed
    · obtain rfl := List.mem_singleton.1 armed
      exact BitVec.isLt _
    · cases armed
  · exact e.fire.isLt
  · exact p.fire.isLt
  · exact b.release.isLt

/-! ### SCHEDULED_EVENT -/

section
variable {x : DueKey × Due} {s : State} (active : s.rel.ccFailed = false) (first : firstEvent s = some x)
include active first

theorem exec_scheduledEvent_of_comes {u : State} (comes : comeTo x.1 (BitVec.ofNat 64 x.1.1) s = some u) :
    exec .scheduledEvent s = .next (runEvent x (journalRecord u)) := by
  change execScheduledEvent s = _
  refine (if_neg (by rw [active]; decide)).trans ?_
  rw [first]
  simp only [comes]

theorem exec_scheduledEvent_of_waits (far : comeTo x.1 (BitVec.ofNat 64 x.1.1) s = none) : exec .scheduledEvent s = .next s := by
  change execScheduledEvent s = _
  refine (if_neg (by rw [active]; decide)).trans ?_
  rw [first]
  simp only [far]

theorem scheduledEventActs :
    (inTurn x.1 s = true → x.1.1 ≤ s.cad.ct.toNat → exec .scheduledEvent s = .next (runEvent x (journalRecord s))) ∧
    (inTurn x.1 s = true → s.cad.ct.toNat < x.1.1 → ctRuns s = true → x.1.1 ≤ lastCt s.cad →
      exec .scheduledEvent s = .next (runEvent x (journalRecord (setCad { s.cad with ct := BitVec.ofNat 64 x.1.1 } s)))) ∧
    (inTurn x.1 s = false ∨ (s.cad.ct.toNat < x.1.1 ∧ (ctRuns s = false ∨ lastCt s.cad < x.1.1)) → exec .scheduledEvent s = .next s) := by
  have time : (BitVec.ofNat 64 x.1.1).toNat = x.1.1 := by
    rw [BitVec.toNat_ofNat]
    exact Nat.mod_eq_of_lt (time_lt_of_waits (firstEvent_first first).1)
  refine ⟨fun turn past => ?_, fun turn ahead runs near => ?_, fun waits => ?_⟩
  · exact exec_scheduledEvent_of_comes active first (comeTo_of_reached (time.symm ▸ past) turn)
  · refine exec_scheduledEvent_of_comes active first ?_
    rw [comeTo, if_pos turn, reachCt, time, if_neg (by omega), if_pos (by simp [runs, near])]
  · refine exec_scheduledEvent_of_waits active first ?_
    rcases waits with out | ⟨ahead, far⟩
    · exact comeTo_of_turn out
    · exact comeTo_of_ahead (time.symm ▸ ahead) (time.symm ▸ far)

end

/-- An event of a command without a step takes the command's effect. -/
theorem runEvent_of_plain (k : DueKey) (e : Sched) (s : State) (plain : stepOpcode e.packet.opc = false) :
    (e.packet.opc ≠ 0x0801 → runEvent (k, .event e) s = runOp e.packet e.order { s with sched := s.sched.erase e }) ∧
    (e.packet.opc = 0x0801 → runEvent (k, .event e) s = opTelemSnap (e.block.getD s.snap) e.packet { s with sched := s.sched.erase e }) := by
  have collective : e.packet.opc ≠ 0x0504 := fun same => by
    rw [same] at plain
    exact absurd plain (by decide)
  have exchange : e.packet.opc ≠ 0x0602 := fun same => by
    rw [same] at plain
    exact absurd plain (by decide)
  refine ⟨fun other => ?_, fun snap => ?_⟩
  · unfold runEvent
    dsimp only
    split
    case h_1 same => exact absurd same collective
    case h_2 same => exact absurd same exchange
    case h_3 same => exact absurd same other
    case h_4 => rfl
  · unfold runEvent
    dsimp only
    split
    case h_1 same => exact absurd same collective
    case h_2 same => exact absurd same exchange
    case h_3 => rfl
    case h_4 other => exact absurd snap other

theorem eventsRunInOrder : Claim.EventsRunInOrder := by
  refine ⟨fun s idle => ?_, fun x s active first => scheduledEventActs active first, fun s x found => firstEvent_first found,
    fun k e s plain => runEvent_of_plain k e s plain, fun k p b s => ⟨rfl, rfl, rfl⟩⟩
  change execScheduledEvent s = _
  rw [execScheduledEvent, idle]
  exact ite_self _

end Sys2Proof.Machine
end

section
/-! SUPPORT. The memory aperture, access by access (R511, R514). -/

namespace Sys2Proof.Machine

/-! ### What an access meets -/

/-- A word that a retry returns intact. -/
theorem parityMeets_of_intact {p : ParityPlace} {w : DataWord} {origin : Nat} {play step : W32} {s : State} (intact : wordIntact w = true) :
    (parityMeets p w origin play step s).2 =
      (let x := countRetry (placeUnit s p).1 (record 1 1 0 origin (placeUnit s p).1 (placeUnit s p).2 play step w.data s)
      if x.1 then parityPersists p x.2 else x.2) := congrArg Prod.snd (if_pos intact)

/-- A word of a tile store that fails parity is a record of class 1; what follows it concerns the suspect units alone. -/
theorem parityMeets_store (L : Nat) (w : DataWord) (origin : Nat) (play step : W32) (s : State) :
    ∃ result u lg, OnlyChanges [.rel] (record 1 1 result origin u lg play step w.data s) (parityMeets (.store L) w origin play step s).2 := by
  by_cases intact : wordIntact w = true
  · refine ⟨0, (placeUnit s (.store L)).1, (placeUnit s (.store L)).2, ?_⟩
    rw [parityMeets_of_intact intact]
    have counted := countRetry_frame (placeUnit s (.store L)).1 (record 1 1 0 origin (placeUnit s (.store L)).1 (placeUnit s (.store L)).2 play step w.data s)
    generalize countRetry _ _ = x at counted ⊢
    refine OnlyChanges.trans (t := x.2) counted ?_
    dsimp only
    split
    · exact suspectTile_frame _ _ _
    · exact .refl _ _
  · have run : parityMeets (.store L) w origin play step s = (true, _) := if_neg intact
    rw [run]
    exact ⟨1, (placeUnit s (.store L)).1, (placeUnit s (.store L)).2, suspectTile_frame _ _ _⟩

theorem parityMeets_store_marks (L : Nat) (w : DataWord) (origin : Nat) (play step : W32) (s : State) :
    Raises Ev.parity s (parityMeets (.store L) w origin play step s).2 ∧ Records 1 s (parityMeets (.store L) w origin play step s).2 ∧
      OnlyChanges [.host, .store, .xing, .rel] s (parityMeets (.store L) w origin play step s).2 := by
  obtain ⟨result, u, lg, after⟩ := parityMeets_store L w origin play step s
  have raises := raises_record (cls := 1) rfl 1 result origin u lg play step w.data s
  obtain ⟨r, l, ledger, rest⟩ := records_record (s := s) rfl id 1 1 result origin u lg play step w.data
  have frame := record_frame 1 1 result origin u lg play step w.data s
  exact ⟨raises.of_same rfl rfl id (congrArg HostIf.events (after .host (by decide))),
    ⟨r, l, (congrArg Store.ledger (after .store (by decide))).trans ledger, rest⟩, (frame.mono (by decide)).step after (by decide)⟩

theorem granuleFault_marks (a origin : Nat) (play step : W32) (s : State) :
    Raises Ev.parity s (granuleFault a origin play step s) ∧ Records 1 s (granuleFault a origin play step s) :=
  ⟨raises_record (cls := 1) rfl 0 1 origin _ _ play step _ s, records_record (s := s) rfl id 1 0 1 origin _ _ play step _⟩

theorem accessMeets_of_out {port a n : Nat} {f : MoveFault} (out : faultIn a n f = false) (s : State) : accessMeets port a n f s = s :=
  if_pos (by rw [out]; rfl)

theorem accessMeets_of_overrun (port a n x y : Nat) (s : State) : accessMeets port a n (.overrun x y) s = xingRecordFor port 0 0 x y false s := rfl

theorem accessMeets_of_parity {port a n : Nat} {p : ParityPlace} {w : DataWord} (in_ : faultIn a n (.parity p w) = true) (s : State) :
    accessMeets port a n (.parity p w) s = (parityMeets p w port 0 0 s).2 := if_neg (by rw [in_]; decide)

/-! ### Reads of the aperture -/

section
variable (port off n : Nat) (f : MoveFault) {s : State}

/-- All ones: what a read of the aperture returns that is not served. -/
def allOnes (n : Nat) : List Byte := List.replicate n 0xFF

theorem exec_apertureRead_of_early (early : aperEarly s (aperAddr s port off) = true) :
    exec (.apertureRead port off n f) s = .next (returnRead (allOnes n) false (aperEarlyEvent port s)) := if_pos early

variable (timely : aperEarly s (aperAddr s port off) = false)
include timely

theorem exec_apertureRead_of_fault (bad : aperPermits s port false (aperAddr s port off) n = false) :
    exec (.apertureRead port off n f) s = .next (returnRead (allOnes n) false (aperFault port s)) :=
  (if_neg (by rw [timely]; decide)).trans (if_pos (by rw [bad]; rfl))

variable (permitted : aperPermits s port false (aperAddr s port off) n = true)
include permitted

theorem exec_apertureRead_of_shut (shut : xingClosed s 14 8 = true) : exec (.apertureRead port off n f) s = .next (returnRead (allOnes n) true s) :=
  (if_neg (by rw [timely]; decide)).trans ((if_neg (by rw [permitted]; decide)).trans (if_pos shut))

variable (passes : xingClosed s 14 8 = false)
include passes

theorem exec_apertureRead_of_waits (waits : aperWaits s (aperAddr s port off) n = true) : exec (.apertureRead port off n f) s = .next s :=
  (if_neg (by rw [timely]; decide)).trans ((if_neg (by rw [permitted]; decide)).trans ((if_neg (by rw [passes]; decide)).trans (if_pos waits)))

variable (serves : aperWaits s (aperAddr s port off) n = false)
include serves

theorem exec_apertureRead_of_served : exec (.apertureRead port off n f) s =
    if anyUnit (aperAddr s port off) n (isRetired s) then
      .next (returnRead (readBytes s (aperAddr s port off) n) true (postFull Ev.retiredAccess port 0xFFFFFFFF 0 0 [] s))
    else if anyUnit (aperAddr s port off) n (isPoisoned s) then
      .next (returnRead (readBytes s (aperAddr s port off) n) true (granuleFault (aperAddr s port off) port 0 0 s))
    else .next (returnRead (readBytes s (aperAddr s port off) n) (accessFails (aperAddr s port off) n f) (accessMeets port (aperAddr s port off) n f s)) :=
  (if_neg (by rw [timely]; decide)).trans ((if_neg (by rw [permitted]; decide)).trans ((if_neg (by rw [passes]; decide)).trans
    (if_neg (by rw [serves]; decide))))

end

/-- What an access that R511 does not allow leaves. -/
theorem aperFault_marks (port : Nat) (s : State) :
    (getPcie (aperFault port s) port).aper.faulted = true ∧ ((getPcie s port).aper.faulted = false → Raises Ev.apertureFault s (aperFault port s)) ∧
      ((getPcie s port).aper.faulted = true → aperFault port s = s) ∧ OnlyChanges [.host, .xing, .store] s (aperFault port s) := by
  unfold aperFault
  extract_lets p
  refine ⟨?_, fun fresh => ?_, fun again => if_pos again, ?_⟩
  · split
    case isTrue again => exact again
    case isFalse =>
      have same := postFull_same Ev.apertureFault port 0xFFFFFFFF 0 0 [] (setPcie port { p with aper := { p.aper with faulted := true } } s)
      have ports := congrArg HostIf.ports same
      refine (congrArg (fun l => (lookupD ({} : PciePort) port l).aper.faulted) ports).trans ?_
      exact congrArg (fun q : PciePort => q.aper.faulted) (getPcie_setPcie_self port _ s)
  · rw [if_neg (by rw [fresh]; decide)]
    have raises : Raises Ev.apertureFault (setPcie port { p with aper := { p.aper with faulted := true } } s)
      (postFull Ev.apertureFault port 0xFFFFFFFF 0 0 [] (setPcie port { p with aper := { p.aper with faulted := true } } s)) := raises_postFull _ _ _ _ _ _ _
    exact raises.of_same rfl rfl id rfl
  · split
    · exact .refl _ _
    · have set : OnlyChanges [.host] s (setPcie port { p with aper := { p.aper with faulted := true } } s) := setPcie_frame _ _ _
      exact (set.mono (by decide)).step (postFull_frame _ _ _ _ _ _ _) (by decide)

/-- An event of an access that returns at once. -/
theorem returned_raises {code : Nat} {s u : State} (raises : Raises code s u) (l : List Byte) (poison : Bool) : Raises code s (returnRead l poison u) :=
  raises.of_same rfl rfl id rfl

theorem readMeets_plain {port a n : Nat} {f : MoveFault} {s : State} :
    (faultIn a n f = false → returnRead (readBytes s a n) (accessFails a n f) (accessMeets port a n f s) = returnRead (readBytes s a n) false s) ∧
      (∀ x y, f = .overrun x y → (accessMeets port a n f s).xing.overrun = true ∧ Records 16 s (accessMeets port a n f s)) ∧
      ∀ L w, f = .parity (.store L) w → faultIn a n f = true → accessFails a n f = !wordIntact w ∧ Raises Ev.parity s (accessMeets port a n f s) ∧
        Records 1 s (accessMeets port a n f s) ∧ OnlyChanges [.host, .store, .xing, .rel] s (accessMeets port a n f s) := by
  refine ⟨fun out => ?_, fun x y named => ?_, fun L w named in_ => ?_⟩
  · rw [accessMeets_of_out out, show accessFails a n f = false from (Bool.and_eq_false_iff ..).2 (.inl out)]
  · subst named
    rw [accessMeets_of_overrun]
    exact ⟨overrun_xingRecordFor .., records_xingRecordFor ..⟩
  · subst named
    rw [accessMeets_of_parity in_, accessFails, in_]
    exact ⟨rfl, parityMeets_store_marks L w port 0 0 s⟩

theorem apertureReads : Claim.ApertureReads := by
  intro port off n f s
  dsimp only
  refine ⟨fun early => ?_, fun timely bad => ?_, fun timely permitted shut => ?_, fun timely permitted passes waits => ?_,
    fun ⟨timely, permitted, passes, serves⟩ retired => ?_, fun ⟨timely, permitted, passes, serves⟩ sound poisoned => ?_,
    fun ⟨timely, permitted, passes, serves⟩ ⟨sound, good⟩ => ?_⟩
  · refine ⟨_, exec_apertureRead_of_early port off n f early, rfl, returned_raises (raises_postFull _ _ _ _ _ _ _) _ _, ?_⟩
    exact (aperEarlyEvent_frame port s).step (returnRead_frame _ _ _) (by decide)
  · obtain ⟨marked, fresh, again, frame⟩ := aperFault_marks port s
    refine ⟨_, exec_apertureRead_of_fault port off n f timely bad, rfl, marked, fun first => returned_raises (fresh first) _ _, fun more => ?_,
      frame.step (returnRead_frame _ _ _) (by decide)⟩
    exact congrArg (fun u : State => (returnRead (allOnes n) false u).host.events) (again more)
  · exact exec_apertureRead_of_shut port off n f timely permitted shut
  · exact exec_apertureRead_of_waits port off n f timely permitted passes waits
  · refine ⟨_, (exec_apertureRead_of_served port off n f timely permitted passes serves).trans (if_pos retired), rfl, rfl,
      returned_raises (raises_postFull _ _ _ _ _ _ _) _ _, ?_⟩
    exact (postFull_frame _ _ _ _ _ _ _).mono (by decide) |>.step (returnRead_frame _ _ _) (by decide)
  · obtain ⟨raises, records⟩ := granuleFault_marks (aperAddr s port off) port 0 0 s
    refine ⟨_, (exec_apertureRead_of_served port off n f timely permitted passes serves).trans ((if_neg (by rw [sound]; decide)).trans (if_pos poisoned)),
      rfl, rfl, returned_raises raises _ _, records, ?_⟩
    exact (granuleFault_frame _ _ _ _ s).mono (by decide) |>.step (returnRead_frame _ _ _) (by decide)
  · obtain ⟨out, lost, store⟩ := readMeets_plain (port := port) (a := aperAddr s port off) (n := n) (f := f) (s := s)
    refine ⟨_, (exec_apertureRead_of_served port off n f timely permitted passes serves).trans
      ((if_neg (by rw [sound]; decide)).trans (if_neg (by rw [good]; decide))), rfl, rfl, out, lost, fun L w named in_ => ?_⟩
    obtain ⟨fails, raises, records, frame⟩ := store L w named in_
    exact ⟨fails, returned_raises raises _ _, records, frame.step (returnRead_frame _ _ _) (by decide)⟩

/-! ### Writes of the aperture -/

section
variable (port off : Nat) (data : List Byte) (f : MoveFault) {s : State}

theorem exec_apertureWrite_of_early (early : aperEarly s (aperAddr s port off) = true) :
    exec (.apertureWrite port off data f) s = .next (aperEarlyEvent port s) := if_pos early

variable (timely : aperEarly s (aperAddr s port off) = false)
include timely

theorem exec_apertureWrite_of_fault (bad : aperPermits s port true (aperAddr s port off) data.length = false) :
    exec (.apertureWrite port off data f) s = .next (aperFault port s) :=
  (if_neg (by rw [timely]; decide)).trans (if_pos (by rw [bad]; rfl))

variable (permitted : aperPermits s port true (aperAddr s port off) data.length = true)
include permitted

theorem exec_apertureWrite_of_shut (shut : xingClosed s 14 8 = true) : exec (.apertureWrite port off data f) s = .next s :=
  (if_neg (by rw [timely]; decide)).trans ((if_neg (by rw [permitted]; decide)).trans (if_pos shut))

variable (passes : xingClosed s 14 8 = false)
include passes

/-- What the access meets, then the write: it waits in the module, or goes to memory. -/
theorem exec_apertureWrite_of_allowed {u : State} (meets : accessMeets port (aperAddr s port off) data.length f s = u) :
    exec (.apertureWrite port off data f) s =
      if aperWaits u (aperAddr s port off) data.length then
        .next { u with host := { u.host with aperWrites := u.host.aperWrites ++ [(port, aperAddr s port off, data)] } }
      else if spaceOf (aperAddr s port off) == .near then .next (noteAll (nearWriteFor port (aperAddr s port off) data data.length u))
      else .next (noteAll (writeBytes (aperAddr s port off) data u)) := by
  refine (if_neg (by rw [timely]; decide)).trans ((if_neg (by rw [permitted]; decide)).trans ((if_neg (by rw [passes]; decide)).trans ?_))
  rw [meets]

end

theorem getD_readBytes (s : State) (a : Nat) {i n : Nat} (less : i < n) : (readBytes s a n).getD i 0 = readByte s (a + i) := by
  induction n generalizing a i with
  | zero => omega
  | succ n ih =>
    cases i with
    | zero => rfl
    | succ i =>
      rw [readBytes, List.getD_cons_succ, ih (a + 1) (by omega), Nat.add_right_comm]
      rfl

theorem readByte_writeBytes_self {a : Nat} {s : State} (l : List Byte) (hs : Inv s) (far : nearEnd ≤ a) {i : Nat} (less : i < l.length) :
    readByte (writeBytes a l s) (a + i) = l.getD i 0 := by
  rw [← getD_readBytes _ a less, readBytes_writeBytes_self l hs far]

theorem readByte_noteAll (s : State) (a : Nat) : readByte (noteAll s) a = readByte s a :=
  readByte_of_frame (noteAll_frame s) (by decide) (by decide) a

theorem far_of_tile {a : Nat} (tile : spaceOf a = .tile) : nearEnd ≤ a := by
  by_contra near
  rw [spaceOf, if_pos (Nat.lt_of_not_le near)] at tile
  cases tile

theorem tileWrite_acts {a : Nat} {data : List Byte} {s : State} (tile : spaceOf a = .tile) (hs : Inv s) :
    (∀ i < data.length, readByte (noteAll (writeBytes a data s)) (a + i) = data.getD i 0) ∧
      (∀ x, x < a ∨ a + data.length ≤ x → readByte (noteAll (writeBytes a data s)) x = readByte s x) ∧
      OnlyChanges [.mem, .plays] s (noteAll (writeBytes a data s)) := by
  have far := far_of_tile tile
  refine ⟨fun i less => ?_, fun x out => ?_, ((writeBytes_frame a data s).mono (by decide)).step (noteAll_frame _) (by decide)⟩
  · rw [readByte_noteAll, readByte_writeBytes_self data hs far less]
  · rw [readByte_noteAll, readByte_writeBytes_ne data a s fun i less => memKey_ne_of_far (far_add far i) (by omega) s]

/-- A write that lies in one granule: past it nothing is left to write. -/
theorem nearWriteFor_of_granule {port a : Nat} {data : List Byte} (some : 0 < data.length) (fits : a % 512 + data.length ≤ 512) (s : State) :
    nearWriteFor port a data data.length s =
      if isRetired s a then postFull Ev.retiredAccess port 0xFFFFFFFF 0 0 [] s else writeBytes a data (unpoison a data.length s) := by
  obtain ⟨n, size⟩ := Nat.exists_eq_add_one.2 some
  have whole : data.take (512 - a % 512) = data := List.take_of_length_le (by omega)
  have rest : data.drop (512 - a % 512) = [] := List.drop_of_length_le (by omega)
  have done : ∀ (m b : Nat) (u : State), nearWriteFor port b [] m u = u := by
    intro m b u
    cases m <;> rfl
  have nonempty : data.isEmpty = false := by
    rw [List.isEmpty_eq_false_iff]
    rintro rfl
    exact absurd some (by decide)
  conv_lhs => rw [size, nearWriteFor]
  simp only [nonempty, Bool.false_eq_true, if_false, whole, rest, done]

theorem apertureWrite_acts (port off : Nat) (data : List Byte) (f : MoveFault) (s : State) :
    let a := aperAddr s port off
    let n := data.length
    let write := exec (.apertureWrite port off data f) s
    let s₁ := accessMeets port a n f s
    let allowed := aperEarly s a = false ∧ aperPermits s port true a n = true ∧ xingClosed s 14 8 = false
    (faultIn a n f = false → s₁ = s) ∧
    (aperEarly s a = true → ∃ t, write = .next t ∧ Raises Ev.apertureEarly s t ∧ OnlyChanges [.host, .xing, .store] s t) ∧
    (aperEarly s a = false → aperPermits s port true a n = false → ∃ t, write = .next t ∧
      ((getPcie s port).aper.faulted = false → Raises Ev.apertureFault s t) ∧
      ((getPcie s port).aper.faulted = true → t = s) ∧ OnlyChanges [.host, .xing, .store] s t) ∧
    (aperEarly s a = false → aperPermits s port true a n = true → xingClosed s 14 8 = true → write = .next s) ∧
    (allowed → aperWaits s₁ a n = true →
      write = .next { s₁ with host := { s₁.host with aperWrites := s₁.host.aperWrites ++ [(port, a, data)] } }) ∧
    (allowed → aperWaits s₁ a n = false → spaceOf a = .tile → faultIn a n f = false → Inv s →
      ∃ t, write = .next t ∧ (∀ i < n, readByte t (a + i) = data.getD i 0) ∧
        (∀ x, x < a ∨ a + n ≤ x → readByte t x = readByte s x) ∧ OnlyChanges [.mem, .plays] s t) ∧
    (allowed → aperWaits s₁ a n = false → spaceOf a = .near → write = .next (noteAll (nearWriteFor port a data n s₁))) ∧
    (spaceOf a = .near → 0 < n → a % 512 + n ≤ 512 →
      (isRetired s a = false → nearWriteFor port a data n s = writeBytes a data (unpoison a n s)) ∧
      (isRetired s a = true → Raises Ev.retiredAccess s (nearWriteFor port a data n s) ∧
        OnlyChanges [.host, .xing, .store] s (nearWriteFor port a data n s))) := by
  intro a n write s₁ allowed
  have goes : ∀ (_ : allowed), write = _ := fun ⟨timely, permitted, passes⟩ =>
    exec_apertureWrite_of_allowed (u := s₁) port off data f timely permitted passes rfl
  refine ⟨fun out => accessMeets_of_out out s, fun early => ?_, fun timely bad => ?_,
    fun timely permitted shut => exec_apertureWrite_of_shut port off data f timely permitted shut, fun ok waits => (goes ok).trans (if_pos waits),
    fun ok serves tile out hs => ?_, fun ok serves near => ?_, fun _ some fits => ⟨fun sound => ?_, fun retired => ?_⟩⟩
  · exact ⟨_, exec_apertureWrite_of_early port off data f early, raises_postFull _ _ _ _ _ _ _, aperEarlyEvent_frame port s⟩
  · obtain ⟨-, fresh, again, frame⟩ := aperFault_marks port s
    exact ⟨_, exec_apertureWrite_of_fault port off data f timely bad, fresh, again, frame⟩
  · have same : s₁ = s := accessMeets_of_out out s
    refine ⟨_, (goes ok).trans ((if_neg (by rw [serves]; decide)).trans (if_neg ?_)), ?_⟩
    · rw [show spaceOf (aperAddr s port off) = .tile from tile]
      decide
    · rw [same]
      exact tileWrite_acts tile hs
  · exact (goes ok).trans ((if_neg (by rw [serves]; decide)).trans (if_pos (beq_iff_eq.2 near)))
  · rw [nearWriteFor_of_granule some fits, if_neg (by rw [sound]; decide)]
  · rw [nearWriteFor_of_granule some fits, if_pos retired]
    exact ⟨raises_postFull _ _ _ _ _ _ _, (postFull_frame _ _ _ _ _ _ _).mono (by decide)⟩

/-- A single write that waited: it waits on, or goes to memory. -/
theorem serveAper_of_one (port a : Nat) (data : List Byte) (s : State) (one : s.host.aperWrites = [(port, a, data)]) :
    let s₀ := { s with host := { s.host with aperWrites := [] } }
    (rangeWaits s a data.length = true → serveAper s = noteAll s) ∧
    (rangeWaits s a data.length = false → serveAper s = noteAll (nearWriteFor port a data data.length s₀)) := by
  intro s₀
  refine ⟨fun waits => ?_, fun serves => ?_⟩
  · have kept : s.host.aperWrites.filter (fun x => rangeWaits s x.2.1 x.2.2.length) = s.host.aperWrites := by
      rw [one]
      simp [waits]
    rw [serveAper, kept]
    refine (if_neg (by rw [one]; exact Bool.false_ne_true)).trans (congrArg noteAll ?_)
    change s.host.aperWrites.foldl _ s = s
    rw [one, List.foldl_cons, List.foldl_nil, if_pos waits]
  · have none_ : s.host.aperWrites.filter (fun x => rangeWaits s x.2.1 x.2.2.length) = [] := by
      rw [one]
      simp [serves]
    rw [serveAper, none_]
    refine (if_neg (by rw [one]; exact Bool.false_ne_true)).trans (congrArg noteAll ?_)
    rw [one, List.foldl_cons, List.foldl_nil, if_neg (by rw [serves]; decide)]

theorem apertureWrites : Claim.ApertureWrites := ⟨apertureWrite_acts, noteAll_frame, serveAper_of_one⟩

/-- Settles O53: what a fetch, a dropped reply, the first event that waits and an access through the aperture do, case by case. -/
theorem fetchEventsAperture : Obligations.FetchEventsAperture :=
  ⟨fetchFailsOrIdles, repliesOfResetPortsAreDropped, eventsRunInOrder, apertureReads, apertureWrites⟩

end Sys2Proof.Machine
end

section
/-! SUPPORT. Collectives are set, become due and start (R396, R402). -/

namespace Sys2Proof.Machine

/-! ### COLL_SET -/

theorem exec_collSet_of_admitted {p : Packet} {s : State} (h : Admitted 0x0503 p s) : exec (.collSet p) s = .next (opCollSet p (arrived s)) := by
  rw [exec_of_admitted rfl h rfl (by decide) (by decide), runOp, h.2.1]
  rfl

/-- The module with a table of collective slots. -/
def withColls (l : Table CollSlot) (s : State) : State := { s with colls := l }

theorem withColls_frame (l : Table CollSlot) (s : State) : OnlyChanges [.colls] s (withColls l s) := only_colls (.refl _ _) _ (by decide)

/-- A COLL_SET's items are in range, and its MEMBERS those of its routing set. -/
def collRanges (p : Packet) (s : State) : Prop := collItems p (item p.param 0 2) = true ∧ ((newSlot p).op ≠ 7 → (newSlot p).members = (rtSet s (newSlot p).rts).members)

/-- A COLL_SET's addresses lie in near-tier entries. -/
def collPlaces (p : Packet) (s : State) : Prop := (newSlot p).op ≠ 7 → collAddrs s (newSlot p) = true

section
variable {p : Packet} {s : State}

theorem opCollSet_of_range (bad : ¬collRanges p s) : opCollSet p s = refuse p Status.linkValue s := by
  by_cases items : collItems p (item p.param 0 2) = true
  · refine (if_neg (by rw [pN, items]; decide)).trans (if_pos ?_)
    rw [Bool.and_eq_true, bne_iff_ne, bne_iff_ne]
    by_contra fits
    exact bad ⟨items, fun set => by_contra fun other => fits ⟨set, other⟩⟩
  · exact if_pos (by rw [pN, eq_false_of_ne_true items]; rfl)

variable (ranges : collRanges p s)
include ranges

theorem opCollSet_of_ranges : opCollSet p s =
    if (newSlot p).op != 7 && !collAddrs s (newSlot p) then refuse p Status.addrRange s
    else if (lookup (item p.param 0 2) s.colls).elim false slotOpen then refuse p Status.linkBusy s
    else accept p (withColls (if (newSlot p).op = 7 then delKey (item p.param 0 2) s.colls else upsert (item p.param 0 2) (newSlot p) s.colls) s) := by
  refine (if_neg (by rw [pN, ranges.1]; decide)).trans (if_neg ?_)
  rw [Bool.and_eq_true, bne_iff_ne, bne_iff_ne]
  exact fun ⟨set, other⟩ => other (ranges.2 set)

theorem opCollSet_of_place (bad : ¬collPlaces p s) : opCollSet p s = refuse p Status.addrRange s := by
  refine (opCollSet_of_ranges ranges).trans (if_pos ?_)
  obtain ⟨set, off⟩ := Classical.not_imp.1 bad
  rw [Bool.and_eq_true, bne_iff_ne, Bool.not_eq_true']
  exact ⟨set, Bool.not_eq_true _ ▸ off⟩

variable (places : collPlaces p s)
include places

theorem opCollSet_of_places : opCollSet p s =
    if (lookup (item p.param 0 2) s.colls).elim false slotOpen then refuse p Status.linkBusy s
    else accept p (withColls (if (newSlot p).op = 7 then delKey (item p.param 0 2) s.colls else upsert (item p.param 0 2) (newSlot p) s.colls) s) := by
  refine (opCollSet_of_ranges ranges).trans (if_neg ?_)
  rw [Bool.and_eq_true, bne_iff_ne, Bool.not_eq_true']
  exact fun ⟨set, off⟩ => absurd (places set) (by rw [off]; decide)

end

/-- What an accepted command that changes the slots leaves. -/
theorem withColls_accepted {p : Packet} {s : State} (plain : stepOpcode p.opc = false) (rsv : p.rsv = 0) (l : Table CollSlot) :
    Answered p 0 0 s (accept p (withColls l (arrived s))) ∧ (accept p (withColls l (arrived s))).colls = l ∧
      OnlyChanges [.arrivals, .host, .colls] s (accept p (withColls l (arrived s))) := by
  have frame := reply_frame_of_plain plain (okStatus p) 0 (withColls l (arrived s))
  exact ⟨okStatus_of_rsv rsv ▸ answered_reply plain rfl rfl (okStatus p) 0, frame .colls (by decide),
    (((arrived_frame s).mono (by decide)).step (withColls_frame l _) (by decide)).step frame (by decide)⟩

theorem collSetActs (p : Packet) (s : State) (h : Admitted 0x0503 p s) :
    let n := item p.param 0 2
    let c := newSlot p
    let ranges := collItems p n = true ∧ (c.op ≠ 7 → c.members = (rtSet s c.rts).members)
    let places := c.op ≠ 7 → collAddrs s c = true
    let busy := (lookup n s.colls).elim false slotOpen
    (¬ranges → exec (.collSet p) s = .next (reply p Status.linkValue 0 (arrived s))) ∧
    (ranges → ¬places → exec (.collSet p) s = .next (reply p Status.addrRange 0 (arrived s))) ∧
    (ranges → places → busy = true → exec (.collSet p) s = .next (reply p Status.linkBusy 0 (arrived s))) ∧
    (ranges → places → busy = false → c.op = 7 →
      ∃ t, exec (.collSet p) s = .next t ∧ Answered p 0 0 s t ∧ t.colls = delKey n s.colls ∧ OnlyChanges [.arrivals, .host, .colls] s t) ∧
    (ranges → places → busy = false → c.op ≠ 7 →
      ∃ t, exec (.collSet p) s = .next t ∧ Answered p 0 0 s t ∧ lookup n t.colls = some c ∧ (∀ m, m ≠ n → lookup m t.colls = lookup m s.colls) ∧
        OnlyChanges [.arrivals, .host, .colls] s t) := by
  intro n c ranges places busy
  have plain : stepOpcode p.opc = false := by rw [h.2.1]; rfl
  have run := exec_collSet_of_admitted h
  refine ⟨fun bad => ?_, fun items bad => ?_, fun items put held => ?_, fun items put free clear => ?_, fun items put free set => ?_⟩
  · rw [run, opCollSet_of_range (s := arrived s) bad]
    rfl
  · rw [run, opCollSet_of_place (s := arrived s) items bad]
    rfl
  · rw [run, opCollSet_of_places (s := arrived s) items put]
    exact congrArg Host.Outcome.next (if_pos held)
  · rw [opCollSet_of_places (s := arrived s) items put] at run
    have run := run.trans (congrArg Host.Outcome.next (if_neg (ne_true_of_eq_false free)))
    rw [if_pos clear] at run
    exact ⟨_, run, withColls_accepted plain h.rsv _⟩
  · rw [opCollSet_of_places (s := arrived s) items put] at run
    have run := run.trans (congrArg Host.Outcome.next (if_neg (ne_true_of_eq_false free)))
    rw [if_neg set] at run
    obtain ⟨answered, colls, frame⟩ := withColls_accepted (s := s) plain h.rsv (upsert n c s.colls)
    refine ⟨_, run, answered, ?_, fun m other => ?_, frame⟩
    · exact (congrArg (lookup n) colls).trans (lookup_upsert_self ..)
    · exact (congrArg (lookup m) colls).trans (lookup_upsert_ne other ..)

/-! ### COLL_FIRE -/

/-- What earlier aborts leave of a command whose only time is a FIRE of 0. -/
theorem shifted_untimed {p : Packet} {s : State} (fire : p.fire = 0) (play : p.opc ≠ 0x0301) (arm : p.opc ≠ 0x0404) : shifted s p = p := by
  have same : ∀ d, shiftPacket d p = p := by
    intro d
    unfold shiftPacket
    extract_lets q
    have untimed : q = p := by
      unfold q shiftFire
      rw [if_pos fire, ← fire]
    split
    case h_1 opc => exact absurd (untimed ▸ opc) play
    case h_2 opc => exact absurd (untimed ▸ opc) arm
    case h_3 => exact untimed
  unfold shifted
  split
  · rw [same]
    exact ite_self _
  · rfl

/-- A command with a step as the dispatcher hands it on. -/
def tagged (p : Packet) (s : State) : Packet := { shifted s p with tag := s.arrivals }

/-- What an admitted command with a step does whose FIRE is 0. -/
theorem dispatchPacket_of_untimed {o : Nat} {p : Packet} {s : State} (h : Admitted o p s) (step : stepOpcode o = true) :
    dispatchPacket p s = runStep (tagged p s) s.arrivals false (logStep (tagged p s) s.arrivals (arrived s)) := by
  obtain ⟨serves, opc, fire, passes⟩ := h
  have zero : (shifted s p).fire = 0 := by
    unfold shifted
    split
    · split
      · exact fire
      · unfold shiftPacket
        extract_lets q
        have zero : q.fire = 0 := by
          unfold q shiftFire
          exact if_pos fire
        split
        · exact zero
        · exact zero
        · exact zero
    · exact fire
  refine (dispatchPacket_of_step serves passes (opc ▸ step) (fireRefusal_of_zero zero) ?_).trans rfl
  rw [isLate, zero]
  rfl

section
variable {p : Packet} {s : State} (h : Admitted 0x0504 p s)
include h

theorem tagged_collFire : tagged p s = { p with tag := s.arrivals } := by
  rw [tagged, shifted_untimed h.2.2.1 (by rw [h.2.1]; decide) (by rw [h.2.1]; decide)]

theorem exec_collFire_of_admitted : exec (.collFire p) s = .next (opCollFire (tagged p s) (logStep (tagged p s) s.arrivals (arrived s))) := by
  have same : { p with opc := 0x0504 } = p := by rw [← h.2.1]
  have opc : (tagged p s).opc = 0x0504 := by rw [tagged_collFire h]; exact h.2.1
  have fire : (tagged p s).fire = 0 := by rw [tagged_collFire h]; exact h.2.2.1
  rw [exec_packetRow rfl, same, dispatchPacket_of_untimed h rfl, runStep, opc]
  refine congrArg Host.Outcome.next ?_
  change atFire _ _ _ _ _ = _
  rw [atFire, fire]
  rfl

end

section
variable {p : Packet} {s : State}

theorem opCollFire_of_slot {c : CollSlot} (found : lookup (item p.param 0 2) s.colls = some c) (op : c.op ≠ 0) :
    opCollFire p s = withColls (upsert (item p.param 0 2) { c with due := c.due ++ [p] } s.colls) s := by
  have found : lookup (pN p 0 2) s.colls = some c := found
  rw [opCollFire, found]
  exact if_neg op

theorem opCollFire_of_none (none : ∀ c, lookup (item p.param 0 2) s.colls = some c → c.op = 0) : opCollFire p s = refuse p Status.linkValue s := by
  unfold opCollFire
  split
  case h_1 => rfl
  case h_2 c found => exact if_pos (none c found)

end

theorem collFireActs (p : Packet) (s : State) (h : Admitted 0x0504 p s) :
    let q := { shifted s p with tag := s.arrivals }
    let n := item q.param 0 2
    (∀ c, lookup n s.colls = some c → c.op ≠ 0 →
      ∃ t, exec (.collFire p) s = .next t ∧ lookup n t.colls = some { c with due := c.due ++ [q] } ∧
        (∀ m, m ≠ n → lookup m t.colls = lookup m s.colls) ∧ t.host = s.host ∧ OnlyChanges [.arrivals, .colls, .cap] s t) ∧
    ((∀ c, lookup n s.colls = some c → c.op = 0) →
      exec (.collFire p) s = .next (reply q Status.linkValue 0 (logStep q s.arrivals (arrived s)))) := by
  intro q n
  have run := exec_collFire_of_admitted h
  have logged := ((arrived_frame s).mono (m := [.arrivals, .cap]) (by decide)).step (logStep_frame (tagged p s) s.arrivals _) (by decide)
  have colls : (logStep (tagged p s) s.arrivals (arrived s)).colls = s.colls := logged .colls (by decide)
  refine ⟨fun c found op => ?_, fun missing => ?_⟩
  · rw [opCollFire_of_slot (p := tagged p s) (colls ▸ found) op, colls] at run
    refine ⟨_, run, lookup_upsert_self .., fun m other => lookup_upsert_ne other .., logged .host (by decide), ?_⟩
    exact (logged.mono (by decide)).step (withColls_frame _ _) (by decide)
  · rw [run, opCollFire_of_none (p := tagged p s) (colls ▸ missing)]
    rfl

theorem collectivesAreSet : Claim.CollectivesAreSet := ⟨collSetActs, collFireActs⟩

/-! ### What the end of a collective leaves -/

theorem faultStep_cap {s t : State} (same : t.cap = s.cap) (step : W32) : (faultStep step t).cap = (faultStep step s).cap := by
  unfold faultStep
  rw [same]
  split
  · rfl
  · exact same

theorem stepFaulted_faultStep (step : W32) (s : State) :
    (faultStep step s).cap.stepFaulted = (s.cap.stepFaulted || decide (s.cap.committed.toNat < step.toNat)) := by
  unfold faultStep
  split
  case isTrue above => rw [decide_eq_true above, Bool.or_true]
  case isFalse below => rw [decide_eq_false below, Bool.or_false]

/-- The reply of a command that has not replied before. -/
theorem reply_first {p : Packet} {s : State} (first : hasReplied p.tag s = false) (st : BitVec 16) (d : W64) :
    ∃ r, (reply p st d s).host.replies = s.host.replies ++ [r] ∧ r.seq = p.seq ∧ r.queue = p.queue ∧ r.status = st := by
  unfold reply
  split
  · rw [stepReply, if_neg (by rw [first]; decide)]
    exact ⟨_, rfl, rfl, rfl, rfl⟩
  · exact ⟨_, rfl, rfl, rfl, rfl⟩

/-- A slot whose collective has ended. -/
def ended (c : CollSlot) : CollSlot := { c with running := none, own := [], shared := none }

theorem stopColl_acts (slot : Nat) (c : CollSlot) (p : Packet) (s : State) :
    let t := stopColl slot c p Status.clockStopped s
    lookup slot t.colls = some (ended c) ∧ (∀ m, m ≠ slot → lookup m t.colls = lookup m s.colls) ∧
      t.cap.stepFaulted = (s.cap.stepFaulted || decide (s.cap.committed.toNat < (collStep p).toNat)) ∧
      (hasReplied p.tag s = false → ∃ r, t.host.replies = s.host.replies ++ [r] ∧ r.seq = p.seq ∧ r.queue = p.queue ∧ r.status = Status.clockStopped) ∧
      OnlyChanges [.colls, .cap, .host, .xing, .store] s t := by
  intro t
  have told : OnlyChanges _ _ (refuse p Status.clockStopped (withColls (upsert slot (ended c) s.colls) s)) := refuse_frame _ _ _
  have lasts : CapLasts (withColls (upsert slot (ended c) s.colls) s) (refuse p Status.clockStopped (withColls (upsert slot (ended c) s.colls) s)) := refuse_lasts ..
  have faults := faultStep_frame (collStep p) (refuse p Status.clockStopped (withColls (upsert slot (ended c) s.colls) s))
  have colls : t.colls = upsert slot (ended c) s.colls := (faults .colls (by decide)).trans (told .colls (by decide))
  refine ⟨(congrArg (lookup slot) colls).trans (lookup_upsert_self ..), fun m other => (congrArg (lookup m) colls).trans (lookup_upsert_ne other ..), ?_,
    fun first => ?_, (stopColl_frame slot c p Status.clockStopped s).mono (by decide)⟩
  · have kept : (refuse p Status.clockStopped (withColls (upsert slot (ended c) s.colls) s)).cap.stepFaulted = s.cap.stepFaulted :=
      (congrArg Cap.stepFaulted lasts :)
    refine (stepFaulted_faultStep (collStep p) (refuse p Status.clockStopped (withColls (upsert slot (ended c) s.colls) s))).trans ?_
    rw [kept, lasts.committed]
    rfl
  · obtain ⟨r, replies, reply⟩ := reply_first (s := withColls (upsert slot (ended c) s.colls) s) first Status.clockStopped 0
    exact ⟨r, (congrArg HostIf.replies (faults .host (by decide))).trans replies, reply⟩

/-! ### COLLECTIVE_START -/

/-- The bytes that a member's source holds. -/
def srcBytes (c : CollSlot) : Nat := c.nel * collBytes c.fmt

/-- A slot whose next collective has begun, with the source that it has read. -/
def begun (c : CollSlot) (p : Packet) (r : List Packet) (l : List Byte) : CollSlot := { c with due := r, running := some p, own := l, shared := none }

/-- Every other member gets its part of this member's source. -/
def sendParts (slot : Nat) (c : CollSlot) (step : W32) (l : List Byte) (s : State) : State :=
  (otherMembers s c.rts c.members).foldl (fun s m => sendData slot c step 0 m (c.part m l) s) s

theorem sendParts_frame (slot : Nat) (c : CollSlot) (step : W32) (l : List Byte) (s : State) :
    OnlyChanges [.ports, .host, .xing, .store] s (sendParts slot c step l s) := .foldl (fun s m => sendData_frame slot c step 0 m (c.part m l) s) _ _

theorem HostSame.foldl {α : Type} {f : State → α → State} (step : ∀ s x, HostSame s (f s x)) (l : List α) (s : State) : HostSame s (l.foldl f s) := by
  induction l generalizing s with
  | nil => rfl
  | cons x l ih => exact (step s x).trans (ih _)

theorem sendData_same (slot : Nat) (c : CollSlot) (step : W32) (first m : Nat) (l : List Byte) (s : State) : HostSame s (sendData slot c step first m l s) :=
  HostSame.foldl (fun s _ => sendPacket_same _ s) _ _

theorem sendParts_same (slot : Nat) (c : CollSlot) (step : W32) (l : List Byte) (s : State) : HostSame s (sendParts slot c step l s) :=
  HostSame.foldl (fun s m => sendData_same slot c step 0 m (c.part m l) s) _ _

section
variable {slot : Nat} {c : CollSlot} {p : Packet} {r : List Packet} {s : State}

theorem exec_collectiveStart_of_idle (idle : ∀ c, lookup slot s.colls = some c → c.due = [] ∨ c.running.isSome = true) :
    exec (.collectiveStart slot) s = .next s := by
  change execCollectiveStart slot s = _
  unfold execCollectiveStart
  split
  case h_1 => rfl
  case h_2 c found =>
    split
    case h_1 p r due running =>
      rcases idle c found with none | busy
      · rw [none] at due
        cases due
      · rw [running] at busy
        cases busy
    case h_2 => rfl

variable (found : lookup slot s.colls = some c) (due : c.due = p :: r) (idle : c.running = none)
include found due idle

/-- A collective that is due on a slot that runs none. -/
theorem exec_collectiveStart_of_due : exec (.collectiveStart slot) s =
    if rangeWaits s c.src (srcBytes c) then .next s
    else if xingClosed s 8 9 then .next (stopColl slot { c with due := r } p Status.clockStopped s)
    else match engineRead 8 p.origin c.src (srcBytes c) s with
      | (.gone _, u) => .next (faultStep (collStep p) (withColls (upsert slot (begun c p r []) u.colls) u))
      | (.got l, u) => .next (sendParts slot (begun c p r []) (collStep p) l (withColls (upsert slot (begun c p r l) u.colls) u)) := by
  change execCollectiveStart slot s = _
  rw [execCollectiveStart, found]
  dsimp only
  rw [due, idle]
  rfl

variable (serves : rangeWaits s c.src (srcBytes c) = false)
include serves

theorem exec_collectiveStart_of_shut (shut : xingClosed s 8 9 = true) :
    exec (.collectiveStart slot) s = .next (stopColl slot { c with due := r } p Status.clockStopped s) :=
  (exec_collectiveStart_of_due found due idle).trans ((if_neg (by rw [serves]; decide)).trans (if_pos shut))

variable (passes : xingClosed s 8 9 = false)
include passes

theorem exec_collectiveStart_of_reads (reads : engineReads s c.src (srcBytes c)) : exec (.collectiveStart slot) s =
    .next (sendParts slot (begun c p r []) (collStep p) (srcRead s c.src (srcBytes c))
      (withColls (upsert slot (begun c p r (srcRead s c.src (srcBytes c))) s.colls) s)) := by
  refine (exec_collectiveStart_of_due found due idle).trans ((if_neg (by rw [serves]; decide)).trans ((if_neg (by rw [passes]; decide)).trans ?_))
  rw [engineRead_of_reads passes p.origin reads]

theorem exec_collectiveStart_of_bad (bad : ¬engineReads s c.src (srcBytes c)) : ∃ u, HostSame s u ∧ OnlyChanges [.host, .xing, .store] s u ∧
    exec (.collectiveStart slot) s = .next (faultStep (collStep p) (withColls (upsert slot (begun c p r []) u.colls) u)) := by
  obtain ⟨u, read, same⟩ := engineRead_of_bad passes p.origin bad
  have frame := engineRead_frame 8 p.origin c.src (srcBytes c) s
  rw [read] at frame
  refine ⟨u, same, frame, ?_⟩
  refine (exec_collectiveStart_of_due found due idle).trans ((if_neg (by rw [serves]; decide)).trans ((if_neg (by rw [passes]; decide)).trans ?_))
  rw [read]

end

/-- What COLLECTIVE_START leaves of a slot whose source it can read. -/
theorem started_acts {slot : Nat} {c : CollSlot} {p : Packet} {r : List Packet} {s : State} (found : lookup slot s.colls = some c) (due : c.due = p :: r)
    (idle : c.running = none) (serves : rangeWaits s c.src (srcBytes c) = false) (passes : xingClosed s 8 9 = false)
    (reads : engineReads s c.src (srcBytes c)) :
    let d := begun c p r (srcRead s c.src (srcBytes c))
    ∃ t, exec (.collectiveStart slot) s = .next t ∧ lookup slot t.colls = some d ∧ (∀ m, m ≠ slot → lookup m t.colls = lookup m s.colls) ∧ HostSame s t ∧
      OnlyChanges [.colls, .ports, .host, .xing, .store] s t ∧
      t = sendParts slot (begun c p r []) (collStep p) (srcRead s c.src (srcBytes c)) (withColls (upsert slot d s.colls) s) := by
  intro d
  have sends := sendParts_frame slot (begun c p r []) (collStep p) (srcRead s c.src (srcBytes c)) (withColls (upsert slot d s.colls) s)
  have same := sendParts_same slot (begun c p r []) (collStep p) (srcRead s c.src (srcBytes c)) (withColls (upsert slot d s.colls) s)
  have colls := sends .colls (by decide)
  refine ⟨_, exec_collectiveStart_of_reads found due idle serves passes reads, (congrArg (lookup slot) colls).trans (lookup_upsert_self ..),
    fun m other => (congrArg (lookup m) colls).trans (lookup_upsert_ne other ..), same, ((withColls_frame _ s).mono (by decide)).step sends (by decide), rfl⟩

/-- What it leaves of one whose source it cannot read. -/
theorem unread_acts {slot : Nat} {c : CollSlot} {p : Packet} {r : List Packet} {s : State} (found : lookup slot s.colls = some c) (due : c.due = p :: r)
    (idle : c.running = none) (serves : rangeWaits s c.src (srcBytes c) = false) (passes : xingClosed s 8 9 = false)
    (bad : ¬engineReads s c.src (srcBytes c)) :
    ∃ t, exec (.collectiveStart slot) s = .next t ∧ lookup slot t.colls = some (begun c p r []) ∧
      t.cap = (faultStep (collStep p) s).cap ∧ HostSame s t ∧ OnlyChanges [.colls, .cap, .host, .xing, .store] s t := by
  obtain ⟨u, same, frame, run⟩ := exec_collectiveStart_of_bad found due idle serves passes bad
  have faults := faultStep_frame (collStep p) (withColls (upsert slot (begun c p r []) u.colls) u)
  have colls := faults .colls (by decide)
  refine ⟨_, run, (congrArg (lookup slot) colls).trans (lookup_upsert_self ..), faultStep_cap (t := withColls (upsert slot (begun c p r []) u.colls) u) (frame .cap (by decide)) _, ?_,
    (((frame.mono (by decide)).step (withColls_frame _ u) (by decide)).step faults (by decide))⟩
  exact (congrArg HostIf.butLog (faults .host (by decide))).trans same

end Sys2Proof.Machine
end

section
/-! SUPPORT. Collectives complete, with their results; CollectivesRun and CollectivesComplete (R402). -/

namespace Sys2Proof.Machine

/-! ### What a near-tier write depends on -/

/-- Two states hold the same memory, decoded and marked the same. -/
structure MemAlike (s t : State) : Prop where
  mem : t.mem = s.mem
  regions : t.regions = s.regions
  near : t.near = s.near

theorem MemAlike.of_frame {l : List Part} {s t s' t' : State} (alike : MemAlike s t) (first : OnlyChanges l s s') (second : OnlyChanges l t t')
    (mem : Part.mem ∉ l) (regions : Part.regions ∉ l) (near : Part.near ∉ l) : MemAlike s' t' where
  mem := (second .mem mem).trans (alike.mem.trans (first .mem mem).symm)
  regions := (second .regions regions).trans (alike.regions.trans (first .regions regions).symm)
  near := (second .near near).trans (alike.near.trans (first .near near).symm)

section
variable {s t : State} (alike : MemAlike s t)
include alike

theorem rowOf_of_alike (a : Nat) : rowOf t a = rowOf s a := by rw [rowOf, rowOf, regionOf, regionOf, alike.regions]

theorem isRetired_of_alike (a : Nat) : isRetired t a = isRetired s a := by rw [isRetired, isRetired, rowOf_of_alike alike, alike.near]

theorem unpoison_alike (a n : Nat) : MemAlike (unpoison a n s) (unpoison a n t) := by
  unfold unpoison
  rw [rowOf_of_alike alike]
  cases rowOf s a with
  | none => exact alike
  | some r => exact ⟨alike.mem, alike.regions, by dsimp only; rw [alike.near]⟩

theorem writeByte_alike (a : Nat) (v : Byte) : MemAlike (writeByte a v s) (writeByte a v t) := by
  have key : memKey t a = memKey s a := by rw [memKey, memKey, regionOf, regionOf, alike.regions]
  unfold writeByte
  rw [key]
  cases memKey s a with
  | none => exact alike
  | some k => exact ⟨by dsimp only; rw [alike.mem], alike.regions, alike.near⟩

end

theorem writeBytes_alike (l : List Byte) : ∀ (a : Nat) {s t : State}, MemAlike s t → MemAlike (writeBytes a l s) (writeBytes a l t) := by
  induction l with
  | nil => exact fun _ _ _ alike => alike
  | cons b l ih => exact fun a _ _ alike => ih (a + 1) (writeByte_alike alike a b)

theorem nearWriteFor_alike (origin : Nat) : ∀ (n a : Nat) (l : List Byte) {s t : State}, MemAlike s t →
    MemAlike (nearWriteFor origin a l n s) (nearWriteFor origin a l n t)
  | 0, _, _, _, _, alike => alike
  | n + 1, a, l, s, t, alike => by
    rw [nearWriteFor, nearWriteFor]
    split
    · exact alike
    · refine nearWriteFor_alike origin n _ _ ?_
      rw [isRetired_of_alike alike]
      split
      · exact alike.of_frame (postFull_frame _ _ _ _ _ _ _) (postFull_frame _ _ _ _ _ _ _) (by decide) (by decide) (by decide)
      · exact writeBytes_alike _ a (unpoison_alike alike a _)

/-! ### The result and what comes with it -/

/-- A slot as it stands but for the converted chunk that it has sent. -/
def SharesOf (c d : CollSlot) : Prop := d = { c with shared := d.shared }

theorem SharesOf.places {c d : CollSlot} (shares : SharesOf c d) : d.dst = c.dst ∧ tileKnot d.ktile d.knot = tileKnot c.ktile c.knot := by
  unfold SharesOf at shares
  rw [shares]
  exact ⟨rfl, rfl⟩

/-- What a result leaves: the slot but for its shared chunk, the other slots, and the host interface. -/
structure ResultLeaves (slot : Nat) (c : CollSlot) (s u : State) : Prop where
  here : ∃ d, lookup slot u.colls = some d ∧ SharesOf c d
  others : ∀ m, m ≠ slot → lookup m u.colls = lookup m s.colls
  host : HostSame s u

theorem shareChunk_leaves (slot : Nat) (c : CollSlot) (p : Packet) (own : List Byte) (s : State) :
    lookup slot (shareChunk slot c p own s).colls = some { c with shared := some own } ∧
      (∀ m, m ≠ slot → lookup m (shareChunk slot c p own s).colls = lookup m s.colls) ∧ HostSame s (shareChunk slot c p own s) := by
  have sends : OnlyChanges [.ports, .host, .xing, .store] (withColls (upsert slot { c with shared := some own } s.colls) s) (shareChunk slot c p own s) :=
    .foldl (fun s m => sendData_frame _ _ _ _ _ _ s) _ _
  have same : HostSame (withColls (upsert slot { c with shared := some own } s.colls) s) (shareChunk slot c p own s) :=
    HostSame.foldl (fun s m => sendData_same _ _ _ _ _ _ s) _ _
  have colls := sends .colls (by decide)
  exact ⟨(congrArg (lookup slot) colls).trans (lookup_upsert_self ..), fun m other => (congrArg (lookup m) colls).trans (lookup_upsert_ne other ..), same⟩

theorem ResultLeaves.refl {slot : Nat} {c : CollSlot} {s : State} (found : lookup slot s.colls = some c) : ResultLeaves slot c s s :=
  ⟨⟨c, found, rfl⟩, fun _ _ => rfl, rfl⟩

section
variable {slot : Nat} {c : CollSlot} {s : State} (p : Packet) (parts : List (List Byte))

/-- This member's chunk, reduced and converted. -/
def mineOf (c : CollSlot) (p : Packet) (parts : List (List Byte)) (s : State) : List Byte :=
  (c.reduced s.host.seed (collStep p) (rtSet s c.rts).self parts).1

/-- The conversions of this member's chunk are counted. -/
def countedOf (c : CollSlot) (p : Packet) (parts : List (List Byte)) (s : State) : State :=
  countConv c.sid (collStep p) (c.reduced s.host.seed (collStep p) (rtSet s c.rts).self parts).2 s

theorem countedOf_frame (c : CollSlot) (s : State) : OnlyChanges [.watch] s (countedOf c p parts s) := countConv_frame _ _ _ s

theorem collResult_of_scatter (op : c.op = 1) : collResult slot c p parts s = (some (mineOf c p parts s), countedOf c p parts s) := by
  rw [collResult, op]
  rfl

theorem collResult_of_shared (op : c.op = 2) {own : List Byte} (shared : c.shared = some own) :
    collResult slot c p parts s = ((c.chunks (rtSet s c.rts).self (collStep p) own).map List.flatten, s) := by
  rw [collResult, op, shared]
  rfl

theorem collResult_of_fresh (op : c.op = 2) (fresh : c.shared = none) :
    collResult slot c p parts s = ((c.chunks (rtSet s c.rts).self (collStep p) (mineOf c p parts s)).map List.flatten,
      shareChunk slot c p (mineOf c p parts s) (countedOf c p parts s)) := by
  rw [collResult, op, fresh]
  rfl

theorem collResult_of_plain (scatter : c.op ≠ 1) (all : c.op ≠ 2) : collResult slot c p parts s = (some parts.flatten, s) := by
  unfold collResult
  extract_lets self step
  split
  case h_1 op => exact absurd op scatter
  case h_2 op => exact absurd op all
  case h_3 => rfl

theorem collResult_leaves (found : lookup slot s.colls = some c) : ResultLeaves slot c s (collResult slot c p parts s).2 := by
  by_cases scatter : c.op = 1
  · rw [collResult_of_scatter p parts scatter]
    have counts := countedOf_frame p parts c s
    exact ⟨⟨c, (congrArg (lookup slot) (counts .colls (by decide))).trans found, rfl⟩,
      fun m _ => congrArg (lookup m) (counts .colls (by decide)), .of_host (counts .host (by decide))⟩
  · by_cases all : c.op = 2
    · cases shared : c.shared with
      | some own =>
        rw [collResult_of_shared p parts all shared]
        exact .refl found
      | none =>
        rw [collResult_of_fresh p parts all shared]
        have counts := countedOf_frame p parts c s
        obtain ⟨here, others, same⟩ := shareChunk_leaves slot c p (mineOf c p parts s) (countedOf c p parts s)
        exact ⟨⟨_, here, rfl⟩, fun m other => (others m other).trans (congrArg (lookup m) (counts .colls (by decide))),
          (HostSame.of_host (counts .host (by decide))).trans same⟩
    · rw [collResult_of_plain p parts scatter all]
      exact .refl found

/-- With no result yet, an all-reduce's own chunk has gone to the others. -/
theorem collResult_of_none (found : lookup slot s.colls = some c) (none_ : (collResult slot c p parts s).1 = none) :
    c.op = 2 ∧ (∃ d x, lookup slot (collResult slot c p parts s).2.colls = some d ∧ d.shared = some x ∧ d.running = c.running) ∧
      (c.shared ≠ none → (collResult slot c p parts s).2 = s) := by
  by_cases scatter : c.op = 1
  · rw [collResult_of_scatter p parts scatter] at none_
    cases none_
  · by_cases all : c.op = 2
    · refine ⟨all, ?_⟩
      cases shared : c.shared with
      | some own =>
        rw [collResult_of_shared p parts all shared]
        exact ⟨⟨c, own, found, shared, rfl⟩, fun _ => rfl⟩
      | none =>
        rw [collResult_of_fresh p parts all shared]
        exact ⟨⟨_, _, (shareChunk_leaves ..).1, rfl, rfl⟩, fun some => absurd rfl some⟩
    · rw [collResult_of_plain p parts scatter all] at none_
      cases none_

theorem collResult_only : OnlyChanges [.colls, .ports, .watch, .host, .xing, .store] s (collResult slot c p parts s).2 := by
  have frame := collResult_frame slot c p parts s
  generalize collResult slot c p parts s = x at frame ⊢
  exact frame

end

/-! ### The end of a collective -/

/-- A slot whose collective has ended with its result: the packets of its step are gone. -/
def wound (d : CollSlot) (p : Packet) : CollSlot := { d with running := none, own := [], shared := none, got := d.got.filter fun x => x.2.1 != collStep p }

/-- The module with the result in memory. -/
def resultWritten (slot : Nat) (d : CollSlot) (p : Packet) (bytes : List Byte) (u : State) : State :=
  nearWriteFor p.origin d.dst bytes bytes.length (withColls (upsert slot (wound d p) u.colls) u)

theorem endCollective_eq (slot : Nat) (d : CollSlot) (p : Packet) (bytes : List Byte) (u : State) :
    endCollective slot d p bytes u = accept p (outerTie (tileKnot d.ktile d.knot) 1 (noteAll (resultWritten slot d p bytes u))) := rfl

section
variable (slot : Nat) (d : CollSlot) (p : Packet) (bytes : List Byte) (u : State)

theorem resultWritten_frame : OnlyChanges [.colls, .mem, .near, .host, .xing, .store] u (resultWritten slot d p bytes u) :=
  ((withColls_frame _ u).mono (by decide)).step (nearWriteFor_frame _ _ _ _ _) (by decide)

theorem resultWritten_mem : (resultWritten slot d p bytes u).mem = (nearWriteFor p.origin d.dst bytes bytes.length u).mem :=
  (nearWriteFor_alike p.origin bytes.length d.dst bytes (s := u) (t := withColls (upsert slot (wound d p) u.colls) u) ⟨rfl, rfl, rfl⟩).mem

/-- From the result in memory on: the tie, and the reply. -/
theorem resultTied_frame : OnlyChanges [.plays, .knots, .cap, .host, .xing, .store] (resultWritten slot d p bytes u) (endCollective slot d p bytes u) :=
  (((noteAll_frame _).mono (by decide)).step (outerTie_frame _ _ _) (by decide)).step (accept_frame _ _) (by decide)

theorem endCollective_colls : (endCollective slot d p bytes u).colls = upsert slot (wound d p) u.colls :=
  (resultTied_frame slot d p bytes u .colls (by decide)).trans (nearWriteFor_frame p.origin d.dst bytes bytes.length
    (withColls (upsert slot (wound d p) u.colls) u) .colls (by decide))

theorem endCollective_mem : (endCollective slot d p bytes u).mem = (nearWriteFor p.origin d.dst bytes bytes.length u).mem :=
  (resultTied_frame slot d p bytes u .mem (by decide)).trans (resultWritten_mem ..)

theorem endCollective_knots : (∀ k, knot (endCollective slot d p bytes u) k =
    knot (outerTie (tileKnot d.ktile d.knot) 1 (noteAll (resultWritten slot d p bytes u))) k) ∧
    ∀ k, knot (noteAll (resultWritten slot d p bytes u)) k = knot u k := by
  refine ⟨fun k => knot_of_knots (accept_frame p _ .knots (by decide)) k, fun k => ?_⟩
  exact knot_of_knots ((noteAll_frame _ .knots (by decide)).trans (resultWritten_frame slot d p bytes u .knots (by decide))) k

theorem knot_endCollective_self : knot (endCollective slot d p bytes u) (tileKnot d.ktile d.knot) = knot u (tileKnot d.ktile d.knot) + 1 := by
  obtain ⟨last, first⟩ := endCollective_knots slot d p bytes u
  rw [last, knot_outerTie_self, first]

theorem knot_endCollective_ne {j : Nat} (other : j ≠ tileKnot d.ktile d.knot) : knot (endCollective slot d p bytes u) j = knot u j := by
  obtain ⟨last, first⟩ := endCollective_knots slot d p bytes u
  rw [last, knot_outerTie_ne other, first]

theorem readByte_endCollective {x : Nat} (out : ∀ i < bytes.length, memKey u x ≠ memKey u (d.dst + i)) :
    readByte (endCollective slot d p bytes u) x = readByte u x := by
  rw [readByte_of_frame (resultTied_frame slot d p bytes u) (by decide) (by decide)]
  exact readByte_nearWriteFor_ne p.origin bytes.length out

theorem endCollective_reply (first : hasReplied p.tag u = false) : ∃ r, (endCollective slot d p bytes u).host.replies = u.host.replies ++ [r] ∧
    r.seq = p.seq ∧ r.queue = p.queue ∧ r.status = if p.rsv = 1 then Status.fireLate else Status.ok := by
  rw [endCollective_eq]
  have written := nearWriteFor_same p.origin bytes.length d.dst bytes (withColls (upsert slot (wound d p) u.colls) u)
  have late := ((noteAll_frame (resultWritten slot d p bytes u)).mono (m := [.knots, .plays]) (by decide)).step
    (outerTie_frame (tileKnot d.ktile d.knot) 1 (noteAll (resultWritten slot d p bytes u))) (by decide)
  have cap : (outerTie (tileKnot d.ktile d.knot) 1 (noteAll (resultWritten slot d p bytes u))).cap = u.cap :=
    (late .cap (by decide)).trans (resultWritten_frame slot d p bytes u .cap (by decide))
  have replies : (outerTie (tileKnot d.ktile d.knot) 1 (noteAll (resultWritten slot d p bytes u))).host.replies = u.host.replies :=
    (congrArg HostIf.replies (late .host (by decide))).trans (replies_of_butLog written)
  generalize outerTie (tileKnot d.ktile d.knot) 1 (noteAll (resultWritten slot d p bytes u)) = v at cap replies ⊢
  have first : hasReplied p.tag v = false := (congrArg (fun c : Cap => c.log.any _) cap).trans first
  obtain ⟨r, told, reply⟩ := reply_first first (okStatus p) 0
  exact ⟨r, told.trans (congrArg (· ++ [r]) replies), reply⟩

end

/-! ### COLLECTIVE_COMPLETE -/

theorem exec_collectiveComplete_of_idle {slot : Nat} {s : State} (idle : ∀ c, lookup slot s.colls = some c → c.running = none) :
    exec (.collectiveComplete slot) s = .next s := by
  change execCollectiveComplete slot s = _
  unfold execCollectiveComplete
  split
  case h_1 => rfl
  case h_2 c found =>
    rw [idle c found]

section
variable {slot : Nat} {c : CollSlot} {p : Packet} {s : State} (found : lookup slot s.colls = some c) (runs : c.running = some p)
include found runs

/-- The completion of a collective that runs. -/
theorem exec_collectiveComplete_of_runs : exec (.collectiveComplete slot) s =
    if c.own.isEmpty || rangeWaits s c.dst (c.dstBytes (rtSet s c.rts).self) then .next s
    else if xingClosed s 8 9 then .next (stopColl slot c p Status.clockStopped s)
    else match c.parts (rtSet s c.rts).self (collStep p) with
      | none => .next s
      | some parts =>
        match collResult slot c p parts s with
        | (some bytes, u) => .next (endCollective slot ((lookup slot u.colls).getD c) p bytes u)
        | (none, u) => .next u := by
  change execCollectiveComplete slot s = _
  rw [execCollectiveComplete, found]
  dsimp only
  generalize c.running = o at runs ⊢
  subst runs
  rfl

theorem exec_collectiveComplete_of_waits (waits : c.own = [] ∨ rangeWaits s c.dst (c.dstBytes (rtSet s c.rts).self) = true) :
    exec (.collectiveComplete slot) s = .next s :=
  (exec_collectiveComplete_of_runs found runs).trans (if_pos (by rwa [Bool.or_eq_true, List.isEmpty_iff]))

variable (ready : ¬(c.own = [] ∨ rangeWaits s c.dst (c.dstBytes (rtSet s c.rts).self) = true))
include ready

theorem exec_collectiveComplete_of_shut (shut : xingClosed s 8 9 = true) :
    exec (.collectiveComplete slot) s = .next (stopColl slot c p Status.clockStopped s) :=
  (exec_collectiveComplete_of_runs found runs).trans ((if_neg (by rwa [Bool.or_eq_true, List.isEmpty_iff])).trans (if_pos shut))

variable (passes : ¬xingClosed s 8 9 = true)
include passes

theorem exec_collectiveComplete_of_parts : exec (.collectiveComplete slot) s =
    match c.parts (rtSet s c.rts).self (collStep p) with
    | none => .next s
    | some parts =>
      match collResult slot c p parts s with
      | (some bytes, u) => .next (endCollective slot ((lookup slot u.colls).getD c) p bytes u)
      | (none, u) => .next u :=
  (exec_collectiveComplete_of_runs found runs).trans ((if_neg (by rwa [Bool.or_eq_true, List.isEmpty_iff])).trans (if_neg passes))

theorem exec_collectiveComplete_of_missing (missing : c.parts (rtSet s c.rts).self (collStep p) = none) : exec (.collectiveComplete slot) s = .next s := by
  rw [exec_collectiveComplete_of_parts found runs ready passes, missing]

variable {parts : List (List Byte)} (all : c.parts (rtSet s c.rts).self (collStep p) = some parts)
include all

theorem exec_collectiveComplete_of_result {bytes : List Byte} (result : (collResult slot c p parts s).1 = some bytes) :
    exec (.collectiveComplete slot) s = .next (endCollective slot ((lookup slot (collResult slot c p parts s).2.colls).getD c) p bytes
      (collResult slot c p parts s).2) := by
  rw [exec_collectiveComplete_of_parts found runs ready passes, all]
  dsimp only
  generalize collResult slot c p parts s = x at result ⊢
  obtain ⟨first, u⟩ := x
  obtain rfl : first = some bytes := result
  rfl

theorem exec_collectiveComplete_of_none (none_ : (collResult slot c p parts s).1 = none) :
    exec (.collectiveComplete slot) s = .next (collResult slot c p parts s).2 := by
  rw [exec_collectiveComplete_of_parts found runs ready passes, all]
  dsimp only
  generalize collResult slot c p parts s = x at none_ ⊢
  obtain ⟨first, u⟩ := x
  obtain rfl : first = none := none_
  rfl

/-- What the end of a collective with its result leaves. -/
theorem completed_acts {bytes : List Byte} (result : (collResult slot c p parts s).1 = some bytes) :
    let k := tileKnot c.ktile c.knot
    ∃ t d, exec (.collectiveComplete slot) s = .next t ∧ lookup slot t.colls = some d ∧ d.running = none ∧
      (∀ m, m ≠ slot → lookup m t.colls = lookup m s.colls) ∧ knot t k = knot s k + 1 ∧ (∀ j, j ≠ k → knot t j = knot s j) ∧
      (∀ x, (∀ i < bytes.length, memKey s x ≠ memKey s (c.dst + i)) → readByte t x = readByte s x) ∧
      t.mem = (nearWriteFor p.origin c.dst bytes bytes.length (collResult slot c p parts s).2).mem ∧
      (hasReplied p.tag s = false → ∃ r, t.host.replies = s.host.replies ++ [r] ∧ r.seq = p.seq ∧ r.queue = p.queue ∧
        r.status = if p.rsv = 1 then Status.fireLate else Status.ok) ∧
      OnlyChanges [.colls, .mem, .near, .host, .xing, .knots, .plays, .watch, .ports, .store, .cap] s t := by
  intro k
  have run := exec_collectiveComplete_of_result found runs ready passes all result
  have frame := collResult_only (slot := slot) (c := c) (s := s) p parts
  obtain ⟨⟨d, here, shares⟩, others, same⟩ := collResult_leaves p parts found
  generalize (collResult slot c p parts s).2 = u at run frame here others same ⊢
  rw [here, Option.getD_some] at run
  obtain ⟨dst, key⟩ : d.dst = c.dst ∧ tileKnot d.ktile d.knot = k := shares.places
  have knots : ∀ j, knot u j = knot s j := knot_of_knots (frame .knots (by decide))
  have colls := endCollective_colls slot d p bytes u
  refine ⟨_, wound d p, run, (congrArg (lookup slot) colls).trans (lookup_upsert_self ..), rfl, fun m other => ?_, ?_, fun j other => ?_, fun x out => ?_, ?_,
    fun first => ?_, (frame.mono (by decide)).step (endCollective_frame slot d p bytes u) (by decide)⟩
  · exact (congrArg (lookup m) colls).trans ((lookup_upsert_ne other ..).trans (others m other))
  · rw [← key, knot_endCollective_self, knots]
  · rw [knot_endCollective_ne _ _ _ _ _ (key ▸ other), knots]
  · have keys := memKey_of_frame frame (by decide)
    rw [readByte_endCollective slot d p bytes u (by simpa only [keys, dst] using out), readByte_of_frame frame (by decide) (by decide)]
  · rw [endCollective_mem, dst]
  · have first : hasReplied p.tag u = false := (congrArg (fun c : Cap => c.log.any _) (frame .cap (by decide))).trans first
    obtain ⟨r, told, reply⟩ := endCollective_reply slot d p bytes u first
    exact ⟨r, told.trans (congrArg (· ++ [r]) (replies_of_butLog same)), reply⟩

end

/-- The packets that carry a member's source, one by one. -/
theorem sendParts_eq (slot : Nat) (c : CollSlot) (p : Packet) (r : List Packet) (step : W32) (l : List Byte) (s : State) :
    sendParts slot (begun c p r []) step l s = (otherMembers s c.rts c.members).foldl (fun s m =>
      (chunks512 ((c.part m l).length / 512 + 1) (c.part m l)).zipIdx.foldl (fun s x =>
        sendPacket (ownPacket s 0x02 c.rts m 0 slot x.2 0 step x.1) s) s) s := by
  unfold sendParts sendData
  simp only [Nat.zero_add]
  rfl

theorem collectives_start_complete : Claim.CollectivesRun := by
  unfold Claim.CollectivesRun
  intro stops
  refine ⟨fun slot c p r s found due idle => ?_, fun slot s idle => exec_collectiveStart_of_idle idle, fun slot c p s found runs => ?_,
    fun slot s idle => exec_collectiveComplete_of_idle idle⟩
  · intro n waits shut readable l d
    refine ⟨fun waits => ?_, fun serves shut => ?_, fun serves passes reads => ?_, fun serves passes bad => ?_⟩
    · exact (exec_collectiveStart_of_due found due idle).trans (if_pos waits)
    · exact ⟨_, exec_collectiveStart_of_shut found due idle (eq_false_of_ne_true serves) shut, stopColl_acts slot { c with due := r } p s⟩
    · obtain ⟨t, run, here, others, same, frame, sends⟩ :=
        started_acts found due idle (eq_false_of_ne_true serves) (eq_false_of_ne_true passes) reads
      exact ⟨t, run, here, others, same, frame, sends.trans (sendParts_eq ..)⟩
    · have acts := unread_acts found due idle (eq_false_of_ne_true serves) (eq_false_of_ne_true passes) bad
      exact acts
  · intro self waits shut k
    refine ⟨fun waits => exec_collectiveComplete_of_waits found runs waits, fun ready shut => ?_, fun ready passes missing => ?_,
      fun ready passes parts all => ⟨fun bytes result => ?_, fun none_ => ?_⟩⟩
    · exact ⟨_, exec_collectiveComplete_of_shut found runs ready shut, stopColl_acts slot c p s⟩
    · exact exec_collectiveComplete_of_missing found runs ready passes missing
    · exact completed_acts found runs ready passes all result
    · obtain ⟨op, ⟨d, x, here, shared, running⟩, same⟩ := collResult_of_none p parts found none_
      exact ⟨op, exec_collectiveComplete_of_none found runs ready passes all none_, ⟨d, x, here, shared, running.trans runs⟩, same, collResult_only p parts⟩

/-! ### CollectivesComplete -/

/-- Settles O56: each command of a collective completes where its condition holds. -/
theorem collectivesComplete : Obligations.CollectivesComplete := by
  refine ⟨fun p s h => ?_, fun p c s h found op => ?_, fun slot c p r s found due idle => ?_, fun slot c p parts bytes s found runs => ?_⟩
  · intro n c items set members addresses free
    obtain ⟨-, -, -, -, acts⟩ := collSetActs p s h
    obtain ⟨t, run, answered, here, -⟩ := acts ⟨items, fun _ => members⟩ (fun _ => addresses) free set
    exact ⟨t, run, answered, here⟩
  · obtain ⟨acts, -⟩ := collFireActs p s h
    have param : item (tagged p s).param 0 2 = item p.param 0 2 := by rw [tagged_collFire h]
    obtain ⟨t, run, here, -⟩ := acts c (by rw [← found]; exact congrArg (fun n => lookup n s.colls) param) op
    exact ⟨t, run, (congrArg (fun n => lookup n t.colls) param).symm.trans here⟩
  · intro n serves passes sound good
    obtain ⟨t, run, here, -⟩ := started_acts found due idle serves passes ⟨sound, good⟩
    exact ⟨t, run, here⟩
  · intro own serves passes all result k
    have ready : ¬(c.own = [] ∨ rangeWaits s c.dst (c.dstBytes (rtSet s c.rts).self) = true) := by
      rintro (none_ | waits)
      · exact own none_
      · exact absurd waits (by rw [serves]; decide)
    obtain ⟨t, d, run, here, running, -, tied, -, -, mem, -⟩ := completed_acts found runs ready (ne_true_of_eq_false passes) all result
    exact ⟨t, d, run, here, running, tied, mem⟩

end Sys2Proof.Machine
end

section
/-! SUPPORT. What a collective's result holds (R402): CollectiveResults. -/

namespace Sys2Proof.Machine

/-! ### Every member's part -/

/-- What all members give, once each does. -/
theorem gather_of_all {α : Type} {g : α → Option (List Byte)} {f : α → List Byte} (l : List α) (all : ∀ x ∈ l, g x = some (f x)) :
    gather (l.map g) = some (l.map f) := by
  induction l with
  | nil => rfl
  | cons x l ih =>
    obtain ⟨first, rest⟩ := List.forall_mem_cons.1 all
    have tail : (l.map g).foldr (fun x acc => acc.bind fun r => x.map (· :: r)) (some []) = some (l.map f) := ih rest
    rw [List.map_cons, gather, List.foldr_cons, tail, first]
    rfl

theorem map_range_getD {α β : Type} (d : α) (f : α → β) (l : List α) : (List.range l.length).map (fun m => f (l.getD m d)) = l.map f := by
  refine List.ext_getElem (by simp) fun i less _ => ?_
  simp only [List.length_map, List.length_range] at less
  simp [less]

theorem parts_of_held {c : CollSlot} {self : Nat} {step : W32} {all : List (List Byte)} (members : all.length = c.members) (own : c.own = all.getD self [])
    (held : ∀ m < c.members, m ≠ self → c.held step m 0 (c.part self c.own).length = some (c.part self (all.getD m []))) :
    c.parts self step = some (all.map (c.part self)) := by
  rw [CollSlot.parts, ← map_range_getD [] (c.part self) all, members]
  refine gather_of_all _ fun m less => ?_
  rw [List.mem_range] at less
  split
  case isTrue same => rw [same, own]
  case isFalse other => exact held m less other

/-! ### Elements of a chunk -/

theorem getD_take_drop (l : List Byte) (a : Nat) {n i : Nat} (less : i < n) : ((l.drop a).take n).getD i 0 = l.getD (a + i) 0 := by
  simp only [List.getD_eq_getElem?_getD, List.getElem?_take, List.getElem?_drop, if_pos less]

/-- An item of a chunk is the source's at the chunk's start. -/
theorem item_take_drop (l : List Byte) (a : Nat) {n b w : Nat} (fits : b + w ≤ n) : item ((l.drop a).take n) b w = item l (a + b) w := by
  rw [item, item, sliceB_eq, sliceB_eq]
  refine congrArg ofLE (List.map_congr_left fun i less => ?_)
  rw [List.mem_range] at less
  rw [getD_take_drop l a (by omega), Nat.add_assoc]

/-- One element of a sum over the members' sources, from element k on. -/
def sumAt (c : CollSlot) (all : List (List Byte)) (k : Nat) : FVal :=
  v32 (tree 0 add32 (all.map fun l => r32 ((elemFmt c.fmt).decode (item l (k * collBytes c.fmt) (collBytes c.fmt)))))

theorem getD_elemsOf {fmt n e : Nat} (l : List Byte) (less : e < n) : (elemsOf fmt n l).getD e 0 = item l (e * collBytes fmt) (collBytes fmt) := by
  rw [elemsOf, List.getD_eq_getElem?_getD, List.getElem?_map, List.getElem?_range less]
  rfl

theorem part_of_chunk {c : CollSlot} (chunked : c.op ≠ 3) (m : Nat) (l : List Byte) :
    c.part m l = (l.drop (c.lo m * collBytes c.fmt)).take (c.chunk m * collBytes c.fmt) := if_neg chunked

theorem part_of_whole {c : CollSlot} (whole : c.op = 3) (m : Nat) (l : List Byte) : c.part m l = l := if_pos whole

theorem sum_of_parts {c : CollSlot} (chunked : c.op ≠ 3) (self : Nat) (all : List (List Byte)) {j : Nat} (less : j < c.chunk self) :
    c.sum ((all.map (c.part self)).map (elemsOf c.fmt (c.chunk self))) j = sumAt c all (c.lo self + j) := by
  rw [CollSlot.sum, sumAt, List.map_map, List.map_map]
  refine congrArg (fun l => v32 (tree 0 add32 l)) (List.map_congr_left fun l _ => ?_)
  have fits : j * collBytes c.fmt + collBytes c.fmt ≤ c.chunk self * collBytes c.fmt := by
    rw [← Nat.succ_mul]
    exact Nat.mul_le_mul_right _ less
  simp only [Function.comp_apply]
  rw [getD_elemsOf _ less, part_of_chunk chunked, item_take_drop l _ fits, ← Nat.add_mul]

/-! ### Conversion, element by element -/

/-- The bytes of one element of a result. -/
def convAt (c : CollSlot) (seed : W64) (step : W32) (x : Nat → FVal) (k : Nat) : List Byte :=
  toLE (collBytes c.dfmt) ((elemFmt c.dfmt).convert (modeOf c.dfmt (c.cls == 2) (dice seed step c.sid 1 k)) 0 (x k)).1

/-- A run of elements, each converted at its own index. -/
theorem convRun_flatMap (c : CollSlot) (seed : W64) (step : W32) (x : Nat → FVal) (lo n : Nat) (k : Counts) :
    ((convRun c.dfmt (c.cls == 2) (fun j => dice seed step c.sid 1 (lo + j)) 0 0 ((List.range n).map fun j => x (lo + j)) k).1).flatMap (toLE (collBytes c.dfmt)) =
      (List.range n).flatMap fun j => convAt c seed step x (lo + j) := by
  have elems : (convRun c.dfmt (c.cls == 2) (fun j => dice seed step c.sid 1 (lo + j)) 0 0 ((List.range n).map fun j => x (lo + j)) k).1 =
      (List.range n).map fun j => ((elemFmt c.dfmt).convert (modeOf c.dfmt (c.cls == 2) (dice seed step c.sid 1 (lo + j))) 0 (x (lo + j))).1 := by
    refine List.ext_getElem (by simp [convRun]) fun i _ _ => ?_
    simp [convRun]
  rw [elems, List.flatMap_map]
  rfl

theorem mine_of_parts {c : CollSlot} (chunked : c.op ≠ 3) (p : Packet) (all : List (List Byte)) (s : State) :
    mineOf c p (all.map (c.part (rtSet s c.rts).self)) s =
      (List.range (c.chunk (rtSet s c.rts).self)).flatMap fun j => convAt c s.host.seed (collStep p) (sumAt c all) (c.lo (rtSet s c.rts).self + j) := by
  unfold mineOf CollSlot.reduced
  rw [← convRun_flatMap c s.host.seed (collStep p) (sumAt c all) _ _ {}]
  have sums : (List.range (c.chunk (rtSet s c.rts).self)).map
      (c.sum ((all.map (c.part (rtSet s c.rts).self)).map (elemsOf c.fmt (c.chunk (rtSet s c.rts).self)))) =
      (List.range (c.chunk (rtSet s c.rts).self)).map fun j => sumAt c all (c.lo (rtSet s c.rts).self + j) :=
    List.map_congr_left fun j less => sum_of_parts chunked _ all (List.mem_range.1 less)
  dsimp only
  rw [sums]

/-! ### The chunks of an all-reduce -/

theorem lo_le_lo (c : CollSlot) (m : Nat) : c.lo m ≤ c.lo (m + 1) := Nat.div_le_div_right (Nat.mul_le_mul_right _ (Nat.le_succ m))

/-- The chunks of the first n members are the elements up to the n-th bound. -/
theorem flatMap_chunks {β : Type} (c : CollSlot) (g : Nat → List β) (n : Nat) :
    (List.range n).flatMap (fun m => (List.range (c.chunk m)).flatMap fun j => g (c.lo m + j)) = (List.range (c.lo n)).flatMap g := by
  induction n with
  | zero =>
    rw [show c.lo 0 = 0 by rw [CollSlot.lo, Nat.zero_mul, Nat.zero_div]]
    rfl
  | succ n ih =>
    have bound : c.lo (n + 1) = c.lo n + c.chunk n := (Nat.add_sub_cancel' (lo_le_lo c n)).symm
    rw [List.range_succ, List.flatMap_append, ih, bound, List.range_add, List.flatMap_append, List.flatMap_singleton, List.flatMap_map]

theorem chunks_of_held {c : CollSlot} {self : Nat} {step : W32} {own : List Byte} {f : Nat → List Byte} (mine : own = f self)
    (held : ∀ m < c.members, m ≠ self → c.held step m (dataPackets (c.part self c.own).length) (c.chunk m * collBytes c.dfmt) = some (f m)) :
    c.chunks self step own = some ((List.range c.members).map f) := by
  refine gather_of_all _ fun m less => ?_
  rw [List.mem_range] at less
  split
  case isTrue same => rw [same, mine]
  case isFalse other => exact held m less other

theorem collectiveResults : Claim.CollectiveResults := by
  intro slot c p s all members _ _ inside self b step lo sums conv parts r
  have each : ∀ lo n, conv lo n = (List.range n).flatMap fun j => convAt c s.host.seed step (sumAt c all) (lo + j) := fun lo n =>
    convRun_flatMap c s.host.seed step (sumAt c all) lo n {}
  have mine : c.op ≠ 3 → mineOf c p parts s = conv (lo self) (lo (self + 1) - lo self) := fun chunked =>
    (mine_of_parts chunked p all s).trans (each _ _).symm
  refine ⟨fun own held => parts_of_held members own held, fun op => ?_, fun op own shared isOwn held => ?_, fun op => ?_, fun op => ?_⟩
  · change (collResult slot c p parts s).1 = _
    rw [collResult_of_scatter p parts op, mine (by rw [op]; decide)]
  · change (collResult slot c p parts s).1 = _
    have whole : c.lo c.members = c.nel := Nat.mul_div_cancel_left _ (by omega)
    rw [collResult_of_shared p parts op shared, chunks_of_held (f := fun m => conv (lo m) (lo (m + 1) - lo m)) isOwn held]
    rw [Option.map_some, ← List.flatMap_def, each 0 c.nel]
    simp only [each, Nat.zero_add]
    rw [← whole]
    exact congrArg some (flatMap_chunks c (convAt c s.host.seed step (sumAt c all)) c.members)
  · change (collResult slot c p parts s).1 = _
    rw [collResult_of_plain p parts (by rw [op]; decide) (by rw [op]; decide)]
    exact congrArg (fun l : List (List Byte) => some l.flatten) ((List.map_congr_left fun l _ => part_of_whole op self l).trans (List.map_id' all))
  · change (collResult slot c p parts s).1 = _
    rw [collResult_of_plain p parts (by rw [op]; decide) (by rw [op]; decide), List.flatMap_def]
    exact congrArg (fun l : List (List Byte) => some l.flatten) (List.map_congr_left fun l _ => part_of_chunk (by rw [op]; decide) self l)

/-- Settles O25: the collectives' commands by the cases of their slot, and the result of each operation element by element. -/
theorem collectivesRun : Obligations.CollectivesRun := ⟨collectivesAreSet, collectives_start_complete, collectiveResults⟩

end Sys2Proof.Machine
end

section
/-! SUPPORT. XCH_SET where the log already holds a replied command of its place in the order of dispatch (R334, R336). -/

namespace Sys2Proof.Machine

/-- An XCH_SET of exchange 6 in step 1: one source, at most 128 rows. -/
def soloExchange : Packet where
  opc := 0x0602
  flags := 0
  len := 0
  rsv := 0
  seq := 0
  tgt := 0
  fire := 0
  param := toLE 2 6 ++ toLE 2 0 ++ toLE 4 1 ++ toLE 4 0 ++ toLE 4 128 ++ toLE 4 0 ++ toLE 2 1 ++ toLE 2 0 ++ toLE 4 0 ++ toLE 4 4 ++ List.replicate 8 0
  payload := []
  queue := 0
  origin := 0

/-- The module past READY. The log holds a command that has replied under the number that the next command takes; events send a message on port 0, and the crossing to
the ports takes no pulse in this beat. -/
def repliedBefore : State := {
  bu := { stage := 10, state := .done }
  cap := { log := [{ step := 0, packet := soloExchange, order := 0, replied := true }] }
  host := { evtEn := true, ports := [(0, { perst := false })] }
  xing := { lag := [toggleOf 12 14] } }

/-- The pulses that the crossing to the ports holds after a command. -/
def pulsesAfter : Out → Nat
  | .next t => t.xing.irqs.length
  | _ => 0

/-- Refutes O26: the success of this XCH_SET goes to the event log, as a second outcome of the logged command, and the event's message waits at the crossing, which the
frame of XCH_SET leaves out. -/
theorem not_exchangesAreSetAndFilled : ¬Obligations.ExchangesAreSetAndFilled := by
  rintro ⟨sets, _⟩
  have admitted : Admitted 0x0602 soloExchange repliedBefore := ⟨⟨by decide, by decide, by decide⟩, rfl, rfl, by decide +kernel⟩
  obtain ⟨_, _, _, _, plain, _⟩ := sets soloExchange repliedBefore admitted
  obtain ⟨t, run, _, _, frame⟩ := plain (by decide +kernel) (by decide +kernel) (by decide +kernel) (by decide +kernel)
  have same : t.xing.irqs.length = repliedBefore.xing.irqs.length := congrArg (fun x : Xing => x.irqs.length) (frame .xing (by decide))
  have after : pulsesAfter (exec (.xchSet soloExchange) repliedBefore) = t.xing.irqs.length := congrArg pulsesAfter run
  rw [same] at after
  exact absurd after (by decide +kernel)

end Sys2Proof.Machine
end

section
/-! SUPPORT. Packets of the expert exchange arrive, from this module's mesh or out of a port's receive buffers (R252, R393, R461). -/

namespace Sys2Proof.Machine

/-! ### A packet's way -/

theorem meshTakeFrom_bare {s : State} {x : MeshItem} :
    ∀ {before l : List (Source × MeshItem)} {y : Source × MeshItem} {r : List (Source × MeshItem)},
      meshTakeFrom s x before l = some (y, r) → y.2.bare = x.bare
  | _, [], _, _, h => nomatch h
  | before, (src, z) :: l, y, r, h => by
    rw [meshTakeFrom] at h
    split at h
    · next same =>
      split at h
      · exact nomatch h
      · cases h
        exact same
    · exact meshTakeFrom_bare h

theorem meshTake_bare {x : MeshItem} {y : Source × MeshItem} {s s₀ : State} (takes : meshTake x s = some (y, s₀)) : y.2.bare = x.bare := by
  obtain ⟨m, found, e⟩ := Option.map_eq_some_iff.1 takes
  cases e
  exact meshTakeFrom_bare found

/-- A packet that no STREAM tags. -/
def Untagged (x : MeshItem) : Prop := ∀ y : MeshItem, y.bare = x.bare → y = x

theorem untagged_xcount (c : XCount) : Untagged (.xcount c) := by
  rintro (_ | _ | _ | _ | _ | _ | _ | _) h <;> cases h
  rfl

theorem untagged_xgrant (g : XGrant) : Untagged (.xgrant g) := by
  rintro (_ | _ | _ | _ | _ | _ | _ | _) h <;> cases h
  rfl

theorem untagged_xrow (r : XRow) : Untagged (.xrow r) := by
  rintro (_ | _ | _ | _ | _ | _ | _ | _) h <;> cases h
  rfl

theorem untagged_xfetch (f : XFetch) : Untagged (.xfetch f) := by
  rintro (_ | _ | _ | _ | _ | _ | _ | _) h <;> cases h
  rfl

theorem untagged_xresult (r : XResult) : Untagged (.xresult r) := by
  rintro (_ | _ | _ | _ | _ | _ | _ | _) h <;> cases h
  rfl

section
variable {own : Bool} {shape : Nat × Nat} {rts : Nat} {x : MeshItem} {y : Source × MeshItem} {s s₀ : State}

theorem Comes.frame (comes : Comes own shape rts x y s s₀) : OnlyChanges [.mesh, .ports] s s₀ := by
  cases own with
  | true =>
    obtain ⟨m, rfl⟩ := meshTake_rest (comes.1 rfl)
    exact only_mesh (.refl _ _) _ (by decide)
  | false =>
    have frame := takeItem_frame s shape rts x
    rw [(comes.2 rfl).1] at frame
    exact OnlyChanges.mono (l := [.ports]) frame (by decide)

theorem Comes.item (comes : Comes own shape rts x y s s₀) (untagged : Untagged x) : y.2 = x := by
  cases own with
  | true => exact untagged _ (meshTake_bare (comes.1 rfl))
  | false => rw [(comes.2 rfl).2]

theorem Comes.arrive (comes : Comes own shape rts x y s s₀) (t : Transit) : packetArrive own shape rts x t s = crossArrive y t s₀ := by
  cases own with
  | true => exact (if_pos rfl).trans (meshArrive_of_take (comes.1 rfl) t)
  | false =>
    obtain ⟨takes, rfl⟩ := comes.2 rfl
    rw [packetArrive, if_neg Bool.false_ne_true, takes]

theorem Absent.arrive (absent : Absent own shape rts x s) (t : Transit) : packetArrive own shape rts x t s = .none := by
  cases own with
  | true => exact (if_pos rfl).trans (meshArrive_of_none (absent.1 rfl) t)
  | false => rw [packetArrive, if_neg Bool.false_ne_true, absent.2 rfl]

/-- The word of a hop on the mesh leaves its marks and no more. -/
theorem parityMeets_hop_frame (u : Nat) (w : DataWord) (origin : Nat) (play step : W32) (s : State) :
    OnlyChanges [.host, .xing, .store, .rel] s (parityMeets (.hop u) w origin play step s).2 := by
  by_cases intact : wordIntact w = true
  · rw [parityMeets_of_intact intact]
    have recorded := record_frame 1 1 0 origin (placeUnit s (.hop u)).1 (placeUnit s (.hop u)).2 play step w.data s
    have counted := countRetry_frame (placeUnit s (.hop u)).1 (record 1 1 0 origin (placeUnit s (.hop u)).1 (placeUnit s (.hop u)).2 play step w.data s)
    generalize countRetry _ _ = z at counted ⊢
    have both : OnlyChanges [.host, .xing, .store, .rel] s z.2 := (recorded.mono (by decide)).step counted (by decide)
    dsimp only
    split
    · exact both.step (suspectTile_frame _ _ _) (by decide)
    · exact both
  · have run : parityMeets (.hop u) w origin play step s = (true, _) := if_neg intact
    rw [run]
    exact ((record_frame 1 1 1 origin (placeUnit s (.hop u)).1 (placeUnit s (.hop u)).2 play step w.data s).mono (by decide)).step
      (suspectTile_frame _ _ _) (by decide)

/-- What the state of a packet that has come leaves as it was. -/
abbrev arrivalParts : List Part := [.mesh, .ports, .host, .xing, .store, .rel]

/-- A command lands its packet that has come, where it leaves a lost one alone and lets one that has arrived act. -/
theorem lands_of_comes {c : Transit → Instr} {does : State → State} (comes : Comes own shape rts x y s s₀) (opened : itemClosed s₀ y.2 = false)
    (lost : ∀ t u, packetArrive own shape rts x t s = .lost u → exec (c t) s = .next u)
    (got : ∀ t u, packetArrive own shape rts x t s = .got y.2 u → OnlyChanges arrivalParts s u → exec (c t) s = .next (does u)) :
    Lands c y does s s₀ := by
  have frame := comes.frame
  refine ⟨got _ _ ?_ (frame.mono (by decide)), fun a b => lost _ _ ?_, fun k w => ?_⟩
  · rw [comes.arrive, crossArrive_of_ok opened]
  · rw [comes.arrive, crossArrive_of_overrun opened]
  · obtain ⟨discards, keeps⟩ := crossArrive_of_hop opened k w
    rw [← comes.arrive] at discards keeps
    intro r
    cases fate : r.1 with
    | true => exact (lost _ _ (discards fate)).trans (congrArg _ (if_pos rfl).symm)
    | false =>
      exact (got _ _ (keeps fate) ((frame.mono (by decide)).step (parityMeets_hop_frame _ _ _ _ _ _) (by decide))).trans
        (congrArg _ (if_neg Bool.false_ne_true).symm)

end

/-! ### An exchange, seen from the state of an arrival -/

section
variable {s u : State} (frame : OnlyChanges arrivalParts s u)
include frame

theorem getX_arrival (n : Nat) : getX u n = getX s n := congrArg (lookup n) (frame .exchanges (by decide))

theorem stalePacket_arrival (step : W32) : stalePacket u step = stalePacket s step := by
  rw [stalePacket, stalePacket, frame .cap (by decide)]

theorem localExpert_arrival (x : Exchange) (e : Nat) : localExpert u x e = localExpert s x e := by
  have same : rtSet u x.rts = rtSet s x.rts := congrArg (lookupD ({} : RtSet) x.rts) (frame .sets (by decide))
  unfold localExpert expertOf selfOf
  rw [same]

theorem waitingCombine_arrival (tile xid : Nat) : waitingCombine u tile xid = waitingCombine s tile xid := by
  have plays : u.plays = s.plays := frame .plays (by decide)
  simp only [waitingCombine, playOfTile, plays]

end

/-! ### The commands of an exchange's packets -/

theorem xShape_of_held {s : State} {n : Nat} {x : Exchange} (held : getX s n = some x) : xShape s n = (rowShape x).getD (0, 1) := by
  rw [xShape, held]
  rfl

theorem xRts_of_held {s : State} {n : Nat} {x : Exchange} (held : getX s n = some x) : xRts s n = x.rts := by
  rw [xRts, held]
  rfl

section
variable {x : Exchange} {s : State}

/-- A COUNT of a held exchange comes as its own packet does. -/
theorem execXchCount_arrives {c : XCount} (held : getX s c.xid = some x) (t : Transit) :
    (∀ u, packetArrive (c.member == selfOf s x) (c.fmt, c.rowl) x.rts (.xcount c) t s = .lost u → exec (.xchCount c t) s = .next u) ∧
    (packetArrive (c.member == selfOf s x) (c.fmt, c.rowl) x.rts (.xcount c) t s = .none → exec (.xchCount c t) s = .next s) ∧
    ∀ i u, packetArrive (c.member == selfOf s x) (c.fmt, c.rowl) x.rts (.xcount c) t s = .got i u → getX u c.xid = some x →
      stalePacket u c.step = false → x.granted = false →
      exec (.xchCount c t) s = .next (if countsComplete u { x with counts := x.counts ++ [c] } then grantPhase { x with counts := x.counts ++ [c] } u
        else setX { x with counts := x.counts ++ [c] } u) := by
  have run : exec (.xchCount c t) s = execXchCount c t s := rfl
  rw [run, execXchCount, if_neg (by simp [held]), xRts_of_held held, held]
  dsimp only [Option.elim]
  refine ⟨fun u lost => by rw [lost], fun gone => by rw [gone], fun i u got here fresh open_ => ?_⟩
  rw [got]
  dsimp only
  rw [here]
  exact if_neg (by simp [fresh, open_])

theorem execXchGrant_arrives {g : XGrant} (held : getX s g.xid = some x) (t : Transit) :
    (∀ u, packetArrive (localExpert s x g.expert).isSome ((rowShape x).getD (0, 1)) x.rts (.xgrant g) t s = .lost u → exec (.xchGrant g t) s = .next u) ∧
    (packetArrive (localExpert s x g.expert).isSome ((rowShape x).getD (0, 1)) x.rts (.xgrant g) t s = .none → exec (.xchGrant g t) s = .next s) ∧
    ∀ i u m, packetArrive (localExpert s x g.expert).isSome ((rowShape x).getD (0, 1)) x.rts (.xgrant g) t s = .got i u → getX u g.xid = some x →
      stalePacket u g.step = false → (x.moves.find? fun k => k.tile == g.tile) = some m →
      let a := { m with grants := upsert g.expert g m.grants }
      let z := { x with moves := x.moves.map fun k => if k.tile = g.tile then a else k }
      exec (.xchGrant g t) s = .next (sendRows z a g (setX z u)) := by
  have run : exec (.xchGrant g t) s = execXchGrant g t s := rfl
  rw [run, execXchGrant, xRts_of_held held, xShape_of_held held, held]
  dsimp only [Option.elim]
  refine ⟨fun u lost => by rw [lost], fun gone => by rw [gone], fun i u m got here fresh found => ?_⟩
  rw [got]
  dsimp only
  rw [here]
  dsimp only
  rw [if_neg (by simp [fresh]), found]

theorem execXchRow_arrives {r : XRow} (held : getX s r.xid = some x) (goes : rowWaits s r.xid r.expert r.row = false) (t : Transit) :
    (∀ u, packetArrive (rowMember x r.expert r.row == some (selfOf s x)) ((rowShape x).getD (0, 1)) x.rts (.xrow r) t s = .lost u →
      exec (.xchRow r t) s = .next u) ∧
    (packetArrive (rowMember x r.expert r.row == some (selfOf s x)) ((rowShape x).getD (0, 1)) x.rts (.xrow r) t s = .none →
      exec (.xchRow r t) s = .next s) ∧
    ∀ i u m e shape, packetArrive (rowMember x r.expert r.row == some (selfOf s x)) ((rowShape x).getD (0, 1)) x.rts (.xrow r) t s = .got i u →
      getX u r.xid = some x → localExpert u x r.expert = some m → lookup r.expert x.experts = some e → rowShape x = some shape →
      stalePacket u r.step = false → x.granted = true → r.row < e.n1 + e.n2 → lookup r.row e.received = none →
      (∀ k < rowSquares shape.1 shape.2, (gridNear u m ((r.row / 128 * rowSquares shape.1 shape.2 + k) * sqSize shape.1) (sqSize shape.1)).isSome = true) →
      exec (.xchRow r t) s = .next (acceptRow x shape m e r u) := by
  have run : exec (.xchRow r t) s = execXchRow r t s := rfl
  rw [run, execXchRow, if_neg (ne_true_of_eq_false goes), xRts_of_held held, xShape_of_held held, held]
  dsimp only [Option.elim]
  refine ⟨fun u lost => by rw [lost], fun gone => by rw [gone], fun i u m e shape got here local_ placed shaped fresh granted admitted new reaches => ?_⟩
  rw [got]
  dsimp only
  rw [here]
  dsimp only
  rw [local_, placed, shaped]
  dsimp only
  rw [if_neg (by simp [fresh, granted, new]; omega), if_pos (List.all_eq_true.2 fun k below => reaches k (List.mem_range.1 below))]

theorem execFetch_arrives {f : XFetch} (held : getX s f.xid = some x) (t : Transit) :
    (∀ u, packetArrive (f.member == selfOf s x) ((rowShape x).getD (0, 1)) x.rts (.xfetch f) t s = .lost u → exec (.fetch f t) s = .next u) ∧
    (packetArrive (f.member == selfOf s x) ((rowShape x).getD (0, 1)) x.rts (.xfetch f) t s = .none → exec (.fetch f t) s = .next s) ∧
    ∀ i u, packetArrive (f.member == selfOf s x) ((rowShape x).getD (0, 1)) x.rts (.xfetch f) t s = .got i u → getX u f.xid = some x →
      (stalePacket u f.step = false → (localExpert u x f.expert).isSome = true →
        exec (.fetch f t) s = .next (serveFetches (setX { x with fetches := x.fetches ++ [f] } u))) ∧
      (stalePacket u f.step = true ∨ localExpert u x f.expert = none → exec (.fetch f t) s = .next u) := by
  have run : exec (.fetch f t) s = execFetch f t s := rfl
  rw [run, execFetch, xRts_of_held held, xShape_of_held held, held]
  dsimp only [Option.elim]
  refine ⟨fun u lost => by rw [lost], fun gone => by rw [gone], fun i u got here => ?_⟩
  rw [got]
  dsimp only
  rw [here]
  dsimp only
  refine ⟨fun fresh local_ => if_neg ?_, fun useless => if_pos ?_⟩
  · cases at_ : localExpert u x f.expert with
    | none => rw [at_] at local_; exact nomatch local_
    | some _ => simp [fresh]
  · rcases useless with stale | other
    · rw [stale]; rfl
    · rw [other, Option.isNone_none, Bool.or_true]

theorem execResult_arrives {r : XResult} (held : getX s r.xid = some x) (t : Transit) :
    (∀ u, packetArrive (localExpert s x r.expert).isSome ((rowShape x).getD (0, 1)) x.rts (.xresult r) t s = .lost u → exec (.result r t) s = .next u) ∧
    (packetArrive (localExpert s x r.expert).isSome ((rowShape x).getD (0, 1)) x.rts (.xresult r) t s = .none → exec (.result r t) s = .next s) ∧
    ∀ i u, packetArrive (localExpert s x r.expert).isSome ((rowShape x).getD (0, 1)) x.rts (.xresult r) t s = .got i u → getX u r.xid = some x →
      (stalePacket u r.step = true ∨ waitingCombine u r.tile r.xid = none → exec (.result r t) s = .next u) ∧
      ∀ p m, stalePacket u r.step = false → waitingCombine u r.tile r.xid = some (p, m) →
        let z := { x with results := upsert (resultKey r.tile r.expert r.row) r.elems x.results }
        exec (.result r t) s = .next (if combineReady (setX z u) z r.tile m.word then markReady p r.tile 8 (combineWrite p r.tile m z (setX z u)) else setX z u) := by
  have run : exec (.result r t) s = execResult r t s := rfl
  rw [run, execResult, xRts_of_held held, xShape_of_held held, held]
  dsimp only [Option.elim]
  refine ⟨fun u lost => by rw [lost], fun gone => by rw [gone], fun i u got here => ?_⟩
  rw [got]
  dsimp only
  rw [here]
  dsimp only
  refine ⟨fun useless => ?_, fun p m fresh waits => ?_⟩
  · by_cases stale : stalePacket u r.step = true
    · exact if_pos stale
    · rw [if_neg stale, useless.resolve_left stale]
  · rw [if_neg (ne_true_of_eq_false fresh), waits]
    dsimp only
    split <;> rfl

end

end Sys2Proof.Machine
end

section
/-! SUPPORT. An exchange is declared and read; each packet of an exchange has its effect (R412, R417 to R426). -/

namespace Sys2Proof.Machine

/-! ### The table of exchanges -/

theorem getX_setX_self (x : Exchange) (s : State) : getX (setX x s) x.xid = some x := lookup_upsert_self _ _ _

theorem getX_setX_ne {x : Exchange} {n : Nat} (other : n ≠ x.xid) (s : State) : getX (setX x s) n = getX s n := lookup_upsert_ne other _ _

theorem getX_of_exchanges {s t : State} (same : t.exchanges = s.exchanges) (n : Nat) : getX t n = getX s n := congrArg (lookup n) same

/-! ### XCH_SET -/

section
variable {p : Packet} {s : State} (h : Admitted 0x0602 p s)
include h

theorem exec_xchSet_of_admitted : exec (.xchSet p) s = .next (opXchSet (tagged p s) (logStep (tagged p s) s.arrivals (arrived s))) := by
  have same : { p with opc := 0x0602 } = p := by rw [← h.2.1]
  have untimed : shifted s p = p := shifted_untimed h.2.2.1 (by rw [h.2.1]; decide) (by rw [h.2.1]; decide)
  have opc : (tagged p s).opc = 0x0602 := by rw [tagged, untimed]; exact h.2.1
  have fire : (tagged p s).fire = 0 := by rw [tagged, untimed]; exact h.2.2.1
  rw [exec_packetRow rfl, same, dispatchPacket_of_untimed h rfl, runStep, opc]
  refine congrArg Host.Outcome.next ?_
  change atFire _ _ _ _ _ = _
  rw [atFire, fire]
  rfl

omit h in
theorem logged_frame : OnlyChanges [.arrivals, .cap] s (logStep (tagged p s) s.arrivals (arrived s)) :=
  ((arrived_frame s).mono (by decide)).step (logStep_frame (tagged p s) s.arrivals _) (by decide)

/-- A new exchange with items in range and no placement to reuse stands with them, and no other exchange changes. -/
theorem xchSet_declares (items : xchItems (tagged p s) = true) (free : getX s (newExchange (tagged p s) s).xid = none)
    (room : s.exchanges.length < 256) (fresh : (newExchange (tagged p s) s).reuse = false) :
    ∃ t, exec (.xchSet p) s = .next t ∧ getX t (newExchange (tagged p s) s).xid = some (newExchange (tagged p s) s) ∧
      ∀ n, n ≠ (newExchange (tagged p s) s).xid → getX t n = getX s n := by
  have frame := logged_frame (p := p) (s := s)
  have run := exec_xchSet_of_admitted h
  generalize tagged p s = q at items free fresh frame run ⊢
  generalize logStep q s.arrivals (arrived s) = u at frame run
  have exchanges : u.exchanges = s.exchanges := frame .exchanges (by decide)
  have knots : u.knots = s.knots := frame .knots (by decide)
  have new : newExchange q u = newExchange q s := by
    unfold newExchange knot
    rw [knots]
  have freeU : getX u (newExchange q s).xid = none := (getX_of_exchanges exchanges _).trans free
  have does : opXchSet q u = accept q (setX (newExchange q s) u) := by
    refine (if_neg (by rw [items]; decide)).trans ?_
    dsimp only
    rw [new]
    refine (if_neg (by rw [freeU]; decide)).trans ?_
    refine (if_neg (by rw [fresh]; exact Bool.false_ne_true)).trans ((if_neg (by rw [exchanges]; omega)).trans ?_)
    rw [fresh]
  have after : (accept q (setX (newExchange q s) u)).exchanges = (setX (newExchange q s) u).exchanges := reply_frame _ _ _ _ .exchanges (by decide)
  refine ⟨_, run.trans (congrArg _ does), (getX_of_exchanges after _).trans (getX_setX_self _ u), fun n other => ?_⟩
  exact (getX_of_exchanges after n).trans ((getX_setX_ne other u).trans (getX_of_exchanges exchanges n))

end

/-! ### XCH_GET -/

theorem exec_xchGet_of_admitted {p : Packet} {s : State} (h : Admitted 0x0603 p s) : exec (.xchGet p) s = .next (opXchGet p (arrived s)) := by
  rw [exec_of_admitted rfl h rfl (by decide) (by decide), runOp, h.2.1]
  rfl

theorem xchGet_reads (p : Packet) (s : State) (h : Admitted 0x0603 p s) :
    let first := item p.param 0 2
    let cnt := item p.param 2 2
    let dest := item p.param 8 8
    let ok := 1 ≤ cnt ∧ cnt ≤ 256 ∧ first + cnt ≤ 65536
    (¬ok → exec (.xchGet p) s = .next (reply p Status.xchValue 0 (arrived s))) ∧
    (ok → destOk s dest (64 * cnt) true = false → exec (.xchGet p) s = .next (reply p Status.addrRange 0 (arrived s))) ∧
    (ok → destOk s dest (64 * cnt) true = true →
      exec (.xchGet p) s = .next (accept p (destWrite p.origin dest
        ((List.range cnt).flatMap fun k => (getX s (first + k)).elim (List.replicate 64 0) xchRecord) (arrived s)))) := by
  intro first cnt dest ok
  rw [exec_xchGet_of_admitted h]
  have goes : ok → ¬(decide (pN p 2 2 = 0) || decide (256 < pN p 2 2) || decide (65536 < pN p 0 2 + pN p 2 2)) = true := by
    rintro ⟨some_, most, last⟩
    have e : pN p 2 2 = cnt := rfl
    have e' : pN p 0 2 = first := rfl
    simp only [e, e', Bool.or_eq_true, decide_eq_true_eq]
    omega
  refine ⟨fun bad => congrArg _ (if_pos ?_), fun good no => congrArg _ ((if_neg (goes good)).trans (if_pos ?_)),
    fun good yes => congrArg _ ((if_neg (goes good)).trans (if_neg ?_))⟩
  · have e : pN p 2 2 = cnt := rfl
    have e' : pN p 0 2 = first := rfl
    simp only [e, e', Bool.or_eq_true, decide_eq_true_eq]
    omega
  · rw [destOk_arrived, Bool.not_eq_true']
    exact no
  · rw [destOk_arrived, Bool.not_eq_true', Bool.not_eq_false]
    exact yes

/-! ### Packets that act -/

/-- A packet for a place on the mesh comes through. -/
theorem open_of_mesh {x : MeshItem} {s : State} (domain : itemDomain x = 8) (kind : ∀ r, x ≠ .xrow r) : itemClosed s x = false := by
  unfold itemClosed
  rw [domain]
  split
  · exact absurd rfl (kind _)
  · rfl

theorem open_of_row {r : XRow} {s : State} (opened : xingClosed s 9 8 = false) : itemClosed s (.xrow r) = false := opened

theorem open_of_result {r : XResult} {s : State} (opened : xingClosed s (tileField r.tile) 8 = false) : itemClosed s (.xresult r) = false := by
  have domain : itemDomain (.xresult r) = tileField r.tile := rfl
  unfold itemClosed
  rw [domain, opened, Bool.and_false]
  rfl

/-- An exchange grid's near addresses come from the hint buffers and the region table. -/
theorem gridNear_of_tables {s t : State} (hints : t.hints = s.hints) (regions : t.regions = s.regions) (m : MapEntry) (off n : Nat) :
    gridNear t m off n = gridNear s m off n := by
  unfold gridNear hintNearOk hintBuf
  rw [hints, regions]

/-- An intact packet whose turn has come, in a state where it comes through, has arrived. -/
theorem Comes.got {own : Bool} {shape : Nat × Nat} {rts : Nat} {x : MeshItem} {y : Source × MeshItem} {s s₀ : State}
    (comes : Comes own shape rts x y s s₀) (opened : itemClosed s₀ y.2 = false) : packetArrive own shape rts x .ok s = .got y.2 s₀ :=
  (comes.arrive .ok).trans (crossArrive_of_ok opened)

section
variable {s s₀ : State} {y : Source × MeshItem} {x : Exchange}

theorem count_acts {c : XCount} (held : getX s c.xid = some x) (comes : Comes (c.member == selfOf s x) (c.fmt, c.rowl) x.rts (.xcount c) y s s₀)
    (fresh : stalePacket s c.step = false) (early : x.granted = false) :
    let z := { x with counts := x.counts ++ [c] }
    exec (.xchCount c .ok) s = .next (if countsComplete s z then grantPhase z s₀ else setX z s₀) := by
  have frame : OnlyChanges arrivalParts s s₀ := comes.frame.mono (by decide)
  have opened : itemClosed s₀ y.2 = false := by
    rw [comes.item (untagged_xcount c)]
    exact open_of_mesh rfl nofun
  have complete (z : Exchange) : countsComplete s₀ z = countsComplete s z := by
    have same : rtSet s₀ z.rts = rtSet s z.rts := congrArg (lookupD ({} : RtSet) z.rts) (frame .sets (by decide))
    unfold countsComplete
    rw [same]
  intro z
  rw [← complete]
  exact (execXchCount_arrives held .ok).2.2 _ _ (comes.got opened) ((getX_arrival frame _).trans held) ((stalePacket_arrival frame _).trans fresh) early

theorem grant_acts {g : XGrant} {m : XMove} (held : getX s g.xid = some x)
    (comes : Comes (localExpert s x g.expert).isSome ((rowShape x).getD (0, 1)) x.rts (.xgrant g) y s s₀) (fresh : stalePacket s g.step = false)
    (found : (x.moves.find? fun k => k.tile == g.tile) = some m) :
    let a := { m with grants := upsert g.expert g m.grants }
    let z := { x with moves := x.moves.map fun k => if k.tile = g.tile then a else k }
    exec (.xchGrant g .ok) s = .next (sendRows z a g (setX z s₀)) := by
  have frame : OnlyChanges arrivalParts s s₀ := comes.frame.mono (by decide)
  have opened : itemClosed s₀ y.2 = false := by
    rw [comes.item (untagged_xgrant g)]
    exact open_of_mesh rfl nofun
  exact (execXchGrant_arrives held .ok).2.2 _ _ m (comes.got opened) ((getX_arrival frame _).trans held) ((stalePacket_arrival frame _).trans fresh) found

theorem row_acts {r : XRow} {m : MapEntry} {e : XExpert} {shape : Nat × Nat} (held : getX s r.xid = some x) (goes : rowWaits s r.xid r.expert r.row = false)
    (shaped : rowShape x = some shape) (comes : Comes (rowMember x r.expert r.row == some (selfOf s x)) shape x.rts (.xrow r) y s s₀)
    (local_ : localExpert s x r.expert = some m) (placed : lookup r.expert x.experts = some e) (fresh : stalePacket s r.step = false)
    (granted : x.granted = true) (admitted : r.row < e.n1 + e.n2) (new : lookup r.row e.received = none) (near : xingClosed s 9 8 = false)
    (reaches : ∀ k < rowSquares shape.1 shape.2,
      (gridNear s m ((r.row / 128 * rowSquares shape.1 shape.2 + k) * sqSize shape.1) (sqSize shape.1)).isSome = true) :
    exec (.xchRow r .ok) s = .next (acceptRow x shape m e r s₀) := by
  have frame : OnlyChanges arrivalParts s s₀ := comes.frame.mono (by decide)
  have xing : s₀.xing = s.xing := comes.frame .xing (by decide)
  have opened : itemClosed s₀ y.2 = false := by
    rw [comes.item (untagged_xrow r)]
    exact open_of_row ((xingClosed_of_xing xing _ _).trans near)
  have here : (rowShape x).getD (0, 1) = shape := by rw [shaped, Option.getD_some]
  rw [← here] at comes
  refine (execXchRow_arrives held goes .ok).2.2 _ _ m e shape (comes.got opened) ((getX_arrival frame _).trans held)
    ((localExpert_arrival frame x _).trans local_) placed shaped ((stalePacket_arrival frame _).trans fresh) granted admitted new fun k below => ?_
  rw [gridNear_of_tables (frame .hints (by decide)) (frame .regions (by decide))]
  exact reaches k below

theorem fetch_acts {f : XFetch} (held : getX s f.xid = some x)
    (comes : Comes (f.member == selfOf s x) ((rowShape x).getD (0, 1)) x.rts (.xfetch f) y s s₀) :
    (stalePacket s f.step = false → (localExpert s x f.expert).isSome = true →
      Lands (.fetch f) y (fun t => serveFetches (setX { x with fetches := x.fetches ++ [f] } t)) s s₀) ∧
    (stalePacket s f.step = true ∨ localExpert s x f.expert = none → Lands (.fetch f) y (fun t => t) s s₀) := by
  have opened : itemClosed s₀ y.2 = false := by
    rw [comes.item (untagged_xfetch f)]
    exact open_of_mesh rfl nofun
  refine ⟨fun fresh local_ => lands_of_comes comes opened (fun t => (execFetch_arrives held t).1) fun t u got frame => ?_,
    fun useless => lands_of_comes comes opened (fun t => (execFetch_arrives held t).1) fun t u got frame => ?_⟩
  · exact ((execFetch_arrives held t).2.2 _ u got ((getX_arrival frame _).trans held)).1 ((stalePacket_arrival frame _).trans fresh)
      ((localExpert_arrival frame x _).symm ▸ local_)
  · refine ((execFetch_arrives held t).2.2 _ u got ((getX_arrival frame _).trans held)).2 ?_
    rwa [stalePacket_arrival frame, localExpert_arrival frame]

theorem result_acts {r : XResult} (held : getX s r.xid = some x)
    (comes : Comes (localExpert s x r.expert).isSome ((rowShape x).getD (0, 1)) x.rts (.xresult r) y s s₀) :
    (xingClosed s (tileField r.tile) 8 = true → ∀ t, exec (.result r t) s = .next (losePacket 15 y s₀)) ∧
    (xingClosed s (tileField r.tile) 8 = false →
      (stalePacket s r.step = true ∨ waitingCombine s r.tile r.xid = none → Lands (.result r) y (fun t => t) s s₀) ∧
      (∀ p m, stalePacket s r.step = false → waitingCombine s r.tile r.xid = some (p, m) →
        let z := { x with results := upsert (resultKey r.tile r.expert r.row) r.elems x.results }
        Lands (.result r) y (fun t => let u := setX z t
          if combineReady u z r.tile m.word = true then markReady p r.tile 8 (combineWrite p r.tile m z u) else u) s s₀)) := by
  have xing : s₀.xing = s.xing := comes.frame .xing (by decide)
  have item : y.2 = .xresult r := comes.item (untagged_xresult r)
  refine ⟨fun shut t => ?_, fun near => ?_⟩
  · have closed : itemClosed s₀ y.2 = true := by
      have domain : itemDomain (.xresult r) = tileField r.tile := rfl
      have other : tileField r.tile ≠ 8 := by
        have := Nat.mod_lt (r.tile / 8) (y := 8) (by decide)
        unfold tileField
        omega
      rw [item]
      unfold itemClosed
      rw [domain, xingClosed_of_xing xing, shut, Bool.and_true, bne_iff_ne.2 other]
      rfl
    exact (execResult_arrives held t).1 _ ((comes.arrive t).trans (crossArrive_of_closed closed t))
  · have opened : itemClosed s₀ y.2 = false := by
      rw [item]
      exact open_of_result ((xingClosed_of_xing xing _ _).trans near)
    refine ⟨fun useless => lands_of_comes comes opened (fun t => (execResult_arrives held t).1) fun t u got frame => ?_, fun p m fresh waits => ?_⟩
    · refine ((execResult_arrives held t).2.2 _ u got ((getX_arrival frame _).trans held)).1 ?_
      rwa [stalePacket_arrival frame, waitingCombine_arrival frame]
    · refine lands_of_comes comes opened (fun t => (execResult_arrives held t).1) fun t u got frame => ?_
      exact ((execResult_arrives held t).2.2 _ u got ((getX_arrival frame _).trans held)).2 p m ((stalePacket_arrival frame _).trans fresh)
        ((waitingCombine_arrival frame _ _).trans waits)

end

/-- Settles O57. -/
theorem exchangesComplete : Obligations.ExchangesComplete := by
  refine ⟨fun p s h => ?_, fun p s h => ?_, fun c x y s s₀ held comes fresh early => count_acts held comes fresh early,
    fun g x m y s s₀ held comes fresh found => grant_acts held comes fresh found,
    fun r x m e shape y s s₀ held goes shaped comes local_ placed fresh granted admitted new near reaches =>
      row_acts held goes shaped comes local_ placed fresh granted admitted new near reaches,
    fun f x y s s₀ held comes fresh local_ => ((fetch_acts held comes).1 fresh local_).1,
    fun r x p m y s s₀ held comes near fresh waits => (((result_acts held comes).2 near).2 p m fresh waits).1⟩
  · intro q x items free room new
    exact xchSet_declares h items free room new
  · intro first cnt dest one most last ok
    exact (xchGet_reads p s h).2.2 ⟨one, most, last⟩ ok

end Sys2Proof.Machine
end

section
/-! SUPPORT. The grant phase: order, capacity, placement and GRANTs (R416 to R419). -/

namespace Sys2Proof.Machine

/-! ### The order of the COUNTs (R417) -/

section
variable (x : Exchange) (members : Nat)

/-- Where a COUNT stands in the order: by member, then by tile. -/
def countRank (c : XCount) : Nat := memberRank x members c.member * 2048 + c.tile

theorem countBefore_iff (a b : XCount) : countBefore x members a b = true ↔ countRank x members a ≤ countRank x members b := decide_eq_true_iff

theorem insertCount_perm (c : XCount) (l : List XCount) : (insertCount x members c l).Perm (c :: l) := by
  induction l with
  | nil => exact .refl _
  | cons d r ih =>
    rw [insertCount]
    split
    · exact .refl _
    · exact (ih.cons d).trans (.swap c d r)

theorem insertCount_sorted (c : XCount) {l : List XCount} (sorted : l.Pairwise fun a b => countRank x members a ≤ countRank x members b) :
    (insertCount x members c l).Pairwise fun a b => countRank x members a ≤ countRank x members b := by
  induction l with
  | nil => exact List.pairwise_singleton _ _
  | cons d r ih =>
    obtain ⟨least, rest⟩ := List.pairwise_cons.1 sorted
    rw [insertCount]
    split
    · next first =>
      have first := (countBefore_iff x members c d).1 first
      refine List.pairwise_cons.2 ⟨fun b mem => ?_, sorted⟩
      rcases List.mem_cons.1 mem with rfl | mem
      · exact first
      · exact first.trans (least b mem)
    · next later =>
      have later : countRank x members d ≤ countRank x members c := by
        have := mt (countBefore_iff x members c d).2 later
        omega
      refine List.pairwise_cons.2 ⟨fun b mem => ?_, ih rest⟩
      rcases List.mem_cons.1 ((insertCount_perm x members c r).mem_iff.1 mem) with rfl | mem
      · exact later
      · exact least b mem

end

theorem orderedCounts_perm (s : State) (x : Exchange) : (orderedCounts s x).Perm x.counts := by
  unfold orderedCounts
  induction x.counts with
  | nil => exact .refl _
  | cons c r ih => exact (insertCount_perm _ _ c _).trans (ih.cons c)

theorem orderedCounts_sorted (s : State) (x : Exchange) :
    (orderedCounts s x).Pairwise fun a b => countRank x (rtSet s x.rts).members a ≤ countRank x (rtSet s x.rts).members b := by
  unfold orderedCounts
  induction x.counts with
  | nil => exact .nil
  | cons c r ih => exact insertCount_sorted _ _ c ih

/-- A source's base is the number of an expert's copies before it. -/
theorem basesFor_at {e i b : Nat} {l : List XCount} {c : XCount} : ∀ {n : Nat}, (basesFor e n l)[i]? = some (c, b) →
    l[i]? = some c ∧ b = n + ((l.take i).map fun d => countFor d e).sum := by
  induction l generalizing i with
  | nil => exact fun h => nomatch h
  | cons d r ih =>
    intro n h
    rw [basesFor] at h
    cases i with
    | zero =>
      cases h
      exact ⟨rfl, rfl⟩
    | succ j =>
      obtain ⟨at_, sum⟩ := ih (by simpa using h)
      refine ⟨by simpa using at_, ?_⟩
      rw [sum, List.take_succ_cons, List.map_cons, List.sum_cons, Nat.add_assoc]

/-! ### Folds that reach a fact -/

theorem foldl_keeps {α : Type} {f : State → α → State} {P : State → Prop} (stays : ∀ s a, P s → P (f s a)) (l : List α) {s : State} (start : P s) :
    P (l.foldl f s) := by
  induction l generalizing s with
  | nil => exact start
  | cons a r ih => exact ih (stays s a start)

/-- A fact that one step of a fold brings about, and that no step ends, holds behind the fold. -/
theorem foldl_reaches {α : Type} {f : State → α → State} {I P : State → Prop} (always : ∀ s a, I s → I (f s a)) (stays : ∀ s a, P s → P (f s a))
    {l : List α} {a : α} (mem : a ∈ l) (brings : ∀ s, I s → P (f s a)) {s : State} (start : I s) : P (l.foldl f s) := by
  induction l generalizing s with
  | nil => exact nomatch mem
  | cons b r ih =>
    rcases List.mem_cons.1 mem with rfl | mem
    · exact foldl_keeps stays r (brings s start)
    · exact ih mem (always s b start)

/-! ### The placement (R418, R419) -/

section
variable (x : Exchange) (cs : List XCount) (f : XCount) (s : State)

/-- The exchange with its capacity. -/
def withCapacity : Exchange :=
  let c0 := capacity f.capm f.cap (x.counts.map XCount.rows).sum f.k (expertsOf s x.rts).length
  { x with placed := cs, granted := true, t := (x.counts.map XCount.rows).sum, c := min c0 x.rmax, clamp := decide (x.rmax < c0)
           mismatch := x.counts.any fun c => countSig c != countSig f }

/-- What is placed of an expert's copies. -/
def placedExpert (e : Nat) : XExpert :=
  let z := withCapacity x cs f s
  let n := (cs.map fun c => countFor c e).sum
  { n, n1 := min n z.c, n2 := min n (admitLimit z f.ovf) - min n z.c }

/-- The exchange with its experts' rows placed. -/
def withPlacement : Exchange :=
  let z := withCapacity x cs f s
  let ex := (localExperts s x).map fun m => (m.1, placedExpert x cs f s m.1)
  { z with experts := ex, copies := (ex.map fun k => k.2.n).sum, spilled := (ex.map fun k => k.2.n2).sum
           dropped := x.dropped + (ex.map fun k => k.2.n - (k.2.n1 + k.2.n2)).sum, maxn := ex.foldl (fun a k => max a k.2.n) 0 }

/-- Whether copies are left over or in the second pass. -/
def overflows : Bool :=
  decide (0 < (withPlacement x cs f s).spilled) || (withPlacement x cs f s).experts.any fun k => decide (k.2.n1 + k.2.n2 < k.2.n)

/-- The exchange that stands behind the grant phase, but for experts that are finished. -/
def placedExchange : Exchange := { withPlacement x cs f s with overflowRaised := overflows x cs f s }

/-- The exchange stands placed, its events raised. -/
def placedState : State :=
  let z := withPlacement x cs f s
  let s₁ := setX (placedExchange x cs f s) s
  let s₂ := if z.mismatch then postX Ev.xchMismatch z s₁ else s₁
  let s₃ := if z.clamp then postX Ev.xchClamp z s₂ else s₂
  if overflows x cs f s then postX Ev.xchOverflow z s₃ else s₃

/-- One expert's GRANT to one source. -/
def sendGrant (e : Nat) (m : MapEntry) (u : State) (c : XCount × Nat) : State :=
  let z := withPlacement x cs f s
  sendItem (.engine (0x200 + tileField m.origin)) (f.fmt, f.rowl) x.rts c.1.member (.xgrant (grantFor z (admitLimit (withCapacity x cs f s) f.ovf) e c.1 c.2)) u

/-- One expert's GRANTs to its sources. -/
def sendGrants (u : State) (m : Nat × MapEntry) : State := (basesFor m.1 0 cs).foldl (sendGrant x cs f s m.1 m.2) u

end

theorem grantPhase_of_first {x : Exchange} {f : XCount} {s : State} (first : (orderedCounts s x).head? = some f) :
    grantPhase x s = (localExperts s x).foldl (fun u m => tryFinish (withPlacement x (orderedCounts s x) f s) m.1 u)
      ((localExperts s x).foldl (sendGrants x (orderedCounts s x) f s) (placedState x (orderedCounts s x) f s)) := by
  obtain ⟨r, e⟩ : ∃ r, orderedCounts s x = f :: r := by
    cases h : orderedCounts s x with
    | nil => rw [h] at first; exact nomatch first
    | cons g r => rw [h] at first; cases first; exact ⟨r, rfl⟩
  rw [grantPhase, e]
  rfl

/-! ### What stands behind the grant phase -/

/-- Exchange z stands, but that some of its experts are finished, and every other exchange stands as in s. -/
def StandsPlaced (z : Exchange) (s u : State) : Prop :=
  (∃ l, getX u z.xid = some { z with experts := l } ∧ ∀ e k, lookup e z.experts = some k → ∃ d, lookup e l = some { k with done := d }) ∧
    ∀ n, n ≠ z.xid → getX u n = getX s n

section
variable {z : Exchange} {s u v : State}

theorem standsPlaced_setX : StandsPlaced z s (setX z s) :=
  ⟨⟨z.experts, getX_setX_self z s, fun _ k found => ⟨k.done, found⟩⟩, fun _ other => getX_setX_ne other s⟩

theorem StandsPlaced.of_exchanges (stands : StandsPlaced z s u) (same : v.exchanges = u.exchanges) : StandsPlaced z s v := by
  unfold StandsPlaced
  simp only [getX_of_exchanges same]
  exact stands

theorem StandsPlaced.tryFinish (stands : StandsPlaced z s u) {w : Exchange} (key : w.xid = z.xid) (e : Nat) : StandsPlaced z s (tryFinish w e u) := by
  obtain ⟨⟨l, here, keeps⟩, others⟩ := stands
  unfold Machine.tryFinish
  rw [key, here]
  dsimp only
  split
  case h_2 => exact ⟨⟨l, here, keeps⟩, others⟩
  case h_1 m k _ placed =>
    split
    case isFalse => exact ⟨⟨l, here, keeps⟩, others⟩
    case isTrue =>
      refine StandsPlaced.of_exchanges (u := setX { z with experts := upsert e { k with done := true } l } u) ⟨⟨_, getX_setX_self _ u, fun e' k' found => ?_⟩,
        fun n other => (getX_setX_ne (x := { z with experts := upsert e { k with done := true } l }) other u).trans (others n other)⟩ (finishExpert_frame _ _ _ _ .exchanges (by decide))
      obtain ⟨d, old⟩ := keeps e' k' found
      by_cases this : e' = e
      · subst this
        refine ⟨true, (lookup_upsert_self _ _ _).trans ?_⟩
        rw [old] at placed
        cases placed
        rfl
      · exact ⟨d, (lookup_upsert_ne this _ _).trans old⟩

end

/-! ### The GRANTs -/

/-- A packet of the mesh stays there while others are sent. -/
theorem mesh_of_sendItem {i : Source × MeshItem} {u : State} (there : i ∈ u.mesh) (src : Source) (shape : Nat × Nat) (rts dest : Nat) (x : MeshItem) :
    i ∈ (sendItem src shape rts dest x u).mesh := by
  unfold sendItem
  split
  · exact List.mem_append_left _ there
  · have frame : OnlyChanges [.ports, .host, .xing, .store] u ((linkPackets u shape rts dest x).foldl (fun s k => sendPacket k s) u) :=
      OnlyChanges.foldl (fun s k => sendPacket_frame k s) _ _
    have mesh : ((linkPackets u shape rts dest x).foldl (fun s k => sendPacket k s) u).mesh = u.mesh := frame .mesh (by decide)
    rw [mesh]
    exact there

theorem mem_mesh_sendItem {u : State} {rts dest : Nat} (own : dest = (rtSet u rts).self) (src : Source) (shape : Nat × Nat) (x : MeshItem) :
    (src, x) ∈ (sendItem src shape rts dest x u).mesh := by
  rw [sendItem, if_pos own]
  exact List.mem_append_right _ (List.mem_singleton_self _)

section
variable (x : Exchange) (cs : List XCount) (f : XCount) (s : State)

theorem sendGrants_frame (u : State) (m : Nat × MapEntry) : OnlyChanges [.ports, .host, .xing, .mesh, .store] u (sendGrants x cs f s u m) :=
  OnlyChanges.foldl (f := sendGrant x cs f s m.1 m.2) (fun t _ => sendItem_frame _ _ _ _ _ t) _ _

theorem allGrants_frame (l : List (Nat × MapEntry)) (u : State) : OnlyChanges [.ports, .host, .xing, .mesh, .store] u (l.foldl (sendGrants x cs f s) u) :=
  OnlyChanges.foldl (sendGrants_frame x cs f s) l u

variable {x cs f s}

/-- The GRANT to a source of this member lies on the mesh once all are sent. -/
theorem grant_sent {e b : Nat} {m : MapEntry} {c : XCount} {u : State} (local_ : (e, m) ∈ localExperts s x) (listed : (c, b) ∈ basesFor e 0 cs)
    (own : c.member = (rtSet u x.rts).self) :
    (Source.engine (0x200 + tileField m.origin), MeshItem.xgrant (grantFor (withPlacement x cs f s) (admitLimit (withCapacity x cs f s) f.ovf) e c b)) ∈
      ((localExperts s x).foldl (sendGrants x cs f s) u).mesh := by
  have self (v w : State) (frame : OnlyChanges [.ports, .host, .xing, .mesh, .store] v w) (at_ : c.member = (rtSet v x.rts).self) :
      c.member = (rtSet w x.rts).self := at_.trans (congrArg (fun t => (lookupD ({} : RtSet) x.rts t).self) (frame .sets (by decide)).symm)
  refine foldl_reaches (I := fun v => c.member = (rtSet v x.rts).self) (P := fun v => _ ∈ v.mesh) (fun v k => self v _ (sendGrants_frame x cs f s v k))
    (fun v k there => foldl_keeps (f := sendGrant x cs f s k.1 k.2) (P := fun v => _ ∈ v.mesh) (fun w d there => mesh_of_sendItem there _ _ _ _ _) _ there)
    local_ (fun v at_ => ?_) own
  exact foldl_reaches (f := sendGrant x cs f s e m) (I := fun v => c.member = (rtSet v x.rts).self) (P := fun v => _ ∈ v.mesh)
    (fun w d => self w _ (sendItem_frame _ _ _ _ _ w)) (fun w d there => mesh_of_sendItem there _ _ _ _ _) listed
    (fun w at_ => mem_mesh_sendItem at_ _ _ _) at_

/-! ### The state behind it -/

theorem placedState_frame : OnlyChanges [.host, .xing, .store] (setX (placedExchange x cs f s) s) (placedState x cs f s) := by
  unfold placedState
  extract_lets z s₁ s₂ s₃
  have h₂ : OnlyChanges [.host, .xing, .store] s₁ s₂ := OnlyChanges.ite (postX_frame _ _ _) (.refl _ _)
  have h₃ : OnlyChanges [.host, .xing, .store] s₁ s₃ := OnlyChanges.ite (h₂.step (postX_frame _ _ _) (by decide)) h₂
  exact OnlyChanges.ite (h₃.step (postX_frame _ _ _) (by decide)) h₃

theorem grantPhase_stands (first : (orderedCounts s x).head? = some f) :
    StandsPlaced (placedExchange x (orderedCounts s x) f s) s (grantPhase x s) := by
  rw [grantPhase_of_first first]
  have begins : StandsPlaced (placedExchange x (orderedCounts s x) f s) s (placedState x (orderedCounts s x) f s) :=
    standsPlaced_setX.of_exchanges (placedState_frame .exchanges (by decide))
  exact foldl_keeps (P := StandsPlaced (placedExchange x (orderedCounts s x) f s) s) (fun u m stands => stands.tryFinish rfl m.1) _
    (begins.of_exchanges (allGrants_frame x _ f s _ _ .exchanges (by decide)))

theorem grantPhase_grants {e b : Nat} {m : MapEntry} {c : XCount} (first : (orderedCounts s x).head? = some f) (local_ : (e, m) ∈ localExperts s x)
    (listed : (c, b) ∈ basesFor e 0 (orderedCounts s x)) (own : c.member = selfOf s x) :
    (Source.engine (0x200 + tileField m.origin),
      MeshItem.xgrant (grantFor (withPlacement x (orderedCounts s x) f s) (admitLimit (withCapacity x (orderedCounts s x) f s) f.ovf) e c b)) ∈
      (grantPhase x s).mesh := by
  rw [grantPhase_of_first first]
  have finishes (l : List (Nat × MapEntry)) (u : State) :
      OnlyChanges [.knots, .plays, .exchanges, .mem] u (l.foldl (fun u m => tryFinish (withPlacement x (orderedCounts s x) f s) m.1 u) u) :=
    OnlyChanges.foldl (fun u m => tryFinish_frame _ m.1 u) l u
  have mesh (l : List (Nat × MapEntry)) (u : State) :
      (l.foldl (fun u m => tryFinish (withPlacement x (orderedCounts s x) f s) m.1 u) u).mesh = u.mesh := finishes l u .mesh (by decide)
  rw [mesh]
  refine grant_sent local_ listed (own.trans ?_)
  have sets : (placedState x (orderedCounts s x) f s).sets = s.sets := placedState_frame .sets (by decide)
  unfold selfOf rtSet
  rw [sets]

end

/-! ### What is placed -/

section
variable {x : Exchange} {cs : List XCount} {f : XCount} {s : State}

theorem admitLimit_placed : admitLimit (withCapacity x cs f s) f.ovf = if f.ovf then x.rmax else (withCapacity x cs f s).c := by
  unfold admitLimit
  refine if_congr Iff.rfl rfl ?_
  change min (min _ x.rmax) x.rmax = min _ x.rmax
  omega

/-- Both passes hold what the limit admits. -/
theorem placedExpert_both (e : Nat) : (placedExpert x cs f s e).n1 + (placedExpert x cs f s e).n2 =
    max (placedExpert x cs f s e).n1 (min (placedExpert x cs f s e).n (if f.ovf then x.rmax else (withCapacity x cs f s).c)) := by
  rw [← admitLimit_placed (cs := cs) (s := s)]
  have both (a b : Nat) : a + (b - a) = max a b := by omega
  exact both _ _

theorem lookup_placed {e : Nat} {m : MapEntry} (local_ : (e, m) ∈ localExperts s x) :
    lookup e (withPlacement x cs f s).experts = some (placedExpert x cs f s e) := by
  change lookup e ((localExperts s x).map fun m => (m.1, placedExpert x cs f s m.1)) = _
  generalize localExperts s x = l at local_ ⊢
  induction l with
  | nil => exact nomatch local_
  | cons k r ih =>
    rw [List.map_cons, lookup]
    split
    · next same => rw [same]
    · next other =>
      rcases List.mem_cons.1 local_ with rfl | rest
      · exact absurd rfl other
      · exact ih rest

end

/-- The grant phase, as far as the exchange, its experts and the GRANTs go. -/
theorem grantPhasePlaces (x : Exchange) (f : XCount) (s : State) (first : (orderedCounts s x).head? = some f) :
    let t := (x.counts.map XCount.rows).sum
    let cap := if f.capm then cdiv (f.cap * t * f.k) (256 * max (expertsOf s x.rts).length 1) else f.cap
    let copies (e : Nat) := ((orderedCounts s x).map fun c => countFor c e).sum
    let u := grantPhase x s
    ∃ y, getX u x.xid = some y ∧ y.granted = true ∧ y.t = t ∧ y.c = min cap x.rmax ∧ y.clamp = decide (x.rmax < cap) ∧
      y.mismatch = x.counts.any (fun c => countSig c != countSig f) ∧
      y.copies = ((localExperts s x).map fun z => copies z.1).sum ∧
      y.dropped = x.dropped + ((localExperts s x).map fun z => copies z.1 - max (min (copies z.1) y.c) (min (copies z.1) (if f.ovf then x.rmax else y.c))).sum ∧
      (∀ e m, (e, m) ∈ localExperts s x →
        (∃ k, lookup e y.experts = some k ∧ k.n = copies e ∧ k.n1 = min k.n y.c ∧ k.n1 + k.n2 = max k.n1 (min k.n (if f.ovf then x.rmax else y.c))) ∧
        ∀ c b, (c, b) ∈ basesFor e 0 (orderedCounts s x) → c.member = selfOf s x →
          let a := min (countFor c e) ((if f.ovf then x.rmax else y.c) - b)
          (Source.engine (0x200 + tileField m.origin), MeshItem.xgrant {
            xid := x.xid, expert := e, tile := c.tile, base := b, step := x.step, admitted := a
            dropped := decide (a < countFor c e), spilled := decide (y.c < b + a) }) ∈ u.mesh) ∧
      (∀ n, n ≠ x.xid → getX u n = getX s n) ∧ OnlyChanges [.exchanges, .mesh, .ports, .knots, .plays, .mem, .host, .xing, .store] s u := by
  intro t cap copies u
  obtain ⟨⟨l, here, keeps⟩, others⟩ := grantPhase_stands first
  refine ⟨_, here, rfl, rfl, rfl, rfl, rfl, ?_, ?_, fun e m local_ => ⟨?_, fun c b listed own => ?_⟩, others, (grantPhase_frame x s).mono (by decide)⟩
  · change (((localExperts s x).map fun m => (m.1, placedExpert x (orderedCounts s x) f s m.1)).map fun k => k.2.n).sum = _
    rw [List.map_map]
    rfl
  · change x.dropped + (((localExperts s x).map fun m => (m.1, placedExpert x (orderedCounts s x) f s m.1)).map fun k => k.2.n - (k.2.n1 + k.2.n2)).sum = _
    rw [List.map_map]
    refine congrArg (fun r => x.dropped + List.sum r) (List.map_congr_left fun k _ => ?_)
    exact congrArg (_ - ·) (placedExpert_both k.1)
  · obtain ⟨d, found⟩ := keeps e _ (lookup_placed local_)
    exact ⟨_, found, rfl, rfl, placedExpert_both e⟩
  · have sent := grantPhase_grants first local_ listed own
    unfold grantFor at sent
    rw [admitLimit_placed] at sent
    exact sent

end Sys2Proof.Machine
end

section
/-! SUPPORT. FETCHes are served, and packets out of place (R420, R423, R426). -/

namespace Sys2Proof.Machine

/-! ### A FETCH -/

section
variable {xid : Nat} {f : XFetch} {x : Exchange} {m : MapEntry} {elems : List Nat} {s : State}

theorem serveFetch_of_shut (held : getX s xid = some x) (local_ : localExpert s x f.expert = some m)
    (shut : ¬(returnsOpen s x (tileField m.origin) = true ∧ returnsWait s x m f.row = false)) : serveFetch xid s f = s := by
  unfold serveFetch
  rw [held]
  dsimp only
  rw [local_]
  dsimp only
  split
  case h_2 => rfl
  case h_1 goes _ =>
    refine absurd ?_ shut
    rwa [Bool.and_eq_true, Bool.not_eq_true'] at goes

theorem serveFetch_of_open (held : getX s xid = some x) (local_ : localExpert s x f.expert = some m) (line : returnLine s x m f.row = some elems)
    (opened : returnsOpen s x (tileField m.origin) = true ∧ returnsWait s x m f.row = false) :
    let shape := (rowShape x).getD (0, 1)
    let u := readReturns x m f.row (setX { x with fetches := x.fetches.filter fun y => y != f } s)
    let v := if gridsMeet u.2 x shape f.expert m then freeElems x.rfmt elems.length u.2 else (elems, u.2)
    serveFetch xid s f = if (!u.1) = true then faultStep f.step v.2 else sendItem (.engine (0x200 + tileField m.origin)) shape x.rts f.member
      (.xresult { xid, expert := f.expert, row := f.row, tile := f.tile, elems := v.1, step := f.step }) v.2 := by
  intro shape u v
  unfold serveFetch
  rw [held]
  dsimp only
  rw [local_]
  dsimp only
  rw [opened.1, opened.2, line]
  rfl

end

theorem fetchServed (xid : Nat) (f : XFetch) (x : Exchange) (m : MapEntry) (elems : List Nat) (s : State) (held : getX s xid = some x)
    (local_ : localExpert s x f.expert = some m) (line : returnLine s x m f.row = some elems) :
    let shape := (rowShape x).getD (0, 1)
    let u := readReturns x m f.row (setX { x with fetches := x.fetches.filter fun y => y != f } s)
    let v := if gridsMeet u.2 x shape f.expert m then freeElems x.rfmt elems.length u.2 else (elems, u.2)
    let open_ := returnsOpen s x (tileField m.origin) = true ∧ returnsWait s x m f.row = false
    (open_ → u.1 = true → serveFetch xid s f = sendItem (.engine (0x200 + tileField m.origin)) shape x.rts f.member
      (.xresult { xid, expert := f.expert, row := f.row, tile := f.tile, elems := v.1, step := f.step }) v.2) ∧
    (open_ → u.1 = false → serveFetch xid s f = faultStep f.step v.2) ∧ (¬open_ → serveFetch xid s f = s) := by
  intro shape u v open_
  refine ⟨fun opened intact => ?_, fun opened lost => ?_, serveFetch_of_shut held local_⟩
  · exact (serveFetch_of_open held local_ line opened).trans (if_neg (by rw [Bool.not_eq_true', Bool.not_eq_false]; exact intact))
  · exact (serveFetch_of_open held local_ line opened).trans (if_pos (by rw [Bool.not_eq_true']; exact lost))

/-- Settles a claim of O27: FETCHes and RESULTs. -/
theorem exchangeReturns : Claim.ExchangeReturns :=
  ⟨fun _ _ _ _ _ held comes => fetch_acts held comes, fetchServed, fun _ _ _ _ _ held comes => result_acts held comes,
    fun p tile m x s => (combineWrite_frame p tile m x s).mono (by decide)⟩

/-! ### Packets of an exchange that is not held -/

/-- A lost packet of an exchange that is not held touches none. -/
theorem losePacket_exchanges {cls : Nat} {y : Source × MeshItem} {s : State} (foreign : ∀ r, y.2 = .xrow r → getX s r.xid = none) :
    (losePacket cls y s).exchanges = s.exchanges := by
  have noted : (noteLost y s).exchanges = s.exchanges := by
    unfold noteLost
    extract_lets row
    have rows (t : Nat × Nat) (r : Nat) : (row t r).exchanges = s.exchanges := by
      unfold row
      split
      · exact modQueue_frame _ _ _ _ _ .exchanges (by decide)
      · rfl
    split
    · exact rows _ _
    · exact rows _ _
    · next tile r =>
      rw [foreign r rfl]
    · rfl
  have rest : OnlyChanges [.cap, .host, .xing, .plays, .store] (noteLost y s) (losePacket cls y s) := by
    unfold losePacket
    extract_lets u play
    split
    · exact OnlyChanges.ite ((faultPlay_frame _ _ _ _).mono (by decide)) ((faultStep_frame _ _).mono (by decide))
    · exact OnlyChanges.ite ((faultPlay_frame _ _ _ _).mono (by decide)) (.refl _ _)
    · exact OnlyChanges.ite ((faultStep_frame _ _).mono (by decide)) (.refl _ _)
  exact (rest .exchanges (by decide)).trans noted

/-- However the arrival of a packet of no exchange ends, no exchange changes. -/
theorem packetArrive_exchanges {own : Bool} {shape : Nat × Nat} {rts : Nat} {x : MeshItem} (untagged : Untagged x) {t : Transit} {s : State}
    (foreign : ∀ r, x = .xrow r → getX s r.xid = none) :
    (∀ u, packetArrive own shape rts x t s = .lost u → u.exchanges = s.exchanges) ∧
      ∀ i u, packetArrive own shape rts x t s = .got i u → u.exchanges = s.exchanges := by
  have ways : packetArrive own shape rts x t s = .none ∨ ∃ y s₀, Comes own shape rts x y s s₀ := by
    cases own with
    | true =>
      cases take : meshTake x s with
      | none => exact .inl ((if_pos rfl).trans (meshArrive_of_none take t))
      | some y => exact .inr ⟨y.1, y.2, ⟨fun _ => take, fun no => absurd no (by decide)⟩⟩
    | false =>
      cases take : takeItem s shape rts x with
      | none => exact .inl (Absent.arrive (own := false) ⟨fun no => absurd no Bool.false_ne_true, fun _ => take⟩ t)
      | some s₀ => exact .inr ⟨_, s₀, ⟨fun no => absurd no Bool.false_ne_true, fun _ => ⟨take, rfl⟩⟩⟩
  rcases ways with away | ⟨y, s₀, comes⟩
  · rw [away]
    exact ⟨fun _ e => Arrival.noConfusion e, fun _ _ e => Arrival.noConfusion e⟩
  rw [comes.arrive]
  have before : s₀.exchanges = s.exchanges := comes.frame .exchanges (by decide)
  have lone (u : State) (same : u.exchanges = s₀.exchanges) (cls : Nat) : (losePacket cls y u).exchanges = s.exchanges := by
    refine (losePacket_exchanges fun r row => ?_).trans (same.trans before)
    rw [getX_of_exchanges (same.trans before)]
    exact foreign r ((comes.item untagged).symm.trans row)
  by_cases closed : itemClosed s₀ y.2 = true
  · rw [crossArrive_of_closed closed]
    refine ⟨fun u e => ?_, fun _ _ e => Arrival.noConfusion e⟩
    cases e
    exact lone _ rfl _
  · have opened := eq_false_of_ne_true closed
    cases t with
    | ok =>
      rw [crossArrive_of_ok opened]
      refine ⟨fun _ e => Arrival.noConfusion e, fun i u e => ?_⟩
      cases e
      exact before
    | overrun a b =>
      rw [crossArrive_of_overrun opened]
      refine ⟨fun u e => ?_, fun _ _ e => Arrival.noConfusion e⟩
      cases e
      exact lone _ (xingRecordFor_frame _ _ _ _ _ _ _ .exchanges (by decide)) _
    | hop k w =>
      obtain ⟨discards, keeps⟩ := crossArrive_of_hop opened k w
      have met : (hopMeets y k w s₀).2.exchanges = s₀.exchanges := parityMeets_hop_frame _ _ _ _ _ _ .exchanges (by decide)
      cases fate : (hopMeets y k w s₀).1 with
      | true =>
        rw [discards fate]
        refine ⟨fun u e => ?_, fun _ _ e => Arrival.noConfusion e⟩
        cases e
        exact lone _ met _
      | false =>
        rw [keeps fate]
        refine ⟨fun _ e => Arrival.noConfusion e, fun i u e => ?_⟩
        cases e
        exact met.trans before

section
variable {t : Transit} {s : State}

theorem xchGrant_foreign {g : XGrant} (none_ : getX s g.xid = none) : ∃ u, exec (.xchGrant g t) s = .next u ∧ u.exchanges = s.exchanges := by
  have run : exec (.xchGrant g t) s = execXchGrant g t s := rfl
  obtain ⟨lost, got⟩ := packetArrive_exchanges (own := true) (shape := xShape s g.xid) (rts := xRts s g.xid) (untagged_xgrant g) (t := t) (s := s) nofun
  rw [run, execXchGrant, none_]
  dsimp only [Option.elim]
  split
  · exact ⟨s, rfl, rfl⟩
  · next u ends => exact ⟨u, rfl, lost u ends⟩
  · next i u ends =>
    rw [getX_of_exchanges (got i u ends), none_]
    exact ⟨u, rfl, got i u ends⟩

theorem xchRow_foreign {r : XRow} (none_ : getX s r.xid = none) : ∃ u, exec (.xchRow r t) s = .next u ∧ u.exchanges = s.exchanges := by
  have run : exec (.xchRow r t) s = execXchRow r t s := rfl
  obtain ⟨lost, got⟩ := packetArrive_exchanges (own := true) (shape := xShape s r.xid) (rts := xRts s r.xid) (untagged_xrow r) (t := t) (s := s)
    fun r' e => by cases e; exact none_
  have goes : rowWaits s r.xid r.expert r.row = false := by rw [rowWaits, none_]
  rw [run, execXchRow, if_neg (ne_true_of_eq_false goes), none_]
  dsimp only [Option.elim]
  split
  · exact ⟨s, rfl, rfl⟩
  · next u ends => exact ⟨u, rfl, lost u ends⟩
  · next i u ends =>
    rw [getX_of_exchanges (got i u ends), none_]
    exact ⟨u, rfl, got i u ends⟩

theorem fetch_foreign {f : XFetch} (none_ : getX s f.xid = none) : ∃ u, exec (.fetch f t) s = .next u ∧ u.exchanges = s.exchanges := by
  have run : exec (.fetch f t) s = execFetch f t s := rfl
  obtain ⟨lost, got⟩ := packetArrive_exchanges (own := true) (shape := xShape s f.xid) (rts := xRts s f.xid) (untagged_xfetch f) (t := t) (s := s) nofun
  rw [run, execFetch, none_]
  dsimp only [Option.elim]
  split
  · exact ⟨s, rfl, rfl⟩
  · next u ends => exact ⟨u, rfl, lost u ends⟩
  · next i u ends =>
    rw [getX_of_exchanges (got i u ends), none_]
    exact ⟨u, rfl, got i u ends⟩

theorem result_foreign {r : XResult} (none_ : getX s r.xid = none) : ∃ u, exec (.result r t) s = .next u ∧ u.exchanges = s.exchanges := by
  have run : exec (.result r t) s = execResult r t s := rfl
  obtain ⟨lost, got⟩ := packetArrive_exchanges (own := true) (shape := xShape s r.xid) (rts := xRts s r.xid) (untagged_xresult r) (t := t) (s := s) nofun
  rw [run, execResult, none_]
  dsimp only [Option.elim]
  split
  · exact ⟨s, rfl, rfl⟩
  · next u ends => exact ⟨u, rfl, lost u ends⟩
  · next i u ends =>
    rw [getX_of_exchanges (got i u ends), none_]
    exact ⟨u, rfl, got i u ends⟩

end

/-- A row that has not come does nothing, whether or not it would wait. -/
theorem xchRow_absent {r : XRow} {x : Exchange} {t : Transit} {s : State} (held : getX s r.xid = some x)
    (absent : Absent (rowMember x r.expert r.row == some (selfOf s x)) ((rowShape x).getD (0, 1)) x.rts (.xrow r) s) : exec (.xchRow r t) s = .next s := by
  by_cases waits : rowWaits s r.xid r.expert r.row = true
  · exact if_pos waits
  · exact (execXchRow_arrives held (eq_false_of_ne_true waits) t).2.1 (absent.arrive t)

/-- Settles O27. -/
theorem exchangePlacesAndReturns : Obligations.ExchangePlacesAndReturns := by
  refine ⟨⟨grantPhasePlaces, fun x s => ⟨orderedCounts_perm s x, orderedCounts_sorted s x, fun e n i b l c at_ => basesFor_at at_⟩⟩, exchangeReturns,
    ⟨fun g t s none_ => xchGrant_foreign none_, fun r t s none_ => xchRow_foreign none_, fun f t s none_ => fetch_foreign none_,
      fun r t s none_ => result_foreign none_, ?_, ?_, fun r x t s held absent => xchRow_absent held absent, ?_, ?_⟩, xchGet_reads⟩
  · exact fun c x t s held absent => (execXchCount_arrives held t).2.1 (absent.arrive t)
  · exact fun g x t s held absent => (execXchGrant_arrives held t).2.1 (absent.arrive t)
  · exact fun f x t s held absent => (execFetch_arrives held t).2.1 (absent.arrive t)
  · exact fun r x t s held absent => (execResult_arrives held t).2.1 (absent.arrive t)

end Sys2Proof.Machine
end

section
/-! SUPPORT. Plays are fired and reply (R210, R336, R41). -/

namespace Sys2Proof.Machine

/-! ### A reply, once -/

section
variable {tag queue opc origin : Nat} {seq : W32} {notify : Bool} {play step : W32} {st : BitVec 16} {d : W64} {s : State}

theorem stepReply_of_first (first : hasReplied tag s = false) : stepReply tag queue seq opc origin notify play step st d s =
    replyTo queue seq opc origin notify st d (markReplied tag s) := if_neg (ne_true_of_eq_false first)

theorem stepReply_of_again (again : hasReplied tag s = true) : stepReply tag queue seq opc origin notify play step st d s =
    postFull Ev.playFail origin 0xFFFFFFFF play step (det [(2, st.toNat)]) s := if_pos again

end

theorem getPlay_dropPlay (order : Nat) (s : State) : getPlay (dropPlay order s) order = none := by
  refine List.find?_eq_none.2 fun q mem same => ?_
  have other := (List.mem_filter.1 mem).2
  rw [bne_iff_ne] at other
  exact other (beq_iff_eq.1 same)

/-- No play of that number is behind what leaves the plays alone. -/
theorem getPlay_none_of_plays {order : Nat} {s t : State} (gone : getPlay s order = none) (same : t.plays = s.plays) : getPlay t order = none := by
  unfold getPlay at gone ⊢
  rwa [same]

theorem playReplies : Claim.PlayReplies := by
  intro p st d s
  refine ⟨fun first => ?_, fun again => ?_, stepReply_frame _ _ _ _ _ _ _ _ _ _ s |>.mono (by decide), rfl, ?_⟩
  · exact congrArg State.host (stepReply_of_first first)
  · have run : playReply p st d s = postFull _ _ _ _ _ _ s := stepReply_of_again again
    rw [run]
    exact ⟨replies_of_butLog (postFull_same ..), raises_postFull Ev.playFail p.origin _ p.id p.step _ s⟩
  · exact getPlay_none_of_plays (getPlay_dropPlay p.order s) (playReply_frame _ _ _ _ .plays (by decide))

/-! ### PLAY_FIRE -/

/-- What earlier aborts add to a command changes its times alone. -/
theorem shifted_times (s : State) (p : Packet) : ∃ f l, shifted s p = { p with fire := f, param := l } := by
  unfold shifted
  split
  · split
    · exact ⟨p.fire, p.param, rfl⟩
    · unfold shiftPacket
      extract_lets q
      split
      · exact ⟨_, _, rfl⟩
      · exact ⟨_, _, rfl⟩
      · exact ⟨_, _, rfl⟩
  · exact ⟨p.fire, p.param, rfl⟩

section
variable {p : Packet} {s : State}

theorem exec_playFire (serves : Serves s) (opc : p.opc = 0x0301) (passes : checkPacket s p = none) (timely : fireRefusal s (shifted s p) = none) :
    exec (.playFire p) s = .next (opPlayFire (barrierPacket p s) s.arrivals (logStep (barrierPacket p s) s.arrivals (arrived s))) := by
  have step : stepOpcode p.opc = true := by rw [opc]; rfl
  have code : (shifted s p).opc = 0x0301 := (shifted_opc s p).trans opc
  have same : { p with opc := 0x0301 } = p := by rw [← opc]
  rw [exec_packetRow rfl, same, dispatchPacket_of_serves serves, passes]
  simp only [step, if_true, timely]
  unfold barrierPacket
  cases isLate s (shifted s p)
  · simp only [Bool.false_eq_true, if_false]
    rw [execute, code]
    change Host.Outcome.next (runStep _ _ _ _) = _
    rw [runStep]
    simp only [code]
    rfl
  · simp only [if_true]
    rw [execute]
    simp only [code]
    rw [if_pos (show stepOpcode 0x0301 = true from rfl), dispatchStep, runStep]
    rfl

theorem hasReplied_logStep {tag : Nat} {q : Packet} {order : Nat} (first : hasReplied tag s = false) : hasReplied tag (logStep q order s) = false := by
  unfold logStep
  split
  · exact first
  · split
    · exact first
    · split
      · exact first
      · unfold hasReplied at first ⊢
        rw [List.any_append, first]
        simp

theorem reserved_of_checked (passes : checkPacket s p = none) : p.rsv = 0 := by
  have clean : headerClean p = true := by
    by_contra bad
    revert passes
    unfold checkPacket
    rw [if_pos (show (!headerClean p) = true by rw [eq_false_of_ne_true bad]; rfl)]
    repeat' split
    all_goals nofun
  exact ((headerClean_iff p).1 clean).1

theorem isLate_playFire (opc : p.opc = 0x0301) : isLate s (shifted s p) =
    ((shifted s p).fire != 0 && decide ((shifted s p).fire.toNat < s.cad.ct.toNat)) := by
  have code : (shifted s p).opc = 0x0301 := (shifted_opc s p).trans opc
  rw [isLate, code, show ((0x0301 : Nat) != 0x0701) = true from rfl, Bool.and_true]

/-- The mark of a PLAY_FIRE that comes after its FIRE time. -/
theorem late_playFire (opc : p.opc = 0x0301) (passes : checkPacket s p = none) : ((barrierPacket p s).rsv == 1) =
    ((shifted s p).fire != 0 && decide ((shifted s p).fire.toNat < s.cad.ct.toNat)) := by
  obtain ⟨f, l, times⟩ := shifted_times s p
  have clear : (shifted s p).rsv = 0 := by
    rw [times]
    exact reserved_of_checked (p := p) passes
  rw [← isLate_playFire opc]
  unfold barrierPacket
  cases isLate s (shifted s p) with
  | true => rfl
  | false => rw [clear]; rfl

theorem logged_fire (q : Packet) : OnlyChanges [.arrivals, .cap] s (logStep q s.arrivals (arrived s)) :=
  ((arrived_frame s).mono (by decide)).step (logStep_frame q s.arrivals _) (by decide)

/-- A PLAY_FIRE whose PHASE is above 4. -/
theorem playFire_refused (serves : Serves s) (opc : p.opc = 0x0301) (passes : checkPacket s p = none) (timely : fireRefusal s (shifted s p) = none)
    (high : 4 < p.flags.toNat % 8) : ∃ t, exec (.playFire p) s = .next t ∧ t.plays = s.plays ∧ OnlyChanges [.arrivals, .cap, .host, .store, .xing] s t ∧
      (hasReplied s.arrivals s = false → t.host = { s.host with replies := s.host.replies ++ [answerOf p Status.pwrValue 0 s] }) := by
  obtain ⟨f, l, times⟩ := shifted_times s p
  have flags : (barrierPacket p s).flags = p.flags := by unfold barrierPacket; rw [times]
  have code : (barrierPacket p s).opc = 0x0301 := by unfold barrierPacket; rw [times]; exact opc
  have run := exec_playFire serves opc passes timely
  rw [opPlayFire, if_pos (by rw [flags]; exact high)] at run
  have logged := logged_fire (s := s) (barrierPacket p s)
  have frame : OnlyChanges [.arrivals, .cap, .host, .store, .xing] s
      (refuse (barrierPacket p s) Status.pwrValue (logStep (barrierPacket p s) s.arrivals (arrived s))) :=
    (logged.mono (by decide)).step (refuse_frame _ _ _) (by decide)
  refine ⟨_, run, frame .plays (by decide), frame, fun first => ?_⟩
  have firstU : hasReplied (barrierPacket p s).tag (logStep (barrierPacket p s) s.arrivals (arrived s)) = false := hasReplied_logStep first
  have host : (logStep (barrierPacket p s) s.arrivals (arrived s)).host = s.host := logged .host (by decide)
  have cad : (logStep (barrierPacket p s) s.arrivals (arrived s)).cad = s.cad := logged .cad (by decide)
  generalize logStep (barrierPacket p s) s.arrivals (arrived s) = u at *
  rw [refuse, reply, code, if_pos (show stepOpcode 0x0301 = true from rfl), stepReply_of_first firstU]
  unfold replyTo markReplied answerOf
  dsimp only
  rw [host, cad]
  unfold barrierPacket
  rw [times, opc]
  rfl

/-- A PLAY_FIRE that is taken. -/
theorem playFire_taken (serves : Serves s) (opc : p.opc = 0x0301) (passes : checkPacket s p = none) (timely : fireRefusal s (shifted s p) = none)
    (low : p.flags.toNat % 8 ≤ 4) : let x := shifted s p
    ∃ t, exec (.playFire p) s = .next t ∧ OnlyChanges [.arrivals, .plays, .cap] s t ∧
      t.plays = s.plays ++ [{
        image := item x.param 0 8, org := p.tgt.toNat % 2048, shape := p.tgt.toNat / 2048 % 8, id := BitVec.ofNat 32 (item x.param 8 4)
        step := BitVec.ofNat 32 (item x.param 12 4), fire := if x.fire = 0 then s.cad.ct else x.fire, deadline := BitVec.ofNat 64 (item x.param 16 8)
        queue := p.queue, seq := p.seq, origin := p.origin, notify := p.flags.getLsbD 4, rerun := p.flags.getLsbD 3, phase := p.flags.toNat % 8
        order := s.arrivals, late := x.fire != 0 && decide (x.fire.toNat < s.cad.ct.toNat)
        state := if x.fire ≠ 0 ∧ s.cad.ct.toNat ≤ x.fire.toNat then .pending else .due }] := by
  intro x
  obtain ⟨f, l, times⟩ := shifted_times s p
  have late := late_playFire (s := s) opc passes
  have flags : (barrierPacket p s).flags = p.flags := by unfold barrierPacket; rw [times]
  have tgt : (barrierPacket p s).tgt = p.tgt := by unfold barrierPacket; rw [times]
  have queue : (barrierPacket p s).queue = p.queue := by unfold barrierPacket; rw [times]
  have seq : (barrierPacket p s).seq = p.seq := by unfold barrierPacket; rw [times]
  have origin : (barrierPacket p s).origin = p.origin := by unfold barrierPacket; rw [times]
  have param : (barrierPacket p s).param = x.param := rfl
  have fire : (barrierPacket p s).fire = x.fire := rfl
  have run := exec_playFire serves opc passes timely
  rw [opPlayFire, if_neg (by rw [flags]; omega)] at run
  have logged := logged_fire (s := s) (barrierPacket p s)
  have plays : (logStep (barrierPacket p s) s.arrivals (arrived s)).plays = s.plays := logged .plays (by decide)
  have cad : (logStep (barrierPacket p s) s.arrivals (arrived s)).cad = s.cad := logged .cad (by decide)
  generalize logStep (barrierPacket p s) s.arrivals (arrived s) = u at *
  refine ⟨_, run, only_plays (logged.mono (by decide)) _ (by decide), ?_⟩
  dsimp only
  rw [plays, late, cad, fire, flags, tgt, queue, seq, origin]
  unfold pN Packet.notify tgtOrg tgtShape
  rw [param, flags]
  refine congrArg (fun y => s.plays ++ [y]) ?_
  congr 1
  refine if_congr ?_ rfl rfl
  rw [Bool.and_eq_true, decide_eq_true_eq, decide_eq_true_eq]

end

theorem playsAreFired : Claim.PlaysAreFired := fun _ _ serves opc passes timely =>
  ⟨playFire_refused serves opc passes timely, playFire_taken serves opc passes timely⟩

end Sys2Proof.Machine
end

section
/-! SUPPORT. Plays start and are run again; what their ends leave behind (R38, R210 to R212, R464). -/

namespace Sys2Proof.Machine

/-! ### The first play of a partition (R38) -/

theorem playBefore_iff (a b : Play) : playBefore a b = true ↔ a.fire.toNat < b.fire.toNat ∨ a.fire.toNat = b.fire.toNat ∧ a.order < b.order := by
  rw [playBefore, Bool.or_eq_true, Bool.and_eq_true, decide_eq_true_eq, decide_eq_true_eq, beq_iff_eq, BitVec.toNat_eq]

/-- A play of the partition that can start. -/
def ableB (s : State) (org sh : Nat) (p : Play) : Bool :=
  p.org == org && p.shape == sh && p.state != .running && (p.state == .due || decide (p.fire.toNat ≤ s.cad.ct.toNat)) && !gated s p

/-- What a search for the first play holds after it has seen one more. -/
def pickPlay (s : State) (org sh : Nat) (b : Option Play) (p : Play) : Option Play :=
  if ableB s org sh p then
    match b with
    | some q => if playBefore p q then some p else b
    | none => some p
  else b

theorem nextPlay_eq (s : State) (org sh : Nat) : nextPlay s org sh = s.plays.foldl (pickPlay s org sh) none := rfl

section
variable {s : State} {org sh : Nat}

theorem pickPlay_cases (b : Option Play) (p : Play) :
    (ableB s org sh p = false ∧ pickPlay s org sh b p = b) ∨
      (∃ q, b = some q ∧ playBefore p q = false ∧ pickPlay s org sh b p = b) ∨
      (ableB s org sh p = true ∧ (∀ q, b = some q → playBefore p q = true) ∧ pickPlay s org sh b p = some p) := by
  cases able : ableB s org sh p with
  | false => exact .inl ⟨rfl, if_neg (by rw [able]; decide)⟩
  | true =>
    cases b with
    | none => exact .inr (.inr ⟨rfl, nofun, if_pos able⟩)
    | some q =>
      have run : pickPlay s org sh (some q) p = if playBefore p q then some p else some q := if_pos able
      rw [run]
      cases before : playBefore p q with
      | false => exact .inr (.inl ⟨q, rfl, before, rfl⟩)
      | true => exact .inr (.inr ⟨rfl, fun q' e => by cases e; exact before, rfl⟩)

/-- The search finds a play that can start and that no other comes before. -/
theorem pickPlay_first (l : List Play) : ∀ {b : Option Play} {r : Play}, l.foldl (pickPlay s org sh) b = some r →
    (b = some r ∨ r ∈ l ∧ ableB s org sh r = true) ∧ (∀ q, b = some q → playBefore q r = false) ∧
      ∀ q ∈ l, ableB s org sh q = true → playBefore q r = false := by
  have irrefl (q : Play) : playBefore q q = false := by
    rw [← Bool.not_eq_true, playBefore_iff]
    omega
  induction l with
  | nil => exact fun {_ _} h => ⟨.inl h, fun q e => by cases e.symm.trans h; exact irrefl _, nofun⟩
  | cons p l ih =>
    intro b r h
    obtain ⟨found, beats, first⟩ := ih h
    rcases pickPlay_cases (s := s) (org := org) (sh := sh) b p with ⟨unable, keeps⟩ | ⟨q, e, later, keeps⟩ | ⟨able, earlier, takes⟩
    · rw [keeps] at found beats
      refine ⟨found.imp id fun ⟨mem, able⟩ => ⟨.tail _ mem, able⟩, beats, fun q mem able => ?_⟩
      rcases List.mem_cons.1 mem with rfl | mem
      · rw [unable] at able; exact nomatch able
      · exact first q mem able
    · rw [keeps] at found beats
      refine ⟨found.imp id fun ⟨mem, able⟩ => ⟨.tail _ mem, able⟩, beats, fun k mem able => ?_⟩
      rcases List.mem_cons.1 mem with rfl | mem
      · have base := beats q e
        rw [← Bool.not_eq_true, playBefore_iff] at base later ⊢
        omega
      · exact first k mem able
    · rw [takes] at found beats
      have base := beats p rfl
      refine ⟨.inr (found.elim (fun e => ?_) fun ⟨mem, able⟩ => ⟨.tail _ mem, able⟩), fun q e => ?_, fun k mem able' => ?_⟩
      · cases e
        exact ⟨.head _, able⟩
      · have before := earlier q e
        rw [← Bool.not_eq_true, playBefore_iff] at base ⊢
        rw [playBefore_iff] at before
        omega
      · rcases List.mem_cons.1 mem with rfl | mem
        · exact base
        · exact first k mem able'

theorem ableB_iff (p : Play) : ableB s org sh p = true ↔ p.org = org ∧ p.shape = sh ∧ p.state ≠ .running ∧
    (p.state = .due ∨ p.fire.toNat ≤ s.cad.ct.toNat) ∧ p.step.toNat ≤ s.cap.committed.toNat + 1 := by
  simp only [ableB, gated, Bool.and_eq_true, Bool.or_eq_true, Bool.not_eq_true', beq_iff_eq, bne_iff_ne, decide_eq_true_eq, decide_eq_false_iff_not, not_lt,
    and_assoc, ne_eq]

theorem nextPlay_first {p : Play} (next : nextPlay s org sh = some p) :
    (p ∈ s.plays ∧ ableB s org sh p = true) ∧ ∀ q ∈ s.plays, ableB s org sh q = true → playBefore q p = false := by
  rw [nextPlay_eq] at next
  obtain ⟨found, -, first⟩ := pickPlay_first s.plays next
  exact ⟨found.resolve_left nofun, first⟩

end

/-! ### A play that runs -/

/-- A play at its start: sequencers at their first moves and empty queues. -/
def freshPlay (p : Play) (s : State) : Play :=
  { p with
    state := .running, seqs := (tilesOf p.org p.shape).zipIdx.map fun (t, k) => { tile := t, list := (tileEntry s p.image k).1, count := (tileEntry s p.image k).2.1 }
    queues := (tilesOf p.org p.shape).flatMap fun t => newQueues (t == p.org) t, fail := none, faulted := none, cut := none, dests := [], reads := []
    waits := [], outer := [] }

theorem playRun_caches (p : Play) (s : State) : OnlyChanges [.caches] (setPlay (freshPlay p s) s) (playRun p s) := by
  have run : playRun p s = (freshPlay p s).seqs.foldl (fun s q => cacheDrop q.tile (p.image + q.list * 128) (32 * q.count) s) (setPlay (freshPlay p s) s) := rfl
  rw [run]
  exact OnlyChanges.foldl (fun u q => cacheDrop_frame _ _ _ u) _ _

theorem getPlay_playRun {p q : Play} {s : State} (held : getPlay s p.order = some q) : getPlay (playRun p s) p.order = some (freshPlay p s) :=
  (getPlay_of_plays (playRun_caches p s .plays (by decide)) _).trans (getPlay_setPlay (q := freshPlay p s) held)

theorem freshPlay_seqs {p : Play} {s : State} : ∀ q ∈ (freshPlay p s).seqs, q.next = 0 ∧ q.stopped = false ∧ q.ended = false := by
  intro q mem
  obtain ⟨x, -, rfl⟩ := List.mem_map.1 mem
  exact ⟨rfl, rfl, rfl⟩

theorem freshPlay_queues {p : Play} {s : State} : ∀ z ∈ (freshPlay p s).queues, z.moves = [] := by
  intro z mem
  obtain ⟨t, -, mem⟩ := List.mem_flatMap.1 mem
  obtain ⟨c, -, rfl⟩ := List.mem_map.1 mem
  rfl

/-! ### PLAY_START -/

section
variable {org sh : Nat} {p : Play} {s : State} (next : nextPlay s org sh = some p)
include next

theorem exec_playStart_of_early (early : p.state ≠ .due) : exec (.playStart org sh) s = .next s := by
  change execPlayStart org sh s = _
  rw [execPlayStart, next]
  exact if_pos (bne_iff_ne.2 early)

variable (due : p.state = .due)
include due

theorem exec_playStart_of_noPart (gone : findPart s org sh = none) : exec (.playStart org sh) s = .next (endUnrun p (missingStatus s p) s) := by
  change execPlayStart org sh s = _
  rw [execPlayStart, next]
  refine (if_neg (by rw [due]; decide)).trans ?_
  rw [gone]

/-- What a partition's play that is due waits for. -/
def startWaits (s : State) (org sh : Nat) (p : Play) (q : Partition) : Bool :=
  q.busy || (runningOn s org sh).isSome || revokeWaits s org sh || !settled s || decide ((routerCt s org).toNat < p.fire.toNat) ||
    rangeWaits s p.image (imageBytes p)

/-- An image that stands on a unit boundary and cannot be read back. -/
def startBad (s : State) (p : Play) : Bool := p.image % 128 == 0 && imageBad s p

variable {q : Partition} (stands : findPart s org sh = some q)
include stands

theorem exec_playStart_of_waits (waits : startWaits s org sh p q = true) : exec (.playStart org sh) s = .next s := by
  change execPlayStart org sh s = _
  rw [execPlayStart, next]
  refine (if_neg (by rw [due]; decide)).trans ?_
  rw [stands]
  exact if_pos waits

variable (free : startWaits s org sh p q = false)
include free

theorem exec_playStart_of_lent (lent : isLender s org sh = true) : exec (.playStart org sh) s = .next (endUnrun p Status.partLent s) := by
  change execPlayStart org sh s = _
  rw [execPlayStart, next]
  refine (if_neg (by rw [due]; decide)).trans ?_
  rw [stands]
  exact (if_neg (ne_true_of_eq_false free)).trans (if_pos lent)

variable (own : isLender s org sh = false)
include own

theorem exec_playStart_of_closed (closed : startClosed s org = true) : exec (.playStart org sh) s = .next (endUnrun p Status.clockStopped s) := by
  change execPlayStart org sh s = _
  rw [execPlayStart, next]
  refine (if_neg (by rw [due]; decide)).trans ?_
  rw [stands]
  exact (if_neg (ne_true_of_eq_false free)).trans ((if_neg (ne_true_of_eq_false own)).trans (if_pos closed))

variable (clocked : startClosed s org = false)
include clocked

theorem exec_playStart_of_bad (bad : startBad s p = true) : exec (.playStart org sh) s =
    .next (endFailed { p with faulted := some 1 } (granuleFault p.image p.origin p.id p.step (retiredRead p (imageGone s p) s))) := by
  change execPlayStart org sh s = _
  rw [execPlayStart, next]
  refine (if_neg (by rw [due]; decide)).trans ?_
  rw [stands]
  exact (if_neg (ne_true_of_eq_false free)).trans ((if_neg (ne_true_of_eq_false own)).trans ((if_neg (ne_true_of_eq_false clocked)).trans (if_pos bad)))

variable (reads : startBad s p = false)
include reads

theorem exec_playStart_of_image {st : BitVec 16} (fails : imageCheck s p = some st) : exec (.playStart org sh) s = .next (endUnrun p st s) := by
  change execPlayStart org sh s = _
  rw [execPlayStart, next]
  refine (if_neg (by rw [due]; decide)).trans ?_
  rw [stands]
  refine (if_neg (ne_true_of_eq_false free)).trans ((if_neg (ne_true_of_eq_false own)).trans ((if_neg (ne_true_of_eq_false clocked)).trans
    ((if_neg (ne_true_of_eq_false reads)).trans ?_)))
  rw [fails]

/-- A play that starts, with the seed, the bank and its knots latched. -/
def latchedPlay (p : Play) (s : State) (org sh : Nat) : Play :=
  { p with seed := s.host.seed, bank := s.cap.cur, knots := if p.rerun then partKnots s org sh else [] }

theorem exec_playStart_of_good (good : imageCheck s p = none) : exec (.playStart org sh) s = .next (playRun (latchedPlay p s org sh) s) := by
  change execPlayStart org sh s = _
  rw [execPlayStart, next]
  refine (if_neg (by rw [due]; decide)).trans ?_
  rw [stands]
  refine (if_neg (ne_true_of_eq_false free)).trans ((if_neg (ne_true_of_eq_false own)).trans ((if_neg (ne_true_of_eq_false clocked)).trans
    ((if_neg (ne_true_of_eq_false reads)).trans ?_)))
  rw [good]
  rfl

end

theorem playsStart : Claim.PlaysStart := by
  refine ⟨fun org sh s none_ => ?_, ?_, ?_⟩
  · change execPlayStart org sh s = _
    rw [execPlayStart, none_]
  · intro org sh p s next able
    obtain ⟨⟨mem, can⟩, first⟩ := nextPlay_first next
    exact ⟨mem, (ableB_iff p).1 can, fun q memq canq => first q memq ((ableB_iff q).2 canq), exec_playStart_of_early next⟩
  · intro org sh p s next due
    refine ⟨exec_playStart_of_noPart next due, ?_⟩
    intro q stands waits bad
    refine ⟨exec_playStart_of_waits next due stands, fun free lent => exec_playStart_of_lent next due stands free lent,
      fun free own closed => exec_playStart_of_closed next due stands free own closed,
      fun free own clocked isBad => exec_playStart_of_bad next due stands free own clocked isBad,
      fun st free own clocked good fails => exec_playStart_of_image next due stands free own clocked good fails,
      fun free own clocked good passes held => ?_⟩
    obtain ⟨org', sh', -⟩ := (ableB_iff p).1 (nextPlay_first next).1.2
    have seqs : (freshPlay (latchedPlay p s org sh) s).seqs = (tilesOf org sh).zipIdx.map fun (x, k) =>
        { tile := x, list := (tileEntry s p.image k).1, count := (tileEntry s p.image k).2.1 } := by
      rw [← org', ← sh']
      rfl
    exact ⟨_, _, exec_playStart_of_good next due stands free own clocked good passes, getPlay_playRun (p := latchedPlay p s org sh) held, rfl, rfl, rfl, rfl, rfl,
      rfl, rfl, seqs, freshPlay_queues, (playRun_frame _ s).mono (by decide)⟩

/-! ### What the end of a play leaves -/

section
variable (p : Play) (s : State)

theorem endRun_ramp : ∀ x ∈ (endRun p s).rampQueue, x.2 ≠ (p.org, p.shape) := by
  have queue : (endRun p s).rampQueue = s.rampQueue.filter fun x => x.2 != (p.org, p.shape) := by
    unfold endRun
    extract_lets u
    split
    · rfl
    · rfl
  rw [queue]
  exact fun x mem => bne_iff_ne.1 (List.mem_filter.1 mem).2

theorem endRun_part {q : Partition} (stands : findPart s p.org p.shape = some q) :
    findPart (endRun p s) p.org p.shape = some { q with runOpen := false, rampWait := false } := by
  unfold endRun
  extract_lets u
  have standsU : findPart u p.org p.shape = some q := stands
  rw [standsU]
  have run := findPart_setPart (q := { q with runOpen := false, rampWait := false }) standsU ⟨rfl, rfl⟩
  exact run

theorem slotOverrun_of_before (before : s.cad.ct.toNat < p.deadline.toNat) : slotOverrun p s = s := if_neg (by omega)

theorem slotOverrun_of_past (past : p.deadline.toNat ≤ s.cad.ct.toNat) : slotOverrun p s =
    postFull Ev.slotOverrun p.origin 0xFFFFFFFF p.id p.step (det [(2, p.org), (1, p.shape), (8, p.deadline.toNat)]) s := if_pos past

/-- The play is gone, its deadline judged and its run ended. -/
def leftPlay : State := endRun p (slotOverrun p (dropPlay p.order s))

theorem leftPlay_frame : OnlyChanges [.plays, .host, .parts, .ramp, .store, .xing] s (leftPlay p s) :=
  (((dropPlay_frame p.order s).mono (by decide)).step (slotOverrun_frame p _) (by decide)).step (endRun_frame p _) (by decide)

theorem getPlay_leftPlay : getPlay (leftPlay p s) p.order = none :=
  getPlay_none_of_plays (getPlay_none_of_plays (getPlay_dropPlay p.order s) (slotOverrun_frame p _ .plays (by decide))) (endRun_frame p _ .plays (by decide))

end

/-! ### Free values -/

/-- A byte away from a written range reads as before, the module's places being those of an earlier state. -/
theorem readByte_writeBytes_of_apart {l : List Part} {s u : State} {a b : Nat} {x : List Byte} (frame : OnlyChanges l s u) (regions : Part.regions ∉ l)
    (apart : ∀ i < x.length, memKey s b ≠ memKey s (a + i)) : readByte (writeBytes a x u) b = readByte u b :=
  readByte_writeBytes_ne x a u fun i inside => by
    rw [memKey_of_frame frame regions, memKey_of_frame frame regions]
    exact apart i inside

/-- Free values over one unit that a play wrote. -/
def freeDestUnit (a : Nat) (t : Option Nat) (s : State) (k : Nat) : State :=
  if isRetired s (a + 128 * k) then s
  else
    let x := drawBytes 128 s
    let u := writeBytes (a + 128 * k) x.1 x.2
    t.elim u fun tile => cacheUpdate tile ((a + 128 * k) / 128) x.1 u

theorem freeDestUnit_frame (a : Nat) (t : Option Nat) (s : State) (k : Nat) : OnlyChanges [.caches, .freeCtr, .mem] s (freeDestUnit a t s k) := by
  unfold freeDestUnit
  extract_lets x u
  have drawn : OnlyChanges [.freeCtr] s x.2 := drawBytes_frame 128 s
  have wrote : OnlyChanges [.caches, .freeCtr, .mem] s u := (drawn.mono (by decide)).step (writeBytes_frame _ _ _) (by decide)
  refine OnlyChanges.ite (.refl _ _) ?_
  cases t with
  | none => exact wrote
  | some tile => exact wrote.step (cacheUpdate_frame _ _ _ _) (by decide)

theorem freeDest_of_near {d : Nat × Nat × Nat × Option Nat} {s : State} (space : d.1 = 0) (near : d.2.1 < nearEnd) :
    freeDest d s = (List.range (cdiv d.2.2.1 128)).foldl (freeDestUnit d.2.1 d.2.2.2) s := by
  obtain ⟨sp, a, n, t⟩ := d
  exact (if_pos space).trans (if_pos near)

theorem freeDest_of_store {d : Nat × Nat × Nat × Option Nat} {s : State} (space : d.1 = 0) (store : ¬d.2.1 < nearEnd) :
    freeDest d s = freeBytes d.2.1 d.2.2.1 s := by
  obtain ⟨sp, a, n, t⟩ := d
  exact (if_pos space).trans (if_neg store)

theorem freeDest_of_host {d : Nat × Nat × Nat × Option Nat} {s : State} (space : d.1 ≠ 0) : freeDest d s = freeHost (d.1 - 1) d.2.1 d.2.2.1 s := by
  obtain ⟨sp, a, n, t⟩ := d
  exact if_neg space

theorem cdiv_covers (n : Nat) : n ≤ cdiv n 128 * 128 := by
  unfold cdiv
  omega

theorem freeUnits_apart {s : State} {a b n : Nat} (t : Option Nat) (apart : ∀ i < n * 128, memKey s b ≠ memKey s (a + i)) :
    ∀ {l : List Nat} {u : State}, (∀ k ∈ l, k < n) → OnlyChanges [.caches, .freeCtr, .mem] s u → readByte (l.foldl (freeDestUnit a t) u) b = readByte u b
  | [], _, _, _ => rfl
  | k :: l, u, below, frame => by
    refine (freeUnits_apart t apart (fun j mem => below j (.tail _ mem)) (frame.step (freeDestUnit_frame a t u k) (by decide))).trans ?_
    unfold freeDestUnit
    extract_lets x v
    have drawn : OnlyChanges [.freeCtr] u x.2 := drawBytes_frame 128 u
    have wrote : readByte v b = readByte u b := by
      refine (readByte_writeBytes_of_apart (frame.step drawn (by decide)) (by decide) fun i inside => ?_).trans
        (readByte_of_frame drawn (by decide) (by decide) b)
      have length : x.1.length = 128 := by simp [x, drawBytes]
      have := below k (.head _)
      rw [Nat.add_assoc]
      exact apart _ (by omega)
    split
    · rfl
    · cases t with
      | none => exact wrote
      | some tile => exact (readByte_of_frame (cacheUpdate_frame _ _ _ _) (by decide) (by decide) b).trans wrote

theorem freeDest_apart {s u : State} {d : Nat × Nat × Nat × Option Nat} {b : Nat} (frame : OnlyChanges [.caches, .host, .freeCtr, .mem] s u)
    (apart : d.1 = 0 → ∀ i < cdiv d.2.2.1 128 * 128, memKey s b ≠ memKey s (d.2.1 + i)) : readByte (freeDest d u) b = readByte u b := by
  by_cases space : d.1 = 0
  · by_cases near : d.2.1 < nearEnd
    · rw [freeDest_of_near space near]
      refine freeUnits_apart (s := u) (n := cdiv d.2.2.1 128) _ (fun i inside => ?_) (fun k mem => List.mem_range.1 mem) (.refl _ _)
      rw [memKey_of_frame frame (by decide), memKey_of_frame frame (by decide)]
      exact apart space i inside
    · rw [freeDest_of_store space near, freeBytes]
      have drawn : OnlyChanges [.freeCtr] u { u with freeCtr := u.freeCtr + d.2.2.1 } := only_freeCtr (.refl _ _) _ (by decide)
      refine (readByte_writeBytes_of_apart (frame.step drawn (by decide)) (by decide) fun i inside => apart space i ?_).trans
        (readByte_of_frame drawn (by decide) (by decide) b)
      have := cdiv_covers d.2.2.1
      rw [List.length_map, List.length_range] at inside
      omega
  · rw [freeDest_of_host space]
    exact readByte_of_frame (freeHost_frame _ _ _ u) (by decide) (by decide) b

theorem freeDests_apart {s : State} {b : Nat} : ∀ {l : List (Nat × Nat × Nat × Option Nat)} {u : State}, OnlyChanges [.caches, .host, .freeCtr, .mem] s u →
    (∀ d ∈ l, d.1 = 0 → ∀ i < cdiv d.2.2.1 128 * 128, memKey s b ≠ memKey s (d.2.1 + i)) → readByte (l.foldl (fun s d => freeDest d s) u) b = readByte u b
  | [], _, _, _ => rfl
  | d :: l, _, frame, apart =>
    (freeDests_apart (frame.step (freeDest_frame d _) (by decide)) fun e mem => apart e (.tail _ mem)).trans (freeDest_apart frame (apart d (.head _)))

theorem freeDests_keeps (p : Play) (s : State) :
    KeepsBytes (p.dests.filterMap fun d => if d.1 = 0 then some (d.2.1, cdiv d.2.2.1 128 * 128) else none) s (freeDests p s) :=
  fun _ apart => freeDests_apart (.refl _ _) fun d mem space i inside =>
    apart (d.2.1, cdiv d.2.2.1 128 * 128) (List.mem_filterMap.2 ⟨d, mem, if_pos space⟩) i inside

/-- The places of a failure in DETAIL. -/
theorem failDetail_items {f : Failure} (mtag : f.mtag < 2 ^ 15) (idx : f.idx < 2 ^ 24) (tile : f.tile < 2 ^ 11) :
    (failDetail f).toNat % 2 ^ 15 = f.mtag ∧ (failDetail f).toNat / 2 ^ 15 % 2 ^ 24 = f.idx ∧ (failDetail f).toNat / 2 ^ 39 = f.tile := by
  unfold failDetail
  rw [Nat.mod_eq_of_lt mtag, Nat.mod_eq_of_lt idx, Nat.mod_eq_of_lt tile, BitVec.toNat_ofNat]
  omega

theorem playEndEffects : Claim.PlayEndEffects := by
  intro p s left
  refine ⟨getPlay_leftPlay p s, fun before => ?_, fun past => ?_, endRun_ramp p _, fun q stands => endRun_part p _ ?_, leftPlay_frame p s, freeDests_keeps p s,
    (freeDests_frame p s).mono (by decide), fun f mtag idx tile => failDetail_items mtag idx tile⟩
  · have none_ : slotOverrun p (dropPlay p.order s) = dropPlay p.order s := slotOverrun_of_before p _ before
    refine (endRun_frame p _ .host (by decide)).trans ?_
    rw [none_]
    rfl
  · have over_ : slotOverrun p (dropPlay p.order s) = _ := slotOverrun_of_past p _ past
    have raises := raises_postFull Ev.slotOverrun p.origin 0xFFFFFFFF p.id p.step (det [(2, p.org), (1, p.shape), (8, p.deadline.toNat)]) (dropPlay p.order s)
    have raised : Raises Ev.slotOverrun s (slotOverrun p (dropPlay p.order s)) := by rw [over_]; exact raises
    exact raised.of_same rfl rfl id (congrArg HostIf.events (endRun_frame p _ .host (by decide)))
  · have parts : (slotOverrun p (dropPlay p.order s)).parts = s.parts := slotOverrun_frame p _ .parts (by decide)
    unfold findPart at stands ⊢
    rwa [parts]

end Sys2Proof.Machine
end

section
/-! SUPPORT. Plays end, are aborted and are run again (R210 to R212, R336, R464). -/

namespace Sys2Proof.Machine

/-! ### PLAY_END -/

theorem runLoads_of_none {s : State} (none_ : s.cap.loads = []) : runLoads s = s := by
  rw [runLoads, none_]
  rfl

section
variable {org sh : Nat} {p : Play} {s : State} (runs : runningOn s org sh = some p)
include runs

theorem playEnd_of_open (live : p.live = true) (going : (p.seqs.all fun q => q.ended) = false) : playEnd org sh s = s := by
  rw [playEnd, runs]
  exact (if_pos live).trans (if_neg (ne_true_of_eq_false going))

/-- The state in which an ended play's cut is made. -/
def donePlay (p : Play) (s : State) : State := if (decide (0 < p.reruns) && p.noRerun) || debugTouches s p then freeDests p (leftPlay p s) else leftPlay p s

theorem playEnd_of_ended (live : p.live = true) (ended : (p.seqs.all fun q => q.ended) = true) : playEnd org sh s =
    playReply p p.okStatus ((playCut p (donePlay p s)).1.setWidth 64) (playCut p (donePlay p s)).2 := by
  rw [playEnd, runs]
  refine (if_pos live).trans ((if_pos ended).trans ?_)
  rfl

theorem playEnd_of_waits (stopped : p.live = false) (waits : quiet s p = false ∨ p.reruns_ = true) : playEnd org sh s = s := by
  rw [playEnd, runs]
  refine (if_neg (ne_true_of_eq_false stopped)).trans (if_neg ?_)
  rw [Bool.and_eq_true, Bool.not_eq_true']
  rintro ⟨still, none_⟩
  rcases waits with loud | again
  · rw [still] at loud; exact nomatch loud
  · rw [again] at none_; exact nomatch none_

theorem playEnd_of_stopped (stopped : p.live = false) (still : quiet s p = true) (last : p.reruns_ = false) : playEnd org sh s = endFailed p s := by
  rw [playEnd, runs]
  refine (if_neg (ne_true_of_eq_false stopped)).trans (if_pos ?_)
  rw [still, last]
  rfl

end

theorem donePlay_eq (p : Play) (s : State) :
    donePlay p s = if (0 < p.reruns ∧ p.noRerun = true) ∨ debugTouches s p = true then freeDests p (leftPlay p s) else leftPlay p s := by
  refine if_congr ?_ rfl rfl
  rw [Bool.or_eq_true, Bool.and_eq_true, decide_eq_true_eq]

theorem playCut_none {p : Play} (none_ : p.cut = none ∨ p.late = true) (s : State) : playCut p s = (0, s) := by
  have cut : (if p.late then none else p.cut) = none := by
    split
    · rfl
    · next early => exact none_.resolve_right early
  rw [playCut, cut]

section
variable {p : Play} {o h n : Nat} (early : p.late = false) (cut : p.cut = some (o, h, n)) (s : State)
include early cut

theorem playCut_of_shape (out : ∃ x ∈ tilesOf p.org p.shape, inRegionTile o h x = false) : playCut p s = (Status.partShape, s) := by
  have named : (if p.late then none else p.cut) = some (o, h, n) := by rw [early]; exact cut
  rw [playCut, named]
  obtain ⟨x, mem, no⟩ := out
  refine if_pos ?_
  rw [Bool.not_eq_true', ← Bool.not_eq_true, List.all_eq_true]
  exact fun all => by rw [all x mem] at no; exact nomatch no

variable (inside : ∀ x ∈ tilesOf p.org p.shape, inRegionTile o h x = true)
include inside

theorem playCut_of_refused {st : BitVec 16} (refused : partCheck s o h n (some (p.org, p.shape)) = some st) : playCut p s = (st, s) := by
  have named : (if p.late then none else p.cut) = some (o, h, n) := by rw [early]; exact cut
  rw [playCut, named]
  refine (if_neg (by rw [List.all_eq_true.2 inside]; decide)).trans ?_
  rw [refused]

theorem playCut_of_made (made : partCheck s o h n (some (p.org, p.shape)) = none) : playCut p s = (0, partMake o h n (partPend o h none s)) := by
  have named : (if p.late then none else p.cut) = some (o, h, n) := by rw [early]; exact cut
  rw [playCut, named]
  refine (if_neg (by rw [List.all_eq_true.2 inside]; decide)).trans ?_
  rw [made]

end

/-! ### A play that did not reach its END -/

section
variable {p : Play} {s : State}

theorem freed_frame (p : Play) (s : State) : OnlyChanges [.plays, .host, .parts, .ramp, .store, .xing, .caches, .freeCtr, .mem] s (freeDests p (leftPlay p s)) :=
  ((leftPlay_frame p s).mono (by decide)).step (freeDests_frame p _) (by decide)

theorem endFailed_of_withheld (withheld : p.withheld = true) : endFailed p s = freeDests p (leftPlay p s) := if_pos withheld

variable (shows : p.withheld = false)
include shows

theorem endFailed_of_fail {f : Failure} (fail : p.fail = some f) : endFailed p s = playReply p f.status (failDetail f) (freeDests p (leftPlay p s)) := by
  unfold endFailed
  extract_lets u
  refine (if_neg (ne_true_of_eq_false shows)).trans ?_
  rw [fail]
  rfl

variable (fault : p.fail = none)
include fault

/-- The play's destinations are free, and its step is marked FAULTED. -/
def faultedPlay (p : Play) (s : State) : State :=
  let u := freeDests p (leftPlay p s)
  { u with cap := { u.cap with stepFaulted := true } }

theorem endFailed_of_fault : endFailed p s = if s.cap.committed.toNat < p.step.toNat then
      record (p.faulted.getD 0) 5 1 p.origin 0xFFFFFFFF 0xFFFFFFFF p.id p.step [] (faultedPlay p s)
    else playReply p (faultStatus (p.faulted.getD 0))
      (failDetail { status := 0, mtag := p.faultAt.1, idx := p.faultAt.2.1, tile := p.faultAt.2.2 }) (freeDests p (leftPlay p s)) := by
  have cap : (freeDests p (leftPlay p s)).cap = s.cap := freed_frame p s .cap (by decide)
  unfold endFailed
  extract_lets u
  refine (if_neg (ne_true_of_eq_false shows)).trans ?_
  rw [fault]
  refine if_congr ?_ rfl rfl
  rw [← cap]
  rfl

end

/-- Free values touch no reply. -/
theorem replies_hostWrite (port : Nat) (l : List Byte) : ∀ (a : Nat) (s : State), (hostWrite port a l s).host.replies = s.host.replies := by
  induction l with
  | nil => exact fun _ _ => rfl
  | cons b r ih =>
    intro a s
    rw [hostWrite]
    refine (ih _ _).trans ?_
    split <;> rfl

theorem replies_freeDest (d : Nat × Nat × Nat × Option Nat) (s : State) : (freeDest d s).host.replies = s.host.replies := by
  by_cases space : d.1 = 0
  · by_cases near : d.2.1 < nearEnd
    · rw [freeDest_of_near space near]
      have frame : OnlyChanges [.caches, .freeCtr, .mem] s ((List.range (cdiv d.2.2.1 128)).foldl (freeDestUnit d.2.1 d.2.2.2) s) :=
        OnlyChanges.foldl (fun u k => freeDestUnit_frame _ _ u k) _ _
      exact congrArg HostIf.replies (frame .host (by decide))
    · rw [freeDest_of_store space near]
      exact congrArg HostIf.replies (freeBytes_frame _ _ s .host (by decide))
  · rw [freeDest_of_host space]
    exact replies_hostWrite _ _ _ _

theorem replies_freeDests (p : Play) (s : State) : (freeDests p s).host.replies = s.host.replies :=
  foldl_keeps (P := fun u => u.host.replies = s.host.replies) (fun u d same => (replies_freeDest d u).trans same) p.dests rfl

/-- A faulted play of an open step ends without a reply, its step FAULTED. -/
theorem faulted_ends {p : Play} {s : State} (cls : Nat) :
    let t := record cls 5 1 p.origin 0xFFFFFFFF 0xFFFFFFFF p.id p.step [] (faultedPlay p s)
    t.cap.stepFaulted = true ∧ getPlay t p.order = none ∧ t.host.replies = s.host.replies ∧ Records cls s t ∧ t.cap.loads = s.cap.loads := by
  intro t
  have recorded : OnlyChanges [.host, .store, .xing] (faultedPlay p s) t := (record_frame cls 5 1 p.origin _ _ p.id p.step [] _).mono (by decide)
  have freed := freeDests_frame p (leftPlay p s)
  have capU : (freeDests p (leftPlay p s)).cap = s.cap := freed_frame p s .cap (by decide)
  have plays : t.plays = (leftPlay p s).plays := (recorded .plays (by decide)).trans (freed .plays (by decide))
  have ended := endRun_frame p (slotOverrun p (dropPlay p.order s))
  have replies : (leftPlay p s).host.replies = s.host.replies := by
    refine (congrArg HostIf.replies (ended .host (by decide))).trans ?_
    unfold slotOverrun
    split
    · exact replies_of_butLog (postFull_same ..)
    · rfl
  refine ⟨?_, getPlay_none_of_plays (getPlay_leftPlay p s) plays, ?_, ?_, ?_⟩
  · rw [show t.cap = (faultedPlay p s).cap from recorded .cap (by decide)]
    rfl
  · exact (replies_of_butLog (record_same ..)).trans ((replies_freeDests p (leftPlay p s)).trans replies)
  · have store : (faultedPlay p s).store = (slotOverrun p (dropPlay p.order s)).store := (freed .store (by decide)).trans (ended .store (by decide))
    have xing : (faultedPlay p s).xing = (slotOverrun p (dropPlay p.order s)).xing := (freed .xing (by decide)).trans (ended .xing (by decide))
    have since : Records cls (slotOverrun p (dropPlay p.order s)) t :=
      records_record (congrArg Store.ledger store) (fun calm => by rw [Calm, xing]; exact calm) cls 5 1 p.origin _ _ p.id p.step []
    by_cases past : p.deadline.toNat ≤ s.cad.ct.toNat
    · rw [slotOverrun_of_past p (dropPlay p.order s) past] at since
      exact since.of_postFull rfl id
    · rw [slotOverrun_of_before p (dropPlay p.order s) (Nat.lt_of_not_le past)] at since
      exact since
  · rw [show t.cap = (faultedPlay p s).cap from recorded .cap (by decide)]
    exact (show (faultedPlay p s).cap.loads = (freeDests p (leftPlay p s)).cap.loads from rfl).trans (congrArg Cap.loads capU)

theorem exec_playEnd {org sh : Nat} {s u : State} (ends : playEnd org sh s = u) : exec (.playEnd org sh) s = .next (runLoads u) := by
  rw [← ends]
  rfl

theorem playsEnd : Claim.PlaysEnd := by
  intro org sh s none_
  have idle : runLoads s = s := runLoads_of_none none_
  refine ⟨fun away => ?_, ?_⟩
  · have ends : playEnd org sh s = s := by rw [playEnd, away]
    rw [exec_playEnd ends, idle]
  intro p runs left done ends
  have doneEq : done = donePlay p s := (donePlay_eq p s).symm
  clear_value done
  subst doneEq
  refine ⟨fun live going => ?_, fun live ended => ⟨?_, fun no => playCut_none no _, fun o h n early cut => ⟨playCut_of_shape early cut _, fun inside =>
    ⟨fun st refused => playCut_of_refused early cut _ inside refused, playCut_of_made early cut _ inside⟩⟩⟩, fun stopped waits => ?_,
    fun stopped still last => ⟨fun withheld => ?_, fun f shows fail => ?_, fun shows fault => ⟨fun old => ?_, fun new => ?_⟩⟩⟩
  · rw [exec_playEnd (playEnd_of_open runs live going), idle]
  · exact exec_playEnd (playEnd_of_ended runs live ended)
  · rw [exec_playEnd (playEnd_of_waits runs stopped waits), idle]
  · exact exec_playEnd ((playEnd_of_stopped runs stopped still last).trans (endFailed_of_withheld withheld))
  · exact exec_playEnd ((playEnd_of_stopped runs stopped still last).trans (endFailed_of_fail shows fail))
  · exact exec_playEnd ((playEnd_of_stopped runs stopped still last).trans ((endFailed_of_fault shows fault).trans (if_neg (Nat.not_lt.2 old))))
  · obtain ⟨marked, gone, replies, records, loads⟩ := faulted_ends (p := p) (s := s) (p.faulted.getD 0)
    refine ⟨_, (exec_playEnd ((playEnd_of_stopped runs stopped still last).trans ((endFailed_of_fault shows fault).trans (if_pos new)))).trans
      (congrArg _ (runLoads_of_none (loads.trans none_))), marked, gone, replies, records⟩

/-! ### PLAY_ABORT -/

section
variable {p : Packet} {s : State}

theorem exec_playAbort_of_admitted (h : Admitted 0x0302 p s) : exec (.playAbort p) s = .next (opPlayAbort p (arrived s)) := by
  rw [exec_of_admitted rfl h rfl (by decide) (by decide), runOp, h.2.1]
  rfl

/-- The plays that a PLAY_ABORT hits. -/
def abortHits (p : Packet) (s : State) : List Play :=
  s.plays.filter fun y => y.org == tgtOrg p.tgt && y.shape == tgtShape p.tgt && y.id.toNat == item p.param 0 4 && !y.allEnded

/-- One hit play is stopped. -/
def abortPlay (s : State) (y : Play) : State := if y.state = .running then abortRunning y s else endUnrun y Status.aborted s

theorem opPlayAbort_of_none (none_ : abortHits p s = []) : opPlayAbort p s = reply p Status.aborted 0 s := if_pos (List.isEmpty_iff.2 none_)

theorem opPlayAbort_of_some (some_ : abortHits p s ≠ []) : opPlayAbort p s =
    reply p (okStatus p) (BitVec.ofNat 64 (abortHits p s).length) ((abortHits p s).foldl abortPlay s) := by
  refine (if_neg (mt List.isEmpty_iff.1 some_)).trans ?_
  have same : (fun (s : State) (y : Play) => if y.state == .running then abortRunning y s else endUnrun y Status.aborted s) = abortPlay := by
    funext u y
    exact if_congr beq_iff_eq rfl rfl
  exact congrArg (fun f => reply p (okStatus p) (BitVec.ofNat 64 (abortHits p s).length) ((abortHits p s).foldl f s)) same

/-- An abort's failure. -/
def abortFailure : Failure := { status := Status.aborted, mtag := 0, idx := 0, tile := 0 }

/-- One play is hit, and stands afterwards as z: the reply counts it. -/
theorem playAbort_one (h : Admitted 0x0302 p s) {y z : Play} (hit : abortHits p s = [y]) (runs : y.state = .running) (held : getPlay s y.order = some y)
    (order : z.order = y.order) (stops : abortRunning y (arrived s) = setPlay z (arrived s)) :
    ∃ t, exec (.playAbort p) s = .next t ∧ getPlay t y.order = some z ∧ Answered p 0 1 s t ∧ OnlyChanges [.arrivals, .plays, .host] s t := by
  have plain : stepOpcode p.opc = false := by rw [h.2.1]; rfl
  have hitU : abortHits p (arrived s) = [y] := hit
  have run : opPlayAbort p (arrived s) = reply p 0 1 (setPlay z (arrived s)) := by
    rw [opPlayAbort_of_some (by rw [hitU]; exact List.cons_ne_nil _ _), hitU, h.ok, ← stops]
    exact congrArg (reply p 0 1) (if_pos runs)
  have set : OnlyChanges [.arrivals, .plays] s (setPlay z (arrived s)) := ((arrived_frame s).mono (by decide)).step (setPlay_frame z _) (by decide)
  have answered := reply_frame_of_plain plain 0 1 (setPlay z (arrived s))
  refine ⟨_, (exec_playAbort_of_admitted h).trans (congrArg _ run), ?_, answered_reply plain (set .cad (by decide)) (set .host (by decide)) 0 1,
    (set.mono (by decide)).step answered (by decide)⟩
  have heldU : getPlay (arrived s) z.order = some y := by rw [order]; exact held
  rw [← order]
  exact (getPlay_of_plays (answered .plays (by decide)) _).trans (getPlay_setPlay heldU)

end

theorem stopPlay_stopped {y : Play} : ∀ q ∈ (stopPlay y).seqs, q.stopped = true := by
  intro q mem
  obtain ⟨k, -, rfl⟩ := List.mem_map.1 mem
  rfl

/-! ### PLAY_RERUN -/

section
variable {org sh : Nat} {p : Play} {s : State} (runs : runningOn s org sh = some p)
include runs

theorem exec_playRerun_of_held (held : p.reruns_ = false ∨ quiet s p = false) : exec (.playRerun org sh) s = .next s := by
  change execPlayRerun org sh s = _
  rw [execPlayRerun, runs]
  refine if_neg ?_
  rw [Bool.and_eq_true]
  rintro ⟨again, still⟩
  rcases held with no | loud
  · rw [no] at again; exact nomatch again
  · rw [loud] at still; exact nomatch still

/-- What a play that is run again leaves before it starts. -/
def unwoundPlay (p : Play) (s : State) : State :=
  record (p.faulted.getD 0) 4 0 p.origin 0xFFFFFFFF 0xFFFFFFFF p.id p.step [] (restoreKnots p (endRun p (freeDests p s)))

theorem exec_playRerun_of_due (again : p.reruns_ = true) (still : quiet s p = true) :
    exec (.playRerun org sh) s = .next (playRun { p with reruns := p.reruns + 1 } (unwoundPlay p s)) := by
  change execPlayRerun org sh s = _
  rw [execPlayRerun, runs]
  exact if_pos (by rw [again, still]; rfl)

end

section
variable (p : Play) (s : State)

theorem unwoundPlay_knots : (unwoundPlay p s).knots = (restoreKnots p s).knots := by
  have same : (endRun p (freeDests p s)).knots = s.knots := (endRun_frame p _ .knots (by decide)).trans (freeDests_frame p s .knots (by decide))
  refine (record_frame (p.faulted.getD 0) 4 0 p.origin _ _ p.id p.step [] _ .knots (by decide)).trans ?_
  unfold restoreKnots
  rw [same]

theorem unwoundPlay_frame : OnlyChanges [.parts, .ramp, .knots, .store, .host, .xing] (freeDests p s) (unwoundPlay p s) :=
  (((endRun_frame p (freeDests p s)).mono (by decide)).step (restoreKnots_frame p _) (by decide)).step
    (record_frame (p.faulted.getD 0) 4 0 p.origin _ _ p.id p.step [] _) (by decide)

theorem unwoundPlay_plays : (unwoundPlay p s).plays = s.plays :=
  (unwoundPlay_frame p s .plays (by decide)).trans (freeDests_frame p s .plays (by decide))

theorem unwoundPlay_records : Records (p.faulted.getD 0) s (unwoundPlay p s) := by
  have frame : OnlyChanges [.parts, .ramp, .knots, .caches, .host, .freeCtr, .mem] s (restoreKnots p (endRun p (freeDests p s))) :=
    (((freeDests_frame p s).mono (by decide)).step (endRun_frame p _) (by decide)).step (restoreKnots_frame p _) (by decide)
  have store : (restoreKnots p (endRun p (freeDests p s))).store = s.store := frame .store (by decide)
  have xing : (restoreKnots p (endRun p (freeDests p s))).xing = s.xing := frame .xing (by decide)
  exact records_record (congrArg Store.ledger store) (fun calm => by rw [Calm, xing]; exact calm) _ 4 0 p.origin _ _ p.id p.step []

end

/-- Bytes read alike in states that differ neither in memory nor in the region table. -/
theorem readBytes_of_frame {l : List Part} {s t : State} (frame : OnlyChanges l s t) (mem : Part.mem ∉ l) (regions : Part.regions ∉ l) (a n : Nat) :
    readBytes t a n = readBytes s a n := by
  induction n generalizing a with
  | zero => rfl
  | succ n ih => rw [readBytes, readBytes, ih, readByte_of_frame frame mem regions]

theorem tileEntry_of_frame {l : List Part} {s t : State} (frame : OnlyChanges l s t) (mem : Part.mem ∉ l) (regions : Part.regions ∉ l) (image k : Nat) :
    tileEntry t image k = tileEntry s image k := by
  simp only [tileEntry, readN, readBytes_of_frame frame mem regions]

theorem playsAbortAndRerun : Claim.PlaysAbortAndRerun := by
  refine ⟨?_, fun org sh s away => ?_, ?_⟩
  · intro p s h hit
    have plain : stepOpcode p.opc = false := by rw [h.2.1]; rfl
    refine ⟨fun none_ => ?_, fun some_ => ?_, fun y one runs live held => ?_, fun y one runs faulted fail shows held => ?_⟩
    · refine ⟨_, (exec_playAbort_of_admitted h).trans (congrArg _ (opPlayAbort_of_none none_)), answered_reply plain rfl rfl _ _,
        ((arrived_frame s).mono (by decide)).step (reply_frame_of_plain plain _ _ _) (by decide)⟩
    · rw [exec_playAbort_of_admitted h, opPlayAbort_of_some (s := arrived s) some_, h.ok]
      rfl
    · have stops : abortRunning y (arrived s) = setPlay { stopPlay y with fail := some abortFailure } (arrived s) := by
        have sound : (y.faulted.isSome && y.fail.isNone && !y.withheld) = false := by
          simp only [Play.live, Bool.and_eq_true, Option.isNone_iff_eq_none] at live
          rw [live.1.2]
          rfl
        exact (if_neg (ne_true_of_eq_false sound)).trans (failPlay_of_live (s := arrived s) held live abortFailure)
      obtain ⟨t, run, found, answered, frame⟩ := playAbort_one (z := { stopPlay y with fail := some abortFailure }) h one runs held rfl stops
      exact ⟨t, _, run, found, rfl, stopPlay_stopped, answered, frame⟩
    · have stops : abortRunning y (arrived s) = setPlay { stopPlay y with fail := some abortFailure, faulted := none } (arrived s) :=
        if_pos (by rw [faulted, fail, shows]; rfl)
      obtain ⟨t, run, found, answered, frame⟩ := playAbort_one (z := { stopPlay y with fail := some abortFailure, faulted := none }) h one runs held rfl stops
      exact ⟨t, _, run, found, rfl, rfl, rfl, answered, frame⟩
  · change execPlayRerun org sh s = _
    rw [execPlayRerun, away]
  · intro org sh p s runs
    refine ⟨exec_playRerun_of_held runs, fun again still held none_ => ?_, fun again still held => ?_⟩
    · have heldU : getPlay (unwoundPlay p s) p.order = some p := (getPlay_of_plays (unwoundPlay_plays p s) _).trans held
      have kept : freeDests p s = s := by unfold freeDests; rw [none_]; rfl
      have frame := unwoundPlay_frame p s
      rw [kept] at frame
      have seqs : (freshPlay { p with reruns := p.reruns + 1 } (unwoundPlay p s)).seqs = (tilesOf p.org p.shape).zipIdx.map fun (x, k) =>
          { tile := x, list := (tileEntry s p.image k).1, count := (tileEntry s p.image k).2.1 } := by
        refine List.map_congr_left fun x _ => ?_
        dsimp only
        rw [tileEntry_of_frame frame (by decide) (by decide)]
      have restarted := playRun_frame { p with reruns := p.reruns + 1 } (unwoundPlay p s)
      refine ⟨_, _, exec_playRerun_of_due runs again still, getPlay_playRun (p := { p with reruns := p.reruns + 1 }) heldU, rfl, rfl, rfl, seqs, ?_,
        (restarted .knots (by decide)).trans (unwoundPlay_knots p s), (frame.mono (by decide)).step restarted (by decide)⟩
      obtain ⟨r, l, ledger, rest⟩ := unwoundPlay_records p s
      exact ⟨r, l, (congrArg Store.ledger (restarted .store (by decide))).trans ledger, rest⟩
    · have heldU : getPlay (unwoundPlay p s) p.order = some p := (getPlay_of_plays (unwoundPlay_plays p s) _).trans held
      exact ⟨_, _, exec_playRerun_of_due runs again still, getPlay_playRun (p := { p with reruns := p.reruns + 1 }) heldU, rfl, rfl, rfl, freshPlay_seqs⟩

/-- Settles O34. -/
theorem playsStartAndEnd : Obligations.PlaysStartAndEnd :=
  ⟨playReplies, playsAreFired, playsStart, playsEnd, playEndEffects, playsAbortAndRerun⟩

end Sys2Proof.Machine
end

section
/-! SUPPORT. What a move's start leaves of its queue, and a queue with nothing to start (R177 to R180). -/

namespace Sys2Proof.Machine

/-! ### What every queue of a name holds -/

/-- The moves of queue (tile, code) of the plays of a number satisfy P. -/
def QueueHolds (order tile code : Nat) (P : List QMove → Prop) (s : State) : Prop :=
  ∀ p x, getPlay s order = some p → getQueue p tile code = some x → P x.moves

/-- At most one move. -/
def Single (l : List QMove) : Prop := l.length ≤ 1

/-- Moves that have started and, in the ARR queue, are issued. -/
def Under (code : Nat) (l : List QMove) : Prop := ∀ m ∈ l, m.started = true ∧ (code = 1 → m.issued = true)

theorem find?_replacePlay_some {l : List Play} {q p : Play} (h : (l.map fun x => if x.order = q.order then q else x).find? (fun x => x.order == q.order) = some p) :
    p = q := by
  induction l with
  | nil => exact nomatch h
  | cons x l ih =>
    rw [List.map_cons] at h
    by_cases same : x.order = q.order
    · rw [if_pos same, List.find?_cons_of_pos (by simp)] at h
      exact (Option.some.inj h).symm
    · rw [if_neg same, List.find?_cons_of_neg (by simpa using same)] at h
      exact ih h

/-- What is found of a play that was set is that play. -/
theorem getPlay_setPlay_some {s : State} {p q : Play} (h : getPlay (setPlay q s) q.order = some p) : p = q := find?_replacePlay_some h

section
variable {order tile code : Nat} {P Q : List QMove → Prop} {s t : State}

theorem QueueHolds.of_plays (holds : QueueHolds order tile code P s) (same : t.plays = s.plays) : QueueHolds order tile code P t := by
  intro p x found
  rw [getPlay_of_plays same] at found
  exact holds p x found

theorem queueHolds_setPlay {q : Play} (named : q.order = order) (holds : ∀ x, getQueue q tile code = some x → P x.moves) :
    QueueHolds order tile code P (setPlay q s) := by
  intro p x found
  rw [← named] at found
  rw [getPlay_setPlay_some found]
  exact holds x

theorem getQueue_onQueue_some {p : Play} {f : TileQueue → TileQueue} (keeps : ∀ q, (f q).tile = q.tile ∧ (f q).code = q.code) {y : TileQueue}
    (found : getQueue (p.onQueue tile code f) tile code = some y) : ∃ x, getQueue p tile code = some x ∧ y = f x := by
  cases old : getQueue p tile code with
  | some x => exact ⟨x, rfl, Option.some.inj (found.symm.trans (getQueue_onQueue old keeps))⟩
  | none =>
    exfalso
    obtain ⟨x, mem, e⟩ := List.mem_map.1 (List.mem_of_find?_eq_some found)
    have named := List.find?_some found
    have away := List.find?_eq_none.1 old x mem
    rw [← e] at named
    split at named
    · rw [(keeps x).1, (keeps x).2] at named
      exact away named
    · exact away named

theorem QueueHolds.modQueue (holds : QueueHolds order tile code P s) {f : TileQueue → TileQueue} (keeps : ∀ q, (f q).tile = q.tile ∧ (f q).code = q.code)
    (makes : ∀ x, P x.moves → Q (f x).moves) : QueueHolds order tile code Q (modQueue order tile code f s) := by
  unfold Machine.modQueue
  split
  · next none_ => exact fun p _ found => by rw [none_] at found; exact nomatch found
  · next p found =>
    refine queueHolds_setPlay (q := p.onQueue tile code f) (order_of_getPlay (p := p) found) fun y at_ => ?_
    obtain ⟨x, before, rfl⟩ := getQueue_onQueue_some keeps at_
    exact makes x (holds p x found before)

/-- A play set again with its queues. -/
theorem QueueHolds.setSame (holds : QueueHolds order tile code P s) {p q : Play} (found : getPlay s order = some p) (named : q.order = p.order)
    (queues : q.queues = p.queues) : QueueHolds order tile code P (setPlay q s) := by
  refine queueHolds_setPlay (named.trans (order_of_getPlay found)) fun x at_ => holds p x found ?_
  unfold getQueue at at_ ⊢
  rwa [← queues]

theorem QueueHolds.addDests (holds : QueueHolds order tile code P s) (l : List (Nat × Nat × Nat × Option Nat)) :
    QueueHolds order tile code P (addDests order l s) := by
  unfold Machine.addDests
  split
  · exact holds
  · next p found => exact holds.setSame found rfl rfl

theorem QueueHolds.noteStart (holds : QueueHolds order tile code P s) (m : QMove) (s₀ : State) (tile' : Nat) :
    QueueHolds order tile code P (noteStart order tile' m s₀ s) := by
  unfold Machine.noteStart
  split
  · exact holds
  · next p found => exact holds.setSame found rfl rfl

/-- A spill's note of what has been overwritten. -/
def notedQueue (s : State) (q : TileQueue) : TileQueue := if q.code = 7 then { q with moves := q.moves.map (noteHits s) } else q

def notedPlay (s : State) (p : Play) : Play := { p with queues := p.queues.map (notedQueue s) }

theorem getPlay_noteAll (s : State) (order : Nat) : getPlay (noteAll s) order = (getPlay s order).map (notedPlay s) := by
  change (s.plays.map (notedPlay s)).find? _ = _
  rw [List.find?_map]
  rfl

theorem notedQueue_name (s : State) (q : TileQueue) : (notedQueue s q).tile = q.tile ∧ (notedQueue s q).code = q.code := by
  unfold notedQueue
  split <;> exact ⟨rfl, rfl⟩

theorem getQueue_notedPlay (s : State) (p : Play) (tile code : Nat) : getQueue (notedPlay s p) tile code = (getQueue p tile code).map (notedQueue s) := by
  unfold getQueue notedPlay
  rw [List.find?_map]
  refine congrArg (Option.map _) (congrArg (fun f => List.find? f p.queues) ?_)
  funext q
  rw [Function.comp, (notedQueue_name s q).1, (notedQueue_name s q).2]

theorem noteHits_marks (s : State) (m : QMove) : (noteHits s m).started = m.started ∧ (noteHits s m).issued = m.issued := by
  unfold noteHits
  split <;> exact ⟨rfl, rfl⟩

theorem QueueHolds.noteAll (holds : QueueHolds order tile code P s) (noted : ∀ l, P l → P (l.map (noteHits s))) : QueueHolds order tile code P (noteAll s) := by
  intro p x found at_
  rw [getPlay_noteAll] at found
  obtain ⟨p', before, rfl⟩ := Option.map_eq_some_iff.1 found
  rw [getQueue_notedPlay] at at_
  obtain ⟨x', old, rfl⟩ := Option.map_eq_some_iff.1 at_
  replace old := holds p' x' before old
  unfold notedQueue
  split
  · exact noted _ old
  · exact old

end

theorem single_noted (s : State) (l : List QMove) (single : Single l) : Single (l.map (noteHits s)) := by
  unfold Single
  rwa [List.length_map]

theorem under_noted (code : Nat) (s : State) (l : List QMove) (under : Under code l) : Under code (l.map (noteHits s)) := by
  intro m mem
  obtain ⟨m', there, rfl⟩ := List.mem_map.1 mem
  rw [(noteHits_marks s m').1, (noteHits_marks s m').2]
  exact under m' there

/-! ### What a start makes of a move and of its queue -/

/-- A start keeps a queue single, and the move that runs is a started one, issued as it was. -/
def StartKeeps (order tile code : Nat) (m : QMove) : Start → Prop
  | .run m' s => (m'.started = true ∧ m'.issued = m.issued) ∧ QueueHolds order tile code Single s
  | .done s => QueueHolds order tile code Single s
  | _ => True

/-- The move that a start leaves running has started, issued as it was. -/
def RunsStarted (m : QMove) : Start → Prop
  | .run m' _ => m'.started = true ∧ m'.issued = m.issued
  | _ => True

section
variable {order tile code : Nat} {m : QMove}

theorem startKeeps_of {r : Start} {s : State} (runs : RunsStarted m r) (holds : QueueHolds order tile code Single s) {l : List Part}
    (frame : startAll (OnlyChanges l s) r) (plays : Part.plays ∉ l) : StartKeeps order tile code m r := by
  cases r with
  | run m' t => exact ⟨runs, holds.of_plays (frame .plays plays)⟩
  | done t => exact holds.of_plays (frame .plays plays)
  | _ => trivial

theorem admitRows_marks (p : Play) : ∀ (k : Nat) (m : QMove) (s : State), (admitRows p k m s).1.started = m.started ∧ (admitRows p k m s).1.issued = m.issued
  | 0, _, _ => ⟨rfl, rfl⟩
  | k + 1, m, s => by
    unfold admitRows
    split
    · exact ⟨rfl, rfl⟩
    · split
      · exact ⟨rfl, rfl⟩
      · exact admitRows_marks p k _ _

theorem streamGo_marks (p : Play) (m : QMove) (s : State) : (streamGo p m s).1.started = m.started ∧ (streamGo p m s).1.issued = m.issued := by
  have taken := admitRows_marks p (wf m.word 64 25) m s
  unfold streamGo
  generalize admitRows p (wf m.word 64 25) m s = x at taken ⊢
  dsimp only
  split
  · exact taken
  · split
    · exact taken
    · exact taken

theorem runs_mapState {r : Start} (runs : RunsStarted m r) (f : State → State) : RunsStarted m (r.mapState f) := by
  cases r <;> exact runs

theorem runs_ite {c : Prop} [Decidable c] {a b : Start} (yes : RunsStarted m a) (no : RunsStarted m b) : RunsStarted m (if c then a else b) := by
  split
  · exact yes
  · exact no

theorem startLoadw_runs (p : Play) (s : State) : RunsStarted m (startLoadw p m s) := by
  unfold startLoadw
  extract_lets w
  split
  · trivial
  · extract_lets
    split
    · trivial
    · split
      · trivial
      · split
        · trivial
        · exact ⟨rfl, rfl⟩

theorem startSwapw_runs (p : Play) (s : State) : RunsStarted m (startSwapw p m s) := by
  unfold startSwapw
  split
  · trivial
  · split
    · trivial
    · exact ⟨rfl, rfl⟩

theorem startStream_runs (p : Play) (s : State) : RunsStarted m (startStream p m s) := by
  unfold startStream
  split
  · trivial
  · split
    · trivial
    · split
      · trivial
      · split
        · trivial
        · split
          · trivial
          · split
            · trivial
            · exact streamGo_marks p { m with started := true, next := 0, blk := [] } _

theorem startElem_runs (p : Play) (tile : Nat) (s : State) : RunsStarted m (startElem p tile m s) := by
  unfold startElem
  extract_lets
  refine runs_ite trivial (runs_ite trivial ?_)
  split
  · trivial
  · exact runs_ite trivial (runs_ite ⟨rfl, rfl⟩ (runs_ite ⟨rfl, rfl⟩ ⟨rfl, rfl⟩))

theorem startGroup_runs (p : Play) (tile op : Nat) (s : State) : RunsStarted m (startGroup p tile op m s) := by
  unfold startGroup
  extract_lets
  refine runs_ite (runs_ite trivial (runs_ite trivial (runs_ite trivial ⟨rfl, rfl⟩))) (runs_ite trivial (runs_ite trivial ?_))
  split
  · trivial
  · exact runs_ite trivial (runs_ite trivial ⟨rfl, rfl⟩)

theorem startTopk_runs (p : Play) (tile : Nat) (s : State) : RunsStarted m (startTopk p tile m s) := by
  unfold startTopk
  extract_lets
  refine runs_ite trivial (runs_ite trivial ?_)
  split
  · trivial
  · exact runs_ite trivial ⟨rfl, rfl⟩

theorem startGather_runs (p : Play) (tile op : Nat) (s : State) : RunsStarted m (startGather p tile op m s) := by
  unfold startGather
  extract_lets
  refine runs_ite trivial (runs_ite trivial ?_)
  split
  · trivial
  · exact runs_ite trivial (runs_ite ⟨rfl, rfl⟩ trivial)

theorem startPack_runs (p : Play) (tile : Nat) (s : State) : RunsStarted m (startPack p tile m s) := by
  unfold startPack
  extract_lets
  exact runs_ite trivial (runs_ite trivial (runs_ite trivial (runs_ite trivial ⟨rfl, rfl⟩)))

theorem runMove_runs (p : Play) (tile : Nat) (s : State) : RunsStarted m (runMove p tile m s) := by
  unfold runMove
  refine runs_mapState ?_ _
  split
  · trivial
  · split
    · trivial
    · split
      · exact ⟨rfl, rfl⟩
      · trivial
      · trivial

theorem faultMove_runs (p : Play) (tile : Nat) (s : State) {lose : Nat → State → Start} (loses : ∀ k u, RunsStarted m (lose k u)) :
    RunsStarted m (faultMove p tile m s lose) := by
  unfold faultMove
  split
  · dsimp only
    split
    · exact runMove_runs p tile _
    · exact loses _ _
  · dsimp only
    split
    · exact runMove_runs p tile _
    · split
      · exact loses _ _
      · trivial
  · exact runMove_runs p tile s

theorem startMove_runs (p : Play) (tile : Nat) (s : State) : RunsStarted m (startMove p tile m s) := by
  unfold startMove
  dsimp only
  split
  · trivial
  · exact faultMove_runs (m := { m with place := s.hints }) p tile s fun _ _ => ⟨rfl, rfl⟩

theorem startInval_runs (tile : Nat) (s : State) : RunsStarted m (startInval tile m s) := by
  unfold startInval
  dsimp only
  split
  · trivial
  · exact ⟨rfl, rfl⟩

theorem startDispatch_runs (p : Play) (tile : Nat) (s : State) : RunsStarted m (startDispatch p tile m s) := by
  unfold startDispatch
  extract_lets
  split
  · trivial
  · split
    · trivial
    · extract_lets
      split
      · trivial
      · split <;> exact ⟨rfl, rfl⟩

theorem startTie_runs (p : Play) (tile code : Nat) (s : State) : RunsStarted m (startTie p tile code m s) := by
  unfold startTie
  extract_lets
  exact runs_ite trivial (runs_ite trivial (runs_ite trivial (runs_ite ⟨rfl, rfl⟩ ⟨rfl, rfl⟩)))

theorem startWait_runs (tile : Nat) (s : State) : RunsStarted m (startWait tile m s) := by
  unfold startWait
  split
  · trivial
  · split
    · trivial
    · exact ⟨rfl, rfl⟩

theorem startKset_runs (tile : Nat) (s : State) : RunsStarted m (startKset tile m s) := by
  unfold startKset
  split <;> trivial

end

end Sys2Proof.Machine
end

section
/-! SUPPORT. A move that comes to the head of an empty queue starts at once (R177 to R180). -/

namespace Sys2Proof.Machine

/-! ### Every start keeps its queue -/

/-- A COMBINE's rows are written away from the plays; then spills take note. -/
theorem combineWrite_noted (p : Play) (tile : Nat) (m : QMove) (x : Exchange) (s : State) :
    ∃ y u, OnlyChanges [.watch, .host, .xing, .store, .mem, .near] s u ∧ combineWrite p tile m x s = noteAll (setX y u) := by
  unfold combineWrite
  extract_lets w fmt g rows base terms out sr die conv s₁ s₂ nsq s₃ empty
  have h₁ : OnlyChanges [.watch, .host, .xing, .store, .mem, .near] s s₁ :=
    OnlyChanges.fold (.refl _ _) fun u y h => OnlyChanges.fold h fun v z k =>
      ((k.step (sqWriteLine_frame _ _ _ _ v) (by decide)).step (countConv_frame _ _ _ _) (by decide))
  have h₂ : OnlyChanges [.watch, .host, .xing, .store, .mem, .near] s s₂ :=
    OnlyChanges.ite h₁ (OnlyChanges.fold h₁ fun u _ h => h.step (padLines_frame _ _ _ u) (by decide))
  have h₃ : OnlyChanges [.watch, .host, .xing, .store, .mem, .near] s s₃ :=
    OnlyChanges.fold h₂ fun u _ h => h.step (writeN_frame _ _ _ u) (by decide)
  exact ⟨_, s₃, h₃, rfl⟩

section
variable {order tile code : Nat} {m : QMove} {s : State}

theorem startIframe_keeps {p : Play} (named : p.order = order) (holds : QueueHolds order tile code Single s) :
    StartKeeps order tile code m (startIframe p tile code m s) := by
  unfold startIframe
  split
  · trivial
  · rw [named]
    exact holds.modQueue (fun _ => ⟨rfl, rfl⟩) fun _ single => single

theorem startCombine_keeps (p : Play) (at_ : Nat) (holds : QueueHolds order tile code Single s) : StartKeeps order tile code m (startCombine p at_ m s) := by
  unfold startCombine
  extract_lets w m'
  split
  · trivial
  · split
    · trivial
    · split
      · trivial
      · extract_lets x s'
        have sent : OnlyChanges [.ports, .host, .xing, .mesh, .store, .exchanges] s s' := by
          refine OnlyChanges.fold ((setX_frame x s).mono (by decide)) fun u t h => ?_
          split
          · exact h.step (sendItem_frame _ _ _ _ _ u) (by decide)
          · exact h
        split
        · obtain ⟨y, u, wrote, e⟩ := combineWrite_noted p at_ m' x s'
          refine ⟨⟨rfl, rfl⟩, ?_⟩
          have plays : (setX y u).plays = s.plays := (wrote .plays (by decide)).trans (sent .plays (by decide))
          rw [e]
          exact (holds.of_plays plays).noteAll fun l => single_noted _ l
        · exact ⟨⟨rfl, rfl⟩, holds.of_plays (sent .plays (by decide))⟩

theorem startMoveOf_keeps {p : Play} (named : p.order = order) (holds : QueueHolds order tile code Single s) :
    StartKeeps order tile code m (startMoveOf p tile code m s) := by
  unfold startMoveOf
  split
  · trivial
  · split
    · exact startKeeps_of (startTie_runs p tile code s) holds (startTie_frame p tile code m s) (by decide)
    · exact startKeeps_of (startWait_runs tile s) holds (startWait_frame tile m s) (by decide)
    · exact startKeeps_of (startKset_runs tile s) holds (startKset_frame tile m s) (by decide)
    · exact startIframe_keeps named holds
    · exact startKeeps_of (startLoadw_runs p s) holds (startLoadw_frame p m s) (by decide)
    · exact startKeeps_of (startSwapw_runs p s) holds (startSwapw_frame p m s) (by decide)
    · exact startKeeps_of (startStream_runs p s) holds (startStream_frame p m s) (by decide)
    · exact startKeeps_of (startElem_runs p tile s) holds (startElem_frame p tile m s) (by decide)
    · exact startKeeps_of (startGroup_runs p tile _ s) holds (startGroup_frame p tile _ m s) (by decide)
    · exact startKeeps_of (startGroup_runs p tile _ s) holds (startGroup_frame p tile _ m s) (by decide)
    · exact startKeeps_of (startGroup_runs p tile _ s) holds (startGroup_frame p tile _ m s) (by decide)
    · exact startKeeps_of (startTopk_runs p tile s) holds (startTopk_frame p tile m s) (by decide)
    · exact startKeeps_of (startGather_runs p tile _ s) holds (startGather_frame p tile _ m s) (by decide)
    · exact startKeeps_of (startGather_runs p tile _ s) holds (startGather_frame p tile _ m s) (by decide)
    · exact startKeeps_of (startGather_runs p tile _ s) holds (startGather_frame p tile _ m s) (by decide)
    · exact startKeeps_of (startPack_runs p tile s) holds (startPack_frame p tile m s) (by decide)
    · exact startKeeps_of (startGroup_runs p tile _ s) holds (startGroup_frame p tile _ m s) (by decide)
    · exact startKeeps_of (startMove_runs p tile s) holds (startMove_frame p tile m s) (by decide)
    · exact startKeeps_of (startInval_runs tile s) holds (startInval_frame tile m s) (by decide)
    · exact startKeeps_of (startDispatch_runs p tile s) holds (startDispatch_frame p tile m s) (by decide)
    · exact startCombine_keeps p tile holds
    · trivial

theorem laneStart_keeps (p : Play) (at_ : Nat) (s₀ : State) {r : Start} (keeps : StartKeeps order tile code m r) :
    StartKeeps order tile code m (laneStart p at_ m s₀ r) := by
  have logged (b : Bool) (t : State) (holds : QueueHolds order tile code Single t) :
      QueueHolds order tile code Single (laneResidue (unitOf 0 (physTile s₀ at_)) (BitVec.ofNat 32 at_) p.origin p.id p.step b t) :=
    holds.of_plays (laneResidue_frame _ _ _ _ _ _ t .plays (by decide))
  unfold laneStart
  dsimp only
  split
  · exact ⟨keeps.1, logged _ _ keeps.2⟩
  · exact logged _ _ keeps
  · trivial
  · trivial
  · exact keeps

theorem parityStart_keeps (p : Play) {f : State → Start} (holds : QueueHolds order tile code Single s)
    (keeps : ∀ t, QueueHolds order tile code Single t → StartKeeps order tile code m (f t)) : StartKeeps order tile code m (parityStart p m f s) := by
  have now := keeps s holds
  have meet (pl : ParityPlace) (w : DataWord) : StartKeeps order tile code m
      (if (parityMeets pl w p.origin p.id p.step s).1 then .fault 1 (parityMeets pl w p.origin p.id p.step s).2
       else f (parityMeets pl w p.origin p.id p.step s).2) := by
    split
    · trivial
    · exact keeps _ (holds.of_plays (parityMeets_frame pl w p.origin p.id p.step s .plays (by decide)))
  unfold parityStart
  dsimp only
  split
  · next e =>
    rw [e] at now
    split
    · exact now
    · exact meet _ _
  · next e =>
    rw [e] at now
    split
    · exact now
    · exact meet _ _
  · exact now

theorem startAny_keeps {p : Play} (named : p.order = order) (holds : QueueHolds order tile code Single s) :
    StartKeeps order tile code m (startAny p tile code m s) :=
  parityStart_keeps p holds fun _ holds => laneStart_keeps p tile _ (startMoveOf_keeps named holds)

/-! ### A queue with nothing to start -/

theorem pumpHead_of_under (under : QueueHolds order tile code (Under code) s) (n : Nat) : pumpHead order tile code n s = s := by
  cases n with
  | zero => rfl
  | succ n =>
    unfold pumpHead
    split
    · rfl
    · next p found =>
      split
      · rfl
      · next q at_ =>
        split
        · rfl
        · next m r moves =>
          have started := (under p q found at_ m (by rw [moves]; exact .head _)).1
          exact if_pos (by rw [started]; rfl)

theorem nextArr_of_under {before l : List QMove} {n : Nat} (under : Under 1 l) : nextArr n before l = none := by
  induction l generalizing before n with
  | nil => rfl
  | cons m r ih =>
    obtain ⟨started, issued⟩ := under m (.head _)
    rw [nextArr, if_neg (by rw [issued rfl]; decide), if_neg (by simp [started])]
    exact ih fun m' mem => under m' (.tail _ mem)

theorem pumpArr_of_under (under : QueueHolds order tile 1 (Under 1) s) (n : Nat) : pumpArr order tile n s = s := by
  cases n with
  | zero => rfl
  | succ n =>
    unfold pumpArr
    split
    · rfl
    · next p found =>
      split
      · rfl
      · next q at_ =>
        rw [nextArr_of_under (under p q found at_)]

end

/-! ### What is carried out of a start leaves nothing to start -/

theorem Single.tail {a : QMove} {r : List QMove} (single : Single (a :: r)) : r = [] := by
  unfold Single at single
  rw [List.length_cons] at single
  exact List.eq_nil_of_length_eq_zero (by omega)

theorem single_set {l : List QMove} {m : QMove} (single : Single l) : ∀ k ∈ l.set 0 m, k = m := by
  intro k mem
  cases l with
  | nil => exact nomatch mem
  | cons a r =>
    rw [single.tail, List.set_cons_zero, List.mem_singleton] at mem
    exact mem

theorem single_eraseIdx {l : List QMove} (single : Single l) : l.eraseIdx 0 = [] := by
  cases l with
  | nil => rfl
  | cons a r => rw [single.tail, List.eraseIdx_cons_zero]

section
variable {p : Play} {tile code : Nat} {m : QMove} {r : Start} {s : State}

theorem applied_under (keeps : StartKeeps p.order tile code m r) (issued : code = 1 → m.issued = true) (go : (applyStart p tile code 0 m r s).1 = true) :
    QueueHolds p.order tile code (Under code) (applyStart p tile code 0 m r s).2 := by
  cases r with
  | hold => exact nomatch go
  | fail st t => exact nomatch go
  | fault k t => exact nomatch go
  | run m' t =>
    obtain ⟨⟨started, same⟩, holds⟩ := keeps
    have put : QueueHolds p.order tile code (Under code) (putMove p.order tile code 0 m' t) := by
      refine holds.modQueue (Q := Under code) (fun _ => ⟨rfl, rfl⟩) fun x single k mem => ?_
      rw [single_set single k mem, same]
      exact ⟨started, issued⟩
    exact ((put.addDests _).noteStart _ _ _).noteAll fun l => under_noted code _ l
  | done t =>
    have dropped : QueueHolds p.order tile code (Under code) (dropMove p.order tile code 0 t) := by
      refine QueueHolds.modQueue (P := Single) keeps (fun _ => ⟨rfl, rfl⟩) fun x single k mem => ?_
      rw [single_eraseIdx single] at mem
      exact nomatch mem
    exact ((dropped.noteStart _ _ _).of_plays (makeTie_frame p tile m.word _ .plays (by decide))).noteAll fun l => under_noted code _ l

/-- A claim's outcome of a start is what the queue carries out. -/
theorem startedAs_of {c : Instr} {s₀ : State} (runs : exec c s₀ = .next (applyStart p tile code 0 m r s).2) : StartedAs c p tile code m s₀ s r := by
  cases r <;> exact runs

end

end Sys2Proof.Machine
end

section
/-! SUPPORT. Rows of moves dispatch into queues; a move at the head of an empty queue starts, on ARR once it is issued (R177 to R180, R197). -/

namespace Sys2Proof.Machine

/-! ### A row puts its move into its queue -/

section
variable {c : Instr} {p : Play} {q : Sequencer} {m : QMove} {tile code : Nat} {s s₁ : State}

/-- A move for an engine, well placed in its list, comes to its queue, where that has a place. -/
theorem Fetches.dispatches (h : Fetches c p q m tile code s s₁) (engine : opOf m.word ∉ [0x00, 0x01, 0x02, 0x06]) :
    exec c s = .next (if queueDepth code ≤ ((getQueue p tile code).elim [] TileQueue.moves).length then s
      else pump p.order tile code (queued p tile code m s₁)) := by
  have placed : ¬((opOf m.word = 0x01) ≠ (q.next + 1 = q.count)) := not_not.mpr (propext h.last)
  have onLead : ((decide (code = 1) || leadOnly (opOf m.word)) && !(tile == p.org)) = false := by
    by_cases lead : tile = p.org
    · simp [lead]
    · simpa [lead] using mt h.lead lead
  have now : (decide (opOf m.word = 0x00) || decide (opOf m.word = 0x01) || decide (opOf m.word = 0x02) || decide (opOf m.word = 0x06)) = false := by
    simpa [and_assoc] using engine
  rw [exec_moveRow h.row]
  simp only [dispatchRow, h.seq, h.word, opLegal_of_moveRow h.row, placed, h.queue, onLead, now, ← h.fresh, Bool.not_true,
    Bool.false_eq_true, if_false, ne_eq, not_true_eq_false]
  rfl

theorem seqHalted_of {t : State} (dbg : t.dbgUnit = s.dbgUnit) (rel : t.rel = s.rel) (k : Nat) : seqHalted t k = seqHalted s k := by
  unfold seqHalted physTile physCol
  rw [dbg, rel]

/-- The play that stands once a move is queued. -/
theorem queued_play (own : getPlay s₁ p.order = some p) (m : QMove) :
    queued p tile code m s₁ = setPlay ((p.pastMove tile).onQueue tile code fun x => { x with moves := x.moves ++ [m] }) (setPlay (p.pastMove tile) s₁) := by
  have past : getPlay (setPlay (p.pastMove tile) s₁) (p.pastMove tile).order = some (p.pastMove tile) := getPlay_setPlay own
  unfold queued
  rw [stepSeq_eq own]
  exact modQueue_eq past tile code _

end

/-! ### At the head of an empty queue -/

section
variable {c : Instr} {p : Play} {tile code : Nat} {m : QMove} {s s₂ : State}

/-- A move at the head of its queue: the queue holds it alone, not started nor issued, and its row starts what can start there. -/
structure HeadOf (c : Instr) (p : Play) (tile code : Nat) (m : QMove) (s s₂ : State) (x : TileQueue) (m₀ : QMove) : Prop where
  queue : getQueue p tile code = some x
  only : x.moves = [m₀]
  framed : m = { m₀ with frame := x.frame }
  started : m₀.started = false
  issued : m₀.issued = false
  play : getPlay s₂ p.order = some p
  live : p.live = true
  runs : exec c s = .next (pump p.order tile code s₂)
  free : seqHalted s₂ tile = false

theorem AtHead.head (h : AtHead c p tile code m s s₂) : ∃ x m₀, HeadOf c p tile code m s s₂ x m₀ := by
  obtain ⟨p₀, q, m₀, s₁, x, fetches, order, rfl, queue, only, framed⟩ := h.fetched
  have fresh := fetches.fresh
  have engine : opOf m₀.word ∉ [0x00, 0x01, 0x02, 0x06] := by
    have := h.engine
    rwa [framed] at this
  have own := fetches.own
  have play := h.play
  have stands : p = (p₀.pastMove tile).onQueue tile code fun x => { x with moves := x.moves ++ [m₀] } := by
    rw [queued_play own, ← order] at play
    exact getPlay_setPlay_some (q := (p₀.pastMove tile).onQueue tile code fun x => { x with moves := x.moves ++ [m₀] }) play
  have empty : (getQueue p₀ tile code).elim [] TileQueue.moves = [] := by
    rw [stands] at queue
    obtain ⟨y, before, rfl⟩ := getQueue_onQueue_some (f := fun x => { x with moves := x.moves ++ [m₀] }) (fun _ => ⟨rfl, rfl⟩) queue
    have before : getQueue p₀ tile code = some y := before
    rw [before]
    exact List.append_left_eq_self.1 only
  have deep : ¬queueDepth code ≤ 0 := by
    unfold queueDepth
    split
    · decide
    · split <;> decide
  have run := fetches.dispatches engine
  rw [empty, if_neg (show ¬queueDepth code ≤ ([] : List QMove).length from deep), order] at run
  obtain ⟨-, dbg, rel⟩ := plays_of_fetched fetches.word
  have queuedFrame : OnlyChanges [.plays] s₁ (queued p₀ tile code m₀ s₁) := (stepSeq_frame _ _ s₁).step (modQueue_frame _ _ _ _ _) (by decide)
  refine ⟨x, m₀, queue, only, framed, by rw [fresh], by rw [fresh], play, h.live, run, ?_⟩
  rw [seqHalted_of ((queuedFrame .dbgUnit (by decide)).trans dbg) ((queuedFrame .rel (by decide)).trans rel)]
  exact (of_dispatcher fetches.seq).2.2

variable {x : TileQueue} {m₀ : QMove}

theorem HeadOf.single (h : HeadOf c p tile code m s s₂ x m₀) : QueueHolds p.order tile code Single s₂ := by
  intro p' x' found at_
  rw [h.play] at found
  cases found
  rw [h.queue] at at_
  cases at_
  rw [h.only]
  exact Nat.le_refl 1

/-- At the head of an engine queue a move starts. -/
theorem HeadOf.starts (h : HeadOf c p tile code m s s₂ x m₀) (engine : code ≠ 1) :
    exec c s = .next (applyStart p tile code 0 m (startAny p tile code m s₂) s₂).2 := by
  have idle : ¬(m₀.started || !p.live || (code == 0 && seqHalted s₂ tile)) = true := by
    rw [h.started, h.live, h.free, Bool.and_false]
    decide
  have under := applied_under (s := s₂) (startAny_keeps (m := m) rfl h.single) (fun arr => absurd arr engine)
  have step : pump p.order tile code s₂ = if (applyStart p tile code 0 m (startAny p tile code m s₂) s₂).1 = true then
      pumpHead p.order tile code 31 (applyStart p tile code 0 m (startAny p tile code m s₂) s₂).2
      else (applyStart p tile code 0 m (startAny p tile code m s₂) s₂).2 := by
    rw [pump, if_neg engine, pumpHead, h.play]
    dsimp only
    rw [h.queue]
    dsimp only
    rw [h.only]
    dsimp only
    rw [if_neg idle, ← h.framed]
  rw [h.runs, step]
  refine congrArg Host.Outcome.next ?_
  split
  · next go => exact pumpHead_of_under (under go) 31
  · rfl

/-- On the ARR queue nothing is fed by a move that has not started. -/
theorem HeadOf.resumes (h : HeadOf c p tile 1 m s s₂ x m₀) : pump p.order tile 1 s₂ = pumpArr p.order tile 64 s₂ := by
  have stands : resumeArr p.order tile s₂ = s₂ := by
    have quiet : feedingAt x = none := by
      rw [feedingAt, h.only]
      simp [h.started]
    rw [resumeArr, h.play]
    dsimp only
    rw [h.queue, Option.bind_some, quiet]
  rw [pump, if_pos rfl, stands]

/-- On the ARR queue a move that comes to the head is issued. -/
theorem HeadOf.issues (h : HeadOf c p tile 1 m s s₂ x m₀) : exec c s = .next (if (issueArr p tile 0 m₀ x s₂).1 = true then
    pumpArr p.order tile 63 (issueArr p tile 0 m₀ x s₂).2 else (issueArr p tile 0 m₀ x s₂).2) := by
  have next : nextArr 0 [] x.moves = some (0, m₀) := by
    rw [h.only, nextArr, if_pos (by rw [h.issued]; rfl)]
    rfl
  rw [h.runs, h.resumes, pumpArr, h.play]
  dsimp only
  rw [h.queue]
  dsimp only
  rw [next]
  dsimp only
  rw [if_neg (by rw [h.live]; decide), h.issued]
  rfl

end

end Sys2Proof.Machine
end

section
/-! SUPPORT. Rows of moves are checked, and their moves start (R171, R177 to R180, R197). -/

namespace Sys2Proof.Machine

/-! ### The ARR queue issues its moves in order -/

/-- A move as the ARR queue issues it. -/
def issuedMove (p : Play) (tile : Nat) (x : TileQueue) (k : QMove) : QMove := { k with issued := true, frame := x.frame, sxt := sxtOf p tile }

/-- The play with another move at the head of a queue. -/
def Play.putFirst (p : Play) (tile code : Nat) (k : QMove) : Play := p.onQueue tile code fun q => { q with moves := q.moves.set 0 k }

/-- The play whose sequencer of a tile holds no SXT. -/
def Play.clearSxt (p : Play) (tile : Nat) : Play := { p with seqs := p.seqs.map fun k => if k.tile = tile then { k with sxt := none } else k }

section
variable {c : Instr} {p : Play} {tile : Nat} {m : QMove} {s s₂ : State}

theorem putMove_first {code : Nat} (play : getPlay s₂ p.order = some p) (k : QMove) : putMove p.order tile code 0 k s₂ = setPlay (p.putFirst tile code k) s₂ :=
  modQueue_eq play tile code _

theorem setSxt_none (play : getPlay s₂ p.order = some p) : setSxt p.order tile none s₂ = setPlay (p.clearSxt tile) s₂ := by
  unfold setSxt
  rw [play]
  rfl

theorem sxtOf_clearSxt (q : Play) : sxtOf (q.clearSxt tile) tile = none := by
  unfold sxtOf Play.clearSxt
  dsimp only
  cases found : (q.seqs.map fun k => if k.tile = tile then { k with sxt := (none : Option MoveWord) } else k).find? fun k => k.tile == tile with
  | none => rfl
  | some k =>
    obtain ⟨k', -, e⟩ := List.mem_map.1 (List.mem_of_find?_eq_some found)
    have named := List.find?_some found
    rw [← e] at named ⊢
    split at named
    · next here => rw [if_pos here]; rfl
    · next away => exact absurd (by simpa using named) away

theorem putFirst_queue {code : Nat} {x : TileQueue} {m₀ : QMove} (queue : getQueue p tile code = some x) (only : x.moves = [m₀]) (k : QMove) :
    getQueue (p.putFirst tile code k) tile code = some { x with moves := [k] } := by
  have found := getQueue_onQueue (f := fun q => { q with moves := q.moves.set 0 k }) queue fun _ => ⟨rfl, rfl⟩
  rw [only] at found
  exact found

/-- What the ARR queue makes of a move other than SXT that may be issued. -/
theorem issueArr_of_move {x : TileQueue} {k : QMove} (noSxt : opOf k.word ≠ 0x13) (sxt : opOf k.word = 0x12 ∨ sxtOf p tile = none) :
    issueArr p tile 0 k x s₂ = (true, if opOf k.word = 0x12 then setSxt p.order tile none (putMove p.order tile 1 0 (issuedMove p tile x k) s₂)
      else putMove p.order tile 1 0 (issuedMove p tile x k) s₂) := by
  refine (if_neg noSxt).trans (if_neg ?_)
  rw [Bool.and_eq_true, decide_eq_true_eq]
  rintro ⟨other, some_⟩
  rw [sxt.resolve_left other] at some_
  exact nomatch some_

/-- A move that the ARR queue has issued: its play, its queue, and what its row then starts. -/
structure IssuedHead (c : Instr) (p : Play) (tile : Nat) (m : QMove) (s s₂ : State) (x : TileQueue) : Prop where
  queue : getQueue p tile 1 = some x
  only : x.moves = [m]
  framed : m.frame = x.frame
  started : m.started = false
  issued : m.issued = true
  plain : opOf m.word ≠ 0x12 → m.sxt = none
  taken : opOf m.word = 0x12 → sxtOf p tile = none
  live : p.live = true
  play : getPlay s₂ p.order = some p
  runs : exec c s = .next (pumpArr p.order tile 63 s₂)

theorem Issued.head (h : Issued c p tile m s s₂) : ∃ x, IssuedHead c p tile m s s₂ x := by
  obtain ⟨p₀, m₀, s₁, atHead, order, noSxt, sxt, rfl, play, after⟩ := h
  obtain ⟨x, k, head⟩ := atHead.head
  obtain ⟨queue, only, rfl, started, issued, play₀, live, -, free⟩ := id head
  have runs := head.issues
  have noSxt : opOf k.word ≠ 0x13 := noSxt
  have sxt : opOf k.word = 0x12 ∨ sxtOf p₀ tile = none := sxt
  rw [issueArr_of_move noSxt sxt, if_pos rfl, order] at runs
  change s₂ = if opOf k.word = 0x12 then setSxt p.order tile none (putMove p.order tile 1 0 (issuedMove p₀ tile x k) s₁)
    else putMove p.order tile 1 0 (issuedMove p₀ tile x k) s₁ at after
  change exec c s = .next (pumpArr p.order tile 63 (if opOf k.word = 0x12 then setSxt p.order tile none (putMove p.order tile 1 0 (issuedMove p₀ tile x k) s₁)
    else putMove p.order tile 1 0 (issuedMove p₀ tile x k) s₁)) at runs
  rw [← after] at runs
  have there := putFirst_queue queue only (issuedMove p₀ tile x k)
  have put := putMove_first (tile := tile) (code := 1) play₀ (issuedMove p₀ tile x k)
  rw [order] at put
  have heldPut : getPlay (setPlay (p₀.putFirst tile 1 (issuedMove p₀ tile x k)) s₁) (p₀.putFirst tile 1 (issuedMove p₀ tile x k)).order = some _ := getPlay_setPlay play₀
  refine ⟨{ x with moves := [issuedMove p₀ tile x k] }, ?_⟩
  by_cases stream : opOf k.word = 0x12
  · have clears := setSxt_none (tile := tile) heldPut
    have order' : (p₀.putFirst tile 1 (issuedMove p₀ tile x k)).order = p.order := order
    rw [order'] at clears
    rw [if_pos stream, put, clears] at after
    have same : p = (p₀.putFirst tile 1 (issuedMove p₀ tile x k)).clearSxt tile := by
      rw [after, ← order] at play
      exact getPlay_setPlay_some (q := (p₀.putFirst tile 1 (issuedMove p₀ tile x k)).clearSxt tile) play
    exact ⟨by rw [same]; exact there, rfl, rfl, started, rfl, fun other => absurd stream other, fun _ => by rw [same]; exact sxtOf_clearSxt _,
      by rw [same]; exact live, play, runs⟩
  · rw [if_neg stream, put] at after
    have same : p = p₀.putFirst tile 1 (issuedMove p₀ tile x k) := by
      rw [after, ← order] at play
      exact getPlay_setPlay_some (q := p₀.putFirst tile 1 (issuedMove p₀ tile x k)) play
    exact ⟨by rw [same]; exact there, rfl, rfl, started, rfl, fun _ => sxt.resolve_left stream, fun is => absurd is stream, by rw [same]; exact live, play, runs⟩

/-- An issued move starts. -/
theorem IssuedHead.starts {x : TileQueue} (h : IssuedHead c p tile m s s₂ x) :
    exec c s = .next (applyStart p tile 1 0 m (startAny p tile 1 m s₂) s₂).2 := by
  have single : QueueHolds p.order tile 1 Single s₂ := by
    intro p' x' found at_
    rw [h.play] at found
    cases found
    rw [h.queue] at at_
    cases at_
    rw [h.only]
    exact Nat.le_refl 1
  have ready : arrReady [] (opOf m.word) = true := by
    unfold arrReady
    split <;> rfl
  have next : nextArr 0 [] x.moves = some (0, m) := by
    rw [h.only, nextArr, if_neg (by rw [h.issued]; decide), if_pos (by rw [h.started, ready]; rfl)]
  have under := applied_under (s := s₂) (startAny_keeps (m := m) rfl single) fun _ => h.issued
  have step : pumpArr p.order tile 63 s₂ = if (applyStart p tile 1 0 m (startAny p tile 1 m s₂) s₂).1 = true then
      pumpArr p.order tile 62 (applyStart p tile 1 0 m (startAny p tile 1 m s₂) s₂).2 else (applyStart p tile 1 0 m (startAny p tile 1 m s₂) s₂).2 := by
    rw [pumpArr, h.play]
    dsimp only
    rw [h.queue]
    dsimp only
    rw [next]
    dsimp only
    rw [if_neg (by rw [h.live]; decide), h.issued]
    rfl
  rw [h.runs, step]
  refine congrArg Host.Outcome.next ?_
  split
  · next go => exact pumpArr_of_under (under go) 62
  · rfl

end

theorem idleQueueStartsMove : Claim.IdleQueueStartsMove := by
  intro c p tile code m s s₂ starts
  unfold Starts at starts
  split at starts
  · next arr =>
    subst arr
    obtain ⟨x, head⟩ := starts.head
    exact startedAs_of head.starts
  · next engine =>
    obtain ⟨x, m₀, head⟩ := starts.head
    exact startedAs_of (head.starts engine)

/-! ### What the ARR queue refuses to issue -/

theorem op_of_sxt {p : Play} {tile : Nat} {m : QMove} {s s₂ : State} (atHead : AtHead (.sxt tile) p tile 1 m s s₂) : opOf m.word = 0x13 := by
  obtain ⟨p₀, q, k, s₁, x', fetches, -, -, -, -, framed⟩ := atHead.fetched
  have row := fetches.row
  rw [framed]
  exact (congrArg Prod.fst (Option.some.inj row)).symm

section
variable {c : Instr} {p : Play} {tile : Nat} {m : QMove} {s s₂ : State}

/-- A move that the ARR queue does not issue ends its play. -/
theorem AtHead.refused (h : AtHead c p tile 1 m s s₂) {st : BitVec 16}
    (bad : ∀ x m₀, m = { m₀ with frame := x.frame } → issueArr p tile 0 m₀ x s₂ = (false, failPlay p.order (moveFailure st m tile) s₂)) :
    FailsWith c p tile m st s s₂ := by
  obtain ⟨x, m₀, head⟩ := h.head
  have run := head.issues
  rw [bad x m₀ head.framed, if_neg Bool.false_ne_true] at run
  exact FailsWith.of_failPlay head.play head.live run

theorem sxt_held (h : AtHead (.sxt tile) p tile 1 m s s₂) (common : encCommon m.word = true) (formed : encSxt m.word = true) (free : sxtOf p tile = none) :
    exec (.sxt tile) s = .next (setSxt p.order tile (some m.word) (makeTie p tile m.word (dropMove p.order tile 1 0 s₂))) := by
  have op := op_of_sxt h
  obtain ⟨x, m₀, head⟩ := h.head
  have word : m.word = m₀.word := by rw [head.framed]
  have issues : issueArr p tile 0 m₀ x s₂ = (true, setSxt p.order tile (some m.word) (makeTie p tile m.word (dropMove p.order tile 1 0 s₂))) := by
    rw [word] at op common formed ⊢
    refine (if_pos op).trans ((if_neg (by rw [common, formed]; decide)).trans (if_neg ?_))
    rw [free]
    exact Bool.false_ne_true
  have run := head.issues
  rw [issues, if_pos rfl] at run
  refine run.trans (congrArg _ (pumpArr_of_under ?_ 63))
  have dropped : QueueHolds p.order tile 1 (Under 1) (dropMove p.order tile 1 0 s₂) := by
    refine QueueHolds.modQueue (P := Single) head.single (fun _ => ⟨rfl, rfl⟩) fun x single k mem => ?_
    rw [single_eraseIdx single] at mem
    exact nomatch mem
  have tied := dropped.of_plays (makeTie_frame p tile m.word _ .plays (by decide))
  unfold setSxt
  split
  · exact tied
  · next y found => exact tied.setSame found rfl rfl

end

theorem nextArr_of_unissued {before : List QMove} {m : QMove} (waits : m.issued = false) :
    nextArr 0 before [m] = none ↔ ∃ e ∈ before, opOf e.word = 0x04 := by
  have run : nextArr 0 before [m] = if before.any fun e => opOf e.word == 0x04 then none else some (0, m) := by
    rw [nextArr, if_pos (by rw [waits]; rfl)]
  have iff : (before.any fun e => opOf e.word == 0x04) = true ↔ ∃ e ∈ before, opOf e.word = 0x04 := by
    rw [List.any_eq_true]
    simp only [beq_iff_eq]
  rw [run, ← iff]
  cases before.any fun e => opOf e.word == 0x04 with
  | true => exact ⟨fun _ => rfl, fun _ => rfl⟩
  | false => exact ⟨fun h => (nomatch h), fun h => (nomatch h)⟩

theorem arrReady_iff (before : List QMove) (op : Nat) : arrReady before op = true ↔
    (op = 0x10 → ∀ e ∈ before, opOf e.word ≠ 0x10 ∧ (opOf e.word = 0x11 → e.started = true)) ∧
    (op = 0x11 → ∀ e ∈ before, opOf e.word ≠ 0x10 ∧ (opOf e.word = 0x11 → e.started = true) ∧
      (opOf e.word = 0x12 → e.started = true ∧ admitted e = true)) ∧
    (op = 0x12 → ∀ e ∈ before, (opOf e.word = 0x11 → e.started = true) ∧ (opOf e.word = 0x12 → e.started = true ∧ admitted e = true)) ∧
    (op = 0x03 ∨ op = 0x05 → before = []) := by
  unfold arrReady
  dsimp only
  split
  case h_1 => simp [← forall₂_and]
  case h_2 =>
    simp [← forall₂_and, and_assoc]
    exact forall₂_congr fun _ _ => and_congr Iff.rfl and_comm
  case h_3 =>
    simp [← forall₂_and]
    exact forall₂_congr fun _ _ => and_comm
  case h_4 => simp
  case h_5 => simp
  case h_6 h₁ h₂ h₃ h₄ h₅ => exact ⟨fun _ => ⟨fun e => absurd e h₁, fun e => absurd e h₂, fun e => absurd e h₃, fun e => (e.elim h₄ h₅).elim⟩, fun _ => rfl⟩

/-! ### What a row's fetch and the checks of its word answer -/

theorem moveRowsAreChecked : Claim.MoveRowsAreChecked := by
  intro c op tile f p q s row ready
  have run := exec_moveRow row s
  rw [dispatchRow, ready] at run
  dsimp only at run
  cases fetch : fetchMove p q s with
  | fail st t => rw [fetch] at run; exact run
  | bad t => rw [fetch] at run; exact run
  | wait => rw [fetch] at run; exact run
  | stopped => rw [fetch] at run; exact run
  | word w t =>
    rw [fetch] at run
    dsimp only at run ⊢
    have legalOp := opLegal_of_moveRow row
    refine ⟨fun bad => ?_, fun legal other => ?_, fun mine misplaced => ?_, fun mine placed nowhere => ?_, fun code mine placed to_ => ⟨fun lead away => ?_,
      fun own_ lead bad => ?_⟩⟩
    · rwa [if_pos (by rw [bad]; rfl)] at run
    · rwa [if_neg (by rw [legal]; decide), if_pos other] at run
    · rw [mine] at run
      rwa [if_neg (by rw [legalOp]; decide), if_neg (not_not.2 rfl), if_pos fun e => misplaced (iff_of_eq e)] at run
    · rw [mine] at run
      rwa [if_neg (by rw [legalOp]; decide), if_neg (not_not.2 rfl), if_neg (not_not.2 (propext placed)), nowhere] at run
    · rw [mine] at run
      rw [if_neg (by rw [legalOp]; decide), if_neg (not_not.2 rfl), if_neg (not_not.2 (propext placed)), to_] at run
      dsimp only at run
      rwa [if_pos (by simpa [away] using lead)] at run
    · rw [mine] at run
      rw [if_neg (by rw [legalOp]; decide), if_neg (not_not.2 rfl), if_neg (not_not.2 (propext placed)), to_] at run
      dsimp only at run
      by_cases off : ((decide (code = 1) || leadOnly op) && !(tile == p.org)) = true
      · rw [if_pos off, bad] at run
        exact run
      · rw [if_neg off, if_pos (by simpa [or_assoc] using own_), bad] at run
        exact run

/-! ### Dispatch -/

theorem pumpAll_of_none {s : State} (none_ : s.plays = []) : pumpAll s = s := by
  rw [pumpAll, none_]
  rfl

theorem moveRowsDispatch : Claim.MoveRowsDispatch := by
  refine ⟨fun c p q m tile code s s₁ fetches engine => ?_, fun c op tile f s row none_ => ?_, fun s none_ => pumpAll_of_none none_, pumpAll_frame⟩
  · intro n
    have run := fetches.dispatches engine
    exact ⟨fun room => run.trans (congrArg _ (if_neg (Nat.not_le.2 room))), fun full => run.trans (congrArg _ (if_pos full))⟩
  · rw [exec_moveRow row, dispatchRow_of_none none_]

theorem arrayQueueStartsMove : Claim.ArrayQueueStartsMove := by
  refine ⟨fun p tile m s s₂ atHead => ⟨sxt_held atHead, fun common formed held => atHead.refused fun x m₀ framed => ?_, fun bad => atHead.refused fun x m₀ framed => ?_⟩,
    fun c p tile m s s₂ atHead other held => atHead.refused fun x m₀ framed => ?_, fun c p tile m s s₂ issued => ?_,
    fun before m op => ⟨nextArr_of_unissued, arrReady_iff before op⟩⟩
  · have op := op_of_sxt atHead
    subst framed
    exact (if_pos op).trans ((if_neg (by dsimp only at common formed; rw [common, formed]; decide)).trans (if_pos held))
  · have op := op_of_sxt atHead
    subst framed
    refine (if_pos op).trans (if_pos ?_)
    rw [Bool.not_eq_true', Bool.and_eq_false_iff]
    exact bad
  · subst framed
    simp only [List.mem_cons, List.not_mem_nil, or_false, not_or] at other
    exact (if_neg other.2).trans (if_pos (by rw [held, decide_eq_true other.1]; rfl))
  · obtain ⟨x, head⟩ := issued.head
    exact ⟨head.issued, ⟨x, head.queue, head.only, head.framed⟩, head.plain, head.taken⟩

/-- Settles O28. -/
theorem movesAreDispatchedAndStart : Obligations.MovesAreDispatchedAndStart :=
  ⟨moveRowsDispatch, moveRowsAreChecked, idleQueueStartsMove, arrayQueueStartsMove⟩

end Sys2Proof.Machine
end

section
/-! SUPPORT. The sequencer's own moves, ties and the knots' arithmetic (R171, R184, R185, R192, R193). -/

namespace Sys2Proof.Machine

/-! ### Knots -/

theorem knot_setKnot_self (k : Nat) (v : W32) (s : State) : knot (setKnot k v s) k = v := lookupD_upsert_self ..

theorem knot_setKnot_ne {j k : Nat} (other : j ≠ k) (v : W32) (s : State) : knot (setKnot k v s) j = knot s j := lookupD_upsert_ne other ..

theorem knot_addKnot_self (k : Nat) (v : W32) (s : State) : knot (addKnot k v s) k = knot s k + v := knot_setKnot_self ..

theorem knot_addKnot_ne {j k : Nat} (other : j ≠ k) (v : W32) (s : State) : knot (addKnot k v s) j = knot s j := knot_setKnot_ne other ..

theorem waitMet_iff (k t : W32) : waitMet k t = true ↔ (k.toNat + 2 ^ 32 - t.toNat) % 2 ^ 32 < 2 ^ 31 := by
  rw [waitMet, decide_eq_true_eq, BitVec.toNat_sub]
  have := t.isLt
  have same : 2 ^ 32 - t.toNat + k.toNat = k.toNat + 2 ^ 32 - t.toNat := by omega
  rw [same]

theorem knotsCount : Claim.KnotsCount :=
  ⟨fun k v s => ⟨knot_setKnot_self k v s, fun _ other => knot_setKnot_ne other v s, knot_addKnot_self k v s, fun _ other => knot_addKnot_ne other v s⟩, waitMet_iff⟩

/-! ### The tie of a completed move -/

/-- The tiles of a partition are told apart by their numbers. -/
theorem nodup_tilesOf (org sh : Nat) : (tilesOf org sh).Nodup := by
  have wide : shapeCols sh ≤ 16 := by
    unfold shapeCols
    split <;> decide
  unfold tilesOf
  rw [List.nodup_flatMap]
  refine ⟨fun a _ => (List.nodup_range).map fun b c same => ?_, (List.nodup_range).imp fun {a b} other => ?_⟩
  · unfold mkTile at same
    omega
  · intro t here there
    obtain ⟨c, mem, e⟩ := List.mem_map.1 here
    obtain ⟨d, mem', e'⟩ := List.mem_map.1 there
    rw [List.mem_range] at mem mem'
    unfold mkTile at e e'
    omega

theorem knot_foldl_addKnot {l : List Nat} {f : Nat → Nat} (apart : (l.map f).Nodup) (s : State) :
    (∀ x ∈ l, knot (l.foldl (fun s t => addKnot (f t) 1 s) s) (f x) = knot s (f x) + 1) ∧
      ∀ k, (∀ x ∈ l, k ≠ f x) → knot (l.foldl (fun s t => addKnot (f t) 1 s) s) k = knot s k := by
  induction l generalizing s with
  | nil => exact ⟨nofun, fun _ _ => rfl⟩
  | cons t l ih =>
    rw [List.map_cons, List.nodup_cons] at apart
    obtain ⟨adds, keeps⟩ := ih apart.2 (addKnot (f t) 1 s)
    refine ⟨fun x mem => ?_, fun k away => ?_⟩
    · by_cases first : f x = f t
      · rw [first, List.foldl_cons, keeps (f t) fun y mem' same => apart.1 (List.mem_map.2 ⟨y, mem', same.symm⟩)]
        exact knot_addKnot_self ..
      · have mem : x ∈ l := (List.mem_cons.1 mem).resolve_left fun e => first (by rw [e])
        rw [List.foldl_cons, adds x mem, knot_addKnot_ne first]
    · rw [List.foldl_cons, keeps k fun x mem => away x (.tail _ mem), knot_addKnot_ne (away t (.head _))]

theorem completionTies : Claim.CompletionTies := by
  intro p tile w s t
  refine ⟨makeTie_frame p tile w s, fun bare => if_pos (by rw [bare]; rfl), fun ties one => ?_, fun ties all => ?_⟩
  · have run : t = addKnot (tileKnot tile (wf w 9 7)) 1 s := (if_neg (by rw [ties]; decide)).trans (if_neg (by rw [one]; decide))
    rw [run]
    exact ⟨knot_addKnot_self .., fun _ other => knot_addKnot_ne other ..⟩
  · have run : t = (tilesOf p.org p.shape).foldl (fun s t => addKnot (tileKnot t (wf w 9 7)) 1 s) s := (if_neg (by rw [ties]; decide)).trans (if_pos all)
    rw [run]
    refine knot_foldl_addKnot (f := fun t => tileKnot t (wf w 9 7)) ((nodup_tilesOf p.org p.shape).map fun a b same => ?_) s
    dsimp only [tileKnot] at same
    omega

/-! ### The sequencer's own moves -/

section
variable {c : Instr} {p : Play} {q : Sequencer} {m : QMove} {tile : Nat} {s s₁ : State}

theorem op_of_row (h : Fetches c p q m tile 0 s s₁) {o : Nat} {f : MoveFault} (row : moveRow c = some (o, tile, f)) : opOf m.word = o :=
  congrArg Prod.fst (Option.some.inj (h.row.symm.trans row))

/-- The play past its sequencer's move. -/
theorem stepped_play (h : Fetches c p q m tile 0 s s₁) :
    stepSeq p.order tile s₁ = setPlay (p.pastMove tile) s₁ ∧ getPlay (stepSeq p.order tile s₁) p.order = some (p.pastMove tile) := by
  have run := stepSeq_eq h.own tile
  refine ⟨run, ?_⟩
  rw [run]
  exact getPlay_setPlay (q := p.pastMove tile) h.own

theorem seqMove_part (h : Fetches c p q m tile 0 s s₁) (op : opOf m.word = 0x06) (first : p.cut = none) :
    seqMove p tile m s₁ = makeTie (p.pastMove tile) tile m.word
      (setPlay { p.pastMove tile with cut := some (wf m.word 64 11, wf m.word 75 3, wf m.word 78 3) } (stepSeq p.order tile s₁)) := by
  unfold seqMove
  extract_lets w next
  have code : opOf w = 0x06 := op
  rw [code]
  refine (if_neg (by rw [first]; decide)).trans ?_
  rw [(stepped_play h).2]

theorem seqMove_part_again (op : opOf m.word = 0x06) (second : p.cut.isSome = true) :
    seqMove p tile m s₁ = failPlay p.order (moveFailure Status.playFormat m tile) s₁ := by
  unfold seqMove
  extract_lets w next
  have code : opOf w = 0x06 := op
  rw [code]
  exact if_pos second

theorem seqMove_end_waits (op : opOf m.word = 0x01) (busy : ∃ z ∈ p.queues, z.tile = tile ∧ z.moves ≠ []) : seqMove p tile m s₁ = s₁ := by
  unfold seqMove
  extract_lets w next
  have code : opOf w = 0x01 := op
  rw [code]
  refine if_pos (List.any_eq_true.2 ?_)
  obtain ⟨z, mem, here, some_⟩ := busy
  refine ⟨z, mem, ?_⟩
  rw [here, beq_self_eq_true, Bool.true_and, Bool.not_eq_true', List.isEmpty_eq_false_iff]
  exact some_

theorem queues_idle (idle : ∀ z ∈ p.queues, z.tile = tile → z.moves = []) : (p.queues.any fun q => q.tile == tile && !q.moves.isEmpty) = false := by
  rw [List.any_eq_false]
  intro z mem both
  rw [Bool.and_eq_true, beq_iff_eq, Bool.not_eq_true'] at both
  rw [idle z mem both.1] at both
  exact nomatch both.2

theorem seqMove_end_sxt (op : opOf m.word = 0x01) (idle : ∀ z ∈ p.queues, z.tile = tile → z.moves = []) (held : (sxtOf p tile).isSome = true) :
    seqMove p tile m s₁ = failPlay p.order (moveFailure Status.playFormat m tile) s₁ := by
  unfold seqMove
  extract_lets w next
  have code : opOf w = 0x01 := op
  rw [code]
  exact (if_neg (by rw [queues_idle idle]; decide)).trans (if_pos held)

/-- The play whose tile has retired. -/
def retired (p : Play) (tile : Nat) : Play := { p with seqs := p.seqs.map fun q => if q.tile = tile then { q with ended := true } else q }

theorem seqMove_end (h : Fetches c p q m tile 0 s s₁) (op : opOf m.word = 0x01) (idle : ∀ z ∈ p.queues, z.tile = tile → z.moves = [])
    (none_ : sxtOf p tile = none) : seqMove p tile m s₁ = makeTie (p.pastMove tile) tile m.word
      (setPlay (retired (p.pastMove tile) tile) (stepSeq p.order tile s₁)) := by
  unfold seqMove
  extract_lets w next
  have code : opOf w = 0x01 := op
  rw [code]
  refine (if_neg (by rw [queues_idle idle]; decide)).trans ((if_neg (by rw [none_]; decide)).trans ?_)
  rw [(stepped_play h).2]
  rfl

/-- A play set after its sequencer's step, with the move's tie. -/
theorem stepped_tie (h : Fetches c p q m tile 0 s s₁) {y : Play} (order : y.order = p.order) (k : Play) :
    getPlay (makeTie k tile m.word (setPlay y (stepSeq p.order tile s₁))) p.order = some y ∧
      OnlyChanges [.plays, .knots] s₁ (makeTie k tile m.word (setPlay y (stepSeq p.order tile s₁))) := by
  have tied := makeTie_frame k tile m.word (setPlay y (stepSeq p.order tile s₁))
  refine ⟨(getPlay_of_plays (tied .plays (by decide)) _).trans ?_,
    (((stepSeq_frame p.order tile s₁).step (setPlay_frame y _) (by decide)).mono (by decide)).step tied (by decide)⟩
  have there : getPlay (stepSeq p.order tile s₁) y.order = some (p.pastMove tile) := by
    rw [order]
    exact (stepped_play h).2
  have found := getPlay_setPlay (q := y) there
  rwa [order] at found

theorem retired_ended (p : Play) (tile : Nat) : ∀ z ∈ (retired p tile).seqs, z.tile = tile → z.ended = true := by
  intro z mem here
  obtain ⟨k, -, e⟩ := List.mem_map.1 mem
  rw [← e] at here ⊢
  split at here
  · next same => rw [if_pos same]
  · next other => exact absurd here other

end

theorem sequencerMoves : Claim.SequencerMoves := by
  intro p q m tile s s₁ formed
  refine ⟨fun h => ?_, fun h past => ?_, fun h ahead => ?_, fun h first => ?_, fun h second => ?_, fun h busy => ?_, fun h idle held => ?_, fun h idle none_ => ?_⟩
  · have op := op_of_row h rfl
    have run := h.exec_seqMove (by rw [op]; decide) formed
    rw [seqMove, op] at run
    exact run
  · have op := op_of_row h rfl
    rw [h.exec_seqMove (by rw [op]; decide) formed, seqMove_fireat_past op past]
  · have op := op_of_row h rfl
    rw [h.exec_seqMove (by rw [op]; decide) formed]
    refine congrArg Host.Outcome.next ?_
    simp only [seqMove, op, Nat.not_le.2 ahead, if_false]
  · have op := op_of_row h rfl
    have run := h.exec_seqMove (by rw [op]; decide) formed
    rw [seqMove_part h op first] at run
    obtain ⟨found, frame⟩ := stepped_tie h (y := { p.pastMove tile with cut := some (wf m.word 64 11, wf m.word 75 3, wf m.word 78 3) }) rfl (p.pastMove tile)
    exact ⟨_, _, run, found, rfl, frame⟩
  · have op := op_of_row h rfl
    have run := h.exec_seqMove (by rw [op]; decide) formed
    rw [seqMove_part_again op second] at run
    exact FailsWith.of_failPlay h.own (of_dispatcher h.seq).2.1 run
  · have op := op_of_row h rfl
    rw [h.exec_seqMove (by rw [op]; decide) formed, seqMove_end_waits op busy]
  · have op := op_of_row h rfl
    have run := h.exec_seqMove (by rw [op]; decide) formed
    rw [seqMove_end_sxt op idle held] at run
    exact FailsWith.of_failPlay h.own (of_dispatcher h.seq).2.1 run
  · have op := op_of_row h rfl
    have run := h.exec_seqMove (by rw [op]; decide) formed
    rw [seqMove_end h op idle none_] at run
    obtain ⟨found, frame⟩ := stepped_tie h (y := retired (p.pastMove tile) tile) rfl (p.pastMove tile)
    exact ⟨_, _, run, found, retired_ended _ tile, frame⟩

end Sys2Proof.Machine
end

section
/-! SUPPORT. KSET, TIE, WAIT and IFRAME at the head of a queue (R184, R188, R191). -/

namespace Sys2Proof.Machine

/-! ### A move at the head of a queue, issued where the queue is ARR -/

/-- What starts of a move at the head of its queue: the move itself, or on ARR the issued move of the play that holds it so. -/
structure Comes1 (p : Play) (tile code : Nat) (m : QMove) (s₂ : State) (p' : Play) (m' : QMove) (s₃ : State) : Prop where
  word : m'.word = m.word
  idx : m'.idx = m.idx
  fault : m'.fault = m.fault
  org : p'.org = p.org
  shape : p'.shape = p.shape
  order : p'.order = p.order
  origin : p'.live = true
  play : getPlay s₃ p.order = some p'
  queue : ∃ x k, getQueue p' tile code = some x ∧ x.moves = [k]
  plays : OnlyChanges [.plays] s₂ s₃
  gone : ∀ l, dropMove p.order tile code 0 { s₃ with knots := l } = dropMove p.order tile code 0 { s₂ with knots := l }

/-- The play without the move at the head of a queue. -/
def Play.dropFirst (p : Play) (tile code : Nat) : Play := p.onQueue tile code fun q => { q with moves := q.moves.eraseIdx 0 }

section
variable {c : Instr} {p : Play} {tile code : Nat} {m : QMove} {s s₂ : State}

theorem setPlay_setPlay {q r : Play} (same : q.order = r.order) (s : State) : setPlay q (setPlay r s) = setPlay q s := by
  unfold setPlay
  dsimp only
  rw [List.map_map]
  refine congrArg (fun l => { s with plays := l }) (List.map_congr_left fun x _ => ?_)
  by_cases this : x.order = r.order
  · simp [this, same]
  · simp [this]

/-- What a queue's head is does not matter once it is dropped. -/
theorem dropMove_putFirst (play : getPlay s₂ p.order = some p) (k : QMove) (l : Table W32) :
    dropMove p.order tile code 0 { setPlay (p.putFirst tile code k) s₂ with knots := l } = dropMove p.order tile code 0 { s₂ with knots := l } := by
  let u : State := { s₂ with knots := l }
  have playU : getPlay u p.order = some p := play
  have held : getPlay (setPlay (p.putFirst tile code k) u) (p.putFirst tile code k).order = some (p.putFirst tile code k) :=
    getPlay_setPlay (q := p.putFirst tile code k) playU
  have left : dropMove p.order tile code 0 (setPlay (p.putFirst tile code k) u) =
      setPlay ((p.putFirst tile code k).dropFirst tile code) (setPlay (p.putFirst tile code k) u) := modQueue_eq held tile code _
  have right : dropMove p.order tile code 0 u = setPlay (p.dropFirst tile code) u := modQueue_eq playU tile code _
  have twice : setPlay ((p.putFirst tile code k).dropFirst tile code) (setPlay (p.putFirst tile code k) u) =
      setPlay ((p.putFirst tile code k).dropFirst tile code) u := setPlay_setPlay (q := (p.putFirst tile code k).dropFirst tile code) (r := p.putFirst tile code k) rfl u
  refine left.trans (twice.trans (Eq.trans (congrArg (fun y => setPlay y u) ?_) right.symm))
  unfold Play.dropFirst Play.putFirst Play.onQueue
  dsimp only
  rw [List.map_map]
  refine congrArg (fun l => { p with queues := l }) (List.map_congr_left fun q _ => ?_)
  dsimp only [Function.comp]
  by_cases this : q.tile = tile ∧ q.code = code
  · have same : (q.moves.set 0 k).tail = q.moves.tail := by cases q.moves <;> rfl
    simp [this, same]
  · simp [this]

theorem AtHead.applied (h : AtHead c p tile code m s s₂) (arr : code = 1 → sxtOf p tile = none ∧ opOf m.word ≠ 0x12 ∧ opOf m.word ≠ 0x13) :
    ∃ p' m' s₃, Comes1 p tile code m s₂ p' m' s₃ ∧ exec c s = .next (applyStart p' tile code 0 m' (startAny p' tile code m' s₃) s₃).2 := by
  obtain ⟨x, m₀, head⟩ := h.head
  by_cases engine : code = 1
  · subst engine
    obtain ⟨free, noStream, noSxt⟩ := arr rfl
    obtain ⟨queue, only, rfl, started, issued, play, live, -, -⟩ := id head
    have noSxt : opOf m₀.word ≠ 0x13 := noSxt
    have noStream : opOf m₀.word ≠ 0x12 := noStream
    have there := putFirst_queue queue only (issuedMove p tile x m₀)
    have put := putMove_first (tile := tile) (code := 1) play (issuedMove p tile x m₀)
    have runs := head.issues
    rw [issueArr_of_move noSxt (.inr free), if_pos rfl, if_neg noStream, put] at runs
    have held : getPlay (setPlay (p.putFirst tile 1 (issuedMove p tile x m₀)) s₂) p.order = some (p.putFirst tile 1 (issuedMove p tile x m₀)) :=
      getPlay_setPlay (q := p.putFirst tile 1 (issuedMove p tile x m₀)) play
    have issuedHead : IssuedHead c (p.putFirst tile 1 (issuedMove p tile x m₀)) tile (issuedMove p tile x m₀) s
        (setPlay (p.putFirst tile 1 (issuedMove p tile x m₀)) s₂) { x with moves := [issuedMove p tile x m₀] } :=
      ⟨there, rfl, rfl, started, rfl, fun _ => free, fun is => absurd is noStream, live, held, runs⟩
    exact ⟨p.putFirst tile 1 (issuedMove p tile x m₀), issuedMove p tile x m₀, setPlay (p.putFirst tile 1 (issuedMove p tile x m₀)) s₂,
      ⟨rfl, rfl, rfl, rfl, rfl, rfl, live, held, ⟨_, _, there, rfl⟩, setPlay_frame _ s₂, dropMove_putFirst play _⟩, issuedHead.starts⟩
  · exact ⟨p, m, s₂, ⟨rfl, rfl, rfl, rfl, rfl, rfl, head.live, head.play, ⟨x, m₀, head.queue, head.only⟩, .refl _ _, fun _ => rfl⟩, head.starts engine⟩

/-- The row of a move at the head of its queue says its opcode and its fault. -/
theorem AtHead.row (h : AtHead c p tile code m s s₂) {o l : Nat} {f : MoveFault} (row : moveRow c = some (o, l, f)) : opOf m.word = o ∧ m.fault = f := by
  obtain ⟨p₀, q, m₀, s₁, x, fetches, -, -, -, -, rfl⟩ := h.fetched
  have same := Option.some.inj (fetches.row.symm.trans row)
  exact ⟨congrArg Prod.fst same, congrArg (fun z => z.2.2) same⟩

theorem startAny_plain {s₃ : State} (none_ : m.fault = .none) : startAny p tile code m s₃ = startMoveOf p tile code m s₃ := by
  have lane (u : State) (r : Start) : laneStart p tile m u r = r := by
    unfold laneStart
    rw [none_]
    cases laneOp (opOf m.word) <;> cases r <;> rfl
  unfold startAny parityStart
  rw [none_]
  exact lane _ _

end

/-! ### What is carried out -/

/-- KSET, TIE, WAIT and IFRAME read no extent. -/
theorem readsOf_knotMove {p : Play} {tile : Nat} {m : QMove} {s : State} (op : opOf m.word ∈ [0x03, 0x04, 0x05, 0x07]) : readsOf p tile m s = [] := by
  simp only [List.mem_cons, List.not_mem_nil, or_false] at op
  unfold readsOf
  dsimp only
  rcases op with op | op | op | op <;> (rw [op]; rfl)

theorem destsOf_knotMove {p : Play} {tile : Nat} {m : QMove} {s : State} (op : opOf m.word ∈ [0x03, 0x04, 0x05, 0x07]) : destsOf p tile m s = [] := by
  simp only [List.mem_cons, List.not_mem_nil, or_false] at op
  unfold destsOf
  dsimp only
  rcases op with op | op | op | op <;> (rw [op]; rfl)

section
variable {c : Instr} {p p' : Play} {tile code : Nat} {m m' : QMove} {s s₂ s₃ : State}

theorem noteStart_knotMove (op : opOf m.word ∈ [0x03, 0x04, 0x05, 0x07]) (word : m'.word = m.word) (u v t : State) :
    noteStart p.order tile m' u t = noteStart p.order tile m v t := by
  unfold noteStart
  split
  · rfl
  · rw [readsOf_knotMove op, readsOf_knotMove (m := m') (by rwa [word]), word]

theorem Comes1.done (h : Comes1 p tile code m s₂ p' m' s₃) (op : opOf m.word ∈ [0x03, 0x04, 0x05, 0x07]) (l : Table W32) :
    (applyStart p' tile code 0 m' (.done { s₃ with knots := l }) s₃).2 =
      noteAll (makeTie p tile m.word (noteStart p.order tile m s₂ (dropMove p.order tile code 0 { s₂ with knots := l }))) := by
  change noteAll (makeTie p' tile m'.word (noteStart p'.order tile m' s₃ (dropMove p'.order tile code 0 { s₃ with knots := l }))) = _
  rw [h.order, h.gone l, noteStart_knotMove op h.word s₃ s₂, h.word]
  unfold makeTie
  rw [h.org, h.shape]

theorem Comes1.knots (h : Comes1 p tile code m s₂ p' m' s₃) : s₃.knots = s₂.knots := h.plays .knots (by decide)

/-- A start that fails a check of its word ends the play. -/
theorem Comes1.fails (h : Comes1 p tile code m s₂ p' m' s₃) (runs : exec c s = .next (applyStart p' tile code 0 m' (.fail Status.moveField s₃) s₃).2) :
    FailsWith c p tile m Status.moveField s s₂ := by
  have none_ : failDests p' tile m' Status.moveField s₃ s₃ = [] := if_neg (by decide)
  have play : getPlay s₃ p'.order = some p' := by rw [h.order]; exact h.play
  have noted : addDests p'.order [] s₃ = setPlay { p' with dests := p'.dests ++ [] } s₃ := by
    unfold addDests
    rw [play]
  have held : getPlay (setPlay { p' with dests := p'.dests ++ [] } s₃) p'.order = some { p' with dests := p'.dests ++ [] } :=
    getPlay_setPlay (q := { p' with dests := p'.dests ++ [] }) play
  have run : exec c s = .next (failPlay p'.order (moveFailure Status.moveField m' tile) (setPlay { p' with dests := p'.dests ++ [] } s₃)) := by
    rw [runs, ← noted, ← none_]
    rfl
  obtain ⟨t, y, ran, found, fail, stopped, frame⟩ := FailsWith.of_failPlay (p := { p' with dests := p'.dests ++ [] }) held h.origin run
  refine ⟨t, y, ran, h.order ▸ found, ?_, stopped, (h.plays.step (setPlay_frame _ s₃) (by decide)).step frame (by decide)⟩
  rw [fail]
  unfold moveFailure
  rw [h.word, h.idx]

/-- A start that meets a fault masks the play. -/
theorem Comes1.faults (h : Comes1 p tile code m s₂ p' m' s₃) (op : opOf m.word ∈ [0x03, 0x04, 0x05, 0x07]) {k : Nat}
    (runs : exec c s = .next (applyStart p' tile code 0 m' (.fault k s₃) s₃).2) : FaultsWith c p tile m k [] s s₂ := by
  have none_ : startDests p' tile m' s₃ = [] := by
    unfold startDests
    split
    · rfl
    · exact destsOf_knotMove (by rwa [h.word])
  have play : getPlay s₃ p'.order = some p' := by rw [h.order]; exact h.play
  have noted : addDests p'.order [] s₃ = setPlay { p' with dests := p'.dests ++ [] } s₃ := by
    unfold addDests
    rw [play]
  have held : getPlay (setPlay { p' with dests := p'.dests ++ [] } s₃) p'.order = some { p' with dests := p'.dests ++ [] } :=
    getPlay_setPlay (q := { p' with dests := p'.dests ++ [] }) play
  have run : exec c s = .next (faultPlay p'.order k (faultOf m' tile) (setPlay { p' with dests := p'.dests ++ [] } s₃)) := by
    rw [runs, ← noted, ← none_]
    rfl
  have masked := faultPlay_of_live (p := { p' with dests := p'.dests ++ [] }) held h.origin k (faultOf m' tile)
  rw [show ({ p' with dests := p'.dests ++ [] } : Play).order = p'.order from rfl] at masked
  rw [masked] at run
  refine ⟨_, { stopPlay { p' with dests := p'.dests ++ [] } with faulted := some k, faultAt := faultOf m' tile }, run, ?_, rfl, ?_, stopPlay_stopped,
    (h.plays.step (setPlay_frame _ s₃) (by decide)).step (setPlay_frame _ _) (by decide)⟩
  · have found := getPlay_setPlay (s := setPlay { p' with dests := p'.dests ++ [] } s₃)
      (q := { stopPlay { p' with dests := p'.dests ++ [] } with faulted := some k, faultAt := faultOf m' tile }) held
    rw [← h.order]
    exact found
  · unfold faultOf
    rw [h.word, h.idx]

end

/-! ### A head that runs -/

section
variable {order tile code : Nat} {s : State}

theorem runsAtHead_setSame {p q : Play} (runs : RunsAtHead s order tile code) (found : getPlay s order = some p) (named : q.order = p.order)
    (queues : q.queues = p.queues) : RunsAtHead (setPlay q s) order tile code := by
  obtain ⟨y, x, m, r, held, at_, moves, started⟩ := runs
  rw [held] at found
  cases found
  have order' : q.order = order := named.trans (order_of_getPlay held)
  refine ⟨q, x, m, r, ?_, ?_, moves, started⟩
  · rw [← order'] at held ⊢
    exact getPlay_setPlay held
  · unfold getQueue
    rw [queues]
    exact at_

theorem RunsAtHead.addDests (runs : RunsAtHead s order tile code) (l : List (Nat × Nat × Nat × Option Nat)) :
    RunsAtHead (addDests order l s) order tile code := by
  unfold Machine.addDests
  split
  · exact runs
  · next p found => exact runsAtHead_setSame runs found rfl rfl

theorem RunsAtHead.noteStart (runs : RunsAtHead s order tile code) (m : QMove) (s₀ : State) (tile' : Nat) :
    RunsAtHead (noteStart order tile' m s₀ s) order tile code := by
  unfold Machine.noteStart
  split
  · exact runs
  · next p found => exact runsAtHead_setSame runs found rfl rfl

theorem RunsAtHead.noteAll (runs : RunsAtHead s order tile code) : RunsAtHead (noteAll s) order tile code := by
  obtain ⟨y, x, m, r, held, at_, moves, started⟩ := runs
  have queue : getQueue (notedPlay s y) tile code = some (notedQueue s x) := by
    rw [getQueue_notedPlay, at_]
    rfl
  have found : getPlay (Machine.noteAll s) order = some (notedPlay s y) := by
    rw [getPlay_noteAll, held]
    rfl
  by_cases spill : x.code = 7
  · refine ⟨_, _, noteHits s m, r.map (noteHits s), found, queue, ?_, by rw [(noteHits_marks s m).1]; exact started⟩
    rw [notedQueue, if_pos spill, moves]
    rfl
  · refine ⟨_, _, m, r, found, queue, ?_, started⟩
    rw [notedQueue, if_neg spill]
    exact moves

end

/-- A start that runs stands at the head of its queue. -/
theorem Comes1.runs {p p' : Play} {tile code : Nat} {m m' m₁ : QMove} {s₂ s₃ t : State} (h : Comes1 p tile code m s₂ p' m' s₃) (started : m₁.started = true)
    (plays : t.plays = s₃.plays) : RunsAtHead (applyStart p' tile code 0 m' (.run m₁ t) s₃).2 p.order tile code := by
  obtain ⟨x, k, queue, only⟩ := h.queue
  have play : getPlay t p'.order = some p' := by
    rw [getPlay_of_plays plays, h.order]
    exact h.play
  have put : RunsAtHead (putMove p'.order tile code 0 m₁ t) p.order tile code := by
    refine ⟨_, _, m₁, [], ?_, putFirst_queue queue only m₁, rfl, started⟩
    rw [putMove_first play, ← h.order]
    exact getPlay_setPlay (q := p'.putFirst tile code m₁) play
  change RunsAtHead (Machine.noteAll (Machine.noteStart p'.order tile m₁ s₃ (Machine.addDests p'.order (startDests p' tile m₁ s₃) (putMove p'.order tile code 0 m₁ t)))) _ _ _
  rw [h.order] at put ⊢
  exact ((put.addDests _).noteStart _ _ _).noteAll

/-- What a start that runs changes besides its own state. -/
theorem applied_frame (p : Play) (tile code : Nat) (m m₁ : QMove) (t s : State) : OnlyChanges [.plays] t (applyStart p tile code 0 m (.run m₁ t) s).2 :=
  (((putMove_frame _ _ _ _ _ t).step (addDests_frame _ _ _) (by decide)).step (noteStart_frame _ _ _ _ _) (by decide)).step (noteAll_frame _) (by decide)

end Sys2Proof.Machine
end

section
/-! SUPPORT. What KSET, TIE, WAIT and IFRAME do (R184, R188, R191). -/

namespace Sys2Proof.Machine

section
variable {c : Instr} {p : Play} {tile code : Nat} {m : QMove} {s s₂ : State}

/-- A knot move at the head of its queue: what its row carries out, from the start of its opcode. -/
theorem AtHead.knotMove (h : AtHead c p tile code m s s₂) {o l : Nat} (row : moveRow c = some (o, l, .none)) (op : o ∈ [0x03, 0x04, 0x05, 0x07])
    (sxt : code = 1 → sxtOf p tile = none) : ∃ p' m' s₃, Comes1 p tile code m s₂ p' m' s₃ ∧ opOf m.word ∈ [0x03, 0x04, 0x05, 0x07] ∧ opOf m'.word = o ∧
      exec c s = .next (applyStart p' tile code 0 m' (startMoveOf p' tile code m' s₃) s₃).2 := by
  obtain ⟨code', fault⟩ := h.row row
  have op' : opOf m.word ∈ [0x03, 0x04, 0x05, 0x07] := by rwa [code']
  have others : opOf m.word ≠ 0x12 ∧ opOf m.word ≠ 0x13 := by
    constructor <;> (intro e; rw [e] at op'; revert op'; decide)
  obtain ⟨p', m', s₃, comes, runs⟩ := h.applied fun arr => ⟨sxt arr, others⟩
  refine ⟨p', m', s₃, comes, op', by rw [comes.word]; exact code', ?_⟩
  rwa [startAny_plain (by rw [comes.fault]; exact fault)] at runs

theorem startMoveOf_common {m : QMove} (common : encCommon m.word = false) (s : State) : startMoveOf p tile code m s = .fail Status.moveField s :=
  if_pos (by rw [common]; rfl)

section
variable (common : encCommon m.word = true) (s : State)
include common

theorem startMoveOf_tie (op : opOf m.word = 0x03) : startMoveOf p tile code m s = startTie p tile code m s := by
  refine (if_neg (by rw [common]; decide)).trans ?_
  generalize opOf m.word = o at op
  subst op
  rfl

theorem startMoveOf_wait (op : opOf m.word = 0x04) : startMoveOf p tile code m s = startWait tile m s := by
  refine (if_neg (by rw [common]; decide)).trans ?_
  generalize opOf m.word = o at op
  subst op
  rfl

theorem startMoveOf_kset (op : opOf m.word = 0x05) : startMoveOf p tile code m s = startKset tile m s := by
  refine (if_neg (by rw [common]; decide)).trans ?_
  generalize opOf m.word = o at op
  subst op
  rfl

theorem startMoveOf_iframe (op : opOf m.word = 0x07) : startMoveOf p tile code m s = startIframe p tile code m s := by
  refine (if_neg (by rw [common]; decide)).trans ?_
  generalize opOf m.word = o at op
  subst op
  rfl

end

/-! ### KSET -/

theorem kset_acts (h : AtHead (.kset tile) p tile code m s s₂) (sxt : code = 1 → sxtOf p tile = none) (common : encCommon m.word = true)
    (formed : encKset m.word = true) : exec (.kset tile) s = .next (noteAll (makeTie p tile m.word (noteStart p.order tile m s₂
      (dropMove p.order tile code 0 (setKnot (tileKnot tile (wf m.word 68 7)) (BitVec.ofNat 32 (wf m.word 75 32)) s₂))))) := by
  obtain ⟨p', m', s₃, comes, op, op', runs⟩ := h.knotMove rfl (by decide) sxt
  have start : startMoveOf p' tile code m' s₃ = .done (setKnot (tileKnot tile (wf m.word 68 7)) (BitVec.ofNat 32 (wf m.word 75 32)) s₃) := by
    rw [startMoveOf_kset (by rw [comes.word]; exact common) s₃ op', startKset, comes.word, if_neg (by rw [formed]; decide)]
    rfl
  rw [runs, start, setKnot, comes.knots, comes.done op]
  rfl

/-! ### TIE -/

/-- A crossing on a TIE's way is closed. -/
def tieShut (tile : Nat) (w : MoveWord) (s : State) : Bool := xingClosed s (tileField tile) 8 || (wf w 68 3 == 3 && xingClosed s 10 8)

/-- A TIE's packet to a node. -/
def tiePacket (tile code : Nat) (w : MoveWord) (x : Nat) : Source × MeshItem :=
  (.queue tile code, .tie (wf w 68 3) x (wf w 71 7) (BitVec.ofNat 32 (wf w 89 32)) tile code)

theorem tie_own (h : AtHead (.tie tile) p tile code m s s₂) (sxt : code = 1 → sxtOf p tile = none) (common : encCommon m.word = true)
    (formed : encTie m.word = true) (own : wf m.word 68 3 = 0) : exec (.tie tile) s = .next (noteAll (makeTie p tile m.word (noteStart p.order tile m s₂
      (dropMove p.order tile code 0 (addKnot (tileKnot tile (wf m.word 71 7)) (BitVec.ofNat 32 (wf m.word 89 32)) s₂))))) := by
  obtain ⟨p', m', s₃, comes, op, op', runs⟩ := h.knotMove rfl (by decide) sxt
  have start : startMoveOf p' tile code m' s₃ = .done (addKnot (tileKnot tile (wf m.word 71 7)) (BitVec.ofNat 32 (wf m.word 89 32)) s₃) := by
    rw [startMoveOf_tie (by rw [comes.word]; exact common) s₃ op', startTie, comes.word]
    refine (if_neg (by rw [formed]; decide)).trans ((if_neg ?_).trans (if_pos own))
    rw [own]
    exact Bool.false_ne_true
  rw [runs, start, addKnot, setKnot, knot_of_knots comes.knots, comes.knots, comes.done op]
  rfl

theorem tie_shut (h : AtHead (.tie tile) p tile code m s s₂) (sxt : code = 1 → sxtOf p tile = none) (common : encCommon m.word = true)
    (formed : encTie m.word = true) (remote : wf m.word 68 3 ≠ 0) (shut : tieShut tile m.word s₂ = true) : FaultsWith (.tie tile) p tile m 15 [] s s₂ := by
  obtain ⟨p', m', s₃, comes, op, op', runs⟩ := h.knotMove rfl (by decide) sxt
  have xing : s₃.xing = s₂.xing := comes.plays .xing (by decide)
  have start : startMoveOf p' tile code m' s₃ = .fault 15 s₃ := by
    rw [startMoveOf_tie (by rw [comes.word]; exact common) s₃ op', startTie, comes.word]
    refine (if_neg (by rw [formed]; decide)).trans (if_pos ?_)
    rw [xingClosed_of_xing xing, xingClosed_of_xing xing, bne_iff_ne.2 remote]
    exact shut
  rw [start] at runs
  exact comes.faults op runs

theorem foldl_meshPut (src : Source) (f : Nat → MeshItem) (l : List Nat) (u : State) :
    l.foldl (fun u t => meshPut src (f t) u) u = { u with mesh := u.mesh ++ l.map fun t => (src, f t) } := by
  induction l generalizing u with
  | nil => rw [List.map_nil, List.append_nil]; rfl
  | cons t l ih =>
    rw [List.foldl_cons, ih, List.map_cons]
    unfold meshPut
    dsimp only
    rw [List.append_assoc]
    rfl

theorem tie_remote (h : AtHead (.tie tile) p tile code m s s₂) (sxt : code = 1 → sxtOf p tile = none) (common : encCommon m.word = true)
    (formed : encTie m.word = true) (remote : wf m.word 68 3 ≠ 0) (opened : tieShut tile m.word s₂ = false) :
    ∃ t, exec (.tie tile) s = .next t ∧ RunsAtHead t p.order tile code ∧ OnlyChanges [.plays, .mesh] s₂ t ∧
      t.mesh = s₂.mesh ++ (if wf m.word 68 3 = 2 then tilesOf p.org p.shape else [wf m.word 78 11]).map (tiePacket tile code m.word) := by
  obtain ⟨p', m', s₃, comes, op, op', runs⟩ := h.knotMove rfl (by decide) sxt
  have xing : s₃.xing = s₂.xing := comes.plays .xing (by decide)
  have mesh : s₃.mesh = s₂.mesh := comes.plays .mesh (by decide)
  obtain ⟨m₁, t, start, started, plays, frame, sent⟩ : ∃ m₁ t, startMoveOf p' tile code m' s₃ = .run m₁ t ∧ m₁.started = true ∧ t.plays = s₃.plays ∧
      OnlyChanges [.mesh] s₃ t ∧ t.mesh = s₃.mesh ++ (if wf m.word 68 3 = 2 then tilesOf p.org p.shape else [wf m.word 78 11]).map (tiePacket tile code m.word) := by
    rw [startMoveOf_tie (by rw [comes.word]; exact common) s₃ op', startTie, comes.word]
    dsimp only
    rw [if_neg (by rw [formed]; decide), if_neg (by
      rw [xingClosed_of_xing xing, xingClosed_of_xing xing, Bool.and_eq_true]
      exact fun both => ne_true_of_eq_false opened both.2), if_neg remote]
    by_cases all : wf m.word 68 3 = 2
    · rw [if_pos all, if_pos all, comes.org, comes.shape]
      refine ⟨_, _, rfl, rfl, ?_⟩
      rw [foldl_meshPut (.queue tile code) (fun t => .tie (wf m.word 68 3) t (wf m.word 71 7) (BitVec.ofNat 32 (wf m.word 89 32)) tile code)]
      exact ⟨rfl, only_mesh (.refl _ _) _ (by decide), rfl⟩
    · rw [if_neg all, if_neg all]
      exact ⟨_, _, rfl, rfl, rfl, only_mesh (.refl _ _) _ (by decide), rfl⟩
  rw [start] at runs
  have after := applied_frame p' tile code m' m₁ t s₃
  refine ⟨_, runs, comes.runs started plays, ((comes.plays.mono (by decide)).step frame (by decide)).step after (by decide), ?_⟩
  rw [show (applyStart p' tile code 0 m' (.run m₁ t) s₃).2.mesh = t.mesh from after .mesh (by decide), sent, mesh]

/-! ### WAIT -/

theorem waitOk_eq {m' : QMove} (word : m'.word = m.word) {s₃ : State} (knots : s₃.knots = s₂.knots) :
    waitOk s₃ tile m'.word = waitMet (knot s₂ (tileKnot tile (wf m.word 68 7))) (BitVec.ofNat 32 (wf m.word 75 32)) := by
  rw [waitOk, knot_of_knots knots, word]
  rfl

theorem wait_satisfied (h : AtHead (.wait tile) p tile code m s s₂) (sxt : code = 1 → sxtOf p tile = none) (common : encCommon m.word = true)
    (formed : encWait m.word = true) (met : waitMet (knot s₂ (tileKnot tile (wf m.word 68 7))) (BitVec.ofNat 32 (wf m.word 75 32)) = true) :
    exec (.wait tile) s = .next (noteAll (makeTie p tile m.word (noteStart p.order tile m s₂ (dropMove p.order tile code 0 s₂)))) := by
  obtain ⟨p', m', s₃, comes, op, op', runs⟩ := h.knotMove rfl (by decide) sxt
  have start : startMoveOf p' tile code m' s₃ = .done s₃ := by
    rw [startMoveOf_wait (by rw [comes.word]; exact common) s₃ op', startWait, if_neg (by rw [comes.word, formed]; decide),
      if_pos (by rw [waitOk_eq comes.word comes.knots]; exact met)]
  have done := comes.done op s₂.knots
  rw [show ({ s₃ with knots := s₂.knots } : State) = s₃ by rw [← comes.knots]] at done
  rw [runs, start, done]

theorem wait_runs (h : AtHead (.wait tile) p tile code m s s₂) (sxt : code = 1 → sxtOf p tile = none) (common : encCommon m.word = true)
    (formed : encWait m.word = true) (unmet : waitMet (knot s₂ (tileKnot tile (wf m.word 68 7))) (BitVec.ofNat 32 (wf m.word 75 32)) = false) :
    ∃ t, exec (.wait tile) s = .next t ∧ RunsAtHead t p.order tile code ∧ OnlyChanges [.plays] s₂ t := by
  obtain ⟨p', m', s₃, comes, op, op', runs⟩ := h.knotMove rfl (by decide) sxt
  have start : startMoveOf p' tile code m' s₃ = .run { m' with started := true, since := beatNo (routerCt s₃ tile) } s₃ := by
    rw [startMoveOf_wait (by rw [comes.word]; exact common) s₃ op', startWait, if_neg (by rw [comes.word, formed]; decide),
      if_neg (by rw [waitOk_eq comes.word comes.knots, unmet]; decide)]
  rw [start] at runs
  exact ⟨_, runs, comes.runs rfl rfl, comes.plays.step (applied_frame p' tile code m' _ s₃ s₃) (by decide)⟩

/-! ### IFRAME -/

/-- The play whose queue holds another frame. -/
def Play.setFrame (p : Play) (tile code : Nat) (f : Frame) : Play := p.onQueue tile code fun q => { q with frame := f }

/-- A play's queue stands empty, with the frame that an IFRAME gave it. -/
def StandsFramed (order tile code : Nat) (f : Frame) (s : State) : Prop :=
  ∃ y x, getPlay s order = some y ∧ getQueue y tile code = some x ∧ x.frame = f ∧ x.moves = []

section
variable {order : Nat} {f : Frame} {t : State}

theorem StandsFramed.of_plays {u : State} (stands : StandsFramed order tile code f t) (plays : u.plays = t.plays) : StandsFramed order tile code f u := by
  obtain ⟨y, x, found, rest⟩ := stands
  exact ⟨y, x, (getPlay_of_plays plays order).trans found, rest⟩

theorem StandsFramed.setSame {p q : Play} (stands : StandsFramed order tile code f t) (found : getPlay t order = some p) (named : q.order = p.order)
    (queues : q.queues = p.queues) : StandsFramed order tile code f (setPlay q t) := by
  obtain ⟨y, x, held, queue, frame, empty⟩ := stands
  rw [held] at found
  cases found
  have named' : q.order = order := named.trans (order_of_getPlay held)
  refine ⟨q, x, ?_, ?_, frame, empty⟩
  · rw [← named'] at held ⊢
    exact getPlay_setPlay held
  · unfold getQueue
    rw [queues]
    exact queue

theorem StandsFramed.noteStart (stands : StandsFramed order tile code f t) (tile' : Nat) (m : QMove) (s₀ : State) :
    StandsFramed order tile code f (noteStart order tile' m s₀ t) := by
  unfold Machine.noteStart
  split
  · exact stands
  · next q held => exact stands.setSame held rfl rfl

theorem StandsFramed.noteAll (stands : StandsFramed order tile code f t) : StandsFramed order tile code f (noteAll t) := by
  obtain ⟨y, x, found, queue, frame, empty⟩ := stands
  refine ⟨notedPlay t y, notedQueue t x, by rw [getPlay_noteAll, found]; rfl, by rw [getQueue_notedPlay, queue]; rfl, ?_, ?_⟩
  · unfold notedQueue
    split
    · exact frame
    · exact frame
  · unfold notedQueue
    split
    · exact (congrArg (List.map (noteHits t)) empty).trans rfl
    · exact empty

end

theorem iframe_acts (h : AtHead (.iframe tile) p tile code m s s₂) (sxt : code = 1 → sxtOf p tile = none) (common : encCommon m.word = true)
    (formed : encIframe m.word = true) : ∃ t y x, exec (.iframe tile) s = .next t ∧ getPlay t p.order = some y ∧ getQueue y tile code = some x ∧
      x.frame = frameOf m.word ∧ x.moves = [] ∧ OnlyChanges [.plays, .knots] s₂ t := by
  obtain ⟨p', m', s₃, comes, op, op', runs⟩ := h.knotMove rfl (by decide) sxt
  have play : getPlay s₃ p'.order = some p' := by rw [comes.order]; exact comes.play
  have framed : modQueue p'.order tile code (fun q => { q with frame := frameOf m.word }) s₃ = setPlay (p'.setFrame tile code (frameOf m.word)) s₃ :=
    modQueue_eq play tile code _
  have start : startMoveOf p' tile code m' s₃ = .done (setPlay (p'.setFrame tile code (frameOf m.word)) s₃) := by
    rw [startMoveOf_iframe (by rw [comes.word]; exact common) s₃ op', startIframe, comes.word, if_neg (by rw [formed]; decide), framed]
  have framedPlay : getPlay (setPlay (p'.setFrame tile code (frameOf m.word)) s₃) (p'.setFrame tile code (frameOf m.word)).order =
      some (p'.setFrame tile code (frameOf m.word)) := getPlay_setPlay (q := p'.setFrame tile code (frameOf m.word)) play
  have dropped : StandsFramed p'.order tile code (frameOf m.word) (dropMove p'.order tile code 0 (setPlay (p'.setFrame tile code (frameOf m.word)) s₃)) := by
    obtain ⟨x, k, queue, only⟩ := comes.queue
    have left : dropMove p'.order tile code 0 (setPlay (p'.setFrame tile code (frameOf m.word)) s₃) =
        setPlay ((p'.setFrame tile code (frameOf m.word)).dropFirst tile code) (setPlay (p'.setFrame tile code (frameOf m.word)) s₃) :=
      modQueue_eq framedPlay tile code _
    rw [left]
    refine ⟨_, _, getPlay_setPlay (q := (p'.setFrame tile code (frameOf m.word)).dropFirst tile code) framedPlay,
      getQueue_onQueue (getQueue_onQueue queue fun _ => ⟨rfl, rfl⟩) fun _ => ⟨rfl, rfl⟩, rfl, ?_⟩
    dsimp only
    rw [only]
    rfl
  have change_ := (comes.plays.step (setPlay_frame (p'.setFrame tile code (frameOf m.word)) s₃) (by decide)).step
    (dropMove_frame p'.order tile code 0 _) (by decide)
  rw [runs, start, ← comes.order]
  have noted := ((dropped.noteStart tile m' s₃).of_plays (u := makeTie p' tile m'.word (Machine.noteStart p'.order tile m' s₃
    (dropMove p'.order tile code 0 (setPlay (p'.setFrame tile code (frameOf m.word)) s₃)))) ((makeTie_frame _ _ _ _) .plays (by decide))).noteAll
  obtain ⟨y, x, found, queue, frame, empty⟩ := noted
  exact ⟨_, y, x, rfl, found, queue, frame, empty, (((change_.step (noteStart_frame _ _ _ _ _) (by decide)).mono (by decide)).step
    (makeTie_frame _ _ _ _) (by decide)).step (noteAll_frame _) (by decide)⟩

/-! ### Ill-formed words -/

theorem knotMove_fails {o l : Nat} (h : AtHead c p tile code m s s₂) (row : moveRow c = some (o, l, .none)) (op : o ∈ [0x03, 0x04, 0x05, 0x07])
    (sxt : code = 1 → sxtOf p tile = none)
    (bad : ∀ (p' : Play) (m' : QMove) (s₃ : State), m'.word = m.word → opOf m'.word = o → startMoveOf p' tile code m' s₃ = .fail Status.moveField s₃) :
    FailsWith c p tile m Status.moveField s s₂ := by
  obtain ⟨p', m', s₃, comes, -, op', runs⟩ := h.knotMove row op sxt
  rw [bad p' m' s₃ comes.word op'] at runs
  exact comes.fails runs

theorem startMoveOf_bad {enc : Bool} {start : State → Start} (both : (encCommon m.word && enc) = false)
    (formed : encCommon m.word = true → startMoveOf p tile code m s = start s) (fails : enc = false → start s = .fail Status.moveField s) :
    startMoveOf p tile code m s = .fail Status.moveField s := by
  rcases Bool.and_eq_false_iff.1 both with common | own
  · exact startMoveOf_common common s
  · by_cases common : encCommon m.word = true
    · rw [formed common, fails own]
    · exact startMoveOf_common (eq_false_of_ne_true common) s

end

theorem knotMoves : Claim.KnotMoves := by
  intro p tile code m s s₂ sxt w done k v shut packet
  refine ⟨fun h common formed => kset_acts h sxt common formed, fun h common formed own => tie_own h sxt common formed own,
    fun h common formed remote opened => tie_remote h sxt common formed remote opened, fun h common formed remote closed => tie_shut h sxt common formed remote closed,
    fun h common formed => ⟨wait_satisfied h sxt common formed, wait_runs h sxt common formed⟩, fun h common formed => iframe_acts h sxt common formed,
    fun c enc listed h bad => ?_⟩
  simp only [List.mem_cons, Prod.mk.injEq, List.not_mem_nil, or_false] at listed
  rcases listed with ⟨rfl, rfl⟩ | ⟨rfl, rfl⟩ | ⟨rfl, rfl⟩ | ⟨rfl, rfl⟩
  · refine knotMove_fails h rfl (by decide) sxt fun p' m' s₃ word op => startMoveOf_bad (start := startKset tile m') (enc := encKset m'.word) (by rw [word]; exact bad)
      (fun common => startMoveOf_kset common s₃ op) fun no => if_pos (by rw [no]; rfl)
  · refine knotMove_fails h rfl (by decide) sxt fun p' m' s₃ word op => startMoveOf_bad (start := startTie p' tile code m') (enc := encTie m'.word) (by rw [word]; exact bad)
      (fun common => startMoveOf_tie common s₃ op) fun no => if_pos (by rw [no]; rfl)
  · refine knotMove_fails h rfl (by decide) sxt fun p' m' s₃ word op => startMoveOf_bad (start := startWait tile m') (enc := encWait m'.word) (by rw [word]; exact bad)
      (fun common => startMoveOf_wait common s₃ op) fun no => if_pos (by rw [no]; rfl)
  · refine knotMove_fails h rfl (by decide) sxt fun p' m' s₃ word op => startMoveOf_bad (start := startIframe p' tile code m') (enc := encIframe m'.word)
      (by rw [word]; exact bad) (fun common => startMoveOf_iframe common s₃ op) fun no => if_pos (by rw [no]; rfl)

/-- Settles O30. -/
theorem sequencerAndKnotMoves : Obligations.SequencerAndKnotMoves := ⟨sequencerMoves, completionTies, knotMoves, knotsCount⟩

end Sys2Proof.Machine
end

section
/-! SUPPORT. What leaves the cadence receiver and the standby alone (R477, R478): one lemma per function that changes `rel` elsewhere, along the function's frame. -/

namespace Sys2Proof.Machine

/-- The cadence, the standby's receiver and which control complexes serve are as before. -/
structure Steady (s t : State) : Prop where
  cad : t.cad = s.cad
  failed : t.rel.ccFailed = s.rel.ccFailed
  standby : t.rel.standby = s.rel.standby
  receiver : t.rel.receiver = s.rel.receiver

section
variable {α : Type} {m : List Part} {s t u : State}

theorem Steady.refl (s : State) : Steady s s := ⟨rfl, rfl, rfl, rfl⟩

theorem Steady.trans (h : Steady s t) (k : Steady t u) : Steady s u :=
  ⟨k.cad.trans h.cad, k.failed.trans h.failed, k.standby.trans h.standby, k.receiver.trans h.receiver⟩

/-- A frame without the cadence and without `rel`. -/
theorem Steady.step (h : Steady s t) (k : OnlyChanges m t u) (away : Part.cad ∉ m ∧ Part.rel ∉ m) : Steady s u :=
  have rel : u.rel = t.rel := k .rel away.2
  h.trans ⟨k .cad away.1, congrArg Rel.ccFailed rel, congrArg Rel.standby rel, congrArg Rel.receiver rel⟩

theorem Steady.fold {f : State → α → State} {xs : List α} (h : Steady s t) (k : ∀ u x, Steady s u → Steady s (f u x)) : Steady s (xs.foldl f t) := by
  induction xs generalizing t with
  | nil => exact h
  | cons x r ih => exact ih (k t x h)

theorem Steady.ite {c : Prop} [Decidable c] (h : Steady s t) (k : Steady s u) : Steady s (if c then t else u) := by
  split
  · exact h
  · exact k

/-! ### Along the results that carry a state -/

section
variable {P Q : State → Prop}

theorem sndAll_imp {x : α × State} (h : ∀ u, P u → Q u) (k : sndAll P x) : sndAll Q x := h _ k

theorem optAll_imp {x : Option State} (h : ∀ u, P u → Q u) (k : optAll P x) : optAll Q x := by
  cases x with
  | none => trivial
  | some u => exact h u k

theorem optSndAll_imp {x : Option (α × State)} (h : ∀ u, P u → Q u) (k : optSndAll P x) : optSndAll Q x := by
  cases x with
  | none => trivial
  | some u => exact h u.2 k

theorem fetchAll_imp {x : Fetch} (h : ∀ u, P u → Q u) (k : fetchAll P x) : fetchAll Q x := by
  cases x with
  | word w u => exact h u k
  | fail st u => exact h u k
  | bad u => exact h u k
  | stopped => trivial
  | wait => trivial

theorem startAll_imp {x : Start} (h : ∀ u, P u → Q u) (k : startAll P x) : startAll Q x := by
  cases x with
  | run n u => exact h u k
  | done u => exact h u k
  | fail st u => exact h u k
  | fault c u => exact h u k
  | hold => trivial

theorem unitAll_imp {x : UnitRes α} (h : ∀ u, P u → Q u) (k : unitAll P x) : unitAll Q x := by
  cases x with
  | ok y u => exact h u k
  | stop st u => exact h u k
  | bad u => exact h u k

theorem arrAll_imp {x : Arrival} (h : ∀ u, P u → Q u) (k : arrAll P x) : arrAll Q x := by
  cases x with
  | none => trivial
  | lost u => exact h u k
  | got y u => exact h u k

theorem outAll_imp {x : Out} (h : ∀ u, P u → Q u) (k : outAll P x) : outAll Q x := by
  cases x with
  | next u => exact h u k
  | _ => trivial

end

theorem Steady.transSnd {x : α × State} (h : Steady s t) (k : sndAll (Steady t) x) : sndAll (Steady s) x :=
  sndAll_imp (fun _ => h.trans) k

theorem Steady.stepSnd {x : α × State} (h : Steady s t) (k : sndAll (OnlyChanges m t) x) (away : Part.cad ∉ m ∧ Part.rel ∉ m) :
    sndAll (Steady s) x :=
  sndAll_imp (fun _ f => h.step f away) k

theorem Steady.stepOpt {x : Option State} (h : Steady s t) (k : optAll (OnlyChanges m t) x) (away : Part.cad ∉ m ∧ Part.rel ∉ m) :
    optAll (Steady s) x :=
  optAll_imp (fun _ f => h.step f away) k

theorem Steady.stepOptSnd {x : Option (α × State)} (h : Steady s t) (k : optSndAll (OnlyChanges m t) x) (away : Part.cad ∉ m ∧ Part.rel ∉ m) :
    optSndAll (Steady s) x :=
  optSndAll_imp (fun _ f => h.step f away) k

theorem Steady.stepFetch {x : Fetch} (h : Steady s t) (k : fetchAll (OnlyChanges m t) x) (away : Part.cad ∉ m ∧ Part.rel ∉ m) :
    fetchAll (Steady s) x :=
  fetchAll_imp (fun _ f => h.step f away) k

theorem Steady.transStart {x : Start} (h : Steady s t) (k : startAll (Steady t) x) : startAll (Steady s) x :=
  startAll_imp (fun _ => h.trans) k

theorem Steady.stepStart {x : Start} (h : Steady s t) (k : startAll (OnlyChanges m t) x) (away : Part.cad ∉ m ∧ Part.rel ∉ m) :
    startAll (Steady s) x :=
  startAll_imp (fun _ f => h.step f away) k

theorem Steady.transUnit {x : UnitRes α} (h : Steady s t) (k : unitAll (Steady t) x) : unitAll (Steady s) x :=
  unitAll_imp (fun _ => h.trans) k

theorem Steady.stepUnit {x : UnitRes α} (h : Steady s t) (k : unitAll (OnlyChanges m t) x) (away : Part.cad ∉ m ∧ Part.rel ∉ m) :
    unitAll (Steady s) x :=
  unitAll_imp (fun _ f => h.step f away) k

theorem Steady.transArr {x : Arrival} (h : Steady s t) (k : arrAll (Steady t) x) : arrAll (Steady s) x :=
  arrAll_imp (fun _ => h.trans) k

theorem Steady.stepOut {x : Out} (h : Steady s t) (k : outAll (OnlyChanges m t) x) (away : Part.cad ∉ m ∧ Part.rel ∉ m) :
    outAll (Steady s) x :=
  outAll_imp (fun _ f => h.step f away) k

/-! ### Along single updates -/

theorem Steady.rel (h : Steady s t) (r : Rel) (failed : r.ccFailed = t.rel.ccFailed) (standby : r.standby = t.rel.standby)
    (receiver : r.receiver = t.rel.receiver) : Steady s { t with rel := r } :=
  h.trans ⟨rfl, failed, standby, receiver⟩

theorem Steady.caches_rel (h : Steady s t) (x : _) (r : Rel) (failed : r.ccFailed = t.rel.ccFailed) (standby : r.standby = t.rel.standby)
    (receiver : r.receiver = t.rel.receiver) : Steady s { t with caches := x, rel := r } :=
  h.trans ⟨rfl, failed, standby, receiver⟩

theorem Steady.only_store (h : Steady s t) (x : _) : Steady s { t with store := x } := h.trans ⟨rfl, rfl, rfl, rfl⟩

theorem Steady.only_cap (h : Steady s t) (x : _) : Steady s { t with cap := x } := h.trans ⟨rfl, rfl, rfl, rfl⟩

theorem Steady.only_host (h : Steady s t) (x : _) : Steady s { t with host := x } := h.trans ⟨rfl, rfl, rfl, rfl⟩

theorem Steady.only_near (h : Steady s t) (x : _) : Steady s { t with near := x } := h.trans ⟨rfl, rfl, rfl, rfl⟩

theorem Steady.only_sched (h : Steady s t) (x : _) : Steady s { t with sched := x } := h.trans ⟨rfl, rfl, rfl, rfl⟩

theorem Steady.only_power (h : Steady s t) (x : _) : Steady s { t with power := x } := h.trans ⟨rfl, rfl, rfl, rfl⟩

theorem Steady.only_colls (h : Steady s t) (x : _) : Steady s { t with colls := x } := h.trans ⟨rfl, rfl, rfl, rfl⟩

theorem Steady.only_cap_watch (h : Steady s t) (x y : _) : Steady s { t with cap := x, watch := y } := h.trans ⟨rfl, rfl, rfl, rfl⟩

theorem Steady.only_rampQueue_rampLast (h : Steady s t) (x y : _) : Steady s { t with rampQueue := x, rampLast := y } := h.trans ⟨rfl, rfl, rfl, rfl⟩

end

/-! ### The model's functions, in the order of the model -/

theorem journalRecord_steady (s : State) :
    Steady s (journalRecord s) := by
  unfold journalRecord
  refine Steady.ite ?_ ?_
  · refine Steady.rel ?_ _ (by rfl) (by rfl) (by rfl)
    exact Steady.refl _
  · exact Steady.refl _

theorem failCapstan_steady (k : Nat) (s : State) :
    Steady s (failCapstan k s) := by
  unfold failCapstan
  extract_lets x0 x1 x2 x3 x4 x5 x6 x7 x8
  have h9 : Steady s x3 := by
    unfold x3
    exact Steady.only_store (.refl _) _
  have h10 : Steady s x4 := by
    unfold x4
    refine Steady.step ?_ (unsettleCap_frame _ _) (by decide)
    refine Steady.step ?_ (clearCapKnots_frame _ _) (by decide)
    refine Steady.ite ?_ ?_
    · refine Steady.step ?_ (loseSums_frame _ _) (by decide)
      assumption
    · assumption
  have h11 : Steady s x6 := by
    unfold x6
    refine Steady.ite ?_ ?_
    · refine Steady.fold ?_ (fun u12 y13 h14 => ?_)
      · refine Steady.rel ?_ _ (by rfl) (by rfl) (by rfl)
        assumption
      · refine Steady.step ?_ (freeBank_frame _ _ _) (by decide)
        assumption
    · assumption
  have h15 : ∀ a16 a17, Steady s a17 → Steady s (x7 a16 a17) := by
    intro b18 b19 k20
    unfold x7
    refine Steady.step ?_ (ledgerRec_frame _ _ _ _ _ _ _ _) (by decide)
    assumption
  clear_value x0 x1 x2 x3 x4 x5 x6 x7
  split
  · apply h15
    · refine Steady.step ?_ (setCapstan_frame _ _ _) (by decide)
      refine Steady.trans ?_ (journalRecord_steady _)
      assumption
  · apply h15
    · refine Steady.step ?_ (post_frame _ _ _) (by decide)
      refine Steady.step ?_ (setCapstan_frame _ _ _) (by decide)
      refine Steady.rel ?_ _ (by rfl) (by rfl) (by rfl)
      assumption

theorem needSplice_steady (n : Nat) (chan : Byte) (cls : Nat) (s : State) :
    Steady s (needSplice n chan cls s) := by
  unfold needSplice
  extract_lets x0 x1 x2 x3 x4
  have h5 : Steady s x2 := by
    unfold x2
    exact Steady.step (.refl _) (setStack_frame _ _ _) (by decide)
  have h6 : Steady s x4 := by
    unfold x4
    refine Steady.step ?_ (setStack_frame _ _ _) (by decide)
    exact Steady.rel (.refl _) _ (by rfl) (by rfl) (by rfl)
  clear_value x0 x1 x2 x3 x4
  refine Steady.ite ?_ ?_
  · exact Steady.refl _
  · refine Steady.ite ?_ ?_
    · refine Steady.step ?_ (ledgerRec_frame _ _ _ _ _ _ _ _) (by decide)
      refine Steady.step ?_ (postFull_frame _ _ _ _ _ _ _) (by decide)
      assumption
    · refine Steady.step ?_ (ledgerRec_frame _ _ _ _ _ _ _ _) (by decide)
      refine Steady.step ?_ (post_frame _ _ _) (by decide)
      assumption

theorem startMigration_steady (n : Nat) (c : Nat) (s : State) :
    Steady s (startMigration n c s) := by
  unfold startMigration
  extract_lets x0
  clear_value x0
  refine Steady.ite ?_ ?_
  · refine Steady.step ?_ (postMigrate_frame _ _ _ _) (by decide)
    exact Steady.step (.refl _) (setStack_frame _ _ _) (by decide)
  · refine Steady.trans ?_ (needSplice_steady _ _ _ _)
    exact Steady.refl _

theorem needMigration_steady (n : Nat) (c : Nat) (s : State) :
    Steady s (needMigration n c s) := by
  unfold needMigration
  extract_lets x0
  clear_value x0
  refine Steady.ite ?_ ?_
  · exact Steady.refl _
  · split
    · refine Steady.ite ?_ ?_
      · exact Steady.refl _
      · refine Steady.step ?_ (setStack_frame _ _ _) (by decide)
        exact Steady.refl _
    · exact Steady.trans (.refl _) (startMigration_steady _ _ _)

theorem repairRim_steady (k : Nat) (row : Nat) (s : State) :
    Steady s (repairRim k row s) := by
  unfold repairRim
  extract_lets x0 x1 x2 x3
  have h4 : Steady s x2 := by
    unfold x2
    exact Steady.step (.refl _) (setCapstan_frame _ _ _) (by decide)
  clear_value x0 x1 x2 x3
  refine Steady.ite ?_ ?_
  · refine Steady.step ?_ (ledgerRec_frame _ _ _ _ _ _ _ _) (by decide)
    refine Steady.only_store ?_ _
    assumption
  · refine Steady.trans ?_ (failCapstan_steady _ _)
    exact Steady.step (.refl _) (ledgerRec_frame _ _ _ _ _ _ _ _) (by decide)

theorem rimFinds_steady (k : Nat) (unit : Nat) (row : Nat) (r : ArrayRead) (s : State) :
    Steady s (rimFinds k unit row r s) := by
  unfold rimFinds
  split
  · exact Steady.refl _
  · refine Steady.trans ?_ (repairRim_steady _ _ _)
    exact Steady.step (.refl _) (rimBad_frame _ _ _) (by decide)
  · extract_lets x3 x4 x5 x6
    have h7 : Steady s x5 := by
      unfold x5
      exact Steady.step (.refl _) (setCapstan_frame _ _ _) (by decide)
    have h8 : Steady s x6 := by
      unfold x6
      refine Steady.step ?_ (record_frame _ _ _ _ _ _ _ _ _ _) (by decide)
      assumption
    clear_value x3 x4 x5 x6
    refine Steady.ite ?_ ?_
    · refine Steady.trans ?_ (repairRim_steady _ _ _)
      assumption
    · assumption

theorem rimAt_steady (a : Nat) (row : Nat) (r : ArrayRead) (s : State) :
    Steady s (rimAt a row r s) := by
  unfold rimAt
  refine Steady.ite ?_ ?_
  · refine Steady.trans ?_ (rimFinds_steady _ _ _ _ _)
    exact Steady.refl _
  · refine Steady.ite ?_ ?_
    · refine Steady.trans ?_ (rimFinds_steady _ _ _ _ _)
      exact Steady.refl _
    · exact Steady.refl _

theorem suspectTile_steady (phys : Nat) (cls : Nat) (s : State) : Steady s (suspectTile phys cls s) := by
  unfold suspectTile
  extract_lets turn old again row r
  split
  · exact Steady.rel (.refl _) _ rfl rfl rfl
  · exact Steady.rel (.refl _) _ rfl rfl rfl

theorem countRetry_steady (u : W32) (s : State) : sndAll (Steady s) (countRetry u s) := ⟨rfl, rfl, rfl, rfl⟩

theorem parityPersists_steady (p : ParityPlace) (s : State) :
    Steady s (parityPersists p s) := by
  unfold parityPersists
  split
  · exact Steady.trans (.refl _) (suspectTile_steady _ _ _)
  · exact Steady.trans (.refl _) (suspectTile_steady _ _ _)
  · refine elim_of (P := (Steady s)) ?_ (fun y7 => ?_)
    · exact Steady.refl _
    · refine Steady.trans ?_ (needMigration_steady _ _ _)
      exact Steady.refl _
  · extract_lets x10
    clear_value x10
    refine Steady.trans ?_ (failCapstan_steady _ _)
    exact Steady.trans (.refl _) (suspectTile_steady _ _ _)

theorem parityMeets_steady (p : ParityPlace) (w : DataWord) (origin : Nat) (play : W32) (step : W32) (s : State) :
    sndAll (Steady s) (parityMeets p w origin play step s) := by
  unfold parityMeets
  split
  · split
    · split
      · rename_i v5 v6 v7 v8
        refine absorb (P := sndAll (Steady s)) v8 ?_ (fun q9 => ?_)
        · refine Steady.transSnd ?_ (countRetry_steady _ _)
          exact Steady.step (.refl _) (record_frame _ _ _ _ _ _ _ _ _ _) (by decide)
        refine sndAll_mk ?_
        refine Steady.ite ?_ ?_
        · refine Steady.trans ?_ (parityPersists_steady _ _)
          assumption
        · assumption
    · split
      · rename_i v11 v12 v13 v14
        refine absorb (P := sndAll (Steady s)) v14 ?_ (fun q15 => ?_)
        · refine Steady.stepSnd ?_ (parityFails_frame _ _) (by decide)
          exact Steady.step (.refl _) (record_frame _ _ _ _ _ _ _ _ _ _) (by decide)
        refine sndAll_mk ?_
        refine Steady.trans ?_ (parityPersists_steady _ _)
        assumption

theorem unitRead_steady (p : Play) (tile : Nat) (f : MoveFault) (a : Nat) (s : State) :
    unitAll (Steady s) (unitRead p tile f a s) := by
  have near (b : Nat) : unitAll (Steady s) (nearUnit p s b) :=
    Steady.stepUnit (Steady.refl s) (nearUnit_frame p s b) (by decide)
  unfold unitRead
  generalize spaceOf a = z
  generalize hintResolve s a = y
  cases z
  case near =>
    dsimp only
    split
    · exact Steady.refl _
    · have c := Steady.stepOptSnd (Steady.refl s) (cacheRead_frame s tile (a / 128)) (by decide)
      generalize cacheRead s tile (a / 128) = r at c
      cases r with
      | some x => exact c
      | none =>
        have k := near a
        generalize nearUnit p s a = r at k
        cases r with
        | ok d t => exact Steady.step k (cacheFill_frame _ _ _ _) (by decide)
        | stop st t => exact k
        | bad t => exact k
  case rim =>
    dsimp only
    split
    · show Steady _ _
      split
      · exact Steady.trans (Steady.refl _) (rimAt_steady _ _ _ _)
      · exact Steady.refl _
    · exact Steady.refl _
  case hint =>
    cases y
    case near b =>
      have k := near b
      dsimp only
      generalize nearUnit p s b = r at k
      cases r <;> exact k
    case host =>
      dsimp only
      split
      · exact Steady.step (Steady.refl _) (hostFault_frame _ _ _ _) (by decide)
      · exact Steady.refl _
    case none => exact Steady.refl _
  all_goals exact Steady.refl _

theorem copyUnits_steady (p : Play) (tile : Nat) (m : QMove) (a : List (Nat × Nat)) (a' : List (Nat × Nat × List Byte)) (a'' : State) :
    unitAll (Steady a'') (copyUnits p tile m a a' a'') := by
  induction a generalizing p tile m a' a''
  · unfold copyUnits
    change Steady a'' _
    exact Steady.refl _
  · rename_i w0 w1 ih
    unfold copyUnits
    extract_lets x2
    clear_value x2
    split
    · rename_i v3 v4 v5 v6 v7
      refine absorb (P := unitAll (Steady a'')) v7 ?_ (fun q8 => ?_)
      · refine Steady.transUnit ?_ (unitRead_steady _ _ _ _ _)
        exact Steady.refl _
      split
      · rename_i v9 v10 v11 v12
        refine absorb (P := unitAll (Steady a'')) v12 ?_ (fun q13 =>
            ?_)
        · refine Steady.stepUnit ?_ (unitWrite_frame _ _ _ _ _ _) (by decide)
          assumption
        refine Steady.transUnit ?_ (ih _ _ _ _ _)
        assumption
      · rename_i v14 v15 v16 v17
        refine absorb (P := unitAll (Steady a'')) v17 ?_ (fun q18 =>
            ?_)
        · refine Steady.stepUnit ?_ (unitWrite_frame _ _ _ _ _ _) (by decide)
          assumption
        change Steady a'' _
        assumption
      · rename_i v19 v20 v21
        refine absorb (P := unitAll (Steady a'')) v21 ?_ (fun q22 =>
            ?_)
        · refine Steady.stepUnit ?_ (unitWrite_frame _ _ _ _ _ _) (by decide)
          assumption
        change Steady a'' _
        assumption
    · rename_i v23 v24 v25 v26
      refine absorb (P := unitAll (Steady a'')) v26 ?_ (fun q27 => ?_)
      · refine Steady.transUnit ?_ (unitRead_steady _ _ _ _ _)
        exact Steady.refl _
      change Steady a'' _
      assumption
    · rename_i v28 v29 v30
      refine absorb (P := unitAll (Steady a'')) v30 ?_ (fun q31 => ?_)
      · refine Steady.transUnit ?_ (unitRead_steady _ _ _ _ _)
        exact Steady.refl _
      change Steady a'' _
      assumption

theorem runMove_steady (p : Play) (tile : Nat) (m : QMove) (s : State) : startAll (Steady s) (runMove p tile m s) := by
  unfold runMove
  dsimp only
  refine startAll_mapState (P := Steady { s with hints := m.place }) ?_ fun u h => ⟨h.cad, h.failed, h.standby, h.receiver⟩
  split
  · trivial
  · split
    · exact Steady.refl _
    · have c := copyUnits_steady p tile m (moveUnits m.word) [] { s with hints := m.place }
      split
      · rename_i took t e
        rw [e] at c
        exact Steady.step c (freeOverlap_frame _ _ _ _ _) (by decide)
      · rename_i st t e
        rw [e] at c
        exact c
      · rename_i t e
        rw [e] at c
        exact c

theorem faultMove_steady {s t : State} (p : Play) (tile : Nat) (m : QMove) {lose : Nat → State → Start} (hs : Steady s t)
    (hf : ∀ c u, Steady s u → startAll (Steady s) (lose c u)) : startAll (Steady s) (faultMove p tile m t lose) := by
  have run (u : State) (h : Steady s u) : startAll (Steady s) (runMove p tile m u) := Steady.transStart h (runMove_steady _ _ _ _)
  unfold faultMove
  split
  · rename_i a b e
    have x := Steady.step hs (xingRecordFor_frame p.origin p.id p.step a b false t) (by decide)
    dsimp only
    split
    · exact run _ x
    · exact hf _ _ x
  · rename_i pl w e
    have x : Steady s (parityMeets pl w p.origin p.id p.step t).2 := hs.trans (parityMeets_steady pl w p.origin p.id p.step t)
    dsimp only
    split
    · exact run _ x
    · split
      · exact hf _ _ x
      · exact x
  · exact run _ hs

theorem startMove_steady (p : Play) (tile : Nat) (m : QMove) (s : State) :
    startAll (Steady s) (startMove p tile m s) := by
  unfold startMove
  extract_lets x0
  clear_value x0
  split
  · change Steady s _
    exact Steady.refl _
  · refine faultMove_steady _ _ _ ?_ ?_
    · exact Steady.refl _
    · intro a6 a7 a8
      change Steady s _
      assumption

theorem replayMove_steady (p : Play) (tile : Nat) (m : QMove) (f : MoveFault) (s : State) :
    startAll (Steady s) (replayMove p tile m f s) := by
  unfold replayMove
  split
  · rename_i v0 v1 v2 v3
    refine absorb (P := startAll (Steady s)) v3 ?_ (fun q4 => ?_)
    · refine faultMove_steady _ _ _ ?_ ?_
      · exact Steady.refl _
      · intro a5 a6 a7
        change Steady s _
        assumption
    change Steady s _
    refine Steady.step ?_ (record_frame _ _ _ _ _ _ _ _ _ _) (by decide)
    assumption
  · refine faultMove_steady _ _ _ ?_ ?_
    · exact Steady.refl _
    · intro a10 a11 a12
      change Steady s _
      assumption

theorem crossArrive_steady (x : Source × MeshItem) (t : Transit) (s : State) :
    arrAll (Steady s) (crossArrive x t s) := by
  unfold crossArrive
  split
  · change Steady s _
    exact Steady.step (.refl _) (losePacket_frame _ _ _) (by decide)
  · split
    · split
      · change Steady s _
        exact Steady.refl _
      · change Steady s _
        refine Steady.step ?_ (losePacket_frame _ _ _) (by decide)
        exact Steady.step (.refl _) (xingRecordFor_frame _ _ _ _ _ _ _) (by decide)
      · split
        · rename_i v14 v15 v16 v17
          refine absorb (P := sndAll (Steady s)) v17 ?_
              (fun q18 => ?_)
          · refine Steady.transSnd ?_ (parityMeets_steady _ _ _ _ _ _)
            exact Steady.refl _
          split
          · change Steady s _
            refine Steady.step ?_ (losePacket_frame _ _ _) (by decide)
            assumption
          · change Steady s _
            assumption

theorem meshArrive_steady (x : MeshItem) (t : Transit) (s : State) :
    arrAll (Steady s) (meshArrive x t s) := by
  unfold meshArrive
  split
  · rename_i v0 v1
    refine absorb (P := optSndAll (Steady s)) v1
        ?_ (fun q2 => ?_)
    · refine Steady.stepOptSnd ?_ (meshTake_frame _ _) (by decide)
      exact Steady.refl _
    trivial
  · rename_i v3 v4 v5 v6
    refine absorb (P := optSndAll (Steady s)) v6
        ?_ (fun q7 => ?_)
    · refine Steady.stepOptSnd ?_ (meshTake_frame _ _) (by decide)
      exact Steady.refl _
    refine Steady.transArr ?_ (crossArrive_steady _ _ _)
    assumption

theorem packetArrive_steady (own : Bool) (shape : Nat × Nat) (rts : Nat) (x : MeshItem) (t : Transit) (s : State) :
    arrAll (Steady s) (packetArrive own
        shape rts x t s) := by
  unfold packetArrive
  split
  · exact Steady.transArr (.refl _) (meshArrive_steady _ _ _)
  · split
    · rename_i v2 v3 v4
      refine absorb (P := optAll (Steady s)) v4 ?_ (fun q5 => ?_)
      · refine Steady.stepOpt ?_ (takeItem_frame _ _ _ _) (by decide)
        exact Steady.refl _
      refine Steady.transArr ?_ (crossArrive_steady _ _ _)
      assumption
    · rename_i v6 v7
      refine absorb (P := optAll (Steady s)) v7 ?_ (fun q8 => ?_)
      · refine Steady.stepOpt ?_ (takeItem_frame _ _ _ _) (by decide)
        exact Steady.refl _
      trivial

theorem laneStart_steady (p : Play) (tile : Nat) (m : QMove) (s : State) (r : Start) {u : State} (hs : Steady u s) (hr : startAll (Steady u) r) :
    startAll (Steady u) (laneStart p tile m s r) := by
  have fault := (Steady.step hs (laneResidue_frame (unitOf 0 (physTile s tile)) (BitVec.ofNat 32 tile) p.origin p.id p.step false s) (by decide)).trans
    (suspectTile_steady (physTile s tile) 3 _)
  unfold laneStart
  dsimp only
  split
  · exact Steady.step hr (laneResidue_frame _ _ _ _ _ _ _) (by decide)
  · exact Steady.step hr (laneResidue_frame _ _ _ _ _ _ _) (by decide)
  · exact fault
  · exact fault
  · exact hr

theorem parityStart_steady {s t : State} (p : Play) (m : QMove) {f : State → Start} (hs : Steady s t)
    (hf : ∀ u, Steady s u → startAll (Steady s) (f u)) : startAll (Steady s) (parityStart p m f t) := by
  have r := hf t hs
  have meet (pl : ParityPlace) (w : DataWord) : startAll (Steady s)
      (if (parityMeets pl w p.origin p.id p.step t).1 then .fault 1 (parityMeets pl w p.origin p.id p.step t).2
       else f (parityMeets pl w p.origin p.id p.step t).2) := by
    have x : Steady s (parityMeets pl w p.origin p.id p.step t).2 := hs.trans (parityMeets_steady pl w p.origin p.id p.step t)
    split
    · exact x
    · exact hf _ x
  unfold parityStart
  dsimp only
  split
  · rename_i e
    rw [e] at r
    split
    · exact r
    · exact meet _ _
  · rename_i e
    rw [e] at r
    split
    · exact r
    · exact meet _ _
  · exact r

theorem startMoveOf_steady (p : Play) (tile : Nat) (code : Nat) (m : QMove) (s : State) :
    startAll (Steady s) (startMoveOf p tile code m s) := by
  unfold startMoveOf
  split
  · change Steady s _
    exact Steady.refl _
  · split
    · exact Steady.stepStart (.refl _) (startTie_frame _ _ _ _ _) (by decide)
    · exact Steady.stepStart (.refl _) (startWait_frame _ _ _) (by decide)
    · exact Steady.stepStart (.refl _) (startKset_frame _ _ _) (by decide)
    · exact Steady.stepStart (.refl _) (startIframe_frame _ _ _ _ _) (by decide)
    · exact Steady.stepStart (.refl _) (startLoadw_frame _ _ _) (by decide)
    · exact Steady.stepStart (.refl _) (startSwapw_frame _ _ _) (by decide)
    · exact Steady.stepStart (.refl _) (startStream_frame _ _ _) (by decide)
    · exact Steady.stepStart (.refl _) (startElem_frame _ _ _ _) (by decide)
    · exact Steady.stepStart (.refl _) (startGroup_frame _ _ _ _ _) (by decide)
    · exact Steady.stepStart (.refl _) (startGroup_frame _ _ _ _ _) (by decide)
    · exact Steady.stepStart (.refl _) (startGroup_frame _ _ _ _ _) (by decide)
    · exact Steady.stepStart (.refl _) (startTopk_frame _ _ _ _) (by decide)
    · exact Steady.stepStart (.refl _) (startGather_frame _ _ _ _ _) (by decide)
    · exact Steady.stepStart (.refl _) (startGather_frame _ _ _ _ _) (by decide)
    · exact Steady.stepStart (.refl _) (startGather_frame _ _ _ _ _) (by decide)
    · exact Steady.stepStart (.refl _) (startPack_frame _ _ _ _) (by decide)
    · exact Steady.stepStart (.refl _) (startGroup_frame _ _ _ _ _) (by decide)
    · exact Steady.transStart (.refl _) (startMove_steady _ _ _ _)
    · exact Steady.stepStart (.refl _) (startInval_frame _ _ _) (by decide)
    · exact Steady.stepStart (.refl _) (startDispatch_frame _ _ _ _) (by decide)
    · exact Steady.stepStart (.refl _) (startCombine_frame _ _ _ _) (by decide)
    · change Steady s _
      exact Steady.refl _

theorem startAny_steady (p : Play) (tile : Nat) (code : Nat) (m : QMove) (s : State) : startAll (Steady s) (startAny p tile code m s) := by
  unfold startAny
  exact parityStart_steady _ _ (.refl _) fun u h => laneStart_steady _ _ _ _ _ h (h.transStart (startMoveOf_steady _ _ _ _ _))

theorem applyStart_steady {s t : State} {p : Play} {tile code pos : Nat} {m : QMove} {r : Start} (hs : Steady s t) (hr : startAll (Steady s) r) :
    sndAll (Steady s) (applyStart p tile code pos m r t) := by
  unfold applyStart
  cases r with
  | hold => exact hs
  | run m' u =>
    have put := (Steady.step hr (putMove_frame p.order tile code pos m' u) (by decide)).step (addDests_frame p.order (startDests p tile m' t) _) (by decide)
    exact (put.step (noteStart_frame _ _ _ _ _) (by decide)).step (noteAll_frame _) (by decide)
  | done u =>
    have noted := (Steady.step hr (dropMove_frame p.order tile code pos u) (by decide)).step (noteStart_frame p.order tile m t _) (by decide)
    exact (noted.step (makeTie_frame _ _ _ _) (by decide)).step (noteAll_frame _) (by decide)
  | fail st u => exact (Steady.step hr (addDests_frame _ _ _) (by decide)).step (failPlay_frame _ _ _) (by decide)
  | fault c u => exact (Steady.step hr (addDests_frame _ _ _) (by decide)).step (faultPlay_frame _ _ _ _) (by decide)

theorem pumpHead_steady (order : Nat) (tile : Nat) (code : Nat) (a : Nat) (a' : State) :
    Steady a' (pumpHead order tile code a a') := by
  induction a generalizing order tile code a'
  · unfold pumpHead
    exact Steady.refl _
  · rename_i w0 ih
    unfold pumpHead
    split
    · exact Steady.refl _
    · split
      · exact Steady.refl _
      · split
        · exact Steady.refl _
        · refine Steady.ite ?_ ?_
          · exact Steady.refl _
          · extract_lets x17
            clear_value x17
            split
            · rename_i v18 v19 v20 v21
              refine absorb (P := sndAll (Steady a')) v21 ?_ (fun q22 => ?_)
              · refine applyStart_steady ?_ ?_
                · exact Steady.refl _
                · refine Steady.transStart ?_ (startAny_steady _ _ _ _ _)
                  exact Steady.refl _
              refine Steady.ite ?_ ?_
              · refine Steady.trans ?_ (ih _ _ _ _)
                assumption
              · assumption

theorem pumpArr_steady (order : Nat) (tile : Nat) (a : Nat) (a' : State) :
    Steady a' (pumpArr order tile a a') := by
  induction a generalizing order tile a'
  · unfold pumpArr
    exact Steady.refl _
  · rename_i w0 ih
    unfold pumpArr
    split
    · exact Steady.refl _
    · split
      · exact Steady.refl _
      · split
        · exact Steady.refl _
        · refine Steady.ite ?_ ?_
          · exact Steady.refl _
          · split
            · rename_i v17 v18 v19 v20
              refine absorb (P := sndAll (Steady a')) v20 ?_ (fun q21 => ?_)
              · split
                · refine applyStart_steady ?_ ?_
                  · exact Steady.refl _
                  · refine Steady.transStart ?_ (startAny_steady _ _ _ _ _)
                    exact Steady.refl _
                · exact Steady.stepSnd (.refl _) (issueArr_frame _ _ _ _ _ _) (by decide)
              refine Steady.ite ?_ ?_
              · refine Steady.trans ?_ (ih _ _ _)
                assumption
              · assumption

theorem pump_steady (order : Nat) (tile : Nat) (code : Nat) (s : State) :
    Steady s (pump order tile code s) := by
  unfold pump
  refine Steady.ite ?_ ?_
  · refine Steady.trans ?_ (pumpArr_steady _ _ _ _)
    exact Steady.step (.refl _) (resumeArr_frame _ _ _) (by decide)
  · refine Steady.trans ?_ (pumpHead_steady _ _ _ _ _)
    exact Steady.refl _

theorem pumpAll_steady (s : State) :
    Steady s (pumpAll s) := by
  unfold pumpAll
  refine Steady.fold ?_ (fun u0 y1 h2 => ?_)
  · exact Steady.refl _
  · refine Steady.fold ?_ (fun u3 y4 h5 => ?_)
    · assumption
    · refine Steady.ite ?_ ?_
      · assumption
      · refine Steady.trans ?_ (pump_steady _ _ _ _)
        assumption

theorem enqueue_steady (p : Play) (tile : Nat) (code : Nat) (m : QMove) (s : State) :
    Steady s (enqueue p tile code m s) := by
  unfold enqueue
  refine Steady.trans ?_ (pump_steady _ _ _ _)
  refine Steady.step ?_ (modQueue_frame _ _ _ _ _) (by decide)
  exact Steady.step (.refl _) (stepSeq_frame _ _ _) (by decide)

theorem dispatchRow_steady (op : Nat) (tile : Nat) (f : MoveFault) (s0 : State) :
    Steady s0 (dispatchRow op tile f s0) := by
  unfold dispatchRow
  split
  · exact Steady.refl _
  · extract_lets x6 x7
    have h8 : ∀ a9 a10 a11, Steady s0 a11 → Steady s0 (x6 a9 a10 a11) := by
      intro b12 b13 b14 k15
      unfold x6
      refine Steady.step ?_ (failPlay_frame _ _ _) (by decide)
      assumption
    clear_value x6 x7
    split
    · rename_i v16 v17 v18 v19
      refine absorb (P := fetchAll (Steady s0)) v19 ?_ (fun q20 => ?_)
      · refine Steady.stepFetch ?_ (fetchMove_frame _ _ _) (by decide)
        exact Steady.refl _
      apply h8
      · assumption
    · rename_i v21 v22 v23
      refine absorb (P := fetchAll (Steady s0)) v23 ?_ (fun q24 => ?_)
      · refine Steady.stepFetch ?_ (fetchMove_frame _ _ _) (by decide)
        exact Steady.refl _
      refine Steady.step ?_ (faultPlay_frame _ _ _ _) (by decide)
      assumption
    · rename_i v25 v26
      refine absorb (P := fetchAll (Steady s0)) v26 ?_ (fun q27 => ?_)
      · refine Steady.stepFetch ?_ (fetchMove_frame _ _ _) (by decide)
        exact Steady.refl _
      exact Steady.refl _
    · rename_i v28 v29
      refine absorb (P := fetchAll (Steady s0)) v29 ?_ (fun q30 => ?_)
      · refine Steady.stepFetch ?_ (fetchMove_frame _ _ _) (by decide)
        exact Steady.refl _
      exact Steady.step (.refl _) (faultPlay_frame _ _ _ _) (by decide)
    · rename_i v31 v32 v33 v34
      refine absorb (P := fetchAll (Steady s0)) v34 ?_ (fun q35 => ?_)
      · refine Steady.stepFetch ?_ (fetchMove_frame _ _ _) (by decide)
        exact Steady.refl _
      extract_lets x36 x37
      clear_value x36 x37
      refine Steady.ite ?_ ?_
      · apply h8
        · assumption
      · refine Steady.ite ?_ ?_
        · exact Steady.refl _
        · refine Steady.ite ?_ ?_
          · apply h8
            · assumption
          · split
            · apply h8
              · assumption
            · refine Steady.ite ?_ ?_
              · apply h8
                · assumption
              · refine Steady.ite ?_ ?_
                · refine Steady.ite ?_ ?_
                  · refine Steady.step ?_ (seqMove_frame _ _ _ _) (by decide)
                    assumption
                  · apply h8
                    · assumption
                · refine Steady.ite ?_ ?_
                  · exact Steady.refl _
                  · refine Steady.trans ?_ (enqueue_steady _ _ _ _ _)
                    assumption

theorem completeMove_steady (p : Play) (tile : Nat) (code : Nat) (pos : Nat) (m : QMove) (s : State) :
    Steady s (completeMove p tile code pos m s) := by
  unfold completeMove
  refine Steady.trans ?_ (pump_steady _ _ _ _)
  refine Steady.step ?_ (makeTie_frame _ _ _ _) (by decide)
  refine Steady.step ?_ (dropMove_frame _ _ _ _ _) (by decide)
  exact Steady.step (.refl _) (wrapUp_frame _ _ _ _ _ _) (by decide)

theorem finishMove_steady (p : Play) (tile : Nat) (code : Nat) (pos : Nat) (m : QMove) (s : State) :
    Steady s (finishMove p tile code pos m s) := by
  unfold finishMove
  split
  · refine Steady.step ?_ (failPlay_frame _ _ _) (by decide)
    refine Steady.step ?_ (dropMove_frame _ _ _ _ _) (by decide)
    exact Steady.step (.refl _) (hostFault_frame _ _ _ _) (by decide)
  · exact Steady.trans (.refl _) (completeMove_steady _ _ _ _ _ _)

theorem tieArrived_steady (tile : Nat) (code : Nat) (s : State) :
    Steady s (tieArrived tile code s) := by
  unfold tieArrived
  split
  · exact Steady.refl _
  · split
    · exact Steady.refl _
    · split
      · exact Steady.refl _
      · refine Steady.ite ?_ ?_
        · refine Steady.trans ?_ (completeMove_steady _ _ _ _ _ _)
          exact Steady.refl _
        · refine Steady.step ?_ (putMove_frame _ _ _ _ _ _) (by decide)
          exact Steady.refl _

theorem rimReads_steady (k : Nat) (r : Option RimUnit) (s : State) :
    Steady s (rimReads k r s) := by
  unfold rimReads
  refine elim_of (P := (Steady s)) ?_ (fun y0 => ?_)
  · exact Steady.refl _
  · refine Steady.trans ?_ (rimFinds_steady _ _ _ _ _)
    exact Steady.refl _

theorem passMeets_steady (k : Nat) (a : Armed) (e : Ledger) (q : Nat) (l : LaneFault) (s : State) :
    sndAll (Steady s) (passMeets k a e q l s) := by
  unfold passMeets
  extract_lets x0 x1
  have h2 : ∀ a3 a4, Steady s a4 → Steady s (x0 a3 a4) := by
    intro b5 b6 k7
    unfold x0
    refine Steady.step ?_ (laneResidue_frame _ _ _ _ _ _ _) (by decide)
    assumption
  clear_value x0 x1
  split
  · refine sndAll_mk ?_
    exact Steady.refl _
  · refine sndAll_mk ?_
    apply h2
    · exact Steady.refl _
  · refine sndAll_mk ?_
    refine Steady.trans ?_ (failCapstan_steady _ _)
    apply h2
    · exact Steady.refl _
  · extract_lets x13
    have h14 : Steady s x13 := by
      unfold x13
      show sndAll (Steady s) _
      exact Steady.transSnd (.refl _) (parityMeets_steady _ _ _ _ _ _)
    clear_value x13
    refine sndAll_mk ?_
    assumption

theorem closeWindow_steady (s : State) :
    Steady s (closeWindow s) := by
  unfold closeWindow
  split
  · exact Steady.refl _
  · extract_lets x5 x6 x7 x8
    have h9 : Steady s x5 := by
      unfold x5
      exact Steady.step (.refl _) (raiseSplit_frame _ _) (by decide)
    have h10 : Steady s x6 := by
      unfold x6
      refine Steady.ite ?_ ?_
      · refine Steady.step ?_ (evaluate_frame _ _ _ _) (by decide)
        assumption
      · assumption
    clear_value x5 x6 x7 x8
    refine Steady.trans ?_ (pumpAll_steady _)
    refine Steady.step ?_ (takeHeld_frame _) (by decide)
    refine Steady.only_cap ?_ _
    assumption

theorem commitStep_steady (a : Armed) (s : State) :
    Steady s (commitStep a s) := by
  unfold commitStep
  extract_lets x0 x1 x2 x3 x4 x5 x6 x7 x8 x9 x10 x11 x12
  have h13 : Steady s x2 := by
    unfold x2
    refine Steady.step ?_ (openWindow_frame _ _ _) (by decide)
    exact Steady.trans (.refl _) (closeWindow_steady _)
  have h14 : Steady s x4 := by
    unfold x4
    refine Steady.step ?_ (mapLedger_frame _ _) (by decide)
    refine Steady.step ?_ (clearLost_frame _) (by decide)
    refine Steady.step ?_ (loseSnaps_frame _) (by decide)
    assumption
  have h15 : Steady s x6 := by
    unfold x6
    refine Steady.ite ?_ ?_
    · assumption
    · refine Steady.step ?_ (dropCopies_frame _) (by decide)
      refine Steady.only_cap ?_ _
      assumption
  have h16 : Steady s x7 := by
    unfold x7
    refine Steady.step ?_ (mapSlotsC_frame _ _) (by decide)
    refine Steady.step ?_ (endExchanges_frame _ _) (by decide)
    refine Steady.step ?_ (closeCounts_frame _) (by decide)
    assumption
  have h17 : Steady s x10 := by
    unfold x10
    refine Steady.only_cap_watch ?_ _ _
    assumption
  have h18 : Steady s x11 := by
    unfold x11
    refine Steady.step ?_ (commitReply_frame _ _ _ _ _) (by decide)
    assumption
  clear_value x0 x1 x2 x3 x4 x5 x6 x7 x8 x9 x10 x11 x12
  refine Steady.fold ?_ (fun u19 y20 h21 => ?_)
  · assumption
  · refine Steady.step ?_ (redispatch_frame _ _) (by decide)
    assumption

theorem abortAtCp_steady (a : Armed) (s : State) :
    Steady s (abortAtCp a s) := by
  unfold abortAtCp
  refine Steady.step ?_ (abortStep_frame _ _ _ _ _) (by decide)
  refine Steady.step ?_ (dropOpen_frame _) (by decide)
  refine Steady.step ?_ (openWindow_frame _ _ _) (by decide)
  exact Steady.trans (.refl _) (closeWindow_steady _)

theorem commitPoint_steady (s : State) :
    Steady s (commitPoint s) := by
  unfold commitPoint
  split
  · exact Steady.refl _
  · refine Steady.ite ?_ ?_
    · exact Steady.refl _
    · refine Steady.ite ?_ ?_
      · refine Steady.trans ?_ (commitStep_steady _ _)
        exact Steady.refl _
      · refine Steady.trans ?_ (abortAtCp_steady _ _)
        exact Steady.refl _

theorem writeCommitted_steady (v : W32) (s : State) :
    Steady s (writeCommitted v s) := by
  unfold writeCommitted
  refine Steady.ite ?_ ?_
  · refine Steady.step ?_ (lockViolation_frame _) (by decide)
    exact Steady.refl _
  · refine Steady.trans ?_ (pumpAll_steady _)
    refine Steady.step ?_ (takeHeld_frame _) (by decide)
    refine Steady.step ?_ (clearLost_frame _) (by decide)
    refine Steady.step ?_ (mapLedger_frame _ _) (by decide)
    exact Steady.only_cap (.refl _) _

theorem suspectRow_steady (t : TallyItem) (row : Nat) (s : State) :
    Steady s (suspectRow t row s) := by
  unfold suspectRow
  refine Steady.fold ?_ (fun u0 y1 h2 => ?_)
  · exact Steady.refl _
  · refine Steady.trans ?_ (suspectTile_steady _ _ _)
    assumption

theorem firstMismatch_steady (f : Nat) (t : TallyItem) (k : Nat) (row : Option Nat) (s : State) :
    Steady s (firstMismatch f t k row s) := by
  unfold firstMismatch
  extract_lets x0 x1 x2
  have h3 : Steady s x0 := by
    unfold x0
    exact Steady.step (.refl _) (adjField_frame _ _ _) (by decide)
  have h4 : Steady s x1 := by
    unfold x1
    refine Steady.step ?_ (postFull_frame _ _ _ _ _ _ _) (by decide)
    assumption
  have h5 : Steady s x2 := by
    unfold x2
    split
    · refine Steady.trans ?_ (suspectRow_steady _ _ _)
      assumption
    · assumption
  clear_value x0 x1 x2
  refine Steady.step ?_ (maskTally_frame _ _) (by decide)
  refine Steady.step ?_ (ledgerRec_frame _ _ _ _ _ _ _ _) (by decide)
  assumption

theorem compareRow_steady (f : Nat) (t : TallyItem) (row : Option Nat) (s : State) :
    Steady s (compareRow f t row s) := by
  unfold compareRow
  extract_lets x0 x1 x2
  have h3 : Steady s x2 := by
    unfold x2
    exact Steady.step (.refl _) (adjField_frame _ _ _) (by decide)
  clear_value x0 x1 x2
  split
  · assumption
  · refine Steady.ite ?_ ?_
    · assumption
    · refine Steady.trans ?_ (firstMismatch_steady _ _ _ _ _)
      assumption

theorem nextMigrations_steady (n : Nat) (a : Nat) (a' : State) :
    Steady a' (nextMigrations n a a') := by
  induction a generalizing n a'
  · unfold nextMigrations
    exact Steady.refl _
  · rename_i w0 ih
    unfold nextMigrations
    extract_lets x1
    clear_value x1
    split
    · refine Steady.ite ?_ ?_
      · exact Steady.refl _
      · refine Steady.trans ?_ (ih _ _)
        refine Steady.trans ?_ (startMigration_steady _ _ _)
        exact Steady.step (.refl _) (setStack_frame _ _ _) (by decide)
    · exact Steady.refl _

theorem nextMigration_steady (n : Nat) (s : State) :
    Steady s (nextMigration n s) := by
  unfold nextMigration
  exact Steady.trans (.refl _) (nextMigrations_steady _ _ _)

theorem switchStack_steady (n : Nat) (s : State) :
    Steady s (switchStack n s) := by
  unfold switchStack
  extract_lets x0 x1 x2 x3 x4 x5 x6
  have h7 : Steady s x3 := by
    unfold x3
    exact Steady.trans (.refl _) (journalRecord_steady _)
  have h8 : Steady s x5 := by
    unfold x5
    refine Steady.only_store ?_ _
    assumption
  have h9 : Steady s x6 := by
    unfold x6
    refine Steady.step ?_ (setStack_frame _ _ _) (by decide)
    assumption
  clear_value x0 x1 x2 x3 x4 x5 x6
  refine Steady.step ?_ (record_frame _ _ _ _ _ _ _ _ _ _) (by decide)
  assumption

theorem spliceFails_steady (n : Nat) (chan : Byte) (s : State) :
    Steady s (spliceFails n chan s) := by
  unfold spliceFails
  extract_lets x0 x1 x2
  have h3 : Steady s x2 := by
    unfold x2
    refine Steady.step ?_ (setStack_frame _ _ _) (by decide)
    exact Steady.only_store (.refl _) _
  clear_value x0 x1 x2
  refine Steady.trans ?_ (needSplice_steady _ _ _ _)
  assumption

theorem switchChannel_steady (n : Nat) (c : Nat) (spareFailed : Bool) (s : State) :
    Steady s (switchChannel n c spareFailed s) := by
  unfold switchChannel
  extract_lets x0 x1 x2 x3 x4 x5
  have h6 : ∀ a7 a8, Steady s a8 → Steady s (x2 a7 a8) := by
    intro b9 b10 k11
    unfold x2
    refine Steady.only_store ?_ _
    assumption
  have h12 : Steady s x3 := by
    unfold x3
    apply h6
    · refine Steady.step ?_ (setStack_frame _ _ _) (by decide)
      exact Steady.refl _
  have h13 : Steady s x4 := by
    unfold x4
    apply h6
    · refine Steady.trans ?_ (journalRecord_steady _)
      exact Steady.refl _
  clear_value x0 x1 x2 x3 x4 x5
  refine Steady.ite ?_ ?_
  · refine Steady.trans ?_ (nextMigration_steady _ _)
    refine Steady.trans ?_ (startMigration_steady _ _ _)
    refine Steady.step ?_ (record_frame _ _ _ _ _ _ _ _ _ _) (by decide)
    assumption
  · refine Steady.trans ?_ (nextMigration_steady _ _)
    refine Steady.step ?_ (postMigrate_frame _ _ _ _) (by decide)
    refine Steady.step ?_ (setStack_frame _ _ _) (by decide)
    assumption

theorem repairRow_steady (x : Retired) (readable : Bool) (s : State) :
    Steady s (repairRow x readable s) := by
  unfold repairRow
  extract_lets x0 x1 x2 x3 x4 x5 x6 x7 x8 x9 x10 x11 x12
  have h13 : Steady s x5 := by
    unfold x5
    exact Steady.step (.refl _) (retireSpare_frame _ _ _ _) (by decide)
  have h14 : Steady s x6 := by
    unfold x6
    refine Steady.step ?_ (setStack_frame _ _ _) (by decide)
    assumption
  have h15 : Steady s x8 := by
    unfold x8
    refine Steady.only_store ?_ _
    assumption
  have h16 : Steady s x9 := by
    unfold x9
    refine Steady.step ?_ (record_frame _ _ _ _ _ _ _ _ _ _) (by decide)
    assumption
  have h17 : Steady s x10 := by
    unfold x10
    refine Steady.ite ?_ ?_
    · assumption
    · refine Steady.step ?_ (restoreGranule_frame _ _) (by decide)
      assumption
  have h18 : Steady s x12 := by
    unfold x12
    refine Steady.only_near ?_ _
    assumption
  clear_value x0 x1 x2 x3 x4 x5 x6 x7 x8 x9 x10 x11 x12
  refine Steady.ite ?_ ?_
  · exact Steady.refl _
  · refine Steady.ite ?_ ?_
    · refine Steady.ite ?_ ?_
      · refine Steady.trans ?_ (needMigration_steady _ _ _)
        assumption
      · assumption
    · refine Steady.ite ?_ ?_
      · refine Steady.step ?_ (ledgerRec_frame _ _ _ _ _ _ _ _) (by decide)
        refine Steady.step ?_ (postFull_frame _ _ _ _ _ _ _) (by decide)
        assumption
      · refine Steady.trans ?_ (needSplice_steady _ _ _ _)
        refine Steady.ite ?_ ?_
        · assumption
        · refine Steady.step ?_ (restoreGranule_frame _ _) (by decide)
          assumption

theorem scrubFinds_steady (n : Nat) (c : Nat) (rw : Nat) (r : ArrayRead) (s : State) :
    Steady s (scrubFinds n c rw r s) := by
  unfold scrubFinds
  split
  · exact Steady.refl _
  · exact Steady.trans (.refl _) (repairRow_steady _ _ _)
  · extract_lets x3 x4 x5 x6 x7
    have h8 : Steady s x6 := by
      unfold x6
      exact Steady.step (.refl _) (setStack_frame _ _ _) (by decide)
    have h9 : Steady s x7 := by
      unfold x7
      refine Steady.step ?_ (record_frame _ _ _ _ _ _ _ _ _ _) (by decide)
      assumption
    clear_value x3 x4 x5 x6 x7
    refine Steady.ite ?_ ?_
    · refine Steady.trans ?_ (repairRow_steady _ _ _)
      assumption
    · assumption

theorem rimStep_steady (k : Nat) (row : Nat) (r : ArrayRead) (s : State) :
    Steady s (rimStep k row r s) := by
  unfold rimStep
  extract_lets x0 x1 x2
  have h3 : Steady s x2 := by
    unfold x2
    exact Steady.only_cap (.refl _) _
  clear_value x0 x1 x2
  refine Steady.ite ?_ ?_
  · exact Steady.refl _
  · refine Steady.step ?_ (endRimLap_frame _) (by decide)
    refine Steady.trans ?_ (rimFinds_steady _ _ _ _ _)
    refine Steady.step ?_ (setCapstan_frame _ _ _) (by decide)
    assumption

theorem resumeAccess_steady (s : State) :
    Steady s (resumeAccess s) := by
  unfold resumeAccess
  refine Steady.trans ?_ (pumpAll_steady _)
  refine Steady.step ?_ (serveFetches_frame _) (by decide)
  refine Steady.step ?_ (runEvals_frame _) (by decide)
  refine Steady.step ?_ (runLoads_frame _) (by decide)
  refine Steady.step ?_ (takeHeld_frame _) (by decide)
  exact Steady.step (.refl _) (serveAper_frame _) (by decide)

theorem applyPlan_steady (s : State) :
    Steady s (applyPlan s) := by
  unfold applyPlan
  split
  · exact Steady.refl _
  · extract_lets x5 x6 x7
    have h8 : Steady s x5 := by
      unfold x5
      exact Steady.trans (.refl _) (journalRecord_steady _)
    have h9 : Steady s x7 := by
      unfold x7
      refine Steady.only_power ?_ _
      assumption
    clear_value x5 x6 x7
    refine Steady.fold ?_ (fun u10 y11 h12 => ?_)
    · assumption
    · refine Steady.step ?_ (adjField_frame _ _ _) (by decide)
      assumption

theorem degradeRow_steady (f : Nat) (r : Nat) (s : State) :
    Steady s (degradeRow f r s) := by
  unfold degradeRow
  refine Steady.step ?_ (adjField_frame _ _ _) (by decide)
  exact Steady.rel (.refl _) _ (by rfl) (by rfl) (by rfl)

theorem requestSplice_steady (u : Nat) (s : State) :
    Steady s (requestSplice u s) := by
  unfold requestSplice
  refine Steady.ite ?_ ?_
  · exact Steady.refl _
  · refine Steady.rel ?_ _ (by rfl) (by rfl) (by rfl)
    exact Steady.refl _

theorem requestWear_steady (u : Nat) (s : State) :
    Steady s (requestWear u s) := by
  unfold requestWear
  refine Steady.ite ?_ ?_
  · exact Steady.refl _
  · refine Steady.trans ?_ (requestSplice_steady _ _)
    exact Steady.rel (.refl _) _ (by rfl) (by rfl) (by rfl)

theorem requestFailed_steady (u : Nat) (s : State) :
    Steady s (requestFailed u s) := by
  unfold requestFailed
  refine Steady.trans ?_ (requestSplice_steady _ _)
  exact Steady.rel (.refl _) _ (by rfl) (by rfl) (by rfl)

theorem testFails_steady (f : Nat) (r : Nat) (s : State) (c : Nat) :
    Steady s (testFails f r s c) := by
  unfold testFails
  extract_lets x0
  clear_value x0
  refine Steady.trans ?_ (requestFailed_steady _ _)
  exact Steady.step (.refl _) (record_frame _ _ _ _ _ _ _ _ _ _) (by decide)

theorem noSpare_steady (f : Nat) (r : Nat) (u : Nat) (s : State) :
    Steady s (noSpare f r u s) := by
  unfold noSpare
  refine Steady.step ?_ (record_frame _ _ _ _ _ _ _ _ _ _) (by decide)
  refine Steady.trans ?_ (degradeRow_steady _ _ _)
  refine Steady.step ?_ (addBadTile_frame _ _) (by decide)
  exact Steady.step (.refl _) (spareRuns_frame _ _ _) (by decide)

theorem spliceRow_steady (f : Nat) (r : Nat) (c : Nat) (readable : Bool) (s : State) :
    Steady s (spliceRow f r c readable s) := by
  unfold spliceRow
  extract_lets x0 x1 x2 x3 x4 x5 x6
  have h7 : Steady s x3 := by
    unfold x3
    refine Steady.ite ?_ ?_
    · exact Steady.refl _
    · refine Steady.step ?_ (zeroTile_frame _ _) (by decide)
      exact Steady.only_cap (.refl _) _
  have h8 : Steady s x5 := by
    unfold x5
    refine Steady.caches_rel ?_ _ _ (by rfl) (by rfl) (by rfl)
    assumption
  have h9 : Steady s x6 := by
    unfold x6
    refine Steady.step ?_ (invalidateRow_frame _ _ _) (by decide)
    refine Steady.step ?_ (clearTally_frame _ _ _) (by decide)
    refine Steady.step ?_ (addBadTile_frame _ _) (by decide)
    assumption
  clear_value x0 x1 x2 x3 x4 x5 x6
  refine Steady.step ?_ (record_frame _ _ _ _ _ _ _ _ _ _) (by decide)
  refine Steady.step ?_ (postFull_frame _ _ _ _ _ _ _) (by decide)
  refine Steady.trans ?_ (journalRecord_steady _)
  assumption

theorem usePll_steady (d : Nat) (s : State) :
    Steady s (usePll d s) := by
  unfold usePll
  refine Steady.ite ?_ ?_
  · refine Steady.step ?_ (adjField_frame _ _ _) (by decide)
    exact Steady.refl _
  · refine Steady.rel ?_ _ (by rfl) (by rfl) (by rfl)
    exact Steady.refl _

theorem stopDomain_steady (d : Nat) (s : State) :
    Steady s (stopDomain d s) := by
  unfold stopDomain
  extract_lets x0 x1 x2
  have h3 : Steady s x1 := by
    unfold x1
    exact Steady.rel (.refl _) _ (by rfl) (by rfl) (by rfl)
  clear_value x0 x1
  refine Steady.ite ?_ ?_
  · refine Steady.step ?_ (adjField_frame _ _ _) (by decide)
    assumption
  · refine Steady.rel ?_ _ (by rfl) (by rfl) (by rfl)
    assumption

theorem assignRow_steady (f : Nat) (r : Nat) (s : State) :
    Steady s (assignRow f r s) := by
  unfold assignRow
  extract_lets x0 x1 x2 x3
  have h4 : ∀ a5, Steady s a5 → Steady s (x0 a5) := by
    intro b6 k7
    unfold x0
    refine Steady.step ?_ (clearTally_frame _ _ _) (by decide)
    refine Steady.step ?_ (setBu_frame _ _) (by decide)
    assumption
  have h8 : Steady s x3 := by
    unfold x3
    refine Steady.trans ?_ (degradeRow_steady _ _ _)
    exact Steady.step (.refl _) (setBu_frame _ _) (by decide)
  clear_value x0 x2 x3
  split
  · exact Steady.refl _
  · apply h4
    · exact Steady.refl _
  · apply h4
    · refine Steady.rel ?_ _ (by rfl) (by rfl) (by rfl)
      exact Steady.refl _
  · refine Steady.ite ?_ ?_
    · apply h4
      · assumption
    · assumption

theorem assignTiles_steady (s : State) :
    Steady s (assignTiles s) := by
  unfold assignTiles
  refine Steady.fold ?_ (fun u0 y1 h2 => ?_)
  · exact Steady.refl _
  · refine Steady.trans ?_ (assignRow_steady _ _ _)
    assumption

theorem assignPll_steady (s : State) (d : Nat) :
    Steady s (assignPll s d) := by
  unfold assignPll
  split
  · exact Steady.refl _
  · exact Steady.trans (.refl _) (usePll_steady _ _)
  · refine Steady.ite ?_ ?_
    · refine Steady.trans ?_ (stopDomain_steady _ _)
      refine Steady.step ?_ (setBu_frame _ _) (by decide)
      exact Steady.trans (.refl _) (usePll_steady _ _)
    · refine Steady.trans ?_ (stopDomain_steady _ _)
      exact Steady.trans (.refl _) (usePll_steady _ _)

theorem assignDie_steady (s : State) (k : Nat) :
    Steady s (assignDie s k) := by
  unfold assignDie
  refine Steady.ite ?_ ?_
  · refine Steady.step ?_ (setCapstan_frame _ _ _) (by decide)
    exact Steady.refl _
  · split
    · exact Steady.step (.refl _) (setCapstan_frame _ _ _) (by decide)
    · refine Steady.step ?_ (setCapstan_frame _ _ _) (by decide)
      refine Steady.step ?_ (setBu_frame _ _) (by decide)
      exact Steady.rel (.refl _) _ (by rfl) (by rfl) (by rfl)

theorem assignDice_steady (s : State) :
    Steady s (assignDice s) := by
  unfold assignDice
  refine Steady.fold ?_ (fun u0 y1 h2 => ?_)
  · refine Steady.only_cap ?_ _
    exact Steady.refl _
  · refine Steady.trans ?_ (assignDie_steady _ _)
    assumption

theorem assignPhases_steady (s : State) (f : Nat) :
    Steady s (assignPhases s f) := by
  unfold assignPhases
  extract_lets x0 x1 x2 x3 x4 x5
  have h6 : Steady s x2 := by
    unfold x2
    refine Steady.ite ?_ ?_
    · exact Steady.refl _
    · refine Steady.step ?_ (setField_frame _ _ _) (by decide)
      exact Steady.refl _
  have h7 : Steady s x5 := by
    unfold x5
    refine Steady.step ?_ (setBu_frame _ _) (by decide)
    refine Steady.rel ?_ _ (by rfl) (by rfl) (by rfl)
    assumption
  clear_value x0 x1 x2 x3 x4 x5
  refine Steady.ite ?_ ?_
  · assumption
  · refine Steady.ite ?_ ?_
    · assumption
    · refine Steady.step ?_ (postFull_frame _ _ _ _ _ _ _) (by decide)
      assumption

theorem capstanWork_steady (failed : List Nat) (s : State) :
    Steady s (capstanWork failed s) := by
  unfold capstanWork
  extract_lets x0 x1 x2 x3 x4
  have h5 : Steady s x0 := by
    unfold x0
    refine Steady.fold ?_ (fun u6 y7 h8 => ?_)
    · exact Steady.refl _
    · refine Steady.ite ?_ ?_
      · assumption
      · refine Steady.step ?_ (ledgerRec_frame _ _ _ _ _ _ _ _) (by decide)
        refine Steady.only_store ?_ _
        assumption
  have h9 : Steady s x2 := by
    unfold x2
    refine Steady.only_store ?_ _
    assumption
  have h10 : Steady s x4 := by
    unfold x4
    refine Steady.trans ?_ (assignDice_steady _)
    refine Steady.only_cap ?_ _
    assumption
  clear_value x0 x1 x2 x3 x4
  refine Steady.ite ?_ ?_
  · refine Steady.step ?_ (stageFatal_frame _ _) (by decide)
    assumption
  · refine Steady.step ?_ (stageOk_frame _) (by decide)
    assumption

theorem failTiles_steady (l : List Nat) (s : State) :
    Steady s (failTiles l s) := by
  unfold failTiles
  refine Steady.fold ?_ (fun u0 y1 h2 => ?_)
  · refine Steady.fold ?_ (fun u3 y4 h5 => ?_)
    · exact Steady.refl _
    · refine Steady.step ?_ (failTile_frame _ _) (by decide)
      assumption
  · refine Steady.trans ?_ (assignRow_steady _ _ _)
    assumption

theorem dbgResume_steady (s : State) :
    Steady s (dbgResume s) := by
  unfold dbgResume
  refine Steady.ite ?_ ?_
  · refine Steady.trans ?_ (pumpAll_steady _)
    exact Steady.step (.refl _) (setDbg_frame _ _) (by decide)
  · exact Steady.refl _

theorem dbgOnTile_steady {s t : State} {off : Nat} {act : State → State} (hs : Steady s t) (ha : Steady s (act t)) : Steady s (dbgOnTile off act t) := by
  unfold dbgOnTile
  split
  · exact hs.step (argReject_frame _ _ _) (by decide)
  · exact ha

theorem dbgGate_steady {s t : State} {act : State → State} (hs : Steady s t) (ha : Steady s (act t)) : Steady s (dbgGate act t) := by
  unfold dbgGate
  split
  · exact ha
  · exact hs.step (lockViolation_frame _) (by decide)

theorem writeDbgCtrl_steady (v : W64) (s : State) :
    Steady s (writeDbgCtrl v s) := by
  unfold writeDbgCtrl
  refine dbgGate_steady ?_ ?_
  · exact Steady.refl _
  · refine dbgOnTile_steady ?_ ?_
    · exact Steady.refl _
    · extract_lets x0 x1
      have h2 : Steady s x0 := by
        unfold x0
        refine Steady.ite ?_ ?_
        · refine Steady.step ?_ (dbgHalt_frame _) (by decide)
          exact Steady.refl _
        · exact Steady.refl _
      have h3 : Steady s x1 := by
        unfold x1
        refine Steady.ite ?_ ?_
        · refine Steady.step ?_ (dbgStep_frame _) (by decide)
          assumption
        · assumption
      clear_value x0 x1
      refine Steady.ite ?_ ?_
      · refine Steady.trans ?_ (dbgResume_steady _)
        assumption
      · assumption

theorem writeDbg_steady (o : Nat) (v : W64) (s : State) :
    Steady s (writeDbg o v s) := by
  unfold writeDbg
  refine Steady.ite ?_ ?_
  · refine Steady.trans ?_ (writeDbgCtrl_steady _ _)
    exact Steady.refl _
  · refine dbgGate_steady ?_ ?_
    · exact Steady.refl _
    · refine Steady.ite ?_ ?_
      · refine Steady.ite ?_ ?_
        · refine Steady.step ?_ (argReject_frame _ _ _) (by decide)
          exact Steady.refl _
        · refine Steady.step ?_ (setDbg_frame _ _) (by decide)
          exact Steady.refl _
      · refine Steady.ite ?_ ?_
        · refine Steady.step ?_ (setDbg_frame _ _) (by decide)
          exact Steady.refl _
        · refine Steady.ite ?_ ?_
          · refine dbgOnTile_steady ?_ ?_
            · exact Steady.refl _
            · refine Steady.step ?_ (dbgStore_frame _ _) (by decide)
              exact Steady.refl _
          · exact Steady.refl _

theorem fetchCommand_steady (d : Doorbell) (l : List Byte) (s : State) :
    Steady s (fetchCommand d l s) := by
  unfold fetchCommand
  extract_lets x0 x1 x2 x3 x4
  have h5 : Steady s x4 := by
    unfold x4
    exact Steady.step (.refl _) (setHostQueue_frame _ _ _) (by decide)
  clear_value x0 x1 x2 x3 x4
  refine Steady.ite ?_ ?_
  · refine Steady.step ?_ (dropDoorbell_frame _ _) (by decide)
    exact Steady.refl _
  · refine Steady.step ?_ (dispatchPacket_frame _ _) (by decide)
    refine Steady.trans ?_ (journalRecord_steady _)
    refine Steady.ite ?_ ?_
    · refine Steady.step ?_ (dropDoorbell_frame _ _) (by decide)
      assumption
    · assumption

theorem runEvent_steady (x : DueKey × Due) (s : State) :
    Steady s (runEvent x s) := by
  unfold runEvent
  split
  · extract_lets x3
    have h4 : Steady s x3 := by
      unfold x3
      exact Steady.only_sched (.refl _) _
    clear_value x3
    split
    · refine Steady.step ?_ (opCollFire_frame _ _) (by decide)
      assumption
    · refine Steady.step ?_ (opXchSet_frame _ _) (by decide)
      assumption
    · refine Steady.step ?_ (opTelemSnap_frame _ _ _) (by decide)
      assumption
    · refine Steady.step ?_ (runOp_frame _ _ _) (by decide)
      assumption
  · exact Steady.step (.refl _) (setPlay_frame _ _) (by decide)
  · exact Steady.trans (.refl _) (commitPoint_steady _)
  · exact Steady.step (.refl _) (releaseBarrier_frame _ _) (by decide)

theorem accessMeets_steady (port : Nat) (a : Nat) (n : Nat) (f : MoveFault) (s : State) :
    Steady s (accessMeets port a n f s) := by
  unfold accessMeets
  refine Steady.ite ?_ ?_
  · exact Steady.refl _
  · split
    · exact Steady.step (.refl _) (xingRecordFor_frame _ _ _ _ _ _ _) (by decide)
    · show sndAll (Steady s) _
      exact Steady.transSnd (.refl _) (parityMeets_steady _ _ _ _ _ _)
    · exact Steady.trans (.refl _) (rimAt_steady _ _ _ _)
    · exact Steady.refl _

theorem runAllDue_steady (a : Nat) (a' : State) :
    Steady a' (runAllDue a a') := by
  induction a generalizing a'
  · unfold runAllDue
    exact Steady.refl _
  · rename_i w0 ih
    unfold runAllDue
    split
    · refine Steady.ite ?_ ?_
      · refine Steady.trans ?_ (ih _)
        exact Steady.trans (.refl _) (runEvent_steady _ _)
      · exact Steady.refl _
    · exact Steady.refl _

theorem gapAbort_steady (s : State) :
    Steady s (gapAbort s) := by
  unfold gapAbort
  split
  · refine Steady.ite ?_ ?_
    · refine Steady.trans ?_ (abortAtCp_steady _ _)
      exact Steady.refl _
    · exact Steady.refl _
  · exact Steady.refl _

end Sys2Proof.Machine
end

section
/-! SUPPORT. The commands that leave the cadence receiver and the standby alone although they change `rel` (R477, R478). -/

namespace Sys2Proof.Machine

theorem execXchCount_steady (c : XCount) (t : Transit) (s : State) :
    outAll (Steady s) (execXchCount c t s)
        := by
  unfold execXchCount
  split
  · change Steady s _
    exact Steady.refl _
  · extract_lets x2
    clear_value x2
    split
    · rename_i v3 v4
      refine absorb (P := arrAll (Steady s)) v4 ?_ (fun q5 => ?_)
      · refine Steady.transArr ?_ (packetArrive_steady _ _ _ _ _ _)
        exact Steady.refl _
      change Steady s _
      exact Steady.refl _
    · rename_i v6 v7 v8
      refine absorb (P := arrAll (Steady s)) v8 ?_ (fun q9 => ?_)
      · refine Steady.transArr ?_ (packetArrive_steady _ _ _ _ _ _)
        exact Steady.refl _
      change Steady s _
      assumption
    · rename_i v10 v11 v12 v13
      refine absorb (P := arrAll (Steady s)) v13 ?_ (fun q14 => ?_)
      · refine Steady.transArr ?_ (packetArrive_steady _ _ _ _ _ _)
        exact Steady.refl _
      split
      · change Steady s _
        assumption
      · split
        · change Steady s _
          assumption
        · extract_lets x22
          clear_value x22
          change Steady s _
          refine Steady.ite ?_ ?_
          · refine Steady.step ?_ (grantPhase_frame _ _) (by decide)
            assumption
          · refine Steady.step ?_ (setX_frame _ _) (by decide)
            assumption

theorem execXchGrant_steady (g : XGrant) (t : Transit) (s : State) :
    outAll (Steady s) (execXchGrant g t s)
        := by
  unfold execXchGrant
  extract_lets x0
  clear_value x0
  split
  · rename_i v1 v2
    refine absorb (P := arrAll (Steady s))
        v2 ?_ (fun q3 => ?_)
    · refine Steady.transArr ?_ (packetArrive_steady _ _ _ _ _ _)
      exact Steady.refl _
    change Steady s _
    exact Steady.refl _
  · rename_i v4 v5 v6
    refine absorb (P := arrAll (Steady s))
        v6 ?_ (fun q7 => ?_)
    · refine Steady.transArr ?_ (packetArrive_steady _ _ _ _ _ _)
      exact Steady.refl _
    change Steady s _
    assumption
  · rename_i v8 v9 v10 v11
    refine absorb (P := arrAll (Steady s))
        v11 ?_ (fun q12 => ?_)
    · refine Steady.transArr ?_ (packetArrive_steady _ _ _ _ _ _)
      exact Steady.refl _
    split
    · change Steady s _
      assumption
    · split
      · change Steady s _
        assumption
      · split
        · change Steady s _
          assumption
        · extract_lets x25 x26
          clear_value x25 x26
          change Steady s _
          refine Steady.step ?_ (sendRows_frame _ _ _ _) (by decide)
          refine Steady.step ?_ (setX_frame _ _) (by decide)
          assumption

theorem execXchRow_steady (r : XRow) (t : Transit) (s : State) :
    outAll (Steady s) (execXchRow
        r t s) := by
  unfold execXchRow
  split
  · change Steady s _
    exact Steady.refl _
  · extract_lets x2
    clear_value x2
    split
    · rename_i v3 v4
      refine absorb (P := arrAll (Steady s)) v4 ?_ (fun q5 => ?_)
      · refine Steady.transArr ?_ (packetArrive_steady _ _ _ _ _ _)
        exact Steady.refl _
      change Steady s _
      exact Steady.refl _
    · rename_i v6 v7 v8
      refine absorb (P := arrAll (Steady s)) v8 ?_ (fun q9 => ?_)
      · refine Steady.transArr ?_ (packetArrive_steady _ _ _ _ _ _)
        exact Steady.refl _
      change Steady s _
      assumption
    · rename_i v10 v11 v12 v13
      refine absorb (P := arrAll (Steady s)) v13 ?_ (fun q14 => ?_)
      · refine Steady.transArr ?_ (packetArrive_steady _ _ _ _ _ _)
        exact Steady.refl _
      split
      · change Steady s _
        assumption
      · split
        · split
          · change Steady s _
            assumption
          · extract_lets x31
            clear_value x31
            split
            · change Steady s _
              refine Steady.step ?_ (acceptRow_frame _ _ _ _ _ _) (by decide)
              assumption
            · change Steady s _
              assumption
        · change Steady s _
          assumption

theorem execFetch_steady (f : XFetch) (t : Transit) (s : State) :
    outAll (Steady s) (execFetch f t s) :=
        by
  unfold execFetch
  extract_lets x0
  clear_value x0
  split
  · rename_i v1 v2
    refine absorb (P := arrAll (Steady s))
        v2 ?_ (fun q3 => ?_)
    · refine Steady.transArr ?_ (packetArrive_steady _ _ _ _ _ _)
      exact Steady.refl _
    change Steady s _
    exact Steady.refl _
  · rename_i v4 v5 v6
    refine absorb (P := arrAll (Steady s))
        v6 ?_ (fun q7 => ?_)
    · refine Steady.transArr ?_ (packetArrive_steady _ _ _ _ _ _)
      exact Steady.refl _
    change Steady s _
    assumption
  · rename_i v8 v9 v10 v11
    refine absorb (P := arrAll (Steady s))
        v11 ?_ (fun q12 => ?_)
    · refine Steady.transArr ?_ (packetArrive_steady _ _ _ _ _ _)
      exact Steady.refl _
    split
    · change Steady s _
      assumption
    · split
      · change Steady s _
        assumption
      · change Steady s _
        refine Steady.step ?_ (serveFetches_frame _) (by decide)
        refine Steady.step ?_ (setX_frame _ _) (by decide)
        assumption

theorem execResult_steady (r : XResult) (t : Transit) (s : State) :
    outAll (Steady s) (execResult
        r t s) := by
  unfold execResult
  extract_lets x0
  clear_value x0
  split
  · rename_i v1 v2
    refine absorb (P := arrAll (Steady s)) v2 ?_ (fun q3 => ?_)
    · refine Steady.transArr ?_ (packetArrive_steady _ _ _ _ _ _)
      exact Steady.refl _
    change Steady s _
    exact Steady.refl _
  · rename_i v4 v5 v6
    refine absorb (P := arrAll (Steady s)) v6 ?_ (fun q7 => ?_)
    · refine Steady.transArr ?_ (packetArrive_steady _ _ _ _ _ _)
      exact Steady.refl _
    change Steady s _
    assumption
  · rename_i v8 v9 v10 v11
    refine absorb (P := arrAll (Steady s)) v11 ?_ (fun q12 => ?_)
    · refine Steady.transArr ?_ (packetArrive_steady _ _ _ _ _ _)
      exact Steady.refl _
    split
    · change Steady s _
      assumption
    · split
      · change Steady s _
        assumption
      · split
        · change Steady s _
          assumption
        · extract_lets x26 x27
          have h28 : Steady s x27
              := by
            unfold x27
            refine Steady.step ?_ (setX_frame _ _) (by decide)
            assumption
          clear_value x26 x27
          split
          · change Steady s _
            refine Steady.step ?_ (markReady_frame _ _ _ _) (by decide)
            refine Steady.step ?_ (combineWrite_frame _ _ _ _ _) (by decide)
            assumption
          · change Steady s _
            assumption

theorem execMoveNop_steady (tile : Nat) (s : State) :
    outAll (Steady s) (execMoveNop tile s) := by
  unfold execMoveNop
  change Steady s _
  exact Steady.trans (.refl _) (dispatchRow_steady _ _ _ _)

theorem execEndMove_steady (tile : Nat) (s : State) :
    outAll (Steady s) (execEndMove tile s) := by
  unfold execEndMove
  change Steady s _
  exact Steady.trans (.refl _) (dispatchRow_steady _ _ _ _)

theorem execFireat_steady (tile : Nat) (s : State) :
    outAll (Steady s) (execFireat tile s) := by
  unfold execFireat
  change Steady s _
  exact Steady.trans (.refl _) (dispatchRow_steady _ _ _ _)

theorem execTie_steady (tile : Nat) (s : State) :
    outAll (Steady s) (execTie tile s) := by
  unfold execTie
  change Steady s _
  exact Steady.trans (.refl _) (dispatchRow_steady _ _ _ _)

theorem execWait_steady (tile : Nat) (s : State) :
    outAll (Steady s) (execWait tile s) := by
  unfold execWait
  change Steady s _
  exact Steady.trans (.refl _) (dispatchRow_steady _ _ _ _)

theorem execKset_steady (tile : Nat) (s : State) :
    outAll (Steady s) (execKset tile s) := by
  unfold execKset
  change Steady s _
  exact Steady.trans (.refl _) (dispatchRow_steady _ _ _ _)

theorem execPartMove_steady (tile : Nat) (s : State) :
    outAll (Steady s) (execPartMove tile s) := by
  unfold execPartMove
  change Steady s _
  exact Steady.trans (.refl _) (dispatchRow_steady _ _ _ _)

theorem execIframe_steady (tile : Nat) (s : State) :
    outAll (Steady s) (execIframe tile s) := by
  unfold execIframe
  change Steady s _
  exact Steady.trans (.refl _) (dispatchRow_steady _ _ _ _)

theorem execLoadw_steady (tile : Nat) (s : State) :
    outAll (Steady s) (execLoadw tile s) := by
  unfold execLoadw
  change Steady s _
  exact Steady.trans (.refl _) (dispatchRow_steady _ _ _ _)

theorem execSwapw_steady (tile : Nat) (s : State) :
    outAll (Steady s) (execSwapw tile s) := by
  unfold execSwapw
  change Steady s _
  exact Steady.trans (.refl _) (dispatchRow_steady _ _ _ _)

theorem execStream_steady (tile : Nat) (f : MoveFault) (s : State) :
    outAll (Steady s) (execStream tile f s) := by
  unfold execStream
  change Steady s _
  exact Steady.trans (.refl _) (dispatchRow_steady _ _ _ _)

theorem execSxt_steady (tile : Nat) (s : State) :
    outAll (Steady s) (execSxt tile s) := by
  unfold execSxt
  change Steady s _
  exact Steady.trans (.refl _) (dispatchRow_steady _ _ _ _)

theorem execElem_steady (tile : Nat) (l : LaneFault) (s : State) :
    outAll (Steady s) (execElem tile l s) := by
  unfold execElem
  change Steady s _
  exact Steady.trans (.refl _) (dispatchRow_steady _ _ _ _)

theorem execReduce_steady (tile : Nat) (l : LaneFault) (s : State) :
    outAll (Steady s) (execReduce tile l s) := by
  unfold execReduce
  change Steady s _
  exact Steady.trans (.refl _) (dispatchRow_steady _ _ _ _)

theorem execSmxb_steady (tile : Nat) (l : LaneFault) (s : State) :
    outAll (Steady s) (execSmxb tile l s) := by
  unfold execSmxb
  change Steady s _
  exact Steady.trans (.refl _) (dispatchRow_steady _ _ _ _)

theorem execNrmb_steady (tile : Nat) (l : LaneFault) (s : State) :
    outAll (Steady s) (execNrmb tile l s) := by
  unfold execNrmb
  change Steady s _
  exact Steady.trans (.refl _) (dispatchRow_steady _ _ _ _)

theorem execTopk_steady (tile : Nat) (l : LaneFault) (s : State) :
    outAll (Steady s) (execTopk tile l s) := by
  unfold execTopk
  change Steady s _
  exact Steady.trans (.refl _) (dispatchRow_steady _ _ _ _)

theorem execGather_steady (tile : Nat) (s : State) :
    outAll (Steady s) (execGather tile s) := by
  unfold execGather
  change Steady s _
  exact Steady.trans (.refl _) (dispatchRow_steady _ _ _ _)

theorem execScatter_steady (tile : Nat) (s : State) :
    outAll (Steady s) (execScatter tile s) := by
  unfold execScatter
  change Steady s _
  exact Steady.trans (.refl _) (dispatchRow_steady _ _ _ _)

theorem execScatterAdd_steady (tile : Nat) (l : LaneFault) (s : State) :
    outAll (Steady s) (execScatterAdd tile l s) := by
  unfold execScatterAdd
  change Steady s _
  exact Steady.trans (.refl _) (dispatchRow_steady _ _ _ _)

theorem execPack_steady (tile : Nat) (l : LaneFault) (s : State) :
    outAll (Steady s) (execPack tile l s) := by
  unfold execPack
  change Steady s _
  exact Steady.trans (.refl _) (dispatchRow_steady _ _ _ _)

theorem execAmaxt_steady (tile : Nat) (l : LaneFault) (s : State) :
    outAll (Steady s) (execAmaxt tile l s) := by
  unfold execAmaxt
  change Steady s _
  exact Steady.trans (.refl _) (dispatchRow_steady _ _ _ _)

theorem execMove_steady (tile : Nat) (f : MoveFault) (s : State) :
    outAll (Steady s) (execMove tile f s) := by
  unfold execMove
  change Steady s _
  exact Steady.trans (.refl _) (dispatchRow_steady _ _ _ _)

theorem execInval_steady (tile : Nat) (s : State) :
    outAll (Steady s) (execInval tile s) := by
  unfold execInval
  change Steady s _
  exact Steady.trans (.refl _) (dispatchRow_steady _ _ _ _)

theorem execDispatch_steady (tile : Nat) (s : State) :
    outAll (Steady s) (execDispatch tile s) := by
  unfold execDispatch
  change Steady s _
  exact Steady.trans (.refl _) (dispatchRow_steady _ _ _ _)

theorem execCombine_steady (tile : Nat) (s : State) :
    outAll (Steady s) (execCombine tile s) := by
  unfold execCombine
  change Steady s _
  exact Steady.trans (.refl _) (dispatchRow_steady _ _ _ _)

theorem execMoveCompletion_steady (tile : Nat) (code : Nat) (pos : Nat) (s : State) :
    outAll (Steady s) (execMoveCompletion tile code pos s) := by
  unfold execMoveCompletion
  split
  · change Steady s _
    exact Steady.refl _
  · split
    · change Steady s _
      exact Steady.refl _
    · split
      · change Steady s _
        exact Steady.refl _
      · split
        · change Steady s _
          exact Steady.trans (.refl _) (finishMove_steady _ _ _ _ _ _)
        · change Steady s _
          exact Steady.refl _

theorem execWaitSatisfied_steady (tile : Nat) (code : Nat) (s : State) :
    outAll (Steady s) (execWaitSatisfied tile code s) := by
  unfold execWaitSatisfied
  split
  · change Steady s _
    exact Steady.refl _
  · split
    · change Steady s _
      exact Steady.refl _
    · split
      · change Steady s _
        exact Steady.refl _
      · split
        · split
          · change Steady s _
            exact Steady.trans (.refl _) (completeMove_steady _ _ _ _ _ _)
          · change Steady s _
            exact Steady.refl _
        · change Steady s _
          exact Steady.trans (.refl _) (pump_steady _ _ _ _)

theorem execRemoteTieArrival_steady (src : Source) (node : Nat) (t : Transit) (s : State) :
    outAll (Steady s) (execRemoteTieArrival src node t s) := by
  unfold execRemoteTieArrival
  split
  · split
    · rename_i v9 v10
      refine absorb (P := arrAll (Steady s)) v10 ?_ (fun q11 => ?_)
      · refine Steady.transArr ?_ (meshArrive_steady _ _ _)
        exact Steady.refl _
      change Steady s _
      exact Steady.refl _
    · rename_i v12 v13 v14
      refine absorb (P := arrAll (Steady s)) v14 ?_ (fun q15 => ?_)
      · refine Steady.transArr ?_ (meshArrive_steady _ _ _)
        exact Steady.refl _
      change Steady s _
      assumption
    · rename_i v16 v17 v18 v19
      refine absorb (P := arrAll (Steady s)) v19 ?_ (fun q20 => ?_)
      · refine Steady.transArr ?_ (meshArrive_steady _ _ _)
        exact Steady.refl _
      extract_lets x21 x22
      clear_value x21 x22
      change Steady s _
      refine Steady.step ?_ (serveFetches_frame _) (by decide)
      refine Steady.trans ?_ (tieArrived_steady _ _ _)
      refine Steady.ite ?_ ?_
      · refine Steady.step ?_ (addKnot_frame _ _ _) (by decide)
        assumption
      · refine Steady.step ?_ (outerTie_frame _ _ _) (by decide)
        assumption
  · change Steady s _
    exact Steady.refl _

theorem execRampStartGrant_steady (now : Nat) (s : State) :
    outAll (Steady s) (execRampStartGrant now s) := by
  unfold execRampStartGrant
  split
  · change Steady s _
    exact Steady.refl _
  · split
    · split
      · change Steady s _
        exact Steady.refl _
      · extract_lets x13
        have h14 : Steady s x13 := by
          unfold x13
          exact Steady.only_rampQueue_rampLast (.refl _) _ _
        clear_value x13
        split
        · split
          · change Steady s _
            refine Steady.step ?_ (setPart_frame _ _) (by decide)
            assumption
          · change Steady s _
            refine Steady.trans ?_ (pump_steady _ _ _ _)
            refine Steady.step ?_ (setPart_frame _ _) (by decide)
            assumption
        · change Steady s _
          assumption
    · split
      · change Steady s _
        exact Steady.refl _
      · extract_lets x30
        have h31 : Steady s x30 := by
          unfold x30
          exact Steady.only_rampQueue_rampLast (.refl _) _ _
        clear_value x30
        split
        · split
          · change Steady s _
            refine Steady.step ?_ (setPart_frame _ _) (by decide)
            assumption
          · change Steady s _
            refine Steady.trans ?_ (pump_steady _ _ _ _)
            refine Steady.step ?_ (setPart_frame _ _) (by decide)
            assumption
        · change Steady s _
          assumption

theorem execMoveReplay_steady (tile : Nat) (code : Nat) (f : MoveFault) (s : State) :
    outAll (Steady s) (execMoveReplay tile code f s) := by
  unfold execMoveReplay
  split
  · change Steady s _
    exact Steady.refl _
  · split
    · split
      · split
        · rename_i v13 v14 v15 v16
          refine absorb (P := startAll (Steady s)) v16 ?_
              (fun q17 => ?_)
          · refine Steady.transStart ?_ (replayMove_steady _ _ _ _ _)
            exact Steady.refl _
          change Steady s _
          refine Steady.step ?_ (addDests_frame _ _ _) (by decide)
          refine Steady.step ?_ (putMove_frame _ _ _ _ _ _) (by decide)
          assumption
        · rename_i v18 v19 v20 v21
          refine absorb (P := startAll (Steady s)) v21 ?_
              (fun q22 => ?_)
          · refine Steady.transStart ?_ (replayMove_steady _ _ _ _ _)
            exact Steady.refl _
          change Steady s _
          refine Steady.step ?_ (failPlay_frame _ _ _) (by decide)
          refine Steady.step ?_ (addDests_frame _ _ _) (by decide)
          refine Steady.step ?_ (dropMove_frame _ _ _ _ _) (by decide)
          assumption
        · rename_i v23 v24 v25 v26
          refine absorb (P := startAll (Steady s)) v26 ?_
              (fun q27 => ?_)
          · refine Steady.transStart ?_ (replayMove_steady _ _ _ _ _)
            exact Steady.refl _
          change Steady s _
          refine Steady.step ?_ (faultPlay_frame _ _ _ _) (by decide)
          refine Steady.step ?_ (dropMove_frame _ _ _ _ _) (by decide)
          assumption
        · change Steady s _
          exact Steady.refl _
      · change Steady s _
        exact Steady.refl _
    · change Steady s _
      exact Steady.refl _

theorem execSeqHang_steady (tile : Nat) (s : State) :
    outAll (Steady s) (execSeqHang tile s) := by
  unfold execSeqHang
  split
  · change Steady s _
    exact Steady.refl _
  · split
    · change Steady s _
      exact Steady.refl _
    · extract_lets x7 x8 x9 x10 x11 x12 x13 x14 x15
      have h16 : Steady s x10 := by
        unfold x10
        exact Steady.rel (.refl _) _ (by rfl) (by rfl) (by rfl)
      have h17 : Steady s x12 := by
        unfold x12
        refine Steady.trans ?_ (suspectTile_steady _ _ _)
        assumption
      have h18 : Steady s x14 := by
        unfold x14
        refine Steady.ite ?_ ?_
        · refine Steady.rel ?_ _ (by rfl) (by rfl) (by rfl)
          assumption
        · assumption
      have h19 : Steady s x15 := by
        unfold x15
        refine Steady.step ?_ (record_frame _ _ _ _ _ _ _ _ _ _) (by decide)
        assumption
      clear_value x7 x8 x9 x10 x11 x12 x13 x14 x15
      change Steady s _
      refine Steady.step ?_ (faultPlay_frame _ _ _ _) (by decide)
      assumption

theorem execPacketForward_steady (p : RoutedPacket) (s : State) :
    outAll (Steady s) (execPacketForward p s) := by
  unfold execPacketForward
  split
  · change Steady s _
    exact Steady.refl _
  · split
    · rename_i v2 v3
      refine absorb (P := optAll (Steady s)) v3 ?_ (fun q4 => ?_)
      · refine Steady.stepOpt ?_ (freeRx_frame _ _) (by decide)
        exact Steady.refl _
      change Steady s _
      exact Steady.refl _
    · rename_i v5 v6 v7
      refine absorb (P := optAll (Steady s)) v7 ?_ (fun q8 => ?_)
      · refine Steady.stepOpt ?_ (freeRx_frame _ _) (by decide)
        exact Steady.refl _
      split
      · change Steady s _
        refine Steady.rel ?_ _ (by rfl) (by rfl) (by rfl)
        assumption
      · split
        · change Steady s _
          refine Steady.step ?_ (hawUnreachable_frame _ _ _) (by decide)
          assumption
        · change Steady s _
          refine Steady.step ?_ (sendPacket_frame _ _) (by decide)
          assumption

theorem execLeaf_steady (c : Leaf) (t : Transit) (s : State) : outAll (Steady s) (execLeaf c t s) := by
  have pump {u : State} (h : Steady s u) : Steady s (pumpAll u) :=
    Steady.trans h (pumpAll_steady _)
  have deliver {u : State} (h : Steady s u) : Steady s (deliverData u) :=
    Steady.step h (deliverData_frame _) (by decide)
  unfold execLeaf
  split
  · have a : arrAll (Steady s) (meshArrive (.leaf (0, 0) c) t s) :=
      Steady.transArr (Steady.refl _) (meshArrive_steady _ _ _)
    show Steady _ _
    split
    · have f : optAll (Steady s) (freeRx (strayLeaf c) s) :=
        Steady.stepOpt (Steady.refl _) (freeRx_frame _ _) (by decide)
      cases h : freeRx (strayLeaf c) s with
      | none => exact Steady.refl _
      | some u => rw [h] at f; exact deliver f
    · rename_i e; rw [e] at a; exact pump a
    · rename_i e; rw [e] at a; exact pump a
  · rename_i g _
    split
    · show Steady _ _
      split
      · exact Steady.refl _
      · exact Steady.step (Steady.only_colls (.refl _) _) (post_frame _ _ _) (by decide)
    · split
      · exact Steady.refl _
      · have a : arrAll (Steady s) (packetArrive (c.member == (rtSet s g.rts).self) (0, 0) g.rts (.leaf (0, 0) c) t s)
            :=
          Steady.transArr (Steady.refl _) (packetArrive_steady _ _ _ _ _ _)
        split
        · exact Steady.refl _
        · rename_i e; rw [e] at a; exact pump (deliver a)
        · rename_i e; rw [e] at a; exact pump (deliver (Steady.step a (leafAt_frame _ _ _) (by decide)))

theorem execContribution_steady (c : Contribution) (t : Transit) (s : State) :
    outAll (Steady s) (execContribution c t s) := by
  unfold execContribution
  split
  · rename_i v0 v1
    refine absorb (P := arrAll (Steady s)) v1 ?_ (fun q2 => ?_)
    · refine Steady.transArr ?_ (meshArrive_steady _ _ _)
      exact Steady.refl _
    change Steady s _
    exact Steady.refl _
  · rename_i v3 v4 v5
    refine absorb (P := arrAll (Steady s)) v5 ?_ (fun q6 => ?_)
    · refine Steady.transArr ?_ (meshArrive_steady _ _ _)
      exact Steady.refl _
    change Steady s _
    refine Steady.trans ?_ (pumpAll_steady _)
    assumption
  · rename_i v7 v8 v9 v10 v11
    refine absorb (P := arrAll (Steady s)) v11 ?_ (fun q12 => ?_)
    · refine Steady.transArr ?_ (meshArrive_steady _ _ _)
      exact Steady.refl _
    change Steady s _
    refine Steady.trans ?_ (pumpAll_steady _)
    refine Steady.step ?_ (takeContribution_frame _ _ _) (by decide)
    assumption
  · rename_i v13 v14 v15 v16 v17
    refine absorb (P := arrAll (Steady s)) v17 ?_ (fun q18 => ?_)
    · refine Steady.transArr ?_ (meshArrive_steady _ _ _)
      exact Steady.refl _
    change Steady s _
    assumption

theorem execApplyPass_steady (k : Nat) (l : LaneFault) (rim : Option RimUnit) (s : State) :
    outAll (Steady s) (execApplyPass k l rim s) := by
  unfold execApplyPass
  split
  · change Steady s _
    exact Steady.refl _
  · split
    · change Steady s _
      exact Steady.refl _
    · split
      · change Steady s _
        exact Steady.refl _
      · change Steady s _
        exact Steady.step (.refl _) (skipEntry_frame _ _) (by decide)
      · split
        · change Steady s _
          exact Steady.refl _
        · extract_lets x18
          have h19 : Steady s x18 := by
            unfold x18
            exact Steady.trans (.refl _) (rimReads_steady _ _ _)
          clear_value x18
          split
          · change Steady s _
            assumption
          · split
            · rename_i v22 v23 v24
              refine absorb (P := sndAll (Steady s)) v24 ?_ (fun q25
                  => ?_)
              · refine Steady.transSnd ?_ (passMeets_steady _ _ _ _ _ _)
                assumption
              change Steady s _
              refine Steady.step ?_ (applySquare_frame _ _ _ _) (by decide)
              assumption
            · rename_i v26 v27 v28
              refine absorb (P := sndAll (Steady s)) v28 ?_ (fun q29
                  => ?_)
              · refine Steady.transSnd ?_ (passMeets_steady _ _ _ _ _ _)
                assumption
              change Steady s _
              assumption

theorem execCapstanConfirm_steady (k : Nat) (rim : Option RimUnit) (s : State) :
    outAll (Steady s) (execCapstanConfirm k rim s) := by
  unfold execCapstanConfirm
  split
  · change Steady s _
    exact Steady.refl _
  · split
    · change Steady s _
      exact Steady.refl _
    · extract_lets x7
      have h8 : Steady s x7 := by
        unfold x7
        exact Steady.trans (.refl _) (rimReads_steady _ _ _)
      clear_value x7
      split
      · change Steady s _
        refine Steady.step ?_ (setArmed_frame _ _) (by decide)
        refine Steady.step ?_ (parityPass_frame _ _) (by decide)
        assumption
      · change Steady s _
        assumption

theorem execCapstanFail_steady (k : Nat) (s : State) :
    outAll (Steady s) (execCapstanFail k s) := by
  unfold execCapstanFail
  split
  · change Steady s _
    exact Steady.refl _
  · change Steady s _
    exact Steady.trans (.refl _) (failCapstan_steady _ _)

theorem execRebuildComplete_steady (k : Nat) (s : State) :
    outAll (Steady s) (execRebuildComplete k s) := by
  unfold execRebuildComplete
  extract_lets x0
  clear_value x0
  split
  · change Steady s _
    refine Steady.trans ?_ (pumpAll_steady _)
    refine Steady.step ?_ (unsettleCap_frame _ _) (by decide)
    refine Steady.step ?_ (record_frame _ _ _ _ _ _ _ _ _ _) (by decide)
    exact Steady.step (.refl _) (setCapstan_frame _ _ _) (by decide)
  · change Steady s _
    exact Steady.refl _

theorem execControlPacket_steady (c : Control) (t : Transit) (s : State) :
    outAll (Steady s) (execControlPacket c t s) := by
  unfold execControlPacket
  split
  · rename_i v0 v1
    refine absorb (P := optAll (Steady s)) v1 ?_ (fun q2
        => ?_)
    · refine Steady.stepOpt ?_ (freeRx_frame _ _) (by decide)
      exact Steady.refl _
    change Steady s _
    exact Steady.refl _
  · rename_i v3 v4 v5
    refine absorb (P := optAll (Steady s)) v5 ?_ (fun q6
        => ?_)
    · refine Steady.stepOpt ?_ (freeRx_frame _ _) (by decide)
      exact Steady.refl _
    split
    · change Steady s _
      assumption
    · split
      · change Steady s _
        refine Steady.step ?_ (takeControl_frame _ _) (by decide)
        assumption
      · change Steady s _
        refine Steady.step ?_ (xingRecord_frame _ _ _ _) (by decide)
        assumption
      · split
        · rename_i v16 v17 v18 v19
          refine absorb (P := sndAll (Steady s)) v19 ?_
              (fun q20 => ?_)
          · refine Steady.transSnd ?_ (parityMeets_steady _ _ _ _ _ _)
            assumption
          change Steady s _
          refine Steady.ite ?_ ?_
          · assumption
          · refine Steady.step ?_ (takeControl_frame _ _) (by decide)
            assumption

theorem orHold_steady {s t : State} {h : HostAccess} {off : Nat} {wide : Bool} {v : Nat} {act : State → Out} (hs : Steady s t)
    (ha : outAll (Steady s) (act t)) : outAll (Steady s) (orHold h off wide v act t) := by
  unfold orHold
  split
  · exact hs
  · split
    · exact ha
    · split
      · exact Steady.only_host hs _
      · exact hs

theorem execCommittedWrite_steady (h : HostAccess) (v : W32) (s : State) :
    outAll (Steady s) (execCommittedWrite h v s) := by
  unfold execCommittedWrite
  refine orHold_steady ?_ ?_
  · exact Steady.refl _
  · split
    · change Steady s _
      exact Steady.trans (.refl _) (writeCommitted_steady _ _)
    · change Steady s _
      exact Steady.refl _

theorem execTallyComparison_steady (f : Nat) (fault : Option TallyFault) (s : State) :
    outAll (Steady s) (execTallyComparison f fault s) := by
  unfold execTallyComparison
  split
  · change Steady s _
    exact Steady.refl _
  · extract_lets x6
    have h7 : Steady s x6 := by
      unfold x6
      exact Steady.trans (.refl _) (compareRow_steady _ _ _ _)
    clear_value x6
    change Steady s _
    refine Steady.step ?_ (adjField_frame _ _ _) (by decide)
    assumption

theorem execChMigrate_steady (n : Nat) (c : Nat) (row : Option Nat) (s : State) :
    outAll (Steady s) (execChMigrate n c row s) := by
  unfold execChMigrate
  change Steady s _
  refine Steady.trans ?_ (needMigration_steady _ _ _)
  refine elim_of (P := (Steady s)) ?_ (fun y0 => ?_)
  · exact Steady.refl _
  · refine Steady.step ?_ (restoreGranule_frame _ _) (by decide)
    exact Steady.refl _

theorem execStackSplice_steady (n : Nat) (s : State) :
    outAll (Steady s) (execStackSplice n s) := by
  unfold execStackSplice
  split
  · rename_i v0 v1 v2 v3
    refine absorb (P := sndAll (Steady s)) v3 ?_ (fun q4 => ?_)
    · refine Steady.stepSnd ?_ (draw_frame _) (by decide)
      exact Steady.refl _
    change Steady s _
    refine Steady.trans ?_ (needSplice_steady _ _ _ _)
    assumption

theorem execMigrationSwitch_steady (n : Nat) (c : Nat) (spareFailed : Bool) (s : State) :
    outAll (Steady s) (execMigrationSwitch n c spareFailed s) := by
  unfold execMigrationSwitch
  extract_lets x0
  clear_value x0
  split
  · change Steady s _
    exact Steady.refl _
  · split
    · change Steady s _
      refine Steady.ite ?_ ?_
      · refine Steady.trans ?_ (spliceFails_steady _ _ _)
        exact Steady.refl _
      · refine Steady.trans ?_ (switchStack_steady _ _)
        exact Steady.refl _
    · split
      · change Steady s _
        exact Steady.trans (.refl _) (switchChannel_steady _ _ _ _)
      · change Steady s _
        exact Steady.refl _

theorem execRowRepair_steady (n : Nat) (c : Nat) (bank : Nat) (row : Nat) (readable : Bool) (copier : Bool) (s : State) :
    outAll (Steady s) (execRowRepair n c bank row readable copier s) := by
  unfold execRowRepair
  extract_lets x0
  clear_value x0
  split
  · change Steady s _
    refine Steady.ite ?_ ?_
    · refine Steady.step ?_ (restoreGranule_frame _ _) (by decide)
      exact Steady.refl _
    · exact Steady.refl _
  · change Steady s _
    exact Steady.trans (.refl _) (repairRow_steady _ _ _)

theorem execCalibrationSlot_steady (n : Nat) (c : Nat) (t1 : Nat) (t2 : Nat) (vref : Nat) (trained : Bool) (s : State) :
    outAll (Steady s) (execCalibrationSlot n c t1 t2 vref trained s) := by
  unfold execCalibrationSlot
  extract_lets x0 x1 x2 x3 x4
  have h5 : Steady s x4 := by
    unfold x4
    exact Steady.step (.refl _) (setStack_frame _ _ _) (by decide)
  clear_value x0 x1 x2 x3 x4
  split
  · change Steady s _
    refine Steady.ite ?_ ?_
    · refine Steady.trans ?_ (needMigration_steady _ _ _)
      assumption
    · assumption
  · change Steady s _
    exact Steady.refl _

theorem execScrub_steady (n : Nat) (c : Nat) (r : ArrayRead) (s : State) :
    outAll (Steady s) (execScrub n c r s) := by
  unfold execScrub
  extract_lets x0 x1 x2 x3
  have h4 : Steady s x3 := by
    unfold x3
    exact Steady.only_near (.refl _) _
  clear_value x0 x1 x2 x3
  split
  · change Steady s _
    exact Steady.refl _
  · change Steady s _
    refine Steady.step ?_ (endLap_frame _) (by decide)
    refine Steady.trans ?_ (scrubFinds_steady _ _ _ _ _)
    refine Steady.step ?_ (setStack_frame _ _ _) (by decide)
    assumption

theorem execRimScrub_steady (k : Nat) (r : Option (Nat × ArrayRead)) (s : State) :
    outAll (Steady s) (execRimScrub k r s) := by
  unfold execRimScrub
  split
  · change Steady s _
    refine Steady.step ?_ (rimStarve_frame _) (by decide)
    exact Steady.trans (.refl _) (rimStep_steady _ _ _ _)
  · change Steady s _
    exact Steady.step (.refl _) (rimStarve_frame _) (by decide)

theorem execNsThermal_steady (n : Nat) (rim : Bool) (a : List ℤ) (b : List ℤ) (s : State) :
    outAll (Steady s) (execNsThermal n rim a b s) := by
  unfold execNsThermal
  split
  · change Steady s _
    refine Steady.ite ?_ ?_
    · refine Steady.trans ?_ (resumeAccess_steady _)
      exact Steady.step (.refl _) (rimStackThermal_frame _ _ _) (by decide)
    · exact Steady.refl _
  · change Steady s _
    refine Steady.trans ?_ (resumeAccess_steady _)
    exact Steady.step (.refl _) (stackThermal_frame _ _ _) (by decide)

theorem execSelfTest_steady (f : Nat) (r : Nat) (bad : List Nat) (s : State) :
    outAll (Steady s) (execSelfTest f r bad s) := by
  unfold execSelfTest
  extract_lets x0 x1 x2 x3
  have h4 : Steady s x3 := by
    unfold x3
    exact Steady.rel (.refl _) _ (by rfl) (by rfl) (by rfl)
  clear_value x0 x1 x2 x3
  split
  · change Steady s _
    refine Steady.fold ?_ (fun u6 y7 h8 => ?_)
    · assumption
    · refine Steady.trans ?_ (testFails_steady _ _ _ _)
      assumption
  · change Steady s _
    exact Steady.refl _

theorem execTileSplice_steady (f : Nat) (r : Nat) (c : Nat) (readable : Bool) (s : State) :
    outAll (Steady s) (execTileSplice f r c readable s) := by
  unfold execTileSplice
  extract_lets x0 x1
  have h2 : ∀ a3, Steady s a3 → Steady s (x1 a3) := by
    intro b4 k5
    unfold x1
    refine Steady.rel ?_ _ (by rfl) (by rfl) (by rfl)
    assumption
  clear_value x0 x1
  split
  · change Steady s _
    exact Steady.refl _
  · split
    · split
      · change Steady s _
        apply h2
        · refine Steady.step ?_ (record_frame _ _ _ _ _ _ _ _ _ _) (by decide)
          refine Steady.step ?_ (clearTally_frame _ _ _) (by decide)
          refine Steady.step ?_ (addBadTile_frame _ _) (by decide)
          exact Steady.trans (.refl _) (journalRecord_steady _)
      · split
        · change Steady s _
          apply h2
          · refine Steady.trans ?_ (spliceRow_steady _ _ _ _ _)
            exact Steady.refl _
        · change Steady s _
          exact Steady.refl _
    · split
      · change Steady s _
        apply h2
        · exact Steady.refl _
      · change Steady s _
        apply h2
        · refine Steady.trans ?_ (noSpare_steady _ _ _ _)
          exact Steady.refl _

theorem execTileWear_steady (u : Nat) (count : Nat) (s : State) :
    outAll (Steady s) (execTileWear u count s) := by
  unfold execTileWear
  split
  · change Steady s _
    exact Steady.refl _
  · extract_lets x2 x3 x4 x5 x6 x7 x8
    have h9 : Steady s x3 := by
      unfold x3
      exact Steady.rel (.refl _) _ (by rfl) (by rfl) (by rfl)
    clear_value x2 x3 x4 x5 x6 x7 x8
    split
    · change Steady s _
      assumption
    · split
      · change Steady s _
        refine Steady.only_store ?_ _
        assumption
      · extract_lets x17 x18 x19 x20
        have h21 : Steady s x18 := by
          unfold x18
          refine Steady.ite ?_ ?_
          · assumption
          · refine Steady.step ?_ (record_frame _ _ _ _ _ _ _ _ _ _) (by decide)
            assumption
        have h22 : Steady s x20 := by
          unfold x20
          refine Steady.ite ?_ ?_
          · assumption
          · refine Steady.rel ?_ _ (by rfl) (by rfl) (by rfl)
            assumption
        clear_value x17 x18 x19 x20
        split
        · change Steady s _
          assumption
        · change Steady s _
          refine Steady.ite ?_ ?_
          · refine Steady.trans ?_ (requestWear_steady _ _)
            assumption
          · assumption

theorem execPhaseFault_steady (f : Nat) (k : Nat) (s : State) :
    outAll (Steady s) (execPhaseFault f k s) := by
  unfold execPhaseFault
  extract_lets x0 x1 x2 x3 x4 x5
  have h6 : Steady s x3 := by
    unfold x3
    refine Steady.step ?_ (addBadPhase_frame _ _) (by decide)
    exact Steady.step (.refl _) (setField_frame _ _ _) (by decide)
  have h7 : Steady s x4 := by
    unfold x4
    refine Steady.step ?_ (record_frame _ _ _ _ _ _ _ _ _ _) (by decide)
    assumption
  clear_value x0 x1 x2 x3 x4
  split
  · change Steady s _
    exact Steady.refl _
  · split
    · change Steady s _
      refine Steady.step ?_ (postFull_frame _ _ _ _ _ _ _) (by decide)
      refine Steady.rel ?_ _ (by rfl) (by rfl) (by rfl)
      assumption
    · change Steady s _
      assumption

theorem execPllSwitch_steady (d : Nat) (s : State) :
    outAll (Steady s) (execPllSwitch d s) := by
  unfold execPllSwitch
  extract_lets x0
  clear_value x0
  split
  · change Steady s _
    exact Steady.refl _
  · split
    · change Steady s _
      refine Steady.step ?_ (record_frame _ _ _ _ _ _ _ _ _ _) (by decide)
      refine Steady.step ?_ (xingReset_frame _ _) (by decide)
      exact Steady.trans (.refl _) (usePll_steady _ _)
    · change Steady s _
      refine Steady.step ?_ (record_frame _ _ _ _ _ _ _ _ _ _) (by decide)
      exact Steady.trans (.refl _) (stopDomain_steady _ _)

theorem execStageInventory_steady (v : Inventory) (s : State) :
    outAll (Steady s) (execStageInventory v s) := by
  unfold execStageInventory
  split
  · change Steady s _
    exact Steady.refl _
  · split
    · change Steady s _
      exact Steady.step (.refl _) (stageFatal_frame _ _) (by decide)
    · extract_lets x4
      have h5 : Steady s x4 := by
        unfold x4
        refine Steady.fold ?_ (fun u6 y7 h8 => ?_)
        · refine Steady.trans ?_ (assignDice_steady _)
          refine Steady.fold ?_ (fun u9 y10 h11 => ?_)
          · refine Steady.trans ?_ (assignTiles_steady _)
            exact Steady.step (.refl _) (takeBist_frame _ _) (by decide)
          · refine Steady.trans ?_ (assignPll_steady _ _)
            assumption
        · refine Steady.trans ?_ (assignPhases_steady _ _)
          assumption
      clear_value x4
      split
      · change Steady s _
        refine Steady.step ?_ (stageFatal_frame _ _) (by decide)
        assumption
      · split
        · change Steady s _
          refine Steady.step ?_ (stageFatal_frame _ _) (by decide)
          assumption
        · change Steady s _
          refine Steady.step ?_ (stageOk_frame _) (by decide)
          assumption

theorem execStageFill_steady (rows : List (Nat × Nat × Nat × Nat)) (failed : List (Nat × Nat)) (s : State) :
    outAll (Steady s) (execStageFill rows failed s) := by
  unfold execStageFill
  split
  · change Steady s _
    exact Steady.refl _
  · extract_lets x2 x3
    have h4 : Steady s x2 := by
      unfold x2
      refine Steady.fold ?_ (fun u5 y6 h7 => ?_)
      · refine Steady.step ?_ (zeroAll_frame _) (by decide)
        exact Steady.refl _
      · split
        · refine Steady.trans ?_ (repairRow_steady _ _ _)
          assumption
    have h13 : Steady s x3 := by
      unfold x3
      refine Steady.fold ?_ (fun u14 y15 h16 => ?_)
      · assumption
      · refine Steady.step ?_ (fillFails_frame _ _) (by decide)
        assumption
    clear_value x2 x3
    split
    · change Steady s _
      assumption
    · change Steady s _
      refine Steady.step ?_ (stageOk_frame _) (by decide)
      assumption

theorem imageStage_steady {s t : State} {stage kind : Nat} {go : State → State} (hs : Steady s t) (ha : ∀ u, Steady s u → Steady s (go u)) :
    outAll (Steady s) (imageStage stage kind go t) := by
  unfold imageStage
  split
  · exact hs
  · split
    · exact hs.step (stageResult_frame _ _ _ _) (by decide)
    · exact ha _ (hs.step (loadImage_frame _ _) (by decide))

theorem execStageCapstans_steady (failed : List Nat) (s : State) :
    outAll (Steady s) (execStageCapstans failed s) := by
  unfold execStageCapstans
  refine imageStage_steady ?_ ?_
  · exact Steady.refl _
  · intro a0 a1
    refine Steady.trans ?_ (capstanWork_steady _ _)
    assumption

theorem execBroadcastRound_steady (lacking : List (Nat × List Nat)) (silent : List Nat) (mismatch : List Nat) (s : State) :
    outAll (Steady s) (execBroadcastRound lacking silent mismatch s) := by
  unfold execBroadcastRound
  extract_lets x0 x1 x2 x3
  have h4 : Steady s x3 := by
    unfold x3
    exact Steady.step (.refl _) (setBu_frame _ _) (by decide)
  clear_value x0 x1 x2 x3
  split
  · change Steady s _
    exact Steady.refl _
  · split
    · change Steady s _
      refine Steady.step ?_ (stageOk_frame _) (by decide)
      assumption
    · split
      · change Steady s _
        assumption
      · change Steady s _
        refine Steady.step ?_ (stageOk_frame _) (by decide)
        refine Steady.trans ?_ (failTiles_steady _ _)
        assumption

theorem execDbgResume_steady (h : HostAccess) (s : State) :
    outAll (Steady s) (execDbgResume h s) := by
  unfold execDbgResume
  refine orHold_steady ?_ ?_
  · exact Steady.refl _
  · split
    · change Steady s _
      refine dbgGate_steady ?_ ?_
      · exact Steady.refl _
      · refine dbgOnTile_steady ?_ ?_
        · exact Steady.refl _
        · refine Steady.trans ?_ (dbgResume_steady _)
          exact Steady.refl _
    · change Steady s _
      exact Steady.refl _

theorem execCommandFetch_steady (n : Nat) (data : Option (List Byte)) (s : State) :
    outAll (Steady s) (execCommandFetch n data s) := by
  unfold execCommandFetch
  split
  · change Steady s _
    exact Steady.refl _
  · split
    · change Steady s _
      exact Steady.refl _
    · split
      · change Steady s _
        exact Steady.refl _
      · split
        · change Steady s _
          exact Steady.step (.refl _) (setHostQueue_frame _ _ _) (by decide)
        · change Steady s _
          exact Steady.trans (.refl _) (fetchCommand_steady _ _ _)

theorem execReplyWrite_steady (n : Nat) (t : Transit) (s : State) :
    outAll (Steady s) (execReplyWrite n t s) := by
  unfold execReplyWrite
  split
  · change Steady s _
    exact Steady.refl _
  · split
    · change Steady s _
      exact Steady.refl _
    · extract_lets x7 x8
      have h9 : Steady s x8 := by
        unfold x8
        exact Steady.only_host (.refl _) _
      clear_value x7 x8
      change Steady s _
      refine Steady.ite ?_ ?_
      · refine Steady.step ?_ (putReply_frame _ _ _ _) (by decide)
        refine Steady.trans ?_ (journalRecord_steady _)
        assumption
      · refine Steady.step ?_ (dropReply_frame _ _ _) (by decide)
        assumption

theorem execApertureRead_steady (port : Nat) (off : Nat) (n : Nat) (f : MoveFault) (s : State) :
    outAll (Steady s) (execApertureRead port off n f s) := by
  unfold execApertureRead
  extract_lets x0 x1 x2
  clear_value x0 x1 x2
  split
  · change Steady s _
    refine Steady.step ?_ (returnRead_frame _ _ _) (by decide)
    exact Steady.step (.refl _) (aperEarlyEvent_frame _ _) (by decide)
  · split
    · change Steady s _
      refine Steady.step ?_ (returnRead_frame _ _ _) (by decide)
      exact Steady.step (.refl _) (aperFault_frame _ _) (by decide)
    · split
      · change Steady s _
        exact Steady.step (.refl _) (returnRead_frame _ _ _) (by decide)
      · split
        · change Steady s _
          exact Steady.refl _
        · split
          · change Steady s _
            refine Steady.step ?_ (returnRead_frame _ _ _) (by decide)
            exact Steady.step (.refl _) (postFull_frame _ _ _ _ _ _ _) (by decide)
          · split
            · change Steady s _
              refine Steady.step ?_ (returnRead_frame _ _ _) (by decide)
              exact Steady.step (.refl _) (granuleFault_frame _ _ _ _ _) (by decide)
            · change Steady s _
              refine Steady.step ?_ (returnRead_frame _ _ _) (by decide)
              exact Steady.trans (.refl _) (accessMeets_steady _ _ _ _ _)

theorem execApertureWrite_steady (port : Nat) (off : Nat) (data : List Byte) (f : MoveFault) (s : State) :
    outAll (Steady s) (execApertureWrite port off data f s) := by
  unfold execApertureWrite
  extract_lets x0 x1 x2
  have h3 : Steady s x1 := by
    unfold x1
    exact Steady.trans (.refl _) (accessMeets_steady _ _ _ _ _)
  clear_value x0 x1 x2
  split
  · change Steady s _
    exact Steady.step (.refl _) (aperEarlyEvent_frame _ _) (by decide)
  · split
    · change Steady s _
      exact Steady.step (.refl _) (aperFault_frame _ _) (by decide)
    · split
      · change Steady s _
        exact Steady.refl _
      · split
        · change Steady s _
          refine Steady.only_host ?_ _
          assumption
        · split
          · change Steady s _
            refine Steady.step ?_ (noteAll_frame _) (by decide)
            refine Steady.step ?_ (nearWriteFor_frame _ _ _ _ _) (by decide)
            assumption
          · change Steady s _
            refine Steady.step ?_ (noteAll_frame _) (by decide)
            refine Steady.step ?_ (writeBytes_frame _ _ _) (by decide)
            assumption

end Sys2Proof.Machine
end

section
/-! SUPPORT. CT at a beat edge: it stands in its beat, and it never goes back (R27 to R34). -/

namespace Sys2Proof.Machine

/-! ### Words of CT -/

theorem ctEdge_start (c : CtWord) (n : Nat) : (ctEdge c n).toNat % 65536 = 0 := by
  rw [ctEdge, BitVec.toNat_ofNat]
  omega

theorem ctEdge_toNat {c : CtWord} (small : c.toNat < 2 ^ 63) {n : Nat} (few : n < 2 ^ 22) : (ctEdge c n).toNat = (c.toNat / 65536 + n) * 65536 := by
  rw [ctEdge, BitVec.toNat_ofNat]
  omega

theorem ctEdge_zero (c : CtWord) : (ctEdge c 0).toNat = c.toNat / 65536 * 65536 := by
  have := c.isLt
  rw [ctEdge, BitVec.toNat_ofNat]
  omega

theorem ctMk_start (turn beat : Nat) : (ctMk turn beat).toNat % 65536 = 0 := by
  rw [ctMk, BitVec.toNat_ofNat]
  omega

/-! ### What the stamp receiver leaves alone -/

/-- What a symbol, a stamp or CAD_OUT± can change of the receiver: CT and its edge stay, a receiver without CT can begin to acquire, a received CT can be lost. -/
structure Judged (c d : Cad) : Prop where
  ct : d.ct = c.ct
  edge : d.edge = c.edge
  slewUp : d.slewUp = c.slewUp
  slewLeft : d.slewLeft = c.slewLeft
  missing : d.missing = c.missing
  periodPs : d.periodPs = c.periodPs
  state : d.state = c.state ∨ (c.state = .unlocked ∧ d.state = .acquiring)
  rct : d.rct = c.rct ∨ d.rct = none

section
variable {c d e : Cad}

theorem Judged.refl (c : Cad) : Judged c c := ⟨rfl, rfl, rfl, rfl, rfl, rfl, .inl rfl, .inl rfl⟩

theorem Judged.trans (h : Judged c d) (k : Judged d e) : Judged c e := by
  refine ⟨k.ct.trans h.ct, k.edge.trans h.edge, k.slewUp.trans h.slewUp, k.slewLeft.trans h.slewLeft, k.missing.trans h.missing, k.periodPs.trans h.periodPs, ?_, ?_⟩
  · rcases k.state with same | ⟨was, now⟩
    · rw [same]
      exact h.state
    · rcases h.state with same | ⟨-, acquires⟩
      · exact .inr ⟨same ▸ was, now⟩
      · rw [acquires] at was
        exact CadState.noConfusion was
  · rcases k.rct with same | lost
    · rw [same]
      exact h.rct
    · exact .inr lost

theorem Judged.runs (h : Judged c d) : d.state.runs = c.state.runs := by
  rcases h.state with same | ⟨was, now⟩
  · rw [same]
  · rw [was, now]
    rfl

theorem Judged.stays (h : Judged c d) (some : c.state ≠ .unlocked) : d.state = c.state := h.state.resolve_right fun b => some b.1

theorem badStamp_judged (c : Cad) : Judged c (badStamp c) := ⟨rfl, rfl, rfl, rfl, rfl, rfl, .inl rfl, .inl rfl⟩

theorem acquire_judged (w : W64) (c : Cad) : Judged c (acquire w c) := by
  unfold acquire
  split
  · split
    · exact ⟨rfl, rfl, rfl, rfl, rfl, rfl, .inl rfl, .inl rfl⟩
    · exact ⟨rfl, rfl, rfl, rfl, rfl, rfl, .inl rfl, .inl rfl⟩
  · exact ⟨rfl, rfl, rfl, rfl, rfl, rfl, .inl rfl, .inl rfl⟩

theorem Judged.nom (h : Judged c d) (b : Bool) : Judged c { d with nom60 := b } := ⟨h.ct, h.edge, h.slewUp, h.slewLeft, h.missing, h.periodPs, h.state, h.rct⟩

theorem judgeStamp_judged (w : Option W64) (c : Cad) : Judged c (judgeStamp w c) := by
  have seen : Judged c { c with judged := true } := ⟨rfl, rfl, rfl, rfl, rfl, rfl, .inl rfl, .inl rfl⟩
  refine seen.trans ?_
  unfold judgeStamp
  generalize { c with judged := true } = c
  dsimp only
  cases w.filter stampValid with
  | none =>
    cases held : c.state with
    | internal => exact .refl _
    | holdover => exact ⟨rfl, rfl, rfl, rfl, rfl, rfl, .inl rfl, .inr rfl⟩
    | unlocked => exact badStamp_judged c
    | acquiring => exact badStamp_judged c
    | locked => exact badStamp_judged c
    | slew => exact badStamp_judged c
  | some w =>
    cases held : c.state with
    | internal => exact .refl _
    | unlocked =>
      have begun : Judged c { c with state := .acquiring } := ⟨rfl, rfl, rfl, rfl, rfl, rfl, .inr ⟨held, rfl⟩, .inl rfl⟩
      exact (begun.trans (acquire_judged w _)).nom _
    | acquiring => exact (acquire_judged w c).nom _
    | locked =>
      dsimp only
      split
      · exact ⟨rfl, rfl, rfl, rfl, rfl, rfl, .inl held.symm, .inl rfl⟩
      · exact badStamp_judged c
    | slew =>
      dsimp only
      split
      · exact ⟨rfl, rfl, rfl, rfl, rfl, rfl, .inl held.symm, .inl rfl⟩
      · exact badStamp_judged c
    | holdover =>
      dsimp only
      split
      · split
        · exact ⟨rfl, rfl, rfl, rfl, rfl, rfl, .inl held.symm, .inl rfl⟩
        · refine Judged.nom (Judged.trans ?_ (acquire_judged w _)) _
          exact ⟨rfl, rfl, rfl, rfl, rfl, rfl, .inl held.symm, .inr rfl⟩
      · exact (acquire_judged w c).nom _

theorem receive_judged (y : Symbol) (c : Cad) : Judged c (receive y c) := by
  have taken (rx : StampRx) : Judged c { c with rx := rx } := ⟨rfl, rfl, rfl, rfl, rfl, rfl, .inl rfl, .inl rfl⟩
  unfold receive
  dsimp only
  split
  · exact (taken _).trans (judgeStamp_judged _ _)
  · exact taken _

theorem receiveEnd_judged (y : Symbol) (c : Cad) : Judged c (receiveEnd y c) := by
  unfold receiveEnd
  split
  · exact ⟨rfl, rfl, rfl, rfl, rfl, rfl, .inl rfl, .inl rfl⟩
  · exact receive_judged y c

theorem stampDue_judged (c : Cad) : Judged c (stampDue c) := by
  have unmarked {d : Cad} (h : Judged c d) : Judged c { d with judged := false } := ⟨h.ct, h.edge, h.slewUp, h.slewLeft, h.missing, h.periodPs, h.state, h.rct⟩
  unfold stampDue
  dsimp only
  split
  · split
    · split
      · exact unmarked (.refl c)
      · exact unmarked (badStamp_judged c)
    · exact .refl c
  · exact .refl c

theorem beginOut_judged (c : Cad) : Judged c (beginOut c) := by
  have driven : Judged c (driveOut c) := by
    unfold driveOut
    split
    · exact ⟨rfl, rfl, rfl, rfl, rfl, rfl, .inl rfl, .inl rfl⟩
    · dsimp only
      split
      · exact ⟨rfl, rfl, rfl, rfl, rfl, rfl, .inl rfl, .inl rfl⟩
      · exact ⟨rfl, rfl, rfl, rfl, rfl, rfl, .inl rfl, .inl rfl⟩
  unfold beginOut
  dsimp only
  split
  · exact driven
  · exact driven.trans ⟨rfl, rfl, rfl, rfl, rfl, rfl, .inl rfl, .inl rfl⟩

theorem beatTick_judged (n : Nat) (s : State) : Judged s.cad (beatTick n s).cad := by
  unfold beatTick
  dsimp only
  split
  · exact beginOut_judged _
  · exact beginOut_judged _

/-- The module's own beats up to a CT change nothing of the receiver but CT. -/
theorem ownBeats_judged (t : CtWord) (s : State) : Judged { s.cad with ct := t } (ownBeats t s).cad := by
  have fold : ∀ (l : List Nat) (u : State), Judged { s.cad with ct := u.cad.ct } u.cad →
      Judged { s.cad with ct := (l.foldl (fun s _ => beatTick 1 (setCad { s.cad with ct := ctEdge s.cad.ct 1 } s)) u).cad.ct }
        (l.foldl (fun s _ => beatTick 1 (setCad { s.cad with ct := ctEdge s.cad.ct 1 } s)) u).cad := by
    intro l
    induction l with
    | nil => exact fun u h => h
    | cons x l ih =>
      intro u h
      refine ih _ ?_
      obtain ⟨ct, edge, slewUp, slewLeft, missing, period, state, rct⟩ := h
      have begun : Judged { s.cad with ct := ctEdge u.cad.ct 1 } { u.cad with ct := ctEdge u.cad.ct 1 } := ⟨rfl, edge, slewUp, slewLeft, missing, period, state, rct⟩
      have ticked := beatTick_judged 1 (setCad { u.cad with ct := ctEdge u.cad.ct 1 } u)
      have both := begun.trans ticked
      exact ⟨rfl, both.edge, both.slewUp, both.slewLeft, both.missing, both.periodPs, both.state, both.rct⟩
  obtain ⟨-, edge, slewUp, slewLeft, missing, period, state, rct⟩ := fold (List.range (t.toNat / 65536 - s.cad.ct.toNat / 65536)) s (.refl _)
  exact ⟨rfl, edge, slewUp, slewLeft, missing, period, state, rct⟩

/-! ### CT in its beat -/

theorem lastCt_congr (state : d.state = c.state) (ct : d.ct = c.ct) (edge : d.edge = c.edge) (slewUp : d.slewUp = c.slewUp) : lastCt d = lastCt c := by
  rw [lastCt, lastCt, state, ct, edge, slewUp]

theorem lastCt_of_steady (steady : c.state ≠ .slew) : lastCt c = c.ct.toNat / 65536 * 65536 + 65535 := by
  rw [lastCt, if_neg (by simpa using steady)]

theorem lastCt_of_slew (slews : c.state = .slew) :
    lastCt c = min (c.ct.toNat / 65536 * 65536 + 65535) (c.edge.toNat + if c.slewUp = true then 0x10FFF else 0xEFFF) := by
  rw [lastCt, if_pos (by simpa using slews)]

/-- A receiver that differs elsewhere, and in its received CT. -/
theorem CtInBeat.of_alike (h : CtInBeat c) (state : d.state = c.state) (ct : d.ct = c.ct) (edge : d.edge = c.edge) (slewUp : d.slewUp = c.slewUp)
    (slewLeft : d.slewLeft = c.slewLeft) (received : ∀ r, d.rct = some r → r.toNat % 65536 = 0) : CtInBeat d := by
  obtain ⟨low, high, beat, start, slew, -⟩ := h
  refine ⟨?_, ?_, ?_, ?_, ?_, received⟩
  · rw [state, ct, edge]
    exact low
  · rw [state, lastCt_congr state ct edge slewUp, ct]
    exact high
  · rw [state, ct, edge]
    exact beat
  · rw [state, edge]
    exact start
  · rw [state, edge, slewUp, slewLeft]
    exact slew

/-- A receiver that differs elsewhere. -/
theorem CtInBeat.of_same (h : CtInBeat c) (state : d.state = c.state) (ct : d.ct = c.ct) (edge : d.edge = c.edge) (slewUp : d.slewUp = c.slewUp)
    (slewLeft : d.slewLeft = c.slewLeft) (rct : d.rct = c.rct ∨ d.rct = none) : CtInBeat d := by
  refine h.of_alike state ct edge slewUp slewLeft ?_
  rcases rct with same | lost
  · rw [same]
    exact h.received
  · rw [lost]
    exact fun _ no => nomatch no

/-- A receiver without CT. -/
theorem CtInBeat.of_still (still : c.state.runs = false) (received : ∀ r, c.rct = some r → r.toNat % 65536 = 0) : CtInBeat c := by
  have no {p : Prop} (runs : c.state.runs = true) : p := absurd runs (ne_true_of_eq_false still)
  refine ⟨no, no, fun runs => no runs, fun runs => no runs, fun slews => ?_, received⟩
  rw [slews] at still
  exact absurd still (by decide)

theorem CtInBeat.judged (h : CtInBeat c) (k : Judged c d) : CtInBeat d := by
  have received : ∀ r, d.rct = some r → r.toNat % 65536 = 0 := by
    rcases k.rct with same | lost
    · rw [same]
      exact h.received
    · rw [lost]
      exact fun _ no => nomatch no
  by_cases unlocked : c.state = .unlocked
  · exact .of_still (k.runs.trans (by rw [unlocked]; rfl)) received
  · exact h.of_same (k.stays unlocked) k.ct k.edge k.slewUp k.slewLeft k.rct

/-- CT at the start of its beat, timed from there. -/
theorem CtInBeat.of_start (ct : c.ct = c.edge) (start : c.edge.toNat % 65536 = 0) (steady : c.state ≠ .slew)
    (received : ∀ r, c.rct = some r → r.toNat % 65536 = 0) : CtInBeat c := by
  refine ⟨fun _ => by rw [ct], fun _ => ?_, fun _ _ => by rw [ct], fun _ _ => start, fun slews => absurd slews steady, received⟩
  rw [lastCt_of_steady steady, ct]
  omega

/-- CT anywhere in a beat, timed from the beat's start. -/
theorem CtInBeat.of_beat (edge : c.edge = ctEdge c.ct 0) (steady : c.state ≠ .slew) (received : ∀ r, c.rct = some r → r.toNat % 65536 = 0) :
    CtInBeat c := by
  have at_ : c.edge.toNat = c.ct.toNat / 65536 * 65536 := by rw [edge, ctEdge_zero]
  refine ⟨fun _ => by omega, fun _ => ?_, fun _ _ => by omega, fun _ _ => by omega, fun slews => absurd slews steady, received⟩
  rw [lastCt_of_steady steady]
  omega

/-- A move of CT within its beat. -/
theorem CtInBeat.move (h : CtInBeat c) {t : CtWord} (later : c.state.runs = true → c.ct.toNat ≤ t.toNat) (within : c.state.runs = true → t.toNat ≤ lastCt c) :
    CtInBeat { c with ct := t } := by
  obtain ⟨low, high, beat, start, slew, received⟩ := h
  have last (runs : c.state.runs = true) : lastCt { c with ct := t } = lastCt c := by
    have a := later runs
    have b := within runs
    by_cases slews : c.state = .slew
    · rw [lastCt_of_slew slews] at b
      rw [lastCt_of_slew slews, lastCt_of_slew (c := { c with ct := t }) slews]
      have same : t.toNat / 65536 = c.ct.toNat / 65536 := by omega
      dsimp only
      rw [same]
    · rw [lastCt_of_steady slews] at b
      rw [lastCt_of_steady slews, lastCt_of_steady (c := { c with ct := t }) slews]
      dsimp only
      omega
  refine ⟨fun runs => (low runs).trans (later runs), fun runs => ?_, fun runs steady => ?_, start, slew, received⟩
  · exact (within runs).trans_eq (last runs).symm
  · have a := later runs
    have b := within runs
    have k := beat runs steady
    rw [lastCt_of_steady (c := c) steady] at b
    dsimp only
    omega

end

end Sys2Proof.Machine
end

section
/-! SUPPORT. A beat edge keeps CT in its beat and moves it forward (R27 to R34). -/

namespace Sys2Proof.Machine

/-- From one receiver to the next CT comes to stand in its beat, and where it ran it does not go back. -/
structure Goes (c d : Cad) : Prop where
  beat : CtInBeat d
  later : c.state.runs = true → c.ct.toNat ≤ d.ct.toNat

section
variable {c d e : Cad} {s : State}

theorem Goes.of_beat (h : CtInBeat c) : Goes c c := ⟨h, fun _ => le_rfl⟩

theorem Goes.judged (h : Goes c d) (k : Judged d e) : Goes c e := by
  refine ⟨h.beat.judged k, fun runs => ?_⟩
  rw [k.ct]
  exact h.later runs

theorem Goes.tick {u : State} (n : Nat) (h : Goes c u.cad) : Goes c (beatTick n u).cad := h.judged (beatTick_judged n u)

/-- A receiver that differs elsewhere, and in its received CT. -/
theorem Goes.of_alike (h : CtInBeat c) (state : d.state = c.state) (ct : d.ct = c.ct) (edge : d.edge = c.edge) (slewUp : d.slewUp = c.slewUp)
    (slewLeft : d.slewLeft = c.slewLeft) (received : ∀ r, d.rct = some r → r.toNat % 65536 = 0) : Goes c d :=
  ⟨h.of_alike state ct edge slewUp slewLeft received, fun _ => by rw [ct]⟩

/-- A receiver without CT before. -/
theorem Goes.of_still (still : c.state.runs = false) (beat : CtInBeat d) : Goes c d := ⟨beat, fun runs => absurd runs (ne_true_of_eq_false still)⟩

theorem ctEdge_next (small : c.ct.toNat < 2 ^ 62) : c.ct.toNat ≤ (ctEdge c.ct 1).toNat := by
  rw [ctEdge_toNat (by omega) (by omega)]
  omega

/-! ### The module's own edge -/

/-- The module's own edge, where CT is timed from each of its beats. -/
theorem ownBeat_goes (h : CtInBeat c) (small : c.ct.toNat < 2 ^ 62) (steady : c.state ≠ .slew) (n : Nat) :
    Goes c { c with ct := ctEdge c.ct 1, edge := ctEdge c.ct 1, holdBeats := n } :=
  ⟨.of_start rfl (ctEdge_start _ _) steady h.received, fun _ => ctEdge_next small⟩

/-- The module's own edge in SLEW, before the next received one. -/
theorem slewBeat_goes (h : CtInBeat c) (small : c.ct.toNat < 2 ^ 62) (held : c.state = .slew)
    (within : (ctEdge c.ct 1).toNat ≤ c.edge.toNat + if c.slewUp = true then 0x10FFF else 0xEFFF) : Goes c { c with ct := ctEdge c.ct 1 } := by
  have low := h.low (by rw [held]; rfl)
  refine ⟨⟨fun _ => low.trans (ctEdge_next small), fun _ => ?_, fun _ steady => absurd held steady, h.edge, h.slew, h.received⟩, fun _ => ctEdge_next small⟩
  rw [lastCt_of_slew (c := { c with ct := ctEdge c.ct 1 }) held]
  dsimp only
  refine Nat.le_min.2 ⟨?_, within⟩
  omega

theorem ownEdge_goes (h : CtInBeat s.cad) (small : s.cad.ct.toNat < 2 ^ 62) : Goes s.cad (ownEdge s).cad := by
  unfold ownEdge
  dsimp only
  split
  next held => exact (ownBeat_goes h small (by rw [held]; decide) _).tick 1 (u := setCad _ s)
  next held => exact (ownBeat_goes h small (by rw [held]; decide) _).tick 1 (u := setCad _ s)
  next held =>
    by_cases within : (ctEdge s.cad.ct 1).toNat ≤ s.cad.edge.toNat + if s.cad.slewUp = true then 0x10FFF else 0xEFFF
    · rw [if_pos within]
      exact (slewBeat_goes h small held within).tick 1 (u := setCad _ s)
    · rw [if_neg within]
      exact .of_beat h
  next => exact .of_beat h

/-! ### An edge missing from its window -/

theorem lastCt_toNat (h : CtInBeat c) (runs : c.state.runs = true) (small : c.ct.toNat < 2 ^ 62) :
    (BitVec.ofNat 64 (lastCt c)).toNat = lastCt c ∧ c.ct.toNat ≤ lastCt c := by
  have high := h.high runs
  have last : lastCt c ≤ c.ct.toNat / 65536 * 65536 + 65535 := by
    by_cases slews : c.state = .slew
    · rw [lastCt_of_slew slews]
      omega
    · rw [lastCt_of_steady slews]
  rw [BitVec.toNat_ofNat]
  omega

theorem missEdge_goes (y : Symbol) (h : CtInBeat s.cad) (small : s.cad.ct.toNat < 2 ^ 62) : Goes s.cad (missEdge y s).cad := by
  have j := receiveEnd_judged y s.cad
  have beat := h.judged j
  have saturated (runs : s.cad.state.runs = true) :
      Goes s.cad { receiveEnd y s.cad with
        ct := BitVec.ofNat 64 (lastCt (receiveEnd y s.cad)), missing := (receiveEnd y s.cad).missing + 1
        edgeErr := satAdd 8 (receiveEnd y s.cad).edgeErr 1 } := by
    obtain ⟨same, up⟩ := lastCt_toNat beat (j.runs.trans runs) (by rw [j.ct]; exact small)
    have moved := beat.move (t := BitVec.ofNat 64 (lastCt (receiveEnd y s.cad))) (fun _ => by rw [same]; exact up) (fun _ => by rw [same])
    refine ⟨moved.of_same rfl rfl rfl rfl rfl (.inl rfl), fun _ => ?_⟩
    rw [← j.ct]
    exact up.trans_eq same.symm
  unfold missEdge
  dsimp only
  split
  next => exact .of_beat h
  next held => exact .of_still (by rw [held]; rfl) beat
  next held => exact .of_still (by rw [held]; rfl) (beat.of_same rfl rfl rfl rfl rfl (.inl rfl))
  next held =>
    have kept : Goes s.cad (dropAcquired { receiveEnd y s.cad with
        edgeErr := satAdd 8 (receiveEnd y s.cad).edgeErr 1, missing := (receiveEnd y s.cad).missing + 1 }) :=
      ⟨beat.of_same rfl rfl rfl rfl rfl (.inl rfl), fun _ => by rw [← j.ct]; exact le_rfl⟩
    split
    · exact ⟨kept.beat.of_same rfl rfl rfl rfl rfl (.inr rfl), kept.later⟩
    · exact kept
  next held => exact saturated (by rw [held]; rfl)
  next held => exact saturated (by rw [held]; rfl)

/-! ### A received edge -/

theorem countEdge_received (c : Cad) : ∀ r, (countEdge c).rct = some r → r.toNat % 65536 = 0 := by
  intro r found
  obtain ⟨x, -, rfl⟩ := Option.map_eq_some_iff.1 found
  exact ctEdge_start _ _

theorem holdEdge_goes (periodPs : Nat) (h : CtInBeat c) : Goes c (holdEdge periodPs c) := by
  have counted : Goes c (countEdge c) := .of_alike h rfl rfl rfl rfl rfl (countEdge_received c)
  have due := counted.judged (stampDue_judged (countEdge c))
  unfold holdEdge
  dsimp only
  split
  · exact ⟨due.beat.of_same rfl rfl rfl rfl rfl (.inr rfl), due.later⟩
  · exact due

/-- The end of an acquisition in HOLDOVER (R30): CT goes on to the beat start at or after it that lies whole beats from the received CT. -/
theorem realign_goes {r wo : CtWord} {per : Nat} (start : r.toNat % 65536 = 0) (ahead : s.cad.ct.toNat ≤ wo.toNat)
    (same : wo.toNat / 65536 = s.cad.ct.toNat / 65536) (h : CtInBeat s.cad) (held : s.cad.state = .holdover) (small : s.cad.ct.toNat < 2 ^ 62) :
    Goes s.cad (realign r wo per s).cad := by
  have received (c : Cad) (is : c.rct = some r) : ∀ x, c.rct = some x → x.toNat % 65536 = 0 := by
    intro x found
    rw [is] at found
    exact Option.some.inj found ▸ start
  unfold realign
  extract_lets src c d t s' c'
  split
  next near =>
    have far : t.toNat % 65536 = 0 ∧ wo.toNat ≤ t.toNat ∧ t.toNat < 2 ^ 63 := by
      have value : (t.toNat : Int) = (r.toNat : Int) - d * 65536 := by
        have bounds : 0 ≤ (r.toNat : Int) - d * 65536 ∧ (r.toNat : Int) - d * 65536 < 2 ^ 64 := by
          unfold d beatDiff
          omega
        unfold t
        rw [BitVec.toNat_ofInt]
        omega
      unfold d beatDiff at value
      omega
    obtain ⟨aligned, after, low⟩ := far
    have j : Judged { c with ct := t } s'.cad := ownBeats_judged t (setCad c s)
    have ct : c'.ct = t := j.ct
    refine ⟨?_, fun _ => ?_⟩
    · change CtInBeat (if d = 0 then _ else _)
      split
      · exact .of_start ct aligned (fun e => CadState.noConfusion e) fun _ no => nomatch no
      next some =>
        refine ⟨fun _ => ?_, fun _ => ?_, fun _ steady => absurd rfl steady, fun _ steady => absurd rfl steady, fun _ => ⟨?_, ?_⟩, ?_⟩
        · exact (congrArg BitVec.toNat ct).ge
        · rw [lastCt_of_slew (by rfl)]
          dsimp only
          rw [ct]
          change t.toNat ≤ min _ (t.toNat + _)
          omega
        · dsimp only
          omega
        · dsimp only
          change (t.toNat + 16 * d.natAbs * _) % 65536 = 0
          split <;> omega
        · rcases j.rct with is | lost
          · exact received c' is
          · exact fun x found => by rw [show c'.rct = none from lost] at found; exact nomatch found
    · change _ ≤ BitVec.toNat (Cad.ct (if d = 0 then _ else _))
      split
      · exact (ahead.trans after).trans_eq (congrArg BitVec.toNat ct).symm
      · exact (ahead.trans after).trans_eq (congrArg BitVec.toNat ct).symm
  next =>
    rw [post, postFull_cad]
    have moved := h.move (t := wo) (fun _ => ahead) fun _ => by
      rw [lastCt_of_steady (by rw [held]; decide)]
      omega
    exact ⟨moved.of_alike rfl rfl rfl rfl rfl (received _ rfl), fun _ => ahead⟩

theorem ctAt_beat (frac : BitVec 16) (c : Cad) : c.ct.toNat ≤ (ctAt frac c).toNat ∧ (ctAt frac c).toNat / 65536 = c.ct.toNat / 65536 := by
  have value : (ctEdge c.ct 0 + frac.setWidth 64).toNat = c.ct.toNat / 65536 * 65536 + frac.toNat := by
    have small := frac.isLt
    have start := ctEdge_zero c.ct
    have bound := c.ct.isLt
    rw [BitVec.toNat_add, start, BitVec.toNat_setWidth]
    omega
  unfold ctAt
  have small := frac.isLt
  dsimp only
  split
  · omega
  · exact ⟨le_rfl, rfl⟩

/-- An edge received in LOCKED. -/
theorem lockedEdge_goes {n per : Nat} (h : CtInBeat c) (held : c.state = .locked) (some : 1 ≤ n) (few : n < 2 ^ 22) (small : c.ct.toNat < 2 ^ 62) :
    Goes c { c with ct := ctEdge c.edge n, edge := ctEdge c.edge n, missing := 0, periodPs := per } := by
  have low := h.low (by rw [held]; rfl)
  have beat := h.beat (by rw [held]; rfl) (by rw [held]; decide)
  refine ⟨.of_start rfl (ctEdge_start _ _) (by rw [held]; decide) h.received, fun _ => ?_⟩
  dsimp only
  rw [ctEdge_toNat (by omega) few]
  omega

/-- Where an edge received in SLEW takes CT (R30): its new edge, at a beat start with the last of them. -/
theorem slew_advances (h : CtInBeat c) (held : c.state = .slew) (small : c.ct.toNat < 2 ^ 62) (few : c.missing < 2 ^ 20) :
    let t := c.edge + BitVec.ofNat 64 (slewAdvance c)
    c.ct.toNat ≤ t.toNat ∧ (c.slewLeft ≤ c.missing + 1 → t.toNat % 65536 = 0) ∧
      (c.missing + 1 < c.slewLeft → (t.toNat + (c.slewLeft - (c.missing + 1)) * (if c.slewUp then 0x11000 else 0xF000)) % 65536 = 0) := by
  intro t
  have low := h.low (by rw [held]; rfl)
  have high := h.high (by rw [held]; rfl)
  obtain ⟨some, ends⟩ := h.slew held
  rw [lastCt_of_slew held] at high
  have value : t.toNat = c.edge.toNat + slewAdvance c := by
    unfold t
    rw [BitVec.toNat_add, BitVec.toNat_ofNat]
    unfold slewAdvance
    dsimp only
    split <;> omega
  rw [value]
  unfold slewAdvance
  dsimp only
  cases up : c.slewUp with
  | true =>
    simp only [up, if_true] at ends high ⊢
    omega
  | false =>
    simp only [up, Bool.false_eq_true, if_false] at ends high ⊢
    omega

end

end Sys2Proof.Machine
end

section
/-! SUPPORT. Beat edges of every kind (R27 to R36). -/

namespace Sys2Proof.Machine

section
variable {s : State}

/-- A received edge in HOLDOVER at the end of an acquisition. -/
theorem holdoverEdge_goes (frac : BitVec 16) (per : Nat) (y : Symbol) (h : CtInBeat s.cad) (small : s.cad.ct.toNat < 2 ^ 62) (held : s.cad.state = .holdover) :
    Goes s.cad (realign (ctMk ((receiveEnd y s.cad).acqTurn.getD 0) 64) (ctAt frac (receiveEnd y s.cad)) per
      (setCad { receiveEnd y s.cad with judged := false } s)).cad := by
  have j := receiveEnd_judged y s.cad
  obtain ⟨ahead, same⟩ := ctAt_beat frac (receiveEnd y s.cad)
  have goes := realign_goes (s := setCad { receiveEnd y s.cad with judged := false } s) (per := per) (ctMk_start ((receiveEnd y s.cad).acqTurn.getD 0) 64) ahead same
    ((h.judged j).of_same rfl rfl rfl rfl rfl (.inl rfl)) ((j.stays (by rw [held]; decide)).trans held) (by rw [← j.ct] at small; exact small)
  refine ⟨goes.beat, fun runs => ?_⟩
  rw [← j.ct]
  exact goes.later (j.runs.trans runs)

/-- The state after an edge received in SLEW. -/
def slewOn (per : Nat) (c : Cad) (s : State) : State :=
  let u := ownBeats (c.edge + BitVec.ofNat 64 (slewAdvance c)) (setCad c s)
  let d := { u.cad with
    edge := c.edge + BitVec.ofNat 64 (slewAdvance c), slewLeft := c.slewLeft - (c.missing + 1), rct := c.rct.map fun r => ctEdge r (c.missing + 1)
    missing := 0, periodPs := per }
  setCad (if c.slewLeft - (c.missing + 1) = 0 then { stampDue d with state := .locked, rct := none } else stampDue d) u

/-- A received edge in SLEW. -/
theorem slewOn_goes {c : Cad} (per : Nat) (h : CtInBeat c) (small : c.ct.toNat < 2 ^ 62) (few : c.missing < 2 ^ 20) (held : c.state = .slew) :
    Goes c (slewOn per c s).cad := by
  obtain ⟨ahead, ended, goesOn⟩ := slew_advances h held small few
  unfold slewOn
  generalize c.edge + BitVec.ofNat 64 (slewAdvance c) = t at *
  extract_lets u src d
  have k : Judged { c with ct := t } u.cad := ownBeats_judged t (setCad c s)
  have ct : d.ct = t := k.ct
  have later : c.ct.toNat ≤ d.ct.toNat := by rw [ct]; exact ahead
  have state : d.state = .slew := (k.stays (by rw [held]; exact fun e => CadState.noConfusion e)).trans held
  have rct : ∀ r, d.rct = some r → r.toNat % 65536 = 0 := by
    intro r found
    obtain ⟨x, -, rfl⟩ := Option.map_eq_some_iff.1 found
    exact ctEdge_start _ _
  have due := stampDue_judged d
  split
  next last =>
    refine ⟨.of_start ?_ ?_ (fun e => CadState.noConfusion e) (fun _ no => nomatch no), fun _ => later.trans_eq (congrArg BitVec.toNat due.ct).symm⟩
    · exact due.ct.trans (ct.trans due.edge.symm)
    · change (stampDue d).edge.toNat % 65536 = 0
      rw [due.edge]
      exact ended (by omega)
  next more =>
    refine Goes.judged (d := d) ⟨⟨fun _ => ?_, fun _ => ?_, fun _ steady => absurd state steady, fun _ steady => absurd state steady, fun _ => ⟨?_, ?_⟩, rct⟩,
      fun _ => later⟩ due
    · exact (congrArg BitVec.toNat ct).ge
    · rw [lastCt_of_slew state, ct]
      change t.toNat ≤ min _ (t.toNat + _)
      omega
    · exact Nat.one_le_iff_ne_zero.2 more
    · have same : d.slewUp = c.slewUp := k.slewUp
      rw [same]
      exact goesOn (by omega)

theorem acceptEdge_goes (frac : BitVec 16) (per : Nat) (y : Symbol) (h : CtInBeat s.cad) (small : s.cad.ct.toNat < 2 ^ 62) (few : s.cad.missing < 2 ^ 20) :
    Goes s.cad (acceptEdge frac per y s).cad := by
  have j := receiveEnd_judged y s.cad
  have beat := h.judged j
  have kept {d : Cad} (goes : Goes (receiveEnd y s.cad) d) : Goes s.cad d :=
    ⟨goes.beat, fun runs => by rw [← j.ct]; exact goes.later (j.runs.trans runs)⟩
  unfold acceptEdge
  dsimp only
  split
  next => exact .of_beat h
  next held => exact .of_still (by rw [held]; rfl) (beat.of_same rfl rfl rfl rfl rfl (.inl rfl))
  next held =>
    have still : s.cad.state.runs = false := by rw [held]; rfl
    split
    · exact .of_still still (beat.of_alike rfl rfl rfl rfl rfl (countEdge_received _))
    · split
      · exact .of_still still (beat.of_same rfl rfl rfl rfl rfl (.inl rfl))
      · refine .of_still still (CtInBeat.judged ?_ (beatTick_judged 1 (setCad _ s)))
        exact .of_start rfl (ctMk_start _ 64) (fun e => CadState.noConfusion e) beat.received
  next held =>
    split
    · exact kept (holdEdge_goes per beat)
    · split
      · exact kept (.of_alike beat rfl rfl rfl rfl rfl beat.received)
      · exact holdoverEdge_goes frac per y h small held
  next held =>
    have locked : (receiveEnd y s.cad).state = .locked := (j.stays (by rw [held]; decide)).trans held
    have goes := lockedEdge_goes (n := (receiveEnd y s.cad).missing + 1) (per := per) beat locked (by omega) (by rw [j.missing]; omega) (by rw [j.ct]; exact small)
    refine Goes.tick _ (u := setCad _ s) (Goes.judged ⟨goes.beat, fun runs => ?_⟩ (stampDue_judged _))
    rw [← j.ct]
    exact goes.later (j.runs.trans runs)
  next held =>
    have goes := slewOn_goes (s := s) per beat (by rw [j.ct]; exact small) (by rw [j.missing]; exact few) ((j.stays (by rw [held]; decide)).trans held)
    exact kept goes

/-! ### A beat edge -/

/-- The state right after a beat signal, before the pulses to the routers. -/
def afterEdge (b : BeatSignal) (s : State) : State :=
  let s := setCad { s.cad with outBeats := [] } s
  match b with
  | .own => ownEdge s
  | .missing a38 a58 => missEdge (symbolOf a38 a58) s
  | .received frac off per a38 a58 =>
    if (s.cad.state == .locked || s.cad.state == .slew) && !inWindow s.cad off then s else acceptEdge frac per (symbolOf a38 a58) s

theorem beatEdge_eq (b : BeatSignal) (stuck : List Nat) (s : State) : beatEdge b stuck s =
    if (afterEdge b s).snap.seq = s.snap.seq then followCad (afterEdge b s)
    else followCad (heartbeats stuck (pulseRouters (stuckNow (afterEdge b s) stuck) (afterEdge b s))) := by
  cases b <;> rfl

theorem afterEdge_goes (b : BeatSignal) (h : CtInBeat s.cad) (small : s.cad.ct.toNat < 2 ^ 62) (few : s.cad.missing < 2 ^ 20) :
    Goes s.cad (afterEdge b s).cad := by
  have clear : Goes s.cad { s.cad with outBeats := [] } := .of_alike h rfl rfl rfl rfl rfl h.received
  have from_ {d : Cad} (goes : Goes { s.cad with outBeats := [] } d) : Goes s.cad d := ⟨goes.beat, goes.later⟩
  unfold afterEdge
  dsimp only
  split
  · exact from_ (ownEdge_goes (s := setCad { s.cad with outBeats := [] } s) clear.beat small)
  · exact from_ (missEdge_goes _ (s := setCad { s.cad with outBeats := [] } s) clear.beat small)
  · split
    · exact clear
    · exact from_ (acceptEdge_goes _ _ _ (s := setCad { s.cad with outBeats := [] } s) clear.beat small few)

theorem heartbeats_keeps (stuck : List Nat) (u : State) : (heartbeats stuck u).cad = u.cad ∧ (heartbeats stuck u).rel.ccFailed = u.rel.ccFailed ∧
    (heartbeats stuck u).rel.standby = u.rel.standby := by
  unfold heartbeats
  split
  · exact ⟨rfl, rfl, rfl⟩
  · exact ⟨rfl, rfl, rfl⟩

theorem beatEdge_cad (b : BeatSignal) (stuck : List Nat) (s : State) : (beatEdge b stuck s).cad = (afterEdge b s).cad := by
  rw [beatEdge_eq]
  split
  · exact followCad_cad _
  · rw [followCad_cad, (heartbeats_keeps _ _).1]
    exact pulseRouters_frame _ _ .cad (by decide)

theorem exec_beatEdge_cad {b : BeatSignal} {stuck : List Nat} {t : State} (run : exec (.beatEdge b stuck) s = .next t) : t.cad = (afterEdge b s).cad := by
  cases run
  have resumed : (resumeAccess (closePassing (beatEdge b stuck s))).cad = (closePassing (beatEdge b stuck s)).cad := resumeAccess_frame _ .cad (by decide)
  have closed : (closePassing (beatEdge b stuck s)).cad = (beatEdge b stuck s).cad := closePassing_frame _ .cad (by decide)
  rw [resumed, closed, beatEdge_cad]

theorem beatEdgeNeverMovesCtBack : Claim.BeatEdgeNeverMovesCtBack := by
  intro b stuck s t runs h small few run
  rw [exec_beatEdge_cad run]
  refine (afterEdge_goes b h small few).later ?_
  unfold ctRuns at runs
  revert runs
  cases s.cad.state <;> exact id

end

end Sys2Proof.Machine
end

section
/-! SUPPORT. A received beat edge in LOCKED (R27, R34, R36, R44, R45). -/

namespace Sys2Proof.Machine

/-! ### Pulses -/

/-- Where the interrupts' crossing takes pulses, a message leaves no trace in the log, in XING_STATUS and in the store. -/
theorem sendMsi_quiet (port : Nat) (v : Byte) {s : State} (calm : Calm s) :
    (sendMsi port v s).host.events = s.host.events ∧ (sendMsi port v s).host.evtSent = s.host.evtSent ∧ (sendMsi port v s).store = s.store ∧
      (sendMsi port v s).xing = s.xing := by
  have open_ : (!s.xing.lag.contains (toggleOf 12 14)) = true := by rw [show s.xing.lag.contains _ = false from calm]; rfl
  unfold sendMsi
  extract_lets p
  split
  · exact ⟨rfl, rfl, rfl, rfl⟩
  · split
    · exact ⟨rfl, rfl, rfl, rfl⟩
    · exact ⟨rfl, rfl, rfl, rfl⟩

theorem sendAll_quiet (l : List (Nat × Nat)) : ∀ {s : State}, Calm s →
    let t := l.foldl (fun s x => sendMsi x.1 (BitVec.ofNat 8 x.2) s) s
    t.host.events = s.host.events ∧ t.host.evtSent = s.host.evtSent ∧ t.store = s.store ∧ t.xing = s.xing := by
  induction l with
  | nil => exact fun _ => ⟨rfl, rfl, rfl, rfl⟩
  | cons x l ih =>
    intro s calm
    obtain ⟨events, sent, store, xing⟩ := sendMsi_quiet x.1 (BitVec.ofNat 8 x.2) calm
    obtain ⟨events', sent', store', xing'⟩ := ih (s := sendMsi x.1 (BitVec.ofNat 8 x.2) s) (by rw [Calm, xing]; exact calm)
    exact ⟨events'.trans events, sent'.trans sent, store'.trans store, xing'.trans xing⟩

/-- The crossings of a beat edge's pulses whose pending counter is full. -/
def fullOnes (stuck : List Nat) (s : State) : List Nat := (stuck.filter beatPulse).filter fun t => decide (15 ≤ lookupD 0 t s.xing.toggles)

/-- The state after the lost pulses of a beat edge are recorded. -/
def lostPulses (stuck : List Nat) (s : State) : State :=
  (fullOnes stuck s).foldl (fun s k => xingRecord (toggleEnds k).1 (toggleEnds k).2 false s) s

/-- What a beat edge's pulses leave of the log, the store and XING_STATUS is what their losses leave. -/
theorem pulseRouters_leaves (stuck : List Nat) (s : State) :
    let t := pulseRouters stuck s
    let u := lostPulses stuck s
    t.host.events = u.host.events ∧ t.host.evtSent = u.host.evtSent ∧ t.store = u.store ∧ t.xing.overrun = u.xing.overrun ∧ t.xing.count = u.xing.count := by
  intro t u
  obtain ⟨v, pulsed, calm, host, store, overrun, count⟩ : ∃ v : State,
      t = (if stuck.contains (toggleOf 12 14) then v else u.xing.irqs.foldl (fun s x => sendMsi x.1 (BitVec.ofNat 8 x.2) s) v) ∧
      v.xing.lag = stuck ∧ v.host = u.host ∧ v.store = u.store ∧ v.xing.overrun = u.xing.overrun ∧ v.xing.count = u.xing.count :=
    ⟨_, rfl, rfl, rfl, rfl, rfl, rfl⟩
  by_cases held : stuck.contains (toggleOf 12 14) = true
  · rw [pulsed, if_pos held]
    exact ⟨congrArg HostIf.events host, congrArg HostIf.evtSent host, store, overrun, count⟩
  · obtain ⟨events, sent, stored, xing⟩ := sendAll_quiet u.xing.irqs (s := v) (by rw [Calm, calm]; exact eq_false_of_ne_true held)
    rw [pulsed, if_neg held, events, sent, stored, xing, host]
    exact ⟨rfl, rfl, store, overrun, count⟩

/-! ### The edge -/

section
variable {s : State} {frac : BitVec 16} {off : Int} {per : Nat} {a b : Bool}

/-- The receiver right after a received edge in LOCKED, but for CAD_OUT±. -/
def lockedCad (per : Nat) (y : Symbol) (c : Cad) : Cad :=
  let c := receiveEnd y { c with outBeats := [] }
  stampDue { c with ct := ctEdge c.edge (c.missing + 1), edge := ctEdge c.edge (c.missing + 1), missing := 0, periodPs := per }

theorem afterEdge_of_locked (locked : s.cad.state = .locked) (within : inWindow s.cad off = true) :
    afterEdge (.received frac off per a b) s =
      beatTick ((receiveEnd (symbolOf a b) { s.cad with outBeats := [] }).missing + 1) (setCad (lockedCad per (symbolOf a b) s.cad) s) := by
  unfold afterEdge
  dsimp only
  rw [if_neg (by rw [show inWindow (setCad { s.cad with outBeats := [] } s).cad off = true from within]; simp)]
  unfold acceptEdge
  dsimp only
  split
  next held => exact absurd (held.symm.trans locked) (fun e => CadState.noConfusion e)
  next held => exact absurd (held.symm.trans locked) (fun e => CadState.noConfusion e)
  next held => exact absurd (held.symm.trans locked) (fun e => CadState.noConfusion e)
  next held => exact absurd (held.symm.trans locked) (fun e => CadState.noConfusion e)
  next => rfl
  next held => exact absurd (held.symm.trans locked) (fun e => CadState.noConfusion e)

/-- What the edge leaves in the receiver. -/
theorem lockedCad_leaves (per : Nat) (y : Symbol) (c : Cad) :
    (lockedCad per y c).ct = ctEdge c.edge (c.missing + 1) ∧ (lockedCad per y c).edge = (lockedCad per y c).ct ∧ (lockedCad per y c).missing = 0 ∧
      (lockedCad per y c).periodPs = per := by
  have j := receiveEnd_judged y { c with outBeats := [] }
  unfold lockedCad
  dsimp only
  generalize receiveEnd y { c with outBeats := [] } = d at j
  have k := stampDue_judged { d with ct := ctEdge d.edge (d.missing + 1), edge := ctEdge d.edge (d.missing + 1), missing := 0, periodPs := per }
  refine ⟨?_, k.edge.trans k.ct.symm, k.missing, k.periodPs⟩
  rw [k.ct, j.edge, j.missing]

theorem beatTick_fields (n : Nat) (u : State) : (beatTick n u).fields = mapVals (fun f => { f with passNow := false }) u.fields := by
  unfold beatTick
  dsimp only
  split
  · rfl
  · rfl

theorem beatTick_host (n : Nat) (u : State) : (beatTick n u).host.evtSent = false ∧ (beatTick n u).host.events = u.host.events := by
  unfold beatTick
  dsimp only
  split
  · exact ⟨rfl, rfl⟩
  · exact ⟨rfl, rfl⟩

theorem beatTick_snap {n : Nat} {u : State} (serves : u.rel.ccFailed = false) :
    (beatTick n u).snap.seq = u.snap.seq + 1 ∧ (beatTick n u).snap.ct = (beatTick n u).cad.ct := by
  unfold beatTick
  dsimp only
  rw [if_neg (by rw [serves]; decide)]
  exact ⟨rfl, rfl⟩

theorem beatTick_snap_of_failed {n : Nat} {u : State} (failed : u.rel.ccFailed = true) : (beatTick n u).snap = u.snap := by
  unfold beatTick
  dsimp only
  rw [if_pos failed]

theorem passNow_of_cleared {u t : State} (fields : t.fields = mapVals (fun f => { f with passNow := false }) u.fields) (f : Nat) :
    (getField t f).passNow = false := by
  rw [getField, fields, lookupD, lookup_mapVals]
  cases lookup f u.fields with
  | none => rfl
  | some x => rfl

end

/-- What a beat edge keeps of the state right after it, besides the pulses. -/
theorem beatEdge_keeps (b : BeatSignal) (stuck : List Nat) (s : State) : OnlyChanges [.host, .xing, .store, .rel] (afterEdge b s) (beatEdge b stuck s) := by
  rw [beatEdge_eq]
  split
  · exact (followCad_frame _).mono (by decide)
  · have pulsed : OnlyChanges [.host, .xing, .store, .rel] (afterEdge b s) (pulseRouters (stuckNow (afterEdge b s) stuck) (afterEdge b s)) :=
      (pulseRouters_frame _ _).mono (by decide)
    exact (pulsed.step (heartbeats_frame _ _) (by decide)).step (followCad_frame _) (by decide)

/-- With an active control complex the edge's pulses go out. -/
theorem beatEdge_pulses {b : BeatSignal} {stuck : List Nat} {s : State} (rebuilt : (afterEdge b s).snap.seq ≠ s.snap.seq) :
    OnlyChanges [.rel] (pulseRouters (stuckNow (afterEdge b s) stuck) (afterEdge b s)) (beatEdge b stuck s) := by
  rw [beatEdge_eq, if_neg rebuilt]
  exact ((heartbeats_frame _ _).mono (by decide)).step (followCad_frame _) (by decide)

theorem lockedBeatEdgeAdvancesCt : Claim.LockedBeatEdgeAdvancesCt := by
  intro frac off per a b stuck s locked within
  have after := afterEdge_of_locked (frac := frac) (per := per) (a := a) (b := b) locked within
  obtain ⟨ct, edge, missing, period⟩ := lockedCad_leaves per (symbolOf a b) s.cad
  have ticked := beatTick_judged ((receiveEnd (symbolOf a b) { s.cad with outBeats := [] }).missing + 1) (setCad (lockedCad per (symbolOf a b) s.cad) s)
  have host := beatTick_host ((receiveEnd (symbolOf a b) { s.cad with outBeats := [] }).missing + 1) (setCad (lockedCad per (symbolOf a b) s.cad) s)
  have fields := beatTick_fields ((receiveEnd (symbolOf a b) { s.cad with outBeats := [] }).missing + 1) (setCad (lockedCad per (symbolOf a b) s.cad) s)
  have snap (serves : s.rel.ccFailed = false) := beatTick_snap (n := (receiveEnd (symbolOf a b) { s.cad with outBeats := [] }).missing + 1)
    (u := setCad (lockedCad per (symbolOf a b) s.cad) s) serves
  have stopped (failed : s.rel.ccFailed = true) := beatTick_snap_of_failed (n := (receiveEnd (symbolOf a b) { s.cad with outBeats := [] }).missing + 1)
    (u := setCad (lockedCad per (symbolOf a b) s.cad) s) failed
  have frame : OnlyChanges [.cad, .sched, .host, .fields, .ports, .snap] s (afterEdge (.received frac off per a b) s) := by
    rw [after]
    exact ((setCad_frame _ s).mono (by decide)).step (beatTick_frame _ _) (by decide)
  rw [← after] at ticked host fields snap stopped
  obtain ⟨sig, sigIs⟩ : ∃ sig, sig = BeatSignal.received frac off per a b := ⟨_, rfl⟩
  rw [← sigIs] at ticked host fields frame snap stopped ⊢
  have keeps := beatEdge_keeps sig stuck s
  have cad : (beatEdge sig stuck s).cad = (afterEdge sig s).cad := keeps .cad (by decide)
  have xing : (afterEdge sig s).xing = s.xing := frame .xing (by decide)
  have store : (afterEdge sig s).store = s.store := frame .store (by decide)
  have rebuilt (serves : s.rel.ccFailed = false) : (afterEdge sig s).snap.seq ≠ s.snap.seq := by
    rw [(snap serves).1]
    change s.snap.seq + 1 ≠ s.snap.seq
    omega
  have ctIs : (afterEdge sig s).cad.ct = ctEdge s.cad.edge (s.cad.missing + 1) := ticked.ct.trans ct
  refine ⟨beatEdge sig stuck s, rfl, ?_, ?_, ?_, ?_, ?_, ?_, ?_, ?_, ?_, ?_⟩
  · rw [cad, ctIs]
  · rw [cad, ctIs]
    exact ctEdge_start _ _
  · rw [cad, ticked.ct, ticked.edge]
    exact edge
  · rw [cad, ticked.missing]
    exact missing
  · rw [cad, ticked.periodPs]
    exact period
  · exact passNow_of_cleared (u := setCad (lockedCad per (symbolOf a b) s.cad) s) ((keeps .fields (by decide)).trans fields)
  · intro serves
    obtain ⟨seq, snapCt⟩ := snap serves
    rw [show (beatEdge sig stuck s).snap = (afterEdge sig s).snap from keeps .snap (by decide), cad]
    exact ⟨seq, snapCt⟩
  · exact (frame.mono (by decide)).step keeps (by decide)
  · intro room
    cases serves : s.rel.ccFailed with
    | true =>
      have still : (afterEdge sig s).snap.seq = s.snap.seq := congrArg Snap.seq (stopped serves)
      rw [beatEdge_eq, if_pos still, followCad_host, followCad_store]
      exact ⟨host.1, host.2, store⟩
    | false =>
      have pulses := beatEdge_pulses (stuck := stuck) (rebuilt serves)
      obtain ⟨events, sent, stored, -, -⟩ := pulseRouters_leaves (stuckNow (afterEdge sig s) stuck) (afterEdge sig s)
      have none_ : fullOnes (stuckNow (afterEdge sig s) stuck) (afterEdge sig s) = [] := by
        refine List.filter_eq_nil_iff.2 fun k mem => ?_
        have few := room k (by
          unfold stuckNow at mem ⊢
          rw [xingClosed_of_xing xing] at mem
          exact (List.mem_filter.1 mem).1)
        rw [xing]
        simpa using few
      rw [lostPulses, none_] at events sent stored
      have hostIs : (beatEdge sig stuck s).host = (pulseRouters (stuckNow (afterEdge sig s) stuck) (afterEdge sig s)).host := pulses .host (by decide)
      have storeIs : (beatEdge sig stuck s).store = (pulseRouters (stuckNow (afterEdge sig s) stuck) (afterEdge sig s)).store := pulses .store (by decide)
      rw [hostIs, storeIs]
      exact ⟨sent.trans host.1, events.trans host.2, stored.trans store⟩
  · intro k serves opened only pulse full
    have pulses := beatEdge_pulses (stuck := stuck) (rebuilt serves)
    obtain ⟨-, -, stored, overrun, count⟩ := pulseRouters_leaves (stuckNow (afterEdge sig s) stuck) (afterEdge sig s)
    have one : fullOnes (stuckNow (afterEdge sig s) stuck) (afterEdge sig s) = [k] := by
      unfold fullOnes stuckNow
      rw [xingClosed_of_xing xing, opened, only, xing]
      simp [pulse, full]
    rw [lostPulses, one] at stored overrun count
    have xingIs : (beatEdge sig stuck s).xing = (pulseRouters (stuckNow (afterEdge sig s) stuck) (afterEdge sig s)).xing := pulses .xing (by decide)
    have storeIs : (beatEdge sig stuck s).store = (pulseRouters (stuckNow (afterEdge sig s) stuck) (afterEdge sig s)).store := pulses .store (by decide)
    rw [xingIs]
    refine ⟨overrun.trans (overrun_xingRecordFor _ _ _ _ _ _), fun calm => ?_, ?_⟩
    · refine count.trans ((count_xingRecordFor 3 0 0 _ _ (afterEdge sig s) (by rw [Calm, xing]; exact calm)).trans ?_)
      rw [xing]
    · obtain ⟨r, l, ledger, cls, above, calmly⟩ := records_xingRecordFor 3 0 0 (toggleEnds k).1 (toggleEnds k).2 (afterEdge sig s)
      refine ⟨r, l, ?_, cls, above, fun calm => calmly (by rw [Calm, xing]; exact calm)⟩
      rw [storeIs, stored]
      rw [store] at ledger
      exact ledger

end Sys2Proof.Machine
end

section
/-! SUPPORT. After every step CT stands in its beat, and the standby's receiver where the module's does (R30, R34, R477, R478). -/

namespace Sys2Proof.Machine

/-- CT stands in its beat, and the standby's receiver stands where the module's does. -/
structure Stands (s : State) : Prop where
  beat : CtInBeat s.cad
  mirror : Mirrored s

/-- What the standby's receiver holds of its own (R478). -/
def heard (c : Cad) : Cad := switchReceiver {} c

theorem switchReceiver_iff (c r : Cad) : switchReceiver c r = c ↔ heard r = heard c := by
  cases c
  simp only [heard, switchReceiver, Cad.mk.injEq, true_and, and_true]

theorem switchReceiver_self (c : Cad) : switchReceiver c c = c := rfl

section
variable {s t : State}

theorem Stands.steady (h : Stands s) (k : Steady s t) : Stands t := by
  obtain ⟨cad, failed, standby, receiver⟩ := k
  obtain ⟨beat, gap, same⟩ := h
  refine ⟨by rw [cad]; exact beat, by rw [failed, standby]; exact gap, ?_⟩
  rw [standby, cad, receiver]
  exact same

theorem Stands.step {m : List Part} (h : Stands s) (k : OnlyChanges m s t) (away : Part.cad ∉ m ∧ Part.rel ∉ m) : Stands t :=
  h.steady (Steady.step (.refl s) k away)

theorem Stands.steadyOut {x : Out} (h : Stands s) (k : outAll (Steady s) x) : outAll Stands x := outAll_imp (fun _ => h.steady) k

theorem Stands.stepOut {m : List Part} {x : Out} (h : Stands s) (k : outAll (OnlyChanges m s) x) (away : Part.cad ∉ m ∧ Part.rel ∉ m) : outAll Stands x :=
  outAll_imp (fun _ f => h.step f away) k

theorem Stands.fold {α : Type} {f : State → α → State} {xs : List α} (h : Stands s) (k : ∀ u x, Stands u → Stands (f u x)) : Stands (xs.foldl f s) := by
  induction xs generalizing s with
  | nil => exact h
  | cons x r ih => exact ih (k s x h)

/-- The module's receiver changes where the standby's has nothing of its own. -/
theorem Stands.adjust {d : Cad} (h : Stands s) (beat : CtInBeat d) (same : heard d = heard s.cad) : Stands (setCad d s) :=
  ⟨beat, h.mirror.gap, fun standby => (switchReceiver_iff _ _).2 (((switchReceiver_iff _ _).1 (h.mirror.same standby)).trans same.symm)⟩

/-- The standby's receiver comes to stand where the module's does. -/
theorem Stands.follow (beat : CtInBeat s.cad) (gap : s.rel.ccFailed = true → s.rel.standby = true) : Stands (followCad s) := by
  unfold followCad
  split
  · exact ⟨beat, gap, fun _ => switchReceiver_self _⟩
  next none => exact ⟨beat, gap, fun some => absurd some none⟩

/-- The same after other parts have changed. -/
theorem Stands.followed {m : List Part} {c : Cad} (h : Stands s) (k : OnlyChanges m (setCad c s) t) (away : Part.cad ∉ m ∧ Part.rel ∉ m) (beat : CtInBeat c) :
    Stands (followCad t) := by
  have rel : t.rel = s.rel := k .rel away.2
  refine .follow ?_ (by rw [rel]; exact h.mirror.gap)
  have cad : t.cad = c := k .cad away.1
  rw [cad]
  exact beat

/-- Without a standby, and with the active control complex there, nothing is to follow. -/
theorem Stands.of_alone (beat : CtInBeat s.cad) (alone : s.rel.standby = false) (serves : s.rel.ccFailed = false) : Stands s :=
  ⟨beat, fun failed => absurd failed (ne_true_of_eq_false serves), fun standby => absurd standby (ne_true_of_eq_false alone)⟩

/-- A receiver as after reset. -/
theorem Stands.of_reset (cad : s.cad = {}) (rel : s.rel = {}) : Stands s :=
  .of_alone (by rw [cad]; exact .of_still rfl fun _ no => nomatch no) (by rw [rel]) (by rw [rel])

/-! ### CT moves within its beat -/

theorem Stands.moved (h : Stands s) {c : CtWord} (later : s.cad.state.runs = true → s.cad.ct.toNat ≤ c.toNat)
    (within : s.cad.state.runs = true → c.toNat ≤ lastCt s.cad) : Stands (setCad { s.cad with ct := c } s) :=
  h.adjust (h.beat.move later within) rfl

theorem Stands.reach {c : CtWord} (h : Stands s) (reaches : reachCt c s = some t) : Stands t := by
  unfold reachCt at reaches
  split at reaches
  · exact Option.some.inj reaches ▸ h
  next ahead =>
    split at reaches
    next within =>
      rw [← Option.some.inj reaches]
      exact h.moved (fun _ => (Nat.lt_of_not_le ahead).le) fun _ => of_decide_eq_true (Bool.and_eq_true_iff.1 within).2
    · exact nomatch reaches

theorem Stands.come {k : DueKey} {c : CtWord} (h : Stands s) (comes : comeTo k c s = some t) : Stands t := by
  unfold comeTo at comes
  split at comes
  · exact h.reach comes
  · exact nomatch comes

theorem Stands.time {c : CtWord} (h : Stands s) (comes : timeTo c s = some t) : Stands t := by
  unfold timeTo at comes
  split at comes
  · exact Option.some.inj comes ▸ h
  · exact h.come comes

theorem Stands.tick (h : Stands s) : Stands (tick s) := by
  unfold Machine.tick
  split
  next moves =>
    have below : s.cad.ct.toNat < lastCt s.cad := of_decide_eq_true (Bool.and_eq_true_iff.1 moves).2
    have last : lastCt s.cad ≤ s.cad.ct.toNat / 65536 * 65536 + 65535 := by
      by_cases slews : s.cad.state = .slew
      · rw [lastCt_of_slew slews]
        exact min_le_left _ _
      · rw [lastCt_of_steady slews]
    have next : (s.cad.ct + 1).toNat = s.cad.ct.toNat + 1 := by
      have := s.cad.ct.isLt
      rw [BitVec.toNat_add, show (1 : CtWord).toNat = 1 from rfl]
      omega
    exact h.moved (fun _ => by omega) fun _ => by omega
  · exact h

/-! ### The receiver's own commands -/

theorem execTurnStamp_stands (a b : Bool) (h : Stands s) : outAll Stands (execTurnStamp a b s) := by
  unfold execTurnStamp
  split
  · have beat : CtInBeat { receive (symbolOf a b) s.cad with taken := true } :=
      (h.beat.judged (receive_judged _ _)).of_same rfl rfl rfl rfl rfl (.inl rfl)
    exact h.followed (.refl [] _) (by decide) beat
  · exact h

/-- Entering HOLDOVER with CT timed from its beat's start. -/
theorem enterHoldover_beat {c : Cad} (edge : c.edge = ctEdge c.ct 0) : CtInBeat (enterHoldover c s).cad := by
  rw [enterHoldover_cad]
  exact .of_beat edge (fun e => CadState.noConfusion e) fun _ no => nomatch no

theorem enterHoldover_rel (c : Cad) (s : State) : (enterHoldover c s).rel = s.rel := enterHoldover_frame c s .rel (by decide)

theorem lostAt_stands (gap : s.rel.ccFailed = true → s.rel.standby = true) : Stands (lostAt s) := by
  unfold lostAt
  have cad := ledgerRec_cad (s := enterHoldover { s.cad with edge := ctEdge s.cad.ct 0, fromInternal := false } s) 17 0 0 0xFFFFFFFF 0xFFFFFFFF 0 []
  refine .follow ?_ ?_
  · rw [cad]
    exact enterHoldover_beat rfl
  · have rel : (ledgerRec 17 0 0 0xFFFFFFFF 0xFFFFFFFF 0 [] (enterHoldover { s.cad with edge := ctEdge s.cad.ct 0, fromInternal := false } s)).rel = s.rel :=
      (ledgerRec_frame _ _ _ _ _ _ _ _ .rel (by decide)).trans (enterHoldover_rel _ _)
    rw [rel]
    exact gap

theorem execCadenceLoss_stands (cause : LossCause) (h : Stands s) : outAll Stands (execCadenceLoss cause s) := by
  unfold execCadenceLoss
  extract_lets c here lost
  clear_value here lost
  split
  · have rel : (ownBeats (lossCt s.cad) s).rel = s.rel := ownBeats_frame _ _ .rel (by decide)
    exact lostAt_stands (s := ownBeats (lossCt s.cad) s) (by rw [rel]; exact h.mirror.gap)
  · exact h

theorem holdBeats_stands (n : Nat) (h : Stands s) : Stands (post Ev.cadHoldover [] (setCad { s.cad with holdBeats := n } s)) := by
  refine Stands.step (s := setCad { s.cad with holdBeats := n } s) ?_ (post_frame _ _ _) (by decide)
  exact h.adjust (h.beat.of_same rfl rfl rfl rfl rfl (.inl rfl)) rfl

theorem execCadHoldover_stands (h : Stands s) : outAll Stands (execCadHoldover s) := by
  unfold execCadHoldover
  split
  · exact holdBeats_stands _ h
  · exact h

theorem driveOut_heard (c : Cad) : heard (driveOut c) = heard c := by
  unfold driveOut
  split
  · rfl
  · dsimp only
    split
    · rfl
    · rfl

theorem driveOut_judged (c : Cad) : Judged c (driveOut c) := by
  unfold driveOut
  split
  · exact ⟨rfl, rfl, rfl, rfl, rfl, rfl, .inl rfl, .inl rfl⟩
  · dsimp only
    split
    · exact ⟨rfl, rfl, rfl, rfl, rfl, rfl, .inl rfl, .inl rfl⟩
    · exact ⟨rfl, rfl, rfl, rfl, rfl, rfl, .inl rfl, .inl rfl⟩

theorem writeSrc_stands (v : BitVec 2) (h : Stands s) : Stands (writeSrc v s) := by
  unfold writeSrc
  dsimp only
  split
  · exact h.step (post_frame _ _ _) (by decide)
  · split
    · split
      · refine Stands.follow (enterHoldover_beat rfl) ?_
        rw [enterHoldover_rel]
        exact h.mirror.gap
      · split
        · exact h.adjust (h.beat.of_same rfl rfl rfl rfl rfl (.inl rfl)) rfl
        · refine h.followed (.refl [] _) (by decide) (CtInBeat.judged ?_ (driveOut_judged _))
          exact .of_still rfl h.beat.received
    · refine h.followed (.refl [] _) (by decide) (CtInBeat.judged ?_ (driveOut_judged _))
      exact .of_beat rfl (fun e => CadState.noConfusion e) fun _ no => nomatch no

theorem doResync_stands (h : Stands s) : Stands (doResync s) := by
  unfold doResync
  split
  · split
    · exact h.step (argReject_frame _ _ _) (by decide)
    · cases found : s.cad.rct with
      | none => exact h
      | some r =>
        refine h.followed (.refl [] _) (by decide) ?_
        exact .of_start rfl (h.beat.received r found) (fun e => CadState.noConfusion e) fun _ no => nomatch no
  · exact h

theorem orHold_stands {a : HostAccess} {off v : Nat} {wide : Bool} {act : State → Out} (h : Stands s) (acts : outAll Stands (act s)) :
    outAll Stands (orHold a off wide v act s) := by
  unfold orHold
  split
  · exact h
  · split
    · exact acts
    · split
      · exact h.steady (Steady.only_host (.refl s) _)
      · exact h

theorem execCadSrc_stands (a : HostAccess) (v : BitVec 2) (h : Stands s) : outAll Stands (execCadSrc a v s) := by
  refine orHold_stands h ?_
  split
  · exact h
  · split
    · exact writeSrc_stands v h
    · exact h.step (lockViolation_frame _) (by decide)

theorem execResync_stands (a : HostAccess) (h : Stands s) : outAll Stands (execResync a s) := by
  refine orHold_stands h ?_
  split
  · exact doResync_stands h
  · exact h

theorem afterEdge_frame (b : BeatSignal) (s : State) : OnlyChanges [.snap, .ports, .fields, .host, .sched, .xing, .store, .cad] s (afterEdge b s) := by
  have clear : OnlyChanges [.cad] s (setCad { s.cad with outBeats := [] } s) := only_cad (.refl _ _) _ (by decide)
  unfold afterEdge
  dsimp only
  split
  · exact (clear.mono (by decide)).step (ownEdge_frame _) (by decide)
  · exact (clear.mono (by decide)).step (missEdge_frame _ _) (by decide)
  · split
    · exact clear.mono (by decide)
    · exact (clear.mono (by decide)).step (acceptEdge_frame _ _ _ _) (by decide)

theorem execBeatEdge_stands (b : BeatSignal) (stuck : List Nat) (h : Stands s) (small : s.cad.ct.toNat < 2 ^ 62) (few : s.cad.missing < 2 ^ 20) :
    Stands (resumeAccess (closePassing (beatEdge b stuck s))) := by
  have beat := (afterEdge_goes b h.beat small few).beat
  have rel : (afterEdge b s).rel.ccFailed = s.rel.ccFailed ∧ (afterEdge b s).rel.standby = s.rel.standby := by
    have same : (afterEdge b s).rel = s.rel := afterEdge_frame b s .rel (by decide)
    exact ⟨congrArg Rel.ccFailed same, congrArg Rel.standby same⟩
  have gap : (afterEdge b s).rel.ccFailed = true → (afterEdge b s).rel.standby = true := by
    rw [rel.1, rel.2]
    exact h.mirror.gap
  refine Stands.steady ?_ (resumeAccess_steady _)
  refine Stands.step ?_ (closePassing_frame _) (by decide)
  rw [beatEdge_eq]
  generalize afterEdge b s = u at *
  split
  · exact .follow beat gap
  · obtain ⟨cad, failed, standby⟩ := heartbeats_keeps stuck (pulseRouters (stuckNow u stuck) u)
    have pulses := pulseRouters_frame (stuckNow u stuck) u
    refine .follow ?_ ?_
    · rw [cad]
      have same : (pulseRouters (stuckNow u stuck) u).cad = u.cad := pulses .cad (by decide)
      rw [same]
      exact beat
    · have same : (pulseRouters (stuckNow u stuck) u).rel = u.rel := pulses .rel (by decide)
      rw [failed, standby, same]
      exact gap

end

end Sys2Proof.Machine
end

section
/-! SUPPORT. The commands that wait for CT, the register writes, the takeover and the resets keep CT in its beat (R34, R477, R478). -/

namespace Sys2Proof.Machine

section
variable {s t : State}

theorem Stands.ite {p : Prop} [Decidable p] (h : Stands s) (k : Stands t) : Stands (if p then s else t) := by
  split
  · exact h
  · exact k

/-! ### What waits for a CT -/

theorem execFireatRelease_stands (tile : Nat) (h : Stands s) : outAll Stands (execFireatRelease tile s) := by
  unfold execFireatRelease
  split
  · exact h
  · split
    · split
      next comes =>
        split
        · exact (h.time comes).steady (completeMove_steady _ _ _ _ _ _)
        · exact h
      · exact h
    · exact h

theorem execBarrierRelease_stands (n : Nat) (h : Stands s) : outAll Stands (execBarrierRelease n s) := by
  unfold execBarrierRelease
  split
  · exact h
  · split
    · exact h
    · split
      next comes => exact (h.come comes).step (releaseBarrier_frame _ _) (by decide)
      · exact h

theorem execBarrierTimeout_stands (n : Nat) (h : Stands s) : outAll Stands (execBarrierTimeout n s) := by
  unfold execBarrierTimeout
  split
  · exact h
  · split
    · exact h
    · split
      next comes => exact (h.time comes).step (barrierReply_frame _ _ _) (by decide)
      · exact h

theorem execCommitVote_stands (h : Stands s) : outAll Stands (execCommitVote s) := by
  unfold execCommitVote
  split
  · exact h
  · split
    · exact h
    · split
      · exact h
      next comes =>
        exact ((h.time comes).step (setArmed_frame _ _) (by decide)).step (tellMembers_frame _ _ _) (by decide)

theorem execCommitSplit_stands (h : Stands s) : outAll Stands (execCommitSplit s) := by
  unfold execCommitSplit
  split
  · exact h
  · split
    · exact h
    · split
      next comes => exact (h.time comes).step (raiseSplit_frame _ _) (by decide)
      · exact h

theorem execOutcomeWindowClose_stands (h : Stands s) : outAll Stands (execOutcomeWindowClose s) := by
  unfold execOutcomeWindowClose
  split
  · exact h
  · split
    · exact h
    · split
      next comes => exact (h.time comes).steady (closeWindow_steady _)
      · exact h

theorem execCommit_stands (h : Stands s) : outAll Stands (execCommit s) := by
  unfold execCommit
  split
  · exact h
  · split
    · exact h
    · split
      next comes => exact (h.come comes).steady (commitPoint_steady _)
      · exact h

theorem execScheduledEvent_stands (h : Stands s) : outAll Stands (execScheduledEvent s) := by
  unfold execScheduledEvent
  split
  · exact h
  · split
    · split
      next comes => exact ((h.come comes).steady (journalRecord_steady _)).steady (runEvent_steady _ _)
      · exact h
    · exact h

theorem beginTurn_stands (b : CtWord) (h : Stands s) : Stands (beginTurn b s) := by
  unfold beginTurn
  split
  next o _ =>
    have moved : Stands (setCad { s.cad with offset := o, nextOffset := none } s) := h.adjust (h.beat.of_same rfl rfl rfl rfl rfl (.inl rfl)) rfl
    exact moved.steady (Steady.only_power (.refl _) _)
  · exact h.steady (Steady.only_power (.refl _) _)

theorem execPowerTurnBoundary_stands (m : PowerSense) (h : Stands s) : outAll Stands (execPowerTurnBoundary m s) := by
  unfold execPowerTurnBoundary
  split
  · exact h
  · split
    · exact h
    next u comes =>
      have arrived := h.come comes
      split
      · exact arrived
      next b _ =>
        have done : Stands (if u.power.next.isSome then turnDone m b u else u) := by
          split
          · exact arrived.step (turnDone_frame _ _ _) (by decide)
          · exact arrived
        have planned := (beginTurn_stands b (done.step (takeTemps_frame m _) (by decide))).steady (applyPlan_steady _)
        exact (planned.step (powerEvents_frame _ _) (by decide)).step (makePlan_frame _ _) (by decide)

theorem execOffset_stands (seq : Byte) (off : BitVec 16) (h : Stands s) : outAll Stands (execOffset seq off s) := by
  unfold execOffset
  extract_lets answer
  have answered (code : Nat) {u : State} (k : Stands u) : outAll Stands (answer code u) := k.step (mctpReply_frame _ _) (by decide)
  clear_value answer
  split
  · exact h
  · split
    · exact answered _ h
    · split
      · exact answered _ h
      · exact answered _ (h.adjust (h.beat.of_same rfl rfl rfl rfl rfl (.inl rfl)) rfl)

/-! ### Resets -/

theorem volatileLost_stands (s : State) : Stands (volatileLost s) := .of_reset rfl rfl

theorem shutDown_stands (leak : Bool) (h : Stands s) : Stands (shutDown leak s) := by
  unfold shutDown
  split
  · exact volatileLost_stands _
  · exact h

/-- Other pins. -/
theorem Stands.pins (h : Stands s) (p : Pins) : Stands { s with pins := p } := h.steady ⟨rfl, rfl, rfl, rfl⟩

theorem execPrecharge_stands (mv : Int) (h : Stands s) : outAll Stands (execPrecharge mv s) := by
  unfold execPrecharge
  split
  · trivial
  · split
    · exact shutDown_stands _ h
    · split
      · dsimp only
        change Stands (if mv < 40000 then _ else _)
        split
        · exact (shutDown_stands _ h).pins _
        · exact shutDown_stands _ h
      · split
        · exact h.pins _
        · exact h

theorem execShutdown_stands (c : InputFault) (h : Stands s) : outAll Stands (execShutdown c s) := by
  unfold execShutdown
  change Stands (if inputTrips c then _ else _)
  split
  · exact shutDown_stands _ h
  · exact h

theorem execLeak_stands (h : Stands s) : outAll Stands (execLeak s) := by
  unfold execLeak
  split
  · exact volatileLost_stands _
  · exact h.pins _

theorem execModRstAssert_stands (h : Stands s) : outAll Stands (execModRstAssert s) := by
  unfold execModRstAssert
  dsimp only
  split
  · exact volatileLost_stands _
  · exact h.pins _

/-! ### Register writes -/

theorem writeCadCtrl_stands (v : W64) (h : Stands s) : Stands (writeCadCtrl v s) := by
  unfold writeCadCtrl
  split
  · exact h.step (argReject_frame _ _ _) (by decide)
  · extract_lets receiver u
    have written : Stands u := by
      unfold u
      split
      · refine writeSrc_stands _ (h.adjust ?_ (driveOut_heard _))
        refine CtInBeat.judged (c := { s.cad with outEn := bitAt v.toNat 2 }) ?_ (driveOut_judged _)
        exact h.beat.of_same rfl rfl rfl rfl rfl (.inl rfl)
      · exact h.step (lockViolation_frame _) (by decide)
    split
    · exact doResync_stands written
    · exact written

/-- A write of any register but CAD_CTRL and CAD_STATUS leaves the receiver and the standby alone. -/
theorem setReg_steady {o : Nat} (ctrl : o ≠ 0x100) (status : o ≠ 0x108) (v : W64) (s : State) : Steady s (setReg o v s) := by
  have step {m : List Part} {t : State} (k : OnlyChanges m s t) (away : Part.cad ∉ m ∧ Part.rel ∉ m) : Steady s t := Steady.step (.refl s) k away
  unfold setReg
  rw [if_neg ctrl, if_neg status]
  refine .ite (step (writeBuCtrl_frame _ _) (by decide)) ?_
  refine .ite (step (writePrivLock_frame _ _) (by decide)) ?_
  refine .ite (Steady.only_host (.refl _) _) ?_
  refine .ite (step (writeSeed_frame _ _) (by decide)) ?_
  refine .ite (step (writeAper_frame _ _ _) (by decide)) ?_
  refine .ite (step (writeAper_frame _ _ _) (by decide)) ?_
  refine .ite (step (writeEvtCfg_frame _ _) (by decide)) ?_
  refine .ite (step (xingClear_frame _ _ _) (by decide)) ?_
  refine .ite (step (setPref_frame _ _) (by decide)) ?_
  refine .ite (step (writePwrCtrl_frame _ _) (by decide)) ?_
  refine .ite (step (writeTally_frame _ _ _) (by decide)) ?_
  refine .ite (step (writeAudit_frame _ _ _) (by decide)) ?_
  refine .ite (step (writeWatchCtrl_frame _ _) (by decide)) ?_
  refine .ite (step (writeWatchCfg_frame _ _) (by decide)) ?_
  refine .ite (writeCommitted_steady _ _) ?_
  refine .ite (step (writeNsScrub_frame _ _) (by decide)) ?_
  refine .ite (step (writeRimScrub_frame _ _) (by decide)) ?_
  refine .ite (Steady.only_near (.refl _) _) ?_
  refine .ite (.ite (step (writeRegionLower_frame _ _ _) (by decide)) (step (writeRegionUpper_frame _ _ _) (by decide))) ?_
  refine .ite (step (writeHawCfg_frame _ _) (by decide)) ?_
  refine .ite (step (writeQueueReg_frame _ _ _ _) (by decide)) ?_
  exact .ite (writeDbg_steady _ _ _) (.refl _)

theorem setReg_stands (o : Nat) (v : W64) (h : Stands s) : Stands (setReg o v s) := by
  by_cases ctrl : o = 0x100
  · subst ctrl
    exact writeCadCtrl_stands v h
  · by_cases status : o = 0x108
    · subst status
      exact h.adjust (d := { s.cad with reject := s.cad.reject && !bitAt v.toNat 3 }) (h.beat.of_same rfl rfl rfl rfl rfl (.inl rfl)) rfl
    · exact h.steady (setReg_steady ctrl status v s)

theorem writeSlot_stands (a : HostAccess) (off : Nat) (wide : Bool) (v : W64) (h : Stands s) : Stands (writeSlot a off wide v s) := by
  unfold writeSlot
  dsimp only
  split
  · exact h
  · split
    · exact h
    · split
      · exact h.step (post_frame _ _ _) (by decide)
      · split
        · exact h
        · exact setReg_stands _ _ h

theorem hostRegWrite_stands (a : HostAccess) (off : Nat) (wide : Bool) (v : W64) (h : Stands s) : Stands (hostRegWrite a off wide v s) := by
  unfold hostRegWrite
  dsimp only
  refine .ite (h.step (unsupported_frame _ _) (by decide)) ?_
  refine .ite (.ite (h.step (ringSq_frame _ _ _ _) (by decide)) (.ite (h.step (ringCq_frame _ _ _ _) (by decide)) h)) ?_
  refine .ite (.ite (writeSlot_stands a off wide v h) h) ?_
  refine .ite (writeSlot_stands a off wide v h) ?_
  refine .ite (.ite h ?_) (.ite (h.step (writeWindow_frame _ _ _ _) (by decide)) h)
  exact (h.step (setPcie_frame _ _ _) (by decide)).step (sendPending_frame _ _) (by decide)

theorem execRegisterWrite_stands (a : HostAccess) (off : Nat) (wide : Bool) (v : W64) (h : Stands s) : outAll Stands (execRegisterWrite a off wide v s) :=
  orHold_stands h (hostRegWrite_stands a off wide v h)

/-! ### The standby takes over, or is lost -/

theorem applyHeld_stands (h : Stands s) : Stands (applyHeld s) := by
  unfold applyHeld
  exact Stands.fold (h.steady (Steady.only_host (.refl s) _)) fun _ w k => hostRegWrite_stands w.1 w.2.1 w.2.2.1 w.2.2.2 k

theorem takeOver_stands (h : Stands s) (standby : s.rel.standby = true) : Stands (takeOver s) := by
  unfold takeOver
  extract_lets old src u gone logged
  have serves : Stands u := .of_alone (by rw [show u.cad = s.cad from h.mirror.same standby]; exact h.beat) rfl rfl
  have caught : Stands gone := (serves.steady (gapAbort_steady _)).steady (runAllDue_steady _ _)
  have recorded : Stands logged := caught.step (record_frame _ _ _ _ _ _ _ _ _ _) (by decide)
  exact (applyHeld_stands recorded).step (rerunStage_frame _) (by decide)

theorem execCcTakeover_stands (h : Stands s) : outAll Stands (execCcTakeover s) := by
  unfold execCcTakeover
  split
  next failed => exact takeOver_stands h (h.mirror.gap failed)
  · split
    next silent =>
      simp only [Bool.and_eq_true] at silent
      obtain ⟨⟨⟨-, standby⟩, -⟩, -⟩ := silent
      exact ⟨h.beat, fun _ => standby, h.mirror.same⟩
    · exact h

theorem execCcStandbyLost_stands (h : Stands s) : outAll Stands (execCcStandbyLost s) := by
  unfold execCcStandbyLost
  split
  next silent =>
    simp only [Bool.and_eq_true, Bool.not_eq_true'] at silent
    obtain ⟨⟨-, serves⟩, -⟩ := silent
    have alone : Stands { s with rel := { s.rel with standby := false } } := .of_alone h.beat rfl serves
    exact (alone.step (post_frame _ _ _) (by decide)).step (ledgerRec_frame _ _ _ _ _ _ _ _) (by decide)
  · exact h

theorem endReset_stands (ms : Nat) (north south : Bool) (h : Stands s) (serves : s.rel.ccFailed = false) : Stands (endReset ms north south s) := by
  have ended {u : State} (k : Stands u) : Stands (startPcie (endStage .done 0 0 ms u)) :=
    (k.step (endStage_frame _ _ _ _ _) (by decide)).step (startPcie_frame _) (by decide)
  unfold endReset
  split
  · refine ended (.follow h.beat fun failed => ?_)
    exact absurd failed (ne_true_of_eq_false serves)
  · split
    · exact ended (.of_alone h.beat rfl serves)
    · exact h.step (endStage_frame _ _ _ _ _) (by decide)

theorem execStageComplete_stands (ms : Nat) (north south : Bool) (h : Stands s) : outAll Stands (execStageComplete ms north south s) := by
  have ended (st : StageState) (code : BitVec 16) (cause : Nat) {u : State} (k : Stands u) : Stands (endStage st code cause ms u) :=
    k.step (endStage_frame _ _ _ _ _) (by decide)
  unfold execStageComplete
  split
  · exact h
  next there =>
    simp only [Bool.or_eq_true, not_or, Bool.not_eq_true] at there
    split
    · exact endReset_stands ms north south h there.2
    · dsimp only
      change Stands (if _ then _ else _)
      split
      · exact ended _ _ _ (h.step (trainPorts_frame _) (by decide))
      · exact h
    next r _ =>
      extract_lets ok bring rel u
      have checked : Stands u := by
        unfold u
        split
        · refine ⟨h.beat, fun failed => absurd failed (ne_true_of_eq_false there.2), fun standby => ?_⟩
          exact h.mirror.same (Bool.and_eq_true_iff.1 standby).1
        · exact h
      exact ended _ _ _ checked
    · split
      · split
        · exact ended _ _ _ (h.step (linkDegrade_frame _) (by decide))
        · exact h
      · exact ended _ _ _ h
    · exact ended _ _ _ h
    · exact h

end

end Sys2Proof.Machine
end

section
/-! OBLIGATION. O5: beat edges, CT in its beat, and the standby's receiver (R27 to R36, R477). -/

namespace Sys2Proof.Machine

/-- Each command's meaning: most leave the receiver and the standby alone, the others move CT within its beat, time it anew, or let the standby follow. -/
theorem exec_stands (c : Instr) {s : State} (h : Stands s) (small : s.cad.ct.toNat < 2 ^ 62) (few : s.cad.missing < 2 ^ 20) : outAll Stands (exec c s) := by
  cases c with
  | registerWrite => exact execRegisterWrite_stands _ _ _ _ h
  | sqDb => exact h.stepOut (execSqDb_frame _ _ _ s) (by decide)
  | cqDb => exact h.stepOut (execCqDb_frame _ _ _ s) (by decide)
  | queueEnable => exact h.stepOut (execQueueEnable_frame _ _ s) (by decide)
  | queueDisable => exact h.stepOut (execQueueDisable_frame _ _ s) (by decide)
  | commandFetch => exact h.steadyOut (execCommandFetch_steady _ _ s)
  | replyWrite => exact h.steadyOut (execReplyWrite_steady _ _ s)
  | apertureRead => exact h.steadyOut (execApertureRead_steady _ _ _ _ s)
  | apertureWrite => exact h.steadyOut (execApertureWrite_steady _ _ _ _ s)
  | jobSeedWrite => exact h.stepOut (execJobSeedWrite_frame _ _ s) (by decide)
  | committedWrite => exact h.steadyOut (execCommittedWrite_steady _ _ s)
  | privLockFreeze => exact h.stepOut (execPrivLockFreeze_frame _ s) (by decide)
  | stallEnClear => exact h.stepOut (execStallEnClear_frame _ s) (by decide)
  | regionStage => exact h.stepOut (execRegionStage_frame _ _ _ s) (by decide)
  | regionWrite => exact h.stepOut (execRegionWrite_frame _ _ _ s) (by decide)
  | cadSrc => exact execCadSrc_stands _ _ h
  | resync => exact execResync_stands _ h
  | dbgHalt => exact h.stepOut (execDbgHalt_frame _ s) (by decide)
  | dbgResume => exact h.steadyOut (execDbgResume_steady _ s)
  | dbgStep => exact h.stepOut (execDbgStep_frame _ s) (by decide)
  | dbgDataRead => exact h.stepOut (execDbgDataRead_frame _ s) (by decide)
  | dbgDataWrite => exact h.stepOut (execDbgDataWrite_frame _ _ s) (by decide)
  | nop => exact h.stepOut (execNop_frame _ s) (by decide)
  | eventGet => exact h.stepOut (execEventGet_frame _ s) (by decide)
  | buOpen => exact h.stepOut (execBuOpen_frame _ s) (by decide)
  | loan => exact h.stepOut (execLoan_frame _ s) (by decide)
  | loanRevokeEffect => exact h.stepOut (execLoanRevokeEffect_frame _ s) (by decide)
  | hintPlace => exact h.stepOut (execHintPlace_frame _ s) (by decide)
  | playFire => exact h.stepOut (execPlayFire_frame _ s) (by decide)
  | playAbort => exact h.stepOut (execPlayAbort_frame _ s) (by decide)
  | part => exact h.stepOut (execPart_frame _ s) (by decide)
  | partComplete => exact h.stepOut (execPartComplete_frame _ _ s) (by decide)
  | ledgerSet => exact h.stepOut (execLedgerSet_frame _ s) (by decide)
  | ledgerGet => exact h.stepOut (execLedgerGet_frame _ s) (by decide)
  | groupSet => exact h.stepOut (execGroupSet_frame _ s) (by decide)
  | commitArm => exact h.stepOut (execCommitArm_frame _ s) (by decide)
  | stateLoad => exact h.stepOut (execStateLoad_frame _ s) (by decide)
  | planSet => exact h.stepOut (execPlanSet_frame _ s) (by decide)
  | routeSet => exact h.stepOut (execRouteSet_frame _ s) (by decide)
  | collSet => exact h.stepOut (execCollSet_frame _ s) (by decide)
  | collFire => exact h.stepOut (execCollFire_frame _ s) (by decide)
  | barrier => exact h.stepOut (execBarrier_frame _ s) (by decide)
  | portCtrl => exact h.stepOut (execPortCtrl_frame _ s) (by decide)
  | xmapSet => exact h.stepOut (execXmapSet_frame _ s) (by decide)
  | xchSet => exact h.stepOut (execXchSet_frame _ s) (by decide)
  | xchGet => exact h.stepOut (execXchGet_frame _ s) (by decide)
  | prefSet => exact h.stepOut (execPrefSet_frame _ s) (by decide)
  | telemSnap => exact h.stepOut (execTelemSnap_frame _ s) (by decide)
  | watchSet => exact h.stepOut (execWatchSet_frame _ s) (by decide)
  | watchGet => exact h.stepOut (execWatchGet_frame _ s) (by decide)
  | vecEval => exact h.stepOut (execVecEval_frame _ s) (by decide)
  | faultGet => exact h.stepOut (execFaultGet_frame _ s) (by decide)
  | keyRevoke => exact h.stepOut (execKeyRevoke_frame _ s) (by decide)
  | rollbackSet => exact h.stepOut (execRollbackSet_frame _ s) (by decide)
  | debugLock => exact h.stepOut (execDebugLock_frame _ s) (by decide)
  | getCert => exact h.stepOut (execGetCert_frame _ s) (by decide)
  | attest => exact h.stepOut (execAttest_frame _ _ s) (by decide)
  | debugChallenge => exact h.stepOut (execDebugChallenge_frame _ s) (by decide)
  | debugUnlock => exact h.stepOut (execDebugUnlock_frame _ _ s) (by decide)
  | grant => exact h.stepOut (execGrant_frame _ _ _ s) (by decide)
  | offset => exact execOffset_stands _ _ h
  | report => exact h.stepOut (execReport_frame _ s) (by decide)
  | getSensorReading => exact h.stepOut (execGetSensorReading_frame _ s) (by decide)
  | playStart => exact h.stepOut (execPlayStart_frame _ _ s) (by decide)
  | playEnd => exact h.stepOut (execPlayEnd_frame _ _ s) (by decide)
  | moveCompletion => exact h.steadyOut (execMoveCompletion_steady _ _ _ s)
  | endMove => exact h.steadyOut (execEndMove_steady _ s)
  | moveNop => exact h.steadyOut (execMoveNop_steady _ s)
  | fireat => exact h.steadyOut (execFireat_steady _ s)
  | fireatRelease => exact execFireatRelease_stands _ h
  | tie => exact h.steadyOut (execTie_steady _ s)
  | remoteTieArrival => exact h.steadyOut (execRemoteTieArrival_steady _ _ _ s)
  | wait => exact h.steadyOut (execWait_steady _ s)
  | waitSatisfied => exact h.steadyOut (execWaitSatisfied_steady _ _ s)
  | waitTimeout => exact h.stepOut (execWaitTimeout_frame _ _ s) (by decide)
  | kset => exact h.steadyOut (execKset_steady _ s)
  | partMove => exact h.steadyOut (execPartMove_steady _ s)
  | iframe => exact h.steadyOut (execIframe_steady _ s)
  | loadw => exact h.steadyOut (execLoadw_steady _ s)
  | swapw => exact h.steadyOut (execSwapw_steady _ s)
  | stream => exact h.steadyOut (execStream_steady _ _ s)
  | sxt => exact h.steadyOut (execSxt_steady _ s)
  | rampStartGrant => exact h.steadyOut (execRampStartGrant_steady _ s)
  | passBeat => exact h.stepOut (execPassBeat_frame _ s) (by decide)
  | elem => exact h.steadyOut (execElem_steady _ _ s)
  | reduce => exact h.steadyOut (execReduce_steady _ _ s)
  | smxb => exact h.steadyOut (execSmxb_steady _ _ s)
  | nrmb => exact h.steadyOut (execNrmb_steady _ _ s)
  | reductionResult => exact h.stepOut (execReductionResult_frame _ s) (by decide)
  | groupTimeout => exact h.stepOut (execGroupTimeout_frame _ s) (by decide)
  | topk => exact h.steadyOut (execTopk_steady _ _ s)
  | gather => exact h.steadyOut (execGather_steady _ s)
  | scatter => exact h.steadyOut (execScatter_steady _ s)
  | scatterAdd => exact h.steadyOut (execScatterAdd_steady _ _ s)
  | pack => exact h.steadyOut (execPack_steady _ _ s)
  | amaxt => exact h.steadyOut (execAmaxt_steady _ _ s)
  | move => exact h.steadyOut (execMove_steady _ _ s)
  | moveReplay => exact h.steadyOut (execMoveReplay_steady _ _ _ s)
  | inval => exact h.steadyOut (execInval_steady _ s)
  | dispatch => exact h.steadyOut (execDispatch_steady _ s)
  | combine => exact h.steadyOut (execCombine_steady _ s)
  | xchCount => exact h.steadyOut (execXchCount_steady _ _ s)
  | xchGrant => exact h.steadyOut (execXchGrant_steady _ _ s)
  | xchRow => exact h.steadyOut (execXchRow_steady _ _ s)
  | fetch => exact h.steadyOut (execFetch_steady _ _ s)
  | result => exact h.steadyOut (execResult_steady _ _ s)
  | leaf => exact h.steadyOut (execLeaf_steady _ _ s)
  | roundSum => exact h.stepOut (execRoundSum_frame _ _ _ s) (by decide)
  | collectiveStart => exact h.stepOut (execCollectiveStart_frame _ s) (by decide)
  | collectiveComplete => exact h.stepOut (execCollectiveComplete_frame _ s) (by decide)
  | barrierArrive => exact h.stepOut (execBarrierArrive_frame _ s) (by decide)
  | barrierRelease => exact execBarrierRelease_stands _ h
  | barrierTimeout => exact execBarrierTimeout_stands _ h
  | contribution => exact h.steadyOut (execContribution_steady _ _ s)
  | normPass => exact h.stepOut (execNormPass_frame s) (by decide)
  | normReduction => exact h.stepOut (execNormReduction_frame s) (by decide)
  | applyPass => exact h.steadyOut (execApplyPass_steady _ _ _ s)
  | capstanConfirm => exact h.steadyOut (execCapstanConfirm_steady _ _ s)
  | readySend => exact h.stepOut (execReadySend_frame s) (by decide)
  | commitVote => exact execCommitVote_stands h
  | commit => exact execCommit_stands h
  | commitRetract => exact h.stepOut (execCommitRetract_frame _ s) (by decide)
  | commitSplit => exact execCommitSplit_stands h
  | outcomeWindowClose => exact execOutcomeWindowClose_stands h
  | capstanFail => exact h.steadyOut (execCapstanFail_steady _ s)
  | rebuildComplete => exact h.steadyOut (execRebuildComplete_steady _ s)
  | tallyComparison => exact h.steadyOut (execTallyComparison_steady _ _ s)
  | auditSample => exact h.stepOut (execAuditSample_frame _ s) (by decide)
  | beatEdge b stuck => exact execBeatEdge_stands b stuck h small few
  | turnStamp => exact execTurnStamp_stands _ _ h
  | cadenceLoss => exact execCadenceLoss_stands _ h
  | cadHoldover => exact execCadHoldover_stands h
  | scheduledEvent => exact execScheduledEvent_stands h
  | crossingTimeout => exact h.stepOut (execCrossingTimeout_frame _ _ s) (by decide)
  | powerTurnBoundary => exact execPowerTurnBoundary_stands _ h
  | opTransitionStep => exact h.stepOut (execOpTransitionStep_frame _ s) (by decide)
  | droopStretch => exact h.stepOut (execDroopStretch_frame _ _ s) (by decide)
  | stretchEnd => exact h.stepOut (execStretchEnd_frame _ _ s) (by decide)
  | grantStale => exact h.stepOut (execGrantStale_frame s) (by decide)
  | turnBoundary => exact h.stepOut (execTurnBoundary_frame _ s) (by decide)
  | calibrationSlot => exact h.steadyOut (execCalibrationSlot_steady _ _ _ _ _ _ s)
  | refresh => exact h.stepOut (execRefresh_frame _ _ _ s) (by decide)
  | scrub => exact h.steadyOut (execScrub_steady _ _ _ s)
  | scrubStarved => exact h.stepOut (execScrubStarved_frame s) (by decide)
  | rowRepair => exact h.steadyOut (execRowRepair_steady _ _ _ _ _ _ s)
  | nsThermal => exact h.steadyOut (execNsThermal_steady _ _ _ _ s)
  | chMigrate => exact h.steadyOut (execChMigrate_steady _ _ _ s)
  | migrationSwitch => exact h.steadyOut (execMigrationSwitch_steady _ _ _ s)
  | stackSplice => exact h.steadyOut (execStackSplice_steady _ s)
  | rimScrub => exact h.steadyOut (execRimScrub_steady _ _ s)
  | flitData => exact h.stepOut (execFlitData_frame _ _ _ s) (by decide)
  | nak => exact h.stepOut (execNak_frame _ _ s) (by decide)
  | laneSwap => exact h.stepOut (execLaneSwap_frame _ _ _ _ s) (by decide)
  | hello => exact h.stepOut (execHello_frame _ _ _ s) (by decide)
  | helloSend => exact h.stepOut (execHelloSend_frame _ s) (by decide)
  | packetForward => exact h.steadyOut (execPacketForward_steady _ s)
  | hawPortDown port cause => exact h.stepOut (execHawPortDown_frame port cause s) (by decide)
  | hawStall => exact h.stepOut (execHawStall_frame _ _ s) (by decide)
  | portTraining => exact h.stepOut (execPortTraining_frame _ _ s) (by decide)
  | qualificationEnd => exact h.stepOut (execQualificationEnd_frame _ _ s) (by decide)
  | discoveryTimeout => exact h.stepOut (execDiscoveryTimeout_frame _ s) (by decide)
  | playRerun => exact h.stepOut (execPlayRerun_frame _ _ s) (by decide)
  | seqHang => exact h.steadyOut (execSeqHang_steady _ s)
  | selfTest => exact h.steadyOut (execSelfTest_steady _ _ _ s)
  | tileSplice => exact h.steadyOut (execTileSplice_steady _ _ _ _ s)
  | tileWear => exact h.steadyOut (execTileWear_steady _ _ s)
  | phaseFault => exact h.steadyOut (execPhaseFault_steady _ _ s)
  | pllSwitch => exact h.steadyOut (execPllSwitch_steady _ s)
  | ccTakeover => exact execCcTakeover_stands h
  | ccStandbyLost => exact execCcStandbyLost_stands h
  | stageCcFw => exact h.stepOut (execStageCcFw_frame s) (by decide)
  | stageInventory => exact h.steadyOut (execStageInventory_steady _ s)
  | stageStacks => exact h.stepOut (execStageStacks_frame _ _ s) (by decide)
  | stageFill => exact h.steadyOut (execStageFill_steady _ _ s)
  | stageCapstans => exact h.steadyOut (execStageCapstans_steady _ s)
  | stageSeqFw => exact h.stepOut (execStageSeqFw_frame s) (by decide)
  | broadcastRound => exact h.steadyOut (execBroadcastRound_steady _ _ _ s)
  | stageCadence => exact h.stepOut (execStageCadence_frame s) (by decide)
  | cadenceStageTimeout => exact h.stepOut (execCadenceStageTimeout_frame s) (by decide)
  | stageLinks => exact h.stepOut (execStageLinks_frame s) (by decide)
  | stageReady => exact h.stepOut (execStageReady_frame s) (by decide)
  | stageComplete => exact execStageComplete_stands _ _ _ h
  | precharge => exact execPrecharge_stands _ h
  | pwrOkRise => exact h.stepOut (execPwrOkRise_frame s) (by decide)
  | shutdown => exact execShutdown_stands _ h
  | leak => exact execLeak_stands h
  | modRstAssert => exact execModRstAssert_stands h
  | modRstRelease => exact h.stepOut (execModRstRelease_frame s) (by decide)
  | perstAssert => exact h.stepOut (execPerstAssert_frame _ _ s) (by decide)
  | perstRelease => exact h.stepOut (execPerstRelease_frame _ _ s) (by decide)
  | controlPacket => exact h.steadyOut (execControlPacket_steady _ _ s)
  | idleFlit => exact h.stepOut (execIdleFlit_frame _ _ s) (by decide)
  | trainingEnd => exact h.stepOut (execTrainingEnd_frame _ _ s) (by decide)
  | earlySignal => exact h.stepOut (execEarlySignal_frame _ s) (by decide)
  | fwStageWrite => exact h.stepOut (execFwStageWrite_frame _ _ _ s) (by decide)
  | readLatch => exact h.stepOut (execReadLatch_frame _ _ _ s) (by decide)
  | doeDiscovery => exact h.stepOut (execDoeDiscovery_frame _ s) (by decide)
  | mctpControl => exact h.stepOut (execMctpControl_frame _ s) (by decide)
  | resetStageStart => exact h.stepOut (execResetStageStart_frame s) (by decide)

theorem ctStaysInItsBeat : Claim.CtStaysInItsBeat := by
  have reset : Stands State.reset := .of_reset rfl rfl
  refine ⟨⟨reset.beat, reset.mirror⟩, fun s t beat mirror small few stepped => ?_⟩
  have stands : Stands s := ⟨beat, mirror⟩
  suffices Stands t from ⟨this.beat, this.mirror⟩
  cases queue : s.pending with
  | nil =>
    rw [step, queue] at stepped
    exact Host.Outcome.next.inj stepped ▸ stands.tick
  | cons c rest =>
    rw [step, queue] at stepped
    have left : Stands { s with pending := rest } := stands.steady ⟨rfl, rfl, rfl, rfl⟩
    have kept : outAll Stands (exec c { s with pending := rest }) := exec_stands c left small few
    rwa [show exec c { s with pending := rest } = .next t from stepped] at kept

/-- Settles O5: a received edge in LOCKED by the case of the beat edge, the others by the bounds that CT in its beat gives, kept by every step. -/
theorem beatEdgesMoveCt : Obligations.BeatEdgesMoveCt := ⟨lockedBeatEdgeAdvancesCt, beatEdgeNeverMovesCtBack, ctStaysInItsBeat⟩

end Sys2Proof.Machine
end

section
/-! SUPPORT. A move at the head of a queue that is not ARR: its failing checks, its lane faults, and its running (R171, R177, R468); the grouped ply moves join
their group (R568). -/

namespace Sys2Proof.Machine

section
variable {c : Instr} {p : Play} {tile code : Nat} {m m₁ : QMove} {s s₂ t u : State} {x : TileQueue} {m₀ : QMove} {st : BitVec 16} {l : LaneFault}

/-! ### A check that fails -/

/-- A check that fails comes before any fault of an operation. -/
theorem startAny_fail (start : startMoveOf p tile code m s = .fail st u) : startAny p tile code m s = .fail st u := by
  have lane : laneStart p tile m s (startMoveOf p tile code m s) = .fail st u := by
    rw [start]
    unfold laneStart
    dsimp only
    split <;> trivial
  unfold startAny parityStart
  dsimp only
  rw [lane]
  cases m.fault <;> rfl

theorem addDests_nil (found : getPlay s p.order = some p) : addDests p.order [] s = setPlay { p with dests := p.dests ++ [] } s := by
  unfold addDests
  rw [found]

/-- A failing check of a move at the head of its queue ends its play, and nothing else changes. -/
theorem HeadOf.fails (h : HeadOf c p tile code m s s₂ x m₀) (engine : code ≠ 1) (start : startMoveOf p tile code m s₂ = .fail st s₂)
    (other : st ≠ Status.retiredPage) : FailsWith c p tile m st s s₂ := by
  have none_ : failDests p tile m st s₂ s₂ = [] := if_neg other
  have held : getPlay (setPlay { p with dests := p.dests ++ [] } s₂) p.order = some { p with dests := p.dests ++ [] } :=
    getPlay_setPlay (q := { p with dests := p.dests ++ [] }) h.play
  have run : exec c s = .next (failPlay p.order (moveFailure st m tile) (setPlay { p with dests := p.dests ++ [] } s₂)) := by
    rw [h.starts engine, startAny_fail start, ← addDests_nil h.play, ← none_]
    rfl
  obtain ⟨v, y, ran, found, fail, stopped, frame⟩ := FailsWith.of_failPlay (p := { p with dests := p.dests ++ [] }) held h.live run
  exact ⟨v, y, ran, found, fail, stopped, ((OnlyChanges.refl [.plays] s₂).step (setPlay_frame _ s₂) (by decide)).step frame (by decide)⟩

/-! ### A lane's residue check -/

/-- What an operation that its reissue masks leaves (R468). -/
def laneLeft (p : Play) (tile : Nat) (l : LaneFault) (s u : State) : State :=
  if l = .once then laneResidue (unitOf 0 (physTile s tile)) (BitVec.ofNat 32 tile) p.origin p.id p.step true u else u

theorem laneLeft_frame (p : Play) (tile : Nat) (l : LaneFault) (s u : State) : OnlyChanges [.host, .store, .xing] u (laneLeft p tile l s u) := by
  unfold laneLeft
  split
  · exact (laneResidue_frame _ _ _ _ _ _ _).mono (by decide)
  · exact .refl _ _

theorem laneLeft_masked (p : Play) (tile : Nat) (l : LaneFault) (s u : State) : Masked l u (laneLeft p tile l s u) := by
  refine ⟨fun none_ => ?_, fun once => ?_⟩
  · rw [laneLeft, if_neg (by rw [none_]; decide)]
    exact ⟨rfl, rfl⟩
  · rw [laneLeft, if_pos once]
    have raised : Raises Ev.laneResidue u (record 3 1 0 p.origin (unitOf 0 (physTile s tile)) (BitVec.ofNat 32 tile) p.id p.step [] u) :=
      raises_record rfl _ _ _ _ _ _ _ _ _
    exact ⟨raised, records_record rfl id _ _ _ _ _ _ _ _ _⟩

theorem Masked.of_same (h : Masked l s t) (host : u.host = t.host) (store : u.store = t.store) : Masked l s u := by
  unfold Masked Raises Records
  rw [host, store]
  exact h

/-- Events and records are counted from any state of the same log, ledger and stage. -/
theorem Masked.from_same (h : Masked l s t) (host : s.host = u.host) (store : s.store = u.store) (bu : s.bu = u.bu) (xing : s.xing = u.xing) :
    Masked l u t := by
  unfold Masked Raises Records stageDone Calm at h ⊢
  rw [← host, ← store, ← bu, ← xing]
  exact h

/-- An operation of the ply lanes that meets nothing, or a residue fault that its reissue masks. -/
theorem startAny_lane (fault : m.fault = ofLane tile l) (mild : l = .none ∨ l = .once) (lane : laneOp (opOf m.word) = true)
    (start : startMoveOf p tile code m s = .run m₁ u) : startAny p tile code m s = .run m₁ (laneLeft p tile l s u) := by
  have left : laneStart p tile m s (startMoveOf p tile code m s) = .run m₁ (laneLeft p tile l s u) := by
    rw [start]
    unfold laneStart
    rw [lane, fault]
    rcases mild with rfl | rfl <;> rfl
  unfold startAny parityStart
  dsimp only
  rw [left, fault]
  rcases mild with rfl | rfl <;> rfl

/-! ### A move that runs -/

/-- What its row made of a move at the head of its queue. -/
theorem AtHead.fresh (h : AtHead c p tile code m s s₂) : m.ready = false ∧ m.took = [] := by
  obtain ⟨p₀, q, m₀, s₁, x, fetches, -, -, -, -, rfl⟩ := h.fetched
  rw [fetches.fresh]
  exact ⟨rfl, rfl⟩

/-- The queue of a move that runs holds it, started. -/
theorem HeadOf.holds (h : HeadOf c p tile code m s s₂ x m₀) (plays : t.plays = s₂.plays) (took : m₁.took = []) (started : m₁.started = true) :
    RunsAtHead (applyStart p tile code 0 m (.run m₁ t) s₂).2 p.order tile code ∧
      QueueHolds p.order tile code (fun l => l = [m₁]) (applyStart p tile code 0 m (.run m₁ t) s₂).2 := by
  have play : getPlay t p.order = some p := (getPlay_of_plays plays p.order).trans h.play
  have there := putFirst_queue h.queue h.only m₁
  have held : getPlay (putMove p.order tile code 0 m₁ t) p.order = some (p.putFirst tile code m₁) := by
    rw [putMove_first play]
    exact getPlay_setPlay (q := p.putFirst tile code m₁) play
  have put : RunsAtHead (putMove p.order tile code 0 m₁ t) p.order tile code := ⟨_, _, m₁, [], held, there, rfl, started⟩
  have only : QueueHolds p.order tile code (fun l => l = [m₁]) (putMove p.order tile code 0 m₁ t) := by
    intro q y found at_
    rw [held] at found
    cases found
    rw [there] at at_
    cases at_
    rfl
  refine ⟨((put.addDests _).noteStart _ _ _).noteAll, ((only.addDests _).noteStart _ _ _).noteAll fun l same => ?_⟩
  rw [same, List.map_singleton, noteHits, took]
  rfl

end

/-! ### The grouped moves -/

section
variable {c : Instr} {p : Play} {tile code : Nat} {m : QMove} {s s₂ : State} {op : Nat}

theorem startMoveOf_group (common : encCommon m.word = true) (op : opOf m.word ∈ [0x21, 0x22, 0x23, 0x29]) (s : State) :
    startMoveOf p tile code m s = startGroup p tile (opOf m.word) m s := by
  refine (if_neg (by rw [common]; decide)).trans ?_
  generalize opOf m.word = o at op
  simp only [List.mem_cons, List.not_mem_nil, or_false] at op
  rcases op with rfl | rfl | rfl | rfl <;> rfl

/-- A grouped move as it waits for its group. -/
def joined (p : Play) (m : QMove) : QMove := { m with started := true, reused := groupReused p (groupOf m.word) }

/-- The move at the head of a PLY queue that has started and waits is a member of its group. -/
theorem mem_members {y : Play} {q : TileQueue} {k : QMove} {r : List QMove} (found : getQueue y tile 2 = some q) (moves : q.moves = k :: r)
    (started : k.started = true) (waits : k.ready = false) (group : isGroupOp (opOf k.word) = true) : (tile, k) ∈ members y (groupOf k.word) := by
  have mem := List.mem_of_find?_eq_some found
  have named := List.find?_some found
  simp only [Bool.and_eq_true, beq_iff_eq] at named
  obtain ⟨rfl, at_⟩ := named
  refine List.mem_filterMap.2 ⟨q, mem, ?_⟩
  rw [at_, moves]
  simp [started, waits, group]

/-- The checks of a grouped move are passed. -/
theorem group_joins {l : LaneFault} {x : TileQueue} {m₀ : QMove} (atHead : AtHead c p tile 2 m s s₂) (h : HeadOf c p tile 2 m s s₂ x m₀)
    (op : opOf m.word ∈ [0x21, 0x22, 0x23, 0x29]) (fault : m.fault = ofLane tile l) (mild : l = .none ∨ l = .once)
    (start : startMoveOf p tile 2 m s₂ = .run (joined p m) s₂) :
    ∃ t y, exec c s = .next t ∧ RunsAtHead t p.order tile 2 ∧ getPlay t p.order = some y ∧ (tile, joined p m) ∈ members y (groupOf m.word) ∧ Masked l s₂ t ∧
      OnlyChanges [.plays, .host, .store, .xing] s₂ t := by
  have lane : laneOp (opOf m.word) = true ∧ isGroupOp (opOf m.word) = true := by
    simp only [List.mem_cons, List.not_mem_nil, or_false] at op
    rcases op with e | e | e | e <;> rw [e] <;> decide
  obtain ⟨waits, took⟩ := atHead.fresh
  have left := laneLeft_frame p tile l s₂ s₂
  have runs := h.starts (by decide)
  rw [startAny_lane fault mild lane.1 start] at runs
  obtain ⟨run, holds⟩ := h.holds (t := laneLeft p tile l s₂ s₂) (m₁ := joined p m) (left .plays (by decide)) took rfl
  have frame := applied_frame p tile 2 m (joined p m) (laneLeft p tile l s₂ s₂) s₂
  obtain ⟨y, q, k, r, found, at_, moves, started⟩ := id run
  have same := holds y q found at_
  refine ⟨_, y, runs, run, found, ?_, ?_, (left.mono (by decide)).step frame (by decide)⟩
  · exact mem_members at_ same rfl waits lane.2
  · exact (laneLeft_masked p tile l s₂ s₂).of_same (frame .host (by decide)) (frame .store (by decide))

/-- The checks of AMAXT in order. -/
theorem startGroup_amaxt (p : Play) (tile : Nat) (m : QMove) (s : State) : startGroup p tile 0x29 m s =
    if !encAmaxt m.word then .fail Status.moveField s
    else if !(storeOk s p tile (wf m.word 64 16 * 128) (4 * wf m.word 96 20) && storeOk s p tile (wf m.word 80 16 * 128) 4) then .fail Status.addrRange s
    else if wf m.word 116 20 % 128 != 0 then .fail Status.rowSpan s
    else .run (joined p m) s := rfl

/-- The operands of a grouped move other than AMAXT: offset and format. -/
def groupOps (op : Nat) (w : MoveWord) : List (Nat × Nat) := (wf w 85 16 * 128, wf w 67 4) :: if op = 0x21 then [] else [(wf w 101 16 * 128, wf w 71 4)]

/-- The extents of a grouped move other than AMAXT lie in the store. -/
def groupFits (s : State) (p : Play) (tile op : Nat) (w : MoveWord) : Bool :=
  (groupOps op w).all (fun x => storeOk s p tile x.1 (sqsOf (wf w 220 16 * wf w 191 17) * sqSize x.2)) &&
    storeOk s p tile (wf w 133 16 * 128) (if op = 0x21 then 4 * wf w 220 16 else destBytes (wf w 75 4) (sqsOf (wf w 220 16 * wf w 191 17))) &&
    (op != 0x23 || storeOk s p tile (wf w 117 16 * 128) (nrmEnd w - wf w 117 16 * 128))

/-- The checks of REDUCE, SMXB and NRMB in order. -/
theorem startGroup_row (row : op ≠ 0x29) (s : State) : startGroup p tile op m s =
    if !encReduce op m.word then .fail Status.moveField s
    else if fmtScaleField (wf m.word 75 4) then .fail Status.fmtPair s
    else (operandCheck s ((groupOps op m.word).map fun x => (tileAddr tile x.1, x.2, sqsOf (wf m.word 220 16 * wf m.word 191 17)))).elim
      (if !groupFits s p tile op m.word then .fail Status.addrRange s
        else if op = 0x23 && decide (32 < wf m.word 191 17) then .fail Status.rowSpan s
        else .run (joined p m) s) fun st => .fail st s := by
  refine (if_neg row).trans ?_
  unfold groupFits
  dsimp only
  refine congrArg (fun r => ite _ _ (ite _ _ r)) ?_
  unfold groupOps
  generalize operandCheck s _ = found
  cases found <;> rfl

/-- The header checks never find a retired granule. -/
theorem operandCheck_status {ops : List (Nat × Nat × Nat)} {st : BitVec 16} (found : operandCheck s ops = some st) : st ≠ Status.retiredPage := by
  unfold operandCheck at found
  dsimp only at found
  split at found
  · exact Option.some.inj found ▸ by decide
  · split at found
    · exact Option.some.inj found ▸ by decide
    · exact nomatch found

theorem groupMovesStart : Claim.GroupMovesStart := by
  intro l op c p tile m s s₂ listed atHead w at_ df nsq ops formed pair heads fits span
  obtain ⟨x, m₀, h⟩ := atHead.head
  have row : opOf m.word = op ∧ m.fault = ofLane tile l := by
    simp only [List.mem_cons, Prod.mk.injEq, List.not_mem_nil, or_false] at listed
    rcases listed with ⟨rfl, rfl⟩ | ⟨rfl, rfl⟩ | ⟨rfl, rfl⟩ | ⟨rfl, rfl⟩
    all_goals exact atHead.row rfl
  have grouped : opOf m.word ∈ [0x21, 0x22, 0x23, 0x29] := by
    rw [row.1]
    simp only [List.mem_cons, Prod.mk.injEq, List.not_mem_nil, or_false] at listed ⊢
    rcases listed with ⟨rfl, -⟩ | ⟨rfl, -⟩ | ⟨rfl, -⟩ | ⟨rfl, -⟩ <;> decide
  have fails {st : BitVec 16} (start : startMoveOf p tile 2 m s₂ = .fail st s₂) (other : st ≠ Status.retiredPage) := h.fails (by decide) start other
  have start (common : encCommon w = true) : startMoveOf p tile 2 m s₂ = startGroup p tile op m s₂ := by
    rw [startMoveOf_group common grouped, row.1]
  have parts (is : formed = true) : encCommon w = true ∧ (if op = 0x29 then encAmaxt w else encReduce op w) = true := Bool.and_eq_true_iff.1 is
  by_cases amaxt : op = 0x29
  · have pairs : pair = false := by rw [show pair = (op != 0x29 && fmtScaleField df) from rfl, amaxt]; rfl
    have none_ : heads = none := if_pos amaxt
    have inside : fits = (storeOk s₂ p tile (wf w 64 16 * 128) (4 * wf w 96 20) && storeOk s₂ p tile (wf w 80 16 * 128) 4) := if_pos amaxt
    have spans : span = (wf w 116 20 % 128 == 0) := if_pos amaxt
    have starts (is : formed = true) : startMoveOf p tile 2 m s₂ = if !fits then .fail Status.addrRange s₂
        else if wf w 116 20 % 128 != 0 then .fail Status.rowSpan s₂ else .run (joined p m) s₂ := by
      obtain ⟨common, enc⟩ := parts is
      rw [if_pos amaxt] at enc
      rw [start common, amaxt, startGroup_amaxt, if_neg (by rw [enc]; decide), inside]
    refine ⟨fun bad => ?_, fun _ is => ?_, fun st _ _ is => ?_, fun is _ _ out => ?_, fun is _ _ ok bad => ?_, fun mild is _ _ ok good => ?_⟩
    · refine fails (startMoveOf_bad (start := startGroup p tile op m) bad start fun no => ?_) (by decide)
      rw [if_pos amaxt] at no
      rw [amaxt, startGroup_amaxt, if_pos (by rw [no]; rfl)]
    · rw [pairs] at is
      exact nomatch is
    · rw [none_] at is
      exact nomatch is
    · exact fails ((starts is).trans (if_pos (by rw [out]; rfl))) (by decide)
    · rw [spans] at bad
      exact fails ((starts is).trans ((if_neg (by rw [ok]; decide)).trans (if_pos (by simpa using bad)))) (by decide)
    · rw [spans] at good
      exact group_joins atHead h grouped row.2 mild ((starts is).trans ((if_neg (by rw [ok]; decide)).trans (if_neg (by simpa using good))))
  · have pairs : pair = fmtScaleField df := by
      change (op != 0x29 && fmtScaleField df) = _
      rw [bne_iff_ne.2 amaxt, Bool.true_and]
    have checked : heads = operandCheck s₂ ((groupOps op w).map fun x => (tileAddr tile x.1, x.2, nsq)) := if_neg amaxt
    have inside : fits = groupFits s₂ p tile op w := if_neg amaxt
    have spans : span = (op != 0x23 || decide (wf w 191 17 ≤ 32)) := if_neg amaxt
    have first (is : formed = true) : startMoveOf p tile 2 m s₂ = if pair = true then .fail Status.fmtPair s₂ else heads.elim
        (if !fits then .fail Status.addrRange s₂
          else if op = 0x23 && decide (32 < wf w 191 17) then .fail Status.rowSpan s₂
          else .run (joined p m) s₂) fun st => .fail st s₂ := by
      obtain ⟨common, enc⟩ := parts is
      rw [if_neg amaxt] at enc
      rw [start common, startGroup_row amaxt, if_neg (by rw [enc]; decide), pairs, inside, checked]
    have starts (is : formed = true) (free : pair = false) := (first is).trans (if_neg (by rw [free]; decide))
    have passed (is : formed = true) (free : pair = false) (right : heads = none) :=
      (starts is free).trans (congrArg (fun r => Option.elim r _ fun st => Start.fail st s₂) right)
    refine ⟨fun bad => ?_, fun is shut => ?_, fun st is free found => ?_, fun is free right out => ?_, fun is free right ok bad => ?_, fun mild is free right ok good => ?_⟩
    · refine fails (startMoveOf_bad (start := startGroup p tile op m) bad start fun no => ?_) (by decide)
      rw [if_neg amaxt] at no
      rw [startGroup_row amaxt, if_pos (by rw [no]; rfl)]
    · exact fails ((first is).trans (if_pos shut)) (by decide)
    · refine fails ((starts is free).trans (congrArg (fun r => Option.elim r _ fun st => Start.fail st s₂) found)) (operandCheck_status (checked ▸ found))
    · exact fails ((passed is free right).trans (if_pos (by rw [out]; rfl))) (by decide)
    · rw [spans] at bad
      exact fails ((passed is free right).trans ((if_neg (by rw [ok]; decide)).trans (if_pos (by simpa using bad)))) (by decide)
    · rw [spans] at good
      refine group_joins atHead h grouped row.2 mild ((passed is free right).trans ((if_neg (by rw [ok]; decide)).trans (if_neg ?_)))
      simpa [imp_iff_not_or] using good

end

end Sys2Proof.Machine
end

section
/-! SUPPORT. Writes above the near tier: the addresses they reach, the words and the elements of squares that they leave (R3, R92, R216). -/

namespace Sys2Proof.Machine

/-! ### The addresses that a step reaches -/

/-- The addresses of a range. -/
def Within (a n k : Nat) : Prop := a ≤ k ∧ k < a + n

/-- From one state to another memory changes at places in R alone, and keeps its form. -/
structure Touches (R : Nat → Prop) (s t : State) : Prop where
  regions : t.regions = s.regions
  form : Inv s → Inv t
  reads : ∀ k, ¬R k → readMem t.mem k = readMem s.mem k

section
variable {R Q : Nat → Prop} {s t u : State}

theorem Touches.refl (s : State) : Touches R s s := ⟨rfl, id, fun _ _ => rfl⟩

theorem Touches.trans (h : Touches R s t) (k : Touches R t u) : Touches R s u :=
  ⟨k.regions.trans h.regions, k.form ∘ h.form, fun x out => (k.reads x out).trans (h.reads x out)⟩

theorem Touches.mono (h : Touches R s t) (wider : ∀ k, R k → Q k) : Touches Q s t :=
  ⟨h.regions, h.form, fun x out => h.reads x fun inside => out (wider x inside)⟩

theorem Touches.step {m : List Part} (h : Touches R s t) (f : OnlyChanges m t u) (away : Part.mem ∉ m ∧ Part.regions ∉ m) : Touches R s u := by
  have mem : u.mem = t.mem := f .mem away.1
  refine ⟨(f .regions away.2).trans h.regions, fun form => ?_, fun x out => ?_⟩
  · unfold Inv
    rw [mem]
    exact h.form form
  · rw [mem]
    exact h.reads x out

theorem Touches.ite {c : Prop} [Decidable c] (h : Touches R s t) (k : Touches R s u) : Touches R s (if c then t else u) := by
  split
  · exact h
  · exact k

theorem Touches.fold {α : Type} {f : State → α → State} {xs : List α} (h : Touches R s t) (k : ∀ u, ∀ x ∈ xs, Touches R u (f u x)) :
    Touches R s (xs.foldl f t) := by
  induction xs generalizing t with
  | nil => exact h
  | cons x r ih => exact ih (h.trans (k t x (.head _))) fun u y mem => k u y (.tail _ mem)

theorem touches_writeBytes {a : Nat} (far : nearEnd ≤ a) (l : List Byte) (s : State) : Touches (Within a l.length) s (writeBytes a l s) := by
  induction l generalizing a s with
  | nil => exact .refl s
  | cons b r ih =>
    have key := memKey_of_far far s
    have first : Touches (Within a (b :: r).length) s (writeByte a b s) := by
      unfold writeByte
      rw [key]
      refine ⟨rfl, fun form => ?_, fun k out => readMem_writeMem_ne (fun same => out ?_) b s.mem⟩
      · have kept := inv_writeByte (a := a) (v := b) form
        unfold writeByte at kept
        rwa [key] at kept
      · rw [same]
        exact ⟨le_rfl, by rw [List.length_cons]; omega⟩
    refine first.trans ((ih (far_add far 1) _).mono fun k inside => ?_)
    obtain ⟨low, high⟩ := inside
    refine ⟨by omega, ?_⟩
    rw [List.length_cons]
    omega

theorem touches_busWrite {a : Nat} (far : nearEnd ≤ a) (l : List Byte) (s : State) : Touches (Within a l.length) s (busWrite a l s) := by
  unfold busWrite
  rw [if_neg (Nat.not_lt.mpr far)]
  exact touches_writeBytes far l s

theorem touches_writeN {a : Nat} (far : nearEnd ≤ a) (n x : Nat) (s : State) : Touches (Within a n) s (writeN a n x s) := by
  have wrote := touches_writeBytes far (toLE n x) s
  rwa [toLE_length] at wrote

theorem Touches.readByte (h : Touches R s t) {a : Nat} (far : nearEnd ≤ a) (out : ¬R a) : readByte t a = readByte s a := by
  unfold Machine.readByte
  rw [memKey_of_far far, memKey_of_far far]
  exact h.reads a out

theorem Touches.readBytes (h : Touches R s t) {a : Nat} (far : nearEnd ≤ a) {n : Nat} (out : ∀ i < n, ¬R (a + i)) : readBytes t a n = readBytes s a n := by
  induction n generalizing a with
  | zero => rfl
  | succ n ih =>
    rw [Machine.readBytes, Machine.readBytes, h.readByte far (out 0 (by omega)), ih (far_add far 1) fun i less => ?_]
    rw [Nat.add_right_comm]
    exact out (i + 1) (by omega)

theorem Touches.readN (h : Touches R s t) {a : Nat} (far : nearEnd ≤ a) {n : Nat} (out : ∀ i < n, ¬R (a + i)) : readN t a n = readN s a n := by
  unfold Machine.readN
  rw [h.readBytes far out]

/-- Bytes that lie at none of the places read as before. -/
theorem Touches.keeps (h : Touches R s t) {l : List (Nat × Nat)} (far : ∀ x ∈ l, nearEnd ≤ x.1) (covered : ∀ k, R k → ∃ x ∈ l, Within x.1 x.2 k) :
    KeepsBytes l s t := by
  intro a away
  unfold Machine.readByte
  rw [memKey_of_regions h.regions]
  cases key : memKey s a with
  | none => rfl
  | some k =>
    refine h.reads k fun inside => ?_
    obtain ⟨x, mem, low, high⟩ := covered k inside
    refine away x mem (k - x.1) (by omega) ?_
    rw [key, show x.1 + (k - x.1) = k by omega, memKey_of_far ((far x mem).trans low)]

/-! ### Words -/

theorem readN_writeN_self {a : Nat} (hs : Inv s) (far : nearEnd ≤ a) (n x : Nat) : readN (writeN a n x s) a n = x % 256 ^ n := by
  have read := readBytes_writeBytes_self (toLE n x) hs far
  rw [toLE_length] at read
  unfold Machine.readN writeN
  rw [read, ofLE_toLE]

theorem readN_writeWord_self {a : Nat} (hs : Inv s) (far : nearEnd ≤ a) (x : W32) : readN (writeN a 4 x.toNat s) a 4 = x.toNat := by
  rw [readN_writeN_self hs far]
  exact Nat.mod_eq_of_lt (by have := x.isLt; omega)

theorem ofLE_append (l r : List Byte) : ofLE (l ++ r) = ofLE l + 256 ^ l.length * ofLE r := by
  induction l with
  | nil => simp [ofLE]
  | cons b l ih =>
    rw [List.cons_append, ofLE, ofLE, ih, List.length_cons, Nat.pow_succ]
    ring

theorem readBytes_add (s : State) (a n k : Nat) : readBytes s a (n + k) = readBytes s a n ++ readBytes s (a + n) k := by
  rw [← readBytes_take s a n k, ← readBytes_drop s a n k, List.take_append_drop]

theorem readN_add (s : State) (a n k : Nat) : readN s a (n + k) = readN s a n + 256 ^ n * readN s (a + n) k := by
  unfold Machine.readN
  rw [readBytes_add, ofLE_append, readBytes_length]

theorem readN_lt (s : State) (a n : Nat) : readN s a n < 256 ^ n := by
  have bound := ofLE_lt (Machine.readBytes s a n)
  rwa [readBytes_length] at bound

theorem readN_mod (s : State) (a n k : Nat) : readN s a (n + k) % 256 ^ n = readN s a n := by
  rw [readN_add, Nat.add_mul_mod_self_left, Nat.mod_eq_of_lt (readN_lt s a n)]

theorem readN_div (s : State) (a n k : Nat) : readN s a (n + k) / 256 ^ n = readN s (a + n) k := by
  rw [readN_add, Nat.add_mul_div_left _ _ (Nat.pow_pos (by decide)), Nat.div_eq_of_lt (readN_lt s a n), Nat.zero_add]

/-- Bits of a number that lie in its low part. -/
theorem bits_of_mod {x b e n : Nat} (within : b + e ≤ n) : x % 2 ^ n / 2 ^ b % 2 ^ e = x / 2 ^ b % 2 ^ e := by
  refine Nat.eq_of_testBit_eq fun i => ?_
  simp only [Nat.testBit_mod_two_pow, Nat.testBit_div_two_pow]
  by_cases less : i < e
  · simp [less, show i + b < n by omega]
  · simp [less]

/-- Bits of a word depend on the bytes alone in which they lie. -/
theorem readN_bits (s : State) (a : Nat) {n k b e : Nat} (fits : k ≤ n) (within : b + e ≤ 8 * k) : readN s a n / 2 ^ b % 2 ^ e = readN s a k / 2 ^ b % 2 ^ e := by
  obtain ⟨d, rfl⟩ := Nat.exists_eq_add_of_le fits
  rw [← readN_mod s a k d, show (256 : Nat) = 2 ^ 8 from rfl, ← Nat.pow_mul, bits_of_mod within]

/-! ### Lines of squares -/

/-- The number whose digits of e bits are given. -/
def digits (e n : Nat) (d : Nat → Nat) : Nat := (List.range n).foldl (fun w k => w + d k % 2 ^ e * 2 ^ (e * k)) 0

theorem digits_succ (e n : Nat) (d : Nat → Nat) : digits e (n + 1) d = digits e n d + d n % 2 ^ e * 2 ^ (e * n) := by
  unfold digits
  rw [List.range_succ, List.foldl_append]
  rfl

theorem digits_lt (e n : Nat) (d : Nat → Nat) : digits e n d < 2 ^ (e * n) := by
  induction n with
  | zero => exact Nat.pow_pos (by decide)
  | succ n ih =>
    have top : d n % 2 ^ e + 1 ≤ 2 ^ e := Nat.mod_lt _ (Nat.pow_pos (by decide))
    have scaled := Nat.mul_le_mul_right (2 ^ (e * n)) top
    rw [digits_succ, Nat.mul_succ, Nat.pow_add, Nat.mul_comm (2 ^ (e * n))]
    rw [Nat.add_mul, Nat.one_mul] at scaled
    omega

theorem digits_get (e : Nat) (d : Nat → Nat) {n k : Nat} (less : k < n) : digits e n d / 2 ^ (e * k) % 2 ^ e = d k % 2 ^ e := by
  induction n with
  | zero => omega
  | succ n ih =>
    rw [digits_succ]
    rcases Nat.lt_or_eq_of_le (Nat.le_of_lt_succ less) with before | rfl
    · have apart : e * n = e * k + (e + e * (n - k - 1)) := by
        obtain ⟨r, rfl⟩ := Nat.exists_eq_add_of_lt before
        rw [show k + r + 1 - k - 1 = r by omega]
        ring
      rw [apart, Nat.pow_add, Nat.mul_left_comm, Nat.add_mul_div_left _ _ (Nat.pow_pos (by decide)), Nat.pow_add, Nat.mul_left_comm, Nat.add_mul_mod_self_left]
      exact ih before
    · rw [Nat.mul_comm (d k % 2 ^ e), Nat.add_mul_div_left _ _ (Nat.pow_pos (by decide)), Nat.div_eq_of_lt (digits_lt e k d), Nat.zero_add, Nat.mod_mod]

theorem fmtBits_cases (c : Nat) : fmtBits c = 32 ∨ fmtBits c = 16 ∨ fmtBits c = 8 ∨ fmtBits c = 6 ∨ fmtBits c = 4 := by
  unfold fmtBits elemFmt
  split <;> decide

/-- An element of a square, from the number that its line is. -/
theorem sqBits_eq_line (s : State) (base c i j : Nat) :
    sqBits s base c i j = readN s (base + fmtHdr c + i * 16 * fmtBits c) (16 * fmtBits c) / 2 ^ (fmtBits c * ((i + j) % 128)) % 2 ^ fmtBits c := by
  unfold sqBits elemPos
  dsimp only
  have slot : (i + j) % 128 < 128 := Nat.mod_lt _ (by decide)
  generalize (i + j) % 128 = k at slot ⊢
  have few := fmtBits_cases c
  generalize fmtBits c = e at few ⊢
  rw [show base + (fmtHdr c + i * 16 * e + e * k / 8) = base + fmtHdr c + i * 16 * e + e * k / 8 by omega]
  generalize base + fmtHdr c + i * 16 * e = a
  have whole : e * k + e ≤ e * 128 := by
    rw [← Nat.mul_succ]
    exact Nat.mul_le_mul_left e slot
  have up : 2 ^ (e * k) = 256 ^ (e * k / 8) * 2 ^ (e * k % 8) := by
    rw [show (256 : Nat) = 2 ^ 8 from rfl, ← Nat.pow_mul, ← Nat.pow_add, Nat.div_add_mod]
  have line : readN s a (16 * e) / 256 ^ (e * k / 8) = readN s (a + e * k / 8) (16 * e - e * k / 8) := by
    rw [← readN_div, Nat.add_sub_cancel' (by omega)]
  rw [up, ← Nat.div_div_eq_div_mul, line]
  have few : (e * k % 8 + e + 7) / 8 ≤ if e = 32 then 4 else 2 := by
    rcases few with rfl | rfl | small
    · rw [if_pos rfl]
      omega
    · rw [if_neg (by decide)]
      omega
    · rw [if_neg (by omega)]
      omega
  rw [readN_bits s _ few (by omega), readN_bits s _ (n := 16 * e - e * k / 8) (k := (e * k % 8 + e + 7) / 8) (by omega) (by omega)]

/-- An element stays where its line is not touched. -/
theorem Touches.sqBits {R : Nat → Prop} {t : State} (h : Touches R s t) {base : Nat} (far : nearEnd ≤ base) (c i j : Nat)
    (out : ∀ k < 16 * fmtBits c, ¬R (base + fmtHdr c + i * 16 * fmtBits c + k)) : sqBits t base c i j = sqBits s base c i j := by
  rw [sqBits_eq_line, sqBits_eq_line, h.readN (far_add (far_add far _) _) out]

theorem touches_sqWriteLine {base : Nat} (far : nearEnd ≤ base) (c i : Nat) (el : List Nat) (s : State) :
    Touches (Within (base + fmtHdr c + i * 16 * fmtBits c) (16 * fmtBits c)) s (sqWriteLine base c i el s) := by
  unfold sqWriteLine
  have wrote (x : Nat) := touches_busWrite (far_add (far_add far (fmtHdr c)) (i * 16 * fmtBits c)) (toLE (16 * fmtBits c) x) s
  simp only [toLE_length] at wrote
  exact wrote _

theorem sqBits_sqWriteLine_self {base : Nat} (hs : Inv s) (far : nearEnd ≤ base) (c i : Nat) (el : List Nat) {j : Nat} (less : j < 128) :
    sqBits (sqWriteLine base c i el s) base c i j = el.getD j 0 % 2 ^ fmtBits c := by
  have far' := far_add (far_add far (fmtHdr c)) (i * 16 * fmtBits c)
  have eq : sqWriteLine base c i el s = writeN (base + fmtHdr c + i * 16 * fmtBits c) (16 * fmtBits c)
      (digits (fmtBits c) 128 fun k => el.getD ((k + 128 - i % 128) % 128) 0) s := if_neg (Nat.not_lt.mpr far')
  rw [sqBits_eq_line, eq, readN_writeN_self hs far', show (256 : Nat) = 2 ^ 8 from rfl, ← Nat.pow_mul, show 8 * (16 * fmtBits c) = fmtBits c * 128 by ring,
    Nat.mod_eq_of_lt (digits_lt _ _ _), digits_get _ _ (Nat.mod_lt _ (by decide)), show ((i + j) % 128 + 128 - i % 128) % 128 = j by omega]

end

end Sys2Proof.Machine
end

section
/-! SUPPORT. Runs of converted lines: where their squares and lines lie, and what a run leaves of each element (R92, R95, R98, R150). -/

namespace Sys2Proof.Machine

/-! ### Folds that leave what they made -/

section
variable {α : Type} {f : State → α → State} {P : α → State → Prop} {I : State → Prop} {xs : List α} {s : State}

/-- What holds at a start and is kept by every step holds at the end. -/
theorem foldl_holds (start : I s) (keeps : ∀ x ∈ xs, ∀ u, I u → I (f u x)) : I (xs.foldl f s) := by
  induction xs generalizing s with
  | nil => exact start
  | cons x r ih => exact ih (keeps x (.head _) s start) fun y mem => keeps y (.tail _ mem)

/-- Every step makes its own fact, and no later one undoes it. -/
theorem foldl_each (start : I s) (keeps : ∀ x ∈ xs, ∀ u, I u → I (f u x)) (makes : ∀ x ∈ xs, ∀ u, I u → P x (f u x))
    (stays : xs.Pairwise fun x y => ∀ u, P x u → P x (f u y)) : ∀ x ∈ xs, P x (xs.foldl f s) := by
  induction xs generalizing s with
  | nil => exact fun x mem => nomatch mem
  | cons a r ih =>
    obtain ⟨first, rest⟩ := List.pairwise_cons.1 stays
    intro x mem
    rcases List.mem_cons.1 mem with same | later
    · rw [same]
      change P a (r.foldl f (f s a))
      exact foldl_holds (I := P a) (makes a (.head _) s start) fun y inside u holds => first y inside u holds
    · exact ih (keeps a (.head _) s start) (fun y inside => keeps y (.tail _ inside)) (fun y inside => makes y (.tail _ inside)) rest x later

end

/-! ### Where squares and lines lie -/

/-- Square q of a run. -/
def squareAt (base c q : Nat) : Nat := base + q * sqSize c

/-- The elements of line k of a run. -/
def lineAt (base c k : Nat) : Nat := squareAt base c (k / 128) + fmtHdr c + k % 128 * 16 * fmtBits c

section
variable {base c k q : Nat}

theorem squareAt_succ (base c q : Nat) : squareAt base c (q + 1) = squareAt base c q + (fmtHdr c + 128 * 16 * fmtBits c) := by
  unfold squareAt sqSize
  ring

theorem squareAt_mono {r : Nat} (before : q ≤ r) : squareAt base c q ≤ squareAt base c r := Nat.add_le_add_left (Nat.mul_le_mul_right _ before) _

theorem lineAt_lines (base c k : Nat) : lineAt base c k = squareAt base c (k / 128) + fmtHdr c + k % 128 * (16 * fmtBits c) := by
  rw [lineAt, Nat.mul_assoc]

theorem lineAt_end (base c k : Nat) : lineAt base c k + 16 * fmtBits c ≤ squareAt base c (k / 128 + 1) := by
  have rows := Nat.mul_le_mul_right (16 * fmtBits c) (show k % 128 + 1 ≤ 128 by omega)
  rw [lineAt_lines, squareAt_succ]
  rw [Nat.add_mul, Nat.one_mul] at rows
  omega

theorem lineAt_next {r : Nat} (before : k < r) : lineAt base c k + 16 * fmtBits c ≤ lineAt base c r := by
  rcases Nat.lt_or_eq_of_le (Nat.div_le_div_right (c := 128) before.le) with other | same
  · have up := squareAt_mono (base := base) (c := c) (show k / 128 + 1 ≤ r / 128 from other)
    have last := lineAt_end base c k
    rw [lineAt_lines base c r]
    omega
  · have rows := Nat.mul_le_mul_right (16 * fmtBits c) (show k % 128 + 1 ≤ r % 128 by omega)
    rw [lineAt_lines, lineAt_lines, same]
    rw [Nat.add_mul, Nat.one_mul] at rows
    omega

/-- A header lies before the lines of its square, or after those of an earlier one. -/
theorem lineAt_head (base c k q : Nat) : squareAt base c q + fmtHdr c ≤ lineAt base c k ∨ lineAt base c k + 16 * fmtBits c ≤ squareAt base c q := by
  rcases Nat.lt_or_ge (k / 128) q with before | after
  · exact .inr ((lineAt_end base c k).trans (squareAt_mono before))
  · refine .inl ?_
    have up := squareAt_mono (base := base) (c := c) after
    rw [lineAt_lines]
    omega

theorem far_squareAt (far : nearEnd ≤ base) : nearEnd ≤ squareAt base c q := far_add far _

theorem sqsOf_of_lt {n : Nat} (less : k < n) : k / 128 < sqsOf n := by
  unfold sqsOf cdiv
  omega

end

/-! ### One line -/

theorem convLine_scales {c : Nat} (mx : fmtMx c = true) (margin : Nat) (sr : Bool) (r : Nat → W32) (x : Int) (xs : List FVal) (k : Counts) :
    (convLine c margin sr r x xs k).2.1.length = 4 := by
  unfold convLine
  rw [if_pos mx]
  rfl

section
variable (d : DestRun) (die : Nat → Nat → W32) (k valid : Nat) (xs : List W32) (s : State)

/-- The places of a line's elements, and of its square's header. -/
def DestRun.LinePlace (d : DestRun) (k a : Nat) : Prop :=
  Within (lineAt d.base d.fmt k) (16 * fmtBits d.fmt) a ∨ Within (squareAt d.base d.fmt (k / 128)) (fmtHdr d.fmt) a

theorem fmtHdr_of_mx {c : Nat} (mx : fmtMx c = true) : fmtHdr c = 640 := by
  unfold fmtMx at mx
  simp only [Bool.and_eq_true, decide_eq_true_eq] at mx
  unfold fmtHdr
  rw [if_neg (by omega), if_neg (by omega)]

theorem DestRun.line_touches (far : nearEnd ≤ d.base) : Touches (d.LinePlace k) s (d.line die k valid xs s) := by
  have far' := far_squareAt (c := d.fmt) (q := k / 128) far
  have body := (touches_sqWriteLine far' d.fmt (k % 128) (d.conv die k valid xs).1 s).mono (Q := d.LinePlace k) fun a inside => .inl inside
  unfold DestRun.line
  dsimp only
  refine Touches.step ?_ (countConv_frame _ _ _ _) (by decide)
  split
  next mx =>
    refine body.trans ((touches_writeBytes (far_add (far_add far' 128) (4 * (k % 128))) _ _).mono fun a inside => .inr ?_)
    have scales : (d.conv die k valid xs).2.1.length = 4 := convLine_scales mx ..
    rw [List.length_map, scales] at inside
    obtain ⟨low, high⟩ := inside
    rw [fmtHdr_of_mx mx]
    exact ⟨by omega, by omega⟩
  · exact body

/-- A line's elements as it leaves them. -/
theorem DestRun.line_bits (hs : Inv s) (far : nearEnd ≤ d.base) {j : Nat} (less : j < 128) :
    sqBits (d.line die k valid xs s) (squareAt d.base d.fmt (k / 128)) d.fmt (k % 128) j = (d.conv die k valid xs).1.getD j 0 % 2 ^ fmtBits d.fmt := by
  have far' := far_squareAt (c := d.fmt) (q := k / 128) far
  rw [← sqBits_sqWriteLine_self hs far' d.fmt (k % 128) (d.conv die k valid xs).1 less]
  have above : Touches (Within (squareAt d.base d.fmt (k / 128)) (fmtHdr d.fmt))
      (sqWriteLine (squareAt d.base d.fmt (k / 128)) d.fmt (k % 128) (d.conv die k valid xs).1 s) (d.line die k valid xs s) := by
    unfold DestRun.line
    dsimp only
    refine Touches.step ?_ (countConv_frame _ _ _ _) (by decide)
    split
    next mx =>
      refine (touches_writeBytes (far_add (far_add far' 128) (4 * (k % 128))) _ _).mono fun a inside => ?_
      have scales : (d.conv die k valid xs).2.1.length = 4 := convLine_scales mx ..
      rw [List.length_map, scales] at inside
      obtain ⟨low, high⟩ := inside
      rw [fmtHdr_of_mx mx]
      exact ⟨by omega, by omega⟩
    · exact .refl _
  refine above.sqBits far' _ _ _ fun i _ inside => ?_
  obtain ⟨-, high⟩ := inside
  omega

end

/-! ### A whole run -/

section
variable (d : DestRun) (die : Nat → Nat → W32) (valid : Nat → Nat) (s : State)

/-- The places of the headers of a run of so many lines, and of the amax table behind its squares. -/
def DestRun.HeadPlace (d : DestRun) (n a : Nat) : Prop :=
  (∃ q < sqsOf n, Within (squareAt d.base d.fmt q) (fmtHdr d.fmt) a) ∨ (fmtWide d.fmt = true ∧ Within (squareAt d.base d.fmt (sqsOf n)) (4 * sqsOf n) a)

theorem DestRun.heads_touches (amax : List W32) (far : nearEnd ≤ d.base) : Touches (d.HeadPlace amax.length) s (d.heads amax s) := by
  unfold DestRun.heads
  refine Touches.fold (.refl s) fun u q mem => ?_
  have less : q < sqsOf amax.length := List.mem_range.1 mem
  dsimp only
  split
  next mx =>
    unfold sqWriteDesc
    refine (touches_busWrite (far_add far _) _ u).mono fun a inside => .inl ⟨q, less, ?_⟩
    simp only [List.length_append, toLE_length, List.length_replicate] at inside
    obtain ⟨low, high⟩ := inside
    rw [fmtHdr_of_mx mx]
    exact ⟨low, by unfold squareAt; omega⟩
  · split
    next wide =>
      refine (touches_writeN (far_add (far_add far _) _) 4 _ u).mono fun a inside => .inr ⟨wide, ?_⟩
      obtain ⟨low, high⟩ := inside
      unfold squareAt
      exact ⟨by omega, by omega⟩
    · exact .refl _

/-- The places of the padding behind line n. -/
def DestRun.PadPlace (d : DestRun) (n a : Nat) : Prop :=
  Within (lineAt d.base d.fmt n) ((128 - n % 128) * 16 * fmtBits d.fmt) a ∨ Within (squareAt d.base d.fmt (n / 128)) (fmtHdr d.fmt) a

theorem padLines_touches {n : Nat} (far : nearEnd ≤ d.base) : Touches (d.PadPlace n) s (padLines (d.base + n / 128 * sqSize d.fmt) d.fmt (n % 128) s) := by
  have far' := far_squareAt (c := d.fmt) (q := n / 128) far
  have body : Touches (d.PadPlace n) s (padBody (squareAt d.base d.fmt (n / 128)) d.fmt (n % 128) s) := by
    refine (touches_busWrite (far_add (far_add far' _) _) _ s).mono fun a inside => .inl ?_
    rwa [List.length_replicate] at inside
  unfold padLines
  dsimp only
  split
  next mx =>
    refine body.trans ((touches_busWrite (far_add (far_add far' 128) _) _ _).mono fun a inside => .inr ?_)
    rw [List.length_replicate] at inside
    obtain ⟨low, high⟩ := inside
    rw [fmtHdr_of_mx mx]
    exact ⟨by omega, by omega⟩
  · exact body

/-- The lines of a run, written one after another. -/
def DestRun.body (d : DestRun) (die : Nat → Nat → W32) (valid : Nat → Nat) (lines : List (List W32)) (s : State) : State :=
  lines.zipIdx.foldl (fun s (x, k) => d.line die k (valid k) x s) s

theorem DestRun.write_eq (lines : List (List W32)) : ∃ amax : List W32, amax.length = lines.length ∧ d.write die valid lines s =
    if lines.length % 128 = 0 then d.heads amax (d.body die valid lines s)
    else padLines (d.base + lines.length / 128 * sqSize d.fmt) d.fmt (lines.length % 128) (d.heads amax (d.body die valid lines s)) := by
  refine ⟨lines.zipIdx.map fun (x, k) => (d.conv die k (valid k) x).2.2.2, ?_, ?_⟩
  · rw [List.length_map, List.length_zipIdx]
  · unfold DestRun.write DestRun.body
    dsimp only

theorem mem_zipIdx_less {α : Type} {l : List α} {x : α × Nat} (mem : x ∈ l.zipIdx) : x.2 < l.length ∧ l[x.2]? = some x.1 := by
  have found := List.mem_zipIdx_iff_getElem?.1 mem
  exact ⟨(List.getElem?_eq_some_iff.1 found).1, found⟩

theorem DestRun.body_form {lines : List (List W32)} (hs : Inv s) : Inv (d.body die valid lines s) :=
  foldl_holds (I := Inv) hs fun (x, k) _ u form => DestRun_line_inv d die k (valid k) x u form

theorem zipIdx_ordered {α : Type} (l : List α) : l.zipIdx.Pairwise fun x y => x.2 < y.2 := by
  have ordered := List.pairwise_lt_range' (s := 0) (n := l.length) (step := 1)
  rw [← List.zipIdx_map_snd, List.pairwise_map] at ordered
  exact ordered

/-- Element j of a line reads as the run converts it. -/
def DestRun.Reads (d : DestRun) (die : Nat → Nat → W32) (valid : Nat → Nat) (j : Nat) (x : List W32 × Nat) (u : State) : Prop :=
  sqBits u (squareAt d.base d.fmt (x.2 / 128)) d.fmt (x.2 % 128) j = (d.conv die x.2 (valid x.2) x.1).1.getD j 0 % 2 ^ fmtBits d.fmt

/-- An element stays where its line is not touched. -/
theorem DestRun.Reads.stays {d : DestRun} {die : Nat → Nat → W32} {valid : Nat → Nat} {j : Nat} {x : List W32 × Nat} {u v : State} {R : Nat → Prop}
    (holds : d.Reads die valid j x u) (touches : Touches R u v) (far : nearEnd ≤ d.base) (out : ∀ i < 16 * fmtBits d.fmt, ¬R (lineAt d.base d.fmt x.2 + i)) :
    d.Reads die valid j x v :=
  (touches.sqBits (far_squareAt far) d.fmt (x.2 % 128) j out).trans holds

/-- Each line's elements as the run's lines leave them. -/
theorem DestRun.body_reads {lines : List (List W32)} (hs : Inv s) (far : nearEnd ≤ d.base) {j : Nat} (less : j < 128) :
    ∀ x ∈ lines.zipIdx, d.Reads die valid j x (d.body die valid lines s) := by
  refine foldl_each (I := Inv) hs (fun (x, k) _ u form => DestRun_line_inv d die k (valid k) x u form)
    (fun (x, k) _ u form => d.line_bits die k (valid k) x u form far less) ?_
  refine (zipIdx_ordered lines).imp fun {x y} before u holds => ?_
  refine holds.stays (d.line_touches die y.2 (valid y.2) y.1 u far) far fun i inside place => ?_
  have later := lineAt_next (base := d.base) (c := d.fmt) before
  rcases place with ⟨low, -⟩ | ⟨low, high⟩
  · omega
  · rcases lineAt_head d.base d.fmt x.2 (y.2 / 128) with above | below
    · omega
    · omega

/-- Each line's elements as a run leaves them. -/
theorem DestRun.write_reads {lines : List (List W32)} (hs : Inv s) (far : nearEnd ≤ d.base) {j : Nat} (less : j < 128) {x : List W32 × Nat}
    (mem : x ∈ lines.zipIdx) : d.Reads die valid j x (d.write die valid lines s) := by
  obtain ⟨amax, count, eq⟩ := d.write_eq die valid s lines
  have inside := (mem_zipIdx_less mem).1
  have headed : d.Reads die valid j x (d.heads amax (d.body die valid lines s)) := by
    refine (d.body_reads die valid s hs far less x mem).stays (d.heads_touches _ amax far) far fun i within place => ?_
    rw [count] at place
    rcases place with ⟨q, -, low, high⟩ | ⟨-, low, -⟩
    · rcases lineAt_head d.base d.fmt x.2 q with above | below
      · omega
      · omega
    · have last := (lineAt_end d.base d.fmt x.2).trans (squareAt_mono (sqsOf_of_lt inside))
      omega
  rw [eq]
  split
  · exact headed
  · refine headed.stays (padLines_touches d _ far) far fun i within place => ?_
    rcases place with ⟨low, -⟩ | ⟨low, high⟩
    · have later := lineAt_next (base := d.base) (c := d.fmt) inside
      omega
    · rcases lineAt_head d.base d.fmt x.2 (lines.length / 128) with above | below
      · omega
      · omega

/-- A run reaches its squares and its amax table. -/
theorem DestRun.write_touches (lines : List (List W32)) (far : nearEnd ≤ d.base) :
    Touches (Within d.base (destBytes d.fmt (sqsOf lines.length))) s (d.write die valid lines s) := by
  obtain ⟨amax, count, eq⟩ := d.write_eq die valid s lines
  have squares : squareAt d.base d.fmt (sqsOf lines.length) ≤ d.base + destBytes d.fmt (sqsOf lines.length) := by
    unfold squareAt destBytes
    omega
  have square {q a : Nat} (less : q < sqsOf lines.length) (low : squareAt d.base d.fmt q ≤ a) (high : a < squareAt d.base d.fmt (q + 1)) :
      Within d.base (destBytes d.fmt (sqsOf lines.length)) a := by
    have up := squareAt_mono (base := d.base) (c := d.fmt) (show q + 1 ≤ sqsOf lines.length from less)
    have start : d.base ≤ squareAt d.base d.fmt q := Nat.le_add_right _ _
    exact ⟨by omega, by omega⟩
  have head {q a : Nat} (less : q < sqsOf lines.length) (inside : Within (squareAt d.base d.fmt q) (fmtHdr d.fmt) a) :
      Within d.base (destBytes d.fmt (sqsOf lines.length)) a := by
    obtain ⟨low, high⟩ := inside
    have up := squareAt_succ d.base d.fmt q
    exact square less low (by omega)
  have line {k a : Nat} (less : k / 128 < sqsOf lines.length) (low : lineAt d.base d.fmt k ≤ a) (high : a < squareAt d.base d.fmt (k / 128 + 1)) :
      Within d.base (destBytes d.fmt (sqsOf lines.length)) a := by
    have start := lineAt_lines d.base d.fmt k
    exact square less (by omega) high
  have body : Touches (Within d.base (destBytes d.fmt (sqsOf lines.length))) s (d.body die valid lines s) := by
    refine Touches.fold (.refl s) fun u (x, k) mem => ?_
    have less : k / 128 < sqsOf lines.length := sqsOf_of_lt (mem_zipIdx_less mem).1
    refine (d.line_touches die k (valid k) x u far).mono fun a place => ?_
    rcases place with ⟨low, high⟩ | inside
    · have last := lineAt_end d.base d.fmt k
      exact line less low (by omega)
    · exact head less inside
  have heads : Touches (Within d.base (destBytes d.fmt (sqsOf lines.length))) s (d.heads amax (d.body die valid lines s)) := by
    refine body.trans ((d.heads_touches _ amax far).mono fun a place => ?_)
    rw [count] at place
    rcases place with ⟨q, less, inside⟩ | ⟨wide, low, high⟩
    · exact head less inside
    · have start : d.base ≤ squareAt d.base d.fmt (sqsOf lines.length) := Nat.le_add_right _ _
      refine ⟨by omega, ?_⟩
      unfold destBytes cdiv
      rw [if_pos wide]
      unfold squareAt at high
      omega
  rw [eq]
  split
  · exact heads
  next part =>
    have less : lines.length / 128 < sqsOf lines.length := by
      unfold sqsOf cdiv
      omega
    refine heads.trans ((padLines_touches d _ far).mono fun a place => ?_)
    rcases place with ⟨low, high⟩ | inside
    · refine line less low ?_
      have rows : lines.length % 128 * (16 * fmtBits d.fmt) + (128 - lines.length % 128) * (16 * fmtBits d.fmt) = 128 * (16 * fmtBits d.fmt) := by
        rw [← Nat.add_mul, Nat.add_sub_cancel' (Nat.mod_lt _ (by decide)).le]
      rw [Nat.mul_assoc] at high
      rw [lineAt_lines] at high
      rw [squareAt_succ, Nat.mul_assoc 128]
      omega
    · exact head less inside

end

end Sys2Proof.Machine
end

section
/-! SUPPORT. What a complete group writes at its members (R156 to R168). -/

namespace Sys2Proof.Machine

/-- The places of destinations. -/
def DestPlace (l : List (Nat × Nat × Nat × Option Nat)) (a : Nat) : Prop := ∃ d ∈ l, Within d.2.1 d.2.2.1 a

section
variable {p : Play} {s₀ s : State} {l : List Member} {m : Member}

/-! ### Destinations of the grouped moves -/

theorem destsOf_reduce (op : opOf m.2.word = 0x21) (s : State) :
    destsOf p m.1 m.2 s = [(0, tileAddr m.1 (wf m.2.word 133 16 * 128), 4 * wf m.2.word 220 16, none)] := by
  unfold destsOf
  dsimp only
  rw [op]
  rfl

theorem destsOf_amaxt (op : opOf m.2.word = 0x29) (s : State) : destsOf p m.1 m.2 s = [(0, tileAddr m.1 (wf m.2.word 80 16 * 128), 4, none)] := by
  unfold destsOf
  dsimp only
  rw [op]
  rfl

/-- The squares that SMXB and NRMB write. -/
def dxDest (m : Member) : Nat × Nat × Nat × Option Nat :=
  (0, tileAddr m.1 (wf m.2.word 133 16 * 128), destBytes (wf m.2.word 75 4) (sqsOf (wf m.2.word 220 16 * wf m.2.word 191 17)), none)

theorem destsOf_smxb (op : opOf m.2.word = 0x22) (s : State) : destsOf p m.1 m.2 s = [dxDest m] := by
  unfold destsOf
  dsimp only
  rw [op]
  rfl

theorem destsOf_nrmb (op : opOf m.2.word = 0x23) (s : State) : destsOf p m.1 m.2 s =
    dxDest m :: if wb m.2.word 66 then [(0, tileAddr m.1 (nrmAcc m.2.word), 512 * wf m.2.word 191 17, none)] else [] := by
  unfold destsOf
  dsimp only
  rw [op]
  rfl

theorem isGroupOp_cases {o : Nat} (group : isGroupOp o = true) : o = 0x21 ∨ o = 0x22 ∨ o = 0x23 ∨ o = 0x29 := by
  simpa [isGroupOp, or_assoc] using group

/-- Where a grouped move writes does not depend on the state. -/
theorem destsOf_group (group : isGroupOp (opOf m.2.word) = true) (s t : State) : destsOf p m.1 m.2 s = destsOf p m.1 m.2 t := by
  rcases isGroupOp_cases group with op | op | op | op
  · rw [destsOf_reduce op, destsOf_reduce op]
  · rw [destsOf_smxb op, destsOf_smxb op]
  · rw [destsOf_nrmb op, destsOf_nrmb op]
  · rw [destsOf_amaxt op, destsOf_amaxt op]

/-- A grouped move writes to its tile's store. -/
theorem group_dests (group : isGroupOp (opOf m.2.word) = true) (s : State) : ∀ d ∈ destsOf p m.1 m.2 s, d.1 = 0 ∧ ∃ off, d.2.1 = tileAddr m.1 off := by
  intro d mem
  rcases isGroupOp_cases group with op | op | op | op
  · rw [destsOf_reduce op, List.mem_singleton] at mem
    subst mem
    exact ⟨rfl, _, rfl⟩
  · rw [destsOf_smxb op, List.mem_singleton] at mem
    subst mem
    exact ⟨rfl, _, rfl⟩
  · rw [destsOf_nrmb op, List.mem_cons] at mem
    rcases mem with rfl | acc
    · exact ⟨rfl, _, rfl⟩
    · split at acc
      · rw [List.mem_singleton] at acc
        subst acc
        exact ⟨rfl, _, rfl⟩
      · exact nomatch acc
  · rw [destsOf_amaxt op, List.mem_singleton] at mem
    subst mem
    exact ⟨rfl, _, rfl⟩

/-! ### REDUCE and AMAXT -/

/-- One row's result of REDUCE, written and counted. -/
def reduceLine (p : Play) (s₀ : State) (l : List Member) (m : Member) (s : State) (i : Nat) : State :=
  countConv (sidOf m.2.word) p.step (if isFin32 (reduceRow s₀ l (wf m.2.word 64 2) i) then {} else { nonfinite := 1 })
    (writeN (tileAddr m.1 (wf m.2.word 133 16 * 128 + 4 * i)) 4 (reduceRow s₀ l (wf m.2.word 64 2) i).toNat s)

theorem groupWrite_reduce (op : opOf m.2.word = 0x21) : groupWrite p s₀ l m s = (List.range (wf m.2.word 220 16)).foldl (reduceLine p s₀ l m) s := by
  unfold groupWrite
  dsimp only
  rw [op]
  rfl

theorem groupWrite_amaxt (op : opOf m.2.word = 0x29) : groupWrite p s₀ l m s =
    addKnot (tileKnot m.1 (wf m.2.word 168 7)) 1 (writeN (tileAddr m.1 (wf m.2.word 80 16 * 128)) 4 (amaxtOf s₀ l).toNat s) := by
  unfold groupWrite
  dsimp only
  rw [op]
  rfl

theorem reduceLine_touches (i : Nat) :
    Touches (Within (tileAddr m.1 (wf m.2.word 133 16 * 128 + 4 * i)) 4) s (reduceLine p s₀ l m s i) :=
  (touches_writeN (nearEnd_le_tileAddr _ _) 4 _ s).step (countConv_frame _ _ _ _) (by decide)

/-- Row i's result of REDUCE. -/
def RowReduced (s₀ : State) (l : List Member) (m : Member) (i : Nat) (u : State) : Prop :=
  readN u (tileAddr m.1 (wf m.2.word 133 16 * 128 + 4 * i)) 4 = (reduceRow s₀ l (wf m.2.word 64 2) i).toNat

theorem reduceRows_each (hs : Inv s) {n : Nat} : ∀ i ∈ List.range n, RowReduced s₀ l m i ((List.range n).foldl (reduceLine p s₀ l m) s) := by
  refine foldl_each (I := Inv) hs (fun i _ u form => (reduceLine_touches i).form form) (fun i _ u form => ?_) ?_
  · have kept := (OnlyChanges.refl [Part.watch] _).step (countConv_frame (sidOf m.2.word) p.step
      (if isFin32 (reduceRow s₀ l (wf m.2.word 64 2) i) then {} else { nonfinite := 1 })
      (writeN (tileAddr m.1 (wf m.2.word 133 16 * 128 + 4 * i)) 4 (reduceRow s₀ l (wf m.2.word 64 2) i).toNat u)) (by decide)
    have same := (Touches.refl (R := fun _ => False) _).step kept (by decide)
    exact (same.readN (nearEnd_le_tileAddr _ _) fun _ _ no => no).trans (readN_writeWord_self form (nearEnd_le_tileAddr _ _) _)
  · refine List.pairwise_lt_range.imp fun {i j} before u holds => ?_
    refine ((reduceLine_touches j).readN (nearEnd_le_tileAddr _ _) fun k less inside => ?_).trans holds
    obtain ⟨low, -⟩ := inside
    unfold tileAddr at low
    omega

/-! ### SMXB and NRMB -/

/-- The lines that SMXB and NRMB convert. -/
def dxLines (s₀ : State) (l : List Member) (m : Member) : List (List W32) :=
  (List.range (wf m.2.word 220 16)).flatMap fun i => (List.range (wf m.2.word 191 17)).map fun k => ((dxRow s₀ l m i).drop (128 * k)).take 128

/-- Their conversion. -/
def dxRun (p : Play) (m : Member) : DestRun :=
  { base := tileAddr m.1 (wf m.2.word 133 16 * 128), fmt := wf m.2.word 75 4, margin := wf m.2.word 80 2, sr := wb m.2.word 79 || wf m.2.word 82 3 == 2
    sid := sidOf m.2.word, step := p.step }

/-- The dice of its elements. -/
def dxDie (p : Play) (m : Member) (k j : Nat) : W32 :=
  playDie p (sidOf m.2.word) (frameIdx m.2.frame (memLen m.2.word) (m.2.frame.row0 + k / wf m.2.word 191 17)
    (m.2.frame.col0 + 128 * (wf m.2.word 174 17 + k % wf m.2.word 191 17) + j))

/-- A line filled up. -/
def paddedLine (l : List W32) : List W32 := l ++ List.replicate (128 - l.length) 0

theorem groupWrite_dx (op : opOf m.2.word = 0x22 ∨ opOf m.2.word = 0x23) : groupWrite p s₀ l m s =
    gaccRun m s₀ ((dxRun p m).write (dxDie p m) (fun k => ((dxLines s₀ l m).getD k []).length) ((dxLines s₀ l m).map paddedLine) s) := by
  unfold groupWrite
  dsimp only
  rcases op with op | op
  · rw [if_neg (by rw [op]; decide), if_neg (by rw [op]; decide)]
    rfl
  · rw [if_neg (by rw [op]; decide), if_neg (by rw [op]; decide)]
    rfl

theorem length_grid {α : Type} (g : Nat → Nat → α) (n w : Nat) : ((List.range n).flatMap fun i => (List.range w).map (g i)).length = n * w := by
  simp [List.length_flatMap]

theorem getElem?_grid {α : Type} (g : Nat → Nat → α) {n w i k : Nat} (row : i < n) (col : k < w) :
    ((List.range n).flatMap fun i => (List.range w).map (g i))[i * w + k]? = some (g i k) := by
  induction n with
  | zero => omega
  | succ n ih =>
    rw [List.range_succ, List.flatMap_append]
    rcases Nat.lt_or_eq_of_le (Nat.le_of_lt_succ row) with before | rfl
    · have less : i * w + k < n * w := by
        have rows := Nat.mul_le_mul_right w (show i + 1 ≤ n from before)
        rw [Nat.add_mul, Nat.one_mul] at rows
        omega
      rw [List.getElem?_append_left (by rw [length_grid]; exact less)]
      exact ih before
    · rw [List.getElem?_append_right (by rw [length_grid]; omega), length_grid, Nat.add_sub_cancel_left]
      simp [col]

theorem length_dxLines : (dxLines s₀ l m).length = wf m.2.word 220 16 * wf m.2.word 191 17 := length_grid _ _ _

/-- GACC writes to its accumulator. -/
theorem gaccRun_touches (op : opOf m.2.word = 0x23) (acc : wb m.2.word 66 = true) :
    Touches (Within (tileAddr m.1 (nrmAcc m.2.word)) (512 * wf m.2.word 191 17)) s (gaccRun m s₀ s) := by
  have few (i : Nat) : (nrmTerms s₀ m i).length ≤ 128 * wf m.2.word 191 17 := by
    unfold nrmTerms segRow
    simp only [List.length_map, List.length_zip, List.length_take]
    omega
  unfold gaccRun
  dsimp only
  rw [op, acc]
  refine Touches.fold (.refl s) fun u i _ => Touches.fold (.refl u) fun v (x, j) mem => ?_
  have less := (mem_zipIdx_less mem).1.trans_le (few i)
  refine (touches_writeN (nearEnd_le_tileAddr _ _) 4 _ v).mono fun a inside => ?_
  obtain ⟨low, high⟩ := inside
  unfold tileAddr at low high ⊢
  dsimp only at less
  exact ⟨by omega, by omega⟩

theorem gaccRun_of_plain (plain : ¬(opOf m.2.word = 0x23 ∧ wb m.2.word 66 = true)) : gaccRun m s₀ s = s := if_neg (by simpa using plain)

/-! ### A member's result -/

theorem touches_of_dest {R : Nat → Prop} {t : State} {d : Nat × Nat × Nat × Option Nat} {ds : List (Nat × Nat × Nat × Option Nat)}
    (h : Touches R s t) (mem : d ∈ ds) (within : ∀ a, R a → Within d.2.1 d.2.2.1 a) : Touches (DestPlace ds) s t :=
  h.mono fun a inside => ⟨d, mem, within a inside⟩

/-- A member's results go to its destinations. -/
theorem groupWrite_touches (group : isGroupOp (opOf m.2.word) = true) (s₁ : State) : Touches (DestPlace (destsOf p m.1 m.2 s₁)) s (groupWrite p s₀ l m s) := by
  have dx (op : opOf m.2.word = 0x22 ∨ opOf m.2.word = 0x23) (mem : dxDest m ∈ destsOf p m.1 m.2 s₁) : Touches (DestPlace (destsOf p m.1 m.2 s₁)) s
      ((dxRun p m).write (dxDie p m) (fun k => ((dxLines s₀ l m).getD k []).length) ((dxLines s₀ l m).map paddedLine) s) := by
    have run := (dxRun p m).write_touches (dxDie p m) (fun k => ((dxLines s₀ l m).getD k []).length) s ((dxLines s₀ l m).map paddedLine) (nearEnd_le_tileAddr _ _)
    rw [List.length_map, length_dxLines] at run
    exact touches_of_dest run mem fun _ inside => inside
  rcases isGroupOp_cases group with op | op | op | op
  · rw [destsOf_reduce op, groupWrite_reduce op]
    refine touches_of_dest (Touches.fold (R := Within (tileAddr m.1 (wf m.2.word 133 16 * 128)) (4 * wf m.2.word 220 16)) (.refl s) fun u i mem => ?_)
      (.head _) fun _ inside => inside
    have less := List.mem_range.1 mem
    refine (reduceLine_touches i).mono fun a inside => ?_
    obtain ⟨low, high⟩ := inside
    unfold tileAddr at low high ⊢
    exact ⟨by omega, by omega⟩
  · rw [groupWrite_dx (.inl op), gaccRun_of_plain fun both => absurd (op.symm.trans both.1) (by decide)]
    exact dx (.inl op) (by rw [destsOf_smxb op]; exact .head _)
  · rw [groupWrite_dx (.inr op)]
    have first := dx (.inr op) (by rw [destsOf_nrmb op]; exact .head _)
    by_cases acc : wb m.2.word 66 = true
    · refine first.trans (touches_of_dest (d := (0, tileAddr m.1 (nrmAcc m.2.word), 512 * wf m.2.word 191 17, none)) (gaccRun_touches op acc) ?_
        fun _ inside => inside)
      rw [destsOf_nrmb op, if_pos acc]
      exact .tail _ (.head _)
    · rw [gaccRun_of_plain fun both => acc both.2]
      exact first
  · rw [destsOf_amaxt op, groupWrite_amaxt op]
    exact touches_of_dest ((touches_writeN (nearEnd_le_tileAddr _ _) 4 _ s).step (addKnot_frame _ _ _) (by decide)) (.head _) fun _ inside => inside

/-- Elements of dx as their member holds them. -/
theorem groupWrite_dx_bits (hs : Inv s) (op : opOf m.2.word = 0x22 ∨ (opOf m.2.word = 0x23 ∧ wb m.2.word 66 = false)) {i k j : Nat}
    (row : i < wf m.2.word 220 16) (col : k < wf m.2.word 191 17) (less : j < 128) :
    let w := m.2.word
    let f := wf w 75 4
    let n := i * wf w 191 17 + k
    let xs := ((dxRow s₀ l m i).drop (128 * k)).take 128
    let fr := m.2.frame
    let die (j : Nat) := playDie p (sidOf w) (frameIdx fr (memLen w) (fr.row0 + i) (fr.col0 + 128 * (wf w 174 17 + k) + j))
    sqBits (groupWrite p s₀ l m s) (tileAddr m.1 (wf w 133 16 * 128) + n / 128 * sqSize f) f (n % 128) j =
      (convLine f (wf w 80 2) (wb w 79 || wf w 82 3 == 2) die 0 (xs.map v32 ++ List.replicate (128 - xs.length) (.fin false 0 0)) {}).1.getD j 0 % 2 ^ fmtBits f := by
  intro w f n xs fr die
  have plain : ¬(opOf m.2.word = 0x23 ∧ wb m.2.word 66 = true) := by
    rcases op with op | ⟨-, off⟩
    · exact fun both => absurd (op.symm.trans both.1) (by decide)
    · exact fun both => absurd (off.symm.trans both.2) (by decide)
  rw [groupWrite_dx (op.imp_right And.left), gaccRun_of_plain plain]
  have at_ : (dxLines s₀ l m)[n]? = some xs := getElem?_grid (fun i k => ((dxRow s₀ l m i).drop (128 * k)).take 128) row col
  have line : (paddedLine xs, n) ∈ ((dxLines s₀ l m).map paddedLine).zipIdx := by
    rw [List.mem_zipIdx_iff_getElem?, List.getElem?_map, at_]
    rfl
  have reads := (dxRun p m).write_reads (dxDie p m) (fun k => ((dxLines s₀ l m).getD k []).length) s hs (nearEnd_le_tileAddr _ _) less line
  have length : ((dxLines s₀ l m).getD n []).length = xs.length := by rw [List.getD_eq_getElem?_getD, at_]; rfl
  have dice : dxDie p m n = die := by
    funext j
    unfold dxDie
    have quotient : n / wf m.2.word 191 17 = i := by
      change (i * wf m.2.word 191 17 + k) / wf m.2.word 191 17 = i
      rw [Nat.mul_comm, Nat.mul_add_div (by omega), Nat.div_eq_of_lt col, Nat.add_zero]
    have remainder : n % wf m.2.word 191 17 = k := by
      change (i * wf m.2.word 191 17 + k) % wf m.2.word 191 17 = k
      rw [Nat.mul_comm, Nat.mul_add_mod, Nat.mod_eq_of_lt col]
    rw [quotient, remainder]
  have conv : ((dxRun p m).conv (dxDie p m) n ((dxLines s₀ l m).getD n []).length (paddedLine xs)).1 =
      (convLine f (wf w 80 2) (wb w 79 || wf w 82 3 == 2) die 0 (xs.map v32 ++ List.replicate (128 - xs.length) (.fin false 0 0)) {}).1 := by
    unfold DestRun.conv
    dsimp only
    rw [length, dice, paddedLine, List.take_left]
    rfl
  unfold DestRun.Reads at reads
  dsimp only at reads
  rw [conv] at reads
  exact reads

/-- What the obligation says of one member. -/
def MemberResult (p : Play) (l : List Member) (s : State) (x : Member) (t : State) : Prop :=
  let w := x.2.word
  (opOf w = 0x21 → ∀ i < wf w 220 16, readN t (tileAddr x.1 (wf w 133 16 * 128 + 4 * i)) 4 = (reduceRow s l (wf w 64 2) i).toNat) ∧
    (opOf w = 0x29 → readN t (tileAddr x.1 (wf w 80 16 * 128)) 4 = (amaxtOf s l).toNat) ∧
    (opOf w = 0x22 ∨ (opOf w = 0x23 ∧ wb w 66 = false) → ∀ i k j, i < wf w 220 16 → k < wf w 191 17 → j < 128 →
      let f := wf w 75 4
      let n := i * wf w 191 17 + k
      let xs := ((dxRow s l x i).drop (128 * k)).take 128
      let fr := x.2.frame
      let die (j : Nat) := playDie p (sidOf w) (frameIdx fr (memLen w) (fr.row0 + i) (fr.col0 + 128 * (wf w 174 17 + k) + j))
      sqBits t (tileAddr x.1 (wf w 133 16 * 128) + n / 128 * sqSize f) f (n % 128) j =
        (convLine f (wf w 80 2) (wb w 79 || wf w 82 3 == 2) die 0 (xs.map v32 ++ List.replicate (128 - xs.length) (.fin false 0 0)) {}).1.getD j 0 % 2 ^ fmtBits f)

end

end Sys2Proof.Machine
end

section
/-! SUPPORT. GroupResults: each member's result stands once every member has written (R156 to R168). -/

namespace Sys2Proof.Machine

section
variable {p : Play} {s₀ s u v : State} {l : List Member} {m x : Member}

/-- A line of a run lies in its destination. -/
theorem lineAt_within {base c n k i : Nat} (less : n < k) (inside : i < 16 * fmtBits c) : Within base (destBytes c (sqsOf k)) (lineAt base c n + i) := by
  have last := (lineAt_end base c n).trans (squareAt_mono (sqsOf_of_lt less))
  have start := lineAt_lines base c n
  have squares : squareAt base c (sqsOf k) ≤ base + destBytes c (sqsOf k) := by
    unfold squareAt destBytes
    omega
  have first : base ≤ squareAt base c (n / 128) := Nat.le_add_right _ _
  exact ⟨by omega, by omega⟩

theorem MemberResult.stays {R : Nat → Prop} (h : MemberResult p l s₀ x u) (touches : Touches R u v)
    (apart : ∀ a, DestPlace (destsOf p x.1 x.2 s) a → ¬R a) : MemberResult p l s₀ x v := by
  obtain ⟨reduce, amaxt, dx⟩ := h
  refine ⟨fun op i row => ?_, fun op => ?_, fun op i k j row col less => ?_⟩
  · refine (touches.readN (nearEnd_le_tileAddr _ _) fun b less => apart _ ?_).trans (reduce op i row)
    rw [destsOf_reduce op]
    refine ⟨_, .head _, ?_, ?_⟩
    · unfold tileAddr
      dsimp only
      omega
    · unfold tileAddr
      dsimp only
      omega
  · refine (touches.readN (nearEnd_le_tileAddr _ _) fun b less => apart _ ?_).trans (amaxt op)
    rw [destsOf_amaxt op]
    exact ⟨_, .head _, Nat.le_add_right _ _, Nat.add_lt_add_left less _⟩
  · refine Eq.trans (touches.sqBits (far_squareAt (nearEnd_le_tileAddr _ _)) _ _ _ fun b inside => apart _ ?_) (dx op i k j row col less)
    refine ⟨dxDest x, ?_, lineAt_within ?_ inside⟩
    · rcases op with op | ⟨op, -⟩
      · rw [destsOf_smxb op]
        exact .head _
      · rw [destsOf_nrmb op]
        exact .head _
    · have rows := Nat.mul_le_mul_right (wf x.2.word 191 17) (show i + 1 ≤ wf x.2.word 220 16 from row)
      rw [Nat.add_mul, Nat.one_mul] at rows
      omega

/-- What a member writes is its result. -/
theorem groupWrite_result (hs : Inv s) : MemberResult p l s₀ m (groupWrite p s₀ l m s) := by
  refine ⟨fun op i row => ?_, fun op => ?_, fun op i k j row col less => groupWrite_dx_bits hs op row col less⟩
  · rw [groupWrite_reduce op]
    exact reduceRows_each hs i (List.mem_range.2 row)
  · rw [groupWrite_amaxt op]
    have same := (Touches.refl (R := fun _ => False) _).step (addKnot_frame (tileKnot m.1 (wf m.2.word 168 7)) 1
      (writeN (tileAddr m.1 (wf m.2.word 80 16 * 128)) 4 (amaxtOf s₀ l).toNat s)) (by decide)
    exact (same.readN (nearEnd_le_tileAddr _ _) fun _ _ no => no).trans (readN_writeWord_self hs (nearEnd_le_tileAddr _ _) _)

/-- A member's places lie in its tile's store. -/
theorem destPlace_tile (group : isGroupOp (opOf m.2.word) = true) (fits : ∀ d ∈ destsOf p m.1 m.2 s, d.2.1 + d.2.2.1 ≤ tileAddr (m.1 + 1) 0) {a : Nat}
    (place : DestPlace (destsOf p m.1 m.2 s) a) : tileAddr m.1 0 ≤ a ∧ a < tileAddr (m.1 + 1) 0 := by
  obtain ⟨d, mem, low, high⟩ := place
  obtain ⟨-, off, at_⟩ := group_dests group s d mem
  have top := fits d mem
  rw [at_] at low
  refine ⟨?_, by omega⟩
  unfold tileAddr at low ⊢
  omega

theorem places_apart {y : Member} (groupX : isGroupOp (opOf x.2.word) = true) (groupY : isGroupOp (opOf y.2.word) = true)
    (fitsX : ∀ d ∈ destsOf p x.1 x.2 s, d.2.1 + d.2.2.1 ≤ tileAddr (x.1 + 1) 0) (fitsY : ∀ d ∈ destsOf p y.1 y.2 s, d.2.1 + d.2.2.1 ≤ tileAddr (y.1 + 1) 0)
    (other : x.1 ≠ y.1) {a : Nat} (place : DestPlace (destsOf p x.1 x.2 s) a) : ¬DestPlace (destsOf p y.1 y.2 s) a := by
  intro also
  have here := destPlace_tile groupX fitsX place
  have there := destPlace_tile groupY fitsY also
  unfold tileAddr at here there
  omega

/-! ### Knots -/

theorem tileKnot_ne {L M j k : Nat} (other : L ≠ M) (lessJ : j < 128) (lessK : k < 128) : tileKnot L j ≠ tileKnot M k := by
  unfold tileKnot
  omega

/-- Only AMAXT's knot changes. -/
theorem groupWrite_knot_ne (group : isGroupOp (opOf m.2.word) = true) {j : Nat} (other : opOf m.2.word = 0x29 → j ≠ tileKnot m.1 (wf m.2.word 168 7)) :
    knot (groupWrite p s₀ l m s) j = knot s j := by
  have dx (op : opOf m.2.word = 0x22 ∨ opOf m.2.word = 0x23) : knot (groupWrite p s₀ l m s) j = knot s j := by
    rw [groupWrite_dx op]
    have run := DestRun_write_far (dxRun p m) (dxDie p m) (fun k => ((dxLines s₀ l m).getD k []).length) ((dxLines s₀ l m).map paddedLine) s (nearEnd_le_tileAddr _ _)
    exact knot_of_knots ((run.step (gaccRun_frame m s₀ _) (by decide)) .knots (by decide)) j
  rcases isGroupOp_cases group with op | op | op | op
  · rw [groupWrite_reduce op]
    have rows : OnlyChanges [.watch, .mem] s ((List.range (wf m.2.word 220 16)).foldl (reduceLine p s₀ l m) s) :=
      OnlyChanges.fold (.refl _ _) fun u i h => (h.step (writeN_frame _ _ _ _) (by decide)).step (countConv_frame _ _ _ _) (by decide)
    exact knot_of_knots (rows .knots (by decide)) j
  · exact dx (.inl op)
  · exact dx (.inr op)
  · rw [groupWrite_amaxt op, knot_addKnot_ne (other op)]
    exact knot_of_knots (writeN_frame _ _ _ _ .knots (by decide)) j

theorem groupWrite_knot_self (op : opOf m.2.word = 0x29) : knot (groupWrite p s₀ l m s) (tileKnot m.1 (wf m.2.word 168 7)) =
    knot s (tileKnot m.1 (wf m.2.word 168 7)) + 1 := by
  rw [groupWrite_amaxt op, knot_addKnot_self]
  exact congrArg (· + 1) (knot_of_knots (writeN_frame _ _ _ _ .knots (by decide)) _)

theorem wf_lt (w : MoveWord) (lo n : Nat) : wf w lo n < 2 ^ n := by
  unfold wf
  exact Nat.mod_lt _ (Nat.pow_pos (by decide))

/-- Members of other tiles leave a tile's knots. -/
theorem groupWrites_knot_ne {r : List Member} (groups : ∀ y ∈ r, isGroupOp (opOf y.2.word) = true) {L k : Nat} (less : k < 128) (away : ∀ y ∈ r, y.1 ≠ L) :
    knot (r.foldl (fun t x => groupWrite p s₀ l x t) s) (tileKnot L k) = knot s (tileKnot L k) :=
  foldl_holds (I := fun u => knot u (tileKnot L k) = knot s (tileKnot L k)) rfl fun y mem _ same =>
    (groupWrite_knot_ne (groups y mem) fun _ => tileKnot_ne (away y mem).symm less (wf_lt _ _ 7)).trans same

theorem groupWrites_knot {r : List Member} (groups : ∀ y ∈ r, isGroupOp (opOf y.2.word) = true) (apart : (r.map Prod.fst).Nodup) (mem : x ∈ r)
    (op : opOf x.2.word = 0x29) : knot (r.foldl (fun t x => groupWrite p s₀ l x t) s) (tileKnot x.1 (wf x.2.word 168 7)) =
      knot s (tileKnot x.1 (wf x.2.word 168 7)) + 1 := by
  induction r generalizing s with
  | nil => exact nomatch mem
  | cons y r ih =>
    rw [List.map_cons, List.nodup_cons] at apart
    obtain ⟨away, rest⟩ := apart
    have others : ∀ z ∈ r, isGroupOp (opOf z.2.word) = true := fun z inside => groups z (.tail _ inside)
    rw [List.foldl_cons]
    rcases List.mem_cons.1 mem with rfl | later
    · rw [groupWrites_knot_ne others (wf_lt _ _ 7) fun z inside same => away (List.mem_map.2 ⟨z, inside, same⟩)]
      exact groupWrite_knot_self op
    · rw [ih others rest later, groupWrite_knot_ne (groups y (.head _)) fun _ => tileKnot_ne ?_ (wf_lt _ _ 7) (wf_lt _ _ 7)]
      exact fun same => away (List.mem_map.2 ⟨x, later, same⟩)

/-! ### The claim -/

theorem groupResults : Claim.GroupResults := by
  intro p l s form apart groups fits t x mem w
  have each : ∀ x ∈ l, MemberResult p l s x t := by
    refine foldl_each (I := Inv) form (fun y inside u h => (groupWrite_touches (groups y inside) s).form h) (fun y _ u h => groupWrite_result h) ?_
    have distinct : l.Pairwise fun y z => y.1 ≠ z.1 := List.pairwise_map.1 apart
    refine List.Pairwise.imp_of_mem (fun {y z} here there other u h => ?_) distinct
    exact h.stays (groupWrite_touches (groups z there) s) fun a place =>
      places_apart (groups y here) (groups z there) (fits y here) (fits z there) other place
  obtain ⟨reduce, amaxt, dx⟩ := each x mem
  exact ⟨reduce, fun op => ⟨amaxt op, groupWrites_knot groups apart mem op⟩, fun op _ => dx op⟩

end

end Sys2Proof.Machine
end

section
/-! SUPPORT. States that differ in their plays alone, and what writes make of both (R156 to R168, R202). -/

namespace Sys2Proof.Machine

/-- Two states that differ in their plays alone. -/
def Twin (s t : State) : Prop := ∃ l : List Play, t = { s with plays := l }

section
variable {s t u : State}

theorem Twin.refl (s : State) : Twin s s := ⟨s.plays, rfl⟩

theorem Twin.trans (h : Twin s t) (k : Twin t u) : Twin s u := by
  obtain ⟨l, rfl⟩ := h
  obtain ⟨r, rfl⟩ := k
  exact ⟨r, rfl⟩

theorem twin_setPlay (q : Play) (s : State) : Twin s (setPlay q s) := ⟨_, rfl⟩

theorem twin_addDests (order : Nat) (l : List (Nat × Nat × Nat × Option Nat)) (s : State) : Twin s (addDests order l s) := by
  unfold addDests
  split
  · exact .refl s
  · exact twin_setPlay _ s

theorem twin_modQueue (order tile code : Nat) (f : TileQueue → TileQueue) (s : State) : Twin s (modQueue order tile code f s) := by
  unfold modQueue
  split
  · exact .refl s
  · exact twin_setPlay _ s

theorem twin_noteAll (s : State) : Twin s (noteAll s) := ⟨_, rfl⟩

theorem Twin.fold {α : Type} {f g : State → α → State} {xs : List α} (h : Twin s t) (k : ∀ u v, ∀ x ∈ xs, Twin u v → Twin (f u x) (g v x)) :
    Twin (xs.foldl f s) (xs.foldl g t) := by
  induction xs generalizing s t with
  | nil => exact h
  | cons x r ih => exact ih (k s t x (.head _) h) fun u v y mem => k u v y (.tail _ mem)

theorem Twin.writeByte (h : Twin s t) (a : Nat) (v : Byte) : Twin (writeByte a v s) (writeByte a v t) := by
  obtain ⟨l, rfl⟩ := h
  unfold Machine.writeByte
  rw [show memKey { s with plays := l } a = memKey s a from rfl]
  cases memKey s a with
  | none => exact ⟨l, rfl⟩
  | some k => exact ⟨l, rfl⟩

theorem Twin.writeBytes (h : Twin s t) (a : Nat) (l : List Byte) : Twin (writeBytes a l s) (writeBytes a l t) := by
  induction l generalizing a s t with
  | nil => exact h
  | cons b r ih => exact ih (h.writeByte a b) (a + 1)

theorem Twin.writeN (h : Twin s t) (a n x : Nat) : Twin (writeN a n x s) (writeN a n x t) := h.writeBytes a _

theorem Twin.busWrite (h : Twin s t) {a : Nat} (far : nearEnd ≤ a) (l : List Byte) : Twin (busWrite a l s) (busWrite a l t) := by
  unfold Machine.busWrite
  rw [if_neg (Nat.not_lt.mpr far), if_neg (Nat.not_lt.mpr far)]
  exact h.writeBytes a l

theorem Twin.countConv (h : Twin s t) (sid step : W32) (k : Counts) : Twin (countConv sid step k s) (countConv sid step k t) := by
  obtain ⟨l, rfl⟩ := h
  exact ⟨l, rfl⟩

theorem Twin.addKnot (h : Twin s t) (k : Nat) (v : W32) : Twin (addKnot k v s) (addKnot k v t) := by
  obtain ⟨l, rfl⟩ := h
  exact ⟨l, rfl⟩

theorem Twin.readBytes (h : Twin s t) (a n : Nat) : readBytes t a n = readBytes s a n := by
  obtain ⟨l, rfl⟩ := h
  induction n generalizing a with
  | zero => rfl
  | succ n ih =>
    rw [Machine.readBytes, Machine.readBytes, ih]
    rfl

theorem Twin.parF (h : Twin s t) (tile off : Nat) : parF t tile off = parF s tile off := by
  unfold Machine.parF readN
  rw [h.readBytes]

theorem Twin.freeBytes (h : Twin s t) (a n : Nat) : Twin (freeBytes a n s) (freeBytes a n t) := by
  obtain ⟨l, rfl⟩ := h
  unfold Machine.freeBytes
  exact Twin.writeBytes (s := { s with freeCtr := s.freeCtr + n }) ⟨l, rfl⟩ a _

/-! ### Runs of lines -/

theorem Twin.line (h : Twin s t) (d : DestRun) (die : Nat → Nat → W32) (k valid : Nat) (xs : List W32) (far : nearEnd ≤ d.base) :
    Twin (d.line die k valid xs s) (d.line die k valid xs t) := by
  have body : Twin (sqWriteLine (d.base + k / 128 * sqSize d.fmt) d.fmt (k % 128) (d.conv die k valid xs).1 s)
      (sqWriteLine (d.base + k / 128 * sqSize d.fmt) d.fmt (k % 128) (d.conv die k valid xs).1 t) :=
    h.busWrite (far_add (far_add (far_add far _) _) _) _
  unfold DestRun.line
  dsimp only
  refine Twin.countConv ?_ _ _ _
  split
  · exact body.writeBytes _ _
  · exact body

theorem Twin.heads (h : Twin s t) (d : DestRun) (amax : List W32) (far : nearEnd ≤ d.base) : Twin (d.heads amax s) (d.heads amax t) := by
  unfold DestRun.heads
  refine h.fold fun u v q _ twin => ?_
  dsimp only
  split
  · exact twin.busWrite (far_add far _) _
  · split
    · exact twin.writeN _ _ _
    · exact twin

theorem Twin.padLines (h : Twin s t) {base : Nat} (far : nearEnd ≤ base) (c i : Nat) : Twin (padLines base c i s) (padLines base c i t) := by
  have body : Twin (padBody base c i s) (padBody base c i t) := h.busWrite (far_add (far_add far _) _) _
  unfold Machine.padLines
  dsimp only
  split
  · exact body.busWrite (far_add (far_add far _) _) _
  · exact body

theorem Twin.write (h : Twin s t) (d : DestRun) (die : Nat → Nat → W32) (valid : Nat → Nat) (lines : List (List W32)) (far : nearEnd ≤ d.base) :
    Twin (d.write die valid lines s) (d.write die valid lines t) := by
  have body : Twin (d.body die valid lines s) (d.body die valid lines t) := h.fold fun u v (x, k) _ twin => twin.line d die k (valid k) x far
  unfold DestRun.write
  dsimp only
  have heads := body.heads d (lines.zipIdx.map fun (x, k) => (d.conv die k (valid k) x).2.2.2) far
  unfold DestRun.body at heads
  split
  · exact heads
  · exact heads.padLines (far_add far _) _ _

/-! ### Members' results -/

theorem Twin.gaccRun (h : Twin s t) (m : Member) (s₀ : State) : Twin (gaccRun m s₀ s) (gaccRun m s₀ t) := by
  unfold Machine.gaccRun
  dsimp only
  split
  · refine h.fold fun u v i _ twin => twin.fold fun u v (x, j) _ twin => ?_
    dsimp only
    rw [twin.parF]
    exact twin.writeN _ _ _
  · exact h

theorem Twin.groupWrite (h : Twin s t) {m : Member} (group : isGroupOp (opOf m.2.word) = true) (p : Play) (s₀ : State) (l : List Member) :
    Twin (Machine.groupWrite p s₀ l m s) (Machine.groupWrite p s₀ l m t) := by
  have dx (op : opOf m.2.word = 0x22 ∨ opOf m.2.word = 0x23) : Twin (Machine.groupWrite p s₀ l m s) (Machine.groupWrite p s₀ l m t) := by
    rw [groupWrite_dx op, groupWrite_dx op]
    exact (h.write _ _ _ _ (nearEnd_le_tileAddr _ _)).gaccRun m s₀
  rcases isGroupOp_cases group with op | op | op | op
  · rw [groupWrite_reduce op, groupWrite_reduce op]
    exact h.fold fun u v i _ twin => (twin.writeN _ _ _).countConv _ _ _
  · exact dx (.inl op)
  · exact dx (.inr op)
  · rw [groupWrite_amaxt op, groupWrite_amaxt op]
    exact (h.writeN _ _ _).addKnot _ _

/-! ### Free values -/

theorem freeDest_tile {d : Nat × Nat × Nat × Option Nat} {L off : Nat} (space : d.1 = 0) (at_ : d.2.1 = tileAddr L off) (s : State) :
    freeDest d s = freeBytes d.2.1 d.2.2.1 s :=
  freeDest_of_store space (by rw [at_]; exact Nat.not_lt.2 (nearEnd_le_tileAddr _ _))

theorem Twin.freeGroup (h : Twin s t) {l : List Member} (groups : ∀ x ∈ l, isGroupOp (opOf x.2.word) = true) (p : Play) :
    Twin (freeGroup p l s) (freeGroup p l t) := by
  unfold Machine.freeGroup
  refine h.fold fun u v x mem twin => ?_
  rw [destsOf_group (groups x mem) u v]
  refine twin.fold fun u' v' d inside twin => ?_
  obtain ⟨space, off, at_⟩ := group_dests (groups x mem) v d inside
  rw [freeDest_tile space at_, freeDest_tile space at_]
  exact twin.freeBytes _ _

theorem freeDest_touches {d : Nat × Nat × Nat × Option Nat} {L off : Nat} (space : d.1 = 0) (at_ : d.2.1 = tileAddr L off) (s : State) :
    Touches (Within d.2.1 d.2.2.1) s (freeDest d s) := by
  rw [freeDest_tile space at_]
  unfold freeBytes
  have far : nearEnd ≤ d.2.1 := by rw [at_]; exact nearEnd_le_tileAddr _ _
  have wrote := touches_writeBytes far ((List.range d.2.2.1).map fun k => (Config.freeValue (s.freeCtr + k)).setWidth 8) { s with freeCtr := s.freeCtr + d.2.2.1 }
  rw [List.length_map, List.length_range] at wrote
  exact ⟨wrote.regions, wrote.form, wrote.reads⟩

end

end Sys2Proof.Machine
end

section
/-! OBLIGATION. O32: the grouped ply moves (R156 to R168, R202, R568). -/

namespace Sys2Proof.Machine

section
variable {p : Play} {s u v : State} {l : List Member} {tile : Nat} {m : QMove}

/-! ### A group's members -/

theorem mem_insertMember {x m : Member} : x ∈ insertMember m l ↔ x = m ∨ x ∈ l := by
  induction l with
  | nil => simp [insertMember]
  | cons y r ih =>
    unfold insertMember
    split
    · rw [List.mem_cons, List.mem_cons]
    · rw [List.mem_cons, ih, List.mem_cons]
      tauto

theorem mem_sortMembers {x : Member} : x ∈ sortMembers l ↔ x ∈ l := by
  induction l with
  | nil => rfl
  | cons y r ih =>
    change x ∈ insertMember y (sortMembers r) ↔ _
    rw [mem_insertMember, ih, List.mem_cons]

theorem group_of_members {x : Member} {group : Nat} (mem : x ∈ members p group) : isGroupOp (opOf x.2.word) = true := by
  obtain ⟨q, -, found⟩ := List.mem_filterMap.1 mem
  split at found
  next k r _ _ =>
    split at found
    next is =>
      cases found
      simp only [Bool.and_eq_true] at is
      exact is.1.2
    · exact nomatch found
  · exact nomatch found

/-- The members of a row's group, by offset. -/
def rowMembers (p : Play) (tile : Nat) (m : QMove) : List Member :=
  sortMembers ((members p (groupOf m.word)).filter fun x => tileField x.1 == tileField tile)

theorem rowMembers_group : ∀ x ∈ rowMembers p tile m, isGroupOp (opOf x.2.word) = true :=
  fun _ mem => group_of_members (List.mem_filter.1 (mem_sortMembers.1 mem)).1

/-! ### Results written -/

/-- Every member's result, with its destinations noted. -/
def resultsOf (p : Play) (l : List Member) (s : State) : State :=
  l.foldl (fun t x => addDests p.order (destsOf p x.1 x.2 s) (groupWrite p s l x t)) s

/-- Every member's result, nothing noted. -/
def writesOf (p : Play) (l : List Member) (s : State) : State := l.foldl (fun t x => groupWrite p s l x t) s

/-- A member that can complete. -/
def readyHead (q : TileQueue) : TileQueue :=
  { q with moves := match q.moves with
                    | h :: r => { h with ready := true } :: r
                    | [] => [] }

/-- Every member can complete. -/
def readyAll (p : Play) (l : List Member) (s : State) : State := l.foldl (fun t x => modQueue p.order x.1 2 readyHead t) s

/-- The places of a group. -/
def GroupPlaces (p : Play) (l : List Member) (s : State) (a : Nat) : Prop := ∃ x ∈ l, DestPlace (destsOf p x.1 x.2 s) a

section
variable (groups : ∀ x ∈ l, isGroupOp (opOf x.2.word) = true)
include groups

theorem resultsOf_twin (s : State) : Twin (writesOf p l s) (resultsOf p l s) :=
  (Twin.refl s).fold fun _ _ x mem twin => (twin.groupWrite (groups x mem) p s l).trans (twin_addDests _ _ _)

theorem resultsOf_touches (s : State) : Touches (GroupPlaces p l s) s (resultsOf p l s) :=
  Touches.fold (.refl s) fun _ x mem => ((groupWrite_touches (groups x mem) s).mono fun _ place => ⟨x, mem, place⟩).step (addDests_frame _ _ _) (by decide)

theorem freeGroup_touches (s₀ s : State) : Touches (GroupPlaces p l s₀) s (freeGroup p l s) := by
  unfold freeGroup
  refine Touches.fold (.refl s) fun t x mem => ?_
  rw [destsOf_group (groups x mem) t s₀]
  refine Touches.fold (.refl t) fun t' d inside => ?_
  obtain ⟨space, off, at_⟩ := group_dests (groups x mem) s₀ d inside
  exact (freeDest_touches space at_ t').mono fun _ place => ⟨x, mem, d, inside, place⟩

theorem freeGroup_far (s : State) : OnlyChanges [.mem, .freeCtr] s (freeGroup p l s) := by
  refine foldl_holds (I := OnlyChanges [.mem, .freeCtr] s) (.refl _ _) fun x mem t h => foldl_holds (I := OnlyChanges [.mem, .freeCtr] s) h fun d inside u k => ?_
  obtain ⟨space, off, at_⟩ := group_dests (groups x mem) t d inside
  rw [freeDest_tile space at_]
  exact k.step (freeBytes_frame _ _ _) (by decide)

end

theorem resultsOf_frame (p : Play) (l : List Member) (s : State) : OnlyChanges [.plays, .mem, .knots, .watch] s (resultsOf p l s) :=
  OnlyChanges.fold (.refl _ _) fun _ x h => (h.step (groupWrite_far p s l x _) (by decide)).step (addDests_frame _ _ _) (by decide)

theorem readyAll_twin (p : Play) (l : List Member) (s : State) : Twin s (readyAll p l s) :=
  foldl_holds (I := Twin s) (.refl s) fun _ _ _ twin => twin.trans (twin_modQueue _ _ _ _ _)

theorem Twin.frame {t : State} (h : Twin s t) : OnlyChanges [.plays] s t := by
  obtain ⟨q, rfl⟩ := h
  exact only_plays (.refl _ _) _ (by decide)

theorem Twin.mem {t : State} (h : Twin s t) : t.mem = s.mem := h.frame .mem (by decide)

/-- Places of a group as ranges. -/
theorem keeps_of_group {t : State} (groups : ∀ x ∈ l, isGroupOp (opOf x.2.word) = true) (touches : Touches (GroupPlaces p l s) s t) :
    KeepsBytes (l.flatMap fun x => (destsOf p x.1 x.2 s).map fun d => (d.2.1, d.2.2.1)) s t := by
  refine touches.keeps (fun y mem => ?_) fun a place => ?_
  · obtain ⟨x, inside, listed⟩ := List.mem_flatMap.1 mem
    obtain ⟨d, dest, rfl⟩ := List.mem_map.1 listed
    obtain ⟨-, off, at_⟩ := group_dests (groups x inside) s d dest
    rw [at_]
    exact nearEnd_le_tileAddr _ _
  · obtain ⟨x, inside, d, dest, within⟩ := place
    exact ⟨_, List.mem_flatMap.2 ⟨x, inside, List.mem_map_of_mem dest⟩, within⟩

/-! ### Members can complete -/

/-- A tile's PLY queue has this move at its head. -/
def HeadIs (order tile : Nat) (k : QMove) (u : State) : Prop :=
  ∃ y q r, getPlay u order = some y ∧ getQueue y tile 2 = some q ∧ q.moves = k :: r

section
variable {order : Nat} {k : QMove}

theorem HeadIs.of_plays (h : HeadIs order tile k u) (plays : v.plays = u.plays) : HeadIs order tile k v := by
  obtain ⟨y, q, r, found, queue, moves⟩ := h
  exact ⟨y, q, r, (getPlay_of_plays plays order).trans found, queue, moves⟩

theorem HeadIs.addDests (h : HeadIs order tile k u) (ds : List (Nat × Nat × Nat × Option Nat)) : HeadIs order tile k (addDests order ds u) := by
  obtain ⟨y, q, r, found, queue, moves⟩ := h
  unfold Machine.addDests
  rw [found]
  have named : y.order = order := order_of_getPlay found
  refine ⟨{ y with dests := y.dests ++ ds }, q, r, ?_, queue, moves⟩
  subst named
  exact getPlay_setPlay (q := { y with dests := y.dests ++ ds }) found

theorem HeadIs.noteAll (h : HeadIs order tile k u) : HeadIs order tile k (noteAll u) := by
  obtain ⟨y, q, r, found, queue, moves⟩ := h
  have named := List.find?_some queue
  simp only [Bool.and_eq_true, beq_iff_eq] at named
  refine ⟨notedPlay u y, q, r, by rw [getPlay_noteAll, found]; rfl, ?_, moves⟩
  rw [getQueue_notedPlay, queue, Option.map_some, notedQueue, if_neg (by rw [named.2]; decide)]

theorem HeadIs.ready (h : HeadIs order tile k u) : HeadIs order tile { k with ready := true } (modQueue order tile 2 readyHead u) := by
  obtain ⟨y, q, r, found, queue, moves⟩ := h
  have named : y.order = order := order_of_getPlay found
  subst named
  rw [modQueue_eq found]
  refine ⟨_, _, r, getPlay_setPlay (q := y.onQueue tile 2 readyHead) found, getQueue_onQueue queue fun _ => ⟨rfl, rfl⟩, ?_⟩
  unfold readyHead
  rw [moves]

theorem getQueue_onQueue_ne {y : Play} {a b c : Nat} {f : TileQueue → TileQueue} (keeps : ∀ q, (f q).tile = q.tile ∧ (f q).code = q.code) (other : a ≠ b) :
    getQueue (y.onQueue a c f) b c = getQueue y b c := by
  unfold getQueue Play.onQueue
  dsimp only
  rw [List.find?_map]
  have same : ((fun q : TileQueue => q.tile == b && q.code == c) ∘ fun q => if q.tile = a && q.code = c then f q else q) =
      fun q => q.tile == b && q.code == c := by
    funext q
    dsimp only [Function.comp]
    split
    · rw [(keeps q).1, (keeps q).2]
    · rfl
  rw [same]
  cases found : y.queues.find? fun q => q.tile == b && q.code == c with
  | none => rfl
  | some q =>
    have named := List.find?_some found
    simp only [Bool.and_eq_true, beq_iff_eq] at named
    rw [Option.map_some, if_neg]
    simp only [Bool.and_eq_true, decide_eq_true_eq]
    exact fun is => other (is.1.symm.trans named.1)

theorem HeadIs.ready_ne (h : HeadIs order tile k u) {L : Nat} (other : L ≠ tile) : HeadIs order tile k (modQueue order L 2 readyHead u) := by
  obtain ⟨y, q, r, found, queue, moves⟩ := h
  have named : y.order = order := order_of_getPlay found
  subst named
  rw [modQueue_eq found]
  exact ⟨_, q, r, getPlay_setPlay (q := y.onQueue L 2 readyHead) found, (getQueue_onQueue_ne (f := readyHead) (fun _ => ⟨rfl, rfl⟩) other).trans queue, moves⟩

end

/-- A member's move heads its queue, completing or not. -/
theorem readyAll_heads (p : Play) (heads : ∀ x ∈ l, HeadIs p.order x.1 x.2 s) :
    ∀ x ∈ l, HeadIs p.order x.1 { x.2 with ready := true } (readyAll p l s) := by
  refine foldl_each (I := fun u => ∀ x ∈ l, HeadIs p.order x.1 x.2 u ∨ HeadIs p.order x.1 { x.2 with ready := true } u) (fun x mem => .inl (heads x mem))
    (fun y _ u all x mem => ?_) (fun x mem u all => ?_) (List.pairwise_of_forall fun {x y} u holds => ?_)
  · by_cases same : y.1 = x.1
    · rw [same]
      exact .inr ((all x mem).elim HeadIs.ready HeadIs.ready)
    · exact (all x mem).imp (·.ready_ne same) (·.ready_ne same)
  · exact (all x mem).elim HeadIs.ready HeadIs.ready
  · by_cases same : y.1 = x.1
    · rw [same]
      exact holds.ready
    · exact holds.ready_ne same

theorem resultsOf_heads (play : getPlay s p.order = some p) (heads : ∀ x ∈ l, ∃ q r, getQueue p x.1 2 = some q ∧ q.moves = x.2 :: r) :
    ∀ x ∈ l, HeadIs p.order x.1 x.2 (resultsOf p l s) := by
  intro x mem
  obtain ⟨q, r, queue, moves⟩ := heads x mem
  refine foldl_holds (I := HeadIs p.order x.1 x.2) ⟨p, q, r, play, queue, moves⟩ fun y _ u holds => HeadIs.addDests ?_ _
  exact holds.of_plays (groupWrite_far p s l y u .plays (by decide))

theorem groupsComplete : Claim.GroupsComplete := by
  refine ⟨fun tile s none_ => ⟨?_, ?_⟩, fun tile p m s head => ?_, fun tile p m s head leaf => ?_, fun tile p m s head root => ?_⟩
  · change execReductionResult tile s = _
    rw [execReductionResult, none_]
  · change execGroupTimeout tile s = _
    rw [execGroupTimeout, none_]
  · change execGroupTimeout tile s = _
    rw [execGroupTimeout, head]
  · change execReductionResult tile s = _
    rw [execReductionResult, head]
    exact if_pos leaf
  · intro l places
    have groups : ∀ x ∈ l, isGroupOp (opOf x.2.word) = true := rowMembers_group
    have spans (k : Span) (is : groupSpan l = k) : exec (.reductionResult tile) s = (match k with
        | .missing => .next s
        | .bad => .next (failPlay p.order (moveFailure Status.rowSpan m tile) (l.foldl (fun t x => dropMove p.order x.1 2 0 t) s))
        | .complete => .next (readyAll p l (noteAll (if l.any fun x => x.2.reused then freeGroup p l (resultsOf p l s) else resultsOf p l s)))) := by
      change execReductionResult tile s = _
      unfold execReductionResult
      rw [head]
      refine (if_neg fun no => no root).trans ?_
      dsimp only
      split
      all_goals
        next found =>
          cases (show groupSpan l = _ from found).symm.trans is
          rfl
    have twin := resultsOf_twin (p := p) groups s
    have touches := resultsOf_touches (p := p) groups s
    have frame := resultsOf_frame p l s
    refine ⟨spans .missing, spans .bad, fun complete alone => ?_, fun complete reused => ?_, fun complete play heads => ?_⟩
    · have none_ : ¬(l.any fun x => x.2.reused) = true := by
        simp only [List.any_eq_true, not_exists, not_and, Bool.not_eq_true]
        exact alone
      have run := spans .complete complete
      dsimp only at run
      rw [if_neg none_] at run
      have ready := (twin_noteAll (resultsOf p l s)).trans (readyAll_twin p l _)
      exact ⟨_, run, (twin.trans ready).mem, keeps_of_group groups (touches.step ready.frame (by decide)), frame.step ready.frame (by decide)⟩
    · have some_ : (l.any fun x => x.2.reused) = true := by
        simpa only [List.any_eq_true] using reused
      have run := spans .complete complete
      dsimp only at run
      rw [if_pos some_] at run
      have ready := (twin_noteAll (freeGroup p l (resultsOf p l s))).trans (readyAll_twin p l _)
      have freed := touches.trans (freeGroup_touches groups s (resultsOf p l s))
      exact ⟨_, run, ((twin.freeGroup groups p).trans ready).mem, keeps_of_group groups (freed.step ready.frame (by decide)),
        ((frame.mono (by decide)).step (freeGroup_far groups _) (by decide)).step ready.frame (by decide)⟩
    · have written := resultsOf_heads play heads
      have noted : ∀ x ∈ l, HeadIs p.order x.1 x.2 (noteAll (if l.any fun x => x.2.reused then freeGroup p l (resultsOf p l s) else resultsOf p l s)) := by
        intro x mem
        refine HeadIs.noteAll ?_
        split
        · exact (written x mem).of_plays (freeGroup_frame p l _ .plays (by decide))
        · exact written x mem
      have ready := readyAll_heads p noted
      have some_ : ∃ x, x ∈ l := by
        refine List.exists_mem_of_ne_nil l fun empty => ?_
        rw [empty] at complete
        exact nomatch complete
      obtain ⟨x₀, first⟩ := some_
      obtain ⟨y, -, -, found, -, -⟩ := ready x₀ first
      refine ⟨_, y, spans .complete complete, found, fun x mem => ?_⟩
      obtain ⟨y', q, r, found', queue, moves⟩ := ready x mem
      cases found.symm.trans found'
      exact ⟨q, r, queue, moves⟩

end

/-- Settles O32. -/
theorem groupedPlyMoves : Obligations.GroupedPlyMoves := ⟨groupMovesStart, groupsComplete, groupResults⟩

end Sys2Proof.Machine
end

section
/-! SUPPORT. TOPK: the ranks of its selection (R152, R163). -/

namespace Sys2Proof.Machine

/-! ### The order of values -/

/-- A value's place in the order of values: its magnitude with its sign. -/
def valueKey (a : W32) : Int := if a.getLsbD 31 then -((a.toNat % 2 ^ 31 : Nat) : Int) else (a.toNat : Int)

theorem getLsbD_top (a : W32) : a.getLsbD 31 = decide (2 ^ 31 ≤ a.toNat) := by
  have bound := a.isLt
  rw [show a.getLsbD 31 = a.msb from rfl, BitVec.msb_eq_decide]

theorem ltVal_iff (a b : W32) : ltVal a b = true ↔ valueKey a < valueKey b := by
  have boundA := a.isLt
  have boundB := b.isLt
  unfold ltVal ltTotal valueKey keyOf
  rw [getLsbD_top, getLsbD_top]
  by_cases signA : 2 ^ 31 ≤ a.toNat <;> by_cases signB : 2 ^ 31 ≤ b.toNat <;>
    by_cases zeros : a.toNat % 2 ^ 31 = 0 ∧ b.toNat % 2 ^ 31 = 0 <;>
    simp only [signA, signB, zeros, decide_true, decide_false, if_true, if_false, decide_eq_true_eq, Bool.false_eq_true, false_iff, and_self] <;>
    omega

theorem not_ltVal_iff (a b : W32) : ltVal a b = false ↔ valueKey b ≤ valueKey a := by
  rw [← Bool.not_eq_true, ltVal_iff, not_lt]

/-- A value comes before another in the ranks: it is greater, or equal with the lower index. -/
def Before (x y : Nat × W32) : Prop := ltVal x.2 y.2 = false ∧ (ltVal y.2 x.2 = false → x.1 < y.1)

/-- A logit's rank among others is its own or an earlier one. -/
def Leads (x y : Nat × W32) : Prop := y = x ∨ Before x y

section
variable {l r : List (Nat × W32)} {x y : Nat × W32} {n : Nat}

/-! ### The best of a row -/

/-- The better of the best so far and one more logit. -/
def pickBest (b : Option (Nat × W32)) (x : Nat × W32) : Option (Nat × W32) :=
  match b with
  | none => if isNan32 x.2 then none else some x
  | some y => if !isNan32 x.2 && ltVal y.2 x.2 then some x else some y

/-- What the search for the best holds of what it has seen. -/
def BestSoFar (seen : List (Nat × W32)) : Option (Nat × W32) → Prop
  | none => ∀ y ∈ seen, isNan32 y.2 = true
  | some x => x ∈ seen ∧ isNan32 x.2 = false ∧ ∀ y ∈ seen, isNan32 y.2 = true ∨ Leads x y

theorem Leads.of_greater {z : Nat × W32} (lead : Leads y z) (less : ltVal y.2 x.2 = true) : Leads x z := by
  rw [ltVal_iff] at less
  have low : valueKey z.2 ≤ valueKey y.2 := by
    rcases lead with rfl | ⟨lead, -⟩
    · exact le_rfl
    · exact (not_ltVal_iff _ _).1 lead
  refine .inr ⟨(not_ltVal_iff _ _).2 (by omega), fun same => ?_⟩
  have := (not_ltVal_iff _ _).1 same
  omega

/-- One more logit, of a higher index. -/
theorem BestSoFar.next {seen : List (Nat × W32)} {b : Option (Nat × W32)} (h : BestSoFar seen b) (x : Nat × W32) (later : ∀ y ∈ seen, y.1 < x.1) :
    BestSoFar (seen ++ [x]) (pickBest b x) := by
  have all {P : Nat × W32 → Prop} (before : ∀ y ∈ seen, P y) (last : P x) : ∀ y ∈ seen ++ [x], P y := by
    intro y mem
    rcases List.mem_append.1 mem with old | new
    · exact before y old
    · rw [List.mem_singleton.1 new]
      exact last
  have last : x ∈ seen ++ [x] := List.mem_append_right _ (.head _)
  unfold pickBest
  cases b with
  | none =>
    cases nan : isNan32 x.2 with
    | true =>
      simp only [if_true]
      exact all h nan
    | false =>
      simp only [Bool.false_eq_true, if_false]
      exact ⟨last, nan, all (fun y mem => .inl (h y mem)) (.inr (.inl rfl))⟩
  | some y =>
    obtain ⟨mem, number, leads⟩ := h
    dsimp only
    split
    next better =>
      simp only [Bool.and_eq_true, Bool.not_eq_true'] at better
      exact ⟨last, better.1, all (fun z inside => (leads z inside).imp_right (·.of_greater better.2)) (.inr (.inl rfl))⟩
    next worse =>
      refine ⟨List.mem_append_left _ mem, number, all leads ?_⟩
      cases nan : isNan32 x.2 with
      | true => exact .inl rfl
      | false =>
        simp only [nan, Bool.not_false, Bool.true_and, Bool.not_eq_true] at worse
        exact .inr (.inr ⟨worse, fun _ => later y mem⟩)

theorem bestSoFar_of_foldl {seen : List (Nat × W32)} {b : Option (Nat × W32)} (h : BestSoFar seen b) (rising : (seen ++ l).Pairwise fun a b => a.1 < b.1) :
    BestSoFar (seen ++ l) (l.foldl pickBest b) := by
  induction l generalizing seen b with
  | nil => rwa [List.append_nil]
  | cons x r ih =>
    have later : ∀ y ∈ seen, y.1 < x.1 := fun y mem => (List.pairwise_append.1 rising).2.2 y mem x (.head _)
    have step := h.next x later
    rw [List.append_cons] at rising ⊢
    exact ih step rising

theorem bestOf_best (rising : l.Pairwise fun a b => a.1 < b.1) : BestSoFar l (bestOf l) :=
  bestSoFar_of_foldl (seen := []) (b := none) (fun _ mem => nomatch mem) rising

/-! ### The selection -/

theorem topk_length (n : Nat) (l : List (Nat × W32)) : (topk n l).length ≤ n := by
  induction n generalizing l with
  | zero => exact Nat.le_refl 0
  | succ n ih =>
    unfold topk
    split
    · exact Nat.zero_le _
    · exact Nat.succ_le_succ (ih _)

theorem rising_filter (rising : l.Pairwise fun a b => a.1 < b.1) (test : Nat × W32 → Bool) : (l.filter test).Pairwise fun a b => a.1 < b.1 :=
  rising.filter test

theorem topk_mem (rising : l.Pairwise fun a b => a.1 < b.1) : ∀ x ∈ topk n l, x ∈ l ∧ isNan32 x.2 = false := by
  induction n generalizing l with
  | zero => exact fun _ mem => nomatch mem
  | succ n ih =>
    have best := bestOf_best rising
    unfold topk
    split
    · exact fun _ mem => nomatch mem
    next x found =>
      rw [found] at best
      obtain ⟨mem, number, -⟩ := best
      intro y inside
      rcases List.mem_cons.1 inside with rfl | later
      · exact ⟨mem, number⟩
      · obtain ⟨kept, good⟩ := ih (rising_filter rising _) y later
        exact ⟨(List.mem_filter.1 kept).1, good⟩

theorem topk_ranks (rising : l.Pairwise fun a b => a.1 < b.1) : (topk n l).Pairwise Before := by
  induction n generalizing l with
  | zero => exact .nil
  | succ n ih =>
    have best := bestOf_best rising
    unfold topk
    split
    · exact .nil
    next x found =>
      rw [found] at best
      obtain ⟨-, -, leads⟩ := best
      refine List.pairwise_cons.2 ⟨fun y inside => ?_, ih (rising_filter rising _)⟩
      obtain ⟨kept, number⟩ := topk_mem (rising_filter rising _) y inside
      obtain ⟨mem, other⟩ := List.mem_filter.1 kept
      rcases leads y mem with nan | rfl | before
      · rw [number] at nan
        exact nomatch nan
      · simp at other
      · exact before

theorem topk_left (rising : l.Pairwise fun a b => a.1 < b.1) (mem : y ∈ l) (left : y ∉ topk n l) :
    isNan32 y.2 = true ∨ ((topk n l).length = n ∧ ∀ x ∈ topk n l, Before x y) := by
  induction n generalizing l with
  | zero => exact .inr ⟨rfl, fun _ inside => nomatch inside⟩
  | succ n ih =>
    have best := bestOf_best rising
    unfold topk at left ⊢
    split at left
    next none_ =>
      rw [none_] at best
      exact .inl (best y mem)
    next x found =>
      rw [found] at best
      obtain ⟨inside, -, leads⟩ := best
      obtain ⟨other, rest⟩ := not_or.1 (mt List.mem_cons.2 left)
      have apart : y.1 ≠ x.1 := fun same => other (List.inj_on_of_nodup_map (List.pairwise_map.2 (rising.imp fun less => less.ne)) mem inside same)
      rcases ih (rising_filter rising fun z => z.1 != x.1) (List.mem_filter.2 ⟨mem, bne_iff_ne.2 apart⟩) rest with nan | ⟨full, before⟩
      · exact .inl nan
      · rcases leads y mem with nan | same | first
        · exact .inl nan
        · exact absurd same other
        · refine .inr ⟨congrArg (· + 1) full, fun z taken => ?_⟩
          rcases List.mem_cons.1 taken with rfl | later
          · exact first
          · exact before z later

theorem topkRanks : Claim.TopkRanks :=
  fun k l rising => ⟨topk_length k l, topk_mem rising, topk_ranks rising, fun _ mem left => topk_left rising mem left⟩

end

end Sys2Proof.Machine
end

section
/-! SUPPORT. Operands that a move does not write read as before, and a ply move that runs (R92 to R99, R119, R468). -/

namespace Sys2Proof.Machine

section
variable {R : Nat → Prop} {s t u : State} {base c i j : Nat}

/-! ### Operands apart from what is written -/

theorem sqSize_eq (c : Nat) : sqSize c = fmtHdr c + 128 * (16 * fmtBits c) := by
  unfold sqSize
  ring

theorem line_in_square (base : Nat) {c i k : Nat} (row : i < 128) (inside : k < 16 * fmtBits c) :
    Within base (sqSize c) (base + fmtHdr c + i * 16 * fmtBits c + k) := by
  have rows := Nat.mul_le_mul_right (16 * fmtBits c) (show i + 1 ≤ 128 from row)
  rw [Nat.add_mul, Nat.one_mul] at rows
  rw [sqSize_eq, Nat.mul_assoc]
  exact ⟨by omega, by omega⟩

theorem fmtHdr_of_scaled {c : Nat} (scaled : fmtScaleField c = true ∨ fmtMx c = true) : 128 ≤ fmtHdr c := by
  unfold fmtHdr
  have some_ : 5 ≤ c := by
    rcases scaled with field | mx
    · simp only [fmtScaleField, fmtTensor, fmtSquare, Bool.or_eq_true, beq_iff_eq] at field
      omega
    · simp only [fmtMx, Bool.and_eq_true, decide_eq_true_eq] at mx
      exact (by omega : 5 ≤ 9).trans mx.1
  rw [if_neg (by omega)]
  split <;> omega

theorem head_in_square (base : Nat) {c k : Nat} (inside : k < fmtHdr c) : Within base (sqSize c) (base + k) := by
  rw [sqSize_eq]
  exact ⟨by omega, by omega⟩

/-- An element of a square that is not written reads as before. -/
theorem Touches.sqElem (h : Touches R s t) (far : nearEnd ≤ base) (out : ∀ a, Within base (sqSize c) a → ¬R a) (row : i < 128) (col : j < 128) :
    sqElem t base c i j = sqElem s base c i j := by
  have bits : Machine.sqBits t base c i j = Machine.sqBits s base c i j := h.sqBits far c i j fun k inside => out _ (line_in_square base row inside)
  have head {k n : Nat} (inside : k + n ≤ fmtHdr c) : Machine.readN t (base + k) n = Machine.readN s (base + k) n :=
    h.readN (far_add far k) fun x less => by
      rw [Nat.add_assoc]
      exact out _ (head_in_square base (show k + x < fmtHdr c by omega))
  unfold Machine.sqElem
  rw [bits]
  dsimp only
  by_cases field : fmtScaleField c = true
  · have hdr := fmtHdr_of_scaled (.inl field)
    rw [if_pos field, if_pos field, sqScale, sqScale, head (by omega)]
  · rw [if_neg field, if_neg field]
    by_cases mx : fmtMx c = true
    · have hdr := fmtHdr_of_mx mx
      have axis : sqAxis t base = sqAxis s base := by
        unfold sqAxis
        have same := head (k := 0) (n := 1) (by omega)
        rw [Nat.add_zero] at same
        rw [same]
      have place : mxIndex (sqAxis s base) i j < 512 := by
        unfold mxIndex
        split <;> omega
      rw [if_pos mx, if_pos mx, axis, h.readByte (far_add (far_add far 128) _) (by rw [Nat.add_assoc]; exact out _ (head_in_square base (by omega)))]
    · rw [if_neg mx, if_neg mx]

theorem Touches.sqLine (h : Touches R s t) (far : nearEnd ≤ base) (out : ∀ a, Within base (sqSize c) a → ¬R a) (row : i < 128) (trans : Bool) :
    sqLine t base c i trans = sqLine s base c i trans := by
  unfold Machine.sqLine
  refine List.map_congr_left fun j mem => ?_
  have col := List.mem_range.1 mem
  cases trans with
  | true => exact h.sqElem far out col row
  | false => exact h.sqElem far out row col

theorem square_within {n q : Nat} (base c : Nat) (less : q < n) : ∀ a, Within (squareAt base c q) (sqSize c) a → Within base (n * sqSize c) a := by
  intro a inside
  obtain ⟨low, high⟩ := inside
  have rows := Nat.mul_le_mul_right (sqSize c) (show q + 1 ≤ n from less)
  rw [Nat.add_mul, Nat.one_mul] at rows
  unfold squareAt at low high
  exact ⟨by omega, by omega⟩

/-- A line of an operand that is not written reads as before. -/
theorem Touches.runLine (h : Touches R s t) (far : nearEnd ≤ base) {n k : Nat} (out : ∀ a, Within base (n * sqSize c) a → ¬R a) (less : k < 128 * n)
    (trans : Bool) : runLine t base c trans k = runLine s base c trans k := by
  unfold Machine.runLine sqLine32
  rw [h.sqLine (far_add far _) (fun a inside => out a (square_within base c (Nat.div_lt_of_lt_mul less) a inside)) (Nat.mod_lt _ (by decide))]

theorem Touches.parF (h : Touches R s t) {tile off : Nat} (out : ∀ a, Within (tileAddr tile off) 4 a → ¬R a) : parF t tile off = parF s tile off := by
  unfold Machine.parF
  rw [h.readN (nearEnd_le_tileAddr _ _) fun k less => out _ ⟨Nat.le_add_right _ _, Nat.add_lt_add_left less _⟩]

/-- Ranges apart in a tile's store share no address. -/
theorem apart_within {tile a n b k x : Nat} (apart : Apart a n b k) (inside : Within (tileAddr tile a) n x) : ¬Within (tileAddr tile b) k x := by
  intro also
  obtain ⟨lowA, highA⟩ := inside
  obtain ⟨lowB, highB⟩ := also
  unfold tileAddr at lowA highA lowB highB
  rcases apart with before | after
  · omega
  · omega

end

/-! ### A ply move that runs -/

section
variable {c : Instr} {p : Play} {tile code : Nat} {m m₁ : QMove} {s s₂ u : State} {x : TileQueue} {m₀ : QMove} {l : LaneFault}

/-- The state that a move which runs at the head of its queue leaves, from the state its start makes. -/
def RunsFrom (c : Instr) (order tile code : Nat) (l : LaneFault) (s s₂ u t : State) : Prop :=
  exec c s = .next t ∧ RunsAtHead t order tile code ∧ Masked l s₂ t ∧ OnlyChanges [.plays, .host, .store, .xing] u t

theorem HeadOf.runs_lane (h : HeadOf c p tile code m s s₂ x m₀) (engine : code ≠ 1) (took : m₁.took = []) (started : m₁.started = true)
    (any : startAny p tile code m s₂ = .run m₁ (laneLeft p tile l s₂ u)) {w : List Part} (frame : OnlyChanges w s₂ u)
    (away : Part.plays ∉ w ∧ Part.host ∉ w ∧ Part.store ∉ w ∧ Part.bu ∉ w ∧ Part.xing ∉ w) : ∃ t, RunsFrom c p.order tile code l s s₂ u t := by
  obtain ⟨plays, host, store, bu, xing⟩ := away
  have left := laneLeft_frame p tile l s₂ u
  have runs := h.starts engine
  rw [any] at runs
  obtain ⟨run, -⟩ := h.holds (t := laneLeft p tile l s₂ u) (m₁ := m₁) ((left .plays (by decide)).trans (frame .plays plays)) took started
  have applied := applied_frame p tile code m m₁ (laneLeft p tile l s₂ u) s₂
  have masked := ((laneLeft_masked p tile l s₂ u).from_same (frame .host host) (frame .store store) (frame .bu bu) (frame .xing xing)).of_same
    (applied .host (by decide)) (applied .store (by decide))
  exact ⟨_, runs, run, masked, (left.mono (by decide)).step applied (by decide)⟩

theorem Masked.none (s : State) {t : State} (host : t.host = s.host) (store : t.store = s.store) : Masked .none s t :=
  ⟨fun _ => ⟨host, store⟩, fun no => nomatch no⟩

end

end Sys2Proof.Machine
end

section
/-! SUPPORT. TOPK at the head of an empty PLY queue (R163, R203). -/

namespace Sys2Proof.Machine

section
variable {p : Play} {tile : Nat} {m : QMove} {s s₂ u : State} {i j : Nat}

/-- The logits of a row. -/
def topkLogits (tile : Nat) (w : MoveWord) (s : State) (i : Nat) : List W32 :=
  ((List.range (cdiv (wf w 64 13) 128)).flatMap fun n =>
    runLine s (tileAddr tile (wf w 92 16 * 128)) (wf w 83 4) false (i * cdiv (wf w 64 13) 128 + n)).take (wf w 64 13)

/-- The selection among logits. -/
def topkPick (w : MoveWord) (logits : List W32) : List (Nat × W32) := topk (wf w 77 4) (logits.zipIdx.map fun (x, j) => (j, x))

/-- The bytes of a weight. -/
def topkBytes (w : MoveWord) : Nat := if wb w 87 then 2 else 4

/-- Where rank j of row i has its index, and its weight. -/
def topkIndexAt (tile : Nat) (w : MoveWord) (i j : Nat) : Nat := tileAddr tile (wf w 108 16 * 128 + 2 * (i * wf w 77 4 + j))

def topkWeightAt (tile : Nat) (w : MoveWord) (i j : Nat) : Nat := tileAddr tile (wf w 124 16 * 128 + topkBytes w * (i * wf w 77 4 + j))

/-- One rank of a row written. -/
def topkRank (p : Play) (tile : Nat) (m : QMove) (i : Nat) (logits : List W32) (s : State) (j : Nat) : State :=
  let w := m.word
  let s := writeN (topkIndexAt tile w i j) 2 (match (topkPick w logits)[j]? with | some x => x.1 | none => 0xFFFF) s
  match (topkWeights (wf w 81 2) logits (topkPick w logits))[j]? with
  | some v =>
    let c := if wb w 87 then 1 else 0
    let (b, o) := (elemFmt c).convert (modeOf c (wb w 91 || wf w 88 3 == 2)
      (playDie p (sidOf w) (frameIdx m.frame (wf w 77 4) (m.frame.row0 + i) (m.frame.col0 + j)))) 0 (v32 v)
    countConv (sidOf w) p.step (({} : Counts).add (!wb w 87) o) (writeN (topkWeightAt tile w i j) (topkBytes w) b s)
  | none => writeN (topkWeightAt tile w i j) (topkBytes w) 0 s

theorem topkRow_eq (p : Play) (tile : Nat) (m : QMove) (i : Nat) (s : State) : topkRow p tile m i s =
    (List.range (wf m.word 77 4)).foldl (topkRank p tile m i (topkLogits tile m.word s i))
      (countConv (sidOf m.word) p.step { nonfinite := ((topkLogits tile m.word s i).filter isNan32).length } s) := rfl

/-- The places of one rank's entries. -/
def TopkPlace (tile : Nat) (w : MoveWord) (i j a : Nat) : Prop := Within (topkIndexAt tile w i j) 2 a ∨ Within (topkWeightAt tile w i j) (topkBytes w) a

theorem topkRank_rest (logits : List W32) : Touches (Within (topkWeightAt tile m.word i j) (topkBytes m.word))
    (writeN (topkIndexAt tile m.word i j) 2 (match (topkPick m.word logits)[j]? with | some x => x.1 | none => 0xFFFF) s) (topkRank p tile m i logits s j) := by
  unfold topkRank
  dsimp only
  generalize writeN (topkIndexAt tile m.word i j) 2 _ s = v
  split
  · exact (touches_writeN (nearEnd_le_tileAddr _ _) _ _ _).step (countConv_frame _ _ _ _) (by decide)
  · exact touches_writeN (nearEnd_le_tileAddr _ _) _ _ _

theorem topkRank_touches (logits : List W32) : Touches (TopkPlace tile m.word i j) s (topkRank p tile m i logits s j) :=
  ((touches_writeN (nearEnd_le_tileAddr _ _) 2 _ s).mono fun _ => .inl).trans ((topkRank_rest logits).mono fun _ => .inr)

theorem topkRow_touches : Touches (fun a => ∃ j < wf m.word 77 4, TopkPlace tile m.word i j a) s (topkRow p tile m i s) := by
  rw [topkRow_eq]
  refine Touches.fold ((Touches.refl s).step (countConv_frame _ _ _ _) (by decide)) fun u j mem => ?_
  exact (topkRank_touches _).mono fun a place => ⟨j, List.mem_range.1 mem, place⟩

/-- The tables that TOPK writes. -/
def TopkTables (tile : Nat) (w : MoveWord) (a : Nat) : Prop :=
  Within (tileAddr tile (wf w 108 16 * 128)) (2 * wf w 77 4 * wf w 140 20) a ∨
    Within (tileAddr tile (wf w 124 16 * 128)) (topkBytes w * wf w 77 4 * wf w 140 20) a

theorem cell_less {i j k rows : Nat} (row : i < rows) (col : j < k) : i * k + j + 1 ≤ k * rows := by
  have up := Nat.mul_le_mul_right k (show i + 1 ≤ rows from row)
  rw [Nat.add_mul, Nat.one_mul, Nat.mul_comm rows] at up
  omega

theorem topkPlace_table {w : MoveWord} (row : i < wf w 140 20) (col : j < wf w 77 4) {a : Nat} (place : TopkPlace tile w i j a) : TopkTables tile w a := by
  have cell := cell_less row col
  have scaled (b : Nat) : b * (i * wf w 77 4 + j) + b ≤ b * wf w 77 4 * wf w 140 20 := by
    have up := Nat.mul_le_mul_left b cell
    rw [Nat.mul_add, Nat.mul_one, ← Nat.mul_assoc] at up
    exact up
  rcases place with ⟨low, high⟩ | ⟨low, high⟩
  · have up := scaled 2
    unfold topkIndexAt at low high
    unfold tileAddr at low high
    exact .inl ⟨by unfold tileAddr; omega, by unfold tileAddr; omega⟩
  · have up := scaled (topkBytes w)
    unfold topkWeightAt at low high
    unfold tileAddr at low high
    exact .inr ⟨by unfold tileAddr; omega, by unfold tileAddr; omega⟩

theorem topkRow_tables (row : i < wf m.word 140 20) : Touches (TopkTables tile m.word) s (topkRow p tile m i s) :=
  topkRow_touches.mono fun _ ⟨_, col, place⟩ => topkPlace_table row col place

theorem topkRows_tables : Touches (TopkTables tile m.word) s ((List.range (wf m.word 140 20)).foldl (fun s i => topkRow p tile m i s) s) :=
  Touches.fold (.refl s) fun _ _ mem => topkRow_tables (List.mem_range.1 mem)

/-! ### The index table -/

/-- The index of a rank. -/
def topkIndex (w : MoveWord) (logits : List W32) (j : Nat) : Nat := ((topkPick w logits)[j]?).elim 0xFFFF Prod.fst

theorem zipIdx_rising (logits : List W32) : (logits.zipIdx.map fun (x, j) => (j, x)).Pairwise fun a b => a.1 < b.1 :=
  List.pairwise_map.2 (zipIdx_ordered logits)

theorem topkIndex_lt {w : MoveWord} {logits : List W32} (few : logits.length ≤ 4096) (j : Nat) : topkIndex w logits j < 65536 := by
  unfold topkIndex
  cases found : (topkPick w logits)[j]? with
  | none => exact (by decide : (0xFFFF : Nat) < 65536)
  | some x =>
    have mem := (topk_mem (zipIdx_rising logits) x (List.mem_of_getElem? found)).1
    obtain ⟨y, inside, rfl⟩ := List.mem_map.1 mem
    have less := (mem_zipIdx_less inside).1
    change y.2 < 65536
    omega

/-- A rank's index as the table holds it. -/
def RankRead (tile : Nat) (w : MoveWord) (i : Nat) (logits : List W32) (j : Nat) (u : State) : Prop := readN u (topkIndexAt tile w i j) 2 = topkIndex w logits j

theorem RankRead.stays {R : Nat → Prop} {w : MoveWord} {logits : List W32} {t : State} (h : RankRead tile w i logits j u) (touches : Touches R u t)
    (out : ∀ a, Within (topkIndexAt tile w i j) 2 a → ¬R a) : RankRead tile w i logits j t :=
  (touches.readN (nearEnd_le_tileAddr _ _) fun _ less => out _ ⟨Nat.le_add_right _ _, Nat.add_lt_add_left less _⟩).trans h

/-- The index table shares no byte with the weight table. -/
def TablesApart (w : MoveWord) : Prop :=
  Apart (wf w 108 16 * 128) (2 * wf w 77 4 * wf w 140 20) (wf w 124 16 * 128) (topkBytes w * wf w 77 4 * wf w 140 20)

/-- An index entry shares no byte with the entries of another rank. -/
theorem rank_apart {w : MoveWord} (apart : TablesApart w) {r n : Nat} (row : i < wf w 140 20) (col : j < wf w 77 4) (row' : r < wf w 140 20) (col' : n < wf w 77 4)
    (other : i * wf w 77 4 + j ≠ r * wf w 77 4 + n) {a : Nat} (inside : Within (topkIndexAt tile w i j) 2 a) : ¬TopkPlace tile w r n a := by
  have table : Within (tileAddr tile (wf w 108 16 * 128)) (2 * wf w 77 4 * wf w 140 20) a := by
    have cell := Nat.mul_le_mul_left 2 (cell_less row col)
    rw [← Nat.mul_assoc] at cell
    obtain ⟨low, high⟩ := inside
    unfold topkIndexAt tileAddr at low high
    exact ⟨by unfold tileAddr; omega, by unfold tileAddr; omega⟩
  rintro (⟨low, high⟩ | weight)
  · obtain ⟨lowI, highI⟩ := inside
    unfold topkIndexAt tileAddr at low high lowI highI
    omega
  · refine apart_within apart table ?_
    have cell := Nat.mul_le_mul_left (topkBytes w) (cell_less row' col')
    rw [← Nat.mul_assoc, Nat.mul_add, Nat.mul_one] at cell
    obtain ⟨low, high⟩ := weight
    unfold topkWeightAt tileAddr at low high
    exact ⟨by unfold tileAddr; omega, by unfold tileAddr; omega⟩

theorem cell_ne_of_row {k i j r n : Nat} (col : j < k) (other : i < r) : i * k + j ≠ r * k + n := by
  have up := Nat.mul_le_mul_right k (show i + 1 ≤ r from other)
  rw [Nat.add_mul, Nat.one_mul] at up
  omega

theorem topkRank_reads (hs : Inv s) (logits : List W32) (few : logits.length ≤ 4096) (apart : TablesApart m.word) (row : i < wf m.word 140 20)
    (col : j < wf m.word 77 4) : RankRead tile m.word i logits j (topkRank p tile m i logits s j) := by
  have wrote : RankRead tile m.word i logits j
      (writeN (topkIndexAt tile m.word i j) 2 (match (topkPick m.word logits)[j]? with | some x => x.1 | none => 0xFFFF) s) := by
    refine (readN_writeN_self hs (nearEnd_le_tileAddr _ _) 2 _).trans ?_
    have same : (match (topkPick m.word logits)[j]? with | some x => x.1 | none => 0xFFFF) = topkIndex m.word logits j := by
      unfold topkIndex
      cases (topkPick m.word logits)[j]? <;> rfl
    rw [same]
    exact Nat.mod_eq_of_lt (topkIndex_lt few j)
  refine wrote.stays (topkRank_rest logits) fun a inside weight => ?_
  have cell := cell_less row col
  have cells := Nat.mul_le_mul_left 2 cell
  have weights := Nat.mul_le_mul_left (topkBytes m.word) cell
  rw [← Nat.mul_assoc] at cells weights
  rw [Nat.mul_add (topkBytes m.word), Nat.mul_one] at weights
  obtain ⟨low, high⟩ := inside
  obtain ⟨lowW, highW⟩ := weight
  unfold topkIndexAt tileAddr at low high
  unfold topkWeightAt tileAddr at lowW highW
  rcases apart with before | after
  · omega
  · omega

theorem topkRow_reads (hs : Inv s) (few : (topkLogits tile m.word s i).length ≤ 4096) (apart : TablesApart m.word) (row : i < wf m.word 140 20) :
    ∀ j ∈ List.range (wf m.word 77 4), RankRead tile m.word i (topkLogits tile m.word s i) j (topkRow p tile m i s) := by
  rw [topkRow_eq]
  generalize topkLogits tile m.word s i = logits at few
  refine foldl_each (I := Inv) (((Touches.refl (R := fun _ => False) s).step (countConv_frame _ _ _ _) (by decide)).form hs)
    (fun j _ u form => (topkRank_touches logits).form form) (fun j mem u form => topkRank_reads form logits few apart row (List.mem_range.1 mem)) ?_
  refine List.Pairwise.imp_of_mem (fun {j n} mem mem' before u h => ?_) List.pairwise_lt_range
  exact h.stays (topkRank_touches logits) fun a inside => rank_apart apart row (List.mem_range.1 mem) row (List.mem_range.1 mem') (by omega) inside

/-! ### The claim -/

/-- The operand's places. -/
def TopkSource (tile : Nat) (w : MoveWord) (a : Nat) : Prop :=
  Within (tileAddr tile (wf w 92 16 * 128)) (sqsOf (wf w 140 20 * cdiv (wf w 64 13) 128) * sqSize (wf w 83 4)) a

theorem le_sqsOf (n : Nat) : n ≤ 128 * sqsOf n := by
  unfold sqsOf cdiv
  omega

/-- The logits stay while only the tables are written. -/
theorem topkLogits_stays {t : State} {w : MoveWord} (touches : Touches (TopkTables tile w) s t) (out : ∀ a, TopkSource tile w a → ¬TopkTables tile w a)
    (row : i < wf w 140 20) : topkLogits tile w t i = topkLogits tile w s i := by
  unfold topkLogits
  refine congrArg (List.take _) (List.flatMap_congr fun n mem => touches.runLine (nearEnd_le_tileAddr _ _) (n := sqsOf (wf w 140 20 * cdiv (wf w 64 13) 128)) out ?_ false)
  have cell := cell_less row (List.mem_range.1 mem)
  rw [Nat.mul_comm (cdiv (wf w 64 13) 128) (wf w 140 20)] at cell
  have squares := le_sqsOf (wf w 140 20 * cdiv (wf w 64 13) 128)
  omega

/-- Every rank's index stands once all rows are written. -/
theorem topkRows_reads (hs : Inv s) (few : wf m.word 64 13 ≤ 4096) (apart : TablesApart m.word)
    (out : ∀ a, TopkSource tile m.word a → ¬TopkTables tile m.word a) (row : i < wf m.word 140 20) (col : j < wf m.word 77 4) :
    RankRead tile m.word i (topkLogits tile m.word s i) j ((List.range (wf m.word 140 20)).foldl (fun s i => topkRow p tile m i s) s) := by
  have length (u : State) (i : Nat) : (topkLogits tile m.word u i).length ≤ 4096 := by
    unfold topkLogits
    rw [List.length_take]
    omega
  have each := foldl_each (f := fun s i => topkRow p tile m i s) (xs := List.range (wf m.word 140 20)) (I := fun u => Inv u ∧ Touches (TopkTables tile m.word) s u)
    (P := fun i u => ∀ j < wf m.word 77 4, RankRead tile m.word i (topkLogits tile m.word s i) j u) ⟨hs, .refl s⟩
    (fun i mem u ⟨form, touches⟩ => ?_) (fun i mem u ⟨form, touches⟩ j col => ?_) ?_
  · exact each i (List.mem_range.2 row) j col
  · have step := topkRow_tables (p := p) (tile := tile) (s := u) (List.mem_range.1 mem)
    exact ⟨step.form form, touches.trans step⟩
  · have reads := topkRow_reads (p := p) form (length u i) apart (List.mem_range.1 mem) j (List.mem_range.2 col)
    rwa [topkLogits_stays touches out (List.mem_range.1 mem)] at reads
  · refine List.Pairwise.imp_of_mem (fun {i r} mem mem' before u h j col => ?_) List.pairwise_lt_range
    refine (h j col).stays topkRow_touches fun a inside ⟨n, col', place⟩ => ?_
    exact rank_apart apart (List.mem_range.1 mem) col (List.mem_range.1 mem') col' (cell_ne_of_row col before) inside place

theorem startMoveOf_topk (common : encCommon m.word = true) (op : opOf m.word = 0x24) (s : State) : startMoveOf p tile 2 m s = startTopk p tile m s := by
  refine (if_neg (by rw [common]; decide)).trans ?_
  generalize opOf m.word = o at op
  subst op
  rfl

theorem topkRuns : Claim.TopkRuns := by
  intro l p tile m s s₂ atHead w e k rows src idx wts b per nsq formed ranged heads fits
  obtain ⟨x, m₀, h⟩ := atHead.head
  obtain ⟨op, fault⟩ := atHead.row rfl
  have fails {st : BitVec 16} (start : startMoveOf p tile 2 m s₂ = .fail st s₂) (other : st ≠ Status.retiredPage) := h.fails (by decide) start other
  have start (common : encCommon w = true) := startMoveOf_topk (p := p) (tile := tile) common op s₂
  have outside : (decide (e = 0) || decide (4096 < e) || decide (k = 0) || decide (8 < k)) = !ranged := by
    rw [Bool.eq_iff_iff]
    simp only [ranged, Bool.or_eq_true, Bool.not_eq_true', Bool.and_eq_false_iff, decide_eq_true_eq, decide_eq_false_iff_not]
    omega
  have checked : startTopk p tile m s₂ = if !encTopk w then .fail Status.moveField s₂ else if !ranged then .fail Status.topkRange s₂ else heads.elim
      (if !fits then .fail Status.addrRange s₂ else .run { m with started := true } ((List.range rows).foldl (fun s i => topkRow p tile m i s) s₂))
      fun st => .fail st s₂ := by
    rw [← outside]
    unfold startTopk
    dsimp only
    refine congrArg (fun r => ite _ _ (ite _ _ r)) ?_
    change (match heads with | some st => _ | none => _) = _
    cases heads <;> rfl
  have first (is : formed = true) : startMoveOf p tile 2 m s₂ = if !ranged then .fail Status.topkRange s₂ else heads.elim
      (if !fits then .fail Status.addrRange s₂ else .run { m with started := true } ((List.range rows).foldl (fun s i => topkRow p tile m i s) s₂))
      fun st => .fail st s₂ := by
    obtain ⟨common, enc⟩ := Bool.and_eq_true_iff.1 is
    exact (start common).trans (checked.trans (if_neg (by rw [enc]; decide)))
  have passed (is : formed = true) (inside : ranged = true) := (first is).trans (if_neg (by rw [inside]; decide))
  have located (is : formed = true) (inside : ranged = true) (right : heads = none) :=
    (passed is inside).trans (congrArg (fun r => Option.elim r _ fun st => Start.fail st s₂) right)
  refine ⟨fun bad => ?_, fun is out => ?_, fun st is inside found => ?_, fun is inside right out => ?_, fun mild is inside right ok => ?_⟩
  · exact fails (startMoveOf_bad (start := startTopk p tile m) bad start fun no => checked.trans (if_pos (by rw [no]; rfl))) (by decide)
  · exact fails ((first is).trans (if_pos (by rw [out]; rfl))) (by decide)
  · exact fails ((passed is inside).trans (congrArg (fun r => Option.elim r _ fun st => Start.fail st s₂) found)) (operandCheck_status found)
  · exact fails ((located is inside right).trans (if_pos (by rw [out]; rfl))) (by decide)
  · have rowsFrame : OnlyChanges [.watch, .mem] s₂ ((List.range rows).foldl (fun s i => topkRow p tile m i s) s₂) :=
      OnlyChanges.fold (.refl _ _) fun u i f => f.step (topkRow_frame p tile m i u) (by decide)
    have tables := topkRows_tables (p := p) (tile := tile) (m := m) (s := s₂)
    have any := startAny_lane fault mild (by rw [op]; decide) ((located is inside right).trans (if_neg (by rw [ok]; decide)))
    obtain ⟨t, runs, head, masked, rest⟩ := h.runs_lane (m₁ := { m with started := true }) (by decide) atHead.fresh.2 rfl any rowsFrame (by decide)
    refine ⟨t, runs, head, masked, rest .mem (by decide), ?_, (rowsFrame.mono (by decide)).step rest (by decide), fun form apartI apartW apart i j row col => ?_⟩
    · refine (tables.step rest (by decide)).keeps (fun y mem => ?_) fun a place => ?_
      · simp only [List.mem_cons, List.not_mem_nil, or_false] at mem
        rcases mem with rfl | rfl
        · exact nearEnd_le_tileAddr _ _
        · exact nearEnd_le_tileAddr _ _
      · rcases place with index | weight
        · exact ⟨_, .head _, index⟩
        · exact ⟨_, .tail _ (.head _), weight⟩
    · have few : wf m.word 64 13 ≤ 4096 := by
        simp only [ranged, Bool.and_eq_true, decide_eq_true_eq] at inside
        exact inside.1.1.2
      have source (a : Nat) (inside : TopkSource tile m.word a) : ¬TopkTables tile m.word a := by
        rintro (index | weight)
        · exact apart_within apartI index inside
        · exact apart_within apartW weight inside
      have reads := topkRows_reads (p := p) form few apart source row col
      exact ((Touches.refl (R := fun _ => False) _).step rest (by decide)).readN (nearEnd_le_tileAddr _ _) (fun _ _ no => no) |>.trans reads

end

end Sys2Proof.Machine
end

section
/-! SUPPORT. GATHER, SCATTER and SCATTER_ADD move their rows (R167). -/

namespace Sys2Proof.Machine

section
variable {op tile : Nat} {w : MoveWord} {s t u : State} {i : Nat}

/-- Bytes of a row. -/
def rowLen (w : MoveWord) : Nat := wf w 152 12 * 128

/-- The index of row i. -/
def rowIndex (tile : Nat) (w : MoveWord) (s : State) (i : Nat) : Nat := readN s (tileAddr tile (wf w 96 16 * 128 + 4 * i)) 4

/-- Source and destination row r. -/
def srcRow (tile : Nat) (w : MoveWord) (r : Nat) : Nat := tileAddr tile (wf w 64 16 * 128) + r * rowLen w

def dstRow (tile : Nat) (w : MoveWord) (r : Nat) : Nat := tileAddr tile (wf w 80 16 * 128) + r * rowLen w

/-- The destination row of row i, given its index. -/
def rowTarget (op i ix : Nat) : Nat := if op = 0x25 then i else ix

/-- One element of SCATTER_ADD. -/
def addElem (tile : Nat) (w : MoveWord) (i ix : Nat) (s : State) (k : Nat) : State :=
  writeN (dstRow tile w ix + 4 * k) 4 (add32 (BitVec.ofNat 32 (readN s (dstRow tile w ix + 4 * k) 4)) (BitVec.ofNat 32 (readN s (srcRow tile w i + 4 * k) 4))).toNat s

/-- One row moved. -/
def rowStep (tile op : Nat) (w : MoveWord) (s : State) (i : Nat) : State :=
  match op with
  | 0x25 => writeBytes (dstRow tile w i) (readBytes s (srcRow tile w (rowIndex tile w s i)) (rowLen w)) s
  | 0x26 => writeBytes (dstRow tile w (rowIndex tile w s i)) (readBytes s (srcRow tile w i) (rowLen w)) s
  | _ => (List.range (rowLen w / 4)).foldl (addElem tile w i (rowIndex tile w s i)) s

theorem gatherRows_cons (i : Nat) (r : List Nat) (s : State) : gatherRows tile op w (i :: r) s =
    if wf w 132 20 ≤ rowIndex tile w s i then (false, s) else gatherRows tile op w r (rowStep tile op w s i) := rfl

theorem far_dstRow (r : Nat) : nearEnd ≤ dstRow tile w r := far_add (nearEnd_le_tileAddr _ _) _

theorem far_srcRow (r : Nat) : nearEnd ≤ srcRow tile w r := far_add (nearEnd_le_tileAddr _ _) _

theorem addElem_touches {ix k : Nat} (less : k < rowLen w / 4) : Touches (Within (dstRow tile w ix) (rowLen w)) s (addElem tile w i ix s k) :=
  (touches_writeN (far_add (far_dstRow ix) _) 4 _ s).mono fun a ⟨low, high⟩ => ⟨by omega, by omega⟩

/-- A row goes to its target. -/
theorem rowStep_touches (listed : op ∈ [0x25, 0x26, 0x27]) :
    Touches (Within (dstRow tile w (rowTarget op i (rowIndex tile w s i))) (rowLen w)) s (rowStep tile op w s i) := by
  simp only [List.mem_cons, List.not_mem_nil, or_false] at listed
  rcases listed with rfl | rfl | rfl
  · have wrote := touches_writeBytes (far_dstRow (tile := tile) (w := w) i) (readBytes s (srcRow tile w (rowIndex tile w s i)) (rowLen w)) s
    rwa [readBytes_length] at wrote
  · have wrote := touches_writeBytes (far_dstRow (tile := tile) (w := w) (rowIndex tile w s i)) (readBytes s (srcRow tile w i) (rowLen w)) s
    rwa [readBytes_length] at wrote
  · exact Touches.fold (.refl s) fun u k mem => addElem_touches (List.mem_range.1 mem)

theorem rowStep_frame (s : State) (i : Nat) : OnlyChanges [.mem] s (rowStep tile op w s i) := by
  unfold rowStep
  split
  · exact writeBytes_frame _ _ _
  · exact writeBytes_frame _ _ _
  · exact OnlyChanges.fold (.refl _ _) fun u k h => h.step (writeN_frame _ _ _ _) (by decide)

/-! ### Rows in order -/

/-- Rows of the destination. -/
def dstRows (op : Nat) (w : MoveWord) : Nat := if op = 0x25 then wf w 112 20 else wf w 132 20

/-- The destination's places. -/
def RowsPlace (op tile : Nat) (w : MoveWord) (a : Nat) : Prop := Within (tileAddr tile (wf w 80 16 * 128)) (dstRows op w * rowLen w) a

theorem row_within {n b r d : Nat} (less : r < n) {a : Nat} (inside : Within (d + r * b) b a) : Within d (n * b) a := by
  have rows := Nat.mul_le_mul_right b (show r + 1 ≤ n from less)
  rw [Nat.add_mul, Nat.one_mul] at rows
  obtain ⟨low, high⟩ := inside
  exact ⟨by omega, by omega⟩

theorem target_less (row : i < wf w 112 20) {ix : Nat} (index : ix < wf w 132 20) : rowTarget op i ix < dstRows op w := by
  unfold rowTarget dstRows
  split
  · exact row
  · exact index

theorem rowStep_place (listed : op ∈ [0x25, 0x26, 0x27]) (row : i < wf w 112 20) (index : rowIndex tile w s i < wf w 132 20) :
    Touches (RowsPlace op tile w) s (rowStep tile op w s i) :=
  (rowStep_touches listed).mono fun _ inside => row_within (target_less row index) inside

theorem gatherRows_touches (listed : op ∈ [0x25, 0x26, 0x27]) {l : List Nat} (rows : ∀ i ∈ l, i < wf w 112 20) :
    Touches (RowsPlace op tile w) s (gatherRows tile op w l s).2 := by
  induction l generalizing s with
  | nil => exact .refl s
  | cons i r ih =>
    rw [gatherRows_cons]
    split
    · exact .refl s
    next index => exact (rowStep_place listed (rows i (.head _)) (Nat.lt_of_not_le index)).trans (ih fun k mem => rows k (.tail _ mem))

theorem gatherRows_mem (l : List Nat) (s : State) : OnlyChanges [.mem] s (gatherRows tile op w l s).2 := by
  induction l generalizing s with
  | nil => exact .refl _ _
  | cons i r ih =>
    rw [gatherRows_cons]
    split
    · exact .refl _ _
    · exact (rowStep_frame s i).step (ih _) (by decide)

theorem gatherRows_append (l r : List Nat) (s : State) (all : (gatherRows tile op w l s).1 = true) :
    gatherRows tile op w (l ++ r) s = gatherRows tile op w r (gatherRows tile op w l s).2 := by
  induction l generalizing s with
  | nil => rfl
  | cons i l ih =>
    rw [gatherRows_cons] at all ⊢
    rw [List.cons_append, gatherRows_cons]
    split at all
    · exact nomatch all
    next index =>
      rw [if_neg index, if_neg index]
      exact ih _ all

/-- Numbers below one, itself, and those behind it. -/
theorem range_split {k n : Nat} (less : k < n) : List.range n = List.range k ++ k :: List.range' (k + 1) (n - (k + 1)) := by
  obtain ⟨d, rfl⟩ := Nat.exists_eq_add_of_lt less
  have joined := List.range'_append_1 (s := 0) (m := k) (n := d + 1)
  rw [List.range_eq_range', List.range_eq_range', show k + d + 1 - (k + 1) = d by omega, ← List.range'_succ, Nat.add_assoc, ← joined, Nat.zero_add]

section
variable (listed : op ∈ [0x25, 0x26, 0x27]) (apart : Apart (wf w 96 16 * 128) (4 * wf w 112 20) (wf w 80 16 * 128) (dstRows op w * rowLen w))
include apart

/-- The index table stays. -/
theorem rowIndex_stays (touches : Touches (RowsPlace op tile w) s t) (row : i < wf w 112 20) : rowIndex tile w t i = rowIndex tile w s i := by
  refine touches.readN (nearEnd_le_tileAddr _ _) fun k less place => apart_within (tile := tile) apart ?_ place
  unfold tileAddr
  exact ⟨by omega, by omega⟩

include listed

/-- All indices below LIMIT: every row moves, in order. -/
theorem gatherRows_of_below {l : List Nat} (rows : ∀ i ∈ l, i < wf w 112 20) (below : ∀ i ∈ l, rowIndex tile w s i < wf w 132 20) :
    gatherRows tile op w l s = (true, l.foldl (rowStep tile op w) s) := by
  induction l generalizing s with
  | nil => rfl
  | cons i r ih =>
    have index := below i (.head _)
    have step := rowStep_place (s := s) listed (rows i (.head _)) index
    rw [gatherRows_cons, if_neg (Nat.not_le.2 index)]
    refine ih (fun k mem => rows k (.tail _ mem)) fun k mem => ?_
    rw [rowIndex_stays apart step (rows k (.tail _ mem))]
    exact below k (.tail _ mem)

/-- The first index at or beyond LIMIT stops the move. -/
theorem gatherRows_of_beyond {k : Nat} (row : k < wf w 112 20) (beyond : wf w 132 20 ≤ rowIndex tile w s k) (below : ∀ i < k, rowIndex tile w s i < wf w 132 20) :
    gatherRows tile op w (List.range (wf w 112 20)) s = (false, (gatherRows tile op w (List.range k) s).2) := by
  have rows : ∀ i ∈ List.range k, i < wf w 112 20 := fun i mem => (List.mem_range.1 mem).trans row
  have before := gatherRows_of_below listed apart rows fun i mem => below i (List.mem_range.1 mem)
  rw [range_split row, gatherRows_append _ _ _ (congrArg Prod.fst before), gatherRows_cons, if_pos]
  rw [rowIndex_stays apart (gatherRows_touches listed rows) row]
  exact beyond

theorem gatherRows_all : (gatherRows tile op w (List.range (wf w 112 20)) s).1 = true ↔ ∀ i < wf w 112 20, rowIndex tile w s i < wf w 132 20 := by
  refine ⟨fun all => ?_, fun below => ?_⟩
  · by_contra no
    push Not at no
    have some_ : ∃ k, k < wf w 112 20 ∧ wf w 132 20 ≤ rowIndex tile w s k := by simpa using no
    classical
    obtain ⟨row, beyond⟩ := Nat.find_spec some_
    rw [gatherRows_of_beyond listed apart row beyond fun i less => ?_] at all
    · exact nomatch all
    · have first := Nat.find_min some_ less
      by_contra above
      exact first ⟨less.trans row, Nat.le_of_not_lt above⟩
  · rw [gatherRows_of_below listed apart (fun i mem => List.mem_range.1 mem) fun i mem => below i (List.mem_range.1 mem)]

/-- Every byte outside the rows written stays. -/
theorem rows_touches {l : List Nat} (rows : ∀ i ∈ l, i < wf w 112 20) (below : ∀ i ∈ l, rowIndex tile w s i < wf w 132 20) :
    Touches (fun a => ∃ i ∈ l, Within (dstRow tile w (rowTarget op i (rowIndex tile w s i))) (rowLen w) a) s (l.foldl (rowStep tile op w) s) := by
  have both := foldl_holds (f := rowStep tile op w) (xs := l) (s := s)
    (I := fun u => Touches (RowsPlace op tile w) s u ∧
      Touches (fun a => ∃ i ∈ l, Within (dstRow tile w (rowTarget op i (rowIndex tile w s i))) (rowLen w) a) s u) ⟨.refl s, .refl s⟩
    fun i mem u ⟨wide, exact_⟩ => ?_
  · exact both.2
  · have index := rowIndex_stays apart wide (rows i mem)
    refine ⟨wide.trans (rowStep_place listed (rows i mem) (by rw [index]; exact below i mem)), exact_.trans ((rowStep_touches listed).mono fun a inside => ?_)⟩
    rw [index] at inside
    exact ⟨i, mem, inside⟩

end

/-! ### What the rows hold -/

theorem rows_apart {r q a : Nat} (other : r ≠ q) (inside : Within (dstRow tile w r) (rowLen w) a) : ¬Within (dstRow tile w q) (rowLen w) a := by
  rintro ⟨lowQ, highQ⟩
  obtain ⟨lowR, highR⟩ := inside
  unfold dstRow at lowQ highQ lowR highR
  rcases Nat.lt_or_gt_of_ne other with before | after
  · have rows := Nat.mul_le_mul_right (rowLen w) (show r + 1 ≤ q from before)
    rw [Nat.add_mul, Nat.one_mul] at rows
    omega
  · have rows := Nat.mul_le_mul_right (rowLen w) (show q + 1 ≤ r from after)
    rw [Nat.add_mul, Nat.one_mul] at rows
    omega

/-- Rows of the source. -/
def srcRows (op : Nat) (w : MoveWord) : Nat := if op = 0x25 then wf w 132 20 else wf w 112 20

section
variable (sources : Apart (wf w 64 16 * 128) (srcRows op w * rowLen w) (wf w 80 16 * 128) (dstRows op w * rowLen w))
include sources

/-- Source bytes stay. -/
theorem srcBytes_stay (touches : Touches (RowsPlace op tile w) s t) {r n k : Nat} (row : r < srcRows op w) (inside : k + n ≤ rowLen w) :
    readBytes t (srcRow tile w r + k) n = readBytes s (srcRow tile w r + k) n := by
  refine touches.readBytes (far_add (far_srcRow r) k) fun x less place => apart_within (tile := tile) sources (row_within row ⟨?_, ?_⟩) place
  · unfold srcRow
    omega
  · unfold srcRow
    omega

/-- GATHER and SCATTER: a row that no later row overwrites is the source row. -/
theorem rows_copied (copies : op = 0x25 ∨ op = 0x26) (hs : Inv s) (apart : Apart (wf w 96 16 * 128) (4 * wf w 112 20) (wf w 80 16 * 128) (dstRows op w * rowLen w))
    (below : ∀ i < wf w 112 20, rowIndex tile w s i < wf w 132 20) {i : Nat} (row : i < wf w 112 20)
    (last : ∀ j, i < j → j < wf w 112 20 → rowTarget op j (rowIndex tile w s j) ≠ rowTarget op i (rowIndex tile w s i)) :
    readBytes ((List.range (wf w 112 20)).foldl (rowStep tile op w) s) (dstRow tile w (rowTarget op i (rowIndex tile w s i))) (rowLen w) =
      readBytes s (srcRow tile w (if op = 0x25 then rowIndex tile w s i else i)) (rowLen w) := by
  have listed : op ∈ [0x25, 0x26, 0x27] := by rcases copies with rfl | rfl <;> decide
  have place (j : Nat) (less : j < wf w 112 20) (u : State) (touches : Touches (RowsPlace op tile w) s u) : Touches (RowsPlace op tile w) s (rowStep tile op w u j) :=
    touches.trans (rowStep_place listed less (by rw [rowIndex_stays apart touches less]; exact below j less))
  rw [range_split row, List.foldl_append, List.foldl_cons]
  have before : Touches (RowsPlace op tile w) s ((List.range i).foldl (rowStep tile op w) s) :=
    foldl_holds (I := Touches (RowsPlace op tile w) s) (.refl s) fun j mem u touches => place j ((List.mem_range.1 mem).trans row) u touches
  generalize (List.range i).foldl (rowStep tile op w) s = u at before
  have index := rowIndex_stays apart before row
  have source : (if op = 0x25 then rowIndex tile w s i else i) < srcRows op w := by
    unfold srcRows
    split
    · exact below i row
    · exact row
  have wrote : readBytes (rowStep tile op w u i) (dstRow tile w (rowTarget op i (rowIndex tile w s i))) (rowLen w) =
      readBytes s (srcRow tile w (if op = 0x25 then rowIndex tile w s i else i)) (rowLen w) := by
    have read (r d : Nat) : readBytes (writeBytes (dstRow tile w d) (readBytes u (srcRow tile w r) (rowLen w)) u) (dstRow tile w d) (rowLen w) =
        readBytes u (srcRow tile w r) (rowLen w) := by
      have self := readBytes_writeBytes_self (readBytes u (srcRow tile w r) (rowLen w)) (before.form hs) (far_dstRow (tile := tile) (w := w) d)
      rwa [readBytes_length] at self
    have kept := srcBytes_stay (n := rowLen w) (k := 0) sources before source (by omega)
    rw [Nat.add_zero] at kept
    rw [← kept]
    rcases copies with rfl | rfl
    · rw [← index]
      exact read _ _
    · rw [← index]
      exact read _ _
  have both := foldl_holds (f := rowStep tile op w) (xs := List.range' (i + 1) (wf w 112 20 - (i + 1))) (s := rowStep tile op w u i)
    (I := fun v => Touches (RowsPlace op tile w) s v ∧ readBytes v (dstRow tile w (rowTarget op i (rowIndex tile w s i))) (rowLen w) =
      readBytes s (srcRow tile w (if op = 0x25 then rowIndex tile w s i else i)) (rowLen w)) ⟨place i row u before, wrote⟩ fun j mem v ⟨touches, holds⟩ => ?_
  · exact both.2
  · have later := List.mem_range'_1.1 mem
    have less : j < wf w 112 20 := by omega
    refine ⟨place j less v touches, Eq.trans ?_ holds⟩
    refine (rowStep_touches listed).readBytes (far_dstRow _) fun k inside reached => ?_
    rw [rowIndex_stays apart touches less] at reached
    exact rows_apart (last j (by omega) less).symm ⟨Nat.le_add_right _ _, Nat.add_lt_add_left inside _⟩ reached

end

end

end Sys2Proof.Machine
end

section
/-! SUPPORT. SCATTER_ADD's sums; RowsMove (R167). -/

namespace Sys2Proof.Machine

section
variable {tile : Nat} {w : MoveWord} {s t u : State} {i : Nat}

/-! ### Sums -/

/-- A FP32 element of a row. -/
def elemAt (s : State) (a k : Nat) : W32 := BitVec.ofNat 32 (readN s (a + 4 * k) 4)

theorem addElem_self (hs : Inv s) (i ix k : Nat) : elemAt (addElem tile w i ix s k) (dstRow tile w ix) k =
    add32 (elemAt s (dstRow tile w ix) k) (elemAt s (srcRow tile w i) k) := by
  unfold elemAt addElem
  rw [readN_writeWord_self hs (far_add (far_dstRow ix) _), BitVec.ofNat_toNat, BitVec.setWidth_eq]

theorem addElem_ne {i ix k r n : Nat} (inside : n < rowLen w / 4) (insideK : k < rowLen w / 4) (other : r ≠ ix ∨ n ≠ k) :
    elemAt (addElem tile w i ix s k) (dstRow tile w r) n = elemAt s (dstRow tile w r) n := by
  unfold elemAt
  refine congrArg (BitVec.ofNat 32) ((touches_writeN (far_add (far_dstRow ix) (4 * k)) 4 _ s).readN (far_add (far_dstRow r) _) fun x less reached => ?_)
  obtain ⟨low, high⟩ := reached
  by_cases row : r = ix
  · subst row
    rcases other with no | col
    · exact no rfl
    · omega
  · have here : Within (dstRow tile w r) (rowLen w) (dstRow tile w r + 4 * n + x) := ⟨by omega, by omega⟩
    have there : Within (dstRow tile w ix) (rowLen w) (dstRow tile w r + 4 * n + x) := ⟨by omega, by omega⟩
    exact rows_apart row here there

theorem srcRows_added (w : MoveWord) : srcRows 0x27 w = wf w 112 20 := if_neg (by decide)

theorem dstRows_added (w : MoveWord) : dstRows 0x27 w = wf w 132 20 := if_neg (by decide)

/-- Added elements lie in the destination. -/
theorem elems_place {ix : Nat} (index : ix < wf w 132 20) {c : Nat} (few : c ≤ rowLen w / 4) :
    Touches (RowsPlace 0x27 tile w) s ((List.range c).foldl (addElem tile w i ix) s) := by
  refine Touches.fold (.refl s) fun u k mem => (addElem_touches ((List.mem_range.1 mem).trans_le few)).mono fun a place => ?_
  exact row_within (by rw [dstRows_added]; exact index) place

section
variable (sources : Apart (wf w 64 16 * 128) (srcRows 0x27 w * rowLen w) (wf w 80 16 * 128) (dstRows 0x27 w * rowLen w))
include sources

theorem srcElem_stays (touches : Touches (RowsPlace 0x27 tile w) s t) (row : i < wf w 112 20) {k : Nat} (inside : k < rowLen w / 4) :
    elemAt t (srcRow tile w i) k = elemAt s (srcRow tile w i) k := by
  have bytes := srcBytes_stay sources touches (r := i) (k := 4 * k) (n := 4) (by rw [srcRows_added]; exact row) (by omega)
  exact congrArg (fun b => BitVec.ofNat 32 (ofLE b)) bytes

/-- Elements of one row, added in order. -/
theorem addElems (hs : Inv s) (row : i < wf w 112 20) {ix : Nat} (index : ix < wf w 132 20) {c : Nat} (few : c ≤ rowLen w / 4) {r n : Nat} (inside : n < rowLen w / 4) :
    elemAt ((List.range c).foldl (addElem tile w i ix) s) (dstRow tile w r) n =
      if r = ix ∧ n < c then add32 (elemAt s (dstRow tile w r) n) (elemAt s (srcRow tile w i) n) else elemAt s (dstRow tile w r) n := by
  induction c with
  | zero =>
    rw [if_neg fun no => Nat.not_lt_zero _ no.2]
    rfl
  | succ c ih =>
    have before := ih (by omega)
    have touches := elems_place (s := s) (tile := tile) (i := i) index (c := c) (by omega)
    rw [List.range_succ, List.foldl_append, List.foldl_cons, List.foldl_nil]
    by_cases here : r = ix ∧ n = c
    · obtain ⟨rfl, rfl⟩ := here
      rw [addElem_self (touches.form hs), before, if_neg (by omega), if_pos ⟨rfl, Nat.lt_succ_self _⟩, srcElem_stays sources touches row inside]
    · rw [addElem_ne inside (by omega) (by omega), before]
      refine if_congr ?_ rfl rfl
      omega

/-- SCATTER_ADD: each destination element is what the source rows of its index add up to, in order. -/
theorem rows_added (hs : Inv s) (apart : Apart (wf w 96 16 * 128) (4 * wf w 112 20) (wf w 80 16 * 128) (dstRows 0x27 w * rowLen w))
    (below : ∀ i < wf w 112 20, rowIndex tile w s i < wf w 132 20) {c : Nat} (few : c ≤ wf w 112 20) {r n : Nat} (inside : n < rowLen w / 4) :
    elemAt ((List.range c).foldl (rowStep tile 0x27 w) s) (dstRow tile w r) n =
      ((List.range c).filter fun i => rowIndex tile w s i == r).foldl (fun a i => add32 a (elemAt s (srcRow tile w i) n)) (elemAt s (dstRow tile w r) n) := by
  induction c with
  | zero => rfl
  | succ c ih =>
    have before := ih (by omega)
    have touches : Touches (RowsPlace 0x27 tile w) s ((List.range c).foldl (rowStep tile 0x27 w) s) := by
      refine foldl_holds (I := Touches (RowsPlace 0x27 tile w) s) (.refl s) fun j mem u touches => ?_
      have less := (List.mem_range.1 mem).trans_le (show c ≤ wf w 112 20 by omega)
      exact touches.trans (rowStep_place (by decide) less (by rw [rowIndex_stays apart touches less]; exact below j less))
    rw [List.range_succ, List.foldl_append, List.filter_append]
    change elemAt (rowStep tile 0x27 w ((List.range c).foldl (rowStep tile 0x27 w) s) c) _ _ = _
    generalize (List.range c).foldl (rowStep tile 0x27 w) s = u at before touches
    have row : c < wf w 112 20 := few
    have index := rowIndex_stays apart touches row
    change elemAt ((List.range (rowLen w / 4)).foldl (addElem tile w c (rowIndex tile w u c)) u) _ _ = _
    rw [addElems sources (touches.form hs) row (by rw [index]; exact below c row) le_rfl inside, index, before, srcElem_stays sources touches row inside]
    by_cases here : rowIndex tile w s c = r
    · rw [if_pos ⟨here.symm, inside⟩, List.filter_cons_of_pos (by simpa using here), List.filter_nil, List.foldl_append]
      rfl
    · rw [if_neg fun both => here both.1.symm, List.filter_cons_of_neg (by simpa using here), List.filter_nil, List.append_nil]

end

/-! ### The claim -/

theorem rowsMove : Claim.RowsMove := by
  intro op tile w s listed form n cnt lim src dst tbl ix srcN dstN r elem
  have wide := gatherRows_touches (s := s) (tile := tile) (w := w) listed fun i (mem : i ∈ List.range (wf w 112 20)) => List.mem_range.1 mem
  have inDst : dstN = dstRows op w * rowLen w := rfl
  have place (x : Nat) : tileAddr tile (dst + x * n) = dstRow tile w x := (Nat.add_assoc _ _ _).symm
  have source (x : Nat) : tileAddr tile (src + x * n) = srcRow tile w x := (Nat.add_assoc _ _ _).symm
  refine ⟨?_, gatherRows_mem _ _, fun sources apart => ⟨gatherRows_all listed apart, fun k row beyond below => ?_, fun all => ?_⟩⟩
  · refine wide.keeps (fun y mem => ?_) fun a inside => ⟨_, .head _, inside⟩
    rw [List.mem_singleton.1 mem]
    exact nearEnd_le_tileAddr _ _
  · change (gatherRows tile op w (List.range cnt) s).2 = _
    rw [gatherRows_of_beyond (tile := tile) listed apart row beyond below]
  · have below := (gatherRows_all listed apart).1 all
    have moved : r.2 = (List.range (wf w 112 20)).foldl (rowStep tile op w) s :=
      congrArg Prod.snd (gatherRows_of_below listed apart (fun i mem => List.mem_range.1 mem) fun i mem => below i (List.mem_range.1 mem))
    rw [moved]
    refine ⟨?_, fun gather i row => ?_, fun scatter i row last => ?_, fun add x index k inside => ?_⟩
    · refine (rows_touches listed apart (fun i mem => List.mem_range.1 mem) fun i mem => below i (List.mem_range.1 mem)).keeps (fun y mem => ?_) fun a reached => ?_
      · obtain ⟨i, -, rfl⟩ := List.mem_map.1 mem
        exact nearEnd_le_tileAddr _ _
      · obtain ⟨i, mem, within⟩ := reached
        refine ⟨_, List.mem_map_of_mem mem, ?_⟩
        dsimp only
        rw [place]
        exact within
    · subst gather
      have copied := rows_copied sources (.inl rfl) form apart below row fun j later _ => (show j ≠ i by omega)
      rw [place, source]
      exact copied
    · subst scatter
      have copied := rows_copied sources (.inr rfl) form apart below row last
      rw [place, source]
      exact copied
    · subst add
      have added := rows_added (r := x) sources form apart below le_rfl inside
      have at_ (t : State) : elem t dst x k = elemAt t (dstRow tile w x) k := by
        change BitVec.ofNat 32 (readN t (tileAddr tile (dst + x * n + 4 * k)) 4) = _
        rw [show tileAddr tile (dst + x * n + 4 * k) = tileAddr tile (dst + x * n) + 4 * k from (Nat.add_assoc _ _ _).symm, place]
        rfl
      have from_ (i : Nat) : elem s src i k = elemAt s (srcRow tile w i) k := by
        change BitVec.ofNat 32 (readN s (tileAddr tile (src + i * n + 4 * k)) 4) = _
        rw [show tileAddr tile (src + i * n + 4 * k) = tileAddr tile (src + i * n) + 4 * k from (Nat.add_assoc _ _ _).symm, source]
        rfl
      rw [at_, at_, added]
      simp only [from_]
      rfl

end

end Sys2Proof.Machine
end

section
/-! SUPPORT. What the start of a move answers, and its checks in order; GATHER, SCATTER and SCATTER_ADD at the head of an empty PLY queue (R167, R568). -/

namespace Sys2Proof.Machine

section
variable {c : Instr} {p : Play} {tile code : Nat} {m m₁ : QMove} {s s₂ u : State} {st : BitVec 16}

/-! ### A move where it starts -/

theorem Starts.of_head (h : AtHead c p tile code m s s₂) (engine : code ≠ 1) : Starts c p tile code m s s₂ := by
  unfold Starts
  rwa [if_neg engine]

theorem Starts.answers (h : Starts c p tile code m s s₂) : StartedAs c p tile code m s s₂ (startAny p tile code m s₂) := idleQueueStartsMove c p tile code m s s₂ h

theorem Starts.live (h : Starts c p tile code m s s₂) : getPlay s₂ p.order = some p ∧ p.live = true := by
  unfold Starts at h
  split at h
  · obtain ⟨x, head⟩ := h.head
    exact ⟨head.play, head.live⟩
  · exact ⟨h.play, h.live⟩

/-- The row of a move that starts says its opcode and its fault. -/
theorem Starts.row (h : Starts c p tile code m s s₂) {o l : Nat} {f : MoveFault} (row : moveRow c = some (o, l, f)) : opOf m.word = o ∧ m.fault = f := by
  unfold Starts at h
  split at h
  · obtain ⟨p₀, m₀, s₁, atHead, -, -, -, rfl, -⟩ := h
    exact atHead.row row
  · exact h.row row

theorem Starts.queue (h : Starts c p tile code m s s₂) : ∃ x k, getQueue p tile code = some x ∧ x.moves = [k] := by
  unfold Starts at h
  split at h
  next arr =>
    obtain ⟨x, head⟩ := h.head
    subst arr
    exact ⟨x, m, head.queue, head.only⟩
  next engine =>
    obtain ⟨x, m₀, head⟩ := h.head
    exact ⟨x, m₀, head.queue, head.only⟩

/-- A move that runs stands at the head of its queue; nothing but its play changes from where its start left the module. -/
theorem Starts.runs (h : Starts c p tile code m s s₂) (any : startAny p tile code m s₂ = .run m₁ u) (started : m₁.started = true) (plays : u.plays = s₂.plays) :
    ∃ t, exec c s = .next t ∧ RunsAtHead t p.order tile code ∧ OnlyChanges [.plays] u t := by
  have answered := h.answers
  rw [any] at answered
  obtain ⟨x, k, queue, only⟩ := h.queue
  have play : getPlay u p.order = some p := (getPlay_of_plays plays p.order).trans h.live.1
  have put : RunsAtHead (putMove p.order tile code 0 m₁ u) p.order tile code := by
    refine ⟨_, _, m₁, [], ?_, putFirst_queue queue only m₁, rfl, started⟩
    rw [putMove_first play]
    exact getPlay_setPlay (q := p.putFirst tile code m₁) play
  exact ⟨_, answered, ((put.addDests _).noteStart _ _ _).noteAll, applied_frame p tile code m m₁ u s₂⟩

/-- A check that fails, having written memory or not, ends the play at the move. -/
theorem Starts.fails_from (h : Starts c p tile code m s s₂) (start : startAny p tile code m s₂ = .fail st u) (plays : u.plays = s₂.plays) :
    ∃ t y, exec c s = .next t ∧ getPlay t p.order = some y ∧ y.fail = some (moveFailure st m tile) ∧ (∀ z ∈ y.seqs, z.stopped = true) ∧
      y.dests = p.dests ++ failDests p tile m st s₂ u ∧ OnlyChanges [.plays] u t := by
  have answered := h.answers
  rw [start] at answered
  replace answered : exec c s = .next (failPlay p.order (moveFailure st m tile) (addDests p.order (failDests p tile m st s₂ u) u)) := answered
  generalize failDests p tile m st s₂ u = l at answered ⊢
  obtain ⟨play, live⟩ := h.live
  replace play : getPlay u p.order = some p := (getPlay_of_plays plays p.order).trans play
  have noted : addDests p.order l u = setPlay { p with dests := p.dests ++ l } u := by
    unfold addDests
    rw [play]
  have held : getPlay (setPlay { p with dests := p.dests ++ l } u) p.order = some { p with dests := p.dests ++ l } :=
    getPlay_setPlay (q := { p with dests := p.dests ++ l }) play
  have ended := failPlay_of_live (p := { p with dests := p.dests ++ l }) held live (moveFailure st m tile)
  rw [noted] at answered
  refine ⟨_, { stopPlay { p with dests := p.dests ++ l } with fail := some (moveFailure st m tile) }, answered.trans (congrArg _ ended),
    getPlay_setPlay (q := { stopPlay { p with dests := p.dests ++ l } with fail := some (moveFailure st m tile) }) held, rfl, fun z mem => ?_, rfl,
    (setPlay_frame _ _).step (setPlay_frame _ _) (by decide)⟩
  obtain ⟨q, -, rfl⟩ := List.mem_map.1 mem
  rfl

/-- A check that fails before anything was written. -/
theorem Starts.fails (h : Starts c p tile code m s s₂) (start : startMoveOf p tile code m s₂ = .fail st s₂) : FailsWith c p tile m st s s₂ := by
  obtain ⟨t, y, ran, found, fail, stopped, -, rest⟩ := h.fails_from (startAny_fail start) rfl
  exact ⟨t, y, ran, found, fail, stopped, rest⟩

/-- A start that meets a fault masks its play, and nothing else changes from there. -/
theorem play_faulted {k : Nat} {l : List (Nat × Nat × Nat × Option Nat)} (play : getPlay u p.order = some p) (live : p.live = true)
    (runs : exec c s = .next (faultPlay p.order k (faultOf m tile) (addDests p.order l u))) :
    ∃ t y, exec c s = .next t ∧ getPlay t p.order = some y ∧ y.faulted = some k ∧ y.faultAt = (wf m.word 17 15, m.idx, tile) ∧
      (∀ z ∈ y.seqs, z.stopped = true) ∧ OnlyChanges [.plays] u t := by
  have noted : addDests p.order l u = setPlay { p with dests := p.dests ++ l } u := by
    unfold addDests
    rw [play]
  have held : getPlay (setPlay { p with dests := p.dests ++ l } u) p.order = some { p with dests := p.dests ++ l } :=
    getPlay_setPlay (q := { p with dests := p.dests ++ l }) play
  have masked := faultPlay_of_live (p := { p with dests := p.dests ++ l }) held live k (faultOf m tile)
  rw [noted] at runs
  refine ⟨_, { stopPlay { p with dests := p.dests ++ l } with faulted := some k, faultAt := faultOf m tile }, runs.trans (congrArg _ masked),
    getPlay_setPlay (q := { stopPlay { p with dests := p.dests ++ l } with faulted := some k, faultAt := faultOf m tile }) held, rfl, rfl, stopPlay_stopped,
    (setPlay_frame _ u).step (setPlay_frame _ _) (by decide)⟩

theorem Starts.faults_from (h : Starts c p tile code m s s₂) {k : Nat} (start : startAny p tile code m s₂ = .fault k u) (plays : u.plays = s₂.plays) :
    ∃ t y, exec c s = .next t ∧ getPlay t p.order = some y ∧ y.faulted = some k ∧ y.faultAt = (wf m.word 17 15, m.idx, tile) ∧
      (∀ z ∈ y.seqs, z.stopped = true) ∧ OnlyChanges [.plays] u t := by
  have answered := h.answers
  rw [start] at answered
  obtain ⟨play, live⟩ := h.live
  exact play_faulted ((getPlay_of_plays plays p.order).trans play) live answered

/-- A start that meets a fault, and what it recorded of it. -/
theorem Starts.faults (h : Starts c p tile code m s s₂) {k : Nat} {l : List Part} (start : startAny p tile code m s₂ = .fault k u) (frame : OnlyChanges l s₂ u)
    (away : Part.plays ∉ l) : FaultsWith c p tile m k l s s₂ := by
  obtain ⟨t, y, ran, found, faulted, place, stopped, rest⟩ := h.faults_from start (frame .plays away)
  exact ⟨t, y, ran, found, faulted, place, stopped, (frame.mono fun _ mem => .tail _ mem).step rest fun _ mem => List.mem_singleton.1 mem ▸ .head _⟩

/-- A move that waits waits whatever fault it would meet. -/
theorem startAny_hold (start : startMoveOf p tile code m s = .hold) : startAny p tile code m s = .hold := by
  have lane : laneStart p tile m s (startMoveOf p tile code m s) = .hold := by
    rw [start]
    unfold laneStart
    dsimp only
    split <;> trivial
  unfold startAny parityStart
  dsimp only
  rw [lane]
  cases m.fault <;> rfl

/-- A move that must wait changes nothing. -/
theorem Starts.waits (h : Starts c p tile code m s s₂) (start : startMoveOf p tile code m s₂ = .hold) : exec c s = .next s₂ := by
  have answered := h.answers
  rw [startAny_hold start] at answered
  exact answered

/-! ### Checks in order -/

/-- A start whose word, formats, headers and extents are checked in that order. -/
def checkedStart (enc pair : Bool) (heads : Option (BitVec 16)) (fits : Bool) (s : State) (go : Start) : Start :=
  if !enc then .fail Status.moveField s else if pair then .fail Status.fmtPair s
  else heads.elim (if !fits then .fail Status.addrRange s else go) fun st => .fail st s

/-- What each failing check of a start does, and that it goes on past the last. -/
theorem Starts.checked (h : Starts c p tile code m s s₂) {enc pair fits : Bool} {heads : Option (BitVec 16)} {go : Start}
    (start : encCommon m.word = true → startMoveOf p tile code m s₂ = checkedStart enc pair heads fits s₂ go) :
    ((encCommon m.word && enc) = false → FailsWith c p tile m Status.moveField s s₂) ∧
    ((encCommon m.word && enc) = true → pair = true → FailsWith c p tile m Status.fmtPair s s₂) ∧
    (∀ st, (encCommon m.word && enc) = true → pair = false → heads = some st → FailsWith c p tile m st s s₂) ∧
    ((encCommon m.word && enc) = true → pair = false → heads = none → fits = false → FailsWith c p tile m Status.addrRange s s₂) ∧
    ((encCommon m.word && enc) = true → pair = false → heads = none → fits = true → startMoveOf p tile code m s₂ = go) := by
  have first (formed : (encCommon m.word && enc) = true) : startMoveOf p tile code m s₂ = if pair then .fail Status.fmtPair s₂
      else heads.elim (if !fits then .fail Status.addrRange s₂ else go) fun st => .fail st s₂ := by
    obtain ⟨common, is⟩ := Bool.and_eq_true_iff.1 formed
    exact (start common).trans (if_neg (by rw [is]; decide))
  refine ⟨fun bad => ?_, fun formed scaled => ?_, fun st formed plain found => ?_, fun formed plain right out => ?_, fun formed plain right ok => ?_⟩
  · refine h.fails (startMoveOf_bad (start := fun s => checkedStart enc pair heads fits s go) bad start fun no => ?_)
    exact if_pos (by rw [no]; rfl)
  · exact h.fails ((first formed).trans (if_pos scaled))
  · refine h.fails ((first formed).trans ?_)
    rw [plain, found]
    rfl
  · refine h.fails ((first formed).trans ?_)
    rw [plain, right, out]
    rfl
  · rw [first formed, plain, right, ok]
    rfl

end

/-! ### The claim -/

section
variable {p : Play} {tile op : Nat} {m : QMove} {s s₂ : State}

theorem startMoveOf_gather (common : encCommon m.word = true) (listed : op ∈ [0x25, 0x26, 0x27]) (is : opOf m.word = op) (s : State) :
    startMoveOf p tile 2 m s = startGather p tile op m s := by
  refine (if_neg (by rw [common]; decide)).trans ?_
  generalize opOf m.word = o at is
  subst is
  simp only [List.mem_cons, List.not_mem_nil, or_false] at listed
  rcases listed with rfl | rfl | rfl <;> rfl

/-- The extents of GATHER, SCATTER and SCATTER_ADD lie in the store. -/
def gatherFits (s : State) (p : Play) (tile op : Nat) (w : MoveWord) : Bool :=
  storeOk s p tile (wf w 64 16 * 128) ((if op = 0x25 then wf w 132 20 else wf w 112 20) * (wf w 152 12 * 128)) &&
    storeOk s p tile (wf w 80 16 * 128) ((if op = 0x25 then wf w 112 20 else wf w 132 20) * (wf w 152 12 * 128)) &&
    storeOk s p tile (wf w 96 16 * 128) (4 * wf w 112 20)

/-- What GATHER, SCATTER and SCATTER_ADD answer past their checks. -/
def gatherGo (tile op : Nat) (m : QMove) (s : State) : Start :=
  if (gatherRows tile op m.word (List.range (wf m.word 112 20)) s).1 then
    .run { m with started := true } (gatherRows tile op m.word (List.range (wf m.word 112 20)) s).2
  else .fail Status.indexRange (gatherRows tile op m.word (List.range (wf m.word 112 20)) s).2

theorem startGather_checked (p : Play) (tile op : Nat) (m : QMove) (s : State) : startGather p tile op m s =
    checkedStart (encGather op m.word) (fmtScaleField (wf m.word 164 4)) (operandCheck s [(tileAddr tile (wf m.word 64 16 * 128), wf m.word 164 4, 1)])
      (gatherFits s p tile op m.word) s (gatherGo tile op m s) := by
  unfold startGather checkedStart gatherFits gatherGo
  extract_lets w n cnt lim
  generalize gatherRows tile op w (List.range cnt) s = r
  obtain ⟨ok, t⟩ := r
  refine congrArg (fun r => ite _ _ (ite _ _ r)) ?_
  cases operandCheck s [(tileAddr tile (wf m.word 64 16 * 128), wf m.word 164 4, 1)] <;> rfl

/-- The lane fault that a row move's row carries: GATHER and SCATTER compute nothing in the lanes. -/
def rowLane (op : Nat) (l : LaneFault) : LaneFault := if op = 0x27 then l else .none

theorem gather_any {l : LaneFault} {c : Instr} {m₁ : QMove} {u : State} (row : (op, c) ∈ [(0x25, Instr.gather tile), (0x26, .scatter tile), (0x27, .scatterAdd tile l)])
    (h : AtHead c p tile 2 m s s₂) (mild : op = 0x27 → l = .none ∨ l = .once) (start : startMoveOf p tile 2 m s₂ = .run m₁ u) :
    startAny p tile 2 m s₂ = .run m₁ (laneLeft p tile (rowLane op l) s₂ u) := by
  have none_ {l : LaneFault} (is : l = .none) : laneLeft p tile l s₂ u = u := if_neg (by rw [is]; decide)
  simp only [List.mem_cons, Prod.mk.injEq, List.not_mem_nil, or_false] at row
  rcases row with ⟨rfl, rfl⟩ | ⟨rfl, rfl⟩ | ⟨rfl, rfl⟩
  · rw [startAny_plain (h.row rfl).2, start, none_ (l := rowLane 0x25 l) rfl]
  · rw [startAny_plain (h.row rfl).2, start, none_ (l := rowLane 0x26 l) rfl]
  · obtain ⟨is, fault⟩ := h.row rfl
    exact startAny_lane fault (mild rfl) (by rw [is]; decide) start

theorem gather_row {l : LaneFault} {c : Instr} (row : (op, c) ∈ [(0x25, Instr.gather tile), (0x26, .scatter tile), (0x27, .scatterAdd tile l)])
    (h : AtHead c p tile 2 m s s₂) : op ∈ [0x25, 0x26, 0x27] ∧ opOf m.word = op := by
  simp only [List.mem_cons, Prod.mk.injEq, List.not_mem_nil, or_false] at row
  rcases row with ⟨rfl, rfl⟩ | ⟨rfl, rfl⟩ | ⟨rfl, rfl⟩
  · exact ⟨by decide, (h.row rfl).1⟩
  · exact ⟨by decide, (h.row rfl).1⟩
  · exact ⟨by decide, (h.row rfl).1⟩

theorem gatherScatterRun : Claim.GatherScatterRun := by
  intro l op c p tile m s s₂ row atHead w n cnt lim formed pair heads fits r
  obtain ⟨x, m₀, h⟩ := atHead.head
  obtain ⟨listed, is⟩ := gather_row row atHead
  have starts := Starts.of_head atHead (by decide)
  obtain ⟨bad, scaled, headed, outside, goes⟩ := starts.checked
    fun common => (startMoveOf_gather common listed is s₂).trans (startGather_checked p tile op m s₂)
  have wrote : OnlyChanges [.mem] s₂ r.2 := gatherRows_mem (List.range cnt) s₂
  refine ⟨bad, scaled, headed, outside, fun is plain right ok beyond => ?_, fun is plain right ok all mild => ?_⟩
  · have start : startMoveOf p tile 2 m s₂ = .fail Status.indexRange r.2 := (goes is plain right ok).trans (if_neg (by rw [beyond]; decide))
    obtain ⟨t, y, ran, found, fail, stopped, dests, rest⟩ := starts.fails_from (startAny_fail start) (wrote .plays (by decide))
    have none_ : failDests p tile m Status.indexRange s₂ r.2 = [] := if_neg (by decide)
    exact ⟨t, y, ran, found, fail, stopped, by rw [dests, none_, List.append_nil], rest .mem (by decide), (wrote.mono (by decide)).step rest (by decide)⟩
  · have start : startMoveOf p tile 2 m s₂ = .run { m with started := true } r.2 := (goes is plain right ok).trans (if_pos all)
    obtain ⟨t, runs, head, masked, rest⟩ := h.runs_lane (m₁ := { m with started := true }) (by decide) atHead.fresh.2 rfl (gather_any row atHead mild start) wrote (by decide)
    exact ⟨t, runs, head, rest .mem (by decide), (wrote.mono (by decide)).step rest (by decide), masked⟩

end

end Sys2Proof.Machine
end

section
/-! SUPPORT. Padding reads +0 (R98); the lines that COPY copies (R200). -/

namespace Sys2Proof.Machine

section
variable {s t u : State} {base c i j : Nat}

/-! ### Padding -/

theorem ofLE_zeros {l : List Byte} (zeros : ∀ b ∈ l, b = 0) : ofLE l = 0 := by
  induction l with
  | nil => rfl
  | cons b r ih =>
    have rest := ih fun x mem => zeros x (.tail _ mem)
    rw [zeros b (.head _)]
    change 0 + 256 * ofLE r = 0
    rw [rest]

theorem readN_zeros {a n off k : Nat} (hs : Inv s) (far : nearEnd ≤ a) (inside : off + k ≤ n) :
    readN (writeBytes a (List.replicate n 0) s) (a + off) k = 0 := by
  have whole := readBytes_writeBytes_self (List.replicate n (0 : Byte)) hs far
  obtain ⟨r, rfl⟩ := Nat.exists_eq_add_of_le inside
  rw [List.length_replicate, readBytes_add, readBytes_add] at whole
  refine ofLE_zeros fun b mem => List.eq_of_mem_replicate (n := off + k + r) ?_
  rw [← whole]
  exact List.mem_append_left _ (List.mem_append_right _ mem)

/-- The lines of a square from the first padding line on are +0. -/
theorem padBody_zero {i₀ : Nat} (hs : Inv s) (far : nearEnd ≤ base) (low : i₀ ≤ i) (row : i < 128) : sqBits (padBody base c i₀ s) base c i j = 0 := by
  have far' : nearEnd ≤ base + fmtHdr c + i₀ * 16 * fmtBits c := far_add (far_add far _) _
  have eq : padBody base c i₀ s = writeBytes (base + fmtHdr c + i₀ * 16 * fmtBits c) (List.replicate ((128 - i₀) * 16 * fmtBits c) 0) s := if_neg (Nat.not_lt.2 far')
  have first : base + fmtHdr c + i * 16 * fmtBits c = base + fmtHdr c + i₀ * 16 * fmtBits c + (i - i₀) * (16 * fmtBits c) := by
    rw [Nat.add_assoc (base + fmtHdr c), Nat.mul_assoc, Nat.mul_assoc, ← Nat.add_mul, Nat.add_sub_cancel' low]
  have inside : (i - i₀) * (16 * fmtBits c) + 16 * fmtBits c ≤ (128 - i₀) * 16 * fmtBits c := by
    have rows := Nat.mul_le_mul_right (16 * fmtBits c) (show i - i₀ + 1 ≤ 128 - i₀ by omega)
    rwa [Nat.add_mul, Nat.one_mul, ← Nat.mul_assoc (128 - i₀)] at rows
  rw [sqBits_eq_line, eq, first, readN_zeros hs far' inside, Nat.zero_div, Nat.zero_mod]

theorem padLines_zero {i₀ : Nat} (hs : Inv s) (far : nearEnd ≤ base) (low : i₀ ≤ i) (row : i < 128) : sqBits (padLines base c i₀ s) base c i j = 0 := by
  have body := padBody_zero (j := j) (c := c) hs far low row
  unfold padLines
  dsimp only
  split
  next mx =>
    refine Eq.trans ?_ body
    refine (touches_busWrite (far_add (far_add far 128) _) _ _).sqBits far _ _ _ fun k _ reached => ?_
    rw [List.length_replicate] at reached
    have hdr := fmtHdr_of_mx mx
    obtain ⟨-, high⟩ := reached
    omega
  · exact body

/-- Behind the last of n lines of a run there is padding in the last square alone. -/
theorem padding_square {n k : Nat} (behind : n ≤ k) (inside : k < 128 * sqsOf n) : n % 128 ≠ 0 ∧ k / 128 = n / 128 ∧ n % 128 ≤ k % 128 := by
  unfold sqsOf cdiv at inside
  omega

/-- The padding behind a run's last line reads +0. -/
theorem DestRun.write_pads (d : DestRun) (die : Nat → Nat → W32) (valid : Nat → Nat) {lines : List (List W32)} (hs : Inv s) (far : nearEnd ≤ d.base) {k : Nat}
    (behind : lines.length ≤ k) (inside : k < 128 * sqsOf lines.length) :
    sqBits (d.write die valid lines s) (squareAt d.base d.fmt (k / 128)) d.fmt (k % 128) j = 0 := by
  obtain ⟨part, square, row⟩ := padding_square behind inside
  obtain ⟨amax, -, eq⟩ := d.write_eq die valid s lines
  rw [eq, if_neg part, square]
  exact padLines_zero ((d.heads_touches _ amax far).form (d.body_form die valid s hs)) (far_squareAt far) row (Nat.mod_lt _ (by decide))

end

/-! ### COPY -/

section
variable {a d fmt n k j : Nat} {trans : Bool} {s t u : State}

/-- The bits that COPY puts at element j of line k. -/
def copySource (s : State) (a fmt : Nat) (trans : Bool) (k j : Nat) : Nat :=
  if trans then sqBits s (squareAt a fmt (k / 128)) fmt j (k % 128) else sqBits s (squareAt a fmt (k / 128)) fmt (k % 128) j

/-- What COPY puts beside the elements of a line: header and scale block, or the amax (R200). -/
def copyHead (a d fmt n : Nat) (trans : Bool) (s : State) (k : Nat) : State :=
  let sb := squareAt a fmt (k / 128)
  let db := squareAt d fmt (k / 128)
  let vals := (List.range (min 128 (n - k))).flatMap fun i => (List.range 128).map fun j => if trans then sqElem s sb fmt j i else sqElem s sb fmt i j
  if k % 128 != 0 then s
  else if fmtMx fmt then
    let s := sqWriteDesc db fmt (if trans then 1 - sqAxis s sb else sqAxis s sb) (sqScale s sb) (sqAmax s sb) s
    writeBytes (db + 128) (readBytes s (sb + 128) 512) s
  else if fmtWide fmt then writeN (d + sqsOf n * sqSize fmt + 4 * (k / 128)) 4 (amax32 vals).toNat s
  else s

/-- One line copied. -/
def copyStep (a d fmt n : Nat) (trans : Bool) (s : State) (k : Nat) : State :=
  sqWriteLine (squareAt d fmt (k / 128)) fmt (k % 128) ((List.range 128).map (copySource s a fmt trans k)) (copyHead a d fmt n trans s k)

theorem copyRun_eq (a d fmt n : Nat) (trans : Bool) (s : State) : copyRun a d fmt n trans s =
    if n % 128 = 0 then (List.range n).foldl (copyStep a d fmt n trans) s
    else padBody (squareAt d fmt (n / 128)) fmt (n % 128) ((List.range n).foldl (copyStep a d fmt n trans) s) := rfl

/-- The places beside the elements of a copied line: its square's header, and the amax table. -/
def CopyHead (d fmt n k x : Nat) : Prop :=
  Within (squareAt d fmt (k / 128)) (fmtHdr fmt) x ∨ (fmtWide fmt = true ∧ Within (squareAt d fmt (sqsOf n)) (4 * sqsOf n) x)

/-- The places of a copied line. -/
def CopyPlace (d fmt n k x : Nat) : Prop := Within (lineAt d fmt k) (16 * fmtBits fmt) x ∨ CopyHead d fmt n k x

theorem copyHead_touches (far : nearEnd ≤ d) (less : k < n) : Touches (CopyHead d fmt n k) s (copyHead a d fmt n trans s k) := by
  have far' := far_squareAt (c := fmt) (q := k / 128) far
  unfold copyHead
  dsimp only
  split
  · exact .refl s
  · split
    next mx =>
      have hdr := fmtHdr_of_mx mx
      have desc (axis : Nat) (scale amax : W32) : Touches (CopyHead d fmt n k) s (sqWriteDesc (squareAt d fmt (k / 128)) fmt axis scale amax s) := by
        refine (touches_busWrite far' _ s).mono fun x inside => .inl ?_
        simp only [List.length_append, toLE_length, List.length_replicate] at inside
        obtain ⟨low, high⟩ := inside
        exact ⟨low, by omega⟩
      refine (desc _ _ _).trans ((touches_writeBytes (far_add far' 128) _ _).mono fun x inside => .inl ?_)
      rw [readBytes_length] at inside
      obtain ⟨low, high⟩ := inside
      exact ⟨by omega, by omega⟩
    · split
      next wide =>
        have square := sqsOf_of_lt less
        refine (touches_writeN (far_add (far_add far _) _) 4 _ s).mono fun x inside => .inr ⟨wide, ?_⟩
        obtain ⟨low, high⟩ := inside
        unfold squareAt
        exact ⟨by omega, by omega⟩
      · exact .refl s

theorem copyStep_touches (far : nearEnd ≤ d) (less : k < n) : Touches (CopyPlace d fmt n k) s (copyStep a d fmt n trans s k) :=
  ((copyHead_touches far less).mono fun _ => .inr).trans ((touches_sqWriteLine (far_squareAt far) fmt (k % 128) _ _).mono fun _ => .inl)

theorem copySource_lt (s : State) (a fmt : Nat) (trans : Bool) (k j : Nat) : copySource s a fmt trans k j < 2 ^ fmtBits fmt := by
  unfold copySource
  split <;> exact Nat.mod_lt _ (Nat.two_pow_pos _)

/-- A copied element. -/
theorem copyStep_reads (hs : Inv s) (far : nearEnd ≤ d) (less : k < n) (col : j < 128) :
    sqBits (copyStep a d fmt n trans s k) (squareAt d fmt (k / 128)) fmt (k % 128) j = copySource s a fmt trans k j := by
  have wrote := sqBits_sqWriteLine_self (((copyHead_touches far less).form hs : Inv (copyHead a d fmt n trans s k))) (far_squareAt (c := fmt) (q := k / 128) far) fmt (k % 128)
    ((List.range 128).map (copySource s a fmt trans k)) col
  refine wrote.trans ?_
  rw [List.getD_eq_getElem _ _ (by rw [List.length_map, List.length_range]; exact col), List.getElem_map, List.getElem_range]
  exact Nat.mod_eq_of_lt (copySource_lt _ _ _ _ _ _)

/-- A copied line lies in the destination. -/
theorem copyPlace_within (less : k < n) {x : Nat} (place : CopyPlace d fmt n k x) : Within d (destBytes fmt (sqsOf n)) x := by
  have square := squareAt_mono (base := d) (c := fmt) (show k / 128 + 1 ≤ sqsOf n from sqsOf_of_lt less)
  have start : d ≤ squareAt d fmt (k / 128) := Nat.le_add_right _ _
  have start' : d ≤ squareAt d fmt (sqsOf n) := Nat.le_add_right _ _
  have squares : squareAt d fmt (sqsOf n) ≤ d + destBytes fmt (sqsOf n) := by
    unfold squareAt destBytes
    omega
  rcases place with ⟨low, high⟩ | ⟨low, high⟩ | ⟨wide, low, high⟩
  · have last := lineAt_end d fmt k
    rw [lineAt_lines] at low
    exact ⟨by omega, by omega⟩
  · have up := squareAt_succ d fmt (k / 128)
    exact ⟨by omega, by omega⟩
  · refine ⟨by omega, ?_⟩
    unfold destBytes cdiv
    rw [if_pos wide]
    unfold squareAt at high
    omega

/-- The squares of COPY's source share no byte with its destination. -/
def CopyApart (a d fmt n : Nat) : Prop := ∀ x, Within a (sqsOf n * sqSize fmt) x → ¬Within d (destBytes fmt (sqsOf n)) x

theorem copySource_stays (touches : Touches (Within d (destBytes fmt (sqsOf n))) s t) (far : nearEnd ≤ a) (apart : CopyApart a d fmt n) (less : k < n) (col : j < 128) :
    copySource t a fmt trans k j = copySource s a fmt trans k j := by
  have row : k % 128 < 128 := Nat.mod_lt _ (by decide)
  have out (i : Nat) (inside : i < 128) (y : Nat) (within : y < 16 * fmtBits fmt) :
      ¬Within d (destBytes fmt (sqsOf n)) (squareAt a fmt (k / 128) + fmtHdr fmt + i * 16 * fmtBits fmt + y) :=
    apart _ (square_within a fmt (sqsOf_of_lt less) _ (line_in_square _ inside within))
  unfold copySource
  split
  · exact touches.sqBits (far_squareAt far) _ _ _ (out j col)
  · exact touches.sqBits (far_squareAt far) _ _ _ (out (k % 128) row)

/-- A copied line is not touched by a later one. -/
theorem copyPlace_apart {r y : Nat} (less : r < n) (before : k < r) (inside : y < 16 * fmtBits fmt) : ¬CopyPlace d fmt n r (lineAt d fmt k + y) := by
  have later := lineAt_next (base := d) (c := fmt) before
  rintro (⟨low, -⟩ | ⟨low, high⟩ | ⟨-, low, -⟩)
  · omega
  · rcases lineAt_head d fmt k (r / 128) with above | below
    · omega
    · omega
  · have last := (lineAt_end d fmt k).trans (squareAt_mono (sqsOf_of_lt (before.trans less)))
    omega

theorem copyLines_touches (far : nearEnd ≤ d) : Touches (Within d (destBytes fmt (sqsOf n))) s ((List.range n).foldl (copyStep a d fmt n trans) s) :=
  Touches.fold (.refl s) fun _ _ mem => (copyStep_touches far (List.mem_range.1 mem)).mono fun _ => copyPlace_within (List.mem_range.1 mem)

theorem copyLines_reads (hs : Inv s) (far : nearEnd ≤ d) (farA : nearEnd ≤ a) (apart : CopyApart a d fmt n) (less : k < n) (col : j < 128) :
    sqBits ((List.range n).foldl (copyStep a d fmt n trans) s) (squareAt d fmt (k / 128)) fmt (k % 128) j = copySource s a fmt trans k j := by
  have step {u : State} {k : Nat} (mem : k ∈ List.range n) : Touches (CopyPlace d fmt n k) u (copyStep a d fmt n trans u k) :=
    copyStep_touches far (List.mem_range.1 mem)
  refine foldl_each (P := fun k u => sqBits u (squareAt d fmt (k / 128)) fmt (k % 128) j = copySource s a fmt trans k j)
    (I := fun u => Inv u ∧ Touches (Within d (destBytes fmt (sqsOf n))) s u) ⟨hs, .refl s⟩ (fun k mem u ⟨form, touches⟩ => ?_) (fun k mem u ⟨form, touches⟩ => ?_) ?_ k
    (List.mem_range.2 less)
  · exact ⟨(step mem).form form, touches.trans ((step mem).mono fun _ => copyPlace_within (List.mem_range.1 mem))⟩
  · exact (copyStep_reads form far (List.mem_range.1 mem) col).trans (copySource_stays touches farA apart (List.mem_range.1 mem) col)
  · refine List.Pairwise.imp_of_mem (fun {k r} mem mem' before u holds => ?_) List.pairwise_lt_range
    exact ((step mem').sqBits (far_squareAt far) _ _ _ fun y inside => copyPlace_apart (List.mem_range.1 mem') before inside).trans holds

theorem pad_within {y : Nat} (part : n % 128 ≠ 0) (inside : Within (lineAt d fmt n) ((128 - n % 128) * 16 * fmtBits fmt) y) : Within d (destBytes fmt (sqsOf n)) y := by
  have less : n / 128 < sqsOf n := by
    unfold sqsOf cdiv
    omega
  have square := squareAt_mono (base := d) (c := fmt) (show n / 128 + 1 ≤ sqsOf n from less)
  have start : d ≤ squareAt d fmt (n / 128) := Nat.le_add_right _ _
  have squares : squareAt d fmt (sqsOf n) ≤ d + destBytes fmt (sqsOf n) := by
    unfold squareAt destBytes
    omega
  have rows : n % 128 * (16 * fmtBits fmt) + (128 - n % 128) * (16 * fmtBits fmt) = 128 * (16 * fmtBits fmt) := by
    rw [← Nat.add_mul, Nat.add_sub_cancel' (Nat.mod_lt _ (by decide)).le]
  obtain ⟨low, high⟩ := inside
  rw [lineAt_lines] at low high
  rw [squareAt_succ, Nat.mul_assoc 128] at square
  rw [Nat.mul_assoc] at high
  exact ⟨by omega, by omega⟩

/-- COPY reaches its squares and its amax table. -/
theorem copyRun_touches (far : nearEnd ≤ d) : Touches (Within d (destBytes fmt (sqsOf n))) s (copyRun a d fmt n trans s) := by
  rw [copyRun_eq]
  split
  · exact copyLines_touches far
  next part =>
    refine (copyLines_touches far).trans ((touches_busWrite (far_add (far_add (far_squareAt far) _) _) _ _).mono fun x inside => pad_within part ?_)
    rwa [List.length_replicate] at inside

/-- COPY's lines, where its operand lies apart. -/
theorem copyRun_reads (hs : Inv s) (far : nearEnd ≤ d) (farA : nearEnd ≤ a) (apart : CopyApart a d fmt n) (less : k < n) (col : j < 128) :
    sqBits (copyRun a d fmt n trans s) (squareAt d fmt (k / 128)) fmt (k % 128) j = copySource s a fmt trans k j := by
  have lines := copyLines_reads (trans := trans) hs far farA apart less col
  rw [copyRun_eq]
  split
  · exact lines
  · refine Eq.trans ?_ lines
    refine (touches_busWrite (far_add (far_add (far_squareAt far) _) _) _ _).sqBits (far_squareAt far) _ _ _ fun y inside ⟨low, _⟩ => ?_
    have later := lineAt_next (base := d) (c := fmt) less
    unfold lineAt at later
    omega

/-- The padding behind COPY's last line reads +0. -/
theorem copyRun_pads (hs : Inv s) (far : nearEnd ≤ d) (behind : n ≤ k) (inside : k < 128 * sqsOf n) :
    sqBits (copyRun a d fmt n trans s) (squareAt d fmt (k / 128)) fmt (k % 128) j = 0 := by
  obtain ⟨part, square, row⟩ := padding_square behind inside
  rw [copyRun_eq, if_neg part, square]
  exact padBody_zero ((copyLines_touches far).form hs) (far_squareAt far) row (Nat.mod_lt _ (by decide))

end

end Sys2Proof.Machine
end

section
/-! SUPPORT. ELEM at the head of an empty PLY queue (R199, R200, R568). -/

namespace Sys2Proof.Machine

section
variable {p : Play} {tile : Nat} {m : QMove} {s s₂ : State} {w : MoveWord}

/-! ### ELEM past its checks -/

/-- The operands of ELEM that are tensors: offset and format. -/
def elemOps (w : MoveWord) : List (Nat × Nat) :=
  [(wf w 96 16 * 128, wf w 70 4)] ++ (if elemUsesB (wf w 64 6) && !wb w 89 then [(wf w 112 16 * 128, wf w 74 4)] else []) ++
    (if elemUsesC (wf w 64 6) then [(wf w 128 16 * 128, wf w 78 4)] else [])

/-- ELEM reads operand B as one number. -/
def elemScalar (w : MoveWord) : Bool := elemUsesB (wf w 64 6) && wb w 89

/-- The extents of ELEM lie in the store. -/
def elemFits (s : State) (p : Play) (tile : Nat) (w : MoveWord) : Bool :=
  (elemOps w).all (fun x => storeOk s p tile x.1 (sqsOf (wf w 160 24) * sqSize x.2)) &&
    storeOk s p tile (wf w 144 16 * 128) (destBytes (wf w 82 4) (sqsOf (wf w 160 24))) && (!elemScalar w || storeOk s p tile (wf w 112 16 * 128) 4)

/-- The bytes of a run of n lines of a format, as far as they are read or written. -/
def runExtent (n f : Nat) (tr : Bool) : Nat :=
  if tr || n == 0 then sqsOf n * sqSize f else (sqsOf n - 1) * sqSize f + fmtHdr f + ((n - 1) % 128 + 1) * 16 * fmtBits f

/-- A range meets the destination of n lines at d. -/
def meetsDest (d n df o sz : Nat) : Bool :=
  rangesMeet o sz d (runExtent n df false) || (decide (sqsOf n * sqSize df < destBytes df (sqsOf n)) &&
    rangesMeet o sz (d + sqsOf n * sqSize df) (destBytes df (sqsOf n) - sqsOf n * sqSize df))

/-- An operand of ELEM meets its destination otherwise than in place. -/
def elemBad (w : MoveWord) (o f : Nat) (tr : Bool) : Bool :=
  meetsDest (wf w 144 16 * 128) (wf w 160 24) (wf w 82 4) o (runExtent (wf w 160 24) f tr) &&
    !(o == wf w 144 16 * 128 && sqSize f == sqSize (wf w 82 4) && !tr)

/-- ELEM's result is not defined (R200). -/
def elemUndef (w : MoveWord) : Bool :=
  elemBad w (wf w 96 16 * 128) (wf w 70 4) (wb w 86) || (elemUsesB (wf w 64 6) && !wb w 89 && elemBad w (wf w 112 16 * 128) (wf w 74 4) (wb w 87)) ||
    (elemUsesC (wf w 64 6) && elemBad w (wf w 128 16 * 128) (wf w 78 4) (wb w 88)) ||
    (elemUsesB (wf w 64 6) && wb w 89 && meetsDest (wf w 144 16 * 128) (wf w 160 24) (wf w 82 4) (wf w 112 16 * 128) 4)

/-- The operands' lines. -/
def elemA (tile : Nat) (w : MoveWord) (s : State) (k : Nat) : List W32 := runLine s (tileAddr tile (wf w 96 16 * 128)) (wf w 70 4) (wb w 86) k

def elemB (tile : Nat) (w : MoveWord) (s : State) (k : Nat) : List W32 :=
  if elemUsesB (wf w 64 6) then
    (if wb w 89 then List.replicate 128 (BitVec.ofNat 32 (readN s (tileAddr tile (wf w 112 16 * 128)) 4))
    else runLine s (tileAddr tile (wf w 112 16 * 128)) (wf w 74 4) (wb w 87) k)
  else elemA tile w s k

def elemC (tile : Nat) (w : MoveWord) (s : State) (k : Nat) : List W32 :=
  if elemUsesC (wf w 64 6) then runLine s (tileAddr tile (wf w 128 16 * 128)) (wf w 78 4) (wb w 88) k else elemA tile w s k

/-- A line of results. -/
def elemRow (tile : Nat) (w : MoveWord) (s : State) (k : Nat) : List W32 :=
  ((elemA tile w s k).zip ((elemB tile w s k).zip (elemC tile w s k))).map fun (x, y, z) => elemOp (wf w 64 6) x y z

/-- The run that ELEM writes, and its dice. -/
def elemRun (p : Play) (tile : Nat) (w : MoveWord) : DestRun :=
  { base := tileAddr tile (wf w 144 16 * 128), fmt := wf w 82 4, margin := wf w 91 2, sr := wb w 90 || wf w 93 3 == 2, sid := sidOf w, step := p.step }

def elemDie (p : Play) (m : QMove) (k j : Nat) : W32 :=
  playDie p (sidOf m.word) (let c := runCoord m.frame k j; frameIdx m.frame 128 c.1 c.2)

/-- What ELEM leaves. -/
def elemDone (p : Play) (tile : Nat) (m : QMove) (s : State) : State :=
  if elemUndef m.word then freeBytes (tileAddr tile (wf m.word 144 16 * 128)) (destBytes (wf m.word 82 4) (sqsOf (wf m.word 160 24))) s
  else if wf m.word 64 6 = 0x0B then
    copyRun (tileAddr tile (wf m.word 96 16 * 128)) (tileAddr tile (wf m.word 144 16 * 128)) (wf m.word 70 4) (wf m.word 160 24) (wb m.word 86) s
  else (elemRun p tile m.word).write (elemDie p m) (fun _ => 128) ((List.range (wf m.word 160 24)).map (elemRow tile m.word s)) s

theorem startElem_checked (p : Play) (tile : Nat) (m : QMove) (s : State) : startElem p tile m s =
    checkedStart (encElem m.word) (fmtScaleField (wf m.word 82 4))
      (operandCheck s ((elemOps m.word).map fun x => (tileAddr tile x.1, x.2, sqsOf (wf m.word 160 24)))) (elemFits s p tile m.word) s
      (.run { m with started := true } (elemDone p tile m s)) := by
  have done : Start.run { m with started := true } (elemDone p tile m s) =
      if elemUndef m.word then
        .run { m with started := true } (freeBytes (tileAddr tile (wf m.word 144 16 * 128)) (destBytes (wf m.word 82 4) (sqsOf (wf m.word 160 24))) s)
      else if wf m.word 64 6 = 0x0B then .run { m with started := true }
        (copyRun (tileAddr tile (wf m.word 96 16 * 128)) (tileAddr tile (wf m.word 144 16 * 128)) (wf m.word 70 4) (wf m.word 160 24) (wb m.word 86) s)
      else .run { m with started := true }
        ((elemRun p tile m.word).write (elemDie p m) (fun _ => 128) ((List.range (wf m.word 160 24)).map (elemRow tile m.word s)) s) := by
    unfold elemDone
    split
    · rfl
    · split <;> rfl
  rw [done]
  unfold startElem checkedStart
  extract_lets w fn n nsq af bf cf df at_ bsc useB useC base ops dn d extent dext meets bad undef m' lines run die
  refine congrArg (fun r => ite _ _ (ite _ _ r)) ?_
  have heads : operandCheck s (ops.map fun (o, f) => (base o, f, nsq)) =
    operandCheck s ((elemOps m.word).map fun x => (tileAddr tile x.1, x.2, sqsOf (wf m.word 160 24))) := rfl
  rw [← heads]
  cases operandCheck s (ops.map fun (o, f) => (base o, f, nsq)) with
  | some st => rfl
  | none =>
    refine if_congr (Eq.to_iff rfl) rfl ?_
    refine if_congr (Eq.to_iff rfl) rfl ?_
    exact if_congr (Eq.to_iff rfl) rfl rfl

/-! ### Operands apart from the destination -/

theorem sqSize_lines (n f : Nat) (some_ : n ≠ 0) : (sqsOf n - 1) * sqSize f + fmtHdr f + ((n - 1) % 128 + 1) * 16 * fmtBits f ≤ sqsOf n * sqSize f := by
  have square : (sqsOf n - 1) * sqSize f + sqSize f = sqsOf n * sqSize f := by
    rw [← Nat.succ_mul, Nat.succ_eq_add_one, Nat.sub_add_cancel]
    unfold sqsOf cdiv
    omega
  have rows := Nat.mul_le_mul_right (16 * fmtBits f) (show (n - 1) % 128 + 1 ≤ 128 by omega)
  rw [← Nat.mul_assoc] at rows
  rw [← square, sqSize_eq]
  omega

theorem runExtent_le (n f : Nat) (tr : Bool) : runExtent n f tr ≤ sqsOf n * sqSize f := by
  unfold runExtent
  split
  · exact le_rfl
  next some_ =>
    refine sqSize_lines n f ?_
    rintro rfl
    exact some_ (by rw [Bool.or_eq_true]; exact .inr rfl)

theorem rangesMeet_apart {o N d dn sz k off : Nat} (apart : Apart o N d dn) (inside : sz ≤ N) (within : off + k ≤ dn) : rangesMeet o sz (d + off) k = false := by
  unfold rangesMeet
  rw [← Bool.decide_and, decide_eq_false_iff_not]
  rcases apart with before | after
  · omega
  · omega

theorem meetsDest_apart {o N d n df sz : Nat} (apart : Apart o N d (destBytes df (sqsOf n))) (inside : sz ≤ N) : meetsDest d n df o sz = false := by
  have squares : sqsOf n * sqSize df ≤ destBytes df (sqsOf n) := Nat.le_add_right _ _
  have first := rangesMeet_apart (off := 0) (k := runExtent n df false) apart inside (by rw [Nat.zero_add]; exact (runExtent_le n df false).trans squares)
  unfold meetsDest
  rw [Nat.add_zero] at first
  rw [first, rangesMeet_apart apart inside (Nat.add_sub_cancel' squares).le, Bool.and_false]
  rfl

/-- The operands of ELEM lie apart from its destination. -/
def ElemApart (w : MoveWord) : Prop :=
  (∀ x ∈ elemOps w, Apart x.1 (sqsOf (wf w 160 24) * sqSize x.2) (wf w 144 16 * 128) (destBytes (wf w 82 4) (sqsOf (wf w 160 24)))) ∧
    (elemScalar w = true → Apart (wf w 112 16 * 128) 4 (wf w 144 16 * 128) (destBytes (wf w 82 4) (sqsOf (wf w 160 24))))

theorem elemBad_apart {o f : Nat} (apart : Apart o (sqsOf (wf w 160 24) * sqSize f) (wf w 144 16 * 128) (destBytes (wf w 82 4) (sqsOf (wf w 160 24)))) (tr : Bool) :
    elemBad w o f tr = false := by
  unfold elemBad
  rw [meetsDest_apart apart (runExtent_le _ _ _), Bool.false_and]

theorem elemUndef_apart (apart : ElemApart w) : elemUndef w = false := by
  obtain ⟨tensors, number⟩ := apart
  have a := elemBad_apart (tensors _ (List.mem_append_left _ (List.mem_append_left _ (.head _)))) (wb w 86)
  have b : (elemUsesB (wf w 64 6) && !wb w 89 && elemBad w (wf w 112 16 * 128) (wf w 74 4) (wb w 87)) = false := by
    by_cases reads : (elemUsesB (wf w 64 6) && !wb w 89) = true
    · have mem : (wf w 112 16 * 128, wf w 74 4) ∈ elemOps w := by
        unfold elemOps
        rw [if_pos reads]
        exact List.mem_append_left _ (List.mem_append_right _ (.head _))
      rw [elemBad_apart (tensors _ mem), Bool.and_false]
    · rw [eq_false_of_ne_true reads, Bool.false_and]
  have c : (elemUsesC (wf w 64 6) && elemBad w (wf w 128 16 * 128) (wf w 78 4) (wb w 88)) = false := by
    by_cases reads : elemUsesC (wf w 64 6) = true
    · have mem : (wf w 128 16 * 128, wf w 78 4) ∈ elemOps w := by
        unfold elemOps
        rw [if_pos reads]
        exact List.mem_append_right _ (.head _)
      rw [elemBad_apart (tensors _ mem), Bool.and_false]
    · rw [eq_false_of_ne_true reads, Bool.false_and]
  have n : (elemUsesB (wf w 64 6) && wb w 89 && meetsDest (wf w 144 16 * 128) (wf w 160 24) (wf w 82 4) (wf w 112 16 * 128) 4) = false := by
    by_cases reads : (elemUsesB (wf w 64 6) && wb w 89) = true
    · rw [meetsDest_apart (number reads) le_rfl, Bool.and_false]
    · rw [eq_false_of_ne_true reads, Bool.false_and]
  unfold elemUndef
  rw [a, b, c, n]
  rfl

/-! ### What ELEM writes -/

theorem touches_freeBytes {a : Nat} (far : nearEnd ≤ a) (n : Nat) (s : State) : Touches (Within a n) s (freeBytes a n s) := by
  unfold freeBytes
  have wrote := touches_writeBytes far ((List.range n).map fun k => (Config.freeValue (s.freeCtr + k)).setWidth 8) { s with freeCtr := s.freeCtr + n }
  rw [List.length_map, List.length_range] at wrote
  exact ((Touches.refl s).step (only_freeCtr (.refl [.freeCtr] s) _ (by decide)) (by decide)).trans wrote

theorem copy_format (enc : encElem w = true) (copy : wf w 64 6 = 0x0B) : wf w 82 4 = wf w 70 4 := by
  unfold encElem at enc
  rw [copy] at enc
  simp only [Bool.and_eq_true, Bool.or_eq_true, beq_iff_eq] at enc
  rcases enc.2 with no | ⟨⟨same, -⟩, -⟩
  · exact absurd no (by decide)
  · exact same

/-- ELEM reaches its destination. -/
theorem elemDone_touches (enc : encElem m.word = true) : Touches (Within (tileAddr tile (wf m.word 144 16 * 128)) (destBytes (wf m.word 82 4) (sqsOf (wf m.word 160 24))))
    s (elemDone p tile m s) := by
  unfold elemDone
  split
  · exact touches_freeBytes (nearEnd_le_tileAddr _ _) _ _
  · split
    next copy =>
      rw [copy_format enc copy]
      exact copyRun_touches (nearEnd_le_tileAddr _ _)
    · have wrote := (elemRun p tile m.word).write_touches (elemDie p m) (fun _ => 128) s ((List.range (wf m.word 160 24)).map (elemRow tile m.word s))
        (nearEnd_le_tileAddr _ _)
      rw [List.length_map, List.length_range] at wrote
      exact wrote

theorem runLine_length (s : State) (base c : Nat) (trans : Bool) (k : Nat) : (runLine s base c trans k).length = 128 := by
  unfold runLine sqLine32 sqLine
  rw [List.length_map, List.length_map, List.length_range]

theorem elemRow_length (tile : Nat) (w : MoveWord) (s : State) (k : Nat) : (elemRow tile w s k).length = 128 := by
  have a : (elemA tile w s k).length = 128 := runLine_length _ _ _ _ _
  have b : (elemB tile w s k).length = 128 := by
    unfold elemB
    split
    · split
      · exact List.length_replicate
      · exact runLine_length _ _ _ _ _
    · exact a
  have c : (elemC tile w s k).length = 128 := by
    unfold elemC
    split
    · exact runLine_length _ _ _ _ _
    · exact a
  unfold elemRow
  rw [List.length_map, List.length_zip, List.length_zip, a, b, c]
  rfl

/-- A whole line's elements as a run converts them. -/
theorem DestRun.conv_whole (d : DestRun) (die : Nat → Nat → W32) (k : Nat) {xs : List W32} (length : xs.length = 128) :
    (d.conv die k 128 xs).1 = (convLine d.fmt d.margin d.sr (die k) 0 (xs.map v32) {}).1 := by
  have whole : (xs.take 128).map v32 ++ List.replicate (128 - 128) (FVal.fin false 0 0) = xs.map v32 := by
    rw [List.take_of_length_le length.le, Nat.sub_self, List.replicate_zero, List.append_nil]
  unfold DestRun.conv
  rw [whole]

/-- Element j of line k of ELEM's destination, its operands apart from it. -/
theorem elemDone_reads (hs : Inv s) (enc : encElem m.word = true) (apart : ElemApart m.word) {k j : Nat} (inside : k < 128 * sqsOf (wf m.word 160 24)) (col : j < 128) :
    sqBits (elemDone p tile m s) (squareAt (tileAddr tile (wf m.word 144 16 * 128)) (wf m.word 82 4) (k / 128)) (wf m.word 82 4) (k % 128) j =
      if wf m.word 160 24 ≤ k then 0
      else if wf m.word 64 6 = 0x0B then copySource s (tileAddr tile (wf m.word 96 16 * 128)) (wf m.word 70 4) (wb m.word 86) k j
      else (convLine (wf m.word 82 4) (wf m.word 91 2) (wb m.word 90 || wf m.word 93 3 == 2) (elemDie p m k) 0 ((elemRow tile m.word s k).map v32) {}).1.getD j 0 %
        2 ^ fmtBits (wf m.word 82 4) := by
  have defined := elemUndef_apart apart
  unfold elemDone
  rw [if_neg (by rw [defined]; decide)]
  by_cases copy : wf m.word 64 6 = 0x0B
  · have source : CopyApart (tileAddr tile (wf m.word 96 16 * 128)) (tileAddr tile (wf m.word 144 16 * 128)) (wf m.word 70 4) (wf m.word 160 24) := by
      have tensor := apart.1 _ (List.mem_append_left _ (List.mem_append_left _ (.head _)))
      rw [copy_format enc copy] at tensor
      exact fun x within => apart_within tensor within
    rw [if_pos copy, if_pos copy, copy_format enc copy]
    split
    next behind => exact copyRun_pads hs (nearEnd_le_tileAddr _ _) behind inside
    next before => exact copyRun_reads hs (nearEnd_le_tileAddr _ _) (nearEnd_le_tileAddr _ _) source (Nat.lt_of_not_le before) col
  · rw [if_neg copy, if_neg copy]
    have count : ((List.range (wf m.word 160 24)).map (elemRow tile m.word s)).length = wf m.word 160 24 := by rw [List.length_map, List.length_range]
    split
    next behind => exact (elemRun p tile m.word).write_pads (elemDie p m) (fun _ => 128) hs (nearEnd_le_tileAddr _ _) (by rw [count]; exact behind) (by rw [count]; exact inside)
    next before =>
      have less := Nat.lt_of_not_le before
      have mem : (elemRow tile m.word s k, k) ∈ ((List.range (wf m.word 160 24)).map (elemRow tile m.word s)).zipIdx := by
        rw [List.mem_zipIdx_iff_getElem?, List.getElem?_map, List.getElem?_range less]
        rfl
      have reads := (elemRun p tile m.word).write_reads (elemDie p m) (fun _ => 128) s hs (nearEnd_le_tileAddr _ _) col mem
      unfold DestRun.Reads at reads
      rw [DestRun.conv_whole _ _ _ (elemRow_length _ _ _ _)] at reads
      exact reads

/-! ### The claim -/

theorem startMoveOf_elem (common : encCommon m.word = true) (op : opOf m.word = 0x20) (s : State) : startMoveOf p tile 2 m s = startElem p tile m s := by
  refine (if_neg (by rw [common]; decide)).trans ?_
  generalize opOf m.word = o at op
  subst op
  rfl

theorem elemB_scalar (tile : Nat) (w : MoveWord) (s : State) (k : Nat) : elemB tile w s k =
    if elemScalar w then List.replicate 128 (BitVec.ofNat 32 (readN s (tileAddr tile (wf w 112 16 * 128)) 4))
    else if elemUsesB (wf w 64 6) then runLine s (tileAddr tile (wf w 112 16 * 128)) (wf w 74 4) (wb w 87) k else elemA tile w s k := by
  unfold elemB elemScalar
  generalize List.replicate 128 _ = number
  generalize runLine s _ _ _ k = tensor
  cases elemUsesB (wf w 64 6)
  · rfl
  · cases wb w 89 <;> rfl

theorem elemRuns : Claim.ElemRuns := by
  intro l p tile m s s₂ atHead w fn n nsq df dst bsc ops scalar formed heads fits
  obtain ⟨x, m₀, h⟩ := atHead.head
  obtain ⟨op, fault⟩ := atHead.row rfl
  obtain ⟨bad, scaled, headed, outside, goes⟩ := (Starts.of_head atHead (by decide)).checked
    fun common => (startMoveOf_elem common op s₂).trans (startElem_checked p tile m s₂)
  refine ⟨bad, scaled, headed, outside, fun mild is plain right ok => ?_⟩
  have enc : encElem m.word = true := (Bool.and_eq_true_iff.1 is).2
  have start : startMoveOf p tile 2 m s₂ = .run { m with started := true } (elemDone p tile m s₂) := goes is plain right ok
  have frame : OnlyChanges [.watch, .freeCtr, .mem] s₂ (elemDone p tile m s₂) := by
    have all := startElem_far p tile m s₂
    rw [← startMoveOf_elem (Bool.and_eq_true_iff.1 is).1 op s₂, start] at all
    exact all
  obtain ⟨t, runs, head, masked, rest⟩ := h.runs_lane (m₁ := { m with started := true }) (by decide) atHead.fresh.2 rfl
    (startAny_lane fault mild (by rw [op]; decide) start) frame (by decide)
  refine ⟨t, runs, head, masked, ?_, (frame.mono (by decide)).step rest (by decide), fun form tensors number k j inside col => ?_⟩
  · refine ((elemDone_touches enc).step rest (by decide)).keeps (fun y mem => ?_) fun a place => ⟨_, .head _, place⟩
    rw [List.mem_singleton.1 mem]
    exact nearEnd_le_tileAddr _ _
  · have same := ((Touches.refl (R := fun _ => False) (elemDone p tile m s₂)).step rest (by decide)).sqBits
      (far_squareAt (c := df) (q := k / 128) (nearEnd_le_tileAddr tile dst)) df (k % 128) j fun _ _ no => no
    have reads := same.trans (elemDone_reads form enc ⟨tensors, number⟩ inside col)
    refine reads.trans (if_congr Iff.rfl rfl ?_)
    refine if_congr Iff.rfl ?_ ?_
    · rfl
    · dsimp only
      unfold elemRow
      rw [List.map_map, elemB_scalar]
      rfl

end

end Sys2Proof.Machine
end

section
/-! SUPPORT. One element of a square set: it alone changes (R92). A column of elements, and the descriptor line, as they are written. -/

namespace Sys2Proof.Machine

/-! ### A digit replaced -/

/-- X is N with the e bits from bit b on replaced by v. -/
def Replaced (b e v N X : Nat) : Prop := X + N / 2 ^ b % 2 ^ e * 2 ^ b = N + v % 2 ^ e * 2 ^ b

section
variable {b e v N X : Nat}

theorem replaced_put (b e v N : Nat) : Replaced b e v N (N - N / 2 ^ b % 2 ^ e * 2 ^ b + v % 2 ^ e * 2 ^ b) := by
  have part : N / 2 ^ b % 2 ^ e * 2 ^ b ≤ N := (Nat.mul_le_mul_right _ (Nat.mod_le _ _)).trans (Nat.div_mul_le_self _ _)
  unfold Replaced
  omega

theorem Replaced.eq (h : Replaced b e v N X) : X = (N / 2 ^ b / 2 ^ e * 2 ^ e + v % 2 ^ e) * 2 ^ b + N % 2 ^ b := by
  have whole := Nat.div_add_mod' N (2 ^ b)
  have upper := Nat.div_add_mod' (N / 2 ^ b) (2 ^ e)
  unfold Replaced at h
  have split_ : N / 2 ^ b * 2 ^ b = N / 2 ^ b / 2 ^ e * 2 ^ e * 2 ^ b + N / 2 ^ b % 2 ^ e * 2 ^ b := by rw [← Nat.add_mul, upper]
  rw [Nat.add_mul]
  omega

theorem Replaced.div (h : Replaced b e v N X) : X / 2 ^ b = N / 2 ^ b / 2 ^ e * 2 ^ e + v % 2 ^ e := by
  rw [h.eq, Nat.mul_comm, Nat.mul_add_div (Nat.two_pow_pos b), Nat.div_eq_of_lt (Nat.mod_lt _ (Nat.two_pow_pos b)), Nat.add_zero]

/-- The bits replaced. -/
theorem Replaced.at (h : Replaced b e v N X) : X / 2 ^ b % 2 ^ e = v % 2 ^ e := by
  rw [h.div, Nat.add_comm, Nat.add_mul_mod_self_right, Nat.mod_mod]

theorem Replaced.low (h : Replaced b e v N X) : X % 2 ^ b = N % 2 ^ b := by
  rw [h.eq, Nat.add_comm, Nat.add_mul_mod_self_right, Nat.mod_mod]

theorem Replaced.high (h : Replaced b e v N X) : X / 2 ^ (b + e) = N / 2 ^ (b + e) := by
  rw [Nat.pow_add, ← Nat.div_div_eq_div_mul, ← Nat.div_div_eq_div_mul, h.div, Nat.mul_comm, Nat.mul_add_div (Nat.two_pow_pos e),
    Nat.div_eq_of_lt (Nat.mod_lt _ (Nat.two_pow_pos e)), Nat.add_zero]

/-- Another digit stays. -/
theorem Replaced.other {k i : Nat} (h : Replaced (e * k) e v N X) (ne : i ≠ k) : X / 2 ^ (e * i) % 2 ^ e = N / 2 ^ (e * i) % 2 ^ e := by
  rcases Nat.lt_or_gt_of_ne ne with below | above
  · have fits : e * i + e ≤ e * k := by
      rw [← Nat.mul_succ]
      exact Nat.mul_le_mul_left e below
    rw [← bits_of_mod fits, h.low, bits_of_mod fits]
  · have past : e * i = e * k + e + (e * i - (e * k + e)) := by
      have := Nat.mul_le_mul_left e (show k + 1 ≤ i from above)
      rw [Nat.mul_succ] at this
      omega
    rw [past, Nat.pow_add, ← Nat.div_div_eq_div_mul, h.high, Nat.div_div_eq_div_mul, ← Nat.pow_add]

/-- It stays within so many bits. -/
theorem Replaced.lt {n : Nat} (h : Replaced b e v N X) (fits : b + e ≤ n) (small : N < 2 ^ n) : X < 2 ^ n := by
  have whole : 2 ^ n = 2 ^ (n - (b + e)) * 2 ^ (b + e) := by rw [← Nat.pow_add, Nat.sub_add_cancel fits]
  rw [whole] at small ⊢
  rw [← Nat.div_lt_iff_lt_mul (Nat.two_pow_pos _)] at small ⊢
  rw [h.high]
  exact small

end

/-! ### An element set -/

section
variable {s t : State} {a off n r b e v : Nat}

theorem pow_bytes (k : Nat) : 256 ^ k = 2 ^ (8 * k) := by rw [show (256 : Nat) = 2 ^ 8 from rfl, ← Nat.pow_mul]

/-- Bits set within a longer number in memory. -/
theorem readN_put (hs : Inv s) (far : nearEnd ≤ a) (within : b + e ≤ 8 * n) {x : Nat} (put : Replaced b e v (readN s (a + off) n) x) :
    Replaced (8 * off + b) e v (readN s a (off + (n + r))) (readN (writeN (a + off) n x s) a (off + (n + r))) := by
  have small : x < 256 ^ n := by
    rw [pow_bytes]
    exact put.lt within (by rw [← pow_bytes]; exact readN_lt _ _ _)
  have touches := touches_writeN (far_add far off) n x s
  have before : readN (writeN (a + off) n x s) a off = readN s a off := touches.readN far fun i less ⟨low, _⟩ => by omega
  have after : readN (writeN (a + off) n x s) (a + off + n) r = readN s (a + off + n) r := touches.readN (far_add (far_add far off) n) fun i _ ⟨_, high⟩ => by omega
  have here := readN_writeN_self hs (far_add far off) n x
  rw [Nat.mod_eq_of_lt small] at here
  have digit : readN s a (off + (n + r)) / 2 ^ (8 * off + b) % 2 ^ e = readN s (a + off) n / 2 ^ b % 2 ^ e := by
    rw [Nat.pow_add, ← Nat.div_div_eq_div_mul, ← pow_bytes, readN_div, readN_bits s _ (Nat.le_add_right n r) within]
  unfold Replaced at put ⊢
  rw [digit, readN_add _ a, readN_add _ (a + off), readN_add s a, readN_add s (a + off), before, after, here, Nat.pow_add, ← pow_bytes]
  have scaled := congrArg (256 ^ off * ·) put
  rw [Nat.mul_add, Nat.mul_add] at scaled
  rw [Nat.mul_add, Nat.mul_add, Nat.mul_left_comm _ (256 ^ off), Nat.mul_left_comm _ (256 ^ off)]
  omega

end

section
variable {s t : State} {base c i j v : Nat}

/-- The number that line i of a square is. -/
def lineNum (s : State) (base c i : Nat) : Nat := readN s (base + fmtHdr c + i * 16 * fmtBits c) (16 * fmtBits c)

theorem sqBits_lineNum (s : State) (base c i j : Nat) : sqBits s base c i j = lineNum s base c i / 2 ^ (fmtBits c * ((i + j) % 128)) % 2 ^ fmtBits c :=
  sqBits_eq_line s base c i j

/-- The bytes of an element lie in its line. -/
theorem elem_bytes (c i j : Nat) : fmtBits c * ((i + j) % 128) / 8 + (fmtBits c * ((i + j) % 128) % 8 + fmtBits c + 7) / 8 ≤ 16 * fmtBits c := by
  have whole : fmtBits c * ((i + j) % 128) + fmtBits c ≤ fmtBits c * 128 := by
    rw [← Nat.mul_succ]
    exact Nat.mul_le_mul_left _ (Nat.mod_lt _ (by decide))
  omega

/-- Setting an element replaces its digit of its line. -/
theorem sqSetBits_put (hs : Inv s) (far : nearEnd ≤ base) :
    Replaced (fmtBits c * ((i + j) % 128)) (fmtBits c) v (lineNum s base c i) (lineNum (sqSetBits base c i j v s) base c i) := by
  have bytes := elem_bytes c i j
  unfold sqSetBits elemPos lineNum
  dsimp only
  generalize fmtBits c * ((i + j) % 128) = bit at bytes ⊢
  generalize fmtBits c = e at bytes ⊢
  obtain ⟨r, whole⟩ := Nat.exists_eq_add_of_le bytes
  have put := readN_put (a := base + fmtHdr c + i * 16 * e) (off := bit / 8) (n := (bit % 8 + e + 7) / 8) (r := r) (b := bit % 8) (e := e) (v := v) hs (far_add (far_add far _) _) (by omega)
    (replaced_put _ _ _ _)
  rw [whole, Nat.add_assoc (bit / 8)]
  rw [Nat.div_add_mod, Nat.add_assoc (base + fmtHdr c)] at put
  rw [show base + (fmtHdr c + i * 16 * e + bit / 8) = base + fmtHdr c + (i * 16 * e + bit / 8) by omega]
  exact put

theorem sqBits_sqSetBits_self (hs : Inv s) (far : nearEnd ≤ base) : sqBits (sqSetBits base c i j v s) base c i j = v % 2 ^ fmtBits c := by
  rw [sqBits_lineNum]
  exact (sqSetBits_put hs far).at

theorem sqSetBits_touches (far : nearEnd ≤ base) : Touches (Within (base + fmtHdr c + i * 16 * fmtBits c) (16 * fmtBits c)) s (sqSetBits base c i j v s) := by
  have bytes := elem_bytes c i j
  unfold sqSetBits elemPos
  dsimp only
  refine (touches_writeN (far_add far _) _ _ s).mono fun a ⟨low, high⟩ => ?_
  exact ⟨by omega, by omega⟩

/-- Lines of a square are apart. -/
theorem lines_apart {r k e d : Nat} (other : r ≠ i) (inside : k < 16 * e) : ¬Within (d + i * 16 * e) (16 * e) (d + r * 16 * e + k) := by
  rintro ⟨low, high⟩
  rw [Nat.mul_assoc, Nat.mul_assoc] at low high
  rcases Nat.lt_or_gt_of_ne other with below | above
  · have rows := Nat.mul_le_mul_right (16 * e) (show r + 1 ≤ i from below)
    rw [Nat.add_mul, Nat.one_mul] at rows
    omega
  · have rows := Nat.mul_le_mul_right (16 * e) (show i + 1 ≤ r from above)
    rw [Nat.add_mul, Nat.one_mul] at rows
    omega

/-- Any other element of the square stays. -/
theorem sqBits_sqSetBits_ne (hs : Inv s) (far : nearEnd ≤ base) {r k : Nat} (col : j < 128) (col' : k < 128) (other : r ≠ i ∨ k ≠ j) :
    sqBits (sqSetBits base c i j v s) base c r k = sqBits s base c r k := by
  by_cases row : r = i
  · subst row
    rcases other with no | ne
    · exact absurd rfl no
    · rw [sqBits_lineNum, sqBits_lineNum]
      exact (sqSetBits_put hs far).other (by omega)
  · exact (sqSetBits_touches far).sqBits far c r k fun y inside => lines_apart row inside

/-! ### A column -/

theorem sqWriteCol_touches (far : nearEnd ≤ base) (el : List Nat) : Touches (Within (base + fmtHdr c) (128 * (16 * fmtBits c))) s (sqWriteCol base c j el s) := by
  refine Touches.fold (.refl s) fun u i mem => (sqSetBits_touches far).mono fun a inside => ?_
  rw [Nat.mul_assoc] at inside
  exact row_within (List.mem_range.1 mem) inside

theorem sqWriteCol_reads (hs : Inv s) (far : nearEnd ≤ base) (el : List Nat) (row : i < 128) :
    sqBits (sqWriteCol base c j el s) base c i j = el.getD i 0 % 2 ^ fmtBits c := by
  refine foldl_each (f := fun s i => sqSetBits base c i j (el.getD i 0) s) (xs := List.range 128) (I := Inv) (P := fun i u => sqBits u base c i j = el.getD i 0 % 2 ^ fmtBits c)
    hs (fun i _ u form => (sqSetBits_touches far).form form) (fun i _ u form => sqBits_sqSetBits_self form far) ?_ i (List.mem_range.2 row)
  refine List.pairwise_lt_range.imp fun {i r} before u holds => ?_
  exact ((sqSetBits_touches far).sqBits far c i j fun y inside => lines_apart (Nat.ne_of_lt before) inside).trans holds

theorem sqWriteCol_ne (hs : Inv s) (far : nearEnd ≤ base) (el : List Nat) (col : j < 128) {k : Nat} (col' : k < 128) (other : k ≠ j) :
    sqBits (sqWriteCol base c j el s) base c i k = sqBits s base c i k := by
  refine (foldl_holds (f := fun s i => sqSetBits base c i j (el.getD i 0) s) (xs := List.range 128) (I := fun u => Inv u ∧ sqBits u base c i k = sqBits s base c i k)
    ⟨hs, rfl⟩ fun r _ u ⟨form, same⟩ => ⟨(sqSetBits_touches far).form form, ?_⟩).2
  exact (sqBits_sqSetBits_ne form far col col' (.inr other)).trans same

/-! ### The descriptor line -/

theorem sqWriteDesc_touches (far : nearEnd ≤ base) (axis : Nat) (scale amax : W32) : Touches (Within base 128) s (sqWriteDesc base c axis scale amax s) := by
  refine (touches_busWrite far _ s).mono fun x inside => ?_
  simp only [List.length_append, toLE_length, List.length_replicate] at inside
  exact inside

/-- The words of a descriptor line that was written. -/
theorem sqWriteDesc_words (hs : Inv s) (far : nearEnd ≤ base) (axis : Nat) (scale amax : W32) :
    readBytes (sqWriteDesc base c axis scale amax s) base 4 = toLE 4 (c + axis * 16) ∧
    readBytes (sqWriteDesc base c axis scale amax s) (base + 4) 4 = toLE 4 scale.toNat ∧
    readBytes (sqWriteDesc base c axis scale amax s) (base + 8) 4 = toLE 4 amax.toNat := by
  have eq : sqWriteDesc base c axis scale amax s =
      writeBytes base (toLE 4 (c + axis * 16) ++ toLE 4 scale.toNat ++ toLE 4 amax.toNat ++ List.replicate 116 0) s := if_neg (Nat.not_lt.2 far)
  have whole := readBytes_writeBytes_self (toLE 4 (c + axis * 16) ++ toLE 4 scale.toNat ++ toLE 4 amax.toNat ++ List.replicate 116 0) hs far
  rw [← eq] at whole
  simp only [List.length_append, toLE_length, List.length_replicate] at whole
  rw [readBytes_add, readBytes_add, readBytes_add] at whole
  obtain ⟨head, -⟩ := List.append_inj whole (by simp only [List.length_append, toLE_length, readBytes_length])
  obtain ⟨two, third⟩ := List.append_inj head (by simp only [List.length_append, toLE_length, readBytes_length])
  obtain ⟨first, second⟩ := List.append_inj two (by simp only [toLE_length, readBytes_length])
  exact ⟨first, second, third⟩

/-- The fields of a descriptor line that was written. -/
theorem sqWriteDesc_fields (hs : Inv s) (far : nearEnd ≤ base) {axis : Nat} (scale amax : W32) (format : c < 16) (small : axis < 2) :
    sqFmt (sqWriteDesc base c axis scale amax s) base = c ∧ sqAxis (sqWriteDesc base c axis scale amax s) base = axis ∧
    sqScale (sqWriteDesc base c axis scale amax s) base = scale ∧ sqAmax (sqWriteDesc base c axis scale amax s) base = amax := by
  obtain ⟨first, second, third⟩ := sqWriteDesc_words (c := c) hs far axis scale amax
  have byte : readN (sqWriteDesc base c axis scale amax s) base 1 = c + axis * 16 := by
    rw [← readN_mod _ base 1 3]
    change ofLE (readBytes (sqWriteDesc base c axis scale amax s) base 4) % 256 ^ 1 = _
    rw [first, ofLE_toLE]
    omega
  have word {a : Nat} {x : W32} (bytes : readBytes (sqWriteDesc base c axis scale amax s) a 4 = toLE 4 x.toNat) :
      BitVec.ofNat 32 (readN (sqWriteDesc base c axis scale amax s) a 4) = x := by
    change BitVec.ofNat 32 (ofLE (readBytes (sqWriteDesc base c axis scale amax s) a 4)) = x
    rw [bytes, ofLE_toLE, Nat.mod_eq_of_lt (show x.toNat < 256 ^ 4 from x.isLt), BitVec.ofNat_toNat, BitVec.setWidth_eq]
  refine ⟨?_, ?_, word second, word third⟩
  · unfold sqFmt
    rw [byte]
    omega
  · unfold sqAxis
    rw [byte]
    omega

end

end Sys2Proof.Machine
end

section
/-! SUPPORT. The squares that PACK writes (R168, R205). -/

namespace Sys2Proof.Machine

/-! ### Conversions do not depend on what was counted -/

theorem convBlock_counts (c margin : Nat) (sr : Bool) (r : Nat → W32) (start : Nat) (xs : List FVal) (k k' : Counts) :
    (convBlock c margin sr r start xs k).1 = (convBlock c margin sr r start xs k').1 ∧ (convBlock c margin sr r start xs k).2.1 = (convBlock c margin sr r start xs k').2.1 := by
  unfold convBlock
  split
  · exact ⟨rfl, rfl⟩
  · exact ⟨rfl, rfl⟩

/-- One block of an MX line. -/
def blockStep (c margin : Nat) (sr : Bool) (r : Nat → W32) (xs : List FVal) (a : List Nat × List Nat × Counts) (b : Nat) : List Nat × List Nat × Counts :=
  (a.1 ++ (convBlock c margin sr r (32 * b) ((xs.drop (32 * b)).take 32) a.2.2).2.1,
    a.2.1 ++ [(convBlock c margin sr r (32 * b) ((xs.drop (32 * b)).take 32) a.2.2).1], (convBlock c margin sr r (32 * b) ((xs.drop (32 * b)).take 32) a.2.2).2.2)

theorem blockSteps_counts (c margin : Nat) (sr : Bool) (r : Nat → W32) (xs : List FVal) (l : List Nat) {a a' : List Nat × List Nat × Counts} (el : a.1 = a'.1)
    (scales : a.2.1 = a'.2.1) : (l.foldl (blockStep c margin sr r xs) a).1 = (l.foldl (blockStep c margin sr r xs) a').1 ∧
      (l.foldl (blockStep c margin sr r xs) a).2.1 = (l.foldl (blockStep c margin sr r xs) a').2.1 := by
  induction l generalizing a a' with
  | nil => exact ⟨el, scales⟩
  | cons b l ih =>
    obtain ⟨scale, block⟩ := convBlock_counts c margin sr r (32 * b) ((xs.drop (32 * b)).take 32) a.2.2 a'.2.2
    refine ih ?_ ?_
    · unfold blockStep
      rw [el, block]
    · unfold blockStep
      rw [scales, scale]

theorem convLine_counts (c margin : Nat) (sr : Bool) (r : Nat → W32) (x : Int) (xs : List FVal) (k k' : Counts) :
    (convLine c margin sr r x xs k).1 = (convLine c margin sr r x xs k').1 ∧ (convLine c margin sr r x xs k).2.1 = (convLine c margin sr r x xs k').2.1 := by
  unfold convLine
  split
  · exact blockSteps_counts c margin sr r xs (List.range 4) (a := ([], [], k)) (a' := ([], [], k')) rfl rfl
  · exact ⟨rfl, rfl⟩

/-- A fold that threads counts along leaves the states that it leaves without them. -/
theorem foldl_counted {α : Type} {f : State × Counts → α → State × Counts} {g : State → α → State} (same : ∀ s k x, (f (s, k) x).1 = g s x) (xs : List α)
    (s : State) (k : Counts) : (xs.foldl f (s, k)).1 = xs.foldl g s := by
  induction xs generalizing s k with
  | nil => rfl
  | cons x r ih =>
    change (r.foldl f (f (s, k) x)).1 = r.foldl g (g s x)
    rw [← same s k x]
    exact ih _ _

section
variable {p : Play} {tile : Nat} {m : QMove} {s t u : State} {w : MoveWord} {q i j : Nat}

/-! ### A square -/

/-- The source and the destination square. -/
def packSrc (tile : Nat) (w : MoveWord) (q : Nat) : Nat := squareAt (tileAddr tile (wf w 64 16 * 128)) (wf w 96 4) q

def packDst (tile : Nat) (w : MoveWord) (q : Nat) : Nat := squareAt (tileAddr tile (wf w 80 16 * 128)) (wf w 100 4) q

/-- The values of a source square, by rows. -/
def packVals (tile : Nat) (w : MoveWord) (s : State) (q : Nat) : List (List FVal) := (List.range 128).map fun i => sqLine s (packSrc tile w q) (wf w 96 4) i false

/-- The scale of a square. -/
def packScale (tile : Nat) (w : MoveWord) (s : State) (q : Nat) : Int :=
  if fmtTensor (wf w 100 4) then scaleOfAmax (wf w 100 4) (parF s tile (wf w 166 16 * 128)) (wf w 106 2)
  else if fmtSquare (wf w 100 4) then scaleOfAmax (wf w 100 4) (parF s tile (wf w 64 16 * 128 + wf w 111 16 * sqSize (wf w 96 4) + 4 * q)) (wf w 106 2)
  else 0

def packDie (p : Play) (m : QMove) (q i j : Nat) : W32 := playDie p (sidOf m.word) (let c := runCoord m.frame (128 * q + i) j; frameIdx m.frame 128 c.1 c.2)

/-- A run of values converted. -/
def packConv (w : MoveWord) (r : Nat → W32) (x : Int) (xs : List FVal) : List Nat × List Nat × Counts :=
  convLine (wf w 100 4) (wf w 106 2) (wb w 105 || wf w 108 3 == 2) r x xs {}

/-- Column j as converted: AXIS 1. -/
def packColumn (p : Play) (m : QMove) (q : Nat) (vals : List (List FVal)) (j : Nat) : List Nat × List Nat × Counts :=
  packConv m.word (fun i => packDie p m q i j) 0 (vals.map fun r => r.getD j .nan)

/-- Row i as converted: AXIS 0. -/
def packRow (p : Play) (m : QMove) (q : Nat) (x : Int) (vals : List (List FVal)) (i : Nat) : List Nat × List Nat × Counts :=
  packConv m.word (packDie p m q i) x (vals.getD i [])

def packColStep (p : Play) (tile : Nat) (m : QMove) (q : Nat) (vals : List (List FVal)) (s : State) (j : Nat) : State :=
  writeBytes (packDst tile m.word q + 128 + 4 * j) ((packColumn p m q vals j).2.1.map (BitVec.ofNat 8))
    (sqWriteCol (packDst tile m.word q) (wf m.word 100 4) j (packColumn p m q vals j).1 s)

def packRowStep (p : Play) (tile : Nat) (m : QMove) (q : Nat) (x : Int) (vals : List (List FVal)) (s : State) (i : Nat) : State :=
  if fmtMx (wf m.word 100 4) then
    writeBytes (packDst tile m.word q + 128 + 4 * i) ((packRow p m q x vals i).2.1.map (BitVec.ofNat 8))
      (sqWriteLine (packDst tile m.word q) (wf m.word 100 4) i (packRow p m q x vals i).1 s)
  else sqWriteLine (packDst tile m.word q) (wf m.word 100 4) i (packRow p m q x vals i).1 s

/-- The elements of a square written, with their block scales. -/
def packBody (p : Play) (tile : Nat) (m : QMove) (q : Nat) (s : State) : State :=
  if wf m.word 104 1 = 1 then (List.range 128).foldl (packColStep p tile m q (packVals tile m.word s q)) s
  else (List.range 128).foldl (packRowStep p tile m q (packScale tile m.word s q) (packVals tile m.word s q)) s

/-- The descriptor line of a scaled square written. -/
def packDesc (tile : Nat) (w : MoveWord) (q : Nat) (x : Int) (vals : List (List FVal)) (s : State) : State :=
  if fmtScaled (wf w 100 4) then
    sqWriteDesc (packDst tile w q) (wf w 100 4) (wf w 104 1) (if fmtMx (wf w 100 4) then 0x3F800000 else scale32 x) (amax32 vals.flatten) s
  else s

/-- The steps with the counts that the model threads along. -/
def packColCounted (p : Play) (tile : Nat) (m : QMove) (q : Nat) (vals : List (List FVal)) (a : State × Counts) (j : Nat) : State × Counts :=
  let (el, scs, k) := convLine (wf m.word 100 4) (wf m.word 106 2) (wb m.word 105 || wf m.word 108 3 == 2) (fun i => packDie p m q i j) 0 (vals.map fun r => r.getD j .nan) a.2
  (writeBytes (packDst tile m.word q + 128 + 4 * j) (scs.map (BitVec.ofNat 8)) (sqWriteCol (packDst tile m.word q) (wf m.word 100 4) j el a.1), k)

def packRowCounted (p : Play) (tile : Nat) (m : QMove) (q : Nat) (x : Int) (vals : List (List FVal)) (a : State × Counts) (i : Nat) : State × Counts :=
  let (el, scs, k) := convLine (wf m.word 100 4) (wf m.word 106 2) (wb m.word 105 || wf m.word 108 3 == 2) (packDie p m q i) x (vals.getD i []) a.2
  let s := sqWriteLine (packDst tile m.word q) (wf m.word 100 4) i el a.1
  (if fmtMx (wf m.word 100 4) then writeBytes (packDst tile m.word q + 128 + 4 * i) (scs.map (BitVec.ofNat 8)) s else s, k)

theorem packCols_counted (vals : List (List FVal)) (k : Counts) :
    ((List.range 128).foldl (packColCounted p tile m q vals) (s, k)).1 = (List.range 128).foldl (packColStep p tile m q vals) s := by
  refine foldl_counted (fun v k j => ?_) _ _ _
  obtain ⟨el, scales⟩ := convLine_counts (wf m.word 100 4) (wf m.word 106 2) (wb m.word 105 || wf m.word 108 3 == 2) (fun i => packDie p m q i j) 0
    (vals.map fun r => r.getD j .nan) k {}
  unfold packColCounted packColStep packColumn packConv
  dsimp only
  rw [el, scales]

theorem packRows_counted (x : Int) (vals : List (List FVal)) (k : Counts) :
    ((List.range 128).foldl (packRowCounted p tile m q x vals) (s, k)).1 = (List.range 128).foldl (packRowStep p tile m q x vals) s := by
  refine foldl_counted (fun v k i => ?_) _ _ _
  obtain ⟨el, scales⟩ := convLine_counts (wf m.word 100 4) (wf m.word 106 2) (wb m.word 105 || wf m.word 108 3 == 2) (packDie p m q i) x (vals.getD i []) k {}
  unfold packRowCounted packRowStep packRow packConv
  dsimp only
  rw [el, scales]

theorem packSquare_eq (p : Play) (tile : Nat) (m : QMove) (q : Nat) (s : State) : ∃ k, packSquare p tile m q s =
    countConv (sidOf m.word) p.step k (packDesc tile m.word q (packScale tile m.word s q) (packVals tile m.word s q) (packBody p tile m q s)) := by
  unfold packSquare packBody
  extract_lets w sf df src dst sr margin axis vals die sc
  by_cases col : axis = 1
  · rw [if_pos col, if_pos col]
    generalize made : List.foldl _ (s, ({} : Counts)) (List.range 128) = r
    have counted : (List.range 128).foldl (packColCounted p tile m q vals) (s, {}) = r := made
    have body : (List.range 128).foldl (packColStep p tile m q (packVals tile m.word s q)) s = r.1 := (packCols_counted vals {}).symm.trans (congrArg Prod.fst counted)
    rw [body]
    exact ⟨r.2, rfl⟩
  · rw [if_neg col, if_neg col]
    generalize made : List.foldl _ (s, ({} : Counts)) (List.range 128) = r
    have counted : (List.range 128).foldl (packRowCounted p tile m q sc vals) (s, {}) = r := made
    have body : (List.range 128).foldl (packRowStep p tile m q (packScale tile m.word s q) (packVals tile m.word s q)) s = r.1 :=
      (packRows_counted sc vals {}).symm.trans (congrArg Prod.fst counted)
    rw [body]
    exact ⟨r.2, rfl⟩

end

end Sys2Proof.Machine
end

section
/-! SUPPORT. PACK at the head of an empty PLY queue (R168, R205, R568). -/

namespace Sys2Proof.Machine

section
variable {p : Play} {tile : Nat} {m : QMove} {s s₂ t u : State} {w : MoveWord} {q i j : Nat}

theorem far_packDst : nearEnd ≤ packDst tile w q := far_squareAt (nearEnd_le_tileAddr _ _)

theorem packConv_scales (mx : fmtMx (wf w 100 4) = true) (r : Nat → W32) (x : Int) (xs : List FVal) : (packConv w r x xs).2.1.length = 4 := convLine_scales mx ..

/-- The block scales of a line or column lie in the header. -/
theorem scales_touches (mx : fmtMx (wf w 100 4) = true) (r : Nat → W32) (x : Int) (xs : List FVal) (k : Nat) (less : k < 128) :
    Touches (Within (packDst tile w q) (fmtHdr (wf w 100 4))) s (writeBytes (packDst tile w q + 128 + 4 * k) ((packConv w r x xs).2.1.map (BitVec.ofNat 8)) s) := by
  refine (touches_writeBytes (far_add (far_add far_packDst 128) _) _ s).mono fun a inside => ?_
  rw [List.length_map, packConv_scales mx] at inside
  rw [fmtHdr_of_mx mx]
  obtain ⟨low, high⟩ := inside
  exact ⟨by omega, by omega⟩

/-- Nothing of a header lies in a line. -/
theorem header_apart {base c i y : Nat} : ¬Within base (fmtHdr c) (base + fmtHdr c + i * 16 * fmtBits c + y) := fun ⟨_, high⟩ => by omega

/-! ### Elements by rows -/

theorem packRowStep_touches (x : Int) (vals : List (List FVal)) (row : i < 128) : Touches
    (fun a => Within (packDst tile m.word q + fmtHdr (wf m.word 100 4) + i * 16 * fmtBits (wf m.word 100 4)) (16 * fmtBits (wf m.word 100 4)) a ∨
      Within (packDst tile m.word q) (fmtHdr (wf m.word 100 4)) a) s (packRowStep p tile m q x vals s i) := by
  have line := (touches_sqWriteLine (far_packDst (tile := tile) (w := m.word) (q := q)) (wf m.word 100 4) i (packRow p m q x vals i).1 s).mono
    (Q := fun a => Within (packDst tile m.word q + fmtHdr (wf m.word 100 4) + i * 16 * fmtBits (wf m.word 100 4)) (16 * fmtBits (wf m.word 100 4)) a ∨
      Within (packDst tile m.word q) (fmtHdr (wf m.word 100 4)) a) fun a => .inl
  unfold packRowStep
  split
  next mx => exact line.trans ((scales_touches mx _ _ _ i row).mono fun a => .inr)
  · exact line

theorem packRowStep_reads (hs : Inv s) (x : Int) (vals : List (List FVal)) (row : i < 128) (col : j < 128) :
    sqBits (packRowStep p tile m q x vals s i) (packDst tile m.word q) (wf m.word 100 4) i j = (packRow p m q x vals i).1.getD j 0 % 2 ^ fmtBits (wf m.word 100 4) := by
  rw [← sqBits_sqWriteLine_self hs far_packDst (wf m.word 100 4) i (packRow p m q x vals i).1 col]
  unfold packRowStep
  split
  next mx => exact (scales_touches mx _ _ _ i row).sqBits far_packDst _ _ _ fun _ _ => header_apart
  · rfl

theorem packRows_reads (hs : Inv s) (x : Int) (vals : List (List FVal)) (row : i < 128) (col : j < 128) :
    sqBits ((List.range 128).foldl (packRowStep p tile m q x vals) s) (packDst tile m.word q) (wf m.word 100 4) i j =
      (packRow p m q x vals i).1.getD j 0 % 2 ^ fmtBits (wf m.word 100 4) := by
  refine foldl_each (P := fun i u => sqBits u (packDst tile m.word q) (wf m.word 100 4) i j = (packRow p m q x vals i).1.getD j 0 % 2 ^ fmtBits (wf m.word 100 4))
    (I := Inv) hs (fun i mem u form => (packRowStep_touches x vals (List.mem_range.1 mem)).form form)
    (fun i mem u form => packRowStep_reads form x vals (List.mem_range.1 mem) col) ?_ i (List.mem_range.2 row)
  refine List.Pairwise.imp_of_mem (fun {i r} _ mem before u holds => ?_) List.pairwise_lt_range
  refine ((packRowStep_touches x vals (List.mem_range.1 mem)).sqBits far_packDst _ _ _ fun y inside reached => ?_).trans holds
  rcases reached with line | head
  · exact lines_apart (Nat.ne_of_lt before) inside line
  · exact header_apart head

/-! ### Elements by columns -/

theorem packColStep_body (vals : List (List FVal)) (mx : fmtMx (wf m.word 100 4) = true) (col : j < 128) : Touches (Within (packDst tile m.word q) (fmtHdr (wf m.word 100 4)))
    (sqWriteCol (packDst tile m.word q) (wf m.word 100 4) j (packColumn p m q vals j).1 s) (packColStep p tile m q vals s j) := scales_touches mx _ _ _ j col

theorem packColStep_touches (vals : List (List FVal)) (mx : fmtMx (wf m.word 100 4) = true) (col : j < 128) :
    Touches (Within (packDst tile m.word q) (sqSize (wf m.word 100 4))) s (packColStep p tile m q vals s j) := by
  refine ((sqWriteCol_touches far_packDst _).mono fun a inside => ?_).trans ((packColStep_body vals mx col).mono fun a inside => ?_)
  · obtain ⟨low, high⟩ := inside
    rw [sqSize_eq]
    exact ⟨by omega, by omega⟩
  · obtain ⟨low, high⟩ := inside
    rw [sqSize_eq]
    exact ⟨by omega, by omega⟩

theorem packCols_reads (hs : Inv s) (vals : List (List FVal)) (mx : fmtMx (wf m.word 100 4) = true) (row : i < 128) (col : j < 128) :
    sqBits ((List.range 128).foldl (packColStep p tile m q vals) s) (packDst tile m.word q) (wf m.word 100 4) i j =
      (packColumn p m q vals j).1.getD i 0 % 2 ^ fmtBits (wf m.word 100 4) := by
  have all := foldl_each (f := packColStep p tile m q vals) (xs := List.range 128) (s := s)
    (P := fun j u => Inv u ∧ (j < 128 → sqBits u (packDst tile m.word q) (wf m.word 100 4) i j = (packColumn p m q vals j).1.getD i 0 % 2 ^ fmtBits (wf m.word 100 4)))
    (I := Inv) hs (fun j mem u form => (packColStep_touches vals mx (List.mem_range.1 mem)).form form) (fun j mem u form => ?_) ?_ j (List.mem_range.2 col)
  · exact all.2 col
  · refine ⟨(packColStep_touches vals mx (List.mem_range.1 mem)).form form, fun col => ?_⟩
    refine ((packColStep_body vals mx col).sqBits far_packDst _ _ _ fun _ _ => header_apart).trans ?_
    exact sqWriteCol_reads form far_packDst _ row
  · refine List.Pairwise.imp_of_mem (fun {j k} mem mem' before u ⟨form, holds⟩ => ⟨(packColStep_touches vals mx (List.mem_range.1 mem')).form form, fun col => ?_⟩)
      List.pairwise_lt_range
    refine ((packColStep_body vals mx (List.mem_range.1 mem')).sqBits far_packDst _ _ _ fun _ _ => header_apart).trans ?_
    exact (sqWriteCol_ne form far_packDst _ (List.mem_range.1 mem') col (Nat.ne_of_lt before)).trans (holds col)

/-! ### One square -/

/-- PACK's word pairs AXIS 1 with MX formats alone. -/
def AxisMx (w : MoveWord) : Prop := wf w 104 1 = 1 → fmtMx (wf w 100 4) = true

/-- Element (i, j) of a destination square. -/
def packCell (p : Play) (tile : Nat) (m : QMove) (s : State) (q i j : Nat) : Nat :=
  (if wf m.word 104 1 = 1 then (packColumn p m q (packVals tile m.word s q) j).1.getD i 0
    else (packRow p m q (packScale tile m.word s q) (packVals tile m.word s q) i).1.getD j 0) % 2 ^ fmtBits (wf m.word 100 4)

theorem packBody_touches (axis : AxisMx m.word) : Touches (Within (packDst tile m.word q) (sqSize (wf m.word 100 4))) s (packBody p tile m q s) := by
  unfold packBody
  split
  next col => exact Touches.fold (.refl s) fun u j mem => packColStep_touches _ (axis col) (List.mem_range.1 mem)
  · refine Touches.fold (.refl s) fun u i mem => (packRowStep_touches _ _ (List.mem_range.1 mem)).mono fun a place => ?_
    rcases place with ⟨low, high⟩ | ⟨low, high⟩
    · have rows := Nat.mul_le_mul_right (16 * fmtBits (wf m.word 100 4)) (show i + 1 ≤ 128 from List.mem_range.1 mem)
      rw [Nat.add_mul, Nat.one_mul] at rows
      rw [Nat.mul_assoc] at low high
      rw [sqSize_eq]
      exact ⟨by omega, by omega⟩
    · rw [sqSize_eq]
      exact ⟨low, by omega⟩

theorem packBody_reads (hs : Inv s) (axis : AxisMx m.word) (row : i < 128) (col : j < 128) :
    sqBits (packBody p tile m q s) (packDst tile m.word q) (wf m.word 100 4) i j = packCell p tile m s q i j := by
  unfold packBody packCell
  split
  next column => exact packCols_reads hs _ (axis column) row col
  · exact packRows_reads hs _ _ row col

theorem fmtHdr_scaled {c : Nat} (scaled : fmtScaled c = true) : 128 ≤ fmtHdr c := by
  simp only [fmtScaled, Bool.and_eq_true, decide_eq_true_eq] at scaled
  unfold fmtHdr
  rw [if_neg (by omega)]
  split <;> omega

theorem packDesc_touches (x : Int) (vals : List (List FVal)) : Touches (Within (packDst tile w q) (fmtHdr (wf w 100 4))) s (packDesc tile w q x vals s) := by
  unfold packDesc
  split
  next scaled =>
    have hdr := fmtHdr_scaled scaled
    exact (sqWriteDesc_touches far_packDst _ _ _).mono fun a ⟨low, high⟩ => ⟨low, by omega⟩
  · exact .refl s

theorem packSquare_touches (axis : AxisMx m.word) : Touches (Within (packDst tile m.word q) (sqSize (wf m.word 100 4))) s (packSquare p tile m q s) := by
  obtain ⟨k, eq⟩ := packSquare_eq p tile m q s
  rw [eq]
  refine ((packBody_touches axis).trans ((packDesc_touches _ _).mono fun a inside => ?_)).step (countConv_frame _ _ _ _) (by decide)
  obtain ⟨low, high⟩ := inside
  rw [sqSize_eq]
  exact ⟨low, by omega⟩

/-- What a written square holds, from the state its source is read in. -/
def PackHolds (p : Play) (tile : Nat) (m : QMove) (s : State) (q : Nat) (t : State) : Prop :=
  (∀ i j, i < 128 → j < 128 → sqBits t (packDst tile m.word q) (wf m.word 100 4) i j = packCell p tile m s q i j) ∧
    (fmtScaled (wf m.word 100 4) = true → sqFmt t (packDst tile m.word q) = wf m.word 100 4 ∧ sqAxis t (packDst tile m.word q) = wf m.word 104 1 ∧
      sqScale t (packDst tile m.word q) = (if fmtMx (wf m.word 100 4) then 0x3F800000 else scale32 (packScale tile m.word s q)) ∧
      sqAmax t (packDst tile m.word q) = amax32 (packVals tile m.word s q).flatten)

/-- A square that is not touched keeps its elements and its descriptor line. -/
theorem PackHolds.stays {R : Nat → Prop} (h : PackHolds p tile m s q t) (touches : Touches R t u)
    (out : ∀ a, Within (packDst tile m.word q) (sqSize (wf m.word 100 4)) a → ¬R a) : PackHolds p tile m s q u := by
  obtain ⟨cells, fields⟩ := h
  refine ⟨fun i j row col => ?_, fun scaled => ?_⟩
  · exact (touches.sqBits far_packDst _ _ _ fun k inside => out _ (line_in_square _ row inside)).trans (cells i j row col)
  · have hdr := fmtHdr_scaled scaled
    have head {k n : Nat} (inside : k + n ≤ 128) : readN u (packDst tile m.word q + k) n = readN t (packDst tile m.word q + k) n :=
      touches.readN (far_add far_packDst k) fun x less => by
        rw [Nat.add_assoc]
        exact out _ (head_in_square _ (by omega))
    have first := head (k := 0) (n := 1) (by omega)
    rw [Nat.add_zero] at first
    unfold sqFmt sqAxis sqScale sqAmax at fields ⊢
    rw [first, head (by omega), head (by omega)]
    exact fields scaled

theorem wf_lt_two (w : MoveWord) (k : Nat) : wf w k 1 < 2 := wf_lt w k 1

theorem packSquare_holds (hs : Inv s) (axis : AxisMx m.word) : PackHolds p tile m s q (packSquare p tile m q s) := by
  obtain ⟨k, eq⟩ := packSquare_eq p tile m q s
  have counted (v : State) : Touches (fun _ => False) v (countConv (sidOf m.word) p.step k v) := (Touches.refl v).step (countConv_frame _ _ _ _) (by decide)
  have body := (packBody_touches (p := p) (tile := tile) (q := q) (s := s) axis).form hs
  have held : PackHolds p tile m s q (packDesc tile m.word q (packScale tile m.word s q) (packVals tile m.word s q) (packBody p tile m q s)) := by
    refine ⟨fun i j row col => ?_, fun scaled => ?_⟩
    · exact ((packDesc_touches _ _).sqBits far_packDst _ _ _ fun _ _ => header_apart).trans (packBody_reads hs axis row col)
    · unfold packDesc
      rw [if_pos scaled]
      exact sqWriteDesc_fields body far_packDst _ _ (wf_lt _ _ _) (wf_lt_two _ _)
  rw [eq]
  exact held.stays (counted _) fun _ _ no => no

/-! ### All squares -/

theorem blocks_apart {d n r a : Nat} (other : q ≠ r) (inside : Within (d + q * n) n a) : ¬Within (d + r * n) n a := by
  rintro ⟨low, high⟩
  obtain ⟨low', high'⟩ := inside
  rcases Nat.lt_or_gt_of_ne other with before | after
  · have rows := Nat.mul_le_mul_right n (show q + 1 ≤ r from before)
    rw [Nat.add_mul, Nat.one_mul] at rows
    omega
  · have rows := Nat.mul_le_mul_right n (show r + 1 ≤ q from after)
    rw [Nat.add_mul, Nat.one_mul] at rows
    omega

/-- The bytes of PACK's destination. -/
def PackDest (tile : Nat) (w : MoveWord) : Nat → Prop := Within (tileAddr tile (wf w 80 16 * 128)) (wf w 111 16 * sqSize (wf w 100 4))

/-- The bytes of PACK's source: its squares, and behind them their amaxes for a square-scaled format. -/
def packSourceLen (w : MoveWord) : Nat := wf w 111 16 * sqSize (wf w 96 4) + (if fmtSquare (wf w 100 4) then cdiv (4 * wf w 111 16) 128 * 128 else 0)

/-- PACK's operands lie apart from its destination. -/
def PackApart (w : MoveWord) : Prop :=
  Apart (wf w 64 16 * 128) (packSourceLen w) (wf w 80 16 * 128) (wf w 111 16 * sqSize (wf w 100 4)) ∧
    (fmtTensor (wf w 100 4) = true → Apart (wf w 166 16 * 128) 4 (wf w 80 16 * 128) (wf w 111 16 * sqSize (wf w 100 4)))

section
variable (apart : PackApart w) (touches : Touches (PackDest tile w) s t) (less : q < wf w 111 16)
include apart touches less

theorem packVals_stays : packVals tile w t q = packVals tile w s q := by
  unfold packVals
  refine List.map_congr_left fun i mem => touches.sqLine (far_squareAt (nearEnd_le_tileAddr _ _)) (fun a inside => ?_) (List.mem_range.1 mem) false
  obtain ⟨low, high⟩ := square_within _ _ less a inside
  exact apart_within apart.1 ⟨low, by unfold packSourceLen; omega⟩

theorem packScale_stays : packScale tile w t q = packScale tile w s q := by
  unfold packScale
  split
  next tensor => rw [touches.parF fun a inside => apart_within (apart.2 tensor) inside]
  · split
    next square =>
      rw [touches.parF fun a inside => apart_within apart.1 ?_]
      obtain ⟨low, high⟩ := inside
      unfold packSourceLen cdiv
      rw [if_pos square]
      unfold tileAddr at low high ⊢
      exact ⟨by omega, by omega⟩
    · rfl

end

theorem packSquares_touches (axis : AxisMx m.word) : Touches (PackDest tile m.word) s ((List.range (wf m.word 111 16)).foldl (fun s q => packSquare p tile m q s) s) :=
  Touches.fold (.refl s) fun _ _ mem => (packSquare_touches axis).mono fun _ => square_within _ _ (List.mem_range.1 mem) _

theorem packCell_of {v : State} (vals : packVals tile m.word v q = packVals tile m.word s q) (scale : packScale tile m.word v q = packScale tile m.word s q)
    (h : PackHolds p tile m v q t) : PackHolds p tile m s q t := by
  unfold PackHolds packCell at h ⊢
  rw [vals, scale] at h
  exact h

theorem packSquares_hold (hs : Inv s) (axis : AxisMx m.word) (apart : PackApart m.word) (less : q < wf m.word 111 16) :
    PackHolds p tile m s q ((List.range (wf m.word 111 16)).foldl (fun s q => packSquare p tile m q s) s) := by
  refine foldl_each (f := fun s q => packSquare p tile m q s) (P := PackHolds p tile m s) (I := fun u => Inv u ∧ Touches (PackDest tile m.word) s u) ⟨hs, .refl s⟩
    (fun q mem u ⟨form, touches⟩ => ?_) (fun q mem u ⟨form, touches⟩ => ?_) ?_ q (List.mem_range.2 less)
  · exact ⟨(packSquare_touches axis).form form, touches.trans ((packSquare_touches axis).mono fun _ => square_within _ _ (List.mem_range.1 mem) _)⟩
  · have inside := List.mem_range.1 mem
    exact packCell_of (packVals_stays apart touches inside) (packScale_stays apart touches inside) (packSquare_holds form axis)
  · refine List.pairwise_lt_range.imp fun {q r} before u holds => ?_
    exact holds.stays (packSquare_touches axis) fun a inside => blocks_apart (Nat.ne_of_lt before) inside

/-! ### The claim -/

theorem startMoveOf_pack (common : encCommon m.word = true) (op : opOf m.word = 0x28) (s : State) : startMoveOf p tile 2 m s = startPack p tile m s := by
  refine (if_neg (by rw [common]; decide)).trans ?_
  generalize opOf m.word = o at op
  subst op
  rfl

/-- The extents of PACK lie in the store. -/
def packFits (s : State) (p : Play) (tile : Nat) (w : MoveWord) : Bool :=
  storeOk s p tile (wf w 64 16 * 128) (packSourceLen w) && storeOk s p tile (wf w 80 16 * 128) (wf w 111 16 * sqSize (wf w 100 4)) &&
    (!fmtTensor (wf w 100 4) || storeOk s p tile (wf w 166 16 * 128) 4)

/-- What PACK answers past its checks. -/
def packGo (p : Play) (tile : Nat) (m : QMove) (s : State) : Start :=
  if fmtTensor (wf m.word 100 4) && !waitMet (knot s (tileKnot tile (wf m.word 127 7))) (BitVec.ofNat 32 (wf m.word 134 32)) then .hold
  else .run { m with started := true } ((List.range (wf m.word 111 16)).foldl (fun s q => packSquare p tile m q s) s)

theorem startPack_checked (p : Play) (tile : Nat) (m : QMove) (s : State) : startPack p tile m s =
    checkedStart (encPack m.word) (decide (2 < wf m.word 96 4) || decide (wf m.word 100 4 < 3)) none (packFits s p tile m.word) s (packGo p tile m s) := rfl

theorem wb_iff (w : MoveWord) (k : Nat) : wb w k = true ↔ wf w k 1 = 1 := by
  unfold wb wf fld
  rw [BitVec.getLsbD, Nat.testBit_eq_decide_div_mod_eq, decide_eq_true_iff]
  rfl

theorem axis_of_enc (enc : encPack w = true) : AxisMx w := by
  intro axis
  unfold encPack at enc
  simp only [Bool.and_eq_true, (wb_iff w 104).2 axis, Bool.not_true, Bool.false_or] at enc
  obtain ⟨⟨⟨-, mx⟩, -⟩, -⟩ := enc
  exact mx

/-- PACK's values by rows and by columns. -/
theorem packVals_row (tile : Nat) (w : MoveWord) (s : State) (q : Nat) (row : i < 128) :
    (packVals tile w s q).getD i [] = (List.range 128).map fun x => sqElem s (packSrc tile w q) (wf w 96 4) i x := by
  unfold packVals
  rw [List.getD_eq_getElem _ _ (by rw [List.length_map, List.length_range]; exact row), List.getElem_map, List.getElem_range]
  rfl

theorem packVals_column (tile : Nat) (w : MoveWord) (s : State) (q : Nat) (col : j < 128) :
    ((packVals tile w s q).map fun r => r.getD j .nan) = (List.range 128).map fun x => sqElem s (packSrc tile w q) (wf w 96 4) x j := by
  unfold packVals
  rw [List.map_map]
  refine List.map_congr_left fun i _ => ?_
  change ((List.range 128).map fun x => sqElem s (packSrc tile w q) (wf w 96 4) i x).getD j .nan = _
  rw [List.getD_eq_getElem _ _ (by rw [List.length_map, List.length_range]; exact col), List.getElem_map, List.getElem_range]

/-- An MX format has no scale of its own. -/
theorem packScale_mx (mx : fmtMx (wf w 100 4) = true) (tile : Nat) (s : State) (q : Nat) : packScale tile w s q = 0 := by
  simp only [fmtMx, Bool.and_eq_true, decide_eq_true_eq] at mx
  have tensor : fmtTensor (wf w 100 4) ≠ true := by
    unfold fmtTensor
    simp only [ne_eq, Bool.or_eq_true, beq_iff_eq]
    omega
  have square : fmtSquare (wf w 100 4) ≠ true := by
    unfold fmtSquare
    simp only [ne_eq, Bool.or_eq_true, beq_iff_eq]
    omega
  unfold packScale
  rw [if_neg tensor, if_neg square]

/-- An element of a destination square, by row or by column as AXIS says. -/
theorem packCell_eq (axis : AxisMx m.word) (row : i < 128) (col : j < 128) : packCell p tile m s q i j =
    (if wb m.word 104 then
      (packConv m.word (fun x => packDie p m q x j) (packScale tile m.word s q) ((List.range 128).map fun x => sqElem s (packSrc tile m.word q) (wf m.word 96 4) x j)).1.getD i 0
    else (packConv m.word (packDie p m q i) (packScale tile m.word s q) ((List.range 128).map fun x => sqElem s (packSrc tile m.word q) (wf m.word 96 4) i x)).1.getD j 0) %
      2 ^ fmtBits (wf m.word 100 4) := by
  unfold packCell
  by_cases column : wf m.word 104 1 = 1
  · rw [if_pos column, if_pos ((wb_iff _ _).2 column), packScale_mx (axis column)]
    unfold packColumn
    rw [packVals_column _ _ _ _ col]
  · rw [if_neg column, if_neg fun no => column ((wb_iff _ _).1 no)]
    unfold packRow
    rw [packVals_row _ _ _ _ row]

theorem packRuns : Claim.PackRuns := by
  intro l p tile m s s₂ atHead w sf df n src dst srcN formed pair fits ready
  obtain ⟨x, m₀, h⟩ := atHead.head
  obtain ⟨op, fault⟩ := atHead.row rfl
  have starts := Starts.of_head atHead (by decide)
  obtain ⟨bad, scaled, -, outside, goes⟩ := starts.checked fun common => (startMoveOf_pack common op s₂).trans (startPack_checked p tile m s₂)
  have paired : (decide (2 < sf) || decide (df < 3)) = !pair := by
    rw [Bool.eq_iff_iff]
    simp only [pair, Bool.or_eq_true, Bool.not_eq_true', Bool.and_eq_false_iff, decide_eq_true_eq, decide_eq_false_iff_not]
    omega
  have go (is : formed = true) (right : pair = true) (ok : fits = true) : startMoveOf p tile 2 m s₂ = packGo p tile m s₂ :=
    goes is (paired.trans (by rw [right]; rfl)) rfl ok
  refine ⟨bad, fun is no => scaled is (paired.trans (by rw [no]; rfl)), fun is right out => outside is (paired.trans (by rw [right]; rfl)) rfl out, fun is right ok waits => ?_,
    fun mild is right ok done => ?_⟩
  · have hold : startMoveOf p tile 2 m s₂ = .hold := by
      refine (go is right ok).trans (if_pos ?_)
      change (!fmtTensor df || waitMet _ _) = false at waits
      rw [Bool.or_eq_false_iff, Bool.not_eq_false'] at waits
      exact Bool.and_eq_true_iff.2 ⟨waits.1, by rw [Bool.not_eq_true']; exact waits.2⟩
    exact starts.waits hold
  · have start : startMoveOf p tile 2 m s₂ = .run { m with started := true } ((List.range n).foldl (fun s q => packSquare p tile m q s) s₂) := by
      refine (go is right ok).trans (if_neg fun both => ?_)
      obtain ⟨tensor, no⟩ := Bool.and_eq_true_iff.1 both
      change (!fmtTensor df || waitMet _ _) = true at done
      rw [Bool.or_eq_true, Bool.not_eq_true'] at done
      rw [Bool.not_eq_true'] at no
      rcases done with plain | met
      · exact nomatch plain.symm.trans tensor
      · exact nomatch met.symm.trans no
    have axis := axis_of_enc (Bool.and_eq_true_iff.1 is).2
    have frame : OnlyChanges [.watch, .mem] s₂ ((List.range n).foldl (fun s q => packSquare p tile m q s) s₂) :=
      OnlyChanges.fold (.refl _ _) fun u q f => f.step (packSquare_far p tile m q u) (by decide)
    obtain ⟨t, runs, head, masked, rest⟩ := h.runs_lane (m₁ := { m with started := true }) (by decide) atHead.fresh.2 rfl
      (startAny_lane fault mild (by rw [op]; decide) start) frame (by decide)
    refine ⟨t, runs, head, masked, ?_, rest .mem (by decide), (frame.mono (by decide)).step rest (by decide), fun form source number q less => ?_⟩
    · refine ((packSquares_touches axis).step rest (by decide)).keeps (fun y mem => ?_) fun a place => ⟨_, .head _, place⟩
      rw [List.mem_singleton.1 mem]
      exact nearEnd_le_tileAddr _ _
    · obtain ⟨cells, fields⟩ := (packSquares_hold (p := p) form axis ⟨source, number⟩ less).stays ((Touches.refl (R := fun _ => False) _).step rest (by decide)) fun _ _ no => no
      refine ⟨fun i j row col => (cells i j row col).trans (packCell_eq axis row col), fun scaled => ?_⟩
      obtain ⟨format, ax, scale, amax⟩ := fields scaled
      exact ⟨format, ax, scale, amax⟩

end

end Sys2Proof.Machine
end

section
/-! SUPPORT. A lane's residue check that fails twice, and a word with a failing byte that a move reads (R461, R468). -/

namespace Sys2Proof.Machine

section
variable {c : Instr} {p : Play} {tile code : Nat} {m m' : QMove} {s s₂ s₃ u : State}

/-- A residue check that fails twice writes nothing and faults the play (R468). -/
theorem startAny_twice (fault : m.fault = .lane true) (lane : laneOp (opOf m.word) = true) (start : startMoveOf p tile code m s = .run m' u) :
    startAny p tile code m s =
      .fault 3 (suspectTile (physTile s tile) 3 (laneResidue (unitOf 0 (physTile s tile)) (BitVec.ofNat 32 tile) p.origin p.id p.step false s)) := by
  have left : laneStart p tile m s (startMoveOf p tile code m s) =
      .fault 3 (suspectTile (physTile s tile) 3 (laneResidue (unitOf 0 (physTile s tile)) (BitVec.ofNat 32 tile) p.origin p.id p.step false s)) := by
    rw [start]
    unfold laneStart
    rw [lane, fault]
  unfold startAny parityStart
  dsimp only
  rw [left, fault]

/-- A word with a failing byte: lost, it faults the play; else the move starts from what the read left (R461). -/
theorem startAny_parity {pl : ParityPlace} {w : DataWord} (fault : m.fault = .parity pl w) (other : opOf m.word ≠ 0x30)
    (start : startMoveOf p tile code m s = .run m' u) : startAny p tile code m s =
      if (parityMeets pl w p.origin p.id p.step s).1 = true then .fault 1 (parityMeets pl w p.origin p.id p.step s).2
      else startMoveOf p tile code m (parityMeets pl w p.origin p.id p.step s).2 := by
  have lane (v : State) (r : Start) : laneStart p tile m v r = r := by
    unfold laneStart
    rw [fault]
    cases laneOp (opOf m.word) <;> cases r <;> rfl
  unfold startAny parityStart
  dsimp only
  rw [lane, start, fault]
  refine (if_neg other).trans ?_
  rw [lane]

theorem laneFaultsInPly : Claim.LaneFaultsInPly := by
  refine ⟨fun c p tile m m' s s₂ s₃ listed atHead start => ?_, fun c p tile code m m' pl w s s₂ s₃ starts fault other start => ?_⟩
  · have row : laneOp (opOf m.word) = true ∧ m.fault = .lane true := by
      simp only [List.mem_cons, List.not_mem_nil, or_false] at listed
      rcases listed with rfl | rfl | rfl | rfl | rfl | rfl | rfl | rfl
      all_goals
        obtain ⟨op, fault⟩ := atHead.row rfl
        exact ⟨by rw [op]; decide, fault⟩
    obtain ⟨lane, fault⟩ := row
    have any := startAny_twice fault lane start
    generalize residue : laneResidue (unitOf 0 (physTile s₂ tile)) (BitVec.ofNat 32 tile) p.origin p.id p.step false s₂ = v at any
    have logged : OnlyChanges [.host, .xing, .store] s₂ v := by
      rw [← residue]
      exact laneResidue_frame _ _ _ _ _ _ _
    have raised : Raises Ev.laneResidue s₂ v := by
      rw [← residue]
      exact raises_record rfl _ _ _ _ _ _ _ _ _
    have recorded : Records 3 s₂ v := by
      rw [← residue]
      exact records_record rfl id _ _ _ _ _ _ _ _ _
    have suspect := suspectTile_frame (physTile s₂ tile) 3 v
    obtain ⟨t, y, ran, found, faulted, place, stopped, rest⟩ := (Starts.of_head atHead (by decide)).faults_from any
      ((suspect .plays (by decide)).trans (logged .plays (by decide)))
    have host : t.host = v.host := (rest .host (by decide)).trans (suspect .host (by decide))
    have store : t.store = v.store := (rest .store (by decide)).trans (suspect .store (by decide))
    refine ⟨t, y, ran, found, faulted, place, stopped, ?_, ?_, ?_, ((logged.mono (by decide)).step suspect (by decide)).step rest (by decide)⟩
    · unfold Raises at raised ⊢
      rw [host]
      exact raised
    · unfold Records at recorded ⊢
      rw [store]
      exact recorded
    · rw [rest .rel (by decide)]
      exact (suspectTile_rel _ _ _).2
  · intro r
    have any := startAny_parity fault other start
    have met : OnlyChanges [.cap, .knots, .host, .xing, .freeCtr, .store, .rel, .mem, .near] s₂ r.2 := parityMeets_frame pl w p.origin p.id p.step s₂
    refine ⟨fun lost => ?_, fun intact => ?_⟩
    · rw [if_pos lost] at any
      exact starts.faults any met (by decide)
    · have answered := starts.answers
      rwa [any, if_neg (by rw [show (parityMeets pl w p.origin p.id p.step s₂).1 = false from intact]; decide)] at answered

end

/-- Settles O31. -/
theorem plyMovesRun : Obligations.PlyMovesRun := ⟨topkRanks, topkRuns, rowsMove, gatherScatterRun, packRuns, elemRuns, laneFaultsInPly⟩

end Sys2Proof.Machine
end

section
/-! SUPPORT. A line cache whose copy of a unit holds a byte too many: a MOVE that hits it writes that byte behind its destination unit (R258, R259). -/

namespace Sys2Proof.Machine

open Sys2Proof.Tests

/-- A copy of the source unit of `cMove`, one byte longer than a unit. -/
def longLine : CacheLine := { unit := 2 ^ 21, data := List.replicate 129 1 }

/-- `cMove` about to be fetched, its source unit in the line cache so. -/
def longFetch : State :=
  { fetchS cMove with caches := [(5, [{ unit := 1, data := toLE 32 cMove.2.2.toNat ++ List.replicate 96 0 }, longLine])] }

/-- The state with `cMove` in its queue, and its play there. -/
def longHead : State := queued (play0 cMove) 5 3 (move0 cMove) longFetch

def longPlay : Play := (getPlay longHead 1).getD (play0 cMove)

theorem longFetch_word : fetchMove (play0 cMove) (sq0 cMove) longFetch = .word cMove.2.2 longFetch := by
  have checked : (match fetchMove (play0 cMove) (sq0 cMove) longFetch with
      | .word w s => decide (w = cMove.2.2 ∧ s = longFetch)
      | _ => false) = true := by decide +kernel
  split at checked
  next w s fetched =>
    obtain ⟨rfl, rfl⟩ := of_decide_eq_true checked
    exact fetched
  · exact nomatch checked

theorem longFetches : Fetches (.move 5 .none) (play0 cMove) (sq0 cMove) (move0 cMove) 5 3 longFetch longFetch := by
  refine ⟨by decide +kernel, by decide +kernel, longFetch_word, by decide +kernel, by decide +kernel, fun _ => rfl, rfl, rfl⟩

theorem long_atHead : AtHead (.move 5 .none) longPlay 5 3 (move0 cMove) longFetch longHead := by
  have play : getPlay longHead 1 = some longPlay ∧ longPlay.order = 1 ∧ longPlay.live = true := by decide +kernel
  obtain ⟨found, order, live⟩ := play
  refine ⟨by decide +kernel, ⟨play0 cMove, sq0 cMove, move0 cMove, longFetch, { tile := 5, code := 3, moves := [move0 cMove] }, longFetches, order.symm, rfl, by decide +kernel, rfl, rfl⟩, ?_, live⟩
  rw [order]
  exact found

/-- The copying reaches its last unit, and the run writes the byte behind the destination's only unit. -/
theorem long_copies :
    moveUnits cMove.2.2 = [(2 ^ 28, tileAddr 5 0)] ∧
      (match exec (.move 5 .none) longFetch with
        | .next t => decide (readByte t (tileAddr 5 128) = 1)
        | _ => false) = true ∧
      readByte longHead (tileAddr 5 128) = 0 := by decide +kernel

/-- What the move may change by its destination: the one unit it names. -/
theorem long_places :
    ((moveUnits (move0 cMove).word).flatMap fun u => (moveDest longHead 5 u.2).filterMap fun d =>
      if d.1 = 0 then some (d.2.1, d.2.2.1) else none) = [(tileAddr 5 0, 128)] := by decide +kernel

/-- No check stops the move; its memory serves, and no crossing on its way is closed. -/
theorem long_unchecked :
    encCommon (move0 cMove).word = true ∧ moveCheck longHead longPlay 5 (move0 cMove).word = none ∧
      moveWaits longHead (move0 cMove).word = false ∧ moveClosed longHead 5 (move0 cMove).word = false := by decide +kernel

/-- The byte behind the destination unit lies at no place of the unit. -/
theorem behind_unit_apart (s : State) (x : Nat × Nat) (place : x ∈ [(tileAddr 5 0, 128)]) (i : Nat) (below : i < x.2) :
    memKey s (tileAddr 5 128) ≠ memKey s (x.1 + i) := by
  obtain rfl := List.mem_singleton.mp place
  have far : nearEnd ≤ tileAddr 5 128 := by decide
  have apart : tileAddr 5 0 + i ≠ tileAddr 5 128 := by
    change i < 128 at below
    simp only [tileAddr]
    omega
  exact (memKey_ne_of_far far apart s).symm

/-- No run of the move keeps the bytes outside its destination. -/
theorem long_not_kept {t : State} (ran : exec (.move 5 .none) longFetch = .next t) :
    ¬ KeepsBytes [(tileAddr 5 0, 128)] longHead t := by
  intro kept
  obtain ⟨-, written, empty⟩ := long_copies
  rw [ran] at written
  have one : readByte t (tileAddr 5 128) = 1 := of_decide_eq_true written
  rw [kept _ (behind_unit_apart longHead), empty] at one
  exact absurd one (by decide)

/-- Refutes O33: the bytes of a line cache's copy may be more than a unit (`longFetch`), and a MOVE whose source lies in it writes them all,
behind its destination too, which `Claim.MoverMovesRun` says it keeps. -/
theorem not_arrayMoverExchangeMovesRun : ¬ Obligations.ArrayMoverExchangeMovesRun := by
  unfold Obligations.ArrayMoverExchangeMovesRun
  rintro ⟨-, -, -, -, mover, -⟩
  obtain ⟨-, moves⟩ := mover longPlay 5 3 (move0 cMove) longFetch longHead (by decide)
  obtain ⟨formed, unchecked, serves, opened⟩ := long_unchecked
  obtain ⟨-, -, runs⟩ := moves .none long_atHead
  obtain ⟨-, -, runs⟩ := runs formed unchecked
  obtain ⟨-, -, -, runs, -⟩ := runs (fun _ _ => nofun) (fun _ _ => nofun)
  have copied := runs serves opened (fun _ _ _ => nofun)
  rw [long_places] at copied
  split at copied
  next =>
    obtain ⟨t, ran, -, -, kept, -⟩ := copied
    exact long_not_kept ran kept
  next =>
    obtain ⟨t, y, ran, -, -, -, kept, -⟩ := copied
    exact long_not_kept ran kept
  next =>
    obtain ⟨t, y, ran, -, -, -, -, kept, -⟩ := copied
    exact long_not_kept ran kept

end Sys2Proof.Machine
end
